-- ==== Sys2Proof/Word.lean ====
section
/-!
DEFINITION. Word.lean: the word types of the machine and nothing else (spec 00 R3, R4; 01 R12, R15).
-/

namespace Sys2Proof

/-- A byte. -/
abbrev Byte := BitVec 8
/-- A 32-bit register value in one lane (R15). -/
abbrev Word := BitVec 32
/-- A 64-bit value: a register pair (R15), a PC (R34) or an address. -/
abbrev DWord := BitVec 64
/-- A set of lanes, lane l in bit l; crews have W = 64 lanes on this part (R12). -/
abbrev Mask := BitVec 64
/-- A register row: one word for each of the 64 lanes, lane 0 first (R12). -/
abbrev Row := List Word

/-- The crew width W of the Y160-P and Y160-M (R12). -/
abbrev laneCount : Nat := 64
/-- The lane indices 0 to W-1. -/
abbrev lanes : List Nat := List.range 64

end Sys2Proof
end

