-- ==== Sys2Proof/Config.lean ====
section
/-!
DEFINITION. Config.lean: what the specification leaves open. A free value is an opaque constant without a body, so that
nothing can be proved of the number it gives: every statement holds for each of them.
-/

namespace Sys2Proof

/-- Free choices and free values: the value for a stamp (the state's counter, advanced by every instruction and event) and
a tag that says what is chosen. A choice among n takes it modulo n; a free value of w bits takes it modulo 2^w. (log 4, DESIGN CHOICE) -/
opaque Config.free (stamp : Nat) (tag : List Nat) : Nat

/-- Signing and the certificates of 24 R424 to R427: the bytes SECP produces for a message under a key. (log 9, DESIGN CHOICE) -/
opaque Config.sign (key : Nat) (data : List Byte) (len : Nat) : List Byte

/-- The public key that the certificate of the package with an identity digest names (24 R427, R437). (log 9, DESIGN CHOICE) -/
opaque Config.certKey (idd : List Byte) : List Byte

/-- The key, in bits 287:32, and the salt that the n-th key exchange of a port gives its transmit or receive direction: the shared secret,
expanded; no instruction or register shows them (R433). (log 9, DESIGN CHOICE) -/
opaque Config.linkKey (port n : Nat) (tx : Bool) : BitVec 288

/-- Bytes of the device identity: public key, IDD and certificate of 24 R427. (log 9, DESIGN CHOICE) -/
opaque Config.identity (part : Nat) (len : Nat) : List Byte

/-- Parts of a firmware image of 24 R425: 0 its header, 1 the digest in it, 2 its signature, 3 the body, 4 the rollback version. (log 9, DESIGN CHOICE) -/
opaque Config.image (part : Nat) (img : List Byte) : List Byte

end Sys2Proof
end

