-- ==== Sys2Proof/Syntax.lean ====
section
/-!
DEFINITION. Syntax.lean: the instructions and events of the machine, one constructor for each row of
spec/opcode_table.json. An instruction carries every field of its format (02 R43, R49, R50; 14 R307), the reserved ones
too, because a reserved bit that is set is an issue-time check of the device (R58, R309) and not a matter of decoding.
-/

namespace Sys2Proof

/-- The issue controls of an instruction header below OPC (R43). -/
structure Hdr where
  /-- minimum issue distance (R44) -/
  stall : BitVec 4
  /-- bit i: wait until flag fi reads zero (R46) -/
  wait : BitVec 12
  /-- flag counted, 0 to 11; 15 none (R46) -/
  setf : BitVec 4
  /-- cache policy (R48) -/
  hint : BitVec 2
deriving DecidableEq, Repr

/-- A guard field (R50): guard register, bit index, negation; all zero means no guard. -/
structure Guard where
  k : BitVec 3
  bit : BitVec 5
  neg : BitVec 1
deriving DecidableEq, Repr

/-- Format R, register (R49). -/
structure FormR where
  h : Hdr
  ga : Guard
  gb : Guard
  /-- modifier field, read as R54 or R56 -/
  md : BitVec 12
  d : BitVec 8
  a : BitVec 8
  b : BitVec 8
  c : BitVec 8
  rsv : BitVec 2
deriving DecidableEq, Repr

/-- Format X, five operands (R49). -/
structure FormX where
  h : Hdr
  ga : Guard
  gb : Guard
  d : BitVec 8
  a : BitVec 8
  b : BitVec 8
  c : BitVec 8
  e : BitVec 8
  rsv : BitVec 6
deriving DecidableEq, Repr

/-- Format I, immediate (R49). -/
structure FormI where
  h : Hdr
  ga : Guard
  d : BitVec 8
  a : BitVec 8
  imm : BitVec 32
  sub : BitVec 7
deriving DecidableEq, Repr

/-- Format M, memory (R49); HND is read by R52, OFS by R52 or R64. -/
structure FormM where
  h : Hdr
  ga : Guard
  gb : Guard
  hnd : BitVec 12
  d : BitVec 8
  a : BitVec 8
  b : BitVec 8
  ofs : BitVec 10
deriving DecidableEq, Repr

/-- Format B, branch (R49, R53). -/
structure FormB where
  h : Hdr
  ga : Guard
  gb : Guard
  tgt : BitVec 22
  slot : BitVec 3
  a : BitVec 8
  sub : BitVec 13
deriving DecidableEq, Repr

/-- Format T, tile (R49). -/
structure FormT where
  h : Hdr
  ga : Guard
  gb : Guard
  trec : BitVec 4
  a : BitVec 8
  b : BitVec 8
  c : BitVec 8
  d : BitVec 8
  sub : BitVec 10
deriving DecidableEq, Repr

/-- Format S, system (R49): 55 bits whose fields the instruction's entry gives. -/
structure FormS where
  h : Hdr
  ga : Guard
  body : BitVec 55
deriving DecidableEq, Repr

/-- Cox format CR (R307). -/
structure FormCR where
  d : BitVec 4
  a : BitVec 4
  b : BitVec 4
  rsv : BitVec 46
deriving DecidableEq, Repr

/-- Cox format CI (R307). -/
structure FormCI where
  d : BitVec 4
  a : BitVec 4
  rsv : BitVec 18
  imm : BitVec 32
deriving DecidableEq, Repr

/-- Cox format CB (R307). -/
structure FormCB where
  a : BitVec 4
  b : BitVec 4
  rsv : BitVec 38
  tgt : BitVec 12
deriving DecidableEq, Repr

/-- Cox format CC (R307). -/
structure FormCC where
  buf : BitVec 4
  ireg : BitVec 4
  treg : BitVec 4
  wtag : BitVec 8
  stag : BitVec 8
  rsv : BitVec 30
deriving DecidableEq, Repr

/-- Cox format CF (R307). -/
structure FormCF where
  buf : BitVec 4
  oreg : BitVec 4
  vreg : BitVec 4
  rsv : BitVec 46
deriving DecidableEq, Repr

/-- The words of an encoded instruction: 96 bits for a crew (R33), 64 bits for a cox (R307). -/
inductive Encoded where
  | crew (w : BitVec 96)
  | cox (w : BitVec 64)
deriving DecidableEq, Repr

/-- Why bytes are not an instruction. -/
inductive DecodeError where
  /-- fewer than 12 bytes of a crew instruction (R33) -/
  | crewTooShort
  /-- fewer than 8 bytes of a cox instruction (R307) -/
  | coxTooShort
deriving DecidableEq, Repr

/-- One constructor for each row of the table of operations and events: the crew instructions (R62) with their whole
encoded content, the cox instructions (R308), and the events of the other agents with what each brings from outside.
The events stand first: compiled Lean can build only the first 245 constructors that carry fields (see Decode). -/
inductive Instr where
  /-- A variable-latency instruction writes its results and decrements its flag. (R46) -/
  | instructionCompletion (crew : Nat) (flight : Nat)
  /-- Posts a held record once the fault queue has room. (R388) -/
  | faultRecordRetry (i : Nat)
  /-- Retries an unwritable fault-queue write every 2^16 CLOCK units. (R388) -/
  | faultQueueWriteRetry (i : Nat)
  /-- An engine or fabric operation finishes and is counted off OCNT in issue order. (R175) -/
  | engineOperationRetire (id : Nat)
  /-- After awaited operations retire, releases and adds to the flag. (R184) -/
  | tsigAdd (id : Nat)
  /-- A free engine starts the earliest posted READY slice. (R266) -/
  | tileSliceStart (core : Nat)
  /-- A tile task finishes all slices and retires with its status and OVF bits. (R266) -/
  | tileTaskRetire (id : Nat) (slice : Nat)
  /-- The allocator grants the oldest waiting accumulator request. (R267) -/
  | accaGrant (core : Nat)
  /-- Releases a unit once every earlier task using it has retired. (R205) -/
  | accfUnitRelease (i : Nat)
  /-- The barrier count reaches LIMIT times 1024 and the umpire acts. (R274) -/
  | umpireTimeout (blk : Nat) (cl : Bool) (id : Nat)
  /-- A gate call's cycle budget expires and the call is unwound. (R218) -/
  | gateBudgetExpire (crew : Nat) (level : Nat)
  /-- The pause count runs out and the crew's demotion ends. (R157) -/
  | pauseExpire (crew : Nat)
  /-- Every SPINT cycles, swaps a long-spinning B block for a waiting one. (R264) -/
  | spinHandoff (blk : Nat) (vcore : Nat)
  /-- A pfd request whose deadline passes before it begins is dropped. (R169) -/
  | pfdDeadlineDrop (core : Nat) (order : Nat)
  /-- The stakeboat admits a pending launch when it can be placed. (R253) -/
  | launchAdmission (id : Nat)
  /-- A pending Q launch's deadline expires and it is rejected LATE. (R253) -/
  | launchDeadlineExpire (id : Nat)
  /-- Places a block on a core when resources free and dependences are met. (R255) -/
  | blockPlacement (launch : Nat) (first : Nat) (cores : List Nat) (quads : List Nat) (vcores : List Nat) (out : List Nat)
  /-- Frees a crew's registers once its counters reach zero. (R11) -/
  | crewRetire (crew : Nat)
  /-- A block retires, releases and sets its completion bitmap bit. (R261) -/
  | blockRetire (blk : Nat)
  /-- Moves a B or H block between cores with release and acquire. (R246) -/
  | blockMigration (blk : Nat) (core : Nat) (quads : List Nat)
  /-- The driver stops a context and in-flight operations end for the image. (R367) -/
  | contextPreempt (ctx : Nat)
  /-- A core image finishes writing and the launch may read SUSPENDED. (R369) -/
  | contextImageComplete (ctx : Nat) (vcore : Nat)
  /-- Places saved core images and restores the context before any issue. (R379) -/
  | contextRestore (ctx : Nat) (cores : List (Nat × Nat)) (quads : List Nat)
  /-- The 64th cycle a Q crew is blocked by a harvest instruction starts revocation. (R269) -/
  | harvestInterference (core : Nat)
  /-- On an owner demand, stops harvest crews and starts parking. (R270) -/
  | harvestRevocation (core : Nat)
  /-- Parking copy ends, lending turns off and the owner takes everything. (R270) -/
  | harvestParkComplete (core : Nat)
  /-- Parked harvest state resumes on its core when it fits. (R271) -/
  | harvestResume (blk : Nat) (quads : List Nat)
  /-- The driver evicts parked harvest state to the context image. (R271) -/
  | harvestEvict (blk : Nat)
  /-- A die applies an arriving write once its vector clock is satisfied. (R236) -/
  | remoteWriteApply (i : Nat)
  /-- A replica applies a multicast write of a replicated page in page order. (R241) -/
  | replicaApply (i : Nat)
  /-- A router pops a route entry and forwards or delivers a packet. (R284) -/
  | packetForward (i : Nat)
  /-- A WRITE packet lands as plain writes at the target. (R286) -/
  | write (i : Nat)
  /-- A read request is served at the target and answered. (R283) -/
  | readreq (i : Nat)
  /-- A read response lands in the requester's reserved space. (R283) -/
  | readrsp (i : Nat)
  /-- An atomic packet is applied at the word's home. (R186) -/
  | atomic (i : Nat)
  /-- A marker copy is counted and MARKACK sent when all have arrived. (R287) -/
  | marker (i : Nat)
  /-- The marker acknowledgement retires the fmark. (R287) -/
  | markack (i : Nat)
  /-- A member checks its group entry and region and answers PROBEACK. (R292) -/
  | probe (i : Nat)
  /-- A probe answer is collected by the issuing package. (R292) -/
  | probeack (i : Nat)
  /-- A member combines an arriving partial with its bytes and forwards it. (R292) -/
  | reduce (i : Nat)
  /-- A reduction result arrives in the staging buffer. (R292) -/
  | redrsp (i : Nat)
  /-- The receive engine lands or refuses an arriving chunk packet. (R321) -/
  | chunk (i : Nat)
  /-- A member makes cox contexts for a collective start. (R326) -/
  | start (i : Nat)
  /-- A member applies a group abort and advances its SEQ. (R296) -/
  | abort (i : Nat)
  /-- An abort acknowledgement is counted by the detector. (R296) -/
  | abortack (i : Nat)
  /-- A refused chunk is resent, or ends the context on STAT ABORT. (R324) -/
  | refuse (i : Nat)
  /-- A fabric request's response misses FABTO and it retires LINKDOWN. (R295) -/
  | fabricResponseTimeout (id : Nat)
  /-- A port loses training or fails 64 retries and its traffic is detoured. (R295) -/
  | portDown (p : Nat) (back : Nat)
  /-- Training completes: the port goes UP or is marked MISWIRE. (R443) -/
  | portTraining (p : Nat) (ok : Bool) (peer : Nat)
  /-- A DOWN port retrains every 2^24 cycles, up to 16 attempts. (R443) -/
  | portAutoRetrain (p : Nat)
  /-- A peer's port-state announcement updates LSTATE. (R444) -/
  | linkStateAnnouncement (k : Nat) (i : Nat) (up : Bool)
  /-- An ML-KEM link key-exchange frame is processed and keys installed. (R433) -/
  | keyExchangeMessage (p : Nat) (ok : Bool)
  /-- A link frame is sent, advancing the flit counter through WARN and HELD. (R434) -/
  | frameSend (p : Nat) (ch : Nat) (hops : Nat)
  /-- A received frame's tag is checked, dropping it on failure. (R433) -/
  | frameReceive (p : Nat) (ok : Bool) (sel : Bool) (hdr : List (BitVec 32)) (data : List (BitVec 8)) (bad : List Nat) (side : List Nat)
  /-- A waiting cox context's condition is met and it becomes READY. (R327) -/
  | coxWaitSatisfied (port : Nat) (k : Nat)
  /-- 65,536 instructions without a chunk boundary fault with SPIN. (R328) -/
  | coxSpinFault (port : Nat)
  /-- A chunk refused with STAT OK for FABTO faults with REFUSED. (R324) -/
  | coxRefusalTimeout (port : Nat) (k : Nat)
  /-- A held START makes its context when a slot frees. (R326) -/
  | coxStartSlotFree (port : Nat)
  /-- A held START with no free slot within FABTO is dropped ABSENT. (R326) -/
  | coxStartHoldTimeout (port : Nat)
  /-- A new context finishes loading descriptors and becomes READY. (R326) -/
  | coxDescriptorLoadComplete (port : Nat) (k : Nat)
  /-- A start slot clears BUSY at FABTO, counting silent members ABSENT. (R418) -/
  | startWindowTimeout (i : Nat)
  /-- A write launches a record from the management window. (R416) -/
  | bootl (pa : BitVec 64)
  /-- Resumes the agent that posted a fault record. (R391) -/
  | frespResume (dom : Bool) (owner : Nat) (seq : Nat)
  /-- Declines a fault: unwind a callee, retire XLATE, or terminate. (R391) -/
  | frespDecline (dom : Bool) (owner : Nat) (seq : Nat)
  /-- Terminates the context that posted a fault record. (R391) -/
  | frespTerminate (dom : Bool) (owner : Nat) (seq : Nat)
  /-- Writes a management register that has no behaviour of its own. (R414) -/
  | mgmtRegisterWrite (bar : Nat) (off : Nat) (wide : Bool) (v : BitVec 64)
  /-- Writes an address-group entry, validating it when V is set. (R288) -/
  | addressGroupWrite (g : Nat) (w : Nat) (v : BitVec 32)
  /-- Sends a collective START from a start slot. (R418) -/
  | startGo (i : Nat) (group : Nat)
  /-- Loads a cox instruction word unless its region is valid. (R301) -/
  | coxInstructionMemoryWrite (port : Nat) (w : Nat) (v : BitVec 64)
  /-- Writes a program-region entry unless a context runs in it. (R301) -/
  | coxRegionWrite (port : Nat) (i : Nat) (v : BitVec 64)
  /-- Writes c0 to c15 or PC of a faulted cox slot. (R302) -/
  | coxSlotStateWrite (port : Nat) (k : Nat) (r : Nat) (v : BitVec 64)
  /-- Makes a faulted cox context READY. (R305) -/
  | ctlResume (port : Nat) (k : Nat)
  /-- Single-steps a faulted cox context. (R331) -/
  | ctlStep (port : Nat) (k : Nat)
  /-- Ends a cox context. (R332) -/
  | ctlKill (port : Nat) (k : Nat)
  /-- SECP returns the identity public key, IDD and certificate. (R427) -/
  | getid
  /-- SECP returns a signed attestation report for a context. (R432) -/
  | attest
  /-- Opens a key-domain with a fresh key. (R429) -/
  | kdopen
  /-- Seals a key-domain, claims its frames and measures the context. (R431) -/
  | kdseal
  /-- Frees a key-domain and erases its key. (R429) -/
  | kdclose
  /-- Maps a page for a sealed context and invalidates the old entry. (R431) -/
  | kdmap
  /-- Installs a new link key on a port. (R435) -/
  | rekey
  /-- Installs a multi-package context record. (R436) -/
  | mpcset
  /-- Admits members whose reports match the MPC policy. (R437) -/
  | mpcjoin
  /-- Applies a signed revocation of an MPC member. (R439) -/
  | revoke
  /-- Verifies a firmware image and writes it to the staging bank. (R455) -/
  | fwstage
  /-- Makes the staging bank active, optionally raising rollback counters. (R455) -/
  | fwcommit
  /-- SECP writes STATUS, clears BUSY and posts vector 4. (R428) -/
  | secpCommandComplete
  /-- Places the package in its domain and starts port training. (R440) -/
  | fabcfg (v : BitVec 32)
  /-- Holds a port out of service. (R442) -/
  | portctlAdmdn (p : Nat) (v : Bool)
  /-- Retrains a port now. (R442) -/
  | portctlRetrain (p : Nat)
  /-- Maps a spare port in place of a logical port. (R442) -/
  | portctlMapv (p : Nat) (v : Bool) (lport : Nat)
  /-- Clears every RAS counter. (R449) -/
  | rasclr
  /-- A host write through BAR2 to package HBM. (R409) -/
  | bar2Write (off : Nat) (data : List (BitVec 8))
  /-- A host read through BAR2 of package HBM. (R409) -/
  | bar2Read (off : Nat) (len : Nat)
  /-- Pre-empts all work, stops cores and links, and self-refreshes HBM. (R423) -/
  | enterD3hot
  /-- Returns to D0 and retrains the links. (R423) -/
  | leaveD3hot
  /-- Starts bring-up from RESET with SECP verifying firmware. (R421) -/
  | perstDeassert
  /-- Firmware verification ends, entering SECURE or FAILED. (R425) -/
  | firmwareVerify (imgs : List (Bool × Bool × Nat × List (BitVec 8)))
  /-- D0 memory and host link train and REDUCED service begins. (R421) -/
  | secureTrainingComplete (memOk : Bool) (coresOk : Bool) (linkOk : Bool)
  /-- The rest of the package trains and FULL service begins. (R422) -/
  | fullServiceTransition (dieUp : BitVec 4) (stackUp : BitVec 8) (cxlUp : BitVec 4)
  /-- Every 100 us steps the arithmetic clock under the power and thermal limits. (R453) -/
  | clockStep (avg : BitVec 32) (pkg : BitVec 32) (dies : List (BitVec 32)) (temps : List (BitVec 32)) (hbm : List (BitVec 32))
  /-- A sensor reaches 110 degrees C and the package powers off its dies. (R454) -/
  | thermtrip
  /-- Loss of power loses all state. (R423) -/
  | powerRemoval
  /-- Reads each HBM line daily, correcting or poisoning it. (R447) -/
  | patrolScrub (line : Nat) (kind : Nat)
  /-- An uncorrectable on-core error terminates the owning context. (R448) -/
  | onCoreUncorrectable (core : Nat) (crew : Nat) (blk : Nat)
  /-- A CXL port loses its link and far accesses fail. (R408) -/
  | cxlLinkDown (p : Nat) (lost : List (Nat × Nat))
  /-- Issuing an instruction word whose OPC is unassigned raises ILLOP with no effect. (R63) -/
  | illop (opc : BitVec 10) (rest : BitVec 86)
  /-- A cox context that reaches a word whose OPC R308 does not list faults with ILLOP. (R309) -/
  | coxIllop (opc : BitVec 6) (rest : BitVec 58)
  /-- Assertion of PERST# resets the device to its reset values and to stage RESET. (R421) -/
  | perstAssert
  /-- A host write through BAR4 that unmasks an MSI-X table entry sends the message held pending for it. (R420) -/
  | msixVectorUnmask (v : Nat)
  /-- An HBM stack finishes or fails training, which releases or poisons accesses waiting on it and updates STACKUP. (R422) -/
  | hbmStackEntersService (stack : Nat) (ok : Bool)
  /-- A pfx or pfd finishes fetching its pages, and its tracker or queue entry becomes idle. (R167) -/
  | prefetchComplete (core : Nat) (n : Nat)
  /-- Writes the 32-bit sum of A and B in each active lane. (R104) -/
  | iaddI32 (f : FormR)
  /-- Writes the 32-bit difference A minus B in each active lane. (R104) -/
  | isubI32 (f : FormR)
  /-- Writes the 32-bit sum of A, B and C in each active lane. (R104) -/
  | iadd3I32 (f : FormR)
  /-- Adds A, B and the carry bit of C, writing the sum to D and the carry to E. (R105) -/
  | iaddcI32 (f : FormX)
  /-- Subtracts B and the borrow bit of C from A, writing the difference to D and the borrow to E. (R105) -/
  | isubbI32 (f : FormX)
  /-- Writes the low 32 bits of the signed product of A and B. (R104) -/
  | imulI32 (f : FormR)
  /-- Writes the high 32 bits of the signed product of A and B. (R104) -/
  | imulhiI32 (f : FormR)
  /-- Writes the high 32 bits of the unsigned product of A and B. (R104) -/
  | imulhiN32 (f : FormR)
  /-- Writes A times B plus C, modulo 2^32. (R104) -/
  | imadI32 (f : FormR)
  /-- Writes to pair D the signed 64-bit product of A and B plus pair C. (R106) -/
  | imadwI32 (f : FormR)
  /-- Writes to pair D the unsigned 64-bit product of A and B plus pair C. (R106) -/
  | imadwN32 (f : FormR)
  /-- Writes the signed minimum of A and B. (R104) -/
  | iminI32 (f : FormR)
  /-- Writes the signed maximum of A and B. (R104) -/
  | imaxI32 (f : FormR)
  /-- Writes the unsigned minimum of A and B. (R104) -/
  | iminN32 (f : FormR)
  /-- Writes the unsigned maximum of A and B. (R104) -/
  | imaxN32 (f : FormR)
  /-- Writes the 64-bit sum of pairs A and B. (R107) -/
  | iaddI64 (f : FormR)
  /-- Writes the 64-bit difference of pairs A and B. (R107) -/
  | isubI64 (f : FormR)
  /-- Writes a 64-bit base plus a signed index shifted left by the low six bits of C. (R107) -/
  | lea (f : FormR)
  /-- Adds a signed 32-bit immediate to A. (R108) -/
  | iaddiI32 (f : FormI)
  /-- Adds a sign-extended immediate to pair A. (R108) -/
  | iaddiI64 (f : FormI)
  /-- Multiplies A by a signed immediate, modulo 2^32. (R108) -/
  | imuliI32 (f : FormI)
  /-- Writes the bitwise AND of A and B. (R109) -/
  | andB32 (f : FormR)
  /-- Writes the bitwise OR of A and B. (R109) -/
  | orB32 (f : FormR)
  /-- Writes the bitwise XOR of A and B. (R109) -/
  | xorB32 (f : FormR)
  /-- Writes A AND NOT B. (R109) -/
  | andnB32 (f : FormR)
  /-- Writes the bitwise complement of A. (R109) -/
  | notB32 (f : FormR)
  /-- Shifts A left by the count in B, giving 0 for counts of 32 or more. (R110) -/
  | shlB32 (f : FormR)
  /-- Shifts A logically right by the count in B. (R110) -/
  | shrN32 (f : FormR)
  /-- Shifts A arithmetically right by the count in B. (R110) -/
  | shrI32 (f : FormR)
  /-- Rotates A left by the count in B modulo 32. (R110) -/
  | rotlB32 (f : FormR)
  /-- Rotates A right by the count in B modulo 32. (R110) -/
  | rotrB32 (f : FormR)
  /-- Shifts pair A left by the count in B. (R110) -/
  | shlB64 (f : FormR)
  /-- Shifts pair A logically right by the count in B. (R110) -/
  | shrN64 (f : FormR)
  /-- Shifts pair A arithmetically right by the count in B. (R110) -/
  | shrI64 (f : FormR)
  /-- Extracts an unsigned bit field of A at the position in B and the length in C. (R111) -/
  | bfeN32 (f : FormR)
  /-- Extracts a sign-extended bit field of A. (R111) -/
  | bfeI32 (f : FormR)
  /-- Inserts the low bits of B into A at the position in C and the length in E. (R112) -/
  | bfiB32 (f : FormX)
  /-- Writes the number of 1 bits in A. (R113) -/
  | popcB32 (f : FormR)
  /-- Writes the number of leading zero bits of A. (R113) -/
  | clzB32 (f : FormR)
  /-- Writes the number of trailing zero bits of A. (R113) -/
  | ctzB32 (f : FormR)
  /-- Writes A with its bit order reversed. (R113) -/
  | brevB32 (f : FormR)
  /-- Assembles a word from the bytes of A and B under the byte controls in C. (R114) -/
  | bswB32 (f : FormR)
  /-- Copies A, with its modifier applied, to D. (R115) -/
  | movB32 (f : FormR)
  /-- Writes a 32-bit immediate to D. (R115) -/
  | moviB32 (f : FormI)
  /-- Writes A where C is nonzero and B otherwise. (R115) -/
  | selB32 (f : FormR)
  /-- Selects bits of A or B under the bit mask in C. (R115) -/
  | bselB32 (f : FormR)
  /-- Writes A AND an immediate. (R109) -/
  | andiB32 (f : FormI)
  /-- Writes A OR an immediate. (R109) -/
  | oriB32 (f : FormI)
  /-- Writes A XOR an immediate. (R109) -/
  | xoriB32 (f : FormI)
  /-- Sets one guard bit where A equals the comparand as bit patterns. (R116) -/
  | cmpEqB32 (f : FormI)
  /-- Sets one guard bit where A differs from the comparand. (R116) -/
  | cmpNeB32 (f : FormI)
  /-- Sets one guard bit where A is signed less than the comparand. (R116) -/
  | cmpLtI32 (f : FormI)
  /-- Sets one guard bit where A is signed at most the comparand. (R116) -/
  | cmpLeI32 (f : FormI)
  /-- Sets one guard bit where A is signed greater than the comparand. (R116) -/
  | cmpGtI32 (f : FormI)
  /-- Sets one guard bit where A is signed at least the comparand. (R116) -/
  | cmpGeI32 (f : FormI)
  /-- Sets one guard bit where A is unsigned less than the comparand. (R116) -/
  | cmpLtN32 (f : FormI)
  /-- Sets one guard bit where A is unsigned at most the comparand. (R116) -/
  | cmpLeN32 (f : FormI)
  /-- Sets one guard bit where A is unsigned greater than the comparand. (R116) -/
  | cmpGtN32 (f : FormI)
  /-- Sets one guard bit where A is unsigned at least the comparand. (R116) -/
  | cmpGeN32 (f : FormI)
  /-- Defines a register queue over a window of registers, emptying it. (R119) -/
  | qdef (f : FormI)
  /-- Makes a register queue undefined. (R120) -/
  | qfree (f : FormI)
  /-- Writes the FP32 sum of A and B, rounded once. (R124) -/
  | faddF32 (f : FormR)
  /-- Writes the FP32 difference of A and B, rounded once. (R124) -/
  | fsubF32 (f : FormR)
  /-- Writes the FP32 product of A and B, rounded once. (R124) -/
  | fmulF32 (f : FormR)
  /-- Writes A times B plus C with one FP32 rounding. (R124) -/
  | ffmaF32 (f : FormR)
  /-- Writes the FP32 minimum of A and B under the NaN rules. (R125) -/
  | fminF32 (f : FormR)
  /-- Writes the FP32 maximum of A and B under the NaN rules. (R125) -/
  | fmaxF32 (f : FormR)
  /-- Multiplies A by an FP32 immediate. (R126) -/
  | fmuliF32 (f : FormI)
  /-- Adds an FP32 immediate to A. (R126) -/
  | faddiF32 (f : FormI)
  /-- Writes a one-hot class word for the FP32 source. (R129) -/
  | fclsF32 (f : FormR)
  /-- Sets a guard bit where A and the comparand are ordered and equal. (R130) -/
  | fcmpEqF32 (f : FormI)
  /-- Sets a guard bit where A and the comparand are unordered or differ. (R130) -/
  | fcmpNeF32 (f : FormI)
  /-- Sets a guard bit where A is ordered and less than the comparand. (R130) -/
  | fcmpLtF32 (f : FormI)
  /-- Sets a guard bit where A is ordered and at most the comparand. (R130) -/
  | fcmpLeF32 (f : FormI)
  /-- Sets a guard bit where A is ordered and greater than the comparand. (R130) -/
  | fcmpGtF32 (f : FormI)
  /-- Sets a guard bit where A is ordered and at least the comparand. (R130) -/
  | fcmpGeF32 (f : FormI)
  /-- Sets a guard bit where either source is NaN. (R130) -/
  | fcmpUnF32 (f : FormI)
  /-- Sets a guard bit where neither source is NaN. (R130) -/
  | fcmpOrF32 (f : FormI)
  /-- Adds two packed FP16 elements each. (R127) -/
  | haddF16x2 (f : FormR)
  /-- Multiplies two packed FP16 elements each. (R127) -/
  | hmulF16x2 (f : FormR)
  /-- Fused multiply-add on packed FP16 elements. (R127) -/
  | hfmaF16x2 (f : FormR)
  /-- Packed FP16 minimum. (R127) -/
  | hminF16x2 (f : FormR)
  /-- Packed FP16 maximum. (R127) -/
  | hmaxF16x2 (f : FormR)
  /-- Adds two packed BF16 elements each. (R127) -/
  | haddBf16x2 (f : FormR)
  /-- Multiplies two packed BF16 elements each. (R127) -/
  | hmulBf16x2 (f : FormR)
  /-- Fused multiply-add on packed BF16 elements. (R127) -/
  | hfmaBf16x2 (f : FormR)
  /-- Packed BF16 minimum. (R127) -/
  | hminBf16x2 (f : FormR)
  /-- Packed BF16 maximum. (R127) -/
  | hmaxBf16x2 (f : FormR)
  /-- Adds packed 16-bit integers with wrapping. (R117) -/
  | vaddI16x2 (f : FormR)
  /-- Subtracts packed 16-bit integers with wrapping. (R117) -/
  | vsubI16x2 (f : FormR)
  /-- Adds packed 8-bit integers with wrapping. (R117) -/
  | vaddI8x4 (f : FormR)
  /-- Subtracts packed 8-bit integers with wrapping. (R117) -/
  | vsubI8x4 (f : FormR)
  /-- Packed signed 16-bit minimum. (R117) -/
  | vminI16x2 (f : FormR)
  /-- Packed signed 16-bit maximum. (R117) -/
  | vmaxI16x2 (f : FormR)
  /-- Packed signed 8-bit minimum. (R117) -/
  | vminI8x4 (f : FormR)
  /-- Packed signed 8-bit maximum. (R117) -/
  | vmaxI8x4 (f : FormR)
  /-- Packed unsigned 8-bit minimum. (R117) -/
  | vminN8x4 (f : FormR)
  /-- Packed unsigned 8-bit maximum. (R117) -/
  | vmaxN8x4 (f : FormR)
  /-- Adds packed 16-bit integers with saturation. (R117) -/
  | vaddsatI16x2 (f : FormR)
  /-- Adds packed 8-bit integers with saturation. (R117) -/
  | vaddsatI8x4 (f : FormR)
  /-- Adds to C the signed dot product of four byte pairs. (R118) -/
  | dp4I8x4 (f : FormR)
  /-- Adds to C the unsigned dot product of four byte pairs. (R118) -/
  | dp4N8x4 (f : FormR)
  /-- Adds to C the signed dot product of two half-word pairs. (R118) -/
  | dp2I16x2 (f : FormR)
  /-- Adds to C the signed dot product of eight nibble pairs. (R118) -/
  | dp8I4x8 (f : FormR)
  /-- Writes the FP64 sum of pairs A and B. (R128) -/
  | daddF64 (f : FormR)
  /-- Writes the FP64 difference of pairs A and B. (R128) -/
  | dsubF64 (f : FormR)
  /-- Writes the FP64 product of pairs A and B. (R128) -/
  | dmulF64 (f : FormR)
  /-- FP64 fused multiply-add with one rounding. (R128) -/
  | dfmaF64 (f : FormR)
  /-- FP64 minimum under the NaN rules. (R128) -/
  | dminF64 (f : FormR)
  /-- FP64 maximum under the NaN rules. (R128) -/
  | dmaxF64 (f : FormR)
  /-- Writes a one-hot class word for the FP64 source. (R129) -/
  | dclsF64 (f : FormR)
  /-- FP64 ordered-equal compare into a guard bit. (R130) -/
  | dcmpEqF64 (f : FormI)
  /-- FP64 unordered-or-not-equal compare into a guard bit. (R130) -/
  | dcmpNeF64 (f : FormI)
  /-- FP64 less-than compare into a guard bit. (R130) -/
  | dcmpLtF64 (f : FormI)
  /-- FP64 less-or-equal compare into a guard bit. (R130) -/
  | dcmpLeF64 (f : FormI)
  /-- FP64 greater-than compare into a guard bit. (R130) -/
  | dcmpGtF64 (f : FormI)
  /-- FP64 greater-or-equal compare into a guard bit. (R130) -/
  | dcmpGeF64 (f : FormI)
  /-- FP64 unordered test into a guard bit. (R130) -/
  | dcmpUnF64 (f : FormI)
  /-- FP64 ordered test into a guard bit. (R130) -/
  | dcmpOrF64 (f : FormI)
  /-- Writes the rounded FP32 reciprocal. (R131) -/
  | rcpF32 (f : FormR)
  /-- Writes the FP32 reciprocal square root, rounded to nearest even. (R131) -/
  | rsqrtF32 (f : FormR)
  /-- Writes the rounded FP32 square root. (R131) -/
  | sqrtF32 (f : FormR)
  /-- Writes 2 to the power of the source, rounded to nearest even. (R131) -/
  | exp2F32 (f : FormR)
  /-- Writes the base-2 logarithm, rounded to nearest even. (R131) -/
  | log2F32 (f : FormR)
  /-- Writes the sine of the source in radians. (R131) -/
  | sinF32 (f : FormR)
  /-- Writes the cosine of the source in radians. (R131) -/
  | cosF32 (f : FormR)
  /-- Writes the hyperbolic tangent of the source. (R131) -/
  | tanhF32 (f : FormR)
  /-- Writes the rounded FP64 reciprocal. (R131) -/
  | rcpF64 (f : FormR)
  /-- Writes the rounded FP64 square root. (R131) -/
  | sqrtF64 (f : FormR)
  /-- Converts one source element to one destination element with one rounding. (R134) -/
  | cvt (f : FormI)
  /-- Converts one element with stochastic rounding, consuming one draw. (R134) -/
  | cvtSr (f : FormI)
  /-- Packs four FP32 sources into E4M3 codes. (R135) -/
  | packE4m3 (f : FormX)
  /-- Packs four FP32 sources into E5M2 codes. (R135) -/
  | packE5m2 (f : FormX)
  /-- Packs eight FP32 sources into E2M1 codes. (R135) -/
  | packE2m1 (f : FormX)
  /-- Packs eight INT32 sources into INT4 elements. (R135) -/
  | packI4 (f : FormX)
  /-- Expands four E4M3 elements to FP32 registers. (R136) -/
  | unpackE4m3 (f : FormR)
  /-- Expands four E5M2 elements to FP32 registers. (R136) -/
  | unpackE5m2 (f : FormR)
  /-- Expands eight E2M1 elements to FP32 registers. (R136) -/
  | unpackE2m1 (f : FormR)
  /-- Sign-extends eight INT4 elements to registers. (R136) -/
  | unpackI4 (f : FormR)
  /-- Quantises one block per lane segment, writing element codes and a shared scale. (R138) -/
  | qblk (f : FormR)
  /-- Restores an FP32 value from an element code and a scale code. (R139) -/
  | dqblk (f : FormR)
  /-- Makes one generator draw and writes it. (R140) -/
  | rngnext (f : FormR)
  /-- Sets each lane's generator state to A plus the lane times B. (R140) -/
  | rngseed (f : FormR)
  /-- Reads A from a lane rotated within the segment. (R144) -/
  | xlaneRot (f : FormI)
  /-- Reads A from a lower lane at a distance. (R144) -/
  | xlaneShup (f : FormI)
  /-- Reads A from a higher lane at a distance. (R144) -/
  | xlaneShdn (f : FormI)
  /-- Reads A from a lane named by a register. (R144) -/
  | xlaneIdx (f : FormI)
  /-- Broadcasts A from one lane of each segment. (R144) -/
  | xbcast (f : FormI)
  /-- Exchanges register fragments between lane pairs at an XOR distance. (R145) -/
  | bfly (f : FormI)
  /-- Integer sum reduction over the active lanes of each segment. (R146) -/
  | redAddI32 (f : FormI)
  /-- Signed minimum reduction. (R146) -/
  | redMinI32 (f : FormI)
  /-- Signed maximum reduction. (R146) -/
  | redMaxI32 (f : FormI)
  /-- Bitwise AND reduction. (R146) -/
  | redAndB32 (f : FormI)
  /-- Bitwise OR reduction. (R146) -/
  | redOrB32 (f : FormI)
  /-- Bitwise XOR reduction. (R146) -/
  | redXorB32 (f : FormI)
  /-- FP32 sum reduction in a fixed bracketing. (R146) -/
  | redAddF32 (f : FormI)
  /-- FP32 minimum reduction. (R146) -/
  | redMinF32 (f : FormI)
  /-- FP32 maximum reduction. (R146) -/
  | redMaxF32 (f : FormI)
  /-- Inclusive integer prefix sum over each segment. (R146) -/
  | scanAddI32 (f : FormI)
  /-- Inclusive signed prefix minimum. (R146) -/
  | scanMinI32 (f : FormI)
  /-- Inclusive signed prefix maximum. (R146) -/
  | scanMaxI32 (f : FormI)
  /-- Inclusive FP32 prefix sum in a fixed bracketing. (R146) -/
  | scanAddF32 (f : FormI)
  /-- Writes a lane mask of one predicate bit over the segment. (R147) -/
  | ballot (f : FormI)
  /-- Sets a guard bit to the OR of a predicate bit over the segment. (R147) -/
  | any (f : FormI)
  /-- Sets a guard bit to the AND of a predicate bit over the segment. (R147) -/
  | all (f : FormI)
  /-- Writes the mask of lanes holding the same value. (R147) -/
  | matchLanes (f : FormI)
  /-- Ranks segment values and writes the top K values and lane indices. (R148) -/
  | topk (f : FormI)
  /-- Transfers the active lanes to a direct target, splitting the slot if needed. (R151) -/
  | bra (f : FormB)
  /-- Transfers each active lane to the target in its pair. (R153) -/
  | brx (f : FormB)
  /-- Writes a link and transfers to a direct target. (R154) -/
  | call (f : FormB)
  /-- Writes a link and transfers to per-lane targets. (R154) -/
  | callx (f : FormB)
  /-- Transfers each active lane to the return PC in its pair. (R153) -/
  | ret (f : FormB)
  /-- Parks the issuing slot at a reconvergence point and applies merge, refill and release. (R155) -/
  | join (f : FormS)
  /-- Removes the active lanes from the issuing slot for good. (R156) -/
  | exit (f : FormS)
  /-- Decrements a counter and branches while it is nonzero. (R152) -/
  | loop (f : FormB)
  /-- Demotes the crew's issue class for a number of cycles. (R157) -/
  | pause (f : FormI)
  /-- Has no effect beyond its header controls. (R158) -/
  | nop (f : FormS)
  /-- Loads a byte, zero-extended. (R164) -/
  | ldN8 (f : FormM)
  /-- Loads a byte, sign-extended. (R164) -/
  | ldI8 (f : FormM)
  /-- Loads a half, zero-extended. (R164) -/
  | ldN16 (f : FormM)
  /-- Loads a half, sign-extended. (R164) -/
  | ldI16 (f : FormM)
  /-- Loads a word. (R164) -/
  | ldB32 (f : FormM)
  /-- Loads a double into a pair. (R164) -/
  | ldB64 (f : FormM)
  /-- Loads 16 bytes into a group of four registers. (R164) -/
  | ldB128 (f : FormM)
  /-- Loads a word as an acquire at its scope. (R164) -/
  | ldAcqB32 (f : FormM)
  /-- Loads a double as an acquire at its scope. (R164) -/
  | ldAcqB64 (f : FormM)
  /-- Stores a byte. (R164) -/
  | stB8 (f : FormM)
  /-- Stores a half. (R164) -/
  | stB16 (f : FormM)
  /-- Stores a word. (R164) -/
  | stB32 (f : FormM)
  /-- Stores a double from a pair. (R164) -/
  | stB64 (f : FormM)
  /-- Stores 16 bytes from a group of four registers. (R164) -/
  | stB128 (f : FormM)
  /-- Stores a word as a release at its scope. (R164) -/
  | stRelB32 (f : FormM)
  /-- Stores a double as a release at its scope. (R164) -/
  | stRelB64 (f : FormM)
  /-- Stores one bit per lane as a W/8-byte mask. (R165) -/
  | stmask (f : FormM)
  /-- Starts a range prefetch and returns a cancel handle. (R167) -/
  | pfx (f : FormM)
  /-- Queues a deadline prefetch of a handle's range. (R169) -/
  | pfd (f : FormM)
  /-- Cancels the unstarted pages of named prefetches. (R168) -/
  | pcancel (f : FormR)
  /-- ld.n8 with a 64-bit offset pair. (R65) -/
  | ldN8O64 (f : FormM)
  /-- ld.i8 with a 64-bit offset pair. (R65) -/
  | ldI8O64 (f : FormM)
  /-- ld.n16 with a 64-bit offset pair. (R65) -/
  | ldN16O64 (f : FormM)
  /-- ld.i16 with a 64-bit offset pair. (R65) -/
  | ldI16O64 (f : FormM)
  /-- ld.b32 with a 64-bit offset pair. (R65) -/
  | ldB32O64 (f : FormM)
  /-- ld.b64 with a 64-bit offset pair. (R65) -/
  | ldB64O64 (f : FormM)
  /-- ld.b128 with a 64-bit offset pair. (R65) -/
  | ldB128O64 (f : FormM)
  /-- ld.acq.b32 with a 64-bit offset pair. (R65) -/
  | ldAcqB32O64 (f : FormM)
  /-- ld.acq.b64 with a 64-bit offset pair. (R65) -/
  | ldAcqB64O64 (f : FormM)
  /-- st.b8 with a 64-bit offset pair. (R65) -/
  | stB8O64 (f : FormM)
  /-- st.b16 with a 64-bit offset pair. (R65) -/
  | stB16O64 (f : FormM)
  /-- st.b32 with a 64-bit offset pair. (R65) -/
  | stB32O64 (f : FormM)
  /-- st.b64 with a 64-bit offset pair. (R65) -/
  | stB64O64 (f : FormM)
  /-- st.b128 with a 64-bit offset pair. (R65) -/
  | stB128O64 (f : FormM)
  /-- st.rel.b32 with a 64-bit offset pair. (R65) -/
  | stRelB32O64 (f : FormM)
  /-- st.rel.b64 with a 64-bit offset pair. (R65) -/
  | stRelB64O64 (f : FormM)
  /-- stmask with a 64-bit offset pair. (R65) -/
  | stmaskO64 (f : FormM)
  /-- pfx with a 64-bit offset pair. (R65) -/
  | pfxO64 (f : FormM)
  /-- pfd with a 64-bit offset pair. (R65) -/
  | pfdO64 (f : FormM)
  /-- Atomic integer add at the home, returning the old value. (R171) -/
  | atomAddI32 (f : FormM)
  /-- Atomic FP32 add with rne, returning the old value. (R171) -/
  | atomAddF32 (f : FormM)
  /-- Atomic signed minimum. (R171) -/
  | atomMinI32 (f : FormM)
  /-- Atomic signed maximum. (R171) -/
  | atomMaxI32 (f : FormM)
  /-- Atomic unsigned minimum. (R171) -/
  | atomMinN32 (f : FormM)
  /-- Atomic unsigned maximum. (R171) -/
  | atomMaxN32 (f : FormM)
  /-- Atomic bitwise AND. (R171) -/
  | atomAndB32 (f : FormM)
  /-- Atomic bitwise OR. (R171) -/
  | atomOrB32 (f : FormM)
  /-- Atomic bitwise XOR. (R171) -/
  | atomXorB32 (f : FormM)
  /-- Atomic word exchange. (R171) -/
  | atomExchB32 (f : FormM)
  /-- Atomic word compare-and-swap. (R171) -/
  | atomCasB32 (f : FormM)
  /-- Atomic 64-bit integer add. (R171) -/
  | atomAddI64 (f : FormM)
  /-- Atomic 64-bit exchange. (R171) -/
  | atomExchB64 (f : FormM)
  /-- Atomic 64-bit compare-and-swap. (R171) -/
  | atomCasB64 (f : FormM)
  /-- Atomic packed BF16 add. (R171) -/
  | atomAddBf16x2 (f : FormM)
  /-- Performs an acquire, release or acqrel fence of the crew at a scope. (R172) -/
  | fence (f : FormS)
  /-- Integer add in place in bank memory. (R173) -/
  | bankopAddI32 (f : FormM)
  /-- FP32 add in place in bank memory. (R173) -/
  | bankopAddF32 (f : FormM)
  /-- FP32 minimum in place in bank memory. (R173) -/
  | bankopMinF32 (f : FormM)
  /-- FP32 maximum in place in bank memory. (R173) -/
  | bankopMaxF32 (f : FormM)
  /-- FP32 multiply in place in bank memory. (R173) -/
  | bankopMulF32 (f : FormM)
  /-- Posts a linear byte copy to the copy engine. (R176) -/
  | cp (f : FormX)
  /-- Posts a strided row copy. (R176) -/
  | cp2d (f : FormX)
  /-- Posts a strided plane-of-rows copy. (R176) -/
  | cp3d (f : FormX)
  /-- Posts a copy of scale codes into scale memory. (R178) -/
  | cpScale (f : FormX)
  /-- Posts an indexed gather of N elements. (R177) -/
  | gather (f : FormX)
  /-- Posts an indexed scatter of N elements. (R177) -/
  | scatter (f : FormX)
  /-- Waits until copy operations retire and orders them, raising ENGINE on error. (R182) -/
  | waitcCp (f : FormI)
  /-- Waits until gather and scatter operations retire. (R182) -/
  | waitcGa (f : FormI)
  /-- Waits until tile tasks retire. (R182) -/
  | waitcMx (f : FormI)
  /-- Waits until fabric commands retire, raising FABRIC or KEY. (R182) -/
  | waitcFb (f : FormI)
  /-- Sets an arrival counter. (R183) -/
  | arrinit (f : FormI)
  /-- Waits until an arrival counter reaches a value, then acquires the landings. (R183) -/
  | arrw (f : FormI)
  /-- Reads an arrival counter into every active lane. (R183) -/
  | arrrd (f : FormI)
  /-- Posts a tile signal that adds to a flag after the awaited operations retire. (R184) -/
  | tsig (f : FormM)
  /-- Posts a fabric write of local bytes to a remote package. (R185) -/
  | fput (f : FormX)
  /-- Posts a fabric read of remote bytes into local memory. (R185) -/
  | fget (f : FormX)
  /-- Posts a remote atomic update without a return value. (R186) -/
  | fatom (f : FormX)
  /-- Sends fence markers on every path to a target. (R187) -/
  | fmark (f : FormS)
  /-- Posts an in-router reduction of a group's members into local memory. (R188) -/
  | fldred (f : FormX)
  /-- Posts a multicast write to every member of a group. (R185) -/
  | fstmc (f : FormX)
  /-- Writes a tile record from a group of eight registers. (R196) -/
  | tshape (f : FormT)
  /-- Posts a dense E4M3 tile task. (R197) -/
  | mmaE4m3 (f : FormT)
  /-- Posts a dense E5M2 tile task. (R197) -/
  | mmaE5m2 (f : FormT)
  /-- Posts a dense tile task with E4M3 A and E5M2 B. (R197) -/
  | mmaE4e5 (f : FormT)
  /-- Posts a dense tile task with E5M2 A and E4M3 B. (R197) -/
  | mmaE5e4 (f : FormT)
  /-- Posts a dense E2M1 tile task. (R197) -/
  | mmaE2m1 (f : FormT)
  /-- Posts a dense BF16 tile task. (R197) -/
  | mmaBf16 (f : FormT)
  /-- Posts a dense FP16 tile task. (R197) -/
  | mmaF16 (f : FormT)
  /-- Posts a dense INT8 tile task. (R197) -/
  | mmaI8 (f : FormT)
  /-- Posts a ternary-by-INT8 tile task. (R197) -/
  | mmaT5 (f : FormT)
  /-- Posts a 2:4 sparse E4M3 tile task. (R198) -/
  | mmasE4m3 (f : FormT)
  /-- Posts a 2:4 sparse E5M2 tile task. (R198) -/
  | mmasE5m2 (f : FormT)
  /-- Posts a 2:4 sparse E2M1 tile task. (R198) -/
  | mmasE2m1 (f : FormT)
  /-- Posts a 2:4 sparse BF16 tile task. (R198) -/
  | mmasBf16 (f : FormT)
  /-- Posts a 2:4 sparse FP16 tile task. (R198) -/
  | mmasF16 (f : FormT)
  /-- Posts a 2:4 sparse INT8 tile task. (R198) -/
  | mmasI8 (f : FormT)
  /-- Posts a task that adds scaled partials into the accumulator. (R199) -/
  | msacc (f : FormT)
  /-- Posts a task that zeroes the accumulator or partial region. (R200) -/
  | mzero (f : FormT)
  /-- Requests accumulator units for the block, waiting for the grant. (R204) -/
  | acca (f : FormI)
  /-- Releases accumulator units once their tasks retire. (R205) -/
  | accf (f : FormI)
  /-- Reads accumulator words into registers. (R206) -/
  | accld (f : FormT)
  /-- Posts a task that stores a tile to memory with optional conversion. (R201) -/
  | accst (f : FormT)
  /-- Writes each token's rank and count within its expert. (R209) -/
  | bucket (f : FormR)
  /-- Arrives at a block barrier and waits for the phase to complete. (R212) -/
  | bar (f : FormS)
  /-- Arrives at a block barrier without waiting. (R212) -/
  | barArrive (f : FormS)
  /-- Waits until the armed barrier phase completes. (R212) -/
  | barWait (f : FormS)
  /-- Arrives at and waits on a cluster-group barrier. (R213) -/
  | cbar (f : FormS)
  /-- Calls a service in another protection domain through a gate entry. (R215) -/
  | gate (f : FormS)
  /-- Returns from a gate call to the caller. (R217) -/
  | gret (f : FormS)
  /-- Raises SWTRAP with a code. (R220) -/
  | trap (f : FormS)
  /-- Returns from the trap in service and delivers the next queued trap. (R387) -/
  | tret (f : FormS)
  /-- Raises BREAK with a code. (R220) -/
  | brk (f : FormS)
  /-- Discards fetched lines so later fetches read current memory. (R222) -/
  | ifence (f : FormS)
  /-- Reads a special register in the user view. (R221) -/
  | gets (f : FormS)
  /-- Writes a special register in the user view. (R221) -/
  | sets (f : FormS)
  /-- Releases and submits a launch record to the stakeboat. (R225) -/
  | launch (f : FormS)
  /-- Lets the block be switched out when another waits for the core. (R226) -/
  | yield (f : FormS)
  /-- Turns lending off and starts harvest revocation on the core. (R227) -/
  | hvhintRecall (f : FormS)
  /-- Turns lending on for the core. (R227) -/
  | hvhintLend (f : FormS)
  /-- Reads a special register in the privileged view. (R221) -/
  | getsp (f : FormS)
  /-- Writes a special register in the privileged view, used for restore. (R221) -/
  | setsp (f : FormS)
  /-- Discards a VA range from every instruction cache. (R223) -/
  | icinv (f : FormS)
  /-- Writes back dirty host and far lines of a range. (R223) -/
  | cwb (f : FormS)
  /-- Writes back and drops host and far lines of a range. (R223) -/
  | cinv (f : FormS)
  /-- Invalidates translations of one VA in one ASID. (R224) -/
  | tlbinvVa (f : FormS)
  /-- Invalidates translations of one ASID. (R224) -/
  | tlbinvAsid (f : FormS)
  /-- Invalidates every translation of the package. (R224) -/
  | tlbinvAll (f : FormS)
  /-- Releases at system scope and posts an MSI-X vector to the host. (R228) -/
  | sigh (f : FormS)
  /-- Cox instruction with no effect. (R313) -/
  | coxNop (f : FormCR)
  /-- Ends the cox context with status OK and frees its slot. (R313) -/
  | coxHalt (f : FormCR)
  /-- Makes a chunk boundary with no other effect. (R313) -/
  | coxYield (f : FormCR)
  /-- Starts an abort of the context's group at its sequence number. (R313) -/
  | coxAbort (f : FormCI)
  /-- Faults with SWTRAP and a code. (R313) -/
  | coxTrap (f : FormCI)
  /-- Copies a cox register. (R311) -/
  | coxMov (f : FormCR)
  /-- Adds two cox registers modulo 2^64. (R311) -/
  | coxAdd (f : FormCR)
  /-- Subtracts two cox registers. (R311) -/
  | coxSub (f : FormCR)
  /-- Bitwise AND of two cox registers. (R311) -/
  | coxAnd (f : FormCR)
  /-- Bitwise OR of two cox registers. (R311) -/
  | coxOr (f : FormCR)
  /-- Shifts a cox register left. (R311) -/
  | coxShl (f : FormCR)
  /-- Shifts a cox register logically right. (R311) -/
  | coxShr (f : FormCR)
  /-- Writes a sign-extended immediate to a cox register. (R311) -/
  | coxMovi (f : FormCI)
  /-- Adds a sign-extended immediate to a cox register. (R311) -/
  | coxAddi (f : FormCI)
  /-- Transfers unconditionally. (R312) -/
  | coxBr (f : FormCB)
  /-- Transfers when two registers are equal. (R312) -/
  | coxBeq (f : FormCB)
  /-- Transfers when two registers differ. (R312) -/
  | coxBne (f : FormCB)
  /-- Transfers when A is signed less than B. (R312) -/
  | coxBlt (f : FormCB)
  /-- Transfers when A is signed at least B. (R312) -/
  | coxBge (f : FormCB)
  /-- Decrements a register and transfers while nonzero. (R312) -/
  | coxLoop (f : FormCB)
  /-- Sends one chunk of a buffer to a member's cox and waits for acceptance. (R315) -/
  | coxSend (f : FormCC)
  /-- Opens a landing window over a chunk with a tag. (R316) -/
  | coxPost (f : FormCC)
  /-- Waits until a window has landed and closes it. (R317) -/
  | coxRecv (f : FormCC)
  /-- Waits for a window and combines it into a buffer chunk. (R318) -/
  | coxComb (f : FormCC)
  /-- Combines a landed window into a chunk and sends the result. (R319) -/
  | coxCombf (f : FormCC)
  /-- Waits for a window and forwards its chunk. (R319) -/
  | coxFwd (f : FormCC)
  /-- Waits until a flag word reaches a target, as an acquire. (R320) -/
  | coxWaitf (f : FormCF)
  /-- Adds to a flag word as a release. (R320) -/
  | coxSigf (f : FormCF)
deriving DecidableEq, Repr

end Sys2Proof
end

