-- ==== Sys2Proof/Decode.lean ====
section
/-!
DEFINITION. Decode.lean: bits to instructions and back (02 R33, R43, R49, R50; 03 R62, R63, R65; 14 R307 to R309).
Every word decodes: an unassigned opcode is the row ILLOP (R63) or COX_ILLOP (R309).
The decoders are marked noncomputable because compiled Lean cannot build a constructor with fields beyond the 245th of a
type; the kernel evaluates them as any other definition, and Machine/Run.lean runs a word without building its Instr.
-/

namespace Sys2Proof

/-- OPC, bits 95:86 (R43). -/
def opcOf (w : BitVec 96) : BitVec 10 := w.extractLsb' 86 10

/-- The header below OPC (R43). -/
def Hdr.ofWord (w : BitVec 96) : Hdr :=
  { stall := w.extractLsb' 82 4, wait := w.extractLsb' 70 12, setf := w.extractLsb' 66 4, hint := w.extractLsb' 64 2 }

/-- Bits 95:64 of an instruction (R43). -/
def Hdr.bits (h : Hdr) (opc : BitVec 10) : BitVec 32 :=
  opc ++ h.stall ++ h.wait ++ h.setf ++ h.hint

/-- A guard field whose lowest bit is bit lo (R50). -/
def Guard.ofWord (w : BitVec 96) (lo : Nat) : Guard :=
  { k := w.extractLsb' (lo + 6) 3, bit := w.extractLsb' (lo + 1) 5, neg := w.extractLsb' lo 1 }

/-- The nine bits of a guard field (R50). -/
def Guard.bits (g : Guard) : BitVec 9 := g.k ++ g.bit ++ g.neg

/-- Format R (R49). -/
def FormR.ofWord (w : BitVec 96) : FormR :=
  { h := Hdr.ofWord w, ga := Guard.ofWord w 55, gb := Guard.ofWord w 46, md := w.extractLsb' 34 12,
    d := w.extractLsb' 26 8, a := w.extractLsb' 18 8, b := w.extractLsb' 10 8, c := w.extractLsb' 2 8,
    rsv := w.extractLsb' 0 2 }
/-- Format R, encoded (R49). -/
def FormR.toWord (f : FormR) (opc : BitVec 10) : BitVec 96 :=
  f.h.bits opc ++ (f.ga.bits ++ f.gb.bits ++ f.md ++ f.d ++ f.a ++ f.b ++ f.c ++ f.rsv)

/-- Format X (R49). -/
def FormX.ofWord (w : BitVec 96) : FormX :=
  { h := Hdr.ofWord w, ga := Guard.ofWord w 55, gb := Guard.ofWord w 46, d := w.extractLsb' 38 8,
    a := w.extractLsb' 30 8, b := w.extractLsb' 22 8, c := w.extractLsb' 14 8, e := w.extractLsb' 6 8,
    rsv := w.extractLsb' 0 6 }
/-- Format X, encoded (R49). -/
def FormX.toWord (f : FormX) (opc : BitVec 10) : BitVec 96 :=
  f.h.bits opc ++ (f.ga.bits ++ f.gb.bits ++ f.d ++ f.a ++ f.b ++ f.c ++ f.e ++ f.rsv)

/-- Format I (R49). -/
def FormI.ofWord (w : BitVec 96) : FormI :=
  { h := Hdr.ofWord w, ga := Guard.ofWord w 55, d := w.extractLsb' 47 8, a := w.extractLsb' 39 8,
    imm := w.extractLsb' 7 32, sub := w.extractLsb' 0 7 }
/-- Format I, encoded (R49). -/
def FormI.toWord (f : FormI) (opc : BitVec 10) : BitVec 96 :=
  f.h.bits opc ++ (f.ga.bits ++ f.d ++ f.a ++ f.imm ++ f.sub)

/-- Format M (R49). -/
def FormM.ofWord (w : BitVec 96) : FormM :=
  { h := Hdr.ofWord w, ga := Guard.ofWord w 55, gb := Guard.ofWord w 46, hnd := w.extractLsb' 34 12,
    d := w.extractLsb' 26 8, a := w.extractLsb' 18 8, b := w.extractLsb' 10 8, ofs := w.extractLsb' 0 10 }
/-- Format M, encoded (R49). -/
def FormM.toWord (f : FormM) (opc : BitVec 10) : BitVec 96 :=
  f.h.bits opc ++ (f.ga.bits ++ f.gb.bits ++ f.hnd ++ f.d ++ f.a ++ f.b ++ f.ofs)

/-- Format B (R49). -/
def FormB.ofWord (w : BitVec 96) : FormB :=
  { h := Hdr.ofWord w, ga := Guard.ofWord w 55, gb := Guard.ofWord w 46, tgt := w.extractLsb' 24 22,
    slot := w.extractLsb' 21 3, a := w.extractLsb' 13 8, sub := w.extractLsb' 0 13 }
/-- Format B, encoded (R49). -/
def FormB.toWord (f : FormB) (opc : BitVec 10) : BitVec 96 :=
  f.h.bits opc ++ (f.ga.bits ++ f.gb.bits ++ f.tgt ++ f.slot ++ f.a ++ f.sub)

/-- Format T (R49). -/
def FormT.ofWord (w : BitVec 96) : FormT :=
  { h := Hdr.ofWord w, ga := Guard.ofWord w 55, gb := Guard.ofWord w 46, trec := w.extractLsb' 42 4,
    a := w.extractLsb' 34 8, b := w.extractLsb' 26 8, c := w.extractLsb' 18 8, d := w.extractLsb' 10 8,
    sub := w.extractLsb' 0 10 }
/-- Format T, encoded (R49). -/
def FormT.toWord (f : FormT) (opc : BitVec 10) : BitVec 96 :=
  f.h.bits opc ++ (f.ga.bits ++ f.gb.bits ++ f.trec ++ f.a ++ f.b ++ f.c ++ f.d ++ f.sub)

/-- Format S (R49). -/
def FormS.ofWord (w : BitVec 96) : FormS :=
  { h := Hdr.ofWord w, ga := Guard.ofWord w 55, body := w.extractLsb' 0 55 }
/-- Format S, encoded (R49). -/
def FormS.toWord (f : FormS) (opc : BitVec 10) : BitVec 96 :=
  f.h.bits opc ++ (f.ga.bits ++ f.body)

/-- Cox format CR (R307). -/
def FormCR.ofWord (w : BitVec 64) : FormCR :=
  { d := w.extractLsb' 54 4, a := w.extractLsb' 50 4, b := w.extractLsb' 46 4, rsv := w.extractLsb' 0 46 }
/-- Cox format CR, encoded (R307). -/
def FormCR.toWord (f : FormCR) (opc : BitVec 6) : BitVec 64 := opc ++ f.d ++ f.a ++ f.b ++ f.rsv

/-- Cox format CI (R307). -/
def FormCI.ofWord (w : BitVec 64) : FormCI :=
  { d := w.extractLsb' 54 4, a := w.extractLsb' 50 4, rsv := w.extractLsb' 32 18, imm := w.extractLsb' 0 32 }
/-- Cox format CI, encoded (R307). -/
def FormCI.toWord (f : FormCI) (opc : BitVec 6) : BitVec 64 := opc ++ f.d ++ f.a ++ f.rsv ++ f.imm

/-- Cox format CB (R307). -/
def FormCB.ofWord (w : BitVec 64) : FormCB :=
  { a := w.extractLsb' 54 4, b := w.extractLsb' 50 4, rsv := w.extractLsb' 12 38, tgt := w.extractLsb' 0 12 }
/-- Cox format CB, encoded (R307). -/
def FormCB.toWord (f : FormCB) (opc : BitVec 6) : BitVec 64 := opc ++ f.a ++ f.b ++ f.rsv ++ f.tgt

/-- Cox format CC (R307). -/
def FormCC.ofWord (w : BitVec 64) : FormCC :=
  { buf := w.extractLsb' 54 4, ireg := w.extractLsb' 50 4, treg := w.extractLsb' 46 4, wtag := w.extractLsb' 38 8,
    stag := w.extractLsb' 30 8, rsv := w.extractLsb' 0 30 }
/-- Cox format CC, encoded (R307). -/
def FormCC.toWord (f : FormCC) (opc : BitVec 6) : BitVec 64 :=
  opc ++ f.buf ++ f.ireg ++ f.treg ++ f.wtag ++ f.stag ++ f.rsv

/-- Cox format CF (R307). -/
def FormCF.ofWord (w : BitVec 64) : FormCF :=
  { buf := w.extractLsb' 54 4, oreg := w.extractLsb' 50 4, vreg := w.extractLsb' 46 4, rsv := w.extractLsb' 0 46 }
/-- Cox format CF, encoded (R307). -/
def FormCF.toWord (f : FormCF) (opc : BitVec 6) : BitVec 64 := opc ++ f.buf ++ f.oreg ++ f.vreg ++ f.rsv

/-- A word whose OPC is unassigned (R63). -/
def illopOf (w : BitVec 96) : Instr := .illop (w.extractLsb' 86 10) (w.extractLsb' 0 86)

/-- hvhint: the low bit of its operand tells the two rows apart (R227). -/
noncomputable def decodeHvhint (f : FormS) : Instr :=
  if f.body.getLsbD 0 then .hvhintLend f else .hvhintRecall f

/-- Class 0x0 of the opcode map (R62): operation to instruction; every unlisted operation is ILLOP (R63). -/
def decodeClass0 (op : Nat) (w : BitVec 96) : Instr :=
  match op with
  | 0x00 => .iaddI32 (FormR.ofWord w)
  | 0x01 => .isubI32 (FormR.ofWord w)
  | 0x02 => .iadd3I32 (FormR.ofWord w)
  | 0x03 => .iaddcI32 (FormX.ofWord w)
  | 0x04 => .isubbI32 (FormX.ofWord w)
  | 0x05 => .imulI32 (FormR.ofWord w)
  | 0x06 => .imulhiI32 (FormR.ofWord w)
  | 0x07 => .imulhiN32 (FormR.ofWord w)
  | 0x08 => .imadI32 (FormR.ofWord w)
  | 0x09 => .imadwI32 (FormR.ofWord w)
  | 0x0A => .imadwN32 (FormR.ofWord w)
  | 0x0B => .iminI32 (FormR.ofWord w)
  | 0x0C => .imaxI32 (FormR.ofWord w)
  | 0x0D => .iminN32 (FormR.ofWord w)
  | 0x0E => .imaxN32 (FormR.ofWord w)
  | 0x10 => .iaddI64 (FormR.ofWord w)
  | 0x11 => .isubI64 (FormR.ofWord w)
  | 0x12 => .lea (FormR.ofWord w)
  | 0x13 => .iaddiI32 (FormI.ofWord w)
  | 0x14 => .iaddiI64 (FormI.ofWord w)
  | 0x15 => .imuliI32 (FormI.ofWord w)
  | _ => illopOf w

/-- Class 0x1 of the opcode map (R62): operation to instruction; every unlisted operation is ILLOP (R63). -/
def decodeClass1 (op : Nat) (w : BitVec 96) : Instr :=
  match op with
  | 0x00 => .andB32 (FormR.ofWord w)
  | 0x01 => .orB32 (FormR.ofWord w)
  | 0x02 => .xorB32 (FormR.ofWord w)
  | 0x03 => .andnB32 (FormR.ofWord w)
  | 0x04 => .notB32 (FormR.ofWord w)
  | 0x05 => .shlB32 (FormR.ofWord w)
  | 0x06 => .shrN32 (FormR.ofWord w)
  | 0x07 => .shrI32 (FormR.ofWord w)
  | 0x08 => .rotlB32 (FormR.ofWord w)
  | 0x09 => .rotrB32 (FormR.ofWord w)
  | 0x0A => .shlB64 (FormR.ofWord w)
  | 0x0B => .shrN64 (FormR.ofWord w)
  | 0x0C => .shrI64 (FormR.ofWord w)
  | 0x0D => .bfeN32 (FormR.ofWord w)
  | 0x0E => .bfeI32 (FormR.ofWord w)
  | 0x0F => .bfiB32 (FormX.ofWord w)
  | 0x10 => .popcB32 (FormR.ofWord w)
  | 0x11 => .clzB32 (FormR.ofWord w)
  | 0x12 => .ctzB32 (FormR.ofWord w)
  | 0x13 => .brevB32 (FormR.ofWord w)
  | 0x14 => .bswB32 (FormR.ofWord w)
  | 0x15 => .movB32 (FormR.ofWord w)
  | 0x16 => .moviB32 (FormI.ofWord w)
  | 0x17 => .selB32 (FormR.ofWord w)
  | 0x18 => .bselB32 (FormR.ofWord w)
  | 0x19 => .andiB32 (FormI.ofWord w)
  | 0x1A => .oriB32 (FormI.ofWord w)
  | 0x1B => .xoriB32 (FormI.ofWord w)
  | 0x20 => .cmpEqB32 (FormI.ofWord w)
  | 0x21 => .cmpNeB32 (FormI.ofWord w)
  | 0x22 => .cmpLtI32 (FormI.ofWord w)
  | 0x23 => .cmpLeI32 (FormI.ofWord w)
  | 0x24 => .cmpGtI32 (FormI.ofWord w)
  | 0x25 => .cmpGeI32 (FormI.ofWord w)
  | 0x26 => .cmpLtN32 (FormI.ofWord w)
  | 0x27 => .cmpLeN32 (FormI.ofWord w)
  | 0x28 => .cmpGtN32 (FormI.ofWord w)
  | 0x29 => .cmpGeN32 (FormI.ofWord w)
  | 0x30 => .qdef (FormI.ofWord w)
  | 0x31 => .qfree (FormI.ofWord w)
  | _ => illopOf w

/-- Class 0x2 of the opcode map (R62): operation to instruction; every unlisted operation is ILLOP (R63). -/
def decodeClass2 (op : Nat) (w : BitVec 96) : Instr :=
  match op with
  | 0x00 => .faddF32 (FormR.ofWord w)
  | 0x01 => .fsubF32 (FormR.ofWord w)
  | 0x02 => .fmulF32 (FormR.ofWord w)
  | 0x03 => .ffmaF32 (FormR.ofWord w)
  | 0x04 => .fminF32 (FormR.ofWord w)
  | 0x05 => .fmaxF32 (FormR.ofWord w)
  | 0x06 => .fmuliF32 (FormI.ofWord w)
  | 0x07 => .faddiF32 (FormI.ofWord w)
  | 0x08 => .fclsF32 (FormR.ofWord w)
  | 0x10 => .fcmpEqF32 (FormI.ofWord w)
  | 0x11 => .fcmpNeF32 (FormI.ofWord w)
  | 0x12 => .fcmpLtF32 (FormI.ofWord w)
  | 0x13 => .fcmpLeF32 (FormI.ofWord w)
  | 0x14 => .fcmpGtF32 (FormI.ofWord w)
  | 0x15 => .fcmpGeF32 (FormI.ofWord w)
  | 0x16 => .fcmpUnF32 (FormI.ofWord w)
  | 0x17 => .fcmpOrF32 (FormI.ofWord w)
  | _ => illopOf w

/-- Class 0x3 of the opcode map (R62): operation to instruction; every unlisted operation is ILLOP (R63). -/
def decodeClass3 (op : Nat) (w : BitVec 96) : Instr :=
  match op with
  | 0x00 => .haddF16x2 (FormR.ofWord w)
  | 0x01 => .hmulF16x2 (FormR.ofWord w)
  | 0x02 => .hfmaF16x2 (FormR.ofWord w)
  | 0x03 => .hminF16x2 (FormR.ofWord w)
  | 0x04 => .hmaxF16x2 (FormR.ofWord w)
  | 0x08 => .haddBf16x2 (FormR.ofWord w)
  | 0x09 => .hmulBf16x2 (FormR.ofWord w)
  | 0x0A => .hfmaBf16x2 (FormR.ofWord w)
  | 0x0B => .hminBf16x2 (FormR.ofWord w)
  | 0x0C => .hmaxBf16x2 (FormR.ofWord w)
  | 0x20 => .vaddI16x2 (FormR.ofWord w)
  | 0x21 => .vsubI16x2 (FormR.ofWord w)
  | 0x22 => .vaddI8x4 (FormR.ofWord w)
  | 0x23 => .vsubI8x4 (FormR.ofWord w)
  | 0x24 => .vminI16x2 (FormR.ofWord w)
  | 0x25 => .vmaxI16x2 (FormR.ofWord w)
  | 0x26 => .vminI8x4 (FormR.ofWord w)
  | 0x27 => .vmaxI8x4 (FormR.ofWord w)
  | 0x28 => .vminN8x4 (FormR.ofWord w)
  | 0x29 => .vmaxN8x4 (FormR.ofWord w)
  | 0x2A => .vaddsatI16x2 (FormR.ofWord w)
  | 0x2B => .vaddsatI8x4 (FormR.ofWord w)
  | 0x30 => .dp4I8x4 (FormR.ofWord w)
  | 0x31 => .dp4N8x4 (FormR.ofWord w)
  | 0x32 => .dp2I16x2 (FormR.ofWord w)
  | 0x33 => .dp8I4x8 (FormR.ofWord w)
  | _ => illopOf w

/-- Class 0x4 of the opcode map (R62): operation to instruction; every unlisted operation is ILLOP (R63). -/
def decodeClass4 (op : Nat) (w : BitVec 96) : Instr :=
  match op with
  | 0x00 => .daddF64 (FormR.ofWord w)
  | 0x01 => .dsubF64 (FormR.ofWord w)
  | 0x02 => .dmulF64 (FormR.ofWord w)
  | 0x03 => .dfmaF64 (FormR.ofWord w)
  | 0x04 => .dminF64 (FormR.ofWord w)
  | 0x05 => .dmaxF64 (FormR.ofWord w)
  | 0x06 => .dclsF64 (FormR.ofWord w)
  | 0x10 => .dcmpEqF64 (FormI.ofWord w)
  | 0x11 => .dcmpNeF64 (FormI.ofWord w)
  | 0x12 => .dcmpLtF64 (FormI.ofWord w)
  | 0x13 => .dcmpLeF64 (FormI.ofWord w)
  | 0x14 => .dcmpGtF64 (FormI.ofWord w)
  | 0x15 => .dcmpGeF64 (FormI.ofWord w)
  | 0x16 => .dcmpUnF64 (FormI.ofWord w)
  | 0x17 => .dcmpOrF64 (FormI.ofWord w)
  | _ => illopOf w

/-- Class 0x5 of the opcode map (R62): operation to instruction; every unlisted operation is ILLOP (R63). -/
noncomputable def decodeClass5 (op : Nat) (w : BitVec 96) : Instr :=
  match op with
  | 0x00 => .rcpF32 (FormR.ofWord w)
  | 0x01 => .rsqrtF32 (FormR.ofWord w)
  | 0x02 => .sqrtF32 (FormR.ofWord w)
  | 0x03 => .exp2F32 (FormR.ofWord w)
  | 0x04 => .log2F32 (FormR.ofWord w)
  | 0x05 => .sinF32 (FormR.ofWord w)
  | 0x06 => .cosF32 (FormR.ofWord w)
  | 0x07 => .tanhF32 (FormR.ofWord w)
  | 0x08 => .rcpF64 (FormR.ofWord w)
  | 0x09 => .sqrtF64 (FormR.ofWord w)
  | 0x10 => .cvt (FormI.ofWord w)
  | 0x11 => .cvtSr (FormI.ofWord w)
  | 0x12 => .packE4m3 (FormX.ofWord w)
  | 0x13 => .packE5m2 (FormX.ofWord w)
  | 0x14 => .packE2m1 (FormX.ofWord w)
  | 0x15 => .packI4 (FormX.ofWord w)
  | 0x16 => .unpackE4m3 (FormR.ofWord w)
  | 0x17 => .unpackE5m2 (FormR.ofWord w)
  | 0x18 => .unpackE2m1 (FormR.ofWord w)
  | 0x19 => .unpackI4 (FormR.ofWord w)
  | 0x20 => .qblk (FormR.ofWord w)
  | 0x21 => .dqblk (FormR.ofWord w)
  | 0x28 => .rngnext (FormR.ofWord w)
  | 0x29 => .rngseed (FormR.ofWord w)
  | _ => illopOf w

/-- Class 0x6 of the opcode map (R62): operation to instruction; every unlisted operation is ILLOP (R63). -/
noncomputable def decodeClass6 (op : Nat) (w : BitVec 96) : Instr :=
  match op with
  | 0x00 => .xlaneRot (FormI.ofWord w)
  | 0x01 => .xlaneShup (FormI.ofWord w)
  | 0x02 => .xlaneShdn (FormI.ofWord w)
  | 0x03 => .xlaneIdx (FormI.ofWord w)
  | 0x04 => .xbcast (FormI.ofWord w)
  | 0x05 => .bfly (FormI.ofWord w)
  | 0x08 => .redAddI32 (FormI.ofWord w)
  | 0x09 => .redMinI32 (FormI.ofWord w)
  | 0x0A => .redMaxI32 (FormI.ofWord w)
  | 0x0B => .redAndB32 (FormI.ofWord w)
  | 0x0C => .redOrB32 (FormI.ofWord w)
  | 0x0D => .redXorB32 (FormI.ofWord w)
  | 0x0E => .redAddF32 (FormI.ofWord w)
  | 0x0F => .redMinF32 (FormI.ofWord w)
  | 0x10 => .redMaxF32 (FormI.ofWord w)
  | 0x14 => .scanAddI32 (FormI.ofWord w)
  | 0x15 => .scanMinI32 (FormI.ofWord w)
  | 0x16 => .scanMaxI32 (FormI.ofWord w)
  | 0x17 => .scanAddF32 (FormI.ofWord w)
  | 0x18 => .ballot (FormI.ofWord w)
  | 0x19 => .any (FormI.ofWord w)
  | 0x1A => .all (FormI.ofWord w)
  | 0x1B => .matchLanes (FormI.ofWord w)
  | 0x20 => .topk (FormI.ofWord w)
  | _ => illopOf w

/-- Class 0x7 of the opcode map (R62): operation to instruction; every unlisted operation is ILLOP (R63). -/
noncomputable def decodeClass7 (op : Nat) (w : BitVec 96) : Instr :=
  match op with
  | 0x00 => .bra (FormB.ofWord w)
  | 0x01 => .brx (FormB.ofWord w)
  | 0x02 => .call (FormB.ofWord w)
  | 0x03 => .callx (FormB.ofWord w)
  | 0x04 => .ret (FormB.ofWord w)
  | 0x05 => .join (FormS.ofWord w)
  | 0x06 => .exit (FormS.ofWord w)
  | 0x07 => .loop (FormB.ofWord w)
  | 0x08 => .pause (FormI.ofWord w)
  | 0x09 => .nop (FormS.ofWord w)
  | _ => illopOf w

/-- Class 0x8 of the opcode map (R62): operation to instruction; every unlisted operation is ILLOP (R63). -/
noncomputable def decodeClass8 (op : Nat) (w : BitVec 96) : Instr :=
  match op with
  | 0x00 => .ldN8 (FormM.ofWord w)
  | 0x01 => .ldI8 (FormM.ofWord w)
  | 0x02 => .ldN16 (FormM.ofWord w)
  | 0x03 => .ldI16 (FormM.ofWord w)
  | 0x04 => .ldB32 (FormM.ofWord w)
  | 0x05 => .ldB64 (FormM.ofWord w)
  | 0x06 => .ldB128 (FormM.ofWord w)
  | 0x07 => .ldAcqB32 (FormM.ofWord w)
  | 0x08 => .ldAcqB64 (FormM.ofWord w)
  | 0x10 => .stB8 (FormM.ofWord w)
  | 0x11 => .stB16 (FormM.ofWord w)
  | 0x12 => .stB32 (FormM.ofWord w)
  | 0x13 => .stB64 (FormM.ofWord w)
  | 0x14 => .stB128 (FormM.ofWord w)
  | 0x15 => .stRelB32 (FormM.ofWord w)
  | 0x16 => .stRelB64 (FormM.ofWord w)
  | 0x17 => .stmask (FormM.ofWord w)
  | 0x18 => .pfx (FormM.ofWord w)
  | 0x19 => .pfd (FormM.ofWord w)
  | 0x1A => .pcancel (FormR.ofWord w)
  | 0x20 => .ldN8O64 (FormM.ofWord w)
  | 0x21 => .ldI8O64 (FormM.ofWord w)
  | 0x22 => .ldN16O64 (FormM.ofWord w)
  | 0x23 => .ldI16O64 (FormM.ofWord w)
  | 0x24 => .ldB32O64 (FormM.ofWord w)
  | 0x25 => .ldB64O64 (FormM.ofWord w)
  | 0x26 => .ldB128O64 (FormM.ofWord w)
  | 0x27 => .ldAcqB32O64 (FormM.ofWord w)
  | 0x28 => .ldAcqB64O64 (FormM.ofWord w)
  | 0x30 => .stB8O64 (FormM.ofWord w)
  | 0x31 => .stB16O64 (FormM.ofWord w)
  | 0x32 => .stB32O64 (FormM.ofWord w)
  | 0x33 => .stB64O64 (FormM.ofWord w)
  | 0x34 => .stB128O64 (FormM.ofWord w)
  | 0x35 => .stRelB32O64 (FormM.ofWord w)
  | 0x36 => .stRelB64O64 (FormM.ofWord w)
  | 0x37 => .stmaskO64 (FormM.ofWord w)
  | 0x38 => .pfxO64 (FormM.ofWord w)
  | 0x39 => .pfdO64 (FormM.ofWord w)
  | _ => illopOf w

/-- Class 0x9 of the opcode map (R62): operation to instruction; every unlisted operation is ILLOP (R63). -/
noncomputable def decodeClass9 (op : Nat) (w : BitVec 96) : Instr :=
  match op with
  | 0x00 => .atomAddI32 (FormM.ofWord w)
  | 0x01 => .atomAddF32 (FormM.ofWord w)
  | 0x02 => .atomMinI32 (FormM.ofWord w)
  | 0x03 => .atomMaxI32 (FormM.ofWord w)
  | 0x04 => .atomMinN32 (FormM.ofWord w)
  | 0x05 => .atomMaxN32 (FormM.ofWord w)
  | 0x06 => .atomAndB32 (FormM.ofWord w)
  | 0x07 => .atomOrB32 (FormM.ofWord w)
  | 0x08 => .atomXorB32 (FormM.ofWord w)
  | 0x09 => .atomExchB32 (FormM.ofWord w)
  | 0x0A => .atomCasB32 (FormM.ofWord w)
  | 0x0B => .atomAddI64 (FormM.ofWord w)
  | 0x0C => .atomExchB64 (FormM.ofWord w)
  | 0x0D => .atomCasB64 (FormM.ofWord w)
  | 0x0E => .atomAddBf16x2 (FormM.ofWord w)
  | 0x10 => .fence (FormS.ofWord w)
  | 0x18 => .bankopAddI32 (FormM.ofWord w)
  | 0x19 => .bankopAddF32 (FormM.ofWord w)
  | 0x1A => .bankopMinF32 (FormM.ofWord w)
  | 0x1B => .bankopMaxF32 (FormM.ofWord w)
  | 0x1C => .bankopMulF32 (FormM.ofWord w)
  | _ => illopOf w

/-- Class 0xA of the opcode map (R62): operation to instruction; every unlisted operation is ILLOP (R63). -/
noncomputable def decodeClass10 (op : Nat) (w : BitVec 96) : Instr :=
  match op with
  | 0x00 => .cp (FormX.ofWord w)
  | 0x01 => .cp2d (FormX.ofWord w)
  | 0x02 => .cp3d (FormX.ofWord w)
  | 0x03 => .cpScale (FormX.ofWord w)
  | 0x04 => .gather (FormX.ofWord w)
  | 0x05 => .scatter (FormX.ofWord w)
  | 0x08 => .waitcCp (FormI.ofWord w)
  | 0x09 => .waitcGa (FormI.ofWord w)
  | 0x0A => .waitcMx (FormI.ofWord w)
  | 0x0B => .waitcFb (FormI.ofWord w)
  | 0x10 => .arrinit (FormI.ofWord w)
  | 0x11 => .arrw (FormI.ofWord w)
  | 0x12 => .arrrd (FormI.ofWord w)
  | 0x18 => .tsig (FormM.ofWord w)
  | _ => illopOf w

/-- Class 0xB of the opcode map (R62): operation to instruction; every unlisted operation is ILLOP (R63). -/
noncomputable def decodeClass11 (op : Nat) (w : BitVec 96) : Instr :=
  match op with
  | 0x00 => .fput (FormX.ofWord w)
  | 0x01 => .fget (FormX.ofWord w)
  | 0x02 => .fatom (FormX.ofWord w)
  | 0x03 => .fmark (FormS.ofWord w)
  | 0x04 => .fldred (FormX.ofWord w)
  | 0x05 => .fstmc (FormX.ofWord w)
  | _ => illopOf w

/-- Class 0xC of the opcode map (R62): operation to instruction; every unlisted operation is ILLOP (R63). -/
noncomputable def decodeClass12 (op : Nat) (w : BitVec 96) : Instr :=
  match op with
  | 0x00 => .tshape (FormT.ofWord w)
  | 0x08 => .mmaE4m3 (FormT.ofWord w)
  | 0x09 => .mmaE5m2 (FormT.ofWord w)
  | 0x0A => .mmaE4e5 (FormT.ofWord w)
  | 0x0B => .mmaE5e4 (FormT.ofWord w)
  | 0x0C => .mmaE2m1 (FormT.ofWord w)
  | 0x0D => .mmaBf16 (FormT.ofWord w)
  | 0x0E => .mmaF16 (FormT.ofWord w)
  | 0x0F => .mmaI8 (FormT.ofWord w)
  | 0x10 => .mmaT5 (FormT.ofWord w)
  | 0x18 => .mmasE4m3 (FormT.ofWord w)
  | 0x19 => .mmasE5m2 (FormT.ofWord w)
  | 0x1A => .mmasE2m1 (FormT.ofWord w)
  | 0x1B => .mmasBf16 (FormT.ofWord w)
  | 0x1C => .mmasF16 (FormT.ofWord w)
  | 0x1D => .mmasI8 (FormT.ofWord w)
  | 0x20 => .msacc (FormT.ofWord w)
  | 0x21 => .mzero (FormT.ofWord w)
  | 0x22 => .acca (FormI.ofWord w)
  | 0x23 => .accf (FormI.ofWord w)
  | 0x24 => .accld (FormT.ofWord w)
  | 0x25 => .accst (FormT.ofWord w)
  | 0x28 => .bucket (FormR.ofWord w)
  | _ => illopOf w

/-- Class 0xD of the opcode map (R62): operation to instruction; every unlisted operation is ILLOP (R63). -/
noncomputable def decodeClass13 (op : Nat) (w : BitVec 96) : Instr :=
  match op with
  | 0x00 => .bar (FormS.ofWord w)
  | 0x01 => .barArrive (FormS.ofWord w)
  | 0x02 => .barWait (FormS.ofWord w)
  | 0x03 => .cbar (FormS.ofWord w)
  | 0x08 => .gate (FormS.ofWord w)
  | 0x09 => .gret (FormS.ofWord w)
  | 0x10 => .trap (FormS.ofWord w)
  | 0x11 => .tret (FormS.ofWord w)
  | 0x12 => .brk (FormS.ofWord w)
  | 0x13 => .ifence (FormS.ofWord w)
  | 0x18 => .gets (FormS.ofWord w)
  | 0x19 => .sets (FormS.ofWord w)
  | 0x20 => .launch (FormS.ofWord w)
  | 0x21 => .yield (FormS.ofWord w)
  | 0x22 => decodeHvhint (FormS.ofWord w)
  | _ => illopOf w

/-- Class 0xE of the opcode map (R62): operation to instruction; every unlisted operation is ILLOP (R63). -/
noncomputable def decodeClass14 (op : Nat) (w : BitVec 96) : Instr :=
  match op with
  | 0x00 => .getsp (FormS.ofWord w)
  | 0x01 => .setsp (FormS.ofWord w)
  | 0x08 => .icinv (FormS.ofWord w)
  | 0x09 => .cwb (FormS.ofWord w)
  | 0x0A => .cinv (FormS.ofWord w)
  | 0x10 => .tlbinvVa (FormS.ofWord w)
  | 0x11 => .tlbinvAsid (FormS.ofWord w)
  | 0x12 => .tlbinvAll (FormS.ofWord w)
  | 0x18 => .sigh (FormS.ofWord w)
  | _ => illopOf w

/-- The instruction a 96-bit word stands for (R43, R62, R63): class 0xF holds no assigned operation. -/
noncomputable def decodeCrew (w : BitVec 96) : Instr :=
  let opc := opcOf w
  match opc.toNat / 64 with
  | 0 => decodeClass0 (opc.toNat % 64) w
  | 1 => decodeClass1 (opc.toNat % 64) w
  | 2 => decodeClass2 (opc.toNat % 64) w
  | 3 => decodeClass3 (opc.toNat % 64) w
  | 4 => decodeClass4 (opc.toNat % 64) w
  | 5 => decodeClass5 (opc.toNat % 64) w
  | 6 => decodeClass6 (opc.toNat % 64) w
  | 7 => decodeClass7 (opc.toNat % 64) w
  | 8 => decodeClass8 (opc.toNat % 64) w
  | 9 => decodeClass9 (opc.toNat % 64) w
  | 10 => decodeClass10 (opc.toNat % 64) w
  | 11 => decodeClass11 (opc.toNat % 64) w
  | 12 => decodeClass12 (opc.toNat % 64) w
  | 13 => decodeClass13 (opc.toNat % 64) w
  | 14 => decodeClass14 (opc.toNat % 64) w
  | _ => illopOf w

/-- The cox instruction a 64-bit word stands for (R307, R308, R309). -/
noncomputable def decodeCox (w : BitVec 64) : Instr :=
  match (w.extractLsb' 58 6).toNat with
  | 0x00 => .coxNop (FormCR.ofWord w)
  | 0x01 => .coxHalt (FormCR.ofWord w)
  | 0x02 => .coxYield (FormCR.ofWord w)
  | 0x03 => .coxAbort (FormCI.ofWord w)
  | 0x04 => .coxTrap (FormCI.ofWord w)
  | 0x08 => .coxMov (FormCR.ofWord w)
  | 0x09 => .coxAdd (FormCR.ofWord w)
  | 0x0A => .coxSub (FormCR.ofWord w)
  | 0x0B => .coxAnd (FormCR.ofWord w)
  | 0x0C => .coxOr (FormCR.ofWord w)
  | 0x0D => .coxShl (FormCR.ofWord w)
  | 0x0E => .coxShr (FormCR.ofWord w)
  | 0x10 => .coxMovi (FormCI.ofWord w)
  | 0x11 => .coxAddi (FormCI.ofWord w)
  | 0x18 => .coxBr (FormCB.ofWord w)
  | 0x19 => .coxBeq (FormCB.ofWord w)
  | 0x1A => .coxBne (FormCB.ofWord w)
  | 0x1B => .coxBlt (FormCB.ofWord w)
  | 0x1C => .coxBge (FormCB.ofWord w)
  | 0x1D => .coxLoop (FormCB.ofWord w)
  | 0x20 => .coxSend (FormCC.ofWord w)
  | 0x21 => .coxPost (FormCC.ofWord w)
  | 0x22 => .coxRecv (FormCC.ofWord w)
  | 0x23 => .coxComb (FormCC.ofWord w)
  | 0x24 => .coxCombf (FormCC.ofWord w)
  | 0x25 => .coxFwd (FormCC.ofWord w)
  | 0x28 => .coxWaitf (FormCF.ofWord w)
  | 0x29 => .coxSigf (FormCF.ofWord w)
  | _ => .coxIllop (w.extractLsb' 58 6) (w.extractLsb' 0 58)


/-- The words of an instruction, from the encoding tables of R43, R49, R62, R307 and R308; an event of another agent has none. -/
def encode (i : Instr) : Option Encoded :=
  match i with
  | .iaddI32 f => some (.crew (f.toWord 0x000#10))
  | .isubI32 f => some (.crew (f.toWord 0x001#10))
  | .iadd3I32 f => some (.crew (f.toWord 0x002#10))
  | .iaddcI32 f => some (.crew (f.toWord 0x003#10))
  | .isubbI32 f => some (.crew (f.toWord 0x004#10))
  | .imulI32 f => some (.crew (f.toWord 0x005#10))
  | .imulhiI32 f => some (.crew (f.toWord 0x006#10))
  | .imulhiN32 f => some (.crew (f.toWord 0x007#10))
  | .imadI32 f => some (.crew (f.toWord 0x008#10))
  | .imadwI32 f => some (.crew (f.toWord 0x009#10))
  | .imadwN32 f => some (.crew (f.toWord 0x00A#10))
  | .iminI32 f => some (.crew (f.toWord 0x00B#10))
  | .imaxI32 f => some (.crew (f.toWord 0x00C#10))
  | .iminN32 f => some (.crew (f.toWord 0x00D#10))
  | .imaxN32 f => some (.crew (f.toWord 0x00E#10))
  | .iaddI64 f => some (.crew (f.toWord 0x010#10))
  | .isubI64 f => some (.crew (f.toWord 0x011#10))
  | .lea f => some (.crew (f.toWord 0x012#10))
  | .iaddiI32 f => some (.crew (f.toWord 0x013#10))
  | .iaddiI64 f => some (.crew (f.toWord 0x014#10))
  | .imuliI32 f => some (.crew (f.toWord 0x015#10))
  | .andB32 f => some (.crew (f.toWord 0x040#10))
  | .orB32 f => some (.crew (f.toWord 0x041#10))
  | .xorB32 f => some (.crew (f.toWord 0x042#10))
  | .andnB32 f => some (.crew (f.toWord 0x043#10))
  | .notB32 f => some (.crew (f.toWord 0x044#10))
  | .shlB32 f => some (.crew (f.toWord 0x045#10))
  | .shrN32 f => some (.crew (f.toWord 0x046#10))
  | .shrI32 f => some (.crew (f.toWord 0x047#10))
  | .rotlB32 f => some (.crew (f.toWord 0x048#10))
  | .rotrB32 f => some (.crew (f.toWord 0x049#10))
  | .shlB64 f => some (.crew (f.toWord 0x04A#10))
  | .shrN64 f => some (.crew (f.toWord 0x04B#10))
  | .shrI64 f => some (.crew (f.toWord 0x04C#10))
  | .bfeN32 f => some (.crew (f.toWord 0x04D#10))
  | .bfeI32 f => some (.crew (f.toWord 0x04E#10))
  | .bfiB32 f => some (.crew (f.toWord 0x04F#10))
  | .popcB32 f => some (.crew (f.toWord 0x050#10))
  | .clzB32 f => some (.crew (f.toWord 0x051#10))
  | .ctzB32 f => some (.crew (f.toWord 0x052#10))
  | .brevB32 f => some (.crew (f.toWord 0x053#10))
  | .bswB32 f => some (.crew (f.toWord 0x054#10))
  | .movB32 f => some (.crew (f.toWord 0x055#10))
  | .moviB32 f => some (.crew (f.toWord 0x056#10))
  | .selB32 f => some (.crew (f.toWord 0x057#10))
  | .bselB32 f => some (.crew (f.toWord 0x058#10))
  | .andiB32 f => some (.crew (f.toWord 0x059#10))
  | .oriB32 f => some (.crew (f.toWord 0x05A#10))
  | .xoriB32 f => some (.crew (f.toWord 0x05B#10))
  | .cmpEqB32 f => some (.crew (f.toWord 0x060#10))
  | .cmpNeB32 f => some (.crew (f.toWord 0x061#10))
  | .cmpLtI32 f => some (.crew (f.toWord 0x062#10))
  | .cmpLeI32 f => some (.crew (f.toWord 0x063#10))
  | .cmpGtI32 f => some (.crew (f.toWord 0x064#10))
  | .cmpGeI32 f => some (.crew (f.toWord 0x065#10))
  | .cmpLtN32 f => some (.crew (f.toWord 0x066#10))
  | .cmpLeN32 f => some (.crew (f.toWord 0x067#10))
  | .cmpGtN32 f => some (.crew (f.toWord 0x068#10))
  | .cmpGeN32 f => some (.crew (f.toWord 0x069#10))
  | .qdef f => some (.crew (f.toWord 0x070#10))
  | .qfree f => some (.crew (f.toWord 0x071#10))
  | .faddF32 f => some (.crew (f.toWord 0x080#10))
  | .fsubF32 f => some (.crew (f.toWord 0x081#10))
  | .fmulF32 f => some (.crew (f.toWord 0x082#10))
  | .ffmaF32 f => some (.crew (f.toWord 0x083#10))
  | .fminF32 f => some (.crew (f.toWord 0x084#10))
  | .fmaxF32 f => some (.crew (f.toWord 0x085#10))
  | .fmuliF32 f => some (.crew (f.toWord 0x086#10))
  | .faddiF32 f => some (.crew (f.toWord 0x087#10))
  | .fclsF32 f => some (.crew (f.toWord 0x088#10))
  | .fcmpEqF32 f => some (.crew (f.toWord 0x090#10))
  | .fcmpNeF32 f => some (.crew (f.toWord 0x091#10))
  | .fcmpLtF32 f => some (.crew (f.toWord 0x092#10))
  | .fcmpLeF32 f => some (.crew (f.toWord 0x093#10))
  | .fcmpGtF32 f => some (.crew (f.toWord 0x094#10))
  | .fcmpGeF32 f => some (.crew (f.toWord 0x095#10))
  | .fcmpUnF32 f => some (.crew (f.toWord 0x096#10))
  | .fcmpOrF32 f => some (.crew (f.toWord 0x097#10))
  | .haddF16x2 f => some (.crew (f.toWord 0x0C0#10))
  | .hmulF16x2 f => some (.crew (f.toWord 0x0C1#10))
  | .hfmaF16x2 f => some (.crew (f.toWord 0x0C2#10))
  | .hminF16x2 f => some (.crew (f.toWord 0x0C3#10))
  | .hmaxF16x2 f => some (.crew (f.toWord 0x0C4#10))
  | .haddBf16x2 f => some (.crew (f.toWord 0x0C8#10))
  | .hmulBf16x2 f => some (.crew (f.toWord 0x0C9#10))
  | .hfmaBf16x2 f => some (.crew (f.toWord 0x0CA#10))
  | .hminBf16x2 f => some (.crew (f.toWord 0x0CB#10))
  | .hmaxBf16x2 f => some (.crew (f.toWord 0x0CC#10))
  | .vaddI16x2 f => some (.crew (f.toWord 0x0E0#10))
  | .vsubI16x2 f => some (.crew (f.toWord 0x0E1#10))
  | .vaddI8x4 f => some (.crew (f.toWord 0x0E2#10))
  | .vsubI8x4 f => some (.crew (f.toWord 0x0E3#10))
  | .vminI16x2 f => some (.crew (f.toWord 0x0E4#10))
  | .vmaxI16x2 f => some (.crew (f.toWord 0x0E5#10))
  | .vminI8x4 f => some (.crew (f.toWord 0x0E6#10))
  | .vmaxI8x4 f => some (.crew (f.toWord 0x0E7#10))
  | .vminN8x4 f => some (.crew (f.toWord 0x0E8#10))
  | .vmaxN8x4 f => some (.crew (f.toWord 0x0E9#10))
  | .vaddsatI16x2 f => some (.crew (f.toWord 0x0EA#10))
  | .vaddsatI8x4 f => some (.crew (f.toWord 0x0EB#10))
  | .dp4I8x4 f => some (.crew (f.toWord 0x0F0#10))
  | .dp4N8x4 f => some (.crew (f.toWord 0x0F1#10))
  | .dp2I16x2 f => some (.crew (f.toWord 0x0F2#10))
  | .dp8I4x8 f => some (.crew (f.toWord 0x0F3#10))
  | .daddF64 f => some (.crew (f.toWord 0x100#10))
  | .dsubF64 f => some (.crew (f.toWord 0x101#10))
  | .dmulF64 f => some (.crew (f.toWord 0x102#10))
  | .dfmaF64 f => some (.crew (f.toWord 0x103#10))
  | .dminF64 f => some (.crew (f.toWord 0x104#10))
  | .dmaxF64 f => some (.crew (f.toWord 0x105#10))
  | .dclsF64 f => some (.crew (f.toWord 0x106#10))
  | .dcmpEqF64 f => some (.crew (f.toWord 0x110#10))
  | .dcmpNeF64 f => some (.crew (f.toWord 0x111#10))
  | .dcmpLtF64 f => some (.crew (f.toWord 0x112#10))
  | .dcmpLeF64 f => some (.crew (f.toWord 0x113#10))
  | .dcmpGtF64 f => some (.crew (f.toWord 0x114#10))
  | .dcmpGeF64 f => some (.crew (f.toWord 0x115#10))
  | .dcmpUnF64 f => some (.crew (f.toWord 0x116#10))
  | .dcmpOrF64 f => some (.crew (f.toWord 0x117#10))
  | .rcpF32 f => some (.crew (f.toWord 0x140#10))
  | .rsqrtF32 f => some (.crew (f.toWord 0x141#10))
  | .sqrtF32 f => some (.crew (f.toWord 0x142#10))
  | .exp2F32 f => some (.crew (f.toWord 0x143#10))
  | .log2F32 f => some (.crew (f.toWord 0x144#10))
  | .sinF32 f => some (.crew (f.toWord 0x145#10))
  | .cosF32 f => some (.crew (f.toWord 0x146#10))
  | .tanhF32 f => some (.crew (f.toWord 0x147#10))
  | .rcpF64 f => some (.crew (f.toWord 0x148#10))
  | .sqrtF64 f => some (.crew (f.toWord 0x149#10))
  | .cvt f => some (.crew (f.toWord 0x150#10))
  | .cvtSr f => some (.crew (f.toWord 0x151#10))
  | .packE4m3 f => some (.crew (f.toWord 0x152#10))
  | .packE5m2 f => some (.crew (f.toWord 0x153#10))
  | .packE2m1 f => some (.crew (f.toWord 0x154#10))
  | .packI4 f => some (.crew (f.toWord 0x155#10))
  | .unpackE4m3 f => some (.crew (f.toWord 0x156#10))
  | .unpackE5m2 f => some (.crew (f.toWord 0x157#10))
  | .unpackE2m1 f => some (.crew (f.toWord 0x158#10))
  | .unpackI4 f => some (.crew (f.toWord 0x159#10))
  | .qblk f => some (.crew (f.toWord 0x160#10))
  | .dqblk f => some (.crew (f.toWord 0x161#10))
  | .rngnext f => some (.crew (f.toWord 0x168#10))
  | .rngseed f => some (.crew (f.toWord 0x169#10))
  | .xlaneRot f => some (.crew (f.toWord 0x180#10))
  | .xlaneShup f => some (.crew (f.toWord 0x181#10))
  | .xlaneShdn f => some (.crew (f.toWord 0x182#10))
  | .xlaneIdx f => some (.crew (f.toWord 0x183#10))
  | .xbcast f => some (.crew (f.toWord 0x184#10))
  | .bfly f => some (.crew (f.toWord 0x185#10))
  | .redAddI32 f => some (.crew (f.toWord 0x188#10))
  | .redMinI32 f => some (.crew (f.toWord 0x189#10))
  | .redMaxI32 f => some (.crew (f.toWord 0x18A#10))
  | .redAndB32 f => some (.crew (f.toWord 0x18B#10))
  | .redOrB32 f => some (.crew (f.toWord 0x18C#10))
  | .redXorB32 f => some (.crew (f.toWord 0x18D#10))
  | .redAddF32 f => some (.crew (f.toWord 0x18E#10))
  | .redMinF32 f => some (.crew (f.toWord 0x18F#10))
  | .redMaxF32 f => some (.crew (f.toWord 0x190#10))
  | .scanAddI32 f => some (.crew (f.toWord 0x194#10))
  | .scanMinI32 f => some (.crew (f.toWord 0x195#10))
  | .scanMaxI32 f => some (.crew (f.toWord 0x196#10))
  | .scanAddF32 f => some (.crew (f.toWord 0x197#10))
  | .ballot f => some (.crew (f.toWord 0x198#10))
  | .any f => some (.crew (f.toWord 0x199#10))
  | .all f => some (.crew (f.toWord 0x19A#10))
  | .matchLanes f => some (.crew (f.toWord 0x19B#10))
  | .topk f => some (.crew (f.toWord 0x1A0#10))
  | .bra f => some (.crew (f.toWord 0x1C0#10))
  | .brx f => some (.crew (f.toWord 0x1C1#10))
  | .call f => some (.crew (f.toWord 0x1C2#10))
  | .callx f => some (.crew (f.toWord 0x1C3#10))
  | .ret f => some (.crew (f.toWord 0x1C4#10))
  | .join f => some (.crew (f.toWord 0x1C5#10))
  | .exit f => some (.crew (f.toWord 0x1C6#10))
  | .loop f => some (.crew (f.toWord 0x1C7#10))
  | .pause f => some (.crew (f.toWord 0x1C8#10))
  | .nop f => some (.crew (f.toWord 0x1C9#10))
  | .ldN8 f => some (.crew (f.toWord 0x200#10))
  | .ldI8 f => some (.crew (f.toWord 0x201#10))
  | .ldN16 f => some (.crew (f.toWord 0x202#10))
  | .ldI16 f => some (.crew (f.toWord 0x203#10))
  | .ldB32 f => some (.crew (f.toWord 0x204#10))
  | .ldB64 f => some (.crew (f.toWord 0x205#10))
  | .ldB128 f => some (.crew (f.toWord 0x206#10))
  | .ldAcqB32 f => some (.crew (f.toWord 0x207#10))
  | .ldAcqB64 f => some (.crew (f.toWord 0x208#10))
  | .stB8 f => some (.crew (f.toWord 0x210#10))
  | .stB16 f => some (.crew (f.toWord 0x211#10))
  | .stB32 f => some (.crew (f.toWord 0x212#10))
  | .stB64 f => some (.crew (f.toWord 0x213#10))
  | .stB128 f => some (.crew (f.toWord 0x214#10))
  | .stRelB32 f => some (.crew (f.toWord 0x215#10))
  | .stRelB64 f => some (.crew (f.toWord 0x216#10))
  | .stmask f => some (.crew (f.toWord 0x217#10))
  | .pfx f => some (.crew (f.toWord 0x218#10))
  | .pfd f => some (.crew (f.toWord 0x219#10))
  | .pcancel f => some (.crew (f.toWord 0x21A#10))
  | .ldN8O64 f => some (.crew (f.toWord 0x220#10))
  | .ldI8O64 f => some (.crew (f.toWord 0x221#10))
  | .ldN16O64 f => some (.crew (f.toWord 0x222#10))
  | .ldI16O64 f => some (.crew (f.toWord 0x223#10))
  | .ldB32O64 f => some (.crew (f.toWord 0x224#10))
  | .ldB64O64 f => some (.crew (f.toWord 0x225#10))
  | .ldB128O64 f => some (.crew (f.toWord 0x226#10))
  | .ldAcqB32O64 f => some (.crew (f.toWord 0x227#10))
  | .ldAcqB64O64 f => some (.crew (f.toWord 0x228#10))
  | .stB8O64 f => some (.crew (f.toWord 0x230#10))
  | .stB16O64 f => some (.crew (f.toWord 0x231#10))
  | .stB32O64 f => some (.crew (f.toWord 0x232#10))
  | .stB64O64 f => some (.crew (f.toWord 0x233#10))
  | .stB128O64 f => some (.crew (f.toWord 0x234#10))
  | .stRelB32O64 f => some (.crew (f.toWord 0x235#10))
  | .stRelB64O64 f => some (.crew (f.toWord 0x236#10))
  | .stmaskO64 f => some (.crew (f.toWord 0x237#10))
  | .pfxO64 f => some (.crew (f.toWord 0x238#10))
  | .pfdO64 f => some (.crew (f.toWord 0x239#10))
  | .atomAddI32 f => some (.crew (f.toWord 0x240#10))
  | .atomAddF32 f => some (.crew (f.toWord 0x241#10))
  | .atomMinI32 f => some (.crew (f.toWord 0x242#10))
  | .atomMaxI32 f => some (.crew (f.toWord 0x243#10))
  | .atomMinN32 f => some (.crew (f.toWord 0x244#10))
  | .atomMaxN32 f => some (.crew (f.toWord 0x245#10))
  | .atomAndB32 f => some (.crew (f.toWord 0x246#10))
  | .atomOrB32 f => some (.crew (f.toWord 0x247#10))
  | .atomXorB32 f => some (.crew (f.toWord 0x248#10))
  | .atomExchB32 f => some (.crew (f.toWord 0x249#10))
  | .atomCasB32 f => some (.crew (f.toWord 0x24A#10))
  | .atomAddI64 f => some (.crew (f.toWord 0x24B#10))
  | .atomExchB64 f => some (.crew (f.toWord 0x24C#10))
  | .atomCasB64 f => some (.crew (f.toWord 0x24D#10))
  | .atomAddBf16x2 f => some (.crew (f.toWord 0x24E#10))
  | .fence f => some (.crew (f.toWord 0x250#10))
  | .bankopAddI32 f => some (.crew (f.toWord 0x258#10))
  | .bankopAddF32 f => some (.crew (f.toWord 0x259#10))
  | .bankopMinF32 f => some (.crew (f.toWord 0x25A#10))
  | .bankopMaxF32 f => some (.crew (f.toWord 0x25B#10))
  | .bankopMulF32 f => some (.crew (f.toWord 0x25C#10))
  | .cp f => some (.crew (f.toWord 0x280#10))
  | .cp2d f => some (.crew (f.toWord 0x281#10))
  | .cp3d f => some (.crew (f.toWord 0x282#10))
  | .cpScale f => some (.crew (f.toWord 0x283#10))
  | .gather f => some (.crew (f.toWord 0x284#10))
  | .scatter f => some (.crew (f.toWord 0x285#10))
  | .waitcCp f => some (.crew (f.toWord 0x288#10))
  | .waitcGa f => some (.crew (f.toWord 0x289#10))
  | .waitcMx f => some (.crew (f.toWord 0x28A#10))
  | .waitcFb f => some (.crew (f.toWord 0x28B#10))
  | .arrinit f => some (.crew (f.toWord 0x290#10))
  | .arrw f => some (.crew (f.toWord 0x291#10))
  | .arrrd f => some (.crew (f.toWord 0x292#10))
  | .tsig f => some (.crew (f.toWord 0x298#10))
  | .fput f => some (.crew (f.toWord 0x2C0#10))
  | .fget f => some (.crew (f.toWord 0x2C1#10))
  | .fatom f => some (.crew (f.toWord 0x2C2#10))
  | .fmark f => some (.crew (f.toWord 0x2C3#10))
  | .fldred f => some (.crew (f.toWord 0x2C4#10))
  | .fstmc f => some (.crew (f.toWord 0x2C5#10))
  | .tshape f => some (.crew (f.toWord 0x300#10))
  | .mmaE4m3 f => some (.crew (f.toWord 0x308#10))
  | .mmaE5m2 f => some (.crew (f.toWord 0x309#10))
  | .mmaE4e5 f => some (.crew (f.toWord 0x30A#10))
  | .mmaE5e4 f => some (.crew (f.toWord 0x30B#10))
  | .mmaE2m1 f => some (.crew (f.toWord 0x30C#10))
  | .mmaBf16 f => some (.crew (f.toWord 0x30D#10))
  | .mmaF16 f => some (.crew (f.toWord 0x30E#10))
  | .mmaI8 f => some (.crew (f.toWord 0x30F#10))
  | .mmaT5 f => some (.crew (f.toWord 0x310#10))
  | .mmasE4m3 f => some (.crew (f.toWord 0x318#10))
  | .mmasE5m2 f => some (.crew (f.toWord 0x319#10))
  | .mmasE2m1 f => some (.crew (f.toWord 0x31A#10))
  | .mmasBf16 f => some (.crew (f.toWord 0x31B#10))
  | .mmasF16 f => some (.crew (f.toWord 0x31C#10))
  | .mmasI8 f => some (.crew (f.toWord 0x31D#10))
  | .msacc f => some (.crew (f.toWord 0x320#10))
  | .mzero f => some (.crew (f.toWord 0x321#10))
  | .acca f => some (.crew (f.toWord 0x322#10))
  | .accf f => some (.crew (f.toWord 0x323#10))
  | .accld f => some (.crew (f.toWord 0x324#10))
  | .accst f => some (.crew (f.toWord 0x325#10))
  | .bucket f => some (.crew (f.toWord 0x328#10))
  | .bar f => some (.crew (f.toWord 0x340#10))
  | .barArrive f => some (.crew (f.toWord 0x341#10))
  | .barWait f => some (.crew (f.toWord 0x342#10))
  | .cbar f => some (.crew (f.toWord 0x343#10))
  | .gate f => some (.crew (f.toWord 0x348#10))
  | .gret f => some (.crew (f.toWord 0x349#10))
  | .trap f => some (.crew (f.toWord 0x350#10))
  | .tret f => some (.crew (f.toWord 0x351#10))
  | .brk f => some (.crew (f.toWord 0x352#10))
  | .ifence f => some (.crew (f.toWord 0x353#10))
  | .gets f => some (.crew (f.toWord 0x358#10))
  | .sets f => some (.crew (f.toWord 0x359#10))
  | .launch f => some (.crew (f.toWord 0x360#10))
  | .yield f => some (.crew (f.toWord 0x361#10))
  | .hvhintRecall f => some (.crew (f.toWord 0x362#10))
  | .hvhintLend f => some (.crew (f.toWord 0x362#10))
  | .getsp f => some (.crew (f.toWord 0x380#10))
  | .setsp f => some (.crew (f.toWord 0x381#10))
  | .icinv f => some (.crew (f.toWord 0x388#10))
  | .cwb f => some (.crew (f.toWord 0x389#10))
  | .cinv f => some (.crew (f.toWord 0x38A#10))
  | .tlbinvVa f => some (.crew (f.toWord 0x390#10))
  | .tlbinvAsid f => some (.crew (f.toWord 0x391#10))
  | .tlbinvAll f => some (.crew (f.toWord 0x392#10))
  | .sigh f => some (.crew (f.toWord 0x398#10))
  | .coxNop f => some (.cox (f.toWord 0x00#6))
  | .coxHalt f => some (.cox (f.toWord 0x01#6))
  | .coxYield f => some (.cox (f.toWord 0x02#6))
  | .coxAbort f => some (.cox (f.toWord 0x03#6))
  | .coxTrap f => some (.cox (f.toWord 0x04#6))
  | .coxMov f => some (.cox (f.toWord 0x08#6))
  | .coxAdd f => some (.cox (f.toWord 0x09#6))
  | .coxSub f => some (.cox (f.toWord 0x0A#6))
  | .coxAnd f => some (.cox (f.toWord 0x0B#6))
  | .coxOr f => some (.cox (f.toWord 0x0C#6))
  | .coxShl f => some (.cox (f.toWord 0x0D#6))
  | .coxShr f => some (.cox (f.toWord 0x0E#6))
  | .coxMovi f => some (.cox (f.toWord 0x10#6))
  | .coxAddi f => some (.cox (f.toWord 0x11#6))
  | .coxBr f => some (.cox (f.toWord 0x18#6))
  | .coxBeq f => some (.cox (f.toWord 0x19#6))
  | .coxBne f => some (.cox (f.toWord 0x1A#6))
  | .coxBlt f => some (.cox (f.toWord 0x1B#6))
  | .coxBge f => some (.cox (f.toWord 0x1C#6))
  | .coxLoop f => some (.cox (f.toWord 0x1D#6))
  | .coxSend f => some (.cox (f.toWord 0x20#6))
  | .coxPost f => some (.cox (f.toWord 0x21#6))
  | .coxRecv f => some (.cox (f.toWord 0x22#6))
  | .coxComb f => some (.cox (f.toWord 0x23#6))
  | .coxCombf f => some (.cox (f.toWord 0x24#6))
  | .coxFwd f => some (.cox (f.toWord 0x25#6))
  | .coxWaitf f => some (.cox (f.toWord 0x28#6))
  | .coxSigf f => some (.cox (f.toWord 0x29#6))
  | .instructionCompletion _ _ => none
  | .faultRecordRetry _ => none
  | .faultQueueWriteRetry _ => none
  | .engineOperationRetire _ => none
  | .tsigAdd _ => none
  | .tileSliceStart _ => none
  | .tileTaskRetire _ _ => none
  | .accaGrant _ => none
  | .accfUnitRelease _ => none
  | .umpireTimeout _ _ _ => none
  | .gateBudgetExpire _ _ => none
  | .pauseExpire _ => none
  | .spinHandoff _ _ => none
  | .pfdDeadlineDrop _ _ => none
  | .launchAdmission _ => none
  | .launchDeadlineExpire _ => none
  | .blockPlacement _ _ _ _ _ _ => none
  | .crewRetire _ => none
  | .blockRetire _ => none
  | .blockMigration _ _ _ => none
  | .contextPreempt _ => none
  | .contextImageComplete _ _ => none
  | .contextRestore _ _ _ => none
  | .harvestInterference _ => none
  | .harvestRevocation _ => none
  | .harvestParkComplete _ => none
  | .harvestResume _ _ => none
  | .harvestEvict _ => none
  | .remoteWriteApply _ => none
  | .replicaApply _ => none
  | .packetForward _ => none
  | .write _ => none
  | .readreq _ => none
  | .readrsp _ => none
  | .atomic _ => none
  | .marker _ => none
  | .markack _ => none
  | .probe _ => none
  | .probeack _ => none
  | .reduce _ => none
  | .redrsp _ => none
  | .chunk _ => none
  | .start _ => none
  | .abort _ => none
  | .abortack _ => none
  | .refuse _ => none
  | .fabricResponseTimeout _ => none
  | .portDown _ _ => none
  | .portTraining _ _ _ => none
  | .portAutoRetrain _ => none
  | .linkStateAnnouncement _ _ _ => none
  | .keyExchangeMessage _ _ => none
  | .frameSend _ _ _ => none
  | .frameReceive _ _ _ _ _ _ _ => none
  | .coxWaitSatisfied _ _ => none
  | .coxSpinFault _ => none
  | .coxRefusalTimeout _ _ => none
  | .coxStartSlotFree _ => none
  | .coxStartHoldTimeout _ => none
  | .coxDescriptorLoadComplete _ _ => none
  | .startWindowTimeout _ => none
  | .bootl _ => none
  | .frespResume _ _ _ => none
  | .frespDecline _ _ _ => none
  | .frespTerminate _ _ _ => none
  | .mgmtRegisterWrite _ _ _ _ => none
  | .addressGroupWrite _ _ _ => none
  | .startGo _ _ => none
  | .coxInstructionMemoryWrite _ _ _ => none
  | .coxRegionWrite _ _ _ => none
  | .coxSlotStateWrite _ _ _ _ => none
  | .ctlResume _ _ => none
  | .ctlStep _ _ => none
  | .ctlKill _ _ => none
  | .getid => none
  | .attest => none
  | .kdopen => none
  | .kdseal => none
  | .kdclose => none
  | .kdmap => none
  | .rekey => none
  | .mpcset => none
  | .mpcjoin => none
  | .revoke => none
  | .fwstage => none
  | .fwcommit => none
  | .secpCommandComplete => none
  | .fabcfg _ => none
  | .portctlAdmdn _ _ => none
  | .portctlRetrain _ => none
  | .portctlMapv _ _ _ => none
  | .rasclr => none
  | .bar2Write _ _ => none
  | .bar2Read _ _ => none
  | .enterD3hot => none
  | .leaveD3hot => none
  | .perstDeassert => none
  | .firmwareVerify _ => none
  | .secureTrainingComplete _ _ _ => none
  | .fullServiceTransition _ _ _ => none
  | .clockStep _ _ _ _ _ => none
  | .thermtrip => none
  | .powerRemoval => none
  | .patrolScrub _ _ => none
  | .onCoreUncorrectable _ _ _ => none
  | .cxlLinkDown _ _ => none
  | .illop opc rest => some (.crew (opc ++ rest))
  | .coxIllop opc rest => some (.cox (opc ++ rest))
  | .perstAssert => none
  | .msixVectorUnmask _ => none
  | .hbmStackEntersService _ _ => none
  | .prefetchComplete _ _ => none

/-! ## Bytes (R3, R33): the byte at the lowest address holds the lowest bits. -/

/-- The number whose little-endian bytes are given (R3). -/
def leNat : List Byte → Nat
  | [] => 0
  | b :: bs => b.toNat + 256 * leNat bs

/-- The n little-endian bytes of a number (R3). -/
def leBytes : Nat → Nat → List Byte
  | 0, _ => []
  | n + 1, v => BitVec.ofNat 8 (v % 256) :: leBytes n (v / 256)

/-- A crew instruction from the front of a byte list, with the bytes after it (R33). -/
noncomputable def decodeCrewBytes (bs : List Byte) : Except DecodeError (Instr × List Byte) :=
  if bs.length < 12 then .error .crewTooShort
  else .ok (decodeCrew (BitVec.ofNat 96 (leNat (bs.take 12))), bs.drop 12)

/-- A cox instruction from the front of a byte list, with the bytes after it (R307). -/
noncomputable def decodeCoxBytes (bs : List Byte) : Except DecodeError (Instr × List Byte) :=
  if bs.length < 8 then .error .coxTooShort
  else .ok (decodeCox (BitVec.ofNat 64 (leNat (bs.take 8))), bs.drop 8)

/-- The bytes of an encoded instruction, lowest address first. -/
def Encoded.bytes : Encoded → List Byte
  | .crew w => leBytes 12 w.toNat
  | .cox w => leBytes 8 w.toNat

/-- The instruction read from w, numbered with bit 0 the least significant bit of the lowest-addressed byte: 65 bits or
more are a crew instruction of 96 bits, fewer are a cox instruction of 64 bits; bits above are zero. -/
noncomputable def decodeTableWord (nbits w : Nat) : Option Instr :=
  if nbits > 96 then none
  else if nbits > 64 then
    match decodeCrewBytes (leBytes 12 w) with
    | .ok (i, _) => some i
    | .error _ => none
  else
    match decodeCoxBytes (leBytes 8 w) with
    | .ok (i, _) => some i
    | .error _ => none

/-! ## Fetch lines (R33, R36, R37, R38) -/

/-- The line word of a line (R33, R36). -/
def lineWordOf (line : List Byte) : BitVec 32 := BitVec.ofNat 32 (leNat (line.take 4))
/-- The 96 bits of slot k of a line (R33). -/
def slotWordOf (line : List Byte) (k : Nat) : BitVec 96 := BitVec.ofNat 96 (leNat ((line.drop (4 + 12 * k)).take 12))
/-- TGT bit of slot k (R36). -/
def lineTgt (lw : BitVec 32) (k : Nat) : Bool := lw.getLsbD k
/-- REG bit of slot k (R36). -/
def lineReg (lw : BitVec 32) (k : Nat) : Bool := lw.getLsbD (5 + k)
/-- PAIR bit j (R36). -/
def linePair (lw : BitVec 32) (j : Nat) : Bool := lw.getLsbD (10 + j)

/-- Exclusive OR of all bits of a byte. -/
def byteParity (b : Byte) : Bool := (List.range 8).foldl (fun p i => Bool.xor p (b.getLsbD i)) false
/-- The parity bits of a line: bit i covers bytes 8i to 8i+7, byte 3 taken as zero (R37). -/
def lineParity (line : List Byte) : BitVec 8 :=
  let l := line.set 3 0#8
  (List.range 8).foldl (fun acc i =>
    if ((l.drop (8 * i)).take 8).foldl (fun p b => Bool.xor p (byteParity b)) false then acc ||| (1#8 <<< i) else acc) 0#8

/-- The first condition of R38 that a line breaks, as its subcode. (log 39, DEDUCED) -/
def lineFault (line : List Byte) : Option Nat :=
  let lw := lineWordOf line
  let par := lw.extractLsb' 24 8
  let pair := fun j => linePair lw j
  let opc := fun k => opcOf (slotWordOf line k)
  let cls := fun k => (opc k).toNat / 64
  let js := (List.range 4).filter pair
  if lineParity line ≠ par then some 0
  else if lw.extractLsb' 14 2 ≠ 0#2 then some 1
  else if lw.extractLsb' 16 8 ≠ 0#8 then some 2
  else if (List.range 3).any (fun j => pair j && pair (j + 1)) then some 3
  else if js.any (fun j => lineTgt lw (j + 1) || lineReg lw (j + 1)) then some 4
  else if js.any (fun j => (Hdr.ofWord (slotWordOf line (j + 1))).stall ≠ 0#4) then some 5
  else if js.any (fun j => cls j == 0xD || cls j == 0xE || cls (j + 1) == 0xD || cls (j + 1) == 0xE || cls j == 7) then some 6
  else none

/-- A line built from a line word (PAR is computed) and five slot words (R33, R36, R37). -/
def buildLine (lw : BitVec 32) (slots : List (BitVec 96)) : List Byte :=
  let body := leBytes 4 (lw &&& 0x00FFFFFF#32).toNat ++
    (List.range 5).flatMap (fun k => leBytes 12 (slots.getD k 0#96).toNat)
  body.set 3 (lineParity body)

end Sys2Proof
end

