-- ==== Sys2Proof/Machine/State.lean ====
section
/-!
DEFINITION. State.lean: the state of one package as plain data, and its value after reset.
Sub-structures follow the agents: PC slots, crews, blocks, cores, launches, engines, the fabric, coxes, management.
-/

namespace Sys2Proof.Machine

open Sys2Proof

/-- Sparse memory: (address, byte) pairs, addresses strictly rising, no pair equal to what an unlisted address reads as. -/
abbrev Memory := List Host.Cell

/-- The states of a PC slot (R22). -/
inductive SlotState where
  | free
  | running
  | parked
deriving DecidableEq, Repr

/-- A PC slot (R22 to R24) with its region entry and queue capture (R364). -/
structure PcSlot where
  st : SlotState
  pc : DWord
  mask : Mask
  /-- order stamp at which the slot parked (R24) -/
  parkAt : Nat
  /-- order stamp of the slot's last issue, 0 when it has not issued (R23, R262) -/
  issuedAt : Nat
  /-- region-entry PC (R364) -/
  region : DWord
  /-- queue capture: QSTATE.0 to QSTATE.7 at the region entry (R364) -/
  qcap : List Word
  /-- order stamp at which the slot last named a queue since its region entry (R366) -/
  qnamed : Option Nat
  /-- the bytes of the line the slot is in; empty when it has still to enter the line at its PC (R39) -/
  line : List Byte
  /-- the slot has raised a crew-level cause that is not yet delivered, and issues nothing (R384) -/
  trapped : Bool
  /-- the acca request whose grant the slot waits for (R364) -/
  accaWait : Option Nat
  /-- the barrier (cluster barrier or not, id, phase) whose completion the slot's bar waits for (R212) -/
  barWait : Option (Bool × Nat × Bool)
deriving DecidableEq, Repr

/-- One register write in flight (R45): for a fixed-latency instruction `row` is the old value, which a read before the
latency has passed may still see; for a variable-latency one it is the new value, written at completion. -/
structure Alt where
  reg : Nat
  row : Row
  mask : Mask
  /-- the bits of the register that the instruction writes (R116) -/
  bits : Word
  /-- lanes and bits that a later instruction wrote before this write completed, one entry for each such write (R45, R116) -/
  raced : List (Mask × Word)
deriving DecidableEq, Repr

/-- A place that an access reaches: block memory of a core, a physical address, or a replicated page with its home. -/
inductive Loc where
  | blk (core off : Nat)
  | pa (a key : Nat)
  | repl (a home key : Nat)
deriving DecidableEq, Repr

/-- What an instruction does with the contents of a place and its data: the operations of R170 and R173, a store (`put`), and one lane of
stmask (`bit` k: the lane's bit of the place is bit k of its data). -/
inductive RmwOp where
  | addI32 | addF32 | minI32 | maxI32 | minN32 | maxN32 | and32 | or32 | xor32 | exch32 | cas32
  | addI64 | exch64 | cas64 | addBf16x2 | minF32 | maxF32 | mulF32 | put
  | bit (k : Nat)
deriving DecidableEq, Repr

/-- What a lane of a store or of an RMW did when it issued: its place, its data word, and what the place held before (R61). -/
structure LateItem where
  lane : Nat
  loc : Loc
  data : Nat
  init : Nat
deriving DecidableEq, Repr

/-- Sources that an instruction in flight may still read (R61): the register, plus one, of each argument word of the operation it has
posted, in a lane (0 for a word that is no register); or field B of a store or RMW, its n registers, and what its lanes did. -/
inductive Late where
  | args (regs : List Nat) (lane : Nat)
  | data (die reg n size : Nat) (op : RmwOp) (items : List LateItem)
deriving DecidableEq, Repr

/-- An instruction in flight (R45, R46). -/
structure Flight where
  id : Nat
  /-- the completion flag it counts in (R46) -/
  flag : Option Nat
  /-- cycle at which a fixed-latency instruction completes; none for latency V and — (R60) -/
  due : Option Nat
  writes : List Alt
  /-- squashed when the crew stops (load, pfx; R367) -/
  squash : Bool
  /-- the slot that issued it, when it may raise FPX (R384) -/
  fpx : Option Bool
  /-- sources that it may still read (R61) -/
  late : Option Late := none
deriving DecidableEq, Repr

/-- An entry of a crew's trap queue (R386). -/
structure TrapEntry where
  cause : Word
  slot : Bool
  val : DWord
  /-- return PC (R381) -/
  ret : DWord
  /-- the PC after the raising instruction, or after its pair (R387) -/
  after : DWord
  mask : Mask
deriving DecidableEq, Repr

/-- A crew stalled on a system cause (R385, R388). -/
structure Stall where
  /-- fault queue: 0 the context's, d the queue of domain d (R402) -/
  queue : Nat
  /-- record number, R389; none while the record is held (R388) -/
  seq : Option Nat
  /-- the record is a STEP record (R391) -/
  step : Bool
  /-- the record's cause code, for a declined fault (R218) -/
  cause : Nat
  /-- the record is a KEY record: resumes when the key is installed (R182) -/
  key : Option Nat
deriving DecidableEq, Repr

/-- Place of a fault queue: base, log2 of its entries, the ASID that translates it, MSIE and MSIV (R363, R388, R402). -/
structure QPlace where
  fqva : Nat
  fqlog : Nat
  asid : Nat
  msie : Bool
  msiv : Nat
deriving DecidableEq, Repr

/-- A return record of the gate stack with the caller's level (R215). -/
structure GateRec where
  pc : DWord
  mask : Mask
  n : Nat
  regs : List Row
  asid : Nat
  ht : DWord
  tvec : Option DWord
  priv : Nat
  dom : Nat
  /-- domain entry of the caller's level as it was read (R403) -/
  dent : List Byte
  window : Option (Nat × Nat)
  mode : Word
  fp : Row
  rng : Row
  queues : List Word
  regc : Word
  dsh : Nat
  dsPart : Option (Nat × Nat)
  dsValid : Bool
  ocnt : List Word
  gatestat : Word
  trapq : List TrapEntry
  insvc : Bool
  svcSlot : Bool
  skip : Bool
  trapcause : Word
  trapva : DWord
  trecs : List (List Word)
  budget : Option Nat
  trapu : Bool
  /-- gate index of the call -/
  gate : Nat
  /-- return mask of the entry -/
  retMask : Word
  /-- first 4 KiB unit and unit count of the callee's window in the gate part of the boathouse (R406) -/
  unit : Nat
  units : Nat
deriving DecidableEq, Repr

/-- A special register as it read before a write whose latency has not passed (R60). -/
structure SrOld where
  sr : Nat
  rows : List Row
  due : Nat
  /-- the crew wrote it itself, as against another crew that shares the register (R221) -/
  own : Bool := true
deriving DecidableEq, Repr

/-- A crew (R11, R14, R32). -/
structure Crew where
  id : Nat
  /-- key of its block -/
  blk : Nat
  ctx : Nat
  /-- crew index within the block (R29) -/
  idx : Nat
  core : Nat
  quad : Nat
  qslot : Nat
  /-- registers allocated (R13) -/
  n : Nat
  regs : List Row
  a : PcSlot
  b : PcSlot
  /-- records on the divergence stack (R25, R27) -/
  depth : Nat
  /-- divergence stack handle index (R25, R363) -/
  dsh : Nat
  /-- first byte and length of the part that serves a callee (R216) -/
  dsPart : Option (Nat × Nat)
  /-- false for a callee whose domain has no divergence stack (R216) -/
  dsValid : Bool
  /-- QSTATE.0 to QSTATE.7 (R21) -/
  queues : List Word
  /-- completion flags f0 to f11 (R46) -/
  flags : List Nat
  /-- cycle of the crew's last issue since its start or resumption (R44) -/
  lastIssue : Option Nat
  /-- cycle of its last issue ever, for the order of R262 -/
  lastEver : Option Nat
  flights : List Flight
  mode : Word
  fp : Row
  rng : Row
  /-- RNGSEED captures (R92, R364) -/
  rngCap : Row
  regc : Word
  pfmode : Word
  /-- special registers written less than their latency ago (R60) -/
  srOld : List SrOld
  /-- lanes that have exited (R26) -/
  exited : Mask
  /-- OCNT.cp, .ga, .mx, .fb (R175) -/
  ocnt : List Word
  /-- failures counted and not yet reported by a waitc: operation, class, status, gate level (R175, R184) -/
  errs : List (Nat × Nat × Nat × Nat)
  gatestat : Word
  trapq : List TrapEntry
  insvc : Bool
  svcSlot : Bool
  skip : Bool
  trapcause : Word
  trapva : DWord
  /-- trap vector of the current callee level; none outside a gate call, where the context's TVEC applies (R382) -/
  tvec : Option DWord
  /-- tile records t0 to t15, eight words each (R191) -/
  trecs : List (List Word)
  /-- barrier arrival masks, id 0 to 15 (R212) -/
  arrive : List Mask
  armed : BitVec 16
  armedP : BitVec 16
  /-- cluster-barrier arrival masks, id 0 to 3 (R213) -/
  carrive : List Mask
  /-- gate stack, innermost call first (R215) -/
  gates : List GateRec
  priv : Nat
  dom : Nat
  /-- domain entry of the current level, as the launch or the gate read it (R402, R403) -/
  dent : List Byte
  asid : Nat
  /-- handle table: HTVA in bits 56:16, HTN in bits 10:0 (R249) -/
  ht : DWord
  /-- block-memory window of a callee in bytes: first byte within the core's block memory, length (R404, R216) -/
  window : Option (Nat × Nat)
  /-- cycles left of the gate budget (R218) -/
  budget : Option Nat
  /-- cycles of demotion left after pause (R157) -/
  demote : Nat
  /-- cycle from which the crew has been continuously demoted (R264) -/
  demotedFrom : Option Nat
  stall : Option Stall
  /-- a gate call being unwound: level, STATUS and CAUSE; waits until the operations of its levels have retired (R218) -/
  unwinding : Option (Nat × Nat × Nat)
  /-- a STEP is raised once the stepped instruction has completed (R391) -/
  stepPend : Bool
  retired : Bool
  /-- lanes in its arrival masks when it retired: barriers 0 to 15, then cluster barriers 0 to 3 (R337) -/
  narr : List Nat := []
  /-- cluster barriers whose phase in progress counts the crew (R212, R213) -/
  cin : BitVec 4 := 0#4
  /-- a STEP was answered while the crew could not go on: it continues at its PCs (R366) -/
  cont : Bool := false
deriving DecidableEq, Repr

/-- A placed block (R249, R256 to R259, R375). -/
structure Block where
  /-- key, unique among blocks -/
  id : Nat
  /-- key of its launch -/
  launch : Nat
  ctx : Nat
  core : Nat
  blockId : Nat
  nblocks : Nat
  group : Nat
  rank : Nat
  /-- blocks of its cluster group (R256) -/
  gsize : Nat
  vcore : Nat
  /-- issue class: 0 S, 1 Q, 2 B, 3 H (R252) -/
  cls : Nat
  /-- a block of an H launch (R268) -/
  harv : Bool
  /-- crews of the block as launched -/
  ncrews : Nat
  /-- first byte and length of the allocation in the core's block memory (R256) -/
  bmOff : Nat
  bmLen : Nat
  /-- arrival counters (R183) -/
  arr : List Word
  /-- phase bits of the barriers (R212) -/
  barP : BitVec 16
  /-- CNT of each phase in progress, and the crews counted in it (R212) -/
  barCnt : List (Option Nat)
  barIn : List (List Nat)
  /-- umpire counts in cycles (R274) -/
  ump : List Nat
  /-- cluster-barrier state of the group, held by the rank-0 block (R213, R375) -/
  cbarP : BitVec 4
  cbarOn : List Bool
  cump : List Nat
  lscale : Word
  ovf : Word
  itrange : DWord
  fixup : Word
  umpt : Word
  /-- accumulator units held and spilled (R267, R375) -/
  units : BitVec 64
  spilled : BitVec 64
  accu : Nat
  /-- 0 resident, 1 switched out or saved to its image, 2 parked in the boathouse, 3 terminated with operations still running -/
  place : Nat
  /-- the crews of the block that have issued yield and nothing since, with the order stamps of their yields (R226) -/
  yielded : List (Nat × Nat)
  /-- cycle since which the block has waited while not resident (R264) -/
  since : Nat
  /-- UMPT of the group's rank-0 block, kept here once that block has retired (R274) -/
  leadUmpt : Option Word := none
  /-- first byte of the 256 that hold its arrival counters in the core's block memory (R183) -/
  arrOff : Nat := 0
  /-- parked harvest state that the driver has evicted to the image (R271, R370) -/
  evicted : Bool := false
  /-- the driver has asked for its eviction, which waits for its operations (R271, R367) -/
  evicting : Bool := false
  /-- core image that the block is saved in, or that holds its spilled units (R267, R370) -/
  img : Option Nat := none
deriving DecidableEq, Repr

/-- A prefetch tracker (R167). -/
structure Tracker where
  busy : Bool
  gen : Nat
  crew : Nat
deriving DecidableEq, Repr

/-- A queued pfd request (R169). -/
structure PfdReq where
  ctx : Nat
  handle : Nat
  prio : Nat
  deadline : Nat
  order : Nat
  begun : Bool
deriving DecidableEq, Repr

/-- The execution pipes of a quad, and its ports into engines, fabric interface and marshal (R59). -/
inductive Pipe where
  | int | fma | dp | sfu | xl | br | ls | eng | fab | mx | sys
deriving DecidableEq, Repr

/-- The last instruction that a pipe of a quad has accepted: cycle, crew, and whether it is a harvest crew (R59, R269); the cycle lies
ahead for the second instruction of a pair that needs the pipe of the first (R42). -/
structure PipeUse where
  quad : Nat
  pipe : Pipe
  cyc : Nat
  crew : Nat
  harvest : Bool
deriving DecidableEq, Repr

/-- State of a core beside its memories. -/
structure CoreSt where
  /-- lending on (R227) -/
  lending : Bool
  /-- hvhint.lend issued while revocation runs: lending comes on again when it ends (R227, R270) -/
  relend : Bool
  /-- cycles of interference counted since lending last turned on (R269) -/
  interf : Nat
  /-- use of the sixteen 4 KiB units of the gate part of the boathouse (R406) -/
  gateUse : List Bool
  /-- crews whose gates wait for a window, in the order in which they became otherwise eligible (R215) -/
  gateWait : List Nat
  /-- revocation phase: 0 none, 1 stopping, 2 parking (R270) -/
  revoke : Nat
  /-- bytes of block memory in use as parked harvest state (R268) -/
  parked : Bool
  trackers : List Tracker
  pfds : List PfdReq
  /-- what the pipes of its quads have accepted last (R59) -/
  pipes : List PipeUse := []
deriving DecidableEq, Repr

/-- Where an agent is to act in the current cycle: a quad, a cox, or the units that act on their own. -/
inductive Agent where
  | quad (core quad : Nat)
  | cox (port : Nat)
  | units
deriving DecidableEq, Repr

/-- The registers of a crew as they stood when a pair issued, and the queue state and RNGSEED from which the pair's second
instruction goes on where the first one's effects are withheld (R42, R141). -/
structure Snap where
  regs : List Row
  flights : List Flight
  left : Option (List Word × Row)
deriving DecidableEq, Repr

/-- What is issuing: the crew, its slot, the instruction's PC and word, its REG bit, the PC next in sequence, and for the
second instruction of a pair the first one's PC and the registers at the pair's issue; or the cox and context slot. -/
structure Cursor where
  crew : Option Nat
  slot : Bool
  pc : DWord
  word : BitVec 96
  reg : Bool
  next : DWord
  /-- PC of the first instruction of the pair when this one is the second -/
  first : Option DWord
  snap : Option Snap
  port : Nat
  ctxSlot : Nat
deriving DecidableEq, Repr

/-- A cause as it is raised (R381): code, SUB, INFO, the TRAPVA value and the mask of failing lanes. -/
structure Cause where
  code : Nat
  sub : Nat
  info : Nat
  val : DWord
  mask : Mask
  /-- a crew-level cause (delivered to TVEC), as against a system cause -/
  crew : Bool
  /-- a crew-level trap returns after the raising instruction -/
  next : Bool
  /-- found by the issue-time checks of R58 -/
  atIssue : Bool
  /-- queue state that the raising instruction would have left, for the checks of the other one of its pair (R42) -/
  queues : List Word := []
deriving DecidableEq, Repr

/-- A translation held in a TLB (R397, R398). -/
structure TlbEntry where
  asid : Nat
  /-- first virtual address and length of the page -/
  va : Nat
  size : Nat
  leaf : DWord
deriving DecidableEq, Repr

/-- A handle or gate entry held by the cores (R400). -/
structure HEntry where
  asid : Nat
  va : Nat
  bytes : List Byte
deriving DecidableEq, Repr

/-- A fetched line held in a core's instruction cache (R38, R222). -/
structure ILine where
  core : Nat
  asid : Nat
  va : Nat
  bytes : List Byte
deriving DecidableEq, Repr

/-- A write on its way to a remote home: its sender's die and vector clock, and its number among the sender's writes (R236). -/
structure Arriving where
  src : Nat
  dst : Nat
  clock : List Nat
  num : Nat
  pa : Nat
  bytes : List Byte
  poison : Bool
  /-- key that its home encrypts it under (R430) -/
  key : Nat
deriving DecidableEq, Repr

/-- A write of a replicated page on its way from the page's home die `src` to a replica, with the home's vector clock and the
write's number among the home's writes (R236, R241); `by` is the die whose agent wrote. -/
structure Replica where
  die : Nat
  src : Nat
  by_ : Nat
  clock : List Nat
  num : Nat
  pa : Nat
  bytes : List Byte
  key : Nat
deriving DecidableEq, Repr

/-- Bytes of one transfer, each with its poison, from an offset on, that lie in one sector with bytes of another of its packets: read
with that packet's, or to be written with them (R230). -/
structure Frag where
  key : List Nat
  off : Nat
  bytes : List (Byte × Bool)
deriving DecidableEq, Repr

/-- What a write replaced: at a physical address, or in block memory by its key; the bytes and the keys before it, and its cycle.
An access that the manual lets use an older value takes it from here (R234, R398, R400). (log 5, DEDUCED) (log 6, DEDUCED) -/
structure Past where
  blk : Bool
  pa : Nat
  old : List Byte
  keyed : List (Nat × Nat)
  cyc : Nat
deriving DecidableEq, Repr

/-- An invalidation: of every address space, of one, or of one page of it; entries of the first `made` writes are gone (R224). -/
structure Invalidation where
  asid : Option Nat
  page : Option (Nat × Nat)
  made : Nat
deriving DecidableEq, Repr

/-- What a crew may still read since its last acquire: values no older than `floor`, at a place it has read none older than it saw
there, and at a place it has written nothing older at all (R234, R238); times count writes. -/
structure View where
  crew : Nat
  floor : Nat
  reads : List (Bool × Nat × Nat × Nat)
  wrote : List (Bool × Nat × Nat)
deriving DecidableEq, Repr

/-- A release at a scope below .package: who made it, and the vector clock of its die, which an acquire that pairs with it heeds
(R233, R235). -/
structure Narrow where
  scope : Nat
  crew : Nat
  blk : Nat
  core : Nat
  clk : List Nat
deriving DecidableEq, Repr

/-- What the device keeps of a registered context beside its descriptor in memory (R363, R276, R382). -/
structure CtxSt where
  num : Nat
  /-- TVEC (R382) -/
  tvec : DWord
  /-- TVEC has been set from the descriptor's TVEC0 -/
  tvecSet : Bool
  /-- terminated under R276 and not registered again -/
  dead : Bool
  /-- the driver has written V = 0 since the termination (R276) -/
  sawV0 : Bool
  /-- stopped by a pre-emption and not restored (R367) -/
  stopped : Bool
  /-- the descriptor as it stood when the context's first block was placed: later writes to it are ignored but for four
  fields while the context has blocks (R363) -/
  desc : List Byte
  /-- the tasks in the spill area, in the order of their entries (R378) -/
  tasks : List Nat := []
deriving DecidableEq, Repr

/-- A fault record held because its queue is full or cannot be written (R388). -/
structure Held where
  dom : Bool
  num : Nat
  fq : QPlace
  kind : Nat
  ctx : Nat
  src : Word
  rasid : Word
  flg : Word
  body : List Byte
  /-- the crew that stays stalled until the record is posted -/
  crew : Option Nat
  /-- the engine operation, tile slice, cox slot or launch that stays paused -/
  unit : Option (Nat × Nat)
  /-- held because the memory could not be written, as against a full queue -/
  unwritable : Bool
  /-- CLOCK of the last try -/
  tried : Nat
deriving DecidableEq, Repr

/-- The RAS counters (R449) and the error log (R450). (log 36, DESIGN CHOICE) -/
structure Ras where
  cesram : DWord
  uesram : DWord
  cehbm : DWord
  uehbm : DWord
  parfix : DWord
  pktdrop : DWord
  ptebad : DWord
  msidrop : DWord
  farlost : DWord
  prod : Word
  thr : Word
  /-- the 256 entries of 32 bytes -/
  log : List (List Byte)
deriving DecidableEq, Repr

/-- Management registers of the window (R414 to R418, R423, R440 to R445, R450 to R453). -/
structure Mgmt where
  stage : Nat
  dieup : BitVec 4
  stackup : BitVec 8
  cxlup : BitVec 4
  err : BitVec 8
  ctxtab : DWord
  domtab : DWord
  spint : Word
  mwap : DWord
  l1cfg : BitVec 2
  ps : BitVec 2
  banksz : List Word
  farsz : List DWord
  /-- MSI-X table (R409, R420): addresses and data, 16 bytes to a vector, and the vectors whose mask bit is clear; the vectors
  held pending -/
  msix : Memory
  msixOpen : List Nat
  msixPending : List Nat
  /-- MSI-X messages posted to the host, oldest first -/
  msixSent : List Nat
  /-- bytes returned to host reads through BAR2, oldest first -/
  readData : List (List Byte)
  /-- stacks that have failed to train (R422) -/
  stackFail : BitVec 8
  pkgpwr : Word
  diepwr : List Word
  temp : List Word
  hbmtemp : List Word
  /-- arithmetic clock in MHz (R453) -/
  aclk : Word
  thrstat : Word
  pfddrop : List Word
  pwrcap : Word
  therm : Word
  /-- PERST# is deasserted and bring-up has begun (R421) -/
  boot : Bool
  /-- the package is without power (R423, R454) -/
  off : Bool
  /-- BOOTL, and the records written to it that the stakeboat has not read yet (R250, R416, R422) -/
  bootl : DWord := 0#64
  bootq : List Nat := []
  /-- the THERMTRIP# pin is asserted (R454) -/
  trip : Bool := false
deriving DecidableEq, Repr

/-- An engine, matrix or fabric operation counted in OCNT (R174, R193, R185): the crew's place at issue, the operands
captured, the progress made and the status. -/
structure Op where
  id : Nat
  crew : Nat
  ctx : Nat
  blk : Nat
  core : Nat
  /-- SRC of its fault records (R389) -/
  src : Word
  asid : Nat
  /-- the callee's domain, whose queue takes its records; none outside a gate call (R388) -/
  dom : Option Nat
  fq : QPlace
  /-- gate level of the issue -/
  level : Nat
  ht : DWord
  window : Option (Nat × Nat)
  harvest : Bool
  /-- 0 cp, 1 ga, 2 mx, 3 fb (R174, R175) -/
  cls : Nat
  opc : Nat
  args : List Word
  /-- captured tile record (R193) and metadata words of mmas (R198) -/
  trec : List Word
  metaw : List Word
  /-- the checks made before any byte moves have passed (R180) -/
  checked : Bool
  /-- bytes, elements, packets or rows done -/
  pos : Nat
  /-- row progress of each slice, and which slices have been started (R202, R266) -/
  prog : List Nat
  started : List Bool
  /-- LSCALE as the task read it at its start (R207) -/
  lscale : Word
  /-- OVF bits to OR in at retirement (R208) -/
  ovf : Nat
  /-- first nonzero status met so far -/
  stat : Nat
  done : Bool
  /-- the last step ended at or passed a 4 KiB unit, or a 256-byte one (R270, R367) -/
  at4k : Bool := true
  at256 : Bool := true
  /-- pauses on a fault: the slice (0 but for matrix tasks), and the record's number; none while the record is held (R179, R388) -/
  pause : List (Nat × Option Nat)
  /-- statuses of the slices of a matrix task (R202) -/
  sliceStat : List Nat
  /-- operations that a tsig awaits, and the failures it has met: operation and status (R184) -/
  await : List Nat
  met : List (Nat × Nat)
  /-- fabric: TAG, packets not yet answered, probe answers not yet received, CLOCK of the sending of the oldest unanswered request,
  and the unanswered requests: package, OFFSET, CLOCK of the sending (R283, R292, R295) -/
  tag : Nat
  left : Nat
  probes : List Nat
  phase : Nat
  sentAt : Nat
  waits : List (Nat × Nat × Nat) := []
  /-- results staged by fldred (R292) -/
  stage : List (Nat × List Byte)
  /-- the status is dropped: the call was unwound or the context terminated (R218, R276) -/
  dropped : Bool
deriving DecidableEq, Repr

/-- A waiting acca request (R204, R267). -/
structure AccaReq where
  id : Nat
  crew : Nat
  slot : Bool
  blk : Nat
  core : Nat
  units : Nat
  base : Option Nat
  dst : Nat
  mask : Mask
  flight : Nat
deriving DecidableEq, Repr

/-- A pending release of a unit by accf, and the tasks that must retire first (R205). -/
structure AccfReq where
  blk : Nat
  core : Nat
  unit : Nat
  tasks : List Nat
deriving DecidableEq, Repr

/-- A stakeboat launch slot (R249 to R253, R261). -/
structure Launch where
  id : Nat
  /-- launch slot of the stakeboat, 0 to 255 (R250) -/
  slot : Nat
  ctx : Nat
  /-- the 128 bytes of the record -/
  record : List Byte
  /-- where the write-back goes: ASID and VA of the record, and whether its handle grants w (R251) -/
  asid : Nat
  va : Nat
  wb : Bool
  /-- STATE code of R251 -/
  st : Nat
  reason : Nat
  late : Bool
  /-- cycle at which the deadline expires (R249) -/
  deadline : Option Nat
  order : Nat
  admitOrd : Nat
  /-- BLOCKIDs that have been placed, and how many blocks have retired -/
  placed : List Nat
  retired : Nat
  /-- completion writes still to make: 0 a bitmap OR of a BLOCKID, 1 the flag add (R261) -/
  writes : List (Nat × Nat)
  /-- record number that holds the launch; some none while the record itself is held (R261) -/
  hold : Option (Option Nat)
  /-- the context's domain entry as the launch read it (R403) -/
  dent : List Byte := []
  /-- cycle of the last spin hand-off check of the launch (R264) -/
  spinAt : Nat := 0
  /-- a Q launch restored before all its blocks are resident: its crews wait for the rest (R265) -/
  gang : Bool := false
deriving DecidableEq, Repr

/-- A fabric packet: eight header words and the data flits (R280, R283). (log 14, DEDUCED) -/
structure Packet where
  hdr : List Word
  data : List Byte
  /-- data flits that carry poison (R323, R447) -/
  bad : List Nat
  /-- what the landing rules use and the header layout has no field for (log 14, DEDUCED): BLOCKID of the issuing block and its handle
  table (R185), bytes asked for, first byte and length of the whole command, the kind of the packet that a REFUSE turns away
  (R282), and whether a harvest crew issued the command (R268) -/
  blockId : Nat
  ht : DWord
  len : Nat
  spanOff : Nat
  span : Nat
  was : Nat := 10
  harvest : Bool := false
deriving DecidableEq, Repr

/-- A packet at a port: queued for it, or delivered here after arriving on it; port 32 is the package itself (R279, R286). -/
structure PortPkt where
  port : Nat
  pkt : Packet
  /-- the logical port that the packet detours around (R295) -/
  around : Option Nat
  /-- the router slice in whose reduction buffer the partial stands until it leaves (R291) -/
  red : Option Nat := none
  /-- the receive buffer in which a packet on its way through stands until its link takes it: of a port, or 32 and more for a bridge from
  that die less 32 (R281) -/
  buf : Option Nat := none
deriving DecidableEq, Repr

/-- An address-group entry (R288). -/
structure Group where
  v : Bool
  rhnd : Nat
  root : Nat
  nm1 : Nat
  ctx : Nat
  seq : Nat
  memb : BitVec 256
  /-- words of the entry whose reserved bits were last written nonzero (R288) -/
  rsv : BitVec 16
deriving DecidableEq, Repr

/-- Marker copies counted at the target (R287). -/
structure MarkCount where
  src : Nat
  ctx : Nat
  tag : Nat
  seen : Nat
deriving DecidableEq, Repr

/-- An abort that this package detected and that awaits acknowledgements (R296). -/
structure AbortWait where
  grp : Nat
  seq : Nat
  waiting : List Nat
  since : Nat
deriving DecidableEq, Repr

/-- A key-domain (R429): 0 FREE, 1 OPEN, 2 SEALED; its key's number (0 is the device key), the context it seals. -/
structure KeyDom where
  st : Nat
  key : Nat
  ctx : Nat
  /-- the listed VA ranges of KDSEAL -/
  ranges : List (Nat × Nat)
  /-- context measurement CM (R431) -/
  cm : List Byte
deriving DecidableEq, Repr

/-- A Felliog port: PORTCTL and PORTSTAT (R442), LKSTAT and TXCNT (R435), and its training. -/
structure Port where
  admdn : Bool
  mapv : Bool
  lport : Nat
  /-- 0 UNTRAINED, 1 TRAINING, 2 UP, 3 DOWN, 4 ADMIN, 5 MISWIRE -/
  st : Nat
  att : Nat
  peer : Nat
  /-- 0 NONE, 1 ACTIVE, 2 WARN, 3 HELD (R434) -/
  txst : Nat
  rxst : Nat
  txsel : Bool
  rxsel : Bool
  /-- key and salt of each direction (R433), and a receive key under the other select value that has been installed and not yet
  used (R435) -/
  txkey : Option (BitVec 288) := none
  rxkey : Option (BitVec 288) := none
  rxnext : Option (BitVec 288) := none
  nkey : Nat
  /-- flit counters of the two directions (R433) -/
  txcnt : DWord
  rxcnt : DWord := 0#64
  /-- consecutive link-level retries (R295, R433) -/
  fails : Nat := 0
  /-- credits of the peer's receive buffers, and credits of this port's buffers that the peer holds, in flits: channel times four plus hop
  class (R281) -/
  credit : List Nat := List.replicate 12 16
  lent : List Nat := List.replicate 12 16
  /-- 0: no key exchange; 1: one is under way; 2: one that a revocation has begun, through which all traffic of the link waits
  (R433, R439) -/
  exch : Nat
  /-- cycle at which the port went DOWN, and retrainings since then (R443) -/
  downAt : Nat
  tries : Nat
  /-- telemetry of the port: flits sent and received, retries, tag failures, DOWN events (R451) -/
  sent : DWord
  rcvd : DWord
  retries : Word
  tagFail : Word
  downs : Word
deriving DecidableEq, Repr

/-- A posted window of a cox context (R302, R316, R321). -/
structure CoxWin where
  tag : Nat
  buf : Nat
  chunk : Nat
  landed : Nat
  fva : Option Nat
  /-- subcode of the translation failure -/
  fsub : Nat
  poison : Bool
  /-- VA of the poisoned bytes -/
  pva : Nat
deriving DecidableEq, Repr

/-- The send part of a chunk instruction (R315, R324). -/
structure CoxSend where
  /-- buffer and chunk sent -/
  buf : Nat
  chunk : Nat
  tag : Nat
  rank : Nat
  port : Nat
  /-- packet numbers not yet accepted, and those of them that a refusal has to send again -/
  left : List Nat
  again : List Nat
  /-- CLOCK units of refusal with STAT OK counted so far, and the CLOCK value since which such a refusal stands -/
  refused : Nat
  since : Option Nat
  /-- the KEY record has been posted (R324) -/
  keyed : Bool
  /-- stamp that the responses carry, so that those to an earlier attempt are told apart -/
  id : Nat
  /-- package of the target rank -/
  dst : Nat
  /-- why the send part fails: cause, subcode, VA (R315, R321, R324) -/
  fail : Option (Nat × Nat × Nat)
deriving DecidableEq, Repr

/-- A context slot of a cox (R302 to R306). -/
structure CoxSlot where
  /-- 0 FREE, 1 READY, 2 RUN, 3 WAIT, 4 FAULT -/
  st : Nat
  phase : Bool
  cause : Nat
  sub : Nat
  why : Nat
  pc : Nat
  regs : List DWord
  ctx : Nat
  group : Nat
  seq : Nat
  asid : Nat
  ht : DWord
  /-- b0 to b15, 16 bytes each -/
  bufs : List (List Byte)
  /-- region of the entry PC (R301) -/
  region : Nat
  wins : List CoxWin
  /-- a single step is in progress (R331) -/
  step : Bool
  /-- instructions since the last chunk boundary (R328) -/
  spin : Nat
  /-- a KILL waits for the chunk boundary (R332) -/
  killed : Bool
  /-- an abort of its group waits for the chunk boundary (R327) -/
  aborted : Bool
  send : Option CoxSend
  /-- the descriptor table of the START (R325), and the package and tag that await its answer -/
  dtva : Nat
  startSrc : Nat
  startTag : Nat
deriving DecidableEq, Repr

/-- A packet in a holding slot (R323). -/
structure CoxHold where
  slot : Nat
  tag : Nat
  pkt : Packet
deriving DecidableEq, Repr

/-- A START held for a port without a free slot (R326). -/
structure HeldStart where
  pkt : Packet
  entry : Nat
  since : Nat
deriving DecidableEq, Repr

/-- A cox (R300, R301). -/
structure CoxSt where
  /-- instruction memory: (word index, word), rising, zero words unlisted -/
  imem : List (Nat × DWord)
  regions : List DWord
  slots : List CoxSlot
  holds : List CoxHold
  /-- slot that runs or ran last (R328) -/
  cur : Nat
  starts : List HeldStart
deriving DecidableEq, Repr

/-- A start slot of the start window (R418). -/
structure StartSlot where
  data : List Byte
  group : Nat
  busy : Bool
  stat : Nat
  seq : Nat
  /-- tag of the START in progress, members that have not answered, CLOCK of the sending -/
  tag : Nat
  waiting : List Nat
  since : Nat
deriving DecidableEq, Repr

/-- An installed multi-package context (R436 to R439). -/
structure Mpc where
  id : Nat
  ctx : Nat
  policy : List Byte
  key : List Byte
  members : BitVec 256
  epoch : Nat
deriving DecidableEq, Repr

/-- What the records of a core image stand for, in their order: crews, gate records (crew and call), blocks, commands (R371). -/
structure ImgRecs where
  crews : List Nat
  gates : List (Nat × Nat)
  blks : List Nat
  engs : List Nat
deriving DecidableEq, Repr

/-- What is kept of a block that is not resident: its block memory, accumulator units and its core's scale memory (R371). -/
structure Saved where
  blk : Nat
  bm : List Byte
  am : List (Nat × List Byte)
  sm : List Byte
  /-- the lent memory of the core, from its first byte on, for parked harvest state (R270) -/
  lent : Nat × List Byte := (0, [])
  /-- LEND of its core when it left it (R372), and the records of its core image -/
  lend : Nat := 0
  recs : ImgRecs := { crews := [], gates := [], blks := [], engs := [] }
deriving DecidableEq, Repr

/-- An image of a flash bank: the bank, the index 0 to 3, the bytes (R455). -/
structure FwImage where
  bank : Bool
  idx : Nat
  bytes : List Byte
deriving DecidableEq, Repr

/-- SECP (R425 to R439, R455): the mailbox, the firmware measurement, and what flash and fuses hold. -/
structure Secp where
  /-- command block at work (SMSTAT.BUSY); the address in SMCMD; the status that the command has ended with; LAST -/
  busy : Option Nat
  cbpa : Nat := 0
  result : Option Nat
  last : Nat
  /-- FM (R426) -/
  fm : List Byte
  /-- indices of the images staged and verified since the last commit (R455) -/
  staged : List Nat
  /-- images written to the banks of the flash (R455) -/
  flash : List FwImage := []
  /-- the active bank of the flash, and the fused rollback counters of the four images (R455) -/
  bank : Bool
  roll : List Nat
deriving DecidableEq, Repr


/-- Why the machine stops. (log 37, DEDUCED) -/
inductive Fault where
  /-- raised by a walk or an access that reaches a physical address R393 does not implement; safe: the real part does something the specification does not say. -/
  | noSuchPhysical (pa : Nat)
  /-- raised by an instruction executed while the cursor names no crew or cox context; safe: no step of the machine does so. -/
  | noIssuer
deriving DecidableEq, Repr

/-- Why an instruction has no meaning. -/
inductive Refusal where
  /-- raised by an arm of Dispatch whose instruction has no meaning yet; safe. -/
  | notModelled (mnemonic : String)
deriving DecidableEq, Repr

/-- The state of the package. -/
structure State where
  /-- arithmetic cycles since reset (R4) -/
  cycle : Nat
  /-- CLOCK (R31) and the part of a CLOCK unit not yet counted, in MHz (R31, R453) -/
  clock : DWord
  clockAcc : Nat
  /-- stamp of the free values; the model's own -/
  free : Nat
  /-- order stamp; the model's own -/
  order : Nat
  /-- events that the outside world or an autonomous unit brings, oldest first; the model's own -/
  inputs : List Instr
  /-- the host's writes to its own memory that are not visible yet, in program order: how many of its accesses to the package in `inputs`
  it has ordered before each, the address and the bytes (R410) -/
  hostStores : List (Nat × Nat × List Byte) := []
  /-- the agents that have still to act in this cycle; the model's own -/
  todo : List Agent
  cur : Cursor
  /-- the cause raised by the running instruction; the model's own -/
  lastRaise : Option Cause
  /-- the running instruction was not eligible to issue; the model's own -/
  heldMark : Bool
  mem : Memory
  /-- poisoned 64-byte lines by physical line number (R447), rising -/
  poison : List Nat
  /-- block, accumulator and scale memories, keyed by core * 2^20 + offset -/
  bmem : Memory
  amem : Memory
  smem : Memory
  tlb : List TlbEntry
  hcache : List HEntry
  icache : List ILine
  arriving : List Arriving
  /-- vector clock of each die: entry k of die d is the number of the last of die k's remote writes that d has applied, or sent
  when k is d (R236) -/
  dieClk : List (List Nat)
  /-- entry k of die d is the number of the last write of die k, on its way elsewhere, that an agent of d has read (R236) -/
  dieSeen : List (List Nat)
  replicas : List Replica
  /-- writes made, newest first, and the invalidations among them -/
  past : List Past
  invs : List Invalidation
  views : List View
  narrow : List Narrow
  /-- parts of sectors that wait for the rest to be written, and parts read ahead -/
  frags : List Frag
  ahead : List Frag
  crews : List Crew
  blocks : List Block
  cores : List CoreSt
  /-- (ASID, ROOT) pairs read from domain entries (R402, R403) -/
  asids : List (Nat × Nat)
  ctxs : List CtxSt
  held : List Held
  ras : Ras
  mgmt : Mgmt
  /-- engine, matrix and fabric operations in issue order -/
  ops : List Op
  accas : List AccaReq
  accfs : List AccfReq
  launches : List Launch
  /-- address groups 0 to 255 (R288) -/
  groups : List Group
  /-- packets queued for a port, oldest first; packets that have left; packets delivered here and not yet acted on -/
  outq : List PortPkt
  wire : List PortPkt
  landing : List PortPkt
  marks : List MarkCount
  /-- (crew, target) whose next WRITE or ATOMIC carries RELH (R287) -/
  relh : List (Nat × Nat)
  aborts : List AbortWait
  /-- key-domains 0 to 255 (R429); entry 0 stands for the device key and stays OPEN -/
  kds : List KeyDom
  /-- owner of each owned 2 MiB frame of HBM (R431) -/
  owners : List (Nat × Nat)
  /-- key under which each byte of HBM was last written, rising by address; a byte not listed is under key 0 (R430) -/
  keyed : List (Nat × Nat)
  /-- FABCFG, FABTO, LSTATE and DETEX (R440, R441, R444, R445) -/
  fabcfg : Word
  fabto : Word
  lstate : List Word
  detex : Word
  ports : List Port
  /-- packets received on a port and not yet routed (R284) -/
  inq : List PortPkt
  coxes : List CoxSt
  startSlots : List StartSlot
  mpcs : List Mpc
  /-- answers that this member still owes to a START: source, tag, ports not yet decided, first status (R326) -/
  owed : List (Nat × Nat × Nat × Nat)
  /-- contents of spilled accumulator units: block, unit, 4096 bytes (R267) -/
  spills : List (Nat × Nat × List Byte)
  saved : List Saved
  secp : Secp
deriving DecidableEq, Repr

/-- A row of zeros. -/
def Row.zero : Row := List.replicate 64 0#32

/-- A free PC slot (R22). -/
def PcSlot.empty : PcSlot :=
  { st := .free, pc := 0#64, mask := 0#64, parkAt := 0, issuedAt := 0, region := 0#64, qcap := List.replicate 8 0#32,
    qnamed := none, line := [], trapped := false, accaWait := none, barWait := none }

/-- The cursor while nothing issues. -/
def Cursor.idle : Cursor :=
  { crew := none, slot := false, pc := 0#64, word := 0#96, reg := false, next := 0#64, first := none, snap := none,
    port := 0, ctxSlot := 0 }

/-- A core after reset: boathouse cleared (R406), trackers idle. (log 1, DESIGN CHOICE) -/
def CoreSt.reset : CoreSt :=
  { lending := false, relend := false, interf := 0, gateUse := List.replicate 16 false, gateWait := [], revoke := 0, parked := false,
    trackers := List.replicate 32 { busy := false, gen := 0, crew := 0 }, pfds := [] }

/-- RAS counters after reset. (log 1, DESIGN CHOICE) -/
def Ras.reset : Ras :=
  { cesram := 0#64, uesram := 0#64, cehbm := 0#64, uehbm := 0#64, parfix := 0#64, pktdrop := 0#64, ptebad := 0#64,
    msidrop := 0#64, farlost := 0#64, prod := 0#32, thr := 0x00010000#32, log := List.replicate 256 (List.replicate 32 0#8) }

/-- Management registers after reset (R414, R415, R423, R450, R452). (log 1, DESIGN CHOICE) (log 32, PRESUMED) -/
def Mgmt.reset : Mgmt :=
  { stage := 0, dieup := 0#4, stackup := 0#8, cxlup := 0#4, err := 0#8, ctxtab := 0#64, domtab := 0#64, spint := 4096#32,
    mwap := 0#64, l1cfg := 0#2, ps := 0#2, banksz := List.replicate 40 0#32, farsz := List.replicate 4 0#64,
    msix := [], msixOpen := [], msixPending := [], msixSent := [], readData := [], stackFail := 0#8,
    pkgpwr := 0#32, diepwr := List.replicate 4 0#32, temp := List.replicate 4 0#32, hbmtemp := List.replicate 8 0#32,
    aclk := 1900#32, thrstat := 0#32, pfddrop := List.replicate 4 0#32, pwrcap := 0x000A0640#32, therm := 0x0000645F#32,
    boot := false, off := false }

/-- A group entry after reset. (log 1, DESIGN CHOICE) -/
def Group.reset : Group := { v := false, rhnd := 0, root := 0, nm1 := 0, ctx := 0, seq := 0, memb := 0#256, rsv := 0#16 }

/-- A key-domain after reset. -/
def KeyDom.reset : KeyDom := { st := 0, key := 0, ctx := 0, ranges := [], cm := [] }

/-- A port after reset (R442, R435). (log 1, DESIGN CHOICE) (log 15, DEDUCED) -/
def Port.reset : Port :=
  { admdn := false, mapv := false, lport := 0, st := 0, att := 0, peer := 0, txst := 0, rxst := 0, txsel := false, rxsel := false,
    nkey := 0, txcnt := 0#64, exch := 0, downAt := 0, tries := 0, sent := 0#64, rcvd := 0#64, retries := 0#32,
    tagFail := 0#32, downs := 0#32 }
/-- A free context slot (R302). -/
def CoxSlot.free : CoxSlot :=
  { st := 0, phase := false, cause := 0, sub := 0, why := 0, pc := 0, regs := List.replicate 16 0#64, ctx := 0, group := 0, seq := 0,
    asid := 0, ht := 0#64, bufs := List.replicate 16 (List.replicate 16 0#8), region := 0, wins := [], step := false, spin := 0,
    killed := false, aborted := false, send := none, dtva := 0, startSrc := 0, startTag := 0 }
/-- A cox after reset (R300, R301). (log 1, DESIGN CHOICE) -/
def CoxSt.reset : CoxSt :=
  { imem := [], regions := List.replicate 8 0#64, slots := List.replicate 8 CoxSlot.free, holds := [], cur := 7, starts := [] }
/-- A start slot after reset (R418). -/
def StartSlot.reset : StartSlot :=
  { data := List.replicate 160 0#8, group := 0, busy := false, stat := 0, seq := 0, tag := 0, waiting := [], since := 0 }

/-- SECP after reset (R426, R428); an unused part's counters stand at 0. (log 1, DESIGN CHOICE) -/
def Secp.reset : Secp :=
  { busy := none, result := none, last := 0, fm := List.replicate 64 0#8, staged := [], bank := false, roll := [0, 0, 0, 0] }

/-- The package right after reset: stage RESET, nothing loaded, nothing listed in memory. -/
def State.reset : State :=
  { cycle := 0, clock := 0#64, clockAcc := 0, free := 0, order := 1, inputs := [], todo := [], cur := Cursor.idle,
    lastRaise := none, heldMark := false, mem := [], poison := [], bmem := [], amem := [], smem := [], tlb := [], hcache := [], icache := [],
    arriving := [], dieClk := List.replicate 4 (List.replicate 4 0), dieSeen := List.replicate 4 (List.replicate 4 0), replicas := [],
    past := [], invs := [], views := [], narrow := [], frags := [], ahead := [], crews := [], blocks := [],
    cores := List.replicate 160 CoreSt.reset, asids := [], ctxs := [], held := [], ras := Ras.reset, mgmt := Mgmt.reset,
    ops := [], accas := [], accfs := [], launches := [], groups := List.replicate 256 Group.reset, outq := [], wire := [],
    landing := [], marks := [], relh := [], aborts := [],
    kds := { KeyDom.reset with st := 1 } :: List.replicate 255 KeyDom.reset, owners := [], keyed := [],
    fabcfg := 0#32, fabto := 0x00400000#32, lstate := List.replicate 32 0#32, detex := 0#32, ports := List.replicate 32 Port.reset,
    inq := [], coxes := List.replicate 32 CoxSt.reset, startSlots := List.replicate 8 StartSlot.reset, mpcs := [], owed := [], spills := [], saved := [],
    secp := Secp.reset
  }

end Sys2Proof.Machine
end

