-- ==== Sys2Proof/Machine/Memory.lean ====
section
/-!
DEFINITION. Memory.lean: sparse memory, the physical map, poison, the pending writes of the dies, page walks and TLBs,
handle entries and line fetches (spec 11 R229 to R241; 22 R393 to R401; 25 R447; 02 R39).
-/

namespace Sys2Proof.Machine

open Sys2Proof

/-! ## Sparse memory -/

/-- The byte at an address; an unlisted byte reads zero (log 2, DESIGN CHOICE: unsafe). -/
def Memory.get : Memory → Nat → Byte
  | [], _ => 0#8
  | (k, v) :: r, a => if k = a then v else Memory.get r a

/-- Memory with one byte written, in the canonical form. -/
def Memory.set : Memory → Nat → Byte → Memory
  | [], a, v => if v = 0#8 then [] else [(a, v)]
  | (k, b) :: r, a, v =>
    if a < k then (if v = 0#8 then (k, b) :: r else (a, v) :: (k, b) :: r)
    else if a = k then (if v = 0#8 then r else (k, v) :: r)
    else (k, b) :: Memory.set r a v

/-- Every address of the list lies above a bound, and no byte is the unlisted one. -/
def Memory.above : Memory → Nat → Bool
  | [], _ => true
  | (k, v) :: r, lo => decide (lo ≤ k) && decide (v ≠ 0#8) && Memory.above r (k + 1)

/-- The canonical form: addresses strictly rising, no byte equal to what an unlisted address reads as. -/
def Memory.wf (m : Memory) : Bool := Memory.above m 0

/-- The n bytes from an address. -/
def Memory.read (m : Memory) : Nat → Nat → List Byte
  | _, 0 => []
  | a, n + 1 => Memory.get m a :: Memory.read m (a + 1) n

/-- Bytes written from an address upward. -/
def Memory.write (m : Memory) : Nat → List Byte → Memory
  | _, [] => m
  | a, b :: bs => Memory.write (Memory.set m a b) (a + 1) bs

/-! ## Bit fields of numbers -/

/-- Bits hi:lo of a number (the spec's bits(x, hi, lo)). -/
def bitsOf (x hi lo : Nat) : Nat := (x >>> lo) % 2 ^ (hi + 1 - lo)
/-- Bit i of a number. -/
def bitOf (x i : Nat) : Bool := x.testBit i
/-- A number below 2^n read as two's complement (sval). -/
def svalN (x n : Nat) : Int := if bitOf x (n - 1) then (x % 2 ^ n : Int) - (2 ^ n : Int) else ((x % 2 ^ n : Nat) : Int)

/-! ## Places -/

/-- Cores are numbered 40*die + 4*cluster + index (R216). -/
def dieOfCore (core : Nat) : Nat := core / 40
/-- The physical cluster of a core, 0 to 39 (R29). -/
def clusterOfCore (core : Nat) : Nat := core / 4
/-- Key of a byte of a core's block, accumulator or scale memory. -/
def coreKey (core off : Nat) : Nat := core * 1048576 + off

/-- A state with a free choice: the value for this instruction or event and a tag. (log 4, DESIGN CHOICE) (log 7, DESIGN CHOICE) -/
def State.pick (s : State) (tag : List Nat) (n : Nat) : Nat := if n ≤ 1 then 0 else Config.free s.free tag % n

/-! ## The physical map (R393, R394) -/

/-- What serves a physical address (R393). -/
inductive PaKind where
  | hbm (stack : Nat)
  | bank (slice : Nat)
  | far (port : Nat)
  | host
  | none
deriving DecidableEq, Repr

/-- Bank bytes of a slice in service (R393, R414, R422). -/
def State.bankBytes (s : State) (g : Nat) : Nat :=
  if s.mgmt.stage = 2 ∧ g ≥ 10 then 0 else (bitsOf (s.mgmt.banksz.getD g 0#32).toNat 2 0) * 1048576

/-- The range of R393 that a physical address lies in. -/
def State.paKind (s : State) (pa : Nat) : PaKind :=
  if pa < 0x8000000000 then .hbm (bitsOf pa 38 36)
  else if 0x100000000000 ≤ pa ∧ pa < 0x100014000000 then
    let g := (pa - 0x100000000000) / 0x800000
    if (pa - 0x100000000000) % 0x800000 < s.bankBytes g then .bank g else .none
  else if 0x200000000000 ≤ pa ∧ pa < 0x280000000000 then
    let p := (pa - 0x200000000000) / 0x20000000000
    if (pa - 0x200000000000) % 0x20000000000 < (s.mgmt.farsz.getD p 0#64).toNat then .far p else .none
  else if 0x400000000000 ≤ pa ∧ pa < 0x800000000000 then .host
  else .none

/-- Whether an access may proceed now: a stack not yet in service makes it wait, one that failed to train and a far port
without its link answer as poison (R422, R408). -/
inductive Ready where
  | yes
  | wait
  | dead
deriving DecidableEq, Repr

/-- Service of the memory at a physical address (R408, R422). -/
def State.paReady (s : State) (pa : Nat) : Ready :=
  match s.paKind pa with
  | .hbm st =>
    if s.mgmt.stackup.getLsbD st then .yes
    else if s.mgmt.stackFail.getLsbD st ∨ s.mgmt.stage = 3 then .dead else .wait
  | .far p => if s.mgmt.cxlup.getLsbD p then .yes else .dead
  | .bank _ => .yes
  | .host => .yes
  | .none => .yes

/-- The die whose slice orders a physical address (R237, R394). -/
def State.homeDie (s : State) (pa : Nat) : Nat :=
  match s.paKind pa with
  | .hbm st => st / 2
  | .bank g => g / 10
  | .far p => p
  | .host => 0
  | .none => 0

/-- The cluster of the home L2 slice (R394). -/
def homeSlice (pa : Nat) : Nat :=
  if pa < 0x8000000000 then 5 * bitsOf pa 38 36 + bitsOf pa 31 8 % 5 else (pa - 0x100000000000) / 0x800000

/-! ## Poison (R447) -/

/-- Some byte of the range lies in a poisoned line. -/
def State.poisoned (s : State) (pa n : Nat) : Bool :=
  s.poison.any (fun l => decide (pa / 64 ≤ l) && decide (l ≤ (pa + n - 1) / 64) && decide (0 < n))

/-- A line added to the rising list of poisoned lines. -/
def addLine : List Nat → Nat → List Nat
  | [], l => [l]
  | k :: r, l => if l < k then l :: k :: r else if l = k then k :: r else k :: addLine r l

/-- The line that holds a physical address, poisoned. -/
def State.setPoison (s : State) (pa : Nat) : State := { s with poison := addLine s.poison (pa / 64) }
/-- Poison cleared by a single write that covers the whole line (R447). -/
def State.clearPoison (s : State) (pa : Nat) : State := { s with poison := s.poison.filter (fun l => l ≠ pa / 64) }

/-! ## Writes and the dies (R236, R237, R241) -/

/-- Key of a byte; one that no write under another key has reached is under the device key, number 0 (R429, R430). -/
def keyOf : List (Nat × Nat) → Nat → Nat
  | [], _ => 0
  | (a, k) :: r, x => if a = x then k else keyOf r x
/-- The key of a byte replaced, the list kept rising and without entries of key 0. -/
def setKey : List (Nat × Nat) → Nat → Nat → List (Nat × Nat)
  | [], x, k => if k = 0 then [] else [(x, k)]
  | (a, j) :: r, x, k =>
    if x < a then (if k = 0 then (a, j) :: r else (x, k) :: (a, j) :: r)
    else if x = a then (if k = 0 then r else (x, k) :: r)
    else (a, j) :: setKey r x k
/-- A key number that no key has: a byte of a line rewritten in part under another key reads as undefined under every key. -/
def noKey : Nat := 2 ^ 64
/-- HBM lines are encrypted as a whole (R430): the bytes written take the key; other bytes of their lines keep it when it is
the same, else no key gives them back. -/
def State.markKeys (s : State) (pa n key : Nat) : State :=
  if (s.keyed.isEmpty && key == 0) || decide (0x8000000000 ≤ pa) then s
  else
    let first := pa / 64 * 64
    let last := (pa + n + 63) / 64 * 64
    { s with keyed := (List.range (last - first)).foldl (fun ks i =>
        let a := first + i
        if pa ≤ a ∧ a < pa + n then setKey ks a key
        else if keyOf ks a = key then ks else setKey ks a noKey) s.keyed }

/-- What a write is about to replace is kept (R234, R398, R400). -/
def State.keepPast (s : State) (blk : Bool) (pa n : Nat) : State :=
  { s with past := { blk := blk, pa := pa, old := (if blk then s.bmem else s.mem).read pa n, keyed := s.keyed, cyc := s.cycle } :: s.past }
/-- Sealed contexts (R429). -/
def State.sealedCtxs (s : State) : List Nat := (s.kds.filter (fun (k : KeyDom) => k.st == 2)).map (fun k => k.ctx)
/-- The context whose descriptor holds an address. -/
def State.descOf (s : State) (pa : Nat) : Option Nat :=
  let b := s.mgmt.ctxtab.toNat
  if b + 64 ≤ pa ∧ pa < b + 64 * 65536 then some ((pa - b) / 64) else none
/-- The domain whose entry holds an address. -/
def State.domOf (s : State) (pa : Nat) : Option Nat :=
  let b := s.mgmt.domtab.toNat
  if b + 64 ≤ pa ∧ pa < b + 64 * 65536 then some ((pa - b) / 64) else none
/-- An address lies in the context descriptor or the domain entry of a sealed context, where writes are ignored (R431). -/
def State.sealedEntry (s : State) (pa : Nat) : Bool :=
  (s.descOf pa).any (fun c => s.sealedCtxs.contains c) ||
    (s.domOf pa).any (fun d => s.sealedCtxs.any (fun c => leNat (s.mem.read (s.mgmt.ctxtab.toNat + 64 * c + 6) 2) == d))
/-- Bytes put at a physical address under a key. -/
def State.putKey (s : State) (pa key : Nat) (bs : List Byte) : State :=
  { (s.keepPast false pa bs.length) with mem := s.mem.write pa bs }.markKeys pa bs.length key
/-- Bytes written at a physical address under a key, at their ordering point. (log 8, DESIGN CHOICE) -/
def State.writeKey (s : State) (pa key : Nat) (bs : List Byte) : State :=
  if s.sealedCtxs.isEmpty || !(List.range bs.length).any (fun i => s.sealedEntry (pa + i)) then s.putKey pa key bs
  else (bs.zip (List.range bs.length)).foldl (fun t p => if s.sealedEntry (pa + p.2) then t else t.putKey (pa + p.2) key [p.1]) s
/-- Memory as it stood k writes ago; only reads look at it. (log 5, DEDUCED) -/
def State.ago (s : State) (k : Nat) : State :=
  (s.past.take k).foldl (fun s p =>
    if p.blk then { s with bmem := s.bmem.write p.pa p.old } else { s with mem := s.mem.write p.pa p.old, keyed := p.keyed }) s
/-- Bytes read at a physical address under a key: a byte written under another key, or one erased, is undefined (R429). (log 8, DESIGN CHOICE) -/
def State.readKey (s : State) (pa key n : Nat) : List Byte :=
  if (s.keyed.isEmpty && key == 0) || decide (0x8000000000 ≤ pa) then s.mem.read pa n
  else (List.range n).map (fun i =>
    if keyOf s.keyed (pa + i) = key then s.mem.get (pa + i)
    else BitVec.ofNat 8 (Config.free s.free [16, pa + i]))
/-- Bytes written at a physical address under the device key. (log 12, DEDUCED) -/
def State.writePa (s : State) (pa : Nat) (bs : List Byte) : State := s.writeKey pa 0 bs
/-- Bytes read at a physical address under the device key. (log 12, DEDUCED) -/
def State.readPa (s : State) (pa n : Nat) : List Byte := s.readKey pa 0 n
/-- A little-endian number read at a physical address. -/
def State.natPa (s : State) (pa n : Nat) : Nat := leNat (s.readPa pa n)

/-- The vector clock of a die (R236). -/
def State.clk (s : State) (die : Nat) : List Nat := s.dieClk.getD die []
/-- The pointwise maximum of two vector clocks. -/
def maxClk (a b : List Nat) : List Nat := (List.range 4).map (fun k => max (a.getD k 0) (b.getD k 0))
/-- A die's clock takes in another one. -/
def State.learn (s : State) (die : Nat) (clk : List Nat) : State := { s with dieClk := s.dieClk.set die (maxClk (s.clk die) clk) }
/-- The clock that stands for a write and everything its sender knew: the sender's clock with the write's own number. -/
def Arriving.stamp (w : Arriving) : List Nat := w.clock.set w.src w.num
/-- The same for a write on its way to a replica. -/
def Replica.stamp (r : Replica) : List Nat := r.clock.set r.src r.num

/-- An arriving write applied at its home, whose clock advances (R236). -/
def State.applyArriving (s : State) (w : Arriving) : State :=
  let s := s.writeKey w.pa w.key w.bytes
  let s := if w.poison then s.setPoison w.pa else s
  s.learn w.dst w.stamp

/-- The arriving writes a predicate names, applied in order of arrival; the others stay. -/
def State.drainArriving (s : State) (p : Arriving → Bool) : State :=
  let keep := s.arriving.filter (fun w => !p w)
  let go := s.arriving.filter p
  go.foldl State.applyArriving { s with arriving := keep }

/-- A replica write applied; the die's clock advances (R236, R241). -/
def State.applyReplica (s : State) (r : Replica) : State := (s.writeKey r.pa r.key r.bytes).learn r.die r.stamp

/-- The replica writes a predicate names, applied in page order; the others stay. -/
def State.drainReplicas (s : State) (p : Replica → Bool) : State :=
  let keep := s.replicas.filter (fun w => !p w)
  let go := s.replicas.filter p
  go.foldl State.applyReplica { s with replicas := keep }

/-- What a release at .package or wider does: every earlier write reaches its home and its replicas (R235, R236; log 5, DEDUCED). -/
def State.release (s : State) : State := { ((s.drainArriving (fun _ => true)).drainReplicas (fun _ => true)) with narrow := [] }

/-- No write is on its way to a home or a replica. -/
def State.settled (s : State) : Bool := s.arriving.isEmpty && s.replicas.isEmpty
/-- Die `die` applies, in the order of their issue, the writes on their way to it that a clock names: those are the causal
predecessors of whatever carries the clock, and are applied before it (R236). (log 5, DEDUCED) -/
def State.heed (s : State) (die : Nat) (clk : List Nat) : State :=
  ((s.drainArriving (fun w => w.dst == die && decide (w.num ≤ clk.getD w.src 0))).drainReplicas
    (fun r => r.die == die && decide (r.num ≤ clk.getD r.src 0))).learn die clk
/-- Something that die `src` sends reaches die `dst`, which applies its causal predecessors first (R236). -/
def State.reach (s : State) (src dst : Nat) : State := if src = dst ∨ s.settled then s else s.heed dst (s.clk src)

/-- The frame of a replicated page on a die: PA bits 38:37 replaced (R401). -/
def replicaPa (pa die : Nat) : Nat := pa % 2 ^ 37 + die * 2 ^ 37 + (pa / 2 ^ 39) * 2 ^ 39

/-- An agent of a die reads writes that other replicas still wait for: what the die writes from now on comes after them (R236). -/
def State.noteSeen (s : State) (die pa n : Nat) : State :=
  let read := s.replicas.filter (fun r => r.die ≠ die && !s.replicas.any (fun q => q.die == die && q.src == r.src && q.num == r.num) &&
    decide (replicaPa r.pa die < pa + n) && decide (pa < replicaPa r.pa die + r.bytes.length))
  let seen := fun (d : List (List Nat)) (r : Replica) => d.set die ((d.getD die []).set r.src (max ((d.getD die []).getD r.src 0) r.num))
  { s with dieSeen := read.foldl seen s.dieSeen }

/-- What a read by an agent of a die does first: the die's own writes to the location are applied, each after its causal
predecessors, so that a read never misses a write that is ordered before it; and the answer of a remote home comes after
the writes that the home knows of (R236, R238, R241; log 5, DEDUCED). -/
def State.beforeRead (s : State) (die pa n : Nat) : State :=
  if s.settled then s
  else
    let s := (s.arriving.filter (fun w => w.src == die && decide (w.pa < pa + n) && decide (pa < w.pa + w.bytes.length))).foldl
      (fun s w => s.heed w.dst w.stamp) s
    let s := (s.replicas.filter (fun r => r.die == die && r.by_ == die && decide (r.pa < pa + n) && decide (pa < r.pa + r.bytes.length))).foldl
      (fun s r => s.heed r.die r.stamp) s
    (s.reach (s.homeDie pa) die).noteSeen die pa n

/-- Every die heeds a clock. -/
def State.heedAll (s : State) (clk : List Nat) : State := (List.range 4).foldl (fun s d => s.heed d clk) s

/-! ## Acquires, and values that plain loads may still read (R233 to R238) -/

/-- A narrow release pairs with an acquire of a crew at a scope: both reach the narrowest scope that the two share (R233). -/
def Narrow.pairs (r : Narrow) (scope crew blk core : Nat) : Bool :=
  let ncs := if crew = r.crew then 1 else if blk = r.blk then 2 else if core / 4 = r.core / 4 then 3 else if core / 20 = r.core / 20 then 4 else 5
  decide (ncs ≤ r.scope) && decide (ncs ≤ scope)
/-- A release of a crew below .package: later writes of the crew stand for what its die knows, to those that acquire them (R235). (log 5, DEDUCED) -/
def State.releaseNear (s : State) (scope crew blk core : Nat) : State :=
  if s.settled then s
  else { s with narrow := { scope := scope, crew := crew, blk := blk, core := core, clk := s.clk (dieOfCore core) } :: s.narrow }
/-- An acquire of a crew at a scope: what the releases that pair with it cover is performed, and no later load of the crew reads an
older value (R234 case 2, R235, R238). (log 5, DEDUCED) -/
def State.acquireAt (s : State) (scope crew blk core : Nat) : State :=
  let s := (s.narrow.filter (fun r => r.pairs scope crew blk core)).foldl (fun s r => s.heedAll r.clk) s
  { s with views := s.views.filter (fun v => v.crew ≠ crew) }

/-- Two ranges of one memory share a byte. -/
def meets (a : Bool × Nat) (n : Nat) (b : Bool × Nat) (m : Nat) : Bool :=
  a.1 == b.1 && decide (a.2 < b.2 + m) && decide (b.2 < a.2 + n)
/-- How many writes back a plain load of a crew may read n bytes at each of some spots: not beyond its last acquire, what it has read
or written there (R234 case 1, R238), or a bound that lets no value be read for ever (R240). (log 5, DEDUCED) -/
def State.staleMax (s : State) (crew n : Nat) (spots : List (Bool × Nat)) : Nat :=
  match s.views.find? (fun v => v.crew == crew) with
  | none => 0
  | some v =>
    if spots.any (fun p => v.wrote.any (fun w => meets p n (w.1, w.2.1) w.2.2)) then 0
    else
      let seen := (v.reads.filter (fun r => spots.any (fun p => meets p n (r.1, r.2.1) r.2.2.1))).foldl (fun m r => max m r.2.2.2) v.floor
      min (s.past.length - seen) (s.past.takeWhile (fun p => decide (s.cycle ≤ p.cyc + Config.free 0 [53]))).length
/-- A plain load of a crew has read n bytes at some spots, as they stood k writes ago. -/
def State.noteRead (s : State) (crew n k : Nat) (spots : List (Bool × Nat)) : State :=
  let t := s.past.length - k
  let v := (s.views.find? (fun v => v.crew == crew)).getD { crew := crew, floor := s.past.length, reads := [], wrote := [] }
  { s with views := { v with reads := spots.map (fun p => (p.1, p.2, n, t)) ++ v.reads } :: s.views.filter (fun v => v.crew ≠ crew) }
/-- A crew has written n bytes at some spots. -/
def State.noteWrote (s : State) (crew n : Nat) (spots : List (Bool × Nat)) : State :=
  { s with views := s.views.map (fun v => if v.crew = crew then { v with wrote := spots.map (fun p => (p.1, p.2, n)) ++ v.wrote } else v) }

/-- Every write that agents of a die have issued reaches its home and its replicas, each after its causal predecessors. -/
def State.flush (s : State) (die : Nat) : State :=
  if s.settled then s
  else
    let s := (s.arriving.filter (fun w => w.src == die)).foldl (fun s w => s.heed w.dst w.stamp) s
    (s.replicas.filter (fun r => r.by_ == die)).foldl (fun s r => s.heed r.die r.stamp) s

/-- The clock that a write of an agent of `die` carries from die `src`: the clock of `src`; of the writes of `src` itself, those that
the agent's die has read (R236). -/
def State.sendClk (s : State) (die src : Nat) : List Nat := (s.clk src).set src ((s.dieSeen.getD die []).getD src 0)

/-- A plain store by an agent on a die: to its own die's home, to far, host or block memory at once; to the home of
another die as an arriving write with the die's clock (R236); to a replicated page at its home, which sends it on to the other
replicas in page order (R241). (log 5, DEDUCED) -/
def State.store (s : State) (die : Nat) (l : Loc) (bs : List Byte) : State :=
  match l with
  | .blk core off => { (s.keepPast true (coreKey core off) bs.length) with bmem := s.bmem.write (coreKey core off) bs }
  | .pa a key =>
    let home := s.homeDie a
    if home = die ∨ a ≥ 0x200000000000 then (s.reach die home).writeKey a key bs
    else
      let n := (s.clk die).getD die 0 + 1
      { s with
        arriving := s.arriving ++ [{ src := die, dst := home, clock := s.sendClk die die, num := n, pa := a, bytes := bs, poison := false, key := key }],
        dieClk := s.dieClk.set die ((s.clk die).set die n) }
  | .repl a home key =>
    let s := (s.reach die home).writeKey (replicaPa a home) key bs
    let n := (s.clk home).getD home 0 + 1
    { s with
      replicas := s.replicas ++ ((List.range 4).filter (fun d => d ≠ home)).map (fun d =>
        { die := d, src := home, by_ := die, clock := s.sendClk die home, num := n, pa := replicaPa a d, bytes := bs, key := key }),
      dieClk := s.dieClk.set home ((s.clk home).set home n) }

/-- The physical address a read by an agent of a die goes to (R241: the reader's own replica). -/
def Loc.readPa (l : Loc) (die : Nat) : Nat :=
  match l with
  | .blk _ _ => 0
  | .pa a _ => a
  | .repl a _ _ => replicaPa a die

/-- Where a plain read by an agent of a die looks: block memory or not, and the address. -/
def Loc.spot (l : Loc) (die : Nat) : Bool × Nat :=
  match l with
  | .blk core off => (true, coreKey core off)
  | _ => (false, l.readPa die)

/-- The key an access uses (R429, R430). -/
def Loc.key (l : Loc) : Nat :=
  match l with
  | .blk _ _ => 0
  | .pa _ k => k
  | .repl _ _ k => k

/-- The state as a read of a place by a die leaves it. -/
def State.beforeLoad (s : State) (die : Nat) (l : Loc) (n : Nat) : State :=
  match l with
  | .blk _ _ => s
  | _ => s.beforeRead die (l.readPa die) n

/-- The bytes an agent of a die reads at a place. -/
def State.load (s : State) (die : Nat) (l : Loc) (n : Nat) : List Byte :=
  match l with
  | .blk core off => s.bmem.read (coreKey core off) n
  | _ => s.readKey (l.readPa die) l.key n

/-- The place holds poison (R447). -/
def State.locPoison (s : State) (die : Nat) (l : Loc) (n : Nat) : Bool :=
  match l with
  | .blk _ _ => false
  | _ => s.poisoned (l.readPa die) n

/-- Service of the memory at a place. -/
def State.locReady (s : State) (die : Nat) (l : Loc) : Ready :=
  match l with
  | .blk _ _ => .yes
  | _ => s.paReady (l.readPa die)

/-- The read and write of an RMW go to the home (R239, R241). -/
def Loc.home (l : Loc) : Loc :=
  match l with
  | .repl a h k => .pa (replicaPa a h) k
  | l => l

/-- What an RMW by an agent of a die does first: the request reaches the home after the die's earlier writes to it, and the answer
comes after the writes that the home knows of (R236, R239). (log 5, DEDUCED) -/
def State.beforeRmw (s : State) (die : Nat) (l : Loc) : State :=
  match l with
  | .blk _ _ => s
  | l =>
    let home := s.homeDie (l.home.readPa 0)
    (s.reach die home).reach home die

/-- The write of an RMW, performed at its home and sent to the replicas (R239, R241). -/
def State.rmwWrite (s : State) (die : Nat) (l : Loc) (bs : List Byte) : State :=
  match l with
  | .pa a k => s.writeKey a k bs
  | l => s.store die l bs

/-! ## Page tables (R395, R396, R398) -/

/-- A VA is canonical when bits 63:57 equal bit 56 (R34, R395). -/
def canonical (va : Nat) : Bool := bitsOf va 63 56 == 0 || bitsOf va 63 56 == 255
/-- Sign extension of a 57-bit address to 64 bits. -/
def sext57 (a : Nat) : Nat := if bitOf a 56 then a % 2 ^ 57 + (2 ^ 64 - 2 ^ 57) else a % 2 ^ 57

/-- The result of a page walk; `off`: an entry lies on a stack not yet in service, or on one that failed or in a poisoned line
(R422; log 40, DESIGN CHOICE). -/
inductive Walk where
  | leaf (e : DWord) (size : Nat)
  | invalid
  | malformed (pa : Nat)
  | nowhere (pa : Nat)
  | off (r : Ready)
deriving DecidableEq, Repr

/-- The values that n bytes at an address had before each of the writes of a list that reached them, newest first. -/
def oldBytes (pa n : Nat) : List Past → List Byte → List (List Byte)
  | [], _ => []
  | p :: ps, cur =>
    if !p.blk && decide (p.pa < pa + n) && decide (pa < p.pa + p.old.length) then
      let was := (List.range n).map (fun i =>
        if p.pa ≤ pa + i ∧ pa + i < p.pa + p.old.length then p.old.getD (pa + i - p.pa) 0#8 else cur.getD i 0#8)
      was :: oldBytes pa n ps was
    else oldBytes pa n ps cur

/-- The writes since the last invalidation that covers a VA of an address space (R224, R398); `va` none: a table's, which only
tlbinv.asid and tlbinv.all reach (R400). -/
def State.since (s : State) (asid : Nat) (va : Option Nat) : List Past :=
  let hit := s.invs.filter (fun i => i.asid.all (fun a => a == asid) &&
    i.page.all (fun p => va.any (fun v => decide (p.1 ≤ v) && decide (v < p.1 + p.2))))
  s.past.take (s.past.length - hit.foldl (fun m i => max m i.made) 0)

/-- A leaf breaks a rule of R396. -/
def State.leafBad (s : State) (e : DWord) (size : Nat) : Bool :=
  let pa := (bitsOf e.toNat 51 16) * 65536
  bitsOf e.toNat 63 52 ≠ 0 || bitsOf e.toNat 15 8 ≠ 0 || pa % size ≠ 0 || s.paKind pa == .none ||
    s.paKind (pa + size - 1) == .none ||
    (bitOf e.toNat 5 && (size == 0x40000000 || pa ≥ 0x8000000000))

/-- Bytes that a leaf at a level maps (R395). -/
def leafSize (lvl : Nat) : Nat := match lvl with
  | 2 => 0x40000000
  | 1 => 0x200000
  | _ => 0x10000
/-- An entry at a level breaks a rule of R396; `lvl` is 3 at L0 and 0 at L3. -/
def State.entryBad (s : State) (lvl : Nat) (e : DWord) : Bool :=
  if e.getLsbD 1 then lvl == 3 || s.leafBad e (leafSize lvl)
  else lvl == 0 || bitsOf e.toNat 63 52 ≠ 0 || bitsOf e.toNat 7 2 ≠ 0

/-- The entry that an access uses at an address: memory's, or a valid one that it replaced since the last invalidation (R397, R398:
either, for each access). (log 6, DEDUCED) -/
def State.entryUsed (s : State) (lvl ea tag : Nat) (h : List Past) : DWord :=
  let now := s.readPa ea 8
  let olds := ((oldBytes ea 8 h now).map (fun b => BitVec.ofNat 64 (leNat b))).filter (fun e => e.getLsbD 0 && !s.entryBad lvl e)
  let all := BitVec.ofNat 64 (leNat now) :: olds
  all.getD (s.pick [54, ea, tag] all.length) 0#64

/-- One level of a walk at a table: index, then leaf, pointer or stop (R395, R396). `lvl` counts down to 0 at L3; `h` is what old
entries may come from. -/
def State.walkFrom (s : State) (h : List Past) (tag : Nat) : Nat → Nat → Nat → Walk
  | lvl, table, va =>
    let idx := match lvl with
      | 3 => bitsOf va 56 39
      | 2 => bitsOf va 38 30
      | 1 => bitsOf va 29 21
      | _ => bitsOf va 20 16
    let ea := table + 8 * idx
    let e := s.entryUsed lvl ea tag h
    if s.paKind ea == .none then .nowhere ea
    else if s.paReady ea ≠ .yes then .off (s.paReady ea)
    else if s.poisoned ea 8 then .off .dead
    else if !e.getLsbD 0 then .invalid
    else if s.entryBad lvl e then .malformed ea
    else if e.getLsbD 1 then .leaf e (leafSize lvl)
    else
      match lvl with
      | 0 => .malformed ea
      | l + 1 => State.walkFrom s h tag l (bitsOf e.toNat 51 8 * 256) va

/-- Old entries are no longer used: of every address space, of one, or of one page (R224). -/
def State.invalidate (s : State) (asid : Option Nat) (page : Option (Nat × Nat)) : State :=
  let keep := if asid.isNone then [] else s.invs.filter (fun i => !(page.isNone && i.asid == asid))
  { s with invs := { asid := asid, page := page, made := s.past.length } :: keep }

/-- What an access needs of a leaf. -/
structure Need where
  r : Bool
  w : Bool
  x : Bool
  /-- space code of the handle; 0 when no handle is used -/
  space : Nat
  /-- KD of the handle; none where no handle is used -/
  kd : Option Nat := none
  /-- a read of a handle table or gate table, which uses the device key (R429) -/
  table : Bool := false
deriving DecidableEq, Repr

/-- Why a translation fails: subcode of XLATE, and the malformed entry met. -/
structure XFail where
  sub : Nat
  bad : Option Nat
  /-- the walk left the implemented addresses -/
  lost : Option Nat
  /-- the walk has to wait for a stack, or meets POISON (R422) -/
  ready : Ready := .yes
deriving DecidableEq, Repr

/-- The roots that walks of an address space may use (R402). -/
def State.rootsOf (s : State) (asid : Nat) : List Nat :=
  (s.asids.filter (fun p => p.1 == asid)).map (fun p => p.2)

/-- The walk of a VA in an address space, from one of its roots (R402: either, when domains disagree). -/
def State.walk (s : State) (asid va tag : Nat) : Walk :=
  let rs := s.rootsOf asid
  match rs with
  | [] => .invalid
  | r :: _ => s.walkFrom (s.since asid (some va)) tag 3 (rs.getD (s.pick [1, asid, va, tag] rs.length) r) va

/-- The translation used for one access: the walk's, or one that a TLB still holds (R398: either, for each access). (log 6, DEDUCED) -/
def State.translate (s : State) (asid va : Nat) (tag : Nat) : Walk :=
  let cached := (s.tlb.filter (fun t => t.asid == asid && decide (t.va ≤ va) && decide (va < t.va + t.size))).map
    (fun t => Walk.leaf t.leaf t.size)
  let now := s.walk asid va tag
  let all := now :: cached.filter (fun w => w ≠ now)
  all.getD (s.pick [2, asid, va, tag] all.length) now

/-- The space of a handle is served by a physical address (R393). -/
def State.serves (s : State) (space pa : Nat) : Bool :=
  match s.paKind pa with
  | .hbm _ => space == 1 || space == 7 || space == 8
  | .bank _ => space == 3
  | .far _ => space == 4
  | .host => space == 5
  | .none => false

/-- Key-domain d. -/
def State.kd (s : State) (d : Nat) : KeyDom := s.kds.getD d KeyDom.reset
/-- A handle may use the key-domain: OPEN or SEALED (R429). -/
def State.kdLive (s : State) (d : Nat) : Bool := (s.kd d).st ≠ 0
/-- The key of a key-domain. (log 12, DEDUCED) -/
def State.kdKey (s : State) (d : Nat) : Nat := (s.kd d).key
/-- Owner of the frame of a physical address of HBM; 0 when it is unowned (R431). (log 12, DEDUCED) -/
def State.ownerOf (s : State) (pa : Nat) : Nat :=
  if pa < 0x8000000000 then keyOf s.owners (pa / 2 ^ 21) else 0
/-- An access through a handle of another key-domain to a frame that a sealed one owns (R431). (log 8, DESIGN CHOICE) -/
def State.kdForeign (s : State) (pa : Nat) (kd : Option Nat) : Bool :=
  let o := s.ownerOf pa
  match kd with
  | none => false
  | some d => o ≠ 0 && (s.kd o).st == 2 && d ≠ o

/-- The place a VA translates to for an access, or why it fails (R396). An access without a handle (a fetch, a fault record,
an image) uses the key-domain that owns the frame (R429 names none for it; log 12, DEDUCED), a read of a handle or gate table the
device key (R429). -/
def State.place (s : State) (asid va : Nat) (nd : Need) (tag : Nat) : Except XFail Loc :=
  match s.translate asid va tag with
  | .invalid => .error { sub := 0, bad := none, lost := none }
  | .malformed ea => .error { sub := 0, bad := some ea, lost := none }
  | .nowhere ea => .error { sub := 0, bad := none, lost := some ea }
  | .off r => .error { sub := 0, bad := none, lost := none, ready := r }
  | .leaf e size =>
    let pa := bitsOf e.toNat 51 16 * 65536 + va % size
    let repl := e.getLsbD 5
    if (nd.r && !e.getLsbD 2) || (nd.w && !e.getLsbD 3) || (nd.x && !e.getLsbD 4) ||
        (nd.space ≠ 0 && !s.serves nd.space pa) || (nd.space == 8 && !repl) || (nd.space ≠ 8 && nd.space ≠ 0 && repl) ||
        s.kdForeign pa nd.kd then
      .error { sub := 1, bad := none, lost := none }
    else
      let key := if nd.table then 0 else s.kdKey (nd.kd.getD (s.ownerOf pa))
      if repl && (nd.space == 8 || nd.space == 0) then .ok (.repl pa (bitsOf e.toNat 7 6) key)
      else .ok (.pa pa (if pa < 0x8000000000 then key else 0))

/-- A translation that has been used is held by the TLBs until it is invalidated (R397, R398). (log 6, DEDUCED) -/
def State.noteTlb (s : State) (asid va : Nat) : State :=
  { s with tlb := match s.walk asid va 0 with
    | .leaf e size =>
      let t : TlbEntry := { asid := asid, va := va / size * size, size := size, leaf := e }
      if s.tlb.contains t then s.tlb else t :: s.tlb
    | _ => s.tlb }

/-- The host port carries accesses: its link is trained, the device has not failed, and the package is not in or entering D3hot
(R421, R423). -/
def State.hostOpen (s : State) : Bool :=
  (s.mgmt.stage == 2 || s.mgmt.stage == 3) && !s.mgmt.off && (s.mgmt.ps == 0#2 || s.mgmt.ps == 3#2)
/-- The context of a number is sealed by a key-domain (R429, R431). -/
def State.sealedBy (s : State) (ctx : Nat) : Option Nat :=
  (List.range 256).find? (fun d => (s.kd d).st == 2 && (s.kd d).ctx == ctx && d ≠ 0)

/-! ## RAS counting (R449, R450) -/

/-- Add one, saturating (R449). -/
def satInc (x : DWord) : DWord := if x = 0xFFFFFFFFFFFFFFFF#64 then x else x + 1#64

/-- The table entry of a vector has an address (R420). -/
def State.msixAddr (s : State) (v : Nat) : Nat := leNat (s.mgmt.msix.read (16 * v) 8)
/-- MSI-X vector posted to the host: dropped and counted when its address is zero, held pending while it is masked (R228, R420). (log 32, PRESUMED) -/
def State.postMsix (s : State) (v : Nat) : State :=
  if 2048 ≤ v ∨ s.msixAddr v = 0 then { s with ras := { s.ras with msidrop := satInc s.ras.msidrop } }
  else if !s.mgmt.msixOpen.contains v then
    if s.mgmt.msixPending.contains v then s else { s with mgmt := { s.mgmt with msixPending := s.mgmt.msixPending ++ [v] } }
  else { s with mgmt := { s.mgmt with msixSent := s.mgmt.msixSent ++ [v] } }

/-- An entry of the error log, with vector 1 for the kinds that post it (R450). -/
def State.rasLog (s : State) (kind : Nat) (unit : Nat) (addr : Nat) (ctx : Nat) : State :=
  let e := leBytes 4 kind ++ leBytes 4 unit ++ leBytes 8 addr ++ leBytes 8 s.clock.toNat ++ leBytes 8 ctx
  let s := { s with ras := { s.ras with log := s.ras.log.set (s.ras.prod.toNat % 256) e, prod := s.ras.prod + 1#32 } }
  if [2, 4, 5, 7, 12].contains kind then s.postMsix 1 else s

/-- A malformed page-table entry is counted and logged (R396, R449, R450). -/
def State.notePteBad (s : State) (bad : Option Nat) : State :=
  match bad with
  | none => s
  | some ea => { s with ras := { s.ras with ptebad := satInc s.ras.ptebad } }.rasLog 11 0 ea 0

/-! ## Virtual access without a handle: fetches, fault queues, images, records -/

/-- The bytes of a range of one page read by VA, when they translate, are in service and are not poisoned. -/
inductive VRead where
  | ok (bs : List Byte)
  | xlate (f : XFail)
  | poison
  | wait
deriving DecidableEq, Repr

/-- Read n bytes at a VA; the range is cut at 64 KiB pages, at most k pieces (R395). -/
def State.readVa (s : State) (asid die : Nat) (nd : Need) : Nat → Nat → Nat → VRead
  | 0, _, _ => .ok []
  | k + 1, va, n =>
    if n = 0 then .ok [] else
    let m := min n (65536 - va % 65536)
    if !canonical va then .xlate { sub := 0, bad := none, lost := none } else
    match s.place asid va nd 0 with
    | .error f =>
      (match f.ready with
      | .wait => .wait
      | .dead => .poison
      | .yes => .xlate f)
    | .ok l =>
      match s.locReady die l with
      | .wait => .wait
      | .dead => .poison
      | .yes =>
        if s.locPoison die l m then .poison
        else
          match State.readVa s asid die nd k ((va + m) % 2 ^ 64) (n - m) with
          | .ok r => .ok ((s.beforeLoad die l m).load die l m ++ r)
          | e => e

/-- Bytes of one page written at a VA; none when they cannot be. In a poisoned line they are written, and the line stays poisoned
(R447), unless the writer takes that for a failure (R388). -/
def State.writePage (s : State) (asid die : Nat) (kd : Option Nat) (strict : Bool) (va : Nat) (bs : List Byte) : Option State :=
  if !canonical va then none
  else
    match s.place asid va { r := false, w := true, x := false, space := 0, kd := kd } 0 with
    | .error _ => none
    | .ok l => if s.locReady die l ≠ .yes ∨ (strict ∧ s.locPoison die l bs.length) then none else some (s.store die l bs)
/-- Write bytes at a VA, page by page; none when some byte cannot be written (R388). -/
def State.writeVa (s : State) (asid die : Nat) : Nat → Nat → List Byte → Option State
  | 0, _, _ => some s
  | k + 1, va, bs =>
    if bs = [] then some s else
    let m := min bs.length (65536 - va % 65536)
    match s.writePage asid die none true va (bs.take m) with
    | none => none
    | some s => State.writeVa s asid die k ((va + m) % 2 ^ 64) (bs.drop m)
/-- Write bytes at a VA under a key-domain, page by page; those of a page that cannot be written are lost. -/
def State.spread (s : State) (asid die : Nat) (kd : Option Nat) : Nat → Nat → List Byte → State
  | 0, _, _ => s
  | k + 1, va, bs =>
    if bs = [] then s else
    let m := min bs.length (65536 - va % 65536)
    State.spread ((s.writePage asid die kd false va (bs.take m)).getD s) asid die kd k ((va + m) % 2 ^ 64) (bs.drop m)

/-! ## Handle entries (R399, R400) -/

/-- A handle entry, decoded (R399). -/
structure HandleEntry where
  base : Nat
  bound : Nat
  valid : Bool
  kd : Nat
  pol : Nat
  atom : Bool
  w : Bool
  r : Bool
  space : Nat
  /-- the entry cannot be read yet: its stack is not in service (R422) -/
  wait : Bool := false
  /-- no bytes of the entry can be read -/
  unread : Bool := false
deriving DecidableEq, Repr

/-- The bytes of an entry below its bound whose VA is canonical: beyond them a command's range fails its BOUND check, as an access
does (R395, R160). (log 22, DEDUCED) -/
def HandleEntry.limit (e : HandleEntry) : Nat :=
  min e.bound (if e.base < 2 ^ 56 then 2 ^ 56 - e.base else 2 ^ 64 + 2 ^ 56 - e.base)

/-- The entry's fields, and its validity under R399. -/
def decodeHandle (bs : List Byte) : HandleEntry :=
  let q0 := leNat (bs.take 8)
  let bound := leNat ((bs.drop 8).take 8)
  let w4 := leNat ((bs.drop 16).take 4)
  let w5 := leNat ((bs.drop 20).take 4)
  let q3 := leNat ((bs.drop 24).take 8)
  let space := bitsOf w5 3 0
  let base := sext57 q0
  let kd := bitsOf w4 15 8
  let ok := bitOf w4 31 && bitsOf q0 63 57 == 0 && bitsOf w4 30 16 == 0 && !bitOf w4 3 && !bitOf w4 0 &&
    bitsOf w5 31 4 == 0 && q3 == 0 && decide (1 ≤ space) && decide (space ≤ 8) && (bitOf w4 5 == (space == 8)) &&
    (kd == 0 || !(space == 4 || space == 5 || space == 6 || space == 2)) && (space ≠ 2 || base == 0)
  { base := base, bound := bound, valid := ok, kd := kd, pol := bitsOf w4 7 6, atom := bitOf w4 4, w := bitOf w4 2,
    r := bitOf w4 1, space := space }

/-- An entry that no handle names. -/
def HandleEntry.none : HandleEntry :=
  { base := 0, bound := 0, valid := false, kd := 0, pol := 0, atom := false, w := false, r := false, space := 0 }

/-- VA of the handle table: bits 56:16 of the HT word (R249). -/
def htVa (ht : DWord) : Nat := sext57 (bitsOf ht.toNat 56 16 * 65536)
/-- Entries of the handle table minus one (R249). -/
def htN (ht : DWord) : Nat := bitsOf ht.toNat 10 0

/-- A read of a handle or gate table: for data, under the device key (R429). -/
def tableNeed : Need := { r := true, w := false, x := false, space := 0, table := true }
/-- A table entry by VA as memory holds it. -/
def State.entryRead (s : State) (asid die va n : Nat) : VRead := s.readVa asid die tableNeed 2 va n
/-- What the bytes of a table entry may be for an access: memory's, those the cores still hold, and those that a write has replaced
since the last invalidation of the table's address space (R400: either, for each access). -/
def State.entryAll (s : State) (asid die va n : Nat) : List (Option (List Byte)) :=
  let now := match s.entryRead asid die va n with
    | .ok bs => some bs
    | _ => none
  let cached := (s.hcache.filter (fun h => h.asid == asid && h.va == va && h.bytes.length == n)).map (fun h => some h.bytes)
  let olds := match s.place asid va tableNeed 0, now with
    | .ok l, some bs => (oldBytes (l.readPa die) n (s.since asid none) bs).map some
    | _, _ => []
  now :: (cached ++ olds).filter (fun b => b ≠ now)
/-- The bytes of a table entry that an access uses (R400). (log 6, DEDUCED) (log 12, DEDUCED) -/
def State.entryBytes (s : State) (asid die va n tag : Nat) : Option (List Byte) :=
  let all := s.entryAll asid die va n
  all.getD (s.pick [3, asid, va, tag] all.length) none
/-- The access to a table entry that cannot be read meets a malformed page-table entry, which is counted (R396). -/
def State.noteTable (s : State) (asid va : Nat) : State :=
  match s.place asid va tableNeed 0 with
  | .error f => s.notePteBad f.bad
  | .ok _ => s
/-- The same for an access at a VA. -/
def State.noteBadAt (s : State) (asid va tag : Nat) : State :=
  match s.translate asid va tag with
  | .malformed ea => s.notePteBad (some ea)
  | _ => s

/-- VA of handle entry idx of a table (R249, R399). -/
def entryVa (ht : DWord) (idx : Nat) : Nat := (htVa ht + 32 * idx) % 2 ^ 64
/-- The entry that an access reads from bytes, if it reads any; `wait`: they lie on a stack still to enter service (R422). -/
def State.entryOf (s : State) (wait : Bool) (bs : Option (List Byte)) : HandleEntry :=
  match bs with
  | some bs =>
    let e := decodeHandle bs
    { e with valid := e.valid && s.kdLive e.kd }
  | none => { HandleEntry.none with wait := wait, unread := true }
/-- Handle entry idx of a table; an index beyond the table and an entry that cannot be read are invalid (R161). (log 6, DEDUCED) -/
def State.handle (s : State) (asid die : Nat) (ht : DWord) (idx tag : Nat) : HandleEntry :=
  if idx > htN ht then HandleEntry.none
  else s.entryOf (s.entryRead asid die (entryVa ht idx) 32 == .wait) (s.entryBytes asid die (entryVa ht idx) 32 tag)
/-- A use of a handle entry that could not be read has met the malformed page-table entry, if one stands in its way (R396). -/
def State.noteHandle (s : State) (asid : Nat) (ht : DWord) (idx : Nat) (e : HandleEntry) : State :=
  if e.unread then s.noteTable asid (entryVa ht idx) else s

/-- An entry that has been used is held by the cores until it is invalidated (R400). (log 6, DEDUCED) -/
def State.noteEntry (s : State) (asid die va n : Nat) : State :=
  { s with hcache := match s.entryRead asid die va n with
    | .ok bs =>
      let h : HEntry := { asid := asid, va := va, bytes := bs }
      if s.hcache.contains h then s.hcache else h :: s.hcache
    | _ => s.hcache }

/-! ## Domain entries (R402) -/

/-- A domain entry, decoded (R402). -/
structure DomEntry where
  valid : Bool
  priv : Nat
  diag : Bool
  asid : Nat
  gtn : Nat
  gtab : Nat
  root : Nat
  fqva : Nat
  fqlog : Nat
  msie : Bool
  msiv : Nat
  dsv : Bool
  dsh : Nat
deriving DecidableEq, Repr

/-- The fields of a domain entry, and its validity (R402). -/
def decodeDom (bs : List Byte) : DomEntry :=
  let w := fun i => leNat ((bs.drop (4 * i)).take 4)
  let q := fun i => leNat ((bs.drop (8 * i)).take 8)
  let fqlog := bitsOf (w 8) 4 0
  let ok := bitOf (w 0) 31 && !bitOf (w 0) 30 && bitsOf (w 0) 26 16 == 0 && bitsOf (w 1) 31 8 == 0 &&
    bitsOf (w 8) 31 5 == 0 && bitsOf (w 9) 30 11 == 0 && bitsOf (w 10) 30 11 == 0 &&
    leNat (bs.drop 44) == 0 && decide (4 ≤ fqlog) && decide (fqlog ≤ 16) && bitsOf (w 0) 15 0 ≠ 0 && bitsOf (w 0) 29 28 ≠ 3
  { valid := ok, priv := bitsOf (w 0) 29 28, diag := bitOf (w 0) 27, asid := bitsOf (w 0) 15 0, gtn := bitsOf (w 1) 7 0,
    gtab := q 1, root := q 2, fqva := q 3, fqlog := fqlog, msie := bitOf (w 9) 31, msiv := bitsOf (w 9) 10 0,
    dsv := bitOf (w 10) 31, dsh := bitsOf (w 10) 10 0 }

/-- Service of an entry of 64 bytes of the context or domain table; one in a poisoned line answers as poison (R422, R447). -/
def State.tableReady (s : State) (pa : Nat) : Ready :=
  match s.paReady pa with
  | .yes => if s.poisoned pa 64 then .dead else .yes
  | r => r
/-- The bytes of such an entry; without service none can be valid (R422; log 40, DESIGN CHOICE). -/
def State.tableBytes (s : State) (pa : Nat) : List Byte :=
  if s.tableReady pa = .yes then s.readPa pa 64 else List.replicate 64 0#8
/-- The bytes of the entry of domain d (R402, R414). -/
def State.domainBytes (s : State) (d : Nat) : List Byte := s.tableBytes (s.mgmt.domtab.toNat + 64 * d)
/-- The entry of domain d; entry 0 is never valid (R402). -/
def State.domain (s : State) (d : Nat) : DomEntry :=
  let e := decodeDom (s.domainBytes d)
  { e with valid := e.valid && d ≠ 0 }

/-- A domain entry read at a launch or a gate makes its root the one walks of its address space use (R402, R403). -/
def State.useDomain (s : State) (d : Nat) : State :=
  let e := s.domain d
  if !e.valid ∨ s.asids.contains (e.asid, e.root) then s else { s with asids := (e.asid, e.root) :: s.asids }

/-! ## Context descriptors (R363) -/

/-- A context descriptor, decoded (R363). -/
structure CtxDesc where
  valid : Bool
  sys : Bool
  priv : Nat
  lnch : Bool
  brksys : Bool
  stepen : Bool
  asid : Nat
  dom : Nat
  dsh : Nat
  tvec0 : DWord
  fqva : Nat
  fqlog : Nat
  msie : Bool
  msiv : Nat
  imgva : Nat
  spillva : Nat
deriving DecidableEq, Repr

/-- What the device keeps of a context. -/
def State.ctxSt (s : State) (c : Nat) : CtxSt :=
  match s.ctxs.find? (fun x => x.num == c) with
  | some x => x
  | none => { num := c, tvec := 0#64, tvecSet := false, dead := false, sawV0 := false, stopped := false, desc := [] }

/-- The descriptor of a context: the one in the table, or, while the context has blocks, the one at the placing of the first
of them with MSIE, MSIV, BRKSYS and STEPEN of the table's (R363, R414). -/
def State.ctxBytes (s : State) (c : Nat) : List Byte :=
  let now := s.tableBytes (s.mgmt.ctxtab.toNat + 64 * c)
  let old := (s.ctxSt c).desc
  if old.length = 64 ∧ s.blocks.any (fun b => b.ctx == c && b.place ≠ 3) then
    let mix := fun (i : Nat) (m : Byte) => (old.getD i 0#8 &&& ~~~m) ||| (now.getD i 0#8 &&& m)
    old.take 3 ++ [mix 3 0x06#8] ++ (old.drop 4).take 24 ++ [mix 28 0xFF#8, mix 29 0x07#8, mix 30 0#8, mix 31 0x80#8] ++ old.drop 32
  else now

/-- The descriptor of a context (R363, R414). -/
def State.ctxDesc (s : State) (c : Nat) : CtxDesc :=
  let bs := s.ctxBytes c
  let w := fun i => leNat ((bs.drop (4 * i)).take 4)
  let q := fun i => leNat ((bs.drop (8 * i)).take 8)
  let fqlog := bitsOf (w 6) 4 0
  let ok := bitOf (w 0) 31 && bitsOf (w 0) 24 16 == 0 && bitsOf (w 1) 15 11 == 0 && bitsOf (w 6) 31 5 == 0 &&
    bitsOf (w 7) 30 11 == 0 && leNat (bs.drop 48) == 0 && decide (4 ≤ fqlog) && decide (fqlog ≤ 16) && c ≠ 0
  { valid := ok, sys := bitOf (w 0) 30, priv := bitsOf (w 0) 29 28, lnch := bitOf (w 0) 27, brksys := bitOf (w 0) 26,
    stepen := bitOf (w 0) 25, asid := bitsOf (w 0) 15 0, dom := bitsOf (w 1) 31 16, dsh := bitsOf (w 1) 10 0,
    tvec0 := BitVec.ofNat 64 (q 1), fqva := q 2, fqlog := fqlog, msie := bitOf (w 7) 31, msiv := bitsOf (w 7) 10 0,
    imgva := q 4, spillva := q 5 }

/-- An agent that works for a registered context walks from the root of the context's domain (R402). -/
def State.useContext (s : State) (c : Nat) : State :=
  let d := s.ctxDesc c
  if d.valid then s.useDomain d.dom else s

/-- The record of a context replaced. -/
def State.setCtxSt (s : State) (x : CtxSt) : State :=
  { s with ctxs := x :: s.ctxs.filter (fun y => y.num ≠ x.num) }

/-- TVEC of a context: the value set, or TVEC0 of its descriptor (R382). -/
def State.ctxTvec (s : State) (c : Nat) : DWord :=
  let x := s.ctxSt c
  if x.tvecSet then x.tvec else (s.ctxDesc c).tvec0

/-! ## Line fetch (R33, R38, R39, R222) -/

/-- The result of fetching a line for a crew of a core. -/
inductive Fetch where
  | ok (line : List Byte)
  | xlate (f : XFail)
  | poison
  | wait
  | bad (sub : Nat)
deriving DecidableEq, Repr

/-- The line at a VA as memory holds it: translation with execute permission, poison, then R38's conditions. (log 6, DEDUCED) -/
def State.fetchNow (s : State) (asid die va : Nat) : VRead :=
  s.readVa asid die { r := false, w := false, x := true, space := 0 } 2 va 64

/-- A copy of the line that the core's instruction cache holds fails R37. -/
def State.cacheBad (s : State) (core asid va : Nat) : Bool :=
  s.icache.any (fun l => l.core == core && l.asid == asid && l.va == va && lineFault l.bytes == some 0)

/-- The bytes a crew fetches: memory's, or those that its core's instruction cache still holds (R222: either until they are discarded);
a cached copy that fails parity is fetched again from memory (R38). -/
def State.fetchBytes (s : State) (core asid va : Nat) : VRead :=
  let now := s.fetchNow asid (dieOfCore core) va
  let cached := (s.icache.filter (fun l => l.core == core && l.asid == asid && l.va == va)).map (fun l => VRead.ok l.bytes)
  let all := if s.cacheBad core asid va then [now] else now :: cached.filter (fun r => r ≠ now)
  all.getD (s.pick [4, core, asid, va] all.length) now

/-- The line a crew fetches; the parity and format checks come first (R39). -/
def State.fetchLine (s : State) (core asid va : Nat) : Fetch :=
  match s.fetchBytes core asid va with
  | .ok bs =>
    match lineFault bs with
    | some sub => .bad sub
    | none => .ok bs
  | .xlate f => .xlate f
  | .poison => .poison
  | .wait => .wait

/-- A fetched line, whatever its contents, is held by the core's instruction cache until it is discarded (R222), and its translation by
the TLBs (R397); it replaces a copy that failed parity, and a refetch that passes is counted (R38, R449). (log 6, DEDUCED) -/
def State.noteLine (s : State) (core asid va : Nat) (bs : List Byte) : State :=
  let l : ILine := { core := core, asid := asid, va := va, bytes := bs }
  let bad := s.cacheBad core asid va
  let kept := if bad then s.icache.filter (fun l => !(l.core == core && l.asid == asid && l.va == va && lineFault l.bytes == some 0)) else s.icache
  { s.noteTlb asid va with
    icache := if kept.contains l then kept else l :: kept,
    ras := if bad && lineFault bs ≠ some 0 then { s.ras with parfix := satInc s.ras.parfix } else s.ras }
/-- What a fetch leaves behind, whether or not the line is entered, as the fetch made in state `s0` found it (R38, R396). -/
def State.noteFetch (s0 : State) (core asid va : Nat) (s : State) : State :=
  match s0.fetchBytes core asid va with
  | .ok bs => s.noteLine core asid va bs
  | .xlate f => s.notePteBad f.bad
  | _ => s
/-- Caches and error counts as a later state has them: what an instruction that has no effect still leaves behind (R38, R396, R397). -/
def State.withNotes (s t : State) : State :=
  { s with ras := t.ras, mgmt := { s.mgmt with msixSent := t.mgmt.msixSent, msixPending := t.mgmt.msixPending }, icache := t.icache, tlb := t.tlb,
           hcache := t.hcache }

end Sys2Proof.Machine
end

