-- ==== Sys2Proof/Machine/Ops.lean ====
section
/-!
DEFINITION. Ops.lean: the operations every crew instruction is made of: registers with their hazards, guards, queues,
issue, control transfers, fault records, taking a trap and returning from one
(spec 01 R13 to R26; 02 R39 to R47, R58; 21 R364 to R391).
-/

namespace Sys2Proof.Machine

open Sys2Proof

/-- The outcome of an instruction or event. -/
abbrev Out := Host.Outcome State Fault Refusal

/-- How the body of an instruction ends without its effect. -/
inductive Sig where
  | raise (c : Cause)
  /-- a cause whose instruction has performed a part of its accesses (R162), or met a malformed entry (R396) -/
  | raiseIn (s : State) (c : Cause)
  | hold
  /-- not eligible, but the instruction has taken its place in its core's queue for windows (R215) -/
  | holdIn (s : State)
  | stop (f : Fault)

/-- A computation that may raise, wait or stop. -/
abbrev Res (α : Type) := Except Sig α

/-! ## Rows, crews and slots -/

/-- A row given lane by lane. -/
def mkRow (f : Nat → Word) : Row := lanes.map f
/-- The word of lane l. -/
def rowAt (r : Row) (l : Nat) : Word := r.getD l 0#32
/-- The lanes of a mask, lowest first. -/
def maskLanes (m : Mask) : List Nat := lanes.filter (fun l => m.getLsbD l)
/-- The mask of the lanes a predicate names. -/
def mkMask (p : Nat → Bool) : Mask := lanes.foldl (fun m l => if p l then m ||| (1#64 <<< l) else m) 0#64
/-- The lowest lane of a mask. -/
def lowLane (m : Mask) : Nat := (maskLanes m).headD 0

/-- The crew with an id. -/
def State.crew? (s : State) (id : Nat) : Option Crew := s.crews.find? (fun c => c.id == id)
/-- The crew record replaced. -/
def State.setCrew (s : State) (c : Crew) : State := { s with crews := s.crews.map (fun x => if x.id == c.id then c else x) }
/-- A crew changed by a function. -/
def State.modCrew (s : State) (id : Nat) (f : Crew → Crew) : State :=
  { s with crews := s.crews.map (fun x => if x.id == id then f x else x) }
/-- The block with a key. -/
def State.block? (s : State) (id : Nat) : Option Block := s.blocks.find? (fun b => b.id == id)
/-- A block changed by a function. -/
def State.modBlock (s : State) (id : Nat) (f : Block → Block) : State :=
  { s with blocks := s.blocks.map (fun x => if x.id == id then f x else x) }
/-- The state of core k. -/
def State.core (s : State) (k : Nat) : CoreSt := s.cores.getD k CoreSt.reset
/-- A core changed by a function. -/
def State.modCore (s : State) (k : Nat) (f : CoreSt → CoreSt) : State := { s with cores := s.cores.set k (f (s.core k)) }

/-- Slot A (false) or B (true). -/
def Crew.slot (c : Crew) (k : Bool) : PcSlot := if k then c.b else c.a
/-- The crew with a slot replaced. -/
def Crew.setSlot (c : Crew) (k : Bool) (p : PcSlot) : Crew := if k then { c with b := p } else { c with a := p }
/-- The lanes live in either PC slot. -/
def Crew.live (c : Crew) : Mask :=
  (if c.a.st = .free then 0#64 else c.a.mask) ||| (if c.b.st = .free then 0#64 else c.b.mask)
/-- The crew is in a gate call (R215). -/
def Crew.callee (c : Crew) : Bool := !c.gates.isEmpty

/-- The gate index of the innermost call (R215). -/
def Crew.gateIndex (c : Crew) : Nat :=
  match c.gates with
  | g :: _ => g.gate
  | [] => 0

/-! ## Program counters (R34, R35) -/

/-- SLOT of a PC. -/
def pcSlot (pc : DWord) : Nat := bitsOf pc.toNat 2 0
/-- LINE of a PC, as the line's address. -/
def pcLine (pc : DWord) : Nat := pc.toNat / 64 * 64
/-- The PC next in sequence to an instruction (R35). -/
def pcNext (pc : DWord) : DWord :=
  if pcSlot pc < 4 then pc + 1#64 else BitVec.ofNat 64 (pcLine pc + 64)
/-- A PC that R34 admits. -/
def pcOk (pc : DWord) : Bool := canonical pc.toNat && bitsOf pc.toNat 5 3 == 0 && decide (pcSlot pc ≤ 4)
/-- The slot at a new PC; its line is fetched at the next issue unless it stays in the same line. -/
def PcSlot.goto (p : PcSlot) (pc : DWord) : PcSlot :=
  { p with pc := pc, line := if pcLine pc = pcLine p.pc then p.line else [] }

/-! ## Queues (R18 to R21) -/

/-- V of QSTATE. -/
def qV (q : Word) : Bool := q.getLsbD 31
/-- COUNT of QSTATE. -/
def qCount (q : Word) : Nat := bitsOf q.toNat 20 16
/-- HEAD of QSTATE. -/
def qHead (q : Word) : Nat := bitsOf q.toNat 15 12
/-- Window length of QSTATE. -/
def qLen (q : Word) : Nat := bitsOf q.toNat 11 8 + 1
/-- BASE of QSTATE. -/
def qBase (q : Word) : Nat := bitsOf q.toNat 7 0
/-- QSTATE of a defined queue (R21). -/
def qMake (base len head count : Nat) : Word :=
  BitVec.ofNat 32 (0x80000000 + count % 32 * 65536 + head % 16 * 4096 + (len - 1) % 16 * 256 + base % 256)
/-- The window of q holds a register. -/
def qHas (q : Word) (r : Nat) : Bool := qV q && decide (qBase q ≤ r) && decide (r < qBase q + qLen q)
/-- The queue whose window holds a register (R18: windows are disjoint). -/
def qOf (qs : List Word) (r : Nat) : Option Nat := (List.range 8).find? (fun i => qHas (qs.getD i 0#32) r)
/-- The queue whose base is the register (R19). -/
def qNamed (qs : List Word) (r : Nat) : Option Nat :=
  (List.range 8).find? (fun i => qV (qs.getD i 0#32) && qBase (qs.getD i 0#32) == r)
/-- A pop (R19). -/
def qPop (q : Word) : Word := qMake (qBase q) (qLen q) ((qHead q + 1) % qLen q) (qCount q - 1)
/-- A push (R19). -/
def qPush (q : Word) : Word := qMake (qBase q) (qLen q) (qHead q) (qCount q + 1)
/-- The register a push writes (R19). -/
def qPushReg (q : Word) : Nat := qBase q + (qHead q + qCount q) % qLen q
/-- The register a pop reads (R19). -/
def qPopReg (q : Word) : Nat := qBase q + qHead q

/-- An operand field: first register and how many registers it names (R15, R68). -/
structure Opnd where
  reg : Nat
  size : Nat
deriving DecidableEq, Repr

/-- Register r is in an allocation of n (R13). -/
def allocated (n r : Nat) : Bool := decide (r < n - 8) || (decide (248 ≤ r) && decide (r < 256))
/-- The field names allocated registers and is aligned to its size (R14, R15). -/
def Opnd.ok (o : Opnd) (n : Nat) : Bool :=
  o.reg % o.size == 0 && (List.range o.size).all (fun i => allocated n (o.reg + i))
/-- The queue that a field names wrongly (R20). -/
def Opnd.qBad (o : Opnd) (qs : List Word) : Option Nat :=
  if o.size = 1 then
    match qOf qs o.reg with
    | some q => if qBase (qs.getD q 0#32) = o.reg then none else some q
    | none => none
  else (List.range o.size).findSome? (fun i => qOf qs (o.reg + i))

/-- The queues that the sources pop, each once (R19). -/
def popsOf (qs : List Word) (srcs : List Opnd) : List Nat :=
  (List.range 8).filter (fun i => srcs.any (fun o => o.size == 1 && qNamed qs o.reg == some i))
/-- The queue state after the pops. -/
def afterPops (qs : List Word) (ps : List Nat) : List Word :=
  ps.foldl (fun q i => q.set i (qPop (q.getD i 0#32))) qs
/-- The pushes of the destinations in field order: the queue state after them, the registers written, and a queue that was
full (R19, R20). -/
def pushAll : List Word → List Opnd → List Word × List Nat × Option Nat
  | qs, [] => (qs, [], none)
  | qs, o :: os =>
    match (if o.size = 1 then qNamed qs o.reg else none) with
    | none =>
      let (q', rs, bad) := pushAll qs os
      (q', o.reg :: rs, bad)
    | some i =>
      let q := qs.getD i 0#32
      if qCount q ≥ qLen q then (qs, [], some i)
      else
        let (q', rs, bad) := pushAll (qs.set i (qPush q)) os
        (q', qPushReg q :: rs, bad)

/-- The queue that makes an instruction raise QUEUE (R20): wrong naming, then an empty pop, then a full push. (log 19, DEDUCED) -/
def queueFault (qs : List Word) (srcs dsts : List Opnd) : Option Nat :=
  match (srcs ++ dsts).findSome? (fun o => o.qBad qs) with
  | some q => some q
  | none =>
    let ps := popsOf qs srcs
    match ps.find? (fun i => qCount (qs.getD i 0#32) == 0) with
    | some q => some q
    | none => (pushAll (afterPops qs ps) dsts).2.2

/-! ## Register reads with hazards (R45) -/

/-- One lane of a register as an instruction issued now may read it: each write still in flight may or may not show (R45). (log 4, DESIGN CHOICE) -/
def readLane (s : State) (id : Nat) (regs : List Row) (fl : List Flight) (r l : Nat) : Word :=
  fl.foldl (fun v f =>
    if f.due.any (fun d => d ≤ s.cycle) then v
    else f.writes.foldl (fun v a =>
      if a.reg = r ∧ a.mask.getLsbD l ∧ s.pick [5, id, r, l, f.id] 2 = 1 then (v &&& ~~~a.bits) ||| (rowAt a.row l &&& a.bits) else v) v)
    (rowAt (regs.getD r []) l)

/-- A register row as an instruction issued now reads it. -/
def readRow (s : State) (id : Nat) (regs : List Row) (fl : List Flight) (r : Nat) : Row :=
  if fl.any (fun f => f.writes.any (fun a => a.reg == r) && !f.due.any (fun d => d ≤ s.cycle))
  then mkRow (readLane s id regs fl r) else regs.getD r Row.zero

/-- A write of bits of a register in the lanes of a mask. -/
structure Wr where
  reg : Nat
  row : Row
  mask : Mask
  bits : Word
deriving DecidableEq, Repr

/-- A whole-register write. -/
def Wr.full (reg : Nat) (mask : Mask) (f : Nat → Word) : Wr := { reg := reg, row := mkRow f, mask := mask, bits := 0xFFFFFFFF#32 }

/-- A row with a write merged into it. -/
def mergeRow (old new : Row) (m : Mask) (bits : Word) : Row :=
  mkRow (fun l => if m.getLsbD l then (rowAt old l &&& ~~~bits) ||| (rowAt new l &&& bits) else rowAt old l)

/-- A row with a write merged into it, the bits written given lane by lane. -/
def mergeBits (old new : Row) (bits : Nat → Word) : Row :=
  mkRow (fun l => (rowAt old l &&& ~~~(bits l)) ||| (rowAt new l &&& bits l))

/-- Of the bits that a write completing at `due` puts into a lane of a register, those where an earlier fixed-latency write that is
still in flight and completes no earlier remains: for each such write all the bits both write, or none of them (R45, R116).
(log 4, DESIGN CHOICE) -/
def overtaken (s : State) (id due : Nat) (fl : List Flight) (r l : Nat) (bits : Word) : Word :=
  fl.foldl (fun m f =>
    if f.due.any (fun d => decide (s.cycle < d) && decide (due ≤ d)) then
      f.writes.foldl (fun m a =>
        if a.reg = r ∧ a.mask.getLsbD l ∧ a.bits &&& bits ≠ 0#32 ∧ s.pick [6, id, r, l, f.id] 2 = 1 then m ||| (a.bits &&& bits) else m) m
    else m) 0#32

/-- The writes still in flight with the bits taken out that the second instruction of a pair writes too: where both write, the
second's value remains (R42). `pre` are the instructions that were in flight before the pair. -/
def yieldTo (pre : List Flight) (fl : List Flight) (w : Wr) : List Flight :=
  fl.map (fun f =>
    if pre.any (fun p => p.id == f.id) then f
    else { f with writes := f.writes.flatMap (fun (a : Alt) =>
      if a.reg = w.reg then [{ a with mask := a.mask &&& ~~~w.mask }, { a with mask := a.mask &&& w.mask, bits := a.bits &&& ~~~w.bits }]
      else [a]) })

/-- An instruction in flight marked as overtaken: a later one has written bits of a register in lanes before it (R45, R116). -/
def Flight.overtakenBy (reg : Nat) (mask : Mask) (bits : Word) (f : Flight) : Flight :=
  { f with writes := f.writes.map (fun a => if a.reg = reg ∧ a.bits &&& bits ≠ 0#32 then { a with raced := a.raced ++ [(mask, bits)] } else a) }

/-- Put a register write into the file now. A lane where an earlier write completes later ends with either value (R45), and
variable-latency writes still in flight to these lanes are marked as overtaken. (log 19, DEDUCED) -/
def putWr (s : State) (c : Crew) (due : Nat) (w : Wr) : Crew :=
  let old := c.regs.getD w.reg Row.zero
  let bits := fun l => if w.mask.getLsbD l then w.bits &&& ~~~(overtaken s c.id due c.flights w.reg l w.bits) else 0#32
  let fl := c.flights.map (fun f => if f.due.isNone then f.overtakenBy w.reg w.mask w.bits else f)
  { c with regs := c.regs.set w.reg (mergeBits old w.row bits), flights := fl }

/-- Of a variable-latency write's bits in a lane, those that a later instruction wrote meanwhile and that remain its value (R45, R116).
(log 4, DESIGN CHOICE) -/
def Alt.lost (s : State) (id l : Nat) (a : Alt) : Word :=
  (a.raced.zip (List.range a.raced.length)).foldl (fun m p =>
    if p.1.1.getLsbD l ∧ s.pick [7, id, a.reg, l, p.2] 2 = 1 then m ||| p.1.2 else m) 0#32

/-- A variable-latency write reaches the file at completion; where another instruction has written the lane meanwhile, or a
fixed-latency one still completes later, the lane ends with either value, bit by bit (R45, R116). (log 4, DESIGN CHOICE) -/
def landAlt (s : State) (c : Crew) (a : Alt) : Crew :=
  let old := c.regs.getD a.reg Row.zero
  let bits := fun l => if a.mask.getLsbD l
    then a.bits &&& ~~~(a.lost s c.id l) &&& ~~~(overtaken s c.id s.cycle c.flights a.reg l a.bits) else 0#32
  { c with regs := c.regs.set a.reg (mergeBits old a.row bits) }

/-- Flag i of the crew lowered by one (R46). -/
def lowerFlag (c : Crew) (f : Option Nat) : Crew :=
  match f with
  | some i => { c with flags := c.flags.set i (c.flags.getD i 0 - 1) }
  | none => c

/-- A flight completes: its variable-latency writes land, those of earlier instructions still in flight are marked as overtaken, and its
flag goes down (R45, R46). -/
def finishFlight (s : State) (c : Crew) (f : Flight) : Crew :=
  let c := { c with flights := c.flights.filter (fun g => g.id ≠ f.id) }
  let c := if f.due.isNone then
      let c := f.writes.foldl (landAlt s) c
      { c with flights := c.flights.map (fun g => if g.due.isNone && decide (g.id < f.id)
          then f.writes.foldl (fun g a => g.overtakenBy a.reg a.mask a.bits) g else g) }
    else c
  lowerFlag c f.flag

/-- The flights with these ids complete one after another, each as it stands by then. -/
def finishAll (s : State) (c : Crew) (ids : List Nat) : Crew :=
  ids.foldl (fun c i => match c.flights.find? (fun f => f.id == i) with
    | some f => finishFlight s c f
    | none => c) c

/-- Fixed-latency instructions whose cycle has passed are complete (R46, R60). -/
def settle (s : State) (c : Crew) : Crew :=
  (c.flights.filter (fun f => f.due.any (fun d => decide (d < s.cycle)))).foldl (finishFlight s) c

/-- What becomes of the instructions in flight when the crew stops (R47, R367): loads and pfx are squashed, the others
complete; every flag then reads zero. (log 21, DEDUCED) -/
def stopFlights (s : State) (c : Crew) : Crew :=
  let c := finishAll s c ((c.flights.filter (fun f => !f.squash)).map (fun f => f.id))
  { c with flights := [], flags := List.replicate 12 0, lastIssue := none }

/-! ## Regions (R364, R366) -/

/-- The slot's region entry becomes a PC; RNGSEED of its lanes and the queue state are captured (R92, R364). -/
def markRegion (c : Crew) (k : Bool) (pc : DWord) : Crew :=
  let p := c.slot k
  let c := c.setSlot k { p with region := pc, qcap := c.queues, qnamed := none }
  { c with rngCap := mkRow (fun l => if p.mask.getLsbD l then rowAt c.rng l else rowAt c.rngCap l) }

/-- An acquire of a crew at a scope (R233, R235). -/
def State.acquire (s : State) (scope : Nat) (c : Crew) : State := s.acquireAt scope c.id c.blk c.core
/-- A release of a crew at a scope (R233, R235): at .package and wider every earlier write is performed (log 5, DEDUCED). -/
def State.releaseAt (s : State) (scope : Nat) (c : Crew) : State :=
  if 5 ≤ scope then s.release else s.releaseNear scope c.id c.blk c.core

/-- Resumption of every running slot at its region entry (R366), the crew not demoted (R157); a crew stopped on STEP continues at
its PCs. -/
def resumeCrew (c : Crew) (atPc : Bool) : Crew :=
  let c : Crew := { c with demote := 0, demotedFrom := none, cont := false }
  if atPc then { c with a := { c.a with line := [] }, b := { c.b with line := [] }, lastIssue := none }
  else
    let run := fun (p : PcSlot) => p.st == SlotState.running
    let back := fun (p : PcSlot) => if run p then { p with pc := p.region, line := [], accaWait := none } else { p with line := [] }
    let m := (if run c.a then c.a.mask else 0#64) ||| (if run c.b then c.b.mask else 0#64)
    let qs := match c.a.qnamed, c.b.qnamed with
      | some x, some y => if y > x then c.b.qcap else c.a.qcap
      | some _, none => c.a.qcap
      | none, some _ => c.b.qcap
      | none, none => c.queues
    { c with a := back c.a, b := back c.b, queues := qs,
             rng := mkRow (fun l => if m.getLsbD l then rowAt c.rngCap l else rowAt c.rng l),
             flags := List.replicate 12 0, lastIssue := none, stepPend := false }

/-! ## Causes (R381) -/

/-- A system cause found in execution. -/
def sysCause (code sub info : Nat) (val : DWord) (mask : Mask) : Cause :=
  { code := code, sub := sub, info := info, val := val, mask := mask, crew := false, next := false, atIssue := false }
/-- A crew-level cause; `next` when tret returns after the instruction (R381). -/
def crewCause (code sub info : Nat) (val : DWord) (mask : Mask) (next : Bool) : Cause :=
  { code := code, sub := sub, info := info, val := val, mask := mask, crew := true, next := next, atIssue := false }
/-- ILLFIELD (R58 check 6). -/
def illField : Cause := { sysCause 0x02 0 0 0#64 0#64 with atIssue := true }
/-- CFI with the target PC (R34, R40, R58 check 3). -/
def cfi (target : DWord) (mask : Mask) : Cause := { sysCause 0x03 0 0 target mask with atIssue := true }
/-- PRIV (R6, R58 check 5). -/
def privCause : Cause := { sysCause 0x17 0 0 0#64 0#64 with atIssue := true }
/-- QUEUE on queue q (R20, R381). -/
def queueCause (q : Nat) (st : Word) : Cause :=
  { crewCause 0x06 q 0 (st.setWidth 64) 0#64 false with atIssue := true }
/-- GATE with a subcode (R215 to R217). (log 18, DEDUCED) -/
def gateCause (sub gate : Nat) : Cause := { sysCause 0x10 sub gate 0#64 0#64 with atIssue := true }
/-- XLATE at a VA (R162, R381). -/
def xlateCause (sub : Nat) (va : Nat) (mask : Mask) : Cause := sysCause 0x0C sub 0 (BitVec.ofNat 64 va) mask
/-- POISON at a VA. -/
def poisonCause (va : Nat) (mask : Mask) : Cause := sysCause 0x0D 0 0 (BitVec.ofNat 64 va) mask

/-- The cause word of TRAPCAUSE (R382). -/
def Cause.word (c : Cause) : Word := BitVec.ofNat 32 (c.info % 65536 * 65536 + c.sub % 256 * 256 + c.code % 256)

/-! ## Fault queues (R388, R389) -/

/-- Place of the fault queue of a domain as a callee (R402). -/
def domQueue (e : DomEntry) : QPlace := { fqva := e.fqva, fqlog := e.fqlog, asid := e.asid, msie := e.msie, msiv := e.msiv }
/-- Place of a fault queue: the callee's when one is given, else the context's own (R363, R402). -/
def State.queueOf (s : State) (fq : Option QPlace) (ctx : Nat) : QPlace :=
  match fq with
  | some q => q
  | none =>
    let e := s.ctxDesc ctx
    { fqva := e.fqva, fqlog := e.fqlog, asid := e.asid, msie := e.msie, msiv := e.msiv }

/-- SRC of a crew's records (R389). -/
def crewSrc (c : Crew) : Nat :=
  dieOfCore c.core * 64 + c.core / 4 % 10 * 4 + c.core % 4 + c.quad * 256 + c.qslot * 1024

/-- MSIE and MSIV for a post to a record's queue: for a context's own queue those of its descriptor as it now stands, which a write may
have changed while the record was held (R363, R388). -/
def State.msiOf (s : State) (h : Held) : Bool × Nat :=
  if h.dom then (h.fq.msie, h.fq.msiv) else ((s.ctxDesc h.num).msie, (s.ctxDesc h.num).msiv)

/-- An attempt to write one record: its number, when the memory could be written and the queue has room; else the VA that could
not be written, or none for a full queue. PROD is written last, with a release at .system (R388). (log 18, DEDUCED) -/
def State.tryPost (s : State) (h : Held) : State × Option Nat × Option Nat :=
  let die := 0
  match s.readVa h.fq.asid die { r := true, w := true, x := false, space := 0 } 2 h.fq.fqva 12 with
  | .ok cb =>
    let prod := leNat (cb.take 4)
    let cons := leNat ((cb.drop 4).take 4)
    if (prod + 2 ^ 32 - cons) % 2 ^ 32 = 2 ^ h.fq.fqlog then (s, none, none)
    else
      let seq := (prod + 1) % 2 ^ 32
      let frame := leBytes 4 (h.body.length * 65536 + h.kind) ++ leBytes 4 seq ++ leBytes 4 h.ctx ++ leBytes 4 h.src.toNat ++
        leBytes 8 s.clock.toNat ++ leBytes 4 h.rasid.toNat ++ leBytes 4 h.flg.toNat
      -- a cox body repeats the TIME of the frame (R330)
      let body := if h.kind = 3 then h.body.take 24 ++ leBytes 8 s.clock.toNat ++ h.body.drop 32 else h.body
      let entry := frame ++ body ++ List.replicate (480 - body.length) 0#8
      let at_ := (h.fq.fqva + 512 + 512 * (prod % 2 ^ h.fq.fqlog)) % 2 ^ 64
      match s.writeVa h.fq.asid die 3 at_ entry with
      | none => (s, none, some at_)
      | some s1 =>
        match s1.release.writeVa h.fq.asid die 2 h.fq.fqva (leBytes 4 seq) with
        | none => (s, none, some h.fq.fqva)
        | some s2 =>
          let s3 := s2.release
          (if (s.msiOf h).1 then s3.postMsix (s.msiOf h).2 else s3, some seq, none)
  | _ => (s, none, some h.fq.fqva)

/-- A post that found its queue full counts in WAITS (R388). -/
def State.countWait (s : State) (h : Held) : State :=
  match s.readVa h.fq.asid 0 { r := true, w := true, x := false, space := 0 } 2 (h.fq.fqva + 8) 4 with
  | .ok w => (s.writeVa h.fq.asid 0 2 (h.fq.fqva + 8) (leBytes 4 ((leNat w + 1) % 2 ^ 32))).getD s
  | _ => s

/-- A record posted, or held with WAITS counted or the failure logged (R388); answers its number when it was posted. -/
def State.postRecord (s : State) (h : Held) : State × Option Nat :=
  match s.tryPost h with
  | (s, some seq, _) => (s, some seq)
  | (s, none, some va) => ({ s with held := s.held ++ [{ h with unwritable := true, tried := s.clock.toNat }] }.rasLog 12 0 va 0, none)
  | (s, none, none) =>
    let s1 := s.countWait h
    ({ s1 with held := s1.held ++ [{ h with unwritable := false, tried := s1.clock.toNat }] }, none)

/-- A record for a fault queue: the callee's queue of domain `num` when `fq` gives its place, else that of context `num`
(R388, R389). (log 18, DEDUCED) -/
def State.mkRecord (s : State) (fq : Option QPlace) (num kind ctx src asid flg : Nat) (body : List Byte) (crew : Option Nat)
    (unit : Option (Nat × Nat)) : Held :=
  { dom := fq.isSome, num := num, fq := s.queueOf fq num, kind := kind, ctx := ctx, src := BitVec.ofNat 32 src,
    rasid := BitVec.ofNat 32 asid, flg := BitVec.ofNat 32 flg, body := body, crew := crew, unit := unit, unwritable := false, tried := 0 }

/-- The failing lanes of a record (R390): those that a rule names, else every lane live in the slot. (log 18, DEDUCED) -/
def Cause.lanes (x : Cause) (p : PcSlot) : Mask := if x.mask = 0#64 then p.mask else x.mask

/-- The body of a crew record (R390). (log 18, DEDUCED) -/
def crewBody (c : Crew) (k : Bool) (cause : Cause) (pc : DWord) (word : BitVec 96) : List Byte :=
  leBytes 4 cause.word.toNat ++ leBytes 4 c.regc.toNat ++ leBytes 8 (cause.lanes (c.slot k)).toNat ++ leBytes 8 cause.val.toNat ++
    leBytes 8 pc.toNat ++ leBytes 8 (c.slot k).region.toNat ++ leBytes 12 word.toNat ++ leBytes 4 k.toNat ++ leBytes 8 0

/-- A system cause: the crew stalls and a record goes to the queue of its level (R381, R388). -/
def State.stallCrew (s : State) (id : Nat) (cause : Cause) (k : Bool) (pc : DWord) (word : BitVec 96) (dbl step : Bool) : State :=
  match s.crew? id with
  | none => s
  | some c =>
    let c := if step then c else stopFlights s c
    let s := { s.setCrew c with accas := s.accas.filter (fun a => a.crew ≠ id) }
    let s := if (s.core c.core).gateWait.contains id
      then s.modCore c.core (fun k => { k with gateWait := k.gateWait.filter (fun x => x ≠ id) }) else s
    let num := if c.callee then c.dom else c.ctx
    let h := s.mkRecord (if c.callee then some (domQueue (decodeDom c.dent)) else none) num 0 c.ctx (crewSrc c) c.asid (dbl.toNat + c.gates.length * 2)
      (crewBody c k cause pc word) (some id) none
    let (s, seq) := s.postRecord h
    s.modCrew id (fun c => { c with stall := some { queue := if c.callee then c.dom else 0, seq := seq, step := step,
                                                     cause := cause.code, key := if cause.code = 0x18 then some cause.info else none } })

/-! ## Control transfers (R34, R39, R40) -/

/-- Why a checked transfer of some lanes to a PC fails, or the line entered: parity and format, then the PC itself, what the fetch
meets, and the target slot (R39, R58). -/
def State.checkTarget (s : State) (core asid : Nat) (pc : DWord) (mask : Mask) (tgt : Bool) : Res (List Byte) :=
  match s.fetchLine core asid (pcLine pc) with
  | .bad sub => .error (.raise { sysCause 0x04 sub 0 pc mask with atIssue := true })
  | .wait => .error .hold
  | r =>
    if !pcOk pc then .error (.raise (cfi pc mask))
    else
      match r with
      | .xlate f =>
        (match f.lost with
        | some a => .error (.stop (.noSuchPhysical a))
        | none => .error (.raise (xlateCause f.sub (pcLine pc) mask)))
      | .ok line => if tgt && !lineTgt (lineWordOf line) (pcSlot pc) then .error (.raise (cfi pc mask)) else .ok line
      | _ => .error (.raise (poisonCause (pcLine pc) mask))

/-! ## Places that a crew reaches (R160, R161, R400) -/

/-- The crew's part of its core's block memory: the callee's window or the block's allocation (R216, R400). -/
def State.blkPart (s : State) (c : Crew) : Nat × Nat :=
  match c.window with
  | some w => w
  | none =>
    match s.block? c.blk with
    | some b => (b.bmOff, b.bmLen)
    | none => (0, 0)
/-! ## Lent memory (R227, R269, R407) -/

/-- The launch slot with an id. -/
def State.launch? (s : State) (id : Nat) : Option Launch := s.launches.find? (fun l => l.id == id)
/-- Word w of a launch record. -/
def Launch.w (l : Launch) (w : Nat) : Nat := leNat ((l.record.drop (4 * w)).take 4)
/-- LEND of a launch in bytes. -/
def Launch.lend (l : Launch) : Nat := 1024 * bitsOf (l.w 8) 24 16
/-- Block memory that serves as L1 on every core (R414). -/
def State.l1Bytes (s : State) : Nat := match s.mgmt.l1cfg.toNat with
  | 0 => 0
  | 1 => 131072
  | _ => 262144
/-- Block memory of a core that blocks may use. -/
def State.bmLimit (s : State) : Nat := 393216 - s.l1Bytes
/-- Blocks that occupy a core: resident, or terminated with operations still running. -/
def State.onCore (s : State) (core : Nat) : List Block := s.blocks.filter (fun b => b.core == core && (b.place == 0 || b.place == 3))
/-- Bytes of lent memory of a core: the largest LEND of the owner launches with blocks there (R407). -/
def State.lentBytes (s : State) (core : Nat) : Nat :=
  (s.onCore core).foldl (fun m b => if b.harv then m else max m ((s.launch? b.launch).map Launch.lend |>.getD 0)) 0

/-- An owner's access to lent memory of a core, from byte `off` of its block memory up to `top`, is an owner demand (R227, R269). (log 26, DEDUCED) -/
def State.touchLent (s : State) (core blk off top : Nat) : State :=
  let k := s.core core
  if k.lending && k.revoke == 0 && (s.block? blk).any (fun b => !b.harv) && decide (off < s.bmLimit) && decide (s.bmLimit - s.lentBytes core < top) then
    s.modCore core (fun k => { k with revoke := 1 })
  else s

/-! ## Handle entries as a crew reaches them (R160, R400) -/

/-- The bound of a handle entry for a crew: the BOUND of a block-space entry is ignored (R400). (log 25, DEDUCED) -/
def State.boundOf (s : State) (c : Crew) (e : HandleEntry) : Nat := if e.space = 2 then (s.blkPart c).2 else e.bound
/-- The place at an offset of an entry. -/
def State.crewPlace (s : State) (c : Crew) (e : HandleEntry) (off : Nat) (r w : Bool) (tag : Nat) : Except XFail Loc :=
  if e.space = 2 then .ok (.blk c.core ((s.blkPart c).1 + off))
  else
    let va := (e.base + off) % 2 ^ 64
    if canonical va then s.place c.asid va { r := r, w := w, x := false, space := e.space, kd := some e.kd } tag
    else .error { sub := 0, bad := none, lost := none }
/-- How an instruction ends whose translation fails: a wait for a stack or POISON (R422), XLATE with a malformed entry counted (R396), or
a stop where the walk left the implemented addresses. -/
def State.xfailSig (s : State) (f : XFail) (va : Nat) (mask : Mask) : Sig :=
  match f.ready, f.lost with
  | .wait, _ => .hold
  | .dead, _ => .raise (poisonCause va mask)
  | .yes, some a => .stop (.noSuchPhysical a)
  | .yes, none => .raiseIn (s.notePteBad f.bad) (xlateCause f.sub va mask)

/-! ## The divergence stack (R25) -/

/-- The place of record idx, or the cause that a push or a refill meets; a VA that is not canonical counts as past the bound
(R25, R395). -/
def State.dsPlace (s : State) (c : Crew) (idx : Nat) (push : Bool) : Res Loc :=
  let e := s.handle c.asid (dieOfCore c.core) c.ht c.dsh 9
  if !c.dsValid then .error (.raise (sysCause 0x08 0 0 0#64 0#64))
  else if e.wait then .error .hold
  else if !e.valid || !([1, 2, 3, 4, 5, 8].contains e.space) || !e.r || !e.w then
    .error (.raiseIn (s.noteHandle c.asid c.ht c.dsh e) (sysCause 0x0B 0 c.dsh 0#64 0#64))
  else
    let first := match c.dsPart with
      | some p => p.1
      | none => 0
    let limit := match c.dsPart with
      | some p => min (p.1 + p.2) (s.boundOf c e)
      | none => s.boundOf c e
    let off := first + 16 * idx
    let va := (e.base + off) % 2 ^ 64
    if limit < off + 16 || (e.space ≠ 2 && !canonical va) then
      .error (.raise (if push then sysCause 0x08 0 0 0#64 0#64 else sysCause 0x0A 0 0 (BitVec.ofNat 64 va) 0#64))
    else if va % 8 ≠ 0 then .error (.raise (sysCause 0x09 0 0 (BitVec.ofNat 64 va) 0#64))
    else
      match s.crewPlace c e off (!push) push 9 with
      | .error f => .error (s.xfailSig f va 0#64)
      | .ok l =>
        match s.locReady (dieOfCore c.core) l with
        | .wait => .error .hold
        | .dead => if push then .ok l else .error (.raise (poisonCause va 0#64))
        | .yes => if !push && s.locPoison (dieOfCore c.core) l 16 then .error (.raise (poisonCause va 0#64)) else .ok l

/-- A record of a slot: its PC with the parked mark, and its mask (R25). -/
def dsRecord (pc : DWord) (parked : Bool) (m : Mask) : List Byte :=
  leBytes 8 (pc.toNat + (if parked then 8 else 0)) ++ leBytes 8 m.toNat

/-- The stack's handle entry and the translation of a record have been used (R397, R400). -/
def State.noteStack (s : State) (c : Crew) (idx : Nat) : State :=
  let die := dieOfCore c.core
  let e := s.handle c.asid die c.ht c.dsh 9
  let first := match c.dsPart with
    | some p => p.1
    | none => 0
  let s := s.noteEntry c.asid die (entryVa c.ht c.dsh) 32
  if e.space = 2 then s else s.noteTlb c.asid ((e.base + first + 16 * idx) % 2 ^ 64)

/-- Records pushed in order; on a fault nothing is counted (R25, R149), and the dead memory above DEPTH, to which an earlier record of the
same spill may have gone, is as it was (log 42, DESIGN CHOICE). -/
def State.dsPush (s : State) (id : Nat) : List (DWord × Bool × Mask) → Res State
  | [] => .ok s
  | r :: rs =>
    match s.crew? id with
    | none => .ok s
    | some c =>
      match s.dsPlace c c.depth true with
      | .error e => .error e
      | .ok l =>
        let s1 := (s.noteStack c c.depth).store (dieOfCore c.core) l (dsRecord r.1 r.2.1 r.2.2)
        State.dsPush (s1.modCrew id (fun c => { c with depth := c.depth + 1 })) id rs

/-- Both slots are parked at one PC: they merge into the one that parked first (R24 rule 1). -/
def mergeParked (c : Crew) : Option Crew :=
  if c.a.st = .parked ∧ c.b.st = .parked ∧ c.a.pc = c.b.pc then
    if c.a.parkAt ≤ c.b.parkAt then some { c with a := { c.a with mask := c.a.mask ||| c.b.mask }, b := PcSlot.empty }
    else some { c with b := { c.b with mask := c.a.mask ||| c.b.mask }, a := PcSlot.empty }
  else none

/-- A record placed in free slot k, or merged into the other slot when that is parked at its PC (R24 rule 2). The slot counts as one that
has not issued (R22, R262; log 42, DESIGN CHOICE). -/
def refillSlot (c : Crew) (k : Bool) (pc : DWord) (parked : Bool) (m : Mask) (ord : Nat) : Crew :=
  let c := { c with depth := c.depth - 1 }
  let o := c.slot (!k)
  if parked ∧ o.st = .parked ∧ o.pc = pc then c.setSlot (!k) { o with mask := o.mask ||| m }
  else
    let p := { PcSlot.empty with st := if parked then .parked else .running, pc := pc, mask := m, parkAt := ord, issuedAt := 0 }
    let c := c.setSlot k p
    if parked then c else markRegion c k pc

/-- The earlier-parked slot runs on at the instruction after its JOIN (R24 rule 3). -/
def releaseParked (c : Crew) : Option Crew :=
  if c.a.st = .running ∨ c.b.st = .running then none
  else if (c.a.st = .free ∨ c.b.st = .free) ∧ c.depth ≠ 0 then none
  else
    let go := fun k =>
      let p := c.slot k
      let pc := pcNext p.pc
      markRegion (c.setSlot k { p.goto pc with st := .running }) k pc
    if c.a.st = .parked ∧ (c.b.st ≠ .parked ∨ c.a.parkAt ≤ c.b.parkAt) then some (go false)
    else if c.b.st = .parked then some (go true)
    else none

/-- A refill of slot k that faults stalls the crew (R25). -/
def State.failRefill (s : State) (id : Nat) (x : Cause) (k : Bool) : State :=
  let here := s.cur.crew = some id
  let pc := match s.crew? id with
    | some c => (c.slot (!k)).pc
    | none => 0#64
  s.stallCrew id x k (if here then s.cur.pc else pc) (if here then s.cur.word else 0#96) false false

/-- One application of the rules of R24; none when no rule applies. A refill that faults stalls the crew (R25). -/
def State.slotRule (s : State) (id : Nat) : Option State :=
  match s.crew? id with
  | none => none
  | some c =>
    if c.stall.isSome ∨ c.retired then none
    else
      match mergeParked c with
      | some c' => some (s.setCrew c')
      | none =>
        if (c.a.st = .free ∨ c.b.st = .free) ∧ c.depth ≠ 0 then
          let k := c.a.st ≠ .free
          match s.dsPlace c (c.depth - 1) false with
          | .error (.stop _) => none
          | .error .hold => none
          | .error (.holdIn _) => none
          | .error (.raise x) => some (s.failRefill id x k)
          | .error (.raiseIn t x) => some ((s.withNotes t).failRefill id x k)
          | .ok l =>
            let die := dieOfCore c.core
            let s := (s.noteStack c (c.depth - 1)).beforeLoad die l 16
            let bs := s.load die l 16
            let w := leNat (bs.take 8)
            let pc := BitVec.ofNat 64 (w / 64 * 64 + w % 8)
            let c' := refillSlot c k pc (bitOf w 3) (BitVec.ofNat 64 (leNat (bs.drop 8))) s.order
            some { s.setCrew c' with order := s.order + 1 }
        else
          match releaseParked c with
          | some c' => some (s.setCrew c')
          | none => none

/-- The rules of R24 applied in order until none applies; each refill takes a record away. -/
def State.slotRules : Nat → State → Nat → State
  | 0, s, _ => s
  | n + 1, s, id =>
    match s.slotRule id with
    | some s' => State.slotRules n s' id
    | none => s

/-- R24 after a change of slot state. -/
def State.settleSlots (s : State) (id : Nat) : State :=
  match s.crew? id with
  | none => s
  | some c => State.slotRules (2 * c.depth + 6) s id

/-! ## Taking a trap (R384, R385) -/

/-- The value of a special register that an instruction issued now sees: the one before a write whose latency has not passed,
or the one after it; of FPFLAGS, a word of each lane, one or the other in each lane (R60). (log 27, DEDUCED) -/
def seenSr (s : State) (c : Crew) (sr : Nat) (now : List Row) : List Row :=
  c.srOld.foldr (fun o v =>
    if o.sr = sr ∧ s.cycle < o.due then
      if sr = 0x19 then [mkRow (fun l => rowAt ((if s.pick [21, c.id, sr, o.due, l] 2 = 1 then o.rows else v).headD []) l)]
      else if s.pick [21, c.id, sr, o.due] 2 = 1 then o.rows else v
    else v) now
/-- Lane 0 of word i of a special register's rows. -/
def srWord (rows : List Row) (i : Nat) : Word := rowAt (rows.getD i []) 0

/-- TVEC of the crew's current level (R382), as it was before a SETS whose latency has not passed or after it (R60). -/
def State.tvecOf (s : State) (c : Crew) : DWord :=
  let now := match c.tvec with
    | some t => t
    | none => s.ctxTvec c.ctx
  if c.srOld.isEmpty then now
  else
    let rows := seenSr s c 0x23 [[now.setWidth 32], [(now >>> 32).setWidth 32]]
    srWord rows 1 ++ srWord rows 0

/-- Delivery of the oldest queued trap: a checked transfer to TVEC (R385); a failure of the check stalls the crew. (log 18, DEDUCED) -/
def State.deliver (s : State) (id : Nat) : State :=
  match s.crew? id with
  | none => s
  | some c =>
    match c.trapq with
    | [] => s
    | e :: _ =>
      let tv := s.tvecOf c
      match s.checkTarget c.core c.asid tv e.mask true with
      | .ok line =>
        let p := c.slot e.slot
        let c := c.setSlot e.slot { p with st := .running, pc := tv, mask := e.mask, line := line, trapped := false, barWait := none }
        let c := { c with trapcause := e.cause, trapva := e.val, insvc := true, svcSlot := e.slot, skip := false }
        let c := { c with srOld := c.srOld.filter (fun o => o.sr ≠ 0x20) }
        let c := markRegion c e.slot tv
        (s.setCrew c).noteLine c.core c.asid (pcLine tv) line
      | .error (.raise x) =>
        let s := s.noteFetch c.core c.asid (pcLine tv) s
        let here := s.cur.crew = some id ∧ s.cur.slot = e.slot
        s.stallCrew id x e.slot (if here then s.cur.pc else (c.slot e.slot).pc) (if here then s.cur.word else 0#96) false false
      | .error _ => s

/-- TAKING AN EXCEPTION. A crew-level cause is queued behind the crew's earlier traps and delivered when none is in service;
a double fault, a full queue, TVEC 0, BREAK under BRKSYS and every system cause stall the crew with a record (R381, R385). -/
def State.takeCause (s : State) (x : Cause) : State :=
  let s := { s with lastRaise := some x }
  match s.cur.crew with
  | none => s
  | some id =>
    match s.crew? id with
    | none => s
    | some c =>
      let k := s.cur.slot
      let sys := s.stallCrew id x k s.cur.pc s.cur.word false false
      if !x.crew ∨ (x.code = 0x15 ∧ (s.ctxDesc c.ctx).brksys) then sys
      else if c.insvc ∧ c.svcSlot = k then s.stallCrew id x k s.cur.pc s.cur.word true false
      else if c.trapq.length ≥ 8 ∨ s.tvecOf c = 0#64 then sys
      else
        let same := s.cur.first.getD s.cur.pc
        let e : TrapEntry := { cause := x.word, slot := k, val := x.val, ret := if x.next then s.cur.next else same,
                               after := s.cur.next, mask := (c.slot k).mask }
        let p := c.slot k
        let s := s.setCrew { c.setSlot k { p with trapped := true } with trapq := c.trapq ++ [e] }
        if c.insvc then s else s.deliver id

/-! ## Issue (R42 to R46, R58) -/

/-- Latency class of an instruction (R60). -/
inductive Lat where
  | fixed (n : Nat)
  | var
  | none
deriving DecidableEq, Repr

/-- What an instruction body sees: the crew as it issues, its slot, `act`, the registers it reads, and where its
destinations go after queue pushes. -/
structure Ctx where
  id : Nat
  k : Bool
  act : Mask
  pc : DWord
  next : DWord
  /-- the crew after the issue bookkeeping, before the instruction's own effect -/
  c : Crew
  regs : List Row
  flights : List Flight
  queues : List Word
  /-- the registers that the destination fields write, in field order -/
  dst : List Nat
deriving DecidableEq, Repr

/-- The state after an instruction's effect, its register writes, whether it has set its own PC, and the sources that it may still read
until it completes (R61). -/
structure Done where
  s : State
  wr : List Wr
  ctl : Bool
  late : Option Late := none

/-- The fixed part of an instruction's entry: header, guards, operands, latency, marks. -/
structure Spec where
  h : Hdr
  ga : Guard
  gb : Guard
  srcs : List Opnd
  dsts : List Opnd
  lat : Lat
  /-- HINT is honoured (R48) -/
  hint : Bool
  /-- class 0xE (R58 check 5) -/
  priv : Bool
  /-- marked E in R62 -/
  ends : Bool
  /-- squashed at a stop (R367) -/
  squash : Bool
  /-- raises PRIV whatever the privilege: a SETS of a register that is read-only in the user view (R6, R28) -/
  deny : Bool := false
  /-- may raise FPX (R96, R384) -/
  fpx : Bool := false
deriving DecidableEq, Repr

/-- An absent guard (R50). -/
def Guard.none : Guard := { k := 0#3, bit := 0#5, neg := 0#1 }

/-- A guard passes in lane l (R16, R50). -/
def guardPass (s : State) (id : Nat) (regs : List Row) (fl : List Flight) (g : Guard) (l : Nat) : Bool :=
  if g = Guard.none then true
  else Bool.xor ((readLane s id regs fl (248 + g.k.toNat) l).getLsbD g.bit.toNat) (g.neg == 1#1)

/-- `act` of an instruction: the lanes live in the slot that pass both guards (R16). -/
def actOf (s : State) (id : Nat) (regs : List Row) (fl : List Flight) (ga gb : Guard) (m : Mask) : Mask :=
  if ga = Guard.none ∧ gb = Guard.none then m
  else mkMask (fun l => m.getLsbD l && guardPass s id regs fl ga l && guardPass s id regs fl gb l)

/-- The row that a source field delivers, after a queue pop (R19). -/
def Ctx.row (x : Ctx) (s : State) (r : Nat) : Row :=
  match qNamed x.queues r with
  | some i => readRow s x.id x.regs x.flights (qPopReg (x.queues.getD i 0#32))
  | none => readRow s x.id x.regs x.flights r

/-- The register that destination field i writes. -/
def Ctx.d (x : Ctx) (i : Nat) : Nat := x.dst.getD i 0
/-- A row that reads its register directly, without a queue. -/
def Ctx.plain (x : Ctx) (s : State) (r : Nat) : Row := readRow s x.id x.regs x.flights r
/-- The lowest lane of `act`. -/
def Ctx.l0 (x : Ctx) : Nat := lowLane x.act

/-- The crew with MODE and PFMODE as an instruction issued now sees them (R60). -/
def seenCrew (s : State) (c : Crew) : Crew :=
  if c.srOld.isEmpty then c
  else { c with mode := srWord (seenSr s c 0x18 [[c.mode]]) 0, pfmode := srWord (seenSr s c 0x30 [[c.pfmode]]) 0 }

/-- While a trap enable of MODE is set, the issuing slot waits for the completion of an instruction of its own that may raise FPX (R384). -/
def fpxWait (s : State) (c : Crew) : Bool :=
  bitsOf c.mode.toNat 30 26 ≠ 0 && c.flights.any (fun f => f.fpx == some s.cur.slot && !f.due.any (fun d => decide (d ≤ s.cycle)))
/-- The instruction may issue now: STALL, WAIT and SETF (R44, R46), and no FPX to wait for (R384). The second instruction of a pair
issues with the first. -/
def mayIssue (s : State) (c : Crew) (h : Hdr) : Bool :=
  s.cur.first.isSome ||
  (!fpxWait s c && (match c.lastIssue with
    | none => true
    | some p => decide (p + max h.stall.toNat 1 ≤ s.cycle)) &&
   (List.range 12).all (fun i => !h.wait.getLsbD i || c.flags.getD i 0 == 0) &&
   (decide (11 < h.setf.toNat) || decide (c.flags.getD h.setf.toNat 0 < 63)))

/-- The pipe of an operation code (R62); one that R62 does not list raises ILLOP and needs none (R63). -/
def pipeOf (opc : Nat) : Option Pipe :=
  let op := opc % 64
  match opc / 64 with
  | 0 | 1 => some .int
  | 2 => some .fma
  | 3 => some (if op < 0x20 then .fma else .int)
  | 4 => some .dp
  | 5 => some (if op < 0x28 then .sfu else .int)
  | 6 => some .xl
  | 7 => some .br
  | 8 | 9 => some .ls
  | 10 => some .eng
  | 11 => some .fab
  | 12 => some .mx
  | 13 | 14 => some .sys
  | _ => none
/-- Issue interval of a pipe (R59). -/
def Pipe.interval (p : Pipe) : Nat := if p = .dp ∨ p = .sfu then 4 else if p = .xl then 2 else 1
/-- The pipes of the instruction at a slot's PC in its line, or of both instructions of a pair there. -/
def slotPipes (p : PcSlot) : List Pipe :=
  let k := pcSlot p.pc
  let words := if linePair (lineWordOf p.line) k ∧ k < 4 then [slotWordOf p.line k, slotWordOf p.line (k + 1)] else [slotWordOf p.line k]
  words.filterMap (fun w => pipeOf (bitsOf w.toNat 95 86))
/-- What keeps a pipe of a quad from accepting an instruction in this cycle (R59). -/
def State.pipeHeld (s : State) (core quad : Nat) (p : Pipe) : Option PipeUse :=
  (s.core core).pipes.find? (fun u => u.quad == quad && u.pipe == p && decide (s.cycle < u.cyc + p.interval))
/-- Every pipe that the instructions at a slot's PC need can accept them, and no pair of the crew has its second half still to issue
(R42, R59). (log 19, DEDUCED) -/
def State.pipesFree (s : State) (c : Crew) (p : PcSlot) : Bool :=
  (slotPipes p).all (fun q => (s.pipeHeld c.core c.quad q).isNone) &&
    !(s.core c.core).pipes.any (fun u => u.crew == c.id && decide (s.cycle < u.cyc))
/-- A pipe has accepted an instruction. -/
def takePipe (us : List PipeUse) (u : PipeUse) : List PipeUse := u :: us.filter (fun v => !(v.quad == u.quad && v.pipe == u.pipe))
/-- The pipes after an issue at a slot's PC: the second instruction of a pair that needs the pipe of the first is accepted in the first
later cycle in which the pipe can take it (R42, R59). What the checks of issue stop uses no pipe. (log 19, DEDUCED) -/
def State.tookPipes (s : State) (c : Crew) (p : PcSlot) : State :=
  if s.lastRaise.any (fun x => x.atIssue) then s
  else
    let use := fun (q : Pipe) (cyc : Nat) =>
      ({ quad := c.quad, pipe := q, cyc := cyc, crew := c.id, harvest := (s.block? c.blk).any (fun b => b.harv) } : PipeUse)
    s.modCore c.core (fun k => { k with pipes := match slotPipes p with
      | [] => k.pipes
      | [q] => takePipe k.pipes (use q s.cycle)
      | q :: r :: _ => takePipe (takePipe k.pipes (use q s.cycle)) (use r (if r = q then s.cycle + q.interval else s.cycle)) })

/-- Issue-time check 6 on the header and operands (R43, R48, R14, R15). (log 19, DEDUCED) -/
def specBad (sp : Spec) (n : Nat) : Bool :=
  (decide (12 ≤ sp.h.setf.toNat) && decide (sp.h.setf.toNat ≤ 14)) || (!sp.hint && sp.h.hint ≠ 0#2) ||
    !(sp.srcs ++ sp.dsts).all (fun o => o.ok n)

/-- The effects of the issue of a region entry (R30, R364). -/
def issueRegion (c : Crew) (k : Bool) (pc : DWord) (reg : Bool) : Crew :=
  if reg then markRegion { c with regc := c.regc + 1#32 } k pc else c

/-- The flag that an instruction counts (R46). -/
def flagOf (h : Hdr) : Option Nat := if h.setf.toNat ≤ 11 then some h.setf.toNat else none

/-- The crew with its instruction's flag raised by one, and what the pair's first instruction has in flight giving way to the second's
writes (R42, R46). (log 19, DEDUCED) -/
def countCrew (s : State) (sp : Spec) (wr : List Wr) (c : Crew) : Crew :=
  { c with
    flags := (match flagOf sp.h with
      | some i => c.flags.set i (c.flags.getD i 0 + 1)
      | none => c.flags),
    flights := (match s.cur.snap with
      | some sn => wr.foldl (fun fl w => yieldTo sn.flights fl w) c.flights
      | none => c.flights) }

/-- The writes of an instruction put into the file with the old rows kept for their latency, or put into flight (R45, R46, R60). -/
def landCrew (s : State) (before : List Row) (sp : Spec) (wr : List Wr) (c : Crew) : Crew :=
  let mk := fun due (ws : List Alt) => { id := s.order, flag := flagOf sp.h, due := due, writes := ws, squash := sp.squash,
                                         fpx := if sp.fpx then some s.cur.slot else none : Flight }
  match sp.lat with
  | .fixed n =>
    let olds := wr.map (fun w => { reg := w.reg, row := before.getD w.reg Row.zero, mask := w.mask, bits := w.bits, raced := [] : Alt })
    let c := wr.foldl (fun c w => putWr s c (s.cycle + n) w) c
    { c with flights := mk (some (s.cycle + n)) olds :: c.flights }
  | .var =>
    let news := wr.map (fun w => { reg := w.reg, row := w.row, mask := w.mask, bits := w.bits, raced := [] : Alt })
    { c with flights := mk none news :: c.flights }
  | .none =>
    let c := wr.foldl (fun c w => putWr s c s.cycle w) c
    if (flagOf sp.h).isSome then { c with flights := mk none [] :: c.flights } else c

/-- The register writes of an instruction take effect or go into flight (R45, R46, R60). -/
def commit (s : State) (id : Nat) (sp : Spec) (wr : List Wr) : State :=
  match s.crew? id with
  | none => s
  | some c =>
    let before := match s.cur.snap with
      | some sn => sn.regs
      | none => c.regs
    s.setCrew (landCrew s before sp wr (countCrew s sp wr c))

/-- The state in which an issue is decided: a fresh stamp for its free choices, no cause and no mark yet. (log 37, DEDUCED) -/
def State.opening (s : State) : State := { s with free := s.free + 1, lastRaise := none, heldMark := false }
/-- The crew at the cursor, those of its instructions whose cycle has passed being complete. (log 37, DEDUCED) -/
def State.atCursor? (s : State) : Option Crew :=
  match s.cur.crew with
  | none => none
  | some id => (s.crew? id).map (settle s)
/-- The second instruction of a pair goes on from the queues that the first one leaves (R42), and from its draws of RNGSEED (R141). -/
def leftCrew (s : State) (c : Crew) : Crew :=
  match s.cur.snap with
  | some sn => (match sn.left with
    | some p => { c with queues := p.1, rng := p.2 }
    | none => c)
  | none => c
/-- The queue state that the issuing instruction starts from: a SETSP of QSTATE whose latency has not passed may show or not (R60). -/
def startCrew (s : State) (c : Crew) : Crew :=
  let c := leftCrew s c
  if c.srOld.isEmpty then c
  else { c with queues := (List.range 8).map (fun i => srWord (seenSr s c (0x10 + i) [[c.queues.getD i 0#32]]) 0) }
/-- The crew as the instruction at the cursor finds it. (log 37, DEDUCED) -/
def State.issuer? (s : State) : Option Crew := s.atCursor?.map (startCrew s)
/-- The registers and instructions in flight that the operands are read from: for the second of a pair, those before the pair (R42). -/
def readsOf (s : State) (c : Crew) : List Row × List Flight :=
  match s.cur.snap with
  | some sn => (sn.regs, sn.flights)
  | none => (c.regs, c.flights)
/-- The issuing crew with the region entry that the issue makes (R30, R364). -/
def entryCrew (s : State) (c : Crew) : Crew := issueRegion c s.cur.slot s.cur.pc s.cur.reg
/-- The queue states and destination registers after the pops and pushes of an instruction (R19). -/
def queuedFor (c : Crew) (sp : Spec) : List Word × List Nat × Option Nat :=
  pushAll (afterPops c.queues (popsOf c.queues sp.srcs)) sp.dsts
/-- The queues after an issue that takes them from `c.queues` to `qs`: a queue that the issue changes while a SETSP of it is on its way
ends with either value, and one that it leaves alone stays as the SETSP has set it (R45, R60). -/
def queuesAfter (s : State) (c : Crew) (qs : List Word) : List Word :=
  if c.srOld.isEmpty then qs
  else
    let set := match s.atCursor? with
      | some c => (leftCrew s c).queues
      | none => c.queues
    (List.range 8).map (fun i =>
      let was := set.getD i 0#32
      let q := qs.getD i 0#32
      if q = c.queues.getD i 0#32 then was
      else if c.srOld.any (fun o => o.sr == 0x10 + i && decide (s.cycle < o.due)) && s.pick [54, c.id, i] 2 == 1 then was else q)
/-- The SETSPs still on their way once an issue has changed queues: none of a queue changed. -/
def oldsAfter (c : Crew) (qs : List Word) : List SrOld :=
  c.srOld.filter (fun o => !(decide (0x10 ≤ o.sr) && decide (o.sr ≤ 0x17) && qs.getD (o.sr - 0x10) 0#32 ≠ c.queues.getD (o.sr - 0x10) 0#32))
/-- The issuing crew after the bookkeeping of the issue: the queues popped and pushed, the slot and the cycle noted. -/
def issueCrew (s : State) (c : Crew) (sp : Spec) : Crew :=
  let k := s.cur.slot
  let named := (sp.srcs ++ sp.dsts).any (fun o => o.size == 1 && (qNamed c.queues o.reg).isSome)
  let p := (entryCrew s c).slot k
  let qs := (queuedFor c sp).1
  { (entryCrew s c).setSlot k { p with issuedAt := s.order, qnamed := if named then some s.order else p.qnamed } with
    queues := queuesAfter s c qs, srOld := oldsAfter c qs, lastIssue := some s.cycle, lastEver := some s.cycle }
/-- What the body of the issuing instruction sees. -/
def issueCtx (s : State) (c : Crew) (sp : Spec) : Ctx :=
  let rd := readsOf s c
  { id := c.id, k := s.cur.slot, act := actOf s c.id rd.1 rd.2 sp.ga sp.gb (c.slot s.cur.slot).mask, pc := s.cur.pc, next := s.cur.next,
    c := seenCrew s (issueCrew s c sp), regs := rd.1, flights := rd.2, queues := c.queues, dst := (queuedFor c sp).2.1 }
/-- The sources that the instruction just issued may still read until it completes, whether or not it counts in a flag (R61). -/
def lateCrew (order : Nat) (late : Option Late) (c : Crew) : Crew :=
  if late.isNone then c
  else if c.flights.any (fun f => f.id == order) then
    { c with flights := c.flights.map (fun f => if f.id = order then { f with late := late } else f) }
  else { c with flights := { id := order, flag := none, due := none, writes := [], squash := false, fpx := none, late := late } :: c.flights }
/-- The end of an instruction that completes its issue: its writes, the PC next in sequence unless it has set its own, a region
entry after an E instruction (R62, R364), and the rules of R24. -/
def issueEnd (s : State) (c : Crew) (sp : Spec) (d : Done) : State :=
  let k := s.cur.slot
  let s1 := (commit d.s c.id sp d.wr).modCrew c.id (lateCrew d.s.order d.late)
  let s2 := s1.modCrew c.id (fun c =>
    let c := if d.ctl then c else c.setSlot k ((c.slot k).goto s.cur.next)
    if sp.ends && !d.ctl then markRegion c k s.cur.next else c)
  { s2 with order := s2.order + 1 }.settleSlots c.id
/-- The crew when its instruction raises a cause found in execution: the region entry's bookkeeping and the issue itself remain,
the queues, draws and writes do not (R30, R42, R44, R58). -/
def raisedCrew (s : State) : Option Crew :=
  s.atCursor?.map (fun c =>
    let k := s.cur.slot
    let p := (entryCrew s c).slot k
    { (entryCrew s c).setSlot k { p with issuedAt := s.order } with lastIssue := some s.cycle, lastEver := some s.cycle })
/-- The end of an instruction that does not complete: it waits, stops, or raises; a cause found in execution leaves the region
entry's bookkeeping and counts as an issue (R30, R44, R46, R58). `qs` is the queue state it would have left. -/
def issueStop (s : State) (qs : List Word) : Sig → Out
  | .hold => .next { s with heldMark := true }
  | .holdIn s1 => .next { s with heldMark := true, cores := s1.cores }
  | .stop f => .fault f
  | .raiseIn s1 r =>
    if r.atIssue then .next ((s.withNotes s1).takeCause r)
    else match raisedCrew s with
    | some c => .next ({ s1.modCrew c.id (fun x => { c with ocnt := x.ocnt, errs := x.errs }) with order := s.order + 1 }.takeCause { r with queues := qs })
    | none => .fault .noIssuer
  | .raise r =>
    if r.atIssue then .next (s.takeCause r)
    else match raisedCrew s with
      | some c => .next ({ s.setCrew c with order := s.order + 1 }.takeCause { r with queues := qs })
      | none => .fault .noIssuer

/-- ISSUE of a crew instruction from the cursor. `bad` is the entry's part of check 6; `body` is the effect. An instruction
that is not eligible leaves the state unchanged but for the mark; a cause found by the checks has no effect but its own
delivery; a cause found in execution leaves only the region entry's bookkeeping (R30, R46, R58). (log 19, DEDUCED) -/
def issue (sp : Spec) (bad : Crew → Bool) (body : Ctx → State → Res Done) (s0 : State) : Out :=
  let s := s0.opening
  match s.issuer? with
  | none => .fault .noIssuer
  | some c =>
    if !mayIssue s c sp.h then .next { s with heldMark := true }
    else if sp.deny ∨ (sp.priv ∧ c.priv ≠ 2) then .next (s.takeCause privCause)
    else if specBad sp c.n ∨ bad (seenCrew s c) then .next (s.takeCause illField)
    else
      match queueFault c.queues sp.srcs sp.dsts with
      | some q => .next (s.takeCause (queueCause q (c.queues.getD q 0#32)))
      | none =>
        match body (issueCtx s c sp) (s.setCrew (issueCrew s c sp)) with
        | .error e => issueStop s (queuedFor c sp).1 e
        | .ok d => .next (issueEnd s c sp d)

/-- The body of an instruction that only writes registers. -/
def justWrite (f : Ctx → State → List Wr) : Ctx → State → Res Done :=
  fun x s => .ok { s := s, wr := f x s, ctl := false }

end Sys2Proof.Machine
end

