-- ==== Sys2Proof/Machine/Number.lean ====
section
/-!
DEFINITION. Number.lean: the number formats, exact arithmetic on them, and round_to (spec 04 R77 to R93; 06 R131, R132).
A finite value is a sign, a natural number m and a binary exponent e, with a mark that says the exact value lies strictly
between m and m + 1 units of 2^e; results that are not dyadic carry far more bits than any format keeps.
-/

namespace Sys2Proof.Machine

open Sys2Proof

/-! ## Formats (R77 to R82, R133) -/

/-- The formats of R77 and R82, with the codes of R133. -/
inductive NFmt where
  | f32
  | f64
  | f16
  | bf16
  | e4m3
  | e5m2
  | e2m1
  | i32
  | n32
  | i16
  | n16
  | i8
  | n8
  | i4
  | i64
  | n64
deriving DecidableEq, Repr

/-- The format of a code of R133. -/
def NFmt.ofCode (c : Nat) : NFmt :=
  match c with
  | 0 => .f32
  | 1 => .f64
  | 2 => .f16
  | 3 => .bf16
  | 4 => .e4m3
  | 5 => .e5m2
  | 6 => .e2m1
  | 7 => .i32
  | 8 => .n32
  | 9 => .i16
  | 10 => .n16
  | 11 => .i8
  | 12 => .n8
  | 13 => .i4
  | 14 => .i64
  | _ => .n64

/-- Width in bits. -/
def NFmt.width : NFmt → Nat
  | .f64 | .i64 | .n64 => 64
  | .f32 | .i32 | .n32 => 32
  | .f16 | .bf16 | .i16 | .n16 => 16
  | .e4m3 | .e5m2 | .i8 | .n8 => 8
  | .e2m1 | .i4 => 4
/-- A floating format. -/
def NFmt.isFloat : NFmt → Bool
  | .f32 | .f64 | .f16 | .bf16 | .e4m3 | .e5m2 | .e2m1 => true
  | _ => false
/-- A signed integer format. -/
def NFmt.isSigned : NFmt → Bool
  | .i32 | .i16 | .i8 | .i4 | .i64 => true
  | _ => false
/-- Fraction bits F. -/
def NFmt.frac : NFmt → Nat
  | .f64 => 52
  | .f32 => 23
  | .f16 => 10
  | .bf16 => 7
  | .e4m3 => 3
  | .e5m2 => 2
  | .e2m1 => 1
  | _ => 0
/-- Exponent bias. -/
def NFmt.bias : NFmt → Nat
  | .f64 => 1023
  | .f32 | .bf16 => 127
  | .f16 | .e5m2 => 15
  | .e4m3 => 7
  | .e2m1 => 1
  | _ => 0
/-- The code of +infinity, where the format has one (R78). -/
def NFmt.inf? : NFmt → Option Nat
  | .f64 => some 0x7FF0000000000000
  | .f32 => some 0x7F800000
  | .f16 => some 0x7C00
  | .bf16 => some 0x7F80
  | .e5m2 => some 0x7C
  | _ => none
/-- The canonical NaN, where the format has a NaN (R78). -/
def NFmt.nan? : NFmt → Option Nat
  | .f64 => some 0x7FF8000000000000
  | .f32 => some 0x7FC00000
  | .f16 => some 0x7E00
  | .bf16 => some 0x7FC0
  | .e4m3 => some 0x7F
  | .e5m2 => some 0x7E
  | _ => none
/-- The code of the largest finite value (R78). -/
def NFmt.maxCode : NFmt → Nat
  | .f64 => 0x7FEFFFFFFFFFFFFF
  | .f32 => 0x7F7FFFFF
  | .f16 => 0x7BFF
  | .bf16 => 0x7F7F
  | .e4m3 => 0x7E
  | .e5m2 => 0x7B
  | .e2m1 => 0x7
  | _ => 0
/-- FTZI and FTZO apply to the format (R89). -/
def NFmt.flushes : NFmt → Bool
  | .f32 | .f16 | .bf16 => true
  | _ => false
/-- Exponent of the smallest normal value. -/
def NFmt.emin (f : NFmt) : Int := 1 - (f.bias : Int)

/-- An exact value, or a special one. `st`: strictly between m and m + 1 units. -/
inductive Val where
  | nan (sig : Bool)
  | inf (neg : Bool)
  | fin (neg : Bool) (m : Nat) (e : Int) (st : Bool)
deriving DecidableEq, Repr

/-- Zero of a sign. -/
def Val.zero (neg : Bool) : Val := .fin neg 0 0 false
/-- The value is a NaN. -/
def Val.isNan : Val → Bool
  | .nan _ => true
  | _ => false
/-- The value is a signalling NaN. -/
def Val.isSnan : Val → Bool
  | .nan s => s
  | _ => false
/-- The sign of a value; NaN has none. -/
def Val.neg : Val → Bool
  | .nan _ => false
  | .inf n => n
  | .fin n _ _ _ => n
/-- The value with its sign cleared. -/
def Val.abs : Val → Val
  | .nan s => .nan s
  | .inf _ => .inf false
  | .fin _ m e st => .fin false m e st
/-- The value is a zero. -/
def Val.isZero : Val → Bool
  | .fin _ m _ st => m == 0 && !st
  | _ => false

/-- The exact value of a code (R77 to R79, R82). -/
def NFmt.decode (f : NFmt) (c : Nat) : Val :=
  if f.isFloat then
    let neg := bitOf c (f.width - 1)
    let mag := c % 2 ^ (f.width - 1)
    let fr := mag % 2 ^ f.frac
    let ex := mag / 2 ^ f.frac
    if mag ≤ f.maxCode then
      if ex = 0 then .fin neg fr (f.emin - f.frac) false
      else .fin neg (2 ^ f.frac + fr) ((ex : Int) - f.bias - f.frac) false
    else if f.inf? = some mag then .inf neg
    else .nan (f != .e4m3 && !bitOf fr (f.frac - 1))
  else
    let x := if f.isSigned then svalN c f.width else ((c % 2 ^ f.width : Nat) : Int)
    .fin (decide (x < 0)) x.natAbs 0 false

/-- A subnormal code (R77). -/
def NFmt.subnormal (f : NFmt) (c : Nat) : Bool :=
  let mag := c % 2 ^ (f.width - 1)
  f.isFloat && decide (0 < mag) && decide (mag < 2 ^ f.frac)
/-- FTZI on a source code (R89). -/
def NFmt.flushIn (f : NFmt) (ftzi : Bool) (c : Nat) : Nat :=
  if ftzi && f.flushes && f.subnormal c then c / 2 ^ (f.width - 1) * 2 ^ (f.width - 1) else c

/-! ## Rounding controls (R84 to R86) -/

/-- RND, SAT and FTZO as they govern one result (R85, R86). -/
structure Ctl where
  rnd : Nat
  sat : Bool
  ftzo : Bool
deriving DecidableEq, Repr

/-- The control named rne (R86). -/
def Ctl.rne : Ctl := { rnd := 0, sat := false, ftzo := false }
/-- MODE.FTZI. -/
def modeFtzi (md : Word) : Bool := md.getLsbD 24
/-- MODE.FTZO. -/
def modeFtzo (md : Word) : Bool := md.getLsbD 25
/-- mode.fmt of R86, with RND as the field holds it. -/
def NFmt.ctl (f : NFmt) (md : Word) : Ctl :=
  let pos := match f with
    | .f32 | .f64 => 0
    | .f16 | .bf16 => 4
    | .e4m3 => 8
    | .e5m2 => 12
    | .e2m1 => 16
    | _ => 20
  { rnd := bitsOf md.toNat (pos + 2) pos, sat := f != .e2m1 && md.getLsbD (pos + 3), ftzo := modeFtzo md && f.flushes }
/-- The control of an arithmetic result: RND 5 acts as RNE (R86). -/
def NFmt.arith (f : NFmt) (md : Word) : Ctl :=
  let c := f.ctl md
  { c with rnd := if c.rnd = 5 then 0 else c.rnd }
/-- mode.fn of R131. -/
def ctlFn (md : Word) : Ctl := { NFmt.f32.ctl md with rnd := 0 }

/-! ## Flags (R94) -/

/-- NX. -/
abbrev flNX : Nat := 1
/-- UF. -/
abbrev flUF : Nat := 2
/-- OF. -/
abbrev flOF : Nat := 4
/-- DZ. -/
abbrev flDZ : Nat := 8
/-- NV. -/
abbrev flNV : Nat := 16
/-- TINV. -/
abbrev flTINV : Nat := 32
/-- SAT. -/
abbrev flSAT : Nat := 64

/-! ## round_to (R87 to R90) -/

/-- Number of bits of m. -/
def bitLen (m : Nat) : Nat := if m = 0 then 0 else m.log2 + 1

/-- Whether the magnitude moves up from a, given the remainder of sh bits below it and the mark (R85, R90). -/
def roundUp (rnd : Nat) (neg : Bool) (a rem sh : Nat) (st : Bool) (draw : Nat) : Bool :=
  let exact := rem == 0 && !st
  let half := 2 ^ sh
  match rnd with
  | 1 => false
  | 2 => !neg && !exact
  | 3 => neg && !exact
  | 4 => decide (half ≤ 2 * rem) && decide (0 < sh)
  | 5 => decide (65536 ≤ draw + rem * 65536 / half)
  | _ => decide (half < 2 * rem) || (2 * rem == half && (st || a % 2 == 1))

/-- A finite value rounded to a multiple of 2^q: the multiple and whether it is inexact. -/
def roundAt (rnd : Nat) (neg : Bool) (m : Nat) (e : Int) (st : Bool) (q : Int) (draw : Nat) : Nat × Bool :=
  if q ≤ e then (m * 2 ^ (e - q).toNat, st)
  else
    let sh := (q - e).toNat
    let a := m / 2 ^ sh
    let rem := m % 2 ^ sh
    (if roundUp rnd neg a rem sh st draw then a + 1 else a, rem != 0 || st)

/-- Compare m * 2^q with k * 2^r. -/
def magLt (k : Nat) (r : Int) (m : Nat) (q : Int) : Bool :=
  if r ≤ q then decide (k < m * 2 ^ (q - r).toNat) else decide (k * 2 ^ (r - q).toNat < m)

/-- round_to for floating destinations (R87, R88, R89): code and flags. -/
def roundFloat (f : NFmt) (c : Ctl) (draw : Nat) (v : Val) : Nat × Nat :=
  let sg := fun (neg : Bool) (code : Nat) => if neg then code + 2 ^ (f.width - 1) else code
  match v with
  | .nan sig =>
    match f.nan? with
    | some n => (n, if sig then flNV else 0)
    | none => (0, flNV)
  | .inf neg =>
    match f.inf?, c.sat with
    | some n, false => (sg neg n, 0)
    | some _, true => (sg neg f.maxCode, flSAT)
    | none, sat =>
      match f.nan? with
      | some n => if sat then (sg neg f.maxCode, flSAT) else (n, 0)
      | none => (sg neg f.maxCode, flSAT)
  | .fin neg m e st =>
    if m = 0 && !st then (sg neg 0, 0)
    else
      let top := e + bitLen m - 1
      let low := f.emin - f.frac
      let q := max (top - f.frac) low
      let (mag, inex) := roundAt c.rnd neg m e st q draw
      let mx := f.maxCode
      let big := magLt (2 ^ f.frac + mx % 2 ^ f.frac) ((mx / 2 ^ f.frac : Nat) - (f.bias : Int) - f.frac) mag q
      if big then
        match f.inf?, f.nan? with
        | some n, _ =>
          if c.sat then (sg neg mx, flOF + flNX + flSAT)
          else if c.rnd = 1 ∨ (c.rnd = 2 ∧ neg) ∨ (c.rnd = 3 ∧ !neg) then (sg neg mx, flOF + flNX)
          else (sg neg n, flOF + flNX)
        | none, some n => if c.sat then (sg neg mx, flOF + flNX + flSAT) else (n, flOF + flNX)
        | none, none => (sg neg mx, flOF + flNX + flSAT)
      else
        let tiny := q == low && decide (mag < 2 ^ f.frac)
        if tiny && c.ftzo then (sg neg 0, flUF + flNX)
        else
          (sg neg ((q - low).toNat * 2 ^ f.frac + mag),
           (if inex then flNX else 0) + (if tiny && inex then flUF else 0))

/-- round_to for integer destinations (R87); `fromInt`: the source is an integer. -/
def roundInt (f : NFmt) (c : Ctl) (draw : Nat) (fromInt : Bool) (v : Val) : Nat × Nat :=
  let n := f.width
  let indef := if f.isSigned then 2 ^ (n - 1) else 2 ^ n - 1
  let top := if f.isSigned then 2 ^ (n - 1) - 1 else 2 ^ n - 1
  let bot := if f.isSigned then 2 ^ (n - 1) else 0
  match v with
  | .nan _ => if c.sat then (0, flNV) else (indef, flNV)
  | .inf neg => if c.sat then (if neg then (bot, flSAT) else (top, flSAT)) else (indef, flNV)
  | .fin neg m e st =>
    let (mag, inex) := roundAt c.rnd neg m e st 0 draw
    let outside := if neg then decide (bot < mag) else decide (top < mag)
    let code := if neg then (2 ^ n - mag % 2 ^ n) % 2 ^ n else mag % 2 ^ n
    if !outside then (code, if inex then flNX else 0)
    else if fromInt then
      if c.sat then (if neg then bot else top, flSAT) else (code, 0)
    else if c.sat then (if neg then bot else top, flSAT + flNX)
    else (indef, flNV)

/-- round_to (R87): the code and the flags. -/
def roundTo (f : NFmt) (c : Ctl) (draw : Nat) (fromInt : Bool) (v : Val) : Nat × Nat :=
  if f.isFloat then roundFloat f c draw v else roundInt f c draw fromInt v

/-! ## The generator (R90) -/

/-- One Galois step of RNGSEED. -/
def rngStep (s : Word) : Word := if s.getLsbD 0 then (s >>> 1) ^^^ 0x80200003#32 else s >>> 1
/-- n steps. -/
def rngSteps : Nat → Word → Word
  | 0, s => s
  | n + 1, s => rngSteps n (rngStep s)
/-- A draw: the new state, whose low 16 bits are the number drawn. -/
def rngDraw (s : Word) : Word := rngSteps 16 (if s = 0#32 then 1#32 else s)

/-! ## Exact arithmetic (R124, R127, R128) -/

/-- A value with the flags raised before its rounding. -/
structure RV where
  v : Val
  fl : Nat
deriving DecidableEq, Repr

/-- Flags of signalling sources (R94, R124). -/
def snanFl (vs : List Val) : Nat := if vs.any Val.isSnan then flNV else 0
/-- A finite value as an integer number of units of 2^g. -/
def unitsAt (neg : Bool) (m : Nat) (e g : Int) : Int :=
  let x : Int := ((m * 2 ^ (e - g).toNat : Nat) : Int)
  if neg then -x else x

/-- Sum of two values; `rdn`: the rounding direction is RDN, for the sign of an exact zero sum (R124). -/
def addV (rdn : Bool) (a b : Val) : RV :=
  match a, b with
  | .nan _, _ | _, .nan _ => { v := .nan false, fl := snanFl [a, b] }
  | .inf x, .inf y => if x = y then { v := .inf x, fl := 0 } else { v := .nan false, fl := flNV }
  | .inf x, .fin _ _ _ _ => { v := .inf x, fl := 0 }
  | .fin _ _ _ _, .inf y => { v := .inf y, fl := 0 }
  | .fin n1 m1 e1 _, .fin n2 m2 e2 _ =>
    let g := min e1 e2
    let x := unitsAt n1 m1 e1 g + unitsAt n2 m2 e2 g
    if x = 0 then { v := .zero (if m1 = 0 ∧ m2 = 0 ∧ n1 = n2 then n1 else rdn), fl := 0 }
    else { v := .fin (decide (x < 0)) x.natAbs g false, fl := 0 }

/-- Product of two values. -/
def mulV (a b : Val) : RV :=
  match a, b with
  | .nan _, _ | _, .nan _ => { v := .nan false, fl := snanFl [a, b] }
  | .inf x, .inf y => { v := .inf (x != y), fl := 0 }
  | .inf x, .fin n m _ _ => if m = 0 then { v := .nan false, fl := flNV } else { v := .inf (x != n), fl := 0 }
  | .fin n m _ _, .inf y => if m = 0 then { v := .nan false, fl := flNV } else { v := .inf (n != y), fl := 0 }
  | .fin n1 m1 e1 _, .fin n2 m2 e2 _ => { v := .fin (n1 != n2) (m1 * m2) (e1 + e2) false, fl := 0 }

/-- a * b + c with the product not rounded; 0 * infinity sets NV whatever c is (R124). -/
def fmaV (rdn : Bool) (a b c : Val) : RV :=
  let p := mulV a b
  let r := addV rdn p.v c
  { v := r.v, fl := p.fl ||| r.fl ||| snanFl [c] }

/-- The opposite of a value. -/
def Val.negate : Val → Val
  | .nan s => .nan s
  | .inf n => .inf (!n)
  | .fin n m e st => .fin (!n) m e st

/-- Order of two values that are not NaN: less, with -0 = +0. -/
def ltV (a b : Val) : Bool :=
  match a, b with
  | .nan _, _ | _, .nan _ => false
  | .inf x, .inf y => x && !y
  | .inf x, .fin _ _ _ _ => x
  | .fin _ _ _ _, .inf y => !y
  | .fin n1 m1 e1 _, .fin n2 m2 e2 _ => let g := min e1 e2; decide (unitsAt n1 m1 e1 g < unitsAt n2 m2 e2 g)
/-- Equality of two values that are not NaN. -/
def eqV (a b : Val) : Bool := !a.isNan && !b.isNan && !ltV a b && !ltV b a

/-- fmin and fmax on codes of a format, after FTZI (R125): code and flags. -/
def minMax (f : NFmt) (isMin ftzo : Bool) (a b : Nat) : Nat × Nat :=
  let x := f.decode a
  let y := f.decode b
  let less := ltV x y || (eqV x y && x.neg && !y.neg)
  let r :=
    if x.isNan && y.isNan then f.nan?.getD 0
    else if x.isNan then b
    else if y.isNan then a
    else if isMin then (if less then a else b) else (if less then b else a)
  let nv := snanFl [x, y]
  if ftzo && f.flushes && f.subnormal r then (r / 2 ^ (f.width - 1) * 2 ^ (f.width - 1), nv ||| flUF ||| flNX) else (r, nv)

/-- Class of a code, as the word of R129. -/
def classify (f : NFmt) (c : Nat) : Nat :=
  match f.decode c with
  | .nan true => 1
  | .nan false => 2
  | .inf true => 4
  | .inf false => 512
  | .fin neg m _ _ =>
    if m = 0 then (if neg then 32 else 64)
    else if f.subnormal c then (if neg then 16 else 128)
    else if neg then 8 else 256

/-! ## Quotients and roots, to more bits than any format keeps -/

/-- Exact quotient of two positive finite magnitudes: at least 200 bits, and the mark when it is not exact. -/
def divM (neg : Bool) (m1 : Nat) (e1 : Int) (m2 : Nat) (e2 : Int) : Val :=
  let k := 200 + bitLen m2
  let x := m1 * 2 ^ k
  .fin neg (x / m2) (e1 - e2 - k) (x % m2 != 0)

/-- The integer square root, bit by bit from bit n - 1 down. -/
def isqrtBits : Nat → Nat → Nat → Nat
  | 0, _, r => r
  | n + 1, x, r => let t := r + 2 ^ n; isqrtBits n x (if t * t ≤ x then t else r)
/-- The integer square root. -/
def isqrt (x : Nat) : Nat := isqrtBits (bitLen x / 2 + 1) x 0

/-- The result of a special function: an infinity is a special value, which stands as R131 lists it whatever SAT is; any other
value is rounded. -/
def RV.rounded (f : NFmt) (c : Ctl) (r : RV) : Nat × Nat :=
  let y := roundFloat f (match r.v with
    | .inf _ => { c with sat := false }
    | _ => c) 0 r.v
  (y.1, y.2 ||| r.fl)

/-- rcp (R131): value and flags. -/
def rcpV (v : Val) : RV :=
  match v with
  | .nan s => { v := .nan false, fl := if s then flNV else 0 }
  | .inf n => { v := .zero n, fl := 0 }
  | .fin n m e _ => if m = 0 then { v := .inf n, fl := flDZ } else { v := divM n 1 0 m e, fl := 0 }

/-- sqrt (R131): value and flags. -/
def sqrtV (v : Val) : RV :=
  match v with
  | .nan s => { v := .nan false, fl := if s then flNV else 0 }
  | .inf n => if n then { v := .nan false, fl := flNV } else { v := .inf false, fl := 0 }
  | .fin n m e _ =>
    if m = 0 then { v := .zero n, fl := 0 }
    else if n then { v := .nan false, fl := flNV }
    else
      let k : Nat := 256 + (if e % 2 = 0 then 0 else 1)
      let x := m * 2 ^ k
      let r := isqrt x
      { v := .fin false r ((e - k) / 2) (r * r != x), fl := 0 }

/-- rsqrt (R131): value and flags. -/
def rsqrtV (v : Val) : RV :=
  match v with
  | .nan s => { v := .nan false, fl := if s then flNV else 0 }
  | .inf n => if n then { v := .nan false, fl := flNV } else { v := .zero false, fl := 0 }
  | .fin n m e _ =>
    if m = 0 then { v := .inf n, fl := flDZ }
    else if n then { v := .nan false, fl := flNV }
    else
      let k : Nat := 320 + (if e % 2 = 0 then 0 else 1)
      let x := 2 ^ k / m
      let r := isqrt x
      { v := .fin false r ((-e - k) / 2) (r * r * m != 2 ^ k), fl := 0 }

/-! ## Transcendental functions, in fixed point with 320 fraction bits -/

/-- Fraction bits of the fixed-point numbers. (log 11, DEDUCED) -/
abbrev fpBits : Nat := 320
/-- One. -/
def fpOne : Nat := 2 ^ fpBits
/-- floor(ln 2 * 2^512). -/
def ln2Fix : Nat :=
  0xb17217f7d1cf79abc9e3b39803f2f6af40f343267298b62d8a0d175b8baafa2be7b876206debac98559552fb4afa1b10ed2eae35c138214427573b291169b825
/-- floor(pi / 2 * 2^512). -/
def halfPiFix : Nat :=
  0x1921fb54442d18469898cc51701b839a252049c1114cf98e804177d4c76273644a29410f31c6809bbdf2a33679a748636605614dbe4be286e9fc26adadaa3848b
/-- Bound on the error of a fixed-point result, in units of its last bit. -/
def fpErr : Nat := 2 ^ 40

/-- Sum of y^k / k! from a term on. -/
def expSum : Nat → Nat → Nat → Nat → Nat → Nat
  | 0, _, _, _, acc => acc
  | n + 1, k, y, t, acc => let t' := t * y / fpOne / k; expSum n (k + 1) y t' (acc + t')
/-- 2^f for a fraction f. -/
def exp2Frac (f : Nat) : Nat := expSum 90 1 (f * ln2Fix / 2 ^ 512) fpOne fpOne

/-- Sum of t^(2k+1) / (2k+1). -/
def atanhSum : Nat → Nat → Int → Int → Int → Int
  | 0, _, _, _, acc => acc
  | n + 1, k, t2, p, acc => atanhSum n (k + 1) t2 (p * t2 / 2 ^ fpBits) (acc + p / (2 * k + 1))
/-- log2 of z = zn / 2^fpBits with 3/4 ≤ z < 3/2. -/
def log2Frac (zn : Nat) : Int :=
  let t : Int := ((zn : Int) - fpOne) * 2 ^ fpBits / ((zn : Int) + fpOne)
  atanhSum 80 0 (t * t / 2 ^ fpBits) t 0 * 2 * 2 ^ 512 / ln2Fix

/-- Alternating sum of r^k / k!, every second term. -/
def trigSum : Nat → Nat → Int → Int → Int → Int
  | 0, _, _, _, acc => acc
  | n + 1, k, r2, t, acc =>
    let t' := -(t * r2 / 2 ^ fpBits / ((k + 1) * (k + 2)))
    trigSum n (k + 2) r2 t' (acc + t')
/-- sin r for 0 ≤ r < pi/2. -/
def sinFix (r : Nat) : Int := trigSum 45 1 ((r * r : Nat) / 2 ^ fpBits) r r
/-- cos r for 0 ≤ r < pi/2. -/
def cosFix (r : Nat) : Int := trigSum 45 0 ((r * r : Nat) / 2 ^ fpBits) fpOne fpOne

/-- m * 2^e as a fixed-point number of p fraction bits, rounded down. -/
def fixOf (m : Nat) (e : Int) (p : Nat) : Nat :=
  if 0 ≤ e + p then m * 2 ^ (e + p).toNat else m / 2 ^ (-(e + p)).toNat

/-- A function's result: exact, or between two bounds in units of 2^e. -/
inductive Fn where
  | exact (r : RV)
  | within (neg : Bool) (lo hi : Nat) (e : Int)
deriving DecidableEq, Repr

/-- A fixed-point result with its error bound. -/
def Fn.about (x : Int) : Fn := .within (decide (x < 0)) (x.natAbs - fpErr) (x.natAbs + fpErr) (-(fpBits : Int))

/-- A NaN result for a NaN source (R131). -/
def Fn.ofNan (sig : Bool) : Fn := .exact { v := .nan false, fl := if sig then flNV else 0 }
/-- A value whose flags are none. -/
def Fn.just (v : Val) : Fn := .exact { v := v, fl := 0 }
/-- One. -/
def Val.one (neg : Bool) : Val := .fin neg 1 0 false

/-- The magnitude of a finite value is below 2^-40. -/
def veryTiny (m : Nat) (e : Int) : Bool := decide (e + bitLen m ≤ -40)

/-- exp2 (R131, R132). -/
def exp2V (v : Val) : Fn :=
  match v with
  | .nan s => Fn.ofNan s
  | .inf n => .just (if n then .zero false else .inf false)
  | .fin n m e _ =>
    if m = 0 then .just (.one false)
    else if veryTiny m e then .just (if n then .fin false (2 ^ 40 - 1) (-40) true else .fin false (2 ^ 39) (-39) true)
    else if 9 ≤ e + bitLen m then .just (if n then .fin false 1 (-400) true else .fin false 1 400 false)
    else
      let x : Int := if n then -(fixOf m e fpBits : Int) else fixOf m e fpBits
      let k := x / fpOne
      let f := (x % fpOne).toNat
      if f = 0 then .just (.fin false 1 k false)
      else
        let r := exp2Frac f
        .within false (r - fpErr) (r + fpErr) (k - fpBits)

/-- log2 (R131, R132). -/
def log2V (v : Val) : Fn :=
  match v with
  | .nan s => Fn.ofNan s
  | .inf n => if n then .exact { v := .nan false, fl := flNV } else .just (.inf false)
  | .fin n m e _ =>
    if m = 0 then .exact { v := .inf true, fl := flDZ }
    else if n then .exact { v := .nan false, fl := flNV }
    else
      let top := e + bitLen m - 1
      if m = 2 ^ (bitLen m - 1) then .just (if top = 0 then .zero false else .fin (decide (top < 0)) top.natAbs 0 false)
      else
        let z := m * 2 ^ (fpBits + 1 - bitLen m)
        let (z, k) := if 3 * fpOne ≤ 2 * z then (z / 2, top + 1) else (z, top)
        .about (k * fpOne + log2Frac z)

/-- sin and cos (R131): the argument is reduced at its full value. -/
def trigV (cosine : Bool) (v : Val) : Fn :=
  match v with
  | .nan s => Fn.ofNan s
  | .inf _ => .exact { v := .nan false, fl := flNV }
  | .fin n m e _ =>
    if m = 0 then .just (if cosine then .one false else .zero n)
    else if veryTiny m e then .just (if cosine then .fin false (2 ^ 40 - 1) (-40) true else .fin n (m * 2 ^ 32 - 1) (e - 32) true)
    else
      let x := fixOf m e 512
      let k := x / halfPiFix
      let r := (x - k * halfPiFix) / 2 ^ (512 - fpBits)
      let y := match (if cosine then k + 1 else k) % 4 with
        | 0 => sinFix r
        | 1 => cosFix r
        | 2 => -(sinFix r)
        | _ => -(cosFix r)
      .about (if n && !cosine then -y else y)

/-- tanh (R131, R132). -/
def tanhV (v : Val) : Fn :=
  match v with
  | .nan s => Fn.ofNan s
  | .inf n => .just (.one n)
  | .fin n m e _ =>
    if m = 0 then .just (.zero n)
    else if veryTiny m e then .just (.fin n (m * 2 ^ 32 - 1) (e - 32) true)
    else if 6 ≤ e + bitLen m then .just (.fin n (2 ^ 60 - 1) (-60) true)
    else
      let y := fixOf m e fpBits * 2 * 2 ^ 512 / ln2Fix
      let ex := exp2Frac (y % fpOne) * 2 ^ (y / fpOne)
      let t : Int := (((ex - fpOne) * fpOne / (ex + fpOne) : Nat) : Int)
      .about (if n then -t else t)

/-- A function's result rounded once (R131): where both bounds round alike, that; no source is known to leave the two
apart, and there the choice is free (log 11, DEDUCED). -/
def Fn.round (f : NFmt) (c : Ctl) (pick : Nat) (r : Fn) : Nat × Nat :=
  match r with
  | .exact x => x.rounded f c
  | .within neg lo hi e =>
    let a := roundFloat f c 0 (.fin neg lo e true)
    let b := roundFloat f c 0 (.fin neg hi e true)
    if a = b ∨ pick % 2 = 0 then a else b

end Sys2Proof.Machine
end

