-- ==== Sys2Proof/Machine/Operands.lean ====
section
/-!
DEFINITION. Operands.lean: the operand forms of formats R, X, I and S: element modifiers, lane permutation, pairs and groups,
and the reserved-field checks each form makes (spec 02 R49 to R56, R58; 01 R15; 05 R103).
-/

namespace Sys2Proof.Machine

open Sys2Proof

/-- Element types of operands (R55, R82). -/
inductive ETy where
  | f32
  | f64
  | f16x2
  | bf16x2
  | f8x4
  | f4x8
  | i32
  | i64
  | i16x2
  | i8x4
  | i4x8
  | n32
  | n64
  | n8x4
  | b32
  | b64
deriving DecidableEq, Repr

/-- The type is held in a register pair (R15). -/
def ETy.pair : ETy → Bool
  | .f64 | .i64 | .n64 | .b64 => true
  | _ => false
/-- Width of one element. -/
def ETy.width : ETy → Nat
  | .f64 | .i64 | .n64 | .b64 => 64
  | .f16x2 | .bf16x2 | .i16x2 => 16
  | .f8x4 | .i8x4 | .n8x4 => 8
  | .f4x8 | .i4x8 => 4
  | _ => 32
/-- The type takes codes 1 to 3 (R55). -/
def ETy.signed : ETy → Bool
  | .n32 | .n64 | .n8x4 | .b32 | .b64 => false
  | _ => true
/-- A floating type: codes 1 to 3 touch the sign bit only (R55). -/
def ETy.float : ETy → Bool
  | .f32 | .f64 | .f16x2 | .bf16x2 | .f8x4 | .f4x8 => true
  | _ => false

/-- A modifier code that an operand of the type accepts (R54, R55, R103). -/
def modOk (t : ETy) (code : Nat) : Bool :=
  if code = 0 then true
  else if code ≤ 3 then t.signed
  else if code ≤ 13 then !t.pair
  else false

/-- Codes 1 to 3 on one element of width w held as a number (R55). -/
def modElem (float : Bool) (w code x : Nat) : Nat :=
  if float then
    match code with
    | 1 => x ^^^ 2 ^ (w - 1)
    | 2 => x % 2 ^ (w - 1)
    | 3 => x % 2 ^ (w - 1) + 2 ^ (w - 1)
    | _ => x
  else
    let neg := (2 ^ w - x) % 2 ^ w
    let isNeg := decide (2 ^ (w - 1) ≤ x)
    match code with
    | 1 => neg
    | 2 => if isNeg then neg else x
    | 3 => if isNeg then x else neg
    | _ => x

/-- The elements of a word of n bits, element 0 first. -/
def elemsOf (w n x : Nat) : List Nat := (List.range (n / w)).map (fun i => x / 2 ^ (w * i) % 2 ^ w)
/-- A number assembled from elements of width w, element 0 first. -/
def joinElems (w : Nat) : List Nat → Nat
  | [] => 0
  | e :: es => e % 2 ^ w + 2 ^ w * joinElems w es

/-- Bytes of a word, byte 0 first. -/
def bytesOf (x : Nat) : List Nat := elemsOf 8 32 x

/-- A 32-bit operand value with its modifier applied (R54, R55). -/
def applyMod (t : ETy) (code : Nat) (v : Word) : Word :=
  let x := v.toNat
  let b := bytesOf x
  let lo := x % 65536
  let hi := x / 65536
  BitVec.ofNat 32 (match code with
    | 0 => x
    | 1 | 2 | 3 => joinElems t.width ((elemsOf t.width 32 x).map (modElem t.float t.width code))
    | 4 => lo + lo * 65536
    | 5 => hi + hi * 65536
    | 6 => hi + lo * 65536
    | 7 | 8 | 9 | 10 => b.getD (code - 7) 0 * 0x01010101
    | 11 => joinElems 8 b.reverse
    | 12 => joinElems 8 (b.map (fun y => y % 16 * 17))
    | 13 => joinElems 8 (b.map (fun y => y % 16 * 16 + y / 16))
    | _ => x)

/-- A pair operand value with its modifier applied (R55). -/
def applyMod64 (t : ETy) (code : Nat) (v : DWord) : DWord :=
  match code with
  | 1 | 2 | 3 => BitVec.ofNat 64 (modElem t.float 64 code v.toNat)
  | _ => v

/-- MODE.PERM (R84). -/
def Crew.perm (c : Crew) : Bool := c.mode.getLsbD 31

/-- Source lane of the permutation modifier (R56). -/
def permLane (md l : Nat) : Nat :=
  let sz := 2 * 2 ^ bitsOf md 9 7
  let dist := bitsOf md 6 0
  let b := l - l % sz
  match bitsOf md 11 10 with
  | 0 => b + (l % sz + dist) % sz
  | 1 => l ^^^ dist
  | _ => b + dist

/-- A permutation modifier that R56 rejects. -/
def permBad (md : Nat) : Bool :=
  bitsOf md 11 10 == 3 || decide (64 < 2 * 2 ^ bitsOf md 9 7) || decide (2 * 2 ^ bitsOf md 9 7 ≤ bitsOf md 6 0)

/-- Which of A, B and C a format R instruction reads, and as what type. -/
structure RUse where
  a : Option ETy
  b : Option ETy
  c : Option ETy
deriving DecidableEq, Repr

/-- The operand of a field. -/
def opnd (r : BitVec 8) (t : ETy) : Opnd := { reg := r.toNat, size := if t.pair then 2 else 1 }

/-- The source operands of a format R instruction. -/
def RUse.srcs (u : RUse) (f : FormR) : List Opnd :=
  (u.a.map (opnd f.a)).toList ++ (u.b.map (opnd f.b)).toList ++ (u.c.map (opnd f.c)).toList

/-- A field that is not used must be zero, and so must its modifier; a used operand takes only the codes of its type. -/
def nibBad (t : Option ETy) (nib : Nat) : Bool :=
  match t with
  | some t => !modOk t nib
  | none => nib ≠ 0

/-- Check 6 on the fields of format R (R51, R54 to R56, R58). -/
def RUse.bad (u : RUse) (f : FormR) (c : Crew) : Bool :=
  f.rsv ≠ 0#2 || (u.a.isNone && f.a ≠ 0#8) || (u.b.isNone && f.b ≠ 0#8) || (u.c.isNone && f.c ≠ 0#8) ||
  (if c.perm then
    (if u.a.isNone then f.md ≠ 0#12 else permBad f.md.toNat || (qNamed c.queues f.a.toNat).isSome)
   else nibBad u.a (bitsOf f.md.toNat 11 8) || nibBad u.b (bitsOf f.md.toNat 7 4) || nibBad u.c (bitsOf f.md.toNat 3 0))

/-- A pair or single register read as 64 bits. -/
def Ctx.wide (x : Ctx) (s : State) (r : BitVec 8) (t : ETy) : Nat → DWord :=
  if t.pair then
    let lo := x.plain s r.toNat
    let hi := x.plain s (r.toNat + 1)
    fun l => (rowAt hi l) ++ (rowAt lo l)
  else
    let v := x.row s r.toNat
    fun l => (rowAt v l).setWidth 64

/-- A modifier applied to an operand value of either width. -/
def modWide (t : ETy) (code : Nat) (v : DWord) : DWord :=
  if t.pair then applyMod64 t code v else (applyMod t code (v.setWidth 32)).setWidth 64

/-- The value that field A of format R delivers in a lane (R54, R56). -/
def Ctx.opA (x : Ctx) (s : State) (u : RUse) (f : FormR) : Nat → DWord :=
  match u.a with
  | none => fun _ => 0#64
  | some t =>
    let v := x.wide s f.a t
    if x.c.perm then fun l => v (permLane f.md.toNat l) else fun l => modWide t (bitsOf f.md.toNat 11 8) (v l)
/-- The value that field B of format R delivers in a lane. -/
def Ctx.opB (x : Ctx) (s : State) (u : RUse) (f : FormR) : Nat → DWord :=
  match u.b with
  | none => fun _ => 0#64
  | some t =>
    let v := x.wide s f.b t
    if x.c.perm then v else fun l => modWide t (bitsOf f.md.toNat 7 4) (v l)
/-- The value that field C of format R delivers in a lane. -/
def Ctx.opC (x : Ctx) (s : State) (u : RUse) (f : FormR) : Nat → DWord :=
  match u.c with
  | none => fun _ => 0#64
  | some t =>
    let v := x.wide s f.c t
    if x.c.perm then v else fun l => modWide t (bitsOf f.md.toNat 3 0) (v l)

/-- The part of an instruction's entry that format R gives. -/
def specR (f : FormR) (u : RUse) (dsts : List Opnd) (lat : Lat) : Spec :=
  { h := f.h, ga := f.ga, gb := f.gb, srcs := u.srcs f, dsts := dsts, lat := lat, hint := false, priv := false, ends := false,
    squash := false }
/-- The part of an instruction's entry that format X gives. -/
def specX (f : FormX) (srcs dsts : List Opnd) (lat : Lat) : Spec :=
  { h := f.h, ga := f.ga, gb := f.gb, srcs := srcs, dsts := dsts, lat := lat, hint := false, priv := false, ends := false,
    squash := false }
/-- The part of an instruction's entry that format I gives. -/
def specI (f : FormI) (srcs dsts : List Opnd) (lat : Lat) : Spec :=
  { h := f.h, ga := f.ga, gb := Guard.none, srcs := srcs, dsts := dsts, lat := lat, hint := false, priv := false, ends := false,
    squash := false }
/-- A single register as an operand. -/
def one (r : BitVec 8) : Opnd := { reg := r.toNat, size := 1 }
/-- A group of n registers as an operand. -/
def grp (r : BitVec 8) (n : Nat) : Opnd := { reg := r.toNat, size := n }

/-- Whole-register writes of a 64-bit result to a pair (wr64, R103). -/
def wrPair (d : Nat) (m : Mask) (f : Nat → DWord) : List Wr :=
  [Wr.full d m (fun l => (f l).extractLsb' 0 32), Wr.full (d + 1) m (fun l => (f l).extractLsb' 32 32)]

/-- A format R instruction that writes one 32-bit register from its operands, lane by lane. -/
def runR (f : FormR) (u : RUse) (lat : Nat) (g : DWord → DWord → DWord → Word) (s : State) : Out :=
  issue (specR f u [one f.d] (.fixed lat)) (u.bad f)
    (justWrite fun x s =>
      let a := x.opA s u f
      let b := x.opB s u f
      let c := x.opC s u f
      [Wr.full (x.d 0) x.act (fun l => g (a l) (b l) (c l))]) s

/-- A format R instruction that writes a register pair from its operands, lane by lane. -/
def runR64 (f : FormR) (u : RUse) (lat : Nat) (g : DWord → DWord → DWord → DWord) (s : State) : Out :=
  issue (specR f u [grp f.d 2] (.fixed lat)) (u.bad f)
    (justWrite fun x s =>
      let a := x.opA s u f
      let b := x.opB s u f
      let c := x.opC s u f
      wrPair (x.d 0) x.act (fun l => g (a l) (b l) (c l))) s

/-- The low word of an operand value. -/
def lo32 (v : DWord) : Word := v.setWidth 32

end Sys2Proof.Machine
end

