-- ==== Sys2Proof/Machine/Flags.lean ====
section
/-!
DEFINITION. Flags.lean: FPFLAGS, the FPX trap, the draws of RNGSEED, and the instruction shape that every floating,
conversion and quantisation instruction has (spec 04 R91, R94 to R96; 06 R122, R141).
-/

namespace Sys2Proof.Machine

open Sys2Proof

/-- What an instruction does in one lane: the words it writes, the flags it raises, and RNGSEED after its draws. -/
structure LaneRes where
  w : List Word
  fl : Nat
  rng : Word
deriving DecidableEq, Repr

/-- A lane's result that draws nothing. -/
def LaneRes.plain (w : List Word) (fl : Nat) (rng : Word) : LaneRes := { w := w, fl := fl, rng := rng }

/-- The trap enables of MODE as FPFLAGS bits 4:0 (R84, R96). -/
def modeEnables (md : Word) : Nat := bitsOf md.toNat 30 26

/-- The exceptions NV to NX of a set of flags. -/
def trapBits (fl : Nat) : Nat := fl % 32

/-- The lanes that raised an enabled exception (R96). -/
def fpxMask (md : Word) (rs : List (Option LaneRes)) : Mask :=
  mkMask (fun l => match rs.getD l none with
    | some r => trapBits r.fl &&& modeEnables md != 0
    | none => false)

/-- The union of the exceptions that those lanes raised (R96, R381). -/
def fpxSub (m : Mask) (rs : List (Option LaneRes)) : Nat :=
  (maskLanes m).foldl (fun u l => match rs.getD l none with
    | some r => u ||| trapBits r.fl
    | none => u) 0

/-- Flags and generator states of the lanes of `act` merged into the crew; FPFLAGS as they stood before a SETS whose latency has not
passed merge them as well, so that a GETS reads them in either case (R91, R94, R95). -/
def mergeFp (c : Crew) (rs : List (Option LaneRes)) : Crew :=
  { c with
    fp := mkRow (fun l => match rs.getD l none with
      | some r => rowAt c.fp l ||| BitVec.ofNat 32 r.fl
      | none => rowAt c.fp l),
    srOld := c.srOld.map (fun o => if o.sr = 0x19 then
        { o with rows := [mkRow (fun l => match rs.getD l none with
            | some r => rowAt (o.rows.headD []) l ||| BitVec.ofNat 32 r.fl
            | none => rowAt (o.rows.headD []) l)] } else o),
    rng := mkRow (fun l => match rs.getD l none with
      | some r => r.rng
      | none => rowAt c.rng l) }

/-- The effect of an instruction given lane by lane: FPX with no effect at all, or flags, draws and register writes (R96). -/
def fpDone (x : Ctx) (s : State) (bits : Word) (regs : List Nat) (g : Nat → LaneRes) : Res Done :=
  let rs := lanes.map (fun l => if x.act.getLsbD l then some (g l) else none)
  let m := fpxMask x.c.mode rs
  if m ≠ 0#64 then .error (.raise (crewCause 0x07 (fpxSub m rs) 0 m m false))
  else
    .ok { s := s.modCrew x.id (fun c => mergeFp c rs),
          wr := (List.range regs.length).map (fun i =>
            { reg := regs.getD i 0,
              row := mkRow (fun l => match rs.getD l none with
                | some r => r.w.getD i 0#32
                | none => 0#32),
              mask := x.act, bits := bits }),
          ctl := false }

/-- A floating instruction: issue, then its lanes. -/
def runFp (sp : Spec) (bad : Crew → Bool) (regs : Ctx → List Nat) (g : Ctx → State → Nat → LaneRes) (s : State) : Out :=
  issue { sp with fpx := true } bad (fun x s => fpDone x s 0xFFFFFFFF#32 (regs x) (g x s)) s

/-- RNGSEED of a lane as the instruction finds it (R141). -/
def Ctx.seed (x : Ctx) (l : Nat) : Word := rowAt x.c.rng l

end Sys2Proof.Machine
end

