-- ==== Sys2Proof/Machine/Integer.lean ====
section
/-!
DEFINITION. Integer.lean: integer arithmetic (spec 05 R104 to R108).
-/

namespace Sys2Proof.Machine

open Sys2Proof

/-- Operand use of the two-source .i32 forms (R104). -/
def useII : RUse := { a := some .i32, b := some .i32, c := none }
/-- Operand use of the two-source .n32 forms (R104). -/
def useNN : RUse := { a := some .n32, b := some .n32, c := none }
/-- Operand use of the three-source .i32 forms (R104). -/
def useIII : RUse := { a := some .i32, b := some .i32, c := some .i32 }

/-- iadd.i32 (R104). -/
def execIaddI32 (f : FormR) (s : State) : Out := runR f useII 2 (fun a b _ => lo32 a + lo32 b) s
/-- isub.i32 (R104). -/
def execIsubI32 (f : FormR) (s : State) : Out := runR f useII 2 (fun a b _ => lo32 a - lo32 b) s
/-- iadd3.i32 (R104). -/
def execIadd3I32 (f : FormR) (s : State) : Out := runR f useIII 2 (fun a b c => lo32 a + lo32 b + lo32 c) s
/-- imul.i32 (R104). -/
def execImulI32 (f : FormR) (s : State) : Out := runR f useII 4 (fun a b _ => lo32 a * lo32 b) s
/-- imulhi.i32: floor of the signed product over 2^32 (R104). -/
def execImulhiI32 (f : FormR) (s : State) : Out :=
  runR f useII 4 (fun a b _ => BitVec.ofInt 32 ((lo32 a).toInt * (lo32 b).toInt / 2 ^ 32)) s
/-- imulhi.n32 (R104). -/
def execImulhiN32 (f : FormR) (s : State) : Out :=
  runR f useNN 4 (fun a b _ => BitVec.ofNat 32 ((lo32 a).toNat * (lo32 b).toNat / 2 ^ 32)) s
/-- imad.i32 (R104). -/
def execImadI32 (f : FormR) (s : State) : Out := runR f useIII 4 (fun a b c => lo32 a * lo32 b + lo32 c) s
/-- imin.i32 (R104). -/
def execIminI32 (f : FormR) (s : State) : Out :=
  runR f useII 2 (fun a b _ => if (lo32 a).toInt ≤ (lo32 b).toInt then lo32 a else lo32 b) s
/-- imax.i32 (R104). -/
def execImaxI32 (f : FormR) (s : State) : Out :=
  runR f useII 2 (fun a b _ => if (lo32 a).toInt ≤ (lo32 b).toInt then lo32 b else lo32 a) s
/-- imin.n32 (R104). -/
def execIminN32 (f : FormR) (s : State) : Out :=
  runR f useNN 2 (fun a b _ => if (lo32 a).toNat ≤ (lo32 b).toNat then lo32 a else lo32 b) s
/-- imax.n32 (R104). -/
def execImaxN32 (f : FormR) (s : State) : Out :=
  runR f useNN 2 (fun a b _ => if (lo32 a).toNat ≤ (lo32 b).toNat then lo32 b else lo32 a) s

/-- The carry forms: two destinations D and E, three sources, only bit 0 of c read (R105). -/
def runCarry (f : FormX) (g : Nat → Nat → Nat → Word × Word) (s : State) : Out :=
  issue (specX f [one f.a, one f.b, one f.c] [one f.d, one f.e] (.fixed 2)) (fun _ => f.rsv ≠ 0#6 || f.d == f.e)
    (justWrite fun x s =>
      let a := x.row s f.a.toNat
      let b := x.row s f.b.toNat
      let c := x.row s f.c.toNat
      let r := fun l => g (rowAt a l).toNat (rowAt b l).toNat ((rowAt c l).toNat % 2)
      [Wr.full (x.d 0) x.act (fun l => (r l).1), Wr.full (x.d 1) x.act (fun l => (r l).2)]) s

/-- iaddc.i32 (R105). -/
def execIaddcI32 (f : FormX) (s : State) : Out :=
  runCarry f (fun a b c => (BitVec.ofNat 32 (a + b + c), BitVec.ofNat 32 ((a + b + c) / 2 ^ 32))) s
/-- isubb.i32 (R105). -/
def execIsubbI32 (f : FormX) (s : State) : Out :=
  runCarry f (fun a b c => (BitVec.ofInt 32 ((a : Int) - b - c), if (a : Int) - b - c < 0 then 1#32 else 0#32)) s

/-- imadw.i32 (R106). -/
def execImadwI32 (f : FormR) (s : State) : Out :=
  runR64 f { a := some .i32, b := some .i32, c := some .i64 } 4
    (fun a b c => BitVec.ofInt 64 ((lo32 a).toInt * (lo32 b).toInt) + c) s
/-- imadw.n32 (R106). -/
def execImadwN32 (f : FormR) (s : State) : Out :=
  runR64 f { a := some .n32, b := some .n32, c := some .n64 } 4
    (fun a b c => BitVec.ofNat 64 ((lo32 a).toNat * (lo32 b).toNat) + c) s
/-- iadd.i64 (R107). -/
def execIaddI64 (f : FormR) (s : State) : Out :=
  runR64 f { a := some .i64, b := some .i64, c := none } 2 (fun a b _ => a + b) s
/-- isub.i64 (R107). -/
def execIsubI64 (f : FormR) (s : State) : Out :=
  runR64 f { a := some .i64, b := some .i64, c := none } 2 (fun a b _ => a - b) s
/-- lea: the index is signed, the shift is the low six bits of c (R107). -/
def execLea (f : FormR) (s : State) : Out :=
  runR64 f { a := some .b64, b := some .i32, c := some .n32 } 2
    (fun a b c => a + ((lo32 b).signExtend 64 <<< (c.toNat % 64))) s

/-- A format I instruction that writes one register from A and the immediate; SUB is 0 (R103). -/
def runI (f : FormI) (lat : Nat) (g : Word → Word → Word) (s : State) : Out :=
  issue (specI f [one f.a] [one f.d] (.fixed lat)) (fun _ => f.sub ≠ 0#7)
    (justWrite fun x s =>
      let a := x.row s f.a.toNat
      [Wr.full (x.d 0) x.act (fun l => g (rowAt a l) f.imm)]) s

/-- iaddi.i32 (R108). -/
def execIaddiI32 (f : FormI) (s : State) : Out := runI f 2 (fun a i => a + i) s
/-- iaddi.i64 (R108). -/
def execIaddiI64 (f : FormI) (s : State) : Out :=
  issue (specI f [grp f.a 2] [grp f.d 2] (.fixed 2)) (fun _ => f.sub ≠ 0#7)
    (justWrite fun x s =>
      let a := x.wide s f.a .i64
      wrPair (x.d 0) x.act (fun l => a l + f.imm.signExtend 64)) s
/-- imuli.i32 (R108). -/
def execImuliI32 (f : FormI) (s : State) : Out := runI f 4 (fun a i => a * i) s

end Sys2Proof.Machine
end

