-- ==== Sys2Proof/Machine/Logic.lean ====
section
/-!
DEFINITION. Logic.lean: logic, shifts, bit fields, moves, selection, integer compares and queue definition
(spec 05 R109 to R116, R119, R120).
-/

namespace Sys2Proof.Machine

open Sys2Proof

/-- Operand use of the two-source .b32 forms (R109). -/
def useBB : RUse := { a := some .b32, b := some .b32, c := none }
/-- Operand use of the one-source .b32 forms (R109, R113). -/
def useB : RUse := { a := some .b32, b := none, c := none }
/-- Operand use of the shifts: A b32, B n32 (R110). -/
def useBN : RUse := { a := some .b32, b := some .n32, c := none }
/-- Operand use of the 64-bit shifts (R110). -/
def useB64N : RUse := { a := some .b64, b := some .n32, c := none }
/-- Operand use of the three-source .b32 forms (R114, R115). -/
def useBBB : RUse := { a := some .b32, b := some .b32, c := some .b32 }

/-- and.b32 (R109). -/
def execAndB32 (f : FormR) (s : State) : Out := runR f useBB 2 (fun a b _ => lo32 a &&& lo32 b) s
/-- or.b32 (R109). -/
def execOrB32 (f : FormR) (s : State) : Out := runR f useBB 2 (fun a b _ => lo32 a ||| lo32 b) s
/-- xor.b32 (R109). -/
def execXorB32 (f : FormR) (s : State) : Out := runR f useBB 2 (fun a b _ => lo32 a ^^^ lo32 b) s
/-- andn.b32 (R109). -/
def execAndnB32 (f : FormR) (s : State) : Out := runR f useBB 2 (fun a b _ => lo32 a &&& ~~~(lo32 b)) s
/-- not.b32 (R109). -/
def execNotB32 (f : FormR) (s : State) : Out := runR f useB 2 (fun a _ _ => ~~~(lo32 a)) s

/-- shl.b32 (R110). -/
def execShlB32 (f : FormR) (s : State) : Out :=
  runR f useBN 2 (fun a b _ => if b.toNat < 32 then lo32 a <<< b.toNat else 0#32) s
/-- shr.n32 (R110). -/
def execShrN32 (f : FormR) (s : State) : Out :=
  runR f useBN 2 (fun a b _ => if b.toNat < 32 then lo32 a >>> b.toNat else 0#32) s
/-- shr.i32 (R110). -/
def execShrI32 (f : FormR) (s : State) : Out :=
  runR f { a := some .i32, b := some .n32, c := none } 2 (fun a b _ => (lo32 a).sshiftRight (min b.toNat 31)) s
/-- rotl.b32 (R110). -/
def execRotlB32 (f : FormR) (s : State) : Out := runR f useBN 2 (fun a b _ => (lo32 a).rotateLeft (b.toNat % 32)) s
/-- rotr.b32 (R110). -/
def execRotrB32 (f : FormR) (s : State) : Out := runR f useBN 2 (fun a b _ => (lo32 a).rotateRight (b.toNat % 32)) s
/-- shl.b64 (R110). -/
def execShlB64 (f : FormR) (s : State) : Out :=
  runR64 f useB64N 2 (fun a b _ => if b.toNat < 64 then a <<< b.toNat else 0#64) s
/-- shr.n64 (R110). -/
def execShrN64 (f : FormR) (s : State) : Out :=
  runR64 f useB64N 2 (fun a b _ => if b.toNat < 64 then a >>> b.toNat else 0#64) s
/-- shr.i64 (R110). -/
def execShrI64 (f : FormR) (s : State) : Out :=
  runR64 f { a := some .i64, b := some .n32, c := none } 2 (fun a b _ => a.sshiftRight (min b.toNat 63)) s

/-- The field of a at a position and length (R111). -/
def bfe (signed : Bool) (a pos len : Nat) : Word :=
  let len := min len 32
  let bit := fun p => if p < 32 then a.testBit p else signed && a.testBit 31
  let v := (List.range len).foldl (fun v i => if bit (pos + i) then v + 2 ^ i else v) 0
  if signed && decide (0 < len) && v.testBit (len - 1) then BitVec.ofNat 32 (v + (2 ^ 32 - 2 ^ len)) else BitVec.ofNat 32 v

/-- bfe.n32 (R111). -/
def execBfeN32 (f : FormR) (s : State) : Out :=
  runR f { a := some .b32, b := some .n32, c := some .n32 } 2 (fun a b c => bfe false a.toNat (b.toNat % 256) (c.toNat % 256)) s
/-- bfe.i32 (R111). -/
def execBfeI32 (f : FormR) (s : State) : Out :=
  runR f { a := some .b32, b := some .n32, c := some .n32 } 2 (fun a b c => bfe true a.toNat (b.toNat % 256) (c.toNat % 256)) s

/-- bfi.b32 (R112). -/
def execBfiB32 (f : FormX) (s : State) : Out :=
  issue (specX f [one f.a, one f.b, one f.c, one f.e] [one f.d] (.fixed 2)) (fun _ => f.rsv ≠ 0#6)
    (justWrite fun x s =>
      let a := x.row s f.a.toNat
      let b := x.row s f.b.toNat
      let c := x.row s f.c.toNat
      let e := x.row s f.e.toNat
      [Wr.full (x.d 0) x.act (fun l =>
        let pos := (rowAt c l).toNat % 256
        let len := min ((rowAt e l).toNat % 256) 32
        let m := BitVec.ofNat 32 ((2 ^ len - 1) * 2 ^ pos)
        (rowAt a l &&& ~~~m) ||| ((rowAt b l <<< pos) &&& m))]) s

/-- popc.b32 (R113). -/
def execPopcB32 (f : FormR) (s : State) : Out :=
  runR f useB 2 (fun a _ _ => BitVec.ofNat 32 ((List.range 32).filter (fun i => a.toNat.testBit i)).length) s
/-- clz.b32 (R113). -/
def execClzB32 (f : FormR) (s : State) : Out :=
  runR f useB 2 (fun a _ _ => BitVec.ofNat 32 (((List.range 32).find? (fun i => a.toNat.testBit (31 - i))).getD 32)) s
/-- ctz.b32 (R113). -/
def execCtzB32 (f : FormR) (s : State) : Out :=
  runR f useB 2 (fun a _ _ => BitVec.ofNat 32 (((List.range 32).find? (fun i => a.toNat.testBit i)).getD 32)) s
/-- brev.b32 (R113). -/
def execBrevB32 (f : FormR) (s : State) : Out :=
  runR f useB 2 (fun a _ _ => (lo32 a).reverse) s

/-- The byte switch (R114). -/
def bsw (a b c : Nat) : Word :=
  let src := a + b * 2 ^ 32
  BitVec.ofNat 32 (joinElems 8 ((List.range 4).map (fun i =>
    let k := c / 2 ^ (8 * i) % 256
    let y := src / 2 ^ (8 * bitsOf k 2 0) % 256
    match bitsOf k 4 3 with
    | 0 => y
    | 1 => 0
    | 2 => if y ≥ 128 then 255 else 0
    | _ => 255)))
/-- bsw.b32 (R114). -/
def execBswB32 (f : FormR) (s : State) : Out := runR f useBBB 2 (fun a b c => bsw a.toNat b.toNat c.toNat) s

/-- mov.b32 (R115). -/
def execMovB32 (f : FormR) (s : State) : Out := runR f useB 2 (fun a _ _ => lo32 a) s
/-- movi.b32; field A is reserved (R115). -/
def execMoviB32 (f : FormI) (s : State) : Out :=
  issue (specI f [] [one f.d] (.fixed 2)) (fun _ => f.sub ≠ 0#7 || f.a ≠ 0#8)
    (justWrite fun x _ => [Wr.full (x.d 0) x.act (fun _ => f.imm)]) s
/-- sel.b32 (R115). -/
def execSelB32 (f : FormR) (s : State) : Out := runR f useBBB 2 (fun a b c => if lo32 c ≠ 0#32 then lo32 a else lo32 b) s
/-- bsel.b32 (R115). -/
def execBselB32 (f : FormR) (s : State) : Out :=
  runR f useBBB 2 (fun a b c => (lo32 a &&& lo32 c) ||| (lo32 b &&& ~~~(lo32 c))) s
/-- andi.b32 (R109). -/
def execAndiB32 (f : FormI) (s : State) : Out := runI f 2 (fun a i => a &&& i) s
/-- ori.b32 (R109). -/
def execOriB32 (f : FormI) (s : State) : Out := runI f 2 (fun a i => a ||| i) s
/-- xori.b32 (R109). -/
def execXoriB32 (f : FormI) (s : State) : Out := runI f 2 (fun a i => a ^^^ i) s

/-! ## Compare to a guard bit (R116) -/

/-- IMMF: the comparand is the immediate (R116). -/
def cmpImmF (f : FormI) : Bool := f.sub.getLsbD 6
/-- The register that IMM32 names when IMMF is 0. -/
def cmpRegB (f : FormI) : BitVec 8 := f.imm.setWidth 8
/-- Check 6 of the compare forms: D a guard register, SUB bit 5 and unused IMM32 bits zero (R116). -/
def cmpBad (f : FormI) : Bool :=
  decide (f.d.toNat < 248) || f.sub.getLsbD 5 || (!cmpImmF f && f.imm.toNat / 256 ≠ 0)
/-- The write of one guard bit (R116): the other 31 bits are not written. -/
def cmpWrite (x : Ctx) (f : FormI) (t : Nat → Bool) : List Wr :=
  let bit := f.sub.toNat % 32
  [{ reg := f.d.toNat, row := mkRow (fun l => if t l then 1#32 <<< bit else 0#32), mask := x.act, bits := 1#32 <<< bit }]

/-- A 32-bit compare into a guard bit (R116). -/
def runCmp (f : FormI) (p : Word → Word → Bool) (s : State) : Out :=
  issue { specI f ([one f.a] ++ if cmpImmF f then [] else [one (cmpRegB f)]) [] (.fixed 2) with dsts := [] }
    (fun _ => cmpBad f)
    (justWrite fun x s =>
      let a := x.row s f.a.toNat
      let b := if cmpImmF f then [] else x.row s (cmpRegB f).toNat
      cmpWrite x f (fun l => p (rowAt a l) (if cmpImmF f then f.imm else rowAt b l))) s

/-- cmp.eq.b32 (R116). -/
def execCmpEqB32 (f : FormI) (s : State) : Out := runCmp f (fun a y => a == y) s
/-- cmp.ne.b32 (R116). -/
def execCmpNeB32 (f : FormI) (s : State) : Out := runCmp f (fun a y => a != y) s
/-- cmp.lt.i32 (R116). -/
def execCmpLtI32 (f : FormI) (s : State) : Out := runCmp f (fun a y => decide (a.toInt < y.toInt)) s
/-- cmp.le.i32 (R116). -/
def execCmpLeI32 (f : FormI) (s : State) : Out := runCmp f (fun a y => decide (a.toInt ≤ y.toInt)) s
/-- cmp.gt.i32 (R116). -/
def execCmpGtI32 (f : FormI) (s : State) : Out := runCmp f (fun a y => decide (y.toInt < a.toInt)) s
/-- cmp.ge.i32 (R116). -/
def execCmpGeI32 (f : FormI) (s : State) : Out := runCmp f (fun a y => decide (y.toInt ≤ a.toInt)) s
/-- cmp.lt.n32 (R116). -/
def execCmpLtN32 (f : FormI) (s : State) : Out := runCmp f (fun a y => decide (a.toNat < y.toNat)) s
/-- cmp.le.n32 (R116). -/
def execCmpLeN32 (f : FormI) (s : State) : Out := runCmp f (fun a y => decide (a.toNat ≤ y.toNat)) s
/-- cmp.gt.n32 (R116). -/
def execCmpGtN32 (f : FormI) (s : State) : Out := runCmp f (fun a y => decide (y.toNat < a.toNat)) s
/-- cmp.ge.n32 (R116). -/
def execCmpGeN32 (f : FormI) (s : State) : Out := runCmp f (fun a y => decide (y.toNat ≤ a.toNat)) s

/-! ## Queue definition (R119, R120) -/

/-- A window that R18 admits beside the other defined queues: inside the allocation, below v248, disjoint from the others. -/
def windowOk (n : Nat) (qs : List Word) (q base len : Nat) : Bool :=
  (List.range len).all (fun i => decide (base + i < n - 8)) &&
    (List.range 8).all (fun j => j == q || !(List.range len).any (fun i => qHas (qs.getD j 0#32) (base + i)))

/-- The slot names the queues: its capture governs a resumption (R366). -/
def nameQueues (c : Crew) (k : Bool) (ord : Nat) : Crew := c.setSlot k { c.slot k with qnamed := some ord }

/-- qdef (R119): acts once per issue whatever `act` holds. A window that R18 rejects reports queue q itself, with QSTATE.q as it stands,
not the queue it overlaps. (log 40, DESIGN CHOICE) -/
def execQdef (f : FormI) (s : State) : Out :=
  issue (specI f [] [] (.fixed 2)) (fun _ => f.ga ≠ Guard.none || f.a ≠ 0#8 || f.imm.toNat / 16 ≠ 0 || f.sub.toNat / 8 ≠ 0)
    (fun x s =>
      let q := f.sub.toNat % 8
      let len := f.imm.toNat % 16 + 1
      if windowOk x.c.n x.c.queues q f.d.toNat len then
        .ok { s := s.modCrew x.id (fun c => nameQueues { c with queues := c.queues.set q (qMake f.d.toNat len 0 0) } x.k s.order),
              wr := [], ctl := false }
      else .error (.raise (queueCause q (x.c.queues.getD q 0#32)))) s

/-- qfree (R120). -/
def execQfree (f : FormI) (s : State) : Out :=
  issue (specI f [] [] (.fixed 2)) (fun _ => f.ga ≠ Guard.none || f.a ≠ 0#8 || f.d ≠ 0#8 || f.imm ≠ 0#32 || f.sub.toNat / 8 ≠ 0)
    (fun x s =>
      .ok { s := s.modCrew x.id (fun c => nameQueues { c with queues := c.queues.set (f.sub.toNat % 8) 0#32 } x.k s.order),
            wr := [], ctl := false }) s

end Sys2Proof.Machine
end

