-- ==== Sys2Proof/Machine/Float.lean ====
section
/-!
DEFINITION. Float.lean: FP32, packed 16-bit and FP64 arithmetic, classification, compares and special functions
(spec 06 R122 to R132).
-/

namespace Sys2Proof.Machine

open Sys2Proof

/-- A source code of a format as f(x) names it: FTZI, then the exact value (R89, R123). -/
def fval (f : NFmt) (md : Word) (c : Nat) : Val := f.decode (f.flushIn (modeFtzi md) c)
/-- A result rounded once under mode.fmt as arithmetic, with the flags its computation raised (R86, R122). -/
def arithRound (f : NFmt) (md : Word) (r : RV) : Nat × Nat :=
  let y := roundFloat f (f.arith md) 0 r.v
  (y.1, y.2 ||| r.fl)
/-- RND is RDN, for the sign of an exact zero sum (R124). -/
def modeRdn (f : NFmt) (md : Word) : Bool := (f.arith md).rnd == 3

/-- A binary or ternary operation on codes of a format under MODE: code and flags. -/
abbrev FOp := Word → Nat → Nat → Nat → Nat × Nat

/-- Sum (R124). -/
def fAdd (f : NFmt) : FOp := fun md a b _ => arithRound f md (addV (modeRdn f md) (fval f md a) (fval f md b))
/-- Difference (R124). -/
def fSub (f : NFmt) : FOp := fun md a b _ => arithRound f md (addV (modeRdn f md) (fval f md a) (fval f md b).negate)
/-- Product (R124). -/
def fMul (f : NFmt) : FOp := fun md a b _ => arithRound f md (mulV (fval f md a) (fval f md b))
/-- Fused product and sum (R124). -/
def fFma (f : NFmt) : FOp := fun md a b c => arithRound f md (fmaV (modeRdn f md) (fval f md a) (fval f md b) (fval f md c))
/-- Minimum and maximum (R125). -/
def fMinMax (f : NFmt) (isMin : Bool) : FOp := fun md a b _ =>
  minMax f isMin (modeFtzo md) (f.flushIn (modeFtzi md) a) (f.flushIn (modeFtzi md) b)

/-- A word, or a register pair's two words, from a code. -/
def codeWords (pair : Bool) (x : Nat) : List Word :=
  if pair then [BitVec.ofNat 32 x, BitVec.ofNat 32 (x / 2 ^ 32)] else [BitVec.ofNat 32 x]
/-- The registers a destination field names. -/
def dstRegs (pair : Bool) (x : Ctx) : List Nat := if pair then [x.d 0, x.d 0 + 1] else [x.d 0]

/-- A format R floating instruction: an operation on whole operands, lane by lane. -/
def runFR (f : FormR) (u : RUse) (pair : Bool) (lat : Nat) (op : FOp) (s : State) : Out :=
  runFp (specR f u [if pair then grp f.d 2 else one f.d] (.fixed lat)) (u.bad f) (dstRegs pair)
    (fun x s =>
      let a := x.opA s u f
      let b := x.opB s u f
      let c := x.opC s u f
      fun l =>
        let r := op x.c.mode (a l).toNat (b l).toNat (c l).toNat
        LaneRes.plain (codeWords pair r.1) r.2 (x.seed l)) s

/-- An operation of a 16-bit format on both elements of a word (R127). -/
def packed16 (op : FOp) : FOp := fun md a b c =>
  let r0 := op md (a % 65536) (b % 65536) (c % 65536)
  let r1 := op md (a / 65536 % 65536) (b / 65536 % 65536) (c / 65536 % 65536)
  (r0.1 + r1.1 * 65536, r0.2 ||| r1.2)

/-- Operand use: two of a type. -/
def use2 (t : ETy) : RUse := { a := some t, b := some t, c := none }
/-- Operand use: three of a type. -/
def use3 (t : ETy) : RUse := { a := some t, b := some t, c := some t }
/-- Operand use: one of a type. -/
def use1 (t : ETy) : RUse := { a := some t, b := none, c := none }

/-- fadd.f32 (R124). -/
def execFaddF32 (f : FormR) (s : State) : Out := runFR f (use2 .f32) false 4 (fAdd .f32) s

/-- fsub.f32 (R124). -/
def execFsubF32 (f : FormR) (s : State) : Out := runFR f (use2 .f32) false 4 (fSub .f32) s

/-- fmul.f32 (R124). -/
def execFmulF32 (f : FormR) (s : State) : Out := runFR f (use2 .f32) false 4 (fMul .f32) s

/-- ffma.f32 (R124). -/
def execFfmaF32 (f : FormR) (s : State) : Out := runFR f (use3 .f32) false 4 (fFma .f32) s

/-- fmin.f32 (R125). -/
def execFminF32 (f : FormR) (s : State) : Out := runFR f (use2 .f32) false 4 (fMinMax .f32 true) s

/-- fmax.f32 (R125). -/
def execFmaxF32 (f : FormR) (s : State) : Out := runFR f (use2 .f32) false 4 (fMinMax .f32 false) s

/-- A format I floating instruction with an FP32 immediate (R126). -/
def runFI (f : FormI) (op : FOp) (s : State) : Out :=
  runFp (specI f [one f.a] [one f.d] (.fixed 4)) (fun _ => f.sub ≠ 0#7) (dstRegs false)
    (fun x s =>
      let a := x.row s f.a.toNat
      fun l =>
        let r := op x.c.mode (rowAt a l).toNat f.imm.toNat 0
        LaneRes.plain (codeWords false r.1) r.2 (x.seed l)) s

/-- fmuli.f32 (R126). -/
def execFmuliF32 (f : FormI) (s : State) : Out := runFI f (fMul .f32) s

/-- faddi.f32 (R126). -/
def execFaddiF32 (f : FormI) (s : State) : Out := runFI f (fAdd .f32) s

/-- hadd.f16x2 (R127). -/
def execHaddF16x2 (f : FormR) (s : State) : Out := runFR f (use2 .f16x2) false 4 (packed16 (fAdd .f16)) s

/-- hmul.f16x2 (R127). -/
def execHmulF16x2 (f : FormR) (s : State) : Out := runFR f (use2 .f16x2) false 4 (packed16 (fMul .f16)) s

/-- hfma.f16x2 (R127). -/
def execHfmaF16x2 (f : FormR) (s : State) : Out := runFR f (use3 .f16x2) false 4 (packed16 (fFma .f16)) s

/-- hmin.f16x2 (R127). -/
def execHminF16x2 (f : FormR) (s : State) : Out := runFR f (use2 .f16x2) false 4 (packed16 (fMinMax .f16 true)) s

/-- hmax.f16x2 (R127). -/
def execHmaxF16x2 (f : FormR) (s : State) : Out := runFR f (use2 .f16x2) false 4 (packed16 (fMinMax .f16 false)) s

/-- hadd.bf16x2 (R127). -/
def execHaddBf16x2 (f : FormR) (s : State) : Out := runFR f (use2 .bf16x2) false 4 (packed16 (fAdd .bf16)) s

/-- hmul.bf16x2 (R127). -/
def execHmulBf16x2 (f : FormR) (s : State) : Out := runFR f (use2 .bf16x2) false 4 (packed16 (fMul .bf16)) s

/-- hfma.bf16x2 (R127). -/
def execHfmaBf16x2 (f : FormR) (s : State) : Out := runFR f (use3 .bf16x2) false 4 (packed16 (fFma .bf16)) s

/-- hmin.bf16x2 (R127). -/
def execHminBf16x2 (f : FormR) (s : State) : Out := runFR f (use2 .bf16x2) false 4 (packed16 (fMinMax .bf16 true)) s

/-- hmax.bf16x2 (R127). -/
def execHmaxBf16x2 (f : FormR) (s : State) : Out := runFR f (use2 .bf16x2) false 4 (packed16 (fMinMax .bf16 false)) s

/-- dadd.f64 (R128). -/
def execDaddF64 (f : FormR) (s : State) : Out := runFR f (use2 .f64) true 8 (fAdd .f64) s

/-- dsub.f64 (R128). -/
def execDsubF64 (f : FormR) (s : State) : Out := runFR f (use2 .f64) true 8 (fSub .f64) s

/-- dmul.f64 (R128). -/
def execDmulF64 (f : FormR) (s : State) : Out := runFR f (use2 .f64) true 8 (fMul .f64) s

/-- dfma.f64 (R128). -/
def execDfmaF64 (f : FormR) (s : State) : Out := runFR f (use3 .f64) true 8 (fFma .f64) s

/-- dmin.f64 (R128). -/
def execDminF64 (f : FormR) (s : State) : Out := runFR f (use2 .f64) true 8 (fMinMax .f64 true) s

/-- dmax.f64 (R128). -/
def execDmaxF64 (f : FormR) (s : State) : Out := runFR f (use2 .f64) true 8 (fMinMax .f64 false) s

/-- fcls.f32 (R129): FTZI is not applied. -/
def execFclsF32 (f : FormR) (s : State) : Out := runFR f (use1 .f32) false 4 (fun _ a _ _ => (classify .f32 a, 0)) s

/-- dcls.f64 (R129): a pair is read, one register is written. -/
def execDclsF64 (f : FormR) (s : State) : Out := runFR f (use1 .f64) false 8 (fun _ a _ _ => (classify .f64 a, 0)) s

/-! ## Compares (R130) -/

/-- The predicates of R130. -/
inductive FPred where
  | eq
  | ne
  | lt
  | le
  | gt
  | ge
  | un
  | or
deriving DecidableEq, Repr

/-- t of R130. -/
def FPred.test (p : FPred) (a y : Val) : Bool :=
  let un := a.isNan || y.isNan
  match p with
  | .eq => !un && eqV a y
  | .ne => un || !eqV a y
  | .lt => !un && ltV a y
  | .le => !un && !ltV y a
  | .gt => !un && ltV y a
  | .ge => !un && !ltV a y
  | .un => un
  | .or => !un
/-- NV of R130: any NaN for the ordered predicates, a signalling NaN for the others. -/
def FPred.nv (p : FPred) (a y : Val) : Bool :=
  match p with
  | .lt | .le | .gt | .ge => a.isNan || y.isNan
  | _ => a.isSnan || y.isSnan

/-- The comparand fields of a compare: its register is aligned for dcmp (R130). -/
def fcmpSrcs (f : FormI) (pair : Bool) : List Opnd :=
  [if pair then grp f.a 2 else one f.a] ++ if cmpImmF f then [] else [if pair then grp (cmpRegB f) 2 else one (cmpRegB f)]

/-- fcmp and dcmp (R130): one guard bit per lane, NV the only flag. -/
def runFcmp (f : FormI) (pair : Bool) (p : FPred) (s : State) : Out :=
  let fm : NFmt := if pair then .f64 else .f32
  let bit := f.sub.toNat % 32
  issue { specI f (fcmpSrcs f pair) [] (.fixed (if pair then 8 else 4)) with dsts := [], fpx := true } (fun _ => cmpBad f)
    (fun x s =>
      let t : ETy := if pair then .f64 else .f32
      let a := x.wide s f.a t
      let b := if cmpImmF f then fun _ => 0#64 else x.wide s (cmpRegB f) t
      fpDone x s (1#32 <<< bit) [f.d.toNat] (fun l =>
        let va := fval fm x.c.mode (a l).toNat
        let vy := if cmpImmF f then (if pair then NFmt.f32.decode f.imm.toNat else fval .f32 x.c.mode f.imm.toNat)
                  else fval fm x.c.mode (b l).toNat
        LaneRes.plain [if p.test va vy then 1#32 <<< bit else 0#32] (if p.nv va vy then flNV else 0) (x.seed l))) s

/-- fcmp.eq.f32 (R130). -/
def execFcmpEqF32 (f : FormI) (s : State) : Out := runFcmp f false .eq s

/-- fcmp.ne.f32 (R130). -/
def execFcmpNeF32 (f : FormI) (s : State) : Out := runFcmp f false .ne s

/-- fcmp.lt.f32 (R130). -/
def execFcmpLtF32 (f : FormI) (s : State) : Out := runFcmp f false .lt s

/-- fcmp.le.f32 (R130). -/
def execFcmpLeF32 (f : FormI) (s : State) : Out := runFcmp f false .le s

/-- fcmp.gt.f32 (R130). -/
def execFcmpGtF32 (f : FormI) (s : State) : Out := runFcmp f false .gt s

/-- fcmp.ge.f32 (R130). -/
def execFcmpGeF32 (f : FormI) (s : State) : Out := runFcmp f false .ge s

/-- fcmp.un.f32 (R130). -/
def execFcmpUnF32 (f : FormI) (s : State) : Out := runFcmp f false .un s

/-- fcmp.or.f32 (R130). -/
def execFcmpOrF32 (f : FormI) (s : State) : Out := runFcmp f false .or s

/-- dcmp.eq.f64 (R130). -/
def execDcmpEqF64 (f : FormI) (s : State) : Out := runFcmp f true .eq s

/-- dcmp.ne.f64 (R130). -/
def execDcmpNeF64 (f : FormI) (s : State) : Out := runFcmp f true .ne s

/-- dcmp.lt.f64 (R130). -/
def execDcmpLtF64 (f : FormI) (s : State) : Out := runFcmp f true .lt s

/-- dcmp.le.f64 (R130). -/
def execDcmpLeF64 (f : FormI) (s : State) : Out := runFcmp f true .le s

/-- dcmp.gt.f64 (R130). -/
def execDcmpGtF64 (f : FormI) (s : State) : Out := runFcmp f true .gt s

/-- dcmp.ge.f64 (R130). -/
def execDcmpGeF64 (f : FormI) (s : State) : Out := runFcmp f true .ge s

/-- dcmp.un.f64 (R130). -/
def execDcmpUnF64 (f : FormI) (s : State) : Out := runFcmp f true .un s

/-- dcmp.or.f64 (R130). -/
def execDcmpOrF64 (f : FormI) (s : State) : Out := runFcmp f true .or s

/-! ## Special functions (R131, R132) -/

/-- A special function whose result rounds under mode.fn. -/
def runFn (f : FormR) (g : Val → Fn) (s : State) : Out :=
  runFp (specR f (use1 .f32) [one f.d] (.fixed 12)) ((use1 .f32).bad f) (dstRegs false)
    (fun x s =>
      let a := x.opA s (use1 .f32) f
      fun l =>
        let r := (g (fval .f32 x.c.mode (a l).toNat)).round .f32 (ctlFn x.c.mode) (s.pick [8, l] 2)
        LaneRes.plain (codeWords false r.1) r.2 (x.seed l)) s

/-- rcp.f32 (R131). -/
def execRcpF32 (f : FormR) (s : State) : Out := runFR f (use1 .f32) false 12 (fun md a _ _ => (rcpV (fval .f32 md a)).rounded .f32 (NFmt.arith .f32 md)) s

/-- rcp.f64 (R131). -/
def execRcpF64 (f : FormR) (s : State) : Out := runFR f (use1 .f64) true 15 (fun md a _ _ => (rcpV (fval .f64 md a)).rounded .f64 (NFmt.arith .f64 md)) s

/-- sqrt.f32 (R131). -/
def execSqrtF32 (f : FormR) (s : State) : Out := runFR f (use1 .f32) false 12 (fun md a _ _ => (sqrtV (fval .f32 md a)).rounded .f32 (NFmt.arith .f32 md)) s

/-- sqrt.f64 (R131). -/
def execSqrtF64 (f : FormR) (s : State) : Out := runFR f (use1 .f64) true 15 (fun md a _ _ => (sqrtV (fval .f64 md a)).rounded .f64 (NFmt.arith .f64 md)) s

/-- rsqrt.f32 (R131, R132). -/
def execRsqrtF32 (f : FormR) (s : State) : Out := runFn f (fun v => .exact (rsqrtV v)) s

/-- exp2.f32 (R131, R132). -/
def execExp2F32 (f : FormR) (s : State) : Out := runFn f exp2V s

/-- log2.f32 (R131, R132). -/
def execLog2F32 (f : FormR) (s : State) : Out := runFn f log2V s

/-- sin.f32 (R131, R132). -/
def execSinF32 (f : FormR) (s : State) : Out := runFn f (trigV false) s

/-- cos.f32 (R131, R132). -/
def execCosF32 (f : FormR) (s : State) : Out := runFn f (trigV true) s

/-- tanh.f32 (R131, R132). -/
def execTanhF32 (f : FormR) (s : State) : Out := runFn f tanhV s

end Sys2Proof.Machine
end

