-- ==== Sys2Proof/Machine/Convert.lean ====
section
/-!
DEFINITION. Convert.lean: scalar conversion, packing, block quantisation and the generator (spec 06 R133 to R141; 04 R81, R93).
-/

namespace Sys2Proof.Machine

open Sys2Proof

/-! ## cvt (R133, R134) -/

/-- The control word IMM32 of cvt (R133). -/
structure CvtImm where
  sato : Bool
  rndo : Nat
  merge : Bool
  dsel : Nat
  ssel : Nat
  dst : NFmt
  src : NFmt
  rsv : Nat
deriving DecidableEq, Repr

/-- The fields of IMM32. -/
def CvtImm.of (w : Word) : CvtImm :=
  { sato := w.getLsbD 18, rndo := bitsOf w.toNat 17 15, merge := w.getLsbD 14, dsel := bitsOf w.toNat 13 11,
    ssel := bitsOf w.toNat 10 8, dst := .ofCode (bitsOf w.toNat 7 4), src := .ofCode (bitsOf w.toNat 3 0), rsv := bitsOf w.toNat 31 19 }

/-- SSEL and DSEL name an element of a 32-bit register (R133). -/
def selOk (f : NFmt) (i : Nat) : Bool := decide (i < max 1 (32 / f.width))

/-- The rules of R133 whose breach raises ILLFIELD, but for the pairing of registers. -/
def CvtImm.bad (c : CvtImm) (sr : Bool) : Bool :=
  c.rsv ≠ 0 || decide (6 ≤ c.rndo) || (sr && c.rndo ≠ 0) || !selOk c.src c.ssel || !selOk c.dst c.dsel ||
    (c.merge && decide (32 ≤ c.dst.width))

/-- The control of the destination, with RNDO, SATO and cvt.sr applied (R134). -/
def CvtImm.ctl (c : CvtImm) (sr : Bool) (md : Word) : Ctl :=
  let k := c.dst.ctl md
  { k with rnd := if sr then 5 else if c.rndo = 0 then k.rnd else c.rndo - 1, sat := k.sat || c.sato }

/-- One conversion: code, flags, and RNGSEED after the draw that SR makes (R91, R93). -/
def convert (dst src : NFmt) (c : Ctl) (ftzi : Bool) (seed : Word) (code : Nat) : Nat × Nat × Word :=
  let sd := if c.rnd = 5 then rngDraw seed else seed
  let y := roundTo dst c (sd.toNat % 65536) (!src.isFloat) (src.decode (src.flushIn ftzi code))
  (y.1, y.2, sd)

/-- cvt and cvt.sr (R133, R134). Under MERGE the whole register is written, from its value as it stands before the instruction, or
before its pair (R42); where D names a queue, old D is the window register that the push writes. (log 40, DESIGN CHOICE) -/
def runCvt (f : FormI) (sr : Bool) (s : State) : Out :=
  let c := CvtImm.of f.imm
  let sp := c.src.width = 64
  let dp := c.dst.width = 64
  issue { specI f [if sp then grp f.a 2 else one f.a] [if dp then grp f.d 2 else one f.d] (.fixed 6) with fpx := true }
    (fun _ => f.sub ≠ 0#7 || c.bad sr)
    (fun x s =>
      let a := x.wide s f.a (if sp then .b64 else .b32)
      let k := c.ctl sr x.c.mode
      let sh := c.dst.width * c.dsel
      let keep := if c.merge then ~~~(BitVec.ofNat 32 ((2 ^ c.dst.width - 1) * 2 ^ sh)) else 0#32
      let old := x.plain s (x.d 0)
      fpDone x s 0xFFFFFFFF#32 (dstRegs (decide dp) x) (fun l =>
        let code := (a l).toNat / 2 ^ (c.src.width * c.ssel) % 2 ^ c.src.width
        let y := convert c.dst c.src k (modeFtzi x.c.mode) (x.seed l) code
        { w := if c.merge then [(rowAt old l &&& keep) ||| BitVec.ofNat 32 (y.1 * 2 ^ sh)] else codeWords (decide dp) (y.1 * 2 ^ sh),
          fl := y.2.1, rng := y.2.2 })) s

/-- cvt (R133, R134). -/
def execCvt (f : FormI) (s : State) : Out := runCvt f false s
/-- cvt.sr (R133, R134). -/
def execCvtSr (f : FormI) (s : State) : Out := runCvt f true s

/-! ## pack and unpack (R135, R136) -/

/-- Elements converted in order, drawing in order: codes, union of flags, RNGSEED (R91). -/
def convertAll (dst src : NFmt) (c : Ctl) (ftzi : Bool) : List Nat → Word → List Nat × Nat × Word
  | [], seed => ([], 0, seed)
  | x :: xs, seed =>
    let y := convert dst src c ftzi seed x
    let r := convertAll dst src c ftzi xs y.2.2
    (y.1 :: r.1, y.2.1 ||| r.2.1, r.2.2)

/-- The pack forms (R135): four registers, or four pairs, into one word. -/
def runPack (f : FormX) (dst src : NFmt) (s : State) : Out :=
  let pair := dst.width = 4
  let o := fun r => if pair then grp r 2 else one r
  let t : ETy := if pair then .b64 else .b32
  runFp (specX f [o f.a, o f.b, o f.c, o f.e] [one f.d] (.fixed 6)) (fun _ => f.rsv ≠ 0#6) (dstRegs false)
    (fun x s =>
      let a := x.wide s f.a t
      let b := x.wide s f.b t
      let c := x.wide s f.c t
      let e := x.wide s f.e t
      fun l =>
        let vs := [a l, b l, c l, e l].flatMap (fun v => if pair then [v.toNat % 2 ^ 32, v.toNat / 2 ^ 32] else [v.toNat])
        let r := convertAll dst src (dst.ctl x.c.mode) (modeFtzi x.c.mode) vs (x.seed l)
        { w := [BitVec.ofNat 32 (joinElems dst.width r.1)], fl := r.2.1, rng := r.2.2 }) s

/-- pack.e4m3 (R135). -/
def execPackE4m3 (f : FormX) (s : State) : Out := runPack f .e4m3 .f32 s
/-- pack.e5m2 (R135). -/
def execPackE5m2 (f : FormX) (s : State) : Out := runPack f .e5m2 .f32 s
/-- pack.e2m1 (R135). -/
def execPackE2m1 (f : FormX) (s : State) : Out := runPack f .e2m1 .f32 s
/-- pack.i4 (R135): integer from integer. -/
def execPackI4 (f : FormX) (s : State) : Out := runPack f .i4 .i32 s

/-- The unpack forms (R136): every element exactly, into a group of n registers. -/
def runUnpack (f : FormR) (t : ETy) (src dst : NFmt) (n : Nat) (s : State) : Out :=
  runFp (specR f (use1 t) [grp f.d n] (.fixed 6)) ((use1 t).bad f) (fun x => (List.range n).map (fun i => x.d 0 + i))
    (fun x s =>
      let a := x.opA s (use1 t) f
      fun l =>
        let ys := (elemsOf src.width 32 (a l).toNat).map (fun e => roundTo dst Ctl.rne 0 (!src.isFloat) (src.decode e))
        LaneRes.plain (ys.map (fun y => BitVec.ofNat 32 y.1)) (ys.foldl (fun u y => u ||| y.2) 0) (x.seed l)) s

/-- unpack.e4m3 (R136). -/
def execUnpackE4m3 (f : FormR) (s : State) : Out := runUnpack f .f8x4 .e4m3 .f32 4 s
/-- unpack.e5m2 (R136). -/
def execUnpackE5m2 (f : FormR) (s : State) : Out := runUnpack f .f8x4 .e5m2 .f32 4 s
/-- unpack.e2m1 (R136). -/
def execUnpackE2m1 (f : FormR) (s : State) : Out := runUnpack f .f4x8 .e2m1 .f32 8 s
/-- unpack.i4 (R136). -/
def execUnpackI4 (f : FormR) (s : State) : Out := runUnpack f .i4x8 .i4 .i32 8 s

/-! ## Block quantisation (R81, R137 to R139) -/

/-- The value of an E8M0 or UE5M3 scale code (R81). -/
def scaleVal (ue : Bool) (code : Nat) : Val :=
  if code % 256 = 255 then .nan false
  else if ue then
    let e := code / 8 % 32
    let m := code % 8
    if e = 0 then .fin false m (-17) false else .fin false (8 + m) ((e : Int) - 18) false
  else .fin false 1 ((code % 256 : Nat) - (127 : Int)) false

/-- The element format of EFMT (R137). -/
def efmtOf (e : Nat) : NFmt :=
  match e with
  | 0 => .e4m3
  | 1 => .e5m2
  | 2 => .e2m1
  | 3 => .i8
  | _ => .i4
/-- emax of EFMT (R137). -/
def emaxOf (e : Nat) : Nat :=
  match e with
  | 0 => 448
  | 1 => 57344
  | 2 => 6
  | 3 => 127
  | _ => 7

/-- A control word with a nonzero reserved field or a reserved EFMT (R137). -/
def qctlBad (w : Nat) : Bool := w / 128 ≠ 0 || decide (5 ≤ w % 8)

/-- The quotient of two finite values, exact or with its mark. -/
def divV (a b : Val) : Val :=
  match a, b with
  | .fin n m e _, .fin _ m2 e2 _ => if m = 0 then .zero n else divM n m e m2 e2
  | a, _ => a

/-- e = ceil(log2(m / emax)) for a positive finite value (R138). -/
def ceilLog2 (v : Val) (emax : Nat) : Int :=
  match v with
  | .fin _ m e _ =>
    let k := e + bitLen m - bitLen emax
    if ltV (.fin false emax k false) v then k + 1 else k
  | _ => 0

/-- round_to(ue5m3, RUP, x) for a positive finite x, capped at 0xFE (R138). -/
def roundUe5m3 (v : Val) : Nat :=
  match v with
  | .fin _ m e st =>
    let q : Int := max (e + bitLen m - 1 - 3) (-17)
    let r := roundAt 2 false m e st q 0
    min ((q + 17).toNat * 8 + r.1) 0xFE
  | _ => 0xFE

/-- The scale of a segment whose largest magnitude is v (R138). -/
def segScale (ue : Bool) (emax : Nat) (v : Val) : Nat :=
  if ue then (if v.isZero then 0x78 else max 1 (roundUe5m3 (divV v (.fin false emax 0 false))))
  else ((max (-127) (min 127 (if v.isZero then 0 else ceilLog2 v emax)) : Int) + 127).toNat

/-- The larger of two magnitudes. -/
def maxMag (a b : Val) : Val := if ltV a.abs b.abs then b.abs else a.abs

/-- What qblk does in one lane of a segment: the element code, the scale and the flags (R138). -/
def qblkLane (md : Word) (w : Nat) (special : Bool) (sc : Nat) (v : Val) (seed : Word) : LaneRes :=
  let fm := efmtOf (w % 8)
  let c := fm.ctl md
  let sd := if c.rnd = 5 then rngDraw seed else seed
  let y := roundTo fm c (sd.toNat % 65536) false (if special then .nan false else divV v (scaleVal (bitOf w 3) sc))
  let own := match v with
    | .fin _ _ _ _ => 0
    | _ => flNV
  { w := [BitVec.ofNat 32 y.1, BitVec.ofNat 32 sc], fl := y.2 ||| own, rng := sd }

/-- An operand that accepts modifier code 0 only (R123); under PERM the field is the permutation. -/
def ctlNibBad (c : Crew) (f : FormR) (hi lo : Nat) : Bool := !c.perm && bitsOf f.md.toNat hi lo ≠ 0

/-- Operand use of qblk (R138). -/
def useQ : RUse := { a := some .f32, b := some .b32, c := none }

/-- qblk (R137, R138). The mask that ILLFIELD reports holds the lanes of `act` of the failing segments. (log 40, DESIGN CHOICE) -/
def execQblk (f : FormR) (s : State) : Out :=
  issue { specR f useQ [grp f.d 2] (.fixed 14) with fpx := true } (fun c => useQ.bad f c || ctlNibBad c f 7 4)
    (fun x s =>
      let a := x.opA s useQ f
      let b := x.opB s useQ f
      let lseg := bitsOf (b x.l0).toNat 6 4
      if x.act ≠ 0#64 ∧ (lseg < 3 ∨ 6 < lseg) then .error (.raise (sysCause 0x02 0 0 0#64 x.act))
      else
        let sz := 2 ^ lseg
        let seg := fun l => (maskLanes x.act).filter (fun k => k / sz == l / sz)
        let word := fun l => (b ((seg l).headD 0)).toNat
        let badm := mkMask (fun l => x.act.getLsbD l && qctlBad (word l))
        if badm ≠ 0#64 then .error (.raise (sysCause 0x02 0 0 0#64 badm))
        else
          let md := x.c.mode
          let v := fun l => fval .f32 md (a l).toNat
          let info := (List.range (64 / sz)).map (fun g =>
            let ls := seg (g * sz)
            let special := ls.any (fun k => match v k with
              | .fin _ _ _ _ => false
              | _ => true)
            let w := word (g * sz)
            let m := ls.foldl (fun m k => maxMag m (v k)) (Val.zero false)
            (special, if special then 0xFF else segScale (bitOf w 3) (emaxOf (w % 8)) m, w))
          fpDone x s 0xFFFFFFFF#32 (dstRegs true x) (fun l =>
            let i := info.getD (l / sz) (false, 0, 0)
            qblkLane md i.2.2 i.1 i.2.1 (v l) (x.seed l))) s

/-- Operand use of dqblk (R139). -/
def useDq : RUse := { a := some .b32, b := some .b32, c := some .b32 }

/-- dqblk (R137, R139): each lane checks its own control word. -/
def execDqblk (f : FormR) (s : State) : Out :=
  issue { specR f useDq [one f.d] (.fixed 14) with fpx := true } (fun c => useDq.bad f c || ctlNibBad c f 11 0)
    (fun x s =>
      let a := x.opA s useDq f
      let b := x.opB s useDq f
      let c := x.opC s useDq f
      let badm := mkMask (fun l => x.act.getLsbD l && qctlBad (c l).toNat)
      if badm ≠ 0#64 then .error (.raise (sysCause 0x02 0 0 0#64 badm))
      else
        fpDone x s 0xFFFFFFFF#32 (dstRegs false x) (fun l =>
          let w := (c l).toNat
          let fm := efmtOf (w % 8)
          let r := mulV (fm.decode ((a l).toNat % 2 ^ fm.width)) (scaleVal (bitOf w 3) (b l).toNat)
          let y := arithRound .f32 x.c.mode r
          LaneRes.plain [BitVec.ofNat 32 y.1] y.2 (x.seed l))) s

/-! ## The generator (R140, R141) -/

/-- rngseed (R140). -/
def execRngseed (f : FormR) (s : State) : Out :=
  let u : RUse := { a := some .b32, b := some .b32, c := none }
  issue { specR f u [] (.fixed 2) with dsts := [] } (fun c => u.bad f c || ctlNibBad c f 11 4 || f.d ≠ 0#8)
    (fun x s =>
      let a := x.opA s u f
      let b := x.opB s u f
      let row := mkRow (fun l => lo32 (a l) + BitVec.ofNat 32 l * lo32 (b l))
      .ok { s := s.modCrew x.id (fun c => { c with rng := mergeRow c.rng row x.act 0xFFFFFFFF#32 }), wr := [], ctl := false }) s

/-- rngnext (R140). -/
def execRngnext (f : FormR) (s : State) : Out :=
  let u : RUse := { a := none, b := none, c := none }
  issue (specR f u [one f.d] (.fixed 2)) (u.bad f)
    (fun x s =>
      let row := mkRow (fun l => rngDraw (x.seed l))
      .ok { s := s.modCrew x.id (fun c => { c with rng := mergeRow c.rng row x.act 0xFFFFFFFF#32 }),
            wr := [Wr.full (x.d 0) x.act (fun l => BitVec.ofNat 32 ((rowAt row l).toNat % 65536))], ctl := false }) s

end Sys2Proof.Machine
end

