-- ==== Sys2Proof/Machine/CrossLane.lean ====
section
/-!
DEFINITION. CrossLane.lean: point reads, butterfly exchange, reductions, scans, votes and top-k (spec 07 R142 to R148, R159).
-/

namespace Sys2Proof.Machine

open Sys2Proof

/-- Z of SUB (R142). -/
def xlZ (f : FormI) : Bool := f.sub.getLsbD 6
/-- SEGC of SUB. -/
def xlSegc (f : FormI) : Nat := f.sub.toNat % 16
/-- Segment size S (R142). -/
def xlSeg (f : FormI) : Nat := if xlSegc f = 0 then 64 else 2 ^ xlSegc f
/-- SUB as R142 admits it; a form that is not a point read has Z = 0 (R143). -/
def xlBad (f : FormI) (point : Bool) : Bool :=
  bitsOf f.sub.toNat 5 4 ≠ 0 || decide (7 < xlSegc f) || decide (64 < xlSeg f) || (!point && xlZ f)
/-- The lowest lane of a lane's segment. -/
def segBase (sz l : Nat) : Nat := l - l % sz

/-- The distance fields of IMM32 (R144). -/
structure XlImm where
  rsv : Bool
  wrel : Bool
  neg : Bool
  dist : Nat
  regb : Nat
deriving DecidableEq, Repr
/-- IMM32 of a point read. -/
def XlImm.of (w : Word) : XlImm :=
  { rsv := bitsOf w.toNat 31 20 ≠ 0 || bitsOf w.toNat 17 16 ≠ 0, wrel := w.getLsbD 19, neg := w.getLsbD 18,
    dist := bitsOf w.toNat 15 8, regb := bitsOf w.toNat 7 0 }
/-- |d| (R144). -/
def XlImm.d (x : XlImm) : Nat := if x.wrel then 64 / 2 ^ x.dist else x.dist
/-- The fields a form must leave zero. -/
def XlImm.bad (x : XlImm) (rot idx : Bool) : Bool :=
  x.rsv || (x.neg && !rot) || (x.wrel && decide (7 < x.dist)) || (!idx && x.regb ≠ 0) || (idx && (x.wrel || x.dist ≠ 0))

/-- A point read (R143, R144): `src l o` is the source lane, when it lies in the segment. -/
def pointRead (f : FormI) (srcs : List Opnd) (bad : Bool) (src : Ctx → State → Nat → Nat → Option Nat) (s : State) : Out :=
  issue (specI f srcs [one f.d] (.fixed 6)) (fun _ => xlBad f true || bad)
    (fun x s =>
      let sz := xlSeg f
      let a := x.row s f.a.toNat
      let g := src x s
      let ss := lanes.map (fun l => (g l (l % sz)).filter (fun k => x.act.getLsbD k))
      let miss := mkMask (fun l => x.act.getLsbD l && (ss.getD l none).isNone)
      if miss ≠ 0#64 ∧ !xlZ f then .error (.raise (crewCause 0x05 0 0 miss miss false))
      else
        .ok { s := s, wr := [Wr.full (x.d 0) x.act (fun l => match ss.getD l none with
                | some k => rowAt a k
                | none => 0#32)], ctl := false }) s

/-- xlane.rot (R144). -/
def execXlaneRot (f : FormI) (s : State) : Out :=
  let i := XlImm.of f.imm
  pointRead f [one f.a] (i.bad true false)
    (fun _ _ l o => some (segBase (xlSeg f) l +
      (if i.neg then (o + xlSeg f - i.d % xlSeg f) % xlSeg f else (o + i.d) % xlSeg f))) s
/-- xlane.shup (R144). -/
def execXlaneShup (f : FormI) (s : State) : Out :=
  let i := XlImm.of f.imm
  pointRead f [one f.a] (i.bad false false) (fun _ _ l o => if o < i.d then none else some (l - i.d)) s
/-- xlane.shdn (R144). -/
def execXlaneShdn (f : FormI) (s : State) : Out :=
  let i := XlImm.of f.imm
  pointRead f [one f.a] (i.bad false false) (fun _ _ l o => if xlSeg f ≤ o + i.d then none else some (l + i.d)) s
/-- xlane.idx (R144). -/
def execXlaneIdx (f : FormI) (s : State) : Out :=
  let i := XlImm.of f.imm
  pointRead f [one f.a, { reg := i.regb, size := 1 }] (i.bad false true)
    (fun x s =>
      let b := x.row s i.regb
      fun l _ =>
        let k := (rowAt b l).toNat % 256
        if xlSeg f ≤ k then none else some (segBase (xlSeg f) l + k)) s
/-- xbcast (R144). -/
def execXbcast (f : FormI) (s : State) : Out :=
  let i := XlImm.of f.imm
  pointRead f [one f.a] (i.bad false false || decide (xlSeg f ≤ i.d)) (fun _ _ l _ => some (segBase (xlSeg f) l + i.d)) s

/-- bfly (R145). -/
def execBfly (f : FormI) (s : State) : Out :=
  let i := XlImm.of f.imm
  let g := i.regb % 8
  let n := 2 ^ g
  let d := i.d
  issue (specI f [grp f.a n] [grp f.d n] (.fixed 6))
    (fun _ => xlBad f true || i.rsv || i.neg || (i.wrel && decide (7 < i.dist)) || i.regb / 8 ≠ 0 || decide (5 < g) ||
      decide (xlSeg f ≤ d) || (decide (1 ≤ g) && !(decide (0 < d) && d == 2 ^ d.log2 && decide (d < n))))
    (fun x s =>
      let rows := (List.range n).map (fun j => if n = 1 then x.row s f.a.toNat else x.plain s (f.a.toNat + j))
      let ok := fun l => x.act.getLsbD (l ^^^ d)
      let miss := mkMask (fun l => x.act.getLsbD l && !ok l)
      if miss ≠ 0#64 ∧ !xlZ f then .error (.raise (crewCause 0x05 0 0 miss miss false))
      else
        let cross := fun l k => if ok l then rowAt (rows.getD k []) (l ^^^ d) else 0#32
        .ok { s := s,
              wr := (List.range n).map (fun j => Wr.full (if n = 1 then x.d 0 else x.d 0 + j) x.act (fun l =>
                if n = 1 then cross l 0
                else if bitOf l d.log2 ≠ bitOf j d.log2 then cross l (j ^^^ d)
                else rowAt (rows.getD j []) l)),
              ctl := false }) s

/-! ## Reductions and scans (R146) -/

/-- The combining operation of a reduction: value and flags. -/
abbrev Comb := Word → Nat → Nat → Nat × Nat

/-- comb of R146: ABSENT, or a value with the flags met so far in the segment. -/
def combOpt (op : Nat → Nat → Nat × Nat) (u v : Option Nat) : Option Nat × Nat :=
  match u, v with
  | none, v => (v, 0)
  | u, none => (u, 0)
  | some a, some b => let r := op a b; (some r.1, r.2)

/-- One level of a reduction at distance 2^k (R146). -/
def redLevel (op : Nat → Nat → Nat × Nat) (k : Nat) (st : List (Option Nat) × Nat) : List (Option Nat) × Nat :=
  ((List.range st.1.length).filter (fun i => i % 2 ^ (k + 1) == 0)).foldl
    (fun st i =>
      let r := combOpt op (st.1.getD i none) (st.1.getD (i + 2 ^ k) none)
      (st.1.set i r.1, st.2 ||| r.2)) st

/-- One level of a scan at distance 2^k (R146). -/
def scanLevel (op : Nat → Nat → Nat × Nat) (k : Nat) (st : List (Option Nat) × Nat) : List (Option Nat) × Nat :=
  let y := st.1
  let r := (List.range y.length).map (fun i =>
    if i < 2 ^ k then (y.getD i none, 0) else combOpt op (y.getD (i - 2 ^ k) none) (y.getD i none))
  (r.map (fun p => p.1), r.foldl (fun u p => u ||| p.2) st.2)

/-- All levels for a segment of S values. -/
def combLevels (level : Nat → List (Option Nat) × Nat → List (Option Nat) × Nat) (sz : Nat) (xs : List (Option Nat)) :
    List (Option Nat) × Nat :=
  (List.range sz.log2).foldl (fun st k => level k st) (xs, 0)

/-- red and scan (R146): `dec` decodes a source, `fin` writes a value that met no operation;
`fl`: the operation sets FPFLAGS. -/
def runComb (f : FormI) (scan fl : Bool) (dec : Word → Nat → Nat) (fin : Nat → Nat) (op : Comb) (s : State) : Out :=
  issue { specI f [one f.a] [one f.d] (.fixed 14) with fpx := fl } (fun _ => xlBad f false || f.imm ≠ 0#32)
    (fun x s =>
      let sz := xlSeg f
      let a := x.row s f.a.toNat
      let md := x.c.mode
      let segs := (List.range (64 / sz)).map (fun g =>
        combLevels (if scan then scanLevel (op md) else redLevel (op md)) sz
          ((List.range sz).map (fun i =>
            if x.act.getLsbD (g * sz + i) then some (dec md (rowAt a (g * sz + i)).toNat) else none)))
      fpDone x s 0xFFFFFFFF#32 [x.d 0] (fun l =>
        let r := segs.getD (l / sz) ([], 0)
        LaneRes.plain [BitVec.ofNat 32 (fin ((r.1.getD (if scan then l % sz else 0) none).getD 0))] r.2 (x.seed l))) s

/-- An integer combining operation on words. -/
def combWord (g : Word → Word → Word) : Comb := fun _ a b => ((g (BitVec.ofNat 32 a) (BitVec.ofNat 32 b)).toNat, 0)
/-- Sources of integer reductions are read as they stand. -/
def decWord : Word → Nat → Nat := fun _ x => x
/-- Sources of FP32 reductions: FTZI (R146). -/
def decF32 : Word → Nat → Nat := fun md x => NFmt.f32.flushIn (modeFtzi md) x
/-- A NaN is made canonical (R80, R146). -/
def finF32 (x : Nat) : Nat := if (NFmt.f32.decode x).isNan then 0x7FC00000 else x
/-- FP32 sum of two combined values: FTZI has been applied to the sources only. -/
def combAddF32 : Comb := fun md a b => arithRound .f32 md (addV (modeRdn .f32 md) (NFmt.f32.decode a) (NFmt.f32.decode b))
/-- FP32 minimum or maximum of two combined values (R125). -/
def combMinMaxF32 (isMin : Bool) : Comb := fun md a b => minMax .f32 isMin (modeFtzo md) a b
/-- Signed minimum. -/
def wordMin (a b : Word) : Word := if a.toInt ≤ b.toInt then a else b
/-- Signed maximum. -/
def wordMax (a b : Word) : Word := if a.toInt ≤ b.toInt then b else a

/-- red.add.i32 (R146). -/
def execRedAddI32 (f : FormI) (s : State) : Out := runComb f false false decWord id (combWord (· + ·)) s
/-- red.min.i32 (R146). -/
def execRedMinI32 (f : FormI) (s : State) : Out := runComb f false false decWord id (combWord wordMin) s
/-- red.max.i32 (R146). -/
def execRedMaxI32 (f : FormI) (s : State) : Out := runComb f false false decWord id (combWord wordMax) s
/-- red.and.b32 (R146). -/
def execRedAndB32 (f : FormI) (s : State) : Out := runComb f false false decWord id (combWord (· &&& ·)) s
/-- red.or.b32 (R146). -/
def execRedOrB32 (f : FormI) (s : State) : Out := runComb f false false decWord id (combWord (· ||| ·)) s
/-- red.xor.b32 (R146). -/
def execRedXorB32 (f : FormI) (s : State) : Out := runComb f false false decWord id (combWord (· ^^^ ·)) s
/-- red.add.f32 (R146). -/
def execRedAddF32 (f : FormI) (s : State) : Out := runComb f false true decF32 finF32 combAddF32 s
/-- red.min.f32 (R146). -/
def execRedMinF32 (f : FormI) (s : State) : Out := runComb f false true decF32 finF32 (combMinMaxF32 true) s
/-- red.max.f32 (R146). -/
def execRedMaxF32 (f : FormI) (s : State) : Out := runComb f false true decF32 finF32 (combMinMaxF32 false) s
/-- scan.add.i32 (R146). -/
def execScanAddI32 (f : FormI) (s : State) : Out := runComb f true false decWord id (combWord (· + ·)) s
/-- scan.min.i32 (R146). -/
def execScanMinI32 (f : FormI) (s : State) : Out := runComb f true false decWord id (combWord wordMin) s
/-- scan.max.i32 (R146). -/
def execScanMaxI32 (f : FormI) (s : State) : Out := runComb f true false decWord id (combWord wordMax) s
/-- scan.add.f32 (R146). -/
def execScanAddF32 (f : FormI) (s : State) : Out := runComb f true true decF32 finF32 combAddF32 s

/-! ## Votes and matching (R147) -/

/-- A mask result per lane: two registers, lanes 0 to 31 in the even one (R147). -/
def runMask (f : FormI) (badImm : Bool) (p : Row → Nat → Nat → Bool) (s : State) : Out :=
  issue (specI f [one f.a] [grp f.d 2] (.fixed 6)) (fun _ => xlBad f false || badImm)
    (fun x s =>
      let sz := xlSeg f
      let a := x.row s f.a.toNat
      .ok { s := s, wr := wrPair (x.d 0) x.act (fun l =>
              mkMask (fun k => x.act.getLsbD k && k / sz == l / sz && p a l k)), ctl := false }) s

/-- ballot (R147). -/
def execBallot (f : FormI) (s : State) : Out :=
  runMask f (f.imm.toNat / 32 ≠ 0) (fun a _ k => (rowAt a k).getLsbD (f.imm.toNat % 32)) s
/-- match (R147). -/
def execMatchLanes (f : FormI) (s : State) : Out := runMask f (f.imm ≠ 0#32) (fun a l k => rowAt a k == rowAt a l) s

/-- any and all (R147): one bit of a guard register. -/
def runVote (f : FormI) (all : Bool) (s : State) : Out :=
  let dbit := bitsOf f.imm.toNat 12 8
  issue { specI f [one f.a] [] (.fixed 6) with dsts := [] }
    (fun _ => xlBad f false || decide (f.d.toNat < 248) || f.imm.toNat / 8192 ≠ 0 || bitsOf f.imm.toNat 7 5 ≠ 0)
    (fun x s =>
      let sz := xlSeg f
      let a := x.row s f.a.toNat
      let t := fun l =>
        let bs := ((maskLanes x.act).filter (fun k => k / sz == l / sz)).map (fun k => (rowAt a k).getLsbD (f.imm.toNat % 32))
        if all then bs.all id else bs.any id
      .ok { s := s, wr := [{ reg := f.d.toNat, row := mkRow (fun l => if t l then 1#32 <<< dbit else 0#32), mask := x.act,
                             bits := 1#32 <<< dbit }], ctl := false }) s

/-- any (R147). -/
def execAny (f : FormI) (s : State) : Out := runVote f false s
/-- all (R147). -/
def execAll (f : FormI) (s : State) : Out := runVote f true s

/-! ## Top-k selection (R148) -/

/-- Rank key of a value: a larger key ranks first. -/
def topkKey (int : Bool) (x : Nat) : Int :=
  if int then svalN x 32
  else if (NFmt.f32.decode x).isNan then 2 ^ 33
  else if bitOf x 31 then -((x % 2 ^ 31 : Nat) : Int) - 1
  else ((x % 2 ^ 31 : Nat) : Int)

/-- A lane inserted into a ranking: ties keep the lower lane first. -/
def rankInsert (key : Nat → Int) : List Nat → Nat → List Nat
  | [], l => [l]
  | k :: r, l => if key l > key k then l :: k :: r else k :: rankInsert key r l
/-- Lanes in rank order. -/
def rankAll (key : Nat → Int) (ls : List Nat) : List Nat := ls.foldl (rankInsert key) []

/-- topk (R148). -/
def execTopk (f : FormI) (s : State) : Out :=
  let xr := f.imm.toNat % 256
  let k := bitsOf f.imm.toNat 11 8
  let int := f.imm.getLsbD 12
  issue { specI f [one f.a] [grp f.d 8, { reg := xr, size := 8 }] .var with squash := true }
    (fun _ => xlBad f false || f.imm.toNat / 8192 ≠ 0 || k == 0 || decide (8 < k) || xr == f.d.toNat)
    (fun x s =>
      let sz := xlSeg f
      let a := x.row s f.a.toNat
      let ranks := (List.range (64 / sz)).map (fun g =>
        rankAll (fun l => topkKey int (rowAt a l).toNat) ((maskLanes x.act).filter (fun l => l / sz == g)))
      let at' := fun l i => ((ranks.getD (l / sz) [])[i]?)
      .ok { s := s,
            wr := (List.range k).map (fun i => Wr.full (x.d 0 + i) x.act (fun l => match at' l i with
                | some c => rowAt a c
                | none => if int then 0x80000000#32 else 0xFF800000#32)) ++
              (List.range k).map (fun i => Wr.full (xr + i) x.act (fun l => match at' l i with
                | some c => BitVec.ofNat 32 (c - segBase sz l)
                | none => 0xFFFFFFFF#32)),
            ctl := false }) s

end Sys2Proof.Machine
end

