-- ==== Sys2Proof/Machine/Control.lean ====
section
/-!
DEFINITION. Control.lean: branches, calls, loops, join, exit, pause and nop (spec 07 R149 to R158; 01 R22 to R26; 02 R53).
-/

namespace Sys2Proof.Machine

open Sys2Proof

/-- The part of an instruction's entry that format B gives. -/
def specB (f : FormB) (srcs dsts : List Opnd) (lat : Lat) : Spec :=
  { h := f.h, ga := f.ga, gb := f.gb, srcs := srcs, dsts := dsts, lat := lat, hint := false, priv := false, ends := false,
    squash := false }
/-- The part of an instruction's entry that format S gives. -/
def specS (f : FormS) (srcs dsts : List Opnd) (lat : Lat) : Spec :=
  { h := f.h, ga := f.ga, gb := Guard.none, srcs := srcs, dsts := dsts, lat := lat, hint := false, priv := false, ends := false,
    squash := false }

/-- A field of a control instruction that names a queue base (R149: ILLFIELD, not QUEUE). (log 19, DEDUCED) -/
def ctlQueueBad (c : Crew) (r n : Nat) : Bool := (List.range n).any (fun i => (qNamed c.queues (r + i)).isSome)

/-- The direct target of format B (R53). -/
def directTarget (f : FormB) (pc : DWord) : DWord :=
  BitVec.ofNat 64 ((pcLine pc + (f.tgt.signExtend 58).toNat * 64) % 2 ^ 64 + f.slot.toNat)

/-- The lines of targets that have all passed their checks, or none. -/
def partLines : List (Res (List Byte)) → Option (List (List Byte))
  | [] => some []
  | .ok l :: r => (partLines r).map (fun ls => l :: ls)
  | .error _ :: _ => none
/-- Place of a failed target check in the order in which they are reported: PARITY and LINEFMT (checks 1 and 2 of R58), CFI (check
3), what the fetch meets (R39), a wait. -/
def failRank : Sig → Nat
  | .raise c => if c.code = 4 then (if c.sub = 0 then 0 else 1) else if c.code = 3 then 2 else 3
  | .stop _ => 3
  | _ => 4
/-- Every target is checked (R40, R149): the lines that the moved parts enter, or the failure that is reported, the earliest check of
R58 first and among equal ones that of the part with the lowest lane (log 40, DESIGN CHOICE); a fetch that meets a fault reports
every lane that would have transferred (R39). -/
def checkParts (s : State) (c : Crew) (parts : List (DWord × Mask)) : Res (List (List Byte)) :=
  let rs := parts.map (fun p => s.checkTarget c.core c.asid p.1 p.2 true)
  match partLines rs with
  | some ls => .ok ls
  | none =>
    let fails := rs.filterMap (fun r => match r with
      | .error e => some e
      | .ok _ => none)
    match (List.range 5).findSome? (fun n => fails.find? (fun e => failRank e == n)) with
    | some (.raise k) =>
      .error (.raiseIn (parts.foldl (fun t p => s.noteFetch c.core c.asid (pcLine p.1) t) s)
        (if failRank (.raise k) = 3 then { k with mask := parts.foldl (fun m p => m ||| p.2) 0#64 } else k))
    | some e => .error e
    | none => .ok []

/-- A running slot at a PC with lanes, its line entered or still to enter. -/
def PcSlot.runAt (p : PcSlot) (pc : DWord) (m : Mask) (line : List Byte) : PcSlot :=
  { p with st := .running, pc := pc, mask := m, line := line, barWait := none }

/-- The lanes of a slot divide (R23, R153): `stay` continues at the next PC in the issuing slot; the parts move, in order.
A stack record has no field for a slot's wait at a barrier or its queued trap, so a slot spilled in that state runs on when it is
refilled, and the trap stays queued (R23, R25; log 40, DESIGN CHOICE). -/
def transfer (x : Ctx) (s : State) (stay : Mask) (parts : List (DWord × Mask)) : Res State :=
  match s.crew? x.id with
  | none => .ok s
  | some c =>
    match checkParts s c parts with
    | .error e => .error e
    | .ok lines =>
      let s := (parts.zip lines).foldl (fun s p => s.noteLine c.core c.asid (pcLine p.1.1) p.2) s
      let p := c.slot x.k
      let all : List (DWord × Mask × List Byte) :=
        (if stay = 0#64 then [] else [(x.next, stay, (p.goto x.next).line)]) ++ (parts.zip lines).map (fun q => (q.1.1, q.1.2, q.2))
      let o := c.slot (!x.k)
      let spill := if 2 ≤ all.length ∧ o.st ≠ .free then [(o.pc, o.st == .parked, o.mask)] else []
      let rest := (all.drop 2).reverse.map (fun q => (q.1, false, q.2.1))
      match s.dsPush x.id (spill ++ rest) with
      | .error (.raiseIn t k) => .error (.raiseIn (s.withNotes t) k)
      | .error e => .error e
      | .ok s =>
        .ok (s.modCrew x.id (fun c =>
          let c := match all[0]? with
            | some q => markRegion (c.setSlot x.k ((c.slot x.k).runAt q.1 q.2.1 q.2.2)) x.k q.1
            | none => c
          match all[1]? with
          | some q => markRegion (c.setSlot (!x.k) (PcSlot.empty.runAt q.1 q.2.1 q.2.2)) (!x.k) q.1
          | none => c))

/-- A transfer of lanes to one direct target (R151). -/
def transferTo (x : Ctx) (s : State) (m : Mask) (pc : DWord) : Res State :=
  transfer x s ((x.c.slot x.k).mask &&& ~~~m) (if m = 0#64 then [] else [(pc, m)])

/-- A transfer of lanes each to its own target, grouped in order of lowest lane (R153). -/
def transferEach (x : Ctx) (s : State) (m : Mask) (pc : Nat → DWord) : Res State :=
  let groups := (maskLanes m).foldl (fun (gs : List (DWord × Mask)) l =>
    match gs.findIdx? (fun g => g.1 == pc l) with
    | some i => gs.modify i (fun g => (g.1, g.2 ||| (1#64 <<< l)))
    | none => gs ++ [(pc l, 1#64 <<< l)]) []
  transfer x s ((x.c.slot x.k).mask &&& ~~~m) groups

/-- The end of a control instruction: the state after the transfer, and its register writes. -/
def ctlDone (r : Res State) (wr : List Wr) : Res Done :=
  match r with
  | .error e => .error e
  | .ok s => .ok { s := s, wr := wr, ctl := true }

/-- SLOT values 5 to 7 are reserved (R53). -/
def slotBad (f : FormB) : Bool := decide (4 < f.slot.toNat)
/-- TGT and SLOT must be zero in a form that does not use them (R150). -/
def tgtUsed (f : FormB) : Bool := f.tgt ≠ 0#22 || f.slot ≠ 0#3

/-- bra (R151). -/
def execBra (f : FormB) (s : State) : Out :=
  issue (specB f [] [] .none) (fun _ => slotBad f || f.a ≠ 0#8 || f.sub ≠ 0#13)
    (fun x s => ctlDone (transferTo x s x.act (directTarget f x.pc)) []) s

/-- brx and ret (R153): targets from the pair A. -/
def runIndirect (f : FormB) (s : State) : Out :=
  issue (specB f [grp f.a 2] [] .none) (fun c => tgtUsed f || f.sub ≠ 0#13 || ctlQueueBad c f.a.toNat 2)
    (fun x s =>
      let a := x.wide s f.a .b64
      ctlDone (transferEach x s x.act a) []) s
/-- brx (R153). -/
def execBrx (f : FormB) (s : State) : Out := runIndirect f s
/-- ret (R153). -/
def execRet (f : FormB) (s : State) : Out := runIndirect f s

/-- call (R154): the link is the PC next in sequence. -/
def execCall (f : FormB) (s : State) : Out :=
  issue (specB f [] [grp f.a 2] (.fixed 2)) (fun c => slotBad f || f.sub ≠ 0#13 || ctlQueueBad c f.a.toNat 2)
    (fun x s => ctlDone (transferTo x s x.act (directTarget f x.pc)) (wrPair f.a.toNat x.act (fun _ => x.next))) s

/-- callx (R154): targets from the pair B that SUB names, read before the link is written. -/
def execCallx (f : FormB) (s : State) : Out :=
  let b : BitVec 8 := f.sub.setWidth 8
  issue (specB f [grp b 2] [grp f.a 2] (.fixed 2))
    (fun c => tgtUsed f || f.sub.toNat / 256 ≠ 0 || ctlQueueBad c f.a.toNat 2 || ctlQueueBad c b.toNat 2)
    (fun x s =>
      let t := x.wide s b .b64
      ctlDone (transferEach x s x.act t) (wrPair f.a.toNat x.act (fun _ => x.next))) s

/-- loop (R152): the counter falls by one, and lanes whose counter is not zero transfer. -/
def execLoop (f : FormB) (s : State) : Out :=
  issue (specB f [one f.a] [one f.a] (.fixed 2)) (fun c => slotBad f || f.sub ≠ 0#13 || ctlQueueBad c f.a.toNat 1)
    (fun x s =>
      let a := x.plain s f.a.toNat
      let taken := mkMask (fun l => x.act.getLsbD l && rowAt a l - 1#32 != 0#32)
      ctlDone (transferTo x s taken (directTarget f x.pc)) [Wr.full f.a.toNat x.act (fun l => rowAt a l - 1#32)]) s

/-- join (R155, R24): the slot parks at its own PC; merge, refill and release follow. -/
def execJoin (f : FormS) (s : State) : Out :=
  issue (specS f [] [] .none) (fun _ => f.ga ≠ Guard.none || f.body ≠ 0#55)
    (fun x s =>
      .ok { s := s.modCrew x.id (fun c => c.setSlot x.k { c.slot x.k with st := .parked, pc := x.pc, parkAt := s.order }),
            wr := [], ctl := true }) s

/-- exit (R156, R26): the lanes of `act` leave the slot; in a callee this raises GATE subcode 8. (log 20, DEDUCED) -/
def execExit (f : FormS) (s : State) : Out :=
  issue (specS f [] [] .none) (fun _ => f.body ≠ 0#55)
    (fun x s =>
      if x.act = 0#64 then ctlDone (transferTo x s 0#64 x.next) []
      else if x.c.callee then
        .error (.raise { gateCause 8 (x.c.gateIndex) with atIssue := true })
      else
        let left := (x.c.slot x.k).mask &&& ~~~x.act
        let s := s.modCrew x.id (fun c => { c with exited := c.exited ||| x.act })
        if left = 0#64 then
          .ok { s := s.modCrew x.id (fun c =>
                  let gone := { PcSlot.empty with pc := x.pc }
                  let c := c.setSlot x.k gone
                  if (c.slot (!x.k)).st = .free then c.setSlot (!x.k) gone else c), wr := [], ctl := true }
        else
          .ok { s := s.modCrew x.id (fun c =>
                  let p := c.slot x.k
                  markRegion (c.setSlot x.k { p.goto x.next with mask := left }) x.k x.next),
                wr := [], ctl := true }) s

/-- pause (R157): the crew is demoted for n cycles counted from its issue; pause 0 ends the demotion. -/
def execPause (f : FormI) (s : State) : Out :=
  issue (specI f [] [] .none) (fun _ => f.d ≠ 0#8 || f.a ≠ 0#8 || f.imm.toNat / 65536 ≠ 0 || f.sub ≠ 0#7)
    (fun x s =>
      if x.act = 0#64 then .ok { s := s, wr := [], ctl := false }
      else
        let n := f.imm.toNat % 65536
        .ok { s := s.modCrew x.id (fun c =>
                { c with demote := n, demotedFrom := if n = 0 then none else some (c.demotedFrom.getD s.cycle) }),
              wr := [], ctl := false }) s

/-- nop (R158): a flag that it counts goes down in the next cycle, and so counts from the one after it (R46). -/
def execNop (f : FormS) (s : State) : Out :=
  issue (specS f [] [] (.fixed 1)) (fun _ => f.body ≠ 0#55) (fun _ s => .ok { s := s, wr := [], ctl := false }) s

/-! ## Unassigned opcodes (R63) -/

/-- A word whose OPC is unassigned: ILLOP when it would issue, before every other issue-time check (R58, R63). -/
def execIllop (opc : BitVec 10) (rest : BitVec 86) (s0 : State) : Out :=
  let s := { s0 with free := s0.free + 1, lastRaise := none, heldMark := false }
  match s.cur.crew with
  | none => .fault .noIssuer
  | some id =>
    match s.crew? id with
    | none => .fault .noIssuer
    | some c =>
      if !mayIssue s (settle s c) (Hdr.ofWord (opc ++ rest)) then .next { s with heldMark := true }
      else .next (s.takeCause { sysCause 0x01 0 opc.toNat 0#64 0#64 with atIssue := true })

end Sys2Proof.Machine
end

