-- ==== Sys2Proof/Machine/LoadStore.lean ====
section
/-!
DEFINITION. LoadStore.lean: address formation and its checks, loads, stores, stmask and prefetch
(spec 08 R160 to R169; 02 R52; 03 R64, R65; 11 R230 to R240).
-/

namespace Sys2Proof.Machine

open Sys2Proof

/-! ## Format M (R52, R64, R160) -/

/-- HND names a register. -/
def hndReg (f : FormM) : Bool := f.hnd.getLsbD 11
/-- The handle register's number. -/
def hndNum (f : FormM) : Nat := bitsOf f.hnd.toNat 7 0
/-- The source operands of format M: offset register or pair, handle register. -/
def mSrcs (f : FormM) (o64 : Bool) : List Opnd :=
  [if o64 then grp f.a 2 else one f.a] ++ if hndReg f then [{ reg := hndNum f, size := 1 }] else []
/-- Bits 44:42 of the register form are reserved (R52). (log 19, DEDUCED) -/
def hndBad (f : FormM) : Bool := hndReg f && bitsOf f.hnd.toNat 10 8 ≠ 0
/-- OFS as a signed count of units (R52). -/
def ofs10 (f : FormM) : Int := f.ofs.toInt
/-- OFS7 of a † form (R64). -/
def ofs7 (f : FormM) : Int := (f.ofs.setWidth 7).toInt
/-- SCOPE of a † form (R64). -/
def scopeOf (f : FormM) : Nat := bitsOf f.ofs.toNat 9 7

/-- The part of an instruction's entry that format M gives. -/
def specM (f : FormM) (srcs dsts : List Opnd) (lat : Lat) (hint : Bool) : Spec :=
  { h := f.h, ga := f.ga, gb := f.gb, srcs := srcs, dsts := dsts, lat := lat, hint := hint, priv := false, ends := false,
    squash := false }

/-- The access of one lane (R160). -/
structure Acc where
  l : Nat
  hidx : Nat
  e : HandleEntry
  /-- offset, modulo 2^64 -/
  off : Nat
  va : Nat
deriving DecidableEq, Repr

/-- The accesses that the lanes of a mask form (R160); a register-form handle with bits above 10 set is invalid. Each lane's access
uses an entry of its own choice where several may be used (R400). -/
def formAcc (f : FormM) (x : Ctx) (s : State) (o64 : Bool) (units : Int) (m : Mask) : List Acc :=
  let a := x.wide s f.a (if o64 then .b64 else .b32)
  let hr := if hndReg f then x.row s (hndNum f) else []
  let die := dieOfCore x.c.core
  let va := entryVa x.c.ht f.hnd.toNat
  let wait := s.entryRead x.c.asid die va 32 == .wait
  let all := s.entryAll x.c.asid die va 32
  let fixed := fun (l : Nat) => if f.hnd.toNat > htN x.c.ht then HandleEntry.none
    else s.entryOf wait (all.getD (s.pick [3, x.c.asid, va, l] all.length) none)
  (maskLanes m).map (fun l =>
    let hv := if hndReg f then (rowAt hr l).toNat else f.hnd.toNat
    let e := if !hndReg f then fixed l else if hv / 2048 ≠ 0 then HandleEntry.none else s.handle x.c.asid die x.c.ht hv l
    let off := (((a l).toNat : Int) + units) % 2 ^ 64
    { l := l, hidx := hv % 2048, e := e, off := off.toNat, va := (e.base + off.toNat) % 2 ^ 64 })

/-- The lanes of accesses that fail a check. -/
def failMask (as : List Acc) (p : Acc → Bool) : Mask := as.foldl (fun m a => if p a then m ||| (1#64 <<< a.l) else m) 0#64

/-- The checks of R161: the cause of the lowest check failed by any lane; a VA that is not canonical fails the BOUND check (R395). -/
def checkAcc (s : State) (c : Crew) (as : List Acc) (size : Nat) (spaces : List Nat) (perm : HandleEntry → Bool) : Option Cause :=
  let h := fun (a : Acc) => !a.e.valid || !(spaces.contains a.e.space) || !perm a.e
  let b := fun (a : Acc) => bitOf a.off 63 || decide (s.boundOf c a.e < a.off + size) || (a.e.space ≠ 2 && !canonical a.va)
  let g := fun (a : Acc) => a.va % size ≠ 0
  match as.find? h with
  | some a => some (sysCause 0x0B 0 a.hidx 0#64 (failMask as h))
  | none =>
    match as.find? b with
    | some a => some (sysCause 0x0A 0 0 (BitVec.ofNat 64 a.va) (failMask as b))
    | none =>
      match as.find? (fun a => decide (g a)) with
      | some a => some (sysCause 0x09 0 0 (BitVec.ofNat 64 a.va) (failMask as (fun a => decide (g a))))
      | none => none

/-- How an instruction whose accesses do not pass the checks of R161 ends; an entry on a stack not yet in service makes it wait (R422),
and a malformed page-table entry in the way of a handle's entry is counted (R396). -/
def checkSig (s : State) (c : Crew) (as : List Acc) (size : Nat) (spaces : List Nat) (perm : HandleEntry → Bool) : Option Sig :=
  if as.any (fun a => a.e.wait) then some .hold
  else
    match checkAcc s c as size spaces perm with
    | none => none
    | some k => some (match as.find? (fun a => a.e.unread) with
      | some a => .raiseIn (s.noteHandle c.asid c.ht a.hidx a.e) k
      | none => .raise k)

/-- What an access meets after its checks (R162): its place, a cause, or a wait for a stack (R422). -/
inductive Met where
  | ok (l : Loc)
  | xlate (f : XFail)
  | poison
  | wait
deriving DecidableEq, Repr

/-- Translation, service and poison of one access, an RMW's at its home (R239). `seen`: the access reads, so that poison stops it. -/
def meet (s : State) (c : Crew) (a : Acc) (size : Nat) (r w seen : Bool) : Met :=
  match s.crewPlace c a.e a.off r w (a.l + 1) with
  | .error f => (match f.ready with
    | .wait => .wait
    | .dead => .poison
    | .yes => .xlate f)
  | .ok l =>
    let die := dieOfCore c.core
    let m := if r && w then l.home else l
    match s.locReady die m with
    | .wait => .wait
    | .dead => .poison
    | .yes => if seen && s.locPoison die m size then .poison else .ok l

/-- The cause of the lowest failing lane, with the lanes that fail alike (R162). -/
def metCause (ms : List (Acc × Met)) : Option (Cause × Option XFail) :=
  ms.findSome? (fun p => match p.2 with
    | .xlate f =>
      some (xlateCause f.sub p.1.va (ms.foldl (fun m q => match q.2 with
        | .xlate _ => m ||| (1#64 <<< q.1.l)
        | _ => m) 0#64), some f)
    | .poison =>
      some (poisonCause p.1.va (ms.foldl (fun m q => match q.2 with
        | .poison => m ||| (1#64 <<< q.1.l)
        | _ => m) 0#64), none)
    | _ => none)

/-- Every lane translated: the places, or how the instruction ends. `part` performs lanes that a fault does not undo. -/
def meetAll (s : State) (c : Crew) (as : List Acc) (size : Nat) (r w seen : Bool)
    (part : State → List (Acc × Loc) → State) : Res (List (Acc × Loc)) :=
  let ms := as.map (fun a => (a, meet s c a size r w seen))
  let oks := ms.filterMap (fun p => match p.2 with
    | .ok l => some (p.1, l)
    | _ => none)
  if ms.any (fun p => p.2 == .wait) then .error .hold
  else
    match metCause ms with
    | none => .ok oks
    | some (k, some f) =>
      match f.lost with
      | some pa => .error (.stop (.noSuchPhysical pa))
      | none => .error (.raiseIn (part (s.notePteBad f.bad) oks) k)
    | some (k, none) => .error (.raiseIn (part s oks) k)

/-- Used translations and handle entries are held by the caches (R397, R400); an owner's access to lent memory is a demand (R269). -/
def noteUse (s : State) (c : Crew) (as : List Acc) : State :=
  as.foldl (fun s a =>
    let s := s.noteEntry c.asid (dieOfCore c.core) (entryVa c.ht a.hidx) 32
    if a.e.space = 2 then s.touchLent c.core c.blk ((s.blkPart c).1 + a.off) ((s.blkPart c).1 + a.off + 1) else s.noteTlb c.asid a.va) s

/-! ## Loads and stores (R163, R164) -/

/-- Spaces of the load column of R161. -/
def ldSpaces : List Nat := [1, 2, 3, 4, 5, 7, 8]
/-- Spaces of the store column of R161. -/
def stSpaces : List Nat := [1, 2, 3, 4, 5, 8]

/-- The words of D that loaded bytes give (R163). -/
def ldWords (size : Nat) (signed : Bool) (bs : List Byte) : List Word :=
  if size ≤ 2 then [if signed then BitVec.ofInt 32 (svalN (leNat bs) (8 * size)) else BitVec.ofNat 32 (leNat bs)]
  else (List.range (size / 4)).map (fun i => BitVec.ofNat 32 (leNat ((bs.drop (4 * i)).take 4)))

/-- The state as the reads of the lanes find it: one state for all of them, so that lanes that read one location read it from one
write (R232). -/
def loadFrom (s : State) (die size : Nat) (ps : List (Acc × Loc)) : State := ps.foldl (fun s p => s.beforeLoad die p.2 size) s
/-- Each lane's words, as a state holds them. -/
def loadAll (s : State) (die size : Nat) (signed : Bool) (ps : List (Acc × Loc)) : List (Nat × List Word) :=
  ps.map (fun p => (p.1.l, ldWords size signed (s.load die p.2 size)))
/-- How many writes ago a plain load reads memory: none for an acquire load (R234, R238, R240). (log 5, DEDUCED) -/
def loadAge (s : State) (crew size : Nat) (acq : Bool) (spots : List (Bool × Nat)) : Nat :=
  if acq then 0 else s.pick [53, crew] (s.staleMax crew size spots + 1)

/-- The word i that a list of lane results gives lane l. -/
def laneWord (rs : List (Nat × List Word)) (i l : Nat) : Word :=
  match rs.find? (fun r => r.1 == l) with
  | some r => r.2.getD i 0#32
  | none => 0#32

/-- Register writes of lane results to n registers from the destination. -/
def laneWrites (x : Ctx) (n : Nat) (rs : List (Nat × List Word)) : List Wr :=
  (List.range n).map (fun i => Wr.full (if n = 1 then x.d 0 else x.d 0 + i) x.act (laneWord rs i))

/-- ld and ld.acq (R163, R164): latency V, squashed when the crew stops (R367). (log 5, DEDUCED) -/
def runLoad (f : FormM) (size : Nat) (signed o64 acq : Bool) (s : State) : Out :=
  let n := (size + 3) / 4
  issue { specM f (mSrcs f o64) [grp f.d n] .var true with squash := true }
    (fun _ => hndBad f || f.b ≠ 0#8 || (acq && scopeOf f == 0))
    (fun x s =>
      let as := formAcc f x s o64 ((if acq then ofs7 f else ofs10 f) * size) x.act
      match checkSig s x.c as size ldSpaces (fun e => e.r) with
      | some k => .error k
      | none =>
        match meetAll s x.c as size true false true (fun s _ => s) with
        | .error e => .error e
        | .ok ps =>
          let die := dieOfCore x.c.core
          let s := loadFrom (noteUse s x.c as) die size ps
          let spots := ps.map (fun p => p.2.spot die)
          let k := loadAge s x.id size acq spots
          let ws := loadAll (s.ago k) die size signed ps
          let s := if x.act = 0#64 then s else if acq then s.acquire (scopeOf f) x.c else s.noteRead x.id size k spots
          .ok { s := s, wr := laneWrites x n ws, ctl := false }) s

/-- The bytes that a lane stores, from the rows of its data operand. -/
def stBytes (size : Nat) (rows : List Row) (l : Nat) : List Byte :=
  (rows.flatMap (fun r => leBytes 4 (rowAt r l).toNat)).take size

/-- The stores of lanes in lane order: a later lane's bytes replace an earlier one's (R164). (log 7, DESIGN CHOICE) -/
def storeAll (s : State) (die size : Nat) (rows : List Row) (ps : List (Acc × Loc)) : State :=
  ps.foldl (fun s p => s.store die p.2 (stBytes size rows p.1.l)) s

/-- The places that a crew's lanes have written, noted as such. -/
def noteLanes (s : State) (c : Crew) (size : Nat) (ps : List (Acc × Loc)) : State :=
  s.noteWrote c.id size (ps.map (fun p => p.2.spot (dieOfCore c.core)))

/-- The rows of a data operand of n registers. -/
def Ctx.rows (x : Ctx) (s : State) (r : BitVec 8) (n : Nat) : List Row :=
  if n = 1 then [x.row s r.toNat] else (List.range n).map (fun i => x.plain s (r.toNat + i))

/-- The words of a data operand in a lane as one number. -/
def laneData (rows : List Row) (l : Nat) : Nat := leNat (rows.flatMap (fun r => leBytes 4 (rowAt r l).toNat))
/-- The first register that a data operand of n registers reads, after a queue pop (R19). -/
def Ctx.dataReg (x : Ctx) (r : BitVec 8) (n : Nat) : Nat :=
  match qNamed x.queues r.toNat with
  | some i => if n = 1 then qPopReg (x.queues.getD i 0#32) else r.toNat
  | none => r.toNat
/-- Field B of a store or RMW, which may still be read until the instruction completes (R61): its n registers from `reg`, and what each
lane did with the data it has now. -/
def lateData (die reg n size : Nat) (op : RmwOp) (data init : Nat → Nat) (ps : List (Acc × Loc)) : Option Late :=
  if ps.isEmpty then none
  else some (.data die reg n size op (ps.map (fun p => { lane := p.1.l, loc := p.2, data := data p.1.l, init := init p.1.l })))

/-- st and st.rel (R163, R164); lanes that met no fault may have stored when another lane faults (R162). (log 19, DEDUCED) -/
def runStore (f : FormM) (size : Nat) (o64 rel : Bool) (s : State) : Out :=
  let n := (size + 3) / 4
  issue (specM f (mSrcs f o64 ++ [grp f.b n]) [] .none true)
    (fun _ => hndBad f || f.d ≠ 0#8 || (rel && scopeOf f == 0))
    (fun x s =>
      let die := dieOfCore x.c.core
      let as := formAcc f x s o64 ((if rel then ofs7 f else ofs10 f) * size) x.act
      let rows := x.rows s f.b n
      match checkSig s x.c as size stSpaces (fun e => e.w) with
      | some k => .error k
      | none =>
        match meetAll s x.c as size false true false
            (fun s ps => storeAll (if rel then s.releaseAt (scopeOf f) x.c else s) die size rows (ps.filter (fun p => s.pick [10, p.1.l] 2 == 1))) with
        | .error e => .error e
        | .ok ps =>
          let s := if rel && x.act ≠ 0#64 then s.releaseAt (scopeOf f) x.c else s
          .ok { s := noteLanes (storeAll (noteUse s x.c as) die size rows ps) x.c size ps, wr := [], ctl := false,
                late := lateData die (x.dataReg f.b n) n size .put (laneData rows) (fun _ => 0) ps }) s

/-- ld.n8 (R163). -/
def execLdN8 (f : FormM) (s : State) : Out := runLoad f 1 false false false s
/-- ld.i8 (R163). -/
def execLdI8 (f : FormM) (s : State) : Out := runLoad f 1 true false false s
/-- ld.n16 (R163). -/
def execLdN16 (f : FormM) (s : State) : Out := runLoad f 2 false false false s
/-- ld.i16 (R163). -/
def execLdI16 (f : FormM) (s : State) : Out := runLoad f 2 true false false s
/-- ld.b32 (R163). -/
def execLdB32 (f : FormM) (s : State) : Out := runLoad f 4 false false false s
/-- ld.b64 (R163). -/
def execLdB64 (f : FormM) (s : State) : Out := runLoad f 8 false false false s
/-- ld.b128 (R163). -/
def execLdB128 (f : FormM) (s : State) : Out := runLoad f 16 false false false s
/-- ld.acq.b32 (R163, R164). -/
def execLdAcqB32 (f : FormM) (s : State) : Out := runLoad f 4 false false true s
/-- ld.acq.b64 (R163, R164). -/
def execLdAcqB64 (f : FormM) (s : State) : Out := runLoad f 8 false false true s
/-- ld.n8.o64 (R65). -/
def execLdN8O64 (f : FormM) (s : State) : Out := runLoad f 1 false true false s
/-- ld.i8.o64 (R65). -/
def execLdI8O64 (f : FormM) (s : State) : Out := runLoad f 1 true true false s
/-- ld.n16.o64 (R65). -/
def execLdN16O64 (f : FormM) (s : State) : Out := runLoad f 2 false true false s
/-- ld.i16.o64 (R65). -/
def execLdI16O64 (f : FormM) (s : State) : Out := runLoad f 2 true true false s
/-- ld.b32.o64 (R65). -/
def execLdB32O64 (f : FormM) (s : State) : Out := runLoad f 4 false true false s
/-- ld.b64.o64 (R65). -/
def execLdB64O64 (f : FormM) (s : State) : Out := runLoad f 8 false true false s
/-- ld.b128.o64 (R65). -/
def execLdB128O64 (f : FormM) (s : State) : Out := runLoad f 16 false true false s
/-- ld.acq.b32.o64 (R65). -/
def execLdAcqB32O64 (f : FormM) (s : State) : Out := runLoad f 4 false true true s
/-- ld.acq.b64.o64 (R65). -/
def execLdAcqB64O64 (f : FormM) (s : State) : Out := runLoad f 8 false true true s

/-- st.b8 (R163). -/
def execStB8 (f : FormM) (s : State) : Out := runStore f 1 false false s
/-- st.b16 (R163). -/
def execStB16 (f : FormM) (s : State) : Out := runStore f 2 false false s
/-- st.b32 (R163). -/
def execStB32 (f : FormM) (s : State) : Out := runStore f 4 false false s
/-- st.b64 (R163). -/
def execStB64 (f : FormM) (s : State) : Out := runStore f 8 false false s
/-- st.b128 (R163). -/
def execStB128 (f : FormM) (s : State) : Out := runStore f 16 false false s
/-- st.rel.b32 (R163, R164). -/
def execStRelB32 (f : FormM) (s : State) : Out := runStore f 4 false true s
/-- st.rel.b64 (R163, R164). -/
def execStRelB64 (f : FormM) (s : State) : Out := runStore f 8 false true s
/-- st.b8.o64 (R65). -/
def execStB8O64 (f : FormM) (s : State) : Out := runStore f 1 true false s
/-- st.b16.o64 (R65). -/
def execStB16O64 (f : FormM) (s : State) : Out := runStore f 2 true false s
/-- st.b32.o64 (R65). -/
def execStB32O64 (f : FormM) (s : State) : Out := runStore f 4 true false s
/-- st.b64.o64 (R65). -/
def execStB64O64 (f : FormM) (s : State) : Out := runStore f 8 true false s
/-- st.b128.o64 (R65). -/
def execStB128O64 (f : FormM) (s : State) : Out := runStore f 16 true false s
/-- st.rel.b32.o64 (R65). -/
def execStRelB32O64 (f : FormM) (s : State) : Out := runStore f 4 true true s
/-- st.rel.b64.o64 (R65). -/
def execStRelB64O64 (f : FormM) (s : State) : Out := runStore f 8 true true s

/-- The lowest lane of `act` as a mask; empty when `act` is. -/
def Ctx.m0 (x : Ctx) : Mask := if x.act = 0#64 then 0#64 else 1#64 <<< x.l0

/-- stmask (R165): one bit per lane as an eight-byte word, at lane l0's address. -/
def runStmask (f : FormM) (o64 : Bool) (s : State) : Out :=
  issue (specM f (mSrcs f o64 ++ [one f.b]) [] .none true) (fun _ => hndBad f || f.d.toNat / 32 ≠ 0)
    (fun x s =>
      let die := dieOfCore x.c.core
      let as := formAcc f x s o64 (ofs10 f * 8) x.m0
      let b := x.row s f.b.toNat
      match checkSig s x.c as 8 stSpaces (fun e => e.w) with
      | some k => .error k
      | none =>
        match meetAll s x.c as 8 false true false (fun s _ => s) with
        | .error e => .error e
        | .ok ps =>
          let m := mkMask (fun l => x.act.getLsbD l && (rowAt b l).getLsbD (f.d.toNat % 32))
          let s := noteUse s x.c as
          .ok { s := noteLanes (ps.foldl (fun s p => s.store die p.2 (leBytes 8 m.toNat)) s) x.c 8 ps, wr := [], ctl := false,
                late := lateData die (x.dataReg f.b 1) 1 8 (.bit (f.d.toNat % 32)) (fun l => (rowAt b l).toNat) (fun _ => 0)
                  (ps.flatMap (fun p => (maskLanes x.act).map (fun l => ({ p.1 with l := l }, p.2)))) }) s

/-- stmask (R165). -/
def execStmask (f : FormM) (s : State) : Out := runStmask f false s
/-- stmask.o64 (R65, R165). -/
def execStmaskO64 (f : FormM) (s : State) : Out := runStmask f true s

/-! ## Prefetch (R166 to R169) -/

/-- Spaces of the prefetch column of R161. -/
def pfSpaces : List Nat := [1, 4, 7, 8]
/-- PFMODE.FORM. -/
def pfForm (c : Crew) : Nat := c.pfmode.toNat % 4

/-- The HANDLE check alone, on lane l0 (R167, R169). -/
def pfCheck (s : State) (c : Crew) (as : List Acc) : Option Sig :=
  as.findSome? (fun a =>
    if a.e.wait then some .hold
    else if !a.e.valid || !(pfSpaces.contains a.e.space) || !a.e.r then
      some (.raiseIn (s.noteHandle c.asid c.ht a.hidx a.e) (sysCause 0x0B 0 a.hidx 0#64 (1#64 <<< a.l)))
    else none)

/-- pfx (R166, R167). Of several idle trackers it takes the lowest-numbered one. (log 40, DESIGN CHOICE) -/
def runPfx (f : FormM) (o64 : Bool) (s : State) : Out :=
  issue { specM f (mSrcs f o64 ++ [one f.b]) [one f.d] .var false with squash := true } (fun _ => hndBad f)
    (fun x s =>
      let zero : Done := { s := s, wr := [Wr.full (x.d 0) x.act (fun _ => 0#32)], ctl := false }
      if pfForm x.c ≠ 1 then .ok zero
      else
        let as := formAcc f x s o64 (ofs10 f) x.m0
        let b := x.row s f.b.toNat
        match pfCheck s x.c as with
        | some k => .error k
        | none =>
          match as with
          | [] => .ok zero
          | a :: _ =>
            let k := (s.core x.c.core).trackers.findIdx? (fun t => !t.busy)
            match k with
            | none => .ok zero
            | some i =>
              if rowAt b a.l = 0#32 ∨ bitOf a.off 63 ∨ s.boundOf x.c a.e ≤ a.off then .ok zero
              else
                let t := (s.core x.c.core).trackers.getD i { busy := false, gen := 0, crew := 0 }
                let g := if t.gen = 0xFFFF then 1 else t.gen + 1
                let s := s.modCore x.c.core (fun q => { q with trackers := q.trackers.set i { busy := true, gen := g, crew := x.id } })
                .ok { s := s, wr := [Wr.full (x.d 0) x.act (fun _ => BitVec.ofNat 32 (g * 65536 + i))], ctl := false }) s

/-- pfx (R167). -/
def execPfx (f : FormM) (s : State) : Out := runPfx f false s
/-- pfx.o64 (R65, R167). -/
def execPfxO64 (f : FormM) (s : State) : Out := runPfx f true s

/-- pcancel (R168): a handle whose tracker is idle or whose generation is stale is ignored; a cancelled tracker begins no
further page, and becomes idle. (log 21, DEDUCED) -/
def execPcancel (f : FormR) (s : State) : Out :=
  issue { specR f (use1 .b32) [] .none with dsts := [] }
    (fun _ => f.rsv ≠ 0#2 || f.md ≠ 0#12 || f.d ≠ 0#8 || f.b ≠ 0#8 || f.c ≠ 0#8)
    (fun x s =>
      let a := x.row s f.a.toNat
      let s := (maskLanes x.act).foldl (fun s l =>
        let v := (rowAt a l).toNat
        s.modCore x.c.core (fun q =>
          { q with trackers := q.trackers.modify (v % 65536) (fun t =>
              if t.busy ∧ t.gen = v / 65536 ∧ v ≠ 0 then { t with busy := false } else t) })) s
      .ok { s := s, wr := [], ctl := false }) s

/-- PFDDROP of a die, plus one, wrapping (R169, R451). (log 21, DEDUCED) -/
def State.pfdDrop (s : State) (die : Nat) : State :=
  let v := s.mgmt.pfddrop.getD die 0#32
  { s with mgmt := { s.mgmt with pfddrop := s.mgmt.pfddrop.set die (v + 1#32) } }

/-- A pfd request entered in its core's queue (R169). (log 21, DEDUCED) -/
def addPfd (s : State) (core : Nat) (r : PfdReq) : State :=
  let q := (s.core core).pfds
  match q.findIdx? (fun p => p.ctx == r.ctx && p.handle == r.handle && !p.begun) with
  | some i => s.modCore core (fun k => { k with pfds := k.pfds.set i r })
  | none =>
    if q.length < 64 then s.modCore core (fun k => { k with pfds := k.pfds ++ [r] })
    else
      let late := q.foldl (fun m p => if !p.begun then max m p.deadline else m) 0
      match q.findIdx? (fun p => !p.begun && p.deadline == late) with
      | some i =>
        if r.deadline < late then s.modCore core (fun k => { k with pfds := k.pfds.set i r })
        else s.pfdDrop (dieOfCore core)
      | none => s.pfdDrop (dieOfCore core)

/-- pfd (R166, R169). -/
def runPfd (f : FormM) (o64 : Bool) (s : State) : Out :=
  issue (specM f (mSrcs f o64 ++ [one f.b]) [] .none false) (fun _ => hndBad f || f.d ≠ 0#8)
    (fun x s =>
      let zero : Done := { s := s, wr := [], ctl := false }
      if pfForm x.c ≠ 2 then .ok zero
      else
        let as := formAcc f x s o64 (ofs10 f) x.m0
        let b := x.row s f.b.toNat
        match pfCheck s x.c as with
        | some k => .error k
        | none =>
          match as with
          | [] => .ok zero
          | a :: _ =>
            let v := (rowAt b a.l).toNat
            let r : PfdReq := { ctx := x.c.ctx, handle := a.hidx, prio := v / 2 ^ 28,
                                deadline := s.cycle + 1024 * (v % 2 ^ 28), order := s.order, begun := false }
            .ok { s := addPfd s x.c.core r, wr := [], ctl := false }) s

/-- pfd (R169). -/
def execPfd (f : FormM) (s : State) : Out := runPfd f false s
/-- pfd.o64 (R65, R169). -/
def execPfdO64 (f : FormM) (s : State) : Out := runPfd f true s

end Sys2Proof.Machine
end

