-- ==== Sys2Proof/Machine/Atomic.lean ====
section
/-!
DEFINITION. Atomic.lean: atomics, fence and bank operations (spec 08 R170 to R173; 11 R234, R239; 25 R447).
-/

namespace Sys2Proof.Machine

open Sys2Proof

/-- A sum rounded with rne, subnormals honoured, no flags (R100, R170). -/
def rneAdd (f : NFmt) (a b : Nat) : Nat := (roundFloat f Ctl.rne 0 (addV false (f.decode a) (f.decode b)).v).1
/-- A product rounded with rne (R173). -/
def rneMul (f : NFmt) (a b : Nat) : Nat := (roundFloat f Ctl.rne 0 (mulV (f.decode a) (f.decode b)).v).1

/-- A new value from the old one and a lane's operand words; none where the operation does not write (a failed cas). -/
abbrev Rmw := Nat → Nat → Option Nat

/-- An operation on words that always writes. -/
def rmwWord (g : Word → Word → Word) : Rmw := fun m b => some (g (BitVec.ofNat 32 m) (BitVec.ofNat 32 b)).toNat
/-- Unsigned minimum. -/
def wordMinU (a b : Word) : Word := if a.toNat ≤ b.toNat then a else b
/-- Unsigned maximum. -/
def wordMaxU (a b : Word) : Word := if a.toNat ≤ b.toNat then b else a
/-- The operations of R170 and R173 on the old value and a lane's data words; a failed cas is a read only (R231). Of cas, the lower half of
the data is compared and the upper half is the new value. -/
def RmwOp.fn (lane : Nat) : RmwOp → Rmw
  | .addI32 => rmwWord (· + ·)
  | .addF32 => fun m b => some (rneAdd .f32 m b)
  | .minI32 => rmwWord wordMin
  | .maxI32 => rmwWord wordMax
  | .minN32 => rmwWord wordMinU
  | .maxN32 => rmwWord wordMaxU
  | .and32 => rmwWord (· &&& ·)
  | .or32 => rmwWord (· ||| ·)
  | .xor32 => rmwWord (· ^^^ ·)
  | .exch32 => fun _ b => some b
  | .cas32 => fun m b => if m = b % 2 ^ 32 then some (b / 2 ^ 32) else none
  | .addI64 => fun m b => some ((m + b) % 2 ^ 64)
  | .exch64 => fun _ b => some b
  | .cas64 => fun m b => if m = b % 2 ^ 64 then some (b / 2 ^ 64) else none
  | .addBf16x2 => fun m b => some (rneAdd .bf16 (m % 65536) (b % 65536) + rneAdd .bf16 (m / 65536) (b / 65536 % 65536) * 65536)
  | .minF32 => fun m b => some (minMax .f32 true false m b).1
  | .maxF32 => fun m b => some (minMax .f32 false false m b).1
  | .mulF32 => fun m b => some (rneMul .f32 m b)
  | .put => fun _ b => some b
  | .bit k => fun m b => some (if bitOf b k then m ||| 2 ^ lane else m &&& (2 ^ 64 - 1 - 2 ^ lane))
/-- A store, which no agent makes at the home. -/
def RmwOp.plain : RmwOp → Bool
  | .put | .bit _ => true
  | _ => false

/-- One lane's read-modify-write at its location's home for an agent of a die: the state and the old value (R171, R239). -/
def rmwLane (op : Rmw) (size : Nat) (s : State) (die : Nat) (l : Loc) (data : Nat) : State × Nat :=
  let s := s.beforeRmw die l
  let old := leNat (s.load 0 l.home size)
  match op old data with
  | some v => (s.rmwWrite die l (leBytes size v), old)
  | none => (s, old)

/-- The lanes of an RMW in ascending lane order: the state and each lane's old value (R171). -/
def rmwAll (op : Rmw) (size : Nat) (die : Nat) (data : Nat → Nat) : State → List (Acc × Loc) → State × List (Nat × Nat)
  | s, [] => (s, [])
  | s, p :: ps =>
    let q := rmwLane op size s die p.2 (data p.1.l)
    let r := rmwAll op size die data q.1 ps
    (r.1, (p.1.l, q.2) :: r.2)

/-- Spaces of the atom column of R161. -/
def atomSpaces : List Nat := [1, 2, 3, 8]

/-- The RMW forms: checks, translation of every lane, then the combined requests; `nb` data registers (R162, R170, R171), which may
still be read until completion (R61). (log 19, DEDUCED) -/
def runRmw (sp : Spec) (bad : Bool) (f : FormM) (units : Int) (size nb nd : Nat) (spaces : List Nat) (op : RmwOp) (s : State) : Out :=
  issue { sp with ends := true } (fun _ => bad)
    (fun x s =>
      let as := formAcc f x s false units x.act
      let rows := x.rows s f.b nb
      match checkSig s x.c as size spaces (fun e => e.r && e.w && e.atom) with
      | some k => .error k
      | none =>
        match meetAll s x.c as size true true true (fun s _ => s) with
        | .error e => .error e
        | .ok ps =>
          let r := rmwAll (op.fn 0) size (dieOfCore x.c.core) (laneData rows) (noteUse s x.c as) ps
          let old := r.2.map (fun p => (p.1, (List.range nd).map (fun i => BitVec.ofNat 32 (p.2 / 2 ^ (32 * i)))))
          .ok { s := noteLanes r.1 x.c size ps, wr := if nd = 0 then [] else laneWrites x nd old, ctl := false,
                late := lateData (dieOfCore x.c.core) (x.dataReg f.b nb) nb size op (laneData rows) (fun l => ((r.2.find? (fun p => p.1 == l)).map (fun p => p.2)).getD 0) ps }) s

/-- atom (R170, R171). -/
def runAtom (f : FormM) (size nb : Nat) (op : RmwOp) (s : State) : Out :=
  let nd := size / 4
  runRmw (specM f (mSrcs f false ++ [grp f.b nb]) [grp f.d nd] .var false) (hndBad f || scopeOf f == 0) f
    (ofs7 f * size) size nb nd atomSpaces op s

/-- atom.add.i32 (R170). -/
def execAtomAddI32 (f : FormM) (s : State) : Out := runAtom f 4 1 .addI32 s
/-- atom.add.f32 (R170). -/
def execAtomAddF32 (f : FormM) (s : State) : Out := runAtom f 4 1 .addF32 s
/-- atom.min.i32 (R170). -/
def execAtomMinI32 (f : FormM) (s : State) : Out := runAtom f 4 1 .minI32 s
/-- atom.max.i32 (R170). -/
def execAtomMaxI32 (f : FormM) (s : State) : Out := runAtom f 4 1 .maxI32 s
/-- atom.min.n32 (R170). -/
def execAtomMinN32 (f : FormM) (s : State) : Out := runAtom f 4 1 .minN32 s
/-- atom.max.n32 (R170). -/
def execAtomMaxN32 (f : FormM) (s : State) : Out := runAtom f 4 1 .maxN32 s
/-- atom.and.b32 (R170). -/
def execAtomAndB32 (f : FormM) (s : State) : Out := runAtom f 4 1 .and32 s
/-- atom.or.b32 (R170). -/
def execAtomOrB32 (f : FormM) (s : State) : Out := runAtom f 4 1 .or32 s
/-- atom.xor.b32 (R170). -/
def execAtomXorB32 (f : FormM) (s : State) : Out := runAtom f 4 1 .xor32 s
/-- atom.exch.b32 (R170). -/
def execAtomExchB32 (f : FormM) (s : State) : Out := runAtom f 4 1 .exch32 s
/-- atom.cas.b32 (R170): B compare, B+1 new; a failed compare is a read only (R231). -/
def execAtomCasB32 (f : FormM) (s : State) : Out := runAtom f 4 2 .cas32 s
/-- atom.add.i64 (R170). -/
def execAtomAddI64 (f : FormM) (s : State) : Out := runAtom f 8 2 .addI64 s
/-- atom.exch.b64 (R170). -/
def execAtomExchB64 (f : FormM) (s : State) : Out := runAtom f 8 2 .exch64 s
/-- atom.cas.b64 (R170): pair B compare, pair B+2 new. -/
def execAtomCasB64 (f : FormM) (s : State) : Out := runAtom f 8 4 .cas64 s
/-- atom.add.bf16x2 (R170). -/
def execAtomAddBf16x2 (f : FormM) (s : State) : Out := runAtom f 4 1 .addBf16x2 s

/-- fence (R172): a release part performs every earlier write of the crew, an acquire part what the releases that pair with it cover
(R235). (log 5, DEDUCED) -/
def execFence (f : FormS) (s : State) : Out :=
  let kind := bitsOf f.body.toNat 4 3
  let scope := bitsOf f.body.toNat 2 0
  issue { specS f [] [] .none with ends := true } (fun _ => f.body.toNat / 32 ≠ 0 || kind == 0 || scope == 0)
    (fun x s =>
      let s := if x.act ≠ 0#64 ∧ 2 ≤ kind then s.releaseAt scope x.c else s
      .ok { s := if x.act ≠ 0#64 ∧ kind ≠ 2 then s.acquire scope x.c else s, wr := [], ctl := false }) s

/-- bankop (R173): in bank space, at the bank's ALU, nothing returned. -/
def runBankop (f : FormM) (op : RmwOp) (s : State) : Out :=
  runRmw (specM f (mSrcs f false ++ [one f.b]) [] .none false) (hndBad f || f.d ≠ 0#8) f (ofs10 f * 4) 4 1 0 [3] op s

/-- bankop.add.i32 (R173). -/
def execBankopAddI32 (f : FormM) (s : State) : Out := runBankop f .addI32 s
/-- bankop.add.f32 (R173). -/
def execBankopAddF32 (f : FormM) (s : State) : Out := runBankop f .addF32 s
/-- bankop.min.f32 (R173). -/
def execBankopMinF32 (f : FormM) (s : State) : Out := runBankop f .minF32 s
/-- bankop.max.f32 (R173). -/
def execBankopMaxF32 (f : FormM) (s : State) : Out := runBankop f .maxF32 s
/-- bankop.mul.f32 (R173). -/
def execBankopMulF32 (f : FormM) (s : State) : Out := runBankop f .mulF32 s

end Sys2Proof.Machine
end

