-- ==== Sys2Proof/Machine/Engine.lean ====
section
/-!
DEFINITION. Engine.lean: engine commands, their retirement, waitc, arrival counters and tile signals
(spec 08 R174 to R184; 21 R368, R376, R389, R390; 11 R242, R243; 25 R447).
-/

namespace Sys2Proof.Machine

open Sys2Proof

/-! ## OCNT (R175) -/

/-- OCNT of class k. -/
def Crew.oc (c : Crew) (k : Nat) : Word := c.ocnt.getD k 0#32
/-- COUNT of a class. -/
def Crew.count (c : Crew) (k : Nat) : Nat := (c.oc k).toNat % 256
/-- ERR of a class. -/
def Crew.err (c : Crew) (k : Nat) : Bool := (c.oc k).getLsbD 31
/-- STAT of a class. -/
def Crew.stat (c : Crew) (k : Nat) : Nat := bitsOf (c.oc k).toNat 27 24
/-- OCNT from its fields. -/
def mkOcnt (err : Bool) (stat count : Nat) : Word :=
  BitVec.ofNat 32 ((if err then 2 ^ 31 else 0) + stat % 16 * 2 ^ 24 + count % 256)
/-- OCNT of a class replaced. -/
def Crew.setOc (c : Crew) (k : Nat) (w : Word) : Crew := { c with ocnt := c.ocnt.set k w }

/-- An operation is counted off in issue order; a nonzero status sets ERR, and STAT when ERR was 0 (R175). -/
def countOff (c : Crew) (k stat : Nat) : Crew :=
  c.setOc k (if stat = 0 then mkOcnt (c.err k) (c.stat k) (c.count k - 1)
             else mkOcnt true (if c.err k then c.stat k else stat) (c.count k - 1))

/-! ## Operations -/

/-- The operation with an id. -/
def State.op? (s : State) (id : Nat) : Option Op := s.ops.find? (fun o => o.id == id)
/-- An operation changed by a function. -/
def State.modOp (s : State) (id : Nat) (f : Op → Op) : State :=
  { s with ops := s.ops.map (fun o => if o.id == id then f o else o) }

/-- A TAG that no open command has, from a number on (R283: it matches a response to its request). -/
def State.freeTag (s : State) : Nat → Nat → Nat
  | 0, t => t % 65536
  | n + 1, t => if s.ops.any (fun o => o.cls == 3 && !o.done && o.tag == t % 65536) then State.freeTag s n (t + 1) else t % 65536

/-- An operation as a crew issues it (R174, R185, R193). -/
def newOp (x : Ctx) (s : State) (cls opc : Nat) (args : List Word) : Op :=
  { id := s.order, crew := x.id, ctx := x.c.ctx, blk := x.c.blk, core := x.c.core, src := BitVec.ofNat 32 (crewSrc x.c),
    asid := x.c.asid, dom := if x.c.callee then some x.c.dom else none, fq := domQueue (decodeDom x.c.dent), level := x.c.gates.length, ht := x.c.ht,
    window := x.c.window, harvest := (s.block? x.c.blk).any (fun b => b.harv), cls := cls, opc := opc, args := args,
    trec := [], metaw := [], checked := false, pos := 0, prog := [], started := [], lscale := 0#32, ovf := 0, stat := 0,
    done := false, pause := [], sliceStat := [], await := [], met := [], tag := s.freeTag s.ops.length s.order, left := 0, probes := [], phase := 0, sentAt := 0,
    stage := [], dropped := false }

/-- The operation is on its core: its block is resident there, or has been terminated with operations still running. -/
def State.opHere (s : State) (o : Op) : Bool := (s.block? o.blk).any (fun b => b.place == 0 || b.place == 3)
/-- Engine and fabric commands outstanding on a core, a parked block's fabric commands among them (R270, R368). -/
def State.coreOps (s : State) (core : Nat) : Nat :=
  (s.ops.filter (fun o => o.core == core && o.cls ≠ 2 && !o.done &&
    (s.opHere o || (o.cls == 3 && (s.block? o.blk).any (fun b => b.place == 2))))).length
/-- A block that comes back to a core brings no command that would be the core's 65th (R368). -/
def State.opsFit (s : State) (blk core : Nat) : Bool :=
  decide (s.coreOps core + (s.ops.filter (fun o => o.blk == blk && o.cls ≠ 2 && !o.done && !(o.core == core && o.cls == 3 &&
    (s.block? blk).any (fun b => b.place == 2)))).length ≤ 64)
/-- A command may be posted: its class counter is below 255 (R174), and an engine or fabric command finds the core with
fewer than 64 outstanding (R368). -/
def canPost (s : State) (c : Crew) (cls : Nat) : Bool :=
  decide (c.count cls < 255) && (cls == 2 || decide (s.coreOps c.core < 64))

/-- An operation entered and counted. -/
def State.postOp (s : State) (o : Op) : State :=
  { s.modCrew o.crew (fun c => c.setOc o.cls (mkOcnt (c.err o.cls) (c.stat o.cls) (c.count o.cls + 1))) with ops := s.ops ++ [o] }

/-- OVF bits of a task reach its block when it retires, and with it OVF as it stood before a SETS that is still on its way, so that a
GETS reads them in either case (R208). -/
def applyOvf (s : State) (o : Op) : State :=
  if o.ovf = 0 then s
  else
    let bits := BitVec.ofNat 32 o.ovf
    let s := s.modBlock o.blk (fun b => { b with ovf := b.ovf ||| bits })
    { s with crews := s.crews.map (fun (c : Crew) => if c.blk ≠ o.blk then c
        else { c with srOld := c.srOld.map (fun q => if q.sr = 0x1C then { q with rows := q.rows.map (fun r => r.map (fun w => w ||| bits)) } else q) }) }

/-- Finished operations of a crew and class counted off from the oldest on (R175). -/
def countDone (crew cls : Nat) : Nat → State → State
  | 0, s => s
  | n + 1, s =>
    match s.ops.find? (fun o => o.crew == crew && o.cls == cls && !o.dropped) with
    | none => s
    | some o =>
      if !o.done then s
      else
        let s := applyOvf { s with ops := s.ops.filter (fun p => p.id ≠ o.id) } o
        countDone crew cls n (s.modCrew crew (fun c =>
          { countOff c cls o.stat with errs := if o.stat = 0 then c.errs else c.errs ++ [(o.id, cls, o.stat, o.level)] }))

/-- A status that ends an awaited operation reaches the tsigs that await it, before the operation is counted off. -/
def State.noteAwait (s : State) (id stat : Nat) : State :=
  if stat = 0 then s
  else { s with ops := s.ops.map (fun o => if o.await.contains id then { o with met := (id, stat) :: o.met } else o) }

/-- An operation ends with the status given, or, where that is OK, with the first nonzero one it has met (R179, R180). -/
def State.finishOp (s : State) (id stat : Nat) : State :=
  match s.op? id with
  | none => s
  | some o =>
    let st := if stat ≠ 0 then stat else o.stat
    let s := (s.modOp id (fun o => { o with done := true, stat := st, pause := [] })).noteAwait id st
    if o.dropped then applyOvf { s with ops := s.ops.filter (fun p => p.id ≠ id) } o
    else countDone o.crew o.cls s.ops.length s

/-! ## Engine accesses -/

/-- The block-memory part of an operation (R400). -/
def State.opPart (s : State) (o : Op) : Nat × Nat :=
  match o.window with
  | some w => w
  | none =>
    match s.block? o.blk with
    | some b => (b.bmOff, b.bmLen)
    | none => (0, 0)
/-- The bound of an entry for an operation. -/
def State.opBound (s : State) (o : Op) (e : HandleEntry) : Nat := if e.space = 2 then (s.opPart o).2 else e.limit
/-- The handle that a register value names; bits 31:11 must be zero (R174). -/
def State.opHandle (s : State) (o : Op) (v : Word) : HandleEntry :=
  if v.toNat / 2048 ≠ 0 then HandleEntry.none else s.handle o.asid (dieOfCore o.core) o.ht v.toNat 11
/-- The place at an offset of an entry for an operation. -/
def State.opPlace (s : State) (o : Op) (e : HandleEntry) (off : Nat) (r w : Bool) : Except XFail Loc :=
  if e.space = 2 then .ok (.blk o.core ((s.opPart o).1 + off))
  else
    let va := (e.base + off) % 2 ^ 64
    if canonical va then s.place o.asid va { r := r, w := w, x := false, space := e.space, kd := some e.kd } 12
    else .error { sub := 0, bad := none, lost := none }

/-- How an engine access ends. -/
inductive Eng (α : Type) where
  | ok (a : α)
  | fault (f : XFail) (va : Nat)
  /-- the command retires with a status (R408, R422) -/
  | status (stat : Nat)
  | wait

/-- How an access ends whose translation fails: page tables on a stack still to enter service make it wait, on one that failed they give
POISON (R422). -/
def Eng.failed {α : Type} (f : XFail) (va : Nat) : Eng α :=
  match f.ready with
  | .yes => .fault f va
  | .wait => .wait
  | .dead => .status 4

/-- The status of an access to memory out of service: LINKDOWN on a far port, POISON on a stack that failed (R408, R422). (log 30, DEDUCED) -/
def deadStat (l : Loc) : Nat :=
  match l with
  | .pa a _ => if 0x200000000000 ≤ a then 6 else 4
  | _ => 4

/-- n bytes read at an offset, cut at pages; each byte with its poison. (log 22, DEDUCED) -/
def engRead (s : State) (o : Op) (e : HandleEntry) : Nat → Nat → Nat → Eng (List (Byte × Bool))
  | 0, _, _ => .ok []
  | k + 1, off, n =>
    if n = 0 then .ok [] else
    let va := (e.base + off) % 2 ^ 64
    let m := min n (65536 - va % 65536)
    let die := dieOfCore o.core
    match s.opPlace o e off true false with
    | .error f => Eng.failed f va
    | .ok l =>
      match s.locReady die l with
      | .wait => .wait
      | .dead => .status (deadStat l)
      | .yes =>
        match engRead s o e k (off + m) (n - m) with
        | .ok r =>
          let bs := (s.beforeLoad die l m).load die l m
          .ok ((List.range m).map (fun i => (bs.getD i 0#8, match l with
            | .blk _ _ => false
            | _ => s.poisoned (l.readPa die + i) 1)) ++ r)
        | x => x

/-- The frames that a write of a place reaches: its own, or one on every die (R401). -/
def Loc.frames : Loc → List Nat
  | .blk _ _ => []
  | .pa a _ => [a]
  | .repl a _ _ => (List.range 4).map (replicaPa a)
/-- Poison after a write of bytes at a frame: a line that takes a poisoned byte holds poison, a line written whole and clean none (R179, R447). -/
def State.putPoison (s : State) (bs : List (Byte × Bool)) (a : Nat) : State :=
  ((List.range (bs.length / 64 + 2)).map (fun i => a / 64 + i)).foldl (fun s ln =>
    let inLine := (List.range bs.length).filter (fun i => (a + i) / 64 == ln)
    if inLine.any (fun i => (bs.getD i (0#8, false)).2) then s.setPoison (ln * 64)
    else if inLine.length = 64 then s.clearPoison (ln * 64) else s) s
/-- An engine write of one page piece by an agent of a die: the die's earlier writes come first (R174, R242); it is performed at its home
and on every replica, and poison is set or cleared by line (R179, R447). -/
def State.enginePut (s : State) (die : Nat) (l : Loc) (bs : List (Byte × Bool)) : State :=
  match l with
  | .blk _ _ => s.store die l (bs.map (fun b => b.1))
  | _ =>
    let s := (s.flush die).beforeRmw die l
    let s := match l with
      | .pa a k => s.writeKey a k (bs.map (fun b => b.1))
      | _ => (s.store die l (bs.map (fun b => b.1))).drainReplicas (fun _ => true)
    l.frames.foldl (State.putPoison · bs) s

/-- A translation that an engine has used is held by the TLBs (R397). -/
def State.noteEng (s : State) (o : Op) (e : HandleEntry) (off : Nat) : State :=
  if e.space = 2 then s else s.noteTlb o.asid ((e.base + off) % 2 ^ 64)
/-- Operands of a command that name handles (R176 to R178, R185 to R188). -/
def Op.handleArgs (o : Op) : List Nat :=
  if o.cls = 3 then [if o.opc = 0x2C4 then 2 else 5] else if o.opc = 0x283 then [1]
  else if o.opc = 0x284 ∨ o.opc = 0x285 then [0, 2, 5] else if o.opc = 0x298 then [] else [0, 2]
/-- The handle entries that a command has used are held by the cores (R400). -/
def State.noteHandles (s : State) (o : Op) : State :=
  o.handleArgs.foldl (fun s i =>
    let v := (o.args.getD i 0#32).toNat
    if v / 2048 ≠ 0 ∨ htN o.ht < v then s else s.noteEntry o.asid (dieOfCore o.core) (entryVa o.ht v) 32) s
/-- A handle entry of a command lies on a stack that has still to enter service: the command waits (R422). -/
def State.handlesWait (s : State) (o : Op) : Bool := o.handleArgs.any (fun i => (s.opHandle o (o.args.getD i 0#32)).wait)
/-- Malformed page-table entries in the way of a command's handle entries are counted (R396). -/
def State.noteBadHandles (s : State) (o : Op) : State :=
  o.handleArgs.foldl (fun t i =>
    let v := o.args.getD i 0#32
    t.noteHandle o.asid o.ht v.toNat (s.opHandle o v)) s

/-- Bytes written at an offset, cut at pages. (log 22, DEDUCED) -/
def engWrite (o : Op) (e : HandleEntry) : Nat → State → Nat → List (Byte × Bool) → Eng State
  | 0, s, _, _ => .ok s
  | k + 1, s, off, bs =>
    if bs.isEmpty then .ok s else
    let va := (e.base + off) % 2 ^ 64
    let m := min bs.length (65536 - va % 65536)
    let die := dieOfCore o.core
    match s.opPlace o e off false true with
    | .error f => Eng.failed f va
    | .ok l =>
      match s.locReady die l with
      | .wait => .wait
      | .dead => .status (deadStat l)
      | .yes =>
        -- the far-memory device may refuse capacity (R180, R408)
        if e.space = 4 ∧ s.pick [13, o.id, off] 2 = 1 then .status 5
        else engWrite o e k ((s.noteEng o e off).enginePut die l (bs.take m)) (off + m) (bs.drop m)

/-! ## Sectors that two packets share (R230) -/

/-- Bytes of a transfer's range [lo, hi) of offsets that lie in the 32-byte sector of an offset, when offset 0 lies at `base`. -/
def inSector (base lo hi off : Nat) : Nat := min hi ((base + off) / 32 * 32 + 32 - base) - max lo ((base + off) / 32 * 32 - base)
/-- Part of a sector joined with the other parts of it that wait: to be written when the whole of it is here, else to wait. -/
def joinFrag (base lo hi : Nat) (fs : List Frag) (f : Frag) : List Frag × List (Nat × List (Byte × Bool)) :=
  let mate := fun (g : Frag) => g.key == f.key && (base + g.off) / 32 == (base + f.off) / 32
  let all : List (Byte × Bool) := ((fs.filter (fun g => mate g && decide (g.off < f.off))).flatMap (fun g => g.bytes)) ++ f.bytes ++
    ((fs.filter (fun g => mate g && decide (f.off < g.off))).flatMap (fun g => g.bytes))
  if all.length < inSector base lo hi f.off then (f :: fs, [])
  else (fs.filter (fun g => !mate g), [(((fs.filter mate).map (fun g => g.off)).foldl min f.off, all)])
/-- What a packet of a transfer writes: its bytes but for the parts of sectors that lack their rest, with the parts that waited for it. -/
def sectorPieces (key : List Nat) (base lo hi off : Nat) (fs : List Frag) (bs : List (Byte × Bool)) :
    List Frag × List (Nat × List (Byte × Bool)) :=
  let h := if off = lo then 0 else min bs.length ((32 - (base + off) % 32) % 32)
  let t := if off + bs.length = hi then 0 else min (bs.length - h) ((base + off + bs.length) % 32)
  let head := if h = 0 then (fs, []) else joinFrag base lo hi fs { key := key, off := off, bytes := bs.take h }
  let tail := if t = 0 then (head.1, []) else joinFrag base lo hi head.1 { key := key, off := off + bs.length - t, bytes := bs.drop (bs.length - t) }
  (tail.1, (head.2 ++ [(off + h, (bs.drop h).take (bs.length - h - t))] ++ tail.2).filter (fun p => !p.2.isEmpty))
/-- Bytes that an earlier packet of a transfer has read ahead at an offset. -/
def State.readAhead (s : State) (key : List Nat) (off : Nat) : List (Byte × Bool) :=
  ((s.ahead.find? (fun f => f.key == key && f.off == off)).map (fun f => f.bytes)).getD []
/-- Where the reading of a packet's bytes [off, stop) ends: with their last sector, or the range. -/
def readEnd (base hi stop : Nat) : Nat := min hi (stop + (32 - (base + stop) % 32) % 32)
/-- Bytes read past a packet's end are kept for the next. -/
def State.keepAhead (s : State) (key : List Nat) (stop : Nat) (bs : List (Byte × Bool)) : State :=
  let rest := s.ahead.filter (fun f => f.key ≠ key)
  { s with ahead := if bs.isEmpty then rest else { key := key, off := stop, bytes := bs } :: rest }

/-! ## Copy commands (R176 to R178, R180) -/

/-- Operand word i of a command: D, A, B, C, E, then the group words. -/
def Op.arg (o : Op) (i : Nat) : Nat := (o.args.getD i 0#32).toNat
/-- Group word i of a command. -/
def Op.grp (o : Op) (i : Nat) : Nat := o.arg (5 + i)

/-- Shape of a copy: row bytes, rows, source and target row strides, planes, source and target plane strides (R176). -/
structure CopyShape where
  rb : Nat
  rows : Nat
  srs : Nat
  trs : Nat
  planes : Nat
  sps : Nat
  tps : Nat
deriving DecidableEq, Repr

/-- The shape that a cp, cp.2d or cp.3d command names. -/
def Op.shape (o : Op) : CopyShape :=
  if o.opc = 0x280 then { rb := o.arg 4, rows := 1, srs := 0, trs := 0, planes := 1, sps := 0, tps := 0 }
  else if o.opc = 0x281 then { rb := o.grp 1, rows := o.grp 0, srs := o.grp 2, trs := o.grp 3, planes := 1, sps := 0, tps := 0 }
  else { rb := o.grp 1, rows := o.grp 0, srs := o.grp 2, trs := o.grp 3, planes := o.grp 4, sps := o.grp 5, tps := o.grp 6 }

/-- Bytes that a shape moves. -/
def CopyShape.total (c : CopyShape) : Nat := c.planes * c.rows * c.rb
/-- Bytes from the first to the last byte of one side. -/
def CopyShape.extent (c : CopyShape) (src : Bool) : Nat :=
  if c.total = 0 then 0
  else (c.planes - 1) * (if src then c.sps else c.tps) + (c.rows - 1) * (if src then c.srs else c.trs) + c.rb

/-- The unit of its target range at which a command stops: 256 bytes for a harvest block, whose revocation may come, else 4 KiB (R270,
R367). -/
def Op.unit (o : Op) : Nat := if o.harvest then 256 else 4096
/-- One contiguous piece of a copy from byte index k: source and target offsets from the start and a length, cut at 4 KiB
boundaries of the source and at units of the target (R179, R270). -/
def CopyShape.piece (c : CopyShape) (u sva tva k : Nat) : Option (Nat × Nat × Nat) :=
  if c.total ≤ k then none
  else
    let i := k % c.rb
    let r := k / c.rb % c.rows
    let p := k / c.rb / c.rows
    let so := p * c.sps + r * c.srs + i
    let t := p * c.tps + r * c.trs + i
    some (so, t, min (c.rb - i) (min (4096 - (sva + so) % 4096) (u - (tva + t) % u)))
/-- The bytes before and after byte index k share an aligned 32-byte sector on one side, so that both are read or written in one
step (R230). -/
def CopyShape.joined (c : CopyShape) (u sva tva k : Nat) : Bool :=
  match c.piece u sva tva (k - 1), c.piece u sva tva k with
  | some (so, t, _), some (so', t', _) => (sva + so) / 32 == (sva + so') / 32 || (tva + t) / 32 == (tva + t') / 32
  | _, _ => false

/-- Spaces of the engine source column of R161. -/
def esSpaces : List Nat := [1, 2, 3, 4, 5, 7, 8]
/-- Spaces of the engine destination column of R161. -/
def edSpaces : List Nat := [1, 2, 3, 4, 5, 8]
/-- An entry that an engine may read. -/
def srcOk (e : HandleEntry) : Bool := e.valid && esSpaces.contains e.space && e.r
/-- An entry that an engine may write. -/
def dstOk (e : HandleEntry) : Bool := e.valid && edSpaces.contains e.space && e.w

/-- The first status that fails of CMD, HANDLE, BOUND and SCALE (R180). -/
def firstStat (cs : List (Bool × Nat)) : Nat :=
  match cs.find? (fun c => c.1) with
  | some c => c.2
  | none => 0

/-- Checks of a copy command (R176, R180). -/
def checkCopy (s : State) (o : Op) : Nat :=
  let c := o.shape
  let te := s.opHandle o (o.args.getD 0 0#32)
  let se := s.opHandle o (o.args.getD 2 0#32)
  firstStat [(o.opc == 0x282 && o.grp 7 ≠ 0, 12), (!dstOk te || !srcOk se, 1),
    (c.total ≠ 0 && (decide (s.opBound o te < o.arg 1 + c.extent false) || decide (s.opBound o se < o.arg 3 + c.extent true)), 2)]

/-- Element size of gather and scatter (R177). -/
def Op.elem (o : Op) : Nat := 2 ^ (o.grp 3 % 8)
/-- Checks of gather and scatter that need no index (R177, R180); operands D, A, B, C, E; group C: index handle, offset, N, z. -/
def checkGather (s : State) (o : Op) : Nat :=
  let gather := o.opc = 0x284
  let de := s.opHandle o (o.args.getD 0 0#32)
  let be := s.opHandle o (o.args.getD 2 0#32)
  let ie := s.opHandle o (o.args.getD 5 0#32)
  let n := o.grp 2
  firstStat [(o.grp 3 / 8 ≠ 0 || decide (6 < o.grp 3 % 8), 12),
    ((if gather then !dstOk de || !srcOk be else !srcOk de || !dstOk be) || !srcOk ie, 1),
    (n ≠ 0 && (decide (s.opBound o de < o.arg 1 + n * o.elem) || decide (s.opBound o ie < o.grp 1 + 4 * n)), 2)]

/-- Checks of cp.scale (R178, R180): group C: rows, bytes per row, stride, flags. -/
def checkScale (s : State) (o : Op) : Nat :=
  let se := s.opHandle o (o.args.getD 1 0#32)
  let n := o.grp 0 * o.grp 1
  firstStat [(o.grp 3 / 2 ≠ 0 || o.arg 4 ≠ 0, 12), (!srcOk se, 1),
    (n ≠ 0 && decide (s.opBound o se < o.arg 2 + (o.grp 0 - 1) * o.grp 2 + o.grp 1), 2),
    (n ≠ 0 && decide (32768 < o.arg 0 + n), 11)]

/-- The operation stands at the start, or where its last step has come to or passed a multiple of n bytes: of its target range for a
copy, of the elements moved for gather and scatter (R270, R367). (log 26, DEDUCED) -/
def State.atUnit (_ : State) (o : Op) (n : Nat) : Bool :=
  o.done || o.pos == 0 || o.opc == 0x283 || o.opc == 0x298 || 2 ≤ o.cls || (if n = 4096 then o.at4k else o.at256)
/-- The step that moved the bytes from one place of a range of units to the next has come to or passed a multiple of n. -/
def passes (n a b : Nat) : Bool := a / n ≠ b / n
/-- A step of a command begins: no unit has been passed in it. -/
def Op.stepping (o : Op) : Op := { o with at4k := false, at256 := false }
/-- Units passed in a step from one place to another. -/
def Op.passed (o : Op) (a b : Nat) : Op := { o with at4k := o.at4k || passes 4096 a b, at256 := o.at256 || passes 256 a b }

/-! ## Faults of operations (R179, R390) -/

/-- The port on whose exhausted key a fabric operation is held (R189, R434). -/
def State.heldPort (s : State) (o : Op) : Option Nat :=
  if o.cls ≠ 3 then none
  else s.outq.findSome? (fun q =>
    if (s.ports.getD q.port Port.reset).txst = 3 && (q.pkt.hdr.getD 2 0#32).toNat % 65536 == o.tag &&
        bitsOf (q.pkt.hdr.getD 0 0#32).toNat 23 16 == bitsOf s.fabcfg.toNat 31 24 && bitsOf (q.pkt.hdr.getD 0 0#32).toNat 5 4 == 0
    then some q.port else none)

/-- The crews of a core image in the order of their records: those of the context's blocks on one virtual core (R369 to R373). -/
def State.imageCrews (s : State) (ctx vcore : Nat) : List Crew :=
  (s.blocks.filter (fun b => b.ctx == ctx && b.place ≠ 3 && b.vcore == vcore)).flatMap (fun b => s.crews.filter (fun c => c.blk == b.id))
/-- The virtual core of an operation's block. -/
def State.opVcore (s : State) (o : Op) : Nat := ((s.block? o.blk).map (fun b => b.vcore)).getD 0
/-- Number of the crew record that an operation's crew has, or would have, in its core image (R373, R376). -/
def State.crewRec (s : State) (o : Op) : Nat := (s.imageCrews o.ctx (s.opVcore o)).findIdx (fun c => c.id == o.crew)
/-- The engine and fabric commands of a core image in the order of their records (R376). -/
def State.imageOps (s : State) (ctx vcore : Nat) : List Op :=
  s.ops.filter (fun o => o.cls ≠ 2 && !o.done && o.ctx == ctx && (s.block? o.blk).any (fun b => b.vcore == vcore))
/-- The first 32 bytes of a command's engine record (R376): the first 28 are its fixed part, the last four the first group word. -/
def Op.record (s : State) (o : Op) : List Byte :=
  let rank := (s.ops.filter (fun p => p.crew == o.crew && p.cls == o.cls && decide (p.id < o.id))).length
  leBytes 4 (2 ^ 31 + (if (s.heldPort o).isSome then 2 ^ 30 else 0) + o.cls * 2 ^ 28 + o.stat * 2 ^ 24 + o.opc) ++
    leBytes 4 (s.crewRec o % 64 + rank % 2 ^ 24 * 256) ++
    (List.range 6).flatMap (fun i => leBytes 4 (o.arg i))

/-- The body of an engine record (R390). -/
def engBody (s : State) (o : Op) (code sub va : Nat) : List Byte :=
  leBytes 4 (sub * 256 + code) ++ leBytes 4 ((s.imageOps o.ctx (s.opVcore o)).findIdx (fun p => p.id == o.id) % 64 + o.cls * 256) ++ leBytes 8 va ++ o.record s

/-- The body of a matrix-slice record (R390). -/
def sliceBody (s : State) (o : Op) (slice code sub va : Nat) : List Byte :=
  leBytes 4 (sub * 256 + code) ++ leBytes 4 (slice + o.prog.getD slice 0 % 256 * 256) ++ leBytes 8 va ++
    leBytes 4 (o.opc + s.crewRec o % 64 * 65536) ++ (List.range 3).flatMap (fun i => leBytes 4 (o.trec.getD i 0#32).toNat)

/-- A fault of an operation: a record to the queue of its level, and the operation pauses (R179, R202, R388). -/
def State.pauseOp (s : State) (o : Op) (slice kind code : Nat) (f : XFail) (va : Nat) : State :=
  let s := s.notePteBad f.bad
  let body := if kind = 2 then sliceBody s o slice code f.sub va else engBody s o code f.sub va
  let h := s.mkRecord (o.dom.map (fun _ => o.fq)) (o.dom.getD o.ctx) kind o.ctx o.src.toNat o.asid (o.level * 2) body none (some (o.id, slice))
  let (s, seq) := s.postRecord h
  -- the tile engine of a paused slice is free for others until the slice is READY again (R266)
  s.modOp o.id (fun o => { o with pause := (slice, seq) :: o.pause, started := if kind = 2 then o.started.set slice false else o.started })

/-! ## Progress of an engine operation -/

/-- The places that a copy's source names, for the overlap of R176. -/
def srcPlaces (s : State) (o : Op) (e : HandleEntry) (c : CopyShape) (base : Nat) : Nat → Nat → List (Loc × Nat)
  | 0, _ => []
  | n + 1, k =>
    match c.piece 4096 (e.base + base) 0 k with
    | none => []
    | some (so, _, len) =>
      match s.opPlace o e (base + so) true false with
      | .ok l => (l, len) :: srcPlaces s o e c base n (k + len)
      | .error _ => srcPlaces s o e c base n (k + len)

/-- Byte i from a place lies in one of the ranges. -/
def inPlaces (ps : List (Loc × Nat)) (l : Loc) (i : Nat) : Bool :=
  ps.any (fun p => match p.1, l with
    | .blk c a, .blk c' b => c == c' && decide (a ≤ b + i) && decide (b + i < a + p.2)
    | .pa a _, .pa b _ => decide (a ≤ b + i) && decide (b + i < a + p.2)
    | .repl a _ _, .repl b _ _ => decide (a ≤ b + i) && decide (b + i < a + p.2)
    | _, _ => false)

/-- A free byte of an operation's undefined target range (R176, R180). (log 7, DESIGN CHOICE) -/
def freeByte (s : State) (o : Op) (off : Nat) : Byte := BitVec.ofNat 8 (Config.free s.free [14, o.id, off])

/-- A range of an operation's target is undefined: free bytes page by page, wherever it can be written (R180). (log 7, DESIGN CHOICE) -/
def scrubSpan (o : Op) (e : HandleEntry) : Nat → State → Nat → Nat → State
  | 0, s, _, _ => s
  | k + 1, s, off, n =>
    if n = 0 then s else
    let m := min n (65536 - (e.base + off) % 65536)
    let s := match s.opPlace o e off false true with
      | .ok l => if s.locReady (dieOfCore o.core) l = .yes then
          s.enginePut (dieOfCore o.core) l ((List.range m).map (fun i => (freeByte s o (off + i), false))) else s
      | .error _ => s
    scrubSpan o e k s (off + m) (n - m)
/-- After FULL, LINKDOWN or XLATE the whole target range of a copy is undefined (R180). (log 7, DESIGN CHOICE) -/
def scrubCopy (o : Op) (e : HandleEntry) (c : CopyShape) (base : Nat) : Nat → State → Nat → State
  | 0, s, _ => s
  | n + 1, s, k =>
    match c.piece 4096 0 (e.base + base) k with
    | none => s
    | some (_, t, len) => scrubCopy o e c base n (scrubSpan o e 2 s (base + t) len) (k + len)

/-- The target range of an operation becomes undefined where its status says so (R180). (log 7, DESIGN CHOICE) -/
def State.scrub (s : State) (o : Op) : State :=
  if o.cls = 0 ∧ o.opc ≤ 0x282 then
    let c := o.shape
    scrubCopy o (s.opHandle o (o.args.getD 0 0#32)) c (o.arg 1) c.total s 0
  else if o.opc = 0x284 ∨ o.opc = 0x285 then
    let e := s.opHandle o (o.args.getD (if o.opc = 0x284 then 0 else 2) 0#32)
    (List.range (o.grp 2)).foldl (fun s k =>
      let off := if o.opc = 0x284 then o.arg 1 + k * o.elem else o.arg 4 + (o.metaw.getD k 0#32).toNat * o.elem
      -- an element whose index is poisoned is not written anywhere (R177)
      if o.opc = 0x285 ∧ (o.metaw.length ≤ k ∨ o.probes.contains k) then s else scrubSpan o e 2 s off o.elem) s
  else if o.opc = 0x283 then
    { s with smem := s.smem.write (coreKey o.core (o.arg 0)) ((List.range (o.grp 0 * o.grp 1)).map (freeByte s o)) }
  else if o.opc = 0x2C1 then
    let e := s.opHandle o (o.args.getD 5 0#32)
    scrubSpan o e 260 s (o.arg 3) (o.arg 4 % 2 ^ 24)
  else if o.opc = 0x2C4 then
    let e := s.opHandle o (o.args.getD 2 0#32)
    let n := o.arg 4 % 2 ^ 24 * (if bitsOf (o.arg 4) 27 24 = 8 then 2 else 1)
    scrubSpan o e 4 s (o.arg 3) n
  else s

/-- An operation ends part-way with a status: LINKDOWN, FULL and XLATE leave its target range undefined, every other status leaves
the bytes as they are (R180). (log 7, DESIGN CHOICE) -/
def State.failOp (s : State) (o : Op) (stat : Nat) : State :=
  let s := if stat = 3 ∨ stat = 5 ∨ stat = 6 then s.scrub o else s
  s.finishOp o.id stat

/-- What the bytes at a place are now, each with its poison. -/
def State.bytesAt (s : State) (die : Nat) (l : Loc) (n : Nat) : List (Byte × Bool) :=
  let bs := (s.beforeLoad die l n).load die l n
  (List.range n).map (fun i => (bs.getD i 0#8, match l with
    | .blk _ _ => false
    | _ => s.poisoned (l.readPa die + i) 1))

/-- A piece of the target with its bytes that lie in the source range as `f` gives them (R176). -/
def keepOverlap (s : State) (o : Op) (te : HandleEntry) (past : List (Loc × Nat)) (off : Nat) (bs : List (Byte × Bool))
    (f : Loc → Nat → Byte × Bool) : List (Byte × Bool) :=
  match s.opPlace o te off false true with
  | .ok l => (List.range bs.length).map (fun i => if inPlaces past l i then f l i else bs.getD i (0#8, false))
  | .error _ => bs

/-- The end of a copy: the overlap of its source and target takes free bytes, now that every source byte has been read (R176). -/
def finishCopy (o : Op) (te : HandleEntry) (c : CopyShape) (past : List (Loc × Nat)) : Nat → State → Nat → State
  | 0, s, _ => s.finishOp o.id 0
  | n + 1, s, k =>
    match c.piece 4096 0 (te.base + o.arg 1) k with
    | none => s.finishOp o.id 0
    | some (_, t, len) =>
      let s := match s.opPlace o te (o.arg 1 + t) false true with
        | .ok l =>
          if (List.range len).any (fun i => inPlaces past l i) then
            let now := s.bytesAt (dieOfCore o.core) l len
            s.enginePut (dieOfCore o.core) l ((List.range len).map (fun i =>
              if inPlaces past l i then (freeByte s o (t + i), (now.getD i (0#8, false)).2) else now.getD i (0#8, false)))
          else s
        | .error _ => s
      finishCopy o te c past n s (k + len)

/-- One piece of a copy, and those after it that share a sector with it (R176, R179, R230). Bytes in the overlap of source and target
are left as they are until the whole source has been read. -/
def copyRun (o : Op) (te se : HandleEntry) (past : List (Loc × Nat)) : Nat → State → Nat → State
  | 0, s, _ => s
  | n + 1, s, pos =>
    let c := o.shape
    let sva := se.base + o.arg 3
    let tva := te.base + o.arg 1
    match c.piece o.unit sva tva pos with
    | none => finishCopy o te c past (if past.isEmpty then 0 else c.total) s 0
    | some (so, t, len) =>
      let first := pos = o.pos
      match engRead s o se 2 (o.arg 3 + so) len with
      | .wait => s
      | .status st => s.failOp o st
      | .fault f va => if first then s.pauseOp o 0 1 0x0C f va else s
      | .ok bs =>
        let bs := if past.isEmpty then bs else keepOverlap s o te past (o.arg 1 + t) bs (fun l i => (s.bytesAt (dieOfCore o.core) l (i + 1)).getD i (0#8, false))
        match engWrite o te 2 s (o.arg 1 + t) bs with
        | .wait => s
        | .status st => s.failOp o st
        | .fault f va => if first then s.pauseOp o 0 1 0x0C f va else s
        | .ok s =>
          -- where the next piece begins in the target: past the last byte, or in a later row
          let nt := match c.piece o.unit sva tva (pos + len) with
            | some (_, t', _) => t'
            | none => t + len
          let s := (s.noteEng o se (o.arg 3 + so)).modOp o.id (fun o =>
            { o.passed (tva + t) (tva + nt) with pos := pos + len, stat := if o.stat = 0 && bs.any (fun b => b.2) then 4 else o.stat })
          if c.total ≤ pos + len ∨ c.joined o.unit sva tva (pos + len) then copyRun o te se past n s (pos + len) else s

/-- A step of a copy (R176, R179). -/
def stepCopy (s : State) (o : Op) : State :=
  let c := o.shape
  let te := s.opHandle o (o.args.getD 0 0#32)
  let se := s.opHandle o (o.args.getD 2 0#32)
  let src := srcPlaces s o se c (o.arg 3) c.total 0
  let tgt := srcPlaces s o te { c with srs := c.trs, sps := c.tps } (o.arg 1) c.total 0
  let past := if tgt.any (fun p => (List.range p.2).any (fun i => inPlaces src p.1 i)) then src else []
  copyRun o te se past (c.total + 1) (s.modOp o.id Op.stepping) o.pos

/-- The indices of gather and scatter, read before any element moves, so that every bound is checked first (R177, R180). -/
def readIndices (s : State) (o : Op) : State :=
  let ie := s.opHandle o (o.args.getD 5 0#32)
  let n := o.grp 2
  match engRead s o ie (4 * n / 65536 + 2) (o.grp 1) (4 * n) with
  | .wait => s
  | .status st => s.failOp o st
  | .fault f va => s.pauseOp o 0 1 0x0C f va
  | .ok bs =>
    let idx := (List.range n).map (fun k => BitVec.ofNat 32 (leNat (((bs.drop (4 * k)).take 4).map (fun b => b.1))))
    let bad := (List.range n).filter (fun k => ((bs.drop (4 * k)).take 4).any (fun b => b.2))
    let be := s.opHandle o (o.args.getD 2 0#32)
    let past := (List.range n).any (fun k => !bad.contains k &&
      decide (s.opBound o be < o.arg 4 + (idx.getD k 0#32).toNat * o.elem + o.elem))
    if past then s.finishOp o.id 2
    else s.modOp o.id (fun o => { o with metaw := idx, probes := bad, phase := 1, stat := if bad.isEmpty then o.stat else 4 })

/-- The lines that hold a range at an offset written with poison, the bytes as they are (R177, R179). -/
def engMark (o : Op) (e : HandleEntry) : Nat → State → Nat → Nat → Eng State
  | 0, s, _, _ => .ok s
  | k + 1, s, off, n =>
    if n = 0 then .ok s else
    let va := (e.base + off) % 2 ^ 64
    let m := min n (65536 - va % 65536)
    let die := dieOfCore o.core
    match s.opPlace o e off false true with
    | .error f => Eng.failed f va
    | .ok l =>
      match s.locReady die l with
      | .wait => .wait
      | .dead => .status (deadStat l)
      | .yes => engMark o e k (s.enginePut die l ((s.bytesAt die l m).map (fun b => (b.1, true)))) (off + m) (n - m)

/-- The two handle entries and offsets of element k of gather or scatter: source, then target (R177). -/
def Op.element (s : State) (o : Op) (k : Nat) : (HandleEntry × Nat) × (HandleEntry × Nat) :=
  let row := (s.opHandle o (o.args.getD 0 0#32), o.arg 1 + k * o.elem)
  let far := (s.opHandle o (o.args.getD 2 0#32), o.arg 4 + (o.metaw.getD k 0#32).toNat * o.elem)
  if o.opc = 0x284 then (far, row) else (row, far)
/-- What one element of gather or scatter does; of duplicate scatter indices one element remains, by a free choice (R177, R179).
(log 7, DESIGN CHOICE) -/
def moveElement (s : State) (o : Op) (k : Nat) : Eng (State × Bool) :=
  let z := o.elem
  let p := o.element s k
  let bad := o.probes.contains k
  let dup := o.opc = 0x285 && (List.range k).any (fun j => o.metaw.getD j 0#32 == o.metaw.getD k 0#32 && !o.probes.contains j)
  if bad then
    if o.opc = 0x285 then .ok (s, true)
    else match engMark o p.2.1 2 s p.2.2 z with
      | .ok s => .ok (s, true)
      | .fault f va => .fault f va
      | .status st => .status st
      | .wait => .wait
  else match engRead s o p.1.1 2 p.1.2 z with
    | .wait => .wait
    | .status st => .status st
    | .fault f va => .fault f va
    | .ok bs =>
      if dup && s.pick [15, o.id, k] 2 == 1 then .ok (s, false)
      else match engWrite o p.2.1 2 s p.2.2 bs with
        | .ok s => .ok (s, bs.any (fun b => b.2))
        | .fault f va => .fault f va
        | .status st => .status st
        | .wait => .wait
/-- Element k shares an aligned 32-byte sector of the contiguous side with the one before it (R230). -/
def Op.elementJoined (s : State) (o : Op) (k : Nat) : Bool :=
  let a := (s.opHandle o (o.args.getD 0 0#32)).base + o.arg 1 + k * o.elem
  decide (a / 32 = (a - 1) / 32)
/-- Element k of gather or scatter and those after it that share a sector with it (R177, R230). -/
def gatherRun (o : Op) : Nat → State → Nat → State
  | 0, s, _ => s
  | n + 1, s, k =>
    if o.grp 2 ≤ k then s.finishOp o.id 0
    else match moveElement s o k with
      | .wait => s
      | .status st => s.failOp o st
      | .fault f va => if k = o.pos then s.pauseOp o 0 1 0x0C f va else s
      | .ok p =>
        let s := (p.1.noteEng o (o.element s k).1.1 (o.element s k).1.2).modOp o.id (fun o =>
          { o.passed (k * o.elem) ((k + 1) * o.elem) with pos := k + 1, stat := if o.stat = 0 && p.2 then 4 else o.stat })
        if o.grp 2 ≤ k + 1 ∨ o.elementJoined s (k + 1) then gatherRun o n s (k + 1) else s
/-- A step of gather or scatter (R177, R179). (log 7, DESIGN CHOICE) -/
def stepGather (s : State) (o : Op) : State :=
  if o.grp 2 ≤ o.pos then s.finishOp o.id 0
  else if o.phase = 0 then readIndices s o
  else gatherRun o (o.grp 2 + 1) (s.modOp o.id Op.stepping) o.pos

/-- A row of cp.scale into the core's scale memory, and those after it whose source shares an aligned 32-byte sector with it
(R178, R230). (log 7, DESIGN CHOICE) -/
def scaleRun (o : Op) (se : HandleEntry) : Nat → State → Nat → State
  | 0, s, _ => s
  | n + 1, s, r =>
    let rows := o.grp 0
    let bpr := o.grp 1
    if rows ≤ r ∨ bpr = 0 then s.finishOp o.id 0
    else
      let off := o.arg 2 + r * o.grp 2
      match engRead s o se (bpr / 65536 + 2) off bpr with
      | .wait => s
      | .status st => s.failOp o st
      | .fault f va => if r = o.pos then s.pauseOp o 0 1 0x0C f va else s
      | .ok bs =>
        let s := (List.range bpr).foldl (fun (s : State) i =>
          let pos := if o.grp 3 % 2 = 1 then i * rows + r else r * bpr + i
          let b := bs.getD i (0#8, false)
          { s with smem := s.smem.set (coreKey o.core (o.arg 0 + pos)) (if b.2 then freeByte s o pos else b.1) }) s
        let s := (s.noteEng o se off).modOp o.id (fun o => { o with pos := r + 1, stat := if o.stat = 0 && bs.any (fun b => b.2) then 4 else o.stat })
        if rows ≤ r + 1 ∨ (se.base + off + bpr - 1) / 32 = (se.base + off + o.grp 2) / 32 then scaleRun o se n s (r + 1) else s
/-- A step of cp.scale (R178). (log 7, DESIGN CHOICE) -/
def stepScale (s : State) (o : Op) : State := scaleRun o (s.opHandle o (o.args.getD 1 0#32)) (o.grp 0 + 1) s o.pos

/-- The status of the failed operation that was issued first. -/
def firstFail (l : List (Nat × Nat)) : Nat := (l.foldl (fun m p => if m.2 = 0 ∨ p.1 < m.1 then p else m) (0, 0)).2
/-- The flag's entry as a tsig read it at its issue: base, space and key-domain (R184). -/
def Op.flagEntry (o : Op) : HandleEntry :=
  { HandleEntry.none with base := o.arg 6 + o.arg 7 * 2 ^ 32, valid := true, kd := o.arg 9, atom := true, w := true, r := true, space := o.arg 8 }
/-- tsig: waits for the operations it awaits, then releases at .package and adds (R184); operands: handle, offset as two
words, addend, class mask, a zero, then base, space and key-domain of the entry. (log 22, DEDUCED) -/
def stepTsig (s : State) (o : Op) : State :=
  if s.ops.any (fun p => o.await.contains p.id && !p.done) then s
  else if firstFail o.met ≠ 0 then s.finishOp o.id (firstFail o.met)
  else
    let off := o.arg 1 + o.arg 2 * 2 ^ 32
    let va := (o.flagEntry.base + off) % 2 ^ 64
    let die := dieOfCore o.core
    match s.opPlace o o.flagEntry off true true with
    | .error f => (match f.ready with
      | .wait => s
      | .dead => s.pauseOp o 0 1 0x0D { sub := 0, bad := none, lost := none } va
      | .yes => s.pauseOp o 0 1 0x0C f va)
    | .ok l =>
      match s.locReady die l.home with
      | .wait => s
      | .dead => s.pauseOp o 0 1 0x0D { sub := 0, bad := none, lost := none } va
      | .yes =>
        if s.locPoison die l.home 4 then s.pauseOp o 0 1 0x0D { sub := 0, bad := none, lost := none } va
        else
          let r := rmwLane (rmwWord (· + ·)) 4 (s.noteEng o o.flagEntry off).release die l (o.arg 3)
          r.1.finishOp o.id 0

/-- One step of an engine operation that is not paused: its checks, then a piece of its work. -/
def State.stepEngine (s : State) (o : Op) : State :=
  if o.done || !o.pause.isEmpty then s
  else if o.opc = 0x298 then stepTsig s o
  else if !o.checked then
    if s.handlesWait o then s else
    let s := s.noteBadHandles o
    let st := if o.opc ≤ 0x282 then checkCopy s o else if o.opc = 0x283 then checkScale s o else checkGather s o
    if st ≠ 0 then s.finishOp o.id st else (s.noteHandles o).modOp o.id (fun o => { o with checked := true })
  else if o.opc ≤ 0x282 then stepCopy s o
  else if o.opc = 0x283 then stepScale s o
  else stepGather s o

/-! ## The instructions -/

/-- The value of a register in lane l0. -/
def Ctx.v0 (x : Ctx) (s : State) (r : BitVec 8) : Word := rowAt (x.row s r.toNat) x.l0
/-- A register group in lane l0. -/
def Ctx.g0 (x : Ctx) (s : State) (r : BitVec 8) (n : Nat) : List Word :=
  (List.range n).map (fun i => rowAt (x.plain s (r.toNat + i)) x.l0)

/-- The register, plus one, that each argument word of a command is read from; 0 for a word that is no register: the words as the command
takes them where every register holds its own number plus one. -/
def lateArgs (args : Ctx → State → List Word) (x : Ctx) (s : State) : Option Late :=
  let names : List Row := (List.range 256).map (fun r => List.replicate 64 (BitVec.ofNat 32 (r + 1)))
  some (.args ((args { x with regs := names, flights := [] } s).map BitVec.toNat) x.l0)

/-- An engine command: operands of lane l0, posted, which may still be read until it completes (R61); an empty `act` issues none
(R174). (log 19, DEDUCED) -/
def runEngine (f : FormX) (cls opc : Nat) (srcs : List Opnd) (bad : Bool) (args : Ctx → State → List Word) (s : State) : Out :=
  issue { specX f srcs [] .none with ends := true, hint := true } (fun _ => f.rsv ≠ 0#6 || bad)
    (fun x s =>
      if x.act = 0#64 then .ok { s := s, wr := [], ctl := false }
      else if !canPost s x.c cls then .error .hold
      else .ok { s := s.postOp (newOp x s cls opc (args x s)), wr := [], ctl := false, late := lateArgs args x s }) s

/-- cp (R176). -/
def execCp (f : FormX) (s : State) : Out :=
  runEngine f 0 0x280 [one f.d, one f.a, one f.b, one f.c, one f.e] false
    (fun x s => [x.v0 s f.d, x.v0 s f.a, x.v0 s f.b, x.v0 s f.c, x.v0 s f.e]) s
/-- cp.2d (R176): E is a group of 8. -/
def execCp2d (f : FormX) (s : State) : Out :=
  runEngine f 0 0x281 [one f.d, one f.a, one f.b, one f.c, grp f.e 8] false
    (fun x s => [x.v0 s f.d, x.v0 s f.a, x.v0 s f.b, x.v0 s f.c, 0#32] ++ x.g0 s f.e 8) s
/-- cp.3d (R176): E is a group of 8. -/
def execCp3d (f : FormX) (s : State) : Out :=
  runEngine f 0 0x282 [one f.d, one f.a, one f.b, one f.c, grp f.e 8] false
    (fun x s => [x.v0 s f.d, x.v0 s f.a, x.v0 s f.b, x.v0 s f.c, 0#32] ++ x.g0 s f.e 8) s
/-- cp.scale (R178): C is a group of 4; E is reserved, read as a field that must be zero (log 42, DESIGN CHOICE). -/
def execCpScale (f : FormX) (s : State) : Out :=
  runEngine f 0 0x283 [one f.d, one f.a, one f.b, grp f.c 4] (f.e ≠ 0#8)
    (fun x s => [x.v0 s f.d, x.v0 s f.a, x.v0 s f.b, 0#32, 0#32] ++ x.g0 s f.c 4) s
/-- gather (R177): C is a group of 4. -/
def execGather (f : FormX) (s : State) : Out :=
  runEngine f 1 0x284 [one f.d, one f.a, one f.b, grp f.c 4, one f.e] false
    (fun x s => [x.v0 s f.d, x.v0 s f.a, x.v0 s f.b, 0#32, x.v0 s f.e] ++ x.g0 s f.c 4) s
/-- scatter (R177): C is a group of 4. -/
def execScatter (f : FormX) (s : State) : Out :=
  runEngine f 1 0x285 [one f.d, one f.a, one f.b, grp f.c 4, one f.e] false
    (fun x s => [x.v0 s f.d, x.v0 s f.a, x.v0 s f.b, 0#32, x.v0 s f.e] ++ x.g0 s f.c 4) s

/-- waitc (R181, R182): waits for COUNT ≤ n; ERR raises ENGINE or FABRIC and is cleared; KEY when it would wait on an
operation held for an exhausted key. -/
def runWaitc (f : FormI) (cls : Nat) (s : State) : Out :=
  issue (specI f [] [] .none) (fun _ => f.imm.toNat / 256 ≠ 0 || f.d ≠ 0#8 || f.a ≠ 0#8 || f.sub ≠ 0#7)
    (fun x s =>
      if x.act = 0#64 then .ok { s := s, wr := [], ctl := false }
      else if f.imm.toNat % 256 < x.c.count cls then
        match (if cls = 3 then ((s.ops.filter (fun o => o.crew == x.id && o.cls == 3 && !o.dropped && o.level == x.c.gates.length)).take (x.c.count 3 - f.imm.toNat % 256)).findSome? (fun o => s.heldPort o) else none) with
        | some q => .error (.raise (sysCause 0x18 0 q 0#64 0#64))
        | none => .error .hold
      else if x.c.err cls then
        let k := crewCause (if cls = 3 then 0x0F else 0x0E) cls (x.c.stat cls) 0#64 0#64 true
        .error (.raiseIn (s.modCrew x.id (fun c =>
          { c.setOc cls (mkOcnt false 0 (c.count cls)) with errs := c.errs.filter (fun e => !(e.2.1 == cls && e.2.2.2 == c.gates.length)) })) k)
      else .ok { s := s.acquire 1 x.c, wr := [], ctl := false }) s

/-- waitc.cp (R181). -/
def execWaitcCp (f : FormI) (s : State) : Out := runWaitc f 0 s
/-- waitc.ga (R181). -/
def execWaitcGa (f : FormI) (s : State) : Out := runWaitc f 1 s
/-- waitc.mx (R181). -/
def execWaitcMx (f : FormI) (s : State) : Out := runWaitc f 2 s
/-- waitc.fb (R181). -/
def execWaitcFb (f : FormI) (s : State) : Out := runWaitc f 3 s

/-! ## Arrival counters (R183) -/

/-- GATE subcode 7: an instruction that a callee may not issue (R216). -/
def gateForbid (c : Crew) : Sig := .raise (gateCause 7 c.gateIndex)
/-- Counter i of a block. -/
def arrOf (s : State) (blk i : Nat) : Word :=
  match s.block? blk with
  | some b => b.arr.getD i 0#32
  | none => 0#32
/-- Bytes added to a counter; an addition past 2^32 - 1 leaves it at that (R183). -/
def State.addArr (s : State) (blk i n : Nat) : State :=
  s.modBlock blk (fun b => { b with arr := b.arr.set i (BitVec.ofNat 32 (min 0xFFFFFFFF ((b.arr.getD i 0#32).toNat + n))) })

/-- IMM32 and SUB of the counter forms. -/
def arrBad (f : FormI) : Bool := f.imm.toNat / 64 ≠ 0 || f.sub ≠ 0#7

/-- arrinit (R183). (log 20, DEDUCED) -/
def execArrinit (f : FormI) (s : State) : Out :=
  issue (specI f [one f.a] [] .none) (fun _ => arrBad f || f.d ≠ 0#8)
    (fun x s =>
      if x.act = 0#64 then .ok { s := s, wr := [], ctl := false }
      else if x.c.callee then .error (gateForbid x.c)
      else .ok { s := s.modBlock x.c.blk (fun b => { b with arr := b.arr.set (f.imm.toNat % 64) (x.v0 s f.a) }), wr := [], ctl := false }) s
/-- arrw (R183): waits until the counter has reached a. -/
def execArrw (f : FormI) (s : State) : Out :=
  issue (specI f [one f.a] [] .none) (fun _ => arrBad f || f.d ≠ 0#8)
    (fun x s =>
      if x.act = 0#64 then .ok { s := s, wr := [], ctl := false }
      else if x.c.callee then .error (gateForbid x.c)
      else if (arrOf s x.c.blk (f.imm.toNat % 64)).toNat < (x.v0 s f.a).toNat then .error .hold
      else .ok { s := s.acquire 2 x.c, wr := [], ctl := false }) s
/-- arrrd (R183). -/
def execArrrd (f : FormI) (s : State) : Out :=
  issue (specI f [] [one f.d] .var) (fun _ => arrBad f || f.a ≠ 0#8)
    (fun x s =>
      if x.act ≠ 0#64 ∧ x.c.callee then .error (gateForbid x.c)
      else
        let v := arrOf s x.c.blk (f.imm.toNat % 64)
        .ok { s := s, wr := [Wr.full (x.d 0) x.act (fun _ => v)], ctl := false }) s

/-! ## Tile signals (R184) -/

/-- tsig (R184): the flag address is checked at issue; the add waits for the operations of the masked classes. (log 22, DEDUCED) -/
def execTsig (f : FormM) (s : State) : Out :=
  issue { specM f (mSrcs f false ++ [one f.b]) [] .none false with ends := true } (fun _ => hndBad f || f.d.toNat / 16 ≠ 0)
    (fun x s =>
      if x.act = 0#64 then .ok { s := s, wr := [], ctl := false }
      else
        let as := formAcc f x s false (ofs10 f * 4) x.m0
        match checkSig s x.c as 4 [1, 3, 5, 8] (fun e => e.w && e.atom) with
        | some k => .error k
        | none =>
          if !canPost s x.c 0 then .error .hold
          else
            match as with
            | [] => .ok { s := s, wr := [], ctl := false }
            | a :: _ =>
              let masked := fun k => f.d.getLsbD k
              let e := a.e
              let o := newOp x s 0 0x298
                [BitVec.ofNat 32 a.hidx, BitVec.ofNat 32 a.off, BitVec.ofNat 32 (a.off / 2 ^ 32), x.v0 s f.b,
                 BitVec.ofNat 32 (f.d.toNat % 16), 0#32, BitVec.ofNat 32 e.base, BitVec.ofNat 32 (e.base / 2 ^ 32),
                 BitVec.ofNat 32 e.space, BitVec.ofNat 32 e.kd]
              let await := s.ops.filter (fun p => p.crew == x.id && masked p.cls)
              -- what has failed already: operations done, and those counted off whose error no waitc has reported
              let met := (await.filter (fun p => p.done && p.stat ≠ 0)).map (fun p => (p.id, p.stat)) ++
                (x.c.errs.filter (fun r => masked r.2.1 && r.2.2.2 == x.c.gates.length)).map (fun r => (r.1, r.2.2.1))
              .ok { s := s.postOp { o with await := await.map (fun p => p.id), met := met }, wr := [], ctl := false,
                    late := some (.args [0, 0, 0, x.dataReg f.b 1 + 1] x.l0) }) s

end Sys2Proof.Machine
end

