-- ==== Sys2Proof/Machine/Router.lean ====
section
/-!
DEFINITION. Router.lean: addresses, ports, packet headers, routes, detours, groups and ranks, responses and aborts
(spec 13 R277 to R297; 25 R440 to R445; 24 R434, R437).
-/

namespace Sys2Proof.Machine

open Sys2Proof

/-! ## The grid (R277 to R279, R440) -/

/-- Own package address. -/
def State.own (s : State) : Nat := bitsOf s.fabcfg.toNat 31 24
/-- Rows of the domain. -/
def State.rn (s : State) : Nat := bitsOf s.fabcfg.toNat 23 20 + 1
/-- Columns of the domain. -/
def State.cn (s : State) : Nat := bitsOf s.fabcfg.toNat 19 16 + 1
/-- A package address lies in the grid (R279). -/
def State.inGrid (s : State) (a : Nat) : Bool := decide (a < 256) && decide (a / 16 < s.rn) && decide (a % 16 < s.cn)
/-- The logical port toward a package of the own row or column (R278). -/
def State.logPort (s : State) (t : Nat) : Nat :=
  if t / 16 = s.own / 16 then (t % 16 + 31 - s.own % 16) % 16 else 15 + (t / 16 + 31 - s.own / 16) % 16
/-- The package that logical port p connects to; none outside the grid (R278). -/
def State.peerOf (s : State) (p : Nat) : Option Nat :=
  let r := s.own / 16
  let c := s.own % 16
  let t := if p < 15 then r * 16 + (c + p + 1) % 16 else (r + (p - 15) + 1) % 16 * 16 + c
  if p < 30 ∧ s.inGrid t then some t else none
/-- Port p. -/
def State.port (s : State) (p : Nat) : Port := s.ports.getD p Port.reset
/-- A port changed by a function. -/
def State.modPort (s : State) (p : Nat) (f : Port → Port) : State := { s with ports := s.ports.set p (f (s.port p)) }
/-- The logical port that a physical port serves: a spare serves the one it is mapped to, and that one is then out (R442). -/
def State.serves? (s : State) (p : Nat) : Option Nat :=
  if p < 30 then (if [30, 31].any (fun q => (s.port q).mapv && (s.port q).lport == p) then none else some p)
  else if (s.port p).mapv then some (s.port p).lport else none
/-- The physical port that serves a logical one. -/
def State.physPort (s : State) (lp : Nat) : Nat := ([30, 31].find? (fun q => (s.port q).mapv && (s.port q).lport == lp)).getD lp
/-- The physical port toward a package of the own row or column. -/
def State.portTo (s : State) (t : Nat) : Nat := s.physPort (s.logPort t)
/-- Free credits of a port in a channel, over its hop classes; a port that is not UP counts as having none (R281, R445). (log 15, DEDUCED) -/
def State.freeCredits (s : State) (p ch : Nat) : Nat :=
  if (s.port p).st = 2 then ((s.port p).credit.drop (4 * ch)).take 4 |>.sum else 0
/-- The port toward a neighbour is UP. -/
def State.upTo (s : State) (t : Nat) : Bool := (s.port (s.portTo t)).st == 2

/-! ## Packet headers (R283) -/

/-- A header, field by field; `ents` holds the remaining route entries. -/
structure Hd where
  dst : Nat
  src : Nat
  kind : Nat
  relh : Bool
  nent : Nat
  hops : Nat
  ch : Nat
  ndata : Nat
  stat : Nat
  seq : Nat
  group : Nat
  ctx : Nat
  tag : Nat
  off : Nat
  rop : Nat
  aop : Nat
  ctr : Nat
  arr : Bool
  rhnd : Nat
  ents : List Nat
deriving DecidableEq, Repr

/-- The eight words of a header. -/
def Hd.words (h : Hd) : List Word :=
  [ h.dst % 256 * 2 ^ 24 + h.src % 256 * 2 ^ 16 + h.kind % 16 * 2 ^ 12 + h.relh.toNat * 2 ^ 11 + h.nent % 8 * 2 ^ 8 + h.hops % 4 * 64 +
      h.ch % 4 * 16 + h.ndata % 16,
    h.stat % 16 * 2 ^ 24 + h.seq % 2 ^ 16 * 256 + h.group % 256,
    h.ctx % 2 ^ 16 * 2 ^ 16 + h.tag % 2 ^ 16,
    h.off % 2 ^ 32,
    h.rop % 16 * 2 ^ 22 + h.aop % 16 * 2 ^ 18 + h.ctr % 64 * 2 ^ 12 + h.arr.toNat * 2 ^ 11 + h.rhnd % 2 ^ 11,
    h.ents.getD 0 0 % 2 ^ 16 + h.ents.getD 1 0 % 2 ^ 16 * 2 ^ 16,
    h.ents.getD 2 0 % 2 ^ 16 + h.ents.getD 3 0 % 2 ^ 16 * 2 ^ 16,
    h.ents.getD 4 0 % 2 ^ 16 + h.ents.getD 5 0 % 2 ^ 16 * 2 ^ 16 ].map (BitVec.ofNat 32)

/-- The fields of a packet's header. -/
def Packet.hd (p : Packet) : Hd :=
  let w := fun i => (p.hdr.getD i 0#32).toNat
  let nent := bitsOf (w 0) 10 8
  { dst := bitsOf (w 0) 31 24, src := bitsOf (w 0) 23 16, kind := bitsOf (w 0) 15 12, relh := bitOf (w 0) 11, nent := nent,
    hops := bitsOf (w 0) 7 6, ch := bitsOf (w 0) 5 4, ndata := bitsOf (w 0) 3 0, stat := bitsOf (w 1) 27 24, seq := bitsOf (w 1) 23 8,
    group := bitsOf (w 1) 7 0, ctx := bitsOf (w 2) 31 16, tag := bitsOf (w 2) 15 0, off := w 3, rop := bitsOf (w 4) 25 22,
    aop := bitsOf (w 4) 21 18, ctr := bitsOf (w 4) 17 12, arr := bitOf (w 4) 11, rhnd := bitsOf (w 4) 10 0,
    ents := ((List.range 3).flatMap (fun i => [w (5 + i) % 65536, w (5 + i) / 65536])).take nent }

/-- Channel of a kind (R281). -/
def chanOf (kind : Nat) : Nat := if [0, 1, 3, 4, 6, 11].contains kind then 0 else if [8, 10].contains kind then 2 else 1
/-- The kind that answers a request: MARKACK, PROBEACK, and READRSP for the rest (R283 names no other; log 14, DEDUCED). -/
def ackKind (kind : Nat) : Nat := if kind = 4 then 5 else if kind = 6 then 7 else 2
/-- A header with every field zero but these. -/
def Hd.mk0 (s : State) (dst kind ctx tag : Nat) : Hd :=
  { dst := dst, src := s.own, kind := kind, relh := false, nent := 0, hops := 0, ch := chanOf kind, ndata := 0, stat := 0, seq := 0,
    group := 0, ctx := ctx, tag := tag, off := 0, rop := 0, aop := 0, ctr := 0, arr := false, rhnd := 0, ents := [] }
/-- A packet of a header and data. -/
def Packet.mk0 (h : Hd) (data : List Byte) : Packet :=
  { hdr := { h with ndata := (data.length + 31) / 32 }.words, data := data, bad := [], blockId := 0, ht := 0#64, len := 0, spanOff := 0,
    span := 0 }
/-- The packet with its header replaced. -/
def Packet.withHd (p : Packet) (h : Hd) : Packet := { p with hdr := h.words }

/-! ## Routes (R284, R285) -/

/-- A ROW or COL entry. -/
def entHop (col det : Bool) (coord : Nat) : Nat := (if col then 8192 else 0) + (if det then 4096 else 0) + coord * 256
/-- A DLV entry. -/
def entDlv : Nat := 0x4000
/-- A RED entry. -/
def entRed : Nat := 0x6000
/-- A FAN entry. -/
def entFan : Nat := 0x8000

/-- The route to a target, ended by a given entry. Of two minimal orders the one whose first link has more free credits in the
packet's channel is taken, row first on a tie (R285, R445). -/
def State.routeTo (s : State) (t last ch : Nat) : List Nat :=
  let r := t / 16
  let c := t % 16
  let row := entHop false false c
  let col := entHop true false r
  if t = s.own then [last]
  else if r = s.own / 16 then [row, last]
  else if c = s.own % 16 then [col, last]
  else
    let crR := s.freeCredits (s.portTo (s.own / 16 * 16 + c)) ch
    let crC := s.freeCredits (s.portTo (r * 16 + s.own % 16)) ch
    if crR < crC then [col, row, last] else [row, col, last]

/-- The lowest-numbered intermediate of a detour from here to a neighbour (R295, R445). -/
def State.detourVia (s : State) (t : Nat) : Option Nat :=
  let row := t / 16 = s.own / 16
  let cand := (List.range 16).map (fun i => if row then s.own / 16 * 16 + i else i * 16 + s.own % 16)
  cand.find? (fun m =>
    let k := if row then m % 16 else 16 + m / 16
    m ≠ t && m ≠ s.own && s.inGrid m && !s.detex.getLsbD k && s.upTo m &&
      (s.lstate.getD k 0#32).getLsbD (if row then t % 16 else t / 16))

/-- A packet that entered on a port, 32 for the package itself, dropped under R284: counted in the RAS counters (R449) and logged (R450). -/
def State.countDrop (s : State) (port : Nat) : State :=
  { s with ras := { s.ras with pktdrop := satInc s.ras.pktdrop } }.rasLog 10 (if port < 32 then port * 65536 + port / 8 * 64 else 0) 0 0

/-- Network hops that remaining entries make. -/
def hopsLeft (es : List Nat) : Nat := (es.filter (fun e => decide (e / 8192 ≤ 1))).length

/-- What becomes of a packet that a router handles. -/
inductive Routed where
  /-- queued for a port -/
  | sent (s : State)
  /-- handed to this package's landing agent -/
  | landed (s : State)
  /-- no way: its command retires with LINKDOWN (R295) -/
  | lost
  /-- a REDUCE or REDRSP that was to leave on a failed port starts an abort (R295) -/
  | abort
  /-- malformed (R284) -/
  | drop
  /-- to be copied to every member (R284) -/
  | fan

/-- One hop of a packet to a neighbour, its entry already popped: on the port, or on a detour (R284, R295). The second hop of a
detour is marked 99, which is no port. -/
def State.hopTo (s : State) (h : Hd) (p : Packet) (t : Nat) (det : Bool) : Routed :=
  if h.hops = 3 then .drop
  else
    let q := s.portTo t
    if (s.port q).st = 2 ∧ ¬((s.port q).txst = 3 ∧ (h.kind = 8 ∨ h.kind = 9)) then
      .sent { s with outq := s.outq ++ [{ port := q, pkt := p.withHd { h with hops := h.hops + 1 }, around := if det then some 99 else none }] }
    else if h.kind = 8 ∨ h.kind = 9 then .abort
    else if det ∨ 3 < h.hops + 2 + hopsLeft h.ents then .lost
    else
      match s.detourVia t with
      | none => .lost
      | some m =>
        let e := if t / 16 = s.own / 16 then entHop false true (t % 16) else entHop true true (t / 16)
        let h := { h with hops := h.hops + 1, ents := e :: h.ents, nent := h.nent + 1 }
        .sent { s with outq := s.outq ++ [{ port := s.portTo m, pkt := p.withHd h, around := some (s.logPort t) }] }

/-- A router takes a packet that entered it on a port (32 for the package itself): one entry is popped (R284). -/
def State.routeStep (s : State) (port : Nat) (p : Packet) : Routed :=
  let h := p.hd
  match h.ents with
  | [] => .drop
  | e :: es =>
    if h.nent = 7 ∨ 8 < h.ndata ∨ h.kind = 15 then .drop
    else
      let h' := { h with ents := es, nent := h.nent - 1 }
      let coord := bitsOf e 11 8
      match e / 8192 with
      | 0 => s.hopTo h' p (s.own / 16 * 16 + coord) (bitOf e 12)
      | 1 => s.hopTo h' p (coord * 16 + s.own % 16) (bitOf e 12)
      | 2 => if h.dst ≠ s.own then .drop else .landed { s with landing := s.landing ++ [{ port := port, pkt := p.withHd h', around := none }] }
      | 3 => .landed { s with landing := s.landing ++ [{ port := port, pkt := p.withHd h', around := none }] }
      | 4 => .fan
      | _ => .drop

/-! ## Groups, ranks, membership (R288 to R290, R437) -/

/-- Group entry g. -/
def State.grp (s : State) (g : Nat) : Group := if g = 0 then Group.reset else s.groups.getD g Group.reset
/-- A group entry changed by a function. -/
def State.modGroup (s : State) (g : Nat) (f : Group → Group) : State := { s with groups := s.groups.set g (f (s.grp g)) }
/-- The members of a group, by package id. -/
def Group.members (g : Group) : List Nat := (List.range 256).filter (fun i => g.memb.getLsbD i)
/-- Hop distance of a package from a root (R289). -/
def hopDist (root a : Nat) : Nat := if a = root then 0 else if a / 16 = root / 16 ∨ a % 16 = root % 16 then 1 else 2
/-- The members in rank order (R289). -/
def Group.ranks (g : Group) : List Nat :=
  [0, 1, 2].flatMap (fun d => g.members.filter (fun a => hopDist g.root a == d))
/-- Rank of a package. -/
def Group.rankOf (g : Group) (a : Nat) : Nat := g.ranks.idxOf a
/-- A command that names group g is accepted for a context (R288). -/
def State.grpFor (s : State) (g ctx : Nat) : Bool := (s.grp g).v && (s.grp g).ctx == ctx
/-- The group has a collective of its SEQ at work here: a cox context (R288, R298; log 16, DEDUCED). -/
def State.grpActive (s : State) (g : Nat) : Bool :=
  s.coxes.any (fun c => c.slots.any (fun k => k.st ≠ 0 && k.group == g && k.seq == (s.grp g).seq))
/-- STATE of a group entry (R288). (log 16, DEDUCED) -/
def State.grpState (s : State) (g : Nat) : Nat :=
  if s.aborts.any (fun a => a.grp == g && a.seq == (s.grp g).seq) then 2 else if s.grpActive g then 1 else 0

/-- The MPC of a context, if it has one (R436). -/
def State.mpcOf (s : State) (ctx : Nat) : Option Mpc := s.mpcs.find? (fun m => m.ctx == ctx)
/-- A package may exchange packets for the context (R437). -/
def State.admitted (s : State) (ctx a : Nat) : Bool :=
  match s.mpcOf ctx with
  | some m => m.members.getLsbD a
  | none => true

/-! ## Landing places (R185) -/

/-- The block whose memory a block-space landing reaches: resident here, of the context, with the issuing block's BLOCKID;
which one of several is free (R185). (log 7, DESIGN CHOICE) -/
def State.landBlock (s : State) (ctx blockId : Nat) : Option Block :=
  let bs := s.blocks.filter (fun b => b.ctx == ctx && b.blockId == blockId && b.place == 0)
  match bs with
  | [] => none
  | b :: _ => some (bs.getD (s.pick [18, ctx, blockId] bs.length) b)

/-- The entry that a packet's remote handle names here (R185, R436). -/
def State.remoteEntry (s : State) (ctx : Nat) (ht : DWord) (h : Nat) : HandleEntry :=
  if !(s.ctxDesc ctx).valid then HandleEntry.none else s.handle (s.ctxDesc ctx).asid 0 ht h 19

/-- A place of a remote entry. -/
def State.remotePlace (s : State) (ctx : Nat) (b : Option Block) (e : HandleEntry) (off : Nat) (r w : Bool) : Except XFail Loc :=
  if e.space = 2 then
    match b with
    | some b => .ok (.blk b.core (b.bmOff + off))
    | none => .error { sub := 0, bad := none, lost := none }
  else
    let va := (e.base + off) % 2 ^ 64
    if canonical va then s.place (s.ctxDesc ctx).asid va { r := r, w := w, x := false, space := e.space, kd := some e.kd } 19
    else .error { sub := 0, bad := none, lost := none }

/-- After a translation fault at a landing, the command's target range is undefined: free bytes where it can be written (R185). (log 7, DESIGN CHOICE) -/
def State.landScrub (s : State) (die ctx : Nat) (b : Option Block) (e : HandleEntry) (off n : Nat) : State :=
  (List.range (n / 65536 + 2)).foldl (fun s j =>
    let from_ := if j = 0 then off else ((e.base + off) / 65536 + j) * 65536 - e.base
    let len := min (65536 - (e.base + from_) % 65536) (off + n - from_)
    match s.remotePlace ctx b e from_ false true with
    | .ok l =>
      if s.locReady die l = .yes then
        s.enginePut die l ((List.range len).map (fun i => (BitVec.ofNat 8 (Config.free s.free [23, from_ + i]), false)))
      else s
    | .error _ => s) s

/-- A packet of this package's own command, by its TAG. -/
def State.ownPkt (s : State) (tag : Nat) (q : PortPkt) : Bool :=
  q.pkt.hd.src == s.own && q.pkt.hd.kind == 0 && q.pkt.hd.tag == tag && q.pkt.hd.dst == s.own
/-- A fabric command ends part-way with a status: where that leaves its target range undefined, the part of it that lies in this
package's own memory takes free bytes: a target that is this package, or this package as a member, once it has been probed; its WRITEs
that have not landed here land no more (R180, R185, R294). (log 7, DESIGN CHOICE) -/
def State.failFab (s : State) (o : Op) (stat : Nat) : State :=
  let put := o.opc = 0x2C0 ∧ o.arg 0 % 256 = s.own
  let mc := o.opc = 0x2C5 ∧ (s.grp (o.arg 0 % 256)).memb.getLsbD s.own
  let s := if (stat = 3 ∨ stat = 5 ∨ stat = 6) ∧ (put ∨ mc) ∧ (0 < o.pos ∨ stat = 3 ∨ 2 ≤ o.phase) then
      let s := { s with landing := s.landing.filter (fun q => !s.ownPkt o.tag q), frags := s.frags.filter (fun f => f.key ≠ [s.own, o.tag]) }
      let e := s.remoteEntry o.ctx o.ht (if o.opc = 0x2C0 then o.arg 1 % 2048 else (s.grp (o.arg 0 % 256)).rhnd)
      let b := if e.space = 2 then s.landBlock o.ctx (((s.block? o.blk).map (fun b => b.blockId)).getD 0) else none
      s.landScrub (dieOfCore o.core) o.ctx b e (o.arg 2) (o.arg 4 % 2 ^ 24)
    else s
  s.failOp o stat

/-! ## Sending and answering -/

/-- An own command whose packet was lost retires with LINKDOWN (R295): requests, by their TAG. -/
def State.loseOwn (s : State) (h : Hd) (stat : Nat) : State :=
  if h.src = s.own ∧ chanOf h.kind = 0 then
    match s.ops.find? (fun o => o.cls == 3 && o.tag == h.tag && !o.done) with
    | some o => s.failFab o stat
    | none => s
  else s

/-- Begin an abort of group g at sequence s as the detecting router: the ABORTs to be sent (R296). -/
def State.openAbort (s : State) (g seq : Nat) : State :=
  if s.aborts.any (fun a => a.grp == g && a.seq == seq) then s
  else { s with aborts := s.aborts ++ [{ grp := g, seq := seq, waiting := (s.grp g).members, since := s.clock.toNat }] }

/-- A packet given its route and put into the source router (R285). -/
def State.enter (s : State) (h : Hd) (p : Packet) (last : Nat) : Routed :=
  let es := s.routeTo h.dst last h.ch
  s.routeStep 32 (p.withHd { h with ents := es, nent := es.length, ndata := (p.data.length + 31) / 32 })

/-- ABORT(g, seq) of a detecting router sent from here to a member; false when it cannot be reached (R296). -/
def State.sendAbort (s : State) (src m g seq : Nat) : State × Bool :=
  let h := { Hd.mk0 s m 12 (s.grp g).ctx 0 with src := src, seq := seq, group := g }
  match s.enter h (Packet.mk0 h []) entDlv with
  | .sent s => (s, true)
  | .landed s => (s, true)
  | _ => (s, false)
/-- The members to whom the detector d sends ABORT itself: itself, those of its row and column, and those that no such member
can relay it to (R296 step 1). (log 14, DEDUCED) -/
def Group.direct (g : Group) (d : Nat) : List Nat :=
  g.members.filter (fun m => m / 16 == d / 16 || m % 16 == d % 16 ||
    !(g.memb.getLsbD (d / 16 * 16 + m % 16) || g.memb.getLsbD (m / 16 * 16 + d % 16)))
/-- The members to whom a member relays the ABORT of detector d: along its own column, or its own row (R296 step 1). (log 14, DEDUCED) -/
def Group.relays (g : Group) (d own : Nat) : List Nat :=
  if own = d then []
  else if own / 16 = d / 16 then g.members.filter (fun m => m % 16 == own % 16 && m ≠ own)
  else if own % 16 = d % 16 then g.members.filter (fun m => m / 16 == own / 16 && m ≠ own)
  else []
/-- ABORT sent to members of a group by their detector, this package; one that cannot be reached is not awaited (R296 steps 1, 4). (log 14, DEDUCED) -/
def State.sendAborts (s : State) (g seq : Nat) : State :=
  ((s.grp g).direct s.own).foldl (fun s m =>
    match s.sendAbort s.own m g seq with
    | (s, true) => s
    | (s, false) => { s with aborts := s.aborts.map (fun a =>
        if a.grp = g ∧ a.seq = seq then { a with waiting := a.waiting.filter (fun x => x ≠ m) } else a) }) s

/-- The detecting router's part of an abort (R296 step 1). -/
def State.startAbort (s : State) (g seq : Nat) : State :=
  if s.aborts.any (fun a => a.grp == g && a.seq == seq) then s else (s.openAbort g seq).sendAborts g seq

/-- A packet sent to its DST, its route ended by an entry; false when it found no way (R285, R295). -/
def State.sendVia (s : State) (h : Hd) (p : Packet) (last : Nat) : State × Bool :=
  match s.enter h p last with
  | .sent s => (s, true)
  | .landed s => (s, true)
  | .abort => (s.startAbort h.group h.seq, true)
  | .lost => if h.kind = 10 then (s.startAbort h.group h.seq, true) else (s, false)
  | .drop => (s.countDrop 32, false)
  | _ => (s, false)
/-- A packet sent to its DST and delivered there. -/
def State.sendPkt (s : State) (h : Hd) (p : Packet) : State × Bool := s.sendVia h p entDlv

/-- A response to a request (R284, R292): a status and data. -/
def State.answer (s : State) (h : Hd) (stat : Nat) (data : List Byte) (bad : List Nat) : State :=
  let r := { Hd.mk0 s h.src (ackKind h.kind) h.ctx h.tag with stat := stat, seq := h.seq, group := h.group, off := h.off }
  (s.sendPkt r { Packet.mk0 r data with bad := bad, len := if h.kind = 11 then 11 else 0 }).1

/-- A packet routed at this package, and everything that follows from it: drops are counted and requests answered with CMD
(R284), failures abort or retire commands (R295), FAN copies go to every member (R284). -/
def State.route (s : State) (port : Nat) (p : Packet) : State :=
  let h := p.hd
  match s.routeStep port p with
  | .sent s => s
  | .landed s => s
  | .lost => if h.kind = 10 then s.startAbort h.group h.seq else s.loseOwn h 6
  | .abort => s.startAbort h.group h.seq
  | .drop => if h.ch = 0 then (s.countDrop port).answer h 12 [] [] else s.countDrop port
  | .fan =>
    (s.grp h.group).members.foldl (fun s m =>
      let h' := { h with dst := m }
      (s.sendPkt h' p).1) s

end Sys2Proof.Machine
end

