-- ==== Sys2Proof/Machine/Fabric.lean ====
section
/-!
DEFINITION. Fabric.lean: fput, fget, fatom, fmark, fldred and fstmc, and the steps by which they run
(spec 08 R185 to R189; 13 R279, R287 to R294).
-/

namespace Sys2Proof.Machine

open Sys2Proof

/-- The status of the target's checks over a range of a command: HANDLE, then ABSENT for a block that is not here, then BOUND. -/
def State.remoteCheck (s : State) (ctx : Nat) (b : Option Block) (e : HandleEntry) (write arr : Bool) (off n : Nat) : Nat :=
  if !(if write then dstOk e else srcOk e) || (arr && e.space ≠ 2) then 1
  else if e.space = 2 && b.isNone then 7
  else if n ≠ 0 && decide ((match b with
    | some b => if e.space = 2 then b.bmLen else e.limit
    | none => e.limit) < off + n) then 2
  else if !(s.ctxDesc ctx).valid then 1
  else 0

/-- How a landing ends. -/
inductive Landed where
  | ok (s : State)
  | status (n : Nat)
  | wait

/-- A translation that a landing has used is held by the TLBs (R397). -/
def State.noteLand (s : State) (ctx : Nat) (e : HandleEntry) (off : Nat) : State :=
  if e.space = 2 then s else s.noteTlb (s.ctxDesc ctx).asid ((e.base + off) % 2 ^ 64)
/-- A landing that met a translation fault in a range of a remote entry: a malformed entry in its way is counted (R396). -/
def State.noteLandBad (s : State) (ctx : Nat) (e : HandleEntry) (off n : Nat) : State :=
  ((List.range (n / 65536 + 2)).map (fun j => if j = 0 then off else ((e.base + off) / 65536 + j) * 65536 - e.base)).foldl (fun s o =>
    if e.space = 2 ∨ off + n ≤ o then s else s.noteBadAt (s.ctxDesc ctx).asid ((e.base + o) % 2 ^ 64) 19) s

/-- Bytes written at an offset of a remote entry, page by page; a translation fault gives XLATE (R185). (log 7, DESIGN CHOICE) -/
def State.landWrite (die ctx : Nat) (b : Option Block) (e : HandleEntry) : Nat → State → Nat → List (Byte × Bool) → Landed
  | 0, s, _, _ => .ok s
  | k + 1, s, off, bs =>
    if bs.isEmpty then .ok s else
    let m := min bs.length (65536 - (e.base + off) % 65536)
    match s.remotePlace ctx b e off false true with
    | .error f => (match f.ready with
      | .wait => .wait
      | .dead => .status 4
      | .yes => .status 3)
    | .ok l =>
      match s.locReady die l with
      | .wait => .wait
      | .dead => .status (deadStat l)
      | .yes =>
        -- the far-memory device may refuse capacity (R180, R408)
        if e.space = 4 ∧ s.pick [22, ctx, off] 2 = 1 then .status 5
        else State.landWrite die ctx b e k ((s.noteLand ctx e off).enginePut die l (bs.take m)) (off + m) (bs.drop m)

/-- The pieces that a packet writes, one after the other. -/
def State.landPieces (die ctx : Nat) (b : Option Block) (e : HandleEntry) : List (Nat × List (Byte × Bool)) → State → Landed
  | [], s => .ok s
  | p :: ps, s =>
    match State.landWrite die ctx b e 3 s p.1 p.2 with
    | .ok s => State.landPieces die ctx b e ps s
    | x => x

/-- Bytes read at an offset of a remote entry, page by page; each with its poison. -/
def State.landRead (s : State) (die ctx : Nat) (b : Option Block) (e : HandleEntry) : Nat → Nat → Nat → Eng (List (Byte × Bool))
  | 0, _, _ => .ok []
  | k + 1, off, n =>
    if n = 0 then .ok [] else
    let m := min n (65536 - (e.base + off) % 65536)
    match s.remotePlace ctx b e off true false with
    | .error f => (match f.ready with
      | .wait => .wait
      | .dead => .status 4
      | .yes => .status 3)
    | .ok l =>
      match s.locReady die l with
      | .wait => .wait
      | .dead => .status (deadStat l)
      | .yes =>
        match State.landRead s die ctx b e k (off + m) (n - m) with
        | .ok r =>
          let bs := (s.beforeLoad die l m).load die l m
          .ok ((List.range m).map (fun i => (bs.getD i 0#8, match l with
            | .blk _ _ => false
            | _ => s.poisoned (l.readPa die + i) 1)) ++ r)
        | x => x

/-- The flits of a run of bytes that hold poison. -/
def badFlits (bs : List (Byte × Bool)) : List Nat :=
  (List.range ((bs.length + 31) / 32)).filter (fun f => ((bs.drop (32 * f)).take 32).any (fun b => b.2))
/-- The bytes of a packet with the poison of their flits. -/
def Packet.bytes (p : Packet) : List (Byte × Bool) :=
  (List.range p.data.length).map (fun i => (p.data.getD i 0#8, p.bad.contains (i / 32)))

/-! ## The steps of reductions (R188, R291) -/

/-- Bytes of one member element and of one result element. -/
def redSize (op : Nat) : Nat × Nat := if op = 1 ∨ op = 2 then (2, 2) else if op = 8 then (2, 4) else (4, 4)
/-- A member's bytes as the chain carries them: BF16 widened for operation 8 (R188). -/
def redWiden (op : Nat) (bs : List Byte) : List Byte :=
  if op = 8 then (List.range (bs.length / 2)).flatMap (fun i => [0#8, 0#8] ++ (bs.drop (2 * i)).take 2) else bs
/-- One step u ⊕ v on codes (R188). -/
def redStep (op u v : Nat) : Nat :=
  let add := fun (f : NFmt) => (roundTo f Ctl.rne 0 false (addV false (f.decode u) (f.decode v)).v).1
  let sv := fun x => svalN x 32
  match op with
  | 0 => add .f32
  | 1 => add .bf16
  | 2 => add .f16
  | 3 => (u + v) % 2 ^ 32
  | 4 => (minMax .f32 true false u v).1
  | 5 => (minMax .f32 false false u v).1
  | 6 => if sv u ≤ sv v then u else v
  | 7 => if sv u ≤ sv v then v else u
  | _ => add .f32
/-- A step over the elements of two byte runs of one length. -/
def redCombine (op : Nat) (u v : List Byte) : List Byte :=
  let z := (redSize op).2
  (List.range (u.length / z)).flatMap (fun i =>
    leBytes z (redStep op (leNat ((u.drop (z * i)).take z)) (leNat ((v.drop (z * i)).take z))))
/-- Member bytes of one chunk: 256, or 128 under operation 8, whose results take twice the room (R292; log 14, DEDUCED). -/
def redChunk (op : Nat) : Nat := if op = 8 then 128 else 256

/-! ## Steps of an operation -/

/-- COUNT of E (R185, R188). -/
def Op.cnt (o : Op) : Nat := o.arg 4 % 2 ^ 24
/-- ARR of E. -/
def Op.arr (o : Op) : Bool := bitOf (o.arg 4) 30
/-- CTR of E. -/
def Op.ctr (o : Op) : Nat := bitsOf (o.arg 4) 29 24
/-- Target package of a command; the address group for fldred and fstmc. -/
def Op.target (o : Op) : Nat := o.arg 0 % 256
/-- The command works on an address group. -/
def Op.grouped (o : Op) : Bool := o.opc == 0x2C4 || o.opc == 0x2C5
/-- BLOCKID of the issuing block. -/
def State.opBlockId (s : State) (o : Op) : Nat :=
  match s.block? o.blk with
  | some b => b.blockId
  | none => 0
/-- The local handle: bits 10:0 of C+1, or B for fldred (R185, R188). -/
def State.opLocal (s : State) (o : Op) : HandleEntry :=
  s.opHandle o (o.args.getD (if o.opc = 0x2C4 then 2 else 5) 0#32)

/-- The address check after the other checks: outside the grid, not a member of the MPC, another package in reduced service
(R180, R279, R422, R437). (log 22, DEDUCED) -/
def State.targetBad (s : State) (ctx t : Nat) : Bool :=
  !s.inGrid t || !s.admitted ctx t || (s.mgmt.stage == 2 && t ≠ s.own)

/-- The checks before any byte moves (R180, R185, R186, R188, R279, R288). (log 22, DEDUCED) -/
def checkFabric (s : State) (o : Op) : Nat :=
  let e := s.opLocal o
  let t := o.target
  let self := t == s.own
  let rem := s.remoteEntry o.ctx o.ht (o.arg 1 % 2048)
  let rb := s.landBlock o.ctx (s.opBlockId o)
  -- the remote handle and bound are checked in the target package; here at once when that is this package
  let far := fun (w : Bool) (arr : Bool) (n : Nat) =>
    if !self then 0 else if w && o.harvest && rem.space == 2 then 1 else s.remoteCheck o.ctx rb rem w arr (o.arg 2) n
  match o.opc with
  | 0x2C0 =>
    let st := firstStat [(bitOf (o.arg 4) 31 || o.arg 0 / 256 ≠ 0, 12), (o.arg 1 / 2048 ≠ 0 || !srcOk e, 1),
      (o.arg 2 % 32 ≠ 0 || o.arg 3 % 32 ≠ 0 || o.cnt % 32 ≠ 0, 10), (o.cnt ≠ 0 && decide (s.opBound o e < o.arg 3 + o.cnt), 2),
      (s.targetBad o.ctx t, 7)]
    if st ≠ 0 then st else far true o.arr o.cnt
  | 0x2C1 =>
    let st := firstStat [(bitOf (o.arg 4) 31 || o.arg 0 / 256 ≠ 0, 12),
      (o.arg 1 / 2048 ≠ 0 || !dstOk e || (o.arr && e.space ≠ 2) || (o.harvest && e.space == 2), 1),
      (o.arg 2 % 32 ≠ 0 || o.arg 3 % 32 ≠ 0 || o.cnt % 32 ≠ 0, 10), (o.cnt ≠ 0 && decide (s.opBound o e < o.arg 3 + o.cnt), 2),
      (s.targetBad o.ctx t, 7)]
    if st ≠ 0 then st else far false false o.cnt
  | 0x2C2 =>
    let st := firstStat [(o.arg 0 / 256 ≠ 0 || decide (6 < o.grp 0), 12), (o.arg 1 / 2048 ≠ 0, 1), (o.arg 2 % 4 ≠ 0, 10),
      (s.targetBad o.ctx t, 7)]
    st
  | 0x2C3 => firstStat [(s.targetBad o.ctx t, 7)]
  | 0x2C4 =>
    let op := bitsOf (o.arg 4) 27 24
    let n := if op = 8 then 2 * o.cnt else o.cnt
    firstStat [(bitsOf (o.arg 4) 31 28 ≠ 0 || decide (8 < op) || o.arg 0 / 256 ≠ 0 || decide (65536 < o.cnt), 12),
      (!s.grpFor t o.ctx || !dstOk e || (o.harvest && e.space == 2), 1),
      (o.arg 1 % 32 ≠ 0 || o.arg 3 % 32 ≠ 0 || o.cnt % 32 ≠ 0, 10), (n ≠ 0 && decide (s.opBound o e < o.arg 3 + n), 2),
      ((s.grp t).members.any (fun m => s.targetBad o.ctx m), 7)]
  | _ =>
    firstStat [(bitOf (o.arg 4) 31 || o.arg 0 / 256 ≠ 0, 12), (!s.grpFor t o.ctx || !srcOk e, 1),
      (o.arg 2 % 32 ≠ 0 || o.arg 3 % 32 ≠ 0 || o.cnt % 32 ≠ 0, 10), (o.cnt ≠ 0 && decide (s.opBound o e < o.arg 3 + o.cnt), 2),
      ((s.grp t).members.any (fun m => s.targetBad o.ctx m), 7)]

/-- An earlier command of the crew to this command's targets that must have sent everything first, or an earlier fmark that
must have retired first (R187, R244). -/
def State.fabOrdered (s : State) (o : Op) : Bool :=
  s.ops.all (fun p => !(p.crew == o.crew && p.cls == 3 && decide (p.id < o.id) && !p.done &&
    ((p.grouped && (s.grp p.target).memb.getLsbD o.target) || (o.grouped && (s.grp o.target).memb.getLsbD p.target) ||
      (!p.grouped && !o.grouped && p.target == o.target) || (p.grouped && o.grouped)) &&
    (if o.opc = 0x2C3 then p.phase ≠ 9 else p.opc == 0x2C3)))

/-- A header of the operation's packets. -/
def opHd (s : State) (o : Op) (dst kind off rhnd : Nat) : Hd :=
  let h := { Hd.mk0 s dst kind o.ctx o.tag with off := off, rhnd := rhnd }
  if o.grouped then { h with group := o.target, seq := (s.grp o.target).seq } else h
/-- A packet of the operation. (log 14, DEDUCED) -/
def opPkt (s : State) (o : Op) (h : Hd) (data : List Byte) (bad : List Nat) (len spanOff span : Nat) : Packet :=
  { Packet.mk0 h data with
    bad := bad, blockId := s.opBlockId o, ht := o.ht, len := len, spanOff := spanOff, span := span, harvest := o.harvest }

/-- A request to a package at an OFFSET, sent at a CLOCK value, awaits its response (R295). -/
def Op.noteSent (o : Op) (dst off now : Nat) : Op :=
  { o with left := o.left + 1, sentAt := if o.waits.isEmpty then now else o.sentAt, waits := o.waits ++ [(dst, off, now)] }
/-- The request of an OFFSET has been answered by a package; `any` where another one than the addressee answers (R292). -/
def Op.noteAnswer (o : Op) (src off : Nat) (any : Bool) : Op :=
  let i := (o.waits.findIdx? (fun w => (any || w.1 == src) && w.2.1 == off % 2 ^ 32)).getD 0
  let ws := o.waits.take i ++ o.waits.drop (i + 1)
  { o with left := o.left - 1, waits := ws, sentAt := (ws.map (fun w => w.2.2)).headD o.sentAt }
/-- The response times of an operation's requests start anew: it was held for a key, and proceeds (R189, R434). -/
def Op.restart (o : Op) (now : Nat) : Op := { o with sentAt := now, waits := o.waits.map (fun w => (w.1, w.2.1, now)) }

/-- One request sent; it is awaited. A target that cannot be reached ends the command with a status (R294, R295). -/
def State.request (s : State) (o : Op) (h : Hd) (p : Packet) (lost : Nat) : State :=
  let rel := (h.kind = 0 ∨ h.kind = 3) ∧ s.relh.contains (o.crew, h.dst)
  let h := { h with relh := decide rel }
  let s := if rel then { s with relh := s.relh.filter (fun r => r ≠ (o.crew, h.dst)) } else s
  let s := s.modOp o.id (fun o => o.noteSent h.dst h.off s.clock.toNat)
  match s.sendPkt h p with
  | (s, true) => s
  | (s, false) => s.failFab o lost

/-- Bytes of the next packet of a command at a position. -/
def Op.next (o : Op) : Nat := min 256 (o.cnt - o.pos)
/-- The local bytes of a command's next packet; the sector at its end is read whole, for this packet and the next (R230). -/
def State.readPiece (s : State) (o : Op) : Eng (State × List (Byte × Bool)) :=
  let e := s.opLocal o
  let off := o.arg 3 + o.pos
  let key := [s.own, 65536 + o.id]
  let c := s.readAhead key off
  let stop := readEnd e.base (o.arg 3 + o.cnt) (off + o.next)
  match engRead s o e 3 (off + c.length) (stop - (off + c.length)) with
  | .ok bs => .ok ((s.noteEng o e off).keepAhead key (off + o.next) ((c ++ bs).drop o.next), (c ++ bs).take o.next)
  | .fault f va => .fault f va
  | .status st => .status st
  | .wait => .wait
/-- Bytes of a command's results that arrive for a local offset, written sector by sector (R230). -/
def State.writePiece (s : State) (o : Op) (n off : Nat) (bs : List (Byte × Bool)) : Eng State :=
  let e := s.opLocal o
  let p := sectorPieces [s.own, 65536 + o.id] e.base (o.arg 3) (o.arg 3 + n) off s.frags bs
  p.2.foldl (fun r q => match r with
    | .ok s => engWrite o e 3 s q.1 q.2
    | x => x) (.ok { s with frags := p.1 })
/-- Everything has been sent: phase 9; the command retires when nothing is awaited. -/
def State.allSent (s : State) (o : Op) : State :=
  match s.op? o.id with
  | none => s
  | some o => if o.left = 0 then s.finishOp o.id 0 else s.modOp o.id (fun o => { o with phase := 9 })

/-- One packet of fput: the local bytes, written to the target (R185). -/
def stepFput (s : State) (o : Op) : State :=
  if o.cnt ≤ o.pos then s.allSent o
  else
    match s.readPiece o with
    | .wait => s
    | .status st => s.failFab o st
    | .fault f va => s.pauseOp o 0 1 0x0C f va
    | .ok (s, bs) =>
      let h := { opHd s o o.target 0 (o.arg 2 + o.pos) (o.arg 1) with arr := o.arr, ctr := o.ctr }
      let p := opPkt s o h (bs.map (fun b => b.1)) (badFlits bs) 0 (o.arg 2) o.cnt
      let s := s.modOp o.id (fun o => { o with pos := o.pos + o.next, stat := if o.stat = 0 && bs.any (fun b => b.2) then 4 else o.stat })
      s.request o h p (if o.pos = 0 then 7 else 6)

/-- fget: requests for every 256 bytes; what has arrived is written to the local destination, in order of arrival (R185). A flit that
arrived with poison is written as poison, the others as they are (R179). -/
def stepFget (s : State) (o : Op) : State :=
  match o.stage with
  | (off, bs) :: rest =>
    let bad := fun i => o.probes.contains (off + i / 32 * 32)
    match s.writePiece o o.cnt (o.arg 3 + off) ((List.range bs.length).map (fun i => (bs.getD i 0#8, bad i))) with
    | .wait => s
    | .status st => s.failOp o st
    | .fault f va => s.pauseOp o 0 1 0x0C f va
    | .ok s =>
      let s := if o.arr then s.addArr o.blk o.ctr bs.length else s
      let s := s.modOp o.id (fun o => { o with stage := rest, left := o.left - 1, pos := o.pos })
      if o.left = 1 ∧ o.phase = 9 ∧ rest.isEmpty then s.finishOp o.id 0 else s
  | [] =>
    if o.phase = 9 then s
    else if o.cnt ≤ o.pos then s.allSent o
    else
      let h := opHd s o o.target 1 (o.arg 2 + o.pos) (o.arg 1)
      let p := opPkt s o h [] [] o.next (o.arg 2) o.cnt
      let s := s.modOp o.id (fun o => { o with pos := o.pos + o.next })
      s.request o h p (if o.pos = 0 then 7 else 6)

/-- fatom: one request (R186). -/
def stepFatom (s : State) (o : Op) : State :=
  let h := { opHd s o o.target 3 (o.arg 2) (o.arg 1) with aop := o.grp 0 % 16 }
  let p := opPkt s o h (leBytes 4 (o.arg 3) ++ List.replicate 28 0#8) [] 0 (o.arg 2) 4
  (s.modOp o.id (fun o => { o with phase := 9 })).request o h p 7

/-- fmark: one MARKER copy on every path (R287); a copy that finds no way ends it with LINKDOWN (R295). -/
def stepFmark (s : State) (o : Op) : State :=
  let t := o.target
  let row := [entHop false false (t % 16), entHop true false (t / 16), entDlv]
  let col := [entHop true false (t / 16), entHop false false (t % 16), entDlv]
  let routes := if t / 16 ≠ s.own / 16 ∧ t % 16 ≠ s.own % 16 then [row, col] else [s.routeTo t entDlv 0]
  let s := s.modOp o.id (fun o => { o.noteSent t routes.length s.clock.toNat with phase := 9 })
  routes.foldl (fun s es =>
    let h := { opHd s o t 4 routes.length 0 with ents := es, nent := es.length }
    match s.routeStep 32 (opPkt s o h [] [] 0 0 0) with
    | .sent s => s
    | .landed s => s
    | _ => s.failOp o 6) s

/-- The probe of a group: PROBE to every member (R292, R294). -/
def State.probeAll (s : State) (o : Op) : State :=
  let g := s.grp o.target
  let off := if o.opc = 0x2C4 then o.arg 1 else o.arg 2
  let s := s.modOp o.id (fun o => { o with phase := 1, probes := g.members, sentAt := s.clock.toNat })
  g.members.foldl (fun s m =>
    let h := { opHd s o m 6 off g.rhnd with rop := if o.opc = 0x2C4 then bitsOf (o.arg 4) 27 24 else 15, arr := o.opc == 0x2C5 && o.arr }
    match s.sendPkt h (opPkt s o h [] [] o.cnt off o.cnt) with
    | (s, true) => s
    | (s, false) => s.modOp o.id (fun o => { o with probes := o.probes.filter (fun x => x ≠ m), stat := 7 })) s

/-- One packet of fstmc, sent to every member (R185, R294). -/
def stepFstmc (s : State) (o : Op) : State :=
  if o.cnt ≤ o.pos then s.allSent o
  else
    match s.readPiece o with
    | .wait => s
    | .status st => s.failFab o st
    | .fault f va => s.pauseOp o 0 1 0x0C f va
    | .ok (s, bs) =>
      let g := s.grp o.target
      let s := s.modOp o.id (fun o => { o with pos := o.pos + o.next, stat := if o.stat = 0 && bs.any (fun b => b.2) then 4 else o.stat })
      g.members.foldl (fun s m =>
        let h := { opHd s o m 0 (o.arg 2 + o.pos) g.rhnd with arr := o.arr, ctr := o.ctr }
        s.request o h (opPkt s o h (bs.map (fun b => b.1)) (badFlits bs) 0 (o.arg 2) o.cnt) 6) s

/-- Bytes of staging that an fldred needs (R292). -/
def Op.staged (o : Op) : Nat := if bitsOf (o.arg 4) 27 24 = 8 then 2 * o.cnt else o.cnt
/-- The staging buffer of the operation's die has room for it (R292). -/
def State.stagingFree (s : State) (o : Op) : Bool :=
  decide ((s.ops.foldl (fun n p => if p.cls = 3 ∧ p.opc = 0x2C4 ∧ 2 ≤ p.phase ∧ !p.done ∧ dieOfCore p.core = dieOfCore o.core
    then n + p.staged else n) 0) + o.staged ≤ 262144)

/-- One chunk of fldred started at the member of rank 0, or the commit of one page of results (R292). -/
def stepFldred (s : State) (o : Op) : State :=
  let g := s.grp o.target
  let op := bitsOf (o.arg 4) 27 24
  let z := redChunk op
  if o.phase = 2 then
    if o.cnt ≤ o.pos then (if o.left = 0 then s.modOp o.id (fun o => { o with phase := 3, pos := 0 }) else s)
    else
      let n := min z (o.cnt - o.pos)
      let h := { opHd s o (g.ranks.headD 0) 8 (o.arg 1 + o.pos) g.rhnd with rop := op }
      let s := s.modOp o.id (fun o => { o.noteSent (g.ranks.headD 0) h.off s.clock.toNat with pos := o.pos + n })
      match s.sendVia h (opPkt s o h [] [] n (o.arg 1) o.cnt) entRed with
      | (s, true) => s
      | (s, false) => s.startAbort o.target g.seq
  else
    match o.stage with
    | [] => s.finishOp o.id 0
    | (off, bs) :: rest =>
      match s.writePiece o o.staged (o.arg 3 + off) (bs.map (fun b => (b, o.metaw.contains (BitVec.ofNat 32 off)))) with
      | .wait => s
      | .status st => s.failOp o st
      | .fault f va => s.pauseOp o 0 1 0x0C f va
      | .ok s => s.modOp o.id (fun o => { o with stage := rest })

/-- One step of a fabric operation that is not paused (R185 to R189). -/
def State.stepFabric (s : State) (o : Op) : State :=
  if o.done || !o.pause.isEmpty then s
  else if !o.checked then
    if s.handlesWait o then s else
    let s := s.noteBadHandles o
    let st := checkFabric s o
    if st ≠ 0 then s.finishOp o.id st else (s.noteHandles o).modOp o.id (fun o => { o with checked := true })
  else if o.phase = 9 ∧ o.opc ≠ 0x2C1 then s
  else if o.phase = 0 ∧ !s.fabOrdered o then s
  else
    match o.opc with
    | 0x2C0 => stepFput s o
    | 0x2C1 => stepFget s o
    | 0x2C2 => stepFatom s o
    | 0x2C3 => stepFmark s o
    | 0x2C4 =>
      if o.phase = 0 then s.probeAll o
      else if o.phase = 1 then
        if !o.probes.isEmpty then s
        else if o.stat ≠ 0 then s.finishOp o.id o.stat
        else if s.stagingFree o then s.modOp o.id (fun o => { o with phase := 2 }) else s
      else stepFldred s o
    | _ =>
      if o.phase = 0 then s.probeAll o
      else if o.phase = 1 then
        if !o.probes.isEmpty then s
        else if o.stat ≠ 0 then s.finishOp o.id o.stat
        else s.modOp o.id (fun o => { o with phase := 2 })
      else stepFstmc s o

/-- A command awaits an answer: a probe's, or that to a request (R292, R295); bytes that have come and wait to be written are none. -/
def Op.awaits (o : Op) : Bool := if o.phase = 1 then !o.probes.isEmpty else !o.waits.isEmpty
/-- The response timeout of a command (R292, R294, R295). -/
def State.fabTimeout (s : State) (id : Nat) : State :=
  match s.op? id with
  | none => s
  | some o =>
    if o.cls ≠ 3 ∨ o.done ∨ !o.awaits ∨ s.clock.toNat < o.sentAt + s.fabto.toNat ∨ (s.heldPort o).isSome then s
    else if o.phase = 1 then (s.modOp id (fun o => { o with stat := 7 })).finishOp id 7
    else s.failFab o 6

/-! ## The instructions (R185 to R188) -/

/-- A fabric command of format X. (log 19, DEDUCED) -/
def runFabric (f : FormX) (opc : Nat) (srcs : List Opnd) (bad : Bool) (args : Ctx → State → List Word) (s : State) : Out :=
  issue { specX f srcs [] .none with ends := true } (fun _ => f.rsv ≠ 0#6 || bad)
    (fun x s =>
      if x.act = 0#64 then .ok { s := s, wr := [], ctl := false }
      else if !canPost s x.c 3 then .error .hold
      else .ok { s := s.postOp (newOp x s 3 opc (args x s)), wr := [], ctl := false, late := lateArgs args x s }) s

/-- fput (R185): C is an even pair. -/
def execFput (f : FormX) (s : State) : Out :=
  runFabric f 0x2C0 [one f.d, one f.a, one f.b, grp f.c 2, one f.e] false
    (fun x s => [x.v0 s f.d, x.v0 s f.a, x.v0 s f.b, rowAt (x.plain s f.c.toNat) x.l0, x.v0 s f.e] ++ (x.g0 s f.c 2).drop 1) s
/-- fget (R185): C is an even pair. -/
def execFget (f : FormX) (s : State) : Out :=
  runFabric f 0x2C1 [one f.d, one f.a, one f.b, grp f.c 2, one f.e] false
    (fun x s => [x.v0 s f.d, x.v0 s f.a, x.v0 s f.b, rowAt (x.plain s f.c.toNat) x.l0, x.v0 s f.e] ++ (x.g0 s f.c 2).drop 1) s
/-- fatom (R186): C is an even pair; E is reserved. -/
def execFatom (f : FormX) (s : State) : Out :=
  runFabric f 0x2C2 [one f.d, one f.a, one f.b, grp f.c 2] (f.e ≠ 0#8)
    (fun x s => [x.v0 s f.d, x.v0 s f.a, x.v0 s f.b, rowAt (x.plain s f.c.toNat) x.l0, 0#32] ++ (x.g0 s f.c 2).drop 1) s
/-- fldred (R188). -/
def execFldred (f : FormX) (s : State) : Out :=
  runFabric f 0x2C4 [one f.d, one f.a, one f.b, one f.c, one f.e] false
    (fun x s => [x.v0 s f.d, x.v0 s f.a, x.v0 s f.b, x.v0 s f.c, x.v0 s f.e, 0#32]) s
/-- fstmc (R185): C is an even pair; A is reserved, read as a field that must be zero (log 42, DESIGN CHOICE). -/
def execFstmc (f : FormX) (s : State) : Out :=
  runFabric f 0x2C5 [one f.d, one f.b, grp f.c 2, one f.e] (f.a ≠ 0#8)
    (fun x s => [x.v0 s f.d, 0#32, x.v0 s f.b, rowAt (x.plain s f.c.toNat) x.l0, x.v0 s f.e] ++ (x.g0 s f.c 2).drop 1) s

/-- fmark (R187): the target in bits 7:0 of the body. -/
def execFmark (f : FormS) (s : State) : Out :=
  issue { specS f [] [] .none with ga := f.ga, ends := true } (fun _ => f.body.toNat / 256 ≠ 0)
    (fun x s =>
      if x.act = 0#64 then .ok { s := s, wr := [], ctl := false }
      else if !canPost s x.c 3 then .error .hold
      else .ok { s := s.postOp (newOp x s 3 0x2C3 [BitVec.ofNat 32 (f.body.toNat % 256), 0#32, 0#32, 0#32, 0#32, 0#32]), wr := [],
                 ctl := false }) s

end Sys2Proof.Machine
end

