-- ==== Sys2Proof/Machine/Matrix.lean ====
section
/-!
DEFINITION. Matrix.lean: tile records, tile tasks and their slices, accumulator allocation, accld and bucket
(spec 09 R190 to R209; 12 R266, R267; 04 R97 to R100).
-/

namespace Sys2Proof.Machine

open Sys2Proof

/-! ## Tile records (R191, R192) -/

/-- Word w of a record as a number. -/
def trw (r : List Word) (w : Nat) : Nat := (r.getD w 0#32).toNat
/-- M of a record. -/
def trM (r : List Word) : Nat := bitsOf (trw r 0) 6 0 + 1
/-- N of a record. -/
def trN (r : List Word) : Nat := 16 * (bitsOf (trw r 0) 13 8 + 1)
/-- KB of a record. -/
def trKB (r : List Word) : Nat := 64 * 2 ^ bitsOf (trw r 0) 15 14
/-- SPARSE of a record. -/
def trSparse (r : List Word) : Bool := bitOf (trw r 0) 16
/-- SFA and SFB: the scale format is UE5M3 (R191). -/
def trSf (r : List Word) (b : Bool) : Bool := bitOf (trw r 0) (if b then 18 else 17)
/-- PART of a record. -/
def trPart (r : List Word) : Bool := bitOf (trw r 0) 19
/-- AHND and BHND. -/
def trHnd (r : List Word) (b : Bool) : Nat := if b then bitsOf (trw r 1) 26 16 else bitsOf (trw r 1) 10 0
/-- ACCB and PARTB. -/
def trBase (r : List Word) (part : Bool) : Nat := bitsOf (trw r (if part then 5 else 4)) 17 0
/-- SOA and SOB. -/
def trSo (r : List Word) (b : Bool) : Nat := if b then bitsOf (trw r 6) 30 16 else bitsOf (trw r 6) 14 0
/-- NL (R192). -/
def trNL (r : List Word) : Nat := min (trN r) 256
/-- g, the slices of the tile (R192). -/
def trSlices (r : List Word) : Nat := (trN r + 255) / 256
/-- Columns of slice c (R192). -/
def trNLc (r : List Word) (c : Nat) : Nat := min 256 (trN r - 256 * c)
/-- Every word of the record is zero. -/
def trZero (r : List Word) : Bool := (List.range 8).all (fun i => trw r i == 0)
/-- Subcode 2 of R192: reserved fields, KBC, alignment of the bases, regions past byte 262143. -/
def trBad (r : List Word) : Bool :=
  let span := (trM r * trNL r * 4 + 4095) / 4096 * 4096
  trw r 0 / 2 ^ 20 ≠ 0 || bitOf (trw r 0) 7 || bitsOf (trw r 0) 15 14 == 3 || trw r 1 / 2 ^ 27 ≠ 0 || bitsOf (trw r 1) 15 11 ≠ 0 ||
    trw r 4 / 2 ^ 18 ≠ 0 || trw r 5 / 2 ^ 18 ≠ 0 || bitOf (trw r 6) 31 || bitOf (trw r 6) 15 || trw r 7 ≠ 0 ||
    trBase r false % 4096 ≠ 0 || trBase r true % 4096 ≠ 0 || decide (262144 < trBase r false + span) ||
    decide (262144 < trBase r true + span)

/-- ACCUM with a subcode (R192, R381). -/
def accumCause (sub : Nat) (mask : Mask) : Cause :=
  { crewCause 0x13 sub 0 mask mask false with atIssue := true }

/-! ## Tasks and their regions (R192, R194) -/

/-- What a task does. -/
inductive TKind where
  | mma
  | msacc
  | mzero
  | accst
deriving DecidableEq, Repr

/-- The kind of an opcode. -/
def tkindOf (opc : Nat) : TKind :=
  if opc = 0x320 then .msacc else if opc = 0x321 then .mzero else if opc = 0x325 then .accst else .mma
/-- Rows of a task, its argument 4 (R193). -/
def Op.mv (o : Op) : Nat := o.arg 4
/-- SUB of a task, its argument 5. -/
def Op.sub (o : Op) : Nat := o.arg 5
/-- The form accumulates integers (R197). -/
def isIntForm (opc : Nat) : Bool := opc == 0x30F || opc == 0x310 || opc == 0x31D
/-- Which regions a task reads and writes: true is the PARTB region (R197 to R201). -/
def taskRegions (opc : Nat) (r : List Word) (sub ctl : Nat) : List Bool × List Bool :=
  match tkindOf opc with
  | .mma => if !isIntForm opc && trPart r then ([], [true]) else ([false], [false])
  | .msacc => ([true, false], [false])
  | .mzero => ([], [bitOf sub 1])
  | .accst => ([bitOf ctl 4], [])
/-- First byte and end of a slice's region over the rows that a task covers. -/
def sliceSpan (r : List Word) (part : Bool) (mv c : Nat) : Nat × Nat :=
  (trBase r part, trBase r part + (if mv = 0 then 0 else ((mv - 1) * trNL r + trNLc r c) * 4))
/-- The units of a byte span. -/
def unitsOf (p : Nat × Nat) : List Nat := if p.2 ≤ p.1 then [] else (List.range 64).filter (fun u => decide (p.1 < 4096 * (u + 1)) && decide (4096 * u < p.2))
/-- The units of slice c that a task reads or writes. -/
def taskUnits (opc : Nat) (r : List Word) (mv sub ctl c : Nat) : List Nat :=
  let rw := taskRegions opc r sub ctl
  (rw.1 ++ rw.2).flatMap (fun p => unitsOf (sliceSpan r p mv c))
/-- The block of rank c of a block's cluster group (R192). -/
def State.rankBlock (s : State) (blk c : Nat) : Option Block :=
  match s.block? blk with
  | none => none
  | some b => s.blocks.find? (fun q => q.launch == b.launch && q.group == b.group && q.rank == c)
/-- The block on whose core slice c of a task runs: of a tile of more than one slice, rank c of the group; of one slice, the issuing
block, as R192 places by rank only the slices of a ganged task (R192; log 41, DEDUCED). -/
def State.sliceBlock (s : State) (o : Op) (c : Nat) : Option Block :=
  if trSlices o.trec ≤ 1 then s.block? o.blk else s.rankBlock o.blk c
/-- A block holds a unit for the checks of R192: held and not released, or released by an accf that came after the task (R205). -/
def State.holdsUnit (s : State) (b : Block) (task : Option Nat) (u : Nat) : Bool :=
  match s.accfs.find? (fun a => a.blk == b.id && a.unit == u) with
  | some a => task.any (fun t => a.tasks.contains t)
  | none => b.units.getLsbD u || b.spilled.getLsbD u

/-! ## Number forms (R77, R83, R97 to R99) -/

/-- Formats of A and B; the integer forms read INT8, and T5 is told by the opcode (R197, R198). -/
def mmaFmts (opc : Nat) : NFmt × NFmt :=
  match opc with
  | 0x308 | 0x318 => (.e4m3, .e4m3)
  | 0x309 | 0x319 => (.e5m2, .e5m2)
  | 0x30A => (.e4m3, .e5m2)
  | 0x30B => (.e5m2, .e4m3)
  | 0x30C | 0x31A => (.e2m1, .e2m1)
  | 0x30D | 0x31B => (.bf16, .bf16)
  | 0x30E | 0x31C => (.f16, .f16)
  | _ => (.i8, .i8)
/-- mmas. -/
def isSparse (opc : Nat) : Bool := decide (0x318 ≤ opc) && decide (opc ≤ 0x31D)
/-- K of a slab (R190). -/
def slabK (opc kb : Nat) : Nat := kb * 8 / (mmaFmts opc).2.width
/-- Bytes of an A row (R197, R198). -/
def rowBytes (opc kb : Nat) : Nat := if opc = 0x310 then (kb + 4) / 5 else if isSparse opc then kb / 2 else kb
/-- The trits of a T5 byte as signed numbers; a byte above 242 gives zeros (R83). -/
def trits (b : Nat) : List Int :=
  if 242 < b then [0, 0, 0, 0, 0] else (List.range 5).map (fun i => ((b / 3 ^ i % 3 : Nat) : Int) - 1)
/-- The codes of a row of bytes in a format. -/
def rowCodes (f : NFmt) (bs : List Byte) : List Nat := elemsOf f.width (8 * bs.length) (leNat bs)
/-- The exact sum of products; a zero sum is +0 (R97; log 17, DEDUCED). -/
def dotFloat (fa fb : NFmt) (a b : List Nat) : Val :=
  (a.zip b).foldl (fun v p => (addV false v (mulV (fa.decode p.1) (fb.decode p.2)).v).v) (.zero false)
/-- The integer sum of products (R98). -/
def dotInt (a b : List Int) : Int := (a.zip b).foldl (fun v p => v + p.1 * p.2) 0

/-- OVF bits of a floating word written (R208). -/
def ovfOf (f : NFmt) (code : Nat) : Nat :=
  match f.decode code with
  | .nan _ => 1
  | .inf _ => 2
  | _ => 0
/-- The canonical NaN. -/
def nan32 : Nat := 0x7FC00000

/-- The B positions that a sparse row's compressed elements name: index words of the row (R198). -/
def sparseCols (md : List Word) (r : List Word) (opc sub i : Nat) : List Nat :=
  let k := slabK opc (trKB r)
  let kp := bitsOf sub 4 3
  (List.range (k / 2)).map (fun c =>
    let q := c / 2
    let n := (kp * trM r + i) * (k / 32) + 4 * q / 32
    let w := (md.getD n 0#32).toNat
    4 * q + w / 2 ^ (4 * (q % 8) + 2 * (c % 2)) % 4)

/-! ## Slices -/

/-- Word (i, j) of a slice's region on a core: its byte address in the accumulator memory. -/
def accAddr (r : List Word) (part : Bool) (i j : Nat) : Nat := trBase r part + 4 * (i * trNL r + j)
/-- A word of a core's accumulator memory. -/
def State.accWord (s : State) (core off : Nat) : Nat := leNat (s.amem.read (coreKey core off) 4)
/-- A run of words written to a core's accumulator memory. -/
def State.accPut (s : State) (core off : Nat) (ws : List Nat) : State :=
  { s with amem := s.amem.write (coreKey core off) (ws.flatMap (leBytes 4)) }

/-- The columns of B that a slice reads: their bytes and poison, or how a read ends. -/
def readCols (s : State) (o : Op) (e : HandleEntry) (c : Nat) : Nat → Eng (List (List (Byte × Bool)))
  | 0 => .ok []
  | n + 1 =>
    let j := trNLc o.trec c - (n + 1)
    match engRead s o e 2 (o.arg 1 + (256 * c + j) * trw o.trec 3) (trKB o.trec) with
    | .ok b =>
      match readCols s o e c n with
      | .ok r => .ok (b :: r)
      | x => x
    | .fault f va => .fault f va
    | .status st => .status st
    | .wait => .wait

/-- Row i of slice c is done: its progress, the OVF bits and the status it adds. -/
def rowDone (s : State) (o : Op) (c ovf stat : Nat) : State :=
  s.modOp o.id (fun o => { o with prog := o.prog.set c (o.prog.getD c 0 + 1), ovf := o.ovf ||| ovf,
                                   sliceStat := o.sliceStat.set c (if o.sliceStat.getD c 0 = 0 then stat else o.sliceStat.getD c 0) })
/-- A slice ends with a status (R202). -/
def sliceEnd (s : State) (o : Op) (c stat : Nat) : State :=
  s.modOp o.id (fun o => { o with prog := o.prog.set c o.mv, sliceStat := o.sliceStat.set c stat,
                                   pause := o.pause.filter (fun p => p.1 ≠ c) })

/-- A row of mma or mmas (R197, R198, R202). -/
def mmaRow (s : State) (o : Op) (core c i : Nat) : State :=
  let r := o.trec
  let ae := s.opHandle o (BitVec.ofNat 32 (trHnd r false))
  let be := s.opHandle o (BitVec.ofNat 32 (trHnd r true))
  match engRead s o ae 2 (o.arg 0 + i * trw r 2) (rowBytes o.opc (trKB r)) with
  | .wait => s
  | .status st => sliceEnd s o c st
  | .fault f va => s.pauseOp o c 2 0x0C f va
  | .ok a =>
    match readCols s o be c (trNLc r c) with
    | .wait => s
    | .status st => sliceEnd s o c st
    | .fault f va => s.pauseOp o c 2 0x0C f va
    | .ok cols =>
      let part := !isIntForm o.opc && trPart r
      let at0 := accAddr r part i 0
      if a.any (fun b => b.2) || cols.any (fun b => b.any (fun x => x.2)) then
        rowDone (s.accPut core at0 (List.replicate (trNLc r c) nan32)) o c 1 4
      else
        let ab := a.map (fun b => b.1)
        let fm := mmaFmts o.opc
        let sel := if isSparse o.opc then some (sparseCols o.metaw r o.opc o.sub i) else none
        let pickB := fun (l : List Nat) => match sel with
          | some ps => ps.map (fun p => l.getD p 0)
          | none => l
        let old := fun j => s.accWord core (at0 + 4 * j)
        let ws := if isIntForm o.opc then
            let av := if o.opc = 0x310 then (ab.flatMap (fun b => trits b.toNat)).take (trKB r)
                      else (rowCodes .i8 ab).map (fun x => svalN x 8)
            (List.range (trNLc r c)).map (fun j =>
              let bv := (pickB (rowCodes .i8 ((cols.getD j []).map (fun x => x.1)))).map (fun x => svalN x 8)
              (((old j : Int) + dotInt av bv) % 2 ^ 32).toNat)
          else
            let av := rowCodes fm.1 ab
            (List.range (trNLc r c)).map (fun j =>
              let v := dotFloat fm.1 fm.2 av (pickB (rowCodes fm.2 ((cols.getD j []).map (fun x => x.1))))
              let v := if part then v else (addV false (NFmt.f32.decode (old j)) v).v
              (roundTo .f32 Ctl.rne 0 false v).1)
        let ovf := if isIntForm o.opc then (if o.opc = 0x310 && ab.any (fun b => decide (242 < b.toNat)) then 16 else 0)
                   else ws.foldl (fun u w => u ||| ovfOf .f32 w) 0
        rowDone (s.accPut core at0 ws) o c ovf 0

/-- A row of msacc (R199). -/
def msaccRow (s : State) (o : Op) (core c i : Nat) : State :=
  let r := o.trec
  let scale := fun (b : Bool) k => scaleVal (trSf r b) (s.smem.get (coreKey core (trSo r b + k))).toNat
  let sa := scale false (o.arg 0 + i)
  let ws := (List.range (trNLc r c)).map (fun j =>
    let p := NFmt.f32.decode (s.accWord core (accAddr r true i j))
    let x := (mulV (mulV p sa).v (scale true (o.arg 1 + j))).v
    (roundTo .f32 Ctl.rne 0 false (addV false (NFmt.f32.decode (s.accWord core (accAddr r false i j))) x).v).1)
  rowDone (s.accPut core (accAddr r false i 0) ws) o c (ws.foldl (fun u w => u ||| ovfOf .f32 w) 0) 0

/-- A row of mzero (R200). -/
def mzeroRow (s : State) (o : Op) (core c i : Nat) : State :=
  rowDone (s.accPut core (accAddr o.trec (bitOf o.sub 1) i 0) (List.replicate (trNLc o.trec c) 0)) o c 0 0

/-- Output format of accst (R201). -/
def accFmt (ctl : Nat) : NFmt := match ctl % 4 with
  | 2 => .bf16
  | 3 => .f16
  | _ => .f32
/-- Bytes of an element that accst stores. -/
def accElem (ctl : Nat) : Nat := if ctl % 4 ≤ 1 then 4 else 2
/-- A value times 2^k. -/
def scaleBy (k : Int) : Val → Val
  | .fin n m e st => .fin n m (e + k) st
  | v => v

/-- Row i + 1 of accst shares an aligned 32-byte sector with row i in a slice's columns (R230). (log 22, DEDUCED) -/
def accstJoined (s : State) (o : Op) (c i : Nat) : Bool :=
  let e := accElem (o.arg 2)
  let at0 := (s.opHandle o (o.args.getD 0 0#32)).base + o.arg 1 + 256 * c * e
  (at0 + (i + 1) * o.arg 3) / 32 ≤ (at0 + i * o.arg 3 + trNLc o.trec c * e - 1) / 32
/-- A row of accst: its stores are engine writes of the issuing crew's handle (R201, R202). A raw word sets no OVF bit, whatever its bits
read as (log 42, DESIGN CHOICE). -/
def accstRow (s : State) (o : Op) (core c i : Nat) : State :=
  let r := o.trec
  let ctl := o.arg 2
  let e := accElem ctl
  let shift := if bitOf ctl 2 then -(svalN o.lscale.toNat 8) else 0
  let res := (List.range (trNLc r c)).map (fun j =>
    let x := s.accWord core (accAddr r (bitOf ctl 4) i j)
    if ctl % 4 = 0 then (x, 0)
    else
      let q := roundTo (accFmt ctl) { Ctl.rne with sat := bitOf ctl 3 } 0 false (scaleBy shift (NFmt.f32.decode x))
      (q.1, (if q.2 &&& flOF ≠ 0 then 4 else 0) ||| (if q.2 &&& flSAT ≠ 0 then 8 else 0) ||| ovfOf (accFmt ctl) q.1))
  let bs := res.flatMap (fun p => (leBytes e p.1).map (fun b => (b, false)))
  let he := s.opHandle o (o.args.getD 0 0#32)
  match engWrite o he 2 s (o.arg 1 + i * o.arg 3 + 256 * c * e) bs with
  | .wait => s
  | .status st => sliceEnd s o c st
  | .fault f va => s.pauseOp o c 2 0x0C f va
  | .ok s => rowDone s o c (res.foldl (fun u p => u ||| p.2) 0) 0
/-- The next row of accst and those after it that share a sector with it, in one step (R230). -/
def accstRun (core c : Nat) : Nat → State → Nat → Nat → State
  | 0, s, _, _ => s
  | n + 1, s, id, i =>
    match s.op? id with
    | none => s
    | some o =>
      -- a row that has failed or paused ends the step
      if o.prog.getD c 0 ≠ i ∨ o.mv ≤ i ∨ o.pause.any (fun p => p.1 == c) then s
      else
        let s' := accstRow s o core c i
        if accstJoined s o c i then accstRun core c n s' id (i + 1) else s'

/-! ## The marshal (R266) -/

/-- Tasks of a cluster in posting order; those of a stopped context and of a block that is not resident are in its image (R367). -/
def State.clusterTasks (s : State) (cluster : Nat) : List Op :=
  s.ops.filter (fun o => o.cls == 2 && !o.done && clusterOfCore o.core == cluster && s.opHere o && !(s.ctxSt o.ctx).stopped)
/-- A task is among the 64 entries of its cluster's marshal; later ones are in the spill area. -/
def State.inMarshal (s : State) (o : Op) : Bool := ((s.clusterTasks (clusterOfCore o.core)).take 64).any (fun p => p.id == o.id)
/-- A task instruction finds its context's spill area full, or for mmas every metadata block (R266, R378). -/
def State.spillFull (s : State) (c : Crew) (sparse : Bool) : Bool :=
  let ts := (List.range 40).flatMap (fun k => (s.clusterTasks k).drop 64)
  decide (1024 ≤ (ts.filter (fun o => o.ctx == c.ctx)).length) ||
    (sparse && decide (32 ≤ (s.ops.filter (fun o => o.cls == 2 && isSparse o.opc && !o.done && o.ctx == c.ctx)).length))

/-- The status of the marshal's checks (R180, R192, R193, R199, R201). -/
def taskStatus (s : State) (o : Op) : Nat :=
  let r := o.trec
  if o.mv = 0 then 0
  else
    let rows := fun (e : HandleEntry) base stride len n => n ≠ 0 && decide (s.opBound o e < base + (n - 1) * stride + len)
    let members := (List.range (trSlices r)).map (fun c => (c, s.sliceBlock o c))
    let units := members.any (fun p => match p.2 with
      | none => true
      | some b => (taskUnits o.opc r o.mv o.sub (o.arg 2) p.1).any (fun u => !s.holdsUnit b (some o.id) u))
    match tkindOf o.opc with
    | .mma =>
      let ae := s.opHandle o (BitVec.ofNat 32 (trHnd r false))
      let be := s.opHandle o (BitVec.ofNat 32 (trHnd r true))
      firstStat [(!srcOk ae || !srcOk be, 1),
        (units || rows ae (o.arg 0) (trw r 2) (rowBytes o.opc (trKB r)) o.mv || rows be (o.arg 1) (trw r 3) (trKB r) (trN r), 2)]
    | .msacc =>
      firstStat [(units, 2), (decide (32768 < trSo r false + o.arg 0 + o.mv) ||
        (List.range (trSlices r)).any (fun c => decide (32768 < trSo r true + o.arg 1 + trNLc r c)), 11)]
    | .mzero => firstStat [(units, 2)]
    | .accst =>
      let ctl := o.arg 2
      let e := s.opHandle o (o.args.getD 0 0#32)
      firstStat [(ctl / 32 ≠ 0 || (bitOf ctl 2 && ctl % 4 == 0), 12), (!dstOk e, 1),
        (units || rows e (o.arg 1) (o.arg 3) (trN r * accElem ctl) o.mv, 2)]

/-- Two byte spans meet. -/
def spansMeet (p q : Nat × Nat) : Bool := decide (p.1 < q.2) && decide (q.1 < p.2)
/-- The byte spans that slice c of a task reads, and those it writes. -/
def Op.spans (o : Op) (c : Nat) : List (Nat × Nat) × List (Nat × Nat) :=
  let rw := taskRegions o.opc o.trec o.sub (o.arg 2)
  (rw.1.map (fun x => sliceSpan o.trec x o.mv c), rw.2.map (fun x => sliceSpan o.trec x o.mv c))
/-- Two tasks conflict: slices of both run on one block's core, and one writes bytes that the other reads or writes (R194). -/
def State.conflict (s : State) (p q : Op) : Bool :=
  (List.range (trSlices p.trec)).any (fun c => (List.range (trSlices q.trec)).any (fun d =>
    match s.sliceBlock p c, s.sliceBlock q d with
    | some a, some b =>
      let x := p.spans c
      let y := q.spans d
      a.core == b.core && a.launch == b.launch && a.group == b.group &&
        (x.2.any (fun w => (y.1 ++ y.2).any (spansMeet w)) || y.2.any (fun w => x.1.any (spansMeet w)))
    | _, _ => false))

/-- A slice is complete. -/
def Op.sliceOver (o : Op) (c : Nat) : Bool := decide (o.mv ≤ o.prog.getD c 0)
/-- A slice is READY: the task has passed its checks, no earlier conflicting task is left, every unit is resident, its block is
resident, no fault pauses it, and the package is in FULL service (R266, R422). -/
def State.sliceReady (s : State) (o : Op) (c : Nat) : Bool :=
  o.checked && !o.done && !o.started.getD c false && !o.sliceOver c && !o.pause.any (fun p => p.1 == c) && s.mgmt.stage == 3 && s.inMarshal o &&
    !(s.ops.any (fun p => p.cls == 2 && !p.done && decide (p.id < o.id) && s.conflict p o)) &&
    (s.sliceBlock o c).any (fun b => b.place == 0 || b.place == 3) && !(s.ctxSt o.ctx).stopped &&
    (List.range (trSlices o.trec)).all (fun k => (s.sliceBlock o k).all (fun b =>
      (taskUnits o.opc o.trec o.mv o.sub (o.arg 2) k).all (fun u => !b.spilled.getLsbD u)))
/-- The engine of a core runs a slice: one that has started, and neither ended nor paused (R266). -/
def State.engineBusy (s : State) (core : Nat) : Bool :=
  s.ops.any (fun o => o.cls == 2 && !o.done && (List.range (trSlices o.trec)).any (fun c =>
    o.started.getD c false && !o.sliceOver c && (s.sliceBlock o c).any (fun b => b.core == core)))

/-- The marshal takes a task: its checks; a status ends it with nothing written (R193, R266). In REDUCED it stays QUEUED (R422). -/
def State.admitTask (s : State) (o : Op) : State :=
  if o.checked || o.done || !s.inMarshal o || s.mgmt.stage == 2 then s
  else
    let st := taskStatus s o
    if st ≠ 0 || o.mv = 0 then s.finishOp o.id st else s.modOp o.id (fun o => { o with checked := true })

/-- A free engine starts the earliest posted READY slice (R266); LSCALE is read as the task starts (R207). -/
def State.startSlice (s : State) (core : Nat) : State :=
  if s.engineBusy core then s
  else
    match s.ops.findSome? (fun o => if o.cls ≠ 2 then none else
        ((List.range (trSlices o.trec)).find? (fun c => s.sliceReady o c && (s.sliceBlock o c).any (fun b => b.core == core))).map
          (fun c => (o, c))) with
    | none => s
    | some (o, c) =>
      let ls := match s.block? o.blk with
        | some b => b.lscale
        | none => 0#32
      -- phase 1 marks a task that has started once, whatever has stopped its slices since
      s.modOp o.id (fun o => { o with lscale := if o.phase = 0 then ls else o.lscale, phase := 1, started := o.started.set c true })

/-- The handles of a task (R192, R201). -/
def Op.taskHandles (o : Op) : List Word :=
  match tkindOf o.opc with
  | .mma => [BitVec.ofNat 32 (trHnd o.trec false), BitVec.ofNat 32 (trHnd o.trec true)]
  | .accst => [o.args.getD 0 0#32]
  | _ => []
/-- A task of an owner block whose block memory lies in lent memory demands it when it acts there (R269). -/
def State.touchTask (s : State) (o : Op) : State :=
  if o.taskHandles.any (fun v => (s.opHandle o v).space == 2) then
    s.touchLent o.core o.blk (s.opPart o).1 ((s.opPart o).1 + (s.opPart o).2)
  else s

/-- The next row of a running slice. -/
def State.stepSlice (s : State) (o : Op) (c : Nat) : State :=
  if o.done || !o.started.getD c false || o.sliceOver c || o.pause.any (fun p => p.1 == c) then s
  else
    match s.sliceBlock o c with
    | none => s
    | some b =>
      let s := s.touchTask o
      let i := o.prog.getD c 0
      match tkindOf o.opc with
      | .mma => mmaRow s o b.core c i
      | .msacc => msaccRow s o b.core c i
      | .mzero => mzeroRow s o b.core c i
      | .accst => accstRun b.core c o.mv s o.id i

/-- After FULL or LINKDOWN the whole target of a task is undefined: the bytes of accst, the rows of a region of accumulators (R180).
After XLATE it is as R202 says. (log 7, DESIGN CHOICE) -/
def State.scrubTask (s : State) (o : Op) : State :=
  let r := o.trec
  if tkindOf o.opc = .accst then
    let he := s.opHandle o (o.args.getD 0 0#32)
    (List.range o.mv).foldl (fun s i => scrubSpan o he 3 s (o.arg 1 + i * o.arg 3) (trN r * accElem (o.arg 2))) s
  else
    (List.range (trSlices r)).foldl (fun s c => match s.sliceBlock o c with
      | none => s
      | some b => (taskRegions o.opc r o.sub (o.arg 2)).2.foldl (fun s part => (List.range o.mv).foldl (fun s i =>
          s.accPut b.core (accAddr r part i 0) ((List.range (trNLc r c)).map (fun j => Config.free s.free [14, o.id, c, i, j] % 2 ^ 32))) s) s) s

/-- A task whose slices have all finished retires, its OVF bits with it (R193, R208, R266); of several slices that failed the
lowest-numbered one gives the status, which R202 leaves open (log 40, DESIGN CHOICE). -/
def State.retireTask (s : State) (o : Op) : State :=
  if o.done || !o.checked || !(List.range (trSlices o.trec)).all (fun c => o.sliceOver c) then s
  else
    let st := (o.sliceStat.find? (fun x => x ≠ 0)).getD 0
    let s := if st = 5 ∨ st = 6 then s.scrubTask o else s
    s.finishOp o.id st

/-! ## The task instructions (R193, R196 to R201) -/

/-- The part of an instruction's entry that format T gives; every one of class 0xC is forbidden in a callee (R216). -/
def specT (f : FormT) (srcs dsts : List Opnd) (lat : Lat) (hint : Bool) : Spec :=
  { h := f.h, ga := f.ga, gb := f.gb, srcs := srcs, dsts := dsts, lat := lat, hint := hint, priv := false, ends := false,
    squash := false }

/-- tshape (R196). -/
def execTshape (f : FormT) (s : State) : Out :=
  issue (specT f [grp f.a 8] [] .none false) (fun _ => f.b ≠ 0#8 || f.c ≠ 0#8 || f.d ≠ 0#8 || f.sub ≠ 0#10)
    (fun x s =>
      if x.act = 0#64 then .ok { s := s, wr := [], ctl := false }
      else if x.c.callee then .error (gateForbid x.c)
      else
        let r := x.g0 s f.a 8
        if !trZero r && trBad r then .error (.raise (accumCause 2 0#64))
        else .ok { s := s.modCrew x.id (fun c => { c with trecs := c.trecs.set f.trec.toNat r }), wr := [], ctl := false }) s

/-- The checks of R192 at issue; none passes. -/
def issueCheck (s : State) (c : Crew) (opc : Nat) (r : List Word) (mv sub ctl : Nat) : Option Nat :=
  match s.block? c.blk with
  | none => some 0
  | some b =>
    if trZero r || trBad r then some 2
    else if tkindOf opc = .mma && (trSparse r != isSparse opc || (trPart r && (opc == 0x30F || opc == 0x310))) then some 3
    else if 1 < trSlices r && decide (b.gsize < trSlices r) then some 1
    else
      let c := if trSlices r ≤ 1 then 0 else b.rank
      if b.harv || (decide (c < trSlices r) && (taskUnits opc r mv sub ctl c).any (fun u => !s.holdsUnit b none u)) then some 0
      else none

/-- The issue entry of a task instruction: `used` are its source operands beside the rows (R193). -/
def taskSpec (f : FormT) (used : List Opnd) (hint : Bool) : Spec :=
  { specT f (used ++ (if f.sub.getLsbD 0 then [one f.d] else [])) [] .none hint with ends := true }
/-- Rows of a task: M of its record, or fewer by the ragged count (R193). -/
def taskRows (f : FormT) (x : Ctx) (s : State) : Nat :=
  let m := trM (x.c.trecs.getD f.trec.toNat [])
  if f.sub.getLsbD 0 then min (x.v0 s f.d).toNat m else m
/-- The operation that a task instruction posts: four argument words, the rows and SUB (R193). -/
def newTask (f : FormT) (opc : Nat) (x : Ctx) (s : State) (args md : List Word) : Op :=
  { newOp x s 2 opc (args ++ [BitVec.ofNat 32 (taskRows f x s), BitVec.ofNat 32 f.sub.toNat]) with
    trec := x.c.trecs.getD f.trec.toNat [], metaw := md, prog := [0, 0, 0, 0], started := [false, false, false, false],
    sliceStat := [0, 0, 0, 0] }

/-- A task instruction. `args`: a0, b0, control, stride; `md`: metadata; `wrong`: what is wrong with the metadata's registers (R193, R198). -/
def runTask (f : FormT) (opc : Nat) (used : List Opnd) (bad : Bool) (hint : Bool) (wrong : Ctx → State → Option Nat)
    (args : Ctx → State → List Word) (md : Ctx → State → List Word) (s : State) : Out :=
  let sp := taskSpec f used hint
  issue sp (fun c => bad || (!f.sub.getLsbD 0 && f.d ≠ 0#8) || (match wrong (issueCtx s.opening c sp) s.opening with
      | some n => decide (8 ≤ n)
      | none => false))
    (fun x s =>
      match wrong x s with
      | some q => .error (.raise (queueCause q (x.queues.getD q 0#32)))
      | none =>
        if x.act = 0#64 then .ok { s := s, wr := [], ctl := false }
        else if x.c.callee then .error (gateForbid x.c)
        else
          match issueCheck s x.c opc (x.c.trecs.getD f.trec.toNat []) (taskRows f x s) f.sub.toNat ((args x s).getD 2 0#32).toNat with
          | some sub => .error (.raise (accumCause sub 0#64))
          | none =>
            if !canPost s x.c 2 || s.spillFull x.c (isSparse opc) then .error .hold
            else .ok { s := s.postOp (newTask f opc x s (args x s) (md x s)), wr := [], ctl := false }) s

/-- mma (R197): A and B hold the offsets, C is reserved, SUB bits 9:1 are reserved. -/
def runMma (f : FormT) (opc : Nat) (s : State) : Out :=
  runTask f opc [one f.a, one f.b] (f.c ≠ 0#8 || f.sub.toNat / 2 ≠ 0) true (fun _ _ => none)
    (fun x s => [x.v0 s f.a, x.v0 s f.b, 0#32, 0#32]) (fun _ _ => []) s
/-- mma.e4m3 (R197). -/
def execMmaE4m3 (f : FormT) (s : State) : Out := runMma f 0x308 s
/-- mma.e5m2 (R197). -/
def execMmaE5m2 (f : FormT) (s : State) : Out := runMma f 0x309 s
/-- mma.e4e5 (R197). -/
def execMmaE4e5 (f : FormT) (s : State) : Out := runMma f 0x30A s
/-- mma.e5e4 (R197). -/
def execMmaE5e4 (f : FormT) (s : State) : Out := runMma f 0x30B s
/-- mma.e2m1 (R197). -/
def execMmaE2m1 (f : FormT) (s : State) : Out := runMma f 0x30C s
/-- mma.bf16 (R197). -/
def execMmaBf16 (f : FormT) (s : State) : Out := runMma f 0x30D s
/-- mma.f16 (R197). -/
def execMmaF16 (f : FormT) (s : State) : Out := runMma f 0x30E s
/-- mma.i8 (R197). -/
def execMmaI8 (f : FormT) (s : State) : Out := runMma f 0x30F s
/-- mma.t5 (R197). -/
def execMmaT5 (f : FormT) (s : State) : Out := runMma f 0x310 s

/-- Metadata words of a task: how many, and where the stream starts for its slab (R198). -/
def metaLanes (sub : Nat) : Nat × Nat :=
  match bitsOf sub 2 1 with
  | 1 => (32, 0)
  | 2 => (32, 32)
  | _ => (64, 0)
/-- The stream indices that a task reads (R198). -/
def metaRange (r : List Word) (opc mv sub : Nat) : Nat × Nat :=
  let k := slabK opc (trKB r) / 32
  let kp := bitsOf sub 4 3
  (kp * trM r * k, (kp * trM r + mv) * k)
/-- The registers that hold the words of a stream range. -/
def metaRegs (c0 : Nat) (sub : Nat) (rg : Nat × Nat) : List Nat :=
  if rg.2 ≤ rg.1 then [] else
  let l := (metaLanes sub).1
  (List.range ((rg.2 - 1) / l - rg.1 / l + 1)).map (fun i => c0 + rg.1 / l + i)
/-- The metadata's check: a register outside the allocation (answer 8) or in a queue window (answer that queue) (R198). -/
def metaBad (f : FormT) (opc : Nat) (x : Ctx) (s : State) : Option Nat :=
  let r := x.c.trecs.getD f.trec.toNat []
  let rs := metaRegs f.c.toNat f.sub.toNat (metaRange r opc (taskRows f x s) f.sub.toNat)
  if x.act = 0#64 then none else if rs.any (fun q => !allocated x.c.n q) then some 8 else rs.findSome? (fun q => qOf x.queues q)
/-- mmas (R198). -/
def runMmas (f : FormT) (opc : Nat) (s : State) : Out :=
  runTask f opc [one f.a, one f.b] (f.sub.toNat / 32 ≠ 0 || bitsOf f.sub.toNat 2 1 == 3) true (metaBad f opc)
    (fun x s => [x.v0 s f.a, x.v0 s f.b, 0#32, 0#32])
    (fun x s =>
      let r := x.c.trecs.getD f.trec.toNat []
      let rg := metaRange r opc (trM r) f.sub.toNat
      let l := (metaLanes f.sub.toNat).1
      let lo := (metaLanes f.sub.toNat).2
      (List.range rg.2).map (fun n =>
        if n < rg.1 then 0#32 else rowAt (x.plain s (f.c.toNat + n / l)) (lo + n % l))) s
/-- mmas.e4m3 (R198). -/
def execMmasE4m3 (f : FormT) (s : State) : Out := runMmas f 0x318 s
/-- mmas.e5m2 (R198). -/
def execMmasE5m2 (f : FormT) (s : State) : Out := runMmas f 0x319 s
/-- mmas.e2m1 (R198). -/
def execMmasE2m1 (f : FormT) (s : State) : Out := runMmas f 0x31A s
/-- mmas.bf16 (R198). -/
def execMmasBf16 (f : FormT) (s : State) : Out := runMmas f 0x31B s
/-- mmas.f16 (R198). -/
def execMmasF16 (f : FormT) (s : State) : Out := runMmas f 0x31C s
/-- mmas.i8 (R198). -/
def execMmasI8 (f : FormT) (s : State) : Out := runMmas f 0x31D s

/-- msacc (R199). -/
def execMsacc (f : FormT) (s : State) : Out :=
  runTask f 0x320 [one f.a, one f.b] (f.c ≠ 0#8 || f.sub.toNat / 2 ≠ 0) false (fun _ _ => none)
    (fun x s => [x.v0 s f.a, x.v0 s f.b, 0#32, 0#32]) (fun _ _ => []) s
/-- mzero (R200). -/
def execMzero (f : FormT) (s : State) : Out :=
  runTask f 0x321 [] (f.a ≠ 0#8 || f.b ≠ 0#8 || f.c ≠ 0#8 || f.sub.toNat / 4 ≠ 0) false (fun _ _ => none)
    (fun _ _ => [0#32, 0#32, 0#32, 0#32]) (fun _ _ => []) s
/-- accst (R201): C is an even pair of control word and row stride. -/
def execAccst (f : FormT) (s : State) : Out :=
  runTask f 0x325 [one f.a, one f.b, grp f.c 2] (f.sub.toNat / 2 ≠ 0) true (fun _ _ => none)
    (fun x s => [x.v0 s f.a, x.v0 s f.b] ++ x.g0 s f.c 2) (fun _ _ => []) s

/-! ## Accumulator allocation (R203 to R205, R267) -/

/-- UNITS of the IMM32 layout. -/
def acUnits (f : FormI) : Nat := f.imm.toNat % 128
/-- AT. -/
def acAt (f : FormI) : Bool := f.imm.getLsbD 7
/-- BASEU. -/
def acBase (f : FormI) : Nat := bitsOf f.imm.toNat 13 8

/-- acca (R204): the request waits, the slot with it, until ACCA_GRANT. -/
def execAcca (f : FormI) (s : State) : Out :=
  issue (specI f [] [one f.d] .var) (fun _ => f.imm.toNat / 2 ^ 14 ≠ 0 || f.a ≠ 0#8 || f.sub ≠ 0#7)
    (fun x s =>
      if x.act = 0#64 then .ok { s := s, wr := [], ctl := false }
      else if x.c.callee then .error (gateForbid x.c)
      else if (s.block? x.c.blk).any (fun b => b.harv) then .error (.raise (accumCause 0 0#64))
      else if acUnits f = 0 || decide (64 < acUnits f) || (acAt f && decide (64 < acBase f + acUnits f)) || (!acAt f && acBase f ≠ 0) then
        .error (.raise (accumCause 4 0#64))
      else
        let r : AccaReq := { id := s.order, crew := x.id, slot := x.k, blk := x.c.blk, core := x.c.core, units := acUnits f,
                             base := if acAt f then some (acBase f) else none, dst := x.d 0, mask := x.act, flight := s.order }
        let s := { s with accas := s.accas ++ [r] }
        -- the write of D has no lane yet: the grant gives it its lanes and their value
        .ok { s := s.modCrew x.id (fun c => c.setSlot x.k { c.slot x.k with accaWait := some s.order }), wr := [Wr.full (x.d 0) 0#64 (fun _ => 0#32)],
              ctl := false }) s

/-- The tasks not yet retired that read or write a unit of a block's core (R205). -/
def State.usersOf (s : State) (b : Block) (u : Nat) : List Nat :=
  (s.ops.filter (fun o => o.cls == 2 && !o.done &&
    (List.range (trSlices o.trec)).any (fun c => (s.sliceBlock o c).any (fun q => q.id == b.id) &&
      (taskUnits o.opc o.trec o.mv o.sub (o.arg 2) c).contains u))).map (fun o => o.id)
/-- A set of units without those of a list. -/
def dropUnits (m : BitVec 64) (us : List Nat) : BitVec 64 := us.foldl (fun m u => m &&& ~~~(1#64 <<< u)) m

/-- accf (R205): units leave the block now, and become free once the tasks that use them have retired. -/
def execAccf (f : FormI) (s : State) : Out :=
  issue { specI f [] [] .none with ends := true }
    (fun _ => f.imm.toNat / 2 ^ 14 ≠ 0 || acAt f || f.a ≠ 0#8 || f.d ≠ 0#8 || f.sub ≠ 0#7)
    (fun x s =>
      if x.act = 0#64 then .ok { s := s, wr := [], ctl := false }
      else if x.c.callee then .error (gateForbid x.c)
      else if acUnits f = 0 || decide (64 < acUnits f) || decide (64 < acBase f + acUnits f) then .error (.raise (accumCause 4 0#64))
      else
        match s.block? x.c.blk with
        | none => .ok { s := s, wr := [], ctl := false }
        | some b =>
          let us := ((List.range (acUnits f)).map (fun i => acBase f + i)).filter (fun u => b.units.getLsbD u || b.spilled.getLsbD u)
          let used := us.filter (fun u => !(s.usersOf b u).isEmpty)
          -- a spilled unit that tasks still use comes back for them and is released after them
          let s' := s.modBlock b.id (fun b => { b with units := dropUnits b.units us,
                                                       spilled := dropUnits b.spilled (us.filter (fun u => !used.contains u)) })
          .ok { s := { s' with
                  spills := s'.spills.filter (fun p => !(p.1 == b.id && us.contains p.2.1 && !used.contains p.2.1)),
                  accfs := s'.accfs ++ (used.filter (fun u => !s.accfs.any (fun a => a.blk == b.id && a.unit == u))).map (fun u =>
                    { blk := b.id, core := b.core, unit := u, tasks := s.usersOf b u }) },
                wr := [], ctl := false }) s

/-- A unit of a core is free: no block there holds it and no release of it is pending (R204, R205). -/
def State.unitFree (s : State) (core u : Nat) : Bool :=
  !s.blocks.any (fun b => b.core == core && (b.place == 0 || b.place == 3) && b.units.getLsbD u) &&
    !s.accfs.any (fun a => a.core == core && a.unit == u && (match s.block? a.blk with
      | some b => b.place == 0 || b.place == 3
      | none => true) && !(s.block? a.blk).any (fun b => b.spilled.getLsbD u))
/-- Age of a request or block: admission order of the launch, then BLOCKID, then issue (R267). -/
def State.ageOf (s : State) (blk issue : Nat) : Nat × Nat × Nat :=
  match s.block? blk with
  | none => (0, 0, issue)
  | some b => (match s.launches.find? (fun l => l.id == b.launch) with
    | some l => l.admitOrd
    | none => 0, b.blockId, issue)
/-- Lexicographic order of ages. -/
def ageLt (a b : Nat × Nat × Nat) : Bool :=
  decide (a.1 < b.1) || (a.1 == b.1 && (decide (a.2.1 < b.2.1) || (a.2.1 == b.2.1 && decide (a.2.2 < b.2.2))))
/-- The oldest waiting request of a core (R267). -/
def State.oldestReq (s : State) (core : Nat) : Option AccaReq :=
  (s.accas.filter (fun r => r.core == core)).foldl (fun m r => match m with
    | none => some r
    | some q => if ageLt (s.ageOf r.blk r.id) (s.ageOf q.blk q.id) then some r else some q) none
/-- The lowest run of n units that all satisfy a predicate. -/
def unitRun (n : Nat) (p : Nat → Bool) : Option Nat :=
  (List.range 64).find? (fun u => decide (u + n ≤ 64) && (List.range n).all (fun i => p (u + i)))
/-- The units of its core that a block occupies: those it holds, and those whose release waits for tasks (R205). -/
def State.coreUnits (s : State) (b : Block) : List Nat :=
  (List.range 64).filter (fun u => b.units.getLsbD u || (!b.spilled.getLsbD u && s.accfs.any (fun a => a.blk == b.id && a.unit == u)))
/-- A unit is held by a block younger than the requester that itself waits (R204, R267). -/
def State.spillable (s : State) (r : AccaReq) (u : Nat) : Option Nat :=
  (s.blocks.find? (fun b => b.core == r.core && b.id ≠ r.blk && b.place == 0 && (s.coreUnits b).contains u &&
    s.accas.any (fun q => q.blk == b.id) && ageLt (s.ageOf r.blk 0) (s.ageOf b.id 0))).map (fun b => b.id)

/-! ## Core images of a context (R370, R371) -/

/-- The byte spans of a core's block memory that its blocks use: allocations and arrival counters (R183). -/
def blockSpans (bs : List Block) : List (Nat × Nat) := bs.flatMap (fun b => [(b.bmOff, b.bmLen), (b.arrOff, 256)])
/-- What a block takes of a core image: its spans of block memory, its units, and its windows (R371). -/
def State.imgSpans (s : State) (b : Block) : List (Nat × Nat) :=
  let units := s.coreUnits b ++ (List.range 64).filter (fun u => b.spilled.getLsbD u)
  let gates := (s.crews.filter (fun c => c.blk == b.id)).flatMap (fun c => c.gates)
  blockSpans [b] ++ units.map (fun u => (0x100000 + 4096 * u, 4096)) ++ gates.map (fun g => (0x200000 + 4096 * g.unit, 4096 * g.units))
/-- Two blocks can lie in one core image: of one virtual core, from one core, with nothing at the same place of it (R370, R371). -/
def State.imgFits (s : State) (b q : Block) : Bool :=
  let sm := fun (x : Block) => match s.saved.find? (fun y => y.blk == x.id) with
    | some y => y.sm
    | none => if x.harv then [] else s.smem.read (coreKey x.core 0) 32768
  b.vcore == q.vcore && b.core == q.core && (sm b).isEmpty == (sm q).isEmpty && sm b == sm q &&
    (s.imgSpans b).all (fun u => (s.imgSpans q).all (fun v => decide (u.1 + u.2 ≤ v.1) || decide (v.1 + v.2 ≤ u.1) || u.2 == 0 || v.2 == 0))
/-- The core image that a block goes to: the one it has, or the lowest that nothing of another block stands in its way in. (log 38, DEDUCED) -/
def State.imgFor (s : State) (b : Block) : Nat :=
  ((b.img.toList ++ List.range 160).find? (fun k => s.blocks.all (fun q =>
    q.id == b.id || q.ctx ≠ b.ctx || q.img ≠ some k || q.place == 3 || s.imgFits b q))).getD 0
/-- Where core image k of a context begins (R370). -/
def State.imageVa (s : State) (ctx k : Nat) : Nat := (s.ctxDesc ctx).imgva + 0x4000 + k * 0x200000
/-- The key-domain of a context's own handles for a VA: that of a handle of its launches which covers it; none where none does, and
the owner of the frame decides (R430; log 12, DEDUCED). -/
def State.ownKd (s : State) (ctx va : Nat) : Option Nat :=
  let d := s.ctxDesc ctx
  let hts := ((s.launches.filter (fun l => l.ctx == ctx)).map (fun l => BitVec.ofNat 64 (l.w 2 + l.w 3 * 2 ^ 32))).dedup
  hts.findSome? (fun ht => (List.range (htN ht + 1)).findSome? (fun i =>
    let e := s.handle d.asid 0 ht i 19
    if e.valid ∧ e.space ≠ 2 ∧ e.space ≠ 6 ∧ e.base ≤ va ∧ va < e.base + e.bound then some e.kd else none))
/-- Bytes written to the image or spill area of a context, through its own handles (R430); a byte that cannot be written is lost. -/
def State.putImage (s : State) (asid : Nat) (kd : Option Nat) (va : Nat) (bs : List Byte) : State :=
  s.spread asid 0 kd (bs.length / 65536 + 2) (va % 2 ^ 64) bs

/-- A spilled unit's contents written to its place in the block's core image (R267, R371). (log 26, DEDUCED) -/
def State.saveUnit (s : State) (b : Block) (u : Nat) (bs : List Byte) : State :=
  let k := s.imgFor b
  (s.putImage (s.ctxDesc b.ctx).asid (s.ownKd b.ctx (s.imageVa b.ctx k % 2 ^ 64)) (s.imageVa b.ctx k + 0x1B2000 + 4096 * u) bs).modBlock b.id (fun q => { q with img := some k })
/-- Block's units on its core spilled: contents kept, tasks stop at their rows, units free (R202, R267). -/
def State.spillBlock (s : State) (blk : Nat) : State :=
  match s.block? blk with
  | none => s
  | some b =>
    let us := s.coreUnits b
    let bytes := fun u => s.amem.read (coreKey b.core (4096 * u)) 4096
    let s := us.foldl (fun s u => s.saveUnit b u (bytes u)) { s with spills := s.spills ++ us.map (fun u => (blk, u, bytes u)) }
    let s := { s with ops := s.ops.map (fun (o : Op) => if o.cls = 2 ∧ !o.done then
      { o with started := (List.range 4).map (fun c => o.started.getD c false &&
          !((s.sliceBlock o c).any (fun (q : Block) => q.id == blk) && !o.sliceOver c)) } else o) }
    s.modBlock blk (fun b => { b with spilled := us.foldl (fun m u => m ||| (1#64 <<< u)) b.spilled, units := 0#64 })

/-- A grant: the units become the block's, spilled ones return to their offsets, D receives the byte offset, the region ends
and the slot goes on (R204, R267, R364). -/
def State.grant (s : State) (r : AccaReq) (first : Nat) : State :=
  let back := s.spills.filter (fun p => p.1 == r.blk)
  let s := back.foldl (fun s p => { s with amem := s.amem.write (coreKey r.core (4096 * p.2.1)) p.2.2 }) s
  let s := { s with spills := s.spills.filter (fun p => p.1 ≠ r.blk), accas := s.accas.filter (fun q => q.id ≠ r.id) }
  let got := (List.range r.units).foldl (fun (m : BitVec 64) i => m ||| (1#64 <<< (first + i))) 0#64
  let s := s.modBlock r.blk (fun b => { b with units := b.units ||| b.spilled ||| got, spilled := 0#64 })
  s.modCrew r.crew (fun c =>
    let given := fun (a : Alt) => { a with row := mkRow (fun _ => BitVec.ofNat 32 (4096 * first)), mask := r.mask }
    let c := { c with flights := c.flights.map (fun (f : Flight) => if f.id = r.flight then { f with writes := f.writes.map given } else f) }
    let p := c.slot r.slot
    let c := c.setSlot r.slot { p with accaWait := none }
    markRegion c r.slot p.pc)

/-- One act of a core's allocator: grant the oldest request, or spill the youngest holder it may (R267). -/
def State.allocate (s : State) (core : Nat) : State :=
  match s.oldestReq core with
  | none => s
  | some r =>
    match s.block? r.blk with
    | none => s
    | some b =>
      let own := fun u => b.units.getLsbD u
      let free := s.unitFree core
      -- spilled units return with the grant, at their former offsets
      let back := (List.range 64).filter (fun u => b.spilled.getLsbD u)
      let want : Option Nat := match r.base with
        | some u => some u
        | none => unitRun r.units (fun u => free u && !back.contains u)
      let choice : Option Nat := match want with
        | some u => some u
        | none => unitRun r.units (fun u => !back.contains u && (free u || (s.spillable r u).isSome))
      match choice with
      | none => s
      | some u =>
        let need := (List.range r.units).map (fun i => u + i) ++ back
        let at0 := r.base.isSome
        let ok := need.all (fun x => free x || (at0 && own x) || (back.contains x && free x))
        if ok then s.grant r u
        else
          let victims := (need.filter (fun x => !free x && !(at0 && own x))).filterMap (s.spillable r)
          match victims.foldl (fun (m : Option Nat) v => match m with
            | none => some v
            | some w => if ageLt (s.ageOf w 0) (s.ageOf v 0) then some v else some w) none with
          | none => s
          | some v => s.spillBlock v

/-- A pending release whose tasks have retired takes effect (R205). -/
def State.releaseUnit (s : State) (i : Nat) : State :=
  match s.accfs[i]? with
  | none => s
  | some a =>
    if s.ops.any (fun o => a.tasks.contains o.id) then s
    else
      let s := { s with accfs := s.accfs.take i ++ s.accfs.drop (i + 1), spills := s.spills.filter (fun p => !(p.1 == a.blk && p.2.1 == a.unit)) }
      s.modBlock a.blk (fun b => { b with units := dropUnits b.units [a.unit], spilled := dropUnits b.spilled [a.unit] })

/-! ## accld and bucket (R206, R209) -/

/-- accld (R206). -/
def execAccld (f : FormT) (s : State) : Out :=
  let n := 2 ^ (f.sub.toNat % 4)
  issue (specT f [one f.a] [grp f.d n] .var false) (fun _ => f.trec ≠ 0#4 || f.b ≠ 0#8 || f.c ≠ 0#8 || f.sub.toNat / 4 ≠ 0)
    (fun x s =>
      if x.act ≠ 0#64 ∧ x.c.callee then .error (gateForbid x.c)
      else
        let a := x.row s f.a.toNat
        let b := s.block? x.c.blk
        let bad := mkMask (fun l => x.act.getLsbD l &&
          (let o := (rowAt a l).toNat
           decide (o % 4 ≠ 0) || (List.range n).any (fun k =>
             let u := (o + 4 * k) / 4096
             decide (64 ≤ u) || !(b.any (fun b => s.holdsUnit b none u)))))
        if bad ≠ 0#64 then .error (.raise (accumCause 0 bad))
        else if (maskLanes x.act).any (fun l => (List.range n).any (fun k =>
            b.any (fun b => b.spilled.getLsbD (((rowAt a l).toNat + 4 * k) / 4096)))) then .error .hold
        else
          .ok { s := s, ctl := false,
                wr := (List.range n).map (fun k => Wr.full (if n = 1 then x.d 0 else x.d 0 + k) x.act
                  (fun l => BitVec.ofNat 32 (s.accWord x.c.core ((rowAt a l).toNat + 4 * k)))) }) s

/-- bucket (R209): rank and count of each lane's expert. -/
def execBucket (f : FormR) (s : State) : Out :=
  let u : RUse := { a := some .n32, b := some .n32, c := none }
  issue (specR f u [grp f.d 2] .var) (fun c => u.bad f c || (!c.perm && f.md ≠ 0#12))
    (fun x s =>
      if x.act ≠ 0#64 ∧ x.c.callee then .error (gateForbid x.c)
      else
        let a := x.opA s u f
        let b := x.opB s u f
        let valid := fun l => decide ((lo32 (a l)).toNat < (lo32 (b l)).toNat)
        let same := fun l => (maskLanes x.act).filter (fun k => valid k && lo32 (a k) == lo32 (a l))
        .ok { s := s, ctl := false,
              wr := [Wr.full (x.d 0) x.act (fun l => if valid l then BitVec.ofNat 32 ((same l).filter (fun k => decide (k < l))).length else 0xFFFFFFFF#32),
                     Wr.full (x.d 0 + 1) x.act (fun l => if valid l then BitVec.ofNat 32 (same l).length else 0#32)] }) s

end Sys2Proof.Machine
end

