-- ==== Sys2Proof/Machine/Stop.lean ====
section
/-!
DEFINITION. Stop.lean: stopping crews, blocks and contexts, terminating a context, unwinding gate calls, the umpire, and the
write-back of launch records (spec 10 R217, R218; 12 R251, R265, R274 to R276; 21 R366, R367, R380; 11 R246).
-/

namespace Sys2Proof.Machine

open Sys2Proof

/-! ## Launch slots (R251) -/

/-- A launch slot changed by a function. -/
def State.modLaunch (s : State) (id : Nat) (f : Launch → Launch) : State :=
  { s with launches := s.launches.map (fun l => if l.id == id then f l else l) }

/-- The write-back of words 28 and 29 at a state change, a release at .package, when the record's handle grants w (R251). -/
def State.writeBack (s : State) (l : Launch) : State :=
  let w28 := (if l.late then 65536 else 0) + l.reason % 16 * 256 + l.st % 16
  let bs := leBytes 4 w28 ++ leBytes 4 (s.clock.toNat % 2 ^ 32)
  if !l.wb then s
  else if l.asid = 2 ^ 16 then s.release.writePa (l.va + 112) bs
  else (s.release.writeVa l.asid 0 2 ((l.va + 112) % 2 ^ 64) bs).getD s
/-- A launch moves to a state (R253). -/
def State.setLaunch (s : State) (id st : Nat) : State :=
  let s := s.modLaunch id (fun l => { l with st := st })
  match s.launch? id with
  | some l => s.writeBack l
  | none => s

/-! ## Stopping a crew (R47, R366, R367) -/

/-- A crew stops: its instructions in flight end and its waiting acca is dropped; the remaining count of a pause is lost (R157, R367).
It goes back to its region entries when it resumes (R366). -/
def State.haltCrew (s : State) (id : Nat) : State :=
  match s.crew? id with
  | none => s
  | some c =>
    if c.retired then s
    else
      let c := stopFlights s c
      let s := { s with accas := s.accas.filter (fun a => a.crew ≠ id),
                        cores := s.cores.map (fun (k : CoreSt) => { k with gateWait := k.gateWait.filter (fun x => x ≠ id) }) }
      s.setCrew { c with demote := 0, demotedFrom := none }

/-- The crews of a block. -/
def State.crewsOf (s : State) (blk : Nat) : List Crew := s.crews.filter (fun c => c.blk == blk)

/-- Windows of a crew's gate calls given back, their bytes zero (R217, R218). -/
def State.freeUnits (s : State) (core unit units : Nat) : State :=
  s.modCore core (fun k => { k with gateUse := (List.range 16).map (fun u =>
    if unit ≤ u ∧ u < unit + units then false else k.gateUse.getD u false) })

/-! ## Return records (R215, R217, R218) -/

/-- The caller's level taken back from a record, GATESTAT set, the lanes live at the gate in slot A at the recorded PC. -/
def popRecord (c : Crew) (g : GateRec) (rest : List GateRec) (mask : Mask) (regs : List Row) (stat : Nat) : Crew :=
  let tv := if rest.isEmpty then none else g.tvec
  let slotA : PcSlot := { PcSlot.empty with st := .running, pc := g.pc, mask := mask, issuedAt := c.a.issuedAt }
  let c : Crew := { c with n := g.n, regs := regs, asid := g.asid, ht := g.ht, tvec := tv, priv := g.priv, dom := g.dom, dent := g.dent, window := g.window }
  let c : Crew := { c with mode := g.mode, fp := g.fp, rng := g.rng, queues := g.queues, regc := g.regc, dsh := g.dsh, dsPart := g.dsPart }
  let c : Crew := { c with dsValid := g.dsValid, ocnt := g.ocnt, gatestat := BitVec.ofNat 32 stat, trapq := g.trapq, insvc := g.insvc }
  let c : Crew := { c with svcSlot := g.svcSlot, skip := g.skip, trapcause := g.trapcause, trapva := g.trapva, trecs := g.trecs }
  let c : Crew := { c with budget := g.budget, gates := rest, depth := 0, a := slotA, b := PcSlot.empty, srOld := [] }
  markRegion c false g.pc

/-- GATEFAULT raised as by the gate instruction: its return PC is the recorded one (R217, R218, R381). -/
def State.gateFault (s : State) (id : Nat) (pc : DWord) (stat : Nat) : State :=
  let cur := s.cur
  let s := { s with cur := { Cursor.idle with crew := some id, slot := false, pc := pc, next := pc } }
  let s := s.takeCause (crewCause 0x11 0 0 (BitVec.ofNat 64 stat) 0#64 true)
  { s with cur := cur }

/-- The unwinding of level d of a crew's calls begins: the crew stops, and the statuses of the operations of levels d and
deeper are dropped (R218). Level 1 is the outermost call. (log 23, DEDUCED) -/
def State.unwind (s : State) (id d status cause : Nat) : State :=
  match s.crew? id with
  | none => s
  | some c =>
    if d = 0 ∨ c.gates.length < d then s
    else
      let s := s.haltCrew id
      let drop := fun (o : Op) => o.crew == id && decide (d ≤ o.level)
      let s := { s with ops := (s.ops.filter (fun (o : Op) => !(drop o && o.done))).map (fun (o : Op) =>
        if drop o then { o with dropped := true } else o) }
      s.modCrew id (fun c =>
        let d := match c.unwinding with
          | some u => if u.1 < d then u else (d, status, cause)
          | none => (d, status, cause)
        { c with stall := none, unwinding := some d })

/-- The unwinding ends once no operation of its levels is left: windows zeroed and released, records popped, the caller
restored after its gate, and GATEFAULT raised where TRAPU was set (R218). (log 23, DEDUCED) -/
def State.endUnwind (s : State) (id : Nat) : State :=
  match s.crew? id with
  | none => s
  | some c =>
    match c.unwinding with
    | none => s
    | some (d, status, cause) =>
      if s.ops.any (fun (o : Op) => o.crew == id && decide (d ≤ o.level)) then s
      else
        let n := c.gates.length
        match c.gates[n - d]? with
        | none => s
        | some g =>
          let s := (c.gates.take (n - d + 1)).foldl (fun s (r : GateRec) => s.freeUnits c.core r.unit r.units) s
          let stat := 2 ^ 31 + status * 2 ^ 28 + cause % 256 * 65536
          let s := s.modCrew id (fun c =>
            { popRecord c g (c.gates.drop (n - d + 1)) g.mask g.regs stat with stall := none, unwinding := none })
          if g.trapu then s.gateFault id g.pc stat else s

/-! ## Windows of gate calls (R219, R379, R406) -/

/-- The lowest free run of units of the gate part (R406). -/
def unitHole (use : List Bool) (n : Nat) : Option Nat :=
  (List.range (17 - n)).find? (fun u => (List.range n).all (fun i => !use.getD (u + i) true))

/-- Windows for the calls of a crew on a core, innermost first; none when one does not fit (R379). -/
def takeWindows (use : List Bool) : List GateRec → Option (List Bool × List GateRec)
  | [] => some (use, [])
  | g :: gs =>
    match unitHole use g.units with
    | none => none
    | some u =>
      (takeWindows ((List.range 16).map (fun i => if u ≤ i ∧ i < u + g.units then true else use.getD i false)) gs).map
        (fun r => (r.1, { g with unit := u } :: r.2))
/-- The windows of the crews of a list fit on a core. -/
def windowsFit (use : List Bool) : List Crew → Bool
  | [] => true
  | c :: cs =>
    match takeWindows use c.gates with
    | none => false
    | some r => windowsFit r.1 cs

/-- A callee's divergence stack records copied to the part of its window's new place, record by record (R216, R379). -/
def State.copyStack (s : State) (c d : Crew) : Nat → State
  | 0 => s
  | n + 1 =>
    let s := State.copyStack s c d n
    match s.dsPlace c n false, s.dsPlace d n true with
    | .ok l, .ok m => s.store (dieOfCore d.core) m (s.load (dieOfCore c.core) l 16)
    | _, _ => s

/-- The windows of a crew's calls taken on its core, each level's part of the divergence stack following its window. -/
def State.reseatWindows (s : State) (id : Nat) : State :=
  match s.crew? id with
  | none => s
  | some c =>
    match takeWindows (s.core c.core).gateUse c.gates with
    | none => s
    | some (use, gs) =>
      let part := fun (i : Nat) => (gs[i]?).map (fun g => (65536 * c.core + 4096 * g.unit, 4096))
      let d : Crew := { c with gates := (gs.zip (List.range gs.length)).map (fun p => { p.1 with dsPart := part (p.2 + 1) }), dsPart := part 0 }
      (((s.modCore c.core (fun k => { k with gateUse := use })).copyStack c d c.depth)).modCrew id (fun _ => d)

/-! ## Operations at a stop (R367) -/

/-- An operation goes on although its context is stopped: a scale copy or a fabric command runs to its end (R367). -/
def Op.runsOn (o : Op) : Bool := o.opc == 0x283 || o.cls == 3
/-- An operation that a stop still waits for: a scale copy, a fabric command that no key holds, a copy or gather that has not come
to its 4 KiB unit, or a tsig whose awaited operations have retired (R367). A parked block's commands on its block memory, which the
boathouse holds, stand where the revocation paused them (R270). -/
def State.awaited (s : State) (o : Op) : Bool :=
  let inBlk := o.handleArgs.any (fun i => (s.opHandle o (o.args.getD i 0#32)).space == 2)
  let here := (s.block? o.blk).any (fun (b : Block) => b.place == 0 || (b.place == 2 && !inBlk))
  !o.done && o.pause.isEmpty && ((o.cls == 3 && (s.heldPort o).isNone) || (o.opc == 0x283 && here) ||
    (o.cls ≠ 2 && o.cls ≠ 3 && !s.atUnit o 4096 && here) ||
    (o.opc == 0x298 && here && s.ops.all (fun (p : Op) => !(o.await.contains p.id && !p.done))))
/-- Nothing of a block's operations keeps it from leaving its core as by a pre-emption (R264, R367). -/
def State.leavable (s : State) (blk : Nat) : Bool := !s.ops.any (fun o => o.blk == blk && s.awaited o)

/-! ## Blocks that leave their core (R246, R265, R270, R367) -/

/-- What is kept of a block: its block memory, its units, and the scale memory of its core, or for a harvest block the core's lent
memory (R270, R371). (log 38, DEDUCED) -/
def State.keep (s : State) (b : Block) : Saved :=
  { blk := b.id, bm := s.bmem.read (coreKey b.core b.bmOff) b.bmLen,
    am := (s.coreUnits b).map (fun u => (u, s.amem.read (coreKey b.core (4096 * u)) 4096)),
    sm := if b.harv then [] else s.smem.read (coreKey b.core 0) 32768,
    lent := if b.harv then
        (s.bmLimit - s.lentBytes b.core, s.bmem.read (coreKey b.core (s.bmLimit - s.lentBytes b.core)) (s.lentBytes b.core))
      else (0, []),
    lend := if (s.core b.core).lending then s.lentBytes b.core else 0 }

/-- A block leaves its core: its crews stop, its state is kept, its place becomes 1 (saved) or 2 (parked). Lent lines are zeroed
as they are copied (R270). -/
def State.leaveCore (s : State) (blk place : Nat) : State :=
  match s.block? blk with
  | none => s
  | some b =>
    if b.place ≠ 0 then s
    else
      let s := (s.crewsOf blk).foldl (fun s c => s.haltCrew c.id) s
      let s := s.release
      let s := if place = 2 then s
        else (s.crewsOf blk).foldl (fun s c => c.gates.foldl (fun s (g : GateRec) => s.freeUnits c.core g.unit g.units) s) s
      let s := { s with saved := s.keep b :: s.saved.filter (fun x => x.blk ≠ blk) }
      let s := if place = 2 then { s with bmem := s.bmem.write (coreKey b.core b.bmOff) (List.replicate b.bmLen 0#8) } else s
      let s := { s with ops := s.ops.map (fun (o : Op) => if o.cls = 2 ∧ !o.done then
        { o with started := (List.range 4).map (fun c => o.started.getD c false && (o.sliceOver c ||
            !(s.sliceBlock o c).any (fun (q : Block) => q.id == blk))) } else o) }
      s.modBlock blk (fun b => { b with place := place, since := s.cycle, yielded := [] })

/-- A place for a block's arrival counters: the lowest 256 bytes in [lo, hi) that nothing uses. (log 25, DEDUCED) -/
def arrHole (used : List (Nat × Nat)) (lo hi : Nat) : Option Nat :=
  let starts := (lo :: (used.map (fun p => p.1 + p.2)).filter (fun p => decide (lo ≤ p))).map (fun p => (p + 255) / 256 * 256)
  (starts.filter (fun p => decide (p + 256 ≤ hi) &&
    used.all (fun u => decide (p + 256 ≤ u.1) || decide (u.1 + u.2 ≤ p) || u.2 == 0))).foldl (fun m p => match m with
      | none => some p
      | some q => some (min p q)) none
/-- Where the arrival counters of a block of a launch go whose allocation lies at an offset: for a harvest block in lent memory, for
an owner block below it where there is room (R183, R268, R407). (log 25, DEDUCED) -/
def State.arrPlace (s : State) (core off len keep launch : Nat) (harv : Bool) : Nat :=
  let used := (off, len) :: blockSpans ((s.onCore core).filter (fun b => b.id ≠ keep))
  let own := ((s.launch? launch).map Launch.lend).getD 0
  ((if harv then arrHole used (s.bmLimit - s.lentBytes core) s.bmLimit else arrHole used 0 (s.bmLimit - max (s.lentBytes core) own)).orElse
    (fun _ => arrHole used 0 s.bmLimit)).getD 0

/-- A block becomes resident on a core, its block memory at an offset: its state is put back and its crews resume at their
region entries, or after a STEP at their PCs (R246, R366, R379). Each crew gets a quad and a crew slot. (log 38, DEDUCED) -/
def State.enterCore (s : State) (blk core off : Nat) (seats : List (Nat × Nat)) : State :=
  match s.block? blk with
  | none => s
  | some b =>
    let s := match s.saved.find? (fun x => x.blk == blk) with
      | none => s
      | some x =>
        let s := { s with bmem := s.bmem.write (coreKey core off) x.bm, smem := if x.sm.isEmpty then s.smem else s.smem.write (coreKey core 0) x.sm }
        let s := x.am.foldl (fun (s : State) (p : Nat × List Byte) => { s with amem := s.amem.write (coreKey core (4096 * p.1)) p.2 }) s
        { s with saved := s.saved.filter (fun (y : Saved) => y.blk ≠ blk) }
    let arr := s.arrPlace core off b.bmLen blk b.launch b.harv
    let s := s.modBlock blk (fun b => { b with core := core, bmOff := off, arrOff := arr, place := 0, since := s.cycle, evicted := false, img := none })
    -- the acquire of R246: no crew of the block reads a value older than what stands now
    let s := { s with views := s.views.filter (fun v => !(s.crewsOf blk).any (fun c => c.id == v.crew)) }
    let s := { s with accfs := s.accfs.map (fun (a : AccfReq) => if a.blk = blk then { a with core := core } else a) }
    let s := { s with ops := s.ops.map (fun (o : Op) => if o.blk = blk then
      let o : Op := if o.cls = 3 then o.restart s.clock.toNat else o
      { o with core := core, window := o.window.map (fun (w : Nat × Nat) => (w.1 + off - b.bmOff, w.2)) } else o) }
    let move := fun (w : Option (Nat × Nat)) => w.map (fun (p : Nat × Nat) => (p.1 + off - b.bmOff, p.2))
    let s := ((s.crewsOf blk).zip seats).foldl (fun (s : State) (p : Crew × Nat × Nat) =>
      s.modCrew p.1.id (fun c =>
        let c : Crew := { c with core := core, quad := p.2.1, qslot := p.2.2, window := move c.window }
        let c : Crew := { c with gates := c.gates.map (fun (g : GateRec) => { g with window := move g.window }) }
        if c.retired || c.stall.isSome || c.unwinding.isSome then
          { c with flags := List.replicate 12 0, lastIssue := none, a := { c.a with line := [] }, b := { c.b with line := [] } }
        else resumeCrew c c.cont)) s
    if b.place = 2 then s else (s.crewsOf blk).foldl (fun s c => if c.gates.isEmpty then s else s.reseatWindows c.id) s

/-! ## Ending cox contexts from outside (R332) -/

/-- A slot of a cox. -/
def State.coxSlot (s : State) (port k : Nat) : CoxSlot := ((s.coxes.getD port CoxSt.reset).slots.getD k CoxSlot.free)
/-- A cox changed by a function. -/
def State.modCox (s : State) (port : Nat) (f : CoxSt → CoxSt) : State :=
  { s with coxes := s.coxes.set port (f (s.coxes.getD port CoxSt.reset)) }
/-- A slot of a cox changed by a function. -/
def State.modSlot (s : State) (port k : Nat) (f : CoxSlot → CoxSlot) : State :=
  s.modCox port (fun c => { c with slots := c.slots.set k (f (c.slots.getD k CoxSlot.free)) })
/-- A CHUNK of a send of this package that is still in its source router, queued for a port. -/
def State.unsent (s : State) (id : Nat) (q : PortPkt) : Bool :=
  let w := (q.pkt.hdr.getD 0 0#32).toNat
  bitsOf w 15 12 == 10 && bitsOf w 23 16 == bitsOf s.fabcfg.toNat 31 24 && q.pkt.span == id
/-- A slot ends: windows closed, held packets and unaccepted sends dropped, those in the queues of this package's ports as well, the
slot FREE (R332). -/
def State.coxFree (s : State) (port k : Nat) : State :=
  let s := match (s.coxSlot port k).send with
    | some sd => { s with outq := s.outq.filter (fun q => !s.unsent sd.id q) }
    | none => s
  let s := s.modCox port (fun c => { c with holds := c.holds.filter (fun h => h.slot ≠ k) })
  { s.modSlot port k (fun _ => CoxSlot.free) with held := s.held.filter (fun h => !(h.kind == 3 && h.unit == some (port, k))) }
/-- KILL: at once, or at the next chunk boundary of a running context (R332). -/
def State.coxKill (s : State) (port k : Nat) : State :=
  let sl := s.coxSlot port k
  if sl.st = 0 then s else if sl.st = 2 then s.modSlot port k (fun x => { x with killed := true }) else s.coxFree port k

/-! ## Termination (R276) -/

/-- A key-domain freed, its key erased, its frames without owner (R429). -/
def State.kdFree (s : State) (d : Nat) : State :=
  { s with kds := s.kds.set d KeyDom.reset, owners := s.owners.filter (fun p => p.2 ≠ d) }

/-- The context is terminated (R276). A saved block is gone at once with its operations, as is a parked one but for its fabric
commands on other memory than its own; a task with a slice on a block that is gone, or on units that are spilled, ends as well. A unit
whose release waits for tasks stays taken until they have ended. (log 22, DEDUCED) -/
def State.terminate (s : State) (ctx : Nat) : State :=
  let cs := s.crews.filter (fun c => c.ctx == ctx)
  let ids := cs.map (fun c => c.id)
  let s := cs.foldl (fun s c => s.haltCrew c.id) s
  let at_ := fun (blk : Nat) => ((s.block? blk).map (fun (b : Block) => b.place)).getD 1
  let s := cs.foldl (fun s c => if at_ c.blk = 1 then s
    else c.gates.foldl (fun s (g : GateRec) => s.freeUnits c.core g.unit g.units) s) s
  let inBlk := fun (o : Op) => o.handleArgs.any (fun i => (s.opHandle o (o.args.getD i 0#32)).space == 2)
  let ends := fun (o : Op) => o.ctx == ctx && (o.done || !o.pause.isEmpty || at_ o.blk == 1 || (at_ o.blk == 2 && (o.cls ≠ 3 || inBlk o)) ||
    (o.cls == 2 && (List.range (trSlices o.trec)).any (fun c => match s.sliceBlock o c with
      | none => true
      | some b => b.place ≠ 0 || (taskUnits o.opc o.trec o.mv o.sub (o.arg 2) c).any (fun u => b.spilled.getLsbD u))))
  let s := { s with
    crews := s.crews.filter (fun (c : Crew) => c.ctx ≠ ctx),
    -- operations run to retirement with their statuses dropped; one paused on a fault ends
    ops := (s.ops.filter (fun (o : Op) => !ends o)).map (fun (o : Op) =>
      if o.ctx = ctx then { o with dropped := true, window := some (s.opPart o) } else o),
    accfs := s.accfs.filter (fun (a : AccfReq) => !(s.block? a.blk).any (fun (b : Block) => b.ctx == ctx) ||
      (at_ a.blk == 0 && s.ops.any (fun o => a.tasks.contains o.id && !ends o))),
    saved := s.saved.filter (fun (x : Saved) => !(s.block? x.blk).any (fun (b : Block) => b.ctx == ctx)),
    spills := s.spills.filter (fun x => !(s.block? x.1).any (fun (b : Block) => b.ctx == ctx)),
    held := s.held.filter (fun (h : Held) => !(h.ctx == ctx && h.kind ≠ 3)),
    blocks := (s.blocks.filter (fun (b : Block) => !(b.ctx == ctx && (b.place == 1 || b.place == 2)))).map (fun (b : Block) => if b.ctx = ctx then { b with place := 3 } else b),
    relh := s.relh.filter (fun r => !ids.contains r.1) }
  let s := (s.launches.filter (fun l => l.ctx == ctx && (l.st == 1 || l.st == 2 || l.st == 6))).foldl (fun s l => s.setLaunch l.id 5) s
  let s := { s with launches := s.launches.filter (fun l => !(l.ctx == ctx && l.st == 5)) }
  let s := (List.range 32).foldl (fun s p => (List.range 8).foldl (fun s k =>
    if (s.coxSlot p k).st ≠ 0 ∧ (s.coxSlot p k).ctx = ctx then s.coxKill p k else s) s) s
  let s := (List.range 256).foldl (fun s d => if (s.kd d).st = 2 ∧ (s.kd d).ctx = ctx ∧ d ≠ 0 then s.kdFree d else s) s
  s.setCtxSt { s.ctxSt ctx with dead := true, sawV0 := false, stopped := false, tvecSet := false }

/-- Terminated blocks whose operations have all ended are gone. (log 22, DEDUCED) -/
def State.sweepBlocks (s : State) : State :=
  { s with blocks := s.blocks.filter (fun b => b.place ≠ 3 || s.ops.any (fun o => o.blk == b.id)) }

/-! ## The umpire (R274, R275) -/

/-- Lanes set in a mask. -/
def popcount (m : Mask) : Nat := (maskLanes m).length
/-- State code of a slot in PCSLOTS (R27). -/
def slotCode (p : PcSlot) : Nat := match p.st with
  | .free => 0
  | .running => 1
  | .parked => 2
/-- PCSLOTS of a crew (R27). (log 39, DEDUCED) -/
def pcslots (c : Crew) (k : Bool) : Nat := c.depth % 65536 * 65536 + slotCode c.b * 1024 + slotCode c.a * 256 + k.toNat
/-- The crew counts as exited: retired, or with an exited lane (R275). -/
def crewExited (c : Crew) : Bool := c.retired || c.exited ≠ 0#64

/-- UMPT that governs the group's cluster barriers: that of the rank-0 block, also once it has retired (R274). -/
def Block.cbarLimit (b : Block) : Word := b.leadUmpt.getD b.umpt
/-- Lanes in a crew's arrival masks now: barriers 0 to 15, then cluster barriers 0 to 3. -/
def Crew.arrived (c : Crew) : List Nat := (c.arrive ++ c.carrive).map popcount
/-- NARR of a crew, as it stands or as it stood when the crew retired (R275, R337). -/
def Crew.narrOf (c : Crew) (i : Nat) : Nat := (if c.retired then c.narr else c.arrived).getD i 0

/-- The diagnostic record of the umpire (R275). (log 39, DEDUCED) CNT of a cluster barrier of 32 crews or more is its low five bits (log 42, DESIGN CHOICE,
DESIGN CHOICE). -/
def umpireBody (s : State) (b : Block) (cl : Bool) (id sub cnt2 cnt : Nat) (p : Bool) (armed : Crew → Bool) (counted : Crew → Bool)
    (narr : Crew → Nat) : List Byte :=
  let cs := s.crewsOf b.id
  let bit := fun (f : Crew → Bool) => cs.foldl (fun n c => if f c then n ||| 2 ^ c.idx else n) 0
  let entry := fun i => match cs.find? (fun c => c.idx == i) with
    | none => List.replicate 16 0#8
    | some c => leBytes 8 (if c.a.st = .free then c.b.pc else c.a.pc).toNat ++ leBytes 4 c.regc.toNat ++
        leBytes 4 (c.retired.toNat * 4096 + slotCode c.b * 1024 + slotCode c.a * 256 + narr c % 256)
  leBytes 4 (cl.toNat * 2 ^ 20 + id * 65536 + sub * 256 + 0x12) ++ leBytes 4 b.blockId ++
    leBytes 4 (cnt2 % 32 * 65536 + cnt % 32 * 256 + p.toNat) ++ leBytes 4 (bit armed * 65536 + bit counted) ++
    leBytes 4 (bit (fun _ => true) * 65536 + bit crewExited) ++ leBytes 4 ((if cl then b.cbarLimit else b.umpt).toNat % 2 ^ 24) ++ leBytes 8 s.clock.toNat ++
    (List.range 16).flatMap entry

/-- The umpire posts its record and terminates the context; while the record is held it waits (R275, R276, R388). -/
def State.umpire (s : State) (b : Block) (cl : Bool) (id sub cnt2 : Nat) : State :=
  let body := if cl then
      -- the count of a cluster barrier is that of the group's crews (R213)
      umpireBody s b true id sub cnt2 (b.gsize * b.ncrews) (b.cbarP.getLsbD id) (fun c => (c.carrive.getD id 0#64) ≠ 0#64)
        (fun c => c.cin.getLsbD id) (fun c => c.narrOf (16 + id))
    else
      umpireBody s b false id sub cnt2 ((b.barCnt.getD id none).getD 0) (b.barP.getLsbD id) (fun c => c.armed.getLsbD id)
        (fun c => (b.barIn.getD id []).contains c.id) (fun c => c.narrOf id)
  let src := dieOfCore b.core * 64 + b.core / 4 % 10 * 4 + b.core % 4
  let h := s.mkRecord none b.ctx 4 b.ctx src (s.ctxDesc b.ctx).asid 0 body none (some (b.ctx, 0))
  match s.postRecord h with
  | (s, some _) => s.terminate b.ctx
  | (s, none) => s

end Sys2Proof.Machine
end

