-- ==== Sys2Proof/Machine/System.lean ====
section
/-!
DEFINITION. System.lean: barriers, gate calls, software traps, special registers, and the maintenance of fetches, caches and
translations (spec 10 R210 to R224, R228; 01 R27 to R31; 21 R382, R387; 22 R404 to R406).
-/

namespace Sys2Proof.Machine

open Sys2Proof

/-! ## Fields (R210) -/

/-- RA. -/
def sysRA (f : FormS) : BitVec 8 := f.body.extractLsb' 47 8
/-- RB. -/
def sysRB (f : FormS) : BitVec 8 := f.body.extractLsb' 39 8
/-- A field below bit 39. -/
def sysF (f : FormS) (hi lo : Nat) : Nat := bitsOf f.body.toNat hi lo
/-- A reserved bit is set in a form that uses RA, RB and the low n bits as told (R58, R210). -/
def sysBad (f : FormS) (ra rb : Bool) (n : Nat) : Bool :=
  (!ra && sysRA f ≠ 0#8) || (!rb && sysRB f ≠ 0#8) || sysF f 38 n ≠ 0
/-- A body that does nothing. -/
def sysNop (s : State) : Res Done := .ok { s := s, wr := [], ctl := false }

/-! ## Barriers (R211 to R213) -/

/-- A slot is freed of a wait on barrier id of the kind given. -/
def unwaitSlot (cl : Bool) (id : Nat) (p : PcSlot) : PcSlot :=
  match p.barWait with
  | some (k, i, _) => if k = cl ∧ i = id then { p with barWait := none } else p
  | none => p
/-- A slot waits on the barrier. -/
def waitsOn (cl : Bool) (id : Nat) (p : PcSlot) : Bool :=
  match p.barWait with
  | some (k, i, _) => k == cl && i == id
  | none => false

/-- Registers that all crews of a block share (R28); they read zero in a callee (R216). -/
def srBlock (n : Nat) : Bool := n == 0x1B || n == 0x1C || n == 0x2C || n == 0x2D || n == 0x31
/-- A completed bar.wait of a crew: it sees the SETS of block-scope registers by the other crews from now on (R221). -/
def seeBlockRegs (c : Crew) : Crew := { c with srOld := c.srOld.filter (fun o => !(srBlock o.sr && !o.own)) }

/-- The phase of barrier id completes: P is inverted, the masks of the counted crews cleared, the waiting slots released, whose crews
acquire what the arrivals released (R212, R213). Lanes that stay in the mask of a crew that was not counted are no arrival of the
next phase, whose CNT the next arrival gives (log 42, DESIGN CHOICE). -/
def State.completeBar (s : State) (blk id : Nat) : State :=
  match s.block? blk with
  | none => s
  | some b =>
    let counted := b.barIn.getD id []
    let s := (s.crews.filter (fun c => c.blk == blk && (waitsOn false id c.a || waitsOn false id c.b))).foldl (fun s c => s.acquire 2 c) s
    let s := s.modBlock blk (fun b =>
      { b with barP := b.barP ^^^ (1#16 <<< id), barCnt := b.barCnt.set id none, barIn := b.barIn.set id [], ump := b.ump.set id 0 })
    { s with crews := s.crews.map (fun (c : Crew) =>
      if c.blk ≠ blk then c
      else
        let c : Crew := if counted.contains c.id then { c with arrive := c.arrive.set id 0#64 } else c
        let w := waitsOn false id c.a || waitsOn false id c.b
        let c : Crew := if w then seeBlockRegs c else c
        { c with a := unwaitSlot false id c.a, b := unwaitSlot false id c.b, armed := if w then c.armed &&& ~~~(1#16 <<< id) else c.armed }) }

/-- An arrival of the lanes of a mask with a resolved count; a crew with an exited lane never arrives (R212 rules 1 to 3). (log 23, DEDUCED) -/
def State.arriveBar (s : State) (blk id cnt : Nat) (crew : Nat) (act : Mask) : State :=
  match s.block? blk, s.crew? crew with
  | some b, some c =>
    let m := c.arrive.getD id 0#64 ||| act
    let p := b.barP.getLsbD id
    let s := s.modCrew crew (fun c =>
      { c with arrive := c.arrive.set id m, armed := c.armed ||| (1#16 <<< id),
               armedP := (c.armedP &&& ~~~(1#16 <<< id)) ||| (if p then 1#16 <<< id else 0#16) })
    let full := m == BitVec.allOnes 64 && c.exited == 0#64 && !(b.barIn.getD id []).contains crew
    let counted := if full then crew :: b.barIn.getD id [] else b.barIn.getD id []
    let s := s.modBlock blk (fun b => { b with barCnt := b.barCnt.set id (some cnt), barIn := b.barIn.set id counted })
    let s := s.releaseAt 2 c
    if full ∧ cnt ≤ counted.length then s.completeBar blk id else s
  | _, _ => s

/-- bar, bar.arrive and bar.wait (R211 to R213). (log 20, DEDUCED) (log 23, DEDUCED) -/
def runBar (f : FormS) (arrive wait : Bool) (s : State) : Out :=
  issue { specS f [] [] .none with ends := true } (fun _ => sysBad f false false (if arrive then 9 else 4))
    (fun x s =>
      let id := sysF f 3 0
      let n := sysF f 8 4
      match s.block? x.c.blk with
      | none => sysNop s
      | some b =>
        if b.ncrews < n then .error (.raise illField)
        else if x.act = 0#64 then sysNop s
        else if x.c.callee then .error (gateForbid x.c)
        else if arrive then
          let cnt := if n = 0 then b.ncrews else n
          if x.c.arrive.getD id 0#64 &&& x.act ≠ 0#64 then .error .hold
          else
            let waiting := fun (s : State) => s.modCrew x.id (fun c =>
              c.setSlot x.k { c.slot x.k with barWait := some (false, id, b.barP.getLsbD id) })
            match b.barCnt.getD id none with
            | some k =>
              if k ≠ cnt then sysNop ((waiting s).umpire b false id 1 cnt)
              else sysNop ((if wait then waiting s else s).arriveBar b.id id cnt x.id x.act)
            | none => sysNop ((if wait then waiting s else s).arriveBar b.id id cnt x.id x.act)
        else if !x.c.armed.getLsbD id then sysNop s
        else if x.c.armedP.getLsbD id = b.barP.getLsbD id then .error .hold
        else sysNop ((s.acquire 2 x.c).modCrew x.id (fun c => { seeBlockRegs c with armed := c.armed &&& ~~~(1#16 <<< id) }))) s

/-- bar (R211). -/
def execBar (f : FormS) (s : State) : Out := runBar f true true s
/-- bar.arrive (R211). -/
def execBarArrive (f : FormS) (s : State) : Out := runBar f true false s
/-- bar.wait (R211). -/
def execBarWait (f : FormS) (s : State) : Out := runBar f false true s

/-- The blocks of a block's cluster group (R213, R256). -/
def State.groupBlocks (s : State) (b : Block) : List Block :=
  s.blocks.filter (fun q => q.launch == b.launch && q.group == b.group)
/-- The block of the group that holds the cluster-barrier state: that of rank 0, or once it has retired that of the lowest rank left
(R274, R375). -/
def State.groupLead (s : State) (b : Block) : Block :=
  (s.groupBlocks b).foldl (fun m q => if q.rank < m.rank then q else m) b

/-- A cluster barrier completes when every crew of every block of the group has been counted (R213). -/
def State.tryCbar (s : State) (b : Block) (id : Nat) : State :=
  let lead := s.groupLead b
  let keys := (s.groupBlocks b).map (fun q => q.id)
  let here := s.crews.filter (fun c => keys.contains c.blk && c.cin.getLsbD id)
  if here.length < b.gsize * b.ncrews then s
  else
    let s := here.foldl (fun s c => s.acquire 3 c) s
    let s := s.modBlock lead.id (fun q =>
      { q with cbarP := q.cbarP ^^^ (1#4 <<< id), cbarOn := q.cbarOn.set id false, cump := q.cump.set id 0 })
    { s with crews := s.crews.map (fun (c : Crew) =>
      if keys.contains c.blk then
        { c with carrive := c.carrive.set id 0#64, cin := c.cin &&& ~~~(1#4 <<< id), a := unwaitSlot true id c.a, b := unwaitSlot true id c.b }
      else c) }

/-- cbar (R211, R213). -/
def execCbar (f : FormS) (s : State) : Out :=
  issue { specS f [] [] .none with ends := true } (fun _ => sysBad f false false 2)
    (fun x s =>
      let id := sysF f 1 0
      match s.block? x.c.blk with
      | none => sysNop s
      | some b =>
        if x.act = 0#64 then sysNop s
        else if x.c.callee then .error (gateForbid x.c)
        else if x.c.carrive.getD id 0#64 &&& x.act ≠ 0#64 then .error .hold
        else
          let lead := s.groupLead b
          let s := s.modBlock lead.id (fun q => { q with cbarOn := q.cbarOn.set id true })
          let m := x.c.carrive.getD id 0#64 ||| x.act
          -- a crew with an exited lane never arrives (R212)
          let full := m == BitVec.allOnes 64 && x.c.exited == 0#64
          let s := s.modCrew x.id (fun c =>
            { c.setSlot x.k { c.slot x.k with barWait := some (true, id, lead.cbarP.getLsbD id) } with
              carrive := c.carrive.set id m, cin := if full then c.cin ||| (1#4 <<< id) else c.cin })
          sysNop ((s.releaseAt 3 x.c).tryCbar b id)) s

/-! ## Gate calls (R214 to R217, R404, R405) -/

/-- A gate entry, decoded (R404). -/
structure GateEntry where
  n : Nat
  minpriv : Nat
  tdom : Nat
  pass : Word
  ret : Word
  budget : Nat
  entry : DWord
  ht : DWord
  ttvec : DWord
  woff : Nat
  wsize : Nat
deriving DecidableEq, Repr

/-- The entry's fields, none when it is invalid (R405). -/
def State.gateEntry (s : State) (bs : List Byte) : Option GateEntry :=
  let w := fun i => leNat ((bs.drop (4 * i)).take 4)
  let q := fun i => leNat ((bs.drop (8 * i)).take 8)
  let nreg := bitsOf (w 0) 29 28
  let n := 16 * 2 ^ nreg
  let used := w 1 ||| w 2
  let ht := BitVec.ofNat 64 (q 3)
  let htEnd := htVa ht + 32 * (htN ht + 1)
  let bad := !bitOf (w 0) 31 || bitOf (w 0) 30 || bitsOf (w 0) 27 26 ≠ 0 || bitsOf (w 0) 23 16 ≠ 0 || nreg == 3 ||
    bitsOf (w 0) 25 24 == 3 || bitsOf (q 3) 63 57 ≠ 0 || bitsOf (q 3) 15 11 ≠ 0 || bitsOf (w 10) 31 25 ≠ 0 ||
    bitsOf (w 10) 15 9 ≠ 0 || leNat (bs.drop 44) ≠ 0 || !(s.domain (bitsOf (w 0) 15 0)).valid || !canonical (q 2) ||
    (decide (n < 64) && decide (used / 2 ^ (n - 8) ≠ 0)) || decide (2 ^ 64 < htEnd) || !canonical ((htEnd - 1) % 2 ^ 64)
  if bad then none
  else some
    { n := n, minpriv := bitsOf (w 0) 25 24, tdom := bitsOf (w 0) 15 0, pass := BitVec.ofNat 32 (w 1), ret := BitVec.ofNat 32 (w 2),
      budget := w 3, entry := BitVec.ofNat 64 (q 2), ht := ht, ttvec := BitVec.ofNat 64 (q 4), woff := bitsOf (w 10) 24 16,
      wsize := bitsOf (w 10) 8 0 }

/-- The crew is divided for a gate or gret issued from slot k (R215 subcode 0). -/
def divided (c : Crew) (k : Bool) (act : Mask) : Bool :=
  (c.slot (!k)).st ≠ .free || c.depth ≠ 0 || act ≠ (c.slot k).mask

/-- VA of gate entry g of a crew's domain (R404). -/
def gateVa (c : Crew) (g : Nat) : Nat := ((decodeDom c.dent).gtab + 64 * g) % 2 ^ 64

/-- The first check of R215 and R405 that fails, or the entry. (log 23, DEDUCED) -/
def State.gateCheck (s : State) (x : Ctx) (g : Nat) : Except Nat GateEntry :=
  let c := x.c
  if divided c x.k x.act then .error 0
  else
    let d := decodeDom c.dent
    let die := dieOfCore c.core
    let e := if d.gtab = 0 ∨ d.gtn < g then none
      else (s.entryBytes c.asid die (gateVa c g) 64 10).bind s.gateEntry
    match e with
    | none => .error 1
    | some e =>
      let out := (List.range 32).any (fun r => (e.pass ||| e.ret).getLsbD r && !allocated c.n r)
      let len := match s.block? c.blk with
        | some b => b.bmLen
        | none => 0
      if c.priv < e.minpriv then .error 2
      else if 4 ≤ c.gates.length then .error 3
      else if out then .error 4
      else if e.wsize ≠ 0 ∧ len < (e.woff + e.wsize) * 1024 then .error 5
      else .ok e

/-- A gate entry, or the domain entry that it names, lies on a stack that has still to enter service (R422). -/
def State.gateWaits (s : State) (c : Crew) (g : Nat) : Bool :=
  s.entryRead c.asid (dieOfCore c.core) (gateVa c g) 64 == .wait ||
    (s.entryBytes c.asid (dieOfCore c.core) (gateVa c g) 64 10).any (fun bs =>
      s.tableReady (s.mgmt.domtab.toNat + 64 * leNat (bs.take 2)) == .wait)

/-- No flag of the crew and no OCNT COUNT is above zero (R215). -/
def crewIdle (c : Crew) : Bool := c.flags.all (fun f => f == 0) && (List.range 4).all (fun k => c.count k == 0)

/-- Every instruction in flight completes; no flag counts one, so only the time of its completion is fixed by this (log 3, DESIGN CHOICE). (log 23, DEDUCED) -/
def completeFlights (s : State) (c : Crew) : Crew := { finishAll s c (c.flights.map (fun f => f.id)) with flights := [] }

/-- The return record of a gate (R215). -/
def gateRecord (c : Crew) (x : Ctx) (e : GateEntry) (g unit : Nat) (trapu : Bool) : GateRec :=
  { pc := x.next, mask := x.act, n := c.n, regs := c.regs, asid := c.asid, ht := c.ht, tvec := c.tvec, priv := c.priv, dom := c.dom,
    dent := c.dent, window := c.window, mode := c.mode, fp := c.fp, rng := c.rng, queues := c.queues, regc := c.regc, dsh := c.dsh,
    dsPart := c.dsPart, dsValid := c.dsValid, ocnt := c.ocnt, gatestat := c.gatestat, trapq := c.trapq, insvc := c.insvc,
    svcSlot := c.svcSlot, skip := c.skip, trapcause := c.trapcause, trapva := c.trapva, trecs := c.trecs, budget := c.budget,
    trapu := trapu, gate := g, retMask := e.ret, unit := unit, units := e.n / 16 }

/-- The crew in the callee (R215, R216). -/
def enterCallee (s : State) (c : Crew) (x : Ctx) (e : GateEntry) (g unit : Nat) (trapu : Bool) (line : List Byte) : Crew :=
  let d := s.domain e.tdom
  let off := match s.block? c.blk with
    | some b => b.bmOff
    | none => 0
  let regs := (List.range 256).map (fun r =>
    if r < 32 ∧ e.pass.getLsbD r then c.regs.getD r Row.zero else Row.zero)
  let slotA : PcSlot := { PcSlot.empty with st := .running, pc := e.entry, mask := x.act, issuedAt := s.order, line := line }
  let rec0 := gateRecord c x e g unit trapu
  let c : Crew := { c with gates := rec0 :: c.gates, n := e.n, regs := regs, asid := d.asid, ht := e.ht, tvec := some e.ttvec, priv := d.priv }
  let c : Crew := { c with dom := e.tdom, dent := s.domainBytes e.tdom, window := some (off + e.woff * 1024, e.wsize * 1024) }
  let c : Crew := { c with mode := 0#32, fp := Row.zero, rng := mkRow (fun l => BitVec.ofNat 32 (0x9E3779B9 + l)), regc := 0#32 }
  let c : Crew := { c with queues := List.replicate 8 0#32, dsh := d.dsh, dsValid := d.dsv, dsPart := some (65536 * c.core + 4096 * unit, 4096) }
  let c : Crew := { c with ocnt := List.replicate 4 0#32, gatestat := 0#32, trapq := [], insvc := false, svcSlot := false, skip := false }
  let c : Crew := { c with trapcause := 0#32, trapva := 0#64, trecs := List.replicate 16 (List.replicate 8 0#32), depth := 0, srOld := [] }
  let c : Crew := { c with budget := if e.budget = 0 then none else some e.budget, a := slotA, b := PcSlot.empty }
  markRegion c false e.entry

/-- gate (R215): it waits for the crew's flags and operations, then makes its checks, then waits for a window in the order in
which the gates of its core became otherwise eligible. (log 20, DEDUCED) (log 23, DEDUCED) -/
def execGate (f : FormS) (s : State) : Out :=
  issue { specS f [] [] .none with ends := true } (fun _ => sysBad f false false 9)
    (fun x s =>
      let g := sysF f 7 0
      if !crewIdle x.c then .error .hold
      else
        match s.gateCheck x g with
        | .error sub =>
          let d := decodeDom x.c.dent
          if sub ≠ 1 ∨ d.gtab = 0 ∨ d.gtn < g then .error (.raise (gateCause sub g))
          else if s.gateWaits x.c g then .error .hold
          else .error (.raiseIn (s.noteTable x.c.asid (gateVa x.c g)) (gateCause sub g))
        | .ok e =>
          let s := s.useDomain e.tdom
          match s.checkTarget x.c.core (s.domain e.tdom).asid e.entry x.act true with
          | .error (.raise k) => .error (.raiseIn (s.noteFetch x.c.core (s.domain e.tdom).asid (pcLine e.entry) s) k)
          | .error k => .error k
          | .ok line =>
            let k := s.core x.c.core
            let mine := k.gateWait.head?.getD x.id == x.id
            match (if mine then unitHole k.gateUse (e.n / 16) else none) with
            | none =>
              .error (.holdIn (if k.gateWait.contains x.id then s
                else s.modCore x.c.core (fun k => { k with gateWait := k.gateWait ++ [x.id] })))
            | some u =>
              let s := s.modCore x.c.core (fun k =>
                { k with gateWait := k.gateWait.filter (fun i => i ≠ x.id),
                         gateUse := (List.range 16).map (fun i => if u ≤ i ∧ i < u + e.n / 16 then true else k.gateUse.getD i false) })
              let s := s.noteEntry x.c.asid (dieOfCore x.c.core) (gateVa x.c g) 64
              let s := (s.releaseAt 1 x.c).acquire 1 x.c
              let s := s.noteLine x.c.core (s.domain e.tdom).asid (pcLine e.entry) line
              .ok { s := s.modCrew x.id (fun c => enterCallee s (completeFlights s c) x e g u (sysF f 8 8 == 1) line), wr := [], ctl := true }) s

/-- gret (R217). (log 23, DEDUCED) -/
def execGret (f : FormS) (s : State) : Out :=
  issue { specS f [] [] .none with ends := true } (fun _ => sysBad f false false 17)
    (fun x s =>
      if !crewIdle x.c then .error .hold
      else
        match x.c.gates with
        | [] => .error (.raise (gateCause 6 0))
        | g :: rest =>
          if divided x.c x.k x.act then .error (.raise (gateCause 6 g.gate))
          else
            let fail := sysF f 16 16 == 1
            let stat := 2 ^ 31 + (if fail then 2 ^ 28 else 0) + sysF f 15 0
            let s := ((s.freeUnits x.c.core g.unit g.units).releaseAt 1 x.c).acquire 1 x.c
            let s := s.modCrew x.id (fun c =>
              let c := completeFlights s c
              let regs := if fail then g.regs
                else (List.range 256).map (fun r =>
                  if r < 32 ∧ g.retMask.getLsbD r then mergeRow (g.regs.getD r Row.zero) (c.regs.getD r Row.zero) g.mask 0xFFFFFFFF#32
                  else g.regs.getD r Row.zero)
              popRecord c g rest g.mask regs stat)
            .ok { s := if fail && g.trapu then s.gateFault x.id g.pc stat else s, wr := [], ctl := true }) s

/-! ## Software traps (R220, R387) -/

/-- trap and brk: a crew-level cause with CODE, which returns at the next instruction. -/
def runTrap (f : FormS) (code : Nat) (s : State) : Out :=
  issue (specS f [] [] .none) (fun _ => sysBad f false false 16)
    (fun x s => if x.act = 0#64 then sysNop s else .error (.raise (crewCause code 0 (sysF f 15 0) 0#64 0#64 true))) s
/-- trap (R220). -/
def execTrap (f : FormS) (s : State) : Out := runTrap f 0x14 s
/-- brk (R220): a system cause under BRKSYS. -/
def execBrk (f : FormS) (s : State) : Out := runTrap f 0x15 s

/-- TRAPQ.SKIP as an instruction issued now sees it (R60, R383). -/
def State.seenSkip (s : State) (c : Crew) : Bool := (srWord (seenSr s c 0x20 [[BitVec.ofNat 32 c.skip.toNat]]) 0).getLsbD 0

/-- RETURN FROM A TRAP: the slot continues at the entry's return PC, or after the raising instruction under SKIP, with the
entry's lanes less those that have exited; the next queued trap is then delivered (R385, R387). -/
def State.trapReturn (s : State) (id : Nat) (k : Bool) (e : TrapEntry) (rest : List TrapEntry) : State :=
  let s := s.modCrew id (fun c =>
    let pc := if s.seenSkip c then e.after else e.ret
    let m := e.mask &&& ~~~c.exited
    let c := c.setSlot k (if m = 0#64 then PcSlot.empty else { c.slot k with st := .running, pc := pc, mask := m, line := [], barWait := none })
    let c : Crew := { c with trapq := rest, insvc := false, svcSlot := false, trapcause := 0#32, trapva := 0#64 }
    markRegion c k pc)
  if rest.isEmpty then s else s.deliver id

/-- tret (R387). -/
def execTret (f : FormS) (s : State) : Out :=
  issue (specS f [] [] .none) (fun _ => f.body ≠ 0#55)
    (fun x s =>
      match x.c.trapq with
      | [] => sysNop s
      | e :: rest =>
        if x.act = 0#64 ∨ !x.c.insvc then sysNop s
        else if x.c.svcSlot ≠ x.k ∨ (e.mask &&& ~~~x.c.exited) &&& ~~~x.act ≠ 0#64 then .error (.raise (sysCause 0x08 0 0 0#64 0#64))
        else .ok { s := s.trapReturn x.id x.k e rest, wr := [], ctl := true }) s

/-! ## Instruction fetch (R222, R223) -/

/-- Lines that a predicate names leave the instruction caches of the cores it is given for. -/
def State.dropLines (s : State) (p : ILine → Bool) : State := { s with icache := s.icache.filter (fun l => !p l) }

/-- ifence (R222): the core's cached and buffered lines are discarded. (log 20, DEDUCED) -/
def execIfence (f : FormS) (s : State) : Out :=
  issue (specS f [] [] .none) (fun _ => f.body ≠ 0#55)
    (fun x s =>
      let s := s.dropLines (fun l => l.core == x.c.core)
      sysNop { s with crews := s.crews.map (fun (c : Crew) =>
        if c.core = x.c.core then { c with a := { c.a with line := [] }, b := { c.b with line := [] } } else c) }) s

/-- The first page of a range that does not translate, from page k of n on. (log 28, DEDUCED) -/
def State.rangeFault (s : State) (asid va : Nat) : Nat → Nat → Option (XFail × Nat)
  | 0, _ => none
  | n + 1, k =>
    let a := if k = 0 then va else va / 65536 * 65536 + 65536 * k
    if !canonical (a % 2 ^ 64) then some ({ sub := 0, bad := none, lost := none }, a % 2 ^ 64)
    else
      match s.place asid (a % 2 ^ 64) { r := false, w := false, x := false, space := 0 } 13 with
      | .error e => some (e, a % 2 ^ 64)
      | .ok _ => State.rangeFault s asid va n (k + 1)

/-- icinv, cwb and cinv (R223): a release, the translation of the whole range, then the effect on the lines it touches. Memory
here is what the L2 slices and their backing memory hold together, so writing back and dropping lines changes no byte of it. (log 20, DEDUCED) -/
def runMaint (f : FormS) (inv : Bool) (s : State) : Out :=
  issue { specS f [grp (sysRA f) 2, one (sysRB f)] [] .none with priv := true }
    (fun c => sysBad f true true 0 || ctlQueueBad c (sysRA f).toNat 2 || ctlQueueBad c (sysRB f).toNat 1)
    (fun x s =>
      if x.act = 0#64 then sysNop s
      else
        let va := (x.wide s (sysRA f) .b64 x.l0).toNat
        let len := (rowAt (x.plain s (sysRB f).toNat) x.l0).toNat
        let s := s.release
        if len = 0 then sysNop s
        else
          match s.rangeFault x.c.asid va ((va % 65536 + len + 65535) / 65536) 0 with
          | some (e, a) =>
            (match e.lost with
            | some pa => .error (.stop (.noSuchPhysical pa))
            | none => .error (s.xfailSig e a (1#64 <<< x.l0)))
          | none =>
            sysNop (if inv then s.dropLines (fun l => l.asid == x.c.asid && decide (va / 64 * 64 ≤ l.va) && decide (l.va < va + len)) else s)) s
/-- icinv (R223). -/
def execIcinv (f : FormS) (s : State) : Out := runMaint f true s
/-- cwb (R223). (log 28, DEDUCED) -/
def execCwb (f : FormS) (s : State) : Out := runMaint f false s
/-- cinv (R223). (log 28, DEDUCED) -/
def execCinv (f : FormS) (s : State) : Out := runMaint f false s

/-! ## TLB invalidation (R224, R400) -/

/-- A valid domain names an address space with a root (R402). -/
def State.domainNames (s : State) (p : Nat × Nat) : Bool :=
  (List.range 65536).any (fun d => let e := s.domain d; e.valid && e.asid == p.1 && e.root == p.2)
/-- Older roots of an address space are no longer used once its translations are invalidated, unless a valid domain still names
them (R402). (log 28, DEDUCED) -/
def State.latestRoots (s : State) : List (Nat × Nat) → List Nat → List (Nat × Nat)
  | [], _ => []
  | p :: ps, seen =>
    if seen.contains p.1 && !s.domainNames p then State.latestRoots s ps seen else p :: State.latestRoots s ps (p.1 :: seen)

/-- tlbinv.va (R224). -/
def execTlbinvVa (f : FormS) (s : State) : Out :=
  issue { specS f [grp (sysRA f) 2, one (sysRB f)] [] .none with priv := true }
    (fun c => sysBad f true true 2 || sysF f 1 0 == 3 || ctlQueueBad c (sysRA f).toNat 2 || ctlQueueBad c (sysRB f).toNat 1)
    (fun x s =>
      if x.act = 0#64 then sysNop s
      else
        let va := (x.wide s (sysRA f) .b64 x.l0).toNat
        let asid := (rowAt (x.plain s (sysRB f).toNat) x.l0).toNat % 65536
        let size := match sysF f 1 0 with
          | 0 => 0x10000
          | 1 => 0x200000
          | _ => 0x40000000
        let s := s.release.invalidate (some asid) (some (va / size * size, size))
        sysNop { s with tlb := s.tlb.filter (fun t => !(t.asid == asid && t.size == size && t.va == va / size * size)) }) s
/-- tlbinv.asid (R224): handle and gate entries held by the cores go as well (R400). (log 28, DEDUCED) -/
def execTlbinvAsid (f : FormS) (s : State) : Out :=
  issue { specS f [one (sysRB f)] [] .none with priv := true }
    (fun c => sysBad f false true 0 || ctlQueueBad c (sysRB f).toNat 1)
    (fun x s =>
      if x.act = 0#64 then sysNop s
      else
        let asid := (rowAt (x.plain s (sysRB f).toNat) x.l0).toNat % 65536
        let s := s.release.invalidate (some asid) none
        let keep := s.latestRoots (s.asids.filter (fun p => p.1 == asid)) []
        sysNop { s with tlb := s.tlb.filter (fun t => t.asid ≠ asid), hcache := s.hcache.filter (fun h => h.asid ≠ asid),
                        asids := keep ++ s.asids.filter (fun p => p.1 ≠ asid) }) s
/-- tlbinv.all (R224). (log 28, DEDUCED) -/
def execTlbinvAll (f : FormS) (s : State) : Out :=
  issue { specS f [] [] .none with priv := true } (fun _ => sysBad f false false 0)
    (fun x s =>
      if x.act = 0#64 then sysNop s
      else
        let s := s.release.invalidate none none
        sysNop { s with tlb := [], hcache := [], asids := s.latestRoots s.asids [] }) s

/-- sigh (R228). -/
def execSigh (f : FormS) (s : State) : Out :=
  issue { specS f [] [] .none with priv := true, ends := true } (fun _ => sysBad f false false 11)
    (fun x s => if x.act = 0#64 then sysNop s else sysNop (s.release.postMsix (sysF f 10 0))) s

/-! ## Special registers (R28, R221) -/

/-- The numbers of R28. -/
def srKnown (n : Nat) : Bool :=
  decide (n ≤ 8) || (decide (0x10 ≤ n) && decide (n ≤ 0x1C)) || (decide (0x20 ≤ n) && decide (n ≤ 0x25)) ||
    (decide (0x28 ≤ n) && decide (n ≤ 0x2D)) || n == 0x30 || n == 0x31 || n == 0x38
/-- 64-bit special registers. -/
def srWide (n : Nat) : Bool := n == 0x22 || n == 0x23 || n == 0x2C || n == 0x38
/-- Registers that a SETS may write in the user view (R28): the others are read-only there. -/
def srUser (n : Nat) : Bool := (decide (0x18 ≤ n) && decide (n ≤ 0x1C)) || n == 0x20 || n == 0x23 || n == 0x30 || n == 0x31

/-- CLOCK as a die reads it: dies differ by at most 2 (R31). (log 27, DEDUCED) -/
def State.clockOf (s : State) (die : Nat) : DWord := s.clock + BitVec.ofNat 64 (Config.free 0 [23, die] % 3)
/-- TRAPQ (R383). -/
def trapqWord (c : Crew) : Nat :=
  (if c.insvc then 2 ^ 31 else 0) + (if c.insvc && c.svcSlot then 2 ^ 30 else 0) + c.trapq.length * 2 ^ 24 + c.skip.toNat

/-- A special register of crew, block or context scope, as the user or the privileged view reads it (R6, R28, R29). (log 27, DEDUCED) -/
def State.srCommon (s : State) (c : Crew) (k : Bool) (n : Nat) (p : Bool) : Nat :=
  let b := s.block? c.blk
  let blk := fun (f : Block → Nat) => if c.callee then 0 else (b.map f).getD 0
  let idn := fun (f : Block → Nat) => (b.map f).getD 0
  if 0x10 ≤ n ∧ n ≤ 0x17 then (c.queues.getD (n - 0x10) 0#32).toNat
  else if 0x28 ≤ n ∧ n ≤ 0x2B then (c.oc (n - 0x28)).toNat
  else match n with
    | 0x01 => 64
    | 0x02 => if p then c.qslot * 64 + c.quad * 16 + c.idx else c.idx
    | 0x03 => idn (fun b => b.blockId)
    | 0x04 => idn (fun b => b.nblocks)
    | 0x05 =>
      let u := idn (fun b => b.group * 4 + b.rank)
      if p then u / 64 * 64 + clusterOfCore c.core % 64 else u
    | 0x06 =>
      let u := idn (fun b => b.vcore)
      if p then u / 256 * 256 + dieOfCore c.core * 64 + c.core / 4 % 10 * 4 + c.core % 4 else u
    | 0x07 => c.regc.toNat
    | 0x08 => pcslots c k
    | 0x18 => c.mode.toNat
    | 0x1B => blk (fun b => b.lscale.toNat)
    | 0x1C => blk (fun b => b.ovf.toNat)
    | 0x20 => trapqWord c
    | 0x21 => if c.insvc then c.trapcause.toNat else 0
    | 0x22 => if c.insvc then c.trapva.toNat else 0
    | 0x23 => (s.tvecOf c).toNat
    | 0x24 => c.gates.length
    | 0x25 => c.gatestat.toNat
    | 0x2C => blk (fun b => b.itrange.toNat)
    | 0x2D => blk (fun b => b.fixup.toNat)
    | 0x30 => c.pfmode.toNat
    | 0x31 => blk (fun b => b.umpt.toNat)
    | 0x38 => (s.clockOf (dieOfCore c.core)).toNat
    | _ => 0

/-- The rows that a special register reads as: one, or the low and the high one of a 64-bit register. (log 27, DEDUCED) -/
def State.srRows (s : State) (c : Crew) (k : Bool) (n : Nat) (p : Bool) : List Row :=
  if n = 0x00 then [mkRow (fun l => BitVec.ofNat 32 l)]
  else if n = 0x19 then [c.fp]
  else if n = 0x1A then [c.rng]
  else
    let v := s.srCommon c k n p
    if srWide n then [List.replicate 64 (BitVec.ofNat 32 v), List.replicate 64 (BitVec.ofNat 32 (v / 2 ^ 32))]
    else [List.replicate 64 (BitVec.ofNat 32 v)]

/-- gets and getsp (R221). RNGSEED and TRAPQ and the like are read at issue; a register set less than 4 cycles ago may still
read as it did before (R60), RNGSEED excepted (R141). -/
def runGets (f : FormS) (p : Bool) (s : State) : Out :=
  let n := sysF f 7 0
  let r := sysRA f
  let w := if srWide n then 2 else 1
  issue { specS f [] [grp r w] (.fixed 4) with priv := p }
    (fun c => sysBad f true false 8 || !srKnown n || ctlQueueBad c r.toNat w)
    (fun x s =>
      let raw := match s.crew? x.id with
        | some c => c
        | none => x.c
      let now := s.srRows raw x.k n p
      let rows := if n = 0x1A then now
        -- a SETS of TRAPQ changes SKIP alone (R383)
        else if n = 0x20 then now.map (fun r => r.map (fun w => (w &&& 0xFFFFFFFE#32) ||| BitVec.ofNat 32 (s.seenSkip raw).toNat))
        else seenSr s raw n now
      .ok { s := s, wr := (List.range w).map (fun i => { reg := r.toNat + i, row := rows.getD i Row.zero, mask := x.act, bits := 0xFFFFFFFF#32 }),
            ctl := false }) s
/-- gets (R221). -/
def execGets (f : FormS) (s : State) : Out := runGets f false s
/-- getsp (R221). -/
def execGetsp (f : FormS) (s : State) : Out := runGets f true s

/-- A MODE value writes a reserved RND code (R85). (log 27, DEDUCED) -/
def modeBad (v : Nat) : Bool := [0, 4, 8, 12, 16, 20].any (fun i => decide (5 < bitsOf v (i + 2) i))

/-- QSTATE as a privileged write leaves it: undefined, and so reading 0, where it would break R18 (R21; DESIGN CHOICE for the zero). (log 27, DEDUCED) -/
def qstateSet (c : Crew) (q v : Nat) : Word :=
  let w := BitVec.ofNat 32 (v % 2 ^ 21 + (if bitOf v 31 then 2 ^ 31 else 0))
  let regs := (List.range (qLen w)).map (fun i => qBase w + i)
  let ok := regs.all (fun r => decide (r < c.n - 8)) &&
    (List.range 8).all (fun j => j == q || regs.all (fun r => !qHas (c.queues.getD j 0#32) r))
  if qV w && !ok then 0#32 else w

/-- The diagnostic permission of the context's domain (R57, R402). (log 27, DEDUCED) -/
def crewDiag (c : Crew) : Bool :=
  match c.gates.getLast? with
  | some g => (decodeDom g.dent).diag
  | none => (decodeDom c.dent).diag

/-- The state after a write of a special register, or the cause it raises (R221). `v` is the value of lane l0, `row` the row. (log 27, DEDUCED) -/
def State.setSr (s : State) (x : Ctx) (n : Nat) (p : Bool) (v : Nat) (row : Row) : Res State :=
  let id := x.id
  let w : Word := BitVec.ofNat 32 v
  let md := fun (f : Crew → Crew) => Except.ok (s.modCrew id f)
  let blk := fun (f : Block → Block) => Except.ok (if x.c.callee then s else s.modBlock x.c.blk f)
  if n = 0x18 then
    if bitOf v 31 && !crewDiag x.c then .error (.raise privCause)
    else if modeBad v then .error (.raise illField)
    else md (fun c => { c with mode := w &&& 0xFFF7FFFF#32 })
  else if n = 0x19 then md (fun c => { c with fp := mergeRow c.fp (row.map (fun b => b &&& 0x7F#32)) x.act 0xFFFFFFFF#32 })
  else if n = 0x1A then md (fun c => { c with rng := mergeRow c.rng row x.act 0xFFFFFFFF#32 })
  else if n = 0x1B then blk (fun b => { b with lscale := w &&& 0xFF#32 })
  else if n = 0x1C then blk (fun b => { b with ovf := w &&& 0x1F#32 })
  else if n = 0x20 then md (fun c => { c with skip := bitOf v 0 })
  else if n = 0x23 then
    if x.c.callee then md (fun c => { c with tvec := some (BitVec.ofNat 64 v) })
    else .ok (s.setCtxSt { s.ctxSt x.c.ctx with tvec := BitVec.ofNat 64 v, tvecSet := true })
  else if n = 0x30 then
    if 2 ≤ bitsOf v 3 2 ∨ bitsOf v 1 0 = 3 then .error (.raise illField) else md (fun c => { c with pfmode := w &&& 0xF#32 })
  else if n = 0x31 then blk (fun b => { b with umpt := w &&& 0xFFFFFF#32 })
  else if !p then .ok s
  else if 0x10 ≤ n ∧ n ≤ 0x17 then md (fun c => { c with queues := c.queues.set (n - 0x10) (qstateSet c (n - 0x10) v) })
  else if n = 0x07 then md (fun c => { c with regc := w })
  else if 0x28 ≤ n ∧ n ≤ 0x2B then md (fun c => c.setOc (n - 0x28) (w &&& 0x8F0000FF#32))
  else if n = 0x25 then md (fun c => { c with gatestat := w &&& 0xF0FFFFFF#32 })
  else .ok s

/-- A crew whose registers a SETS of register n by the crew `x` changes: itself, and for a register of block or context scope the
others of the block or of the context that are in no gate call (R28, R216, R382). -/
def setsReach (x c : Crew) (n : Nat) : Bool :=
  c.id == x.id || (!x.callee && !c.callee && ((srBlock n && c.blk == x.blk) || (n == 0x23 && c.ctx == x.ctx)))

/-- sets and setsp (R28, R221): a register that changes may still be seen as it was, by the crew itself for 4 cycles (R60), by
others that share it for a time that is open: until their next completed bar.wait at the latest for a register of the block, and
a finite time for TVEC (R221, R382). (log 27, DEDUCED) -/
def runSets (f : FormS) (p : Bool) (s : State) : Out :=
  let n := sysF f 7 0
  let r := sysRA f
  let w := if srWide n then 2 else 1
  issue { specS f [grp r w] [] (.fixed 4) with priv := p, deny := !p && srKnown n && !srUser n }
    (fun c => sysBad f true false 8 || !srKnown n || ctlQueueBad c r.toNat w)
    (fun x s =>
      if x.act = 0#64 then sysNop s
      else
        let lo := x.plain s r.toNat
        let v := (rowAt lo x.l0).toNat + (if w = 2 then (rowAt (x.plain s (r.toNat + 1)) x.l0).toNat * 2 ^ 32 else 0)
        match s.setSr x n p v lo with
        | .error e => .error e
        | .ok s1 =>
          let old := s.srRows ((s.crew? x.id).getD x.c) x.k n true
          if s1.srRows ((s1.crew? x.id).getD x.c) x.k n true = old then sysNop s1
          else
            let keep := fun (c : Crew) => c.srOld.filter (fun o => decide (s.cycle < o.due))
            sysNop { s1 with crews := s1.crews.map (fun (c : Crew) =>
              if !setsReach x.c c n then c
              else if c.id = x.id then { c with srOld := { sr := n, rows := old, due := s.cycle + 4, own := true } :: keep c }
              else { c with srOld := { sr := n, rows := old, due := s.cycle + 4 + Config.free s.free [24, c.id, n], own := false } :: keep c }) }) s
/-- sets (R221). -/
def execSets (f : FormS) (s : State) : Out := runSets f false s
/-- setsp (R221). -/
def execSetsp (f : FormS) (s : State) : Out := runSets f true s

end Sys2Proof.Machine
end

