-- ==== Sys2Proof/Machine/Image.lean ====
section
/-!
DEFINITION. Image.lean: the context image and the marshal spill area: their records, written and read (spec 21 R370 to R380; 12 R267).
-/

namespace Sys2Proof.Machine

open Sys2Proof

/-! ## Records of the image (R373 to R378) -/

/-- Bytes padded with zeros, or cut, to n. -/
def padTo (n : Nat) (bs : List Byte) : List Byte := bs.take n ++ List.replicate (n - bs.length) 0#8
/-- A per-lane array of 512 bytes, lane l at 4l (R373). -/
def laneArray (r : Row) : List Byte := padTo 512 ((List.range 64).flatMap (fun l => leBytes 4 (rowAt r l).toNat))
/-- Words, four bytes each. -/
def wordBytes (ws : List Word) : List Byte := ws.flatMap (fun w => leBytes 4 w.toNat)
/-- A trap-queue entry (R386). -/
def TrapEntry.bytes (e : TrapEntry) : List Byte :=
  leBytes 4 e.cause.toNat ++ leBytes 4 e.slot.toNat ++ leBytes 8 e.val.toNat ++ leBytes 8 e.ret.toNat ++ leBytes 16 e.mask.toNat ++
    List.replicate 24 0#8

/-- A crew record: the crew's current level (R373). `blkr` is its block record, `row` its first register row. -/
def crewRecord (c : Crew) (blkr row : Nat) : List Byte :=
  let stl := c.stall.isSome
  let fseq := ((c.stall.bind (fun x => x.seq)).getD 0)
  let qv := c.a.qnamed.isSome || c.b.qnamed.isSome
  let ql := match c.a.qnamed, c.b.qnamed with
    | some x, some y => decide (x < y)
    | none, some _ => true
    | _, _ => false
  let head :=
    leBytes 4 (2 ^ 31 + stl.toNat * 2 ^ 30 + blkr * 65536 + (c.n / 16 - 1) * 256 + c.idx % 16) ++ leBytes 4 row ++ leBytes 4 c.regc.toNat ++
      leBytes 4 (pcslots c false) ++ wordBytes [c.mode, c.pfmode, BitVec.ofNat 32 c.gates.length, c.gatestat] ++ leBytes 4 (trapqWord c) ++
      leBytes 4 c.trapcause.toNat ++ leBytes 8 c.trapva.toNat ++ wordBytes c.ocnt ++ leBytes 4 c.dsh ++ leBytes 4 fseq ++
      leBytes 4 (ql.toNat + 2 * qv.toNat) ++ leBytes 4 (c.armedP.toNat * 65536 + c.armed.toNat)
  let slots :=
    leBytes 8 c.a.pc.toNat ++ leBytes 8 c.a.region.toNat ++ leBytes 8 c.b.pc.toNat ++ leBytes 8 c.b.region.toNat ++ List.replicate 16 0#8 ++
      leBytes 16 c.a.mask.toNat ++ leBytes 16 c.b.mask.toNat
  padTo 0x100 (padTo 0x50 head ++ slots ++ wordBytes c.queues ++ wordBytes c.a.qcap ++ wordBytes c.b.qcap) ++
    padTo 512 (c.trapq.flatMap TrapEntry.bytes) ++ padTo 512 (c.trecs.flatMap wordBytes) ++
    padTo 256 (c.arrive.flatMap (fun m => leBytes 16 m.toNat)) ++ laneArray c.fp ++ laneArray c.rng ++ laneArray c.rngCap

/-- A gate record: one return record in the crew-record layout, its own fields at 0x070 and in place of the captures (R377). `tvec` is
the trap vector of the caller's level; a block-memory window lies relative to the block's allocation at `off`, and the outermost level
has the whole allocation of `len` bytes. (log 38, DEDUCED) -/
def gateImage (g : GateRec) (tvec : DWord) (off len level crewr row : Nat) : List Byte :=
  let depth := if g.insvc then 2 ^ 31 else 0
  let head :=
    leBytes 4 (2 ^ 31 + (g.n / 16 - 1) * 256) ++ leBytes 4 row ++ leBytes 4 g.regc.toNat ++ leBytes 4 256 ++
      wordBytes [g.mode, 0#32, BitVec.ofNat 32 (level - 1), g.gatestat] ++
      leBytes 4 (depth + (if g.insvc && g.svcSlot then 2 ^ 30 else 0) + g.trapq.length * 2 ^ 24 + g.skip.toNat) ++
      leBytes 4 g.trapcause.toNat ++ leBytes 8 g.trapva.toNat ++ wordBytes g.ocnt ++ leBytes 4 g.dsh
  let own :=
    leBytes 4 (g.asid + g.priv * 65536 + g.trapu.toNat * 2 ^ 24 + level * 2 ^ 25) ++ leBytes 4 (g.budget.getD 0) ++
      leBytes 4 (g.unit * 4096 + g.units * 4 * 65536 + crewr * 2 ^ 24) ++ leBytes 4 g.dom
  let w := (g.window.map (fun p => (p.1 - off, p.2))).getD (0, len)
  let caller := leBytes 8 g.ht.toNat ++ leBytes 8 tvec.toNat ++ leBytes 8 (w.1 / 1024 * 65536 + w.2 / 1024)
  padTo 0x100 (padTo 0x70 (padTo 0x50 head ++ leBytes 8 g.pc.toNat ++ leBytes 8 g.pc.toNat) ++ own ++ padTo 0x20 (leBytes 16 g.mask.toNat) ++
      wordBytes g.queues ++ padTo 0x20 caller) ++
    padTo 512 (g.trapq.flatMap TrapEntry.bytes) ++ padTo 512 (g.trecs.flatMap wordBytes) ++ List.replicate 256 0#8 ++ laneArray g.fp ++
    laneArray g.rng ++ List.replicate 512 0#8

/-- A block record (R375), with the CLASS code of its launch (R249). The CNT of a cluster barrier's phase is the number of crews of the group (R213). -/
def blockRecord (s : State) (b : Block) : List Byte :=
  let cnt := fun (on : Bool) => BitVec.ofNat 8 (if on && b.rank == 0 then b.gsize * b.ncrews else 0)
  let slot := ((s.launch? b.launch).map (fun l => l.slot)).getD 0
  let cls := ((s.launch? b.launch).map (fun l => bitsOf (l.w 10) 1 0)).getD 0
  padTo 0x100 (padTo 0x28 (leBytes 4 b.blockId ++ leBytes 4 (2 ^ 31 + b.harv.toNat * 2 ^ 30 + cls * 2 ^ 28 + b.rank % 4) ++
    leBytes 4 (b.bmOff / 1024 + b.bmLen / 1024 * 65536) ++ leBytes 4 slot ++ leBytes 8 b.units.toNat ++ leBytes 8 b.spilled.toNat ++
    leBytes 8 b.itrange.toNat) ++ wordBytes [b.fixup, b.umpt, b.lscale, b.ovf] ++ leBytes 4 (b.barP.toNat + b.cbarP.toNat * 65536) ++
    leBytes 4 0 ++ b.barCnt.map (fun x => BitVec.ofNat 8 (x.getD 0)) ++ (List.range 16).flatMap (fun i => leBytes 4 (b.ump.getD i 0)) ++
    b.cbarOn.map cnt)

/-- An engine record (R376); `crewr` is its crew record. -/
def engineRecord (s : State) (o : Op) (crewr : Nat) : List Byte :=
  let rank := (s.ops.filter (fun (p : Op) => p.crew == o.crew && p.cls == o.cls && decide (p.id < o.id))).length
  leBytes 4 (2 ^ 31 + (if (s.heldPort o).isSome then 2 ^ 30 else 0) + o.cls * 2 ^ 28 + o.stat * 2 ^ 24 + o.opc) ++
    leBytes 4 (crewr % 64 + rank % 2 ^ 24 * 256) ++ (List.range 5).flatMap (fun i => leBytes 4 (o.arg i)) ++
    (List.range 8).flatMap (fun i => leBytes 4 (o.grp i)) ++ leBytes 4 o.pos

/-- A task entry of the spill area (R378). -/
def taskEntry (o : Op) (md crewr image : Nat) : List Byte :=
  padTo 32 (wordBytes o.trec) ++ leBytes 4 (o.arg 0) ++ leBytes 4 (o.arg 1) ++ leBytes 4 (o.opc + o.sub % 1024 * 1024 + md * 2 ^ 20) ++
    leBytes 4 (crewr + image * 256) ++ (List.range 4).map (fun c => BitVec.ofNat 8 (o.prog.getD c 0)) ++ leBytes 4 o.mv ++ leBytes 8 0

/-! ## Writing an image (R370 to R372) -/

/-- The register rows of a level, v0 to v(n-9) and then v248 to v255 (R371). -/
def levelRows (n : Nat) (regs : List Row) : List Byte :=
  ((List.range n).map (fun x => if x < n - 8 then x else 248 + (x - (n - 8)))).flatMap (fun r => wordBytes (regs.getD r Row.zero))
/-- The register file of each level of a crew, the innermost first, with the window unit it lies in; none in the allocation. -/
def crewLevels (c : Crew) : List (Nat × List Row × Option Nat) :=
  (c.n, c.regs, (c.gates[0]?).map (fun g => g.unit)) ::
    (List.range c.gates.length).filterMap (fun i => (c.gates[i]?).map (fun (g : GateRec) =>
      (g.n, g.regs, (c.gates[i + 1]?).map (fun (h : GateRec) => h.unit))))
/-- Rows that a crew holds: its outermost allocation (R13, R215). -/
def crewRows (c : Crew) : Nat := match c.gates.getLast? with
  | some g => g.n
  | none => c.n

/-- The blocks of core image k of a context that are saved in it (R370). -/
def State.savedBlocks (s : State) (ctx k : Nat) : List Block :=
  s.blocks.filter (fun (b : Block) => b.ctx == ctx && b.img == some k && b.place == 1 && s.saved.any (fun (x : Saved) => x.blk == b.id))
/-- What the records of a core image stand for, in the order of its blocks, crews and calls (R371). -/
def State.imageRecs (s : State) (ctx k : Nat) : ImgRecs :=
  let bs := s.savedBlocks ctx k
  let cs := bs.flatMap (fun b => s.crewsOf b.id)
  { crews := cs.map (fun c => c.id), gates := cs.flatMap (fun c => (List.range c.gates.length).map (fun i => (c.id, i))),
    blks := bs.map (fun b => b.id),
    engs := (s.ops.filter (fun o => o.cls ≠ 2 && !o.done && bs.any (fun b => b.id == o.blk))).map (fun o => o.id) }
/-- First register row of a crew of a core image (R371, R373). -/
def State.imageRow (s : State) (r : ImgRecs) (id : Nat) : Nat :=
  ((r.crews.take (r.crews.idxOf id)).map (fun i => ((s.crew? i).map crewRows).getD 0)).sum

/-- Core image k of a context as (offset, bytes) pieces: only the sections in use (R371). -/
def State.imagePieces (s : State) (ctx k : Nat) (r : ImgRecs) : List (Nat × List Byte) :=
  let bs := s.savedBlocks ctx k
  let crews := r.crews.filterMap s.crew?
  let engs := r.engs.filterMap s.op?
  let sv := bs.filterMap (fun (b : Block) => (s.saved.find? (fun (x : Saved) => x.blk == b.id)).map (fun x => (b, x)))
  let lend := (sv.map (fun p => p.2.lend)).foldl max 0
  let header := leBytes 4 (2 ^ 31 + r.crews.length % 128 * 2 ^ 24 + bs.length % 128 * 2 ^ 17 + r.gates.length % 32 * 2 ^ 12 +
      s.mgmt.l1cfg.toNat * 2 ^ 10 + engs.length % 128) ++ leBytes 4 lend ++ leBytes 8 s.clock.toNat
  [(0, padTo 0x1000 header)] ++
    crews.map (fun c => (0x1000 + 0xC00 * r.crews.idxOf c.id, crewRecord c (r.blks.idxOf c.blk) (s.imageRow r c.id))) ++
    crews.flatMap (fun c => (List.range c.gates.length).filterMap (fun i => (c.gates[i]?).map (fun (g : GateRec) =>
      let b := ((s.block? c.blk).map (fun (b : Block) => (b.bmOff, b.bmLen))).getD (0, 0)
      (0x41000 + 0xC00 * r.gates.idxOf (c.id, i),
        gateImage g (g.tvec.getD (s.ctxTvec ctx)) b.1 b.2 (c.gates.length - i) (r.crews.idxOf c.id) (s.imageRow r c.id))))) ++
    bs.map (fun b => (0x4D000 + 0x100 * r.blks.idxOf b.id, blockRecord s b)) ++
    engs.map (fun o => (0x51000 + 0x40 * r.engs.idxOf o.id, engineRecord s o (r.crews.idxOf o.crew))) ++
    crews.flatMap (fun c => (crewLevels c).map (fun p => match p.2.2 with
      | some u => (0x31000 + 4096 * u, levelRows p.1 p.2.1)
      | none => (0x52000 + 256 * s.imageRow r c.id, levelRows p.1 p.2.1))) ++
    sv.map (fun p => (0x152000 + p.2.lent.1, p.2.lent.2)) ++
    sv.flatMap (fun p =>
      let (b, x) := p
      [(0x152000 + b.bmOff, x.bm), (0x152000 + b.arrOff, wordBytes b.arr), (0x1F2000, x.sm)] ++
        x.am.map (fun u => (0x1B2000 + 4096 * u.1, u.2)) ++
        (s.spills.filter (fun q => q.1 == b.id)).map (fun q => (0x1B2000 + 4096 * q.2.1, q.2.2)))

/-- The directory entry of core image k; zero while it holds no state (R370). -/
def State.dirEntry (s : State) (ctx k : Nat) : List Byte :=
  let bs := s.savedBlocks ctx k
  match bs with
  | [] => List.replicate 64 0#8
  | b :: _ =>
    let cgrp := if b.gsize = 1 then 0xFFFF else b.group % 65536
    padTo 64 (leBytes 4 (2 ^ 31 + (bs.any (fun b => b.evicted)).toNat * 2 ^ 30 + bs.length % 256 * 65536 + cgrp) ++ leBytes 4 b.vcore)

/-- The directory of a context: the entries of its core images, the unused ones and its end zero (R370). -/
def State.writeDir (s : State) (ctx : Nat) : State :=
  let d := s.ctxDesc ctx
  let n := (s.blocks.filterMap (fun b => if b.ctx = ctx then b.img.map (· + 1) else none)).foldl max 0
  s.putImage d.asid (s.ownKd ctx d.imgva) d.imgva (padTo 16384 ((List.range n).flatMap (s.dirEntry ctx)))
/-- Core image k of a context written as its saved blocks now stand, and the directory (R370, R371). (log 38, DEDUCED) -/
def State.writeImage (s : State) (ctx k : Nat) : State :=
  let d := s.ctxDesc ctx
  let r := s.imageRecs ctx k
  let kd := s.ownKd ctx (s.imageVa ctx k)
  let s' := if r.blks.isEmpty then s
    else (s.imagePieces ctx k r).foldl (fun t p => t.putImage d.asid kd (s.imageVa ctx k + p.1) p.2) s
  { s' with saved := s'.saved.map (fun (x : Saved) => if r.blks.contains x.blk then { x with recs := r } else x) }.writeDir ctx

/-- The tasks of a stopped context written to its spill area, in posting order (R378). -/
def State.writeTasks (s : State) (ctx : Nat) : State :=
  let d := s.ctxDesc ctx
  let kd := s.ownKd ctx d.spillva
  let ts := s.ops.filter (fun (o : Op) => o.ctx == ctx && o.cls == 2 && !o.done)
  let sp := ts.filter (fun (o : Op) => isSparse o.opc)
  let s' := (List.range ts.length).foldl (fun t i =>
    match ts[i]? with
    | none => t
    | some (o : Op) =>
      let m := sp.findIdx (fun (p : Op) => p.id == o.id)
      let k := ((s.block? o.blk).bind (fun b => b.img)).getD 0
      let t := t.putImage d.asid kd (d.spillva + 64 * i)
        (taskEntry o (if isSparse o.opc then m % 32 else 0) ((s.imageRecs ctx k).crews.idxOf o.crew % 64) k)
      if isSparse o.opc then t.putImage d.asid kd (d.spillva + 65536 + 8192 * (m % 32)) (padTo 8192 (wordBytes o.metaw)) else t) s
  s'.setCtxSt { s'.ctxSt ctx with tasks := ts.map (fun o => o.id) }

/-! ## Reading an image (R379) -/

/-- A 32-bit word of a record. -/
def w32 (bs : List Byte) (o : Nat) : Word := BitVec.ofNat 32 (leNat ((bs.drop o).take 4))
/-- A 64-bit word of a record. -/
def w64 (bs : List Byte) (o : Nat) : DWord := BitVec.ofNat 64 (leNat ((bs.drop o).take 8))
/-- A per-lane array of a record (R373). -/
def imgRow (bs : List Byte) (o : Nat) : Row := (List.range 64).map (fun l => w32 bs (o + 4 * l))
/-- The register file of a level from its rows; registers outside the allocation stay (R371). -/
def imgRegs (n : Nat) (bs : List Byte) (old : List Row) : List Row :=
  (List.range 256).map (fun r =>
    if r < n - 8 then imgRow bs (256 * r) else if 248 ≤ r then imgRow bs (256 * (n - 8 + (r - 248))) else old.getD r Row.zero)
/-- The trap queue of a record; the PC after the raising instruction is not in it (R386). -/
def imgTraps (n : Nat) (bs : List Byte) (old : List TrapEntry) : List TrapEntry :=
  (List.range n).map (fun i =>
    let o := 0x100 + 64 * i
    { cause := w32 bs o, slot := (w32 bs (o + 4)).getLsbD 0, val := w64 bs (o + 8), ret := w64 bs (o + 16),
      after := ((old[i]?).map (fun e => e.after)).getD (w64 bs (o + 16)), mask := w64 bs (o + 24) })
/-- Eight words from an offset on. -/
def img8 (bs : List Byte) (o : Nat) : List Word := (List.range 8).map (fun i => w32 bs (o + 4 * i))
/-- A queue state from a record: its reserved bits stay zero (R5), and so does one that would break R18, as a privileged write of it
would (R21). -/
def imgQueues (c : Crew) (bs : List Byte) (o : Nat) : List Word :=
  let c : Crew := { c with queues := (img8 bs o).map (fun w => w &&& 0x801FFFFF#32) }
  (List.range 8).map (fun q => qstateSet c q (c.queues.getD q 0#32).toNat)
/-- A slot from a crew record: its state code, PC, region entry, mask and capture, and whether it named a queue last (R373). -/
def PcSlot.ofImage (p : PcSlot) (bs : List Byte) (code pc mask cap : Nat) (last : Bool) : PcSlot :=
  { p with
    st := match code with
      | 0 => .free
      | 1 => .running
      | _ => .parked
    pc := w64 bs pc, region := w64 bs (pc + 8), mask := w64 bs mask, qcap := (img8 bs cap).map (fun w => w &&& 0x801FFFFF#32),
    qnamed := if last then some (p.qnamed.getD 0) else none }
/-- The level of a crew that a crew record holds (R373, R379), the reserved bits of its registers zero (R5); what the record has no
field for stays. (log 38, DEDUCED) -/
def Crew.ofImage (c : Crew) (bs rows : List Byte) : Crew :=
  let n := 16 * (bitsOf (w32 bs 0).toNat 11 8 + 1)
  let sl := (w32 bs 0x0C).toNat
  let tq := (w32 bs 0x20).toNat
  let q := (w32 bs 0x48).toNat
  let c : Crew := { c with n := n, regs := imgRegs n rows c.regs, regc := w32 bs 0x08, depth := sl / 65536, mode := w32 bs 0x10 &&& 0xFFF7FFFF#32, pfmode := w32 bs 0x14 &&& 0xF#32 }
  let c : Crew := { c with gatestat := w32 bs 0x1C &&& 0xF0FFFFFF#32, insvc := bitOf tq 31, svcSlot := bitOf tq 30, skip := bitOf tq 0 }
  let c : Crew := { c with trapq := imgTraps (bitsOf tq 27 24) bs c.trapq, trapcause := w32 bs 0x24, trapva := w64 bs 0x28 }
  let c : Crew := { c with ocnt := (List.range 4).map (fun i => w32 bs (0x30 + 4 * i) &&& 0x8F0000FF#32), dsh := (w32 bs 0x40).toNat }
  let c : Crew := { c with armed := BitVec.ofNat 16 (w32 bs 0x4C).toNat, armedP := BitVec.ofNat 16 ((w32 bs 0x4C).toNat / 65536), queues := imgQueues c bs 0xA0 }
  let c : Crew := { c with a := c.a.ofImage bs (bitsOf sl 9 8) 0x50 0x80 0xC0 (q == 2), b := c.b.ofImage bs (bitsOf sl 11 10) 0x60 0x90 0xE0 (q == 3) }
  let c : Crew := { c with trecs := (List.range 16).map (fun t => img8 bs (0x300 + 32 * t)), arrive := (List.range 16).map (fun i => w64 bs (0x500 + 16 * i)) }
  { c with fp := (imgRow bs 0x600).map (fun w => w &&& 0x7F#32), rng := imgRow bs 0x800, rngCap := imgRow bs 0xA00 }
/-- A return record from a gate record (R377). -/
def GateRec.ofImage (g : GateRec) (off : Nat) (bs rows : List Byte) : GateRec :=
  let n := 16 * (bitsOf (w32 bs 0).toNat 11 8 + 1)
  let tq := (w32 bs 0x20).toNat
  let x := (w32 bs 0x70).toNat
  let w := (w64 bs 0xD0).toNat
  let g : GateRec := { g with n := n, regs := imgRegs n rows g.regs, regc := w32 bs 0x08, mode := w32 bs 0x10 &&& 0xFFF7FFFF#32, gatestat := w32 bs 0x1C &&& 0xF0FFFFFF#32 }
  let g : GateRec := { g with insvc := bitOf tq 31, svcSlot := bitOf tq 30, skip := bitOf tq 0, trapq := imgTraps (bitsOf tq 27 24) bs g.trapq }
  let g : GateRec := { g with trapcause := w32 bs 0x24, trapva := w64 bs 0x28, ocnt := (List.range 4).map (fun i => w32 bs (0x30 + 4 * i) &&& 0x8F0000FF#32) }
  let g : GateRec := { g with dsh := (w32 bs 0x40).toNat, pc := w64 bs 0x50, mask := w64 bs 0x80, queues := (img8 bs 0xA0).map (fun w => w &&& 0x801FFFFF#32) }
  let g : GateRec := { g with asid := x % 65536, priv := bitsOf x 17 16, trapu := bitOf x 24, budget := g.budget.map (fun _ => (w32 bs 0x74).toNat) }
  let g : GateRec := { g with dom := (w32 bs 0x7C).toNat, ht := w64 bs 0xC0, tvec := g.tvec.map (fun _ => w64 bs 0xC8) }
  let g : GateRec := { g with window := g.window.map (fun _ => (off + 1024 * bitsOf w 24 16, 1024 * bitsOf w 8 0)) }
  { g with trecs := (List.range 16).map (fun t => img8 bs (0x300 + 32 * t)), fp := (imgRow bs 0x600).map (fun w => w &&& 0x7F#32), rng := imgRow bs 0x800 }
/-- A block from a block record and its arrival counters (R375). -/
def Block.ofImage (b : Block) (bs arr : List Byte) : Block :=
  let b : Block := { b with units := w64 bs 0x10, spilled := w64 bs 0x18, itrange := w64 bs 0x20, fixup := w32 bs 0x28 &&& 0x7#32, umpt := w32 bs 0x2C &&& 0xFFFFFF#32, lscale := w32 bs 0x30 &&& 0xFF#32 }
  let b : Block := { b with ovf := w32 bs 0x34 &&& 0x1F#32, barP := BitVec.ofNat 16 (w32 bs 0x38).toNat, cbarP := BitVec.ofNat 4 ((w32 bs 0x38).toNat / 65536) }
  { b with
    barCnt := (List.range 16).map (fun i => let n := (bs.getD (0x40 + i) 0#8).toNat; if n = 0 then none else some n)
    ump := (List.range 16).map (fun i => (w32 bs (0x50 + 4 * i)).toNat)
    cbarOn := if b.rank = 0 then (List.range 4).map (fun i => bs.getD (0x90 + i) 0#8 ≠ 0#8) else b.cbarOn
    arr := (List.range 64).map (fun i => w32 arr (4 * i)) }

/-- Bytes of a context's image or spill area; none where they cannot be read. -/
def State.areaBytes (s : State) (ctx va n : Nat) : Option (List Byte) :=
  match s.readVa (s.ctxDesc ctx).asid 0 { r := true, w := false, x := false, space := 0, kd := s.ownKd ctx (va % 2 ^ 64) } (n / 65536 + 2) (va % 2 ^ 64) n with
  | .ok bs => some bs
  | _ => none
/-- Bytes of a core image; none where they cannot be read. -/
def State.imageBytes (s : State) (ctx k off n : Nat) : Option (List Byte) := s.areaBytes ctx (s.imageVa ctx k + off) n

/-- The rows of a level in its core image: in the window at a unit, or in the allocation (R371). -/
def State.levelBytes (s : State) (ctx k row n : Nat) (unit : Option Nat) : Option (List Byte) :=
  s.imageBytes ctx k (match unit with
    | some u => 0x31000 + 4096 * u
    | none => 0x52000 + 256 * row) (256 * n)

/-- A saved crew as its core image k gives it; the crew itself where the image cannot be read. (log 38, DEDUCED) -/
def State.loadCrew (s : State) (b : Block) (k : Nat) (r : ImgRecs) (c : Crew) : Crew :=
  let row := s.imageRow r c.id
  let level := fun (j : Nat) (n : Nat) => s.levelBytes c.ctx k row n (if j < c.gates.length then (c.gates[j]?).map (fun g => g.unit) else none)
  let gs := (List.range c.gates.length).filterMap (fun j => (c.gates[j]?).map (fun g =>
    match s.imageBytes c.ctx k (0x41000 + 0xC00 * r.gates.idxOf (c.id, j)) 0xC00, level (j + 1) g.n with
    | some bs, some rows => if (w32 bs 0).getLsbD 31 then g.ofImage b.bmOff bs rows else g
    | _, _ => g))
  let c := { c with gates := gs }
  match s.imageBytes c.ctx k (0x1000 + 0xC00 * r.crews.idxOf c.id) 0xC00, level 0 c.n with
  | some bs, some rows => if (w32 bs 0).getLsbD 31 then c.ofImage bs rows else c
  | _, _ => c
/-- A saved command as its engine record gives it: operands, progress and status (R376). -/
def Op.ofImage (o : Op) (bs : List Byte) : Op :=
  let words := (List.range 13).map (fun i => w32 bs (8 + 4 * i))
  if !(w32 bs 0).getLsbD 31 then o
  else { o with args := (o.args.zip (List.range o.args.length)).map (fun p => if p.2 < 13 then words.getD p.2 0#32 else p.1),
                pos := (w32 bs 0x3C).toNat, stat := bitsOf (w32 bs 0).toNat 27 24 }
/-- A task as its entry of the spill area and its metadata block give it (R378). -/
def Op.ofTask (o : Op) (bs : List Byte) (meta_ : Option (List Byte)) : Op :=
  { o with
    trec := (List.range 8).map (fun i => w32 bs (4 * i))
    args := ((((o.args.set 0 (w32 bs 32)).set 1 (w32 bs 36))).set 4 (w32 bs 52)).set 5 (BitVec.ofNat 32 (bitsOf (w32 bs 40).toNat 19 10))
    prog := (List.range 4).map (fun c => (bs.getD (48 + c) 0#8).toNat)
    metaw := match meta_ with
      | some m => (List.range o.metaw.length).map (fun i => w32 m (4 * i))
      | none => o.metaw }

/-- A saved block takes its state from its core image: crew, gate, block and engine records, and memories (R371 to R379). What cannot
be read stays as it was saved. (log 38, DEDUCED) -/
def State.loadImage (s : State) (b : Block) : State :=
  match b.img, s.saved.find? (fun (x : Saved) => x.blk == b.id) with
  | some k, some sv =>
    let r := sv.recs
    let get := fun off n => s.imageBytes b.ctx k off n
    if !(get 0 4).any (fun bs => (w32 bs 0).getLsbD 31) then s
    else
      { s with
        crews := s.crews.map (fun c => if c.blk = b.id then s.loadCrew b k r c else c)
        blocks := s.blocks.map (fun q => if q.id = b.id then
            match get (0x4D000 + 0x100 * r.blks.idxOf b.id) 0x100, get (0x152000 + b.arrOff) 256 with
            | some bs, some arr => q.ofImage bs arr
            | _, _ => q
          else q)
        saved := s.saved.map (fun x => if x.blk = b.id then
            { x with bm := (get (0x152000 + b.bmOff) b.bmLen).getD x.bm, am := x.am.map (fun u => (u.1, (get (0x1B2000 + 4096 * u.1) 4096).getD u.2)),
                     sm := if x.sm.isEmpty then [] else (get 0x1F2000 32768).getD x.sm }
          else x)
        spills := s.spills.map (fun p => if p.1 = b.id then (p.1, p.2.1, (get (0x1B2000 + 4096 * p.2.1) 4096).getD p.2.2) else p)
        ops := s.ops.map (fun o =>
          if o.blk ≠ b.id ∨ o.done ∨ o.cls = 2 ∨ !r.engs.contains o.id then o
          else match get (0x51000 + 0x40 * r.engs.idxOf o.id) 0x40 with
            | some bs => o.ofImage bs
            | none => o) }
  | _, _ => s

/-- The tasks of a context return from its spill area (R378, R379). -/
def State.loadTasks (s : State) (ctx : Nat) : State :=
  let d := s.ctxDesc ctx
  let ts := (s.ctxSt ctx).tasks
  let s' := { s with ops := s.ops.map (fun (o : Op) =>
    if o.cls ≠ 2 ∨ o.done ∨ !ts.contains o.id then o
    else match s.areaBytes ctx (d.spillva + 64 * ts.idxOf o.id) 64 with
      | some bs => o.ofTask bs (if isSparse o.opc then s.areaBytes ctx (d.spillva + 65536 + 8192 * bitsOf (w32 bs 40).toNat 25 20) 8192 else none)
      | none => o) }
  s'.setCtxSt { s'.ctxSt ctx with tasks := [] }

/-! ## Blocks that go to their image, and saved state that changes there (R265, R380) -/

/-- A block that has left its core takes its place in a core image; what the driver may have changed of the blocks there is kept (R380). -/
def State.takeImage (s : State) (blk : Nat) : State :=
  match s.block? blk with
  | none => s
  | some b =>
    let k := s.imgFor b
    let s := (s.savedBlocks b.ctx k).foldl (fun s q => if q.id = blk then s else s.loadImage q) s
    s.modBlock blk (fun q => { q with img := some k })
/-- Blocks that have left their core for their images take their places there, and the images are written (R226, R264, R370). -/
def State.toImages (s : State) (blks : List Nat) : State :=
  let s := blks.foldl State.takeImage s
  ((blks.filterMap (fun id => (s.block? id).bind (fun b => b.img.map (fun k => (b.ctx, k))))).dedup).foldl (fun s p => s.writeImage p.1 p.2) s
/-- One block. -/
def State.toImage (s : State) (blk : Nat) : State := s.toImages [blk]
/-- The image area of a context has to wait for a stack that has still to enter service (R422). -/
def State.areaWaits (s : State) (ctx : Nat) : Bool :=
  let d := s.ctxDesc ctx
  s.mgmt.stage == 2 && (List.range 33).any (fun i =>
    match s.place d.asid ((d.imgva + 65536 * i) % 2 ^ 64) { r := false, w := true, x := false, space := 0 } 0 with
    | .ok l => s.locReady 0 l == .wait
    | .error f => f.ready == .wait)
/-- What happens to state of a block; of a saved one it happens to its image, and to the tasks of its context where the spill area
holds them: both are read as the driver left them and written again (R380). -/
def State.atImage (s : State) (blk : Nat) (f : State → State) : State :=
  match s.block? blk with
  | none => f s
  | some b =>
    match b.img with
    | none => f s
    | some k =>
      if b.place ≠ 1 then f s
      else
        let tasks := !(s.ctxSt b.ctx).tasks.isEmpty
        let s := if tasks then (s.loadImage b).loadTasks b.ctx else s.loadImage b
        let s := (f s).writeImage b.ctx k
        if tasks then s.writeTasks b.ctx else s

end Sys2Proof.Machine
end

