-- ==== Sys2Proof/Machine/Launch.lean ====
section
/-!
DEFINITION. Launch.lean: launch records and their checks, admission, placement, retirement of crews and blocks, the spin
hand-off, harvest, yield and hvhint, and the events that time brings to crews and blocks
(spec 10 R225 to R227; 12 R249 to R275; 08 R169; 22 R407).
-/

namespace Sys2Proof.Machine

open Sys2Proof

/-! ## Fields of a launch (R249) -/

/-- A field of a record word. -/
def Launch.f (l : Launch) (w hi lo : Nat) : Nat := bitsOf (l.w w) hi lo
/-- Registers per crew. -/
def Launch.regs (l : Launch) : Nat := 16 * (l.f 7 11 8 + 1)
/-- Crews per block. -/
def Launch.crews (l : Launch) : Nat := l.f 7 3 0 + 1
/-- BMEM in bytes. -/
def Launch.bmem (l : Launch) : Nat := 1024 * l.f 8 8 0
/-- ACCU. -/
def Launch.accu (l : Launch) : Nat := l.f 9 6 0
/-- Class: 0 Q, 1 B, 2 H. -/
def Launch.cls (l : Launch) : Nat := l.f 10 1 0
/-- PRIO. -/
def Launch.prio (l : Launch) : Nat := l.f 10 7 4
/-- GSHAPE. -/
def Launch.gshape (l : Launch) : Nat := l.f 10 9 8
/-- Blocks of a cluster group; without GSHAPE 1 each block is a group of one (R256). -/
def Launch.gsize (l : Launch) : Nat := if l.gshape = 1 then l.f 10 11 10 + 1 else 1
/-- NBLOCKS. -/
def Launch.nblocks (l : Launch) : Nat := l.w 4 * l.w 5 * l.w 6
/-- HT word of the record. -/
def Launch.ht (l : Launch) : DWord := BitVec.ofNat 64 (l.w 2 + l.w 3 * 2 ^ 32)
/-- Entry PC. -/
def Launch.entry (l : Launch) : DWord := BitVec.ofNat 64 (l.w 0 + l.w 1 * 2 ^ 32)
/-- A word as a signed number. -/
def Launch.sw (l : Launch) (w : Nat) : Int := svalN (l.w w) 32

/-! ## Room on cores (R13, R256, R268, R407) -/

/-- The core's die is in service (R422). -/
def State.coreUp (s : State) (core : Nat) : Bool := s.mgmt.dieup.getLsbD (dieOfCore core) && decide (core < 160)
/-- What is taken of a core: rows and crew slots of each quad, spans of block memory, the bytes that count against `limit` (R256),
and whether units are free for a reservation. -/
structure CoreLoad where
  quads : List (Nat × List Nat)
  used : List (Nat × Nat)
  total : Nat
  limit : Nat
  accu : Bool
deriving DecidableEq, Repr

/-- The load of a core by the blocks that a predicate keeps. -/
def State.coreLoad (s : State) (core accu : Nat) (keep : Block → Bool) : CoreLoad :=
  let bs := (s.onCore core).filter keep
  let keys := (bs.filter (fun b => b.place == 0)).map (fun b => b.id)
  let cs := s.crews.filter (fun c => keys.contains c.blk && !c.retired)
  { quads := (List.range 4).map (fun q =>
      let here := cs.filter (fun c => c.quad == q)
      ((here.map crewRows).sum, here.map (fun c => c.qslot))),
    used := blockSpans bs, total := (bs.map (fun b => b.bmLen + 256)).sum, limit := s.bmLimit,
    accu := (List.range accu).all (fun u => s.unitFree core u) }

/-- The lowest free place of a length in [lo, hi), a multiple of 1 KiB (R375). (log 25, DEDUCED) -/
def memHole (used : List (Nat × Nat)) (lo hi len : Nat) : Option Nat :=
  let starts := ((lo :: (used.map (fun p => p.1 + p.2)).filter (fun p => decide (lo ≤ p)))).map (fun p => (p + 1023) / 1024 * 1024)
  (starts.filter (fun p => decide (p + len ≤ hi) && used.all (fun u => decide (p + len ≤ u.1) || decide (u.1 + u.2 ≤ p) || len == 0 || u.2 == 0))).foldl
    (fun m p => match m with
      | none => some p
      | some q => some (min p q)) none

/-- Crews seated on the quads of a list: quad and crew slot of each (R13). (log 25, DEDUCED) -/
def seatCrews (n : Nat) : List Nat → List (Nat × List Nat) → Option (List (Nat × Nat))
  | [], _ => some []
  | q :: qs, ld =>
    match ld[q]? with
    | none => none
    | some (rows, used) =>
      match (List.range 16).find? (fun k => !used.contains k) with
      | none => none
      | some k =>
        if 1024 < rows + n ∨ 16 ≤ used.length then none
        else (seatCrews n qs (ld.set q (rows + n, k :: used))).map (fun r => (q, k) :: r)
/-- The first quads with room for m crews. (log 25, DEDUCED) -/
def pickQuads (n : Nat) : Nat → List (Nat × List Nat) → Option (List Nat)
  | 0, _ => some []
  | m + 1, ld =>
    match (List.range 4).find? (fun q => decide ((ld.getD q (1024, [])).1 + n ≤ 1024) && decide ((ld.getD q (0, [])).2.length < 16)) with
    | none => none
    | some q =>
      let p := ld.getD q (0, [])
      (pickQuads n m (ld.set q (p.1 + n, ((List.range 16).find? (fun k => !p.2.contains k)).getD 16 :: p.2))).map (fun r => q :: r)

/-- Room for one more block on a core: offset of its block memory and the seats of its crews. `lo`, `hi` bound its memory and its
arrival counters. -/
def roomFor (ld : CoreLoad) (l : Launch) (lo hi : Nat) (quads : Option (List Nat)) : Option (Nat × List (Nat × Nat)) :=
  if ld.limit < ld.total + l.bmem + 256 ∨ (l.accu ≠ 0 ∧ !ld.accu) then none
  else
    match memHole ld.used lo hi l.bmem, quads.orElse (fun _ => pickQuads l.regs l.crews ld.quads) with
    | some off, some qs =>
      if qs.length ≠ l.crews ∨ (arrHole ((off, l.bmem) :: ld.used) lo hi).isNone then none
      else (seatCrews l.regs qs ld.quads).map (fun seats => (off, seats))
    | _, _ => none

/-- The load with a block added, its arrival counters below `hi`. -/
def CoreLoad.add (ld : CoreLoad) (l : Launch) (hi off : Nat) (seats : List (Nat × Nat)) : CoreLoad :=
  { quads := seats.foldl (fun q p => let r := q.getD p.1 (0, []); q.set p.1 (r.1 + l.regs, p.2 :: r.2)) ld.quads,
    used := ((arrHole ((off, l.bmem) :: ld.used) 0 hi).getD 0, 256) :: (off, l.bmem) :: ld.used, total := ld.total + l.bmem + 256,
    limit := ld.limit, accu := ld.accu && l.accu == 0 }

/-- Bounds of the memory an owner block may take: below the lent memory while lending is on, all of it while it is off (R227, R407). -/
def State.ownerTop (s : State) (core : Nat) (l : Launch) : Nat :=
  if (s.core core).lending then s.bmLimit - max (s.lentBytes core) l.lend else s.bmLimit

/-- Room on a core for a block of an owner launch, the harvest blocks there taken as absent when `skipH` (R252). -/
def State.ownerRoom (s : State) (core : Nat) (l : Launch) (skipH : Bool) (quads : Option (List Nat)) : Option (Nat × List (Nat × Nat)) :=
  if !s.coreUp core || (!skipH && (s.core core).revoke ≠ 0) then none
  else roomFor (s.coreLoad core l.accu (fun b => !(skipH && b.harv))) l 0 (if skipH then s.bmLimit else s.ownerTop core l) quads

/-- The boathouse bytes that the harvest state of a core needs when parked (R268). -/
def State.parkedSize (s : State) (core : Nat) : Nat :=
  let keys := (s.blocks.filter (fun b => b.core == core && b.harv && (b.place == 0 || b.place == 2))).map (fun b => b.id)
  ((s.crews.filter (fun c => keys.contains c.blk && !c.retired)).map (fun c => 256 * crewRows c + 1024)).sum
/-- Room on a core for a harvest block: only in lent memory that nothing uses, while lending is on, lowest offset first (R268, R407). -/
def State.harvestRoom (s : State) (core : Nat) (l : Launch) (quads : Option (List Nat)) : Option (Nat × List (Nat × Nat)) :=
  let k := s.core core
  let lent := s.lentBytes core
  if !s.coreUp core || !k.lending || k.revoke ≠ 0 ||
      decide (196608 < s.parkedSize core + l.crews * (256 * l.regs + 1024) + lent) then none
  else roomFor (s.coreLoad core 0 (fun _ => true)) l (s.bmLimit - lent) s.bmLimit quads
/-- Room on a core for a block of a launch. -/
def State.room (s : State) (core : Nat) (l : Launch) (quads : Option (List Nat)) : Option (Nat × List (Nat × Nat)) :=
  if l.cls = 2 then s.harvestRoom core l quads else s.ownerRoom core l false quads

/-- How many blocks of a launch a load can still take. -/
def capOf (l : Launch) (hi : Nat) : Nat → CoreLoad → Nat
  | 0, _ => 0
  | n + 1, ld =>
    match roomFor ld l 0 hi none with
    | none => 0
    | some (off, seats) => 1 + capOf l hi n (ld.add l hi off seats)

/-- Blocks that fit given the capacities of the cores, in groups of G on distinct cores of one cluster (R256). -/
def fitCount (g : Nat) (caps : List Nat) : Nat :=
  if g ≤ 1 then caps.sum
  else
    let clusters := (List.range 40).map (fun c => (caps.drop (4 * c)).take 4)
    (clusters.map (fun ks =>
      let m := (List.range 65).foldl (fun best m => if m * g ≤ (ks.map (fun k => min k m)).sum then max best m else best) 0
      m * g)).sum

/-- Blocks of a launch that an empty package holds; an H launch has at most 192 KiB of lent memory on a core, a multiple of 4 KiB,
less the parked size of its crews (R250 SIZE, R268). -/
def State.emptyCap (s : State) (l : Launch) : Nat :=
  let ld : CoreLoad := { quads := List.replicate 4 (0, []), used := [], total := 0, limit := s.bmLimit, accu := true }
  if l.cls = 2 then
    let parked := l.crews * (256 * l.regs + 1024)
    let lent := (l.bmem + 256 + 4095) / 4096 * 4096
    if 196608 < parked + lent ∨ s.bmLimit < lent then 0 else 160 * min 1 (capOf l lent 1 ld)
  else fitCount l.gsize (List.replicate 160 (capOf l s.bmLimit 64 ld))
/-- Blocks of an owner launch that fit now on free or harvest-held resources (R253). (log 25, DEDUCED) -/
def State.capNow (s : State) (l : Launch) : Nat :=
  fitCount l.gsize ((List.range 160).map (fun k =>
    if s.coreUp k then capOf l s.bmLimit 64 (s.coreLoad k l.accu (fun b => !b.harv)) else 0))

/-! ## The checks of a record (R250) -/

/-- A reserved field is nonzero, or CLASS, SPLIT or GSHAPE is reserved. -/
def recReserved (l : Launch) : Bool :=
  l.f 3 31 25 ≠ 0 || l.f 2 15 11 ≠ 0 || l.f 7 31 12 ≠ 0 || l.f 7 7 4 ≠ 0 || l.f 8 31 25 ≠ 0 || l.f 8 15 9 ≠ 0 ||
    l.f 9 31 7 ≠ 0 || l.f 10 31 18 ≠ 0 || l.f 10 15 15 ≠ 0 || l.f 10 3 2 ≠ 0 || l.w 14 ≠ 0 || l.w 15 ≠ 0 ||
    l.f 16 30 11 ≠ 0 || l.w 23 ≠ 0 || l.f 24 30 11 ≠ 0 || l.f 26 30 11 ≠ 0 || l.f 30 31 16 ≠ 0 || l.f 31 31 24 ≠ 0 ||
    l.cls == 3 || decide (2 ≤ l.f 10 17 16) || l.gshape == 3

/-- The context counts as registered for a launch (R250, R276, R363, R403). -/
def State.registered (s : State) (c : Nat) : Bool :=
  let d := s.ctxDesc c
  c ≠ 0 && d.valid && !(s.ctxSt c).dead && (s.domain d.dom).valid

/-- The entry of a launch's handle table (R161, R399). -/
def State.launchHandle (s : State) (l : Launch) (idx : Nat) : HandleEntry := s.handle (s.ctxDesc l.ctx).asid 0 l.ht idx 14
/-- A handle that completion writes may use, over n bytes at an offset (R250 DEP). -/
def State.launchRmw (s : State) (l : Launch) (idx off n : Nat) : Bool :=
  let e := s.launchHandle l idx
  e.valid && [1, 3, 8].contains e.space && e.w && e.atom && decide (off + n ≤ e.bound)

/-- The launching context's domain may not launch into a context: for another context than its own the specification gives no rule, so
that this is open (R250 CTX; log 40, DESIGN CHOICE). -/
def mayNotLaunch (own ctx : Nat) : Bool := own ≠ 0 && ctx ≠ own && Config.free 0 [52, own, ctx] % 2 == 1

/-- The pages of the handle table of a launch (R249). -/
def Launch.htPages (l : Launch) : List Nat :=
  (List.range ((htVa l.ht % 65536 + 32 * (htN l.ht + 1) + 65535) / 65536)).map (fun i => (htVa l.ht / 65536 * 65536 + 65536 * i) % 2 ^ 64)
/-- The first reason that applies, 0 when none does (R250); `own` is the launching context, 0 for the driver. A DOFS, BOFS or COFS that is not the multiple R249 asks for counts
under DEP. -/
def State.recReason (s : State) (own : Nat) (l : Launch) : Nat :=
  let lim := s.bmLimit
  let htEnd := htVa l.ht + 32 * (htN l.ht + 1)
  let asid := (s.ctxDesc l.ctx).asid
  let bmBytes := (l.nblocks + 31) / 32 * 4
  firstStat [
    (recReserved l, 1),
    (l.nblocks == 0 || decide (2 ^ 32 ≤ l.nblocks) || (l.f 10 17 16 == 1 && l.w 13 == 0), 2),
    (decide (lim < l.bmem + 256) || l.lend % 4096 ≠ 0 || decide (196608 < l.lend) || decide (lim < l.bmem + l.lend) || decide (64 < l.accu) ||
      s.emptyCap l == 0 || (l.cls == 0 && decide (s.emptyCap l < l.nblocks)), 3),
    (!s.registered l.ctx || mayNotLaunch own l.ctx, 7),
    (decide (2 ^ 64 < htEnd) || !canonical ((htEnd - 1) % 2 ^ 64) || l.htPages.any (fun va =>
      match s.place asid va { r := true, w := false, x := false, space := 0 } 15 with
      | .ok _ => false
      | .error _ => true), 4),
    ((l.gshape == 1 && l.nblocks % l.gsize ≠ 0) || (l.cls == 2 && l.gshape ≠ 0), 5),
    ((bitOf (l.w 16) 31 && (l.cls == 0 || l.w 20 == 0 || l.w 21 == 0 || decide (65536 < l.w 21) || l.w 17 % 8 ≠ 0 ||
        (let e := s.launchHandle l (l.f 16 10 0); !e.valid || !e.r || !([1, 8].contains e.space)))) ||
      (bitOf (l.w 24) 31 && (l.w 25 % 8 ≠ 0 || !s.launchRmw l (l.f 24 10 0) (l.w 25) bmBytes)) ||
      (bitOf (l.w 26) 31 && (l.w 27 % 4 ≠ 0 || !s.launchRmw l (l.f 26 10 0) (l.w 27) 4)), 6),
    (l.cls == 2 && l.accu ≠ 0, 9)]

/-- What a check of the record that fails has met of malformed page-table entries is counted (R396). -/
def State.noteRecord (s : State) (l : Launch) (r : Nat) : State :=
  let asid := (s.ctxDesc l.ctx).asid
  if r = 4 then l.htPages.foldl (fun s va => s.noteBadAt asid va 15) s
  else if r = 6 then
    [16, 24, 26].foldl (fun s w => if bitOf (l.w w) 31 then s.noteHandle asid l.ht (l.f w 10 0) (s.launchHandle l (l.f w 10 0)) else s) s
  else s

/-! ## Submission (R225, R250, R253, R416) -/

/-- Launch slots in use: PENDING, ADMITTED and SUSPENDED launches (R250). -/
def State.launchSlots (s : State) : List Launch := s.launches.filter (fun l => l.st == 1 || l.st == 2 || l.st == 6)

/-- The context that a record names, or that of its launch (R249). -/
def recordCtx (record : List Byte) (own : Nat) : Nat :=
  let num := leNat ((record.drop 120).take 4)
  if num = 0 then own else num % 65536
/-- The descriptor or the domain entry of a context lies on a stack that has still to enter service: the launch waits for it (R422). -/
def State.recordWaits (s : State) (ctx : Nat) : Bool :=
  s.tableReady (s.mgmt.ctxtab.toNat + 64 * ctx) == .wait || s.tableReady (s.mgmt.domtab.toNat + 64 * (s.ctxDesc ctx).dom) == .wait

/-- A record read by the stakeboat: checked, then rejected, pending, or for B and H admitted at once (R250, R253). The root of the
context's domain is in use from then on, unless the record is rejected (R403). -/
def State.submit (s0 : State) (record : List Byte) (own asid va : Nat) (wb : Bool) : State :=
  let ctx := recordCtx record own
  let s := s0.useDomain (s0.ctxDesc ctx).dom
  let dl := leNat ((record.drop 44).take 4)
  let slot := ((List.range 256).find? (fun k => !s.launchSlots.any (fun l => l.slot == k))).getD 0
  let l : Launch :=
    { id := s.order, slot := slot, ctx := ctx, record := record, asid := asid, va := va, wb := wb, st := 0, reason := 0, late := false,
      deadline := if dl = 0 then none else some (s.cycle + 1024 * dl), order := s.order, admitOrd := s.order, placed := [],
      retired := 0, writes := [], hold := none, dent := s.domainBytes (s.ctxDesc ctx).dom }
  let s := { s with order := s.order + 1 }
  let r := s.recReason own l
  let s := s.noteRecord l r
  let s := { s with launches := s.launches ++ [{ l with reason := r }], asids := if r ≠ 0 then s0.asids else s.asids }
  if r ≠ 0 then
    let s := s.setLaunch l.id 3
    { s with launches := s.launches.filter (fun k => k.id ≠ l.id) }
  else
    let s := s.setLaunch l.id 1
    if l.cls = 0 then s else s.setLaunch l.id 2

/-- launch (R225): checks, permission, release, then the record is read, where the read may fault, and submitted; with all launch slots in use it is not
eligible. Bits 31:11 of RA have no meaning here and are ignored (log 42, DESIGN CHOICE). (log 25, DEDUCED) -/
def execLaunch (f : FormS) (s : State) : Out :=
  issue { specS f [one (sysRA f), one (sysRB f)] [] .none with ends := true }
    (fun c => sysBad f true true 0 || ctlQueueBad c (sysRA f).toNat 1 || ctlQueueBad c (sysRB f).toNat 1)
    (fun x s =>
      if x.act = 0#64 then sysNop s
      else if 256 ≤ s.launchSlots.length then .error .hold
      else
        let hv := (rowAt (x.plain s (sysRA f).toNat) x.l0).toNat % 2048
        let off := (rowAt (x.plain s (sysRB f).toNat) x.l0).toNat
        let e := s.handle x.c.asid (dieOfCore x.c.core) x.c.ht hv 16
        let a : Acc := { l := x.l0, hidx := hv, e := e, off := off, va := (e.base + off) % 2 ^ 64 }
        match checkSig s x.c [a] 128 [1, 5, 7] (fun e => e.r) with
        | some k => .error k
        | none =>
          if off % 128 ≠ 0 then .error (.raise (sysCause 0x09 0 0 (BitVec.ofNat 64 a.va) (1#64 <<< x.l0)))
          else
            if !(s.ctxDesc x.c.ctx).lnch then .error (.raise { privCause with atIssue := false })
            else
              let s := s.release
              match meetAll s x.c [a] 128 true false true (fun s _ => s) with
              | .error (.raise k) => .error (.raiseIn s k)
              | .error k => .error k
              | .ok ls =>
                let s := noteUse s x.c [a]
                match ls with
                | [] => sysNop s
                | p :: _ =>
                  let rec0 := s.load (dieOfCore x.c.core) p.2 128
                  if s.recordWaits (recordCtx rec0 x.c.ctx) then .error .hold
                  else sysNop (s.submit rec0 x.c.ctx x.c.asid a.va e.w)) s

/-- The first record that BOOTL was written for is read: once a launch slot is free, and the record and its context's tables are in
service (R250, R416, R422). One that cannot be read has no registered context. (log 40, DESIGN CHOICE) -/
def State.bootNext (s : State) : State :=
  match s.mgmt.bootq with
  | [] => s
  | pa :: rest =>
    let kept := s.paReady pa = .yes ∧ !s.poisoned pa 128
    let bs := if kept then s.readPa pa 128 else List.replicate 128 0#8
    if 256 ≤ s.launchSlots.length ∨ s.mgmt.ps ≠ 0#2 ∨ s.paReady pa = .wait ∨ s.recordWaits (recordCtx bs 0) then s
    else
      let s := { s with mgmt := { s.mgmt with bootq := rest } }.release
      if kept then s.submit (s.readPa pa 128) 0 (2 ^ 16) pa true else s
/-- A write to BOOTL (R416). -/
def execBootl (pa : BitVec 64) (s : State) : Out :=
  let s := { s with free := s.free + 1 }
  if !s.hostOpen then .next s else
  if (s.mgmt.stage ≠ 2 ∧ s.mgmt.stage ≠ 3) ∨ pa.toNat % 128 ≠ 0 then .next s
  else
    let s := { s with mgmt := { s.mgmt with bootl := pa &&& 0x000FFFFFFFFFFFFF#64 } }
    if s.paKind pa.toNat = .none then .next s
    else .next { s with mgmt := { s.mgmt with bootq := s.mgmt.bootq ++ [pa.toNat] } }.bootNext

/-! ## Admission (R252, R253) -/

/-- a comes before b among pending or waiting launches: higher PRIO, earlier DEADLINE, then order (R253, R255). -/
def Launch.before (a b : Launch) : Bool :=
  let far := fun (l : Launch) => match l.deadline with
    | some d => (0, d)
    | none => (1, 0)
  let (x, y) := (far a, far b)
  if a.prio ≠ b.prio then decide (b.prio < a.prio)
  else if x ≠ y then decide (x.1 < y.1) || (x.1 == y.1 && decide (x.2 < y.2))
  else decide (a.admitOrd < b.admitOrd)
/-- The deadline of a launch has expired. -/
def State.expired (s : State) (l : Launch) : Bool := match l.deadline with
  | some d => decide (d ≤ s.cycle)
  | none => false
/-- Blocks of a launch that have still to be placed for the first time. -/
def Launch.unplaced (l : Launch) : Nat := l.nblocks - l.placed.length
/-- An admitted Q launch has blocks to place; its resources are kept for it until they are placed (R254), but not while the driver
holds its context stopped. -/
def State.gangWaiting (s : State) : Bool :=
  s.launches.any (fun l => l.st == 2 && l.cls == 0 && decide (0 < l.unplaced) && !(s.ctxSt l.ctx).stopped)
/-- Every block of a pending Q launch can be placed at once (R253). (log 25, DEDUCED) -/
def State.qFits (s : State) (l : Launch) : Bool := !s.gangWaiting && decide (l.nblocks ≤ s.capNow l)

/-- Cores whose harvest-held resources an admitted Q launch needs: no more of them than its blocks take (R269). -/
def State.demandCores (s : State) (l : Launch) : List Nat :=
  let caps := (List.range 160).map (fun k =>
    if !s.coreUp k then (0, 0)
    else (capOf l (s.ownerTop k l) 64 (s.coreLoad k l.accu (fun _ => true)), capOf l s.bmLimit 64 (s.coreLoad k l.accu (fun b => !b.harv))))
  let fits := fun (ks : List Nat) => decide (l.nblocks ≤ fitCount l.gsize ((List.range 160).map (fun k =>
    let c := caps.getD k (0, 0)
    if ks.contains k then c.2 else c.1)))
  let more := ((List.range 160).filter (fun k => (s.core k).lending && decide ((caps.getD k (0, 0)).1 < (caps.getD k (0, 0)).2))).foldl
    (fun ks k => if fits ks then ks else ks ++ [k]) []
  (more.foldl (fun ks k => if fits (ks.filter (· ≠ k)) then ks.filter (· ≠ k) else ks) more).filter (fun k => (s.core k).revoke == 0)

/-- The stakeboat admits a pending Q launch that fits, when no earlier one in the order fits (R253); one of a stopped context cannot be
placed, and waits (R265). -/
def execLaunchAdmission (id : Nat) (s : State) : Out :=
  let s := { s with free := s.free + 1 }
  match s.launch? id with
  | none => .next s
  | some l =>
    let first := s.launches.all (fun k => !(k.st == 1 && k.before l && !(s.ctxSt k.ctx).stopped && s.qFits k))
    if l.st ≠ 1 ∨ (s.ctxSt l.ctx).stopped ∨ s.mgmt.ps ≠ 0#2 ∨ s.expired l ∨ !first ∨ !s.qFits l then .next s
    else
      let s := s.modLaunch id (fun l => { l with admitOrd := s.order })
      let s := { s with order := s.order + 1 }
      .next ((s.demandCores l).foldl (fun s k => s.modCore k (fun c => { c with revoke := 1 })) (s.setLaunch id 2))

/-- A pending Q launch whose deadline expires is rejected with reason LATE (R253), while the stakeboat is not held (R423). -/
def execLaunchDeadlineExpire (id : Nat) (s : State) : Out :=
  match s.launch? id with
  | none => .next s
  | some l =>
    if l.st = 1 ∧ l.cls = 0 ∧ s.expired l ∧ s.mgmt.ps = 0#2 then
      let s := (s.modLaunch id (fun l => { l with reason := 8 })).setLaunch id 3
      .next { s with launches := s.launches.filter (fun k => k.id ≠ id) }
    else .next s

/-! ## Placement (R255 to R260) -/

/-- A byte of the dependence bitmap has a bit set; a byte that cannot be read counts as not set. (log 22, DEDUCED) -/
def State.depBit (s : State) (l : Launch) (p : Nat) : Bool :=
  let e := s.launchHandle l (l.f 16 10 0)
  let off := l.w 17 + p / 8
  if !e.valid ∨ e.bound ≤ off then false
  else
    match s.place (s.ctxDesc l.ctx).asid ((e.base + off) % 2 ^ 64) { r := true, w := false, x := false, space := e.space, kd := some e.kd } 17 with
    | .error _ => false
    | .ok loc =>
      if s.locReady 0 loc ≠ .yes ∨ s.locPoison 0 loc 1 then false
      else (((s.beforeRmw 0 loc).load 0 loc.home 1).getD 0 0#8).getLsbD (p % 8)
/-- Every producer tile of block c has its bit set (R260). -/
def State.depMet (s : State) (l : Launch) (c : Nat) : Bool :=
  if !bitOf (l.w 16) 31 then true
  else
    let p0 : Int := Int.fdiv (l.sw 18 * (c : Int) + l.sw 19) (l.w 20 : Int)
    let lo := p0.toNat
    let hi := min (p0 + (l.w 21 : Int)) (l.w 22 : Int)
    (List.range (hi.toNat - lo)).all (fun i => s.depBit l (lo + i))

/-- The first group of unplaced blocks, from block b on, whose dependences are met. -/
def State.firstReady (s : State) (l : Launch) : Nat → Nat → Option Nat
  | 0, _ => none
  | n + 1, b =>
    if l.nblocks ≤ b then none
    else if !l.placed.contains b && (List.range l.gsize).all (fun i => s.depMet l (b + i)) then some b
    else State.firstReady s l n (b + l.gsize)

/-- Blocks of a launch that are switched out and may come back: not parked, their context not stopped. (log 25, DEDUCED) -/
def State.switchedOut (s : State) (l : Launch) : List Block :=
  s.blocks.filter (fun b => b.launch == l.id && b.place == 1 && !(s.ctxSt b.ctx).stopped)

/-- The BLOCKID that comes next for placement in a launch: the lowest of those switched out and those ready (R255). -/
def State.nextBlock (s : State) (l : Launch) : Option Nat :=
  let out := (s.switchedOut l).map (fun b => b.blockId)
  let new := s.firstReady l l.nblocks 0
  (out ++ new.toList).foldl (fun m b => match m with
    | none => some b
    | some q => some (min b q)) none

/-- The cores of a group fit the rules of R256, and no block of the same context and VCORE is resident elsewhere (R29). -/
def State.vcoreOk (s : State) (ctx vcore core : Nat) : Bool :=
  decide (vcore < 160) && s.blocks.all (fun b => !(b.ctx == ctx && b.vcore == vcore && b.place == 0) || b.core == core)

/-- A crew at its start (R14, R364). -/
def newCrew (s : State) (l : Launch) (blk id idx core quad qslot : Nat) : Crew :=
  let d := s.ctxDesc l.ctx
  let a : PcSlot := { PcSlot.empty with st := .running, pc := l.entry, mask := BitVec.allOnes 64 }
  let z : List Word := List.replicate 8 0#32
  markRegion
    { id := id, blk := blk, ctx := l.ctx, idx := idx, core := core, quad := quad, qslot := qslot, n := l.regs,
      regs := List.replicate 256 Row.zero, a := a, b := PcSlot.empty, depth := 0, dsh := d.dsh, dsPart := none, dsValid := true,
      queues := z, flags := List.replicate 12 0, lastIssue := none, lastEver := none, flights := [], mode := 0#32, fp := Row.zero,
      rng := mkRow (fun l => BitVec.ofNat 32 (0x9E3779B9 + l)), rngCap := Row.zero, regc := 0#32, pfmode := 0#32, srOld := [],
      exited := 0#64, ocnt := List.replicate 4 0#32, errs := [], gatestat := 0#32, trapq := [], insvc := false, svcSlot := false, skip := false,
      trapcause := 0#32, trapva := 0#64, tvec := none, trecs := List.replicate 16 z, arrive := List.replicate 16 0#64, armed := 0#16,
      armedP := 0#16, carrive := List.replicate 4 0#64, gates := [], priv := d.priv, dom := d.dom, dent := l.dent,
      asid := d.asid, ht := l.ht, window := none, budget := none, demote := 0, demotedFrom := none, stall := none,
      unwinding := none, stepPend := false, retired := false } false l.entry

/-- First iteration of block b under even-split (R257). -/
def Launch.itBegin (l : Launch) (b : Nat) : Nat := if l.f 10 17 16 = 1 then b * l.w 12 / l.nblocks else b
/-- ITRANGE of a block (R257). -/
def Launch.itrange (l : Launch) (b : Nat) : DWord := BitVec.ofNat 64 (l.itBegin (b + 1) * 2 ^ 32 + l.itBegin b)
/-- FIXUP of a block (R257, R258). -/
def Launch.fixup (l : Launch) (b : Nat) : Word :=
  if l.f 10 17 16 ≠ 1 then 0#32
  else
    let (x, y, t) := (l.itBegin b, l.itBegin (b + 1), l.w 13)
    BitVec.ofNat 32 ((if x % t ≠ 0 then 1 else 0) + (if y % t ≠ 0 ∧ y < l.w 12 then 2 else 0) + (if x = y then 4 else 0))

/-- A block enters a core for the first time: its state starts as R14, R183, R203, R212, R257 and R273 state, and lending
starts where its launch declares a quota (R227). The first block of a context without blocks finds TVEC at TVEC0 (R363; log 41, DEDUCED). -/
def State.startBlock (s : State) (l : Launch) (b core off vcore : Nat) (seats : List (Nat × Nat)) : State :=
  let d := s.ctxDesc l.ctx
  let s := if s.blocks.any (fun q => q.ctx == l.ctx && q.place ≠ 3) then s
    else s.setCtxSt { s.ctxSt l.ctx with desc := s.readPa (s.mgmt.ctxtab.toNat + 64 * l.ctx) 64, tvecSet := false }
  let key := s.order
  let blk : Block :=
    { id := key, launch := l.id, ctx := l.ctx, core := core, blockId := b, nblocks := l.nblocks, group := b / l.gsize, rank := b % l.gsize,
      gsize := l.gsize, vcore := vcore, cls := if d.sys then 0 else l.cls + 1, harv := l.cls == 2, ncrews := l.crews, bmOff := off,
      bmLen := l.bmem, arr := List.replicate 64 0#32, barP := 0#16, barCnt := List.replicate 16 none, barIn := List.replicate 16 [],
      ump := List.replicate 16 0, cbarP := 0#4, cbarOn := List.replicate 4 false, cump := List.replicate 4 0, lscale := 0#32,
      ovf := 0#32, itrange := l.itrange b, fixup := l.fixup b, umpt := BitVec.ofNat 32 (l.f 31 23 0),
      units := BitVec.ofNat 64 (2 ^ l.accu - 1), spilled := 0#64, accu := l.accu, place := 0, yielded := [], since := s.cycle,
      arrOff := s.arrPlace core off l.bmem key l.id (l.cls == 2) }
  let cs := (List.range l.crews).map (fun i =>
    let p := seats.getD i (0, 0)
    newCrew s l key (s.order + 1 + i) i core p.1 p.2)
  let s := { s with blocks := s.blocks ++ [blk], crews := s.crews ++ cs, order := s.order + 1 + l.crews }
  let s := if l.cls ≠ 2 ∧ l.lend ≠ 0 ∧ !(s.core core).lending then s.modCore core (fun k => { k with lending := true, interf := 0 }) else s
  s.modLaunch l.id (fun l => { l with placed := l.placed ++ [b], late := l.late })

/-- A block may come to a core: its group's resident blocks are on other cores of that cluster (R256, R379). -/
def State.mateCoreOk (s : State) (b : Block) (core : Nat) : Bool :=
  b.gsize == 1 || s.blocks.all (fun q => !(q.launch == b.launch && q.group == b.group && q.place == 0 && q.id ≠ b.id) ||
    (q.core ≠ core && q.core / 4 == core / 4))

/-- One block of a placement: switched back in with what its image holds, or started (R264, R379). -/
def State.placeBlock (s : State) (l : Launch) (b core vcore : Nat) (quads : List Nat) : Option State :=
  match s.room core l (some quads) with
  | none => none
  | some (off, seats) =>
    match s.blocks.find? (fun q => q.launch == l.id && q.blockId == b) with
    | some q =>
      let unitsOk := (s.coreUnits q).all (fun u => s.unitFree core u)
      if q.place = 1 ∧ s.vcoreOk q.ctx q.vcore core ∧ s.mateCoreOk q core ∧ unitsOk ∧ windowsFit (s.core core).gateUse (s.crewsOf q.id) ∧
          s.opsFit q.id core then
        some ((s.release.loadImage q).enterCore q.id core off seats) else none
    | none => if s.vcoreOk l.ctx vcore core then some (s.startBlock l b core off vcore seats) else none

/-- The blocks of a group placed on the cores of a list. -/
def State.placeGroup (s : State) (l : Launch) (b : Nat) (quads : List Nat) : Nat → List (Nat × Nat) → Option State
  | _, [] => some s
  | i, p :: ps =>
    match s.placeBlock l (b + i) p.1 p.2 ((quads.drop (l.crews * i)).take l.crews) with
    | none => none
    | some s => State.placeGroup s l b quads (i + 1) ps

/-- The cores of a group are distinct and of one cluster (R256). -/
def groupCoresOk (cores : List Nat) : Bool :=
  cores.dedup.length == cores.length && cores.all (fun k => k / 4 == cores.headD 0 / 4)

/-- A block may be switched out to place another on its core: a B block for a B launch of higher PRIO, or a B or H block whose crew has issued
yield and nothing since (R226, R255). -/
def State.mayOust (s : State) (l : Launch) (b : Block) : Bool :=
  match s.launch? b.launch with
  | none => false
  | some k => b.place == 0 && k.cls ≠ 0 && s.leavable b.id && (!b.yielded.isEmpty || (k.cls == 1 && l.cls == 1 && decide (k.prio < l.prio)))

/-- The next block or group of a launch fits as the cores are now: on one core, or on as many cores of a cluster as the group has
blocks (R256). -/
def State.fitsNow (s : State) (l : Launch) : Bool :=
  match s.nextBlock l with
  | none => false
  | some b =>
    let roomy := (List.range 160).filter (fun core => (s.room core l none).isSome)
    match s.blocks.find? (fun q => q.launch == l.id && q.blockId == b) with
    | some q => roomy.any (fun core => s.mateCoreOk q core && s.vcoreOk q.ctx q.vcore core)
    | none => if l.gsize = 1 then !roomy.isEmpty
        else (List.range 40).any (fun c => decide (l.gsize ≤ (roomy.filter (fun core => core / 4 == c)).length))
/-- No launch that comes earlier in the order of R255 has a block or group that fits now. -/
def State.firstInOrder (s : State) (l : Launch) : Bool :=
  s.launches.all (fun k => !(k.st == 2 && k.id ≠ l.id && k.before l && !(s.ctxSt k.ctx).stopped && s.fitsNow k))
/-- The cores agree with the span affinity of a launch: they lie in its span while a core there has room (R256). -/
def State.spanOk (s : State) (l : Launch) (cores : List Nat) : Bool :=
  l.gshape ≠ 2 || cores.all (fun k => k / 20 == l.f 10 14 12) ||
    !(List.range 160).any (fun k => k / 20 == l.f 10 14 12 && (s.room k l none).isSome)

/-- The stakeboat places the next block or group of an admitted launch, ousting the blocks of a list first (R254 to R256). -/
def execBlockPlacement (launch first : Nat) (cores quads vcores out : List Nat) (s : State) : Out :=
  let s := { s with free := s.free + 1 }
  match s.launch? launch with
  | none => .next s
  | some l =>
    let back := s.blocks.any (fun b => b.launch == l.id && b.blockId == first)
    let g := if back then 1 else l.gsize
    let busy := l.cls ≠ 0 && s.gangWaiting
    let outs := out.filterMap s.block?
    if l.st ≠ 2 ∨ s.mgmt.ps ≠ 0#2 ∨ s.nextBlock l ≠ some first ∨ cores.length ≠ g ∨ !groupCoresOk cores ∨ busy ∨ (s.ctxSt l.ctx).stopped ∨
        (l.cls ≠ 0 ∧ !s.firstInOrder l) ∨ !outs.all (fun b => s.mayOust l b && cores.contains b.core) ∨ (!back && !s.spanOk l cores) then .next s
    else
      let place := fun (bs : List Block) =>
        (bs.foldl (fun s b => s.leaveCore b.id 1) s).placeGroup l first quads 0 (cores.zip (vcores ++ List.replicate g 0))
      -- a block is switched out for its PRIO only where the placement needs what it holds (R255)
      let idle := outs.any (fun b => b.yielded.isEmpty && (s.fitsNow l || (place (outs.filter (fun q => q.id ≠ b.id))).isSome))
      match (if idle then none else place outs) with
      | none => .next s
      | some s2 =>
        let left := ((s2.launch? launch).map Launch.unplaced).getD 0
        .next (if l.cls = 0 ∧ s2.capNow l < left then s else outs.foldl (fun s b => s.toImage b.id) s2)

/-! ## Retirement (R11, R261) -/

/-- A crew retires: no live lane, an empty divergence stack, and every OCNT COUNT zero (R11); what its arrival masks held then is kept
for the umpire (R337). -/
def execCrewRetire (crew : Nat) (s : State) : Out :=
  match s.crew? crew with
  | none => .next s
  | some c =>
    let c := settle s c
    if !c.retired ∧ c.a.st = .free ∧ c.b.st = .free ∧ c.depth = 0 ∧ c.stall.isNone ∧ c.unwinding.isNone ∧
        (List.range 4).all (fun k => c.count k == 0) then
      .next (s.modCrew crew (fun _ => { stopFlights s c with retired := true, narr := c.arrived }))
    else .next s

/-- The body of a launch-completion record (R390). -/
def launchBody (l : Launch) (code sub va write b : Nat) : List Byte :=
  leBytes 4 (sub * 256 + code) ++ leBytes 4 (l.slot + write * 256) ++ leBytes 8 va ++ leBytes 4 b ++ List.replicate 12 0#8

/-- One completion write: a bitmap OR or the flag add; a cause, a wait or the state after it (R261). -/
def State.launchWrite (s : State) (l : Launch) (w : Nat × Nat) : Except (Option (Nat × Nat × Nat)) State :=
  let e := s.launchHandle l (l.f (if w.1 = 0 then 24 else 26) 10 0)
  let off := if w.1 = 0 then l.w 25 + 4 * (w.2 / 32) else l.w 27
  let va := (e.base + off) % 2 ^ 64
  match s.place (s.ctxDesc l.ctx).asid va { r := true, w := true, x := false, space := e.space, kd := some e.kd } 18 with
  | .error f =>
    (match f.ready with
    | .wait => .error none
    | .dead => .error (some (0x0D, 0, va))
    | .yes => .error (some (0x0C, f.sub, va)))
  | .ok loc =>
    match s.locReady 0 loc with
    | .wait => .error none
    | .dead => .error (some (0x0D, 0, va))
    | .yes =>
      if s.locPoison 0 loc 4 then .error (some (0x0D, 0, va))
      else .ok (rmwLane (if w.1 = 0 then rmwWord (· ||| ·) else rmwWord (· + ·)) 4 s.release 0 loc (if w.1 = 0 then 2 ^ (w.2 % 32) else 1)).1

/-- The completion writes of a launch made in order while none is held; at the end the launch is COMPLETE (R261). -/
def State.launchWrites : Nat → State → Nat → State
  | 0, s, _ => s
  | n + 1, s, id =>
    match s.launch? id with
    | none => s
    | some l =>
      if l.hold.isSome ∨ l.st ≠ 2 then s
      else
        match l.writes with
        | [] =>
          if l.retired < l.nblocks then s
          else
            let s := (s.modLaunch id (fun l => { l with late := l.late || s.expired l })).setLaunch id 4
            { s with launches := s.launches.filter (fun k => k.id ≠ id) }
        | w :: ws =>
          match s.launchWrite l w with
          | .ok s => State.launchWrites n (s.modLaunch id (fun l => { l with writes := ws })) id
          | .error none => s
          | .error (some (code, sub, va)) =>
            let s := s.noteBadAt (s.ctxDesc l.ctx).asid va 18
            let h := s.mkRecord none l.ctx 5 l.ctx 0 (s.ctxDesc l.ctx).asid 0
              (launchBody l code sub va w.1 (if w.1 = 0 then w.2 else 0)) none (some (l.id, 0))
            let (s, seq) := s.postRecord h
            s.modLaunch id (fun l => { l with hold := some seq })

/-- The lent memory of a core was `old` bytes and has become smaller: its harvest blocks are revoked, those above the new boundary
and those that lie below it, outside the lent memory (R268, R407). (log 26, DEDUCED) -/
def State.checkLent (s : State) (core old : Nat) : State :=
  let k := s.core core
  if k.lending && k.revoke == 0 && decide (s.lentBytes core < old) && (s.onCore core).any (fun b => b.harv && b.place == 0) then
    s.modCore core (fun k => { k with revoke := 1 })
  else s

/-- The group's cluster-barrier state goes over from a block that retires to the block of the lowest rank left, with the UMPT of the
rank-0 block (R274, R375). -/
def State.handLead (s : State) (b : Block) : State :=
  let mates := (s.groupBlocks b).filter (fun q => q.id ≠ b.id && q.place ≠ 3)
  match mates with
  | [] => s
  | q :: qs =>
    if (s.groupLead b).id ≠ b.id then s
    else s.modBlock (qs.foldl (fun m r => if r.rank < m.rank then r else m) q).id (fun r =>
      { r with cbarP := b.cbarP, cbarOn := b.cbarOn, cump := b.cump, leadUmpt := some b.cbarLimit })

/-- A block whose crews have all retired performs its release and frees what it held; the launch's completion writes follow
(R11, R245, R261). -/
def execBlockRetire (blk : Nat) (s : State) : Out :=
  match s.block? blk with
  | none => .next s
  | some b =>
    if b.place ≠ 0 ∨ !(s.crewsOf blk).all (fun c => c.retired) then .next s
    else
      let old := s.lentBytes b.core
      let s := s.release.handLead b
      let s := { s with blocks := s.blocks.filter (fun q => q.id ≠ blk), crews := s.crews.filter (fun c => c.blk ≠ blk),
                        spills := s.spills.filter (fun p => p.1 ≠ blk), saved := s.saved.filter (fun x => x.blk ≠ blk) }
      let s := s.modLaunch b.launch (fun l =>
        let l := { l with retired := l.retired + 1 }
        { l with writes := l.writes ++ (if bitOf (l.w 24) 31 then [(0, b.blockId)] else []) ++
                   (if l.retired = l.nblocks ∧ bitOf (l.w 26) 31 then [(1, 0)] else []) })
      let n := ((s.launch? b.launch).map (fun l => l.writes.length)).getD 0
      .next ((State.launchWrites (n + 1) s b.launch).checkLent b.core old)

/-! ## Moves (R246, R255, R264) -/

/-- A block may be moved: it has no operation, gate call or waiting request, so that nothing of it stays behind. (log 25, DEDUCED) -/
def State.movable (s : State) (b : Block) : Bool :=
  b.place == 0 && !s.ops.any (fun o => o.blk == b.id) && !s.accas.any (fun a => a.blk == b.id) && !s.accfs.any (fun a => a.blk == b.id) &&
    (s.crewsOf b.id).all (fun c => c.gates.isEmpty && c.stall.isNone)

/-- A B or H block moves to another core at an instruction boundary, with a release before and the acquire after (R246, R255). -/
def execBlockMigration (blk core : Nat) (quads : List Nat) (s : State) : Out :=
  let s := { s with free := s.free + 1 }
  match s.block? blk with
  | none => .next s
  | some b =>
    match s.launch? b.launch with
    | none => .next s
    | some l =>
      let others := s.blocks.filter (fun q => q.id ≠ blk)
      let peers := others.filter (fun q => q.launch == b.launch && q.group == b.group && q.place == 0)
      let unitsOk := (List.range 64).all (fun u => !b.units.getLsbD u || s.unitFree core u)
      let vOk := others.all (fun q => !(q.ctx == b.ctx && q.vcore == b.vcore && q.place == 0) || q.core == core)
      let groupOk := b.gsize == 1 || peers.all (fun q => q.core ≠ core && q.core / 4 == core / 4)
      if l.cls = 0 ∨ core = b.core ∨ !s.movable b ∨ !unitsOk ∨ !vOk ∨ !groupOk ∨ s.gangWaiting then .next s
      else
        match s.room core { l with record := l.record.take 36 ++ List.replicate 4 0#8 ++ l.record.drop 40 } (some quads) with
        | none => .next s
        | some (off, seats) => .next ((s.leaveCore blk 1).enterCore blk core off seats)

/-- The spin hand-off applies to a launch: every resident crew has been demoted for SPINT cycles, a block of it waits, and the last
check lies SPINT cycles back (R264). -/
def State.spinning (s : State) (l : Launch) : Bool :=
  let res := s.blocks.filter (fun b => b.launch == l.id && b.place == 0)
  let keys := res.map (fun b => b.id)
  let cs := s.crews.filter (fun c => keys.contains c.blk && !c.retired)
  l.cls == 1 && l.st == 2 && !cs.isEmpty && (!(s.switchedOut l).isEmpty || decide (0 < l.unplaced)) &&
    (l.spinAt == 0 || decide (l.spinAt + s.mgmt.spint.toNat ≤ s.cycle)) &&
    cs.all (fun c => c.demotedFrom.any (fun d => decide (d + s.mgmt.spint.toNat ≤ s.cycle)))
/-- The cycle since which every crew of a block has been demoted. -/
def State.demotedSince (s : State) (blk : Nat) : Nat :=
  ((s.crewsOf blk).filter (fun c => !c.retired)).foldl (fun m c => max m (c.demotedFrom.getD s.cycle)) 0

/-- Virtual cores for blocks of a context that come to the cores of a list: the lowest that none of its blocks has elsewhere (R29). -/
def State.freeVcores (s : State) (ctx : Nat) : List Nat → List Nat → List Nat
  | [], _ => []
  | k :: ks, used =>
    let v := ((List.range 160).find? (fun v => !used.contains v && s.vcoreOk ctx v k)).getD 160
    v :: State.freeVcores s ctx ks (v :: used)
/-- Block p of a launch placed in what a switched-out block has left on a core, with the other blocks of its group where it has not
been placed before (R256, R264). -/
def State.handTo (s : State) (l : Launch) (p core vcore : Nat) (quads : List Nat) : Option State :=
  if l.gsize = 1 ∨ s.blocks.any (fun q => q.launch == l.id && q.blockId == p) then
    (s.placeBlock l p core vcore quads).orElse (fun _ => (s.room core l none).bind (fun r => s.placeBlock l p core vcore (r.2.map (fun q => q.1))))
  else
    let seats := (core :: ((List.range 160).filter (fun k => k / 4 == core / 4 && k ≠ core))).filterMap (fun k =>
      (s.room k l none).map (fun r => (k, r.2.map (fun q => q.1)))) |>.take l.gsize
    let ks := seats.map (fun x => x.1)
    if ks.length ≠ l.gsize then none
    else s.placeGroup l p (seats.flatMap (fun x => x.2)) 0 (ks.zip (vcore :: s.freeVcores l.ctx ks.tail [vcore]))

/-- The spin hand-off: the block demoted longest is switched out, and the longest-waiting block of its launch that can be placed takes
its place; where none can, nothing changes. Either way the check comes again after SPINT cycles (R264). -/
def execSpinHandoff (blk vcore : Nat) (s : State) : Out :=
  let s := { s with free := s.free + 1 }
  match s.block? blk with
  | none => .next s
  | some b =>
    match s.launch? b.launch with
    | none => .next s
    | some l =>
      let res := s.blocks.filter (fun q => q.launch == l.id && q.place == 0)
      if b.place ≠ 0 ∨ !s.leavable blk ∨ !s.spinning l ∨ res.any (fun q => decide (s.demotedSince q.id < s.demotedSince blk)) then .next s
      else
        let quads := ((s.crewsOf blk).filter (fun c => !c.retired)).map (fun c => c.quad)
        let out := (s.switchedOut l).foldl (fun (m : Option Block) q => match m with
          | none => some q
          | some r => if q.since < r.since then some q else some r) none
        let s1 := s.leaveCore blk 1
        -- an unplaced block has waited since the admission, and so longest
        let cands := (s.firstReady l l.nblocks 0).toList ++ (out.map (fun q => q.blockId)).toList
        let s2 := match cands.findSome? (fun p => s1.handTo l p b.core vcore quads) with
          | some t => t.toImage blk
          | none => s
        .next (s2.modLaunch l.id (fun l => { l with spinAt := max 1 s.cycle }))

/-- yield (R226): the block may be switched out before the crew's next issue; nothing else. -/
def execYield (f : FormS) (s : State) : Out :=
  issue (specS f [] [] .none) (fun _ => f.body ≠ 0#55)
    (fun x s => if x.act = 0#64 then sysNop s else sysNop (s.modBlock x.c.blk (fun b =>
      { b with yielded := (x.id, s.order) :: b.yielded.filter (fun p => p.1 ≠ x.id) }))) s

/-! ## Harvest (R227, R268 to R271) -/

/-- hvhint has an effect (R227). -/
def hintActs (x : Ctx) (s : State) : Bool :=
  x.act ≠ 0#64 && (s.block? x.c.blk).any (fun b => !b.harv && ((s.launch? b.launch).map Launch.lend |>.getD 0) ≠ 0)

/-- hvhint.lend (R227): lending turns on for the core. (log 26, DEDUCED) -/
def execHvhintLend (f : FormS) (s : State) : Out :=
  issue (specS f [] [] .none) (fun _ => f.body ≠ 1#55)
    (fun x s => if hintActs x s then sysNop (s.modCore x.c.core (fun k =>
        if k.revoke ≠ 0 then { k with relend := true } else if k.lending then k else { k with lending := true, interf := 0 }))
      else sysNop s) s
/-- hvhint.recall (R227): revocation starts on the core. -/
def execHvhintRecall (f : FormS) (s : State) : Out :=
  issue (specS f [] [] .none) (fun _ => f.body ≠ 0#55)
    (fun x s => if hintActs x s then sysNop (s.modCore x.c.core (fun k =>
        let k := { k with relend := false }
        if k.lending && k.revoke == 0 then { k with revoke := 1 } else k))
      else sysNop s) s

/-- The slots of a crew that may issue but for the pipes they need: they run, wait for nothing, and their next instruction passes R44 and
R46 (R269). -/
def State.readySlots (s : State) (c : Crew) : List PcSlot :=
  if c.retired || c.stall.isSome || c.unwinding.isSome || (s.ctxSt c.ctx).stopped || decide (c.demote ≠ 0) then []
  else [c.a, c.b].filter (fun p => p.st == .running && !p.trapped && p.barWait.isNone && p.accaWait.isNone && !p.line.isEmpty &&
    mayIssue s (settle s c) (Hdr.ofWord (slotWordOf p.line (pcSlot p.pc))))
/-- A crew is eligible to issue but for a pipe that a harvest instruction still holds (R59, R269). -/
def State.hindered (s : State) (c : Crew) : Bool :=
  (s.readySlots c).any (fun p => (slotPipes p).any (fun q => (s.pipeHeld c.core c.quad q).any (fun u => u.harvest)))

/-- A cycle of interference: a Q crew was eligible but for a pipe or port that a harvest instruction held; the 64th since
lending turned on starts revocation (R269). (log 26, DEDUCED) -/
def execHarvestInterference (core : Nat) (s : State) : Out :=
  if (s.core core).lending ∧
      s.crews.any (fun (c : Crew) => (s.onCore core).any (fun b => b.id == c.blk && b.place == 0 && b.cls == 1) && s.hindered c) then
    .next (s.modCore core (fun k =>
      { k with interf := k.interf + 1, revoke := if 64 ≤ k.interf + 1 ∧ k.revoke = 0 then 1 else k.revoke }))
  else .next s

/-- Cores whose lent memory the next block or group of a launch needs: the first core, or the cores of the first cluster, that would
hold it without their harvest blocks (R256, R269). (log 26, DEDUCED) -/
def State.demandFor (s : State) (l : Launch) : List Nat :=
  let held := fun (k : Nat) => (s.core k).lending && (s.ownerRoom k l false none).isNone && (s.ownerRoom k l true none).isSome
  let back := (s.nextBlock l).any (fun b => s.blocks.any (fun q => q.launch == l.id && q.blockId == b))
  if l.gsize = 1 ∨ back then ((List.range 160).find? held).toList
  else
    let here := fun (c : Nat) => (List.range 160).filter (fun k => k / 4 == c && (s.ownerRoom k l true none).isSome)
    match (List.range 40).find? (fun c => decide (l.gsize ≤ (here c).length) && (here c).any held) with
    | some c => (here c).filter held
    | none => []
/-- An owner block or group waits that can be placed only by using the lent memory of a core (R269, R407). (log 26, DEDUCED) -/
def State.lentDemand (s : State) (core : Nat) : Bool :=
  s.launches.any (fun l => l.st == 2 && l.cls ≠ 2 && !(s.ctxSt l.ctx).stopped && (s.nextBlock l).isSome && !s.fitsNow l && (s.demandFor l).contains core)

/-- The lent lines of a core become zero once they are copied; what an owner block holds there stays (R270). -/
def State.zeroLent (s : State) (core : Nat) : State :=
  let lo := s.bmLimit - s.lentBytes core
  let own := blockSpans (s.onCore core)
  (List.range (s.lentBytes core / 256)).foldl (fun (s : State) i =>
    if own.any (fun u => decide (lo + 256 * i < u.1 + u.2) && decide (u.1 < lo + 256 * (i + 1))) then s
    else { s with bmem := s.bmem.write (coreKey core (lo + 256 * i)) (List.replicate 256 0#8) }) s

/-- Revocation on an owner demand: the harvest crews of the core stop, their engine commands pause at a 256-byte unit, and their
blocks are parked (R269, R270). (log 26, DEDUCED) -/
def execHarvestRevocation (core : Nat) (s : State) : Out :=
  let s := { s with free := s.free + 1 }
  let k := s.core core
  if k.lending ∧ (k.revoke = 1 ∨ (k.revoke = 0 ∧ s.lentDemand core)) then
    let bs := (s.onCore core).filter (fun b => b.harv && b.place == 0)
    if s.ops.any (fun (o : Op) => bs.any (fun b => b.id == o.blk) && o.cls < 2 && o.pause.isEmpty && !s.atUnit o 256) then
      .next (s.modCore core (fun k => { k with revoke := 1 }))
    else .next (((bs.foldl (fun s b => s.leaveCore b.id 2) s).zeroLent core).modCore core (fun k => { k with revoke := 2, parked := k.parked || !bs.isEmpty }))
  else .next s

/-- The parking copy has ended: lending turns off and the owner holds everything (R270). (log 26, DEDUCED) -/
def execHarvestParkComplete (core : Nat) (s : State) : Out :=
  if (s.core core).revoke = 2 then .next (s.modCore core (fun k => { k with revoke := 0, lending := k.relend, relend := false, interf := 0 })) else .next s

/-- Parked harvest state resumes on its own core when lending is on again and it fits (R271). -/
def execHarvestResume (blk : Nat) (quads : List Nat) (s : State) : Out :=
  let s := { s with free := s.free + 1 }
  match s.block? blk with
  | none => .next s
  | some b =>
    match s.launch? b.launch with
    | none => .next s
    | some l =>
      if b.place ≠ 2 ∨ (s.ctxSt b.ctx).stopped ∨ l.st ≠ 2 ∨ !s.vcoreOk b.ctx b.vcore b.core ∨ !s.opsFit blk b.core then .next s
      else
        match ({ s with blocks := s.blocks.map (fun (q : Block) => if q.id = blk then { q with place := 1 } else q) }).room b.core l (some quads) with
        | none => .next s
        | some (off, seats) =>
          let s := s.enterCore blk b.core off seats
          .next (s.modCore b.core (fun k => { k with parked := s.blocks.any (fun q => q.core == b.core && q.place == 2) }))

/-! ## Events of time (R157, R169, R218, R274) -/

/-- The barrier count of a block, or of its group, has reached LIMIT times 1024: the umpire acts (R274). -/
def execUmpireTimeout (blk : Nat) (cl : Bool) (id : Nat) (s : State) : Out :=
  match s.block? blk with
  | none => .next s
  | some b =>
    let n := if cl then b.cump.getD id 0 else b.ump.getD id 0
    let limit := (if cl then b.cbarLimit else b.umpt).toNat
    if b.place = 0 ∧ (!cl || (s.groupLead b).id == b.id) ∧ limit ≠ 0 ∧ limit * 1024 ≤ n ∧ !s.held.any (fun h => h.kind == 4 && h.ctx == b.ctx) ∧
        !(s.ctxSt b.ctx).dead then
      .next (s.umpire b cl id 0 0)
    else .next s

/-- Cycles left to the call at a level; none without a limit. Level 1 is the outermost call (R218). -/
def levelBudget (c : Crew) (level : Nat) : Option Nat :=
  if level = 0 ∨ c.gates.length < level then none
  else if level = c.gates.length then c.budget
  else match c.gates[c.gates.length - level - 1]? with
    | some g => g.budget
    | none => none

/-- The budget of a gate call has expired: the call is unwound with STATUS 2 (R218). -/
def execGateBudgetExpire (crew level : Nat) (s : State) : Out :=
  match s.crew? crew with
  | none => .next s
  | some c =>
    if levelBudget c level = some 0 ∧ !(c.unwinding.any (fun u => decide (u.1 ≤ level))) then .next (s.unwind crew level 2 0) else .next s

/-- The pause count of a crew has run out: its demotion ends (R157). -/
def execPauseExpire (crew : Nat) (s : State) : Out :=
  .next (s.modCrew crew (fun c => if c.demote = 0 then { c with demotedFrom := none } else c))

/-- A queued pfd request whose deadline passes before it begins is dropped and counted (R169). (log 21, DEDUCED) -/
def execPfdDeadlineDrop (core order : Nat) (s : State) : Out :=
  let k := s.core core
  match k.pfds.find? (fun q => q.order == order) with
  | none => .next s
  | some q =>
    if q.begun ∨ s.cycle ≤ q.deadline then .next s
    else
      let s := s.modCore core (fun k => { k with pfds := k.pfds.filter (fun r => r.order ≠ order) })
      let d := dieOfCore core
      .next { s with mgmt := { s.mgmt with pfddrop := s.mgmt.pfddrop.set d (s.mgmt.pfddrop.getD d 0#32 + 1#32) } }

end Sys2Proof.Machine
end

