-- ==== Sys2Proof/Machine/Cox.lean ====
section
/-!
DEFINITION. Cox.lean: the cox instructions, chunk transfers, faults and records, single steps, time-sharing, and the starting
and ending of contexts (spec 14 R300 to R333; 23 R418, R419).
-/

namespace Sys2Proof.Machine

open Sys2Proof

/-! ## The cox and its contexts (R300 to R305) -/

/-- The cox of a port. -/
def State.cox (s : State) (port : Nat) : CoxSt := s.coxes.getD port CoxSt.reset
/-- Die of the cox of a port (R300). -/
def coxDie (port : Nat) : Nat := port / 8
/-- Word w of instruction memory; an unlisted word is zero. -/
def CoxSt.word (c : CoxSt) (w : Nat) : DWord :=
  match c.imem.find? (fun p => p.1 == w) with
  | some p => p.2
  | none => 0#64
/-- A word of instruction memory replaced, the list kept rising and without zero words. -/
def setWord : List (Nat × DWord) → Nat → DWord → List (Nat × DWord)
  | [], a, v => if v = 0#64 then [] else [(a, v)]
  | (k, b) :: r, a, v =>
    if a < k then (if v = 0#64 then (k, b) :: r else (a, v) :: (k, b) :: r)
    else if a = k then (if v = 0#64 then r else (k, v) :: r)
    else (k, b) :: setWord r a v
/-- Region entry i of a cox (R301). -/
def CoxSt.reg (c : CoxSt) (i : Nat) : Nat := (c.regions.getD i 0#64).toNat
/-- A word lies in a region with V = 1 (R301). -/
def regionHas (e w : Nat) : Bool :=
  bitOf e 63 && decide (bitsOf e 11 0 ≤ w) && decide (w ≤ bitsOf e 11 0 + bitsOf e 27 16) && decide (w < 4096)
/-- The region of a context holds a PC (R301, R309). -/
def State.inRegion (s : State) (port : Nat) (sl : CoxSlot) (pc : Nat) : Bool := regionHas ((s.cox port).reg sl.region) pc

/-! ## Buffer descriptors (R306) -/

/-- A buffer descriptor, decoded. -/
structure BufD where
  base : Nat
  v : Bool
  hf : Bool
  hnd : Nat
  op : Nat
  efmt : Nat
  lch : Nat
  count : Nat
deriving DecidableEq, Repr

/-- The fields of a descriptor. -/
def decodeBuf (bs : List Byte) : BufD :=
  let w := leNat ((bs.drop 8).take 4)
  { base := leNat (bs.take 8), v := bitOf w 31, hf := bitOf w 30, hnd := bitsOf w 26 16, op := bitsOf w 15 12, efmt := bitsOf w 11 8,
    lch := bitsOf w 4 0, count := bitsOf (leNat ((bs.drop 12).take 4)) 16 0 }
/-- A descriptor obeys R306; `noHt` says that the START names no handle table. -/
def bufLegal (bs : List Byte) (noHt : Bool) : Bool :=
  let d := decodeBuf bs
  let w := leNat ((bs.drop 8).take 4)
  let w3 := leNat ((bs.drop 12).take 4)
  let half := if bitOf d.base 63 then 2 ^ 64 else 2 ^ 56
  bitsOf w 29 27 == 0 && bitsOf w 7 5 == 0 && w3 / 2 ^ 17 == 0 && decide (d.op < 4) && decide (d.efmt < 4) && decide (8 ≤ d.lch) &&
    decide (d.lch ≤ 20) && decide (1 ≤ d.count) && decide (d.count ≤ 65536) && d.base % 256 == 0 &&
    (if d.hf then !noHt else canonical d.base && decide (d.base + d.count * 2 ^ d.lch ≤ half))
/-- A descriptor as it is loaded: with V = 0 where it breaks a rule (R306). -/
def loadBuf (bs : List Byte) (noHt : Bool) : List Byte :=
  if bufLegal bs noHt then bs else bs.set 11 (bs.getD 11 0#8 &&& 0x7F#8)
/-- Buffer i of a slot. -/
def CoxSlot.buf (sl : CoxSlot) (i : Nat) : BufD := decodeBuf (sl.bufs.getD i [])
/-- Register i of a slot. -/
def CoxSlot.c (sl : CoxSlot) (i : BitVec 4) : Nat := (sl.regs.getD i.toNat 0#64).toNat

/-! ## Accesses (R306, R333) -/

/-- Why an access does not go through: a cause, or memory that is not in service yet (R422). -/
inductive CoxBad where
  | cause (code sub va : Nat)
  | wait

/-- The places of n bytes at an offset of a buffer, cut at pages: the handle, bound and alignment checks of R161, a non-canonical VA
(BOUND), then the translation; nothing is accessed (R306, R395). `al` is the access size where it is checked. -/
def coxPieces (s : State) (port : Nat) (sl : CoxSlot) (d : BufD) (write : Bool) (al : Nat) : Nat → Nat → Nat → Except CoxBad (List (Loc × Nat))
  | 0, _, _ => .ok []
  | k + 1, off, n =>
    if n = 0 then .ok []
    else
      let e := if d.hf then s.handle sl.asid (coxDie port) sl.ht d.hnd 20 else HandleEntry.none
      let o := (d.base + off) % 2 ^ 64
      let va := (if d.hf then e.base + o else o) % 2 ^ 64
      let m := min n (65536 - va % 65536)
      if d.hf && e.wait then .error .wait
      else if d.hf && (e.space == 2 || !(if write then dstOk e else srcOk e)) then .error (.cause 0x0B 0 0)
      else if d.hf && (decide (e.bound < o + n) || bitOf o 63) then .error (.cause 0x0A 0 va)
      else if d.hf && va % al ≠ 0 then .error (.cause 0x09 0 va)
      else if !canonical va then .error (.cause 0x0A 0 va)
      else
        match s.place sl.asid va { r := !write, w := write, x := false, space := e.space, kd := if d.hf then some e.kd else none } 20 with
        | .error f => .error (match f.ready with
          | .wait => .wait
          | .dead => .cause 0x0D 0 va
          | .yes => .cause 0x0C f.sub va)
        | .ok l =>
          match s.locReady (coxDie port) l with
          | .wait => .error .wait
          | .dead => .error (.cause 0x0D 0 va)
          | .yes =>
            match coxPieces s port sl d write al k (off + m) (n - m) with
            | .ok r => .ok ((l, m) :: r)
            | .error x => .error x

/-- The pieces of n bytes at an offset of a buffer; a chunk has no access size to be aligned to. -/
def coxSpan (s : State) (port : Nat) (sl : CoxSlot) (d : BufD) (write : Bool) (off n : Nat) : Except CoxBad (List (Loc × Nat)) :=
  coxPieces s port sl d write 1 (n / 65536 + 2) off n

/-- The bytes at places, each with its poison. -/
def coxRead (s : State) (die : Nat) (ps : List (Loc × Nat)) : List (Byte × Bool) :=
  ps.flatMap (fun p =>
    let bs := (s.beforeLoad die p.1 p.2).load die p.1 p.2
    (List.range p.2).map (fun i => (bs.getD i 0#8, s.poisoned (p.1.readPa die + i) 1)))
/-- Bytes written at places, with poison by line. -/
def coxWrite (die : Nat) : State → List (Loc × Nat) → List (Byte × Bool) → State
  | s, [], _ => s
  | s, p :: ps, bs => coxWrite die (s.enginePut die p.1 (bs.take p.2)) ps (bs.drop p.2)

/-! ## Records, faults, boundaries (R327 to R332) -/

/-- The body of a cox fault record (R330). (log 29, DEDUCED) -/
def coxBody (s : State) (port k : Nat) (sl : CoxSlot) (code sub va trap : Nat) : List Byte :=
  leBytes 4 (port % 32 * 2 ^ 24 + k % 8 * 65536 + sub % 256 * 256 + code % 256) ++ leBytes 4 (sl.ctx * 65536 + sl.seq) ++
    leBytes 4 (sl.group * 2 ^ 24 + sl.phase.toNat * 4096 + sl.pc % 4096) ++ leBytes 4 trap ++ leBytes 8 va ++ leBytes 8 s.clock.toNat ++
    leBytes 8 ((s.cox port).word sl.pc).toNat ++ List.replicate 24 0#8 ++ sl.regs.flatMap (fun r => leBytes 8 r.toNat)

/-- A record of a context posted to the queue of its host context (R300, R330, R389). -/
def State.coxRecord (s : State) (port k code sub va trap : Nat) : State :=
  let sl := s.coxSlot port k
  let h := s.mkRecord none sl.ctx 3 sl.ctx (port * 2 ^ 24 + coxDie port * 64) sl.asid 0 (coxBody s port k sl code sub va trap) none none
  (s.postRecord h).1

/-- A context ended by an abort: its record, then the slot FREE (R332). -/
def State.coxAborted (s : State) (port k : Nat) : State := (s.coxRecord port k 0x0F 7 0 0).coxFree port k
/-- A KILL or an abort that waited for the chunk boundary takes effect (R327, R332). -/
def State.coxPending (s : State) (port k : Nat) : State :=
  let sl := s.coxSlot port k
  if sl.st = 0 then s else if sl.aborted then s.coxAborted port k else if sl.killed then s.coxFree port k else s
/-- A fault at the PC that the slot holds: FAULT, a record, a chunk boundary; the send part in progress is dropped (R329). (log 29, DEDUCED) -/
def State.coxFault (s : State) (port k code sub va trap : Nat) : State :=
  let s := s.modSlot port k (fun x =>
    { x with st := 4, cause := code, sub := sub, why := 0, step := false, spin := 0, send := none })
  (s.coxRecord port k code sub va trap).coxPending port k
/-- A chunk boundary of a running context: one that waits for it ends; another READY context makes it READY (R327, R328). -/
def State.coxBoundary (s : State) (port k : Nat) : State :=
  let s := s.modSlot port k (fun x => { x with spin := 0 })
  let sl := s.coxSlot port k
  if sl.killed || sl.aborted then s.coxPending port k
  else if (s.cox port).slots.any (fun x => x.st == 1) then s.modSlot port k (fun x => { x with st := 1 })
  else s
/-- The next READY context in ascending order after the current one runs, when none does (R328). -/
def State.coxPick (s : State) (port : Nat) : State :=
  let c := s.cox port
  if c.slots.any (fun x => x.st == 2) then s
  else
    match ((List.range 8).map (fun i => (c.cur + 1 + i) % 8)).find? (fun k => (s.coxSlot port k).st == 1) with
    | some k => (s.modSlot port k (fun x => { x with st := 2 })).modCox port (fun c => { c with cur := k })
    | none => s

/-- How a cox instruction ends. -/
inductive CoxEnd where
  /-- it retires, its PC set; `boundary` for a chunk boundary (R328) -/
  | done (s : State) (pc : Nat) (boundary : Bool)
  /-- it waits (R303 WHY) -/
  | waits (s : State) (why : Nat)
  /-- it faults; the state holds a completed part (R319) -/
  | fault (s : State) (code sub va trap : Nat)
  /-- the context has ended -/
  | ended (s : State)
  /-- memory it needs is not in service yet -/
  | hold

/-- A failed access as an end. -/
def CoxBad.stop (b : CoxBad) (s : State) : CoxEnd :=
  match b with
  | .cause code sub va => .fault s code sub va 0
  | .wait => .hold

/-- A cox instruction from the cursor's context: the PC within the region, 65,536 instructions without a boundary (R328), a
reserved field (ILLFIELD), the PC it would move to (CFI), then the effect (R309). (log 37, DEDUCED) -/
def coxIssue (bad : Bool) (target : CoxSlot → Option Nat) (body : State → Nat → Nat → CoxSlot → CoxEnd) (s0 : State) : Out :=
  let s := { s0 with free := s0.free + 1, lastRaise := none, heldMark := false }
  let port := s.cur.port
  let k := s.cur.ctxSlot
  let sl := s.coxSlot port k
  if sl.st ≠ 2 then .fault .noIssuer
  else if !s.inRegion port sl sl.pc then .next (s.coxFault port k 0x03 0 0 0)
  else if 65536 ≤ sl.spin then .next (s.coxFault port k 0x0F 5 0 0)
  else if bad then .next (s.coxFault port k 0x02 0 0 0)
  else if (target sl).any (fun t => !s.inRegion port sl t) then .next (s.coxFault port k 0x03 0 0 0)
  else
    match body s port k sl with
    | .hold => .next { s with heldMark := true }
    | .fault s code sub va trap => .next ((if code = 0x0C then s.noteBadAt sl.asid va 20 else s).coxFault port k code sub va trap)
    | .ended s => .next s
    | .waits s why => .next ((s.modSlot port k (fun x => { x with st := 3, why := why, spin := 0 })).coxPending port k)
    | .done s pc boundary =>
      let s := s.modSlot port k (fun x => { x with pc := pc, spin := x.spin + 1, why := 0 })
      if (s.coxSlot port k).step then .next (s.coxFault port k 0x16 0 0 0)
      else if boundary then .next (s.coxBoundary port k)
      else .next s

/-- The PC next in sequence. -/
def seqPc (sl : CoxSlot) : Option Nat := some (sl.pc + 1)
/-- An unlisted opcode (R309). -/
def execCoxIllop (_opc : BitVec 6) (_rest : BitVec 58) (s0 : State) : Out :=
  let s := { s0 with free := s0.free + 1, lastRaise := none, heldMark := false }
  let port := s.cur.port
  let k := s.cur.ctxSlot
  let sl := s.coxSlot port k
  if sl.st ≠ 2 then .fault .noIssuer
  else if !s.inRegion port sl sl.pc then .next (s.coxFault port k 0x03 0 0 0)
  else if 65536 ≤ sl.spin then .next (s.coxFault port k 0x0F 5 0 0)
  else .next (s.coxFault port k 0x01 0 0 0)

/-! ## Register, branch and control instructions (R311 to R313) -/

/-- A register result. -/
def coxSet (d : BitVec 4) (f : CoxSlot → Nat) : State → Nat → Nat → CoxSlot → CoxEnd := fun s port k sl =>
  .done (s.modSlot port k (fun x => { x with regs := x.regs.set d.toNat (BitVec.ofNat 64 (f sl)) })) (sl.pc + 1) false
/-- A CR instruction with D, A and B. -/
def runCoxAlu (f : FormCR) (op : Nat → Nat → Nat) (s : State) : Out :=
  coxIssue (f.rsv ≠ 0#46) seqPc (coxSet f.d (fun sl => op (sl.c f.a) (sl.c f.b))) s
/-- mov (R311). -/
def execCoxMov (f : FormCR) (s : State) : Out :=
  coxIssue (f.rsv ≠ 0#46 || f.b ≠ 0#4) seqPc (coxSet f.d (fun sl => sl.c f.a)) s
/-- add (R311). -/
def execCoxAdd (f : FormCR) (s : State) : Out := runCoxAlu f (· + ·) s
/-- sub (R311). -/
def execCoxSub (f : FormCR) (s : State) : Out := runCoxAlu f (fun a b => a + 2 ^ 64 - b) s
/-- and (R311). -/
def execCoxAnd (f : FormCR) (s : State) : Out := runCoxAlu f (fun a b => a &&& b) s
/-- or (R311). -/
def execCoxOr (f : FormCR) (s : State) : Out := runCoxAlu f (fun a b => a ||| b) s
/-- shl (R311). -/
def execCoxShl (f : FormCR) (s : State) : Out := runCoxAlu f (fun a b => if b < 64 then a * 2 ^ b else 0) s
/-- shr (R311). -/
def execCoxShr (f : FormCR) (s : State) : Out := runCoxAlu f (fun a b => if b < 64 then a / 2 ^ b else 0) s
/-- Sign extension of IMM32 to 64 bits. -/
def coxImm (f : FormCI) : Nat := (f.imm.signExtend 64).toNat
/-- movi (R311). -/
def execCoxMovi (f : FormCI) (s : State) : Out :=
  coxIssue (f.rsv ≠ 0#18 || f.a ≠ 0#4) seqPc (coxSet f.d (fun _ => coxImm f)) s
/-- addi (R311). -/
def execCoxAddi (f : FormCI) (s : State) : Out :=
  coxIssue (f.rsv ≠ 0#18) seqPc (coxSet f.d (fun sl => sl.c f.a + coxImm f)) s

/-- A branch (R312). -/
def runCoxBr (f : FormCB) (bad : Bool) (taken : CoxSlot → Bool) (s : State) : Out :=
  let dest := fun (sl : CoxSlot) => if taken sl then f.tgt.toNat else sl.pc + 1
  coxIssue (f.rsv ≠ 0#38 || bad) (fun sl => some (dest sl)) (fun s _ _ sl => .done s (dest sl) false) s
/-- br (R312). -/
def execCoxBr (f : FormCB) (s : State) : Out := runCoxBr f (f.a ≠ 0#4 || f.b ≠ 0#4) (fun _ => true) s
/-- beq (R312). -/
def execCoxBeq (f : FormCB) (s : State) : Out := runCoxBr f false (fun sl => sl.c f.a == sl.c f.b) s
/-- bne (R312). -/
def execCoxBne (f : FormCB) (s : State) : Out := runCoxBr f false (fun sl => sl.c f.a != sl.c f.b) s
/-- blt (R312): signed. -/
def execCoxBlt (f : FormCB) (s : State) : Out := runCoxBr f false (fun sl => decide (svalN (sl.c f.a) 64 < svalN (sl.c f.b) 64)) s
/-- bge (R312): signed. -/
def execCoxBge (f : FormCB) (s : State) : Out := runCoxBr f false (fun sl => decide (svalN (sl.c f.b) 64 ≤ svalN (sl.c f.a) 64)) s
/-- loop (R312): c[A] is lowered and the branch is taken while it is not zero. -/
def execCoxLoop (f : FormCB) (s : State) : Out :=
  let less := fun (sl : CoxSlot) => (sl.c f.a + 2 ^ 64 - 1) % 2 ^ 64
  let dest := fun (sl : CoxSlot) => if less sl ≠ 0 then f.tgt.toNat else sl.pc + 1
  coxIssue (f.rsv ≠ 0#38 || f.b ≠ 0#4) (fun sl => some (dest sl)) (fun s port k sl =>
    .done (s.modSlot port k (fun x => { x with regs := x.regs.set f.a.toNat (BitVec.ofNat 64 (less sl)) })) (dest sl) false) s

/-- A CR word without operands. -/
def crBad (f : FormCR) : Bool := f.rsv ≠ 0#46 || f.d ≠ 0#4 || f.a ≠ 0#4 || f.b ≠ 0#4
/-- nop (R313). -/
def execCoxNop (f : FormCR) (s : State) : Out := coxIssue (crBad f) seqPc (fun s _ _ sl => .done s (sl.pc + 1) false) s
/-- halt (R313): the slot becomes FREE; no record. -/
def execCoxHalt (f : FormCR) (s : State) : Out := coxIssue (crBad f) (fun _ => none) (fun s port k _ => .ended (s.coxFree port k)) s
/-- yield (R313): a chunk boundary. -/
def execCoxYield (f : FormCR) (s : State) : Out := coxIssue (crBad f) seqPc (fun s _ _ sl => .done s (sl.pc + 1) true) s
/-- trap (R313): SWTRAP at the next PC, where RESUME continues. -/
def execCoxTrap (f : FormCI) (s : State) : Out :=
  coxIssue (f.rsv ≠ 0#18 || f.d ≠ 0#4 || f.a ≠ 0#4 || f.imm.toNat / 65536 ≠ 0) seqPc (fun s port k sl =>
    .fault (s.modSlot port k (fun x => { x with pc := sl.pc + 1 })) 0x14 0 0 f.imm.toNat) s
/-- abort (R313): an abort of the group is begun, and the context waits to be ended by it. (log 29, DEDUCED) -/
def execCoxAbort (f : FormCI) (s : State) : Out :=
  coxIssue (f.rsv ≠ 0#18 || f.d ≠ 0#4 || f.a ≠ 0#4 || f.imm ≠ 0#32) (fun _ => none)
    (fun s _ _ sl => .waits (s.startAbort sl.group sl.seq) 0) s

/-! ## Checks of the chunk instructions (R314) -/

/-- The first failing check of R314, as cause and subcode. -/
def coxCheck (cs : List (Bool × Nat × Nat)) : Option (Nat × Nat) := (cs.find? (fun c => c.1)).map (fun c => c.2)
/-- Checks 1 and 2: the buffer and the chunk index. -/
def chkBuf (sl : CoxSlot) (buf ireg : BitVec 4) : List (Bool × Nat × Nat) :=
  [(!(sl.buf buf.toNat).v, 0x0B, 0), (decide ((sl.buf buf.toNat).count ≤ sl.c ireg), 0x0A, 0)]
/-- Check 3: the target (R314 rule 4). -/
def chkTarget (s : State) (sl : CoxSlot) (treg : BitVec 4) : List (Bool × Nat × Nat) :=
  let g := s.grp sl.group
  [(sl.c treg / 2 ^ 13 ≠ 0 || !s.grpFor sl.group sl.ctx || decide (g.nm1 < sl.c treg % 256), 0x0F, 6)]
/-- Check 4: the tag has been posted. -/
def chkTag (sl : CoxSlot) (tag : Nat) : List (Bool × Nat × Nat) := [(!sl.wins.any (fun w => w.tag == tag), 0x0F, 2)]
/-- The window of a tag. -/
def CoxSlot.win (sl : CoxSlot) (tag : Nat) : CoxWin :=
  (sl.wins.find? (fun w => w.tag == tag)).getD
    { tag := tag, buf := 0, chunk := 0, landed := 0, fva := none, fsub := 0, poison := false, pva := 0 }
/-- Check 5: the window's buffer and BUF agree in LCH and EFMT. -/
def chkSize (sl : CoxSlot) (buf : BitVec 4) (tag : Nat) : List (Bool × Nat × Nat) :=
  let a := sl.buf (sl.win tag).buf
  let b := sl.buf buf.toNat
  [(a.lch ≠ b.lch || a.efmt ≠ b.efmt, 0x0F, 4)]

/-! ## Sending a chunk (R315, R322) -/

/-- A CHUNK packet with the bytes as they are now (R315, R322); none when they cannot be read. (log 14, DEDUCED) -/
def chunkPkt (s : State) (port k : Nat) (sl : CoxSlot) (sd : CoxSend) (n : Nat) : Except CoxBad (Hd × Packet) :=
  let d := sl.buf sd.buf
  match coxSpan s port sl d false (sd.chunk * 2 ^ d.lch + 256 * n) 256 with
  | .error x => .error x
  | .ok ps =>
    let bs := coxRead s (coxDie port) ps
    let h := { Hd.mk0 s sd.dst 10 sl.ctx sd.tag with off := 256 * n + d.lch * 2 ^ 24, group := sl.group, seq := sl.seq }
    .ok (h, { Packet.mk0 h (bs.map (fun b => b.1)) with
      bad := badFlits bs, blockId := sd.port, len := 256, spanOff := port * 8 + k, span := sd.id })

/-- Packets of a send put on their way; one whose bytes can no longer be read fails the send (R315). -/
def State.coxEmit (s : State) (port k : Nat) (sl : CoxSlot) (sd : CoxSend) (ns : List Nat) : State :=
  ns.foldl (fun s n =>
    match chunkPkt s port k sl sd n with
    | .ok (h, p) => (s.sendPkt h p).1
    | .error (.cause code sub va) => s.modSlot port k (fun x => { x with send := x.send.map (fun (y : CoxSend) => { y with fail := some (code, sub, va) }) })
    | .error .wait => s.modSlot port k (fun x => { x with send := x.send.map (fun (y : CoxSend) => { y with again := n :: y.again }) })) s

/-- The send part of send, combf and fwd: chunk `chunk` of buffer `buf` to the target with a tag. It starts with the
translation of every page, waits until every packet is accepted, and then `close` retires the instruction (R315, R319). (log 29, DEDUCED) -/
def sendPart (s : State) (port k : Nat) (buf chunk cT tag : Nat) (close : State → State) : CoxEnd :=
  let sl := s.coxSlot port k
  match sl.send with
  | some sd =>
    match sd.fail with
    | some (code, sub, va) => .fault s code sub va 0
    | none =>
      if sd.left.isEmpty then .done (close (s.modSlot port k (fun x => { x with send := none, phase := false }))) (sl.pc + 1) true
      else .waits s (if sd.keyed then 4 else 1)
  | none =>
    let d := sl.buf buf
    match coxSpan s port sl d false (chunk * 2 ^ d.lch) (2 ^ d.lch) with
    | .error x => x.stop s
    | .ok _ =>
      let ns := List.range (2 ^ (d.lch - 8))
      let sd : CoxSend := {
        buf := buf, chunk := chunk, tag := tag, rank := cT % 256, port := cT / 256 % 32, left := ns, again := [],
        refused := 0, since := none, keyed := false, id := s.order, dst := (s.grp sl.group).ranks.getD (cT % 256) 0, fail := none }
      let s := { s.modSlot port k (fun x => { x with send := some sd }) with order := s.order + 1 }
      .waits (s.coxEmit port k sl sd ns) 1

/-! ## Windows (R316 to R319) -/

/-- What a window gives the instruction that waits on it: a held packet's fault, a poison mark, landed, or nothing yet (R317). -/
def windowEnd (s : State) (port k tag : Nat) : Option CoxEnd :=
  let sl := s.coxSlot port k
  let w := sl.win tag
  let n := 2 ^ (sl.buf w.buf).lch
  match w.fva with
  | some va => some (.fault s 0x0C w.fsub va 0)
  | none =>
    if w.poison then
      some (.fault (s.modSlot port k (fun x =>
        { x with wins := x.wins.map (fun (y : CoxWin) => if y.tag = tag then { y with poison := false } else y) })) 0x0D 0 w.pva 0)
    else if n ≤ w.landed then none
    else some (.waits s 2)
/-- The window of a tag closed. (log 29, DEDUCED) -/
def State.closeWin (s : State) (port k tag : Nat) : State :=
  s.modSlot port k (fun x => { x with wins := x.wins.filter (fun (w : CoxWin) => w.tag ≠ tag) })

/-- The element format and bytes of EFMT; none for INT32 (R306). -/
def coxFmt (efmt : Nat) : Option NFmt × Nat :=
  match efmt with
  | 0 => (some .f32, 4)
  | 1 => (some .bf16, 2)
  | 2 => (some .f16, 2)
  | _ => (none, 4)
/-- One step of a combine: d = op(d, x) (R314 rule 3). -/
def coxCombine (op efmt u v : Nat) : Nat :=
  match (coxFmt efmt).1, op with
  | _, 3 => v
  | some f, 0 => (roundTo f Ctl.rne 0 false (addV false (f.decode u) (f.decode v)).v).1
  | some f, 1 => (minMax f true false u v).1
  | some f, _ => (minMax f false false u v).1
  | none, 0 => (u + v) % 2 ^ 32
  | none, 1 => if svalN u 32 ≤ svalN v 32 then u else v
  | none, _ => if svalN u 32 ≤ svalN v 32 then v else u

/-- The window's chunk combined into a chunk of a buffer: both translated first, then every element, poison line by line (R317, R318). (log 29, DEDUCED) -/
def combineChunk (s : State) (port k : Nat) (buf ireg : BitVec 4) (tag : Nat) : Except CoxBad State :=
  let sl := s.coxSlot port k
  let d := sl.buf buf.toNat
  let w := sl.win tag
  let n := 2 ^ d.lch
  let die := coxDie port
  let at_ := sl.c ireg * n
  match coxSpan s port sl d true at_ n, (if d.op = 3 then .ok [] else coxSpan s port sl d false at_ n),
      coxSpan s port sl (sl.buf w.buf) false (w.chunk * n) n with
  | .error x, _, _ => .error x
  | _, .error x, _ => .error x
  | _, _, .error x => .error x
  | .ok dst, .ok own, .ok src =>
    let xs := coxRead s die src
    let ds := coxRead s die own
    let z := (coxFmt d.efmt).2
    let line := fun (bs : List (Byte × Bool)) (i : Nat) => ((bs.drop (i / 64 * 64)).take 64).any (fun b => b.2)
    let num := fun (bs : List (Byte × Bool)) (i : Nat) => leNat (((bs.drop i).take z).map (fun b => b.1))
    let out := (List.range (n / z)).flatMap (fun e =>
      let p := line xs (z * e) || line ds (z * e)
      (leBytes z (coxCombine d.op d.efmt (num ds (z * e)) (num xs (z * e)))).map (fun b => (b, p)))
    .ok (coxWrite die s dst out)

/-! ## The chunk instructions (R315 to R319) -/

/-- send (R315). -/
def execCoxSend (f : FormCC) (s : State) : Out :=
  coxIssue (f.rsv ≠ 0#30 || f.wtag ≠ 0#8) seqPc (fun s port k sl =>
    match coxCheck (chkBuf sl f.buf f.ireg ++ chkTarget s sl f.treg) with
    | some c => .fault s c.1 c.2 0 0
    | none => sendPart s port k f.buf.toNat (sl.c f.ireg) (sl.c f.treg) f.stag.toNat (fun s => s)) s

/-- post (R316). -/
def execCoxPost (f : FormCC) (s : State) : Out :=
  coxIssue (f.rsv ≠ 0#30 || f.treg ≠ 0#4 || f.stag ≠ 0#8) seqPc (fun s port k sl =>
    let d := sl.buf f.buf.toNat
    let e := s.handle sl.asid (coxDie port) sl.ht d.hnd 20
    let n := 2 ^ d.lch
    match coxCheck (chkBuf sl f.buf f.ireg ++
        [(sl.wins.any (fun w => w.tag == f.wtag.toNat), 0x0F, 1), (decide (4 ≤ sl.wins.length), 0x0F, 3),
         (d.hf && (!dstOk e || e.space == 2), 0x0B, 0), (d.hf && (decide (e.bound < d.base + sl.c f.ireg * n + n) || bitOf (d.base + sl.c f.ireg * n) 63), 0x0A, 0)]) with
    | some c => if d.hf && e.wait && c.1 == 0x0B && (sl.buf f.buf.toNat).v then .hold else .fault s c.1 c.2 0 0
    | none =>
      let w : CoxWin := { tag := f.wtag.toNat, buf := f.buf.toNat, chunk := sl.c f.ireg, landed := 0, fva := none, fsub := 0, poison := false, pva := 0 }
      let s := { s with frags := s.frags.filter (fun g => g.key ≠ [65536 + port * 8 + k, f.wtag.toNat]) }
      .done (s.modSlot port k (fun x => { x with wins := x.wins ++ [w] })) (sl.pc + 1) false) s

/-- recv (R317). -/
def execCoxRecv (f : FormCC) (s : State) : Out :=
  coxIssue (f.rsv ≠ 0#30 || f.buf ≠ 0#4 || f.ireg ≠ 0#4 || f.treg ≠ 0#4 || f.stag ≠ 0#8) seqPc (fun s port k sl =>
    match coxCheck (chkTag sl f.wtag.toNat) with
    | some c => .fault s c.1 c.2 0 0
    | none =>
      match windowEnd s port k f.wtag.toNat with
      | some e => e
      | none => .done (s.closeWin port k f.wtag.toNat) (sl.pc + 1) true) s

/-- comb (R318). -/
def execCoxComb (f : FormCC) (s : State) : Out :=
  coxIssue (f.rsv ≠ 0#30 || f.treg ≠ 0#4 || f.stag ≠ 0#8) seqPc (fun s port k sl =>
    match coxCheck (chkBuf sl f.buf f.ireg ++ chkTag sl f.wtag.toNat ++ chkSize sl f.buf f.wtag.toNat) with
    | some c => .fault s c.1 c.2 0 0
    | none =>
      match windowEnd s port k f.wtag.toNat with
      | some e => e
      | none =>
        match combineChunk s port k f.buf f.ireg f.wtag.toNat with
        | .error x => x.stop s
        | .ok s => .done (s.closeWin port k f.wtag.toNat) (sl.pc + 1) true) s

/-- combf (R319): the combine, then with PHASE set the send of the resulting chunk. -/
def execCoxCombf (f : FormCC) (s : State) : Out :=
  coxIssue (f.rsv ≠ 0#30) seqPc (fun s port k sl =>
    let late := if sl.phase then [] else chkTag sl f.wtag.toNat ++ chkSize sl f.buf f.wtag.toNat
    match coxCheck (chkBuf sl f.buf f.ireg ++ chkTarget s sl f.treg ++ late) with
    | some c => .fault s c.1 c.2 0 0
    | none =>
      let send := fun (s : State) => sendPart s port k f.buf.toNat (sl.c f.ireg) (sl.c f.treg) f.stag.toNat (fun s => s)
      if sl.phase then send s
      else
        match windowEnd s port k f.wtag.toNat with
        | some e => e
        | none =>
          match combineChunk s port k f.buf f.ireg f.wtag.toNat with
          | .error x => x.stop s
          | .ok s => send ((s.closeWin port k f.wtag.toNat).modSlot port k (fun x => { x with phase := true }))) s

/-- fwd (R319): the landing, then with PHASE set the send of the window's chunk, which closes the window. -/
def execCoxFwd (f : FormCC) (s : State) : Out :=
  coxIssue (f.rsv ≠ 0#30 || f.buf ≠ 0#4 || f.ireg ≠ 0#4) seqPc (fun s port k sl =>
    match coxCheck (chkTarget s sl f.treg ++ chkTag sl f.wtag.toNat) with
    | some c => .fault s c.1 c.2 0 0
    | none =>
      let w := sl.win f.wtag.toNat
      let send := fun (s : State) =>
        sendPart s port k w.buf w.chunk (sl.c f.treg) f.stag.toNat (fun s => s.closeWin port k f.wtag.toNat)
      if sl.phase then send s
      else
        match windowEnd s port k f.wtag.toNat with
        | some e => e
        | none => send (s.modSlot port k (fun x => { x with phase := true }))) s

/-! ## Flag instructions (R320) -/

/-- The place of a flag word and its VA, after the checks of R320; `add` for sigf, which reads and writes. (log 29, DEDUCED) -/
def flagPlace (s : State) (port : Nat) (sl : CoxSlot) (f : FormCF) (add : Bool) : Except CoxBad (Loc × Nat) :=
  let d := sl.buf f.buf.toNat
  let off := sl.c f.oreg
  let e := s.handle sl.asid (coxDie port) sl.ht d.hnd 20
  let va := ((if d.hf then e.base else 0) + d.base + off) % 2 ^ 64
  if !d.v then .error (.cause 0x0B 0 0)
  else if off % 4 ≠ 0 then .error (.cause 0x09 0 va)
  else if d.count * 2 ^ d.lch ≤ off then .error (.cause 0x0A 0 va)
  else if d.hf && e.wait then .error .wait
  else if d.hf && !([1, 3, 5, 8].contains e.space) then .error (.cause 0x0B 0 0)
  else
    match coxPieces s port sl d false 4 2 off 4, (if add then coxPieces s port sl d true 4 2 off 4 else .ok []) with
    | .error x, _ => .error x
    | _, .error x => .error x
    | .ok ((l, _) :: _), .ok _ =>
      match s.paKind (l.readPa (coxDie port)) with
      | .far _ => .error (.cause 0x0B 0 0)
      | _ =>
        -- an RMW acts at the page's home (R239, R241)
        if !add then (if s.locPoison (coxDie port) l 4 then .error (.cause 0x0D 0 va) else .ok (l, va))
        else match s.locReady (coxDie port) l.home with
          | .wait => .error .wait
          | .dead => .error (.cause 0x0D 0 va)
          | .yes => if s.locPoison (coxDie port) l.home 4 then .error (.cause 0x0D 0 va) else .ok (l, va)
    | .ok [], .ok _ => .error (.cause 0x0B 0 0)
/-- A flag has reached a target (R298). -/
def reached (flag t : Nat) : Bool := decide ((flag + 2 ^ 32 - t % 2 ^ 32) % 2 ^ 32 < 2 ^ 31)
/-- The flag's value as the cox reads it. -/
def flagValue (s : State) (port : Nat) (l : Loc) : Nat := leNat ((s.beforeLoad (coxDie port) l 4).load (coxDie port) l 4)

/-- waitf (R320): the read that meets the condition is an acquire head, which needs nothing more here (log 5, DEDUCED). -/
def execCoxWaitf (f : FormCF) (s : State) : Out :=
  coxIssue (f.rsv ≠ 0#46) seqPc (fun s port _ sl =>
    match flagPlace s port sl f false with
    | .error x => x.stop s
    | .ok (l, _) =>
      if reached (flagValue s port l) (sl.c f.vreg) then .done (s.beforeLoad (coxDie port) l 4) (sl.pc + 1) false else .waits s 3) s

/-- sigf (R320): a release at .package and an RMW. -/
def execCoxSigf (f : FormCF) (s : State) : Out :=
  coxIssue (f.rsv ≠ 0#46) seqPc (fun s port _ sl =>
    match flagPlace s port sl f true with
    | .error x => x.stop s
    | .ok (l, _) => .done (rmwLane (rmwWord (· + ·)) 4 s.release (coxDie port) l (sl.c f.vreg % 2 ^ 32)).1 (sl.pc + 1) false) s

/-! ## Waits (R303, R324, R327) -/

/-- The link key on which a waiting send is held (R324, R434). -/
def State.coxKeyPort (s : State) (sd : CoxSend) : Option Nat :=
  s.outq.findSome? (fun q => if (s.port q.port).txst = 3 && q.pkt.hd.kind == 10 && q.pkt.hd.src == s.own && q.pkt.span == sd.id then some q.port else none)

/-- The condition of a waiting context is met, or its wait ends in a fault (R327). -/
def coxMet (s : State) (port k : Nat) : Bool :=
  let sl := s.coxSlot port k
  let w := (s.cox port).word sl.pc
  match sl.why with
  | 1 => sl.send.any (fun sd => sd.left.isEmpty || sd.fail.isSome)
  | 2 =>
    let x := sl.win (FormCC.ofWord w).wtag.toNat
    x.fva.isSome || x.poison || decide (2 ^ (sl.buf x.buf).lch ≤ x.landed)
  | 3 =>
    let f := FormCF.ofWord w
    match flagPlace s port sl f false with
    | .error .wait => false
    | .error _ => true
    | .ok (l, _) => reached (flagValue s port l) (sl.c f.vreg)
  | _ => false

/-- CLOCK units for which a send has been refused with STAT OK (R324). -/
def CoxSend.measured (sd : CoxSend) (now : Nat) : Nat :=
  sd.refused + (match sd.since with
    | some t => now - t
    | none => 0)

/-- A waiting context looks again: refused packets are sent again, a key hold is entered (with its one KEY record) or left, and a
context whose condition is met becomes READY (R315, R324, R327). -/
def execCoxWaitSatisfied (port k : Nat) (s : State) : Out :=
  let s := { s with free := s.free + 1 }
  let sl := s.coxSlot port k
  if sl.st ≠ 3 then .next s
  else
    let s := match sl.send with
      | none => s
      | some sd =>
        if sd.again.isEmpty || sd.fail.isSome then s
        else (s.modSlot port k (fun x => { x with send := some { sd with again := [] } })).coxEmit port k sl sd sd.again
    let s := match (s.coxSlot port k).send with
      | none => s
      | some sd =>
        match s.coxKeyPort sd, (s.coxSlot port k).why with
        | some _, 1 =>
          let s := if sd.keyed then s else s.coxRecord port k 0x18 0 0 0
          let refused := sd.measured s.clock.toNat
          s.modSlot port k (fun x => { x with why := 4, send := some { sd with keyed := true, refused := refused, since := none } })
        | none, 4 => s.modSlot port k (fun x => { x with why := 1, send := some { sd with keyed := false } })
        | _, _ => s
    .next (if coxMet s port k then s.modSlot port k (fun x => { x with st := 1, why := 0 }) else s)

/-- The refusal time has reached FABTO: the send faults with FABRIC 0 REFUSED when it runs (R324). -/
def execCoxRefusalTimeout (port k : Nat) (s : State) : Out :=
  let s := { s with free := s.free + 1 }
  let sl := s.coxSlot port k
  match sl.send with
  | none => .next s
  | some sd =>
    if sl.st ≠ 3 ∨ sl.why = 4 ∨ sd.fail.isSome ∨ sd.left.isEmpty ∨ sd.measured s.clock.toNat < s.fabto.toNat then .next s
    else .next (s.modSlot port k (fun x => { x with send := some { sd with fail := some (0x0F, 0, 0) }, st := 1, why := 0 }))

/-- A context that has run 65,536 instructions without a chunk boundary faults (R328). -/
def execCoxSpinFault (port : Nat) (s : State) : Out :=
  let s := { s with free := s.free + 1 }
  let k := (s.cox port).cur
  let sl := s.coxSlot port k
  .next (if sl.st = 2 ∧ 65536 ≤ sl.spin then s.coxFault port k 0x0F 5 0 0 else s)

/-! ## Starting (R325, R326) -/

/-- One port of a START is decided: when it is the last, the member answers with the first status that is not OK (R326). (log 30, DEDUCED)
The answer carries GROUP 0 and SEQ 0: it goes to the start window, whose member may have moved on to a higher SEQ (R290; log 42, DESIGN
CHOICE). -/
def State.startDecide (s : State) (src tag ctx stat : Nat) : State :=
  match s.owed.find? (fun x => x.1 == src && x.2.1 == tag) with
  | none => s
  | some (_, _, left, first) =>
    let first := if first = 0 then stat else first
    let rest := s.owed.filter (fun x => !(x.1 == src && x.2.1 == tag))
    if 1 < left then { s with owed := (src, tag, left - 1, first) :: rest }
    else
      let h := { Hd.mk0 s src 2 ctx tag with stat := first }
      ({ s with owed := rest }.sendPkt h { Packet.mk0 h [] with len := 11 }).1

/-- The region that an entry word lies in for a context (R326 step 2). -/
def State.startRegion (s : State) (port ctx entry : Nat) : Option Nat :=
  (List.range 8).find? (fun i => regionHas ((s.cox port).reg i) entry && bitsOf ((s.cox port).reg i) 47 32 == ctx)
/-- The host context of a START is registered here (R326 step 1, R363, R276). -/
def State.ctxHere (s : State) (ctx : Nat) : Bool := (s.ctxDesc ctx).valid && !(s.ctxSt ctx).dead

/-- The START takes a slot on a port (R326 step 4). -/
def State.startTake (s : State) (port k entry region : Nat) (p : Packet) : State :=
  let h := p.hd
  let g := s.grp h.group
  let q := fun (o : Nat) => BitVec.ofNat 64 (leNat ((p.data.drop o).take 8))
  let regs := [BitVec.ofNat 64 (g.rankOf s.own)] ++ (List.range 8).map (fun i => q (64 + 8 * i)) ++
    [BitVec.ofNat 64 (g.nm1 + 1), BitVec.ofNat 64 port] ++ List.replicate 5 0#64
  s.modSlot port k (fun _ =>
    { CoxSlot.free with
      st := 3, why := 5, pc := entry, regs := regs, ctx := h.ctx, group := h.group, seq := h.seq, asid := (s.ctxDesc h.ctx).asid,
      ht := q 136, region := region, dtva := (q 128).toNat, startSrc := h.src, startTag := h.tag })

/-- A START acts on one port: HANDLE without a region, a slot, or held until one frees (R326 steps 2 to 4). -/
def State.startPort (s : State) (port entry : Nat) (p : Packet) : State :=
  let h := p.hd
  match s.startRegion port h.ctx entry with
  | none => s.startDecide h.src h.tag h.ctx 1
  | some r =>
    match (List.range 8).find? (fun k => (s.coxSlot port k).st == 0) with
    | some k => s.startTake port k entry r p
    | none => s.modCox port (fun c => { c with starts := c.starts ++ [{ pkt := p, entry := entry, since := s.clock.toNat }] })
/-- A START reaches a port, behind those that the port holds already, which take the slots that free first (R326 step 3). -/
def State.startArrive (s : State) (port entry : Nat) (p : Packet) : State :=
  if (s.cox port).starts.isEmpty ∨ (s.startRegion port p.hd.ctx entry).isNone then s.startPort port entry p
  else s.modCox port (fun c => { c with starts := c.starts ++ [{ pkt := p, entry := entry, since := s.clock.toNat }] })

/-- Entry words of a START: the ports whose bit 15 is set (R325). -/
def startPorts (p : Packet) : List (Nat × Nat) :=
  ((List.range 32).map (fun i => (i, leNat ((p.data.drop (2 * i)).take 2)))).filter (fun x => bitOf x.2 15)

/-- A START that this member acts on (R326). -/
def State.startHere (s : State) (p : Packet) : State :=
  let h := p.hd
  let ports := startPorts p
  if !s.grpFor h.group h.ctx || !s.ctxHere h.ctx then
    ({ s with owed := (h.src, h.tag, 1, 0) :: s.owed }).startDecide h.src h.tag h.ctx 1
  else if ports.isEmpty then ({ s with owed := (h.src, h.tag, 1, 0) :: s.owed }).startDecide h.src h.tag h.ctx 0
  else
    ports.foldl (fun s x => s.startArrive x.1 (x.2 % 4096) p) { s with owed := (h.src, h.tag, ports.length, 0) :: s.owed }

/-- A held START takes a slot that has freed (R326 step 3). -/
def execCoxStartSlotFree (port : Nat) (s : State) : Out :=
  let s := { s with free := s.free + 1 }
  match (s.cox port).starts, (List.range 8).find? (fun k => (s.coxSlot port k).st == 0) with
  | x :: rest, some _ => .next ((s.modCox port (fun c => { c with starts := rest })).startPort port x.entry x.pkt)
  | _, _ => .next s

/-- A START held for FABTO is dropped for the port and answered ABSENT (R326 step 3). -/
def execCoxStartHoldTimeout (port : Nat) (s : State) : Out :=
  let s := { s with free := s.free + 1 }
  match (s.cox port).starts with
  | [] => .next s
  | x :: rest =>
    if s.clock.toNat < x.since + s.fabto.toNat then .next s
    else .next ((s.modCox port (fun c => { c with starts := rest })).startDecide x.pkt.hd.src x.pkt.hd.tag x.pkt.hd.ctx 7)

/-- The descriptor table has been read: b0 to b15 are loaded and the slot is READY; a translation fault frees it (R326 steps 4, 5). -/
def execCoxDescriptorLoadComplete (port k : Nat) (s : State) : Out :=
  let s := { s with free := s.free + 1 }
  let sl := s.coxSlot port k
  if sl.st ≠ 3 ∨ sl.why ≠ 5 then .next s
  else
    match s.readVa sl.asid (coxDie port) { r := true, w := false, x := false, space := 0 } 2 sl.dtva 256 with
    | .wait => .next s
    | .xlate f => .next (((s.notePteBad f.bad).coxFree port k).startDecide sl.startSrc sl.startTag sl.ctx 3)
    | .poison => .next ((s.coxFree port k).startDecide sl.startSrc sl.startTag sl.ctx 4)
    | .ok bs =>
      let bufs := (List.range 16).map (fun i => loadBuf ((bs.drop (16 * i)).take 16) (sl.ht == 0#64))
      .next ((s.modSlot port k (fun x => { x with st := 1, why := 0, bufs := bufs })).startDecide sl.startSrc sl.startTag sl.ctx 0)

/-! ## The start window (R418) -/

/-- A start slot changed by a function. -/
def State.modStart (s : State) (i : Nat) (f : StartSlot → StartSlot) : State :=
  { s with startSlots := s.startSlots.set i (f (s.startSlots.getD i StartSlot.reset)) }

/-- GO: the START is sent to every member, through a FAN entry (R325, R418). -/
def execStartGo (i group : Nat) (s : State) : Out :=
  let s := { s with free := s.free + 1 }
  if !s.hostOpen then .next s else
  let x := s.startSlots.getD i StartSlot.reset
  let g := s.grp group
  if 8 ≤ i ∨ x.busy then .next s
  else
    let s := s.modStart i (fun x => { x with group := group })
    if !g.v ∨ g.root ≠ s.own then .next (s.modStart i (fun x => { x with stat := 1 }))
    else if s.mgmt.stage = 2 then .next (s.modStart i (fun x => { x with stat := 7 }))
    else
      let tag := s.order % 65536
      let h := { Hd.mk0 s s.own 11 g.ctx tag with group := group, seq := g.seq, nent := 1, ents := [entFan] }
      let s := { s with order := s.order + 1 }.modStart i (fun x =>
        { x with busy := true, stat := 0, seq := g.seq, tag := tag, waiting := g.members, since := s.clock.toNat })
      .next (s.route 32 (Packet.mk0 h x.data))

/-- An answer of a member to a START of this package: the first status that is not OK is kept, and BUSY clears after the last (R326, R418). (log 30, DEDUCED) -/
def State.startAnswer (s : State) (src tag stat : Nat) : State :=
  match (List.range 8).find? (fun i => let x := s.startSlots.getD i StartSlot.reset; x.busy && x.tag == tag && x.waiting.contains src) with
  | none => s
  | some i =>
    s.modStart i (fun x =>
      let w := x.waiting.filter (fun m => m ≠ src)
      { x with waiting := w, busy := !w.isEmpty, stat := if x.stat = 0 then stat else x.stat })

/-- FABTO after the sending, members that have not answered count as ABSENT (R418). -/
def execStartWindowTimeout (i : Nat) (s : State) : Out :=
  let s := { s with free := s.free + 1 }
  let x := s.startSlots.getD i StartSlot.reset
  if !x.busy ∨ s.clock.toNat < x.since + s.fabto.toNat then .next s
  else .next (s.modStart i (fun x => { x with busy := false, waiting := [], stat := if x.stat = 0 then 7 else x.stat }))

/-! ## The driver's writes (R301, R302, R305, R331, R332) -/

/-- A store to instruction memory; ignored in a region with V = 1 (R301). -/
def execCoxInstructionMemoryWrite (port w : Nat) (v : BitVec 64) (s : State) : Out :=
  let s := { s with free := s.free + 1 }
  if !s.hostOpen then .next s else
  if 32 ≤ port ∨ 4096 ≤ w ∨ (List.range 8).any (fun i => regionHas ((s.cox port).reg i) w) then .next s
  else .next (s.modCox port (fun c => { c with imem := setWord c.imem w v }))

/-- A write to a region entry, whose reserved bits stay zero (R5); ignored while a context runs in the region (R301), and when the CTX
of the entry, as it stands or as it would, is sealed (R431). -/
def execCoxRegionWrite (port i : Nat) (v : BitVec 64) (s : State) : Out :=
  let s := { s with free := s.free + 1 }
  if !s.hostOpen then .next s else
  if 32 ≤ port ∨ 8 ≤ i ∨ (s.cox port).slots.any (fun x => x.st ≠ 0 && x.region == i) ∨
      (s.sealedBy (bitsOf ((s.cox port).reg i) 47 32)).isSome || (bitOf v.toNat 63 && (s.sealedBy (bitsOf v.toNat 47 32)).isSome) then .next s
  else .next (s.modCox port (fun c => { c with regions := c.regions.set i (v &&& 0x8000FFFF0FFF0FFF#64) }))

/-- A write to c0 to c15 (0 to 15) or the PC (16); ignored unless the slot is in FAULT (R302). -/
def execCoxSlotStateWrite (port k r : Nat) (v : BitVec 64) (s : State) : Out :=
  let s := { s with free := s.free + 1 }
  if !s.hostOpen then .next s else
  if (s.coxSlot port k).st ≠ 4 then .next s
  else if r < 16 then .next (s.modSlot port k (fun x => { x with regs := x.regs.set r v }))
  else if r = 16 then .next (s.modSlot port k (fun x => { x with pc := v.toNat % 4096 }))
  else .next s

/-- A held packet is landed again (R323); false when its page still faults. -/
def State.coxLand (s : State) (port k : Nat) (p : Packet) : Except CoxBad State :=
  let sl := s.coxSlot port k
  let h := p.hd
  let w := sl.win (h.tag % 256)
  let d := sl.buf w.buf
  match coxSpan s port sl d true (w.chunk * 2 ^ d.lch + h.off % 2 ^ 20) 256 with
  | .error x => .error x
  | .ok ps =>
    let bs := p.bytes
    let poison := bs.any (fun b => b.2)
    let base := (if d.hf then (s.handle sl.asid (coxDie port) sl.ht d.hnd 20).base else 0) + d.base
    let lo := w.chunk * 2 ^ d.lch
    let off := lo + h.off % 2 ^ 20
    -- an unaligned handle base makes packets share sectors, which are written whole (R230)
    let q := sectorPieces [65536 + port * 8 + k, h.tag % 256] base lo (lo + 2 ^ d.lch) off s.frags bs
    let s := if base % 32 = 0 then coxWrite (coxDie port) s ps bs
      else q.2.foldl (fun s x => match coxSpan s port sl d true x.1 x.2.length with
        | .ok ps => coxWrite (coxDie port) s ps x.2
        | .error _ => s) { s with frags := q.1 }
    .ok (s.modSlot port k (fun x => { x with wins := x.wins.map (fun (y : CoxWin) =>
      if y.tag = h.tag % 256 then
        { y with landed := y.landed + 256, poison := y.poison || poison, pva := if poison then (base + w.chunk * 2 ^ d.lch + h.off % 2 ^ 20) % 2 ^ 64 else y.pva }
      else y) }))

/-- The held packets of a slot land again (R323): one that still faults keeps its window marked. -/
def State.coxReland (s : State) (port k : Nat) : State :=
  ((s.cox port).holds.filter (fun (x : CoxHold) => x.slot == k)).foldl (fun s (x : CoxHold) =>
    match s.coxLand port k x.pkt with
    | .ok s =>
      (s.modCox port (fun c => { c with holds := c.holds.filter (fun (y : CoxHold) => !(y.slot == k && y.tag == x.tag)) })).modSlot port k
        (fun z => { z with wins := z.wins.map (fun (w : CoxWin) => if w.tag = x.tag then { w with fva := none } else w) })
    | .error (.cause _ sub va) =>
      s.modSlot port k (fun z => { z with wins := z.wins.map (fun (w : CoxWin) => if w.tag = x.tag then { w with fva := some va, fsub := sub } else w) })
    | .error .wait => s) s

/-- A context in FAULT resumes, with or without a single step (R305, R331). (log 29, DEDUCED) -/
def State.coxResume (s : State) (port k : Nat) (step : Bool) : State :=
  if (s.coxSlot port k).st ≠ 4 then s
  else (s.modSlot port k (fun x => { x with st := 1, step := step, spin := 0 })).coxReland port k

/-- RESUME without STEP (R305). (log 29, DEDUCED) -/
def execCtlResume (port k : Nat) (s : State) : Out :=
  let s := { s with free := s.free + 1 }
  .next (if s.hostOpen then s.coxResume port k false else s)
/-- RESUME with STEP (R331). -/
def execCtlStep (port k : Nat) (s : State) : Out :=
  let s := { s with free := s.free + 1 }
  .next (if s.hostOpen then s.coxResume port k true else s)
/-- KILL (R332). -/
def execCtlKill (port k : Nat) (s : State) : Out :=
  let s := { s with free := s.free + 1 }
  .next (if s.hostOpen then s.coxKill port k else s)

end Sys2Proof.Machine
end

