-- ==== Sys2Proof/Machine/Packets.lean ====
section
/-!
DEFINITION. Packets.lean: what a package does with each packet delivered to it: landings, answers, the reduction chain, the
receive engine of the coxes, aborts (spec 13 R283 to R297; 14 R321 to R326; 08 R185 to R188; 24 R437).
-/

namespace Sys2Proof.Machine

open Sys2Proof

/-- Packet i of those delivered, when it has a kind and no earlier packet of its port and channel is still to be acted on
(R286); and the state without it. -/
def State.takeLanding (s : State) (i kind : Nat) : Option (PortPkt × State) :=
  match s.landing[i]? with
  | none => none
  | some q =>
    if q.pkt.hd.kind ≠ kind ∨ (s.landing.take i).any (fun (x : PortPkt) => x.port == q.port && x.pkt.hd.ch == q.pkt.hd.ch) then none
    else some (q, { s with landing := s.landing.take i ++ s.landing.drop (i + 1) })

/-- Die of the landing agent of a port; a packet of the package itself is landed on die 0. -/
def landDie (port : Nat) : Nat := if port < 32 then port / 8 else 0

/-! ## Aborts (R296, R297) -/

/-- A packet of a group's in-router reduction (R296). -/
def redOf (g seq : Nat) (q : PortPkt) : Bool :=
  let h := q.pkt.hd
  (h.kind == 8 || h.kind == 9) && h.group == g && h.seq == seq

/-- A member applies the abort of its own SEQ (R296 step 2). (log 30, DEDUCED) -/
def State.applyAbort (s : State) (g : Nat) : State :=
  let seq := (s.grp g).seq
  let s := { s with
    outq := s.outq.filter (fun q => !redOf g seq q),
    inq := s.inq.filter (fun q => !redOf g seq q),
    landing := s.landing.filter (fun q => !redOf g seq q) }
  -- an fldred whose results have all arrived is committing them, and retires with OK (R292)
  let s := (s.ops.filter (fun (o : Op) => o.cls == 3 && o.grouped && !o.done && o.checked && o.target == g && !(o.opc == 0x2C4 && o.phase == 3))).foldl
    (fun s (o : Op) => (s.modOp o.id (fun o => { o with stat := 9 })).finishOp o.id 9) s
  let s := (List.range 32).foldl (fun s p =>
    let gone := (s.cox p).starts.filter (fun (x : HeldStart) => x.pkt.hd.group == g && x.pkt.hd.seq == seq)
    let s := s.modCox p (fun c => { c with starts := c.starts.filter (fun (x : HeldStart) => !(x.pkt.hd.group == g && x.pkt.hd.seq == seq)) })
    let s := gone.foldl (fun s (x : HeldStart) => s.startDecide x.pkt.hd.src x.pkt.hd.tag x.pkt.hd.ctx 9) s
    (List.range 8).foldl (fun s k =>
      let sl := s.coxSlot p k
      if sl.st = 0 ∨ sl.group ≠ g ∨ sl.seq ≠ seq then s
      else if sl.st = 2 then s.modSlot p k (fun x => { x with aborted := true })
      else
        let s := if sl.why = 5 then s.startDecide sl.startSrc sl.startTag sl.ctx 9 else s
        s.coxAborted p k) s) s
  s.modGroup g (fun x => { x with seq := (seq + 1) % 65536 })

/-- An ABORT arrives: the member relays it along its column or row, applies it when its entry reads that SEQ, and acknowledges in any
case (R296 steps 1 to 3); one of a higher SEQ is acknowledged only, as step 3 says, where R290 would have the member abort its own SEQ
first (log 42, DESIGN CHOICE). One of an MPC's context from a package that is no member is dropped (R437). -/
def execAbort (i : Nat) (s0 : State) : Out :=
  let s := { s0 with free := s0.free + 1 }
  match s.takeLanding i 12 with
  | none => .next s
  | some (q, s) =>
    let h := q.pkt.hd
    if !s.admitted h.ctx h.src then .next s else
    let s := ((s.grp h.group).relays h.src s.own).foldl (fun s m => (s.sendAbort h.src m h.group h.seq).1) s
    let s := if (s.grp h.group).v ∧ (s.grp h.group).seq = h.seq then s.applyAbort h.group else s
    let a := { Hd.mk0 s h.src 13 h.ctx h.tag with group := h.group, seq := h.seq }
    .next (s.sendPkt a (Packet.mk0 a [])).1

/-- An ABORTACK arrives; the detector's abort is complete with the last (R296 step 4). -/
def execAbortack (i : Nat) (s0 : State) : Out :=
  let s := { s0 with free := s0.free + 1 }
  match s.takeLanding i 13 with
  | none => .next s
  | some (q, s) =>
    let h := q.pkt.hd
    if !s.admitted h.ctx h.src then .next s else
    let as_ := s.aborts.map (fun (a : AbortWait) =>
      if a.grp = h.group ∧ a.seq = h.seq then { a with waiting := a.waiting.filter (fun m => m ≠ h.src) } else a)
    .next { s with aborts := as_.filter (fun (a : AbortWait) => !a.waiting.isEmpty) }

/-! ## What a member checks first (R290, R437) -/

/-- What is to be done with a packet. -/
inductive Accept where
  | act (s : State)
  | stop (s : State)

/-- Admission and SEQ: a packet of an MPC's context from a package that is not a member is dropped, a request answered with
HANDLE (R437); a group packet of a lower SEQ is dropped, a request answered with ABORT, and before one of a higher SEQ the
member aborts its own (R290). (log 30, DEDUCED) -/
def State.accept (s : State) (h : Hd) : Accept :=
  let req := h.ch == 0
  if !s.admitted h.ctx h.src then .stop (if req then s.answer h 1 [] [] else s)
  else if h.group = 0 ∨ !s.grpFor h.group h.ctx then .act s
  else
    let d := (h.seq + 65536 - (s.grp h.group).seq) % 65536
    if d = 0 then .act s
    else if d < 32768 then .act (s.applyAbort h.group)
    else .stop (if req then s.answer h 9 [] [] else s)

/-- The landing of packet i of a kind: taken, checked, acted on; where memory is not in service yet, it stays (R422). -/
def landing (i kind : Nat) (act : State → PortPkt → Option State) (s0 : State) : Out :=
  let s := { s0 with free := s0.free + 1 }
  match s.takeLanding i kind with
  | none => .next s
  | some (q, t) =>
    match (t.useContext q.pkt.hd.ctx).accept q.pkt.hd with
    | .stop t => .next t
    | .act t =>
      match act t q with
      | some t => .next t
      | none => .next s

/-! ## Writes, reads and atomics (R185, R186, R244) -/

/-- A WRITE lands (R185, R244, R286). -/
def execWrite (i : Nat) (s : State) : Out :=
  landing i 0 (fun s q =>
    let p := q.pkt
    let h := p.hd
    let e := s.remoteEntry h.ctx p.ht h.rhnd
    let b := if e.space = 2 then s.landBlock h.ctx p.blockId else none
    let die := match b with
      | some b => dieOfCore b.core
      | none => landDie q.port
    let st := if (h.group ≠ 0 && !s.grpFor h.group h.ctx) || (p.harvest && e.space == 2) then 1
      else s.remoteCheck h.ctx b e true h.arr p.spanOff p.span
    if st ≠ 0 then some (s.answer h st [] [])
    else
      let s := if h.relh then s.release else s
      -- the first packet of a command finds no parts of an earlier one that had its TAG
      let fs := if h.off = p.spanOff then s.frags.filter (fun g => g.key ≠ [h.src, h.tag]) else s.frags
      let w := sectorPieces [h.src, h.tag] e.base p.spanOff (p.spanOff + p.span) h.off fs p.bytes
      match State.landPieces die h.ctx b e w.2 { s with frags := w.1 } with
      | .wait => none
      | .status n =>
        let t := if n = 3 then s.noteLandBad h.ctx e h.off p.data.length else s
        some ((if n = 3 ∨ n = 5 ∨ n = 6 then t.landScrub die h.ctx b e p.spanOff p.span else t).answer h n [] [])
      | .ok s =>
        let s := match b with
          | some b => if h.arr then s.addArr b.id h.ctr p.data.length else s
          | none => s
        some (s.answer h 0 [] [])) s

/-- The bytes that a READREQ or REDUCE asks for; the sector at their end is read whole, for this packet and the next (R230). -/
def State.landPiece (s : State) (die : Nat) (b : Option Block) (e : HandleEntry) (h : Hd) (p : Packet) : Eng (State × List (Byte × Bool)) :=
  let key := [h.src, h.tag]
  let c := s.readAhead key h.off
  match s.landRead die h.ctx b e 4 (h.off + c.length) (readEnd e.base (p.spanOff + p.span) (h.off + p.len) - (h.off + c.length)) with
  | .ok bs => .ok ((s.noteLand h.ctx e h.off).keepAhead key (h.off + p.len) ((c ++ bs).drop p.len), (c ++ bs).take p.len)
  | .fault f va => .fault f va
  | .status st => .status st
  | .wait => .wait

/-- A READREQ lands: the bytes are returned (R185). -/
def execReadreq (i : Nat) (s : State) : Out :=
  landing i 1 (fun s q =>
    let p := q.pkt
    let h := p.hd
    let e := s.remoteEntry h.ctx p.ht h.rhnd
    let b := if e.space = 2 then s.landBlock h.ctx p.blockId else none
    let die := match b with
      | some b => dieOfCore b.core
      | none => landDie q.port
    let st := s.remoteCheck h.ctx b e false false p.spanOff p.span
    if st ≠ 0 then some (s.answer h st [] [])
    else
      match s.landPiece die b e h p with
      | .wait => none
      | .status n => some ((if n = 3 then s.noteLandBad h.ctx e h.off p.len else s).answer h n [] [])
      | .fault _ _ => some (s.answer h 3 [] [])
      | .ok (s, bs) => some (s.answer h 0 (bs.map (fun x => x.1)) (badFlits bs))) s

/-- The update of an fatom (R186). -/
def fatomOp (aop : Nat) : Rmw :=
  match aop with
  | 0 => rmwWord (· + ·)
  | 1 => fun m b => some (rneAdd .f32 m b)
  | 2 => rmwWord wordMin
  | 3 => rmwWord wordMax
  | 4 => rmwWord (· ||| ·)
  | 5 => rmwWord (· ^^^ ·)
  | _ => rmwWord (fun _ b => b)

/-- An ATOMIC lands (R186, R244). -/
def execAtomic (i : Nat) (s : State) : Out :=
  landing i 3 (fun s q =>
    let p := q.pkt
    let h := p.hd
    let e := s.remoteEntry h.ctx p.ht h.rhnd
    let b := if e.space = 2 then s.landBlock h.ctx p.blockId else none
    let die := match b with
      | some b => dieOfCore b.core
      | none => landDie q.port
    let bound := match b with
      | some b => b.bmLen
      | none => e.limit
    if !(e.valid && atomSpaces.contains e.space && e.r && e.w && e.atom) || (p.harvest && e.space == 2) then some (s.answer h 1 [] [])
    else if e.space = 2 ∧ b.isNone then some (s.answer h 7 [] [])
    else if bound < h.off + 4 then some (s.answer h 2 [] [])
    else
      match s.remotePlace h.ctx b e h.off true true with
      | .error f => (match f.ready with
        | .wait => none
        | .dead => some (s.answer h 4 [] [])
        | .yes => some (((s.notePteBad f.bad).landScrub die h.ctx b e h.off 4).answer h 3 [] []))
      | .ok l =>
        match s.locReady die l with
        | .wait => none
        | .dead => some (s.answer h (deadStat l) [] [])
        | .yes =>
          if s.locPoison die l.home 4 then some (s.answer h 4 [] [])
          else
            let s := if h.relh then s.release else s
            some ((rmwLane (fatomOp h.aop) 4 (s.noteLand h.ctx e h.off) die l (leNat (p.data.take 4))).1.answer h 0 [] [])) s

/-! ## Responses (R185, R292, R315, R418) -/

/-- An open operation of the fabric with a tag. -/
def State.fabOp (s : State) (tag : Nat) : Option Op := s.ops.find? (fun (o : Op) => o.cls == 3 && o.tag == tag && !o.done)

/-- A CHUNK that a cox sent has been accepted (R315). -/
def State.chunkAccepted (s : State) (port k id n : Nat) : State :=
  s.modSlot port k (fun x =>
    match x.send with
    | none => x
    | some (sd : CoxSend) =>
      if sd.id ≠ id then x
      else
        let sd : CoxSend := { sd with left := sd.left.filter (fun m => m ≠ n), again := sd.again.filter (fun m => m ≠ n) }
        { x with send := some { sd with refused := sd.measured s.clock.toNat, since := none } })

/-- A READRSP arrives: the answer to a WRITE, a READREQ, an ATOMIC, a START or an accepted CHUNK (R283; log 14, DEDUCED). -/
def execReadrsp (i : Nat) (s : State) : Out :=
  landing i 2 (fun s q =>
    let p := q.pkt
    let h := p.hd
    if p.len = 10 then some (s.chunkAccepted (p.blockId / 8) (p.blockId % 8) p.span (h.off % 2 ^ 20 / 256))
    else if p.len = 11 then some (s.startAnswer h.src h.tag h.stat)
    else
      match s.fabOp h.tag with
      | none => some s
      | some o =>
        if h.stat ≠ 0 then some (s.failFab o h.stat)
        else if o.opc = 0x2C1 then
          let off := (h.off + 2 ^ 32 - o.arg 2) % 2 ^ 32
          -- `left` counts a packet until its bytes have been written
          some (s.modOp o.id (fun o => { o.noteAnswer h.src h.off false with
            left := o.left, stage := o.stage ++ [(off, p.data)],
            probes := o.probes ++ p.bad.map (fun f => off + 32 * f),
            stat := if o.stat = 0 && !p.bad.isEmpty then 4 else o.stat }))
        else
          let s := s.modOp o.id (fun o => o.noteAnswer h.src h.off false)
          some (if o.left ≤ 1 ∧ o.phase = 9 then s.finishOp o.id 0 else s)) s

/-- A copy of a MARKER arrives; with the last of them the marker is acknowledged (R287). -/
def execMarker (i : Nat) (s : State) : Out :=
  landing i 4 (fun s q =>
    let h := q.pkt.hd
    let same := fun (m : MarkCount) => m.src == h.src && m.ctx == h.ctx && m.tag == h.tag
    let seen := match s.marks.find? same with
      | some m => m.seen + 1
      | none => 1
    let rest := s.marks.filter (fun m => !same m)
    if seen < h.off then some { s with marks := { src := h.src, ctx := h.ctx, tag := h.tag, seen := seen } :: rest }
    else some ({ s with marks := rest }.answer h 0 [] [])) s

/-- A MARKACK arrives: the fmark retires, and the next WRITE or ATOMIC to its target carries RELH (R287). -/
def execMarkack (i : Nat) (s : State) : Out :=
  landing i 5 (fun s q =>
    match s.fabOp q.pkt.hd.tag with
    | none => some s
    | some o =>
      if o.opc ≠ 0x2C3 then some s
      else if q.pkt.hd.stat ≠ 0 then some (s.failFab o q.pkt.hd.stat)
      else
        let r := (o.crew, o.target)
        some ({ s with relh := if s.relh.contains r then s.relh else r :: s.relh }.finishOp o.id 0)) s

/-! ## In-router reduction (R291, R292) -/

/-- A PROBE arrives (R292, R294). ROP 15 marks the probe of an fstmc, which writes (log 14, DEDUCED). -/
def execProbe (i : Nat) (s : State) : Out :=
  landing i 6 (fun s q =>
    let p := q.pkt
    let h := p.hd
    let e := s.remoteEntry h.ctx p.ht h.rhnd
    let b := if e.space = 2 then s.landBlock h.ctx p.blockId else none
    let ok := s.grpFor h.group h.ctx && s.grpState h.group == 0 && (s.grp h.group).seq == h.seq &&
      s.remoteCheck h.ctx b e (h.rop == 15) h.arr h.off p.len == 0
    some (s.answer h (if ok then 0 else 7) [] [])) s

/-- A PROBEACK arrives; ABSENT is kept before any other status (R292). -/
def execProbeack (i : Nat) (s : State) : Out :=
  landing i 7 (fun s q =>
    let h := q.pkt.hd
    match s.fabOp h.tag with
    | none => some s
    | some o =>
      if o.phase ≠ 1 then some s
      else some (s.modOp o.id (fun o => { o with
        probes := o.probes.filter (fun m => m ≠ h.src),
        stat := if h.stat = 7 then 7 else if o.stat = 0 then h.stat else o.stat }))) s

/-- Partials that stand in the 16 reduction buffers of a router slice (R291). -/
def State.redUsed (s : State) (slice : Nat) : Nat := (s.outq.filter (fun (q : PortPkt) => q.red == some slice)).length
/-- The packets that `t` has queued for ports beyond those of `s` stand in a reduction buffer of a slice. (log 14, DEDUCED) -/
def State.redHold (s t : State) (slice : Nat) : State :=
  { t with outq := t.outq.take s.outq.length ++ (t.outq.drop s.outq.length).map (fun q => { q with red := some slice }) }
/-- A REDUCE that finds no free reduction buffer goes back to the member that sent it, as a REFUSE (R282). (log 14, DEDUCED) -/
def State.redRefuse (s : State) (p : Packet) : State :=
  let h := p.hd
  let g := s.grp h.group
  let rank := g.rankOf s.own
  let r := { h with dst := if p.data.isEmpty then h.src else g.ranks.getD (rank - 1) 0, kind := 14, ch := 1, hops := 0, nent := 0, ents := [] }
  (s.sendPkt r { p with was := 8 }).1

/-- A partial of a chunk reaches a member, which combines it with its own bytes and sends it on; rank 0 begins it (R292). It is acted
on at an equal SEQ, though V has been cleared since the probe (R290). (log 30, DEDUCED) -/
def execReduce (i : Nat) (s : State) : Out :=
  landing i 8 (fun s q =>
    let p := q.pkt
    let h := p.hd
    let g := s.grp h.group
    let slice := landDie q.port
    if h.group = 0 ∨ g.ctx ≠ h.ctx ∨ g.seq ≠ h.seq then some s
    else if 16 ≤ s.redUsed slice then some (s.redRefuse p)
    else
      let e := s.remoteEntry h.ctx p.ht h.rhnd
      let b := if e.space = 2 then s.landBlock h.ctx p.blockId else none
      let die := match b with
        | some b => dieOfCore b.core
        | none => landDie q.port
      let last := fun (s : State) (stat : Nat) (data : List Byte) =>
        let r := { Hd.mk0 s h.src 9 h.ctx h.tag with stat := stat, group := h.group, seq := h.seq, off := h.off }
        match s.sendPkt r (Packet.mk0 r data) with
        | (s, true) => s
        | (s, false) => s.startAbort h.group h.seq
      match s.landPiece die b e h p with
      | .wait => none
      | .status n => some (last (if n = 3 then s.noteLandBad h.ctx e h.off p.len else s) n [])
      | .fault _ _ => some (last s 3 [])
      | .ok (s, bs) =>
        if bs.any (fun x => x.2) then some (last s 4 [])
        else
          let own := redWiden h.rop (bs.map (fun x => x.1))
          let sum := if p.data.isEmpty then own else redCombine h.rop p.data own
          let rank := g.rankOf s.own
          if rank = g.nm1 then some (last s 0 sum)
          else
            let r := { h with dst := g.ranks.getD (rank + 1) 0, hops := 0, nent := 0, ents := [] }
            match s.sendVia r { p with data := sum } entRed with
            | (t, true) => some (s.redHold t slice)
            | (t, false) => some (t.startAbort h.group h.seq)) s

/-- A result, or the status that ends the command, reaches the issuing package (R292). -/
def execRedrsp (i : Nat) (s : State) : Out :=
  landing i 9 (fun s q =>
    let p := q.pkt
    let h := p.hd
    match s.fabOp h.tag with
    | none => some s
    | some o =>
      if o.opc ≠ 0x2C4 ∨ o.phase ≠ 2 then some s
      else if h.stat ≠ 0 then some (s.failFab o h.stat)
      else
        let off := (h.off + 2 ^ 32 - o.arg 1) % 2 ^ 32 * (if h.rop = 8 ∨ bitsOf (o.arg 4) 27 24 = 8 then 2 else 1)
        some (s.modOp o.id (fun o => { o.noteAnswer h.src h.off true with stage := o.stage ++ [(off, p.data)] }))) s

/-! ## The receive engine of a cox (R321 to R324) -/

/-- The answer to a CHUNK: accepted, or REFUSE with a status (R321). -/
def State.chunkAnswer (s : State) (p : Packet) (kind stat : Nat) : State :=
  let h := p.hd
  let r := { Hd.mk0 s h.src kind h.ctx h.tag with stat := stat, seq := h.seq, group := h.group, off := h.off }
  (s.sendPkt r { Packet.mk0 r [] with len := 10, blockId := p.spanOff, span := p.span }).1

/-- A CHUNK arrives (R321, R323). -/
def execChunk (i : Nat) (s0 : State) : Out :=
  let s := { s0 with free := s0.free + 1 }
  match s.takeLanding i 10 with
  | none => .next s
  | some (q, t) =>
    let p := q.pkt
    let h := p.hd
    let port := p.blockId % 32
    let g := t.grp h.group
    let d := (h.seq + 65536 - g.seq) % 65536
    if !t.admitted h.ctx h.src then .next t
    else if !t.grpFor h.group h.ctx ∨ 32768 ≤ d then .next (t.chunkAnswer p 14 9)
    else
      let t := if d = 0 then t else t.applyAbort h.group
      let mine := (List.range 8).filter (fun k =>
        let sl := t.coxSlot port k
        sl.st ≠ 0 && sl.ctx == h.ctx && sl.group == h.group && sl.seq == h.seq)
      match mine.find? (fun k => (t.coxSlot port k).wins.any (fun (w : CoxWin) => w.tag == h.tag % 256)) with
      | none => .next (t.chunkAnswer p 14 0)
      | some k =>
        let sl := t.coxSlot port k
        let w := sl.win (h.tag % 256)
        if bitsOf h.off 28 24 ≠ (sl.buf w.buf).lch then .next (t.chunkAnswer p 14 12)
        else if w.fva.isSome then .next (t.chunkAnswer p 14 3)
        else
          match t.coxLand port k p with
          | .ok t => .next (t.chunkAnswer p 2 0)
          | .error .wait => .next s
          | .error (.cause code sub va) =>
            let t := if code = 0x0C then t.noteBadAt sl.asid va 20 else t
            if 4 ≤ (t.cox port).holds.length then .next (t.chunkAnswer p 14 3)
            else
              let t := t.modCox port (fun c => { c with holds := c.holds ++ [{ slot := k, tag := h.tag % 256, pkt := p }] })
              let t := t.modSlot port k (fun x => { x with wins := x.wins.map (fun (y : CoxWin) =>
                if y.tag = h.tag % 256 then { y with fva := some va, fsub := sub } else y) })
              .next (t.chunkAnswer p 2 0)

/-- A refused REDUCE is sent again, unless its group has aborted meanwhile (R282, R296). -/
def State.redAgain (s : State) (p : Packet) (slice : Nat) : State :=
  let h := p.hd
  let g := s.grp h.group
  if g.seq ≠ h.seq then s
  else
    -- the one that starts a chunk carries no data and goes to rank 0, a partial to the rank after this one
    let tgt := if p.data.isEmpty then g.ranks.headD 0 else g.ranks.getD (g.rankOf s.own + 1) 0
    let r := { h with dst := tgt, kind := 8, ch := 2, hops := 0, nent := 0, ents := [] }
    match s.sendVia r { p with was := 10 } entRed with
    | (t, true) => s.redHold t slice
    | (t, false) => t.startAbort h.group h.seq

/-- A REFUSE arrives at the sender of a CHUNK or a REDUCE (R282, R315, R321, R324). -/
def execRefuse (i : Nat) (s0 : State) : Out :=
  let t := { s0 with free := s0.free + 1 }
  match t.takeLanding i 14 with
  | none => .next t
  | some (q, s) =>
    let p := q.pkt
    let h := p.hd
    let port := p.blockId / 8
    let k := p.blockId % 8
    let n := h.off % 2 ^ 20 / 256
    let sl := s.coxSlot port k
    if !s.admitted h.ctx h.src then .next s
    -- a partial waits until a reduction buffer of its slice is free (R291)
    else if p.was = 8 then .next (if 16 ≤ s.redUsed (landDie q.port) then t else s.redAgain p (landDie q.port))
    else match sl.send with
    | none => .next s
    | some sd =>
      if sd.id ≠ p.span ∨ !sd.left.contains n then .next s
      else if h.stat = 9 then
        .next (if sl.st = 2 then s.modSlot port k (fun x => { x with aborted := true }) else s.coxAborted port k)
      else
        let now := s.clock.toNat
        let sd := if h.stat = 12 then { sd with fail := some (0x0F, 4, 0) }
          else if h.stat = 3 then { sd with again := sd.again ++ [n], refused := sd.measured now, since := none }
          else { sd with again := sd.again ++ [n], since := some (sd.since.getD now) }
        .next (s.modSlot port k (fun x => { x with send := some sd }))

/-- A START arrives (R290, R326). -/
def execStart (i : Nat) (s : State) : Out := landing i 11 (fun s q => some (s.startHere q.pkt)) s

/-! ## Forwarding and timeouts (R284, R287, R292, R295, R296) -/

/-- Flits in the receive buffer of the bridge between two dies, of a channel and hop class (R281). (log 15, DEDUCED) -/
def State.bridged (s : State) (a b ch hops : Nat) : Nat :=
  ((s.outq.filter (fun (q : PortPkt) => q.buf == some (32 + a) && q.port / 8 == b && q.pkt.hd.ch == ch && q.pkt.hd.hops == hops)).map
    (fun q => 1 + q.pkt.hd.ndata)).sum
/-- A packet that came on port p and has been queued last for its departure port: it stays in its receive buffer, or crosses the bridge to
the die of that port against credits for its flits; none where the bridge has too few (R278, R281). (log 15, DEDUCED) -/
def State.crossing (t : State) (p : Nat) : Option State :=
  match t.outq.getLast? with
  | none => some t
  | some q =>
    let put := fun k => { t with outq := t.outq.dropLast ++ [{ q with buf := some k }] }
    if p / 8 = q.port / 8 then some (put p)
    else if 16 < t.bridged (p / 8) (q.port / 8) q.pkt.hd.ch q.pkt.hd.hops + 1 + q.pkt.hd.ndata then none
    else some (put (32 + p / 8))

/-- A router forwards packet i of those received, after the earlier ones of its port, channel and hop class, across a bridge where it
leaves from another die (R278, R281, R284, R286). -/
def execPacketForward (i : Nat) (s0 : State) : Out :=
  let s := { s0 with free := s0.free + 1 }
  match s.inq[i]? with
  | none => .next s
  | some q =>
    if (s.inq.take i).any (fun (x : PortPkt) => x.port == q.port && x.pkt.hd.ch == q.pkt.hd.ch && x.pkt.hd.hops == q.pkt.hd.hops) then .next s
    else
      let m := { s with inq := s.inq.take i ++ s.inq.drop (i + 1) }
      .next (match m.routeStep q.port q.pkt with
        | .sent t => (t.crossing q.port).getD s
        | _ => m.route q.port q.pkt)

/-- The response timeout: of a command by its id, and of the aborts of this package (R287, R292, R294 to R296). -/
def execFabricResponseTimeout (id : Nat) (s0 : State) : Out :=
  let s := ({ s0 with free := s0.free + 1 }).fabTimeout id
  .next { s with aborts := s.aborts.filter (fun (a : AbortWait) => decide (s.clock.toNat < a.since + s.fabto.toNat)) }

end Sys2Proof.Machine
end

