-- ==== Sys2Proof/Machine/Units.lean ====
section
/-!
DEFINITION. Units.lean: the steps of the units that act on their own: completions, record retries, engines, tile engines,
allocators, prefetches, and writes that reach their homes and replicas
(spec 02 R46; 08 R167, R169, R175, R184; 09 R205; 11 R236, R241; 12 R266, R267; 21 R388).
-/

namespace Sys2Proof.Machine

open Sys2Proof

/-- What the lanes of a store or RMW leave at one place when they act one after another on the data given: each lane's old value, and the
place's contents. -/
def lateRun (op : RmwOp) (items : List LateItem) (data : LateItem → Nat) : List (Nat × Nat) × Nat :=
  items.foldl (fun p i => (p.1 ++ [(i.lane, p.2)], (op.fn i.lane p.2 (data i)).getD p.2)) ([], (items.head?.map (fun i => i.init)).getD 0)

/-- The sources that an instruction may still read are read as it completes: each is, lane by lane, what it was at issue or what it is now
(R61). A command that has not begun takes the argument words so read; what a store or RMW has done at a place that nobody has written
since, and the old values that it returns, become what they are for the data so read. (log 19, DEDUCED) -/
def State.readLate (s : State) (c : Crew) (f : Flight) : State × Flight :=
  let others := c.flights.filter (fun g => g.id ≠ f.id)
  let word := fun r l (old : Nat) => if s.pick [55, c.id, f.id, r, l] 2 = 1 then (readLane s c.id c.regs others r l).toNat else old
  match f.late with
  | none => (s, f)
  | some (.args regs lane) =>
    (s.modOp f.id (fun o =>
      if o.checked || o.done || o.phase ≠ 0 then o
      else { o with args := (List.range o.args.length).map (fun i =>
          let r := regs.getD i 0
          if r = 0 then o.args.getD i 0#32 else BitVec.ofNat 32 (word (r - 1) lane (o.arg i))) }), f)
  | some (.data die reg n size op items) =>
    let read := fun (i : LateItem) => leNat ((List.range n).flatMap (fun k => leBytes 4 (word (reg + k) i.lane (i.data / 2 ^ (32 * k) % 2 ^ 32))))
    let q := ((items.map (fun i => i.loc)).dedup).foldl (fun (q : State × List (Nat × Nat)) l =>
      let here := items.filter (fun i => i.loc = l)
      let a := lateRun op here (fun i => i.data)
      let b := lateRun op here read
      let was := a.2 % 2 ^ (8 * size)
      let new := b.2 % 2 ^ (8 * size)
      let t := if op.plain then q.1 else q.1.beforeRmw die l
      let holds := leNat (if op.plain then t.load die l size else t.load 0 l.home size)
      if a = b ∨ holds ≠ was then q
      else (if new = was then q.1 else if op.plain then t.store die l (leBytes size new) else t.rmwWrite die l (leBytes size new), q.2 ++ b.1)) (s, [])
    let first := (f.writes.head?.map (fun a => a.reg)).getD 0
    (q.1, { f with writes := f.writes.map (fun a => { a with row := mkRow (fun l =>
      match q.2.find? (fun p => p.1 == l) with
      | some p => BitVec.ofNat 32 (p.2 / 2 ^ (32 * (a.reg - first)))
      | none => rowAt a.row l) }) })

/-- An instruction of variable latency completes: its results are written and its flag goes down (R45, R46). A waiting acca
completes by its grant only. -/
def execInstructionCompletion (crew flight : Nat) (s0 : State) : Out :=
  let s := { s0 with free := s0.free + 1 }
  match s.crew? crew with
  | none => .next s
  | some c =>
    match c.flights.find? (fun (f : Flight) => f.id == flight && f.due.isNone) with
    | none => .next s
    | some f =>
      if s.accas.any (fun (a : AccaReq) => a.crew == crew && a.flight == flight) then .next s
      else
        let q := s.readLate c f
        .next (match q.1.crew? crew with
          | some c => q.1.setCrew (finishFlight q.1 c q.2)
          | none => q.1)

/-! ## Records held (R388) -/

/-- A held record has been posted: the agent that waits for it learns its number, which is FSEQ of a saved crew (R373, R380); the
umpire goes on to terminate (R275, R388). -/
def State.recordPosted (s : State) (h : Held) (seq : Nat) : State :=
  let s := match h.crew with
    | some id => s.atImage (((s.crew? id).map (fun c => c.blk)).getD 0) (fun s =>
      s.modCrew id (fun c => { c with stall := c.stall.map (fun (x : Stall) => { x with seq := some seq }) }))
    | none => s
  match h.kind, h.unit with
  | 1, some (id, k) => s.modOp id (fun o => { o with pause := o.pause.map (fun (p : Nat × Option Nat) => if p.1 = k ∧ p.2.isNone then (k, some seq) else p) })
  | 2, some (id, k) => s.modOp id (fun o => { o with pause := o.pause.map (fun (p : Nat × Option Nat) => if p.1 = k ∧ p.2.isNone then (k, some seq) else p) })
  | 0, some (ctx, _) => s.terminate ctx
  | 4, some (ctx, _) => s.terminate ctx
  | 5, some (id, _) => s.modLaunch id (fun l => { l with hold := some (some seq) })
  | _, _ => s

/-- Held record i is tried again. -/
def State.retryRecord (s : State) (i : Nat) (unwritable : Bool) : State :=
  match s.held[i]? with
  | none => s
  | some h =>
    if h.unwritable ≠ unwritable then s
    else
      let rest := s.held.take i ++ s.held.drop (i + 1)
      match s.tryPost h with
      | (t, some seq, _) => { t with held := rest }.recordPosted h seq
      | (t, none, bad) =>
        -- one that finds the queue full now is a post that found it full; one that fails now is logged with the VA that failed
        let t := if bad.isNone && unwritable then t.countWait h else t
        let h' := { h with unwritable := bad.isSome, tried := s.clock.toNat }
        let t := { t with held := s.held.take i ++ [h'] ++ s.held.drop (i + 1) }
        match bad with
        | some va => if unwritable then t else t.rasLog 12 0 va 0
        | none => t

/-- A record held because its queue was full is posted once there is space (R388). -/
def execFaultRecordRetry (i : Nat) (s : State) : Out := .next ({ s with free := s.free + 1 }.retryRecord i false)
/-- A record held because its queue could not be written is tried again (R388). -/
def execFaultQueueWriteRetry (i : Nat) (s : State) : Out := .next ({ s with free := s.free + 1 }.retryRecord i true)

/-! ## Engines (R174 to R189) -/

/-- An operation may take a step: that of a stopped context until its next 4 KiB unit, a scale copy or a fabric command to its end
unless a key holds it (R367); that of a harvest block under revocation until its next 256-byte unit, and of a parked one not at
all, but for a fabric command (R270); that of a saved block not at all. -/
def State.opLive (s : State) (o : Op) : Bool :=
  let b := s.block? o.blk
  let stop := (s.ctxSt o.ctx).stopped
  let held := b.any (fun (b : Block) => b.place == 1 || (o.cls ≠ 3 && b.harv && b.place == 0 && (s.core b.core).revoke ≠ 0 && s.atUnit o 256) ||
    (o.cls ≠ 3 && b.place == 2 && !((b.evicting || stop) && s.awaited o)))
  !held && (!stop || (o.runsOn && (s.heldPort o).isNone) || !s.atUnit o 4096)

/-- A command of an owner block whose block memory lies in lent memory demands it when it acts there (R269). -/
def State.touchOp (s : State) (o : Op) : State :=
  if o.handleArgs.any (fun i => (s.opHandle o (o.args.getD i 0#32)).space == 2) then
    s.touchLent o.core o.blk (s.opPart o).1 ((s.opPart o).1 + (s.opPart o).2)
  else s

/-- One step of a copy, gather or fabric operation; the last one retires it (R175). -/
def execEngineOperationRetire (id : Nat) (s0 : State) : Out :=
  let s := { s0 with free := s0.free + 1 }
  match s.op? id with
  | none => .next s
  | some o =>
    if o.cls = 2 ∨ o.opc = 0x298 ∨ !s.opLive o then .next s
    else
      let s := s.touchOp o
      if o.cls = 3 then .next (s.stepFabric o) else .next (s.stepEngine o)

/-- The add of a tsig whose awaited operations have retired (R184); one whose block is not on a core is saved (R270, R367). -/
def execTsigAdd (id : Nat) (s0 : State) : Out :=
  let s := { s0 with free := s0.free + 1 }
  match s.op? id with
  | none => .next s
  | some o => .next (if o.opc = 0x298 && (s.opHere o || s.opLive o) then s.stepEngine o else s)

/-! ## Tile engines (R266) -/

/-- A free engine of a core starts a READY slice (R266). -/
def execTileSliceStart (core : Nat) (s : State) : Out := .next ({ s with free := s.free + 1 }.startSlice core)

/-- A task takes its checks, or a running slice its next row; the last row of the last slice retires it (R202, R266). -/
def execTileTaskRetire (id slice : Nat) (s0 : State) : Out :=
  let s := { s0 with free := s0.free + 1 }
  match s.op? id with
  | none => .next s
  | some o =>
    if o.cls ≠ 2 ∨ (s.ctxSt o.ctx).stopped then .next s
    else if !o.checked then .next (s.admitTask o)
    else
      let s := s.stepSlice o slice
      .next (match s.op? id with
        | some o => s.retireTask o
        | none => s)

/-- The accumulator allocator of a core acts: a grant or a spill (R204, R267). -/
def execAccaGrant (core : Nat) (s : State) : Out := .next ({ s with free := s.free + 1 }.allocate core)
/-- Pending release i of a unit takes effect (R205). -/
def execAccfUnitRelease (i : Nat) (s : State) : Out := .next ({ s with free := s.free + 1 }.releaseUnit i)

/-! ## Writes on their way (R236, R241) -/

/-- A write that a clock names is still on its way to a die (R236). -/
def State.behind (s : State) (dst : Nat) (clk : List Nat) : Bool :=
  s.arriving.any (fun (x : Arriving) => x.dst == dst && decide (x.num ≤ clk.getD x.src 0)) ||
    s.replicas.any (fun (x : Replica) => x.die == dst && decide (x.num ≤ clk.getD x.src 0))

/-- Arriving write i is applied at its home, after the earlier ones of its die that overlap it and after all the writes that its
clock names (R236). -/
def execRemoteWriteApply (i : Nat) (s0 : State) : Out :=
  let s := { s0 with free := s0.free + 1 }
  match s.arriving[i]? with
  | none => .next s
  | some w =>
    let early := (s.arriving.take i).any (fun (x : Arriving) =>
      x.src == w.src && decide (x.pa < w.pa + w.bytes.length) && decide (w.pa < x.pa + x.bytes.length))
    .next (if early || s.behind w.dst w.clock then s else { s with arriving := s.arriving.take i ++ s.arriving.drop (i + 1) }.applyArriving w)

/-- Replica write i is applied, after the earlier ones of its page on its die and after the writes that its clock names
(R236, R241). -/
def execReplicaApply (i : Nat) (s0 : State) : Out :=
  let s := { s0 with free := s0.free + 1 }
  match s.replicas[i]? with
  | none => .next s
  | some r =>
    let early := (s.replicas.take i).any (fun (x : Replica) => x.die == r.die && x.pa / 2 ^ 21 == r.pa / 2 ^ 21)
    .next (if early || s.behind r.die r.clock then s else { s with replicas := s.replicas.take i ++ s.replicas.drop (i + 1) }.applyReplica r)

/-! ## Prefetches (R167, R169) -/

/-- The pfd request that a core begins next: earliest deadline, then higher priority, then issue order (R169). -/
def nextPfd (ps : List PfdReq) : Option PfdReq :=
  ps.foldl (fun (m : Option PfdReq) (p : PfdReq) => match m with
    | none => some p
    | some q =>
      if p.deadline < q.deadline ∨ (p.deadline = q.deadline ∧ (q.prio < p.prio ∨ (p.prio = q.prio ∧ p.order < q.order)))
      then some p else some q) none

/-- Tracker n of a core is idle again; or, for n of 32, the pfd request that the core has begun is done, or where there is none the next
one begins, of those whose deadline has not passed (R167, R169). (log 21, DEDUCED) -/
def execPrefetchComplete (core n : Nat) (s0 : State) : Out :=
  let s := { s0 with free := s0.free + 1 }
  if n < 32 then
    .next (s.modCore core (fun k => { k with trackers := k.trackers.set n { k.trackers.getD n { busy := false, gen := 0, crew := 0 } with busy := false } }))
  else
    let ps := (s.core core).pfds
    if ps.any (fun (q : PfdReq) => q.begun) then .next (s.modCore core (fun k => { k with pfds := k.pfds.filter (fun (q : PfdReq) => !q.begun) }))
    else
      match nextPfd (ps.filter (fun (q : PfdReq) => decide (s.cycle ≤ q.deadline))) with
      | none => .next s
      | some p => .next (s.modCore core (fun k => { k with pfds := k.pfds.map (fun (q : PfdReq) => if q.order = p.order then { q with begun := true } else q) }))

end Sys2Proof.Machine
end

