-- ==== Sys2Proof/Machine/Ports.lean ====
section
/-!
DEFINITION. Ports.lean: Felliog ports, training, link keys, frames, announcements and FABCFG
(spec 13 R280, R295; 24 R433 to R435; 25 R440 to R445).
-/

namespace Sys2Proof.Machine

open Sys2Proof

/-! ## Ports that fail (R295, R443) -/

/-- EN of FABCFG (R440). -/
def State.fabEn (s : State) : Bool := s.fabcfg.getLsbD 0
/-- The package that physical port p is to reach (R278, R442). -/
def State.expected (s : State) (p : Nat) : Option Nat := (s.serves? p).bind s.peerOf

/-- A packet that was queued for a port, or came back from its replay buffer, goes on a detour to the neighbour t, or is lost (R295). -/
def State.reroute (s : State) (t : Option Nat) (q : PortPkt) : State :=
  let h := q.pkt.hd
  match t with
  | none => s.loseOwn h 6
  | some t =>
    match s.hopTo { h with hops := h.hops - 1 } q.pkt t q.around.isSome with
    | .sent s => { s with outq := s.outq.dropLast ++ (s.outq.getLast?.map (fun (x : PortPkt) => ({ x with buf := q.buf } : PortPkt))).toList }
    | .landed s => s
    | .abort => s.startAbort h.group h.seq
    | .lost => if h.kind = 10 then s.startAbort h.group h.seq else s.loseOwn h 6
    | _ => s.countDrop q.port

/-- Physical port p leaves service for a state of PORTSTAT: its last `back` packets, still in the replay buffer, and those queued
for it are sent again in their order (R295, R443). -/
def State.portLeaves (s : State) (p back st : Nat) : State :=
  let x := s.port p
  let t := s.expected p
  let mine := fun (q : PortPkt) => q.port == p
  let sent := s.wire.filter mine
  let again := sent.drop (sent.length - back) ++ s.outq.filter mine
  let s := { s with
    wire := s.wire.filter (fun q => !mine q) ++ sent.take (sent.length - back),
    outq := s.outq.filter (fun q => !mine q) }
  let s := s.modPort p (fun y => { y with st := st, downAt := s.cycle })
  let s := if x.st = 2 then (s.modPort p (fun y => { y with downs := y.downs + 1#32 })).rasLog 5 (p * 65536 + p / 8 * 64) 0 0 else s
  again.foldl (fun s q => s.reroute t q) s

/-- Flits that stand in a port's receive buffer of a channel and hop class: of packets received, of packets that wait to land, and of
packets on their way through that their link has not taken (R281). (log 15, DEDUCED) -/
def State.buffered (s : State) (p ch hops : Nat) : Nat :=
  let flits := fun (q : PortPkt) => 1 + q.pkt.hd.ndata
  (((s.inq ++ s.landing).filter (fun (q : PortPkt) => q.port == p && q.pkt.hd.ch == ch && q.pkt.hd.hops == hops)).map flits).sum +
    ((s.outq.filter (fun (q : PortPkt) => q.buf == some p && q.pkt.hd.ch == ch && q.pkt.hd.hops == hops + 1)).map flits).sum
/-- A frame that leaves a port returns the credits of the flits that have left its receive buffers (R281). (log 15, DEDUCED) -/
def State.repay (s : State) (p : Nat) : State :=
  let room := (List.range 12).map (fun i => 16 - s.buffered p (i / 4) (i % 4))
  s.modPort p (fun y => { y with lent := room })

/-- A port starts to train: its keys are gone until the exchange has made new ones, and each end has the credits of the other's room
(R281, R434, R443). -/
def State.portTrains (s : State) (p : Nat) : State :=
  (s.repay p).modPort p (fun y => { y with
    st := 1, txst := 0, rxst := 0, txsel := false, rxsel := false, txkey := none, rxkey := none, rxnext := none, rxcnt := 0#64, fails := 0, exch := 0, credit := List.replicate 12 16 })
/-- A port trains if the domain is on, it has a peer, and it is not held out of service (R440, R442). -/
def State.portTry (s : State) (p : Nat) : State :=
  if s.fabEn && (s.expected p).isSome && !(s.port p).admdn then s.portTrains p else s

/-- A port is declared down: training lost, or 64 retries of one flit failed (R295). -/
def execPortDown (p back : Nat) (s0 : State) : Out :=
  let s := { s0 with free := s0.free + 1 }
  .next (if (s.port p).st = 2 ∧ p < 32 then (s.portLeaves p back 3).modPort p (fun y => { y with tries := 0 }) else s)

/-- The port comes into service once it has a key and no packet that detoured around it is left (R295, R443). -/
def State.portUp (s : State) (p : Nat) : State :=
  let x := s.port p
  if x.st ≠ 1 ∨ x.txst = 0 ∨ s.outq.any (fun q => q.around.isSome && q.around == s.serves? p) then s
  else (s.modPort p (fun y => { y with st := 2, att := 0, tries := 0 })).rasLog 6 (p * 65536 + p / 8 * 64) 0 0

/-- A training attempt: failed, or the ends have exchanged their addresses; a wrong peer sets MISWIRE, the right one begins the
key exchange (R433, R443). On a port that has its key it completes the return to service. -/
def execPortTraining (p : Nat) (ok : Bool) (peer : Nat) (s0 : State) : Out :=
  let s := { s0 with free := s0.free + 1 }
  let x := s.port p
  if 32 ≤ p ∨ x.st ≠ 1 then .next s
  else if x.txst ≠ 0 then .next (s.portUp p)
  else if !ok then .next (s.modPort p (fun y => { y with st := 3, att := min 31 (y.att + 1), downAt := s.cycle }))
  else
    let s := s.modPort p (fun y => { y with peer := peer % 256 })
    if s.expected p = some (peer % 256) then .next (s.modPort p (fun y => { y with exch := 1 }))
    else .next ((s.modPort p (fun y => { y with st := 5 })).rasLog 7 (p * 65536 + p / 8 * 64) 0 0)

/-- A DOWN port retrains every 2^24 cycles, up to 16 times (R443). -/
def execPortAutoRetrain (p : Nat) (s0 : State) : Out :=
  let s := { s0 with free := s0.free + 1 }
  let x := s.port p
  if p < 32 ∧ x.st = 3 ∧ x.tries < 16 ∧ x.downAt + 2 ^ 24 ≤ s.cycle then
    .next ((s.portTry p).modPort p (fun y => { y with tries := y.tries + 1 }))
  else .next s

/-- A neighbour's announcement is applied: bit `i` of LSTATE word `k` (R444). -/
def execLinkStateAnnouncement (k i : Nat) (up : Bool) (s0 : State) : Out :=
  let s := { s0 with free := s0.free + 1 }
  let peer := if k < 16 then s.own / 16 * 16 + k else (k - 16) * 16 + s.own % 16
  if 32 ≤ k ∨ 16 ≤ i ∨ !s.inGrid peer ∨ peer = s.own then .next s
  else
    let w := s.lstate.getD k 0#32
    let b := 1#32 <<< i
    .next { s with lstate := s.lstate.set k (if up then w ||| b else w &&& ~~~b) }

/-! ## Link keys and frames (R433 to R435) -/

/-- L of R434. -/
def ctrLimit : Nat := 2 ^ 64 - 1

/-- A key exchange ends: both directions have a new key, the counters restart, a HELD direction is ACTIVE again; the first key of a
port completes its training (R433 to R435, R443). The peer may have begun one on a port that has a key. One that fails to verify
leaves everything as it was. (log 30, DEDUCED) -/
def execKeyExchangeMessage (p : Nat) (ok : Bool) (s0 : State) : Out :=
  let s := { s0 with free := s0.free + 1 }
  let x := s.port p
  if 32 ≤ p ∨ (x.exch = 0 ∧ x.txst = 0) ∨ !ok then .next s
  else
    let first := x.txst = 0
    let held := (s.ops.filter (fun (o : Op) => s.heldPort o == some p)).map (fun o => o.id)
    let s := s.modPort p (fun y => { y with
      exch := 0, txst := 1, rxst := 1, txcnt := 0#64, nkey := (y.nkey + 1) % 65536,
      txsel := if first then false else !y.txsel, txkey := some (Config.linkKey p (y.nkey + 1) true),
      rxkey := if first then some (Config.linkKey p (y.nkey + 1) false) else y.rxkey,
      rxnext := if first then none else some (Config.linkKey p (y.nkey + 1) false), rxcnt := if first then 0#64 else y.rxcnt })
    let s := s.portUp p
    -- the fabric operations that were held proceed: their response times start anew (R189)
    let s := { s with ops := s.ops.map (fun (o : Op) => if held.contains o.id then o.restart s.clock.toNat else o) }
    -- crews that wait for this key go on at their region entries, where their operations are no longer held (R182)
    .next { s with crews := s.crews.map (fun (c : Crew) =>
      if c.stall.any (fun (y : Stall) => y.key == some p) then { resumeCrew c false with stall := none } else c) }

/-- The transmit direction is HELD: vector 3, the reductions held on it aborted, a rekey begun (R434). -/
def State.portHeld (s : State) (p : Nat) : State :=
  let s := (s.modPort p (fun y => { y with txst := 3, exch := max 1 y.exch })).postMsix 3
  let reds := s.outq.filter (fun (q : PortPkt) => q.port == p && (q.pkt.hd.kind == 8 || q.pkt.hd.kind == 9))
  let s := { s with outq := s.outq.filter (fun (q : PortPkt) => !(q.port == p && (q.pkt.hd.kind == 8 || q.pkt.hd.kind == 9))) }
  reds.foldl (fun s (q : PortPkt) => s.startAbort q.pkt.hd.group q.pkt.hd.seq) s

/-- A request of a command that is saved with its context, held for a key: nothing of it is sent (R367). -/
def State.opSaved (s : State) (p : Packet) : Bool :=
  p.hd.src == s.own && bitsOf (p.hdr.getD 0 0#32).toNat 5 4 == 0 &&
    s.ops.any (fun (o : Op) => o.cls == 3 && o.tag == p.hd.tag && !o.done && (s.block? o.blk).any (fun (b : Block) => b.place == 1))

/-- The first packet of a channel and hop class of a port leaves in frames, against a credit for each of its flits; the counter advances
by them, and the state follows the counter (R280, R281, R286, R434). Where there is none, a frame returns credits alone. A packet that
would reach L is held whole, and all traffic of a link waits while a revocation rekeys it (R439). (log 30, DEDUCED) -/
def execFrameSend (p ch hops : Nat) (s0 : State) : Out :=
  let s := { s0 with free := s0.free + 1 }
  let x := s.port p
  let mine := fun (q : PortPkt) => q.port == p && q.pkt.hd.ch == ch && q.pkt.hd.hops == hops && !s.opSaved q.pkt
  if 32 ≤ p ∨ x.st ≠ 2 ∨ x.txst = 0 ∨ x.txst = 3 ∨ x.exch = 2 ∨ s.mgmt.ps ≠ 0#2 then .next s
  else
    match s.outq.findIdx? mine with
    | none => .next (s.repay p)
    | some i =>
      let n := 1 + (s.outq[i]?.map (fun q => q.pkt.hd.ndata)).getD 0
      let c := x.txcnt.toNat + n
      let cr := x.credit.getD (4 * ch + hops) 0
      if cr < n then .next s
      else if ctrLimit < c then .next (s.portHeld p)
      else
        let warn := x.txst = 1 ∧ ctrLimit - 2 ^ 32 ≤ c
        let gone := ((s.outq[i]?).map (fun (q : PortPkt) => ({ q with buf := none } : PortPkt))).toList
        let s := { s with outq := s.outq.take i ++ s.outq.drop (i + 1), wire := s.wire ++ gone }
        let s := s.modPort p (fun y => { y with
          txcnt := BitVec.ofNat 64 c, credit := y.credit.set (4 * ch + hops) (cr - n), txst := if warn then 2 else y.txst,
          exch := if warn then max 1 y.exch else y.exch, sent := y.sent + BitVec.ofNat 64 n })
        let s := (if warn then s.postMsix 3 else s).repay p
        -- the counter has reached L, which the next flit would take
        .next (if c = ctrLimit then s.portHeld p else s)

/-- Credits that the peer returns, capped at the 16 flits of each buffer (R281). (log 15, DEDUCED) -/
def Port.credited (x : Port) (cs : List Nat) : Port :=
  { x with credit := (List.range 12).map (fun i => min 16 (x.credit.getD i 0 + cs.getD i 0)) }
/-- The state of a receive direction whose counter stands at c (R434). -/
def rxState (c : Nat) : Nat := if c = ctrLimit then 3 else if ctrLimit - 2 ^ 32 ≤ c then 2 else 1
/-- A frame whose tag fails is dropped; with the 64th consecutive one the port is declared down, the flits of its replay buffer that the
peer has not acknowledged being free (R295, R433). -/
def State.tagFails (s : State) (p : Nat) : State :=
  let s := s.modPort p (fun y => { y with tagFail := y.tagFail + 1#32, retries := y.retries + 1#32, fails := y.fails + 1 })
  if (s.port p).fails < 64 then s
  else (s.portLeaves p (s.pick [56, p] (s.wire.length + 1)) 3).modPort p (fun y => { y with tries := 0, fails := 0 })

/-- A frame arrives: a failed tag drops it; the first under a new key retires the old one (R433, R435). The packet it carries
waits in its receive buffer, for which its sender had credits (R281); `side` is what travels beside the header (log 14, DEDUCED):
the packet's own, then the credits returned with it. A frame without a header flit brings credits alone. (log 15, DEDUCED) -/
def execFrameReceive (p : Nat) (ok sel : Bool) (hdr : List (BitVec 32)) (data : List (BitVec 8)) (bad side : List Nat) (s0 : State) : Out :=
  let s := { s0 with free := s0.free + 1 }
  let x := s.port p
  let key := sel == x.rxsel || x.rxnext.isSome
  if 32 ≤ p ∨ x.st ≠ 2 ∨ x.rxst = 0 ∨ (hdr.length ≠ 8 ∧ hdr ≠ []) then .next s
  else if !ok ∨ !key then .next (s.tagFails p)
  else
    let s := s.modPort p (fun y => { y.credited (side.drop 7) with fails := 0 })
    let s := if sel = x.rxsel then s else s.modPort p (fun y => { y with rxsel := sel, rxkey := y.rxnext, rxnext := none, rxcnt := 0#64, rxst := 1 })
    let pkt : Packet := {
      hdr := hdr, data := data, bad := bad, blockId := side.getD 0 0, ht := BitVec.ofNat 64 (side.getD 1 0), len := side.getD 2 0,
      spanOff := side.getD 3 0, span := side.getD 4 0, was := side.getD 5 10, harvest := side.getD 6 0 == 1 }
    let n := 1 + pkt.hd.ndata
    let k := 4 * pkt.hd.ch + pkt.hd.hops
    let left := (s.port p).lent.getD k 0
    let c := (s.port p).rxcnt.toNat + n
    if hdr = [] ∨ left < n ∨ ctrLimit < c then .next s
    else
      -- an old key on which frames still arrive says nothing of the state of the new one
      let s := s.modPort p (fun y => { y with
        rcvd := y.rcvd + BitVec.ofNat 64 n, rxcnt := BitVec.ofNat 64 c, lent := y.lent.set k (left - n),
        rxst := if y.rxnext.isSome then y.rxst else rxState c, exch := if y.rxnext.isNone && rxState c ≠ 1 then max 1 y.exch else y.exch })
      .next { s with inq := s.inq ++ [{ port := p, pkt := pkt, around := none }] }

/-! ## Configuration (R440, R442) -/

/-- A write to FABCFG: ignored once EN reads 1, with a reserved bit, or with an address outside the grid; EN trains the ports
whose peers lie in the grid (R440). -/
def execFabcfg (v : BitVec 32) (s0 : State) : Out :=
  let s := { s0 with free := s0.free + 1 }
  if !s.hostOpen then .next s else
  let w := v.toNat
  let a := bitsOf w 31 24
  if s.fabEn ∨ bitsOf w 15 1 ≠ 0 ∨ bitsOf w 23 20 < a / 16 ∨ bitsOf w 19 16 < a % 16 then .next s
  else .next ((List.range 32).foldl (fun s p => s.portTry p) { s with fabcfg := v })

/-- ADMDN of PORTCTL: the port leaves service; cleared, it trains (R442, R443). -/
def execPortctlAdmdn (p : Nat) (v : Bool) (s0 : State) : Out :=
  let s := { s0 with free := s0.free + 1 }
  if !s.hostOpen then .next s else
  if 32 ≤ p ∨ (s.port p).admdn = v then .next s
  else
    -- a port whose logical port a spare serves stays ADMIN
    let st := if v ∨ (s.serves? p).isNone ∧ p < 30 then 4 else 0
    let s := (s.portLeaves p 0 st).modPort p (fun y => { y with admdn := v, txst := 0, rxst := 0, exch := 0, tries := 0 })
    .next (if v then s else s.portTry p)

/-- RETRAIN of PORTCTL: a port that is not in ADMIN leaves service and trains (R442, R443). -/
def execPortctlRetrain (p : Nat) (s0 : State) : Out :=
  let s := { s0 with free := s0.free + 1 }
  if !s.hostOpen then .next s else
  if 32 ≤ p ∨ (s.port p).st = 4 then .next s
  else .next (((s.portLeaves p 0 0).modPort p (fun y => { y with tries := 0 })).portTry p)

/-- MAPV and LPORT of PORTCTL on a spare: it takes over a logical port, whose own port is held as ADMIN; cleared, that port trains
again (R442). Ignored for a logical port that the other spare serves. -/
def execPortctlMapv (p : Nat) (v : Bool) (lport : Nat) (s0 : State) : Out :=
  let s := { s0 with free := s0.free + 1 }
  if !s.hostOpen then .next s else
  let x := s.port p
  let lport := lport % 32
  if p < 30 ∨ 32 ≤ p ∨ (x.mapv = v ∧ x.lport = lport) ∨ (v ∧ (30 ≤ lport ∨ (s.port (61 - p)).mapv ∧ (s.port (61 - p)).lport = lport)) then .next s
  else
    -- the logical port it served goes back to its own physical port
    let s := if x.mapv then
        let s := (s.portLeaves p 0 (if x.admdn then 4 else 0)).modPort p (fun y => { y with mapv := false, lport := 0, txst := 0, rxst := 0, exch := 0 })
        (s.modPort x.lport (fun y => { y with st := if y.admdn then 4 else 0 })).portTry x.lport
      else s
    if v then
      let s := (s.portLeaves lport 0 4).modPort lport (fun y => { y with txst := 0, rxst := 0, exch := 0 })
      .next ((s.modPort p (fun y => { y with mapv := true, lport := lport, tries := 0 })).portTry p)
    else .next (s.modPort p (fun y => { y with lport := lport }))

end Sys2Proof.Machine
end

