-- ==== Sys2Proof/Machine/Context.lean ====
section
/-!
DEFINITION. Context.lean: pre-emption of a context, restore, and eviction of parked harvest state
(spec 21 R365 to R369, R379; 12 R253, R265, R271; 11 R246).
-/

namespace Sys2Proof.Machine

open Sys2Proof

/-! ## Pre-emption (R367, R369, R253) -/

/-- Every block of the context is saved: its launches read SUSPENDED and its tasks are in the spill area (R253, R265, R378). (log 38, DEDUCED) -/
def State.suspend (s : State) (ctx : Nat) : State :=
  if s.blocks.any (fun (b : Block) => b.ctx == ctx && (b.place == 0 || b.place == 2)) then s
  else
    let s := s.writeTasks ctx
    (s.launches.filter (fun (l : Launch) => l.ctx == ctx && l.st == 2 && decide (l.retired < l.nblocks))).foldl (fun s l => s.setLaunch l.id 6) s

/-- The driver pre-empts a context: every crew of it stops, and nothing of it issues until it is restored (R367). -/
def execContextPreempt (ctx : Nat) (s0 : State) : Out :=
  let s := { s0 with free := s0.free + 1 }
  let x := s.ctxSt ctx
  if !(s.ctxDesc ctx).valid ∨ x.dead ∨ x.stopped then .next s
  else
    let res := s.blocks.filter (fun (b : Block) => b.ctx == ctx && b.place == 0)
    let s := res.foldl (fun s b => (s.crewsOf b.id).foldl (fun s (c : Crew) => s.haltCrew c.id) s) s
    .next ((s.setCtxSt { s.ctxSt ctx with stopped := true }).suspend ctx)

/-- A parked block leaves the boathouse for its image: its windows are given back (R217, R271). -/
def State.unpark (s : State) (b : Block) : State :=
  let s := (s.crewsOf b.id).foldl (fun s (c : Crew) => c.gates.foldl (fun s (g : GateRec) => s.freeUnits c.core g.unit g.units) s) s
  let s := s.modBlock b.id (fun q => { q with place := 1, since := s.cycle })
  s.modCore b.core (fun k => { k with parked := s.blocks.any (fun (q : Block) => q.core == b.core && q.place == 2) })

/-- The image of one virtual core of a stopped context is complete: its blocks leave their core (R246, R369). (log 38, DEDUCED) -/
def execContextImageComplete (ctx vcore : Nat) (s0 : State) : Out :=
  let s := { s0 with free := s0.free + 1 }
  let bs := s.blocks.filter (fun (b : Block) => b.ctx == ctx && b.vcore == vcore && (b.place == 0 || b.place == 2))
  if !(s.ctxSt ctx).stopped ∨ bs.isEmpty ∨ s.ops.any (fun (o : Op) => o.ctx == ctx && s.awaited o) ∨ s.areaWaits ctx then .next s
  else
    let s := (bs.foldl (fun s (b : Block) => if b.place = 2 then s.unpark b else s.leaveCore b.id 1) s).release
    .next ((s.toImages (bs.map (fun b => b.id))).suspend ctx)

/-! ## Restore (R379, R380) -/

/-- A saved block takes its place on a core, its memory and units at their old offsets; none where it does not fit (R379). -/
def State.restoreBlock (s : State) (b : Block) (core : Nat) (quads : List Nat) : Option State :=
  match s.launch? b.launch with
  | none => none
  | some l =>
    let ld := s.coreLoad core 0 (fun _ => true)
    let lent := s.bmLimit - s.lentBytes core
    let inside := if b.harv then (s.core core).lending && (s.core core).revoke == 0 && decide (lent ≤ b.bmOff) && decide (b.bmOff + b.bmLen ≤ s.bmLimit)
      else decide (b.bmOff + b.bmLen ≤ s.ownerTop core l)
    let ok := s.coreUp core && inside && decide (ld.total + b.bmLen + 256 ≤ s.bmLimit) && (arrHole ((b.bmOff, b.bmLen) :: ld.used) 0 s.bmLimit).isSome &&
      ld.used.all (fun u => decide (b.bmOff + b.bmLen ≤ u.1) || decide (u.1 + u.2 ≤ b.bmOff) || b.bmLen == 0 || u.2 == 0) &&
      (s.coreUnits b).all (fun u => s.unitFree core u) && s.vcoreOk b.ctx b.vcore core &&
      windowsFit (s.core core).gateUse (s.crewsOf b.id) && s.mateCoreOk b core && s.opsFit b.id core
    if !ok ∨ quads.length ≠ l.crews then none
    else (seatCrews l.regs quads ld.quads).map (fun seats => (s.loadImage b).enterCore b.id core b.bmOff seats)

/-- A saved block, the core that the stakeboat has chosen for its virtual core, and the quads of its crews. -/
def restorePlan (cores : List (Nat × Nat)) : List Block → List Nat → List (Block × Nat × List Nat)
  | [], _ => []
  | b :: bs, quads =>
    match cores.find? (fun p => p.1 == b.vcore) with
    | none => restorePlan cores bs quads
    | some p => (b, p.2, quads.take b.ncrews) :: restorePlan cores bs (quads.drop b.ncrews)
/-- Blocks restored one after the other; none where one does not fit. (log 38, DEDUCED) -/
def State.restoreAll : List (Block × Nat × List Nat) → State → Option State
  | [], s => some s
  | p :: ps, s => (s.restoreBlock p.1 p.2.1 p.2.2).bind (State.restoreAll ps)
/-- Blocks of B and H launches restored as they fit; the others wait as switched-out ones do (R255, R265). -/
def State.restoreSome (ps : List (Block × Nat × List Nat)) (s : State) : State :=
  ps.foldl (fun s p => (s.restoreBlock p.1 p.2.1 p.2.2).getD s) s

/-- A core as it would be after a revocation: no harvest block, lending off (R270). -/
def State.withoutHarvest (s : State) (core : Nat) : State :=
  { s with blocks := s.blocks.filter (fun b => !(b.core == core && b.harv && b.place == 0)) }.modCore core (fun k => { k with lending := false })

/-- Every saved block of a gang has a core of the plan and fits, and there is room for its blocks that have still to be placed (R253, R265). -/
def State.restoreGang (s : State) (l : Launch) (plan : List (Block × Nat × List Nat)) : Option State :=
  let mine := plan.filter (fun p => p.1.launch == l.id)
  if s.blocks.any (fun b => b.launch == l.id && b.place == 1 && !mine.any (fun p => p.1.id == b.id)) || s.gangWaiting then none
  else (State.restoreAll mine s).bind (fun t => if l.unplaced ≤ t.capNow l then some t else none)
/-- A SUSPENDED launch reads ADMITTED again (R253); `g`: its crews wait until all its blocks are resident (R265). -/
def State.readmit (s : State) (l : Launch) (g : Bool) : State :=
  ({ s with order := s.order + 1 }.modLaunch l.id (fun k => { k with admitOrd := s.order, gang := g, late := k.late || s.expired k })).setLaunch l.id 2

/-- The driver restores a context: its tasks return to the marshal, its B and H launches are ADMITTED and their blocks take the cores
that the stakeboat chooses (virtual core, core) where they fit; a Q launch is ADMITTED once all of it can be placed, its saved blocks
before any crew issues (R253, R265, R379). What has to wait is tried again, owner blocks that would fit without the harvest demanding
their cores (R269). (log 38, DEDUCED) -/
def execContextRestore (ctx : Nat) (cores : List (Nat × Nat)) (quads : List Nat) (s0 : State) : Out :=
  let s := { s0 with free := s0.free + 1 }
  let mine := s.blocks.filter (fun (b : Block) => b.ctx == ctx && b.place == 1)
  let susp := s.launches.filter (fun (l : Launch) => l.ctx == ctx && l.st == 6)
  let stopped := (s.ctxSt ctx).stopped
  if (!stopped ∧ susp.isEmpty) ∨ s.mgmt.ps ≠ 0#2 ∨ (stopped ∧ s.blocks.any (fun (b : Block) => b.ctx == ctx && (b.place == 0 || b.place == 2))) then .next s
  else
    let plan := restorePlan cores mine quads
    let s := if !stopped then s
      else
        let t := s.release.loadTasks ctx
        t.setCtxSt { t.ctxSt ctx with stopped := false }
    let gangs := susp.filter (fun l => l.cls == 0)
    let s := gangs.foldl (fun s l => match s.restoreGang l plan with
      | some t => t.readmit l true
      | none =>
        let ks := ((plan.filter (fun p => p.1.launch == l.id)).map (fun p => p.2.1)).filter (fun k => (s.core k).lending)
        if ks.isEmpty ∨ ((ks.foldl State.withoutHarvest s).restoreGang l plan).isNone then s
        else ks.foldl (fun s k => s.modCore k (fun c => { c with revoke := max 1 c.revoke })) s) s
    let s := (susp.filter (fun l => l.cls ≠ 0)).foldl (fun s l => s.readmit l false) s
    let s := State.restoreSome (plan.filter (fun p => !gangs.any (fun l => l.id == p.1.launch))) s
    .next (if s.launches.any (fun l => l.ctx == ctx && l.st == 6) then { s with inputs := s.inputs ++ [.contextRestore ctx cores quads] } else s)

/-- The driver evicts a parked harvest block to the context image, once its operations allow a stop; it resumes as pre-empted state
(R271, R367). -/
def execHarvestEvict (blk : Nat) (s0 : State) : Out :=
  let s := { s0 with free := s0.free + 1 }
  match s.block? blk with
  | none => .next s
  | some b =>
    if b.place ≠ 2 then .next s
    else if !s.leavable blk then .next { s.modBlock blk (fun q => { q with evicting := true }) with inputs := s.inputs ++ [.harvestEvict blk] }
    else if s.areaWaits b.ctx then .next s
    else
      let s := s.release.unpark b
      let s := s.modBlock blk (fun q => { q with evicted := true, evicting := false })
      .next (s.toImages [blk])

end Sys2Proof.Machine
end

