-- ==== Sys2Proof/Machine/Crypto.lean ====
section
/-!
DEFINITION. Crypto.lean: the algorithms of spec 24 R424 whose results the specification makes visible: SHAKE256 with its 64-byte
output, and the verification of padded Falcon-1024 signatures. The specification names them and gives their sizes; their
steps are those of FIPS 202 and of the Falcon specification (log 43, PRESUMED).
-/

namespace Sys2Proof.Machine

open Sys2Proof

/-! ## SHAKE256 -/

/-- The round constants of Keccak-f[1600]. -/
def keccakRounds : List DWord :=
  [0x0000000000000001#64, 0x0000000000008082#64, 0x800000000000808A#64, 0x8000000080008000#64, 0x000000000000808B#64,
   0x0000000080000001#64, 0x8000000080008081#64, 0x8000000000008009#64, 0x000000000000008A#64, 0x0000000000000088#64,
   0x0000000080008009#64, 0x000000008000000A#64, 0x000000008000808B#64, 0x800000000000008B#64, 0x8000000000008089#64,
   0x8000000000008003#64, 0x8000000000008002#64, 0x8000000000000080#64, 0x000000000000800A#64, 0x800000008000000A#64,
   0x8000000080008081#64, 0x8000000000008080#64, 0x0000000080000001#64, 0x8000000080008008#64]
/-- The rotation of lane x + 5y. -/
def keccakTurns : List Nat :=
  [0, 1, 62, 28, 27, 36, 44, 6, 55, 20, 3, 10, 43, 25, 39, 41, 45, 15, 21, 8, 18, 2, 61, 56, 14]
/-- One round over the 25 lanes, lane x + 5y. -/
def keccakRound (a : List DWord) (rc : DWord) : List DWord :=
  let g := fun (l : List DWord) (i : Nat) => l.getD i 0#64
  let c := (List.range 5).map (fun x => g a x ^^^ g a (x + 5) ^^^ g a (x + 10) ^^^ g a (x + 15) ^^^ g a (x + 20))
  let d := (List.range 5).map (fun x => g c ((x + 4) % 5) ^^^ (g c ((x + 1) % 5)).rotateLeft 1)
  let t := (List.range 25).map (fun i => (g a i ^^^ g d (i % 5)).rotateLeft (keccakTurns.getD i 0))
  let b := (List.range 25).map (fun i => g t ((i % 5 + 3 * (i / 5)) % 5 + 5 * (i % 5)))
  let e := (List.range 25).map (fun i =>
    g b i ^^^ (~~~(g b ((i + 1) % 5 + 5 * (i / 5))) &&& g b ((i + 2) % 5 + 5 * (i / 5))))
  e.set 0 (g e 0 ^^^ rc)
/-- The permutation. -/
def keccak (a : List DWord) : List DWord := keccakRounds.foldl keccakRound a
/-- Rate of SHAKE256 in bytes. -/
def shakeRate : Nat := 136
/-- Blocks of the rate absorbed, at most k of them. -/
def shakeAbsorb : Nat → List DWord → List Byte → List DWord
  | 0, a, _ => a
  | k + 1, a, bs =>
    if bs = [] then a
    else
      let block := (List.range 17).map (fun i => BitVec.ofNat 64 (leNat ((bs.drop (8 * i)).take 8)))
      shakeAbsorb k (keccak ((List.range 25).map (fun i => a.getD i 0#64 ^^^ block.getD i 0#64))) (bs.drop shakeRate)
/-- The state after a message with its padding. -/
def shakeState (bs : List Byte) : List DWord :=
  let n := bs.length / shakeRate + 1
  let pad := n * shakeRate - bs.length
  let tail := if pad = 1 then [0x9F#8] else 0x1F#8 :: List.replicate (pad - 2) 0#8 ++ [0x80#8]
  shakeAbsorb n (List.replicate 25 0#64) (bs ++ tail)
/-- k blocks of output. -/
def shakeSqueeze : Nat → List DWord → List Byte
  | 0, _ => []
  | k + 1, a => (a.take 17).flatMap (fun w => leBytes 8 w.toNat) ++ shakeSqueeze k (keccak a)
/-- SHAKE256 with the 64-byte output of R424. (log 43, PRESUMED) -/
def shake256 (bs : List Byte) : List Byte := (shakeSqueeze 1 (shakeState bs)).take 64

/-! ## Falcon-1024 -/

/-- The modulus and the degree of Falcon-1024. -/
def falconQ : Nat := 12289
/-- The degree. -/
def falconN : Nat := 1024
/-- The bits of bytes, the most significant first. -/
def bitsBig (bs : List Byte) : List Bool := bs.flatMap (fun b => (List.range 8).map (fun i => b.getLsbD (7 - i)))
/-- The number whose bits these are, the most significant first. -/
def natBig (bs : List Bool) : Nat := bs.foldl (fun n b => 2 * n + b.toNat) 0
/-- The coefficients of a public key, 14 bits each; none when one is not below the modulus. -/
def falconKey (key : List Byte) : Option (List Nat) :=
  let bits := bitsBig (key.drop 1)
  let cs := (List.range falconN).map (fun i => natBig ((bits.drop (14 * i)).take 14))
  if key.length = 1793 ∧ key.headD 0#8 = 0x0A#8 ∧ cs.all (fun c => decide (c < falconQ)) then some cs else none
/-- A compressed high part: zeros before a one, and the bits after it. -/
def falconHigh : List Bool → Nat → Option (Nat × List Bool)
  | [], _ => none
  | true :: r, k => some (k, r)
  | false :: r, k => falconHigh r (k + 1)
/-- n compressed coefficients: a sign, seven low bits, the high part; what follows them is zero. -/
def falconSmall : Nat → List Bool → Option (List Int)
  | 0, bits => if bits.any (fun b => b) then none else some []
  | n + 1, bits =>
    if bits.length < 9 then none
    else
      match falconHigh (bits.drop 8) 0 with
      | none => none
      | some (high, rest) =>
        let m := natBig ((bits.drop 1).take 7) + 128 * high
        let neg := bits.headD false
        if 2047 < m ∨ (neg ∧ m = 0) then none
        else (falconSmall n rest).map (fun r => (if neg then -(m : Int) else (m : Int)) :: r)
/-- The point that a nonce and a message hash to: 16-bit values below 5q, each modulo q. -/
def falconPoint (bs : List Byte) : List Nat :=
  let out := shakeSqueeze 64 (shakeState bs)
  (((List.range 4352).map (fun i => natBig (bitsBig ((out.drop (2 * i)).take 2)))).filter (fun t => decide (t < 5 * falconQ))).take falconN
    |>.map (fun t => t % falconQ)
/-- Times x modulo x^n + 1. -/
def negShift (h : List Int) : List Int := (-(h.getLastD 0)) :: h.dropLast
/-- The product of two polynomials modulo x^n + 1. -/
def negMul (a h : List Int) : List Int :=
  (a.foldl (fun (p : List Int × List Int) c => ((p.1.zip p.2).map (fun t => t.1 + c * t.2), negShift p.2)) (List.replicate h.length 0, h)).1
/-- The representative of a residue nearest to zero. -/
def centred (x : Int) : Int := let r := x % (falconQ : Int); if (falconQ : Int) < 2 * r then r - falconQ else r
/-- The squared norm is within the bound of Falcon-1024. -/
def falconShort (v : List Int) : Bool := decide (v.foldl (fun n x => n + x * x) 0 ≤ 70265242)
/-- Verification of a padded Falcon-1024 signature of a message (R424). (log 43, PRESUMED) -/
def falconVerify (key msg sig : List Byte) : Bool :=
  match falconKey key, falconSmall falconN (bitsBig (sig.drop 41)) with
  | some h, some s2 =>
    let c := falconPoint ((sig.drop 1).take 40 ++ msg)
    let prod := negMul s2 (h.map (fun n => (n : Int)))
    let s1 := (c.zip prod).map (fun p => centred ((p.1 : Int) - p.2))
    sig.length == 1280 && sig.headD 0#8 == 0x3A#8 && falconShort (s1 ++ s2)
  | _, _ => false

end Sys2Proof.Machine
end

