-- ==== Sys2Proof/Machine/Host.lean ====
section
/-!
DEFINITION. Host.lean: what the host and the outside world do to the package: fault responses, BAR2, MSI-X, address groups, the
stages of bring-up, power states, the clock, errors of memories and links
(spec 21 R391; 22 R408; 23 R409 to R423; 25 R446 to R454).
-/

namespace Sys2Proof.Machine

open Sys2Proof

/-- The state an outcome leads to; an event's outcome is always a next state. -/
def after (o : Out) (s : State) : State := match o with
  | .next t => t
  | .fault _ => s
  | .refused _ => s

/-! ## Fault responses (R391, R417) -/

/-- What a fault record names: a stalled crew, a paused operation or slice, a launch held on a completion write. -/
inductive FaultAgent where
  | crew (id : Nat)
  | op (id slice : Nat)
  | launch (id : Nat)
deriving DecidableEq, Repr

/-- The agent that posted record `seq` of a queue: that of context `owner`, or that of domain `owner` as callee (R391, R417). -/
def State.faultAgent (s : State) (dom : Bool) (owner seq : Nat) : Option FaultAgent :=
  if dom ∧ owner = 0 then none
  else
    match s.crews.find? (fun (c : Crew) => (dom || c.ctx == owner) && c.stall.any (fun (x : Stall) =>
        x.seq == some seq && x.queue == if dom then owner else 0)) with
    | some c => some (.crew c.id)
    | none =>
      match s.ops.find? (fun (o : Op) => (if dom then o.dom == some owner else o.dom.isNone && o.ctx == owner) &&
          o.pause.any (fun p => p.2 == some seq)) with
      | some o => some (.op o.id (((o.pause.find? (fun p => p.2 == some seq)).map (fun p => p.1)).getD 0))
      | none =>
        (s.launches.find? (fun (l : Launch) => !dom && l.ctx == owner && l.hold == some (some seq))).map (fun l => .launch l.id)

/-- The context that a record's agent belongs to. -/
def State.agentCtx (s : State) : FaultAgent → Option Nat
  | .crew id => (s.crew? id).map (fun c => c.ctx)
  | .op id _ => (s.op? id).map (fun o => o.ctx)
  | .launch id => (s.launch? id).map (fun l => l.ctx)

/-- RESUME (R366, R391, R261): a crew's running slots go back to their region entries, after STEP they stay; a crew that is saved,
parked or stopped does so when it goes on, and the answer is written to its image (R380); an operation goes on at its boundary; a
launch makes its write again. -/
def State.resumeAgent (s : State) : FaultAgent → State
  | .crew id =>
    s.atImage (((s.crew? id).map (fun c => c.blk)).getD 0) (fun s => s.modCrew id (fun c =>
      let step := c.stall.any (fun (x : Stall) => x.step)
      let here := (s.block? c.blk).any (fun b => b.place == 0 && !(b.harv && (s.core b.core).revoke ≠ 0)) && !(s.ctxSt c.ctx).stopped
      if here then { resumeCrew c step with stall := none } else { c with stall := none, cont := step }))
  | .op id slice => s.modOp id (fun o => { o with pause := o.pause.filter (fun p => p.1 ≠ slice) })
  | .launch id => s.modLaunch id (fun l => { l with hold := none })

/-- DECLINE (R391, R218, R261): a callee is unwound, an operation or slice retires with XLATE, a completion write is left out;
a crew outside a callee's level ends its context. -/
def State.declineAgent (s : State) : FaultAgent → State
  | .crew id =>
    match s.crew? id with
    | none => s
    | some c => if c.callee then s.atImage c.blk (fun s => s.unwind id c.gates.length 3 ((c.stall.map (fun x => x.cause)).getD 0)) else s.terminate c.ctx
  | .op id slice =>
    match s.op? id with
    | none => s
    | some o => s.atImage o.blk (fun s =>
      if o.cls = 2 then
        let s := sliceEnd s o slice 3
        match s.op? id with
        | some o => s.retireTask o
        | none => s
      else s.failOp ((s.op? id).getD o) 3)
  | .launch id => s.modLaunch id (fun l => { l with hold := none, writes := l.writes.drop 1 })

/-- FRESP with ACT RESUME (R391, R417). -/
def execFrespResume (dom : Bool) (owner seq : Nat) (s0 : State) : Out :=
  let s := { s0 with free := s0.free + 1 }
  if !s.hostOpen then .next s else
  match s.faultAgent dom owner seq with
  | none => .next s
  | some a => .next (s.resumeAgent a)

/-- FRESP with ACT DECLINE (R391, R417). -/
def execFrespDecline (dom : Bool) (owner seq : Nat) (s0 : State) : Out :=
  let s := { s0 with free := s0.free + 1 }
  if !s.hostOpen then .next s else
  match s.faultAgent dom owner seq with
  | none => .next s
  | some a => .next (s.declineAgent a)

/-- FRESP with ACT TERMINATE (R391, R417). -/
def execFrespTerminate (dom : Bool) (owner seq : Nat) (s0 : State) : Out :=
  let s := { s0 with free := s0.free + 1 }
  if !s.hostOpen then .next s else
  match s.faultAgent dom owner seq with
  | none => .next s
  | some a =>
    match s.agentCtx a with
    | none => .next s
    | some c => .next (s.terminate c)

/-! ## BAR2 (R409, R431, R447) -/

/-- The frame of an address is owned by a sealed key-domain (R431). -/
def State.sealedFrame (s : State) (pa : Nat) : Bool := s.ownerOf pa ≠ 0 && (s.kd (s.ownerOf pa)).st == 2
/-- The context has resident or saved blocks (R363). -/
def State.hasBlocks (s : State) (c : Nat) : Bool := s.blocks.any (fun (b : Block) => b.ctx == c && b.place ≠ 3)

/-- What a host write leaves in a byte: nothing of it in sealed frames and in the descriptor or domain entry of a sealed context
(R431); of a descriptor with blocks only MSIE, MSIV, BRKSYS and STEPEN (R363). (log 31, DEDUCED) -/
def State.hostByte (s : State) (pa : Nat) (new : Byte) : Byte :=
  let old := s.mem.get pa
  let off := (pa - s.mgmt.ctxtab.toNat) % 64
  if s.sealedFrame pa || s.sealedEntry pa then old
  else if (s.descOf pa).any s.hasBlocks then
    let keep := fun (m : Byte) => (old &&& ~~~m) ||| (new &&& m)
    match off with
    | 3 => keep 0x06#8
    | 28 => new
    | 29 => keep 0x07#8
    | 31 => keep 0x80#8
    | _ => old
  else new

/-- A terminated context is registered again by a descriptor written with V = 0 and then with V = 1 (R276, R363). -/
def State.descWritten (s : State) : State :=
  { s with ctxs := s.ctxs.map (fun (x : CtxSt) =>
      if !x.dead then x
      else if !bitOf (leNat (s.readPa (s.mgmt.ctxtab.toNat + 64 * x.num) 4)) 31 then { x with sawV0 := true }
      else if x.sawV0 then { x with dead := false, sawV0 := false, tvecSet := false, stopped := false, desc := [] }
      else x) }

/-- The lines that a write covers whole. -/
def fullLines (pa n : Nat) : List Nat :=
  (List.range ((n + 63) / 64 + 1)).filterMap (fun i =>
    let l := pa / 64 + i
    if pa ≤ 64 * l ∧ 64 * l + 64 ≤ pa + n then some (64 * l) else none)

/-- A host write of HBM, under key-domain 0: the bytes it may change, poison cleared on the lines it covers whole. -/
def State.hostWrite (s : State) (pa : Nat) (bs : List Byte) : State :=
  if s.paReady pa = .dead then s
  else
    let plain := (List.range bs.length).all (fun i => !s.sealedFrame (pa + i))
    let new := (bs.zip (List.range bs.length)).map (fun p => s.hostByte (pa + p.2) p.1)
    let s1 := if plain then s.writePa pa new
      else (new.zip (List.range bs.length)).foldl (fun (t : State) p => if s.sealedFrame (pa + p.2) then t else t.writePa (pa + p.2) [p.1]) s
    ((fullLines pa bs.length).foldl (fun (t : State) l => if s.sealedFrame l then t else t.clearPoison l) s1).descWritten

/-- Bytes of a host read: zero in sealed frames; those of poisoned lines and of a stack that failed are open. (log 7, DESIGN CHOICE) -/
def State.hostRead (s : State) (pa n : Nat) : List Byte :=
  (List.range n).map (fun i =>
    let a := pa + i
    if s.sealedFrame a then 0#8
    else if s.poisoned a 1 || s.paReady a == .dead then BitVec.ofNat 8 (Config.free s.free [40, a])
    else (s.readPa a 1).getD 0 0#8)

/-- A host access through BAR2 has to wait for its stack (R422). (log 31, DEDUCED) -/
def State.barWaits (s : State) (off n : Nat) : Bool :=
  let pa := s.mgmt.mwap.toNat + off
  s.hostOpen && (List.range (n / 64 + 1)).any (fun i => s.paReady (pa + min (64 * i) (n - 1)) == .wait)

/-- A host write through BAR2, at most one payload of 512 bytes (R409). One that has to wait stays the first input. (log 31, DEDUCED) -/
def execBar2Write (off : Nat) (data : List (BitVec 8)) (s0 : State) : Out :=
  let s := { s0 with free := s0.free + 1 }
  if !s.hostOpen ∨ data.length = 0 ∨ 512 < data.length ∨ 2 ^ 36 < off + data.length then .next s
  else if s.barWaits off data.length then .next { s with inputs := .bar2Write off data :: s.inputs }
  else .next (s.hostWrite (s.mgmt.mwap.toNat + off) data)

/-- A host read through BAR2, at most 4096 bytes (R409). One that has to wait stays the first input. (log 31, DEDUCED) -/
def execBar2Read (off len : Nat) (s0 : State) : Out :=
  let s := { s0 with free := s0.free + 1 }
  if !s.hostOpen ∨ len = 0 ∨ 4096 < len ∨ 2 ^ 36 < off + len then .next s
  else if s.barWaits off len then .next { s with inputs := .bar2Read off len :: s.inputs }
  else .next { s with mgmt := { s.mgmt with readData := s.mgmt.readData ++ [s.hostRead (s.mgmt.mwap.toNat + off) len] } }

/-! ## MSI-X (R409, R420) -/

/-- A host write that unmasks an entry: the message held pending for it is sent (R420). (log 32, PRESUMED) -/
def execMsixVectorUnmask (v : Nat) (s0 : State) : Out :=
  let s := { s0 with free := s0.free + 1 }
  if !s.hostOpen ∨ 2048 ≤ v then .next s
  else
    let held := s.mgmt.msixPending.contains v
    let s := { s with mgmt := { s.mgmt with
      msixOpen := if s.mgmt.msixOpen.contains v then s.mgmt.msixOpen else s.mgmt.msixOpen ++ [v],
      msixPending := s.mgmt.msixPending.filter (fun x => x ≠ v) } }
    .next (if held then s.postMsix v else s)

/-- A word written to the MSI-X table: address and data, or the mask bit (R409, R420). -/
def State.msixWrite (s : State) (off : Nat) (v : Word) : State :=
  if 32768 ≤ off ∨ off % 4 ≠ 0 then s
  else if off % 16 ≠ 12 then { s with mgmt := { s.mgmt with msix := s.mgmt.msix.write off (leBytes 4 v.toNat) } }
  else if v.getLsbD 0 then { s with mgmt := { s.mgmt with msixOpen := s.mgmt.msixOpen.filter (fun x => x ≠ off / 16) } }
  else after (execMsixVectorUnmask (off / 16) s) s

/-! ## Address groups (R288) -/

/-- The number of packages that a member set names. -/
def membCount (m : BitVec 256) : Nat := ((List.range 256).filter (fun i => m.getLsbD i)).length
/-- The entry may be valid (R288). -/
def State.groupOk (s : State) (x : Group) : Bool :=
  x.rsv == 0#16 && membCount x.memb == x.nm1 + 1 && x.memb.getLsbD x.root && x.memb.getLsbD s.own &&
    (List.range 256).all (fun i => !x.memb.getLsbD i || s.inGrid i)
/-- Word w of an entry written. (log 31, DEDUCED) -/
def groupWord (x : Group) (w : Nat) (v : Word) : Group :=
  let rsv := fun (bad : Bool) => if bad then x.rsv ||| (1#16 <<< w) else x.rsv &&& ~~~(1#16 <<< w)
  let n := v.toNat
  if w = 0 then { x with v := bitOf n 31, rhnd := bitsOf n 26 16, root := bitsOf n 15 8, nm1 := bitsOf n 7 0, rsv := rsv (bitsOf n 28 27 ≠ 0) }
  else if w = 1 then { x with ctx := bitsOf n 31 16, seq := bitsOf n 15 0 }
  else if 4 ≤ w ∧ w < 12 then
    { x with memb := (x.memb &&& ~~~(0xFFFFFFFF#256 <<< (32 * (w - 4)))) ||| (BitVec.ofNat 256 n <<< (32 * (w - 4))) }
  else { x with rsv := rsv (n ≠ 0) }

/-- A write of word w of entry g: ignored for group 0 and while the entry is active or aborting; an entry that breaks a rule
reads V = 0 (R288). (log 31, DEDUCED) -/
def execAddressGroupWrite (g w : Nat) (v : BitVec 32) (s0 : State) : Out :=
  let s := { s0 with free := s0.free + 1 }
  if !s.hostOpen ∨ g = 0 ∨ 256 ≤ g ∨ 16 ≤ w ∨ s.grpState g ≠ 0 then .next s
  else
    let x := groupWord (s.grp g) w v
    .next (s.modGroup g (fun _ => { x with v := x.v && s.groupOk x }))

/-! ## Stages of bring-up (R415, R421, R422) -/

/-- A new stage; vector 0 posts (R420). -/
def State.setStage (s : State) (n : Nat) : State :=
  if s.mgmt.stage = n then s else { s with mgmt := { s.mgmt with stage := n } }.postMsix 0

/-- Bring-up has failed with an error code (R415, R421). -/
def State.bootFail (s : State) (err : Nat) : State := { s with mgmt := { s.mgmt with err := BitVec.ofNat 8 err } }.setStage 4

/-- HBM and bank memory after their keys or their power are gone: each byte that something has written is open (R429). (log 2, DESIGN CHOICE) -/
def scramble (stamp : Nat) (m : Memory) : Memory :=
  m.foldl (fun r (p : Host.Cell) => if p.1 < 0x200000000000 then r.set p.1 (BitVec.ofNat 8 (Config.free stamp [41, p.1])) else r.set p.1 p.2) []

/-- The package at its reset values; what the outside holds stays: host and far memory, messages and data that have left, the
flash bank and the fuses (R421, R454, R455), and the model's own counters and inputs. (log 2, DESIGN CHOICE) (log 33, DESIGN CHOICE) -/
def State.toReset (s : State) : State :=
  let r := State.reset
  { r with
    free := s.free, order := s.order, inputs := s.inputs, hostStores := s.hostStores, mem := scramble s.free s.mem,
    mgmt := { r.mgmt with msixSent := s.mgmt.msixSent, readData := s.mgmt.readData },
    secp := { r.secp with flash := s.secp.flash, bank := s.secp.bank, roll := s.secp.roll } }

/-- PERST# is asserted (R421). -/
def execPerstAssert (s0 : State) : Out :=
  let s := { s0 with free := s0.free + 1 }
  .next { s.toReset with mgmt := { s.toReset.mgmt with off := s.mgmt.off } }

/-- PERST# is deasserted with power and clocks good: bring-up starts from RESET (R421). -/
def execPerstDeassert (s0 : State) : Out :=
  let s := { s0 with free := s0.free + 1 }
  .next (if s.mgmt.boot then s else { s with mgmt := { s.mgmt with boot := true, off := false } })

/-- The checks of one firmware image: its signature and digest hold, and its version is not below the fused counter (R425). -/
def fwPasses (roll : Nat) (x : Bool × Bool × Nat × List (BitVec 8)) : Bool := x.1 && x.2.1 && decide (roll ≤ x.2.2.1)

/-- A list at exactly n bytes. (log 9, DESIGN CHOICE) -/
def exactly (n : Nat) (b : List Byte) : List Byte := (b ++ List.replicate n 0#8).take n
/-- What the checks of R425 look at in the bytes of an image: whether its signature and its digest hold, its version, its digest.
(log 9, DESIGN CHOICE) -/
def fwParts (img : List Byte) : Bool × Bool × Nat × List (BitVec 8) :=
  (falconVerify (Config.identity 4 0) (Config.image 0 img) (Config.image 2 img), shake256 (Config.image 3 img) == exactly 64 (Config.image 1 img),
    leNat ((Config.image 4 img).take 8), exactly 64 (Config.image 1 img))
/-- The image with an index in a bank of the flash. -/
def Secp.imageIn (x : Secp) (bank : Bool) (i : Nat) : Option (List Byte) :=
  (x.flash.find? (fun f => f.bank == bank && f.idx == i)).map (fun f => f.bytes)
/-- Four images as a boot reads them: those that were committed to the active bank, and else those the flash came with (R455). -/
def Secp.booted (x : Secp) (imgs : List (Bool × Bool × Nat × List (BitVec 8))) : List (Bool × Bool × Nat × List (BitVec 8)) :=
  (imgs.zip (List.range 4)).map (fun p => ((x.imageIn x.bank p.2).map fwParts).getD p.1)

/-- Firmware verification ends. Each of the four images that the flash came with brings the outcome of its signature and digest, its
version and its digest, while the bytes of one that FWCOMMIT made active are checked themselves; FM takes the digests in order; a
failed image ends bring-up with ERR 1 (R421, R425, R426, R455). (log 33, DESIGN CHOICE) -/
def execFirmwareVerify (imgs : List (Bool × Bool × Nat × List (BitVec 8))) (s0 : State) : Out :=
  let s := { s0 with free := s0.free + 1 }
  let imgs := s.secp.booted imgs
  if !s.mgmt.boot ∨ s.mgmt.stage ≠ 0 ∨ imgs.length ≠ 4 then .next s
  else if (imgs.zip s.secp.roll).all (fun p => fwPasses p.2 p.1) then
    let fm := imgs.foldl (fun fm x => shake256 (fm ++ x.2.2.2)) s.secp.fm
    .next ({ s with secp := { s.secp with fm := fm } }.setStage 1)
  else .next (s.bootFail 1)

/-- D0's stacks, cores and the host link have trained, or one of them has failed (R415, R421). (log 33, DESIGN CHOICE) -/
def execSecureTrainingComplete (memOk coresOk linkOk : Bool) (s0 : State) : Out :=
  let s := { s0 with free := s0.free + 1 }
  if s.mgmt.stage ≠ 1 then .next s
  else if !memOk then .next (s.bootFail 2)
  else if !coresOk then .next (s.bootFail 3)
  else if !linkOk then .next (s.bootFail 4)
  else .next ({ s with mgmt := { s.mgmt with dieup := 1#4, stackup := 3#8, aclk := 1200#32, thrstat := 4#32 } }.setStage 2)

/-- The rest of the package has trained, with the dies, stacks and CXL ports that came up; the clock rises (R421, R422). (log 33, DESIGN CHOICE) -/
def execFullServiceTransition (dieUp : BitVec 4) (stackUp : BitVec 8) (cxlUp : BitVec 4) (s0 : State) : Out :=
  let s := { s0 with free := s0.free + 1 }
  if s.mgmt.stage ≠ 2 then .next s
  else
    let up := s.mgmt.stackup ||| (stackUp &&& ~~~s.mgmt.stackFail)
    .next ({ s with mgmt := { s.mgmt with
      dieup := s.mgmt.dieup ||| dieUp, stackup := up, stackFail := ~~~up, cxlup := cxlUp, aclk := 1900#32, thrstat := 0#32 } }.setStage 3)

/-- A stack finishes or fails training (R422). -/
def execHbmStackEntersService (stack : Nat) (ok : Bool) (s0 : State) : Out :=
  let s := { s0 with free := s0.free + 1 }
  let m := s.mgmt
  if 8 ≤ stack ∨ m.stage ≠ 2 ∨ m.stackup.getLsbD stack ∨ m.stackFail.getLsbD stack then .next s
  else
    let b := 1#8 <<< stack
    .next { s with mgmt := if ok then { m with stackup := m.stackup ||| b } else { m with stackFail := m.stackFail ||| b } }

/-! ## Power states (R423, R454) -/

/-- Every context with blocks. -/
def State.liveCtxs (s : State) : List Nat := ((s.blocks.filter (fun (b : Block) => b.place ≠ 3)).map (fun b => b.ctx)).eraseDups

/-- The driver writes PowerState D3hot: every context is pre-empted, cox contexts end, the stakeboat is held; the second event is
the one by which every image is complete, and cores, links and HBM stop (R423). (log 31, DEDUCED) -/
def execEnterD3hot (s0 : State) : Out :=
  let s := { s0 with free := s0.free + 1 }
  if s.mgmt.stage ≠ 2 ∧ s.mgmt.stage ≠ 3 then .next s
  else if s.mgmt.ps = 0#2 then
    let s := s.liveCtxs.foldl (fun s c => after (execContextPreempt c s) s) s
    let s := (List.range 32).foldl (fun s p => (List.range 8).foldl (fun s k => s.coxKill p k) s) s
    .next { s with mgmt := { s.mgmt with ps := 1#2 } }
  else if s.mgmt.ps = 1#2 ∧ !s.blocks.any (fun (b : Block) => b.place ≠ 1) ∧
      s.coxes.all (fun (c : CoxSt) => c.slots.all (fun (k : CoxSlot) => k.st == 0)) then
    let s := (List.range 32).foldl (fun s p => s.modPort p (fun y =>
      if y.st = 4 then y else { y with st := 0, txst := 0, rxst := 0, exch := 0 })) s
    .next { s.release with mgmt := { s.mgmt with ps := 2#2, cxlup := 0#4 } }
  else .next s

/-- The return to D0: the links retrain, then the package is active; nothing is restored (R423). Which CXL ports come up again in FULL
service is open. (log 31, DEDUCED) -/
def execLeaveD3hot (s0 : State) : Out :=
  let s := { s0 with free := s0.free + 1 }
  if s.mgmt.ps = 2#2 then
    .next ((List.range 32).foldl (fun s p => s.portTry p) { s with mgmt := { s.mgmt with ps := 3#2 } })
  else if s.mgmt.ps = 3#2 then
    let up := if s.mgmt.stage = 3 then s.mgmt.dieup &&& BitVec.ofNat 4 (s.pick [57] 16) else 0#4
    .next { s with mgmt := { s.mgmt with ps := 0#2, cxlup := up } }
  else .next s

/-- All state is lost (R423, R454). -/
def State.powerOff (s : State) : State := { s.toReset with mgmt := { s.toReset.mgmt with off := true } }
/-- The trip: THERMTRIP# is asserted and the dies lose power (R454). -/
def State.thermTrip (s : State) : State := { s.powerOff with mgmt := { s.powerOff.mgmt with trip := true } }
/-- A sensor reaches 110 °C: all work stops and the dies lose power (R454). -/
def execThermtrip (s0 : State) : Out := .next { s0 with free := s0.free + 1 }.thermTrip
/-- Power is removed (R423). -/
def execPowerRemoval (s0 : State) : Out := .next { s0 with free := s0.free + 1 }.powerOff

/-! ## The arithmetic clock (R452, R453) -/

/-- A sensor of a list is at or above a temperature in °C; sensors read in sixteenths (R451). -/
def anyHot (temps : List Word) (deg : Int) : Bool := temps.any (fun t => decide (deg * 16 ≤ t.toInt))

/-- The measurement of every 100 µs and the step of the clock it causes; `avg` is the average power over WIN in mW
(R451, R453). A reading of 110 °C or more trips (R454). Vector 2 posts when throttling starts or stops, at TWARN and at CAPFAIL; in
REDUCED service the registers are kept and the clock stands (R453). (log 33, DESIGN CHOICE) (log 34, DEDUCED) -/
def execClockStep (avg pkg : BitVec 32) (dies temps hbm : List (BitVec 32)) (s0 : State) : Out :=
  let s := { s0 with free := s0.free + 1 }
  let m := s.mgmt
  if m.off ∨ !m.boot ∨ dies.length ≠ 4 ∨ temps.length ≠ 4 ∨ hbm.length ≠ 8 then .next s
  else if anyHot (temps ++ hbm) 110 then .next s.thermTrip
  else if m.stage ≠ 3 ∨ m.ps = 2#2 then
    let s := { s with mgmt := { m with pkgpwr := pkg, diepwr := dies, temp := temps, hbmtemp := hbm } }
    let twarn : Int := bitsOf m.therm.toNat 7 0
    .next (if anyHot temps twarn && !anyHot m.temp twarn then s.postMsix 2 else s)
  else
    let cap := bitsOf m.pwrcap.toNat 10 0 * 1000
    let tthr : Int := bitsOf m.therm.toNat 15 8
    let twarn : Int := bitsOf m.therm.toNat 7 0
    let high := decide (cap < avg.toNat)
    let hot := anyHot temps tthr
    let low := decide (avg.toNat * 100 < cap * 97) && !anyHot temps (tthr - 3)
    let clk := m.aclk.toNat
    let clk' := if high || hot then (if 650 ≤ clk then clk - 50 else 600) else if low then min 1900 (clk + 50) else clk
    let fail := clk' == 600 && high
    let old := m.thrstat.toNat
    let bit0 := decide (clk' < 1900) && (high || bitOf old 0)
    let bit1 := decide (clk' < 1900) && (hot || bitOf old 1)
    let m' := { m with
      pkgpwr := pkg, diepwr := dies, temp := temps, hbmtemp := hbm, aclk := BitVec.ofNat 32 clk',
      thrstat := BitVec.ofNat 32 (bit0.toNat + bit1.toNat * 2 + fail.toNat * 8) }
    let s := { s with mgmt := m' }
    let s := if bit1 && !bitOf old 1 then s.rasLog 8 0 0 0 else s
    let newFail := fail && !bitOf old 3
    let s := if newFail then s.rasLog 9 0 0 0 else s
    let s := if decide (clk = 1900) ≠ decide (clk' = 1900) then s.postMsix 2 else s
    let s := if anyHot temps twarn && !anyHot m.temp twarn then s.postMsix 2 else s
    .next (if newFail then s.postMsix 2 else s)

/-! ## Errors of memories and links (R408, R446 to R450) -/

/-- A corrected error is counted and logged; vector 1 posts when the counter crosses a multiple of RASTHR (R449, R450). -/
def State.corrected (s : State) (hbm : Bool) (unit addr : Nat) : State :=
  let n := satInc (if hbm then s.ras.cehbm else s.ras.cesram)
  let s := { s with ras := if hbm then { s.ras with cehbm := n } else { s.ras with cesram := n } }.rasLog (if hbm then 3 else 1) unit addr 0
  if s.ras.thr ≠ 0#32 ∧ n.toNat % s.ras.thr.toNat = 0 then s.postMsix 1 else s
/-- The L2 holds the lines of an address: any but those that do not exist. -/
def State.cached (s : State) (pa : Nat) : Bool := match s.paKind pa with
  | .none => false
  | _ => true

/-- Every HBM line is read by the patrol scrub: clean, corrected (1) or uncorrectable (2), which poisons it. The same event brings the other
errors of memories that the outside may bring: of an L2 line, corrected (3) or uncorrectable (4), which poisons the line too, and a
corrected one in on-core state of the core that the number names (5) (R447, R449, R450). (log 33, DESIGN CHOICE) (log 36, DESIGN CHOICE) -/
def execPatrolScrub (line kind : Nat) (s0 : State) : Out :=
  let s := { s0 with free := s0.free + 1 }
  let pa := 64 * line
  let st := bitsOf pa 38 36
  let unit := st / 2 * 64 + st * 256
  if kind = 3 ∨ kind = 4 then
    let l2 := s.homeDie pa * 64
    if !s.cached pa then .next s
    else if kind = 3 then .next (s.corrected false l2 pa)
    else .next (({ s with ras := { s.ras with uesram := satInc s.ras.uesram } }.setPoison pa).rasLog 2 l2 pa 0)
  else if kind = 5 then
    .next (if 160 ≤ line then s else s.corrected false (dieOfCore line * 64 + line / 4 % 10 * 4 + line % 4) 0)
  else if 0x8000000000 ≤ pa ∨ !s.mgmt.stackup.getLsbD st ∨ s.mgmt.ps = 2#2 then .next s
  else if kind = 1 then .next (s.corrected true unit pa)
  else if kind = 2 then
    .next (({ s with ras := { s.ras with uehbm := satInc s.ras.uehbm } }.setPoison pa).rasLog 4 unit pa 0)
  else .next s

/-- The body of the record of an uncorrectable on-core error: cause POISON, TRAPVA 0 (R390, R448). -/
def onCoreBody (c : Crew) : List Byte := crewBody c false (poisonCause 0 0#64) c.a.pc 0#96

/-- An uncorrectable error in on-core state of core `core`: when a crew or block holds the failing word its context ends, after a
crew record with cause POISON; else it is only logged (R448). While the record is held the crew stays stalled (R388). (log 18, DEDUCED) -/
def execOnCoreUncorrectable (core crew blk : Nat) (s0 : State) : Out :=
  let s := { s0 with free := s0.free + 1 }
  let unit := dieOfCore core * 64 + core / 4 % 10 * 4 + core % 4
  let owner := match s.crew? crew with
    | some c => if c.core = core then some c else none
    | none => (s.block? blk).bind (fun (b : Block) => if b.core = core ∧ (b.place = 0 ∨ b.place = 2) then (s.crewsOf blk).head? else none)
  let s := { s with ras := { s.ras with uesram := satInc s.ras.uesram } }
  match owner with
  | none => .next (s.rasLog 2 unit 0 0)
  | some c =>
    let s := (s.rasLog 2 unit 0 c.ctx).haltCrew c.id
    let h := s.mkRecord none c.ctx 0 c.ctx (crewSrc c) c.asid (c.gates.length * 2) (onCoreBody c) (some c.id) (some (c.ctx, 0))
    match s.postRecord h with
    | (s, some _) => .next (s.terminate c.ctx)
    | (s, none) => .next (s.modCrew c.id (fun c => { c with stall := some { queue := 0, seq := none, step := false, cause := 0x0D, key := none } }))

/-- A CXL port loses its link: the accepted stores it loses are counted and their bytes are open (R408, R449). (log 33, DESIGN CHOICE) -/
def execCxlLinkDown (p : Nat) (lost : List (Nat × Nat)) (s0 : State) : Out :=
  let s := { s0 with free := s0.free + 1 }
  if 4 ≤ p ∨ !s.mgmt.cxlup.getLsbD p then .next s
  else
    let s := { s with mgmt := { s.mgmt with cxlup := s.mgmt.cxlup &&& ~~~(1#4 <<< p) } }
    .next (lost.foldl (fun (s : State) x =>
      if 0 < x.2 ∧ s.paKind x.1 = .far p ∧ s.paKind (x.1 + x.2 - 1) = .far p then
        let bs := (List.range x.2).map (fun i => BitVec.ofNat 8 (Config.free s.free [42, x.1 + i]))
        { s.writePa x.1 bs with ras := { s.ras with farlost := satInc s.ras.farlost } }
      else s) s)

/-- RASCLR (R449). (log 36, DESIGN CHOICE) -/
def execRasclr (s0 : State) : Out :=
  let s := { s0 with free := s0.free + 1 }
  if !s.hostOpen then .next s
  else
    .next { s with ras := { s.ras with
      cesram := 0#64, uesram := 0#64, cehbm := 0#64, uehbm := 0#64, parfix := 0#64, pktdrop := 0#64, ptebad := 0#64,
      msidrop := 0#64, farlost := 0#64 } }

end Sys2Proof.Machine
end

