-- ==== Sys2Proof/Machine/Secp.lean ====
section
/-!
DEFINITION. Secp.lean: the security processor: its mailbox and its twelve commands (spec 24 R425 to R439; 25 R455). The payload
layouts that the specification leaves open follow its lists of fields, numbers of 4 bytes, addresses and leaves of 8 (log 24, PRESUMED).
-/

namespace Sys2Proof.Machine

open Sys2Proof

/-! ## The mailbox (R428) -/

/-- A write of SMCMD: ignored with a nonzero low byte and while a command runs (R428); reserved bits above stay 0 (R5). -/
def State.smcmd (s : State) (v : Nat) : State :=
  if v % 256 ≠ 0 ∨ s.secp.busy.isSome then s
  else { s with secp := { s.secp with busy := some (bitsOf v 51 8 * 256), cbpa := bitsOf v 51 8 * 256, result := none } }

/-- A little-endian number in a payload. (log 24, PRESUMED) -/
def fieldOf (p : List Byte) (off n : Nat) : Nat := leNat ((p.drop off).take n)

/-- A command of the block at the mailbox: its meaning on the payload gives the state, the status and the result, which is written
over the payload; a payload beyond 16 KiB is BADARG (R428), and so are nonzero bytes 15:12, which the block has as zero (R5; log 24, PRESUMED,
PRESUMED). Without such a command nothing happens. -/
def secpCommand (op : Nat) (f : State → List Byte → State × Nat × List Byte) (s0 : State) : Out :=
  let s := { s0 with free := s0.free + 1 }
  match s.secp.busy with
  | none => .next s
  | some pa =>
    if s.secp.result.isSome ∨ s.paKind pa = .none ∨ s.natPa pa 4 ≠ op then .next s
    else
      let len := s.natPa (pa + 4) 4
      let (s, st, out) := if 16384 < len ∨ s.natPa (pa + 12) 4 ≠ 0 then (s, 2, []) else f s (s.readPa (pa + 16) len)
      let s := if st = 0 ∧ out ≠ [] then s.writePa (pa + 16) out else s
      .next { s with secp := { s.secp with result := some st } }

/-- SECP ends a command: STATUS is written, BUSY clears with a release at .system, vector 4 posts; an OP that no command has is
BADOP (R428, R420). -/
def execSecpCommandComplete (s0 : State) : Out :=
  let s := { s0 with free := s0.free + 1 }
  match s.secp.busy with
  | none => .next s
  | some pa =>
    let op := s.natPa pa 4
    let bad := s.paKind pa == .none || op == 0 || decide (12 < op)
    if !bad ∧ s.secp.result.isNone then .next s
    else
      let st := if bad then 1 else s.secp.result.getD 1
      let s := if s.paKind pa = .none then s else s.writePa (pa + 8) (leBytes 4 st)
      let s := s.release
      .next ({ s with secp := { s.secp with busy := none, result := none, last := st } }.postMsix 4)

/-! ## Identity and attestation (R426, R427, R432) -/

/-- The public identity key. -/
def identityKey : List Byte := exactly 1793 (Config.identity 0 1793)
/-- IDD: SHAKE256 of the public key (R427). -/
def idd : List Byte := shake256 identityKey

/-- GETID (R427): public key, IDD and certificate. -/
def execGetid (s : State) : Out :=
  secpCommand 1 (fun s _ => (s, 0, (identityKey ++ idd ++ Config.identity 2 0).take 16384)) s

/-- XM of a context: its valid cox program regions in port and region order (R432). -/
def State.xm (s : State) (ctx : Nat) : List Byte :=
  (List.range 32).foldl (fun xm port => (List.range 8).foldl (fun xm i =>
    let r := (s.cox port).reg i
    if !bitOf r 63 ∨ bitsOf r 47 32 ≠ ctx then xm
    else
      let words := (List.range (bitsOf r 27 16 + 1)).flatMap (fun k => leBytes 8 ((s.cox port).word ((bitsOf r 11 0 + k) % 4096)).toNat)
      shake256 (xm ++ leBytes 4 port ++ leBytes 4 i ++ leBytes 4 (bitsOf r 11 0) ++ leBytes 4 (bitsOf r 27 16) ++ words))
    xm) (List.replicate 64 0#8)

/-- Bytes 343:0 of a report (R432). -/
def State.reportBody (s : State) (ctx : Nat) (nonce : List Byte) : List Byte :=
  let d := s.sealedBy ctx
  let cm := match d with
    | some d => exactly 64 (s.kd d).cm
    | none => List.replicate 64 0#8
  let (mid, ep) := match s.mpcOf ctx with
    | some m => (m.id, m.epoch)
    | none => (0, 0)
  leBytes 4 1 ++ leBytes 4 (ctx % 65536 + if d.isSome then 2 ^ 31 else 0) ++ exactly 64 nonce ++ idd ++ exactly 64 s.secp.fm ++ s.xm ctx ++
    cm ++ leBytes 8 s.clock.toNat ++ leBytes 4 mid ++ leBytes 4 ep
/-- A report with its signature by the identity key (R432). -/
def State.report (s : State) (ctx : Nat) (nonce : List Byte) : List Byte :=
  let b := s.reportBody ctx nonce
  b ++ exactly 1280 (Config.sign 0 (shake256 b) 1280)

/-- ATTEST (R432). (log 35, DEDUCED) -/
def execAttest (s : State) : Out :=
  secpCommand 2 (fun s p =>
    if p.length < 68 ∨ 65536 ≤ fieldOf p 0 4 then (s, 2, []) else (s, 0, s.report (fieldOf p 0 4) ((p.drop 4).take 64))) s

/-! ## Key-domains (R429, R431) -/

/-- The payload names a key-domain that commands may name. (log 24, PRESUMED) -/
def kdArg (p : List Byte) : Option Nat := if 4 ≤ p.length ∧ fieldOf p 0 4 ≠ 0 ∧ fieldOf p 0 4 < 256 then some (fieldOf p 0 4) else none
/-- A key-domain changed. -/
def State.setKd (s : State) (d : Nat) (k : KeyDom) : State := { s with kds := s.kds.set d k }

/-- KDOPEN (R429): a FREE key-domain gets a fresh key. (log 35, DEDUCED) -/
def execKdopen (s : State) : Out :=
  secpCommand 3 (fun s p => match kdArg p with
    | none => (s, 2, [])
    | some d =>
      if (s.kd d).st ≠ 0 then (s, 4, [])
      else ({ s with order := s.order + 1 }.setKd d { KeyDom.reset with st := 1, key := s.order }, 0, [])) s

/-- KDCLOSE (R429): an OPEN or SEALED key-domain is FREE, its key erased. -/
def execKdclose (s : State) : Out :=
  secpCommand 5 (fun s p => match kdArg p with
    | none => (s, 2, [])
    | some d => if (s.kd d).st = 0 then (s, 4, []) else (s.kdFree d, 0, [])) s

/-- The (address, length) ranges listed in a payload (R431). (log 24, PRESUMED) -/
def listRanges : Nat → List Byte → List (Nat × Nat)
  | 0, _ => []
  | n + 1, p => if p.length < 16 then [] else (fieldOf p 0 8, fieldOf p 8 8) :: listRanges n (p.drop 16)
/-- The pages of a range, as (address, length) pieces. -/
def pieces (va : Nat) : Nat → Nat → List (Nat × Nat)
  | 0, _ => []
  | k + 1, n => if n = 0 then [] else
    let m := min n (65536 - va % 65536)
    (va, m) :: pieces ((va + m) % 2 ^ 64) k (n - m)
/-- The frames that a leaf's address lies in: one, or that of each die's replica (R401, R431). -/
def leafFrames (leaf pa : Nat) : List Nat :=
  if bitOf leaf 5 then (List.range 4).map (fun d => replicaPa pa d / 2 ^ 21) else [pa / 2 ^ 21]
/-- Physical address of a VA of a domain and the frames it lies in, when its page lies in HBM. -/
def State.hbmAt (s : State) (e : DomEntry) (va : Nat) : Option (Nat × List Nat) :=
  if !canonical va then none
  else
    match s.walkFrom (s.since e.asid (some va)) 0 3 e.root va with
    | .leaf x size =>
      let pa := bitsOf x.toNat 51 16 * 65536 + va % size
      if pa < 0x8000000000 then some (pa, leafFrames x.toNat pa) else none
    | _ => none
/-- Frames that the tables of a walk lie in, level `lvl` down to 0 (R395, R431). -/
def State.tableFrames (s : State) : Nat → Nat → List Nat
  | lvl, table =>
    let entries := match lvl with
      | 3 => 2 ^ 18
      | 0 => 32
      | _ => 512
    (List.range ((entries * 8 + table % 2 ^ 21 + 2 ^ 21 - 1) / 2 ^ 21)).map (fun i => table / 2 ^ 21 + i) ++
      (match lvl with
       | 0 => []
       | l + 1 => (List.range entries).flatMap (fun i =>
           let e := s.natPa (table + 8 * i) 8
           if bitOf e 0 ∧ !bitOf e 1 then State.tableFrames s l (bitsOf e 51 8 * 256) else []))
/-- Frames marked as owned by a key-domain (R431). -/
def State.setOwner (s : State) (d : Nat) (frames : List Nat) : State :=
  { s with owners := frames.foldl (fun o f => setKey o f d) s.owners }

/-- KDSEAL (R429, R431): the frames of the ranges and of the context's page tables become the key-domain's, and the context is
measured into CM. A range outside mapped HBM is BADARG; a frame of another key-domain, or a context already sealed, is STATE. (log 24, PRESUMED) (log 35, DEDUCED) -/
def execKdseal (s : State) : Out :=
  secpCommand 4 (fun s p => match kdArg p with
    | none => (s, 2, [])
    | some d =>
      let ctx := fieldOf p 4 4
      let desc := s.ctxDesc ctx
      let rs := listRanges p.length (p.drop 8)
      let e := s.domain desc.dom
      let ps := rs.flatMap (fun r => (pieces r.1 (r.2 / 65536 + 2) r.2).map (fun q => s.hbmAt e q.1))
      if p.length < 8 ∨ 65536 ≤ ctx ∨ !desc.valid ∨ ps.any (fun q => q.isNone) then (s, 2, [])
      else
        let frames := ps.flatMap (fun q => q.toList.flatMap (fun x => x.2)) ++ (s.tableFrames 3 e.root).filter (fun f => decide (f < 2 ^ 18))
        if (s.kd d).st ≠ 1 ∨ (s.sealedBy ctx).isSome ∨ frames.any (fun f => keyOf s.owners f ≠ 0 && keyOf s.owners f ≠ d) then (s, 4, [])
        else
          let t := s.release
          let bytes := fun (r : Nat × Nat) => (pieces r.1 (r.2 / 65536 + 2) r.2).flatMap (fun q =>
            match s.hbmAt e q.1 with
            | some x => t.readKey x.1 (s.kd d).key q.2
            | none => [])
          let cm := rs.foldl (fun cm r => shake256 (cm ++ bytes r)) (shake256 (s.ctxBytes ctx))
          ((t.setOwner d frames).setKd d { st := 2, key := (s.kd d).key, ctx := ctx, ranges := rs, cm := cm }, 0, cm)) s

/-- Address of the entry that a walk of a VA uses at the level of a page size (R395). -/
def State.leafSlot (s : State) (root va size : Nat) : Option Nat :=
  let next := fun (e : Nat) => if bitOf e 0 ∧ !bitOf e 1 then some (bitsOf e 51 8 * 256) else none
  let l1 := next (s.natPa (root + 8 * bitsOf va 56 39) 8)
  if size = 0x40000000 then l1.map (fun t => t + 8 * bitsOf va 38 30)
  else
    let l2 := l1.bind (fun t => next (s.natPa (t + 8 * bitsOf va 38 30) 8))
    if size = 0x200000 then l2.map (fun t => t + 8 * bitsOf va 29 21)
    else (l2.bind (fun t => next (s.natPa (t + 8 * bitsOf va 29 21) 8))).map (fun t => t + 8 * bitsOf va 20 16)

/-- KDMAP (R431): a leaf of a sealed context whose frames are unowned or its own is written, its frames become the key-domain's, and
the old translation is invalidated. (log 24, PRESUMED) (log 35, DEDUCED) -/
def execKdmap (s : State) : Out :=
  secpCommand 6 (fun s p =>
    let ctx := fieldOf p 0 4
    let va := fieldOf p 4 8
    let leaf := fieldOf p 12 8
    let size := fieldOf p 20 4
    let pa := bitsOf leaf 51 16 * 65536
    let frames := (List.range (max 1 (size / 2 ^ 21))).flatMap (fun i => leafFrames leaf (pa + i * 2 ^ 21))
    if p.length < 24 ∨ !([0x10000, 0x200000, 0x40000000].contains size) ∨ !canonical va ∨ va % size ≠ 0 ∨ !bitOf leaf 0 ∨ !bitOf leaf 1 ∨
        s.leafBad (BitVec.ofNat 64 leaf) size then (s, 2, [])
    else
      match s.sealedBy ctx with
      | none => (s, 4, [])
      | some d =>
        if frames.any (fun f => decide (f < 2 ^ 18) && keyOf s.owners f ≠ 0 && keyOf s.owners f ≠ d) then (s, 4, [])
        else
          let e := s.domain (s.ctxDesc ctx).dom
          match s.leafSlot e.root va size with
          | none => (s, 2, [])
          | some slot =>
            let t := (s.setOwner d (frames.filter (fun f => decide (f < 2 ^ 18)))).writePa slot (leBytes 8 leaf)
            let t := t.release.invalidate (some e.asid) (some (va, size))
            ({ t with tlb := t.tlb.filter (fun (x : TlbEntry) => !(x.asid == e.asid && x.size == size && x.va == va)) }, 0, [])) s

/-! ## Link keys (R435) -/

/-- REKEY (R435): a port with a key begins the exchange for a new one. (log 35, DEDUCED) -/
def execRekey (s : State) : Out :=
  secpCommand 7 (fun s p =>
    if p.length < 4 ∨ 32 ≤ fieldOf p 0 4 then (s, 2, [])
    else if (s.port (fieldOf p 0 4)).txst = 0 then (s, 4, [])
    else (s.modPort (fieldOf p 0 4) (fun y => { y with exch := 1 }), 0, [])) s

/-! ## Multi-package contexts (R436 to R439) -/

/-- MPCSET (R436). (log 24, PRESUMED) (log 35, DEDUCED) -/
def execMpcset (s : State) : Out :=
  secpCommand 8 (fun s p =>
    let id := fieldOf p 0 4
    if p.length ≠ 1872 ∨ id = 0 ∨ fieldOf p 6 2 ≠ 0 ∨ fieldOf p 1865 7 ≠ 0 then (s, 2, [])
    else if s.mpcs.any (fun (m : Mpc) => m.id == id) then (s, 4, [])
    else if 16 ≤ s.mpcs.length then (s, 5, [])
    else
      let m : Mpc := { id := id, ctx := fieldOf p 4 2, policy := (p.drop 8).take 64, key := (p.drop 72).take 1793, members := 0#256, epoch := 0 }
      ({ s with mpcs := s.mpcs ++ [m] }, 0, [])) s

/-- The members that reports accept: each report, after its package address, verifies, names the MPC and has the policy digest (R437). (log 24, PRESUMED) -/
def joins (m : Mpc) : Nat → List Byte → BitVec 256
  | 0, _ => 0#256
  | n + 1, p =>
    if p.length < 1628 then 0#256
    else
      let r := (p.drop 4).take 1624
      let body := r.take 344
      let ok := falconVerify (Config.certKey ((r.drop 72).take 64)) (shake256 body) (r.drop 344) && fieldOf r 336 4 == m.id &&
        shake256 ((r.drop 136).take 192) == m.policy
      joins m n (p.drop 1628) ||| (if ok ∧ fieldOf p 0 4 < 256 then 1#256 <<< fieldOf p 0 4 else 0#256)

/-- MPCJOIN (R437): the bitmap of the admitted packages. (log 24, PRESUMED) (log 35, DEDUCED) -/
def execMpcjoin (s : State) : Out :=
  secpCommand 9 (fun s p =>
    if p.length < 4 ∨ (p.length - 4) % 1628 ≠ 0 then (s, 2, [])
    else
      match s.mpcs.find? (fun (m : Mpc) => m.id == fieldOf p 0 4) with
      | none => (s, 4, [])
      | some m =>
        let b := m.members ||| joins m p.length (p.drop 4)
        ({ s with mpcs := s.mpcs.map (fun (x : Mpc) => if x.id = m.id then { x with members := b } else x) }, 0, leBytes 32 b.toNat)) s

/-- The revocation point of a surviving package (R439): the member leaves, groups that name it are aborted and cleared, commands
toward it retire, links to it are rekeyed. -/
def State.revoked (s : State) (m : Mpc) (a epoch : Nat) : State :=
  let s := { s with mpcs := s.mpcs.map (fun (x : Mpc) =>
    if x.id = m.id then { x with members := x.members &&& ~~~(1#256 <<< a), epoch := epoch } else x) }
  let s := (List.range 256).foldl (fun s g =>
    if (s.grp g).v ∧ (s.grp g).ctx = m.ctx ∧ (s.grp g).memb.getLsbD a then
      ((s.startAbort g (s.grp g).seq).applyAbort g).modGroup g (fun x => { x with v := false })
    else s) s
  let mine := s.ops.filter (fun (o : Op) => o.cls == 3 && !o.done && o.ctx == m.ctx && !o.grouped && o.target == a)
  let s := mine.foldl (fun s (o : Op) =>
    let st := if (s.heldPort o).isSome then 8 else 7
    s.failOp o st) s
  let s := { s with outq := s.outq.filter (fun (q : PortPkt) =>
    !(q.pkt.hd.dst == a && q.pkt.hd.src == s.own && q.pkt.hd.ctx == m.ctx && (s.port q.port).txst == 3)) }
  (List.range 32).foldl (fun s p =>
    if s.expected p = some a ∧ (s.port p).txst ≠ 0 then s.modPort p (fun y => { y with exch := 2 }) else s) s

/-- REVOKE (R438, R439): the revoked package itself ends the context. (log 24, PRESUMED) (log 35, DEDUCED) -/
def execRevoke (s : State) : Out :=
  secpCommand 10 (fun s p =>
    if p.length ≠ 1356 then (s, 2, [])
    else
      match s.mpcs.find? (fun (m : Mpc) => m.id == fieldOf p 0 4) with
      | none => (s, 4, [])
      | some m =>
        if !falconVerify m.key (shake256 (p.take 76)) (p.drop 76) then (s, 3, [])
        else if fieldOf p 4 4 ≤ m.epoch then (s, 4, [])
        else if fieldOf p 8 1 = s.own ∧ (p.drop 12).take 64 = idd then
          ({ s.terminate m.ctx with mpcs := s.mpcs.map (fun (x : Mpc) =>
              if x.id = m.id then { x with epoch := fieldOf p 4 4 } else x) }, 0, [])
        else (s.revoked m (fieldOf p 8 1) (fieldOf p 4 4), 0, [])) s

/-! ## Firmware update (R455) -/

/-- FWSTAGE (R455): an image is verified as R425 does and written to the staging bank. (log 24, PRESUMED) -/
def execFwstage (s : State) : Out :=
  secpCommand 11 (fun s p =>
    let i := fieldOf p 12 4
    if p.length < 16 ∨ 3 < i then (s, 2, [])
    else
      let img := s.readPa (fieldOf p 0 8) (fieldOf p 8 4)
      let x := s.secp
      if !fwPasses (x.roll.getD i 0) (fwParts img) then (s, 3, [])
      else ({ s with secp := { x with
                staged := i :: x.staged.filter (fun q => q ≠ i)
                flash := { bank := !x.bank, idx := i, bytes := img } :: x.flash.filter (fun f => !(f.bank == !x.bank && f.idx == i)) } }, 0, [])) s

/-- FWCOMMIT (R455): with all four images staged, the staging bank becomes active; ADVANCE raises the fused counters, and one that
can be raised no further (open how far they go) is FULL. (log 24, PRESUMED) (log 33, DESIGN CHOICE) -/
def execFwcommit (s : State) : Out :=
  secpCommand 12 (fun s p =>
    if p.length < 4 then (s, 2, [])
    else if !(List.range 4).all (fun i => s.secp.staged.contains i) then (s, 4, [])
    else
      let ver := fun i => ((s.secp.imageIn (!s.secp.bank) i).map (fun img => (fwParts img).2.2.1)).getD 0
      let adv := bitOf (fieldOf p 0 4) 0
      let raise := adv && (List.range 4).any (fun i => decide (s.secp.roll.getD i 0 < ver i))
      if raise && s.pick [43] 2 == 1 then (s, 5, [])
      else
        let roll := if adv then (List.range 4).map (fun i => max (s.secp.roll.getD i 0) (ver i)) else s.secp.roll
        ({ s with secp := { s.secp with staged := [], bank := !s.secp.bank, roll := roll } }, 0, [])) s

end Sys2Proof.Machine
end

