-- ==== Sys2Proof/Machine/Mgmt.lean ====
section
/-!
DEFINITION. Mgmt.lean: the management window as an address map: what a write of each offset does and what a read returns
(spec 23 R414 to R420; 24 R428, R435; 25 R440 to R452).
-/

namespace Sys2Proof.Machine

open Sys2Proof

/-! ## Offsets (R414, R418, R419, R428, R435, R449, R451) -/

/-- The aligned pair of words at an offset is one 64-bit register, which takes 64-bit writes only (R414). -/
def wideReg (off : Nat) : Bool :=
  let o := off / 8 * 8
  let c := o % 0x10000
  [0x20, 0x30, 0x38, 0x40, 0x50, 0x380000].contains o || (decide (0x10100 ≤ o) && decide (o < 0x10120)) ||
    (decide (0x100000 ≤ o) && decide (o < 0x300000) && (decide (c < 0x8040) || (decide (0x9000 ≤ c) && decide (c < 0xA000) &&
      (decide (0x80 ≤ (c - 0x9000) % 512) && decide ((c - 0x9000) % 512 < 0x100))))) ||
    (decide (0x300800 ≤ o) && decide (o < 0x300848)) || (decide (0x381000 ≤ o) && decide (o < 0x381200) && o % 16 == 8)

/-- The management registers changed. -/
def State.modMgmt (s : State) (f : Mgmt → Mgmt) : State := { s with mgmt := f s.mgmt }

/-- FRESP: reserved bits or ACT 3 make the write ignored (R417). -/
def State.fresp (s : State) (v : Nat) : State :=
  let dom := bitOf v 15
  let owner := bitsOf v 31 16
  let seq := bitsOf v 63 32
  if bitsOf v 14 2 ≠ 0 then s
  else
    match bitsOf v 1 0 with
    | 0 => after (execFrespResume dom owner seq s) s
    | 1 => after (execFrespDecline dom owner seq s) s
    | 2 => after (execFrespTerminate dom owner seq s) s
    | _ => s

/-- A write of a 64-bit register. -/
def State.write64 (s : State) (off v : Nat) : State :=
  let w := BitVec.ofNat 64 v
  let c := off % 0x10000
  if off = 0x20 then after (execBootl w s) s
  else if off = 0x30 then s.modMgmt (fun m => { m with ctxtab := BitVec.ofNat 64 (bitsOf v 51 12 * 4096) })
  else if off = 0x38 then s.modMgmt (fun m => { m with domtab := BitVec.ofNat 64 (bitsOf v 51 12 * 4096) })
  else if off = 0x40 then s.fresp v
  else if off = 0x50 then (if v % 2 ^ 36 ≠ 0 ∨ 2 ^ 39 ≤ v then s else s.modMgmt (fun m => { m with mwap := w }))
  else if 0x10100 ≤ off ∧ off < 0x10120 then s.modMgmt (fun m => { m with farsz := m.farsz.set ((off - 0x10100) / 8) w })
  else if off = 0x380000 then s.smcmd v
  else if 0x100000 ≤ off ∧ off < 0x300000 then
    let port := (off - 0x100000) / 0x10000
    if c < 0x8000 then after (execCoxInstructionMemoryWrite port (c / 8) w s) s
    else if c < 0x8040 then after (execCoxRegionWrite port ((c - 0x8000) / 8) w s) s
    else after (execCoxSlotStateWrite port ((c - 0x9000) / 512) (((c - 0x9000) % 512 - 0x80) / 8) w s) s
  else s

/-- CTL of a cox slot: reserved bits make the write ignored; KILL, else RESUME with or without STEP (R305). -/
def State.ctlWrite (s : State) (port k v : Nat) : State :=
  if 8 ≤ v then s
  else if bitOf v 2 then after (execCtlKill port k s) s
  else if bitOf v 0 then (if bitOf v 1 then after (execCtlStep port k s) s else after (execCtlResume port k s) s)
  else s

/-- PORTCTL: LPORT of a port that is no spare, where MAPV is reserved; MAPV and LPORT of a spare; then ADMDN, then RETRAIN (R442). -/
def State.portctl (s : State) (p v : Nat) : State :=
  let s := if p < 30 then s.modPort p (fun y => { y with lport := bitsOf v 20 16 }) else after (execPortctlMapv p (bitOf v 23) (bitsOf v 20 16) s) s
  let s := after (execPortctlAdmdn p (bitOf v 31) s) s
  if bitOf v 30 then after (execPortctlRetrain p s) s else s

/-- A word of the start window: START data, or the control word (R418). -/
def State.startWrite (s : State) (i b v : Nat) : State :=
  if b < 160 then
    s.modStart i (fun x => { x with data := (x.data.take b ++ leBytes 4 v ++ x.data.drop (b + 4)).take 160 })
  else if b = 160 then
    if bitOf v 31 then after (execStartGo i (v % 256) s) s
    else s.modStart i (fun x => { x with group := v % 256 })
  else s

/-- A write of a 32-bit register (R414 to R418, R440 to R452). -/
def State.write32 (s : State) (off v : Nat) : State :=
  let w := BitVec.ofNat 32 v
  if off = 0x48 then s.modMgmt (fun m => { m with spint := w })
  else if off = 0x58 then
    if v % 4 = 3 ∨ s.blocks.any (fun (b : Block) => b.place == 0 || b.place == 3) then s
    else s.modMgmt (fun m => { m with l1cfg := BitVec.ofNat 2 v })
  else if 0x10000 ≤ off ∧ off < 0x100A0 then
    let g := (off - 0x10000) / 4
    let old := (s.mgmt.banksz.getD g 0#32).toNat
    if v % 8 = 7 ∨ (v % 8 ≠ old ∧ s.launches.any (fun (l : Launch) => l.st == 2)) then s
    else s.modMgmt (fun m => { m with banksz := m.banksz.set g (BitVec.ofNat 32 (v % 8)) })
  else if 0x20000 ≤ off ∧ off < 0x24000 then after (execAddressGroupWrite ((off - 0x20000) / 64) (off % 64 / 4) w s) s
  else if 0x30000 ≤ off ∧ off < 0x30800 then s.startWrite ((off - 0x30000) / 256) (off % 256) v
  else if 0x100000 ≤ off ∧ off < 0x300000 ∧ 0x9000 ≤ off % 0x10000 ∧ off % 0x10000 < 0xA000 then
    let port := (off - 0x100000) / 0x10000
    let k := (off % 0x10000 - 0x9000) / 512
    let r := (off % 0x10000 - 0x9000) % 512
    if r = 0 then after (execCoxSlotStateWrite port k 16 (BitVec.ofNat 64 v) s) s
    else if r = 0x10 then s.ctlWrite port k v else s
  else if off = 0x300000 then after (execFabcfg w s) s
  else if off = 0x300008 then (if v < 0x10000 then s else { s with fabto := w })
  else if 0x300100 ≤ off ∧ off < 0x300200 ∧ off % 8 = 0 then s.portctl ((off - 0x300100) / 8) v
  else if off = 0x300480 then { s with detex := w }
  else if off = 0x3007F4 then { s with ras := { s.ras with thr := w } }
  else if off = 0x3007F8 then (if bitOf v 0 then after (execRasclr s) s else s)
  else if off = 0x300C00 then
    if bitsOf v 31 26 ≠ 0 ∨ bitsOf v 15 11 ≠ 0 ∨ bitsOf v 25 16 = 0 ∨ 1000 < bitsOf v 25 16 ∨ bitsOf v 10 0 < 400 ∨ 1600 < bitsOf v 10 0 then s
    else s.modMgmt (fun m => { m with pwrcap := w })
  else if off = 0x300C04 then
    if bitsOf v 31 16 ≠ 0 ∨ bitsOf v 15 8 < 60 ∨ 100 < bitsOf v 15 8 ∨ bitsOf v 15 8 < bitsOf v 7 0 then s
    else s.modMgmt (fun m => { m with therm := w })
  else s

/-- A host write of 32 bits, or of 64 when `wide`, to BAR0 or to the MSI-X table in BAR4 (R409, R414). Misaligned accesses and
offsets without a register are ignored. (log 31, DEDUCED) -/
def execMgmtRegisterWrite (bar off : Nat) (wide : Bool) (v : BitVec 64) (s0 : State) : Out :=
  let s := { s0 with free := s0.free + 1 }
  let n := v.toNat
  if !s.hostOpen ∨ off % 4 ≠ 0 ∨ (wide ∧ off % 8 ≠ 0) then .next s
  else if bar = 4 then
    let s := s.msixWrite off (BitVec.ofNat 32 n)
    .next (if wide then s.msixWrite (off + 4) (BitVec.ofNat 32 (n / 2 ^ 32)) else s)
  else if bar ≠ 0 then .next s
  else if wideReg off then .next (if wide then s.write64 off n else s)
  else
    let s := s.write32 off (n % 2 ^ 32)
    .next (if wide then s.write32 (off + 4) (n / 2 ^ 32) else s)

/-! ## Reads (R302, R414 to R419, R428, R435, R440 to R452) -/

/-- Bytes of a group entry (R288). -/
def State.groupRead (s : State) (g w : Nat) : Nat :=
  let x := s.grp g
  if w = 0 then x.v.toNat * 2 ^ 31 + s.grpState g * 2 ^ 29 + x.rhnd % 2048 * 65536 + x.root % 256 * 256 + x.nm1 % 256
  else if w = 1 then x.ctx % 65536 * 65536 + x.seq % 65536
  else if 4 ≤ w ∧ w < 12 then x.memb.toNat >>> (32 * (w - 4)) % 2 ^ 32
  else 0

/-- A window record of a cox slot (R419). -/
def winBytes (w : CoxWin) : List Byte :=
  leBytes 1 (w.buf % 16) ++ leBytes 1 w.tag ++ leBytes 2 0 ++ leBytes 4 w.chunk ++ leBytes 4 w.landed ++
    leBytes 4 (1 + w.fva.isSome.toNat * 2 + w.poison.toNat * 4) ++ leBytes 8 (w.fva.getD 0)

/-- STATUS of a slot (R303). -/
def CoxSlot.statusWord (x : CoxSlot) : Nat :=
  x.st % 8 * 2 ^ 29 + x.phase.toNat * 2 ^ 28 + x.cause % 256 * 2 ^ 16 + x.sub % 256 * 2 ^ 8 + (if x.st = 3 then x.why % 16 * 16 else 0)
/-- CTXID of slot k (R304); a slot that is FREE reads the reset value. (log 29, DEDUCED) -/
def CoxSlot.ctxIdWord (x : CoxSlot) (k : Nat) : Nat := x.ctx % 65536 * 65536 + x.group % 256 * 256 + (if x.st = 0 then 0 else k % 8)

/-- Word r of the state of a cox slot (R302 to R306, R419). -/
def State.slotRead (s : State) (port k r : Nat) : Nat :=
  let x := s.coxSlot port k
  if r = 0 then x.pc
  else if r = 4 then x.statusWord
  else if r = 8 then x.ctxIdWord k
  else if r = 0xC then x.seq
  else if 0x20 ≤ r ∧ r < 0x80 then leNat (((x.wins.take 4).flatMap winBytes).drop (r - 0x20) |>.take 4)
  else if 0x80 ≤ r ∧ r < 0x100 then (x.regs.getD ((r - 0x80) / 8) 0#64).toNat >>> (r % 8 * 8) % 2 ^ 32
  else if 0x100 ≤ r then leNat (((x.bufs.flatMap (fun b => b)).drop (r - 0x100)).take 4)
  else 0

/-- Half of a 64-bit value. -/
def half (v off : Nat) : Nat := v >>> (off % 8 * 8) % 2 ^ 32

/-- What the host reads as a 32-bit word of the management window; 0 where no register stands (R414). (log 13, PRESUMED) -/
def State.read32 (s : State) (off : Nat) : Nat :=
  let m := s.mgmt
  let o := off / 8 * 8
  if m.stage = 4 ∧ off ≠ 0x10 then 0
  else if off = 0 then 0x4D590160
  else if off = 0x10 then
    m.stage * 2 ^ 28 + m.dieup.toNat * 2 ^ 20 + m.stackup.toNat * 2 ^ 12 + m.cxlup.toNat * 2 ^ 8 + m.err.toNat
  else if o = 0x20 then half m.bootl.toNat off
  else if o = 0x30 then half m.ctxtab.toNat off
  else if o = 0x38 then half m.domtab.toNat off
  else if off = 0x48 then m.spint.toNat
  else if o = 0x50 then half m.mwap.toNat off
  else if off = 0x58 then m.l1cfg.toNat
  else if off = 0x60 then m.ps.toNat
  else if 0x10000 ≤ off ∧ off < 0x100A0 then (m.banksz.getD ((off - 0x10000) / 4) 0#32).toNat
  else if 0x10100 ≤ off ∧ off < 0x10120 then half (m.farsz.getD ((off - 0x10100) / 8) 0#64).toNat off
  else if 0x20000 ≤ off ∧ off < 0x24000 then s.groupRead ((off - 0x20000) / 64) (off % 64 / 4)
  else if 0x30000 ≤ off ∧ off < 0x30800 then
    let x := s.startSlots.getD ((off - 0x30000) / 256) StartSlot.reset
    let b := off % 256
    if b < 160 then leNat ((x.data.drop b).take 4)
    else if b = 160 then x.group % 256
    else if b = 164 then x.busy.toNat * 2 ^ 31 + x.stat % 16 * 2 ^ 24 + x.seq % 65536 else 0
  else if 0x100000 ≤ off ∧ off < 0x300000 then
    let port := (off - 0x100000) / 0x10000
    let c := off % 0x10000
    if c < 0x8000 then half ((s.cox port).word (c / 8)).toNat off
    else if c < 0x8040 then half ((s.cox port).reg ((c - 0x8000) / 8)) off
    else if 0x9000 ≤ c ∧ c < 0xA000 then s.slotRead port ((c - 0x9000) / 512) ((c - 0x9000) % 512) else 0
  else if off = 0x300000 then s.fabcfg.toNat
  else if off = 0x300008 then s.fabto.toNat
  else if 0x300100 ≤ off ∧ off < 0x300200 then
    let x := s.port ((off - 0x300100) / 8)
    if off % 8 = 0 then x.admdn.toNat * 2 ^ 31 + x.mapv.toNat * 2 ^ 23 + x.lport % 32 * 2 ^ 16
    else x.st % 8 * 2 ^ 29 + x.att % 32 * 2 ^ 24 + x.peer % 256 * 2 ^ 16
  else if 0x300400 ≤ off ∧ off < 0x300480 then (s.lstate.getD ((off - 0x300400) / 4) 0#32).toNat
  else if off = 0x300480 then s.detex.toNat
  else if off = 0x3007F0 then s.ras.prod.toNat
  else if off = 0x3007F4 then s.ras.thr.toNat
  else if 0x300800 ≤ off ∧ off < 0x300848 then
    half (([s.ras.cesram, s.ras.uesram, s.ras.cehbm, s.ras.uehbm, s.ras.parfix, s.ras.pktdrop, s.ras.ptebad, s.ras.msidrop, s.ras.farlost].getD
      ((off - 0x300800) / 8) 0#64).toNat) off
  else if off = 0x300C00 then m.pwrcap.toNat
  else if off = 0x300C04 then m.therm.toNat
  else if 0x302000 ≤ off ∧ off < 0x304000 then
    leNat (((s.ras.log.getD ((off - 0x302000) / 32) []).drop (off % 32)).take 4)
  else if off = 0x304000 then m.pkgpwr.toNat
  else if 0x304004 ≤ off ∧ off < 0x304014 then (m.diepwr.getD ((off - 0x304004) / 4) 0#32).toNat
  else if 0x304020 ≤ off ∧ off < 0x304030 then (m.temp.getD ((off - 0x304020) / 4) 0#32).toNat
  else if 0x304040 ≤ off ∧ off < 0x304060 then (m.hbmtemp.getD ((off - 0x304040) / 4) 0#32).toNat
  else if off = 0x304060 then m.aclk.toNat
  else if off = 0x304064 then m.thrstat.toNat
  else if 0x304070 ≤ off ∧ off < 0x304080 then (m.pfddrop.getD ((off - 0x304070) / 4) 0#32).toNat
  else if 0x305000 ≤ off ∧ off < 0x305400 then
    let x := s.port ((off - 0x305000) / 32)
    leNat (((leBytes 8 x.sent.toNat ++ leBytes 8 x.rcvd.toNat ++ leBytes 4 x.retries.toNat ++ leBytes 4 x.tagFail.toNat ++
      leBytes 4 x.downs.toNat ++ leBytes 4 0).drop (off % 32)).take 4)
  else if o = 0x380000 then half s.secp.cbpa off
  else if off = 0x380008 then s.secp.busy.isSome.toNat * 2 ^ 31 + s.secp.last % 256
  else if 0x381000 ≤ off ∧ off < 0x381200 then
    let x := s.port ((off - 0x381000) / 16)
    if off % 16 = 0 then x.txst * 2 ^ 30 + x.rxst * 2 ^ 28 + x.txsel.toNat * 2 ^ 27 + x.rxsel.toNat * 2 ^ 26 + x.nkey % 65536
    else if 8 ≤ off % 16 then half x.txcnt.toNat off else 0
  else 0

/-- What the host reads of BAR0: 32 bits, or 64 when `wide`; 0 for a misaligned access, and while the host link is not trained (R414, R421). -/
def State.mgmtRead (s : State) (off : Nat) (wide : Bool) : Nat :=
  if s.mgmt.off ∨ s.mgmt.stage < 2 ∨ off % 4 ≠ 0 ∨ (wide ∧ off % 8 ≠ 0) then 0
  else s.read32 off + if wide then s.read32 (off + 4) * 2 ^ 32 else 0

/-- What the host reads of BAR4 as a 32-bit word: address and data of a vector's table entry and its mask bit, and the pending bits from
0x8000 on (R409, R420). (log 32, PRESUMED) -/
def State.msixWord (s : State) (off : Nat) : Nat :=
  if off < 0x8000 then
    if off % 16 = 12 then (if s.mgmt.msixOpen.contains (off / 16) then 0 else 1) else leNat (s.mgmt.msix.read off 4)
  else if off < 0x8100 then (List.range 32).foldl (fun n i => if s.mgmt.msixPending.contains ((off - 0x8000) * 8 + i) then n + 2 ^ i else n) 0
  else 0
/-- What the host reads of BAR4, 32 bits or 64 (R409). -/
def State.msixRead (s : State) (off : Nat) (wide : Bool) : Nat :=
  if s.mgmt.off ∨ s.mgmt.stage < 2 ∨ off % 4 ≠ 0 ∨ (wide ∧ off % 8 ≠ 0) then 0
  else s.msixWord off + if wide then s.msixWord (off + 4) * 2 ^ 32 else 0

/-- What the I2C target at address 0x4A returns for a 16-bit register address, the offset from 0x30_4000: the telemetry registers, whatever the
host link does (R451). -/
def State.i2cRead (s : State) (reg : Nat) : Nat := if s.mgmt.off ∨ 0x1400 ≤ reg ∨ reg % 4 ≠ 0 then 0 else s.read32 (0x304000 + reg)

end Sys2Proof.Machine
end

