-- ==== Sys2Proof/Machine/Packed.lean ====
section
/-!
DEFINITION. Packed.lean: packed integer arithmetic and dot products (spec 05 R117, R118).
-/

namespace Sys2Proof.Machine

open Sys2Proof

/-- An element read as its type says. -/
def elemVal (signed : Bool) (w x : Nat) : Int := if signed then svalN x w else (x : Int)
/-- Wrap modulo 2^w (R117). -/
def wrapFit (w : Nat) (x : Int) : Nat := (x % (2 ^ w : Int)).toNat
/-- Clamp to the signed range (R117). -/
def satFit (w : Nat) (x : Int) : Nat :=
  wrapFit w (max (-(2 ^ (w - 1) : Int)) (min x ((2 ^ (w - 1) : Int) - 1)))
/-- An operation applied element by element (R117). -/
def packed (w : Nat) (signed sat : Bool) (op : Int → Int → Int) (a b : DWord) : Word :=
  BitVec.ofNat 32 (joinElems w ((List.range (32 / w)).map (fun i =>
    let x := op (elemVal signed w (a.toNat / 2 ^ (w * i) % 2 ^ w)) (elemVal signed w (b.toNat / 2 ^ (w * i) % 2 ^ w))
    if sat then satFit w x else wrapFit w x)))

/-- Operand use of two packed vectors of one type. -/
def useVV (t : ETy) : RUse := { a := some t, b := some t, c := none }

/-- vadd.i16x2 (R117). -/
def execVaddI16x2 (f : FormR) (s : State) : Out := runR f (useVV .i16x2) 2 (fun a b _ => packed 16 true false (· + ·) a b) s
/-- vsub.i16x2 (R117). -/
def execVsubI16x2 (f : FormR) (s : State) : Out := runR f (useVV .i16x2) 2 (fun a b _ => packed 16 true false (· - ·) a b) s
/-- vadd.i8x4 (R117). -/
def execVaddI8x4 (f : FormR) (s : State) : Out := runR f (useVV .i8x4) 2 (fun a b _ => packed 8 true false (· + ·) a b) s
/-- vsub.i8x4 (R117). -/
def execVsubI8x4 (f : FormR) (s : State) : Out := runR f (useVV .i8x4) 2 (fun a b _ => packed 8 true false (· - ·) a b) s
/-- vmin.i16x2 (R117). -/
def execVminI16x2 (f : FormR) (s : State) : Out := runR f (useVV .i16x2) 2 (fun a b _ => packed 16 true false min a b) s
/-- vmax.i16x2 (R117). -/
def execVmaxI16x2 (f : FormR) (s : State) : Out := runR f (useVV .i16x2) 2 (fun a b _ => packed 16 true false max a b) s
/-- vmin.i8x4 (R117). -/
def execVminI8x4 (f : FormR) (s : State) : Out := runR f (useVV .i8x4) 2 (fun a b _ => packed 8 true false min a b) s
/-- vmax.i8x4 (R117). -/
def execVmaxI8x4 (f : FormR) (s : State) : Out := runR f (useVV .i8x4) 2 (fun a b _ => packed 8 true false max a b) s
/-- vmin.n8x4 (R117). -/
def execVminN8x4 (f : FormR) (s : State) : Out := runR f (useVV .n8x4) 2 (fun a b _ => packed 8 false false min a b) s
/-- vmax.n8x4 (R117). -/
def execVmaxN8x4 (f : FormR) (s : State) : Out := runR f (useVV .n8x4) 2 (fun a b _ => packed 8 false false max a b) s
/-- vaddsat.i16x2 (R117). -/
def execVaddsatI16x2 (f : FormR) (s : State) : Out := runR f (useVV .i16x2) 2 (fun a b _ => packed 16 true true (· + ·) a b) s
/-- vaddsat.i8x4 (R117). -/
def execVaddsatI8x4 (f : FormR) (s : State) : Out := runR f (useVV .i8x4) 2 (fun a b _ => packed 8 true true (· + ·) a b) s

/-- The exact dot product of two packed vectors, added to c and wrapped once (R118). -/
def dot (w : Nat) (signed : Bool) (a b c : DWord) : Word :=
  let p := (List.range (32 / w)).map (fun i =>
    elemVal signed w (a.toNat / 2 ^ (w * i) % 2 ^ w) * elemVal signed w (b.toNat / 2 ^ (w * i) % 2 ^ w))
  BitVec.ofInt 32 (p.foldl (· + ·) ((lo32 c).toNat : Int))

/-- dp4.i8x4 (R118). -/
def execDp4I8x4 (f : FormR) (s : State) : Out :=
  runR f { a := some .i8x4, b := some .i8x4, c := some .i32 } 4 (dot 8 true) s
/-- dp4.n8x4 (R118). -/
def execDp4N8x4 (f : FormR) (s : State) : Out :=
  runR f { a := some .n8x4, b := some .n8x4, c := some .n32 } 4 (dot 8 false) s
/-- dp2.i16x2 (R118). -/
def execDp2I16x2 (f : FormR) (s : State) : Out :=
  runR f { a := some .i16x2, b := some .i16x2, c := some .i32 } 4 (dot 16 true) s
/-- dp8.i4x8 (R118). -/
def execDp8I4x8 (f : FormR) (s : State) : Out :=
  runR f { a := some .i4x8, b := some .i4x8, c := some .i32 } 4 (dot 4 true) s

end Sys2Proof.Machine
end

