-- ==== Sys2Proof/Machine/Dispatch.lean ====
section
/-!
DEFINITION. Dispatch.lean: one arm for each row of the table; each arm is one call of that row's meaning.
-/

namespace Sys2Proof.Machine

/-- One instruction, or one event, executed at a state. -/
def exec (i : Instr) (s : State) : Host.Outcome State Fault Refusal :=
  match i with
  | .iaddI32 f => Sys2Proof.Machine.execIaddI32 f s
  | .isubI32 f => Sys2Proof.Machine.execIsubI32 f s
  | .iadd3I32 f => Sys2Proof.Machine.execIadd3I32 f s
  | .iaddcI32 f => Sys2Proof.Machine.execIaddcI32 f s
  | .isubbI32 f => Sys2Proof.Machine.execIsubbI32 f s
  | .imulI32 f => Sys2Proof.Machine.execImulI32 f s
  | .imulhiI32 f => Sys2Proof.Machine.execImulhiI32 f s
  | .imulhiN32 f => Sys2Proof.Machine.execImulhiN32 f s
  | .imadI32 f => Sys2Proof.Machine.execImadI32 f s
  | .imadwI32 f => Sys2Proof.Machine.execImadwI32 f s
  | .imadwN32 f => Sys2Proof.Machine.execImadwN32 f s
  | .iminI32 f => Sys2Proof.Machine.execIminI32 f s
  | .imaxI32 f => Sys2Proof.Machine.execImaxI32 f s
  | .iminN32 f => Sys2Proof.Machine.execIminN32 f s
  | .imaxN32 f => Sys2Proof.Machine.execImaxN32 f s
  | .iaddI64 f => Sys2Proof.Machine.execIaddI64 f s
  | .isubI64 f => Sys2Proof.Machine.execIsubI64 f s
  | .lea f => Sys2Proof.Machine.execLea f s
  | .iaddiI32 f => Sys2Proof.Machine.execIaddiI32 f s
  | .iaddiI64 f => Sys2Proof.Machine.execIaddiI64 f s
  | .imuliI32 f => Sys2Proof.Machine.execImuliI32 f s
  | .andB32 f => Sys2Proof.Machine.execAndB32 f s
  | .orB32 f => Sys2Proof.Machine.execOrB32 f s
  | .xorB32 f => Sys2Proof.Machine.execXorB32 f s
  | .andnB32 f => Sys2Proof.Machine.execAndnB32 f s
  | .notB32 f => Sys2Proof.Machine.execNotB32 f s
  | .shlB32 f => Sys2Proof.Machine.execShlB32 f s
  | .shrN32 f => Sys2Proof.Machine.execShrN32 f s
  | .shrI32 f => Sys2Proof.Machine.execShrI32 f s
  | .rotlB32 f => Sys2Proof.Machine.execRotlB32 f s
  | .rotrB32 f => Sys2Proof.Machine.execRotrB32 f s
  | .shlB64 f => Sys2Proof.Machine.execShlB64 f s
  | .shrN64 f => Sys2Proof.Machine.execShrN64 f s
  | .shrI64 f => Sys2Proof.Machine.execShrI64 f s
  | .bfeN32 f => Sys2Proof.Machine.execBfeN32 f s
  | .bfeI32 f => Sys2Proof.Machine.execBfeI32 f s
  | .bfiB32 f => Sys2Proof.Machine.execBfiB32 f s
  | .popcB32 f => Sys2Proof.Machine.execPopcB32 f s
  | .clzB32 f => Sys2Proof.Machine.execClzB32 f s
  | .ctzB32 f => Sys2Proof.Machine.execCtzB32 f s
  | .brevB32 f => Sys2Proof.Machine.execBrevB32 f s
  | .bswB32 f => Sys2Proof.Machine.execBswB32 f s
  | .movB32 f => Sys2Proof.Machine.execMovB32 f s
  | .moviB32 f => Sys2Proof.Machine.execMoviB32 f s
  | .selB32 f => Sys2Proof.Machine.execSelB32 f s
  | .bselB32 f => Sys2Proof.Machine.execBselB32 f s
  | .andiB32 f => Sys2Proof.Machine.execAndiB32 f s
  | .oriB32 f => Sys2Proof.Machine.execOriB32 f s
  | .xoriB32 f => Sys2Proof.Machine.execXoriB32 f s
  | .cmpEqB32 f => Sys2Proof.Machine.execCmpEqB32 f s
  | .cmpNeB32 f => Sys2Proof.Machine.execCmpNeB32 f s
  | .cmpLtI32 f => Sys2Proof.Machine.execCmpLtI32 f s
  | .cmpLeI32 f => Sys2Proof.Machine.execCmpLeI32 f s
  | .cmpGtI32 f => Sys2Proof.Machine.execCmpGtI32 f s
  | .cmpGeI32 f => Sys2Proof.Machine.execCmpGeI32 f s
  | .cmpLtN32 f => Sys2Proof.Machine.execCmpLtN32 f s
  | .cmpLeN32 f => Sys2Proof.Machine.execCmpLeN32 f s
  | .cmpGtN32 f => Sys2Proof.Machine.execCmpGtN32 f s
  | .cmpGeN32 f => Sys2Proof.Machine.execCmpGeN32 f s
  | .qdef f => Sys2Proof.Machine.execQdef f s
  | .qfree f => Sys2Proof.Machine.execQfree f s
  | .faddF32 f => Sys2Proof.Machine.execFaddF32 f s
  | .fsubF32 f => Sys2Proof.Machine.execFsubF32 f s
  | .fmulF32 f => Sys2Proof.Machine.execFmulF32 f s
  | .ffmaF32 f => Sys2Proof.Machine.execFfmaF32 f s
  | .fminF32 f => Sys2Proof.Machine.execFminF32 f s
  | .fmaxF32 f => Sys2Proof.Machine.execFmaxF32 f s
  | .fmuliF32 f => Sys2Proof.Machine.execFmuliF32 f s
  | .faddiF32 f => Sys2Proof.Machine.execFaddiF32 f s
  | .fclsF32 f => Sys2Proof.Machine.execFclsF32 f s
  | .fcmpEqF32 f => Sys2Proof.Machine.execFcmpEqF32 f s
  | .fcmpNeF32 f => Sys2Proof.Machine.execFcmpNeF32 f s
  | .fcmpLtF32 f => Sys2Proof.Machine.execFcmpLtF32 f s
  | .fcmpLeF32 f => Sys2Proof.Machine.execFcmpLeF32 f s
  | .fcmpGtF32 f => Sys2Proof.Machine.execFcmpGtF32 f s
  | .fcmpGeF32 f => Sys2Proof.Machine.execFcmpGeF32 f s
  | .fcmpUnF32 f => Sys2Proof.Machine.execFcmpUnF32 f s
  | .fcmpOrF32 f => Sys2Proof.Machine.execFcmpOrF32 f s
  | .haddF16x2 f => Sys2Proof.Machine.execHaddF16x2 f s
  | .hmulF16x2 f => Sys2Proof.Machine.execHmulF16x2 f s
  | .hfmaF16x2 f => Sys2Proof.Machine.execHfmaF16x2 f s
  | .hminF16x2 f => Sys2Proof.Machine.execHminF16x2 f s
  | .hmaxF16x2 f => Sys2Proof.Machine.execHmaxF16x2 f s
  | .haddBf16x2 f => Sys2Proof.Machine.execHaddBf16x2 f s
  | .hmulBf16x2 f => Sys2Proof.Machine.execHmulBf16x2 f s
  | .hfmaBf16x2 f => Sys2Proof.Machine.execHfmaBf16x2 f s
  | .hminBf16x2 f => Sys2Proof.Machine.execHminBf16x2 f s
  | .hmaxBf16x2 f => Sys2Proof.Machine.execHmaxBf16x2 f s
  | .vaddI16x2 f => Sys2Proof.Machine.execVaddI16x2 f s
  | .vsubI16x2 f => Sys2Proof.Machine.execVsubI16x2 f s
  | .vaddI8x4 f => Sys2Proof.Machine.execVaddI8x4 f s
  | .vsubI8x4 f => Sys2Proof.Machine.execVsubI8x4 f s
  | .vminI16x2 f => Sys2Proof.Machine.execVminI16x2 f s
  | .vmaxI16x2 f => Sys2Proof.Machine.execVmaxI16x2 f s
  | .vminI8x4 f => Sys2Proof.Machine.execVminI8x4 f s
  | .vmaxI8x4 f => Sys2Proof.Machine.execVmaxI8x4 f s
  | .vminN8x4 f => Sys2Proof.Machine.execVminN8x4 f s
  | .vmaxN8x4 f => Sys2Proof.Machine.execVmaxN8x4 f s
  | .vaddsatI16x2 f => Sys2Proof.Machine.execVaddsatI16x2 f s
  | .vaddsatI8x4 f => Sys2Proof.Machine.execVaddsatI8x4 f s
  | .dp4I8x4 f => Sys2Proof.Machine.execDp4I8x4 f s
  | .dp4N8x4 f => Sys2Proof.Machine.execDp4N8x4 f s
  | .dp2I16x2 f => Sys2Proof.Machine.execDp2I16x2 f s
  | .dp8I4x8 f => Sys2Proof.Machine.execDp8I4x8 f s
  | .daddF64 f => Sys2Proof.Machine.execDaddF64 f s
  | .dsubF64 f => Sys2Proof.Machine.execDsubF64 f s
  | .dmulF64 f => Sys2Proof.Machine.execDmulF64 f s
  | .dfmaF64 f => Sys2Proof.Machine.execDfmaF64 f s
  | .dminF64 f => Sys2Proof.Machine.execDminF64 f s
  | .dmaxF64 f => Sys2Proof.Machine.execDmaxF64 f s
  | .dclsF64 f => Sys2Proof.Machine.execDclsF64 f s
  | .dcmpEqF64 f => Sys2Proof.Machine.execDcmpEqF64 f s
  | .dcmpNeF64 f => Sys2Proof.Machine.execDcmpNeF64 f s
  | .dcmpLtF64 f => Sys2Proof.Machine.execDcmpLtF64 f s
  | .dcmpLeF64 f => Sys2Proof.Machine.execDcmpLeF64 f s
  | .dcmpGtF64 f => Sys2Proof.Machine.execDcmpGtF64 f s
  | .dcmpGeF64 f => Sys2Proof.Machine.execDcmpGeF64 f s
  | .dcmpUnF64 f => Sys2Proof.Machine.execDcmpUnF64 f s
  | .dcmpOrF64 f => Sys2Proof.Machine.execDcmpOrF64 f s
  | .rcpF32 f => Sys2Proof.Machine.execRcpF32 f s
  | .rsqrtF32 f => Sys2Proof.Machine.execRsqrtF32 f s
  | .sqrtF32 f => Sys2Proof.Machine.execSqrtF32 f s
  | .exp2F32 f => Sys2Proof.Machine.execExp2F32 f s
  | .log2F32 f => Sys2Proof.Machine.execLog2F32 f s
  | .sinF32 f => Sys2Proof.Machine.execSinF32 f s
  | .cosF32 f => Sys2Proof.Machine.execCosF32 f s
  | .tanhF32 f => Sys2Proof.Machine.execTanhF32 f s
  | .rcpF64 f => Sys2Proof.Machine.execRcpF64 f s
  | .sqrtF64 f => Sys2Proof.Machine.execSqrtF64 f s
  | .cvt f => Sys2Proof.Machine.execCvt f s
  | .cvtSr f => Sys2Proof.Machine.execCvtSr f s
  | .packE4m3 f => Sys2Proof.Machine.execPackE4m3 f s
  | .packE5m2 f => Sys2Proof.Machine.execPackE5m2 f s
  | .packE2m1 f => Sys2Proof.Machine.execPackE2m1 f s
  | .packI4 f => Sys2Proof.Machine.execPackI4 f s
  | .unpackE4m3 f => Sys2Proof.Machine.execUnpackE4m3 f s
  | .unpackE5m2 f => Sys2Proof.Machine.execUnpackE5m2 f s
  | .unpackE2m1 f => Sys2Proof.Machine.execUnpackE2m1 f s
  | .unpackI4 f => Sys2Proof.Machine.execUnpackI4 f s
  | .qblk f => Sys2Proof.Machine.execQblk f s
  | .dqblk f => Sys2Proof.Machine.execDqblk f s
  | .rngnext f => Sys2Proof.Machine.execRngnext f s
  | .rngseed f => Sys2Proof.Machine.execRngseed f s
  | .xlaneRot f => Sys2Proof.Machine.execXlaneRot f s
  | .xlaneShup f => Sys2Proof.Machine.execXlaneShup f s
  | .xlaneShdn f => Sys2Proof.Machine.execXlaneShdn f s
  | .xlaneIdx f => Sys2Proof.Machine.execXlaneIdx f s
  | .xbcast f => Sys2Proof.Machine.execXbcast f s
  | .bfly f => Sys2Proof.Machine.execBfly f s
  | .redAddI32 f => Sys2Proof.Machine.execRedAddI32 f s
  | .redMinI32 f => Sys2Proof.Machine.execRedMinI32 f s
  | .redMaxI32 f => Sys2Proof.Machine.execRedMaxI32 f s
  | .redAndB32 f => Sys2Proof.Machine.execRedAndB32 f s
  | .redOrB32 f => Sys2Proof.Machine.execRedOrB32 f s
  | .redXorB32 f => Sys2Proof.Machine.execRedXorB32 f s
  | .redAddF32 f => Sys2Proof.Machine.execRedAddF32 f s
  | .redMinF32 f => Sys2Proof.Machine.execRedMinF32 f s
  | .redMaxF32 f => Sys2Proof.Machine.execRedMaxF32 f s
  | .scanAddI32 f => Sys2Proof.Machine.execScanAddI32 f s
  | .scanMinI32 f => Sys2Proof.Machine.execScanMinI32 f s
  | .scanMaxI32 f => Sys2Proof.Machine.execScanMaxI32 f s
  | .scanAddF32 f => Sys2Proof.Machine.execScanAddF32 f s
  | .ballot f => Sys2Proof.Machine.execBallot f s
  | .any f => Sys2Proof.Machine.execAny f s
  | .all f => Sys2Proof.Machine.execAll f s
  | .matchLanes f => Sys2Proof.Machine.execMatchLanes f s
  | .topk f => Sys2Proof.Machine.execTopk f s
  | .bra f => Sys2Proof.Machine.execBra f s
  | .brx f => Sys2Proof.Machine.execBrx f s
  | .call f => Sys2Proof.Machine.execCall f s
  | .callx f => Sys2Proof.Machine.execCallx f s
  | .ret f => Sys2Proof.Machine.execRet f s
  | .join f => Sys2Proof.Machine.execJoin f s
  | .exit f => Sys2Proof.Machine.execExit f s
  | .loop f => Sys2Proof.Machine.execLoop f s
  | .pause f => Sys2Proof.Machine.execPause f s
  | .nop f => Sys2Proof.Machine.execNop f s
  | .ldN8 f => Sys2Proof.Machine.execLdN8 f s
  | .ldI8 f => Sys2Proof.Machine.execLdI8 f s
  | .ldN16 f => Sys2Proof.Machine.execLdN16 f s
  | .ldI16 f => Sys2Proof.Machine.execLdI16 f s
  | .ldB32 f => Sys2Proof.Machine.execLdB32 f s
  | .ldB64 f => Sys2Proof.Machine.execLdB64 f s
  | .ldB128 f => Sys2Proof.Machine.execLdB128 f s
  | .ldAcqB32 f => Sys2Proof.Machine.execLdAcqB32 f s
  | .ldAcqB64 f => Sys2Proof.Machine.execLdAcqB64 f s
  | .stB8 f => Sys2Proof.Machine.execStB8 f s
  | .stB16 f => Sys2Proof.Machine.execStB16 f s
  | .stB32 f => Sys2Proof.Machine.execStB32 f s
  | .stB64 f => Sys2Proof.Machine.execStB64 f s
  | .stB128 f => Sys2Proof.Machine.execStB128 f s
  | .stRelB32 f => Sys2Proof.Machine.execStRelB32 f s
  | .stRelB64 f => Sys2Proof.Machine.execStRelB64 f s
  | .stmask f => Sys2Proof.Machine.execStmask f s
  | .pfx f => Sys2Proof.Machine.execPfx f s
  | .pfd f => Sys2Proof.Machine.execPfd f s
  | .pcancel f => Sys2Proof.Machine.execPcancel f s
  | .ldN8O64 f => Sys2Proof.Machine.execLdN8O64 f s
  | .ldI8O64 f => Sys2Proof.Machine.execLdI8O64 f s
  | .ldN16O64 f => Sys2Proof.Machine.execLdN16O64 f s
  | .ldI16O64 f => Sys2Proof.Machine.execLdI16O64 f s
  | .ldB32O64 f => Sys2Proof.Machine.execLdB32O64 f s
  | .ldB64O64 f => Sys2Proof.Machine.execLdB64O64 f s
  | .ldB128O64 f => Sys2Proof.Machine.execLdB128O64 f s
  | .ldAcqB32O64 f => Sys2Proof.Machine.execLdAcqB32O64 f s
  | .ldAcqB64O64 f => Sys2Proof.Machine.execLdAcqB64O64 f s
  | .stB8O64 f => Sys2Proof.Machine.execStB8O64 f s
  | .stB16O64 f => Sys2Proof.Machine.execStB16O64 f s
  | .stB32O64 f => Sys2Proof.Machine.execStB32O64 f s
  | .stB64O64 f => Sys2Proof.Machine.execStB64O64 f s
  | .stB128O64 f => Sys2Proof.Machine.execStB128O64 f s
  | .stRelB32O64 f => Sys2Proof.Machine.execStRelB32O64 f s
  | .stRelB64O64 f => Sys2Proof.Machine.execStRelB64O64 f s
  | .stmaskO64 f => Sys2Proof.Machine.execStmaskO64 f s
  | .pfxO64 f => Sys2Proof.Machine.execPfxO64 f s
  | .pfdO64 f => Sys2Proof.Machine.execPfdO64 f s
  | .atomAddI32 f => Sys2Proof.Machine.execAtomAddI32 f s
  | .atomAddF32 f => Sys2Proof.Machine.execAtomAddF32 f s
  | .atomMinI32 f => Sys2Proof.Machine.execAtomMinI32 f s
  | .atomMaxI32 f => Sys2Proof.Machine.execAtomMaxI32 f s
  | .atomMinN32 f => Sys2Proof.Machine.execAtomMinN32 f s
  | .atomMaxN32 f => Sys2Proof.Machine.execAtomMaxN32 f s
  | .atomAndB32 f => Sys2Proof.Machine.execAtomAndB32 f s
  | .atomOrB32 f => Sys2Proof.Machine.execAtomOrB32 f s
  | .atomXorB32 f => Sys2Proof.Machine.execAtomXorB32 f s
  | .atomExchB32 f => Sys2Proof.Machine.execAtomExchB32 f s
  | .atomCasB32 f => Sys2Proof.Machine.execAtomCasB32 f s
  | .atomAddI64 f => Sys2Proof.Machine.execAtomAddI64 f s
  | .atomExchB64 f => Sys2Proof.Machine.execAtomExchB64 f s
  | .atomCasB64 f => Sys2Proof.Machine.execAtomCasB64 f s
  | .atomAddBf16x2 f => Sys2Proof.Machine.execAtomAddBf16x2 f s
  | .fence f => Sys2Proof.Machine.execFence f s
  | .bankopAddI32 f => Sys2Proof.Machine.execBankopAddI32 f s
  | .bankopAddF32 f => Sys2Proof.Machine.execBankopAddF32 f s
  | .bankopMinF32 f => Sys2Proof.Machine.execBankopMinF32 f s
  | .bankopMaxF32 f => Sys2Proof.Machine.execBankopMaxF32 f s
  | .bankopMulF32 f => Sys2Proof.Machine.execBankopMulF32 f s
  | .cp f => Sys2Proof.Machine.execCp f s
  | .cp2d f => Sys2Proof.Machine.execCp2d f s
  | .cp3d f => Sys2Proof.Machine.execCp3d f s
  | .cpScale f => Sys2Proof.Machine.execCpScale f s
  | .gather f => Sys2Proof.Machine.execGather f s
  | .scatter f => Sys2Proof.Machine.execScatter f s
  | .waitcCp f => Sys2Proof.Machine.execWaitcCp f s
  | .waitcGa f => Sys2Proof.Machine.execWaitcGa f s
  | .waitcMx f => Sys2Proof.Machine.execWaitcMx f s
  | .waitcFb f => Sys2Proof.Machine.execWaitcFb f s
  | .arrinit f => Sys2Proof.Machine.execArrinit f s
  | .arrw f => Sys2Proof.Machine.execArrw f s
  | .arrrd f => Sys2Proof.Machine.execArrrd f s
  | .tsig f => Sys2Proof.Machine.execTsig f s
  | .fput f => Sys2Proof.Machine.execFput f s
  | .fget f => Sys2Proof.Machine.execFget f s
  | .fatom f => Sys2Proof.Machine.execFatom f s
  | .fmark f => Sys2Proof.Machine.execFmark f s
  | .fldred f => Sys2Proof.Machine.execFldred f s
  | .fstmc f => Sys2Proof.Machine.execFstmc f s
  | .tshape f => Sys2Proof.Machine.execTshape f s
  | .mmaE4m3 f => Sys2Proof.Machine.execMmaE4m3 f s
  | .mmaE5m2 f => Sys2Proof.Machine.execMmaE5m2 f s
  | .mmaE4e5 f => Sys2Proof.Machine.execMmaE4e5 f s
  | .mmaE5e4 f => Sys2Proof.Machine.execMmaE5e4 f s
  | .mmaE2m1 f => Sys2Proof.Machine.execMmaE2m1 f s
  | .mmaBf16 f => Sys2Proof.Machine.execMmaBf16 f s
  | .mmaF16 f => Sys2Proof.Machine.execMmaF16 f s
  | .mmaI8 f => Sys2Proof.Machine.execMmaI8 f s
  | .mmaT5 f => Sys2Proof.Machine.execMmaT5 f s
  | .mmasE4m3 f => Sys2Proof.Machine.execMmasE4m3 f s
  | .mmasE5m2 f => Sys2Proof.Machine.execMmasE5m2 f s
  | .mmasE2m1 f => Sys2Proof.Machine.execMmasE2m1 f s
  | .mmasBf16 f => Sys2Proof.Machine.execMmasBf16 f s
  | .mmasF16 f => Sys2Proof.Machine.execMmasF16 f s
  | .mmasI8 f => Sys2Proof.Machine.execMmasI8 f s
  | .msacc f => Sys2Proof.Machine.execMsacc f s
  | .mzero f => Sys2Proof.Machine.execMzero f s
  | .acca f => Sys2Proof.Machine.execAcca f s
  | .accf f => Sys2Proof.Machine.execAccf f s
  | .accld f => Sys2Proof.Machine.execAccld f s
  | .accst f => Sys2Proof.Machine.execAccst f s
  | .bucket f => Sys2Proof.Machine.execBucket f s
  | .bar f => Sys2Proof.Machine.execBar f s
  | .barArrive f => Sys2Proof.Machine.execBarArrive f s
  | .barWait f => Sys2Proof.Machine.execBarWait f s
  | .cbar f => Sys2Proof.Machine.execCbar f s
  | .gate f => Sys2Proof.Machine.execGate f s
  | .gret f => Sys2Proof.Machine.execGret f s
  | .trap f => Sys2Proof.Machine.execTrap f s
  | .tret f => Sys2Proof.Machine.execTret f s
  | .brk f => Sys2Proof.Machine.execBrk f s
  | .ifence f => Sys2Proof.Machine.execIfence f s
  | .gets f => Sys2Proof.Machine.execGets f s
  | .sets f => Sys2Proof.Machine.execSets f s
  | .launch f => Sys2Proof.Machine.execLaunch f s
  | .yield f => Sys2Proof.Machine.execYield f s
  | .hvhintRecall f => Sys2Proof.Machine.execHvhintRecall f s
  | .hvhintLend f => Sys2Proof.Machine.execHvhintLend f s
  | .getsp f => Sys2Proof.Machine.execGetsp f s
  | .setsp f => Sys2Proof.Machine.execSetsp f s
  | .icinv f => Sys2Proof.Machine.execIcinv f s
  | .cwb f => Sys2Proof.Machine.execCwb f s
  | .cinv f => Sys2Proof.Machine.execCinv f s
  | .tlbinvVa f => Sys2Proof.Machine.execTlbinvVa f s
  | .tlbinvAsid f => Sys2Proof.Machine.execTlbinvAsid f s
  | .tlbinvAll f => Sys2Proof.Machine.execTlbinvAll f s
  | .sigh f => Sys2Proof.Machine.execSigh f s
  | .coxNop f => Sys2Proof.Machine.execCoxNop f s
  | .coxHalt f => Sys2Proof.Machine.execCoxHalt f s
  | .coxYield f => Sys2Proof.Machine.execCoxYield f s
  | .coxAbort f => Sys2Proof.Machine.execCoxAbort f s
  | .coxTrap f => Sys2Proof.Machine.execCoxTrap f s
  | .coxMov f => Sys2Proof.Machine.execCoxMov f s
  | .coxAdd f => Sys2Proof.Machine.execCoxAdd f s
  | .coxSub f => Sys2Proof.Machine.execCoxSub f s
  | .coxAnd f => Sys2Proof.Machine.execCoxAnd f s
  | .coxOr f => Sys2Proof.Machine.execCoxOr f s
  | .coxShl f => Sys2Proof.Machine.execCoxShl f s
  | .coxShr f => Sys2Proof.Machine.execCoxShr f s
  | .coxMovi f => Sys2Proof.Machine.execCoxMovi f s
  | .coxAddi f => Sys2Proof.Machine.execCoxAddi f s
  | .coxBr f => Sys2Proof.Machine.execCoxBr f s
  | .coxBeq f => Sys2Proof.Machine.execCoxBeq f s
  | .coxBne f => Sys2Proof.Machine.execCoxBne f s
  | .coxBlt f => Sys2Proof.Machine.execCoxBlt f s
  | .coxBge f => Sys2Proof.Machine.execCoxBge f s
  | .coxLoop f => Sys2Proof.Machine.execCoxLoop f s
  | .coxSend f => Sys2Proof.Machine.execCoxSend f s
  | .coxPost f => Sys2Proof.Machine.execCoxPost f s
  | .coxRecv f => Sys2Proof.Machine.execCoxRecv f s
  | .coxComb f => Sys2Proof.Machine.execCoxComb f s
  | .coxCombf f => Sys2Proof.Machine.execCoxCombf f s
  | .coxFwd f => Sys2Proof.Machine.execCoxFwd f s
  | .coxWaitf f => Sys2Proof.Machine.execCoxWaitf f s
  | .coxSigf f => Sys2Proof.Machine.execCoxSigf f s
  | .instructionCompletion crew flight => Sys2Proof.Machine.execInstructionCompletion crew flight s
  | .faultRecordRetry ix => Sys2Proof.Machine.execFaultRecordRetry ix s
  | .faultQueueWriteRetry ix => Sys2Proof.Machine.execFaultQueueWriteRetry ix s
  | .engineOperationRetire id => Sys2Proof.Machine.execEngineOperationRetire id s
  | .tsigAdd id => Sys2Proof.Machine.execTsigAdd id s
  | .tileSliceStart core => Sys2Proof.Machine.execTileSliceStart core s
  | .tileTaskRetire id slice => Sys2Proof.Machine.execTileTaskRetire id slice s
  | .accaGrant core => Sys2Proof.Machine.execAccaGrant core s
  | .accfUnitRelease ix => Sys2Proof.Machine.execAccfUnitRelease ix s
  | .umpireTimeout blk cl id => Sys2Proof.Machine.execUmpireTimeout blk cl id s
  | .gateBudgetExpire crew level => Sys2Proof.Machine.execGateBudgetExpire crew level s
  | .pauseExpire crew => Sys2Proof.Machine.execPauseExpire crew s
  | .spinHandoff blk vcore => Sys2Proof.Machine.execSpinHandoff blk vcore s
  | .pfdDeadlineDrop core order => Sys2Proof.Machine.execPfdDeadlineDrop core order s
  | .launchAdmission id => Sys2Proof.Machine.execLaunchAdmission id s
  | .launchDeadlineExpire id => Sys2Proof.Machine.execLaunchDeadlineExpire id s
  | .blockPlacement launch first cores quads vcores out => Sys2Proof.Machine.execBlockPlacement launch first cores quads vcores out s
  | .crewRetire crew => Sys2Proof.Machine.execCrewRetire crew s
  | .blockRetire blk => Sys2Proof.Machine.execBlockRetire blk s
  | .blockMigration blk core quads => Sys2Proof.Machine.execBlockMigration blk core quads s
  | .contextPreempt ctx => Sys2Proof.Machine.execContextPreempt ctx s
  | .contextImageComplete ctx vcore => Sys2Proof.Machine.execContextImageComplete ctx vcore s
  | .contextRestore ctx cores quads => Sys2Proof.Machine.execContextRestore ctx cores quads s
  | .harvestInterference core => Sys2Proof.Machine.execHarvestInterference core s
  | .harvestRevocation core => Sys2Proof.Machine.execHarvestRevocation core s
  | .harvestParkComplete core => Sys2Proof.Machine.execHarvestParkComplete core s
  | .harvestResume blk quads => Sys2Proof.Machine.execHarvestResume blk quads s
  | .harvestEvict blk => Sys2Proof.Machine.execHarvestEvict blk s
  | .remoteWriteApply ix => Sys2Proof.Machine.execRemoteWriteApply ix s
  | .replicaApply ix => Sys2Proof.Machine.execReplicaApply ix s
  | .packetForward ix => Sys2Proof.Machine.execPacketForward ix s
  | .write ix => Sys2Proof.Machine.execWrite ix s
  | .readreq ix => Sys2Proof.Machine.execReadreq ix s
  | .readrsp ix => Sys2Proof.Machine.execReadrsp ix s
  | .atomic ix => Sys2Proof.Machine.execAtomic ix s
  | .marker ix => Sys2Proof.Machine.execMarker ix s
  | .markack ix => Sys2Proof.Machine.execMarkack ix s
  | .probe ix => Sys2Proof.Machine.execProbe ix s
  | .probeack ix => Sys2Proof.Machine.execProbeack ix s
  | .reduce ix => Sys2Proof.Machine.execReduce ix s
  | .redrsp ix => Sys2Proof.Machine.execRedrsp ix s
  | .chunk ix => Sys2Proof.Machine.execChunk ix s
  | .start ix => Sys2Proof.Machine.execStart ix s
  | .abort ix => Sys2Proof.Machine.execAbort ix s
  | .abortack ix => Sys2Proof.Machine.execAbortack ix s
  | .refuse ix => Sys2Proof.Machine.execRefuse ix s
  | .fabricResponseTimeout id => Sys2Proof.Machine.execFabricResponseTimeout id s
  | .portDown p back => Sys2Proof.Machine.execPortDown p back s
  | .portTraining p ok peer => Sys2Proof.Machine.execPortTraining p ok peer s
  | .portAutoRetrain p => Sys2Proof.Machine.execPortAutoRetrain p s
  | .linkStateAnnouncement k ix up => Sys2Proof.Machine.execLinkStateAnnouncement k ix up s
  | .keyExchangeMessage p ok => Sys2Proof.Machine.execKeyExchangeMessage p ok s
  | .frameSend p ch hops => Sys2Proof.Machine.execFrameSend p ch hops s
  | .frameReceive p ok sel hdr data bad side => Sys2Proof.Machine.execFrameReceive p ok sel hdr data bad side s
  | .coxWaitSatisfied port k => Sys2Proof.Machine.execCoxWaitSatisfied port k s
  | .coxSpinFault port => Sys2Proof.Machine.execCoxSpinFault port s
  | .coxRefusalTimeout port k => Sys2Proof.Machine.execCoxRefusalTimeout port k s
  | .coxStartSlotFree port => Sys2Proof.Machine.execCoxStartSlotFree port s
  | .coxStartHoldTimeout port => Sys2Proof.Machine.execCoxStartHoldTimeout port s
  | .coxDescriptorLoadComplete port k => Sys2Proof.Machine.execCoxDescriptorLoadComplete port k s
  | .startWindowTimeout ix => Sys2Proof.Machine.execStartWindowTimeout ix s
  | .bootl pa => Sys2Proof.Machine.execBootl pa s
  | .frespResume dom owner seq => Sys2Proof.Machine.execFrespResume dom owner seq s
  | .frespDecline dom owner seq => Sys2Proof.Machine.execFrespDecline dom owner seq s
  | .frespTerminate dom owner seq => Sys2Proof.Machine.execFrespTerminate dom owner seq s
  | .mgmtRegisterWrite bar off wide v => Sys2Proof.Machine.execMgmtRegisterWrite bar off wide v s
  | .addressGroupWrite g w v => Sys2Proof.Machine.execAddressGroupWrite g w v s
  | .startGo ix group => Sys2Proof.Machine.execStartGo ix group s
  | .coxInstructionMemoryWrite port w v => Sys2Proof.Machine.execCoxInstructionMemoryWrite port w v s
  | .coxRegionWrite port ix v => Sys2Proof.Machine.execCoxRegionWrite port ix v s
  | .coxSlotStateWrite port k r v => Sys2Proof.Machine.execCoxSlotStateWrite port k r v s
  | .ctlResume port k => Sys2Proof.Machine.execCtlResume port k s
  | .ctlStep port k => Sys2Proof.Machine.execCtlStep port k s
  | .ctlKill port k => Sys2Proof.Machine.execCtlKill port k s
  | .getid => Sys2Proof.Machine.execGetid s
  | .attest => Sys2Proof.Machine.execAttest s
  | .kdopen => Sys2Proof.Machine.execKdopen s
  | .kdseal => Sys2Proof.Machine.execKdseal s
  | .kdclose => Sys2Proof.Machine.execKdclose s
  | .kdmap => Sys2Proof.Machine.execKdmap s
  | .rekey => Sys2Proof.Machine.execRekey s
  | .mpcset => Sys2Proof.Machine.execMpcset s
  | .mpcjoin => Sys2Proof.Machine.execMpcjoin s
  | .revoke => Sys2Proof.Machine.execRevoke s
  | .fwstage => Sys2Proof.Machine.execFwstage s
  | .fwcommit => Sys2Proof.Machine.execFwcommit s
  | .secpCommandComplete => Sys2Proof.Machine.execSecpCommandComplete s
  | .fabcfg v => Sys2Proof.Machine.execFabcfg v s
  | .portctlAdmdn p v => Sys2Proof.Machine.execPortctlAdmdn p v s
  | .portctlRetrain p => Sys2Proof.Machine.execPortctlRetrain p s
  | .portctlMapv p v lport => Sys2Proof.Machine.execPortctlMapv p v lport s
  | .rasclr => Sys2Proof.Machine.execRasclr s
  | .bar2Write off data => Sys2Proof.Machine.execBar2Write off data s
  | .bar2Read off len => Sys2Proof.Machine.execBar2Read off len s
  | .enterD3hot => Sys2Proof.Machine.execEnterD3hot s
  | .leaveD3hot => Sys2Proof.Machine.execLeaveD3hot s
  | .perstDeassert => Sys2Proof.Machine.execPerstDeassert s
  | .firmwareVerify imgs => Sys2Proof.Machine.execFirmwareVerify imgs s
  | .secureTrainingComplete memOk coresOk linkOk => Sys2Proof.Machine.execSecureTrainingComplete memOk coresOk linkOk s
  | .fullServiceTransition dieUp stackUp cxlUp => Sys2Proof.Machine.execFullServiceTransition dieUp stackUp cxlUp s
  | .clockStep avg pkg dies temps hbm => Sys2Proof.Machine.execClockStep avg pkg dies temps hbm s
  | .thermtrip => Sys2Proof.Machine.execThermtrip s
  | .powerRemoval => Sys2Proof.Machine.execPowerRemoval s
  | .patrolScrub line kind => Sys2Proof.Machine.execPatrolScrub line kind s
  | .onCoreUncorrectable core crew blk => Sys2Proof.Machine.execOnCoreUncorrectable core crew blk s
  | .cxlLinkDown p lost => Sys2Proof.Machine.execCxlLinkDown p lost s
  | .illop opc rest => Sys2Proof.Machine.execIllop opc rest s
  | .coxIllop opc rest => Sys2Proof.Machine.execCoxIllop opc rest s
  | .perstAssert => Sys2Proof.Machine.execPerstAssert s
  | .msixVectorUnmask v => Sys2Proof.Machine.execMsixVectorUnmask v s
  | .hbmStackEntersService stack ok => Sys2Proof.Machine.execHbmStackEntersService stack ok s
  | .prefetchComplete core n => Sys2Proof.Machine.execPrefetchComplete core n s

end Sys2Proof.Machine
end

