-- ==== Sys2Proof/Machine/RunWord.lean ====
section
/-!
DEFINITION. RunWord.lean: executing a word. `runCrew` and `runCox` are `exec` of the decoded word; the tables below say the same
without building the instruction, so that the machine can be run (see Decode).
-/

namespace Sys2Proof.Machine

open Sys2Proof

/-- Execute the instruction of a 96-bit word. -/
noncomputable def runCrew (w : BitVec 96) (s : State) : Out := exec (decodeCrew w) s
/-- Execute the instruction of a 64-bit cox word. -/
noncomputable def runCox (w : BitVec 64) (s : State) : Out := exec (decodeCox w) s

/-- A word whose OPC is unassigned. -/
def runIllop (w : BitVec 96) (s : State) : Out := execIllop (w.extractLsb' 86 10) (w.extractLsb' 0 86) s
/-- The two rows of hvhint. -/
def runHvhint (f : FormS) (s : State) : Out := if f.body.getLsbD 0 then execHvhintLend f s else execHvhintRecall f s

/-- Class 0x0, executed. -/
def runClass0 (op : Nat) (w : BitVec 96) (s : State) : Out :=
  match op with
  | 0x00 => execIaddI32 (FormR.ofWord w) s
  | 0x01 => execIsubI32 (FormR.ofWord w) s
  | 0x02 => execIadd3I32 (FormR.ofWord w) s
  | 0x03 => execIaddcI32 (FormX.ofWord w) s
  | 0x04 => execIsubbI32 (FormX.ofWord w) s
  | 0x05 => execImulI32 (FormR.ofWord w) s
  | 0x06 => execImulhiI32 (FormR.ofWord w) s
  | 0x07 => execImulhiN32 (FormR.ofWord w) s
  | 0x08 => execImadI32 (FormR.ofWord w) s
  | 0x09 => execImadwI32 (FormR.ofWord w) s
  | 0x0A => execImadwN32 (FormR.ofWord w) s
  | 0x0B => execIminI32 (FormR.ofWord w) s
  | 0x0C => execImaxI32 (FormR.ofWord w) s
  | 0x0D => execIminN32 (FormR.ofWord w) s
  | 0x0E => execImaxN32 (FormR.ofWord w) s
  | 0x10 => execIaddI64 (FormR.ofWord w) s
  | 0x11 => execIsubI64 (FormR.ofWord w) s
  | 0x12 => execLea (FormR.ofWord w) s
  | 0x13 => execIaddiI32 (FormI.ofWord w) s
  | 0x14 => execIaddiI64 (FormI.ofWord w) s
  | 0x15 => execImuliI32 (FormI.ofWord w) s
  | _ => runIllop w s
theorem exec_decodeClass0 (op : Nat) (w : BitVec 96) (s : State) : exec (decodeClass0 op w) s = runClass0 op w s := by
  unfold decodeClass0 runClass0
  split
  case h_22 => first | rfl | (split <;> first | contradiction | rfl)
  all_goals rfl

/-- Class 0x1, executed. -/
def runClass1 (op : Nat) (w : BitVec 96) (s : State) : Out :=
  match op with
  | 0x00 => execAndB32 (FormR.ofWord w) s
  | 0x01 => execOrB32 (FormR.ofWord w) s
  | 0x02 => execXorB32 (FormR.ofWord w) s
  | 0x03 => execAndnB32 (FormR.ofWord w) s
  | 0x04 => execNotB32 (FormR.ofWord w) s
  | 0x05 => execShlB32 (FormR.ofWord w) s
  | 0x06 => execShrN32 (FormR.ofWord w) s
  | 0x07 => execShrI32 (FormR.ofWord w) s
  | 0x08 => execRotlB32 (FormR.ofWord w) s
  | 0x09 => execRotrB32 (FormR.ofWord w) s
  | 0x0A => execShlB64 (FormR.ofWord w) s
  | 0x0B => execShrN64 (FormR.ofWord w) s
  | 0x0C => execShrI64 (FormR.ofWord w) s
  | 0x0D => execBfeN32 (FormR.ofWord w) s
  | 0x0E => execBfeI32 (FormR.ofWord w) s
  | 0x0F => execBfiB32 (FormX.ofWord w) s
  | 0x10 => execPopcB32 (FormR.ofWord w) s
  | 0x11 => execClzB32 (FormR.ofWord w) s
  | 0x12 => execCtzB32 (FormR.ofWord w) s
  | 0x13 => execBrevB32 (FormR.ofWord w) s
  | 0x14 => execBswB32 (FormR.ofWord w) s
  | 0x15 => execMovB32 (FormR.ofWord w) s
  | 0x16 => execMoviB32 (FormI.ofWord w) s
  | 0x17 => execSelB32 (FormR.ofWord w) s
  | 0x18 => execBselB32 (FormR.ofWord w) s
  | 0x19 => execAndiB32 (FormI.ofWord w) s
  | 0x1A => execOriB32 (FormI.ofWord w) s
  | 0x1B => execXoriB32 (FormI.ofWord w) s
  | 0x20 => execCmpEqB32 (FormI.ofWord w) s
  | 0x21 => execCmpNeB32 (FormI.ofWord w) s
  | 0x22 => execCmpLtI32 (FormI.ofWord w) s
  | 0x23 => execCmpLeI32 (FormI.ofWord w) s
  | 0x24 => execCmpGtI32 (FormI.ofWord w) s
  | 0x25 => execCmpGeI32 (FormI.ofWord w) s
  | 0x26 => execCmpLtN32 (FormI.ofWord w) s
  | 0x27 => execCmpLeN32 (FormI.ofWord w) s
  | 0x28 => execCmpGtN32 (FormI.ofWord w) s
  | 0x29 => execCmpGeN32 (FormI.ofWord w) s
  | 0x30 => execQdef (FormI.ofWord w) s
  | 0x31 => execQfree (FormI.ofWord w) s
  | _ => runIllop w s
theorem exec_decodeClass1 (op : Nat) (w : BitVec 96) (s : State) : exec (decodeClass1 op w) s = runClass1 op w s := by
  unfold decodeClass1 runClass1
  split
  case h_41 => first | rfl | (split <;> first | contradiction | rfl)
  all_goals rfl

/-- Class 0x2, executed. -/
def runClass2 (op : Nat) (w : BitVec 96) (s : State) : Out :=
  match op with
  | 0x00 => execFaddF32 (FormR.ofWord w) s
  | 0x01 => execFsubF32 (FormR.ofWord w) s
  | 0x02 => execFmulF32 (FormR.ofWord w) s
  | 0x03 => execFfmaF32 (FormR.ofWord w) s
  | 0x04 => execFminF32 (FormR.ofWord w) s
  | 0x05 => execFmaxF32 (FormR.ofWord w) s
  | 0x06 => execFmuliF32 (FormI.ofWord w) s
  | 0x07 => execFaddiF32 (FormI.ofWord w) s
  | 0x08 => execFclsF32 (FormR.ofWord w) s
  | 0x10 => execFcmpEqF32 (FormI.ofWord w) s
  | 0x11 => execFcmpNeF32 (FormI.ofWord w) s
  | 0x12 => execFcmpLtF32 (FormI.ofWord w) s
  | 0x13 => execFcmpLeF32 (FormI.ofWord w) s
  | 0x14 => execFcmpGtF32 (FormI.ofWord w) s
  | 0x15 => execFcmpGeF32 (FormI.ofWord w) s
  | 0x16 => execFcmpUnF32 (FormI.ofWord w) s
  | 0x17 => execFcmpOrF32 (FormI.ofWord w) s
  | _ => runIllop w s
theorem exec_decodeClass2 (op : Nat) (w : BitVec 96) (s : State) : exec (decodeClass2 op w) s = runClass2 op w s := by
  unfold decodeClass2 runClass2
  split
  case h_18 => first | rfl | (split <;> first | contradiction | rfl)
  all_goals rfl

/-- Class 0x3, executed. -/
def runClass3 (op : Nat) (w : BitVec 96) (s : State) : Out :=
  match op with
  | 0x00 => execHaddF16x2 (FormR.ofWord w) s
  | 0x01 => execHmulF16x2 (FormR.ofWord w) s
  | 0x02 => execHfmaF16x2 (FormR.ofWord w) s
  | 0x03 => execHminF16x2 (FormR.ofWord w) s
  | 0x04 => execHmaxF16x2 (FormR.ofWord w) s
  | 0x08 => execHaddBf16x2 (FormR.ofWord w) s
  | 0x09 => execHmulBf16x2 (FormR.ofWord w) s
  | 0x0A => execHfmaBf16x2 (FormR.ofWord w) s
  | 0x0B => execHminBf16x2 (FormR.ofWord w) s
  | 0x0C => execHmaxBf16x2 (FormR.ofWord w) s
  | 0x20 => execVaddI16x2 (FormR.ofWord w) s
  | 0x21 => execVsubI16x2 (FormR.ofWord w) s
  | 0x22 => execVaddI8x4 (FormR.ofWord w) s
  | 0x23 => execVsubI8x4 (FormR.ofWord w) s
  | 0x24 => execVminI16x2 (FormR.ofWord w) s
  | 0x25 => execVmaxI16x2 (FormR.ofWord w) s
  | 0x26 => execVminI8x4 (FormR.ofWord w) s
  | 0x27 => execVmaxI8x4 (FormR.ofWord w) s
  | 0x28 => execVminN8x4 (FormR.ofWord w) s
  | 0x29 => execVmaxN8x4 (FormR.ofWord w) s
  | 0x2A => execVaddsatI16x2 (FormR.ofWord w) s
  | 0x2B => execVaddsatI8x4 (FormR.ofWord w) s
  | 0x30 => execDp4I8x4 (FormR.ofWord w) s
  | 0x31 => execDp4N8x4 (FormR.ofWord w) s
  | 0x32 => execDp2I16x2 (FormR.ofWord w) s
  | 0x33 => execDp8I4x8 (FormR.ofWord w) s
  | _ => runIllop w s
theorem exec_decodeClass3 (op : Nat) (w : BitVec 96) (s : State) : exec (decodeClass3 op w) s = runClass3 op w s := by
  unfold decodeClass3 runClass3
  split
  case h_27 => first | rfl | (split <;> first | contradiction | rfl)
  all_goals rfl

/-- Class 0x4, executed. -/
def runClass4 (op : Nat) (w : BitVec 96) (s : State) : Out :=
  match op with
  | 0x00 => execDaddF64 (FormR.ofWord w) s
  | 0x01 => execDsubF64 (FormR.ofWord w) s
  | 0x02 => execDmulF64 (FormR.ofWord w) s
  | 0x03 => execDfmaF64 (FormR.ofWord w) s
  | 0x04 => execDminF64 (FormR.ofWord w) s
  | 0x05 => execDmaxF64 (FormR.ofWord w) s
  | 0x06 => execDclsF64 (FormR.ofWord w) s
  | 0x10 => execDcmpEqF64 (FormI.ofWord w) s
  | 0x11 => execDcmpNeF64 (FormI.ofWord w) s
  | 0x12 => execDcmpLtF64 (FormI.ofWord w) s
  | 0x13 => execDcmpLeF64 (FormI.ofWord w) s
  | 0x14 => execDcmpGtF64 (FormI.ofWord w) s
  | 0x15 => execDcmpGeF64 (FormI.ofWord w) s
  | 0x16 => execDcmpUnF64 (FormI.ofWord w) s
  | 0x17 => execDcmpOrF64 (FormI.ofWord w) s
  | _ => runIllop w s
theorem exec_decodeClass4 (op : Nat) (w : BitVec 96) (s : State) : exec (decodeClass4 op w) s = runClass4 op w s := by
  unfold decodeClass4 runClass4
  split
  case h_16 => first | rfl | (split <;> first | contradiction | rfl)
  all_goals rfl

/-- Class 0x5, executed. -/
def runClass5 (op : Nat) (w : BitVec 96) (s : State) : Out :=
  match op with
  | 0x00 => execRcpF32 (FormR.ofWord w) s
  | 0x01 => execRsqrtF32 (FormR.ofWord w) s
  | 0x02 => execSqrtF32 (FormR.ofWord w) s
  | 0x03 => execExp2F32 (FormR.ofWord w) s
  | 0x04 => execLog2F32 (FormR.ofWord w) s
  | 0x05 => execSinF32 (FormR.ofWord w) s
  | 0x06 => execCosF32 (FormR.ofWord w) s
  | 0x07 => execTanhF32 (FormR.ofWord w) s
  | 0x08 => execRcpF64 (FormR.ofWord w) s
  | 0x09 => execSqrtF64 (FormR.ofWord w) s
  | 0x10 => execCvt (FormI.ofWord w) s
  | 0x11 => execCvtSr (FormI.ofWord w) s
  | 0x12 => execPackE4m3 (FormX.ofWord w) s
  | 0x13 => execPackE5m2 (FormX.ofWord w) s
  | 0x14 => execPackE2m1 (FormX.ofWord w) s
  | 0x15 => execPackI4 (FormX.ofWord w) s
  | 0x16 => execUnpackE4m3 (FormR.ofWord w) s
  | 0x17 => execUnpackE5m2 (FormR.ofWord w) s
  | 0x18 => execUnpackE2m1 (FormR.ofWord w) s
  | 0x19 => execUnpackI4 (FormR.ofWord w) s
  | 0x20 => execQblk (FormR.ofWord w) s
  | 0x21 => execDqblk (FormR.ofWord w) s
  | 0x28 => execRngnext (FormR.ofWord w) s
  | 0x29 => execRngseed (FormR.ofWord w) s
  | _ => runIllop w s
theorem exec_decodeClass5 (op : Nat) (w : BitVec 96) (s : State) : exec (decodeClass5 op w) s = runClass5 op w s := by
  unfold decodeClass5 runClass5
  split
  case h_25 => first | rfl | (split <;> first | contradiction | rfl)
  all_goals rfl

/-- Class 0x6, executed. -/
def runClass6 (op : Nat) (w : BitVec 96) (s : State) : Out :=
  match op with
  | 0x00 => execXlaneRot (FormI.ofWord w) s
  | 0x01 => execXlaneShup (FormI.ofWord w) s
  | 0x02 => execXlaneShdn (FormI.ofWord w) s
  | 0x03 => execXlaneIdx (FormI.ofWord w) s
  | 0x04 => execXbcast (FormI.ofWord w) s
  | 0x05 => execBfly (FormI.ofWord w) s
  | 0x08 => execRedAddI32 (FormI.ofWord w) s
  | 0x09 => execRedMinI32 (FormI.ofWord w) s
  | 0x0A => execRedMaxI32 (FormI.ofWord w) s
  | 0x0B => execRedAndB32 (FormI.ofWord w) s
  | 0x0C => execRedOrB32 (FormI.ofWord w) s
  | 0x0D => execRedXorB32 (FormI.ofWord w) s
  | 0x0E => execRedAddF32 (FormI.ofWord w) s
  | 0x0F => execRedMinF32 (FormI.ofWord w) s
  | 0x10 => execRedMaxF32 (FormI.ofWord w) s
  | 0x14 => execScanAddI32 (FormI.ofWord w) s
  | 0x15 => execScanMinI32 (FormI.ofWord w) s
  | 0x16 => execScanMaxI32 (FormI.ofWord w) s
  | 0x17 => execScanAddF32 (FormI.ofWord w) s
  | 0x18 => execBallot (FormI.ofWord w) s
  | 0x19 => execAny (FormI.ofWord w) s
  | 0x1A => execAll (FormI.ofWord w) s
  | 0x1B => execMatchLanes (FormI.ofWord w) s
  | 0x20 => execTopk (FormI.ofWord w) s
  | _ => runIllop w s
theorem exec_decodeClass6 (op : Nat) (w : BitVec 96) (s : State) : exec (decodeClass6 op w) s = runClass6 op w s := by
  unfold decodeClass6 runClass6
  split
  case h_25 => first | rfl | (split <;> first | contradiction | rfl)
  all_goals rfl

/-- Class 0x7, executed. -/
def runClass7 (op : Nat) (w : BitVec 96) (s : State) : Out :=
  match op with
  | 0x00 => execBra (FormB.ofWord w) s
  | 0x01 => execBrx (FormB.ofWord w) s
  | 0x02 => execCall (FormB.ofWord w) s
  | 0x03 => execCallx (FormB.ofWord w) s
  | 0x04 => execRet (FormB.ofWord w) s
  | 0x05 => execJoin (FormS.ofWord w) s
  | 0x06 => execExit (FormS.ofWord w) s
  | 0x07 => execLoop (FormB.ofWord w) s
  | 0x08 => execPause (FormI.ofWord w) s
  | 0x09 => execNop (FormS.ofWord w) s
  | _ => runIllop w s
theorem exec_decodeClass7 (op : Nat) (w : BitVec 96) (s : State) : exec (decodeClass7 op w) s = runClass7 op w s := by
  unfold decodeClass7 runClass7
  split
  case h_11 => first | rfl | (split <;> first | contradiction | rfl)
  all_goals rfl

/-- Class 0x8, executed. -/
def runClass8 (op : Nat) (w : BitVec 96) (s : State) : Out :=
  match op with
  | 0x00 => execLdN8 (FormM.ofWord w) s
  | 0x01 => execLdI8 (FormM.ofWord w) s
  | 0x02 => execLdN16 (FormM.ofWord w) s
  | 0x03 => execLdI16 (FormM.ofWord w) s
  | 0x04 => execLdB32 (FormM.ofWord w) s
  | 0x05 => execLdB64 (FormM.ofWord w) s
  | 0x06 => execLdB128 (FormM.ofWord w) s
  | 0x07 => execLdAcqB32 (FormM.ofWord w) s
  | 0x08 => execLdAcqB64 (FormM.ofWord w) s
  | 0x10 => execStB8 (FormM.ofWord w) s
  | 0x11 => execStB16 (FormM.ofWord w) s
  | 0x12 => execStB32 (FormM.ofWord w) s
  | 0x13 => execStB64 (FormM.ofWord w) s
  | 0x14 => execStB128 (FormM.ofWord w) s
  | 0x15 => execStRelB32 (FormM.ofWord w) s
  | 0x16 => execStRelB64 (FormM.ofWord w) s
  | 0x17 => execStmask (FormM.ofWord w) s
  | 0x18 => execPfx (FormM.ofWord w) s
  | 0x19 => execPfd (FormM.ofWord w) s
  | 0x1A => execPcancel (FormR.ofWord w) s
  | 0x20 => execLdN8O64 (FormM.ofWord w) s
  | 0x21 => execLdI8O64 (FormM.ofWord w) s
  | 0x22 => execLdN16O64 (FormM.ofWord w) s
  | 0x23 => execLdI16O64 (FormM.ofWord w) s
  | 0x24 => execLdB32O64 (FormM.ofWord w) s
  | 0x25 => execLdB64O64 (FormM.ofWord w) s
  | 0x26 => execLdB128O64 (FormM.ofWord w) s
  | 0x27 => execLdAcqB32O64 (FormM.ofWord w) s
  | 0x28 => execLdAcqB64O64 (FormM.ofWord w) s
  | 0x30 => execStB8O64 (FormM.ofWord w) s
  | 0x31 => execStB16O64 (FormM.ofWord w) s
  | 0x32 => execStB32O64 (FormM.ofWord w) s
  | 0x33 => execStB64O64 (FormM.ofWord w) s
  | 0x34 => execStB128O64 (FormM.ofWord w) s
  | 0x35 => execStRelB32O64 (FormM.ofWord w) s
  | 0x36 => execStRelB64O64 (FormM.ofWord w) s
  | 0x37 => execStmaskO64 (FormM.ofWord w) s
  | 0x38 => execPfxO64 (FormM.ofWord w) s
  | 0x39 => execPfdO64 (FormM.ofWord w) s
  | _ => runIllop w s
theorem exec_decodeClass8 (op : Nat) (w : BitVec 96) (s : State) : exec (decodeClass8 op w) s = runClass8 op w s := by
  unfold decodeClass8 runClass8
  split
  case h_40 => first | rfl | (split <;> first | contradiction | rfl)
  all_goals rfl

/-- Class 0x9, executed. -/
def runClass9 (op : Nat) (w : BitVec 96) (s : State) : Out :=
  match op with
  | 0x00 => execAtomAddI32 (FormM.ofWord w) s
  | 0x01 => execAtomAddF32 (FormM.ofWord w) s
  | 0x02 => execAtomMinI32 (FormM.ofWord w) s
  | 0x03 => execAtomMaxI32 (FormM.ofWord w) s
  | 0x04 => execAtomMinN32 (FormM.ofWord w) s
  | 0x05 => execAtomMaxN32 (FormM.ofWord w) s
  | 0x06 => execAtomAndB32 (FormM.ofWord w) s
  | 0x07 => execAtomOrB32 (FormM.ofWord w) s
  | 0x08 => execAtomXorB32 (FormM.ofWord w) s
  | 0x09 => execAtomExchB32 (FormM.ofWord w) s
  | 0x0A => execAtomCasB32 (FormM.ofWord w) s
  | 0x0B => execAtomAddI64 (FormM.ofWord w) s
  | 0x0C => execAtomExchB64 (FormM.ofWord w) s
  | 0x0D => execAtomCasB64 (FormM.ofWord w) s
  | 0x0E => execAtomAddBf16x2 (FormM.ofWord w) s
  | 0x10 => execFence (FormS.ofWord w) s
  | 0x18 => execBankopAddI32 (FormM.ofWord w) s
  | 0x19 => execBankopAddF32 (FormM.ofWord w) s
  | 0x1A => execBankopMinF32 (FormM.ofWord w) s
  | 0x1B => execBankopMaxF32 (FormM.ofWord w) s
  | 0x1C => execBankopMulF32 (FormM.ofWord w) s
  | _ => runIllop w s
theorem exec_decodeClass9 (op : Nat) (w : BitVec 96) (s : State) : exec (decodeClass9 op w) s = runClass9 op w s := by
  unfold decodeClass9 runClass9
  split
  case h_22 => first | rfl | (split <;> first | contradiction | rfl)
  all_goals rfl

/-- Class 0xA, executed. -/
def runClass10 (op : Nat) (w : BitVec 96) (s : State) : Out :=
  match op with
  | 0x00 => execCp (FormX.ofWord w) s
  | 0x01 => execCp2d (FormX.ofWord w) s
  | 0x02 => execCp3d (FormX.ofWord w) s
  | 0x03 => execCpScale (FormX.ofWord w) s
  | 0x04 => execGather (FormX.ofWord w) s
  | 0x05 => execScatter (FormX.ofWord w) s
  | 0x08 => execWaitcCp (FormI.ofWord w) s
  | 0x09 => execWaitcGa (FormI.ofWord w) s
  | 0x0A => execWaitcMx (FormI.ofWord w) s
  | 0x0B => execWaitcFb (FormI.ofWord w) s
  | 0x10 => execArrinit (FormI.ofWord w) s
  | 0x11 => execArrw (FormI.ofWord w) s
  | 0x12 => execArrrd (FormI.ofWord w) s
  | 0x18 => execTsig (FormM.ofWord w) s
  | _ => runIllop w s
theorem exec_decodeClass10 (op : Nat) (w : BitVec 96) (s : State) : exec (decodeClass10 op w) s = runClass10 op w s := by
  unfold decodeClass10 runClass10
  split
  case h_15 => first | rfl | (split <;> first | contradiction | rfl)
  all_goals rfl

/-- Class 0xB, executed. -/
def runClass11 (op : Nat) (w : BitVec 96) (s : State) : Out :=
  match op with
  | 0x00 => execFput (FormX.ofWord w) s
  | 0x01 => execFget (FormX.ofWord w) s
  | 0x02 => execFatom (FormX.ofWord w) s
  | 0x03 => execFmark (FormS.ofWord w) s
  | 0x04 => execFldred (FormX.ofWord w) s
  | 0x05 => execFstmc (FormX.ofWord w) s
  | _ => runIllop w s
theorem exec_decodeClass11 (op : Nat) (w : BitVec 96) (s : State) : exec (decodeClass11 op w) s = runClass11 op w s := by
  unfold decodeClass11 runClass11
  split
  case h_7 => first | rfl | (split <;> first | contradiction | rfl)
  all_goals rfl

/-- Class 0xC, executed. -/
def runClass12 (op : Nat) (w : BitVec 96) (s : State) : Out :=
  match op with
  | 0x00 => execTshape (FormT.ofWord w) s
  | 0x08 => execMmaE4m3 (FormT.ofWord w) s
  | 0x09 => execMmaE5m2 (FormT.ofWord w) s
  | 0x0A => execMmaE4e5 (FormT.ofWord w) s
  | 0x0B => execMmaE5e4 (FormT.ofWord w) s
  | 0x0C => execMmaE2m1 (FormT.ofWord w) s
  | 0x0D => execMmaBf16 (FormT.ofWord w) s
  | 0x0E => execMmaF16 (FormT.ofWord w) s
  | 0x0F => execMmaI8 (FormT.ofWord w) s
  | 0x10 => execMmaT5 (FormT.ofWord w) s
  | 0x18 => execMmasE4m3 (FormT.ofWord w) s
  | 0x19 => execMmasE5m2 (FormT.ofWord w) s
  | 0x1A => execMmasE2m1 (FormT.ofWord w) s
  | 0x1B => execMmasBf16 (FormT.ofWord w) s
  | 0x1C => execMmasF16 (FormT.ofWord w) s
  | 0x1D => execMmasI8 (FormT.ofWord w) s
  | 0x20 => execMsacc (FormT.ofWord w) s
  | 0x21 => execMzero (FormT.ofWord w) s
  | 0x22 => execAcca (FormI.ofWord w) s
  | 0x23 => execAccf (FormI.ofWord w) s
  | 0x24 => execAccld (FormT.ofWord w) s
  | 0x25 => execAccst (FormT.ofWord w) s
  | 0x28 => execBucket (FormR.ofWord w) s
  | _ => runIllop w s
theorem exec_decodeClass12 (op : Nat) (w : BitVec 96) (s : State) : exec (decodeClass12 op w) s = runClass12 op w s := by
  unfold decodeClass12 runClass12
  split
  case h_24 => first | rfl | (split <;> first | contradiction | rfl)
  all_goals rfl

/-- Class 0xD, executed. -/
def runClass13 (op : Nat) (w : BitVec 96) (s : State) : Out :=
  match op with
  | 0x00 => execBar (FormS.ofWord w) s
  | 0x01 => execBarArrive (FormS.ofWord w) s
  | 0x02 => execBarWait (FormS.ofWord w) s
  | 0x03 => execCbar (FormS.ofWord w) s
  | 0x08 => execGate (FormS.ofWord w) s
  | 0x09 => execGret (FormS.ofWord w) s
  | 0x10 => execTrap (FormS.ofWord w) s
  | 0x11 => execTret (FormS.ofWord w) s
  | 0x12 => execBrk (FormS.ofWord w) s
  | 0x13 => execIfence (FormS.ofWord w) s
  | 0x18 => execGets (FormS.ofWord w) s
  | 0x19 => execSets (FormS.ofWord w) s
  | 0x20 => execLaunch (FormS.ofWord w) s
  | 0x21 => execYield (FormS.ofWord w) s
  | 0x22 => runHvhint (FormS.ofWord w) s
  | _ => runIllop w s
theorem exec_decodeClass13 (op : Nat) (w : BitVec 96) (s : State) : exec (decodeClass13 op w) s = runClass13 op w s := by
  unfold decodeClass13 runClass13
  split
  case h_16 => first | rfl | (split <;> first | contradiction | rfl)
  case h_15 => unfold decodeHvhint runHvhint; split <;> rfl
  all_goals rfl

/-- Class 0xE, executed. -/
def runClass14 (op : Nat) (w : BitVec 96) (s : State) : Out :=
  match op with
  | 0x00 => execGetsp (FormS.ofWord w) s
  | 0x01 => execSetsp (FormS.ofWord w) s
  | 0x08 => execIcinv (FormS.ofWord w) s
  | 0x09 => execCwb (FormS.ofWord w) s
  | 0x0A => execCinv (FormS.ofWord w) s
  | 0x10 => execTlbinvVa (FormS.ofWord w) s
  | 0x11 => execTlbinvAsid (FormS.ofWord w) s
  | 0x12 => execTlbinvAll (FormS.ofWord w) s
  | 0x18 => execSigh (FormS.ofWord w) s
  | _ => runIllop w s
theorem exec_decodeClass14 (op : Nat) (w : BitVec 96) (s : State) : exec (decodeClass14 op w) s = runClass14 op w s := by
  unfold decodeClass14 runClass14
  split
  case h_10 => first | rfl | (split <;> first | contradiction | rfl)
  all_goals rfl

/-- A crew word, executed by class and operation. -/
def runCrewTable (w : BitVec 96) (s : State) : Out :=
  let opc := opcOf w
  match opc.toNat / 64 with
  | 0 => runClass0 (opc.toNat % 64) w s
  | 1 => runClass1 (opc.toNat % 64) w s
  | 2 => runClass2 (opc.toNat % 64) w s
  | 3 => runClass3 (opc.toNat % 64) w s
  | 4 => runClass4 (opc.toNat % 64) w s
  | 5 => runClass5 (opc.toNat % 64) w s
  | 6 => runClass6 (opc.toNat % 64) w s
  | 7 => runClass7 (opc.toNat % 64) w s
  | 8 => runClass8 (opc.toNat % 64) w s
  | 9 => runClass9 (opc.toNat % 64) w s
  | 10 => runClass10 (opc.toNat % 64) w s
  | 11 => runClass11 (opc.toNat % 64) w s
  | 12 => runClass12 (opc.toNat % 64) w s
  | 13 => runClass13 (opc.toNat % 64) w s
  | 14 => runClass14 (opc.toNat % 64) w s
  | _ => runIllop w s

@[csimp] theorem runCrew_table : @runCrew = @runCrewTable := by
  funext w s
  unfold runCrew runCrewTable decodeCrew
  dsimp only
  generalize (opcOf w).toNat / 64 = c
  split
  case h_16 => first | rfl | (split <;> first | contradiction | rfl)
  case h_1 => exact exec_decodeClass0 _ _ _
  case h_2 => exact exec_decodeClass1 _ _ _
  case h_3 => exact exec_decodeClass2 _ _ _
  case h_4 => exact exec_decodeClass3 _ _ _
  case h_5 => exact exec_decodeClass4 _ _ _
  case h_6 => exact exec_decodeClass5 _ _ _
  case h_7 => exact exec_decodeClass6 _ _ _
  case h_8 => exact exec_decodeClass7 _ _ _
  case h_9 => exact exec_decodeClass8 _ _ _
  case h_10 => exact exec_decodeClass9 _ _ _
  case h_11 => exact exec_decodeClass10 _ _ _
  case h_12 => exact exec_decodeClass11 _ _ _
  case h_13 => exact exec_decodeClass12 _ _ _
  case h_14 => exact exec_decodeClass13 _ _ _
  case h_15 => exact exec_decodeClass14 _ _ _


/-- A cox word, executed by its opcode. -/
def runCoxTable (w : BitVec 64) (s : State) : Out :=
  match (w.extractLsb' 58 6).toNat with
  | 0x00 => execCoxNop (FormCR.ofWord w) s
  | 0x01 => execCoxHalt (FormCR.ofWord w) s
  | 0x02 => execCoxYield (FormCR.ofWord w) s
  | 0x03 => execCoxAbort (FormCI.ofWord w) s
  | 0x04 => execCoxTrap (FormCI.ofWord w) s
  | 0x08 => execCoxMov (FormCR.ofWord w) s
  | 0x09 => execCoxAdd (FormCR.ofWord w) s
  | 0x0A => execCoxSub (FormCR.ofWord w) s
  | 0x0B => execCoxAnd (FormCR.ofWord w) s
  | 0x0C => execCoxOr (FormCR.ofWord w) s
  | 0x0D => execCoxShl (FormCR.ofWord w) s
  | 0x0E => execCoxShr (FormCR.ofWord w) s
  | 0x10 => execCoxMovi (FormCI.ofWord w) s
  | 0x11 => execCoxAddi (FormCI.ofWord w) s
  | 0x18 => execCoxBr (FormCB.ofWord w) s
  | 0x19 => execCoxBeq (FormCB.ofWord w) s
  | 0x1A => execCoxBne (FormCB.ofWord w) s
  | 0x1B => execCoxBlt (FormCB.ofWord w) s
  | 0x1C => execCoxBge (FormCB.ofWord w) s
  | 0x1D => execCoxLoop (FormCB.ofWord w) s
  | 0x20 => execCoxSend (FormCC.ofWord w) s
  | 0x21 => execCoxPost (FormCC.ofWord w) s
  | 0x22 => execCoxRecv (FormCC.ofWord w) s
  | 0x23 => execCoxComb (FormCC.ofWord w) s
  | 0x24 => execCoxCombf (FormCC.ofWord w) s
  | 0x25 => execCoxFwd (FormCC.ofWord w) s
  | 0x28 => execCoxWaitf (FormCF.ofWord w) s
  | 0x29 => execCoxSigf (FormCF.ofWord w) s
  | _ => execCoxIllop (w.extractLsb' 58 6) (w.extractLsb' 0 58) s

@[csimp] theorem runCox_table : @runCox = @runCoxTable := by
  funext w s
  unfold runCox runCoxTable decodeCox
  generalize (w.extractLsb' 58 6).toNat = c
  split
  case h_29 => first | rfl | (split <;> first | contradiction | rfl)
  all_goals rfl

end Sys2Proof.Machine
end

