-- ==== Sys2Proof/Machine/Run.lean ====
section
/-!
DEFINITION. Run.lean: what each agent does in its turn: fetching and issuing of a quad, a cox's next instruction, one event of the
units that act on their own or of the outside, and the passing of a cycle
(spec 01 R22, R31; 02 R38 to R46; 12 R262 to R264, R274; 14 R328; 21 R391).
-/

namespace Sys2Proof.Machine

open Sys2Proof

/-! ## Which crews of a quad may issue (R262) -/

/-- A block of a gang that was restored with blocks still to be placed waits for them (R265). -/
def State.gangHeld (s : State) (b : Block) : Bool := (s.launch? b.launch).any (fun l => l.gang && decide (0 < l.unplaced))
/-- The crew is resident, runs, and is not held by a stall, an unwinding, a stopped context, a revocation or its gang. -/
def State.runnable (s : State) (c : Crew) : Bool :=
  !c.retired && c.stall.isNone && c.unwinding.isNone && !(s.ctxSt c.ctx).stopped &&
    (s.block? c.blk).any (fun (b : Block) => b.place == 0 && !(b.harv && (s.core b.core).revoke ≠ 0) && !s.gangHeld b)
/-- The slot has an instruction to issue: it runs, and neither a trap to deliver nor a barrier or acca keeps it (R22, R204, R212, R384). -/
def PcSlot.ready (p : PcSlot) : Bool := p.st == .running && !p.trapped && p.barWait.isNone && p.accaWait.isNone
/-- Issue class of a crew: S, Q, B, H, and last a crew demoted by pause (R262). -/
def State.issueClass (s : State) (c : Crew) : Nat :=
  if c.demote ≠ 0 then 4 else ((s.block? c.blk).map (fun b => b.cls)).getD 3
/-- Place of a crew in the order of R262: class, then the cycle of its last issue, a crew that has never issued first. -/
def State.issueKey (s : State) (c : Crew) : Nat × Nat := (s.issueClass c, match c.lastEver with
  | none => 0
  | some p => p + 1)
/-- Insertion in ascending order of a key, later entries of equal key behind. -/
def insertKey (x : (Nat × Nat) × Nat) : List ((Nat × Nat) × Nat) → List ((Nat × Nat) × Nat)
  | [] => [x]
  | y :: ys => if y.1.1 < x.1.1 ∨ (y.1.1 = x.1.1 ∧ y.1.2 ≤ x.1.2) then y :: insertKey x ys else x :: y :: ys
/-- The oldest queued trap of the crew has still to be delivered to a slot: a delivery that failed or was held is tried again (R385). -/
def Crew.awaits (c : Crew) (k : Bool) : Bool := !c.insvc && c.trapq.head?.any (fun e => e.slot == k)
/-- The slots of a crew in the order of R262: the one that issued less recently first. -/
def Crew.slotOrder (c : Crew) : List (Nat × Bool) :=
  let two := if c.b.issuedAt < c.a.issuedAt then [true, false] else [false, true]
  (two.filter (fun k => (c.slot k).ready || c.awaits k)).map (fun k => (c.id, k))
/-- The (crew, slot) pairs of a quad in the order in which they are tried (R262). Of several crews that have never issued the first of the
list goes first, and of two slots that have not issued since they started slot A (log 42, DESIGN CHOICE). -/
def State.issueOrder (s : State) (core quad : Nat) : List (Nat × Bool) :=
  let cs := s.crews.filter (fun c => c.core == core && c.quad == quad && s.runnable c)
  let sorted := cs.foldl (fun l c => insertKey (s.issueKey c, c.id) l) []
  sorted.flatMap (fun p => match s.crew? p.2 with
    | some c => c.slotOrder
    | none => [])

/-! ## Fetching (R34, R38 to R40) -/

/-- The cursor at the instruction that a slot would issue next, in slot `n` of its line. -/
def cursorAt (id : Nat) (k : Bool) (line : List Byte) (pc : DWord) : Cursor :=
  { Cursor.idle with crew := some id, slot := k, pc := pc, word := slotWordOf line (pcSlot pc), reg := lineReg (lineWordOf line) (pcSlot pc),
                     next := pcNext pc }

/-- A slot enters the line at its PC: fall-through, a recorded return, or the checked transfer to a launch's entry (R39, R40). A
failure raises its cause at that PC. PARITY and LINEFMT report the target PC of the launch's transfer, and 0 where there is no target
(R381; log 39, DEDUCED). A fall-through into a non-canonical line raises CFI, of which R34 speaks for transfers only (log 41, DEDUCED). -/
def State.enterLine (s : State) (c : Crew) (k : Bool) : Out :=
  let p := c.slot k
  match s.checkTarget c.core c.asid p.pc p.mask c.lastEver.isNone with
  | .ok line => .next ((s.setCrew (c.setSlot k { p with line := line })).noteLine c.core c.asid (pcLine p.pc) line)
  | .error (.raise x) =>
    let x := if x.code = 0x04 ∧ !c.lastEver.isNone then { x with val := 0#64 } else x
    .next ({ s.noteFetch c.core c.asid (pcLine p.pc) s with cur := { Cursor.idle with crew := some c.id, slot := k, pc := p.pc, next := p.pc } }.takeCause x)
  | .error (.stop f) => .fault f
  | .error _ => .next { s with heldMark := true }

/-! ## Issuing an instruction or a pair (R42) -/

/-- The instruction at a cursor is executed. -/
noncomputable def State.runAt (s : State) (cur : Cursor) : Out := runCrew cur.word { s with cur := cur }
/-- The same through the tables of RunWord. -/
def State.runAtTable (s : State) (cur : Cursor) : Out := runCrewTable cur.word { s with cur := cur }
@[csimp] theorem runAt_table : @State.runAt = @State.runAtTable := by
  funext s cur
  unfold State.runAt State.runAtTable
  rw [runCrew_table]

/-- A cause found by the issue-time checks. -/
def atIssueCause (s : State) : Bool := s.lastRaise.any (fun x => x.atIssue)

/-- The flags named in the WAIT and SETF fields of a pair's second instruction let it issue (R42, R46). (log 19, DEDUCED) -/
def secondFree (c : Crew) (first second : Hdr) : Bool :=
  (List.range 12).all (fun i => !second.wait.getLsbD i || c.flags.getD i 0 == 0) &&
    (decide (11 < second.setf.toNat) || decide (c.flags.getD second.setf.toNat 0 + (if first.setf = second.setf then 1 else 0) < 63))

/-- Instructions marked E that a pair can hold (R62): those after which a region begins. -/
def endsRegion (w : BitVec 96) : Bool :=
  let n := (opcOf w).toNat
  let o := n % 64
  match n / 64 with
  | 0x9 => decide (o ≤ 0x0E) || o == 0x10 || (decide (0x18 ≤ o) && decide (o ≤ 0x1C))
  | 0xA => decide (o ≤ 0x05) || o == 0x18
  | 0xB => decide (o ≤ 0x05)
  | 0xC => (decide (0x08 ≤ o) && decide (o ≤ 0x10)) || (decide (0x18 ≤ o) && decide (o ≤ 0x1D)) || [0x20, 0x21, 0x23, 0x25].contains o
  | _ => false
/-- A pair whose first instruction is E has completed: the region entry and its captures are those after both (R364). A second
instruction that transfers control has set its own PC and leaves them. -/
def State.pairRegion (s : State) (c1 c2 : Cursor) : State :=
  match c1.crew with
  | none => s
  | some id =>
    if endsRegion c1.word && (opcOf c2.word).toNat / 64 ≠ 7 then s.modCrew id (fun c => markRegion c c1.slot (c.slot c1.slot).pc) else s
/-- The queue state and RNGSEED that a crew's next instruction starts from (R42, R141). -/
def State.goesOn (s : State) (cur : Cursor) : Option (List Word × Row) := (cur.crew.bind s.crew?).map (fun c => (c.queues, c.rng))
/-- A second instruction's cursor with the state it goes on from while the first one's effects are withheld (R42). -/
def Cursor.from_ (cur : Cursor) (left : Option (List Word × Row)) : Cursor :=
  { cur with snap := cur.snap.map (fun sn => { sn with left := left }) }
/-- A cause of a pair's second instruction, raised with neither one's effects (R42, R44). -/
def State.raisePair (s : State) (x : Cause) : State :=
  match raisedCrew s with
  | some c => { s.setCrew c with order := s.order + 1 }.takeCause x
  | none => s.takeCause x

/-- A pair issues: `c1`, `c2` are the cursors of its two instructions, `pre` the state before it with the region entry of the
first counted. A cause of either leaves the other without effect; issue-time causes come first, then the first in slot order (R42).
The second one's checks go on from the queues and draws that the first leaves, or would have left where it raises (R121, R141); the
QSTATE that its QUEUE cause reports is that one, although both are rolled back (log 41, DEDUCED). (log 19, DEDUCED) -/
def issuePair (s pre : State) (c1 c2 : Cursor) : Out :=
  match s.runAt c1 with
  | .fault f => .fault f
  | .refused r => .refused r
  | .next a =>
    if a.heldMark then .next a
    else if a.lastRaise.isSome then
      if atIssueCause a then .next a
      else match s.runAt (c2.from_ ((s.goesOn c1).map (fun p => ((a.lastRaise.map (fun x => x.queues)).getD p.1, p.2)))) with
        | .next b => if !b.heldMark && atIssueCause b then .next b else .next a
        | .fault _ => .next a
        | .refused _ => .next a
    else
      match a.runAt c2 with
      | .fault f => .fault f
      | .refused r => .refused r
      | .next b =>
        if b.heldMark then .next { s with heldMark := true }
        else match b.lastRaise with
          | none => .next (b.pairRegion c1 c2)
          | some x =>
            if x.atIssue then .next ({ s with cur := c2, free := b.free }.takeCause x)
            else match { pre with free := a.free }.runAt (c2.from_ (a.goesOn c1)) with
              | .next d => if d.lastRaise.isSome then .next d else .next ({ pre with cur := c2, free := b.free }.raisePair x)
              | .fault f => .fault f
              | .refused r => .refused r

/-- The slot of a crew, its line entered, issues the instruction or the pair at its PC, once its pipes can accept it (R59). -/
def State.issueSlot (s : State) (c : Crew) (k : Bool) : Out :=
  let p := c.slot k
  let one := cursorAt c.id k p.line p.pc
  if !s.pipesFree c p then .next { s with heldMark := true }
  else if linePair (lineWordOf p.line) (pcSlot p.pc) ∧ pcSlot p.pc < 4 then
    let two := cursorAt c.id k p.line (pcNext p.pc)
    let c0 := settle s c
    if !secondFree c0 (Hdr.ofWord one.word) (Hdr.ofWord two.word) then .next { s with heldMark := true }
    else
      issuePair s (s.setCrew (issueRegion c0 k p.pc one.reg)) { one with next := two.next }
        { two with first := some p.pc, snap := some { regs := c0.regs, flights := c0.flights, left := none } }
  else s.runAt one

/-- After an issue, the first of whose instructions had order stamp `first`: under STEPEN the crew raises STEP once the instruction has
completed, and an earlier yield of the crew is over (R226, R363, R391). -/
def State.afterIssue (s : State) (id first : Nat) : State :=
  match s.crew? id with
  | none => s
  | some c =>
    let step := (s.ctxDesc c.ctx).stepen && c.stall.isNone && !c.retired
    let gone := fun (p : Nat × Nat) => p.1 == id && decide (p.2 < first)
    let y := (s.block? c.blk).any (fun b => b.yielded.any gone)
    let s := if step then s.setCrew { c with stepPend := true } else s
    if y then s.modBlock c.blk (fun b => { b with yielded := b.yielded.filter (fun p => !gone p) }) else s

/-- STEP (R381, R391): raised at the PC of the slot that issued last. -/
def State.raiseStep (s : State) (c : Crew) : State :=
  let k := decide (c.a.issuedAt < c.b.issuedAt)
  (s.setCrew { c with stepPend := false }).stallCrew c.id (sysCause 0x16 0 0 0#64 0#64) k (c.slot k).pc 0#96 false true

/-- One slot of one crew tries to issue. `heldMark` tells that nothing has happened: it is not eligible. (log 18, DEDUCED) -/
def State.trySlot (s : State) (id : Nat) (k : Bool) : Out :=
  match s.crew? id with
  | none => .next { s with heldMark := true }
  | some c =>
    if c.stepPend then
      let c0 := settle s c
      if c0.flights.isEmpty then .next (s.raiseStep c0) else .next { s with heldMark := true }
    else if !c.trapq.isEmpty && !c.insvc then .next (s.deliver id)
    else if (c.slot k).line.isEmpty then
      match s.enterLine c k with
      | .next t =>
        if t.heldMark ∨ t.lastRaise.isSome then .next t
        else match t.crew? id with
          | none => .next t
          | some d =>
            match t.issueSlot d k with
            | .next u => .next (if u.heldMark then u else (u.tookPipes d (d.slot k)).afterIssue id t.order)
            | o => o
      | o => o
    else
      match s.issueSlot c k with
      | .next u => .next (if u.heldMark then u else (u.tookPipes c (c.slot k)).afterIssue id s.order)
      | o => o

/-- The end of a turn: nothing is issuing. -/
def State.endTurn (s : State) : State := { s with cur := Cursor.idle, lastRaise := none, heldMark := false }

/-- The turn of a quad: the first pair of the list that is eligible issues (R262). -/
def State.tryAll (s : State) : List (Nat × Bool) → Out
  | [] => .next s.endTurn
  | p :: ps =>
    match s.trySlot p.1 p.2 with
    | .next t => if t.heldMark then State.tryAll { t with heldMark := false, lastRaise := none, cur := Cursor.idle } ps else .next t.endTurn
    | .fault f => .fault f
    | .refused r => .refused r

/-- A crew of the quad that has no running slot, as after RESUME of a refill that faulted, is settled by the rules of R24 (R25). (log 18, DEDUCED) -/
def State.refillQuad (s : State) (core quad : Nat) : State :=
  (s.crews.filter (fun (c : Crew) => c.core == core && c.quad == quad && s.runnable c && c.a.st != .running && c.b.st != .running)).foldl
    (fun s c => s.settleSlots c.id) s

/-- The turn of a quad. -/
def State.quadTurn (s : State) (core quad : Nat) : Out :=
  let s := s.refillQuad core quad
  s.tryAll (s.issueOrder core quad)

/-! ## The turn of a cox (R300, R309, R328) -/

/-- The turn of a cox: the running context, or the next READY one, executes the word at its PC. -/
noncomputable def State.coxTurn (s : State) (port : Nat) : Out :=
  let s := s.coxPick port
  match (List.range 8).find? (fun k => (s.coxSlot port k).st == 2) with
  | none => .next s
  | some k =>
    match runCox ((s.cox port).word (s.coxSlot port k).pc) { s with cur := { Cursor.idle with port := port, ctxSlot := k } } with
    | .next t => .next t.endTurn
    | .fault f => .fault f
    | .refused r => .refused r
/-- The same through the table of RunWord. -/
def State.coxTurnTable (s : State) (port : Nat) : Out :=
  let s := s.coxPick port
  match (List.range 8).find? (fun k => (s.coxSlot port k).st == 2) with
  | none => .next s
  | some k =>
    match runCoxTable ((s.cox port).word (s.coxSlot port k).pc) { s with cur := { Cursor.idle with port := port, ctxSlot := k } } with
    | .next t => .next t.endTurn
    | .fault f => .fault f
    | .refused r => .refused r
@[csimp] theorem coxTurn_table : @State.coxTurn = @State.coxTurnTable := by
  funext s port
  unfold State.coxTurn State.coxTurnTable
  rw [runCox_table]

/-! ## Events of the units and of the outside -/

/-- Indices of a list, as events. -/
def eventsOf (n : Nat) (f : Nat → Instr) : List Instr := (List.range n).map f

/-- The event by which a packet of a kind acts where it lands (R283). -/
def landingEvent (kind i : Nat) : Option Instr :=
  match kind with
  | 0 => some (.write i)
  | 1 => some (.readreq i)
  | 2 => some (.readrsp i)
  | 3 => some (.atomic i)
  | 4 => some (.marker i)
  | 5 => some (.markack i)
  | 6 => some (.probe i)
  | 7 => some (.probeack i)
  | 8 => some (.reduce i)
  | 9 => some (.redrsp i)
  | 10 => some (.chunk i)
  | 11 => some (.start i)
  | 12 => some (.abort i)
  | 13 => some (.abortack i)
  | 14 => some (.refuse i)
  | _ => none

/-- Events of the crews and their blocks. -/
def State.crewEvents (s : State) : List Instr :=
  s.crews.flatMap (fun (c : Crew) =>
    (c.flights.filter (fun (f : Flight) => f.due.isNone && !s.accas.any (fun (a : AccaReq) => a.crew == c.id && a.flight == f.id))).map
      (fun f => .instructionCompletion c.id f.id) ++ (if c.retired then [] else [.crewRetire c.id])) ++
  s.blocks.map (fun b => .blockRetire b.id)

/-- Events of engines, tile engines and allocators. -/
def State.engineEvents (s : State) : List Instr :=
  s.ops.flatMap (fun (o : Op) =>
    if o.done then []
    else if o.cls = 2 then
      if !o.checked then [.tileTaskRetire o.id 0]
      else ((List.range 4).filter (fun c => o.started.getD c false && !o.sliceOver c)).map (fun c => .tileTaskRetire o.id c) ++
        ((s.blocks.filter (fun (b : Block) => b.place == 0 || b.place == 3)).map (fun b => b.core)).dedup.map (fun k => .tileSliceStart k)
    else if o.opc = 0x298 then [.tsigAdd o.id]
    else (if o.pause.isEmpty && s.opLive o then [.engineOperationRetire o.id] else []) ++ (if o.cls = 3 then [.fabricResponseTimeout o.id] else [])) ++
  (if s.aborts.isEmpty then [] else [.fabricResponseTimeout 0]) ++
  (s.accas.map (fun a => a.core)).dedup.map (fun k => .accaGrant k) ++ eventsOf s.accfs.length (fun i => .accfUnitRelease i)

/-- Events of memory and of held fault records. -/
def State.memoryEvents (s : State) : List Instr :=
  eventsOf s.arriving.length (fun i => .remoteWriteApply i) ++ eventsOf s.replicas.length (fun i => .replicaApply i) ++
  (List.range s.held.length).flatMap (fun i => match s.held[i]? with
    | some h => [if h.unwritable then .faultQueueWriteRetry i else .faultRecordRetry i]
    | none => []) ++
  (List.range 160).flatMap (fun k =>
    let c := s.core k
    ((List.range 32).filter (fun n => (c.trackers[n]?).any (fun t => t.busy))).map (fun n => .prefetchComplete k n) ++
      (if c.pfds.isEmpty then [] else .prefetchComplete k 32 :: c.pfds.map (fun r => .pfdDeadlineDrop k r.order)))

/-- Ways to place the next block or group of a launch, on a core or cluster with room, in place of a block or without (R255, R256). -/
def State.placements (s : State) (l : Launch) : List Instr :=
  match s.nextBlock l with
  | none => []
  | some b =>
    let back := s.blocks.any (fun q => q.launch == l.id && q.blockId == b)
    let seats := fun (t : State) (k : Nat) => (t.room k l none).map (fun r => (k, r.2.map (fun q => q.1)))
    let all := (List.range 160).filterMap (fun k => seats s k)
    let free := if back then all else all.filter (fun p => s.spanOk l [p.1])
    if l.gsize = 1 ∨ back then
      free.map (fun p => .blockPlacement l.id b [p.1] p.2 [p.1] []) ++
        (s.blocks.filter (fun q => s.mayOust l q)).filterMap (fun q =>
          (seats (s.leaveCore q.id 1) q.core).map (fun p => .blockPlacement l.id b [p.1] p.2 [p.1] [q.id]))
    else
      (List.range 40).filterMap (fun cl =>
        let here := (free.filter (fun p => p.1 / 4 == cl)).take l.gsize
        if here.length = l.gsize then some (.blockPlacement l.id b (here.map (fun p => p.1)) (here.flatMap (fun p => p.2)) (here.map (fun p => p.1)) [])
        else none)

/-- Events of the stakeboat and of the harvest (R253 to R271). -/
def State.launchEvents (s : State) : List Instr :=
  s.launches.flatMap (fun (l : Launch) =>
    if l.st = 1 then [.launchAdmission l.id, .launchDeadlineExpire l.id] else if l.st = 2 then s.placements l else []) ++
  s.blocks.flatMap (fun (b : Block) =>
    if b.place = 0 then [.spinHandoff b.id b.vcore]
    else if b.place = 2 then
      match s.launch? b.launch with
      | some l =>
        let t : State := { s with blocks := s.blocks.map (fun (q : Block) => if q.id = b.id then { q with place := 1 } else q) }
        (t.room b.core l none).toList.map (fun r => .harvestResume b.id (r.2.map (fun q => q.1)))
      | none => []
    else []) ++
  ((List.range 160).filter (fun k => (s.core k).lending)).flatMap (fun k =>
    [.harvestRevocation k, .harvestParkComplete k]) ++
  (s.blocks.filter (fun (b : Block) => (s.ctxSt b.ctx).stopped && (b.place == 0 || b.place == 2))).map (fun b => .contextImageComplete b.ctx b.vcore)

/-- Events of the fabric (R283 to R296, R433, R443). -/
def State.fabricEvents (s : State) : List Instr :=
  eventsOf s.inq.length (fun i => .packetForward i) ++
  (List.range s.landing.length).flatMap (fun i => ((s.landing[i]?).bind (fun q => landingEvent q.pkt.hd.kind i)).toList) ++
  (s.outq.map (fun q => Instr.frameSend q.port q.pkt.hd.ch q.pkt.hd.hops)).dedup ++
  -- a frame that only returns credits: there is no channel 3
  ((List.range 32).filter (fun p => (s.port p).st == 2 && (List.range 12).any (fun i =>
    decide ((s.port p).lent.getD i 0 + s.buffered p (i / 4) (i % 4) < 16)))).map (fun p => .frameSend p 3 0) ++
  ((List.range 32).filter (fun p => (s.port p).st == 3)).map (fun p => .portAutoRetrain p) ++
  ((List.range 8).filter (fun i => (s.startSlots.getD i StartSlot.reset).busy)).map (fun i => .startWindowTimeout i)

/-- Events of the coxes (R323 to R328). -/
def State.coxEvents (s : State) : List Instr :=
  (List.range 32).flatMap (fun p =>
    (List.range 8).flatMap (fun k =>
      let x := s.coxSlot p k
      if x.st = 3 then (if x.why = 5 then [.coxDescriptorLoadComplete p k] else [.coxWaitSatisfied p k, .coxRefusalTimeout p k]) else []) ++
      (if (s.cox p).starts.isEmpty then [] else [.coxStartSlotFree p, .coxStartHoldTimeout p]))

/-- The events by which SECP serves its mailbox (R428). -/
def State.secpEvents (s : State) : List Instr :=
  match s.secp.busy with
  | none => []
  | some pa =>
    if s.secp.result.isSome then [.secpCommandComplete]
    else
      match s.natPa pa 4 with
      | 1 => [.getid]
      | 2 => [.attest]
      | 3 => [.kdopen]
      | 4 => [.kdseal]
      | 5 => [.kdclose]
      | 6 => [.kdmap]
      | 7 => [.rekey]
      | 8 => [.mpcset]
      | 9 => [.mpcjoin]
      | 10 => [.revoke]
      | 11 => [.fwstage]
      | 12 => [.fwcommit]
      | _ => [.secpCommandComplete]

/-- Every event that a unit may bring about now; one that does not apply changes nothing. -/
def State.unitEvents (s : State) : List Instr :=
  s.crewEvents ++ s.engineEvents ++ s.memoryEvents ++ s.launchEvents ++ s.fabricEvents ++ s.coxEvents ++ s.secpEvents

/-- An access of the host through its port, performed in the order of its arrival (R410). -/
def hostAccess : Instr → Bool
  | .bar2Write _ _ => true
  | .bar2Read _ _ => true
  | .mgmtRegisterWrite _ _ _ _ => true
  | .bootl _ => true
  | .frespResume _ _ _ => true
  | .frespDecline _ _ _ => true
  | .frespTerminate _ _ _ => true
  | .addressGroupWrite _ _ _ => true
  | .startGo _ _ => true
  | .coxInstructionMemoryWrite _ _ _ => true
  | .coxRegionWrite _ _ _ => true
  | .coxSlotStateWrite _ _ _ _ => true
  | .ctlResume _ _ => true
  | .ctlStep _ _ => true
  | .ctlKill _ _ => true
  | .fabcfg _ => true
  | .portctlAdmdn _ _ => true
  | .portctlRetrain _ => true
  | .portctlMapv _ _ _ => true
  | .rasclr => true
  | .msixVectorUnmask _ => true
  | _ => false
/-- A BAR2 access whose stack is not in service yet (R422). -/
def State.accessWaits (s : State) : Instr → Bool
  | .bar2Write off data => s.barWaits off data.length
  | .bar2Read off n => s.barWaits off n
  | _ => false
/-- The next input that may act: an access that waits holds back the host's later accesses only (R410, R422). (log 3, DESIGN CHOICE) -/
def State.nextInput (s : State) : Bool → List Instr → Option (Instr × List Instr)
  | _, [] => none
  | blocked, i :: r =>
    if hostAccess i && (blocked || s.accessWaits i) then (State.nextInput s true r).map (fun p => (p.1, i :: p.2)) else some (i, r)

/-- The cycles in which every unit that can act does act; how many pass between two of them is open, so that what a unit has to do is
done within a finite time that nothing bounds (R240, R457). (log 3, DESIGN CHOICE) -/
def State.allAct (s : State) : Bool := (s.cycle + 1) % (Config.free 0 [51] + 2) == 0

/-- The state once the next input has been taken: the host's writes to its own memory wait for one access less (R410). -/
def State.taken (s : State) (i : Instr) (rest : List Instr) : State :=
  { s with inputs := rest, hostStores := if hostAccess i then s.hostStores.map (fun h => (h.1 - 1, h.2)) else s.hostStores }
/-- The host's next write to its own memory becomes visible, some time after the accesses that it has ordered before it (R410 rule 1). (log 3, DESIGN CHOICE) -/
def State.hostStore (s : State) : State :=
  match s.hostStores with
  | [] => s
  | h :: rest =>
    if h.1 ≠ 0 ∨ (s.pick [58] 2 = 0 ∧ !s.allAct) then s
    else
      let s := { s with hostStores := rest }
      if s.paKind h.2.1 = .host ∧ s.paKind (h.2.1 + h.2.2.length - 1) = .host then s.writePa h.2.1 h.2.2 else s

/-- Every event of a list, one after the other. -/
def State.allEvents : List Instr → State → Out
  | [], s => .next s
  | e :: es, s =>
    match exec e s with
    | .next t => State.allEvents es t
    | o => o
/-- The turn of the units: one event that a unit may bring about, or the next input; which one is open. Now and then all of them act. (log 3, DESIGN CHOICE) (log 10, DESIGN CHOICE) -/
def State.unitTurn (s : State) : Out :=
  let s := s.hostStore
  let evs := s.unitEvents
  if s.allAct then
    match s.nextInput false s.inputs with
    | none => State.allEvents evs s
    | some (i, rest) =>
      match exec i (s.taken i rest) with
      | .next t => State.allEvents evs t
      | o => o
  else match s.nextInput false s.inputs with
  | none =>
    match evs[s.pick [50] evs.length]? with
    | none => .next s
    | some e => exec e s
  | some (i, rest) =>
    match evs[s.pick [50] (evs.length + 1)]? with
    | none => exec i (s.taken i rest)
    | some e => exec e s

/-! ## The passing of a cycle -/

/-- CLOCK and the arithmetic cycle (R31, R422, R453): CLOCK counts 1.9 GHz units whatever the arithmetic clock. -/
def State.tickClock (s : State) : State :=
  let a := max 1 s.mgmt.aclk.toNat
  let n := s.clockAcc + 1900
  { s with cycle := s.cycle + 1, free := s.free + 1, clock := s.clock + BitVec.ofNat 64 (n / a), clockAcc := n % a }

/-- A count of cycles runs down. -/
def down (x : Option Nat) : Option Nat := x.map (fun n => n - 1)
/-- The cycle passes for a resident crew: the pause count and the budgets of its gate calls (R157, R218). -/
def Crew.tick (c : Crew) : Crew :=
  let c : Crew := { c with demote := c.demote - 1, demotedFrom := if c.demote ≤ 1 then none else c.demotedFrom }
  { c with budget := down c.budget, gates := c.gates.map (fun (g : GateRec) => { g with budget := down g.budget }) }

/-- The umpire's counts of a resident block (R274); those of a cluster barrier stand with the block that leads the group. (log 23, DEDUCED) -/
def State.tickUmpire (s : State) (b : Block) : Block :=
  let cs := s.crewsOf b.id
  let grp := if (s.groupLead b).id ≠ b.id then [] else
    let mates := s.blocks.filter (fun q => q.launch == b.launch && q.group == b.group && q.place ≠ 3)
    s.crews.filter (fun c => mates.any (fun q => q.id == c.blk))
  { b with
    ump := (List.range 16).map (fun i =>
      if cs.any (fun c => c.arrive.getD i 0#64 ≠ 0#64) || !(b.barIn.getD i []).isEmpty then b.ump.getD i 0 + 1 else b.ump.getD i 0)
    cump := (List.range 4).map (fun i =>
      if grp.any (fun c => c.carrive.getD i 0#64 ≠ 0#64) then b.cump.getD i 0 + 1 else b.cump.getD i 0) }

/-- Limits reached in this cycle: budgets (R218), the umpire (R274). -/
def State.tickLimits (s : State) : State :=
  let s := s.crews.foldl (fun s (c : Crew) =>
    ((List.range c.gates.length).map (· + 1)).foldl (fun s level => after (execGateBudgetExpire c.id level s) s) s) s
  s.blocks.foldl (fun s (b : Block) =>
    let s := (List.range 16).foldl (fun s i => after (execUmpireTimeout b.id false i s) s) s
    (List.range 4).foldl (fun s i => after (execUmpireTimeout b.id true i s) s) s) s

/-- Work that goes on by itself: calls being unwound, completion writes of launches, blocks that have ended (R218, R261, R276). -/
def State.tickWork (s : State) : State :=
  let s := s.crews.foldl (fun s (c : Crew) =>
    if c.unwinding.isSome && (s.block? c.blk).any (fun b => b.place == 0) then s.endUnwind c.id else s) s
  let s := s.launches.foldl (fun s (l : Launch) => State.launchWrites (l.writes.length + 1) s l.id) s
  s.sweepBlocks

/-- Interference by harvest crews is counted in every cycle on the cores that lend (R269). -/
def State.tickHarvest (s : State) : State :=
  ((List.range 160).filter (fun k => (s.core k).lending)).foldl (fun s k => after (execHarvestInterference k s) s) s

/-- The agents that act in a cycle: the quads with crews, the coxes with contexts, then the units. (log 3, DESIGN CHOICE) -/
def State.agents (s : State) : List Agent :=
  ((s.crews.filter (fun c => s.runnable c)).map (fun c => Agent.quad c.core c.quad)).dedup ++
    ((List.range 32).filter (fun p => (s.cox p).slots.any (fun x => x.st == 1 || x.st == 2))).map Agent.cox ++ [Agent.units]

/-- A new cycle begins. (log 3, DESIGN CHOICE) (log 10, DESIGN CHOICE) -/
def State.tick (s : State) : State :=
  let s := s.tickClock
  let here := fun (c : Crew) => (s.block? c.blk).any (fun b => b.place == 0)
  let s := { s with
    crews := s.crews.map (fun (c : Crew) => if here c then c.tick else c),
    blocks := s.blocks.map (fun (b : Block) => if b.place = 0 then s.tickUmpire b else b) }
  let s := (s.tickLimits.tickWork).tickHarvest.bootNext
  { s with todo := s.agents }

/-- The turn of an agent. (log 3, DESIGN CHOICE) -/
def State.turn (s : State) : Agent → Out
  | .quad core quad => s.quadTurn core quad
  | .cox port => s.coxTurn port
  | .units => s.unitTurn

end Sys2Proof.Machine
end

