-- ==== Sys2Proof/Machine/Place.lean ====
section
/-!
DEFINITION. Place.lean: a crew, or a cox context, that stands before a given word: where an instruction has to lie so that the
next step fetches it (log 3, DESIGN CHOICE).
-/

namespace Sys2Proof.Machine

open Sys2Proof

/-- A crew with 256 registers, all zero, that has not issued, in slot A of core 0, quad 0, crew slot 0 (R14); its seeds are those of R92
and its start is its region entry (R364). -/
def Crew.start (id blk ctx asid : Nat) (pc : DWord) : Crew :=
  let a : PcSlot := { PcSlot.empty with st := .running, pc := pc, mask := BitVec.allOnes 64, region := pc }
  let z : List Word := List.replicate 8 0#32
  { id := id, blk := blk, ctx := ctx, idx := 0, core := 0, quad := 0, qslot := 0, n := 256, regs := List.replicate 256 Row.zero, a := a,
    b := PcSlot.empty, depth := 0, dsh := 0, dsPart := none, dsValid := true, queues := z, flags := List.replicate 12 0,
    lastIssue := none, lastEver := none, flights := [], mode := 0#32, fp := Row.zero, rng := mkRow (fun l => BitVec.ofNat 32 (0x9E3779B9 + l)),
    rngCap := mkRow (fun l => BitVec.ofNat 32 (0x9E3779B9 + l)), regc := 0#32,
    pfmode := 0#32, srOld := [], exited := 0#64, ocnt := List.replicate 4 0#32, gatestat := 0#32, trapq := [], insvc := false,
    svcSlot := false, skip := false, trapcause := 0#32, trapva := 0#64, tvec := none, trecs := List.replicate 16 z,
    arrive := List.replicate 16 0#64, armed := 0#16, armedP := 0#16, carrive := List.replicate 4 0#64, gates := [], priv := 2, dom := 1,
    dent := [], asid := asid, ht := 0#64, window := none, budget := none, demote := 0, demotedFrom := none, stall := none,
    unwinding := none, stepPend := false, retired := false, errs := [] }

/-- A block of one crew resident on core 0, of class S. -/
def Block.start (id launch ctx : Nat) : Block :=
  { id := id, launch := launch, ctx := ctx, core := 0, blockId := 0, nblocks := 1, group := 0, rank := 0, gsize := 1, vcore := 0, cls := 0,
    harv := false, ncrews := 1, bmOff := 0, bmLen := 1024, arr := List.replicate 64 0#32, barP := 0#16,
    barCnt := List.replicate 16 none, barIn := List.replicate 16 [], ump := List.replicate 16 0, cbarP := 0#4,
    cbarOn := List.replicate 4 false, cump := List.replicate 4 0, lscale := 0#32, ovf := 0#32, itrange := 0#64, fixup := 0#32, umpt := 0#32,
    units := 0#64, spilled := 0#64, accu := 0, place := 0, yielded := [], since := 0 }

/-- Page tables at 1 MiB that map VA 0x10000 to the frame at PA 0x110000 for reading, writing and execution, with
nothing older in use (R395, R396, R398). -/
def State.mapPage (s : State) (asid : Nat) : State :=
  let s := s.writePa 0x100000 (leBytes 8 0x101001)
  let s := s.writePa 0x101000 (leBytes 8 0x102001)
  let s := s.writePa 0x102000 (leBytes 8 0x103001)
  let s := s.writePa 0x103008 (leBytes 8 0x11001F)
  { s.invalidate (some asid) none with
           asids := (asid, 0x100000) :: s.asids.filter (fun p => p.1 ≠ asid), tlb := s.tlb.filter (fun t => t.asid ≠ asid),
           icache := s.icache.filter (fun l => l.asid ≠ asid) }

/-- The package in service with a crew of context 1 that issues next, on the line whose slot 0 holds a word (R33, R36). (log 3, DESIGN CHOICE) -/
def State.placeCrew (s : State) (w : BitVec 96) : State :=
  let id := s.order
  let s := (s.mapPage 1).writePa 0x110000 (buildLine 1#32 [w, 0#96, 0#96, 0#96, 0#96])
  { s with
    order := s.order + 1,
    mgmt := { s.mgmt with boot := true, off := false, stage := 3, dieup := 15#4, stackup := 255#8 },
    crews := Crew.start id id 1 1 0x10000#64 :: s.crews, blocks := Block.start id id 1 :: s.blocks, todo := .quad 0 0 :: s.todo }

/-- A context of the cox of port 0 that runs next, in a region of the whole instruction memory whose word 0 is given (R301). (log 3, DESIGN CHOICE) -/
def State.placeCox (s : State) (w : BitVec 64) : State :=
  let s := s.modCox 0 (fun c => { c with
    imem := setWord c.imem 0 w, regions := c.regions.set 0 0x800000010FFF0000#64, cur := 0,
    slots := { CoxSlot.free with st := 2, ctx := 1, asid := 1 } :: c.slots.drop 1 })
  { s with mgmt := { s.mgmt with boot := true, off := false, stage := 3, dieup := 15#4, stackup := 255#8 }, todo := .cox 0 :: s.todo }

end Sys2Proof.Machine
end

