-- ==== Sys2Proof/Machine/Step.lean ====
section
/-!
DEFINITION. Step.lean: one step of the package, and the state in which a given instruction runs next.
-/

namespace Sys2Proof.Machine

open Sys2Proof

/-- One step: the next agent of the cycle takes its turn; when every agent has had its turn the next cycle begins. (log 3, DESIGN CHOICE) -/
def step (s : State) : Host.Outcome State Fault Refusal :=
  match s.todo with
  | [] => .next s.tick
  | a :: rest => { s with todo := rest }.turn a

/-- The state in which the next step runs the instruction of w: a crew's from 65 bits on, a cox's below (log 3, DESIGN CHOICE). -/
def State.withFetchWord (s : State) (nbits w : Nat) : State :=
  if nbits > 64 then s.placeCrew (BitVec.ofNat 96 w) else s.placeCox (BitVec.ofNat 64 w)

end Sys2Proof.Machine
end

