-- ==== Sys2Proof/Safety.lean ====
section
/-!
DEFINITION. Safety.lean: the terms in which claims are stated: an instruction that passes the checks of issue, the state it leaves
when it completes, the canonical form of the memories and the fixed sizes of the machine
(spec 01 R12 to R25; 02 R42 to R46, R58; 13 R278, R288; 14 R300; 22 R393; 24 R429).
-/

namespace Sys2Proof.Machine

open Sys2Proof

/-- The outcome is a next state of which a property holds. -/
def Answers (o : Out) (P : State → Prop) : Prop := ∃ t, o = .next t ∧ P t

/-- The four memories are in their canonical form. -/
def State.memoryCanonical (s : State) : Bool := s.mem.wf && s.bmem.wf && s.amem.wf && s.smem.wf

/-- The parts that exist in a fixed number on this part: 160 cores, 256 groups, 256 key-domains, 32 ports and 32 coxes. -/
def State.sized (s : State) : Bool :=
  s.cores.length == 160 && s.groups.length == 256 && s.kds.length == 256 && s.ports.length == 32 && s.coxes.length == 32

/-! ## An instruction that issues (R42 to R46, R58) -/

/-- Crew `c` is at the cursor, with its fixed-latency instructions whose cycle has passed complete, and an instruction with entry `sp`
may issue: STALL, WAIT and SETF allow it (R44, R46), its privilege and its fields pass checks 5 and 6 (R58), and its queues neither
underflow nor overflow nor are named wrongly (R20). -/
structure Issues (s : State) (c : Crew) (sp : Spec) (bad : Crew → Bool) : Prop where
  crew : s.opening.issuer? = some c
  eligible : mayIssue s.opening c sp.h = true
  allowed : sp.deny = false
  privileged : sp.priv = true → c.priv = 2
  fields : specBad sp c.n = false
  rest : bad (seenCrew s.opening c) = false
  queues : queueFault c.queues sp.srcs sp.dsts = none

/-- The rules of R24 leave the slots of the crew as they are: the issuing slot runs, and no slot waits for a record of the
divergence stack. -/
def Steady (s : State) (c : Crew) : Prop :=
  (c.slot s.cur.slot).st = .running ∧ ((c.slot (!s.cur.slot)).st ≠ .free ∨ c.depth = 0)

/-- What the issuing instruction sees: `act`, operand rows, destinations. -/
def State.view (s : State) (c : Crew) (sp : Spec) : Ctx := issueCtx s.opening c sp
/-- The issuing crew after the bookkeeping of the issue and before the instruction's effect. -/
def State.issuing (s : State) (c : Crew) (sp : Spec) : Crew := issueCrew s.opening c sp
/-- The state in which the effect of the instruction takes place. -/
def State.issued (s : State) (c : Crew) (sp : Spec) : State := s.opening.setCrew (s.issuing c sp)

/-- No fixed-latency write to register r is still in flight (R45). -/
def hazardFree (cycle : Nat) (fl : List Flight) (r : Nat) : Prop :=
  ∀ f ∈ fl, ∀ d, f.due = some d → cycle < d → ∀ a ∈ f.writes, a.reg ≠ r
/-- A lane of register r after register writes in order. -/
def laneAfter (wr : List Wr) (r l : Nat) (v : Word) : Word :=
  wr.foldl (fun v w => if w.reg = r ∧ w.mask.getLsbD l then (v &&& ~~~w.bits) ||| (rowAt w.row l &&& w.bits) else v) v

/-- How an instruction's register writes and its flag turn crew `e` into `c'` (R45, R46, R60). -/
structure CrewWrites (s : State) (e c' : Crew) (sp : Spec) (wr : List Wr) (order : Nat) : Prop where
  counted : c'.flags = match flagOf sp.h with
    | some i => e.flags.set i (e.flags.getD i 0 + 1)
    | none => e.flags
  landed : sp.lat ≠ .var → (∀ w ∈ wr, w.reg < e.regs.length) → ∀ r l, l < 64 → hazardFree s.cycle e.flights r →
    rowAt (c'.regs.getD r Row.zero) l = laneAfter wr r l (rowAt (e.regs.getD r Row.zero) l)
  later : sp.lat = .var → c'.regs = e.regs
  flight : match sp.lat with
    | .fixed n => ∃ f fs, c'.flights = f :: fs ∧ f.id = order ∧ f.flag = flagOf sp.h ∧ f.due = some (s.cycle + n)
    | .var => ∃ f fs, c'.flights = f :: fs ∧ f.id = order ∧ f.flag = flagOf sp.h ∧ f.due = none ∧ f.squash = sp.squash ∧
        f.writes.map (fun a => (a.reg, a.row, a.mask, a.bits)) = wr.map (fun w => (w.reg, w.row, w.mask, w.bits))
    | .none => True

/-- How crew `e` ends as `c'` when its instruction completes at the next instruction in sequence: the PC of its slot, the flag it counts, its
register writes; nothing else of the crew changes. -/
structure CrewEnd (s : State) (e c' : Crew) (sp : Spec) (wr : List Wr) (order : Nat) : Prop where
  frame : c' = { e with
    regs := c'.regs, flags := c'.flags, flights := c'.flights, a := c'.a, b := c'.b, rngCap := c'.rngCap }
  here : (c'.slot s.cur.slot).pc = s.cur.next ∧ (c'.slot s.cur.slot).mask = (e.slot s.cur.slot).mask ∧ (c'.slot s.cur.slot).st = (e.slot s.cur.slot).st
  other : c'.slot (!s.cur.slot) = e.slot (!s.cur.slot)
  entry : if sp.ends then (c'.slot s.cur.slot).region = s.cur.next
    else (c'.slot s.cur.slot).region = (e.slot s.cur.slot).region ∧ c'.rngCap = e.rngCap
  writes : CrewWrites s e c' sp wr order

/-- The state `t` after a completed instruction: `m` as the instruction's effect left it, crew `e` of it ended with the register writes
`wr` at the PC next in sequence, and every other crew as in `s`. -/
def Completed (s m t : State) (e : Crew) (sp : Spec) (wr : List Wr) : Prop :=
  ∃ c', t = { m with
    crews := s.crews.map (fun x => if x.id == e.id then c' else x), order := m.order + 1 } ∧ CrewEnd s e c' sp wr m.order

/-- The state `t` after a control instruction that has set its slots itself: crew `e` with the instruction's register writes. -/
def Moved (s m t : State) (e : Crew) (sp : Spec) (wr : List Wr) : Prop :=
  ∃ c', t = { m with
    crews := s.crews.map (fun x => if x.id == e.id then c' else x), order := m.order + 1 } ∧
    c' = { e with
      regs := c'.regs, flags := c'.flags, flights := c'.flights } ∧ CrewWrites s e c' sp wr m.order

/-- A slot of a crew enters a PC with lanes: it runs there, and the PC is its region entry (R23, R364). -/
def Crew.enter (c : Crew) (k : Bool) (pc : DWord) (m : Mask) (line : List Byte) : Crew :=
  markRegion (c.setSlot k { c.slot k with st := .running, pc := pc, mask := m, line := line, barWait := none }) k pc

/-- Crew `e` after a floating, converting or drawing instruction: the flags of each lane of `act` are added to FPFLAGS, whichever value a
SETS of it under way lets a reader see, and its generator has moved on (R91, R94, R95). -/
def fpCrew (e : Crew) (act : Mask) (r : Nat → LaneRes) : Crew :=
  { e with
    fp := mkRow (fun l => if act.getLsbD l then rowAt e.fp l ||| BitVec.ofNat 32 (r l).fl else rowAt e.fp l),
    rng := mkRow (fun l => if act.getLsbD l then (r l).rng else rowAt e.rng l),
    srOld := e.srOld.map (fun o => if o.sr = 0x19 then { o with rows :=
      [mkRow (fun l => if act.getLsbD l then rowAt (o.rows.headD []) l ||| BitVec.ofNat 32 (r l).fl else rowAt (o.rows.headD []) l)] } else o) }

/-- The register writes of such an instruction: word i of each lane's result to the i-th register. -/
def fpWrites (regs : List Nat) (act : Mask) (bits : Word) (r : Nat → LaneRes) : List Wr :=
  (List.range regs.length).map (fun i =>
    { reg := regs.getD i 0, row := mkRow (fun l => if act.getLsbD l then (r l).w.getD i 0#32 else 0#32), mask := act, bits := bits })

/-- No lane of `act` raises an exception that MODE enables (R96). -/
def NoFpx (x : Ctx) (r : Nat → LaneRes) : Prop :=
  ∀ l, l < 64 → x.act.getLsbD l → trapBits (r l).fl &&& modeEnables x.c.mode = 0

end Sys2Proof.Machine
end

