-- ==== Sys2Proof/WellFormed.lean ====
section
/-!
DEFINITION. WellFormed.lean: which instructions are the meaning of some encoded word (02 R62, R63; 10 R227; 14 R308, R309). Every
field of a format may hold every value: reserved bits and bad operands are refused when the instruction issues, not here.
-/

namespace Sys2Proof

/-- Assigned operations of class 0x0 (R62). -/
def crewClass0 : List Nat :=
  [0x00, 0x01, 0x02, 0x03, 0x04, 0x05, 0x06, 0x07, 0x08, 0x09, 0x0A, 0x0B, 0x0C, 0x0D, 0x0E, 0x10, 0x11, 0x12, 0x13, 0x14,
   0x15]
/-- Assigned operations of class 0x1 (R62). -/
def crewClass1 : List Nat :=
  [0x00, 0x01, 0x02, 0x03, 0x04, 0x05, 0x06, 0x07, 0x08, 0x09, 0x0A, 0x0B, 0x0C, 0x0D, 0x0E, 0x0F, 0x10, 0x11, 0x12, 0x13,
   0x14, 0x15, 0x16, 0x17, 0x18, 0x19, 0x1A, 0x1B, 0x20, 0x21, 0x22, 0x23, 0x24, 0x25, 0x26, 0x27, 0x28, 0x29, 0x30, 0x31]
/-- Assigned operations of class 0x2 (R62). -/
def crewClass2 : List Nat :=
  [0x00, 0x01, 0x02, 0x03, 0x04, 0x05, 0x06, 0x07, 0x08, 0x10, 0x11, 0x12, 0x13, 0x14, 0x15, 0x16, 0x17]
/-- Assigned operations of class 0x3 (R62). -/
def crewClass3 : List Nat :=
  [0x00, 0x01, 0x02, 0x03, 0x04, 0x08, 0x09, 0x0A, 0x0B, 0x0C, 0x20, 0x21, 0x22, 0x23, 0x24, 0x25, 0x26, 0x27, 0x28, 0x29,
   0x2A, 0x2B, 0x30, 0x31, 0x32, 0x33]
/-- Assigned operations of class 0x4 (R62). -/
def crewClass4 : List Nat :=
  [0x00, 0x01, 0x02, 0x03, 0x04, 0x05, 0x06, 0x10, 0x11, 0x12, 0x13, 0x14, 0x15, 0x16, 0x17]
/-- Assigned operations of class 0x5 (R62). -/
def crewClass5 : List Nat :=
  [0x00, 0x01, 0x02, 0x03, 0x04, 0x05, 0x06, 0x07, 0x08, 0x09, 0x10, 0x11, 0x12, 0x13, 0x14, 0x15, 0x16, 0x17, 0x18, 0x19,
   0x20, 0x21, 0x28, 0x29]
/-- Assigned operations of class 0x6 (R62). -/
def crewClass6 : List Nat :=
  [0x00, 0x01, 0x02, 0x03, 0x04, 0x05, 0x08, 0x09, 0x0A, 0x0B, 0x0C, 0x0D, 0x0E, 0x0F, 0x10, 0x14, 0x15, 0x16, 0x17, 0x18,
   0x19, 0x1A, 0x1B, 0x20]
/-- Assigned operations of class 0x7 (R62). -/
def crewClass7 : List Nat :=
  [0x00, 0x01, 0x02, 0x03, 0x04, 0x05, 0x06, 0x07, 0x08, 0x09]
/-- Assigned operations of class 0x8 (R62). -/
def crewClass8 : List Nat :=
  [0x00, 0x01, 0x02, 0x03, 0x04, 0x05, 0x06, 0x07, 0x08, 0x10, 0x11, 0x12, 0x13, 0x14, 0x15, 0x16, 0x17, 0x18, 0x19, 0x1A,
   0x20, 0x21, 0x22, 0x23, 0x24, 0x25, 0x26, 0x27, 0x28, 0x30, 0x31, 0x32, 0x33, 0x34, 0x35, 0x36, 0x37, 0x38, 0x39]
/-- Assigned operations of class 0x9 (R62). -/
def crewClass9 : List Nat :=
  [0x00, 0x01, 0x02, 0x03, 0x04, 0x05, 0x06, 0x07, 0x08, 0x09, 0x0A, 0x0B, 0x0C, 0x0D, 0x0E, 0x10, 0x18, 0x19, 0x1A, 0x1B,
   0x1C]
/-- Assigned operations of class 0xA (R62). -/
def crewClass10 : List Nat :=
  [0x00, 0x01, 0x02, 0x03, 0x04, 0x05, 0x08, 0x09, 0x0A, 0x0B, 0x10, 0x11, 0x12, 0x18]
/-- Assigned operations of class 0xB (R62). -/
def crewClass11 : List Nat :=
  [0x00, 0x01, 0x02, 0x03, 0x04, 0x05]
/-- Assigned operations of class 0xC (R62). -/
def crewClass12 : List Nat :=
  [0x00, 0x08, 0x09, 0x0A, 0x0B, 0x0C, 0x0D, 0x0E, 0x0F, 0x10, 0x18, 0x19, 0x1A, 0x1B, 0x1C, 0x1D, 0x20, 0x21, 0x22, 0x23,
   0x24, 0x25, 0x28]
/-- Assigned operations of class 0xD (R62). -/
def crewClass13 : List Nat :=
  [0x00, 0x01, 0x02, 0x03, 0x08, 0x09, 0x10, 0x11, 0x12, 0x13, 0x18, 0x19, 0x20, 0x21, 0x22]
/-- Assigned operations of class 0xE (R62). -/
def crewClass14 : List Nat :=
  [0x00, 0x01, 0x08, 0x09, 0x0A, 0x10, 0x11, 0x12, 0x18]
/-- The assigned operations of each class; class 0xF has none (R62). -/
def crewClasses : List (List Nat) :=
  [crewClass0, crewClass1, crewClass2, crewClass3, crewClass4, crewClass5, crewClass6, crewClass7,
   crewClass8, crewClass9, crewClass10, crewClass11, crewClass12, crewClass13, crewClass14]
/-- An OPC that names an operation (R62, R63). -/
def crewAssigned (opc : BitVec 10) : Bool := (crewClasses.getD (opc.toNat / 64) []).contains (opc.toNat % 64)
/-- The assigned cox operations (R308). -/
def coxOps : List Nat :=
  [0x00, 0x01, 0x02, 0x03, 0x04, 0x08, 0x09, 0x0A, 0x0B, 0x0C, 0x0D, 0x0E, 0x10, 0x11, 0x18, 0x19, 0x1A, 0x1B, 0x1C, 0x1D,
   0x20, 0x21, 0x22, 0x23, 0x24, 0x25, 0x28, 0x29]
/-- A cox OPC that names an operation (R308, R309). -/
def coxAssigned (opc : BitVec 6) : Bool := coxOps.contains opc.toNat

/-- An instruction that some word stands for: ILLOP only for an unassigned operation, and each row of hvhint with the low bit
that tells it apart (R63, R227, R309). -/
def wellFormed : Instr → Bool
  | .illop opc _ => !crewAssigned opc
  | .coxIllop opc _ => !coxAssigned opc
  | .hvhintLend f => f.body.getLsbD 0
  | .hvhintRecall f => !f.body.getLsbD 0
  | _ => true

end Sys2Proof
end

