-- ==== Sys2Proof/Certificates/Slice0/Obligations.lean ====
section
/-!
DEFINITION. Obligations.lean: the statements for the provers. The tables of `Sys2Proof.Claims` write the results of the register
instructions in the arithmetic of the specification; a statement then says that every row of a table is what the machine does.
-/

namespace Sys2Proof.Claims

open Sys2Proof Sys2Proof.Machine

/-! ## Register instructions of formats R, I and X -/

/-- The word whose bit i is p i. -/
def wordOfBits (p : Nat → Bool) : Word := BitVec.ofFnLE (fun i => p i)

/-- A row of a table of format R instructions with one 32-bit result: the constructor, the operand types, the latency, the result of a
lane from the values that A, B and C deliver. -/
structure RowR where
  instr : FormR → Instr
  use : RUse
  lat : Nat
  val : DWord → DWord → DWord → Word

/-- The issue entry of a row. -/
def RowR.spec (r : RowR) (f : FormR) : Spec := specR f r.use [one f.d] (.fixed r.lat)

/-- The row holds: the instruction completes and writes its destination in the lanes of `act`, and nothing else (`Completed`). -/
def RowR.Holds (r : RowR) : Prop :=
  ∀ (f : FormR) (s : State) (c : Crew), Issues s c (r.spec f) (r.use.bad f) → Steady s c →
    Answers (exec (r.instr f) s) (fun t =>
      let x := s.view c (r.spec f)
      Completed s s.opening t (s.issuing c (r.spec f)) (r.spec f)
        [Wr.full (x.d 0) x.act (fun l => r.val (x.opA s.opening r.use f l) (x.opB s.opening r.use f l) (x.opC s.opening r.use f l))])

/-- R104. -/
def integerRows : List RowR := [
  ⟨.iaddI32, useII, 2, fun a b _ => BitVec.ofNat 32 (a.toNat + b.toNat)⟩,
  ⟨.isubI32, useII, 2, fun a b _ => BitVec.ofInt 32 (a.toNat - b.toNat)⟩,
  ⟨.iadd3I32, useIII, 2, fun a b c => BitVec.ofNat 32 (a.toNat + b.toNat + c.toNat)⟩,
  ⟨.imulI32, useII, 4, fun a b _ => BitVec.ofInt 32 ((lo32 a).toInt * (lo32 b).toInt)⟩,
  ⟨.imulhiI32, useII, 4, fun a b _ => BitVec.ofInt 32 (((lo32 a).toInt * (lo32 b).toInt).fdiv (2 ^ 32))⟩,
  ⟨.imulhiN32, useNN, 4, fun a b _ => BitVec.ofNat 32 ((lo32 a).toNat * (lo32 b).toNat / 2 ^ 32)⟩,
  ⟨.imadI32, useIII, 4, fun a b c => BitVec.ofNat 32 (a.toNat * b.toNat + c.toNat)⟩,
  ⟨.iminI32, useII, 2, fun a b _ => BitVec.ofInt 32 (min (lo32 a).toInt (lo32 b).toInt)⟩,
  ⟨.imaxI32, useII, 2, fun a b _ => BitVec.ofInt 32 (max (lo32 a).toInt (lo32 b).toInt)⟩,
  ⟨.iminN32, useNN, 2, fun a b _ => BitVec.ofNat 32 (min (lo32 a).toNat (lo32 b).toNat)⟩,
  ⟨.imaxN32, useNN, 2, fun a b _ => BitVec.ofNat 32 (max (lo32 a).toNat (lo32 b).toNat)⟩]

/-- R109, R115: bitwise forms and moves of format R. -/
def bitwiseRows : List RowR := [
  ⟨.andB32, useBB, 2, fun a b _ => wordOfBits (fun i => a.getLsbD i && b.getLsbD i)⟩,
  ⟨.orB32, useBB, 2, fun a b _ => wordOfBits (fun i => a.getLsbD i || b.getLsbD i)⟩,
  ⟨.xorB32, useBB, 2, fun a b _ => wordOfBits (fun i => a.getLsbD i ^^ b.getLsbD i)⟩,
  ⟨.andnB32, useBB, 2, fun a b _ => wordOfBits (fun i => a.getLsbD i && !b.getLsbD i)⟩,
  ⟨.notB32, useB, 2, fun a _ _ => wordOfBits (fun i => !a.getLsbD i)⟩,
  ⟨.movB32, useB, 2, fun a _ _ => lo32 a⟩,
  ⟨.selB32, useBBB, 2, fun a b c => if lo32 c = 0#32 then lo32 b else lo32 a⟩,
  ⟨.bselB32, useBBB, 2, fun a b c => wordOfBits (fun i => if c.getLsbD i then a.getLsbD i else b.getLsbD i)⟩]

/-- R110: the 32-bit shifts and rotates; the count is the whole of b. -/
def shiftRows : List RowR := [
  ⟨.shlB32, useBN, 2, fun a b _ => BitVec.ofNat 32 (a.toNat * 2 ^ min b.toNat 32)⟩,
  ⟨.shrN32, useBN, 2, fun a b _ => BitVec.ofNat 32 ((lo32 a).toNat / 2 ^ min b.toNat 32)⟩,
  ⟨.shrI32, ⟨some .i32, some .n32, none⟩, 2, fun a b _ => BitVec.ofInt 32 ((lo32 a).toInt.fdiv (2 ^ min b.toNat 31))⟩,
  ⟨.rotlB32, useBN, 2, fun a b _ => wordOfBits (fun i => a.getLsbD ((i + 32 - b.toNat % 32) % 32))⟩,
  ⟨.rotrB32, useBN, 2, fun a b _ => wordOfBits (fun i => a.getLsbD ((i + b.toNat % 32) % 32))⟩]

/-- The byte of a byte switch that control byte k selects from the eight bytes of b:a (R114). -/
def switchByte (src k : Nat) : Nat :=
  let y := src / 2 ^ (8 * (k % 8)) % 256
  if k / 8 % 4 = 0 then y else if k / 8 % 4 = 1 then 0 else if k / 8 % 4 = 2 then (if 128 ≤ y then 0xFF else 0) else 0xFF

/-- R111, R113, R114: bit fields, bit counts and the byte switch. -/
def bitFieldRows : List RowR := [
  ⟨.bfeN32, ⟨some .b32, some .n32, some .n32⟩, 2, fun a b c =>
    wordOfBits (fun i => decide (i < c.toNat % 256) && (lo32 a).getLsbD (b.toNat % 256 + i))⟩,
  ⟨.bfeI32, ⟨some .b32, some .n32, some .n32⟩, 2, fun a b c =>
    wordOfBits (fun i => decide (0 < c.toNat % 256) && (lo32 a).getLsbD (min (b.toNat % 256 + min i (c.toNat % 256 - 1)) 31))⟩,
  ⟨.popcB32, useB, 2, fun a _ _ => BitVec.ofNat 32 ((List.range 32).countP (fun i => a.getLsbD i))⟩,
  ⟨.clzB32, useB, 2, fun a _ _ => BitVec.ofNat 32 ((List.range 32).takeWhile (fun i => !a.getLsbD (31 - i))).length⟩,
  ⟨.ctzB32, useB, 2, fun a _ _ => BitVec.ofNat 32 ((List.range 32).takeWhile (fun i => !a.getLsbD i)).length⟩,
  ⟨.brevB32, useB, 2, fun a _ _ => wordOfBits (fun i => a.getLsbD (31 - i))⟩,
  ⟨.bswB32, useBBB, 2, fun a b c =>
    wordOfBits (fun i => (switchByte ((lo32 b).toNat * 2 ^ 32 + (lo32 a).toNat) (c.toNat / 2 ^ (8 * (i / 8)) % 256)).testBit (i % 8))⟩]

/-- Element i of a word of elements of w bits, read signed or unsigned. -/
def element (signed : Bool) (w : Nat) (v : DWord) (i : Nat) : Int :=
  let x : Int := v.toNat / 2 ^ (w * i) % 2 ^ w
  if signed ∧ 2 ^ (w - 1) ≤ x then x - 2 ^ w else x
/-- The word of 32 / w elements of which element i is the low w bits of e i. -/
def packElements (w : Nat) (e : Nat → Int) : Word := BitVec.ofInt 32 (((List.range (32 / w)).map (fun i => e i % 2 ^ w * 2 ^ (w * i))).sum)
/-- A packed operation whose result wraps (R117). -/
def packedRow (signed : Bool) (w : Nat) (op : Int → Int → Int) : DWord → DWord → DWord → Word := fun a b _ =>
  packElements w (fun i => op (element signed w a i) (element signed w b i))
/-- A packed sum clamped to the signed range of the element (R117). -/
def packedSat (w : Nat) : DWord → DWord → DWord → Word := fun a b _ =>
  packElements w (fun i => max (-(2 ^ (w - 1))) (min (element true w a i + element true w b i) (2 ^ (w - 1) - 1)))
/-- A dot product added to c and wrapped once (R118). -/
def dotRow (signed : Bool) (w : Nat) : DWord → DWord → DWord → Word := fun a b c =>
  BitVec.ofInt 32 (c.toNat + ((List.range (32 / w)).map (fun i => element signed w a i * element signed w b i)).sum)

/-- R117, R118: packed integers and dot products. -/
def packedRows : List RowR := [
  ⟨.vaddI16x2, ⟨some .i16x2, some .i16x2, none⟩, 2, packedRow true 16 (· + ·)⟩,
  ⟨.vsubI16x2, ⟨some .i16x2, some .i16x2, none⟩, 2, packedRow true 16 (· - ·)⟩,
  ⟨.vaddI8x4, ⟨some .i8x4, some .i8x4, none⟩, 2, packedRow true 8 (· + ·)⟩,
  ⟨.vsubI8x4, ⟨some .i8x4, some .i8x4, none⟩, 2, packedRow true 8 (· - ·)⟩,
  ⟨.vminI16x2, ⟨some .i16x2, some .i16x2, none⟩, 2, packedRow true 16 min⟩,
  ⟨.vmaxI16x2, ⟨some .i16x2, some .i16x2, none⟩, 2, packedRow true 16 max⟩,
  ⟨.vminI8x4, ⟨some .i8x4, some .i8x4, none⟩, 2, packedRow true 8 min⟩,
  ⟨.vmaxI8x4, ⟨some .i8x4, some .i8x4, none⟩, 2, packedRow true 8 max⟩,
  ⟨.vminN8x4, ⟨some .n8x4, some .n8x4, none⟩, 2, packedRow false 8 min⟩,
  ⟨.vmaxN8x4, ⟨some .n8x4, some .n8x4, none⟩, 2, packedRow false 8 max⟩,
  ⟨.vaddsatI16x2, ⟨some .i16x2, some .i16x2, none⟩, 2, packedSat 16⟩,
  ⟨.vaddsatI8x4, ⟨some .i8x4, some .i8x4, none⟩, 2, packedSat 8⟩,
  ⟨.dp4I8x4, ⟨some .i8x4, some .i8x4, some .i32⟩, 4, dotRow true 8⟩,
  ⟨.dp4N8x4, ⟨some .n8x4, some .n8x4, some .n32⟩, 4, dotRow false 8⟩,
  ⟨.dp2I16x2, ⟨some .i16x2, some .i16x2, some .i32⟩, 4, dotRow true 16⟩,
  ⟨.dp8I4x8, ⟨some .i4x8, some .i4x8, some .i32⟩, 4, dotRow true 4⟩]

/-- A row of a table of format R instructions that write a pair. -/
structure RowPair where
  instr : FormR → Instr
  use : RUse
  lat : Nat
  val : DWord → DWord → DWord → DWord

/-- The issue entry of a row. -/
def RowPair.spec (r : RowPair) (f : FormR) : Spec := specR f r.use [grp f.d 2] (.fixed r.lat)

/-- The row holds: the low word of the result goes to D and the high word to D + 1. -/
def RowPair.Holds (r : RowPair) : Prop :=
  ∀ (f : FormR) (s : State) (c : Crew), Issues s c (r.spec f) (r.use.bad f) → Steady s c →
    Answers (exec (r.instr f) s) (fun t =>
      let x := s.view c (r.spec f)
      let v := fun l => r.val (x.opA s.opening r.use f l) (x.opB s.opening r.use f l) (x.opC s.opening r.use f l)
      Completed s s.opening t (s.issuing c (r.spec f)) (r.spec f)
        [Wr.full (x.d 0) x.act (fun l => BitVec.ofNat 32 (v l).toNat), Wr.full (x.d 0 + 1) x.act (fun l => BitVec.ofNat 32 ((v l).toNat / 2 ^ 32))])

/-- R106, R107, R110: wide multiply-adds, 64-bit sums, lea and the 64-bit shifts. -/
def pairRows : List RowPair := [
  ⟨.imadwI32, ⟨some .i32, some .i32, some .i64⟩, 4, fun a b c => BitVec.ofInt 64 ((lo32 a).toInt * (lo32 b).toInt + c.toInt)⟩,
  ⟨.imadwN32, ⟨some .n32, some .n32, some .n64⟩, 4, fun a b c => BitVec.ofNat 64 ((lo32 a).toNat * (lo32 b).toNat + c.toNat)⟩,
  ⟨.iaddI64, ⟨some .i64, some .i64, none⟩, 2, fun a b _ => BitVec.ofNat 64 (a.toNat + b.toNat)⟩,
  ⟨.isubI64, ⟨some .i64, some .i64, none⟩, 2, fun a b _ => BitVec.ofInt 64 (a.toNat - b.toNat)⟩,
  ⟨.lea, ⟨some .b64, some .i32, some .n32⟩, 2, fun a b c => BitVec.ofInt 64 (a.toNat + (lo32 b).toInt * 2 ^ (c.toNat % 64))⟩,
  ⟨.shlB64, useB64N, 2, fun a b _ => BitVec.ofNat 64 (a.toNat * 2 ^ min b.toNat 64)⟩,
  ⟨.shrN64, useB64N, 2, fun a b _ => BitVec.ofNat 64 (a.toNat / 2 ^ min b.toNat 64)⟩,
  ⟨.shrI64, ⟨some .i64, some .n32, none⟩, 2, fun a b _ => BitVec.ofInt 64 (a.toInt.fdiv (2 ^ min b.toNat 63))⟩]

/-- A row of format I instructions that write one register from A and the immediate. -/
structure RowI where
  instr : FormI → Instr
  lat : Nat
  /-- field A names a source (it is reserved in movi) -/
  source : Bool
  val : Word → Word → Word

/-- The issue entry of a row. -/
def RowI.spec (r : RowI) (f : FormI) : Spec := specI f (if r.source then [one f.a] else []) [one f.d] (.fixed r.lat)
/-- SUB is zero, and A where it is reserved (R103, R115). -/
def RowI.bad (r : RowI) (f : FormI) : Bool := f.sub ≠ 0#7 || (!r.source && f.a ≠ 0#8)

/-- The row holds. -/
def RowI.Holds (r : RowI) : Prop :=
  ∀ (f : FormI) (s : State) (c : Crew), Issues s c (r.spec f) (fun _ => r.bad f) → Steady s c →
    Answers (exec (r.instr f) s) (fun t =>
      let x := s.view c (r.spec f)
      Completed s s.opening t (s.issuing c (r.spec f)) (r.spec f)
        [Wr.full (x.d 0) x.act (fun l => r.val (rowAt (x.row s.opening f.a.toNat) l) f.imm)])

/-- R108, R109, R115: the immediate forms with one 32-bit result. -/
def immediateRows : List RowI := [
  ⟨.iaddiI32, 2, true, fun a i => BitVec.ofInt 32 (a.toInt + i.toInt)⟩,
  ⟨.imuliI32, 4, true, fun a i => BitVec.ofInt 32 (a.toInt * i.toInt)⟩,
  ⟨.andiB32, 2, true, fun a i => wordOfBits (fun k => a.getLsbD k && i.getLsbD k)⟩,
  ⟨.oriB32, 2, true, fun a i => wordOfBits (fun k => a.getLsbD k || i.getLsbD k)⟩,
  ⟨.xoriB32, 2, true, fun a i => wordOfBits (fun k => a.getLsbD k ^^ i.getLsbD k)⟩,
  ⟨.moviB32, 2, false, fun _ i => i⟩]

/-- A row of the compares of R116: the predicate on the comparands. -/
structure RowCmp where
  instr : FormI → Instr
  test : Word → Word → Prop

/-- The second comparand of a compare is the immediate (IMMF). -/
def cmpImmediate (f : FormI) : Bool := f.sub.getLsbD 6
/-- The issue entry of a compare: a register comparand is named by the low byte of IMM32. -/
def cmpSpec (f : FormI) : Spec :=
  specI f (one f.a :: (if cmpImmediate f then [] else [one (f.imm.setWidth 8)])) [] (.fixed 2)

/-- The row holds: bit BIT of D becomes t in every lane of `act`; the other 31 bits are not written. -/
def RowCmp.Holds (r : RowCmp) : Prop :=
  ∀ (f : FormI) (s : State) (c : Crew), Issues s c (cmpSpec f) (fun _ => cmpBad f) → Steady s c →
    Answers (exec (r.instr f) s) (fun t =>
      let x := s.view c (cmpSpec f)
      let bit := f.sub.toNat % 32
      ∃ row : Row,
        (∀ l, l < 64 → (rowAt row l = 1#32 <<< bit ↔
          r.test (rowAt (x.row s.opening f.a.toNat) l) (if cmpImmediate f then f.imm else rowAt (x.row s.opening (f.imm.toNat % 256)) l)) ∧
          (rowAt row l = 1#32 <<< bit ∨ rowAt row l = 0#32)) ∧
        Completed s s.opening t (s.issuing c (cmpSpec f)) (cmpSpec f)
          [{ reg := f.d.toNat, row := row, mask := x.act, bits := 1#32 <<< bit }])

/-- R116: the compares. -/
def compareRows : List RowCmp := [
  ⟨.cmpEqB32, fun a y => a = y⟩, ⟨.cmpNeB32, fun a y => a ≠ y⟩,
  ⟨.cmpLtI32, fun a y => a.toInt < y.toInt⟩, ⟨.cmpLeI32, fun a y => a.toInt ≤ y.toInt⟩,
  ⟨.cmpGtI32, fun a y => a.toInt > y.toInt⟩, ⟨.cmpGeI32, fun a y => a.toInt ≥ y.toInt⟩,
  ⟨.cmpLtN32, fun a y => a.toNat < y.toNat⟩, ⟨.cmpLeN32, fun a y => a.toNat ≤ y.toNat⟩,
  ⟨.cmpGtN32, fun a y => a.toNat > y.toNat⟩, ⟨.cmpGeN32, fun a y => a.toNat ≥ y.toNat⟩]

/-! ## Carry forms, bit-field insertion, queues -/

/-- The issue entry of a carry form (R105): D and E are written, A, B and C are read. -/
def carrySpec (f : FormX) : Spec := specX f [one f.a, one f.b, one f.c] [one f.d, one f.e] (.fixed 2)
/-- The issue entry of bfi.b32 (R112). -/
def bfiSpec (f : FormX) : Spec := specX f [one f.a, one f.b, one f.c, one f.e] [one f.d] (.fixed 2)
/-- A word of a source row in a lane. -/
def srcWord (x : Ctx) (s : State) (r : BitVec 8) (l : Nat) : Word := rowAt (x.row s r.toNat) l

/-! ## Floating arithmetic -/

/-- A row of a table of format R floating instructions: code and flags of the result from MODE and the operand codes. -/
structure RowF where
  instr : FormR → Instr
  use : RUse
  pair : Bool
  lat : Nat
  op : FOp

/-- The issue entry of a row. -/
def RowF.spec (r : RowF) (f : FormR) : Spec := { specR f r.use [if r.pair then grp f.d 2 else one f.d] (.fixed r.lat) with fpx := true }
/-- What a lane of a row's instruction does. -/
def RowF.lane (r : RowF) (f : FormR) (x : Ctx) (s : State) (l : Nat) : LaneRes :=
  let y := r.op x.c.mode (x.opA s r.use f l).toNat (x.opB s r.use f l).toNat (x.opC s r.use f l).toNat
  { w := BitVec.ofNat 32 y.1 :: (if r.pair then [BitVec.ofNat 32 (y.1 / 2 ^ 32)] else []), fl := y.2, rng := rowAt x.c.rng l }

/-- The instruction completes where no lane raises an enabled exception: its writes, its flags, nothing else. -/
def FpCompletes (i : Instr) (sp : Spec) (bad : Crew → Bool) (regs : Ctx → List Nat) (bits : Word) (lane : Ctx → State → Nat → LaneRes) : Prop :=
  ∀ (s : State) (c : Crew), Issues s c sp bad → Steady s c →
    let x := s.view c sp
    NoFpx x (lane x s.opening) →
    Answers (exec i s) (fun t =>
      Completed s s.opening t (fpCrew (s.issuing c sp) x.act (lane x s.opening)) sp (fpWrites (regs x) x.act bits (lane x s.opening)))

/-- The row holds. -/
def RowF.Holds (r : RowF) : Prop :=
  ∀ f : FormR, FpCompletes (r.instr f) (r.spec f) (r.use.bad f) (fun x => if r.pair then [x.d 0, x.d 0 + 1] else [x.d 0]) 0xFFFFFFFF#32 (r.lane f)

/-- A sum, difference, product or fused product and sum of the values of codes, rounded once (R124). -/
def roundedOp (f : NFmt) (g : Bool → Val → Val → Val → RV) : FOp := fun md a b c =>
  let v := fun k => f.decode (f.flushIn (modeFtzi md) k)
  let r := g (modeRdn f md) (v a) (v b) (v c)
  let y := roundFloat f (f.arith md) 0 r.v
  (y.1, y.2 ||| r.fl)
/-- a + b. -/
def opAdd (f : NFmt) : FOp := roundedOp f (fun rdn a b _ => addV rdn a b)
/-- a - b. -/
def opSub (f : NFmt) : FOp := roundedOp f (fun rdn a b _ => addV rdn a b.negate)
/-- a * b. -/
def opMul (f : NFmt) : FOp := roundedOp f (fun _ a b _ => mulV a b)
/-- a * b + c. -/
def opFma (f : NFmt) : FOp := roundedOp f (fun rdn a b c => fmaV rdn a b c)
/-- min and max (R125): they do not round. -/
def opMinMax (f : NFmt) (isMin : Bool) : FOp := fun md a b _ =>
  minMax f isMin (modeFtzo md) (f.flushIn (modeFtzi md) a) (f.flushIn (modeFtzi md) b)
/-- The operation on both 16-bit elements of a word (R127). -/
def opPacked (op : FOp) : FOp := fun md a b c =>
  let lo := op md (a % 2 ^ 16) (b % 2 ^ 16) (c % 2 ^ 16)
  let hi := op md (a / 2 ^ 16 % 2 ^ 16) (b / 2 ^ 16 % 2 ^ 16) (c / 2 ^ 16 % 2 ^ 16)
  (lo.1 + hi.1 * 2 ^ 16, lo.2 ||| hi.2)

/-- R124, R125, R127, R128: the arithmetic of FP32, of two FP16 or BF16 elements, and of FP64. -/
def floatRows : List RowF := [
  ⟨.faddF32, use2 .f32, false, 4, opAdd .f32⟩, ⟨.fsubF32, use2 .f32, false, 4, opSub .f32⟩, ⟨.fmulF32, use2 .f32, false, 4, opMul .f32⟩,
  ⟨.ffmaF32, use3 .f32, false, 4, opFma .f32⟩, ⟨.fminF32, use2 .f32, false, 4, opMinMax .f32 true⟩, ⟨.fmaxF32, use2 .f32, false, 4, opMinMax .f32 false⟩,
  ⟨.haddF16x2, use2 .f16x2, false, 4, opPacked (opAdd .f16)⟩, ⟨.hmulF16x2, use2 .f16x2, false, 4, opPacked (opMul .f16)⟩,
  ⟨.hfmaF16x2, use3 .f16x2, false, 4, opPacked (opFma .f16)⟩, ⟨.hminF16x2, use2 .f16x2, false, 4, opPacked (opMinMax .f16 true)⟩,
  ⟨.hmaxF16x2, use2 .f16x2, false, 4, opPacked (opMinMax .f16 false)⟩,
  ⟨.haddBf16x2, use2 .bf16x2, false, 4, opPacked (opAdd .bf16)⟩, ⟨.hmulBf16x2, use2 .bf16x2, false, 4, opPacked (opMul .bf16)⟩,
  ⟨.hfmaBf16x2, use3 .bf16x2, false, 4, opPacked (opFma .bf16)⟩, ⟨.hminBf16x2, use2 .bf16x2, false, 4, opPacked (opMinMax .bf16 true)⟩,
  ⟨.hmaxBf16x2, use2 .bf16x2, false, 4, opPacked (opMinMax .bf16 false)⟩,
  ⟨.daddF64, use2 .f64, true, 8, opAdd .f64⟩, ⟨.dsubF64, use2 .f64, true, 8, opSub .f64⟩, ⟨.dmulF64, use2 .f64, true, 8, opMul .f64⟩,
  ⟨.dfmaF64, use3 .f64, true, 8, opFma .f64⟩, ⟨.dminF64, use2 .f64, true, 8, opMinMax .f64 true⟩, ⟨.dmaxF64, use2 .f64, true, 8, opMinMax .f64 false⟩]

/-- The class bit of a code (R129): 0 signalling NaN to 9 positive infinity, from its sign, exponent and fraction fields. -/
def classBit (f : NFmt) (x : Nat) : Nat :=
  let sign := x / 2 ^ (f.width - 1) % 2 = 1
  let e := x / 2 ^ f.frac % 2 ^ (f.width - 1 - f.frac)
  let m := x % 2 ^ f.frac
  let top := 2 ^ (f.width - 1 - f.frac) - 1
  if e = top then (if m = 0 then (if sign then 2 else 9) else if 2 ^ (f.frac - 1) ≤ m then 1 else 0)
  else if e = 0 then (if m = 0 then (if sign then 5 else 6) else if sign then 4 else 7)
  else if sign then 3 else 8

/-- R129: fcls and dcls write one class bit. -/
def classRows : List RowF := [
  ⟨.fclsF32, use1 .f32, false, 4, fun _ a _ _ => (2 ^ classBit .f32 (a % 2 ^ 32), 0)⟩,
  ⟨.dclsF64, use1 .f64, false, 8, fun _ a _ _ => (2 ^ classBit .f64 a, 0)⟩]

/-- The predicates of R130 on values; a comparison with a NaN is unordered. -/
def predHolds (p : FPred) (a y : Val) : Bool :=
  match p with
  | .eq => !(a.isNan || y.isNan) && eqV a y
  | .ne => a.isNan || y.isNan || !eqV a y
  | .lt => !(a.isNan || y.isNan) && ltV a y
  | .le => !(a.isNan || y.isNan) && !ltV y a
  | .gt => !(a.isNan || y.isNan) && ltV y a
  | .ge => !(a.isNan || y.isNan) && !ltV a y
  | .un => a.isNan || y.isNan
  | .or => !(a.isNan || y.isNan)
/-- An ordered predicate raises NV for any NaN, the others for a signalling NaN (R130). -/
def predNv (p : FPred) (a y : Val) : Bool :=
  if p = .lt ∨ p = .le ∨ p = .gt ∨ p = .ge then a.isNan || y.isNan else a.isSnan || y.isSnan

/-- A row of the floating compares. -/
structure RowFc where
  instr : FormI → Instr
  pair : Bool
  pred : FPred

/-- The issue entry of a floating compare. -/
def RowFc.spec (r : RowFc) (f : FormI) : Spec :=
  let o := fun b : BitVec 8 => if r.pair then grp b 2 else one b
  { specI f (o f.a :: (if cmpImmediate f then [] else [o (f.imm.setWidth 8)])) [] (.fixed (if r.pair then 8 else 4)) with fpx := true }
/-- What a lane does: the guard bit and NV. An immediate is an FP32 code; FTZI applies to codes of the compare's own format. -/
def RowFc.lane (r : RowFc) (f : FormI) (x : Ctx) (s : State) (l : Nat) : LaneRes :=
  let m : NFmt := if r.pair then .f64 else .f32
  let t : ETy := if r.pair then .f64 else .f32
  let v := fun k => m.decode (m.flushIn (modeFtzi x.c.mode) k)
  let a := v (x.wide s f.a t l).toNat
  let y := if cmpImmediate f then (if r.pair then NFmt.f32.decode f.imm.toNat else v f.imm.toNat) else v (x.wide s (f.imm.setWidth 8) t l).toNat
  { w := [if predHolds r.pred a y then 1#32 <<< (f.sub.toNat % 32) else 0#32], fl := if predNv r.pred a y then 16 else 0, rng := rowAt x.c.rng l }
/-- The row holds: bit BIT of guard register D, in the lanes of `act`. -/
def RowFc.Holds (r : RowFc) : Prop :=
  ∀ f : FormI, FpCompletes (r.instr f) (r.spec f) (fun _ => cmpBad f) (fun _ => [f.d.toNat]) (1#32 <<< (f.sub.toNat % 32)) (r.lane f)

/-- R130. -/
def floatCompareRows : List RowFc := [
  ⟨.fcmpEqF32, false, .eq⟩, ⟨.fcmpNeF32, false, .ne⟩, ⟨.fcmpLtF32, false, .lt⟩, ⟨.fcmpLeF32, false, .le⟩,
  ⟨.fcmpGtF32, false, .gt⟩, ⟨.fcmpGeF32, false, .ge⟩, ⟨.fcmpUnF32, false, .un⟩, ⟨.fcmpOrF32, false, .or⟩,
  ⟨.dcmpEqF64, true, .eq⟩, ⟨.dcmpNeF64, true, .ne⟩, ⟨.dcmpLtF64, true, .lt⟩, ⟨.dcmpLeF64, true, .le⟩,
  ⟨.dcmpGtF64, true, .gt⟩, ⟨.dcmpGeF64, true, .ge⟩, ⟨.dcmpUnF64, true, .un⟩, ⟨.dcmpOrF64, true, .or⟩]

/-- The reciprocals and square roots, correctly rounded (R131). -/
def rootRows : List RowF := [
  ⟨.rcpF32, use1 .f32, false, 12, fun md a _ _ => (rcpV (fval .f32 md a)).rounded .f32 (NFmt.arith .f32 md)⟩,
  ⟨.sqrtF32, use1 .f32, false, 12, fun md a _ _ => (sqrtV (fval .f32 md a)).rounded .f32 (NFmt.arith .f32 md)⟩,
  ⟨.rcpF64, use1 .f64, true, 15, fun md a _ _ => (rcpV (fval .f64 md a)).rounded .f64 (NFmt.arith .f64 md)⟩,
  ⟨.sqrtF64, use1 .f64, true, 15, fun md a _ _ => (sqrtV (fval .f64 md a)).rounded .f64 (NFmt.arith .f64 md)⟩]

/-- The special functions of R132, each with the bounds of its exact value. -/
def functionRows : List ((FormR → Instr) × (Val → Fn)) := [
  (.rsqrtF32, fun v => .exact (rsqrtV v)), (.exp2F32, exp2V), (.log2F32, log2V), (.sinF32, trigV false), (.cosF32, trigV true), (.tanhF32, tanhV)]
/-- A lane of a special function: a result within the bounds rounds under mode.fn; where the bounds leave two codes, one of them. -/
def functionLane (g : Val → Fn) (f : FormR) (x : Ctx) (s : State) (l : Nat) : LaneRes :=
  let y := (g (fval .f32 x.c.mode (x.opA s (use1 .f32) f l).toNat)).round .f32 (ctlFn x.c.mode) (s.pick [8, l] 2)
  { w := [BitVec.ofNat 32 y.1], fl := y.2, rng := rowAt x.c.rng l }

/-! ## Conversion, packing, quantisation, the generator -/

/-- The issue entry of cvt and cvt.sr. -/
def cvtSpec (f : FormI) : Spec :=
  { specI f [if (CvtImm.of f.imm).src.width = 64 then grp f.a 2 else one f.a]
      [if (CvtImm.of f.imm).dst.width = 64 then grp f.d 2 else one f.d] (.fixed 6) with fpx := true }
/-- The bits of D that hold the element that DSEL names (R133). -/
def cvtElement (f : FormI) : Word :=
  let k := CvtImm.of f.imm
  BitVec.ofNat 32 ((2 ^ k.dst.width - 1) * 2 ^ (k.dst.width * k.dsel))
/-- A lane of cvt or cvt.sr: one draw where SR rounds, then round_to of the value of element SSEL; under MERGE the other bits are those of
old D (R134). -/
def cvtLane (f : FormI) (sr : Bool) (x : Ctx) (s : State) (l : Nat) : LaneRes :=
  let k := CvtImm.of f.imm
  let ctl := k.ctl sr x.c.mode
  let a := (x.wide s f.a (if k.src.width = 64 then .b64 else .b32) l).toNat
  let code := a / 2 ^ (k.src.width * k.ssel) % 2 ^ k.src.width
  let sd := if ctl.rnd = 5 then rngDraw (rowAt x.c.rng l) else rowAt x.c.rng l
  let y := roundTo k.dst ctl (sd.toNat % 2 ^ 16) (!k.src.isFloat) (k.src.decode (k.src.flushIn (modeFtzi x.c.mode) code))
  let word := y.1 * 2 ^ (k.dst.width * k.dsel)
  { w := if k.merge then [(rowAt (x.plain s (x.d 0)) l &&& ~~~cvtElement f) ||| BitVec.ofNat 32 word]
      else BitVec.ofNat 32 word :: (if k.dst.width = 64 then [BitVec.ofNat 32 (word / 2 ^ 32)] else []),
    fl := y.2, rng := sd }

/-- A row of the pack forms: destination and source formats (R135). -/
structure RowPack where
  instr : FormX → Instr
  dst : NFmt
  src : NFmt
/-- The issue entry of a pack form: four registers, or four pairs where the destination is of 4 bits. -/
def RowPack.spec (r : RowPack) (f : FormX) : Spec :=
  let o := fun b : BitVec 8 => if r.dst.width = 4 then grp b 2 else one b
  { specX f [o f.a, o f.b, o f.c, o f.e] [one f.d] (.fixed 6) with fpx := true }
/-- A lane of a pack form: the source words in field order, each converted with its own draw, element 0 in the low bits. -/
def RowPack.lane (r : RowPack) (f : FormX) (x : Ctx) (s : State) (l : Nat) : LaneRes :=
  let words : List Nat := [f.a, f.b, f.c, f.e].flatMap (fun b : BitVec 8 =>
    if r.dst.width = 4 then [(rowAt (x.plain s b.toNat) l).toNat, (rowAt (x.plain s (b.toNat + 1)) l).toNat] else [(rowAt (x.row s b.toNat) l).toNat])
  let y := convertAll r.dst r.src (r.dst.ctl x.c.mode) (modeFtzi x.c.mode) words (rowAt x.c.rng l)
  { w := [BitVec.ofNat 32 (((List.range y.1.length).map (fun i => y.1.getD i 0 % 2 ^ r.dst.width * 2 ^ (r.dst.width * i))).sum)], fl := y.2.1, rng := y.2.2 }

/-- A row of the unpack forms (R136): n registers. -/
structure RowUnpack where
  instr : FormR → Instr
  ty : ETy
  src : NFmt
  dst : NFmt
  n : Nat
/-- The issue entry of an unpack form. -/
def RowUnpack.spec (r : RowUnpack) (f : FormR) : Spec := { specR f (use1 r.ty) [grp f.d r.n] (.fixed 6) with fpx := true }
/-- A lane of an unpack form: element i, exactly, to register D + i. -/
def RowUnpack.lane (r : RowUnpack) (f : FormR) (x : Ctx) (s : State) (l : Nat) : LaneRes :=
  let a := (x.opA s (use1 r.ty) f l).toNat
  let y := fun i => roundTo r.dst Ctl.rne 0 (!r.src.isFloat) (r.src.decode (a / 2 ^ (r.src.width * i) % 2 ^ r.src.width))
  { w := (List.range r.n).map (fun i => BitVec.ofNat 32 (y i).1), fl := (List.range r.n).foldl (fun u i => u ||| (y i).2) 0, rng := rowAt x.c.rng l }

/-! ## Cross-lane -/

/-- The segment size S that SEGC gives (R142). -/
def segSize (f : FormI) : Nat := if f.sub.toNat % 16 = 0 then 64 else 2 ^ (f.sub.toNat % 16)
/-- The distance field of IMM32: W / 2^DIST under WREL (R144). -/
def distance (f : FormI) : Nat :=
  let d := f.imm.toNat / 2 ^ 8 % 2 ^ 8
  if f.imm.getLsbD 19 then 64 / 2 ^ d else d

/-- A row of the point reads of R144: sources, what their IMM32 may not hold, and the source lane that lane l names, if its segment has one.
`k` is the value of the index register in the lane (xlane.idx only). -/
structure RowPoint where
  instr : FormI → Instr
  index : Bool
  bad : FormI → Bool
  src : FormI → Nat → Nat → Option Nat

/-- The issue entry of a point read. -/
def RowPoint.spec (r : RowPoint) (f : FormI) : Spec :=
  specI f (one f.a :: (if r.index then [⟨f.imm.toNat % 2 ^ 8, 1⟩] else [])) [one f.d] (.fixed 6)
/-- The source lane of lane l, if it lies in the segment and in `act` (R143). -/
def RowPoint.from (r : RowPoint) (f : FormI) (x : Ctx) (s : State) (l : Nat) : Option Nat :=
  (r.src f l ((rowAt (x.row s (f.imm.toNat % 2 ^ 8)) l).toNat % 2 ^ 8)).filter (fun k => x.act.getLsbD k)

/-- The row holds: where Z is 1, or every lane of `act` has its source, each lane of D receives the source lane's word, or zero. -/
def RowPoint.Holds (r : RowPoint) : Prop :=
  ∀ (f : FormI) (s : State) (c : Crew), Issues s c (r.spec f) (fun _ => xlBad f true || r.bad f) → Steady s c →
    let x := s.view c (r.spec f)
    (f.sub.getLsbD 6 = true ∨ ∀ l, l < 64 → x.act.getLsbD l → (r.from f x s.opening l).isSome) →
    Answers (exec (r.instr f) s) (fun t =>
      Completed s s.opening t (s.issuing c (r.spec f)) (r.spec f)
        [Wr.full (x.d 0) x.act (fun l => match r.from f x s.opening l with
          | some k => rowAt (x.row s.opening f.a.toNat) k
          | none => 0#32)])

/-- The base lane of a lane's segment. -/
def segLow (f : FormI) (l : Nat) : Nat := l / segSize f * segSize f

/-- R144. -/
noncomputable def pointRows : List RowPoint := [
  ⟨.xlaneRot, false, fun f => (XlImm.of f.imm).bad true false, fun f l _ => some (segLow f l +
    (if f.imm.getLsbD 18 then (l % segSize f + segSize f - distance f % segSize f) % segSize f else (l % segSize f + distance f) % segSize f))⟩,
  ⟨.xlaneShup, false, fun f => (XlImm.of f.imm).bad false false, fun f l _ => if distance f ≤ l % segSize f then some (l - distance f) else none⟩,
  ⟨.xlaneShdn, false, fun f => (XlImm.of f.imm).bad false false, fun f l _ => if l % segSize f + distance f < segSize f then some (l + distance f) else none⟩,
  ⟨.xlaneIdx, true, fun f => (XlImm.of f.imm).bad false true, fun f l k => if k < segSize f then some (segLow f l + k) else none⟩,
  ⟨.xbcast, false, fun f => (XlImm.of f.imm).bad false false || decide (segSize f ≤ distance f), fun f l _ => some (segLow f l + distance f)⟩]

/-- The lanes of `act` in the segment of lane l, lowest first. -/
def segLanes (f : FormI) (act : Mask) (l : Nat) : List Nat :=
  (List.range 64).filter (fun k => act.getLsbD k && k / segSize f == l / segSize f)

/-- A row of the integer reductions and scans of R146: an associative operation. -/
structure RowRed where
  instr : FormI → Instr
  scan : Bool
  op : Word → Word → Word
/-- The row holds: a lane of `act` receives the combination of the segment's lanes of `act`, in a scan of those not above it; no flag is set
and nothing is drawn. -/
def RowRed.Holds (r : RowRed) : Prop :=
  ∀ (f : FormI) (s : State) (c : Crew), Issues s c (specI f [one f.a] [one f.d] (.fixed 14)) (fun _ => xlBad f false || f.imm ≠ 0#32) → Steady s c →
    let sp := specI f [one f.a] [one f.d] (.fixed 14)
    let x := s.view c sp
    let v := rowAt (x.row s.opening f.a.toNat)
    Answers (exec (r.instr f) s) (fun t => ∃ row : Row,
      Completed s s.opening t (fpCrew (s.issuing c sp) x.act (fun l => { w := [], fl := 0, rng := rowAt x.c.rng l })) sp
        [{ reg := x.d 0, row := row, mask := x.act, bits := 0xFFFFFFFF#32 }] ∧
      ∀ l, l < 64 → x.act.getLsbD l → ∃ k ks, (segLanes f x.act l).filter (fun j => !r.scan || decide (j ≤ l)) = k :: ks ∧
        rowAt row l = ks.foldl (fun a j => r.op a (v j)) (v k))

/-- The signed minimum and maximum of two words. -/
def minW (a b : Word) : Word := BitVec.ofInt 32 (min a.toInt b.toInt)
/-- The signed maximum of two words. -/
def maxW (a b : Word) : Word := BitVec.ofInt 32 (max a.toInt b.toInt)

/-- R146: integer reductions and scans. -/
noncomputable def reductionRows : List RowRed := [
  ⟨.redAddI32, false, (· + ·)⟩, ⟨.redMinI32, false, minW⟩, ⟨.redMaxI32, false, maxW⟩, ⟨.redAndB32, false, (· &&& ·)⟩,
  ⟨.redOrB32, false, (· ||| ·)⟩, ⟨.redXorB32, false, (· ^^^ ·)⟩,
  ⟨.scanAddI32, true, (· + ·)⟩, ⟨.scanMinI32, true, minW⟩, ⟨.scanMaxI32, true, maxW⟩]

/-- The FP32 reductions and scans, whose order of combination is the tree of R146. -/
noncomputable def floatReductionRows : List ((FormI → Instr) × Bool × Comb) := [
  (.redAddF32, false, combAddF32), (.redMinF32, false, combMinMaxF32 true), (.redMaxF32, false, combMinMaxF32 false), (.scanAddF32, true, combAddF32)]
/-- A lane of an FP32 reduction or scan (R146). -/
def floatReductionLane (scan : Bool) (op : Comb) (f : FormI) (x : Ctx) (s : State) (l : Nat) : LaneRes :=
  let sz := segSize f
  let xs := (List.range sz).map (fun i =>
    let k := l / sz * sz + i
    if x.act.getLsbD k then some (NFmt.f32.flushIn (modeFtzi x.c.mode) (rowAt (x.row s f.a.toNat) k).toNat) else none)
  let r := combLevels (if scan then scanLevel (op x.c.mode) else redLevel (op x.c.mode)) sz xs
  { w := [BitVec.ofNat 32 (finF32 ((r.1.getD (if scan then l % sz else 0) none).getD 0))], fl := r.2, rng := rowAt x.c.rng l }

/-- A mask of lanes as the two words that ballot and match write (R147). -/
def maskWords (m : Mask) : Word × Word := (BitVec.ofNat 32 m.toNat, BitVec.ofNat 32 (m.toNat / 2 ^ 32))

/-- Value j ranks before value k in topk (R148): the larger first, equal values in lane order. `key` orders the values. -/
def ranksBefore (key : Nat → Int) (j k : Nat) : Bool := decide (key k < key j) || (key k == key j && decide (j < k))

/-- The size of the segments of qblk: LSEG of the control word of the lowest lane of `act` (R137). -/
def qblkSeg (f : FormR) (x : Ctx) (s : State) : Nat := 2 ^ ((x.opB s useQ f x.l0).toNat / 16 % 8)
/-- The lanes of `act` in the segment of lane l. -/
def qblkLanes (f : FormR) (x : Ctx) (s : State) (l : Nat) : List Nat :=
  (List.range 64).filter (fun k => x.act.getLsbD k && k / qblkSeg f x s == l / qblkSeg f x s)
/-- The control word of a segment: that of its lowest lane of `act`. -/
def qblkWord (f : FormR) (x : Ctx) (s : State) (l : Nat) : Nat := (x.opB s useQ f ((qblkLanes f x s l).headD 0)).toNat
/-- A lane of qblk (R138): the scale of the segment's largest magnitude, 0xFF when a value is not finite, and the quotient rounded. -/
def qblkRes (f : FormR) (x : Ctx) (s : State) (l : Nat) : LaneRes :=
  let v := fun k => fval .f32 x.c.mode (x.opA s useQ f k).toNat
  let special := (qblkLanes f x s l).any (fun k => match v k with
    | .fin _ _ _ _ => false
    | _ => true)
  let w := qblkWord f x s l
  let big := (qblkLanes f x s l).foldl (fun m k => maxMag m (v k)) (Val.zero false)
  qblkLane x.c.mode w special (if special then 0xFF else segScale (bitOf w 3) (emaxOf (w % 8)) big) (v l) (rowAt x.c.rng l)
/-- A lane of dqblk (R139): element times scale, rounded under mode.fmt as arithmetic. -/
def dqblkRes (f : FormR) (x : Ctx) (s : State) (l : Nat) : LaneRes :=
  let w := (x.opC s useDq f l).toNat
  let m := efmtOf (w % 8)
  let r := mulV (m.decode ((x.opA s useDq f l).toNat % 2 ^ m.width)) (scaleVal (bitOf w 3) (x.opB s useDq f l).toNat)
  let y := roundFloat .f32 (NFmt.f32.arith x.c.mode) 0 r.v
  { w := [BitVec.ofNat 32 y.1], fl := y.2 ||| r.fl, rng := rowAt x.c.rng l }

/-- The pack forms of R135. -/
noncomputable def packRows : List RowPack := [⟨.packE4m3, .e4m3, .f32⟩, ⟨.packE5m2, .e5m2, .f32⟩, ⟨.packE2m1, .e2m1, .f32⟩, ⟨.packI4, .i4, .i32⟩]
/-- The unpack forms of R136. -/
noncomputable def unpackRows : List RowUnpack := [⟨.unpackE4m3, .f8x4, .e4m3, .f32, 4⟩, ⟨.unpackE5m2, .f8x4, .e5m2, .f32, 4⟩, ⟨.unpackE2m1, .f4x8, .e2m1, .f32, 8⟩,
  ⟨.unpackI4, .i4x8, .i4, .i32, 8⟩]

/-- The issue entry of bfly: groups of 2^g registers (R145). -/
def bflySpec (f : FormI) : Spec := specI f [grp f.a (2 ^ (f.imm.toNat % 8))] [grp f.d (2 ^ (f.imm.toNat % 8))] (.fixed 6)
/-- Check 6 of bfly (R142, R145). -/
def bflyBad (f : FormI) : Bool :=
  let n := 2 ^ (f.imm.toNat % 8)
  xlBad f true || f.imm.toNat / 2 ^ 20 ≠ 0 || f.imm.toNat / 2 ^ 16 % 8 ≠ 0 || (f.imm.getLsbD 19 && decide (7 < f.imm.toNat / 2 ^ 8 % 2 ^ 8)) ||
    f.imm.toNat / 8 % 32 ≠ 0 || decide (5 < f.imm.toNat % 8) || decide (segSize f ≤ distance f) ||
    (decide (1 < n) && !((List.range 6).any (fun k => distance f == 2 ^ k) && decide (distance f < n)))
/-- A row that bfly reads: register j of the group, or of a single register the row its field delivers. -/
def bflyRow (f : FormI) (x : Ctx) (s : State) (j : Nat) : Row :=
  if f.imm.toNat % 8 = 0 then x.row s f.a.toNat else x.plain s (f.a.toNat + j)
/-- A lane of register j of the result of bfly (R145): the partner's word, in a group where lane and register index differ in the distance bit
the partner's word of register j xor d, else the lane's own word. -/
def bflyWord (f : FormI) (x : Ctx) (s : State) (j l : Nat) : Word :=
  let d := distance f
  let cross := fun k => if x.act.getLsbD (l ^^^ d) then rowAt (bflyRow f x s k) (l ^^^ d) else 0#32
  if f.imm.toNat % 8 = 0 then cross 0
  else if l / d % 2 = j / d % 2 then rowAt (bflyRow f x s j) l else cross (j ^^^ d)

/-- The issue entry of ballot and match. -/
def maskSpec (f : FormI) : Spec := specI f [one f.a] [grp f.d 2] (.fixed 6)
/-- The issue entry of any and all. -/
def voteSpec (f : FormI) : Spec := specI f [one f.a] [] (.fixed 6)
/-- Check 6 of any and all (R147). -/
def voteBad (f : FormI) : Bool := xlBad f false || decide (f.d.toNat < 248) || f.imm.toNat / 8192 ≠ 0 || bitsOf f.imm.toNat 7 5 ≠ 0
/-- The issue entry of topk: eight value registers at D, eight index registers at the register of IMM32 (R148). -/
def topkSpec (f : FormI) : Spec := { specI f [one f.a] [grp f.d 8, ⟨f.imm.toNat % 256, 8⟩] .var with squash := true }
/-- Check 6 of topk (R148). -/
def topkBad (f : FormI) : Bool :=
  let k := f.imm.toNat / 2 ^ 8 % 16
  xlBad f false || f.imm.toNat / 8192 ≠ 0 || k == 0 || decide (8 < k) || f.imm.toNat % 256 == f.d.toNat
/-- The lane that ranks i-th in the segment of lane l: i lanes of `act` rank before it. -/
def rankedLane (f : FormI) (x : Ctx) (s : State) (l i : Nat) : Option Nat :=
  let key := fun k => topkKey (f.imm.getLsbD 12) (srcWord x s f.a k).toNat
  (segLanes f x.act l).find? (fun k => (segLanes f x.act l).countP (fun j => ranksBefore key j k) == i)

/-! ## Control flow -/

/-- A row of the transfers with a direct target: which lanes move, what is written. -/
structure RowB where
  instr : FormB → Instr
  spec : FormB → Spec
  bad : FormB → Crew → Bool
  moves : FormB → Ctx → State → Mask
  writes : FormB → Ctx → State → List Wr

/-- The link: the PC next in sequence, low word first (R154). -/
def linkWrites (f : FormB) (x : Ctx) : List Wr :=
  [Wr.full f.a.toNat x.act (fun _ => BitVec.ofNat 32 x.next.toNat), Wr.full (f.a.toNat + 1) x.act (fun _ => BitVec.ofNat 32 (x.next.toNat / 2 ^ 32))]

/-- R151, R152, R154: bra, call and loop. -/
noncomputable def directRows : List RowB := [
  ⟨.bra, fun f => specB f [] [] .none, fun f _ => slotBad f || f.a ≠ 0#8 || f.sub ≠ 0#13, fun _ x _ => x.act, fun _ _ _ => []⟩,
  ⟨.call, fun f => specB f [] [grp f.a 2] (.fixed 2), fun f c => slotBad f || f.sub ≠ 0#13 || ctlQueueBad c f.a.toNat 2, fun _ x _ => x.act,
    fun f x _ => linkWrites f x⟩,
  ⟨.loop, fun f => specB f [one f.a] [one f.a] (.fixed 2), fun f c => slotBad f || f.sub ≠ 0#13 || ctlQueueBad c f.a.toNat 1,
    fun f x s => mkMask (fun l => x.act.getLsbD l && rowAt (x.plain s f.a.toNat) l != 1#32),
    fun f x s => [Wr.full f.a.toNat x.act (fun l => rowAt (x.plain s f.a.toNat) l - 1#32)]⟩]

/-- The free slot of a crew takes lanes at a PC. -/
def enterFree (c : Crew) (k : Bool) (pc : DWord) (m : Mask) (line : List Byte) : Crew := (c.setSlot k PcSlot.empty).enter k pc m line

/-- The line that stays fetched when a slot goes on in sequence. -/
def nextLine (e : Crew) (k : Bool) (next : DWord) : List Byte := if pcLine next = pcLine (e.slot k).pc then (e.slot k).line else []

/-- The row holds: no lane moves; all move; some move and the other slot is free; some move and the other slot's lanes go to the divergence
stack. The target is checked before anything changes. -/
def RowB.Holds (r : RowB) : Prop :=
  ∀ (f : FormB) (s : State) (c : Crew), Issues s c (r.spec f) (r.bad f) → Steady s c →
    let sp := r.spec f
    let x := s.view c sp
    let k := s.cur.slot
    let e := s.issuing c sp
    let live := (c.slot k).mask
    let m := r.moves f x s.opening
    let stay := live &&& ~~~m
    let target := directTarget f s.cur.pc
    let wr := r.writes f x s.opening
    live ≠ 0#64 →
    (m = 0#64 → Answers (exec (r.instr f) s) (fun t => Moved s s.opening t (e.enter k s.cur.next live (nextLine e k s.cur.next)) sp wr)) ∧
    (m ≠ 0#64 → ∀ line, (s.issued c sp).checkTarget c.core c.asid target m true = .ok line →
      let s1 := s.opening.noteLine c.core c.asid (pcLine target) line
      let split := fun e' : Crew => enterFree (e'.enter k s.cur.next stay (nextLine e' k s.cur.next)) (!k) target m line
      (stay = 0#64 → Answers (exec (r.instr f) s) (fun t => Moved s s1 t (e.enter k target m line) sp wr)) ∧
      (stay ≠ 0#64 → (c.slot (!k)).st = .free → Answers (exec (r.instr f) s) (fun t => Moved s s1 t (split e) sp wr)) ∧
      (stay ≠ 0#64 → (c.slot (!k)).st ≠ .free → ∀ m1,
        ((s.issued c sp).noteLine c.core c.asid (pcLine target) line).dsPush c.id
          [((c.slot (!k)).pc, (c.slot (!k)).st == .parked, (c.slot (!k)).mask)] = .ok m1 →
        exec (r.instr f) s = .next (issueEnd s.opening c sp { s := m1.modCrew c.id split, wr := wr, ctl := true })))

/-- The targets of an indirect transfer: 64-bit PCs in a pair, one in each lane. -/
def pairTargets (x : Ctx) (s : State) (r : Nat) (l : Nat) : DWord := rowAt (x.plain s (r + 1)) l ++ rowAt (x.plain s r) l

/-! ## Loads, stores, atomics -/

/-- The access `a` of a lane passes every check of R161 and R162 and reaches place `l`: a valid handle entry in service, of an admitted space with the
permissions, an offset inside the bound, an aligned address, a translation, memory in service, and no poison where the access reads; an RMW
meets service and poison at the home (R239). -/
structure Reaches (s : State) (c : Crew) (a : Acc) (size : Nat) (spaces : List Nat) (perm : HandleEntry → Bool) (r w seen : Bool) (l : Loc) : Prop where
  valid : a.e.valid = true
  served : a.e.wait = false
  space : a.e.space ∈ spaces
  permitted : perm a.e = true
  positive : bitOf a.off 63 = false
  inside : a.off + size ≤ s.boundOf c a.e
  aligned : a.va % size = 0
  place : s.crewPlace c a.e a.off r w (a.l + 1) = .ok l
  ready : s.locReady (dieOfCore c.core) (if r && w then l.home else l) = .yes
  clean : seen = true → s.locPoison (dieOfCore c.core) (if r && w then l.home else l) size = false

/-- No write of another die is on its way (R236, R241). -/
def Quiet (s : State) : Prop := s.arriving = [] ∧ s.replicas = []

/-- A row of the loads: bytes, sign extension, 64-bit offset, acquire (R163, R164, R65). -/
structure RowLd where
  instr : FormM → Instr
  size : Nat
  signed : Bool
  o64 : Bool
  acq : Bool
/-- Registers that an access of some bytes names. -/
def regsFor (size : Nat) : Nat := (size + 3) / 4
/-- The issue entry of a load. -/
def RowLd.spec (r : RowLd) (f : FormM) : Spec := { specM f (mSrcs f r.o64) [grp f.d (regsFor r.size)] .var true with squash := true }
/-- The offset that an instruction adds, in bytes: OFS in units of the access, OFS7 in the forms with a scope (R52, R64). -/
def byteOffset (f : FormM) (dagger : Bool) (size : Nat) : Int := (if dagger then ofs7 f else ofs10 f) * size
/-- The word i that loaded bytes give. -/
def loadedWord (size : Nat) (signed : Bool) (bs : List Byte) (i : Nat) : Word :=
  if size ≤ 2 then (if signed then BitVec.ofInt 32 (svalN (leNat bs) (8 * size)) else BitVec.ofNat 32 (leNat bs))
  else BitVec.ofNat 32 (leNat bs / 2 ^ (32 * i))

/-- R163, R164, R65. -/
noncomputable def loadRows : List RowLd := [
  ⟨.ldN8, 1, false, false, false⟩, ⟨.ldI8, 1, true, false, false⟩, ⟨.ldN16, 2, false, false, false⟩, ⟨.ldI16, 2, true, false, false⟩,
  ⟨.ldB32, 4, false, false, false⟩, ⟨.ldB64, 8, false, false, false⟩, ⟨.ldB128, 16, false, false, false⟩,
  ⟨.ldAcqB32, 4, false, false, true⟩, ⟨.ldAcqB64, 8, false, false, true⟩,
  ⟨.ldN8O64, 1, false, true, false⟩, ⟨.ldI8O64, 1, true, true, false⟩, ⟨.ldN16O64, 2, false, true, false⟩, ⟨.ldI16O64, 2, true, true, false⟩,
  ⟨.ldB32O64, 4, false, true, false⟩, ⟨.ldB64O64, 8, false, true, false⟩, ⟨.ldB128O64, 16, false, true, false⟩,
  ⟨.ldAcqB32O64, 4, false, true, true⟩, ⟨.ldAcqB64O64, 8, false, true, true⟩]

/-- What a load leaves besides its registers: an acquire load acquires at its scope, a plain one notes what it has read, as it stood k writes
ago (R234, R235). -/
def loadNotes (x : Ctx) (s : State) (acq : Bool) (scope size k : Nat) (spots : List (Bool × Nat)) : State :=
  if x.act = 0#64 then s else if acq then s.acquire scope x.c else s.noteRead x.id size k spots

/-- The row holds: the load completes as an instruction of variable latency whose lanes read one state, an acquire load memory as it stands, a
plain one perhaps some writes back; while no write of another die is on its way each lane of `act` receives the bytes of its own place, the first
register the lowest. -/
def RowLd.Holds (r : RowLd) : Prop :=
  ∀ (f : FormM) (s : State) (c : Crew) (loc : Nat → Loc),
    let sp := r.spec f
    let x := s.view c sp
    let s1 := s.issued c sp
    let as := formAcc f x s1 r.o64 (byteOffset f r.acq r.size) x.act
    let die := dieOfCore x.c.core
    let reg := fun i => if regsFor r.size = 1 then x.d 0 else x.d 0 + i
    Issues s c sp (fun _ => hndBad f || f.b ≠ 0#8 || (r.acq && scopeOf f == 0)) → Steady s c →
    (∀ a ∈ as, Reaches s1 x.c a r.size ldSpaces (fun e => e.r) true false true (loc a.l)) →
    let ps := as.map (fun a => (a, loc a.l))
    let spots := as.map (fun a => (loc a.l).spot die)
    let s2 := loadFrom (noteUse s1 x.c as) die r.size ps
    let k := loadAge s2 c.id r.size r.acq spots
    Answers (exec (r.instr f) s) (fun t => Completed s (loadNotes x s2 r.acq (scopeOf f) r.size k spots) t (s.issuing c sp) sp
      ((List.range (regsFor r.size)).map (fun i => Wr.full (reg i) x.act (laneWord (loadAll (s2.ago k) die r.size r.signed ps) i)))) ∧
    (Quiet s → ∃ k, (r.acq = true → k = 0) ∧ k ≤ s.staleMax c.id r.size spots ∧
      Answers (exec (r.instr f) s) (fun t => Completed s (loadNotes x (noteUse s1 x.c as) r.acq (scopeOf f) r.size k spots) t (s.issuing c sp) sp
        ((List.range (regsFor r.size)).map (fun i => Wr.full (reg i) x.act (fun l =>
          if x.act.getLsbD l then loadedWord r.size r.signed ((s.opening.ago k).load die (loc l) r.size) i else 0#32)))))

/-- A row of the stores: bytes, 64-bit offset, release. -/
structure RowSt where
  instr : FormM → Instr
  size : Nat
  o64 : Bool
  rel : Bool
/-- The issue entry of a store. -/
def RowSt.spec (r : RowSt) (f : FormM) : Spec := specM f (mSrcs f r.o64 ++ [grp f.b (regsFor r.size)]) [] .none true

/-- R163 to R165, R65. -/
noncomputable def storeRows : List RowSt := [
  ⟨.stB8, 1, false, false⟩, ⟨.stB16, 2, false, false⟩, ⟨.stB32, 4, false, false⟩, ⟨.stB64, 8, false, false⟩, ⟨.stB128, 16, false, false⟩,
  ⟨.stRelB32, 4, false, true⟩, ⟨.stRelB64, 8, false, true⟩,
  ⟨.stB8O64, 1, true, false⟩, ⟨.stB16O64, 2, true, false⟩, ⟨.stB32O64, 4, true, false⟩, ⟨.stB64O64, 8, true, false⟩, ⟨.stB128O64, 16, true, false⟩,
  ⟨.stRelB32O64, 4, true, true⟩, ⟨.stRelB64O64, 8, true, true⟩]

/-- The physical addresses at which a store to a place writes memory, now or when it arrives there (R241: a replicated page at its home and in
its replicas). -/
def Loc.writesPa : Loc → List Nat
  | .blk _ _ => []
  | .pa a _ => [a]
  | .repl a _ _ => (List.range 4).map (replicaPa a)
/-- The key of block memory at which a store to a place writes. -/
def Loc.writesBlk : Loc → Option Nat
  | .blk core off => some (coreKey core off)
  | _ => none

/-- Memory is unchanged outside the bytes that the accesses name: HBM, bank, far and host bytes, and block memory. -/
def OnlyStores (s t : State) (size : Nat) (locs : List Loc) : Prop :=
  (∀ addr, (∀ l ∈ locs, ∀ p ∈ Loc.writesPa l, ¬(p ≤ addr ∧ addr < p + size)) → t.mem.get addr = s.mem.get addr) ∧
  (∀ key, (∀ l ∈ locs, ∀ p, Loc.writesBlk l = some p → ¬(p ≤ key ∧ key < p + size)) → t.bmem.get key = s.bmem.get key)

/-- The bytes that a lane stores: its data registers' words, the first register the lowest. -/
def storedBytes (x : Ctx) (s : State) (f : FormM) (size l : Nat) : List Byte :=
  (if regsFor size = 1 then leBytes 4 (rowAt (x.row s f.b.toNat) l).toNat
   else (List.range (regsFor size)).flatMap (fun i => leBytes 4 (rowAt (x.plain s (f.b.toNat + i)) l).toNat)).take size

/-- The row holds: the lanes store in ascending order, after a release for st.rel; no register changes; and while no write
of another die is on its way no byte outside the lanes' places changes. -/
def RowSt.Holds (r : RowSt) : Prop :=
  ∀ (f : FormM) (s : State) (c : Crew) (loc : Nat → Loc),
    let sp := r.spec f
    let x := s.view c sp
    let s1 := s.issued c sp
    let as := formAcc f x s1 r.o64 (byteOffset f r.rel r.size) x.act
    let die := dieOfCore x.c.core
    Issues s c sp (fun _ => hndBad f || f.d ≠ 0#8 || (r.rel && scopeOf f == 0)) → Steady s c →
    (∀ a ∈ as, Reaches s1 x.c a r.size stSpaces (fun e => e.w) false true false (loc a.l)) →
    let s2 := if r.rel ∧ x.act ≠ 0#64 then s1.releaseAt (scopeOf f) x.c else s1
    let s3 := as.foldl (fun q a => q.store die (loc a.l) (storedBytes x s.opening f r.size a.l)) (noteUse s2 x.c as)
    Answers (exec (r.instr f) s) (fun t =>
      Completed s (s3.noteWrote c.id r.size (as.map (fun a => (loc a.l).spot die))) t (s.issuing c sp) sp [] ∧
      (Quiet s → OnlyStores s t r.size (as.map (fun a => loc a.l))))

/-- A row of the atomics: bytes, data registers, the new value from the old value and the data, none where nothing is written. -/
structure RowAtom where
  instr : FormM → Instr
  size : Nat
  nb : Nat
  op : Nat → Nat → Option Nat
/-- The issue entry of an atomic: it ends its region (R62). -/
def RowAtom.spec (r : RowAtom) (f : FormM) : Spec :=
  { specM f (mSrcs f false ++ [grp f.b r.nb]) [grp f.d (r.size / 4)] .var false with ends := true }
/-- A signed comparison of two 32-bit numbers. -/
def below32 (a b : Nat) : Bool := decide ((BitVec.ofNat 32 a).toInt ≤ (BitVec.ofNat 32 b).toInt)

/-- R170. -/
noncomputable def atomRows : List RowAtom := [
  ⟨.atomAddI32, 4, 1, fun m b => some ((m + b) % 2 ^ 32)⟩, ⟨.atomAddF32, 4, 1, fun m b => some (rneAdd .f32 m b)⟩,
  ⟨.atomMinI32, 4, 1, fun m b => some (if below32 m b then m % 2 ^ 32 else b % 2 ^ 32)⟩, ⟨.atomMaxI32, 4, 1, fun m b => some (if below32 m b then b % 2 ^ 32 else m % 2 ^ 32)⟩,
  ⟨.atomMinN32, 4, 1, fun m b => some (min (m % 2 ^ 32) (b % 2 ^ 32))⟩, ⟨.atomMaxN32, 4, 1, fun m b => some (max (m % 2 ^ 32) (b % 2 ^ 32))⟩,
  ⟨.atomAndB32, 4, 1, fun m b => some ((m % 2 ^ 32) &&& (b % 2 ^ 32))⟩, ⟨.atomOrB32, 4, 1, fun m b => some ((m % 2 ^ 32) ||| (b % 2 ^ 32))⟩,
  ⟨.atomXorB32, 4, 1, fun m b => some ((m % 2 ^ 32) ^^^ (b % 2 ^ 32))⟩, ⟨.atomExchB32, 4, 1, fun _ b => some b⟩,
  ⟨.atomCasB32, 4, 2, fun m b => if m = b % 2 ^ 32 then some (b / 2 ^ 32) else none⟩,
  ⟨.atomAddI64, 8, 2, fun m b => some ((m + b) % 2 ^ 64)⟩, ⟨.atomExchB64, 8, 2, fun _ b => some b⟩,
  ⟨.atomCasB64, 8, 4, fun m b => if m = b % 2 ^ 64 then some (b / 2 ^ 64) else none⟩,
  ⟨.atomAddBf16x2, 4, 1, fun m b => some (rneAdd .bf16 (m % 2 ^ 16) (b % 2 ^ 16) + rneAdd .bf16 (m / 2 ^ 16) (b / 2 ^ 16 % 2 ^ 16) * 2 ^ 16)⟩]

/-- One lane of an atomic, for an agent of a die, at its location's home: the old value is read, and the new value written unless there is none
(R170, R171, R239). -/
def atomStep (op : Nat → Nat → Option Nat) (size die : Nat) (l : Loc) (data : Nat) (s : State) : State × Nat :=
  let s1 := s.beforeRmw die l
  let old := leNat (s1.load 0 l.home size)
  (match op old data with
    | some v => s1.rmwWrite die l (leBytes size v)
    | none => s1, old)
/-- The lanes in ascending order: the last state, and each lane's old value in lane order. -/
def atomLanes (op : Nat → Nat → Option Nat) (size die : Nat) (loc : Nat → Loc) (data : Nat → Nat) : List Nat → State → State × List (Nat × Nat)
  | [], s => (s, [])
  | l :: ls, s =>
    let q := atomStep op size die (loc l) (data l) s
    let r := atomLanes op size die loc data ls q.1
    (r.1, (l, q.2) :: r.2)
/-- The data of a lane: its registers' words as one number. -/
def atomData (x : Ctx) (s : State) (f : FormM) (nb l : Nat) : Nat :=
  leNat (if nb = 1 then leBytes 4 (rowAt (x.row s f.b.toNat) l).toNat
    else (List.range nb).flatMap (fun i => leBytes 4 (rowAt (x.plain s (f.b.toNat + i)) l).toNat))
/-- The old value that a lane received. -/
def oldOf (rs : List (Nat × Nat)) (l : Nat) : Nat := ((rs.find? (fun p => p.1 == l)).map (fun p => p.2)).getD 0

/-- The row holds: each lane of `act` in ascending order reads and writes its place, and receives the old value. -/
def RowAtom.Holds (r : RowAtom) : Prop :=
  ∀ (f : FormM) (s : State) (c : Crew) (loc : Nat → Loc),
    let sp := r.spec f
    let x := s.view c sp
    let s1 := s.issued c sp
    let as := formAcc f x s1 false (byteOffset f true r.size) x.act
    Issues s c sp (fun _ => hndBad f || scopeOf f == 0) → Steady s c →
    (∀ a ∈ as, Reaches s1 x.c a r.size atomSpaces (fun e => e.r && e.w && e.atom) true true true (loc a.l)) →
    let all := atomLanes r.op r.size (dieOfCore x.c.core) loc (atomData x s.opening f r.nb) (as.map (fun a => a.l)) (noteUse s1 x.c as)
    Answers (exec (r.instr f) s) (fun t => Completed s (all.1.noteWrote c.id r.size (as.map (fun a => (loc a.l).spot (dieOfCore x.c.core)))) t
      (s.issuing c sp) sp ((List.range (r.size / 4)).map (fun i => Wr.full (if r.size = 4 then x.d 0 else x.d 0 + i) x.act (fun l =>
        if x.act.getLsbD l then BitVec.ofNat 32 (oldOf all.2 l / 2 ^ (32 * i)) else 0#32))))

/-- R173: the bank operations, which return nothing. -/
noncomputable def bankRows : List RowAtom := [
  ⟨.bankopAddI32, 4, 1, fun m b => some ((m + b) % 2 ^ 32)⟩, ⟨.bankopAddF32, 4, 1, fun m b => some (rneAdd .f32 m b)⟩,
  ⟨.bankopMinF32, 4, 1, fun m b => some (minMax .f32 true false m b).1⟩, ⟨.bankopMaxF32, 4, 1, fun m b => some (minMax .f32 false false m b).1⟩,
  ⟨.bankopMulF32, 4, 1, fun m b => some (rneMul .f32 m b)⟩]

/-- The mask of the lanes of `act` whose predicate bit is set (R165). -/
def predicateMask (x : Ctx) (s : State) (f : FormM) : Mask :=
  mkMask (fun l => x.act.getLsbD l && (srcWord x s f.b l).getLsbD (f.d.toNat % 32))

/-! ## Commands, counters, tile signals -/

/-- A row of the commands of format X: class of OCNT, operation code, operands and reserved fields, and the operand words as posted, in the order
D, A, B, C, E, then the words of a group. -/
structure RowCmd where
  instr : FormX → Instr
  cls : Nat
  opc : Nat
  hint : Bool
  srcs : FormX → List Opnd
  bad : FormX → Bool
  args : FormX → (BitVec 8 → Word) → (BitVec 8 → Nat → Word) → List Word

/-- The words of a group of n registers from its second on, or from its first. -/
def groupWords (g : BitVec 8 → Nat → Word) (r : BitVec 8) (first n : Nat) : List Word := (List.range (n - first)).map (fun i => g r (first + i))

/-- R176 to R178: the copies, gather and scatter. -/
noncomputable def engineRows : List RowCmd := [
  ⟨.cp, 0, 0x280, true, fun f => [one f.d, one f.a, one f.b, one f.c, one f.e], fun _ => false, fun f v _ => [v f.d, v f.a, v f.b, v f.c, v f.e]⟩,
  ⟨.cp2d, 0, 0x281, true, fun f => [one f.d, one f.a, one f.b, one f.c, grp f.e 8], fun _ => false,
    fun f v g => [v f.d, v f.a, v f.b, v f.c, 0#32] ++ groupWords g f.e 0 8⟩,
  ⟨.cp3d, 0, 0x282, true, fun f => [one f.d, one f.a, one f.b, one f.c, grp f.e 8], fun _ => false,
    fun f v g => [v f.d, v f.a, v f.b, v f.c, 0#32] ++ groupWords g f.e 0 8⟩,
  ⟨.cpScale, 0, 0x283, true, fun f => [one f.d, one f.a, one f.b, grp f.c 4], fun f => f.e ≠ 0#8,
    fun f v g => [v f.d, v f.a, v f.b, 0#32, 0#32] ++ groupWords g f.c 0 4⟩,
  ⟨.gather, 1, 0x284, true, fun f => [one f.d, one f.a, one f.b, grp f.c 4, one f.e], fun _ => false,
    fun f v g => [v f.d, v f.a, v f.b, 0#32, v f.e] ++ groupWords g f.c 0 4⟩,
  ⟨.scatter, 1, 0x285, true, fun f => [one f.d, one f.a, one f.b, grp f.c 4, one f.e], fun _ => false,
    fun f v g => [v f.d, v f.a, v f.b, 0#32, v f.e] ++ groupWords g f.c 0 4⟩]

/-- R185, R186, R188: the fabric commands of format X; the pair at C stands as its first word and, after E, its second. -/
noncomputable def fabricRows : List RowCmd := [
  ⟨.fput, 3, 0x2C0, false, fun f => [one f.d, one f.a, one f.b, grp f.c 2, one f.e], fun _ => false,
    fun f v g => [v f.d, v f.a, v f.b, g f.c 0, v f.e, g f.c 1]⟩,
  ⟨.fget, 3, 0x2C1, false, fun f => [one f.d, one f.a, one f.b, grp f.c 2, one f.e], fun _ => false,
    fun f v g => [v f.d, v f.a, v f.b, g f.c 0, v f.e, g f.c 1]⟩,
  ⟨.fatom, 3, 0x2C2, false, fun f => [one f.d, one f.a, one f.b, grp f.c 2], fun f => f.e ≠ 0#8,
    fun f v g => [v f.d, v f.a, v f.b, g f.c 0, 0#32, g f.c 1]⟩,
  ⟨.fldred, 3, 0x2C4, false, fun f => [one f.d, one f.a, one f.b, one f.c, one f.e], fun _ => false,
    fun f v _ => [v f.d, v f.a, v f.b, v f.c, v f.e, 0#32]⟩,
  ⟨.fstmc, 3, 0x2C5, false, fun f => [one f.d, one f.b, grp f.c 2, one f.e], fun f => f.a ≠ 0#8,
    fun f v g => [v f.d, 0#32, v f.b, g f.c 0, v f.e, g f.c 1]⟩]

/-- COUNT of a class raised by one (R175). -/
def counted (e : Crew) (cls : Nat) : Crew := { e with ocnt := e.ocnt.set cls (mkOcnt (e.err cls) (e.stat cls) (e.count cls + 1)) }

/-- A new operation of crew `c`: its class, code and operands, its level of gate call, handle table and window; nothing of it has run. -/
structure Posted (s : State) (c : Crew) (cls opc : Nat) (args : List Word) (o : Op) : Prop where
  owner : o.id = s.order ∧ o.crew = c.id ∧ o.ctx = c.ctx ∧ o.blk = c.blk ∧ o.core = c.core ∧ o.asid = c.asid ∧ o.ht = c.ht ∧ o.window = c.window ∧
    o.level = c.gates.length
  command : o.cls = cls ∧ o.opc = opc ∧ o.args = args
  fresh : o.checked = false ∧ o.done = false ∧ o.stat = 0 ∧ o.pos = 0 ∧ o.phase = 0 ∧ o.pause = []

/-- The command counter of the class can take one more, and the core has a free place among its 64: of a block that has left the core only the
fabric commands of a parked one take any (R174, R270, R367, R368). -/
def RoomFor (s : State) (c : Crew) (cls : Nat) : Prop :=
  c.count cls < 255 ∧ (cls ≠ 2 → (s.ops.filter (fun o => o.core == c.core && o.cls ≠ 2 && !o.done &&
    (s.block? o.blk).any (fun b => b.place == 0 || b.place == 3 || (b.place == 2 && o.cls == 3)))).length < 64)

/-- The issue entry of a row. -/
def RowCmd.spec (r : RowCmd) (f : FormX) : Spec := { specX f (r.srcs f) [] .none with ends := true, hint := r.hint }

/-- The row holds: with an empty `act` nothing is posted; otherwise the command of the lowest lane is entered behind every other operation and
counted; a command that finds no room waits. -/
def RowCmd.Holds (r : RowCmd) : Prop :=
  ∀ (f : FormX) (s : State) (c : Crew),
    let sp := r.spec f
    let x := s.view c sp
    Issues s c sp (fun _ => f.rsv ≠ 0#6 || r.bad f) → Steady s c →
    (x.act = 0#64 → Answers (exec (r.instr f) s) (fun t => Completed s s.opening t (s.issuing c sp) sp [])) ∧
    (x.act ≠ 0#64 → RoomFor s c r.cls → Answers (exec (r.instr f) s) (fun t => ∃ o,
      Posted s c r.cls r.opc (r.args f (fun q => rowAt (x.row s.opening q.toNat) x.l0) (fun q i => rowAt (x.plain s.opening (q.toNat + i)) x.l0)) o ∧
      Completed s { s.opening with ops := s.ops ++ [o] } t (counted (s.issuing c sp) r.cls) sp [])) ∧
    (x.act ≠ 0#64 → ¬ RoomFor s c r.cls → exec (r.instr f) s = .next { s.opening with heldMark := true })

/-! ## Matrix instructions -/

/-- A task passes the checks of R192 at issue: a record that is defined and legal and fits the opcode, enough blocks in the cluster group, and the
units that the task uses on the issuing core held by the block. -/
structure TaskFits (s : State) (c : Crew) (opc : Nat) (r : List Word) (mv sub ctl : Nat) : Prop where
  defined : trZero r = false
  legal : trBad r = false
  form : tkindOf opc = .mma → trSparse r = isSparse opc ∧ (opc = 0x30F ∨ opc = 0x310 → trPart r = false)
  home : ∃ b, s.block? c.blk = some b ∧ b.harv = false ∧ (1 < trSlices r → trSlices r ≤ b.gsize) ∧
    ((if trSlices r ≤ 1 then 0 else b.rank) < trSlices r → ∀ u ∈ taskUnits opc r mv sub ctl (if trSlices r ≤ 1 then 0 else b.rank), s.holdsUnit b none u = true)

/-- A row of the tile tasks: opcode, operands beside the rows, reserved fields, HINT, argument words. -/
structure RowTask where
  instr : FormT → Instr
  opc : Nat
  used : FormT → List Opnd
  bad : FormT → Bool
  hint : Bool
  args : FormT → (BitVec 8 → Word) → (BitVec 8 → Nat → Word) → List Word

/-- The operands of mma and msacc: two offsets. -/
def twoArgs : FormT → (BitVec 8 → Word) → (BitVec 8 → Nat → Word) → List Word := fun f v _ => [v f.a, v f.b, 0#32, 0#32]
/-- A dense form. -/
def mmaRow (i : FormT → Instr) (opc : Nat) : RowTask :=
  ⟨i, opc, fun f => [one f.a, one f.b], fun f => f.c ≠ 0#8 || f.sub.toNat / 2 ≠ 0, true, twoArgs⟩
/-- A sparse form. -/
def mmasRow (i : FormT → Instr) (opc : Nat) : RowTask :=
  ⟨i, opc, fun f => [one f.a, one f.b], fun f => f.sub.toNat / 32 ≠ 0 || bitsOf f.sub.toNat 2 1 == 3, true, twoArgs⟩

/-- R197, R199 to R201: the tasks without metadata. -/
noncomputable def denseRows : List RowTask := [
  mmaRow .mmaE4m3 0x308, mmaRow .mmaE5m2 0x309, mmaRow .mmaE4e5 0x30A, mmaRow .mmaE5e4 0x30B, mmaRow .mmaE2m1 0x30C, mmaRow .mmaBf16 0x30D,
  mmaRow .mmaF16 0x30E, mmaRow .mmaI8 0x30F, mmaRow .mmaT5 0x310,
  ⟨.msacc, 0x320, fun f => [one f.a, one f.b], fun f => f.c ≠ 0#8 || f.sub.toNat / 2 ≠ 0, false, twoArgs⟩,
  ⟨.mzero, 0x321, fun _ => [], fun f => f.a ≠ 0#8 || f.b ≠ 0#8 || f.c ≠ 0#8 || f.sub.toNat / 4 ≠ 0, false, fun _ _ _ => [0#32, 0#32, 0#32, 0#32]⟩,
  ⟨.accst, 0x325, fun f => [one f.a, one f.b, grp f.c 2], fun f => f.sub.toNat / 2 ≠ 0, true, fun f v g => [v f.a, v f.b, g f.c 0, g f.c 1]⟩]
/-- R198. -/
noncomputable def sparseRows : List RowTask := [
  mmasRow .mmasE4m3 0x318, mmasRow .mmasE5m2 0x319, mmasRow .mmasE2m1 0x31A, mmasRow .mmasBf16 0x31B, mmasRow .mmasF16 0x31C, mmasRow .mmasI8 0x31D]

/-- The issue entry of a row: with RAG, D is an operand too. -/
def RowTask.spec (r : RowTask) (f : FormT) : Spec :=
  { specT f (r.used f ++ (if f.sub.getLsbD 0 then [one f.d] else [])) [] .none r.hint with ends := true }
/-- The argument words of a task, with its rows and SUB. -/
def RowTask.words (r : RowTask) (f : FormT) (x : Ctx) (s : State) (mv : Nat) : List Word :=
  r.args f (fun q => rowAt (x.row s q.toNat) x.l0) (fun q i => rowAt (x.plain s (q.toNat + i)) x.l0) ++ [BitVec.ofNat 32 mv, BitVec.ofNat 32 f.sub.toNat]
/-- A task is posted: its record captured, its metadata, no slice begun; the crew has counted it in OCNT.mx. -/
def TaskPosted (s : State) (c : Crew) (sp : Spec) (opc : Nat) (words r md : List Word) (t : State) : Prop :=
  ∃ o, Posted s c 2 opc words o ∧ o.trec = r ∧ o.metaw = md ∧ o.prog = [0, 0, 0, 0] ∧ o.started = [false, false, false, false] ∧
    Completed s { s.opening with ops := s.ops ++ [o] } t (counted (s.issuing c sp) 2) sp []

/-- The row holds for a crew outside gate calls: an empty `act` posts nothing; otherwise a task that passes R192 and finds room is posted. -/
def RowTask.Holds (r : RowTask) (wrong : FormT → Ctx → State → Option Nat) (md : FormT → Ctx → State → List Word) : Prop :=
  ∀ (f : FormT) (s : State) (c : Crew),
    let sp := r.spec f
    let x := s.view c sp
    let rec0 := c.trecs.getD f.trec.toNat []
    let mv := if f.sub.getLsbD 0 then min (rowAt (x.row s.opening f.d.toNat) x.l0).toNat (trM rec0) else trM rec0
    Issues s c sp (fun _ => r.bad f || (!f.sub.getLsbD 0 && f.d ≠ 0#8)) → Steady s c → wrong f x s.opening = none →
    (x.act = 0#64 → Answers (exec (r.instr f) s) (fun t => Completed s s.opening t (s.issuing c sp) sp [])) ∧
    (x.act ≠ 0#64 → c.gates = [] → RoomFor s c 2 → s.spillFull c (isSparse r.opc) = false →
      TaskFits s c r.opc rec0 mv f.sub.toNat ((r.words f x s.opening mv).getD 2 0#32).toNat →
      Answers (exec (r.instr f) s) (TaskPosted s c sp r.opc (r.words f x s.opening mv) rec0 (md f x s.opening)))

/-! ## System instructions -/

/-- Bits hi to lo of the body of format S below its register fields. -/
def bodyBits (f : FormS) (hi lo : Nat) : Nat := f.body.toNat / 2 ^ lo % 2 ^ (hi + 1 - lo)
/-- The register fields RA and RB of format S (R210). -/
def bodyRA (f : FormS) : Nat := f.body.toNat / 2 ^ 47
def bodyRB (f : FormS) : Nat := f.body.toNat / 2 ^ 39 % 2 ^ 8
/-- RA or RB names a pair or single register of the allocation that no queue holds. -/
def sysSpec (f : FormS) (srcs : List Opnd) (priv ends : Bool) : Spec := { specS f srcs [] .none with priv := priv, ends := ends }

/-- The crews counted at barrier id after an arrival of crew `c` in the lanes of m: a crew counts when all its lanes have arrived and none has
exited (R212). -/
def countedAt (b : Block) (c : Crew) (id : Nat) (m : Mask) : List Nat :=
  if m = BitVec.allOnes 64 ∧ c.exited = 0#64 ∧ c.id ∉ b.barIn.getD id [] then c.id :: b.barIn.getD id [] else b.barIn.getD id []
/-- Crew `e` after its arrival: the lanes noted, armed for bar.wait with the phase P. -/
def noted (e : Crew) (id : Nat) (m : Mask) (p : Bool) : Crew :=
  { e with arrive := e.arrive.set id m, armed := e.armed ||| (1#16 <<< id), armedP := (e.armedP &&& ~~~(1#16 <<< id)) ||| (if p then 1#16 <<< id else 0#16) }
/-- A slot that waits on a barrier at phase P. -/
def waiting (e : Crew) (k : Bool) (cl : Bool) (id : Nat) (p : Bool) : Crew := e.setSlot k { e.slot k with barWait := some (cl, id, p) }

/-- What a crew of a block keeps when barrier id of the block completes (R212); one that waited sees the block's registers as others have set them
(R221). -/
structure Released (id : Nat) (counted : List Nat) (x y : Crew) : Prop where
  same : y = { x with a := y.a, b := y.b, arrive := y.arrive, armed := y.armed, srOld := y.srOld }
  views : y.srOld = if waitsOn false id x.a || waitsOn false id x.b then x.srOld.filter (fun o => !(srBlock o.sr && !o.own)) else x.srOld
  free : waitsOn false id y.a = false ∧ waitsOn false id y.b = false
  lanes : y.arrive = if x.id ∈ counted then x.arrive.set id 0#64 else x.arrive

/-- The handler entry of crew `c` in slot k after a crew-level cause: the slot runs at TVEC with its lanes, TRAPCAUSE and TRAPVA hold the cause, and
the return PC is queued (R382, R384, R385). -/
structure Entered (s : State) (c : Crew) (k : Bool) (x : Cause) (ret after tvec : DWord) (t : State) : Prop where
  crew : ∃ c', t.crews = s.crews.map (fun y => if y.id == c.id then c' else y) ∧
    c'.id = c.id ∧ (c'.slot k).pc = tvec ∧ (c'.slot k).st = .running ∧ (c'.slot k).mask = (c.slot k).mask ∧ c'.slot (!k) = c.slot (!k) ∧
    c'.insvc = true ∧ c'.svcSlot = k ∧ c'.skip = false ∧ c'.trapcause = x.word ∧ c'.trapva = x.val ∧
    c'.trapq = [{ cause := x.word, slot := k, val := x.val, ret := ret, after := after, mask := (c.slot k).mask }] ∧
    c'.regs = c.regs ∧ c'.flags = c.flags ∧ c'.mode = c.mode ∧ c'.priv = c.priv ∧ c'.gates = c.gates ∧ c'.ocnt = c.ocnt
  rest : t.mem = s.mem ∧ t.bmem = s.bmem ∧ t.blocks = s.blocks ∧ t.cores = s.cores ∧ t.ops = s.ops ∧ t.ctxs = s.ctxs

/-- A crew that may take a trap at once: none in service, none queued, and a handler that a transfer reaches. -/
structure CanTrap (s : State) (c : Crew) (k : Bool) (tvec : DWord) (line : List Byte) : Prop where
  idle : c.insvc = false ∧ c.trapq = []
  handler : s.tvecOf c = tvec ∧ tvec ≠ 0#64
  reach : s.checkTarget c.core c.asid tvec (c.slot k).mask true = .ok line

/-- The crew of an instruction that raises a cause in its execution: the instruction counts as issued and the region entry is made, and nothing else of
it remains (R30, R42, R44, R58). -/
def tried (s : State) (c0 : Crew) : Crew :=
  let e := entryCrew s.opening c0
  { e.setSlot s.cur.slot { e.slot s.cur.slot with issuedAt := s.order } with lastIssue := some s.cycle, lastEver := some s.cycle }
/-- The instruction raises cause `x` in its execution; `g` is what it has changed of its crew all the same. -/
def Raises (i : Instr) (s : State) (c : Crew) (sp : Spec) (x : Cause) (g : Crew → Crew) : Prop :=
  ∃ c0, s.opening.atCursor? = some c0 ∧
    exec i s = .next (({ s.opening.setCrew (g (tried s c0)) with order := s.order + 1 } : State).takeCause { x with queues := (queuedFor c sp).1 })

/-- What a callee starts with (R215, R216): the registers of PASS, everything else of the level fresh. -/
structure CalleeStart (e0 c : Crew) (e : GateEntry) (d : DomEntry) (pc ret : DWord) (act : Mask) : Prop where
  place : (c.slot false).pc = pc ∧ (c.slot false).mask = act ∧ (c.slot false).st = .running ∧ (c.slot true).st = .free
  level : c.n = e.n ∧ c.priv = d.priv ∧ c.asid = d.asid ∧ c.ht = e.ht ∧ c.tvec = some e.ttvec ∧ c.dom = e.tdom ∧
    c.budget = (if e.budget = 0 then none else some e.budget)
  passed : ∀ r l, r < 256 → l < 64 → rowAt (c.regs.getD r Row.zero) l = if r < 32 ∧ e.pass.getLsbD r then rowAt (e0.regs.getD r Row.zero) l else 0#32
  fresh : c.mode = 0#32 ∧ c.fp = Row.zero ∧ c.ocnt = List.replicate 4 0#32 ∧ c.queues = List.replicate 8 0#32 ∧ c.trapq = [] ∧ c.insvc = false ∧ c.depth = 0
  back : ∃ g rest, c.gates = g :: rest ∧ rest = e0.gates ∧ g.pc = ret ∧ g.mask = act ∧ g.n = e0.n ∧ g.asid = e0.asid ∧ g.ht = e0.ht ∧ g.tvec = e0.tvec ∧
    g.priv = e0.priv ∧ g.dom = e0.dom ∧ g.mode = e0.mode ∧ g.fp = e0.fp ∧ g.rng = e0.rng ∧ g.queues = e0.queues ∧ g.ocnt = e0.ocnt ∧
    g.trapq = e0.trapq ∧ g.trecs = e0.trecs ∧ g.window = e0.window

/-- What a caller has back (R217): its level as the record holds it, GATESTAT, and of the callee's registers those of RET in the lanes of the call. -/
structure CallerBack (e0 c : Crew) (g : GateRec) (rest : List GateRec) (fail : Bool) (stat : Nat) : Prop where
  place : (c.slot false).pc = g.pc ∧ (c.slot false).mask = g.mask ∧ (c.slot false).st = .running ∧ (c.slot true).st = .free
  level : c.gates = rest ∧ c.n = g.n ∧ c.asid = g.asid ∧ c.ht = g.ht ∧ c.priv = g.priv ∧ c.dom = g.dom ∧ c.mode = g.mode ∧ c.fp = g.fp ∧ c.rng = g.rng ∧
    c.queues = g.queues ∧ c.ocnt = g.ocnt ∧ c.trapq = g.trapq ∧ c.trecs = g.trecs ∧ c.window = g.window ∧ c.budget = g.budget
  status : c.gatestat = BitVec.ofNat 32 stat
  values : ∀ r l, r < 256 → l < 64 → rowAt (c.regs.getD r Row.zero) l =
    if fail = false ∧ r < 32 ∧ g.retMask.getLsbD r ∧ g.mask.getLsbD l then rowAt (e0.regs.getD r Row.zero) l else rowAt (g.regs.getD r Row.zero) l

/-- A row of the special registers that read the same in every lane (R28): number, and value in the user view outside a gate call. -/
structure RowSr where
  num : Nat
  val : State → Crew → Block → Nat

/-- R28 to R30, R21, R85, R175, R207, R208, R273, R382. -/
def srReads : List RowSr := [
  ⟨0x01, fun _ _ _ => 64⟩, ⟨0x02, fun _ c _ => c.idx⟩, ⟨0x03, fun _ _ b => b.blockId⟩, ⟨0x04, fun _ _ b => b.nblocks⟩,
  ⟨0x05, fun _ _ b => b.group * 4 + b.rank⟩, ⟨0x06, fun _ _ b => b.vcore⟩, ⟨0x07, fun _ c _ => c.regc.toNat⟩, ⟨0x18, fun _ c _ => c.mode.toNat⟩,
  ⟨0x1B, fun _ _ b => b.lscale.toNat⟩, ⟨0x1C, fun _ _ b => b.ovf.toNat⟩,
  ⟨0x20, fun _ c _ => (if c.insvc then 2 ^ 31 else 0) + (if c.insvc ∧ c.svcSlot then 2 ^ 30 else 0) + c.trapq.length * 2 ^ 24 + c.skip.toNat⟩,
  ⟨0x21, fun _ c _ => if c.insvc then c.trapcause.toNat else 0⟩, ⟨0x22, fun _ c _ => if c.insvc then c.trapva.toNat else 0⟩,
  ⟨0x23, fun s c _ => (s.tvecOf c).toNat⟩, ⟨0x24, fun _ c _ => c.gates.length⟩, ⟨0x25, fun _ c _ => c.gatestat.toNat⟩,
  ⟨0x28, fun _ c _ => (c.ocnt.getD 0 0#32).toNat⟩, ⟨0x29, fun _ c _ => (c.ocnt.getD 1 0#32).toNat⟩, ⟨0x2A, fun _ c _ => (c.ocnt.getD 2 0#32).toNat⟩,
  ⟨0x2B, fun _ c _ => (c.ocnt.getD 3 0#32).toNat⟩, ⟨0x2C, fun _ _ b => b.itrange.toNat⟩, ⟨0x2D, fun _ _ b => b.fixup.toNat⟩,
  ⟨0x30, fun _ c _ => c.pfmode.toNat⟩, ⟨0x31, fun _ _ b => b.umpt.toNat⟩] ++
  (List.range 8).map (fun q => ⟨0x10 + q, fun _ c _ => (c.queues.getD q 0#32).toNat⟩)

/-- PCSLOTS as slot k reads it (R27): DEPTH above the two slots' states above CUR. -/
def pcSlots (c : Crew) (k : Bool) : Nat :=
  let code := fun p : PcSlot => match p.st with
    | .free => 0
    | .running => 1
    | .parked => 2
  c.depth % 2 ^ 16 * 2 ^ 16 + code c.b * 2 ^ 10 + code c.a * 2 ^ 8 + k.toNat

/-- A special register is 64 bits wide: TRAPVA, TVEC, ITRANGE, CLOCK (R28). -/
def wideSr (n : Nat) : Bool := n == 0x22 || n == 0x23 || n == 0x2C || n == 0x38
/-- The registers that GETS writes or SETS reads. -/
def srSpan (n : Nat) : Nat := if wideSr n then 2 else 1

/-- The writes of crew registers that SETS admits in the user view (R28, R85, R95, R387). -/
def crewWrite (n : Nat) (v : Nat) (row : Row) (act : Mask) : Option (Crew → Crew) :=
  match n with
  | 0x18 => some (fun c => { c with mode := BitVec.ofNat 32 v &&& 0xFFF7FFFF#32 })
  | 0x19 => some (fun c => { c with fp := mkRow (fun l => if act.getLsbD l then rowAt row l &&& 0x7F#32 else rowAt c.fp l) })
  | 0x1A => some (fun c => { c with rng := mkRow (fun l => if act.getLsbD l then rowAt row l else rowAt c.rng l) })
  | 0x20 => some (fun c => { c with skip := v % 2 == 1 })
  | 0x30 => some (fun c => { c with pfmode := BitVec.ofNat 32 (v % 2 ^ 4) })
  | _ => none
/-- The further writes of the privileged view: REGC, GATESTAT and OCNT, whose reserved bits stay 0, and a legal QSTATE (R21, R30, R175, R217). -/
def privilegedWrite (n : Nat) (v : Nat) : Option (Crew → Crew) :=
  if n = 0x07 then some (fun c => { c with regc := BitVec.ofNat 32 v })
  else if n = 0x25 then some (fun c => { c with gatestat := BitVec.ofNat 32 v &&& 0xF0FFFFFF#32 })
  else if 0x28 ≤ n ∧ n ≤ 0x2B then some (fun c => { c with ocnt := c.ocnt.set (n - 0x28) (BitVec.ofNat 32 v &&& 0x8F0000FF#32) })
  else if 0x10 ≤ n ∧ n ≤ 0x17 then some (fun c => { c with queues := c.queues.set (n - 0x10) (qstateSet c (n - 0x10) v) })
  else none
/-- The writes of block registers: LSCALE, OVF, UMPT (R207, R208, R273). -/
def blockWrite (n : Nat) (v : Nat) : Option (Block → Block) :=
  match n with
  | 0x1B => some (fun b => { b with lscale := BitVec.ofNat 32 (v % 2 ^ 8) })
  | 0x1C => some (fun b => { b with ovf := BitVec.ofNat 32 (v % 2 ^ 5) })
  | 0x31 => some (fun b => { b with umpt := BitVec.ofNat 32 (v % 2 ^ 24) })
  | _ => none

/-! ## Conditions under which transfers, traps and calls complete -/

/-- A crew of `core` can enter the line at `pc` by a transfer (R34 to R40, R395): the PC is canonical and names slot 0 to 4; its page translates for
execution to memory in service and without poison, whose 64 bytes are `line`; each copy of the line in the core's instruction cache is the same; the
line is well-formed (R38), and its slot is a target (R40). -/
structure Enterable (s : State) (core asid : Nat) (pc : DWord) (line : List Byte) : Prop where
  canonical : (pc.toNat / 2 ^ 57 = if pc.getLsbD 56 then 127 else 0) ∧ pc.toNat / 8 % 8 = 0 ∧ pc.toNat % 8 ≤ 4
  mapped : ∃ l, s.place asid (pcLine pc) { r := false, w := false, x := true, space := 0 } 0 = .ok l ∧ s.locReady (dieOfCore core) l = .yes ∧
    s.locPoison (dieOfCore core) l 64 = false ∧ (s.beforeLoad (dieOfCore core) l 64).load (dieOfCore core) l 64 = line
  cached : ∀ y ∈ s.icache, y.core = core → y.asid = asid → y.va = pcLine pc → y.bytes = line
  formed : lineFault line = none
  target : (lineWordOf line).getLsbD (pc.toNat % 8) = true

/-- Crew `id` stands in state `t` with lanes `m` running in slot k at `pc`. -/
def Stands (t : State) (id : Nat) (k : Bool) (pc : DWord) (m : Mask) : Prop :=
  ∃ c' ∈ t.crews, c'.id = id ∧ (c'.slot k).pc = pc ∧ (c'.slot k).mask = m ∧ (c'.slot k).st = .running

/-- The transfer of lanes `m` to `target` completes: all lanes of the slot move, or the others go on in sequence and the free slot takes those that move. -/
def Transfers (i : Instr) (s : State) (c : Crew) (m : Mask) (target : DWord) : Prop :=
  let k := s.cur.slot
  let stay := (c.slot k).mask &&& ~~~m
  (stay = 0#64 → Answers (exec i s) (fun t => Stands t c.id k target m)) ∧
  (stay ≠ 0#64 → (c.slot (!k)).st = .free → Answers (exec i s) (fun t => Stands t c.id k s.cur.next stay ∧ Stands t c.id (!k) target m))

/-- Crew `c` has gone on in state `t` at the PC next in sequence. -/
def GoneOn (s : State) (c : Crew) (t : State) : Prop := ∃ c' ∈ t.crews, c'.id = c.id ∧ (c'.slot s.cur.slot).pc = s.cur.next

/-- The n bytes at an offset of a cox buffer that uses no handle lie in one page, which translates to place `l` in service (R306, R395). -/
structure Mapped (s : State) (port : Nat) (sl : CoxSlot) (d : BufD) (write : Bool) (off n : Nat) (l : Loc) : Prop where
  direct : d.hf = false
  page : (d.base + off) % 2 ^ 64 % 65536 + n ≤ 65536 ∧ canonical ((d.base + off) % 2 ^ 64) = true
  place : s.place sl.asid ((d.base + off) % 2 ^ 64) { r := !write, w := write, x := false, space := 0 } 20 = .ok l
  ready : s.locReady (port / 8) l = .yes

/-! ## Cox instructions -/

/-- The running context of the cox at the cursor may execute the instruction at its PC: the PC lies in its region, and it has not run 65,536
instructions since its last chunk boundary; it is not stepped (R309, R328, R331). -/
structure CoxRuns (s : State) (sl : CoxSlot) : Prop where
  here : s.coxSlot s.cur.port s.cur.ctxSlot = sl
  running : sl.st = 2
  region : s.inRegion s.cur.port sl sl.pc = true
  spin : sl.spin < 65536
  plain : sl.step = false

/-- The slot of the cox at the cursor changed in state m. -/
def withSlot (s m : State) (f : CoxSlot → CoxSlot) : State := m.modSlot s.cur.port s.cur.ctxSlot f
/-- A retired instruction: the PC, and one more instruction since the last chunk boundary. -/
def retire (sl : CoxSlot) (pc : Nat) (x : CoxSlot) : CoxSlot := { x with pc := pc, spin := sl.spin + 1, why := 0 }
/-- A retired instruction that ends at a chunk boundary: the count starts again, and another READY context makes this one READY (R328). -/
def boundary (s m : State) (pc : Nat) : State :=
  withSlot s m (fun x => { x with pc := pc, spin := 0, why := 0, st := if (s.cox s.cur.port).slots.any (fun y => y.st == 1) then 1 else x.st })
/-- A context that waits, for a reason of R303. -/
def waits (s m : State) (why : Nat) : State := withSlot s m (fun x => { x with st := 3, why := why, spin := 0 })
/-- Nothing waits for the chunk boundary of a context. -/
def Undisturbed (sl : CoxSlot) : Prop := sl.killed = false ∧ sl.aborted = false
/-- Register i of a context. -/
def creg (sl : CoxSlot) (i : BitVec 4) : DWord := sl.regs.getD i.toNat 0#64

/-- R311: the register instructions of format CR. -/
noncomputable def coxAluRows : List ((FormCR → Instr) × (FormCR → Bool) × (DWord → DWord → DWord)) := [
  (.coxMov, fun f => f.rsv ≠ 0#46 || f.b ≠ 0#4, fun a _ => a), (.coxAdd, fun f => f.rsv ≠ 0#46, fun a b => a + b),
  (.coxSub, fun f => f.rsv ≠ 0#46, fun a b => a - b), (.coxAnd, fun f => f.rsv ≠ 0#46, fun a b => a &&& b),
  (.coxOr, fun f => f.rsv ≠ 0#46, fun a b => a ||| b),
  (.coxShl, fun f => f.rsv ≠ 0#46, fun a b => if b.toNat < 64 then a <<< b.toNat else 0#64),
  (.coxShr, fun f => f.rsv ≠ 0#46, fun a b => if b.toNat < 64 then a >>> b.toNat else 0#64)]

/-- R312: the branches, and when each is taken. -/
noncomputable def coxBranchRows : List ((FormCB → Instr) × (FormCB → Bool) × (DWord → DWord → Bool)) := [
  (.coxBr, fun f => f.rsv ≠ 0#38 || f.a ≠ 0#4 || f.b ≠ 0#4, fun _ _ => true), (.coxBeq, fun f => f.rsv ≠ 0#38, fun a b => a == b),
  (.coxBne, fun f => f.rsv ≠ 0#38, fun a b => a != b), (.coxBlt, fun f => f.rsv ≠ 0#38, fun a b => a.slt b),
  (.coxBge, fun f => f.rsv ≠ 0#38, fun a b => b.sle a)]

/-- The buffer of a chunk instruction is valid and its chunk index below COUNT (R314 checks 1 and 2). -/
def BufferOk (sl : CoxSlot) (f : FormCC) : Prop := (sl.buf f.buf.toNat).v = true ∧ (creg sl f.ireg).toNat < (sl.buf f.buf.toNat).count
/-- The target register names a member rank of the context's own group (R314 check 3). -/
def TargetOk (s : State) (sl : CoxSlot) (f : FormCC) : Prop :=
  (creg sl f.treg).toNat < 2 ^ 13 ∧ s.grpFor sl.group sl.ctx = true ∧ (creg sl f.treg).toNat % 2 ^ 8 ≤ (s.grp sl.group).nm1
/-- The window of a tag has its whole chunk, and no packet of it is held or poisoned (R316, R317). -/
def Landed (sl : CoxSlot) (tag : Nat) : Prop :=
  (∃ w ∈ sl.wins, w.tag = tag) ∧ (sl.win tag).fva = none ∧ (sl.win tag).poison = false ∧ 2 ^ (sl.buf (sl.win tag).buf).lch ≤ (sl.win tag).landed
/-- The window's buffer and the instruction's agree in chunk size and element format (R314 check 5). -/
def SameShape (sl : CoxSlot) (f : FormCC) : Prop :=
  (sl.buf (sl.win f.wtag.toNat).buf).lch = (sl.buf f.buf.toNat).lch ∧ (sl.buf (sl.win f.wtag.toNat).buf).efmt = (sl.buf f.buf.toNat).efmt
/-- The send that a context begins: every packet of the chunk still to be accepted (R315). -/
def newSend (s m : State) (sl : CoxSlot) (buf chunk ct tag : Nat) : CoxSend :=
  { buf := buf, chunk := chunk, tag := tag, rank := ct % 256, port := ct / 256 % 32, left := List.range (2 ^ ((sl.buf buf).lch - 8)), again := [],
    refused := 0, since := none, keyed := false, id := m.order, dst := (s.grp sl.group).ranks.getD (ct % 256) 0, fail := none }
/-- The windows without that of a tag. -/
def closed (sl : CoxSlot) (tag : Nat) : List CoxWin := sl.wins.filter (fun w => w.tag ≠ tag)

/-! ## Events -/

/-- The state in which an event acts: the next free value is drawn. -/
def fresh (s : State) : State := { s with free := s.free + 1 }

/-- R45, R46, R61: an instruction of variable latency completes: its writes land, its flag goes down by one, nothing else of the crew changes. Lanes
that a later instruction has written meanwhile, and registers to which a fixed-latency write is still in flight, are left out: there either value may
remain, as in the registers of earlier instructions still in flight. An instruction that still may read sources reads them before: of a command that
has not begun, each operand stays or is what its register holds now; without such sources nothing else of the machine changes. -/
def CompletionEvent : Prop :=
  ∀ (s : State) (id flight : Nat) (c : Crew) (f : Flight), s.crew? id = some c →
    c.flights.find? (fun g => g.id == flight && g.due.isNone) = some f → s.accas.all (fun a => a.crew != id || a.flight != flight) = true →
    let q := (fresh s).readLate c f
    (f.late = none → q = (fresh s, f)) ∧
    (∀ regs lane, f.late = some (.args regs lane) → q.2 = f ∧ q.1 = { fresh s with ops := q.1.ops } ∧ q.1.ops.length = s.ops.length ∧
      ∀ (k : Nat) (o : Op), s.ops[k]? = some o → ∃ o' : Op, q.1.ops[k]? = some o' ∧ o' = { o with args := o'.args } ∧ (o.id ≠ f.id ∨ o.checked = true → o' = o) ∧
        ∀ i, o'.args.getD i 0#32 = o.args.getD i 0#32 ∨ (0 < regs.getD i 0 ∧
          o'.args.getD i 0#32 = readLane (fresh s) c.id c.regs (c.flights.filter (fun g => g.id ≠ f.id)) (regs.getD i 0 - 1) lane)) ∧
    Answers (exec (.instructionCompletion id flight) s) (fun t => ∃ c',
      t = { q.1 with crews := s.crews.map (fun x => if x.id == c.id then c' else x) } ∧
      c' = { c with
        regs := c'.regs
        flights := (c.flights.filter (fun g => g.id ≠ f.id)).map (fun g =>
          if g.due.isNone && decide (g.id < f.id) then q.2.writes.foldl (fun g a => g.overtakenBy a.reg a.mask a.bits) g else g)
        flags := match f.flag with
          | some i => c.flags.set i (c.flags.getD i 0 - 1)
          | none => c.flags } ∧
      ∀ r l, l < 64 → hazardFree s.cycle c.flights r →
        (∀ a ∈ q.2.writes, a.reg < c.regs.length ∧ (a.reg = r → ∀ p ∈ a.raced, p.1.getLsbD l = false)) →
        rowAt (c'.regs.getD r Row.zero) l = laneAfter (q.2.writes.map (fun a => { reg := a.reg, row := a.row, mask := a.mask, bits := a.bits : Wr })) r l
          (rowAt (c.regs.getD r Row.zero) l))

/-- R388: a held record is tried again; it leaves the list when it has been posted, and its agent learns its number; otherwise it stays: one
that now finds its queue full counts in WAITS if it was held as unwritable, and one whose queue turns out unwritable is logged with the VA. -/
def HeldRecordEvents : Prop :=
  ∀ (s : State) (i : Nat) (h : Held), s.held[i]? = some h →
    let e := if h.unwritable then Instr.faultQueueWriteRetry i else Instr.faultRecordRetry i
    (∀ m seq b, (fresh s).tryPost h = (m, some seq, b) → exec e s = .next ({ m with held := s.held.eraseIdx i }.recordPosted h seq)) ∧
    (∀ m, (fresh s).tryPost h = (m, none, none) →
      exec e s = .next { (if h.unwritable then m.countWait h else m) with held := s.held.set i { h with unwritable := false, tried := s.clock.toNat } }) ∧
    (∀ m va, (fresh s).tryPost h = (m, none, some va) →
      let t := { m with held := s.held.set i { h with unwritable := true, tried := s.clock.toNat } }
      exec e s = .next (if h.unwritable then t else t.rasLog 12 0 va 0))

/-- The places that a copy reads, with their lengths, and those that it writes. -/
def copySources (s : State) (o : Op) : List (Loc × Nat) :=
  srcPlaces s o (s.opHandle o (o.args.getD 2 0#32)) o.shape (o.arg 3) o.shape.total 0
def copyTargets (s : State) (o : Op) : List (Loc × Nat) :=
  srcPlaces s o (s.opHandle o (o.args.getD 0 0#32)) { o.shape with srs := o.shape.trs, sps := o.shape.tps } (o.arg 1) o.shape.total 0

/-- R176, R179, R180, R270: a step of a copy between block memories whose ranges do not overlap moves one piece, at most up to the next 4 KiB boundary
of the source and the next unit of the target: afterwards the target bytes are what the source bytes were, and every other byte is as before; the step of the last piece retires the
command. Pieces that share a 32-byte sector move in one step (R230) and are left out here. The first failing check retires the command with its
status. -/
def CopyEvent : Prop :=
  ∀ (s : State) (o : Op), s.op? o.id = some o → o.cls = 0 → o.opc ≤ 0x282 → o.done = false → o.pause = [] → (fresh s).opLive o = true → s.bmem.wf = true →
    let u := (fresh s).touchOp o
    let v := u.noteBadHandles o
    (o.checked = false → u.handlesWait o = true → exec (.engineOperationRetire o.id) s = .next u) ∧
    (o.checked = false → u.handlesWait o = false → checkCopy v o ≠ 0 →
      exec (.engineOperationRetire o.id) s = .next (v.finishOp o.id (checkCopy v o))) ∧
    (o.checked = false → u.handlesWait o = false → checkCopy v o = 0 →
      exec (.engineOperationRetire o.id) s = .next ((v.noteHandles o).modOp o.id (fun p => { p with checked := true }))) ∧
    (o.checked = true →
      let te := u.opHandle o (o.args.getD 0 0#32)
      let se := u.opHandle o (o.args.getD 2 0#32)
      let sva := se.base + o.arg 3
      let tva := te.base + o.arg 1
      te.space = 2 → se.space = 2 → (∀ p ∈ copyTargets u o, ∀ i, i < p.2 → inPlaces (copySources u o) p.1 i = false) →
      (o.shape.total ≤ o.pos → exec (.engineOperationRetire o.id) s = .next ((u.modOp o.id Op.stepping).finishOp o.id 0)) ∧
      ∀ so d len, o.shape.piece o.unit sva tva o.pos = some (so, d, len) →
        (o.shape.total ≤ o.pos + len ∨ o.shape.joined o.unit sva tva (o.pos + len) = false) →
        let past := tva + (match o.shape.piece o.unit sva tva (o.pos + len) with
          | some (_, d', _) => d'
          | none => d + len)
        let src := (s.opPart o).1 + (o.arg 3 + so)
        let dst := (s.opPart o).1 + (o.arg 1 + d)
        Answers (exec (.engineOperationRetire o.id) s) (fun t =>
          t.bmem.read (coreKey o.core dst) len = s.bmem.read (coreKey o.core src) len ∧
          (∀ a, a < coreKey o.core dst ∨ coreKey o.core dst + len ≤ a → t.bmem.get a = s.bmem.get a) ∧ t.mem = s.mem ∧
          (o.pos + len < o.shape.total → t.ops = s.ops.map (fun p => if p.id == o.id then { p with
            pos := o.pos + len, at4k := passes 4096 (tva + d) past, at256 := passes 256 (tva + d) past } else p)) ∧
          (o.shape.total ≤ o.pos + len → ∀ p ∈ t.ops, p.id = o.id → p.done = true)))

/-- R184: a tile signal whose awaited operations have all ended well releases, adds its value to the flag word at the place that it named when it was
issued, and retires; while one of them is still under way it does nothing; the status of the one issued first among those that failed (`met`) is its
own, and the flag word keeps its value. -/
def TileSignalEvent : Prop :=
  ∀ (s : State) (o : Op) (l : Loc), s.op? o.id = some o → o.opc = 0x298 → o.done = false → o.pause = [] → o.stat = 0 → s.opHere o = true →
    let u := fresh s
    let die := dieOfCore o.core
    let awaited := s.ops.filter (fun p => o.await.contains p.id)
    ((∃ p ∈ awaited, p.done = false) → exec (.tsigAdd o.id) s = .next u) ∧
    ((∀ p ∈ awaited, p.done = true) →
      (∀ p ∈ o.met, p.2 ≠ 0 → (∀ q ∈ o.met, q.2 ≠ 0 ∧ (q = p ∨ p.1 < q.1)) → exec (.tsigAdd o.id) s = .next (u.finishOp o.id p.2)) ∧
      (o.met = [] → u.opPlace o o.flagEntry (o.arg 1 + o.arg 2 * 2 ^ 32) true true = .ok l → u.locReady die l.home = .yes →
        u.locPoison die l.home 4 = false →
        let v := (u.noteEng o o.flagEntry (o.arg 1 + o.arg 2 * 2 ^ 32)).release
        exec (.tsigAdd o.id) s = .next ((atomStep (fun a b => some ((a + b) % 2 ^ 32)) 4 die l (o.arg 3) v).1.finishOp o.id 0)))

/-- R202, R266, R422: a free tile engine starts the first READY slice in posting order, and LSCALE is read as a task starts; a task retires when every
slice has done all its rows, with the first nonzero status of its slices, and with an undefined target where that is FULL or LINKDOWN (R180); one that
fails its checks retires with nothing written; in REDUCED service none passes them. -/
def TileEvents : Prop :=
  ∀ (s : State) (o : Op), s.op? o.id = some o → o.cls = 2 → o.done = false →
    let u := fresh s
    (∀ core c pre post, s.ops = pre ++ o :: post →
      let ready := fun (p : Op) (c : Nat) => u.sliceReady p c && (u.sliceBlock p c).any (fun b => b.core == core)
      u.engineBusy core = false → (∀ p ∈ pre, p.cls = 2 → ∀ k, k < trSlices p.trec → ready p k = false) →
      c < trSlices o.trec → ready o c = true → (∀ k, k < c → ready o k = false) →
      exec (.tileSliceStart core) s = .next (u.modOp o.id (fun p => { p with
        lscale := if p.phase = 0 then ((s.block? o.blk).map (fun b => b.lscale)).getD 0#32 else p.lscale, phase := 1,
        started := p.started.set c true }))) ∧
    ((s.ctxSt o.ctx).stopped = false → ∀ c,
      (o.checked = false → s.mgmt.stage = 2 → exec (.tileTaskRetire o.id c) s = .next u) ∧
      (o.checked = false → s.mgmt.stage ≠ 2 → u.inMarshal o = true →
        (taskStatus u o ≠ 0 ∨ o.mv = 0 → exec (.tileTaskRetire o.id c) s = .next (u.finishOp o.id (taskStatus u o))) ∧
        (taskStatus u o = 0 → o.mv ≠ 0 → exec (.tileTaskRetire o.id c) s = .next (u.modOp o.id (fun p => { p with checked := true })))) ∧
      (o.checked = true → (∀ k, k < trSlices o.trec → o.sliceOver k = true) → c < trSlices o.trec →
        let st := (o.sliceStat.find? (fun x => x ≠ 0)).getD 0
        exec (.tileTaskRetire o.id c) s = .next ((if st = 5 ∨ st = 6 then u.scrubTask o else u).finishOp o.id st)))

/-- R197, R200: a row of mma.i8 adds to every accumulator of the row the sum of products of signed bytes, modulo 2^32; a row of mzero makes them zero.
Other accumulator bytes keep their values. -/
def TileRowEvents : Prop :=
  ∀ (s : State) (o : Op) (b : Block) (c : Nat), s.op? o.id = some o → o.cls = 2 → o.done = false → o.checked = true → (s.ctxSt o.ctx).stopped = false →
    o.started.getD c false = true → o.sliceOver c = false → (o.pause.any (fun p => p.1 == c)) = false → s.sliceBlock o c = some b → s.amem.wf = true →
    (∀ x ∈ o.sliceStat, x = 0) →
    let u := (fresh s).touchTask o
    let i := o.prog.getD c 0
    let at0 := fun part => accAddr o.trec part i 0
    let others := fun (t : State) (off : Nat) => ∀ a, a < coreKey b.core off ∨ coreKey b.core off + 4 * trNLc o.trec c ≤ a → t.amem.get a = s.amem.get a
    (o.opc = 0x321 →
      Answers (exec (.tileTaskRetire o.id c) s) (fun t => (∀ j, j < trNLc o.trec c → t.accWord b.core (at0 (bitOf o.sub 1) + 4 * j) = 0) ∧
        others t (at0 (bitOf o.sub 1)) ∧ t.mem = s.mem ∧ t.bmem = s.bmem)) ∧
    (o.opc = 0x30F → ∀ x ys,
      engRead u o (u.opHandle o (BitVec.ofNat 32 (trHnd o.trec false))) 2 (o.arg 0 + i * trw o.trec 2) (trKB o.trec) = .ok x →
      readCols u o (u.opHandle o (BitVec.ofNat 32 (trHnd o.trec true))) c (trNLc o.trec c) = .ok ys →
      (∀ p ∈ x, p.2 = false) → (∀ y ∈ ys, ∀ p ∈ y, p.2 = false) →
      Answers (exec (.tileTaskRetire o.id c) s) (fun t =>
        (∀ j, j < trNLc o.trec c → (t.accWord b.core (at0 false + 4 * j) : Int) =
          (s.accWord b.core (at0 false + 4 * j) +
            ((List.range (trKB o.trec)).map (fun k => (x.getD k (0#8, false)).1.toInt * ((ys.getD j []).getD k (0#8, false)).1.toInt)).sum) % 2 ^ 32) ∧
        others t (at0 false) ∧ t.mem = s.mem ∧ t.bmem = s.bmem))

/-- R204, R205, R267: the allocator grants the oldest request of a core its units, and the instruction's result is 4096 times the first of them; a
unit whose release waits is free once no earlier task that uses it is left. -/
def AllocatorEvents : Prop :=
  (∀ (s : State) (core first : Nat) (r : AccaReq) (b : Block) (c : Crew), (fresh s).oldestReq core = some r → s.block? r.blk = some b →
    s.crew? r.crew = some c → b.spilled = 0#64 → s.spills.all (fun p => p.1 != r.blk) = true →
    (match r.base with
      | some u => first = u
      | none => unitRun r.units ((fresh s).unitFree core) = some first) →
    (∀ i, i < r.units → (fresh s).unitFree core (first + i) = true ∨ (r.base.isSome = true ∧ b.units.getLsbD (first + i) = true)) →
    first + r.units ≤ 64 →
    Answers (exec (.accaGrant core) s) (fun t =>
      t.accas = s.accas.filter (fun q => q.id ≠ r.id) ∧ t.amem = s.amem ∧ t.mem = s.mem ∧ t.bmem = s.bmem ∧
      (∃ m : BitVec 64, (∀ u, u < 64 → m.getLsbD u = (decide (first ≤ u) && decide (u < first + r.units))) ∧
        t.blocks = s.blocks.map (fun q => if q.id == r.blk then { q with units := q.units ||| q.spilled ||| m, spilled := 0#64 } else q)) ∧
      ∃ c' ∈ t.crews, c'.id = c.id ∧ (c'.slot r.slot).accaWait = none ∧ (c'.slot r.slot).region = (c.slot r.slot).pc ∧
        c'.flights = c.flights.map (fun f => if f.id = r.flight then { f with writes := f.writes.map (fun a => { a with
          row := mkRow (fun _ => BitVec.ofNat 32 (4096 * first)), mask := r.mask }) } else f))) ∧
  ∀ (s : State) (i : Nat) (a : AccfReq), s.accfs[i]? = some a →
    exec (.accfUnitRelease i) s = .next (if s.ops.any (fun o => a.tasks.contains o.id) then fresh s
      else { fresh s with
        accfs := s.accfs.eraseIdx i, spills := s.spills.filter (fun p => !(p.1 == a.blk && p.2.1 == a.unit)),
        blocks := s.blocks.map (fun q => if q.id == a.blk
          then { q with units := q.units &&& ~~~(1#64 <<< a.unit), spilled := q.spilled &&& ~~~(1#64 <<< a.unit) } else q) })

/-- A write that a clock names is still on its way to a die. -/
def Owed (s : State) (dst : Nat) (clock : List Nat) : Prop :=
  (∃ x ∈ s.arriving, x.dst = dst ∧ x.num ≤ clock.getD x.src 0) ∨ (∃ x ∈ s.replicas, x.die = dst ∧ x.num ≤ clock.getD x.src 0)

/-- R236, R241: an arriving write is applied at its home once the earlier ones of its die that overlap it have been and every write that its clock
names; the home's clock then takes in the write's; bytes of a sealed context's descriptor and domain entry keep their values (R431). A write of a replicated page is applied to its replica in the order of the page, after the writes
that its clock names. -/
def ArrivalEvents : Prop :=
  (∀ (s : State) (i : Nat) (w : Arriving), s.arriving[i]? = some w →
    let early := ∃ x ∈ s.arriving.take i, x.src = w.src ∧ x.pa < w.pa + w.bytes.length ∧ w.pa < x.pa + x.bytes.length
    ((early ∨ Owed s w.dst w.clock) → exec (.remoteWriteApply i) s = .next (fresh s)) ∧
    (¬ early → ¬ Owed s w.dst w.clock → Answers (exec (.remoteWriteApply i) s) (fun t =>
      ((∀ k, k < w.bytes.length → s.sealedEntry (w.pa + k) = false) → t.mem = s.mem.write w.pa w.bytes) ∧
      t.arriving = s.arriving.eraseIdx i ∧
      (w.dst < s.dieClk.length → ∀ k, k < 4 → (t.dieClk.getD w.dst []).getD k 0 =
        max ((s.dieClk.getD w.dst []).getD k 0) ((w.clock.set w.src w.num).getD k 0)) ∧
      t.crews = s.crews ∧ t.bmem = s.bmem ∧ t.amem = s.amem ∧ t.ops = s.ops))) ∧
  ∀ (s : State) (i : Nat) (r : Replica), s.replicas[i]? = some r →
    let early := ∃ x ∈ s.replicas.take i, x.die = r.die ∧ x.pa / 2 ^ 21 = r.pa / 2 ^ 21
    ((early ∨ Owed s r.die r.clock) → exec (.replicaApply i) s = .next (fresh s)) ∧
    (¬ early → ¬ Owed s r.die r.clock →
      exec (.replicaApply i) s = .next (({ fresh s with replicas := s.replicas.eraseIdx i }.writeKey r.pa r.key r.bytes).learn r.die (r.clock.set r.src r.num)))

/-- R167, R169: a tracker becomes idle when its prefetch has fetched its pages; the pfd request that a core has begun leaves the queue once it is served;
the next one to begin is, of those whose deadline has not passed, the one of earliest deadline, then of higher priority, then the older; one whose
deadline has passed before it began leaves the queue and is counted. -/
def PrefetchEvents : Prop :=
  ∀ (s : State) (core : Nat), core < s.cores.length →
    (∀ n t, n < 32 → (s.core core).trackers[n]? = some t →
      exec (.prefetchComplete core n) s = .next ((fresh s).modCore core (fun k => { k with trackers := k.trackers.set n { t with busy := false } }))) ∧
    (∀ n, 32 ≤ n → (∃ p ∈ (s.core core).pfds, p.begun = true) →
      exec (.prefetchComplete core n) s = .next ((fresh s).modCore core (fun k => { k with pfds := k.pfds.filter (fun q => !q.begun) }))) ∧
    (∀ n, 32 ≤ n → (∀ p ∈ (s.core core).pfds, p.begun = false) →
      ((∀ p ∈ (s.core core).pfds, p.deadline < s.cycle) → exec (.prefetchComplete core n) s = .next (fresh s)) ∧
      ((∃ p ∈ (s.core core).pfds, s.cycle ≤ p.deadline) → ∃ p ∈ (s.core core).pfds, s.cycle ≤ p.deadline ∧
        (∀ q ∈ (s.core core).pfds, s.cycle ≤ q.deadline →
          p.deadline < q.deadline ∨ (p.deadline = q.deadline ∧ (q.prio < p.prio ∨ (p.prio = q.prio ∧ p.order ≤ q.order)))) ∧
        exec (.prefetchComplete core n) s = .next ((fresh s).modCore core (fun k => { k with
          pfds := k.pfds.map (fun q => if q.order = p.order then { q with begun := true } else q) })))) ∧
    ∀ order p, (s.core core).pfds.find? (fun q => q.order == order) = some p →
      (p.begun = true ∨ s.cycle ≤ p.deadline → exec (.pfdDeadlineDrop core order) s = .next s) ∧
      (p.begun = false → p.deadline < s.cycle → Answers (exec (.pfdDeadlineDrop core order) s) (fun t =>
        (t.core core).pfds = (s.core core).pfds.filter (fun r => r.order ≠ order) ∧
        t.mgmt.pfddrop = s.mgmt.pfddrop.set (dieOfCore core) (s.mgmt.pfddrop.getD (dieOfCore core) 0#32 + 1#32) ∧
        t = { s with cores := t.cores, mgmt := { s.mgmt with pfddrop := t.mgmt.pfddrop } }))

/-- No two blocks have one id. -/
def BlocksDistinct (s : State) : Prop := (s.blocks.map (fun b => b.id)).Nodup

/-- R253, R265, R423: a pending Q launch that fits, before which no other fitting one comes in the order, is admitted, while the driver does not hold its
context stopped; one whose deadline has expired is rejected with reason LATE and leaves the list, unless the stakeboat is held. -/
def AdmissionEvents : Prop :=
  ∀ (s : State) (l : Launch), s.launch? l.id = some l → l.st = 1 →
    let u := fresh s
    (s.mgmt.ps = 0#2 → s.expired l = false → (s.ctxSt l.ctx).stopped = false → u.qFits l = true →
      (∀ k ∈ s.launches, k.st = 1 → k.before l = true → (s.ctxSt k.ctx).stopped = true ∨ u.qFits k = false) →
      Answers (exec (.launchAdmission l.id) s) (fun t => t.order = s.order + 1 ∧ t.crews = s.crews ∧ t.blocks = s.blocks ∧
        (∃ k ∈ t.launches, k.id = l.id ∧ k.st = 2 ∧ k.admitOrd = s.order) ∧ ∀ k ∈ s.launches, k.id ≠ l.id → k ∈ t.launches)) ∧
    (u.qFits l = false ∨ s.expired l = true ∨ (s.ctxSt l.ctx).stopped = true → exec (.launchAdmission l.id) s = .next u) ∧
    (l.cls = 0 → s.expired l = true → s.mgmt.ps = 0#2 → exec (.launchDeadlineExpire l.id) s =
      .next { (s.modLaunch l.id (fun (k : Launch) => { k with reason := 8 })).setLaunch l.id 3 with
        launches := ((s.modLaunch l.id (fun (k : Launch) => { k with reason := 8 })).setLaunch l.id 3).launches.filter (fun (k : Launch) => k.id ≠ l.id) }) ∧
    (s.expired l = false ∨ s.mgmt.ps ≠ 0#2 → exec (.launchDeadlineExpire l.id) s = .next s)

/-- R14, R255 to R257: the next block of an admitted B or H launch without a group is placed on a core with room: its crews start at the entry with all
lanes live and all their registers zero, and the block holds its block memory and its iterations. -/
def PlacementEvent : Prop :=
  ∀ (s : State) (l : Launch) (b core v off : Nat) (quads : List Nat) (seats : List (Nat × Nat)), s.launch? l.id = some l →
    let u := fresh s
    l.st = 2 → l.cls ≠ 0 → l.gsize = 1 → s.mgmt.ps = 0#2 → u.nextBlock l = some b → u.gangWaiting = false → (s.ctxSt l.ctx).stopped = false →
    u.firstInOrder l = true → (∀ q ∈ s.blocks, q.launch = l.id → q.blockId ≠ b) → u.vcoreOk l.ctx v core = true → u.spanOk l [core] = true →
    quads.length = l.crews → u.room core l (some quads) = some (off, seats) →
    Answers (exec (.blockPlacement l.id b [core] quads [v] []) s) (fun t =>
      (∃ q, t.blocks = s.blocks ++ [q] ∧ q.launch = l.id ∧ q.blockId = b ∧ q.core = core ∧ q.vcore = v ∧ q.place = 0 ∧ q.bmOff = off ∧ q.bmLen = l.bmem ∧
        q.itrange = l.itrange b ∧ q.arr = List.replicate 64 0#32 ∧ q.barP = 0#16 ∧
        ∃ cs, t.crews = s.crews ++ cs ∧ cs.length = l.crews ∧ ∀ c ∈ cs, c.blk = q.id ∧ c.ctx = l.ctx ∧ c.core = core ∧ c.n = l.regs ∧
          (c.a.st = .running ∧ c.a.pc = l.entry ∧ c.a.region = l.entry ∧ c.a.mask = BitVec.allOnes 64) ∧ c.b.st = .free ∧ c.depth = 0 ∧
          c.regs = List.replicate 256 Row.zero ∧ c.queues = List.replicate 8 0#32 ∧ c.mode = 0#32 ∧ c.ocnt = List.replicate 4 0#32 ∧
          (∀ i, i < 64 → rowAt c.rng i = BitVec.ofNat 32 (0x9E3779B9 + i)) ∧ c.retired = false) ∧
      t.mem = s.mem ∧ t.bmem = s.bmem ∧ t.amem = s.amem)

/-- R11, R261: a crew with no live lane, no record on its stack and nothing outstanding retires; a block whose crews have all retired releases and goes,
and its launch counts it; the last one completes the launch. -/
def RetireEvents : Prop :=
  (∀ (s : State) (id : Nat) (c0 : Crew), s.crew? id = some c0 →
    let c := settle s c0
    let ended := c.retired = false ∧ c.a.st = .free ∧ c.b.st = .free ∧ c.depth = 0 ∧ c.stall = none ∧ c.unwinding = none ∧ ∀ k, k < 4 → c.count k = 0
    (ended → exec (.crewRetire id) s = .next { s with
      crews := s.crews.map (fun x => if x.id == id then { stopFlights s c with retired := true, narr := c.arrived } else x) }) ∧
    (¬ ended → exec (.crewRetire id) s = .next s)) ∧
  ∀ (s : State) (b : Block) (l : Launch), s.block? b.id = some b → s.launch? b.launch = some l → b.place = 0 → (∀ k ∈ s.launches, k.id = b.launch → k = l) →
    ((∃ c ∈ s.crews, c.blk = b.id ∧ c.retired = false) → exec (.blockRetire b.id) s = .next s) ∧
    ((∀ c ∈ s.crews, c.blk = b.id → c.retired = true) → bitOf (l.w 24) 31 = false → bitOf (l.w 26) 31 = false → l.writes = [] → l.hold = none → l.st = 2 →
      let r := s.release.handLead b
      let m := { r with
        blocks := r.blocks.filter (fun q => q.id ≠ b.id), crews := r.crews.filter (fun c => c.blk ≠ b.id),
        spills := r.spills.filter (fun p => p.1 ≠ b.id), saved := r.saved.filter (fun x => x.blk ≠ b.id),
        launches := r.launches.map (fun (k : Launch) => if k.id == b.launch then { k with retired := k.retired + 1 } else k) }
      (l.retired + 1 < l.nblocks → Answers (exec (.blockRetire b.id) s) (fun t => t = m.checkLent b.core (s.lentBytes b.core))) ∧
      (l.retired + 1 = l.nblocks → Answers (exec (.blockRetire b.id) s) (fun t => t.blocks = m.blocks ∧ t.crews = m.crews ∧
        t.launches = m.launches.filter (fun (k : Launch) => k.id ≠ b.launch) ∧ t.bmem = s.bmem)))

/-- R246, R255, R264, R366: a block that moves takes its block memory with it, and its crews go on at their region entries; the spin hand-off switches out
the block demoted longest, once nothing of its operations keeps it, and gives its core to the block of its launch that has waited longest: one not placed
yet before one switched out; with no block that can come nothing moves, and the check comes again after SPINT cycles. -/
def MoveEvents : Prop :=
  (∀ (s : State) (b : Block) (l : Launch) (core off : Nat) (quads : List Nat) (seats : List (Nat × Nat)),
    s.block? b.id = some b → s.launch? b.launch = some l → s.bmem.wf = true → l.cls ≠ 0 → core ≠ b.core → b.gsize = 1 →
    let u := fresh s
    u.movable b = true → (∀ n, n < 64 → b.units.getLsbD n = true → u.unitFree core n = true) → u.gangWaiting = false →
    (∀ q ∈ s.blocks, q.id ≠ b.id → q.ctx = b.ctx → q.vcore = b.vcore → q.place = 0 → q.core = core) →
    u.room core { l with record := l.record.take 36 ++ List.replicate 4 0#8 ++ l.record.drop 40 } (some quads) = some (off, seats) →
    Answers (exec (.blockMigration b.id core quads) s) (fun t =>
      (∀ q ∈ t.blocks, q.id = b.id → q.core = core ∧ q.place = 0 ∧ q.bmOff = off) ∧
      t.bmem.read (coreKey core off) b.bmLen = s.bmem.read (coreKey b.core b.bmOff) b.bmLen ∧
      ((s.crewsOf b.id).length ≤ l.crews → ∀ c, s.crew? c.id = some c → c.blk = b.id → c.retired = false → c.unwinding = none → c.cont = false →
        ∃ d ∈ t.crews, d.id = c.id ∧ d.core = core ∧ d.flights = [] ∧ (c.a.st = .running → d.a.pc = c.a.region) ∧ (c.b.st = .running → d.b.pc = c.b.region)))) ∧
  ∀ (s : State) (b : Block) (l : Launch) (v : Nat), s.block? b.id = some b → s.launch? b.launch = some l → b.place = 0 → l.gsize = 1 →
    (fresh s).leavable b.id = true →
    let u := fresh s
    let quads := ((u.crewsOf b.id).filter (fun c => !c.retired)).map (fun c => c.quad)
    u.spinning l = true → (∀ q ∈ s.blocks, q.launch = l.id → q.place = 0 → u.demotedSince b.id ≤ u.demotedSince q.id) →
    let checked := fun (m : State) => m.modLaunch l.id (fun k => { k with spinAt := max 1 s.cycle })
    (∀ p m, u.firstReady l l.nblocks 0 = some p → (u.leaveCore b.id 1).placeBlock l p b.core v quads = some m →
      exec (.spinHandoff b.id v) s = .next (checked (m.toImage b.id))) ∧
    (∀ q m, u.firstReady l l.nblocks 0 = none → u.switchedOut l = [q] → (u.leaveCore b.id 1).placeBlock l q.blockId b.core v quads = some m →
      exec (.spinHandoff b.id v) s = .next (checked (m.toImage b.id))) ∧
    (u.firstReady l l.nblocks 0 = none → u.switchedOut l = [] → exec (.spinHandoff b.id v) s = .next (checked u))

/-- R265, R367, R369, R379: pre-emption stops every crew of the context where it stands, its instructions in flight ended and its flags zero, and nothing
of the context issues any more; the image of a virtual core takes its blocks off their core with their block memory kept. A restore of B and H launches
lets the context run, reads its tasks back and puts the saved blocks that fit on the cores named; a Q launch comes back with all its saved blocks and room
for the others, or not at all, and then waits. -/
def PreemptEvents : Prop :=
  (∀ (s : State) (ctx : Nat),
    (((fresh s).ctxDesc ctx).valid = false ∨ (s.ctxSt ctx).dead = true ∨ (s.ctxSt ctx).stopped = true → exec (.contextPreempt ctx) s = .next (fresh s)) ∧
    (((fresh s).ctxDesc ctx).valid = true → (s.ctxSt ctx).dead = false → (s.ctxSt ctx).stopped = false →
      Answers (exec (.contextPreempt ctx) s) (fun t => (t.ctxSt ctx).stopped = true ∧ t.blocks = s.blocks ∧ t.bmem = s.bmem ∧
        ∀ c b, s.crew? c.id = some c → b ∈ s.blocks → b.id = c.blk → b.ctx = ctx → b.place = 0 → c.retired = false → c.stall = none →
          ∃ d ∈ t.crews, d.id = c.id ∧ d.flights = [] ∧ d.a = c.a ∧ d.b = c.b ∧ d.demote = 0 ∧ ∀ i, i < 12 → d.flags.getD i 0 = 0))) ∧
  (∀ (s : State) (ctx : Nat) (b : Block), s.block? b.id = some b → b.ctx = ctx → b.place = 0 → (s.ctxSt ctx).stopped = true → BlocksDistinct s →
    s.blocks.filter (fun q => q.ctx == ctx && q.vcore == b.vcore && (q.place == 0 || q.place == 2)) = [b] →
    (∀ o ∈ s.ops, o.ctx = ctx → (fresh s).awaited o = false) → (fresh s).areaWaits ctx = false →
    Answers (exec (.contextImageComplete ctx b.vcore) s) (fun t => (∀ q ∈ t.blocks, q.id = b.id → q.place = 1) ∧
      ∃ x ∈ t.saved, x.blk = b.id ∧ x.bm = s.bmem.read (coreKey b.core b.bmOff) b.bmLen)) ∧
  ∀ (s : State) (ctx : Nat) (cores : List (Nat × Nat)) (quads : List Nat), (s.ctxSt ctx).stopped = true → s.mgmt.ps = 0#2 → BlocksDistinct s →
    (∀ b ∈ s.blocks, b.ctx = ctx → b.place ≠ 0 ∧ b.place ≠ 2) →
    let mine := s.blocks.filter (fun b => b.ctx == ctx && b.place == 1)
    let plan := restorePlan cores mine quads
    let susp := s.launches.filter (fun l => l.ctx == ctx && l.st == 6)
    let back := (fresh s).release.loadTasks ctx
    let u := back.setCtxSt { back.ctxSt ctx with stopped := false }
    ((∀ l ∈ susp, l.cls ≠ 0) →
      let v := susp.foldl (fun v l => v.readmit l false) u
      Answers (exec (.contextRestore ctx cores quads) s) (fun t => t = State.restoreSome plan v ∧ (t.ctxSt ctx).stopped = false ∧
        (∀ l ∈ t.launches, l.ctx = ctx → l.st ≠ 6) ∧
        ∀ m, State.restoreAll plan v = some m → t = m ∧
          ∀ b ∈ mine, ∀ p, cores.find? (fun p => p.1 == b.vcore) = some p → ∃ q ∈ t.blocks, q.id = b.id ∧ q.place = 0 ∧ q.core = p.2)) ∧
    ∀ l, susp = [l] → l.cls = 0 → (∀ b ∈ mine, b.launch = l.id) →
      (∀ m, u.restoreGang l plan = some m → exec (.contextRestore ctx cores quads) s = .next (m.readmit l true)) ∧
      (u.restoreGang l plan = none → (∀ p ∈ plan, (s.core p.2.1).lending = false) →
        exec (.contextRestore ctx cores quads) s = .next { u with inputs := s.inputs ++ [.contextRestore ctx cores quads] })

/-- R59, R269 to R271: the 64th cycle in which a Q crew could issue but for a pipe that a harvest instruction holds, and an owner's demand, start revocation; it parks the harvest blocks of the core; when the copy has ended
lending is off; parked state resumes on its own core, or is evicted to the image. -/
def HarvestMoves : Prop :=
  ∀ (s : State) (core : Nat), core < s.cores.length → BlocksDistinct s →
    let k := s.core core
    let u := fresh s
    let blocked := ∃ c ∈ s.crews, (∃ b ∈ s.onCore core, b.id = c.blk ∧ b.place = 0 ∧ b.cls = 1) ∧ ∃ p ∈ s.readySlots c, ∃ q ∈ slotPipes p,
      ∃ u, s.pipeHeld c.core c.quad q = some u ∧ u.harvest = true
    (k.lending = true → blocked → exec (.harvestInterference core) s = .next (s.modCore core (fun x =>
      { x with interf := k.interf + 1, revoke := if 63 ≤ k.interf ∧ k.revoke = 0 then 1 else k.revoke }))) ∧
    (k.lending = false ∨ ¬ blocked → exec (.harvestInterference core) s = .next s) ∧
    (k.lending = true → (k.revoke = 1 ∨ (k.revoke = 0 ∧ u.lentDemand core = true)) →
      (∀ o ∈ s.ops, ∀ b ∈ s.onCore core, b.harv = true → b.place = 0 → b.id = o.blk → o.cls < 2 → o.pause = [] → u.atUnit o 256 = true) →
      Answers (exec (.harvestRevocation core) s) (fun t => (t.core core).revoke = 2 ∧ (t.core core).lending = true ∧
        ∀ b ∈ t.blocks, b.core = core → b.harv = true → b.place ≠ 0)) ∧
    (k.lending = false ∨ (k.revoke = 0 ∧ u.lentDemand core = false) → exec (.harvestRevocation core) s = .next u) ∧
    (k.revoke = 2 → exec (.harvestParkComplete core) s = .next (s.modCore core (fun x =>
      { x with revoke := 0, lending := k.relend, relend := false, interf := 0 }))) ∧
    ∀ b l, s.block? b.id = some b → b.core = core → b.place = 2 → s.launch? b.launch = some l →
      (∀ off seats quads, (s.ctxSt b.ctx).stopped = false → l.st = 2 → u.vcoreOk b.ctx b.vcore core = true →
        u.opsFit b.id core = true →
        ({ u with blocks := s.blocks.map (fun (q : Block) => if q.id = b.id then { q with place := 1 } else q) }).room core l (some quads) = some (off, seats) →
        Answers (exec (.harvestResume b.id quads) s) (fun t => ∃ q ∈ t.blocks, q.id = b.id ∧ q.place = 0 ∧ q.core = core ∧ q.bmOff = off)) ∧
      (u.leavable b.id = true → u.areaWaits b.ctx = false → exec (.harvestEvict b.id) s = .next (((u.release.unpark b).modBlock b.id (fun q =>
        { q with evicted := true, evicting := false })).toImages [b.id])) ∧
      (u.leavable b.id = true → u.areaWaits b.ctx = true → exec (.harvestEvict b.id) s = .next u) ∧
      (u.leavable b.id = false → exec (.harvestEvict b.id) s = .next { u.modBlock b.id (fun q => { q with evicting := true }) with
        inputs := s.inputs ++ [.harvestEvict b.id] })

/-- R157, R218, R274 to R276: an expired barrier count makes the umpire post its record and terminate the context; an expired gate budget unwinds the
call with STATUS 2; a pause that has run out ends the demotion. A terminated context has no crew left and may be launched into no more. -/
def TimeEvents : Prop :=
  (∀ (s : State) (b : Block) (cl : Bool) (id : Nat), s.block? b.id = some b →
    let n := if cl then b.cump.getD id 0 else b.ump.getD id 0
    let limit := if cl then b.cbarLimit else b.umpt
    (b.place ≠ 0 ∨ limit = 0#32 ∨ n < limit.toNat * 1024 → exec (.umpireTimeout b.id cl id) s = .next s) ∧
    (cl = true → (s.groupLead b).id ≠ b.id → exec (.umpireTimeout b.id cl id) s = .next s) ∧
    (b.place = 0 → limit ≠ 0#32 → limit.toNat * 1024 ≤ n → (∀ h ∈ s.held, h.kind = 4 → h.ctx ≠ b.ctx) → (s.ctxSt b.ctx).dead = false →
      (cl = true → (s.groupLead b).id = b.id) →
      let body := if cl then
          umpireBody s b true id 0 0 (b.gsize * b.ncrews) (b.cbarP.getLsbD id) (fun c => (c.carrive.getD id 0#64) ≠ 0#64) (fun c => c.cin.getLsbD id)
            (fun c => c.narrOf (16 + id))
        else
          umpireBody s b false id 0 0 ((b.barCnt.getD id none).getD 0) (b.barP.getLsbD id) (fun c => c.armed.getLsbD id)
            (fun c => (b.barIn.getD id []).contains c.id) (fun c => c.narrOf id)
      let h := s.mkRecord none b.ctx 4 b.ctx (dieOfCore b.core * 64 + b.core / 4 % 10 * 4 + b.core % 4) (s.ctxDesc b.ctx).asid 0 body none (some (b.ctx, 0))
      (∀ m q, s.postRecord h = (m, some q) → exec (.umpireTimeout b.id cl id) s = .next (m.terminate b.ctx)) ∧
      (∀ m, s.postRecord h = (m, none) → exec (.umpireTimeout b.id cl id) s = .next m))) ∧
  (∀ (s : State) (ctx : Nat), let t := s.terminate ctx
    (∀ c ∈ t.crews, c.ctx ≠ ctx) ∧ (t.ctxSt ctx).dead = true ∧ (∀ b ∈ t.blocks, b.ctx = ctx → b.place = 3) ∧ ∀ b ∈ s.blocks, b.ctx ≠ ctx → b ∈ t.blocks) ∧
  (∀ (s : State) (id level : Nat) (c : Crew), s.crew? id = some c → 1 ≤ level → level ≤ c.gates.length → c.unwinding = none →
    (levelBudget c level ≠ some 0 → exec (.gateBudgetExpire id level) s = .next s) ∧
    (levelBudget c level = some 0 → Answers (exec (.gateBudgetExpire id level) s) (fun t =>
      ∃ d ∈ t.crews, d.id = id ∧ d.stall = none ∧ d.unwinding = some (level, 2, 0)))) ∧
  ∀ (s : State) (id : Nat), exec (.pauseExpire id) s = .next { s with
    crews := s.crews.map (fun c => if c.id == id then { c with demotedFrom := if c.demote = 0 then none else c.demotedFrom } else c) }

/-! ## Packets -/

/-- Every field of a header fits its place in the eight words of R283. -/
def Fits (h : Hd) : Prop :=
  h.dst < 256 ∧ h.src < 256 ∧ h.kind < 16 ∧ h.hops < 4 ∧ h.ch < 4 ∧ h.ndata < 16 ∧ h.stat < 16 ∧ h.seq < 65536 ∧ h.group < 256 ∧ h.ctx < 65536 ∧
    h.tag < 65536 ∧ h.off < 2 ^ 32 ∧ h.rop < 16 ∧ h.aop < 16 ∧ h.ctr < 64 ∧ h.rhnd < 2048 ∧ h.nent = h.ents.length ∧ h.ents.length ≤ 6 ∧
    ∀ e ∈ h.ents, e < 65536

/-- R283: a header's words give its fields back. -/
def HeaderWords : Prop := ∀ (p : Packet) (h : Hd), Fits h → (p.withHd h).hd = h

/-- Packet q, the i-th delivered, is the next of its port and channel, its source is admitted and its SEQ is current (R286, R290, R437); m is the state
without it. -/
structure Lands (s : State) (i kind : Nat) (q : PortPkt) (m : State) : Prop where
  here : s.landing[i]? = some q
  kind : q.pkt.hd.kind = kind
  first : ∀ x ∈ s.landing.take i, x.port = q.port → x.pkt.hd.ch ≠ q.pkt.hd.ch
  taken : m = State.useContext { fresh s with landing := s.landing.eraseIdx i } q.pkt.hd.ctx
  member : m.admitted q.pkt.hd.ctx q.pkt.hd.src = true
  current : q.pkt.hd.group = 0 ∨ m.grpFor q.pkt.hd.group q.pkt.hd.ctx = false ∨ (q.pkt.hd.seq + 65536 - (m.grp q.pkt.hd.group).seq) % 65536 = 0

/-- R278, R281, R284, R286: a router pops one entry of the next packet of a port, channel and hop class: it hands it to this package, queues it for the port
toward the next row or column with one more hop, or drops it as malformed, counted and logged, a request answered with CMD. A packet whose next port is on
another die crosses the bridge when its flits have room there; else it stays. -/
def ForwardEvent : Prop :=
  ∀ (s : State) (i : Nat) (q : PortPkt) (e : Nat) (es : List Nat), s.inq[i]? = some q → q.pkt.hd.ents = e :: es →
    let h := q.pkt.hd
    let m := { fresh s with inq := s.inq.eraseIdx i }
    let on := { h with ents := es, nent := h.nent - 1 }
    let next := if e / 8192 = 0 then s.own / 16 * 16 + bitsOf e 11 8 else bitsOf e 11 8 * 16 + s.own % 16
    ((∃ x ∈ s.inq.take i, x.port = q.port ∧ x.pkt.hd.ch = h.ch ∧ x.pkt.hd.hops = h.hops) → exec (.packetForward i) s = .next (fresh s)) ∧
    ((∀ x ∈ s.inq.take i, ¬(x.port = q.port ∧ x.pkt.hd.ch = h.ch ∧ x.pkt.hd.hops = h.hops)) →
      (h.nent ≠ 7 → h.ndata ≤ 8 → h.kind ≠ 15 →
        (e / 8192 = 2 → h.dst = s.own →
          exec (.packetForward i) s = .next { m with landing := s.landing ++ [{ port := q.port, pkt := q.pkt.withHd on, around := none }] }) ∧
        (e / 8192 ≤ 1 → h.hops < 3 → (s.port (s.portTo next)).st = 2 → (s.port (s.portTo next)).txst ≠ 3 →
          let out := s.portTo next
          let go := fun k : Nat => { m with outq := s.outq ++ [{
            port := out, pkt := q.pkt.withHd { on with hops := h.hops + 1 }, around := if bitOf e 12 then some 99 else none, buf := some k }] }
          (q.port / 8 = out / 8 → exec (.packetForward i) s = .next (go q.port)) ∧
          (q.port / 8 ≠ out / 8 → s.bridged (q.port / 8) (out / 8) h.ch (h.hops + 1) + 1 + h.ndata ≤ 16 → exec (.packetForward i) s = .next (go (32 + q.port / 8))) ∧
          (q.port / 8 ≠ out / 8 → 16 < s.bridged (q.port / 8) (out / 8) h.ch (h.hops + 1) + 1 + h.ndata →
            exec (.packetForward i) s = .next (fresh s)))) ∧
      (h.nent = 7 ∨ 8 < h.ndata ∨ h.kind = 15 ∨ (e / 8192 ≤ 1 ∧ h.hops = 3) ∨ (e / 8192 = 2 ∧ h.dst ≠ s.own) ∨ 5 ≤ e / 8192 →
        exec (.packetForward i) s = .next (if h.ch = 0 then (m.countDrop q.port).answer h 12 [] [] else m.countDrop q.port)))

/-- R284: an answer to a request of this package itself reaches it with the kind that answers, the status, the tag and the data. -/
def AnswerLands : Prop :=
  ∀ (s : State) (h : Hd) (st : Nat) (data : List Byte) (bad : List Nat), Fits h → h.src = s.own → st < 16 → data.length ≤ 256 →
    ∃ q, s.answer h st data bad = { s with landing := s.landing ++ [q] } ∧ q.port = 32 ∧ q.pkt.data = data ∧ q.pkt.bad = bad ∧
      q.pkt.hd.kind = ackKind h.kind ∧ q.pkt.hd.stat = st ∧ q.pkt.hd.tag = h.tag ∧ q.pkt.hd.ctx = h.ctx ∧ q.pkt.hd.off = h.off ∧
      q.pkt.hd.src = s.own ∧ q.pkt.hd.dst = s.own

/-- R185, R244, R268: a WRITE to the block memory of a resident block stores its bytes there, adds their number to the arrival counter it names, and is
answered OK; one that fails its checks, or that a harvest crew sent to block memory, stores nothing and is answered with the status. Elsewhere it is
answered when its bytes are written, the parts of sectors that it shares with its neighbours with the last of them (R230). -/
def WriteEvent : Prop :=
  ∀ (s : State) (i : Nat) (q : PortPkt) (m : State), Lands s i 0 q m →
    let p := q.pkt
    let h := p.hd
    let e := m.remoteEntry h.ctx p.ht h.rhnd
    let b := if e.space = 2 then m.landBlock h.ctx p.blockId else none
    let ok := (h.group = 0 ∨ m.grpFor h.group h.ctx = true) ∧ (p.harvest = false ∨ e.space ≠ 2) ∧ m.remoteCheck h.ctx b e true h.arr p.spanOff p.span = 0
    let m0 := if h.relh then m.release else m
    (h.group ≠ 0 → m.grpFor h.group h.ctx = false → exec (.write i) s = .next (m.answer h 1 [] [])) ∧
    (p.harvest = true → e.space = 2 → exec (.write i) s = .next (m.answer h 1 [] [])) ∧
    ((h.group = 0 ∨ m.grpFor h.group h.ctx = true) → (p.harvest = false ∨ e.space ≠ 2) → m.remoteCheck h.ctx b e true h.arr p.spanOff p.span ≠ 0 →
      exec (.write i) s = .next (m.answer h (m.remoteCheck h.ctx b e true h.arr p.spanOff p.span) [] [])) ∧
    (∀ k, ok → e.space = 2 → b = some k → s.bmem.wf = true → e.base = 0 → h.off % 32 = 0 → p.data.length % 32 = 0 → p.data.length ≤ 256 →
      Answers (exec (.write i) s) (fun t =>
      let at0 := coreKey k.core (k.bmOff + h.off)
      t.bmem.read at0 p.data.length = p.data ∧ (∀ a, a < at0 ∨ at0 + p.data.length ≤ a → t.bmem.get a = s.bmem.get a) ∧
      t.mem = m0.mem ∧ t.blocks = if h.arr then s.blocks.map (fun x => if x.id == k.id then { x with
        arr := x.arr.set h.ctr (BitVec.ofNat 32 (min 0xFFFFFFFF ((x.arr.getD h.ctr 0#32).toNat + p.data.length))) } else x) else s.blocks)) ∧
    let w := sectorPieces [h.src, h.tag] e.base p.spanOff (p.spanOff + p.span) h.off
      (if h.off = p.spanOff then m0.frags.filter (fun g => g.key ≠ [h.src, h.tag]) else m0.frags) p.bytes
    (∀ t, ok → e.space ≠ 2 → State.landPieces (landDie q.port) h.ctx none e w.2 { m0 with frags := w.1 } = .ok t → exec (.write i) s = .next (t.answer h 0 [] []))

/-- R185: a READREQ is answered with the bytes at its offset, or with the status of the check that fails. -/
def ReadEvent : Prop :=
  ∀ (s : State) (i : Nat) (q : PortPkt) (m : State), Lands s i 1 q m →
    let p := q.pkt
    let h := p.hd
    let e := m.remoteEntry h.ctx p.ht h.rhnd
    let b := if e.space = 2 then m.landBlock h.ctx p.blockId else none
    let st := m.remoteCheck h.ctx b e false false p.spanOff p.span
    (st ≠ 0 → exec (.readreq i) s = .next (m.answer h st [] [])) ∧
    (∀ k, st = 0 → e.space = 2 → b = some k → e.base = 0 → h.off % 32 = 0 → p.len % 32 = 0 → p.len ≤ 256 → h.off + p.len ≤ p.spanOff + p.span →
      (∀ f ∈ s.ahead, f.key ≠ [h.src, h.tag]) →
      exec (.readreq i) s = .next (m.answer h 0 (s.bmem.read (coreKey k.core (k.bmOff + h.off)) p.len) [])) ∧
    ∀ t bs, st = 0 → e.space ≠ 2 → m.landPiece (landDie q.port) none e h p = .ok (t, bs) →
      exec (.readreq i) s = .next (t.answer h 0 (bs.map (fun x => x.1)) (badFlits bs))

/-- R186: the operations of fatom by their number. -/
noncomputable def fatomRows : List (Nat × (Nat → Nat → Option Nat)) := [
  (0, fun m b => some ((m + b) % 2 ^ 32)), (1, fun m b => some (rneAdd .f32 m b)),
  (2, fun m b => some (if below32 m b then m % 2 ^ 32 else b % 2 ^ 32)), (3, fun m b => some (if below32 m b then b % 2 ^ 32 else m % 2 ^ 32)),
  (4, fun m b => some ((m % 2 ^ 32) ||| (b % 2 ^ 32))), (5, fun m b => some ((m % 2 ^ 32) ^^^ (b % 2 ^ 32))), (6, fun _ b => some (b % 2 ^ 32))]

/-- R186: an ATOMIC changes one word at its home and is answered OK; one that fails a check is answered with its status. -/
def AtomicEvent : Prop :=
  ∀ (s : State) (i : Nat) (q : PortPkt) (m : State), Lands s i 3 q m →
    let p := q.pkt
    let h := p.hd
    let e := m.remoteEntry h.ctx p.ht h.rhnd
    let b := if e.space = 2 then m.landBlock h.ctx p.blockId else none
    let die := (b.map (fun k => dieOfCore k.core)).getD (landDie q.port)
    let bound := (b.map (fun k => k.bmLen)).getD e.limit
    let allowed := e.valid = true ∧ e.space ∈ atomSpaces ∧ e.r = true ∧ e.w = true ∧ e.atom = true ∧ (p.harvest = false ∨ e.space ≠ 2)
    (¬ allowed → exec (.atomic i) s = .next (m.answer h 1 [] [])) ∧
    (allowed → e.space = 2 → b = none → exec (.atomic i) s = .next (m.answer h 7 [] [])) ∧
    (allowed → (e.space = 2 → b ≠ none) → bound < h.off + 4 → exec (.atomic i) s = .next (m.answer h 2 [] [])) ∧
    ∀ l, ∀ r ∈ fatomRows, allowed → (e.space = 2 → b ≠ none) → h.off + 4 ≤ bound → h.aop = r.1 → m.remotePlace h.ctx b e h.off true true = .ok l →
      m.locReady die l = .yes → m.locPoison die l.home 4 = false →
      exec (.atomic i) s = .next ((atomStep r.2 4 die l (leNat (p.data.take 4)) ((if h.relh then m.release else m).noteLand h.ctx e h.off)).1.answer h 0 [] [])

/-- R185, R186, R315, R326: a response finds the command of its TAG: an error ends it with that status, bytes asked for are staged, and with the last
acknowledgement of a command that has sent everything it retires; an accepted CHUNK is no longer owed. -/
def ResponseEvent : Prop :=
  ∀ (s : State) (i : Nat) (q : PortPkt) (m : State), Lands s i 2 q m →
    let p := q.pkt
    let h := p.hd
    (p.len = 10 → exec (.readrsp i) s = .next (m.chunkAccepted (p.blockId / 8) (p.blockId % 8) p.span (h.off % 2 ^ 20 / 256))) ∧
    (p.len = 11 → exec (.readrsp i) s = .next (m.startAnswer h.src h.tag h.stat)) ∧
    (p.len ≠ 10 → p.len ≠ 11 → m.fabOp h.tag = none → exec (.readrsp i) s = .next m) ∧
    ∀ o, p.len ≠ 10 → p.len ≠ 11 → m.fabOp h.tag = some o →
      (h.stat ≠ 0 → exec (.readrsp i) s = .next (m.failFab o h.stat)) ∧
      (h.stat = 0 → o.opc = 0x2C1 → p.bad = [] → exec (.readrsp i) s = .next (m.modOp o.id (fun x =>
        { x.noteAnswer h.src h.off false with left := x.left, stage := x.stage ++ [((h.off + 2 ^ 32 - o.arg 2) % 2 ^ 32, p.data)] }))) ∧
      (h.stat = 0 → o.opc ≠ 0x2C1 → exec (.readrsp i) s = .next (
        let t := m.modOp o.id (fun x => x.noteAnswer h.src h.off false)
        if o.left ≤ 1 ∧ o.phase = 9 then t.finishOp o.id 0 else t))

/-- R287: a marker is acknowledged when all its copies have arrived; the acknowledgement retires the fmark, and the next packet to its target releases. -/
def MarkerEvents : Prop :=
  (∀ (s : State) (i : Nat) (q : PortPkt) (m : State), Lands s i 4 q m →
    let h := q.pkt.hd
    let same := fun x : MarkCount => x.src == h.src && x.ctx == h.ctx && x.tag == h.tag
    let seen := ((s.marks.find? same).map (fun x => x.seen)).getD 0 + 1
    let rest := s.marks.filter (fun x => !same x)
    (seen < h.off → exec (.marker i) s = .next { m with marks := { src := h.src, ctx := h.ctx, tag := h.tag, seen := seen } :: rest }) ∧
    (h.off ≤ seen → exec (.marker i) s = .next ({ m with marks := rest }.answer h 0 [] []))) ∧
  ∀ (s : State) (i : Nat) (q : PortPkt) (m : State) (o : Op), Lands s i 5 q m → m.fabOp q.pkt.hd.tag = some o → o.opc = 0x2C3 →
    (q.pkt.hd.stat ≠ 0 → exec (.markack i) s = .next (m.failFab o q.pkt.hd.stat)) ∧
    (q.pkt.hd.stat = 0 → ∃ rs, (o.crew, o.target) ∈ rs ∧ (∀ r ∈ s.relh, r ∈ rs) ∧ exec (.markack i) s = .next ({ m with relh := rs }.finishOp o.id 0))

/-- R282, R290 to R292, R294: a member answers a PROBE with OK or ABSENT, and its answer is counted off; a partial of the current SEQ is combined with the
member's own bytes and goes on to the next rank, in a reduction buffer of the slice it came to, from the last one to the issuing package, which stages the
result; where the 16 buffers are taken it is refused. -/
def GroupEvents : Prop :=
  (∀ (s : State) (i : Nat) (q : PortPkt) (m : State), Lands s i 6 q m →
    let p := q.pkt
    let h := p.hd
    let e := m.remoteEntry h.ctx p.ht h.rhnd
    let b := if e.space = 2 then m.landBlock h.ctx p.blockId else none
    let ok := m.grpFor h.group h.ctx = true ∧ m.grpState h.group = 0 ∧ (m.grp h.group).seq = h.seq ∧
      m.remoteCheck h.ctx b e (h.rop == 15) h.arr h.off p.len = 0
    (ok → exec (.probe i) s = .next (m.answer h 0 [] [])) ∧ (¬ ok → exec (.probe i) s = .next (m.answer h 7 [] []))) ∧
  (∀ (s : State) (i : Nat) (q : PortPkt) (m : State) (o : Op), Lands s i 7 q m → m.fabOp q.pkt.hd.tag = some o → o.phase = 1 →
    exec (.probeack i) s = .next (m.modOp o.id (fun x => { x with
      probes := x.probes.filter (fun n => n ≠ q.pkt.hd.src),
      stat := if q.pkt.hd.stat = 7 then 7 else if x.stat = 0 then q.pkt.hd.stat else x.stat }))) ∧
  (∀ (s : State) (i : Nat) (q : PortPkt) (m v : State) (bs : List (Byte × Bool)), Lands s i 8 q m →
    let p := q.pkt
    let h := p.hd
    let e := m.remoteEntry h.ctx p.ht h.rhnd
    let b := if e.space = 2 then m.landBlock h.ctx p.blockId else none
    let die := (b.map (fun k => dieOfCore k.core)).getD (landDie q.port)
    let g := m.grp h.group
    let own := redWiden h.rop (bs.map (fun x => x.1))
    let sum := if p.data.isEmpty then own else redCombine h.rop p.data own
    let back : Hd := { Hd.mk0 v h.src 9 h.ctx h.tag with group := h.group, seq := h.seq, off := h.off }
    let rank := g.rankOf v.own
    let fwd : Hd := { h with dst := g.ranks.getD (rank + 1) 0, hops := 0, nent := 0, ents := [] }
    let slice := landDie q.port
    h.group ≠ 0 → g.ctx = h.ctx → g.seq = h.seq →
    (16 ≤ m.redUsed slice → exec (.reduce i) s = .next (m.redRefuse p)) ∧
    (m.redUsed slice < 16 → m.landPiece die b e h p = .ok (v, bs) → (∀ x ∈ bs, x.2 = false) →
    (∀ t, rank = g.nm1 → v.sendPkt back (Packet.mk0 back sum) = (t, true) → exec (.reduce i) s = .next t) ∧
    (∀ t, rank ≠ g.nm1 → v.sendVia fwd { p with data := sum } entRed = (t, true) → exec (.reduce i) s = .next (v.redHold t slice)) ∧
    (∀ t, rank ≠ g.nm1 → v.sendVia fwd { p with data := sum } entRed = (t, false) → exec (.reduce i) s = .next (t.startAbort h.group h.seq)))) ∧
  ∀ (s : State) (i : Nat) (q : PortPkt) (m : State) (o : Op), Lands s i 9 q m → m.fabOp q.pkt.hd.tag = some o → o.opc = 0x2C4 → o.phase = 2 →
    let h := q.pkt.hd
    let n := (h.off + 2 ^ 32 - o.arg 1) % 2 ^ 32
    (h.stat ≠ 0 → exec (.redrsp i) s = .next (m.failFab o h.stat)) ∧
    (h.stat = 0 → exec (.redrsp i) s = .next (m.modOp o.id (fun x => { x.noteAnswer h.src h.off true with
      stage := x.stage ++ [(if h.rop = 8 ∨ bitsOf (o.arg 4) 27 24 = 8 then 2 * n else n, q.pkt.data)] })))

/-- R282, R321 to R326, R437: a CHUNK of the current SEQ lands in the window of its tag, which counts 256 more bytes, and is accepted; without a window it is
refused with OK; the refused packet is sent again, and so is a refused REDUCE, once a reduction buffer is free; a REFUSE from a package that is not admitted
is dropped. A START acts for the member it reaches: it takes a slot, or stands behind those that the port holds already. -/
def ChunkEvents : Prop :=
  (∀ (s : State) (i : Nat) (q : PortPkt) (m : State), s.landing[i]? = some q → q.pkt.hd.kind = 10 →
    (∀ x ∈ s.landing.take i, x.port = q.port → x.pkt.hd.ch ≠ q.pkt.hd.ch) → m = { fresh s with landing := s.landing.eraseIdx i } →
    let h := q.pkt.hd
    let port := q.pkt.blockId % 32
    let mine := fun k => (m.coxSlot port k).st ≠ 0 ∧ (m.coxSlot port k).ctx = h.ctx ∧ (m.coxSlot port k).group = h.group ∧ (m.coxSlot port k).seq = h.seq ∧
      ∃ w ∈ (m.coxSlot port k).wins, w.tag = h.tag % 256
    m.admitted h.ctx h.src = true → m.grpFor h.group h.ctx = true → (h.seq + 65536 - (m.grp h.group).seq) % 65536 = 0 →
    ((∀ k, k < 8 → ¬ mine k) → exec (.chunk i) s = .next (m.chunkAnswer q.pkt 14 0)) ∧
    ∀ k t, k < 8 → mine k → (∀ j, j < k → ¬ mine j) →
      let w := (m.coxSlot port k).win (h.tag % 256)
      bitsOf h.off 28 24 = ((m.coxSlot port k).buf w.buf).lch → w.fva = none → m.coxLand port k q.pkt = .ok t →
      exec (.chunk i) s = .next (t.chunkAnswer q.pkt 2 0) ∧
      ∀ y ∈ (m.coxSlot port k).wins, y.tag = h.tag % 256 → port < m.coxes.length → k < (m.coxes.getD port CoxSt.reset).slots.length →
        ∃ z ∈ (t.coxSlot port k).wins, z.tag = y.tag ∧ z.landed = y.landed + 256) ∧
  (∀ (s : State) (i : Nat) (q : PortPkt) (m : State) (sd : CoxSend), s.landing[i]? = some q → q.pkt.hd.kind = 14 →
    (∀ x ∈ s.landing.take i, x.port = q.port → x.pkt.hd.ch ≠ q.pkt.hd.ch) → m = { fresh s with landing := s.landing.eraseIdx i } →
    let h := q.pkt.hd
    let port := q.pkt.blockId / 8
    let k := q.pkt.blockId % 8
    let n := h.off % 2 ^ 20 / 256
    (m.admitted h.ctx h.src = false → exec (.refuse i) s = .next m) ∧
    (m.admitted h.ctx h.src = true → q.pkt.was = 8 →
      exec (.refuse i) s = .next (if 16 ≤ m.redUsed (landDie q.port) then fresh s else m.redAgain q.pkt (landDie q.port))) ∧
    (m.admitted h.ctx h.src = true → q.pkt.was ≠ 8 → (m.coxSlot port k).send = some sd → sd.id = q.pkt.span → n ∈ sd.left →
    (h.stat = 0 → exec (.refuse i) s = .next (m.modSlot port k (fun x => { x with
      send := some { sd with again := sd.again ++ [n], since := some (sd.since.getD s.clock.toNat) } }))) ∧
    (h.stat = 9 → exec (.refuse i) s = .next (if (m.coxSlot port k).st = 2 then m.modSlot port k (fun x => { x with aborted := true }) else m.coxAborted port k)) ∧
    (h.stat = 3 → exec (.refuse i) s = .next (m.modSlot port k (fun x => { x with
      send := some { sd with again := sd.again ++ [n], refused := sd.measured s.clock.toNat, since := none } }))) ∧
    (h.stat = 12 → exec (.refuse i) s = .next (m.modSlot port k (fun x => { x with send := some { sd with fail := some (0x0F, 4, 0) } }))))) ∧
  ∀ (s : State) (i : Nat) (q : PortPkt) (m : State), Lands s i 11 q m → let h := q.pkt.hd
    exec (.start i) s = .next (m.startHere q.pkt) ∧
    (∀ port entry r, startPorts q.pkt = [(port, entry)] → m.grpFor h.group h.ctx = true → m.ctxHere h.ctx = true →
      m.startRegion port h.ctx (entry % 4096) = some r → (m.cox port).starts ≠ [] →
      exec (.start i) s = .next (({ m with owed := (h.src, h.tag, 1, 0) :: m.owed }).modCox port (fun (c : CoxSt) => { c with
        starts := c.starts ++ [({ pkt := q.pkt, entry := entry % 4096, since := s.clock.toNat } : HeldStart)] }))) ∧
    ∀ port entry r k, startPorts q.pkt = [(port, entry)] → m.grpFor h.group h.ctx = true → m.ctxHere h.ctx = true →
      m.startRegion port h.ctx (entry % 4096) = some r → (m.cox port).starts = [] → k < 8 → (m.coxSlot port k).st = 0 → (∀ j, j < k → (m.coxSlot port j).st ≠ 0) →
      port < m.coxes.length → k < (m.coxes.getD port CoxSt.reset).slots.length →
      Answers (exec (.start i) s) (fun t => let x := t.coxSlot port k
        x.st = 3 ∧ x.why = 5 ∧ x.pc = entry % 4096 ∧ x.ctx = h.ctx ∧ x.group = h.group ∧ x.seq = h.seq ∧ x.region = r ∧
        x.regs.getD 0 0#64 = BitVec.ofNat 64 ((m.grp h.group).rankOf m.own) ∧ x.regs.getD 9 0#64 = BitVec.ofNat 64 ((m.grp h.group).nm1 + 1) ∧
        x.regs.getD 10 0#64 = BitVec.ofNat 64 port ∧
        ∀ j, j < 8 → x.regs.getD (1 + j) 0#64 = BitVec.ofNat 64 (leNat ((q.pkt.data.drop (64 + 8 * j)).take 8)))

/-- R295, R296, R437: an ABORT is relayed to the members for whom this package stands in the detector's row or column, one of the current SEQ is applied, and
it is acknowledged in any case; the detector's abort ends with the last acknowledgement; either is dropped when its context has an MPC of which the sender is
no member; a command that still awaits responses for FABTO retires with LINKDOWN, one that awaits probes with ABSENT. -/
def AbortEvents : Prop :=
  (∀ (s : State) (i : Nat) (q : PortPkt) (m : State), s.landing[i]? = some q → q.pkt.hd.kind = 12 →
    (∀ x ∈ s.landing.take i, x.port = q.port → x.pkt.hd.ch ≠ q.pkt.hd.ch) → m = { fresh s with landing := s.landing.eraseIdx i } →
    let h := q.pkt.hd
    let ack := fun t : State => (let a : Hd := { Hd.mk0 t h.src 13 h.ctx h.tag with group := h.group, seq := h.seq }
      (t.sendPkt a (Packet.mk0 a [])).1)
    let m1 := ((m.grp h.group).relays h.src m.own).foldl (fun x n => (x.sendAbort h.src n h.group h.seq).1) m
    (m.admitted h.ctx h.src = false → exec (.abort i) s = .next m) ∧
    (m.admitted h.ctx h.src = true → ¬((m1.grp h.group).v = true ∧ (m1.grp h.group).seq = h.seq) → exec (.abort i) s = .next (ack m1)) ∧
    (m.admitted h.ctx h.src = true → (m1.grp h.group).v = true → (m1.grp h.group).seq = h.seq → h.group ≠ 0 → h.group < s.groups.length →
      exec (.abort i) s = .next (ack (m1.applyAbort h.group)) ∧ ((m1.applyAbort h.group).grp h.group).seq = (h.seq + 1) % 65536)) ∧
  (∀ (s : State) (i : Nat) (q : PortPkt) (m : State), s.landing[i]? = some q → q.pkt.hd.kind = 13 →
    (∀ x ∈ s.landing.take i, x.port = q.port → x.pkt.hd.ch ≠ q.pkt.hd.ch) → m = { fresh s with landing := s.landing.eraseIdx i } →
    let h := q.pkt.hd
    let mine := fun a : AbortWait => a.grp = h.group ∧ a.seq = h.seq
    (m.admitted h.ctx h.src = false → exec (.abortack i) s = .next m) ∧
    (m.admitted h.ctx h.src = true → Answers (exec (.abortack i) s) (fun t => t = { m with aborts := t.aborts } ∧
      (∀ a ∈ s.aborts, mine a → (∃ n ∈ a.waiting, n ≠ h.src) → { a with waiting := a.waiting.filter (fun n => n ≠ h.src) } ∈ t.aborts) ∧
      (∀ a ∈ t.aborts, mine a → h.src ∉ a.waiting ∧ a.waiting ≠ []) ∧ ∀ a ∈ s.aborts, ¬ mine a → a.waiting ≠ [] → a ∈ t.aborts))) ∧
  ∀ (s : State) (o : Op), s.op? o.id = some o → o.cls = 3 → o.done = false →
    let rest := s.aborts.filter (fun a => decide (s.clock.toNat < a.since + s.fabto.toNat))
    (s.clock.toNat < o.sentAt + s.fabto.toNat → exec (.fabricResponseTimeout o.id) s = .next { fresh s with aborts := rest }) ∧
    (o.awaits = false → exec (.fabricResponseTimeout o.id) s = .next { fresh s with aborts := rest }) ∧
    (o.probes ≠ [] → o.sentAt + s.fabto.toNat ≤ s.clock.toNat → (fresh s).heldPort o = none → o.phase = 1 → Answers (exec (.fabricResponseTimeout o.id) s)
      (fun t => t = { ((fresh s).modOp o.id (fun x => { x with stat := 7 })).finishOp o.id 7 with aborts := t.aborts })) ∧
    (o.waits ≠ [] → o.sentAt + s.fabto.toNat ≤ s.clock.toNat → (fresh s).heldPort o = none → o.phase ≠ 1 → o.opc ∈ [0x2C2, 0x2C3] →
      Answers (exec (.fabricResponseTimeout o.id) s) (fun t => t = { (fresh s).finishOp o.id 6 with aborts := t.aborts })) ∧
    (o.waits ≠ [] → o.sentAt + s.fabto.toNat ≤ s.clock.toNat → (fresh s).heldPort o = none → o.phase ≠ 1 →
      Answers (exec (.fabricResponseTimeout o.id) s) (fun t => t = { (fresh s).failFab o 6 with aborts := t.aborts }))

/-! ## Events of the coxes -/

/-- Slot k of the cox of a port exists. -/
def HasSlot (s : State) (port k : Nat) : Prop := port < s.coxes.length ∧ k < (s.coxes.getD port CoxSt.reset).slots.length

/-- R324, R326 to R328: a waiting context whose condition is met is READY; one that has run 65,536 instructions without a chunk boundary stops in FAULT with
FABRIC 5, one whose packets have been refused for FABTO runs into FABRIC 0, one held on a link key posts KEY once and its refusal time stands still; a held START takes a slot that has freed or is dropped ABSENT; a context is READY
when its descriptors have been loaded. -/
def CoxWaitEvents : Prop :=
  ∀ (s : State) (port k : Nat), HasSlot s port k →
    let u := fresh s
    let sl := s.coxSlot port k
    let ready := u.modSlot port k (fun x => { x with st := 1, why := 0 })
    ((s.cox port).cur = k →
      (sl.st = 2 → 65536 ≤ sl.spin → exec (.coxSpinFault port) s = .next (u.coxFault port k 0x0F 5 0 0)) ∧
      (sl.st ≠ 2 ∨ sl.spin < 65536 → exec (.coxSpinFault port) s = .next u)) ∧
    (sl.st ≠ 3 → exec (.coxWaitSatisfied port k) s = .next u) ∧
    (sl.st = 3 → sl.send = none → exec (.coxWaitSatisfied port k) s = .next (if coxMet u port k then ready else u)) ∧
    (sl.st = 3 → sl.why = 1 → ∀ sd, sl.send = some sd → sd.again = [] → u.coxKeyPort sd = none →
      exec (.coxWaitSatisfied port k) s = .next (if sd.left = [] ∨ sd.fail.isSome = true then ready else u)) ∧
    (sl.st = 3 → sl.why = 1 → ∀ sd q, sl.send = some sd → sd.again = [] → u.coxKeyPort sd = some q →
      exec (.coxWaitSatisfied port k) s = .next ((if sd.keyed = true then u else u.coxRecord port k 0x18 0 0 0).modSlot port k (fun x => { x with
        why := 4, send := some { sd with keyed := true, refused := sd.measured s.clock.toNat, since := none } }))) ∧
    (sl.why = 2 → let w := sl.win (FormCC.ofWord ((s.cox port).word sl.pc)).wtag.toNat
      w.fva = none → w.poison = false → (coxMet u port k = true ↔ 2 ^ (sl.buf w.buf).lch ≤ w.landed)) ∧
    (∀ sd, sl.send = some sd → sl.st = 3 → sd.fail = none → sd.left ≠ [] →
      (sd.measured s.clock.toNat < s.fabto.toNat → exec (.coxRefusalTimeout port k) s = .next u) ∧
      (sl.why = 4 → exec (.coxRefusalTimeout port k) s = .next u) ∧
      (sl.why ≠ 4 → s.fabto.toNat ≤ sd.measured s.clock.toNat → exec (.coxRefusalTimeout port k) s =
        .next (u.modSlot port k (fun x => { x with send := some { sd with fail := some (0x0F, 0, 0) }, st := 1, why := 0 })))) ∧
    (∀ x rest, (s.cox port).starts = x :: rest →
      let m := u.modCox port (fun c => { c with starts := rest })
      (k < 8 → sl.st = 0 → (∀ j, j < k → (s.coxSlot port j).st ≠ 0) → ∀ r, m.startRegion port x.pkt.hd.ctx x.entry = some r →
        exec (.coxStartSlotFree port) s = .next (m.startTake port k x.entry r x.pkt)) ∧
      ((∀ j, j < 8 → (s.coxSlot port j).st ≠ 0) → exec (.coxStartSlotFree port) s = .next u) ∧
      (s.clock.toNat < x.since + s.fabto.toNat → exec (.coxStartHoldTimeout port) s = .next u) ∧
      (x.since + s.fabto.toNat ≤ s.clock.toNat → exec (.coxStartHoldTimeout port) s = .next (m.startDecide x.pkt.hd.src x.pkt.hd.tag x.pkt.hd.ctx 7))) ∧
    (sl.st = 3 → sl.why = 5 → ∀ bs, u.readVa sl.asid (port / 8) { r := true, w := false, x := false, space := 0 } 2 sl.dtva 256 = .ok bs →
      exec (.coxDescriptorLoadComplete port k) s = .next ((u.modSlot port k (fun x => { x with
        st := 1, why := 0, bufs := (List.range 16).map (fun i => loadBuf ((bs.drop (16 * i)).take 16) (sl.ht == 0#64)) })).startDecide
          sl.startSrc sl.startTag sl.ctx 0)) ∧
    (sl.st = 3 → sl.why = 5 → ∀ f, u.readVa sl.asid (port / 8) { r := true, w := false, x := false, space := 0 } 2 sl.dtva 256 = .xlate f →
      exec (.coxDescriptorLoadComplete port k) s = .next (((u.notePteBad f.bad).coxFree port k).startDecide sl.startSrc sl.startTag sl.ctx 3))

/-- R301, R302, R305, R331, R332, R418: what the driver's writes do to a cox while the host link is open: the words of instruction memory outside valid
regions, regions in which nothing runs, registers and PC of a slot in FAULT; RESUME and STEP make such a slot READY; KILL frees a slot that is not running and
marks one that is; GO sends a START from a start slot of the group's root, and the slot is closed after FABTO. With the link shut they do nothing. -/
def CoxWriteEvents : Prop :=
  ∀ (s : State) (port k : Nat), HasSlot s port k → port < 32 → k < 8 →
    let u := fresh s
    let sl := s.coxSlot port k
    (s.hostOpen = false → ∀ w v i, ∀ e ∈ ([.coxInstructionMemoryWrite port w v, .coxRegionWrite port i v, .coxSlotStateWrite port k w v, .ctlResume port k,
      .ctlStep port k, .ctlKill port k, .startGo i w] : List Instr), exec e s = .next u) ∧
    (s.hostOpen = true →
      (∀ w v, w < 4096 → (∀ i, i < 8 → regionHas ((s.cox port).reg i) w = false) → (s.cox port).imem.Pairwise (fun p q => p.1 < q.1) →
        Answers (exec (.coxInstructionMemoryWrite port w v) s) (fun t => t = { u with coxes := t.coxes } ∧ (t.cox port).word w = v ∧
          (∀ a, a ≠ w → (t.cox port).word a = (s.cox port).word a) ∧ (t.cox port).slots = (s.cox port).slots)) ∧
      (∀ w v, (∃ i, i < 8 ∧ regionHas ((s.cox port).reg i) w = true) → exec (.coxInstructionMemoryWrite port w v) s = .next u) ∧
      (∀ i v, i < 8 → (∃ d, u.sealedBy (bitsOf ((s.cox port).reg i) 47 32) = some d ∨ (bitOf v.toNat 63 = true ∧ u.sealedBy (bitsOf v.toNat 47 32) = some d)) →
        exec (.coxRegionWrite port i v) s = .next u) ∧
      (∀ i v, i < 8 → u.sealedBy (bitsOf ((s.cox port).reg i) 47 32) = none → (bitOf v.toNat 63 = true → u.sealedBy (bitsOf v.toNat 47 32) = none) →
        ((∃ x ∈ (s.cox port).slots, x.st ≠ 0 ∧ x.region = i) → exec (.coxRegionWrite port i v) s = .next u) ∧
        ((∀ x ∈ (s.cox port).slots, x.st = 0 ∨ x.region ≠ i) →
          exec (.coxRegionWrite port i v) s = .next (u.modCox port (fun c => { c with regions := c.regions.set i (v &&& 0x8000FFFF0FFF0FFF#64) })))) ∧
      (sl.st ≠ 4 → (∀ r v, exec (.coxSlotStateWrite port k r v) s = .next u) ∧ exec (.ctlResume port k) s = .next u ∧ exec (.ctlStep port k) s = .next u) ∧
      (sl.st = 4 →
        (∀ r v, r < 16 → exec (.coxSlotStateWrite port k r v) s = .next (u.modSlot port k (fun x => { x with regs := x.regs.set r v }))) ∧
        (∀ v, exec (.coxSlotStateWrite port k 16 v) s = .next (u.modSlot port k (fun x => { x with pc := v.toNat % 4096 }))) ∧
        ((∀ h ∈ (s.cox port).holds, h.slot ≠ k) →
          exec (.ctlResume port k) s = .next (u.modSlot port k (fun x => { x with st := 1, step := false, spin := 0 })) ∧
          exec (.ctlStep port k) s = .next (u.modSlot port k (fun x => { x with st := 1, step := true, spin := 0 })))) ∧
      (sl.st = 0 → exec (.ctlKill port k) s = .next u) ∧
      (sl.st = 2 → exec (.ctlKill port k) s = .next (u.modSlot port k (fun x => { x with killed := true }))) ∧
      (sl.st ≠ 0 → sl.st ≠ 2 → Answers (exec (.ctlKill port k) s) (fun t => t.coxSlot port k = CoxSlot.free ∧ t.mem = s.mem ∧ t.crews = s.crews)) ∧
      (∀ i group, i < 8 → i < s.startSlots.length → (s.startSlots.getD i StartSlot.reset).busy = false →
        let g := s.grp group
        let x := s.startSlots.getD i StartSlot.reset
        (g.v = false ∨ g.root ≠ s.own → exec (.startGo i group) s = .next (u.modStart i (fun y => { y with group := group, stat := 1 }))) ∧
        (g.v = true → g.root = s.own → s.mgmt.stage ≠ 2 →
          let h : Hd := { Hd.mk0 u s.own 11 g.ctx (s.order % 65536) with group := group, seq := g.seq, nent := 1, ents := [entFan] }
          exec (.startGo i group) s = .next (({ u with order := s.order + 1 }.modStart i (fun y =>
            { y with group := group, busy := true, stat := 0, seq := g.seq, tag := s.order % 65536, waiting := g.members, since := s.clock.toNat })).route 32
              (Packet.mk0 h x.data))))) ∧
    ∀ i, let x := s.startSlots.getD i StartSlot.reset
      (x.busy = false ∨ s.clock.toNat < x.since + s.fabto.toNat → exec (.startWindowTimeout i) s = .next u) ∧
      (x.busy = true → x.since + s.fabto.toNat ≤ s.clock.toNat →
        exec (.startWindowTimeout i) s = .next (u.modStart i (fun y => { y with busy := false, waiting := [], stat := if y.stat = 0 then 7 else y.stat })))

/-! ## Ports -/

/-- R295, R443, R444: training, failure and retraining of a port, and a neighbour's announcement. -/
def PortStateEvents : Prop :=
  ∀ (s : State) (p : Nat), p < 32 → p < s.ports.length →
    let u := fresh s
    let x := s.port p
    (x.st ≠ 2 → ∀ back, exec (.portDown p back) s = .next u) ∧
    (x.st = 2 → (∀ q ∈ s.outq, q.port ≠ p) → (∀ q ∈ s.wire, q.port ≠ p) → ∀ back, Answers (exec (.portDown p back) s) (fun t =>
      t.ports = s.ports.set p { x with st := 3, downAt := s.cycle, downs := x.downs + 1#32, tries := 0 } ∧ t.outq = s.outq ∧ t.wire = s.wire ∧
      t.ras.prod = s.ras.prod + 1#32)) ∧
    (x.st ≠ 1 → ∀ ok peer, exec (.portTraining p ok peer) s = .next u) ∧
    (x.st = 1 → x.txst = 0 →
      (∀ peer, exec (.portTraining p false peer) s = .next (u.modPort p (fun y => { y with st := 3, att := min 31 (y.att + 1), downAt := s.cycle }))) ∧
      (∀ peer, peer < 256 → s.expected p = some peer → exec (.portTraining p true peer) s = .next (u.modPort p (fun y => { y with peer := peer, exch := 1 }))) ∧
      (∀ peer, peer < 256 → s.expected p ≠ some peer → Answers (exec (.portTraining p true peer) s) (fun t =>
        t.ports = s.ports.set p { x with st := 5, peer := peer } ∧ t.ras.prod = s.ras.prod + 1#32))) ∧
    (x.st = 1 → x.txst ≠ 0 → (∀ q ∈ s.outq, q.around = none) → ∀ ok peer, Answers (exec (.portTraining p ok peer) s) (fun t =>
      t.ports = s.ports.set p { x with st := 2, att := 0, tries := 0 } ∧ t.ras.prod = s.ras.prod + 1#32)) ∧
    (x.st ≠ 3 ∨ 16 ≤ x.tries ∨ s.cycle < x.downAt + 2 ^ 24 → exec (.portAutoRetrain p) s = .next u) ∧
    (x.st = 3 → x.tries < 16 → x.downAt + 2 ^ 24 ≤ s.cycle → s.fabEn = true → s.expected p ≠ none → x.admdn = false →
      exec (.portAutoRetrain p) s = .next ((u.repay p).modPort p (fun y => { y with
        st := 1, txst := 0, rxst := 0, txsel := false, rxsel := false, txkey := none, rxkey := none, rxnext := none, rxcnt := 0#64, fails := 0, exch := 0,
        tries := y.tries + 1, credit := List.replicate 12 16 }))) ∧
    ∀ k i up, k < 32 → i < 16 →
      let peer := if k < 16 then s.own / 16 * 16 + k else (k - 16) * 16 + s.own % 16
      (s.inGrid peer = false ∨ peer = s.own → exec (.linkStateAnnouncement k i up) s = .next u) ∧
      (s.inGrid peer = true → peer ≠ s.own → k < s.lstate.length → Answers (exec (.linkStateAnnouncement k i up) s) (fun t => t = { u with lstate := t.lstate } ∧
        (∀ j, j < 32 → (t.lstate.getD k 0#32).getLsbD j = if j = i then up else (s.lstate.getD k 0#32).getLsbD j) ∧
        ∀ j, j ≠ k → t.lstate.getD j 0#32 = s.lstate.getD j 0#32))

/-- R280, R281, R286, R433 to R435: a key exchange that verifies gives both directions a new key and starts the counter again, and what the key held goes
on; a frame carries the next packet of its channel and hop class against a credit for each flit, and advances the counter by its flits; within 2^32 of the
end the direction is WARN and a rekey begins; at the end it is HELD, and a packet that would pass it is not sent; nothing is sent while a revocation rekeys the
link (R439). A frame received with a good tag returns credits, retires the old key if it comes under the new one, counts its flits and puts its packet into
the receive buffer, of which the sender held credits; the 64th consecutive one with a bad tag takes the port down. -/
def FrameEvents : Prop :=
  ∀ (s : State) (p : Nat), p < 32 → p < s.ports.length →
    let u := fresh s
    let x := s.port p
    (x.exch = 0 → x.txst = 0 → ∀ ok, exec (.keyExchangeMessage p ok) s = .next u) ∧ exec (.keyExchangeMessage p false) s = .next u ∧
    (¬(x.exch = 0 ∧ x.txst = 0) → x.st = 2 → Answers (exec (.keyExchangeMessage p true) s) (fun t =>
      (∀ o ∈ s.ops, u.heldPort o = some p → o.restart s.clock.toNat ∈ t.ops) ∧
      ∀ c ∈ s.crews, ∀ y, c.stall = some y → y.key = some p → { resumeCrew c false with stall := none } ∈ t.crews)) ∧
    (¬(x.exch = 0 ∧ x.txst = 0) → x.st = 2 → (∀ c ∈ s.crews, ∀ y, c.stall = some y → y.key ≠ some p) → (∀ o ∈ s.ops, u.heldPort o ≠ some p) → exec (.keyExchangeMessage p true) s =
      .next (u.modPort p (fun y => { y with
        exch := 0, txst := 1, rxst := 1, txcnt := 0#64, nkey := (y.nkey + 1) % 65536, txsel := if x.txst = 0 then false else !y.txsel,
        txkey := some (Config.linkKey p (x.nkey + 1) true), rxkey := if x.txst = 0 then some (Config.linkKey p (x.nkey + 1) false) else y.rxkey,
        rxnext := if x.txst = 0 then none else some (Config.linkKey p (x.nkey + 1) false), rxcnt := if x.txst = 0 then 0#64 else y.rxcnt }))) ∧
    (x.exch ≠ 0 → x.st = 1 → (∀ q ∈ s.outq, q.around = none) → Answers (exec (.keyExchangeMessage p true) s) (fun t =>
      (t.port p).st = 2 ∧ (t.port p).txst = 1 ∧ (t.port p).rxst = 1 ∧ (t.port p).exch = 0 ∧ (t.port p).txcnt = 0#64)) ∧
    (x.st = 2 → x.exch = 2 → ∀ ch hops, exec (.frameSend p ch hops) s = .next u) ∧
    (x.st = 2 → x.txst ≠ 0 → x.txst ≠ 3 → x.exch ≠ 2 → s.mgmt.ps = 0#2 → (∀ q ∈ s.outq, q.port ≠ p) → ∀ ch hops,
      exec (.frameSend p ch hops) s = .next (u.repay p)) ∧
    (x.st = 2 → x.txst ≠ 0 → x.txst ≠ 3 → x.exch ≠ 2 → s.mgmt.ps = 0#2 → ∀ pre q post, s.outq = pre ++ q :: post → q.port = p →
      let h := q.pkt.hd
      let n := 1 + h.ndata
      let cr := x.credit.getD (4 * h.ch + h.hops) 0
      u.opSaved q.pkt = false → (∀ y ∈ pre, ¬(y.port = p ∧ y.pkt.hd.ch = h.ch ∧ y.pkt.hd.hops = h.hops)) →
      let gone := fun (t1 e1 : Nat) => { u.modPort p (fun y => { y with
        txcnt := BitVec.ofNat 64 (x.txcnt.toNat + n), credit := y.credit.set (4 * h.ch + h.hops) (cr - n), sent := y.sent + BitVec.ofNat 64 n, txst := t1, exch := e1 }) with
          outq := pre ++ post, wire := s.wire ++ [{ q with buf := none }] }
      (cr < n → exec (.frameSend p h.ch h.hops) s = .next u) ∧
      (n ≤ cr → x.txst ≠ 1 ∨ x.txcnt.toNat + n < 2 ^ 64 - 1 - 2 ^ 32 → x.txcnt.toNat + n < 2 ^ 64 - 1 →
        exec (.frameSend p h.ch h.hops) s = .next ((gone x.txst x.exch).repay p)) ∧
      (n ≤ cr → x.txst = 1 → 2 ^ 64 - 1 - 2 ^ 32 ≤ x.txcnt.toNat + n → x.txcnt.toNat + n < 2 ^ 64 - 1 →
        exec (.frameSend p h.ch h.hops) s = .next (((gone 2 (max 1 x.exch)).postMsix 3).repay p)) ∧
      (n ≤ cr → x.txst = 2 → x.txcnt.toNat + n = 2 ^ 64 - 1 → exec (.frameSend p h.ch h.hops) s = .next (((gone 2 x.exch).repay p).portHeld p)) ∧
      (n ≤ cr → 2 ^ 64 ≤ x.txcnt.toNat + n → exec (.frameSend p h.ch h.hops) s = .next (u.portHeld p))) ∧
    (x.st = 2 → x.rxst ≠ 0 → ∀ hdr data bad side, hdr.length = 8 →
      let lost := u.modPort p (fun y => { y with tagFail := y.tagFail + 1#32, retries := y.retries + 1#32, fails := y.fails + 1 })
      (∀ ok sel, ok = false ∨ (sel ≠ x.rxsel ∧ x.rxnext = none) → ∀ hd, hd = hdr ∨ hd = [] →
        (x.fails < 63 → exec (.frameReceive p ok sel hd data bad side) s = .next lost) ∧
        (63 ≤ x.fails → ∃ back, back ≤ s.wire.length ∧
          exec (.frameReceive p ok sel hd data bad side) s = .next ((lost.portLeaves p back 3).modPort p (fun y => { y with tries := 0, fails := 0 })))) ∧
      ∀ sel, sel = x.rxsel ∨ x.rxnext ≠ none →
      let good := u.modPort p (fun y => let z : Port := { y.credited (side.drop 7) with fails := 0 }
        if sel = x.rxsel then z else { z with rxsel := sel, rxkey := y.rxnext, rxnext := none, rxcnt := 0#64, rxst := 1 })
      exec (.frameReceive p true sel [] data bad side) s = .next good ∧
      let pkt : Packet := {
        hdr := hdr, data := data, bad := bad, blockId := side.getD 0 0, ht := BitVec.ofNat 64 (side.getD 1 0), len := side.getD 2 0,
        spanOff := side.getD 3 0, span := side.getD 4 0, was := side.getD 5 10, harvest := side.getD 6 0 == 1 }
      let n := 1 + pkt.hd.ndata
      let k := 4 * pkt.hd.ch + pkt.hd.hops
      let c := (good.port p).rxcnt.toNat + n
      (x.lent.getD k 0 < n ∨ 2 ^ 64 ≤ c → exec (.frameReceive p true sel hdr data bad side) s = .next good) ∧
      (n ≤ x.lent.getD k 0 → c < 2 ^ 64 → exec (.frameReceive p true sel hdr data bad side) s = .next { good.modPort p (fun y => { y with
          rcvd := y.rcvd + BitVec.ofNat 64 n, rxcnt := BitVec.ofNat 64 c, lent := y.lent.set k (x.lent.getD k 0 - n),
          rxst := if y.rxnext.isSome then y.rxst else if c = 2 ^ 64 - 1 then 3 else if 2 ^ 64 - 1 - 2 ^ 32 ≤ c then 2 else 1,
          exch := if y.rxnext = none ∧ 2 ^ 64 - 1 - 2 ^ 32 ≤ c then max 1 y.exch else y.exch }) with
            inq := s.inq ++ [{ port := p, around := none, pkt := pkt }] }))

/-- R440, R442: FABCFG is taken once, where its reserved bits are zero and its address lies in the grid; ADMDN takes a port out of service and back; RETRAIN
starts training; a spare takes over a logical port, whose own port is then held, and gives it back. -/
def PortConfigEvents : Prop :=
  ∀ (s : State), s.ports.length = 32 → s.outq = [] → s.wire = [] →
    let u := fresh s
    (s.hostOpen = false → ∀ v p b l, ∀ e ∈ ([.fabcfg v, .portctlAdmdn p b, .portctlRetrain p, .portctlMapv p b l] : List Instr), exec e s = .next u) ∧
    (s.hostOpen = true →
      (∀ v : BitVec 32,
        (s.fabEn = true ∨ bitsOf v.toNat 15 1 ≠ 0 ∨ bitsOf v.toNat 23 20 < bitsOf v.toNat 31 24 / 16 ∨ bitsOf v.toNat 19 16 < bitsOf v.toNat 31 24 % 16 →
          exec (.fabcfg v) s = .next u) ∧
        (s.fabEn = false → bitsOf v.toNat 15 1 = 0 → bitsOf v.toNat 31 24 / 16 ≤ bitsOf v.toNat 23 20 → bitsOf v.toNat 31 24 % 16 ≤ bitsOf v.toNat 19 16 →
          Answers (exec (.fabcfg v) s) (fun t => t = { u with fabcfg := v, ports := t.ports } ∧ t.ports.length = 32 ∧
            ∀ p, p < 32 → (t.port p).st = if bitOf v.toNat 0 = true ∧ ({ u with fabcfg := v }).expected p ≠ none ∧ (s.port p).admdn = false then 1 else (s.port p).st))) ∧
      (∀ p, p < 32 →
        exec (.portctlAdmdn p (s.port p).admdn) s = .next u ∧
        ((s.port p).admdn = false → Answers (exec (.portctlAdmdn p true) s) (fun t =>
          (t.port p).st = 4 ∧ (t.port p).admdn = true ∧ (t.port p).txst = 0 ∧ ∀ j, j ≠ p → t.port j = s.port j)) ∧
        ((s.port p).admdn = true → Answers (exec (.portctlAdmdn p false) s) (fun t => (t.port p).admdn = false ∧
          (t.port p).st = (if s.fabEn = true ∧ s.expected p ≠ none then 1 else if p < 30 ∧ s.serves? p = none then 4 else 0) ∧
          ∀ j, j ≠ p → t.port j = s.port j)) ∧
        ((s.port p).st = 4 → exec (.portctlRetrain p) s = .next u) ∧
        ((s.port p).st ≠ 4 → Answers (exec (.portctlRetrain p) s) (fun t =>
          (t.port p).st = (if s.fabEn = true ∧ s.expected p ≠ none ∧ (s.port p).admdn = false then 1 else 0) ∧ ∀ j, j ≠ p → t.port j = s.port j))) ∧
      (∀ p l, 30 ≤ p → p < 32 → (s.port p).mapv = true → (s.port p).lport < 30 → (s.port (61 - p)).mapv = false →
        let q := (s.port p).lport
        Answers (exec (.portctlMapv p false l) s) (fun t => (t.port p).mapv = false ∧ (t.port p).st = (if (s.port p).admdn = true then 4 else 0) ∧
          (t.port q).st = (if (s.port q).admdn = true then 4 else if s.fabEn = true ∧ s.peerOf q ≠ none then 1 else 0) ∧
          ∀ j, j ≠ p → j ≠ q → t.port j = s.port j)) ∧
      ∀ p l, 30 ≤ p → p < 32 → l < 30 → (s.port p).mapv = false → (s.port (61 - p)).mapv = false →
        Answers (exec (.portctlMapv p true l) s) (fun t => (t.port p).mapv = true ∧ (t.port p).lport = l ∧ (t.port l).st = 4 ∧ t.serves? p = some l ∧
          t.serves? l = none ∧ ∀ j, j ≠ p → j ≠ l → t.port j = s.port j))

/-! ## The security processor -/

/-- The command block at `pa` is at the mailbox, holds command `op` with payload `p`, and has no answer yet (R428). -/
structure Asked (s : State) (op pa : Nat) (p : List Byte) : Prop where
  busy : s.secp.busy = some pa
  waiting : s.secp.result = none
  place : (fresh s).paKind pa ≠ .none
  op : (fresh s).natPa pa 4 = op
  size : (fresh s).natPa (pa + 4) 4 ≤ 16384
  zero : (fresh s).natPa (pa + 12) 4 = 0
  payload : p = (fresh s).readPa (pa + 16) ((fresh s).natPa (pa + 4) 4)

/-- What a command leaves: state `m` of its meaning, its result over the payload where the status is 0 and there is one, and its status for the
completion (R428). -/
def replied (m : State) (pa st : Nat) (out : List Byte) : State :=
  let t := if st = 0 ∧ out ≠ [] then m.writePa (pa + 16) out else m
  { t with secp := { t.secp with result := some st } }

/-- R428: SECP writes the status, releases, clears BUSY and posts vector 4; a command that does not exist is BADOP; one that is still at work goes on. -/
def MailboxEvent : Prop :=
  ∀ (s : State) (pa : Nat), s.secp.busy = some pa → (fresh s).paKind pa ≠ .none →
    let u := fresh s
    let op := u.natPa pa 4
    let ends := fun st => (let m := (u.writePa (pa + 8) (leBytes 4 st)).release
      exec .secpCommandComplete s = .next ({ m with secp := { m.secp with busy := none, result := none, last := st } }.postMsix 4))
    ((op = 0 ∨ 12 < op) → ends 1) ∧
    (1 ≤ op → op ≤ 12 → s.secp.result = none → exec .secpCommandComplete s = .next u) ∧
    ∀ st, 1 ≤ op → op ≤ 12 → s.secp.result = some st → ends st

/-- R427, R432: GETID gives the public key, the IDD and the certificate; ATTEST gives a report of 344 bytes and its signature by the identity key. -/
def IdentityCommands : Prop :=
  ∀ (s : State) (pa : Nat) (p : List Byte), let u := fresh s
    (Asked s 1 pa p → exec .getid s = .next (replied u pa 0 ((identityKey ++ idd ++ Config.identity 2 0).take 16384))) ∧
    (Asked s 2 pa p →
      (p.length < 68 ∨ 65536 ≤ fieldOf p 0 4 → exec .attest s = .next (replied u pa 2 [])) ∧
      (68 ≤ p.length → fieldOf p 0 4 < 65536 →
        let body := u.reportBody (fieldOf p 0 4) ((p.drop 4).take 64)
        exec .attest s = .next (replied u pa 0 (body ++ exactly 1280 (Config.sign 0 (shake256 body) 1280))) ∧
        body.length = 344 ∧ (body.drop 8).take 64 = (p.drop 4).take 64 ∧ (body.drop 72).take 64 = idd))

/-- R429, R431: KDOPEN gives a FREE key-domain a fresh key, KDCLOSE frees one and erases its key, KDSEAL makes an OPEN one SEALED for a context and the owner of
its frames, KDMAP writes a leaf of a sealed context, whose frames become the key-domain's, and drops its old translation. A key-domain in another state is STATE, one that no command may name BADARG. -/
def KeyDomainCommands : Prop :=
  ∀ (s : State) (pa : Nat) (p : List Byte), s.kds.length = 256 → let u := fresh s
    (Asked s 3 pa p → (kdArg p = none → exec .kdopen s = .next (replied u pa 2 [])) ∧ ∀ d, kdArg p = some d →
      ((s.kd d).st ≠ 0 → exec .kdopen s = .next (replied u pa 4 [])) ∧
      ((s.kd d).st = 0 → exec .kdopen s = .next (replied { u with
        order := s.order + 1, kds := s.kds.set d { KeyDom.reset with st := 1, key := s.order } } pa 0 []))) ∧
    (Asked s 5 pa p → (kdArg p = none → exec .kdclose s = .next (replied u pa 2 [])) ∧ ∀ d, kdArg p = some d →
      ((s.kd d).st = 0 → exec .kdclose s = .next (replied u pa 4 [])) ∧
      ((s.kd d).st ≠ 0 → exec .kdclose s = .next (replied { u with
        kds := s.kds.set d KeyDom.reset, owners := s.owners.filter (fun q => q.2 ≠ d) } pa 0 []))) ∧
    (Asked s 4 pa p → ∀ d, kdArg p = some d → 8 ≤ p.length →
      let ctx := fieldOf p 4 4
      let ranges := listRanges p.length (p.drop 8)
      let pages := ranges.flatMap (fun r => (pieces r.1 (r.2 / 65536 + 2) r.2).map (fun q => u.hbmAt (u.domain (u.ctxDesc ctx).dom) q.1))
      let frames := (pages.filterMap id).flatMap (fun x => x.2) ++
        (u.tableFrames 3 (u.domain (u.ctxDesc ctx).dom).root).filter (fun f => decide (f < 2 ^ 18))
      (65536 ≤ ctx ∨ (u.ctxDesc ctx).valid = false ∨ none ∈ pages → exec .kdseal s = .next (replied u pa 2 [])) ∧
      (ctx < 65536 → (u.ctxDesc ctx).valid = true → none ∉ pages →
        ((s.kd d).st ≠ 1 ∨ u.sealedBy ctx ≠ none ∨ (∃ f ∈ frames, keyOf s.owners f ≠ 0 ∧ keyOf s.owners f ≠ d) → exec .kdseal s = .next (replied u pa 4 [])) ∧
        ((s.kd d).st = 1 → u.sealedBy ctx = none → (∀ f ∈ frames, keyOf s.owners f = 0 ∨ keyOf s.owners f = d) →
          Answers (exec .kdseal s) (fun t => t.secp.result = some 0 ∧ (t.kd d).st = 2 ∧ (t.kd d).ctx = ctx ∧ (t.kd d).key = (s.kd d).key ∧
            (t.kd d).ranges = ranges ∧ (t.kd d).cm.length = 64 ∧ (∀ e, e ≠ d → t.kd e = s.kd e) ∧
            (∀ f ∈ frames, keyOf t.owners f = d) ∧ ∀ f, f ∉ frames → keyOf t.owners f = keyOf s.owners f)))) ∧
    (Asked s 6 pa p →
      let ctx := fieldOf p 0 4
      let va := fieldOf p 4 8
      let leaf := fieldOf p 12 8
      let size := fieldOf p 20 4
      let at0 := bitsOf leaf 51 16 * 65536
      24 ≤ p.length → size ∈ [0x10000, 0x200000, 0x40000000] → canonical va = true → va % size = 0 → bitOf leaf 0 = true → bitOf leaf 1 = true →
      u.leafBad (BitVec.ofNat 64 leaf) size = false →
      (u.sealedBy ctx = none → exec .kdmap s = .next (replied u pa 4 [])) ∧
      let frames := (List.range (max 1 (size / 2 ^ 21))).flatMap (fun i =>
        if bitOf leaf 5 then (List.range 4).map (fun e => replicaPa (at0 + i * 2 ^ 21) e / 2 ^ 21) else [(at0 + i * 2 ^ 21) / 2 ^ 21])
      (∀ d f, u.sealedBy ctx = some d → f ∈ frames → f < 2 ^ 18 → keyOf s.owners f ≠ 0 → keyOf s.owners f ≠ d → exec .kdmap s = .next (replied u pa 4 [])) ∧
      ∀ d slot, u.sealedBy ctx = some d → u.leafSlot (u.domain (u.ctxDesc ctx).dom).root va size = some slot →
        (∀ f ∈ frames, 2 ^ 18 ≤ f ∨ keyOf s.owners f = 0 ∨ keyOf s.owners f = d) →
        Answers (exec .kdmap s) (fun t => t.secp.result = some 0 ∧ t.kds = s.kds ∧ (s.mem.wf = true → s.arriving = [] → s.replicas = [] → (∀ i, i < 8 → u.sealedEntry (slot + i) = false) →
            t.mem.read slot 8 = leBytes 8 leaf) ∧
          (∀ f ∈ frames, f < 2 ^ 18 → keyOf t.owners f = d) ∧ (∀ f, f ∉ frames → keyOf t.owners f = keyOf s.owners f) ∧
          ∀ e ∈ t.tlb, e ∈ s.tlb ∧ ¬(e.asid = (u.domain (u.ctxDesc ctx).dom).asid ∧ e.size = size ∧ e.va = va)))

/-- R435 to R439: REKEY begins a key exchange on a port that has a key; MPCSET enters a new multi-package context, at most 16; MPCJOIN admits the members whose
reports verify; REVOKE with a good signature and a later epoch takes the member out. -/
def PackageCommands : Prop :=
  ∀ (s : State) (pa : Nat) (p : List Byte), let u := fresh s
    (Asked s 7 pa p → let i := fieldOf p 0 4
      (p.length < 4 ∨ 32 ≤ i → exec .rekey s = .next (replied u pa 2 [])) ∧
      (4 ≤ p.length → i < 32 →
        ((s.port i).txst = 0 → exec .rekey s = .next (replied u pa 4 [])) ∧
        ((s.port i).txst ≠ 0 → exec .rekey s = .next (replied (u.modPort i (fun y => { y with exch := 1 })) pa 0 [])))) ∧
    (Asked s 8 pa p → let i := fieldOf p 0 4
      (p.length ≠ 1872 ∨ i = 0 ∨ fieldOf p 6 2 ≠ 0 ∨ fieldOf p 1865 7 ≠ 0 → exec .mpcset s = .next (replied u pa 2 [])) ∧
      (p.length = 1872 → i ≠ 0 → fieldOf p 6 2 = 0 → fieldOf p 1865 7 = 0 →
        ((∃ m ∈ s.mpcs, m.id = i) → exec .mpcset s = .next (replied u pa 4 [])) ∧
        ((∀ m ∈ s.mpcs, m.id ≠ i) → 16 ≤ s.mpcs.length → exec .mpcset s = .next (replied u pa 5 [])) ∧
        ((∀ m ∈ s.mpcs, m.id ≠ i) → s.mpcs.length < 16 → exec .mpcset s = .next (replied { u with mpcs := s.mpcs ++ [{
          id := i, ctx := fieldOf p 4 2, policy := (p.drop 8).take 64, key := (p.drop 72).take 1793, members := 0#256, epoch := 0 }] } pa 0 [])))) ∧
    (Asked s 9 pa p → 4 ≤ p.length → (p.length - 4) % 1628 = 0 →
      (s.mpcs.find? (fun m => m.id == fieldOf p 0 4) = none → exec .mpcjoin s = .next (replied u pa 4 [])) ∧
      ∀ m, s.mpcs.find? (fun m => m.id == fieldOf p 0 4) = some m →
        let b := m.members ||| joins m p.length (p.drop 4)
        exec .mpcjoin s = .next (replied { u with mpcs := s.mpcs.map (fun x => if x.id = m.id then { x with members := b } else x) } pa 0 (leBytes 32 b.toNat))) ∧
    (Asked s 10 pa p → p.length = 1356 → ∀ m, s.mpcs.find? (fun m => m.id == fieldOf p 0 4) = some m →
      let good := falconVerify m.key (shake256 (p.take 76)) (p.drop 76)
      (good = false → exec .revoke s = .next (replied u pa 3 [])) ∧
      (good = true → fieldOf p 4 4 ≤ m.epoch → exec .revoke s = .next (replied u pa 4 [])) ∧
      (good = true → m.epoch < fieldOf p 4 4 → ¬(fieldOf p 8 1 = s.own ∧ (p.drop 12).take 64 = idd) →
        Answers (exec .revoke s) (fun t => t.secp.result = some 0 ∧ t.mpcs = s.mpcs.map (fun x => if x.id = m.id then
          { x with members := x.members &&& ~~~(1#256 <<< fieldOf p 8 1), epoch := fieldOf p 4 4 } else x))) ∧
      (good = true → m.epoch < fieldOf p 4 4 → fieldOf p 8 1 = s.own → (p.drop 12).take 64 = idd →
        exec .revoke s = .next (replied { u.terminate m.ctx with mpcs := s.mpcs.map (fun x =>
          if x.id = m.id then { x with epoch := fieldOf p 4 4 } else x) } pa 0 [])))

/-- R455: FWSTAGE writes an image to the staging bank whose signature and digest hold and whose version is not below the fused counter; FWCOMMIT with all four staged makes the
other bank active, and ADVANCE raises the counters or ends with FULL. -/
def FirmwareCommands : Prop :=
  ∀ (s : State) (pa : Nat) (p : List Byte), let u := fresh s
    (Asked s 11 pa p → let i := fieldOf p 12 4
      (p.length < 16 ∨ 3 < i → exec .fwstage s = .next (replied u pa 2 [])) ∧
      (16 ≤ p.length → i ≤ 3 →
        let img := u.readPa (fieldOf p 0 8) (fieldOf p 8 4)
        let good := falconVerify (Config.identity 4 0) (Config.image 0 img) (Config.image 2 img) = true ∧
          shake256 (Config.image 3 img) = exactly 64 (Config.image 1 img) ∧ s.secp.roll.getD i 0 ≤ leNat ((Config.image 4 img).take 8)
        (¬ good → exec .fwstage s = .next (replied u pa 3 [])) ∧
        (good → exec .fwstage s = .next (replied { u with secp := { s.secp with
          staged := i :: s.secp.staged.filter (fun q => q ≠ i)
          flash := { bank := !s.secp.bank, idx := i, bytes := img } :: s.secp.flash.filter (fun f => !(f.bank == !s.secp.bank && f.idx == i)) } } pa 0 [])))) ∧
    (Asked s 12 pa p → 4 ≤ p.length →
      let ver := fun i => ((s.secp.imageIn (!s.secp.bank) i).map (fun img => leNat ((Config.image 4 img).take 8))).getD 0
      ((∃ i, i < 4 ∧ i ∉ s.secp.staged) → exec .fwcommit s = .next (replied u pa 4 [])) ∧
      ((∀ i, i < 4 → i ∈ s.secp.staged) →
        (bitOf (fieldOf p 0 4) 0 = false →
          exec .fwcommit s = .next (replied { u with secp := { s.secp with staged := [], bank := !s.secp.bank } } pa 0 [])) ∧
        (bitOf (fieldOf p 0 4) 0 = true → Answers (exec .fwcommit s) (fun t => t.secp.result = some 5 ∧ t.secp.bank = s.secp.bank ∨
          t.secp.result = some 0 ∧ t.secp.bank = !s.secp.bank ∧ t.secp.staged = [] ∧ t.secp.flash = s.secp.flash ∧
            ∀ i, i < 4 → t.secp.roll.getD i 0 = max (s.secp.roll.getD i 0) (ver i)))))

/-! ## The host and the outside -/

/-- R380, R391, R417: the fault response to a record resumes its agent, declines it or terminates its context. A resumed crew goes on at its region entries with
no stall, one that is saved or whose context is stopped when it runs again, its record in the image written anew; a declined crew outside a callee ends its context, in a callee the call is unwound; a declined operation or slice retires with XLATE, of saved state in its image. -/
def FaultResponses : Prop :=
  ∀ (s : State) (dom : Bool) (owner seq : Nat), let u := fresh s
    (s.hostOpen = false ∨ u.faultAgent dom owner seq = none →
      ∀ e ∈ ([.frespResume dom owner seq, .frespDecline dom owner seq, .frespTerminate dom owner seq] : List Instr), exec e s = .next u) ∧
    (s.hostOpen = true →
      (∀ id c, u.faultAgent dom owner seq = some (.crew id) → s.crew? id = some c → (∀ x ∈ s.crews, x.id = id → x = c) →
        let step := c.stall.any (fun y => y.step)
        let cause := (c.stall.map (fun x => x.cause)).getD 0
        (∀ b, s.block? c.blk = some b → b.img = none →
          let here := b.place = 0 ∧ (b.harv = false ∨ (s.core b.core).revoke = 0) ∧ (s.ctxSt c.ctx).stopped = false
          (here → exec (.frespResume dom owner seq) s = .next { u with
            crews := s.crews.map (fun (x : Crew) => if x.id == id then { resumeCrew c step with stall := none } else x) }) ∧
          (¬ here → exec (.frespResume dom owner seq) s = .next { u with
            crews := s.crews.map (fun (x : Crew) => if x.id == id then { c with stall := none, cont := step } else x) }) ∧
          (c.callee = true → exec (.frespDecline dom owner seq) s = .next (u.unwind id c.gates.length 3 cause))) ∧
        (∀ b, s.block? c.blk = some b → b.place = 1 → b.img ≠ none →
          (∃ f : State → State, exec (.frespResume dom owner seq) s = .next (u.atImage c.blk f) ∧
            ∀ v d, v.crew? id = some d → v.block? d.blk = some b → (∀ x ∈ v.crews, x.id = id → x = d) → f v = { v with
              crews := v.crews.map (fun (x : Crew) => if x.id == id then { d with stall := none, cont := d.stall.any (fun y => y.step) } else x) }) ∧
          (c.callee = true → exec (.frespDecline dom owner seq) s = .next (u.atImage c.blk (fun v => v.unwind id c.gates.length 3 cause)))) ∧
        (c.callee = false → exec (.frespDecline dom owner seq) s = .next (u.terminate c.ctx)) ∧
        exec (.frespTerminate dom owner seq) s = .next (u.terminate c.ctx)) ∧
      (∀ id k o, u.faultAgent dom owner seq = some (.op id k) → s.op? id = some o →
        exec (.frespResume dom owner seq) s = .next (u.modOp id (fun x => { x with pause := x.pause.filter (fun q => q.1 ≠ k) })) ∧
        (o.cls ≠ 2 → ((∀ b, s.block? o.blk = some b → b.img = none) → exec (.frespDecline dom owner seq) s = .next (u.failOp o 3)) ∧
          exec (.frespDecline dom owner seq) s = .next (u.atImage o.blk (fun v => v.failOp ((v.op? id).getD o) 3))) ∧
        (o.cls = 2 → exec (.frespDecline dom owner seq) s = .next (u.atImage o.blk (fun v =>
          let w := sliceEnd v o k 3
          match w.op? id with
          | some x => w.retireTask x
          | none => w))) ∧
        exec (.frespTerminate dom owner seq) s = .next (u.terminate o.ctx)) ∧
      ∀ id l, u.faultAgent dom owner seq = some (.launch id) → s.launch? id = some l →
        exec (.frespResume dom owner seq) s = .next (u.modLaunch id (fun x => { x with hold := none })) ∧
        exec (.frespDecline dom owner seq) s = .next (u.modLaunch id (fun x => { x with hold := none, writes := x.writes.drop 1 })) ∧
        exec (.frespTerminate dom owner seq) s = .next (u.terminate l.ctx))

/-- R288, R409, R414, R416, R420: what host writes do while the link is open: BOOTL submits a launch record, once a launch slot is free; BAR2 writes and reads package memory; the words of an
address group are taken while it is idle, and V stays only where the entry is legal; an MSI-X entry that is unmasked sends its pending message; registers without
behaviour take their value. -/
def HostAccessEvents : Prop :=
  ∀ (s : State), s.hostOpen = true → let u := fresh s
    (∀ a : BitVec 64, (a.toNat % 128 ≠ 0 ∨ (s.mgmt.stage ≠ 2 ∧ s.mgmt.stage ≠ 3) → exec (.bootl a) s = .next u) ∧
      (a.toNat % 128 = 0 → (s.mgmt.stage = 2 ∨ s.mgmt.stage = 3) → u.paKind a.toNat ≠ .none →
        exec (.bootl a) s = .next (State.bootNext { u with mgmt := { s.mgmt with bootl := a &&& 0x000FFFFFFFFFFFFF#64, bootq := s.mgmt.bootq ++ [a.toNat] } }))) ∧
    (∀ (m : State) (pa : Nat) (rest : List Nat), m.mgmt.bootq = pa :: rest → m.paReady pa = .yes → m.poisoned pa 128 = false →
      m.recordWaits (recordCtx (m.readPa pa 128) 0) = false →
      let t := State.release { m with mgmt := { m.mgmt with bootq := rest } }
      (256 ≤ m.launchSlots.length ∨ m.mgmt.ps ≠ 0#2 → m.bootNext = m) ∧
      (m.launchSlots.length < 256 → m.mgmt.ps = 0#2 → m.bootNext = t.submit (t.readPa pa 128) 0 (2 ^ 16) pa true)) ∧
    (∀ off data, 0 < data.length → data.length ≤ 512 → off + data.length ≤ 2 ^ 36 →
      (u.barWaits off data.length = true → exec (.bar2Write off data) s = .next { u with inputs := .bar2Write off data :: s.inputs }) ∧
      (u.barWaits off data.length = false → exec (.bar2Write off data) s = .next (u.hostWrite (s.mgmt.mwap.toNat + off) data) ∧
        (let at0 := s.mgmt.mwap.toNat + off
         u.paReady at0 ≠ .dead → s.mem.wf = true → (∀ i, i < data.length → u.sealedFrame (at0 + i) = false ∧ u.hostByte (at0 + i) (data.getD i 0#8) = data.getD i 0#8) →
          Answers (exec (.bar2Write off data) s) (fun t => (∀ i, i < data.length → t.mem.get (at0 + i) = data.getD i 0#8) ∧
            ∀ a, a < at0 ∨ at0 + data.length ≤ a → t.mem.get a = s.mem.get a)))) ∧
    (∀ off n, 0 < n → n ≤ 4096 → off + n ≤ 2 ^ 36 → u.barWaits off n = false →
      exec (.bar2Read off n) s = .next { u with mgmt := { s.mgmt with readData := s.mgmt.readData ++ [u.hostRead (s.mgmt.mwap.toNat + off) n] } }) ∧
    (∀ g w v, 0 < g → g < 256 → w < 16 → s.groups.length = 256 →
      (s.grpState g ≠ 0 → exec (.addressGroupWrite g w v) s = .next u) ∧
      (s.grpState g = 0 → Answers (exec (.addressGroupWrite g w v) s) (fun t => t = { u with groups := t.groups } ∧ (∀ j, j ≠ g → t.grp j = s.grp j) ∧
        (t.grp g = { groupWord (s.grp g) w v with v := (groupWord (s.grp g) w v).v && s.groupOk (groupWord (s.grp g) w v) })))) ∧
    (∀ v, v < 2048 → v ∉ s.mgmt.msixOpen →
      (v ∉ s.mgmt.msixPending → exec (.msixVectorUnmask v) s = .next { u with mgmt := { s.mgmt with msixOpen := s.mgmt.msixOpen ++ [v] } }) ∧
      (v ∈ s.mgmt.msixPending → u.msixAddr v ≠ 0 → Answers (exec (.msixVectorUnmask v) s) (fun t => t.mgmt.msixSent = s.mgmt.msixSent ++ [v] ∧
        v ∉ t.mgmt.msixPending ∧ v ∈ t.mgmt.msixOpen ∧ t.mem = s.mem))) ∧
    (∀ v, exec (.mgmtRegisterWrite 0 0x48 false v) s = .next { u with mgmt := { s.mgmt with spint := v.setWidth 32 } }) ∧
    (∀ v : BitVec 64, exec (.mgmtRegisterWrite 0 0x30 true v) s = .next { u with mgmt := { s.mgmt with ctxtab := BitVec.ofNat 64 (bitsOf v.toNat 51 12 * 4096) } }) ∧
    ∀ off w v, off % 4 ≠ 0 → exec (.mgmtRegisterWrite 0 off w v) s = .next u

/-- R415, R421 to R426, R455: bring-up: PERST# sets every register to its reset value and its release starts bring-up; verified firmware, the images that were
committed to the active bank among them, leads to SECURE and each image's digest enters FM; trained D0 leads to REDUCED service, the rest to FULL; a failure leads to FAILED with its error code. -/
def BringUpEvents : Prop :=
  ∀ (s : State), let u := fresh s
    Answers (exec .perstAssert s) (fun t => t = { State.reset with
        free := s.free + 1, order := s.order, inputs := s.inputs, hostStores := s.hostStores, mem := t.mem,
        mgmt := { State.reset.mgmt with off := s.mgmt.off, msixSent := s.mgmt.msixSent, readData := s.mgmt.readData },
        secp := { State.reset.secp with flash := s.secp.flash, bank := s.secp.bank, roll := s.secp.roll } } ∧
      (s.mem.wf = true → ∀ a, 0x200000000000 ≤ a → t.mem.get a = s.mem.get a)) ∧
    (s.mgmt.boot = true → exec .perstDeassert s = .next u) ∧
    (s.mgmt.boot = false → exec .perstDeassert s = .next { u with mgmt := { s.mgmt with boot := true, off := false } }) ∧
    (∀ imgs, s.mgmt.boot = false ∨ s.mgmt.stage ≠ 0 → exec (.firmwareVerify imgs) s = .next u) ∧
    (∀ imgs, s.mgmt.boot = true → s.mgmt.stage = 0 → imgs.length = 4 → s.secp.roll.length = 4 →
      let boots := (List.range 4).map (fun i => ((s.secp.imageIn s.secp.bank i).map fwParts).getD (imgs.getD i (false, false, 0, [])))
      let passes := ∀ i, i < 4 → ∀ x, boots[i]? = some x → x.1 = true ∧ x.2.1 = true ∧ s.secp.roll.getD i 0 ≤ x.2.2.1
      (passes → Answers (exec (.firmwareVerify imgs) s) (fun t => t.mgmt.stage = 1 ∧
        t.secp.fm = boots.foldl (fun fm x => shake256 (fm ++ x.2.2.2)) s.secp.fm)) ∧
      (¬ passes → Answers (exec (.firmwareVerify imgs) s) (fun t => t.mgmt.stage = 4 ∧ t.mgmt.err = 1#8 ∧ t.secp = s.secp))) ∧
    (∀ mem cores link, (s.mgmt.stage ≠ 1 → exec (.secureTrainingComplete mem cores link) s = .next u) ∧
      (s.mgmt.stage = 1 → (mem && cores && link) = true → Answers (exec (.secureTrainingComplete mem cores link) s) (fun t =>
        t.mgmt.stage = 2 ∧ t.mgmt.dieup = 1#4 ∧ t.mgmt.stackup = 3#8 ∧ t.mgmt.aclk = 1200#32)) ∧
      (s.mgmt.stage = 1 → (mem && cores && link) = false → Answers (exec (.secureTrainingComplete mem cores link) s) (fun t =>
        t.mgmt.stage = 4 ∧ t.mgmt.err = if mem = false then 2#8 else if cores = false then 3#8 else 4#8))) ∧
    (∀ d st cx, (s.mgmt.stage ≠ 2 → exec (.fullServiceTransition d st cx) s = .next u) ∧
      (s.mgmt.stage = 2 → Answers (exec (.fullServiceTransition d st cx) s) (fun t => t.mgmt.stage = 3 ∧ t.mgmt.dieup = s.mgmt.dieup ||| d ∧
        t.mgmt.stackup = s.mgmt.stackup ||| (st &&& ~~~s.mgmt.stackFail) ∧ t.mgmt.cxlup = cx ∧ t.mgmt.aclk = 1900#32))) ∧
    ∀ k ok, k < 8 → s.mgmt.stage = 2 → s.mgmt.stackup.getLsbD k = false → s.mgmt.stackFail.getLsbD k = false →
      exec (.hbmStackEntersService k ok) s = .next { u with mgmt := if ok then { s.mgmt with stackup := s.mgmt.stackup ||| (1#8 <<< k) }
        else { s.mgmt with stackFail := s.mgmt.stackFail ||| (1#8 <<< k) } }

/-- R408, R423, R446 to R454: D3hot is entered in two steps, once every context's image is complete, and left in two; power that goes takes all state, as does a
sensor at 110 degrees; the clock steps by 50 MHz between 600 and 1900 MHz, in FULL service; the scrub counts what it corrects and poisons what it cannot, as errors of
L2 lines do; an on-core error ends the context it hits; a CXL port that is lost loses its accepted stores, which are counted, and nothing else of memory; RASCLR clears the counters. -/
def PowerAndErrorEvents : Prop :=
  ∀ (s : State), let u := fresh s
    (s.mgmt.stage = 2 ∨ s.mgmt.stage = 3 →
      (s.mgmt.ps = 0#2 → Answers (exec .enterD3hot s) (fun t => t.mgmt.ps = 1#2)) ∧
      (s.mgmt.ps = 1#2 → (∃ b ∈ s.blocks, b.place ≠ 1) → exec .enterD3hot s = .next u) ∧
      (s.mgmt.ps = 1#2 → (∀ b ∈ s.blocks, b.place = 1) → (∀ c ∈ s.coxes, ∀ k ∈ c.slots, k.st = 0) → s.ports.length = 32 →
        Answers (exec .enterD3hot s) (fun t => t.mgmt.ps = 2#2 ∧ t.arriving = [] ∧ t.mgmt.cxlup = 0#4 ∧ ∀ p, p < 32 → (t.port p).st = if (s.port p).st = 4 then 4 else 0))) ∧
    (s.mgmt.ps = 2#2 → Answers (exec .leaveD3hot s) (fun t => t.mgmt.ps = 3#2)) ∧
    (s.mgmt.ps = 3#2 → ∃ up, exec .leaveD3hot s = .next { u with mgmt := { s.mgmt with ps := 0#2, cxlup := up } } ∧ up &&& ~~~s.mgmt.dieup = 0#4 ∧
      (s.mgmt.stage ≠ 3 → up = 0#4)) ∧
    (s.mgmt.ps = 0#2 ∨ s.mgmt.ps = 1#2 → exec .leaveD3hot s = .next u) ∧
    (∀ e ∈ ([.thermtrip, .powerRemoval] : List Instr), Answers (exec e s) (fun t => t.mgmt.off = true ∧ t.mgmt.stage = 0 ∧ t.crews = [] ∧ t.blocks = [] ∧
      t.bmem = [] ∧ t.amem = [] ∧ t.smem = [] ∧ t.mgmt.trip = decide (e = .thermtrip))) ∧
    (∀ avg pkg dies temps hbm, s.mgmt.off = false → s.mgmt.boot = true → dies.length = 4 → temps.length = 4 → hbm.length = 8 →
      ((∃ t ∈ temps ++ hbm, 110 * 16 ≤ t.toInt) → Answers (exec (.clockStep avg pkg dies temps hbm) s) (fun t => t.mgmt.trip = true ∧ t.mgmt.off = true)) ∧
      ((∀ t ∈ temps ++ hbm, t.toInt < 110 * 16) → s.mgmt.stage ≠ 3 → Answers (exec (.clockStep avg pkg dies temps hbm) s) (fun t =>
        t.mgmt.pkgpwr = pkg ∧ t.mgmt.diepwr = dies ∧ t.mgmt.temp = temps ∧ t.mgmt.hbmtemp = hbm ∧ t.mgmt.aclk = s.mgmt.aclk))) ∧
    (∀ avg pkg dies temps hbm, s.mgmt.off = false → s.mgmt.boot = true → s.mgmt.stage = 3 → s.mgmt.ps ≠ 2#2 → dies.length = 4 → temps.length = 4 → hbm.length = 8 →
      (∀ t ∈ temps ++ hbm, t.toInt < 110 * 16) → 600 ≤ s.mgmt.aclk.toNat → s.mgmt.aclk.toNat ≤ 1900 →
      let cap := bitsOf s.mgmt.pwrcap.toNat 10 0 * 1000
      let limit : Int := bitsOf s.mgmt.therm.toNat 15 8
      let hot := ∃ t ∈ temps, limit * 16 ≤ t.toInt
      let cool := ∀ t ∈ temps, t.toInt < (limit - 3) * 16
      let clk := s.mgmt.aclk.toNat
      Answers (exec (.clockStep avg pkg dies temps hbm) s) (fun t => 600 ≤ t.mgmt.aclk.toNat ∧ t.mgmt.aclk.toNat ≤ 1900 ∧
        t.mgmt.pkgpwr = pkg ∧ t.mgmt.diepwr = dies ∧ t.mgmt.temp = temps ∧ t.mgmt.hbmtemp = hbm ∧
        (cap < avg.toNat ∨ hot → t.mgmt.aclk.toNat = max 600 (clk - 50)) ∧
        (avg.toNat * 100 < cap * 97 → cool → t.mgmt.aclk.toNat = min 1900 (clk + 50)) ∧
        (¬(cap < avg.toNat ∨ hot) → ¬(avg.toNat * 100 < cap * 97 ∧ cool) → t.mgmt.aclk.toNat = clk))) ∧
    (∀ line, 64 * line < 0x8000000000 → s.mgmt.stackup.getLsbD (bitsOf (64 * line) 38 36) = true → s.mgmt.ps ≠ 2#2 →
      Answers (exec (.patrolScrub line 1) s) (fun t => t.ras.cehbm = satInc s.ras.cehbm ∧ t.poison = s.poison ∧ t.ras.prod = s.ras.prod + 1#32 ∧ t.mem = s.mem) ∧
      Answers (exec (.patrolScrub line 2) s) (fun t => t.ras.uehbm = satInc s.ras.uehbm ∧ line ∈ t.poison ∧ (∀ l ∈ s.poison, l ∈ t.poison) ∧
        t.ras.prod = s.ras.prod + 1#32 ∧ t.mem = s.mem)) ∧
    (∀ line, u.paKind (64 * line) ≠ .none →
      Answers (exec (.patrolScrub line 3) s) (fun t => t.ras.cesram = satInc s.ras.cesram ∧ t.poison = s.poison ∧ t.ras.prod = s.ras.prod + 1#32 ∧ t.mem = s.mem) ∧
      Answers (exec (.patrolScrub line 4) s) (fun t => t.ras.uesram = satInc s.ras.uesram ∧ line ∈ t.poison ∧ (∀ l ∈ s.poison, l ∈ t.poison) ∧
        t.ras.prod = s.ras.prod + 1#32 ∧ t.mem = s.mem)) ∧
    (∀ core, core < 160 → Answers (exec (.patrolScrub core 5) s) (fun t =>
      t.ras.cesram = satInc s.ras.cesram ∧ t.ras.prod = s.ras.prod + 1#32 ∧ t.mem = s.mem ∧ t.crews = s.crews)) ∧
    (∀ core crew blk, s.crew? crew = none → s.block? blk = none → Answers (exec (.onCoreUncorrectable core crew blk) s) (fun t =>
      t.ras.uesram = satInc s.ras.uesram ∧ t.crews = s.crews ∧ t.ras.prod = s.ras.prod + 1#32)) ∧
    (∀ core crew blk c, s.crew? crew = some c → c.core = core → Answers (exec (.onCoreUncorrectable core crew blk) s) (fun t =>
      (∀ d ∈ t.crews, d.ctx ≠ c.ctx) ∨ ∃ d ∈ t.crews, d.id = crew ∧ d.stall.isSome = true ∧ ∃ h ∈ t.held, h.crew = some crew)) ∧
    (∀ p lost, p < 4 → s.mgmt.cxlup.getLsbD p = true → s.mem.wf = true →
      let gone := fun x : Nat × Nat => 0 < x.2 ∧ u.paKind x.1 = .far p ∧ u.paKind (x.1 + x.2 - 1) = .far p
      Answers (exec (.cxlLinkDown p lost) s) (fun t =>
        t = { u with
          mgmt := { s.mgmt with cxlup := s.mgmt.cxlup &&& ~~~(1#4 <<< p) }
          ras := { s.ras with farlost := (lost.filter (fun x => decide (gone x))).foldl (fun n _ => satInc n) s.ras.farlost }
          mem := t.mem, past := t.past } ∧
        ∀ a, (∀ x ∈ lost, gone x → a < x.1 ∨ x.1 + x.2 ≤ a) → t.mem.get a = s.mem.get a)) ∧
    (∀ p lost, 4 ≤ p ∨ s.mgmt.cxlup.getLsbD p = false → exec (.cxlLinkDown p lost) s = .next u) ∧
    exec .rasclr s = .next (if s.hostOpen then { u with ras := { s.ras with
      cesram := 0#64, uesram := 0#64, cehbm := 0#64, uehbm := 0#64, parfix := 0#64, pktdrop := 0#64, ptebad := 0#64, msidrop := 0#64, farlost := 0#64 } } else u)

/-! ## Lines, steps, causes, reset -/

/-- R33: the line word is line bytes 3:0, and bit b of slot k is bit (b mod 8) of line byte 4 + 12k + floor(b / 8). -/
def LineLayout : Prop :=
  ∀ line : List Byte, line.length = 64 →
    (∀ b, b < 32 → (lineWordOf line).getLsbD b = (line.getD (b / 8) 0#8).getLsbD (b % 8)) ∧
    (∀ k b, k < 5 → b < 96 → (slotWordOf line k).getLsbD b = (line.getD (4 + 12 * k + b / 8) 0#8).getLsbD (b % 8))

/-- Bit i of PAR together with the 64 bits of its group, PAR itself taken as zero, is an even number of ones (R37). -/
def groupEven (line : List Byte) (i : Nat) : Prop :=
  ((List.range 64).countP (fun b => decide (8 * i + b / 8 ≠ 3) && (line.getD (8 * i + b / 8) 0#8).getLsbD (b % 8)) +
    ((lineWordOf line).getLsbD (24 + i)).toNat) % 2 = 0

/-- The conditions of the rows of R38 from LFMT on, by subcode. -/
def lineRow (line : List Byte) (sub : Nat) : Prop :=
  let lw := lineWordOf line
  let pair := fun j => lw.getLsbD (10 + j) = true
  let cls := fun k => (slotWordOf line k).toNat / 2 ^ 92
  match sub with
  | 1 => lw.getLsbD 14 = true ∨ lw.getLsbD 15 = true
  | 2 => ∃ b, 16 ≤ b ∧ b < 24 ∧ lw.getLsbD b = true
  | 3 => ∃ j, j < 3 ∧ pair j ∧ pair (j + 1)
  | 4 => ∃ j, j < 4 ∧ pair j ∧ (lw.getLsbD (j + 1) = true ∨ lw.getLsbD (5 + (j + 1)) = true)
  | 5 => ∃ j, j < 4 ∧ pair j ∧ (slotWordOf line (j + 1)).extractLsb' 82 4 ≠ 0#4
  | 6 => ∃ j, j < 4 ∧ pair j ∧ (cls j = 0xD ∨ cls j = 0xE ∨ cls (j + 1) = 0xD ∨ cls (j + 1) = 0xE ∨ cls j = 7)
  | _ => False

/-- R36 to R38: a line whose parity fails is malformed with subcode 0; otherwise it is malformed exactly when a row of R38 applies, and with the
subcode of such a row. -/
def LineChecks : Prop :=
  ∀ line : List Byte, line.length = 64 →
    (lineFault line = some 0 ↔ ∃ i, i < 8 ∧ ¬groupEven line i) ∧
    (lineFault line = none ↔ (∀ i, i < 8 → groupEven line i) ∧ ∀ sub, ¬lineRow line sub) ∧
    (∀ sub, sub ≠ 0 → lineFault line = some sub → lineRow line sub)

/-- R34, R38, R39, R40, R58: what a transfer finds at its target: PARITY or LINEFMT with its subcode for a malformed line first, then CFI for a PC that is
none, the cause that the fetch meets, and CFI for a slot without TGT, each with the target PC; a return that hardware recorded does not consult TGT. -/
def TransferTarget : Prop :=
  ∀ (s : State) (core asid : Nat) (pc : DWord) (mask : Mask) (tgt : Bool),
    let ok := (pc.toNat / 2 ^ 57 = if pc.getLsbD 56 then 127 else 0) ∧ pc.toNat / 8 % 8 = 0 ∧ pc.toNat % 8 ≤ 4
    let got := s.fetchLine core asid (pc.toNat / 64 * 64)
    (∀ sub, got = .bad sub → s.checkTarget core asid pc mask tgt = .error (.raise { sysCause 4 sub 0 pc mask with atIssue := true })) ∧
    (got = .wait → s.checkTarget core asid pc mask tgt = .error .hold) ∧
    (¬ok → (∀ sub, got ≠ .bad sub) → got ≠ .wait → s.checkTarget core asid pc mask tgt = .error (.raise (cfi pc mask))) ∧
    (ok → ∀ f, got = .xlate f → f.lost = none → s.checkTarget core asid pc mask tgt = .error (.raise (xlateCause f.sub (pc.toNat / 64 * 64) mask))) ∧
    (ok → got = .poison → s.checkTarget core asid pc mask tgt = .error (.raise (poisonCause (pc.toNat / 64 * 64) mask))) ∧
    (ok → ∀ line, got = .ok line →
      s.checkTarget core asid pc mask tgt =
        if tgt = true ∧ (lineWordOf line).getLsbD (pc.toNat % 8) = false then .error (.raise (cfi pc mask)) else .ok line)

/-- What is left of a quad's turn once a slot of crew `c` has been tried with order stamp `first`: where it was not eligible the next of the list
is tried, otherwise it has taken its pipes. -/
def goOn (c : Crew) (p : PcSlot) (first : Nat) (more : List (Nat × Bool)) : Out → Out
  | .next t => if t.heldMark then State.tryAll { t with heldMark := false, lastRaise := none, cur := Cursor.idle } more
      else .next ((t.tookPipes c p).afterIssue c.id first).endTurn
  | .fault f => .fault f
  | .refused r => .refused r

/-- A slot may issue as far as its crew is concerned: no STEP record is due, and no trap waits for delivery. -/
def Clear (c : Crew) : Prop := c.stepPend = false ∧ (c.trapq = [] ∨ c.insvc = true)

/-- R59: a slot whose line has been entered issues the instruction decoded from the word at its PC, where the pipe of that instruction can accept it; where
it cannot, the slot is not eligible and the next of the list is tried. -/
def SingleIssue : Prop :=
  ∀ (m : State) (id : Nat) (k : Bool) (more : List (Nat × Bool)) (c : Crew), m.crew? id = some c → Clear c → (c.slot k).line ≠ [] →
    ¬(linePair (lineWordOf (c.slot k).line) (pcSlot (c.slot k).pc) = true ∧ pcSlot (c.slot k).pc < 4) →
    (m.pipesFree c (c.slot k) = true → m.tryAll ((id, k) :: more) = goOn c (c.slot k) m.order more
      (exec (decodeCrew (slotWordOf (c.slot k).line (pcSlot (c.slot k).pc))) { m with cur := cursorAt id k (c.slot k).line (c.slot k).pc })) ∧
    (m.pipesFree c (c.slot k) = false → m.tryAll ((id, k) :: more) = ({ m with heldMark := false, lastRaise := none, cur := Cursor.idle } : State).tryAll more)

/-- A slot at a new line fetches it first, checked when the PC is the entry of a launch; the instruction then issues with the line. -/
def FetchThenIssue : Prop :=
  ∀ (m : State) (id : Nat) (k : Bool) (more : List (Nat × Bool)) (c : Crew) (line : List Byte), m.crew? id = some c → Clear c →
    (c.slot k).line = [] → m.heldMark = false → m.lastRaise = none → line ≠ [] →
    m.checkTarget c.core c.asid (c.slot k).pc (c.slot k).mask c.lastEver.isNone = .ok line →
    ¬(linePair (lineWordOf line) (pcSlot (c.slot k).pc) = true ∧ pcSlot (c.slot k).pc < 4) →
    let va := pcLine (c.slot k).pc
    let p := { c.slot k with line := line }
    let d := c.setSlot k p
    let n := (m.setCrew d).noteLine c.core c.asid va line
    n.pipesFree d p = true → m.tryAll ((id, k) :: more) = goOn d p m.order more (exec (decodeCrew (slotWordOf line (pcSlot (c.slot k).pc))) { n with cur := cursorAt id k line (c.slot k).pc })

/-- R42, R364: a pair whose two instructions complete issues as one: the second after the first, its guards and sources read as they stood before it;
after an E instruction the region entry is the PC after both. -/
def PairIssue : Prop :=
  ∀ (m a b : State) (id : Nat) (k : Bool) (more : List (Nat × Bool)) (c : Crew), m.crew? id = some c → Clear c → (c.slot k).line ≠ [] →
    linePair (lineWordOf (c.slot k).line) (pcSlot (c.slot k).pc) = true → pcSlot (c.slot k).pc < 4 →
    let c0 := settle m c
    let one := cursorAt id k (c.slot k).line (c.slot k).pc
    let two := cursorAt id k (c.slot k).line (pcNext (c.slot k).pc)
    m.pipesFree c (c.slot k) = true → secondFree c0 (Hdr.ofWord one.word) (Hdr.ofWord two.word) = true →
    let c1 := { one with next := two.next }
    let c2 := { two with first := some (c.slot k).pc, snap := some { regs := c0.regs, flights := c0.flights, left := none } }
    exec (decodeCrew one.word) { m with cur := c1 } = .next a → a.heldMark = false → a.lastRaise = none →
    exec (decodeCrew two.word) { a with cur := c2 } = .next b → b.heldMark = false → b.lastRaise = none →
    m.tryAll ((id, k) :: more) = .next (((b.pairRegion c1 c2).tookPipes c (c.slot k)).afterIssue id m.order).endTurn

/-- R42, R59, R62: each operation has its pipe; a pipe of a quad that has accepted an instruction accepts the next one 4 cycles later for DP and SFU, 2 later for XL and 1
later otherwise, and no other pipe is concerned; of a pair that needs one pipe twice the second instruction is accepted after the first, and nothing else of
the crew issues before it. -/
def PipeIntervals : Prop :=
  (∀ op, op < 64 → pipeOf op = some .int ∧ pipeOf (64 + op) = some .int ∧ pipeOf (128 + op) = some .fma ∧
    pipeOf (192 + op) = some (if op < 32 then .fma else .int) ∧ pipeOf (256 + op) = some .dp ∧
    pipeOf (320 + op) = some (if op < 40 then .sfu else .int) ∧ pipeOf (384 + op) = some .xl ∧ pipeOf (448 + op) = some .br ∧
    pipeOf (512 + op) = some .ls ∧ pipeOf (576 + op) = some .ls ∧ pipeOf (640 + op) = some .eng ∧ pipeOf (704 + op) = some .fab ∧
    pipeOf (768 + op) = some .mx ∧ pipeOf (832 + op) = some .sys ∧ pipeOf (896 + op) = some .sys) ∧
  ∀ (s : State) (c : Crew) (p : PcSlot) (q : Pipe), c.core < s.cores.length → s.lastRaise = none →
    let n := if q = .dp ∨ q = .sfu then 4 else if q = .xl then 2 else 1
    let later := fun cyc : Nat => { s.tookPipes c p with cycle := cyc }
    (slotPipes p = [q] ∨ slotPipes p = [q, q] → ∀ core quad r, ¬(core = c.core ∧ quad = c.quad ∧ r = q) →
      (s.tookPipes c p).pipeHeld core quad r = s.pipeHeld core quad r) ∧
    (slotPipes p = [q] → ∀ cyc, (later cyc).pipeHeld c.core c.quad q = none ↔ s.cycle + n ≤ cyc) ∧
    (slotPipes p = [q, q] → ∀ cyc, ((later cyc).pipeHeld c.core c.quad q = none ↔ s.cycle + n + n ≤ cyc) ∧
      (cyc < s.cycle + n → ∀ x, (later cyc).pipesFree c x = false))

/-- A step of the package, by whose turn it is. The host's next write to its own memory may become visible once the accesses that it ordered before are
made (R410); then the units bring about one event or input, and now and then every event that they can (the model's
choice, log 3 and log 10). -/
def TurnSteps : Prop :=
  (∀ s : State, s.todo = [] → step s = .next s.tick) ∧
  (∀ (s : State) (core quad : Nat) (rest : List Agent), s.todo = .quad core quad :: rest →
    let m := ({ s with todo := rest }).refillQuad core quad
    step s = m.tryAll (m.issueOrder core quad)) ∧
  (∀ m : State, m.tryAll [] = .next m.endTurn) ∧
  (∀ (s : State) (port k : Nat) (rest : List Agent), s.todo = .cox port :: rest →
    let m := ({ s with todo := rest }).coxPick port
    (List.range 8).find? (fun i => (m.coxSlot port i).st == 2) = some k →
    step s = match exec (decodeCox ((m.cox port).word (m.coxSlot port k).pc)) { m with cur := { Cursor.idle with port := port, ctxSlot := k } } with
      | .next t => .next t.endTurn
      | .fault f => .fault f
      | .refused r => .refused r) ∧
  (∀ (s : State) (rest : List Agent), s.todo = .units :: rest →
    let m := State.hostStore { s with todo := rest }
    let took := fun (e : Instr) (inputs : List Instr) => { m with
      inputs := inputs, hostStores := if hostAccess e then m.hostStores.map (fun h => (h.1 - 1, h.2)) else m.hostStores }
    (m.allAct = false → step s = .next m ∨ (∃ e ∈ m.unitEvents, step s = exec e m) ∨
      ∃ e inputs, m.nextInput false m.inputs = some (e, inputs) ∧ step s = exec e (took e inputs)) ∧
    (m.allAct = true → m.nextInput false m.inputs = none → step s = State.allEvents m.unitEvents m) ∧
    (m.allAct = true → ∀ e inputs t, m.nextInput false m.inputs = some (e, inputs) → exec e (took e inputs) = .next t →
      step s = State.allEvents m.unitEvents t)) ∧
  (∀ m : State, m.hostStores = [] → m.hostStore = m) ∧
  (∀ (m : State) (h : Nat × Nat × List Byte) (rest : List (Nat × Nat × List Byte)), m.hostStores = h :: rest →
    let pa := h.2.1
    let put := ({ m with hostStores := rest } : State).writePa pa h.2.2
    (h.1 ≠ 0 → m.hostStore = m) ∧
    (h.1 = 0 → m.paKind pa = .host → m.paKind (pa + h.2.2.length - 1) = .host → (m.hostStore = m ∨ m.hostStore = put) ∧ (m.allAct = true → m.hostStore = put))) ∧
  (∀ m : State, State.allEvents [] m = .next m) ∧
  ∀ (e : Instr) (es : List Instr) (m t : State), exec e m = .next t → State.allEvents (e :: es) m = State.allEvents es t

/-- Place of a crew among those that may issue in a cycle (R262): class, a demoted crew last, then the cycle of its last issue, a crew that has
never issued first. -/
def Before (s : State) (c d : Crew) : Prop :=
  let cls := fun (x : Crew) => if x.demote ≠ 0 then 4 else match s.block? x.blk with
    | some b => b.cls
    | none => 3
  let last : Crew → Int := fun x => match x.lastEver with
    | none => -1
    | some p => p
  cls c < cls d ∨ (cls c = cls d ∧ last c ≤ last d)

/-- R262, R385: a quad tries every ready slot of its crews that may issue, and every slot to which a queued trap is due, and no other: crews in the order
`Before`, within a crew the slot that issued less recently first. -/
def IssueOrder : Prop :=
  ∀ (s : State) (core quad : Nat), (s.crews.map (fun c => c.id)).Nodup →
    (∀ id k, (id, k) ∈ s.issueOrder core quad ↔
      ∃ c ∈ s.crews, c.id = id ∧ c.core = core ∧ c.quad = quad ∧ s.runnable c = true ∧ ((c.slot k).ready = true ∨ c.awaits k = true)) ∧
    (s.issueOrder core quad).Pairwise (fun p q => ∀ c d, s.crew? p.1 = some c → s.crew? q.1 = some d →
      if p.1 = q.1 then (c.slot p.2).issuedAt ≤ (c.slot q.2).issuedAt ∧ p.2 ≠ q.2 else Before s c d)

/-- R46, R58: an instruction that STALL, WAIT or SETF holds back is not issued; then the checks of issue are made in their order, and the first that
fails is raised with nothing else done: ILLFIELD for its fields, QUEUE for its queues. -/
def Checked (i : Instr) (s : State) (c : Crew) (sp : Spec) (bad : Crew → Bool) : Prop :=
  s.opening.issuer? = some c →
    (mayIssue s.opening c sp.h = false → exec i s = .next { s.opening with heldMark := true }) ∧
    (mayIssue s.opening c sp.h = true →
      ((specBad sp c.n = true ∨ bad (seenCrew s.opening c) = true) → exec i s = .next (s.opening.takeCause illField)) ∧
      (specBad sp c.n = false → bad (seenCrew s.opening c) = false → ∀ q, queueFault c.queues sp.srcs sp.dsts = some q →
        exec i s = .next (s.opening.takeCause (queueCause q (c.queues.getD q 0#32)))))

/-- The checks of issue for the integer, logic and packed instructions of format R. -/
def RowChecks : Prop :=
  ∀ r ∈ integerRows ++ bitwiseRows ++ shiftRows ++ bitFieldRows ++ packedRows, ∀ (f : FormR) (s : State) (c : Crew),
    Checked (r.instr f) s c (r.spec f) (r.use.bad f)

/-- R58: a privileged instruction issued from the user view raises PRIV, whatever its fields hold. -/
def PrivilegedInUserView : Prop :=
  ∀ (f : FormS) (s : State) (c : Crew),
    ∀ i ∈ [Instr.getsp f, Instr.setsp f, Instr.icinv f, Instr.cwb f, Instr.cinv f, Instr.tlbinvVa f, Instr.tlbinvAsid f, Instr.tlbinvAll f, Instr.sigh f],
      s.opening.issuer? = some c → mayIssue s.opening c f.h = true → c.priv ≠ 2 →
      exec i s = .next (s.opening.takeCause { sysCause 0x17 0 0 0#64 0#64 with atIssue := true })

/-- R58, R381: a word whose OPC is unassigned raises ILLOP with OPC as information. -/
def UnassignedOperation : Prop :=
  ∀ (opc : BitVec 10) (rest : BitVec 86) (s : State) (c : Crew), s.opening.issuer? = some c → mayIssue s.opening c (Hdr.ofWord (opc ++ rest)) = true →
    exec (.illop opc rest) s = .next (s.opening.takeCause { sysCause 0x01 0 opc.toNat 0#64 0#64 with atIssue := true })

/-- The record of a crew (R389, R390): KIND 0, the queue it goes to, its body of 64 bytes field by field. -/
structure CrewRecord (s : State) (c : Crew) (x : Cause) (dbl : Bool) (h : Held) : Prop where
  frame : h.kind = 0 ∧ h.ctx = c.ctx ∧ h.rasid.toNat = c.asid % 2 ^ 32 ∧ h.flg.toNat = (dbl.toNat + 2 * c.gates.length) % 2 ^ 32 ∧ h.crew = some c.id
  queue : h.fq = if c.callee then domQueue (decodeDom c.dent) else
    let e := s.ctxDesc c.ctx
    { fqva := e.fqva, fqlog := e.fqlog, asid := e.asid, msie := e.msie, msiv := e.msiv }
  size : h.body.length = 64
  cause : leNat (h.body.take 4) = x.info % 65536 * 65536 + x.sub % 256 * 256 + x.code % 256
  regc : leNat ((h.body.drop 4).take 4) = c.regc.toNat
  lanes : leNat ((h.body.drop 8).take 8) = (if x.mask = 0#64 then (c.slot s.cur.slot).mask else x.mask).toNat
  val : leNat ((h.body.drop 16).take 8) = x.val.toNat
  pc : leNat ((h.body.drop 24).take 8) = s.cur.pc.toNat
  region : leNat ((h.body.drop 32).take 8) = (c.slot s.cur.slot).region.toNat
  word : leNat ((h.body.drop 40).take 12) = s.cur.word.toNat
  slot : leNat ((h.body.drop 52).take 4) = s.cur.slot.toNat
  zero : leNat ((h.body.drop 56).take 8) = 0

/-- Crew `c` has stalled on cause `x` (R381, R390): its instructions in flight have ended or been dropped, its flags are clear, its record has been
posted or is held; every other crew is as it was. -/
def Stalls (s : State) (c : Crew) (x : Cause) (dbl : Bool) (t : State) : Prop :=
  ∃ (h : Held) (e c' : Crew) (m : State), e = stopFlights s c ∧ CrewRecord s e x dbl h ∧
    m.crews = s.crews.map (fun y => if y.id == c.id then e else y) ∧ m.mem = s.mem ∧ m.held = s.held ∧ m.mgmt = s.mgmt ∧
    c' = { e with stall := some { queue := if c.callee then c.dom else 0, seq := (m.postRecord h).2, step := false, cause := x.code,
                                  key := if x.code = 0x18 then some x.info else none } } ∧
    t = { (m.postRecord h).1 with crews := s.crews.map (fun y => if y.id == c.id then c' else y) }

/-- R220, R381, R384, R385: a system cause stalls the crew, as BREAK does under BRKSYS; so does a crew-level cause of the slot in service (a double fault, DBL set), one that finds eight
entries or no handler. Any other is entered in the trap queue: behind the trap in service, or delivered at once when there is none. -/
def CauseTaken : Prop :=
  ∀ (s : State) (c : Crew) (x : Cause), s.cur.crew = some c.id → s.crew? c.id = some c → (s.crews.map (fun y => y.id)).Nodup → c.gates.length ≤ 7 →
    let brk := x.code = 0x15 ∧ (s.ctxDesc c.ctx).brksys = true
    let k := s.cur.slot
    let e : TrapEntry := { cause := x.word, slot := k, val := x.val, ret := if x.next then s.cur.next else s.cur.first.getD s.cur.pc,
                           after := s.cur.next, mask := (c.slot k).mask }
    (x.crew = false ∨ brk → Stalls { s with lastRaise := some x } c x false (s.takeCause x)) ∧
    (x.crew = true → ¬brk → c.insvc = true → c.svcSlot = k → Stalls { s with lastRaise := some x } c x true (s.takeCause x)) ∧
    (x.crew = true → ¬brk → ¬(c.insvc = true ∧ c.svcSlot = k) → (8 ≤ c.trapq.length ∨ s.tvecOf c = 0#64) →
      Stalls { s with lastRaise := some x } c x false (s.takeCause x)) ∧
    (x.crew = true → ¬brk → c.insvc = true → c.svcSlot ≠ k → c.trapq.length < 8 → s.tvecOf c ≠ 0#64 →
      s.takeCause x = { s with
        lastRaise := some x,
        crews := s.crews.map (fun y => if y.id == c.id then { c.setSlot k { c.slot k with trapped := true } with trapq := c.trapq ++ [e] } else y) }) ∧
    (x.crew = true → ¬brk → c.insvc = false → c.trapq = [] → ∀ line, s.tvecOf c ≠ 0#64 →
      s.checkTarget c.core c.asid (s.tvecOf c) (c.slot k).mask true = .ok line → (c.slot k).trapped = false →
      Entered s c k x e.ret e.after (s.tvecOf c) (s.takeCause x))

/-- R330, R388, R389: a record posted to a queue that is not full: the frame of 32 bytes, the body and zeros make an entry of 512 bytes at index PROD mod
2^FQLOG; after it PROD goes up by one, and the record number is the new PROD; the body of a cox repeats the TIME of the frame. A queue with PROD − CONS =
2^FQLOG takes nothing; where the entry or PROD cannot be written, the answer tells at which address. -/
def RecordPosted : Prop :=
  ∀ (s : State) (h : Held) (cb : List Byte), h.body.length ≤ 480 → (h.kind = 3 → 32 ≤ h.body.length) → cb.length = 12 →
    s.readVa h.fq.asid 0 { r := true, w := true, x := false, space := 0 } 2 h.fq.fqva 12 = .ok cb →
    let prod := leNat (cb.take 4)
    let cons := leNat ((cb.drop 4).take 4)
    let body := if h.kind = 3 then h.body.take 24 ++ leBytes 8 s.clock.toNat ++ h.body.drop 32 else h.body
    let at0 := (h.fq.fqva + 512 + 512 * (prod % 2 ^ h.fq.fqlog)) % 2 ^ 64
    ((prod + 2 ^ 32 - cons) % 2 ^ 32 = 2 ^ h.fq.fqlog → s.tryPost h = (s, none, none)) ∧
    ((prod + 2 ^ 32 - cons) % 2 ^ 32 ≠ 2 ^ h.fq.fqlog → ∃ entry : List Byte,
      (entry.length = 512 ∧ leNat (entry.take 2) = h.kind % 65536 ∧ leNat ((entry.drop 2).take 2) = (h.body.length + h.kind / 65536) % 65536 ∧
        leNat ((entry.drop 4).take 4) = (prod + 1) % 2 ^ 32 ∧ leNat ((entry.drop 8).take 4) = h.ctx % 2 ^ 32 ∧
        leNat ((entry.drop 12).take 4) = h.src.toNat ∧ leNat ((entry.drop 16).take 8) = s.clock.toNat ∧
        leNat ((entry.drop 24).take 4) = h.rasid.toNat ∧ leNat ((entry.drop 28).take 4) = h.flg.toNat ∧
        (entry.drop 32).take h.body.length = body ∧ ∀ b ∈ entry.drop (32 + h.body.length), b = 0#8) ∧
      (s.writeVa h.fq.asid 0 3 at0 entry = none → s.tryPost h = (s, none, some at0)) ∧
      ∀ s1, s.writeVa h.fq.asid 0 3 at0 entry = some s1 →
        (s1.release.writeVa h.fq.asid 0 2 h.fq.fqva (leBytes 4 ((prod + 1) % 2 ^ 32)) = none → s.tryPost h = (s, none, some h.fq.fqva)) ∧
        ∀ s2, s1.release.writeVa h.fq.asid 0 2 h.fq.fqva (leBytes 4 ((prod + 1) % 2 ^ 32)) = some s2 →
          let msi := if h.dom then (h.fq.msie, h.fq.msiv) else ((s.ctxDesc h.num).msie, (s.ctxDesc h.num).msiv)
          s.tryPost h = (if msi.1 then s2.release.postMsix msi.2 else s2.release, some ((prod + 1) % 2 ^ 32), none))

/-- What the host reads of the management window after reset where the specification gives a reset value. -/
def resetRegisters : List (Nat × Nat) :=
  [(0x10, 0), (0x48, 4096), (0x60, 0), (0x300000, 0), (0x300008, 0x00400000), (0x300480, 0), (0x3007F4, 0x00010000),
   (0x300C00, 10 * 65536 + 1600), (0x300C04, 100 * 256 + 95),
   (0x380000, 0), (0x380004, 0), (0x380008, 0), (0x40, 0), (0x44, 0)]

/-- R288, R301 to R304, R415, R417, R418, R423, R428, R435, R440 to R445, R450, R452: the registers of the management window read their reset values;
R31, R426, R429: CLOCK is 0, FM is 64 zero bytes, and no key-domain but 0 is open. That SMSTAT stands at 0x38_0008 is the model's choice (log 13). -/
def ResetValues : Prop :=
  let s := State.reset
  (∀ p ∈ resetRegisters, s.read32 p.1 = p.2) ∧
  (∀ g w, g < 256 → w < 16 → s.read32 (0x20000 + 64 * g + 4 * w) = 0) ∧
  (∀ k, k < 8 → s.read32 (0x30000 + 256 * k + 0xA0) = 0 ∧ s.read32 (0x30000 + 256 * k + 0xA4) = 0) ∧
  (∀ p, p < 32 → s.read32 (0x300100 + 8 * p) = 0 ∧ s.read32 (0x300104 + 8 * p) = 0 ∧
    s.read32 (0x381000 + 16 * p) = 0 ∧ s.read32 (0x381008 + 16 * p) = 0 ∧ s.read32 (0x38100C + 16 * p) = 0 ∧
    (∀ i, i < 16 → s.read32 (0x108000 + 0x10000 * p + 4 * i) = 0) ∧
    (∀ k, k < 8 → ∀ r ∈ [4, 8, 12, 16], s.read32 (0x109000 + 0x10000 * p + 512 * k + r) = 0)) ∧
  s.clock = 0#64 ∧ s.secp.fm = List.replicate 64 0#8 ∧ (∀ d, 0 < d → d < 256 → ∃ k, s.kds[d]? = some k ∧ k.st = 0)

/-- No guard. -/
def g0 : Guard := ⟨0#3, 0#5, 0#1⟩
/-- A header without STALL or WAIT. -/
def hd (setf : BitVec 4) : Hdr := ⟨0#4, 0#12, setf, 0#2⟩

end Sys2Proof.Claims

open Sys2Proof Sys2Proof.Machine Sys2Proof.Claims

/-- R108: iaddi.i64 adds the sign-extended immediate to a pair. -/
def Sys2Proof.Claims.WideImmediate : Prop :=
  ∀ (f : FormI) (s : State) (c : Crew),
    let sp := specI f [grp f.a 2] [grp f.d 2] (.fixed 2)
    let x := s.view c sp
    let v := fun l => x.wide s.opening f.a .i64 l + f.imm.signExtend 64
    Issues s c sp (fun _ => f.sub ≠ 0#7) → Steady s c →
    Answers (exec (.iaddiI64 f) s) (fun t => Completed s s.opening t (s.issuing c sp) sp
      [Wr.full (x.d 0) x.act (fun l => BitVec.ofNat 32 (v l).toNat), Wr.full (x.d 0 + 1) x.act (fun l => BitVec.ofNat 32 ((v l).toNat / 2 ^ 32))])

/-- R106 to R110, R115: the forms with a 64-bit result and the forms with an immediate complete and write the result of their row. -/
def Obligations.PairAndImmediateResults : Prop :=
  (∀ r ∈ pairRows, r.Holds) ∧
  (∀ r ∈ immediateRows, r.Holds) ∧
  WideImmediate

/-- R105: each lane writes the low word of the sum to D and the carry to E; a difference writes its borrow to E. -/
def Sys2Proof.Claims.CarryFormsWriteSumAndCarry : Prop :=
  ∀ (f : FormX) (s : State) (c : Crew), Issues s c (carrySpec f) (fun _ => f.rsv ≠ 0#6 || f.d == f.e) → Steady s c →
    let x := s.view c (carrySpec f)
    let a := fun l => (srcWord x s.opening f.a l).toNat
    let b := fun l => (srcWord x s.opening f.b l).toNat
    let cin := fun l => (srcWord x s.opening f.c l).toNat % 2
    Answers (exec (.iaddcI32 f) s) (fun t => Completed s s.opening t (s.issuing c (carrySpec f)) (carrySpec f)
      [Wr.full (x.d 0) x.act (fun l => BitVec.ofNat 32 (a l + b l + cin l)),
       Wr.full (x.d 1) x.act (fun l => if 2 ^ 32 ≤ a l + b l + cin l then 1#32 else 0#32)]) ∧
    Answers (exec (.isubbI32 f) s) (fun t => Completed s s.opening t (s.issuing c (carrySpec f)) (carrySpec f)
      [Wr.full (x.d 0) x.act (fun l => BitVec.ofInt 32 ((a l : Int) - b l - cin l)),
       Wr.full (x.d 1) x.act (fun l => if a l < b l + cin l then 1#32 else 0#32)])

/-- R104, R105, R117, R118: every integer form, carry form and packed form completes and writes the result of its row. -/
def Obligations.IntegerResults : Prop :=
  (∀ r ∈ integerRows, r.Holds) ∧
  CarryFormsWriteSumAndCarry ∧
  (∀ r ∈ packedRows, r.Holds)

/-- R112: bits pos to pos + len - 1 of a are replaced by the low bits of b. -/
def Sys2Proof.Claims.BitFieldInsert : Prop :=
  ∀ (f : FormX) (s : State) (c : Crew), Issues s c (bfiSpec f) (fun _ => f.rsv ≠ 0#6) → Steady s c →
    let x := s.view c (bfiSpec f)
    Answers (exec (.bfiB32 f) s) (fun t => Completed s s.opening t (s.issuing c (bfiSpec f)) (bfiSpec f)
      [Wr.full (x.d 0) x.act (fun l =>
        let pos := (srcWord x s.opening f.c l).toNat % 256
        let len := min ((srcWord x s.opening f.e l).toNat % 256) 32
        wordOfBits (fun i => if pos ≤ i ∧ i < pos + len then (srcWord x s.opening f.b l).getLsbD (i - pos) else (srcWord x s.opening f.a l).getLsbD i))])

/-- R109 to R115: bitwise forms, moves, shifts, bit fields and the bit-field insert complete and write the result of their row. -/
def Obligations.BitResults : Prop :=
  (∀ r ∈ bitwiseRows, r.Holds) ∧
  (∀ r ∈ shiftRows, r.Holds) ∧
  (∀ r ∈ bitFieldRows, r.Holds) ∧
  BitFieldInsert

/-- R116: the compares complete and write one bit of their guard register; their fields are checked first. -/
def Obligations.CompareWritesGuardBit : Prop :=
  ∀ r ∈ compareRows, r.Holds ∧ ∀ (f : FormI) (s : State) (c : Crew), Checked (r.instr f) s c (cmpSpec f) (fun _ => cmpBad f)

/-- R119, R120, R18: qdef defines an empty queue over an admitted window and raises QUEUE otherwise, with every queue unchanged; qfree
clears QSTATE. Both act once whatever `act` holds. -/
def Obligations.QueueDefinition : Prop :=
  ∀ (f : FormI) (s : State) (c : Crew),
    let sp := specI f [] [] (.fixed 2)
    let q := f.sub.toNat % 8
    let e := s.issuing c sp
    let named := fun qs : List Word => { e.setSlot s.cur.slot { e.slot s.cur.slot with qnamed := some s.order } with queues := qs }
    let base := f.d.toNat
    let len := f.imm.toNat % 16 + 1
    let admitted := base + len ≤ c.n - 8 ∧ ∀ j, j < 8 → j ≠ q → ∀ r, base ≤ r → r < base + len → qHas (c.queues.getD j 0#32) r = false
    let badDef := fun _ : Crew => f.ga ≠ Guard.none || f.a ≠ 0#8 || f.imm.toNat / 16 ≠ 0 || f.sub.toNat / 8 ≠ 0
    let badFree := fun _ : Crew => f.ga ≠ Guard.none || f.a ≠ 0#8 || f.d ≠ 0#8 || f.imm ≠ 0#32 || f.sub.toNat / 8 ≠ 0
    Checked (.qdef f) s c sp badDef ∧ Checked (.qfree f) s c sp badFree ∧
    (Steady s c → Issues s c sp badDef →
      (admitted → Answers (exec (.qdef f) s) (fun t => Completed s s.opening t
        (named (c.queues.set q (BitVec.ofNat 32 (2 ^ 31 + (len - 1) * 2 ^ 8 + base)))) sp [])) ∧
      (¬ admitted → exec (.qdef f) s = .next (s.opening.takeCause (queueCause q (c.queues.getD q 0#32))))) ∧
    (Steady s c → Issues s c sp badFree →
      Answers (exec (.qfree f) s) (fun t => Completed s s.opening t (named (c.queues.set q 0#32)) sp []))

/-- R126: the immediate forms take an FP32 code from IMM32. -/
def Sys2Proof.Claims.FloatImmediateResults : Prop :=
  ∀ f : FormI, let sp : Spec := { specI f [one f.a] [one f.d] (.fixed 4) with fpx := true }
    let lane := fun (op : FOp) (x : Ctx) (s : State) (l : Nat) =>
      let y := op x.c.mode (srcWord x s f.a l).toNat f.imm.toNat 0
      ({ w := [BitVec.ofNat 32 y.1], fl := y.2, rng := rowAt x.c.rng l } : LaneRes)
    FpCompletes (.fmuliF32 f) sp (fun _ => f.sub ≠ 0#7) (fun x => [x.d 0]) 0xFFFFFFFF#32 (lane (opMul .f32)) ∧
    FpCompletes (.faddiF32 f) sp (fun _ => f.sub ≠ 0#7) (fun x => [x.d 0]) 0xFFFFFFFF#32 (lane (opAdd .f32))

/-- R124 to R130: floating-point arithmetic, its immediate forms, classification and comparison complete with the result of their row. -/
def Obligations.FloatResults : Prop :=
  (∀ r ∈ floatRows, r.Holds) ∧
  FloatImmediateResults ∧
  (∀ r ∈ classRows, r.Holds) ∧
  (∀ r ∈ floatCompareRows, r.Holds)

/-- R131, R132: every special function completes with the value of its row, rounded as the row says. -/
def Obligations.SpecialFunctionResults : Prop :=
  (∀ r ∈ rootRows, r.Holds) ∧
  ∀ p ∈ functionRows, ∀ f : FormR, FpCompletes (p.1 f) { specR f (use1 .f32) [one f.d] (.fixed 12) with fpx := true } ((use1 .f32).bad f)
    (fun x => [x.d 0]) 0xFFFFFFFF#32 (functionLane p.2 f)

/-- R133 to R136: conversions, packs and unpacks complete, drawing once for each conversion that rounds stochastically. -/
def Sys2Proof.Claims.ConversionResults : Prop :=
  (∀ f : FormI, FpCompletes (.cvt f) (cvtSpec f) (fun _ => f.sub ≠ 0#7 || (CvtImm.of f.imm).bad false)
      (fun x => if (CvtImm.of f.imm).dst.width = 64 then [x.d 0, x.d 0 + 1] else [x.d 0]) 0xFFFFFFFF#32 (cvtLane f false) ∧
    FpCompletes (.cvtSr f) (cvtSpec f) (fun _ => f.sub ≠ 0#7 || (CvtImm.of f.imm).bad true)
      (fun x => if (CvtImm.of f.imm).dst.width = 64 then [x.d 0, x.d 0 + 1] else [x.d 0]) 0xFFFFFFFF#32 (cvtLane f true)) ∧
  (∀ r ∈ packRows, ∀ f : FormX, FpCompletes (r.instr f) (r.spec f) (fun _ => f.rsv ≠ 0#6) (fun x => [x.d 0]) 0xFFFFFFFF#32 (r.lane f)) ∧
  ∀ r ∈ unpackRows, ∀ f : FormR, FpCompletes (r.instr f) (r.spec f) ((use1 r.ty).bad f) (fun x => (List.range r.n).map (fun i => x.d 0 + i))
    0xFFFFFFFF#32 (r.lane f)

/-- R137 to R139: block quantisation with a valid control word in every segment, and dequantisation with one in every lane. -/
def Sys2Proof.Claims.BlockQuantisation : Prop :=
  (∀ (f : FormR) (s : State) (c : Crew),
    let sp : Spec := { specR f useQ [grp f.d 2] (.fixed 14) with fpx := true }
    let x := s.view c sp
    Issues s c sp (fun c => useQ.bad f c || (!c.perm && bitsOf f.md.toNat 7 4 ≠ 0)) → Steady s c →
    (x.act = 0#64 ∨ (3 ≤ (x.opB s.opening useQ f x.l0).toNat / 16 % 8 ∧ (x.opB s.opening useQ f x.l0).toNat / 16 % 8 ≤ 6)) →
    (∀ l, l < 64 → x.act.getLsbD l → qctlBad (qblkWord f x s.opening l) = false) → NoFpx x (qblkRes f x s.opening) →
    Answers (exec (.qblk f) s) (fun t => Completed s s.opening t (fpCrew (s.issuing c sp) x.act (qblkRes f x s.opening)) sp
      (fpWrites [x.d 0, x.d 0 + 1] x.act 0xFFFFFFFF#32 (qblkRes f x s.opening)))) ∧
  ∀ (f : FormR) (s : State) (c : Crew),
    let sp : Spec := { specR f useDq [one f.d] (.fixed 14) with fpx := true }
    let x := s.view c sp
    Issues s c sp (fun c => useDq.bad f c || (!c.perm && f.md ≠ 0#12)) → Steady s c →
    (∀ l, l < 64 → x.act.getLsbD l → qctlBad (x.opC s.opening useDq f l).toNat = false) → NoFpx x (dqblkRes f x s.opening) →
    Answers (exec (.dqblk f) s) (fun t => Completed s s.opening t (fpCrew (s.issuing c sp) x.act (dqblkRes f x s.opening)) sp
      (fpWrites [x.d 0] x.act 0xFFFFFFFF#32 (dqblkRes f x s.opening)))

/-- R133 to R139: conversions, packs, unpacks and the block conversions complete. -/
def Obligations.ConversionAndBlockResults : Prop :=
  ConversionResults ∧
  BlockQuantisation

/-- R140, R141: rngnext writes the low 16 bits of the state after one draw; rngseed seeds lane l with a + l * b. -/
def Obligations.GeneratorInstructions : Prop :=
  (∀ (f : FormR) (s : State) (c : Crew),
    let sp := specR f ⟨none, none, none⟩ [one f.d] (.fixed 2)
    let x := s.view c sp
    Checked (.rngnext f) s c sp (RUse.bad ⟨none, none, none⟩ f) ∧ (Issues s c sp (RUse.bad ⟨none, none, none⟩ f) → Steady s c →
    Answers (exec (.rngnext f) s) (fun t => ∃ rng, Completed s s.opening t { s.issuing c sp with rng := rng } sp
        [Wr.full (x.d 0) x.act (fun l => BitVec.ofNat 32 ((rngDraw (rowAt x.c.rng l)).toNat % 2 ^ 16))] ∧
      ∀ l, l < 64 → rowAt rng l = if x.act.getLsbD l then rngDraw (rowAt x.c.rng l) else rowAt x.c.rng l))) ∧
  ∀ (f : FormR) (s : State) (c : Crew),
    let u : RUse := ⟨some .b32, some .b32, none⟩
    let sp := specR f u [] (.fixed 2)
    let x := s.view c sp
    let bad := fun c => u.bad f c || (!c.perm && bitsOf f.md.toNat 11 4 ≠ 0) || f.d ≠ 0#8
    Checked (.rngseed f) s c sp bad ∧ (Issues s c sp bad → Steady s c →
    Answers (exec (.rngseed f) s) (fun t => ∃ rng, Completed s s.opening t { s.issuing c sp with rng := rng } sp [] ∧
      ∀ l, l < 64 → rowAt rng l =
        if x.act.getLsbD l then BitVec.ofNat 32 ((x.opA s.opening u f l).toNat + l * (x.opB s.opening u f l).toNat) else rowAt x.c.rng l))

/-- R145. -/
def Sys2Proof.Claims.ButterflyResults : Prop :=
  ∀ (f : FormI) (s : State) (c : Crew), Issues s c (bflySpec f) (fun _ => bflyBad f) → Steady s c →
    let x := s.view c (bflySpec f)
    (f.sub.getLsbD 6 = true ∨ ∀ l, l < 64 → x.act.getLsbD l → x.act.getLsbD (l ^^^ distance f)) →
    Answers (exec (.bfly f) s) (fun t => Completed s s.opening t (s.issuing c (bflySpec f)) (bflySpec f)
      ((List.range (2 ^ (f.imm.toNat % 8))).map (fun j => Wr.full (x.d 0 + j) x.act (bflyWord f x s.opening j))))

/-- R142 to R145: point reads and butterflies give each lane the value of its source lane. -/
def Sys2Proof.Claims.LaneReads : Prop :=
  (∀ r ∈ pointRows, r.Holds) ∧
  ButterflyResults

/-- R142 to R145: every point read and the butterfly complete under Z = 1, whatever lanes act; xlane.rot, xbcast and bfly, whose source lane is always in
the segment, complete under Z = 0 too where every lane acts. -/
def Sys2Proof.Claims.LaneReadsComplete : Prop :=
  ∀ (f : FormI) (s : State) (c : Crew), Steady s c →
    let one1 : Spec := specI f [one f.a] [one f.d] (.fixed 6)
    let idx : Spec := specI f [one f.a, ⟨f.imm.toNat % 2 ^ 8, 1⟩] [one f.d] (.fixed 6)
    let imm := XlImm.of f.imm
    let all := fun sp : Spec => f.sub.getLsbD 6 = true ∨ (s.view c sp).act = BitVec.allOnes 64
    (Issues s c one1 (fun _ => xlBad f true || imm.bad true false) → all one1 → Answers (exec (.xlaneRot f) s) (GoneOn s c)) ∧
    (Issues s c one1 (fun _ => xlBad f true || imm.bad false false) → f.sub.getLsbD 6 = true → Answers (exec (.xlaneShup f) s) (GoneOn s c)) ∧
    (Issues s c one1 (fun _ => xlBad f true || imm.bad false false) → f.sub.getLsbD 6 = true → Answers (exec (.xlaneShdn f) s) (GoneOn s c)) ∧
    (Issues s c idx (fun _ => xlBad f true || imm.bad false true) → f.sub.getLsbD 6 = true → Answers (exec (.xlaneIdx f) s) (GoneOn s c)) ∧
    (Issues s c one1 (fun _ => xlBad f true || (imm.bad false false || decide (segSize f ≤ distance f))) → all one1 →
      Answers (exec (.xbcast f) s) (GoneOn s c)) ∧
    (Issues s c (bflySpec f) (fun _ => bflyBad f) → all (bflySpec f) → Answers (exec (.bfly f) s) (GoneOn s c))

/-- R143, R381: a point read whose Z is 0 and some of whose lanes have no source raises XLANE with those lanes, and writes nothing. -/
def Sys2Proof.Claims.MissingSourceTraps : Prop :=
  ∀ r ∈ pointRows, ∀ (f : FormI) (s : State) (c : Crew), Issues s c (r.spec f) (fun _ => xlBad f true || r.bad f) →
    let x := s.view c (r.spec f)
    let miss := mkMask (fun l => x.act.getLsbD l && (r.from f x s.opening l).isNone)
    f.sub.getLsbD 6 = false → miss ≠ 0#64 →
    Raises (r.instr f) s c (r.spec f) (crewCause 0x05 0 0 miss miss false) id

/-- R145, R381: so does a butterfly of any group size, whose lanes have their source in the lane at the distance. -/
def Sys2Proof.Claims.MissingPartnerTraps : Prop :=
  ∀ (f : FormI) (s : State) (c : Crew), Issues s c (bflySpec f) (fun _ => bflyBad f) →
    let x := s.view c (bflySpec f)
    let miss := mkMask (fun l => x.act.getLsbD l && !x.act.getLsbD (l ^^^ distance f))
    f.sub.getLsbD 6 = false → miss ≠ 0#64 →
    Raises (.bfly f) s c (bflySpec f) (crewCause 0x05 0 0 miss miss false) id

/-- R142 to R145, R381: each lane receives the value of its source lane, and the instruction completes where every lane has one or Z is 1; with Z 0 a
missing source raises XLANE. -/
def Obligations.CrossLaneReads : Prop :=
  LaneReads ∧ LaneReadsComplete ∧ MissingSourceTraps ∧ MissingPartnerTraps

/-- R146: FP32 reductions and scans. -/
def Sys2Proof.Claims.FloatReductionResults : Prop :=
  ∀ p ∈ floatReductionRows, ∀ f : FormI, FpCompletes (p.1 f) { specI f [one f.a] [one f.d] (.fixed 14) with fpx := true } (fun _ => xlBad f false || f.imm ≠ 0#32)
    (fun x => [x.d 0]) 0xFFFFFFFF#32 (floatReductionLane p.2.1 p.2.2 f)

/-- R146: reductions and scans of integers and of FP32 values. -/
def Obligations.ReductionResults : Prop :=
  (∀ r ∈ reductionRows, r.Holds) ∧
  FloatReductionResults

/-- R147: ballot and match write the mask of the segment's lanes that vote, any and all write one bit of a guard register. -/
def Sys2Proof.Claims.VoteResults : Prop :=
  ∀ (f : FormI) (s : State) (c : Crew), Steady s c →
    (Issues s c (maskSpec f) (fun _ => xlBad f false || f.imm.toNat / 32 ≠ 0) →
      let x := s.view c (maskSpec f)
      let m := fun l => mkMask (fun k => (segLanes f x.act l).contains k && (srcWord x s.opening f.a k).getLsbD (f.imm.toNat % 32))
      Answers (exec (.ballot f) s) (fun t => Completed s s.opening t (s.issuing c (maskSpec f)) (maskSpec f)
        [Wr.full (x.d 0) x.act (fun l => (maskWords (m l)).1), Wr.full (x.d 0 + 1) x.act (fun l => (maskWords (m l)).2)])) ∧
    (Issues s c (maskSpec f) (fun _ => xlBad f false || f.imm ≠ 0#32) →
      let x := s.view c (maskSpec f)
      let m := fun l => mkMask (fun k => (segLanes f x.act l).contains k && srcWord x s.opening f.a k == srcWord x s.opening f.a l)
      Answers (exec (.matchLanes f) s) (fun t => Completed s s.opening t (s.issuing c (maskSpec f)) (maskSpec f)
        [Wr.full (x.d 0) x.act (fun l => (maskWords (m l)).1), Wr.full (x.d 0 + 1) x.act (fun l => (maskWords (m l)).2)])) ∧
    (Issues s c (voteSpec f) (fun _ => voteBad f) →
      let x := s.view c (voteSpec f)
      let bit := f.imm.toNat / 2 ^ 8 % 32
      let votes := fun l => (segLanes f x.act l).map (fun k => (srcWord x s.opening f.a k).getLsbD (f.imm.toNat % 32))
      let wr := fun (t : Nat → Bool) => [{ reg := f.d.toNat, row := mkRow (fun l => if t l then 1#32 <<< bit else 0#32), mask := x.act, bits := 1#32 <<< bit : Wr }]
      Answers (exec (.any f) s) (fun t => Completed s s.opening t (s.issuing c (voteSpec f)) (voteSpec f) (wr (fun l => (votes l).contains true))) ∧
      Answers (exec (.all f) s) (fun t => Completed s s.opening t (s.issuing c (voteSpec f)) (voteSpec f) (wr (fun l => !(votes l).contains false))))

/-- R148: the first k values of each segment in rank order, with their lane offsets; missing ranks are the least value and all ones. -/
def Sys2Proof.Claims.TopkResults : Prop :=
  ∀ (f : FormI) (s : State) (c : Crew), Issues s c (topkSpec f) (fun _ => topkBad f) → Steady s c →
    let x := s.view c (topkSpec f)
    let k := f.imm.toNat / 2 ^ 8 % 16
    Answers (exec (.topk f) s) (fun t => Completed s s.opening t (s.issuing c (topkSpec f)) (topkSpec f)
      ((List.range k).map (fun i => Wr.full (x.d 0 + i) x.act (fun l => match rankedLane f x s.opening l i with
          | some j => srcWord x s.opening f.a j
          | none => if f.imm.getLsbD 12 then 0x80000000#32 else 0xFF800000#32)) ++
        (List.range k).map (fun i => Wr.full (f.imm.toNat % 256 + i) x.act (fun l => match rankedLane f x s.opening l i with
          | some j => BitVec.ofNat 32 (j % segSize f)
          | none => 0xFFFFFFFF#32))))

/-- R147, R148: votes give the masks of the lanes of a segment that vote; topk gives the first k values of a segment in rank order. -/
def Obligations.VoteAndTopkResults : Prop :=
  VoteResults ∧
  TopkResults

/-- R153, R154: brx, ret and callx move each lane to its own target, grouped by target; lanes that share one target move as in a direct
transfer. The link of callx is written after its targets are read. -/
def Sys2Proof.Claims.IndirectTransfers : Prop :=
  (∀ (f : FormB) (s m : State) (c : Crew) (i : FormB → Instr), i = .brx ∨ i = .ret →
    let sp := specB f [grp f.a 2] [] .none
    let x := s.view c sp
    Issues s c sp (fun c => tgtUsed f || f.sub ≠ 0#13 || ctlQueueBad c f.a.toNat 2) →
    transferEach x (s.issued c sp) x.act (pairTargets x s.opening f.a.toNat) = .ok m →
    exec (i f) s = .next (issueEnd s.opening c sp { s := m, wr := [], ctl := true })) ∧
  (∀ (f : FormB) (s m : State) (c : Crew),
    let b := f.sub.toNat % 256
    let sp := specB f [⟨b, 2⟩] [grp f.a 2] (.fixed 2)
    let x := s.view c sp
    Issues s c sp (fun c => tgtUsed f || f.sub.toNat / 256 ≠ 0 || ctlQueueBad c f.a.toNat 2 || ctlQueueBad c b 2) →
    transferEach x (s.issued c sp) x.act (pairTargets x s.opening b) = .ok m →
    exec (.callx f) s = .next (issueEnd s.opening c sp { s := m, wr := linkWrites f x, ctl := true })) ∧
  ∀ (x : Ctx) (s : State) (m : Mask) (pcs : Nat → DWord) (pc : DWord), (∀ l, l < 64 → m.getLsbD l → pcs l = pc) →
    transferEach x s m pcs = transferTo x s m pc

/-- R34, R40, R149, R151 to R154: bra, call, loop, brx, ret and callx complete, and their lanes stand at the target, where the target line can be entered
and the lanes that do not move need no place on the divergence stack; for the indirect ones the lanes of `act` name one target. A loop whose counter
ends in every lane goes on in sequence. -/
def Sys2Proof.Claims.TransfersComplete : Prop :=
  ∀ (f : FormB) (s : State) (c : Crew), Steady s c →
    let direct := directTarget f s.cur.pc
    let enters := fun (sp : Spec) (pc : DWord) => ∃ line, Enterable (s.issued c sp) c.core c.asid pc line
    (let sp := specB f [] [] .none
     let x := s.view c sp
     Issues s c sp (fun _ => slotBad f || f.a ≠ 0#8 || f.sub ≠ 0#13) → x.act ≠ 0#64 → enters sp direct → Transfers (.bra f) s c x.act direct) ∧
    (let sp := specB f [] [grp f.a 2] (.fixed 2)
     let x := s.view c sp
     Issues s c sp (fun c => slotBad f || f.sub ≠ 0#13 || ctlQueueBad c f.a.toNat 2) → x.act ≠ 0#64 → enters sp direct → Transfers (.call f) s c x.act direct) ∧
    (let sp := specB f [one f.a] [one f.a] (.fixed 2)
     let x := s.view c sp
     let m := mkMask (fun l => x.act.getLsbD l && rowAt (x.plain s.opening f.a.toNat) l != 1#32)
     Issues s c sp (fun c => slotBad f || f.sub ≠ 0#13 || ctlQueueBad c f.a.toNat 1) → x.act ≠ 0#64 →
      (m ≠ 0#64 → enters sp direct → Transfers (.loop f) s c m direct) ∧ (m = 0#64 → Answers (exec (.loop f) s) (GoneOn s c))) ∧
    (let sp := specB f [grp f.a 2] [] .none
     let x := s.view c sp
     ∀ pc, Issues s c sp (fun c => tgtUsed f || f.sub ≠ 0#13 || ctlQueueBad c f.a.toNat 2) → x.act ≠ 0#64 →
      (∀ l, l < 64 → x.act.getLsbD l → pairTargets x s.opening f.a.toNat l = pc) → enters sp pc →
      Transfers (.brx f) s c x.act pc ∧ Transfers (.ret f) s c x.act pc) ∧
    (let b := f.sub.toNat % 256
     let sp := specB f [⟨b, 2⟩] [grp f.a 2] (.fixed 2)
     let x := s.view c sp
     ∀ pc, Issues s c sp (fun c => tgtUsed f || f.sub.toNat / 256 ≠ 0 || ctlQueueBad c f.a.toNat 2 || ctlQueueBad c b 2) → x.act ≠ 0#64 →
      (∀ l, l < 64 → x.act.getLsbD l → pairTargets x s.opening b l = pc) → enters sp pc → Transfers (.callx f) s c x.act pc)

/-- R151 to R154, R23: direct transfers move the slot to TGT, indirect ones move each lane to its own target, and they complete where the target can be
entered. -/
def Obligations.ControlTransfers : Prop :=
  (∀ r ∈ directRows, r.Holds) ∧
  IndirectTransfers ∧
  TransfersComplete

/-- R155, R24: a slot that executes join parks at its own PC; it waits while the other slot runs; lanes parked at one PC merge; the slot that
parked first runs on after its join when nothing else can. -/
def Sys2Proof.Claims.JoinParksAndReleases : Prop :=
  ∀ (f : FormS) (s : State) (c : Crew),
    let sp := specS f [] [] .none
    let k := s.cur.slot
    let e := s.issuing c sp
    let parked := e.setSlot k { e.slot k with st := .parked, pc := s.cur.pc, parkAt := s.order }
    let on := pcNext s.cur.pc
    let o := c.slot (!k)
    Issues s c sp (fun _ => f.ga ≠ Guard.none || f.body ≠ 0#55) → (c.slot k).st = .running → c.stall = none → c.retired = false → flagOf f.h = none →
    let ends := fun c' : Crew => exec (.join f) s = .next { s.opening with
      crews := s.crews.map (fun x => if x.id == c.id then c' else x), order := s.order + 1 }
    (o.st = .running → ends parked) ∧
    (c.depth = 0 → o.st = .free → ends (markRegion (parked.setSlot k { (parked.slot k).goto on with st := .running }) k on)) ∧
    (c.depth = 0 → o.st = .parked → o.pc = s.cur.pc → o.parkAt < s.order →
      let merged := (parked.setSlot (!k) { o with mask := o.mask ||| (c.slot k).mask }).setSlot k PcSlot.empty
      ends (markRegion (merged.setSlot (!k) { (merged.slot (!k)).goto on with st := .running }) (!k) on))

/-- R156, R26: exit takes the lanes of `act` out of the crew for good; the others go on, and a slot that loses its last lane is free. -/
def Sys2Proof.Claims.ExitRemovesLanes : Prop :=
  ∀ (f : FormS) (s : State) (c : Crew),
    let sp := specS f [] [] .none
    let x := s.view c sp
    let k := s.cur.slot
    let e := s.issuing c sp
    let live := (c.slot k).mask
    let gone := { e with exited := e.exited ||| x.act }
    let empty : PcSlot := { PcSlot.empty with pc := s.cur.pc }
    Issues s c sp (fun _ => f.body ≠ 0#55) → Steady s c → live ≠ 0#64 →
    (x.act = 0#64 → Answers (exec (.exit f) s) (fun t => Moved s s.opening t (e.enter k s.cur.next live (nextLine e k s.cur.next)) sp [])) ∧
    (x.act ≠ 0#64 → c.gates = [] →
      (live &&& ~~~x.act ≠ 0#64 → Answers (exec (.exit f) s) (fun t =>
        Moved s s.opening t (markRegion (gone.setSlot k { (gone.slot k).goto s.cur.next with mask := live &&& ~~~x.act }) k s.cur.next) sp [])) ∧
      (live &&& ~~~x.act = 0#64 → (c.slot (!k)).st = .running →
        Answers (exec (.exit f) s) (fun t => ∃ t0, Moved s s.opening t0 (gone.setSlot k empty) sp [] ∧ t = t0.settleSlots c.id)) ∧
      (live &&& ~~~x.act = 0#64 → (c.slot (!k)).st = .free → c.stall = none → c.retired = false → flagOf f.h = none →
        exec (.exit f) s = .next { s.opening with
          crews := s.crews.map (fun y => if y.id == c.id then (gone.setSlot k empty).setSlot (!k) empty else y), order := s.order + 1 })) ∧
    (x.act ≠ 0#64 → c.gates ≠ [] → exec (.exit f) s = .next (s.opening.takeCause { gateCause 8 c.gateIndex with atIssue := true }))

/-- R24, R26, R155, R156: join parks and merges lanes and releases them; exit removes its lanes for good. -/
def Obligations.JoinAndExit : Prop :=
  JoinParksAndReleases ∧ ExitRemovesLanes

/-- R157, R158: pause demotes the crew for n cycles, pause 0 ends the demotion, and with no lane in `act` it does nothing; nop does nothing but
count its flag, which goes down in the next cycle. -/
def Obligations.PauseAndNop : Prop :=
  (∀ (f : FormI) (s : State) (c : Crew),
    let sp := specI f [] [] .none
    let x := s.view c sp
    let e := s.issuing c sp
    let n := f.imm.toNat % 65536
    let bad := fun _ : Crew => f.d ≠ 0#8 || f.a ≠ 0#8 || f.imm.toNat / 65536 ≠ 0 || f.sub ≠ 0#7
    Checked (.pause f) s c sp bad ∧ (Issues s c sp bad → Steady s c →
    Answers (exec (.pause f) s) (fun t => Completed s s.opening t
      (if x.act = 0#64 then e else if n = 0 then { e with demote := 0, demotedFrom := none }
       else { e with demote := n, demotedFrom := some (c.demotedFrom.getD s.cycle) }) sp []))) ∧
  ∀ (f : FormS) (s : State) (c : Crew),
    let sp := specS f [] [] (.fixed 1)
    let bad := fun _ : Crew => f.body ≠ 0#55
    Checked (.nop f) s c sp bad ∧ (Issues s c sp bad → Steady s c →
    Answers (exec (.nop f) s) (fun t => Completed s s.opening t (s.issuing c sp) sp []))

/-- R160, R52, R64: the lanes of `act`, in ascending order, form offset a + OFS modulo 2^64 and address BASE + offset; an immediate handle is
its index, a register's handle is the lane's word, and one with a bit above 10 set is invalid. -/
def Sys2Proof.Claims.AddressFormation : Prop :=
  ∀ (f : FormM) (x : Ctx) (s : State) (o64 : Bool) (units : Int) (m : Mask),
    (formAcc f x s o64 units m).map (fun a => a.l) = (List.range 64).filter (fun l => m.getLsbD l) ∧
    ∀ a ∈ formAcc f x s o64 units m,
      let base : Nat := if o64 then (rowAt (x.plain s f.a.toNat) a.l).toNat + 2 ^ 32 * (rowAt (x.plain s (f.a.toNat + 1)) a.l).toNat
        else (rowAt (x.row s f.a.toNat) a.l).toNat
      let word : Nat := if f.hnd.getLsbD 11 then (rowAt (x.row s (f.hnd.toNat % 2 ^ 8)) a.l).toNat else f.hnd.toNat
      (a.off : Int) = (base + units) % 2 ^ 64 ∧ a.va = (a.e.base + a.off) % 2 ^ 64 ∧ a.hidx = word % 2 ^ 11 ∧
      (f.hnd.getLsbD 11 = true → 2 ^ 11 ≤ word → a.e.valid = false) ∧
      (f.hnd.getLsbD 11 = false → word < 2 ^ 11) ∧
      (word < 2 ^ 11 → a.e = s.handle x.c.asid (dieOfCore x.c.core) x.c.ht word a.l)

/-- R161: HANDLE goes before BOUND and BOUND before ALIGN; the cause carries the failing lanes and the index or address of the lowest. -/
def Sys2Proof.Claims.AccessCheckOrder : Prop :=
  ∀ (s : State) (c : Crew) (as : List Acc) (size : Nat) (spaces : List Nat) (perm : HandleEntry → Bool),
    let badHandle := fun a : Acc => !a.e.valid || !(spaces.contains a.e.space) || !perm a.e
    let outside := fun a : Acc => bitOf a.off 63 || decide (s.boundOf c a.e < a.off + size) || (a.e.space ≠ 2 && !canonical a.va)
    let skew := fun a : Acc => decide (a.va % size ≠ 0)
    (∀ a rest, as.filter badHandle = a :: rest →
      checkAcc s c as size spaces perm = some (sysCause 0x0B 0 a.hidx 0#64 (failMask as badHandle))) ∧
    (as.filter badHandle = [] → ∀ a rest, as.filter outside = a :: rest →
      checkAcc s c as size spaces perm = some (sysCause 0x0A 0 0 (BitVec.ofNat 64 a.va) (failMask as outside))) ∧
    (as.filter badHandle = [] → as.filter outside = [] → ∀ a rest, as.filter skew = a :: rest →
      checkAcc s c as size spaces perm = some (sysCause 0x09 0 0 (BitVec.ofNat 64 a.va) (failMask as skew))) ∧
    (as.filter badHandle = [] → as.filter outside = [] → as.filter skew = [] → checkAcc s c as size spaces perm = none)

/-- R160, R161, R52, R64: how a memory access forms its addresses, and which check fails first. -/
def Obligations.AccessAddressesAndChecks : Prop :=
  AddressFormation ∧
  AccessCheckOrder

/-- R163, R164, R65: every load form reads the bytes of its lanes and writes its registers, zero- or sign-extended. -/
def Obligations.LoadResults : Prop :=
  ∀ r ∈ loadRows, r.Holds

/-- R165: stmask stores one bit for each lane as an eight-byte word at the lowest lane's address, and nothing where `act` is empty. -/
def Sys2Proof.Claims.StoreMaskResults : Prop :=
  ∀ (f : FormM) (o64 : Bool) (s : State) (c : Crew) (loc : Loc),
    let sp := specM f (mSrcs f o64 ++ [one f.b]) [] .none true
    let i := if o64 then Instr.stmaskO64 f else Instr.stmask f
    let x := s.view c sp
    let s1 := s.issued c sp
    Issues s c sp (fun _ => hndBad f || f.d.toNat / 32 ≠ 0) → Steady s c →
    (x.act = 0#64 → Answers (exec i s) (fun t => Completed s s.opening t (s.issuing c sp) sp [])) ∧
    (x.act ≠ 0#64 → ∀ a, formAcc f x s1 o64 (ofs10 f * 8) (1#64 <<< x.l0) = [a] → Reaches s1 x.c a 8 stSpaces (fun e => e.w) false true false loc →
      Answers (exec i s) (fun t =>
        Completed s (((noteUse s1 x.c [a]).store (dieOfCore x.c.core) loc (leBytes 8 (predicateMask x s.opening f).toNat)).noteWrote c.id 8
          [loc.spot (dieOfCore x.c.core)]) t (s.issuing c sp) sp [] ∧
        (Quiet s → OnlyStores s t 8 [loc])))

/-- R163 to R165, R235: stores write the bytes of their lanes at the places they reach, and no others. -/
def Obligations.StoreResults : Prop :=
  (∀ r ∈ storeRows, r.Holds) ∧
  StoreMaskResults

/-- R237, R163: what a store leaves is what the next load of the same place by the same die reads, for block memory and for memory at home on
the die; a byte of another place is as before. -/
def Obligations.StoreThenLoad : Prop :=
  ∀ (s : State) (die : Nat) (bs : List Byte), s.mem.wf = true → s.bmem.wf = true → s.keyed.Pairwise (fun p q => p.1 < q.1) →
    (∀ core off, (s.store die (.blk core off) bs).load die (.blk core off) bs.length = bs) ∧
    (∀ a key, (s.homeDie a = die ∨ 0x200000000000 ≤ a) → (s.store die (.pa a key) bs).load die (.pa a key) bs.length = bs) ∧
    (∀ a key addr, (s.homeDie a = die ∨ 0x200000000000 ≤ a) → Quiet s → (addr < a ∨ a + bs.length ≤ addr) →
      (s.store die (.pa a key) bs).mem.get addr = s.mem.get addr)

/-- R173: a bank operation changes its place in bank space and writes no register. -/
def Sys2Proof.Claims.BankOperationResults : Prop :=
  ∀ r ∈ bankRows, ∀ (f : FormM) (s : State) (c : Crew) (loc : Nat → Loc),
    let sp : Spec := { specM f (mSrcs f false ++ [one f.b]) [] .none false with ends := true }
    let x := s.view c sp
    let s1 := s.issued c sp
    let as := formAcc f x s1 false (byteOffset f false 4) x.act
    Issues s c sp (fun _ => hndBad f || f.d ≠ 0#8) → Steady s c →
    (∀ a ∈ as, Reaches s1 x.c a 4 [3] (fun e => e.r && e.w && e.atom) true true true (loc a.l)) →
    Answers (exec (r.instr f) s) (fun t =>
      Completed s ((atomLanes r.op 4 (dieOfCore x.c.core) loc (atomData x s.opening f 1) (as.map (fun a => a.l)) (noteUse s1 x.c as)).1.noteWrote c.id 4
        (as.map (fun a => (loc a.l).spot (dieOfCore x.c.core)))) t (s.issuing c sp) sp [])

/-- R170, R171, R173: atomics and bank operations change their places in ascending lane order. -/
def Obligations.AtomicAndBankResults : Prop :=
  (∀ r ∈ atomRows, r.Holds) ∧
  BankOperationResults

/-- R172, R235: a fence with a release part releases at its scope (at .package or wider every earlier write is performed), one with an acquire part
acquires at it, after its release; every fence ends its region, and with an empty `act` does nothing else. -/
def Obligations.FenceReleases : Prop :=
  ∀ (f : FormS) (s : State) (c : Crew),
    let kind := f.body.toNat / 8 % 4
    let scope := f.body.toNat % 8
    let sp : Spec := { specS f [] [] .none with ends := true }
    Issues s c sp (fun _ => f.body.toNat / 32 ≠ 0 || kind == 0 || scope == 0) → Steady s c →
    let x := s.view c sp
    let s1 := s.issued c sp
    let gives := fun m : State => Answers (exec (.fence f) s) (fun t => Completed s m t (s.issuing c sp) sp [])
    (x.act = 0#64 → gives s.opening) ∧
    (x.act ≠ 0#64 → kind = 1 → gives (s1.acquire scope x.c)) ∧
    (x.act ≠ 0#64 → kind = 2 → gives (s1.releaseAt scope x.c)) ∧
    (x.act ≠ 0#64 → kind = 3 → gives ((s1.releaseAt scope x.c).acquire scope x.c)) ∧
    (5 ≤ scope → s1.releaseAt scope x.c = s1.release)

/-- R166 to R168: pfx takes an idle tracker and writes its handle, generation above index, or zero where PFMODE, the prediction, the bound or the
trackers refuse it; pcancel makes idle the trackers whose handle and generation its lanes name. -/
def Sys2Proof.Claims.PrefetchTrackers : Prop :=
  (∀ (f : FormM) (o64 : Bool) (s : State) (c : Crew),
    let sp : Spec := { specM f (mSrcs f o64 ++ [one f.b]) [one f.d] .var false with squash := true }
    let i := if o64 then Instr.pfxO64 f else Instr.pfx f
    let x := s.view c sp
    let s1 := s.issued c sp
    let gives := fun (m : State) (v : Word) => Answers (exec i s) (fun t =>
      Completed s m t (s.issuing c sp) sp [Wr.full (x.d 0) x.act (fun _ => v)])
    Issues s c sp (fun _ => hndBad f) → Steady s c →
    (x.c.pfmode.toNat % 4 ≠ 1 → gives s.opening 0#32) ∧
    (x.c.pfmode.toNat % 4 = 1 → x.act = 0#64 → gives s.opening 0#32) ∧
    (x.c.pfmode.toNat % 4 = 1 → x.act ≠ 0#64 → ∀ a, formAcc f x s1 o64 (ofs10 f) (1#64 <<< x.l0) = [a] →
      a.e.valid = true → a.e.wait = false → a.e.space ∈ pfSpaces → a.e.r = true →
      let trackers := (s.core x.c.core).trackers
      let fits := srcWord x s.opening f.b a.l ≠ 0#32 ∧ bitOf a.off 63 = false ∧ a.off < s1.boundOf x.c a.e
      ((∀ t ∈ trackers, t.busy = true) → gives s.opening 0#32) ∧
      (∀ k t, trackers[k]? = some t → t.busy = false → (∀ j u, j < k → trackers[j]? = some u → u.busy = true) →
        (¬ fits → gives s.opening 0#32) ∧
        (fits →
          let g := if t.gen = 0xFFFF then 1 else t.gen + 1
          gives (s.opening.modCore x.c.core (fun q => { q with trackers := q.trackers.set k { busy := true, gen := g, crew := c.id } }))
            (BitVec.ofNat 32 (g * 2 ^ 16 + k)))))) ∧
  ∀ (f : FormR) (s : State) (c : Crew),
    let sp := specR f (use1 .b32) [] .none
    let x := s.view c sp
    let core := x.c.core
    Issues s c sp (fun _ => f.rsv ≠ 0#2 || f.md ≠ 0#12 || f.d ≠ 0#8 || f.b ≠ 0#8 || f.c ≠ 0#8) → Steady s c → core < s.cores.length →
    Answers (exec (.pcancel f) s) (fun t => ∃ ts, Completed s (s.opening.modCore core (fun q => { q with trackers := ts })) t (s.issuing c sp) sp [] ∧
      ts.length = (s.core core).trackers.length ∧
      ∀ k t0, k < 2 ^ 16 → (s.core core).trackers[k]? = some t0 → ts[k]? = some { t0 with
        busy := t0.busy && !(List.range 64).any (fun l => x.act.getLsbD l && (srcWord x s.opening f.a l).toNat == t0.gen * 2 ^ 16 + k && srcWord x s.opening f.a l != 0#32) })

/-- R169: under PFMODE.FORM 2 pfd enters a request of its lowest lane in the core's queue, with the deadline in units of 1024 cycles; otherwise it
does nothing. -/
def Sys2Proof.Claims.PrefetchByDeadline : Prop :=
  ∀ (f : FormM) (o64 : Bool) (s : State) (c : Crew),
    let sp := specM f (mSrcs f o64 ++ [one f.b]) [] .none false
    let i := if o64 then Instr.pfdO64 f else Instr.pfd f
    let x := s.view c sp
    let s1 := s.issued c sp
    Issues s c sp (fun _ => hndBad f || f.d ≠ 0#8) → Steady s c →
    ((x.c.pfmode.toNat % 4 ≠ 2 ∨ x.act = 0#64) → Answers (exec i s) (fun t => Completed s s.opening t (s.issuing c sp) sp [])) ∧
    (x.c.pfmode.toNat % 4 = 2 → x.act ≠ 0#64 → ∀ a, formAcc f x s1 o64 (ofs10 f) (1#64 <<< x.l0) = [a] →
      a.e.valid = true → a.e.wait = false → a.e.space ∈ pfSpaces → a.e.r = true →
      (s.core x.c.core).pfds.length < 64 → (∀ p ∈ (s.core x.c.core).pfds, p.begun = true ∨ p.ctx ≠ x.c.ctx ∨ p.handle ≠ a.hidx) →
      let v := (srcWord x s.opening f.b a.l).toNat
      let r : PfdReq := { ctx := x.c.ctx, handle := a.hidx, prio := v / 2 ^ 28, deadline := s.cycle + 1024 * (v % 2 ^ 28), order := s.order, begun := false }
      Answers (exec i s) (fun t => Completed s (s.opening.modCore x.c.core (fun k => { k with pfds := k.pfds ++ [r] })) t (s.issuing c sp) sp []))

/-- R166 to R169: prefetches take trackers or queue entries and change nothing else. -/
def Obligations.Prefetches : Prop :=
  PrefetchTrackers ∧
  PrefetchByDeadline

/-- R185 to R188: the fabric commands post an operation of the lowest lane of `act` and count it in OCNT.fb; fmark takes its target from its body. -/
def Sys2Proof.Claims.FabricCommands : Prop :=
  (∀ r ∈ fabricRows, r.Holds) ∧
  ∀ (f : FormS) (s : State) (c : Crew),
    let sp : Spec := { specS f [] [] .none with ga := f.ga, ends := true }
    let x := s.view c sp
    Issues s c sp (fun _ => f.body.toNat / 256 ≠ 0) → Steady s c →
    (x.act = 0#64 → Answers (exec (.fmark f) s) (fun t => Completed s s.opening t (s.issuing c sp) sp [])) ∧
    (x.act ≠ 0#64 → RoomFor s c 3 → Answers (exec (.fmark f) s) (fun t => ∃ o,
      Posted s c 3 0x2C3 [BitVec.ofNat 32 (f.body.toNat % 256), 0#32, 0#32, 0#32, 0#32, 0#32] o ∧
      Completed s { s.opening with ops := s.ops ++ [o] } t (counted (s.issuing c sp) 3) sp []))

/-- R174, R176 to R178, R185 to R188: the commands of the engines and of the fabric post one operation of the lowest lane of `act` and count it. -/
def Obligations.EngineAndFabricCommands : Prop :=
  (∀ r ∈ engineRows, r.Holds) ∧
  FabricCommands

/-- R175: COUNT goes down by one when an operation is counted off; a nonzero status sets ERR, and STAT when ERR was 0; the other classes keep
their counters. -/
def Sys2Proof.Claims.CommandCountedOff : Prop :=
  ∀ (c : Crew) (k stat : Nat), k < c.ocnt.length → 0 < c.count k → stat < 16 →
    (countOff c k stat).count k = c.count k - 1 ∧
    (countOff c k stat).err k = (c.err k || decide (stat ≠ 0)) ∧
    (countOff c k stat).stat k = (if c.err k ∨ stat = 0 then c.stat k else stat) ∧
    ∀ j, j ≠ k → (countOff c k stat).oc j = c.oc j

/-- R181, R182, R189, R235: waitc of class k completes when COUNT is at most n and ERR is 0, and acquires for its crew; with COUNT above n it waits, unless none of what it waits for can
end because a key is exhausted; with ERR set it takes ENGINE or FABRIC with the class and STAT, returns after itself, and clears ERR and STAT. With an
empty `act` it does nothing. -/
def Sys2Proof.Claims.WaitForCommands : Prop :=
  ∀ p ∈ ([(.waitcCp, 0), (.waitcGa, 1), (.waitcMx, 2), (.waitcFb, 3)] : List ((FormI → Instr) × Nat)), ∀ (f : FormI) (s : State) (c : Crew),
    let k := p.2
    let n := f.imm.toNat % 256
    let sp := specI f [] [] .none
    let x := s.view c sp
    Issues s c sp (fun _ => f.imm.toNat / 256 ≠ 0 || f.d ≠ 0#8 || f.a ≠ 0#8 || f.sub ≠ 0#7) → Steady s c →
    (x.act = 0#64 → Answers (exec (p.1 f) s) (fun t => Completed s s.opening t (s.issuing c sp) sp [])) ∧
    (x.act ≠ 0#64 → c.count k ≤ n → c.err k = false →
      Answers (exec (p.1 f) s) (fun t => Completed s (s.opening.acquireAt 1 c.id c.blk c.core) t (s.issuing c sp) sp [])) ∧
    (x.act ≠ 0#64 → c.count k ≤ n → c.err k = true →
      Raises (p.1 f) s c sp (crewCause (if k = 3 then 0x0F else 0x0E) k (c.stat k) 0#64 0#64 true) (fun e => { e with
        ocnt := c.ocnt.set k (mkOcnt false 0 (c.count k)), errs := c.errs.filter (fun q => !(q.2.1 == k && q.2.2.2 == c.gates.length)) })) ∧
    (x.act ≠ 0#64 → n < c.count k → (k = 3 → ∀ o ∈ s.ops, o.crew = c.id → o.cls = 3 → s.heldPort o = none) → exec (p.1 f) s = .next { s.opening with heldMark := true })

/-- R181: each waitc completes, and its crew goes on, where the COUNT of its class is at most n and its ERR is 0. -/
def Sys2Proof.Claims.WaitsComplete : Prop :=
  ∀ (f : FormI) (s : State) (c : Crew), Issues s c (specI f [] [] .none) (fun _ => f.imm.toNat / 256 ≠ 0 || f.d ≠ 0#8 || f.a ≠ 0#8 || f.sub ≠ 0#7) → Steady s c →
    let done := fun k => c.count k ≤ f.imm.toNat % 256 ∧ c.err k = false
    (done 0 → Answers (exec (.waitcCp f) s) (GoneOn s c)) ∧ (done 1 → Answers (exec (.waitcGa f) s) (GoneOn s c)) ∧
    (done 2 → Answers (exec (.waitcMx f) s) (GoneOn s c)) ∧ (done 3 → Answers (exec (.waitcFb f) s) (GoneOn s c))

/-- R175, R181, R182: operations are counted off; waitc waits for the count of its class, completes once it is reached, and traps on its error. -/
def Obligations.CommandAccounting : Prop :=
  CommandCountedOff ∧ WaitForCommands ∧ WaitsComplete

/-- R183, R235: arrinit sets a counter of the crew's block to the value of the lowest lane, arrw completes once the counter has reached it, as an
acquire, and waits until then, arrrd reads it into every lane of `act`. In a gate call they raise GATE. -/
def Obligations.ArrivalCounters : Prop :=
  ∀ (f : FormI) (s : State) (c : Crew),
    let i := f.imm.toNat % 64
    let sp := specI f [one f.a] [] .none
    let x := s.view c sp
    let a := rowAt (x.row s.opening f.a.toNat) x.l0
    (Issues s c sp (fun _ => f.imm.toNat / 64 ≠ 0 || f.sub ≠ 0#7 || f.d ≠ 0#8) → Steady s c →
      (x.act = 0#64 → Answers (exec (.arrinit f) s) (fun t => Completed s s.opening t (s.issuing c sp) sp []) ∧
        Answers (exec (.arrw f) s) (fun t => Completed s s.opening t (s.issuing c sp) sp [])) ∧
      (x.act ≠ 0#64 → c.gates = [] →
        Answers (exec (.arrinit f) s) (fun t =>
          Completed s (s.opening.modBlock c.blk (fun b => { b with arr := b.arr.set i a })) t (s.issuing c sp) sp []) ∧
        (a.toNat ≤ (arrOf s c.blk i).toNat →
          Answers (exec (.arrw f) s) (fun t => Completed s (s.opening.acquireAt 2 c.id c.blk c.core) t (s.issuing c sp) sp [])) ∧
        ((arrOf s c.blk i).toNat < a.toNat → exec (.arrw f) s = .next { s.opening with heldMark := true })) ∧
      (x.act ≠ 0#64 → c.gates ≠ [] → exec (.arrinit f) s = .next (s.opening.takeCause (gateCause 7 c.gateIndex)) ∧
        exec (.arrw f) s = .next (s.opening.takeCause (gateCause 7 c.gateIndex)))) ∧
    let sp := specI f [] [one f.d] .var
    let x := s.view c sp
    (Issues s c sp (fun _ => f.imm.toNat / 64 ≠ 0 || f.sub ≠ 0#7 || f.a ≠ 0#8) → Steady s c → x.act = 0#64 ∨ c.gates = [] →
      Answers (exec (.arrrd f) s) (fun t => Completed s s.opening t (s.issuing c sp) sp [Wr.full (x.d 0) x.act (fun _ => arrOf s c.blk i)])) ∧
    (Issues s c sp (fun _ => f.imm.toNat / 64 ≠ 0 || f.sub ≠ 0#7 || f.a ≠ 0#8) → x.act ≠ 0#64 → c.gates ≠ [] →
      exec (.arrrd f) s = .next (s.opening.takeCause (gateCause 7 c.gateIndex)))

/-- R184: tsig checks its flag address at issue and posts a tile signal that awaits every operation of the masked classes, counted in OCNT.cp; the
operations of the masked classes that have failed, and whose error no waitc has reported, go with it, and so does the place of the flag. -/
def Obligations.TileSignals : Prop :=
  ∀ (f : FormM) (s : State) (c : Crew),
    let sp : Spec := { specM f (mSrcs f false ++ [one f.b]) [] .none false with ends := true }
    let x := s.view c sp
    let s1 := s.issued c sp
    Issues s c sp (fun _ => hndBad f || f.d.toNat / 16 ≠ 0) → Steady s c →
    (x.act = 0#64 → Answers (exec (.tsig f) s) (fun t => Completed s s.opening t (s.issuing c sp) sp [])) ∧
    (x.act ≠ 0#64 → RoomFor s c 0 → ∀ a, formAcc f x s1 false (ofs10 f * 4) (1#64 <<< x.l0) = [a] →
      a.e.valid = true → a.e.wait = false → a.e.space ∈ [1, 3, 5, 8] → a.e.w = true → a.e.atom = true → bitOf a.off 63 = false → a.off + 4 ≤ s.boundOf x.c a.e →
      canonical a.va = true → a.va % 4 = 0 →
      let await := s.ops.filter (fun p => p.crew == c.id && f.d.getLsbD p.cls)
      Answers (exec (.tsig f) s) (fun t => ∃ o,
        Posted s c 0 0x298 [BitVec.ofNat 32 a.hidx, BitVec.ofNat 32 a.off, BitVec.ofNat 32 (a.off / 2 ^ 32), rowAt (x.row s.opening f.b.toNat) x.l0,
          BitVec.ofNat 32 (f.d.toNat % 16), 0#32, BitVec.ofNat 32 a.e.base, BitVec.ofNat 32 (a.e.base / 2 ^ 32), BitVec.ofNat 32 a.e.space,
          BitVec.ofNat 32 a.e.kd] o ∧
        o.await = await.map (fun p => p.id) ∧
        o.met = (await.filter (fun p => p.done && p.stat ≠ 0)).map (fun p => (p.id, p.stat)) ++
          (c.errs.filter (fun q => f.d.getLsbD q.2.1 && q.2.2.2 == c.gates.length)).map (fun q => (q.1, q.2.2.1)) ∧
        Completed s { s.opening with ops := s.ops ++ [o] } t (counted (s.issuing c sp) 0) sp []))

/-- R196: tshape writes eight words of the lowest lane to a tile record where they pass R192 or are all zero, and raises ACCUM subcode 2 with the
record unchanged where they do not. -/
def Sys2Proof.Claims.TileRecords : Prop :=
  ∀ (f : FormT) (s : State) (c : Crew),
    let sp := specT f [grp f.a 8] [] .none false
    let x := s.view c sp
    let r := (List.range 8).map (fun i => rowAt (x.plain s.opening (f.a.toNat + i)) x.l0)
    Issues s c sp (fun _ => f.b ≠ 0#8 || f.c ≠ 0#8 || f.d ≠ 0#8 || f.sub ≠ 0#10) → Steady s c →
    (x.act = 0#64 → Answers (exec (.tshape f) s) (fun t => Completed s s.opening t (s.issuing c sp) sp [])) ∧
    (x.act ≠ 0#64 → c.gates = [] → (trZero r = true ∨ trBad r = false) →
      Answers (exec (.tshape f) s) (fun t => Completed s s.opening t { s.issuing c sp with trecs := c.trecs.set f.trec.toNat r } sp [])) ∧
    (x.act ≠ 0#64 → c.gates = [] → trZero r = false → trBad r = true → exec (.tshape f) s = .next (s.opening.takeCause (accumCause 2 0#64))) ∧
    (x.act ≠ 0#64 → c.gates ≠ [] → exec (.tshape f) s = .next (s.opening.takeCause (gateCause 7 c.gateIndex)))

/-- R193, R197 to R201: the tile tasks post one operation of class mx with the record as it stands, the ragged row count and, for mmas, the
metadata words of R198. -/
def Sys2Proof.Claims.TileTasks : Prop :=
  (∀ r ∈ denseRows, r.Holds (fun _ _ _ => none) (fun _ _ _ => [])) ∧
  ∀ r ∈ sparseRows, r.Holds (fun f x s => metaBad f r.opc x s) (fun f x s =>
    let rec0 := x.c.trecs.getD f.trec.toNat []
    let rg := metaRange rec0 r.opc (trM rec0) f.sub.toNat
    (List.range rg.2).map (fun n => if n < rg.1 then 0#32
      else rowAt (x.plain s (f.c.toNat + n / (metaLanes f.sub.toNat).1)) ((metaLanes f.sub.toNat).2 + n % (metaLanes f.sub.toNat).1)))

/-- R193, R196 to R201: tshape writes tile records; the tile tasks post one operation of class mx. -/
def Obligations.TileRecordsAndTasks : Prop :=
  TileRecords ∧
  TileTasks

/-- R203 to R205: acca enters a request and its slot waits; accf takes units from the block, free at once where no task uses them, spilled ones too, and
otherwise left to a release that names those tasks; both raise ACCUM subcode 4 where the unit numbers are out of range. -/
def Sys2Proof.Claims.AccumulatorUnits : Prop :=
  ∀ (f : FormI) (s : State) (c : Crew),
    let units := f.imm.toNat % 128
    let base := f.imm.toNat / 2 ^ 8 % 64
    let at1 := f.imm.getLsbD 7
    (let sp := specI f [] [one f.d] .var
     let x := s.view c sp
     Issues s c sp (fun _ => f.imm.toNat / 2 ^ 14 ≠ 0 || f.a ≠ 0#8 || f.sub ≠ 0#7) → Steady s c →
     (x.act = 0#64 → Answers (exec (.acca f) s) (fun t => Completed s s.opening t (s.issuing c sp) sp [])) ∧
     (x.act ≠ 0#64 → c.gates = [] → (∀ b, s.block? c.blk = some b → b.harv = false) →
       (1 ≤ units ∧ units ≤ 64 ∧ (at1 = true → base + units ≤ 64) ∧ (at1 = false → base = 0) →
         let r : AccaReq := {
           id := s.order, crew := c.id, slot := s.cur.slot, blk := c.blk, core := c.core, units := units,
           base := if at1 then some base else none, dst := x.d 0, mask := x.act, flight := s.order }
         let e := s.issuing c sp
         Answers (exec (.acca f) s) (fun t => Completed s { s.opening with accas := s.accas ++ [r] } t
           (e.setSlot s.cur.slot { e.slot s.cur.slot with accaWait := some s.order }) sp [Wr.full (x.d 0) 0#64 (fun _ => 0#32)])) ∧
       (¬(1 ≤ units ∧ units ≤ 64 ∧ (at1 = true → base + units ≤ 64) ∧ (at1 = false → base = 0)) →
         exec (.acca f) s = .next (s.opening.takeCause (accumCause 4 0#64))))) ∧
    let sp : Spec := { specI f [] [] .none with ends := true }
    let x := s.view c sp
    Issues s c sp (fun _ => f.imm.toNat / 2 ^ 14 ≠ 0 || at1 || f.a ≠ 0#8 || f.d ≠ 0#8 || f.sub ≠ 0#7) → Steady s c →
    (x.act = 0#64 → Answers (exec (.accf f) s) (fun t => Completed s s.opening t (s.issuing c sp) sp [])) ∧
    (x.act ≠ 0#64 → c.gates = [] → ¬(1 ≤ units ∧ base + units ≤ 64) → exec (.accf f) s = .next (s.opening.takeCause (accumCause 4 0#64))) ∧
    (x.act ≠ 0#64 → c.gates = [] → 1 ≤ units → base + units ≤ 64 → ∀ b, s.block? c.blk = some b →
      let held := fun u => decide (base ≤ u) && decide (u < base + units) && (b.units.getLsbD u || b.spilled.getLsbD u)
      let used := fun u => !(s.usersOf b u).isEmpty
      let late := (List.range 64).filter (fun u => held u && used u && !s.accfs.any (fun a => a.blk == b.id && a.unit == u))
      Answers (exec (.accf f) s) (fun t => ∃ gone free : BitVec 64, Completed s { s.opening.modBlock b.id (fun q => { q with
          units := q.units &&& ~~~gone, spilled := q.spilled &&& ~~~free }) with
          spills := s.spills.filter (fun p => !(p.1 == b.id && free.getLsbD p.2.1))
          accfs := s.accfs ++ late.map (fun u => { blk := b.id, core := b.core, unit := u, tasks := s.usersOf b u }) } t (s.issuing c sp) sp [] ∧
        ∀ u, u < 64 → gone.getLsbD u = held u ∧ free.getLsbD u = (held u && !used u)))

/-- R206: accld reads accumulator words of the core into D to D + N - 1; a lane whose offset is not a multiple of 4 or whose words the block does not
hold makes it raise ACCUM subcode 0 with the mask of those lanes. -/
def Sys2Proof.Claims.AccumulatorLoads : Prop :=
  ∀ (f : FormT) (s : State) (c : Crew) (b : Block),
    let n := 2 ^ (f.sub.toNat % 4)
    let sp := specT f [one f.a] [grp f.d n] .var false
    let x := s.view c sp
    let off := fun l => (rowAt (x.row s.opening f.a.toNat) l).toNat
    let good := fun l => off l % 4 = 0 ∧ ∀ k, k < n → off l + 4 * k < 2 ^ 18 ∧ s.holdsUnit b none ((off l + 4 * k) / 4096) = true
    Issues s c sp (fun _ => f.trec ≠ 0#4 || f.b ≠ 0#8 || f.c ≠ 0#8 || f.sub.toNat / 4 ≠ 0) → Steady s c → x.act = 0#64 ∨ c.gates = [] →
    s.block? c.blk = some b →
    ((∀ l, l < 64 → x.act.getLsbD l → good l) → b.spilled = 0#64 →
      Answers (exec (.accld f) s) (fun t => Completed s s.opening t (s.issuing c sp) sp
        ((List.range n).map (fun k => Wr.full (x.d 0 + (if n = 1 then 0 else k)) x.act (fun l => BitVec.ofNat 32 (s.accWord c.core (off l + 4 * k))))))) ∧
    ((∃ l, l < 64 ∧ x.act.getLsbD l ∧ ¬ good l) → ∃ m, (∀ l, l < 64 → (m.getLsbD l ↔ x.act.getLsbD l ∧ ¬ good l)) ∧
      exec (.accld f) s = .next (s.opening.takeCause (accumCause 0 m)))

/-- R203 to R206: acca, accf and accld. -/
def Obligations.AccumulatorInstructions : Prop :=
  AccumulatorUnits ∧
  AccumulatorLoads

/-- R209: bucket gives each valid lane its rank among the lanes of `act` with its expert, and their count; its fields are checked first. In a gate
call it raises GATE with subcode 7 (R216). -/
def Obligations.BucketRanks : Prop :=
  ∀ (f : FormR) (s : State) (c : Crew),
    let u : RUse := ⟨some .n32, some .n32, none⟩
    let sp := specR f u [grp f.d 2] .var
    let x := s.view c sp
    let a := fun l => (lo32 (x.opA s.opening u f l)).toNat
    let valid := fun l => a l < (lo32 (x.opB s.opening u f l)).toNat
    let rank := fun n l => (List.range n).countP (fun k => x.act.getLsbD k && decide (valid k) && a k == a l)
    let bad := fun c => u.bad f c || (!c.perm && f.md ≠ 0#12)
    Checked (.bucket f) s c sp bad ∧
    (Issues s c sp bad → x.act ≠ 0#64 → c.gates ≠ [] → exec (.bucket f) s = .next (s.opening.takeCause (gateCause 7 c.gateIndex))) ∧
    (Issues s c sp bad → Steady s c → x.act = 0#64 ∨ c.gates = [] →
    Answers (exec (.bucket f) s) (fun t => Completed s s.opening t (s.issuing c sp) sp
      [Wr.full (x.d 0) x.act (fun l => if valid l then BitVec.ofNat 32 (rank l l) else 0xFFFFFFFF#32),
       Wr.full (x.d 0 + 1) x.act (fun l => if valid l then BitVec.ofNat 32 (rank 64 l) else 0#32)]))

/-- R211 to R213, R235: an arrival of lanes that have not arrived yet, with the count of the phase, is noted, releases, and the instruction completes; the last arrival
inverts P, clears the phase and frees every slot of the block that waits; bar.wait completes when it is not armed or P has changed and waits
otherwise. -/
def Sys2Proof.Claims.BlockBarriers : Prop :=
  ∀ (f : FormS) (s : State) (c : Crew) (b : Block) (wait : Bool),
    let id := bodyBits f 3 0
    let n := bodyBits f 8 4
    let cnt := if n = 0 then b.ncrews else n
    let sp := sysSpec f [] false true
    let x := s.view c sp
    let e := s.issuing c sp
    let k := s.cur.slot
    let i := if wait then Instr.bar f else Instr.barArrive f
    let m := c.arrive.getD id 0#64 ||| x.act
    let p := b.barP.getLsbD id
    let counted := countedAt b c id m
    let last := m = BitVec.allOnes 64 ∧ c.exited = 0#64 ∧ c.id ∉ b.barIn.getD id [] ∧ cnt ≤ counted.length
    c.gates = [] → s.block? c.blk = some b → n ≤ b.ncrews → id < c.arrive.length → id < b.barIn.length → id < b.barCnt.length →
    (Issues s c sp (fun _ => bodyRA f ≠ 0 || bodyRB f ≠ 0 || bodyBits f 38 9 ≠ 0) → Steady s c →
      (x.act = 0#64 → Answers (exec i s) (fun t => Completed s s.opening t e sp [])) ∧
      (x.act ≠ 0#64 → c.arrive.getD id 0#64 &&& x.act = 0#64 → (b.barCnt.getD id none).getD cnt = cnt →
        (¬ last → Answers (exec i s) (fun t => Completed s ((s.opening.modBlock b.id (fun q =>
            { q with barCnt := q.barCnt.set id (some cnt), barIn := q.barIn.set id counted })).releaseNear 2 c.id c.blk c.core) t
          (noted (if wait then waiting e k false id p else e) id m p) sp [])) ∧
        (last → Answers (exec i s) (fun t =>
          t.blocks = s.blocks.map (fun q => if q.id == b.id then { q with
            barP := q.barP ^^^ (1#16 <<< id), barCnt := q.barCnt.set id none, barIn := q.barIn.set id [], ump := q.ump.set id 0 } else q) ∧
          (Quiet s → t.mem = s.mem) ∧ t.bmem = s.bmem ∧
          (∀ y ∈ s.crews, y.id ≠ c.id → y.blk ≠ b.id → y ∈ t.crews) ∧
          (∀ y ∈ s.crews, y.id ≠ c.id → y.blk = b.id → ∃ z ∈ t.crews, Released id counted y z) ∧
          ∃ c' ∈ t.crews, c'.id = c.id ∧ (c'.slot k).pc = s.cur.next ∧ waitsOn false id (c'.slot k) = false ∧ c'.arrive.getD id 0#64 = 0#64))) ∧
      (x.act ≠ 0#64 → c.arrive.getD id 0#64 &&& x.act ≠ 0#64 → exec i s = .next { s.opening with heldMark := true })) ∧
    (Issues s c sp (fun _ => bodyRA f ≠ 0 || bodyRB f ≠ 0 || bodyBits f 38 4 ≠ 0) → Steady s c →
      (x.act = 0#64 ∨ c.armed.getLsbD id = false → Answers (exec (.barWait f) s) (fun t => Completed s s.opening t e sp [])) ∧
      (x.act ≠ 0#64 → c.armed.getLsbD id = true → c.armedP.getLsbD id ≠ p →
        Answers (exec (.barWait f) s) (fun t => Completed s (s.opening.acquireAt 2 c.id c.blk c.core) t { seeBlockRegs e with armed := e.armed &&& ~~~(1#16 <<< id) } sp [])) ∧
      (x.act ≠ 0#64 → c.armed.getLsbD id = true → c.armedP.getLsbD id = p → exec (.barWait f) s = .next { s.opening with heldMark := true }))

/-- R213: cbar notes its lanes and its slot waits; a crew counts when all its lanes have arrived and none has exited; the arrival of the last crew
of the group inverts P and frees every slot that waits. -/
def Sys2Proof.Claims.ClusterBarriers : Prop :=
  ∀ (f : FormS) (s : State) (c : Crew) (b : Block),
    let id := bodyBits f 1 0
    let sp := sysSpec f [] false true
    let x := s.view c sp
    let e := s.issuing c sp
    let lead := s.groupLead b
    let m := c.carrive.getD id 0#64 ||| x.act
    let whole := m == BitVec.allOnes 64 && c.exited == 0#64
    let e' := { waiting e s.cur.slot true id (lead.cbarP.getLsbD id) with
      carrive := e.carrive.set id m, cin := if whole then e.cin ||| (1#4 <<< id) else e.cin }
    let full := fun (y : Crew) => (s.groupBlocks b).any (fun q => q.id == y.blk) && (y.cin.getLsbD id || (y.id == c.id && whole))
    c.gates = [] → s.block? c.blk = some b → id < c.carrive.length → (∀ y ∈ s.crews, y.id = c.id → y.blk = c.blk ∧ y.cin = c.cin) →
    (∀ y ∈ s.crews, id < y.carrive.length) →
    Issues s c sp (fun _ => bodyRA f ≠ 0 || bodyRB f ≠ 0 || bodyBits f 38 2 ≠ 0) → Steady s c →
    (x.act = 0#64 → Answers (exec (.cbar f) s) (fun t => Completed s s.opening t e sp [])) ∧
    (x.act ≠ 0#64 → c.carrive.getD id 0#64 &&& x.act = 0#64 → (s.crews.filter full).length < b.gsize * b.ncrews →
      Answers (exec (.cbar f) s) (fun t => Completed s ((s.opening.modBlock lead.id (fun q => { q with cbarOn := q.cbarOn.set id true })).releaseNear 3
        c.id c.blk c.core) t e' sp [])) ∧
    (x.act ≠ 0#64 → c.carrive.getD id 0#64 &&& x.act = 0#64 → b.gsize * b.ncrews ≤ (s.crews.filter full).length →
      Answers (exec (.cbar f) s) (fun t =>
        t.blocks = s.blocks.map (fun q => if q.id == lead.id then { q with
          cbarP := q.cbarP ^^^ (1#4 <<< id), cbarOn := q.cbarOn.set id false, cump := q.cump.set id 0 } else q) ∧
        (Quiet s → t.mem = s.mem) ∧ t.bmem = s.bmem ∧
        (∀ y ∈ t.crews, (s.groupBlocks b).any (fun q => q.id == y.blk) → waitsOn true id y.a = false ∧ waitsOn true id y.b = false ∧ y.carrive.getD id 0#64 = 0#64 ∧
          y.cin.getLsbD id = false) ∧
        ∃ c' ∈ t.crews, c'.id = c.id ∧ (c'.slot s.cur.slot).pc = s.cur.next)) ∧
    (x.act ≠ 0#64 → c.carrive.getD id 0#64 &&& x.act ≠ 0#64 → exec (.cbar f) s = .next { s.opening with heldMark := true })

/-- R211 to R213: the barriers of a block and of a group. -/
def Obligations.Barriers : Prop :=
  BlockBarriers ∧
  ClusterBarriers

/-- R220, R382, R384, R385: trap and brk take their crew-level cause; with no trap in service the slot enters TVEC, TRAPCAUSE holds CODE and the
information word, and the return PC is the next instruction. Under BRKSYS brk stalls the crew. -/
def Sys2Proof.Claims.SoftwareTraps : Prop :=
  ∀ (f : FormS) (s : State) (c : Crew) (tvec : DWord) (line : List Byte) (brk : Bool),
    let i := if brk then Instr.brk f else Instr.trap f
    let code := if brk then 0x15 else 0x14
    let sp := specS f [] [] .none
    let x := s.view c sp
    let cause := crewCause code 0 (bodyBits f 15 0) 0#64 0#64 true
    Issues s c sp (fun _ => bodyRA f ≠ 0 || bodyRB f ≠ 0 || bodyBits f 38 16 ≠ 0) → Steady s c →
    (x.act = 0#64 → Answers (exec i s) (fun t => Completed s s.opening t (s.issuing c sp) sp [])) ∧
    (x.act ≠ 0#64 → (brk = true → (s.ctxDesc c.ctx).brksys = false) → CanTrap s.opening c s.cur.slot tvec line →
      Answers (exec i s) (Entered s c s.cur.slot cause s.cur.next s.cur.next tvec)) ∧
    (x.act ≠ 0#64 → brk = true → (s.ctxDesc c.ctx).brksys = true → (s.crews.map (fun y => y.id)).Nodup → c.gates.length ≤ 7 →
      ∃ c0, s.opening.atCursor? = some c0 ∧
        let e := tried s c0
        let k := { cause with queues := (queuedFor c sp).1 }
        Answers (exec i s) (Stalls { s.opening.setCrew e with order := s.order + 1, lastRaise := some k } e k false))

/-- R385, R387: tret in the slot in service returns its lanes to the return PC, or to the instruction after the raising one under SKIP, and the trap is no
longer in service; with no trap in service it does nothing. -/
def Sys2Proof.Claims.TrapReturns : Prop :=
  ∀ (f : FormS) (s : State) (c : Crew),
    let sp := specS f [] [] .none
    let x := s.view c sp
    let k := s.cur.slot
    Issues s c sp (fun _ => f.body ≠ 0#55) → Steady s c →
    (x.act = 0#64 ∨ c.trapq = [] ∨ c.insvc = false → Answers (exec (.tret f) s) (fun t => Completed s s.opening t (s.issuing c sp) sp [])) ∧
    (∀ e, x.act ≠ 0#64 → c.trapq = [e] → c.insvc = true → c.svcSlot = k → (∀ o ∈ c.srOld, o.sr ≠ 0x20) → e.mask &&& ~~~c.exited ≠ 0#64 → (e.mask &&& ~~~c.exited) &&& ~~~x.act = 0#64 →
      let e0 := s.issuing c sp
      let p : PcSlot := { e0.slot k with st := .running, pc := if c.skip then e.after else e.ret, mask := e.mask &&& ~~~c.exited, line := [], barWait := none }
      Answers (exec (.tret f) s) (fun t => Moved s s.opening t
        (markRegion { e0.setSlot k p with trapq := [], insvc := false, svcSlot := false, trapcause := 0#32, trapva := 0#64 } k p.pc) sp [])) ∧
    (∀ e rest, x.act ≠ 0#64 → c.trapq = e :: rest → c.insvc = true → (c.svcSlot ≠ k ∨ (e.mask &&& ~~~c.exited) &&& ~~~x.act ≠ 0#64) →
      Raises (.tret f) s c sp (sysCause 0x08 0 0 0#64 0#64) id)

/-- R220, R385, R387: trap, and brk without BRKSYS, complete by entering the handler, where no trap is queued and the handler's line can be entered; tret
completes by returning the lanes of the trap in service, where they are in its slot. -/
def Sys2Proof.Claims.TrapsComplete : Prop :=
  ∀ (f : FormS) (s : State) (c : Crew), Steady s c →
    let sp := specS f [] [] .none
    let x := s.view c sp
    let k := s.cur.slot
    (∀ line, Issues s c sp (fun _ => bodyRA f ≠ 0 || bodyRB f ≠ 0 || bodyBits f 38 16 ≠ 0) → x.act ≠ 0#64 → c.insvc = false → c.trapq = [] →
      s.opening.tvecOf c ≠ 0#64 → Enterable s.opening c.core c.asid (s.opening.tvecOf c) line →
      Answers (exec (.trap f) s) (fun t => Stands t c.id k (s.opening.tvecOf c) (c.slot k).mask) ∧
      ((s.ctxDesc c.ctx).brksys = false → Answers (exec (.brk f) s) (fun t => Stands t c.id k (s.opening.tvecOf c) (c.slot k).mask))) ∧
    (∀ e, Issues s c sp (fun _ => f.body ≠ 0#55) → x.act ≠ 0#64 → c.trapq = [e] → c.insvc = true → c.svcSlot = k → c.srOld = [] →
      e.mask &&& ~~~c.exited ≠ 0#64 → (e.mask &&& ~~~c.exited) &&& ~~~x.act = 0#64 →
      Answers (exec (.tret f) s) (fun t => Stands t c.id k (if c.skip then e.after else e.ret) (e.mask &&& ~~~c.exited)))

/-- R220, R382, R384, R385, R387: the software traps and the return from a trap. -/
def Obligations.TrapsAndReturns : Prop :=
  SoftwareTraps ∧ TrapReturns ∧ TrapsComplete

/-- R215, R217, R405: a gate of an idle, undivided crew completes in the callee, where the entry is valid and admits the crew, the callee's entry line can be
entered, no gate of the core waits and a window of the callee's registers is free; a gret completes in the caller. -/
def Sys2Proof.Claims.GatesComplete : Prop :=
  ∀ (f : FormS) (s : State) (c : Crew), Steady s c → c.flights = [] → crewIdle c = true → (c.slot (!s.cur.slot)).st = .free → c.depth = 0 →
    let sp := sysSpec f [] false true
    let x := s.view c sp
    let g := bodyBits f 7 0
    let s1 := s.issued c sp
    let d := decodeDom c.dent
    x.act = (c.slot s.cur.slot).mask →
    (∀ bs e line u, Issues s c sp (fun _ => bodyRA f ≠ 0 || bodyRB f ≠ 0 || bodyBits f 38 9 ≠ 0) → d.gtab ≠ 0 → g ≤ d.gtn →
      s1.entryBytes c.asid (dieOfCore c.core) ((d.gtab + 64 * g) % 2 ^ 64) 64 10 = some bs → s1.gateEntry bs = some e →
      e.minpriv ≤ c.priv → c.gates.length < 4 → (∀ r, r < 32 → (e.pass ||| e.ret).getLsbD r → r + 8 < c.n) →
      (e.wsize = 0 ∨ ∃ b, s.block? c.blk = some b ∧ (e.woff + e.wsize) * 1024 ≤ b.bmLen) →
      Enterable (s1.useDomain e.tdom) c.core ((s1.useDomain e.tdom).domain e.tdom).asid e.entry line →
      (s.core c.core).gateWait = [] → (s.core c.core).gateUse.length = 16 → u + e.n / 16 ≤ 16 →
      (∀ i, i < e.n / 16 → (s.core c.core).gateUse.getD (u + i) true = false) →
      Answers (exec (.gate f) s) (fun t => Stands t c.id false e.entry x.act)) ∧
    (∀ e rest, Issues s c sp (fun _ => bodyRA f ≠ 0 || bodyRB f ≠ 0 || bodyBits f 38 17 ≠ 0) → c.gates = e :: rest → bodyBits f 16 16 = 0 →
      Answers (exec (.gret f) s) (fun t => Stands t c.id false e.pc e.mask))

/-- R215, R216, R405: a gate whose crew is idle and whose entry passes every check enters the callee; gret returns to the caller. -/
def Sys2Proof.Claims.GateCalls : Prop :=
  ∀ (f : FormS) (s : State) (c : Crew),
    let sp := sysSpec f [] false true
    let x := s.view c sp
    let g := bodyBits f 7 0
    let s1 := s.issued c sp
    (∀ e line, Issues s c sp (fun _ => bodyRA f ≠ 0 || bodyRB f ≠ 0 || bodyBits f 38 9 ≠ 0) → c.flights = [] → crewIdle c = true →
      s1.gateCheck x g = .ok e → (s1.useDomain e.tdom).checkTarget c.core ((s1.useDomain e.tdom).domain e.tdom).asid e.entry x.act true = .ok line →
      (∀ h, (s.core c.core).gateWait.head? = some h → h = c.id) → unitHole (s.core c.core).gateUse (e.n / 16) ≠ none →
      Answers (exec (.gate f) s) (fun t => ∃ m e', Moved s m t e' sp [] ∧ CalleeStart c e' e ((s1.useDomain e.tdom).domain e.tdom) e.entry s.cur.next x.act ∧
        (Quiet s → m.mem = s.mem) ∧ m.bmem = s.bmem ∧ m.blocks = s.blocks ∧ m.ops = s.ops)) ∧
    (∀ e rest, Issues s c sp (fun _ => bodyRA f ≠ 0 || bodyRB f ≠ 0 || bodyBits f 38 17 ≠ 0) → c.flights = [] → crewIdle c = true → c.gates = e :: rest →
      divided c s.cur.slot x.act = false → (bodyBits f 16 16 = 0 ∨ e.trapu = false) →
      let fail := bodyBits f 16 16 == 1
      let stat := 2 ^ 31 + (if fail then 2 ^ 28 else 0) + bodyBits f 15 0
      Answers (exec (.gret f) s) (fun t => ∃ m e', Moved s m t e' sp [] ∧ CallerBack c e' e rest fail stat ∧
        (Quiet s → m.mem = s.mem) ∧ m.bmem = s.bmem ∧ m.blocks = s.blocks ∧ m.ops = s.ops)) ∧
    (Issues s c sp (fun _ => bodyRA f ≠ 0 || bodyRB f ≠ 0 || bodyBits f 38 9 ≠ 0) → crewIdle c = true → divided c s.cur.slot x.act = true →
      exec (.gate f) s = .next (s.opening.takeCause (gateCause 0 g))) ∧
    (Issues s c sp (fun _ => bodyRA f ≠ 0 || bodyRB f ≠ 0 || bodyBits f 38 17 ≠ 0) → crewIdle c = true → c.gates = [] →
      exec (.gret f) s = .next (s.opening.takeCause (gateCause 6 0)))

/-- R215 to R217, R405: gates enter their callee and grets return to the caller, and both complete where nothing keeps them back. -/
def Obligations.GateCallsAndReturns : Prop :=
  GateCalls ∧ GatesComplete

/-- R28, R221: gets and getsp write a special register to RA, the high word of a 64-bit one to RA + 1; LANEID gives each lane its number; FPFLAGS and
RNGSEED give each lane its own; PCSLOTS gives the depth, the slots and the one that reads (R27), and the privileged view of CREWID, CLUSTERID and CORE the
place of the crew (R6, R29); CLOCK differs from die to die by at most 2. Outside a gate call a register of block scope reads as the block holds it, and in one it reads 0. -/
def Sys2Proof.Claims.SpecialRegisterReads : Prop :=
  ∀ (f : FormS) (s : State) (c : Crew) (p : Bool),
    let i := if p then Instr.getsp f else Instr.gets f
    let n := bodyBits f 7 0
    let sp : Spec := { specS f [] [grp (sysRA f) (srSpan n)] (.fixed 4) with priv := p }
    let x := s.view c sp
    let e := s.issuing c sp
    let reads := fun rows : List (Nat → Word) => Answers (exec i s) (fun t => Completed s s.opening t e sp
      ((List.range (srSpan n)).map (fun j => Wr.full (bodyRA f + j) x.act (rows.getD j (fun _ => 0#32)))))
    Issues s c sp (fun c => bodyRB f ≠ 0 || bodyBits f 38 8 ≠ 0 || !srKnown n || ctlQueueBad c (bodyRA f) (srSpan n)) → Steady s c → c.srOld = [] →
    (n = 0 → reads [fun l => BitVec.ofNat 32 l]) ∧
    (n = 0x19 → reads [rowAt c.fp]) ∧
    (n = 0x1A → reads [rowAt c.rng]) ∧
    (n = 0x38 → ∃ d, d ≤ 2 ∧ reads [fun _ => BitVec.ofNat 32 (s.clock + BitVec.ofNat 64 d).toNat, fun _ => BitVec.ofNat 32 ((s.clock + BitVec.ofNat 64 d).toNat / 2 ^ 32)]) ∧
    (n = 0x08 → reads [fun _ => BitVec.ofNat 32 (pcSlots c s.cur.slot)]) ∧
    (∀ b, p = true → s.block? c.blk = some b →
      (n = 0x02 → reads [fun _ => BitVec.ofNat 32 (c.qslot * 2 ^ 6 + c.quad * 2 ^ 4 + c.idx)]) ∧
      (n = 0x05 → reads [fun _ => BitVec.ofNat 32 ((b.group * 4 + b.rank) / 2 ^ 6 * 2 ^ 6 + c.core / 4 % 2 ^ 6)]) ∧
      (n = 0x06 → reads [fun _ => BitVec.ofNat 32 (b.vcore / 2 ^ 8 * 2 ^ 8 + c.core / 40 * 2 ^ 6 + c.core / 4 % 10 * 2 ^ 2 + c.core % 4)])) ∧
    (∀ r ∈ srReads, r.num = n → (p = true → n ∉ [2, 5, 6]) → ∀ b, s.block? c.blk = some b → n ∉ [0x1B, 0x1C, 0x2C, 0x2D, 0x31] ∨ c.gates = [] →
      reads [fun _ => BitVec.ofNat 32 (r.val s e b), fun _ => BitVec.ofNat 32 (r.val s e b / 2 ^ 32)]) ∧
    (c.gates ≠ [] → n ∈ [0x1B, 0x1C, 0x2C, 0x2D, 0x31] → reads [fun _ => 0#32, fun _ => 0#32])

/-- The state differs only in what crews may still see of special registers that others have set (R221). -/
def Sys2Proof.Claims.ButForViews (u t : State) : Prop :=
  t = { u with crews := t.crews } ∧ t.crews.map (fun y => { y with srOld := [] }) = u.crews.map (fun y => { y with srOld := [] })

/-- R28, R221, R6, R85: sets writes the value of the lowest lane, RNGSEED each lane's own; a read-only register raises PRIV, a reserved rounding code
ILLFIELD; an empty `act` writes nothing, and neither does setsp of a register that hardware alone writes. -/
def Sys2Proof.Claims.SpecialRegisterWrites : Prop :=
  ∀ (f : FormS) (s : State) (c : Crew) (p : Bool),
    let i := if p then Instr.setsp f else Instr.sets f
    let n := bodyBits f 7 0
    let sp : Spec := { specS f [grp (sysRA f) (srSpan n)] [] (.fixed 4) with priv := p, deny := !p && srKnown n && !srUser n }
    let x := s.view c sp
    let e := s.issuing c sp
    let lo := x.plain s.opening (bodyRA f)
    let v := (rowAt lo x.l0).toNat + (if srSpan n = 2 then (rowAt (x.plain s.opening (bodyRA f + 1)) x.l0).toNat * 2 ^ 32 else 0)
    let bad := fun c => bodyRB f ≠ 0 || bodyBits f 38 8 ≠ 0 || !srKnown n || ctlQueueBad c (bodyRA f) (srSpan n)
    (Issues s c sp bad → Steady s c →
      (x.act = 0#64 → Answers (exec i s) (fun t => Completed s s.opening t e sp [])) ∧
      (∀ g, x.act ≠ 0#64 → crewWrite n v lo x.act = some g →
        (n = 0x18 → modeBad v = false ∧ (v / 2 ^ 31 % 2 = 0 ∨ crewDiag c = true)) → (n = 0x30 → v / 2 ^ 2 % 4 < 2 ∧ v % 4 ≠ 3) →
        Answers (exec i s) (fun t => ∃ old, Completed s s.opening t { g e with srOld := old } sp [])) ∧
      (∀ g, x.act ≠ 0#64 → blockWrite n v = some g →
        Answers (exec i s) (fun t => ∃ t0 old, ButForViews t0 t ∧ (∀ y ∈ s.crews, y.id ≠ c.id → y.blk ≠ c.blk → y ∈ t.crews) ∧
          Completed s (if c.gates = [] then s.opening.modBlock c.blk g else s.opening) t0 { e with srOld := old } sp [])) ∧
      (x.act ≠ 0#64 → n = 0x23 → c.gates = [] → Answers (exec i s) (fun t => ∃ t0 old, ButForViews t0 t ∧
        (∀ y ∈ s.crews, y.id ≠ c.id → y.ctx ≠ c.ctx → y ∈ t.crews) ∧ Completed s (s.opening.setCtxSt { s.ctxSt c.ctx with tvec := BitVec.ofNat 64 v, tvecSet := true }) t0 { e with srOld := old } sp [])) ∧
      (x.act ≠ 0#64 → n = 0x23 → c.gates ≠ [] →
        Answers (exec i s) (fun t => ∃ old, Completed s s.opening t { e with tvec := some (BitVec.ofNat 64 v), srOld := old } sp [])) ∧
      (x.act ≠ 0#64 → p = true → ∀ g, privilegedWrite n v = some g →
        Answers (exec i s) (fun t => ∃ old, Completed s s.opening t { g e with srOld := old } sp [])) ∧
      (x.act ≠ 0#64 → p = true → n ∈ [0, 1, 2, 3, 4, 5, 6, 8, 0x21, 0x22, 0x24, 0x2C, 0x2D, 0x38] →
        Answers (exec i s) (fun t => Completed s s.opening t e sp [])) ∧
      (x.act ≠ 0#64 → n = 0x18 → (v / 2 ^ 31 % 2 = 0 ∨ crewDiag c = true) → modeBad v = true → exec i s = .next (s.opening.takeCause illField))) ∧
    (s.opening.issuer? = some c → mayIssue s.opening c sp.h = true → (p = true → c.priv ≠ 2) → (p = false → srKnown n = true ∧ srUser n = false) →
      exec i s = .next (s.opening.takeCause privCause))

/-- R6, R28, R85, R221: reads and writes of the special registers. -/
def Obligations.SpecialRegisters : Prop :=
  SpecialRegisterReads ∧ SpecialRegisterWrites

/-- R222 to R224, R228: ifence discards the lines of its core; icinv drops the lines of a range, cwb and cinv change no byte; tlbinv takes its entries away;
sigh releases and raises its MSI-X vector. -/
def Sys2Proof.Claims.MaintenanceResults : Prop :=
  ∀ (f : FormS) (s : State) (c : Crew),
    let va := fun x : Ctx => (rowAt (x.plain s.opening (bodyRA f + 1)) x.l0).toNat * 2 ^ 32 + (rowAt (x.plain s.opening (bodyRA f)) x.l0).toNat
    let r := s.opening.release
    let rb := fun x : Ctx => (rowAt (x.plain s.opening (bodyRB f)) x.l0).toNat
    let ends := fun (i : Instr) (sp : Spec) (m : State) => Answers (exec i s) (fun t => Completed s m t (s.issuing c sp) sp [])
    Steady s c →
    (let sp := specS f [] [] .none
     Issues s c sp (fun _ => f.body ≠ 0#55) → Answers (exec (.ifence f) s) (fun t =>
      t.icache = s.icache.filter (fun l => l.core ≠ c.core) ∧ t.mem = s.mem ∧ ∃ c' ∈ t.crews, c'.id = c.id ∧ (c'.slot s.cur.slot).pc = s.cur.next ∧ c'.regs = c.regs)) ∧
    (let sp := sysSpec f [grp (sysRA f) 2, one (sysRB f)] true false
     let x := s.view c sp
     Issues s c sp (fun c => bodyBits f 38 0 ≠ 0 || ctlQueueBad c (bodyRA f) 2 || ctlQueueBad c (bodyRB f) 1) →
      (x.act = 0#64 → ∀ i ∈ [Instr.icinv f, .cwb f, .cinv f], ends i sp s.opening) ∧
      (x.act ≠ 0#64 → rb x = 0 → ∀ i ∈ [Instr.icinv f, .cwb f, .cinv f], ends i sp r) ∧
      (x.act ≠ 0#64 → 0 < rb x → (s.issued c sp).release.rangeFault c.asid (va x) ((va x % 65536 + rb x + 65535) / 65536) 0 = none →
        ends (.icinv f) sp { r with
          icache := r.icache.filter (fun l => !(l.asid == c.asid && decide (va x / 64 * 64 ≤ l.va) && decide (l.va < va x + rb x))) } ∧
        ∀ i ∈ [Instr.cwb f, .cinv f], ends i sp r)) ∧
    (let sp := sysSpec f [grp (sysRA f) 2, one (sysRB f)] true false
     let x := s.view c sp
     Issues s c sp (fun c => bodyBits f 38 2 ≠ 0 || bodyBits f 1 0 == 3 || ctlQueueBad c (bodyRA f) 2 || ctlQueueBad c (bodyRB f) 1) → x.act ≠ 0#64 →
      let size := 2 ^ [16, 21, 30].getD (bodyBits f 1 0) 0
      ends (.tlbinvVa f) sp { r.invalidate (some (rb x % 65536)) (some (va x / size * size, size)) with tlb := r.tlb.filter (fun t => !(t.asid == rb x % 65536 && t.size == size && t.va == va x / size * size)) }) ∧
    (let sp := sysSpec f [one (sysRB f)] true false
     let x := s.view c sp
     Issues s c sp (fun c => bodyRA f ≠ 0 || bodyBits f 38 0 ≠ 0 || ctlQueueBad c (bodyRB f) 1) → x.act ≠ 0#64 →
      Answers (exec (.tlbinvAsid f) s) (fun t => ∃ roots, Completed s { r.invalidate (some (rb x % 65536)) none with
        tlb := r.tlb.filter (fun t => t.asid ≠ rb x % 65536), hcache := r.hcache.filter (fun h => h.asid ≠ rb x % 65536), asids := roots } t (s.issuing c sp) sp [])) ∧
    (let sp := sysSpec f [] true false
     let x := s.view c sp
     Issues s c sp (fun _ => f.body ≠ 0#55) → x.act ≠ 0#64 →
      Answers (exec (.tlbinvAll f) s) (fun t => ∃ roots, Completed s { r.invalidate none none with tlb := [], hcache := [], asids := roots } t (s.issuing c sp) sp [])) ∧
    (let sp := sysSpec f [] true true
     let x := s.view c sp
     Issues s c sp (fun _ => bodyRA f ≠ 0 || bodyRB f ≠ 0 || bodyBits f 38 11 ≠ 0) → x.act ≠ 0#64 →
      ends (.sigh f) sp (r.postMsix (bodyBits f 10 0)))

/-- R223: icinv, cwb and cinv complete over a range in one page that translates. -/
def Sys2Proof.Claims.RangesComplete : Prop :=
  ∀ (f : FormS) (s : State) (c : Crew), Steady s c →
    let sp := sysSpec f [grp (sysRA f) 2, one (sysRB f)] true false
    let x := s.view c sp
    let va := (rowAt (x.plain s.opening (bodyRA f + 1)) x.l0).toNat * 2 ^ 32 + (rowAt (x.plain s.opening (bodyRA f)) x.l0).toNat
    let len := (rowAt (x.plain s.opening (bodyRB f)) x.l0).toNat
    Issues s c sp (fun c => bodyBits f 38 0 ≠ 0 || ctlQueueBad c (bodyRA f) 2 || ctlQueueBad c (bodyRB f) 1) → x.act ≠ 0#64 →
    0 < len → va % 65536 + len ≤ 65536 → canonical va = true →
    (∃ l, (s.issued c sp).release.place c.asid va { r := false, w := false, x := false, space := 0 } 13 = .ok l) →
    Answers (exec (.icinv f) s) (GoneOn s c) ∧ Answers (exec (.cwb f) s) (GoneOn s c) ∧ Answers (exec (.cinv f) s) (GoneOn s c)

/-- R222 to R224, R228: ifence, icinv, cwb, cinv, tlbinv and sigh have their effects, and complete. -/
def Obligations.Maintenance : Prop :=
  MaintenanceResults ∧ RangesComplete

/-- R225, R250, R253: launch reads the record that its handle names, after a release, and submits it: rejected with a reason, or pending, or for the
classes B and H admitted; its crew then goes on. Without LNCH it raises PRIV, before anything is released or read; with every launch slot in use it waits. -/
def Obligations.LaunchSubmits : Prop :=
  ∀ (f : FormS) (s : State) (c : Crew) (loc : Loc),
    let sp := sysSpec f [one (sysRA f), one (sysRB f)] false true
    let x := s.view c sp
    let hv := (rowAt (x.plain s.opening (bodyRA f)) x.l0).toNat % 2 ^ 11
    let off := (rowAt (x.plain s.opening (bodyRB f)) x.l0).toNat
    let s1 := s.issued c sp
    let h := s1.handle c.asid (dieOfCore c.core) c.ht hv 16
    let a : Acc := { l := x.l0, hidx := hv, e := h, off := off, va := (h.base + off) % 2 ^ 64 }
    let m := noteUse s1.release x.c [a]
    Issues s c sp (fun c => bodyBits f 38 0 ≠ 0 || ctlQueueBad c (bodyRA f) 1 || ctlQueueBad c (bodyRB f) 1) → Steady s c →
    (x.act = 0#64 → Answers (exec (.launch f) s) (fun t => Completed s s.opening t (s.issuing c sp) sp [])) ∧
    (x.act ≠ 0#64 → 256 ≤ s.launchSlots.length → exec (.launch f) s = .next { s.opening with heldMark := true }) ∧
    (x.act ≠ 0#64 → s.launchSlots.length < 256 → off % 128 = 0 →
      (Reaches s1.release x.c a 128 [1, 5, 7] (fun e => e.r) true false true loc → (s.ctxDesc c.ctx).lnch = true →
        m.recordWaits (recordCtx (m.load (dieOfCore c.core) loc 128) c.ctx) = false →
        Answers (exec (.launch f) s) (fun t => Completed s (m.submit (m.load (dieOfCore c.core) loc 128) c.ctx c.asid a.va h.w) t (s.issuing c sp) sp [])) ∧
      (h.wait = false → checkAcc s1 x.c [a] 128 [1, 5, 7] (fun e => e.r) = none → (s.ctxDesc c.ctx).lnch = false →
        Raises (.launch f) s c sp { privCause with atIssue := false } id))

/-- R226, R227: yield lets its block be switched out; hvhint.lend and hvhint.recall turn lending on and start its revocation, for an owner block with a lend
amount, and do nothing otherwise. -/
def Obligations.YieldAndHarvestHints : Prop :=
  ∀ (f : FormS) (s : State) (c : Crew),
    let sp := specS f [] [] .none
    let x := s.view c sp
    let ends := fun (i : Instr) (m : State) => Answers (exec i s) (fun t => Completed s m t (s.issuing c sp) sp [])
    Steady s c →
    (Issues s c sp (fun _ => f.body ≠ 0#55) →
      (x.act = 0#64 → ends (.yield f) s.opening) ∧
      (x.act ≠ 0#64 → ends (.yield f) (s.opening.modBlock c.blk (fun b =>
        { b with yielded := (c.id, s.order) :: b.yielded.filter (fun p => p.1 ≠ c.id) }))) ∧
      (hintActs x s = false → ends (.hvhintRecall f) s.opening) ∧
      (hintActs x s = true → ends (.hvhintRecall f) (s.opening.modCore c.core (fun k =>
        { k with relend := false, revoke := if k.lending ∧ k.revoke = 0 then 1 else k.revoke })))) ∧
    (Issues s c sp (fun _ => f.body ≠ 1#55) →
      (hintActs x s = false → ends (.hvhintLend f) s.opening) ∧
      (hintActs x s = true → (s.core c.core).revoke = 0 → (s.core c.core).lending = false →
        ends (.hvhintLend f) (s.opening.modCore c.core (fun k => { k with lending := true, interf := 0 }))))

/-- R309, R311, R313: the register instructions write D and go on in sequence; nop only goes on. The next PC must lie in the region, or CFI. -/
def Sys2Proof.Claims.CoxRegisterInstructions : Prop :=
  ∀ (s : State) (sl : CoxSlot), CoxRuns s sl →
    let writes := fun (i : Instr) (d : BitVec 4) (v : DWord) =>
      (s.inRegion s.cur.port sl (sl.pc + 1) = true → exec i s = .next (withSlot s s.opening (fun x => retire sl (sl.pc + 1) { x with regs := x.regs.set d.toNat v }))) ∧
      (s.inRegion s.cur.port sl (sl.pc + 1) = false → exec i s = .next (s.opening.coxFault s.cur.port s.cur.ctxSlot 0x03 0 0 0))
    (∀ r ∈ coxAluRows, ∀ f : FormCR, r.2.1 f = false → writes (r.1 f) f.d (r.2.2 (creg sl f.a) (creg sl f.b))) ∧
    (∀ r ∈ coxAluRows, ∀ f : FormCR, r.2.1 f = true → exec (r.1 f) s = .next (s.opening.coxFault s.cur.port s.cur.ctxSlot 0x02 0 0 0)) ∧
    (∀ f : FormCI, f.rsv = 0#18 → f.a = 0#4 → writes (.coxMovi f) f.d (f.imm.signExtend 64)) ∧
    (∀ f : FormCI, f.rsv = 0#18 → writes (.coxAddi f) f.d (creg sl f.a + f.imm.signExtend 64)) ∧
    ∀ f : FormCR, f.rsv = 0#46 → f.d = 0#4 → f.a = 0#4 → f.b = 0#4 → s.inRegion s.cur.port sl (sl.pc + 1) = true →
      exec (.coxNop f) s = .next (withSlot s s.opening (retire sl (sl.pc + 1)))

/-- R312, R309: a branch goes to its target where its comparison holds and on in sequence otherwise; loop lowers its counter and goes to its target
while the counter is not zero. -/
def Sys2Proof.Claims.CoxBranches : Prop :=
  ∀ (s : State) (sl : CoxSlot), CoxRuns s sl →
    (∀ r ∈ coxBranchRows, ∀ f : FormCB, r.2.1 f = false →
      let dest := if r.2.2 (creg sl f.a) (creg sl f.b) then f.tgt.toNat else sl.pc + 1
      (s.inRegion s.cur.port sl dest = true → exec (r.1 f) s = .next (withSlot s s.opening (retire sl dest))) ∧
      (s.inRegion s.cur.port sl dest = false → exec (r.1 f) s = .next (s.opening.coxFault s.cur.port s.cur.ctxSlot 0x03 0 0 0))) ∧
    ∀ f : FormCB, f.rsv = 0#38 → f.b = 0#4 →
      let v := creg sl f.a - 1#64
      let dest := if v = 0#64 then sl.pc + 1 else f.tgt.toNat
      s.inRegion s.cur.port sl dest = true →
      exec (.coxLoop f) s = .next (withSlot s s.opening (fun x => retire sl dest { x with regs := x.regs.set f.a.toNat v }))

/-- R309, R311 to R313: the register instructions and the branches of a cox. -/
def Obligations.CoxSequence : Prop :=
  CoxRegisterInstructions ∧
  CoxBranches

/-- R313, R327 to R329: halt frees its slot, yield is a chunk boundary, trap stops its context in FAULT at the next PC with cause SWTRAP and its
operand, abort begins the abort of its group and waits for it; an unlisted opcode stops in FAULT with ILLOP. -/
def Obligations.CoxControl : Prop :=
  ∀ (s : State) (sl : CoxSlot), CoxRuns s sl →
    let on := s.inRegion s.cur.port sl (sl.pc + 1) = true
    (∀ f : FormCR, f.rsv = 0#46 → f.d = 0#4 → f.a = 0#4 → f.b = 0#4 →
      exec (.coxHalt f) s = .next (s.opening.coxFree s.cur.port s.cur.ctxSlot) ∧
      (on → Undisturbed sl → exec (.coxYield f) s = .next (boundary s s.opening (sl.pc + 1)))) ∧
    (∀ f : FormCI, f.rsv = 0#18 → f.d = 0#4 → f.a = 0#4 → f.imm.toNat < 2 ^ 16 → on → Undisturbed sl →
      let m := withSlot s s.opening (fun x => { x with pc := sl.pc + 1, st := 4, cause := 0x14, sub := 0, why := 0, step := false, spin := 0, send := none })
      exec (.coxTrap f) s = .next (m.coxRecord s.cur.port s.cur.ctxSlot 0x14 0 0 f.imm.toNat)) ∧
    (∀ f : FormCI, f.rsv = 0#18 → f.d = 0#4 → f.a = 0#4 → f.imm = 0#32 →
      exec (.coxAbort f) s = .next ((waits s (s.opening.startAbort sl.group sl.seq) 0).coxPending s.cur.port s.cur.ctxSlot)) ∧
    ∀ (opc : BitVec 6) (rest : BitVec 58), exec (.coxIllop opc rest) s = .next (s.opening.coxFault s.cur.port s.cur.ctxSlot 0x01 0 0 0)

/-- R314 to R319: post opens a window on a chunk, recv and comb close it when the whole chunk has landed (comb after combining it into its own chunk),
send puts every packet of its chunk on its way, waits, and retires when all are accepted; combf combines and then sends; fwd sends the chunk that has
landed in its window, and closes the window when all of it is accepted. -/
def Sys2Proof.Claims.CoxChunkInstructions : Prop :=
  ∀ (f : FormCC) (s : State) (sl : CoxSlot), CoxRuns s sl → Undisturbed sl → f.rsv = 0#30 → s.inRegion s.cur.port sl (sl.pc + 1) = true →
    let s0 := s.opening
    let port := s.cur.port
    let k := s.cur.ctxSlot
    let tag := f.wtag.toNat
    let ct := (creg sl f.treg).toNat
    let chunk := (creg sl f.ireg).toNat
    let d := sl.buf f.buf.toNat
    let begins := fun (i : Instr) (m : State) (buf chunk : Nat) =>
      let sd := newSend s m sl buf chunk ct f.stag.toNat
      let m1 := { withSlot s m (fun x => { x with send := some sd }) with order := m.order + 1 }
      let sl1 := m.coxSlot port k
      Answers (exec i s) (fun t => t = (waits s (m1.coxEmit port k sl1 sd sd.left) 1).coxPending port k)
    (f.treg = 0#4 → f.stag = 0#8 → BufferOk sl f → (∀ w ∈ sl.wins, w.tag ≠ tag) → sl.wins.length < 4 → d.hf = false →
      exec (.coxPost f) s = .next (withSlot s { s0 with frags := s.frags.filter (fun g => g.key ≠ [65536 + port * 8 + k, tag]) } (fun x => retire sl (sl.pc + 1) { x with wins := x.wins ++
        [{ tag := tag, buf := f.buf.toNat, chunk := chunk, landed := 0, fva := none, fsub := 0, poison := false, pva := 0 }] }))) ∧
    (f.buf = 0#4 → f.ireg = 0#4 → f.treg = 0#4 → f.stag = 0#8 → Landed sl tag →
      exec (.coxRecv f) s = .next (boundary s (withSlot s s0 (fun x => { x with wins := closed sl tag })) (sl.pc + 1))) ∧
    (f.treg = 0#4 → f.stag = 0#8 → BufferOk sl f → Landed sl tag → SameShape sl f → ∀ m, combineChunk s0 port k f.buf f.ireg tag = .ok m →
      exec (.coxComb f) s = .next (boundary s (withSlot s m (fun x => { x with wins := closed sl tag })) (sl.pc + 1))) ∧
    (f.wtag = 0#8 → BufferOk sl f → TargetOk s sl f → sl.send = none →
      (∃ ps, coxSpan s0 port sl d false (chunk * 2 ^ d.lch) (2 ^ d.lch) = .ok ps) →
      let sd := newSend s s0 sl f.buf.toNat chunk ct f.stag.toNat
      let m := { withSlot s s0 (fun x => { x with send := some sd }) with order := s.order + 1 }
      exec (.coxSend f) s = .next ((waits s (m.coxEmit port k sl sd sd.left) 1).coxPending port k)) ∧
    (f.wtag = 0#8 → BufferOk sl f → TargetOk s sl f → ∀ sd, sl.send = some sd → sd.fail = none → sd.left = [] →
      exec (.coxSend f) s = .next (boundary s (withSlot s s0 (fun x => { x with send := none, phase := false })) (sl.pc + 1))) ∧
    (BufferOk sl f → TargetOk s sl f → Landed sl tag → SameShape sl f → sl.phase = false → sl.send = none →
      ∀ m, combineChunk s0 port k f.buf f.ireg tag = .ok m →
      let m1 := withSlot s m (fun x => { x with wins := closed sl tag, phase := true })
      (∃ ps, coxSpan m1 port (m1.coxSlot port k) d false (chunk * 2 ^ d.lch) (2 ^ d.lch) = .ok ps) → begins (.coxCombf f) m1 f.buf.toNat chunk) ∧
    (BufferOk sl f → TargetOk s sl f → sl.phase = true → ∀ sd, sl.send = some sd → sd.fail = none → sd.left = [] →
      exec (.coxCombf f) s = .next (boundary s (withSlot s s0 (fun x => { x with send := none, phase := false })) (sl.pc + 1))) ∧
    (f.buf = 0#4 → f.ireg = 0#4 → TargetOk s sl f → Landed sl tag → sl.phase = false → sl.send = none →
      let w := sl.win tag
      let wd := sl.buf w.buf
      let m1 := withSlot s s0 (fun x => { x with phase := true })
      (∃ ps, coxSpan m1 port (m1.coxSlot port k) wd false (w.chunk * 2 ^ wd.lch) (2 ^ wd.lch) = .ok ps) → begins (.coxFwd f) m1 w.buf w.chunk) ∧
    (f.buf = 0#4 → f.ireg = 0#4 → TargetOk s sl f → Landed sl tag → sl.phase = true → ∀ sd, sl.send = some sd → sd.fail = none → sd.left = [] →
      exec (.coxFwd f) s = .next (boundary s (withSlot s s0 (fun x => { x with send := none, phase := false, wins := closed sl tag })) (sl.pc + 1)))

/-- R314: the checks of a send are made in order, and the first that fails stops the context in FAULT: HANDLE for an invalid buffer, BOUND for a chunk
index past COUNT, FABRIC subcode 6 for the target; a tag that has not been posted is FABRIC subcode 2. -/
def Sys2Proof.Claims.CoxChunkChecks : Prop :=
  ∀ (f : FormCC) (s : State) (sl : CoxSlot), CoxRuns s sl → f.rsv = 0#30 → s.inRegion s.cur.port sl (sl.pc + 1) = true →
    let stops := fun (i : Instr) (code sub : Nat) => exec i s = .next (s.opening.coxFault s.cur.port s.cur.ctxSlot code sub 0 0)
    (f.wtag = 0#8 →
      ((sl.buf f.buf.toNat).v = false → stops (.coxSend f) 0x0B 0) ∧
      ((sl.buf f.buf.toNat).v = true → (sl.buf f.buf.toNat).count ≤ (creg sl f.ireg).toNat → stops (.coxSend f) 0x0A 0) ∧
      (BufferOk sl f → ¬ TargetOk s sl f → stops (.coxSend f) 0x0F 6)) ∧
    (f.buf = 0#4 → f.ireg = 0#4 → f.treg = 0#4 → f.stag = 0#8 → (∀ w ∈ sl.wins, w.tag ≠ f.wtag.toNat) → stops (.coxRecv f) 0x0F 2)

/-- R314, R317, R318: a comb completes where its window has its whole chunk and the two chunks lie each in one page that translates. -/
def Sys2Proof.Claims.CoxCombineCompletes : Prop :=
  ∀ (f : FormCC) (s : State) (sl : CoxSlot) (w own src : Loc), CoxRuns s sl → Undisturbed sl → f.rsv = 0#30 → f.treg = 0#4 → f.stag = 0#8 →
    s.inRegion s.cur.port sl (sl.pc + 1) = true → BufferOk sl f → Landed sl f.wtag.toNat → SameShape sl f →
    let d := sl.buf f.buf.toNat
    let win := sl.win f.wtag.toNat
    let n := 2 ^ d.lch
    Mapped s.opening s.cur.port sl d true ((creg sl f.ireg).toNat * n) n w → Mapped s.opening s.cur.port sl d false ((creg sl f.ireg).toNat * n) n own →
    Mapped s.opening s.cur.port sl (sl.buf win.buf) false (win.chunk * n) n src →
    Answers (exec (.coxComb f) s) (fun t => (t.coxSlot s.cur.port s.cur.ctxSlot).pc = sl.pc + 1 ∧
      (t.coxSlot s.cur.port s.cur.ctxSlot).wins = closed sl f.wtag.toNat)

/-- R314 to R319: the chunk instructions of a cox, and the checks of a send. -/
def Obligations.CoxChunks : Prop :=
  CoxChunkInstructions ∧ CoxChunkChecks ∧ CoxCombineCompletes

/-- R298, R320: waitf completes where its flag, a word of a buffer without handle in a page that translates and holds no poison, has reached its target;
sigf where the page can be read and written too. -/
def Sys2Proof.Claims.CoxFlagsComplete : Prop :=
  ∀ (f : FormCF) (s : State) (sl : CoxSlot) (l w : Loc), CoxRuns s sl → Undisturbed sl → f.rsv = 0#46 → s.inRegion s.cur.port sl (sl.pc + 1) = true →
    let d := sl.buf f.buf.toNat
    let off := (creg sl f.oreg).toNat
    let die := s.cur.port / 8
    let flag := leNat ((s.opening.beforeLoad die l 4).load die l 4)
    d.v = true → off % 4 = 0 → off < d.count * 2 ^ d.lch → Mapped s.opening s.cur.port sl d false off 4 l →
    s.opening.locPoison die l 4 = false → (∀ p, s.opening.paKind (l.readPa die) ≠ .far p) →
    ((flag + 2 ^ 32 - (creg sl f.vreg).toNat % 2 ^ 32) % 2 ^ 32 < 2 ^ 31 →
      Answers (exec (.coxWaitf f) s) (fun t => (t.coxSlot s.cur.port s.cur.ctxSlot).pc = sl.pc + 1)) ∧
    (Mapped s.opening s.cur.port sl d true off 4 w → s.opening.locReady die l.home = .yes → s.opening.locPoison die l.home 4 = false →
      Answers (exec (.coxSigf f) s) (fun t => (t.coxSlot s.cur.port s.cur.ctxSlot).pc = sl.pc + 1))

/-- R320, R298: waitf goes on when the flag word has reached its target modulo 2^32 and waits otherwise; sigf adds to the flag word after a release. -/
def Sys2Proof.Claims.CoxFlagResults : Prop :=
  ∀ (f : FormCF) (s : State) (sl : CoxSlot) (l : Loc) (va : Nat), CoxRuns s sl → Undisturbed sl → f.rsv = 0#46 → s.inRegion s.cur.port sl (sl.pc + 1) = true →
    let s0 := s.opening
    let die := s.cur.port / 8
    let v := (creg sl f.vreg).toNat % 2 ^ 32
    (flagPlace s0 s.cur.port sl f false = .ok (l, va) → Quiet s →
      let flag := leNat (s0.load die l 4)
      ((flag + 2 ^ 32 - v) % 2 ^ 32 < 2 ^ 31 → exec (.coxWaitf f) s = .next (withSlot s s0 (retire sl (sl.pc + 1)))) ∧
      (2 ^ 31 ≤ (flag + 2 ^ 32 - v) % 2 ^ 32 → exec (.coxWaitf f) s = .next (waits s s0 3))) ∧
    (flagPlace s0 s.cur.port sl f true = .ok (l, va) →
      exec (.coxSigf f) s = .next (withSlot s (atomStep (fun a b => some ((a + b) % 2 ^ 32)) 4 die l v s0.release).1 (retire sl (sl.pc + 1))))

/-- R298, R320: what waitf and sigf do, and that they complete. -/
def Obligations.CoxFlagInstructions : Prop :=
  CoxFlagResults ∧ CoxFlagsComplete

/-- R45, R46, R167, R169, R175 to R184, R236, R241, R388: what the units beside the crews do: completions, held records, the steps of the copy engine and of tile signals, arriving writes, prefetches. -/
def Obligations.UnitAndMemoryEvents : Prop :=
  CompletionEvent ∧ HeldRecordEvents ∧ CopyEvent ∧ TileSignalEvent ∧ ArrivalEvents ∧ PrefetchEvents

/-- R197, R200, R202 to R205, R266, R267: the tile engines and the accumulator allocator. -/
def Obligations.TileEngineEvents : Prop := TileEvents ∧ TileRowEvents ∧ AllocatorEvents

/-- R11, R14, R253 to R261: admission, placement and retirement of launches, blocks and crews. -/
def Obligations.LaunchEvents : Prop := AdmissionEvents ∧ PlacementEvent ∧ RetireEvents

/-- R157, R218, R246, R255, R264, R265, R269 to R276, R367, R369, R379: blocks that move, contexts that are pre-empted and restored, harvest state that is parked, and the time limits. -/
def Obligations.ContextAndTimeEvents : Prop :=
  MoveEvents ∧ PreemptEvents ∧ HarvestMoves ∧ TimeEvents

/-- R283 to R287, R185, R186: headers, forwarding, and what WRITE, READREQ, ATOMIC, READRSP, MARKER and MARKACK do where they land. -/
def Obligations.PacketEvents : Prop := HeaderWords ∧ ForwardEvent ∧ AnswerLands ∧ WriteEvent ∧ ReadEvent ∧ AtomicEvent ∧ ResponseEvent ∧ MarkerEvents

/-- R290 to R297, R321 to R326: the packets of groups: probes, reductions, chunks, starts, aborts, and the response timeout. -/
def Obligations.GroupPacketEvents : Prop := GroupEvents ∧ ChunkEvents ∧ AbortEvents

/-- R301 to R305, R324 to R332, R418: what happens to cox contexts beside their instructions. -/
def Obligations.CoxContextEvents : Prop := CoxWaitEvents ∧ CoxWriteEvents

/-- R280, R286, R295, R433 to R435, R440 to R444: ports, their keys and their frames. -/
def Obligations.PortEvents : Prop := PortStateEvents ∧ FrameEvents ∧ PortConfigEvents

/-- R427 to R439, R455: the twelve commands of the security processor and its mailbox. -/
def Obligations.SecurityProcessor : Prop := MailboxEvent ∧ IdentityCommands ∧ KeyDomainCommands ∧ PackageCommands ∧ FirmwareCommands

/-- R288, R391, R409, R414 to R417, R420: what the host does to the package. -/
def Obligations.HostEvents : Prop := FaultResponses ∧ HostAccessEvents

/-- R408, R415, R421 to R426, R446 to R454: bring-up, power, clock and errors. -/
def Obligations.PackageEvents : Prop := BringUpEvents ∧ PowerAndErrorEvents

/-- R33, R34, R36 to R40: the layout of a line, which lines are malformed, and what a transfer finds at its target. -/
def Obligations.LinesAndTargets : Prop :=
  LineLayout ∧ LineChecks ∧ TransferTarget

/-- A step runs the instruction decoded from the bytes at the program counter of the crew or cox whose turn it is, or an event of the units; R42, R59, R262:
pairs, pipes, and the order in which the slots of a quad are tried. -/
def Obligations.StepRunsDecoded : Prop :=
  TurnSteps ∧ SingleIssue ∧ FetchThenIssue ∧ PairIssue ∧ PipeIntervals ∧ IssueOrder

/-- R49, R62, R63, R307, R308: every well-formed instruction that has words is what they decode to, and every word is the word of the instruction it
decodes to. -/
def Obligations.DecodeOfEncode : Prop :=
  (∀ (i : Instr), wellFormed i = true → match encode i with
    | some (.crew w) => decodeCrew w = i
    | some (.cox w) => decodeCox w = i
    | none => ∀ w v, decodeCrew w ≠ i ∧ decodeCox v ≠ i) ∧
  (∀ w, wellFormed (decodeCrew w) = true ∧ encode (decodeCrew w) = some (.crew w)) ∧
  ∀ w, wellFormed (decodeCox w) = true ∧ encode (decodeCox w) = some (.cox w)

/-- R58, R381: the checks made at issue, in their order. -/
def Obligations.IssueChecks : Prop :=
  RowChecks ∧ PrivilegedInUserView ∧ UnassignedOperation

/-- R381, R384, R385, R388 to R390: how a cause is taken: the stall and its record, or the entry of the trap queue and its delivery. -/
def Obligations.CausesTaken : Prop :=
  CauseTaken ∧ RecordPosted

/-- The machine after reset: every value that the specification gives. -/
def Obligations.ResetState : Prop := ResetValues

/-- The machine after reset meets the invariant: the memories are in canonical form, and the parts stand in their fixed numbers. -/
def Obligations.ResetIsCanonical : Prop :=
  State.reset.memoryCanonical = true ∧ State.reset.sized = true

/-- Every step keeps the invariant: the four memories stay in canonical form, and the package keeps 160 cores, 256 address groups, 256 key-domains,
32 ports and 32 coxes. -/
def Obligations.StepKeepsCanonical : Prop :=
  ∀ s t : State, s.memoryCanonical = true → s.sized = true → step s = .next t → t.memoryCanonical = true ∧ t.sized = true

/-- Words that the specification works out field by field: fadd, cmp.lt.i32, qdef, ld.b32, gate, and the cox words of recv and mov; and nop with no field set. -/
def Obligations.WorkedEncodings : Prop :=
  decodeCrew 0x2008023C2380004010141800#96 = .faddF32 ⟨⟨2#4, 8#12, 15#4, 0#2⟩, ⟨1#3, 3#5, 1#1⟩, g0, 0x010#12, 4#8, 5#8, 6#8, 0#8, 0#2⟩ ∧
  decodeCrew 0x1880003C007C827FFFFFFEC5#96 = .cmpLtI32 ⟨hd 15#4, g0, 249#8, 4#8, 0xFFFFFFFD#32, 0x45#7⟩ ∧
  decodeCrew 0x1C00003C0014000000000102#96 = .qdef ⟨hd 15#4, g0, 40#8, 0#8, 2#32, 2#7⟩ ∧
  decodeCrew 0x7240003C0000000000000000#96 = .nop ⟨hd 15#4, g0, 0#55⟩ ∧
  decodeCrew 0x810800000000000C10040000#96 = .ldB32 ⟨⟨2#4, 0#12, 0#4, 0#2⟩, g0, g0, 3#12, 4#8, 1#8, 0#8, 0#10⟩ ∧
  decodeCrew 0xD200003C0000000000000103#96 = .gate ⟨hd 15#4, g0, 0x103#55⟩ ∧
  decodeCox 0x880000C000000000#64 = .coxRecv ⟨0#4, 0#4, 0#4, 3#8, 0#8, 0#30⟩ ∧
  decodeCox 0x23F4000000000000#64 = .coxMov ⟨15#4, 13#4, 0#4, 0#46⟩
end

