-- ==== Sys2Proof/Laws/Decode.lean ====
section
/-!
SUPPORT. Laws/Decode.lean: each format read back from its own words, and each word built back from its fields: no bit of an encoding is
lost or read twice.
-/

namespace Sys2Proof

theorem FormR.ofWord_toWord (f : FormR) (opc : BitVec 10) : FormR.ofWord (f.toWord opc) = f := by
  obtain ⟨⟨st, wa, se, hi⟩, ⟨kga, bga, nga⟩, ⟨kgb, bgb, ngb⟩, md_, d_, a_, b_, c_, rsv_⟩ := f
  simp only [FormR.ofWord, FormR.toWord, Hdr.ofWord, Hdr.bits, Guard.ofWord, Guard.bits, FormR.mk.injEq, Hdr.mk.injEq, Guard.mk.injEq]
  refine ⟨⟨?_, ?_, ?_, ?_⟩, ⟨?_, ?_, ?_⟩, ⟨?_, ?_, ?_⟩, ?_, ?_, ?_, ?_, ?_, ?_⟩ <;>
    (apply BitVec.eq_of_getLsbD_eq; intro i hi; simp only [BitVec.getLsbD_extractLsb', BitVec.getLsbD_append]; interval_cases i <;> rfl)
theorem FormR.toWord_ofWord (w : BitVec 96) : (FormR.ofWord w).toWord (opcOf w) = w := by
  simp only [FormR.ofWord, FormR.toWord, Hdr.ofWord, Hdr.bits, Guard.ofWord, Guard.bits, opcOf]
  (apply BitVec.eq_of_getLsbD_eq; intro i hi; simp only [BitVec.getLsbD_extractLsb', BitVec.getLsbD_append]; interval_cases i <;> rfl)
theorem FormR.opcOf_toWord (f : FormR) (opc : BitVec 10) : opcOf (f.toWord opc) = opc := by
  simp only [FormR.toWord, Hdr.bits, opcOf]
  (apply BitVec.eq_of_getLsbD_eq; intro i hi; simp only [BitVec.getLsbD_extractLsb', BitVec.getLsbD_append]; interval_cases i <;> rfl)

theorem FormX.ofWord_toWord (f : FormX) (opc : BitVec 10) : FormX.ofWord (f.toWord opc) = f := by
  obtain ⟨⟨st, wa, se, hi⟩, ⟨kga, bga, nga⟩, ⟨kgb, bgb, ngb⟩, d_, a_, b_, c_, e_, rsv_⟩ := f
  simp only [FormX.ofWord, FormX.toWord, Hdr.ofWord, Hdr.bits, Guard.ofWord, Guard.bits, FormX.mk.injEq, Hdr.mk.injEq, Guard.mk.injEq]
  refine ⟨⟨?_, ?_, ?_, ?_⟩, ⟨?_, ?_, ?_⟩, ⟨?_, ?_, ?_⟩, ?_, ?_, ?_, ?_, ?_, ?_⟩ <;>
    (apply BitVec.eq_of_getLsbD_eq; intro i hi; simp only [BitVec.getLsbD_extractLsb', BitVec.getLsbD_append]; interval_cases i <;> rfl)
theorem FormX.toWord_ofWord (w : BitVec 96) : (FormX.ofWord w).toWord (opcOf w) = w := by
  simp only [FormX.ofWord, FormX.toWord, Hdr.ofWord, Hdr.bits, Guard.ofWord, Guard.bits, opcOf]
  (apply BitVec.eq_of_getLsbD_eq; intro i hi; simp only [BitVec.getLsbD_extractLsb', BitVec.getLsbD_append]; interval_cases i <;> rfl)
theorem FormX.opcOf_toWord (f : FormX) (opc : BitVec 10) : opcOf (f.toWord opc) = opc := by
  simp only [FormX.toWord, Hdr.bits, opcOf]
  (apply BitVec.eq_of_getLsbD_eq; intro i hi; simp only [BitVec.getLsbD_extractLsb', BitVec.getLsbD_append]; interval_cases i <;> rfl)

theorem FormI.ofWord_toWord (f : FormI) (opc : BitVec 10) : FormI.ofWord (f.toWord opc) = f := by
  obtain ⟨⟨st, wa, se, hi⟩, ⟨kga, bga, nga⟩, d_, a_, imm_, sub_⟩ := f
  simp only [FormI.ofWord, FormI.toWord, Hdr.ofWord, Hdr.bits, Guard.ofWord, Guard.bits, FormI.mk.injEq, Hdr.mk.injEq, Guard.mk.injEq]
  refine ⟨⟨?_, ?_, ?_, ?_⟩, ⟨?_, ?_, ?_⟩, ?_, ?_, ?_, ?_⟩ <;>
    (apply BitVec.eq_of_getLsbD_eq; intro i hi; simp only [BitVec.getLsbD_extractLsb', BitVec.getLsbD_append]; interval_cases i <;> rfl)
theorem FormI.toWord_ofWord (w : BitVec 96) : (FormI.ofWord w).toWord (opcOf w) = w := by
  simp only [FormI.ofWord, FormI.toWord, Hdr.ofWord, Hdr.bits, Guard.ofWord, Guard.bits, opcOf]
  (apply BitVec.eq_of_getLsbD_eq; intro i hi; simp only [BitVec.getLsbD_extractLsb', BitVec.getLsbD_append]; interval_cases i <;> rfl)
theorem FormI.opcOf_toWord (f : FormI) (opc : BitVec 10) : opcOf (f.toWord opc) = opc := by
  simp only [FormI.toWord, Hdr.bits, opcOf]
  (apply BitVec.eq_of_getLsbD_eq; intro i hi; simp only [BitVec.getLsbD_extractLsb', BitVec.getLsbD_append]; interval_cases i <;> rfl)

theorem FormM.ofWord_toWord (f : FormM) (opc : BitVec 10) : FormM.ofWord (f.toWord opc) = f := by
  obtain ⟨⟨st, wa, se, hi⟩, ⟨kga, bga, nga⟩, ⟨kgb, bgb, ngb⟩, hnd_, d_, a_, b_, ofs_⟩ := f
  simp only [FormM.ofWord, FormM.toWord, Hdr.ofWord, Hdr.bits, Guard.ofWord, Guard.bits, FormM.mk.injEq, Hdr.mk.injEq, Guard.mk.injEq]
  refine ⟨⟨?_, ?_, ?_, ?_⟩, ⟨?_, ?_, ?_⟩, ⟨?_, ?_, ?_⟩, ?_, ?_, ?_, ?_, ?_⟩ <;>
    (apply BitVec.eq_of_getLsbD_eq; intro i hi; simp only [BitVec.getLsbD_extractLsb', BitVec.getLsbD_append]; interval_cases i <;> rfl)
theorem FormM.toWord_ofWord (w : BitVec 96) : (FormM.ofWord w).toWord (opcOf w) = w := by
  simp only [FormM.ofWord, FormM.toWord, Hdr.ofWord, Hdr.bits, Guard.ofWord, Guard.bits, opcOf]
  (apply BitVec.eq_of_getLsbD_eq; intro i hi; simp only [BitVec.getLsbD_extractLsb', BitVec.getLsbD_append]; interval_cases i <;> rfl)
theorem FormM.opcOf_toWord (f : FormM) (opc : BitVec 10) : opcOf (f.toWord opc) = opc := by
  simp only [FormM.toWord, Hdr.bits, opcOf]
  (apply BitVec.eq_of_getLsbD_eq; intro i hi; simp only [BitVec.getLsbD_extractLsb', BitVec.getLsbD_append]; interval_cases i <;> rfl)

theorem FormB.ofWord_toWord (f : FormB) (opc : BitVec 10) : FormB.ofWord (f.toWord opc) = f := by
  obtain ⟨⟨st, wa, se, hi⟩, ⟨kga, bga, nga⟩, ⟨kgb, bgb, ngb⟩, tgt_, slot_, a_, sub_⟩ := f
  simp only [FormB.ofWord, FormB.toWord, Hdr.ofWord, Hdr.bits, Guard.ofWord, Guard.bits, FormB.mk.injEq, Hdr.mk.injEq, Guard.mk.injEq]
  refine ⟨⟨?_, ?_, ?_, ?_⟩, ⟨?_, ?_, ?_⟩, ⟨?_, ?_, ?_⟩, ?_, ?_, ?_, ?_⟩ <;>
    (apply BitVec.eq_of_getLsbD_eq; intro i hi; simp only [BitVec.getLsbD_extractLsb', BitVec.getLsbD_append]; interval_cases i <;> rfl)
theorem FormB.toWord_ofWord (w : BitVec 96) : (FormB.ofWord w).toWord (opcOf w) = w := by
  simp only [FormB.ofWord, FormB.toWord, Hdr.ofWord, Hdr.bits, Guard.ofWord, Guard.bits, opcOf]
  (apply BitVec.eq_of_getLsbD_eq; intro i hi; simp only [BitVec.getLsbD_extractLsb', BitVec.getLsbD_append]; interval_cases i <;> rfl)
theorem FormB.opcOf_toWord (f : FormB) (opc : BitVec 10) : opcOf (f.toWord opc) = opc := by
  simp only [FormB.toWord, Hdr.bits, opcOf]
  (apply BitVec.eq_of_getLsbD_eq; intro i hi; simp only [BitVec.getLsbD_extractLsb', BitVec.getLsbD_append]; interval_cases i <;> rfl)

theorem FormT.ofWord_toWord (f : FormT) (opc : BitVec 10) : FormT.ofWord (f.toWord opc) = f := by
  obtain ⟨⟨st, wa, se, hi⟩, ⟨kga, bga, nga⟩, ⟨kgb, bgb, ngb⟩, trec_, a_, b_, c_, d_, sub_⟩ := f
  simp only [FormT.ofWord, FormT.toWord, Hdr.ofWord, Hdr.bits, Guard.ofWord, Guard.bits, FormT.mk.injEq, Hdr.mk.injEq, Guard.mk.injEq]
  refine ⟨⟨?_, ?_, ?_, ?_⟩, ⟨?_, ?_, ?_⟩, ⟨?_, ?_, ?_⟩, ?_, ?_, ?_, ?_, ?_, ?_⟩ <;>
    (apply BitVec.eq_of_getLsbD_eq; intro i hi; simp only [BitVec.getLsbD_extractLsb', BitVec.getLsbD_append]; interval_cases i <;> rfl)
theorem FormT.toWord_ofWord (w : BitVec 96) : (FormT.ofWord w).toWord (opcOf w) = w := by
  simp only [FormT.ofWord, FormT.toWord, Hdr.ofWord, Hdr.bits, Guard.ofWord, Guard.bits, opcOf]
  (apply BitVec.eq_of_getLsbD_eq; intro i hi; simp only [BitVec.getLsbD_extractLsb', BitVec.getLsbD_append]; interval_cases i <;> rfl)
theorem FormT.opcOf_toWord (f : FormT) (opc : BitVec 10) : opcOf (f.toWord opc) = opc := by
  simp only [FormT.toWord, Hdr.bits, opcOf]
  (apply BitVec.eq_of_getLsbD_eq; intro i hi; simp only [BitVec.getLsbD_extractLsb', BitVec.getLsbD_append]; interval_cases i <;> rfl)

theorem FormS.ofWord_toWord (f : FormS) (opc : BitVec 10) : FormS.ofWord (f.toWord opc) = f := by
  obtain ⟨⟨st, wa, se, hi⟩, ⟨kga, bga, nga⟩, body_⟩ := f
  simp only [FormS.ofWord, FormS.toWord, Hdr.ofWord, Hdr.bits, Guard.ofWord, Guard.bits, FormS.mk.injEq, Hdr.mk.injEq, Guard.mk.injEq]
  refine ⟨⟨?_, ?_, ?_, ?_⟩, ⟨?_, ?_, ?_⟩, ?_⟩ <;>
    (apply BitVec.eq_of_getLsbD_eq; intro i hi; simp only [BitVec.getLsbD_extractLsb', BitVec.getLsbD_append]; interval_cases i <;> rfl)
theorem FormS.toWord_ofWord (w : BitVec 96) : (FormS.ofWord w).toWord (opcOf w) = w := by
  simp only [FormS.ofWord, FormS.toWord, Hdr.ofWord, Hdr.bits, Guard.ofWord, Guard.bits, opcOf]
  (apply BitVec.eq_of_getLsbD_eq; intro i hi; simp only [BitVec.getLsbD_extractLsb', BitVec.getLsbD_append]; interval_cases i <;> rfl)
theorem FormS.opcOf_toWord (f : FormS) (opc : BitVec 10) : opcOf (f.toWord opc) = opc := by
  simp only [FormS.toWord, Hdr.bits, opcOf]
  (apply BitVec.eq_of_getLsbD_eq; intro i hi; simp only [BitVec.getLsbD_extractLsb', BitVec.getLsbD_append]; interval_cases i <;> rfl)

theorem FormCR.ofWord_toWord (f : FormCR) (opc : BitVec 6) : FormCR.ofWord (f.toWord opc) = f := by
  obtain ⟨d_, a_, b_, rsv_⟩ := f
  simp only [FormCR.ofWord, FormCR.toWord, FormCR.mk.injEq]
  refine ⟨?_, ?_, ?_, ?_⟩ <;>
    (apply BitVec.eq_of_getLsbD_eq; intro i hi; simp only [BitVec.getLsbD_extractLsb', BitVec.getLsbD_append]; interval_cases i <;> rfl)
theorem FormCR.toWord_ofWord (w : BitVec 64) : (FormCR.ofWord w).toWord (w.extractLsb' 58 6) = w := by
  simp only [FormCR.ofWord, FormCR.toWord]
  (apply BitVec.eq_of_getLsbD_eq; intro i hi; simp only [BitVec.getLsbD_extractLsb', BitVec.getLsbD_append]; interval_cases i <;> rfl)
theorem FormCR.opcode_toWord (f : FormCR) (opc : BitVec 6) : (f.toWord opc).extractLsb' 58 6 = opc := by
  simp only [FormCR.toWord]
  (apply BitVec.eq_of_getLsbD_eq; intro i hi; simp only [BitVec.getLsbD_extractLsb', BitVec.getLsbD_append]; interval_cases i <;> rfl)

theorem FormCI.ofWord_toWord (f : FormCI) (opc : BitVec 6) : FormCI.ofWord (f.toWord opc) = f := by
  obtain ⟨d_, a_, rsv_, imm_⟩ := f
  simp only [FormCI.ofWord, FormCI.toWord, FormCI.mk.injEq]
  refine ⟨?_, ?_, ?_, ?_⟩ <;>
    (apply BitVec.eq_of_getLsbD_eq; intro i hi; simp only [BitVec.getLsbD_extractLsb', BitVec.getLsbD_append]; interval_cases i <;> rfl)
theorem FormCI.toWord_ofWord (w : BitVec 64) : (FormCI.ofWord w).toWord (w.extractLsb' 58 6) = w := by
  simp only [FormCI.ofWord, FormCI.toWord]
  (apply BitVec.eq_of_getLsbD_eq; intro i hi; simp only [BitVec.getLsbD_extractLsb', BitVec.getLsbD_append]; interval_cases i <;> rfl)
theorem FormCI.opcode_toWord (f : FormCI) (opc : BitVec 6) : (f.toWord opc).extractLsb' 58 6 = opc := by
  simp only [FormCI.toWord]
  (apply BitVec.eq_of_getLsbD_eq; intro i hi; simp only [BitVec.getLsbD_extractLsb', BitVec.getLsbD_append]; interval_cases i <;> rfl)

theorem FormCB.ofWord_toWord (f : FormCB) (opc : BitVec 6) : FormCB.ofWord (f.toWord opc) = f := by
  obtain ⟨a_, b_, rsv_, tgt_⟩ := f
  simp only [FormCB.ofWord, FormCB.toWord, FormCB.mk.injEq]
  refine ⟨?_, ?_, ?_, ?_⟩ <;>
    (apply BitVec.eq_of_getLsbD_eq; intro i hi; simp only [BitVec.getLsbD_extractLsb', BitVec.getLsbD_append]; interval_cases i <;> rfl)
theorem FormCB.toWord_ofWord (w : BitVec 64) : (FormCB.ofWord w).toWord (w.extractLsb' 58 6) = w := by
  simp only [FormCB.ofWord, FormCB.toWord]
  (apply BitVec.eq_of_getLsbD_eq; intro i hi; simp only [BitVec.getLsbD_extractLsb', BitVec.getLsbD_append]; interval_cases i <;> rfl)
theorem FormCB.opcode_toWord (f : FormCB) (opc : BitVec 6) : (f.toWord opc).extractLsb' 58 6 = opc := by
  simp only [FormCB.toWord]
  (apply BitVec.eq_of_getLsbD_eq; intro i hi; simp only [BitVec.getLsbD_extractLsb', BitVec.getLsbD_append]; interval_cases i <;> rfl)

theorem FormCC.ofWord_toWord (f : FormCC) (opc : BitVec 6) : FormCC.ofWord (f.toWord opc) = f := by
  obtain ⟨buf_, ireg_, treg_, wtag_, stag_, rsv_⟩ := f
  simp only [FormCC.ofWord, FormCC.toWord, FormCC.mk.injEq]
  refine ⟨?_, ?_, ?_, ?_, ?_, ?_⟩ <;>
    (apply BitVec.eq_of_getLsbD_eq; intro i hi; simp only [BitVec.getLsbD_extractLsb', BitVec.getLsbD_append]; interval_cases i <;> rfl)
theorem FormCC.toWord_ofWord (w : BitVec 64) : (FormCC.ofWord w).toWord (w.extractLsb' 58 6) = w := by
  simp only [FormCC.ofWord, FormCC.toWord]
  (apply BitVec.eq_of_getLsbD_eq; intro i hi; simp only [BitVec.getLsbD_extractLsb', BitVec.getLsbD_append]; interval_cases i <;> rfl)
theorem FormCC.opcode_toWord (f : FormCC) (opc : BitVec 6) : (f.toWord opc).extractLsb' 58 6 = opc := by
  simp only [FormCC.toWord]
  (apply BitVec.eq_of_getLsbD_eq; intro i hi; simp only [BitVec.getLsbD_extractLsb', BitVec.getLsbD_append]; interval_cases i <;> rfl)

theorem FormCF.ofWord_toWord (f : FormCF) (opc : BitVec 6) : FormCF.ofWord (f.toWord opc) = f := by
  obtain ⟨buf_, oreg_, vreg_, rsv_⟩ := f
  simp only [FormCF.ofWord, FormCF.toWord, FormCF.mk.injEq]
  refine ⟨?_, ?_, ?_, ?_⟩ <;>
    (apply BitVec.eq_of_getLsbD_eq; intro i hi; simp only [BitVec.getLsbD_extractLsb', BitVec.getLsbD_append]; interval_cases i <;> rfl)
theorem FormCF.toWord_ofWord (w : BitVec 64) : (FormCF.ofWord w).toWord (w.extractLsb' 58 6) = w := by
  simp only [FormCF.ofWord, FormCF.toWord]
  (apply BitVec.eq_of_getLsbD_eq; intro i hi; simp only [BitVec.getLsbD_extractLsb', BitVec.getLsbD_append]; interval_cases i <;> rfl)
theorem FormCF.opcode_toWord (f : FormCF) (opc : BitVec 6) : (f.toWord opc).extractLsb' 58 6 = opc := by
  simp only [FormCF.toWord]
  (apply BitVec.eq_of_getLsbD_eq; intro i hi; simp only [BitVec.getLsbD_extractLsb', BitVec.getLsbD_append]; interval_cases i <;> rfl)

end Sys2Proof
end

