-- ==== Sys2Proof/Laws/Exec.lean ====
section
/-!
SUPPORT. Laws/Exec.lean: each arm of exec as an equation (true by definition), so that no proof unfolds the dispatch.
-/

namespace Sys2Proof.Machine

open Sys2Proof

theorem exec_iaddI32 (f) (s : State) : exec (.iaddI32 f) s = execIaddI32 f s := rfl
theorem exec_isubI32 (f) (s : State) : exec (.isubI32 f) s = execIsubI32 f s := rfl
theorem exec_iadd3I32 (f) (s : State) : exec (.iadd3I32 f) s = execIadd3I32 f s := rfl
theorem exec_iaddcI32 (f) (s : State) : exec (.iaddcI32 f) s = execIaddcI32 f s := rfl
theorem exec_isubbI32 (f) (s : State) : exec (.isubbI32 f) s = execIsubbI32 f s := rfl
theorem exec_imulI32 (f) (s : State) : exec (.imulI32 f) s = execImulI32 f s := rfl
theorem exec_imulhiI32 (f) (s : State) : exec (.imulhiI32 f) s = execImulhiI32 f s := rfl
theorem exec_imulhiN32 (f) (s : State) : exec (.imulhiN32 f) s = execImulhiN32 f s := rfl
theorem exec_imadI32 (f) (s : State) : exec (.imadI32 f) s = execImadI32 f s := rfl
theorem exec_imadwI32 (f) (s : State) : exec (.imadwI32 f) s = execImadwI32 f s := rfl
theorem exec_imadwN32 (f) (s : State) : exec (.imadwN32 f) s = execImadwN32 f s := rfl
theorem exec_iminI32 (f) (s : State) : exec (.iminI32 f) s = execIminI32 f s := rfl
theorem exec_imaxI32 (f) (s : State) : exec (.imaxI32 f) s = execImaxI32 f s := rfl
theorem exec_iminN32 (f) (s : State) : exec (.iminN32 f) s = execIminN32 f s := rfl
theorem exec_imaxN32 (f) (s : State) : exec (.imaxN32 f) s = execImaxN32 f s := rfl
theorem exec_iaddI64 (f) (s : State) : exec (.iaddI64 f) s = execIaddI64 f s := rfl
theorem exec_isubI64 (f) (s : State) : exec (.isubI64 f) s = execIsubI64 f s := rfl
theorem exec_lea (f) (s : State) : exec (.lea f) s = execLea f s := rfl
theorem exec_iaddiI32 (f) (s : State) : exec (.iaddiI32 f) s = execIaddiI32 f s := rfl
theorem exec_iaddiI64 (f) (s : State) : exec (.iaddiI64 f) s = execIaddiI64 f s := rfl
theorem exec_imuliI32 (f) (s : State) : exec (.imuliI32 f) s = execImuliI32 f s := rfl
theorem exec_andB32 (f) (s : State) : exec (.andB32 f) s = execAndB32 f s := rfl
theorem exec_orB32 (f) (s : State) : exec (.orB32 f) s = execOrB32 f s := rfl
theorem exec_xorB32 (f) (s : State) : exec (.xorB32 f) s = execXorB32 f s := rfl
theorem exec_andnB32 (f) (s : State) : exec (.andnB32 f) s = execAndnB32 f s := rfl
theorem exec_notB32 (f) (s : State) : exec (.notB32 f) s = execNotB32 f s := rfl
theorem exec_shlB32 (f) (s : State) : exec (.shlB32 f) s = execShlB32 f s := rfl
theorem exec_shrN32 (f) (s : State) : exec (.shrN32 f) s = execShrN32 f s := rfl
theorem exec_shrI32 (f) (s : State) : exec (.shrI32 f) s = execShrI32 f s := rfl
theorem exec_rotlB32 (f) (s : State) : exec (.rotlB32 f) s = execRotlB32 f s := rfl
theorem exec_rotrB32 (f) (s : State) : exec (.rotrB32 f) s = execRotrB32 f s := rfl
theorem exec_shlB64 (f) (s : State) : exec (.shlB64 f) s = execShlB64 f s := rfl
theorem exec_shrN64 (f) (s : State) : exec (.shrN64 f) s = execShrN64 f s := rfl
theorem exec_shrI64 (f) (s : State) : exec (.shrI64 f) s = execShrI64 f s := rfl
theorem exec_bfeN32 (f) (s : State) : exec (.bfeN32 f) s = execBfeN32 f s := rfl
theorem exec_bfeI32 (f) (s : State) : exec (.bfeI32 f) s = execBfeI32 f s := rfl
theorem exec_bfiB32 (f) (s : State) : exec (.bfiB32 f) s = execBfiB32 f s := rfl
theorem exec_popcB32 (f) (s : State) : exec (.popcB32 f) s = execPopcB32 f s := rfl
theorem exec_clzB32 (f) (s : State) : exec (.clzB32 f) s = execClzB32 f s := rfl
theorem exec_ctzB32 (f) (s : State) : exec (.ctzB32 f) s = execCtzB32 f s := rfl
theorem exec_brevB32 (f) (s : State) : exec (.brevB32 f) s = execBrevB32 f s := rfl
theorem exec_bswB32 (f) (s : State) : exec (.bswB32 f) s = execBswB32 f s := rfl
theorem exec_movB32 (f) (s : State) : exec (.movB32 f) s = execMovB32 f s := rfl
theorem exec_moviB32 (f) (s : State) : exec (.moviB32 f) s = execMoviB32 f s := rfl
theorem exec_selB32 (f) (s : State) : exec (.selB32 f) s = execSelB32 f s := rfl
theorem exec_bselB32 (f) (s : State) : exec (.bselB32 f) s = execBselB32 f s := rfl
theorem exec_andiB32 (f) (s : State) : exec (.andiB32 f) s = execAndiB32 f s := rfl
theorem exec_oriB32 (f) (s : State) : exec (.oriB32 f) s = execOriB32 f s := rfl
theorem exec_xoriB32 (f) (s : State) : exec (.xoriB32 f) s = execXoriB32 f s := rfl
theorem exec_cmpEqB32 (f) (s : State) : exec (.cmpEqB32 f) s = execCmpEqB32 f s := rfl
theorem exec_cmpNeB32 (f) (s : State) : exec (.cmpNeB32 f) s = execCmpNeB32 f s := rfl
theorem exec_cmpLtI32 (f) (s : State) : exec (.cmpLtI32 f) s = execCmpLtI32 f s := rfl
theorem exec_cmpLeI32 (f) (s : State) : exec (.cmpLeI32 f) s = execCmpLeI32 f s := rfl
theorem exec_cmpGtI32 (f) (s : State) : exec (.cmpGtI32 f) s = execCmpGtI32 f s := rfl
theorem exec_cmpGeI32 (f) (s : State) : exec (.cmpGeI32 f) s = execCmpGeI32 f s := rfl
theorem exec_cmpLtN32 (f) (s : State) : exec (.cmpLtN32 f) s = execCmpLtN32 f s := rfl
theorem exec_cmpLeN32 (f) (s : State) : exec (.cmpLeN32 f) s = execCmpLeN32 f s := rfl
theorem exec_cmpGtN32 (f) (s : State) : exec (.cmpGtN32 f) s = execCmpGtN32 f s := rfl
theorem exec_cmpGeN32 (f) (s : State) : exec (.cmpGeN32 f) s = execCmpGeN32 f s := rfl
theorem exec_qdef (f) (s : State) : exec (.qdef f) s = execQdef f s := rfl
theorem exec_qfree (f) (s : State) : exec (.qfree f) s = execQfree f s := rfl
theorem exec_faddF32 (f) (s : State) : exec (.faddF32 f) s = execFaddF32 f s := rfl
theorem exec_fsubF32 (f) (s : State) : exec (.fsubF32 f) s = execFsubF32 f s := rfl
theorem exec_fmulF32 (f) (s : State) : exec (.fmulF32 f) s = execFmulF32 f s := rfl
theorem exec_ffmaF32 (f) (s : State) : exec (.ffmaF32 f) s = execFfmaF32 f s := rfl
theorem exec_fminF32 (f) (s : State) : exec (.fminF32 f) s = execFminF32 f s := rfl
theorem exec_fmaxF32 (f) (s : State) : exec (.fmaxF32 f) s = execFmaxF32 f s := rfl
theorem exec_fmuliF32 (f) (s : State) : exec (.fmuliF32 f) s = execFmuliF32 f s := rfl
theorem exec_faddiF32 (f) (s : State) : exec (.faddiF32 f) s = execFaddiF32 f s := rfl
theorem exec_fclsF32 (f) (s : State) : exec (.fclsF32 f) s = execFclsF32 f s := rfl
theorem exec_fcmpEqF32 (f) (s : State) : exec (.fcmpEqF32 f) s = execFcmpEqF32 f s := rfl
theorem exec_fcmpNeF32 (f) (s : State) : exec (.fcmpNeF32 f) s = execFcmpNeF32 f s := rfl
theorem exec_fcmpLtF32 (f) (s : State) : exec (.fcmpLtF32 f) s = execFcmpLtF32 f s := rfl
theorem exec_fcmpLeF32 (f) (s : State) : exec (.fcmpLeF32 f) s = execFcmpLeF32 f s := rfl
theorem exec_fcmpGtF32 (f) (s : State) : exec (.fcmpGtF32 f) s = execFcmpGtF32 f s := rfl
theorem exec_fcmpGeF32 (f) (s : State) : exec (.fcmpGeF32 f) s = execFcmpGeF32 f s := rfl
theorem exec_fcmpUnF32 (f) (s : State) : exec (.fcmpUnF32 f) s = execFcmpUnF32 f s := rfl
theorem exec_fcmpOrF32 (f) (s : State) : exec (.fcmpOrF32 f) s = execFcmpOrF32 f s := rfl
theorem exec_haddF16x2 (f) (s : State) : exec (.haddF16x2 f) s = execHaddF16x2 f s := rfl
theorem exec_hmulF16x2 (f) (s : State) : exec (.hmulF16x2 f) s = execHmulF16x2 f s := rfl
theorem exec_hfmaF16x2 (f) (s : State) : exec (.hfmaF16x2 f) s = execHfmaF16x2 f s := rfl
theorem exec_hminF16x2 (f) (s : State) : exec (.hminF16x2 f) s = execHminF16x2 f s := rfl
theorem exec_hmaxF16x2 (f) (s : State) : exec (.hmaxF16x2 f) s = execHmaxF16x2 f s := rfl
theorem exec_haddBf16x2 (f) (s : State) : exec (.haddBf16x2 f) s = execHaddBf16x2 f s := rfl
theorem exec_hmulBf16x2 (f) (s : State) : exec (.hmulBf16x2 f) s = execHmulBf16x2 f s := rfl
theorem exec_hfmaBf16x2 (f) (s : State) : exec (.hfmaBf16x2 f) s = execHfmaBf16x2 f s := rfl
theorem exec_hminBf16x2 (f) (s : State) : exec (.hminBf16x2 f) s = execHminBf16x2 f s := rfl
theorem exec_hmaxBf16x2 (f) (s : State) : exec (.hmaxBf16x2 f) s = execHmaxBf16x2 f s := rfl
theorem exec_vaddI16x2 (f) (s : State) : exec (.vaddI16x2 f) s = execVaddI16x2 f s := rfl
theorem exec_vsubI16x2 (f) (s : State) : exec (.vsubI16x2 f) s = execVsubI16x2 f s := rfl
theorem exec_vaddI8x4 (f) (s : State) : exec (.vaddI8x4 f) s = execVaddI8x4 f s := rfl
theorem exec_vsubI8x4 (f) (s : State) : exec (.vsubI8x4 f) s = execVsubI8x4 f s := rfl
theorem exec_vminI16x2 (f) (s : State) : exec (.vminI16x2 f) s = execVminI16x2 f s := rfl
theorem exec_vmaxI16x2 (f) (s : State) : exec (.vmaxI16x2 f) s = execVmaxI16x2 f s := rfl
theorem exec_vminI8x4 (f) (s : State) : exec (.vminI8x4 f) s = execVminI8x4 f s := rfl
theorem exec_vmaxI8x4 (f) (s : State) : exec (.vmaxI8x4 f) s = execVmaxI8x4 f s := rfl
theorem exec_vminN8x4 (f) (s : State) : exec (.vminN8x4 f) s = execVminN8x4 f s := rfl
theorem exec_vmaxN8x4 (f) (s : State) : exec (.vmaxN8x4 f) s = execVmaxN8x4 f s := rfl
theorem exec_vaddsatI16x2 (f) (s : State) : exec (.vaddsatI16x2 f) s = execVaddsatI16x2 f s := rfl
theorem exec_vaddsatI8x4 (f) (s : State) : exec (.vaddsatI8x4 f) s = execVaddsatI8x4 f s := rfl
theorem exec_dp4I8x4 (f) (s : State) : exec (.dp4I8x4 f) s = execDp4I8x4 f s := rfl
theorem exec_dp4N8x4 (f) (s : State) : exec (.dp4N8x4 f) s = execDp4N8x4 f s := rfl
theorem exec_dp2I16x2 (f) (s : State) : exec (.dp2I16x2 f) s = execDp2I16x2 f s := rfl
theorem exec_dp8I4x8 (f) (s : State) : exec (.dp8I4x8 f) s = execDp8I4x8 f s := rfl
theorem exec_daddF64 (f) (s : State) : exec (.daddF64 f) s = execDaddF64 f s := rfl
theorem exec_dsubF64 (f) (s : State) : exec (.dsubF64 f) s = execDsubF64 f s := rfl
theorem exec_dmulF64 (f) (s : State) : exec (.dmulF64 f) s = execDmulF64 f s := rfl
theorem exec_dfmaF64 (f) (s : State) : exec (.dfmaF64 f) s = execDfmaF64 f s := rfl
theorem exec_dminF64 (f) (s : State) : exec (.dminF64 f) s = execDminF64 f s := rfl
theorem exec_dmaxF64 (f) (s : State) : exec (.dmaxF64 f) s = execDmaxF64 f s := rfl
theorem exec_dclsF64 (f) (s : State) : exec (.dclsF64 f) s = execDclsF64 f s := rfl
theorem exec_dcmpEqF64 (f) (s : State) : exec (.dcmpEqF64 f) s = execDcmpEqF64 f s := rfl
theorem exec_dcmpNeF64 (f) (s : State) : exec (.dcmpNeF64 f) s = execDcmpNeF64 f s := rfl
theorem exec_dcmpLtF64 (f) (s : State) : exec (.dcmpLtF64 f) s = execDcmpLtF64 f s := rfl
theorem exec_dcmpLeF64 (f) (s : State) : exec (.dcmpLeF64 f) s = execDcmpLeF64 f s := rfl
theorem exec_dcmpGtF64 (f) (s : State) : exec (.dcmpGtF64 f) s = execDcmpGtF64 f s := rfl
theorem exec_dcmpGeF64 (f) (s : State) : exec (.dcmpGeF64 f) s = execDcmpGeF64 f s := rfl
theorem exec_dcmpUnF64 (f) (s : State) : exec (.dcmpUnF64 f) s = execDcmpUnF64 f s := rfl
theorem exec_dcmpOrF64 (f) (s : State) : exec (.dcmpOrF64 f) s = execDcmpOrF64 f s := rfl
theorem exec_rcpF32 (f) (s : State) : exec (.rcpF32 f) s = execRcpF32 f s := rfl
theorem exec_rsqrtF32 (f) (s : State) : exec (.rsqrtF32 f) s = execRsqrtF32 f s := rfl
theorem exec_sqrtF32 (f) (s : State) : exec (.sqrtF32 f) s = execSqrtF32 f s := rfl
theorem exec_exp2F32 (f) (s : State) : exec (.exp2F32 f) s = execExp2F32 f s := rfl
theorem exec_log2F32 (f) (s : State) : exec (.log2F32 f) s = execLog2F32 f s := rfl
theorem exec_sinF32 (f) (s : State) : exec (.sinF32 f) s = execSinF32 f s := rfl
theorem exec_cosF32 (f) (s : State) : exec (.cosF32 f) s = execCosF32 f s := rfl
theorem exec_tanhF32 (f) (s : State) : exec (.tanhF32 f) s = execTanhF32 f s := rfl
theorem exec_rcpF64 (f) (s : State) : exec (.rcpF64 f) s = execRcpF64 f s := rfl
theorem exec_sqrtF64 (f) (s : State) : exec (.sqrtF64 f) s = execSqrtF64 f s := rfl
theorem exec_cvt (f) (s : State) : exec (.cvt f) s = execCvt f s := rfl
theorem exec_cvtSr (f) (s : State) : exec (.cvtSr f) s = execCvtSr f s := rfl
theorem exec_packE4m3 (f) (s : State) : exec (.packE4m3 f) s = execPackE4m3 f s := rfl
theorem exec_packE5m2 (f) (s : State) : exec (.packE5m2 f) s = execPackE5m2 f s := rfl
theorem exec_packE2m1 (f) (s : State) : exec (.packE2m1 f) s = execPackE2m1 f s := rfl
theorem exec_packI4 (f) (s : State) : exec (.packI4 f) s = execPackI4 f s := rfl
theorem exec_unpackE4m3 (f) (s : State) : exec (.unpackE4m3 f) s = execUnpackE4m3 f s := rfl
theorem exec_unpackE5m2 (f) (s : State) : exec (.unpackE5m2 f) s = execUnpackE5m2 f s := rfl
theorem exec_unpackE2m1 (f) (s : State) : exec (.unpackE2m1 f) s = execUnpackE2m1 f s := rfl
theorem exec_unpackI4 (f) (s : State) : exec (.unpackI4 f) s = execUnpackI4 f s := rfl
theorem exec_qblk (f) (s : State) : exec (.qblk f) s = execQblk f s := rfl
theorem exec_dqblk (f) (s : State) : exec (.dqblk f) s = execDqblk f s := rfl
theorem exec_rngnext (f) (s : State) : exec (.rngnext f) s = execRngnext f s := rfl
theorem exec_rngseed (f) (s : State) : exec (.rngseed f) s = execRngseed f s := rfl
theorem exec_xlaneRot (f) (s : State) : exec (.xlaneRot f) s = execXlaneRot f s := rfl
theorem exec_xlaneShup (f) (s : State) : exec (.xlaneShup f) s = execXlaneShup f s := rfl
theorem exec_xlaneShdn (f) (s : State) : exec (.xlaneShdn f) s = execXlaneShdn f s := rfl
theorem exec_xlaneIdx (f) (s : State) : exec (.xlaneIdx f) s = execXlaneIdx f s := rfl
theorem exec_xbcast (f) (s : State) : exec (.xbcast f) s = execXbcast f s := rfl
theorem exec_bfly (f) (s : State) : exec (.bfly f) s = execBfly f s := rfl
theorem exec_redAddI32 (f) (s : State) : exec (.redAddI32 f) s = execRedAddI32 f s := rfl
theorem exec_redMinI32 (f) (s : State) : exec (.redMinI32 f) s = execRedMinI32 f s := rfl
theorem exec_redMaxI32 (f) (s : State) : exec (.redMaxI32 f) s = execRedMaxI32 f s := rfl
theorem exec_redAndB32 (f) (s : State) : exec (.redAndB32 f) s = execRedAndB32 f s := rfl
theorem exec_redOrB32 (f) (s : State) : exec (.redOrB32 f) s = execRedOrB32 f s := rfl
theorem exec_redXorB32 (f) (s : State) : exec (.redXorB32 f) s = execRedXorB32 f s := rfl
theorem exec_redAddF32 (f) (s : State) : exec (.redAddF32 f) s = execRedAddF32 f s := rfl
theorem exec_redMinF32 (f) (s : State) : exec (.redMinF32 f) s = execRedMinF32 f s := rfl
theorem exec_redMaxF32 (f) (s : State) : exec (.redMaxF32 f) s = execRedMaxF32 f s := rfl
theorem exec_scanAddI32 (f) (s : State) : exec (.scanAddI32 f) s = execScanAddI32 f s := rfl
theorem exec_scanMinI32 (f) (s : State) : exec (.scanMinI32 f) s = execScanMinI32 f s := rfl
theorem exec_scanMaxI32 (f) (s : State) : exec (.scanMaxI32 f) s = execScanMaxI32 f s := rfl
theorem exec_scanAddF32 (f) (s : State) : exec (.scanAddF32 f) s = execScanAddF32 f s := rfl
theorem exec_ballot (f) (s : State) : exec (.ballot f) s = execBallot f s := rfl
theorem exec_any (f) (s : State) : exec (.any f) s = execAny f s := rfl
theorem exec_all (f) (s : State) : exec (.all f) s = execAll f s := rfl
theorem exec_matchLanes (f) (s : State) : exec (.matchLanes f) s = execMatchLanes f s := rfl
theorem exec_topk (f) (s : State) : exec (.topk f) s = execTopk f s := rfl
theorem exec_bra (f) (s : State) : exec (.bra f) s = execBra f s := rfl
theorem exec_brx (f) (s : State) : exec (.brx f) s = execBrx f s := rfl
theorem exec_call (f) (s : State) : exec (.call f) s = execCall f s := rfl
theorem exec_callx (f) (s : State) : exec (.callx f) s = execCallx f s := rfl
theorem exec_ret (f) (s : State) : exec (.ret f) s = execRet f s := rfl
theorem exec_join (f) (s : State) : exec (.join f) s = execJoin f s := rfl
theorem exec_exit (f) (s : State) : exec (.exit f) s = execExit f s := rfl
theorem exec_loop (f) (s : State) : exec (.loop f) s = execLoop f s := rfl
theorem exec_pause (f) (s : State) : exec (.pause f) s = execPause f s := rfl
theorem exec_nop (f) (s : State) : exec (.nop f) s = execNop f s := rfl
theorem exec_ldN8 (f) (s : State) : exec (.ldN8 f) s = execLdN8 f s := rfl
theorem exec_ldI8 (f) (s : State) : exec (.ldI8 f) s = execLdI8 f s := rfl
theorem exec_ldN16 (f) (s : State) : exec (.ldN16 f) s = execLdN16 f s := rfl
theorem exec_ldI16 (f) (s : State) : exec (.ldI16 f) s = execLdI16 f s := rfl
theorem exec_ldB32 (f) (s : State) : exec (.ldB32 f) s = execLdB32 f s := rfl
theorem exec_ldB64 (f) (s : State) : exec (.ldB64 f) s = execLdB64 f s := rfl
theorem exec_ldB128 (f) (s : State) : exec (.ldB128 f) s = execLdB128 f s := rfl
theorem exec_ldAcqB32 (f) (s : State) : exec (.ldAcqB32 f) s = execLdAcqB32 f s := rfl
theorem exec_ldAcqB64 (f) (s : State) : exec (.ldAcqB64 f) s = execLdAcqB64 f s := rfl
theorem exec_stB8 (f) (s : State) : exec (.stB8 f) s = execStB8 f s := rfl
theorem exec_stB16 (f) (s : State) : exec (.stB16 f) s = execStB16 f s := rfl
theorem exec_stB32 (f) (s : State) : exec (.stB32 f) s = execStB32 f s := rfl
theorem exec_stB64 (f) (s : State) : exec (.stB64 f) s = execStB64 f s := rfl
theorem exec_stB128 (f) (s : State) : exec (.stB128 f) s = execStB128 f s := rfl
theorem exec_stRelB32 (f) (s : State) : exec (.stRelB32 f) s = execStRelB32 f s := rfl
theorem exec_stRelB64 (f) (s : State) : exec (.stRelB64 f) s = execStRelB64 f s := rfl
theorem exec_stmask (f) (s : State) : exec (.stmask f) s = execStmask f s := rfl
theorem exec_pfx (f) (s : State) : exec (.pfx f) s = execPfx f s := rfl
theorem exec_pfd (f) (s : State) : exec (.pfd f) s = execPfd f s := rfl
theorem exec_pcancel (f) (s : State) : exec (.pcancel f) s = execPcancel f s := rfl
theorem exec_ldN8O64 (f) (s : State) : exec (.ldN8O64 f) s = execLdN8O64 f s := rfl
theorem exec_ldI8O64 (f) (s : State) : exec (.ldI8O64 f) s = execLdI8O64 f s := rfl
theorem exec_ldN16O64 (f) (s : State) : exec (.ldN16O64 f) s = execLdN16O64 f s := rfl
theorem exec_ldI16O64 (f) (s : State) : exec (.ldI16O64 f) s = execLdI16O64 f s := rfl
theorem exec_ldB32O64 (f) (s : State) : exec (.ldB32O64 f) s = execLdB32O64 f s := rfl
theorem exec_ldB64O64 (f) (s : State) : exec (.ldB64O64 f) s = execLdB64O64 f s := rfl
theorem exec_ldB128O64 (f) (s : State) : exec (.ldB128O64 f) s = execLdB128O64 f s := rfl
theorem exec_ldAcqB32O64 (f) (s : State) : exec (.ldAcqB32O64 f) s = execLdAcqB32O64 f s := rfl
theorem exec_ldAcqB64O64 (f) (s : State) : exec (.ldAcqB64O64 f) s = execLdAcqB64O64 f s := rfl
theorem exec_stB8O64 (f) (s : State) : exec (.stB8O64 f) s = execStB8O64 f s := rfl
theorem exec_stB16O64 (f) (s : State) : exec (.stB16O64 f) s = execStB16O64 f s := rfl
theorem exec_stB32O64 (f) (s : State) : exec (.stB32O64 f) s = execStB32O64 f s := rfl
theorem exec_stB64O64 (f) (s : State) : exec (.stB64O64 f) s = execStB64O64 f s := rfl
theorem exec_stB128O64 (f) (s : State) : exec (.stB128O64 f) s = execStB128O64 f s := rfl
theorem exec_stRelB32O64 (f) (s : State) : exec (.stRelB32O64 f) s = execStRelB32O64 f s := rfl
theorem exec_stRelB64O64 (f) (s : State) : exec (.stRelB64O64 f) s = execStRelB64O64 f s := rfl
theorem exec_stmaskO64 (f) (s : State) : exec (.stmaskO64 f) s = execStmaskO64 f s := rfl
theorem exec_pfxO64 (f) (s : State) : exec (.pfxO64 f) s = execPfxO64 f s := rfl
theorem exec_pfdO64 (f) (s : State) : exec (.pfdO64 f) s = execPfdO64 f s := rfl
theorem exec_atomAddI32 (f) (s : State) : exec (.atomAddI32 f) s = execAtomAddI32 f s := rfl
theorem exec_atomAddF32 (f) (s : State) : exec (.atomAddF32 f) s = execAtomAddF32 f s := rfl
theorem exec_atomMinI32 (f) (s : State) : exec (.atomMinI32 f) s = execAtomMinI32 f s := rfl
theorem exec_atomMaxI32 (f) (s : State) : exec (.atomMaxI32 f) s = execAtomMaxI32 f s := rfl
theorem exec_atomMinN32 (f) (s : State) : exec (.atomMinN32 f) s = execAtomMinN32 f s := rfl
theorem exec_atomMaxN32 (f) (s : State) : exec (.atomMaxN32 f) s = execAtomMaxN32 f s := rfl
theorem exec_atomAndB32 (f) (s : State) : exec (.atomAndB32 f) s = execAtomAndB32 f s := rfl
theorem exec_atomOrB32 (f) (s : State) : exec (.atomOrB32 f) s = execAtomOrB32 f s := rfl
theorem exec_atomXorB32 (f) (s : State) : exec (.atomXorB32 f) s = execAtomXorB32 f s := rfl
theorem exec_atomExchB32 (f) (s : State) : exec (.atomExchB32 f) s = execAtomExchB32 f s := rfl
theorem exec_atomCasB32 (f) (s : State) : exec (.atomCasB32 f) s = execAtomCasB32 f s := rfl
theorem exec_atomAddI64 (f) (s : State) : exec (.atomAddI64 f) s = execAtomAddI64 f s := rfl
theorem exec_atomExchB64 (f) (s : State) : exec (.atomExchB64 f) s = execAtomExchB64 f s := rfl
theorem exec_atomCasB64 (f) (s : State) : exec (.atomCasB64 f) s = execAtomCasB64 f s := rfl
theorem exec_atomAddBf16x2 (f) (s : State) : exec (.atomAddBf16x2 f) s = execAtomAddBf16x2 f s := rfl
theorem exec_fence (f) (s : State) : exec (.fence f) s = execFence f s := rfl
theorem exec_bankopAddI32 (f) (s : State) : exec (.bankopAddI32 f) s = execBankopAddI32 f s := rfl
theorem exec_bankopAddF32 (f) (s : State) : exec (.bankopAddF32 f) s = execBankopAddF32 f s := rfl
theorem exec_bankopMinF32 (f) (s : State) : exec (.bankopMinF32 f) s = execBankopMinF32 f s := rfl
theorem exec_bankopMaxF32 (f) (s : State) : exec (.bankopMaxF32 f) s = execBankopMaxF32 f s := rfl
theorem exec_bankopMulF32 (f) (s : State) : exec (.bankopMulF32 f) s = execBankopMulF32 f s := rfl
theorem exec_cp (f) (s : State) : exec (.cp f) s = execCp f s := rfl
theorem exec_cp2d (f) (s : State) : exec (.cp2d f) s = execCp2d f s := rfl
theorem exec_cp3d (f) (s : State) : exec (.cp3d f) s = execCp3d f s := rfl
theorem exec_cpScale (f) (s : State) : exec (.cpScale f) s = execCpScale f s := rfl
theorem exec_gather (f) (s : State) : exec (.gather f) s = execGather f s := rfl
theorem exec_scatter (f) (s : State) : exec (.scatter f) s = execScatter f s := rfl
theorem exec_waitcCp (f) (s : State) : exec (.waitcCp f) s = execWaitcCp f s := rfl
theorem exec_waitcGa (f) (s : State) : exec (.waitcGa f) s = execWaitcGa f s := rfl
theorem exec_waitcMx (f) (s : State) : exec (.waitcMx f) s = execWaitcMx f s := rfl
theorem exec_waitcFb (f) (s : State) : exec (.waitcFb f) s = execWaitcFb f s := rfl
theorem exec_arrinit (f) (s : State) : exec (.arrinit f) s = execArrinit f s := rfl
theorem exec_arrw (f) (s : State) : exec (.arrw f) s = execArrw f s := rfl
theorem exec_arrrd (f) (s : State) : exec (.arrrd f) s = execArrrd f s := rfl
theorem exec_tsig (f) (s : State) : exec (.tsig f) s = execTsig f s := rfl
theorem exec_fput (f) (s : State) : exec (.fput f) s = execFput f s := rfl
theorem exec_fget (f) (s : State) : exec (.fget f) s = execFget f s := rfl
theorem exec_fatom (f) (s : State) : exec (.fatom f) s = execFatom f s := rfl
theorem exec_fmark (f) (s : State) : exec (.fmark f) s = execFmark f s := rfl
theorem exec_fldred (f) (s : State) : exec (.fldred f) s = execFldred f s := rfl
theorem exec_fstmc (f) (s : State) : exec (.fstmc f) s = execFstmc f s := rfl
theorem exec_tshape (f) (s : State) : exec (.tshape f) s = execTshape f s := rfl
theorem exec_mmaE4m3 (f) (s : State) : exec (.mmaE4m3 f) s = execMmaE4m3 f s := rfl
theorem exec_mmaE5m2 (f) (s : State) : exec (.mmaE5m2 f) s = execMmaE5m2 f s := rfl
theorem exec_mmaE4e5 (f) (s : State) : exec (.mmaE4e5 f) s = execMmaE4e5 f s := rfl
theorem exec_mmaE5e4 (f) (s : State) : exec (.mmaE5e4 f) s = execMmaE5e4 f s := rfl
theorem exec_mmaE2m1 (f) (s : State) : exec (.mmaE2m1 f) s = execMmaE2m1 f s := rfl
theorem exec_mmaBf16 (f) (s : State) : exec (.mmaBf16 f) s = execMmaBf16 f s := rfl
theorem exec_mmaF16 (f) (s : State) : exec (.mmaF16 f) s = execMmaF16 f s := rfl
theorem exec_mmaI8 (f) (s : State) : exec (.mmaI8 f) s = execMmaI8 f s := rfl
theorem exec_mmaT5 (f) (s : State) : exec (.mmaT5 f) s = execMmaT5 f s := rfl
theorem exec_mmasE4m3 (f) (s : State) : exec (.mmasE4m3 f) s = execMmasE4m3 f s := rfl
theorem exec_mmasE5m2 (f) (s : State) : exec (.mmasE5m2 f) s = execMmasE5m2 f s := rfl
theorem exec_mmasE2m1 (f) (s : State) : exec (.mmasE2m1 f) s = execMmasE2m1 f s := rfl
theorem exec_mmasBf16 (f) (s : State) : exec (.mmasBf16 f) s = execMmasBf16 f s := rfl
theorem exec_mmasF16 (f) (s : State) : exec (.mmasF16 f) s = execMmasF16 f s := rfl
theorem exec_mmasI8 (f) (s : State) : exec (.mmasI8 f) s = execMmasI8 f s := rfl
theorem exec_msacc (f) (s : State) : exec (.msacc f) s = execMsacc f s := rfl
theorem exec_mzero (f) (s : State) : exec (.mzero f) s = execMzero f s := rfl
theorem exec_acca (f) (s : State) : exec (.acca f) s = execAcca f s := rfl
theorem exec_accf (f) (s : State) : exec (.accf f) s = execAccf f s := rfl
theorem exec_accld (f) (s : State) : exec (.accld f) s = execAccld f s := rfl
theorem exec_accst (f) (s : State) : exec (.accst f) s = execAccst f s := rfl
theorem exec_bucket (f) (s : State) : exec (.bucket f) s = execBucket f s := rfl
theorem exec_bar (f) (s : State) : exec (.bar f) s = execBar f s := rfl
theorem exec_barArrive (f) (s : State) : exec (.barArrive f) s = execBarArrive f s := rfl
theorem exec_barWait (f) (s : State) : exec (.barWait f) s = execBarWait f s := rfl
theorem exec_cbar (f) (s : State) : exec (.cbar f) s = execCbar f s := rfl
theorem exec_gate (f) (s : State) : exec (.gate f) s = execGate f s := rfl
theorem exec_gret (f) (s : State) : exec (.gret f) s = execGret f s := rfl
theorem exec_trap (f) (s : State) : exec (.trap f) s = execTrap f s := rfl
theorem exec_tret (f) (s : State) : exec (.tret f) s = execTret f s := rfl
theorem exec_brk (f) (s : State) : exec (.brk f) s = execBrk f s := rfl
theorem exec_ifence (f) (s : State) : exec (.ifence f) s = execIfence f s := rfl
theorem exec_gets (f) (s : State) : exec (.gets f) s = execGets f s := rfl
theorem exec_sets (f) (s : State) : exec (.sets f) s = execSets f s := rfl
theorem exec_launch (f) (s : State) : exec (.launch f) s = execLaunch f s := rfl
theorem exec_yield (f) (s : State) : exec (.yield f) s = execYield f s := rfl
theorem exec_hvhintRecall (f) (s : State) : exec (.hvhintRecall f) s = execHvhintRecall f s := rfl
theorem exec_hvhintLend (f) (s : State) : exec (.hvhintLend f) s = execHvhintLend f s := rfl
theorem exec_getsp (f) (s : State) : exec (.getsp f) s = execGetsp f s := rfl
theorem exec_setsp (f) (s : State) : exec (.setsp f) s = execSetsp f s := rfl
theorem exec_icinv (f) (s : State) : exec (.icinv f) s = execIcinv f s := rfl
theorem exec_cwb (f) (s : State) : exec (.cwb f) s = execCwb f s := rfl
theorem exec_cinv (f) (s : State) : exec (.cinv f) s = execCinv f s := rfl
theorem exec_tlbinvVa (f) (s : State) : exec (.tlbinvVa f) s = execTlbinvVa f s := rfl
theorem exec_tlbinvAsid (f) (s : State) : exec (.tlbinvAsid f) s = execTlbinvAsid f s := rfl
theorem exec_tlbinvAll (f) (s : State) : exec (.tlbinvAll f) s = execTlbinvAll f s := rfl
theorem exec_sigh (f) (s : State) : exec (.sigh f) s = execSigh f s := rfl
theorem exec_coxNop (f) (s : State) : exec (.coxNop f) s = execCoxNop f s := rfl
theorem exec_coxHalt (f) (s : State) : exec (.coxHalt f) s = execCoxHalt f s := rfl
theorem exec_coxYield (f) (s : State) : exec (.coxYield f) s = execCoxYield f s := rfl
theorem exec_coxAbort (f) (s : State) : exec (.coxAbort f) s = execCoxAbort f s := rfl
theorem exec_coxTrap (f) (s : State) : exec (.coxTrap f) s = execCoxTrap f s := rfl
theorem exec_coxMov (f) (s : State) : exec (.coxMov f) s = execCoxMov f s := rfl
theorem exec_coxAdd (f) (s : State) : exec (.coxAdd f) s = execCoxAdd f s := rfl
theorem exec_coxSub (f) (s : State) : exec (.coxSub f) s = execCoxSub f s := rfl
theorem exec_coxAnd (f) (s : State) : exec (.coxAnd f) s = execCoxAnd f s := rfl
theorem exec_coxOr (f) (s : State) : exec (.coxOr f) s = execCoxOr f s := rfl
theorem exec_coxShl (f) (s : State) : exec (.coxShl f) s = execCoxShl f s := rfl
theorem exec_coxShr (f) (s : State) : exec (.coxShr f) s = execCoxShr f s := rfl
theorem exec_coxMovi (f) (s : State) : exec (.coxMovi f) s = execCoxMovi f s := rfl
theorem exec_coxAddi (f) (s : State) : exec (.coxAddi f) s = execCoxAddi f s := rfl
theorem exec_coxBr (f) (s : State) : exec (.coxBr f) s = execCoxBr f s := rfl
theorem exec_coxBeq (f) (s : State) : exec (.coxBeq f) s = execCoxBeq f s := rfl
theorem exec_coxBne (f) (s : State) : exec (.coxBne f) s = execCoxBne f s := rfl
theorem exec_coxBlt (f) (s : State) : exec (.coxBlt f) s = execCoxBlt f s := rfl
theorem exec_coxBge (f) (s : State) : exec (.coxBge f) s = execCoxBge f s := rfl
theorem exec_coxLoop (f) (s : State) : exec (.coxLoop f) s = execCoxLoop f s := rfl
theorem exec_coxSend (f) (s : State) : exec (.coxSend f) s = execCoxSend f s := rfl
theorem exec_coxPost (f) (s : State) : exec (.coxPost f) s = execCoxPost f s := rfl
theorem exec_coxRecv (f) (s : State) : exec (.coxRecv f) s = execCoxRecv f s := rfl
theorem exec_coxComb (f) (s : State) : exec (.coxComb f) s = execCoxComb f s := rfl
theorem exec_coxCombf (f) (s : State) : exec (.coxCombf f) s = execCoxCombf f s := rfl
theorem exec_coxFwd (f) (s : State) : exec (.coxFwd f) s = execCoxFwd f s := rfl
theorem exec_coxWaitf (f) (s : State) : exec (.coxWaitf f) s = execCoxWaitf f s := rfl
theorem exec_coxSigf (f) (s : State) : exec (.coxSigf f) s = execCoxSigf f s := rfl
theorem exec_instructionCompletion (crew flight) (s : State) : exec (.instructionCompletion crew flight) s = execInstructionCompletion crew flight s := rfl
theorem exec_faultRecordRetry (ix) (s : State) : exec (.faultRecordRetry ix) s = execFaultRecordRetry ix s := rfl
theorem exec_faultQueueWriteRetry (ix) (s : State) : exec (.faultQueueWriteRetry ix) s = execFaultQueueWriteRetry ix s := rfl
theorem exec_engineOperationRetire (id) (s : State) : exec (.engineOperationRetire id) s = execEngineOperationRetire id s := rfl
theorem exec_tsigAdd (id) (s : State) : exec (.tsigAdd id) s = execTsigAdd id s := rfl
theorem exec_tileSliceStart (core) (s : State) : exec (.tileSliceStart core) s = execTileSliceStart core s := rfl
theorem exec_tileTaskRetire (id slice) (s : State) : exec (.tileTaskRetire id slice) s = execTileTaskRetire id slice s := rfl
theorem exec_accaGrant (core) (s : State) : exec (.accaGrant core) s = execAccaGrant core s := rfl
theorem exec_accfUnitRelease (ix) (s : State) : exec (.accfUnitRelease ix) s = execAccfUnitRelease ix s := rfl
theorem exec_umpireTimeout (blk cl id) (s : State) : exec (.umpireTimeout blk cl id) s = execUmpireTimeout blk cl id s := rfl
theorem exec_gateBudgetExpire (crew level) (s : State) : exec (.gateBudgetExpire crew level) s = execGateBudgetExpire crew level s := rfl
theorem exec_pauseExpire (crew) (s : State) : exec (.pauseExpire crew) s = execPauseExpire crew s := rfl
theorem exec_spinHandoff (blk vcore) (s : State) : exec (.spinHandoff blk vcore) s = execSpinHandoff blk vcore s := rfl
theorem exec_pfdDeadlineDrop (core order) (s : State) : exec (.pfdDeadlineDrop core order) s = execPfdDeadlineDrop core order s := rfl
theorem exec_launchAdmission (id) (s : State) : exec (.launchAdmission id) s = execLaunchAdmission id s := rfl
theorem exec_launchDeadlineExpire (id) (s : State) : exec (.launchDeadlineExpire id) s = execLaunchDeadlineExpire id s := rfl
theorem exec_blockPlacement (launch first cores quads vcores out) (s : State) : exec (.blockPlacement launch first cores quads vcores out) s = execBlockPlacement launch first cores quads vcores out s := rfl
theorem exec_crewRetire (crew) (s : State) : exec (.crewRetire crew) s = execCrewRetire crew s := rfl
theorem exec_blockRetire (blk) (s : State) : exec (.blockRetire blk) s = execBlockRetire blk s := rfl
theorem exec_blockMigration (blk core quads) (s : State) : exec (.blockMigration blk core quads) s = execBlockMigration blk core quads s := rfl
theorem exec_contextPreempt (ctx) (s : State) : exec (.contextPreempt ctx) s = execContextPreempt ctx s := rfl
theorem exec_contextImageComplete (ctx vcore) (s : State) : exec (.contextImageComplete ctx vcore) s = execContextImageComplete ctx vcore s := rfl
theorem exec_contextRestore (ctx cores quads) (s : State) : exec (.contextRestore ctx cores quads) s = execContextRestore ctx cores quads s := rfl
theorem exec_harvestInterference (core) (s : State) : exec (.harvestInterference core) s = execHarvestInterference core s := rfl
theorem exec_harvestRevocation (core) (s : State) : exec (.harvestRevocation core) s = execHarvestRevocation core s := rfl
theorem exec_harvestParkComplete (core) (s : State) : exec (.harvestParkComplete core) s = execHarvestParkComplete core s := rfl
theorem exec_harvestResume (blk quads) (s : State) : exec (.harvestResume blk quads) s = execHarvestResume blk quads s := rfl
theorem exec_harvestEvict (blk) (s : State) : exec (.harvestEvict blk) s = execHarvestEvict blk s := rfl
theorem exec_remoteWriteApply (ix) (s : State) : exec (.remoteWriteApply ix) s = execRemoteWriteApply ix s := rfl
theorem exec_replicaApply (ix) (s : State) : exec (.replicaApply ix) s = execReplicaApply ix s := rfl
theorem exec_packetForward (ix) (s : State) : exec (.packetForward ix) s = execPacketForward ix s := rfl
theorem exec_write (ix) (s : State) : exec (.write ix) s = execWrite ix s := rfl
theorem exec_readreq (ix) (s : State) : exec (.readreq ix) s = execReadreq ix s := rfl
theorem exec_readrsp (ix) (s : State) : exec (.readrsp ix) s = execReadrsp ix s := rfl
theorem exec_atomic (ix) (s : State) : exec (.atomic ix) s = execAtomic ix s := rfl
theorem exec_marker (ix) (s : State) : exec (.marker ix) s = execMarker ix s := rfl
theorem exec_markack (ix) (s : State) : exec (.markack ix) s = execMarkack ix s := rfl
theorem exec_probe (ix) (s : State) : exec (.probe ix) s = execProbe ix s := rfl
theorem exec_probeack (ix) (s : State) : exec (.probeack ix) s = execProbeack ix s := rfl
theorem exec_reduce (ix) (s : State) : exec (.reduce ix) s = execReduce ix s := rfl
theorem exec_redrsp (ix) (s : State) : exec (.redrsp ix) s = execRedrsp ix s := rfl
theorem exec_chunk (ix) (s : State) : exec (.chunk ix) s = execChunk ix s := rfl
theorem exec_start (ix) (s : State) : exec (.start ix) s = execStart ix s := rfl
theorem exec_abort (ix) (s : State) : exec (.abort ix) s = execAbort ix s := rfl
theorem exec_abortack (ix) (s : State) : exec (.abortack ix) s = execAbortack ix s := rfl
theorem exec_refuse (ix) (s : State) : exec (.refuse ix) s = execRefuse ix s := rfl
theorem exec_fabricResponseTimeout (id) (s : State) : exec (.fabricResponseTimeout id) s = execFabricResponseTimeout id s := rfl
theorem exec_portDown (p back) (s : State) : exec (.portDown p back) s = execPortDown p back s := rfl
theorem exec_portTraining (p ok peer) (s : State) : exec (.portTraining p ok peer) s = execPortTraining p ok peer s := rfl
theorem exec_portAutoRetrain (p) (s : State) : exec (.portAutoRetrain p) s = execPortAutoRetrain p s := rfl
theorem exec_linkStateAnnouncement (k ix up) (s : State) : exec (.linkStateAnnouncement k ix up) s = execLinkStateAnnouncement k ix up s := rfl
theorem exec_keyExchangeMessage (p ok) (s : State) : exec (.keyExchangeMessage p ok) s = execKeyExchangeMessage p ok s := rfl
theorem exec_frameSend (p ch hops) (s : State) : exec (.frameSend p ch hops) s = execFrameSend p ch hops s := rfl
theorem exec_frameReceive (p ok sel hdr data bad side) (s : State) : exec (.frameReceive p ok sel hdr data bad side) s = execFrameReceive p ok sel hdr data bad side s := rfl
theorem exec_coxWaitSatisfied (port k) (s : State) : exec (.coxWaitSatisfied port k) s = execCoxWaitSatisfied port k s := rfl
theorem exec_coxSpinFault (port) (s : State) : exec (.coxSpinFault port) s = execCoxSpinFault port s := rfl
theorem exec_coxRefusalTimeout (port k) (s : State) : exec (.coxRefusalTimeout port k) s = execCoxRefusalTimeout port k s := rfl
theorem exec_coxStartSlotFree (port) (s : State) : exec (.coxStartSlotFree port) s = execCoxStartSlotFree port s := rfl
theorem exec_coxStartHoldTimeout (port) (s : State) : exec (.coxStartHoldTimeout port) s = execCoxStartHoldTimeout port s := rfl
theorem exec_coxDescriptorLoadComplete (port k) (s : State) : exec (.coxDescriptorLoadComplete port k) s = execCoxDescriptorLoadComplete port k s := rfl
theorem exec_startWindowTimeout (ix) (s : State) : exec (.startWindowTimeout ix) s = execStartWindowTimeout ix s := rfl
theorem exec_bootl (pa) (s : State) : exec (.bootl pa) s = execBootl pa s := rfl
theorem exec_frespResume (dom owner seq) (s : State) : exec (.frespResume dom owner seq) s = execFrespResume dom owner seq s := rfl
theorem exec_frespDecline (dom owner seq) (s : State) : exec (.frespDecline dom owner seq) s = execFrespDecline dom owner seq s := rfl
theorem exec_frespTerminate (dom owner seq) (s : State) : exec (.frespTerminate dom owner seq) s = execFrespTerminate dom owner seq s := rfl
theorem exec_mgmtRegisterWrite (bar off wide v) (s : State) : exec (.mgmtRegisterWrite bar off wide v) s = execMgmtRegisterWrite bar off wide v s := rfl
theorem exec_addressGroupWrite (g w v) (s : State) : exec (.addressGroupWrite g w v) s = execAddressGroupWrite g w v s := rfl
theorem exec_startGo (ix group) (s : State) : exec (.startGo ix group) s = execStartGo ix group s := rfl
theorem exec_coxInstructionMemoryWrite (port w v) (s : State) : exec (.coxInstructionMemoryWrite port w v) s = execCoxInstructionMemoryWrite port w v s := rfl
theorem exec_coxRegionWrite (port ix v) (s : State) : exec (.coxRegionWrite port ix v) s = execCoxRegionWrite port ix v s := rfl
theorem exec_coxSlotStateWrite (port k r v) (s : State) : exec (.coxSlotStateWrite port k r v) s = execCoxSlotStateWrite port k r v s := rfl
theorem exec_ctlResume (port k) (s : State) : exec (.ctlResume port k) s = execCtlResume port k s := rfl
theorem exec_ctlStep (port k) (s : State) : exec (.ctlStep port k) s = execCtlStep port k s := rfl
theorem exec_ctlKill (port k) (s : State) : exec (.ctlKill port k) s = execCtlKill port k s := rfl
theorem exec_getid (s : State) : exec (.getid) s = execGetid s := rfl
theorem exec_attest (s : State) : exec (.attest) s = execAttest s := rfl
theorem exec_kdopen (s : State) : exec (.kdopen) s = execKdopen s := rfl
theorem exec_kdseal (s : State) : exec (.kdseal) s = execKdseal s := rfl
theorem exec_kdclose (s : State) : exec (.kdclose) s = execKdclose s := rfl
theorem exec_kdmap (s : State) : exec (.kdmap) s = execKdmap s := rfl
theorem exec_rekey (s : State) : exec (.rekey) s = execRekey s := rfl
theorem exec_mpcset (s : State) : exec (.mpcset) s = execMpcset s := rfl
theorem exec_mpcjoin (s : State) : exec (.mpcjoin) s = execMpcjoin s := rfl
theorem exec_revoke (s : State) : exec (.revoke) s = execRevoke s := rfl
theorem exec_fwstage (s : State) : exec (.fwstage) s = execFwstage s := rfl
theorem exec_fwcommit (s : State) : exec (.fwcommit) s = execFwcommit s := rfl
theorem exec_secpCommandComplete (s : State) : exec (.secpCommandComplete) s = execSecpCommandComplete s := rfl
theorem exec_fabcfg (v) (s : State) : exec (.fabcfg v) s = execFabcfg v s := rfl
theorem exec_portctlAdmdn (p v) (s : State) : exec (.portctlAdmdn p v) s = execPortctlAdmdn p v s := rfl
theorem exec_portctlRetrain (p) (s : State) : exec (.portctlRetrain p) s = execPortctlRetrain p s := rfl
theorem exec_portctlMapv (p v lport) (s : State) : exec (.portctlMapv p v lport) s = execPortctlMapv p v lport s := rfl
theorem exec_rasclr (s : State) : exec (.rasclr) s = execRasclr s := rfl
theorem exec_bar2Write (off data) (s : State) : exec (.bar2Write off data) s = execBar2Write off data s := rfl
theorem exec_bar2Read (off len) (s : State) : exec (.bar2Read off len) s = execBar2Read off len s := rfl
theorem exec_enterD3hot (s : State) : exec (.enterD3hot) s = execEnterD3hot s := rfl
theorem exec_leaveD3hot (s : State) : exec (.leaveD3hot) s = execLeaveD3hot s := rfl
theorem exec_perstDeassert (s : State) : exec (.perstDeassert) s = execPerstDeassert s := rfl
theorem exec_firmwareVerify (imgs) (s : State) : exec (.firmwareVerify imgs) s = execFirmwareVerify imgs s := rfl
theorem exec_secureTrainingComplete (memOk coresOk linkOk) (s : State) : exec (.secureTrainingComplete memOk coresOk linkOk) s = execSecureTrainingComplete memOk coresOk linkOk s := rfl
theorem exec_fullServiceTransition (dieUp stackUp cxlUp) (s : State) : exec (.fullServiceTransition dieUp stackUp cxlUp) s = execFullServiceTransition dieUp stackUp cxlUp s := rfl
theorem exec_clockStep (avg pkg dies temps hbm) (s : State) : exec (.clockStep avg pkg dies temps hbm) s = execClockStep avg pkg dies temps hbm s := rfl
theorem exec_thermtrip (s : State) : exec (.thermtrip) s = execThermtrip s := rfl
theorem exec_powerRemoval (s : State) : exec (.powerRemoval) s = execPowerRemoval s := rfl
theorem exec_patrolScrub (line kind) (s : State) : exec (.patrolScrub line kind) s = execPatrolScrub line kind s := rfl
theorem exec_onCoreUncorrectable (core crew blk) (s : State) : exec (.onCoreUncorrectable core crew blk) s = execOnCoreUncorrectable core crew blk s := rfl
theorem exec_cxlLinkDown (p lost) (s : State) : exec (.cxlLinkDown p lost) s = execCxlLinkDown p lost s := rfl
theorem exec_illop (opc rest) (s : State) : exec (.illop opc rest) s = execIllop opc rest s := rfl
theorem exec_coxIllop (opc rest) (s : State) : exec (.coxIllop opc rest) s = execCoxIllop opc rest s := rfl
theorem exec_perstAssert (s : State) : exec (.perstAssert) s = execPerstAssert s := rfl
theorem exec_msixVectorUnmask (v) (s : State) : exec (.msixVectorUnmask v) s = execMsixVectorUnmask v s := rfl
theorem exec_hbmStackEntersService (stack ok) (s : State) : exec (.hbmStackEntersService stack ok) s = execHbmStackEntersService stack ok s := rfl
theorem exec_prefetchComplete (core n) (s : State) : exec (.prefetchComplete core n) s = execPrefetchComplete core n s := rfl

end Sys2Proof.Machine
end

