-- ==== Sys2Proof/Laws/Issue.lean ====
section
/-!
SUPPORT. Laws/Issue.lean: what issuing an instruction does, said once: an instruction that passes the checks and whose effect succeeds
ends as `Completed` says.
-/

namespace Sys2Proof.Machine

open Sys2Proof

theorem issue_ok {s : State} {c : Crew} {sp : Spec} {bad : Crew → Bool} {body : Ctx → State → Res Done} {d : Done}
    (h : Issues s c sp bad) (hb : body (s.view c sp) (s.issued c sp) = .ok d) :
    issue sp bad body s = .next (issueEnd s.opening c sp d) := by
  have h1 : ¬(sp.deny = true ∨ (sp.priv = true ∧ c.priv ≠ 2)) := by
    rintro (h2 | ⟨h2, h3⟩)
    · rw [h.allowed] at h2; cases h2
    · exact h3 (h.privileged h2)
  have h2 : ¬(specBad sp c.n = true ∨ bad (seenCrew s.opening c) = true) := by
    rw [h.fields, h.rest]; simp
  simp only [issue, h.crew, h.eligible, h.queues, h1, h2]
  simp only [State.view, State.issued, State.issuing] at hb
  simp [hb]

/-- Everything that issuing an instruction can answer with a next state: it was not eligible, a check of issue raised, its effect stopped,
or it completed. -/
theorem issue_cases {s t : State} {sp : Spec} {bad : Crew → Bool} {body : Ctx → State → Res Done} (h : issue sp bad body s = .next t) :
    ∃ c, s.opening.issuer? = some c ∧
      ((mayIssue s.opening c sp.h = false ∧ t = { s.opening with heldMark := true }) ∨
       (mayIssue s.opening c sp.h = true ∧ ∃ x ∈ [privCause, illField], t = s.opening.takeCause x) ∨
       (mayIssue s.opening c sp.h = true ∧ ∃ q, queueFault c.queues sp.srcs sp.dsts = some q ∧
          t = s.opening.takeCause (queueCause q (c.queues.getD q 0#32))) ∨
       (mayIssue s.opening c sp.h = true ∧ ∃ e, body (s.view c sp) (s.issued c sp) = .error e ∧ issueStop s.opening (queuedFor c sp).1 e = .next t) ∨
       (mayIssue s.opening c sp.h = true ∧ ∃ d, body (s.view c sp) (s.issued c sp) = .ok d ∧ t = issueEnd s.opening c sp d)) := by
  unfold issue at h
  dsimp only at h
  split at h
  · cases h
  · rename_i c hc
    refine ⟨c, hc, ?_⟩
    split at h
    · rename_i hm
      cases h
      exact .inl ⟨by simpa using hm, rfl⟩
    · rename_i hm
      have hm : mayIssue s.opening c sp.h = true := by simpa using hm
      refine .inr ?_
      split at h
      · cases h; exact .inl ⟨hm, privCause, by simp, rfl⟩
      · split at h
        · cases h; exact .inl ⟨hm, illField, by simp, rfl⟩
        · split at h
          · rename_i q hq; cases h; exact .inr (.inl ⟨hm, q, hq, rfl⟩)
          · split at h
            · rename_i e he; exact .inr (.inr (.inl ⟨hm, e, he, h⟩))
            · rename_i d hd; cases h; exact .inr (.inr (.inr ⟨hm, d, hd, rfl⟩))

/-- The checks of issue, for an instruction that is not privileged. -/
theorem issue_checked {sp : Spec} {bad : Crew → Bool} (body : Ctx → State → Res Done) {s : State} {c : Crew}
    (hc : s.opening.issuer? = some c) (ha : sp.deny = false) (hp : sp.priv = false) (hm : mayIssue s.opening c sp.h = true) :
    ((specBad sp c.n = true ∨ bad (seenCrew s.opening c) = true) → issue sp bad body s = .next (s.opening.takeCause illField)) ∧
    (specBad sp c.n = false → bad (seenCrew s.opening c) = false → ∀ q, queueFault c.queues sp.srcs sp.dsts = some q →
      issue sp bad body s = .next (s.opening.takeCause (queueCause q (c.queues.getD q 0#32)))) := by
  refine ⟨fun h2 => ?_, fun h2 h3 q hq => ?_⟩
  · simp only [issue, hc, hm, ha, hp]; simp [h2]
  · simp [issue, hc, hm, ha, hp, h2, h3, hq]

theorem rowAt_mkRow (f : Nat → Word) {l : Nat} (hl : l < 64) : rowAt (mkRow f) l = f l := by
  simp [rowAt, mkRow, lanes, List.getD, hl]

theorem find_map_id {l : List Crew} {i : Nat} {c e : Crew} (h : l.find? (fun x => x.id == i) = some c) (he : e.id = i) :
    (l.map (fun x => if x.id == i then e else x)).find? (fun x => x.id == i) = some e := by
  induction l with
  | nil => simp at h
  | cons x xs ih =>
    by_cases hx : x.id = i
    · simp [hx, he]
    · simp [hx] at h ⊢
      simpa using ih (by simpa using h)

theorem landAlts_id (s : State) (ws : List Alt) : ∀ c : Crew, (ws.foldl (landAlt s) c).id = c.id := by
  induction ws with
  | nil => intro c; rfl
  | cons w ws ih => intro c; rw [List.foldl_cons, ih]; rfl

theorem finishFlight_id (s : State) (c : Crew) (f : Flight) : (finishFlight s c f).id = c.id := by
  simp only [finishFlight, lowerFlag]
  split <;> split <;> simp [landAlts_id]

theorem settle_id (s : State) (c : Crew) : (settle s c).id = c.id := by
  have h : ∀ (fs : List Flight) (c : Crew), (fs.foldl (finishFlight s) c).id = c.id := by
    intro fs
    induction fs with
    | nil => intro c; rfl
    | cons f fs ih => intro c; rw [List.foldl_cons, ih, finishFlight_id]
  exact h _ c

theorem leftCrew_id (s : State) (c : Crew) : (leftCrew s c).id = c.id := by
  unfold leftCrew
  split
  · split <;> rfl
  · rfl

theorem startCrew_id (s : State) (c : Crew) : (startCrew s c).id = c.id := by
  unfold startCrew
  dsimp only
  split <;> exact leftCrew_id s c

/-- Noting the sources still read leaves all but the instructions in flight. -/
theorem lateCrew_frame (o : Nat) (l : Option Late) (c : Crew) : lateCrew o l c = { c with
    flights := (lateCrew o l c).flights } := by
  unfold lateCrew
  split
  · rfl
  · split <;> rfl

/-- The instruction in flight that noting its sources leaves at the head. -/
theorem lateCrew_head {o : Nat} {l : Option Late} {c : Crew} {f : Flight} {fs : List Flight} (h : c.flights = f :: fs) (hf : f.id = o) :
    ∃ g gs, (lateCrew o l c).flights = g :: gs ∧ g.id = f.id ∧ g.flag = f.flag ∧ g.due = f.due ∧ g.squash = f.squash ∧ g.writes = f.writes := by
  unfold lateCrew
  split
  · exact ⟨f, fs, h, rfl, rfl, rfl, rfl, rfl⟩
  · rw [h]
    simp [hf]

/-- The crew that issues is in the crew list under its id. -/
theorem issuer_find {s : State} {c : Crew} (h : s.issuer? = some c) :
    s.cur.crew = some c.id ∧ ∃ c0, s.crew? c.id = some c0 ∧ c = startCrew s (settle s c0) := by
  unfold State.issuer? State.atCursor? at h
  split at h
  · cases h
  · rename_i i hi
    simp only [Option.map_map, Option.map_eq_some_iff, Function.comp_apply] at h
    obtain ⟨c0, h0, rfl⟩ := h
    have : c0.id = i := by
      have := List.find?_some h0
      simpa using this
    rw [startCrew_id, settle_id, this]
    exact ⟨hi, c0, h0, rfl⟩

theorem mkMask_get (p : Nat → Bool) {l : Nat} (hl : l < 64) : (mkMask p).getLsbD l = p l := by
  have h : ∀ (n : Nat), n ≤ 64 → ((List.range n).foldl (fun m l => if p l then m ||| (1#64 <<< l) else m) 0#64).getLsbD l = (decide (l < n) && p l) := by
    intro n
    induction n with
    | zero => intro _; simp
    | succ n ih =>
      intro hn
      rw [List.range_succ, List.foldl_append, List.foldl_cons, List.foldl_nil]
      have ih := ih (by omega)
      by_cases hp : p n
      · rw [if_pos hp, BitVec.getLsbD_or, ih, BitVec.getLsbD_shiftLeft]
        by_cases h1 : l = n
        · subst h1; simp [hp, hl]
        · by_cases h2 : l < n
          · simp [h2, hl]; intro; omega
          · have h3 : ¬ l < n + 1 := by omega
            have h4 : n < l := by omega
            simp [h2, h3, hl, BitVec.getLsbD_one]; intro _; omega
      · rw [if_neg hp, ih]
        by_cases h1 : l = n
        · subst h1; simp [hp]
        · have : (l < n + 1) = (l < n) := by apply propext; omega
          simp [this]
  have := h 64 (le_refl _)
  simpa [mkMask, lanes, hl] using this

theorem rowAt_mergeBits (old new : Row) (bits : Nat → Word) {l : Nat} (hl : l < 64) :
    rowAt (mergeBits old new bits) l = (rowAt old l &&& ~~~bits l) ||| (rowAt new l &&& bits l) := by
  simp [mergeBits, rowAt_mkRow, hl]

theorem foldl_const {α β : Type} {f : β → α → β} {b : β} : ∀ {l : List α}, (∀ a ∈ l, f b a = b) → l.foldl f b = b
  | [], _ => rfl
  | a :: l, h => by rw [List.foldl_cons, h a List.mem_cons_self, foldl_const (fun x hx => h x (List.mem_cons_of_mem _ hx))]

theorem hazardFree_overtaken {s : State} {id due : Nat} {fl : List Flight} {r : Nat} (h : hazardFree s.cycle fl r) (l : Nat) (bits : Word) :
    overtaken s id due fl r l bits = 0#32 := by
  apply foldl_const
  intro f hf
  split
  · rename_i hd
    simp only [Option.any_eq_true, Bool.and_eq_true, decide_eq_true_eq] at hd
    obtain ⟨d, hd, h1, _⟩ := hd
    apply foldl_const
    intro a ha
    rw [if_neg]
    exact fun h2 => h f hf d hd h1 a ha h2.1
  · rfl

theorem putWr_hazardFree {s : State} {c : Crew} {due : Nat} {w : Wr} {r : Nat} (h : hazardFree s.cycle c.flights r) :
    hazardFree s.cycle (putWr s c due w).flights r := by
  intro f hf d hd hlt
  simp only [putWr, List.mem_map] at hf
  obtain ⟨g, hg, rfl⟩ := hf
  split at hd <;> rename_i hn
  · rw [show (g.overtakenBy w.reg w.mask w.bits).due = g.due from rfl] at hd
    rw [hd] at hn
    cases hn
  · rw [if_neg hn]; exact h g hg d hd hlt

theorem putWr_lane (s : State) (c : Crew) (due : Nat) (w : Wr) (hw : w.reg < c.regs.length) (r l : Nat) (hl : l < 64)
    (hz : hazardFree s.cycle c.flights r) :
    rowAt ((putWr s c due w).regs.getD r Row.zero) l =
      if w.reg = r ∧ w.mask.getLsbD l then (rowAt (c.regs.getD r Row.zero) l &&& ~~~w.bits) ||| (rowAt w.row l &&& w.bits)
      else rowAt (c.regs.getD r Row.zero) l := by
  simp only [putWr]
  by_cases hr : w.reg = r
  · subst hr
    rw [List.getD_eq_getElem?_getD, List.getElem?_set_self hw, Option.getD_some, rowAt_mergeBits _ _ _ hl,
      hazardFree_overtaken hz]
    have h1 : ∀ v : Word, v &&& 4294967295#32 = v := fun v => BitVec.and_allOnes
    by_cases hm : w.mask.getLsbD l = true <;> simp [hm, h1]
  · rw [List.getD_eq_getElem?_getD, List.getElem?_set_ne hr, ← List.getD_eq_getElem?_getD]
    simp [hr]

theorem putWr_length (s : State) (c : Crew) (due : Nat) (w : Wr) : (putWr s c due w).regs.length = c.regs.length := by
  simp [putWr]

/-- Register writes in order leave every lane as `laneAfter` says, where no write is in flight. -/
theorem putAll_lane (s : State) (due : Nat) (wr : List Wr) : ∀ (c : Crew), (∀ w ∈ wr, w.reg < c.regs.length) → ∀ (r l : Nat), l < 64 →
    hazardFree s.cycle c.flights r →
    rowAt ((wr.foldl (fun c w => putWr s c due w) c).regs.getD r Row.zero) l = laneAfter wr r l (rowAt (c.regs.getD r Row.zero) l) := by
  induction wr with
  | nil => intro c _ r l _ _; rfl
  | cons w ws ih =>
    intro c hw r l hl hz
    rw [List.foldl_cons, ih _ (by intro v hv; rw [putWr_length]; exact hw v (List.mem_cons_of_mem _ hv)) r l hl (putWr_hazardFree hz),
      putWr_lane s c due w (hw w List.mem_cons_self) r l hl hz]
    rfl

/-- Register writes change the registers and the instructions in flight only. -/
theorem putAll_frame (s : State) (due : Nat) (wr : List Wr) (c : Crew) :
    wr.foldl (fun c w => putWr s c due w) c =
      { c with
        regs := (wr.foldl (fun c w => putWr s c due w) c).regs, flights := (wr.foldl (fun c w => putWr s c due w) c).flights } := by
  induction wr generalizing c with
  | nil => rfl
  | cons w ws ih => rw [List.foldl_cons, ih]; rfl

theorem yieldTo_hazardFree {cyc r : Nat} {pre : List Flight} (wr : List Wr) : ∀ {fl : List Flight}, hazardFree cyc fl r →
    hazardFree cyc (wr.foldl (fun fl w => yieldTo pre fl w) fl) r := by
  induction wr with
  | nil => intro fl h; exact h
  | cons w ws ih =>
    intro fl h
    rw [List.foldl_cons]
    apply ih
    intro f hf d hd hlt a ha
    simp only [yieldTo, List.mem_map] at hf
    obtain ⟨g, hg, rfl⟩ := hf
    split at hd <;> rename_i hn
    · rw [if_pos hn] at ha; exact h g hg d hd hlt a ha
    · rw [if_neg hn] at ha
      simp only [List.mem_flatMap] at ha
      obtain ⟨b, hb, hab⟩ := ha
      have := h g hg d hd hlt b hb
      split at hab <;> simp at hab
      · rcases hab with rfl | rfl <;> exact this
      · subst hab; exact this

theorem countCrew_hazardFree {m : State} {sp : Spec} {wr : List Wr} {e : Crew} {r : Nat} (h : hazardFree m.cycle e.flights r) :
    hazardFree m.cycle (countCrew m sp wr e).flights r := by
  show hazardFree m.cycle (match m.cur.snap with
      | some sn => wr.foldl (fun fl w => yieldTo sn.flights fl w) e.flights
      | none => e.flights) r
  split
  · exact yieldTo_hazardFree _ h
  · exact h

theorem landCrew_frame (m : State) (before : List Row) (sp : Spec) (wr : List Wr) (c : Crew) :
    landCrew m before sp wr c = { c with
      regs := (landCrew m before sp wr c).regs, flights := (landCrew m before sp wr c).flights } := by
  unfold landCrew
  generalize (if sp.fpx = true then some m.cur.slot else none) = fx
  split
  · simp only
    rw [putAll_frame]
  · rfl
  · simp only
    split
    · simp only
      rw [putAll_frame]
    · rw [putAll_frame]

theorem landCrew_lane {m : State} {before : List Row} {sp : Spec} {wr : List Wr} {c : Crew} (hv : sp.lat ≠ .var)
    (hw : ∀ w ∈ wr, w.reg < c.regs.length) {r l : Nat} (hl : l < 64) (hz : hazardFree m.cycle c.flights r) :
    rowAt ((landCrew m before sp wr c).regs.getD r Row.zero) l = laneAfter wr r l (rowAt (c.regs.getD r Row.zero) l) := by
  unfold landCrew
  generalize (if sp.fpx = true then some m.cur.slot else none) = fx
  split
  · exact putAll_lane m _ wr c hw r l hl hz
  · rename_i h; exact absurd h hv
  · simp only
    split
    · exact putAll_lane m _ wr c hw r l hl hz
    · exact putAll_lane m _ wr c hw r l hl hz

theorem landCrew_flight (m : State) (before : List Row) (sp : Spec) (wr : List Wr) (c : Crew) :
    (match sp.lat with
        | .fixed n => ∃ f fs, (landCrew m before sp wr c).flights = f :: fs ∧ f.id = m.order ∧ f.flag = flagOf sp.h ∧ f.due = some (m.cycle + n)
        | .var => ∃ f fs, (landCrew m before sp wr c).flights = f :: fs ∧ f.id = m.order ∧ f.flag = flagOf sp.h ∧ f.due = none ∧ f.squash = sp.squash ∧
            f.writes.map (fun a => (a.reg, a.row, a.mask, a.bits)) = wr.map (fun w => (w.reg, w.row, w.mask, w.bits))
        | .none => True) := by
  unfold landCrew
  generalize (if sp.fpx = true then some m.cur.slot else none) = fx
  cases sp.lat with
  | fixed n => exact ⟨_, _, rfl, rfl, rfl, rfl⟩
  | var => exact ⟨_, _, rfl, rfl, rfl, rfl, rfl, by simp⟩
  | none => trivial

theorem landCrew_var {m : State} {before : List Row} {sp : Spec} {wr : List Wr} {c : Crew} (h : sp.lat = .var) :
    (landCrew m before sp wr c).regs = c.regs := by
  unfold landCrew
  rw [h]

theorem landCrew_writes {s m : State} (before : List Row) (sp : Spec) (wr : List Wr) (hcyc : m.cycle = s.cycle) {e : Crew} :
    CrewWrites s e (landCrew m before sp wr (countCrew m sp wr e)) sp wr m.order := by
  constructor
  · rw [landCrew_frame]
    rfl
  · intro hv hw r l hl hz
    rw [← hcyc] at hz
    exact landCrew_lane (c := countCrew m sp wr e) hv hw hl (countCrew_hazardFree hz)
  · intro hv
    exact landCrew_var hv
  · have h3 := landCrew_flight m before sp wr (countCrew m sp wr e)
    rw [hcyc] at h3
    exact h3

theorem map_if_map {l : List Crew} {i : Nat} {e g : Crew} (he : e.id = i) :
    (l.map (fun x => if x.id == i then e else x)).map (fun x => if x.id == i then g else x) =
      l.map (fun x => if x.id == i then g else x) := by
  rw [List.map_map]
  apply List.map_congr_left
  intro x _
  by_cases h : x.id = i <;> simp [h, he]

theorem map_if_mapf {l : List Crew} {i : Nat} {e : Crew} (f : Crew → Crew) (he : e.id = i) :
    (l.map (fun x => if x.id == i then e else x)).map (fun x => if x.id == i then f x else x) =
      l.map (fun x => if x.id == i then f e else x) := by
  rw [List.map_map]
  apply List.map_congr_left
  intro x _
  by_cases h : x.id = i <;> simp [h, he]

theorem setCrew_modCrew (s : State) {e : Crew} (g : Crew → Crew) (h : (g e).id = e.id) : (s.setCrew e).modCrew e.id g = s.setCrew (g e) := by
  simp only [State.setCrew, State.modCrew, h]
  rw [map_if_mapf g rfl]

theorem lateCrew_writes {s : State} {e c : Crew} {sp : Spec} {wr : List Wr} {o : Nat} (l : Option Late) (h : CrewWrites s e c sp wr o) :
    CrewWrites s e (lateCrew o l c) sp wr o := by
  have h0 := lateCrew_frame o l c
  have h1 : (lateCrew o l c).flags = c.flags := by rw [h0]
  have h2 : (lateCrew o l c).regs = c.regs := by rw [h0]
  refine ⟨by rw [h1]; exact h.counted, by rw [h2]; exact h.landed, by rw [h2]; exact h.later, ?_⟩
  have h3 := h.flight
  cases hl : sp.lat with
  | fixed n =>
    rw [hl] at h3
    obtain ⟨f, fs, h4, h5, h6, h7⟩ := h3
    obtain ⟨g, gs, h8, h9, h10, h11, _⟩ := lateCrew_head (l := l) h4 h5
    exact ⟨g, gs, h8, by rw [h9, h5], by rw [h10, h6], by rw [h11, h7]⟩
  | var =>
    rw [hl] at h3
    obtain ⟨f, fs, h4, h5, h6, h7, hq, hw⟩ := h3
    obtain ⟨g, gs, h8, h9, h10, h11, h12, h13⟩ := lateCrew_head (l := l) h4 h5
    exact ⟨g, gs, h8, by rw [h9, h5], by rw [h10, h6], by rw [h11, h7], by rw [h12, hq], by rw [h13, hw]⟩
  | none => trivial

/-- A crew whose issuing slot runs and that waits for no record is left alone by the rules of R24. -/
theorem slotRule_none {s : State} {id : Nat} {c : Crew} (h : s.crew? id = some c) {k : Bool} (hr : (c.slot k).st = .running)
    (ho : (c.slot (!k)).st ≠ .free ∨ c.depth = 0) : s.slotRule id = none := by
  have hm : mergeParked c = none := by
    unfold mergeParked
    rw [if_neg]
    rintro ⟨h1, h2, _⟩
    cases k <;> simp [Crew.slot, h1, h2] at hr
  have hf : ¬((c.a.st = .free ∨ c.b.st = .free) ∧ c.depth ≠ 0) := by
    rintro ⟨h1, h2⟩
    rcases ho with h3 | h3
    · cases k
      · simp [Crew.slot] at hr h3
        rcases h1 with h1 | h1
        · rw [hr] at h1; cases h1
        · exact h3 h1
      · simp [Crew.slot] at hr h3
        rcases h1 with h1 | h1
        · exact h3 h1
        · rw [hr] at h1; cases h1
    · exact h2 h3
  have hp : releaseParked c = none := by
    unfold releaseParked
    rw [if_pos]
    cases k
    · exact .inl (by simpa [Crew.slot] using hr)
    · exact .inr (by simpa [Crew.slot] using hr)
  unfold State.slotRule
  rw [h]
  simp only [hm, if_neg hf, hp]
  split <;> rfl

theorem settleSlots_steady {s : State} {id : Nat} {c : Crew} (h : s.crew? id = some c) {k : Bool} (hr : (c.slot k).st = .running)
    (ho : (c.slot (!k)).st ≠ .free ∨ c.depth = 0) : s.settleSlots id = s := by
  unfold State.settleSlots
  rw [h]
  simp only
  rw [show 2 * c.depth + 6 = (2 * c.depth + 5) + 1 from rfl, State.slotRules, slotRule_none h hr ho]

theorem slot_setSlot (c : Crew) (k : Bool) (p : PcSlot) : (c.setSlot k p).slot k = p := by cases k <;> rfl
theorem slot_setSlot_not (c : Crew) (k : Bool) (p : PcSlot) : (c.setSlot k p).slot (!k) = c.slot (!k) := by cases k <;> rfl
theorem setSlot_frame (c : Crew) (k : Bool) (p : PcSlot) :
    c.setSlot k p = { c with
      a := (c.setSlot k p).a, b := (c.setSlot k p).b } := by cases k <;> rfl

/-- The crew at the end of an instruction that leaves its PC to the sequence. -/
def nextCrew (k : Bool) (next : DWord) (ends : Bool) (c : Crew) : Crew :=
  let c := c.setSlot k ((c.slot k).goto next)
  if ends then markRegion c k next else c

theorem nextCrew_here (k : Bool) (next : DWord) (ends : Bool) (c : Crew) :
    ((nextCrew k next ends c).slot k).pc = next ∧ ((nextCrew k next ends c).slot k).mask = (c.slot k).mask ∧
      ((nextCrew k next ends c).slot k).st = (c.slot k).st := by
  cases k <;> cases ends <;> exact ⟨rfl, rfl, rfl⟩

theorem nextCrew_frame (k : Bool) (next : DWord) (ends : Bool) (c : Crew) :
    nextCrew k next ends c = { c with
      a := (nextCrew k next ends c).a, b := (nextCrew k next ends c).b, rngCap := (nextCrew k next ends c).rngCap } := by
  cases k <;> cases ends <;> rfl

theorem nextCrew_other (k : Bool) (next : DWord) (ends : Bool) (c : Crew) : (nextCrew k next ends c).slot (!k) = c.slot (!k) := by
  cases k <;> cases ends <;> rfl

theorem nextCrew_entry (k : Bool) (next : DWord) (ends : Bool) (c : Crew) :
    if ends then ((nextCrew k next ends c).slot k).region = next
    else ((nextCrew k next ends c).slot k).region = (c.slot k).region ∧ (nextCrew k next ends c).rngCap = c.rngCap := by
  cases k <;> cases ends <;> simp [nextCrew, markRegion, Crew.slot, Crew.setSlot, PcSlot.goto]

/-- An instruction whose effect leaves state `d.s` and crew `e` ends as `Completed` says. -/
theorem issueEnd_completed {s : State} {c e : Crew} {sp : Spec} {d : Done} (hi : s.opening.issuer? = some c)
    (hcr : d.s.crews = s.crews.map (fun x => if x.id == c.id then e else x)) (hid : e.id = c.id) (hctl : d.ctl = false)
    (hcyc : d.s.cycle = s.cycle) (hrun : (e.slot s.cur.slot).st = .running)
    (hoth : (e.slot (!s.cur.slot)).st ≠ .free ∨ e.depth = 0) :
    Completed s d.s (issueEnd s.opening c sp d) e sp d.wr := by
  obtain ⟨_, c0, h0, _⟩ := issuer_find hi
  have h0 : s.crews.find? (fun x => x.id == c.id) = some c0 := h0
  have h1 : d.s.crew? c.id = some e := by
    unfold State.crew?
    rw [hcr]
    exact find_map_id h0 hid
  generalize hb : (match d.s.cur.snap with
      | some sn => sn.regs
      | none => e.regs) = before
  generalize hL : lateCrew d.s.order d.late (landCrew d.s before sp d.wr (countCrew d.s sp d.wr e)) = L
  have hl : (landCrew d.s before sp d.wr (countCrew d.s sp d.wr e)).id = c.id := by rw [landCrew_frame]; exact hid
  have hc : (commit d.s c.id sp d.wr).modCrew c.id (lateCrew d.s.order d.late) = d.s.setCrew L := by
    have h2 : commit d.s c.id sp d.wr = d.s.setCrew (landCrew d.s before sp d.wr (countCrew d.s sp d.wr e)) := by
      unfold commit
      rw [h1]
      simp only [← hb] <;> rfl
    rw [h2, ← hl, setCrew_modCrew _ _ (by rw [lateCrew_frame]), hL]
  have hLf : L = { e with
      regs := L.regs, flags := L.flags, flights := L.flights } := by
    rw [← hL, lateCrew_frame, landCrew_frame]
    rfl
  have hLid : L.id = c.id := by rw [hLf]; exact hid
  generalize hN : nextCrew s.cur.slot s.cur.next sp.ends L = N
  have hNf := nextCrew_frame s.cur.slot s.cur.next sp.ends L
  rw [hN] at hNf
  have hNid : N.id = c.id := by rw [hNf]; exact hLid
  have hcrews : ((d.s.setCrew L).modCrew c.id (nextCrew s.cur.slot s.cur.next sp.ends)).crews =
      s.crews.map (fun x => if x.id == c.id then N else x) := by
    simp only [State.setCrew, State.modCrew]
    rw [hcr, hLid, map_if_map hid, map_if_mapf _ hLid, hN]
  have hNs : (N.slot s.cur.slot).st = .running := by
    rw [← hN, (nextCrew_here _ _ _ _).2.2, hLf]
    exact hrun
  have hNo : (N.slot (!s.cur.slot)).st ≠ .free ∨ N.depth = 0 := by
    have h2 : N.slot (!s.cur.slot) = e.slot (!s.cur.slot) := by
      rw [← hN, nextCrew_other, hLf]; rfl
    have h3 : N.depth = e.depth := by rw [hNf, hLf]
    rw [h2, h3]
    exact hoth
  have hend : issueEnd s.opening c sp d = { d.s with
      crews := s.crews.map (fun x => if x.id == c.id then N else x), order := d.s.order + 1 } := by
    have h2 : issueEnd s.opening c sp d =
        ({ (d.s.setCrew L).modCrew c.id (nextCrew s.cur.slot s.cur.next sp.ends) with
          order := d.s.order + 1 } : State).settleSlots c.id := by
      unfold issueEnd
      rw [hc, hctl]
      simp only [Bool.not_false, Bool.and_true]
      rfl
    rw [h2, settleSlots_steady (c := N) (k := s.cur.slot)]
    · rw [← hcrews]; rfl
    · show ((d.s.setCrew L).modCrew c.id (nextCrew s.cur.slot s.cur.next sp.ends)).crews.find? _ = _
      rw [hcrews]
      exact find_map_id h0 hNid
    · exact hNs
    · exact hNo
  refine ⟨N, ?_, ?_⟩
  · rw [hend, hid]
  · have hLr : ∀ k, L.slot k = e.slot k := by intro k; rw [hLf]; cases k <;> rfl
    constructor
    · rw [hNf, hLf]
    · rw [← hN, ← hLr]
      exact nextCrew_here _ _ _ _
    · rw [← hN, ← hLr]
      exact nextCrew_other _ _ _ _
    · have h2 := nextCrew_entry s.cur.slot s.cur.next sp.ends L
      rw [hN, hLr] at h2
      have h3 : L.rngCap = e.rngCap := by rw [hLf]
      rw [h3] at h2
      exact h2
    · have hW := lateCrew_writes d.late (landCrew_writes before sp d.wr hcyc (e := e))
      rw [hL] at hW
      have h2 : N.flags = L.flags := by rw [hNf]
      have h3 : N.regs = L.regs := by rw [hNf]
      have h4 : N.flights = L.flights := by rw [hNf]
      exact ⟨by rw [h2]; exact hW.counted, by rw [h3]; exact hW.landed, by rw [h3]; exact hW.later, by rw [h4]; exact hW.flight⟩

/-- A control instruction whose effect leaves crew `e`, no slot of which waits, ends as `Moved` says. -/
theorem issueEnd_moved {s : State} {c e : Crew} {sp : Spec} {d : Done} {k : Bool} (hi : s.opening.issuer? = some c)
    (hcr : d.s.crews = s.crews.map (fun x => if x.id == c.id then e else x)) (hid : e.id = c.id) (hctl : d.ctl = true)
    (hcyc : d.s.cycle = s.cycle) (hrun : (e.slot k).st = .running)
    (hoth : (e.slot (!k)).st ≠ .free ∨ e.depth = 0) :
    Moved s d.s (issueEnd s.opening c sp d) e sp d.wr := by
  obtain ⟨_, c0, h0, _⟩ := issuer_find hi
  have h0 : s.crews.find? (fun x => x.id == c.id) = some c0 := h0
  have h1 : d.s.crew? c.id = some e := by
    unfold State.crew?
    rw [hcr]
    exact find_map_id h0 hid
  generalize hb : (match d.s.cur.snap with
      | some sn => sn.regs
      | none => e.regs) = before
  generalize hL : lateCrew d.s.order d.late (landCrew d.s before sp d.wr (countCrew d.s sp d.wr e)) = L
  have hl : (landCrew d.s before sp d.wr (countCrew d.s sp d.wr e)).id = c.id := by rw [landCrew_frame]; exact hid
  have hc : (commit d.s c.id sp d.wr).modCrew c.id (lateCrew d.s.order d.late) = d.s.setCrew L := by
    have h2 : commit d.s c.id sp d.wr = d.s.setCrew (landCrew d.s before sp d.wr (countCrew d.s sp d.wr e)) := by
      unfold commit
      rw [h1]
      simp only [← hb] <;> rfl
    rw [h2, ← hl, setCrew_modCrew _ _ (by rw [lateCrew_frame]), hL]
  have hLf : L = { e with
      regs := L.regs, flags := L.flags, flights := L.flights } := by
    rw [← hL, lateCrew_frame, landCrew_frame]
    rfl
  have hLid : L.id = c.id := by rw [hLf]; exact hid
  have hcrews : (d.s.setCrew L).crews = s.crews.map (fun x => if x.id == c.id then L else x) := by
    simp only [State.setCrew]
    rw [hcr, hLid, map_if_map hid]
  have hLs : ∀ j, L.slot j = e.slot j := by intro j; rw [hLf]; cases j <;> rfl
  have hend : issueEnd s.opening c sp d = { d.s with
      crews := s.crews.map (fun x => if x.id == c.id then L else x), order := d.s.order + 1 } := by
    have h2 : issueEnd s.opening c sp d =
        ({ d.s.setCrew L with
          order := d.s.order + 1 } : State).settleSlots c.id := by
      unfold issueEnd
      rw [hc, hctl]
      simp [State.modCrew]
      rfl
    rw [h2, settleSlots_steady (c := L) (k := k)]
    · rw [← hcrews]; rfl
    · show (d.s.setCrew L).crews.find? _ = _
      rw [hcrews]
      exact find_map_id h0 hLid
    · rw [hLs]; exact hrun
    · have h3 : L.depth = e.depth := by rw [hLf]
      rw [hLs, h3]; exact hoth
  refine ⟨L, ?_, hLf, ?_⟩
  · rw [hend, hid]
  · have hW := lateCrew_writes d.late (landCrew_writes before sp d.wr hcyc (e := e))
    rw [hL] at hW
    exact hW

theorem markRegion_keeps (c : Crew) (k : Bool) (pc : DWord) :
    (markRegion c k pc).id = c.id ∧ (markRegion c k pc).depth = c.depth ∧ ∀ j, ((markRegion c k pc).slot j).st = (c.slot j).st := by
  refine ⟨?_, ?_, ?_⟩
  · cases k <;> rfl
  · cases k <;> rfl
  · intro j; cases k <;> cases j <;> rfl

theorem issueRegion_keeps (c : Crew) (k : Bool) (pc : DWord) (r : Bool) :
    (issueRegion c k pc r).id = c.id ∧ (issueRegion c k pc r).depth = c.depth ∧
      ∀ j, ((issueRegion c k pc r).slot j).st = (c.slot j).st := by
  unfold issueRegion
  split
  · have h := markRegion_keeps { c with
      regc := c.regc + 1#32 } k pc
    refine ⟨h.1, h.2.1, fun j => ?_⟩
    rw [h.2.2]
    cases j <;> rfl
  · exact ⟨rfl, rfl, fun _ => rfl⟩

theorem issuing_keeps (s : State) (c : Crew) (sp : Spec) :
    (s.issuing c sp).id = c.id ∧ (s.issuing c sp).depth = c.depth ∧ ∀ k, ((s.issuing c sp).slot k).st = (c.slot k).st := by
  have h := issueRegion_keeps c s.opening.cur.slot s.opening.cur.pc s.opening.cur.reg
  unfold State.issuing issueCrew entryCrew
  generalize s.opening.cur.slot = k at h ⊢
  generalize issueRegion c k _ _ = e at h ⊢
  refine ⟨?_, ?_, fun j => ?_⟩
  · rw [← h.1]; cases k <;> rfl
  · rw [← h.2.1]; cases k <;> rfl
  · rw [← h.2.2 j]; cases k <;> cases j <;> rfl

theorem issuing_id (s : State) (c : Crew) (sp : Spec) : (s.issuing c sp).id = c.id := (issuing_keeps s c sp).1
theorem issuing_depth (s : State) (c : Crew) (sp : Spec) : (s.issuing c sp).depth = c.depth := (issuing_keeps s c sp).2.1
theorem issuing_st (s : State) (c : Crew) (sp : Spec) (k : Bool) : ((s.issuing c sp).slot k).st = (c.slot k).st :=
  (issuing_keeps s c sp).2.2 k

theorem issued_crews (s : State) (c : Crew) (sp : Spec) :
    (s.issued c sp).crews = s.crews.map (fun x => if x.id == c.id then s.issuing c sp else x) := by
  show (s.crews.map (fun x => if x.id == (s.issuing c sp).id then s.issuing c sp else x)) = _
  rw [issuing_id]

theorem view_id (s : State) (c : Crew) (sp : Spec) : (s.view c sp).id = c.id := rfl

/-- An instruction whose effect changes its own crew by a function `g` that keeps the id, the slots and the divergence stack, and the state
outside the crews as `m` says, completes. -/
theorem issue_completes {s m : State} {c : Crew} {sp : Spec} {bad : Crew → Bool} {body : Ctx → State → Res Done} {g : Crew → Crew}
    {wr : List Wr} (h : Issues s c sp bad) (hs : Steady s c)
    (hb : body (s.view c sp) (s.issued c sp) = .ok { s := m.modCrew c.id g, wr := wr, ctl := false })
    (hm : m.crews = (s.issued c sp).crews) (hcyc : m.cycle = s.cycle)
    (hid : ∀ x, (g x).id = x.id) (hst : ∀ x k, ((g x).slot k).st = (x.slot k).st) (hd : ∀ x, (g x).depth = x.depth) :
    ∃ t, issue sp bad body s = .next t ∧ Completed s m t (g (s.issuing c sp)) sp wr := by
  refine ⟨_, issue_ok h hb, ?_⟩
  have h1 : (m.modCrew c.id g).crews = s.crews.map (fun x => if x.id == c.id then g (s.issuing c sp) else x) := by
    show m.crews.map (fun x => if x.id == c.id then g x else x) = _
    rw [hm, issued_crews, map_if_mapf g (issuing_id s c sp)]
  have := issueEnd_completed (d := { s := m.modCrew c.id g, wr := wr, ctl := false }) (sp := sp) h.crew h1
    (by rw [hid, issuing_id]) rfl hcyc (by rw [hst, issuing_st]; exact hs.1) (by rw [hst, hd, issuing_st, issuing_depth]; exact hs.2)
  exact this

theorem modCrew_id (s : State) (i : Nat) : s.modCrew i (fun c => c) = s := by
  simp [State.modCrew]

theorem completed_issued {s t : State} {c : Crew} {sp : Spec} {e : Crew} {wr : List Wr} (h : Completed s (s.issued c sp) t e sp wr) :
    Completed s s.opening t e sp wr := h

/-- An instruction that only writes registers. -/
theorem justWrite_completes {s : State} {c : Crew} {sp : Spec} {bad : Crew → Bool} {w : Ctx → State → List Wr}
    (h : Issues s c sp bad) (hs : Steady s c) :
    ∃ t, issue sp bad (justWrite w) s = .next t ∧
      Completed s s.opening t (s.issuing c sp) sp (w (s.view c sp) (s.issued c sp)) := by
  obtain ⟨t, h1, h2⟩ := issue_completes (body := justWrite w) (g := fun c => c) (m := s.issued c sp) (wr := w (s.view c sp) (s.issued c sp)) h hs
    (by rw [modCrew_id]; rfl) rfl rfl (fun _ => rfl) (fun _ _ => rfl) (fun _ => rfl)
  exact ⟨t, h1, h2⟩

theorem getD_map_lanes {α : Type} (f : Nat → α) (d : α) {l : Nat} (hl : l < 64) : (lanes.map f).getD l d = f l := by
  simp [lanes, List.getD, hl]

theorem mkRow_congr {f g : Nat → Word} (h : ∀ l, l < 64 → f l = g l) : mkRow f = mkRow g := by
  simp only [mkRow]
  apply List.map_congr_left
  intro l hl
  exact h l (by simpa [lanes] using hl)

theorem mkMask_zero {p : Nat → Bool} (h : ∀ l, l < 64 → p l = false) : mkMask p = 0#64 := by
  apply BitVec.eq_of_getLsbD_eq
  intro l hl
  rw [mkMask_get p hl, h l hl]
  simp

/-- A floating instruction none of whose lanes traps. -/
theorem fpDone_ok {x : Ctx} {s : State} {bits : Word} {regs : List Nat} {r : Nat → LaneRes} (h : NoFpx x r) :
    fpDone x s bits regs r = .ok { s := s.modCrew x.id (fun c => fpCrew c x.act r), wr := fpWrites regs x.act bits r, ctl := false } := by
  have hz : fpxMask x.c.mode (lanes.map (fun l => if x.act.getLsbD l then some (r l) else none)) = 0#64 := by
    apply mkMask_zero
    intro l hl
    rw [getD_map_lanes _ _ hl]
    split
    · rename_i q hq
      split at hq
      · cases hq
        rename_i ha
        have := h l hl ha
        simp [this]
      · cases hq
    · rfl
  unfold fpDone
  simp only [hz, ne_eq, not_true_eq_false, if_false]
  congr 2
  · congr 1
    funext c
    simp only [mergeFp, fpCrew]
    congr 1
    · apply mkRow_congr
      intro l hl
      rw [getD_map_lanes _ _ hl]
      by_cases ha : x.act.getLsbD l = true <;> simp [ha]
    · apply mkRow_congr
      intro l hl
      rw [getD_map_lanes _ _ hl]
      by_cases ha : x.act.getLsbD l = true <;> simp [ha]
    · apply List.map_congr_left
      intro o _
      split
      · congr 2
        apply mkRow_congr
        intro l hl
        rw [getD_map_lanes _ _ hl]
        by_cases ha : x.act.getLsbD l = true <;> simp [ha]
      · rfl
  · simp only [fpWrites]
    apply List.map_congr_left
    intro i _
    congr 1
    apply mkRow_congr
    intro l hl
    rw [getD_map_lanes _ _ hl]
    by_cases ha : x.act.getLsbD l = true <;> simp [ha]

/-- A floating instruction that passes the checks and none of whose lanes traps completes. -/
theorem fp_completes {s : State} {c : Crew} {sp : Spec} {bad : Crew → Bool} {body : Ctx → State → Res Done} {bits : Word} {regs : List Nat}
    {r : Nat → LaneRes} (h : Issues s c sp bad) (hs : Steady s c)
    (hb : body (s.view c sp) (s.issued c sp) = fpDone (s.view c sp) (s.issued c sp) bits regs r) (hn : NoFpx (s.view c sp) r) :
    ∃ t, issue sp bad body s = .next t ∧ Completed s s.opening t (fpCrew (s.issuing c sp) (s.view c sp).act r) sp
      (fpWrites regs (s.view c sp).act bits r) := by
  rw [fpDone_ok hn, view_id] at hb
  obtain ⟨t, h1, h2⟩ := issue_completes (body := body) (m := s.issued c sp) (g := fun e => fpCrew e (s.view c sp).act r)
    (wr := fpWrites regs (s.view c sp).act bits r) h hs hb rfl rfl
    (fun _ => rfl) (fun x k => by cases k <;> rfl) (fun _ => rfl)
  exact ⟨t, h1, h2⟩

/-- What the bookkeeping of an issue changes of the crew: its slots, queues and the SETSPs of them, the cycle of the issue, the capture of RNGSEED and the count of
region entries. -/
theorem issuing_frame (s : State) (c : Crew) (sp : Spec) :
    s.issuing c sp = { c with
      a := (s.issuing c sp).a, b := (s.issuing c sp).b, queues := (s.issuing c sp).queues, srOld := (s.issuing c sp).srOld,
      lastIssue := (s.issuing c sp).lastIssue, lastEver := (s.issuing c sp).lastEver, rngCap := (s.issuing c sp).rngCap,
      regc := (s.issuing c sp).regc } := by
  unfold State.issuing issueCrew entryCrew issueRegion markRegion
  generalize s.opening.cur.slot = k
  cases k <;> split <;> rfl

theorem seenCrew_frame (s : State) (c : Crew) : seenCrew s c = { c with
    mode := (seenCrew s c).mode, pfmode := (seenCrew s c).pfmode } := by
  unfold seenCrew
  split <;> rfl

/-- The crew as the body of an instruction sees it: as above, with MODE and PFMODE of R60. -/
theorem view_c_frame (s : State) (c : Crew) (sp : Spec) :
    (s.view c sp).c = { c with
      a := (s.issuing c sp).a, b := (s.issuing c sp).b, queues := (s.issuing c sp).queues, srOld := (s.issuing c sp).srOld,
      lastIssue := (s.issuing c sp).lastIssue, lastEver := (s.issuing c sp).lastEver, rngCap := (s.issuing c sp).rngCap,
      regc := (s.issuing c sp).regc, mode := (s.view c sp).c.mode, pfmode := (s.view c sp).c.pfmode } := by
  have h := issuing_frame s c sp
  have h2 : (s.view c sp).c = seenCrew s.opening (s.issuing c sp) := rfl
  rw [h2, seenCrew_frame]
  generalize (seenCrew s.opening (s.issuing c sp)).mode = m
  generalize (seenCrew s.opening (s.issuing c sp)).pfmode = p
  rw [h]

/-- An instruction that passes the checks and does not complete. -/
theorem issue_stopped {s : State} {c : Crew} {sp : Spec} {bad : Crew → Bool} {body : Ctx → State → Res Done} {e : Sig}
    (h : Issues s c sp bad) (hb : body (s.view c sp) (s.issued c sp) = .error e) :
    issue sp bad body s = issueStop s.opening (queuedFor c sp).1 e := by
  have h1 : ¬(sp.deny = true ∨ (sp.priv = true ∧ c.priv ≠ 2)) := by
    rintro (h2 | ⟨h2, h3⟩)
    · rw [h.allowed] at h2; cases h2
    · exact h3 (h.privileged h2)
  have h2 : ¬(specBad sp c.n = true ∨ bad (seenCrew s.opening c) = true) := by
    rw [h.fields, h.rest]; simp
  unfold issue
  simp only [h.crew, h.eligible, h.queues, Bool.not_true, Bool.false_eq_true, if_false, if_neg h1, if_neg h2]
  have hb' : body (issueCtx s.opening c sp) (s.opening.setCrew (issueCrew s.opening c sp)) = .error e := hb
  rw [hb']

/-- An instruction that writes no register, and whose effect is to replace the state outside the crews, completes. -/
theorem effect_completes {s m : State} {c : Crew} {sp : Spec} {bad : Crew → Bool} {body : Ctx → State → Res Done} {wr : List Wr}
    (h : Issues s c sp bad) (hs : Steady s c) (hb : body (s.view c sp) (s.issued c sp) = .ok { s := m, wr := wr, ctl := false })
    (hm : m.crews = (s.issued c sp).crews) (hcyc : m.cycle = s.cycle) :
    ∃ t, issue sp bad body s = .next t ∧ Completed s m t (s.issuing c sp) sp wr :=
  issue_completes (g := fun c => c) h hs (by rw [modCrew_id]; exact hb) hm hcyc (fun _ => rfl) (fun _ _ => rfl) (fun _ => rfl)

end Sys2Proof.Machine
end

