-- ==== Sys2Proof/Laws/Memory.lean ====
section
/-!
SUPPORT. Laws/Memory.lean: a memory read after a write, and that every write keeps the canonical form: addresses strictly rising, no
byte listed that an unlisted address reads as.
-/

namespace Sys2Proof.Machine

open Sys2Proof

theorem Memory.above_mono {m : Memory} : ∀ {lo hi : Nat}, Memory.above m hi = true → lo ≤ hi → Memory.above m lo = true := by
  cases m with
  | nil => intros; rfl
  | cons p r =>
    intro lo hi h hle
    obtain ⟨k, v⟩ := p
    simp only [Memory.above, Bool.and_eq_true, decide_eq_true_eq] at h ⊢
    exact ⟨⟨by omega, h.1.2⟩, h.2⟩

theorem Memory.set_above (a : Nat) (v : Byte) : ∀ {m : Memory} {lo : Nat}, Memory.above m lo = true → lo ≤ a →
    Memory.above (Memory.set m a v) lo = true := by
  intro m
  induction m with
  | nil =>
    intro lo _ hle
    unfold Memory.set
    split
    · rfl
    · rename_i hv; simp [Memory.above, hle, hv]
  | cons p r ih =>
    intro lo h hle
    obtain ⟨k, b⟩ := p
    simp only [Memory.above, Bool.and_eq_true, decide_eq_true_eq] at h
    unfold Memory.set
    split
    · rename_i hak
      split
      · simp [Memory.above, h.1.1, h.1.2, h.2]
      · rename_i hv
        simp only [Memory.above, Bool.and_eq_true, decide_eq_true_eq]
        exact ⟨⟨hle, hv⟩, ⟨by omega, h.1.2⟩, h.2⟩
    · split
      · rename_i hak
        split
        · exact Memory.above_mono h.2 (by omega)
        · rename_i hv
          simp only [Memory.above, Bool.and_eq_true, decide_eq_true_eq]
          exact ⟨⟨h.1.1, hv⟩, h.2⟩
      · simp only [Memory.above, Bool.and_eq_true, decide_eq_true_eq]
        exact ⟨h.1, ih h.2 (by omega)⟩

/-- Setting a byte keeps the canonical form. -/
theorem Memory.set_wf {m : Memory} (h : Memory.wf m = true) (a : Nat) (v : Byte) : Memory.wf (Memory.set m a v) = true :=
  Memory.set_above a v h (Nat.zero_le a)

/-- Writing bytes keeps the canonical form. -/
theorem Memory.write_wf (bs : List Byte) : ∀ {m : Memory} (a : Nat), Memory.wf m = true → Memory.wf (Memory.write m a bs) = true := by
  induction bs with
  | nil => intro m a h; exact h
  | cons b bs ih => intro m a h; exact ih (a + 1) (Memory.set_wf h a b)

/-- An address below every listed one reads as an unlisted one. -/
theorem Memory.get_below {m : Memory} : ∀ {lo a : Nat}, Memory.above m lo = true → a < lo → Memory.get m a = 0#8 := by
  induction m with
  | nil => intros; rfl
  | cons p r ih =>
    intro lo a h hlt
    obtain ⟨k, b⟩ := p
    simp only [Memory.above, Bool.and_eq_true, decide_eq_true_eq] at h
    unfold Memory.get
    rw [if_neg (by omega)]
    exact ih h.2 (by omega)

theorem Memory.get_set_above (a : Nat) (v : Byte) (x : Nat) : ∀ {m : Memory} {lo : Nat}, Memory.above m lo = true →
    Memory.get (Memory.set m a v) x = if x = a then v else Memory.get m x := by
  intro m
  induction m with
  | nil =>
    intro lo _
    unfold Memory.set
    split
    · rename_i hv; subst hv; simp [Memory.get]
    · simp [Memory.get, eq_comm]
  | cons p r ih =>
    intro lo h
    obtain ⟨k, b⟩ := p
    simp only [Memory.above, Bool.and_eq_true, decide_eq_true_eq] at h
    unfold Memory.set
    split
    · rename_i hak
      split
      · rename_i hv; subst hv
        split
        · rename_i hx; subst hx
          exact Memory.get_below (m := (k, b) :: r) (lo := k) (by simp [Memory.above, h.1.2, h.2]) hak
        · rfl
      · simp only [Memory.get, eq_comm]
    · split
      · rename_i hak; subst hak
        split
        · rename_i hv; subst hv
          split
          · rename_i hx; subst hx; exact Memory.get_below h.2 (by omega)
          · rename_i hx; simp [Memory.get, Ne.symm hx]
        · simp only [Memory.get, eq_comm]
          split <;> rfl
      · rename_i h1 h2
        simp only [Memory.get]
        split
        · rename_i hk; rw [if_neg (by omega)]
        · exact ih h.2

/-- A byte read after one byte is set, in a canonical memory. -/
theorem Memory.get_set {m : Memory} (h : Memory.wf m = true) (a x : Nat) (v : Byte) :
    Memory.get (Memory.set m a v) x = if x = a then v else Memory.get m x := Memory.get_set_above a v x h

/-- A byte read after a write of several: the byte written there, or the byte that stood there. -/
theorem Memory.get_write (bs : List Byte) : ∀ {m : Memory} (a x : Nat), Memory.wf m = true →
    Memory.get (Memory.write m a bs) x = if a ≤ x ∧ x < a + bs.length then bs.getD (x - a) 0#8 else Memory.get m x := by
  induction bs with
  | nil => intro m a x h; simp [Memory.write]
  | cons b bs ih =>
    intro m a x h
    unfold Memory.write
    rw [ih (a + 1) x (Memory.set_wf h a b), Memory.get_set h]
    by_cases hx : x = a
    · subst hx; simp
    · by_cases hr : a + 1 ≤ x ∧ x < a + 1 + bs.length
      · rw [if_pos hr, if_pos (by simp; omega)]
        obtain ⟨k, rfl⟩ : ∃ k, x = a + 1 + k := ⟨x - (a + 1), by omega⟩
        simp [show a + 1 + k - a = k + 1 by omega]
      · rw [if_neg hr, if_neg hx, if_neg (by simp; omega)]

/-! ## The machine's writes to memory -/

theorem State.markKeys_frame (s : State) (pa n key : Nat) :
    (s.markKeys pa n key).mem = s.mem ∧ (s.markKeys pa n key).bmem = s.bmem ∧ (s.markKeys pa n key).amem = s.amem ∧
    (s.markKeys pa n key).smem = s.smem ∧ (s.markKeys pa n key).crews = s.crews ∧ (s.markKeys pa n key).arriving = s.arriving ∧
    (s.markKeys pa n key).replicas = s.replicas := by
  unfold State.markKeys; split <;> simp

/-- What putting bytes at a physical address leaves: the bytes, and block, accumulator and scale memory and the crews as before. -/
theorem State.putKey_frame (s : State) (pa key : Nat) (bs : List Byte) :
    (s.putKey pa key bs).mem = s.mem.write pa bs ∧ (s.putKey pa key bs).bmem = s.bmem ∧ (s.putKey pa key bs).amem = s.amem ∧
    (s.putKey pa key bs).smem = s.smem ∧ (s.putKey pa key bs).crews = s.crews := by
  have h := State.markKeys_frame { (s.keepPast false pa bs.length) with mem := s.mem.write pa bs } pa bs.length key
  exact ⟨h.1, h.2.1, h.2.2.1, h.2.2.2.1, h.2.2.2.2.1⟩

/-- Where no context is sealed, a write at a physical address puts its bytes there. -/
theorem State.writeKey_open {s : State} (h : s.sealedCtxs = []) (pa key : Nat) (bs : List Byte) : s.writeKey pa key bs = s.putKey pa key bs := by
  simp [State.writeKey, h]

/-- A write at a physical address keeps memory canonical, and block, accumulator and scale memory and the crews as before. -/
theorem State.writeKey_frame (s : State) (pa key : Nat) (bs : List Byte) :
    (s.mem.wf = true → (s.writeKey pa key bs).mem.wf = true) ∧ (s.writeKey pa key bs).bmem = s.bmem ∧ (s.writeKey pa key bs).amem = s.amem ∧
    (s.writeKey pa key bs).smem = s.smem ∧ (s.writeKey pa key bs).crews = s.crews := by
  unfold State.writeKey
  split
  · have h := State.putKey_frame s pa key bs
    exact ⟨fun hw => by rw [h.1]; exact Memory.write_wf _ _ hw, h.2⟩
  · have step : ∀ (l : List (Byte × Nat)) (t : State), t.bmem = s.bmem → t.amem = s.amem → t.smem = s.smem → t.crews = s.crews →
        (s.mem.wf = true → t.mem.wf = true) →
        let u := l.foldl (fun t p => if s.sealedEntry (pa + p.2) then t else t.putKey (pa + p.2) key [p.1]) t
        (s.mem.wf = true → u.mem.wf = true) ∧ u.bmem = s.bmem ∧ u.amem = s.amem ∧ u.smem = s.smem ∧ u.crews = s.crews := by
      intro l
      induction l with
      | nil => intro t h1 h2 h3 h4 h5; exact ⟨h5, h1, h2, h3, h4⟩
      | cons p ps ih =>
        intro t h1 h2 h3 h4 h5
        rw [List.foldl_cons]
        split
        · exact ih t h1 h2 h3 h4 h5
        · have h := State.putKey_frame t (pa + p.2) key [p.1]
          exact ih _ (h.2.1.trans h1) (h.2.2.1.trans h2) (h.2.2.2.1.trans h3) (h.2.2.2.2.trans h4)
            (fun hw => by rw [h.1]; exact Memory.write_wf _ _ (h5 hw))
    exact step _ s rfl rfl rfl rfl id

theorem State.applyArriving_wf {s : State} (h : s.mem.wf = true) (w : Arriving) :
    (s.applyArriving w).mem.wf = true ∧ (s.applyArriving w).bmem = s.bmem := by
  have h1 := State.writeKey_frame s w.pa w.key w.bytes
  have h2 : (s.writeKey w.pa w.key w.bytes).mem.wf = true := h1.1 h
  unfold State.applyArriving
  dsimp only
  split
  · exact ⟨h2, h1.2.1⟩
  · exact ⟨h2, h1.2.1⟩

theorem State.foldl_applyArriving_wf (ws : List Arriving) : ∀ {s : State}, s.mem.wf = true →
    (ws.foldl State.applyArriving s).mem.wf = true ∧ (ws.foldl State.applyArriving s).bmem = s.bmem := by
  induction ws with
  | nil => intro s h; exact ⟨h, rfl⟩
  | cons w ws ih =>
    intro s h
    have h1 := State.applyArriving_wf h w
    have h2 := ih h1.1
    exact ⟨h2.1, h2.2.trans h1.2⟩

theorem State.drainArriving_wf {s : State} (h : s.mem.wf = true) (p : Arriving → Bool) :
    (s.drainArriving p).mem.wf = true ∧ (s.drainArriving p).bmem = s.bmem :=
  State.foldl_applyArriving_wf (s.arriving.filter p) (s := { s with arriving := s.arriving.filter (fun w => !p w) }) h

theorem State.foldl_applyReplica_wf (ws : List Replica) : ∀ {s : State}, s.mem.wf = true →
    (ws.foldl State.applyReplica s).mem.wf = true ∧ (ws.foldl State.applyReplica s).bmem = s.bmem := by
  induction ws with
  | nil => intro s h; exact ⟨h, rfl⟩
  | cons w ws ih =>
    intro s h
    have h1 := State.writeKey_frame s w.pa w.key w.bytes
    have h2 : (s.applyReplica w).mem.wf = true := by
      show (s.writeKey w.pa w.key w.bytes).mem.wf = true
      exact h1.1 h
    have h3 := ih h2
    exact ⟨h3.1, h3.2.trans h1.2.1⟩

theorem State.drainReplicas_wf {s : State} (h : s.mem.wf = true) (p : Replica → Bool) :
    (s.drainReplicas p).mem.wf = true ∧ (s.drainReplicas p).bmem = s.bmem :=
  State.foldl_applyReplica_wf (s.replicas.filter p) (s := { s with replicas := s.replicas.filter (fun w => !p w) }) h

/-- A release keeps memory canonical and leaves block memory alone. -/
theorem State.release_wf {s : State} (h : s.mem.wf = true) : s.release.mem.wf = true ∧ s.release.bmem = s.bmem := by
  have h1 := State.drainArriving_wf h (fun _ => true)
  have h2 := State.drainReplicas_wf h1.1 (fun _ => true)
  exact ⟨h2.1, h2.2.trans h1.2⟩

/-- What reaches a die, with the writes it must follow, keeps memory canonical and leaves block memory alone. -/
theorem State.reach_wf {s : State} (h : s.mem.wf = true) (src dst : Nat) :
    (s.reach src dst).mem.wf = true ∧ (s.reach src dst).bmem = s.bmem := by
  unfold State.reach State.heed
  split
  · exact ⟨h, rfl⟩
  · have h1 := State.drainArriving_wf h (fun w => w.dst == dst && decide (w.num ≤ (s.clk src).getD w.src 0))
    have h2 := State.drainReplicas_wf h1.1 (fun r => r.die == dst && decide (r.num ≤ (s.clk src).getD r.src 0))
    exact ⟨h2.1, h2.2.trans h1.2⟩

/-- A store keeps both memories canonical. -/
theorem State.store_wf {s : State} (h : s.mem.wf = true) (hb : s.bmem.wf = true) (die : Nat) (l : Loc) (bs : List Byte) :
    (s.store die l bs).mem.wf = true ∧ (s.store die l bs).bmem.wf = true := by
  have key : ∀ home pa k, ((s.reach die home).writeKey pa k bs).mem.wf = true ∧ ((s.reach die home).writeKey pa k bs).bmem.wf = true := by
    intro home pa k
    have h1 := State.reach_wf h die home
    have h2 := State.writeKey_frame (s.reach die home) pa k bs
    exact ⟨h2.1 h1.1, by rw [h2.2.1, h1.2]; exact hb⟩
  cases l with
  | blk core off => exact ⟨h, Memory.write_wf _ _ hb⟩
  | pa a k =>
    unfold State.store
    dsimp only
    split
    · exact key _ _ _
    · exact ⟨h, hb⟩
  | repl a home k => exact key home (replicaPa a home) k

end Sys2Proof.Machine
end

