-- ==== Sys2Proof/Laws/PerInstr.lean ====
section
/-!
SUPPORT. Laws/PerInstr.lean: for every instruction that has words, what those words decode to is that instruction; one lemma per
constructor. An event of another agent has no word.
-/

namespace Sys2Proof.Laws.Encoding

open Sys2Proof

/-- The instruction a word of an encoding stands for. -/
noncomputable def read : Encoded → Instr
  | .crew w => decodeCrew w
  | .cox w => decodeCox w

/-- A well-formed instruction is what its words decode to. -/
def Statement (i : Instr) : Prop := wellFormed i = true → ∀ e, encode i = some e → read e = i

theorem of_word {i : Instr} {e : Encoded} (h : encode i = some e) (hr : read e = i) : Statement i := by
  intro _ e2 h2
  rw [h] at h2
  cases h2
  exact hr

theorem class0_unassigned (op : Nat) (w : BitVec 96) (h : op ∉ crewClass0) : decodeClass0 op w = illopOf w := by
  unfold decodeClass0
  split <;> first | rfl | exact absurd (by decide) h
theorem class1_unassigned (op : Nat) (w : BitVec 96) (h : op ∉ crewClass1) : decodeClass1 op w = illopOf w := by
  unfold decodeClass1
  split <;> first | rfl | exact absurd (by decide) h
theorem class2_unassigned (op : Nat) (w : BitVec 96) (h : op ∉ crewClass2) : decodeClass2 op w = illopOf w := by
  unfold decodeClass2
  split <;> first | rfl | exact absurd (by decide) h
theorem class3_unassigned (op : Nat) (w : BitVec 96) (h : op ∉ crewClass3) : decodeClass3 op w = illopOf w := by
  unfold decodeClass3
  split <;> first | rfl | exact absurd (by decide) h
theorem class4_unassigned (op : Nat) (w : BitVec 96) (h : op ∉ crewClass4) : decodeClass4 op w = illopOf w := by
  unfold decodeClass4
  split <;> first | rfl | exact absurd (by decide) h
theorem class5_unassigned (op : Nat) (w : BitVec 96) (h : op ∉ crewClass5) : decodeClass5 op w = illopOf w := by
  unfold decodeClass5
  split <;> first | rfl | exact absurd (by decide) h
theorem class6_unassigned (op : Nat) (w : BitVec 96) (h : op ∉ crewClass6) : decodeClass6 op w = illopOf w := by
  unfold decodeClass6
  split <;> first | rfl | exact absurd (by decide) h
theorem class7_unassigned (op : Nat) (w : BitVec 96) (h : op ∉ crewClass7) : decodeClass7 op w = illopOf w := by
  unfold decodeClass7
  split <;> first | rfl | exact absurd (by decide) h
theorem class8_unassigned (op : Nat) (w : BitVec 96) (h : op ∉ crewClass8) : decodeClass8 op w = illopOf w := by
  unfold decodeClass8
  split <;> first | rfl | exact absurd (by decide) h
theorem class9_unassigned (op : Nat) (w : BitVec 96) (h : op ∉ crewClass9) : decodeClass9 op w = illopOf w := by
  unfold decodeClass9
  split <;> first | rfl | exact absurd (by decide) h
theorem class10_unassigned (op : Nat) (w : BitVec 96) (h : op ∉ crewClass10) : decodeClass10 op w = illopOf w := by
  unfold decodeClass10
  split <;> first | rfl | exact absurd (by decide) h
theorem class11_unassigned (op : Nat) (w : BitVec 96) (h : op ∉ crewClass11) : decodeClass11 op w = illopOf w := by
  unfold decodeClass11
  split <;> first | rfl | exact absurd (by decide) h
theorem class12_unassigned (op : Nat) (w : BitVec 96) (h : op ∉ crewClass12) : decodeClass12 op w = illopOf w := by
  unfold decodeClass12
  split <;> first | rfl | exact absurd (by decide) h
theorem class13_unassigned (op : Nat) (w : BitVec 96) (h : op ∉ crewClass13) : decodeClass13 op w = illopOf w := by
  unfold decodeClass13
  split <;> first | rfl | exact absurd (by decide) h
theorem class14_unassigned (op : Nat) (w : BitVec 96) (h : op ∉ crewClass14) : decodeClass14 op w = illopOf w := by
  unfold decodeClass14
  split <;> first | rfl | exact absurd (by decide) h

/-- A word whose operation is unassigned is no instruction of the table. -/
theorem decodeCrew_unassigned (w : BitVec 96) (h : crewAssigned (opcOf w) = false) : decodeCrew w = illopOf w := by
  unfold decodeCrew crewAssigned at *
  dsimp only
  generalize (opcOf w).toNat / 64 = c at *
  split
  case h_16 => rfl
  all_goals
    first
    | exact class0_unassigned _ w (by simpa [crewClasses] using h)
    | exact class1_unassigned _ w (by simpa [crewClasses] using h)
    | exact class2_unassigned _ w (by simpa [crewClasses] using h)
    | exact class3_unassigned _ w (by simpa [crewClasses] using h)
    | exact class4_unassigned _ w (by simpa [crewClasses] using h)
    | exact class5_unassigned _ w (by simpa [crewClasses] using h)
    | exact class6_unassigned _ w (by simpa [crewClasses] using h)
    | exact class7_unassigned _ w (by simpa [crewClasses] using h)
    | exact class8_unassigned _ w (by simpa [crewClasses] using h)
    | exact class9_unassigned _ w (by simpa [crewClasses] using h)
    | exact class10_unassigned _ w (by simpa [crewClasses] using h)
    | exact class11_unassigned _ w (by simpa [crewClasses] using h)
    | exact class12_unassigned _ w (by simpa [crewClasses] using h)
    | exact class13_unassigned _ w (by simpa [crewClasses] using h)
    | exact class14_unassigned _ w (by simpa [crewClasses] using h)

theorem decodeCox_unassigned (w : BitVec 64) (h : coxAssigned (w.extractLsb' 58 6) = false) :
    decodeCox w = .coxIllop (w.extractLsb' 58 6) (w.extractLsb' 0 58) := by
  unfold decodeCox coxAssigned at *
  generalize (w.extractLsb' 58 6).toNat = c at h ⊢
  split <;> first | rfl | exact absurd h (by decide)

theorem illop (opc : BitVec 10) (rest : BitVec 86) : Statement (.illop opc rest) := by
  intro h e he
  cases he
  have h1 : opcOf (opc ++ rest) = opc := by
    simp only [opcOf]
    apply BitVec.eq_of_getLsbD_eq; intro i hi; simp only [BitVec.getLsbD_extractLsb', BitVec.getLsbD_append]; interval_cases i <;> rfl
  show decodeCrew (opc ++ rest) = _
  rw [decodeCrew_unassigned _ (by rw [h1]; simpa [wellFormed] using h)]
  have h2 : (opc ++ rest : BitVec 96).extractLsb' 0 86 = rest := by
    apply BitVec.eq_of_getLsbD_eq; intro i hi; simp only [BitVec.getLsbD_extractLsb', BitVec.getLsbD_append]; interval_cases i <;> rfl
  have h3 : (opc ++ rest : BitVec 96).extractLsb' 86 10 = opc := h1
  unfold illopOf
  rw [h2, h3]

theorem coxIllop (opc : BitVec 6) (rest : BitVec 58) : Statement (.coxIllop opc rest) := by
  intro h e he
  cases he
  have h1 : (opc ++ rest : BitVec 64).extractLsb' 58 6 = opc := by
    apply BitVec.eq_of_getLsbD_eq; intro i hi; simp only [BitVec.getLsbD_extractLsb', BitVec.getLsbD_append]; interval_cases i <;> rfl
  have h2 : (opc ++ rest : BitVec 64).extractLsb' 0 58 = rest := by
    apply BitVec.eq_of_getLsbD_eq; intro i hi; simp only [BitVec.getLsbD_extractLsb', BitVec.getLsbD_append]; interval_cases i <;> rfl
  show decodeCox (opc ++ rest) = _
  rw [decodeCox_unassigned _ (by rw [h1]; simpa [wellFormed] using h), h1, h2]

theorem hvhint_word (f : FormS) : decodeCrew (f.toWord 0x362#10) = decodeHvhint f := by
  unfold decodeCrew
  rw [FormS.opcOf_toWord]
  exact congrArg decodeHvhint (FormS.ofWord_toWord f _)

theorem hvhintLend (f : FormS) : Statement (.hvhintLend f) := by
  intro h e he
  cases he
  have h : f.body.getLsbD 0 = true := h
  show decodeCrew (f.toWord 0x362#10) = _
  rw [hvhint_word]
  unfold decodeHvhint
  rw [if_pos h]

theorem hvhintRecall (f : FormS) : Statement (.hvhintRecall f) := by
  intro h e he
  cases he
  have h : (!f.body.getLsbD 0) = true := h
  show decodeCrew (f.toWord 0x362#10) = _
  rw [hvhint_word]
  unfold decodeHvhint
  rw [if_neg (by simpa using h)]

theorem of_none {i : Instr} (h : encode i = none) : Statement i := by
  intro _ e h2
  rw [h] at h2
  cases h2

theorem iaddI32 (f : FormR) : Statement (.iaddI32 f) :=
  of_word rfl (by
    show decodeCrew (f.toWord 0x000#10) = _
    unfold decodeCrew
    rw [FormR.opcOf_toWord]
    exact congrArg Instr.iaddI32 (FormR.ofWord_toWord f _))
theorem isubI32 (f : FormR) : Statement (.isubI32 f) :=
  of_word rfl (by
    show decodeCrew (f.toWord 0x001#10) = _
    unfold decodeCrew
    rw [FormR.opcOf_toWord]
    exact congrArg Instr.isubI32 (FormR.ofWord_toWord f _))
theorem iadd3I32 (f : FormR) : Statement (.iadd3I32 f) :=
  of_word rfl (by
    show decodeCrew (f.toWord 0x002#10) = _
    unfold decodeCrew
    rw [FormR.opcOf_toWord]
    exact congrArg Instr.iadd3I32 (FormR.ofWord_toWord f _))
theorem iaddcI32 (f : FormX) : Statement (.iaddcI32 f) :=
  of_word rfl (by
    show decodeCrew (f.toWord 0x003#10) = _
    unfold decodeCrew
    rw [FormX.opcOf_toWord]
    exact congrArg Instr.iaddcI32 (FormX.ofWord_toWord f _))
theorem isubbI32 (f : FormX) : Statement (.isubbI32 f) :=
  of_word rfl (by
    show decodeCrew (f.toWord 0x004#10) = _
    unfold decodeCrew
    rw [FormX.opcOf_toWord]
    exact congrArg Instr.isubbI32 (FormX.ofWord_toWord f _))
theorem imulI32 (f : FormR) : Statement (.imulI32 f) :=
  of_word rfl (by
    show decodeCrew (f.toWord 0x005#10) = _
    unfold decodeCrew
    rw [FormR.opcOf_toWord]
    exact congrArg Instr.imulI32 (FormR.ofWord_toWord f _))
theorem imulhiI32 (f : FormR) : Statement (.imulhiI32 f) :=
  of_word rfl (by
    show decodeCrew (f.toWord 0x006#10) = _
    unfold decodeCrew
    rw [FormR.opcOf_toWord]
    exact congrArg Instr.imulhiI32 (FormR.ofWord_toWord f _))
theorem imulhiN32 (f : FormR) : Statement (.imulhiN32 f) :=
  of_word rfl (by
    show decodeCrew (f.toWord 0x007#10) = _
    unfold decodeCrew
    rw [FormR.opcOf_toWord]
    exact congrArg Instr.imulhiN32 (FormR.ofWord_toWord f _))
theorem imadI32 (f : FormR) : Statement (.imadI32 f) :=
  of_word rfl (by
    show decodeCrew (f.toWord 0x008#10) = _
    unfold decodeCrew
    rw [FormR.opcOf_toWord]
    exact congrArg Instr.imadI32 (FormR.ofWord_toWord f _))
theorem imadwI32 (f : FormR) : Statement (.imadwI32 f) :=
  of_word rfl (by
    show decodeCrew (f.toWord 0x009#10) = _
    unfold decodeCrew
    rw [FormR.opcOf_toWord]
    exact congrArg Instr.imadwI32 (FormR.ofWord_toWord f _))
theorem imadwN32 (f : FormR) : Statement (.imadwN32 f) :=
  of_word rfl (by
    show decodeCrew (f.toWord 0x00A#10) = _
    unfold decodeCrew
    rw [FormR.opcOf_toWord]
    exact congrArg Instr.imadwN32 (FormR.ofWord_toWord f _))
theorem iminI32 (f : FormR) : Statement (.iminI32 f) :=
  of_word rfl (by
    show decodeCrew (f.toWord 0x00B#10) = _
    unfold decodeCrew
    rw [FormR.opcOf_toWord]
    exact congrArg Instr.iminI32 (FormR.ofWord_toWord f _))
theorem imaxI32 (f : FormR) : Statement (.imaxI32 f) :=
  of_word rfl (by
    show decodeCrew (f.toWord 0x00C#10) = _
    unfold decodeCrew
    rw [FormR.opcOf_toWord]
    exact congrArg Instr.imaxI32 (FormR.ofWord_toWord f _))
theorem iminN32 (f : FormR) : Statement (.iminN32 f) :=
  of_word rfl (by
    show decodeCrew (f.toWord 0x00D#10) = _
    unfold decodeCrew
    rw [FormR.opcOf_toWord]
    exact congrArg Instr.iminN32 (FormR.ofWord_toWord f _))
theorem imaxN32 (f : FormR) : Statement (.imaxN32 f) :=
  of_word rfl (by
    show decodeCrew (f.toWord 0x00E#10) = _
    unfold decodeCrew
    rw [FormR.opcOf_toWord]
    exact congrArg Instr.imaxN32 (FormR.ofWord_toWord f _))
theorem iaddI64 (f : FormR) : Statement (.iaddI64 f) :=
  of_word rfl (by
    show decodeCrew (f.toWord 0x010#10) = _
    unfold decodeCrew
    rw [FormR.opcOf_toWord]
    exact congrArg Instr.iaddI64 (FormR.ofWord_toWord f _))
theorem isubI64 (f : FormR) : Statement (.isubI64 f) :=
  of_word rfl (by
    show decodeCrew (f.toWord 0x011#10) = _
    unfold decodeCrew
    rw [FormR.opcOf_toWord]
    exact congrArg Instr.isubI64 (FormR.ofWord_toWord f _))
theorem lea (f : FormR) : Statement (.lea f) :=
  of_word rfl (by
    show decodeCrew (f.toWord 0x012#10) = _
    unfold decodeCrew
    rw [FormR.opcOf_toWord]
    exact congrArg Instr.lea (FormR.ofWord_toWord f _))
theorem iaddiI32 (f : FormI) : Statement (.iaddiI32 f) :=
  of_word rfl (by
    show decodeCrew (f.toWord 0x013#10) = _
    unfold decodeCrew
    rw [FormI.opcOf_toWord]
    exact congrArg Instr.iaddiI32 (FormI.ofWord_toWord f _))
theorem iaddiI64 (f : FormI) : Statement (.iaddiI64 f) :=
  of_word rfl (by
    show decodeCrew (f.toWord 0x014#10) = _
    unfold decodeCrew
    rw [FormI.opcOf_toWord]
    exact congrArg Instr.iaddiI64 (FormI.ofWord_toWord f _))
theorem imuliI32 (f : FormI) : Statement (.imuliI32 f) :=
  of_word rfl (by
    show decodeCrew (f.toWord 0x015#10) = _
    unfold decodeCrew
    rw [FormI.opcOf_toWord]
    exact congrArg Instr.imuliI32 (FormI.ofWord_toWord f _))
theorem andB32 (f : FormR) : Statement (.andB32 f) :=
  of_word rfl (by
    show decodeCrew (f.toWord 0x040#10) = _
    unfold decodeCrew
    rw [FormR.opcOf_toWord]
    exact congrArg Instr.andB32 (FormR.ofWord_toWord f _))
theorem orB32 (f : FormR) : Statement (.orB32 f) :=
  of_word rfl (by
    show decodeCrew (f.toWord 0x041#10) = _
    unfold decodeCrew
    rw [FormR.opcOf_toWord]
    exact congrArg Instr.orB32 (FormR.ofWord_toWord f _))
theorem xorB32 (f : FormR) : Statement (.xorB32 f) :=
  of_word rfl (by
    show decodeCrew (f.toWord 0x042#10) = _
    unfold decodeCrew
    rw [FormR.opcOf_toWord]
    exact congrArg Instr.xorB32 (FormR.ofWord_toWord f _))
theorem andnB32 (f : FormR) : Statement (.andnB32 f) :=
  of_word rfl (by
    show decodeCrew (f.toWord 0x043#10) = _
    unfold decodeCrew
    rw [FormR.opcOf_toWord]
    exact congrArg Instr.andnB32 (FormR.ofWord_toWord f _))
theorem notB32 (f : FormR) : Statement (.notB32 f) :=
  of_word rfl (by
    show decodeCrew (f.toWord 0x044#10) = _
    unfold decodeCrew
    rw [FormR.opcOf_toWord]
    exact congrArg Instr.notB32 (FormR.ofWord_toWord f _))
theorem shlB32 (f : FormR) : Statement (.shlB32 f) :=
  of_word rfl (by
    show decodeCrew (f.toWord 0x045#10) = _
    unfold decodeCrew
    rw [FormR.opcOf_toWord]
    exact congrArg Instr.shlB32 (FormR.ofWord_toWord f _))
theorem shrN32 (f : FormR) : Statement (.shrN32 f) :=
  of_word rfl (by
    show decodeCrew (f.toWord 0x046#10) = _
    unfold decodeCrew
    rw [FormR.opcOf_toWord]
    exact congrArg Instr.shrN32 (FormR.ofWord_toWord f _))
theorem shrI32 (f : FormR) : Statement (.shrI32 f) :=
  of_word rfl (by
    show decodeCrew (f.toWord 0x047#10) = _
    unfold decodeCrew
    rw [FormR.opcOf_toWord]
    exact congrArg Instr.shrI32 (FormR.ofWord_toWord f _))
theorem rotlB32 (f : FormR) : Statement (.rotlB32 f) :=
  of_word rfl (by
    show decodeCrew (f.toWord 0x048#10) = _
    unfold decodeCrew
    rw [FormR.opcOf_toWord]
    exact congrArg Instr.rotlB32 (FormR.ofWord_toWord f _))
theorem rotrB32 (f : FormR) : Statement (.rotrB32 f) :=
  of_word rfl (by
    show decodeCrew (f.toWord 0x049#10) = _
    unfold decodeCrew
    rw [FormR.opcOf_toWord]
    exact congrArg Instr.rotrB32 (FormR.ofWord_toWord f _))
theorem shlB64 (f : FormR) : Statement (.shlB64 f) :=
  of_word rfl (by
    show decodeCrew (f.toWord 0x04A#10) = _
    unfold decodeCrew
    rw [FormR.opcOf_toWord]
    exact congrArg Instr.shlB64 (FormR.ofWord_toWord f _))
theorem shrN64 (f : FormR) : Statement (.shrN64 f) :=
  of_word rfl (by
    show decodeCrew (f.toWord 0x04B#10) = _
    unfold decodeCrew
    rw [FormR.opcOf_toWord]
    exact congrArg Instr.shrN64 (FormR.ofWord_toWord f _))
theorem shrI64 (f : FormR) : Statement (.shrI64 f) :=
  of_word rfl (by
    show decodeCrew (f.toWord 0x04C#10) = _
    unfold decodeCrew
    rw [FormR.opcOf_toWord]
    exact congrArg Instr.shrI64 (FormR.ofWord_toWord f _))
theorem bfeN32 (f : FormR) : Statement (.bfeN32 f) :=
  of_word rfl (by
    show decodeCrew (f.toWord 0x04D#10) = _
    unfold decodeCrew
    rw [FormR.opcOf_toWord]
    exact congrArg Instr.bfeN32 (FormR.ofWord_toWord f _))
theorem bfeI32 (f : FormR) : Statement (.bfeI32 f) :=
  of_word rfl (by
    show decodeCrew (f.toWord 0x04E#10) = _
    unfold decodeCrew
    rw [FormR.opcOf_toWord]
    exact congrArg Instr.bfeI32 (FormR.ofWord_toWord f _))
theorem bfiB32 (f : FormX) : Statement (.bfiB32 f) :=
  of_word rfl (by
    show decodeCrew (f.toWord 0x04F#10) = _
    unfold decodeCrew
    rw [FormX.opcOf_toWord]
    exact congrArg Instr.bfiB32 (FormX.ofWord_toWord f _))
theorem popcB32 (f : FormR) : Statement (.popcB32 f) :=
  of_word rfl (by
    show decodeCrew (f.toWord 0x050#10) = _
    unfold decodeCrew
    rw [FormR.opcOf_toWord]
    exact congrArg Instr.popcB32 (FormR.ofWord_toWord f _))
theorem clzB32 (f : FormR) : Statement (.clzB32 f) :=
  of_word rfl (by
    show decodeCrew (f.toWord 0x051#10) = _
    unfold decodeCrew
    rw [FormR.opcOf_toWord]
    exact congrArg Instr.clzB32 (FormR.ofWord_toWord f _))
theorem ctzB32 (f : FormR) : Statement (.ctzB32 f) :=
  of_word rfl (by
    show decodeCrew (f.toWord 0x052#10) = _
    unfold decodeCrew
    rw [FormR.opcOf_toWord]
    exact congrArg Instr.ctzB32 (FormR.ofWord_toWord f _))
theorem brevB32 (f : FormR) : Statement (.brevB32 f) :=
  of_word rfl (by
    show decodeCrew (f.toWord 0x053#10) = _
    unfold decodeCrew
    rw [FormR.opcOf_toWord]
    exact congrArg Instr.brevB32 (FormR.ofWord_toWord f _))
theorem bswB32 (f : FormR) : Statement (.bswB32 f) :=
  of_word rfl (by
    show decodeCrew (f.toWord 0x054#10) = _
    unfold decodeCrew
    rw [FormR.opcOf_toWord]
    exact congrArg Instr.bswB32 (FormR.ofWord_toWord f _))
theorem movB32 (f : FormR) : Statement (.movB32 f) :=
  of_word rfl (by
    show decodeCrew (f.toWord 0x055#10) = _
    unfold decodeCrew
    rw [FormR.opcOf_toWord]
    exact congrArg Instr.movB32 (FormR.ofWord_toWord f _))
theorem moviB32 (f : FormI) : Statement (.moviB32 f) :=
  of_word rfl (by
    show decodeCrew (f.toWord 0x056#10) = _
    unfold decodeCrew
    rw [FormI.opcOf_toWord]
    exact congrArg Instr.moviB32 (FormI.ofWord_toWord f _))
theorem selB32 (f : FormR) : Statement (.selB32 f) :=
  of_word rfl (by
    show decodeCrew (f.toWord 0x057#10) = _
    unfold decodeCrew
    rw [FormR.opcOf_toWord]
    exact congrArg Instr.selB32 (FormR.ofWord_toWord f _))
theorem bselB32 (f : FormR) : Statement (.bselB32 f) :=
  of_word rfl (by
    show decodeCrew (f.toWord 0x058#10) = _
    unfold decodeCrew
    rw [FormR.opcOf_toWord]
    exact congrArg Instr.bselB32 (FormR.ofWord_toWord f _))
theorem andiB32 (f : FormI) : Statement (.andiB32 f) :=
  of_word rfl (by
    show decodeCrew (f.toWord 0x059#10) = _
    unfold decodeCrew
    rw [FormI.opcOf_toWord]
    exact congrArg Instr.andiB32 (FormI.ofWord_toWord f _))
theorem oriB32 (f : FormI) : Statement (.oriB32 f) :=
  of_word rfl (by
    show decodeCrew (f.toWord 0x05A#10) = _
    unfold decodeCrew
    rw [FormI.opcOf_toWord]
    exact congrArg Instr.oriB32 (FormI.ofWord_toWord f _))
theorem xoriB32 (f : FormI) : Statement (.xoriB32 f) :=
  of_word rfl (by
    show decodeCrew (f.toWord 0x05B#10) = _
    unfold decodeCrew
    rw [FormI.opcOf_toWord]
    exact congrArg Instr.xoriB32 (FormI.ofWord_toWord f _))
theorem cmpEqB32 (f : FormI) : Statement (.cmpEqB32 f) :=
  of_word rfl (by
    show decodeCrew (f.toWord 0x060#10) = _
    unfold decodeCrew
    rw [FormI.opcOf_toWord]
    exact congrArg Instr.cmpEqB32 (FormI.ofWord_toWord f _))
theorem cmpNeB32 (f : FormI) : Statement (.cmpNeB32 f) :=
  of_word rfl (by
    show decodeCrew (f.toWord 0x061#10) = _
    unfold decodeCrew
    rw [FormI.opcOf_toWord]
    exact congrArg Instr.cmpNeB32 (FormI.ofWord_toWord f _))
theorem cmpLtI32 (f : FormI) : Statement (.cmpLtI32 f) :=
  of_word rfl (by
    show decodeCrew (f.toWord 0x062#10) = _
    unfold decodeCrew
    rw [FormI.opcOf_toWord]
    exact congrArg Instr.cmpLtI32 (FormI.ofWord_toWord f _))
theorem cmpLeI32 (f : FormI) : Statement (.cmpLeI32 f) :=
  of_word rfl (by
    show decodeCrew (f.toWord 0x063#10) = _
    unfold decodeCrew
    rw [FormI.opcOf_toWord]
    exact congrArg Instr.cmpLeI32 (FormI.ofWord_toWord f _))
theorem cmpGtI32 (f : FormI) : Statement (.cmpGtI32 f) :=
  of_word rfl (by
    show decodeCrew (f.toWord 0x064#10) = _
    unfold decodeCrew
    rw [FormI.opcOf_toWord]
    exact congrArg Instr.cmpGtI32 (FormI.ofWord_toWord f _))
theorem cmpGeI32 (f : FormI) : Statement (.cmpGeI32 f) :=
  of_word rfl (by
    show decodeCrew (f.toWord 0x065#10) = _
    unfold decodeCrew
    rw [FormI.opcOf_toWord]
    exact congrArg Instr.cmpGeI32 (FormI.ofWord_toWord f _))
theorem cmpLtN32 (f : FormI) : Statement (.cmpLtN32 f) :=
  of_word rfl (by
    show decodeCrew (f.toWord 0x066#10) = _
    unfold decodeCrew
    rw [FormI.opcOf_toWord]
    exact congrArg Instr.cmpLtN32 (FormI.ofWord_toWord f _))
theorem cmpLeN32 (f : FormI) : Statement (.cmpLeN32 f) :=
  of_word rfl (by
    show decodeCrew (f.toWord 0x067#10) = _
    unfold decodeCrew
    rw [FormI.opcOf_toWord]
    exact congrArg Instr.cmpLeN32 (FormI.ofWord_toWord f _))
theorem cmpGtN32 (f : FormI) : Statement (.cmpGtN32 f) :=
  of_word rfl (by
    show decodeCrew (f.toWord 0x068#10) = _
    unfold decodeCrew
    rw [FormI.opcOf_toWord]
    exact congrArg Instr.cmpGtN32 (FormI.ofWord_toWord f _))
theorem cmpGeN32 (f : FormI) : Statement (.cmpGeN32 f) :=
  of_word rfl (by
    show decodeCrew (f.toWord 0x069#10) = _
    unfold decodeCrew
    rw [FormI.opcOf_toWord]
    exact congrArg Instr.cmpGeN32 (FormI.ofWord_toWord f _))
theorem qdef (f : FormI) : Statement (.qdef f) :=
  of_word rfl (by
    show decodeCrew (f.toWord 0x070#10) = _
    unfold decodeCrew
    rw [FormI.opcOf_toWord]
    exact congrArg Instr.qdef (FormI.ofWord_toWord f _))
theorem qfree (f : FormI) : Statement (.qfree f) :=
  of_word rfl (by
    show decodeCrew (f.toWord 0x071#10) = _
    unfold decodeCrew
    rw [FormI.opcOf_toWord]
    exact congrArg Instr.qfree (FormI.ofWord_toWord f _))
theorem faddF32 (f : FormR) : Statement (.faddF32 f) :=
  of_word rfl (by
    show decodeCrew (f.toWord 0x080#10) = _
    unfold decodeCrew
    rw [FormR.opcOf_toWord]
    exact congrArg Instr.faddF32 (FormR.ofWord_toWord f _))
theorem fsubF32 (f : FormR) : Statement (.fsubF32 f) :=
  of_word rfl (by
    show decodeCrew (f.toWord 0x081#10) = _
    unfold decodeCrew
    rw [FormR.opcOf_toWord]
    exact congrArg Instr.fsubF32 (FormR.ofWord_toWord f _))
theorem fmulF32 (f : FormR) : Statement (.fmulF32 f) :=
  of_word rfl (by
    show decodeCrew (f.toWord 0x082#10) = _
    unfold decodeCrew
    rw [FormR.opcOf_toWord]
    exact congrArg Instr.fmulF32 (FormR.ofWord_toWord f _))
theorem ffmaF32 (f : FormR) : Statement (.ffmaF32 f) :=
  of_word rfl (by
    show decodeCrew (f.toWord 0x083#10) = _
    unfold decodeCrew
    rw [FormR.opcOf_toWord]
    exact congrArg Instr.ffmaF32 (FormR.ofWord_toWord f _))
theorem fminF32 (f : FormR) : Statement (.fminF32 f) :=
  of_word rfl (by
    show decodeCrew (f.toWord 0x084#10) = _
    unfold decodeCrew
    rw [FormR.opcOf_toWord]
    exact congrArg Instr.fminF32 (FormR.ofWord_toWord f _))
theorem fmaxF32 (f : FormR) : Statement (.fmaxF32 f) :=
  of_word rfl (by
    show decodeCrew (f.toWord 0x085#10) = _
    unfold decodeCrew
    rw [FormR.opcOf_toWord]
    exact congrArg Instr.fmaxF32 (FormR.ofWord_toWord f _))
theorem fmuliF32 (f : FormI) : Statement (.fmuliF32 f) :=
  of_word rfl (by
    show decodeCrew (f.toWord 0x086#10) = _
    unfold decodeCrew
    rw [FormI.opcOf_toWord]
    exact congrArg Instr.fmuliF32 (FormI.ofWord_toWord f _))
theorem faddiF32 (f : FormI) : Statement (.faddiF32 f) :=
  of_word rfl (by
    show decodeCrew (f.toWord 0x087#10) = _
    unfold decodeCrew
    rw [FormI.opcOf_toWord]
    exact congrArg Instr.faddiF32 (FormI.ofWord_toWord f _))
theorem fclsF32 (f : FormR) : Statement (.fclsF32 f) :=
  of_word rfl (by
    show decodeCrew (f.toWord 0x088#10) = _
    unfold decodeCrew
    rw [FormR.opcOf_toWord]
    exact congrArg Instr.fclsF32 (FormR.ofWord_toWord f _))
theorem fcmpEqF32 (f : FormI) : Statement (.fcmpEqF32 f) :=
  of_word rfl (by
    show decodeCrew (f.toWord 0x090#10) = _
    unfold decodeCrew
    rw [FormI.opcOf_toWord]
    exact congrArg Instr.fcmpEqF32 (FormI.ofWord_toWord f _))
theorem fcmpNeF32 (f : FormI) : Statement (.fcmpNeF32 f) :=
  of_word rfl (by
    show decodeCrew (f.toWord 0x091#10) = _
    unfold decodeCrew
    rw [FormI.opcOf_toWord]
    exact congrArg Instr.fcmpNeF32 (FormI.ofWord_toWord f _))
theorem fcmpLtF32 (f : FormI) : Statement (.fcmpLtF32 f) :=
  of_word rfl (by
    show decodeCrew (f.toWord 0x092#10) = _
    unfold decodeCrew
    rw [FormI.opcOf_toWord]
    exact congrArg Instr.fcmpLtF32 (FormI.ofWord_toWord f _))
theorem fcmpLeF32 (f : FormI) : Statement (.fcmpLeF32 f) :=
  of_word rfl (by
    show decodeCrew (f.toWord 0x093#10) = _
    unfold decodeCrew
    rw [FormI.opcOf_toWord]
    exact congrArg Instr.fcmpLeF32 (FormI.ofWord_toWord f _))
theorem fcmpGtF32 (f : FormI) : Statement (.fcmpGtF32 f) :=
  of_word rfl (by
    show decodeCrew (f.toWord 0x094#10) = _
    unfold decodeCrew
    rw [FormI.opcOf_toWord]
    exact congrArg Instr.fcmpGtF32 (FormI.ofWord_toWord f _))
theorem fcmpGeF32 (f : FormI) : Statement (.fcmpGeF32 f) :=
  of_word rfl (by
    show decodeCrew (f.toWord 0x095#10) = _
    unfold decodeCrew
    rw [FormI.opcOf_toWord]
    exact congrArg Instr.fcmpGeF32 (FormI.ofWord_toWord f _))
theorem fcmpUnF32 (f : FormI) : Statement (.fcmpUnF32 f) :=
  of_word rfl (by
    show decodeCrew (f.toWord 0x096#10) = _
    unfold decodeCrew
    rw [FormI.opcOf_toWord]
    exact congrArg Instr.fcmpUnF32 (FormI.ofWord_toWord f _))
theorem fcmpOrF32 (f : FormI) : Statement (.fcmpOrF32 f) :=
  of_word rfl (by
    show decodeCrew (f.toWord 0x097#10) = _
    unfold decodeCrew
    rw [FormI.opcOf_toWord]
    exact congrArg Instr.fcmpOrF32 (FormI.ofWord_toWord f _))
theorem haddF16x2 (f : FormR) : Statement (.haddF16x2 f) :=
  of_word rfl (by
    show decodeCrew (f.toWord 0x0C0#10) = _
    unfold decodeCrew
    rw [FormR.opcOf_toWord]
    exact congrArg Instr.haddF16x2 (FormR.ofWord_toWord f _))
theorem hmulF16x2 (f : FormR) : Statement (.hmulF16x2 f) :=
  of_word rfl (by
    show decodeCrew (f.toWord 0x0C1#10) = _
    unfold decodeCrew
    rw [FormR.opcOf_toWord]
    exact congrArg Instr.hmulF16x2 (FormR.ofWord_toWord f _))
theorem hfmaF16x2 (f : FormR) : Statement (.hfmaF16x2 f) :=
  of_word rfl (by
    show decodeCrew (f.toWord 0x0C2#10) = _
    unfold decodeCrew
    rw [FormR.opcOf_toWord]
    exact congrArg Instr.hfmaF16x2 (FormR.ofWord_toWord f _))
theorem hminF16x2 (f : FormR) : Statement (.hminF16x2 f) :=
  of_word rfl (by
    show decodeCrew (f.toWord 0x0C3#10) = _
    unfold decodeCrew
    rw [FormR.opcOf_toWord]
    exact congrArg Instr.hminF16x2 (FormR.ofWord_toWord f _))
theorem hmaxF16x2 (f : FormR) : Statement (.hmaxF16x2 f) :=
  of_word rfl (by
    show decodeCrew (f.toWord 0x0C4#10) = _
    unfold decodeCrew
    rw [FormR.opcOf_toWord]
    exact congrArg Instr.hmaxF16x2 (FormR.ofWord_toWord f _))
theorem haddBf16x2 (f : FormR) : Statement (.haddBf16x2 f) :=
  of_word rfl (by
    show decodeCrew (f.toWord 0x0C8#10) = _
    unfold decodeCrew
    rw [FormR.opcOf_toWord]
    exact congrArg Instr.haddBf16x2 (FormR.ofWord_toWord f _))
theorem hmulBf16x2 (f : FormR) : Statement (.hmulBf16x2 f) :=
  of_word rfl (by
    show decodeCrew (f.toWord 0x0C9#10) = _
    unfold decodeCrew
    rw [FormR.opcOf_toWord]
    exact congrArg Instr.hmulBf16x2 (FormR.ofWord_toWord f _))
theorem hfmaBf16x2 (f : FormR) : Statement (.hfmaBf16x2 f) :=
  of_word rfl (by
    show decodeCrew (f.toWord 0x0CA#10) = _
    unfold decodeCrew
    rw [FormR.opcOf_toWord]
    exact congrArg Instr.hfmaBf16x2 (FormR.ofWord_toWord f _))
theorem hminBf16x2 (f : FormR) : Statement (.hminBf16x2 f) :=
  of_word rfl (by
    show decodeCrew (f.toWord 0x0CB#10) = _
    unfold decodeCrew
    rw [FormR.opcOf_toWord]
    exact congrArg Instr.hminBf16x2 (FormR.ofWord_toWord f _))
theorem hmaxBf16x2 (f : FormR) : Statement (.hmaxBf16x2 f) :=
  of_word rfl (by
    show decodeCrew (f.toWord 0x0CC#10) = _
    unfold decodeCrew
    rw [FormR.opcOf_toWord]
    exact congrArg Instr.hmaxBf16x2 (FormR.ofWord_toWord f _))
theorem vaddI16x2 (f : FormR) : Statement (.vaddI16x2 f) :=
  of_word rfl (by
    show decodeCrew (f.toWord 0x0E0#10) = _
    unfold decodeCrew
    rw [FormR.opcOf_toWord]
    exact congrArg Instr.vaddI16x2 (FormR.ofWord_toWord f _))
theorem vsubI16x2 (f : FormR) : Statement (.vsubI16x2 f) :=
  of_word rfl (by
    show decodeCrew (f.toWord 0x0E1#10) = _
    unfold decodeCrew
    rw [FormR.opcOf_toWord]
    exact congrArg Instr.vsubI16x2 (FormR.ofWord_toWord f _))
theorem vaddI8x4 (f : FormR) : Statement (.vaddI8x4 f) :=
  of_word rfl (by
    show decodeCrew (f.toWord 0x0E2#10) = _
    unfold decodeCrew
    rw [FormR.opcOf_toWord]
    exact congrArg Instr.vaddI8x4 (FormR.ofWord_toWord f _))
theorem vsubI8x4 (f : FormR) : Statement (.vsubI8x4 f) :=
  of_word rfl (by
    show decodeCrew (f.toWord 0x0E3#10) = _
    unfold decodeCrew
    rw [FormR.opcOf_toWord]
    exact congrArg Instr.vsubI8x4 (FormR.ofWord_toWord f _))
theorem vminI16x2 (f : FormR) : Statement (.vminI16x2 f) :=
  of_word rfl (by
    show decodeCrew (f.toWord 0x0E4#10) = _
    unfold decodeCrew
    rw [FormR.opcOf_toWord]
    exact congrArg Instr.vminI16x2 (FormR.ofWord_toWord f _))
theorem vmaxI16x2 (f : FormR) : Statement (.vmaxI16x2 f) :=
  of_word rfl (by
    show decodeCrew (f.toWord 0x0E5#10) = _
    unfold decodeCrew
    rw [FormR.opcOf_toWord]
    exact congrArg Instr.vmaxI16x2 (FormR.ofWord_toWord f _))
theorem vminI8x4 (f : FormR) : Statement (.vminI8x4 f) :=
  of_word rfl (by
    show decodeCrew (f.toWord 0x0E6#10) = _
    unfold decodeCrew
    rw [FormR.opcOf_toWord]
    exact congrArg Instr.vminI8x4 (FormR.ofWord_toWord f _))
theorem vmaxI8x4 (f : FormR) : Statement (.vmaxI8x4 f) :=
  of_word rfl (by
    show decodeCrew (f.toWord 0x0E7#10) = _
    unfold decodeCrew
    rw [FormR.opcOf_toWord]
    exact congrArg Instr.vmaxI8x4 (FormR.ofWord_toWord f _))
theorem vminN8x4 (f : FormR) : Statement (.vminN8x4 f) :=
  of_word rfl (by
    show decodeCrew (f.toWord 0x0E8#10) = _
    unfold decodeCrew
    rw [FormR.opcOf_toWord]
    exact congrArg Instr.vminN8x4 (FormR.ofWord_toWord f _))
theorem vmaxN8x4 (f : FormR) : Statement (.vmaxN8x4 f) :=
  of_word rfl (by
    show decodeCrew (f.toWord 0x0E9#10) = _
    unfold decodeCrew
    rw [FormR.opcOf_toWord]
    exact congrArg Instr.vmaxN8x4 (FormR.ofWord_toWord f _))
theorem vaddsatI16x2 (f : FormR) : Statement (.vaddsatI16x2 f) :=
  of_word rfl (by
    show decodeCrew (f.toWord 0x0EA#10) = _
    unfold decodeCrew
    rw [FormR.opcOf_toWord]
    exact congrArg Instr.vaddsatI16x2 (FormR.ofWord_toWord f _))
theorem vaddsatI8x4 (f : FormR) : Statement (.vaddsatI8x4 f) :=
  of_word rfl (by
    show decodeCrew (f.toWord 0x0EB#10) = _
    unfold decodeCrew
    rw [FormR.opcOf_toWord]
    exact congrArg Instr.vaddsatI8x4 (FormR.ofWord_toWord f _))
theorem dp4I8x4 (f : FormR) : Statement (.dp4I8x4 f) :=
  of_word rfl (by
    show decodeCrew (f.toWord 0x0F0#10) = _
    unfold decodeCrew
    rw [FormR.opcOf_toWord]
    exact congrArg Instr.dp4I8x4 (FormR.ofWord_toWord f _))
theorem dp4N8x4 (f : FormR) : Statement (.dp4N8x4 f) :=
  of_word rfl (by
    show decodeCrew (f.toWord 0x0F1#10) = _
    unfold decodeCrew
    rw [FormR.opcOf_toWord]
    exact congrArg Instr.dp4N8x4 (FormR.ofWord_toWord f _))
theorem dp2I16x2 (f : FormR) : Statement (.dp2I16x2 f) :=
  of_word rfl (by
    show decodeCrew (f.toWord 0x0F2#10) = _
    unfold decodeCrew
    rw [FormR.opcOf_toWord]
    exact congrArg Instr.dp2I16x2 (FormR.ofWord_toWord f _))
theorem dp8I4x8 (f : FormR) : Statement (.dp8I4x8 f) :=
  of_word rfl (by
    show decodeCrew (f.toWord 0x0F3#10) = _
    unfold decodeCrew
    rw [FormR.opcOf_toWord]
    exact congrArg Instr.dp8I4x8 (FormR.ofWord_toWord f _))
theorem daddF64 (f : FormR) : Statement (.daddF64 f) :=
  of_word rfl (by
    show decodeCrew (f.toWord 0x100#10) = _
    unfold decodeCrew
    rw [FormR.opcOf_toWord]
    exact congrArg Instr.daddF64 (FormR.ofWord_toWord f _))
theorem dsubF64 (f : FormR) : Statement (.dsubF64 f) :=
  of_word rfl (by
    show decodeCrew (f.toWord 0x101#10) = _
    unfold decodeCrew
    rw [FormR.opcOf_toWord]
    exact congrArg Instr.dsubF64 (FormR.ofWord_toWord f _))
theorem dmulF64 (f : FormR) : Statement (.dmulF64 f) :=
  of_word rfl (by
    show decodeCrew (f.toWord 0x102#10) = _
    unfold decodeCrew
    rw [FormR.opcOf_toWord]
    exact congrArg Instr.dmulF64 (FormR.ofWord_toWord f _))
theorem dfmaF64 (f : FormR) : Statement (.dfmaF64 f) :=
  of_word rfl (by
    show decodeCrew (f.toWord 0x103#10) = _
    unfold decodeCrew
    rw [FormR.opcOf_toWord]
    exact congrArg Instr.dfmaF64 (FormR.ofWord_toWord f _))
theorem dminF64 (f : FormR) : Statement (.dminF64 f) :=
  of_word rfl (by
    show decodeCrew (f.toWord 0x104#10) = _
    unfold decodeCrew
    rw [FormR.opcOf_toWord]
    exact congrArg Instr.dminF64 (FormR.ofWord_toWord f _))
theorem dmaxF64 (f : FormR) : Statement (.dmaxF64 f) :=
  of_word rfl (by
    show decodeCrew (f.toWord 0x105#10) = _
    unfold decodeCrew
    rw [FormR.opcOf_toWord]
    exact congrArg Instr.dmaxF64 (FormR.ofWord_toWord f _))
theorem dclsF64 (f : FormR) : Statement (.dclsF64 f) :=
  of_word rfl (by
    show decodeCrew (f.toWord 0x106#10) = _
    unfold decodeCrew
    rw [FormR.opcOf_toWord]
    exact congrArg Instr.dclsF64 (FormR.ofWord_toWord f _))
theorem dcmpEqF64 (f : FormI) : Statement (.dcmpEqF64 f) :=
  of_word rfl (by
    show decodeCrew (f.toWord 0x110#10) = _
    unfold decodeCrew
    rw [FormI.opcOf_toWord]
    exact congrArg Instr.dcmpEqF64 (FormI.ofWord_toWord f _))
theorem dcmpNeF64 (f : FormI) : Statement (.dcmpNeF64 f) :=
  of_word rfl (by
    show decodeCrew (f.toWord 0x111#10) = _
    unfold decodeCrew
    rw [FormI.opcOf_toWord]
    exact congrArg Instr.dcmpNeF64 (FormI.ofWord_toWord f _))
theorem dcmpLtF64 (f : FormI) : Statement (.dcmpLtF64 f) :=
  of_word rfl (by
    show decodeCrew (f.toWord 0x112#10) = _
    unfold decodeCrew
    rw [FormI.opcOf_toWord]
    exact congrArg Instr.dcmpLtF64 (FormI.ofWord_toWord f _))
theorem dcmpLeF64 (f : FormI) : Statement (.dcmpLeF64 f) :=
  of_word rfl (by
    show decodeCrew (f.toWord 0x113#10) = _
    unfold decodeCrew
    rw [FormI.opcOf_toWord]
    exact congrArg Instr.dcmpLeF64 (FormI.ofWord_toWord f _))
theorem dcmpGtF64 (f : FormI) : Statement (.dcmpGtF64 f) :=
  of_word rfl (by
    show decodeCrew (f.toWord 0x114#10) = _
    unfold decodeCrew
    rw [FormI.opcOf_toWord]
    exact congrArg Instr.dcmpGtF64 (FormI.ofWord_toWord f _))
theorem dcmpGeF64 (f : FormI) : Statement (.dcmpGeF64 f) :=
  of_word rfl (by
    show decodeCrew (f.toWord 0x115#10) = _
    unfold decodeCrew
    rw [FormI.opcOf_toWord]
    exact congrArg Instr.dcmpGeF64 (FormI.ofWord_toWord f _))
theorem dcmpUnF64 (f : FormI) : Statement (.dcmpUnF64 f) :=
  of_word rfl (by
    show decodeCrew (f.toWord 0x116#10) = _
    unfold decodeCrew
    rw [FormI.opcOf_toWord]
    exact congrArg Instr.dcmpUnF64 (FormI.ofWord_toWord f _))
theorem dcmpOrF64 (f : FormI) : Statement (.dcmpOrF64 f) :=
  of_word rfl (by
    show decodeCrew (f.toWord 0x117#10) = _
    unfold decodeCrew
    rw [FormI.opcOf_toWord]
    exact congrArg Instr.dcmpOrF64 (FormI.ofWord_toWord f _))
theorem rcpF32 (f : FormR) : Statement (.rcpF32 f) :=
  of_word rfl (by
    show decodeCrew (f.toWord 0x140#10) = _
    unfold decodeCrew
    rw [FormR.opcOf_toWord]
    exact congrArg Instr.rcpF32 (FormR.ofWord_toWord f _))
theorem rsqrtF32 (f : FormR) : Statement (.rsqrtF32 f) :=
  of_word rfl (by
    show decodeCrew (f.toWord 0x141#10) = _
    unfold decodeCrew
    rw [FormR.opcOf_toWord]
    exact congrArg Instr.rsqrtF32 (FormR.ofWord_toWord f _))
theorem sqrtF32 (f : FormR) : Statement (.sqrtF32 f) :=
  of_word rfl (by
    show decodeCrew (f.toWord 0x142#10) = _
    unfold decodeCrew
    rw [FormR.opcOf_toWord]
    exact congrArg Instr.sqrtF32 (FormR.ofWord_toWord f _))
theorem exp2F32 (f : FormR) : Statement (.exp2F32 f) :=
  of_word rfl (by
    show decodeCrew (f.toWord 0x143#10) = _
    unfold decodeCrew
    rw [FormR.opcOf_toWord]
    exact congrArg Instr.exp2F32 (FormR.ofWord_toWord f _))
theorem log2F32 (f : FormR) : Statement (.log2F32 f) :=
  of_word rfl (by
    show decodeCrew (f.toWord 0x144#10) = _
    unfold decodeCrew
    rw [FormR.opcOf_toWord]
    exact congrArg Instr.log2F32 (FormR.ofWord_toWord f _))
theorem sinF32 (f : FormR) : Statement (.sinF32 f) :=
  of_word rfl (by
    show decodeCrew (f.toWord 0x145#10) = _
    unfold decodeCrew
    rw [FormR.opcOf_toWord]
    exact congrArg Instr.sinF32 (FormR.ofWord_toWord f _))
theorem cosF32 (f : FormR) : Statement (.cosF32 f) :=
  of_word rfl (by
    show decodeCrew (f.toWord 0x146#10) = _
    unfold decodeCrew
    rw [FormR.opcOf_toWord]
    exact congrArg Instr.cosF32 (FormR.ofWord_toWord f _))
theorem tanhF32 (f : FormR) : Statement (.tanhF32 f) :=
  of_word rfl (by
    show decodeCrew (f.toWord 0x147#10) = _
    unfold decodeCrew
    rw [FormR.opcOf_toWord]
    exact congrArg Instr.tanhF32 (FormR.ofWord_toWord f _))
theorem rcpF64 (f : FormR) : Statement (.rcpF64 f) :=
  of_word rfl (by
    show decodeCrew (f.toWord 0x148#10) = _
    unfold decodeCrew
    rw [FormR.opcOf_toWord]
    exact congrArg Instr.rcpF64 (FormR.ofWord_toWord f _))
theorem sqrtF64 (f : FormR) : Statement (.sqrtF64 f) :=
  of_word rfl (by
    show decodeCrew (f.toWord 0x149#10) = _
    unfold decodeCrew
    rw [FormR.opcOf_toWord]
    exact congrArg Instr.sqrtF64 (FormR.ofWord_toWord f _))
theorem cvt (f : FormI) : Statement (.cvt f) :=
  of_word rfl (by
    show decodeCrew (f.toWord 0x150#10) = _
    unfold decodeCrew
    rw [FormI.opcOf_toWord]
    exact congrArg Instr.cvt (FormI.ofWord_toWord f _))
theorem cvtSr (f : FormI) : Statement (.cvtSr f) :=
  of_word rfl (by
    show decodeCrew (f.toWord 0x151#10) = _
    unfold decodeCrew
    rw [FormI.opcOf_toWord]
    exact congrArg Instr.cvtSr (FormI.ofWord_toWord f _))
theorem packE4m3 (f : FormX) : Statement (.packE4m3 f) :=
  of_word rfl (by
    show decodeCrew (f.toWord 0x152#10) = _
    unfold decodeCrew
    rw [FormX.opcOf_toWord]
    exact congrArg Instr.packE4m3 (FormX.ofWord_toWord f _))
theorem packE5m2 (f : FormX) : Statement (.packE5m2 f) :=
  of_word rfl (by
    show decodeCrew (f.toWord 0x153#10) = _
    unfold decodeCrew
    rw [FormX.opcOf_toWord]
    exact congrArg Instr.packE5m2 (FormX.ofWord_toWord f _))
theorem packE2m1 (f : FormX) : Statement (.packE2m1 f) :=
  of_word rfl (by
    show decodeCrew (f.toWord 0x154#10) = _
    unfold decodeCrew
    rw [FormX.opcOf_toWord]
    exact congrArg Instr.packE2m1 (FormX.ofWord_toWord f _))
theorem packI4 (f : FormX) : Statement (.packI4 f) :=
  of_word rfl (by
    show decodeCrew (f.toWord 0x155#10) = _
    unfold decodeCrew
    rw [FormX.opcOf_toWord]
    exact congrArg Instr.packI4 (FormX.ofWord_toWord f _))
theorem unpackE4m3 (f : FormR) : Statement (.unpackE4m3 f) :=
  of_word rfl (by
    show decodeCrew (f.toWord 0x156#10) = _
    unfold decodeCrew
    rw [FormR.opcOf_toWord]
    exact congrArg Instr.unpackE4m3 (FormR.ofWord_toWord f _))
theorem unpackE5m2 (f : FormR) : Statement (.unpackE5m2 f) :=
  of_word rfl (by
    show decodeCrew (f.toWord 0x157#10) = _
    unfold decodeCrew
    rw [FormR.opcOf_toWord]
    exact congrArg Instr.unpackE5m2 (FormR.ofWord_toWord f _))
theorem unpackE2m1 (f : FormR) : Statement (.unpackE2m1 f) :=
  of_word rfl (by
    show decodeCrew (f.toWord 0x158#10) = _
    unfold decodeCrew
    rw [FormR.opcOf_toWord]
    exact congrArg Instr.unpackE2m1 (FormR.ofWord_toWord f _))
theorem unpackI4 (f : FormR) : Statement (.unpackI4 f) :=
  of_word rfl (by
    show decodeCrew (f.toWord 0x159#10) = _
    unfold decodeCrew
    rw [FormR.opcOf_toWord]
    exact congrArg Instr.unpackI4 (FormR.ofWord_toWord f _))
theorem qblk (f : FormR) : Statement (.qblk f) :=
  of_word rfl (by
    show decodeCrew (f.toWord 0x160#10) = _
    unfold decodeCrew
    rw [FormR.opcOf_toWord]
    exact congrArg Instr.qblk (FormR.ofWord_toWord f _))
theorem dqblk (f : FormR) : Statement (.dqblk f) :=
  of_word rfl (by
    show decodeCrew (f.toWord 0x161#10) = _
    unfold decodeCrew
    rw [FormR.opcOf_toWord]
    exact congrArg Instr.dqblk (FormR.ofWord_toWord f _))
theorem rngnext (f : FormR) : Statement (.rngnext f) :=
  of_word rfl (by
    show decodeCrew (f.toWord 0x168#10) = _
    unfold decodeCrew
    rw [FormR.opcOf_toWord]
    exact congrArg Instr.rngnext (FormR.ofWord_toWord f _))
theorem rngseed (f : FormR) : Statement (.rngseed f) :=
  of_word rfl (by
    show decodeCrew (f.toWord 0x169#10) = _
    unfold decodeCrew
    rw [FormR.opcOf_toWord]
    exact congrArg Instr.rngseed (FormR.ofWord_toWord f _))
theorem xlaneRot (f : FormI) : Statement (.xlaneRot f) :=
  of_word rfl (by
    show decodeCrew (f.toWord 0x180#10) = _
    unfold decodeCrew
    rw [FormI.opcOf_toWord]
    exact congrArg Instr.xlaneRot (FormI.ofWord_toWord f _))
theorem xlaneShup (f : FormI) : Statement (.xlaneShup f) :=
  of_word rfl (by
    show decodeCrew (f.toWord 0x181#10) = _
    unfold decodeCrew
    rw [FormI.opcOf_toWord]
    exact congrArg Instr.xlaneShup (FormI.ofWord_toWord f _))
theorem xlaneShdn (f : FormI) : Statement (.xlaneShdn f) :=
  of_word rfl (by
    show decodeCrew (f.toWord 0x182#10) = _
    unfold decodeCrew
    rw [FormI.opcOf_toWord]
    exact congrArg Instr.xlaneShdn (FormI.ofWord_toWord f _))
theorem xlaneIdx (f : FormI) : Statement (.xlaneIdx f) :=
  of_word rfl (by
    show decodeCrew (f.toWord 0x183#10) = _
    unfold decodeCrew
    rw [FormI.opcOf_toWord]
    exact congrArg Instr.xlaneIdx (FormI.ofWord_toWord f _))
theorem xbcast (f : FormI) : Statement (.xbcast f) :=
  of_word rfl (by
    show decodeCrew (f.toWord 0x184#10) = _
    unfold decodeCrew
    rw [FormI.opcOf_toWord]
    exact congrArg Instr.xbcast (FormI.ofWord_toWord f _))
theorem bfly (f : FormI) : Statement (.bfly f) :=
  of_word rfl (by
    show decodeCrew (f.toWord 0x185#10) = _
    unfold decodeCrew
    rw [FormI.opcOf_toWord]
    exact congrArg Instr.bfly (FormI.ofWord_toWord f _))
theorem redAddI32 (f : FormI) : Statement (.redAddI32 f) :=
  of_word rfl (by
    show decodeCrew (f.toWord 0x188#10) = _
    unfold decodeCrew
    rw [FormI.opcOf_toWord]
    exact congrArg Instr.redAddI32 (FormI.ofWord_toWord f _))
theorem redMinI32 (f : FormI) : Statement (.redMinI32 f) :=
  of_word rfl (by
    show decodeCrew (f.toWord 0x189#10) = _
    unfold decodeCrew
    rw [FormI.opcOf_toWord]
    exact congrArg Instr.redMinI32 (FormI.ofWord_toWord f _))
theorem redMaxI32 (f : FormI) : Statement (.redMaxI32 f) :=
  of_word rfl (by
    show decodeCrew (f.toWord 0x18A#10) = _
    unfold decodeCrew
    rw [FormI.opcOf_toWord]
    exact congrArg Instr.redMaxI32 (FormI.ofWord_toWord f _))
theorem redAndB32 (f : FormI) : Statement (.redAndB32 f) :=
  of_word rfl (by
    show decodeCrew (f.toWord 0x18B#10) = _
    unfold decodeCrew
    rw [FormI.opcOf_toWord]
    exact congrArg Instr.redAndB32 (FormI.ofWord_toWord f _))
theorem redOrB32 (f : FormI) : Statement (.redOrB32 f) :=
  of_word rfl (by
    show decodeCrew (f.toWord 0x18C#10) = _
    unfold decodeCrew
    rw [FormI.opcOf_toWord]
    exact congrArg Instr.redOrB32 (FormI.ofWord_toWord f _))
theorem redXorB32 (f : FormI) : Statement (.redXorB32 f) :=
  of_word rfl (by
    show decodeCrew (f.toWord 0x18D#10) = _
    unfold decodeCrew
    rw [FormI.opcOf_toWord]
    exact congrArg Instr.redXorB32 (FormI.ofWord_toWord f _))
theorem redAddF32 (f : FormI) : Statement (.redAddF32 f) :=
  of_word rfl (by
    show decodeCrew (f.toWord 0x18E#10) = _
    unfold decodeCrew
    rw [FormI.opcOf_toWord]
    exact congrArg Instr.redAddF32 (FormI.ofWord_toWord f _))
theorem redMinF32 (f : FormI) : Statement (.redMinF32 f) :=
  of_word rfl (by
    show decodeCrew (f.toWord 0x18F#10) = _
    unfold decodeCrew
    rw [FormI.opcOf_toWord]
    exact congrArg Instr.redMinF32 (FormI.ofWord_toWord f _))
theorem redMaxF32 (f : FormI) : Statement (.redMaxF32 f) :=
  of_word rfl (by
    show decodeCrew (f.toWord 0x190#10) = _
    unfold decodeCrew
    rw [FormI.opcOf_toWord]
    exact congrArg Instr.redMaxF32 (FormI.ofWord_toWord f _))
theorem scanAddI32 (f : FormI) : Statement (.scanAddI32 f) :=
  of_word rfl (by
    show decodeCrew (f.toWord 0x194#10) = _
    unfold decodeCrew
    rw [FormI.opcOf_toWord]
    exact congrArg Instr.scanAddI32 (FormI.ofWord_toWord f _))
theorem scanMinI32 (f : FormI) : Statement (.scanMinI32 f) :=
  of_word rfl (by
    show decodeCrew (f.toWord 0x195#10) = _
    unfold decodeCrew
    rw [FormI.opcOf_toWord]
    exact congrArg Instr.scanMinI32 (FormI.ofWord_toWord f _))
theorem scanMaxI32 (f : FormI) : Statement (.scanMaxI32 f) :=
  of_word rfl (by
    show decodeCrew (f.toWord 0x196#10) = _
    unfold decodeCrew
    rw [FormI.opcOf_toWord]
    exact congrArg Instr.scanMaxI32 (FormI.ofWord_toWord f _))
theorem scanAddF32 (f : FormI) : Statement (.scanAddF32 f) :=
  of_word rfl (by
    show decodeCrew (f.toWord 0x197#10) = _
    unfold decodeCrew
    rw [FormI.opcOf_toWord]
    exact congrArg Instr.scanAddF32 (FormI.ofWord_toWord f _))
theorem ballot (f : FormI) : Statement (.ballot f) :=
  of_word rfl (by
    show decodeCrew (f.toWord 0x198#10) = _
    unfold decodeCrew
    rw [FormI.opcOf_toWord]
    exact congrArg Instr.ballot (FormI.ofWord_toWord f _))
theorem any (f : FormI) : Statement (.any f) :=
  of_word rfl (by
    show decodeCrew (f.toWord 0x199#10) = _
    unfold decodeCrew
    rw [FormI.opcOf_toWord]
    exact congrArg Instr.any (FormI.ofWord_toWord f _))
theorem all (f : FormI) : Statement (.all f) :=
  of_word rfl (by
    show decodeCrew (f.toWord 0x19A#10) = _
    unfold decodeCrew
    rw [FormI.opcOf_toWord]
    exact congrArg Instr.all (FormI.ofWord_toWord f _))
theorem matchLanes (f : FormI) : Statement (.matchLanes f) :=
  of_word rfl (by
    show decodeCrew (f.toWord 0x19B#10) = _
    unfold decodeCrew
    rw [FormI.opcOf_toWord]
    exact congrArg Instr.matchLanes (FormI.ofWord_toWord f _))
theorem topk (f : FormI) : Statement (.topk f) :=
  of_word rfl (by
    show decodeCrew (f.toWord 0x1A0#10) = _
    unfold decodeCrew
    rw [FormI.opcOf_toWord]
    exact congrArg Instr.topk (FormI.ofWord_toWord f _))
theorem bra (f : FormB) : Statement (.bra f) :=
  of_word rfl (by
    show decodeCrew (f.toWord 0x1C0#10) = _
    unfold decodeCrew
    rw [FormB.opcOf_toWord]
    exact congrArg Instr.bra (FormB.ofWord_toWord f _))
theorem brx (f : FormB) : Statement (.brx f) :=
  of_word rfl (by
    show decodeCrew (f.toWord 0x1C1#10) = _
    unfold decodeCrew
    rw [FormB.opcOf_toWord]
    exact congrArg Instr.brx (FormB.ofWord_toWord f _))
theorem call (f : FormB) : Statement (.call f) :=
  of_word rfl (by
    show decodeCrew (f.toWord 0x1C2#10) = _
    unfold decodeCrew
    rw [FormB.opcOf_toWord]
    exact congrArg Instr.call (FormB.ofWord_toWord f _))
theorem callx (f : FormB) : Statement (.callx f) :=
  of_word rfl (by
    show decodeCrew (f.toWord 0x1C3#10) = _
    unfold decodeCrew
    rw [FormB.opcOf_toWord]
    exact congrArg Instr.callx (FormB.ofWord_toWord f _))
theorem ret (f : FormB) : Statement (.ret f) :=
  of_word rfl (by
    show decodeCrew (f.toWord 0x1C4#10) = _
    unfold decodeCrew
    rw [FormB.opcOf_toWord]
    exact congrArg Instr.ret (FormB.ofWord_toWord f _))
theorem join (f : FormS) : Statement (.join f) :=
  of_word rfl (by
    show decodeCrew (f.toWord 0x1C5#10) = _
    unfold decodeCrew
    rw [FormS.opcOf_toWord]
    exact congrArg Instr.join (FormS.ofWord_toWord f _))
theorem exit (f : FormS) : Statement (.exit f) :=
  of_word rfl (by
    show decodeCrew (f.toWord 0x1C6#10) = _
    unfold decodeCrew
    rw [FormS.opcOf_toWord]
    exact congrArg Instr.exit (FormS.ofWord_toWord f _))
theorem loop (f : FormB) : Statement (.loop f) :=
  of_word rfl (by
    show decodeCrew (f.toWord 0x1C7#10) = _
    unfold decodeCrew
    rw [FormB.opcOf_toWord]
    exact congrArg Instr.loop (FormB.ofWord_toWord f _))
theorem pause (f : FormI) : Statement (.pause f) :=
  of_word rfl (by
    show decodeCrew (f.toWord 0x1C8#10) = _
    unfold decodeCrew
    rw [FormI.opcOf_toWord]
    exact congrArg Instr.pause (FormI.ofWord_toWord f _))
theorem nop (f : FormS) : Statement (.nop f) :=
  of_word rfl (by
    show decodeCrew (f.toWord 0x1C9#10) = _
    unfold decodeCrew
    rw [FormS.opcOf_toWord]
    exact congrArg Instr.nop (FormS.ofWord_toWord f _))
theorem ldN8 (f : FormM) : Statement (.ldN8 f) :=
  of_word rfl (by
    show decodeCrew (f.toWord 0x200#10) = _
    unfold decodeCrew
    rw [FormM.opcOf_toWord]
    exact congrArg Instr.ldN8 (FormM.ofWord_toWord f _))
theorem ldI8 (f : FormM) : Statement (.ldI8 f) :=
  of_word rfl (by
    show decodeCrew (f.toWord 0x201#10) = _
    unfold decodeCrew
    rw [FormM.opcOf_toWord]
    exact congrArg Instr.ldI8 (FormM.ofWord_toWord f _))
theorem ldN16 (f : FormM) : Statement (.ldN16 f) :=
  of_word rfl (by
    show decodeCrew (f.toWord 0x202#10) = _
    unfold decodeCrew
    rw [FormM.opcOf_toWord]
    exact congrArg Instr.ldN16 (FormM.ofWord_toWord f _))
theorem ldI16 (f : FormM) : Statement (.ldI16 f) :=
  of_word rfl (by
    show decodeCrew (f.toWord 0x203#10) = _
    unfold decodeCrew
    rw [FormM.opcOf_toWord]
    exact congrArg Instr.ldI16 (FormM.ofWord_toWord f _))
theorem ldB32 (f : FormM) : Statement (.ldB32 f) :=
  of_word rfl (by
    show decodeCrew (f.toWord 0x204#10) = _
    unfold decodeCrew
    rw [FormM.opcOf_toWord]
    exact congrArg Instr.ldB32 (FormM.ofWord_toWord f _))
theorem ldB64 (f : FormM) : Statement (.ldB64 f) :=
  of_word rfl (by
    show decodeCrew (f.toWord 0x205#10) = _
    unfold decodeCrew
    rw [FormM.opcOf_toWord]
    exact congrArg Instr.ldB64 (FormM.ofWord_toWord f _))
theorem ldB128 (f : FormM) : Statement (.ldB128 f) :=
  of_word rfl (by
    show decodeCrew (f.toWord 0x206#10) = _
    unfold decodeCrew
    rw [FormM.opcOf_toWord]
    exact congrArg Instr.ldB128 (FormM.ofWord_toWord f _))
theorem ldAcqB32 (f : FormM) : Statement (.ldAcqB32 f) :=
  of_word rfl (by
    show decodeCrew (f.toWord 0x207#10) = _
    unfold decodeCrew
    rw [FormM.opcOf_toWord]
    exact congrArg Instr.ldAcqB32 (FormM.ofWord_toWord f _))
theorem ldAcqB64 (f : FormM) : Statement (.ldAcqB64 f) :=
  of_word rfl (by
    show decodeCrew (f.toWord 0x208#10) = _
    unfold decodeCrew
    rw [FormM.opcOf_toWord]
    exact congrArg Instr.ldAcqB64 (FormM.ofWord_toWord f _))
theorem stB8 (f : FormM) : Statement (.stB8 f) :=
  of_word rfl (by
    show decodeCrew (f.toWord 0x210#10) = _
    unfold decodeCrew
    rw [FormM.opcOf_toWord]
    exact congrArg Instr.stB8 (FormM.ofWord_toWord f _))
theorem stB16 (f : FormM) : Statement (.stB16 f) :=
  of_word rfl (by
    show decodeCrew (f.toWord 0x211#10) = _
    unfold decodeCrew
    rw [FormM.opcOf_toWord]
    exact congrArg Instr.stB16 (FormM.ofWord_toWord f _))
theorem stB32 (f : FormM) : Statement (.stB32 f) :=
  of_word rfl (by
    show decodeCrew (f.toWord 0x212#10) = _
    unfold decodeCrew
    rw [FormM.opcOf_toWord]
    exact congrArg Instr.stB32 (FormM.ofWord_toWord f _))
theorem stB64 (f : FormM) : Statement (.stB64 f) :=
  of_word rfl (by
    show decodeCrew (f.toWord 0x213#10) = _
    unfold decodeCrew
    rw [FormM.opcOf_toWord]
    exact congrArg Instr.stB64 (FormM.ofWord_toWord f _))
theorem stB128 (f : FormM) : Statement (.stB128 f) :=
  of_word rfl (by
    show decodeCrew (f.toWord 0x214#10) = _
    unfold decodeCrew
    rw [FormM.opcOf_toWord]
    exact congrArg Instr.stB128 (FormM.ofWord_toWord f _))
theorem stRelB32 (f : FormM) : Statement (.stRelB32 f) :=
  of_word rfl (by
    show decodeCrew (f.toWord 0x215#10) = _
    unfold decodeCrew
    rw [FormM.opcOf_toWord]
    exact congrArg Instr.stRelB32 (FormM.ofWord_toWord f _))
theorem stRelB64 (f : FormM) : Statement (.stRelB64 f) :=
  of_word rfl (by
    show decodeCrew (f.toWord 0x216#10) = _
    unfold decodeCrew
    rw [FormM.opcOf_toWord]
    exact congrArg Instr.stRelB64 (FormM.ofWord_toWord f _))
theorem stmask (f : FormM) : Statement (.stmask f) :=
  of_word rfl (by
    show decodeCrew (f.toWord 0x217#10) = _
    unfold decodeCrew
    rw [FormM.opcOf_toWord]
    exact congrArg Instr.stmask (FormM.ofWord_toWord f _))
theorem pfx (f : FormM) : Statement (.pfx f) :=
  of_word rfl (by
    show decodeCrew (f.toWord 0x218#10) = _
    unfold decodeCrew
    rw [FormM.opcOf_toWord]
    exact congrArg Instr.pfx (FormM.ofWord_toWord f _))
theorem pfd (f : FormM) : Statement (.pfd f) :=
  of_word rfl (by
    show decodeCrew (f.toWord 0x219#10) = _
    unfold decodeCrew
    rw [FormM.opcOf_toWord]
    exact congrArg Instr.pfd (FormM.ofWord_toWord f _))
theorem pcancel (f : FormR) : Statement (.pcancel f) :=
  of_word rfl (by
    show decodeCrew (f.toWord 0x21A#10) = _
    unfold decodeCrew
    rw [FormR.opcOf_toWord]
    exact congrArg Instr.pcancel (FormR.ofWord_toWord f _))
theorem ldN8O64 (f : FormM) : Statement (.ldN8O64 f) :=
  of_word rfl (by
    show decodeCrew (f.toWord 0x220#10) = _
    unfold decodeCrew
    rw [FormM.opcOf_toWord]
    exact congrArg Instr.ldN8O64 (FormM.ofWord_toWord f _))
theorem ldI8O64 (f : FormM) : Statement (.ldI8O64 f) :=
  of_word rfl (by
    show decodeCrew (f.toWord 0x221#10) = _
    unfold decodeCrew
    rw [FormM.opcOf_toWord]
    exact congrArg Instr.ldI8O64 (FormM.ofWord_toWord f _))
theorem ldN16O64 (f : FormM) : Statement (.ldN16O64 f) :=
  of_word rfl (by
    show decodeCrew (f.toWord 0x222#10) = _
    unfold decodeCrew
    rw [FormM.opcOf_toWord]
    exact congrArg Instr.ldN16O64 (FormM.ofWord_toWord f _))
theorem ldI16O64 (f : FormM) : Statement (.ldI16O64 f) :=
  of_word rfl (by
    show decodeCrew (f.toWord 0x223#10) = _
    unfold decodeCrew
    rw [FormM.opcOf_toWord]
    exact congrArg Instr.ldI16O64 (FormM.ofWord_toWord f _))
theorem ldB32O64 (f : FormM) : Statement (.ldB32O64 f) :=
  of_word rfl (by
    show decodeCrew (f.toWord 0x224#10) = _
    unfold decodeCrew
    rw [FormM.opcOf_toWord]
    exact congrArg Instr.ldB32O64 (FormM.ofWord_toWord f _))
theorem ldB64O64 (f : FormM) : Statement (.ldB64O64 f) :=
  of_word rfl (by
    show decodeCrew (f.toWord 0x225#10) = _
    unfold decodeCrew
    rw [FormM.opcOf_toWord]
    exact congrArg Instr.ldB64O64 (FormM.ofWord_toWord f _))
theorem ldB128O64 (f : FormM) : Statement (.ldB128O64 f) :=
  of_word rfl (by
    show decodeCrew (f.toWord 0x226#10) = _
    unfold decodeCrew
    rw [FormM.opcOf_toWord]
    exact congrArg Instr.ldB128O64 (FormM.ofWord_toWord f _))
theorem ldAcqB32O64 (f : FormM) : Statement (.ldAcqB32O64 f) :=
  of_word rfl (by
    show decodeCrew (f.toWord 0x227#10) = _
    unfold decodeCrew
    rw [FormM.opcOf_toWord]
    exact congrArg Instr.ldAcqB32O64 (FormM.ofWord_toWord f _))
theorem ldAcqB64O64 (f : FormM) : Statement (.ldAcqB64O64 f) :=
  of_word rfl (by
    show decodeCrew (f.toWord 0x228#10) = _
    unfold decodeCrew
    rw [FormM.opcOf_toWord]
    exact congrArg Instr.ldAcqB64O64 (FormM.ofWord_toWord f _))
theorem stB8O64 (f : FormM) : Statement (.stB8O64 f) :=
  of_word rfl (by
    show decodeCrew (f.toWord 0x230#10) = _
    unfold decodeCrew
    rw [FormM.opcOf_toWord]
    exact congrArg Instr.stB8O64 (FormM.ofWord_toWord f _))
theorem stB16O64 (f : FormM) : Statement (.stB16O64 f) :=
  of_word rfl (by
    show decodeCrew (f.toWord 0x231#10) = _
    unfold decodeCrew
    rw [FormM.opcOf_toWord]
    exact congrArg Instr.stB16O64 (FormM.ofWord_toWord f _))
theorem stB32O64 (f : FormM) : Statement (.stB32O64 f) :=
  of_word rfl (by
    show decodeCrew (f.toWord 0x232#10) = _
    unfold decodeCrew
    rw [FormM.opcOf_toWord]
    exact congrArg Instr.stB32O64 (FormM.ofWord_toWord f _))
theorem stB64O64 (f : FormM) : Statement (.stB64O64 f) :=
  of_word rfl (by
    show decodeCrew (f.toWord 0x233#10) = _
    unfold decodeCrew
    rw [FormM.opcOf_toWord]
    exact congrArg Instr.stB64O64 (FormM.ofWord_toWord f _))
theorem stB128O64 (f : FormM) : Statement (.stB128O64 f) :=
  of_word rfl (by
    show decodeCrew (f.toWord 0x234#10) = _
    unfold decodeCrew
    rw [FormM.opcOf_toWord]
    exact congrArg Instr.stB128O64 (FormM.ofWord_toWord f _))
theorem stRelB32O64 (f : FormM) : Statement (.stRelB32O64 f) :=
  of_word rfl (by
    show decodeCrew (f.toWord 0x235#10) = _
    unfold decodeCrew
    rw [FormM.opcOf_toWord]
    exact congrArg Instr.stRelB32O64 (FormM.ofWord_toWord f _))
theorem stRelB64O64 (f : FormM) : Statement (.stRelB64O64 f) :=
  of_word rfl (by
    show decodeCrew (f.toWord 0x236#10) = _
    unfold decodeCrew
    rw [FormM.opcOf_toWord]
    exact congrArg Instr.stRelB64O64 (FormM.ofWord_toWord f _))
theorem stmaskO64 (f : FormM) : Statement (.stmaskO64 f) :=
  of_word rfl (by
    show decodeCrew (f.toWord 0x237#10) = _
    unfold decodeCrew
    rw [FormM.opcOf_toWord]
    exact congrArg Instr.stmaskO64 (FormM.ofWord_toWord f _))
theorem pfxO64 (f : FormM) : Statement (.pfxO64 f) :=
  of_word rfl (by
    show decodeCrew (f.toWord 0x238#10) = _
    unfold decodeCrew
    rw [FormM.opcOf_toWord]
    exact congrArg Instr.pfxO64 (FormM.ofWord_toWord f _))
theorem pfdO64 (f : FormM) : Statement (.pfdO64 f) :=
  of_word rfl (by
    show decodeCrew (f.toWord 0x239#10) = _
    unfold decodeCrew
    rw [FormM.opcOf_toWord]
    exact congrArg Instr.pfdO64 (FormM.ofWord_toWord f _))
theorem atomAddI32 (f : FormM) : Statement (.atomAddI32 f) :=
  of_word rfl (by
    show decodeCrew (f.toWord 0x240#10) = _
    unfold decodeCrew
    rw [FormM.opcOf_toWord]
    exact congrArg Instr.atomAddI32 (FormM.ofWord_toWord f _))
theorem atomAddF32 (f : FormM) : Statement (.atomAddF32 f) :=
  of_word rfl (by
    show decodeCrew (f.toWord 0x241#10) = _
    unfold decodeCrew
    rw [FormM.opcOf_toWord]
    exact congrArg Instr.atomAddF32 (FormM.ofWord_toWord f _))
theorem atomMinI32 (f : FormM) : Statement (.atomMinI32 f) :=
  of_word rfl (by
    show decodeCrew (f.toWord 0x242#10) = _
    unfold decodeCrew
    rw [FormM.opcOf_toWord]
    exact congrArg Instr.atomMinI32 (FormM.ofWord_toWord f _))
theorem atomMaxI32 (f : FormM) : Statement (.atomMaxI32 f) :=
  of_word rfl (by
    show decodeCrew (f.toWord 0x243#10) = _
    unfold decodeCrew
    rw [FormM.opcOf_toWord]
    exact congrArg Instr.atomMaxI32 (FormM.ofWord_toWord f _))
theorem atomMinN32 (f : FormM) : Statement (.atomMinN32 f) :=
  of_word rfl (by
    show decodeCrew (f.toWord 0x244#10) = _
    unfold decodeCrew
    rw [FormM.opcOf_toWord]
    exact congrArg Instr.atomMinN32 (FormM.ofWord_toWord f _))
theorem atomMaxN32 (f : FormM) : Statement (.atomMaxN32 f) :=
  of_word rfl (by
    show decodeCrew (f.toWord 0x245#10) = _
    unfold decodeCrew
    rw [FormM.opcOf_toWord]
    exact congrArg Instr.atomMaxN32 (FormM.ofWord_toWord f _))
theorem atomAndB32 (f : FormM) : Statement (.atomAndB32 f) :=
  of_word rfl (by
    show decodeCrew (f.toWord 0x246#10) = _
    unfold decodeCrew
    rw [FormM.opcOf_toWord]
    exact congrArg Instr.atomAndB32 (FormM.ofWord_toWord f _))
theorem atomOrB32 (f : FormM) : Statement (.atomOrB32 f) :=
  of_word rfl (by
    show decodeCrew (f.toWord 0x247#10) = _
    unfold decodeCrew
    rw [FormM.opcOf_toWord]
    exact congrArg Instr.atomOrB32 (FormM.ofWord_toWord f _))
theorem atomXorB32 (f : FormM) : Statement (.atomXorB32 f) :=
  of_word rfl (by
    show decodeCrew (f.toWord 0x248#10) = _
    unfold decodeCrew
    rw [FormM.opcOf_toWord]
    exact congrArg Instr.atomXorB32 (FormM.ofWord_toWord f _))
theorem atomExchB32 (f : FormM) : Statement (.atomExchB32 f) :=
  of_word rfl (by
    show decodeCrew (f.toWord 0x249#10) = _
    unfold decodeCrew
    rw [FormM.opcOf_toWord]
    exact congrArg Instr.atomExchB32 (FormM.ofWord_toWord f _))
theorem atomCasB32 (f : FormM) : Statement (.atomCasB32 f) :=
  of_word rfl (by
    show decodeCrew (f.toWord 0x24A#10) = _
    unfold decodeCrew
    rw [FormM.opcOf_toWord]
    exact congrArg Instr.atomCasB32 (FormM.ofWord_toWord f _))
theorem atomAddI64 (f : FormM) : Statement (.atomAddI64 f) :=
  of_word rfl (by
    show decodeCrew (f.toWord 0x24B#10) = _
    unfold decodeCrew
    rw [FormM.opcOf_toWord]
    exact congrArg Instr.atomAddI64 (FormM.ofWord_toWord f _))
theorem atomExchB64 (f : FormM) : Statement (.atomExchB64 f) :=
  of_word rfl (by
    show decodeCrew (f.toWord 0x24C#10) = _
    unfold decodeCrew
    rw [FormM.opcOf_toWord]
    exact congrArg Instr.atomExchB64 (FormM.ofWord_toWord f _))
theorem atomCasB64 (f : FormM) : Statement (.atomCasB64 f) :=
  of_word rfl (by
    show decodeCrew (f.toWord 0x24D#10) = _
    unfold decodeCrew
    rw [FormM.opcOf_toWord]
    exact congrArg Instr.atomCasB64 (FormM.ofWord_toWord f _))
theorem atomAddBf16x2 (f : FormM) : Statement (.atomAddBf16x2 f) :=
  of_word rfl (by
    show decodeCrew (f.toWord 0x24E#10) = _
    unfold decodeCrew
    rw [FormM.opcOf_toWord]
    exact congrArg Instr.atomAddBf16x2 (FormM.ofWord_toWord f _))
theorem fence (f : FormS) : Statement (.fence f) :=
  of_word rfl (by
    show decodeCrew (f.toWord 0x250#10) = _
    unfold decodeCrew
    rw [FormS.opcOf_toWord]
    exact congrArg Instr.fence (FormS.ofWord_toWord f _))
theorem bankopAddI32 (f : FormM) : Statement (.bankopAddI32 f) :=
  of_word rfl (by
    show decodeCrew (f.toWord 0x258#10) = _
    unfold decodeCrew
    rw [FormM.opcOf_toWord]
    exact congrArg Instr.bankopAddI32 (FormM.ofWord_toWord f _))
theorem bankopAddF32 (f : FormM) : Statement (.bankopAddF32 f) :=
  of_word rfl (by
    show decodeCrew (f.toWord 0x259#10) = _
    unfold decodeCrew
    rw [FormM.opcOf_toWord]
    exact congrArg Instr.bankopAddF32 (FormM.ofWord_toWord f _))
theorem bankopMinF32 (f : FormM) : Statement (.bankopMinF32 f) :=
  of_word rfl (by
    show decodeCrew (f.toWord 0x25A#10) = _
    unfold decodeCrew
    rw [FormM.opcOf_toWord]
    exact congrArg Instr.bankopMinF32 (FormM.ofWord_toWord f _))
theorem bankopMaxF32 (f : FormM) : Statement (.bankopMaxF32 f) :=
  of_word rfl (by
    show decodeCrew (f.toWord 0x25B#10) = _
    unfold decodeCrew
    rw [FormM.opcOf_toWord]
    exact congrArg Instr.bankopMaxF32 (FormM.ofWord_toWord f _))
theorem bankopMulF32 (f : FormM) : Statement (.bankopMulF32 f) :=
  of_word rfl (by
    show decodeCrew (f.toWord 0x25C#10) = _
    unfold decodeCrew
    rw [FormM.opcOf_toWord]
    exact congrArg Instr.bankopMulF32 (FormM.ofWord_toWord f _))
theorem cp (f : FormX) : Statement (.cp f) :=
  of_word rfl (by
    show decodeCrew (f.toWord 0x280#10) = _
    unfold decodeCrew
    rw [FormX.opcOf_toWord]
    exact congrArg Instr.cp (FormX.ofWord_toWord f _))
theorem cp2d (f : FormX) : Statement (.cp2d f) :=
  of_word rfl (by
    show decodeCrew (f.toWord 0x281#10) = _
    unfold decodeCrew
    rw [FormX.opcOf_toWord]
    exact congrArg Instr.cp2d (FormX.ofWord_toWord f _))
theorem cp3d (f : FormX) : Statement (.cp3d f) :=
  of_word rfl (by
    show decodeCrew (f.toWord 0x282#10) = _
    unfold decodeCrew
    rw [FormX.opcOf_toWord]
    exact congrArg Instr.cp3d (FormX.ofWord_toWord f _))
theorem cpScale (f : FormX) : Statement (.cpScale f) :=
  of_word rfl (by
    show decodeCrew (f.toWord 0x283#10) = _
    unfold decodeCrew
    rw [FormX.opcOf_toWord]
    exact congrArg Instr.cpScale (FormX.ofWord_toWord f _))
theorem gather (f : FormX) : Statement (.gather f) :=
  of_word rfl (by
    show decodeCrew (f.toWord 0x284#10) = _
    unfold decodeCrew
    rw [FormX.opcOf_toWord]
    exact congrArg Instr.gather (FormX.ofWord_toWord f _))
theorem scatter (f : FormX) : Statement (.scatter f) :=
  of_word rfl (by
    show decodeCrew (f.toWord 0x285#10) = _
    unfold decodeCrew
    rw [FormX.opcOf_toWord]
    exact congrArg Instr.scatter (FormX.ofWord_toWord f _))
theorem waitcCp (f : FormI) : Statement (.waitcCp f) :=
  of_word rfl (by
    show decodeCrew (f.toWord 0x288#10) = _
    unfold decodeCrew
    rw [FormI.opcOf_toWord]
    exact congrArg Instr.waitcCp (FormI.ofWord_toWord f _))
theorem waitcGa (f : FormI) : Statement (.waitcGa f) :=
  of_word rfl (by
    show decodeCrew (f.toWord 0x289#10) = _
    unfold decodeCrew
    rw [FormI.opcOf_toWord]
    exact congrArg Instr.waitcGa (FormI.ofWord_toWord f _))
theorem waitcMx (f : FormI) : Statement (.waitcMx f) :=
  of_word rfl (by
    show decodeCrew (f.toWord 0x28A#10) = _
    unfold decodeCrew
    rw [FormI.opcOf_toWord]
    exact congrArg Instr.waitcMx (FormI.ofWord_toWord f _))
theorem waitcFb (f : FormI) : Statement (.waitcFb f) :=
  of_word rfl (by
    show decodeCrew (f.toWord 0x28B#10) = _
    unfold decodeCrew
    rw [FormI.opcOf_toWord]
    exact congrArg Instr.waitcFb (FormI.ofWord_toWord f _))
theorem arrinit (f : FormI) : Statement (.arrinit f) :=
  of_word rfl (by
    show decodeCrew (f.toWord 0x290#10) = _
    unfold decodeCrew
    rw [FormI.opcOf_toWord]
    exact congrArg Instr.arrinit (FormI.ofWord_toWord f _))
theorem arrw (f : FormI) : Statement (.arrw f) :=
  of_word rfl (by
    show decodeCrew (f.toWord 0x291#10) = _
    unfold decodeCrew
    rw [FormI.opcOf_toWord]
    exact congrArg Instr.arrw (FormI.ofWord_toWord f _))
theorem arrrd (f : FormI) : Statement (.arrrd f) :=
  of_word rfl (by
    show decodeCrew (f.toWord 0x292#10) = _
    unfold decodeCrew
    rw [FormI.opcOf_toWord]
    exact congrArg Instr.arrrd (FormI.ofWord_toWord f _))
theorem tsig (f : FormM) : Statement (.tsig f) :=
  of_word rfl (by
    show decodeCrew (f.toWord 0x298#10) = _
    unfold decodeCrew
    rw [FormM.opcOf_toWord]
    exact congrArg Instr.tsig (FormM.ofWord_toWord f _))
theorem fput (f : FormX) : Statement (.fput f) :=
  of_word rfl (by
    show decodeCrew (f.toWord 0x2C0#10) = _
    unfold decodeCrew
    rw [FormX.opcOf_toWord]
    exact congrArg Instr.fput (FormX.ofWord_toWord f _))
theorem fget (f : FormX) : Statement (.fget f) :=
  of_word rfl (by
    show decodeCrew (f.toWord 0x2C1#10) = _
    unfold decodeCrew
    rw [FormX.opcOf_toWord]
    exact congrArg Instr.fget (FormX.ofWord_toWord f _))
theorem fatom (f : FormX) : Statement (.fatom f) :=
  of_word rfl (by
    show decodeCrew (f.toWord 0x2C2#10) = _
    unfold decodeCrew
    rw [FormX.opcOf_toWord]
    exact congrArg Instr.fatom (FormX.ofWord_toWord f _))
theorem fmark (f : FormS) : Statement (.fmark f) :=
  of_word rfl (by
    show decodeCrew (f.toWord 0x2C3#10) = _
    unfold decodeCrew
    rw [FormS.opcOf_toWord]
    exact congrArg Instr.fmark (FormS.ofWord_toWord f _))
theorem fldred (f : FormX) : Statement (.fldred f) :=
  of_word rfl (by
    show decodeCrew (f.toWord 0x2C4#10) = _
    unfold decodeCrew
    rw [FormX.opcOf_toWord]
    exact congrArg Instr.fldred (FormX.ofWord_toWord f _))
theorem fstmc (f : FormX) : Statement (.fstmc f) :=
  of_word rfl (by
    show decodeCrew (f.toWord 0x2C5#10) = _
    unfold decodeCrew
    rw [FormX.opcOf_toWord]
    exact congrArg Instr.fstmc (FormX.ofWord_toWord f _))
theorem tshape (f : FormT) : Statement (.tshape f) :=
  of_word rfl (by
    show decodeCrew (f.toWord 0x300#10) = _
    unfold decodeCrew
    rw [FormT.opcOf_toWord]
    exact congrArg Instr.tshape (FormT.ofWord_toWord f _))
theorem mmaE4m3 (f : FormT) : Statement (.mmaE4m3 f) :=
  of_word rfl (by
    show decodeCrew (f.toWord 0x308#10) = _
    unfold decodeCrew
    rw [FormT.opcOf_toWord]
    exact congrArg Instr.mmaE4m3 (FormT.ofWord_toWord f _))
theorem mmaE5m2 (f : FormT) : Statement (.mmaE5m2 f) :=
  of_word rfl (by
    show decodeCrew (f.toWord 0x309#10) = _
    unfold decodeCrew
    rw [FormT.opcOf_toWord]
    exact congrArg Instr.mmaE5m2 (FormT.ofWord_toWord f _))
theorem mmaE4e5 (f : FormT) : Statement (.mmaE4e5 f) :=
  of_word rfl (by
    show decodeCrew (f.toWord 0x30A#10) = _
    unfold decodeCrew
    rw [FormT.opcOf_toWord]
    exact congrArg Instr.mmaE4e5 (FormT.ofWord_toWord f _))
theorem mmaE5e4 (f : FormT) : Statement (.mmaE5e4 f) :=
  of_word rfl (by
    show decodeCrew (f.toWord 0x30B#10) = _
    unfold decodeCrew
    rw [FormT.opcOf_toWord]
    exact congrArg Instr.mmaE5e4 (FormT.ofWord_toWord f _))
theorem mmaE2m1 (f : FormT) : Statement (.mmaE2m1 f) :=
  of_word rfl (by
    show decodeCrew (f.toWord 0x30C#10) = _
    unfold decodeCrew
    rw [FormT.opcOf_toWord]
    exact congrArg Instr.mmaE2m1 (FormT.ofWord_toWord f _))
theorem mmaBf16 (f : FormT) : Statement (.mmaBf16 f) :=
  of_word rfl (by
    show decodeCrew (f.toWord 0x30D#10) = _
    unfold decodeCrew
    rw [FormT.opcOf_toWord]
    exact congrArg Instr.mmaBf16 (FormT.ofWord_toWord f _))
theorem mmaF16 (f : FormT) : Statement (.mmaF16 f) :=
  of_word rfl (by
    show decodeCrew (f.toWord 0x30E#10) = _
    unfold decodeCrew
    rw [FormT.opcOf_toWord]
    exact congrArg Instr.mmaF16 (FormT.ofWord_toWord f _))
theorem mmaI8 (f : FormT) : Statement (.mmaI8 f) :=
  of_word rfl (by
    show decodeCrew (f.toWord 0x30F#10) = _
    unfold decodeCrew
    rw [FormT.opcOf_toWord]
    exact congrArg Instr.mmaI8 (FormT.ofWord_toWord f _))
theorem mmaT5 (f : FormT) : Statement (.mmaT5 f) :=
  of_word rfl (by
    show decodeCrew (f.toWord 0x310#10) = _
    unfold decodeCrew
    rw [FormT.opcOf_toWord]
    exact congrArg Instr.mmaT5 (FormT.ofWord_toWord f _))
theorem mmasE4m3 (f : FormT) : Statement (.mmasE4m3 f) :=
  of_word rfl (by
    show decodeCrew (f.toWord 0x318#10) = _
    unfold decodeCrew
    rw [FormT.opcOf_toWord]
    exact congrArg Instr.mmasE4m3 (FormT.ofWord_toWord f _))
theorem mmasE5m2 (f : FormT) : Statement (.mmasE5m2 f) :=
  of_word rfl (by
    show decodeCrew (f.toWord 0x319#10) = _
    unfold decodeCrew
    rw [FormT.opcOf_toWord]
    exact congrArg Instr.mmasE5m2 (FormT.ofWord_toWord f _))
theorem mmasE2m1 (f : FormT) : Statement (.mmasE2m1 f) :=
  of_word rfl (by
    show decodeCrew (f.toWord 0x31A#10) = _
    unfold decodeCrew
    rw [FormT.opcOf_toWord]
    exact congrArg Instr.mmasE2m1 (FormT.ofWord_toWord f _))
theorem mmasBf16 (f : FormT) : Statement (.mmasBf16 f) :=
  of_word rfl (by
    show decodeCrew (f.toWord 0x31B#10) = _
    unfold decodeCrew
    rw [FormT.opcOf_toWord]
    exact congrArg Instr.mmasBf16 (FormT.ofWord_toWord f _))
theorem mmasF16 (f : FormT) : Statement (.mmasF16 f) :=
  of_word rfl (by
    show decodeCrew (f.toWord 0x31C#10) = _
    unfold decodeCrew
    rw [FormT.opcOf_toWord]
    exact congrArg Instr.mmasF16 (FormT.ofWord_toWord f _))
theorem mmasI8 (f : FormT) : Statement (.mmasI8 f) :=
  of_word rfl (by
    show decodeCrew (f.toWord 0x31D#10) = _
    unfold decodeCrew
    rw [FormT.opcOf_toWord]
    exact congrArg Instr.mmasI8 (FormT.ofWord_toWord f _))
theorem msacc (f : FormT) : Statement (.msacc f) :=
  of_word rfl (by
    show decodeCrew (f.toWord 0x320#10) = _
    unfold decodeCrew
    rw [FormT.opcOf_toWord]
    exact congrArg Instr.msacc (FormT.ofWord_toWord f _))
theorem mzero (f : FormT) : Statement (.mzero f) :=
  of_word rfl (by
    show decodeCrew (f.toWord 0x321#10) = _
    unfold decodeCrew
    rw [FormT.opcOf_toWord]
    exact congrArg Instr.mzero (FormT.ofWord_toWord f _))
theorem acca (f : FormI) : Statement (.acca f) :=
  of_word rfl (by
    show decodeCrew (f.toWord 0x322#10) = _
    unfold decodeCrew
    rw [FormI.opcOf_toWord]
    exact congrArg Instr.acca (FormI.ofWord_toWord f _))
theorem accf (f : FormI) : Statement (.accf f) :=
  of_word rfl (by
    show decodeCrew (f.toWord 0x323#10) = _
    unfold decodeCrew
    rw [FormI.opcOf_toWord]
    exact congrArg Instr.accf (FormI.ofWord_toWord f _))
theorem accld (f : FormT) : Statement (.accld f) :=
  of_word rfl (by
    show decodeCrew (f.toWord 0x324#10) = _
    unfold decodeCrew
    rw [FormT.opcOf_toWord]
    exact congrArg Instr.accld (FormT.ofWord_toWord f _))
theorem accst (f : FormT) : Statement (.accst f) :=
  of_word rfl (by
    show decodeCrew (f.toWord 0x325#10) = _
    unfold decodeCrew
    rw [FormT.opcOf_toWord]
    exact congrArg Instr.accst (FormT.ofWord_toWord f _))
theorem bucket (f : FormR) : Statement (.bucket f) :=
  of_word rfl (by
    show decodeCrew (f.toWord 0x328#10) = _
    unfold decodeCrew
    rw [FormR.opcOf_toWord]
    exact congrArg Instr.bucket (FormR.ofWord_toWord f _))
theorem bar (f : FormS) : Statement (.bar f) :=
  of_word rfl (by
    show decodeCrew (f.toWord 0x340#10) = _
    unfold decodeCrew
    rw [FormS.opcOf_toWord]
    exact congrArg Instr.bar (FormS.ofWord_toWord f _))
theorem barArrive (f : FormS) : Statement (.barArrive f) :=
  of_word rfl (by
    show decodeCrew (f.toWord 0x341#10) = _
    unfold decodeCrew
    rw [FormS.opcOf_toWord]
    exact congrArg Instr.barArrive (FormS.ofWord_toWord f _))
theorem barWait (f : FormS) : Statement (.barWait f) :=
  of_word rfl (by
    show decodeCrew (f.toWord 0x342#10) = _
    unfold decodeCrew
    rw [FormS.opcOf_toWord]
    exact congrArg Instr.barWait (FormS.ofWord_toWord f _))
theorem cbar (f : FormS) : Statement (.cbar f) :=
  of_word rfl (by
    show decodeCrew (f.toWord 0x343#10) = _
    unfold decodeCrew
    rw [FormS.opcOf_toWord]
    exact congrArg Instr.cbar (FormS.ofWord_toWord f _))
theorem gate (f : FormS) : Statement (.gate f) :=
  of_word rfl (by
    show decodeCrew (f.toWord 0x348#10) = _
    unfold decodeCrew
    rw [FormS.opcOf_toWord]
    exact congrArg Instr.gate (FormS.ofWord_toWord f _))
theorem gret (f : FormS) : Statement (.gret f) :=
  of_word rfl (by
    show decodeCrew (f.toWord 0x349#10) = _
    unfold decodeCrew
    rw [FormS.opcOf_toWord]
    exact congrArg Instr.gret (FormS.ofWord_toWord f _))
theorem trap (f : FormS) : Statement (.trap f) :=
  of_word rfl (by
    show decodeCrew (f.toWord 0x350#10) = _
    unfold decodeCrew
    rw [FormS.opcOf_toWord]
    exact congrArg Instr.trap (FormS.ofWord_toWord f _))
theorem tret (f : FormS) : Statement (.tret f) :=
  of_word rfl (by
    show decodeCrew (f.toWord 0x351#10) = _
    unfold decodeCrew
    rw [FormS.opcOf_toWord]
    exact congrArg Instr.tret (FormS.ofWord_toWord f _))
theorem brk (f : FormS) : Statement (.brk f) :=
  of_word rfl (by
    show decodeCrew (f.toWord 0x352#10) = _
    unfold decodeCrew
    rw [FormS.opcOf_toWord]
    exact congrArg Instr.brk (FormS.ofWord_toWord f _))
theorem ifence (f : FormS) : Statement (.ifence f) :=
  of_word rfl (by
    show decodeCrew (f.toWord 0x353#10) = _
    unfold decodeCrew
    rw [FormS.opcOf_toWord]
    exact congrArg Instr.ifence (FormS.ofWord_toWord f _))
theorem gets (f : FormS) : Statement (.gets f) :=
  of_word rfl (by
    show decodeCrew (f.toWord 0x358#10) = _
    unfold decodeCrew
    rw [FormS.opcOf_toWord]
    exact congrArg Instr.gets (FormS.ofWord_toWord f _))
theorem sets (f : FormS) : Statement (.sets f) :=
  of_word rfl (by
    show decodeCrew (f.toWord 0x359#10) = _
    unfold decodeCrew
    rw [FormS.opcOf_toWord]
    exact congrArg Instr.sets (FormS.ofWord_toWord f _))
theorem launch (f : FormS) : Statement (.launch f) :=
  of_word rfl (by
    show decodeCrew (f.toWord 0x360#10) = _
    unfold decodeCrew
    rw [FormS.opcOf_toWord]
    exact congrArg Instr.launch (FormS.ofWord_toWord f _))
theorem yield (f : FormS) : Statement (.yield f) :=
  of_word rfl (by
    show decodeCrew (f.toWord 0x361#10) = _
    unfold decodeCrew
    rw [FormS.opcOf_toWord]
    exact congrArg Instr.yield (FormS.ofWord_toWord f _))
theorem getsp (f : FormS) : Statement (.getsp f) :=
  of_word rfl (by
    show decodeCrew (f.toWord 0x380#10) = _
    unfold decodeCrew
    rw [FormS.opcOf_toWord]
    exact congrArg Instr.getsp (FormS.ofWord_toWord f _))
theorem setsp (f : FormS) : Statement (.setsp f) :=
  of_word rfl (by
    show decodeCrew (f.toWord 0x381#10) = _
    unfold decodeCrew
    rw [FormS.opcOf_toWord]
    exact congrArg Instr.setsp (FormS.ofWord_toWord f _))
theorem icinv (f : FormS) : Statement (.icinv f) :=
  of_word rfl (by
    show decodeCrew (f.toWord 0x388#10) = _
    unfold decodeCrew
    rw [FormS.opcOf_toWord]
    exact congrArg Instr.icinv (FormS.ofWord_toWord f _))
theorem cwb (f : FormS) : Statement (.cwb f) :=
  of_word rfl (by
    show decodeCrew (f.toWord 0x389#10) = _
    unfold decodeCrew
    rw [FormS.opcOf_toWord]
    exact congrArg Instr.cwb (FormS.ofWord_toWord f _))
theorem cinv (f : FormS) : Statement (.cinv f) :=
  of_word rfl (by
    show decodeCrew (f.toWord 0x38A#10) = _
    unfold decodeCrew
    rw [FormS.opcOf_toWord]
    exact congrArg Instr.cinv (FormS.ofWord_toWord f _))
theorem tlbinvVa (f : FormS) : Statement (.tlbinvVa f) :=
  of_word rfl (by
    show decodeCrew (f.toWord 0x390#10) = _
    unfold decodeCrew
    rw [FormS.opcOf_toWord]
    exact congrArg Instr.tlbinvVa (FormS.ofWord_toWord f _))
theorem tlbinvAsid (f : FormS) : Statement (.tlbinvAsid f) :=
  of_word rfl (by
    show decodeCrew (f.toWord 0x391#10) = _
    unfold decodeCrew
    rw [FormS.opcOf_toWord]
    exact congrArg Instr.tlbinvAsid (FormS.ofWord_toWord f _))
theorem tlbinvAll (f : FormS) : Statement (.tlbinvAll f) :=
  of_word rfl (by
    show decodeCrew (f.toWord 0x392#10) = _
    unfold decodeCrew
    rw [FormS.opcOf_toWord]
    exact congrArg Instr.tlbinvAll (FormS.ofWord_toWord f _))
theorem sigh (f : FormS) : Statement (.sigh f) :=
  of_word rfl (by
    show decodeCrew (f.toWord 0x398#10) = _
    unfold decodeCrew
    rw [FormS.opcOf_toWord]
    exact congrArg Instr.sigh (FormS.ofWord_toWord f _))
theorem coxNop (f : FormCR) : Statement (.coxNop f) :=
  of_word rfl (by
    show decodeCox (f.toWord 0x00#6) = _
    unfold decodeCox
    rw [FormCR.opcode_toWord]
    exact congrArg Instr.coxNop (FormCR.ofWord_toWord f _))
theorem coxHalt (f : FormCR) : Statement (.coxHalt f) :=
  of_word rfl (by
    show decodeCox (f.toWord 0x01#6) = _
    unfold decodeCox
    rw [FormCR.opcode_toWord]
    exact congrArg Instr.coxHalt (FormCR.ofWord_toWord f _))
theorem coxYield (f : FormCR) : Statement (.coxYield f) :=
  of_word rfl (by
    show decodeCox (f.toWord 0x02#6) = _
    unfold decodeCox
    rw [FormCR.opcode_toWord]
    exact congrArg Instr.coxYield (FormCR.ofWord_toWord f _))
theorem coxAbort (f : FormCI) : Statement (.coxAbort f) :=
  of_word rfl (by
    show decodeCox (f.toWord 0x03#6) = _
    unfold decodeCox
    rw [FormCI.opcode_toWord]
    exact congrArg Instr.coxAbort (FormCI.ofWord_toWord f _))
theorem coxTrap (f : FormCI) : Statement (.coxTrap f) :=
  of_word rfl (by
    show decodeCox (f.toWord 0x04#6) = _
    unfold decodeCox
    rw [FormCI.opcode_toWord]
    exact congrArg Instr.coxTrap (FormCI.ofWord_toWord f _))
theorem coxMov (f : FormCR) : Statement (.coxMov f) :=
  of_word rfl (by
    show decodeCox (f.toWord 0x08#6) = _
    unfold decodeCox
    rw [FormCR.opcode_toWord]
    exact congrArg Instr.coxMov (FormCR.ofWord_toWord f _))
theorem coxAdd (f : FormCR) : Statement (.coxAdd f) :=
  of_word rfl (by
    show decodeCox (f.toWord 0x09#6) = _
    unfold decodeCox
    rw [FormCR.opcode_toWord]
    exact congrArg Instr.coxAdd (FormCR.ofWord_toWord f _))
theorem coxSub (f : FormCR) : Statement (.coxSub f) :=
  of_word rfl (by
    show decodeCox (f.toWord 0x0A#6) = _
    unfold decodeCox
    rw [FormCR.opcode_toWord]
    exact congrArg Instr.coxSub (FormCR.ofWord_toWord f _))
theorem coxAnd (f : FormCR) : Statement (.coxAnd f) :=
  of_word rfl (by
    show decodeCox (f.toWord 0x0B#6) = _
    unfold decodeCox
    rw [FormCR.opcode_toWord]
    exact congrArg Instr.coxAnd (FormCR.ofWord_toWord f _))
theorem coxOr (f : FormCR) : Statement (.coxOr f) :=
  of_word rfl (by
    show decodeCox (f.toWord 0x0C#6) = _
    unfold decodeCox
    rw [FormCR.opcode_toWord]
    exact congrArg Instr.coxOr (FormCR.ofWord_toWord f _))
theorem coxShl (f : FormCR) : Statement (.coxShl f) :=
  of_word rfl (by
    show decodeCox (f.toWord 0x0D#6) = _
    unfold decodeCox
    rw [FormCR.opcode_toWord]
    exact congrArg Instr.coxShl (FormCR.ofWord_toWord f _))
theorem coxShr (f : FormCR) : Statement (.coxShr f) :=
  of_word rfl (by
    show decodeCox (f.toWord 0x0E#6) = _
    unfold decodeCox
    rw [FormCR.opcode_toWord]
    exact congrArg Instr.coxShr (FormCR.ofWord_toWord f _))
theorem coxMovi (f : FormCI) : Statement (.coxMovi f) :=
  of_word rfl (by
    show decodeCox (f.toWord 0x10#6) = _
    unfold decodeCox
    rw [FormCI.opcode_toWord]
    exact congrArg Instr.coxMovi (FormCI.ofWord_toWord f _))
theorem coxAddi (f : FormCI) : Statement (.coxAddi f) :=
  of_word rfl (by
    show decodeCox (f.toWord 0x11#6) = _
    unfold decodeCox
    rw [FormCI.opcode_toWord]
    exact congrArg Instr.coxAddi (FormCI.ofWord_toWord f _))
theorem coxBr (f : FormCB) : Statement (.coxBr f) :=
  of_word rfl (by
    show decodeCox (f.toWord 0x18#6) = _
    unfold decodeCox
    rw [FormCB.opcode_toWord]
    exact congrArg Instr.coxBr (FormCB.ofWord_toWord f _))
theorem coxBeq (f : FormCB) : Statement (.coxBeq f) :=
  of_word rfl (by
    show decodeCox (f.toWord 0x19#6) = _
    unfold decodeCox
    rw [FormCB.opcode_toWord]
    exact congrArg Instr.coxBeq (FormCB.ofWord_toWord f _))
theorem coxBne (f : FormCB) : Statement (.coxBne f) :=
  of_word rfl (by
    show decodeCox (f.toWord 0x1A#6) = _
    unfold decodeCox
    rw [FormCB.opcode_toWord]
    exact congrArg Instr.coxBne (FormCB.ofWord_toWord f _))
theorem coxBlt (f : FormCB) : Statement (.coxBlt f) :=
  of_word rfl (by
    show decodeCox (f.toWord 0x1B#6) = _
    unfold decodeCox
    rw [FormCB.opcode_toWord]
    exact congrArg Instr.coxBlt (FormCB.ofWord_toWord f _))
theorem coxBge (f : FormCB) : Statement (.coxBge f) :=
  of_word rfl (by
    show decodeCox (f.toWord 0x1C#6) = _
    unfold decodeCox
    rw [FormCB.opcode_toWord]
    exact congrArg Instr.coxBge (FormCB.ofWord_toWord f _))
theorem coxLoop (f : FormCB) : Statement (.coxLoop f) :=
  of_word rfl (by
    show decodeCox (f.toWord 0x1D#6) = _
    unfold decodeCox
    rw [FormCB.opcode_toWord]
    exact congrArg Instr.coxLoop (FormCB.ofWord_toWord f _))
theorem coxSend (f : FormCC) : Statement (.coxSend f) :=
  of_word rfl (by
    show decodeCox (f.toWord 0x20#6) = _
    unfold decodeCox
    rw [FormCC.opcode_toWord]
    exact congrArg Instr.coxSend (FormCC.ofWord_toWord f _))
theorem coxPost (f : FormCC) : Statement (.coxPost f) :=
  of_word rfl (by
    show decodeCox (f.toWord 0x21#6) = _
    unfold decodeCox
    rw [FormCC.opcode_toWord]
    exact congrArg Instr.coxPost (FormCC.ofWord_toWord f _))
theorem coxRecv (f : FormCC) : Statement (.coxRecv f) :=
  of_word rfl (by
    show decodeCox (f.toWord 0x22#6) = _
    unfold decodeCox
    rw [FormCC.opcode_toWord]
    exact congrArg Instr.coxRecv (FormCC.ofWord_toWord f _))
theorem coxComb (f : FormCC) : Statement (.coxComb f) :=
  of_word rfl (by
    show decodeCox (f.toWord 0x23#6) = _
    unfold decodeCox
    rw [FormCC.opcode_toWord]
    exact congrArg Instr.coxComb (FormCC.ofWord_toWord f _))
theorem coxCombf (f : FormCC) : Statement (.coxCombf f) :=
  of_word rfl (by
    show decodeCox (f.toWord 0x24#6) = _
    unfold decodeCox
    rw [FormCC.opcode_toWord]
    exact congrArg Instr.coxCombf (FormCC.ofWord_toWord f _))
theorem coxFwd (f : FormCC) : Statement (.coxFwd f) :=
  of_word rfl (by
    show decodeCox (f.toWord 0x25#6) = _
    unfold decodeCox
    rw [FormCC.opcode_toWord]
    exact congrArg Instr.coxFwd (FormCC.ofWord_toWord f _))
theorem coxWaitf (f : FormCF) : Statement (.coxWaitf f) :=
  of_word rfl (by
    show decodeCox (f.toWord 0x28#6) = _
    unfold decodeCox
    rw [FormCF.opcode_toWord]
    exact congrArg Instr.coxWaitf (FormCF.ofWord_toWord f _))
theorem coxSigf (f : FormCF) : Statement (.coxSigf f) :=
  of_word rfl (by
    show decodeCox (f.toWord 0x29#6) = _
    unfold decodeCox
    rw [FormCF.opcode_toWord]
    exact congrArg Instr.coxSigf (FormCF.ofWord_toWord f _))
theorem instructionCompletion (crew : Nat) (flight : Nat) : Statement (.instructionCompletion crew flight) := of_none rfl
theorem faultRecordRetry (i : Nat) : Statement (.faultRecordRetry i) := of_none rfl
theorem faultQueueWriteRetry (i : Nat) : Statement (.faultQueueWriteRetry i) := of_none rfl
theorem engineOperationRetire (id : Nat) : Statement (.engineOperationRetire id) := of_none rfl
theorem tsigAdd (id : Nat) : Statement (.tsigAdd id) := of_none rfl
theorem tileSliceStart (core : Nat) : Statement (.tileSliceStart core) := of_none rfl
theorem tileTaskRetire (id : Nat) (slice : Nat) : Statement (.tileTaskRetire id slice) := of_none rfl
theorem accaGrant (core : Nat) : Statement (.accaGrant core) := of_none rfl
theorem accfUnitRelease (i : Nat) : Statement (.accfUnitRelease i) := of_none rfl
theorem umpireTimeout (blk : Nat) (cl : Bool) (id : Nat) : Statement (.umpireTimeout blk cl id) := of_none rfl
theorem gateBudgetExpire (crew : Nat) (level : Nat) : Statement (.gateBudgetExpire crew level) := of_none rfl
theorem pauseExpire (crew : Nat) : Statement (.pauseExpire crew) := of_none rfl
theorem spinHandoff (blk : Nat) (vcore : Nat) : Statement (.spinHandoff blk vcore) := of_none rfl
theorem pfdDeadlineDrop (core : Nat) (order : Nat) : Statement (.pfdDeadlineDrop core order) := of_none rfl
theorem launchAdmission (id : Nat) : Statement (.launchAdmission id) := of_none rfl
theorem launchDeadlineExpire (id : Nat) : Statement (.launchDeadlineExpire id) := of_none rfl
theorem blockPlacement (launch : Nat) (first : Nat) (cores : List Nat) (quads : List Nat) (vcores : List Nat) (out : List Nat) : Statement (.blockPlacement launch first cores quads vcores out) := of_none rfl
theorem crewRetire (crew : Nat) : Statement (.crewRetire crew) := of_none rfl
theorem blockRetire (blk : Nat) : Statement (.blockRetire blk) := of_none rfl
theorem blockMigration (blk : Nat) (core : Nat) (quads : List Nat) : Statement (.blockMigration blk core quads) := of_none rfl
theorem contextPreempt (ctx : Nat) : Statement (.contextPreempt ctx) := of_none rfl
theorem contextImageComplete (ctx : Nat) (vcore : Nat) : Statement (.contextImageComplete ctx vcore) := of_none rfl
theorem contextRestore (ctx : Nat) (cores : List (Nat × Nat)) (quads : List Nat) : Statement (.contextRestore ctx cores quads) := of_none rfl
theorem harvestInterference (core : Nat) : Statement (.harvestInterference core) := of_none rfl
theorem harvestRevocation (core : Nat) : Statement (.harvestRevocation core) := of_none rfl
theorem harvestParkComplete (core : Nat) : Statement (.harvestParkComplete core) := of_none rfl
theorem harvestResume (blk : Nat) (quads : List Nat) : Statement (.harvestResume blk quads) := of_none rfl
theorem harvestEvict (blk : Nat) : Statement (.harvestEvict blk) := of_none rfl
theorem remoteWriteApply (i : Nat) : Statement (.remoteWriteApply i) := of_none rfl
theorem replicaApply (i : Nat) : Statement (.replicaApply i) := of_none rfl
theorem packetForward (i : Nat) : Statement (.packetForward i) := of_none rfl
theorem write (i : Nat) : Statement (.write i) := of_none rfl
theorem readreq (i : Nat) : Statement (.readreq i) := of_none rfl
theorem readrsp (i : Nat) : Statement (.readrsp i) := of_none rfl
theorem atomic (i : Nat) : Statement (.atomic i) := of_none rfl
theorem marker (i : Nat) : Statement (.marker i) := of_none rfl
theorem markack (i : Nat) : Statement (.markack i) := of_none rfl
theorem probe (i : Nat) : Statement (.probe i) := of_none rfl
theorem probeack (i : Nat) : Statement (.probeack i) := of_none rfl
theorem reduce (i : Nat) : Statement (.reduce i) := of_none rfl
theorem redrsp (i : Nat) : Statement (.redrsp i) := of_none rfl
theorem chunk (i : Nat) : Statement (.chunk i) := of_none rfl
theorem start (i : Nat) : Statement (.start i) := of_none rfl
theorem abort (i : Nat) : Statement (.abort i) := of_none rfl
theorem abortack (i : Nat) : Statement (.abortack i) := of_none rfl
theorem refuse (i : Nat) : Statement (.refuse i) := of_none rfl
theorem fabricResponseTimeout (id : Nat) : Statement (.fabricResponseTimeout id) := of_none rfl
theorem portDown (p : Nat) (back : Nat) : Statement (.portDown p back) := of_none rfl
theorem portTraining (p : Nat) (ok : Bool) (peer : Nat) : Statement (.portTraining p ok peer) := of_none rfl
theorem portAutoRetrain (p : Nat) : Statement (.portAutoRetrain p) := of_none rfl
theorem linkStateAnnouncement (k : Nat) (i : Nat) (up : Bool) : Statement (.linkStateAnnouncement k i up) := of_none rfl
theorem keyExchangeMessage (p : Nat) (ok : Bool) : Statement (.keyExchangeMessage p ok) := of_none rfl
theorem frameSend (p : Nat) (ch : Nat) (hops : Nat) : Statement (.frameSend p ch hops) := of_none rfl
theorem frameReceive (p : Nat) (ok : Bool) (sel : Bool) (hdr : List (BitVec 32)) (data : List (BitVec 8)) (bad : List Nat) (side : List Nat) : Statement (.frameReceive p ok sel hdr data bad side) := of_none rfl
theorem coxWaitSatisfied (port : Nat) (k : Nat) : Statement (.coxWaitSatisfied port k) := of_none rfl
theorem coxSpinFault (port : Nat) : Statement (.coxSpinFault port) := of_none rfl
theorem coxRefusalTimeout (port : Nat) (k : Nat) : Statement (.coxRefusalTimeout port k) := of_none rfl
theorem coxStartSlotFree (port : Nat) : Statement (.coxStartSlotFree port) := of_none rfl
theorem coxStartHoldTimeout (port : Nat) : Statement (.coxStartHoldTimeout port) := of_none rfl
theorem coxDescriptorLoadComplete (port : Nat) (k : Nat) : Statement (.coxDescriptorLoadComplete port k) := of_none rfl
theorem startWindowTimeout (i : Nat) : Statement (.startWindowTimeout i) := of_none rfl
theorem bootl (pa : BitVec 64) : Statement (.bootl pa) := of_none rfl
theorem frespResume (dom : Bool) (owner : Nat) (seq : Nat) : Statement (.frespResume dom owner seq) := of_none rfl
theorem frespDecline (dom : Bool) (owner : Nat) (seq : Nat) : Statement (.frespDecline dom owner seq) := of_none rfl
theorem frespTerminate (dom : Bool) (owner : Nat) (seq : Nat) : Statement (.frespTerminate dom owner seq) := of_none rfl
theorem mgmtRegisterWrite (bar : Nat) (off : Nat) (wide : Bool) (v : BitVec 64) : Statement (.mgmtRegisterWrite bar off wide v) := of_none rfl
theorem addressGroupWrite (g : Nat) (w : Nat) (v : BitVec 32) : Statement (.addressGroupWrite g w v) := of_none rfl
theorem startGo (i : Nat) (group : Nat) : Statement (.startGo i group) := of_none rfl
theorem coxInstructionMemoryWrite (port : Nat) (w : Nat) (v : BitVec 64) : Statement (.coxInstructionMemoryWrite port w v) := of_none rfl
theorem coxRegionWrite (port : Nat) (i : Nat) (v : BitVec 64) : Statement (.coxRegionWrite port i v) := of_none rfl
theorem coxSlotStateWrite (port : Nat) (k : Nat) (r : Nat) (v : BitVec 64) : Statement (.coxSlotStateWrite port k r v) := of_none rfl
theorem ctlResume (port : Nat) (k : Nat) : Statement (.ctlResume port k) := of_none rfl
theorem ctlStep (port : Nat) (k : Nat) : Statement (.ctlStep port k) := of_none rfl
theorem ctlKill (port : Nat) (k : Nat) : Statement (.ctlKill port k) := of_none rfl
theorem getid  : Statement .getid := of_none rfl
theorem attest  : Statement .attest := of_none rfl
theorem kdopen  : Statement .kdopen := of_none rfl
theorem kdseal  : Statement .kdseal := of_none rfl
theorem kdclose  : Statement .kdclose := of_none rfl
theorem kdmap  : Statement .kdmap := of_none rfl
theorem rekey  : Statement .rekey := of_none rfl
theorem mpcset  : Statement .mpcset := of_none rfl
theorem mpcjoin  : Statement .mpcjoin := of_none rfl
theorem revoke  : Statement .revoke := of_none rfl
theorem fwstage  : Statement .fwstage := of_none rfl
theorem fwcommit  : Statement .fwcommit := of_none rfl
theorem secpCommandComplete  : Statement .secpCommandComplete := of_none rfl
theorem fabcfg (v : BitVec 32) : Statement (.fabcfg v) := of_none rfl
theorem portctlAdmdn (p : Nat) (v : Bool) : Statement (.portctlAdmdn p v) := of_none rfl
theorem portctlRetrain (p : Nat) : Statement (.portctlRetrain p) := of_none rfl
theorem portctlMapv (p : Nat) (v : Bool) (lport : Nat) : Statement (.portctlMapv p v lport) := of_none rfl
theorem rasclr  : Statement .rasclr := of_none rfl
theorem bar2Write (off : Nat) (data : List (BitVec 8)) : Statement (.bar2Write off data) := of_none rfl
theorem bar2Read (off : Nat) (len : Nat) : Statement (.bar2Read off len) := of_none rfl
theorem enterD3hot  : Statement .enterD3hot := of_none rfl
theorem leaveD3hot  : Statement .leaveD3hot := of_none rfl
theorem perstDeassert  : Statement .perstDeassert := of_none rfl
theorem firmwareVerify (imgs : List (Bool × Bool × Nat × List (BitVec 8))) : Statement (.firmwareVerify imgs) := of_none rfl
theorem secureTrainingComplete (memOk : Bool) (coresOk : Bool) (linkOk : Bool) : Statement (.secureTrainingComplete memOk coresOk linkOk) := of_none rfl
theorem fullServiceTransition (dieUp : BitVec 4) (stackUp : BitVec 8) (cxlUp : BitVec 4) : Statement (.fullServiceTransition dieUp stackUp cxlUp) := of_none rfl
theorem clockStep (avg : BitVec 32) (pkg : BitVec 32) (dies : List (BitVec 32)) (temps : List (BitVec 32)) (hbm : List (BitVec 32)) : Statement (.clockStep avg pkg dies temps hbm) := of_none rfl
theorem thermtrip  : Statement .thermtrip := of_none rfl
theorem powerRemoval  : Statement .powerRemoval := of_none rfl
theorem patrolScrub (line : Nat) (kind : Nat) : Statement (.patrolScrub line kind) := of_none rfl
theorem onCoreUncorrectable (core : Nat) (crew : Nat) (blk : Nat) : Statement (.onCoreUncorrectable core crew blk) := of_none rfl
theorem cxlLinkDown (p : Nat) (lost : List (Nat × Nat)) : Statement (.cxlLinkDown p lost) := of_none rfl
theorem perstAssert  : Statement .perstAssert := of_none rfl
theorem msixVectorUnmask (v : Nat) : Statement (.msixVectorUnmask v) := of_none rfl
theorem hbmStackEntersService (stack : Nat) (ok : Bool) : Statement (.hbmStackEntersService stack ok) := of_none rfl
theorem prefetchComplete (core : Nat) (n : Nat) : Statement (.prefetchComplete core n) := of_none rfl

end Sys2Proof.Laws.Encoding
end

