-- ==== Sys2Proof/Laws/State.lean ====
section
/-!
SUPPORT. Laws/State.lean: what each field is after each named update of State, and after `setSlot` of a crew.
-/

namespace Sys2Proof.Machine

open Sys2Proof

/-! ## opening -/

@[simp] theorem State.opening_cycle (s : State) : s.opening.cycle = s.cycle := rfl
@[simp] theorem State.opening_clock (s : State) : s.opening.clock = s.clock := rfl
@[simp] theorem State.opening_clockAcc (s : State) : s.opening.clockAcc = s.clockAcc := rfl
@[simp] theorem State.opening_free (s : State) : s.opening.free = s.free + 1 := rfl
@[simp] theorem State.opening_order (s : State) : s.opening.order = s.order := rfl
@[simp] theorem State.opening_inputs (s : State) : s.opening.inputs = s.inputs := rfl
@[simp] theorem State.opening_hostStores (s : State) : s.opening.hostStores = s.hostStores := rfl
@[simp] theorem State.opening_todo (s : State) : s.opening.todo = s.todo := rfl
@[simp] theorem State.opening_cur (s : State) : s.opening.cur = s.cur := rfl
@[simp] theorem State.opening_lastRaise (s : State) : s.opening.lastRaise = none := rfl
@[simp] theorem State.opening_heldMark (s : State) : s.opening.heldMark = false := rfl
@[simp] theorem State.opening_mem (s : State) : s.opening.mem = s.mem := rfl
@[simp] theorem State.opening_poison (s : State) : s.opening.poison = s.poison := rfl
@[simp] theorem State.opening_bmem (s : State) : s.opening.bmem = s.bmem := rfl
@[simp] theorem State.opening_amem (s : State) : s.opening.amem = s.amem := rfl
@[simp] theorem State.opening_smem (s : State) : s.opening.smem = s.smem := rfl
@[simp] theorem State.opening_tlb (s : State) : s.opening.tlb = s.tlb := rfl
@[simp] theorem State.opening_hcache (s : State) : s.opening.hcache = s.hcache := rfl
@[simp] theorem State.opening_icache (s : State) : s.opening.icache = s.icache := rfl
@[simp] theorem State.opening_arriving (s : State) : s.opening.arriving = s.arriving := rfl
@[simp] theorem State.opening_dieClk (s : State) : s.opening.dieClk = s.dieClk := rfl
@[simp] theorem State.opening_dieSeen (s : State) : s.opening.dieSeen = s.dieSeen := rfl
@[simp] theorem State.opening_replicas (s : State) : s.opening.replicas = s.replicas := rfl
@[simp] theorem State.opening_past (s : State) : s.opening.past = s.past := rfl
@[simp] theorem State.opening_invs (s : State) : s.opening.invs = s.invs := rfl
@[simp] theorem State.opening_views (s : State) : s.opening.views = s.views := rfl
@[simp] theorem State.opening_narrow (s : State) : s.opening.narrow = s.narrow := rfl
@[simp] theorem State.opening_frags (s : State) : s.opening.frags = s.frags := rfl
@[simp] theorem State.opening_ahead (s : State) : s.opening.ahead = s.ahead := rfl
@[simp] theorem State.opening_crews (s : State) : s.opening.crews = s.crews := rfl
@[simp] theorem State.opening_blocks (s : State) : s.opening.blocks = s.blocks := rfl
@[simp] theorem State.opening_cores (s : State) : s.opening.cores = s.cores := rfl
@[simp] theorem State.opening_asids (s : State) : s.opening.asids = s.asids := rfl
@[simp] theorem State.opening_ctxs (s : State) : s.opening.ctxs = s.ctxs := rfl
@[simp] theorem State.opening_held (s : State) : s.opening.held = s.held := rfl
@[simp] theorem State.opening_ras (s : State) : s.opening.ras = s.ras := rfl
@[simp] theorem State.opening_mgmt (s : State) : s.opening.mgmt = s.mgmt := rfl
@[simp] theorem State.opening_ops (s : State) : s.opening.ops = s.ops := rfl
@[simp] theorem State.opening_accas (s : State) : s.opening.accas = s.accas := rfl
@[simp] theorem State.opening_accfs (s : State) : s.opening.accfs = s.accfs := rfl
@[simp] theorem State.opening_launches (s : State) : s.opening.launches = s.launches := rfl
@[simp] theorem State.opening_groups (s : State) : s.opening.groups = s.groups := rfl
@[simp] theorem State.opening_outq (s : State) : s.opening.outq = s.outq := rfl
@[simp] theorem State.opening_wire (s : State) : s.opening.wire = s.wire := rfl
@[simp] theorem State.opening_landing (s : State) : s.opening.landing = s.landing := rfl
@[simp] theorem State.opening_marks (s : State) : s.opening.marks = s.marks := rfl
@[simp] theorem State.opening_relh (s : State) : s.opening.relh = s.relh := rfl
@[simp] theorem State.opening_aborts (s : State) : s.opening.aborts = s.aborts := rfl
@[simp] theorem State.opening_kds (s : State) : s.opening.kds = s.kds := rfl
@[simp] theorem State.opening_owners (s : State) : s.opening.owners = s.owners := rfl
@[simp] theorem State.opening_keyed (s : State) : s.opening.keyed = s.keyed := rfl
@[simp] theorem State.opening_fabcfg (s : State) : s.opening.fabcfg = s.fabcfg := rfl
@[simp] theorem State.opening_fabto (s : State) : s.opening.fabto = s.fabto := rfl
@[simp] theorem State.opening_lstate (s : State) : s.opening.lstate = s.lstate := rfl
@[simp] theorem State.opening_detex (s : State) : s.opening.detex = s.detex := rfl
@[simp] theorem State.opening_ports (s : State) : s.opening.ports = s.ports := rfl
@[simp] theorem State.opening_inq (s : State) : s.opening.inq = s.inq := rfl
@[simp] theorem State.opening_coxes (s : State) : s.opening.coxes = s.coxes := rfl
@[simp] theorem State.opening_startSlots (s : State) : s.opening.startSlots = s.startSlots := rfl
@[simp] theorem State.opening_mpcs (s : State) : s.opening.mpcs = s.mpcs := rfl
@[simp] theorem State.opening_owed (s : State) : s.opening.owed = s.owed := rfl
@[simp] theorem State.opening_spills (s : State) : s.opening.spills = s.spills := rfl
@[simp] theorem State.opening_saved (s : State) : s.opening.saved = s.saved := rfl
@[simp] theorem State.opening_secp (s : State) : s.opening.secp = s.secp := rfl

/-! ## setCrew -/

@[simp] theorem State.setCrew_cycle (s : State) (c : Crew) : (s.setCrew c).cycle = s.cycle := rfl
@[simp] theorem State.setCrew_clock (s : State) (c : Crew) : (s.setCrew c).clock = s.clock := rfl
@[simp] theorem State.setCrew_clockAcc (s : State) (c : Crew) : (s.setCrew c).clockAcc = s.clockAcc := rfl
@[simp] theorem State.setCrew_free (s : State) (c : Crew) : (s.setCrew c).free = s.free := rfl
@[simp] theorem State.setCrew_order (s : State) (c : Crew) : (s.setCrew c).order = s.order := rfl
@[simp] theorem State.setCrew_inputs (s : State) (c : Crew) : (s.setCrew c).inputs = s.inputs := rfl
@[simp] theorem State.setCrew_hostStores (s : State) (c : Crew) : (s.setCrew c).hostStores = s.hostStores := rfl
@[simp] theorem State.setCrew_todo (s : State) (c : Crew) : (s.setCrew c).todo = s.todo := rfl
@[simp] theorem State.setCrew_cur (s : State) (c : Crew) : (s.setCrew c).cur = s.cur := rfl
@[simp] theorem State.setCrew_lastRaise (s : State) (c : Crew) : (s.setCrew c).lastRaise = s.lastRaise := rfl
@[simp] theorem State.setCrew_heldMark (s : State) (c : Crew) : (s.setCrew c).heldMark = s.heldMark := rfl
@[simp] theorem State.setCrew_mem (s : State) (c : Crew) : (s.setCrew c).mem = s.mem := rfl
@[simp] theorem State.setCrew_poison (s : State) (c : Crew) : (s.setCrew c).poison = s.poison := rfl
@[simp] theorem State.setCrew_bmem (s : State) (c : Crew) : (s.setCrew c).bmem = s.bmem := rfl
@[simp] theorem State.setCrew_amem (s : State) (c : Crew) : (s.setCrew c).amem = s.amem := rfl
@[simp] theorem State.setCrew_smem (s : State) (c : Crew) : (s.setCrew c).smem = s.smem := rfl
@[simp] theorem State.setCrew_tlb (s : State) (c : Crew) : (s.setCrew c).tlb = s.tlb := rfl
@[simp] theorem State.setCrew_hcache (s : State) (c : Crew) : (s.setCrew c).hcache = s.hcache := rfl
@[simp] theorem State.setCrew_icache (s : State) (c : Crew) : (s.setCrew c).icache = s.icache := rfl
@[simp] theorem State.setCrew_arriving (s : State) (c : Crew) : (s.setCrew c).arriving = s.arriving := rfl
@[simp] theorem State.setCrew_dieClk (s : State) (c : Crew) : (s.setCrew c).dieClk = s.dieClk := rfl
@[simp] theorem State.setCrew_dieSeen (s : State) (c : Crew) : (s.setCrew c).dieSeen = s.dieSeen := rfl
@[simp] theorem State.setCrew_replicas (s : State) (c : Crew) : (s.setCrew c).replicas = s.replicas := rfl
@[simp] theorem State.setCrew_past (s : State) (c : Crew) : (s.setCrew c).past = s.past := rfl
@[simp] theorem State.setCrew_invs (s : State) (c : Crew) : (s.setCrew c).invs = s.invs := rfl
@[simp] theorem State.setCrew_views (s : State) (c : Crew) : (s.setCrew c).views = s.views := rfl
@[simp] theorem State.setCrew_narrow (s : State) (c : Crew) : (s.setCrew c).narrow = s.narrow := rfl
@[simp] theorem State.setCrew_frags (s : State) (c : Crew) : (s.setCrew c).frags = s.frags := rfl
@[simp] theorem State.setCrew_ahead (s : State) (c : Crew) : (s.setCrew c).ahead = s.ahead := rfl
@[simp] theorem State.setCrew_crews (s : State) (c : Crew) : (s.setCrew c).crews = s.crews.map (fun x => if x.id == c.id then c else x) := rfl
@[simp] theorem State.setCrew_blocks (s : State) (c : Crew) : (s.setCrew c).blocks = s.blocks := rfl
@[simp] theorem State.setCrew_cores (s : State) (c : Crew) : (s.setCrew c).cores = s.cores := rfl
@[simp] theorem State.setCrew_asids (s : State) (c : Crew) : (s.setCrew c).asids = s.asids := rfl
@[simp] theorem State.setCrew_ctxs (s : State) (c : Crew) : (s.setCrew c).ctxs = s.ctxs := rfl
@[simp] theorem State.setCrew_held (s : State) (c : Crew) : (s.setCrew c).held = s.held := rfl
@[simp] theorem State.setCrew_ras (s : State) (c : Crew) : (s.setCrew c).ras = s.ras := rfl
@[simp] theorem State.setCrew_mgmt (s : State) (c : Crew) : (s.setCrew c).mgmt = s.mgmt := rfl
@[simp] theorem State.setCrew_ops (s : State) (c : Crew) : (s.setCrew c).ops = s.ops := rfl
@[simp] theorem State.setCrew_accas (s : State) (c : Crew) : (s.setCrew c).accas = s.accas := rfl
@[simp] theorem State.setCrew_accfs (s : State) (c : Crew) : (s.setCrew c).accfs = s.accfs := rfl
@[simp] theorem State.setCrew_launches (s : State) (c : Crew) : (s.setCrew c).launches = s.launches := rfl
@[simp] theorem State.setCrew_groups (s : State) (c : Crew) : (s.setCrew c).groups = s.groups := rfl
@[simp] theorem State.setCrew_outq (s : State) (c : Crew) : (s.setCrew c).outq = s.outq := rfl
@[simp] theorem State.setCrew_wire (s : State) (c : Crew) : (s.setCrew c).wire = s.wire := rfl
@[simp] theorem State.setCrew_landing (s : State) (c : Crew) : (s.setCrew c).landing = s.landing := rfl
@[simp] theorem State.setCrew_marks (s : State) (c : Crew) : (s.setCrew c).marks = s.marks := rfl
@[simp] theorem State.setCrew_relh (s : State) (c : Crew) : (s.setCrew c).relh = s.relh := rfl
@[simp] theorem State.setCrew_aborts (s : State) (c : Crew) : (s.setCrew c).aborts = s.aborts := rfl
@[simp] theorem State.setCrew_kds (s : State) (c : Crew) : (s.setCrew c).kds = s.kds := rfl
@[simp] theorem State.setCrew_owners (s : State) (c : Crew) : (s.setCrew c).owners = s.owners := rfl
@[simp] theorem State.setCrew_keyed (s : State) (c : Crew) : (s.setCrew c).keyed = s.keyed := rfl
@[simp] theorem State.setCrew_fabcfg (s : State) (c : Crew) : (s.setCrew c).fabcfg = s.fabcfg := rfl
@[simp] theorem State.setCrew_fabto (s : State) (c : Crew) : (s.setCrew c).fabto = s.fabto := rfl
@[simp] theorem State.setCrew_lstate (s : State) (c : Crew) : (s.setCrew c).lstate = s.lstate := rfl
@[simp] theorem State.setCrew_detex (s : State) (c : Crew) : (s.setCrew c).detex = s.detex := rfl
@[simp] theorem State.setCrew_ports (s : State) (c : Crew) : (s.setCrew c).ports = s.ports := rfl
@[simp] theorem State.setCrew_inq (s : State) (c : Crew) : (s.setCrew c).inq = s.inq := rfl
@[simp] theorem State.setCrew_coxes (s : State) (c : Crew) : (s.setCrew c).coxes = s.coxes := rfl
@[simp] theorem State.setCrew_startSlots (s : State) (c : Crew) : (s.setCrew c).startSlots = s.startSlots := rfl
@[simp] theorem State.setCrew_mpcs (s : State) (c : Crew) : (s.setCrew c).mpcs = s.mpcs := rfl
@[simp] theorem State.setCrew_owed (s : State) (c : Crew) : (s.setCrew c).owed = s.owed := rfl
@[simp] theorem State.setCrew_spills (s : State) (c : Crew) : (s.setCrew c).spills = s.spills := rfl
@[simp] theorem State.setCrew_saved (s : State) (c : Crew) : (s.setCrew c).saved = s.saved := rfl
@[simp] theorem State.setCrew_secp (s : State) (c : Crew) : (s.setCrew c).secp = s.secp := rfl

/-! ## modCrew -/

@[simp] theorem State.modCrew_cycle (s : State) (i : Nat) (f : Crew → Crew) : (s.modCrew i f).cycle = s.cycle := rfl
@[simp] theorem State.modCrew_clock (s : State) (i : Nat) (f : Crew → Crew) : (s.modCrew i f).clock = s.clock := rfl
@[simp] theorem State.modCrew_clockAcc (s : State) (i : Nat) (f : Crew → Crew) : (s.modCrew i f).clockAcc = s.clockAcc := rfl
@[simp] theorem State.modCrew_free (s : State) (i : Nat) (f : Crew → Crew) : (s.modCrew i f).free = s.free := rfl
@[simp] theorem State.modCrew_order (s : State) (i : Nat) (f : Crew → Crew) : (s.modCrew i f).order = s.order := rfl
@[simp] theorem State.modCrew_inputs (s : State) (i : Nat) (f : Crew → Crew) : (s.modCrew i f).inputs = s.inputs := rfl
@[simp] theorem State.modCrew_hostStores (s : State) (i : Nat) (f : Crew → Crew) : (s.modCrew i f).hostStores = s.hostStores := rfl
@[simp] theorem State.modCrew_todo (s : State) (i : Nat) (f : Crew → Crew) : (s.modCrew i f).todo = s.todo := rfl
@[simp] theorem State.modCrew_cur (s : State) (i : Nat) (f : Crew → Crew) : (s.modCrew i f).cur = s.cur := rfl
@[simp] theorem State.modCrew_lastRaise (s : State) (i : Nat) (f : Crew → Crew) : (s.modCrew i f).lastRaise = s.lastRaise := rfl
@[simp] theorem State.modCrew_heldMark (s : State) (i : Nat) (f : Crew → Crew) : (s.modCrew i f).heldMark = s.heldMark := rfl
@[simp] theorem State.modCrew_mem (s : State) (i : Nat) (f : Crew → Crew) : (s.modCrew i f).mem = s.mem := rfl
@[simp] theorem State.modCrew_poison (s : State) (i : Nat) (f : Crew → Crew) : (s.modCrew i f).poison = s.poison := rfl
@[simp] theorem State.modCrew_bmem (s : State) (i : Nat) (f : Crew → Crew) : (s.modCrew i f).bmem = s.bmem := rfl
@[simp] theorem State.modCrew_amem (s : State) (i : Nat) (f : Crew → Crew) : (s.modCrew i f).amem = s.amem := rfl
@[simp] theorem State.modCrew_smem (s : State) (i : Nat) (f : Crew → Crew) : (s.modCrew i f).smem = s.smem := rfl
@[simp] theorem State.modCrew_tlb (s : State) (i : Nat) (f : Crew → Crew) : (s.modCrew i f).tlb = s.tlb := rfl
@[simp] theorem State.modCrew_hcache (s : State) (i : Nat) (f : Crew → Crew) : (s.modCrew i f).hcache = s.hcache := rfl
@[simp] theorem State.modCrew_icache (s : State) (i : Nat) (f : Crew → Crew) : (s.modCrew i f).icache = s.icache := rfl
@[simp] theorem State.modCrew_arriving (s : State) (i : Nat) (f : Crew → Crew) : (s.modCrew i f).arriving = s.arriving := rfl
@[simp] theorem State.modCrew_dieClk (s : State) (i : Nat) (f : Crew → Crew) : (s.modCrew i f).dieClk = s.dieClk := rfl
@[simp] theorem State.modCrew_dieSeen (s : State) (i : Nat) (f : Crew → Crew) : (s.modCrew i f).dieSeen = s.dieSeen := rfl
@[simp] theorem State.modCrew_replicas (s : State) (i : Nat) (f : Crew → Crew) : (s.modCrew i f).replicas = s.replicas := rfl
@[simp] theorem State.modCrew_past (s : State) (i : Nat) (f : Crew → Crew) : (s.modCrew i f).past = s.past := rfl
@[simp] theorem State.modCrew_invs (s : State) (i : Nat) (f : Crew → Crew) : (s.modCrew i f).invs = s.invs := rfl
@[simp] theorem State.modCrew_views (s : State) (i : Nat) (f : Crew → Crew) : (s.modCrew i f).views = s.views := rfl
@[simp] theorem State.modCrew_narrow (s : State) (i : Nat) (f : Crew → Crew) : (s.modCrew i f).narrow = s.narrow := rfl
@[simp] theorem State.modCrew_frags (s : State) (i : Nat) (f : Crew → Crew) : (s.modCrew i f).frags = s.frags := rfl
@[simp] theorem State.modCrew_ahead (s : State) (i : Nat) (f : Crew → Crew) : (s.modCrew i f).ahead = s.ahead := rfl
@[simp] theorem State.modCrew_crews (s : State) (i : Nat) (f : Crew → Crew) : (s.modCrew i f).crews = s.crews.map (fun x => if x.id == i then f x else x) := rfl
@[simp] theorem State.modCrew_blocks (s : State) (i : Nat) (f : Crew → Crew) : (s.modCrew i f).blocks = s.blocks := rfl
@[simp] theorem State.modCrew_cores (s : State) (i : Nat) (f : Crew → Crew) : (s.modCrew i f).cores = s.cores := rfl
@[simp] theorem State.modCrew_asids (s : State) (i : Nat) (f : Crew → Crew) : (s.modCrew i f).asids = s.asids := rfl
@[simp] theorem State.modCrew_ctxs (s : State) (i : Nat) (f : Crew → Crew) : (s.modCrew i f).ctxs = s.ctxs := rfl
@[simp] theorem State.modCrew_held (s : State) (i : Nat) (f : Crew → Crew) : (s.modCrew i f).held = s.held := rfl
@[simp] theorem State.modCrew_ras (s : State) (i : Nat) (f : Crew → Crew) : (s.modCrew i f).ras = s.ras := rfl
@[simp] theorem State.modCrew_mgmt (s : State) (i : Nat) (f : Crew → Crew) : (s.modCrew i f).mgmt = s.mgmt := rfl
@[simp] theorem State.modCrew_ops (s : State) (i : Nat) (f : Crew → Crew) : (s.modCrew i f).ops = s.ops := rfl
@[simp] theorem State.modCrew_accas (s : State) (i : Nat) (f : Crew → Crew) : (s.modCrew i f).accas = s.accas := rfl
@[simp] theorem State.modCrew_accfs (s : State) (i : Nat) (f : Crew → Crew) : (s.modCrew i f).accfs = s.accfs := rfl
@[simp] theorem State.modCrew_launches (s : State) (i : Nat) (f : Crew → Crew) : (s.modCrew i f).launches = s.launches := rfl
@[simp] theorem State.modCrew_groups (s : State) (i : Nat) (f : Crew → Crew) : (s.modCrew i f).groups = s.groups := rfl
@[simp] theorem State.modCrew_outq (s : State) (i : Nat) (f : Crew → Crew) : (s.modCrew i f).outq = s.outq := rfl
@[simp] theorem State.modCrew_wire (s : State) (i : Nat) (f : Crew → Crew) : (s.modCrew i f).wire = s.wire := rfl
@[simp] theorem State.modCrew_landing (s : State) (i : Nat) (f : Crew → Crew) : (s.modCrew i f).landing = s.landing := rfl
@[simp] theorem State.modCrew_marks (s : State) (i : Nat) (f : Crew → Crew) : (s.modCrew i f).marks = s.marks := rfl
@[simp] theorem State.modCrew_relh (s : State) (i : Nat) (f : Crew → Crew) : (s.modCrew i f).relh = s.relh := rfl
@[simp] theorem State.modCrew_aborts (s : State) (i : Nat) (f : Crew → Crew) : (s.modCrew i f).aborts = s.aborts := rfl
@[simp] theorem State.modCrew_kds (s : State) (i : Nat) (f : Crew → Crew) : (s.modCrew i f).kds = s.kds := rfl
@[simp] theorem State.modCrew_owners (s : State) (i : Nat) (f : Crew → Crew) : (s.modCrew i f).owners = s.owners := rfl
@[simp] theorem State.modCrew_keyed (s : State) (i : Nat) (f : Crew → Crew) : (s.modCrew i f).keyed = s.keyed := rfl
@[simp] theorem State.modCrew_fabcfg (s : State) (i : Nat) (f : Crew → Crew) : (s.modCrew i f).fabcfg = s.fabcfg := rfl
@[simp] theorem State.modCrew_fabto (s : State) (i : Nat) (f : Crew → Crew) : (s.modCrew i f).fabto = s.fabto := rfl
@[simp] theorem State.modCrew_lstate (s : State) (i : Nat) (f : Crew → Crew) : (s.modCrew i f).lstate = s.lstate := rfl
@[simp] theorem State.modCrew_detex (s : State) (i : Nat) (f : Crew → Crew) : (s.modCrew i f).detex = s.detex := rfl
@[simp] theorem State.modCrew_ports (s : State) (i : Nat) (f : Crew → Crew) : (s.modCrew i f).ports = s.ports := rfl
@[simp] theorem State.modCrew_inq (s : State) (i : Nat) (f : Crew → Crew) : (s.modCrew i f).inq = s.inq := rfl
@[simp] theorem State.modCrew_coxes (s : State) (i : Nat) (f : Crew → Crew) : (s.modCrew i f).coxes = s.coxes := rfl
@[simp] theorem State.modCrew_startSlots (s : State) (i : Nat) (f : Crew → Crew) : (s.modCrew i f).startSlots = s.startSlots := rfl
@[simp] theorem State.modCrew_mpcs (s : State) (i : Nat) (f : Crew → Crew) : (s.modCrew i f).mpcs = s.mpcs := rfl
@[simp] theorem State.modCrew_owed (s : State) (i : Nat) (f : Crew → Crew) : (s.modCrew i f).owed = s.owed := rfl
@[simp] theorem State.modCrew_spills (s : State) (i : Nat) (f : Crew → Crew) : (s.modCrew i f).spills = s.spills := rfl
@[simp] theorem State.modCrew_saved (s : State) (i : Nat) (f : Crew → Crew) : (s.modCrew i f).saved = s.saved := rfl
@[simp] theorem State.modCrew_secp (s : State) (i : Nat) (f : Crew → Crew) : (s.modCrew i f).secp = s.secp := rfl

/-! ## modBlock -/

@[simp] theorem State.modBlock_cycle (s : State) (i : Nat) (f : Block → Block) : (s.modBlock i f).cycle = s.cycle := rfl
@[simp] theorem State.modBlock_clock (s : State) (i : Nat) (f : Block → Block) : (s.modBlock i f).clock = s.clock := rfl
@[simp] theorem State.modBlock_clockAcc (s : State) (i : Nat) (f : Block → Block) : (s.modBlock i f).clockAcc = s.clockAcc := rfl
@[simp] theorem State.modBlock_free (s : State) (i : Nat) (f : Block → Block) : (s.modBlock i f).free = s.free := rfl
@[simp] theorem State.modBlock_order (s : State) (i : Nat) (f : Block → Block) : (s.modBlock i f).order = s.order := rfl
@[simp] theorem State.modBlock_inputs (s : State) (i : Nat) (f : Block → Block) : (s.modBlock i f).inputs = s.inputs := rfl
@[simp] theorem State.modBlock_hostStores (s : State) (i : Nat) (f : Block → Block) : (s.modBlock i f).hostStores = s.hostStores := rfl
@[simp] theorem State.modBlock_todo (s : State) (i : Nat) (f : Block → Block) : (s.modBlock i f).todo = s.todo := rfl
@[simp] theorem State.modBlock_cur (s : State) (i : Nat) (f : Block → Block) : (s.modBlock i f).cur = s.cur := rfl
@[simp] theorem State.modBlock_lastRaise (s : State) (i : Nat) (f : Block → Block) : (s.modBlock i f).lastRaise = s.lastRaise := rfl
@[simp] theorem State.modBlock_heldMark (s : State) (i : Nat) (f : Block → Block) : (s.modBlock i f).heldMark = s.heldMark := rfl
@[simp] theorem State.modBlock_mem (s : State) (i : Nat) (f : Block → Block) : (s.modBlock i f).mem = s.mem := rfl
@[simp] theorem State.modBlock_poison (s : State) (i : Nat) (f : Block → Block) : (s.modBlock i f).poison = s.poison := rfl
@[simp] theorem State.modBlock_bmem (s : State) (i : Nat) (f : Block → Block) : (s.modBlock i f).bmem = s.bmem := rfl
@[simp] theorem State.modBlock_amem (s : State) (i : Nat) (f : Block → Block) : (s.modBlock i f).amem = s.amem := rfl
@[simp] theorem State.modBlock_smem (s : State) (i : Nat) (f : Block → Block) : (s.modBlock i f).smem = s.smem := rfl
@[simp] theorem State.modBlock_tlb (s : State) (i : Nat) (f : Block → Block) : (s.modBlock i f).tlb = s.tlb := rfl
@[simp] theorem State.modBlock_hcache (s : State) (i : Nat) (f : Block → Block) : (s.modBlock i f).hcache = s.hcache := rfl
@[simp] theorem State.modBlock_icache (s : State) (i : Nat) (f : Block → Block) : (s.modBlock i f).icache = s.icache := rfl
@[simp] theorem State.modBlock_arriving (s : State) (i : Nat) (f : Block → Block) : (s.modBlock i f).arriving = s.arriving := rfl
@[simp] theorem State.modBlock_dieClk (s : State) (i : Nat) (f : Block → Block) : (s.modBlock i f).dieClk = s.dieClk := rfl
@[simp] theorem State.modBlock_dieSeen (s : State) (i : Nat) (f : Block → Block) : (s.modBlock i f).dieSeen = s.dieSeen := rfl
@[simp] theorem State.modBlock_replicas (s : State) (i : Nat) (f : Block → Block) : (s.modBlock i f).replicas = s.replicas := rfl
@[simp] theorem State.modBlock_past (s : State) (i : Nat) (f : Block → Block) : (s.modBlock i f).past = s.past := rfl
@[simp] theorem State.modBlock_invs (s : State) (i : Nat) (f : Block → Block) : (s.modBlock i f).invs = s.invs := rfl
@[simp] theorem State.modBlock_views (s : State) (i : Nat) (f : Block → Block) : (s.modBlock i f).views = s.views := rfl
@[simp] theorem State.modBlock_narrow (s : State) (i : Nat) (f : Block → Block) : (s.modBlock i f).narrow = s.narrow := rfl
@[simp] theorem State.modBlock_frags (s : State) (i : Nat) (f : Block → Block) : (s.modBlock i f).frags = s.frags := rfl
@[simp] theorem State.modBlock_ahead (s : State) (i : Nat) (f : Block → Block) : (s.modBlock i f).ahead = s.ahead := rfl
@[simp] theorem State.modBlock_crews (s : State) (i : Nat) (f : Block → Block) : (s.modBlock i f).crews = s.crews := rfl
@[simp] theorem State.modBlock_blocks (s : State) (i : Nat) (f : Block → Block) : (s.modBlock i f).blocks = s.blocks.map (fun x => if x.id == i then f x else x) := rfl
@[simp] theorem State.modBlock_cores (s : State) (i : Nat) (f : Block → Block) : (s.modBlock i f).cores = s.cores := rfl
@[simp] theorem State.modBlock_asids (s : State) (i : Nat) (f : Block → Block) : (s.modBlock i f).asids = s.asids := rfl
@[simp] theorem State.modBlock_ctxs (s : State) (i : Nat) (f : Block → Block) : (s.modBlock i f).ctxs = s.ctxs := rfl
@[simp] theorem State.modBlock_held (s : State) (i : Nat) (f : Block → Block) : (s.modBlock i f).held = s.held := rfl
@[simp] theorem State.modBlock_ras (s : State) (i : Nat) (f : Block → Block) : (s.modBlock i f).ras = s.ras := rfl
@[simp] theorem State.modBlock_mgmt (s : State) (i : Nat) (f : Block → Block) : (s.modBlock i f).mgmt = s.mgmt := rfl
@[simp] theorem State.modBlock_ops (s : State) (i : Nat) (f : Block → Block) : (s.modBlock i f).ops = s.ops := rfl
@[simp] theorem State.modBlock_accas (s : State) (i : Nat) (f : Block → Block) : (s.modBlock i f).accas = s.accas := rfl
@[simp] theorem State.modBlock_accfs (s : State) (i : Nat) (f : Block → Block) : (s.modBlock i f).accfs = s.accfs := rfl
@[simp] theorem State.modBlock_launches (s : State) (i : Nat) (f : Block → Block) : (s.modBlock i f).launches = s.launches := rfl
@[simp] theorem State.modBlock_groups (s : State) (i : Nat) (f : Block → Block) : (s.modBlock i f).groups = s.groups := rfl
@[simp] theorem State.modBlock_outq (s : State) (i : Nat) (f : Block → Block) : (s.modBlock i f).outq = s.outq := rfl
@[simp] theorem State.modBlock_wire (s : State) (i : Nat) (f : Block → Block) : (s.modBlock i f).wire = s.wire := rfl
@[simp] theorem State.modBlock_landing (s : State) (i : Nat) (f : Block → Block) : (s.modBlock i f).landing = s.landing := rfl
@[simp] theorem State.modBlock_marks (s : State) (i : Nat) (f : Block → Block) : (s.modBlock i f).marks = s.marks := rfl
@[simp] theorem State.modBlock_relh (s : State) (i : Nat) (f : Block → Block) : (s.modBlock i f).relh = s.relh := rfl
@[simp] theorem State.modBlock_aborts (s : State) (i : Nat) (f : Block → Block) : (s.modBlock i f).aborts = s.aborts := rfl
@[simp] theorem State.modBlock_kds (s : State) (i : Nat) (f : Block → Block) : (s.modBlock i f).kds = s.kds := rfl
@[simp] theorem State.modBlock_owners (s : State) (i : Nat) (f : Block → Block) : (s.modBlock i f).owners = s.owners := rfl
@[simp] theorem State.modBlock_keyed (s : State) (i : Nat) (f : Block → Block) : (s.modBlock i f).keyed = s.keyed := rfl
@[simp] theorem State.modBlock_fabcfg (s : State) (i : Nat) (f : Block → Block) : (s.modBlock i f).fabcfg = s.fabcfg := rfl
@[simp] theorem State.modBlock_fabto (s : State) (i : Nat) (f : Block → Block) : (s.modBlock i f).fabto = s.fabto := rfl
@[simp] theorem State.modBlock_lstate (s : State) (i : Nat) (f : Block → Block) : (s.modBlock i f).lstate = s.lstate := rfl
@[simp] theorem State.modBlock_detex (s : State) (i : Nat) (f : Block → Block) : (s.modBlock i f).detex = s.detex := rfl
@[simp] theorem State.modBlock_ports (s : State) (i : Nat) (f : Block → Block) : (s.modBlock i f).ports = s.ports := rfl
@[simp] theorem State.modBlock_inq (s : State) (i : Nat) (f : Block → Block) : (s.modBlock i f).inq = s.inq := rfl
@[simp] theorem State.modBlock_coxes (s : State) (i : Nat) (f : Block → Block) : (s.modBlock i f).coxes = s.coxes := rfl
@[simp] theorem State.modBlock_startSlots (s : State) (i : Nat) (f : Block → Block) : (s.modBlock i f).startSlots = s.startSlots := rfl
@[simp] theorem State.modBlock_mpcs (s : State) (i : Nat) (f : Block → Block) : (s.modBlock i f).mpcs = s.mpcs := rfl
@[simp] theorem State.modBlock_owed (s : State) (i : Nat) (f : Block → Block) : (s.modBlock i f).owed = s.owed := rfl
@[simp] theorem State.modBlock_spills (s : State) (i : Nat) (f : Block → Block) : (s.modBlock i f).spills = s.spills := rfl
@[simp] theorem State.modBlock_saved (s : State) (i : Nat) (f : Block → Block) : (s.modBlock i f).saved = s.saved := rfl
@[simp] theorem State.modBlock_secp (s : State) (i : Nat) (f : Block → Block) : (s.modBlock i f).secp = s.secp := rfl

/-! ## modCore -/

@[simp] theorem State.modCore_cycle (s : State) (k : Nat) (f : CoreSt → CoreSt) : (s.modCore k f).cycle = s.cycle := rfl
@[simp] theorem State.modCore_clock (s : State) (k : Nat) (f : CoreSt → CoreSt) : (s.modCore k f).clock = s.clock := rfl
@[simp] theorem State.modCore_clockAcc (s : State) (k : Nat) (f : CoreSt → CoreSt) : (s.modCore k f).clockAcc = s.clockAcc := rfl
@[simp] theorem State.modCore_free (s : State) (k : Nat) (f : CoreSt → CoreSt) : (s.modCore k f).free = s.free := rfl
@[simp] theorem State.modCore_order (s : State) (k : Nat) (f : CoreSt → CoreSt) : (s.modCore k f).order = s.order := rfl
@[simp] theorem State.modCore_inputs (s : State) (k : Nat) (f : CoreSt → CoreSt) : (s.modCore k f).inputs = s.inputs := rfl
@[simp] theorem State.modCore_hostStores (s : State) (k : Nat) (f : CoreSt → CoreSt) : (s.modCore k f).hostStores = s.hostStores := rfl
@[simp] theorem State.modCore_todo (s : State) (k : Nat) (f : CoreSt → CoreSt) : (s.modCore k f).todo = s.todo := rfl
@[simp] theorem State.modCore_cur (s : State) (k : Nat) (f : CoreSt → CoreSt) : (s.modCore k f).cur = s.cur := rfl
@[simp] theorem State.modCore_lastRaise (s : State) (k : Nat) (f : CoreSt → CoreSt) : (s.modCore k f).lastRaise = s.lastRaise := rfl
@[simp] theorem State.modCore_heldMark (s : State) (k : Nat) (f : CoreSt → CoreSt) : (s.modCore k f).heldMark = s.heldMark := rfl
@[simp] theorem State.modCore_mem (s : State) (k : Nat) (f : CoreSt → CoreSt) : (s.modCore k f).mem = s.mem := rfl
@[simp] theorem State.modCore_poison (s : State) (k : Nat) (f : CoreSt → CoreSt) : (s.modCore k f).poison = s.poison := rfl
@[simp] theorem State.modCore_bmem (s : State) (k : Nat) (f : CoreSt → CoreSt) : (s.modCore k f).bmem = s.bmem := rfl
@[simp] theorem State.modCore_amem (s : State) (k : Nat) (f : CoreSt → CoreSt) : (s.modCore k f).amem = s.amem := rfl
@[simp] theorem State.modCore_smem (s : State) (k : Nat) (f : CoreSt → CoreSt) : (s.modCore k f).smem = s.smem := rfl
@[simp] theorem State.modCore_tlb (s : State) (k : Nat) (f : CoreSt → CoreSt) : (s.modCore k f).tlb = s.tlb := rfl
@[simp] theorem State.modCore_hcache (s : State) (k : Nat) (f : CoreSt → CoreSt) : (s.modCore k f).hcache = s.hcache := rfl
@[simp] theorem State.modCore_icache (s : State) (k : Nat) (f : CoreSt → CoreSt) : (s.modCore k f).icache = s.icache := rfl
@[simp] theorem State.modCore_arriving (s : State) (k : Nat) (f : CoreSt → CoreSt) : (s.modCore k f).arriving = s.arriving := rfl
@[simp] theorem State.modCore_dieClk (s : State) (k : Nat) (f : CoreSt → CoreSt) : (s.modCore k f).dieClk = s.dieClk := rfl
@[simp] theorem State.modCore_dieSeen (s : State) (k : Nat) (f : CoreSt → CoreSt) : (s.modCore k f).dieSeen = s.dieSeen := rfl
@[simp] theorem State.modCore_replicas (s : State) (k : Nat) (f : CoreSt → CoreSt) : (s.modCore k f).replicas = s.replicas := rfl
@[simp] theorem State.modCore_past (s : State) (k : Nat) (f : CoreSt → CoreSt) : (s.modCore k f).past = s.past := rfl
@[simp] theorem State.modCore_invs (s : State) (k : Nat) (f : CoreSt → CoreSt) : (s.modCore k f).invs = s.invs := rfl
@[simp] theorem State.modCore_views (s : State) (k : Nat) (f : CoreSt → CoreSt) : (s.modCore k f).views = s.views := rfl
@[simp] theorem State.modCore_narrow (s : State) (k : Nat) (f : CoreSt → CoreSt) : (s.modCore k f).narrow = s.narrow := rfl
@[simp] theorem State.modCore_frags (s : State) (k : Nat) (f : CoreSt → CoreSt) : (s.modCore k f).frags = s.frags := rfl
@[simp] theorem State.modCore_ahead (s : State) (k : Nat) (f : CoreSt → CoreSt) : (s.modCore k f).ahead = s.ahead := rfl
@[simp] theorem State.modCore_crews (s : State) (k : Nat) (f : CoreSt → CoreSt) : (s.modCore k f).crews = s.crews := rfl
@[simp] theorem State.modCore_blocks (s : State) (k : Nat) (f : CoreSt → CoreSt) : (s.modCore k f).blocks = s.blocks := rfl
@[simp] theorem State.modCore_cores (s : State) (k : Nat) (f : CoreSt → CoreSt) : (s.modCore k f).cores = s.cores.set k (f (s.core k)) := rfl
@[simp] theorem State.modCore_asids (s : State) (k : Nat) (f : CoreSt → CoreSt) : (s.modCore k f).asids = s.asids := rfl
@[simp] theorem State.modCore_ctxs (s : State) (k : Nat) (f : CoreSt → CoreSt) : (s.modCore k f).ctxs = s.ctxs := rfl
@[simp] theorem State.modCore_held (s : State) (k : Nat) (f : CoreSt → CoreSt) : (s.modCore k f).held = s.held := rfl
@[simp] theorem State.modCore_ras (s : State) (k : Nat) (f : CoreSt → CoreSt) : (s.modCore k f).ras = s.ras := rfl
@[simp] theorem State.modCore_mgmt (s : State) (k : Nat) (f : CoreSt → CoreSt) : (s.modCore k f).mgmt = s.mgmt := rfl
@[simp] theorem State.modCore_ops (s : State) (k : Nat) (f : CoreSt → CoreSt) : (s.modCore k f).ops = s.ops := rfl
@[simp] theorem State.modCore_accas (s : State) (k : Nat) (f : CoreSt → CoreSt) : (s.modCore k f).accas = s.accas := rfl
@[simp] theorem State.modCore_accfs (s : State) (k : Nat) (f : CoreSt → CoreSt) : (s.modCore k f).accfs = s.accfs := rfl
@[simp] theorem State.modCore_launches (s : State) (k : Nat) (f : CoreSt → CoreSt) : (s.modCore k f).launches = s.launches := rfl
@[simp] theorem State.modCore_groups (s : State) (k : Nat) (f : CoreSt → CoreSt) : (s.modCore k f).groups = s.groups := rfl
@[simp] theorem State.modCore_outq (s : State) (k : Nat) (f : CoreSt → CoreSt) : (s.modCore k f).outq = s.outq := rfl
@[simp] theorem State.modCore_wire (s : State) (k : Nat) (f : CoreSt → CoreSt) : (s.modCore k f).wire = s.wire := rfl
@[simp] theorem State.modCore_landing (s : State) (k : Nat) (f : CoreSt → CoreSt) : (s.modCore k f).landing = s.landing := rfl
@[simp] theorem State.modCore_marks (s : State) (k : Nat) (f : CoreSt → CoreSt) : (s.modCore k f).marks = s.marks := rfl
@[simp] theorem State.modCore_relh (s : State) (k : Nat) (f : CoreSt → CoreSt) : (s.modCore k f).relh = s.relh := rfl
@[simp] theorem State.modCore_aborts (s : State) (k : Nat) (f : CoreSt → CoreSt) : (s.modCore k f).aborts = s.aborts := rfl
@[simp] theorem State.modCore_kds (s : State) (k : Nat) (f : CoreSt → CoreSt) : (s.modCore k f).kds = s.kds := rfl
@[simp] theorem State.modCore_owners (s : State) (k : Nat) (f : CoreSt → CoreSt) : (s.modCore k f).owners = s.owners := rfl
@[simp] theorem State.modCore_keyed (s : State) (k : Nat) (f : CoreSt → CoreSt) : (s.modCore k f).keyed = s.keyed := rfl
@[simp] theorem State.modCore_fabcfg (s : State) (k : Nat) (f : CoreSt → CoreSt) : (s.modCore k f).fabcfg = s.fabcfg := rfl
@[simp] theorem State.modCore_fabto (s : State) (k : Nat) (f : CoreSt → CoreSt) : (s.modCore k f).fabto = s.fabto := rfl
@[simp] theorem State.modCore_lstate (s : State) (k : Nat) (f : CoreSt → CoreSt) : (s.modCore k f).lstate = s.lstate := rfl
@[simp] theorem State.modCore_detex (s : State) (k : Nat) (f : CoreSt → CoreSt) : (s.modCore k f).detex = s.detex := rfl
@[simp] theorem State.modCore_ports (s : State) (k : Nat) (f : CoreSt → CoreSt) : (s.modCore k f).ports = s.ports := rfl
@[simp] theorem State.modCore_inq (s : State) (k : Nat) (f : CoreSt → CoreSt) : (s.modCore k f).inq = s.inq := rfl
@[simp] theorem State.modCore_coxes (s : State) (k : Nat) (f : CoreSt → CoreSt) : (s.modCore k f).coxes = s.coxes := rfl
@[simp] theorem State.modCore_startSlots (s : State) (k : Nat) (f : CoreSt → CoreSt) : (s.modCore k f).startSlots = s.startSlots := rfl
@[simp] theorem State.modCore_mpcs (s : State) (k : Nat) (f : CoreSt → CoreSt) : (s.modCore k f).mpcs = s.mpcs := rfl
@[simp] theorem State.modCore_owed (s : State) (k : Nat) (f : CoreSt → CoreSt) : (s.modCore k f).owed = s.owed := rfl
@[simp] theorem State.modCore_spills (s : State) (k : Nat) (f : CoreSt → CoreSt) : (s.modCore k f).spills = s.spills := rfl
@[simp] theorem State.modCore_saved (s : State) (k : Nat) (f : CoreSt → CoreSt) : (s.modCore k f).saved = s.saved := rfl
@[simp] theorem State.modCore_secp (s : State) (k : Nat) (f : CoreSt → CoreSt) : (s.modCore k f).secp = s.secp := rfl

/-! ## modMgmt -/

@[simp] theorem State.modMgmt_cycle (s : State) (f : Mgmt → Mgmt) : (s.modMgmt f).cycle = s.cycle := rfl
@[simp] theorem State.modMgmt_clock (s : State) (f : Mgmt → Mgmt) : (s.modMgmt f).clock = s.clock := rfl
@[simp] theorem State.modMgmt_clockAcc (s : State) (f : Mgmt → Mgmt) : (s.modMgmt f).clockAcc = s.clockAcc := rfl
@[simp] theorem State.modMgmt_free (s : State) (f : Mgmt → Mgmt) : (s.modMgmt f).free = s.free := rfl
@[simp] theorem State.modMgmt_order (s : State) (f : Mgmt → Mgmt) : (s.modMgmt f).order = s.order := rfl
@[simp] theorem State.modMgmt_inputs (s : State) (f : Mgmt → Mgmt) : (s.modMgmt f).inputs = s.inputs := rfl
@[simp] theorem State.modMgmt_hostStores (s : State) (f : Mgmt → Mgmt) : (s.modMgmt f).hostStores = s.hostStores := rfl
@[simp] theorem State.modMgmt_todo (s : State) (f : Mgmt → Mgmt) : (s.modMgmt f).todo = s.todo := rfl
@[simp] theorem State.modMgmt_cur (s : State) (f : Mgmt → Mgmt) : (s.modMgmt f).cur = s.cur := rfl
@[simp] theorem State.modMgmt_lastRaise (s : State) (f : Mgmt → Mgmt) : (s.modMgmt f).lastRaise = s.lastRaise := rfl
@[simp] theorem State.modMgmt_heldMark (s : State) (f : Mgmt → Mgmt) : (s.modMgmt f).heldMark = s.heldMark := rfl
@[simp] theorem State.modMgmt_mem (s : State) (f : Mgmt → Mgmt) : (s.modMgmt f).mem = s.mem := rfl
@[simp] theorem State.modMgmt_poison (s : State) (f : Mgmt → Mgmt) : (s.modMgmt f).poison = s.poison := rfl
@[simp] theorem State.modMgmt_bmem (s : State) (f : Mgmt → Mgmt) : (s.modMgmt f).bmem = s.bmem := rfl
@[simp] theorem State.modMgmt_amem (s : State) (f : Mgmt → Mgmt) : (s.modMgmt f).amem = s.amem := rfl
@[simp] theorem State.modMgmt_smem (s : State) (f : Mgmt → Mgmt) : (s.modMgmt f).smem = s.smem := rfl
@[simp] theorem State.modMgmt_tlb (s : State) (f : Mgmt → Mgmt) : (s.modMgmt f).tlb = s.tlb := rfl
@[simp] theorem State.modMgmt_hcache (s : State) (f : Mgmt → Mgmt) : (s.modMgmt f).hcache = s.hcache := rfl
@[simp] theorem State.modMgmt_icache (s : State) (f : Mgmt → Mgmt) : (s.modMgmt f).icache = s.icache := rfl
@[simp] theorem State.modMgmt_arriving (s : State) (f : Mgmt → Mgmt) : (s.modMgmt f).arriving = s.arriving := rfl
@[simp] theorem State.modMgmt_dieClk (s : State) (f : Mgmt → Mgmt) : (s.modMgmt f).dieClk = s.dieClk := rfl
@[simp] theorem State.modMgmt_dieSeen (s : State) (f : Mgmt → Mgmt) : (s.modMgmt f).dieSeen = s.dieSeen := rfl
@[simp] theorem State.modMgmt_replicas (s : State) (f : Mgmt → Mgmt) : (s.modMgmt f).replicas = s.replicas := rfl
@[simp] theorem State.modMgmt_past (s : State) (f : Mgmt → Mgmt) : (s.modMgmt f).past = s.past := rfl
@[simp] theorem State.modMgmt_invs (s : State) (f : Mgmt → Mgmt) : (s.modMgmt f).invs = s.invs := rfl
@[simp] theorem State.modMgmt_views (s : State) (f : Mgmt → Mgmt) : (s.modMgmt f).views = s.views := rfl
@[simp] theorem State.modMgmt_narrow (s : State) (f : Mgmt → Mgmt) : (s.modMgmt f).narrow = s.narrow := rfl
@[simp] theorem State.modMgmt_frags (s : State) (f : Mgmt → Mgmt) : (s.modMgmt f).frags = s.frags := rfl
@[simp] theorem State.modMgmt_ahead (s : State) (f : Mgmt → Mgmt) : (s.modMgmt f).ahead = s.ahead := rfl
@[simp] theorem State.modMgmt_crews (s : State) (f : Mgmt → Mgmt) : (s.modMgmt f).crews = s.crews := rfl
@[simp] theorem State.modMgmt_blocks (s : State) (f : Mgmt → Mgmt) : (s.modMgmt f).blocks = s.blocks := rfl
@[simp] theorem State.modMgmt_cores (s : State) (f : Mgmt → Mgmt) : (s.modMgmt f).cores = s.cores := rfl
@[simp] theorem State.modMgmt_asids (s : State) (f : Mgmt → Mgmt) : (s.modMgmt f).asids = s.asids := rfl
@[simp] theorem State.modMgmt_ctxs (s : State) (f : Mgmt → Mgmt) : (s.modMgmt f).ctxs = s.ctxs := rfl
@[simp] theorem State.modMgmt_held (s : State) (f : Mgmt → Mgmt) : (s.modMgmt f).held = s.held := rfl
@[simp] theorem State.modMgmt_ras (s : State) (f : Mgmt → Mgmt) : (s.modMgmt f).ras = s.ras := rfl
@[simp] theorem State.modMgmt_mgmt (s : State) (f : Mgmt → Mgmt) : (s.modMgmt f).mgmt = f s.mgmt := rfl
@[simp] theorem State.modMgmt_ops (s : State) (f : Mgmt → Mgmt) : (s.modMgmt f).ops = s.ops := rfl
@[simp] theorem State.modMgmt_accas (s : State) (f : Mgmt → Mgmt) : (s.modMgmt f).accas = s.accas := rfl
@[simp] theorem State.modMgmt_accfs (s : State) (f : Mgmt → Mgmt) : (s.modMgmt f).accfs = s.accfs := rfl
@[simp] theorem State.modMgmt_launches (s : State) (f : Mgmt → Mgmt) : (s.modMgmt f).launches = s.launches := rfl
@[simp] theorem State.modMgmt_groups (s : State) (f : Mgmt → Mgmt) : (s.modMgmt f).groups = s.groups := rfl
@[simp] theorem State.modMgmt_outq (s : State) (f : Mgmt → Mgmt) : (s.modMgmt f).outq = s.outq := rfl
@[simp] theorem State.modMgmt_wire (s : State) (f : Mgmt → Mgmt) : (s.modMgmt f).wire = s.wire := rfl
@[simp] theorem State.modMgmt_landing (s : State) (f : Mgmt → Mgmt) : (s.modMgmt f).landing = s.landing := rfl
@[simp] theorem State.modMgmt_marks (s : State) (f : Mgmt → Mgmt) : (s.modMgmt f).marks = s.marks := rfl
@[simp] theorem State.modMgmt_relh (s : State) (f : Mgmt → Mgmt) : (s.modMgmt f).relh = s.relh := rfl
@[simp] theorem State.modMgmt_aborts (s : State) (f : Mgmt → Mgmt) : (s.modMgmt f).aborts = s.aborts := rfl
@[simp] theorem State.modMgmt_kds (s : State) (f : Mgmt → Mgmt) : (s.modMgmt f).kds = s.kds := rfl
@[simp] theorem State.modMgmt_owners (s : State) (f : Mgmt → Mgmt) : (s.modMgmt f).owners = s.owners := rfl
@[simp] theorem State.modMgmt_keyed (s : State) (f : Mgmt → Mgmt) : (s.modMgmt f).keyed = s.keyed := rfl
@[simp] theorem State.modMgmt_fabcfg (s : State) (f : Mgmt → Mgmt) : (s.modMgmt f).fabcfg = s.fabcfg := rfl
@[simp] theorem State.modMgmt_fabto (s : State) (f : Mgmt → Mgmt) : (s.modMgmt f).fabto = s.fabto := rfl
@[simp] theorem State.modMgmt_lstate (s : State) (f : Mgmt → Mgmt) : (s.modMgmt f).lstate = s.lstate := rfl
@[simp] theorem State.modMgmt_detex (s : State) (f : Mgmt → Mgmt) : (s.modMgmt f).detex = s.detex := rfl
@[simp] theorem State.modMgmt_ports (s : State) (f : Mgmt → Mgmt) : (s.modMgmt f).ports = s.ports := rfl
@[simp] theorem State.modMgmt_inq (s : State) (f : Mgmt → Mgmt) : (s.modMgmt f).inq = s.inq := rfl
@[simp] theorem State.modMgmt_coxes (s : State) (f : Mgmt → Mgmt) : (s.modMgmt f).coxes = s.coxes := rfl
@[simp] theorem State.modMgmt_startSlots (s : State) (f : Mgmt → Mgmt) : (s.modMgmt f).startSlots = s.startSlots := rfl
@[simp] theorem State.modMgmt_mpcs (s : State) (f : Mgmt → Mgmt) : (s.modMgmt f).mpcs = s.mpcs := rfl
@[simp] theorem State.modMgmt_owed (s : State) (f : Mgmt → Mgmt) : (s.modMgmt f).owed = s.owed := rfl
@[simp] theorem State.modMgmt_spills (s : State) (f : Mgmt → Mgmt) : (s.modMgmt f).spills = s.spills := rfl
@[simp] theorem State.modMgmt_saved (s : State) (f : Mgmt → Mgmt) : (s.modMgmt f).saved = s.saved := rfl
@[simp] theorem State.modMgmt_secp (s : State) (f : Mgmt → Mgmt) : (s.modMgmt f).secp = s.secp := rfl

/-! ## modPort -/

@[simp] theorem State.modPort_cycle (s : State) (p : Nat) (f : Port → Port) : (s.modPort p f).cycle = s.cycle := rfl
@[simp] theorem State.modPort_clock (s : State) (p : Nat) (f : Port → Port) : (s.modPort p f).clock = s.clock := rfl
@[simp] theorem State.modPort_clockAcc (s : State) (p : Nat) (f : Port → Port) : (s.modPort p f).clockAcc = s.clockAcc := rfl
@[simp] theorem State.modPort_free (s : State) (p : Nat) (f : Port → Port) : (s.modPort p f).free = s.free := rfl
@[simp] theorem State.modPort_order (s : State) (p : Nat) (f : Port → Port) : (s.modPort p f).order = s.order := rfl
@[simp] theorem State.modPort_inputs (s : State) (p : Nat) (f : Port → Port) : (s.modPort p f).inputs = s.inputs := rfl
@[simp] theorem State.modPort_hostStores (s : State) (p : Nat) (f : Port → Port) : (s.modPort p f).hostStores = s.hostStores := rfl
@[simp] theorem State.modPort_todo (s : State) (p : Nat) (f : Port → Port) : (s.modPort p f).todo = s.todo := rfl
@[simp] theorem State.modPort_cur (s : State) (p : Nat) (f : Port → Port) : (s.modPort p f).cur = s.cur := rfl
@[simp] theorem State.modPort_lastRaise (s : State) (p : Nat) (f : Port → Port) : (s.modPort p f).lastRaise = s.lastRaise := rfl
@[simp] theorem State.modPort_heldMark (s : State) (p : Nat) (f : Port → Port) : (s.modPort p f).heldMark = s.heldMark := rfl
@[simp] theorem State.modPort_mem (s : State) (p : Nat) (f : Port → Port) : (s.modPort p f).mem = s.mem := rfl
@[simp] theorem State.modPort_poison (s : State) (p : Nat) (f : Port → Port) : (s.modPort p f).poison = s.poison := rfl
@[simp] theorem State.modPort_bmem (s : State) (p : Nat) (f : Port → Port) : (s.modPort p f).bmem = s.bmem := rfl
@[simp] theorem State.modPort_amem (s : State) (p : Nat) (f : Port → Port) : (s.modPort p f).amem = s.amem := rfl
@[simp] theorem State.modPort_smem (s : State) (p : Nat) (f : Port → Port) : (s.modPort p f).smem = s.smem := rfl
@[simp] theorem State.modPort_tlb (s : State) (p : Nat) (f : Port → Port) : (s.modPort p f).tlb = s.tlb := rfl
@[simp] theorem State.modPort_hcache (s : State) (p : Nat) (f : Port → Port) : (s.modPort p f).hcache = s.hcache := rfl
@[simp] theorem State.modPort_icache (s : State) (p : Nat) (f : Port → Port) : (s.modPort p f).icache = s.icache := rfl
@[simp] theorem State.modPort_arriving (s : State) (p : Nat) (f : Port → Port) : (s.modPort p f).arriving = s.arriving := rfl
@[simp] theorem State.modPort_dieClk (s : State) (p : Nat) (f : Port → Port) : (s.modPort p f).dieClk = s.dieClk := rfl
@[simp] theorem State.modPort_dieSeen (s : State) (p : Nat) (f : Port → Port) : (s.modPort p f).dieSeen = s.dieSeen := rfl
@[simp] theorem State.modPort_replicas (s : State) (p : Nat) (f : Port → Port) : (s.modPort p f).replicas = s.replicas := rfl
@[simp] theorem State.modPort_past (s : State) (p : Nat) (f : Port → Port) : (s.modPort p f).past = s.past := rfl
@[simp] theorem State.modPort_invs (s : State) (p : Nat) (f : Port → Port) : (s.modPort p f).invs = s.invs := rfl
@[simp] theorem State.modPort_views (s : State) (p : Nat) (f : Port → Port) : (s.modPort p f).views = s.views := rfl
@[simp] theorem State.modPort_narrow (s : State) (p : Nat) (f : Port → Port) : (s.modPort p f).narrow = s.narrow := rfl
@[simp] theorem State.modPort_frags (s : State) (p : Nat) (f : Port → Port) : (s.modPort p f).frags = s.frags := rfl
@[simp] theorem State.modPort_ahead (s : State) (p : Nat) (f : Port → Port) : (s.modPort p f).ahead = s.ahead := rfl
@[simp] theorem State.modPort_crews (s : State) (p : Nat) (f : Port → Port) : (s.modPort p f).crews = s.crews := rfl
@[simp] theorem State.modPort_blocks (s : State) (p : Nat) (f : Port → Port) : (s.modPort p f).blocks = s.blocks := rfl
@[simp] theorem State.modPort_cores (s : State) (p : Nat) (f : Port → Port) : (s.modPort p f).cores = s.cores := rfl
@[simp] theorem State.modPort_asids (s : State) (p : Nat) (f : Port → Port) : (s.modPort p f).asids = s.asids := rfl
@[simp] theorem State.modPort_ctxs (s : State) (p : Nat) (f : Port → Port) : (s.modPort p f).ctxs = s.ctxs := rfl
@[simp] theorem State.modPort_held (s : State) (p : Nat) (f : Port → Port) : (s.modPort p f).held = s.held := rfl
@[simp] theorem State.modPort_ras (s : State) (p : Nat) (f : Port → Port) : (s.modPort p f).ras = s.ras := rfl
@[simp] theorem State.modPort_mgmt (s : State) (p : Nat) (f : Port → Port) : (s.modPort p f).mgmt = s.mgmt := rfl
@[simp] theorem State.modPort_ops (s : State) (p : Nat) (f : Port → Port) : (s.modPort p f).ops = s.ops := rfl
@[simp] theorem State.modPort_accas (s : State) (p : Nat) (f : Port → Port) : (s.modPort p f).accas = s.accas := rfl
@[simp] theorem State.modPort_accfs (s : State) (p : Nat) (f : Port → Port) : (s.modPort p f).accfs = s.accfs := rfl
@[simp] theorem State.modPort_launches (s : State) (p : Nat) (f : Port → Port) : (s.modPort p f).launches = s.launches := rfl
@[simp] theorem State.modPort_groups (s : State) (p : Nat) (f : Port → Port) : (s.modPort p f).groups = s.groups := rfl
@[simp] theorem State.modPort_outq (s : State) (p : Nat) (f : Port → Port) : (s.modPort p f).outq = s.outq := rfl
@[simp] theorem State.modPort_wire (s : State) (p : Nat) (f : Port → Port) : (s.modPort p f).wire = s.wire := rfl
@[simp] theorem State.modPort_landing (s : State) (p : Nat) (f : Port → Port) : (s.modPort p f).landing = s.landing := rfl
@[simp] theorem State.modPort_marks (s : State) (p : Nat) (f : Port → Port) : (s.modPort p f).marks = s.marks := rfl
@[simp] theorem State.modPort_relh (s : State) (p : Nat) (f : Port → Port) : (s.modPort p f).relh = s.relh := rfl
@[simp] theorem State.modPort_aborts (s : State) (p : Nat) (f : Port → Port) : (s.modPort p f).aborts = s.aborts := rfl
@[simp] theorem State.modPort_kds (s : State) (p : Nat) (f : Port → Port) : (s.modPort p f).kds = s.kds := rfl
@[simp] theorem State.modPort_owners (s : State) (p : Nat) (f : Port → Port) : (s.modPort p f).owners = s.owners := rfl
@[simp] theorem State.modPort_keyed (s : State) (p : Nat) (f : Port → Port) : (s.modPort p f).keyed = s.keyed := rfl
@[simp] theorem State.modPort_fabcfg (s : State) (p : Nat) (f : Port → Port) : (s.modPort p f).fabcfg = s.fabcfg := rfl
@[simp] theorem State.modPort_fabto (s : State) (p : Nat) (f : Port → Port) : (s.modPort p f).fabto = s.fabto := rfl
@[simp] theorem State.modPort_lstate (s : State) (p : Nat) (f : Port → Port) : (s.modPort p f).lstate = s.lstate := rfl
@[simp] theorem State.modPort_detex (s : State) (p : Nat) (f : Port → Port) : (s.modPort p f).detex = s.detex := rfl
@[simp] theorem State.modPort_ports (s : State) (p : Nat) (f : Port → Port) : (s.modPort p f).ports = s.ports.set p (f (s.port p)) := rfl
@[simp] theorem State.modPort_inq (s : State) (p : Nat) (f : Port → Port) : (s.modPort p f).inq = s.inq := rfl
@[simp] theorem State.modPort_coxes (s : State) (p : Nat) (f : Port → Port) : (s.modPort p f).coxes = s.coxes := rfl
@[simp] theorem State.modPort_startSlots (s : State) (p : Nat) (f : Port → Port) : (s.modPort p f).startSlots = s.startSlots := rfl
@[simp] theorem State.modPort_mpcs (s : State) (p : Nat) (f : Port → Port) : (s.modPort p f).mpcs = s.mpcs := rfl
@[simp] theorem State.modPort_owed (s : State) (p : Nat) (f : Port → Port) : (s.modPort p f).owed = s.owed := rfl
@[simp] theorem State.modPort_spills (s : State) (p : Nat) (f : Port → Port) : (s.modPort p f).spills = s.spills := rfl
@[simp] theorem State.modPort_saved (s : State) (p : Nat) (f : Port → Port) : (s.modPort p f).saved = s.saved := rfl
@[simp] theorem State.modPort_secp (s : State) (p : Nat) (f : Port → Port) : (s.modPort p f).secp = s.secp := rfl

/-! ## modGroup -/

@[simp] theorem State.modGroup_cycle (s : State) (g : Nat) (f : Group → Group) : (s.modGroup g f).cycle = s.cycle := rfl
@[simp] theorem State.modGroup_clock (s : State) (g : Nat) (f : Group → Group) : (s.modGroup g f).clock = s.clock := rfl
@[simp] theorem State.modGroup_clockAcc (s : State) (g : Nat) (f : Group → Group) : (s.modGroup g f).clockAcc = s.clockAcc := rfl
@[simp] theorem State.modGroup_free (s : State) (g : Nat) (f : Group → Group) : (s.modGroup g f).free = s.free := rfl
@[simp] theorem State.modGroup_order (s : State) (g : Nat) (f : Group → Group) : (s.modGroup g f).order = s.order := rfl
@[simp] theorem State.modGroup_inputs (s : State) (g : Nat) (f : Group → Group) : (s.modGroup g f).inputs = s.inputs := rfl
@[simp] theorem State.modGroup_hostStores (s : State) (g : Nat) (f : Group → Group) : (s.modGroup g f).hostStores = s.hostStores := rfl
@[simp] theorem State.modGroup_todo (s : State) (g : Nat) (f : Group → Group) : (s.modGroup g f).todo = s.todo := rfl
@[simp] theorem State.modGroup_cur (s : State) (g : Nat) (f : Group → Group) : (s.modGroup g f).cur = s.cur := rfl
@[simp] theorem State.modGroup_lastRaise (s : State) (g : Nat) (f : Group → Group) : (s.modGroup g f).lastRaise = s.lastRaise := rfl
@[simp] theorem State.modGroup_heldMark (s : State) (g : Nat) (f : Group → Group) : (s.modGroup g f).heldMark = s.heldMark := rfl
@[simp] theorem State.modGroup_mem (s : State) (g : Nat) (f : Group → Group) : (s.modGroup g f).mem = s.mem := rfl
@[simp] theorem State.modGroup_poison (s : State) (g : Nat) (f : Group → Group) : (s.modGroup g f).poison = s.poison := rfl
@[simp] theorem State.modGroup_bmem (s : State) (g : Nat) (f : Group → Group) : (s.modGroup g f).bmem = s.bmem := rfl
@[simp] theorem State.modGroup_amem (s : State) (g : Nat) (f : Group → Group) : (s.modGroup g f).amem = s.amem := rfl
@[simp] theorem State.modGroup_smem (s : State) (g : Nat) (f : Group → Group) : (s.modGroup g f).smem = s.smem := rfl
@[simp] theorem State.modGroup_tlb (s : State) (g : Nat) (f : Group → Group) : (s.modGroup g f).tlb = s.tlb := rfl
@[simp] theorem State.modGroup_hcache (s : State) (g : Nat) (f : Group → Group) : (s.modGroup g f).hcache = s.hcache := rfl
@[simp] theorem State.modGroup_icache (s : State) (g : Nat) (f : Group → Group) : (s.modGroup g f).icache = s.icache := rfl
@[simp] theorem State.modGroup_arriving (s : State) (g : Nat) (f : Group → Group) : (s.modGroup g f).arriving = s.arriving := rfl
@[simp] theorem State.modGroup_dieClk (s : State) (g : Nat) (f : Group → Group) : (s.modGroup g f).dieClk = s.dieClk := rfl
@[simp] theorem State.modGroup_dieSeen (s : State) (g : Nat) (f : Group → Group) : (s.modGroup g f).dieSeen = s.dieSeen := rfl
@[simp] theorem State.modGroup_replicas (s : State) (g : Nat) (f : Group → Group) : (s.modGroup g f).replicas = s.replicas := rfl
@[simp] theorem State.modGroup_past (s : State) (g : Nat) (f : Group → Group) : (s.modGroup g f).past = s.past := rfl
@[simp] theorem State.modGroup_invs (s : State) (g : Nat) (f : Group → Group) : (s.modGroup g f).invs = s.invs := rfl
@[simp] theorem State.modGroup_views (s : State) (g : Nat) (f : Group → Group) : (s.modGroup g f).views = s.views := rfl
@[simp] theorem State.modGroup_narrow (s : State) (g : Nat) (f : Group → Group) : (s.modGroup g f).narrow = s.narrow := rfl
@[simp] theorem State.modGroup_frags (s : State) (g : Nat) (f : Group → Group) : (s.modGroup g f).frags = s.frags := rfl
@[simp] theorem State.modGroup_ahead (s : State) (g : Nat) (f : Group → Group) : (s.modGroup g f).ahead = s.ahead := rfl
@[simp] theorem State.modGroup_crews (s : State) (g : Nat) (f : Group → Group) : (s.modGroup g f).crews = s.crews := rfl
@[simp] theorem State.modGroup_blocks (s : State) (g : Nat) (f : Group → Group) : (s.modGroup g f).blocks = s.blocks := rfl
@[simp] theorem State.modGroup_cores (s : State) (g : Nat) (f : Group → Group) : (s.modGroup g f).cores = s.cores := rfl
@[simp] theorem State.modGroup_asids (s : State) (g : Nat) (f : Group → Group) : (s.modGroup g f).asids = s.asids := rfl
@[simp] theorem State.modGroup_ctxs (s : State) (g : Nat) (f : Group → Group) : (s.modGroup g f).ctxs = s.ctxs := rfl
@[simp] theorem State.modGroup_held (s : State) (g : Nat) (f : Group → Group) : (s.modGroup g f).held = s.held := rfl
@[simp] theorem State.modGroup_ras (s : State) (g : Nat) (f : Group → Group) : (s.modGroup g f).ras = s.ras := rfl
@[simp] theorem State.modGroup_mgmt (s : State) (g : Nat) (f : Group → Group) : (s.modGroup g f).mgmt = s.mgmt := rfl
@[simp] theorem State.modGroup_ops (s : State) (g : Nat) (f : Group → Group) : (s.modGroup g f).ops = s.ops := rfl
@[simp] theorem State.modGroup_accas (s : State) (g : Nat) (f : Group → Group) : (s.modGroup g f).accas = s.accas := rfl
@[simp] theorem State.modGroup_accfs (s : State) (g : Nat) (f : Group → Group) : (s.modGroup g f).accfs = s.accfs := rfl
@[simp] theorem State.modGroup_launches (s : State) (g : Nat) (f : Group → Group) : (s.modGroup g f).launches = s.launches := rfl
@[simp] theorem State.modGroup_groups (s : State) (g : Nat) (f : Group → Group) : (s.modGroup g f).groups = s.groups.set g (f (s.grp g)) := rfl
@[simp] theorem State.modGroup_outq (s : State) (g : Nat) (f : Group → Group) : (s.modGroup g f).outq = s.outq := rfl
@[simp] theorem State.modGroup_wire (s : State) (g : Nat) (f : Group → Group) : (s.modGroup g f).wire = s.wire := rfl
@[simp] theorem State.modGroup_landing (s : State) (g : Nat) (f : Group → Group) : (s.modGroup g f).landing = s.landing := rfl
@[simp] theorem State.modGroup_marks (s : State) (g : Nat) (f : Group → Group) : (s.modGroup g f).marks = s.marks := rfl
@[simp] theorem State.modGroup_relh (s : State) (g : Nat) (f : Group → Group) : (s.modGroup g f).relh = s.relh := rfl
@[simp] theorem State.modGroup_aborts (s : State) (g : Nat) (f : Group → Group) : (s.modGroup g f).aborts = s.aborts := rfl
@[simp] theorem State.modGroup_kds (s : State) (g : Nat) (f : Group → Group) : (s.modGroup g f).kds = s.kds := rfl
@[simp] theorem State.modGroup_owners (s : State) (g : Nat) (f : Group → Group) : (s.modGroup g f).owners = s.owners := rfl
@[simp] theorem State.modGroup_keyed (s : State) (g : Nat) (f : Group → Group) : (s.modGroup g f).keyed = s.keyed := rfl
@[simp] theorem State.modGroup_fabcfg (s : State) (g : Nat) (f : Group → Group) : (s.modGroup g f).fabcfg = s.fabcfg := rfl
@[simp] theorem State.modGroup_fabto (s : State) (g : Nat) (f : Group → Group) : (s.modGroup g f).fabto = s.fabto := rfl
@[simp] theorem State.modGroup_lstate (s : State) (g : Nat) (f : Group → Group) : (s.modGroup g f).lstate = s.lstate := rfl
@[simp] theorem State.modGroup_detex (s : State) (g : Nat) (f : Group → Group) : (s.modGroup g f).detex = s.detex := rfl
@[simp] theorem State.modGroup_ports (s : State) (g : Nat) (f : Group → Group) : (s.modGroup g f).ports = s.ports := rfl
@[simp] theorem State.modGroup_inq (s : State) (g : Nat) (f : Group → Group) : (s.modGroup g f).inq = s.inq := rfl
@[simp] theorem State.modGroup_coxes (s : State) (g : Nat) (f : Group → Group) : (s.modGroup g f).coxes = s.coxes := rfl
@[simp] theorem State.modGroup_startSlots (s : State) (g : Nat) (f : Group → Group) : (s.modGroup g f).startSlots = s.startSlots := rfl
@[simp] theorem State.modGroup_mpcs (s : State) (g : Nat) (f : Group → Group) : (s.modGroup g f).mpcs = s.mpcs := rfl
@[simp] theorem State.modGroup_owed (s : State) (g : Nat) (f : Group → Group) : (s.modGroup g f).owed = s.owed := rfl
@[simp] theorem State.modGroup_spills (s : State) (g : Nat) (f : Group → Group) : (s.modGroup g f).spills = s.spills := rfl
@[simp] theorem State.modGroup_saved (s : State) (g : Nat) (f : Group → Group) : (s.modGroup g f).saved = s.saved := rfl
@[simp] theorem State.modGroup_secp (s : State) (g : Nat) (f : Group → Group) : (s.modGroup g f).secp = s.secp := rfl

/-! ## setKd -/

@[simp] theorem State.setKd_cycle (s : State) (d : Nat) (k : KeyDom) : (s.setKd d k).cycle = s.cycle := rfl
@[simp] theorem State.setKd_clock (s : State) (d : Nat) (k : KeyDom) : (s.setKd d k).clock = s.clock := rfl
@[simp] theorem State.setKd_clockAcc (s : State) (d : Nat) (k : KeyDom) : (s.setKd d k).clockAcc = s.clockAcc := rfl
@[simp] theorem State.setKd_free (s : State) (d : Nat) (k : KeyDom) : (s.setKd d k).free = s.free := rfl
@[simp] theorem State.setKd_order (s : State) (d : Nat) (k : KeyDom) : (s.setKd d k).order = s.order := rfl
@[simp] theorem State.setKd_inputs (s : State) (d : Nat) (k : KeyDom) : (s.setKd d k).inputs = s.inputs := rfl
@[simp] theorem State.setKd_hostStores (s : State) (d : Nat) (k : KeyDom) : (s.setKd d k).hostStores = s.hostStores := rfl
@[simp] theorem State.setKd_todo (s : State) (d : Nat) (k : KeyDom) : (s.setKd d k).todo = s.todo := rfl
@[simp] theorem State.setKd_cur (s : State) (d : Nat) (k : KeyDom) : (s.setKd d k).cur = s.cur := rfl
@[simp] theorem State.setKd_lastRaise (s : State) (d : Nat) (k : KeyDom) : (s.setKd d k).lastRaise = s.lastRaise := rfl
@[simp] theorem State.setKd_heldMark (s : State) (d : Nat) (k : KeyDom) : (s.setKd d k).heldMark = s.heldMark := rfl
@[simp] theorem State.setKd_mem (s : State) (d : Nat) (k : KeyDom) : (s.setKd d k).mem = s.mem := rfl
@[simp] theorem State.setKd_poison (s : State) (d : Nat) (k : KeyDom) : (s.setKd d k).poison = s.poison := rfl
@[simp] theorem State.setKd_bmem (s : State) (d : Nat) (k : KeyDom) : (s.setKd d k).bmem = s.bmem := rfl
@[simp] theorem State.setKd_amem (s : State) (d : Nat) (k : KeyDom) : (s.setKd d k).amem = s.amem := rfl
@[simp] theorem State.setKd_smem (s : State) (d : Nat) (k : KeyDom) : (s.setKd d k).smem = s.smem := rfl
@[simp] theorem State.setKd_tlb (s : State) (d : Nat) (k : KeyDom) : (s.setKd d k).tlb = s.tlb := rfl
@[simp] theorem State.setKd_hcache (s : State) (d : Nat) (k : KeyDom) : (s.setKd d k).hcache = s.hcache := rfl
@[simp] theorem State.setKd_icache (s : State) (d : Nat) (k : KeyDom) : (s.setKd d k).icache = s.icache := rfl
@[simp] theorem State.setKd_arriving (s : State) (d : Nat) (k : KeyDom) : (s.setKd d k).arriving = s.arriving := rfl
@[simp] theorem State.setKd_dieClk (s : State) (d : Nat) (k : KeyDom) : (s.setKd d k).dieClk = s.dieClk := rfl
@[simp] theorem State.setKd_dieSeen (s : State) (d : Nat) (k : KeyDom) : (s.setKd d k).dieSeen = s.dieSeen := rfl
@[simp] theorem State.setKd_replicas (s : State) (d : Nat) (k : KeyDom) : (s.setKd d k).replicas = s.replicas := rfl
@[simp] theorem State.setKd_past (s : State) (d : Nat) (k : KeyDom) : (s.setKd d k).past = s.past := rfl
@[simp] theorem State.setKd_invs (s : State) (d : Nat) (k : KeyDom) : (s.setKd d k).invs = s.invs := rfl
@[simp] theorem State.setKd_views (s : State) (d : Nat) (k : KeyDom) : (s.setKd d k).views = s.views := rfl
@[simp] theorem State.setKd_narrow (s : State) (d : Nat) (k : KeyDom) : (s.setKd d k).narrow = s.narrow := rfl
@[simp] theorem State.setKd_frags (s : State) (d : Nat) (k : KeyDom) : (s.setKd d k).frags = s.frags := rfl
@[simp] theorem State.setKd_ahead (s : State) (d : Nat) (k : KeyDom) : (s.setKd d k).ahead = s.ahead := rfl
@[simp] theorem State.setKd_crews (s : State) (d : Nat) (k : KeyDom) : (s.setKd d k).crews = s.crews := rfl
@[simp] theorem State.setKd_blocks (s : State) (d : Nat) (k : KeyDom) : (s.setKd d k).blocks = s.blocks := rfl
@[simp] theorem State.setKd_cores (s : State) (d : Nat) (k : KeyDom) : (s.setKd d k).cores = s.cores := rfl
@[simp] theorem State.setKd_asids (s : State) (d : Nat) (k : KeyDom) : (s.setKd d k).asids = s.asids := rfl
@[simp] theorem State.setKd_ctxs (s : State) (d : Nat) (k : KeyDom) : (s.setKd d k).ctxs = s.ctxs := rfl
@[simp] theorem State.setKd_held (s : State) (d : Nat) (k : KeyDom) : (s.setKd d k).held = s.held := rfl
@[simp] theorem State.setKd_ras (s : State) (d : Nat) (k : KeyDom) : (s.setKd d k).ras = s.ras := rfl
@[simp] theorem State.setKd_mgmt (s : State) (d : Nat) (k : KeyDom) : (s.setKd d k).mgmt = s.mgmt := rfl
@[simp] theorem State.setKd_ops (s : State) (d : Nat) (k : KeyDom) : (s.setKd d k).ops = s.ops := rfl
@[simp] theorem State.setKd_accas (s : State) (d : Nat) (k : KeyDom) : (s.setKd d k).accas = s.accas := rfl
@[simp] theorem State.setKd_accfs (s : State) (d : Nat) (k : KeyDom) : (s.setKd d k).accfs = s.accfs := rfl
@[simp] theorem State.setKd_launches (s : State) (d : Nat) (k : KeyDom) : (s.setKd d k).launches = s.launches := rfl
@[simp] theorem State.setKd_groups (s : State) (d : Nat) (k : KeyDom) : (s.setKd d k).groups = s.groups := rfl
@[simp] theorem State.setKd_outq (s : State) (d : Nat) (k : KeyDom) : (s.setKd d k).outq = s.outq := rfl
@[simp] theorem State.setKd_wire (s : State) (d : Nat) (k : KeyDom) : (s.setKd d k).wire = s.wire := rfl
@[simp] theorem State.setKd_landing (s : State) (d : Nat) (k : KeyDom) : (s.setKd d k).landing = s.landing := rfl
@[simp] theorem State.setKd_marks (s : State) (d : Nat) (k : KeyDom) : (s.setKd d k).marks = s.marks := rfl
@[simp] theorem State.setKd_relh (s : State) (d : Nat) (k : KeyDom) : (s.setKd d k).relh = s.relh := rfl
@[simp] theorem State.setKd_aborts (s : State) (d : Nat) (k : KeyDom) : (s.setKd d k).aborts = s.aborts := rfl
@[simp] theorem State.setKd_kds (s : State) (d : Nat) (k : KeyDom) : (s.setKd d k).kds = s.kds.set d k := rfl
@[simp] theorem State.setKd_owners (s : State) (d : Nat) (k : KeyDom) : (s.setKd d k).owners = s.owners := rfl
@[simp] theorem State.setKd_keyed (s : State) (d : Nat) (k : KeyDom) : (s.setKd d k).keyed = s.keyed := rfl
@[simp] theorem State.setKd_fabcfg (s : State) (d : Nat) (k : KeyDom) : (s.setKd d k).fabcfg = s.fabcfg := rfl
@[simp] theorem State.setKd_fabto (s : State) (d : Nat) (k : KeyDom) : (s.setKd d k).fabto = s.fabto := rfl
@[simp] theorem State.setKd_lstate (s : State) (d : Nat) (k : KeyDom) : (s.setKd d k).lstate = s.lstate := rfl
@[simp] theorem State.setKd_detex (s : State) (d : Nat) (k : KeyDom) : (s.setKd d k).detex = s.detex := rfl
@[simp] theorem State.setKd_ports (s : State) (d : Nat) (k : KeyDom) : (s.setKd d k).ports = s.ports := rfl
@[simp] theorem State.setKd_inq (s : State) (d : Nat) (k : KeyDom) : (s.setKd d k).inq = s.inq := rfl
@[simp] theorem State.setKd_coxes (s : State) (d : Nat) (k : KeyDom) : (s.setKd d k).coxes = s.coxes := rfl
@[simp] theorem State.setKd_startSlots (s : State) (d : Nat) (k : KeyDom) : (s.setKd d k).startSlots = s.startSlots := rfl
@[simp] theorem State.setKd_mpcs (s : State) (d : Nat) (k : KeyDom) : (s.setKd d k).mpcs = s.mpcs := rfl
@[simp] theorem State.setKd_owed (s : State) (d : Nat) (k : KeyDom) : (s.setKd d k).owed = s.owed := rfl
@[simp] theorem State.setKd_spills (s : State) (d : Nat) (k : KeyDom) : (s.setKd d k).spills = s.spills := rfl
@[simp] theorem State.setKd_saved (s : State) (d : Nat) (k : KeyDom) : (s.setKd d k).saved = s.saved := rfl
@[simp] theorem State.setKd_secp (s : State) (d : Nat) (k : KeyDom) : (s.setKd d k).secp = s.secp := rfl

/-! ## modCox -/

@[simp] theorem State.modCox_cycle (s : State) (p : Nat) (f : CoxSt → CoxSt) : (s.modCox p f).cycle = s.cycle := rfl
@[simp] theorem State.modCox_clock (s : State) (p : Nat) (f : CoxSt → CoxSt) : (s.modCox p f).clock = s.clock := rfl
@[simp] theorem State.modCox_clockAcc (s : State) (p : Nat) (f : CoxSt → CoxSt) : (s.modCox p f).clockAcc = s.clockAcc := rfl
@[simp] theorem State.modCox_free (s : State) (p : Nat) (f : CoxSt → CoxSt) : (s.modCox p f).free = s.free := rfl
@[simp] theorem State.modCox_order (s : State) (p : Nat) (f : CoxSt → CoxSt) : (s.modCox p f).order = s.order := rfl
@[simp] theorem State.modCox_inputs (s : State) (p : Nat) (f : CoxSt → CoxSt) : (s.modCox p f).inputs = s.inputs := rfl
@[simp] theorem State.modCox_hostStores (s : State) (p : Nat) (f : CoxSt → CoxSt) : (s.modCox p f).hostStores = s.hostStores := rfl
@[simp] theorem State.modCox_todo (s : State) (p : Nat) (f : CoxSt → CoxSt) : (s.modCox p f).todo = s.todo := rfl
@[simp] theorem State.modCox_cur (s : State) (p : Nat) (f : CoxSt → CoxSt) : (s.modCox p f).cur = s.cur := rfl
@[simp] theorem State.modCox_lastRaise (s : State) (p : Nat) (f : CoxSt → CoxSt) : (s.modCox p f).lastRaise = s.lastRaise := rfl
@[simp] theorem State.modCox_heldMark (s : State) (p : Nat) (f : CoxSt → CoxSt) : (s.modCox p f).heldMark = s.heldMark := rfl
@[simp] theorem State.modCox_mem (s : State) (p : Nat) (f : CoxSt → CoxSt) : (s.modCox p f).mem = s.mem := rfl
@[simp] theorem State.modCox_poison (s : State) (p : Nat) (f : CoxSt → CoxSt) : (s.modCox p f).poison = s.poison := rfl
@[simp] theorem State.modCox_bmem (s : State) (p : Nat) (f : CoxSt → CoxSt) : (s.modCox p f).bmem = s.bmem := rfl
@[simp] theorem State.modCox_amem (s : State) (p : Nat) (f : CoxSt → CoxSt) : (s.modCox p f).amem = s.amem := rfl
@[simp] theorem State.modCox_smem (s : State) (p : Nat) (f : CoxSt → CoxSt) : (s.modCox p f).smem = s.smem := rfl
@[simp] theorem State.modCox_tlb (s : State) (p : Nat) (f : CoxSt → CoxSt) : (s.modCox p f).tlb = s.tlb := rfl
@[simp] theorem State.modCox_hcache (s : State) (p : Nat) (f : CoxSt → CoxSt) : (s.modCox p f).hcache = s.hcache := rfl
@[simp] theorem State.modCox_icache (s : State) (p : Nat) (f : CoxSt → CoxSt) : (s.modCox p f).icache = s.icache := rfl
@[simp] theorem State.modCox_arriving (s : State) (p : Nat) (f : CoxSt → CoxSt) : (s.modCox p f).arriving = s.arriving := rfl
@[simp] theorem State.modCox_dieClk (s : State) (p : Nat) (f : CoxSt → CoxSt) : (s.modCox p f).dieClk = s.dieClk := rfl
@[simp] theorem State.modCox_dieSeen (s : State) (p : Nat) (f : CoxSt → CoxSt) : (s.modCox p f).dieSeen = s.dieSeen := rfl
@[simp] theorem State.modCox_replicas (s : State) (p : Nat) (f : CoxSt → CoxSt) : (s.modCox p f).replicas = s.replicas := rfl
@[simp] theorem State.modCox_past (s : State) (p : Nat) (f : CoxSt → CoxSt) : (s.modCox p f).past = s.past := rfl
@[simp] theorem State.modCox_invs (s : State) (p : Nat) (f : CoxSt → CoxSt) : (s.modCox p f).invs = s.invs := rfl
@[simp] theorem State.modCox_views (s : State) (p : Nat) (f : CoxSt → CoxSt) : (s.modCox p f).views = s.views := rfl
@[simp] theorem State.modCox_narrow (s : State) (p : Nat) (f : CoxSt → CoxSt) : (s.modCox p f).narrow = s.narrow := rfl
@[simp] theorem State.modCox_frags (s : State) (p : Nat) (f : CoxSt → CoxSt) : (s.modCox p f).frags = s.frags := rfl
@[simp] theorem State.modCox_ahead (s : State) (p : Nat) (f : CoxSt → CoxSt) : (s.modCox p f).ahead = s.ahead := rfl
@[simp] theorem State.modCox_crews (s : State) (p : Nat) (f : CoxSt → CoxSt) : (s.modCox p f).crews = s.crews := rfl
@[simp] theorem State.modCox_blocks (s : State) (p : Nat) (f : CoxSt → CoxSt) : (s.modCox p f).blocks = s.blocks := rfl
@[simp] theorem State.modCox_cores (s : State) (p : Nat) (f : CoxSt → CoxSt) : (s.modCox p f).cores = s.cores := rfl
@[simp] theorem State.modCox_asids (s : State) (p : Nat) (f : CoxSt → CoxSt) : (s.modCox p f).asids = s.asids := rfl
@[simp] theorem State.modCox_ctxs (s : State) (p : Nat) (f : CoxSt → CoxSt) : (s.modCox p f).ctxs = s.ctxs := rfl
@[simp] theorem State.modCox_held (s : State) (p : Nat) (f : CoxSt → CoxSt) : (s.modCox p f).held = s.held := rfl
@[simp] theorem State.modCox_ras (s : State) (p : Nat) (f : CoxSt → CoxSt) : (s.modCox p f).ras = s.ras := rfl
@[simp] theorem State.modCox_mgmt (s : State) (p : Nat) (f : CoxSt → CoxSt) : (s.modCox p f).mgmt = s.mgmt := rfl
@[simp] theorem State.modCox_ops (s : State) (p : Nat) (f : CoxSt → CoxSt) : (s.modCox p f).ops = s.ops := rfl
@[simp] theorem State.modCox_accas (s : State) (p : Nat) (f : CoxSt → CoxSt) : (s.modCox p f).accas = s.accas := rfl
@[simp] theorem State.modCox_accfs (s : State) (p : Nat) (f : CoxSt → CoxSt) : (s.modCox p f).accfs = s.accfs := rfl
@[simp] theorem State.modCox_launches (s : State) (p : Nat) (f : CoxSt → CoxSt) : (s.modCox p f).launches = s.launches := rfl
@[simp] theorem State.modCox_groups (s : State) (p : Nat) (f : CoxSt → CoxSt) : (s.modCox p f).groups = s.groups := rfl
@[simp] theorem State.modCox_outq (s : State) (p : Nat) (f : CoxSt → CoxSt) : (s.modCox p f).outq = s.outq := rfl
@[simp] theorem State.modCox_wire (s : State) (p : Nat) (f : CoxSt → CoxSt) : (s.modCox p f).wire = s.wire := rfl
@[simp] theorem State.modCox_landing (s : State) (p : Nat) (f : CoxSt → CoxSt) : (s.modCox p f).landing = s.landing := rfl
@[simp] theorem State.modCox_marks (s : State) (p : Nat) (f : CoxSt → CoxSt) : (s.modCox p f).marks = s.marks := rfl
@[simp] theorem State.modCox_relh (s : State) (p : Nat) (f : CoxSt → CoxSt) : (s.modCox p f).relh = s.relh := rfl
@[simp] theorem State.modCox_aborts (s : State) (p : Nat) (f : CoxSt → CoxSt) : (s.modCox p f).aborts = s.aborts := rfl
@[simp] theorem State.modCox_kds (s : State) (p : Nat) (f : CoxSt → CoxSt) : (s.modCox p f).kds = s.kds := rfl
@[simp] theorem State.modCox_owners (s : State) (p : Nat) (f : CoxSt → CoxSt) : (s.modCox p f).owners = s.owners := rfl
@[simp] theorem State.modCox_keyed (s : State) (p : Nat) (f : CoxSt → CoxSt) : (s.modCox p f).keyed = s.keyed := rfl
@[simp] theorem State.modCox_fabcfg (s : State) (p : Nat) (f : CoxSt → CoxSt) : (s.modCox p f).fabcfg = s.fabcfg := rfl
@[simp] theorem State.modCox_fabto (s : State) (p : Nat) (f : CoxSt → CoxSt) : (s.modCox p f).fabto = s.fabto := rfl
@[simp] theorem State.modCox_lstate (s : State) (p : Nat) (f : CoxSt → CoxSt) : (s.modCox p f).lstate = s.lstate := rfl
@[simp] theorem State.modCox_detex (s : State) (p : Nat) (f : CoxSt → CoxSt) : (s.modCox p f).detex = s.detex := rfl
@[simp] theorem State.modCox_ports (s : State) (p : Nat) (f : CoxSt → CoxSt) : (s.modCox p f).ports = s.ports := rfl
@[simp] theorem State.modCox_inq (s : State) (p : Nat) (f : CoxSt → CoxSt) : (s.modCox p f).inq = s.inq := rfl
@[simp] theorem State.modCox_coxes (s : State) (p : Nat) (f : CoxSt → CoxSt) : (s.modCox p f).coxes = s.coxes.set p (f (s.coxes.getD p CoxSt.reset)) := rfl
@[simp] theorem State.modCox_startSlots (s : State) (p : Nat) (f : CoxSt → CoxSt) : (s.modCox p f).startSlots = s.startSlots := rfl
@[simp] theorem State.modCox_mpcs (s : State) (p : Nat) (f : CoxSt → CoxSt) : (s.modCox p f).mpcs = s.mpcs := rfl
@[simp] theorem State.modCox_owed (s : State) (p : Nat) (f : CoxSt → CoxSt) : (s.modCox p f).owed = s.owed := rfl
@[simp] theorem State.modCox_spills (s : State) (p : Nat) (f : CoxSt → CoxSt) : (s.modCox p f).spills = s.spills := rfl
@[simp] theorem State.modCox_saved (s : State) (p : Nat) (f : CoxSt → CoxSt) : (s.modCox p f).saved = s.saved := rfl
@[simp] theorem State.modCox_secp (s : State) (p : Nat) (f : CoxSt → CoxSt) : (s.modCox p f).secp = s.secp := rfl

/-! ## endTurn -/

@[simp] theorem State.endTurn_cycle (s : State) : s.endTurn.cycle = s.cycle := rfl
@[simp] theorem State.endTurn_clock (s : State) : s.endTurn.clock = s.clock := rfl
@[simp] theorem State.endTurn_clockAcc (s : State) : s.endTurn.clockAcc = s.clockAcc := rfl
@[simp] theorem State.endTurn_free (s : State) : s.endTurn.free = s.free := rfl
@[simp] theorem State.endTurn_order (s : State) : s.endTurn.order = s.order := rfl
@[simp] theorem State.endTurn_inputs (s : State) : s.endTurn.inputs = s.inputs := rfl
@[simp] theorem State.endTurn_hostStores (s : State) : s.endTurn.hostStores = s.hostStores := rfl
@[simp] theorem State.endTurn_todo (s : State) : s.endTurn.todo = s.todo := rfl
@[simp] theorem State.endTurn_cur (s : State) : s.endTurn.cur = Cursor.idle := rfl
@[simp] theorem State.endTurn_lastRaise (s : State) : s.endTurn.lastRaise = none := rfl
@[simp] theorem State.endTurn_heldMark (s : State) : s.endTurn.heldMark = false := rfl
@[simp] theorem State.endTurn_mem (s : State) : s.endTurn.mem = s.mem := rfl
@[simp] theorem State.endTurn_poison (s : State) : s.endTurn.poison = s.poison := rfl
@[simp] theorem State.endTurn_bmem (s : State) : s.endTurn.bmem = s.bmem := rfl
@[simp] theorem State.endTurn_amem (s : State) : s.endTurn.amem = s.amem := rfl
@[simp] theorem State.endTurn_smem (s : State) : s.endTurn.smem = s.smem := rfl
@[simp] theorem State.endTurn_tlb (s : State) : s.endTurn.tlb = s.tlb := rfl
@[simp] theorem State.endTurn_hcache (s : State) : s.endTurn.hcache = s.hcache := rfl
@[simp] theorem State.endTurn_icache (s : State) : s.endTurn.icache = s.icache := rfl
@[simp] theorem State.endTurn_arriving (s : State) : s.endTurn.arriving = s.arriving := rfl
@[simp] theorem State.endTurn_dieClk (s : State) : s.endTurn.dieClk = s.dieClk := rfl
@[simp] theorem State.endTurn_dieSeen (s : State) : s.endTurn.dieSeen = s.dieSeen := rfl
@[simp] theorem State.endTurn_replicas (s : State) : s.endTurn.replicas = s.replicas := rfl
@[simp] theorem State.endTurn_past (s : State) : s.endTurn.past = s.past := rfl
@[simp] theorem State.endTurn_invs (s : State) : s.endTurn.invs = s.invs := rfl
@[simp] theorem State.endTurn_views (s : State) : s.endTurn.views = s.views := rfl
@[simp] theorem State.endTurn_narrow (s : State) : s.endTurn.narrow = s.narrow := rfl
@[simp] theorem State.endTurn_frags (s : State) : s.endTurn.frags = s.frags := rfl
@[simp] theorem State.endTurn_ahead (s : State) : s.endTurn.ahead = s.ahead := rfl
@[simp] theorem State.endTurn_crews (s : State) : s.endTurn.crews = s.crews := rfl
@[simp] theorem State.endTurn_blocks (s : State) : s.endTurn.blocks = s.blocks := rfl
@[simp] theorem State.endTurn_cores (s : State) : s.endTurn.cores = s.cores := rfl
@[simp] theorem State.endTurn_asids (s : State) : s.endTurn.asids = s.asids := rfl
@[simp] theorem State.endTurn_ctxs (s : State) : s.endTurn.ctxs = s.ctxs := rfl
@[simp] theorem State.endTurn_held (s : State) : s.endTurn.held = s.held := rfl
@[simp] theorem State.endTurn_ras (s : State) : s.endTurn.ras = s.ras := rfl
@[simp] theorem State.endTurn_mgmt (s : State) : s.endTurn.mgmt = s.mgmt := rfl
@[simp] theorem State.endTurn_ops (s : State) : s.endTurn.ops = s.ops := rfl
@[simp] theorem State.endTurn_accas (s : State) : s.endTurn.accas = s.accas := rfl
@[simp] theorem State.endTurn_accfs (s : State) : s.endTurn.accfs = s.accfs := rfl
@[simp] theorem State.endTurn_launches (s : State) : s.endTurn.launches = s.launches := rfl
@[simp] theorem State.endTurn_groups (s : State) : s.endTurn.groups = s.groups := rfl
@[simp] theorem State.endTurn_outq (s : State) : s.endTurn.outq = s.outq := rfl
@[simp] theorem State.endTurn_wire (s : State) : s.endTurn.wire = s.wire := rfl
@[simp] theorem State.endTurn_landing (s : State) : s.endTurn.landing = s.landing := rfl
@[simp] theorem State.endTurn_marks (s : State) : s.endTurn.marks = s.marks := rfl
@[simp] theorem State.endTurn_relh (s : State) : s.endTurn.relh = s.relh := rfl
@[simp] theorem State.endTurn_aborts (s : State) : s.endTurn.aborts = s.aborts := rfl
@[simp] theorem State.endTurn_kds (s : State) : s.endTurn.kds = s.kds := rfl
@[simp] theorem State.endTurn_owners (s : State) : s.endTurn.owners = s.owners := rfl
@[simp] theorem State.endTurn_keyed (s : State) : s.endTurn.keyed = s.keyed := rfl
@[simp] theorem State.endTurn_fabcfg (s : State) : s.endTurn.fabcfg = s.fabcfg := rfl
@[simp] theorem State.endTurn_fabto (s : State) : s.endTurn.fabto = s.fabto := rfl
@[simp] theorem State.endTurn_lstate (s : State) : s.endTurn.lstate = s.lstate := rfl
@[simp] theorem State.endTurn_detex (s : State) : s.endTurn.detex = s.detex := rfl
@[simp] theorem State.endTurn_ports (s : State) : s.endTurn.ports = s.ports := rfl
@[simp] theorem State.endTurn_inq (s : State) : s.endTurn.inq = s.inq := rfl
@[simp] theorem State.endTurn_coxes (s : State) : s.endTurn.coxes = s.coxes := rfl
@[simp] theorem State.endTurn_startSlots (s : State) : s.endTurn.startSlots = s.startSlots := rfl
@[simp] theorem State.endTurn_mpcs (s : State) : s.endTurn.mpcs = s.mpcs := rfl
@[simp] theorem State.endTurn_owed (s : State) : s.endTurn.owed = s.owed := rfl
@[simp] theorem State.endTurn_spills (s : State) : s.endTurn.spills = s.spills := rfl
@[simp] theorem State.endTurn_saved (s : State) : s.endTurn.saved = s.saved := rfl
@[simp] theorem State.endTurn_secp (s : State) : s.endTurn.secp = s.secp := rfl

/-! ## setSlot -/

@[simp] theorem Crew.setSlot_id (c : Crew) (k : Bool) (p : PcSlot) : (c.setSlot k p).id = c.id := by cases k <;> rfl
@[simp] theorem Crew.setSlot_blk (c : Crew) (k : Bool) (p : PcSlot) : (c.setSlot k p).blk = c.blk := by cases k <;> rfl
@[simp] theorem Crew.setSlot_ctx (c : Crew) (k : Bool) (p : PcSlot) : (c.setSlot k p).ctx = c.ctx := by cases k <;> rfl
@[simp] theorem Crew.setSlot_idx (c : Crew) (k : Bool) (p : PcSlot) : (c.setSlot k p).idx = c.idx := by cases k <;> rfl
@[simp] theorem Crew.setSlot_core (c : Crew) (k : Bool) (p : PcSlot) : (c.setSlot k p).core = c.core := by cases k <;> rfl
@[simp] theorem Crew.setSlot_quad (c : Crew) (k : Bool) (p : PcSlot) : (c.setSlot k p).quad = c.quad := by cases k <;> rfl
@[simp] theorem Crew.setSlot_qslot (c : Crew) (k : Bool) (p : PcSlot) : (c.setSlot k p).qslot = c.qslot := by cases k <;> rfl
@[simp] theorem Crew.setSlot_n (c : Crew) (k : Bool) (p : PcSlot) : (c.setSlot k p).n = c.n := by cases k <;> rfl
@[simp] theorem Crew.setSlot_regs (c : Crew) (k : Bool) (p : PcSlot) : (c.setSlot k p).regs = c.regs := by cases k <;> rfl
@[simp] theorem Crew.setSlot_depth (c : Crew) (k : Bool) (p : PcSlot) : (c.setSlot k p).depth = c.depth := by cases k <;> rfl
@[simp] theorem Crew.setSlot_dsh (c : Crew) (k : Bool) (p : PcSlot) : (c.setSlot k p).dsh = c.dsh := by cases k <;> rfl
@[simp] theorem Crew.setSlot_dsPart (c : Crew) (k : Bool) (p : PcSlot) : (c.setSlot k p).dsPart = c.dsPart := by cases k <;> rfl
@[simp] theorem Crew.setSlot_dsValid (c : Crew) (k : Bool) (p : PcSlot) : (c.setSlot k p).dsValid = c.dsValid := by cases k <;> rfl
@[simp] theorem Crew.setSlot_queues (c : Crew) (k : Bool) (p : PcSlot) : (c.setSlot k p).queues = c.queues := by cases k <;> rfl
@[simp] theorem Crew.setSlot_flags (c : Crew) (k : Bool) (p : PcSlot) : (c.setSlot k p).flags = c.flags := by cases k <;> rfl
@[simp] theorem Crew.setSlot_lastIssue (c : Crew) (k : Bool) (p : PcSlot) : (c.setSlot k p).lastIssue = c.lastIssue := by cases k <;> rfl
@[simp] theorem Crew.setSlot_lastEver (c : Crew) (k : Bool) (p : PcSlot) : (c.setSlot k p).lastEver = c.lastEver := by cases k <;> rfl
@[simp] theorem Crew.setSlot_flights (c : Crew) (k : Bool) (p : PcSlot) : (c.setSlot k p).flights = c.flights := by cases k <;> rfl
@[simp] theorem Crew.setSlot_mode (c : Crew) (k : Bool) (p : PcSlot) : (c.setSlot k p).mode = c.mode := by cases k <;> rfl
@[simp] theorem Crew.setSlot_fp (c : Crew) (k : Bool) (p : PcSlot) : (c.setSlot k p).fp = c.fp := by cases k <;> rfl
@[simp] theorem Crew.setSlot_rng (c : Crew) (k : Bool) (p : PcSlot) : (c.setSlot k p).rng = c.rng := by cases k <;> rfl
@[simp] theorem Crew.setSlot_rngCap (c : Crew) (k : Bool) (p : PcSlot) : (c.setSlot k p).rngCap = c.rngCap := by cases k <;> rfl
@[simp] theorem Crew.setSlot_regc (c : Crew) (k : Bool) (p : PcSlot) : (c.setSlot k p).regc = c.regc := by cases k <;> rfl
@[simp] theorem Crew.setSlot_pfmode (c : Crew) (k : Bool) (p : PcSlot) : (c.setSlot k p).pfmode = c.pfmode := by cases k <;> rfl
@[simp] theorem Crew.setSlot_srOld (c : Crew) (k : Bool) (p : PcSlot) : (c.setSlot k p).srOld = c.srOld := by cases k <;> rfl
@[simp] theorem Crew.setSlot_exited (c : Crew) (k : Bool) (p : PcSlot) : (c.setSlot k p).exited = c.exited := by cases k <;> rfl
@[simp] theorem Crew.setSlot_ocnt (c : Crew) (k : Bool) (p : PcSlot) : (c.setSlot k p).ocnt = c.ocnt := by cases k <;> rfl
@[simp] theorem Crew.setSlot_errs (c : Crew) (k : Bool) (p : PcSlot) : (c.setSlot k p).errs = c.errs := by cases k <;> rfl
@[simp] theorem Crew.setSlot_gatestat (c : Crew) (k : Bool) (p : PcSlot) : (c.setSlot k p).gatestat = c.gatestat := by cases k <;> rfl
@[simp] theorem Crew.setSlot_trapq (c : Crew) (k : Bool) (p : PcSlot) : (c.setSlot k p).trapq = c.trapq := by cases k <;> rfl
@[simp] theorem Crew.setSlot_insvc (c : Crew) (k : Bool) (p : PcSlot) : (c.setSlot k p).insvc = c.insvc := by cases k <;> rfl
@[simp] theorem Crew.setSlot_svcSlot (c : Crew) (k : Bool) (p : PcSlot) : (c.setSlot k p).svcSlot = c.svcSlot := by cases k <;> rfl
@[simp] theorem Crew.setSlot_skip (c : Crew) (k : Bool) (p : PcSlot) : (c.setSlot k p).skip = c.skip := by cases k <;> rfl
@[simp] theorem Crew.setSlot_trapcause (c : Crew) (k : Bool) (p : PcSlot) : (c.setSlot k p).trapcause = c.trapcause := by cases k <;> rfl
@[simp] theorem Crew.setSlot_trapva (c : Crew) (k : Bool) (p : PcSlot) : (c.setSlot k p).trapva = c.trapva := by cases k <;> rfl
@[simp] theorem Crew.setSlot_tvec (c : Crew) (k : Bool) (p : PcSlot) : (c.setSlot k p).tvec = c.tvec := by cases k <;> rfl
@[simp] theorem Crew.setSlot_trecs (c : Crew) (k : Bool) (p : PcSlot) : (c.setSlot k p).trecs = c.trecs := by cases k <;> rfl
@[simp] theorem Crew.setSlot_arrive (c : Crew) (k : Bool) (p : PcSlot) : (c.setSlot k p).arrive = c.arrive := by cases k <;> rfl
@[simp] theorem Crew.setSlot_armed (c : Crew) (k : Bool) (p : PcSlot) : (c.setSlot k p).armed = c.armed := by cases k <;> rfl
@[simp] theorem Crew.setSlot_armedP (c : Crew) (k : Bool) (p : PcSlot) : (c.setSlot k p).armedP = c.armedP := by cases k <;> rfl
@[simp] theorem Crew.setSlot_carrive (c : Crew) (k : Bool) (p : PcSlot) : (c.setSlot k p).carrive = c.carrive := by cases k <;> rfl
@[simp] theorem Crew.setSlot_gates (c : Crew) (k : Bool) (p : PcSlot) : (c.setSlot k p).gates = c.gates := by cases k <;> rfl
@[simp] theorem Crew.setSlot_priv (c : Crew) (k : Bool) (p : PcSlot) : (c.setSlot k p).priv = c.priv := by cases k <;> rfl
@[simp] theorem Crew.setSlot_dom (c : Crew) (k : Bool) (p : PcSlot) : (c.setSlot k p).dom = c.dom := by cases k <;> rfl
@[simp] theorem Crew.setSlot_dent (c : Crew) (k : Bool) (p : PcSlot) : (c.setSlot k p).dent = c.dent := by cases k <;> rfl
@[simp] theorem Crew.setSlot_asid (c : Crew) (k : Bool) (p : PcSlot) : (c.setSlot k p).asid = c.asid := by cases k <;> rfl
@[simp] theorem Crew.setSlot_ht (c : Crew) (k : Bool) (p : PcSlot) : (c.setSlot k p).ht = c.ht := by cases k <;> rfl
@[simp] theorem Crew.setSlot_window (c : Crew) (k : Bool) (p : PcSlot) : (c.setSlot k p).window = c.window := by cases k <;> rfl
@[simp] theorem Crew.setSlot_budget (c : Crew) (k : Bool) (p : PcSlot) : (c.setSlot k p).budget = c.budget := by cases k <;> rfl
@[simp] theorem Crew.setSlot_demote (c : Crew) (k : Bool) (p : PcSlot) : (c.setSlot k p).demote = c.demote := by cases k <;> rfl
@[simp] theorem Crew.setSlot_demotedFrom (c : Crew) (k : Bool) (p : PcSlot) : (c.setSlot k p).demotedFrom = c.demotedFrom := by cases k <;> rfl
@[simp] theorem Crew.setSlot_stall (c : Crew) (k : Bool) (p : PcSlot) : (c.setSlot k p).stall = c.stall := by cases k <;> rfl
@[simp] theorem Crew.setSlot_unwinding (c : Crew) (k : Bool) (p : PcSlot) : (c.setSlot k p).unwinding = c.unwinding := by cases k <;> rfl
@[simp] theorem Crew.setSlot_stepPend (c : Crew) (k : Bool) (p : PcSlot) : (c.setSlot k p).stepPend = c.stepPend := by cases k <;> rfl
@[simp] theorem Crew.setSlot_retired (c : Crew) (k : Bool) (p : PcSlot) : (c.setSlot k p).retired = c.retired := by cases k <;> rfl
@[simp] theorem Crew.setSlot_narr (c : Crew) (k : Bool) (p : PcSlot) : (c.setSlot k p).narr = c.narr := by cases k <;> rfl
@[simp] theorem Crew.setSlot_cin (c : Crew) (k : Bool) (p : PcSlot) : (c.setSlot k p).cin = c.cin := by cases k <;> rfl
@[simp] theorem Crew.setSlot_cont (c : Crew) (k : Bool) (p : PcSlot) : (c.setSlot k p).cont = c.cont := by cases k <;> rfl
@[simp] theorem Crew.setSlot_slot (c : Crew) (k : Bool) (p : PcSlot) : (c.setSlot k p).slot k = p := by cases k <;> rfl
@[simp] theorem Crew.setSlot_other (c : Crew) (k : Bool) (p : PcSlot) : (c.setSlot k p).slot (!k) = c.slot (!k) := by cases k <;> rfl

end Sys2Proof.Machine
end

