-- ==== Sys2Proof/Tests/Slice0.lean ====
section
/-!
SUPPORT. Tests/Slice0.lean: small checks of the model on values worked out from the specification, and for the statements of Obligations.lean
concrete states and operands that meet their hypotheses.
-/

namespace Sys2Proof.Tests

open Sys2Proof Sys2Proof.Machine Sys2Proof.Claims

set_option Elab.async false

/-! ## Ill-formed terms -/

theorem test_illop_of_an_assigned_opc_is_ill_formed : wellFormed (.illop 0x000#10 0#86) = false := by decide
theorem test_illop_of_class_15_is_well_formed : wellFormed (.illop 0x3C0#10 0#86) = true := by decide
theorem test_cox_illop_of_an_assigned_opc_is_ill_formed : wellFormed (.coxIllop 0x20#6 0#58) = false := by decide

/-! ## A crew that is about to issue -/

/-- No STALL, no WAIT, no flag. -/
def h0 : Hdr := hd 15#4
/-- Bit 1 of register 248, which no test sets: no lane is in `act`. -/
def never : Guard := ⟨0#3, 1#5, 0#1⟩
/-- The lanes in which bit 0 of register 248 is zero. -/
def even : Guard := ⟨0#3, 0#5, 1#1⟩
/-- Crew 1 of block 1, of context 1, at 0x10000; g changes it. -/
def me (g : Crew → Crew := id) : Crew := g (Crew.start 1 1 1 1 0x10000#64)
/-- The package in service with that crew about to issue; h changes the state. -/
def ready (g : Crew → Crew := id) (h : State → State := id) : State :=
  h { State.reset with
    mgmt := { Mgmt.reset with boot := true, stage := 3, dieup := 15#4, stackup := 255#8 },
    order := 2, crews := [me g], blocks := [Block.start 1 1 1],
    cur := { Cursor.idle with crew := some 1, pc := 0x10000#64, next := 0x10001#64 } }
/-- Registers from r on hold the words given, in every lane. -/
def regs (r : Nat) (ws : List Word) (c : Crew) : Crew :=
  { c with regs := (List.range ws.length).foldl (fun rs i => rs.set (r + i) (List.replicate 64 (ws.getD i 0#32))) c.regs }
/-- Register 248 holds the lane's number: the guard `even` passes the even lanes. -/
def lanes248 (c : Crew) : Crew := { c with regs := c.regs.set 248 ((List.range 64).map (fun l => BitVec.ofNat 32 l)) }

/-- The premises of a statement about an instruction that issues, with a further premise on what it sees. -/
def Sees (s : State) (c : Crew) (sp : Spec) (bad : Crew → Bool) (P : Ctx → Prop) : Prop := Issues s c sp bad ∧ Steady s c ∧ P (s.view c sp)

theorem issues_of {s : State} {c : Crew} {sp : Spec} {bad : Crew → Bool} (h1 : s.opening.issuer? = some c)
    (h2 : (mayIssue s.opening c sp.h && !sp.deny && (!sp.priv || c.priv == 2) && !specBad sp c.n && !bad (seenCrew s.opening c) &&
      (queueFault c.queues sp.srcs sp.dsts).isNone && (c.slot s.cur.slot).st == .running && ((c.slot (!s.cur.slot)).st != .free || c.depth == 0)) = true) :
    Issues s c sp bad ∧ Steady s c := by
  simp only [Bool.and_eq_true, Bool.not_eq_true', Bool.or_eq_true, beq_iff_eq, bne_iff_ne, Option.isNone_iff_eq_none] at h2
  obtain ⟨⟨⟨⟨⟨⟨⟨a1, a2⟩, a3⟩, a4⟩, a5⟩, a6⟩, a7⟩, a8⟩ := h2
  refine ⟨⟨h1, a1, a2, fun hp => ?_, a4, a5, a6⟩, a7, a8⟩
  rcases a3 with h | h
  · rw [hp] at h; cases h
  · exact h

theorem sees_of {s : State} {c : Crew} {sp : Spec} {bad : Crew → Bool} {P : Ctx → Prop} [DecidablePred P] (h1 : s.opening.issuer? = some c)
    (h2 : ((mayIssue s.opening c sp.h && !sp.deny && (!sp.priv || c.priv == 2) && !specBad sp c.n && !bad (seenCrew s.opening c) &&
      (queueFault c.queues sp.srcs sp.dsts).isNone && (c.slot s.cur.slot).st == .running && ((c.slot (!s.cur.slot)).st != .free || c.depth == 0)) &&
      decide (P (s.view c sp))) = true) : Sees s c sp bad P := by
  rw [Bool.and_eq_true, decide_eq_true_eq] at h2
  exact ⟨(issues_of h1 h2.1).1, (issues_of h1 h2.1).2, h2.2⟩

/-- Where MODE enables no exception, none is raised. -/
theorem noFpx_of {x : Ctx} (r : Nat → LaneRes) (h : modeEnables x.c.mode = 0) : NoFpx x r := by
  intro l _ _; rw [h, Nat.and_zero]

/-! ## Register instructions -/

/-- A form R instruction over registers 10, 20, 30, 40. -/
def fR (u : RUse) : FormR :=
  { h := h0, ga := Guard.none, gb := Guard.none, md := 0, d := 10, a := if u.a.isSome then 20 else 0,
    b := if u.b.isSome then 30 else 0, c := if u.c.isSome then 40 else 0, rsv := 0 }
/-- A form I instruction. -/
def fI (d a : BitVec 8) (imm : BitVec 32) (sub : BitVec 7 := 0) (ga : Guard := Guard.none) : FormI := { h := h0, ga := ga, d := d, a := a, imm := imm, sub := sub }
/-- A form X instruction over registers 10, 20, 30, 40 and 50. -/
def fX (d : BitVec 8 := 10) (e : BitVec 8 := 50) (ga : Guard := Guard.none) : FormX :=
  { h := h0, ga := ga, gb := Guard.none, d := d, a := 20, b := 30, c := 40, e := e, rsv := 0 }

theorem premises_integerRows : ∀ r ∈ integerRows ++ bitwiseRows ++ shiftRows ++ bitFieldRows ++ packedRows,
    Issues ready me (r.spec (fR r.use)) (r.use.bad (fR r.use)) ∧ Steady ready me := by
  intro r hr
  refine issues_of rfl ?_
  revert r
  simp only [integerRows, bitwiseRows, shiftRows, bitFieldRows, packedRows, List.cons_append, List.nil_append, List.forall_mem_cons]
  decide +kernel
theorem premises_pairRows : ∀ r ∈ pairRows, Issues ready me (r.spec (fR r.use)) (r.use.bad (fR r.use)) ∧ Steady ready me := by
  intro r hr
  refine issues_of rfl ?_
  revert r
  simp only [pairRows, List.forall_mem_cons]
  decide +kernel
theorem premises_immediateRows : ∀ r ∈ immediateRows,
    let f := fI 10 (if r.source then 20 else 0) 0xFFFFFFFF#32
    Issues ready me (r.spec f) (fun _ => r.bad f) ∧ Steady ready me := by
  intro r hr
  refine issues_of rfl ?_
  revert r
  simp only [immediateRows, List.forall_mem_cons]
  decide +kernel
theorem premises_wideImmediate : Issues ready me (specI (fI 10 20 1) [grp 20 2] [grp 10 2] (.fixed 2)) (fun _ => (fI 10 20 1).sub ≠ 0#7) ∧ Steady ready me :=
  issues_of rfl (by decide +kernel)
theorem premises_carry : Issues ready me (carrySpec (fX)) (fun _ => (fX).rsv ≠ 0#6 || (fX).d == (fX).e) ∧ Steady ready me := issues_of rfl (by decide +kernel)
theorem premises_bfi : Issues ready me (bfiSpec (fX)) (fun _ => (fX).rsv ≠ 0#6) ∧ Steady ready me := issues_of rfl (by decide +kernel)
/-- Both comparands of a compare: the immediate, and a register. -/
theorem premises_compare : ∀ f ∈ [fI 248 20 0xFFFFFFFF#32 0x5F#7, fI 255 20 30#32 0#7], Issues ready me (cmpSpec f) (fun _ => cmpBad f) ∧ Steady ready me := by
  intro f hf
  refine issues_of rfl ?_
  revert f
  decide +kernel

/-- A queue of one register at the top of the window that R18 admits, and one that reaches a register too far. -/
theorem premises_qdef : ∀ d ∈ ([246, 247] : List (BitVec 8)), let f := fI d 0 1#32 7#7
    Issues ready me (specI f [] [] (.fixed 2)) (fun _ => f.ga ≠ Guard.none || f.a ≠ 0#8 || f.imm.toNat / 16 ≠ 0 || f.sub.toNat / 8 ≠ 0) ∧ Steady ready me := by
  intro d hd
  refine issues_of rfl ?_
  revert d
  decide +kernel
theorem admitted_qdef : 246 + 2 ≤ me.n - 8 ∧ ∀ j, j < 8 → j ≠ 7 → ∀ r, 246 ≤ r → r < 246 + 2 → qHas (me.queues.getD j 0#32) r = false := by
  refine ⟨by decide, ?_⟩
  intro j hj _ r _ _
  have : me.queues.getD j 0#32 = 0#32 := by interval_cases j <;> rfl
  rw [this]; simp [qHas, qV]
theorem not_admitted_qdef : ¬ (247 + 2 ≤ me.n - 8) := by decide
theorem premises_qfree : let f := fI 0 0 0 7#7
    Issues ready me (specI f [] [] (.fixed 2)) (fun _ => f.ga ≠ Guard.none || f.a ≠ 0#8 || f.d ≠ 0#8 || f.imm ≠ 0#32 || f.sub.toNat / 8 ≠ 0) ∧ Steady ready me :=
  issues_of rfl (by decide +kernel)

/-- The checks of issue: an instruction held back by a flag, one with a field that is reserved, one that pops an empty queue. -/
theorem premises_checked : let c := me (fun c => { c with flags := c.flags.set 0 1, queues := c.queues.set 0 0x80000114#32 })
    let s := ready (fun c => { c with flags := c.flags.set 0 1, queues := c.queues.set 0 0x80000114#32 })
    let sp := specR (fR useII) useII [one 10] (.fixed 2)
    s.opening.issuer? = some c ∧ mayIssue s.opening c { h0 with wait := 1#12 } = false ∧ mayIssue s.opening c h0 = true ∧
    useII.bad { fR useII with rsv := 1#2 } (seenCrew s.opening c) = true ∧
    specBad sp c.n = false ∧ useII.bad (fR useII) (seenCrew s.opening c) = false ∧ queueFault c.queues sp.srcs sp.dsts = some 0 := by
  refine ⟨rfl, ?_⟩
  decide +kernel

theorem premises_floatRows : ∀ r ∈ floatRows ++ classRows ++ rootRows, Sees ready me (r.spec (fR r.use)) (r.use.bad (fR r.use)) (fun x => modeEnables x.c.mode = 0) := by
  intro r hr
  refine sees_of rfl ?_
  revert r
  simp only [floatRows, classRows, rootRows, List.cons_append, List.nil_append, List.forall_mem_cons]
  decide +kernel
theorem premises_floatImmediate : let f := fI 10 20 0x3F800000#32
    Sees ready me (specI f [one f.a] [one f.d] (.fixed 4)) (fun _ => f.sub ≠ 0#7) (fun x => modeEnables x.c.mode = 0) := sees_of rfl (by decide +kernel)
theorem premises_floatCompare : ∀ r ∈ floatCompareRows, ∀ f ∈ [fI 248 20 0x7FC00000#32 0x5F#7, fI 255 20 30#32 0#7],
    Sees ready me (r.spec f) (fun _ => cmpBad f) (fun x => modeEnables x.c.mode = 0) := by
  intro r hr f hf
  refine sees_of rfl ?_
  revert r f
  simp only [floatCompareRows, List.forall_mem_cons]
  decide +kernel
theorem premises_functions : Sees ready me (specR (fR (use1 .f32)) (use1 .f32) [one 10] (.fixed 12)) ((use1 .f32).bad (fR (use1 .f32))) (fun x => modeEnables x.c.mode = 0) :=
  sees_of rfl (by decide +kernel)
/-- cvt of the worked encoding of R133; from FP64 to FP32; with MERGE; cvt.sr from FP32 to FP16. -/
theorem premises_cvt : let f := FormI.ofWord 0x54000003C0003018000282000#96
    Sees ready me (cvtSpec f) (fun _ => f.sub ≠ 0#7 || (CvtImm.of f.imm).bad false) (fun x => modeEnables x.c.mode = 0) := sees_of rfl (by decide +kernel)
/-- pack and unpack forms. -/
theorem premises_pack : ∀ r ∈ packRows, Sees ready me (r.spec (fX)) (fun _ => (fX).rsv ≠ 0#6) (fun x => modeEnables x.c.mode = 0) := by
  intro r hr
  refine sees_of rfl ?_
  revert r
  simp only [packRows, List.forall_mem_cons]
  decide +kernel
theorem premises_unpack : ∀ r ∈ unpackRows, let f := { fR (use1 r.ty) with d := 16 }
    Sees ready me (r.spec f) ((use1 r.ty).bad f) (fun x => modeEnables x.c.mode = 0) := by
  intro r hr f
  refine sees_of rfl ?_
  revert f r
  simp only [unpackRows, List.forall_mem_cons]
  decide +kernel
/-- Two lanes, whose control word is w. -/
def two (w : Word) (c : Crew) : Crew := { regs 30 [w] c with a := { c.a with mask := 3#64 } }
/-- qblk with segments of 8 and of 64 lanes, and with an empty `act`; dqblk. -/
def QblkCase (w : Word) : Prop := let f := fR useQ
  Sees (ready (two w)) (me (two w)) (specR f useQ [grp f.d 2] (.fixed 14)) (fun c => useQ.bad f c || (!c.perm && bitsOf f.md.toNat 7 4 ≠ 0))
    (fun x => modeEnables x.c.mode = 0 ∧ x.act ≠ 0#64 ∧
      3 ≤ (x.opB (ready (two w)).opening useQ f x.l0).toNat / 16 % 8 ∧ (x.opB (ready (two w)).opening useQ f x.l0).toNat / 16 % 8 ≤ 6) ∧
  let x := (ready (two w)).view (me (two w)) (specR f useQ [grp f.d 2] (.fixed 14))
  ∀ l, l < 64 → x.act.getLsbD l → qctlBad (qblkWord f x (ready (two w)).opening l) = false
theorem qblkCase_of {w : Word} (h : let x := (ready (two w)).view (me (two w)) (specR (fR useQ) useQ [grp 10 2] (.fixed 14))
    Sees (ready (two w)) (me (two w)) (specR (fR useQ) useQ [grp 10 2] (.fixed 14)) (fun c => useQ.bad (fR useQ) c || (!c.perm && bitsOf (fR useQ).md.toNat 7 4 ≠ 0))
      (fun x => modeEnables x.c.mode = 0 ∧ x.act ≠ 0#64 ∧
        3 ≤ (x.opB (ready (two w)).opening useQ (fR useQ) x.l0).toNat / 16 % 8 ∧ (x.opB (ready (two w)).opening useQ (fR useQ) x.l0).toNat / 16 % 8 ≤ 6) ∧
    (∀ l, l < 64 → x.act.getLsbD l → l < 2) ∧ ∀ l, l < 2 → qctlBad (qblkWord (fR useQ) x (ready (two w)).opening l) = false) : QblkCase w :=
  ⟨h.1, fun l hl ha => h.2.2 l (h.2.1 l hl ha)⟩
theorem premises_qblk : QblkCase 0x30#32 ∧ QblkCase 0x60#32 :=
  ⟨qblkCase_of ⟨sees_of rfl (by decide +kernel), by decide +kernel, by decide +kernel⟩,
   qblkCase_of ⟨sees_of rfl (by decide +kernel), by decide +kernel, by decide +kernel⟩⟩
theorem premises_qblk_empty : let f := { fR useQ with ga := never }
    Sees ready me (specR f useQ [grp f.d 2] (.fixed 14)) (fun c => useQ.bad f c || (!c.perm && bitsOf f.md.toNat 7 4 ≠ 0))
      (fun x => modeEnables x.c.mode = 0 ∧ x.act = 0#64) := sees_of rfl (by decide +kernel)
theorem premises_dqblk : let f := fR useDq
    Sees ready me (specR f useDq [one f.d] (.fixed 14)) (fun c => useDq.bad f c || (!c.perm && f.md ≠ 0#12))
      (fun x => modeEnables x.c.mode = 0 ∧ ∀ l, l < 64 → x.act.getLsbD l → qctlBad (x.opC (ready).opening useDq f l).toNat = false) := sees_of rfl (by decide +kernel)
theorem premises_rngnext : let f := fR ⟨none, none, none⟩
    Issues ready me (specR f ⟨none, none, none⟩ [one f.d] (.fixed 2)) (RUse.bad ⟨none, none, none⟩ f) ∧ Steady ready me := issues_of rfl (by decide +kernel)
theorem premises_rngseed : let u : RUse := ⟨some .b32, some .b32, none⟩; let f := { fR u with d := 0 }
    Issues ready me (specR f u [] (.fixed 2)) (fun c => u.bad f c || (!c.perm && bitsOf f.md.toNat 11 4 ≠ 0) || f.d ≠ 0#8) ∧ Steady ready me := issues_of rfl (by decide +kernel)

/-! ## Cross-lane -/

/-- The point reads in segments of 8 lanes, Z set. -/
theorem premises_pointRows : ∀ r ∈ pointRows, let f := fI 10 20 (if r.index then 30 else 0x100) 0x43#7
    Sees ready me (r.spec f) (fun _ => xlBad f true || r.bad f) (fun _ => f.sub.getLsbD 6 = true) := by
  intro r hr f
  refine sees_of rfl ?_
  revert f r
  simp only [pointRows, List.forall_mem_cons]
  decide +kernel
/-- A rotation finds every source lane with Z clear; a shift up by 63 lanes leaves all but one lane without a source. -/
theorem premises_rotation : let f := fI 10 20 0x100
    ∀ r ∈ pointRows.take 1, Sees ready me (r.spec f) (fun _ => xlBad f true || r.bad f)
      (fun x => ∀ l, l < 64 → x.act.getLsbD l → (r.from f x (ready).opening l).isSome) := by
  intro f r hr
  refine sees_of rfl ?_
  revert r
  simp only [pointRows, List.take_succ_cons, List.take_zero, List.forall_mem_cons]
  decide +kernel
theorem premises_missing : let f := fI 10 20 0x3F00
    ∀ r ∈ (pointRows.drop 1).take 2, Sees ready me (r.spec f) (fun _ => xlBad f true || r.bad f)
      (fun x => f.sub.getLsbD 6 = false ∧ mkMask (fun l => x.act.getLsbD l && (r.from f x (ready).opening l).isNone) ≠ 0#64) := by
  intro f r hr
  refine sees_of rfl ?_
  revert r
  simp only [pointRows, List.take_succ_cons, List.take_zero, List.drop_succ_cons, List.drop_zero, List.forall_mem_cons]
  decide +kernel
/-- A butterfly with Z clear among the even lanes, at distance 1: every lane lacks its partner. -/
theorem premises_missing_partner : let f := fI 10 20 0x100 0 even
    Sees (ready lanes248) (me lanes248) (bflySpec f) (fun _ => bflyBad f)
      (fun x => f.sub.getLsbD 6 = false ∧ mkMask (fun l => x.act.getLsbD l && !x.act.getLsbD (l ^^^ distance f)) ≠ 0#64) :=
  sees_of rfl (by decide +kernel)
/-- The forms that complete with every lane in `act`, and with Z set. -/
def one1 (f : FormI) : Spec := specI f [one f.a] [one f.d] (.fixed 6)
theorem premises_lane_reads : ∀ z ∈ [0#7, 0x40#7],
    (let f := fI 10 20 0x100 (z ||| 3#7); Sees ready me (one1 f) (fun _ => xlBad f true || (XlImm.of f.imm).bad true false) (fun x => f.sub.getLsbD 6 = true ∨ x.act = BitVec.allOnes 64)) ∧
    (let f := fI 10 20 0x100 (z ||| 3#7); Sees ready me (one1 f) (fun _ => xlBad f true || ((XlImm.of f.imm).bad false false || decide (segSize f ≤ distance f)))
      (fun x => f.sub.getLsbD 6 = true ∨ x.act = BitVec.allOnes 64)) ∧
    (let f := fI 10 20 0x2000 z; Sees ready me (bflySpec f) (fun _ => bflyBad f) (fun x => f.sub.getLsbD 6 = true ∨ x.act = BitVec.allOnes 64)) := by
  intro z hz
  refine ⟨sees_of rfl ?_, sees_of rfl ?_, sees_of rfl ?_⟩ <;> revert z <;> decide +kernel
theorem premises_lane_shifts : (let f := fI 10 20 0x3F00 0x40#7; Sees ready me (one1 f) (fun _ => xlBad f true || (XlImm.of f.imm).bad false false) (fun _ => f.sub.getLsbD 6 = true)) ∧
    (let f := fI 10 20 30 0x40#7; Sees ready me (specI f [one f.a, ⟨f.imm.toNat % 2 ^ 8, 1⟩] [one f.d] (.fixed 6)) (fun _ => xlBad f true || (XlImm.of f.imm).bad false true)
      (fun _ => f.sub.getLsbD 6 = true)) := ⟨sees_of rfl (by decide +kernel), sees_of rfl (by decide +kernel)⟩
/-- A butterfly over a group of 32 registers with distance 2, and over one register with the full half of the crew. -/
theorem premises_bfly : ∀ f ∈ [FormI.ofWord 0x6158003C0000000000080285#96, fI 10 20 0x2000], Sees ready me (bflySpec f) (fun _ => bflyBad f)
    (fun x => ∀ l, l < 64 → x.act.getLsbD l → x.act.getLsbD (l ^^^ distance f)) := by
  intro f hf
  refine sees_of rfl ?_
  revert f
  decide +kernel
theorem premises_reduction : let f := fI 10 20 0 6#7
    Sees ready me (specI f [one f.a] [one f.d] (.fixed 14)) (fun _ => xlBad f false || f.imm ≠ 0#32) (fun x => modeEnables x.c.mode = 0) := sees_of rfl (by decide +kernel)
theorem premises_ballot : let f := fI 10 20 31
    Issues ready me (maskSpec f) (fun _ => xlBad f false || f.imm.toNat / 32 ≠ 0) ∧ Steady ready me := issues_of rfl (by decide +kernel)
theorem premises_match : let f := fI 10 20 0
    Issues ready me (maskSpec f) (fun _ => xlBad f false || f.imm ≠ 0#32) ∧ Steady ready me := issues_of rfl (by decide +kernel)
theorem premises_vote : let f := fI 255 20 0x1F1F
    Issues ready me (voteSpec f) (fun _ => voteBad f) ∧ Steady ready me := issues_of rfl (by decide +kernel)
theorem premises_topk : ∀ f ∈ [fI 16 20 0x1820, fI 248 20 0x100], Issues ready me (topkSpec f) (fun _ => topkBad f) ∧ Steady ready me := by
  intro f hf
  refine issues_of rfl ?_
  revert f
  decide +kernel
/-! ## Control flow -/

/-- A computation that succeeds. -/
def isOk {ε α : Type} (e : Except ε α) : Bool := match e with
  | .ok _ => true
  | .error _ => false
theorem exists_ok {ε α : Type} {e : Except ε α} (h : isOk e = true) : ∃ a, e = .ok a := by
  cases e with
  | ok a => exact ⟨a, rfl⟩
  | error _ => cases h
/-- A handle-table entry of 32 bytes (R249). -/
def hent (base bound w4 space : Nat) : List Byte := leBytes 8 base ++ leBytes 8 bound ++ leBytes 4 w4 ++ leBytes 4 space ++ leBytes 8 0
/-- A line of nops, every slot a target. -/
def targets : List Byte := buildLine 0x1F#32 (List.replicate 5 0x7240003C0000000000000000#96)
/-- Nothing that stood in memory before is still in use as a translation or a table entry. -/
def renewed (s : State) : State := s.invalidate none none
/-- VA 0x10000 mapped, with the line at 0x10040, handle 16 of 4 KiB at 0x18000 and handle 17 of block memory (table at 0x10000). -/
def memory (s : State) : State := renewed
  ((((s.mapPage 1).writePa 0x110000 targets).writePa 0x110040 targets).writePa 0x110200 (hent 0x18000 4096 0x80000016 1 ++ hent 0 1024 0x80000016 2))
/-- The handle table and the divergence stack in block memory. -/
def tables (c : Crew) : Crew := { c with ht := 0x107FF#64, dsh := 17 }

/-- A form B instruction to slot 4 of the next line, link or counter in register 10. -/
def fB (a : BitVec 8) (ga : Guard := Guard.none) : FormB := { h := h0, ga := ga, gb := Guard.none, tgt := 1, slot := 4, a := a, sub := 0 }
/-- A form S instruction. -/
def fS (body : BitVec 55) (ga : Guard := Guard.none) : FormS := { h := h0, ga := ga, body := body }

/-- The direct transfers with no lane in `act`, with all lanes moving and with some, the other slot free: the target of each is checked and good. -/
theorem premises_direct_empty : ∀ p ∈ directRows.zip ([0, 10, 10] : List (BitVec 8)), let f := fB p.2 never
    Sees (ready (fun c => c) memory) me (p.1.spec f) (p.1.bad f) (fun x => (me.slot false).mask ≠ 0#64 ∧ p.1.moves f x (ready (fun c => c) memory).opening = 0#64) := by
  intro p hp f
  refine sees_of rfl ?_
  revert f p
  simp only [directRows, List.zip_cons_cons, List.zip_nil_right, List.forall_mem_cons]
  decide +kernel
def DirectCase (p : RowB × BitVec 8) (ga : Guard) (stays : Bool) : Prop := let f := fB p.2 ga
  Sees (ready lanes248 memory) (me lanes248) (p.1.spec f) (p.1.bad f) (fun x => let m := p.1.moves f x (ready lanes248 memory).opening
    m ≠ 0#64 ∧ (decide ((me lanes248).a.mask &&& ~~~m ≠ 0#64)) = stays ∧ ((me lanes248).slot true).st = .free ∧
      isOk (((ready lanes248 memory).issued (me lanes248) (p.1.spec f)).checkTarget 0 1 (directTarget f 0x10000#64) m true) = true)
theorem premises_direct_all : ∀ p ∈ directRows.zip ([0, 10, 10] : List (BitVec 8)), DirectCase p Guard.none false := by
  intro p hp
  unfold DirectCase
  intro f
  refine sees_of rfl ?_
  revert f p
  simp only [directRows, List.zip_cons_cons, List.zip_nil_right, List.forall_mem_cons]
  decide +kernel
theorem premises_direct_split : ∀ p ∈ directRows.zip ([0, 10, 10] : List (BitVec 8)), DirectCase p even true := by
  intro p hp
  unfold DirectCase
  intro f
  refine sees_of rfl ?_
  revert f p
  simp only [directRows, List.zip_cons_cons, List.zip_nil_right, List.forall_mem_cons]
  decide +kernel
/-- Both slots in use: the other slot's lanes fit on the divergence stack. -/
def twoSlots (c : Crew) : Crew := tables (lanes248 { c with
  a := { c.a with mask := 0xFFFFFFFF#64 }, b := { PcSlot.empty with st := .running, pc := 0x10041#64, mask := 0xFFFFFFFF00000000#64 } })
def DirectPush : Prop := let f := fB 0 even; let s := ready twoSlots memory
    Sees s (me twoSlots) (specB f [] [] .none) (fun _ => slotBad f || f.a ≠ 0#8 || f.sub ≠ 0#13) (fun x =>
      x.act ≠ 0#64 ∧ ((me twoSlots).slot false).mask &&& ~~~x.act ≠ 0#64 ∧ ((me twoSlots).slot true).st ≠ .free ∧
      isOk ((s.issued (me twoSlots) (specB f [] [] .none)).checkTarget 0 1 (directTarget f 0x10000#64) x.act true) = true ∧
      isOk (((s.issued (me twoSlots) (specB f [] [] .none)).noteLine 0 1 0x10040 targets).dsPush 1
          [(((me twoSlots).slot true).pc, ((me twoSlots).slot true).st == .parked, ((me twoSlots).slot true).mask)]) = true)
/-- The line fetched, with what it leaves in the caches written out. -/
theorem noted_of {s : State} {core asid va : Nat} {bs : List Byte} {i : List ILine} {r : Ras} {t : List TlbEntry} (h1 : (s.noteLine core asid va bs).icache = i)
    (h2 : (s.noteLine core asid va bs).ras = r) (h3 : (s.noteLine core asid va bs).tlb = t) :
    s.noteLine core asid va bs = { s with icache := i, ras := r, tlb := t } := by
  subst h1 h2 h3; rfl
theorem premises_direct_push : DirectPush := by
  dsimp only [DirectPush]
  rw [noted_of (i := [{ core := 0, asid := 1, va := 0x10040, bytes := targets }]) (r := State.reset.ras)
    (t := [{ asid := 1, va := 0x10000, size := 0x10000, leaf := 0x11001F#64 }]) (by decide +kernel) (by decide +kernel) (by decide +kernel)]
  exact sees_of rfl (by decide +kernel)
/-- brx and ret to the two targets that the lanes of a pair name; callx with its link elsewhere. -/
def pairs (c : Crew) : Crew := { regs 10 [0x10042, 0] (tables c) with regs := ((regs 10 [0x10042, 0] c).regs).set 10 ((List.range 64).map (fun l => BitVec.ofNat 32 (0x10040 + l % 2))) }
theorem premises_brx : let f := { fB 10 with tgt := 0, slot := 0 }; let s := ready pairs memory; let sp := specB f [grp f.a 2] [] .none
    Sees s (me pairs) sp (fun c => tgtUsed f || f.sub ≠ 0#13 || ctlQueueBad c f.a.toNat 2)
      (fun x => isOk (transferEach x (s.issued (me pairs) sp) x.act (pairTargets x s.opening f.a.toNat)) = true) := by
  refine sees_of rfl ?_
  decide +kernel
theorem premises_callx : let f := { fB 12 with tgt := 0, slot := 0, sub := 10 }; let s := ready pairs memory; let sp := specB f [⟨10, 2⟩] [grp f.a 2] (.fixed 2)
    Sees s (me pairs) sp (fun c => tgtUsed f || f.sub.toNat / 256 ≠ 0 || ctlQueueBad c f.a.toNat 2 || ctlQueueBad c 10 2)
      (fun x => isOk (transferEach x (s.issued (me pairs) sp) x.act (pairTargets x s.opening 10)) = true) := by
  refine sees_of rfl ?_
  decide +kernel
theorem premises_one_target : ∀ l, l < 64 → (0xFF#64).getLsbD l → (fun _ => 0x10042#64 : Nat → DWord) l = 0x10042#64 := fun _ _ _ => rfl

/-- join with the other slot running, free, and parked at the same PC. -/
def other (st : SlotState) (c : Crew) : Crew := { c with
  a := { c.a with mask := 0xFF#64 }, b := { PcSlot.empty with st := st, pc := 0x10000#64, mask := 0xFF00#64, parkAt := 1 } }
theorem premises_join : ∀ st ∈ [SlotState.running, .free, .parked], let g := other st; let f := fS 0
    Issues (ready g) (me g) (specS f [] [] .none) (fun _ => f.ga ≠ Guard.none || f.body ≠ 0#55) ∧ ((me g).slot false).st = .running ∧ (me g).stall = none ∧
      (me g).retired = false ∧ flagOf f.h = none ∧ (me g).depth = 0 ∧ ((me g).slot true).st = st ∧ ((me g).slot true).pc = 0x10000#64 ∧
      ((me g).slot true).parkAt < (ready g).order := by
  intro st hst g f
  have h : Issues (ready g) (me g) (specS f [] [] .none) (fun _ => f.ga ≠ Guard.none || f.body ≠ 0#55) ∧ Steady (ready g) (me g) := by
    refine issues_of rfl ?_
    revert f g st
    decide +kernel
  exact ⟨h.1, rfl, rfl, rfl, by decide, rfl, rfl, rfl, by show 1 < 2; decide⟩
/-- exit of no lane, of some lanes, of all lanes of a slot with the other slot running and free, and inside a gate call. -/
theorem premises_exit_empty : let f := fS 0 never
    Sees ready me (specS f [] [] .none) (fun _ => f.body ≠ 0#55) (fun x => (me.slot false).mask ≠ 0#64 ∧ x.act = 0#64) := sees_of rfl (by decide +kernel)
theorem premises_exit_some : let f := fS 0 even; let g := lanes248
    Sees (ready g) (me g) (specS f [] [] .none) (fun _ => f.body ≠ 0#55) (fun x => x.act ≠ 0#64 ∧ (me g).gates = [] ∧ ((me g).slot false).mask &&& ~~~x.act ≠ 0#64) :=
  sees_of rfl (by decide +kernel)
theorem premises_exit_all : ∀ st ∈ [SlotState.running, .free], let g := other st; let f := fS 0
    Sees (ready g) (me g) (specS f [] [] .none) (fun _ => f.body ≠ 0#55) (fun x => x.act ≠ 0#64 ∧ (me g).gates = [] ∧ ((me g).slot false).mask &&& ~~~x.act = 0#64 ∧
      ((me g).slot true).st = st ∧ (me g).stall = none ∧ (me g).retired = false ∧ flagOf f.h = none) := by
  intro st hst g f
  refine sees_of rfl ?_
  revert f g st
  decide +kernel
/-- What a caller of context 1 waits with at 0x10040. -/
def caller : GateRec :=
  let c := me
  { pc := 0x10040#64, mask := 0xFF#64, n := 256, regs := c.regs, asid := 1, ht := 0#64, tvec := none, priv := 2, dom := 1, dent := [], window := none, mode := 0#32,
    fp := c.fp, rng := c.rng, queues := c.queues, regc := 0#32, dsh := 0, dsPart := none, dsValid := true, ocnt := c.ocnt, gatestat := 0#32, trapq := [], insvc := false,
    svcSlot := false, skip := false, trapcause := 0#32, trapva := 0#64, trecs := c.trecs, budget := none, retMask := 1#32, trapu := false, gate := 3, unit := 0, units := 1 }
/-- A crew in a gate call. -/
def called (c : Crew) : Crew := { c with gates := [caller] }
theorem premises_exit_called : let f := fS 0
    Sees (ready called) (me called) (specS f [] [] .none) (fun _ => f.body ≠ 0#55) (fun x => x.act ≠ 0#64 ∧ (me called).gates ≠ []) := sees_of rfl (by decide +kernel)

/-- pause of no lane, of 0 cycles and of the greatest count; nop. -/
theorem premises_pause : ∀ f ∈ [fI 0 0 0 0 never, fI 0 0 0, fI 0 0 0xFFFF], Sees ready me (specI f [] [] .none)
    (fun _ => f.d ≠ 0#8 || f.a ≠ 0#8 || f.imm.toNat / 65536 ≠ 0 || f.sub ≠ 0#7) (fun x => x.act = 0#64 ↔ f.ga = never) := by
  intro f hf
  refine sees_of rfl ?_
  revert f
  decide +kernel
theorem premises_nop : let f := fS 0; Issues ready me (specS f [] [] (.fixed 0)) (fun _ => f.body ≠ 0#55) ∧ Steady ready me := issues_of rfl (by decide +kernel)

/-! ## Memory -/

/-- A form M instruction with an immediate handle: address register 20, data register b. -/
def fM (hnd : BitVec 12) (d b : BitVec 8) (ofs : BitVec 10 := 0) (ga : Guard := Guard.none) : FormM :=
  { h := h0, ga := ga, gb := Guard.none, hnd := hnd, d := d, a := 20, b := b, ofs := ofs }
/-- `memory`, with handle 18 of a bank page. -/
def bank (s : State) : State :=
  let s := renewed (((memory s).writePa 0x103010 (leBytes 8 0x10000000001F)).writePa 0x110240 (hent 0x20000 65536 0x80000016 3))
  { s with mgmt := { s.mgmt with banksz := s.mgmt.banksz.set 0 1#32 } }
/-- Two lanes at offset 4080 of a handle; g changes the crew. -/
def lanes2 (g : Crew → Crew := id) (c : Crew) : Crew := g (tables { regs 20 [4080, 0] c with a := { c.a with mask := 3#64 } })

/-- `Reaches` as a test. -/
def reaches (s : State) (c : Crew) (a : Acc) (size : Nat) (spaces : List Nat) (perm : HandleEntry → Bool) (r w seen : Bool) (l : Loc) : Bool :=
  a.e.valid && !a.e.wait && spaces.contains a.e.space && perm a.e && !bitOf a.off 63 && decide (a.off + size ≤ s.boundOf c a.e) && a.va % size == 0 &&
  (match s.crewPlace c a.e a.off r w (a.l + 1) with
    | .ok l' => l' == l
    | .error _ => false) && s.locReady (dieOfCore c.core) (if r && w then l.home else l) == .yes &&
  (!seen || !s.locPoison (dieOfCore c.core) (if r && w then l.home else l) size)
theorem reaches_of {s : State} {c : Crew} {a : Acc} {size : Nat} {spaces : List Nat} {perm : HandleEntry → Bool} {r w seen : Bool} {l : Loc}
    (h : reaches s c a size spaces perm r w seen l = true) : Reaches s c a size spaces perm r w seen l := by
  simp only [reaches, Bool.and_eq_true, Bool.not_eq_true', Bool.or_eq_true, beq_iff_eq, decide_eq_true_eq, List.contains_iff_mem] at h
  obtain ⟨⟨⟨⟨⟨⟨⟨⟨⟨h1, h0⟩, h2⟩, h3⟩, h4⟩, h5⟩, h6⟩, h7⟩, h8⟩, h9⟩ := h
  refine ⟨h1, h0, h2, h3, h4, h5, h6, ?_, by simpa only [Bool.and_eq_true] using h8, fun hs => ?_⟩
  · revert h7
    cases s.crewPlace c a.e a.off r w (a.l + 1) with
    | ok l' => intro h; exact congrArg _ (by simpa using h)
    | error _ => intro h; cases h
  · rcases h9 with h | h
    · rw [hs] at h; cases h
    · simpa only [Bool.and_eq_true] using h
theorem all_reach_of {s : State} {c : Crew} {as : List Acc} {size : Nat} {spaces : List Nat} {perm : HandleEntry → Bool} {r w seen : Bool} {l : Loc}
    (h : as.all (fun a => reaches s c a size spaces perm r w seen l) = true) : ∀ a ∈ as, Reaches s c a size spaces perm r w seen l :=
  fun a ha => reaches_of (List.all_eq_true.mp h a ha)

/-- The last bytes of the 4 KiB of handle 16, at home on die 0, with no write of another die on its way. -/
def lastPlace : Loc := .pa 0x118FF0 0
theorem premises_quiet : Quiet (ready (lanes2) memory) := ⟨rfl, rfl⟩
/-- Every load reaches its bytes through handle 16 (an acquire has a scope). -/
theorem premises_loads : ∀ r ∈ loadRows, let f := fM 16 12 0 (if r.acq then 0x80 else 0); let s := ready lanes2 memory
    Sees s (me lanes2) (r.spec f) (fun _ => hndBad f || f.b ≠ 0#8 || (r.acq && scopeOf f == 0)) (fun x =>
      (formAcc f x (s.issued (me lanes2) (r.spec f)) r.o64 (byteOffset f r.acq r.size) x.act).all
        (fun a => reaches (s.issued (me lanes2) (r.spec f)) x.c a r.size ldSpaces (fun e => e.r) true false true lastPlace) = true) := by
  intro r hr f s
  refine sees_of rfl ?_
  revert s f r
  simp only [loadRows, List.forall_mem_cons]
  decide +kernel
theorem premises_stores : ∀ r ∈ storeRows, let f := fM 16 0 12 (if r.rel then 0x280 else 0); let s := ready lanes2 memory
    Sees s (me lanes2) (r.spec f) (fun _ => hndBad f || f.d ≠ 0#8 || (r.rel && scopeOf f == 0)) (fun x =>
      (formAcc f x (s.issued (me lanes2) (r.spec f)) r.o64 (byteOffset f r.rel r.size) x.act).all
        (fun a => reaches (s.issued (me lanes2) (r.spec f)) x.c a r.size stSpaces (fun e => e.w) false true false lastPlace) = true) := by
  intro r hr f s
  refine sees_of rfl ?_
  revert s f r
  simp only [storeRows, List.forall_mem_cons]
  decide +kernel
theorem premises_stmask : ∀ o ∈ [false, true], let f := fM 16 31 12; let s := ready lanes2 memory; let sp := specM f (mSrcs f o ++ [one f.b]) [] .none true
    Sees s (me lanes2) sp (fun _ => hndBad f || f.d.toNat / 32 ≠ 0) (fun x => x.act ≠ 0#64 ∧
      (formAcc f x (s.issued (me lanes2) sp) o (ofs10 f * 8) (1#64 <<< x.l0)).length = 1 ∧
      (formAcc f x (s.issued (me lanes2) sp) o (ofs10 f * 8) (1#64 <<< x.l0)).all
        (fun a => reaches (s.issued (me lanes2) sp) x.c a 8 stSpaces (fun e => e.w) false true false lastPlace) = true) := by
  intro o ho f s sp
  refine sees_of rfl ?_
  revert sp s f o
  decide +kernel
theorem premises_stmask_empty : let f := fM 16 31 12 0 never
    Sees ready me (specM f (mSrcs f false ++ [one f.b]) [] .none true) (fun _ => hndBad f || f.d.toNat / 32 ≠ 0) (fun x => x.act = 0#64) := sees_of rfl (by decide +kernel)
/-- An atomic on block memory. -/
def AtomCase (size nb : Nat) : Prop := let f := fM 17 12 12 0x80; let g := lanes2 (regs 20 [1008, 0]); let s := ready g memory
    let sp : Spec := { specM f (mSrcs f false ++ [grp f.b nb]) [grp f.d (size / 4)] .var false with ends := true }
    Sees s (me g) sp (fun _ => hndBad f || scopeOf f == 0) (fun x =>
      (formAcc f x (s.issued (me g) sp) false (byteOffset f true size) x.act).all
        (fun a => reaches (s.issued (me g) sp) x.c a size atomSpaces (fun e => e.r && e.w && e.atom) true true true (.blk 0 1008)) = true)
theorem premises_atom_shapes : ∀ p ∈ [(4, 1), (4, 2), (8, 2), (8, 4)], AtomCase p.1 p.2 := by
  intro p hp
  unfold AtomCase
  intro f g s sp
  refine sees_of (by decide +kernel) ?_
  revert sp s g f p
  decide +kernel
theorem premises_atoms : (∀ r ∈ atomRows, (r.size, r.nb) ∈ [(4, 1), (4, 2), (8, 2), (8, 4)]) ∧ ∀ r ∈ atomRows, AtomCase r.size r.nb := by
  have h : ∀ r ∈ atomRows, (r.size, r.nb) ∈ [(4, 1), (4, 2), (8, 2), (8, 4)] := by simp [atomRows]
  exact ⟨h, fun r hr => premises_atom_shapes _ (h r hr)⟩
theorem premises_bankop : let f := fM 18 0 12; let s := ready lanes2 bank
    let sp : Spec := { specM f (mSrcs f false ++ [one f.b]) [] .none false with ends := true }
    Sees s (me lanes2) sp (fun _ => hndBad f || f.d ≠ 0#8) (fun x =>
      (formAcc f x (s.issued (me lanes2) sp) false (byteOffset f false 4) x.act).all
        (fun a => reaches (s.issued (me lanes2) sp) x.c a 4 [3] (fun e => e.r && e.w && e.atom) true true true (.pa 0x100000000FF0 0)) = true) :=
  sees_of rfl (by decide +kernel)
/-- HANDLE, BOUND and ALIGN, each the first failing check of two lanes. -/
theorem premises_check_order : let s := ready lanes2 memory; let e := s.handle 1 0 0x107FF#64 16 0
    let a : Acc := { l := 0, hidx := 16, e := e, off := 4092, va := 0x18FFC }
    (([a, { a with hidx := 99, e := HandleEntry.none }].filter (fun a => !a.e.valid || !(ldSpaces.contains a.e.space) || !a.e.r)).length = 1) ∧
    (([a, { a with off := 4093 }].filter (fun a => !a.e.valid || !(ldSpaces.contains a.e.space) || !a.e.r)).length = 0 ∧
      ([a, { a with off := 4093 }].filter (fun a => bitOf a.off 63 || decide (s.boundOf (me lanes2) a.e < a.off + 4))).length = 1) ∧
    (([a, { a with va := 0x18FFA }].filter (fun a => bitOf a.off 63 || decide (s.boundOf (me lanes2) a.e < a.off + 4))).length = 0 ∧
      ([a, { a with va := 0x18FFA }].filter (fun a => decide (a.va % 4 ≠ 0))).length = 1) := by decide +kernel
theorem premises_store_then_load : State.reset.mem.wf = true ∧ State.reset.bmem.wf = true ∧ State.reset.keyed.Pairwise (fun p q => p.1 < q.1) ∧ State.reset.arriving = [] ∧
    State.reset.homeDie 0 = 0 := by decide +kernel

theorem premises_fence : ∀ f ∈ [fS 9, fS 0x15, fS 0x1F, fS 9 never],
    Sees ready me { specS f [] [] .none with ends := true } (fun _ => f.body.toNat / 32 ≠ 0 || f.body.toNat / 8 % 4 == 0 || f.body.toNat % 8 == 0) (fun x => x.act = 0#64 ↔ f.ga = never) := by
  intro f hf
  refine sees_of rfl ?_
  revert f
  decide +kernel

/-- pfx with prefetching off, with an empty `act`, with every tracker busy, with a fitting request and one of no bytes. -/
def pfxSpec (f : FormM) (o : Bool) : Spec := { specM f (mSrcs f o ++ [one f.b]) [one f.d] .var false with squash := true }
theorem premises_pfx_off : let f := fM 16 10 30; Sees ready me (pfxSpec f false) (fun _ => hndBad f) (fun x => x.c.pfmode.toNat % 4 ≠ 1) := sees_of rfl (by decide +kernel)
theorem premises_pfx_empty : let f := fM 16 10 30 0 never; let g := fun c : Crew => { c with pfmode := 1#32 }
    Sees (ready g) (me g) (pfxSpec f false) (fun _ => hndBad f) (fun x => x.c.pfmode.toNat % 4 = 1 ∧ x.act = 0#64) := sees_of rfl (by decide +kernel)
def pfx1 (len : Word) : Crew → Crew := fun c => { lanes2 (regs 30 [len]) c with pfmode := 1#32 }
theorem premises_pfx : ∀ o ∈ [false, true], let f := fM 16 10 30; let s := ready (pfx1 16) memory; let c := me (pfx1 16)
    Sees s c (pfxSpec f o) (fun _ => hndBad f) (fun x => x.c.pfmode.toNat % 4 = 1 ∧ x.act ≠ 0#64 ∧
      (formAcc f x (s.issued c (pfxSpec f o)) o (ofs10 f) (1#64 <<< x.l0)).length = 1 ∧
      (formAcc f x (s.issued c (pfxSpec f o)) o (ofs10 f) (1#64 <<< x.l0)).all (fun a => a.e.valid && !a.e.wait && pfSpaces.contains a.e.space && a.e.r &&
        srcWord x s.opening f.b a.l != 0#32 && !bitOf a.off 63 && decide (a.off < (s.issued c (pfxSpec f o)).boundOf x.c a.e)) = true ∧
      ((s.core 0).trackers.map (fun t => t.busy)).take 1 = [false]) := by
  intro o ho f s c
  refine sees_of rfl ?_
  revert c s f o
  decide +kernel
theorem premises_pfx_unfit : let f := fM 16 10 30; let s := ready (pfx1 0) memory; let c := me (pfx1 0)
    Sees s c (pfxSpec f false) (fun _ => hndBad f) (fun x => x.act ≠ 0#64 ∧
      (formAcc f x (s.issued c (pfxSpec f false)) false (ofs10 f) (1#64 <<< x.l0)).all (fun a => a.e.valid && !a.e.wait && pfSpaces.contains a.e.space && a.e.r && srcWord x s.opening f.b a.l == 0#32) = true) :=
  sees_of rfl (by decide +kernel)
theorem premises_pfx_busy : let s := ready (pfx1 16) (fun s => (memory s).modCore 0 (fun k => { k with trackers := k.trackers.map (fun (t : Tracker) => { t with busy := true }) }))
    ∀ t ∈ (s.core 0).trackers, t.busy = true := by decide +kernel
theorem premises_pcancel : let f := { fR (use1 .b32) with d := 0 }
    Sees ready me (specR f (use1 .b32) [] .none) (fun _ => f.rsv ≠ 0#2 || f.md ≠ 0#12 || f.d ≠ 0#8 || f.b ≠ 0#8 || f.c ≠ 0#8) (fun x => x.c.core < (ready).cores.length) :=
  sees_of rfl (by decide +kernel)
theorem premises_pfd_off : let f := fM 16 0 30
    Sees ready me (specM f (mSrcs f false ++ [one f.b]) [] .none false) (fun _ => hndBad f || f.d ≠ 0#8) (fun x => x.c.pfmode.toNat % 4 ≠ 2) := sees_of rfl (by decide +kernel)
theorem premises_pfd : ∀ o ∈ [false, true], let f := fM 16 0 30; let g := fun c => { pfx1 0x30000005 c with pfmode := 2#32 }; let s := ready g memory
    let sp := specM f (mSrcs f o ++ [one f.b]) [] .none false
    Sees s (me g) sp (fun _ => hndBad f || f.d ≠ 0#8) (fun x => x.c.pfmode.toNat % 4 = 2 ∧ x.act ≠ 0#64 ∧
      (formAcc f x (s.issued (me g) sp) o (ofs10 f) (1#64 <<< x.l0)).length = 1 ∧
      (formAcc f x (s.issued (me g) sp) o (ofs10 f) (1#64 <<< x.l0)).all (fun a => a.e.valid && !a.e.wait && pfSpaces.contains a.e.space && a.e.r) = true ∧ (s.core 0).pfds = []) := by
  intro o ho f g s sp
  refine sees_of (by revert s g; decide +kernel) ?_
  revert sp s g f o
  decide +kernel

/-! ## Commands, counters, tiles -/

theorem premises_room : ∀ k, k < 4 → RoomFor ready me k := by
  intro k hk
  refine ⟨?_, fun _ => by decide⟩
  interval_cases k <;> decide
/-- A class with 255 commands has no room; one with 254 has. -/
theorem premises_no_room : ¬ RoomFor ready (me (fun c => { c with ocnt := List.replicate 4 255#32 })) 0 ∧ RoomFor ready (me (fun c => { c with ocnt := List.replicate 4 254#32 })) 0 :=
  ⟨fun h => absurd h.1 (by decide), ⟨by decide, fun _ => by decide⟩⟩
/-- The commands of the engines and the fabric, groups at multiples of 8; with a lane in `act` and with none. -/
def fCmd (r : RowCmd) (ga : Guard) : FormX :=
  { h := h0, ga := ga, gb := Guard.none, d := 16, a := if r.opc = 0x2C5 then 0 else 24, b := 32, c := 40, e := if r.opc = 0x283 ∨ r.opc = 0x2C2 then 0 else 48, rsv := 0 }
theorem premises_commands : ∀ r ∈ engineRows ++ fabricRows,
    Sees ready me (r.spec (fCmd r Guard.none)) (fun _ => (fCmd r Guard.none).rsv ≠ 0#6 || r.bad (fCmd r Guard.none)) (fun x => x.act ≠ 0#64) ∧
    Sees ready me (r.spec (fCmd r never)) (fun _ => (fCmd r never).rsv ≠ 0#6 || r.bad (fCmd r never)) (fun x => x.act = 0#64) := by
  intro r hr
  refine ⟨sees_of rfl ?_, sees_of rfl ?_⟩ <;> revert r <;> simp only [engineRows, fabricRows, List.cons_append, List.nil_append, List.forall_mem_cons] <;> decide +kernel
theorem premises_fmark : (let f := fS 0xFF
    Sees ready me { specS f [] [] .none with ga := f.ga, ends := true } (fun _ => f.body.toNat / 256 ≠ 0) (fun x => x.act ≠ 0#64)) ∧
    (let f := fS 0xFF never
    Sees ready me { specS f [] [] .none with ga := f.ga, ends := true } (fun _ => f.body.toNat / 256 ≠ 0) (fun x => x.act = 0#64)) :=
  ⟨sees_of rfl (by decide +kernel), sees_of rfl (by decide +kernel)⟩
theorem premises_count_off : let c := me (fun c => { c with ocnt := List.replicate 4 1#32 }); 3 < c.ocnt.length ∧ 0 < c.count 3 := by decide
/-- waitc with the count at n, with ERR set, and with the count above n. -/
theorem premises_waitc : (let f := fI 0 0 0xFF; Sees (ready (fun c => { c with ocnt := List.replicate 4 0xFF#32 })) (me (fun c => { c with ocnt := List.replicate 4 0xFF#32 })) (specI f [] [] .none)
        (fun _ => f.imm.toNat / 256 ≠ 0 || f.d ≠ 0#8 || f.a ≠ 0#8 || f.sub ≠ 0#7) (fun x => x.c.count 0 ≤ 0xFF ∧ x.c.err 0 = false)) ∧
    (let f := fI 0 0 0; Sees (ready (fun c => { c with ocnt := List.replicate 4 0x83000000#32 })) (me (fun c => { c with ocnt := List.replicate 4 0x83000000#32 })) (specI f [] [] .none)
        (fun _ => f.imm.toNat / 256 ≠ 0 || f.d ≠ 0#8 || f.a ≠ 0#8 || f.sub ≠ 0#7) (fun x => x.act ≠ 0#64 ∧ x.c.count 3 ≤ 0 ∧ x.c.err 3 = true)) ∧
    (let f := fI 0 0 0; Sees (ready (fun c => { c with ocnt := List.replicate 4 1#32 })) (me (fun c => { c with ocnt := List.replicate 4 1#32 })) (specI f [] [] .none)
        (fun _ => f.imm.toNat / 256 ≠ 0 || f.d ≠ 0#8 || f.a ≠ 0#8 || f.sub ≠ 0#7) (fun x => x.act ≠ 0#64 ∧ 0 < x.c.count 0)) :=
  ⟨sees_of rfl (by decide +kernel), sees_of rfl (by decide +kernel), sees_of rfl (by decide +kernel)⟩
/-- The arrival counters: no lane; a counter reached and one not reached; a gate call. -/
def arrBad (f : FormI) : Bool := f.imm.toNat / 64 ≠ 0 || f.sub ≠ 0#7 || f.d ≠ 0#8
theorem premises_arr : (let f := fI 0 20 63 0 never; Sees ready me (specI f [one f.a] [] .none) (fun _ => arrBad f) (fun x => x.act = 0#64)) ∧
    (let f := fI 0 20 63; Sees ready me (specI f [one f.a] [] .none) (fun _ => arrBad f) (fun x => x.act ≠ 0#64 ∧ me.gates = [] ∧
      (rowAt (x.row (ready).opening 20) x.l0).toNat ≤ (arrOf ready 1 63).toNat)) ∧
    (let f := fI 0 20 63; let g := regs 20 [1]; Sees (ready g) (me g) (specI f [one f.a] [] .none) (fun _ => arrBad f) (fun x => x.act ≠ 0#64 ∧ (me g).gates = [] ∧
      (arrOf (ready g) 1 63).toNat < (rowAt (x.row (ready g).opening 20) x.l0).toNat)) ∧
    (let f := fI 0 20 63; Sees (ready called) (me called) (specI f [one f.a] [] .none) (fun _ => arrBad f) (fun x => x.act ≠ 0#64 ∧ (me called).gates ≠ [])) :=
  ⟨sees_of rfl (by decide +kernel), sees_of rfl (by decide +kernel), sees_of rfl (by decide +kernel), sees_of rfl (by decide +kernel)⟩
theorem premises_arrrd : (let f := fI 10 0 63; Issues ready me (specI f [] [one f.d] .var) (fun _ => f.imm.toNat / 64 ≠ 0 || f.sub ≠ 0#7 || f.a ≠ 0#8) ∧ Steady ready me) ∧
    (let f := fI 10 0 63; Sees (ready called) (me called) (specI f [] [one f.d] .var) (fun _ => f.imm.toNat / 64 ≠ 0 || f.sub ≠ 0#7 || f.a ≠ 0#8)
      (fun x => x.act ≠ 0#64 ∧ (me called).gates ≠ [])) := ⟨issues_of rfl (by decide +kernel), sees_of rfl (by decide +kernel)⟩
theorem premises_tsig : (let f := fM 16 15 30; let s := ready lanes2 memory; let sp : Spec := { specM f (mSrcs f false ++ [one f.b]) [] .none false with ends := true }
    Sees s (me lanes2) sp (fun _ => hndBad f || f.d.toNat / 16 ≠ 0) (fun x => x.act ≠ 0#64 ∧
      (formAcc f x (s.issued (me lanes2) sp) false (ofs10 f * 4) (1#64 <<< x.l0)).length = 1 ∧
      (formAcc f x (s.issued (me lanes2) sp) false (ofs10 f * 4) (1#64 <<< x.l0)).all (fun a => a.e.valid && !a.e.wait && [1, 3, 5, 8].contains a.e.space && a.e.w && a.e.atom &&
        !bitOf a.off 63 && decide (a.off + 4 ≤ s.boundOf x.c a.e) && a.va % 4 == 0) = true)) ∧
    (let f := fM 16 15 30 0 never; Sees ready me { specM f (mSrcs f false ++ [one f.b]) [] .none false with ends := true } (fun _ => hndBad f || f.d.toNat / 16 ≠ 0)
      (fun x => x.act = 0#64)) := ⟨sees_of rfl (by decide +kernel), sees_of rfl (by decide +kernel)⟩

/-- A tile record of 16 rows that passes R192, dense or sparse. -/
def record (sparse : Bool) : List Word := [if sparse then 0x0001010F#32 else 0x0000010F#32, 0x00060005#32, 64#32, 64#32, 0x3000#32, 0x00020000#32, 0x01000000#32, 0#32]
/-- A form T instruction of record 2. -/
def fT (a b c d : BitVec 8) (sub : BitVec 10 := 0) (ga : Guard := Guard.none) : FormT := { h := h0, ga := ga, gb := Guard.none, trec := 2, a := a, b := b, c := c, d := d, sub := sub }
theorem premises_tshape : (let f := fT 16 0 0 0 0 never; Sees ready me (specT f [grp f.a 8] [] .none false) (fun _ => f.b ≠ 0#8 || f.c ≠ 0#8 || f.d ≠ 0#8 || f.sub ≠ 0#10) (fun x => x.act = 0#64)) ∧
    (∀ ws ∈ [List.replicate 8 0#32, record false], let f := fT 16 0 0 0; let g := regs 16 ws
      Sees (ready g) (me g) (specT f [grp f.a 8] [] .none false) (fun _ => f.b ≠ 0#8 || f.c ≠ 0#8 || f.d ≠ 0#8 || f.sub ≠ 0#10)
        (fun x => x.act ≠ 0#64 ∧ (me g).gates = [] ∧ let r := (List.range 8).map (fun i => rowAt (x.plain (ready g).opening (f.a.toNat + i)) x.l0); trZero r = true ∨ trBad r = false)) ∧
    (let f := fT 16 0 0 0; let g := regs 16 ((record false).set 7 1#32)
      Sees (ready g) (me g) (specT f [grp f.a 8] [] .none false) (fun _ => f.b ≠ 0#8 || f.c ≠ 0#8 || f.d ≠ 0#8 || f.sub ≠ 0#10)
        (fun x => x.act ≠ 0#64 ∧ (me g).gates = [] ∧ let r := (List.range 8).map (fun i => rowAt (x.plain (ready g).opening (f.a.toNat + i)) x.l0); trZero r = false ∧ trBad r = true)) ∧
    (let f := fT 16 0 0 0; Sees (ready called) (me called) (specT f [grp f.a 8] [] .none false) (fun _ => f.b ≠ 0#8 || f.c ≠ 0#8 || f.d ≠ 0#8 || f.sub ≠ 0#10)
      (fun x => x.act ≠ 0#64 ∧ (me called).gates ≠ [])) := by
  refine ⟨sees_of rfl (by decide +kernel), ?_, sees_of rfl (by decide +kernel), sees_of rfl (by decide +kernel)⟩
  intro ws hw f g
  refine sees_of rfl ?_
  revert g f ws
  simp only [List.forall_mem_cons]
  decide +kernel
/-- A crew whose record 2 is dense or sparse, and its block with every unit. -/
def tiles (sparse : Bool) (c : Crew) : Crew := { c with trecs := c.trecs.set 2 (record sparse) }
def units (s : State) : State := { s with blocks := s.blocks.map (fun (b : Block) => { b with units := BitVec.allOnes 64 }) }
/-- The form of a task: mzero has no operands, accst a pair. -/
def fTask (r : RowTask) (ga : Guard := Guard.none) : FormT :=
  if r.opc = 0x321 then fT 0 0 0 0 0 ga else if r.opc = 0x325 then fT 20 21 30 0 0 ga else if isSparse r.opc then fT 20 21 32 0 0 ga else fT 20 21 0 0 0 ga
/-- `TaskFits` as a test over the block of the crew. -/
def fits (s : State) (b : Block) (opc : Nat) (r : List Word) (mv sub ctl : Nat) : Bool :=
  !trZero r && !trBad r && (trSparse r == isSparse opc) && !trPart r && !b.harv && (decide (trSlices r ≤ 1) || decide (trSlices r ≤ b.gsize)) &&
    (taskUnits opc r mv sub ctl (if trSlices r ≤ 1 then 0 else b.rank)).all (fun u => s.holdsUnit b none u)
theorem taskFits_of {s : State} {c : Crew} {b : Block} {opc : Nat} {r : List Word} {mv sub ctl : Nat} (hb : s.block? c.blk = some b)
    (h : fits s b opc r mv sub ctl = true) : TaskFits s c opc r mv sub ctl := by
  simp only [fits, Bool.and_eq_true, Bool.not_eq_true', Bool.or_eq_true, beq_iff_eq, decide_eq_true_eq] at h
  obtain ⟨⟨⟨⟨⟨⟨h1, h2⟩, h3⟩, h4⟩, h5⟩, h6⟩, h7⟩ := h
  refine ⟨h1, h2, fun _ => ⟨h3, fun _ => h4⟩, b, hb, h5, fun hs => ?_, fun _ u hu => List.all_eq_true.mp h7 u hu⟩
  rcases h6 with h | h
  · omega
  · exact h
theorem premises_dense : ∀ r ∈ denseRows, let f := fTask r; let g := tiles false; let s := ready g units
    Sees s (me g) (r.spec f) (fun _ => r.bad f || (!f.sub.getLsbD 0 && f.d ≠ 0#8)) (fun x => x.act ≠ 0#64 ∧ s.spillFull (me g) (isSparse r.opc) = false ∧
      fits s { Block.start 1 1 1 with units := BitVec.allOnes 64 } r.opc (record false) (trM (record false)) f.sub.toNat
        ((r.words f x s.opening (trM (record false))).getD 2 0#32).toNat = true) := by
  intro r hr f g s
  refine sees_of rfl ?_
  revert s g f r
  simp only [denseRows, List.forall_mem_cons]
  decide +kernel
theorem premises_sparse : ∀ r ∈ sparseRows, let f := fTask r; let g := tiles true; let s := ready g units
    Sees s (me g) (r.spec f) (fun _ => r.bad f || (!f.sub.getLsbD 0 && f.d ≠ 0#8)) (fun x => x.act ≠ 0#64 ∧ s.spillFull (me g) (isSparse r.opc) = false ∧
      metaBad f r.opc x s.opening = none ∧
      fits s { Block.start 1 1 1 with units := BitVec.allOnes 64 } r.opc (record true) (trM (record true)) f.sub.toNat
        ((r.words f x s.opening (trM (record true))).getD 2 0#32).toNat = true) := by
  intro r hr f g s
  refine sees_of rfl ?_
  revert s g f r
  simp only [sparseRows, List.forall_mem_cons]
  decide +kernel
theorem premises_task_block : (ready (tiles false) units).block? 1 = some { Block.start 1 1 1 with units := BitVec.allOnes 64 } := rfl
theorem premises_task_empty : ∀ r ∈ denseRows, let f := fTask r never
    Sees ready me (r.spec f) (fun _ => r.bad f || (!f.sub.getLsbD 0 && f.d ≠ 0#8)) (fun x => x.act = 0#64) := by
  intro r hr f
  refine sees_of rfl ?_
  revert f r
  simp only [denseRows, List.forall_mem_cons]
  decide +kernel
/-- acca of 64 units, of 3 at unit 61, of 3 at unit 62, and with no lane; accf of the last unit. -/
def accaBad (f : FormI) : Bool := f.imm.toNat / 2 ^ 14 ≠ 0 || f.a ≠ 0#8 || f.sub ≠ 0#7
theorem premises_acca : (let f := fI 10 0 64; Sees ready me (specI f [] [one f.d] .var) (fun _ => accaBad f) (fun x => x.act ≠ 0#64)) ∧
    (let f := fI 10 0 (61 * 256 + 128 + 3); Sees ready me (specI f [] [one f.d] .var) (fun _ => accaBad f) (fun x => x.act ≠ 0#64 ∧ f.imm.toNat / 2 ^ 8 % 64 + f.imm.toNat % 128 ≤ 64)) ∧
    (let f := fI 10 0 (62 * 256 + 128 + 3); Sees ready me (specI f [] [one f.d] .var) (fun _ => accaBad f) (fun x => x.act ≠ 0#64 ∧ 64 < f.imm.toNat / 2 ^ 8 % 64 + f.imm.toNat % 128)) ∧
    (let f := fI 10 0 64 0 never; Sees ready me (specI f [] [one f.d] .var) (fun _ => accaBad f) (fun x => x.act = 0#64)) ∧ (Block.start 1 1 1).harv = false :=
  ⟨sees_of rfl (by decide +kernel), sees_of rfl (by decide +kernel), sees_of rfl (by decide +kernel), sees_of rfl (by decide +kernel), rfl⟩
theorem premises_accf : ∀ ga ∈ [Guard.none, never], let f := fI 0 0 (63 * 256 + 1) 0 ga
    Sees ready me { specI f [] [] .none with ends := true } (fun _ => f.imm.toNat / 2 ^ 14 ≠ 0 || f.imm.getLsbD 7 || f.a ≠ 0#8 || f.d ≠ 0#8 || f.sub ≠ 0#7)
      (fun x => (x.act = 0#64 ↔ ga = never) ∧ (ready).ops = []) := by
  intro ga hg f
  refine sees_of rfl ?_
  revert f ga
  decide +kernel
/-- accf of two units from 63 on; accf of units 0 and 1 of which a task uses unit 0. -/
theorem premises_accf_range : let f := fI 0 0 (63 * 256 + 2)
    Sees ready me { specI f [] [] .none with ends := true } (fun _ => f.imm.toNat / 2 ^ 14 ≠ 0 || f.imm.getLsbD 7 || f.a ≠ 0#8 || f.d ≠ 0#8 || f.sub ≠ 0#7)
      (fun x => x.act ≠ 0#64 ∧ me.gates = [] ∧ ¬(1 ≤ f.imm.toNat % 128 ∧ f.imm.toNat / 2 ^ 8 % 64 + f.imm.toNat % 128 ≤ 64)) :=
  sees_of rfl (by decide +kernel)
/-- accld of the last words of the accumulator, and past them. -/
def accldGood (s : State) (b : Block) (off n : Nat) : Bool := off % 4 == 0 && (List.range n).all (fun k => decide (off + 4 * k < 2 ^ 18) && s.holdsUnit b none ((off + 4 * k) / 4096))
def AccldCase (w : Word) (good : Bool) : Prop := let g := regs 20 [w]; let f := { fT 20 0 0 12 2 with trec := 0 }; let s := ready g units
    Sees s (me g) (specT f [one f.a] [grp f.d 4] .var false) (fun _ => f.trec ≠ 0#4 || f.b ≠ 0#8 || f.c ≠ 0#8 || f.sub.toNat / 4 ≠ 0)
      (fun x => (me g).gates = [] ∧ x.act ≠ 0#64 ∧ accldGood s { Block.start 1 1 1 with units := BitVec.allOnes 64 } (rowAt (x.row s.opening 20) 0).toNat 4 = good)
theorem premises_accld : AccldCase 0x3FFF0#32 true ∧ AccldCase 0x3FFF4#32 false := by
  constructor <;> (unfold AccldCase; intro g f s; exact sees_of rfl (by decide +kernel))
/-- bucket, inside a gate call and outside. -/
theorem premises_bucket : let u : RUse := ⟨some .n32, some .n32, none⟩; let f := fR u
    Sees ready me (specR f u [grp f.d 2] .var) (fun c => u.bad f c || (!c.perm && f.md ≠ 0#12)) (fun x => x.act ≠ 0#64 ∧ me.gates = []) ∧
    Sees (ready called) (me called) (specR f u [grp f.d 2] .var) (fun c => u.bad f c || (!c.perm && f.md ≠ 0#12)) (fun x => x.act ≠ 0#64 ∧ (me called).gates ≠ []) :=
  ⟨sees_of rfl (by decide +kernel), sees_of rfl (by decide +kernel)⟩

/-! ## System instructions -/

/-- A body with register fields RA and RB (R210). -/
def fRR (n : Nat) (ra rb : Nat := 0) (ga : Guard := Guard.none) : FormS := fS (BitVec.ofNat 55 (n + ra * 2 ^ 47 + rb * 2 ^ 39)) ga
/-- Barrier 15 of a block of one crew: no lane; the even lanes; every lane, which is the last arrival; lanes that have arrived already. -/
def barBad (f : FormS) : Bool := bodyRA f ≠ 0 || bodyRB f ≠ 0 || bodyBits f 38 9 ≠ 0
def arrived (c : Crew) : Crew := { c with arrive := c.arrive.set 15 1#64, armed := 0x8000#16 }
theorem premises_bar_block : (ready).block? 1 = some (Block.start 1 1 1) ∧ 15 < me.arrive.length ∧ 15 < (Block.start 1 1 1).barIn.length ∧ 15 < (Block.start 1 1 1).barCnt.length ∧
    me.gates = [] ∧ ((Block.start 1 1 1).barCnt.getD 15 none).getD 1 = 1 ∧ me.id ∉ (Block.start 1 1 1).barIn.getD 15 [] ∧ me.exited = 0#64 := ⟨rfl, by decide, by decide, by decide, rfl, rfl, by decide, rfl⟩
theorem premises_bar : (let f := fRR 0x1F 0 0 never; Sees ready me (sysSpec f [] false true) (fun _ => barBad f) (fun x => x.act = 0#64 ∧ bodyBits f 3 0 = 15 ∧ bodyBits f 8 4 = 1)) ∧
    (let f := fRR 0x1F 0 0 even; Sees (ready lanes248) (me lanes248) (sysSpec f [] false true) (fun _ => barBad f) (fun x => x.act ≠ 0#64 ∧
      (me lanes248).arrive.getD 15 0#64 &&& x.act = 0#64 ∧ (me lanes248).arrive.getD 15 0#64 ||| x.act ≠ BitVec.allOnes 64)) ∧
    (let f := fRR 0x0F; Sees ready me (sysSpec f [] false true) (fun _ => barBad f) (fun x => x.act ≠ 0#64 ∧ me.arrive.getD 15 0#64 &&& x.act = 0#64 ∧
      me.arrive.getD 15 0#64 ||| x.act = BitVec.allOnes 64 ∧ 1 ≤ (countedAt (Block.start 1 1 1) me 15 (me.arrive.getD 15 0#64 ||| x.act)).length)) ∧
    (let f := fRR 0x0F; Sees (ready arrived) (me arrived) (sysSpec f [] false true) (fun _ => barBad f) (fun x => x.act ≠ 0#64 ∧ (me arrived).arrive.getD 15 0#64 &&& x.act ≠ 0#64)) :=
  ⟨sees_of rfl (by decide +kernel), sees_of rfl (by decide +kernel), sees_of rfl (by decide +kernel), sees_of rfl (by decide +kernel)⟩
/-- bar.wait not armed; armed with the phase unchanged, and changed. -/
theorem premises_bar_wait : (let f := fRR 0xF; Sees ready me (sysSpec f [] false true) (fun _ => bodyRA f ≠ 0 || bodyRB f ≠ 0 || bodyBits f 38 4 ≠ 0) (fun x => x.act ≠ 0#64 ∧ me.armed.getLsbD 15 = false)) ∧
    (let f := fRR 0xF; Sees (ready arrived) (me arrived) (sysSpec f [] false true) (fun _ => bodyRA f ≠ 0 || bodyRB f ≠ 0 || bodyBits f 38 4 ≠ 0)
      (fun x => x.act ≠ 0#64 ∧ (me arrived).armed.getLsbD 15 = true ∧ (me arrived).armedP.getLsbD 15 = (Block.start 1 1 1).barP.getLsbD 15)) ∧
    (let f := fRR 0xF; let g := fun c => { arrived c with armedP := 0x8000#16 }
      Sees (ready g) (me g) (sysSpec f [] false true) (fun _ => bodyRA f ≠ 0 || bodyRB f ≠ 0 || bodyBits f 38 4 ≠ 0)
      (fun x => x.act ≠ 0#64 ∧ (me g).armed.getLsbD 15 = true ∧ (me g).armedP.getLsbD 15 ≠ (Block.start 1 1 1).barP.getLsbD 15)) :=
  ⟨sees_of rfl (by decide +kernel), sees_of rfl (by decide +kernel), sees_of rfl (by decide +kernel)⟩
/-- cbar 3 of a group of one crew: some of its lanes, all of them, lanes that have arrived already, no lane. -/
def cbarBad (f : FormS) : Bool := bodyRA f ≠ 0 || bodyRB f ≠ 0 || bodyBits f 38 2 ≠ 0
def inGroup (s : State) (c : Crew) (m : Mask) (y : Crew) : Bool :=
  (s.groupBlocks (Block.start 1 1 1)).any (fun q => q.id == y.blk) && (y.cin.getLsbD 3 || (y.id == c.id && (m == BitVec.allOnes 64 && c.exited == 0#64)))
theorem premises_cbar_crews : ∀ y ∈ (ready).crews, 3 < y.carrive.length ∧ (y.id = me.id → y.blk = me.blk ∧ y.cin = me.cin) := by decide
theorem premises_cbar : (let f := fRR 3 0 0 even; let s := ready lanes248; Sees s (me lanes248) (sysSpec f [] false true) (fun _ => cbarBad f) (fun x => x.act ≠ 0#64 ∧
      (me lanes248).carrive.getD 3 0#64 &&& x.act = 0#64 ∧ (s.crews.filter (inGroup s (me lanes248) ((me lanes248).carrive.getD 3 0#64 ||| x.act))).length < 1)) ∧
    (let f := fRR 3; Sees ready me (sysSpec f [] false true) (fun _ => cbarBad f) (fun x => x.act ≠ 0#64 ∧ me.carrive.getD 3 0#64 &&& x.act = 0#64 ∧
      1 ≤ ((ready).crews.filter (inGroup ready me (me.carrive.getD 3 0#64 ||| x.act))).length)) ∧
    (let f := fRR 3; let g := fun c : Crew => { c with carrive := c.carrive.set 3 1#64 }
      Sees (ready g) (me g) (sysSpec f [] false true) (fun _ => cbarBad f) (fun x => x.act ≠ 0#64 ∧ (me g).carrive.getD 3 0#64 &&& x.act ≠ 0#64)) ∧
    (let f := fRR 3 0 0 never; Sees ready me (sysSpec f [] false true) (fun _ => cbarBad f) (fun x => x.act = 0#64)) :=
  ⟨sees_of rfl (by decide +kernel), sees_of rfl (by decide +kernel), sees_of rfl (by decide +kernel), sees_of rfl (by decide +kernel)⟩

/-- A crew whose handler is the target at 0x10042. -/
def handled (c : Crew) : Crew := { c with tvec := some 0x10042#64 }
theorem premises_trap : (let f := fRR 0xFFFF; let s := ready handled memory
    Sees s (me handled) (specS f [] [] .none) (fun _ => bodyRA f ≠ 0 || bodyRB f ≠ 0 || bodyBits f 38 16 ≠ 0) (fun x => x.act ≠ 0#64 ∧ (me handled).insvc = false ∧
      (me handled).trapq = [] ∧ s.opening.tvecOf (me handled) = 0x10042#64 ∧ (s.ctxDesc 1).brksys = false ∧
      isOk (s.opening.checkTarget 0 1 0x10042#64 ((me handled).slot false).mask true) = true)) ∧
    (let f := fRR 0 0 0 never; Sees ready me (specS f [] [] .none) (fun _ => bodyRA f ≠ 0 || bodyRB f ≠ 0 || bodyBits f 38 16 ≠ 0) (fun x => x.act = 0#64)) :=
  ⟨sees_of rfl (by decide +kernel), sees_of rfl (by decide +kernel)⟩
/-- brk in a context whose descriptor has BRKSYS. -/
def breaking (s : State) : State :=
  let s := (memory s).writePa 0x300040 (leBytes 4 (2 ^ 31 + 2 ^ 29 + 2 ^ 26 + 1) ++ leBytes 4 0x10001 ++ leBytes 16 0 ++ leBytes 4 4 ++ leBytes 20 0)
  { s with mgmt := { s.mgmt with ctxtab := 0x300000#64 } }
theorem premises_brk_stalls : let f := fRR 0xFFFF; let s := ready handled breaking
    Sees s (me handled) (specS f [] [] .none) (fun _ => bodyRA f ≠ 0 || bodyRB f ≠ 0 || bodyBits f 38 16 ≠ 0) (fun x => x.act ≠ 0#64 ∧ (s.ctxDesc 1).brksys = true ∧
      (s.crews.map (fun y => y.id)).Nodup ∧ (me handled).gates.length ≤ 7 ∧ s.opening.atCursor?.isSome = true) := sees_of rfl (by decide +kernel)
/-- `Enterable` as a test, with the line found. -/
def enterable (s : State) (core asid : Nat) (pc : DWord) (line : List Byte) : Bool :=
  decide (pc.toNat / 2 ^ 57 = if pc.getLsbD 56 then 127 else 0) && decide (pc.toNat / 8 % 8 = 0) && decide (pc.toNat % 8 ≤ 4) &&
  (match s.place asid (pcLine pc) { r := false, w := false, x := true, space := 0 } 0 with
    | .ok l => s.locReady (dieOfCore core) l == .yes && !s.locPoison (dieOfCore core) l 64 && (s.beforeLoad (dieOfCore core) l 64).load (dieOfCore core) l 64 == line
    | .error _ => false) && s.icache.isEmpty && lineFault line == none && (lineWordOf line).getLsbD (pc.toNat % 8)
theorem enterable_of {s : State} {core asid : Nat} {pc : DWord} {line : List Byte} (h : enterable s core asid pc line = true) : Enterable s core asid pc line := by
  simp only [enterable, Bool.and_eq_true, decide_eq_true_eq, beq_iff_eq] at h
  obtain ⟨⟨⟨⟨⟨⟨h1, h2⟩, h3⟩, h4⟩, h5⟩, h6⟩, h7⟩ := h
  refine ⟨⟨h1, h2, h3⟩, ?_, ?_, h6, h7⟩
  · revert h4
    cases s.place asid (pcLine pc) { r := false, w := false, x := true, space := 0 } 0 with
    | error _ => intro h; cases h
    | ok l =>
      intro h
      simp only [Bool.and_eq_true, Bool.not_eq_true', beq_iff_eq] at h
      exact ⟨l, rfl, h.1.1, h.1.2, h.2⟩
  · intro y hy
    rw [List.isEmpty_iff.mp h5] at hy
    cases hy
theorem premises_trap_completes : Enterable (ready handled memory).opening 0 1 0x10042#64 targets ∧ (ready handled memory).opening.tvecOf (me handled) = 0x10042#64 :=
  ⟨enterable_of (by decide +kernel), by decide +kernel⟩
/-- The six transfers to the line at 0x10040: every lane moves, or the even ones; a loop whose counter ends. -/
theorem premises_transfers_direct : ∀ ga ∈ [Guard.none, even], let s := ready lanes248 memory; let c := me lanes248
    (let f := fB 0 ga; let sp := specB f [] [] .none; Sees s c sp (fun _ => slotBad f || f.a ≠ 0#8 || f.sub ≠ 0#13) (fun x => x.act ≠ 0#64 ∧
      enterable (s.issued c sp) 0 1 (directTarget f s.cur.pc) targets = true)) ∧
    (let f := fB 10 ga; let sp := specB f [] [grp f.a 2] (.fixed 2); Sees s c sp (fun c => slotBad f || f.sub ≠ 0#13 || ctlQueueBad c f.a.toNat 2) (fun x => x.act ≠ 0#64 ∧
      enterable (s.issued c sp) 0 1 (directTarget f s.cur.pc) targets = true)) ∧
    (let f := fB 10 ga; let sp := specB f [one f.a] [one f.a] (.fixed 2); Sees s c sp (fun c => slotBad f || f.sub ≠ 0#13 || ctlQueueBad c f.a.toNat 1) (fun x => x.act ≠ 0#64 ∧
      mkMask (fun l => x.act.getLsbD l && rowAt (x.plain s.opening f.a.toNat) l != 1#32) ≠ 0#64 ∧ enterable (s.issued c sp) 0 1 (directTarget f s.cur.pc) targets = true)) := by
  intro ga hg s c
  refine ⟨sees_of rfl ?_, sees_of rfl ?_, sees_of rfl ?_⟩ <;> revert c s ga <;> decide +kernel
theorem premises_loop_ends : let g := regs 10 [1]; let f := fB 10; let sp := specB f [one f.a] [one f.a] (.fixed 2)
    Sees (ready g memory) (me g) sp (fun c => slotBad f || f.sub ≠ 0#13 || ctlQueueBad c f.a.toNat 1) (fun x => x.act ≠ 0#64 ∧
      mkMask (fun l => x.act.getLsbD l && rowAt (x.plain (ready g memory).opening f.a.toNat) l != 1#32) = 0#64) := sees_of rfl (by decide +kernel)
theorem premises_transfers_indirect : ∀ ga ∈ [Guard.none, even], let g := fun c : Crew => regs 10 [0x10042, 0] (lanes248 c); let s := ready g memory; let c := me g
    (let f := { fB 10 ga with tgt := 0, slot := 0 }; let sp := specB f [grp f.a 2] [] .none
      Sees s c sp (fun c => tgtUsed f || f.sub ≠ 0#13 || ctlQueueBad c f.a.toNat 2) (fun x => x.act ≠ 0#64 ∧
        (∀ l, l < 64 → x.act.getLsbD l → pairTargets x s.opening f.a.toNat l = 0x10042#64) ∧ enterable (s.issued c sp) 0 1 0x10042#64 targets = true)) ∧
    (let f := { fB 12 ga with tgt := 0, slot := 0, sub := 10 }; let sp := specB f [⟨10, 2⟩] [grp f.a 2] (.fixed 2)
      Sees s c sp (fun c => tgtUsed f || f.sub.toNat / 256 ≠ 0 || ctlQueueBad c f.a.toNat 2 || ctlQueueBad c 10 2) (fun x => x.act ≠ 0#64 ∧
        (∀ l, l < 64 → x.act.getLsbD l → pairTargets x s.opening 10 l = 0x10042#64) ∧ enterable (s.issued c sp) 0 1 0x10042#64 targets = true)) := by
  intro ga hg g s c
  refine ⟨sees_of (by revert c s g; decide +kernel) ?_, sees_of (by revert c s g; decide +kernel) ?_⟩ <;> revert c s g ga <;> decide +kernel
/-- A trap in service in slot k. -/
def trapped (k : Bool) (c : Crew) : Crew :=
  { c with
    trapq := [{ cause := 0x14#32, slot := k, val := 0#64, ret := 0x10003#64, after := 0x10004#64, mask := 0xFF#64 }], insvc := true, svcSlot := k, exited := 1#64,
    a := { c.a with mask := 0xFE#64 } }
theorem premises_tret : (let f := fRR 0; Sees ready me (specS f [] [] .none) (fun _ => f.body ≠ 0#55) (fun x => x.act ≠ 0#64 ∧ me.trapq = [] ∧ me.insvc = false)) ∧
    (let f := fRR 0; let c := me (trapped false); Sees (ready (trapped false)) c (specS f [] [] .none) (fun _ => f.body ≠ 0#55) (fun x => x.act ≠ 0#64 ∧ c.trapq.length = 1 ∧ c.insvc = true ∧ c.srOld = [] ∧
      c.svcSlot = false ∧ (0xFF#64 &&& ~~~c.exited) ≠ 0#64 ∧ (0xFF#64 &&& ~~~c.exited) &&& ~~~x.act = 0#64)) ∧
    (let f := fRR 0; let c := me (trapped true); Sees (ready (trapped true)) c (specS f [] [] .none) (fun _ => f.body ≠ 0#55) (fun x => x.act ≠ 0#64 ∧ c.trapq.length = 1 ∧ c.insvc = true ∧
      c.svcSlot ≠ false)) := ⟨sees_of rfl (by decide +kernel), sees_of rfl (by decide +kernel), sees_of rfl (by decide +kernel)⟩

/-- A domain entry of 64 bytes (R401), and a gate entry of a callee of 48 registers at 0x10040 (R214). -/
def domE (priv asid gtn gtab root : Nat) : List Byte :=
  leBytes 4 (2 ^ 31 + priv * 2 ^ 28 + asid) ++ leBytes 4 gtn ++ leBytes 8 gtab ++ leBytes 8 root ++ leBytes 8 0x19000 ++ leBytes 4 4 ++ leBytes 4 0 ++
    leBytes 4 (2 ^ 31 + 5) ++ leBytes 20 0
def gateE : List Byte :=
  leBytes 4 (2 ^ 31 + 2 ^ 28 + 3) ++ leBytes 4 0x0F0 ++ leBytes 4 0xC00 ++ leBytes 4 1000 ++ leBytes 8 0x10040 ++ leBytes 8 0x107FF ++ leBytes 8 0x10041 ++
    leBytes 4 0 ++ leBytes 20 0
/-- Gate 3 of the caller's domain, into domain 3. -/
def gates (s : State) : State :=
  let s := renewed (((memory s).writePa 0x1180C0 gateE).writePa 0x2000C0 (domE 1 1 0 0 0x100000))
  { s with mgmt := { s.mgmt with domtab := 0x200000#64 } }
def inDomain (c : Crew) : Crew := { c with dent := domE 1 1 5 0x18000 0x100000 }
def gateBad (f : FormS) : Bool := bodyRA f ≠ 0 || bodyRB f ≠ 0 || bodyBits f 38 9 ≠ 0
def gretBad (f : FormS) : Bool := bodyRA f ≠ 0 || bodyRB f ≠ 0 || bodyBits f 38 17 ≠ 0
theorem premises_gate : (let f := fRR 3; let s := ready inDomain gates; let c := me inDomain; let sp := sysSpec f [] false true
    Sees s c sp (fun _ => gateBad f) (fun x => c.flights = [] ∧ crewIdle c = true ∧ (s.core c.core).gateWait = [] ∧
      (match (s.issued c sp).gateCheck x 3 with
        | .ok e => e.entry == 0x10040#64 && (unitHole (s.core c.core).gateUse (e.n / 16)).isSome &&
          isOk (((s.issued c sp).useDomain e.tdom).checkTarget c.core (((s.issued c sp).useDomain e.tdom).domain e.tdom).asid e.entry x.act true)
        | .error _ => false) = true)) := sees_of rfl (by decide +kernel)
theorem premises_gret : ∀ b ∈ [5, 0x10005], let f := fRR b; let c := me called
    Sees (ready called) c (sysSpec f [] false true) (fun _ => gretBad f) (fun x => c.flights = [] ∧ crewIdle c = true ∧ c.gates = [caller] ∧ divided c false x.act = false ∧ caller.trapu = false) := by
  intro b hb f c
  refine sees_of rfl ?_
  revert c f b
  decide +kernel
theorem premises_gates_complete : let f := fRR 3; let s := ready inDomain gates; let c := me inDomain; let sp := sysSpec f [] false true; let s1 := s.issued c sp
    Sees s c sp (fun _ => gateBad f) (fun x => c.flights = [] ∧ crewIdle c = true ∧ (c.slot true).st = .free ∧ c.depth = 0 ∧ x.act = (c.slot false).mask ∧
      (decodeDom c.dent).gtab = 0x18000 ∧ (decodeDom c.dent).gtn = 5 ∧ c.gates.length < 4 ∧ (s.core 0).gateWait = [] ∧ (s.core 0).gateUse = List.replicate 16 false ∧
      s1.entryBytes 1 0 0x180C0 64 10 = some gateE ∧ (match s1.gateEntry gateE with
        | some e => decide (e.minpriv ≤ c.priv) && decide ((e.pass ||| e.ret).toNat < 2 ^ 24) && e.wsize == 0 && e.entry == 0x10040#64 && decide (e.n / 16 ≤ 16) &&
          enterable (s1.useDomain e.tdom) 0 ((s1.useDomain e.tdom).domain e.tdom).asid 0x10040#64 targets
        | none => false) = true) := sees_of rfl (by decide +kernel)
theorem premises_gret_completes : let f := fRR 5; let c := me called
    Sees (ready called) c (sysSpec f [] false true) (fun _ => gretBad f) (fun x => c.flights = [] ∧ crewIdle c = true ∧ (c.slot true).st = .free ∧ c.depth = 0 ∧
      x.act = (c.slot false).mask ∧ c.gates = [caller] ∧ bodyBits f 16 16 = 0) := sees_of rfl (by decide +kernel)
/-- A gate whose crew is divided, and a gret without a caller. -/
theorem premises_gate_stops : (let f := fRR 3; let c := me twoSlots; Sees (ready twoSlots) c (sysSpec f [] false true) (fun _ => gateBad f) (fun x => crewIdle c = true ∧ divided c false x.act = true)) ∧
    (let f := fRR 5; Sees ready me (sysSpec f [] false true) (fun _ => gretBad f) (fun _ => crewIdle me = true ∧ me.gates = [])) :=
  ⟨sees_of rfl (by decide +kernel), sees_of rfl (by decide +kernel)⟩

/-- gets of LANEID, FPFLAGS, RNGSEED, CLOCK, and of every register of the table; inside a gate call. -/
def getsBad (f : FormS) (n : Nat) (c : Crew) : Bool := bodyRB f ≠ 0 || bodyBits f 38 8 ≠ 0 || !srKnown n || ctlQueueBad c (bodyRA f) (srSpan n)
theorem premises_gets : ∀ n ∈ [0, 2, 5, 6, 8, 0x19, 0x1A, 0x38] ++ srReads.map (fun r => r.num), ∀ p ∈ [false, true], let f := fRR n 12
    Sees ready me { specS f [] [grp (sysRA f) (srSpan n)] (.fixed 4) with priv := p } (getsBad f n) (fun _ => me.srOld = [] ∧ bodyBits f 7 0 = n) := by
  intro n hn p hp f
  refine sees_of rfl ?_
  revert f p n
  decide +kernel
theorem premises_gets_called : let f := fRR 0x1B 12
    Sees (ready called) (me called) { specS f [] [grp (sysRA f) (srSpan 0x1B)] (.fixed 4) with priv := false } (getsBad f 0x1B) (fun _ => (me called).srOld = [] ∧ (me called).gates ≠ []) :=
  sees_of rfl (by decide +kernel)
/-- sets and setsp: the registers of the user view, of block scope, TVEC, those of the privileged view, and no lane. -/
def setsSpec (f : FormS) (n : Nat) (p : Bool) : Spec := { specS f [grp (sysRA f) (srSpan n)] [] (.fixed 4) with priv := p, deny := !p && srKnown n && !srUser n }
theorem premises_sets : ∀ n ∈ [0x18, 0x19, 0x1A, 0x20, 0x30], let f := fRR n 12
    Sees ready me (setsSpec f n false) (getsBad f n) (fun x => x.act ≠ 0#64 ∧ (crewWrite n 0 Row.zero x.act).isSome ∧ modeBad 0 = false) := by
  intro n hn f
  refine sees_of rfl ?_
  revert f n
  decide +kernel
theorem premises_sets_block : ∀ n ∈ [0x1B, 0x1C, 0x31, 0x23], let f := fRR n 12
    Sees ready me (setsSpec f n false) (getsBad f n) (fun x => x.act ≠ 0#64 ∧ ((blockWrite n 0).isSome ∨ n = 0x23) ∧ me.gates = []) ∧
    Sees (ready called) (me called) (setsSpec f n false) (getsBad f n) (fun x => x.act ≠ 0#64 ∧ (me called).gates ≠ []) := by
  intro n hn f
  refine ⟨sees_of rfl ?_, sees_of rfl ?_⟩ <;> revert f n <;> decide +kernel
theorem premises_setsp : ∀ n ∈ [0x07, 0x25, 0x28, 0x2B, 0x10, 0x17, 0, 1, 2, 3, 4, 5, 6, 8, 0x21, 0x22, 0x24, 0x2C, 0x2D, 0x38], let f := fRR n 12
    Sees ready me (setsSpec f n true) (getsBad f n) (fun x => x.act ≠ 0#64 ∧ ((privilegedWrite n 0).isSome ∨ n ∈ [0, 1, 2, 3, 4, 5, 6, 8, 0x21, 0x22, 0x24, 0x2C, 0x2D, 0x38])) := by
  intro n hn f
  refine sees_of rfl ?_
  revert f n
  decide +kernel
theorem premises_sets_empty : let f := fRR 0x18 12 0 never; Sees ready me (setsSpec f 0x18 false) (getsBad f 0x18) (fun x => x.act = 0#64) := sees_of rfl (by decide +kernel)
/-- A reserved rounding code, and a write of a register that the user view does not write. -/
theorem premises_sets_stops : (let f := fRR 0x18 12; let g := regs 12 [6]; Sees (ready g) (me g) (setsSpec f 0x18 false) (getsBad f 0x18)
      (fun x => x.act ≠ 0#64 ∧ modeBad (rowAt (x.plain (ready g).opening 12) x.l0).toNat = true ∧ (rowAt (x.plain (ready g).opening 12) x.l0).toNat / 2 ^ 31 % 2 = 0)) ∧
    (ready).opening.issuer? = some me ∧ mayIssue (ready).opening me h0 = true ∧ srKnown 7 = true ∧ srUser 7 = false :=
  ⟨sees_of rfl (by decide +kernel), rfl, by decide +kernel, rfl, rfl⟩

/-- The maintenance instructions over a range of no bytes and of one byte, with and without lanes. -/
theorem premises_ifence : let f := fRR 0; Issues ready me (specS f [] [] .none) (fun _ => f.body ≠ 0#55) ∧ Steady ready me := issues_of rfl (by decide +kernel)
def range (n : Word) (c : Crew) : Crew := regs 20 [n] (regs 12 [0x10000, 0] c)
def rangeSpec (f : FormS) : Spec := sysSpec f [grp (sysRA f) 2, one (sysRB f)] true false
theorem premises_ranges : (let f := fRR 0 12 20 never; Sees ready me (rangeSpec f) (fun c => bodyBits f 38 0 ≠ 0 || ctlQueueBad c (bodyRA f) 2 || ctlQueueBad c (bodyRB f) 1) (fun x => x.act = 0#64)) ∧
    (let f := fRR 0 12 20; let s := ready (range 0) memory
      Sees s (me (range 0)) (rangeSpec f) (fun c => bodyBits f 38 0 ≠ 0 || ctlQueueBad c (bodyRA f) 2 || ctlQueueBad c (bodyRB f) 1) (fun x => x.act ≠ 0#64 ∧
        (rowAt (x.plain s.opening 20) x.l0).toNat = 0)) ∧
    (let f := fRR 0 12 20; let s := ready (range 1) memory
      Sees s (me (range 1)) (rangeSpec f) (fun c => bodyBits f 38 0 ≠ 0 || ctlQueueBad c (bodyRA f) 2 || ctlQueueBad c (bodyRB f) 1) (fun x => x.act ≠ 0#64 ∧
        0 < (rowAt (x.plain s.opening 20) x.l0).toNat ∧ (((s.issued (me (range 1)) (rangeSpec f)).release.rangeFault 1 0x10000 1 0).isNone) = true)) :=
  ⟨sees_of rfl (by decide +kernel), sees_of rfl (by decide +kernel), sees_of rfl (by decide +kernel)⟩
theorem premises_ranges_complete : let f := fRR 0 12 20; let s := ready (range 1) memory
    Sees s (me (range 1)) (rangeSpec f) (fun c => bodyBits f 38 0 ≠ 0 || ctlQueueBad c (bodyRA f) 2 || ctlQueueBad c (bodyRB f) 1) (fun x => x.act ≠ 0#64 ∧
      (rowAt (x.plain s.opening (bodyRA f)) x.l0).toNat = 0x10000 ∧ (rowAt (x.plain s.opening (bodyRA f + 1)) x.l0).toNat = 0 ∧ (rowAt (x.plain s.opening (bodyRB f)) x.l0).toNat = 1 ∧
      isOk ((s.issued (me (range 1)) (rangeSpec f)).release.place 1 0x10000 { r := false, w := false, x := false, space := 0 } 13) = true) := sees_of rfl (by decide +kernel)
theorem premises_tlbinv : (let f := fRR 2 12 20; Sees ready me (rangeSpec f) (fun c => bodyBits f 38 2 ≠ 0 || bodyBits f 1 0 == 3 || ctlQueueBad c (bodyRA f) 2 || ctlQueueBad c (bodyRB f) 1) (fun x => x.act ≠ 0#64)) ∧
    (let f := fRR 0 0 20; Sees ready me (sysSpec f [one (sysRB f)] true false) (fun c => bodyRA f ≠ 0 || bodyBits f 38 0 ≠ 0 || ctlQueueBad c (bodyRB f) 1) (fun x => x.act ≠ 0#64)) ∧
    (let f := fRR 0; Sees ready me (sysSpec f [] true false) (fun _ => f.body ≠ 0#55) (fun x => x.act ≠ 0#64)) ∧
    (let f := fRR 2047; Sees ready me (sysSpec f [] true true) (fun _ => bodyRA f ≠ 0 || bodyRB f ≠ 0 || bodyBits f 38 11 ≠ 0) (fun x => x.act ≠ 0#64)) :=
  ⟨sees_of rfl (by decide +kernel), sees_of rfl (by decide +kernel), sees_of rfl (by decide +kernel), sees_of rfl (by decide +kernel)⟩

/-- Launch 1 in slot k, with 4 KiB to lend. -/
def launched (k : Nat) : Launch :=
  { id := 1, slot := k, ctx := 1, record := List.replicate 34 0#8 ++ [4#8] ++ List.replicate 93 0#8, asid := 1, va := 0, wb := false, st := 2, reason := 0,
    late := false, deadline := none, order := 0, admitOrd := 0, placed := [], retired := 0, writes := [], hold := none }
def lends (lending : Bool) (s : State) : State := { s with launches := [launched 0], cores := s.cores.map (fun (k : CoreSt) => { k with lending := lending }) }
/-- A launch record at 128 of handle 16, from a context with LNCH and from one without; no lane; every launch slot in use. -/
def context (lnch : Bool) (s : State) : State :=
  let s := (memory s).writePa 0x300040 (leBytes 4 (2 ^ 31 + 2 ^ 29 + (if lnch then 2 ^ 27 else 0) + 1) ++ leBytes 4 0x10001 ++ leBytes 16 0 ++ leBytes 4 4 ++ leBytes 20 0)
  { s with mgmt := { s.mgmt with ctxtab := 0x300000#64 } }
def launches (c : Crew) : Crew := tables (regs 20 [128] (regs 12 [16] c))
def launchSpec (f : FormS) : Spec := sysSpec f [one (sysRA f), one (sysRB f)] false true
def launchBad (f : FormS) (c : Crew) : Bool := bodyBits f 38 0 ≠ 0 || ctlQueueBad c (bodyRA f) 1 || ctlQueueBad c (bodyRB f) 1
theorem premises_launch : ∀ l ∈ [false, true], let f := fRR 0 12 20; let s := ready launches (context l); let c := me launches; let s1 := s.issued c (launchSpec f)
    Sees s c (launchSpec f) (launchBad f) (fun x => let a : Acc := { l := x.l0, hidx := 16, e := s1.handle c.asid 0 c.ht 16 16, off := 128, va := 0x18080 }
      x.act ≠ 0#64 ∧ s.launchSlots.length < 256 ∧ (s.ctxDesc 1).lnch = l ∧ (checkAcc s1 x.c [a] 128 [1, 5, 7] (fun e => e.r)).isNone = true ∧ a.e.wait = false ∧
      (let m := noteUse s1.release x.c [a]; m.recordWaits (recordCtx (m.load 0 (.pa 0x118080 0) 128) 1) = false) ∧
      reaches s1.release x.c a 128 [1, 5, 7] (fun e => e.r) true false true (.pa 0x118080 0) = true) := by
  intro l hl f s c s1
  refine sees_of rfl ?_
  revert s1 c s f l
  decide +kernel
theorem premises_launch_stops : (let f := fRR 0 12 20 never; Sees ready me (launchSpec f) (launchBad f) (fun x => x.act = 0#64)) ∧
    (let f := fRR 0 12 20; let h := fun s : State => { s with launches := (List.range 256).map launched }
      Sees (ready id h) me (launchSpec f) (launchBad f) (fun x => x.act ≠ 0#64 ∧ 256 ≤ (ready id h).launchSlots.length)) :=
  ⟨sees_of rfl (by decide +kernel), sees_of rfl (by decide +kernel)⟩
/-- The harvest hints of a block without a launch record do nothing; those of an owner with a lend amount act. -/
theorem premises_hints : ∀ b ∈ [0, 1], let f := fRR b
    Sees ready me (specS f [] [] .none) (fun _ => f.body ≠ BitVec.ofNat 55 b) (fun x => x.act ≠ 0#64 ∧ hintActs x ready = false) ∧
    Sees (ready id (lends false)) me (specS f [] [] .none) (fun _ => f.body ≠ BitVec.ofNat 55 b) (fun x => hintActs x (ready id (lends false)) = true ∧
      ((ready id (lends false)).core 0).revoke = 0 ∧ ((ready id (lends false)).core 0).lending = false) := by
  intro b hb f
  refine ⟨sees_of rfl ?_, sees_of rfl ?_⟩ <;> revert f b <;> decide +kernel

/-! ## The cox -/

/-- A buffer descriptor without handle (R304): 256-byte chunks, three of them. -/
def bufE (base : Nat) : List Byte := leBytes 8 base ++ leBytes 4 (2 ^ 31 + 3 * 256 + 8) ++ leBytes 4 3
/-- Context 1 of group 7 in slot 0, at the last word but one that the region has; register 2 is 2 and register 3 names rank 3 at port 1. -/
def cslot (g : CoxSlot → CoxSlot := id) : CoxSlot := g { CoxSlot.free with
  st := 2, ctx := 1, asid := 1, pc := 4094, spin := 65535, group := 7, regs := ((List.replicate 16 0#64).set 2 2#64).set 3 0x103#64,
  bufs := (List.range 16).map (fun i => bufE (0x18000 + 1024 * i)) }
/-- The cox of port 0 about to execute for that context. -/
def cready (g : CoxSlot → CoxSlot := id) (h : State → State := id) : State :=
  let s := State.reset
  h { s with
    mgmt := { Mgmt.reset with boot := true, stage := 3, dieup := 15#4, stackup := 255#8 }, order := 2, cur := Cursor.idle,
    groups := s.groups.set 7 { v := true, rhnd := 0, root := 0, nm1 := 3, ctx := 1, seq := 0, memb := 0xF, rsv := 0 },
    coxes := s.coxes.set 0 { CoxSt.reset with regions := CoxSt.reset.regions.set 0 0x800000010FFF0000#64, cur := 0, slots := CoxSt.reset.slots.set 0 (cslot g) } }
theorem coxRuns_of {s : State} {sl : CoxSlot} (h1 : s.coxSlot s.cur.port s.cur.ctxSlot = sl)
    (h2 : (sl.st == 2 && s.inRegion s.cur.port sl sl.pc && decide (sl.spin < 65536) && !sl.step) = true) : CoxRuns s sl := by
  simp only [Bool.and_eq_true, Bool.not_eq_true', beq_iff_eq, decide_eq_true_eq] at h2
  exact ⟨h1, h2.1.1.1, h2.1.1.2, h2.1.2, h2.2⟩

/-- The next PC inside the region, and outside it. -/
theorem premises_cox : CoxRuns cready cslot ∧ (cready).inRegion (cready).cur.port cslot (cslot.pc + 1) = true ∧ Undisturbed cslot ∧
    CoxRuns (cready (fun x => { x with pc := 4095 })) (cslot (fun x => { x with pc := 4095 })) ∧
    (cready (fun x => { x with pc := 4095 })).inRegion 0 (cslot (fun x => { x with pc := 4095 })) 4096 = false :=
  ⟨coxRuns_of rfl (by decide +kernel), by decide +kernel, ⟨rfl, rfl⟩, coxRuns_of rfl (by decide +kernel), by decide +kernel⟩
/-- The fields of the register instructions, good and bad; a branch to 4095 and one to 0. -/
theorem premises_cox_fields : (∀ r ∈ coxAluRows, r.2.1 ⟨15, 2, 0, 0⟩ = false ∧ r.2.1 ⟨15, 2, 0, 1⟩ = true) ∧ (∀ r ∈ coxBranchRows, r.2.1 ⟨0, 0, 0, 4095⟩ = false) ∧
    (cready).inRegion 0 cslot 4095 = true ∧ (cready).inRegion 0 cslot 0 = true := by
  refine ⟨?_, ?_, by decide +kernel, by decide +kernel⟩
  · simp only [coxAluRows, List.forall_mem_cons]; decide
  · simp only [coxBranchRows, List.forall_mem_cons]; decide

/-- The second chunk index past COUNT, the target, the windows of the chunk instructions. -/
def win (landed : Nat) (c : CoxSlot) : CoxSlot :=
  { c with wins := [{ tag := 9, buf := 3, chunk := 2, landed := landed, fva := none, fsub := 0, poison := false, pva := 0 }] }
def fCC (buf ireg treg : BitVec 4) (wtag stag : BitVec 8) : FormCC := { buf := buf, ireg := ireg, treg := treg, wtag := wtag, stag := stag, rsv := 0 }
theorem premises_chunk : BufferOk cslot (fCC 4 2 3 0 9) ∧ TargetOk cready cslot (fCC 4 2 3 0 9) ∧ cslot.send = none ∧ (∀ w ∈ cslot.wins, w.tag ≠ 9) ∧ cslot.wins.length < 4 ∧
    (cslot.buf 4).hf = false ∧ Landed (cslot (win 256)) 9 ∧ SameShape (cslot (win 256)) (fCC 4 2 3 9 9) ∧ (cslot (win 256)).phase = false ∧
    CoxRuns (cready (win 256)) (cslot (win 256)) := by
  refine ⟨⟨by decide +kernel, by decide +kernel⟩, ⟨by decide +kernel, by decide +kernel, by decide +kernel⟩, rfl, ?_, by decide, by decide +kernel,
    ⟨⟨_, List.mem_singleton.mpr rfl, rfl⟩, rfl, rfl, by decide +kernel⟩, ⟨by decide +kernel, by decide +kernel⟩, rfl, coxRuns_of rfl (by decide +kernel)⟩
  intro w h; cases h
/-- The bytes of a chunk can be read, and the chunk of the window combined into it. -/
theorem premises_span : isOk (coxSpan (cready id memory).opening 0 cslot (cslot.buf 4) false (2 * 2 ^ 8) (2 ^ 8)) = true ∧
    isOk (combineChunk (cready (win 256) memory).opening 0 0 4 2 9) = true := by decide +kernel
/-- The chunk of a window that has landed can be sent on. -/
theorem premises_fwd : let s := cready (win 256) memory; let sl := cslot (win 256); let m := withSlot s s.opening (fun x => { x with phase := true }); let w := sl.win 9
    TargetOk s sl (fCC 0 0 3 9 9) ∧ Landed sl 9 ∧ sl.phase = false ∧ sl.send = none ∧
    isOk (coxSpan m 0 (m.coxSlot 0 0) (sl.buf w.buf) false (w.chunk * 2 ^ (sl.buf w.buf).lch) (2 ^ (sl.buf w.buf).lch)) = true :=
  ⟨⟨by decide +kernel, by decide +kernel, by decide +kernel⟩, ⟨⟨_, List.mem_singleton.mpr rfl, rfl⟩, rfl, rfl, by decide +kernel⟩, rfl, rfl, by decide +kernel⟩
/-- A send whose packets have all been accepted, in combf and fwd the second half of the instruction. -/
def sent (c : CoxSlot) : CoxSlot := { win 256 c with phase := true, send := some { newSend cready cready cslot 4 2 0x103 9 with left := [] } }
theorem premises_sent : CoxRuns (cready sent) (cslot sent) ∧ BufferOk (cslot sent) (fCC 4 2 3 9 9) ∧ TargetOk (cready sent) (cslot sent) (fCC 4 2 3 9 9) ∧
    Landed (cslot sent) 9 ∧ (cslot sent).phase = true ∧ ∃ sd, (cslot sent).send = some sd ∧ sd.fail = none ∧ sd.left = [] :=
  ⟨coxRuns_of rfl (by decide +kernel), ⟨by decide +kernel, by decide +kernel⟩, ⟨by decide +kernel, by decide +kernel, by decide +kernel⟩,
    ⟨⟨_, List.mem_singleton.mpr rfl, rfl⟩, rfl, rfl, by decide +kernel⟩, rfl, _, rfl, rfl, rfl⟩
/-- An invalid buffer, a chunk index equal to COUNT, a rank past the last. -/
theorem premises_chunk_checks : (let c := cslot (fun x => { x with bufs := List.replicate 16 (List.replicate 16 0#8) }); CoxRuns (cready (fun x => { x with bufs := List.replicate 16 (List.replicate 16 0#8) })) c ∧ (c.buf 4).v = false) ∧
    (let g := fun x : CoxSlot => { x with regs := x.regs.set 2 3#64 }; CoxRuns (cready g) (cslot g) ∧ ((cslot g).buf 4).v = true ∧ ((cslot g).buf 4).count ≤ (creg (cslot g) 2).toNat) ∧
    (let g := fun x : CoxSlot => { x with regs := x.regs.set 3 4#64 }; CoxRuns (cready g) (cslot g) ∧ BufferOk (cslot g) (fCC 4 2 3 0 9) ∧ ¬ TargetOk (cready g) (cslot g) (fCC 4 2 3 0 9)) :=
  ⟨⟨coxRuns_of rfl (by decide +kernel), by decide +kernel⟩, ⟨coxRuns_of rfl (by decide +kernel), by decide +kernel, by decide +kernel⟩,
    ⟨coxRuns_of rfl (by decide +kernel), ⟨by decide +kernel, by decide +kernel⟩, fun h => absurd h.2.2 (by decide +kernel)⟩⟩
/-- The flag word at offset 8 has reached target 0 and is short of 0x7FFFFFFF. -/
def flags (v : DWord) (c : CoxSlot) : CoxSlot := { c with regs := (c.regs.set 7 8#64).set 6 v }
theorem premises_flag : ∀ p ∈ ([(0, true), (1, false), (0x80000000, false), (0x80000001, true)] : List (Nat × Bool)),
    let s := cready (flags (BitVec.ofNat 64 p.1)) memory; let c := cslot (flags (BitVec.ofNat 64 p.1)); let f : FormCF := { buf := 0, oreg := 7, vreg := 6, rsv := 0 }
    ((s.coxSlot 0 0 == c) && s.inRegion 0 c (c.pc + 1) && (match flagPlace s.opening 0 c f false, flagPlace s.opening 0 c f true with
      | .ok (l, _), .ok _ => decide ((leNat (s.opening.load 0 l 4) + 2 ^ 32 - (creg c f.vreg).toNat % 2 ^ 32) % 2 ^ 32 < 2 ^ 31) == p.2
      | _, _ => false)) = true := by decide +kernel
/-- `Mapped` for the first 256 bytes of buffer 0 on, as a test. -/
def mapped (s : State) (sl : CoxSlot) (d : BufD) (write : Bool) (off n : Nat) : Bool :=
  !d.hf && decide ((d.base + off) % 2 ^ 64 % 65536 + n ≤ 65536) && canonical ((d.base + off) % 2 ^ 64) &&
  (match s.place sl.asid ((d.base + off) % 2 ^ 64) { r := !write, w := write, x := false, space := 0 } 20 with
    | .ok l => s.locReady 0 l == .yes
    | .error _ => false)
theorem mapped_of {s : State} {sl : CoxSlot} {d : BufD} {write : Bool} {off n : Nat} (h : mapped s sl d write off n = true) : ∃ l, Mapped s 0 sl d write off n l := by
  simp only [mapped, Bool.and_eq_true, Bool.not_eq_true', decide_eq_true_eq] at h
  obtain ⟨⟨⟨h1, h2⟩, h3⟩, h4⟩ := h
  revert h4
  cases hp : s.place sl.asid ((d.base + off) % 2 ^ 64) { r := !write, w := write, x := false, space := 0 } 20 with
  | error _ => intro h; cases h
  | ok l => intro h; exact ⟨l, h1, ⟨h2, h3⟩, hp, by simpa using h⟩
theorem premises_comb_completes : let s := cready (win 256) memory; let sl := cslot (win 256)
    (∃ w, Mapped s.opening 0 sl (sl.buf 4) true (2 * 2 ^ 8) (2 ^ 8) w) ∧ (∃ l, Mapped s.opening 0 sl (sl.buf 4) false (2 * 2 ^ 8) (2 ^ 8) l) ∧
    (∃ l, Mapped s.opening 0 sl (sl.buf (sl.win 9).buf) false ((sl.win 9).chunk * 2 ^ 8) (2 ^ 8) l) ∧ s.inRegion 0 sl (sl.pc + 1) = true :=
  ⟨mapped_of (by decide +kernel), mapped_of (by decide +kernel), mapped_of (by decide +kernel), by decide +kernel⟩
theorem premises_flags_complete : let s := cready (flags 0) memory; let c := cslot (flags 0); let d := c.buf 0
    d.v = true ∧ 8 % 4 = 0 ∧ 8 < d.count * 2 ^ d.lch ∧ (∃ l, Mapped s.opening 0 c d false 8 4 l) ∧ (∃ w, Mapped s.opening 0 c d true 8 4 w) ∧
    (match s.opening.place 1 0x18008 { r := true, w := false, x := false, space := 0 } 20 with
      | .ok l => !s.opening.locPoison 0 l 4 && s.opening.paKind (l.readPa 0) == .hbm 0 && leNat ((s.opening.beforeLoad 0 l 4).load 0 l 4) == 0
      | .error _ => false) = true :=
  ⟨by decide +kernel, rfl, by decide +kernel, mapped_of (by decide +kernel), mapped_of (by decide +kernel), by decide +kernel⟩
theorem premises_flag_quiet : Quiet (cready (flags 0) memory) := ⟨rfl, rfl⟩

/-! ## Events of crews, units and launches -/

/-- A command of crew 1: class, code, arguments. -/
def op (cls opc : Nat) (args : List Word) : Op :=
  { id := 2, crew := 1, ctx := 1, blk := 1, core := 0, src := 0#32, asid := 1, dom := none, fq := { fqva := 0, fqlog := 4, asid := 1, msie := false, msiv := 0 }, level := 0,
    ht := 0x107FF#64, window := none, harvest := false, cls := cls, opc := opc, args := args, trec := [], metaw := [], checked := false, pos := 0, prog := [0, 0, 0, 0],
    started := [false, false, false, false], lscale := 0#32, ovf := 0, stat := 0, done := false, pause := [], sliceStat := [0, 0, 0, 0], await := [], met := [], tag := 2, left := 1,
    probes := [], phase := 0, sentAt := 0, stage := [], dropped := false }
/-- The ready state with `memory` and operations; g changes the crew. -/
def working (ops : List Op) (g : Crew → Crew := id) : State := { ready g memory with ops := ops, order := 10 }

/-- A load in flight that counts flag 3, the last of its write raced in one lane. -/
def flying : Flight := { id := 5, flag := some 3, due := none, writes := [{ reg := 255, row := Row.zero, mask := 3#64, bits := 0xFFFFFFFF#32, raced := [(2#64, 0xFFFFFFFF#32)] }], squash := true, fpx := false }
theorem premises_completion : let g := fun c : Crew => { c with flights := [flying], flags := c.flags.set 3 1 }; let s := ready g
    s.crew? 1 = some (me g) ∧ (me g).flights.find? (fun g => g.id == 5 && g.due.isNone) = some flying ∧ s.accas.all (fun a => a.crew != 1 || a.flight != 5) = true ∧
    (∀ f ∈ (me g).flights, f.due = none) ∧ ∀ a ∈ flying.writes, a.reg < (me g).regs.length ∧ (a.reg = 255 → ∀ p ∈ a.raced, p.1.getLsbD 0 = false) := by
  refine ⟨rfl, rfl, rfl, ?_, ?_⟩
  · intro f hf; rw [List.mem_singleton.mp hf]; rfl
  · intro a ha
    rw [List.mem_singleton.mp ha]
    refine ⟨by decide +kernel, fun _ p hp => ?_⟩
    rw [List.mem_singleton.mp hp]; decide
/-- The flight of a command that has not begun and may still read its length from register 9; it has read late already where it began. -/
theorem premises_completion_late : ∀ started ∈ [false, true], let f : Flight := { id := 2, flag := none, due := none, writes := [], squash := false, fpx := false, late := some (.args [0, 0, 0, 0, 10] 3) }
    let g := fun c : Crew => { c with flights := [f] }; let o := { op 0 0x280 [17#32, 0x200#32, 17#32, 0#32, 256#32] with checked := started }; let s := working [o] g
    s.crew? 1 = some (me g) ∧ (me g).flights.find? (fun g => g.id == 2 && g.due.isNone) = some f ∧ s.accas.all (fun a => a.crew != 1 || a.flight != 2) = true ∧ s.ops[0]? = some o ∧
    (o.id ≠ f.id ∨ o.checked = true ↔ started = true) := by
  intro started _
  exact ⟨rfl, rfl, rfl, rfl, by revert started; decide⟩

/-- A record held for a queue at VA 0x18000 with room for 16 entries: empty, and with all 16 taken. -/
def kept : Held :=
  { dom := false, num := 1, fq := { fqva := 0x18000, fqlog := 4, asid := 1, msie := false, msiv := 0 }, kind := 0, ctx := 1, src := 0#32, rasid := 1#32, flg := 0#32,
    body := List.replicate 64 0#8, crew := some 1, unit := none, unwritable := false, tried := 0 }
def queued (prod : Nat) : State := { ready id (fun s => (memory s).writePa 0x118000 (leBytes 4 prod)) with held := [kept] }
theorem tryPost_full_of {s : State} {h : Held} {cb : List Byte}
    (h1 : s.readVa h.fq.asid 0 { r := true, w := true, x := false, space := 0 } 2 h.fq.fqva 12 = .ok cb)
    (h2 : (leNat (cb.take 4) + 2 ^ 32 - leNat ((cb.drop 4).take 4)) % 2 ^ 32 = 2 ^ h.fq.fqlog) : s.tryPost h = (s, none, none) := by
  simp only [State.tryPost, h1, if_pos h2]
theorem premises_held : (queued 15).held[0]? = some kept ∧ (((fresh (queued 15)).tryPost kept).2.1.isSome = true) ∧ (fresh (queued 16)).tryPost kept = (fresh (queued 16), none, none) ∧
    ((fresh (queued 15)).tryPost { kept with fq := { kept.fq with fqva := 0x28000 } }).2.2 = some 0x28000 := by
  refine ⟨rfl, by decide +kernel, ?_, by decide +kernel⟩
  exact tryPost_full_of (cb := leBytes 4 16 ++ List.replicate 8 0#8) (by decide +kernel) (by decide +kernel)

/-- A copy of 256 bytes inside block memory: still to be checked, good and bad; under way; over. -/
def copy (n : Nat) : Op := op 0 0x280 [17#32, 0x200#32, 17#32, 0#32, BitVec.ofNat 32 n]
theorem premises_copy_checks : let s := working [copy 256]; let t := working [copy 4096]
    s.op? 2 = some (copy 256) ∧ (fresh s).opLive (copy 256) = true ∧ s.bmem.wf = true ∧ checkCopy (((fresh s).touchOp (copy 256)).noteBadHandles (copy 256)) (copy 256) = 0 ∧
    checkCopy (((fresh t).touchOp (copy 4096)).noteBadHandles (copy 4096)) (copy 4096) ≠ 0 ∧ ((fresh s).touchOp (copy 256)).handlesWait (copy 256) = false ∧
    ((fresh t).touchOp (copy 4096)).handlesWait (copy 4096) = false := by
  refine ⟨rfl, ?_⟩
  decide +kernel
theorem premises_copy_step : let o := { copy 256 with checked := true }; let u := (fresh (working [o])).touchOp o; let te := u.opHandle o 17#32
    te.space = 2 ∧ o.shape.piece o.unit (te.base + o.arg 3) (te.base + o.arg 1) 0 = some (0, 0, 256) ∧ o.shape.total ≤ 256 ∧
    (copyTargets u o).all (fun p => (List.range p.2).all (fun i => !inPlaces (copySources u o) p.1 i)) = true := by decide +kernel
/-- A copy whose handle table lies on a stack that has still to train; one of two pieces, the target of the second in another sector. -/
theorem premises_copy_waits : let s := { working [copy 256] with mgmt := { (ready).mgmt with stage := 2, stackup := 0#8 } }
    (fresh s).opLive (copy 256) = true ∧ ((fresh s).touchOp (copy 256)).handlesWait (copy 256) = true := by decide +kernel
theorem premises_copy_parts : let o := { copy 2048 with args := [17#32, 0x2800#32, 17#32, 0xF00#32, 2048#32], checked := true }; let u := (fresh (working [o])).touchOp o; let te := u.opHandle o 17#32
    te.space = 2 ∧ o.shape.piece o.unit (te.base + o.arg 3) (te.base + o.arg 1) 0 = some (0, 0, 256) ∧ 256 < o.shape.total ∧
    o.shape.joined o.unit (te.base + o.arg 3) (te.base + o.arg 1) 256 = false := by decide +kernel
/-- A tile signal to 0x18008 that awaits operation 3: under way, ended well, ended badly. -/
def signal : Op := { op 0 0x298 [16#32, 8#32, 0#32, 1#32, 1#32, 0#32, 0x18000#32, 0#32, 1#32, 0#32] with await := [3] }
def awaits (done : Bool) (stat : Nat) : State := working [signal, { op 0 0x280 [] with id := 3, done := done, stat := stat }]
theorem premises_signal : let u := fresh (awaits true 0)
    (awaits true 0).op? 2 = some signal ∧ (awaits true 0).opHere signal = true ∧ (∃ p ∈ (awaits false 0).ops.filter (fun p => signal.await.contains p.id), p.done = false) ∧
    (∀ p ∈ (awaits true 0).ops.filter (fun p => signal.await.contains p.id), p.done = true) ∧ signal.met = [] ∧
    (let o := { signal with met := [(7, 1), (3, 4)] }; ((3, 4) ∈ o.met ∧ ∀ q ∈ o.met, q.2 ≠ 0 ∧ (q = (3, 4) ∨ 3 < q.1))) ∧
    (match u.opPlace signal signal.flagEntry (signal.arg 1 + signal.arg 2 * 2 ^ 32) true true with
      | .ok l => u.locReady 0 l.home == .yes && !u.locPoison 0 l.home 4
      | .error _ => false) = true := by
  refine ⟨rfl, rfl, ⟨{ op 0 0x280 [] with id := 3, done := false, stat := 0 }, by decide +kernel, rfl⟩, ?_⟩
  decide +kernel

/-- A task of record 2: checked, in the marshal and ready; one to be checked, good and bad; one whose slices are over. -/
def task (opc : Nat) : Op := { op 2 opc [0#32, 0#32, 0#32, 0#32, 16#32, 0#32] with trec := record false, id := 2 }
def tasks (o : Op) : State := units (working [o] tables)
theorem premises_task : let o := { task 0x321 with checked := true }; let u := fresh (tasks o)
    (tasks o).op? 2 = some o ∧ u.engineBusy 0 = false ∧ u.sliceReady o 0 = true ∧ (u.sliceBlock o 0).any (fun b => b.core == 0) = true ∧ 0 < trSlices o.trec ∧
    ((tasks o).ctxSt 1).stopped = false ∧ u.inMarshal o = true ∧ taskStatus u o = 0 ∧ o.mv ≠ 0 ∧ taskStatus u { task 0x320 with args := [32768#32, 0#32, 0#32, 0#32, 16#32, 0#32] } ≠ 0 ∧
    (let z := { o with prog := [16, 16, 16, 16] }; ∀ k, k < trSlices z.trec → z.sliceOver k = true) ∧
    (tasks (task 0x321)).mgmt.stage ≠ 2 ∧ ({ tasks (task 0x321) with mgmt := { (ready).mgmt with stage := 2 } } : State).mgmt.stage = 2 ∧ (task 0x321).checked = false := by
  refine ⟨rfl, ?_⟩
  decide +kernel
theorem premises_task_row : let o := { task 0x321 with checked := true, started := [true, false, false, false] }
    (tasks o).op? 2 = some o ∧ o.started.getD 0 false = true ∧ o.sliceOver 0 = false ∧ (o.pause.any (fun p => p.1 == 0)) = false ∧
    ((tasks o).sliceBlock o 0).isSome = true ∧ (tasks o).amem.wf = true ∧ ∀ x ∈ o.sliceStat, x = 0 := by
  refine ⟨rfl, ?_⟩
  decide +kernel
/-- A row of mma.i8 whose operands lie in handle 17, one byte of each. -/
def mmaI8 : Op := { task 0x30F with checked := true, started := [true, false, false, false], trec := [0x00000000#32, 0x00110011#32, 64#32, 64#32, 0x3000#32, 0x00020000#32, 0#32, 0#32] }
theorem premises_mma_row : let u := (fresh (tasks mmaI8)).touchTask mmaI8
    (match engRead u mmaI8 (u.opHandle mmaI8 (BitVec.ofNat 32 (trHnd mmaI8.trec false))) 2 (mmaI8.arg 0) (trKB mmaI8.trec),
        readCols u mmaI8 (u.opHandle mmaI8 (BitVec.ofNat 32 (trHnd mmaI8.trec true))) 0 (trNLc mmaI8.trec 0) with
      | .ok x, .ok ys => x.all (fun p => !p.2) && ys.all (fun y => y.all (fun p => !p.2))
      | _, _ => false) = true := by decide +kernel
/-- Such a task keeps its unit. -/
theorem premises_accf_late : let s := tasks { task 0x321 with checked := true }; ((s.block? 1).any (fun b => (List.range 64).any (fun u => !(s.usersOf b u).isEmpty))) = true := by decide +kernel

/-- A request for four units of a core that has them free, and a release that waits for a task. -/
def asking : AccaReq := { id := 3, crew := 1, slot := false, blk := 1, core := 0, units := 4, base := none, dst := 10, mask := BitVec.allOnes 64, flight := 3 }
theorem premises_allocator : let s := { ready with accas := [asking] }
    (fresh s).oldestReq 0 = some asking ∧ s.block? 1 = some (Block.start 1 1 1) ∧ s.crew? 1 = some me ∧ (Block.start 1 1 1).spilled = 0#64 ∧ s.spills = [] ∧
    unitRun 4 ((fresh s).unitFree 0) = some 0 ∧ (∀ i, i < 4 → (fresh s).unitFree 0 (0 + i) = true) := by
  refine ⟨rfl, rfl, rfl, rfl, rfl, ?_⟩
  decide +kernel
theorem premises_accf_release : let s := { ready with accfs := [{ blk := 1, core := 0, unit := 3, tasks := [2] }] }; s.accfs[0]? = some { blk := 1, core := 0, unit := 3, tasks := [2] } := rfl

/-- An arriving write whose clock is satisfied, one behind it that overlaps, one whose clock is not; replica writes of one page. -/
def write (src num : Nat) (clock : List Nat) : Arriving := { src := src, dst := 0, clock := clock, num := num, pa := 0x40, bytes := [1#8, 2#8], poison := false, key := 0 }
theorem premises_arrivals : let w := write 1 3 [0, 0, 4, 0]; let s := { ready with arriving := [w, write 1 4 [0, 3, 0, 0], { write 2 5 [0, 3, 0, 0] with pa := 0x80 }] }
    s.arriving[0]? = some w ∧ ¬ Owed s 0 w.clock ∧ (∃ x ∈ s.arriving.take 1, x.src = 1 ∧ x.pa < 0x40 + 2 ∧ 0x40 < x.pa + 2) ∧ Owed s 0 [0, 3, 0, 0] ∧ 0 < s.dieClk.length ∧
    (∀ k, k < w.bytes.length → s.sealedEntry (w.pa + k) = false) := by
  unfold Owed
  decide +kernel
theorem premises_replicas : let r : Replica := { die := 1, pa := 0x40, bytes := [1#8], key := 0, src := 0, by_ := 0, clock := [0, 0, 0, 0], num := 1 }
    let s := { ready with replicas := [r, { r with pa := 0x1FFFFF }, { r with pa := 0x200000, src := 2, clock := [1, 0, 0, 0] }] }
    s.replicas[0]? = some r ∧ (∀ x ∈ s.replicas.take 0, x.die ≠ r.die) ∧ ¬ Owed s 1 r.clock ∧ (∃ x ∈ s.replicas.take 1, x.die = 1 ∧ x.pa / 2 ^ 21 = 0x1FFFFF / 2 ^ 21) ∧
    Owed s 1 [1, 0, 0, 0] := by
  unfold Owed
  decide +kernel
/-- A busy tracker; pfd requests before and after their deadline. -/
def request (begun : Bool) : PfdReq := { ctx := 1, handle := 16, prio := 0, deadline := 0, order := 7, begun := begun }
theorem premises_prefetch : let s := fun (b : Bool) (cycle : Nat) => ({ ready id (fun s => s.modCore 0 (fun k => { k with pfds := [request b] })) with cycle := cycle } : State)
    0 < (s false 1).cores.length ∧ (((s false 1).core 0).trackers[31]?).isSome = true ∧ ((s false 1).core 0).pfds ≠ [] ∧
    ((s false 1).core 0).pfds.find? (fun q => q.order == 7) = some (request false) ∧ (request false).deadline < (s false 1).cycle ∧ (s false 0).cycle ≤ (request false).deadline ∧
    ((s true 1).core 0).pfds.find? (fun q => q.order == 7) = some (request true) ∧
    (∃ p ∈ ((s true 1).core 0).pfds, p.begun = true) ∧ (∀ p ∈ ((s false 1).core 0).pfds, p.begun = false ∧ p.deadline < (s false 1).cycle) ∧
    (∃ p ∈ ((s false 0).core 0).pfds, (s false 0).cycle ≤ p.deadline) := by decide +kernel

/-- A launch of context 1 by the words of its record: class, blocks; one crew of 64 registers and 300 KiB of block memory a block, entry 0x10042. -/
def launchOf (cls blocks : Nat) (st : Nat) (deadline : Option Nat := none) (placed : List Nat := []) : Launch :=
  let ws : List Nat := [0x10042, 0, 0x107FF, 0, blocks, 1, 1, 0x300, 300, 0, cls]
  { launched 0 with record := (List.range 32).flatMap (fun i => leBytes 4 (ws.getD i 0)), st := st, deadline := deadline, placed := placed }
def withLaunch (l : Launch) (bs : List Block := []) (cs : List Crew := []) : State := { ready with launches := [l], blocks := bs, crews := cs, cycle := 5 }
theorem premises_admission : let l := launchOf 0 1 1; let s := withLaunch l; let e := launchOf 0 1 1 (some 5)
    s.launch? l.id = some l ∧ s.mgmt.ps = 0#2 ∧ s.expired l = false ∧ (∀ k ∈ s.launches, k.st = 1 → k.before l = true → (fresh s).qFits k = false) ∧ l.cls = 0 ∧
    (withLaunch e).expired e = true ∧ (fresh (withLaunch (launchOf 0 200 1))).qFits (launchOf 0 200 1) = false ∧
    (s.ctxSt 1).stopped = false ∧ (({ s with ctxs := [{ s.ctxSt 1 with stopped := true }] } : State).ctxSt 1).stopped = true ∧ (1#2 : BitVec 2) ≠ 0#2 := by
  refine ⟨rfl, rfl, rfl, ?_⟩
  decide +kernel
theorem premises_admission_fits : let l := launchOf 0 1 1; (fresh (withLaunch l)).qFits l = true := by decide +kernel
theorem premises_placement : let l := launchOf 1 2 2; let s := withLaunch l
    s.launch? l.id = some l ∧ l.cls ≠ 0 ∧ l.gsize = 1 ∧ (fresh s).nextBlock l = some 0 ∧ (fresh s).gangWaiting = false ∧ (s.ctxSt l.ctx).stopped = false ∧
    (fresh s).firstInOrder l = true ∧ (∀ q ∈ s.blocks, q.launch = l.id → q.blockId ≠ 0) ∧ (fresh s).vcoreOk l.ctx 159 159 = true ∧ (fresh s).spanOk l [159] = true ∧
    [3].length = l.crews ∧
    ((fresh s).room 159 l (some [3])).isSome = true := by
  refine ⟨rfl, ?_⟩
  decide +kernel
/-- A crew that has ended and one that has not; a block whose crew has retired, its launch with a block left and without. -/
def ended (c : Crew) : Crew := { c with a := PcSlot.empty }
theorem premises_retire : (ready ended).crew? 1 = some (me ended) ∧ (let c := settle (ready ended) (me ended)
      c.retired = false ∧ c.a.st = .free ∧ c.b.st = .free ∧ c.depth = 0 ∧ c.stall = none ∧ c.unwinding = none ∧ ∀ k, k < 4 → c.count k = 0) ∧
    (settle ready me).a.st ≠ .free := by
  refine ⟨rfl, ?_⟩
  decide +kernel
theorem premises_block_retire : ∀ n ∈ [1, 2], let l := launchOf 1 n 2 none [0]; let g := fun c : Crew => { ended c with retired := true }; let s := withLaunch l [Block.start 1 1 1] [me g]
    s.block? 1 = some (Block.start 1 1 1) ∧ s.launch? 1 = some l ∧ (∀ k ∈ s.launches, k.id = 1 → k = l) ∧ (∀ c ∈ s.crews, c.blk = 1 → c.retired = true) ∧
    bitOf (l.w 24) 31 = false ∧ bitOf (l.w 26) 31 = false ∧ l.writes = [] ∧ l.hold = none ∧ l.st = 2 ∧ (l.retired + 1 < l.nblocks ↔ n = 2) ∧ (l.retired + 1 = l.nblocks ↔ n = 1) ∧
    (∃ c ∈ (withLaunch l [Block.start 1 1 1] [me]).crews, c.blk = 1 ∧ c.retired = false) := by
  intro n hn
  refine ⟨rfl, rfl, ?_, ?_, ?_⟩
  · intro k hk _; exact List.mem_singleton.mp hk
  · intro c hc _; rw [List.mem_singleton.mp hc]; rfl
  · refine ⟨?_, ?_, rfl, rfl, rfl, ?_, ?_, me, List.mem_singleton.mpr rfl, rfl, rfl⟩ <;> revert n <;> decide +kernel
/-- A block of class B that moves to core 1; a block demoted past the spin threshold beside one that waits. -/
theorem premises_migration : let l := launchOf 1 2 2 none [0]; let s := withLaunch l [{ Block.start 1 1 1 with cls := 1 }] [me]; let b := { Block.start 1 1 1 with cls := 1 }
    s.block? 1 = some b ∧ s.launch? 1 = some l ∧ s.bmem.wf = true ∧ l.cls ≠ 0 ∧ (fresh s).movable b = true ∧ (∀ n, n < 64 → b.units.getLsbD n = true → (fresh s).unitFree 1 n = true) ∧
    (fresh s).gangWaiting = false ∧ (∀ q ∈ s.blocks, q.id ≠ b.id → q.ctx = b.ctx → q.vcore = b.vcore → q.place = 0 → q.core = 1) ∧
    ((fresh s).room 1 { l with record := l.record.take 36 ++ List.replicate 4 0#8 ++ l.record.drop 40 } (some [0])).isSome = true ∧
    (s.crewsOf b.id).length ≤ l.crews ∧ s.crew? 1 = some me ∧ (me).blk = b.id ∧ (me).retired = false ∧ (me).unwinding = none ∧ (me).cont = false ∧ (me).a.st = .running := by
  refine ⟨rfl, rfl, ?_⟩
  decide +kernel
def demoted (c : Crew) : Crew := { c with demote := 1, demotedFrom := some 0 }
theorem premises_spin : let l := launchOf 1 2 2 none [0]; let s := { withLaunch l [{ Block.start 1 1 1 with cls := 1 }] [me demoted] with cycle := 4096 }
    s.block? 1 = some { Block.start 1 1 1 with cls := 1 } ∧ s.launch? 1 = some l ∧ l.gsize = 1 ∧ (fresh s).leavable 1 = true ∧ (fresh s).spinning l = true ∧
    (∀ q ∈ s.blocks, q.launch = l.id → q.place = 0 → (fresh s).demotedSince 1 ≤ (fresh s).demotedSince q.id) ∧
    (fresh s).firstReady l l.nblocks 0 = some 1 ∧ (((fresh s).leaveCore 1 1).placeBlock l 1 0 5 [0]).isSome = true := by
  refine ⟨rfl, rfl, ?_⟩
  decide +kernel
/-- A block waits switched out; none is left but one whose dependence on block 1, which is not done, is not met. -/
theorem premises_spin_back : let l := launchOf 1 2 2 none [0, 1]; let q := { Block.start 2 1 1 with cls := 1, blockId := 1, place := 1, vcore := 5 }
    let s := { withLaunch l [{ Block.start 1 1 1 with cls := 1 }, q] [me demoted] with cycle := 4096 }
    (fresh s).spinning l = true ∧ (fresh s).firstReady l l.nblocks 0 = none ∧ (fresh s).switchedOut l = [q] ∧ (((fresh s).leaveCore 1 1).placeBlock l 1 0 5 [0]).isSome = true := by
  decide +kernel
theorem premises_spin_waits : let l := { launchOf 1 2 2 none [0] with record := (((launchOf 1 2 2).record.set 67 0x80#8).set 84 1#8).set 88 8#8 }
    let s := { withLaunch l [{ Block.start 1 1 1 with cls := 1 }] [me demoted] with cycle := 4096 }
    (fresh s).spinning l = true ∧ (fresh s).firstReady l l.nblocks 0 = none ∧ (fresh s).switchedOut l = [] := by
  decide +kernel

/-- A context that runs, is stopped with its block on a core, and is stopped with its block saved. -/
def stopped (place : Nat) (h : State → State := id) : State :=
  h { withLaunch (launchOf 1 1 6 none [0]) [{ Block.start 1 1 1 with cls := 1, place := place }] [me] with ctxs := [{ (ready).ctxSt 1 with stopped := true }] }
theorem premises_preempt : let s := ready id (context true)
    ((fresh s).ctxDesc 1).valid = true ∧ (s.ctxSt 1).dead = false ∧ (s.ctxSt 1).stopped = false ∧ ((fresh ready).ctxDesc 1).valid = false := by decide +kernel
theorem premises_image : let s := stopped 0; let b := { Block.start 1 1 1 with cls := 1, place := 0 }
    s.block? 1 = some b ∧ b.ctx = 1 ∧ b.place = 0 ∧ (s.ctxSt 1).stopped = true ∧ BlocksDistinct s ∧
    s.blocks.filter (fun q => q.ctx == 1 && q.vcore == b.vcore && (q.place == 0 || q.place == 2)) = [b] ∧ s.ops = [] ∧ (fresh s).areaWaits 1 = false :=
  ⟨rfl, rfl, rfl, by decide +kernel, by unfold BlocksDistinct; decide +kernel, by decide +kernel, rfl, by decide +kernel⟩
theorem premises_restore : let s := stopped 1
    (s.ctxSt 1).stopped = true ∧ s.mgmt.ps = 0#2 ∧ (∀ b ∈ s.blocks, b.ctx = 1 → b.place ≠ 0 ∧ b.place ≠ 2) ∧
    (let plan := restorePlan [(0, 7)] (s.blocks.filter (fun b => b.ctx == 1 && b.place == 1)) [0]
      let back := (fresh s).release.loadTasks 1
      let u := back.setCtxSt { back.ctxSt 1 with stopped := false }
      (∀ l ∈ s.launches, l.cls ≠ 0) ∧ (State.restoreAll plan (s.launches.foldl (fun v l => v.readmit l false) u)).isSome = true) := by
  decide +kernel
/-- A saved Q launch comes back to an empty core; another block holds all the block memory of the core. -/
theorem premises_restore_gang : let l := launchOf 0 1 6 none [0]; let s := { stopped 1 with launches := [l] }
    let t := { s with blocks := s.blocks ++ [{ Block.start 2 2 1 with core := 7, bmLen := 0xE0000 }] }
    let u := fun (s : State) => let back := (fresh s).release.loadTasks 1; back.setCtxSt { back.ctxSt 1 with stopped := false }
    let plan := fun (s : State) => restorePlan [(0, 7)] (s.blocks.filter (fun b => b.ctx == 1 && b.place == 1)) [0]
    s.launches.filter (fun l => l.ctx == 1 && l.st == 6) = [l] ∧ l.cls = 0 ∧ (∀ b ∈ s.blocks, b.launch = l.id) ∧ ((u s).restoreGang l (plan s)).isSome = true ∧
    (u t).restoreGang l (plan t) = none ∧ (∀ p ∈ plan t, (t.core p.2.1).lending = false) ∧ (plan t).length = 1 ∧ BlocksDistinct t := by
  unfold BlocksDistinct
  decide +kernel

/-- A core that lends, its owner's demand, revocation under way; a parked harvest block. -/
def harvest (lending : Bool) (revoke interf : Nat) (place : Nat) : State :=
  let s := withLaunch (launchOf 2 1 2 none [0]) [{ Block.start 1 1 1 with cls := 2, harv := true, place := place }] [me (fun c => { c with flights := [flying] })]
  { s with cores := s.cores.map (fun (k : CoreSt) => { k with lending := lending, revoke := revoke, interf := interf }) }
theorem premises_harvest : let s := harvest true 0 63 0; let t := harvest true 1 0 0
    0 < s.cores.length ∧ (s.core 0).lending = true ∧ (s.core 0).interf = 63 ∧
    (t.core 0).revoke = 1 ∧ t.ops = [] ∧ ((harvest true 2 0 2).core 0).revoke = 2 ∧ ((harvest false 0 0 0).core 0).lending = false := by decide +kernel
/-- A Q crew on the lending core that only a pipe held by the harvest crew keeps from issuing. -/
theorem premises_harvest_blocked : let s := harvest true 0 63 0; let t := { s with
      blocks := { Block.start 4 1 1 with cls := 1 } :: s.blocks, crews := (let c := Crew.start 4 4 1 1 0x10000#64; { c with a := { c.a with line := targets } }) :: s.crews }
    let v := { t with cores := t.cores.map (fun (k : CoreSt) => { k with pipes := [{ quad := 0, pipe := .br, cyc := t.cycle, crew := 1, harvest := true }] }) }
    (v.crews.any (fun c => (v.onCore 0).any (fun b => b.id == c.blk && b.place == 0 && b.cls == 1) && v.hindered c)) = true ∧ BlocksDistinct v ∧ v.cores.length = 160 ∧
    (t.crews.any (fun c => (t.onCore 0).any (fun b => b.id == c.blk && b.place == 0 && b.cls == 1) && t.hindered c)) = false :=
  ⟨by decide +kernel, by unfold BlocksDistinct; decide +kernel, by decide +kernel, by decide +kernel⟩
theorem premises_parked : let s := harvest true 0 0 2; let b := { Block.start 1 1 1 with cls := 2, harv := true, place := 2 }
    s.block? 1 = some b ∧ b.core = 0 ∧ b.place = 2 ∧ s.launch? 1 = some (launchOf 2 1 2 none [0]) ∧ (launchOf 2 1 2 none [0]).st = 2 ∧ (s.ctxSt 1).stopped = false ∧
    (fresh s).vcoreOk 1 b.vcore 0 = true ∧ (fresh s).leavable 1 = true ∧ (fresh s).areaWaits 1 = false ∧ (fresh s).opsFit 1 0 = true :=
  ⟨rfl, rfl, rfl, rfl, rfl, by decide +kernel, by decide +kernel, by decide +kernel, by decide +kernel, by decide +kernel⟩
/-- A parked block keeps a copy that stands inside a unit; its context's image area lies on a stack that has still to train. -/
theorem premises_evict_waits : let s := { harvest true 0 0 2 with ops := [{ op 0 0x280 [17#32, 0x200#32, 17#32, 0#32, 4096#32] with pos := 100, checked := true, at4k := false }], crews := [me] }
    (fresh s).leavable 1 = false ∧
    (let h := harvest true 0 0 2; let t := ready id (context true)
      let u := fresh { t with blocks := h.blocks, mgmt := { t.mgmt with stage := 2, stackup := 1#8 }, asids := [(1, 0x1000000000)] };
      u.leavable 1 = true ∧ u.areaWaits 1 = true) := by
  decide +kernel

/-- A parked block of one crew and 1 KiB beside an owner that lends 64 KiB: there is room for it again. -/
def resumable : State :=
  let s := harvest true 0 0 2
  let l := { launchOf 2 1 2 none [0] with record := (List.range 32).flatMap (fun i => leBytes 4 (([0x10042, 0, 0x107FF, 0, 1, 1, 1, 0x300, 1, 0, 2] : List Nat).getD i 0)) }
  { s with
    launches := [l, { launched 1 with id := 2, record := List.replicate 34 0#8 ++ [64#8] ++ List.replicate 93 0#8 }], blocks := s.blocks ++ [{ Block.start 2 1 1 with launch := 2 }] }
theorem premises_resume : let s := resumable; (s.ctxSt 1).stopped = false ∧ BlocksDistinct s ∧ (fresh s).vcoreOk 1 1 0 = true ∧ (s.launch? 1).any (fun l => l.st == 2 &&
    (({ fresh s with blocks := s.blocks.map (fun (q : Block) => if q.id = 1 then { q with place := 1 } else q) }).room 0 l (some [0])).isSome) = true := by
  unfold BlocksDistinct
  decide +kernel

/-- Barrier 15 counted to its limit of 1024 cycles, and one cycle short; a gate budget run out, and not. -/
def counted (n : Nat) : State := { ready id memory with blocks := [{ Block.start 1 1 1 with umpt := 1#32, ump := (List.replicate 16 0).set 15 n }] }
theorem premises_umpire : (counted 1024).block? 1 = some { Block.start 1 1 1 with umpt := 1#32, ump := (List.replicate 16 0).set 15 1024 } ∧
    ((List.replicate 16 0).set 15 1023).getD 15 0 < (1#32).toNat * 1024 ∧ (1#32).toNat * 1024 ≤ ((List.replicate 16 0).set 15 1024).getD 15 0 ∧
    (∀ h ∈ (counted 1024).held, h.kind = 4 → h.ctx ≠ 1) ∧ ((counted 1024).ctxSt 1).dead = false := by
  refine ⟨rfl, ?_⟩
  decide +kernel
/-- A barrier of a cluster of two blocks counted to its limit, in the record of its first block and in that of the other. -/
theorem premises_umpire_cluster : let b := { Block.start 1 1 1 with umpt := 1#32, cump := (List.replicate 16 0).set 3 1024, gsize := 2 }; let q := { b with id := 2, blockId := 1, rank := 1 }
    let s := { ready id memory with blocks := [b, q] }
    s.block? 1 = some b ∧ s.block? 2 = some q ∧ b.place = 0 ∧ b.cbarLimit ≠ 0#32 ∧ b.cbarLimit.toNat * 1024 ≤ b.cump.getD 3 0 ∧ (s.groupLead b).id = b.id ∧ (s.groupLead q).id ≠ q.id := by
  decide +kernel
theorem premises_budget : ∀ b ∈ [0, 1], let g := fun c : Crew => { called c with budget := some b }
    (ready g).crew? 1 = some (me g) ∧ 1 ≤ (me g).gates.length ∧ (me g).unwinding = none ∧ levelBudget (me g) 1 = some b := by
  intro b hb g
  exact ⟨rfl, Nat.le_refl 1, rfl, rfl⟩

/-! ## Packets -/

/-- Package 0 of a row of four; port 0 (to package 1) up with a key. -/
def fabric (s : State) : State :=
  { s with fabcfg := 0x00030001#32, ports := s.ports.set 0 { Port.reset with st := 2, peer := 1, txst := 1, rxst := 1, nkey := 1 } }
/-- A header from package `src` to this one. -/
def header (src kind tag : Nat) : Hd := { Hd.mk0 (ready id fabric) 0 kind 1 tag with src := src, rhnd := 17 }
theorem premises_header : Fits { header 0 0 7 with ents := [0x4000, 0x6000], nent := 2, off := 0xFFFFFFFF, rhnd := 2047 } ∧ Fits (header 0 0 7) := by
  unfold Fits
  decide +kernel
/-- A packet with a header, data and the handle table of the issuing crew. -/
def packet (h : Hd) (data : List Byte) : Packet := { Packet.mk0 h data with ht := 0x107FF#64, span := 8, len := 8 }
/-- The package in service whose context 1 is valid, with packets delivered to port 32. -/
def landed (ps : List Packet) (h : State → State := id) : State :=
  { ready id (fun s => h (fabric (context true s))) with landing := ps.map (fun p => { port := 32, pkt := p, around := none }) }
/-- The state in which the first of them is acted on. -/
def atLanding (s : State) : State := State.useContext { fresh s with landing := s.landing.eraseIdx 0 } 1
theorem lands_of {s : State} {kind : Nat} {p : Packet} (h0 : s.landing = [{ port := 32, pkt := p, around := none }]) (h1 : (p.hd.kind == kind && p.hd.ctx == 1) = true)
    (h2 : ((atLanding s).admitted 1 p.hd.src && (p.hd.group == 0 || !(atLanding s).grpFor p.hd.group 1 || (p.hd.seq + 65536 - ((atLanding s).grp p.hd.group).seq) % 65536 == 0)) = true) :
    Lands s 0 kind { port := 32, pkt := p, around := none } (atLanding s) := by
  simp only [Bool.and_eq_true, Bool.or_eq_true, Bool.not_eq_true', beq_iff_eq] at h1 h2
  have e : (atLanding s) = State.useContext { fresh s with landing := s.landing.eraseIdx 0 } p.hd.ctx := by rw [h1.2]; rfl
  refine ⟨by rw [h0]; rfl, h1.1, ?_, e, ?_, ?_⟩
  · intro x hx; simp at hx
  · simp only [h1.2]; exact h2.1
  · simp only [h1.2]; rcases h2.2 with (h | h) | h
    · exact .inl h
    · exact .inr (.inl h)
    · exact .inr (.inr h)

/-- A packet to be forwarded along the row, to be delivered, malformed, and behind one of its port. -/
def forwarded (es : List Nat) (hops : Nat) : PortPkt := { port := 0, around := none, pkt := Packet.mk0 { header 1 0 7 with ents := es, nent := es.length, hops := hops } [] }
def passing (qs : List PortPkt) : State := { ready id fabric with inq := qs }
theorem premises_forward :
    (let q := forwarded [0x4000] 1; (passing [q]).inq[0]? = some q ∧ q.pkt.hd.ents = [0x4000] ∧ q.pkt.hd.dst = (passing [q]).own ∧ q.pkt.hd.nent ≠ 7 ∧ q.pkt.hd.ndata ≤ 8 ∧ q.pkt.hd.kind ≠ 15) ∧
    (let q := forwarded [0x0100, 0x4000] 1; let s := passing [q]; q.pkt.hd.ents = [0x0100, 0x4000] ∧ 0x0100 / 8192 ≤ 1 ∧ q.pkt.hd.hops < 3 ∧
      (s.port (s.portTo (s.own / 16 * 16 + bitsOf 0x0100 11 8))).st = 2 ∧ (s.port (s.portTo (s.own / 16 * 16 + bitsOf 0x0100 11 8))).txst ≠ 3) ∧
    (let q := forwarded [0x0100] 3; q.pkt.hd.ents = [0x0100] ∧ q.pkt.hd.hops = 3) ∧
    (let q := forwarded [0x0100] 1; let s := passing [q, q]; s.inq[1]? = some q ∧ ∃ x ∈ s.inq.take 1, x.port = q.port ∧ x.pkt.hd.ch = q.pkt.hd.ch ∧ x.pkt.hd.hops = q.pkt.hd.hops) := by decide +kernel
/-- A packet that comes in on another die than it leaves from: the bridge has room for its flit, and is full. -/
theorem premises_forward_bridge : ∀ full ∈ [false, true],
    let q := { forwarded [0x0100, 0x4000] 1 with port := 8 }; let s := { passing [q] with outq := if full then List.replicate 16 { forwarded [0x4000] 2 with buf := some 33 } else [] }
    let next := s.own / 16 * 16 + bitsOf 0x0100 11 8
    s.inq[0]? = some q ∧ (s.port (s.portTo next)).st = 2 ∧ (s.port (s.portTo next)).txst ≠ 3 ∧ q.port / 8 ≠ s.portTo next / 8 ∧
    (s.bridged (q.port / 8) (s.portTo next / 8) q.pkt.hd.ch (q.pkt.hd.hops + 1) + 1 + q.pkt.hd.ndata ≤ 16 ↔ full = false) := by decide +kernel
theorem premises_answer : let h := header 0 0 7; Fits h ∧ h.src = (ready id fabric).own ∧ ([1#8] : List Byte).length ≤ 256 := by
  unfold Fits
  decide +kernel

/-- A WRITE of 32 bytes to the block memory of block 0 that counts arrivals; one to a block that is not here; one of a group that is not this context's; one to HBM. -/
def writePkt (h : Hd) : Packet := { packet { h with arr := true, ctr := 5 } (List.replicate 32 5#8) with span := 32, len := 32 }
theorem premises_write : let p := writePkt (header 0 0 7); let s := landed [p]; let m := (atLanding s)
    Lands s 0 0 { port := 32, pkt := p, around := none } m ∧ p.hd.group = 0 ∧ p.harvest = false ∧ (m.remoteEntry 1 p.ht 17).space = 2 ∧
    (match m.landBlock 1 p.blockId with
      | some b => m.remoteCheck 1 (some b) (m.remoteEntry 1 p.ht 17) true p.hd.arr p.spanOff p.span == 0
      | none => false) = true ∧ s.bmem.wf = true ∧ p.data.length ≤ 256 ∧ p.data.length % 32 = 0 ∧ p.hd.off % 32 = 0 ∧ (m.remoteEntry 1 p.ht 17).base = 0 := by
  refine ⟨lands_of rfl (by decide +kernel) (by decide +kernel), ?_⟩
  decide +kernel
theorem premises_write_refused :
    (let p := { writePkt (header 0 0 7) with blockId := 9 }; let s := landed [p]; let m := (atLanding s)
      Lands s 0 0 { port := 32, pkt := p, around := none } m ∧ m.landBlock 1 p.blockId = none ∧ m.remoteCheck 1 none (m.remoteEntry 1 p.ht 17) true p.hd.arr p.spanOff p.span ≠ 0) ∧
    (let p := writePkt { header 0 0 7 with group := 3 }; let s := landed [p]; let m := (atLanding s)
      Lands s 0 0 { port := 32, pkt := p, around := none } m ∧ p.hd.group ≠ 0 ∧ m.grpFor p.hd.group 1 = false) ∧
    (let p := { writePkt (header 0 0 7) with harvest := true }; let s := landed [p]; let m := (atLanding s)
      Lands s 0 0 { port := 32, pkt := p, around := none } m ∧ p.harvest = true ∧ (m.remoteEntry 1 p.ht 17).space = 2) := by
  refine ⟨⟨lands_of rfl (by decide +kernel) (by decide +kernel), ?_⟩, ⟨lands_of rfl (by decide +kernel) (by decide +kernel), ?_⟩,
    lands_of rfl (by decide +kernel) (by decide +kernel), ?_⟩ <;> decide +kernel
def isLanded (l : Landed) : Bool := match l with
  | .ok _ => true
  | _ => false
theorem premises_write_hbm : let p := packet { header 0 0 7 with rhnd := 16 } [1#8]; let s := landed [p]; let m := (atLanding s); let e := m.remoteEntry 1 p.ht 16
    Lands s 0 0 { port := 32, pkt := p, around := none } m ∧ e.space ≠ 2 ∧ m.remoteCheck 1 none e true p.hd.arr p.spanOff p.span = 0 ∧
    (let w := sectorPieces [p.hd.src, p.hd.tag] e.base p.spanOff (p.spanOff + p.span) p.hd.off m.frags p.bytes;
      isLanded (State.landPieces 0 1 none e w.2 { m with frags := w.1 }) = true) := by
  refine ⟨lands_of rfl (by decide +kernel) (by decide +kernel), ?_⟩
  decide +kernel
def isRead (e : Eng (State × List (Byte × Bool))) (P : State → Bool := fun _ => true) : Bool := match e with
  | .ok (v, bs) => bs.all (fun x => !x.2) && P v
  | _ => false
theorem premises_read : ∀ r ∈ [16, 17], let p := { packet { header 0 1 7 with rhnd := r } [] with span := 32, len := 32 }; let s := landed [p]; let m := (atLanding s); let e := m.remoteEntry 1 p.ht r
    let b := if e.space = 2 then m.landBlock 1 p.blockId else none
    Lands s 0 1 { port := 32, pkt := p, around := none } m ∧ (e.space = 2 ↔ r = 17) ∧ (b.isSome = true ↔ r = 17) ∧ m.remoteCheck 1 b e false false p.spanOff p.span = 0 ∧ p.len ≤ 256 ∧
    (r = 17 → e.base = 0 ∧ p.hd.off % 32 = 0 ∧ p.len % 32 = 0 ∧ p.hd.off + p.len ≤ p.spanOff + p.span ∧ s.ahead = []) ∧
    (r = 16 → isRead (m.landPiece (landDie 32) none e p.hd p) = true) := by
  intro r hr
  refine ⟨lands_of rfl ?_ ?_, ?_⟩ <;> revert r <;> decide +kernel
theorem premises_read_refused : let p := { packet (header 0 1 7) [] with spanOff := 2000 }; let s := landed [p]; let m := (atLanding s)
    Lands s 0 1 { port := 32, pkt := p, around := none } m ∧ m.remoteCheck 1 (m.landBlock 1 0) (m.remoteEntry 1 p.ht 17) false false p.spanOff p.span ≠ 0 := by
  refine ⟨lands_of rfl (by decide +kernel) (by decide +kernel), ?_⟩
  decide +kernel
/-- An ATOMIC to block memory: good for each operation, without permission, to an absent block, out of bounds. -/
theorem premises_atomic : ∀ aop ∈ [0, 1, 2, 3, 4, 5, 6], let p := packet { header 0 3 7 with aop := aop } [1#8, 0#8, 0#8, 0#8]; let s := landed [p]; let m := atLanding s
    let e := m.remoteEntry 1 p.ht 17
    Lands s 0 3 { port := 32, pkt := p, around := none } m ∧ e.valid = true ∧ e.space ∈ atomSpaces ∧ e.r = true ∧ e.w = true ∧ e.atom = true ∧ p.harvest = false ∧ (m.landBlock 1 p.blockId).isSome = true ∧
    (match m.landBlock 1 p.blockId with
      | some b => decide (p.hd.off + 4 ≤ b.bmLen) && (match m.remotePlace 1 (some b) e p.hd.off true true with
        | .ok l => m.locReady (dieOfCore b.core) l == .yes && !m.locPoison (dieOfCore b.core) l.home 4
        | .error _ => false)
      | none => false) = true := by
  intro aop ha
  refine ⟨lands_of rfl ?_ ?_, ?_⟩ <;> revert aop <;> decide +kernel
theorem premises_atomic_refused :
    (let p := packet { header 0 3 7 with rhnd := 40 } [1#8]; let s := landed [p]; Lands s 0 3 { port := 32, pkt := p, around := none } (atLanding s) ∧ ((atLanding s).remoteEntry 1 p.ht 40).valid = false) ∧
    (let p := { packet (header 0 3 7) [1#8] with blockId := 9 }; let s := landed [p]; Lands s 0 3 { port := 32, pkt := p, around := none } (atLanding s) ∧
      (atLanding s).landBlock 1 p.blockId = none ∧ ((atLanding s).remoteEntry 1 p.ht 17).atom = true) ∧
    (let p := packet { header 0 3 7 with off := 0x100000 } [1#8]; let s := landed [p]; Lands s 0 3 { port := 32, pkt := p, around := none } (atLanding s) ∧
      (match (atLanding s).landBlock 1 p.blockId with
        | some b => decide (b.bmLen < p.hd.off + 4)
        | none => false) = true) := by
  refine ⟨⟨lands_of rfl ?_ ?_, ?_⟩, ⟨lands_of rfl ?_ ?_, ?_⟩, lands_of rfl ?_ ?_, ?_⟩ <;> decide +kernel

/-- A fabric operation with TAG 2. -/
def fab (opc : Nat) : Op := { op 3 opc [16#32, 0#32, 0#32, 0#32, 0#32, 0#32] with id := 2 }
/-- The responses to it: with an error, with bytes of an fget, the last acknowledgement, of no operation, and for a chunk. -/
theorem premises_response : ∀ c ∈ ([(0x2C0, 9, 3, 9, 8), (0x2C1, 2, 0, 0, 8), (0x2C0, 2, 0, 9, 8), (0x2C0, 7, 0, 0, 8), (0x2C0, 2, 0, 0, 10), (0x2C0, 2, 0, 0, 11)] : List (Nat × Nat × Nat × Nat × Nat)),
    let p := { packet { header 0 2 (if c.2.1 = 7 then 7 else 2) with stat := c.2.2.1 } [1#8] with len := c.2.2.2.2 }
    let s := landed [p] (fun s => { s with ops := [{ fab c.1 with phase := c.2.2.2.1 }] })
    Lands s 0 2 { port := 32, pkt := p, around := none } (atLanding s) ∧ p.hd.stat = c.2.2.1 ∧ p.bad = [] ∧
    (atLanding s).fabOp p.hd.tag = if c.2.1 = 7 then none else some { fab c.1 with phase := c.2.2.2.1 } := by
  intro c hc
  refine ⟨lands_of rfl ?_ ?_, ?_⟩ <;> revert c <;> decide +kernel

/-- One of two copies of a marker; the last; its acknowledgement, good and bad. -/
theorem premises_markers :
    (∀ n ∈ [1, 2], let p := packet { header 1 4 7 with off := n } []; let s := landed [p]; Lands s 0 4 { port := 32, pkt := p, around := none } (atLanding s) ∧ s.marks = [] ∧ p.hd.off = n) ∧
    ∀ st ∈ [0, 3], let p := packet { header 1 5 2 with stat := st } []; let s := landed [p] (fun s => { s with ops := [fab 0x2C3] })
      Lands s 0 5 { port := 32, pkt := p, around := none } (atLanding s) ∧ (atLanding s).fabOp p.hd.tag = some (fab 0x2C3) ∧ p.hd.stat = st := by
  refine ⟨?_, ?_⟩
  · intro n hn
    refine ⟨lands_of rfl ?_ ?_, ?_⟩ <;> revert n <;> decide +kernel
  · intro n hn
    refine ⟨lands_of rfl ?_ ?_, ?_⟩ <;> revert n <;> decide +kernel

/-- Group 3 of packages 0 and 1 in context 1, at SEQ 5. -/
def grouped (root : Nat) (s : State) : State :=
  { s with groups := s.groups.set 3 { v := true, rhnd := 17, root := root, nm1 := 1, ctx := 1, seq := 5, memb := 3#256, rsv := 0#16 } }
def groupHd (src kind tag : Nat) : Hd := { header src kind tag with group := 3, seq := 5 }
theorem premises_probe : ∀ n ∈ [8, 5000], let p := { packet (groupHd 1 6 2) [] with len := n }; let s := landed [p] (grouped 0); let m := atLanding s
    Lands s 0 6 { port := 32, pkt := p, around := none } m ∧ m.grpFor 3 1 = true ∧ m.grpState 3 = 0 ∧ (m.grp 3).seq = p.hd.seq ∧
    (m.remoteCheck 1 (m.landBlock 1 p.blockId) (m.remoteEntry 1 p.ht 17) (p.hd.rop == 15) p.hd.arr p.hd.off p.len = 0 ↔ n = 8) := by
  intro n hn
  refine ⟨lands_of rfl ?_ ?_, ?_⟩ <;> revert n <;> decide +kernel
theorem premises_probe_answer : let p := packet (groupHd 1 7 2) []; let o := { fab 0x2C4 with phase := 1, probes := [1] }
    let s := landed [p] (fun s => { grouped 0 s with ops := [o] })
    Lands s 0 7 { port := 32, pkt := p, around := none } (atLanding s) ∧ (atLanding s).fabOp p.hd.tag = some o ∧ o.phase = 1 := by
  refine ⟨lands_of rfl (by decide +kernel) (by decide +kernel), ?_⟩
  decide +kernel
/-- A partial at the last rank, and at the first with the port up; one that finds the 16 reduction buffers of the slice taken. -/
def partial_ : Packet := { packet { groupHd 1 8 2 with rop := 0 } [0#8, 0#8, 128#8, 63#8] with len := 4 }
theorem premises_reduce : ∀ root ∈ [1, 0], let s := landed [partial_] (grouped root); let m := atLanding s; let g := m.grp 3
    Lands s 0 8 { port := 32, pkt := partial_, around := none } m ∧ g.ctx = 1 ∧ g.seq = partial_.hd.seq ∧ m.redUsed (landDie 32) < 16 ∧ (g.rankOf m.own = g.nm1 ↔ root = 1) ∧
    isRead (m.landPiece (((m.landBlock 1 0).map (fun k => dieOfCore k.core)).getD (landDie 32)) (m.landBlock 1 0) (m.remoteEntry 1 partial_.ht 17) partial_.hd partial_) (fun v =>
      if root = 1 then (v.sendPkt { Hd.mk0 v 1 9 1 2 with group := 3, seq := 5 } (Packet.mk0 { Hd.mk0 v 1 9 1 2 with group := 3, seq := 5 } partial_.data)).2
      else (v.sendVia { partial_.hd with dst := g.ranks.getD (g.rankOf v.own + 1) 0, hops := 0, nent := 0, ents := [] } partial_ entRed).2) = true := by
  intro n hn
  refine ⟨lands_of rfl ?_ ?_, ?_⟩ <;> revert n <;> decide +kernel
theorem premises_reduce_cut : let p := { packet { groupHd 1 8 2 with rop := 8 } [] with len := 160, span := 160 }; let s := landed [p] (grouped 0); let m := atLanding s; let g := m.grp 3
    Lands s 0 8 { port := 32, pkt := p, around := none } m ∧ g.rankOf m.own ≠ g.nm1 ∧
    (match m.landPiece (((m.landBlock 1 0).map (fun k => dieOfCore k.core)).getD (landDie 32)) (m.landBlock 1 0) (m.remoteEntry 1 p.ht 17) p.hd p with
      | .ok (v, bs) => bs.all (fun x => !x.2) && !(v.sendVia { p.hd with dst := g.ranks.getD (g.rankOf v.own + 1) 0, hops := 0, nent := 0, ents := [] }
          { p with data := redWiden 8 (bs.map (fun x => x.1)) } entRed).2
      | _ => false) = true := by
  refine ⟨lands_of rfl (by decide +kernel) (by decide +kernel), ?_⟩
  decide +kernel
theorem premises_reduce_full : let s := { landed [partial_] (grouped 0) with outq := List.replicate 16 { forwarded [0x0100] 1 with red := some (landDie 32) } }; let m := atLanding s
    Lands s 0 8 { port := 32, pkt := partial_, around := none } m ∧ partial_.hd.group ≠ 0 ∧ (m.grp 3).ctx = 1 ∧ (m.grp 3).seq = partial_.hd.seq ∧ 16 ≤ m.redUsed (landDie 32) := by
  refine ⟨lands_of rfl (by decide +kernel) (by decide +kernel), ?_⟩
  decide +kernel
theorem premises_result : ∀ st ∈ [0, 4], let p := packet { groupHd 1 9 2 with stat := st } [0#8, 0#8, 128#8, 63#8]; let o := { fab 0x2C4 with phase := 2 }
    let s := landed [p] (fun s => { grouped 0 s with ops := [o] })
    Lands s 0 9 { port := 32, pkt := p, around := none } (atLanding s) ∧ (atLanding s).fabOp p.hd.tag = some o ∧ p.hd.stat = st := by
  intro n hn
  refine ⟨lands_of rfl ?_ ?_, ?_⟩ <;> revert n <;> decide +kernel
/-- The cox of port 0 with a slot of context 1 for group 3 at SEQ 5, slot 0 changed by g; the program region of context 1. -/
def withCox (g : CoxSlot → CoxSlot := id) (s : State) : State :=
  let s := grouped 0 s
  { s with coxes := s.coxes.set 0 { CoxSt.reset with
      regions := CoxSt.reset.regions.set 0 0x800000010FFF0000#64, cur := 0, slots := CoxSt.reset.slots.set 0 (g { cslot with group := 3, seq := 5 }) } }
/-- A CHUNK for the window of tag 9 and one for no window. -/
def chunkPkt9 (tag : Nat) : Packet := { packet { groupHd 1 10 tag with off := 8 * 2 ^ 24 } (List.replicate 256 7#8) with spanOff := 8, span := 3 }
theorem premises_chunk_lands : let p := chunkPkt9 9; let s := landed [p] (withCox (win 0)); let m := { fresh s with landing := s.landing.eraseIdx 0 }; let sl := m.coxSlot 0 0
    p.hd.kind = 10 ∧ m.admitted 1 1 = true ∧ m.grpFor 3 1 = true ∧ (p.hd.seq + 65536 - (m.grp 3).seq) % 65536 = 0 ∧ p.blockId % 32 = 0 ∧
    sl.st ≠ 0 ∧ sl.ctx = 1 ∧ sl.group = 3 ∧ sl.seq = 5 ∧ (sl.wins.map (fun w => w.tag)) = [9] ∧ (sl.win 9).fva = none ∧ bitsOf p.hd.off 28 24 = (sl.buf (sl.win 9).buf).lch ∧
    isOk (m.coxLand 0 0 p) = true ∧ 0 < m.coxes.length ∧ 0 < (m.coxes.getD 0 CoxSt.reset).slots.length := by decide +kernel
theorem premises_chunk_refused : let p := chunkPkt9 10; let s := landed [p] (withCox (win 0)); let m := { fresh s with landing := s.landing.eraseIdx 0 }
    p.hd.kind = 10 ∧ m.admitted 1 1 = true ∧ m.grpFor 3 1 = true ∧ (p.hd.seq + 65536 - (m.grp 3).seq) % 65536 = 0 ∧
    (List.range 8).all (fun k => (m.coxSlot 0 k).wins.all (fun w => w.tag != p.hd.tag % 256)) = true := by decide +kernel
/-- A send with packet 0 outstanding, in a waiting slot. -/
def sending (c : CoxSlot) : CoxSlot := { c with st := 3, why := 1, send := some { newSend cready cready cslot 4 2 0x103 9 with left := [0], id := 3 } }
theorem premises_refuse : ∀ st ∈ [0, 3, 9, 12], let p := { packet { groupHd 1 14 9 with stat := st } [] with span := 3 }; let s := landed [p] (withCox sending)
    let m := { fresh s with landing := s.landing.eraseIdx 0 }
    p.hd.kind = 14 ∧ p.was ≠ 8 ∧ m.admitted 1 1 = true ∧ p.hd.stat = st ∧ p.blockId / 8 = 0 ∧ p.hd.off % 2 ^ 20 / 256 = 0 ∧ ((m.coxSlot 0 0).send.any (fun sd => sd.id == p.span && sd.left.contains 0)) = true := by decide +kernel
/-- A REDUCE that a member refused. -/
theorem premises_refuse_reduce : let p := { packet (groupHd 1 14 2) [] with was := 8 }; let s := landed [p] (grouped 0); let m := { fresh s with landing := s.landing.eraseIdx 0 }
    s.landing[0]? = some { port := 32, pkt := p, around := none } ∧ p.hd.kind = 14 ∧ p.was = 8 ∧ m.admitted 1 1 = true ∧ m.redUsed (landDie 32) < 16 :=
  ⟨rfl, by decide +kernel, rfl, by decide +kernel, by decide +kernel⟩
/-- A START for port 0 at word 5. -/
def startPkt : Packet := packet (groupHd 1 11 2) ([5#8, 128#8] ++ List.replicate 158 0#8)
theorem premises_start : let s := landed [startPkt] (withCox (fun _ => CoxSlot.free)); let m := atLanding s
    Lands s 0 11 { port := 32, pkt := startPkt, around := none } m ∧ startPorts startPkt = [(0, 0x8005)] ∧ m.grpFor 3 1 = true ∧ m.ctxHere 1 = true ∧
    m.startRegion 0 1 5 = some 0 ∧ (m.cox 0).starts = [] ∧ (m.coxSlot 0 0).st = 0 ∧ 0 < m.coxes.length ∧ 0 < (m.coxes.getD 0 CoxSt.reset).slots.length := by
  refine ⟨lands_of rfl (by decide +kernel) (by decide +kernel), ?_⟩
  decide +kernel
/-- One behind another that the port holds. -/
theorem premises_start_held : let held : HeldStart := { pkt := startPkt, entry := 5, since := 0 }
    let s := landed [startPkt] (fun s => (withCox (fun _ => CoxSlot.free) s).modCox 0 (fun (c : CoxSt) => { c with starts := [held] })); let m := atLanding s
    Lands s 0 11 { port := 32, pkt := startPkt, around := none } m ∧ startPorts startPkt = [(0, 0x8005)] ∧ m.grpFor 3 1 = true ∧ m.ctxHere 1 = true ∧
    m.startRegion 0 1 5 = some 0 ∧ (m.cox 0).starts ≠ [] := by
  refine ⟨lands_of rfl (by decide +kernel) (by decide +kernel), ?_⟩
  decide +kernel

/-- An ABORT of the current SEQ and of another; its acknowledgement, which one member more still owes and which is the last. -/
theorem premises_abort : ∀ q ∈ [5, 6], let p := packet { groupHd 1 12 2 with seq := q } []; let s := landed [p] (grouped 0); let m := { fresh s with landing := s.landing.eraseIdx 0 }
    p.hd.kind = 12 ∧ m.admitted 1 1 = true ∧ p.hd.group ≠ 0 ∧ p.hd.group < s.groups.length ∧ (m.grp 3).v = true ∧ ((m.grp 3).seq = p.hd.seq ↔ q = 5) := by decide +kernel
theorem premises_abortack : ∀ w ∈ [[0, 1], [1]], let p := packet (groupHd 1 13 2) []; let a : AbortWait := { grp := 3, seq := 5, waiting := w, since := 0 }
    let s := landed [p] (fun s => { grouped 0 s with aborts := [a, { a with seq := 4 }] })
    p.hd.kind = 13 ∧ ({ fresh s with landing := s.landing.eraseIdx 0 } : State).admitted 1 p.hd.src = true ∧ a ∈ s.aborts ∧ a.grp = p.hd.group ∧ a.seq = p.hd.seq ∧ ((∃ n ∈ a.waiting, n ≠ p.hd.src) ↔ w = [0, 1]) ∧ ({ a with seq := 4 } ∈ s.aborts ∧ a.waiting ≠ []) := by decide +kernel
/-- A command whose responses are overdue, and one that still has time; a reduction, and another command. -/
def overdue (opc sentAt : Nat) : State := { landed [] with ops := [{ fab opc with sentAt := sentAt, waits := [(1, 0, 8)] }], clock := 0x400001#64 }
theorem premises_response_timeout : ∀ opc ∈ [0x2C0, 0x2C2, 0x2C4], let o := { fab opc with sentAt := 1, waits := [(1, 0, 8)] }
    (overdue opc 1).op? 2 = some o ∧ o.cls = 3 ∧ o.done = false ∧ o.waits ≠ [] ∧
    o.phase ≠ 1 ∧ 1 + (overdue opc 1).fabto.toNat ≤ (overdue opc 1).clock.toNat ∧ (fresh (overdue opc 1)).heldPort o = none ∧
    (overdue opc 2).clock.toNat < 2 + (overdue opc 2).fabto.toNat ∧ (fab opc).awaits = false ∧
    (let p := { o with phase := 1, probes := [1] }; p.probes ≠ [] ∧ (fresh (overdue opc 1)).heldPort p = none ∧ ({ overdue opc 1 with ops := [p] } : State).op? 2 = some p) := by decide +kernel
theorem premises_not_admitted : let s := landed [packet (groupHd 1 12 2) []] (fun s => { grouped 0 s with mpcs := [{ id := 3, ctx := 1, policy := [], key := [], members := 1#256, epoch := 4 }] })
    ({ fresh s with landing := s.landing.eraseIdx 0 } : State).admitted 1 1 = false := by decide +kernel

/-! ## Events of the coxes -/

/-- The slot of port 0 by its state: no cause for a wait; spinning; waiting with nothing sent, with everything accepted, for a window, for its descriptors. -/
def slotState (g : CoxSlot → CoxSlot) (h : State → State := id) : State := landed [] (fun s => h (withCox g s))
theorem premises_cox_spin : ∀ n ∈ [65535, 65536], let s := slotState (fun c => { c with spin := n }); HasSlot s 0 0 ∧ (s.cox 0).cur = 0 ∧ (s.coxSlot 0 0).st = 2 ∧
    (65536 ≤ (s.coxSlot 0 0).spin ↔ n = 65536) := by
  unfold HasSlot
  decide +kernel
/-- A packet of the send waits at port 0, whose direction is HELD. -/
def keyless (s : State) : State :=
  { s with
    ports := s.ports.set 0 { s.port 0 with txst := 3 }, outq := [{ port := 0, around := none, pkt := { Packet.mk0 { Hd.mk0 s 1 10 1 9 with group := 3, seq := 5 } [] with span := 3 } }] }
theorem premises_cox_wait :
    (let s := slotState (fun c => { c with st := 3, why := 2, wins := (win 256 c).wins }); HasSlot s 0 0 ∧ (s.coxSlot 0 0).st = 3 ∧ (s.coxSlot 0 0).send = none ∧
      ((s.coxSlot 0 0).win (FormCC.ofWord ((s.cox 0).word (s.coxSlot 0 0).pc)).wtag.toNat).fva = none) ∧
    (let s := slotState sending; (s.coxSlot 0 0).st = 3 ∧ (s.coxSlot 0 0).why = 1 ∧ ((s.coxSlot 0 0).send.any (fun sd => sd.again.isEmpty && ((fresh s).coxKeyPort sd).isNone)) = true) ∧
    (let s := slotState sending keyless; HasSlot s 0 0 ∧ (s.coxSlot 0 0).st = 3 ∧ (s.coxSlot 0 0).why = 1 ∧
      ((s.coxSlot 0 0).send.any (fun sd => sd.again.isEmpty && ((fresh s).coxKeyPort sd == some 0))) = true) := by
  unfold HasSlot
  decide +kernel
/-- A refusal that stands since CLOCK 0: short of FABTO, and that long; of a context held on a key. -/
theorem premises_cox_refusal : ∀ t ∈ [0x3FFFFF, 0x400000], let s := { slotState (fun c => { sending c with send := (sending c).send.map (fun (sd : CoxSend) => { sd with since := some 0 }) }) with clock := BitVec.ofNat 64 t }
    HasSlot s 0 0 ∧ (s.coxSlot 0 0).st = 3 ∧ (s.coxSlot 0 0).why ≠ 4 ∧ ((slotState (fun c => { sending c with why := 4 })).coxSlot 0 0).why = 4 ∧
    ((s.coxSlot 0 0).send.any (fun sd => sd.fail.isNone && !sd.left.isEmpty && (decide (s.fabto.toNat ≤ sd.measured s.clock.toNat) == decide (t = 0x400000)))) = true := by
  unfold HasSlot
  decide +kernel
/-- A START held since CLOCK 0, with a slot free and with all slots taken. -/
def heldStart (free : Bool) (t : Nat) : State :=
  { slotState (fun _ => if free then CoxSlot.free else cslot) (fun s => { s with coxes := s.coxes.map (fun (c : CoxSt) => { c with
      slots := if free then c.slots else c.slots.map (fun _ => cslot), starts := [{ pkt := startPkt, entry := 5, since := 0 }] }) }) with clock := BitVec.ofNat 64 t }
theorem premises_cox_held_start : (let s := heldStart true 0x400000; HasSlot s 0 0 ∧ ((s.cox 0).starts.map (fun x => x.entry)) = [5] ∧ (s.coxSlot 0 0).st = 0 ∧
      ((fresh s).modCox 0 (fun c => { c with starts := [] })).startRegion 0 startPkt.hd.ctx 5 = some 0 ∧ 0 + s.fabto.toNat ≤ s.clock.toNat) ∧
    (let s := heldStart false 0x3FFFFF; (List.range 8).all (fun j => (s.coxSlot 0 j).st != 0) = true ∧ s.clock.toNat < 0 + s.fabto.toNat) := by
  unfold HasSlot
  decide +kernel
/-- Descriptors that can be read, and descriptors on a page that is not mapped. -/
def isRd (e : VRead) : Bool := match e with
  | .ok _ => true
  | _ => false
def isXlate (e : VRead) : Bool := match e with
  | .xlate _ => true
  | _ => false
theorem premises_cox_descriptors : ∀ va ∈ [0x18000, 0x28000], let s := slotState (fun c => { c with st := 3, why := 5, dtva := va }); let sl := s.coxSlot 0 0
    let r := (fresh s).readVa sl.asid 0 { r := true, w := false, x := false, space := 0 } 2 sl.dtva 256
    HasSlot s 0 0 ∧ sl.st = 3 ∧ sl.why = 5 ∧ isRd r = decide (va = 0x18000) ∧ isXlate r = decide (va = 0x28000) := by
  unfold HasSlot
  decide +kernel

/-- The host link open and shut; a slot that is free, running, in FAULT with and without held packets, waiting; a region that holds word 5 and one that does not. -/
theorem premises_cox_writes :
    (let s := slotState id; HasSlot s 0 0 ∧ s.hostOpen = true ∧ { s with mgmt := Mgmt.reset }.hostOpen = false ∧ (s.coxSlot 0 0).st = 2 ∧ (s.coxSlot 0 1).st = 0 ∧
      (s.cox 0).imem.Pairwise (fun p q => p.1 < q.1) ∧ (List.range 8).all (fun i => !regionHas ((s.cox 1).reg i) 5) = true ∧ regionHas ((s.cox 0).reg 0) 5 = true ∧
      (fresh s).sealedBy (bitsOf ((s.cox 0).reg 0) 47 32) = none ∧ (∃ x ∈ (s.cox 0).slots, x.st ≠ 0 ∧ x.region = 0) ∧ ∀ x ∈ (s.cox 0).slots, x.st = 0 ∨ x.region ≠ 1) ∧
    (let s := slotState (fun c => { c with st := 4 }); (s.coxSlot 0 0).st = 4 ∧ ∀ h ∈ (s.cox 0).holds, h.slot ≠ 0) := by
  unfold HasSlot
  decide +kernel
/-- A region of a sealed context, a value that names one, and a word of no region. -/
theorem premises_cox_sealed : let s := slotState id (fun s => { s with kds := s.kds.set 6 { KeyDom.reset with st := 2, key := 9, ctx := 1 } })
    HasSlot s 0 0 ∧ s.hostOpen = true ∧ (fresh s).sealedBy (bitsOf ((s.cox 0).reg 0) 47 32) = some 6 ∧ (fresh s).sealedBy (bitsOf ((s.cox 0).reg 1) 47 32) = none ∧
    bitOf (0x800000010FFF0000#64).toNat 63 = true ∧ (fresh s).sealedBy (bitsOf (0x800000010FFF0000#64).toNat 47 32) = some 6 ∧
    (fresh s).sealedBy (bitsOf (0x800000020FFF0000#64).toNat 47 32) = none := by
  unfold HasSlot
  decide +kernel
/-- A start slot that is idle and one that is busy, before and at its time; a group of which this package is the root and one of which it is not. -/
theorem premises_start_window :
    (let s := slotState id; (s.startSlots.getD 0 StartSlot.reset).busy = false ∧ 0 < s.startSlots.length ∧ (s.grp 3).v = true ∧ (s.grp 3).root = s.own ∧ s.mgmt.stage ≠ 2 ∧ (s.grp 4).v = false) ∧
    ∀ t ∈ [0x3FFFFF, 0x400000], let s := { slotState id (fun s => { s with startSlots := s.startSlots.set 0 { StartSlot.reset with busy := true } }) with clock := BitVec.ofNat 64 t }
      (s.startSlots.getD 0 StartSlot.reset).busy = true ∧ (0 + s.fabto.toNat ≤ s.clock.toNat ↔ t = 0x400000) := by decide +kernel
/-! ## Ports -/

/-- Port 0 changed by g. -/
def ported (g : Port → Port) : State := ready id (fun s => let t := fabric s; { t with ports := t.ports.set 0 (g (t.port 0)), outq := [], cycle := 2 ^ 25 })
/-- A port down and up; training without a key toward the right and a wrong peer, and with one; DOWN at its time and before; a row port with a peer inside the grid and outside. -/
theorem premises_ports : ∀ st ∈ [0, 1, 2, 3], ∀ key ∈ [0, 1], let s := ported (fun x => { x with st := st, txst := key, downAt := if key = 0 then 0 else 2 ^ 25 })
    0 < s.ports.length ∧ (s.port 0).st = st ∧ (s.port 0).txst = key ∧ s.outq = [] ∧ s.wire = [] ∧ s.expected 0 = some 1 ∧ s.fabEn = true ∧ (s.port 0).admdn = false ∧
    (s.port 0).tries < 16 ∧ ((s.port 0).downAt + 2 ^ 24 ≤ s.cycle ↔ key = 0) ∧ s.inGrid (s.own / 16 * 16 + 1) = true ∧ s.own / 16 * 16 + 1 ≠ s.own ∧
    s.inGrid (s.own / 16 * 16 + 9) = false ∧ 1 < s.lstate.length := by decide +kernel
/-- A packet at port 0, with its counter far from the end, in the last 2^32, and at the end; the exchange of the first key and of a later one. -/
theorem premises_frames : ∀ p ∈ ([(0, 1), (2 ^ 64 - 2 ^ 32, 1), (2 ^ 64 - 2, 2), (2 ^ 64 - 1, 1)] : List (Nat × Nat)), let q := forwarded [0x4000] 1
    let s := { ported (fun x => { x with txcnt := BitVec.ofNat 64 p.1, txst := p.2, exch := 1 }) with outq := [q] }
    0 < s.ports.length ∧ (s.port 0).st = 2 ∧ (s.port 0).txst = p.2 ∧ (s.port 0).rxst ≠ 0 ∧ (s.port 0).exch ≠ 0 ∧ s.mgmt.ps = 0#2 ∧ s.outq = [] ++ q :: [] ∧ q.port = 0 ∧
    (fresh s).opSaved q.pkt = false ∧ 1 + q.pkt.hd.ndata ≤ (s.port 0).credit.getD (4 * q.pkt.hd.ch + q.pkt.hd.hops) 0 ∧
    ((s.port 0).txcnt.toNat + (1 + q.pkt.hd.ndata) < 2 ^ 64 - 1 - 2 ^ 32 ↔ p.1 = 0) ∧ (2 ^ 64 ≤ (s.port 0).txcnt.toNat + (1 + q.pkt.hd.ndata) ↔ p.1 = 2 ^ 64 - 1) ∧
    (∀ c ∈ s.crews, c.stall = none) ∧ (ported (fun x => { x with credit := [] })).port 0 = { s.port 0 with credit := [], txcnt := 0#64, txst := 1, exch := 0 } := by decide +kernel
/-- A fabric command whose packet waits at the port of a HELD direction, and a crew stalled on its key. -/
theorem premises_exchange_releases : let c := me (fun c => { c with stall := some { queue := 0, seq := some 3, step := false, cause := 0x18, key := some 0 } }); let h := Hd.mk0 (ready id fabric) 1 0 1 2
    let s := { ported (fun x => { x with txst := 3, exch := 1 }) with crews := [c], ops := [fab 0x2C0], outq := [{ port := 0, around := none, pkt := Packet.mk0 h [] }] }
    (s.port 0).exch ≠ 0 ∧ (s.port 0).st = 2 ∧ (fresh s).heldPort (fab 0x2C0) = some 0 ∧ fab 0x2C0 ∈ s.ops ∧ c ∈ s.crews ∧ c.stall.any (fun y => y.key == some 0) = true := by decide +kernel
/-- A packet that its receive buffer holds, and one for which it has no room. -/
theorem premises_receive : ∀ n ∈ [0, 16], ∀ c ∈ [0, 2 ^ 64 - 1], let h := (forwarded [0x4000] 1).pkt; let k := 4 * h.hd.ch + h.hd.hops
    let s := ported (fun x => { x with lent := x.lent.set k n, rxcnt := BitVec.ofNat 64 c }); let x := s.port 0
    h.hdr.length = 8 ∧ x.st = 2 ∧ x.rxst ≠ 0 ∧ h.hd.ndata = 0 ∧ (x.lent.getD k 0 < 1 + h.hd.ndata ↔ n = 0) ∧ (2 ^ 64 ≤ x.rxcnt.toNat + (1 + h.hd.ndata) ↔ c = 2 ^ 64 - 1) ∧
    (false : Bool) = x.rxsel ∧ x.rxnext = none ∧ true ≠ x.rxsel ∧ x.fails < 63 := by decide +kernel
/-- A frame under the next key; the 64th of a row with a bad tag; a link that a revocation rekeys; a direction at its end. -/
theorem premises_link_keys : (ported (fun x => { x with rxnext := some 7 })).port 0 = { (ported id).port 0 with rxnext := some 7 } ∧
    63 ≤ ((ported (fun x => { x with fails := 63 })).port 0).fails ∧ ((ported (fun x => { x with exch := 2 })).port 0).exch = 2 ∧ ((ported id).port 0).exch ≠ 2 ∧
    (let x := (ported (fun x => { x with txst := 2, txcnt := BitVec.ofNat 64 (2 ^ 64 - 2) })).port 0; x.txst = 2 ∧ x.txcnt.toNat + (1 + (forwarded [0x4000] 1).pkt.hd.ndata) = 2 ^ 64 - 1) := by
  decide +kernel
theorem premises_exchange : (ported (fun x => { x with exch := 0 })).port 0 = { Port.reset with st := 2, peer := 1, txst := 1, rxst := 1, nkey := 1 } ∧
    (let s := ported (fun x => { x with st := 1, txst := 0, exch := 1 }); (s.port 0).exch ≠ 0 ∧ (s.port 0).st = 1 ∧ s.outq = []) := by decide +kernel
/-- FABCFG not yet taken, and taken; values that break a rule; a port in and out of service; a spare and a logical port. -/
theorem premises_port_config : let s := { ready with outq := [] }; let t := ported id
    s.ports.length = 32 ∧ s.outq = [] ∧ s.wire = [] ∧ s.hostOpen = true ∧ { s with mgmt := Mgmt.reset }.hostOpen = false ∧ s.fabEn = false ∧ t.fabEn = true ∧ t.ports.length = 32 ∧ t.hostOpen = true ∧
    bitsOf 0x00030001 15 1 = 0 ∧ bitsOf 0x00030001 31 24 / 16 ≤ bitsOf 0x00030001 23 20 ∧ bitsOf 0x00030001 31 24 % 16 ≤ bitsOf 0x00030001 19 16 ∧
    bitsOf 0x10000001 23 20 < bitsOf 0x10000001 31 24 / 16 ∧ bitsOf 0x01000001 19 16 < bitsOf 0x01000001 31 24 % 16 ∧ bitsOf 0x00000003 15 1 ≠ 0 ∧
    (t.port 0).admdn = false ∧ (t.port 0).st ≠ 4 ∧ ((ported (fun x => { x with admdn := true, st := 4 })).port 0).admdn = true ∧
    ((ported (fun x => { x with admdn := true, st := 4 })).port 0).st = 4 ∧ (t.port 30).mapv = false ∧ (t.port (61 - 30)).mapv = false ∧
    (let x := { t with ports := t.ports.set 30 { (t.port 30) with mapv := true, lport := 5 } };
      x.ports.length = 32 ∧ x.outq = [] ∧ x.wire = [] ∧ (x.port 30).mapv = true ∧ (x.port 30).lport < 30 ∧ (x.port (61 - 30)).mapv = false) := by decide +kernel

/-! ## The security processor -/

/-- A command block at 0x200000 with an operation and a payload. -/
def mailbox (code : Nat) (p : List Byte) (h : State → State := id) : State :=
  let s := ready id (fun s => h (fabric (context true s)))
  { s.writePa 0x200000 (leBytes 4 code ++ leBytes 4 p.length ++ leBytes 8 0 ++ p) with secp := { s.secp with busy := some 0x200000 } }
theorem asked_of {s : State} {code pa : Nat} {p : List Byte} (h1 : (s.secp.busy == some pa && s.secp.result.isNone && (fresh s).paKind pa != .none && (fresh s).natPa pa 4 == code &&
    decide ((fresh s).natPa (pa + 4) 4 ≤ 16384) && (fresh s).natPa (pa + 12) 4 == 0 && p == (fresh s).readPa (pa + 16) ((fresh s).natPa (pa + 4) 4)) = true) : Asked s code pa p := by
  simp only [Bool.and_eq_true, beq_iff_eq, bne_iff_ne, decide_eq_true_eq, Option.isNone_iff_eq_none] at h1
  obtain ⟨⟨⟨⟨⟨⟨a, b⟩, c⟩, d⟩, e⟩, z⟩, f⟩ := h1
  exact ⟨a, b, c, d, e, z, f⟩
/-- An operation that does not exist, one at work, one with its result. -/
theorem premises_mailbox_done : let s := { mailbox 1 [] with secp := { (mailbox 1 []).secp with result := some 0 } }
    s.secp.busy = some 0x200000 ∧ (fresh s).paKind 0x200000 ≠ .none ∧ (fresh s).natPa 0x200000 4 = 1 ∧ s.secp.result = some 0 := by decide +kernel
theorem premises_mailbox : (mailbox 13 []).secp.busy = some 0x200000 ∧ (fresh (mailbox 13 [])).paKind 0x200000 ≠ .none ∧ (fresh (mailbox 13 [])).natPa 0x200000 4 = 13 ∧
    (fresh (mailbox 1 [])).natPa 0x200000 4 = 1 ∧ (mailbox 1 []).secp.result = none := by decide +kernel
/-- ATTEST with a payload that is too short, a context number that does not exist, and a good payload; GETID. -/
theorem premises_identity : Asked (mailbox 1 []) 1 0x200000 [] ∧ Asked (mailbox 2 []) 2 0x200000 [] ∧
    (∀ n ∈ [1, 65535, 65536], Asked (mailbox 2 (leBytes 4 n ++ List.replicate 64 9#8)) 2 0x200000 (leBytes 4 n ++ List.replicate 64 9#8) ∧
      (fieldOf (leBytes 4 n ++ List.replicate 64 9#8) 0 4 < 65536 ↔ n ≠ 65536)) := by
  refine ⟨asked_of (by decide +kernel), asked_of (by decide +kernel), ?_⟩
  intro n hn
  refine ⟨asked_of ?_, ?_⟩ <;> revert n <;> decide +kernel
/-- KDOPEN and KDCLOSE of key-domains 0, 5 (FREE), 6 (OPEN) and 256. -/
def opened (s : State) : State := { s with kds := s.kds.set 6 { KeyDom.reset with st := 1, key := 9 } }
theorem premises_keydomains : ∀ code ∈ [3, 5], ∀ d ∈ [0, 5, 6, 256], let s := mailbox code (leBytes 4 d) opened
    Asked s code 0x200000 (leBytes 4 d) ∧ s.kds.length = 256 ∧ (kdArg (leBytes 4 d) = none ↔ d = 0 ∨ d = 256) ∧ ((s.kd d).st = 0 ↔ d = 5 ∨ d = 256) := by
  intro code hc d hd
  refine ⟨asked_of ?_, ?_⟩ <;> revert d code <;> decide +kernel
/-- KDSEAL of context 1 with a page of handle 16, of a context that does not exist, with an unmapped page; of a key-domain that is not OPEN. -/
def rooted (s : State) : State := let t := opened s; { t.writePa 0x310050 (leBytes 8 0x100000) with mgmt := { t.mgmt with domtab := 0x310000#64 } }
def sealing (d ctx va : Nat) : List Byte := leBytes 4 d ++ leBytes 4 ctx ++ leBytes 8 va ++ leBytes 8 256
theorem premises_seal : ∀ c ∈ ([(6, 1, 0x18000), (6, 2, 0x18000), (6, 1, 0x28000), (5, 1, 0x18000)] : List (Nat × Nat × Nat)), let p := sealing c.1 c.2.1 c.2.2; let s := mailbox 4 p rooted; let u := fresh s
    Asked s 4 0x200000 p ∧ s.kds.length = 256 ∧ kdArg p = some c.1 ∧ 8 ≤ p.length ∧ ((u.ctxDesc (fieldOf p 4 4)).valid = true ↔ c.2.1 = 1) ∧ ((s.kd c.1).st = 1 ↔ c.1 = 6) ∧
    u.sealedBy (fieldOf p 4 4) = none ∧ s.owners = [] ∧
    (c.2.1 = 1 → (((listRanges p.length (p.drop 8)).flatMap (fun r => (pieces r.1 (r.2 / 65536 + 2) r.2).map (fun q => u.hbmAt (u.domain (u.ctxDesc (fieldOf p 4 4)).dom) q.1))).contains none = true ↔ c.2.2 = 0x28000)) := by
  intro c hc
  refine ⟨asked_of ?_, ?_⟩ <;> revert c <;> decide +kernel
theorem premises_seal_owners : ∀ (d : Nat) (fs : List Nat), ∀ f ∈ fs, keyOf [] f = 0 ∨ keyOf [] f = d := fun _ _ _ _ => .inl rfl
/-- KDMAP of a page for context 1, sealed by key-domain 6 and not sealed; domain 1 has its root at 0x100000. -/
def mapping : List Byte := leBytes 4 1 ++ leBytes 8 0x20000 ++ leBytes 8 0x12001F ++ leBytes 4 0x10000
def sealed (st : Nat) (s : State) : State :=
  { s.writePa 0x310050 (leBytes 8 0x100000) with mgmt := { s.mgmt with domtab := 0x310000#64 }, kds := s.kds.set 6 { KeyDom.reset with st := st, key := 9, ctx := 1 } }
theorem premises_map : ∀ st ∈ [1, 2], let s := mailbox 6 mapping (sealed st); let u := fresh s
    Asked s 6 0x200000 mapping ∧ s.kds.length = 256 ∧ 24 ≤ mapping.length ∧ fieldOf mapping 20 4 = 0x10000 ∧ canonical (fieldOf mapping 4 8) = true ∧ fieldOf mapping 4 8 % 0x10000 = 0 ∧
    bitOf (fieldOf mapping 12 8) 0 = true ∧ bitOf (fieldOf mapping 12 8) 1 = true ∧ u.leafBad (BitVec.ofNat 64 (fieldOf mapping 12 8)) 0x10000 = false ∧
    u.sealedBy 1 = (if st = 2 then some 6 else none) ∧ (u.leafSlot (u.domain (u.ctxDesc 1).dom).root 0x20000 0x10000).isSome = true ∧ s.owners = [] := by
  intro c hc
  refine ⟨asked_of ?_, ?_⟩ <;> revert c <;> decide +kernel
/-- REKEY of a port with a key, without, and of none. -/
theorem premises_rekey : ∀ i ∈ [0, 1, 32], let s := mailbox 7 (leBytes 4 i)
    Asked s 7 0x200000 (leBytes 4 i) ∧ (fieldOf (leBytes 4 i) 0 4 < 32 ↔ i ≠ 32) ∧ ((s.port i).txst ≠ 0 ↔ i = 0) := by
  intro c hc
  refine ⟨asked_of ?_, ?_⟩ <;> revert c <;> decide +kernel
/-- A command block whose payload of n bytes is zero behind its first bytes. -/
def blockOf (code n : Nat) (p : List Byte) (h : State → State) : State :=
  let s := ready id (fun s => h (fabric (context true s)))
  { s.writePa 0x200000 (leBytes 4 code ++ leBytes 4 n ++ leBytes 8 0 ++ p) with secp := { s.secp with busy := some 0x200000 } }
theorem read_length_of : ∀ (n : Nat) (m : Memory) (a : Nat), (m.read a n).length = n := by
  intro n
  induction n with
  | zero => intros; rfl
  | succ n ih => intro m a; simp only [Memory.read, List.length_cons, ih]
theorem fieldOf_read_of {m : Memory} {k : Nat} : ∀ (off n a : Nat), off + k ≤ n → fieldOf (m.read a n) off k = leNat (m.read (a + off) k) := by
  have take_read : ∀ (k n a : Nat), k ≤ n → (m.read a n).take k = m.read a k := by
    intro k
    induction k with
    | zero => intros; rfl
    | succ k ih =>
      intro n a h
      cases n with
      | zero => cases h
      | succ n => simp only [Memory.read, List.take_succ_cons, ih n (a + 1) (Nat.le_of_succ_le_succ h)]
  intro off
  induction off with
  | zero => intro n a h; simp only [fieldOf, List.drop_zero, take_read k n a (by omega), Nat.add_zero]
  | succ off ih =>
    intro n a h
    cases n with
    | zero => omega
    | succ n =>
      have := ih n (a + 1) (by omega)
      simp only [fieldOf] at this ⊢
      rw [Memory.read, List.drop_succ_cons, this]
      congr 2
      omega
/-- The payload of such a block, as SECP reads it. -/
theorem block_of {s : State} {code n : Nat} (h : (s.secp.busy == some 0x200000 && s.secp.result.isNone && (fresh s).paKind 0x200000 != .none && (fresh s).natPa 0x200000 4 == code &&
    (fresh s).natPa 0x200004 4 == n && decide (n ≤ 16384) && (fresh s).natPa 0x20000C 4 == 0 && (fresh s).keyed.isEmpty) = true) :
    Asked s code 0x200000 ((fresh s).mem.read 0x200010 n) ∧ ((fresh s).mem.read 0x200010 n).length = n := by
  simp only [Bool.and_eq_true, beq_iff_eq, bne_iff_ne, decide_eq_true_eq, Option.isNone_iff_eq_none] at h
  obtain ⟨⟨⟨⟨⟨⟨⟨a, b⟩, c⟩, d⟩, e⟩, f⟩, z⟩, g⟩ := h
  refine ⟨⟨a, b, c, d, by rw [e]; exact f, z, ?_⟩, read_length_of _ _ _⟩
  rw [e, State.readPa, State.readKey, if_pos (by rw [g]; rfl)]
/-- MPCSET of a new number, of one in use, and with all sixteen in use. -/
def mpc (i : Nat) : Mpc := { id := i, ctx := 1, policy := [], key := [], members := 3#256, epoch := 4 }
theorem premises_mpcset : ∀ ids ∈ ([[3], [7], [20, 21, 22, 23, 24, 25, 26, 27, 28, 29, 30, 31, 32, 33, 34, 35]] : List (List Nat)),
    let s := blockOf 8 1872 [7#8, 0#8, 0#8, 0#8, 1#8] (fun s => { s with mpcs := ids.map mpc }); let p := (fresh s).mem.read 0x200010 1872
    (Asked s 8 0x200000 p ∧ p.length = 1872) ∧ fieldOf p 0 4 = 7 ∧ fieldOf p 6 2 = 0 ∧ fieldOf p 1865 7 = 0 ∧ ((∃ m ∈ s.mpcs, m.id = 7) ↔ ids = [7]) ∧ (16 ≤ s.mpcs.length ↔ ids.length = 16) := by
  intro ids hi
  refine ⟨block_of ?_, ?_⟩
  · revert ids; decide +kernel
  · simp only [fieldOf_read_of 0 1872 _ (show 0 + 4 ≤ 1872 by decide), fieldOf_read_of 6 1872 _ (show 6 + 2 ≤ 1872 by decide), fieldOf_read_of 1865 1872 _ (show 1865 + 7 ≤ 1872 by decide)]
    revert ids; decide +kernel
theorem premises_mpcset_short : Asked (mailbox 8 []) 8 0x200000 [] := asked_of (by decide +kernel)
/-- MPCJOIN of an MPC that exists and of one that does not; REVOKE by a later epoch and by an old one. -/
theorem premises_mpcjoin : ∀ i ∈ [3, 4], let s := mailbox 9 (leBytes 4 i) (fun s => { s with mpcs := [mpc 3] })
    Asked s 9 0x200000 (leBytes 4 i) ∧ (leBytes 4 i).length = 4 ∧ ((s.mpcs.find? (fun m => m.id == fieldOf (leBytes 4 i) 0 4)).isSome = true ↔ i = 3) := by
  intro c hc
  refine ⟨asked_of ?_, ?_⟩ <;> revert c <;> decide +kernel
theorem premises_revoke : ∀ e ∈ ([4#8, 5#8] : List Byte), let s := blockOf 10 1356 [3#8, 0#8, 0#8, 0#8, e, 0#8, 0#8, 0#8, 1#8] (fun s => { s with mpcs := [mpc 3] })
    let p := (fresh s).mem.read 0x200010 1356
    (Asked s 10 0x200000 p ∧ p.length = 1356) ∧ s.mpcs.find? (fun m => m.id == fieldOf p 0 4) = some (mpc 3) ∧ (fieldOf p 4 4 ≤ (mpc 3).epoch ↔ e = 4#8) ∧ fieldOf p 8 1 ≠ s.own := by
  intro e he
  refine ⟨block_of ?_, ?_⟩
  · revert e; decide +kernel
  · simp only [fieldOf_read_of 0 1356 _ (show 0 + 4 ≤ 1356 by decide), fieldOf_read_of 4 1356 _ (show 4 + 4 ≤ 1356 by decide), fieldOf_read_of 8 1356 _ (show 8 + 1 ≤ 1356 by decide)]
    revert e; decide +kernel
/-- FWSTAGE of an image and of none; FWCOMMIT with all four staged, with ADVANCE and without, and with one missing. -/
theorem premises_fwstage : ∀ i ∈ [3, 4], let p := leBytes 8 0x210000 ++ leBytes 4 16 ++ leBytes 4 i
    Asked (mailbox 11 p) 11 0x200000 p ∧ p.length = 16 ∧ (fieldOf p 12 4 ≤ 3 ↔ i = 3) := by
  intro c hc
  refine ⟨asked_of ?_, ?_⟩ <;> revert c <;> decide +kernel
theorem premises_fwcommit : ∀ a ∈ [0, 1], ∀ n ∈ [3, 4], let p := leBytes 4 a; let s := mailbox 12 p (fun s => { s with secp := { s.secp with staged := List.range n } })
    Asked s 12 0x200000 p ∧ p.length = 4 ∧ (bitOf (fieldOf p 0 4) 0 = true ↔ a = 1) ∧ ((∀ i, i < 4 → i ∈ s.secp.staged) ↔ n = 4) ∧ ((∃ i, i < 4 ∧ i ∉ s.secp.staged) ↔ n = 3) := by
  intro a ha n hn
  refine ⟨asked_of ?_, ?_⟩
  · revert n a; decide +kernel
  · simp only [List.mem_cons, List.not_mem_nil, or_false] at ha hn
    rcases ha with rfl | rfl <;> rcases hn with rfl | rfl <;> exact ⟨rfl, by decide, ⟨by decide, by decide⟩, ⟨by decide, by decide⟩⟩
/-! ## The host and the outside -/

/-- Crew 1 stalled on record 3, outside a gate call and in one; an operation and a launch that wait for record 3; nobody. -/
def stalledOn (q : Nat) (c : Crew) : Crew := { c with stall := some { queue := q, seq := some 3, step := false, cause := 0x0C, key := none } }
theorem premises_fresp :
    (let s := ready (stalledOn 0); s.hostOpen = true ∧ (fresh s).faultAgent false 1 3 = some (.crew 1) ∧ s.crew? 1 = some (me (stalledOn 0)) ∧ (me (stalledOn 0)).callee = false ∧
      (fresh s).faultAgent false 1 4 = none ∧ { s with mgmt := Mgmt.reset }.hostOpen = false ∧
      s.block? (me (stalledOn 0)).blk = some (Block.start 1 1 1) ∧ (Block.start 1 1 1).place = 0 ∧ (Block.start 1 1 1).harv = false ∧ (s.ctxSt 1).stopped = false ∧
      ∀ x ∈ s.crews, x.id = 1 → x = me (stalledOn 0)) ∧
    (let b := { Block.start 1 1 1 with place := 1, img := some 0 }; let s := ready (stalledOn 0) (fun s => { s with blocks := [b] }); s.hostOpen = true ∧
      (fresh s).faultAgent false 1 3 = some (.crew 1) ∧ s.crew? 1 = some (me (stalledOn 0)) ∧ s.block? 1 = some b ∧ ∀ x ∈ s.crews, x.id = 1 → x = me (stalledOn 0)) ∧
    (let g := fun c : Crew => stalledOn 2 (called c); let s := ready g; (fresh s).faultAgent true 2 3 = some (.crew 1) ∧ s.crew? 1 = some (me g) ∧ (me g).callee = true) ∧
    (let o := { op 0 0x280 [] with pause := [(0, some 3)] }; let s := working [o]; (fresh s).faultAgent false 1 3 = some (.op 2 0) ∧ s.op? 2 = some o ∧ o.cls ≠ 2 ∧
      ∀ b ∈ s.blocks, b.img = none) ∧
    (let o := { op 2 0x30F [] with pause := [(0, some 3)] }; let s := working [o]; (fresh s).faultAgent false 1 3 = some (.op 2 0) ∧ s.op? 2 = some o ∧ o.cls = 2) ∧
    (let l := { launchOf 1 1 2 with hold := some (some 3) }; let s := withLaunch l; (fresh s).faultAgent false 1 3 = some (.launch 1) ∧ s.launch? 1 = some l) := by
  refine ⟨?_, ?_, ?_, ?_, ?_, ?_⟩ <;> decide +kernel
/-- BOOTL of an aligned and of a misaligned record; 64 bytes through BAR2, to a stack in service and, in reduced service, to one in training; groups idle and active; an MSI-X vector with
a message pending and without. -/
theorem premises_host : let s := landed [] (grouped 0)
    s.hostOpen = true ∧ (0x210000#64).toNat % 128 = 0 ∧ (0x210001#64).toNat % 128 ≠ 0 ∧ s.launchSlots.length < 256 ∧ s.mgmt.stage = 3 ∧ (fresh s).paKind 0x210000 ≠ .none ∧
    (fresh s).barWaits 0x210000 64 = false ∧ (fresh s).paReady (s.mgmt.mwap.toNat + 0x210000) ≠ .dead ∧ s.mem.wf = true ∧ 0x210000 + 64 ≤ 2 ^ 36 ∧
    (∀ i, i < 4 → (fresh s).sealedFrame (s.mgmt.mwap.toNat + 0x210000 + i) = false ∧ (fresh s).hostByte (s.mgmt.mwap.toNat + 0x210000 + i) 7#8 = 7#8) ∧
    s.groups.length = 256 ∧ s.grpState 3 = 0 ∧ (landed [] (withCox id)).grpState 3 ≠ 0 ∧ 5 ∉ s.mgmt.msixOpen ∧ 5 ∉ s.mgmt.msixPending := by decide +kernel
/-- A record that BOOTL has named: a slot is free; all are taken. -/
theorem premises_boot_record : let m := landed [] (fun s => { context true s with mgmt := { (context true s).mgmt with bootq := [0x210000] } })
    m.mgmt.bootq = 0x210000 :: [] ∧ m.paReady 0x210000 = .yes ∧ m.poisoned 0x210000 128 = false ∧ m.recordWaits (recordCtx (m.readPa 0x210000 128) 0) = false ∧
    m.launchSlots.length < 256 ∧ m.mgmt.ps = 0#2 ∧ 256 ≤ ({ m with launches := (List.range 256).map (fun i => { launchOf 1 1 2 with id := i, slot := i }) } : State).launchSlots.length := by decide +kernel
theorem premises_host_waits : let s := ready id (fun s => { s with mgmt := { s.mgmt with stage := 2, stackup := 3#8 } })
    s.hostOpen = true ∧ (fresh s).barWaits 0x2000000000 64 = true ∧ (fresh s).barWaits 0x210000 64 = false ∧ s.mgmt.stage = 2 := by decide +kernel
theorem premises_msix : let s := ready id (fun s => { s with mgmt := { s.mgmt with msixPending := [5], msix := Memory.write [] 80 [0#8, 0#8, 16#8] } })
    s.hostOpen = true ∧ 5 ∉ s.mgmt.msixOpen ∧ 5 ∈ s.mgmt.msixPending ∧ (fresh s).msixAddr 5 ≠ 0 := by decide +kernel
/-- Bring-up: PERST# asserted and released; images that pass, and one whose signature fails; training of D0. -/
def booting (stage : Nat) : State := { State.reset with mgmt := { Mgmt.reset with boot := true, stage := stage } }
theorem premises_bringup : State.reset.mgmt.boot = false ∧ (booting 0).mgmt.boot = true ∧ (booting 0).mgmt.stage = 0 ∧ (booting 1).mgmt.stage = 1 ∧ (booting 2).mgmt.stage = 2 ∧
    (booting 0).secp.roll.length = 4 ∧ (booting 2).mgmt.stackup.getLsbD 5 = false ∧ (booting 2).mgmt.stackFail.getLsbD 5 = false := by decide +kernel
theorem premises_flash : let s := { booting 0 with secp := { (booting 0).secp with flash := [{ bank := (booting 0).secp.bank, idx := 2, bytes := [1#8] }] } }
    s.secp.roll.length = 4 ∧ (s.secp.imageIn s.secp.bank 2).isSome = true ∧ ∀ i ∈ [0, 1, 3], s.secp.imageIn s.secp.bank i = none := by decide +kernel
theorem premises_images : ∀ b ∈ [true, false], let imgs : List (Bool × Bool × Nat × List Byte) := [(true, true, 0, []), (true, true, 1, []), (b, true, 0, []), (true, true, 0, [])]
    imgs.length = 4 ∧ ((∀ i, i < 4 → ∀ x, imgs[i]? = some x → x.1 = true ∧ x.2.1 = true ∧ (booting 0).secp.roll.getD i 0 ≤ x.2.2.1) ↔ b = true) := by
  intro b hb imgs
  refine ⟨rfl, ?_⟩
  cases b
  · refine ⟨fun h => ?_, fun h => by cases h⟩
    exact absurd (h 2 (by decide) _ rfl).1 (by decide)
  · refine ⟨fun _ => rfl, fun _ i hi x hx => ?_⟩
    match i, hi with
    | 0, _ => cases hx; decide
    | 1, _ => cases hx; decide
    | 2, _ => cases hx; decide
    | 3, _ => cases hx; decide
/-- D3hot: entered from D0, its second step with every block saved and with one resident, left in two steps; a context with a cox slot keeps it waiting. -/
def powered (ps : BitVec 2) (place : Nat) : State := ready id (fun s => { s with blocks := [{ Block.start 1 1 1 with place := place }], mgmt := { s.mgmt with ps := ps } })
theorem premises_power : ((powered 0#2 0).mgmt.stage = 2 ∨ (powered 0#2 0).mgmt.stage = 3) ∧ (powered 0#2 0).mgmt.ps = 0#2 ∧ (∃ b ∈ (powered 1#2 0).blocks, b.place ≠ 1) ∧
    (∀ b ∈ (powered 1#2 1).blocks, b.place = 1) ∧ (∀ c ∈ (powered 1#2 1).coxes, ∀ k ∈ c.slots, k.st = 0) ∧ (powered 1#2 1).ports.length = 32 := by decide +kernel
/-- The clock at its ends and between, with power under and over the cap and temperatures under and over the limit. -/
theorem premises_clock : ∀ clk ∈ [600, 1200, 1900], let s := ready id (fun s => { s with mgmt := { s.mgmt with aclk := BitVec.ofNat 32 clk } })
    s.mgmt.off = false ∧ s.mgmt.stage = 3 ∧ s.mgmt.ps ≠ 2#2 ∧ 600 ≤ s.mgmt.aclk.toNat ∧ s.mgmt.aclk.toNat ≤ 1900 ∧ bitsOf s.mgmt.pwrcap.toNat 10 0 * 1000 < (1600001#32).toNat ∧
    (1500000#32).toNat * 100 < bitsOf s.mgmt.pwrcap.toNat 10 0 * 1000 * 97 ∧ ¬ (1600000#32).toNat * 100 < bitsOf s.mgmt.pwrcap.toNat 10 0 * 1000 * 97 ∧
    ((bitsOf s.mgmt.therm.toNat 15 8 : Nat) : Int) * 16 ≤ (1600#32).toInt ∧ (1600#32).toInt < 110 * 16 ∧ 110 * 16 ≤ (1760#32).toInt ∧ s.mgmt.boot = true ∧ (1551#32).toInt < (((bitsOf s.mgmt.therm.toNat 15 8 : Nat) : Int) - 3) * 16 := by decide +kernel
/-- A line of the last stack in service, and the first line past memory; a core without owner of the failing word, and a crew that holds it; a CXL port up and down. -/
theorem premises_errors : let s := ready id (fun s => { memory s with mgmt := { s.mgmt with cxlup := 1#4 } })
    64 * 0x1FFFFFFFF < 0x8000000000 ∧ s.mgmt.stackup.getLsbD (bitsOf (64 * 0x1FFFFFFFF) 38 36) = true ∧ s.mgmt.ps ≠ 2#2 ∧ s.crew? 9 = none ∧ s.block? 9 = none ∧
    s.crew? 1 = some me ∧ (me).core = 0 ∧ s.mgmt.cxlup.getLsbD 0 = true ∧ s.mgmt.cxlup.getLsbD 1 = false ∧
    s.mem.wf = true ∧ (fresh s).paKind (64 * 5) ≠ .none ∧
    (let t := { s with mgmt := { s.mgmt with farsz := s.mgmt.farsz.set 0 0x40000000#64 } }
      ∀ p ∈ ([(0x20003FFFFFC0, 64), (0x20003FFFFFC0, 65), (0x200000000000, 0)] : List (Nat × Nat)),
        ((0 < p.2 ∧ (fresh t).paKind p.1 = .far 0 ∧ (fresh t).paKind (p.1 + p.2 - 1) = .far 0) ↔ p.2 = 64)) := by
  refine ⟨by decide, ?_⟩
  decide +kernel

/-! ## Lines, turns, causes -/

theorem premises_line : targets.length = 64 ∧ lineFault targets = none := by decide +kernel
/-- A PC that is a target, one that is none because of its slot number, one in a line that is not mapped as code or is malformed. -/
theorem premises_target : let s := ready id memory; let pc := 0x10041#64
    ((pc.toNat / 2 ^ 57 = if pc.getLsbD 56 then 127 else 0) ∧ pc.toNat / 8 % 8 = 0 ∧ pc.toNat % 8 ≤ 4) ∧ s.fetchLine 0 1 (pc.toNat / 64 * 64) = .ok targets ∧
    (lineWordOf targets).getLsbD (pc.toNat % 8) = true ∧ ¬ ((0x10045#64).toNat % 8 ≤ 4) ∧ s.fetchLine 0 1 ((0x10080#64).toNat / 64 * 64) = .ok (List.replicate 64 0#8) := by decide +kernel
theorem premises_target_bad : let s := ready id (fun s => (memory s).writePa 0x110080 [1#8]); (match s.fetchLine 0 1 0x10080 with
      | .bad _ => true
      | _ => false) = true := by decide +kernel
/-- A crew whose slot holds a line, one whose slot is at a new line. -/
def entered (line : List Byte) (c : Crew) : Crew := { c with a := { c.a with line := line } }
theorem premises_single : let s := ready (entered targets); s.crew? 1 = some (me (entered targets)) ∧ Clear (me (entered targets)) ∧ ((me (entered targets)).slot false).line ≠ [] ∧
    ¬(linePair (lineWordOf targets) (pcSlot 0x10000#64) = true ∧ pcSlot 0x10000#64 < 4) ∧
    s.pipesFree (me (entered targets)) ((me (entered targets)).slot false) = true ∧
    (s.tookPipes (me (entered targets)) ((me (entered targets)).slot false)).pipesFree (me (entered targets)) ((me (entered targets)).slot false) = false := by
  unfold Clear
  decide +kernel
theorem premises_fetch : let s := ready id memory; s.crew? 1 = some me ∧ Clear me ∧ ((me).slot false).line = [] ∧ s.heldMark = false ∧ s.lastRaise = none ∧ targets ≠ [] ∧
    (match s.checkTarget (me).core (me).asid ((me).slot false).pc ((me).slot false).mask (me).lastEver.isNone with
      | .ok l => l == targets
      | .error _ => false) = true ∧
    (let p := { (me).slot false with line := targets }; let d := (me).setSlot false p
      ((s.setCrew d).noteLine d.core d.asid (pcLine p.pc) targets).pipesFree d p = true) := by
  unfold Clear
  decide +kernel
/-- A line whose slots 0 and 1 are a pair of iaddi. -/
def pairLine : List Byte := buildLine 0x401#32 [0x04C0003C0002820000000380#96, 0x04C0003C0003020000000480#96, 0x7240003C0000000000000000#96, 0x7240003C0000000000000000#96, 0x7240003C0000000000000000#96]
/-- The state that an instruction of the line leaves when it completes without a cause. -/
def completes (o : Out) : Option State := match o with
  | .next a => if a.heldMark || a.lastRaise.isSome then none else some a
  | _ => none
theorem premises_pair : let m := ready (entered pairLine); let c := me (entered pairLine); let one := cursorAt 1 false pairLine 0x10000#64; let two := cursorAt 1 false pairLine (pcNext 0x10000#64)
    m.crew? 1 = some c ∧ Clear c ∧ (c.slot false).line ≠ [] ∧ linePair (lineWordOf pairLine) (pcSlot (c.slot false).pc) = true ∧ pcSlot (c.slot false).pc < 4 ∧
    m.pipesFree c (c.slot false) = true ∧ secondFree (settle m c) (Hdr.ofWord one.word) (Hdr.ofWord two.word) = true ∧
    (match completes (exec (decodeCrew one.word) { m with cur := { one with next := two.next } }) with
      | some a => (completes (exec (decodeCrew two.word) { a with cur := { two with
          first := some (c.slot false).pc, snap := some { regs := (settle m c).regs, flights := (settle m c).flights, left := none } } })).isSome
      | none => false) = true := by
  unfold Clear
  decide +kernel
/-- An instruction of one pipe, and a pair that needs one pipe twice. -/
theorem premises_pipes : let s := ready (entered pairLine); (me).core < s.cores.length ∧ s.lastRaise = none ∧
    slotPipes ((me (entered targets)).slot false) = [.br] ∧ slotPipes ((me (entered pairLine)).slot false) = [.int, .int] := by decide +kernel
/-- Every event acts in a cycle that the free value picks, and in cycle 0 one. -/
theorem premises_all_act : ({ (ready) with cycle := Config.free 0 [51] + 1 } : State).allAct = true ∧ ({ (ready) with cycle := 0 } : State).allAct = false := by
  constructor
  · show (Config.free 0 [51] + 1 + 1) % (Config.free 0 [51] + 2) == 0
    simp
  · show ((0 + 1) % (Config.free 0 [51] + 2) == 0) = false
    rw [Nat.mod_eq_of_lt (by omega)]
    rfl
theorem premises_turns : let s := ready id memory; let q := { s with todo := [.quad 0 0], cur := Cursor.idle }
    State.reset.todo = [] ∧ q.todo = .quad 0 0 :: [] ∧ (let m := ({ q with todo := [] }).refillQuad 0 0; m.issueOrder 0 0 = [(1, false)]) ∧
    (let t := { cready with todo := [.cox 0] }; let m := ({ t with todo := [] }).coxPick 0; (List.range 8).find? (fun i => (m.coxSlot 0 i).st == 2) = some 0) := by decide +kernel
theorem premises_order : let s := { ready with crews := [me, { Crew.start 2 1 1 1 0x10000#64 with qslot := 1, lastEver := some 4 }] }
    let e : TrapEntry := { cause := 0x14#32, slot := true, val := 0#64, ret := 0x10003#64, after := 0x10004#64, mask := 0xFF#64 }
    (me (fun c => { c with trapq := [e] })).awaits true = true ∧
    (s.crews.map (fun c => c.id)).Nodup ∧ s.issueOrder 0 0 = [(1, false), (2, false)] := by decide +kernel

/-- A privileged instruction in the user view; a word whose OPC is unassigned. -/
def user (c : Crew) : Crew := { c with priv := 0 }
theorem premises_privileged : (ready user).opening.issuer? = some (me user) ∧ mayIssue (ready user).opening (me user) (fS 0).h = true ∧ (me user).priv ≠ 2 :=
  ⟨rfl, by decide +kernel, by decide⟩
theorem premises_unassigned : (ready).opening.issuer? = some me ∧ mayIssue (ready).opening me (Hdr.ofWord (0x3FF#10 ++ 0x0003C0000000000000000#86)) = true := ⟨rfl, by decide +kernel⟩
/-- Fields and queues that stop an instruction at issue: see the statement's rows in `premises_checks`. -/
theorem premises_checks : (ready).opening.issuer? = some me ∧ mayIssue (ready).opening me h0 = true ∧ mayIssue (ready).opening me { h0 with wait := 1#12 } = true ∧
    (let g := fun c : Crew => { c with flags := c.flags.set 0 1 }; mayIssue (ready g).opening (me g) { h0 with wait := 1#12 } = false) := by
  refine ⟨rfl, ?_⟩
  decide +kernel
/-- A system cause; a cause of the slot in service; one with no handler; one behind the slot in service; one delivered at once. -/
def handler (c : Crew) : Crew := { tables c with tvec := some 0x10040#64, gates := [caller] }
theorem premises_cause : let s := ready handler memory
    s.cur.crew = some (me handler).id ∧ s.crew? (me handler).id = some (me handler) ∧ (s.crews.map (fun y => y.id)).Nodup ∧ (me handler).gates.length ≤ 7 ∧ (me handler).insvc = false ∧
    (me handler).trapq = [] ∧ s.tvecOf (me handler) ≠ 0#64 ∧ ((me handler).slot false).trapped = false ∧
    isOk (s.checkTarget (me handler).core (me handler).asid (s.tvecOf (me handler)) ((me handler).slot false).mask true) = true ∧
    (crewCause 0x11 0 0 0#64 0#64 true).crew = true ∧ (illField).crew = false ∧ (crewCause 0x11 0 0 0#64 0#64 true).code ≠ 0x15 ∧ (ready id memory).tvecOf me = 0#64 := by decide +kernel
/-- A record for an empty queue and for a full one. -/
theorem premises_post : ∀ n ∈ [15, 16], let s := queued n; kept.body.length ≤ 480 ∧ kept.kind ≠ 3 ∧ 32 ≤ ({ kept with kind := 3 } : Held).body.length ∧
    (match s.readVa kept.fq.asid 0 { r := true, w := true, x := false, space := 0 } 2 kept.fq.fqva 12 with
      | .ok cb => cb.length == 12 && (decide ((leNat (cb.take 4) + 2 ^ 32 - leNat ((cb.drop 4).take 4)) % 2 ^ 32 = 2 ^ kept.fq.fqlog) == decide (n = 16))
      | _ => false) = true := by decide +kernel
/-- The invariant holds after reset, and so in the state that the first step leaves. -/
theorem premises_invariant : State.reset.memoryCanonical = true ∧ State.reset.sized = true ∧ step State.reset = .next State.reset.tick := ⟨by decide +kernel, by decide +kernel, rfl⟩
/-- Well-formed terms with words and without. -/
theorem premises_encode : wellFormed (.nop (fS 0)) = true ∧ encode (.nop (fS 0)) = some (.crew 0x7240003C0000000000000000#96) ∧ wellFormed (.rasclr) = true ∧ encode .rasclr = none := by decide +kernel
/-! ## Decoding, from the words that the specification works out -/

/-- R62, 06 R135: cvt.e4m3.f32 v6, v3, dsel=2, merge. -/
theorem test_decode_cvt : decodeCrew 0x5400003C0003018000282000#96 = .cvt ⟨h0, Guard.none, 6#8, 3#8, 0x5040#32, 0#7⟩ := rfl
/-- 07 R146: bfly of distance 16, group 5, SEGC 5. -/
theorem test_decode_bfly : decodeCrew 0x6158003C0000000000080285#96 = .bfly ⟨⟨6#4, 0#12, 15#4, 0#2⟩, Guard.none, 0#8, 0#8, 0x1005#32, 5#7⟩ := rfl
/-- 07 R156: loop v2, top. -/
theorem test_decode_loop : decodeCrew 0x71C0003C00003FFFFF804000#96 = .loop ⟨h0, Guard.none, Guard.none, 0x3FFFFF#22, 4#3, 2#8, 0#13⟩ := rfl
/-- 03: st.b32 out[v1-512], v5 stall=3. -/
theorem test_decode_st : decodeCrew 0x848C003C0000001000041600#96 = .stB32 ⟨⟨3#4, 0#12, 15#4, 0#2⟩, Guard.none, Guard.none, 4#12, 0#8, 1#8, 5#8, 0x200#10⟩ := rfl
/-- 08: atom.add.f32.cluster v8, h20[v2+0], v9 set=f1; 15: ld.acq.b32.package v9, flag[v20] set=f0. -/
theorem test_decode_atom : decodeCrew 0x904000040000005020082580#96 = .atomAddF32 ⟨⟨0#4, 0#12, 1#4, 0#2⟩, Guard.none, Guard.none, 20#12, 8#8, 2#8, 9#8, 0x180#10⟩ := rfl
theorem test_decode_ldacq : decodeCrew 0x81C000000000001024500280#96 = .ldAcqB32 ⟨⟨0#4, 0#12, 0#4, 0#2⟩, Guard.none, Guard.none, 4#12, 9#8, 20#8, 0#8, 0x280#10⟩ := rfl
/-- 18: cp.scale v40, v41, v42, v44, v0; ?k0.1 bankop.add.f32 out[v50+1], v57 set=f4; 17: fldred v8, v0, v2, v0, v1 stall=1. -/
theorem test_decode_cp_scale : decodeCrew 0xA0C0003C00000A0A4A8B0000#96 = .cpScale ⟨h0, Guard.none, Guard.none, 40#8, 41#8, 42#8, 44#8, 0#8, 0#6⟩ := rfl
theorem test_decode_bankop : decodeCrew 0x964000100100001400C8E401#96 = .bankopAddF32 ⟨⟨0#4, 0#12, 4#4, 0#2⟩, ⟨0#3, 1#5, 0#1⟩, Guard.none, 5#12, 0#8, 50#8, 57#8, 1#10⟩ := rfl
theorem test_decode_fldred : decodeCrew 0xB104003C0000020000800040#96 = .fldred ⟨⟨1#4, 0#12, 15#4, 0#2⟩, Guard.none, Guard.none, 8#8, 0#8, 2#8, 0#8, 1#8, 0#6⟩ := rfl
/-- 19: rngseed v10, v11 wait=f0; qblk v34, v32, v13. -/
theorem test_decode_rngseed : decodeCrew 0x5A40007C0000000000282C00#96 = .rngseed ⟨⟨0#4, 1#12, 15#4, 0#2⟩, Guard.none, Guard.none, 0#12, 0#8, 10#8, 11#8, 0#8, 0#2⟩ := rfl
theorem test_decode_qblk : decodeCrew 0x5800003C0000000088803400#96 = .qblk ⟨h0, Guard.none, Guard.none, 0#12, 34#8, 32#8, 13#8, 0#8, 0#2⟩ := rfl
/-- 09: tshape t2, v16; mma.e2m1 t2, v10, v11 set=f2. -/
theorem test_decode_tshape : decodeCrew 0xC000003C0000084000000000#96 = .tshape ⟨h0, Guard.none, Guard.none, 2#4, 16#8, 0#8, 0#8, 0#8, 0#10⟩ := rfl
theorem test_decode_mma : decodeCrew 0xC3000008000008282C000000#96 = .mmaE2m1 ⟨⟨0#4, 0#12, 2#4, 0#2⟩, Guard.none, Guard.none, 2#4, 10#8, 11#8, 0#8, 0#8, 0#10⟩ := rfl
/-- 10: bar 1; gets v6, CLOCK; 20: hvhint.recall. -/
theorem test_decode_bar : decodeCrew 0xD000003C0000000000000001#96 = .bar ⟨h0, Guard.none, 1#55⟩ := rfl
theorem test_decode_gets : decodeCrew 0xD600003C0003000000000038#96 = .gets ⟨h0, Guard.none, 0x3000000000038#55⟩ := rfl
theorem test_decode_hvhint : decodeCrew 0xD880003C0000000000000000#96 = .hvhintRecall ⟨h0, Guard.none, 0#55⟩ := rfl
/-- 14: combf b2, c3, 5, c4, 6; 16: post b0, c13, 1; loop c14, step. -/
theorem test_decode_combf : decodeCox 0x908D014180000000#64 = .coxCombf ⟨2#4, 3#4, 4#4, 5#8, 6#8, 0#30⟩ := rfl
theorem test_decode_post : decodeCox 0x8434004000000000#64 = .coxPost ⟨0#4, 13#4, 0#4, 1#8, 0#8, 0#30⟩ := rfl
theorem test_decode_cox_loop : decodeCox 0x778000000000004B#64 = .coxLoop ⟨14#4, 0#4, 0#38, 0x04B#12⟩ := rfl
/-- A class that no instruction has, and the word of the opcode table with its bytes in the order of the line (R3, R36). -/
theorem test_decode_unassigned : decodeCrew 0xF00000000000000000000000#96 = .illop 0x3C0#10 0#86 := rfl
theorem test_decode_table_word : decodeTableWord 96 0x7240003C0000000000000000 = some (.nop ⟨h0, Guard.none, 0#55⟩) := rfl

/-! ## Values, from the examples of the specification -/

/-- Lane 0 of register d after an instruction of crew 1, which began with the words given in registers 20 on. -/
def lane0 (i : Instr) (ws : List Word) (d : Nat) (g : Crew → Crew := id) : Option Word :=
  match exec i (ready (fun c => regs 20 ws (g c))) with
  | .next t => (t.crew? 1).map (fun c => (c.regs.getD d []).getD 0 0#32)
  | _ => none
/-- Format R on registers 20, 21 and 22, to register 30. -/
def rrr (md : BitVec 12 := 0) : FormR := { h := h0, ga := Guard.none, gb := Guard.none, md := md, d := 30, a := 20, b := 21, c := 22, rsv := 0 }
def rr : FormR := { rrr with c := 0 }
/-- 05: the products of 0xFFFF_FFFE and 3. -/
theorem test_imul : lane0 (.imulI32 rr) [0xFFFFFFFE#32, 3#32] 30 = some 0xFFFFFFFA#32 := by decide +kernel
theorem test_imulhi : lane0 (.imulhiI32 rr) [0xFFFFFFFE#32, 3#32] 30 = some 0xFFFFFFFF#32 := by decide +kernel
theorem test_imulhi_n : lane0 (.imulhiN32 rr) [0xFFFFFFFE#32, 3#32] 30 = some 2#32 := by decide +kernel
/-- 05: the byte select of 0x4433_2211 and 0x8877_6655. -/
theorem test_bsw : lane0 (.bswB32 rrr) [0x44332211#32, 0x88776655#32, 0x0C1E0503#32] 30 = some 0x00FF6644#32 := by decide +kernel
theorem test_bsw_sign : lane0 (.bswB32 rrr) [0x44332211#32, 0x88776655#32, 0x170F1400#32] 30 = some 0xFF000011#32 := by decide +kernel
/-- 05: the dot products of four bytes. -/
theorem test_dp4 : lane0 (.dp4I8x4 rrr) [0xFF0203FE#32, 0x04050607#32, 100#32] 30 = some 0x6E#32 := by decide +kernel
theorem test_dp4_n : lane0 (.dp4N8x4 rrr) [0xFF0203FE#32, 0x04050607#32, 100#32] 30 = some 0xB6E#32 := by decide +kernel
/-- 06: hfma.bf16x2. -/
theorem test_hfma : lane0 (.hfmaBf16x2 rrr) [0x3F804000#32, 0x3F803F80#32, 0x3C003B80#32] 30 = some 0x3F814000#32 := by decide +kernel
/-- 06: cvt.e4m3.f32 v6, v3, dsel=2, merge. -/
theorem test_cvt : lane0 (.cvt ⟨h0, Guard.none, 21#8, 20#8, 0x5040#32, 0#7⟩) [0x3E99999A#32, 0x11223344#32] 21 = some 0x112A3344#32 := by decide +kernel
/-- 07: rotation by half the crew: every lane of register 20 holds its number. -/
theorem test_rot : (match exec (.xlaneRot ⟨h0, Guard.none, 30#8, 20#8, 0xC0100#32, 0#7⟩) (ready (fun c => { c with regs := c.regs.set 20 ((List.range 64).map (fun l => BitVec.ofNat 32 l)) })) with
    | .next t => (t.crew? 1).map (fun c => (c.regs.getD 30 []).getD 5 0#32)
    | _ => none) = some 37#32 := by decide +kernel
/-- 05: the fields of 0x9234_ABCD from bit 28 on. -/
theorem test_bfe_n : lane0 (.bfeN32 rrr) [0x9234ABCD#32, 28#32, 8#32] 30 = some 9#32 := by decide +kernel
theorem test_bfe : lane0 (.bfeI32 rrr) [0x9234ABCD#32, 28#32, 8#32] 30 = some 0xFFFFFFF9#32 := by decide +kernel

/-! ## One step from reset with an instruction placed -/

/-- The crew that withFetchWord placed, after one step. -/
def after1 (w : Nat) : Option Crew := match step (State.reset.withFetchWord 96 w) with
  | .next t => t.crews[0]?
  | _ => none
/-- R34: nop goes on to the next slot; the immediate add writes every lane; a word with a bad field stalls the crew on ILLFIELD (R58, R385). -/
theorem test_step_nop : (after1 0x7240003C0000000000000000).map (fun c => c.a.pc) = some 0x10001#64 := by decide +kernel
theorem test_step_iaddi : (after1 0x04C0003C0002800000000380).map (fun c => ((c.regs.getD 5 []).getD 63 0#32, c.a.pc)) = some (7#32, 0x10001#64) := by decide +kernel
theorem test_step_illfield : (after1 0x7240003C0000000000000001).map (fun c => (c.stall.isSome, c.a.pc)) = some (true, 0x10000#64) := by decide +kernel
/-- movi of a cox writes its register and goes on to the next word. -/
theorem test_step_cox : (match step (State.reset.withFetchWord 64 0x23F4000000000000) with
    | .next t => (t.coxSlot 0 0).pc
    | _ => 0) = 1 := by decide +kernel
/-- 24 R424: the first bytes of SHAKE256 of no bytes, as FIPS 202 has them, and a product of two polynomials modulo x^2 + 1. -/
theorem test_shake256 : (shake256 []).take 4 = [0x46#8, 0xB9#8, 0xDD#8, 0x2B#8] := by decide +kernel
theorem test_negMul : negMul [1, 2] [3, 4] = [-5, 10] := by decide +kernel
end Sys2Proof.Tests
end

section
/-!
PROOF. Proofs/Lines.lean: what a fetch line holds, which lines are malformed, and what a transfer finds at its target (02 R33 to R40).
-/

namespace Sys2Proof.Proofs.Lines

open Sys2Proof Sys2Proof.Machine Sys2Proof.Claims

/-! ## Bits of bytes and of words built from bytes (R33) -/

theorem testBit_leNat (bs : List Byte) (i : Nat) : (leNat bs).testBit i = (bs.getD (i / 8) 0#8).getLsbD (i % 8) := by
  induction bs generalizing i with
  | nil => simp [leNat]
  | cons b bs ih =>
    have hcons : leNat (b :: bs) = 2 ^ 8 * leNat bs + b.toNat := by simp only [leNat]; omega
    rw [hcons, Nat.testBit_two_pow_mul_add _ b.isLt]
    split
    · next h => simp [Nat.div_eq_of_lt h, Nat.mod_eq_of_lt h, -BitVec.getLsbD_eq_getElem, BitVec.testBit_toNat]
    · next h =>
      have hdiv : i / 8 = (i - 8) / 8 + 1 := by omega
      have hmod : i % 8 = (i - 8) % 8 := by omega
      rw [ih, hdiv, hmod, List.getD_cons_succ]

/-- A word read from `n` bytes of a line has the bits of those bytes. -/
theorem getLsbD_ofNat_leNat_bytes (w n off : Nat) (line : List Byte) {b : Nat} (hw : b < w) (hn : b / 8 < n) :
    (BitVec.ofNat w (leNat ((line.drop off).take n))).getLsbD b = (line.getD (off + b / 8) 0#8).getLsbD (b % 8) := by
  rw [BitVec.getLsbD_ofNat, testBit_leNat]
  simp [hw, hn]

theorem lineLayout : LineLayout := by
  intro line _
  refine ⟨fun b hb => ?_, fun k b _ hb => ?_⟩
  · simpa [lineWordOf] using getLsbD_ofNat_leNat_bytes 32 4 0 line hb (by omega)
  · exact getLsbD_ofNat_leNat_bytes 96 12 (4 + 12 * k) line hb (by omega)

theorem extractLsb'_ne_zero_iff {w : Nat} (x : BitVec w) (start n : Nat) :
    x.extractLsb' start n ≠ 0#n ↔ ∃ i, i < n ∧ x.getLsbD (start + i) = true := by
  rw [Ne, BitVec.eq_of_getLsbD_eq_iff]
  simp +contextual

/-! ## Parity (R37) -/

/-- An exclusive OR over a list is the parity of the number of its true terms. -/
theorem foldl_xor_eq_bodd_countP {α : Type} (f : α → Bool) (l : List α) (p : Bool) :
    l.foldl (fun p a => Bool.xor p (f a)) p = Bool.xor p (l.countP f).bodd := by
  induction l generalizing p with
  | nil => simp
  | cons a l ih => cases hf : f a <;> cases p <;> simp [ih, hf]

theorem byteParity_eq_bodd_countP (b : Byte) : byteParity b = ((List.range 8).countP b.getLsbD).bodd := by
  simp [byteParity, foldl_xor_eq_bodd_countP]

/-- The parity of the bits of `m` bytes, taken byte by byte. -/
theorem bodd_countP_eq_foldl_bytes (P : Nat → Nat → Bool) (m : Nat) :
    ((List.range (8 * m)).countP (fun b => P (b / 8) (b % 8))).bodd =
      (List.range m).foldl (fun p j => Bool.xor p ((List.range 8).countP (P j)).bodd) false := by
  induction m with
  | zero => simp
  | succ m ih =>
    have hlast : ((List.range 8).map (8 * m + ·)).countP (fun b => P (b / 8) (b % 8)) = (List.range 8).countP (P m) := by
      rw [List.countP_map]
      refine List.countP_congr fun b hb => ?_
      have hb := List.mem_range.mp hb
      have hdiv : (8 * m + b) / 8 = m := by omega
      have hmod : (8 * m + b) % 8 = b := by omega
      simp [hdiv, hmod]
    rw [Nat.mul_succ, List.range_add, List.countP_append, Nat.bodd_add, ih, hlast, List.range_succ (n := m), List.foldl_append]
    rfl

/-- The word whose bit i is set where `P i` holds, built bit by bit. -/
theorem getLsbD_foldl_setBits {w : Nat} (P : Nat → Bool) (n j : Nat) (hj : j < w) :
    ((List.range n).foldl (fun acc i => if P i then acc ||| (1#w <<< i) else acc) 0#w).getLsbD j = (decide (j < n) && P j) := by
  induction n with
  | zero => simp
  | succ n ih =>
    rw [List.range_succ, List.foldl_append, List.foldl_cons, List.foldl_nil]
    have hbit : (1#w <<< n).getLsbD j = decide (j = n) := by
      simp only [BitVec.getLsbD_shiftLeft, BitVec.getLsbD_one]
      grind
    split <;> simp only [BitVec.getLsbD_or, ih, hbit] <;> grind

/-- Byte j of group i with line byte 3 taken as zero. -/
def groupByte (line : List Byte) (i j : Nat) : Byte := if 8 * i + j = 3 then 0#8 else line.getD (8 * i + j) 0#8

theorem group_eq_map_groupByte {line : List Byte} (hlen : line.length = 64) {i : Nat} (hi : i < 8) :
    ((line.set 3 0#8).drop (8 * i)).take 8 = (List.range 8).map (groupByte line i) := by
  refine List.ext_getElem (by simp; omega) fun j hj _ => ?_
  have hj : j < 8 := by simp at hj; omega
  have hin : 8 * i + j < line.length := by omega
  simp [groupByte, List.getElem_set, eq_comm, hin]

theorem getLsbD_lineParity {line : List Byte} (hlen : line.length = 64) {i : Nat} (hi : i < 8) :
    (lineParity line).getLsbD i =
      ((List.range 64).countP (fun b => decide (8 * i + b / 8 ≠ 3) && (line.getD (8 * i + b / 8) 0#8).getLsbD (b % 8))).bodd := by
  have hbytes := bodd_countP_eq_foldl_bytes
    (fun j b => decide (8 * i + j ≠ 3) && (line.getD (8 * i + j) 0#8).getLsbD b) 8
  have hgroup : ∀ j, (fun b => decide (8 * i + j ≠ 3) && (line.getD (8 * i + j) 0#8).getLsbD b) = (groupByte line i j).getLsbD := by
    intro j
    funext b
    by_cases h : 8 * i + j = 3 <;> simp [groupByte, h]
  rw [lineParity, getLsbD_foldl_setBits _ 8 i hi, group_eq_map_groupByte hlen hi, List.foldl_map]
  simp only [hgroup, ← byteParity_eq_bodd_countP] at hbytes
  simpa [hi] using hbytes.symm

theorem groupEven_iff {line : List Byte} (hlen : line.length = 64) {i : Nat} (hi : i < 8) :
    groupEven line i ↔ (lineParity line).getLsbD i = (lineWordOf line).getLsbD (24 + i) := by
  rw [groupEven, getLsbD_lineParity hlen hi, Nat.mod_two_of_bodd, Nat.bodd_add]
  cases (lineWordOf line).getLsbD (24 + i) <;> simp

theorem lineParity_eq_par_iff {line : List Byte} (hlen : line.length = 64) :
    lineParity line = (lineWordOf line).extractLsb' 24 8 ↔ ∀ i, i < 8 → groupEven line i := by
  rw [BitVec.eq_of_getLsbD_eq_iff]
  refine forall₂_congr fun i hi => ?_
  simp [groupEven_iff hlen hi, hi]

/-! ## The rows of R38 as the model tests them -/

theorem lfmt_iff_lineRow (line : List Byte) : (lineWordOf line).extractLsb' 14 2 ≠ 0#2 ↔ lineRow line 1 := by
  rw [extractLsb'_ne_zero_iff]
  constructor
  · rintro ⟨i, hi, hbit⟩
    interval_cases i
    exacts [.inl hbit, .inr hbit]
  · rintro (hbit | hbit)
    exacts [⟨0, by decide, hbit⟩, ⟨1, by decide, hbit⟩]

theorem lrsv_iff_lineRow (line : List Byte) : (lineWordOf line).extractLsb' 16 8 ≠ 0#8 ↔ lineRow line 2 := by
  rw [extractLsb'_ne_zero_iff]
  constructor
  · rintro ⟨i, hi, hbit⟩
    exact ⟨16 + i, by omega, by omega, hbit⟩
  · rintro ⟨b, hlo, hhi, hbit⟩
    exact ⟨b - 16, by omega, by rwa [Nat.add_sub_cancel' hlo]⟩

theorem povl_iff_lineRow (line : List Byte) :
    (List.range 3).any (fun j => linePair (lineWordOf line) j && linePair (lineWordOf line) (j + 1)) = true ↔ lineRow line 3 := by
  simp [lineRow, linePair]

/-- A test of every pair of a line. -/
theorem any_pairs_iff (line : List Byte) (p : Nat → Bool) :
    ((List.range 4).filter (fun j => linePair (lineWordOf line) j)).any p = true ↔
      ∃ j, j < 4 ∧ (lineWordOf line).getLsbD (10 + j) = true ∧ p j = true := by
  simp [linePair]

theorem toNat_opcOf_div (w : BitVec 96) : (opcOf w).toNat / 64 = w.toNat / 2 ^ 92 := by
  have := w.isLt
  simp only [opcOf, BitVec.extractLsb'_toNat, Nat.shiftRight_eq_div_pow]
  omega

theorem pmark_iff_lineRow (line : List Byte) :
    ((List.range 4).filter (fun j => linePair (lineWordOf line) j)).any
      (fun j => lineTgt (lineWordOf line) (j + 1) || lineReg (lineWordOf line) (j + 1)) = true ↔ lineRow line 4 := by
  simp only [any_pairs_iff, lineRow, lineTgt, lineReg, Bool.or_eq_true]

theorem pstall_iff_lineRow (line : List Byte) :
    ((List.range 4).filter (fun j => linePair (lineWordOf line) j)).any
      (fun j => (Hdr.ofWord (slotWordOf line (j + 1))).stall ≠ 0#4) = true ↔ lineRow line 5 := by
  simp only [any_pairs_iff, decide_eq_true_eq]
  rfl

theorem pclass_iff_lineRow (line : List Byte) :
    let cls := fun k => (opcOf (slotWordOf line k)).toNat / 64
    ((List.range 4).filter (fun j => linePair (lineWordOf line) j)).any
      (fun j => cls j == 0xD || cls j == 0xE || cls (j + 1) == 0xD || cls (j + 1) == 0xE || cls j == 7) = true ↔ lineRow line 6 := by
  simp only [any_pairs_iff, lineRow, toNat_opcOf_div, Bool.or_eq_true, beq_iff_eq, or_assoc]

/-- R38 has six rows of format. -/
theorem forall_not_lineRow {line : List Byte} (h1 : ¬lineRow line 1) (h2 : ¬lineRow line 2) (h3 : ¬lineRow line 3) (h4 : ¬lineRow line 4)
    (h5 : ¬lineRow line 5) (h6 : ¬lineRow line 6) : ∀ sub, ¬lineRow line sub
  | 0 => id
  | 1 => h1
  | 2 => h2
  | 3 => h3
  | 4 => h4
  | 5 => h5
  | 6 => h6
  | _ + 7 => id

/-- What the checks of a whole line answer: the parity first, then a row of R38, or none. -/
theorem lineFault_cases {line : List Byte} (hlen : line.length = 64) :
    (lineFault line = some 0 ∧ ∃ i, i < 8 ∧ ¬groupEven line i) ∨
    (∃ sub, sub ≠ 0 ∧ lineFault line = some sub ∧ (∀ i, i < 8 → groupEven line i) ∧ lineRow line sub) ∨
    (lineFault line = none ∧ (∀ i, i < 8 → groupEven line i) ∧ ∀ sub, ¬lineRow line sub) := by
  have heven (h : ¬lineParity line ≠ (lineWordOf line).extractLsb' 24 8) := (lineParity_eq_par_iff hlen).mp (not_not.mp h)
  simp only [lineFault]
  split_ifs with hpar h1 h2 h3 h4 h5 h6
  · rw [Ne, lineParity_eq_par_iff hlen] at hpar
    exact .inl ⟨rfl, by simpa using hpar⟩
  · exact .inr (.inl ⟨1, by decide, rfl, heven hpar, (lfmt_iff_lineRow line).mp h1⟩)
  · exact .inr (.inl ⟨2, by decide, rfl, heven hpar, (lrsv_iff_lineRow line).mp h2⟩)
  · exact .inr (.inl ⟨3, by decide, rfl, heven hpar, (povl_iff_lineRow line).mp h3⟩)
  · exact .inr (.inl ⟨4, by decide, rfl, heven hpar, (pmark_iff_lineRow line).mp h4⟩)
  · exact .inr (.inl ⟨5, by decide, rfl, heven hpar, (pstall_iff_lineRow line).mp h5⟩)
  · exact .inr (.inl ⟨6, by decide, rfl, heven hpar, (pclass_iff_lineRow line).mp h6⟩)
  · exact .inr (.inr ⟨rfl, heven hpar, forall_not_lineRow (mt (lfmt_iff_lineRow line).mpr h1) (mt (lrsv_iff_lineRow line).mpr h2)
      (mt (povl_iff_lineRow line).mpr h3) (mt (pmark_iff_lineRow line).mpr h4) (mt (pstall_iff_lineRow line).mpr h5)
      (mt (pclass_iff_lineRow line).mpr h6)⟩)

theorem lineChecks : LineChecks := by
  intro line hlen
  obtain ⟨hfault, i, hi, hodd⟩ | ⟨sub, hsub, hfault, heven, hrow⟩ | ⟨hfault, heven, hrows⟩ := lineFault_cases hlen
  · exact ⟨iff_of_true hfault ⟨i, hi, hodd⟩, iff_of_false (by simp [hfault]) fun h => hodd (h.1 i hi), by grind⟩
  · exact ⟨iff_of_false (by grind) (by grind), iff_of_false (by simp [hfault]) fun h => h.2 sub hrow, by grind⟩
  · exact ⟨iff_of_false (by simp [hfault]) (by grind), iff_of_true hfault ⟨heven, hrows⟩, by simp [hfault]⟩

/-! ## Targets (R34, R39, R40, R58) -/

theorem canonical_iff (pc : DWord) : canonical pc.toNat = true ↔ pc.toNat / 2 ^ 57 = if pc.getLsbD 56 then 127 else 0 := by
  have hlt := pc.isLt
  have h56 : pc.getLsbD 56 = decide (pc.toNat / 2 ^ 56 % 2 = 1) := by
    rw [← BitVec.testBit_toNat, Nat.testBit_eq_decide_div_mod_eq]
  rw [h56]
  simp only [canonical, bitsOf, Nat.shiftRight_eq_div_pow, Bool.or_eq_true, beq_iff_eq, decide_eq_true_eq]
  split <;> omega

theorem pcSlot_eq_mod (pc : DWord) : pcSlot pc = pc.toNat % 8 := rfl

/-- The PCs that R34 admits. -/
theorem pcOk_iff (pc : DWord) : pcOk pc = true ↔
    (pc.toNat / 2 ^ 57 = if pc.getLsbD 56 then 127 else 0) ∧ pc.toNat / 8 % 8 = 0 ∧ pc.toNat % 8 ≤ 4 := by
  have hbits : bitsOf pc.toNat 5 3 = pc.toNat / 8 % 8 := by simp [bitsOf, Nat.shiftRight_eq_div_pow]
  rw [← canonical_iff, pcOk, hbits, pcSlot_eq_mod]
  simp [and_assoc]

section Target
variable {s : State} {core asid : Nat} {pc : DWord} {mask : Mask} {tgt : Bool}

theorem checkTarget_of_bad {sub : Nat} (h : s.fetchLine core asid (pcLine pc) = .bad sub) :
    s.checkTarget core asid pc mask tgt = .error (.raise { sysCause 4 sub 0 pc mask with atIssue := true }) := by
  simp only [State.checkTarget, h]

theorem checkTarget_of_wait (h : s.fetchLine core asid (pcLine pc) = .wait) : s.checkTarget core asid pc mask tgt = .error .hold := by
  simp only [State.checkTarget, h]

theorem checkTarget_of_not_pcOk (hpc : pcOk pc = false) (hbad : ∀ sub, s.fetchLine core asid (pcLine pc) ≠ .bad sub)
    (hwait : s.fetchLine core asid (pcLine pc) ≠ .wait) : s.checkTarget core asid pc mask tgt = .error (.raise (cfi pc mask)) := by
  cases h : s.fetchLine core asid (pcLine pc) with
  | bad sub => exact absurd h (hbad sub)
  | wait => exact absurd h hwait
  | ok line => simp [State.checkTarget, h, hpc]
  | xlate f => simp [State.checkTarget, h, hpc]
  | poison => simp [State.checkTarget, h, hpc]

theorem checkTarget_of_xlate {f : XFail} (hpc : pcOk pc = true) (h : s.fetchLine core asid (pcLine pc) = .xlate f) (hlost : f.lost = none) :
    s.checkTarget core asid pc mask tgt = .error (.raise (xlateCause f.sub (pcLine pc) mask)) := by
  simp [State.checkTarget, h, hpc, hlost]

theorem checkTarget_of_poison (hpc : pcOk pc = true) (h : s.fetchLine core asid (pcLine pc) = .poison) :
    s.checkTarget core asid pc mask tgt = .error (.raise (poisonCause (pcLine pc) mask)) := by
  simp [State.checkTarget, h, hpc]

theorem checkTarget_of_ok {line : List Byte} (hpc : pcOk pc = true) (h : s.fetchLine core asid (pcLine pc) = .ok line) :
    s.checkTarget core asid pc mask tgt =
      if tgt = true ∧ (lineWordOf line).getLsbD (pc.toNat % 8) = false then .error (.raise (cfi pc mask)) else .ok line := by
  simp [State.checkTarget, h, hpc, lineTgt, pcSlot_eq_mod]

end Target

theorem transferTarget : TransferTarget := by
  intro s core asid pc mask tgt ok got
  have hok : pcOk pc = true ↔ ok := pcOk_iff pc
  refine ⟨fun _ => checkTarget_of_bad, checkTarget_of_wait, fun hn hbad hwait => ?_, fun h _ => checkTarget_of_xlate (hok.mpr h),
    fun h => checkTarget_of_poison (hok.mpr h), fun h _ => checkTarget_of_ok (hok.mpr h)⟩
  exact checkTarget_of_not_pcOk (Bool.eq_false_iff.mpr (mt hok.mp hn)) hbad hwait

/-- Settles O52: the layout by the bits of a little-endian word, the checks by what `lineFault` can answer, the target by what its line's fetch answers. -/
theorem linesAndTargets : Obligations.LinesAndTargets :=
  ⟨lineLayout, lineChecks, transferTarget⟩

end Sys2Proof.Proofs.Lines
end

