-- ==== Sys2Proof/Proofs/IntegerInstructions.lean ====
section
/-!
PROOF. Proofs/IntegerInstructions.lean: the compares that write a guard bit (05 R116); what qdef and qfree do in every state (05 R119,
R120), and why `Obligations.QueueDefinition` can be neither proved nor refuted of them.
-/

namespace Sys2Proof.Proofs.IntegerInstructions

open Sys2Proof Sys2Proof.Machine Sys2Proof.Claims

/-- An instruction that is not privileged and whose meaning is an issue makes the checks of issue in their order (R58). -/
theorem checked_of_issue {i : Instr} {s : State} {c : Crew} {sp : Spec} {bad : Crew → Bool} {body : Ctx → State → Res Done}
    (hexec : exec i s = issue sp bad body s) (hdeny : sp.deny = false) (hpriv : sp.priv = false) : Checked i s c sp bad := by
  intro hc
  refine ⟨fun hheld => ?_, fun hmay => ?_⟩
  · rw [hexec]
    simp [issue, hc, hheld]
  · rw [hexec]
    exact issue_checked body hc hdeny hpriv hmay

/-! ## The compares (R116) -/

/-- The row's instruction compares with the Boolean test `p`, which decides the row's predicate. -/
structure ComparesBy (r : RowCmp) (p : Word → Word → Bool) : Prop where
  exec_eq : ∀ f s, exec (r.instr f) s = runCmp f p s
  test_iff : ∀ a y, p a y = true ↔ r.test a y

theorem compareRows_comparesBy : ∀ r ∈ compareRows, ∃ p, ComparesBy r p := by
  simp only [compareRows, List.forall_mem_cons]
  exact ⟨⟨_, exec_cmpEqB32, by simp⟩, ⟨_, exec_cmpNeB32, by simp⟩,
    ⟨_, exec_cmpLtI32, by simp⟩, ⟨_, exec_cmpLeI32, by simp⟩, ⟨_, exec_cmpGtI32, by simp⟩, ⟨_, exec_cmpGeI32, by simp⟩,
    ⟨_, exec_cmpLtN32, by simp⟩, ⟨_, exec_cmpLeN32, by simp⟩, ⟨_, exec_cmpGtN32, by simp⟩, ⟨_, exec_cmpGeN32, by simp⟩,
    by simp⟩

/-- The second comparand of a compare in a lane: the immediate, or the register that the low byte of IMM32 names. -/
def comparand (x : Ctx) (s : State) (f : FormI) (l : Nat) : Word :=
  if cmpImmediate f then f.imm else rowAt (x.row s (f.imm.toNat % 256)) l

/-- What a 32-bit compare writes: bit BIT of register D, in the lanes of `act`. -/
theorem runCmp_eq (f : FormI) (p : Word → Word → Bool) (s : State) :
    runCmp f p s = issue (cmpSpec f) (fun _ => cmpBad f)
      (justWrite fun x s => cmpWrite x f (fun l => p (rowAt (x.row s f.a.toNat) l) (comparand x s f l))) s := by
  have hreg : (cmpRegB f).toNat = f.imm.toNat % 256 := BitVec.toNat_setWidth 8 f.imm
  have hrow : ∀ (x : Ctx) (s : State) (l : Nat),
      (if cmpImmF f then f.imm else rowAt (if cmpImmF f then [] else x.row s (cmpRegB f).toNat) l) = comparand x s f l := by
    intro x s l
    rw [comparand, hreg, show cmpImmediate f = cmpImmF f from rfl]
    split <;> rfl
  simp only [runCmp, hrow]
  rfl

/-- A lane of the row that a compare writes holds the bit exactly where the test holds. -/
theorem guardBit_eq_iff (b : Bool) (n : Nat) : (if b then 1#32 <<< (n % 32) else 0#32) = 1#32 <<< (n % 32) ↔ b = true := by
  have hne : 0#32 ≠ 1#32 <<< (n % 32) := by
    intro h
    simpa [Nat.mod_lt] using congrArg (BitVec.getLsbD · (n % 32)) h
  cases b <;> simp [hne]

theorem ComparesBy.holds {r : RowCmp} {p : Word → Word → Bool} (h : ComparesBy r p) : r.Holds := by
  intro f s c hi hs
  rw [h.exec_eq, runCmp_eq]
  obtain ⟨t, hnext, hdone⟩ := justWrite_completes hi hs
  refine ⟨t, hnext, _, fun l hl => ?_, hdone⟩
  rw [rowAt_mkRow _ hl]
  exact ⟨(guardBit_eq_iff _ _).trans (h.test_iff _ _), ite_eq_or_eq _ _ _⟩

/-- Settles O4: every compare is an issue that writes one bit of a guard register, in the lanes of `act`. -/
theorem compareWritesGuardBit : Obligations.CompareWritesGuardBit := by
  intro r hr
  obtain ⟨p, hp⟩ := compareRows_comparesBy r hr
  exact ⟨hp.holds, fun f s c => checked_of_issue ((hp.exec_eq f s).trans (runCmp_eq f p s)) rfl rfl⟩

/-! ## Queue definition (R119, R120) -/

/-- The window that R18 admits, as the model tests it, register by register. -/
theorem windowOk_iff {n q base len : Nat} {qs : List Word} (hlen : 0 < len) :
    windowOk n qs q base len = true ↔
      base + len ≤ n - 8 ∧ ∀ j, j < 8 → j ≠ q → ∀ r, base ≤ r → r < base + len → qHas (qs.getD j 0#32) r = false := by
  have hinside : (List.range len).all (fun i => decide (base + i < n - 8)) = true ↔ base + len ≤ n - 8 := by
    simp only [List.all_eq_true, List.mem_range, decide_eq_true_eq]
    exact ⟨fun h => by have := h (len - 1) (by omega); omega, fun h i hi => by omega⟩
  have hdisjoint : ∀ j, (List.range len).any (fun i => qHas (qs.getD j 0#32) (base + i)) = false ↔
      ∀ r, base ≤ r → r < base + len → qHas (qs.getD j 0#32) r = false := by
    intro j
    simp only [List.any_eq_false, List.mem_range, Bool.not_eq_true]
    refine ⟨fun h r hr hlt => ?_, fun h i hi => h _ (by omega) (by omega)⟩
    have := h (r - base) (by omega)
    rwa [Nat.add_sub_cancel' hr] at this
  simp only [windowOk, Bool.and_eq_true, hinside, List.all_eq_true, List.mem_range, Bool.or_eq_true, beq_iff_eq, Bool.not_eq_true', hdisjoint,
    ne_eq, or_iff_not_imp_left]

/-- An empty queue's state: V, the length less one, and the base (R18). -/
theorem qMake_empty {base len : Nat} (hbase : base < 256) (hlen : len ≤ 16) :
    qMake base len 0 0 = BitVec.ofNat 32 (2 ^ 31 + (len - 1) * 2 ^ 8 + base) := by
  rw [qMake, Nat.mod_eq_of_lt (show len - 1 < 16 by omega), Nat.mod_eq_of_lt hbase]
  rfl

/-- The queues as qdef and qfree find them: those of the crew, a QSTATE that a SETSP has written being the written one (R45, R60). -/
theorem view_queues {sp : Spec} (s : State) (c : Crew) (hsrcs : sp.srcs = []) (hdsts : sp.dsts = []) :
    (s.view c sp).c.queues = queuesAfter s.opening c c.queues := by
  have hq : (queuedFor c sp).1 = c.queues := by
    simp [queuedFor, popsOf, afterPops, pushAll, hsrcs, hdsts]
  rw [← hq]
  show (seenCrew s.opening (issueCrew s.opening c sp)).queues = _
  rw [seenCrew_frame]
  rfl

theorem issuing_queues (s : State) (c : Crew) (sp : Spec) : (s.issuing c sp).queues = (s.view c sp).c.queues := by
  show _ = (seenCrew s.opening (issueCrew s.opening c sp)).queues
  rw [seenCrew_frame]
  rfl

/-- Crew `e` with the queues `qs`, which the instruction of order `ord` in slot `k` has named (R366). -/
def withQueues (e : Crew) (k : Bool) (ord : Nat) (qs : List Word) : Crew :=
  { e.setSlot k { e.slot k with qnamed := some ord } with queues := qs }

theorem nameQueues_eq_withQueues (e : Crew) (k : Bool) (ord : Nat) (qs : List Word) :
    nameQueues { e with queues := qs } k ord = withQueues e k ord qs := by
  cases k <;> rfl

theorem slot_withQueues_st (e : Crew) (k j : Bool) (ord : Nat) (qs : List Word) : ((withQueues e k ord qs).slot j).st = (e.slot j).st := by
  cases k <;> cases j <;> rfl

theorem depth_withQueues (e : Crew) (k : Bool) (ord : Nat) (qs : List Word) : (withQueues e k ord qs).depth = e.depth := by
  cases k <;> rfl

theorem id_withQueues (e : Crew) (k : Bool) (ord : Nat) (qs : List Word) : (withQueues e k ord qs).id = e.id := by
  cases k <;> rfl

/-- An instruction whose effect is to set QSTATE of queue `q` completes with that queue set and every other as the instruction found it. -/
theorem setQueue_completes {s : State} {c : Crew} {sp : Spec} {bad : Crew → Bool} {body : Ctx → State → Res Done} {q : Nat} {v : Word}
    (h : Issues s c sp bad) (hs : Steady s c)
    (hb : body (s.view c sp) (s.issued c sp) =
      .ok { s := (s.issued c sp).modCrew c.id (fun e => nameQueues { e with queues := e.queues.set q v } s.cur.slot s.order), wr := [], ctl := false }) :
    Answers (issue sp bad body s) (fun t => Completed s s.opening t
      (withQueues (s.issuing c sp) s.cur.slot s.order ((s.view c sp).c.queues.set q v)) sp []) := by
  rw [← issuing_queues]
  simp only [nameQueues_eq_withQueues] at hb
  exact issue_completes (m := s.issued c sp) (g := fun e => withQueues e s.cur.slot s.order (e.queues.set q v)) h hs hb rfl rfl
    (fun _ => id_withQueues ..) (fun _ _ => slot_withQueues_st ..) (fun _ => depth_withQueues ..)

/-- The issue entry of qdef and qfree: they name no operand. -/
def queueSpec (f : FormI) : Spec := specI f [] [] (.fixed 2)
/-- Check 6 of qdef (R119). -/
def qdefBad (f : FormI) (_ : Crew) : Bool := f.ga ≠ Guard.none || f.a ≠ 0#8 || f.imm.toNat / 16 ≠ 0 || f.sub.toNat / 8 ≠ 0
/-- Check 6 of qfree (R120). -/
def qfreeBad (f : FormI) (_ : Crew) : Bool := f.ga ≠ Guard.none || f.a ≠ 0#8 || f.d ≠ 0#8 || f.imm ≠ 0#32 || f.sub.toNat / 8 ≠ 0
/-- The number of the queue that qdef or qfree names. -/
def queueOf (f : FormI) : Nat := f.sub.toNat % 8
/-- The length of the window of a qdef. -/
def windowLen (f : FormI) : Nat := f.imm.toNat % 16 + 1

theorem qdef_completes {f : FormI} {s : State} {c : Crew} (h : Issues s c (queueSpec f) (qdefBad f)) (hs : Steady s c)
    (hok : windowOk c.n (s.view c (queueSpec f)).c.queues (queueOf f) f.d.toNat (windowLen f) = true) :
    Answers (exec (.qdef f) s) (fun t => Completed s s.opening t
      (withQueues (s.issuing c (queueSpec f)) s.cur.slot s.order ((s.view c (queueSpec f)).c.queues.set (queueOf f)
        (BitVec.ofNat 32 (2 ^ 31 + (windowLen f - 1) * 2 ^ 8 + f.d.toNat)))) (queueSpec f) []) := by
  have hlen : windowLen f ≤ 16 := by unfold windowLen; omega
  rw [← qMake_empty f.d.isLt hlen, exec_qdef, execQdef]
  refine setQueue_completes h hs ?_
  have hn : (s.view c (queueSpec f)).c.n = c.n := by rw [view_c_frame]
  rw [← hn] at hok
  exact if_pos hok

theorem qdef_raises {f : FormI} {s : State} {c : Crew} (h : Issues s c (queueSpec f) (qdefBad f))
    (hbad : windowOk c.n (s.view c (queueSpec f)).c.queues (queueOf f) f.d.toNat (windowLen f) = false) :
    exec (.qdef f) s =
      .next (s.opening.takeCause (queueCause (queueOf f) ((s.view c (queueSpec f)).c.queues.getD (queueOf f) 0#32))) := by
  have hn : (s.view c (queueSpec f)).c.n = c.n := by rw [view_c_frame]
  rw [← hn, ← Bool.not_eq_true] at hbad
  rw [exec_qdef, execQdef]
  refine issue_stopped (e := .raise (queueCause (queueOf f) ((s.view c (queueSpec f)).c.queues.getD (queueOf f) 0#32))) h ?_
  exact if_neg hbad

theorem qfree_completes {f : FormI} {s : State} {c : Crew} (h : Issues s c (queueSpec f) (qfreeBad f)) (hs : Steady s c) :
    Answers (exec (.qfree f) s) (fun t => Completed s s.opening t
      (withQueues (s.issuing c (queueSpec f)) s.cur.slot s.order ((s.view c (queueSpec f)).c.queues.set (queueOf f) 0#32)) (queueSpec f) []) := by
  rw [exec_qfree, execQfree]
  exact setQueue_completes h hs rfl

/-! ## A QSTATE that a SETSP is writing (R60)

`Obligations.QueueDefinition` takes the queues before the instruction from the crew at issue, which may still see QSTATE as it was before
a SETSP under way; the instruction itself starts from the QSTATE that the SETSP has written (`queuesAfter`). Which of the two the crew sees
is a value of `Config.free`, an opaque constant. If every such value is even, no old QSTATE is seen and the statement holds
(`queueDefinition_of_free_even`); if the one of the state `setspState` is odd, it fails (`not_queueDefinition_of_free_odd`). Nothing
decides between the two, so the statement is neither provable nor refutable. -/

/-- A special register reads as it stands where no free choice shows the value before a write under way. -/
theorem seenSr_of_free_even {s : State} (hfree : ∀ tag, Config.free s.free tag % 2 = 0) (c : Crew) {sr : Nat} (hsr : sr ≠ 0x19) (now : List Row) :
    seenSr s c sr now = now := by
  have hpick : ∀ tag, s.pick tag 2 = 0 := hfree
  unfold seenSr
  generalize c.srOld = olds
  induction olds with
  | nil => rfl
  | cons o olds _ => simp [hsr, hpick]

/-- Where the free choices let no SETSP under way be seen as it was, an issue without operands leaves the queues as the crew sees them. -/
theorem queuesAfter_of_free_even {s : State} {c : Crew} (hfree : ∀ tag, Config.free s.free tag % 2 = 0) (hc : s.issuer? = some c) :
    queuesAfter s c c.queues = c.queues := by
  obtain ⟨c0, hc0, rfl⟩ := Option.map_eq_some_iff.mp hc
  by_cases hold : (leftCrew s c0).srOld.isEmpty
  · simp [startCrew, queuesAfter, hold]
  · have hstart : startCrew s c0 = { leftCrew s c0 with queues := (List.range 8).map (fun i => (leftCrew s c0).queues.getD i 0#32) } := by
      simp only [startCrew, if_neg hold]
      congr 1
      refine List.map_congr_left fun i hi => ?_
      rw [seenSr_of_free_even hfree _ (by simp at hi; omega)]
      rfl
    rw [hstart]
    simp only [queuesAfter, if_neg hold, hc0]
    exact List.map_congr_left fun i _ => if_pos trivial

/-- What the statement needs: an issue without operands leaves the queues as the issuing crew sees them. -/
theorem queueDefinition_of_issuer (hq : ∀ (s : State) (c : Crew), s.opening.issuer? = some c → queuesAfter s.opening c c.queues = c.queues) :
    Obligations.QueueDefinition := by
  intro f s c sp q e named base len admitted badDef badFree
  have hview (hc : s.opening.issuer? = some c) : (s.view c (queueSpec f)).c.queues = c.queues :=
    (view_queues s c rfl rfl).trans (hq s c hc)
  have hwindow : windowOk c.n c.queues (queueOf f) f.d.toNat (windowLen f) = true ↔ admitted := windowOk_iff (Nat.succ_pos _)
  refine ⟨checked_of_issue (exec_qdef f s) rfl rfl, checked_of_issue (exec_qfree f s) rfl rfl,
    fun hs hi => ⟨fun hok => ?_, fun hno => ?_⟩, fun hs hi => ?_⟩
  · have h := qdef_completes hi hs
    rw [hview hi.crew] at h
    exact h (hwindow.mpr hok)
  · have h := qdef_raises hi
    rw [hview hi.crew] at h
    exact h (Bool.eq_false_iff.mpr (mt hwindow.mp hno))
  · have h := qfree_completes hi hs
    rw [hview hi.crew] at h
    exact h

theorem queueDefinition_of_free_even (hfree : ∀ stamp tag, Config.free stamp tag % 2 = 0) : Obligations.QueueDefinition :=
  queueDefinition_of_issuer fun s _ hc => queuesAfter_of_free_even (hfree s.opening.free) hc

/-- The queues of the issuing crew once its instruction has completed. -/
theorem completed_queues {s m t : State} {e c : Crew} {sp : Spec} {wr : List Wr} {i : Nat} (h : Completed s m t e sp wr) (hid : e.id = i)
    (hc : s.crew? i = some c) : (t.crew? i).map Crew.queues = some e.queues := by
  obtain ⟨c', rfl, hend⟩ := h
  have hid' : c'.id = i := by rw [hend.frame]; exact hid
  have hfind : List.find? (fun x => x.id == i) (s.crews.map (fun x => if x.id == e.id then c' else x)) = some c' := by
    rw [hid]
    exact find_map_id hc hid'
  rw [State.crew?, hfind, Option.map_some, hend.frame]

/-- QSTATE of an empty queue of one register at v10. -/
def queueAt10 : Word := 0x8000000A#32
/-- A crew that has written `now` to QSTATE of queue 1, which was undefined, by a SETSP that takes until cycle 4. -/
def setspCrew (now : Word) : Crew :=
  { Crew.start 1 1 1 1 0x10000#64 with
    queues := [0#32, now, 0#32, 0#32, 0#32, 0#32, 0#32, 0#32]
    srOld := [{ sr := 0x11, rows := [[0#32]], due := 4 }] }
/-- That crew about to issue in cycle 0, queue 1 having been defined by its SETSP. -/
def setspState : State :=
  { State.reset with crews := [setspCrew queueAt10], cur := { Cursor.idle with crew := some 1, pc := 0x10000#64, next := 0x10001#64 } }
/-- qfree of queue 7. -/
def qfree7 : FormI := { h := hd 15#4, ga := Guard.none, d := 0, a := 0, imm := 0, sub := 7 }

/-- qfree leaves queue 1 as the SETSP has defined it, where the crew, and the statement with it, sees it still undefined. -/
theorem not_queueDefinition_of_free_odd (hfree : Config.free 1 [21, 1, 0x11, 4] % 2 = 1) : ¬ Obligations.QueueDefinition := by
  intro h
  have hpick : setspState.opening.pick [21, 1, 0x11, 4] 2 = 1 := hfree
  have hc : setspState.opening.issuer? = some (setspCrew 0#32) := by
    show some ({ setspCrew queueAt10 with queues := [0#32,
      srWord (if setspState.opening.pick [21, 1, 0x11, 4] 2 = 1 then [[0#32]] else [[queueAt10]]) 0, 0#32, 0#32, 0#32, 0#32, 0#32, 0#32] } : Crew) = _
    rw [if_pos hpick]
    rfl
  have hi : Issues setspState (setspCrew 0#32) (queueSpec qfree7) (qfreeBad qfree7) :=
    ⟨hc, by decide +kernel, rfl, by decide, by decide, by decide, by decide⟩
  have hs : Steady setspState (setspCrew 0#32) := ⟨rfl, .inr rfl⟩
  obtain ⟨_, _, _, hqfree⟩ := h qfree7 setspState (setspCrew 0#32)
  obtain ⟨t, ht, hclaim⟩ := hqfree hs hi
  obtain ⟨t', ht', hdone⟩ := qfree_completes hi hs
  obtain rfl : t = t' := by simpa [ht] using ht'
  have hseen : (t.crew? 1).map Crew.queues = some (List.replicate 8 0#32) := completed_queues hclaim rfl rfl
  have hset : (t.crew? 1).map Crew.queues = some ((List.replicate 8 0#32).set 1 queueAt10) := completed_queues hdone rfl rfl
  exact absurd (hseen.symm.trans hset) (by decide)

end Sys2Proof.Proofs.IntegerInstructions
end

