-- ==== Sys2Proof/Proofs/FloatInstructions.lean ====
section
/-!
PROOF. Proofs/FloatInstructions.lean: the generator, rngnext and rngseed (06 R140, R141).
-/

namespace Sys2Proof.Proofs.FloatInstructions

open Sys2Proof Sys2Proof.Machine Sys2Proof.Proofs.IntegerInstructions

/-! ## The generator (R140, R141) -/

/-- A write of whole words replaces those of the masked lanes. -/
theorem rowAt_mergeRow_full (old new : Row) (m : Mask) {l : Nat} (hl : l < 64) :
    rowAt (mergeRow old new m 0xFFFFFFFF#32) l = if m.getLsbD l then rowAt new l else rowAt old l := by
  have hnone : ~~~(0xFFFFFFFF#32) = 0#32 := by decide
  have hall : rowAt new l &&& 0xFFFFFFFF#32 = rowAt new l := BitVec.and_allOnes
  rw [mergeRow, rowAt_mkRow _ hl, hnone, hall, BitVec.and_zero, BitVec.zero_or]

/-- The bookkeeping of an issue leaves RNGSEED as the instruction sees it. -/
theorem issuing_rng (s : State) (c : Crew) (sp : Spec) : (s.issuing c sp).rng = (s.view c sp).c.rng := by
  rw [issuing_frame, view_c_frame]

/-- Crew `e` with RNGSEED of each lane of `act` set. -/
def withSeeds (act : Mask) (seed : Nat → Word) (e : Crew) : Crew :=
  { e with rng := mergeRow e.rng (mkRow seed) act 0xFFFFFFFF#32 }

theorem slot_withSeeds (act : Mask) (seed : Nat → Word) (e : Crew) (k : Bool) : (withSeeds act seed e).slot k = e.slot k := by
  cases k <;> rfl

theorem rowAt_withSeeds_rng (act : Mask) (seed : Nat → Word) (e : Crew) {l : Nat} (hl : l < 64) :
    rowAt (withSeeds act seed e).rng l = if act.getLsbD l then seed l else rowAt e.rng l := by
  rw [withSeeds, rowAt_mergeRow_full _ _ _ hl, rowAt_mkRow _ hl]

/-- The body of an instruction that sets RNGSEED of the lanes of `act` and writes registers. -/
def setSeeds (seed : Ctx → State → Nat → Word) (wr : Ctx → State → List Wr) : Ctx → State → Res Done :=
  fun x s => .ok { s := s.modCrew x.id (withSeeds x.act (seed x s)), wr := wr x s, ctl := false }

/-- Such an instruction completes with the states of just those lanes changed. -/
theorem setSeeds_completes {s : State} {c : Crew} {sp : Spec} {bad : Crew → Bool} {seed : Ctx → State → Nat → Word} {wr : Ctx → State → List Wr}
    (h : Issues s c sp bad) (hs : Steady s c) :
    let x := s.view c sp
    Answers (issue sp bad (setSeeds seed wr) s) (fun t => ∃ rng,
      Completed s s.opening t { s.issuing c sp with rng := rng } sp (wr x (s.issued c sp)) ∧
      ∀ l, l < 64 → rowAt rng l = if x.act.getLsbD l then seed x (s.issued c sp) l else rowAt x.c.rng l) := by
  intro x
  obtain ⟨t, hnext, hdone⟩ := issue_completes (body := setSeeds seed wr) (m := s.issued c sp)
    (g := withSeeds x.act (seed x (s.issued c sp))) h hs rfl rfl rfl
    (fun _ => rfl) (fun _ _ => by rw [slot_withSeeds]) (fun _ => rfl)
  refine ⟨t, hnext, _, hdone, fun l hl => ?_⟩
  rw [← issuing_rng]
  exact rowAt_withSeeds_rng _ _ _ hl

/-- rngnext draws once in each lane of `act` and writes the low half of the state that the draw leaves. -/
theorem exec_rngnext_eq_issue (f : FormR) (s : State) :
    exec (.rngnext f) s = issue (specR f ⟨none, none, none⟩ [one f.d] (.fixed 2)) (RUse.bad ⟨none, none, none⟩ f)
      (setSeeds (fun x _ l => rngDraw (rowAt x.c.rng l))
        (fun x _ => [Wr.full (x.d 0) x.act (fun l => BitVec.ofNat 32 ((rngDraw (rowAt x.c.rng l)).toNat % 2 ^ 16))])) s := by
  have hwrite : ∀ (x : Ctx) d, Wr.full d x.act (fun l => BitVec.ofNat 32 ((rngDraw (rowAt x.c.rng l)).toNat % 2 ^ 16)) =
      Wr.full d x.act (fun l => BitVec.ofNat 32 ((rowAt (mkRow fun l => rngDraw (x.seed l)) l).toNat % 65536)) := by
    intro x d
    refine congrArg (Wr.mk d · x.act 0xFFFFFFFF#32) (mkRow_congr fun l hl => ?_)
    rw [rowAt_mkRow _ hl]
    rfl
  simp only [hwrite]
  rfl

/-- The seed computed in words of 32 bits is (a + l × b) mod 2^32. -/
theorem lo32_add_mul_lo32 (a b : DWord) (l : Nat) :
    lo32 a + BitVec.ofNat 32 l * lo32 b = BitVec.ofNat 32 (a.toNat + l * b.toNat) := by
  simp only [lo32, BitVec.ofNat_add, BitVec.ofNat_mul, BitVec.ofNat_toNat]

/-- rngseed seeds lane l of `act` with (a + l × b) mod 2^32 and writes no register. -/
theorem exec_rngseed_eq_issue (f : FormR) (s : State) :
    let u : RUse := ⟨some .b32, some .b32, none⟩
    exec (.rngseed f) s = issue (specR f u [] (.fixed 2)) (fun c => u.bad f c || (!c.perm && bitsOf f.md.toNat 11 4 ≠ 0) || f.d ≠ 0#8)
      (setSeeds (fun x s l => BitVec.ofNat 32 ((x.opA s u f l).toNat + l * (x.opB s u f l).toNat)) (fun _ _ => [])) s := by
  simp only [← lo32_add_mul_lo32]
  rfl

/-- Settles O9: rngnext and rngseed are issues whose effect is to set RNGSEED of the lanes of `act`. -/
theorem generatorInstructions : Obligations.GeneratorInstructions := by
  refine ⟨fun f s c => ⟨?_, fun hi hs => ?_⟩, fun f s c => ⟨?_, fun hi hs => ?_⟩⟩
  · exact checked_of_issue (exec_rngnext_eq_issue f s) rfl rfl
  · rw [exec_rngnext_eq_issue]
    exact setSeeds_completes hi hs
  · exact checked_of_issue (exec_rngseed_eq_issue f s) rfl rfl
  · rw [exec_rngseed_eq_issue]
    exact setSeeds_completes hi hs

end Sys2Proof.Proofs.FloatInstructions
end

