-- ==== Sys2Proof/Proofs/ControlInstructions.lean ====
section
/-!
PROOF. Proofs/ControlInstructions.lean: pause and nop (07 R157, R158).
-/

namespace Sys2Proof.Proofs.ControlInstructions

open Sys2Proof Sys2Proof.Machine Sys2Proof.Proofs.IntegerInstructions

/-- Crew `e` after a pause of `n` cycles issued in cycle `now`: a demotion that is under way keeps the cycle in which it began. -/
def paused (n now : Nat) (e : Crew) : Crew :=
  { e with demote := n, demotedFrom := if n = 0 then none else some (e.demotedFrom.getD now) }

theorem paused_zero (now : Nat) (e : Crew) : paused 0 now e = { e with demote := 0, demotedFrom := none } := rfl

theorem paused_of_ne_zero {n : Nat} (hn : n ≠ 0) (now : Nat) (e : Crew) :
    paused n now e = { e with demote := n, demotedFrom := some (e.demotedFrom.getD now) } := by
  rw [paused, if_neg hn]

theorem slot_paused (n now : Nat) (e : Crew) (k : Bool) : (paused n now e).slot k = e.slot k := by
  cases k <;> rfl

/-- The bookkeeping of an issue leaves the demotion of the crew as it is. -/
theorem issuing_demotedFrom (s : State) (c : Crew) (sp : Spec) : (s.issuing c sp).demotedFrom = c.demotedFrom := by
  rw [issuing_frame]

/-- The issue entry of pause: it names no operand and has no latency. -/
def pauseSpec (f : FormI) : Spec := specI f [] [] .none
/-- Check 6 of pause (R157). -/
def pauseBad (f : FormI) (_ : Crew) : Bool := f.d ≠ 0#8 || f.a ≠ 0#8 || f.imm.toNat / 65536 ≠ 0 || f.sub ≠ 0#7
/-- The number of cycles that a pause names. -/
def pauseCycles (f : FormI) : Nat := f.imm.toNat % 65536

/-- The body of pause: with no lane in `act` nothing, else the crew is paused. -/
def pauseBody (f : FormI) : Ctx → State → Res Done := fun x s =>
  if x.act = 0#64 then .ok { s := s, wr := [], ctl := false }
  else .ok { s := s.modCrew x.id (paused (pauseCycles f) s.cycle), wr := [], ctl := false }

theorem exec_pause_eq_issue (f : FormI) (s : State) : exec (.pause f) s = issue (pauseSpec f) (pauseBad f) (pauseBody f) s := rfl

theorem pause_completes_of_no_lane {f : FormI} {s : State} {c : Crew} (hi : Issues s c (pauseSpec f) (pauseBad f)) (hs : Steady s c)
    (hact : (s.view c (pauseSpec f)).act = 0#64) :
    Answers (exec (.pause f) s) (fun t => Completed s s.opening t (s.issuing c (pauseSpec f)) (pauseSpec f) []) := by
  rw [exec_pause_eq_issue]
  exact effect_completes (m := s.issued c (pauseSpec f)) hi hs (if_pos hact) rfl rfl

theorem pause_completes_of_lanes {f : FormI} {s : State} {c : Crew} (hi : Issues s c (pauseSpec f) (pauseBad f)) (hs : Steady s c)
    (hact : (s.view c (pauseSpec f)).act ≠ 0#64) :
    Answers (exec (.pause f) s) (fun t => Completed s s.opening t
      (paused (pauseCycles f) s.cycle (s.issuing c (pauseSpec f))) (pauseSpec f) []) := by
  rw [exec_pause_eq_issue]
  exact issue_completes (m := s.issued c (pauseSpec f)) hi hs (if_neg hact) rfl rfl
    (fun _ => rfl) (fun _ _ => by rw [slot_paused]) (fun _ => rfl)

/-- nop is an issue that writes no register; its latency of one cycle is that of the flag it counts. -/
theorem exec_nop_eq_issue (f : FormS) (s : State) :
    exec (.nop f) s = issue (specS f [] [] (.fixed 1)) (fun _ => f.body ≠ 0#55) (justWrite fun _ _ => []) s := rfl

/-- Settles O15: pause with a lane in `act` sets the demotion of the crew and nothing else, and nop is an issue without effect. -/
theorem pauseAndNop : Obligations.PauseAndNop := by
  refine ⟨fun f s c => ⟨checked_of_issue (exec_pause_eq_issue f s) rfl rfl, fun hi hs => ?_⟩,
    fun f s c => ⟨checked_of_issue (exec_nop_eq_issue f s) rfl rfl, fun hi hs => ?_⟩⟩
  · split
    · next hact => exact pause_completes_of_no_lane hi hs hact
    · next hact =>
      have hdone := pause_completes_of_lanes hi hs hact
      split
      · next hzero => rwa [show pauseCycles f = 0 from hzero, paused_zero] at hdone
      · next hpos => rwa [paused_of_ne_zero (n := pauseCycles f) hpos, issuing_demotedFrom] at hdone
  · rw [exec_nop_eq_issue]
    exact justWrite_completes hi hs

end Sys2Proof.Proofs.ControlInstructions
end

