-- ==== Sys2Proof/Proofs/MatrixInstructions.lean ====
section
/-!
PROOF. Proofs/MatrixInstructions.lean: instructions that a gate call forbids (10 R216); bucket (09 R209).
-/

namespace Sys2Proof.Proofs.MatrixInstructions

open Sys2Proof Sys2Proof.Machine Sys2Proof.Proofs.IntegerInstructions

/-! ## Instructions that a gate call forbids (R216) -/

/-- A body that a crew in a gate call may not run for any lane. -/
def outsideGate (body : Ctx → State → Res Done) : Ctx → State → Res Done :=
  fun x s => if x.act ≠ 0#64 ∧ x.c.callee then .error (gateForbid x.c) else body x s

theorem view_gates (s : State) (c : Crew) (sp : Spec) : (s.view c sp).c.gates = c.gates := by
  rw [view_c_frame]

theorem callee_iff (c : Crew) : c.callee = true ↔ c.gates ≠ [] := by
  simp [Crew.callee]

theorem gateForbid_congr {c c' : Crew} (h : c.gates = c'.gates) : gateForbid c = .raise (gateCause 7 c'.gateIndex) := by
  rw [gateForbid, Crew.gateIndex, h]
  rfl

/-- In a gate call such an instruction raises GATE with subcode 7, and nothing else is done. -/
theorem outsideGate_raises {s : State} {c : Crew} {sp : Spec} {bad : Crew → Bool} {body : Ctx → State → Res Done}
    (h : Issues s c sp bad) (hact : (s.view c sp).act ≠ 0#64) (hgates : c.gates ≠ []) :
    issue sp bad (outsideGate body) s = .next (s.opening.takeCause (gateCause 7 c.gateIndex)) := by
  have hseen := view_gates s c sp
  have hbody : outsideGate body (s.view c sp) (s.issued c sp) = .error (.raise (gateCause 7 c.gateIndex)) := by
    rw [← gateForbid_congr hseen]
    exact if_pos ⟨hact, (callee_iff _).mpr (hseen ▸ hgates)⟩
  exact issue_stopped h hbody

/-- With no lane in `act`, or outside a gate call, its body is the one given. -/
theorem outsideGate_view {s : State} {c : Crew} {sp : Spec} (body : Ctx → State → Res Done) (m : State)
    (h : (s.view c sp).act = 0#64 ∨ c.gates = []) : outsideGate body (s.view c sp) m = body (s.view c sp) m := by
  refine if_neg fun ⟨hact, hcallee⟩ => ?_
  rw [callee_iff, view_gates] at hcallee
  exact h.elim hact hcallee

/-- There an instruction that only writes registers completes. -/
theorem outsideGate_completes {s : State} {c : Crew} {sp : Spec} {bad : Crew → Bool} {w : Ctx → State → List Wr}
    (h : Issues s c sp bad) (hs : Steady s c) (hout : (s.view c sp).act = 0#64 ∨ c.gates = []) :
    Answers (issue sp bad (outsideGate (justWrite w)) s) (fun t =>
      Completed s s.opening t (s.issuing c sp) sp (w (s.view c sp) (s.issued c sp))) :=
  effect_completes (m := s.issued c sp) h hs (outsideGate_view _ _ hout) rfl rfl

/-! ## bucket (R209) -/

/-- The lanes of a mask that a test picks out, counted. -/
theorem length_filter_maskLanes (m : Mask) (p : Nat → Bool) :
    ((maskLanes m).filter p).length = (List.range 64).countP (fun k => m.getLsbD k && p k) := by
  rw [maskLanes, ← List.countP_eq_length_filter, List.countP_filter]
  simp only [Bool.and_comm]

theorem countP_range_and_lt (p : Nat → Bool) {l n : Nat} (h : l ≤ n) :
    (List.range n).countP (fun k => p k && decide (k < l)) = (List.range l).countP p := by
  induction n, h using Nat.le_induction with
  | base => exact List.countP_congr fun k hk => by simp [List.mem_range.mp hk]
  | succ n hn ih => simp [List.range_succ, ih, Nat.not_lt.mpr hn]

/-- The lanes of a mask below lane `l` that a test picks out, counted. -/
theorem length_filter_maskLanes_lt (m : Mask) (p : Nat → Bool) {l : Nat} (hl : l ≤ 64) :
    (((maskLanes m).filter p).filter (fun k => decide (k < l))).length = (List.range l).countP (fun k => m.getLsbD k && p k) := by
  rw [← countP_range_and_lt _ hl, List.filter_filter, length_filter_maskLanes]
  exact congrArg (List.countP · _) (funext fun k => by rw [Bool.and_comm (decide _), Bool.and_assoc])

/-- bucket's use of its operand fields: A and B hold 32-bit unsigned numbers, C is reserved. -/
def bucketUse : RUse := ⟨some .n32, some .n32, none⟩
/-- The issue entry of bucket: D is a pair. -/
def bucketSpec (f : FormR) : Spec := specR f bucketUse [grp f.d 2] .var
/-- Check 6 of bucket. -/
def bucketBad (f : FormR) (c : Crew) : Bool := bucketUse.bad f c || (!c.perm && f.md ≠ 0#12)
/-- The expert number of a lane. -/
def expert (x : Ctx) (s : State) (f : FormR) (l : Nat) : Nat := (lo32 (x.opA s bucketUse f l)).toNat
/-- The expert count that a lane sees. -/
def experts (x : Ctx) (s : State) (f : FormR) (l : Nat) : Nat := (lo32 (x.opB s bucketUse f l)).toNat
/-- Lane `k` is in `act`, is valid and has the expert number of lane `l`. -/
def sharesExpert (x : Ctx) (s : State) (f : FormR) (l k : Nat) : Bool :=
  x.act.getLsbD k && decide (expert x s f k < experts x s f k) && expert x s f k == expert x s f l
/-- How many lanes below lane `n` share the expert of lane `l`. -/
def sharersBelow (x : Ctx) (s : State) (f : FormR) (n l : Nat) : Nat := (List.range n).countP (sharesExpert x s f l)

/-- What bucket writes: the rank of each valid lane to D, the count of its expert to D + 1. -/
def bucketWrites (f : FormR) (x : Ctx) (s : State) : List Wr :=
  [Wr.full (x.d 0) x.act (fun l => if expert x s f l < experts x s f l then BitVec.ofNat 32 (sharersBelow x s f l l) else 0xFFFFFFFF#32),
   Wr.full (x.d 0 + 1) x.act (fun l => if expert x s f l < experts x s f l then BitVec.ofNat 32 (sharersBelow x s f 64 l) else 0#32)]

/-- The same lanes as the list that `execBucket` builds. -/
def sharers (x : Ctx) (s : State) (f : FormR) (l : Nat) : List Nat :=
  (maskLanes x.act).filter (fun k => decide (expert x s f k < experts x s f k) && lo32 (x.opA s bucketUse f k) == lo32 (x.opA s bucketUse f l))

theorem sharesExpert_eq (x : Ctx) (s : State) (f : FormR) (l : Nat) :
    (fun k => x.act.getLsbD k && (decide (expert x s f k < experts x s f k) &&
      lo32 (x.opA s bucketUse f k) == lo32 (x.opA s bucketUse f l))) = sharesExpert x s f l := by
  funext k
  have heq : (lo32 (x.opA s bucketUse f k) == lo32 (x.opA s bucketUse f l)) = (expert x s f k == expert x s f l) := by
    rw [Bool.eq_iff_iff, beq_iff_eq, beq_iff_eq]
    exact BitVec.toNat_inj.symm
  rw [heq, sharesExpert, Bool.and_assoc]

theorem length_sharers (x : Ctx) (s : State) (f : FormR) (l : Nat) : (sharers x s f l).length = sharersBelow x s f 64 l := by
  rw [sharers, length_filter_maskLanes, sharesExpert_eq, sharersBelow]

theorem length_sharers_lt (x : Ctx) (s : State) (f : FormR) {l : Nat} (hl : l ≤ 64) :
    ((sharers x s f l).filter (fun k => decide (k < l))).length = sharersBelow x s f l l := by
  rw [sharers, length_filter_maskLanes_lt _ _ hl, sharesExpert_eq, sharersBelow]

/-- The row of ranks as the model computes it. -/
theorem rankRow_eq (x : Ctx) (s : State) (f : FormR) :
    mkRow (fun l => if decide (expert x s f l < experts x s f l) then
        BitVec.ofNat 32 ((sharers x s f l).filter (fun k => decide (k < l))).length else 0xFFFFFFFF#32) =
      mkRow (fun l => if expert x s f l < experts x s f l then BitVec.ofNat 32 (sharersBelow x s f l l) else 0xFFFFFFFF#32) :=
  mkRow_congr fun l hl => by simp only [decide_eq_true_eq, length_sharers_lt x s f hl.le]

/-- The row of counts as the model computes it. -/
theorem countRow_eq (x : Ctx) (s : State) (f : FormR) :
    mkRow (fun l => if decide (expert x s f l < experts x s f l) then BitVec.ofNat 32 (sharers x s f l).length else 0#32) =
      mkRow (fun l => if expert x s f l < experts x s f l then BitVec.ofNat 32 (sharersBelow x s f 64 l) else 0#32) :=
  mkRow_congr fun l _ => by simp only [decide_eq_true_eq, length_sharers]

theorem exec_bucket_eq_issue (f : FormR) (s : State) :
    exec (.bucket f) s = issue (bucketSpec f) (bucketBad f) (outsideGate (justWrite (bucketWrites f))) s := by
  unfold bucketWrites Wr.full
  simp only [← rankRow_eq, ← countRow_eq]
  rfl

/-- Settles O29: bucket is an issue that a gate call forbids, and it writes the ranks and the counts. -/
theorem bucketRanks : Obligations.BucketRanks := by
  intro f s c u sp x a valid rank bad
  refine ⟨checked_of_issue (exec_bucket_eq_issue f s) rfl rfl, fun hi hact hgates => ?_, fun hi hs hout => ?_⟩
  · rw [exec_bucket_eq_issue]
    exact outsideGate_raises hi hact hgates
  · rw [exec_bucket_eq_issue]
    exact outsideGate_completes hi hs hout

end Sys2Proof.Proofs.MatrixInstructions
end

