-- ==== Sys2Proof/Proofs/Encoding.lean ====
section
/-!
PROOF. Proofs/Encoding.lean: every word is the word of the instruction that it decodes to, and every well-formed instruction is what its
words decode to (02 R49; 03 R62, R63; 14 R307 to R309).
-/

namespace Sys2Proof.Proofs.Encoding

open Sys2Proof Sys2Proof.Laws.Encoding

/-- Instruction `i` is well-formed and its word is the crew word `w`. -/
def Encodes (w : BitVec 96) (i : Instr) : Prop := wellFormed i = true ∧ encode i = some (.crew w)

/-- Instruction `i` is well-formed and its word is the cox word `w`. -/
def CoxEncodes (w : BitVec 64) (i : Instr) : Prop := wellFormed i = true ∧ encode i = some (.cox w)

/-! ## Crew words: an instruction of a format, built from the fields of a word with its OPC, has that word -/

namespace Encodes

variable {w : BitVec 96} {i : Instr} {opc : BitVec 10} (hwf : wellFormed i = true)
include hwf

theorem formR (he : encode i = some (.crew ((FormR.ofWord w).toWord opc))) (h : opcOf w = opc) : Encodes w i :=
  ⟨hwf, by rw [he, ← h, FormR.toWord_ofWord]⟩
theorem formX (he : encode i = some (.crew ((FormX.ofWord w).toWord opc))) (h : opcOf w = opc) : Encodes w i :=
  ⟨hwf, by rw [he, ← h, FormX.toWord_ofWord]⟩
theorem formI (he : encode i = some (.crew ((FormI.ofWord w).toWord opc))) (h : opcOf w = opc) : Encodes w i :=
  ⟨hwf, by rw [he, ← h, FormI.toWord_ofWord]⟩
theorem formM (he : encode i = some (.crew ((FormM.ofWord w).toWord opc))) (h : opcOf w = opc) : Encodes w i :=
  ⟨hwf, by rw [he, ← h, FormM.toWord_ofWord]⟩
theorem formB (he : encode i = some (.crew ((FormB.ofWord w).toWord opc))) (h : opcOf w = opc) : Encodes w i :=
  ⟨hwf, by rw [he, ← h, FormB.toWord_ofWord]⟩
theorem formT (he : encode i = some (.crew ((FormT.ofWord w).toWord opc))) (h : opcOf w = opc) : Encodes w i :=
  ⟨hwf, by rw [he, ← h, FormT.toWord_ofWord]⟩
theorem formS (he : encode i = some (.crew ((FormS.ofWord w).toWord opc))) (h : opcOf w = opc) : Encodes w i :=
  ⟨hwf, by rw [he, ← h, FormS.toWord_ofWord]⟩

end Encodes

theorem hvhint_encodes {w : BitVec 96} (h : opcOf w = 0x362#10) : Encodes w (decodeHvhint (FormS.ofWord w)) := by
  unfold decodeHvhint
  split
  · next hbit => exact .formS hbit rfl h
  · next hbit => exact .formS (by simpa [wellFormed] using hbit) rfl h

section
open Encodes

theorem class0_encodes {w : BitVec 96} :
    ∀ op ∈ crewClass0, opcOf w = BitVec.ofNat 10 (0 + op) → Encodes w (decodeClass0 op w) := by
  simp only [crewClass0, List.forall_mem_cons]
  exact ⟨
    formR rfl rfl, formR rfl rfl, formR rfl rfl, formX rfl rfl, formX rfl rfl, formR rfl rfl, formR rfl rfl, formR rfl rfl, formR rfl rfl,
    formR rfl rfl, formR rfl rfl, formR rfl rfl, formR rfl rfl, formR rfl rfl, formR rfl rfl, formR rfl rfl, formR rfl rfl, formR rfl rfl,
    formI rfl rfl, formI rfl rfl, formI rfl rfl, by simp⟩
theorem class1_encodes {w : BitVec 96} :
    ∀ op ∈ crewClass1, opcOf w = BitVec.ofNat 10 (64 + op) → Encodes w (decodeClass1 op w) := by
  simp only [crewClass1, List.forall_mem_cons]
  exact ⟨
    formR rfl rfl, formR rfl rfl, formR rfl rfl, formR rfl rfl, formR rfl rfl, formR rfl rfl, formR rfl rfl, formR rfl rfl, formR rfl rfl,
    formR rfl rfl, formR rfl rfl, formR rfl rfl, formR rfl rfl, formR rfl rfl, formR rfl rfl, formX rfl rfl, formR rfl rfl, formR rfl rfl,
    formR rfl rfl, formR rfl rfl, formR rfl rfl, formR rfl rfl, formI rfl rfl, formR rfl rfl, formR rfl rfl, formI rfl rfl, formI rfl rfl,
    formI rfl rfl, formI rfl rfl, formI rfl rfl, formI rfl rfl, formI rfl rfl, formI rfl rfl, formI rfl rfl, formI rfl rfl, formI rfl rfl,
    formI rfl rfl, formI rfl rfl, formI rfl rfl, formI rfl rfl, by simp⟩
theorem class2_encodes {w : BitVec 96} :
    ∀ op ∈ crewClass2, opcOf w = BitVec.ofNat 10 (128 + op) → Encodes w (decodeClass2 op w) := by
  simp only [crewClass2, List.forall_mem_cons]
  exact ⟨
    formR rfl rfl, formR rfl rfl, formR rfl rfl, formR rfl rfl, formR rfl rfl, formR rfl rfl, formI rfl rfl, formI rfl rfl, formR rfl rfl,
    formI rfl rfl, formI rfl rfl, formI rfl rfl, formI rfl rfl, formI rfl rfl, formI rfl rfl, formI rfl rfl, formI rfl rfl, by simp⟩
theorem class3_encodes {w : BitVec 96} :
    ∀ op ∈ crewClass3, opcOf w = BitVec.ofNat 10 (192 + op) → Encodes w (decodeClass3 op w) := by
  simp only [crewClass3, List.forall_mem_cons]
  exact ⟨
    formR rfl rfl, formR rfl rfl, formR rfl rfl, formR rfl rfl, formR rfl rfl, formR rfl rfl, formR rfl rfl, formR rfl rfl, formR rfl rfl,
    formR rfl rfl, formR rfl rfl, formR rfl rfl, formR rfl rfl, formR rfl rfl, formR rfl rfl, formR rfl rfl, formR rfl rfl, formR rfl rfl,
    formR rfl rfl, formR rfl rfl, formR rfl rfl, formR rfl rfl, formR rfl rfl, formR rfl rfl, formR rfl rfl, formR rfl rfl, by simp⟩
theorem class4_encodes {w : BitVec 96} :
    ∀ op ∈ crewClass4, opcOf w = BitVec.ofNat 10 (256 + op) → Encodes w (decodeClass4 op w) := by
  simp only [crewClass4, List.forall_mem_cons]
  exact ⟨
    formR rfl rfl, formR rfl rfl, formR rfl rfl, formR rfl rfl, formR rfl rfl, formR rfl rfl, formR rfl rfl, formI rfl rfl, formI rfl rfl,
    formI rfl rfl, formI rfl rfl, formI rfl rfl, formI rfl rfl, formI rfl rfl, formI rfl rfl, by simp⟩
theorem class5_encodes {w : BitVec 96} :
    ∀ op ∈ crewClass5, opcOf w = BitVec.ofNat 10 (320 + op) → Encodes w (decodeClass5 op w) := by
  simp only [crewClass5, List.forall_mem_cons]
  exact ⟨
    formR rfl rfl, formR rfl rfl, formR rfl rfl, formR rfl rfl, formR rfl rfl, formR rfl rfl, formR rfl rfl, formR rfl rfl, formR rfl rfl,
    formR rfl rfl, formI rfl rfl, formI rfl rfl, formX rfl rfl, formX rfl rfl, formX rfl rfl, formX rfl rfl, formR rfl rfl, formR rfl rfl,
    formR rfl rfl, formR rfl rfl, formR rfl rfl, formR rfl rfl, formR rfl rfl, formR rfl rfl, by simp⟩
theorem class6_encodes {w : BitVec 96} :
    ∀ op ∈ crewClass6, opcOf w = BitVec.ofNat 10 (384 + op) → Encodes w (decodeClass6 op w) := by
  simp only [crewClass6, List.forall_mem_cons]
  exact ⟨
    formI rfl rfl, formI rfl rfl, formI rfl rfl, formI rfl rfl, formI rfl rfl, formI rfl rfl, formI rfl rfl, formI rfl rfl, formI rfl rfl,
    formI rfl rfl, formI rfl rfl, formI rfl rfl, formI rfl rfl, formI rfl rfl, formI rfl rfl, formI rfl rfl, formI rfl rfl, formI rfl rfl,
    formI rfl rfl, formI rfl rfl, formI rfl rfl, formI rfl rfl, formI rfl rfl, formI rfl rfl, by simp⟩
theorem class7_encodes {w : BitVec 96} :
    ∀ op ∈ crewClass7, opcOf w = BitVec.ofNat 10 (448 + op) → Encodes w (decodeClass7 op w) := by
  simp only [crewClass7, List.forall_mem_cons]
  exact ⟨
    formB rfl rfl, formB rfl rfl, formB rfl rfl, formB rfl rfl, formB rfl rfl, formS rfl rfl, formS rfl rfl, formB rfl rfl, formI rfl rfl,
    formS rfl rfl, by simp⟩
theorem class8_encodes {w : BitVec 96} :
    ∀ op ∈ crewClass8, opcOf w = BitVec.ofNat 10 (512 + op) → Encodes w (decodeClass8 op w) := by
  simp only [crewClass8, List.forall_mem_cons]
  exact ⟨
    formM rfl rfl, formM rfl rfl, formM rfl rfl, formM rfl rfl, formM rfl rfl, formM rfl rfl, formM rfl rfl, formM rfl rfl, formM rfl rfl,
    formM rfl rfl, formM rfl rfl, formM rfl rfl, formM rfl rfl, formM rfl rfl, formM rfl rfl, formM rfl rfl, formM rfl rfl, formM rfl rfl,
    formM rfl rfl, formR rfl rfl, formM rfl rfl, formM rfl rfl, formM rfl rfl, formM rfl rfl, formM rfl rfl, formM rfl rfl, formM rfl rfl,
    formM rfl rfl, formM rfl rfl, formM rfl rfl, formM rfl rfl, formM rfl rfl, formM rfl rfl, formM rfl rfl, formM rfl rfl, formM rfl rfl,
    formM rfl rfl, formM rfl rfl, formM rfl rfl, by simp⟩
theorem class9_encodes {w : BitVec 96} :
    ∀ op ∈ crewClass9, opcOf w = BitVec.ofNat 10 (576 + op) → Encodes w (decodeClass9 op w) := by
  simp only [crewClass9, List.forall_mem_cons]
  exact ⟨
    formM rfl rfl, formM rfl rfl, formM rfl rfl, formM rfl rfl, formM rfl rfl, formM rfl rfl, formM rfl rfl, formM rfl rfl, formM rfl rfl,
    formM rfl rfl, formM rfl rfl, formM rfl rfl, formM rfl rfl, formM rfl rfl, formM rfl rfl, formS rfl rfl, formM rfl rfl, formM rfl rfl,
    formM rfl rfl, formM rfl rfl, formM rfl rfl, by simp⟩
theorem class10_encodes {w : BitVec 96} :
    ∀ op ∈ crewClass10, opcOf w = BitVec.ofNat 10 (640 + op) → Encodes w (decodeClass10 op w) := by
  simp only [crewClass10, List.forall_mem_cons]
  exact ⟨
    formX rfl rfl, formX rfl rfl, formX rfl rfl, formX rfl rfl, formX rfl rfl, formX rfl rfl, formI rfl rfl, formI rfl rfl, formI rfl rfl,
    formI rfl rfl, formI rfl rfl, formI rfl rfl, formI rfl rfl, formM rfl rfl, by simp⟩
theorem class11_encodes {w : BitVec 96} :
    ∀ op ∈ crewClass11, opcOf w = BitVec.ofNat 10 (704 + op) → Encodes w (decodeClass11 op w) := by
  simp only [crewClass11, List.forall_mem_cons]
  exact ⟨
    formX rfl rfl, formX rfl rfl, formX rfl rfl, formS rfl rfl, formX rfl rfl, formX rfl rfl, by simp⟩
theorem class12_encodes {w : BitVec 96} :
    ∀ op ∈ crewClass12, opcOf w = BitVec.ofNat 10 (768 + op) → Encodes w (decodeClass12 op w) := by
  simp only [crewClass12, List.forall_mem_cons]
  exact ⟨
    formT rfl rfl, formT rfl rfl, formT rfl rfl, formT rfl rfl, formT rfl rfl, formT rfl rfl, formT rfl rfl, formT rfl rfl, formT rfl rfl,
    formT rfl rfl, formT rfl rfl, formT rfl rfl, formT rfl rfl, formT rfl rfl, formT rfl rfl, formT rfl rfl, formT rfl rfl, formT rfl rfl,
    formI rfl rfl, formI rfl rfl, formT rfl rfl, formT rfl rfl, formR rfl rfl, by simp⟩
theorem class13_encodes {w : BitVec 96} :
    ∀ op ∈ crewClass13, opcOf w = BitVec.ofNat 10 (832 + op) → Encodes w (decodeClass13 op w) := by
  simp only [crewClass13, List.forall_mem_cons]
  exact ⟨
    formS rfl rfl, formS rfl rfl, formS rfl rfl, formS rfl rfl, formS rfl rfl, formS rfl rfl, formS rfl rfl, formS rfl rfl, formS rfl rfl,
    formS rfl rfl, formS rfl rfl, formS rfl rfl, formS rfl rfl, formS rfl rfl, hvhint_encodes, by simp⟩
theorem class14_encodes {w : BitVec 96} :
    ∀ op ∈ crewClass14, opcOf w = BitVec.ofNat 10 (896 + op) → Encodes w (decodeClass14 op w) := by
  simp only [crewClass14, List.forall_mem_cons]
  exact ⟨
    formS rfl rfl, formS rfl rfl, formS rfl rfl, formS rfl rfl, formS rfl rfl, formS rfl rfl, formS rfl rfl, formS rfl rfl, formS rfl rfl, by simp⟩

end

/-- A word with an assigned operation (R62). -/
theorem decodeCrew_encodes_of_assigned {w : BitVec 96} (h : crewAssigned (opcOf w) = true) : Encodes w (decodeCrew w) := by
  have hmem : (opcOf w).toNat % 64 ∈ crewClasses.getD ((opcOf w).toNat / 64) [] := by simpa [crewAssigned] using h
  have hopc : ∀ c, (opcOf w).toNat / 64 = c → opcOf w = BitVec.ofNat 10 (64 * c + (opcOf w).toNat % 64) := by
    intro c hc
    rw [← hc, Nat.div_add_mod, BitVec.ofNat_toNat, BitVec.setWidth_eq]
  unfold decodeCrew
  dsimp only
  split
  · next hc => rw [hc] at hmem; exact class0_encodes _ hmem (hopc _ hc)
  · next hc => rw [hc] at hmem; exact class1_encodes _ hmem (hopc _ hc)
  · next hc => rw [hc] at hmem; exact class2_encodes _ hmem (hopc _ hc)
  · next hc => rw [hc] at hmem; exact class3_encodes _ hmem (hopc _ hc)
  · next hc => rw [hc] at hmem; exact class4_encodes _ hmem (hopc _ hc)
  · next hc => rw [hc] at hmem; exact class5_encodes _ hmem (hopc _ hc)
  · next hc => rw [hc] at hmem; exact class6_encodes _ hmem (hopc _ hc)
  · next hc => rw [hc] at hmem; exact class7_encodes _ hmem (hopc _ hc)
  · next hc => rw [hc] at hmem; exact class8_encodes _ hmem (hopc _ hc)
  · next hc => rw [hc] at hmem; exact class9_encodes _ hmem (hopc _ hc)
  · next hc => rw [hc] at hmem; exact class10_encodes _ hmem (hopc _ hc)
  · next hc => rw [hc] at hmem; exact class11_encodes _ hmem (hopc _ hc)
  · next hc => rw [hc] at hmem; exact class12_encodes _ hmem (hopc _ hc)
  · next hc => rw [hc] at hmem; exact class13_encodes _ hmem (hopc _ hc)
  · next hc => rw [hc] at hmem; exact class14_encodes _ hmem (hopc _ hc)
  · have hlarge : crewClasses.length ≤ (opcOf w).toNat / 64 := by
      show 15 ≤ (opcOf w).toNat / 64
      simp only [imp_false] at *
      omega
    rw [List.getD_eq_default _ _ hlarge] at hmem
    cases hmem

/-- A word with an unassigned operation is its own ILLOP (R63). -/
theorem decodeCrew_encodes_of_unassigned {w : BitVec 96} (h : crewAssigned (opcOf w) = false) : Encodes w (decodeCrew w) := by
  rw [decodeCrew_unassigned w h]
  have hword : (w.extractLsb' 86 10 ++ w.extractLsb' 0 86 : BitVec 96) = w := by
    rw [BitVec.extractLsb'_append_extractLsb'_eq_extractLsb' (by rfl)]
    exact BitVec.extractLsb'_eq_self
  refine ⟨?_, congrArg (fun v => some (Encoded.crew v)) hword⟩
  show (!crewAssigned (opcOf w)) = true
  rw [h]; rfl

theorem decodeCrew_encodes (w : BitVec 96) : Encodes w (decodeCrew w) := by
  cases h : crewAssigned (opcOf w)
  · exact decodeCrew_encodes_of_unassigned h
  · exact decodeCrew_encodes_of_assigned h

/-! ## Cox words -/

namespace CoxEncodes

variable {w : BitVec 64} {i : Instr} {n : Nat} (hwf : wellFormed i = true)
include hwf

theorem formCR (he : encode i = some (.cox ((FormCR.ofWord w).toWord (BitVec.ofNat 6 n)))) (h : (w.extractLsb' 58 6).toNat = n) :
    CoxEncodes w i :=
  ⟨hwf, by rw [he, ← h, BitVec.ofNat_toNat, BitVec.setWidth_eq, FormCR.toWord_ofWord]⟩
theorem formCI (he : encode i = some (.cox ((FormCI.ofWord w).toWord (BitVec.ofNat 6 n)))) (h : (w.extractLsb' 58 6).toNat = n) :
    CoxEncodes w i :=
  ⟨hwf, by rw [he, ← h, BitVec.ofNat_toNat, BitVec.setWidth_eq, FormCI.toWord_ofWord]⟩
theorem formCB (he : encode i = some (.cox ((FormCB.ofWord w).toWord (BitVec.ofNat 6 n)))) (h : (w.extractLsb' 58 6).toNat = n) :
    CoxEncodes w i :=
  ⟨hwf, by rw [he, ← h, BitVec.ofNat_toNat, BitVec.setWidth_eq, FormCB.toWord_ofWord]⟩
theorem formCC (he : encode i = some (.cox ((FormCC.ofWord w).toWord (BitVec.ofNat 6 n)))) (h : (w.extractLsb' 58 6).toNat = n) :
    CoxEncodes w i :=
  ⟨hwf, by rw [he, ← h, BitVec.ofNat_toNat, BitVec.setWidth_eq, FormCC.toWord_ofWord]⟩
theorem formCF (he : encode i = some (.cox ((FormCF.ofWord w).toWord (BitVec.ofNat 6 n)))) (h : (w.extractLsb' 58 6).toNat = n) :
    CoxEncodes w i :=
  ⟨hwf, by rw [he, ← h, BitVec.ofNat_toNat, BitVec.setWidth_eq, FormCF.toWord_ofWord]⟩

end CoxEncodes

theorem append_extract_cox (w : BitVec 64) : (w.extractLsb' 58 6 ++ w.extractLsb' 0 58 : BitVec 64) = w := by
  rw [BitVec.extractLsb'_append_extractLsb'_eq_extractLsb' (by rfl)]
  exact BitVec.extractLsb'_eq_self

/-- A cox word with an unassigned operation is its own COX_ILLOP (R309). -/
theorem decodeCox_encodes_of_unassigned {w : BitVec 64} (h : coxAssigned (w.extractLsb' 58 6) = false) : CoxEncodes w (decodeCox w) := by
  rw [decodeCox_unassigned w h]
  refine ⟨?_, congrArg (fun v => some (Encoded.cox v)) (append_extract_cox w)⟩
  show (!coxAssigned (w.extractLsb' 58 6)) = true
  rw [h]; rfl

section
open CoxEncodes

theorem decodeCox_encodes (w : BitVec 64) : CoxEncodes w (decodeCox w) := by
  cases hop : coxAssigned (w.extractLsb' 58 6)
  · exact decodeCox_encodes_of_unassigned hop
  have hmem : (w.extractLsb' 58 6).toNat ∈ coxOps := by simpa [coxAssigned] using hop
  unfold decodeCox
  split
  · next h => exact formCR rfl rfl h
  · next h => exact formCR rfl rfl h
  · next h => exact formCR rfl rfl h
  · next h => exact formCI rfl rfl h
  · next h => exact formCI rfl rfl h
  · next h => exact formCR rfl rfl h
  · next h => exact formCR rfl rfl h
  · next h => exact formCR rfl rfl h
  · next h => exact formCR rfl rfl h
  · next h => exact formCR rfl rfl h
  · next h => exact formCR rfl rfl h
  · next h => exact formCR rfl rfl h
  · next h => exact formCI rfl rfl h
  · next h => exact formCI rfl rfl h
  · next h => exact formCB rfl rfl h
  · next h => exact formCB rfl rfl h
  · next h => exact formCB rfl rfl h
  · next h => exact formCB rfl rfl h
  · next h => exact formCB rfl rfl h
  · next h => exact formCB rfl rfl h
  · next h => exact formCC rfl rfl h
  · next h => exact formCC rfl rfl h
  · next h => exact formCC rfl rfl h
  · next h => exact formCC rfl rfl h
  · next h => exact formCC rfl rfl h
  · next h => exact formCC rfl rfl h
  · next h => exact formCF rfl rfl h
  · next h => exact formCF rfl rfl h
  · simp_all [coxOps]

end

/-! ## Instructions -/

/-- Every instruction that has words is what they decode to. -/
theorem statement_of_instr : ∀ i, Statement i
  | .illop opc rest => illop opc rest
  | .coxIllop opc rest => coxIllop opc rest
  | .hvhintLend f => hvhintLend f
  | .hvhintRecall f => hvhintRecall f
  | .iaddI32 f => iaddI32 f
  | .isubI32 f => isubI32 f
  | .iadd3I32 f => iadd3I32 f
  | .iaddcI32 f => iaddcI32 f
  | .isubbI32 f => isubbI32 f
  | .imulI32 f => imulI32 f
  | .imulhiI32 f => imulhiI32 f
  | .imulhiN32 f => imulhiN32 f
  | .imadI32 f => imadI32 f
  | .imadwI32 f => imadwI32 f
  | .imadwN32 f => imadwN32 f
  | .iminI32 f => iminI32 f
  | .imaxI32 f => imaxI32 f
  | .iminN32 f => iminN32 f
  | .imaxN32 f => imaxN32 f
  | .iaddI64 f => iaddI64 f
  | .isubI64 f => isubI64 f
  | .lea f => lea f
  | .iaddiI32 f => iaddiI32 f
  | .iaddiI64 f => iaddiI64 f
  | .imuliI32 f => imuliI32 f
  | .andB32 f => andB32 f
  | .orB32 f => orB32 f
  | .xorB32 f => xorB32 f
  | .andnB32 f => andnB32 f
  | .notB32 f => notB32 f
  | .shlB32 f => shlB32 f
  | .shrN32 f => shrN32 f
  | .shrI32 f => shrI32 f
  | .rotlB32 f => rotlB32 f
  | .rotrB32 f => rotrB32 f
  | .shlB64 f => shlB64 f
  | .shrN64 f => shrN64 f
  | .shrI64 f => shrI64 f
  | .bfeN32 f => bfeN32 f
  | .bfeI32 f => bfeI32 f
  | .bfiB32 f => bfiB32 f
  | .popcB32 f => popcB32 f
  | .clzB32 f => clzB32 f
  | .ctzB32 f => ctzB32 f
  | .brevB32 f => brevB32 f
  | .bswB32 f => bswB32 f
  | .movB32 f => movB32 f
  | .moviB32 f => moviB32 f
  | .selB32 f => selB32 f
  | .bselB32 f => bselB32 f
  | .andiB32 f => andiB32 f
  | .oriB32 f => oriB32 f
  | .xoriB32 f => xoriB32 f
  | .cmpEqB32 f => cmpEqB32 f
  | .cmpNeB32 f => cmpNeB32 f
  | .cmpLtI32 f => cmpLtI32 f
  | .cmpLeI32 f => cmpLeI32 f
  | .cmpGtI32 f => cmpGtI32 f
  | .cmpGeI32 f => cmpGeI32 f
  | .cmpLtN32 f => cmpLtN32 f
  | .cmpLeN32 f => cmpLeN32 f
  | .cmpGtN32 f => cmpGtN32 f
  | .cmpGeN32 f => cmpGeN32 f
  | .qdef f => qdef f
  | .qfree f => qfree f
  | .faddF32 f => faddF32 f
  | .fsubF32 f => fsubF32 f
  | .fmulF32 f => fmulF32 f
  | .ffmaF32 f => ffmaF32 f
  | .fminF32 f => fminF32 f
  | .fmaxF32 f => fmaxF32 f
  | .fmuliF32 f => fmuliF32 f
  | .faddiF32 f => faddiF32 f
  | .fclsF32 f => fclsF32 f
  | .fcmpEqF32 f => fcmpEqF32 f
  | .fcmpNeF32 f => fcmpNeF32 f
  | .fcmpLtF32 f => fcmpLtF32 f
  | .fcmpLeF32 f => fcmpLeF32 f
  | .fcmpGtF32 f => fcmpGtF32 f
  | .fcmpGeF32 f => fcmpGeF32 f
  | .fcmpUnF32 f => fcmpUnF32 f
  | .fcmpOrF32 f => fcmpOrF32 f
  | .haddF16x2 f => haddF16x2 f
  | .hmulF16x2 f => hmulF16x2 f
  | .hfmaF16x2 f => hfmaF16x2 f
  | .hminF16x2 f => hminF16x2 f
  | .hmaxF16x2 f => hmaxF16x2 f
  | .haddBf16x2 f => haddBf16x2 f
  | .hmulBf16x2 f => hmulBf16x2 f
  | .hfmaBf16x2 f => hfmaBf16x2 f
  | .hminBf16x2 f => hminBf16x2 f
  | .hmaxBf16x2 f => hmaxBf16x2 f
  | .vaddI16x2 f => vaddI16x2 f
  | .vsubI16x2 f => vsubI16x2 f
  | .vaddI8x4 f => vaddI8x4 f
  | .vsubI8x4 f => vsubI8x4 f
  | .vminI16x2 f => vminI16x2 f
  | .vmaxI16x2 f => vmaxI16x2 f
  | .vminI8x4 f => vminI8x4 f
  | .vmaxI8x4 f => vmaxI8x4 f
  | .vminN8x4 f => vminN8x4 f
  | .vmaxN8x4 f => vmaxN8x4 f
  | .vaddsatI16x2 f => vaddsatI16x2 f
  | .vaddsatI8x4 f => vaddsatI8x4 f
  | .dp4I8x4 f => dp4I8x4 f
  | .dp4N8x4 f => dp4N8x4 f
  | .dp2I16x2 f => dp2I16x2 f
  | .dp8I4x8 f => dp8I4x8 f
  | .daddF64 f => daddF64 f
  | .dsubF64 f => dsubF64 f
  | .dmulF64 f => dmulF64 f
  | .dfmaF64 f => dfmaF64 f
  | .dminF64 f => dminF64 f
  | .dmaxF64 f => dmaxF64 f
  | .dclsF64 f => dclsF64 f
  | .dcmpEqF64 f => dcmpEqF64 f
  | .dcmpNeF64 f => dcmpNeF64 f
  | .dcmpLtF64 f => dcmpLtF64 f
  | .dcmpLeF64 f => dcmpLeF64 f
  | .dcmpGtF64 f => dcmpGtF64 f
  | .dcmpGeF64 f => dcmpGeF64 f
  | .dcmpUnF64 f => dcmpUnF64 f
  | .dcmpOrF64 f => dcmpOrF64 f
  | .rcpF32 f => rcpF32 f
  | .rsqrtF32 f => rsqrtF32 f
  | .sqrtF32 f => sqrtF32 f
  | .exp2F32 f => exp2F32 f
  | .log2F32 f => log2F32 f
  | .sinF32 f => sinF32 f
  | .cosF32 f => cosF32 f
  | .tanhF32 f => tanhF32 f
  | .rcpF64 f => rcpF64 f
  | .sqrtF64 f => sqrtF64 f
  | .cvt f => cvt f
  | .cvtSr f => cvtSr f
  | .packE4m3 f => packE4m3 f
  | .packE5m2 f => packE5m2 f
  | .packE2m1 f => packE2m1 f
  | .packI4 f => packI4 f
  | .unpackE4m3 f => unpackE4m3 f
  | .unpackE5m2 f => unpackE5m2 f
  | .unpackE2m1 f => unpackE2m1 f
  | .unpackI4 f => unpackI4 f
  | .qblk f => qblk f
  | .dqblk f => dqblk f
  | .rngnext f => rngnext f
  | .rngseed f => rngseed f
  | .xlaneRot f => xlaneRot f
  | .xlaneShup f => xlaneShup f
  | .xlaneShdn f => xlaneShdn f
  | .xlaneIdx f => xlaneIdx f
  | .xbcast f => xbcast f
  | .bfly f => bfly f
  | .redAddI32 f => redAddI32 f
  | .redMinI32 f => redMinI32 f
  | .redMaxI32 f => redMaxI32 f
  | .redAndB32 f => redAndB32 f
  | .redOrB32 f => redOrB32 f
  | .redXorB32 f => redXorB32 f
  | .redAddF32 f => redAddF32 f
  | .redMinF32 f => redMinF32 f
  | .redMaxF32 f => redMaxF32 f
  | .scanAddI32 f => scanAddI32 f
  | .scanMinI32 f => scanMinI32 f
  | .scanMaxI32 f => scanMaxI32 f
  | .scanAddF32 f => scanAddF32 f
  | .ballot f => ballot f
  | .any f => any f
  | .all f => all f
  | .matchLanes f => matchLanes f
  | .topk f => topk f
  | .bra f => bra f
  | .brx f => brx f
  | .call f => call f
  | .callx f => callx f
  | .ret f => ret f
  | .join f => join f
  | .exit f => exit f
  | .loop f => loop f
  | .pause f => pause f
  | .nop f => nop f
  | .ldN8 f => ldN8 f
  | .ldI8 f => ldI8 f
  | .ldN16 f => ldN16 f
  | .ldI16 f => ldI16 f
  | .ldB32 f => ldB32 f
  | .ldB64 f => ldB64 f
  | .ldB128 f => ldB128 f
  | .ldAcqB32 f => ldAcqB32 f
  | .ldAcqB64 f => ldAcqB64 f
  | .stB8 f => stB8 f
  | .stB16 f => stB16 f
  | .stB32 f => stB32 f
  | .stB64 f => stB64 f
  | .stB128 f => stB128 f
  | .stRelB32 f => stRelB32 f
  | .stRelB64 f => stRelB64 f
  | .stmask f => stmask f
  | .pfx f => pfx f
  | .pfd f => pfd f
  | .pcancel f => pcancel f
  | .ldN8O64 f => ldN8O64 f
  | .ldI8O64 f => ldI8O64 f
  | .ldN16O64 f => ldN16O64 f
  | .ldI16O64 f => ldI16O64 f
  | .ldB32O64 f => ldB32O64 f
  | .ldB64O64 f => ldB64O64 f
  | .ldB128O64 f => ldB128O64 f
  | .ldAcqB32O64 f => ldAcqB32O64 f
  | .ldAcqB64O64 f => ldAcqB64O64 f
  | .stB8O64 f => stB8O64 f
  | .stB16O64 f => stB16O64 f
  | .stB32O64 f => stB32O64 f
  | .stB64O64 f => stB64O64 f
  | .stB128O64 f => stB128O64 f
  | .stRelB32O64 f => stRelB32O64 f
  | .stRelB64O64 f => stRelB64O64 f
  | .stmaskO64 f => stmaskO64 f
  | .pfxO64 f => pfxO64 f
  | .pfdO64 f => pfdO64 f
  | .atomAddI32 f => atomAddI32 f
  | .atomAddF32 f => atomAddF32 f
  | .atomMinI32 f => atomMinI32 f
  | .atomMaxI32 f => atomMaxI32 f
  | .atomMinN32 f => atomMinN32 f
  | .atomMaxN32 f => atomMaxN32 f
  | .atomAndB32 f => atomAndB32 f
  | .atomOrB32 f => atomOrB32 f
  | .atomXorB32 f => atomXorB32 f
  | .atomExchB32 f => atomExchB32 f
  | .atomCasB32 f => atomCasB32 f
  | .atomAddI64 f => atomAddI64 f
  | .atomExchB64 f => atomExchB64 f
  | .atomCasB64 f => atomCasB64 f
  | .atomAddBf16x2 f => atomAddBf16x2 f
  | .fence f => fence f
  | .bankopAddI32 f => bankopAddI32 f
  | .bankopAddF32 f => bankopAddF32 f
  | .bankopMinF32 f => bankopMinF32 f
  | .bankopMaxF32 f => bankopMaxF32 f
  | .bankopMulF32 f => bankopMulF32 f
  | .cp f => cp f
  | .cp2d f => cp2d f
  | .cp3d f => cp3d f
  | .cpScale f => cpScale f
  | .gather f => gather f
  | .scatter f => scatter f
  | .waitcCp f => waitcCp f
  | .waitcGa f => waitcGa f
  | .waitcMx f => waitcMx f
  | .waitcFb f => waitcFb f
  | .arrinit f => arrinit f
  | .arrw f => arrw f
  | .arrrd f => arrrd f
  | .tsig f => tsig f
  | .fput f => fput f
  | .fget f => fget f
  | .fatom f => fatom f
  | .fmark f => fmark f
  | .fldred f => fldred f
  | .fstmc f => fstmc f
  | .tshape f => tshape f
  | .mmaE4m3 f => mmaE4m3 f
  | .mmaE5m2 f => mmaE5m2 f
  | .mmaE4e5 f => mmaE4e5 f
  | .mmaE5e4 f => mmaE5e4 f
  | .mmaE2m1 f => mmaE2m1 f
  | .mmaBf16 f => mmaBf16 f
  | .mmaF16 f => mmaF16 f
  | .mmaI8 f => mmaI8 f
  | .mmaT5 f => mmaT5 f
  | .mmasE4m3 f => mmasE4m3 f
  | .mmasE5m2 f => mmasE5m2 f
  | .mmasE2m1 f => mmasE2m1 f
  | .mmasBf16 f => mmasBf16 f
  | .mmasF16 f => mmasF16 f
  | .mmasI8 f => mmasI8 f
  | .msacc f => msacc f
  | .mzero f => mzero f
  | .acca f => acca f
  | .accf f => accf f
  | .accld f => accld f
  | .accst f => accst f
  | .bucket f => bucket f
  | .bar f => bar f
  | .barArrive f => barArrive f
  | .barWait f => barWait f
  | .cbar f => cbar f
  | .gate f => gate f
  | .gret f => gret f
  | .trap f => trap f
  | .tret f => tret f
  | .brk f => brk f
  | .ifence f => ifence f
  | .gets f => gets f
  | .sets f => sets f
  | .launch f => launch f
  | .yield f => yield f
  | .getsp f => getsp f
  | .setsp f => setsp f
  | .icinv f => icinv f
  | .cwb f => cwb f
  | .cinv f => cinv f
  | .tlbinvVa f => tlbinvVa f
  | .tlbinvAsid f => tlbinvAsid f
  | .tlbinvAll f => tlbinvAll f
  | .sigh f => sigh f
  | .coxNop f => coxNop f
  | .coxHalt f => coxHalt f
  | .coxYield f => coxYield f
  | .coxAbort f => coxAbort f
  | .coxTrap f => coxTrap f
  | .coxMov f => coxMov f
  | .coxAdd f => coxAdd f
  | .coxSub f => coxSub f
  | .coxAnd f => coxAnd f
  | .coxOr f => coxOr f
  | .coxShl f => coxShl f
  | .coxShr f => coxShr f
  | .coxMovi f => coxMovi f
  | .coxAddi f => coxAddi f
  | .coxBr f => coxBr f
  | .coxBeq f => coxBeq f
  | .coxBne f => coxBne f
  | .coxBlt f => coxBlt f
  | .coxBge f => coxBge f
  | .coxLoop f => coxLoop f
  | .coxSend f => coxSend f
  | .coxPost f => coxPost f
  | .coxRecv f => coxRecv f
  | .coxComb f => coxComb f
  | .coxCombf f => coxCombf f
  | .coxFwd f => coxFwd f
  | .coxWaitf f => coxWaitf f
  | .coxSigf f => coxSigf f
  | .instructionCompletion crew flight => instructionCompletion crew flight
  | .faultRecordRetry i => faultRecordRetry i
  | .faultQueueWriteRetry i => faultQueueWriteRetry i
  | .engineOperationRetire id => engineOperationRetire id
  | .tsigAdd id => tsigAdd id
  | .tileSliceStart core => tileSliceStart core
  | .tileTaskRetire id slice => tileTaskRetire id slice
  | .accaGrant core => accaGrant core
  | .accfUnitRelease i => accfUnitRelease i
  | .umpireTimeout blk cl id => umpireTimeout blk cl id
  | .gateBudgetExpire crew level => gateBudgetExpire crew level
  | .pauseExpire crew => pauseExpire crew
  | .spinHandoff blk vcore => spinHandoff blk vcore
  | .pfdDeadlineDrop core order => pfdDeadlineDrop core order
  | .launchAdmission id => launchAdmission id
  | .launchDeadlineExpire id => launchDeadlineExpire id
  | .blockPlacement launch first cores quads vcores out => blockPlacement launch first cores quads vcores out
  | .crewRetire crew => crewRetire crew
  | .blockRetire blk => blockRetire blk
  | .blockMigration blk core quads => blockMigration blk core quads
  | .contextPreempt ctx => contextPreempt ctx
  | .contextImageComplete ctx vcore => contextImageComplete ctx vcore
  | .contextRestore ctx cores quads => contextRestore ctx cores quads
  | .harvestInterference core => harvestInterference core
  | .harvestRevocation core => harvestRevocation core
  | .harvestParkComplete core => harvestParkComplete core
  | .harvestResume blk quads => harvestResume blk quads
  | .harvestEvict blk => harvestEvict blk
  | .remoteWriteApply i => remoteWriteApply i
  | .replicaApply i => replicaApply i
  | .packetForward i => packetForward i
  | .write i => write i
  | .readreq i => readreq i
  | .readrsp i => readrsp i
  | .atomic i => atomic i
  | .marker i => marker i
  | .markack i => markack i
  | .probe i => probe i
  | .probeack i => probeack i
  | .reduce i => reduce i
  | .redrsp i => redrsp i
  | .chunk i => chunk i
  | .start i => start i
  | .abort i => abort i
  | .abortack i => abortack i
  | .refuse i => refuse i
  | .fabricResponseTimeout id => fabricResponseTimeout id
  | .portDown p back => portDown p back
  | .portTraining p ok peer => portTraining p ok peer
  | .portAutoRetrain p => portAutoRetrain p
  | .linkStateAnnouncement k i up => linkStateAnnouncement k i up
  | .keyExchangeMessage p ok => keyExchangeMessage p ok
  | .frameSend p ch hops => frameSend p ch hops
  | .frameReceive p ok sel hdr data bad side => frameReceive p ok sel hdr data bad side
  | .coxWaitSatisfied port k => coxWaitSatisfied port k
  | .coxSpinFault port => coxSpinFault port
  | .coxRefusalTimeout port k => coxRefusalTimeout port k
  | .coxStartSlotFree port => coxStartSlotFree port
  | .coxStartHoldTimeout port => coxStartHoldTimeout port
  | .coxDescriptorLoadComplete port k => coxDescriptorLoadComplete port k
  | .startWindowTimeout i => startWindowTimeout i
  | .bootl pa => bootl pa
  | .frespResume dom owner seq => frespResume dom owner seq
  | .frespDecline dom owner seq => frespDecline dom owner seq
  | .frespTerminate dom owner seq => frespTerminate dom owner seq
  | .mgmtRegisterWrite bar off wide v => mgmtRegisterWrite bar off wide v
  | .addressGroupWrite g w v => addressGroupWrite g w v
  | .startGo i group => startGo i group
  | .coxInstructionMemoryWrite port w v => coxInstructionMemoryWrite port w v
  | .coxRegionWrite port i v => coxRegionWrite port i v
  | .coxSlotStateWrite port k r v => coxSlotStateWrite port k r v
  | .ctlResume port k => ctlResume port k
  | .ctlStep port k => ctlStep port k
  | .ctlKill port k => ctlKill port k
  | .getid => getid
  | .attest => attest
  | .kdopen => kdopen
  | .kdseal => kdseal
  | .kdclose => kdclose
  | .kdmap => kdmap
  | .rekey => rekey
  | .mpcset => mpcset
  | .mpcjoin => mpcjoin
  | .revoke => revoke
  | .fwstage => fwstage
  | .fwcommit => fwcommit
  | .secpCommandComplete => secpCommandComplete
  | .fabcfg v => fabcfg v
  | .portctlAdmdn p v => portctlAdmdn p v
  | .portctlRetrain p => portctlRetrain p
  | .portctlMapv p v lport => portctlMapv p v lport
  | .rasclr => rasclr
  | .bar2Write off data => bar2Write off data
  | .bar2Read off len => bar2Read off len
  | .enterD3hot => enterD3hot
  | .leaveD3hot => leaveD3hot
  | .perstDeassert => perstDeassert
  | .secureTrainingComplete memOk coresOk linkOk => secureTrainingComplete memOk coresOk linkOk
  | .fullServiceTransition dieUp stackUp cxlUp => fullServiceTransition dieUp stackUp cxlUp
  | .clockStep avg pkg dies temps hbm => clockStep avg pkg dies temps hbm
  | .thermtrip => thermtrip
  | .powerRemoval => powerRemoval
  | .patrolScrub line kind => patrolScrub line kind
  | .onCoreUncorrectable core crew blk => onCoreUncorrectable core crew blk
  | .cxlLinkDown p lost => cxlLinkDown p lost
  | .perstAssert => perstAssert
  | .firmwareVerify imgs => firmwareVerify imgs
  | .msixVectorUnmask v => msixVectorUnmask v
  | .hbmStackEntersService stack ok => hbmStackEntersService stack ok
  | .prefetchComplete core n => prefetchComplete core n


/-- Settles O54: each format read back from its words and built back from its fields, instruction by instruction. -/
theorem decodeOfEncode : Obligations.DecodeOfEncode := by
  refine ⟨fun i hi => ?_, decodeCrew_encodes, decodeCox_encodes⟩
  have hread := statement_of_instr i hi
  split
  · next w he => exact hread _ he
  · next w he => exact hread _ he
  · next he =>
    refine fun w v => ⟨?_, ?_⟩
    · rintro rfl
      exact absurd ((decodeCrew_encodes w).2.symm.trans he) (by simp)
    · rintro rfl
      exact absurd ((decodeCox_encodes v).2.symm.trans he) (by simp)

end Sys2Proof.Proofs.Encoding
end

