-- ==== Sys2Proof/Proofs/RegisterRows.lean ====
section
/-!
PROOF. Proofs/RegisterRows.lean: the rows of the integer, bitwise and packed register instructions: what a row of each table of
`Sys2Proof.Claims` asks, and the arithmetic of each row (05 R104 to R118).
-/

namespace Sys2Proof.Proofs.RegisterRows

open Sys2Proof Sys2Proof.Machine Sys2Proof.Claims

/-! ## Rows of the tables -/

/-- A value of an operand that is not held in a pair has 32 bits. -/
def Fits (t : Option ETy) (v : DWord) : Prop := (t.all fun t => !t.pair) = true → v.toNat < 2 ^ 32

theorem fits_wide (x : Ctx) (s : State) (r : BitVec 8) (t : ETy) (l : Nat) : Fits (some t) (x.wide s r t l) := by
  intro ht
  have ht : t.pair = false := by simpa using ht
  simp only [Ctx.wide, ht, Bool.false_eq_true, if_false, BitVec.toNat_setWidth]
  omega

theorem fits_modWide {t : ETy} {code : Nat} {v : DWord} : Fits (some t) (modWide t code v) := by
  intro ht
  have ht : t.pair = false := by simpa using ht
  simp only [modWide, ht, Bool.false_eq_true, if_false, BitVec.toNat_setWidth]
  omega

theorem fits_zero : Fits none 0#64 := fun _ => by decide

theorem fits_opA (x : Ctx) (s : State) (u : RUse) (f : FormR) (l : Nat) : Fits u.a (x.opA s u f l) := by
  unfold Ctx.opA
  cases u.a with
  | none => exact fits_zero
  | some t =>
    dsimp only
    split
    · exact fits_wide x s f.a t _
    · exact fits_modWide

theorem fits_opB (x : Ctx) (s : State) (u : RUse) (f : FormR) (l : Nat) : Fits u.b (x.opB s u f l) := by
  unfold Ctx.opB
  cases u.b with
  | none => exact fits_zero
  | some t =>
    dsimp only
    split
    · exact fits_wide x s f.b t _
    · exact fits_modWide

theorem fits_opC (x : Ctx) (s : State) (u : RUse) (f : FormR) (l : Nat) : Fits u.c (x.opC s u f l) := by
  unfold Ctx.opC
  cases u.c with
  | none => exact fits_zero
  | some t =>
    dsimp only
    split
    · exact fits_wide x s f.c t _
    · exact fits_modWide

/-- An instruction that only writes registers answers with these writes. -/
theorem answers_justWrite {s : State} {c : Crew} {sp : Spec} {bad : Crew → Bool} {w : Ctx → State → List Wr} {wr : List Wr}
    (hi : Issues s c sp bad) (hs : Steady s c) (hw : w (s.view c sp) (s.issued c sp) = wr) :
    Answers (issue sp bad (justWrite w) s) (fun t => Completed s s.opening t (s.issuing c sp) sp wr) := by
  obtain ⟨t, hnext, hdone⟩ := justWrite_completes hi hs
  exact ⟨t, hnext, hw ▸ hdone⟩

/-- A row holds whose instruction computes, lane by lane, a function that agrees with the row's on values that fit their operands. -/
theorem holds_of_runR {r : RowR} (g : DWord → DWord → DWord → Word) (hexec : ∀ f s, exec (r.instr f) s = runR f r.use r.lat g s)
    (hval : ∀ a b c, Fits r.use.a a → Fits r.use.b b → Fits r.use.c c → g a b c = r.val a b c) : r.Holds := by
  intro f s c hi hs
  rw [hexec]
  refine answers_justWrite hi hs ?_
  simp only [hval _ _ _ (fits_opA _ _ _ _ _) (fits_opB _ _ _ _ _) (fits_opC _ _ _ _ _)]
  rfl

/-- The two words that a pair write puts down are the low and the high word of each lane's result. -/
theorem wrPair_eq (d : Nat) (m : Mask) (v : Nat → DWord) :
    wrPair d m v = [Wr.full d m (fun l => BitVec.ofNat 32 (v l).toNat), Wr.full (d + 1) m (fun l => BitVec.ofNat 32 ((v l).toNat / 2 ^ 32))] := by
  have hlow : ∀ w : DWord, w.extractLsb' 0 32 = BitVec.ofNat 32 w.toNat := fun w => BitVec.eq_of_toNat_eq (by simp)
  have hhigh : ∀ w : DWord, w.extractLsb' 32 32 = BitVec.ofNat 32 (w.toNat / 2 ^ 32) := fun w =>
    BitVec.eq_of_toNat_eq (by simp [Nat.shiftRight_eq_div_pow])
  simp only [wrPair, hlow, hhigh]

theorem holds_of_runR64 {r : RowPair} (g : DWord → DWord → DWord → DWord) (hexec : ∀ f s, exec (r.instr f) s = runR64 f r.use r.lat g s)
    (hval : ∀ a b c, Fits r.use.a a → Fits r.use.b b → Fits r.use.c c → g a b c = r.val a b c) : r.Holds := by
  intro f s c hi hs
  rw [hexec]
  refine answers_justWrite hi hs ?_
  simp only [hval _ _ _ (fits_opA _ _ _ _ _) (fits_opB _ _ _ _ _) (fits_opC _ _ _ _ _), wrPair_eq]
  rfl

theorem holds_of_runI {r : RowI} (g : Word → Word → Word) (hsrc : r.source = true) (hexec : ∀ f s, exec (r.instr f) s = runI f r.lat g s)
    (hval : ∀ a i, g a i = r.val a i) : r.Holds := by
  intro f s c hi hs
  have hspec : r.spec f = specI f [one f.a] [one f.d] (.fixed r.lat) := by simp [RowI.spec, hsrc]
  have hbad : (fun _ : Crew => r.bad f) = fun _ => decide (f.sub ≠ 0#7) := by simp [RowI.bad, hsrc]
  rw [hspec, hbad] at hi
  rw [hspec]
  rw [hexec]
  refine answers_justWrite hi hs ?_
  simp only [hval]
  rfl

/-! ## Words -/

theorem getLsbD_wordOfBits (p : Nat → Bool) {i : Nat} (hi : i < 32) : (wordOfBits p).getLsbD i = p i := by
  simp [wordOfBits, hi]

/-- A word is the one of given bits when they agree below 32. -/
theorem eq_wordOfBits {w : Word} {p : Nat → Bool} (h : ∀ i, i < 32 → w.getLsbD i = p i) : w = wordOfBits p :=
  BitVec.eq_of_getLsbD_eq fun i hi => by rw [h i hi, getLsbD_wordOfBits p hi]

theorem lo32_eq (v : DWord) : lo32 v = BitVec.ofNat 32 v.toNat := (BitVec.ofNat_toNat 32 v).symm

theorem getLsbD_lo32 (v : DWord) {i : Nat} (hi : i < 32) : (lo32 v).getLsbD i = v.getLsbD i := by
  simp [lo32, hi]

theorem ofInt_sub (w : Nat) (x y : Int) : BitVec.ofInt w (x - y) = BitVec.ofInt w x - BitVec.ofInt w y := by
  rw [Int.sub_eq_add_neg, BitVec.ofInt_add, BitVec.ofInt_neg, BitVec.sub_eq_add_neg]

theorem ofInt_min_toInt {w : Nat} (a b : BitVec w) : BitVec.ofInt w (min a.toInt b.toInt) = if a.toInt ≤ b.toInt then a else b := by
  rw [min_def, apply_ite (BitVec.ofInt w), BitVec.ofInt_toInt, BitVec.ofInt_toInt]
theorem ofInt_max_toInt {w : Nat} (a b : BitVec w) : BitVec.ofInt w (max a.toInt b.toInt) = if a.toInt ≤ b.toInt then b else a := by
  rw [max_def, apply_ite (BitVec.ofInt w), BitVec.ofInt_toInt, BitVec.ofInt_toInt]
theorem ofNat_min_toNat {w : Nat} (a b : BitVec w) : BitVec.ofNat w (min a.toNat b.toNat) = if a.toNat ≤ b.toNat then a else b := by
  rw [min_def, apply_ite (BitVec.ofNat w), BitVec.ofNat_toNat, BitVec.ofNat_toNat, BitVec.setWidth_eq, BitVec.setWidth_eq]
theorem ofNat_max_toNat {w : Nat} (a b : BitVec w) : BitVec.ofNat w (max a.toNat b.toNat) = if a.toNat ≤ b.toNat then b else a := by
  rw [max_def, apply_ite (BitVec.ofNat w), BitVec.ofNat_toNat, BitVec.ofNat_toNat, BitVec.setWidth_eq, BitVec.setWidth_eq]

/-! ## Integer rows (R104) -/

theorem integerRows_hold : ∀ r ∈ integerRows, r.Holds := by
  simp only [integerRows, List.forall_mem_cons]
  refine ⟨holds_of_runR _ exec_iaddI32 fun a b _ _ _ _ => ?_, holds_of_runR _ exec_isubI32 fun a b _ _ _ _ => ?_,
    holds_of_runR _ exec_iadd3I32 fun a b c _ _ _ => ?_, holds_of_runR _ exec_imulI32 fun a b _ _ _ _ => ?_,
    holds_of_runR _ exec_imulhiI32 fun a b _ _ _ _ => ?_, holds_of_runR _ exec_imulhiN32 fun _ _ _ _ _ _ => rfl,
    holds_of_runR _ exec_imadI32 fun a b c _ _ _ => ?_, holds_of_runR _ exec_iminI32 fun _ _ _ _ _ _ => (ofInt_min_toInt _ _).symm,
    holds_of_runR _ exec_imaxI32 fun _ _ _ _ _ _ => (ofInt_max_toInt _ _).symm, holds_of_runR _ exec_iminN32 fun _ _ _ _ _ _ => (ofNat_min_toNat _ _).symm,
    holds_of_runR _ exec_imaxN32 fun _ _ _ _ _ _ => (ofNat_max_toNat _ _).symm, by simp⟩
  · simp only [lo32_eq, BitVec.ofNat_add]
  · simp only [lo32_eq, ofInt_sub, BitVec.ofInt_natCast]
  · simp only [lo32_eq, BitVec.ofNat_add]
  · simp only [BitVec.ofInt_mul, BitVec.ofInt_toInt]
  · simp only [Int.fdiv_eq_ediv_of_nonneg _ (show (0 : Int) ≤ 2 ^ 32 by decide)]
  · simp only [lo32_eq, BitVec.ofNat_add, BitVec.ofNat_mul]

/-! ## Carry forms (R105) -/

/-- The high part of a sum of two words and a carry is its carry. -/
theorem ofNat_carry {n : Nat} (hn : n < 2 ^ 33) : BitVec.ofNat 32 (n / 2 ^ 32) = if 2 ^ 32 ≤ n then 1#32 else 0#32 := by
  split
  · rw [show n / 2 ^ 32 = 1 by omega]
  · rw [show n / 2 ^ 32 = 0 by omega]

theorem carryFormsWriteSumAndCarry : CarryFormsWriteSumAndCarry := by
  intro f s c hi hs x a b cin
  have hcarry : ∀ l, a l + b l + cin l < 2 ^ 33 := fun l => by
    have ha : a l < 2 ^ 32 := BitVec.isLt _
    have hb : b l < 2 ^ 32 := BitVec.isLt _
    have hc : cin l < 2 := Nat.mod_lt _ (by decide)
    omega
  have hborrow : ∀ l, ((a l : Int) - b l - cin l < 0) = (a l < b l + cin l) := fun l => propext (by omega)
  constructor
  · rw [exec_iaddcI32, execIaddcI32, runCarry]
    refine answers_justWrite hi hs ?_
    simp only [← ofNat_carry (hcarry _)]
    rfl
  · rw [exec_isubbI32, execIsubbI32, runCarry]
    refine answers_justWrite hi hs ?_
    simp only [← hborrow]
    rfl

/-! ## Pairs and immediates (R106 to R110, R115) -/

theorem ofInt_toNat {w : Nat} (x : BitVec w) : BitVec.ofInt w (x.toNat : Int) = x := by
  rw [BitVec.ofInt_natCast, BitVec.ofNat_toNat, BitVec.setWidth_eq]

theorem ofInt_toInt_mul_two_pow (a : Word) (n : Nat) : BitVec.ofInt 64 (a.toInt * 2 ^ n) = a.signExtend 64 <<< n := by
  have hpow : BitVec.ofInt 64 (2 ^ n) = BitVec.twoPow 64 n := by
    rw [show (2 : Int) ^ n = ((2 ^ n : Nat) : Int) by push_cast; rfl, BitVec.ofInt_natCast]
    exact BitVec.eq_of_toNat_eq (by simp)
  rw [BitVec.ofInt_mul, BitVec.shiftLeft_eq_mul_twoPow, hpow]
  rfl

/-- A left shift of a value by any count is a product (R110). -/
theorem ofNat_mul_two_pow_min {w : Nat} (x : BitVec w) (n : Nat) :
    (if n < w then x <<< n else 0#w) = BitVec.ofNat w (x.toNat * 2 ^ min n w) := by
  apply BitVec.eq_of_toNat_eq
  split
  · next h => rw [Nat.min_eq_left h.le, BitVec.toNat_shiftLeft, Nat.shiftLeft_eq, BitVec.toNat_ofNat]
  · next h => rw [Nat.min_eq_right (by omega), BitVec.toNat_ofNat, BitVec.toNat_ofNat, Nat.mul_mod_left, Nat.zero_mod]

/-- An unsigned right shift by any count is a quotient (R110). -/
theorem ofNat_div_two_pow_min {w : Nat} (x : BitVec w) (n : Nat) :
    (if n < w then x >>> n else 0#w) = BitVec.ofNat w (x.toNat / 2 ^ min n w) := by
  apply BitVec.eq_of_toNat_eq
  have hlt := x.isLt
  split
  · next h =>
    rw [Nat.min_eq_left h.le, BitVec.toNat_ushiftRight, Nat.shiftRight_eq_div_pow, BitVec.toNat_ofNat,
      Nat.mod_eq_of_lt (lt_of_le_of_lt (Nat.div_le_self _ _) hlt)]
  · next h => rw [Nat.min_eq_right (by omega), Nat.div_eq_of_lt hlt]

/-- An arithmetic right shift is a quotient rounded down (R110). -/
theorem sshiftRight_eq_ofInt {w : Nat} (x : BitVec w) (n : Nat) : x.sshiftRight n = BitVec.ofInt w (x.toInt.fdiv (2 ^ n)) := by
  have hpos : (0 : Int) ≤ 2 ^ n := by positivity
  rw [Int.fdiv_eq_ediv_of_nonneg _ hpos, ← BitVec.ofInt_toInt (x := x.sshiftRight n), BitVec.toInt_sshiftRight, Int.shiftRight_eq_div_pow]
  norm_cast

theorem pairRows_hold : ∀ r ∈ pairRows, r.Holds := by
  simp only [pairRows, List.forall_mem_cons]
  refine ⟨holds_of_runR64 _ exec_imadwI32 fun a b c _ _ _ => ?_, holds_of_runR64 _ exec_imadwN32 fun a b c _ _ _ => ?_,
    holds_of_runR64 _ exec_iaddI64 fun a b _ _ _ _ => ?_, holds_of_runR64 _ exec_isubI64 fun a b _ _ _ _ => ?_,
    holds_of_runR64 _ exec_lea fun a b c _ _ _ => ?_, holds_of_runR64 _ exec_shlB64 fun a b _ _ _ _ => ofNat_mul_two_pow_min a _,
    holds_of_runR64 _ exec_shrN64 fun a b _ _ _ _ => ofNat_div_two_pow_min a _,
    holds_of_runR64 _ exec_shrI64 fun a b _ _ _ _ => sshiftRight_eq_ofInt a _, by simp⟩
  · simp only [BitVec.ofInt_add, BitVec.ofInt_toInt]
  · simp only [BitVec.ofNat_add, BitVec.ofNat_toNat, BitVec.setWidth_eq]
  · simp only [BitVec.ofNat_add, BitVec.ofNat_toNat, BitVec.setWidth_eq]
  · simp only [ofInt_sub, ofInt_toNat]
  · simp only [BitVec.ofInt_add, ofInt_toNat, ofInt_toInt_mul_two_pow]

theorem moviB32_holds : RowI.Holds ⟨.moviB32, 2, false, fun _ i => i⟩ := by
  intro f s c hi hs
  rw [exec_moviB32, execMoviB32]
  exact answers_justWrite hi hs rfl

theorem immediateRows_hold : ∀ r ∈ immediateRows, r.Holds := by
  simp only [immediateRows, List.forall_mem_cons]
  refine ⟨holds_of_runI _ rfl exec_iaddiI32 fun a i => ?_, holds_of_runI _ rfl exec_imuliI32 fun a i => ?_,
    holds_of_runI _ rfl exec_andiB32 fun a i => ?_,
    holds_of_runI _ rfl exec_oriB32 fun a i => ?_,
    holds_of_runI _ rfl exec_xoriB32 fun a i => ?_, moviB32_holds, by simp⟩
  · simp only [BitVec.ofInt_add, BitVec.ofInt_toInt]
  · simp only [BitVec.ofInt_mul, BitVec.ofInt_toInt]
  · dsimp only
    exact eq_wordOfBits fun k _ => BitVec.getLsbD_and
  · dsimp only
    exact eq_wordOfBits fun k _ => BitVec.getLsbD_or
  · dsimp only
    exact eq_wordOfBits fun k _ => BitVec.getLsbD_xor

theorem wideImmediate : WideImmediate := by
  intro f s c sp x v hi hs
  rw [exec_iaddiI64, execIaddiI64]
  exact answers_justWrite hi hs (wrPair_eq _ _ _)

/-- Settles O1: each row's arithmetic is the model's, as an equation between words. -/
theorem pairAndImmediateResults : Obligations.PairAndImmediateResults :=
  ⟨pairRows_hold, immediateRows_hold, wideImmediate⟩

/-! ## Bitwise rows, shifts and bit fields (R109 to R115) -/

/-- A row holds when the function computed has the bits of the row's result. -/
theorem holds_of_bits {r : RowR} (g : DWord → DWord → DWord → Word) (hexec : ∀ f s, exec (r.instr f) s = runR f r.use r.lat g s)
    (hbits : ∀ a b c, Fits r.use.a a → Fits r.use.b b → Fits r.use.c c → ∀ i, i < 32 → (g a b c).getLsbD i = (r.val a b c).getLsbD i) : r.Holds :=
  holds_of_runR g hexec fun a b c ha hb hc => BitVec.eq_of_getLsbD_eq (hbits a b c ha hb hc)

theorem bitwiseRows_hold : ∀ r ∈ bitwiseRows, r.Holds := by
  simp only [bitwiseRows, List.forall_mem_cons]
  refine ⟨holds_of_bits _ exec_andB32 fun a b c _ _ _ i hi => ?_, holds_of_bits _ exec_orB32 fun a b c _ _ _ i hi => ?_,
    holds_of_bits _ exec_xorB32 fun a b c _ _ _ i hi => ?_, holds_of_bits _ exec_andnB32 fun a b c _ _ _ i hi => ?_,
    holds_of_bits _ exec_notB32 fun a b c _ _ _ i hi => ?_, holds_of_runR _ exec_movB32 fun _ _ _ _ _ _ => rfl,
    holds_of_runR _ exec_selB32 fun _ _ _ _ _ _ => ite_not _ _ _, holds_of_bits _ exec_bselB32 fun a b c _ _ _ i hi => ?_, by simp⟩
  · simp only [BitVec.getLsbD_and, getLsbD_lo32 _ hi, getLsbD_wordOfBits _ hi]
  · simp only [BitVec.getLsbD_or, getLsbD_lo32 _ hi, getLsbD_wordOfBits _ hi]
  · simp only [BitVec.getLsbD_xor, getLsbD_lo32 _ hi, getLsbD_wordOfBits _ hi]
  · simp only [BitVec.getLsbD_and, BitVec.getLsbD_not, getLsbD_lo32 _ hi, getLsbD_wordOfBits _ hi, decide_eq_true hi, Bool.true_and]
  · simp only [BitVec.getLsbD_not, getLsbD_lo32 _ hi, getLsbD_wordOfBits _ hi, decide_eq_true hi, Bool.true_and]
  · simp only [BitVec.getLsbD_or, BitVec.getLsbD_and, BitVec.getLsbD_not, getLsbD_lo32 _ hi, getLsbD_wordOfBits _ hi, decide_eq_true hi,
      Bool.true_and]
    cases c.getLsbD i <;> simp

theorem shiftRows_hold : ∀ r ∈ shiftRows, r.Holds := by
  simp only [shiftRows, List.forall_mem_cons]
  refine ⟨holds_of_runR _ exec_shlB32 fun a b _ _ _ _ => ?_,
    holds_of_runR _ exec_shrN32 fun a b _ _ _ _ => ofNat_div_two_pow_min (lo32 a) _,
    holds_of_runR _ exec_shrI32 fun a b _ _ _ _ => sshiftRight_eq_ofInt (lo32 a) _,
    holds_of_bits _ exec_rotlB32 fun a b c _ _ _ i hi => ?_,
    holds_of_bits _ exec_rotrB32 fun a b c _ _ _ i hi => ?_, by simp⟩
  · rw [ofNat_mul_two_pow_min (lo32 a)]
    simp only [lo32_eq, BitVec.ofNat_mul, BitVec.ofNat_toNat, BitVec.setWidth_eq]
  · have hn : b.toNat % 32 < 32 := Nat.mod_lt _ (by decide)
    rw [BitVec.getLsbD_rotateLeft_of_le hn, getLsbD_wordOfBits _ hi, Bool.cond_decide, decide_eq_true hi, Bool.true_and]
    split
    · rw [getLsbD_lo32 a (by omega), show (i + 32 - b.toNat % 32) % 32 = 32 - b.toNat % 32 + i by omega]
    · rw [getLsbD_lo32 a (by omega), show (i + 32 - b.toNat % 32) % 32 = i - b.toNat % 32 by omega]
  · have hn : b.toNat % 32 < 32 := Nat.mod_lt _ (by decide)
    rw [BitVec.getLsbD_rotateRight_of_lt hn, getLsbD_wordOfBits _ hi, Bool.cond_decide, decide_eq_true hi, Bool.true_and]
    split
    · rw [getLsbD_lo32 a (by omega), show (i + b.toNat % 32) % 32 = b.toNat % 32 + i by omega]
    · rw [getLsbD_lo32 a (by omega), show (i + b.toNat % 32) % 32 = i - (32 - b.toNat % 32) by omega]

/-! ### Numbers given bit by bit -/

/-- The number below 2^n of which bit i is p i, added up as `bfe` does. -/
def sumOfBits (p : Nat → Bool) (n : Nat) : Nat := (List.range n).foldl (fun v i => if p i then v + 2 ^ i else v) 0

theorem sumOfBits_succ (p : Nat → Bool) (n : Nat) : sumOfBits p (n + 1) = if p n then sumOfBits p n + 2 ^ n else sumOfBits p n := by
  simp only [sumOfBits, List.range_succ, List.foldl_append, List.foldl_cons, List.foldl_nil]

theorem sumOfBits_lt (p : Nat → Bool) (n : Nat) : sumOfBits p n < 2 ^ n := by
  induction n with
  | zero => simp [sumOfBits]
  | succ n ih =>
    rw [sumOfBits_succ]
    split <;> omega

theorem testBit_sumOfBits (p : Nat → Bool) (n i : Nat) : (sumOfBits p n).testBit i = (decide (i < n) && p i) := by
  induction n with
  | zero => simp [sumOfBits]
  | succ n ih =>
    have hlt := sumOfBits_lt p n
    have hrest : p n = true → sumOfBits p n + 2 ^ n = 2 ^ n * 1 + sumOfBits p n := fun _ => by omega
    rw [sumOfBits_succ]
    rcases lt_trichotomy i n with h | rfl | h
    · have hi : i < n + 1 := by omega
      split
      · next hp => rw [hrest hp, Nat.testBit_two_pow_mul_add _ hlt, if_pos h, ih]; simp [h, hi]
      · rw [ih]; simp [h, hi]
    · split
      · next hp => rw [hrest hp, Nat.testBit_two_pow_mul_add _ hlt]; simp [hp]
      · next hp => rw [ih]; simp [hp]
    · have hi : ¬ i < n + 1 := by omega
      split
      · next hp =>
        have hone : Nat.testBit 1 (i - n) = false := by
          rw [← Bool.not_eq_true, Nat.testBit_one_eq_true_iff_self_eq_zero]
          omega
        rw [hrest hp, Nat.testBit_two_pow_mul_add _ hlt, if_neg (by omega), hone]; simp [hi]
      · rw [ih]; simp [hi]; omega

/-- A value of n bits extended with ones. -/
theorem testBit_add_ones {v n i : Nat} (hv : v < 2 ^ n) (hn : n ≤ 32) (hi : i < 32) :
    (v + (2 ^ 32 - 2 ^ n)).testBit i = if i < n then v.testBit i else true := by
  have hsplit : 2 ^ 32 - 2 ^ n = 2 ^ n * (2 ^ (32 - n) - 1) := by
    rw [Nat.mul_sub, ← Nat.pow_add, Nat.add_sub_cancel' hn, Nat.mul_one]
  rw [hsplit, Nat.add_comm, Nat.testBit_two_pow_mul_add _ hv, Nat.testBit_two_pow_sub_one]
  split
  · rfl
  · exact decide_eq_true (by omega)

theorem getLsbD_ofNat_word (n : Nat) {i : Nat} (hi : i < 32) : (BitVec.ofNat 32 n).getLsbD i = n.testBit i := by
  rw [BitVec.getLsbD_ofNat, decide_eq_true hi, Bool.true_and]

/-- Bit p of the source of a bit field: beyond bit 31 its sign, or zero. -/
def fieldBit (signed : Bool) (a p : Nat) : Bool := if p < 32 then a.testBit p else signed && a.testBit 31

/-- The bits of a field: those of the source, and from the length on its last bit or zero (R111). -/
theorem getLsbD_bfe (signed : Bool) (a pos len : Nat) {i : Nat} (hi : i < 32) :
    (bfe signed a pos len).getLsbD i =
      if i < len then fieldBit signed a (pos + i) else signed && decide (0 < len) && fieldBit signed a (pos + (len - 1)) := by
  set bit : Nat → Bool := fieldBit signed a
  have hdef : bfe signed a pos len =
      if signed && decide (0 < min len 32) && (sumOfBits (fun i => bit (pos + i)) (min len 32)).testBit (min len 32 - 1) then
        BitVec.ofNat 32 (sumOfBits (fun i => bit (pos + i)) (min len 32) + (2 ^ 32 - 2 ^ min len 32))
      else BitVec.ofNat 32 (sumOfBits (fun i => bit (pos + i)) (min len 32)) := rfl
  have hmin : (i < min len 32) = (i < len) := by simp [hi]
  have htop : ¬ i < len → (sumOfBits (fun i => bit (pos + i)) (min len 32)).testBit (min len 32 - 1) = (decide (0 < len) && bit (pos + (len - 1))) := by
    intro hlt
    rw [show min len 32 = len by omega, testBit_sumOfBits, decide_eq_decide.mpr (show len - 1 < len ↔ 0 < len by omega)]
  have hsign : (0 < min len 32) = (0 < len) := propext (by omega)
  rw [hdef]
  simp only [hsign]
  split
  · next h =>
    rw [getLsbD_ofNat_word _ hi, testBit_add_ones (sumOfBits_lt _ _) (Nat.min_le_right _ _) hi, testBit_sumOfBits]
    simp only [hmin]
    split
    · next hlt => rw [decide_eq_true hlt, Bool.true_and]
    · next hlt =>
      rw [htop hlt] at h
      simpa [and_assoc] using h.symm
  · next h =>
    rw [getLsbD_ofNat_word _ hi, testBit_sumOfBits]
    simp only [hmin]
    split
    · next hlt => rw [decide_eq_true hlt, Bool.true_and]
    · next hlt =>
      rw [htop hlt] at h
      simpa [hlt] using h

/-- The first index at which p holds, or the number of indices, counts those before it at which p fails. -/
theorem find?_getD_eq_takeWhile_length (p : Nat → Bool) (n k : Nat) :
    ((List.range' k n).find? p).getD (k + n) = k + ((List.range' k n).takeWhile (fun i => !p i)).length := by
  induction n generalizing k with
  | zero => simp
  | succ n ih =>
    rw [List.range'_succ, List.find?_cons, List.takeWhile_cons]
    cases hp : p k
    · simp only [Bool.not_false, if_true, List.length_cons]
      rw [show k + (n + 1) = k + 1 + n by omega, ih]
      omega
    · simp

theorem find?_getD_range (p : Nat → Bool) (n : Nat) :
    ((List.range n).find? p).getD n = ((List.range n).takeWhile (fun i => !p i)).length := by
  have h := find?_getD_eq_takeWhile_length p n 0
  rwa [Nat.zero_add, Nat.zero_add, ← List.range_eq_range'] at h

/-! ### Elements joined into words -/

theorem testBit_joinElems {w : Nat} (hw : 0 < w) (es : List Nat) (i : Nat) :
    (joinElems w es).testBit i = (decide (i / w < es.length) && (es.getD (i / w) 0).testBit (i % w)) := by
  induction es generalizing i with
  | nil => simp [joinElems]
  | cons e es ih =>
    have hlt : e % 2 ^ w < 2 ^ w := Nat.mod_lt _ (by positivity)
    rw [joinElems, Nat.add_comm, Nat.testBit_two_pow_mul_add _ hlt]
    split
    · next h => simp [Nat.div_eq_of_lt h, Nat.mod_eq_of_lt h, h]
    · next h =>
      obtain ⟨k, rfl⟩ : ∃ k, i = k + w := ⟨i - w, by omega⟩
      rw [Nat.add_sub_cancel, ih, Nat.add_div_right k hw, Nat.add_mod_right]
      simp

theorem fieldBit_unsigned (a : DWord) (p : Nat) : fieldBit false a.toNat p = (lo32 a).getLsbD p := by
  rw [fieldBit, Bool.false_and, lo32, BitVec.getLsbD_setWidth]
  by_cases h : p < 32 <;> simp [h, BitVec.getLsbD]

theorem fieldBit_signed (a : DWord) (p : Nat) : fieldBit true a.toNat p = (lo32 a).getLsbD (min p 31) := by
  rw [fieldBit, Bool.true_and, getLsbD_lo32 a (by omega)]
  split
  · next h => rw [Nat.min_eq_left (by omega)]; rfl
  · next h => rw [Nat.min_eq_right (by omega)]; rfl

/-- A byte that the byte switch selects (R114). -/
theorem switchByte_eq (src k : Nat) :
    (match bitsOf k 4 3 with
    | 0 => src / 2 ^ (8 * bitsOf k 2 0) % 256
    | 1 => 0
    | 2 => if src / 2 ^ (8 * bitsOf k 2 0) % 256 ≥ 128 then 255 else 0
    | _ => 255) = switchByte src k := by
  have hsel : bitsOf k 2 0 = k % 8 := by simp [bitsOf]
  have hmode : bitsOf k 4 3 = k / 8 % 4 := by simp [bitsOf, Nat.shiftRight_eq_div_pow]
  have hlt : k / 8 % 4 < 4 := Nat.mod_lt _ (by decide)
  rw [hsel, hmode, switchByte]
  generalize k / 8 % 4 = m at hlt
  interval_cases m <;> rfl

theorem getLsbD_bsw (a b c : Nat) {i : Nat} (hi : i < 32) :
    (bsw a b c).getLsbD i = (switchByte (a + b * 2 ^ 32) (c / 2 ^ (8 * (i / 8)) % 256)).testBit (i % 8) := by
  have hbyte : i / 8 < 4 := by omega
  rw [bsw, getLsbD_ofNat_word _ hi, testBit_joinElems (by decide), List.length_map, List.length_range, decide_eq_true hbyte, Bool.true_and,
    List.getD_eq_getElem _ _ (by simpa using hbyte), List.getElem_map, List.getElem_range]
  exact congrArg (Nat.testBit · (i % 8)) (switchByte_eq _ _)

theorem bitFieldRows_hold : ∀ r ∈ bitFieldRows, r.Holds := by
  simp only [bitFieldRows, List.forall_mem_cons]
  refine ⟨holds_of_bits _ exec_bfeN32 fun a b c _ _ _ i hi => ?_,
    holds_of_bits _ exec_bfeI32 fun a b c _ _ _ i hi => ?_,
    holds_of_runR _ exec_popcB32 fun a b c _ _ _ => ?_,
    holds_of_runR _ exec_clzB32 fun a b c _ _ _ => ?_,
    holds_of_runR _ exec_ctzB32 fun a b c _ _ _ => ?_,
    holds_of_bits _ exec_brevB32 fun a b c _ _ _ i hi => ?_,
    holds_of_bits _ exec_bswB32 fun a b c ha hb hc i hi => ?_, by simp⟩
  · rw [getLsbD_bfe _ _ _ _ hi, getLsbD_wordOfBits _ hi, fieldBit_unsigned]
    split <;> simp [*]
  · rw [getLsbD_bfe _ _ _ _ hi, getLsbD_wordOfBits _ hi, fieldBit_signed, fieldBit_signed, Bool.true_and]
    split
    · next h => rw [decide_eq_true (show 0 < c.toNat % 256 by omega), Bool.true_and, Nat.min_eq_left (show i ≤ c.toNat % 256 - 1 by omega)]
    · next h => rw [Nat.min_eq_right (show c.toNat % 256 - 1 ≤ i by omega)]
  · simp only [List.countP_eq_length_filter]
    rfl
  · rw [find?_getD_range]
    rfl
  · rw [find?_getD_range]
    rfl
  · rw [BitVec.getLsbD_reverse, BitVec.getMsbD_eq_getLsbD, decide_eq_true hi, Bool.true_and, getLsbD_lo32 _ (by omega), getLsbD_wordOfBits _ hi]
  · have hlow : ∀ v : DWord, v.toNat < 2 ^ 32 → (lo32 v).toNat = v.toNat := fun v h => by rw [lo32, BitVec.toNat_setWidth, Nat.mod_eq_of_lt h]
    rw [getLsbD_bsw _ _ _ hi, getLsbD_wordOfBits _ hi, hlow a (ha rfl), hlow b (hb rfl), Nat.add_comm]

theorem testBit_fieldMask (len pos i : Nat) : ((2 ^ len - 1) * 2 ^ pos).testBit i = decide (pos ≤ i ∧ i < pos + len) := by
  rw [Nat.testBit_mul_two_pow, Nat.testBit_two_pow_sub_one, Bool.decide_and]
  by_cases h : pos ≤ i
  · simp only [h, decide_true, Bool.true_and]
    exact decide_eq_decide.mpr (by omega)
  · simp [h]

/-- The low bits of b at a position of a (R112). -/
theorem insertField_eq (a b : Word) (pos len : Nat) :
    (a &&& ~~~BitVec.ofNat 32 ((2 ^ len - 1) * 2 ^ pos)) ||| ((b <<< pos) &&& BitVec.ofNat 32 ((2 ^ len - 1) * 2 ^ pos)) =
      wordOfBits (fun i => if pos ≤ i ∧ i < pos + len then b.getLsbD (i - pos) else a.getLsbD i) := by
  refine eq_wordOfBits fun i hi => ?_
  simp only [BitVec.getLsbD_or, BitVec.getLsbD_and, BitVec.getLsbD_not, getLsbD_ofNat_word _ hi, testBit_fieldMask, BitVec.getLsbD_shiftLeft,
    decide_eq_true hi, Bool.true_and]
  split
  · next h => simp [h]
  · next h => simp [h]

theorem bitFieldInsert : BitFieldInsert := by
  intro f s c hi hs x
  rw [exec_bfiB32, execBfiB32]
  refine answers_justWrite hi hs ?_
  simp only [insertField_eq]
  rfl

/-- Settles O3: each row's bits are the model's. -/
theorem bitResults : Obligations.BitResults :=
  ⟨bitwiseRows_hold, shiftRows_hold, bitFieldRows_hold, bitFieldInsert⟩

/-! ## Packed rows (R117, R118) -/

theorem testBit_top {w x : Nat} (hw : 0 < w) (hx : x < 2 ^ w) : x.testBit (w - 1) = decide (2 ^ (w - 1) ≤ x) := by
  obtain ⟨n, rfl⟩ : ∃ n, w = n + 1 := ⟨w - 1, by omega⟩
  rw [Nat.add_sub_cancel, Nat.testBit_eq_decide_div_mod_eq]
  have hdiv : x / 2 ^ n < 2 := by rw [Nat.div_lt_iff_lt_mul (by positivity)]; omega
  have hle : 1 ≤ x / 2 ^ n ↔ 2 ^ n ≤ x := by rw [Nat.le_div_iff_mul_le (by positivity), Nat.one_mul]
  rw [decide_eq_decide, ← hle]
  generalize x / 2 ^ n = q at hdiv
  omega

theorem svalN_eq {w x : Nat} (hw : 0 < w) (hx : x < 2 ^ w) : svalN x w = if 2 ^ (w - 1) ≤ x then (x : Int) - 2 ^ w else x := by
  simp only [svalN, bitOf, testBit_top hw hx, decide_eq_true_eq]
  rw [Nat.mod_eq_of_lt hx, Int.emod_eq_of_lt (by omega) (by exact_mod_cast hx)]

/-- An element as the model reads it is the row's. -/
theorem elemVal_eq_element (signed : Bool) {w : Nat} (hw : 0 < w) (v : DWord) (i : Nat) :
    elemVal signed w (v.toNat / 2 ^ (w * i) % 2 ^ w) = element signed w v i := by
  have hlt : v.toNat / 2 ^ (w * i) % 2 ^ w < 2 ^ w := Nat.mod_lt _ (by positivity)
  have hcast : ((v.toNat / 2 ^ (w * i) % 2 ^ w : Nat) : Int) = (v.toNat : Int) / 2 ^ (w * i) % 2 ^ w := by push_cast; rfl
  have hle : (2 : Int) ^ (w - 1) ≤ (v.toNat / 2 ^ (w * i) % 2 ^ w : Nat) ↔ 2 ^ (w - 1) ≤ v.toNat / 2 ^ (w * i) % 2 ^ w := by norm_cast
  cases signed
  · simp [elemVal, element]
  · simp only [elemVal, element, if_true, true_and, svalN_eq hw hlt, ← hcast, hle]

theorem joinElems_append (w : Nat) (es : List Nat) (e : Nat) : joinElems w (es ++ [e]) = joinElems w es + 2 ^ (w * es.length) * (e % 2 ^ w) := by
  induction es with
  | nil => simp [joinElems]
  | cons x xs ih =>
    rw [List.cons_append, joinElems, ih, joinElems, List.length_cons]
    ring

/-- Elements joined are the sum that the packed rows write down. -/
theorem joinElems_eq_sum (w n : Nat) (e : Nat → Nat) :
    (joinElems w ((List.range n).map e) : Int) = ((List.range n).map (fun i => (e i : Int) % 2 ^ w * 2 ^ (w * i))).sum := by
  induction n with
  | zero => rfl
  | succ n ih =>
    rw [List.range_succ, List.map_append, List.map_append, List.sum_append, List.map_singleton, List.map_singleton, joinElems_append,
      Nat.cast_add, ih]
    simp [mul_comm]

theorem wrapFit_cast (w : Nat) (x : Int) : (wrapFit w x : Int) = x % 2 ^ w :=
  Int.toNat_of_nonneg (Int.emod_nonneg x (by positivity))

theorem packed_eq_packElements (signed sat : Bool) {w : Nat} (hw : 0 < w) (op : Int → Int → Int) (a b : DWord) :
    packed w signed sat op a b = packElements w (fun i =>
      if sat then max (-(2 ^ (w - 1))) (min (op (element signed w a i) (element signed w b i)) (2 ^ (w - 1) - 1))
      else op (element signed w a i) (element signed w b i)) := by
  rw [packed, packElements, ← BitVec.ofInt_natCast, joinElems_eq_sum]
  congr 3
  funext i
  simp only [elemVal_eq_element signed hw, satFit, ← apply_ite (wrapFit w), wrapFit_cast, Int.emod_emod_of_dvd _ dvd_rfl]

theorem foldl_add_eq_sum (l : List Int) (c : Int) : l.foldl (· + ·) c = c + l.sum := by
  induction l generalizing c with
  | nil => simp
  | cons x xs ih => rw [List.foldl_cons, ih, List.sum_cons, add_assoc]

theorem dot_eq_dotRow (signed : Bool) {w : Nat} (hw : 0 < w) (a b : DWord) {c : DWord} (hc : c.toNat < 2 ^ 32) :
    dot w signed a b c = dotRow signed w a b c := by
  have hlow : (lo32 c).toNat = c.toNat := by rw [lo32, BitVec.toNat_setWidth, Nat.mod_eq_of_lt hc]
  simp only [dot, dotRow, elemVal_eq_element signed hw, hlow, foldl_add_eq_sum]

theorem packedRows_hold : ∀ r ∈ packedRows, r.Holds := by
  have h16 : 0 < 16 := by decide
  have h8 : 0 < 8 := by decide
  have h4 : 0 < 4 := by decide
  simp only [packedRows, List.forall_mem_cons]
  exact ⟨holds_of_runR _ exec_vaddI16x2 fun _ _ _ _ _ _ => packed_eq_packElements true false h16 _ _ _,
    holds_of_runR _ exec_vsubI16x2 fun _ _ _ _ _ _ => packed_eq_packElements true false h16 _ _ _,
    holds_of_runR _ exec_vaddI8x4 fun _ _ _ _ _ _ => packed_eq_packElements true false h8 _ _ _,
    holds_of_runR _ exec_vsubI8x4 fun _ _ _ _ _ _ => packed_eq_packElements true false h8 _ _ _,
    holds_of_runR _ exec_vminI16x2 fun _ _ _ _ _ _ => packed_eq_packElements true false h16 _ _ _,
    holds_of_runR _ exec_vmaxI16x2 fun _ _ _ _ _ _ => packed_eq_packElements true false h16 _ _ _,
    holds_of_runR _ exec_vminI8x4 fun _ _ _ _ _ _ => packed_eq_packElements true false h8 _ _ _,
    holds_of_runR _ exec_vmaxI8x4 fun _ _ _ _ _ _ => packed_eq_packElements true false h8 _ _ _,
    holds_of_runR _ exec_vminN8x4 fun _ _ _ _ _ _ => packed_eq_packElements false false h8 _ _ _,
    holds_of_runR _ exec_vmaxN8x4 fun _ _ _ _ _ _ => packed_eq_packElements false false h8 _ _ _,
    holds_of_runR _ exec_vaddsatI16x2 fun _ _ _ _ _ _ => packed_eq_packElements true true h16 _ _ _,
    holds_of_runR _ exec_vaddsatI8x4 fun _ _ _ _ _ _ => packed_eq_packElements true true h8 _ _ _,
    holds_of_runR _ exec_dp4I8x4 fun _ _ _ _ _ hc => dot_eq_dotRow true h8 _ _ (hc rfl),
    holds_of_runR _ exec_dp4N8x4 fun _ _ _ _ _ hc => dot_eq_dotRow false h8 _ _ (hc rfl),
    holds_of_runR _ exec_dp2I16x2 fun _ _ _ _ _ hc => dot_eq_dotRow true h16 _ _ (hc rfl),
    holds_of_runR _ exec_dp8I4x8 fun _ _ _ _ _ hc => dot_eq_dotRow true h4 _ _ (hc rfl), by simp⟩

/-- Settles O2: each row's arithmetic is the model's, as an equation between words. -/
theorem integerResults : Obligations.IntegerResults :=
  ⟨integerRows_hold, carryFormsWriteSumAndCarry, packedRows_hold⟩

end Sys2Proof.Proofs.RegisterRows
end

