-- ==== Sys2Proof/Proofs/FloatRows.lean ====
section
/-!
PROOF. Proofs/FloatRows.lean: the rows of the floating-point instructions, the special functions and the conversions (06 R124 to R139).
-/

namespace Sys2Proof.Proofs.FloatRows

open Sys2Proof Sys2Proof.Machine Sys2Proof.Claims Sys2Proof.Proofs.RegisterRows

/-! ## Floating instructions that complete -/

/-- A floating issue completes with its lanes' results, where the lanes read nothing of the issuing crew's bookkeeping. -/
theorem fpCompletes_of_issue {i : Instr} {sp : Spec} {bad : Crew → Bool} {regs : Ctx → List Nat} {bits : Word} {lane : Ctx → State → Nat → LaneRes}
    (hexec : ∀ s, exec i s = issue sp bad (fun x s => fpDone x s bits (regs x) (lane x s)) s)
    (hlane : ∀ x (s : State) e, lane x (s.setCrew e) = lane x s) : FpCompletes i sp bad regs bits lane := by
  intro s c hi hs x hno
  rw [hexec]
  rw [← hlane x s.opening (s.issuing c sp)] at hno ⊢
  exact fp_completes hi hs rfl hno

/-- A row holds whose instruction computes an operation that agrees with the row's on values that fit their operands. -/
theorem holds_of_runFR {r : RowF} (op : FOp) (hexec : ∀ f s, exec (r.instr f) s = runFR f r.use r.pair r.lat op s)
    (hop : ∀ md a b c, Fits r.use.a a → op md a.toNat b c = r.op md a.toNat b c) : r.Holds := by
  obtain ⟨instr, use, pair, lat, rowOp⟩ := r
  intro f
  refine fpCompletes_of_issue (fun s => ?_) (fun _ _ _ => rfl)
  rw [hexec, runFR, runFp]
  simp only [hop _ _ _ _ (fits_opA _ _ _ _ _)]
  cases pair <;> rfl

/-! ## Arithmetic (R124 to R128) -/

theorem floatRows_hold : ∀ r ∈ floatRows, r.Holds := by
  simp only [floatRows, List.forall_mem_cons]
  exact ⟨holds_of_runFR _ exec_faddF32 fun _ _ _ _ _ => rfl, holds_of_runFR _ exec_fsubF32 fun _ _ _ _ _ => rfl,
    holds_of_runFR _ exec_fmulF32 fun _ _ _ _ _ => rfl, holds_of_runFR _ exec_ffmaF32 fun _ _ _ _ _ => rfl,
    holds_of_runFR _ exec_fminF32 fun _ _ _ _ _ => rfl, holds_of_runFR _ exec_fmaxF32 fun _ _ _ _ _ => rfl,
    holds_of_runFR _ exec_haddF16x2 fun _ _ _ _ _ => rfl, holds_of_runFR _ exec_hmulF16x2 fun _ _ _ _ _ => rfl,
    holds_of_runFR _ exec_hfmaF16x2 fun _ _ _ _ _ => rfl, holds_of_runFR _ exec_hminF16x2 fun _ _ _ _ _ => rfl,
    holds_of_runFR _ exec_hmaxF16x2 fun _ _ _ _ _ => rfl, holds_of_runFR _ exec_haddBf16x2 fun _ _ _ _ _ => rfl,
    holds_of_runFR _ exec_hmulBf16x2 fun _ _ _ _ _ => rfl, holds_of_runFR _ exec_hfmaBf16x2 fun _ _ _ _ _ => rfl,
    holds_of_runFR _ exec_hminBf16x2 fun _ _ _ _ _ => rfl, holds_of_runFR _ exec_hmaxBf16x2 fun _ _ _ _ _ => rfl,
    holds_of_runFR _ exec_daddF64 fun _ _ _ _ _ => rfl, holds_of_runFR _ exec_dsubF64 fun _ _ _ _ _ => rfl,
    holds_of_runFR _ exec_dmulF64 fun _ _ _ _ _ => rfl, holds_of_runFR _ exec_dfmaF64 fun _ _ _ _ _ => rfl,
    holds_of_runFR _ exec_dminF64 fun _ _ _ _ _ => rfl, holds_of_runFR _ exec_dmaxF64 fun _ _ _ _ _ => rfl, by simp⟩

theorem floatImmediateResults : FloatImmediateResults := by
  intro f sp lane
  constructor
  · refine fpCompletes_of_issue (fun s => ?_) (fun _ _ _ => rfl)
    rw [exec_fmuliF32, execFmuliF32, runFI, runFp]
    rfl
  · refine fpCompletes_of_issue (fun s => ?_) (fun _ _ _ => rfl)
    rw [exec_faddiF32, execFaddiF32, runFI, runFp]
    rfl

/-! ## Classes (R129) -/

/-- The sign bit, the exponent field and the fraction field of a code, as `classBit` reads them, and the exponent field of infinities and NaNs. -/
def signField (f : NFmt) (c : Nat) : Bool := decide (c / 2 ^ (f.width - 1) % 2 = 1)
def expField (f : NFmt) (c : Nat) : Nat := c / 2 ^ f.frac % 2 ^ (f.width - 1 - f.frac)
def fracField (f : NFmt) (c : Nat) : Nat := c % 2 ^ f.frac
def expTop (f : NFmt) : Nat := 2 ^ (f.width - 1 - f.frac) - 1

/-- The code without its sign. -/
def magField (f : NFmt) (c : Nat) : Nat := c % 2 ^ (f.width - 1)

/-- A format of sign, exponent and fraction whose largest exponent field holds infinity and the NaNs. -/
structure Ieee (f : NFmt) : Prop where
  float : f.isFloat = true
  named : f ≠ .e4m3
  frac_pos : 0 < f.frac
  frac_lt : f.frac < f.width - 1
  max_lt : f.maxCode + 1 = expTop f * 2 ^ f.frac
  inf_eq : f.inf? = some (expTop f * 2 ^ f.frac)

theorem ieee_f32 : Ieee .f32 := ⟨rfl, by decide, by decide, by decide, rfl, rfl⟩
theorem ieee_f64 : Ieee .f64 := ⟨rfl, by decide, by decide, by decide, rfl, rfl⟩

section
variable {f : NFmt} (hf : Ieee f) (c : Nat)

theorem fracField_lt : fracField f c < 2 ^ f.frac := Nat.mod_lt _ (by positivity)

theorem expField_le : expField f c ≤ expTop f := Nat.le_sub_one_of_lt (Nat.mod_lt _ (by positivity))

/-- The class bit by the fields of the code. -/
theorem classBit_eq : classBit f c = if expField f c = expTop f then
      (if fracField f c = 0 then (if signField f c then 2 else 9) else if 2 ^ (f.frac - 1) ≤ fracField f c then 1 else 0)
    else if expField f c = 0 then (if fracField f c = 0 then (if signField f c then 5 else 6) else if signField f c then 4 else 7)
    else if signField f c then 3 else 8 := by
  simp only [signField, decide_eq_true_eq]
  rfl

include hf

theorem two_pow_width : 2 ^ (f.width - 1) = 2 ^ f.frac * 2 ^ (f.width - 1 - f.frac) := by
  rw [← Nat.pow_add, Nat.add_sub_cancel' hf.frac_lt.le]

theorem magField_mod : magField f c % 2 ^ f.frac = fracField f c := by
  rw [magField, two_pow_width hf, Nat.mod_mul_right_mod, fracField]

theorem magField_div : magField f c / 2 ^ f.frac = expField f c := by
  rw [magField, two_pow_width hf, Nat.mod_mul_right_div_self, expField]

theorem magField_eq : magField f c = expField f c * 2 ^ f.frac + fracField f c := by
  rw [← magField_mod hf, ← magField_div hf, Nat.mul_comm, Nat.div_add_mod]

theorem magField_le_maxCode_iff : magField f c ≤ f.maxCode ↔ expField f c ≠ expTop f := by
  rw [← magField_div hf, ← Nat.lt_succ_iff, Nat.succ_eq_add_one, hf.max_lt, ← Nat.div_lt_iff_lt_mul (by positivity), magField_div hf]
  have := expField_le (f := f) c
  omega

theorem decode_of_expTop (he : expField f c = expTop f) :
    f.decode c = if fracField f c = 0 then .inf (signField f c) else .nan (decide (fracField f c < 2 ^ (f.frac - 1))) := by
  have hinf : (f.inf? = some (magField f c)) ↔ fracField f c = 0 := by
    rw [hf.inf_eq, Option.some.injEq, magField_eq hf, he]
    omega
  have hquiet : (f != .e4m3 && !bitOf (fracField f c) (f.frac - 1)) = decide (fracField f c < 2 ^ (f.frac - 1)) := by
    rw [bne_iff_ne.mpr hf.named, Bool.true_and, bitOf, testBit_top hf.frac_pos (fracField_lt c), ← decide_not, decide_eq_decide, Nat.not_le]
  have hmax := (magField_le_maxCode_iff hf c).not.mpr (not_not.mpr he)
  show (if f.isFloat then if magField f c ≤ f.maxCode then _ else if f.inf? = some (magField f c) then _ else
    Val.nan (f != .e4m3 && !bitOf (magField f c % 2 ^ f.frac) (f.frac - 1)) else _) = _
  rw [if_pos hf.float, if_neg hmax, magField_mod hf, hquiet]
  exact ite_congr (propext hinf) (fun _ => congrArg Val.inf Nat.testBit_eq_decide_div_mod_eq) fun _ => rfl

theorem decode_of_expField_ne (he : expField f c ≠ expTop f) :
    ∃ k, f.decode c = .fin (signField f c) (if expField f c = 0 then fracField f c else 2 ^ f.frac + fracField f c) k false := by
  have hmax := (magField_le_maxCode_iff hf c).mpr he
  have hsign : bitOf c (f.width - 1) = signField f c := Nat.testBit_eq_decide_div_mod_eq
  have hdec : f.decode c = if magField f c / 2 ^ f.frac = 0 then .fin (bitOf c (f.width - 1)) (magField f c % 2 ^ f.frac) (f.emin - f.frac) false
      else .fin (bitOf c (f.width - 1)) (2 ^ f.frac + magField f c % 2 ^ f.frac) (((magField f c / 2 ^ f.frac : Nat) : Int) - f.bias - f.frac) false := by
    show (if f.isFloat then if magField f c ≤ f.maxCode then _ else _ else _) = _
    rw [if_pos hf.float, if_pos hmax]
    rfl
  rw [hdec, magField_div hf, magField_mod hf, hsign]
  split
  · exact ⟨_, rfl⟩
  · exact ⟨_, rfl⟩

theorem subnormal_eq : f.subnormal c = decide (expField f c = 0 ∧ fracField f c ≠ 0) := by
  have hdiv : magField f c < 2 ^ f.frac ↔ expField f c = 0 := by
    rw [← magField_div hf, Nat.div_eq_zero_iff_lt (by positivity)]
  have hpos : 0 < magField f c ↔ expField f c ≠ 0 ∨ fracField f c ≠ 0 := by
    have := Nat.two_pow_pos f.frac
    rw [magField_eq hf, Nat.pos_iff_ne_zero, Ne, Nat.add_eq_zero_iff, Nat.mul_eq_zero]
    omega
  show (f.isFloat && decide (0 < magField f c) && decide (magField f c < 2 ^ f.frac)) = _
  rw [hf.float, Bool.true_and, ← Bool.decide_and, decide_eq_decide, hdiv, hpos]
  omega

/-- The class word of a code has the bit of its class. -/
theorem classify_eq : classify f c = 2 ^ classBit f c := by
  have hone : 2 ^ f.frac ≠ 0 := by positivity
  rw [classBit_eq, classify]
  by_cases htop : expField f c = expTop f
  · rw [decode_of_expTop hf c htop, if_pos htop]
    by_cases hm : fracField f c = 0
    · cases signField f c <;> simp [hm]
    · by_cases hq : 2 ^ (f.frac - 1) ≤ fracField f c
      · simp [hm, hq, Nat.not_lt.mpr hq]
      · simp [hm, hq, Nat.not_le.mp hq]
  · obtain ⟨k, hk⟩ := decode_of_expField_ne hf c htop
    rw [hk, if_neg htop, subnormal_eq hf]
    by_cases he : expField f c = 0
    · by_cases hm : fracField f c = 0
      · cases signField f c <;> simp [he, hm]
      · cases signField f c <;> simp [he, hm]
    · cases signField f c <;> simp [he]
end

theorem classRows_hold : ∀ r ∈ classRows, r.Holds := by
  simp only [classRows, List.forall_mem_cons]
  refine ⟨holds_of_runFR _ exec_fclsF32 fun _ a _ _ ha => ?_, holds_of_runFR _ exec_dclsF64 fun _ a _ _ _ => ?_, by simp⟩
  · have hlt : a.toNat < 2 ^ 32 := ha rfl
    simp only [Nat.mod_eq_of_lt hlt, classify_eq ieee_f32]
  · simp only [classify_eq ieee_f64]

/-! ## Compares (R130) -/

theorem test_eq_predHolds (p : FPred) (a y : Val) : p.test a y = predHolds p a y := by cases p <;> rfl
theorem nv_eq_predNv (p : FPred) (a y : Val) : p.nv a y = predNv p a y := by cases p <;> simp [FPred.nv, predNv]

theorem holds_of_runFcmp {r : RowFc} (hexec : ∀ f s, exec (r.instr f) s = runFcmp f r.pair r.pred s) : r.Holds := by
  obtain ⟨instr, pair, pred⟩ := r
  intro f
  refine fpCompletes_of_issue (fun s => ?_) (fun _ _ _ => rfl)
  rw [hexec]
  unfold runFcmp fcmpSrcs RowFc.spec RowFc.lane cmpImmF cmpImmediate
  simp only [test_eq_predHolds, nv_eq_predNv]
  generalize f.sub.getLsbD 6 = imm
  cases pair <;> cases imm <;> rfl

theorem floatCompareRows_hold : ∀ r ∈ floatCompareRows, r.Holds := by
  simp only [floatCompareRows, List.forall_mem_cons]
  exact ⟨holds_of_runFcmp exec_fcmpEqF32, holds_of_runFcmp exec_fcmpNeF32, holds_of_runFcmp exec_fcmpLtF32, holds_of_runFcmp exec_fcmpLeF32,
    holds_of_runFcmp exec_fcmpGtF32, holds_of_runFcmp exec_fcmpGeF32, holds_of_runFcmp exec_fcmpUnF32, holds_of_runFcmp exec_fcmpOrF32,
    holds_of_runFcmp exec_dcmpEqF64, holds_of_runFcmp exec_dcmpNeF64, holds_of_runFcmp exec_dcmpLtF64, holds_of_runFcmp exec_dcmpLeF64,
    holds_of_runFcmp exec_dcmpGtF64, holds_of_runFcmp exec_dcmpGeF64, holds_of_runFcmp exec_dcmpUnF64, holds_of_runFcmp exec_dcmpOrF64, by simp⟩

/-- Settles O6: each row's operation is the one that the model computes in a lane. -/
theorem floatResults : Obligations.FloatResults :=
  ⟨floatRows_hold, floatImmediateResults, classRows_hold, floatCompareRows_hold⟩

/-! ## Special functions (R131, R132) -/

theorem rootRows_hold : ∀ r ∈ rootRows, r.Holds := by
  simp only [rootRows, List.forall_mem_cons]
  exact ⟨holds_of_runFR _ exec_rcpF32 fun _ _ _ _ _ => rfl, holds_of_runFR _ exec_sqrtF32 fun _ _ _ _ _ => rfl,
    holds_of_runFR _ exec_rcpF64 fun _ _ _ _ _ => rfl, holds_of_runFR _ exec_sqrtF64 fun _ _ _ _ _ => rfl, by simp⟩

theorem fpCompletes_of_runFn {i : Instr} {f : FormR} {g : Val → Fn} (hexec : ∀ s, exec i s = runFn f g s) :
    FpCompletes i { specR f (use1 .f32) [one f.d] (.fixed 12) with fpx := true } ((use1 .f32).bad f) (fun x => [x.d 0]) 0xFFFFFFFF#32
      (functionLane g f) := by
  refine fpCompletes_of_issue (fun s => ?_) (fun _ _ _ => rfl)
  rw [hexec, runFn, runFp]
  rfl

/-- Settles O7: each special function is the model's lane by lane. -/
theorem specialFunctionResults : Obligations.SpecialFunctionResults := by
  refine ⟨rootRows_hold, ?_⟩
  simp only [functionRows, List.forall_mem_cons]
  exact ⟨fun f => fpCompletes_of_runFn (exec_rsqrtF32 f), fun f => fpCompletes_of_runFn (exec_exp2F32 f), fun f => fpCompletes_of_runFn (exec_log2F32 f),
    fun f => fpCompletes_of_runFn (exec_sinF32 f), fun f => fpCompletes_of_runFn (exec_cosF32 f), fun f => fpCompletes_of_runFn (exec_tanhF32 f), by simp⟩

end Sys2Proof.Proofs.FloatRows
end

