-- ==== Sys2Proof/Proofs/ConversionRows.lean ====
section
/-!
PROOF. Proofs/ConversionRows.lean: conversions, packs, unpacks and block conversions (06 R133 to R139).
-/

namespace Sys2Proof.Proofs.ConversionRows

open Sys2Proof Sys2Proof.Machine Sys2Proof.Claims Sys2Proof.Proofs.RegisterRows Sys2Proof.Proofs.FloatRows

/-! ## Conversions (R133, R134) -/

theorem codeWords_decide (p : Prop) [Decidable p] (x : Nat) :
    codeWords (decide p) x = BitVec.ofNat 32 x :: (if p then [BitVec.ofNat 32 (x / 2 ^ 32)] else []) := by
  by_cases h : p <;> simp [codeWords, h]

theorem dstRegs_decide (p : Prop) [Decidable p] (x : Ctx) : dstRegs (decide p) x = if p then [x.d 0, x.d 0 + 1] else [x.d 0] := by
  by_cases h : p <;> simp [dstRegs, h]

theorem runCvt_eq (f : FormI) (sr : Bool) (s : State) :
    runCvt f sr s = issue (cvtSpec f) (fun _ => f.sub ≠ 0#7 || (CvtImm.of f.imm).bad sr)
      (fun x s => fpDone x s 0xFFFFFFFF#32 (if (CvtImm.of f.imm).dst.width = 64 then [x.d 0, x.d 0 + 1] else [x.d 0]) (cvtLane f sr x s)) s := by
  unfold runCvt cvtLane
  simp only [codeWords_decide, dstRegs_decide]
  cases (CvtImm.of f.imm).merge <;> rfl

/-! ## Packs and unpacks (R135, R136) -/

theorem wide_pair_toNat (x : Ctx) (s : State) (r : BitVec 8) (l : Nat) :
    (x.wide s r .b64 l).toNat % 2 ^ 32 = (rowAt (x.plain s r.toNat) l).toNat ∧
      (x.wide s r .b64 l).toNat / 2 ^ 32 = (rowAt (x.plain s (r.toNat + 1)) l).toNat := by
  have hlow : (rowAt (x.plain s r.toNat) l).toNat < 2 ^ 32 := BitVec.isLt _
  have happ : (x.wide s r .b64 l).toNat = (rowAt (x.plain s (r.toNat + 1)) l).toNat <<< 32 ||| (rowAt (x.plain s r.toNat) l).toNat :=
    BitVec.toNat_append ..
  rw [happ, Nat.shiftLeft_eq, ← Nat.shiftLeft_eq, ← Nat.shiftLeft_add_eq_or_of_lt hlow, Nat.shiftLeft_eq]
  omega

theorem wide_single_toNat (x : Ctx) (s : State) (r : BitVec 8) (l : Nat) : (x.wide s r .b32 l).toNat = (rowAt (x.row s r.toNat) l).toNat := by
  have hlt : (rowAt (x.row s r.toNat) l).toNat < 2 ^ 32 := BitVec.isLt _
  show ((rowAt (x.row s r.toNat) l).setWidth 64).toNat = _
  rw [BitVec.toNat_setWidth, Nat.mod_eq_of_lt (by omega)]

/-- Elements joined are a sum of the elements at their places. -/
theorem joinElems_eq_sum_getD (w : Nat) (es : List Nat) :
    joinElems w es = ((List.range es.length).map (fun i => es.getD i 0 % 2 ^ w * 2 ^ (w * i))).sum := by
  have hes : es = (List.range es.length).map (fun i => es.getD i 0) := by
    apply List.ext_getElem
    · simp
    · intro i h _
      simp [h]
  have hsum := joinElems_eq_sum w es.length (fun i => es.getD i 0)
  rw [← hes] at hsum
  have hcast : ∀ (n : Nat) (g : Nat → Nat), (((List.range n).map g).sum : Nat) = ((List.range n).map (fun i => (g i : Int))).sum := by
    intro n g
    rw [Nat.cast_list_sum, List.map_map]
    rfl
  apply Int.ofNat.inj
  show ((joinElems w es : Nat) : Int) = (List.sum _ : Nat)
  rw [hsum, hcast]
  push_cast
  rfl

theorem runPack_eq {r : RowPack} (f : FormX) (s : State) :
    runPack f r.dst r.src s = issue (r.spec f) (fun _ => f.rsv ≠ 0#6) (fun x s => fpDone x s 0xFFFFFFFF#32 [x.d 0] (r.lane f x s)) s := by
  unfold runPack runFp RowPack.spec RowPack.lane
  simp only [← joinElems_eq_sum_getD]
  by_cases hp : r.dst.width = 4
  · simp only [hp, if_true, List.flatMap_cons, List.flatMap_nil, (wide_pair_toNat _ _ _ _).1, (wide_pair_toNat _ _ _ _).2]
    rfl
  · simp only [hp, if_false, List.flatMap_cons, List.flatMap_nil, wide_single_toNat]
    rfl

theorem packRows_complete : ∀ r ∈ packRows, ∀ f : FormX,
    FpCompletes (r.instr f) (r.spec f) (fun _ => f.rsv ≠ 0#6) (fun x => [x.d 0]) 0xFFFFFFFF#32 (r.lane f) := by
  simp only [packRows, List.forall_mem_cons]
  exact ⟨fun f => fpCompletes_of_issue (fun s => (exec_packE4m3 f s).trans (runPack_eq (r := ⟨.packE4m3, .e4m3, .f32⟩) f s)) fun _ _ _ => rfl,
    fun f => fpCompletes_of_issue (fun s => (exec_packE5m2 f s).trans (runPack_eq (r := ⟨.packE5m2, .e5m2, .f32⟩) f s)) fun _ _ _ => rfl,
    fun f => fpCompletes_of_issue (fun s => (exec_packE2m1 f s).trans (runPack_eq (r := ⟨.packE2m1, .e2m1, .f32⟩) f s)) fun _ _ _ => rfl,
    fun f => fpCompletes_of_issue (fun s => (exec_packI4 f s).trans (runPack_eq (r := ⟨.packI4, .i4, .i32⟩) f s)) fun _ _ _ => rfl, by simp⟩

theorem fpCompletes_of_runUnpack {r : RowUnpack} (hn : r.n = 32 / r.src.width) (f : FormR)
    (hexec : ∀ s, exec (r.instr f) s = runUnpack f r.ty r.src r.dst r.n s) :
    FpCompletes (r.instr f) (r.spec f) ((use1 r.ty).bad f) (fun x => (List.range r.n).map (fun i => x.d 0 + i)) 0xFFFFFFFF#32 (r.lane f) := by
  refine fpCompletes_of_issue (fun s => ?_) fun _ _ _ => rfl
  rw [hexec]
  unfold runUnpack runFp RowUnpack.lane
  simp only [elemsOf, ← hn, List.map_map, List.foldl_map]
  rfl

theorem unpackRows_complete : ∀ r ∈ unpackRows, ∀ f : FormR, FpCompletes (r.instr f) (r.spec f) ((use1 r.ty).bad f)
    (fun x => (List.range r.n).map (fun i => x.d 0 + i)) 0xFFFFFFFF#32 (r.lane f) := by
  simp only [unpackRows, List.forall_mem_cons]
  exact ⟨fun f => fpCompletes_of_runUnpack rfl f (exec_unpackE4m3 f), fun f => fpCompletes_of_runUnpack rfl f (exec_unpackE5m2 f),
    fun f => fpCompletes_of_runUnpack rfl f (exec_unpackE2m1 f), fun f => fpCompletes_of_runUnpack rfl f (exec_unpackI4 f), by simp⟩

theorem conversionResults : ConversionResults :=
  ⟨fun f => ⟨fpCompletes_of_issue (fun s => (exec_cvt f s).trans (runCvt_eq f false s)) fun _ _ _ => rfl,
    fpCompletes_of_issue (fun s => (exec_cvtSr f s).trans (runCvt_eq f true s)) fun _ _ _ => rfl⟩, packRows_complete, unpackRows_complete⟩

/-! ## Block conversions (R137 to R139) -/

theorem fpDone_congr {x : Ctx} {s : State} {bits : Word} {regs : List Nat} {g h : Nat → LaneRes}
    (heq : ∀ l, l < 64 → x.act.getLsbD l = true → g l = h l) : fpDone x s bits regs g = fpDone x s bits regs h := by
  have hrs : lanes.map (fun l => if x.act.getLsbD l then some (g l) else none) = lanes.map (fun l => if x.act.getLsbD l then some (h l) else none) := by
    apply List.map_congr_left
    intro l hl
    split
    · next ha => rw [heq l (by simpa [lanes] using hl) ha]
    · rfl
  simp only [fpDone, hrs]

/-- The lanes that the model collects for a segment are those of the row. -/
theorem maskLanes_filter_eq (f : FormR) (x : Ctx) (s : State) (l : Nat) :
    (maskLanes x.act).filter (fun k => k / qblkSeg f x s == l / qblkSeg f x s) = qblkLanes f x s l := by
  rw [maskLanes, List.filter_filter, qblkLanes]
  congr 1
  funext k
  rw [Bool.and_comm]

theorem qblkLanes_base (f : FormR) (x : Ctx) (s : State) {l g : Nat} (hg : g / qblkSeg f x s = l / qblkSeg f x s) :
    qblkLanes f x s g = qblkLanes f x s l := by
  rw [qblkLanes, qblkLanes, hg]

theorem qblkWord_base (f : FormR) (x : Ctx) (s : State) {l g : Nat} (hg : g / qblkSeg f x s = l / qblkSeg f x s) :
    qblkWord f x s g = qblkWord f x s l := by
  rw [qblkWord, qblkWord, qblkLanes_base f x s hg]

/-- The segment sizes that R137 allows divide the crew. -/
theorem qblkSeg_dvd {f : FormR} {x : Ctx} {s : State}
    (hseg : 3 ≤ (x.opB s useQ f x.l0).toNat / 16 % 8 ∧ (x.opB s useQ f x.l0).toNat / 16 % 8 ≤ 6) : qblkSeg f x s ∣ 64 :=
  pow_dvd_pow 2 hseg.2

/-- With a valid size and valid control words, qblk is the lanes' results. -/
theorem execQblk_fpDone (f : FormR) :
    ∃ body : Ctx → State → Res Done,
      (∀ s, execQblk f s = issue { specR f useQ [grp f.d 2] (.fixed 14) with fpx := true } (fun c => useQ.bad f c || ctlNibBad c f 7 4) body s) ∧
      ∀ x s, (x.act = 0#64 ∨ (3 ≤ (x.opB s useQ f x.l0).toNat / 16 % 8 ∧ (x.opB s useQ f x.l0).toNat / 16 % 8 ≤ 6)) →
        (∀ l, l < 64 → x.act.getLsbD l → qctlBad (qblkWord f x s l) = false) →
        body x s = fpDone x s 0xFFFFFFFF#32 [x.d 0, x.d 0 + 1] (qblkRes f x s) := by
  refine ⟨_, fun s => rfl, fun x s hseg hctl => ?_⟩
  have hlseg : bitsOf (x.opB s useQ f x.l0).toNat 6 4 = (x.opB s useQ f x.l0).toNat / 16 % 8 := by
    simp [bitsOf, Nat.shiftRight_eq_div_pow]
  have hsize : 2 ^ ((x.opB s useQ f x.l0).toNat / 16 % 8) = qblkSeg f x s := rfl
  have hword : ∀ l, (x.opB s useQ f ((qblkLanes f x s l).headD 0)).toNat = qblkWord f x s l := fun _ => rfl
  have hbad : mkMask (fun l => x.act.getLsbD l && qctlBad (qblkWord f x s l)) = 0#64 :=
    mkMask_zero fun l hl => by
      cases ha : x.act.getLsbD l
      · rfl
      · exact hctl l hl ha
  have hvalid : ¬(x.act ≠ 0#64 ∧ ((x.opB s useQ f x.l0).toNat / 16 % 8 < 3 ∨ 6 < (x.opB s useQ f x.l0).toNat / 16 % 8)) := by
    rintro ⟨hact, hout⟩
    rcases hseg with h0 | ⟨hlo, hhi⟩
    · exact hact h0
    · omega
  simp only [hlseg, hvalid, if_false, hsize, maskLanes_filter_eq, hword, hbad, ne_eq, not_true_eq_false]
  refine fpDone_congr fun l hl ha => ?_
  have hdvd : qblkSeg f x s ∣ 64 := hseg.elim (fun h0 => by rw [h0] at ha; simp at ha) qblkSeg_dvd
  have hpos : 0 < qblkSeg f x s := Nat.two_pow_pos _
  have hin : l / qblkSeg f x s < 64 / qblkSeg f x s := Nat.div_lt_div_of_lt_of_dvd hdvd hl
  have hbase : l / qblkSeg f x s * qblkSeg f x s / qblkSeg f x s = l / qblkSeg f x s := Nat.mul_div_cancel _ hpos
  simp only [List.getD_eq_getElem _ _ (show l / qblkSeg f x s < (List.map _ (List.range (64 / qblkSeg f x s))).length by simpa using hin),
    List.getElem_map, List.getElem_range, qblkLanes_base f x s hbase, qblkWord_base f x s hbase]
  rfl

/-- With valid control words, dqblk is the lanes' results. -/
theorem execDqblk_fpDone (f : FormR) :
    ∃ body : Ctx → State → Res Done,
      (∀ s, execDqblk f s = issue { specR f useDq [one f.d] (.fixed 14) with fpx := true } (fun c => useDq.bad f c || ctlNibBad c f 11 0) body s) ∧
      ∀ x s, (∀ l, l < 64 → x.act.getLsbD l → qctlBad (x.opC s useDq f l).toNat = false) →
        body x s = fpDone x s 0xFFFFFFFF#32 [x.d 0] (dqblkRes f x s) := by
  refine ⟨_, fun s => rfl, fun x s hctl => ?_⟩
  have hbad : mkMask (fun l => x.act.getLsbD l && qctlBad (x.opC s useDq f l).toNat) = 0#64 :=
    mkMask_zero fun l hl => by
      cases ha : x.act.getLsbD l
      · rfl
      · exact hctl l hl ha
  simp only [hbad, ne_eq, not_true_eq_false, if_false]
  rfl

theorem blockQuantisation : BlockQuantisation := by
  constructor
  · intro f s c sp x hi hs hseg hctl hno
    obtain ⟨body, hexec, hbody⟩ := execQblk_fpDone f
    have hbad : (fun c : Crew => useQ.bad f c || (!c.perm && decide (bitsOf f.md.toNat 7 4 ≠ 0))) = fun c => useQ.bad f c || ctlNibBad c f 7 4 := rfl
    rw [hbad] at hi
    rw [exec_qblk, hexec]
    exact fp_completes hi hs (hbody x (s.issued c sp) hseg hctl) hno
  · intro f s c sp x hi hs hctl hno
    obtain ⟨body, hexec, hbody⟩ := execDqblk_fpDone f
    have hbad : (fun c : Crew => useDq.bad f c || (!c.perm && decide (f.md ≠ 0#12))) = fun c => useDq.bad f c || ctlNibBad c f 11 0 := by
      funext c
      have hmd : bitsOf f.md.toNat 11 0 = f.md.toNat := Nat.mod_eq_of_lt f.md.isLt
      have hz : f.md = 0#12 ↔ f.md.toNat = 0 := BitVec.toNat_inj.symm
      simp only [ctlNibBad, hmd, ne_eq, hz]
    rw [hbad] at hi
    rw [exec_dqblk, hexec]
    exact fp_completes hi hs (hbody x (s.issued c sp) hctl) hno

/-- Settles O8: each conversion is the model's lane by lane. -/
theorem conversionAndBlockResults : Obligations.ConversionAndBlockResults :=
  ⟨conversionResults, blockQuantisation⟩

end Sys2Proof.Proofs.ConversionRows
end

