-- ==== Sys2Proof/Proofs/IssueRules.lean ====
section
/-!
PROOF. Proofs/IssueRules.lean: how an instruction that passes the checks of issue ends, in the terms of the claims: it has gone on, it
raises a cause, it waits (02 R42 to R46, R58).
-/

namespace Sys2Proof.Proofs.IssueRules

open Sys2Proof Sys2Proof.Machine Sys2Proof.Claims

theorem answers_mono {o : Out} {P Q : State → Prop} (h : Answers o P) (himp : ∀ t, P t → Q t) : Answers o Q := by
  obtain ⟨t, ht, hp⟩ := h
  exact ⟨t, ht, himp t hp⟩

theorem full_congr (d : Nat) (m : Mask) {g h : Nat → Word} (heq : ∀ l, l < 64 → g l = h l) : Wr.full d m g = Wr.full d m h :=
  congrArg (Wr.mk d · m 0xFFFFFFFF#32) (mkRow_congr heq)

/-- The crew that issues is one of the crews. -/
theorem exists_crew_of_issuer {s : State} {c : Crew} (h : s.opening.issuer? = some c) : ∃ c0 ∈ s.crews, c0.id = c.id := by
  obtain ⟨_, c0, hfind, -⟩ := issuer_find h
  refine ⟨c0, List.mem_of_find?_eq_some hfind, ?_⟩
  simpa using List.find?_some hfind

/-- A crew whose instruction has completed has gone on. -/
theorem goneOn_of_completed {s m t : State} {c e : Crew} {sp : Spec} {wr : List Wr} (hi : s.opening.issuer? = some c) (he : e.id = c.id)
    (h : Completed s m t e sp wr) : GoneOn s c t := by
  obtain ⟨c', rfl, hend⟩ := h
  obtain ⟨c0, hmem, hid⟩ := exists_crew_of_issuer hi
  refine ⟨c', List.mem_map.mpr ⟨c0, hmem, if_pos (by simp [hid, he])⟩, ?_, hend.here.1⟩
  rw [hend.frame]
  exact he

/-- An instruction whose execution finds a cause raises it. -/
theorem raises_of_issue {i : Instr} {s : State} {c : Crew} {sp : Spec} {bad : Crew → Bool} {body : Ctx → State → Res Done} {x : Cause}
    (hexec : exec i s = issue sp bad body s) (h : Issues s c sp bad) (hb : body (s.view c sp) (s.issued c sp) = .error (.raise x))
    (hx : x.atIssue = false) : Raises i s c sp x id := by
  have hcrew : s.opening.atCursor?.map (startCrew s.opening) = some c := h.crew
  obtain ⟨c0, hc0, -⟩ := Option.map_eq_some_iff.mp hcrew
  refine ⟨c0, hc0, ?_⟩
  rw [hexec, issue_stopped h hb]
  simp only [issueStop, hx, Bool.false_eq_true, if_false, raisedCrew, hc0, Option.map_some]
  rfl

/-- An instruction that has to wait leaves all but the mark as it was. -/
theorem issue_holds {s : State} {c : Crew} {sp : Spec} {bad : Crew → Bool} {body : Ctx → State → Res Done}
    (h : Issues s c sp bad) (hb : body (s.view c sp) (s.issued c sp) = .error .hold) :
    issue sp bad body s = .next { s.opening with heldMark := true } :=
  issue_stopped h hb

end Sys2Proof.Proofs.IssueRules
end

