-- ==== Sys2Proof/Proofs/CrossLaneRows.lean ====
section
/-!
PROOF. Proofs/CrossLaneRows.lean: point reads and butterflies (07 R142 to R145).
-/

namespace Sys2Proof.Proofs.CrossLaneRows

open Sys2Proof Sys2Proof.Machine Sys2Proof.Claims Sys2Proof.Proofs.RegisterRows Sys2Proof.Proofs.IssueRules

/-! ## Point reads (R142 to R144) -/

/-- The lanes that want a source and have none. -/
def missing (act : Mask) (source : Nat → Option Nat) : Mask := mkMask (fun l => act.getLsbD l && (source l).isNone)

theorem missing_eq_zero {act : Mask} {source : Nat → Option Nat} (h : ∀ l, l < 64 → act.getLsbD l → (source l).isSome) : missing act source = 0#64 :=
  mkMask_zero fun l hl => by
    cases ha : act.getLsbD l
    · rfl
    · have := h l hl ha
      cases hs : source l <;> simp_all

/-- What a point read does, where `source` says from which lane each lane reads. -/
theorem pointRead_body (f : FormI) (srcs : List Opnd) (bad : Bool) (src : Ctx → State → Nat → Nat → Option Nat) :
    ∃ body : Ctx → State → Res Done,
      (∀ s, pointRead f srcs bad src s = issue (specI f srcs [one f.d] (.fixed 6)) (fun _ => xlBad f true || bad) body s) ∧
      ∀ x s (source : Nat → Option Nat), (∀ l, l < 64 → (src x s l (l % xlSeg f)).filter (fun k => x.act.getLsbD k) = source l) →
        (missing x.act source = 0#64 ∨ f.sub.getLsbD 6 = true →
          body x s = .ok { s := s, wr := [Wr.full (x.d 0) x.act (fun l => match source l with
            | some k => rowAt (x.row s f.a.toNat) k
            | none => 0#32)], ctl := false }) ∧
        (missing x.act source ≠ 0#64 → f.sub.getLsbD 6 = false →
          body x s = .error (.raise (crewCause 0x05 0 0 (missing x.act source) (missing x.act source) false))) := by
  refine ⟨_, fun s => rfl, fun x s source hsource => ?_⟩
  have hget : ∀ l, l < 64 → (lanes.map (fun l => (src x s l (l % xlSeg f)).filter (fun k => x.act.getLsbD k))).getD l none = source l := by
    intro l hl
    rw [getD_map_lanes _ _ hl, hsource l hl]
  have hmiss : mkMask (fun l => x.act.getLsbD l &&
      ((lanes.map (fun l => (src x s l (l % xlSeg f)).filter (fun k => x.act.getLsbD k))).getD l none).isNone) = missing x.act source := by
    apply BitVec.eq_of_getLsbD_eq
    intro l hl
    rw [missing, mkMask_get _ hl, mkMask_get _ hl, hget l hl]
  refine ⟨fun hok => ?_, fun hne hz => ?_⟩
  · have hgo : ¬(missing x.act source ≠ 0#64 ∧ (!xlZ f) = true) := by
      rintro ⟨hne, hz⟩
      rcases hok with h0 | hz'
      · exact hne h0
      · rw [show xlZ f = true from hz'] at hz
        cases hz
    simp only [hmiss]
    rw [if_neg hgo]
    refine congrArg (fun w => (Except.ok { s := s, wr := [w], ctl := false } : Res Done)) (full_congr _ _ fun l hl => ?_)
    rw [hget l hl] <;> cases source l <;> rfl
  · simp only [hmiss]
    exact if_pos ⟨hne, by rw [show xlZ f = false from hz]; rfl⟩

/-- The row's instruction is a point read from the lanes that the row names. -/
structure ReadsPoints (r : RowPoint) (src : FormI → Ctx → State → Nat → Nat → Option Nat) : Prop where
  exec_eq : ∀ f s, exec (r.instr f) s = pointRead f (one f.a :: (if r.index then [⟨f.imm.toNat % 2 ^ 8, 1⟩] else [])) (r.bad f) (src f) s
  source : ∀ f x s l, src f x s l (l % xlSeg f) = r.src f l ((rowAt (x.row s (f.imm.toNat % 2 ^ 8)) l).toNat % 2 ^ 8)

theorem ReadsPoints.completes {r : RowPoint} {src : FormI → Ctx → State → Nat → Nat → Option Nat} (h : ReadsPoints r src) : r.Holds := by
  intro f s c hi hs x hsome
  obtain ⟨body, hexec, hbody⟩ := pointRead_body f (one f.a :: (if r.index then [⟨f.imm.toNat % 2 ^ 8, 1⟩] else [])) (r.bad f) (src f)
  rw [h.exec_eq, hexec]
  have hrun := (hbody x (s.issued c (r.spec f)) (r.from f x s.opening) fun l _ => by rw [h.source]; rfl).1
  exact effect_completes (m := s.issued c (r.spec f)) hi hs
    (hrun (hsome.elim .inr fun hall => .inl (missing_eq_zero hall))) rfl rfl

theorem ReadsPoints.raises {r : RowPoint} {src : FormI → Ctx → State → Nat → Nat → Option Nat} (h : ReadsPoints r src) (f : FormI) (s : State) (c : Crew)
    (hi : Issues s c (r.spec f) (fun _ => xlBad f true || r.bad f)) :
    let x := s.view c (r.spec f)
    let miss := missing x.act (r.from f x s.opening)
    f.sub.getLsbD 6 = false → miss ≠ 0#64 → Raises (r.instr f) s c (r.spec f) (crewCause 0x05 0 0 miss miss false) id := by
  intro x miss hz hne
  obtain ⟨body, hexec, hbody⟩ := pointRead_body f (one f.a :: (if r.index then [⟨f.imm.toNat % 2 ^ 8, 1⟩] else [])) (r.bad f) (src f)
  have hrun := (hbody x (s.issued c (r.spec f)) (r.from f x s.opening) fun l _ => by rw [h.source]; rfl).2 hne hz
  exact raises_of_issue ((h.exec_eq f s).trans (hexec s)) hi hrun rfl

theorem ite_lt_eq_ite_le {α : Type} (a b : Nat) (u v : α) : (if a < b then u else v) = if b ≤ a then v else u := by
  by_cases h : a < b
  · rw [if_pos h, if_neg (Nat.not_le.mpr h)]
  · rw [if_neg h, if_pos (Nat.not_lt.mp h)]

theorem ite_le_eq_ite_lt {α : Type} (a b : Nat) (u v : α) : (if a ≤ b then u else v) = if b < a then v else u :=
  (ite_lt_eq_ite_le b a v u).symm

theorem segBase_eq (f : FormI) (l : Nat) : segBase (xlSeg f) l = segLow f l := by
  show l - l % xlSeg f = l / xlSeg f * xlSeg f
  have := Nat.div_add_mod l (xlSeg f)
  rw [Nat.mul_comm] at this
  omega

/-- The distance as the model takes it from IMM32. -/
theorem xlImm_d (f : FormI) : (XlImm.of f.imm).d = distance f := by
  simp [XlImm.d, XlImm.of, distance, bitsOf, Nat.shiftRight_eq_div_pow]

theorem xlImm_regb (f : FormI) : (XlImm.of f.imm).regb = f.imm.toNat % 2 ^ 8 := by
  simp [XlImm.of, bitsOf]

theorem pointRows_read : ∀ r ∈ pointRows, ∃ src, ReadsPoints r src := by
  simp only [pointRows, List.forall_mem_cons]
  refine ⟨⟨fun f _ _ l o => some (segBase (xlSeg f) l + (if (XlImm.of f.imm).neg then (o + xlSeg f - (XlImm.of f.imm).d % xlSeg f) % xlSeg f
      else (o + (XlImm.of f.imm).d) % xlSeg f)), fun _ _ => rfl, fun f x s l => ?_⟩,
    ⟨fun f _ _ l o => if o < (XlImm.of f.imm).d then none else some (l - (XlImm.of f.imm).d), fun _ _ => rfl, fun f x s l => ?_⟩,
    ⟨fun f _ _ l o => if xlSeg f ≤ o + (XlImm.of f.imm).d then none else some (l + (XlImm.of f.imm).d), fun _ _ => rfl, fun f x s l => ?_⟩,
    ⟨fun f x s l _ => if xlSeg f ≤ (rowAt (x.row s (XlImm.of f.imm).regb) l).toNat % 256 then none
      else some (segBase (xlSeg f) l + (rowAt (x.row s (XlImm.of f.imm).regb) l).toNat % 256), fun f s => ?_, fun f x s l => ?_⟩,
    ⟨fun f _ _ l _ => some (segBase (xlSeg f) l + (XlImm.of f.imm).d), fun f s => ?_, fun f x s l => ?_⟩, by simp⟩
  · rw [segBase_eq, xlImm_d]
    rfl
  · rw [xlImm_d]
    exact ite_lt_eq_ite_le _ _ _ _
  · rw [xlImm_d]
    exact ite_le_eq_ite_lt _ _ _ _
  · rw [exec_xlaneIdx, execXlaneIdx, xlImm_regb]
    rfl
  · rw [segBase_eq, xlImm_regb]
    exact ite_le_eq_ite_lt _ _ _ _
  · rw [exec_xbcast, execXbcast, xlImm_d]
    rfl
  · rw [segBase_eq, xlImm_d]

theorem laneReads_points : ∀ r ∈ pointRows, r.Holds := fun r hr => (pointRows_read r hr).elim fun _ h => h.completes

theorem missingSourceTraps : MissingSourceTraps := fun r hr f s c hi => (pointRows_read r hr).elim fun _ h => h.raises f s c hi

/-! ## The butterfly (R145) -/

theorem group_exponent (f : FormI) : (XlImm.of f.imm).regb % 8 = f.imm.toNat % 8 := by
  rw [xlImm_regb]
  omega

/-- Bits 16 to 18 and 20 to 31 of IMM32 are zero. -/
theorem xlImm_rsv_or_neg (f : FormI) :
    ((XlImm.of f.imm).rsv || (XlImm.of f.imm).neg) = (decide (f.imm.toNat / 2 ^ 20 ≠ 0) || decide (f.imm.toNat / 2 ^ 16 % 8 ≠ 0)) := by
  have hneg : (XlImm.of f.imm).neg = decide (f.imm.toNat / 2 ^ 18 % 2 = 1) := by
    show f.imm.toNat.testBit 18 = _
    exact Nat.testBit_eq_decide_div_mod_eq
  have hlt : f.imm.toNat < 2 ^ 32 := f.imm.isLt
  rw [hneg, Bool.eq_iff_iff]
  simp only [XlImm.of, bitsOf, Nat.shiftRight_eq_div_pow, Bool.or_eq_true, decide_eq_true_eq]
  omega

/-- A distance below 32 is a power of two exactly where the model says so. -/
theorem distance_pow_iff {d : Nat} (hd : d < 32) : (decide (0 < d) && d == 2 ^ d.log2) = (List.range 6).any (fun k => d == 2 ^ k) := by
  decide +revert

theorem bflyBad_eq (f : FormI) : (xlBad f true || (XlImm.of f.imm).rsv || (XlImm.of f.imm).neg ||
    ((XlImm.of f.imm).wrel && decide (7 < (XlImm.of f.imm).dist)) || (XlImm.of f.imm).regb / 8 ≠ 0 || decide (5 < f.imm.toNat % 8) ||
      decide (xlSeg f ≤ distance f) || (decide (1 ≤ f.imm.toNat % 8) &&
        !(decide (0 < distance f) && distance f == 2 ^ (distance f).log2 && decide (distance f < 2 ^ (f.imm.toNat % 8))))) = bflyBad f := by
  have hdist : (XlImm.of f.imm).dist = f.imm.toNat / 2 ^ 8 % 2 ^ 8 := by simp [XlImm.of, bitsOf, Nat.shiftRight_eq_div_pow]
  have hregb : decide ((XlImm.of f.imm).regb / 8 ≠ 0) = decide (f.imm.toNat / 8 % 32 ≠ 0) := by
    rw [xlImm_regb]
    congr 1
    apply propext
    omega
  have hone : decide (1 ≤ f.imm.toNat % 8) = decide (1 < 2 ^ (f.imm.toNat % 8)) := by
    congr 1
    apply propext
    rw [Nat.one_lt_two_pow_iff]
    omega
  rw [hdist, hregb, hone, Bool.or_assoc (xlBad f true), xlImm_rsv_or_neg]
  by_cases hg : 5 < f.imm.toNat % 8
  · simp [bflyBad, hg]
  · have hpow : ((decide (0 < distance f) && distance f == 2 ^ (distance f).log2) && decide (distance f < 2 ^ (f.imm.toNat % 8))) =
        ((List.range 6).any (fun k => distance f == 2 ^ k) && decide (distance f < 2 ^ (f.imm.toNat % 8))) := by
      by_cases hlt : distance f < 2 ^ (f.imm.toNat % 8)
      · have : 2 ^ (f.imm.toNat % 8) ≤ 2 ^ 5 := Nat.pow_le_pow_right (by decide) (by omega)
        rw [distance_pow_iff (by omega)]
      · simp [hlt]
    rw [hpow, ← Bool.or_assoc (xlBad f true)]
    rfl

/-- Where bfly issues with a group, its distance is a power of two below the size of the group. -/
theorem distance_pow {f : FormI} (hbad : bflyBad f = false) (hg : f.imm.toNat % 8 ≠ 0) :
    ∃ k, distance f = 2 ^ k ∧ distance f < 2 ^ (f.imm.toNat % 8) := by
  have hone : 1 < 2 ^ (f.imm.toNat % 8) := Nat.one_lt_two_pow_iff.mpr hg
  simp only [bflyBad, Bool.or_eq_false_iff, Bool.and_eq_false_iff, decide_eq_false_iff_not, Bool.not_eq_false', Bool.and_eq_true, List.any_eq_true,
    beq_iff_eq, decide_eq_true_eq] at hbad
  obtain ⟨-, hlast⟩ := hbad
  rcases hlast with hnot | ⟨⟨k, -, hk⟩, hlt⟩
  · exact absurd hone hnot
  · exact ⟨k, hk, hlt⟩

/-- A group of one register. -/
theorem group_one_iff (f : FormI) : 2 ^ (f.imm.toNat % 8) = 1 ↔ f.imm.toNat % 8 = 0 := by
  rw [← Nat.pow_zero 2]
  exact Nat.pow_right_injective (le_refl 2) |>.eq_iff

theorem bflyRows_getD (f : FormI) (x : Ctx) (s : State) {k : Nat} (hk : k < 2 ^ (f.imm.toNat % 8)) :
    ((List.range (2 ^ (f.imm.toNat % 8))).map (fun j => if 2 ^ (f.imm.toNat % 8) = 1 then x.row s f.a.toNat else x.plain s (f.a.toNat + j))).getD k [] =
      bflyRow f x s k := by
  simp [List.getD, hk, bflyRow]

/-- The word of a lane as the model computes it. -/
theorem bflyWord_eq (f : FormI) (x : Ctx) (s : State) (hbad : bflyBad f = false) {j l : Nat} (hj : j < 2 ^ (f.imm.toNat % 8)) :
    let rows := (List.range (2 ^ (f.imm.toNat % 8))).map (fun j => if 2 ^ (f.imm.toNat % 8) = 1 then x.row s f.a.toNat else x.plain s (f.a.toNat + j))
    let cross := fun k => if x.act.getLsbD (l ^^^ distance f) then rowAt (rows.getD k []) (l ^^^ distance f) else 0#32
    (if 2 ^ (f.imm.toNat % 8) = 1 then cross 0
      else if bitOf l (distance f).log2 ≠ bitOf j (distance f).log2 then cross (j ^^^ distance f) else rowAt (rows.getD j []) l) = bflyWord f x s j l := by
  by_cases hg : f.imm.toNat % 8 = 0
  · simp only [hg, if_true, bflyWord]
    rw [← bflyRows_getD f x s (by simp)]
    simp [hg]
  · obtain ⟨k, hk, hlt⟩ := distance_pow hbad hg
    have hbit : ∀ i, bitOf i (distance f).log2 = decide (i / distance f % 2 = 1) := by
      intro i
      rw [hk, Nat.log2_two_pow]
      exact Nat.testBit_eq_decide_div_mod_eq
    have hsame : (bitOf l (distance f).log2 ≠ bitOf j (distance f).log2) ↔ ¬ l / distance f % 2 = j / distance f % 2 := by
      rw [hbit, hbit, ne_eq, decide_eq_decide]
      omega
    simp only [group_one_iff, hg, if_false, bflyWord, hsame, ite_not]
    rw [← bflyRows_getD f x s hj, ← bflyRows_getD f x s (Nat.xor_lt_two_pow hj hlt)]
    simp only [group_one_iff, hg, if_false]

/-- What bfly does where it issues. -/
theorem bfly_body (f : FormI) :
    ∃ body : Ctx → State → Res Done, (∀ s, exec (.bfly f) s = issue (bflySpec f) (fun _ => bflyBad f) body s) ∧
      ∀ x s, bflyBad f = false →
        let miss := mkMask (fun l => x.act.getLsbD l && !x.act.getLsbD (l ^^^ distance f))
        (miss = 0#64 ∨ f.sub.getLsbD 6 = true →
          body x s = .ok { s := s, wr := (List.range (2 ^ (f.imm.toNat % 8))).map (fun j => Wr.full (x.d 0 + j) x.act (bflyWord f x s j)), ctl := false }) ∧
        (miss ≠ 0#64 → f.sub.getLsbD 6 = false → body x s = .error (.raise (crewCause 0x05 0 0 miss miss false))) := by
  simp only [exec_bfly, execBfly, group_exponent, xlImm_d, ← bflyBad_eq]
  refine ⟨_, fun s => rfl, fun x s hbad => ?_⟩
  rw [bflyBad_eq] at hbad
  refine ⟨fun hok => ?_, fun hne hz => ?_⟩
  · rw [if_neg]
    · refine congrArg (fun ws => (Except.ok { s := s, wr := ws, ctl := false } : Res Done)) (List.map_congr_left fun j hj => ?_)
      have hj : j < 2 ^ (f.imm.toNat % 8) := List.mem_range.mp hj
      have hreg : (if 2 ^ (f.imm.toNat % 8) = 1 then x.d 0 else x.d 0 + j) = x.d 0 + j := by
        split
        · omega
        · rfl
      rw [hreg]
      exact full_congr _ _ fun l _ => bflyWord_eq f x s hbad hj
    · rintro ⟨hne, hz⟩
      rcases hok with h0 | hz'
      · exact hne h0
      · rw [show xlZ f = true from hz'] at hz
        cases hz
  · exact if_pos ⟨hne, by rw [show xlZ f = false from hz]; rfl⟩

theorem butterflyResults : ButterflyResults := by
  intro f s c hi hs x hok
  obtain ⟨body, hexec, hbody⟩ := bfly_body f
  have hrun := (hbody x (s.issued c (bflySpec f)) hi.rest).1
  rw [hexec]
  refine effect_completes (m := s.issued c (bflySpec f)) hi hs (hrun (hok.symm.imp (fun hall => mkMask_zero fun l hl => ?_) id)) rfl rfl
  cases ha : x.act.getLsbD l
  · rfl
  · rw [hall l hl ha]
    rfl

theorem missingPartnerTraps : MissingPartnerTraps := by
  intro f s c hi x miss hz hne
  obtain ⟨body, hexec, hbody⟩ := bfly_body f
  exact raises_of_issue (hexec s) hi ((hbody x (s.issued c (bflySpec f)) hi.rest).2 hne hz) rfl

/-! ## Completion (R142 to R145) -/

theorem segSize_pos (f : FormI) : 0 < segSize f := by
  unfold segSize
  split
  · omega
  · exact Nat.two_pow_pos _

/-- Segments lie within the crew, where check 6 passes. -/
theorem segSize_dvd {f : FormI} {b : Bool} (h : xlBad f b = false) : segSize f ∣ 64 := by
  simp only [xlBad, Bool.or_eq_false_iff, decide_eq_false_iff_not] at h
  obtain ⟨⟨⟨-, -⟩, hle⟩, -⟩ := h
  unfold segSize
  split
  · exact dvd_rfl
  · next hne =>
    have hseg : xlSeg f = 2 ^ (f.sub.toNat % 16) := if_neg hne
    rw [hseg] at hle
    exact Nat.pow_dvd_pow 2 (n := 6) ((Nat.pow_le_pow_iff_right (le_refl 2)).mp (by omega))

/-- An offset in the segment of a lane is a lane. -/
theorem segLow_add_lt {f : FormI} {l o : Nat} (h : segSize f ∣ 64) (hl : l < 64) (ho : o < segSize f) : segLow f l + o < 64 := by
  obtain ⟨n, hn⟩ := h
  have hq : l / segSize f < n := Nat.div_lt_of_lt_mul (by omega)
  calc segLow f l + o < l / segSize f * segSize f + segSize f := by unfold segLow; omega
    _ = (l / segSize f + 1) * segSize f := by ring
    _ ≤ n * segSize f := Nat.mul_le_mul_right _ hq
    _ = 64 := by rw [hn, Nat.mul_comm]

theorem getLsbD_of_all {m : Mask} (h : m = BitVec.allOnes 64) {l : Nat} (hl : l < 64) : m.getLsbD l = true := by
  rw [h, BitVec.getLsbD_allOnes]
  exact decide_eq_true hl

/-- Where every lane acts and the row's sources are lanes, each lane has its source. -/
theorem from_isSome {r : RowPoint} {f : FormI} {x : Ctx} {s : State} {l k : Nat} (hall : x.act = BitVec.allOnes 64)
    (hsrc : r.src f l ((rowAt (x.row s (f.imm.toNat % 2 ^ 8)) l).toNat % 2 ^ 8) = some k) (hk : k < 64) : (r.from f x s l).isSome = true := by
  rw [RowPoint.from, hsrc, Option.filter_some_pos (getLsbD_of_all hall hk)]
  rfl

/-- A point read has gone on where Z is 1 or every lane has its source. -/
theorem pointRows_goneOn (f : FormI) {s : State} {c : Crew} (hs : Steady s c) : ∀ r ∈ pointRows,
    Issues s c (r.spec f) (fun _ => xlBad f true || r.bad f) →
    (f.sub.getLsbD 6 = true ∨ ∀ l, l < 64 → (r.from f (s.view c (r.spec f)) s.opening l).isSome) → Answers (exec (r.instr f) s) (GoneOn s c) :=
  fun r hr hi h => answers_mono (laneReads_points r hr f s c hi hs (h.imp id fun hall l hl _ => hall l hl))
    fun _ => goneOn_of_completed hi.crew (issuing_id ..)

theorem bfly_goneOn {f : FormI} {s : State} {c : Crew} (hs : Steady s c) (hi : Issues s c (bflySpec f) (fun _ => bflyBad f))
    (h : f.sub.getLsbD 6 = true ∨ (s.view c (bflySpec f)).act = BitVec.allOnes 64) : Answers (exec (.bfly f) s) (GoneOn s c) := by
  have hd : distance f < 2 ^ 6 := by
    have hrest := hi.rest
    simp only [bflyBad, Bool.or_eq_false_iff, decide_eq_false_iff_not] at hrest
    obtain ⟨⟨⟨⟨⟨⟨⟨hxl, -⟩, -⟩, -⟩, -⟩, -⟩, hdist⟩, -⟩ := hrest
    have := Nat.le_of_dvd (by decide) (segSize_dvd hxl)
    omega
  exact answers_mono (butterflyResults f s c hi hs (h.imp id fun hall l hl _ => getLsbD_of_all hall (Nat.xor_lt_two_pow (n := 6) hl hd)))
    fun _ => goneOn_of_completed hi.crew (issuing_id ..)

theorem laneReadsComplete : LaneReadsComplete := by
  intro f s c hs one1 idx imm all
  have hrows := pointRows_goneOn f hs
  simp only [pointRows, List.forall_mem_cons] at hrows
  obtain ⟨hrot, hshup, hshdn, hidx, hbcast, -⟩ := hrows
  refine ⟨fun hi hall => ?_, fun hi hz => ?_, fun hi hz => ?_, fun hi hz => ?_, fun hi hall => ?_, fun hi hall => bfly_goneOn hs hi hall⟩
  · refine hrot hi (hall.imp id fun hact l hl => from_isSome hact rfl (segLow_add_lt ?_ hl ?_))
    · exact segSize_dvd (Bool.or_eq_false_iff.mp hi.rest).1
    · split <;> exact Nat.mod_lt _ (segSize_pos f)
  · exact hshup hi (.inl hz)
  · exact hshdn hi (.inl hz)
  · exact hidx hi (.inl hz)
  · obtain ⟨hxl, hbad⟩ := Bool.or_eq_false_iff.mp hi.rest
    have hlt : distance f < segSize f := Nat.not_le.mp (of_decide_eq_false (Bool.or_eq_false_iff.mp hbad).2)
    exact hbcast hi (hall.imp id fun hact l hl => from_isSome hact rfl (segLow_add_lt (segSize_dvd hxl) hl hlt))

/-- Settles O10: every point read is the read of the lanes that its row names, a butterfly that of the partners, and a missing source is
found before anything is written. -/
theorem crossLaneReads : Obligations.CrossLaneReads :=
  ⟨⟨laneReads_points, butterflyResults⟩, laneReadsComplete, missingSourceTraps, missingPartnerTraps⟩

end Sys2Proof.Proofs.CrossLaneRows
end

