-- ==== Sys2Proof/Proofs/ResetValues.lean ====
section
/-!
PROOF. Proofs/ResetValues.lean: the machine after reset: the values its registers read (13, 14, 23 to 25), its canonical form (11), and
the worked encodings of the specification (02, 03).
-/

namespace Sys2Proof.Proofs.ResetValues

open Sys2Proof Sys2Proof.Machine Sys2Proof.Claims

/-! ## Where the management window reads (R414) -/

theorem read32_group {s : State} {off : Nat} (hst : s.mgmt.stage ≠ 4) (h : 0x20000 ≤ off ∧ off < 0x24000) :
    s.read32 off = s.groupRead ((off - 0x20000) / 64) (off % 64 / 4) := by
  unfold State.read32
  dsimp only
  repeat rw [if_neg (by omega)]
  exact if_pos h

theorem read32_startSlot {s : State} {off : Nat} (hst : s.mgmt.stage ≠ 4) (h : 0x30000 ≤ off ∧ off < 0x30800) (hb : 160 ≤ off % 256) :
    s.read32 off =
      let x := s.startSlots.getD ((off - 0x30000) / 256) StartSlot.reset
      if off % 256 = 160 then x.group % 256
      else if off % 256 = 164 then x.busy.toNat * 2 ^ 31 + x.stat % 16 * 2 ^ 24 + x.seq % 65536 else 0 := by
  unfold State.read32
  dsimp only
  repeat rw [if_neg (by omega)]
  rw [if_pos h, if_neg (by omega)]

theorem read32_region {s : State} {off : Nat} (hst : s.mgmt.stage ≠ 4) (h : 0x100000 ≤ off ∧ off < 0x300000)
    (hc : 0x8000 ≤ off % 0x10000 ∧ off % 0x10000 < 0x8040) :
    s.read32 off = half ((s.cox ((off - 0x100000) / 0x10000)).reg ((off % 0x10000 - 0x8000) / 8)) off := by
  unfold State.read32
  dsimp only
  repeat rw [if_neg (by omega)]
  rw [if_pos h, if_neg (by omega), if_pos hc.2]

theorem read32_slot {s : State} {off : Nat} (hst : s.mgmt.stage ≠ 4) (h : 0x100000 ≤ off ∧ off < 0x300000)
    (hc : 0x9000 ≤ off % 0x10000 ∧ off % 0x10000 < 0xA000) :
    s.read32 off = s.slotRead ((off - 0x100000) / 0x10000) ((off % 0x10000 - 0x9000) / 512) ((off % 0x10000 - 0x9000) % 512) := by
  unfold State.read32
  dsimp only
  repeat rw [if_neg (by omega)]
  rw [if_pos h, if_neg (by omega), if_neg (by omega), if_pos hc]

theorem read32_port {s : State} {off : Nat} (hst : s.mgmt.stage ≠ 4) (h : 0x300100 ≤ off ∧ off < 0x300200) :
    s.read32 off =
      let x := s.port ((off - 0x300100) / 8)
      if off % 8 = 0 then x.admdn.toNat * 2 ^ 31 + x.mapv.toNat * 2 ^ 23 + x.lport % 32 * 2 ^ 16
      else x.st % 8 * 2 ^ 29 + x.att % 32 * 2 ^ 24 + x.peer % 256 * 2 ^ 16 := by
  unfold State.read32
  dsimp only
  repeat rw [if_neg (by omega)]
  exact if_pos h

theorem read32_portKey {s : State} {off : Nat} (hst : s.mgmt.stage ≠ 4) (h : 0x381000 ≤ off ∧ off < 0x381200) :
    s.read32 off =
      let x := s.port ((off - 0x381000) / 16)
      if off % 16 = 0 then x.txst * 2 ^ 30 + x.rxst * 2 ^ 28 + x.txsel.toNat * 2 ^ 27 + x.rxsel.toNat * 2 ^ 26 + x.nkey % 65536
      else if 8 ≤ off % 16 then half x.txcnt.toNat off else 0 := by
  unfold State.read32
  dsimp only
  repeat rw [if_neg (by omega)]
  exact if_pos h

/-! ## The parts after reset -/

theorem getD_replicate_self {α : Type} (n i : Nat) (a : α) : (List.replicate n a).getD i a = a := by
  rw [List.getD_eq_getElem?_getD, List.getElem?_replicate]
  split <;> rfl

theorem reset_stage : State.reset.mgmt.stage ≠ 4 := by decide

theorem reset_grp (g : Nat) : State.reset.grp g = Group.reset := ite_eq_left_iff.mpr fun _ => getD_replicate_self 256 g _
theorem reset_port (p : Nat) : State.reset.port p = Port.reset := getD_replicate_self 32 p _
theorem reset_cox (p : Nat) : State.reset.cox p = CoxSt.reset := getD_replicate_self 32 p _
theorem reset_startSlot (k : Nat) : State.reset.startSlots.getD k StartSlot.reset = StartSlot.reset := getD_replicate_self 8 k _

theorem reset_coxSlot (p k : Nat) : State.reset.coxSlot p k = CoxSlot.free := by
  show (State.reset.cox p).slots.getD k CoxSlot.free = _
  rw [reset_cox]
  exact getD_replicate_self 8 k _

/-- No group is active. -/
theorem reset_grpActive (g : Nat) : State.reset.grpActive g = false := by
  refine List.any_eq_false.mpr fun c hc => ?_
  rw [List.eq_of_mem_replicate (show c ∈ List.replicate 32 CoxSt.reset from hc), Bool.not_eq_true]
  refine List.any_eq_false.mpr fun k hk => ?_
  rw [List.eq_of_mem_replicate (show k ∈ List.replicate 8 CoxSlot.free from hk)]
  exact Bool.false_ne_true

theorem reset_grpState (g : Nat) : State.reset.grpState g = 0 := by
  rw [State.grpState, reset_grpActive]
  rfl

theorem half_zero (off : Nat) : half 0 off = 0 := by
  rw [half, Nat.zero_shiftRight]
  rfl

theorem reset_groupRead (g w : Nat) : State.reset.groupRead g w = 0 := by
  have hmemb : Group.reset.memb.toNat >>> (32 * (w - 4)) % 2 ^ 32 = 0 := by
    rw [show Group.reset.memb.toNat = 0 from rfl, Nat.zero_shiftRight]
    rfl
  simp only [State.groupRead, reset_grp, reset_grpState, hmemb]
  split
  · rfl
  · split
    · rfl
    · split <;> rfl

/-- The status words of a free slot. -/
theorem reset_slotRead {p k r : Nat} (hr : r ∈ [4, 8, 12, 16]) : State.reset.slotRead p k r = 0 := by
  rw [State.slotRead, reset_coxSlot]
  simp only [List.mem_cons, List.not_mem_nil, or_false] at hr
  rcases hr with rfl | rfl | rfl | rfl <;> rfl

/-! ## The claims -/

theorem resetRegisters_read : ∀ p ∈ resetRegisters, State.reset.read32 p.1 = p.2 := by
  decide

/-- Settles O57: each register reads the value that its part holds after reset. -/
theorem resetState : Obligations.ResetState := by
  refine ⟨resetRegisters_read, fun g w hg hw => ?_, fun k hk => ⟨?_, ?_⟩,
    fun p hp => ⟨?_, ?_, ?_, ?_, ?_, fun i hi => ?_, fun k hk r hr => ?_⟩, rfl, rfl, fun d hpos hd => ?_⟩
  · rw [read32_group reset_stage (by omega), reset_groupRead]
  · rw [read32_startSlot reset_stage (by omega) (by omega), reset_startSlot, if_pos (by omega)]
    rfl
  · rw [read32_startSlot reset_stage (by omega) (by omega), reset_startSlot, if_neg (by omega), if_pos (by omega)]
    rfl
  · rw [read32_port reset_stage (by omega), reset_port]
    split <;> rfl
  · rw [read32_port reset_stage (by omega), reset_port]
    split <;> rfl
  · rw [read32_portKey reset_stage (by omega), reset_port, if_pos (by omega)]
    rfl
  · rw [read32_portKey reset_stage (by omega), reset_port, if_neg (by omega), if_pos (by omega)]
    exact half_zero _
  · rw [read32_portKey reset_stage (by omega), reset_port, if_neg (by omega), if_pos (by omega)]
    exact half_zero _
  · rw [read32_region reset_stage (by omega) (by omega), reset_cox, CoxSt.reg, show CoxSt.reset.regions = List.replicate 8 0#64 from rfl,
      getD_replicate_self]
    exact half_zero _
  · have hlt : 4 ≤ r ∧ r ≤ 16 ∧ r % 4 = 0 := by simp only [List.mem_cons, List.not_mem_nil, or_false] at hr; omega
    rw [read32_slot reset_stage (by omega) (by omega)]
    have hoff : (0x109000 + 0x10000 * p + 512 * k + r) % 0x10000 - 0x9000 = 512 * k + r := by omega
    rw [hoff, show (512 * k + r) % 512 = r by omega, reset_slotRead hr]
  · refine ⟨KeyDom.reset, ?_, rfl⟩
    obtain ⟨n, rfl⟩ := Nat.exists_eq_succ_of_ne_zero hpos.ne'
    show (List.replicate 255 KeyDom.reset)[n]? = _
    rw [List.getElem?_replicate, if_pos (by omega)]

theorem reset_sized : State.reset.sized = true := by
  have hcores : State.reset.cores = List.replicate 160 CoreSt.reset := rfl
  have hgroups : State.reset.groups = List.replicate 256 Group.reset := rfl
  have hkds : State.reset.kds = { KeyDom.reset with st := 1 } :: List.replicate 255 KeyDom.reset := rfl
  have hports : State.reset.ports = List.replicate 32 Port.reset := rfl
  have hcoxes : State.reset.coxes = List.replicate 32 CoxSt.reset := rfl
  simp only [State.sized, hcores, hgroups, hkds, hports, hcoxes, List.length_cons, List.length_replicate]
  rfl

/-- Settles O58: nothing is listed in any memory, and the parts are lists of fixed length. -/
theorem resetIsCanonical : Obligations.ResetIsCanonical :=
  ⟨rfl, reset_sized⟩

/-- Settles O60: each word decodes to the instruction that the specification works out. -/
theorem workedEncodings : Obligations.WorkedEncodings :=
  ⟨rfl, rfl, rfl, rfl, rfl, rfl, rfl, rfl⟩

end Sys2Proof.Proofs.ResetValues
end

