-- ==== Sys2Proof/Proofs/ReductionRows.lean ====
section
/-!
PROOF. Proofs/ReductionRows.lean: reductions and scans over the lanes of a segment (07 R146): the levels of the model's tree combine the
lanes in their order.
-/

namespace Sys2Proof.Proofs.ReductionRows

open Sys2Proof Sys2Proof.Machine Sys2Proof.Claims Sys2Proof.Proofs.ConversionRows Sys2Proof.Proofs.IssueRules
  Sys2Proof.Proofs.CrossLaneRows

/-! ## Combining values of which some are absent -/

/-- The value part of `combOpt`: an absent value changes nothing. -/
def joinOpt (g : Nat → Nat → Nat) : Option Nat → Option Nat → Option Nat
  | none, v => v
  | some a, none => some a
  | some a, some b => some (g a b)

@[simp] theorem joinOpt_none_left (g : Nat → Nat → Nat) (v : Option Nat) : joinOpt g none v = v := rfl
@[simp] theorem joinOpt_none_right (g : Nat → Nat → Nat) (u : Option Nat) : joinOpt g u none = u := by cases u <;> rfl
@[simp] theorem joinOpt_some (g : Nat → Nat → Nat) (a b : Nat) : joinOpt g (some a) (some b) = some (g a b) := rfl

theorem combOpt_fst (op : Nat → Nat → Nat × Nat) (u v : Option Nat) : (combOpt op u v).1 = joinOpt (fun a b => (op a b).1) u v := by
  cases u <;> cases v <;> rfl

/-- An operation that never raises a flag. -/
def Flagless (op : Nat → Nat → Nat × Nat) : Prop := ∀ a b, (op a b).2 = 0

theorem combOpt_snd {op : Nat → Nat → Nat × Nat} (h : Flagless op) (u v : Option Nat) : (combOpt op u v).2 = 0 := by
  cases u
  · rfl
  · cases v
    · rfl
    · exact h _ _

/-- The values of n places from place i on, combined in their order. -/
def joinRun (g : Nat → Nat → Nat) (y : Nat → Option Nat) (i n : Nat) : Option Nat :=
  (List.range' i n).foldl (fun u j => joinOpt g u (y j)) none

theorem joinOpt_assoc {g : Nat → Nat → Nat} (hg : ∀ a b c, g (g a b) c = g a (g b c)) (u v w : Option Nat) :
    joinOpt g (joinOpt g u v) w = joinOpt g u (joinOpt g v w) := by
  cases u <;> cases v <;> cases w <;> simp [hg]

theorem foldl_joinOpt {g : Nat → Nat → Nat} (hg : ∀ a b c, g (g a b) c = g a (g b c)) (y : Nat → Option Nat) (u : Option Nat) (ls : List Nat) :
    ls.foldl (fun u j => joinOpt g u (y j)) u = joinOpt g u (ls.foldl (fun u j => joinOpt g u (y j)) none) := by
  induction ls generalizing u with
  | nil => simp
  | cons l ls ih => rw [List.foldl_cons, List.foldl_cons, ih, joinOpt_none_left, ih (y l), joinOpt_assoc hg]

/-- Two runs that follow each other. -/
theorem joinRun_add {g : Nat → Nat → Nat} (hg : ∀ a b c, g (g a b) c = g a (g b c)) (y : Nat → Option Nat) (i m n : Nat) :
    joinRun g y i (m + n) = joinOpt g (joinRun g y i m) (joinRun g y (i + m) n) := by
  rw [joinRun, ← List.range'_append_1, List.foldl_append, foldl_joinOpt hg]
  rfl

/-! ## The levels of a reduction -/

/-- A value of a list of values, absent past its end. -/
def valueAt (ys : List (Option Nat)) (i : Nat) : Option Nat := ys.getD i none

theorem valueAt_set {ys : List (Option Nat)} {i j : Nat} {v : Option Nat} (hi : i < ys.length) :
    valueAt (ys.set i v) j = if j = i then v else valueAt ys j := by
  unfold valueAt
  by_cases h : j = i
  · subst h
    simp [List.getD, hi]
  · simp [List.getD, List.getElem?_set_ne (Ne.symm h), h]

/-- Combining at distance d at the places of a list that lie below `n` and at multiples of 2d. -/
theorem redLevel_prefix (op : Nat → Nat → Nat × Nat) (hop : Flagless op) (k : Nat) (ys : List (Option Nat)) (fl n : Nat) (hn : n ≤ ys.length) :
    let r := ((List.range n).filter (fun i => i % 2 ^ (k + 1) == 0)).foldl
      (fun st i =>
        let r := combOpt op (st.1.getD i none) (st.1.getD (i + 2 ^ k) none)
        (st.1.set i r.1, st.2 ||| r.2)) (ys, fl)
    r.1.length = ys.length ∧ r.2 = fl ∧ ∀ i, valueAt r.1 i =
      if i < n ∧ i % 2 ^ (k + 1) = 0 then joinOpt (fun a b => (op a b).1) (valueAt ys i) (valueAt ys (i + 2 ^ k)) else valueAt ys i := by
  induction n with
  | zero => simp
  | succ n ih =>
    obtain ⟨hlen, hfl, hval⟩ := ih (by omega)
    rw [List.range_succ, List.filter_append]
    by_cases hmul : n % 2 ^ (k + 1) = 0
    · rw [List.filter_cons_of_pos (by simpa using hmul), List.filter_nil, List.foldl_append, List.foldl_cons, List.foldl_nil]
      generalize List.foldl _ (ys, fl) _ = st at hlen hfl hval ⊢
      refine ⟨by simpa using hlen, ?_, fun i => ?_⟩
      · dsimp only
        rw [hfl, combOpt_snd hop, Nat.or_zero]
      · rw [valueAt_set (by omega), combOpt_fst]
        have hhere : st.1.getD n none = valueAt ys n := by
          have := hval n
          rwa [if_neg (by omega)] at this
        have hpartner : st.1.getD (n + 2 ^ k) none = valueAt ys (n + 2 ^ k) := by
          have := hval (n + 2 ^ k)
          rwa [if_neg (by have := Nat.two_pow_pos k; omega)] at this
        rw [hhere, hpartner]
        by_cases hi : i = n
        · subst hi
          rw [if_pos rfl, if_pos ⟨by omega, hmul⟩]
        · rw [if_neg hi, hval i]
          exact if_congr (by omega) rfl rfl
    · rw [List.filter_cons_of_neg (by simpa using hmul), List.filter_nil, List.append_nil]
      refine ⟨hlen, hfl, fun i => ?_⟩
      rw [hval i]
      refine if_congr ⟨fun h => ⟨by omega, h.2⟩, fun h => ⟨?_, h.2⟩⟩ rfl rfl
      have : i ≠ n := fun he => hmul (he ▸ h.2)
      omega

theorem redLevel_eq (op : Nat → Nat → Nat × Nat) (hop : Flagless op) (k : Nat) (st : List (Option Nat) × Nat) :
    (redLevel op k st).1.length = st.1.length ∧ (redLevel op k st).2 = st.2 ∧ ∀ i, i % 2 ^ (k + 1) = 0 → i < st.1.length →
      valueAt (redLevel op k st).1 i = joinOpt (fun a b => (op a b).1) (valueAt st.1 i) (valueAt st.1 (i + 2 ^ k)) := by
  obtain ⟨hlen, hfl, hval⟩ := redLevel_prefix op hop k st.1 st.2 st.1.length (le_refl _)
  exact ⟨hlen, hfl, fun i hmul hi => (hval i).trans (if_pos ⟨hi, hmul⟩)⟩

/-! ## The levels of a scan -/

theorem foldl_or_zero {α : Type} (ps : List (α × Nat)) (fl : Nat) (h : ∀ p ∈ ps, p.2 = 0) : ps.foldl (fun u p => u ||| p.2) fl = fl :=
  foldl_const fun p hp => by rw [h p hp, Nat.or_zero]

theorem scanLevel_eq (op : Nat → Nat → Nat × Nat) (hop : Flagless op) (k : Nat) (st : List (Option Nat) × Nat) :
    (scanLevel op k st).1.length = st.1.length ∧ (scanLevel op k st).2 = st.2 ∧ ∀ i, i < st.1.length →
      valueAt (scanLevel op k st).1 i =
        if i < 2 ^ k then valueAt st.1 i else joinOpt (fun a b => (op a b).1) (valueAt st.1 (i - 2 ^ k)) (valueAt st.1 i) := by
  refine ⟨by simp [scanLevel], foldl_or_zero _ _ fun p hp => ?_, fun i hi => ?_⟩
  · obtain ⟨i, -, rfl⟩ := List.mem_map.mp hp
    split
    · rfl
    · exact combOpt_snd hop _ _
  · simp only [scanLevel, List.map_map, valueAt, List.getD, List.getElem?_map, List.getElem?_range hi, Option.map_some, Option.getD_some,
      Function.comp_apply]
    split
    · rfl
    · rw [combOpt_fst]

/-! ## All levels -/

/-- A place at a multiple of 2^n below 2^m has its whole block of 2^n places there. -/
theorem add_two_pow_le {i m n : Nat} (hn : n ≤ m) (hi : i < 2 ^ m) (hmul : i % 2 ^ n = 0) : i + 2 ^ n ≤ 2 ^ m := by
  obtain ⟨b, hb⟩ := Nat.pow_dvd_pow 2 hn
  obtain ⟨a, rfl⟩ := Nat.dvd_of_mod_eq_zero hmul
  rw [hb] at hi ⊢
  have hab : a < b := Nat.lt_of_mul_lt_mul_left hi
  calc 2 ^ n * a + 2 ^ n = 2 ^ n * (a + 1) := by ring
    _ ≤ 2 ^ n * b := Nat.mul_le_mul_left _ hab

section Levels

variable {op : Nat → Nat → Nat × Nat} (hop : Flagless op) (hassoc : ∀ a b c, (op (op a b).1 c).1 = (op a (op b c).1).1)
include hop hassoc

/-- After k levels of a reduction each place at a multiple of 2^k holds the run of 2^k places from there on. -/
theorem redLevels_eq {m : Nat} {xs : List (Option Nat)} (hxs : xs.length = 2 ^ m) {k : Nat} (hk : k ≤ m) :
    let st := (List.range k).foldl (fun st k => redLevel op k st) (xs, 0)
    st.1.length = 2 ^ m ∧ st.2 = 0 ∧ ∀ i, i % 2 ^ k = 0 → i < 2 ^ m → valueAt st.1 i = joinRun (fun a b => (op a b).1) (valueAt xs) i (2 ^ k) := by
  induction k with
  | zero => exact ⟨hxs, rfl, fun i _ _ => rfl⟩
  | succ k ih =>
    obtain ⟨hlen, hfl, hval⟩ := ih (by omega)
    rw [List.range_succ, List.foldl_append, List.foldl_cons, List.foldl_nil]
    generalize List.foldl _ (xs, 0) (List.range k) = st at hlen hfl hval ⊢
    obtain ⟨hlen', hfl', hval'⟩ := redLevel_eq op hop k st
    refine ⟨hlen'.trans hlen, hfl'.trans hfl, fun i hmul hi => ?_⟩
    have hle := add_two_pow_le hk hi hmul
    have hpow : 2 ^ (k + 1) = 2 ^ k + 2 ^ k := by rw [Nat.pow_succ]; omega
    have hmulk : i % 2 ^ k = 0 := Nat.mod_eq_zero_of_dvd ((Nat.pow_dvd_pow 2 (Nat.le_succ k)).trans (Nat.dvd_of_mod_eq_zero hmul))
    have hpos := Nat.two_pow_pos k
    rw [hval' i hmul (by omega), hval i hmulk hi, hval (i + 2 ^ k) (by simpa using hmulk) (by omega), hpow, joinRun_add hassoc]

/-- After k levels of a scan each place holds the run of the 2^k places that end with it, or of all places up to it. -/
theorem scanLevels_eq {n : Nat} {xs : List (Option Nat)} (hxs : xs.length = n) (k : Nat) :
    let st := (List.range k).foldl (fun st k => scanLevel op k st) (xs, 0)
    st.1.length = n ∧ st.2 = 0 ∧ ∀ i, i < n →
      valueAt st.1 i = joinRun (fun a b => (op a b).1) (valueAt xs) (i + 1 - 2 ^ k) (min (i + 1) (2 ^ k)) := by
  induction k with
  | zero =>
    refine ⟨hxs, rfl, fun i _ => ?_⟩
    rw [Nat.min_eq_right (by omega)]
    rfl
  | succ k ih =>
    obtain ⟨hlen, hfl, hval⟩ := ih
    rw [List.range_succ, List.foldl_append, List.foldl_cons, List.foldl_nil]
    generalize List.foldl _ (xs, 0) (List.range k) = st at hlen hfl hval ⊢
    obtain ⟨hlen', hfl', hval'⟩ := scanLevel_eq op hop k st
    have hpow : 2 ^ (k + 1) = 2 ^ k + 2 ^ k := by rw [Nat.pow_succ]; omega
    have hpos := Nat.two_pow_pos k
    refine ⟨hlen'.trans hlen, hfl'.trans hfl, fun i hi => ?_⟩
    rw [hval' i (by omega), hval i hi]
    split
    · rw [Nat.min_eq_left (by omega), Nat.min_eq_left (by omega), Nat.sub_eq_zero_of_le (by omega), Nat.sub_eq_zero_of_le (by omega)]
    · rw [hval (i - 2 ^ k) (by omega)]
      have hsplit : min (i + 1) (2 ^ (k + 1)) = min (i - 2 ^ k + 1) (2 ^ k) + min (i + 1) (2 ^ k) := by omega
      have hstart : i - 2 ^ k + 1 - 2 ^ k = i + 1 - 2 ^ (k + 1) := by omega
      have hnext : i + 1 - 2 ^ (k + 1) + min (i - 2 ^ k + 1) (2 ^ k) = i + 1 - 2 ^ k := by omega
      rw [hsplit, hstart, joinRun_add hassoc, hnext]

/-- What a lane of a segment of 2^m lanes receives: the run of the whole segment, in a scan the run up to the lane. -/
theorem combLevels_eq (scan : Bool) {m : Nat} {xs : List (Option Nat)} (hxs : xs.length = 2 ^ m) {o : Nat} (ho : o < 2 ^ m) :
    let r := combLevels (if scan then scanLevel op else redLevel op) (2 ^ m) xs
    r.2 = 0 ∧ r.1.getD (if scan then o else 0) none =
      joinRun (fun a b => (op a b).1) (valueAt xs) 0 (if scan then o + 1 else 2 ^ m) := by
  unfold combLevels
  rw [Nat.log2_two_pow]
  cases scan
  · obtain ⟨-, hfl, hval⟩ := redLevels_eq hop hassoc hxs (le_refl m)
    exact ⟨hfl, hval 0 (Nat.zero_mod _) (Nat.two_pow_pos m)⟩
  · obtain ⟨-, hfl, hval⟩ := scanLevels_eq hop hassoc hxs m
    refine ⟨hfl, (hval o ho).trans ?_⟩
    rw [Nat.min_eq_left (by omega), Nat.sub_eq_zero_of_le (by omega)]
    rfl

end Levels

/-! ## The lanes of a segment -/

/-- A run over values that are present where a test holds is the combination of those values. -/
theorem foldl_joinOpt_filter (g : Nat → Nat → Nat) (p : Nat → Bool) (h : Nat → Nat) (ls : List Nat) :
    ls.foldl (fun u j => joinOpt g u (if p j then some (h j) else none)) none =
      match ls.filter p with
      | [] => none
      | k :: ks => some (ks.foldl (fun a j => g a (h j)) (h k)) := by
  have hsome : ∀ (ls : List Nat) (a : Nat), ls.foldl (fun u j => joinOpt g u (if p j then some (h j) else none)) (some a) =
      some ((ls.filter p).foldl (fun a j => g a (h j)) a) := by
    intro ls
    induction ls with
    | nil => intro a; rfl
    | cons l ls ih =>
      intro a
      by_cases hl : p l
      · simp [hl, ih]
      · simp [hl, ih]
  induction ls with
  | nil => rfl
  | cons l ls ih =>
    by_cases hl : p l
    · simp [hl, hsome]
    · simp [hl, ih]

/-- The lanes of the segment of a lane that stand below an offset, lowest first. -/
theorem filter_range_segment {sz l n : Nat} (hdvd : sz ∣ 64) (hpos : 0 < sz) (hl : l < 64) (hn : n ≤ sz) :
    (List.range 64).filter (fun k => k / sz == l / sz && decide (k < l / sz * sz + n)) = List.range' (l / sz * sz) n := by
  have hend : l / sz * sz + sz ≤ 64 := by
    obtain ⟨b, hb⟩ := hdvd
    have hq : l / sz < b := Nat.div_lt_of_lt_mul (by omega)
    calc l / sz * sz + sz = (l / sz + 1) * sz := by ring
      _ ≤ b * sz := Nat.mul_le_mul_right _ hq
      _ = 64 := by rw [hb, Nat.mul_comm]
  have hsplit : List.range 64 = List.range' 0 (l / sz * sz) ++ (List.range' (l / sz * sz) n ++
      List.range' (l / sz * sz + n) (64 - (l / sz * sz + n))) := by
    rw [List.range_eq_range', List.range'_append_1]
    have h := List.range'_append_1 (s := 0) (m := l / sz * sz) (n := n + (64 - (l / sz * sz + n)))
    rw [Nat.zero_add] at h
    rw [h]
    congr 1
    omega
  have hmem : ∀ k, k / sz = l / sz ↔ l / sz * sz ≤ k ∧ k < l / sz * sz + sz := fun k => by
    rw [Nat.div_eq_iff hpos]
    constructor <;> intro h <;> omega
  have hnone : (List.range' 0 (l / sz * sz)).filter (fun k => k / sz == l / sz && decide (k < l / sz * sz + n)) = [] := by
    refine List.filter_eq_nil_iff.mpr fun k hk => ?_
    have hk := (List.mem_range'_1.mp hk).2
    have := hmem k
    simp only [Bool.and_eq_true, beq_iff_eq, this, not_and]
    omega
  have hall : (List.range' (l / sz * sz) n).filter (fun k => k / sz == l / sz && decide (k < l / sz * sz + n)) = List.range' (l / sz * sz) n := by
    refine List.filter_eq_self.mpr fun k hk => ?_
    obtain ⟨hlo, hhi⟩ := List.mem_range'_1.mp hk
    have := hmem k
    simp only [Bool.and_eq_true, beq_iff_eq, this, decide_eq_true_eq]
    omega
  have hrest : (List.range' (l / sz * sz + n) (64 - (l / sz * sz + n))).filter (fun k => k / sz == l / sz && decide (k < l / sz * sz + n)) = [] := by
    refine List.filter_eq_nil_iff.mpr fun k hk => ?_
    have hk := (List.mem_range'_1.mp hk).1
    simp only [Bool.and_eq_true, decide_eq_true_eq]
    omega
  rw [hsplit, List.filter_append, List.filter_append, hnone, hall, hrest, List.nil_append, List.append_nil]

/-- The lanes of a segment that act, in a scan those not above the lane. -/
theorem filter_segLanes {f : FormI} (hdvd : segSize f ∣ 64) (act : Mask) {l : Nat} (hl : l < 64) (scan : Bool) :
    (segLanes f act l).filter (fun j => !scan || decide (j ≤ l)) =
      (List.range' (segLow f l) (if scan then l % segSize f + 1 else segSize f)).filter (fun k => act.getLsbD k) := by
  have hpos := segSize_pos f
  have hlow : segLow f l + l % segSize f = l := by
    rw [segLow, Nat.mul_comm]
    exact Nat.div_add_mod l (segSize f)
  have hn : (if scan then l % segSize f + 1 else segSize f) ≤ segSize f := by
    have := Nat.mod_lt l hpos
    split <;> omega
  rw [show segLow f l = l / segSize f * segSize f from rfl, ← filter_range_segment hdvd hpos hl hn, segLanes, List.filter_filter, List.filter_filter]
  refine List.filter_congr fun k hk => ?_
  by_cases hseg : k / segSize f = l / segSize f
  · have hlt : k < l / segSize f * segSize f + segSize f := by
      have := Nat.div_add_mod k (segSize f)
      rw [hseg, Nat.mul_comm] at this
      have := Nat.mod_lt k hpos
      omega
    have hdec : (!scan || decide (k ≤ l)) = decide (k < l / segSize f * segSize f + (if scan then l % segSize f + 1 else segSize f)) := by
      cases scan
      · simpa using hlt
      · have : segLow f l = l / segSize f * segSize f := rfl
        simp only [Bool.not_true, Bool.false_or, if_true, decide_eq_decide]
        omega
    rw [hdec, hseg, Bool.and_comm]
    exact Bool.and_assoc _ _ _
  · rw [beq_false_of_ne hseg, Bool.and_false, Bool.and_false, Bool.false_and, Bool.and_false]

/-! ## The rows -/

/-- What the lanes of a segment bring to a reduction: a lane that does not act brings nothing. -/
def segValues (dec : Word → Nat → Nat) (f : FormI) (x : Ctx) (s : State) (l : Nat) : List (Option Nat) :=
  (List.range (segSize f)).map (fun i =>
    if x.act.getLsbD (segLow f l + i) then some (dec x.c.mode (rowAt (x.row s f.a.toNat) (segLow f l + i)).toNat) else none)

/-- A lane of a reduction or scan. -/
def combLane (scan : Bool) (dec : Word → Nat → Nat) (fin : Nat → Nat) (op : Comb) (f : FormI) (x : Ctx) (s : State) (l : Nat) : LaneRes :=
  let r := combLevels (if scan then scanLevel (op x.c.mode) else redLevel (op x.c.mode)) (segSize f) (segValues dec f x s l)
  { w := [BitVec.ofNat 32 (fin ((r.1.getD (if scan then l % segSize f else 0) none).getD 0))], fl := r.2, rng := rowAt x.c.rng l }

theorem runComb_body (f : FormI) (scan fl : Bool) (dec : Word → Nat → Nat) (fin : Nat → Nat) (op : Comb) :
    ∃ body : Ctx → State → Res Done,
      (∀ s, runComb f scan fl dec fin op s = issue { specI f [one f.a] [one f.d] (.fixed 14) with fpx := fl }
        (fun _ => xlBad f false || f.imm ≠ 0#32) body s) ∧
      ∀ x s, segSize f ∣ 64 → body x s = fpDone x s 0xFFFFFFFF#32 [x.d 0] (combLane scan dec fin op f x s) := by
  refine ⟨_, fun s => rfl, fun x s hdvd => fpDone_congr fun l hl _ => ?_⟩
  have hin : l / xlSeg f < (List.map (fun g => combLevels (if scan then scanLevel (op x.c.mode) else redLevel (op x.c.mode)) (xlSeg f)
      ((List.range (xlSeg f)).map (fun i => if x.act.getLsbD (g * xlSeg f + i) then
        some (dec x.c.mode (rowAt (x.row s f.a.toNat) (g * xlSeg f + i)).toNat) else none))) (List.range (64 / xlSeg f))).length := by
    rw [List.length_map, List.length_range]
    exact Nat.div_lt_div_of_lt_of_dvd hdvd hl
  simp only [List.getD_eq_getElem _ _ hin, List.getElem_map, List.getElem_range]
  rfl

theorem floatReductions : FloatReductionResults := by
  have hrow : ∀ (i : FormI → Instr) (scan : Bool) (op : Comb),
      (∀ f s, exec (i f) s = runComb f scan true decF32 finF32 op s) →
      ∀ f, FpCompletes (i f) { specI f [one f.a] [one f.d] (.fixed 14) with fpx := true } (fun _ => xlBad f false || f.imm ≠ 0#32)
        (fun x => [x.d 0]) 0xFFFFFFFF#32 (floatReductionLane scan op f) := by
    intro i scan op hexec f s c hi hs x hno
    obtain ⟨body, hissue, hbody⟩ := runComb_body f scan true decF32 finF32 op
    rw [hexec, hissue]
    exact fp_completes hi hs (hbody x _ (segSize_dvd (Bool.or_eq_false_iff.mp hi.rest).1)) hno
  intro p hp
  simp only [floatReductionRows, List.mem_cons, List.not_mem_nil, or_false] at hp
  rcases hp with rfl | rfl | rfl | rfl
  · exact hrow _ _ _ exec_redAddF32
  · exact hrow _ _ _ exec_redMinF32
  · exact hrow _ _ _ exec_redMaxF32
  · exact hrow _ _ _ exec_scanAddF32

/-- The row's instruction combines words by the row's operation, which is associative. -/
structure CombinesBy (r : RowRed) (w : Word → Word → Word) : Prop where
  exec_eq : ∀ f s, exec (r.instr f) s = runComb f r.scan false decWord id (combWord w) s
  op_eq : ∀ a b, r.op a b = w a b
  assoc : ∀ a b c, w (w a b) c = w a (w b c)

theorem combWord_assoc {w : Word → Word → Word} (h : ∀ a b c, w (w a b) c = w a (w b c)) (md : Word) (a b c : Nat) :
    (combWord w md (combWord w md a b).1 c).1 = (combWord w md a (combWord w md b c).1).1 := by
  simp [combWord, h]

theorem segSize_two_pow (f : FormI) : ∃ m, segSize f = 2 ^ m := by
  unfold segSize
  split
  · exact ⟨6, rfl⟩
  · exact ⟨_, rfl⟩

/-- A run over what the lanes of a segment bring is a run over the lanes themselves. -/
theorem joinRun_segValues (g : Nat → Nat → Nat) (dec : Word → Nat → Nat) (f : FormI) (x : Ctx) (s : State) (l : Nat) {n : Nat} (hn : n ≤ segSize f) :
    joinRun g (valueAt (segValues dec f x s l)) 0 n = (List.range' (segLow f l) n).foldl (fun u j =>
      joinOpt g u (if x.act.getLsbD j then some (dec x.c.mode (rowAt (x.row s f.a.toNat) j).toNat) else none)) none := by
  rw [joinRun, List.range'_eq_map_range, List.range'_eq_map_range, List.foldl_map, List.foldl_map]
  refine List.foldl_ext _ _ _ fun u i hi => ?_
  have hi : i < segSize f := Nat.lt_of_lt_of_le (List.mem_range.mp hi) hn
  rw [Nat.zero_add, valueAt, segValues, List.getD_eq_getElem _ _ (by simpa using hi), List.getElem_map, List.getElem_range]

/-- A lane raises no flag, and one that acts receives the combination of the words of its segment's lanes. -/
theorem combLane_word {w : Word → Word → Word} (h : ∀ a b c, w (w a b) c = w a (w b c)) {f : FormI} (hdvd : segSize f ∣ 64) (scan : Bool) (x : Ctx) (s : State)
    {l : Nat} (hl : l < 64) :
    (combLane scan decWord id (combWord w) f x s l).fl = 0 ∧
    (x.act.getLsbD l → ∃ k ks, (segLanes f x.act l).filter (fun j => !scan || decide (j ≤ l)) = k :: ks ∧
      (combLane scan decWord id (combWord w) f x s l).w.getD 0 0#32 =
        ks.foldl (fun a j => w a (rowAt (x.row s f.a.toNat) j)) (rowAt (x.row s f.a.toNat) k)) := by
  obtain ⟨m, hm⟩ := segSize_two_pow f
  have hmod : l % segSize f < segSize f := Nat.mod_lt l (segSize_pos f)
  have hcomb := combLevels_eq (op := combWord w x.c.mode) (fun _ _ => rfl) (combWord_assoc h x.c.mode) scan
    (xs := segValues decWord f x s l) (m := m) (by simp [segValues, hm]) (hm ▸ hmod)
  rw [← hm] at hcomb
  obtain ⟨hfl, hval⟩ := hcomb
  have hn : (if scan then l % segSize f + 1 else segSize f) ≤ segSize f := by split <;> omega
  rw [joinRun_segValues _ _ _ _ _ _ hn, foldl_joinOpt_filter] at hval
  refine ⟨hfl, fun hact => ?_⟩
  rw [filter_segLanes hdvd x.act hl scan]
  have hmem : l ∈ (List.range' (segLow f l) (if scan then l % segSize f + 1 else segSize f)).filter (fun k => x.act.getLsbD k) := by
    rw [← filter_segLanes hdvd x.act hl scan]
    simp [segLanes, hl, hact]
  generalize List.filter _ (List.range' _ _) = ls at hval hmem ⊢
  cases ls with
  | nil => cases hmem
  | cons k ks =>
    refine ⟨k, ks, rfl, ?_⟩
    have hword : (combLane scan decWord id (combWord w) f x s l).w.getD 0 0#32 =
        BitVec.ofNat 32 (ks.foldl (fun a j => (combWord w x.c.mode a (rowAt (x.row s f.a.toNat) j).toNat).1) (rowAt (x.row s f.a.toNat) k).toNat) :=
      congrArg (fun v => BitVec.ofNat 32 (Option.getD v 0)) hval
    rw [hword, ← List.foldl_hom (BitVec.ofNat 32) (g₁ := fun a j => (combWord w x.c.mode a (rowAt (x.row s f.a.toNat) j).toNat).1)
      (g₂ := fun a j => w a (rowAt (x.row s f.a.toNat) j)) (fun a j => by simp [combWord])]
    simp

/-- What a floating instruction leaves of the crew depends on the flags and draws of its lanes only. -/
theorem fpCrew_congr (e : Crew) (act : Mask) {g h : Nat → LaneRes} (heq : ∀ l, l < 64 → (g l).fl = (h l).fl ∧ (g l).rng = (h l).rng) :
    fpCrew e act g = fpCrew e act h := by
  have hfl : ∀ old : Row, mkRow (fun l => if act.getLsbD l then rowAt old l ||| BitVec.ofNat 32 (g l).fl else rowAt old l) =
      mkRow (fun l => if act.getLsbD l then rowAt old l ||| BitVec.ofNat 32 (h l).fl else rowAt old l) := fun old =>
    mkRow_congr fun l hl => by rw [(heq l hl).1]
  have hrng : mkRow (fun l => if act.getLsbD l then (g l).rng else rowAt e.rng l) = mkRow (fun l => if act.getLsbD l then (h l).rng else rowAt e.rng l) :=
    mkRow_congr fun l hl => by rw [(heq l hl).2]
  simp only [fpCrew, hfl, hrng]

theorem CombinesBy.holds {r : RowRed} {w : Word → Word → Word} (h : CombinesBy r w) : r.Holds := by
  intro f s c hi hs sp x v
  have hdvd : segSize f ∣ 64 := segSize_dvd (Bool.or_eq_false_iff.mp hi.rest).1
  obtain ⟨body, hissue, hbody⟩ := runComb_body f r.scan false decWord id (combWord w)
  let lane := combLane r.scan decWord id (combWord w) f x (s.issued c sp)
  have hlane := fun l hl => combLane_word h.assoc hdvd r.scan x (s.issued c sp) (l := l) hl
  have hno : NoFpx x lane := fun l hl _ => by
    rw [(hlane l hl).1]
    exact Nat.zero_and _
  obtain ⟨t, hnext, hdone⟩ := fp_completes hi hs (hbody x _ hdvd) hno
  rw [h.exec_eq, hissue]
  refine ⟨t, hnext, mkRow (fun l => if x.act.getLsbD l then (lane l).w.getD 0 0#32 else 0#32), ?_, fun l hl hact => ?_⟩
  · have hcrew := fpCrew_congr (s.issuing c sp) x.act (g := lane) (h := fun l => { w := [], fl := 0, rng := rowAt x.c.rng l })
      fun l hl => ⟨(hlane l hl).1, rfl⟩
    rw [← hcrew]
    exact hdone
  · obtain ⟨k, ks, hls, hword⟩ := (hlane l hl).2 hact
    refine ⟨k, ks, hls, ?_⟩
    rw [rowAt_mkRow _ hl, if_pos hact, hword]
    simp only [h.op_eq]
    rfl

theorem minW_eq (a b : Word) : minW a b = wordMin a b := RegisterRows.ofInt_min_toInt a b
theorem maxW_eq (a b : Word) : maxW a b = wordMax a b := RegisterRows.ofInt_max_toInt a b

theorem toInt_wordMin (a b : Word) : (wordMin a b).toInt = min a.toInt b.toInt := by
  rw [wordMin, apply_ite BitVec.toInt, min_def]

theorem toInt_wordMax (a b : Word) : (wordMax a b).toInt = max a.toInt b.toInt := by
  rw [wordMax, apply_ite BitVec.toInt, max_def]

theorem wordMin_assoc (a b c : Word) : wordMin (wordMin a b) c = wordMin a (wordMin b c) :=
  BitVec.eq_of_toInt_eq (by simp only [toInt_wordMin, min_assoc])

theorem wordMax_assoc (a b c : Word) : wordMax (wordMax a b) c = wordMax a (wordMax b c) :=
  BitVec.eq_of_toInt_eq (by simp only [toInt_wordMax, max_assoc])

theorem reductionRows_hold : ∀ r ∈ reductionRows, r.Holds := by
  intro r hr
  simp only [reductionRows, List.mem_cons, List.not_mem_nil, or_false] at hr
  rcases hr with rfl | rfl | rfl | rfl | rfl | rfl | rfl | rfl | rfl
  · exact CombinesBy.holds ⟨exec_redAddI32, fun _ _ => rfl, BitVec.add_assoc⟩
  · exact CombinesBy.holds ⟨exec_redMinI32, minW_eq, wordMin_assoc⟩
  · exact CombinesBy.holds ⟨exec_redMaxI32, maxW_eq, wordMax_assoc⟩
  · exact CombinesBy.holds ⟨exec_redAndB32, fun _ _ => rfl, BitVec.and_assoc⟩
  · exact CombinesBy.holds ⟨exec_redOrB32, fun _ _ => rfl, BitVec.or_assoc⟩
  · exact CombinesBy.holds ⟨exec_redXorB32, fun _ _ => rfl, BitVec.xor_assoc⟩
  · exact CombinesBy.holds ⟨exec_scanAddI32, fun _ _ => rfl, BitVec.add_assoc⟩
  · exact CombinesBy.holds ⟨exec_scanMinI32, minW_eq, wordMin_assoc⟩
  · exact CombinesBy.holds ⟨exec_scanMaxI32, maxW_eq, wordMax_assoc⟩

/-- Settles O11: the levels of the model's tree combine the lanes of a segment in their order, and the FP32 rows take its tree as it is. -/
theorem reductionResults : Obligations.ReductionResults := ⟨reductionRows_hold, floatReductions⟩

end Sys2Proof.Proofs.ReductionRows
end

