-- ==== Sys2Proof/Proofs/VoteRows.lean ====
section
/-!
PROOF. Proofs/VoteRows.lean: votes and topk over the lanes of a segment (07 R147, R148).
-/

namespace Sys2Proof.Proofs.VoteRows

open Sys2Proof Sys2Proof.Machine Sys2Proof.Claims Sys2Proof.Proofs.RegisterRows Sys2Proof.Proofs.IssueRules Sys2Proof.Proofs.CrossLaneRows

/-! ## Votes (R147) -/

theorem contains_segLanes (f : FormI) (act : Mask) (l : Nat) {k : Nat} (hk : k < 64) :
    (segLanes f act l).contains k = (act.getLsbD k && k / segSize f == l / segSize f) := by
  rw [Bool.eq_iff_iff, List.contains_iff_mem, segLanes, List.mem_filter]
  simp [hk]

theorem filter_maskLanes_segment (f : FormI) (act : Mask) (l : Nat) :
    (maskLanes act).filter (fun k => k / segSize f == l / segSize f) = segLanes f act l := by
  rw [maskLanes, List.filter_filter, segLanes]
  exact List.filter_congr fun k _ => Bool.and_comm ..

/-- What ballot and match write: the mask of the lanes of the segment that pass a test. -/
theorem runMask_eq (f : FormI) (badImm : Bool) (p : Row → Nat → Nat → Bool) (s : State) :
    runMask f badImm p s = issue (maskSpec f) (fun _ => xlBad f false || badImm) (justWrite fun x s =>
      let m := fun l => mkMask (fun k => (segLanes f x.act l).contains k && p (x.row s f.a.toNat) l k)
      [Wr.full (x.d 0) x.act (fun l => (maskWords (m l)).1), Wr.full (x.d 0 + 1) x.act (fun l => (maskWords (m l)).2)]) s := by
  have hmask : ∀ (act : Mask) (a : Row) l, mkMask (fun k => act.getLsbD k && k / xlSeg f == l / xlSeg f && p a l k) =
      mkMask (fun k => (segLanes f act l).contains k && p a l k) := fun act a l =>
    BitVec.eq_of_getLsbD_eq fun k hk => by
      rw [mkMask_get _ hk, mkMask_get _ hk, contains_segLanes f act l hk]
      rfl
  simp only [runMask, wrPair_eq, hmask]
  rfl

theorem dbit_eq (f : FormI) : bitsOf f.imm.toNat 12 8 = f.imm.toNat / 2 ^ 8 % 32 := by
  simp [bitsOf, Nat.shiftRight_eq_div_pow]

theorem all_id_eq (bs : List Bool) : bs.all id = !bs.contains false := by
  induction bs with
  | nil => rfl
  | cons b bs ih => cases b <;> simp_all

theorem any_id_eq (bs : List Bool) : bs.any id = bs.contains true := by
  induction bs with
  | nil => rfl
  | cons b bs ih => cases b <;> simp_all

/-- What any and all write: one bit of a guard register. -/
theorem runVote_eq (f : FormI) (all : Bool) (s : State) :
    runVote f all s = issue (voteSpec f) (fun _ => voteBad f) (justWrite fun x s =>
      let bit := f.imm.toNat / 2 ^ 8 % 32
      let votes := fun l => (segLanes f x.act l).map (fun k => (srcWord x s f.a k).getLsbD (f.imm.toNat % 32))
      let t := fun l => if all then !(votes l).contains false else (votes l).contains true
      [{ reg := f.d.toNat, row := mkRow (fun l => if t l then 1#32 <<< bit else 0#32), mask := x.act, bits := 1#32 <<< bit : Wr }]) s := by
  have hlanes : ∀ (act : Mask) l, (maskLanes act).filter (fun k => k / xlSeg f == l / xlSeg f) = segLanes f act l := filter_maskLanes_segment f
  simp only [runVote, dbit_eq, hlanes, all_id_eq, any_id_eq]
  rfl

theorem voteResults : VoteResults := by
  intro f s c hs
  refine ⟨fun hi => ?_, fun hi => ?_, fun hi => ⟨?_, ?_⟩⟩
  · rw [exec_ballot, execBallot, runMask_eq]
    exact answers_justWrite hi hs rfl
  · rw [exec_matchLanes, execMatchLanes, runMask_eq]
    exact answers_justWrite hi hs rfl
  · rw [exec_any, execAny, runVote_eq]
    exact answers_justWrite hi hs rfl
  · rw [exec_all, execAll, runVote_eq]
    exact answers_justWrite hi hs rfl

/-! ## Ranking (R148) -/

section Ranking

variable (key : Nat → Int)

theorem ranksBefore_iff {j k : Nat} : ranksBefore key j k = true ↔ key k < key j ∨ (key k = key j ∧ j < k) := by
  simp [ranksBefore]

/-- In the list each value ranks before those that follow it. -/
def Ranked (ls : List Nat) : Prop := ls.Pairwise (fun j k => ranksBefore key j k = true)

theorem mem_rankInsert {ls : List Nat} {l k : Nat} : k ∈ rankInsert key ls l ↔ k = l ∨ k ∈ ls := by
  induction ls with
  | nil => simp [rankInsert]
  | cons m ls ih =>
    unfold rankInsert
    split
    · simp
    · simp only [List.mem_cons, ih]
      tauto

theorem rankInsert_perm (ls : List Nat) (l : Nat) : (rankInsert key ls l).Perm (l :: ls) := by
  induction ls with
  | nil => exact List.Perm.refl _
  | cons m ls ih =>
    unfold rankInsert
    split
    · exact List.Perm.refl _
    · exact (ih.cons m).trans (List.Perm.swap l m ls)

/-- A value inserted into a ranking of lower lanes. -/
theorem Ranked.insert {ls : List Nat} {l : Nat} (h : Ranked key ls) (hlow : ∀ k ∈ ls, k < l) : Ranked key (rankInsert key ls l) := by
  induction ls with
  | nil => exact List.pairwise_singleton _ _
  | cons m ls ih =>
    obtain ⟨hm, hls⟩ := List.pairwise_cons.mp h
    have hml := hlow m List.mem_cons_self
    unfold rankInsert
    split
    · next hgt =>
      refine List.pairwise_cons.mpr ⟨fun k hk => (ranksBefore_iff key).mpr (.inl ?_), h⟩
      rcases List.mem_cons.mp hk with rfl | hk
      · exact hgt
      · have := (ranksBefore_iff key).mp (hm k hk)
        omega
    · next hle =>
      refine List.pairwise_cons.mpr ⟨fun k hk => ?_, ih hls fun k hk => hlow k (List.mem_cons_of_mem _ hk)⟩
      rcases (mem_rankInsert key).mp hk with rfl | hk
      · refine (ranksBefore_iff key).mpr ?_
        omega
      · exact hm k hk

/-- The lanes of an ascending list in rank order. -/
theorem rankAll_ranked {ls : List Nat} (hasc : ls.Pairwise (· < ·)) : Ranked key (rankAll key ls) ∧ (rankAll key ls).Perm ls := by
  induction ls using List.reverseRecOn with
  | nil => exact ⟨List.Pairwise.nil, List.Perm.refl _⟩
  | append_singleton ls l ih =>
    obtain ⟨hls, -, hlow⟩ := List.pairwise_append.mp hasc
    obtain ⟨hranked, hperm⟩ := ih hls
    have hall : rankAll key (ls ++ [l]) = rankInsert key (rankAll key ls) l := by simp [rankAll]
    rw [hall]
    refine ⟨hranked.insert key fun k hk => hlow k (hperm.mem_iff.mp hk) l (List.mem_singleton.mpr rfl), ?_⟩
    exact (rankInsert_perm key _ l).trans ((hperm.cons l).trans (List.perm_append_singleton l ls).symm)

/-- In a ranking the value at place i has i values before it. -/
theorem Ranked.countP_getElem {rs : List Nat} (h : Ranked key rs) {i : Nat} (hi : i < rs.length) :
    rs.countP (fun j => ranksBefore key j rs[i]) = i := by
  have hsplit : rs = rs.take i ++ rs[i] :: rs.drop (i + 1) := by
    rw [← List.drop_eq_getElem_cons hi, List.take_append_drop]
  have hpair := h
  rw [hsplit] at hpair
  obtain ⟨-, hrest, hbefore⟩ := List.pairwise_append.mp hpair
  obtain ⟨hafter, -⟩ := List.pairwise_cons.mp hrest
  have hfirst : (rs.take i).countP (fun j => ranksBefore key j rs[i]) = i := by
    rw [List.countP_eq_length.mpr fun j hj => hbefore j hj _ List.mem_cons_self, List.length_take]
    omega
  have hlast : (rs[i] :: rs.drop (i + 1)).countP (fun j => ranksBefore key j rs[i]) = 0 := by
    refine List.countP_eq_zero.mpr fun j hj hbef => ?_
    have hbef := (ranksBefore_iff key).mp hbef
    rcases List.mem_cons.mp hj with rfl | hj
    · omega
    · have := (ranksBefore_iff key).mp (hafter j hj)
      omega
  calc rs.countP (fun j => ranksBefore key j rs[i])
      = (rs.take i ++ rs[i] :: rs.drop (i + 1)).countP (fun j => ranksBefore key j rs[i]) := congrArg _ hsplit
    _ = i := by rw [List.countP_append, hfirst, hlast, Nat.add_zero]

/-- The value at place i of the ranking of an ascending list is the one with i values before it. -/
theorem rankAll_getElem? {ls : List Nat} (hasc : ls.Pairwise (· < ·)) (i : Nat) :
    (rankAll key ls)[i]? = ls.find? (fun k => ls.countP (fun j => ranksBefore key j k) == i) := by
  obtain ⟨hranked, hperm⟩ := rankAll_ranked key hasc
  have hcount : ∀ n (hn : n < (rankAll key ls).length), ls.countP (fun j => ranksBefore key j (rankAll key ls)[n]) = n := fun n hn => by
    rw [← hperm.countP_eq]
    exact hranked.countP_getElem key hn
  cases hfind : ls.find? (fun k => ls.countP (fun j => ranksBefore key j k) == i) with
  | none =>
    refine List.getElem?_eq_none (Nat.not_lt.mp fun hi => ?_)
    have := List.find?_eq_none.mp hfind _ (hperm.mem_iff.mp (List.getElem_mem hi))
    exact this (beq_iff_eq.mpr (hcount i hi))
  | some k =>
    obtain ⟨n, hn, rfl⟩ := List.getElem_of_mem (hperm.mem_iff.mpr (List.mem_of_find?_eq_some hfind))
    have hbefore := List.find?_some (p := fun k => ls.countP (fun j => ranksBefore key j k) == i) hfind
    have hni : n = i := (hcount n hn).symm.trans (beq_iff_eq.mp hbefore)
    subst hni
    exact List.getElem?_eq_getElem hn

end Ranking

/-! ## topk (R148) -/

theorem segLanes_ascending (f : FormI) (act : Mask) (l : Nat) : (segLanes f act l).Pairwise (· < ·) :=
  List.pairwise_lt_range.filter _

/-- A lane of a segment less the segment's base is its offset. -/
theorem sub_segBase {f : FormI} {act : Mask} {l j : Nat} (hj : j ∈ segLanes f act l) : j - segBase (xlSeg f) l = j % segSize f := by
  have hseg : j / segSize f = l / segSize f := by
    have := (List.mem_filter.mp hj).2
    simpa using (Bool.and_eq_true_iff.mp this).2
  rw [segBase_eq, segLow, ← hseg]
  have := Nat.div_add_mod j (segSize f)
  rw [Nat.mul_comm] at this
  omega

/-- What topk writes. -/
def topkWrites (f : FormI) (x : Ctx) (s : State) : List Wr :=
  let k := f.imm.toNat / 2 ^ 8 % 16
  (List.range k).map (fun i => Wr.full (x.d 0 + i) x.act (fun l => match rankedLane f x s l i with
      | some j => srcWord x s f.a j
      | none => if f.imm.getLsbD 12 then 0x80000000#32 else 0xFF800000#32)) ++
    (List.range k).map (fun i => Wr.full (f.imm.toNat % 256 + i) x.act (fun l => match rankedLane f x s l i with
      | some j => BitVec.ofNat 32 (j % segSize f)
      | none => 0xFFFFFFFF#32))

theorem topk_body (f : FormI) :
    ∃ body : Ctx → State → Res Done, (∀ s, exec (.topk f) s = issue (topkSpec f) (fun _ => topkBad f) body s) ∧
      ∀ x s, segSize f ∣ 64 → body x s = .ok { s := s, wr := topkWrites f x s, ctl := false } := by
  have hk : bitsOf f.imm.toNat 11 8 = f.imm.toNat / 2 ^ 8 % 16 := by simp [bitsOf, Nat.shiftRight_eq_div_pow]
  simp only [exec_topk, execTopk, hk]
  refine ⟨_, fun s => rfl, fun x s hdvd => ?_⟩
  have hrank : ∀ l, l < 64 → ∀ i,
      (((List.range (64 / xlSeg f)).map (fun g => rankAll (fun l => topkKey (f.imm.getLsbD 12) (rowAt (x.row s f.a.toNat) l).toNat)
        ((maskLanes x.act).filter (fun l => l / xlSeg f == g)))).getD (l / xlSeg f) [])[i]? = rankedLane f x s l i := by
    intro l hl i
    have hin : l / xlSeg f < 64 / xlSeg f := Nat.div_lt_div_of_lt_of_dvd hdvd hl
    rw [List.getD_eq_getElem _ _ (by simpa using hin), List.getElem_map, List.getElem_range]
    have hlanes : (maskLanes x.act).filter (fun k => k / xlSeg f == l / xlSeg f) = segLanes f x.act l := filter_maskLanes_segment f x.act l
    rw [hlanes, rankAll_getElem? _ (segLanes_ascending f x.act l)]
    rfl
  refine congrArg (fun ws => (Except.ok { s := s, wr := ws, ctl := false } : Res Done)) ?_
  refine congrArg₂ (· ++ ·) (List.map_congr_left fun i _ => full_congr _ _ fun l hl => ?_) (List.map_congr_left fun i _ => full_congr _ _ fun l hl => ?_)
  · rw [hrank l hl i]
    cases rankedLane f x s l i <;> rfl
  · rw [hrank l hl i]
    cases hr : rankedLane f x s l i with
    | none => rfl
    | some j => exact congrArg (BitVec.ofNat 32) (sub_segBase (List.mem_of_find?_eq_some hr))

theorem topkResults : TopkResults := by
  intro f s c hi hs x k
  have hxl : xlBad f false = false := by
    have hrest := hi.rest
    simp only [topkBad, Bool.or_eq_false_iff] at hrest
    exact hrest.1.1.1.1
  obtain ⟨body, hexec, hbody⟩ := topk_body f
  rw [hexec]
  exact effect_completes (m := s.issued c (topkSpec f)) hi hs (hbody x _ (segSize_dvd hxl)) rfl rfl

/-- Settles O12: votes write the masks of the lanes of a segment, and topk the lanes in rank order. -/
theorem voteAndTopkResults : Obligations.VoteAndTopkResults := ⟨voteResults, topkResults⟩

end Sys2Proof.Proofs.VoteRows
end

