-- ==== Sys2Proof/Proofs/MemoryFrames.lean ====
section
/-!
PROOF. Proofs/MemoryFrames.lean: what the operations on memory leave as it was: everything but memory itself and the bookkeeping of writes
on their way (11 R229 to R241).
-/

namespace Sys2Proof.Proofs.MemoryFrames

open Sys2Proof Sys2Proof.Machine

/-- State `t` is state `s` but for main and block memory, its poison and keys, and the bookkeeping of writes and of what was read. -/
def MemStep (s t : State) : Prop :=
  t = { s with
    mem := t.mem, bmem := t.bmem, poison := t.poison, arriving := t.arriving, dieClk := t.dieClk, dieSeen := t.dieSeen,
    replicas := t.replicas, past := t.past, views := t.views, narrow := t.narrow, keyed := t.keyed }

theorem MemStep.refl (s : State) : MemStep s s := rfl

theorem MemStep.trans {s t u : State} (h : MemStep s t) (h' : MemStep t u) : MemStep s u := by
  unfold MemStep at h h' ⊢
  rw [h] at h'
  exact h'

section Fields

variable {s t : State} (h : MemStep s t)
include h

theorem MemStep.crews : t.crews = s.crews := by rw [h]
theorem MemStep.cycle : t.cycle = s.cycle := by rw [h]
theorem MemStep.cur : t.cur = s.cur := by rw [h]
theorem MemStep.order : t.order = s.order := by rw [h]

end Fields

/-- Steps in a row. -/
theorem memStep_foldl {α : Type} {f : State → α → State} (hf : ∀ s a, MemStep s (f s a)) (as : List α) (s : State) : MemStep s (as.foldl f s) := by
  induction as generalizing s with
  | nil => exact .refl s
  | cons a as ih => exact (hf s a).trans (ih (f s a))

theorem markKeys_memStep (s : State) (pa n key : Nat) : MemStep s (s.markKeys pa n key) := by
  unfold State.markKeys
  split
  · exact .refl s
  · rfl

theorem putKey_memStep (s : State) (pa key : Nat) (bs : List Byte) : MemStep s (s.putKey pa key bs) :=
  MemStep.trans (t := { (s.keepPast false pa bs.length) with mem := s.mem.write pa bs }) rfl (markKeys_memStep ..)

theorem writeKey_memStep (s : State) (pa key : Nat) (bs : List Byte) : MemStep s (s.writeKey pa key bs) := by
  unfold State.writeKey
  split
  · exact putKey_memStep ..
  · refine memStep_foldl (fun t p => ?_) _ s
    split
    · exact .refl t
    · exact putKey_memStep ..

theorem learn_memStep (s : State) (die : Nat) (clk : List Nat) : MemStep s (s.learn die clk) := rfl

theorem applyArriving_memStep (s : State) (w : Arriving) : MemStep s (s.applyArriving w) := by
  refine (writeKey_memStep s w.pa w.key w.bytes).trans ?_
  unfold State.applyArriving
  dsimp only
  split <;> rfl

theorem applyReplica_memStep (s : State) (r : Replica) : MemStep s (s.applyReplica r) :=
  (writeKey_memStep s r.pa r.key r.bytes).trans rfl

theorem drainArriving_memStep (s : State) (p : Arriving → Bool) : MemStep s (s.drainArriving p) :=
  MemStep.trans (t := { s with arriving := s.arriving.filter (fun w => !p w) }) rfl (memStep_foldl applyArriving_memStep _ _)

theorem drainReplicas_memStep (s : State) (p : Replica → Bool) : MemStep s (s.drainReplicas p) :=
  MemStep.trans (t := { s with replicas := s.replicas.filter (fun w => !p w) }) rfl (memStep_foldl applyReplica_memStep _ _)

theorem release_memStep (s : State) : MemStep s s.release :=
  ((drainArriving_memStep s _).trans (drainReplicas_memStep _ _)).trans rfl

theorem heed_memStep (s : State) (die : Nat) (clk : List Nat) : MemStep s (s.heed die clk) :=
  ((drainArriving_memStep s _).trans (drainReplicas_memStep _ _)).trans (learn_memStep ..)

theorem reach_memStep (s : State) (src dst : Nat) : MemStep s (s.reach src dst) := by
  unfold State.reach
  split
  · exact .refl s
  · exact heed_memStep ..

theorem beforeRead_memStep (s : State) (die pa n : Nat) : MemStep s (s.beforeRead die pa n) := by
  unfold State.beforeRead
  split
  · exact .refl s
  · exact (((memStep_foldl (fun s w => heed_memStep s _ _) _ s).trans (memStep_foldl (fun s w => heed_memStep s _ _) _ _)).trans
      (reach_memStep ..)).trans rfl

theorem beforeLoad_memStep (s : State) (die : Nat) (l : Loc) (n : Nat) : MemStep s (s.beforeLoad die l n) := by
  cases l with
  | blk core off => exact .refl s
  | pa a key => exact beforeRead_memStep ..
  | repl a home key => exact beforeRead_memStep ..

theorem releaseNear_memStep (s : State) (scope crew blk core : Nat) : MemStep s (s.releaseNear scope crew blk core) := by
  unfold State.releaseNear
  split <;> rfl

theorem releaseAt_memStep (s : State) (scope : Nat) (c : Crew) : MemStep s (s.releaseAt scope c) := by
  unfold State.releaseAt
  split
  · exact release_memStep s
  · exact releaseNear_memStep ..

theorem acquireAt_memStep (s : State) (scope crew blk core : Nat) : MemStep s (s.acquireAt scope crew blk core) :=
  (memStep_foldl (fun s _ => memStep_foldl (fun s d => heed_memStep s d _) _ s) _ s).trans rfl

theorem flush_memStep (s : State) (die : Nat) : MemStep s (s.flush die) := by
  unfold State.flush
  split
  · exact .refl s
  · exact (memStep_foldl (fun s w => heed_memStep s _ _) _ s).trans (memStep_foldl (fun s w => heed_memStep s _ _) _ _)

theorem store_memStep (s : State) (die : Nat) (l : Loc) (bs : List Byte) : MemStep s (s.store die l bs) := by
  unfold State.store
  split
  · rfl
  · dsimp only
    split
    · exact (reach_memStep ..).trans (writeKey_memStep ..)
    · rfl
  · exact ((reach_memStep ..).trans (writeKey_memStep ..)).trans rfl

theorem noteRead_memStep (s : State) (crew n k : Nat) (spots : List (Bool × Nat)) : MemStep s (s.noteRead crew n k spots) := rfl
theorem noteWrote_memStep (s : State) (crew n : Nat) (spots : List (Bool × Nat)) : MemStep s (s.noteWrote crew n spots) := rfl

end Sys2Proof.Proofs.MemoryFrames
end

