-- ==== Sys2Proof/Proofs/TransferRules.lean ====
section
/-!
PROOF. Proofs/TransferRules.lean: transfers of control: what dividing the lanes of a slot leaves of its crew (01 R23), and the transfers
with a direct and with an indirect target (07 R151 to R154).
-/

namespace Sys2Proof.Proofs.TransferRules

open Sys2Proof Sys2Proof.Machine Sys2Proof.Claims Sys2Proof.Proofs.RegisterRows Sys2Proof.Proofs.IssueRules
  Sys2Proof.Proofs.MemoryFrames

/-! ## What the body of a control instruction sees -/

theorem issueCrew_slot (s : State) (c : Crew) (sp : Spec) (k : Bool) :
    ((s.issuing c sp).slot k).mask = (c.slot k).mask ∧ ((s.issuing c sp).slot k).pc = (c.slot k).pc := by
  unfold State.issuing issueCrew entryCrew issueRegion markRegion
  generalize s.opening.cur.slot = j
  cases j <;> cases k <;> split <;> exact ⟨rfl, rfl⟩

theorem view_slot (s : State) (c : Crew) (sp : Spec) (k : Bool) : (s.view c sp).c.slot k = (s.issuing c sp).slot k := by
  show (seenCrew s.opening (s.issuing c sp)).slot k = _
  rw [seenCrew_frame]
  cases k <;> rfl

theorem issuing_core (s : State) (c : Crew) (sp : Spec) : (s.issuing c sp).core = c.core ∧ (s.issuing c sp).asid = c.asid := by
  rw [issuing_frame]
  exact ⟨rfl, rfl⟩

/-- The issuing crew as the body of its instruction finds it. -/
theorem issued_crew {s : State} {c : Crew} (sp : Spec) (h : s.opening.issuer? = some c) : (s.issued c sp).crew? c.id = some (s.issuing c sp) := by
  obtain ⟨-, c0, hfind, -⟩ := issuer_find h
  unfold State.crew?
  rw [issued_crews]
  exact find_map_id hfind (issuing_id s c sp)

/-! ## Dividing the lanes of a slot (R23) -/

section Divide

variable {x : Ctx} {s : State} {e : Crew} {stay m : Mask} {pc : DWord} {line : List Byte}

theorem transfer_none (hcrew : s.crew? x.id = some e) (hstay : stay ≠ 0#64) :
    transfer x s stay [] = .ok (s.modCrew x.id (fun c => c.enter x.k x.next stay (((e.slot x.k).goto x.next).line))) := by
  simp only [transfer, hcrew, checkParts, partLines, List.map_nil, List.zip_nil_left, List.foldl_nil, hstay, if_false, List.append_nil]
  rfl

theorem checkParts_one (hline : s.checkTarget e.core e.asid pc m true = .ok line) : checkParts s e [(pc, m)] = .ok [line] := by
  simp [checkParts, hline, partLines]

theorem transfer_all (hcrew : s.crew? x.id = some e) (hline : s.checkTarget e.core e.asid pc m true = .ok line) :
    transfer x s 0#64 [(pc, m)] = .ok ((s.noteLine e.core e.asid (pcLine pc) line).modCrew x.id (fun c => c.enter x.k pc m line)) := by
  simp only [transfer, hcrew, checkParts_one hline]
  rfl

/-- The crew whose slot k has divided: some lanes go on there, the others enter the other slot. -/
def divided (k : Bool) (next : DWord) (stay : Mask) (rest : List Byte) (pc : DWord) (m : Mask) (line : List Byte) (c : Crew) : Crew :=
  enterFree (c.enter k next stay rest) (!k) pc m line

theorem enterFree_eq (c : Crew) (k : Bool) (pc : DWord) (m : Mask) (line : List Byte) :
    enterFree c k pc m line = markRegion (c.setSlot k (PcSlot.empty.runAt pc m line)) k pc := by
  cases k <;> rfl

theorem transfer_split (hcrew : s.crew? x.id = some e) (hline : s.checkTarget e.core e.asid pc m true = .ok line) (hstay : stay ≠ 0#64) {s1 : State}
    (hpush : (s.noteLine e.core e.asid (pcLine pc) line).dsPush x.id
      (if (e.slot (!x.k)).st ≠ .free then [((e.slot (!x.k)).pc, (e.slot (!x.k)).st == .parked, (e.slot (!x.k)).mask)] else []) = .ok s1) :
    transfer x s stay [(pc, m)] = .ok (s1.modCrew x.id (divided x.k x.next stay (((e.slot x.k).goto x.next).line) pc m line)) := by
  have hspill : (if 2 ≤ ([(x.next, stay, ((e.slot x.k).goto x.next).line), (pc, m, line)] : List (DWord × Mask × List Byte)).length ∧ (e.slot (!x.k)).st ≠ .free
      then [((e.slot (!x.k)).pc, (e.slot (!x.k)).st == .parked, (e.slot (!x.k)).mask)] else []) =
      if (e.slot (!x.k)).st ≠ .free then [((e.slot (!x.k)).pc, (e.slot (!x.k)).st == .parked, (e.slot (!x.k)).mask)] else [] :=
    if_congr (and_iff_right (le_refl 2)) rfl rfl
  simp only [transfer, hcrew, checkParts_one hline, List.zip_cons_cons, List.zip_nil_left, List.foldl_cons, List.foldl_nil, hstay, if_false, List.map_cons,
    List.map_nil, List.drop_succ_cons, List.drop_zero, List.cons_append, List.nil_append, List.reverse_nil, List.append_nil, hspill, hpush]
  refine congrArg (fun g => (Except.ok (s1.modCrew x.id g) : Res State)) (funext fun c => ?_)
  rw [divided, enterFree_eq]
  rfl

end Divide

theorem enter_keeps (c : Crew) (k : Bool) (pc : DWord) (m : Mask) (line : List Byte) :
    (c.enter k pc m line).id = c.id ∧ (c.enter k pc m line).depth = c.depth ∧ ((c.enter k pc m line).slot k).st = .running ∧
      (c.enter k pc m line).slot (!k) = c.slot (!k) := by
  cases k <;> exact ⟨rfl, rfl, rfl, rfl⟩

theorem enter_stands (c : Crew) (k : Bool) (pc : DWord) (m : Mask) (line : List Byte) :
    ((c.enter k pc m line).slot k).pc = pc ∧ ((c.enter k pc m line).slot k).mask = m := by
  cases k <;> exact ⟨rfl, rfl⟩

theorem enterFree_keeps (c : Crew) (k : Bool) (pc : DWord) (m : Mask) (line : List Byte) :
    (enterFree c k pc m line).id = c.id ∧ (enterFree c k pc m line).depth = c.depth ∧ ((enterFree c k pc m line).slot k).st = .running ∧
      (enterFree c k pc m line).slot (!k) = c.slot (!k) := by
  cases k <;> exact ⟨rfl, rfl, rfl, rfl⟩

theorem enterFree_stands (c : Crew) (k : Bool) (pc : DWord) (m : Mask) (line : List Byte) :
    ((enterFree c k pc m line).slot k).pc = pc ∧ ((enterFree c k pc m line).slot k).mask = m := by
  cases k <;> exact ⟨rfl, rfl⟩

section Divided

variable (k : Bool) (next : DWord) (stay : Mask) (rest : List Byte) (pc : DWord) (m : Mask) (line : List Byte) (c : Crew)

theorem divided_slot : (divided k next stay rest pc m line c).slot k = (c.enter k next stay rest).slot k := by
  have h := (enterFree_keeps (c.enter k next stay rest) (!k) pc m line).2.2.2
  rwa [Bool.not_not] at h

theorem divided_keeps : (divided k next stay rest pc m line c).id = c.id ∧ (divided k next stay rest pc m line c).depth = c.depth := by
  obtain ⟨hid, hdepth, -⟩ := enterFree_keeps (c.enter k next stay rest) (!k) pc m line
  obtain ⟨hid', hdepth', -⟩ := enter_keeps c k next stay rest
  exact ⟨hid.trans hid', hdepth.trans hdepth'⟩

theorem divided_running : ((divided k next stay rest pc m line c).slot k).st = .running ∧
    ((divided k next stay rest pc m line c).slot (!k)).st = .running := by
  rw [divided_slot]
  exact ⟨(enter_keeps c k next stay rest).2.2.1, (enterFree_keeps _ (!k) pc m line).2.2.1⟩

end Divided

/-! ## Control instructions (R149) -/

/-- A control instruction whose effect replaces its crew by a function of it, in a state that keeps the crews, ends as `Moved` says. -/
theorem moved_of_body {s m : State} {c : Crew} {sp : Spec} {bad : Crew → Bool} {body : Ctx → State → Res Done} {g : Crew → Crew} {wr : List Wr} {k : Bool}
    (hi : Issues s c sp bad) (hb : body (s.view c sp) (s.issued c sp) = .ok { s := m.modCrew c.id g, wr := wr, ctl := true })
    (hm : m.crews = (s.issued c sp).crews) (hcyc : m.cycle = s.cycle) (hid : ∀ e, (g e).id = e.id)
    (hrun : ((g (s.issuing c sp)).slot k).st = .running)
    (hoth : ((g (s.issuing c sp)).slot (!k)).st ≠ .free ∨ (g (s.issuing c sp)).depth = 0) :
    Answers (issue sp bad body s) (fun t => Moved s m t (g (s.issuing c sp)) sp wr) := by
  refine ⟨_, issue_ok hi hb, ?_⟩
  have hcrews : (m.modCrew c.id g).crews = s.crews.map (fun x => if x.id == c.id then g (s.issuing c sp) else x) := by
    show m.crews.map (fun x => if x.id == c.id then g x else x) = _
    rw [hm, issued_crews, map_if_mapf g (issuing_id s c sp)]
  exact issueEnd_moved (d := { s := m.modCrew c.id g, wr := wr, ctl := true }) hi.crew hcrews ((hid _).trans (issuing_id ..)) rfl hcyc hrun hoth

/-- A crew after a transfer is in the crew list. -/
theorem stands_of_moved {s m t : State} {c e : Crew} {sp : Spec} {wr : List Wr} (hi : s.opening.issuer? = some c) (he : e.id = c.id)
    (h : Moved s m t e sp wr) : ∃ c' ∈ t.crews, c'.id = c.id ∧ ∀ j, c'.slot j = e.slot j := by
  obtain ⟨c', rfl, hend, -⟩ := h
  obtain ⟨c0, hmem, hid⟩ := exists_crew_of_issuer hi
  refine ⟨c', List.mem_map.mpr ⟨c0, hmem, if_pos (by simp [hid, he])⟩, ?_, fun j => ?_⟩
  · rw [hend]
    exact he
  · rw [hend]
    cases j <;> rfl

/-! ## Transfers with a target in common (R151 to R154) -/

/-- What a transfer changes of the state outside memory and the crews. -/
theorem noteLine_crews (s : State) (core asid va : Nat) (bs : List Byte) :
    (s.noteLine core asid va bs).crews = s.crews ∧ (s.noteLine core asid va bs).cycle = s.cycle := ⟨rfl, rfl⟩

theorem noteStack_crews (s : State) (c : Crew) (i : Nat) : (s.noteStack c i).crews = s.crews ∧ (s.noteStack c i).cycle = s.cycle := by
  unfold State.noteStack
  dsimp only
  split <;> exact ⟨rfl, rfl⟩

/-- A record pushed leaves the crews but for the depth of the one that pushes. -/
theorem dsPush_crews {s m : State} {c : Crew} {id : Nat} {r : DWord × Bool × Mask} (hcrew : s.crew? id = some c) (h : s.dsPush id [r] = .ok m) :
    m.crews = s.crews.map (fun x => if x.id == id then { x with depth := x.depth + 1 } else x) := by
  simp only [State.dsPush, hcrew] at h
  split at h
  · cases h
  · next l _ =>
    cases h
    show (State.store _ _ _ _).crews.map _ = _
    rw [(store_memStep ..).crews, (noteStack_crews s c c.depth).1]

/-- The instruction transfers some lanes to one target. -/
structure TransferBody (sp : Spec) (body : Ctx → State → Res Done) (s : State) (c : Crew) (m : Mask) (target : DWord) (wr : List Wr) : Prop where
  body_eq : body (s.view c sp) (s.issued c sp) = ctlDone (transferTo (s.view c sp) (s.issued c sp) m target) wr

section Transfer

variable {s : State} {c : Crew} {sp : Spec} {bad : Crew → Bool} {body : Ctx → State → Res Done} {m : Mask} {target : DWord} {wr : List Wr}

theorem transferTo_eq (h : TransferBody sp body s c m target wr) :
    body (s.view c sp) (s.issued c sp) = ctlDone (transfer (s.view c sp) (s.issued c sp) ((c.slot s.cur.slot).mask &&& ~~~m)
      (if m = 0#64 then [] else [(target, m)])) wr := by
  have hmask : ((s.view c sp).c.slot s.cur.slot).mask = (c.slot s.cur.slot).mask := by
    rw [view_slot]
    exact (issueCrew_slot ..).1
  rw [h.body_eq, transferTo, ← hmask]
  rfl

/-- A slot entered leaves nothing for the rules of R24 to change. -/
theorem enter_settled (hs : Steady s c) (pc : DWord) (m : Mask) (line : List Byte) :
    (((s.issuing c sp).enter s.cur.slot pc m line).slot s.cur.slot).st = .running ∧
      ((((s.issuing c sp).enter s.cur.slot pc m line).slot (!s.cur.slot)).st ≠ .free ∨ ((s.issuing c sp).enter s.cur.slot pc m line).depth = 0) := by
  obtain ⟨-, hdepth, hrun, hother⟩ := enter_keeps (s.issuing c sp) s.cur.slot pc m line
  rw [hother, hdepth, issuing_st, issuing_depth]
  exact ⟨hrun, hs.2⟩

/-- No lane moves: the slot goes on in sequence. -/
theorem transfer_moved_none (h : TransferBody sp body s c m target wr) (hi : Issues s c sp bad) (hs : Steady s c) (hlive : (c.slot s.cur.slot).mask ≠ 0#64)
    (hm : m = 0#64) :
    Answers (issue sp bad body s) (fun t => Moved s s.opening t
      ((s.issuing c sp).enter s.cur.slot s.cur.next (c.slot s.cur.slot).mask (nextLine (s.issuing c sp) s.cur.slot s.cur.next)) sp wr) := by
  have hstay : (c.slot s.cur.slot).mask &&& ~~~m = (c.slot s.cur.slot).mask := by rw [hm, BitVec.not_zero, BitVec.and_allOnes]
  have hbody := transferTo_eq h
  rw [if_pos hm, hstay, transfer_none (x := s.view c sp) (issued_crew sp hi.crew) hlive] at hbody
  obtain ⟨hrun, hother⟩ := enter_settled (sp := sp) hs s.cur.next (c.slot s.cur.slot).mask (nextLine (s.issuing c sp) s.cur.slot s.cur.next)
  exact moved_of_body (m := s.issued c sp) (k := s.cur.slot)
    (g := fun e => e.enter s.cur.slot s.cur.next (c.slot s.cur.slot).mask (nextLine (s.issuing c sp) s.cur.slot s.cur.next))
    hi hbody rfl rfl (fun e => (enter_keeps e _ _ _ _).1) hrun hother

/-- The effect of a control instruction on the state outside the crews. -/
theorem moved_withCrews {s m t : State} {cs : List Crew} {e : Crew} (h : Moved s { m with crews := cs } t e sp wr) : Moved s m t e sp wr := h

theorem withCrews_noteLine (s : State) (cs : List Crew) (core asid va : Nat) (line : List Byte) :
    State.noteLine { s with crews := cs } core asid va line = { s.noteLine core asid va line with crews := cs } := rfl

theorem issued_noteLine (s : State) (c : Crew) (sp : Spec) (core asid va : Nat) (line : List Byte) :
    (s.issued c sp).noteLine core asid va line = { s.opening.noteLine core asid va line with crews := (s.issued c sp).crews } :=
  withCrews_noteLine s.opening (s.issued c sp).crews core asid va line

/-- All lanes of the slot move. -/
theorem transfer_moved_all (h : TransferBody sp body s c m target wr) (hi : Issues s c sp bad) (hs : Steady s c) (hm : m ≠ 0#64)
    (hstay : (c.slot s.cur.slot).mask &&& ~~~m = 0#64) {line : List Byte} (hline : (s.issued c sp).checkTarget c.core c.asid target m true = .ok line) :
    Answers (issue sp bad body s) (fun t => Moved s (s.opening.noteLine c.core c.asid (pcLine target) line) t
      ((s.issuing c sp).enter s.cur.slot target m line) sp wr) := by
  obtain ⟨hcore, hasid⟩ := issuing_core s c sp
  have hbody := transferTo_eq h
  rw [if_neg hm, hstay, transfer_all (x := s.view c sp) (issued_crew sp hi.crew) (by rw [hcore, hasid]; exact hline), hcore, hasid] at hbody
  rw [issued_noteLine] at hbody
  obtain ⟨hrun, hother⟩ := enter_settled (sp := sp) hs target m line
  refine answers_mono (moved_of_body (k := s.cur.slot) (g := fun e => e.enter s.cur.slot target m line) hi hbody rfl rfl
    (fun e => (enter_keeps e _ _ _ _).1) hrun hother) fun t => moved_withCrews

end Transfer

section Split

variable {s : State} {c : Crew} {sp : Spec} {bad : Crew → Bool} {body : Ctx → State → Res Done} {m : Mask} {target : DWord} {wr : List Wr}

/-- The issuing crew with its slot divided. -/
def splitCrew (s : State) (target : DWord) (stay m : Mask) (line : List Byte) (e : Crew) : Crew :=
  enterFree (e.enter s.cur.slot s.cur.next stay (nextLine e s.cur.slot s.cur.next)) (!s.cur.slot) target m line

/-- Some lanes move to the other slot, which is free. -/
theorem transfer_moved_split (h : TransferBody sp body s c m target wr) (hi : Issues s c sp bad) (hm : m ≠ 0#64)
    (hstay : (c.slot s.cur.slot).mask &&& ~~~m ≠ 0#64) (hfree : (c.slot (!s.cur.slot)).st = .free)
    {line : List Byte} (hline : (s.issued c sp).checkTarget c.core c.asid target m true = .ok line) :
    Answers (issue sp bad body s) (fun t => Moved s (s.opening.noteLine c.core c.asid (pcLine target) line) t
      (splitCrew s target ((c.slot s.cur.slot).mask &&& ~~~m) m line (s.issuing c sp)) sp wr) := by
  obtain ⟨hcore, hasid⟩ := issuing_core s c sp
  have hfree' : ((s.issuing c sp).slot (!s.cur.slot)).st = .free := (issuing_st ..).trans hfree
  have hbody := transferTo_eq h
  rw [if_neg hm, transfer_split (x := s.view c sp) (s1 := (s.issued c sp).noteLine c.core c.asid (pcLine target) line)
    (issued_crew sp hi.crew) (by rw [hcore, hasid]; exact hline) hstay
    (by rw [show (s.view c sp).k = s.cur.slot from rfl, if_neg (not_not.mpr hfree'), hcore, hasid]; rfl), issued_noteLine] at hbody
  obtain ⟨hrun, hother⟩ := divided_running s.cur.slot s.cur.next ((c.slot s.cur.slot).mask &&& ~~~m) (nextLine (s.issuing c sp) s.cur.slot s.cur.next)
    target m line (s.issuing c sp)
  refine answers_mono (moved_of_body (k := s.cur.slot)
    (g := divided s.cur.slot s.cur.next ((c.slot s.cur.slot).mask &&& ~~~m) (nextLine (s.issuing c sp) s.cur.slot s.cur.next) target m line)
    hi hbody rfl rfl (fun e => (divided_keeps ..).1) hrun (.inl ?_)) fun t => moved_withCrews
  rw [hother]
  decide

theorem modCrew_congr {s : State} {i : Nat} {f g : Crew → Crew} (h : ∀ x ∈ s.crews, x.id = i → f x = g x) : s.modCrew i f = s.modCrew i g := by
  show { s with crews := s.crews.map (fun c : Crew => if c.id == i then f c else c) } = _
  congr 1
  refine List.map_congr_left fun x hx => ?_
  split
  · next hid => exact h x hx (beq_iff_eq.mp hid)
  · rfl

theorem nextLine_depth (e : Crew) (d : Nat) (k : Bool) (next : DWord) : nextLine { e with depth := d } k next = nextLine e k next := by
  cases k <;> rfl

/-- Some lanes move, and those of the other slot go to the divergence stack. -/
theorem transfer_spills (h : TransferBody sp body s c m target wr) (hi : Issues s c sp bad) (hm : m ≠ 0#64)
    (hstay : (c.slot s.cur.slot).mask &&& ~~~m ≠ 0#64) (hfree : (c.slot (!s.cur.slot)).st ≠ .free)
    {line : List Byte} (hline : (s.issued c sp).checkTarget c.core c.asid target m true = .ok line) {m1 : State}
    (hpush : ((s.issued c sp).noteLine c.core c.asid (pcLine target) line).dsPush c.id
      [((c.slot (!s.cur.slot)).pc, (c.slot (!s.cur.slot)).st == .parked, (c.slot (!s.cur.slot)).mask)] = .ok m1) :
    issue sp bad body s = .next (issueEnd s.opening c sp
      { s := m1.modCrew c.id (splitCrew s target ((c.slot s.cur.slot).mask &&& ~~~m) m line), wr := wr, ctl := true }) := by
  obtain ⟨hcore, hasid⟩ := issuing_core s c sp
  obtain ⟨hmask, hpc⟩ := issueCrew_slot s c sp (!s.cur.slot)
  have hst := issuing_st s c sp (!s.cur.slot)
  have hbody := transferTo_eq h
  rw [if_neg hm, transfer_split (x := s.view c sp) (s1 := m1)
    (issued_crew sp hi.crew) (by rw [hcore, hasid]; exact hline) hstay
    (by rw [show (s.view c sp).k = s.cur.slot from rfl, hst, if_pos hfree, hcore, hasid, hmask, hpc]; exact hpush)] at hbody
  have hnoted : ((s.issued c sp).noteLine c.core c.asid (pcLine target) line).crew? c.id = some (s.issuing c sp) := issued_crew sp hi.crew
  have hcrews := dsPush_crews hnoted hpush
  have hmod : m1.modCrew c.id (splitCrew s target ((c.slot s.cur.slot).mask &&& ~~~m) m line) = m1.modCrew c.id
      (divided s.cur.slot s.cur.next ((c.slot s.cur.slot).mask &&& ~~~m) (nextLine (s.issuing c sp) s.cur.slot s.cur.next) target m line) := by
    refine modCrew_congr fun y hy hid => ?_
    have hline' : nextLine y s.cur.slot s.cur.next = nextLine (s.issuing c sp) s.cur.slot s.cur.next := by
      rw [hcrews, (noteLine_crews ..).1, issued_crews, map_if_mapf _ (issuing_id s c sp)] at hy
      obtain ⟨z, -, rfl⟩ := List.mem_map.mp hy
      split
      · exact nextLine_depth _ _ _ _
      · next hne =>
        rw [if_neg hne] at hid
        exact absurd (beq_iff_eq.mpr hid) hne
    rw [splitCrew, hline', divided]
  rw [hmod]
  exact issue_ok hi hbody

end Split

/-- A row holds whose instruction is the transfer that the row describes. -/
theorem holds_of_transfers {r : RowB} (h : ∀ f, ∃ body : Ctx → State → Res Done, (∀ s, exec (r.instr f) s = issue (r.spec f) (r.bad f) body s) ∧
    ∀ s c, TransferBody (r.spec f) body s c (r.moves f (s.view c (r.spec f)) s.opening) (directTarget f s.cur.pc)
      (r.writes f (s.view c (r.spec f)) s.opening)) : r.Holds := by
  intro f s c hi hs sp x k e live m stay target wr hlive
  obtain ⟨body, hexec, hbody⟩ := h f
  rw [hexec]
  refine ⟨fun hm => transfer_moved_none (hbody s c) hi hs hlive hm, fun hm line hline => ?_⟩
  intro s1 split
  refine ⟨fun hstay => ?_, fun hstay hfree => ?_, fun hstay hfree m1 hpush => ?_⟩
  · exact transfer_moved_all (hbody s c) hi hs hm hstay hline
  · exact transfer_moved_split (hbody s c) hi hm hstay hfree hline
  · exact transfer_spills (hbody s c) hi hm hstay hfree hline hpush

theorem sub_one_ne_zero_iff (v : Word) : (v - 1#32 != 0#32) = (v != 1#32) := by
  rw [Bool.eq_iff_iff, bne_iff_ne, bne_iff_ne, ne_eq, ne_eq, not_iff_not]
  constructor
  · intro h
    bv_omega
  · rintro rfl
    rfl

theorem plain_issued (x : Ctx) (s : State) (c : Crew) (sp : Spec) (r : Nat) : x.plain (s.issued c sp) r = x.plain s.opening r := rfl

/-- The body of loop: the counter falls by one, and the lanes whose counter is not 1 transfer. -/
def loopBody (f : FormB) : Ctx → State → Res Done := fun x s =>
  ctlDone (transferTo x s (mkMask (fun l => x.act.getLsbD l && rowAt (x.plain s f.a.toNat) l != 1#32)) (directTarget f x.pc))
    [Wr.full f.a.toNat x.act (fun l => rowAt (x.plain s f.a.toNat) l - 1#32)]

theorem exec_loop_eq_issue (f : FormB) (s : State) : exec (.loop f) s = issue (specB f [one f.a] [one f.a] (.fixed 2))
    (fun c => slotBad f || f.sub ≠ 0#13 || ctlQueueBad c f.a.toNat 1) (loopBody f) s := by
  rw [exec_loop, execLoop]
  simp only [sub_one_ne_zero_iff]
  rfl

theorem loopBody_transfers (f : FormB) (s : State) (c : Crew) :
    let sp := specB f [one f.a] [one f.a] (.fixed 2)
    let x := s.view c sp
    TransferBody sp (loopBody f) s c (mkMask (fun l => x.act.getLsbD l && rowAt (x.plain s.opening f.a.toNat) l != 1#32)) (directTarget f s.cur.pc)
      [Wr.full f.a.toNat x.act (fun l => rowAt (x.plain s.opening f.a.toNat) l - 1#32)] := by
  constructor
  simp only [loopBody, plain_issued]
  rfl

theorem directRows_hold : ∀ r ∈ directRows, r.Holds := by
  simp only [directRows, List.forall_mem_cons]
  refine ⟨holds_of_transfers fun f => ?_, holds_of_transfers fun f => ?_, holds_of_transfers fun f => ?_, by simp⟩
  · exact ⟨fun x s => ctlDone (transferTo x s x.act (directTarget f x.pc)) [], fun s => rfl, fun s c => ⟨rfl⟩⟩
  · exact ⟨fun x s => ctlDone (transferTo x s x.act (directTarget f x.pc)) (wrPair f.a.toNat x.act (fun _ => x.next)), fun s => rfl,
      fun s c => ⟨by rw [wrPair_eq]; rfl⟩⟩
  · refine ⟨loopBody f, exec_loop_eq_issue f, fun s c => ?_⟩
    dsimp only
    exact loopBody_transfers f s c

/-! ## Indirect targets (R153, R154) -/

theorem wide_b64_eq_pairTargets (x : Ctx) (s : State) (r : BitVec 8) : x.wide s r .b64 = pairTargets x s r.toNat := rfl

/-- One step of grouping lanes by target. -/
def groupStep (pcs : Nat → DWord) (gs : List (DWord × Mask)) (l : Nat) : List (DWord × Mask) :=
  match gs.findIdx? (fun g => g.1 == pcs l) with
  | some i => gs.modify i (fun g => (g.1, g.2 ||| (1#64 <<< l)))
  | none => gs ++ [(pcs l, 1#64 <<< l)]

theorem groupStep_one {pcs : Nat → DWord} {pc : DWord} {l : Nat} (hpc : pcs l = pc) (m : Mask) :
    groupStep pcs [(pc, m)] l = [(pc, m ||| (1#64 <<< l))] := by
  simp [groupStep, hpc]

theorem groupStep_nil (pcs : Nat → DWord) (l : Nat) : groupStep pcs [] l = [(pcs l, 1#64 <<< l)] := rfl

/-- Lanes with one target form one group. -/
theorem foldl_groupStep {pcs : Nat → DWord} {pc : DWord} (ls : List Nat) (h : ∀ l ∈ ls, pcs l = pc) (m : Mask) :
    ls.foldl (groupStep pcs) [(pc, m)] = [(pc, ls.foldl (fun m l => m ||| (1#64 <<< l)) m)] := by
  induction ls generalizing m with
  | nil => rfl
  | cons l ls ih =>
    rw [List.foldl_cons, List.foldl_cons, groupStep_one (h l List.mem_cons_self), ih fun k hk => h k (List.mem_cons_of_mem _ hk)]

/-- The lanes of a mask, put together again. -/
theorem foldl_or_maskLanes (m : Mask) : (maskLanes m).foldl (fun a l => a ||| (1#64 <<< l)) 0#64 = m := by
  have h : (maskLanes m).foldl (fun a l => a ||| (1#64 <<< l)) 0#64 = mkMask (fun l => m.getLsbD l) := by
    rw [maskLanes, List.foldl_filter]
    rfl
  rw [h]
  exact BitVec.eq_of_getLsbD_eq fun l hl => mkMask_get _ hl

theorem transferEach_common (x : Ctx) (s : State) (m : Mask) (pcs : Nat → DWord) (pc : DWord) (h : ∀ l, l < 64 → m.getLsbD l → pcs l = pc) :
    transferEach x s m pcs = transferTo x s m pc := by
  have hpcs : ∀ l ∈ maskLanes m, pcs l = pc := fun l hl => by
    obtain ⟨hlt, hget⟩ := List.mem_filter.mp hl
    exact h l (List.mem_range.mp hlt) hget
  have hgroups : (maskLanes m).foldl (groupStep pcs) [] = if m = 0#64 then [] else [(pc, m)] := by
    have hor := foldl_or_maskLanes m
    cases hls : maskLanes m with
    | nil =>
      rw [hls] at hor
      exact (if_pos hor.symm).symm
    | cons l ls =>
      rw [hls] at hor hpcs
      have hpc := hpcs l List.mem_cons_self
      have hne : m ≠ 0#64 := by
        rintro rfl
        simp [maskLanes] at hls
      rw [List.foldl_cons, groupStep_nil, hpc, foldl_groupStep ls (fun k hk => hpcs k (List.mem_cons_of_mem _ hk)), if_neg hne]
      rw [List.foldl_cons, BitVec.zero_or] at hor
      rw [hor]
  rw [transferTo, ← hgroups]
  rfl

/-- What an indirect transfer does: the lanes of `act` move each to its own target. -/
theorem indirectTransfers : IndirectTransfers := by
  refine ⟨fun f s m c i hi => ?_, fun f s m c => ?_, transferEach_common⟩
  · intro sp x hiss hm
    have hexec : exec (i f) s = runIndirect f s := by
      rcases hi with rfl | rfl <;> rfl
    rw [hexec]
    exact issue_ok hiss (congrArg (fun r => ctlDone r []) hm)
  · intro b sp x hiss hm
    have hb : ((f.sub.setWidth 8 : BitVec 8)).toNat = b := BitVec.toNat_setWidth 8 f.sub
    rw [exec_callx, execCallx]
    simp only [wide_b64_eq_pairTargets, grp, hb, wrPair_eq]
    exact issue_ok hiss (congrArg (fun r => ctlDone r (linkWrites f x)) hm)

/-! ## Targets that can be entered (R34 to R40) -/

section Enter

variable {s : State} {core asid : Nat} {pc : DWord} {line : List Byte}

theorem pcLine_lt (pc : DWord) : pcLine pc < 2 ^ 64 := by
  have := pc.isLt
  unfold pcLine
  omega

/-- Bits 63 to 56 of a canonical PC are those of its line. -/
theorem enterable_canonical (h : Enterable s core asid pc line) : Sys2Proof.Machine.canonical (pcLine pc) = true ∧ Sys2Proof.Machine.canonical pc.toNat = true := by
  have hlt := pc.isLt
  have hbit : pc.getLsbD 56 = decide (pc.toNat / 2 ^ 56 % 2 = 1) := Nat.testBit_eq_decide_div_mod_eq
  have hc := h.canonical.1
  have htop : pc.toNat / 2 ^ 56 = 0 ∨ pc.toNat / 2 ^ 56 = 255 := by
    rw [hbit] at hc
    split at hc <;> simp only [decide_eq_true_eq] at * <;> omega
  have hbits : ∀ a, a / 2 ^ 56 = pc.toNat / 2 ^ 56 → Sys2Proof.Machine.canonical a = true := by
    intro a ha
    simp only [Sys2Proof.Machine.canonical, bitsOf, Nat.shiftRight_eq_div_pow, ha, Bool.or_eq_true, beq_iff_eq]
    omega
  exact ⟨hbits _ (by unfold pcLine; omega), hbits _ rfl⟩

/-- Memory holds the line at a PC that can be entered. -/
theorem enterable_fetchNow (h : Enterable s core asid pc line) : s.fetchNow asid (dieOfCore core) (pcLine pc) = .ok line := by
  obtain ⟨l, hplace, hready, hclean, hload⟩ := h.mapped
  have hmin : min 64 (65536 - pcLine pc % 65536) = 64 := by
    unfold pcLine
    omega
  simp only [State.fetchNow, State.readVa, hmin, (enterable_canonical h).1, hplace, hready, hclean, hload]
  simp

/-- So does every copy of it that the core may fetch from. -/
theorem enterable_fetchLine (h : Enterable s core asid pc line) : s.fetchLine core asid (pcLine pc) = .ok line := by
  have hcopies : ((s.icache.filter (fun l => l.core == core && l.asid == asid && l.va == pcLine pc)).map (fun l => VRead.ok l.bytes)).filter
      (fun r => r ≠ VRead.ok line) = [] := by
    refine List.filter_eq_nil_iff.mpr fun r hr => ?_
    obtain ⟨y, hy, rfl⟩ := List.mem_map.mp hr
    obtain ⟨hmem, hkey⟩ := List.mem_filter.mp hy
    simp only [Bool.and_eq_true, beq_iff_eq] at hkey
    obtain ⟨⟨hcore, hasid⟩, hva⟩ := hkey
    simp [h.cached y hmem hcore hasid hva]
  have hbytes : s.fetchBytes core asid (pcLine pc) = .ok line := by
    simp only [State.fetchBytes, enterable_fetchNow h, hcopies, ite_self]
    rfl
  simp only [State.fetchLine, hbytes, h.formed]

theorem enterable_checkTarget (h : Enterable s core asid pc line) (m : Mask) : s.checkTarget core asid pc m true = .ok line := by
  obtain ⟨-, hrsv, hslot⟩ := h.canonical
  have hslotEq : pcSlot pc = pc.toNat % 8 := by simp [pcSlot, bitsOf]
  have hok : pcOk pc = true := by
    simp only [pcOk, (enterable_canonical h).2, hslotEq, bitsOf, Nat.shiftRight_eq_div_pow, Bool.true_and, Bool.and_eq_true, beq_iff_eq, decide_eq_true_eq]
    omega
  have htgt : lineTgt (lineWordOf line) (pcSlot pc) = true := by
    rw [hslotEq]
    exact h.target
  simp only [State.checkTarget, enterable_fetchLine h, hok, htgt]
  rfl

end Enter

/-! ## Completion (R151 to R154) -/

section Completion

variable {s : State} {c : Crew} {sp : Spec} {bad : Crew → Bool} {body : Ctx → State → Res Done} {m : Mask} {target : DWord} {wr : List Wr} {i : Instr}

theorem transfers_of_body (h : TransferBody sp body s c m target wr) (hexec : exec i s = issue sp bad body s) (hi : Issues s c sp bad) (hs : Steady s c)
    (hm : m ≠ 0#64) (henter : ∃ line, Enterable (s.issued c sp) c.core c.asid target line) : Transfers i s c m target := by
  obtain ⟨line, henter⟩ := henter
  have hline := enterable_checkTarget henter m
  unfold Transfers
  rw [hexec]
  refine ⟨fun hstay => ?_, fun hstay hfree => ?_⟩
  · refine answers_mono (transfer_moved_all h hi hs hm hstay hline) fun t ht => ?_
    obtain ⟨c', hmem, hid, hslot⟩ := stands_of_moved hi.crew ((enter_keeps ..).1.trans (issuing_id ..)) ht
    obtain ⟨hpc, hmask⟩ := enter_stands (s.issuing c sp) s.cur.slot target m line
    exact ⟨c', hmem, hid, by rw [hslot, hpc], by rw [hslot, hmask], by rw [hslot, (enter_keeps ..).2.2.1]⟩
  · refine answers_mono (transfer_moved_split h hi hm hstay hfree hline) fun t ht => ?_
    have hkeeps := divided_keeps s.cur.slot s.cur.next ((c.slot s.cur.slot).mask &&& ~~~m) (nextLine (s.issuing c sp) s.cur.slot s.cur.next)
      target m line (s.issuing c sp)
    obtain ⟨hrun, hrun'⟩ := divided_running s.cur.slot s.cur.next ((c.slot s.cur.slot).mask &&& ~~~m) (nextLine (s.issuing c sp) s.cur.slot s.cur.next)
      target m line (s.issuing c sp)
    obtain ⟨c', hmem, hid, hslot⟩ := stands_of_moved hi.crew (hkeeps.1.trans (issuing_id ..)) ht
    obtain ⟨hpc, hmask⟩ := enter_stands (s.issuing c sp) s.cur.slot s.cur.next ((c.slot s.cur.slot).mask &&& ~~~m)
      (nextLine (s.issuing c sp) s.cur.slot s.cur.next)
    obtain ⟨hpc', hmask'⟩ := enterFree_stands ((s.issuing c sp).enter s.cur.slot s.cur.next ((c.slot s.cur.slot).mask &&& ~~~m)
      (nextLine (s.issuing c sp) s.cur.slot s.cur.next)) (!s.cur.slot) target m line
    have hslotEq := divided_slot s.cur.slot s.cur.next ((c.slot s.cur.slot).mask &&& ~~~m) (nextLine (s.issuing c sp) s.cur.slot s.cur.next)
      target m line (s.issuing c sp)
    refine ⟨⟨c', hmem, hid, ?_, ?_, ?_⟩, ⟨c', hmem, hid, ?_, ?_, ?_⟩⟩ <;> rw [hslot]
    · exact (congrArg PcSlot.pc hslotEq).trans hpc
    · exact (congrArg PcSlot.mask hslotEq).trans hmask
    · exact hrun
    · exact hpc'
    · exact hmask'
    · exact hrun'

/-- Lanes that act are lanes of the slot. -/
theorem act_eq_zero (s : State) (c : Crew) (sp : Spec) (h : (c.slot s.cur.slot).mask = 0#64) : (s.view c sp).act = 0#64 := by
  show actOf _ _ _ _ _ _ (c.slot s.cur.slot).mask = _
  rw [h, actOf]
  split
  · rfl
  · exact mkMask_zero fun l _ => by simp

theorem goneOn_of_transfer_none (h : TransferBody sp body s c m target wr) (hexec : exec i s = issue sp bad body s) (hi : Issues s c sp bad)
    (hs : Steady s c) (hact : (s.view c sp).act ≠ 0#64) (hm : m = 0#64) : Answers (exec i s) (GoneOn s c) := by
  rw [hexec]
  refine answers_mono (transfer_moved_none h hi hs (fun h0 => hact (act_eq_zero s c sp h0)) hm) fun t ht => ?_
  obtain ⟨c', hmem, hid, hslot⟩ := stands_of_moved hi.crew ((enter_keeps ..).1.trans (issuing_id ..)) ht
  exact ⟨c', hmem, hid, by rw [hslot, (enter_stands ..).1]⟩

end Completion

theorem transfersComplete : TransfersComplete := by
  intro f s c hs direct enters
  refine ⟨?_, ?_, ?_, ?_, ?_⟩
  · intro sp x hi hact henter
    exact transfers_of_body (body := fun x s => ctlDone (transferTo x s x.act (directTarget f x.pc)) []) (wr := []) ⟨rfl⟩ rfl hi hs hact henter
  · intro sp x hi hact henter
    exact transfers_of_body (body := fun x s => ctlDone (transferTo x s x.act (directTarget f x.pc)) (wrPair f.a.toNat x.act (fun _ => x.next)))
      (wr := wrPair f.a.toNat x.act (fun _ => x.next)) ⟨rfl⟩ rfl hi hs hact henter
  · intro sp x m hi hact
    have hexec : exec (.loop f) s = issue sp (fun c => slotBad f || f.sub ≠ 0#13 || ctlQueueBad c f.a.toNat 1) (loopBody f) s := exec_loop_eq_issue f s
    have hbody : TransferBody sp (loopBody f) s c m direct [Wr.full f.a.toNat x.act (fun l => rowAt (x.plain s.opening f.a.toNat) l - 1#32)] :=
      loopBody_transfers f s c
    exact ⟨fun hm henter => transfers_of_body hbody hexec hi hs hm henter, fun hm => goneOn_of_transfer_none hbody hexec hi hs hact hm⟩
  · intro sp x pc hi hact hpcs henter
    have hbody : TransferBody sp (fun x s => ctlDone (transferEach x s x.act (x.wide s f.a .b64)) []) s c x.act pc [] :=
      ⟨congrArg (ctlDone · []) (transferEach_common _ _ _ _ _ hpcs)⟩
    exact ⟨transfers_of_body hbody rfl hi hs hact henter, transfers_of_body hbody rfl hi hs hact henter⟩
  · intro b sp x pc hi hact hpcs henter
    have hb : ((f.sub.setWidth 8 : BitVec 8)).toNat = b := BitVec.toNat_setWidth 8 f.sub
    have hexec : exec (.callx f) s = issue sp (fun c => tgtUsed f || f.sub.toNat / 256 ≠ 0 || ctlQueueBad c f.a.toNat 2 || ctlQueueBad c b 2)
        (fun x s => ctlDone (transferEach x s x.act (pairTargets x s b)) (wrPair f.a.toNat x.act (fun _ => x.next))) s := by
      rw [exec_callx, execCallx]
      simp only [wide_b64_eq_pairTargets, grp, hb]
      rfl
    refine transfers_of_body (wr := wrPair f.a.toNat x.act (fun _ => x.next)) ⟨?_⟩ hexec hi hs hact henter
    exact congrArg (ctlDone · (wrPair f.a.toNat x.act (fun _ => x.next))) (transferEach_common _ _ _ _ _ hpcs)

/-- Settles O13: each transfer divides the lanes of its slot as `transfer` does, and a target that can be entered passes its checks. -/
theorem controlTransfers : Obligations.ControlTransfers := ⟨directRows_hold, indirectTransfers, transfersComplete⟩

end Sys2Proof.Proofs.TransferRules
end

