-- ==== Sys2Proof/Proofs/JoinExit.lean ====
section
/-!
PROOF. Proofs/JoinExit.lean: join and exit, and the rules of R24 that follow them (07 R155, R156; 01 R22 to R26).
-/

namespace Sys2Proof.Proofs.JoinExit

open Sys2Proof Sys2Proof.Machine Sys2Proof.Claims Sys2Proof.Proofs.IssueRules Sys2Proof.Proofs.TransferRules Sys2Proof.Proofs.MatrixInstructions

/-! ## The rules of R24 -/

/-- Crew list `l` with every crew of an id replaced. -/
def replaced (l : List Crew) (i : Nat) (c : Crew) : List Crew := l.map (fun x => if x.id == i then c else x)

theorem setCrew_replaced {s : State} {l : List Crew} {i : Nat} {c e : Crew} (h : s.crews = replaced l i c) (hc : c.id = i) (he : e.id = i) :
    s.setCrew e = { s with crews := replaced l i e } := by
  show { s with crews := s.crews.map (fun x : Crew => if x.id == e.id then e else x) } = _
  rw [h, replaced, he, map_if_map hc, replaced]

section Rules

variable {s : State} {l : List Crew} {i : Nat} {c c' : Crew}

theorem slotRule_eq_none (hfind : s.crew? i = some c) (hmerge : mergeParked c = none) (hdepth : (c.a.st ≠ .free ∧ c.b.st ≠ .free) ∨ c.depth = 0)
    (hrel : releaseParked c = none) : s.slotRule i = none := by
  have hno : ¬((c.a.st = .free ∨ c.b.st = .free) ∧ c.depth ≠ 0) := by tauto
  simp only [State.slotRule, hfind, hmerge, hno, hrel, if_false, ite_self]

theorem slotRule_merge (hfind : s.crew? i = some c) (hstall : c.stall = none) (hret : c.retired = false) (hmerge : mergeParked c = some c') :
    s.slotRule i = some (s.setCrew c') := by
  simp [State.slotRule, hfind, hstall, hret, hmerge]

theorem slotRule_release (hfind : s.crew? i = some c) (hstall : c.stall = none) (hret : c.retired = false) (hmerge : mergeParked c = none)
    (hdepth : (c.a.st ≠ .free ∧ c.b.st ≠ .free) ∨ c.depth = 0) (hrel : releaseParked c = some c') : s.slotRule i = some (s.setCrew c') := by
  have hno : ¬((c.a.st = .free ∨ c.b.st = .free) ∧ c.depth ≠ 0) := by tauto
  simp [State.slotRule, hfind, hstall, hret, hmerge, hno, hrel]

theorem slotRules_done (h : s.slotRule i = none) (n : Nat) : State.slotRules n s i = s := by
  cases n with
  | zero => rfl
  | succ n => simp only [State.slotRules, h]

theorem slotRules_step {t : State} (h : s.slotRule i = some t) (n : Nat) : State.slotRules (n + 1) s i = State.slotRules n t i := by
  simp only [State.slotRules, h]

end Rules


/-! ## The end of a control instruction without register writes -/

/-- An instruction without latency, flag and writes, whose effect replaces its crew, ends with the rules of R24. -/
theorem issueEnd_settles_exactly {s m : State} {c e : Crew} {sp : Spec} (hi : s.opening.issuer? = some c)
    (hm : m.crews = replaced s.crews c.id e) (hid : e.id = c.id) (hlat : sp.lat = .none) (hflag : flagOf sp.h = none) :
    issueEnd s.opening c sp { s := m, wr := [], ctl := true } = ({ m with order := m.order + 1 } : State).settleSlots c.id := by
  obtain ⟨-, c0, hfind, -⟩ := issuer_find hi
  have hcrew : m.crew? c.id = some e := by
    unfold State.crew?
    rw [hm]
    exact find_map_id hfind hid
  have hcount : countCrew m sp [] e = e := by
    unfold countCrew
    rw [hflag]
    cases m.cur.snap <;> rfl
  have hland : ∀ before, landCrew m before sp [] e = e := fun before => by
    unfold landCrew
    rw [hlat, hflag]
    rfl
  have hcommit : commit m c.id sp [] = m := by
    unfold commit
    simp only [hcrew, hcount, hland]
    rw [setCrew_replaced hm hid hid, ← hm]
  unfold issueEnd
  simp only [hcommit, Bool.not_true, Bool.and_false, Bool.false_eq_true, if_false, if_true]
  have hlate : m.modCrew c.id (lateCrew m.order none) = m := modCrew_id m c.id
  rw [hlate, modCrew_id]

/-- The same of a control instruction with a flag: the state before the rules of R24 is one in which the crew has moved. -/
theorem issueEnd_settles {s : State} {c e : Crew} {sp : Spec} {d : Done} (hi : s.opening.issuer? = some c)
    (hm : d.s.crews = replaced s.crews c.id e) (hid : e.id = c.id) (hctl : d.ctl = true) (hcyc : d.s.cycle = s.cycle) :
    ∃ t0, Moved s d.s t0 e sp d.wr ∧ issueEnd s.opening c sp d = t0.settleSlots c.id := by
  obtain ⟨-, c0, hfind, -⟩ := issuer_find hi
  have hcrew : d.s.crew? c.id = some e := by
    unfold State.crew?
    rw [hm]
    exact find_map_id hfind hid
  generalize hb : (match d.s.cur.snap with
      | some sn => sn.regs
      | none => e.regs) = before
  generalize hL : lateCrew d.s.order d.late (landCrew d.s before sp d.wr (countCrew d.s sp d.wr e)) = L
  have hl : (landCrew d.s before sp d.wr (countCrew d.s sp d.wr e)).id = c.id := by rw [landCrew_frame]; exact hid
  have hcommit : (commit d.s c.id sp d.wr).modCrew c.id (lateCrew d.s.order d.late) = d.s.setCrew L := by
    have h : commit d.s c.id sp d.wr = d.s.setCrew (landCrew d.s before sp d.wr (countCrew d.s sp d.wr e)) := by
      unfold commit
      rw [hcrew]
      simp only [← hb] <;> rfl
    rw [h, ← hl, setCrew_modCrew _ _ (by rw [lateCrew_frame]), hL]
  have hLf : L = { e with regs := L.regs, flags := L.flags, flights := L.flights } := by
    rw [← hL, lateCrew_frame, landCrew_frame]
    rfl
  have hLid : L.id = c.id := by rw [hLf]; exact hid
  refine ⟨{ d.s with crews := replaced s.crews c.id L, order := d.s.order + 1 }, ⟨L, ?_, hLf, ?_⟩, ?_⟩
  · rw [hid]; rfl
  · have hW := lateCrew_writes d.late (landCrew_writes before sp d.wr hcyc (e := e))
    rwa [hL] at hW
  · have hend : issueEnd s.opening c sp d = ({ d.s.setCrew L with order := d.s.order + 1 } : State).settleSlots c.id := by
      unfold issueEnd
      rw [hcommit, hctl]
      simp only [Bool.not_true, Bool.and_false, Bool.false_eq_true, if_false, if_true, modCrew_id]
      rfl
    rw [hend, setCrew_replaced hm hid hLid]

/-! ## join -/

/-- The crew whose slot `k` runs on at the instruction after the one it stands at. -/
def resumed (c : Crew) (k : Bool) : Crew :=
  markRegion (c.setSlot k { (c.slot k).goto (pcNext (c.slot k).pc) with st := .running }) k (pcNext (c.slot k).pc)

theorem resumed_keeps (c : Crew) (k : Bool) : (resumed c k).id = c.id ∧ (resumed c k).depth = c.depth ∧ ((resumed c k).slot k).st = .running := by
  cases k <;> exact ⟨rfl, rfl, rfl⟩

section Settling

variable {s : State} {l : List Crew} {i : Nat} {c c' : Crew} {k : Bool}

theorem crew_of_replaced {c0 : Crew} (h : s.crews = replaced l i c) (h0 : l.find? (fun x => x.id == i) = some c0) (hc : c.id = i) : s.crew? i = some c := by
  unfold State.crew?
  rw [h]
  exact find_map_id h0 hc

theorem mergeParked_of_free (h : (c.slot (!k)).st = .free) : mergeParked c = none := by
  unfold mergeParked
  rw [if_neg]
  rintro ⟨ha, hb, -⟩
  cases k
  · exact absurd (hb.symm.trans h) (by decide)
  · exact absurd (ha.symm.trans h) (by decide)

theorem mergeParked_of_parked (h : (c.slot k).st = .parked) (ho : (c.slot (!k)).st = .parked) (hpc : (c.slot (!k)).pc = (c.slot k).pc)
    (hlt : (c.slot (!k)).parkAt < (c.slot k).parkAt) :
    mergeParked c = some ((c.setSlot (!k) { c.slot (!k) with mask := (c.slot (!k)).mask ||| (c.slot k).mask }).setSlot k PcSlot.empty) := by
  cases k
  · have hle : ¬ c.a.parkAt ≤ c.b.parkAt := Nat.not_le.mpr hlt
    rw [mergeParked, if_pos ⟨h, ho, hpc.symm⟩, if_neg hle, BitVec.or_comm]
    rfl
  · have hle : c.a.parkAt ≤ c.b.parkAt := Nat.le_of_lt hlt
    rw [mergeParked, if_pos ⟨ho, h, hpc⟩, if_pos hle]
    rfl

theorem releaseParked_of_parked (h : (c.slot k).st = .parked) (ho : (c.slot (!k)).st = .free) (hd : c.depth = 0) :
    releaseParked c = some (resumed c k) := by
  cases k
  · have ha : c.a.st = .parked := h
    have hb : c.b.st = .free := ho
    simp [releaseParked, resumed, ha, hb, hd, Crew.slot]
  · have ha : c.a.st = .free := ho
    have hb : c.b.st = .parked := h
    simp [releaseParked, resumed, ha, hb, hd, Crew.slot]

/-- The one parked slot of a crew runs on, and no rule applies after that. -/
theorem slotRules_release {c0 : Crew} (h : s.crews = replaced l i c) (h0 : l.find? (fun x => x.id == i) = some c0) (hc : c.id = i) (hstall : c.stall = none)
    (hret : c.retired = false) (hk : (c.slot k).st = .parked) (ho : (c.slot (!k)).st = .free) (hd : c.depth = 0) (n : Nat) :
    State.slotRules (n + 1) s i = { s with crews := replaced l i (resumed c k) } := by
  obtain ⟨hid, hdepth, hrun⟩ := resumed_keeps c k
  rw [slotRules_step (slotRule_release (crew_of_replaced h h0 hc) hstall hret (mergeParked_of_free ho) (.inr hd) (releaseParked_of_parked hk ho hd)),
    setCrew_replaced h hc (hid.trans hc), slotRules_done]
  exact Machine.slotRule_none (crew_of_replaced rfl h0 (hid.trans hc)) hrun (.inr (hdepth.trans hd))

/-- Both slots are parked at one PC: the lanes of the later merge into the earlier, which runs on. -/
theorem slotRules_merge {c0 : Crew} (h : s.crews = replaced l i c) (h0 : l.find? (fun x => x.id == i) = some c0) (hc : c.id = i) (hstall : c.stall = none)
    (hret : c.retired = false) (hmerge : mergeParked c = some c') (hkeep : c'.id = c.id ∧ c'.stall = c.stall ∧ c'.retired = c.retired)
    (hk : (c'.slot k).st = .parked) (ho : (c'.slot (!k)).st = .free) (hd : c'.depth = 0) (n : Nat) :
    State.slotRules (n + 2) s i = { s with crews := replaced l i (resumed c' k) } := by
  obtain ⟨hid, hst, hre⟩ := hkeep
  rw [slotRules_step (slotRule_merge (crew_of_replaced h h0 hc) hstall hret hmerge), setCrew_replaced h hc (hid.trans hc)]
  exact slotRules_release rfl h0 (hid.trans hc) (hst.trans hstall) (hre.trans hret) hk ho hd n

theorem settleSlots_eq (h : s.crew? i = some c) (hd : c.depth = 0) : s.settleSlots i = State.slotRules 6 s i := by
  simp only [State.settleSlots, h, hd]

end Settling

theorem issuing_slot_other (s : State) (c : Crew) (sp : Spec) : (s.issuing c sp).slot (!s.cur.slot) = c.slot (!s.cur.slot) := by
  unfold State.issuing issueCrew entryCrew issueRegion markRegion
  rw [show s.opening.cur = s.cur from rfl]
  generalize s.cur.slot = j
  cases j <;> split <;> rfl

theorem setSlot_keeps (c : Crew) (k : Bool) (p : PcSlot) : (c.setSlot k p).id = c.id ∧ (c.setSlot k p).depth = c.depth ∧
    (c.setSlot k p).stall = c.stall ∧ (c.setSlot k p).retired = c.retired := by
  cases k <;> exact ⟨rfl, rfl, rfl, rfl⟩

/-- Slot `k` parks at `pc`. -/
def parkedAt (c : Crew) (k : Bool) (pc : DWord) (ord : Nat) : Crew := c.setSlot k { c.slot k with st := .parked, pc := pc, parkAt := ord }

theorem parkedAt_keeps (c : Crew) (k : Bool) (pc : DWord) (ord : Nat) : (parkedAt c k pc ord).id = c.id ∧ (parkedAt c k pc ord).depth = c.depth ∧
    (parkedAt c k pc ord).stall = c.stall ∧ (parkedAt c k pc ord).retired = c.retired := setSlot_keeps ..

theorem issuing_keeps_stall (s : State) (c : Crew) (sp : Spec) : (s.issuing c sp).stall = c.stall ∧ (s.issuing c sp).retired = c.retired := by
  rw [issuing_frame]
  exact ⟨rfl, rfl⟩

/-- The state in which the rules of R24 apply to a join. -/
def joined (s : State) (c : Crew) (sp : Spec) : State :=
  { s.opening with
    crews := replaced s.crews c.id (parkedAt (s.issuing c sp) s.cur.slot s.cur.pc s.order)
    order := s.order + 1 }

theorem exec_join_settles {f : FormS} {s : State} {c : Crew} (hi : Issues s c (specS f [] [] .none) (fun _ => f.ga ≠ Guard.none || f.body ≠ 0#55))
    (hflag : flagOf f.h = none) :
    exec (.join f) s = .next ((joined s c (specS f [] [] .none)).settleSlots c.id) := by
  rw [exec_join, execJoin, issue_ok hi rfl]
  have hcrews : ((s.issued c (specS f [] [] .none)).modCrew c.id (fun e => parkedAt e s.cur.slot s.cur.pc s.order)).crews =
      replaced s.crews c.id (parkedAt (s.issuing c (specS f [] [] .none)) s.cur.slot s.cur.pc s.order) := by
    show (s.issued c _).crews.map _ = _
    rw [issued_crews]
    exact map_if_mapf (fun e => parkedAt e s.cur.slot s.cur.pc s.order) (issuing_id ..)
  refine congrArg Host.Outcome.next ((issueEnd_settles_exactly (sp := specS f [] [] .none) hi.crew hcrews ((parkedAt_keeps ..).1.trans (issuing_id ..)) rfl hflag).trans ?_)
  rw [joined, ← hcrews]
  rfl

theorem joinParksAndReleases : JoinParksAndReleases := by
  intro f s c sp k e parked on o hi hrun hstall hret hflag ends
  obtain ⟨-, c0, hfind, -⟩ := issuer_find hi.crew
  have hfind : s.crews.find? (fun x => x.id == c.id) = some c0 := hfind
  obtain ⟨hpid, hpdepth, hpstall, hpret⟩ : parked.id = e.id ∧ parked.depth = e.depth ∧ parked.stall = e.stall ∧ parked.retired = e.retired := parkedAt_keeps ..
  have hid : parked.id = c.id := hpid.trans (issuing_id ..)
  have hstall' : parked.stall = none := hpstall.trans ((issuing_keeps_stall ..).1.trans hstall)
  have hret' : parked.retired = false := hpret.trans ((issuing_keeps_stall ..).2.trans hret)
  have hslot : parked.slot k = { e.slot k with st := .parked, pc := s.cur.pc, parkAt := s.order } := slot_setSlot ..
  have hother : parked.slot (!k) = o := (slot_setSlot_not ..).trans (issuing_slot_other ..)
  have hexec := exec_join_settles hi hflag
  have hcrew : (joined s c sp).crew? c.id = some parked := crew_of_replaced rfl hfind hid
  have hdepth : c.depth = 0 → parked.depth = 0 := fun h => hpdepth.trans ((issuing_depth ..).trans h)
  refine ⟨fun ho => ?_, fun hd ho => ?_, fun hd ho hpc hlt => ?_⟩
  · refine hexec.trans ?_
    rw [settleSlots_steady (k := !k) hcrew (by rw [hother]; exact ho) (.inl ?_)]
    · rfl
    · rw [Bool.not_not, hslot]
      exact fun h => by cases h
  · have hres : resumed parked k = markRegion (parked.setSlot k { (parked.slot k).goto on with st := .running }) k on := by
      rw [resumed, hslot]
    refine hexec.trans ?_
    rw [settleSlots_eq hcrew (hdepth hd),
      slotRules_release rfl hfind hid hstall' hret' (k := k) (by rw [hslot]) (by rw [hother]; exact ho) (hdepth hd), hres]
    rfl
  · intro merged
    have hmask : (parked.slot k).mask = (c.slot k).mask := by
      rw [hslot]
      exact (issueCrew_slot ..).1
    have hmerged : mergeParked parked = some merged := by
      rw [mergeParked_of_parked (k := k) (by rw [hslot]) (by rw [hother]; exact ho) (by rw [hother, hslot]; exact hpc) (by rw [hother, hslot]; exact hlt), hother, hmask]
    have hkept : merged.slot (!k) = { o with mask := o.mask ||| (c.slot k).mask } ∧ merged.slot k = PcSlot.empty ∧ merged.id = parked.id ∧
        merged.stall = parked.stall ∧ merged.retired = parked.retired ∧ merged.depth = parked.depth := by
      obtain ⟨hi1, hd1, hs1, hr1⟩ := setSlot_keeps parked (!k) { o with mask := o.mask ||| (c.slot k).mask }
      obtain ⟨hi2, hd2, hs2, hr2⟩ := setSlot_keeps (parked.setSlot (!k) { o with mask := o.mask ||| (c.slot k).mask }) k PcSlot.empty
      have hmo := slot_setSlot_not (parked.setSlot (!k) { o with mask := o.mask ||| (c.slot k).mask }) k PcSlot.empty
      exact ⟨hmo.trans (slot_setSlot ..), slot_setSlot .., hi2.trans hi1, hs2.trans hs1, hr2.trans hr1, hd2.trans hd1⟩
    obtain ⟨hmo, hmk, hmid, hmstall, hmret, hmdepth⟩ := hkept
    have hres : resumed merged (!k) = markRegion (merged.setSlot (!k) { (merged.slot (!k)).goto on with st := .running }) (!k) on := by
      rw [resumed, show (merged.slot (!k)).pc = s.cur.pc by rw [hmo]; exact hpc]
    refine hexec.trans ?_
    rw [settleSlots_eq hcrew (hdepth hd),
      slotRules_merge rfl hfind hid hstall' hret' hmerged ⟨hmid, hmstall, hmret⟩ (k := !k) (by rw [hmo]; exact ho) (by rw [Bool.not_not, hmk]; rfl)
        (hmdepth.trans (hdepth hd)), hres]
    rfl

/-! ## exit -/

/-- The crew whose lanes `act` leave slot `k` for good, of whose lanes `left` remain. -/
def leave (k : Bool) (pc next : DWord) (act left : Mask) (e : Crew) : Crew :=
  let gone := { e with exited := e.exited ||| act }
  let empty : PcSlot := { PcSlot.empty with pc := pc }
  if left = 0#64 then
    if (e.slot (!k)).st = .free then (gone.setSlot k empty).setSlot (!k) empty else gone.setSlot k empty
  else markRegion (gone.setSlot k { (gone.slot k).goto next with mask := left }) k next

theorem modCrew_modCrew (s : State) (i : Nat) (g h : Crew → Crew) (hg : ∀ e, (g e).id = e.id) :
    (s.modCrew i g).modCrew i h = s.modCrew i (fun e => h (g e)) := by
  unfold State.modCrew
  simp only [List.map_map]
  congr 1
  refine List.map_congr_left fun e _ => ?_
  by_cases he : e.id = i
  · simp [he, hg]
  · simp [he]

section Leaving

variable {f : FormS} {s : State} {c : Crew}

theorem exec_exit_eq_issue (f : FormS) : ∃ body, (∀ s, exec (.exit f) s = issue (specS f [] [] .none) (fun _ => f.body ≠ 0#55) body s) ∧
    (∀ x s, x.act = 0#64 → body x s = ctlDone (transferTo x s 0#64 x.next) []) ∧
    (∀ x s, x.act ≠ 0#64 → x.c.gates ≠ [] → body x s = .error (.raise { gateCause 8 x.c.gateIndex with atIssue := true })) ∧
    (∀ x s, x.act ≠ 0#64 → x.c.gates = [] →
      body x s = .ok { s := s.modCrew x.id (leave x.k x.pc x.next x.act ((x.c.slot x.k).mask &&& ~~~x.act)), wr := [], ctl := true }) := by
  simp only [exec_exit, execExit]
  refine ⟨_, fun s => rfl, fun x s h => ?_, fun x s h hg => ?_, fun x s h hg => ?_⟩
  · simp only [h, if_true]
  · simp only [h, if_false, (callee_iff _).mpr hg, if_true]
  · have hcallee : ¬ x.c.callee = true := fun hc => (callee_iff _).mp hc hg
    have hother : ∀ e p, ((Crew.setSlot e x.k p).slot (!x.k)) = e.slot (!x.k) := fun e p => slot_setSlot_not ..
    simp only [h, if_false]
    rw [if_neg hcallee]
    by_cases hleft : (x.c.slot x.k).mask &&& ~~~x.act = 0#64
    · rw [if_pos hleft, modCrew_modCrew _ _ _ _ (by intro e; rfl)]
      refine congrArg (fun g => (.ok { s := s.modCrew x.id g, wr := [], ctl := true } : Res Done)) (funext fun e => ?_)
      simp only [leave, hleft, if_true, slot_setSlot_not]
      cases x.k <;> rfl
    · rw [if_neg hleft, modCrew_modCrew _ _ _ _ (by intro e; rfl)]
      refine congrArg (fun g => (.ok { s := s.modCrew x.id g, wr := [], ctl := true } : Res Done)) (funext fun e => ?_)
      simp only [leave, hleft, if_false]

theorem leave_keeps (k : Bool) (pc next : DWord) (act left : Mask) (e : Crew) :
    (leave k pc next act left e).id = e.id ∧ (leave k pc next act left e).depth = e.depth := by
  unfold leave
  split
  · cases k <;> split <;> exact ⟨rfl, rfl⟩
  · cases k <;> exact ⟨rfl, rfl⟩

/-- The lanes that `act` leaves in the slot go on. -/
theorem leave_some (k : Bool) (pc next : DWord) (act : Mask) {left : Mask} (e : Crew) (h : left ≠ 0#64) :
    ((leave k pc next act left e).slot k).st = (e.slot k).st ∧ ((leave k pc next act left e).slot (!k)).st = (e.slot (!k)).st := by
  rw [leave, if_neg h]
  cases k <;> exact ⟨rfl, rfl⟩

theorem exit_crews (s : State) (c : Crew) (sp : Spec) (g : Crew → Crew) :
    ((s.issued c sp).modCrew c.id g).crews = replaced s.crews c.id (g (s.issuing c sp)) := by
  show (s.issued c sp).crews.map _ = _
  rw [issued_crews]
  exact map_if_mapf g (issuing_id ..)

end Leaving

theorem exitRemovesLanes : ExitRemovesLanes := by
  intro f s c sp x k e live gone empty hi hs hlive
  obtain ⟨body, hexec, hstay, hgate, hleave⟩ := exec_exit_eq_issue f
  have hmask : ((x.c).slot k).mask = live := by
    rw [show x.c.slot k = _ from view_slot s c sp k]
    exact (issueCrew_slot ..).1
  have hgates : x.c.gates = c.gates := view_gates ..
  rw [hexec]
  refine ⟨fun hact => ?_, fun hact hnone => ?_, fun hact hsome => ?_⟩
  · exact transfer_moved_none (target := s.cur.next) ⟨(hstay x _ hact).trans rfl⟩ hi hs hlive rfl
  · have hbody : body x (s.issued c sp) = .ok { s := (s.issued c sp).modCrew c.id (leave k s.cur.pc s.cur.next x.act (live &&& ~~~x.act)), wr := [], ctl := true } := by
      rw [hleave x _ hact (hgates.trans hnone), ← hmask]
      rfl
    refine ⟨fun hleft => ?_, fun hleft ho => ?_, fun hleft ho hstall hret hflag => ?_⟩
    · have hl : leave k s.cur.pc s.cur.next x.act (live &&& ~~~x.act) e =
          markRegion (gone.setSlot k { (gone.slot k).goto s.cur.next with mask := live &&& ~~~x.act }) k s.cur.next := if_neg hleft
      obtain ⟨hrun, hother⟩ := leave_some k s.cur.pc s.cur.next x.act e hleft
      have hdepth := (leave_keeps k s.cur.pc s.cur.next x.act (live &&& ~~~x.act) e).2
      have h := moved_of_body (m := s.issued c sp) (k := k) hi hbody rfl rfl (fun e => (leave_keeps k _ _ _ _ e).1)
        (by rw [hrun, issuing_st]; exact hs.1) (by rw [hother, hdepth, issuing_st, issuing_depth]; exact hs.2)
      rw [← hl]
      exact h
    · have ho' : (e.slot (!k)).st ≠ .free := by
        rw [issuing_st, ho]
        exact fun h => by cases h
      have hl : leave k s.cur.pc s.cur.next x.act (live &&& ~~~x.act) e = gone.setSlot k empty := by rw [leave, if_pos hleft, if_neg ho']
      have hcrews := exit_crews s c sp (leave k s.cur.pc s.cur.next x.act (live &&& ~~~x.act))
      have hid := (leave_keeps k s.cur.pc s.cur.next x.act (live &&& ~~~x.act) e).1.trans (issuing_id ..)
      obtain ⟨t0, hmoved, hend⟩ := issueEnd_settles (sp := sp)
        (d := { s := (s.issued c sp).modCrew c.id (leave k s.cur.pc s.cur.next x.act (live &&& ~~~x.act)), wr := [], ctl := true }) hi.crew hcrews hid rfl rfl
      refine ⟨_, issue_ok hi hbody, t0, ?_, hend⟩
      rw [← hl]
      exact hmoved
    · have ho' : (e.slot (!k)).st = .free := by rw [issuing_st, ho]
      have hl : leave k s.cur.pc s.cur.next x.act (live &&& ~~~x.act) e = (gone.setSlot k empty).setSlot (!k) empty := by rw [leave, if_pos hleft, if_pos ho']
      generalize hlast : (gone.setSlot k empty).setSlot (!k) empty = last at hl ⊢
      have hcrews := exit_crews s c sp (leave k s.cur.pc s.cur.next x.act (live &&& ~~~x.act))
      rw [hl] at hcrews
      obtain ⟨hkid, hkdepth⟩ := leave_keeps k s.cur.pc s.cur.next x.act (live &&& ~~~x.act) e
      rw [hl] at hkid hkdepth
      have hid : last.id = c.id := hkid.trans (issuing_id ..)
      have hdepth : last.depth = 0 := hkdepth.trans ((issuing_depth ..).trans (hs.2.resolve_left (not_not.mpr ho)))
      have hfree : last.a.st = .free ∧ last.b.st = .free := by
        rw [← hlast]
        cases k <;> exact ⟨rfl, rfl⟩
      obtain ⟨-, c0, hfind, -⟩ := issuer_find hi.crew
      have hcrew : ({ (s.issued c sp).modCrew c.id (leave k s.cur.pc s.cur.next x.act (live &&& ~~~x.act)) with order := s.order + 1 } : State).crew? c.id =
          some last := crew_of_replaced hcrews hfind hid
      rw [issue_ok hi hbody, issueEnd_settles_exactly (sp := sp) hi.crew hcrews hid rfl hflag]
      refine congrArg Host.Outcome.next ((settleSlots_eq hcrew hdepth).trans ((slotRules_done (slotRule_eq_none hcrew ?_ (.inr hdepth) ?_) 6).trans ?_))
      · rw [mergeParked, if_neg]
        rintro ⟨h, -⟩
        exact absurd (hfree.1.symm.trans h) (by decide)
      · simp [releaseParked, hfree.1, hfree.2]
      · rw [show s.crews.map (fun y => if y.id == c.id then last else y) = _ from hcrews.symm]
        rfl
  · have hbody : body x (s.issued c sp) = .error (.raise { gateCause 8 c.gateIndex with atIssue := true }) := by
      rw [hgate x _ hact (by rw [hgates]; exact hsome), Crew.gateIndex, hgates, Crew.gateIndex]
    rw [issue_stopped hi hbody]
    rfl

/-- Settles O14. -/
theorem joinAndExit : Obligations.JoinAndExit := ⟨joinParksAndReleases, exitRemovesLanes⟩

end Sys2Proof.Proofs.JoinExit
end

