-- ==== Sys2Proof/Proofs/AccessRules.lean ====
section
/-!
PROOF. Proofs/AccessRules.lean: how memory accesses form their addresses, the order of their checks, and accesses that pass them all
(08 R160 to R162; 02 R52; 03 R64).
-/

namespace Sys2Proof.Proofs.AccessRules

open Sys2Proof Sys2Proof.Machine Sys2Proof.Claims Sys2Proof.Proofs.ConversionRows Sys2Proof.Proofs.IssueRules Sys2Proof.Proofs.MatrixInstructions

/-! ## Addresses -/

theorem formAcc_lanes (f : FormM) (x : Ctx) (s : State) (o64 : Bool) (units : Int) (m : Mask) :
    (formAcc f x s o64 units m).map (fun a => a.l) = (List.range 64).filter (fun l => m.getLsbD l) := by
  unfold formAcc
  rw [List.map_map]
  exact List.map_id' _

theorem hnd_lt_of_immediate {f : FormM} (h : f.hnd.getLsbD 11 = false) : f.hnd.toNat < 2 ^ 11 := by
  have hmsb : f.hnd.msb = false := by rwa [BitVec.msb_eq_getLsbD_last]
  have := BitVec.msb_eq_false_iff_two_mul_lt.mp hmsb
  omega

/-- The word that names the handle of a lane. -/
def handleWord (f : FormM) (x : Ctx) (s : State) (l : Nat) : Nat :=
  if hndReg f then (rowAt (x.row s (hndNum f)) l).toNat else f.hnd.toNat

/-- The handle entry that a lane uses. -/
def handleEntry (f : FormM) (x : Ctx) (s : State) (l : Nat) : HandleEntry :=
  if hndReg f ∧ handleWord f x s l / 2048 ≠ 0 then HandleEntry.none else s.handle x.c.asid (dieOfCore x.c.core) x.c.ht (handleWord f x s l) l

/-- The offset that a lane forms. -/
def laneOffset (f : FormM) (x : Ctx) (s : State) (o64 : Bool) (units : Int) (l : Nat) : Nat :=
  ((((x.wide s f.a (if o64 then .b64 else .b32)) l).toNat + units) % 2 ^ 64).toNat

/-- The access that a lane forms. -/
def laneAcc (f : FormM) (x : Ctx) (s : State) (o64 : Bool) (units : Int) (l : Nat) : Acc :=
  { l := l, hidx := handleWord f x s l % 2048, e := handleEntry f x s l, off := laneOffset f x s o64 units l,
    va := ((handleEntry f x s l).base + laneOffset f x s o64 units l) % 2 ^ 64 }

theorem formAcc_eq_map (f : FormM) (x : Ctx) (s : State) (o64 : Bool) (units : Int) (m : Mask) :
    formAcc f x s o64 units m = (maskLanes m).map (laneAcc f x s o64 units) := by
  have hentry : ∀ l, handleEntry f x s l = if !hndReg f then s.handle x.c.asid (dieOfCore x.c.core) x.c.ht f.hnd.toNat l
      else if handleWord f x s l / 2048 ≠ 0 then HandleEntry.none else s.handle x.c.asid (dieOfCore x.c.core) x.c.ht (handleWord f x s l) l := fun l => by
    cases hr : hndReg f <;> simp [handleEntry, handleWord, hr]
  have hword : ∀ l, handleWord f x s l = if hndReg f then (rowAt (if hndReg f then x.row s (hndNum f) else []) l).toNat else f.hnd.toNat := fun l => by
    cases hr : hndReg f <;> simp [handleWord, hr]
  unfold formAcc laneAcc
  refine List.map_congr_left fun l _ => ?_
  rw [hentry, hword]
  rfl

theorem mem_formAcc {f : FormM} {x : Ctx} {s : State} {o64 : Bool} {units : Int} {m : Mask} {a : Acc} (h : a ∈ formAcc f x s o64 units m) :
    ∃ l, l < 64 ∧ m.getLsbD l = true ∧ a = laneAcc f x s o64 units l := by
  rw [formAcc_eq_map] at h
  obtain ⟨l, hl, rfl⟩ := List.mem_map.mp h
  obtain ⟨hl, hm⟩ := List.mem_filter.mp hl
  exact ⟨l, List.mem_range.mp hl, hm, rfl⟩

theorem va_eq_of_mem {f : FormM} {x : Ctx} {s : State} {o64 : Bool} {units : Int} {m : Mask} {a : Acc} (h : a ∈ formAcc f x s o64 units m) :
    a.va = (a.e.base + a.off) % 2 ^ 64 := by
  obtain ⟨l, -, -, rfl⟩ := mem_formAcc h
  rfl

theorem addressFormation : AddressFormation := by
  intro f x s o64 units m
  refine ⟨formAcc_lanes .., fun a ha => ?_⟩
  obtain ⟨l, -, -, rfl⟩ := mem_formAcc ha
  intro base word
  have hbase : ((x.wide s f.a (if o64 then .b64 else .b32)) l).toNat = base := by
    cases o64
    · exact wide_single_toNat ..
    · obtain ⟨hlo, hhi⟩ := wide_pair_toNat x s f.a l
      show _ = (rowAt (x.plain s f.a.toNat) l).toNat + 2 ^ 32 * (rowAt (x.plain s (f.a.toNat + 1)) l).toNat
      rw [← hlo, ← hhi]
      exact (Nat.mod_add_div _ _).symm
  have hword : handleWord f x s l = word := by
    rw [handleWord, show hndNum f = f.hnd.toNat % 2 ^ 8 by simp [hndNum, bitsOf]]
    rfl
  have hentry : (laneAcc f x s o64 units l).e = handleEntry f x s l := rfl
  refine ⟨?_, rfl, congrArg (· % 2 ^ 11) hword, fun hr hbig => ?_, fun hr => ?_, fun hlt => ?_⟩
  · show (laneOffset f x s o64 units l : Int) = _
    rw [laneOffset, hbase]
    exact Int.toNat_of_nonneg (Int.emod_nonneg _ (by norm_num))
  · rw [hentry, handleEntry, hword, if_pos ⟨hr, by omega⟩]
    rfl
  · rw [← hword, handleWord, if_neg (by rw [hndReg, hr]; decide)]
    exact hnd_lt_of_immediate hr
  · rw [hentry, handleEntry, hword, if_neg (fun h => h.2 (Nat.div_eq_of_lt hlt))]
    rfl

/-! ## The order of the checks -/

theorem find?_of_filter_cons {α : Type} {p : α → Bool} {as rest : List α} {a : α} (h : as.filter p = a :: rest) : as.find? p = some a := by
  rw [← List.head?_filter, h]
  rfl

theorem find?_of_filter_nil {α : Type} {p : α → Bool} {as : List α} (h : as.filter p = []) : as.find? p = none := by
  rw [← List.head?_filter, h]
  rfl

theorem accessCheckOrder : AccessCheckOrder := by
  intro s c as size spaces perm badHandle outside skew
  have hcheck : checkAcc s c as size spaces perm =
      match as.find? badHandle with
      | some a => some (sysCause 0x0B 0 a.hidx 0#64 (failMask as badHandle))
      | none =>
        match as.find? outside with
        | some a => some (sysCause 0x0A 0 0 (BitVec.ofNat 64 a.va) (failMask as outside))
        | none =>
          match as.find? skew with
          | some a => some (sysCause 0x09 0 0 (BitVec.ofNat 64 a.va) (failMask as skew))
          | none => none := rfl
  rw [hcheck]
  refine ⟨fun a rest h => ?_, fun hh a rest h => ?_, fun hh hb a rest h => ?_, fun hh hb hg => ?_⟩
  · rw [find?_of_filter_cons h]
  · rw [find?_of_filter_nil hh, find?_of_filter_cons h]
  · rw [find?_of_filter_nil hh, find?_of_filter_nil hb, find?_of_filter_cons h]
  · rw [find?_of_filter_nil hh, find?_of_filter_nil hb, find?_of_filter_nil hg]

/-- Settles O16. -/
theorem accessAddressesAndChecks : Obligations.AccessAddressesAndChecks := ⟨addressFormation, accessCheckOrder⟩

/-! ## Accesses that pass every check -/

section Passing

variable {s : State} {c : Crew} {as : List Acc} {size : Nat} {spaces : List Nat} {perm : HandleEntry → Bool} {r w seen : Bool} {loc : Nat → Loc}

/-- An access that reaches a place outside block memory has a canonical address. -/
theorem canonical_of_reaches {a : Acc} {l : Loc} (h : Reaches s c a size spaces perm r w seen l) (hva : a.va = (a.e.base + a.off) % 2 ^ 64)
    (hspace : a.e.space ≠ 2) : canonical a.va = true := by
  have hplace := h.place
  rw [State.crewPlace, if_neg hspace] at hplace
  by_contra hno
  rw [hva] at hno
  simp only [hno, if_false] at hplace
  cases hplace

/-- Accesses that pass each check of R161. -/
theorem checkSig_of_checks (hserved : ∀ a ∈ as, a.e.wait = false) (hhandle : ∀ a ∈ as, a.e.valid = true ∧ a.e.space ∈ spaces ∧ perm a.e = true)
    (hbound : ∀ a ∈ as, bitOf a.off 63 = false ∧ a.off + size ≤ s.boundOf c a.e ∧ (a.e.space = 2 ∨ canonical a.va = true))
    (haligned : ∀ a ∈ as, a.va % size = 0) : checkSig s c as size spaces perm = none := by
  have hwait : as.any (fun a => a.e.wait) = false := by
    rw [List.any_eq_false]
    exact fun a ha => by rw [hserved a ha]; decide
  have hcheck : checkAcc s c as size spaces perm = none := by
    refine (accessCheckOrder s c as size spaces perm).2.2.2 ?_ ?_ ?_ <;> refine List.filter_eq_nil_iff.mpr fun a ha => ?_
    · obtain ⟨hvalid, hspace, hperm⟩ := hhandle a ha
      simp [hvalid, hspace, hperm]
    · obtain ⟨hpos, hin, hs | hs⟩ := hbound a ha <;> simp [hpos, hs, hin]
    · simp [haligned a ha]
  rw [checkSig, hwait, hcheck]
  rfl

theorem checkSig_eq_none (hva : ∀ a ∈ as, a.va = (a.e.base + a.off) % 2 ^ 64)
    (h : ∀ a ∈ as, Reaches s c a size spaces perm r w seen (loc a.l)) : checkSig s c as size spaces perm = none :=
  checkSig_of_checks (fun a ha => (h a ha).served) (fun a ha => ⟨(h a ha).valid, (h a ha).space, (h a ha).permitted⟩)
    (fun a ha => ⟨(h a ha).positive, (h a ha).inside, (em (a.e.space = 2)).imp_right (canonical_of_reaches (h a ha) (hva a ha))⟩)
    (fun a ha => (h a ha).aligned)

theorem meet_eq_ok {a : Acc} {l : Loc} (h : Reaches s c a size spaces perm r w seen l) : meet s c a size r w seen = .ok l := by
  have hclean : (seen && s.locPoison (dieOfCore c.core) (if r && w then l.home else l) size) = false := by
    cases hs : seen
    · rfl
    · rw [h.clean hs]; rfl
  simp only [meet, h.place, h.ready, hclean, Bool.false_eq_true, if_false]

theorem metCause_eq_none (ps : List (Acc × Met)) (h : ∀ p ∈ ps, ∃ l, p.2 = .ok l) : metCause ps = none := by
  unfold metCause
  rw [List.findSome?_eq_none_iff]
  intro p hp
  obtain ⟨l, hl⟩ := h p hp
  rw [hl]

theorem meetAll_eq_ok (h : ∀ a ∈ as, Reaches s c a size spaces perm r w seen (loc a.l)) (part : State → List (Acc × Loc) → State) :
    meetAll s c as size r w seen part = .ok (as.map (fun a => (a, loc a.l))) := by
  have hms : as.map (fun a => (a, meet s c a size r w seen)) = as.map (fun a => (a, Met.ok (loc a.l))) :=
    List.map_congr_left fun a ha => by rw [meet_eq_ok (h a ha)]
  have hwait : (as.map (fun a => (a, Met.ok (loc a.l)))).any (fun p => p.2 == .wait) = false := by
    rw [List.any_eq_false]
    intro p hp
    obtain ⟨a, -, rfl⟩ := List.mem_map.mp hp
    exact fun h => by cases h
  have hcause : metCause (as.map (fun a => (a, Met.ok (loc a.l)))) = none := metCause_eq_none _ fun p hp => by
    obtain ⟨a, -, rfl⟩ := List.mem_map.mp hp
    exact ⟨_, rfl⟩
  simp only [meetAll, hms, hwait, hcause, List.filterMap_map, Bool.false_eq_true, if_false]
  congr 1
  exact congrFun (List.filterMap_eq_map (f := fun a => (a, loc a.l))) as

end Passing

/-! ## What the use of handles and translations leaves as it was -/

/-- State `t` is state `s` but for the caches of translations and handles and the cores. -/
def UseStep (s t : State) : Prop := t = { s with tlb := t.tlb, hcache := t.hcache, cores := t.cores }

theorem UseStep.trans {s t u : State} (h : UseStep s t) (h' : UseStep t u) : UseStep s u := by
  unfold UseStep at h h' ⊢
  rw [h] at h'
  exact h'

theorem UseStep.crews {s t : State} (h : UseStep s t) : t.crews = s.crews := by rw [h]
theorem UseStep.cycle {s t : State} (h : UseStep s t) : t.cycle = s.cycle := by rw [h]

theorem touchLent_useStep (s : State) (core blk off top : Nat) : UseStep s (s.touchLent core blk off top) := by
  unfold State.touchLent
  dsimp only
  split <;> rfl

theorem noteUse_useStep (s : State) (c : Crew) (as : List Acc) : UseStep s (noteUse s c as) := by
  unfold noteUse
  induction as generalizing s with
  | nil => rfl
  | cons a as ih =>
    refine UseStep.trans ?_ (ih _)
    dsimp only
    refine UseStep.trans (t := s.noteEntry c.asid (dieOfCore c.core) (entryVa c.ht a.hidx) 32) rfl ?_
    split
    · exact touchLent_useStep ..
    · rfl

end Sys2Proof.Proofs.AccessRules
end

