-- ==== Sys2Proof/Proofs/LoadRows.lean ====
section
/-!
PROOF. Proofs/LoadRows.lean: the loads (08 R163, R164; 03 R65).
-/

namespace Sys2Proof.Proofs.LoadRows

open Sys2Proof Sys2Proof.Machine Sys2Proof.Claims Sys2Proof.Proofs.IssueRules Sys2Proof.Proofs.AccessRules Sys2Proof.Proofs.MemoryFrames

/-! ## Little-endian numbers -/

theorem leNat_drop (bs : List Byte) (n : Nat) : leNat (bs.drop n) = leNat bs / 256 ^ n := by
  induction n generalizing bs with
  | zero => simp
  | succ n ih =>
    cases bs with
    | nil => simp [leNat]
    | cons b bs =>
      have hb : b.toNat < 256 := b.isLt
      rw [List.drop_succ_cons, ih, leNat, Nat.pow_succ, Nat.mul_comm (256 ^ n), ← Nat.div_div_eq_div_mul]
      congr 1
      omega

theorem leNat_take (bs : List Byte) (n : Nat) : leNat (bs.take n) = leNat bs % 256 ^ n := by
  induction n generalizing bs with
  | zero => simp [leNat, Nat.mod_one]
  | succ n ih =>
    cases bs with
    | nil => simp [leNat]
    | cons b bs =>
      have hb : b.toNat < 256 := b.isLt
      have hmod := Nat.mod_mul (x := leNat (b :: bs)) (a := 256) (b := 256 ^ n)
      rw [List.take_succ_cons, leNat, ih, Nat.pow_succ, Nat.mul_comm (256 ^ n), hmod, leNat]
      congr 1
      · omega
      · congr 2
        omega

/-- A word of loaded bytes. -/
theorem ldWords_getD {size : Nat} (signed : Bool) (bs : List Byte) {i : Nat} (hi : i < regsFor size) (hsize : size ≤ 2 ∨ size % 4 = 0) :
    (ldWords size signed bs).getD i 0#32 = loadedWord size signed bs i := by
  unfold ldWords loadedWord
  by_cases hs : size ≤ 2
  · have hi : i = 0 := by
      rw [regsFor] at hi
      omega
    rw [if_pos hs, if_pos hs, hi]
    rfl
  · have hi : i < size / 4 := by
      rw [regsFor] at hi
      omega
    rw [if_neg hs, if_neg hs, List.getD_eq_getElem?_getD, List.getElem?_map, List.getElem?_range hi]
    show BitVec.ofNat 32 (leNat ((bs.drop (4 * i)).take 4)) = _
    rw [leNat_take, leNat_drop, show (256 : Nat) ^ (4 * i) = 2 ^ (32 * i) by rw [show (256 : Nat) = 2 ^ 8 by norm_num, ← Nat.pow_mul]; congr 1; omega]
    exact BitVec.eq_of_toNat_eq (by simp)

/-! ## Memory as loads find it -/

/-- Two states hold the same memory with the same past. -/
structure SameMemory (s t : State) : Prop where
  mem : t.mem = s.mem
  bmem : t.bmem = s.bmem
  keyed : t.keyed = s.keyed
  past : t.past = s.past
  free : t.free = s.free

theorem sameMemory_noteUse (s : State) (c : Crew) (as : List Acc) : SameMemory s (noteUse s c as) := by
  constructor <;> rw [noteUse_useStep s c as]

theorem SameMemory.ago {s t : State} (h : SameMemory s t) (k : Nat) : SameMemory (s.ago k) (t.ago k) := by
  unfold State.ago
  rw [h.past]
  generalize s.past.take k = ps
  induction ps generalizing s t with
  | nil => exact h
  | cons p ps ih =>
    refine ih ?_
    obtain ⟨hmem, hbmem, hkeyed, hpast, hfree⟩ := h
    cases hb : p.blk <;> constructor <;> simp [hmem, hbmem, hkeyed, hpast, hfree, hb]

theorem SameMemory.load {s t : State} (h : SameMemory s t) (die : Nat) (l : Loc) (n : Nat) : t.load die l n = s.load die l n := by
  unfold State.load State.readKey
  rw [h.mem, h.bmem, h.keyed, h.free]

theorem settled_of_quiet {s : State} (h : Quiet s) : s.settled = true := by
  simp [State.settled, h.1, h.2]

theorem beforeLoad_quiet {s : State} (h : Quiet s) (die : Nat) (l : Loc) (n : Nat) : s.beforeLoad die l n = s := by
  cases l <;> simp [State.beforeLoad, State.beforeRead, settled_of_quiet h]

theorem loadFrom_quiet {s : State} (h : Quiet s) (die size : Nat) (ps : List (Acc × Loc)) : loadFrom s die size ps = s := by
  unfold loadFrom
  induction ps with
  | nil => rfl
  | cons p ps ih => rw [List.foldl_cons, beforeLoad_quiet h, ih]

theorem loadFrom_memStep (s : State) (die size : Nat) (ps : List (Acc × Loc)) : MemStep s (loadFrom s die size ps) :=
  memStep_foldl (fun (t : State) (p : Acc × Loc) => beforeLoad_memStep t die p.2 size) ps s

theorem quiet_noteUse {s : State} (h : Quiet s) (c : Crew) (as : List Acc) : Quiet (noteUse s c as) := by
  rw [noteUse_useStep s c as]
  exact h

theorem loadNotes_memStep (x : Ctx) (s : State) (acq : Bool) (scope size k : Nat) (spots : List (Bool × Nat)) :
    MemStep s (loadNotes x s acq scope size k spots) := by
  unfold loadNotes
  split
  · exact .refl s
  · split
    · exact acquireAt_memStep ..
    · exact noteRead_memStep ..

/-! ## How old the memory is that a load reads -/

theorem pick_lt (s : State) (tag : List Nat) (n : Nat) : s.pick tag (n + 1) ≤ n := by
  unfold State.pick
  split
  · omega
  · exact Nat.le_of_lt_succ (Nat.mod_lt _ (by omega))

theorem loadAge_le (s : State) (crew size : Nat) (acq : Bool) (spots : List (Bool × Nat)) :
    (acq = true → loadAge s crew size acq spots = 0) ∧ loadAge s crew size acq spots ≤ s.staleMax crew size spots := by
  unfold loadAge
  cases acq
  · exact ⟨(fun h => by cases h), pick_lt ..⟩
  · exact ⟨fun _ => rfl, Nat.zero_le _⟩

/-! ## The words of a lane -/

theorem find?_beq (js : List Nat) (l : Nat) : js.find? (fun j => j == l) = if l ∈ js then some l else none := by
  induction js with
  | nil => rfl
  | cons j js ih =>
    rw [List.find?_cons, ih]
    by_cases hj : j = l
    · simp [hj]
    · have hb : (j == l) = false := by simpa using hj
      simp [hb, Ne.symm hj]

theorem mem_maskLanes {m : Mask} {l : Nat} : l ∈ maskLanes m ↔ l < 64 ∧ m.getLsbD l = true := by
  unfold maskLanes lanes
  rw [List.mem_filter, List.mem_range]

theorem laneWord_map (words : Nat → List Word) (m : Mask) (i : Nat) {l : Nat} (hl : l < 64) :
    laneWord ((maskLanes m).map (fun j => (j, words j))) i l = if m.getLsbD l then (words l).getD i 0#32 else 0#32 := by
  have hfind : ((maskLanes m).map (fun j => (j, words j))).find? (fun r => r.1 == l) = ((maskLanes m).find? (fun j => j == l)).map (fun j => (j, words j)) :=
    List.find?_map ..
  have hmem : l ∈ maskLanes m ↔ m.getLsbD l = true := mem_maskLanes.trans (and_iff_right hl)
  rw [laneWord, hfind, find?_beq]
  by_cases hm : m.getLsbD l = true
  · rw [if_pos (hmem.mpr hm), if_pos hm]
    rfl
  · rw [if_neg (fun h => hm (hmem.mp h)), if_neg hm]
    rfl

/-! ## The rows -/

theorem exec_load_eq_runLoad : ∀ r ∈ loadRows, (∀ f s, exec (r.instr f) s = runLoad f r.size r.signed r.o64 r.acq s) ∧ (r.size ≤ 2 ∨ r.size % 4 = 0) := by
  intro r hr
  simp only [loadRows, List.mem_cons, List.not_mem_nil, or_false] at hr
  rcases hr with rfl | rfl | rfl | rfl | rfl | rfl | rfl | rfl | rfl | rfl | rfl | rfl | rfl | rfl | rfl | rfl | rfl | rfl <;>
    exact ⟨fun f s => rfl, by decide⟩

/-- A load is an issue whose effect reads the places that its accesses reach. -/
theorem runLoad_eq_issue (f : FormM) (size : Nat) (signed o64 acq : Bool) : ∃ body,
    (∀ s, runLoad f size signed o64 acq s = issue { specM f (mSrcs f o64) [grp f.d (regsFor size)] .var true with squash := true }
      (fun _ => hndBad f || f.b ≠ 0#8 || (acq && scopeOf f == 0)) body s) ∧
    ∀ (x : Ctx) (s : State) (ps : List (Acc × Loc)),
      let as := formAcc f x s o64 (byteOffset f acq size) x.act
      checkSig s x.c as size ldSpaces (fun e => e.r) = none → meetAll s x.c as size true false true (fun s _ => s) = .ok ps →
      let die := dieOfCore x.c.core
      let s2 := loadFrom (noteUse s x.c as) die size ps
      let spots := ps.map (fun p => p.2.spot die)
      let k := loadAge s2 x.id size acq spots
      body x s = .ok { s := loadNotes x s2 acq (scopeOf f) size k spots, wr := laneWrites x (regsFor size) (loadAll (s2.ago k) die size signed ps), ctl := false } := by
  unfold runLoad
  refine ⟨_, fun s => rfl, ?_⟩
  intro x s ps as hcheck hmeet die s2 spots k
  have has : formAcc f x s o64 ((if acq = true then ofs7 f else ofs10 f) * size) x.act = as := rfl
  simp only [has, hcheck, hmeet]
  rfl

section Row

variable {r : RowLd} {f : FormM} {s : State} {c : Crew} {loc : Nat → Loc}

/-- A load whose accesses pass every check completes with the words that its lanes read. -/
theorem load_completes (hexec : ∀ f s, exec (r.instr f) s = runLoad f r.size r.signed r.o64 r.acq s)
    (hi : Issues s c (r.spec f) (fun _ => hndBad f || f.b ≠ 0#8 || (r.acq && scopeOf f == 0))) (hs : Steady s c)
    (h : ∀ a ∈ formAcc f (s.view c (r.spec f)) (s.issued c (r.spec f)) r.o64 (byteOffset f r.acq r.size) (s.view c (r.spec f)).act,
      Reaches (s.issued c (r.spec f)) (s.view c (r.spec f)).c a r.size ldSpaces (fun e => e.r) true false true (loc a.l)) :
    let sp := r.spec f
    let x := s.view c sp
    let s1 := s.issued c sp
    let as := formAcc f x s1 r.o64 (byteOffset f r.acq r.size) x.act
    let die := dieOfCore x.c.core
    let ps := as.map (fun a => (a, loc a.l))
    let spots := as.map (fun a => (loc a.l).spot die)
    let s2 := loadFrom (noteUse s1 x.c as) die r.size ps
    let k := loadAge s2 c.id r.size r.acq spots
    Answers (exec (r.instr f) s) (fun t => Completed s (loadNotes x s2 r.acq (scopeOf f) r.size k spots) t (s.issuing c sp) sp
      (laneWrites x (regsFor r.size) (loadAll (s2.ago k) die r.size r.signed ps))) := by
  intro sp x s1 as die ps spots s2 k
  have hcheck : checkSig s1 x.c as r.size ldSpaces (fun e => e.r) = none := checkSig_eq_none (fun a ha => va_eq_of_mem ha) h
  have hmeet : meetAll s1 x.c as r.size true false true (fun s _ => s) = .ok ps := meetAll_eq_ok h _
  have hframe : MemStep (noteUse s1 x.c as) (loadNotes x s2 r.acq (scopeOf f) r.size k spots) :=
    (loadFrom_memStep ..).trans (loadNotes_memStep ..)
  have hspots : ps.map (fun p => p.2.spot die) = spots := List.map_map ..
  obtain ⟨body, hissue, hbody⟩ := runLoad_eq_issue f r.size r.signed r.o64 r.acq
  have hbody := hbody x s1 ps hcheck hmeet
  dsimp only at hbody
  rw [hspots] at hbody
  rw [hexec, hissue]
  exact effect_completes (sp := sp) hi hs hbody (hframe.crews.trans (by rw [noteUse_useStep])) (hframe.cycle.trans (by rw [noteUse_useStep]; rfl))

/-- The words that the lanes of `act` receive. -/
theorem laneWord_loadAll (s : State) (die size : Nat) (signed : Bool) (x : Ctx) (t : State) (o64 : Bool) (units : Int) (loc : Nat → Loc) {i l : Nat}
    (hl : l < 64) (hi : i < regsFor size) (hsize : size ≤ 2 ∨ size % 4 = 0) :
    laneWord (loadAll s die size signed ((formAcc f x t o64 units x.act).map (fun a => (a, loc a.l)))) i l =
      if x.act.getLsbD l then loadedWord size signed (s.load die (loc l) size) i else 0#32 := by
  have hall : loadAll s die size signed ((formAcc f x t o64 units x.act).map (fun a => (a, loc a.l))) =
      (maskLanes x.act).map (fun j => (j, ldWords size signed (s.load die (loc j) size))) := by
    rw [loadAll, formAcc_eq_map, List.map_map, List.map_map]
    rfl
  rw [hall, laneWord_map _ _ _ hl, ldWords_getD signed _ hi hsize]

end Row

/-- Settles O17. -/
theorem loadResults : Obligations.LoadResults := by
  intro r hr f s c loc sp x s1 as die reg hi hs h ps spots s2 k
  obtain ⟨hexec, hsize⟩ := exec_load_eq_runLoad r hr
  have hload := load_completes hexec hi hs h
  refine ⟨hload, fun hq => ⟨k, (loadAge_le ..).1, ?_, ?_⟩⟩
  · have hstale : (noteUse s1 x.c as).staleMax c.id r.size spots = s.staleMax c.id r.size spots := by
      rw [noteUse_useStep s1 x.c as]
      rfl
    have hs2 : s2 = noteUse s1 x.c as := loadFrom_quiet (quiet_noteUse (s := s1) hq ..) ..
    rw [← hstale, ← hs2]
    exact (loadAge_le ..).2
  · have hs2 : s2 = noteUse s1 x.c as := loadFrom_quiet (quiet_noteUse (s := s1) hq ..) ..
    have hopening : SameMemory s.opening s1 := ⟨rfl, rfl, rfl, rfl, rfl⟩
    have hmem : ∀ l, (s2.ago k).load die (loc l) r.size = (s.opening.ago k).load die (loc l) r.size := fun l => by
      rw [hs2, ((sameMemory_noteUse ..).ago k).load, (hopening.ago k).load]
    have hwrites : laneWrites x (regsFor r.size) (loadAll (s2.ago k) die r.size r.signed ps) =
        (List.range (regsFor r.size)).map (fun i => Wr.full (reg i) x.act (fun l =>
          if x.act.getLsbD l then loadedWord r.size r.signed ((s.opening.ago k).load die (loc l) r.size) i else 0#32)) := by
      refine List.map_congr_left fun i hi => full_congr _ _ fun l hl => ?_
      rw [laneWord_loadAll _ _ _ _ _ _ _ _ _ hl (List.mem_range.mp hi) hsize, hmem]
    rw [← hwrites, ← hs2]
    exact hload

end Sys2Proof.Proofs.LoadRows
end

