-- ==== Sys2Proof/Proofs/StoreRows.lean ====
section
/-!
PROOF. Proofs/StoreRows.lean: the stores, and which bytes of memory they leave as they were (08 R163 to R165; 11 R235, R236, R241).
-/

namespace Sys2Proof.Proofs.StoreRows

open Sys2Proof Sys2Proof.Machine Sys2Proof.Claims Sys2Proof.Proofs.IssueRules Sys2Proof.Proofs.AccessRules Sys2Proof.Proofs.MemoryFrames
open Sys2Proof.Proofs.LoadRows

/-! ## Bytes that a write leaves as they were -/

theorem get_set_of_ne (m : Memory) {a x : Nat} (v : Byte) (h : x ≠ a) : (m.set a v).get x = m.get x := by
  induction m with
  | nil =>
    rw [Memory.set]
    split
    · rfl
    · simp [Memory.get, h.symm]
  | cons p m ih =>
    obtain ⟨k, b⟩ := p
    rw [Memory.set]
    split
    · split
      · rfl
      · rw [Memory.get, if_neg h.symm]
    · split
      · next hk =>
        subst hk
        split <;> simp [Memory.get, h.symm]
      · rw [Memory.get, Memory.get, ih]

theorem get_write_outside (m : Memory) (a : Nat) (bs : List Byte) {x : Nat} (h : ∀ i < bs.length, x ≠ a + i) : (m.write a bs).get x = m.get x := by
  induction bs generalizing m a with
  | nil => rfl
  | cons b bs ih =>
    rw [Memory.write, ih _ _ fun i hi => by have := h (i + 1) (by simpa using hi); omega, get_set_of_ne]
    exact h 0 (by simp)

/-! ## Writes confined to some bytes -/

/-- State `q` differs from `s` in memory within some bytes alone, and every write on its way goes to such bytes. -/
structure Confined (A B : Nat → Prop) (s q : State) : Prop where
  mem : ∀ x, ¬ A x → q.mem.get x = s.mem.get x
  bmem : ∀ x, ¬ B x → q.bmem.get x = s.bmem.get x
  arriving : ∀ w ∈ q.arriving, ∀ i < w.bytes.length, A (w.pa + i)
  replicas : ∀ r ∈ q.replicas, ∀ i < r.bytes.length, A (r.pa + i)

section Steps

variable {A B : Nat → Prop} {s q : State}

theorem Confined.of_quiet (h : Quiet s) : Confined A B s s :=
  ⟨fun _ _ => rfl, fun _ _ => rfl, by simp [h.1], by simp [h.2]⟩

theorem Confined.congr {q' : State} (h : Confined A B s q) (hmem : q'.mem = q.mem) (hbmem : q'.bmem = q.bmem) (harr : q'.arriving = q.arriving)
    (hrep : q'.replicas = q.replicas) : Confined A B s q' := by
  obtain ⟨h1, h2, h3, h4⟩ := h
  exact ⟨by rwa [hmem], by rwa [hbmem], by rwa [harr], by rwa [hrep]⟩

theorem Confined.foldl {α : Type} {f : State → α → State} (as : List α) (hf : ∀ q a, a ∈ as → Confined A B s q → Confined A B s (f q a))
    (h : Confined A B s q) : Confined A B s (as.foldl f q) := by
  induction as generalizing q with
  | nil => exact h
  | cons a as ih =>
    exact ih (fun q b hb => hf q b (List.mem_cons_of_mem _ hb)) (hf q a List.mem_cons_self h)

theorem markKeys_frame (s : State) (pa n key : Nat) : s.markKeys pa n key = { s with keyed := (s.markKeys pa n key).keyed } := by
  unfold State.markKeys
  split <;> rfl

theorem Confined.putKey (h : Confined A B s q) {pa key : Nat} {bs : List Byte} (hA : ∀ i < bs.length, A (pa + i)) : Confined A B s (q.putKey pa key bs) := by
  refine Confined.congr (q := { q with mem := q.mem.write pa bs }) ?_ ?_ ?_ ?_ ?_
  · exact ⟨fun x hx => (get_write_outside _ _ _ fun i hi hxi => hx (by rw [hxi]; exact hA i hi)).trans (h.mem x hx), h.bmem, h.arriving, h.replicas⟩
  all_goals rw [State.putKey, markKeys_frame]
  all_goals rfl

theorem Confined.writeKey (h : Confined A B s q) {pa key : Nat} {bs : List Byte} (hA : ∀ i < bs.length, A (pa + i)) : Confined A B s (q.writeKey pa key bs) := by
  unfold State.writeKey
  split
  · exact h.putKey hA
  · refine h.foldl _ fun q p hp hq => ?_
    have hlt : p.2 < bs.length := List.mem_range.mp (List.of_mem_zip hp).2
    split
    · exact hq
    · refine hq.putKey fun i hi => ?_
      have : i = 0 := by simpa using hi
      rw [this]
      exact hA p.2 hlt

theorem Confined.applyArriving (h : Confined A B s q) {w : Arriving} (hA : ∀ i < w.bytes.length, A (w.pa + i)) : Confined A B s (q.applyArriving w) := by
  refine (h.writeKey hA (key := w.key)).congr ?_ ?_ ?_ ?_ <;>
    · unfold State.applyArriving
      dsimp only
      split <;> rfl

theorem Confined.applyReplica (h : Confined A B s q) {r : Replica} (hA : ∀ i < r.bytes.length, A (r.pa + i)) : Confined A B s (q.applyReplica r) :=
  (h.writeKey hA (key := r.key)).congr rfl rfl rfl rfl

theorem Confined.drainArriving (h : Confined A B s q) (p : Arriving → Bool) : Confined A B s (q.drainArriving p) :=
  Confined.foldl _ (fun _ w hw hq => hq.applyArriving (h.arriving w (List.mem_of_mem_filter hw)))
    ⟨h.mem, h.bmem, fun w hw => h.arriving w (List.mem_of_mem_filter hw), h.replicas⟩

theorem Confined.drainReplicas (h : Confined A B s q) (p : Replica → Bool) : Confined A B s (q.drainReplicas p) :=
  Confined.foldl _ (fun _ r hr hq => hq.applyReplica (h.replicas r (List.mem_of_mem_filter hr)))
    ⟨h.mem, h.bmem, h.arriving, fun w hw => h.replicas w (List.mem_of_mem_filter hw)⟩

theorem Confined.release (h : Confined A B s q) : Confined A B s q.release :=
  ((h.drainArriving _).drainReplicas _).congr rfl rfl rfl rfl

theorem Confined.releaseAt (h : Confined A B s q) (scope : Nat) (c : Crew) : Confined A B s (q.releaseAt scope c) := by
  unfold State.releaseAt State.releaseNear
  split
  · exact h.release
  · split <;> exact h.congr rfl rfl rfl rfl

theorem Confined.reach (h : Confined A B s q) (src dst : Nat) : Confined A B s (q.reach src dst) := by
  unfold State.reach
  split
  · exact h
  · exact ((h.drainArriving _).drainReplicas _).congr rfl rfl rfl rfl

/-- A store of a die writes where its place says. -/
theorem Confined.store (h : Confined A B s q) {die : Nat} {l : Loc} {bs : List Byte} (hA : ∀ p ∈ Loc.writesPa l, ∀ i < bs.length, A (p + i))
    (hB : ∀ p, Loc.writesBlk l = some p → ∀ i < bs.length, B (p + i)) (hhome : ∀ a home key, l = .repl a home key → home < 4) : Confined A B s (q.store die l bs) := by
  cases l with
  | blk core off =>
    exact ⟨h.mem, fun x hx => (get_write_outside _ _ _ fun i hi hxi => hx (by rw [hxi]; exact hB _ rfl i hi)).trans (h.bmem x hx), h.arriving, h.replicas⟩
  | pa a key =>
    have ha := hA a (List.mem_singleton_self a)
    unfold State.store
    dsimp only
    split
    · exact (h.reach ..).writeKey ha
    · refine ⟨h.mem, h.bmem, fun w hw => ?_, h.replicas⟩
      rcases List.mem_append.mp hw with hw | hw
      · exact h.arriving w hw
      · rw [List.mem_singleton.mp hw]
        exact ha
  | repl a home key =>
    have hrep : ∀ d < 4, ∀ i < bs.length, A (replicaPa a d + i) := fun d hd => hA _ (List.mem_map_of_mem (List.mem_range.mpr hd))
    have hwrite : Confined A B s ((q.reach die home).writeKey (replicaPa a home) key bs) := (h.reach ..).writeKey (hrep home (hhome a home key rfl))
    refine ⟨hwrite.mem, hwrite.bmem, hwrite.arriving, fun r hr => ?_⟩
    rcases List.mem_append.mp hr with hr | hr
    · exact hwrite.replicas r hr
    · obtain ⟨d, hd, rfl⟩ := List.mem_map.mp hr
      exact hrep d (List.mem_range.mp (List.mem_filter.mp hd).1)

end Steps

/-- The home that a replicated page's entry names is a die. -/
theorem home_lt_of_place {s : State} {asid va tag a home key : Nat} {nd : Need} (h : s.place asid va nd tag = .ok (.repl a home key)) : home < 4 := by
  unfold State.place at h
  split at h
  · cases h
  · cases h
  · cases h
  · cases h
  · dsimp only at h
    split at h
    · cases h
    · split at h
      · cases h
        exact Nat.mod_lt _ (by decide)
      · cases h

theorem home_lt_of_crewPlace {s : State} {c : Crew} {e : HandleEntry} {off tag a home key : Nat} {r w : Bool}
    (h : s.crewPlace c e off r w tag = .ok (.repl a home key)) : home < 4 := by
  unfold State.crewPlace at h
  split at h
  · cases h
  · dsimp only at h
    split at h
    · exact home_lt_of_place h
    · cases h

/-! ## The rows -/

theorem exec_store_eq_runStore : ∀ r ∈ storeRows, ∀ f s, exec (r.instr f) s = runStore f r.size r.o64 r.rel s := by
  intro r hr
  simp only [storeRows, List.mem_cons, List.not_mem_nil, or_false] at hr
  rcases hr with rfl | rfl | rfl | rfl | rfl | rfl | rfl | rfl | rfl | rfl | rfl | rfl | rfl | rfl <;> exact fun f s => rfl

/-- An effect that leaves the crews alone, with sources that may be read late. -/
theorem lateEffect_completes {s m : State} {c : Crew} {sp : Spec} {bad : Crew → Bool} {body : Ctx → State → Res Done} {wr : List Wr} {late : Option Late}
    (hi : Issues s c sp bad) (hs : Steady s c) (hb : body (s.view c sp) (s.issued c sp) = .ok { s := m, wr := wr, ctl := false, late := late })
    (hm : m.crews = (s.issued c sp).crews) (hcyc : m.cycle = s.cycle) :
    Answers (issue sp bad body s) (fun t => Completed s m t (s.issuing c sp) sp wr) := by
  refine ⟨_, issue_ok hi hb, issueEnd_completed (d := { s := m, wr := wr, ctl := false, late := late }) hi.crew ?_ (issuing_id ..) rfl hcyc ?_ ?_⟩
  · rw [hm, issued_crews]
  · rw [issuing_st]
    exact hs.1
  · rw [issuing_st, issuing_depth]
    exact hs.2

theorem stBytes_rows (x : Ctx) (s : State) (c : Crew) (sp : Spec) (f : FormM) (size l : Nat) :
    stBytes size (x.rows (s.issued c sp) f.b (regsFor size)) l = storedBytes x s.opening f size l := by
  unfold stBytes storedBytes Ctx.rows
  split
  · rw [List.flatMap_singleton]
    rfl
  · rw [List.flatMap_map]
    rfl

/-- A store is an issue whose effect writes the places that its accesses reach. -/
theorem runStore_eq_issue (f : FormM) (size : Nat) (o64 rel : Bool) : ∃ body,
    (∀ s, runStore f size o64 rel s = issue (specM f (mSrcs f o64 ++ [grp f.b (regsFor size)]) [] .none true)
      (fun _ => hndBad f || f.d ≠ 0#8 || (rel && scopeOf f == 0)) body s) ∧
    ∀ (x : Ctx) (s : State) (ps : List (Acc × Loc)),
      let as := formAcc f x s o64 (byteOffset f rel size) x.act
      checkSig s x.c as size stSpaces (fun e => e.w) = none → (∀ part, meetAll s x.c as size false true false part = .ok ps) →
      let s2 := if rel ∧ x.act ≠ 0#64 then s.releaseAt (scopeOf f) x.c else s
      ∃ late, body x s = .ok { s := noteLanes (storeAll (noteUse s2 x.c as) (dieOfCore x.c.core) size (x.rows s f.b (regsFor size)) ps) x.c size ps, wr := [], ctl := false, late := late } := by
  unfold runStore
  refine ⟨_, fun s => rfl, ?_⟩
  intro x s ps as hcheck hmeet s2
  have has : formAcc f x s o64 ((if rel = true then ofs7 f else ofs10 f) * size) x.act = as := rfl
  have hs2 : (if (rel && decide (x.act ≠ 0#64)) = true then s.releaseAt (scopeOf f) x.c else s) = s2 := by simp [s2]
  simp only [has, hcheck, hmeet, hs2]
  exact ⟨_, rfl⟩

/-- The bytes of physical memory at which stores to some places write. -/
def StorePa (size : Nat) (locs : List Loc) (x : Nat) : Prop := ∃ l ∈ locs, ∃ p ∈ Loc.writesPa l, p ≤ x ∧ x < p + size
/-- The bytes of block memory at which stores to some places write. -/
def StoreBlk (size : Nat) (locs : List Loc) (x : Nat) : Prop := ∃ l ∈ locs, ∃ p, Loc.writesBlk l = some p ∧ p ≤ x ∧ x < p + size

theorem onlyStores_of_confined {s t : State} {size : Nat} {locs : List Loc} (h : Confined (StorePa size locs) (StoreBlk size locs) s t) : OnlyStores s t size locs :=
  ⟨fun x hx => h.mem x fun ⟨l, hl, p, hp, hin⟩ => hx l hl p hp hin, fun x hx => h.bmem x fun ⟨l, hl, p, hp, hin⟩ => hx l hl p hp hin⟩

theorem view_c_id (s : State) (c : Crew) (sp : Spec) : (s.view c sp).c.id = c.id := by
  rw [view_c_frame]

section Row

variable {f : FormM} {s q : State} {c : Crew} {loc : Nat → Loc} {as : List Acc} {size : Nat} {bytes : Nat → List Byte}

/-- Lanes that store at the places they reach write there alone. -/
theorem confined_stores (die : Nat) (h : Confined (StorePa size (as.map (fun a => loc a.l))) (StoreBlk size (as.map (fun a => loc a.l))) s q)
    (hlen : ∀ l, (bytes l).length ≤ size) (hhome : ∀ a ∈ as, ∀ b home key, loc a.l = .repl b home key → home < 4) :
    Confined (StorePa size (as.map (fun a => loc a.l))) (StoreBlk size (as.map (fun a => loc a.l))) s
      (as.foldl (fun q a => q.store die (loc a.l) (bytes a.l)) q) := by
  refine h.foldl as fun q a ha hq => ?_
  have hmem : loc a.l ∈ as.map (fun a => loc a.l) := List.mem_map_of_mem ha
  have hlt : ∀ i < (bytes a.l).length, i < size := fun i hi => lt_of_lt_of_le hi (hlen a.l)
  exact hq.store (fun p hp i hi => ⟨_, hmem, p, hp, by omega, by have := hlt i hi; omega⟩)
    (fun p hp i hi => ⟨_, hmem, p, hp, by omega, by have := hlt i hi; omega⟩) (hhome a ha)

theorem stores_memStep (die : Nat) (as : List Acc) (q : State) : MemStep q (as.foldl (fun q a => q.store die (loc a.l) (bytes a.l)) q) :=
  memStep_foldl (fun (q : State) (a : Acc) => store_memStep q die (loc a.l) (bytes a.l)) as q

theorem confined_noteUse {A B : Nat → Prop} (h : Confined A B s q) (c : Crew) (as : List Acc) : Confined A B s (noteUse q c as) := by
  refine h.congr ?_ ?_ ?_ ?_ <;> rw [noteUse_useStep q c as]

end Row

theorem storeRows_hold : ∀ r ∈ storeRows, r.Holds := by
  intro r hr f s c loc sp x s1 as die hi hs h s2 s3
  have hcheck : checkSig s1 x.c as r.size stSpaces (fun e => e.w) = none := checkSig_eq_none (fun a ha => va_eq_of_mem ha) h
  obtain ⟨body, hissue, hbody⟩ := runStore_eq_issue f r.size r.o64 r.rel
  obtain ⟨late, hbody⟩ := hbody x s1 (as.map (fun a => (a, loc a.l))) hcheck (fun part => meetAll_eq_ok h part)
  have hstate : noteLanes (storeAll (noteUse s2 x.c as) die r.size (x.rows s1 f.b (regsFor r.size)) (as.map (fun a => (a, loc a.l)))) x.c r.size
      (as.map (fun a => (a, loc a.l))) = s3.noteWrote c.id r.size (as.map (fun a => (loc a.l).spot die)) := by
    unfold noteLanes storeAll
    rw [List.foldl_map, List.map_map, view_c_id]
    simp only [x, s1, stBytes_rows]
    rfl
  have hquiet : Quiet s → Confined (StorePa r.size (as.map (fun a => loc a.l))) (StoreBlk r.size (as.map (fun a => loc a.l))) s s3 := fun hq => by
    refine confined_stores die (confined_noteUse ?_ _ _) (fun l => List.length_take_le ..) fun a ha b home key hl => ?_
    · have hs1 : Confined (StorePa r.size (as.map (fun a => loc a.l))) (StoreBlk r.size (as.map (fun a => loc a.l))) s s1 :=
        (Confined.of_quiet hq).congr rfl rfl rfl rfl
      show Confined _ _ s (if r.rel ∧ x.act ≠ 0#64 then s1.releaseAt (scopeOf f) x.c else s1)
      split
      · exact hs1.releaseAt ..
      · exact hs1
    · exact home_lt_of_crewPlace (hl ▸ (h a ha).place)
  have hframe : s3.crews = s1.crews ∧ s3.cycle = s1.cycle := by
    have hstores := stores_memStep (loc := loc) (bytes := storedBytes x s.opening f r.size) die as (noteUse s2 x.c as)
    have huse := noteUse_useStep s2 x.c as
    have hrel : MemStep s1 s2 := by
      show MemStep s1 (if r.rel ∧ x.act ≠ 0#64 then s1.releaseAt (scopeOf f) x.c else s1)
      split
      · exact releaseAt_memStep ..
      · exact .refl _
    exact ⟨hstores.crews.trans (huse.crews.trans hrel.crews), hstores.cycle.trans (huse.cycle.trans hrel.cycle)⟩
  rw [exec_store_eq_runStore r hr, hissue]
  rw [hstate] at hbody
  obtain ⟨t, ht, hdone⟩ := lateEffect_completes (sp := sp) hi hs hbody hframe.1 hframe.2
  refine ⟨t, ht, hdone, fun hq => ?_⟩
  obtain ⟨c', rfl, -⟩ := hdone
  exact onlyStores_of_confined ((hquiet hq).congr rfl rfl rfl rfl)

/-! ## stmask -/

theorem noteWrote_nil (s : State) (crew n : Nat) : s.noteWrote crew n [] = s := by
  have hid : s.views.map (fun v => if v.crew = crew then { v with wrote := [] ++ v.wrote } else v) = s.views := by
    refine (List.map_congr_left fun v _ => ?_).trans (List.map_id' _)
    split <;> rfl
  simp only [State.noteWrote, List.map_nil, hid]

theorem exec_stmask_eq_runStmask (f : FormM) (o64 : Bool) (s : State) : exec (if o64 then .stmaskO64 f else .stmask f) s = runStmask f o64 s := by
  cases o64 <;> rfl

/-- A stmask is an issue whose effect writes the mask at the place that its access reaches. -/
theorem runStmask_eq_issue (f : FormM) (o64 : Bool) : ∃ body,
    (∀ s, runStmask f o64 s = issue (specM f (mSrcs f o64 ++ [one f.b]) [] .none true) (fun _ => hndBad f || f.d.toNat / 32 ≠ 0) body s) ∧
    ∀ (x : Ctx) (s : State) (as : List Acc) (ps : List (Acc × Loc)), formAcc f x s o64 (ofs10 f * 8) x.m0 = as →
      checkSig s x.c as 8 stSpaces (fun e => e.w) = none → (∀ part, meetAll s x.c as 8 false true false part = .ok ps) →
      ∃ late, body x s = .ok { s := noteLanes (ps.foldl (fun q p => q.store (dieOfCore x.c.core) p.2 (leBytes 8 (mkMask (fun l => x.act.getLsbD l &&
        (rowAt (x.row s f.b.toNat) l).getLsbD (f.d.toNat % 32))).toNat)) (noteUse s x.c as)) x.c 8 ps, wr := [], ctl := false, late := late } := by
  unfold runStmask
  refine ⟨_, fun s => rfl, fun x s as ps has hcheck hmeet => ?_⟩
  simp only [has, hcheck, hmeet]
  exact ⟨_, rfl⟩

theorem leBytes_length (n v : Nat) : (leBytes n v).length = n := by
  induction n generalizing v with
  | zero => rfl
  | succ n ih => rw [leBytes, List.length_cons, ih]

theorem storeMaskResults : StoreMaskResults := by
  intro f o64 s c loc sp i x s1 hi hs
  obtain ⟨body, hissue, hbody⟩ := runStmask_eq_issue f o64
  rw [show exec i s = _ from exec_stmask_eq_runStmask f o64 s, hissue]
  refine ⟨fun hact => ?_, fun hact a has hreach => ?_⟩
  · have hm0 : x.m0 = 0#64 := if_pos hact
    have hnil : formAcc f x s1 o64 (ofs10 f * 8) x.m0 = [] := by
      rw [hm0, formAcc_eq_map]
      rfl
    obtain ⟨late, hbody⟩ := hbody x s1 [] [] hnil rfl (fun _ => rfl)
    exact lateEffect_completes (m := s1) (sp := sp) hi hs (hbody.trans (by rw [noteLanes, List.map_nil, noteWrote_nil]; rfl)) rfl rfl
  · have hm0 : x.m0 = 1#64 <<< x.l0 := if_neg hact
    rw [← hm0] at has
    have hall : ∀ b ∈ [a], Reaches s1 x.c b 8 stSpaces (fun e => e.w) false true false ((fun _ => loc) b.l) := fun b hb => by
      rw [List.mem_singleton.mp hb]
      exact hreach
    have hva : ∀ b ∈ [a], b.va = (b.e.base + b.off) % 2 ^ 64 := fun b hb => va_eq_of_mem (has ▸ hb)
    obtain ⟨late, hbody⟩ := hbody x s1 [a] [(a, loc)] has (checkSig_eq_none (loc := fun _ => loc) hva hall) (fun part => meetAll_eq_ok (loc := fun _ => loc) hall part)
    have hbytes : ∀ v, (leBytes 8 v).length ≤ 8 := fun v => (leBytes_length 8 v).le
    have hstep : MemStep (noteUse s1 x.c [a]) ((noteUse s1 x.c [a]).store (dieOfCore x.c.core) loc (leBytes 8 (predicateMask x s.opening f).toNat)) :=
      store_memStep ..
    have huse := noteUse_useStep s1 x.c [a]
    have hstate : noteLanes ((noteUse s1 x.c [a]).store (dieOfCore x.c.core) loc (leBytes 8 (mkMask (fun l => x.act.getLsbD l &&
        (rowAt (x.row s1 f.b.toNat) l).getLsbD (f.d.toNat % 32))).toNat)) x.c 8 [(a, loc)] =
        ((noteUse s1 x.c [a]).store (dieOfCore x.c.core) loc (leBytes 8 (predicateMask x s.opening f).toNat)).noteWrote c.id 8 [loc.spot (dieOfCore x.c.core)] := by
      rw [noteLanes, view_c_id]
      rfl
    rw [List.foldl_cons, List.foldl_nil, hstate] at hbody
    obtain ⟨t, ht, hdone⟩ := lateEffect_completes (sp := sp) hi hs hbody (hstep.crews.trans huse.crews)
      (hstep.cycle.trans huse.cycle)
    refine ⟨t, ht, hdone, fun hq => ?_⟩
    have hs1 : Confined (StorePa 8 [loc]) (StoreBlk 8 [loc]) s s1 := (Confined.of_quiet hq).congr rfl rfl rfl rfl
    have hconf : Confined (StorePa 8 [loc]) (StoreBlk 8 [loc]) s ((noteUse s1 x.c [a]).store (dieOfCore x.c.core) loc (leBytes 8 (predicateMask x s.opening f).toNat)) :=
      confined_stores (as := [a]) (loc := fun _ => loc) (bytes := fun _ => leBytes 8 (predicateMask x s.opening f).toNat) _
        (confined_noteUse hs1 _ _) (fun _ => hbytes _) (fun b hb p home key hl => home_lt_of_crewPlace (hl ▸ (hall b hb).place))
    obtain ⟨c', rfl, -⟩ := hdone
    exact onlyStores_of_confined (hconf.congr rfl rfl rfl rfl)

/-- Settles O18. -/
theorem storeResults : Obligations.StoreResults := ⟨storeRows_hold, storeMaskResults⟩

end Sys2Proof.Proofs.StoreRows
end

