-- ==== Sys2Proof/Proofs/StoreThenLoad.lean ====
section
/-!
PROOF. Proofs/StoreThenLoad.lean: a store to the descriptor of a sealed context is ignored (24 R431), so that a load does not find its bytes.
-/

namespace Sys2Proof.Proofs.StoreThenLoad

open Sys2Proof Sys2Proof.Machine

/-- The machine after reset with one key-domain, sealed for context 1, whose descriptor stands at address 64. -/
def sealedContext : State := { State.reset with kds := [{ st := 2, key := 0, ctx := 1, ranges := [], cm := [] }] }

theorem sealedEntry_sealedContext : sealedContext.sealedEntry 64 = true := by decide

/-- Refutes O19: the byte stored at address 64 is not there afterwards, for the address lies in the descriptor of a sealed context. -/
theorem not_storeThenLoad : ¬ Obligations.StoreThenLoad := by
  intro h
  obtain ⟨-, hread, -⟩ := h sealedContext 0 [1#8] rfl rfl List.Pairwise.nil
  exact absurd (hread 64 0 (.inl (by decide))) (by decide)

end Sys2Proof.Proofs.StoreThenLoad
end

