-- ==== Sys2Proof/Proofs/AtomicRows.lean ====
section
/-!
PROOF. Proofs/AtomicRows.lean: the atomics and the bank operations (08 R170, R171, R173).
-/

namespace Sys2Proof.Proofs.AtomicRows

open Sys2Proof Sys2Proof.Machine Sys2Proof.Claims Sys2Proof.Proofs.IssueRules Sys2Proof.Proofs.AccessRules Sys2Proof.Proofs.MemoryFrames
open Sys2Proof.Proofs.LoadRows Sys2Proof.Proofs.StoreRows

/-! ## The operations -/

theorem rmwWord_eq {g : Word → Word → Word} {h : Nat → Nat → Nat} (heq : ∀ m b, (g (BitVec.ofNat 32 m) (BitVec.ofNat 32 b)).toNat = h m b) :
    rmwWord g = fun m b => some (h m b) :=
  funext fun m => funext fun b => congrArg some (heq m b)

theorem toNat_ite (p q : Prop) [Decidable p] [Decidable q] (h : p ↔ q) (a b : Nat) :
    (if p then BitVec.ofNat 32 a else BitVec.ofNat 32 b).toNat = if q then a % 2 ^ 32 else b % 2 ^ 32 := by
  by_cases hq : q
  · rw [if_pos (h.mpr hq), if_pos hq]
    exact BitVec.toNat_ofNat ..
  · rw [if_neg (fun hp => hq (h.mp hp)), if_neg hq]
    exact BitVec.toNat_ofNat ..

theorem below32_iff (m b : Nat) : (BitVec.ofNat 32 m).toInt ≤ (BitVec.ofNat 32 b).toInt ↔ below32 m b = true := by
  rw [below32, decide_eq_true_eq]

theorem toNat_le_iff (m b : Nat) : (BitVec.ofNat 32 m).toNat ≤ (BitVec.ofNat 32 b).toNat ↔ m % 2 ^ 32 ≤ b % 2 ^ 32 := by
  rw [BitVec.toNat_ofNat, BitVec.toNat_ofNat]

/-- Each atomic is a read-modify-write with the operation of its row. -/
theorem exec_atom_eq_runAtom : ∀ r ∈ atomRows, ∃ op : RmwOp, op.fn 0 = r.op ∧ (r.size = 4 ∨ r.size = 8) ∧ ∀ f s, exec (r.instr f) s = runAtom f r.size r.nb op s := by
  intro r hr
  simp only [atomRows, List.mem_cons, List.not_mem_nil, or_false] at hr
  rcases hr with rfl | rfl | rfl | rfl | rfl | rfl | rfl | rfl | rfl | rfl | rfl | rfl | rfl | rfl | rfl
  · exact ⟨.addI32, rmwWord_eq fun m b => by rw [BitVec.toNat_add, BitVec.toNat_ofNat, BitVec.toNat_ofNat, ← Nat.add_mod], .inl rfl, fun f s => rfl⟩
  · exact ⟨.addF32, rfl, .inl rfl, fun f s => rfl⟩
  · exact ⟨.minI32, rmwWord_eq fun m b => toNat_ite _ _ (below32_iff m b) m b, .inl rfl, fun f s => rfl⟩
  · exact ⟨.maxI32, rmwWord_eq fun m b => toNat_ite _ _ (below32_iff m b) b m, .inl rfl, fun f s => rfl⟩
  · exact ⟨.minN32, rmwWord_eq fun m b => (toNat_ite _ _ (toNat_le_iff m b) m b).trans Nat.min_def.symm, .inl rfl, fun f s => rfl⟩
  · exact ⟨.maxN32, rmwWord_eq fun m b => (toNat_ite _ _ (toNat_le_iff m b) b m).trans Nat.max_def.symm, .inl rfl, fun f s => rfl⟩
  · exact ⟨.and32, rmwWord_eq fun m b => by rw [BitVec.toNat_and, BitVec.toNat_ofNat, BitVec.toNat_ofNat], .inl rfl, fun f s => rfl⟩
  · exact ⟨.or32, rmwWord_eq fun m b => by rw [BitVec.toNat_or, BitVec.toNat_ofNat, BitVec.toNat_ofNat], .inl rfl, fun f s => rfl⟩
  · exact ⟨.xor32, rmwWord_eq fun m b => by rw [BitVec.toNat_xor, BitVec.toNat_ofNat, BitVec.toNat_ofNat], .inl rfl, fun f s => rfl⟩
  · exact ⟨.exch32, rfl, .inl rfl, fun f s => rfl⟩
  · exact ⟨.cas32, rfl, .inl rfl, fun f s => rfl⟩
  · exact ⟨.addI64, rfl, .inr rfl, fun f s => rfl⟩
  · exact ⟨.exch64, rfl, .inr rfl, fun f s => rfl⟩
  · exact ⟨.cas64, rfl, .inr rfl, fun f s => rfl⟩
  · exact ⟨.addBf16x2, rfl, .inl rfl, fun f s => rfl⟩

theorem exec_bankop_eq_runBankop : ∀ r ∈ bankRows, ∃ op : RmwOp, op.fn 0 = r.op ∧ ∀ f s, exec (r.instr f) s = runBankop f op s := by
  intro r hr
  simp only [bankRows, List.mem_cons, List.not_mem_nil, or_false] at hr
  rcases hr with rfl | rfl | rfl | rfl | rfl
  · exact ⟨.addI32, rmwWord_eq fun m b => by rw [BitVec.toNat_add, BitVec.toNat_ofNat, BitVec.toNat_ofNat, ← Nat.add_mod], fun f s => rfl⟩
  · exact ⟨.addF32, rfl, fun f s => rfl⟩
  · exact ⟨.minF32, rfl, fun f s => rfl⟩
  · exact ⟨.maxF32, rfl, fun f s => rfl⟩
  · exact ⟨.mulF32, rfl, fun f s => rfl⟩

/-! ## The lanes -/

theorem rmwAll_eq_atomLanes (op : Rmw) (size die : Nat) (data : Nat → Nat) (loc : Nat → Loc) (as : List Acc) (s : State) :
    rmwAll op size die data s (as.map (fun a => (a, loc a.l))) = atomLanes op size die loc data (as.map (fun a => a.l)) s := by
  induction as generalizing s with
  | nil => rfl
  | cons a as ih =>
    have hstep : rmwLane op size s die (loc a.l) (data a.l) = atomStep op size die (loc a.l) (data a.l) s := by
      unfold rmwLane atomStep
      dsimp only
      split <;> simp_all
    simp only [List.map_cons, rmwAll, atomLanes, hstep, ih]

theorem beforeRmw_memStep (s : State) (die : Nat) (l : Loc) : MemStep s (s.beforeRmw die l) := by
  cases l with
  | blk core off => exact .refl s
  | pa a key => exact (reach_memStep ..).trans (reach_memStep ..)
  | repl a home key => exact (reach_memStep ..).trans (reach_memStep ..)

theorem rmwWrite_memStep (s : State) (die : Nat) (l : Loc) (bs : List Byte) : MemStep s (s.rmwWrite die l bs) := by
  cases l with
  | blk core off => exact store_memStep s die (.blk core off) bs
  | pa a key => exact writeKey_memStep ..
  | repl a home key => exact store_memStep s die (.repl a home key) bs

theorem atomStep_memStep (op : Nat → Nat → Option Nat) (size die : Nat) (l : Loc) (data : Nat) (s : State) : MemStep s (atomStep op size die l data s).1 := by
  unfold atomStep
  dsimp only
  split
  · exact (beforeRmw_memStep ..).trans (rmwWrite_memStep ..)
  · exact beforeRmw_memStep ..

theorem atomLanes_memStep (op : Nat → Nat → Option Nat) (size die : Nat) (loc : Nat → Loc) (data : Nat → Nat) (ls : List Nat) (s : State) :
    MemStep s (atomLanes op size die loc data ls s).1 := by
  induction ls generalizing s with
  | nil => exact .refl s
  | cons l ls ih => exact (atomStep_memStep ..).trans (ih _)

theorem atomLanes_lanes (op : Nat → Nat → Option Nat) (size die : Nat) (loc : Nat → Loc) (data : Nat → Nat) (ls : List Nat) (s : State) :
    (atomLanes op size die loc data ls s).2.map (fun p => p.1) = ls := by
  induction ls generalizing s with
  | nil => rfl
  | cons l ls ih => rw [atomLanes, List.map_cons, ih]

/-- The word of a lane's old value. -/
theorem laneWord_old (rs : List (Nat × Nat)) {nd i : Nat} (hi : i < nd) (l : Nat) :
    laneWord (rs.map (fun p => (p.1, (List.range nd).map (fun i => BitVec.ofNat 32 (p.2 / 2 ^ (32 * i)))))) i l =
      if l ∈ rs.map (fun p => p.1) then BitVec.ofNat 32 (oldOf rs l / 2 ^ (32 * i)) else 0#32 := by
  have hfind : (rs.map (fun p => (p.1, (List.range nd).map (fun i => BitVec.ofNat 32 (p.2 / 2 ^ (32 * i)))))).find? (fun r => r.1 == l) =
      (rs.find? (fun p => p.1 == l)).map (fun p => (p.1, (List.range nd).map (fun i => BitVec.ofNat 32 (p.2 / 2 ^ (32 * i))))) := List.find?_map ..
  rw [laneWord, hfind, oldOf]
  cases hf : rs.find? (fun p => p.1 == l) with
  | none =>
    have hno : l ∉ rs.map (fun p => p.1) := fun hmem => by
      obtain ⟨p, hp, hpl⟩ := List.mem_map.mp hmem
      exact List.find?_eq_none.mp hf p hp (by simpa using hpl)
    rw [if_neg hno]
    rfl
  | some p =>
    have hmem : l ∈ rs.map (fun p => p.1) := List.mem_map.mpr ⟨p, List.mem_of_find?_eq_some hf, by simpa using List.find?_some hf⟩
    rw [if_pos hmem]
    simp [List.getElem?_range hi]

/-- A read-modify-write is an issue whose effect runs over the places that its accesses reach. -/
theorem runRmw_eq_issue (sp : Spec) (bad : Bool) (f : FormM) (units : Int) (size nb nd : Nat) (spaces : List Nat) (op : RmwOp) : ∃ body,
    (∀ s, runRmw sp bad f units size nb nd spaces op s = issue { sp with ends := true } (fun _ => bad) body s) ∧
    ∀ (x : Ctx) (s : State) (ps : List (Acc × Loc)),
      let as := formAcc f x s false units x.act
      checkSig s x.c as size spaces (fun e => e.r && e.w && e.atom) = none → (∀ part, meetAll s x.c as size true true true part = .ok ps) →
      let r := rmwAll (op.fn 0) size (dieOfCore x.c.core) (laneData (x.rows s f.b nb)) (noteUse s x.c as) ps
      ∃ late, body x s = .ok { s := noteLanes r.1 x.c size ps, wr := if nd = 0 then [] else laneWrites x nd (r.2.map (fun p =>
        (p.1, (List.range nd).map (fun i => BitVec.ofNat 32 (p.2 / 2 ^ (32 * i)))))), ctl := false, late := late } := by
  unfold runRmw
  refine ⟨_, fun s => rfl, ?_⟩
  intro x s ps as hcheck hmeet r
  have has : formAcc f x s false units x.act = as := rfl
  simp only [has, hcheck, hmeet]
  exact ⟨_, rfl⟩

theorem laneData_rows (x : Ctx) (s : State) (c : Crew) (sp : Spec) (f : FormM) (nb : Nat) :
    laneData (x.rows (s.issued c sp) f.b nb) = atomData x s.opening f nb := by
  funext l
  unfold laneData atomData Ctx.rows
  split
  · rw [List.flatMap_singleton]
    rfl
  · rw [List.flatMap_map]
    rfl

section Row

variable {sp0 : Spec} {bad : Bool} {f : FormM} {units : Int} {size nb nd : Nat} {spaces : List Nat} {op : RmwOp} {s : State} {c : Crew} {loc : Nat → Loc}

/-- A read-modify-write whose accesses pass every check completes with the old values of its lanes. -/
theorem rmw_completes (hi : Issues s c { sp0 with ends := true } (fun _ => bad)) (hs : Steady s c)
    (h : ∀ a ∈ formAcc f (s.view c { sp0 with ends := true }) (s.issued c { sp0 with ends := true }) false units (s.view c { sp0 with ends := true }).act,
      Reaches (s.issued c { sp0 with ends := true }) (s.view c { sp0 with ends := true }).c a size spaces (fun e => e.r && e.w && e.atom) true true true (loc a.l)) :
    let sp := { sp0 with ends := true }
    let x := s.view c sp
    let s1 := s.issued c sp
    let as := formAcc f x s1 false units x.act
    let die := dieOfCore x.c.core
    let all := atomLanes (op.fn 0) size die loc (atomData x s.opening f nb) (as.map (fun a => a.l)) (noteUse s1 x.c as)
    Answers (runRmw sp0 bad f units size nb nd spaces op s) (fun t => Completed s (all.1.noteWrote c.id size (as.map (fun a => (loc a.l).spot die))) t (s.issuing c sp) sp
      (if nd = 0 then [] else laneWrites x nd (all.2.map (fun p => (p.1, (List.range nd).map (fun i => BitVec.ofNat 32 (p.2 / 2 ^ (32 * i)))))))) := by
  intro sp x s1 as die all
  have hcheck : checkSig s1 x.c as size spaces (fun e => e.r && e.w && e.atom) = none := checkSig_eq_none (fun a ha => va_eq_of_mem ha) h
  obtain ⟨body, hissue, hbody⟩ := runRmw_eq_issue sp0 bad f units size nb nd spaces op
  obtain ⟨late, hbody⟩ := hbody x s1 (as.map (fun a => (a, loc a.l))) hcheck (fun part => meetAll_eq_ok h part)
  rw [rmwAll_eq_atomLanes, laneData_rows, noteLanes, List.map_map, view_c_id] at hbody
  have hframe := atomLanes_memStep (op.fn 0) size die loc (atomData x s.opening f nb) (as.map (fun a => a.l)) (noteUse s1 x.c as)
  have huse := noteUse_useStep s1 x.c as
  rw [hissue]
  exact lateEffect_completes (sp := sp) hi hs hbody (hframe.crews.trans huse.crews) (hframe.cycle.trans huse.cycle)

end Row

theorem atomRows_hold : ∀ r ∈ atomRows, r.Holds := by
  intro r hr f s c loc sp x s1 as hi hs h all
  obtain ⟨op, hop, hsize, hexec⟩ := exec_atom_eq_runAtom r hr
  have hdone := rmw_completes (nb := r.nb) (nd := r.size / 4) (op := op) hi hs h
  dsimp only at hdone
  rw [hop] at hdone
  have hnd : r.size / 4 ≠ 0 ∧ (r.size / 4 = 1 ↔ r.size = 4) := by omega
  have hlanes : all.2.map (fun p => p.1) = maskLanes x.act := (atomLanes_lanes ..).trans (formAcc_lanes ..)
  have hwrites : laneWrites x (r.size / 4) (all.2.map (fun p => (p.1, (List.range (r.size / 4)).map (fun i => BitVec.ofNat 32 (p.2 / 2 ^ (32 * i)))))) =
      (List.range (r.size / 4)).map (fun i => Wr.full (if r.size = 4 then x.d 0 else x.d 0 + i) x.act (fun l =>
        if x.act.getLsbD l then BitVec.ofNat 32 (oldOf all.2 l / 2 ^ (32 * i)) else 0#32)) := by
    refine List.map_congr_left fun i hi => ?_
    simp only [hnd.2]
    refine full_congr _ _ fun l hl => ?_
    rw [laneWord_old _ (List.mem_range.mp hi), hlanes]
    exact if_congr (mem_maskLanes.trans (and_iff_right hl)) rfl rfl
  rw [hexec, ← hwrites]
  rw [if_neg hnd.1] at hdone
  exact hdone

theorem bankOperationResults : BankOperationResults := by
  intro r hr f s c loc sp x s1 as hi hs h
  obtain ⟨op, hop, hexec⟩ := exec_bankop_eq_runBankop r hr
  have hdone := rmw_completes (nb := 1) (nd := 0) (op := op) hi hs h
  dsimp only at hdone
  rw [hop] at hdone
  rw [hexec]
  exact hdone

/-- Settles O20. -/
theorem atomicAndBankResults : Obligations.AtomicAndBankResults := ⟨atomRows_hold, bankOperationResults⟩

end Sys2Proof.Proofs.AtomicRows
end

