-- ==== Sys2Proof/Proofs/FenceRows.lean ====
section
/-!
PROOF. Proofs/FenceRows.lean: fences (08 R172; 11 R235).
-/

namespace Sys2Proof.Proofs.FenceRows

open Sys2Proof Sys2Proof.Machine Sys2Proof.Claims Sys2Proof.Proofs.IssueRules Sys2Proof.Proofs.MemoryFrames

theorem acquire_memStep (s : State) (scope : Nat) (c : Crew) : MemStep s (s.acquire scope c) := acquireAt_memStep ..

/-- A fence is an issue whose effect releases, then acquires, as its kind says. -/
theorem exec_fence_eq_issue (f : FormS) : ∃ body,
    (∀ s, exec (.fence f) s = issue { specS f [] [] .none with ends := true }
      (fun _ => f.body.toNat / 32 ≠ 0 || f.body.toNat / 8 % 4 == 0 || f.body.toNat % 8 == 0) body s) ∧
    ∀ x s, body x s =
      let t := if x.act ≠ 0#64 ∧ 2 ≤ f.body.toNat / 8 % 4 then s.releaseAt (f.body.toNat % 8) x.c else s
      .ok { s := if x.act ≠ 0#64 ∧ f.body.toNat / 8 % 4 ≠ 2 then t.acquire (f.body.toNat % 8) x.c else t, wr := [], ctl := false } := by
  have hkind : bitsOf f.body.toNat 4 3 = f.body.toNat / 8 % 4 := by rw [bitsOf, Nat.shiftRight_eq_div_pow]; rfl
  have hscope : bitsOf f.body.toNat 2 0 = f.body.toNat % 8 := by rw [bitsOf, Nat.shiftRight_zero]; rfl
  simp only [exec_fence, execFence, hkind, hscope]
  exact ⟨_, fun s => rfl, fun x s => rfl⟩

/-- Settles O21. -/
theorem fenceReleases : Obligations.FenceReleases := by
  intro f s c kind scope sp hi hs x s1 gives
  obtain ⟨body, hexec, hbody⟩ := exec_fence_eq_issue f
  have hgives : ∀ m, body x s1 = .ok { s := m, wr := [], ctl := false } → MemStep s1 m → gives m := fun m hb hm => by
    show Answers (exec (.fence f) s) _
    rw [hexec]
    exact effect_completes (sp := sp) hi hs hb hm.crews hm.cycle
  refine ⟨fun hact => ?_, fun hact hk => ?_, fun hact hk => ?_, fun hact hk => ?_, fun h5 => ?_⟩
  · refine hgives s1 ?_ (.refl _)
    simp only [hbody, hact, ne_eq, not_true, false_and, if_false]
  · have hkind : f.body.toNat / 8 % 4 = 1 := hk
    exact hgives _ (by simp [hbody, hact, hkind]; rfl) (acquire_memStep ..)
  · have hkind : f.body.toNat / 8 % 4 = 2 := hk
    exact hgives _ (by simp [hbody, hact, hkind]; rfl) (releaseAt_memStep ..)
  · have hkind : f.body.toNat / 8 % 4 = 3 := hk
    exact hgives _ (by simp [hbody, hact, hkind]; rfl) ((releaseAt_memStep ..).trans (acquire_memStep ..))
  · exact if_pos h5

end Sys2Proof.Proofs.FenceRows
end

