-- ==== Sys2Proof/Proofs/PrefetchRows.lean ====
section
/-!
PROOF. Proofs/PrefetchRows.lean: prefetches by tracker and by deadline (08 R166 to R169).
-/

namespace Sys2Proof.Proofs.PrefetchRows

open Sys2Proof Sys2Proof.Machine Sys2Proof.Claims Sys2Proof.Proofs.IssueRules Sys2Proof.Proofs.AccessRules Sys2Proof.Proofs.LoadRows

/-! ## The access of the lowest lane -/

section Lowest

variable {f : FormM} {x : Ctx} {s : State} {o64 : Bool} {a : Acc}

theorem formAcc_m0_nil (units : Int) (h : x.act = 0#64) : formAcc f x s o64 units x.m0 = [] := by
  rw [Ctx.m0, if_pos h, formAcc_eq_map]
  rfl

theorem pfCheck_eq_none {c : Crew} (hvalid : a.e.valid = true) (hwait : a.e.wait = false) (hspace : a.e.space ∈ pfSpaces) (hr : a.e.r = true) :
    pfCheck s c [a] = none := by
  simp [pfCheck, hvalid, hwait, hspace, hr]

end Lowest

/-! ## pfx -/

/-- A pfx is an issue that writes zero unless the access of the lowest lane finds an idle tracker. -/
theorem runPfx_eq_issue (f : FormM) (o64 : Bool) : ∃ body,
    (∀ s, runPfx f o64 s = issue { specM f (mSrcs f o64 ++ [one f.b]) [one f.d] .var false with squash := true } (fun _ => hndBad f) body s) ∧
    (∀ x s, pfForm x.c ≠ 1 ∨ x.act = 0#64 → body x s = .ok { s := s, wr := [Wr.full (x.d 0) x.act (fun _ => 0#32)], ctl := false }) ∧
    ∀ x s a, pfForm x.c = 1 → formAcc f x s o64 (ofs10 f) x.m0 = [a] → pfCheck s x.c [a] = none →
      ((s.core x.c.core).trackers.findIdx? (fun t => !t.busy) = none → body x s = .ok { s := s, wr := [Wr.full (x.d 0) x.act (fun _ => 0#32)], ctl := false }) ∧
      ∀ i, (s.core x.c.core).trackers.findIdx? (fun t => !t.busy) = some i →
        (rowAt (x.row s f.b.toNat) a.l = 0#32 ∨ bitOf a.off 63 = true ∨ s.boundOf x.c a.e ≤ a.off →
          body x s = .ok { s := s, wr := [Wr.full (x.d 0) x.act (fun _ => 0#32)], ctl := false }) ∧
        (¬ (rowAt (x.row s f.b.toNat) a.l = 0#32 ∨ bitOf a.off 63 = true ∨ s.boundOf x.c a.e ≤ a.off) → ∀ t, (s.core x.c.core).trackers[i]? = some t →
          let g := if t.gen = 0xFFFF then 1 else t.gen + 1
          body x s = .ok {
            s := s.modCore x.c.core (fun q => { q with trackers := q.trackers.set i { busy := true, gen := g, crew := x.id } })
            wr := [Wr.full (x.d 0) x.act (fun _ => BitVec.ofNat 32 (g * 2 ^ 16 + i))]
            ctl := false }) := by
  unfold runPfx
  refine ⟨_, fun s => rfl, fun x s h => ?_, fun x s a hform has hcheck => ⟨fun hnone => ?_, fun i hsome => ⟨fun hzero => ?_, fun hfits t ht => ?_⟩⟩⟩
  · by_cases hform : pfForm x.c ≠ 1
    · exact if_pos hform
    · have hact := h.resolve_left hform
      simp only [if_neg hform, formAcc_m0_nil _ hact]
      rfl
  · simp only [hform, ne_eq, not_true, if_false, has, hcheck, hnone]
  · simp only [hform, ne_eq, not_true, if_false, has, hcheck, hsome]
    exact if_pos hzero
  · have hget : (s.core x.c.core).trackers.getD i { busy := false, gen := 0, crew := 0 } = t := by
      rw [List.getD_eq_getElem?_getD, ht]
      rfl
    simp only [hform, ne_eq, not_true, if_false, has, hcheck, hsome, hget]
    exact if_neg hfits

theorem findIdx?_idle_none {ts : List Tracker} (h : ∀ t ∈ ts, t.busy = true) : ts.findIdx? (fun t => !t.busy) = none := by
  rw [List.findIdx?_eq_none_iff]
  exact fun t ht => by rw [h t ht]; rfl

theorem findIdx?_idle_some {ts : List Tracker} {k : Nat} {t : Tracker} (hk : ts[k]? = some t) (hidle : t.busy = false)
    (hbefore : ∀ j u, j < k → ts[j]? = some u → u.busy = true) : ts.findIdx? (fun t => !t.busy) = some k := by
  obtain ⟨hlt, hget⟩ := List.getElem?_eq_some_iff.mp hk
  rw [List.findIdx?_eq_some_iff_getElem]
  refine ⟨hlt, by rw [hget, hidle]; rfl, fun j hj => ?_⟩
  rw [hbefore j ts[j] hj (List.getElem?_eq_getElem _)]
  decide

theorem exec_pfx_eq_runPfx (f : FormM) (o64 : Bool) (s : State) : exec (if o64 then .pfxO64 f else .pfx f) s = runPfx f o64 s := by
  cases o64 <;> rfl

theorem prefetchTrackers_pfx (f : FormM) (o64 : Bool) (s : State) (c : Crew) :
    let sp : Spec := { specM f (mSrcs f o64 ++ [one f.b]) [one f.d] .var false with squash := true }
    let i := if o64 then Instr.pfxO64 f else Instr.pfx f
    let x := s.view c sp
    let s1 := s.issued c sp
    let gives := fun (m : State) (v : Word) => Answers (exec i s) (fun t =>
      Completed s m t (s.issuing c sp) sp [Wr.full (x.d 0) x.act (fun _ => v)])
    Issues s c sp (fun _ => hndBad f) → Steady s c →
    (x.c.pfmode.toNat % 4 ≠ 1 → gives s.opening 0#32) ∧
    (x.c.pfmode.toNat % 4 = 1 → x.act = 0#64 → gives s.opening 0#32) ∧
    (x.c.pfmode.toNat % 4 = 1 → x.act ≠ 0#64 → ∀ a, formAcc f x s1 o64 (ofs10 f) (1#64 <<< x.l0) = [a] →
      a.e.valid = true → a.e.wait = false → a.e.space ∈ pfSpaces → a.e.r = true →
      let trackers := (s.core x.c.core).trackers
      let fits := srcWord x s.opening f.b a.l ≠ 0#32 ∧ bitOf a.off 63 = false ∧ a.off < s1.boundOf x.c a.e
      ((∀ t ∈ trackers, t.busy = true) → gives s.opening 0#32) ∧
      (∀ k t, trackers[k]? = some t → t.busy = false → (∀ j u, j < k → trackers[j]? = some u → u.busy = true) →
        (¬ fits → gives s.opening 0#32) ∧
        (fits →
          let g := if t.gen = 0xFFFF then 1 else t.gen + 1
          gives (s.opening.modCore x.c.core (fun q => { q with trackers := q.trackers.set k { busy := true, gen := g, crew := c.id } }))
            (BitVec.ofNat 32 (g * 2 ^ 16 + k))))) := by
  intro sp i x s1 gives hi hs
  obtain ⟨body, hexec, hzero, hone⟩ := runPfx_eq_issue f o64
  have hgives : ∀ (m : State) (v : Word), m.crews = s1.crews → m.cycle = s.cycle → body x s1 = .ok { s := m, wr := [Wr.full (x.d 0) x.act (fun _ => v)], ctl := false } →
      gives m v := fun m v hcrews hcyc hb => by
    show Answers (exec i s) _
    rw [show exec i s = _ from exec_pfx_eq_runPfx f o64 s, hexec]
    exact effect_completes (sp := sp) hi hs hb hcrews hcyc
  have hnothing : body x s1 = .ok { s := s1, wr := [Wr.full (x.d 0) x.act (fun _ => 0#32)], ctl := false } → gives s.opening 0#32 := hgives s1 0#32 rfl rfl
  refine ⟨fun hform => hnothing (hzero x s1 (.inl hform)), fun hform hact => hnothing (hzero x s1 (.inr hact)), ?_⟩
  intro hform hact a has hvalid hwait hspace hr trackers fits
  have hm0 : x.m0 = 1#64 <<< x.l0 := if_neg hact
  rw [← hm0] at has
  obtain ⟨hbusy, hidle⟩ := hone x s1 a hform has (pfCheck_eq_none hvalid hwait hspace hr)
  refine ⟨fun hall => hnothing (hbusy (findIdx?_idle_none hall)), fun k t hk ht hbefore => ?_⟩
  obtain ⟨hno, hyes⟩ := hidle k (findIdx?_idle_some hk ht hbefore)
  have hfits : fits ↔ ¬ (rowAt (x.row s1 f.b.toNat) a.l = 0#32 ∨ bitOf a.off 63 = true ∨ s1.boundOf x.c a.e ≤ a.off) := by
    rw [not_or, not_or, not_le, Bool.not_eq_true]
    exact Iff.rfl
  refine ⟨fun h => hnothing (hno (not_not.mp (fun hn => h (hfits.mpr hn)))), fun h => ?_⟩
  exact hgives (s1.modCore x.c.core _) _ rfl rfl (hyes (hfits.mp h) t hk)

/-! ## pcancel -/

/-- The tracker that a lane's word names goes idle. -/
def cancelled (v : Nat) (t : Tracker) : Tracker := if t.busy ∧ t.gen = v / 65536 ∧ v ≠ 0 then { t with busy := false } else t

theorem cancelled_eq (v : Nat) (t : Tracker) : cancelled v t = { t with busy := t.busy && !(decide (t.gen = v / 65536) && v != 0) } := by
  obtain ⟨busy, gen, crew⟩ := t
  rw [cancelled]
  by_cases h : gen = v / 65536 ∧ v ≠ 0
  · cases busy <;> simp [h]
  · rw [if_neg fun hb => h hb.2]
    have hf : (decide (gen = v / 65536) && v != 0) = false := by simpa using h
    simp [hf]

/-- The trackers after lanes have named some of them. -/
def cancelAll (word : Nat → Nat) (ls : List Nat) (ts : List Tracker) : List Tracker :=
  ls.foldl (fun ts l => ts.modify (word l % 65536) (cancelled (word l))) ts

theorem cancelAll_length (word : Nat → Nat) (ls : List Nat) (ts : List Tracker) : (cancelAll word ls ts).length = ts.length := by
  unfold cancelAll
  induction ls generalizing ts with
  | nil => rfl
  | cons l ls ih => rw [List.foldl_cons, ih, List.length_modify]

theorem cancelAll_getElem? (word : Nat → Nat) (ls : List Nat) (ts : List Tracker) {k : Nat} {t : Tracker} (hk : k < 2 ^ 16) (ht : ts[k]? = some t) :
    (cancelAll word ls ts)[k]? = some { t with busy := t.busy && !ls.any (fun l => word l == t.gen * 2 ^ 16 + k && word l != 0) } := by
  unfold cancelAll
  induction ls generalizing ts t with
  | nil => simp [ht]
  | cons l ls ih =>
    have hnames : word l % 65536 = k ∧ t.gen = word l / 65536 ↔ word l = t.gen * 2 ^ 16 + k := by omega
    have hstep : (ts.modify (word l % 65536) (cancelled (word l)))[k]? =
        some { t with busy := t.busy && !(word l == t.gen * 2 ^ 16 + k && word l != 0) } := by
      rw [List.getElem?_modify, ht]
      by_cases hidx : word l % 65536 = k
      · have hnamed : (word l == t.gen * 2 ^ 16 + k) = decide (t.gen = word l / 65536) := by
          rw [Bool.eq_iff_iff, beq_iff_eq, decide_eq_true_eq, ← hnames]
          exact and_iff_right hidx
        rw [hnamed]
        simp only [hidx, if_true, Option.map_eq_map, Option.map_some, cancelled_eq]
      · have hnot : (word l == t.gen * 2 ^ 16 + k) = false := beq_eq_false_iff_ne.mpr fun h => hidx (hnames.mpr h).1
        simp only [hidx, hnot, if_false, Bool.false_and, Bool.not_false, Bool.and_true, Option.map_eq_map, Option.map_some]
    rw [List.foldl_cons, ih _ hstep]
    simp [Bool.and_assoc]

theorem modCore_modCore (s : State) (k : Nat) (f g : CoreSt → CoreSt) (h : k < s.cores.length) : (s.modCore k f).modCore k g = s.modCore k (fun q => g (f q)) := by
  have hcore : (s.modCore k f).core k = f (s.core k) := by
    simp [State.modCore, State.core, List.getD_eq_getElem?_getD, h]
  rw [State.modCore, hcore]
  simp [State.modCore]

theorem modCore_id (s : State) (k : Nat) : s.modCore k (fun q => q) = s := by
  have hset : s.cores.set k (s.core k) = s.cores := by
    refine List.ext_getElem? fun i => ?_
    rw [List.getElem?_set]
    split
    · next hik =>
      subst hik
      split
      · next hlt => simp [State.core, List.getD_eq_getElem?_getD, hlt]
      · next hlt => exact (List.getElem?_eq_none (not_lt.mp hlt)).symm
    · rfl
  rw [State.modCore, hset]

theorem modCore_congr {s : State} {k : Nat} {f g : CoreSt → CoreSt} (h : f (s.core k) = g (s.core k)) : s.modCore k f = s.modCore k g := by
  rw [State.modCore, h, State.modCore]

/-- Cancellations in a row are one change of the core's trackers. -/
theorem foldl_cancel {s : State} {core : Nat} (h : core < s.cores.length) (word : Nat → Nat) (ls : List Nat) :
    ls.foldl (fun s l => s.modCore core (fun q => { q with trackers := q.trackers.modify (word l % 65536) (cancelled (word l)) })) s =
      s.modCore core (fun q => { q with trackers := cancelAll word ls q.trackers }) := by
  induction ls generalizing s with
  | nil => exact (modCore_id s core).symm
  | cons l ls ih =>
    rw [List.foldl_cons, ih (by simpa [State.modCore] using h), modCore_modCore _ _ _ _ h]
    rfl

/-- pcancel is an issue whose effect cancels the trackers that its lanes name. -/
theorem exec_pcancel_eq_issue (f : FormR) : ∃ body,
    (∀ s, exec (.pcancel f) s = issue (specR f (use1 .b32) [] .none) (fun _ => f.rsv ≠ 0#2 || f.md ≠ 0#12 || f.d ≠ 0#8 || f.b ≠ 0#8 || f.c ≠ 0#8) body s) ∧
    ∀ x s, body x s = .ok { s := (maskLanes x.act).foldl (fun t l => t.modCore x.c.core (fun q =>
      { q with trackers := q.trackers.modify ((rowAt (x.row s f.a.toNat) l).toNat % 65536) (cancelled (rowAt (x.row s f.a.toNat) l).toNat) })) s, wr := [], ctl := false } := by
  simp only [exec_pcancel, execPcancel]
  refine ⟨_, fun s => rfl, fun x s => ?_⟩
  rfl

theorem prefetchTrackers_pcancel (f : FormR) (s : State) (c : Crew) :
    let sp := specR f (use1 .b32) [] .none
    let x := s.view c sp
    let core := x.c.core
    Issues s c sp (fun _ => f.rsv ≠ 0#2 || f.md ≠ 0#12 || f.d ≠ 0#8 || f.b ≠ 0#8 || f.c ≠ 0#8) → Steady s c → core < s.cores.length →
    Answers (exec (.pcancel f) s) (fun t => ∃ ts, Completed s (s.opening.modCore core (fun q => { q with trackers := ts })) t (s.issuing c sp) sp [] ∧
      ts.length = (s.core core).trackers.length ∧
      ∀ k t0, k < 2 ^ 16 → (s.core core).trackers[k]? = some t0 → ts[k]? = some { t0 with
        busy := t0.busy && !(List.range 64).any (fun l => x.act.getLsbD l && (srcWord x s.opening f.a l).toNat == t0.gen * 2 ^ 16 + k && srcWord x s.opening f.a l != 0#32) }) := by
  intro sp x core hi hs hlt
  obtain ⟨body, hexec, hbody⟩ := exec_pcancel_eq_issue f
  let word := fun l => (srcWord x s.opening f.a l).toNat
  let ts := cancelAll word (maskLanes x.act) (s.core core).trackers
  have hb : body x (s.issued c sp) = .ok { s := (s.issued c sp).modCore core (fun q => { q with trackers := ts }), wr := [], ctl := false } := by
    have hfold := foldl_cancel (s := s.issued c sp) (core := core) hlt word (maskLanes x.act)
    have hts := modCore_congr (s := s.issued c sp) (k := core) (f := fun q => { q with trackers := cancelAll word (maskLanes x.act) q.trackers })
      (g := fun q => { q with trackers := ts }) rfl
    exact (hbody x _).trans (congrArg (fun m => (.ok { s := m, wr := [], ctl := false } : Res Done)) (hfold.trans hts))
  rw [hexec]
  obtain ⟨t, ht, hdone⟩ := effect_completes (sp := sp) hi hs hb rfl rfl
  refine ⟨t, ht, ts, hdone, cancelAll_length .., fun k t0 hk ht0 => ?_⟩
  have hany : (maskLanes x.act).any (fun l => word l == t0.gen * 2 ^ 16 + k && word l != 0) =
      (List.range 64).any (fun l => x.act.getLsbD l && (srcWord x s.opening f.a l).toNat == t0.gen * 2 ^ 16 + k && srcWord x s.opening f.a l != 0#32) := by
    rw [maskLanes, List.any_filter]
    refine congrArg (List.any (List.range 64)) (funext fun l => ?_)
    have hzero : (word l != 0) = (srcWord x s.opening f.a l != 0#32) := by
      rw [Bool.eq_iff_iff, bne_iff_ne, bne_iff_ne, ne_eq, ne_eq, not_iff_not]
      exact (BitVec.toNat_eq (y := 0#32)).symm
    rw [hzero, Bool.and_assoc]
  rw [cancelAll_getElem? word _ _ hk ht0, hany]

theorem prefetchTrackers : PrefetchTrackers := ⟨prefetchTrackers_pfx, prefetchTrackers_pcancel⟩

/-! ## pfd -/

/-- A pfd is an issue that enters a request of the lowest lane. -/
theorem runPfd_eq_issue (f : FormM) (o64 : Bool) : ∃ body,
    (∀ s, runPfd f o64 s = issue (specM f (mSrcs f o64 ++ [one f.b]) [] .none false) (fun _ => hndBad f || f.d ≠ 0#8) body s) ∧
    (∀ x s, pfForm x.c ≠ 2 ∨ x.act = 0#64 → body x s = .ok { s := s, wr := [], ctl := false }) ∧
    ∀ x s a, pfForm x.c = 2 → formAcc f x s o64 (ofs10 f) x.m0 = [a] → pfCheck s x.c [a] = none →
      let v := (rowAt (x.row s f.b.toNat) a.l).toNat
      body x s = .ok {
        s := addPfd s x.c.core { ctx := x.c.ctx, handle := a.hidx, prio := v / 2 ^ 28, deadline := s.cycle + 1024 * (v % 2 ^ 28), order := s.order, begun := false }
        wr := []
        ctl := false } := by
  unfold runPfd
  refine ⟨_, fun s => rfl, fun x s h => ?_, fun x s a hform has hcheck => ?_⟩
  · by_cases hform : pfForm x.c ≠ 2
    · exact if_pos hform
    · have hact := h.resolve_left hform
      simp only [if_neg hform, formAcc_m0_nil _ hact]
      rfl
  · simp only [hform, ne_eq, not_true, if_false, has, hcheck]

theorem addPfd_append {s : State} {core : Nat} {r : PfdReq} (hlen : (s.core core).pfds.length < 64)
    (hnew : ∀ p ∈ (s.core core).pfds, p.begun = true ∨ p.ctx ≠ r.ctx ∨ p.handle ≠ r.handle) :
    addPfd s core r = s.modCore core (fun k => { k with pfds := k.pfds ++ [r] }) := by
  have hnone : (s.core core).pfds.findIdx? (fun p => p.ctx == r.ctx && p.handle == r.handle && !p.begun) = none := by
    rw [List.findIdx?_eq_none_iff]
    intro p hp
    rcases hnew p hp with h | h | h <;> simp [h]
  simp only [addPfd, hnone, hlen, if_true]

theorem exec_pfd_eq_runPfd (f : FormM) (o64 : Bool) (s : State) : exec (if o64 then .pfdO64 f else .pfd f) s = runPfd f o64 s := by
  cases o64 <;> rfl

theorem prefetchByDeadline : PrefetchByDeadline := by
  intro f o64 s c sp i x s1 hi hs
  obtain ⟨body, hexec, hzero, hone⟩ := runPfd_eq_issue f o64
  rw [show exec i s = _ from exec_pfd_eq_runPfd f o64 s, hexec]
  refine ⟨fun h => effect_completes (m := s1) (sp := sp) hi hs (hzero x s1 h) rfl rfl, ?_⟩
  intro hform hact a has hvalid hwait hspace hr hlen hnew v r
  have hm0 : x.m0 = 1#64 <<< x.l0 := if_neg hact
  rw [← hm0] at has
  have hb := (hone x s1 a hform has (pfCheck_eq_none hvalid hwait hspace hr)).trans
    (congrArg (fun m => (.ok { s := m, wr := [], ctl := false } : Res Done)) (addPfd_append (s := s1) hlen hnew))
  exact effect_completes (m := s1.modCore x.c.core _) (sp := sp) hi hs hb rfl rfl

/-- Settles O22. -/
theorem prefetches : Obligations.Prefetches := ⟨prefetchTrackers, prefetchByDeadline⟩

end Sys2Proof.Proofs.PrefetchRows
end

