-- ==== Sys2Proof/Proofs/CommandRows.lean ====
section
/-!
PROOF. Proofs/CommandRows.lean: commands that post an operation and count it (08 R174 to R178, R185 to R188).
-/

namespace Sys2Proof.Proofs.CommandRows

open Sys2Proof Sys2Proof.Machine Sys2Proof.Claims Sys2Proof.Proofs.IssueRules Sys2Proof.Proofs.StoreRows Sys2Proof.Proofs.MatrixInstructions

/-! ## Room for a command -/

theorem view_c_fields (s : State) (c : Crew) (sp : Spec) : (s.view c sp).c.ctx = c.ctx ∧ (s.view c sp).c.blk = c.blk ∧ (s.view c sp).c.core = c.core ∧
    (s.view c sp).c.asid = c.asid ∧ (s.view c sp).c.ht = c.ht ∧ (s.view c sp).c.window = c.window ∧ (s.view c sp).c.gates = c.gates ∧
    (s.view c sp).c.ocnt = c.ocnt ∧ (s.view c sp).c.errs = c.errs ∧ (s.view c sp).c.trecs = c.trecs := by
  rw [view_c_frame]
  exact ⟨rfl, rfl, rfl, rfl, rfl, rfl, rfl, rfl, rfl, rfl⟩

theorem coreOps_place (s : State) (o : Op) : (s.opHere o || (o.cls == 3 && (s.block? o.blk).any (fun b => b.place == 2))) =
    (s.block? o.blk).any (fun b => b.place == 0 || b.place == 3 || (b.place == 2 && o.cls == 3)) := by
  rw [State.opHere]
  cases s.block? o.blk with
  | none => simp
  | some b => simp [Bool.and_comm]

theorem canPost_iff (s : State) (c : Crew) (sp : Spec) (cls : Nat) : canPost (s.issued c sp) (s.view c sp).c cls = true ↔ RoomFor s c cls := by
  obtain ⟨-, -, hcore, -, -, -, -, hocnt, -⟩ := view_c_fields s c sp
  have hcount : (s.view c sp).c.count cls = c.count cls := by rw [Crew.count, Crew.oc, hocnt]; rfl
  have hops : (s.issued c sp).coreOps c.core = (s.ops.filter (fun o => o.core == c.core && o.cls ≠ 2 && !o.done &&
      (s.block? o.blk).any (fun b => b.place == 0 || b.place == 3 || (b.place == 2 && o.cls == 3)))).length := by
    refine congrArg List.length (List.filter_congr fun o _ => ?_)
    rw [coreOps_place]
    rfl
  rw [canPost, hcount, hcore, hops, RoomFor]
  by_cases hcls : cls = 2 <;> simp [hcls]

/-! ## Effects that change the crew too -/

/-- An effect that changes a crew and leaves its slots alone, with sources that may be read late. -/
theorem lateIssue_completes {s m : State} {c : Crew} {sp : Spec} {bad : Crew → Bool} {body : Ctx → State → Res Done} {g : Crew → Crew}
    {wr : List Wr} {late : Option Late} (hi : Issues s c sp bad) (hs : Steady s c)
    (hb : body (s.view c sp) (s.issued c sp) = .ok { s := m.modCrew c.id g, wr := wr, ctl := false, late := late })
    (hm : m.crews = (s.issued c sp).crews) (hcyc : m.cycle = s.cycle)
    (hid : ∀ x, (g x).id = x.id) (hst : ∀ x k, ((g x).slot k).st = (x.slot k).st) (hd : ∀ x, (g x).depth = x.depth) :
    Answers (issue sp bad body s) (fun t => Completed s m t (g (s.issuing c sp)) sp wr) := by
  have hcrews : (m.modCrew c.id g).crews = s.crews.map (fun x => if x.id == c.id then g (s.issuing c sp) else x) := by
    show m.crews.map (fun x => if x.id == c.id then g x else x) = _
    rw [hm, issued_crews, map_if_mapf g (issuing_id s c sp)]
  refine ⟨_, issue_ok hi hb, issueEnd_completed (d := { s := m.modCrew c.id g, wr := wr, ctl := false, late := late }) hi.crew hcrews ?_ rfl hcyc ?_ ?_⟩
  · rw [hid, issuing_id]
  · rw [hst, issuing_st]
    exact hs.1
  · rw [hst, hd, issuing_st, issuing_depth]
    exact hs.2

/-! ## Commands that are posted -/

theorem counted_keeps (cls : Nat) (e : Crew) : (counted e cls).id = e.id ∧ (∀ k, ((counted e cls).slot k).st = (e.slot k).st) ∧ (counted e cls).depth = e.depth :=
  ⟨rfl, fun k => by cases k <;> rfl, rfl⟩

section Posting

variable {s : State} {c : Crew} {sp : Spec} {bad : Crew → Bool} {body : Ctx → State → Res Done}

/-- A command whose operation is entered is counted. -/
theorem postOp_completes {o : Op} {late : Option Late} (hi : Issues s c sp bad) (hs : Steady s c) (hcrew : o.crew = c.id)
    (hb : body (s.view c sp) (s.issued c sp) = .ok { s := (s.issued c sp).postOp o, wr := [], ctl := false, late := late }) :
    Answers (issue sp bad body s) (fun t => Completed s { s.opening with ops := s.ops ++ [o] } t (counted (s.issuing c sp) o.cls) sp []) := by
  have hpost : (s.issued c sp).postOp o = ({ s.issued c sp with ops := s.ops ++ [o] } : State).modCrew c.id (fun e => counted e o.cls) := by
    rw [State.postOp, hcrew]
    rfl
  rw [hpost] at hb
  exact lateIssue_completes (m := { s.issued c sp with ops := s.ops ++ [o] }) (g := fun e => counted e o.cls) hi hs hb rfl rfl
    (fun e => (counted_keeps _ e).1) (fun e => (counted_keeps _ e).2.1) (fun e => (counted_keeps _ e).2.2)

theorem posted_newOp (s : State) (c : Crew) (sp : Spec) (cls opc : Nat) (args : List Word) :
    Posted s c cls opc args (newOp (s.view c sp) (s.issued c sp) cls opc args) := by
  obtain ⟨hctx, hblk, hcore, hasid, hht, hwindow, hgates, -⟩ := view_c_fields s c sp
  exact ⟨⟨rfl, rfl, hctx, hblk, hcore, hasid, hht, hwindow, congrArg List.length hgates⟩, ⟨rfl, rfl, rfl⟩, rfl, rfl, rfl, rfl, rfl, rfl⟩

/-- The effect of a command of the lowest lane. -/
structure CommandBody (body : Ctx → State → Res Done) (cls opc : Nat) (args : Ctx → State → List Word) : Prop where
  idle : ∀ x s, x.act = 0#64 → body x s = .ok { s := s, wr := [], ctl := false }
  full : ∀ x s, x.act ≠ 0#64 → canPost s x.c cls = false → body x s = .error .hold
  post : ∀ x s, x.act ≠ 0#64 → canPost s x.c cls = true → ∃ late, body x s = .ok { s := s.postOp (newOp x s cls opc (args x s)), wr := [], ctl := false, late := late }

theorem command_idle {cls opc : Nat} {args : Ctx → State → List Word} (h : CommandBody body cls opc args) (hi : Issues s c sp bad) (hs : Steady s c)
    (hact : (s.view c sp).act = 0#64) : Answers (issue sp bad body s) (fun t => Completed s s.opening t (s.issuing c sp) sp []) :=
  effect_completes (m := s.issued c sp) hi hs (h.idle _ _ hact) rfl rfl

theorem command_posted {cls opc : Nat} {args : Ctx → State → List Word} (h : CommandBody body cls opc args) (hi : Issues s c sp bad) (hs : Steady s c)
    (hact : (s.view c sp).act ≠ 0#64) (hroom : RoomFor s c cls) :
    Answers (issue sp bad body s) (fun t => ∃ o, Posted s c cls opc (args (s.view c sp) (s.issued c sp)) o ∧
      Completed s { s.opening with ops := s.ops ++ [o] } t (counted (s.issuing c sp) cls) sp []) := by
  obtain ⟨late, hb⟩ := h.post _ (s.issued c sp) hact ((canPost_iff ..).mpr hroom)
  have hposted := posted_newOp s c sp cls opc (args (s.view c sp) (s.issued c sp))
  exact answers_mono (postOp_completes hi hs rfl hb) fun t ht => ⟨_, hposted, ht⟩

theorem command_waits {cls opc : Nat} {args : Ctx → State → List Word} (h : CommandBody body cls opc args) (hi : Issues s c sp bad)
    (hact : (s.view c sp).act ≠ 0#64) (hroom : ¬ RoomFor s c cls) : issue sp bad body s = .next { s.opening with heldMark := true } := by
  have hno : canPost (s.issued c sp) (s.view c sp).c cls = false := by
    rw [← Bool.not_eq_true, canPost_iff]
    exact hroom
  rw [issue_stopped hi (h.full _ _ hact hno)]
  rfl

end Posting

/-! ## The rows -/

theorem commandBody_of_ite (cls opc : Nat) (args : Ctx → State → List Word) (late : Ctx → State → Option Late) :
    CommandBody (fun x s => if x.act = 0#64 then .ok { s := s, wr := [], ctl := false } else if !canPost s x.c cls then .error .hold
      else .ok { s := s.postOp (newOp x s cls opc (args x s)), wr := [], ctl := false, late := late x s }) cls opc args :=
  ⟨fun x s h => if_pos h, fun x s h hno => by simp [h, hno], fun x s h hroom => ⟨late x s, by simp [h, hroom]⟩⟩

/-- The argument words of a row, as the command takes them. -/
def rowArgs (r : RowCmd) (f : FormX) (x : Ctx) (s : State) : List Word :=
  r.args f (fun q => rowAt (x.row s q.toNat) x.l0) (fun q i => rowAt (x.plain s (q.toNat + i)) x.l0)

/-- Each command is an issue whose effect posts the words of its row. -/
theorem exec_command_eq_issue : ∀ r ∈ engineRows ++ fabricRows, ∀ f, ∃ body, CommandBody body r.cls r.opc (rowArgs r f) ∧
    ∀ s, exec (r.instr f) s = issue (r.spec f) (fun _ => f.rsv ≠ 0#6 || r.bad f) body s := by
  intro r hr f
  simp only [engineRows, fabricRows, List.cons_append, List.nil_append, List.mem_cons, List.not_mem_nil, or_false] at hr
  rcases hr with rfl | rfl | rfl | rfl | rfl | rfl | rfl | rfl | rfl | rfl | rfl <;>
    exact ⟨_, commandBody_of_ite _ _ _ _, fun s => rfl⟩

theorem commandRows_hold : ∀ r ∈ engineRows ++ fabricRows, r.Holds := by
  intro r hr f s c sp x hi hs
  obtain ⟨body, hbody, hexec⟩ := exec_command_eq_issue r hr f
  rw [hexec]
  exact ⟨command_idle (sp := sp) hbody hi hs, command_posted (sp := sp) hbody hi hs, command_waits (sp := sp) hbody hi⟩

theorem exec_fmark_eq_issue (f : FormS) : ∃ body,
    CommandBody body 3 0x2C3 (fun _ _ => [BitVec.ofNat 32 (f.body.toNat % 256), 0#32, 0#32, 0#32, 0#32, 0#32]) ∧
    ∀ s, exec (.fmark f) s = issue { specS f [] [] .none with ga := f.ga, ends := true } (fun _ => f.body.toNat / 256 ≠ 0) body s :=
  ⟨_, commandBody_of_ite _ _ _ (fun _ _ => none), fun s => rfl⟩

theorem fabricCommands : FabricCommands := by
  refine ⟨fun r hr => commandRows_hold r (List.mem_append_right _ hr), ?_⟩
  intro f s c sp x hi hs
  obtain ⟨body, hbody, hexec⟩ := exec_fmark_eq_issue f
  rw [hexec]
  exact ⟨command_idle (sp := sp) hbody hi hs, command_posted (sp := sp) hbody hi hs⟩

/-- Settles O23. -/
theorem engineAndFabricCommands : Obligations.EngineAndFabricCommands := ⟨fun r hr => commandRows_hold r (List.mem_append_left _ hr), fabricCommands⟩

end Sys2Proof.Proofs.CommandRows
end

