-- ==== Sys2Proof/Proofs/CommandCounting.lean ====
section
/-!
PROOF. Proofs/CommandCounting.lean: commands counted off, and the instructions that wait for them (08 R175, R181, R182).
-/

namespace Sys2Proof.Proofs.CommandCounting

open Sys2Proof Sys2Proof.Machine Sys2Proof.Claims Sys2Proof.Proofs.IssueRules Sys2Proof.Proofs.MemoryFrames Sys2Proof.Proofs.CommandRows
open Sys2Proof.Proofs.StoreRows Sys2Proof.Proofs.JoinExit

/-! ## The fields of OCNT -/

theorem mkOcnt_toNat (err : Bool) (stat count : Nat) : (mkOcnt err stat count).toNat = (if err then 2 ^ 31 else 0) + stat % 16 * 2 ^ 24 + count % 256 := by
  have hlt : (if err then 2 ^ 31 else 0) + stat % 16 * 2 ^ 24 + count % 256 < 2 ^ 32 := by
    cases err <;> simp <;> omega
  rw [mkOcnt, BitVec.toNat_ofNat, Nat.mod_eq_of_lt hlt]

theorem mkOcnt_count (err : Bool) (stat count : Nat) : (mkOcnt err stat count).toNat % 256 = count % 256 := by
  rw [mkOcnt_toNat]
  cases err <;> simp <;> omega

theorem mkOcnt_err (err : Bool) (stat count : Nat) : (mkOcnt err stat count).getLsbD 31 = err := by
  rw [BitVec.getLsbD, mkOcnt_toNat, Nat.testBit_eq_decide_div_mod_eq]
  cases err
  · rw [decide_eq_false_iff_not]
    simp
    omega
  · rw [decide_eq_true_eq]
    simp
    omega

theorem mkOcnt_stat (err : Bool) (stat count : Nat) : bitsOf (mkOcnt err stat count).toNat 27 24 = stat % 16 := by
  rw [bitsOf, mkOcnt_toNat, Nat.shiftRight_eq_div_pow]
  cases err <;> simp <;> omega

theorem setOc_oc (c : Crew) {k : Nat} (w : Word) (h : k < c.ocnt.length) : (c.setOc k w).oc k = w ∧ ∀ j, j ≠ k → (c.setOc k w).oc j = c.oc j := by
  refine ⟨by simp [Crew.oc, Crew.setOc, List.getD_eq_getElem?_getD, h], fun j hj => ?_⟩
  simp [Crew.oc, Crew.setOc, List.getD_eq_getElem?_getD, List.getElem?_set_ne hj.symm]

theorem stat_lt (c : Crew) (k : Nat) : c.stat k < 16 := Nat.mod_lt _ (by decide)

theorem commandCountedOff : CommandCountedOff := by
  intro c k stat hk hpos hstat
  have hcount : c.count k < 256 := Nat.mod_lt _ (by decide)
  have hlow := stat_lt c k
  obtain ⟨hoc, hother⟩ := setOc_oc c (k := k) (if stat = 0 then mkOcnt (c.err k) (c.stat k) (c.count k - 1)
    else mkOcnt true (if c.err k then c.stat k else stat) (c.count k - 1)) hk
  refine ⟨?_, ?_, ?_, hother⟩
  · show ((countOff c k stat).oc k).toNat % 256 = _
    rw [show (countOff c k stat).oc k = _ from hoc]
    split <;> rw [mkOcnt_count] <;> omega
  · show ((countOff c k stat).oc k).getLsbD 31 = _
    rw [show (countOff c k stat).oc k = _ from hoc]
    split
    · next h => rw [mkOcnt_err]; simp [h]
    · next h => rw [mkOcnt_err]; simp [h]
  · show bitsOf ((countOff c k stat).oc k).toNat 27 24 = _
    rw [show (countOff c k stat).oc k = _ from hoc]
    by_cases h : stat = 0
    · rw [if_pos h, mkOcnt_stat, if_pos (.inr h), Nat.mod_eq_of_lt hlow]
    · rw [if_neg h, mkOcnt_stat]
      by_cases he : c.err k = true
      · rw [if_pos he, if_pos (.inl he), Nat.mod_eq_of_lt hlow]
      · rw [if_neg he, if_neg (by tauto), Nat.mod_eq_of_lt hstat]

/-! ## Memory does not look at the crews -/

/-- A function of the state neither looks at the crews nor changes them. -/
def CrewBlind (F : State → State) : Prop := ∀ (s : State) (cs : List Crew), F { s with crews := cs } = { F s with crews := cs }

theorem crewBlind_foldl {α : Type} {F : State → α → State} (h : ∀ a, CrewBlind (fun s => F s a)) (as : List α) : CrewBlind (fun s => as.foldl F s) := by
  induction as with
  | nil => exact fun s cs => rfl
  | cons a as ih => exact fun s cs => (congrArg (fun t => as.foldl F t) (h a s cs)).trans (ih (F s a) cs)

theorem CrewBlind.id : CrewBlind (fun s => s) := fun _ _ => rfl

theorem CrewBlind.ite {p : State → Prop} [DecidablePred p] {A B : State → State} (hp : ∀ (s : State) (cs : List Crew), p { s with crews := cs } ↔ p s)
    (hA : CrewBlind A) (hB : CrewBlind B) : CrewBlind (fun s => if p s then A s else B s) := fun s cs => by
  by_cases h : p s
  · simp only [h, (hp s cs).mpr h, if_true]
    exact hA s cs
  · simp only [h, (hp s cs).not.mpr h, if_false]
    exact hB s cs

theorem CrewBlind.comp {F G : State → State} (hF : CrewBlind F) (hG : CrewBlind G) : CrewBlind (fun s => G (F s)) :=
  fun s cs => (congrArg G (hF s cs)).trans (hG (F s) cs)

theorem markKeys_crewBlind (pa n key : Nat) : CrewBlind (fun s => s.markKeys pa n key) :=
  CrewBlind.ite (p := fun s => ((s.keyed.isEmpty && key == 0) || decide (0x8000000000 ≤ pa)) = true) (fun _ _ => Iff.rfl) .id (fun _ _ => rfl)

theorem putKey_crewBlind (pa key : Nat) (bs : List Byte) : CrewBlind (fun s => s.putKey pa key bs) :=
  fun s cs => markKeys_crewBlind pa bs.length key { s.keepPast false pa bs.length with mem := s.mem.write pa bs } cs

theorem writeKey_crewBlind (pa key : Nat) (bs : List Byte) : CrewBlind (fun s => s.writeKey pa key bs) :=
  CrewBlind.ite (p := fun s => (s.sealedCtxs.isEmpty || !(List.range bs.length).any (fun i => s.sealedEntry (pa + i))) = true) (fun _ _ => Iff.rfl)
    (putKey_crewBlind pa key bs) fun s cs =>
      crewBlind_foldl (fun p : Byte × Nat => CrewBlind.ite (p := fun _ => s.sealedEntry (pa + p.2) = true) (fun _ _ => Iff.rfl) .id
        (putKey_crewBlind (pa + p.2) key [p.1])) (bs.zip (List.range bs.length)) s cs

theorem learn_crewBlind (die : Nat) (clk : List Nat) : CrewBlind (fun s => s.learn die clk) := fun _ _ => rfl

theorem applyArriving_crewBlind (w : Arriving) : CrewBlind (fun s => s.applyArriving w) := by
  have hpoison : CrewBlind (fun s => if w.poison then s.setPoison w.pa else s) := CrewBlind.ite (fun _ _ => Iff.rfl) (fun _ _ => rfl) .id
  exact ((writeKey_crewBlind w.pa w.key w.bytes).comp hpoison).comp (learn_crewBlind w.dst w.stamp)

theorem applyReplica_crewBlind (r : Replica) : CrewBlind (fun s => s.applyReplica r) :=
  (writeKey_crewBlind r.pa r.key r.bytes).comp (learn_crewBlind r.die r.stamp)

theorem drainArriving_crewBlind (p : Arriving → Bool) : CrewBlind (fun s => s.drainArriving p) := fun s cs =>
  crewBlind_foldl applyArriving_crewBlind (s.arriving.filter p) { s with arriving := s.arriving.filter (fun w => !p w) } cs

theorem drainReplicas_crewBlind (p : Replica → Bool) : CrewBlind (fun s => s.drainReplicas p) := fun s cs =>
  crewBlind_foldl applyReplica_crewBlind (s.replicas.filter p) { s with replicas := s.replicas.filter (fun w => !p w) } cs

theorem heed_crewBlind (die : Nat) (clk : List Nat) : CrewBlind (fun s => s.heed die clk) :=
  ((drainArriving_crewBlind _).comp (drainReplicas_crewBlind _)).comp (learn_crewBlind die clk)

theorem acquireAt_crewBlind (scope crew blk core : Nat) : CrewBlind (fun s => s.acquireAt scope crew blk core) := fun s cs =>
  congrArg (fun t : State => { t with views := t.views.filter (fun v => v.crew ≠ crew) })
    (crewBlind_foldl (fun r : Narrow => crewBlind_foldl (fun d => heed_crewBlind d r.clk) (List.range 4)) (s.narrow.filter (fun r => r.pairs scope crew blk core)) s cs)

/-! ## Causes that leave the crew changed -/

/-- A cause found in execution with a change of the crew's counters and reported errors. -/
theorem raises_of_raiseIn {i : Instr} {s : State} {c : Crew} {sp : Spec} {bad : Crew → Bool} {body : Ctx → State → Res Done} {k : Cause} {g : Crew → Crew}
    (hexec : exec i s = issue sp bad body s) (hi : Issues s c sp bad)
    (hb : body (s.view c sp) (s.issued c sp) = .error (.raiseIn ((s.issued c sp).modCrew c.id g) k)) (hk : k.atIssue = false) (hg : ∀ e, (g e).id = e.id) :
    Raises i s c sp k (fun e => { e with ocnt := (g (s.issuing c sp)).ocnt, errs := (g (s.issuing c sp)).errs }) := by
  have hcrew : s.opening.atCursor?.map (startCrew s.opening) = some c := hi.crew
  obtain ⟨c0, hc0, hstart⟩ := Option.map_eq_some_iff.mp hcrew
  have hid : (tried s c0).id = c.id := by
    rw [← hstart, startCrew_id]
    exact (setSlot_keeps ..).1.trans (issueRegion_keeps ..).1
  have hraised : raisedCrew s.opening = some (tried s c0) := by
    rw [raisedCrew, hc0]
    rfl
  have hstate : ((s.issued c sp).modCrew c.id g).modCrew (tried s c0).id (fun e => { tried s c0 with ocnt := e.ocnt, errs := e.errs }) =
      s.opening.setCrew { tried s c0 with ocnt := (g (s.issuing c sp)).ocnt, errs := (g (s.issuing c sp)).errs } := by
    rw [State.issued, ← issuing_id s c sp, setCrew_modCrew _ _ (hg _), hid, ← issuing_id s c sp, ← hg, setCrew_modCrew]
    exact hid.trans ((issuing_id s c sp).symm.trans (hg _).symm)
  refine ⟨c0, hc0, ?_⟩
  rw [hexec, issue_stopped hi hb, issueStop, if_neg (by rw [hk]; decide), hraised]
  exact congrArg (fun t : State => Host.Outcome.next (({ t with order := s.order + 1 } : State).takeCause { k with queues := (queuedFor c sp).1 })) hstate

/-- An effect given as a state and the crews as the instruction issues. -/
theorem blindEffect_completes {s m : State} {c : Crew} {sp : Spec} {bad : Crew → Bool} {body : Ctx → State → Res Done} {wr : List Wr} (hi : Issues s c sp bad)
    (hs : Steady s c) (hb : body (s.view c sp) (s.issued c sp) = .ok { s := { m with crews := (s.issued c sp).crews }, wr := wr, ctl := false })
    (hcyc : m.cycle = s.cycle) : Answers (issue sp bad body s) (fun t => Completed s m t (s.issuing c sp) sp wr) :=
  effect_completes (m := { m with crews := (s.issued c sp).crews }) hi hs hb rfl hcyc

/-! ## waitc -/

/-- The waits with their classes. -/
theorem exec_waitc_eq_runWaitc : ∀ p ∈ ([(.waitcCp, 0), (.waitcGa, 1), (.waitcMx, 2), (.waitcFb, 3)] : List ((FormI → Instr) × Nat)),
    ∀ f s, exec (p.1 f) s = runWaitc f p.2 s := by
  intro p hp
  simp only [List.mem_cons, List.not_mem_nil, or_false] at hp
  rcases hp with rfl | rfl | rfl | rfl <;> exact fun f s => rfl

/-- The reserved fields of a wait. -/
def waitBad (f : FormI) : Crew → Bool := fun _ => f.imm.toNat / 256 ≠ 0 || f.d ≠ 0#8 || f.a ≠ 0#8 || f.sub ≠ 0#7

theorem runWaitc_eq_issue (f : FormI) (k : Nat) : ∃ body, (∀ s, runWaitc f k s = issue (specI f [] [] .none) (waitBad f) body s) ∧
    (∀ x s, x.act = 0#64 → body x s = .ok { s := s, wr := [], ctl := false }) ∧
    (∀ x s, x.act ≠ 0#64 → x.c.count k ≤ f.imm.toNat % 256 → x.c.err k = false → body x s = .ok { s := s.acquire 1 x.c, wr := [], ctl := false }) ∧
    (∀ x s, x.act ≠ 0#64 → x.c.count k ≤ f.imm.toNat % 256 → x.c.err k = true →
      body x s = .error (.raiseIn (s.modCrew x.id (fun c =>
        { c.setOc k (mkOcnt false 0 (c.count k)) with errs := c.errs.filter (fun e => !(e.2.1 == k && e.2.2.2 == c.gates.length)) }))
        (crewCause (if k = 3 then 0x0F else 0x0E) k (x.c.stat k) 0#64 0#64 true))) ∧
    (∀ x s, x.act ≠ 0#64 → f.imm.toNat % 256 < x.c.count k → (k = 3 → ∀ o ∈ s.ops, o.crew = x.id → o.cls = 3 → s.heldPort o = none) →
      body x s = .error .hold) := by
  unfold runWaitc
  refine ⟨_, fun s => rfl, fun x s h => if_pos h, fun x s h hn he => ?_, fun x s h hn he => ?_, fun x s h hn ho => ?_⟩
  · simp only [h, if_false, not_lt.mpr hn, he, Bool.false_eq_true]
  · simp only [h, if_false, not_lt.mpr hn, he, if_true]
  · have hheld : (if k = 3 then ((s.ops.filter (fun o => o.crew == x.id && o.cls == 3 && !o.dropped && o.level == x.c.gates.length)).take
        (x.c.count 3 - f.imm.toNat % 256)).findSome? (fun o => s.heldPort o) else none) = none := by
      by_cases hk : k = 3
      · rw [if_pos hk, List.findSome?_eq_none_iff]
        intro o hmem
        obtain ⟨hops, hpred⟩ := List.mem_filter.mp (List.mem_of_mem_take hmem)
        simp only [Bool.and_eq_true, beq_iff_eq] at hpred
        exact ho hk o hops hpred.1.1.1 hpred.1.1.2
      · rw [if_neg hk]
    simp only [h, if_false, hn, if_true, hheld]

theorem waitForCommands : WaitForCommands := by
  intro p hp f s c k n sp x hi hs
  obtain ⟨body, hissue, hidle, hdone, herr, hwait⟩ := runWaitc_eq_issue f k
  have hexec : ∀ s, exec (p.1 f) s = issue sp (waitBad f) body s := fun s => (exec_waitc_eq_runWaitc p hp f s).trans (hissue s)
  have hfields := view_c_fields s c sp
  have hoc : x.c.ocnt = c.ocnt := hfields.2.2.2.2.2.2.2.1
  have hcount : x.c.count k = c.count k := congrArg (fun o : List Word => (o.getD k 0#32).toNat % 256) hoc
  have herrk : x.c.err k = c.err k := congrArg (fun o : List Word => (o.getD k 0#32).getLsbD 31) hoc
  have hstat : x.c.stat k = c.stat k := congrArg (fun o : List Word => bitsOf (o.getD k 0#32).toNat 27 24) hoc
  refine ⟨fun hact => ?_, fun hact hn he => ?_, fun hact hn he => ?_, fun hact hn ho => ?_⟩
  · rw [hexec]
    exact effect_completes (m := s.issued c sp) (sp := sp) hi hs (hidle x _ hact) rfl rfl
  · have hb := hdone x (s.issued c sp) hact (by rw [hcount]; exact hn) (by rw [herrk]; exact he)
    have hstate : (s.issued c sp).acquire 1 x.c = { s.opening.acquireAt 1 c.id c.blk c.core with crews := (s.issued c sp).crews } := by
      rw [State.acquire, view_c_id, hfields.2.1, hfields.2.2.1]
      exact acquireAt_crewBlind 1 c.id c.blk c.core s.opening (s.issued c sp).crews
    rw [hstate] at hb
    rw [hexec]
    exact blindEffect_completes (sp := sp) hi hs hb (acquireAt_memStep s.opening 1 c.id c.blk c.core).cycle
  · have hb := herr x (s.issued c sp) hact (by rw [hcount]; exact hn) (by rw [herrk]; exact he)
    rw [hstat] at hb
    have hraise := raises_of_raiseIn (sp := sp) (hexec s) hi hb rfl (fun e => rfl)
    obtain ⟨hocnt, hlevel, herrs⟩ : (s.issuing c sp).ocnt = c.ocnt ∧ (s.issuing c sp).gates = c.gates ∧ (s.issuing c sp).errs = c.errs := by
      rw [issuing_frame]
      exact ⟨rfl, rfl, rfl⟩
    have hcnt : (s.issuing c sp).count k = c.count k := congrArg (fun o : List Word => (o.getD k 0#32).toNat % 256) hocnt
    dsimp only [Crew.setOc] at hraise
    rw [hocnt, hlevel, herrs, hcnt] at hraise
    exact hraise
  · have hb := hwait x (s.issued c sp) hact (by rw [hcount]; exact hn) ho
    exact (hexec s).trans ((issue_stopped (sp := sp) hi hb).trans rfl)

theorem waitsComplete : WaitsComplete := by
  intro f s c hi hs done
  have hgo : ∀ p ∈ ([(.waitcCp, 0), (.waitcGa, 1), (.waitcMx, 2), (.waitcFb, 3)] : List ((FormI → Instr) × Nat)), done p.2 →
      Answers (exec (p.1 f) s) (GoneOn s c) := fun p hp hdone => by
    obtain ⟨hidle, hready, -⟩ := waitForCommands p hp f s c hi hs
    by_cases hact : (s.view c (specI f [] [] .none)).act = 0#64
    · exact answers_mono (hidle hact) fun t ht => goneOn_of_completed hi.crew (issuing_id ..) ht
    · exact answers_mono (hready hact hdone.1 hdone.2) fun t ht => goneOn_of_completed hi.crew (issuing_id ..) ht
  exact ⟨hgo (.waitcCp, 0) (by simp), hgo (.waitcGa, 1) (by simp), hgo (.waitcMx, 2) (by simp), hgo (.waitcFb, 3) (by simp)⟩

/-- Settles O24. -/
theorem commandAccounting : Obligations.CommandAccounting := ⟨commandCountedOff, waitForCommands, waitsComplete⟩

end Sys2Proof.Proofs.CommandCounting
end

