-- ==== Sys2Proof/Proofs/ArrivalAndTileSignals.lean ====
section
/-!
PROOF. Proofs/ArrivalAndTileSignals.lean: arrival counters and tile signals (08 R183, R184).
-/

namespace Sys2Proof.Proofs.ArrivalAndTileSignals

open Sys2Proof Sys2Proof.Machine Sys2Proof.Claims Sys2Proof.Proofs.IssueRules Sys2Proof.Proofs.MatrixInstructions Sys2Proof.Proofs.MemoryFrames
open Sys2Proof.Proofs.AccessRules Sys2Proof.Proofs.StoreRows Sys2Proof.Proofs.CommandRows Sys2Proof.Proofs.CommandCounting Sys2Proof.Proofs.PrefetchRows

/-! ## Arrival counters -/

/-- An effect for a nonempty `act`; with an empty one nothing happens. -/
def whenActing (eff : Ctx → State → Res Done) : Ctx → State → Res Done :=
  fun x s => if x.act = 0#64 then .ok { s := s, wr := [], ctl := false } else eff x s

theorem whenActing_outsideGate (eff : Ctx → State → Res Done) :
    (fun x s => if x.act = 0#64 then .ok { s := s, wr := [], ctl := false } else if x.c.callee then .error (gateForbid x.c) else eff x s) =
      outsideGate (whenActing eff) := by
  funext x s
  by_cases hact : x.act = 0#64 <;> simp [outsideGate, whenActing, hact]

theorem exec_arrinit_eq_issue (f : FormI) (s : State) : exec (.arrinit f) s = issue (specI f [one f.a] [] .none)
    (fun _ => f.imm.toNat / 64 ≠ 0 || f.sub ≠ 0#7 || f.d ≠ 0#8) (outsideGate (whenActing (fun x s =>
      .ok { s := s.modBlock x.c.blk (fun b => { b with arr := b.arr.set (f.imm.toNat % 64) (x.v0 s f.a) }), wr := [], ctl := false }))) s := by
  rw [← whenActing_outsideGate]
  rfl

theorem exec_arrw_eq_issue (f : FormI) (s : State) : exec (.arrw f) s = issue (specI f [one f.a] [] .none)
    (fun _ => f.imm.toNat / 64 ≠ 0 || f.sub ≠ 0#7 || f.d ≠ 0#8) (outsideGate (whenActing (fun x s =>
      if (arrOf s x.c.blk (f.imm.toNat % 64)).toNat < (x.v0 s f.a).toNat then .error .hold
      else .ok { s := s.acquire 2 x.c, wr := [], ctl := false }))) s := by
  rw [← whenActing_outsideGate]
  rfl

theorem exec_arrrd_eq_issue (f : FormI) (s : State) : exec (.arrrd f) s = issue (specI f [] [one f.d] .var)
    (fun _ => f.imm.toNat / 64 ≠ 0 || f.sub ≠ 0#7 || f.a ≠ 0#8)
    (outsideGate (justWrite (fun x s => [Wr.full (x.d 0) x.act (fun _ => arrOf s x.c.blk (f.imm.toNat % 64))]))) s := rfl

section Acting

variable {s : State} {c : Crew} {sp : Spec} {bad : Crew → Bool} {eff : Ctx → State → Res Done}

theorem whenActing_idle (hi : Issues s c sp bad) (hs : Steady s c) (hact : (s.view c sp).act = 0#64) :
    Answers (issue sp bad (outsideGate (whenActing eff)) s) (fun t => Completed s s.opening t (s.issuing c sp) sp []) :=
  effect_completes (m := s.issued c sp) hi hs ((outsideGate_view _ _ (.inl hact)).trans (if_pos hact)) rfl rfl

theorem whenActing_eq (hact : (s.view c sp).act ≠ 0#64) (hgates : c.gates = []) (m : State) :
    outsideGate (whenActing eff) (s.view c sp) m = eff (s.view c sp) m := (outsideGate_view _ _ (.inr hgates)).trans (if_neg hact)

end Acting

/-- An acquire of the crew that issues. -/
theorem acquire_issued (s : State) (c : Crew) (sp : Spec) (scope : Nat) : (s.issued c sp).acquire scope (s.view c sp).c =
    { s.opening.acquireAt scope c.id c.blk c.core with crews := (s.issued c sp).crews } := by
  obtain ⟨-, hblk, hcore, -⟩ := view_c_fields s c sp
  rw [State.acquire, view_c_id, hblk, hcore]
  exact acquireAt_crewBlind scope c.id c.blk c.core s.opening (s.issued c sp).crews

/-- Settles O25. -/
theorem arrivalCounters : Obligations.ArrivalCounters := by
  intro f s c i sp x a
  have hblk : x.c.blk = c.blk := (view_c_fields s c sp).2.1
  refine ⟨fun hi hs => ⟨fun hact => ⟨?_, ?_⟩, fun hact hgates => ⟨?_, fun hle => ?_, fun hlt => ?_⟩, fun hact hgates => ⟨?_, ?_⟩⟩, ?_⟩
  · rw [exec_arrinit_eq_issue]
    exact whenActing_idle (sp := sp) hi hs hact
  · rw [exec_arrw_eq_issue]
    exact whenActing_idle (sp := sp) hi hs hact
  · rw [exec_arrinit_eq_issue]
    refine effect_completes (m := (s.issued c sp).modBlock c.blk (fun b => { b with arr := b.arr.set i a })) (sp := sp) hi hs
      ((whenActing_eq hact hgates _).trans ?_) rfl rfl
    rw [hblk]
    rfl
  · rw [exec_arrw_eq_issue]
    refine blindEffect_completes (sp := sp) hi hs ((whenActing_eq hact hgates _).trans ?_) (acquireAt_memStep s.opening 2 c.id c.blk c.core).cycle
    rw [← acquire_issued]
    refine if_neg (not_lt.mpr ?_)
    rw [hblk]
    exact hle
  · rw [exec_arrw_eq_issue]
    refine (issue_stopped (sp := sp) (e := .hold) hi ((whenActing_eq hact hgates _).trans (if_pos ?_))).trans rfl
    rw [hblk]
    exact hlt
  · rw [exec_arrinit_eq_issue]
    exact outsideGate_raises (sp := sp) hi hact hgates
  · rw [exec_arrw_eq_issue]
    exact outsideGate_raises (sp := sp) hi hact hgates
  · intro sp x
    have hblk : x.c.blk = c.blk := (view_c_fields s c sp).2.1
    refine ⟨fun hi hs hout => ?_, fun hi hact hgates => ?_⟩
    · rw [exec_arrrd_eq_issue, ← hblk]
      exact outsideGate_completes (sp := sp) hi hs hout
    · rw [exec_arrrd_eq_issue]
      exact outsideGate_raises (sp := sp) hi hact hgates

/-! ## Tile signals -/

/-- The signal that a tsig posts for the access of the lowest lane. -/
def signalOf (f : FormM) (x : Ctx) (s : State) (a : Acc) : Op :=
  let await := s.ops.filter (fun p => p.crew == x.id && f.d.getLsbD p.cls)
  { newOp x s 0 0x298 [BitVec.ofNat 32 a.hidx, BitVec.ofNat 32 a.off, BitVec.ofNat 32 (a.off / 2 ^ 32), x.v0 s f.b, BitVec.ofNat 32 (f.d.toNat % 16), 0#32,
      BitVec.ofNat 32 a.e.base, BitVec.ofNat 32 (a.e.base / 2 ^ 32), BitVec.ofNat 32 a.e.space, BitVec.ofNat 32 a.e.kd] with
    await := await.map (fun p => p.id)
    met := (await.filter (fun p => p.done && p.stat ≠ 0)).map (fun p => (p.id, p.stat)) ++
      (x.c.errs.filter (fun r => f.d.getLsbD r.2.1 && r.2.2.2 == x.c.gates.length)).map (fun r => (r.1, r.2.2.1)) }

theorem exec_tsig_eq_issue (f : FormM) : ∃ body,
    (∀ s, exec (.tsig f) s = issue { specM f (mSrcs f false ++ [one f.b]) [] .none false with ends := true } (fun _ => hndBad f || f.d.toNat / 16 ≠ 0) body s) ∧
    (∀ x s, x.act = 0#64 → body x s = .ok { s := s, wr := [], ctl := false }) ∧
    (∀ x s a, x.act ≠ 0#64 → formAcc f x s false (ofs10 f * 4) x.m0 = [a] → checkSig s x.c [a] 4 [1, 3, 5, 8] (fun e => e.w && e.atom) = none →
      canPost s x.c 0 = true → ∃ late, body x s = .ok { s := s.postOp (signalOf f x s a), wr := [], ctl := false, late := late }) := by
  simp only [exec_tsig, execTsig]
  refine ⟨_, fun s => rfl, fun x s h => if_pos h, fun x s a h has hcheck hroom => ?_⟩
  simp only [h, if_false, has, hcheck, hroom, Bool.not_true, Bool.false_eq_true]
  exact ⟨_, rfl⟩

/-- Settles O26. -/
theorem tileSignals : Obligations.TileSignals := by
  intro f s c sp x s1 hi hs
  obtain ⟨body, hexec, hidle, hpost⟩ := exec_tsig_eq_issue f
  rw [hexec]
  refine ⟨fun hact => effect_completes (m := s1) (sp := sp) hi hs (hidle x s1 hact) rfl rfl, ?_⟩
  intro hact hroom a has hvalid hwait hspace hw hatom hpos hin hcan halign await
  have hm0 : x.m0 = 1#64 <<< x.l0 := if_neg hact
  rw [← hm0] at has
  have hcheck : checkSig s1 x.c [a] 4 [1, 3, 5, 8] (fun e => e.w && e.atom) = none := by
    refine checkSig_of_checks ?_ ?_ ?_ ?_ <;> intro b hb <;> rw [List.mem_singleton.mp hb]
    · exact hwait
    · exact ⟨hvalid, hspace, by rw [hw, hatom]; rfl⟩
    · exact ⟨hpos, hin, .inr hcan⟩
    · exact halign
  obtain ⟨late, hb⟩ := hpost x s1 a hact has hcheck ((canPost_iff ..).mpr hroom)
  obtain ⟨howner, hcommand, hfresh⟩ := posted_newOp s c sp 0 0x298 [BitVec.ofNat 32 a.hidx, BitVec.ofNat 32 a.off, BitVec.ofNat 32 (a.off / 2 ^ 32), x.v0 s1 f.b,
    BitVec.ofNat 32 (f.d.toNat % 16), 0#32, BitVec.ofNat 32 a.e.base, BitVec.ofNat 32 (a.e.base / 2 ^ 32), BitVec.ofNat 32 a.e.space, BitVec.ofNat 32 a.e.kd]
  obtain ⟨-, -, -, -, -, -, hgates, -, herrs, -⟩ := view_c_fields s c sp
  refine answers_mono (postOp_completes (o := signalOf f x s1 a) (sp := sp) hi hs rfl hb) fun t ht => ⟨signalOf f x s1 a, ⟨howner, hcommand, hfresh⟩, rfl, ?_, ht⟩
  rw [← herrs, ← hgates]
  rfl

end Sys2Proof.Proofs.ArrivalAndTileSignals
end

