-- ==== Sys2Proof/Proofs/TileTaskRows.lean ====
section
/-!
PROOF. Proofs/TileTaskRows.lean: tile records and tile tasks (09 R192, R193, R196 to R201).
-/

namespace Sys2Proof.Proofs.TileTaskRows

open Sys2Proof Sys2Proof.Machine Sys2Proof.Claims Sys2Proof.Proofs.IssueRules Sys2Proof.Proofs.MatrixInstructions
open Sys2Proof.Proofs.CommandRows Sys2Proof.Proofs.ArrivalAndTileSignals

/-! ## tshape -/

theorem exec_tshape_eq_issue (f : FormT) (s : State) : exec (.tshape f) s = issue (specT f [grp f.a 8] [] .none false)
    (fun _ => f.b ≠ 0#8 || f.c ≠ 0#8 || f.d ≠ 0#8 || f.sub ≠ 0#10) (outsideGate (whenActing (fun x s =>
      if !trZero (x.g0 s f.a 8) && trBad (x.g0 s f.a 8) then .error (.raise (accumCause 2 0#64))
      else .ok { s := s.modCrew x.id (fun c => { c with trecs := c.trecs.set f.trec.toNat (x.g0 s f.a 8) }), wr := [], ctl := false }))) s := by
  rw [← whenActing_outsideGate]
  rfl

theorem tileRecords : TileRecords := by
  intro f s c sp x r hi hs
  have hr : x.g0 (s.issued c sp) f.a 8 = r := rfl
  refine ⟨fun hact => ?_, fun hact hgates hok => ?_, fun hact hgates hzero hbad => ?_, fun hact hgates => ?_⟩ <;> rw [exec_tshape_eq_issue]
  · exact whenActing_idle (sp := sp) hi hs hact
  · have htrecs : (s.issuing c sp).trecs = c.trecs := by rw [issuing_frame]
    have hno : ¬ (!trZero r && trBad r) = true := by rcases hok with h | h <;> simp [h]
    have hb := (whenActing_eq (eff := fun x s => if !trZero (x.g0 s f.a 8) && trBad (x.g0 s f.a 8) then .error (.raise (accumCause 2 0#64))
      else .ok { s := s.modCrew x.id (fun c => { c with trecs := c.trecs.set f.trec.toNat (x.g0 s f.a 8) }), wr := [], ctl := false })
      hact hgates (s.issued c sp)).trans (if_neg hno)
    rw [← htrecs]
    exact issue_completes (m := s.issued c sp) (sp := sp) (g := fun e => { e with trecs := e.trecs.set f.trec.toNat r }) hi hs hb rfl rfl
      (fun e => rfl) (fun e k => by cases k <;> rfl) (fun e => rfl)
  · refine (issue_stopped (sp := sp) (e := .raise (accumCause 2 0#64)) hi ((whenActing_eq hact hgates _).trans (if_pos ?_))).trans rfl
    rw [hr, hzero, hbad]
    rfl
  · exact outsideGate_raises (sp := sp) hi hact hgates

/-! ## Tasks -/

/-- A task is an issue whose effect posts it where its checks pass and it finds room. -/
theorem runTask_eq_issue (f : FormT) (opc : Nat) (used : List Opnd) (bad hint : Bool) (wrong : Ctx → State → Option Nat)
    (args md : Ctx → State → List Word) : ∃ body,
    (∀ s, runTask f opc used bad hint wrong args md s = issue (taskSpec f used hint)
      (fun c => bad || (!f.sub.getLsbD 0 && f.d ≠ 0#8) || (match wrong (s.view c (taskSpec f used hint)) s.opening with
        | some n => decide (8 ≤ n)
        | none => false)) body s) ∧
    (∀ x s, wrong x s = none → x.act = 0#64 → body x s = .ok { s := s, wr := [], ctl := false }) ∧
    (∀ x s, wrong x s = none → x.act ≠ 0#64 → x.c.gates = [] →
      issueCheck s x.c opc (x.c.trecs.getD f.trec.toNat []) (taskRows f x s) f.sub.toNat ((args x s).getD 2 0#32).toNat = none →
      canPost s x.c 2 = true → s.spillFull x.c (isSparse opc) = false →
      body x s = .ok { s := s.postOp (newTask f opc x s (args x s) (md x s)), wr := [], ctl := false }) := by
  unfold runTask
  refine ⟨_, fun s => rfl, fun x s hw hact => ?_, fun x s hw hact hgates hcheck hroom hspill => ?_⟩
  · simp only [hw, hact, if_true]
  · have hcallee : ¬ x.c.callee = true := fun h => (callee_iff _).mp h hgates
    simp only [hw, hact, if_false, hcallee, hcheck, hroom, hspill, Bool.not_true, Bool.or_self, Bool.false_eq_true]

/-- The fields of `Issues` with another last check. -/
theorem issues_of_rest {s : State} {c : Crew} {sp : Spec} {bad bad' : Crew → Bool} (h : Issues s c sp bad) (hrest : bad' (seenCrew s.opening c) = false) :
    Issues s c sp bad' :=
  ⟨h.crew, h.eligible, h.allowed, h.privileged, h.fields, hrest, h.queues⟩

theorem issueCheck_eq_none {s : State} {c : Crew} {sp : Spec} {opc mv sub ctl : Nat} {r : List Word} (h : TaskFits s c opc r mv sub ctl) :
    issueCheck (s.issued c sp) (s.view c sp).c opc r mv sub ctl = none := by
  obtain ⟨b, hb, hharv, hslices, hunits⟩ := h.home
  have hblock : (s.issued c sp).block? (s.view c sp).c.blk = some b := by
    rw [(view_c_fields s c sp).2.1]
    exact hb
  have hform : ¬ (decide (tkindOf opc = .mma) && (trSparse r != isSparse opc || (trPart r && (opc == 0x30F || opc == 0x310)))) = true := by
    by_cases hk : tkindOf opc = .mma
    · obtain ⟨hsparse, hpart⟩ := h.form hk
      by_cases hint : opc = 0x30F ∨ opc = 0x310
      · simp [hsparse, hpart hint]
      · rw [not_or] at hint
        simp [hsparse, hint.1, hint.2]
    · simp [hk]
  have hgroup : ¬ (decide (1 < trSlices r) && decide (b.gsize < trSlices r)) = true := by
    simpa using hslices
  have hheld : ¬ (b.harv || (decide ((if trSlices r ≤ 1 then 0 else b.rank) < trSlices r) &&
      (taskUnits opc r mv sub ctl (if trSlices r ≤ 1 then 0 else b.rank)).any (fun u => !(s.issued c sp).holdsUnit b none u))) = true := by
    rw [hharv, Bool.false_or, Bool.and_eq_true, decide_eq_true_eq, List.any_eq_true]
    rintro ⟨hlt, u, hu, hno⟩
    rw [show (s.issued c sp).holdsUnit b none u = true from hunits hlt u hu] at hno
    cases hno
  simp only [issueCheck, hblock, h.defined, h.legal, Bool.or_self, Bool.false_eq_true, if_false, hform, hgroup, hheld]

theorem posted_newTask (f : FormT) (s : State) (c : Crew) (sp : Spec) (opc : Nat) (args md : List Word) :
    Posted s c 2 opc (args ++ [BitVec.ofNat 32 (taskRows f (s.view c sp) (s.issued c sp)), BitVec.ofNat 32 f.sub.toNat])
      (newTask f opc (s.view c sp) (s.issued c sp) args md) := by
  obtain ⟨hissuer, hcommand, hfresh⟩ := posted_newOp s c sp 2 opc (args ++ [BitVec.ofNat 32 (taskRows f (s.view c sp) (s.issued c sp)), BitVec.ofNat 32 f.sub.toNat])
  exact ⟨hissuer, hcommand, hfresh⟩

section Row

variable {r : RowTask} {wrong : FormT → Ctx → State → Option Nat} {md : FormT → Ctx → State → List Word}

/-- The argument words of a row before its rows and SUB. -/
def taskArgs (r : RowTask) (f : FormT) (x : Ctx) (s : State) : List Word :=
  r.args f (fun q => rowAt (x.row s q.toNat) x.l0) (fun q i => rowAt (x.plain s (q.toNat + i)) x.l0)

/-- A row of the tasks holds for an instruction that runs a task with the row's words. -/
theorem task_holds (hexec : ∀ (f : FormT) (s : State), exec (r.instr f) s = runTask f r.opc (r.used f) (r.bad f) r.hint (wrong f) (taskArgs r f) (md f) s)
    (hargs : ∀ (f : FormT) (x : Ctx) (s : State), (taskArgs r f x s).length = 4)
    (hseen : ∀ (f : FormT) (s : State) (c : Crew) (sp : Spec), wrong f (issueCtx s.opening (seenCrew s.opening c) sp) s.opening = wrong f (s.view c sp) s.opening)
    (hwrong : ∀ (f : FormT) (s : State) (c : Crew) (sp : Spec), wrong f (s.view c sp) (s.issued c sp) = wrong f (s.view c sp) s.opening)
    (hmd : ∀ (f : FormT) (s : State) (c : Crew) (sp : Spec), md f (s.view c sp) (s.issued c sp) = md f (s.view c sp) s.opening) : r.Holds wrong md := by
  intro f s c sp x rec0 mv hi hs hw
  obtain ⟨body, hissue, hidle, hpost⟩ := runTask_eq_issue f r.opc (r.used f) (r.bad f) r.hint (wrong f) (taskArgs r f) (md f)
  have hi' := issues_of_rest (bad' := fun c => r.bad f || (!f.sub.getLsbD 0 && f.d ≠ 0#8) || (match wrong f (s.view c sp) s.opening with
      | some n => decide (8 ≤ n)
      | none => false)) hi (by
    have hnone : wrong f (s.view (seenCrew s.opening c) sp) s.opening = none := (hseen f s c sp).trans hw
    rw [show (r.bad f || (!f.sub.getLsbD 0 && decide (f.d ≠ 0#8))) = false from hi.rest, Bool.false_or]
    simp only [hnone])
  have hw' : wrong f x (s.issued c sp) = none := (hwrong ..).trans hw
  rw [hexec, hissue]
  refine ⟨fun hact => effect_completes (m := s.issued c sp) (sp := sp) hi' hs (hidle x _ hw' hact) rfl rfl, fun hact hgates hroom hspill hfits => ?_⟩
  obtain ⟨hctx, -, -, -, -, -, hg, -, -, htrecs⟩ := view_c_fields s c sp
  have hrec : x.c.trecs.getD f.trec.toNat [] = rec0 := by rw [htrecs]
  have hrows : taskRows f x (s.issued c sp) = mv := by
    rw [taskRows, hrec]
    rfl
  have hspill' : (s.issued c sp).spillFull x.c (isSparse r.opc) = false := by
    rw [← hspill, State.spillFull, hctx]
    rfl
  have hctl : (taskArgs r f x (s.issued c sp)).getD 2 0#32 = (r.words f x s.opening mv).getD 2 0#32 := by
    rw [RowTask.words, List.getD_append _ _ _ _ (by rw [show (r.args f _ _).length = 4 from hargs f x s.opening]; decide)]
    rfl
  have hb := hpost x (s.issued c sp) hw' hact (hg.trans hgates) (by rw [hrec, hrows, hctl]; exact issueCheck_eq_none hfits) ((canPost_iff ..).mpr hroom) hspill'
  refine answers_mono (postOp_completes (o := newTask f r.opc x (s.issued c sp) (taskArgs r f x (s.issued c sp)) (md f x (s.issued c sp))) (sp := sp) hi' hs rfl hb)
    fun t ht => ⟨_, ?_, hrec, hmd f s c sp, rfl, rfl, ht⟩
  have ho := posted_newTask f s c sp r.opc (taskArgs r f x (s.issued c sp)) (md f x (s.issued c sp))
  rw [hrows] at ho
  exact ho

end Row

theorem view_c_n (s : State) (c : Crew) (sp : Spec) : (s.view c sp).c.n = c.n := by rw [view_c_frame, issuing_frame]

theorem view_c_trecs (s : State) (c : Crew) (sp : Spec) : (s.view c sp).c.trecs = c.trecs := by rw [view_c_frame, issuing_frame]

/-- What the metadata's check looks at does not include MODE and PFMODE. -/
theorem metaBad_seenCrew (f : FormT) (opc : Nat) (s : State) (c : Crew) (sp : Spec) :
    metaBad f opc (s.view (seenCrew s.opening c) sp) s.opening = metaBad f opc (s.view c sp) s.opening := by
  rw [seenCrew_frame]
  simp only [metaBad, taskRows, view_c_n, view_c_trecs]
  rfl

theorem tileTasks : TileTasks := by
  constructor
  · intro r hr
    simp only [denseRows, Claims.mmaRow, List.mem_cons, List.not_mem_nil, or_false] at hr
    rcases hr with rfl | rfl | rfl | rfl | rfl | rfl | rfl | rfl | rfl | rfl | rfl | rfl <;>
      exact task_holds (fun f s => rfl) (fun f x s => rfl) (fun f s c sp => rfl) (fun f s c sp => rfl) (fun f s c sp => rfl)
  · intro r hr
    simp only [sparseRows, mmasRow, List.mem_cons, List.not_mem_nil, or_false] at hr
    rcases hr with rfl | rfl | rfl | rfl | rfl | rfl <;>
      exact task_holds (fun f s => rfl) (fun f x s => rfl) (fun f s c sp => metaBad_seenCrew ..) (fun f s c sp => rfl) (fun f s c sp => rfl)

/-- Settles O27: one effect for tshape, and one for the tasks with their words. -/
theorem tileRecordsAndTasks : Obligations.TileRecordsAndTasks := ⟨tileRecords, tileTasks⟩

end Sys2Proof.Proofs.TileTaskRows
end

