-- ==== Sys2Proof/Proofs/AccumulatorRows.lean ====
section
/-!
PROOF. Proofs/AccumulatorRows.lean: acca, accf and accld (09 R203 to R206).
-/

namespace Sys2Proof.Proofs.AccumulatorRows

open Sys2Proof Sys2Proof.Machine Sys2Proof.Claims Sys2Proof.Proofs.IssueRules Sys2Proof.Proofs.MatrixInstructions Sys2Proof.Proofs.CommandRows
open Sys2Proof.Proofs.ArrivalAndTileSignals Sys2Proof.Proofs.JoinExit

/-! ## Sets of units -/

/-- An interval of the numbers below a bound, in ascending order. -/
theorem filter_range_interval {n base k : Nat} (h : base + k ≤ n) :
    (List.range n).filter (fun u => decide (base ≤ u) && decide (u < base + k)) = List.range' base k := by
  have hsplit : List.range n = List.range' 0 base ++ (List.range' base k ++ List.range' (base + k) (n - (base + k))) := by
    rw [List.range'_append_1]
    conv_rhs => arg 2; rw [← Nat.zero_add base]
    rw [List.range'_append_1, List.range_eq_range']
    congr 1
    omega
  rw [hsplit, List.filter_append, List.filter_append, List.filter_eq_nil_iff.mpr, List.filter_eq_self.mpr, List.filter_eq_nil_iff.mpr]
  · simp
  all_goals
    intro u hu
    rw [List.mem_range'_1] at hu
    simp only [Bool.and_eq_true, decide_eq_true_eq]
    omega

/-- A mask of a set of lane numbers tells every number. -/
theorem mkMask_get_of_bounded {p : Nat → Bool} (h : ∀ u, p u = true → u < 64) (u : Nat) : (mkMask p).getLsbD u = p u := by
  by_cases hu : u < 64
  · exact mkMask_get p hu
  · rw [BitVec.getLsbD_of_ge _ _ (not_lt.mp hu), Bool.eq_false_iff.mpr fun hp => hu (h u hp)]

theorem getLsbD_dropUnits (us : List Nat) (m : BitVec 64) {u : Nat} (hu : u < 64) : (dropUnits m us).getLsbD u = (m.getLsbD u && !us.contains u) := by
  induction us generalizing m with
  | nil => simp [dropUnits]
  | cons v us ih =>
    refine (ih (m &&& ~~~(1#64 <<< v))).trans ?_
    have hone : (1#64 <<< v).getLsbD u = (u == v) := by
      by_cases huv : u = v
      · subst huv
        simp [hu]
      · rcases Nat.lt_or_gt_of_ne huv with h | h
        · simp [huv, h]
        · have : u - v ≠ 0 := by omega
          simp [huv, hu, this, not_lt.mpr h.le]
    rw [List.contains_cons, BitVec.getLsbD_and, BitVec.getLsbD_not, hone]
    simp only [hu, decide_true, Bool.true_and, Bool.not_or, Bool.and_assoc]

theorem dropUnits_eq_and_not (us : List Nat) (m : BitVec 64) : dropUnits m us = m &&& ~~~mkMask (fun u => us.contains u) := by
  apply BitVec.eq_of_getLsbD_eq
  intro u hu
  rw [getLsbD_dropUnits us m hu, BitVec.getLsbD_and, BitVec.getLsbD_not, mkMask_get _ hu]
  simp [hu]

/-! ## acca -/

/-- The request that an acca enters. -/
def requestOf (f : FormI) (x : Ctx) (s : State) : AccaReq :=
  { id := s.order, crew := x.id, slot := x.k, blk := x.c.blk, core := x.c.core, units := acUnits f,
    base := if acAt f then some (acBase f) else none, dst := x.d 0, mask := x.act, flight := s.order }

/-- A slot of a crew waits for the grant of its acca. -/
def awaitGrant (k : Bool) (n : Nat) (c : Crew) : Crew := c.setSlot k { c.slot k with accaWait := some n }

/-- The unit numbers of an acca are out of range. -/
def accaWrong (f : FormI) : Bool :=
  acUnits f = 0 || decide (64 < acUnits f) || (acAt f && decide (64 < acBase f + acUnits f)) || (!acAt f && acBase f ≠ 0)

/-- What an acca does for a nonempty `act`. -/
def enterRequest (f : FormI) (x : Ctx) (s : State) : Res Done :=
  if (s.block? x.c.blk).any (fun b => b.harv) then .error (.raise (accumCause 0 0#64))
  else if accaWrong f then .error (.raise (accumCause 4 0#64))
  else .ok { s := { s with accas := s.accas ++ [requestOf f x s] }.modCrew x.id (awaitGrant x.k s.order), wr := [Wr.full (x.d 0) 0#64 (fun _ => 0#32)], ctl := false }

theorem exec_acca_eq_issue (f : FormI) (s : State) : exec (.acca f) s = issue (specI f [] [one f.d] .var)
    (fun _ => f.imm.toNat / 2 ^ 14 ≠ 0 || f.a ≠ 0#8 || f.sub ≠ 0#7) (outsideGate (whenActing (enterRequest f))) s := by
  rw [← whenActing_outsideGate]
  rfl

theorem accaWrong_iff (f : FormI) : accaWrong f = true ↔ ¬(1 ≤ acUnits f ∧ acUnits f ≤ 64 ∧ (acAt f = true → acBase f + acUnits f ≤ 64) ∧ (acAt f = false → acBase f = 0)) := by
  unfold accaWrong
  cases acAt f <;> simp <;> omega

theorem awaitGrant_st (k : Bool) (n : Nat) (c : Crew) (j : Bool) : ((awaitGrant k n c).slot j).st = (c.slot j).st := by
  cases k <;> cases j <;> rfl

theorem acca_results (f : FormI) (s : State) (c : Crew) :
    let sp := specI f [] [one f.d] .var
    let x := s.view c sp
    Issues s c sp (fun _ => f.imm.toNat / 2 ^ 14 ≠ 0 || f.a ≠ 0#8 || f.sub ≠ 0#7) → Steady s c →
    (x.act = 0#64 → Answers (exec (.acca f) s) (fun t => Completed s s.opening t (s.issuing c sp) sp [])) ∧
    (x.act ≠ 0#64 → c.gates = [] → (∀ b, s.block? c.blk = some b → b.harv = false) →
      (accaWrong f = false → Answers (exec (.acca f) s) (fun t => Completed s { s.opening with accas := s.accas ++ [requestOf f x (s.issued c sp)] } t
        (awaitGrant s.cur.slot s.order (s.issuing c sp)) sp [Wr.full (x.d 0) 0#64 (fun _ => 0#32)])) ∧
      (accaWrong f = true → exec (.acca f) s = .next (s.opening.takeCause (accumCause 4 0#64)))) := by
  intro sp x hi hs
  rw [exec_acca_eq_issue]
  refine ⟨whenActing_idle (sp := sp) hi hs, fun hact hgates hharv => ?_⟩
  have hany : ¬ ((s.issued c sp).block? x.c.blk).any (fun b => b.harv) = true := by
    rw [(view_c_fields s c sp).2.1]
    intro h
    obtain ⟨b, hb, hh⟩ := (Option.any_eq_true ..).mp h
    rw [hharv b hb] at hh
    cases hh
  have hbody := (whenActing_eq (eff := enterRequest f) hact hgates (s.issued c sp)).trans (if_neg hany)
  refine ⟨fun hok => ?_, fun hwrong => (issue_stopped (sp := sp) hi (hbody.trans (if_pos hwrong))).trans rfl⟩
  exact issue_completes (m := { s.issued c sp with accas := s.accas ++ [requestOf f x (s.issued c sp)] }) (sp := sp) (g := awaitGrant s.cur.slot s.order) hi hs
    (hbody.trans (if_neg (by rw [hok]; decide))) rfl rfl (fun e => (setSlot_keeps ..).1) (fun e j => awaitGrant_st ..) (fun e => (setSlot_keeps ..).2.1)

/-! ## accf -/

/-- The units that an accf takes. -/
def takenUnits (f : FormI) (b : Block) : List Nat :=
  ((List.range (acUnits f)).map (fun i => acBase f + i)).filter (fun u => b.units.getLsbD u || b.spilled.getLsbD u)

/-- The units of a block that tasks still use. -/
def usedUnits (s : State) (b : Block) (us : List Nat) : List Nat := us.filter (fun u => !(s.usersOf b u).isEmpty)

/-- The state after a block has given back units. -/
def giveBack (s : State) (b : Block) (us used : List Nat) : State :=
  { s.modBlock b.id (fun q => { q with
      units := dropUnits q.units us
      spilled := dropUnits q.spilled (us.filter (fun u => !used.contains u)) }) with
    spills := s.spills.filter (fun p => !(p.1 == b.id && us.contains p.2.1 && !used.contains p.2.1))
    accfs := s.accfs ++ (used.filter (fun u => !s.accfs.any (fun a => a.blk == b.id && a.unit == u))).map (fun u =>
      { blk := b.id, core := b.core, unit := u, tasks := s.usersOf b u }) }

/-- What an accf does for a nonempty `act`. -/
def leaveUnits (f : FormI) (x : Ctx) (s : State) : Res Done :=
  if acUnits f = 0 || decide (64 < acUnits f) || decide (64 < acBase f + acUnits f) then .error (.raise (accumCause 4 0#64))
  else
    match s.block? x.c.blk with
    | none => .ok { s := s, wr := [], ctl := false }
    | some b => .ok { s := giveBack s b (takenUnits f b) (usedUnits s b (takenUnits f b)), wr := [], ctl := false }

theorem exec_accf_eq_issue (f : FormI) (s : State) : exec (.accf f) s = issue { specI f [] [] .none with ends := true }
    (fun _ => f.imm.toNat / 2 ^ 14 ≠ 0 || acAt f || f.a ≠ 0#8 || f.d ≠ 0#8 || f.sub ≠ 0#7) (outsideGate (whenActing (leaveUnits f))) s := by
  rw [← whenActing_outsideGate]
  rfl

/-- A unit is among those that an accf names and the block has. -/
def heldUnit (f : FormI) (b : Block) (u : Nat) : Bool :=
  decide (acBase f ≤ u) && decide (u < acBase f + acUnits f) && (b.units.getLsbD u || b.spilled.getLsbD u)

theorem takenUnits_eq_filter (f : FormI) (b : Block) (h : acBase f + acUnits f ≤ 64) : takenUnits f b = (List.range 64).filter (heldUnit f b) := by
  rw [takenUnits, ← List.range'_eq_map_range, ← filter_range_interval h, List.filter_filter]
  refine List.filter_congr fun u _ => Bool.and_comm ..

theorem mem_takenUnits {f : FormI} {b : Block} (h : acBase f + acUnits f ≤ 64) (u : Nat) : (takenUnits f b).contains u = heldUnit f b u := by
  rw [takenUnits_eq_filter f b h, Bool.eq_iff_iff, List.contains_iff_mem, List.mem_filter, List.mem_range]
  refine ⟨And.right, fun hu => ⟨?_, hu⟩⟩
  simp only [heldUnit, Bool.and_eq_true, decide_eq_true_eq] at hu
  omega

theorem mem_usedUnits (s : State) (b : Block) (us : List Nat) (u : Nat) :
    (us.contains u && !(usedUnits s b us).contains u) = (us.contains u && (s.usersOf b u).isEmpty) := by
  have hmem : (usedUnits s b us).contains u = (us.contains u && !(s.usersOf b u).isEmpty) := by
    rw [Bool.eq_iff_iff, List.contains_iff_mem, usedUnits, List.mem_filter, Bool.and_eq_true, List.contains_iff_mem]
  rw [hmem]
  cases us.contains u <;> simp

theorem contains_unused (s : State) (b : Block) (us : List Nat) (u : Nat) :
    (us.filter (fun u => !(usedUnits s b us).contains u)).contains u = (us.contains u && (s.usersOf b u).isEmpty) := by
  rw [← mem_usedUnits, Bool.eq_iff_iff, List.contains_iff_mem, List.mem_filter, Bool.and_eq_true, List.contains_iff_mem]

theorem accf_results (f : FormI) (s : State) (c : Crew) :
    let sp : Spec := { specI f [] [] .none with ends := true }
    let x := s.view c sp
    Issues s c sp (fun _ => f.imm.toNat / 2 ^ 14 ≠ 0 || acAt f || f.a ≠ 0#8 || f.d ≠ 0#8 || f.sub ≠ 0#7) → Steady s c →
    (x.act = 0#64 → Answers (exec (.accf f) s) (fun t => Completed s s.opening t (s.issuing c sp) sp [])) ∧
    (x.act ≠ 0#64 → c.gates = [] → ¬(1 ≤ acUnits f ∧ acBase f + acUnits f ≤ 64) → exec (.accf f) s = .next (s.opening.takeCause (accumCause 4 0#64))) ∧
    (x.act ≠ 0#64 → c.gates = [] → 1 ≤ acUnits f → acBase f + acUnits f ≤ 64 → ∀ b, s.block? c.blk = some b →
      Answers (exec (.accf f) s) (fun t => Completed s (giveBack s.opening b (takenUnits f b) (usedUnits s.opening b (takenUnits f b))) t (s.issuing c sp) sp [])) := by
  intro sp x hi hs
  rw [exec_accf_eq_issue]
  refine ⟨whenActing_idle (sp := sp) hi hs, fun hact hgates hwrong => ?_, fun hact hgates h1 hfit b hb => ?_⟩ <;>
    have hbody := whenActing_eq (eff := leaveUnits f) hact hgates (s.issued c sp)
  · refine (issue_stopped (sp := sp) hi (hbody.trans (if_pos ?_))).trans rfl
    simp only [Bool.or_eq_true, decide_eq_true_eq]
    omega
  · refine effect_completes (m := giveBack (s.issued c sp) b (takenUnits f b) (usedUnits (s.issued c sp) b (takenUnits f b))) (sp := sp) hi hs
      ((hbody.trans (if_neg ?_)).trans ?_) rfl rfl
    · simp only [Bool.or_eq_true, decide_eq_true_eq]
      omega
    · have hblock : (s.issued c sp).block? x.c.blk = some b := by rwa [(view_c_fields s c sp).2.1]
      rw [hblock] <;> rfl

theorem heldUnit_lt {f : FormI} {b : Block} (h : acBase f + acUnits f ≤ 64) (u : Nat) (hu : heldUnit f b u = true) : u < 64 := by
  simp only [heldUnit, Bool.and_eq_true, decide_eq_true_eq] at hu
  omega

/-- What a block gives back, by the masks of its units that leave it and of those that are free at once. -/
theorem giveBack_eq (f : FormI) (s : State) (b : Block) (h : acBase f + acUnits f ≤ 64) :
    giveBack s b (takenUnits f b) (usedUnits s b (takenUnits f b)) =
      { s.modBlock b.id (fun q => { q with
          units := q.units &&& ~~~mkMask (heldUnit f b)
          spilled := q.spilled &&& ~~~mkMask (fun u => heldUnit f b u && (s.usersOf b u).isEmpty) }) with
        spills := s.spills.filter (fun p => !(p.1 == b.id && (mkMask (fun u => heldUnit f b u && (s.usersOf b u).isEmpty)).getLsbD p.2.1))
        accfs := s.accfs ++ ((List.range 64).filter (fun u => heldUnit f b u && !(s.usersOf b u).isEmpty &&
          !s.accfs.any (fun a => a.blk == b.id && a.unit == u))).map (fun u => { blk := b.id, core := b.core, unit := u, tasks := s.usersOf b u }) } := by
  have hmask : ∀ u, (mkMask (fun u => heldUnit f b u && (s.usersOf b u).isEmpty)).getLsbD u = (heldUnit f b u && (s.usersOf b u).isEmpty) :=
    mkMask_get_of_bounded fun u hu => heldUnit_lt h u (by rw [Bool.and_eq_true] at hu; exact hu.1)
  have hlate : (usedUnits s b (takenUnits f b)).filter (fun u => !s.accfs.any (fun a => a.blk == b.id && a.unit == u)) =
      (List.range 64).filter (fun u => heldUnit f b u && !(s.usersOf b u).isEmpty && !s.accfs.any (fun a => a.blk == b.id && a.unit == u)) := by
    rw [usedUnits, takenUnits_eq_filter f b h, List.filter_filter, List.filter_filter]
    refine List.filter_congr fun u _ => ?_
    cases heldUnit f b u <;> simp [Bool.and_comm]
  have hgone : (fun u => (takenUnits f b).contains u) = heldUnit f b := funext (mem_takenUnits h)
  have hfree : (fun u => ((takenUnits f b).filter (fun u => !(usedUnits s b (takenUnits f b)).contains u)).contains u) =
      fun u => heldUnit f b u && (s.usersOf b u).isEmpty := by
    funext u
    rw [contains_unused, mem_takenUnits h]
  have hspill : (fun p : Nat × Nat × List Byte => !(p.1 == b.id && (takenUnits f b).contains p.2.1 && !(usedUnits s b (takenUnits f b)).contains p.2.1)) =
      fun p => !(p.1 == b.id && (mkMask (fun u => heldUnit f b u && (s.usersOf b u).isEmpty)).getLsbD p.2.1) := by
    funext p
    rw [Bool.and_assoc, mem_usedUnits, mem_takenUnits h, hmask]
  rw [giveBack, hspill, hlate]
  simp only [dropUnits_eq_and_not, hgone, hfree]

theorem accumulatorUnits : AccumulatorUnits := by
  intro f s c units base at1
  have hbase : base = acBase f := by
    unfold acBase bitsOf
    exact congrArg (· % 64) (Nat.shiftRight_eq_div_pow _ 8).symm
  clear_value base
  subst hbase
  constructor
  · intro sp x hi hs
    obtain ⟨hidle, hacts⟩ := acca_results f s c hi hs
    refine ⟨hidle, fun hact hgates hharv => ⟨fun hok => ?_, fun hwrong => ?_⟩⟩
    · obtain ⟨-, hblk, hcore, -⟩ := view_c_fields s c sp
      have h := (hacts hact hgates hharv).1 (Bool.eq_false_iff.mpr fun h => (accaWrong_iff f).mp h hok)
      rw [requestOf, hblk, hcore] at h
      exact h
    · exact (hacts hact hgates hharv).2 ((accaWrong_iff f).mpr hwrong)
  · intro sp x hi hs
    obtain ⟨hidle, hraise, htake⟩ := accf_results f s c hi hs
    refine ⟨hidle, hraise, fun hact hgates h1 hfit b hb => ?_⟩
    refine answers_mono (htake hact hgates h1 hfit b hb) fun t ht => ⟨mkMask (heldUnit f b), mkMask (fun u => heldUnit f b u && (s.usersOf b u).isEmpty), ?_, fun u hu => ⟨?_, ?_⟩⟩
    · rw [giveBack_eq f _ b hfit] at ht
      exact ht
    · exact mkMask_get _ hu
    · rw [mkMask_get _ hu, Bool.not_not]
      rfl

/-! ## accld -/

/-- A lane of an accld whose offset is misaligned or whose words the block does not hold. -/
def badLoad (s : State) (x : Ctx) (a : Row) (n l : Nat) : Bool :=
  x.act.getLsbD l && (decide ((rowAt a l).toNat % 4 ≠ 0) || (List.range n).any (fun k =>
    decide (64 ≤ ((rowAt a l).toNat + 4 * k) / 4096) || !((s.block? x.c.blk).any (fun b => s.holdsUnit b none (((rowAt a l).toNat + 4 * k) / 4096)))))

/-- What an accld does. -/
def loadWords (f : FormT) (n : Nat) (x : Ctx) (s : State) : Res Done :=
  let a := x.row s f.a.toNat
  let bad := mkMask (badLoad s x a n)
  if bad ≠ 0#64 then .error (.raise (accumCause 0 bad))
  else if (maskLanes x.act).any (fun l => (List.range n).any (fun k =>
      (s.block? x.c.blk).any (fun b => b.spilled.getLsbD (((rowAt a l).toNat + 4 * k) / 4096)))) then .error .hold
  else .ok { s := s, ctl := false, wr := (List.range n).map (fun k => Wr.full (if n = 1 then x.d 0 else x.d 0 + k) x.act
    (fun l => BitVec.ofNat 32 (s.accWord x.c.core ((rowAt a l).toNat + 4 * k)))) }

theorem exec_accld_eq_issue (f : FormT) (s : State) : exec (.accld f) s = issue (specT f [one f.a] [grp f.d (2 ^ (f.sub.toNat % 4))] .var false)
    (fun _ => f.trec ≠ 0#4 || f.b ≠ 0#8 || f.c ≠ 0#8 || f.sub.toNat / 4 ≠ 0) (outsideGate (loadWords f (2 ^ (f.sub.toNat % 4)))) s := rfl

theorem accumulatorLoads : AccumulatorLoads := by
  intro f s c b n sp x off good hi hs hout hb
  obtain ⟨-, hblk, hcore, -⟩ := view_c_fields s c sp
  have hblock : (s.issued c sp).block? x.c.blk = some b := by rwa [hblk]
  have hbad : ∀ l, badLoad (s.issued c sp) x (x.row s.opening f.a.toNat) n l = true ↔ x.act.getLsbD l = true ∧ ¬ good l := by
    intro l
    have hword : ∀ k, (decide (64 ≤ (off l + 4 * k) / 4096) || !(s.holdsUnit b none ((off l + 4 * k) / 4096))) = false ↔
        off l + 4 * k < 2 ^ 18 ∧ s.holdsUnit b none ((off l + 4 * k) / 4096) = true := by
      intro k
      rw [Bool.or_eq_false_iff, decide_eq_false_iff_not, Bool.not_eq_false', Nat.not_le, Nat.div_lt_iff_lt_mul (by decide)]
      rfl
    have hall : (decide (off l % 4 ≠ 0) || (List.range n).any (fun k => decide (64 ≤ (off l + 4 * k) / 4096) || !(s.holdsUnit b none ((off l + 4 * k) / 4096)))) = false ↔
        good l := by
      rw [Bool.or_eq_false_iff, decide_eq_false_iff_not, not_not, List.any_eq_false]
      simp only [List.mem_range, Bool.not_eq_true, hword]
      rfl
    rw [badLoad, hblock, Bool.and_eq_true, ← hall, Bool.not_eq_false]
    rfl
  rw [exec_accld_eq_issue]
  refine ⟨fun hgood hsp => ?_, fun ⟨l, hl, hact, hno⟩ => ⟨mkMask (badLoad (s.issued c sp) x (x.row s.opening f.a.toNat) n), fun l hl => ?_, ?_⟩⟩
  · have hnone : mkMask (badLoad (s.issued c sp) x (x.row s.opening f.a.toNat) n) = 0#64 :=
      mkMask_zero fun l hl => Bool.eq_false_iff.mpr fun h => ((hbad l).mp h).2 (hgood l hl ((hbad l).mp h).1)
    have hstay : ¬ (maskLanes x.act).any (fun l => (List.range n).any (fun k =>
        ((s.issued c sp).block? x.c.blk).any (fun b => b.spilled.getLsbD (((rowAt (x.row s.opening f.a.toNat) l).toNat + 4 * k) / 4096)))) = true := by
      rw [hblock]
      simp [hsp]
    refine effect_completes (m := s.issued c sp) (sp := sp) hi hs
      ((((outsideGate_view _ _ hout).trans (if_neg (not_not.mpr hnone))).trans (if_neg hstay)).trans ?_) rfl rfl
    rw [hcore]
    congr 2
    refine List.map_congr_left fun k _ => ?_
    congr 1
    change (if n = 1 then x.d 0 else x.d 0 + k) = x.d 0 + (if n = 1 then 0 else k)
    split <;> rfl
  · rw [mkMask_get _ hl, hbad]
  · refine (issue_stopped (sp := sp) hi ((outsideGate_view _ _ hout).trans (if_pos ?_))).trans rfl
    intro hzero
    have hset : (mkMask (badLoad (s.issued c sp) x (x.row s.opening f.a.toNat) n)).getLsbD l = true := by rw [mkMask_get _ hl, hbad]; exact ⟨hact, hno⟩
    rw [show mkMask (badLoad (s.issued c sp) x (x.row s.opening f.a.toNat) n) = 0#64 from hzero] at hset
    simp at hset

/-- Settles O28. -/
theorem accumulatorInstructions : Obligations.AccumulatorInstructions := ⟨accumulatorUnits, accumulatorLoads⟩

end Sys2Proof.Proofs.AccumulatorRows
end

