-- ==== Sys2Proof/Proofs/SystemFields.lean ====
section
/-!
PROOF. Proofs/SystemFields.lean: the fields of format S (10 R210).
-/

namespace Sys2Proof.Proofs.SystemFields

open Sys2Proof Sys2Proof.Machine Sys2Proof.Claims

theorem sysF_eq (f : FormS) (hi lo : Nat) : sysF f hi lo = bodyBits f hi lo := by
  rw [sysF, bitsOf, Nat.shiftRight_eq_div_pow, bodyBits]

theorem sysRA_toNat (f : FormS) : (sysRA f).toNat = bodyRA f := by
  have h := f.body.isLt
  rw [sysRA, BitVec.extractLsb'_toNat, Nat.shiftRight_eq_div_pow, bodyRA]
  omega

theorem sysRB_toNat (f : FormS) : (sysRB f).toNat = bodyRB f := by
  rw [sysRB, BitVec.extractLsb'_toNat, Nat.shiftRight_eq_div_pow, bodyRB]

theorem ne_zero_iff_toNat (q : BitVec 8) : decide (q ≠ 0#8) = decide (q.toNat ≠ 0) := by
  rw [decide_eq_decide, ne_eq, ne_eq, BitVec.toNat_eq]
  rfl

theorem sysBad_eq (f : FormS) (ra rb : Bool) (n : Nat) :
    sysBad f ra rb n = ((!ra && decide (bodyRA f ≠ 0)) || (!rb && decide (bodyRB f ≠ 0)) || decide (bodyBits f 38 n ≠ 0)) := by
  rw [sysBad, ne_zero_iff_toNat, ne_zero_iff_toNat, sysRA_toNat, sysRB_toNat, sysF_eq]

end Sys2Proof.Proofs.SystemFields
end

