-- ==== Sys2Proof/Proofs/BarrierRows.lean ====
section
/-!
PROOF. Proofs/BarrierRows.lean: the barriers of a block and of a group (10 R211 to R213).
-/

namespace Sys2Proof.Proofs.BarrierRows

open Sys2Proof Sys2Proof.Machine Sys2Proof.Claims Sys2Proof.Proofs.IssueRules Sys2Proof.Proofs.MatrixInstructions Sys2Proof.Proofs.SystemFields
open Sys2Proof.Proofs.JoinExit Sys2Proof.Proofs.MemoryFrames Sys2Proof.Proofs.CommandRows Sys2Proof.Proofs.CommandCounting Sys2Proof.Proofs.ArrivalAndTileSignals
open Sys2Proof.Proofs.StoreRows

/-! ## The end of an instruction that changes other crews too -/

/-- An instruction that leaves its PC to the sequence and whose crew the rules of R24 leave alone ends with its crew at the next PC; the other
crews stay as its effect left them. -/
theorem issueEnd_next {s : State} {l : List Crew} {c c0 e : Crew} {sp : Spec} {d : Done} (hl : d.s.crews = replaced l c.id e)
    (h0 : l.find? (fun x => x.id == c.id) = some c0) (hid : e.id = c.id) (hctl : d.ctl = false) (hrun : (e.slot s.cur.slot).st = .running)
    (hoth : (e.slot (!s.cur.slot)).st ≠ .free ∨ e.depth = 0) :
    ∃ L : Crew, L = { e with regs := L.regs, flags := L.flags, flights := L.flights } ∧ (d.wr = [] → d.late = none → L.regs = e.regs) ∧
      issueEnd s.opening c sp d = { d.s with crews := replaced l c.id (nextCrew s.cur.slot s.cur.next sp.ends L), order := d.s.order + 1 } := by
  have hcrew : d.s.crew? c.id = some e := crew_of_replaced hl h0 hid
  generalize hb : (match d.s.cur.snap with
      | some sn => sn.regs
      | none => e.regs) = before
  generalize hL : lateCrew d.s.order d.late (landCrew d.s before sp d.wr (countCrew d.s sp d.wr e)) = L
  have hland : (landCrew d.s before sp d.wr (countCrew d.s sp d.wr e)).id = c.id := by rw [landCrew_frame]; exact hid
  have hcommit : (commit d.s c.id sp d.wr).modCrew c.id (lateCrew d.s.order d.late) = d.s.setCrew L := by
    have h : commit d.s c.id sp d.wr = d.s.setCrew (landCrew d.s before sp d.wr (countCrew d.s sp d.wr e)) := by
      unfold commit
      rw [hcrew]
      simp only [← hb] <;> rfl
    rw [h, ← hland, setCrew_modCrew _ _ (by rw [lateCrew_frame]), hL]
  have hLf : L = { e with regs := L.regs, flags := L.flags, flights := L.flights } := by
    rw [← hL, lateCrew_frame, landCrew_frame]
    rfl
  have hLregs : d.wr = [] → d.late = none → L.regs = e.regs := by
    intro hwr hlate
    rw [← hL, hwr, hlate]
    unfold landCrew countCrew lateCrew
    cases sp.lat with
    | fixed _ => rfl
    | var => rfl
    | none => cases (flagOf sp.h).isSome with
      | true => rfl
      | false => rfl
  refine ⟨L, hLf, hLregs, ?_⟩
  have hLid : L.id = c.id := by rw [hLf]; exact hid
  generalize hN : nextCrew s.cur.slot s.cur.next sp.ends L = N
  have hNf := nextCrew_frame s.cur.slot s.cur.next sp.ends L
  rw [hN] at hNf
  have hNid : N.id = c.id := by rw [hNf]; exact hLid
  have hslot : ∀ k, L.slot k = e.slot k := by intro k; rw [hLf]; cases k <;> rfl
  have hcrews : (d.s.setCrew L).modCrew c.id (nextCrew s.cur.slot s.cur.next sp.ends) = { d.s with crews := replaced l c.id N } := by
    rw [← hLid, setCrew_modCrew _ _ (by rw [hN, hNid, hLid]), hN, setCrew_replaced hl hid hNid, hLid]
  have hend : issueEnd s.opening c sp d = ({ d.s with crews := replaced l c.id N, order := d.s.order + 1 } : State).settleSlots c.id := by
    unfold issueEnd
    rw [hcommit, hctl]
    simp only [Bool.not_false, Bool.and_true]
    exact congrArg (fun t : State => ({ t with order := t.order + 1 } : State).settleSlots c.id) hcrews
  rw [hend, settleSlots_steady (c := N) (k := s.cur.slot) (crew_of_replaced rfl h0 hNid)]
  · rw [← hN, (nextCrew_here ..).2.2, hslot]
    exact hrun
  · rw [← hN, nextCrew_other, hslot, show (nextCrew s.cur.slot s.cur.next sp.ends L).depth = e.depth by rw [hN, hNf, hLf]]
    exact hoth

/-! ## Fields that a barrier reads -/

theorem view_c_barrier (s : State) (c : Crew) (sp : Spec) : (s.view c sp).c.arrive = c.arrive ∧ (s.view c sp).c.armed = c.armed ∧
    (s.view c sp).c.armedP = c.armedP ∧ (s.view c sp).c.carrive = c.carrive ∧ (s.view c sp).c.exited = c.exited := by
  rw [view_c_frame, issuing_frame]
  exact ⟨rfl, rfl, rfl, rfl, rfl⟩

theorem issuing_barrier (s : State) (c : Crew) (sp : Spec) : (s.issuing c sp).id = c.id ∧ (s.issuing c sp).blk = c.blk ∧ (s.issuing c sp).core = c.core ∧
    (s.issuing c sp).arrive = c.arrive ∧ (s.issuing c sp).exited = c.exited ∧ (s.issuing c sp).cin = c.cin ∧ (s.issuing c sp).carrive = c.carrive := by
  rw [issuing_frame]
  exact ⟨rfl, rfl, rfl, rfl, rfl, rfl, rfl⟩

theorem block?_id {s : State} {i : Nat} {b : Block} (h : s.block? i = some b) : b.id = i := by
  simpa using List.find?_some h

theorem block?_modBlock {s : State} {i : Nat} {b : Block} {g : Block → Block} (h : s.block? i = some b) (hg : ∀ q, (g q).id = q.id) :
    (s.modBlock i g).block? i = some (g b) := by
  have hid := block?_id h
  unfold State.block? State.modBlock at *
  rw [List.find?_map]
  have hcomp : ((fun q : Block => q.id == i) ∘ fun x => if x.id == i then g x else x) = fun q => q.id == i := by
    funext q
    by_cases hq : q.id = i <;> simp [hq, hg]
  rw [hcomp, h, Option.map_some]
  simp [hid]

/-! ## Barriers of a block -/

/-- What a bar or bar.arrive of a nonempty `act` does. -/
def arriveLanes (f : FormS) (wait : Bool) (b : Block) (x : Ctx) (s : State) : Res Done :=
  if x.c.arrive.getD (sysF f 3 0) 0#64 &&& x.act ≠ 0#64 then .error .hold
  else
    let id := sysF f 3 0
    let n := sysF f 8 4
    let cnt := if n = 0 then b.ncrews else n
    let waiting := fun (s : State) => s.modCrew x.id (fun c => c.setSlot x.k { c.slot x.k with barWait := some (false, id, b.barP.getLsbD id) })
    match b.barCnt.getD id none with
    | some k =>
      if k ≠ cnt then sysNop ((waiting s).umpire b false id 1 cnt)
      else sysNop ((if wait then waiting s else s).arriveBar b.id id cnt x.id x.act)
    | none => sysNop ((if wait then waiting s else s).arriveBar b.id id cnt x.id x.act)

/-- What a bar.wait of a nonempty `act` does. -/
def awaitPhase (f : FormS) (b : Block) (x : Ctx) (s : State) : Res Done :=
  if !x.c.armed.getLsbD (sysF f 3 0) then sysNop s
  else if x.c.armedP.getLsbD (sysF f 3 0) = b.barP.getLsbD (sysF f 3 0) then .error .hold
  else sysNop ((s.acquire 2 x.c).modCrew x.id (fun c => { seeBlockRegs c with armed := c.armed &&& ~~~(1#16 <<< sysF f 3 0) }))

theorem exec_bar_eq_issue (f : FormS) (arrive wait : Bool) : ∃ body,
    (∀ s, runBar f arrive wait s = issue (sysSpec f [] false true) (fun _ => bodyRA f ≠ 0 || bodyRB f ≠ 0 || bodyBits f 38 (if arrive then 9 else 4) ≠ 0) body s) ∧
    ∀ x s b, s.block? x.c.blk = some b → bodyBits f 8 4 ≤ b.ncrews →
      (x.act = 0#64 → body x s = sysNop s) ∧
      (x.act ≠ 0#64 → x.c.gates = [] → body x s = if arrive then arriveLanes f wait b x s else awaitPhase f b x s) := by
  have hbad : (fun _ : Crew => sysBad f false false (if arrive then 9 else 4)) =
      fun _ => bodyRA f ≠ 0 || bodyRB f ≠ 0 || bodyBits f 38 (if arrive then 9 else 4) ≠ 0 := by
    funext c
    rw [sysBad_eq]
    simp
  unfold runBar
  rw [hbad]
  refine ⟨_, fun s => rfl, ?_⟩
  intro x s b hb hn
  rw [← sysF_eq] at hn
  refine ⟨fun hact => ?_, fun hact hgates => ?_⟩
  · simp only [hb, hact, not_lt.mpr hn, if_false, if_true]
  · have hcallee : ¬ x.c.callee = true := fun h => (callee_iff _).mp h hgates
    simp only [hb, hact, not_lt.mpr hn, hcallee, if_false]
    cases arrive <;> rfl

section Release

variable (id : Nat) (counted : List Nat) (blk : Nat)

/-- A crew after the phase of barrier `id` of block `blk` completes. -/
def released (c : Crew) : Crew :=
  if c.blk ≠ blk then c
  else
    let c : Crew := if counted.contains c.id then { c with arrive := c.arrive.set id 0#64 } else c
    let w := waitsOn false id c.a || waitsOn false id c.b
    let c : Crew := if w then seeBlockRegs c else c
    { c with a := unwaitSlot false id c.a, b := unwaitSlot false id c.b, armed := if w then c.armed &&& ~~~(1#16 <<< id) else c.armed }

theorem unwaitSlot_frame (cl : Bool) (p : PcSlot) : unwaitSlot cl id p = { p with barWait := (unwaitSlot cl id p).barWait } := by
  unfold unwaitSlot
  split
  · split <;> rfl
  · rfl

theorem waitsOn_unwaitSlot (cl : Bool) (p : PcSlot) : waitsOn cl id (unwaitSlot cl id p) = false := by
  unfold unwaitSlot
  split
  · rename_i k i _ h
    split
    · rfl
    · rename_i hno
      simp only [waitsOn, h]
      simpa using hno
  · rename_i h
    simp [waitsOn, h]

theorem released_frame (c : Crew) : released id counted blk c = { c with
    a := (released id counted blk c).a, b := (released id counted blk c).b, arrive := (released id counted blk c).arrive,
    armed := (released id counted blk c).armed, srOld := (released id counted blk c).srOld } := by
  unfold released
  split
  · rfl
  · dsimp only
    split <;> split <;> rfl

theorem released_id (c : Crew) : (released id counted blk c).id = c.id := by rw [released_frame]

theorem released_of_other {c : Crew} (h : c.blk ≠ blk) : released id counted blk c = c := if_pos h

theorem released_eq {c : Crew} (h : c.blk = blk) : released id counted blk c = { c with
    a := unwaitSlot false id c.a
    b := unwaitSlot false id c.b
    arrive := if c.id ∈ counted then c.arrive.set id 0#64 else c.arrive
    armed := if waitsOn false id c.a || waitsOn false id c.b then c.armed &&& ~~~(1#16 <<< id) else c.armed
    srOld := if waitsOn false id c.a || waitsOn false id c.b then c.srOld.filter (fun o => !(srBlock o.sr && !o.own)) else c.srOld } := by
  unfold released
  rw [if_neg (not_not.mpr h)]
  by_cases hmem : c.id ∈ counted <;> by_cases hw : (waitsOn false id c.a || waitsOn false id c.b) = true <;>
    simp only [List.contains_iff_mem, hmem, hw, if_true, if_false, Bool.false_eq_true, seeBlockRegs]

theorem released_holds {c : Crew} (h : c.blk = blk) : Released id counted c (released id counted blk c) := by
  rw [released_eq id counted blk h]
  exact ⟨rfl, rfl, ⟨waitsOn_unwaitSlot .., waitsOn_unwaitSlot ..⟩, rfl⟩

theorem released_slot {c : Crew} (h : c.blk = blk) (k : Bool) : (released id counted blk c).slot k = unwaitSlot false id (c.slot k) := by
  rw [released_eq id counted blk h]
  cases k <;> rfl

end Release

/-! ## Acquires leave block memory alone, and all memory when no write is on its way -/

theorem MemStep.blocks {s t : State} (h : MemStep s t) : t.blocks = s.blocks := by rw [h]

/-- Writes on their way may have been applied to main memory. -/
def Draining (s t : State) : Prop := t.bmem = s.bmem ∧ (Quiet s → Quiet t ∧ t.mem = s.mem)

theorem Draining.refl (s : State) : Draining s s := ⟨rfl, fun h => ⟨h, rfl⟩⟩

theorem Draining.trans {s t u : State} (h : Draining s t) (h' : Draining t u) : Draining s u :=
  ⟨h'.1.trans h.1, fun hq => ⟨(h'.2 (h.2 hq).1).1, (h'.2 (h.2 hq).1).2.trans (h.2 hq).2⟩⟩

theorem draining_foldl {α : Type} {f : State → α → State} (hf : ∀ s a, Draining s (f s a)) (as : List α) (s : State) : Draining s (as.foldl f s) := by
  induction as generalizing s with
  | nil => exact .refl s
  | cons a as ih => exact (hf s a).trans (ih (f s a))

theorem putKey_bmem (s : State) (pa key : Nat) (bs : List Byte) : (s.putKey pa key bs).bmem = s.bmem := by
  unfold State.putKey State.markKeys
  split <;> rfl

theorem foldl_bmem {α : Type} {f : State → α → State} (hf : ∀ s a, (f s a).bmem = s.bmem) (as : List α) (s : State) : (as.foldl f s).bmem = s.bmem := by
  induction as generalizing s with
  | nil => rfl
  | cons a as ih => exact (ih (f s a)).trans (hf s a)

theorem writeKey_bmem (s : State) (pa key : Nat) (bs : List Byte) : (s.writeKey pa key bs).bmem = s.bmem := by
  unfold State.writeKey
  split
  · exact putKey_bmem ..
  · refine foldl_bmem (fun t p => ?_) _ s
    split
    · rfl
    · exact putKey_bmem ..

theorem applyArriving_bmem (s : State) (w : Arriving) : (s.applyArriving w).bmem = s.bmem := by
  refine Eq.trans ?_ (writeKey_bmem s w.pa w.key w.bytes)
  unfold State.applyArriving
  dsimp only
  split <;> rfl

theorem applyReplica_bmem (s : State) (r : Replica) : (s.applyReplica r).bmem = s.bmem := writeKey_bmem s r.pa r.key r.bytes

theorem drainArriving_draining (s : State) (p : Arriving → Bool) : Draining s (s.drainArriving p) :=
  ⟨foldl_bmem applyArriving_bmem _ _, fun h => by
    unfold State.drainArriving
    rw [h.1]
    exact ⟨⟨rfl, h.2⟩, rfl⟩⟩

theorem drainReplicas_draining (s : State) (p : Replica → Bool) : Draining s (s.drainReplicas p) :=
  ⟨foldl_bmem applyReplica_bmem _ _, fun h => by
    unfold State.drainReplicas
    rw [h.2]
    exact ⟨⟨h.1, rfl⟩, rfl⟩⟩

theorem heed_draining (s : State) (die : Nat) (clk : List Nat) : Draining s (s.heed die clk) :=
  (drainArriving_draining s _).trans (drainReplicas_draining _ _)

theorem acquireAt_draining (s : State) (scope crew blk core : Nat) : Draining s (s.acquireAt scope crew blk core) :=
  draining_foldl (fun s _ => draining_foldl (fun s d => heed_draining s d _) _ s) _ s

theorem releaseNear_draining (s : State) (scope crew blk core : Nat) : Draining s (s.releaseNear scope crew blk core) := by
  unfold State.releaseNear
  split
  · exact .refl s
  · exact ⟨rfl, fun h => ⟨h, rfl⟩⟩

/-- The crews that wait at a barrier of a block acquire. -/
def acquireWaiting (s : State) (blk id : Nat) : State :=
  (s.crews.filter (fun c => c.blk == blk && (waitsOn false id c.a || waitsOn false id c.b))).foldl (fun s c => s.acquire 2 c) s

/-- The phase of a barrier completes: the crews that wait acquire, the block starts its next phase and the crews go on. -/
theorem completeBar_eq {s : State} {blk : Nat} {b : Block} (hb : s.block? blk = some b) (id : Nat) : ∃ u, MemStep s u ∧ Draining s u ∧
    s.completeBar blk id = { u with
      blocks := s.blocks.map (fun q => if q.id == blk then
        { q with barP := q.barP ^^^ (1#16 <<< id), barCnt := q.barCnt.set id none, barIn := q.barIn.set id [], ump := q.ump.set id 0 } else q)
      crews := s.crews.map (released id (b.barIn.getD id []) blk) } := by
  have hstep : MemStep s (acquireWaiting s blk id) := memStep_foldl (fun (s : State) (c : Crew) => acquireAt_memStep s 2 c.id c.blk c.core) _ s
  refine ⟨acquireWaiting s blk id, hstep, draining_foldl (fun (s : State) (c : Crew) => acquireAt_draining s 2 c.id c.blk c.core) _ s, ?_⟩
  have heq : s.completeBar blk id = { (acquireWaiting s blk id).modBlock blk (fun q =>
      { q with barP := q.barP ^^^ (1#16 <<< id), barCnt := q.barCnt.set id none, barIn := q.barIn.set id [], ump := q.ump.set id 0 }) with
      crews := (acquireWaiting s blk id).crews.map (released id (b.barIn.getD id []) blk) } := by
    unfold State.completeBar
    simp only [hb]
    rfl
  rw [heq, MemStep.crews hstep, State.modBlock, MemStep.blocks hstep]

/-- An arrival of lanes: their crew and block note it, the crew releases, and the last one completes the phase. -/
theorem arriveBar_eq {s : State} {blk i : Nat} {b : Block} {c : Crew} (hb : s.block? blk = some b) (hc : s.crew? i = some c) (id cnt : Nat) (act : Mask) :
    let m := c.arrive.getD id 0#64 ||| act
    let u := ((s.modCrew i (fun e => noted e id m (b.barP.getLsbD id))).modBlock blk (fun q =>
      { q with barCnt := q.barCnt.set id (some cnt), barIn := q.barIn.set id (countedAt b c id m) })).releaseNear 2 c.id c.blk c.core
    s.arriveBar blk id cnt i act = if m = BitVec.allOnes 64 ∧ c.exited = 0#64 ∧ c.id ∉ b.barIn.getD id [] ∧ cnt ≤ (countedAt b c id m).length
      then u.completeBar blk id else u := by
  intro m u
  have hid : c.id = i := by simpa using List.find?_some hc
  have hfull : (c.arrive.getD id 0#64 ||| act == BitVec.allOnes 64 && c.exited == 0#64 && !(b.barIn.getD id []).contains i) =
      decide (c.arrive.getD id 0#64 ||| act = BitVec.allOnes 64 ∧ c.exited = 0#64 ∧ c.id ∉ b.barIn.getD id []) := by
    rw [Bool.eq_iff_iff, decide_eq_true_eq]
    simp [hid, and_assoc]
  have hcounted : (if c.arrive.getD id 0#64 ||| act = BitVec.allOnes 64 ∧ c.exited = 0#64 ∧ c.id ∉ b.barIn.getD id [] then i :: b.barIn.getD id []
      else b.barIn.getD id []) = countedAt b c id (c.arrive.getD id 0#64 ||| act) := by
    rw [countedAt, hid]
  unfold State.arriveBar
  simp only [hb, hc, hfull, decide_eq_true_eq, hcounted, and_assoc]
  rfl

theorem releaseNear_crewBlind (scope crew blk core : Nat) : CrewBlind (fun s => s.releaseNear scope crew blk core) :=
  CrewBlind.ite (p := fun s => s.settled = true) (fun _ _ => Iff.rfl) .id (fun _ _ => rfl)

/-- The issuing slot waits, if the instruction is a bar. -/
def waitingIf (wait : Bool) (k : Bool) (id : Nat) (p : Bool) (e : Crew) : Crew := if wait then waiting e k false id p else e

theorem waitingIf_frame (wait k : Bool) (id : Nat) (p : Bool) (e : Crew) : waitingIf wait k id p e = { e with
    a := (waitingIf wait k id p e).a, b := (waitingIf wait k id p e).b } := by
  cases wait
  · rfl
  · cases k <;> rfl

theorem waitingIf_st (wait k : Bool) (id : Nat) (p : Bool) (e : Crew) (j : Bool) : ((waitingIf wait k id p e).slot j).st = (e.slot j).st := by
  cases wait <;> cases k <;> cases j <;> rfl

theorem arriveLanes_eq {f : FormS} {wait : Bool} {b : Block} {x : Ctx} {s : State} (hfresh : x.c.arrive.getD (bodyBits f 3 0) 0#64 &&& x.act = 0#64)
    (hcnt : (b.barCnt.getD (bodyBits f 3 0) none).getD (if bodyBits f 8 4 = 0 then b.ncrews else bodyBits f 8 4) =
      if bodyBits f 8 4 = 0 then b.ncrews else bodyBits f 8 4) :
    arriveLanes f wait b x s = sysNop ((s.modCrew x.id (waitingIf wait x.k (bodyBits f 3 0) (b.barP.getLsbD (bodyBits f 3 0)))).arriveBar b.id
      (bodyBits f 3 0) (if bodyBits f 8 4 = 0 then b.ncrews else bodyBits f 8 4) x.id x.act) := by
  have hwait : ∀ s : State, (if wait then s.modCrew x.id (fun c => c.setSlot x.k { c.slot x.k with
      barWait := some (false, bodyBits f 3 0, b.barP.getLsbD (bodyBits f 3 0)) }) else s) =
      s.modCrew x.id (waitingIf wait x.k (bodyBits f 3 0) (b.barP.getLsbD (bodyBits f 3 0))) := by
    intro s
    cases wait
    · exact (modCrew_id s x.id).symm
    · rfl
  unfold arriveLanes
  simp only [sysF_eq, hfresh, ne_eq, not_true, if_false, hwait]
  cases hk : b.barCnt.getD (bodyBits f 3 0) none with
  | none => rfl
  | some j =>
    rw [hk] at hcnt
    exact if_neg (not_not.mpr hcnt)

section Arrival

variable {f : FormS} {s : State} {c : Crew} {b : Block} {wait : Bool} {cnt : Nat}

/-- The crew after its arrival, before the phase completes. -/
def arrived (wait k : Bool) (id : Nat) (m : Mask) (p : Bool) (e : Crew) : Crew := noted (waitingIf wait k id p e) id m p

theorem arrived_keeps (wait k : Bool) (id : Nat) (m : Mask) (p : Bool) (e : Crew) : (arrived wait k id m p e).id = e.id ∧ (arrived wait k id m p e).blk = e.blk ∧
    (arrived wait k id m p e).depth = e.depth ∧ ∀ j, ((arrived wait k id m p e).slot j).st = (e.slot j).st := by
  refine ⟨?_, ?_, ?_, fun j => ?_⟩
  · rw [arrived, noted, waitingIf_frame]
  · rw [arrived, noted, waitingIf_frame]
  · rw [arrived, noted, waitingIf_frame]
  · rw [← waitingIf_st wait k id p e j]
    cases j <;> rfl

/-- The state outside the crews after an arrival. -/
def arrivalState (s : State) (c : Crew) (b : Block) (id cnt : Nat) (m : Mask) : State :=
  (s.modBlock b.id (fun q => { q with barCnt := q.barCnt.set id (some cnt), barIn := q.barIn.set id (countedAt b c id m) })).releaseNear 2 c.id c.blk c.core

theorem arrivalState_issued (s : State) (c : Crew) (sp : Spec) (b : Block) (id cnt : Nat) (m : Mask) :
    arrivalState (s.issued c sp) c b id cnt m = { arrivalState s.opening c b id cnt m with crews := (s.issued c sp).crews } :=
  releaseNear_crewBlind 2 c.id c.blk c.core (s.opening.modBlock b.id (fun q =>
    { q with barCnt := q.barCnt.set id (some cnt), barIn := q.barIn.set id (countedAt b c id m) })) (s.issued c sp).crews

/-- An arrival of the issuing crew. -/
theorem arriveBar_issued {sp : Spec} (hi : s.opening.issuer? = some c) (hb : s.block? b.id = some b) (id : Nat) (act : Mask) :
    let m := c.arrive.getD id 0#64 ||| act
    let p := b.barP.getLsbD id
    let u := (arrivalState (s.issued c sp) c b id cnt m).modCrew c.id (arrived wait s.cur.slot id m p)
    ((s.issued c sp).modCrew c.id (waitingIf wait s.cur.slot id p)).arriveBar b.id id cnt c.id act =
      if m = BitVec.allOnes 64 ∧ c.exited = 0#64 ∧ c.id ∉ b.barIn.getD id [] ∧ cnt ≤ (countedAt b c id m).length then u.completeBar b.id id else u := by
  intro m p u
  obtain ⟨hid, hblk, hcore, harr, hex, -⟩ := issuing_barrier s c sp
  obtain ⟨-, c0, h0, -⟩ := issuer_find hi
  have hcrew : ((s.issued c sp).modCrew c.id (waitingIf wait s.cur.slot id p)).crew? c.id = some (waitingIf wait s.cur.slot id p (s.issuing c sp)) := by
    refine crew_of_replaced (l := s.crews) ?_ h0 ?_
    · show (s.issued c sp).crews.map _ = _
      rw [issued_crews, map_if_mapf _ (issuing_id s c sp), replaced]
    · rw [waitingIf_frame]
      exact hid
  have harrive := arriveBar_eq (s := (s.issued c sp).modCrew c.id (waitingIf wait s.cur.slot id p)) hb hcrew id cnt act
  rw [waitingIf_frame] at harrive
  simp only [countedAt, hid, hblk, hcore, harr, hex] at harrive
  rw [harrive]
  have hu : ((((s.issued c sp).modCrew c.id (waitingIf wait s.cur.slot id p)).modCrew c.id (fun e => noted e id m p)).modBlock b.id (fun q =>
      { q with barCnt := q.barCnt.set id (some cnt), barIn := q.barIn.set id (countedAt b c id m) })).releaseNear 2 c.id c.blk c.core = u := by
    rw [modCrew_modCrew _ _ _ _ (fun e => by rw [waitingIf_frame])]
    refine (releaseNear_crewBlind 2 c.id c.blk c.core ((s.issued c sp).modBlock b.id (fun q =>
      { q with barCnt := q.barCnt.set id (some cnt), barIn := q.barIn.set id (countedAt b c id m) })) _).trans ?_
    show _ = State.modCrew _ _ _
    unfold State.modCrew arrivalState
    rw [(releaseNear_memStep ..).crews]
    rfl
  rw [← hu]
  rfl

end Arrival

theorem nextCrew_barWait (k : Bool) (next : DWord) (ends : Bool) (c : Crew) : ((nextCrew k next ends c).slot k).barWait = (c.slot k).barWait := by
  cases k <;> cases ends <;> rfl

theorem waitsOn_congr {cl : Bool} {id : Nat} {p q : PcSlot} (h : p.barWait = q.barWait) : waitsOn cl id p = waitsOn cl id q := by
  unfold waitsOn
  rw [h]

theorem getD_set_same {α : Type} (l : List α) (i : Nat) (a d : α) (h : i < l.length) : (l.set i a).getD i d = a := by
  simp [List.getD, h]

theorem getD_set_default {α : Type} (l : List α) (i : Nat) (d : α) : (l.set i d).getD i d = d := by
  by_cases h : i < l.length
  · exact getD_set_same l i d d h
  · simp [List.getD, h]

/-- The last arrival: the state after the instruction's effect, and its end. -/
theorem lastArrival {s : State} {c : Crew} {b : Block} {wait : Bool} {cnt id : Nat} {sp : Spec} {m : Mask} {p : Bool}
    (hi : s.opening.issuer? = some c) (hs : Steady s c) (hblk : b.id = c.blk) (hb : s.block? b.id = some b) (hid : id < b.barIn.length) :
    let u := (arrivalState (s.issued c sp) c b id cnt m).modCrew c.id (arrived wait s.cur.slot id m p)
    let t := issueEnd s.opening c sp { s := u.completeBar b.id id, wr := [], ctl := false }
    t.blocks = s.blocks.map (fun q => if q.id == b.id then { q with
      barP := q.barP ^^^ (1#16 <<< id), barCnt := q.barCnt.set id none, barIn := q.barIn.set id [], ump := q.ump.set id 0 } else q) ∧
    (Quiet s → t.mem = s.mem) ∧ t.bmem = s.bmem ∧
    (∀ y ∈ s.crews, y.id ≠ c.id → released id (countedAt b c id m) b.id y ∈ t.crews) ∧
    ∃ c' ∈ t.crews, c'.id = c.id ∧ (c'.slot s.cur.slot).pc = s.cur.next ∧ waitsOn false id (c'.slot s.cur.slot) = false ∧
      (c.id ∈ countedAt b c id m → c'.arrive.getD id 0#64 = 0#64) := by
  intro u t
  obtain ⟨-, c0, h0, -⟩ := issuer_find hi
  obtain ⟨heid, heblk, -, -, -, -, -⟩ := issuing_barrier s c sp
  obtain ⟨haid, hablk, hadepth, hast⟩ := arrived_keeps wait s.cur.slot id m p (s.issuing c sp)
  have hmem : MemStep ((s.issued c sp).modBlock b.id (fun q => { q with barCnt := q.barCnt.set id (some cnt), barIn := q.barIn.set id (countedAt b c id m) }))
      (arrivalState (s.issued c sp) c b id cnt m) := releaseNear_memStep ..
  have hdrain : Draining ((s.issued c sp).modBlock b.id (fun q => { q with barCnt := q.barCnt.set id (some cnt), barIn := q.barIn.set id (countedAt b c id m) }))
      (arrivalState (s.issued c sp) c b id cnt m) := releaseNear_draining ..
  have hublocks : u.blocks = s.blocks.map (fun q => if q.id == b.id then
      { q with barCnt := q.barCnt.set id (some cnt), barIn := q.barIn.set id (countedAt b c id m) } else q) := MemStep.blocks hmem
  have hucrews : u.crews = replaced s.crews c.id (arrived wait s.cur.slot id m p (s.issuing c sp)) := by
    show (arrivalState (s.issued c sp) c b id cnt m).crews.map _ = _
    rw [hmem.crews]
    show (s.issued c sp).crews.map _ = _
    rw [issued_crews, map_if_mapf _ (issuing_id s c sp), replaced]
  have hub : u.block? b.id = some { b with barCnt := b.barCnt.set id (some cnt), barIn := b.barIn.set id (countedAt b c id m) } := by
    have h : (s.modBlock b.id (fun q => { q with barCnt := q.barCnt.set id (some cnt), barIn := q.barIn.set id (countedAt b c id m) })).block? b.id = _ :=
      block?_modBlock hb fun q => rfl
    rw [← h, State.block?, hublocks]
    rfl
  obtain ⟨v, hv, hvdrain, heq⟩ := completeBar_eq hub id
  rw [getD_set_same _ _ _ _ hid] at heq
  have hcrews : (u.completeBar b.id id).crews = replaced (s.crews.map (released id (countedAt b c id m) b.id)) c.id
      (released id (countedAt b c id m) b.id (arrived wait s.cur.slot id m p (s.issuing c sp))) := by
    rw [heq]
    show u.crews.map _ = _
    rw [hucrews, replaced, replaced, List.map_map, List.map_map]
    refine List.map_congr_left fun y _ => ?_
    by_cases hy : y.id = c.id <;> simp [hy, released_id]
  have hcblk : (arrived wait s.cur.slot id m p (s.issuing c sp)).blk = b.id := by rw [hablk, heblk, hblk]
  have hst : ∀ k, ((released id (countedAt b c id m) b.id (arrived wait s.cur.slot id m p (s.issuing c sp))).slot k).st = (c.slot k).st := by
    intro k
    rw [released_slot _ _ _ hcblk, unwaitSlot_frame, hast, issuing_st]
  have hfind : (s.crews.map (released id (countedAt b c id m) b.id)).find? (fun x => x.id == c.id) = some (released id (countedAt b c id m) b.id c0) := by
    rw [List.find?_map, show ((fun x : Crew => x.id == c.id) ∘ released id (countedAt b c id m) b.id) = fun x => x.id == c.id from
      funext fun y => by rw [Function.comp_apply, released_id]]
    exact congrArg (Option.map _) h0
  obtain ⟨L, hL, -, hend⟩ := issueEnd_next (s := s) (sp := sp) (d := { s := u.completeBar b.id id, wr := [], ctl := false }) (c := c) hcrews
    hfind (by rw [released_id, haid, heid]) rfl (by rw [hst]; exact hs.1) (by rw [hst, released_frame, hadepth, issuing_depth]; exact hs.2)
  have ht : t = { u.completeBar b.id id with
      crews := replaced (s.crews.map (released id (countedAt b c id m) b.id)) c.id (nextCrew s.cur.slot s.cur.next sp.ends L)
      order := (u.completeBar b.id id).order + 1 } := hend
  have hLid : L.id = c.id := by rw [hL, released_id, haid, heid]
  have hNid : (nextCrew s.cur.slot s.cur.next sp.ends L).id = c.id := by rw [nextCrew_frame, hLid]
  have hLslot : ∀ k, L.slot k = unwaitSlot false id ((arrived wait s.cur.slot id m p (s.issuing c sp)).slot k) := by
    intro k
    rw [← released_slot _ (countedAt b c id m) _ hcblk, hL]
    cases k <;> rfl
  rw [ht, heq]
  refine ⟨?_, fun hq => (hvdrain.2 (hdrain.2 hq).1).2.trans (hdrain.2 hq).2, hvdrain.1.trans hdrain.1, fun y hy hne => ?_, nextCrew s.cur.slot s.cur.next sp.ends L, ?_, hNid,
    (nextCrew_here ..).1, ?_, fun hcount => ?_⟩
  · show u.blocks.map _ = _
    rw [hublocks, List.map_map]
    refine List.map_congr_left fun q _ => ?_
    by_cases hq : q.id = b.id <;> simp [hq]
  · exact List.mem_map.mpr ⟨released id (countedAt b c id m) b.id y, List.mem_map_of_mem hy, by simp [released_id, hne]⟩
  · refine List.mem_map.mpr ⟨released id (countedAt b c id m) b.id c0, List.mem_map_of_mem (List.mem_of_find?_eq_some h0), ?_⟩
    rw [released_id, List.find?_some h0, if_pos rfl]
  · rw [waitsOn_congr (nextCrew_barWait ..), hLslot]
    exact waitsOn_unwaitSlot ..
  · rw [nextCrew_frame, hL, released_eq _ _ _ hcblk]
    show (if (arrived wait s.cur.slot id m p (s.issuing c sp)).id ∈ countedAt b c id m then _ else _ : List Mask).getD id 0#64 = 0#64
    rw [haid, heid, if_pos hcount]
    exact getD_set_default ..

theorem blockBarriers : BlockBarriers := by
  intro f s c b wait id n cnt sp x e k i m p counted last hgates hb hn hlen hlen2 hlen3
  have hblk : b.id = c.blk := block?_id hb
  obtain ⟨harr, harmed, harmedP, -⟩ := view_c_barrier s c sp
  obtain ⟨-, hxblk, hxcore, -, -, -, hxgates, -⟩ := view_c_fields s c sp
  have hblock : (s.issued c sp).block? x.c.blk = some b := by rw [hxblk]; exact hb
  have hb' : s.block? b.id = some b := by rw [hblk]; exact hb
  constructor
  · intro hi hs
    obtain ⟨body, hexec, hbody⟩ := exec_bar_eq_issue f true wait
    obtain ⟨hidle, hacts⟩ := hbody x (s.issued c sp) b hblock hn
    have hexec' : exec i s = issue sp (fun _ => bodyRA f ≠ 0 || bodyRB f ≠ 0 || bodyBits f 38 9 ≠ 0) body s := by
      refine Eq.trans ?_ (hexec s)
      show exec (if wait then _ else _) s = _
      cases wait <;> rfl
    rw [hexec']
    refine ⟨fun hact => effect_completes (m := s.issued c sp) (sp := sp) hi hs (hidle hact) rfl rfl, fun hact hfresh hcnt => ?_, fun hact hover => ?_⟩
    · have heff := (hacts hact (hxgates.trans hgates)).trans (arriveLanes_eq (by rw [harr]; exact hfresh) hcnt)
      rw [show (s.view c sp).id = c.id from rfl] at heff
      have hgo := arriveBar_issued (wait := wait) (cnt := cnt) (sp := sp) hi.crew hb' id x.act
      obtain ⟨haid, hablk, hadepth, hast⟩ := arrived_keeps wait s.cur.slot id m p (s.issuing c sp)
      refine ⟨fun hno => ?_, fun hlast => ?_⟩
      · have hgo' := hgo.trans (if_neg hno)
        rw [arrivalState_issued] at hgo'
        exact issue_completes (m := { arrivalState s.opening c b id cnt m with crews := (s.issued c sp).crews }) (g := arrived wait s.cur.slot id m p) (sp := sp) hi hs
          (heff.trans (congrArg sysNop hgo')) rfl (releaseNear_memStep ..).cycle
          (fun e => (arrived_keeps ..).1) (fun e => (arrived_keeps ..).2.2.2) (fun e => (arrived_keeps ..).2.2.1)
      · obtain ⟨hblocks, hmem, hbmem, hothers, c', hc', hid', hpc, hfree, hlanes⟩ := lastArrival (wait := wait) (cnt := cnt) (m := m) (p := p) (sp := sp) hi.crew hs hblk hb' hlen2
        refine ⟨_, issue_ok hi (heff.trans (congrArg sysNop (hgo.trans (if_pos hlast)))), hblocks, hmem, hbmem, fun y hy hne hyb => ?_, fun y hy hne hyb => ?_, c', hc', hid', hpc, hfree, hlanes ?_⟩
        · rw [← released_of_other id counted b.id hyb]
          exact hothers y hy hne
        · exact ⟨_, hothers y hy hne, released_holds _ _ _ hyb⟩
        · obtain ⟨hall, hex, hnew, -⟩ := hlast
          rw [countedAt, if_pos ⟨hall, hex, hnew⟩]
          exact List.mem_cons_self
    · refine (issue_stopped (sp := sp) (e := .hold) hi ((hacts hact (hxgates.trans hgates)).trans ((if_pos rfl).trans (if_pos ?_)))).trans rfl
      rw [harr, sysF_eq]
      exact hover
  · intro hi hs
    obtain ⟨body, hexec, hbody⟩ := exec_bar_eq_issue f false true
    obtain ⟨hidle, hacts⟩ := hbody x (s.issued c sp) b hblock hn
    rw [show exec (.barWait f) s = _ from hexec s]
    have hwait : x.act ≠ 0#64 → body x (s.issued c sp) = awaitPhase f b x (s.issued c sp) := fun hact => hacts hact (hxgates.trans hgates)
    refine ⟨fun hno => ?_, fun hact harm hphase => ?_, fun hact harm hphase => ?_⟩
    · refine effect_completes (m := s.issued c sp) (sp := sp) hi hs ?_ rfl rfl
      by_cases hact : x.act = 0#64
      · exact hidle hact
      · refine (hwait hact).trans (if_pos ?_)
        rw [sysF_eq, harmed, hno.resolve_left hact]
        rfl
    · have harm' : ¬ (!x.c.armed.getLsbD (sysF f 3 0)) = true := by rw [sysF_eq, harmed, harm]; decide
      have hphase' : ¬ x.c.armedP.getLsbD (sysF f 3 0) = b.barP.getLsbD (sysF f 3 0) := by rw [sysF_eq, harmedP]; exact hphase
      refine issue_completes (m := { s.opening.acquireAt 2 c.id c.blk c.core with crews := (s.issued c sp).crews }) (sp := sp)
        (g := fun e => { seeBlockRegs e with armed := e.armed &&& ~~~(1#16 <<< id) }) hi hs ?_ rfl (acquireAt_memStep ..).cycle
        (fun e => rfl) (fun e k => by cases k <;> rfl) (fun e => rfl)
      refine (((hwait hact).trans (if_neg harm')).trans (if_neg hphase')).trans ?_
      rw [acquire_issued, sysF_eq]
      rfl
    · have harm' : ¬ (!x.c.armed.getLsbD (sysF f 3 0)) = true := by rw [sysF_eq, harmed, harm]; decide
      refine (issue_stopped (sp := sp) (e := .hold) hi (((hwait hact).trans (if_neg harm')).trans (if_pos ?_))).trans rfl
      rw [sysF_eq, harmedP]
      exact hphase

/-! ## Barriers of a group -/

/-- A crew of a group after its barrier completes. -/
def clusterReleased (keys : List Nat) (id : Nat) (c : Crew) : Crew :=
  if keys.contains c.blk then
    { c with carrive := c.carrive.set id 0#64, cin := c.cin &&& ~~~(1#4 <<< id), a := unwaitSlot true id c.a, b := unwaitSlot true id c.b }
  else c

theorem clusterReleased_keeps (keys : List Nat) (id : Nat) (c : Crew) : (clusterReleased keys id c).id = c.id ∧ (clusterReleased keys id c).blk = c.blk ∧
    (clusterReleased keys id c).depth = c.depth ∧ ∀ k, ((clusterReleased keys id c).slot k).st = (c.slot k).st := by
  unfold clusterReleased
  split
  · refine ⟨rfl, rfl, rfl, fun k => ?_⟩
    have h : ∀ p : PcSlot, (unwaitSlot true id p).st = p.st := fun p => by rw [unwaitSlot_frame]
    cases k
    · exact h c.a
    · exact h c.b
  · exact ⟨rfl, rfl, rfl, fun k => rfl⟩

theorem contains_ids (bs : List Block) (k : Nat) : (bs.map (fun q => q.id)).contains k = bs.any (fun q => q.id == k) := by
  rw [Bool.eq_iff_iff, List.contains_iff_mem, List.mem_map, List.any_eq_true]
  simp

/-- A crew that no barrier `id` of its group keeps, and whose lanes are none of the phase. -/
def FreeOf (id : Nat) (c : Crew) : Prop :=
  waitsOn true id c.a = false ∧ waitsOn true id c.b = false ∧ c.carrive.getD id 0#64 = 0#64 ∧ c.cin.getLsbD id = false

theorem freeOf_clusterReleased {keys : List Nat} {id : Nat} {c : Crew} (h : keys.contains c.blk = true) : FreeOf id (clusterReleased keys id c) := by
  unfold clusterReleased
  rw [if_pos h]
  refine ⟨waitsOn_unwaitSlot .., waitsOn_unwaitSlot .., getD_set_default .., ?_⟩
  by_cases hid : id < 4 <;> simp [hid]

/-- The issuing crew after its arrival at a barrier of its group. -/
def clusterArrived (k : Bool) (id : Nat) (m : Mask) (whole p : Bool) (e : Crew) : Crew :=
  { waiting e k true id p with carrive := e.carrive.set id m, cin := if whole then e.cin ||| (1#4 <<< id) else e.cin }

theorem clusterArrived_keeps (k : Bool) (id : Nat) (m : Mask) (whole p : Bool) (e : Crew) : (clusterArrived k id m whole p e).id = e.id ∧
    (clusterArrived k id m whole p e).blk = e.blk ∧ (clusterArrived k id m whole p e).depth = e.depth ∧
    ∀ j, ((clusterArrived k id m whole p e).slot j).st = (e.slot j).st := by
  refine ⟨?_, ?_, ?_, fun j => ?_⟩
  · cases k <;> rfl
  · cases k <;> rfl
  · cases k <;> rfl
  · cases k <;> cases j <;> rfl

/-- The state outside the crews after an arrival at a barrier of a group. -/
def clusterState (s : State) (c : Crew) (lead id : Nat) : State :=
  (s.modBlock lead (fun q => { q with cbarOn := q.cbarOn.set id true })).releaseNear 3 c.id c.blk c.core

theorem clusterState_issued (s : State) (c : Crew) (sp : Spec) (lead id : Nat) :
    clusterState (s.issued c sp) c lead id = { clusterState s.opening c lead id with crews := (s.issued c sp).crews } :=
  releaseNear_crewBlind 3 c.id c.blk c.core (s.opening.modBlock lead (fun q => { q with cbarOn := q.cbarOn.set id true })) (s.issued c sp).crews

/-- The crews of a group that are counted at a barrier of it. -/
def countedHere (s : State) (b : Block) (id : Nat) : List Crew :=
  s.crews.filter (fun c => ((s.groupBlocks b).map (fun q => q.id)).contains c.blk && c.cin.getLsbD id)

theorem tryCbar_eq (s : State) (b : Block) (id : Nat) : ∃ u, MemStep s u ∧ Draining s u ∧
    s.tryCbar b id = if (countedHere s b id).length < b.gsize * b.ncrews then s else { u with
      blocks := s.blocks.map (fun q => if q.id == (s.groupLead b).id then
        { q with cbarP := q.cbarP ^^^ (1#4 <<< id), cbarOn := q.cbarOn.set id false, cump := q.cump.set id 0 } else q)
      crews := s.crews.map (clusterReleased ((s.groupBlocks b).map (fun q => q.id)) id) } := by
  generalize hu : (countedHere s b id).foldl (fun (s : State) (c : Crew) => s.acquire 3 c) s = u
  have hstep : MemStep s u := hu ▸ memStep_foldl (fun (s : State) (c : Crew) => acquireAt_memStep s 3 c.id c.blk c.core) _ s
  refine ⟨u, hstep, hu ▸ draining_foldl (fun (s : State) (c : Crew) => acquireAt_draining s 3 c.id c.blk c.core) _ s, ?_⟩
  have heq : s.tryCbar b id = if (countedHere s b id).length < b.gsize * b.ncrews then s else
      { u.modBlock (s.groupLead b).id (fun q => { q with cbarP := q.cbarP ^^^ (1#4 <<< id), cbarOn := q.cbarOn.set id false, cump := q.cump.set id 0 }) with
        crews := u.crews.map (clusterReleased ((s.groupBlocks b).map (fun q => q.id)) id) } := by
    rw [← hu]
    rfl
  rw [heq, MemStep.crews hstep, State.modBlock, MemStep.blocks hstep]

theorem exec_cbar_eq_issue (f : FormS) : ∃ body,
    (∀ s, exec (.cbar f) s = issue (sysSpec f [] false true) (fun _ => bodyRA f ≠ 0 || bodyRB f ≠ 0 || bodyBits f 38 2 ≠ 0) body s) ∧
    ∀ x s b, s.block? x.c.blk = some b →
      (x.act = 0#64 → body x s = sysNop s) ∧
      (x.act ≠ 0#64 → x.c.gates = [] → x.c.carrive.getD (bodyBits f 1 0) 0#64 &&& x.act ≠ 0#64 → body x s = .error .hold) ∧
      (x.act ≠ 0#64 → x.c.gates = [] → x.c.carrive.getD (bodyBits f 1 0) 0#64 &&& x.act = 0#64 →
        body x s = sysNop ((((s.modBlock (s.groupLead b).id (fun q => { q with cbarOn := q.cbarOn.set (bodyBits f 1 0) true })).modCrew x.id
          (clusterArrived x.k (bodyBits f 1 0) (x.c.carrive.getD (bodyBits f 1 0) 0#64 ||| x.act)
            (x.c.carrive.getD (bodyBits f 1 0) 0#64 ||| x.act == BitVec.allOnes 64 && x.c.exited == 0#64)
            ((s.groupLead b).cbarP.getLsbD (bodyBits f 1 0)))).releaseAt 3 x.c).tryCbar b (bodyBits f 1 0))) := by
  have hbad : (fun _ : Crew => sysBad f false false 2) = fun _ => bodyRA f ≠ 0 || bodyRB f ≠ 0 || bodyBits f 38 2 ≠ 0 := by
    funext c
    rw [sysBad_eq]
    simp
  simp only [exec_cbar, execCbar, hbad, sysF_eq]
  refine ⟨_, fun s => rfl, ?_⟩
  intro x s b hb
  refine ⟨fun hact => ?_, fun hact hgates hover => ?_, fun hact hgates hfresh => ?_⟩
  · simp only [hb, hact, if_true]
  · have hcallee : ¬ x.c.callee = true := fun h => (callee_iff _).mp h hgates
    simp only [hb, hact, hcallee, hover, if_false, ne_eq, not_false_iff, if_true]
    rfl
  · have hcallee : ¬ x.c.callee = true := fun h => (callee_iff _).mp h hgates
    simp only [hb, hact, hcallee, hfresh, if_false, ne_eq, not_true, Bool.false_eq_true]
    rfl

/-- Changes of blocks that keep id and rank keep the id and rank of the lowest rank. -/
theorem foldl_lowest_rank {h : Block → Block} (hid : ∀ q, (h q).id = q.id) (hrank : ∀ q, (h q).rank = q.rank) (l : List Block) :
    ∀ m m' : Block, m'.id = m.id → m'.rank = m.rank →
      ((l.map h).foldl (fun m q => if q.rank < m.rank then q else m) m').id = (l.foldl (fun m q => if q.rank < m.rank then q else m) m).id := by
  induction l with
  | nil => exact fun m m' hi _ => hi
  | cons q l ih =>
    intro m m' hi hr
    simp only [List.map_cons, List.foldl_cons, hrank, hr]
    by_cases hlt : q.rank < m.rank
    · simp only [hlt, if_true]
      exact ih q (h q) (hid q) (hrank q)
    · simp only [hlt, if_false]
      exact ih m m' hi hr

section Group

variable {s u : State} {h : Block → Block} (hblocks : u.blocks = s.blocks.map h) (hlaunch : ∀ q, (h q).launch = q.launch) (hgroup : ∀ q, (h q).group = q.group)
include hblocks hlaunch hgroup

theorem groupBlocks_map (b : Block) : u.groupBlocks b = (s.groupBlocks b).map h := by
  unfold State.groupBlocks
  rw [hblocks, List.filter_map]
  refine congrArg (List.map h) (List.filter_congr fun q _ => ?_)
  rw [Function.comp_apply, hlaunch, hgroup]

theorem groupKeys_map (hid : ∀ q, (h q).id = q.id) (b : Block) : (u.groupBlocks b).map (fun q => q.id) = (s.groupBlocks b).map (fun q => q.id) := by
  rw [groupBlocks_map hblocks hlaunch hgroup, List.map_map]
  exact List.map_congr_left fun q _ => hid q

theorem groupLead_id_map (hid : ∀ q, (h q).id = q.id) (hrank : ∀ q, (h q).rank = q.rank) (b : Block) : (u.groupLead b).id = (s.groupLead b).id := by
  unfold State.groupLead
  rw [groupBlocks_map hblocks hlaunch hgroup]
  exact foldl_lowest_rank hid hrank _ b b rfl rfl

end Group

theorem nextCrew_barWaits (k : Bool) (next : DWord) (ends : Bool) (c : Crew) (j : Bool) : ((nextCrew k next ends c).slot j).barWait = (c.slot j).barWait := by
  cases k <;> cases ends <;> cases j <;> rfl

/-- The end of an instruction leaves what the barriers of the group have noted of its crew. -/
theorem FreeOf.next {id : Nat} {e L : Crew} (h : FreeOf id e) (hL : L = { e with regs := L.regs, flags := L.flags, flights := L.flights }) (k : Bool)
    (next : DWord) (ends : Bool) : FreeOf id (nextCrew k next ends L) := by
  obtain ⟨ha, hb, hcarr, hcin⟩ := h
  refine ⟨?_, ?_, ?_, ?_⟩
  · rw [← ha]
    refine (waitsOn_congr (nextCrew_barWaits k next ends L false)).trans ?_
    rw [hL]
    rfl
  · rw [← hb]
    refine (waitsOn_congr (nextCrew_barWaits k next ends L true)).trans ?_
    rw [hL]
    rfl
  · rw [nextCrew_frame, hL]
    exact hcarr
  · rw [nextCrew_frame, hL]
    exact hcin

theorem releaseAt_view (s t : State) (c : Crew) (sp : Spec) : t.releaseAt 3 (s.view c sp).c = t.releaseNear 3 c.id c.blk c.core := by
  obtain ⟨-, hblk, hcore, -⟩ := view_c_fields s c sp
  rw [State.releaseAt, if_neg (by decide), view_c_id, hblk, hcore]

theorem clusterBarriers : ClusterBarriers := by
  intro f s c b id sp x e lead m whole e' full hgates hb hlen hsame hlens hi hs
  obtain ⟨-, -, -, hcarr, hexit⟩ := view_c_barrier s c sp
  obtain ⟨-, hxblk, hxcore, -, -, -, hxgates, -⟩ := view_c_fields s c sp
  obtain ⟨heid, heblk, -, -, -, hecin, -⟩ := issuing_barrier s c sp
  obtain ⟨-, c0, h0, -⟩ := issuer_find hi.crew
  have hblock : (s.issued c sp).block? x.c.blk = some b := by rw [hxblk]; exact hb
  obtain ⟨body, hexec, hbody⟩ := exec_cbar_eq_issue f
  obtain ⟨hidle, hhold, hgo⟩ := hbody x (s.issued c sp) b hblock
  rw [hcarr, hexit] at hgo
  rw [hexec]
  let p := lead.cbarP.getLsbD id
  let u := (clusterState (s.issued c sp) c lead.id id).modCrew c.id (clusterArrived s.cur.slot id m whole p)
  have hgo' : x.act ≠ 0#64 → c.carrive.getD id 0#64 &&& x.act = 0#64 → body x (s.issued c sp) = sysNop (u.tryCbar b id) := by
    intro hact hfresh
    refine (hgo hact (hxgates.trans hgates) hfresh).trans (congrArg (fun t : State => sysNop (t.tryCbar b id)) ?_)
    have hblind : (((s.issued c sp).modBlock lead.id (fun q => { q with cbarOn := q.cbarOn.set id true })).modCrew c.id
        (clusterArrived s.cur.slot id m whole p)).releaseNear 3 c.id c.blk c.core = u := by
      refine (releaseNear_crewBlind 3 c.id c.blk c.core ((s.issued c sp).modBlock lead.id (fun q => { q with cbarOn := q.cbarOn.set id true })) _).trans ?_
      show _ = State.modCrew _ _ _
      unfold State.modCrew clusterState
      rw [(releaseNear_memStep ..).crews]
    rw [releaseAt_view]
    exact hblind
  have hublocks : u.blocks = s.blocks.map (fun q => if q.id == lead.id then { q with cbarOn := q.cbarOn.set id true } else q) := MemStep.blocks (releaseNear_memStep ..)
  have hucrews : u.crews = replaced s.crews c.id (clusterArrived s.cur.slot id m whole p e) := by
    show (clusterState (s.issued c sp) c lead.id id).crews.map _ = _
    rw [show (clusterState (s.issued c sp) c lead.id id).crews = (s.issued c sp).crews from (releaseNear_memStep ..).crews, issued_crews,
      map_if_mapf _ (issuing_id s c sp), replaced]
  have hkeys : (u.groupBlocks b).map (fun q => q.id) = (s.groupBlocks b).map (fun q => q.id) := by
    refine groupKeys_map hublocks ?_ ?_ ?_ b <;> intro q <;> split <;> rfl
  have hlead : (u.groupLead b).id = lead.id := by
    refine groupLead_id_map hublocks ?_ ?_ ?_ ?_ b <;> intro q <;> split <;> rfl
  have hcount : (countedHere u b id).length = (s.crews.filter full).length := by
    unfold countedHere
    rw [hkeys, hucrews, replaced, List.filter_map, List.length_map]
    refine congrArg List.length (List.filter_congr fun y hy => ?_)
    have hid4 : id < 4 := Nat.mod_lt _ (by decide)
    rw [Function.comp_apply, contains_ids]
    by_cases hy' : y.id = c.id
    · obtain ⟨hyblk, hycin⟩ := hsame y hy hy'
      have hbit : (clusterArrived s.cur.slot id m whole p e).cin.getLsbD id = (c.cin.getLsbD id || whole) := by
        show (if whole then e.cin ||| (1#4 <<< id) else e.cin : BitVec 4).getLsbD id = _
        rw [hecin]
        cases whole <;> simp [hid4]
      simp only [hy', beq_self_eq_true, if_true, (clusterArrived_keeps ..).2.1, hbit, full, hycin, hyblk, heblk, e, Bool.true_and]
    · have hne : (y.id == c.id) = false := beq_false_of_ne hy'
      simp only [hne, Bool.false_eq_true, if_false, full, Bool.false_and, Bool.or_false]
  obtain ⟨v, hv, hvdrain, htry⟩ := tryCbar_eq u b id
  rw [hcount, hkeys, hlead] at htry
  refine ⟨fun hact => effect_completes (m := s.issued c sp) (sp := sp) hi hs (hidle hact) rfl rfl, fun hact hfresh hfew => ?_, fun hact hfresh hall => ?_, fun hact hover => ?_⟩
  · rw [if_pos hfew] at htry
    refine issue_completes (m := { clusterState s.opening c lead.id id with crews := (s.issued c sp).crews }) (g := clusterArrived s.cur.slot id m whole p) (sp := sp) hi hs
      ?_ rfl (releaseNear_memStep ..).cycle (fun e => (clusterArrived_keeps ..).1) (fun e => (clusterArrived_keeps ..).2.2.2) (fun e => (clusterArrived_keeps ..).2.2.1)
    rw [← clusterState_issued]
    exact (hgo' hact hfresh).trans (congrArg sysNop htry)
  · rw [if_neg (not_lt.mpr hall)] at htry
    let keys := (s.groupBlocks b).map (fun q => q.id)
    let e2 := clusterReleased keys id (clusterArrived s.cur.slot id m whole p e)
    have he2 : e2.id = c.id ∧ e2.depth = c.depth ∧ ∀ k, (e2.slot k).st = (c.slot k).st := by
      obtain ⟨h1, -, h3, h4⟩ := clusterReleased_keeps keys id (clusterArrived s.cur.slot id m whole p e)
      obtain ⟨h5, -, h7, h8⟩ := clusterArrived_keeps s.cur.slot id m whole p e
      exact ⟨(h1.trans h5).trans heid, (h3.trans h7).trans (issuing_depth ..), fun k => ((h4 k).trans (h8 k)).trans (issuing_st ..)⟩
    have hcrews : (u.tryCbar b id).crews = replaced (s.crews.map (clusterReleased keys id)) c.id e2 := by
      rw [htry]
      show u.crews.map _ = _
      rw [hucrews, replaced, replaced, List.map_map, List.map_map]
      refine List.map_congr_left fun y _ => ?_
      by_cases hy : y.id = c.id <;> simp [hy, (clusterReleased_keeps ..).1, e2, keys]
    have hfind : (s.crews.map (clusterReleased keys id)).find? (fun x => x.id == c.id) = some (clusterReleased keys id c0) := by
      rw [List.find?_map, show ((fun x : Crew => x.id == c.id) ∘ clusterReleased keys id) = fun x => x.id == c.id from
        funext fun y => by rw [Function.comp_apply, (clusterReleased_keeps ..).1]]
      exact congrArg (Option.map _) h0
    obtain ⟨L, hL, -, hend⟩ := issueEnd_next (s := s) (sp := sp) (d := { s := u.tryCbar b id, wr := [], ctl := false }) (c := c) hcrews hfind he2.1 rfl
      (by rw [he2.2.2]; exact hs.1) (by rw [he2.2.2, he2.2.1]; exact hs.2)
    refine ⟨_, issue_ok hi (hgo' hact hfresh), ?_⟩
    have hLid : L.id = c.id := by rw [hL, he2.1]
    have hNid : (nextCrew s.cur.slot s.cur.next sp.ends L).id = c.id := by rw [nextCrew_frame, hLid]
    have hdrain : Draining ((s.issued c sp).modBlock lead.id (fun q => { q with cbarOn := q.cbarOn.set id true })) (clusterState (s.issued c sp) c lead.id id) :=
      releaseNear_draining ..
    rw [hend, htry]
    refine ⟨?_, fun hq => (hvdrain.2 (hdrain.2 hq).1).2.trans (hdrain.2 hq).2, hvdrain.1.trans hdrain.1, fun y hy hin => ?_,
      nextCrew s.cur.slot s.cur.next sp.ends L, ?_, hNid, (nextCrew_here ..).1⟩
    · show u.blocks.map _ = _
      rw [hublocks, List.map_map]
      refine List.map_congr_left fun q _ => ?_
      by_cases hq : q.id = lead.id <;> simp [hq]
    · obtain ⟨z, hz, rfl⟩ := List.mem_map.mp hy
      obtain ⟨w, -, rfl⟩ := List.mem_map.mp hz
      rw [← contains_ids] at hin
      by_cases hw : w.id = c.id
      · have hmine : ((clusterReleased keys id w).id == c.id) = true := by rw [(clusterReleased_keeps ..).1, hw, beq_self_eq_true]
        rw [if_pos hmine] at hin ⊢
        refine FreeOf.next (e := e2) (freeOf_clusterReleased ?_) hL _ _ _
        rwa [nextCrew_frame, hL, (clusterReleased_keeps ..).2.1] at hin
      · have hother : ¬ ((clusterReleased keys id w).id == c.id) = true := by rw [(clusterReleased_keeps ..).1]; simpa using hw
        rw [if_neg hother] at hin ⊢
        rw [(clusterReleased_keeps ..).2.1] at hin
        exact freeOf_clusterReleased hin
    · refine List.mem_map.mpr ⟨clusterReleased keys id c0, List.mem_map_of_mem (List.mem_of_find?_eq_some h0), ?_⟩
      rw [(clusterReleased_keeps ..).1, List.find?_some h0, if_pos rfl]
  · refine (issue_stopped (sp := sp) (e := .hold) hi (hhold hact (hxgates.trans hgates) ?_)).trans rfl
    rw [hcarr]
    exact hover

/-- Settles O30: an arrival is a change of its crew and block; the last one changes the other crews too. -/
theorem barriers : Obligations.Barriers := ⟨blockBarriers, clusterBarriers⟩

end Sys2Proof.Proofs.BarrierRows
end

