-- ==== Sys2Proof/Proofs/MemoryBlindness.lean ====
section
/-!
PROOF. Proofs/MemoryBlindness.lean: memory, translation and fetches do not look at crews, blocks, operations and the cursor (11 R229 to R241; 22 R395).
-/

namespace Sys2Proof.Proofs.MemoryBlindness

open Sys2Proof Sys2Proof.Machine Sys2Proof.Claims

/-- State `s` with the crews, blocks, cores, operations, accumulator requests, cursor, order and marks of another. -/
def onto (s v : State) : State :=
  { s with
    crews := v.crews, blocks := v.blocks, cores := v.cores, ops := v.ops, accas := v.accas, accfs := v.accfs, cur := v.cur, order := v.order,
    lastRaise := v.lastRaise, heldMark := v.heldMark }

/-- A change of the state that looks at none of these and leaves them as they are. -/
def Blind (F : State → State) : Prop := ∀ s v, F (onto s v) = onto (F s) v

theorem Blind.id : Blind (fun s => s) := fun _ _ => rfl

theorem Blind.comp {F G : State → State} (hF : Blind F) (hG : Blind G) : Blind (fun s => G (F s)) :=
  fun s v => (congrArg G (hF s v)).trans (hG (F s) v)

theorem Blind.ite {p : State → Prop} [DecidablePred p] {A B : State → State} (hp : ∀ s v, p (onto s v) ↔ p s) (hA : Blind A) (hB : Blind B) :
    Blind (fun s => if p s then A s else B s) := fun s v => by
  by_cases h : p s
  · simp only [h, (hp s v).mpr h, if_true]
    exact hA s v
  · simp only [h, (hp s v).not.mpr h, if_false]
    exact hB s v

theorem blind_foldl {α : Type} {F : State → α → State} (h : ∀ a, Blind (fun s => F s a)) (as : List α) : Blind (fun s => as.foldl F s) := by
  induction as with
  | nil => exact Blind.id
  | cons a as ih => exact (h a).comp ih

theorem markKeys_blind (pa n key : Nat) : Blind (fun s => s.markKeys pa n key) :=
  Blind.ite (p := fun s => ((s.keyed.isEmpty && key == 0) || decide (0x8000000000 ≤ pa)) = true) (fun _ _ => Iff.rfl) .id (fun _ _ => rfl)

theorem putKey_blind (pa key : Nat) (bs : List Byte) : Blind (fun s => s.putKey pa key bs) :=
  fun s v => markKeys_blind pa bs.length key { s.keepPast false pa bs.length with mem := s.mem.write pa bs } v

theorem writeKey_blind (pa key : Nat) (bs : List Byte) : Blind (fun s => s.writeKey pa key bs) :=
  Blind.ite (p := fun s => (s.sealedCtxs.isEmpty || !(List.range bs.length).any (fun i => s.sealedEntry (pa + i))) = true) (fun _ _ => Iff.rfl)
    (putKey_blind pa key bs) fun s v =>
      blind_foldl (fun p : Byte × Nat => Blind.ite (p := fun _ => s.sealedEntry (pa + p.2) = true) (fun _ _ => Iff.rfl) .id
        (putKey_blind (pa + p.2) key [p.1])) (bs.zip (List.range bs.length)) s v

theorem learn_blind (die : Nat) (clk : List Nat) : Blind (fun s => s.learn die clk) := fun _ _ => rfl

theorem applyArriving_blind (w : Arriving) : Blind (fun s => s.applyArriving w) := by
  have hpoison : Blind (fun s => if w.poison then s.setPoison w.pa else s) := Blind.ite (fun _ _ => Iff.rfl) (fun _ _ => rfl) .id
  exact ((writeKey_blind w.pa w.key w.bytes).comp hpoison).comp (learn_blind w.dst w.stamp)

theorem applyReplica_blind (r : Replica) : Blind (fun s => s.applyReplica r) :=
  (writeKey_blind r.pa r.key r.bytes).comp (learn_blind r.die r.stamp)

theorem drainArriving_blind (p : Arriving → Bool) : Blind (fun s => s.drainArriving p) := fun s v =>
  blind_foldl applyArriving_blind (s.arriving.filter p) { s with arriving := s.arriving.filter (fun w => !p w) } v

theorem drainReplicas_blind (p : Replica → Bool) : Blind (fun s => s.drainReplicas p) := fun s v =>
  blind_foldl applyReplica_blind (s.replicas.filter p) { s with replicas := s.replicas.filter (fun w => !p w) } v

theorem heed_blind (die : Nat) (clk : List Nat) : Blind (fun s => s.heed die clk) :=
  ((drainArriving_blind _).comp (drainReplicas_blind _)).comp (learn_blind die clk)

theorem reach_blind (src dst : Nat) : Blind (fun s => s.reach src dst) :=
  Blind.ite (p := fun s => src = dst ∨ s.settled = true) (fun _ _ => Iff.rfl) .id (fun s v => heed_blind dst (s.clk src) s v)

theorem release_blind : Blind (fun s => s.release) :=
  ((drainArriving_blind _).comp (drainReplicas_blind _)).comp (G := fun s => { s with narrow := [] }) (fun _ _ => rfl)

theorem noteSeen_blind (die pa n : Nat) : Blind (fun s => s.noteSeen die pa n) := fun _ _ => rfl

theorem beforeRead_blind (die pa n : Nat) : Blind (fun s => s.beforeRead die pa n) := by
  have hown : Blind (fun s => (s.arriving.filter (fun w => w.src == die && decide (w.pa < pa + n) && decide (pa < w.pa + w.bytes.length))).foldl
      (fun (s : State) (w : Arriving) => s.heed w.dst w.stamp) s) := fun s v => blind_foldl (fun w : Arriving => heed_blind w.dst w.stamp) _ s v
  have hmine : Blind (fun s => (s.replicas.filter (fun r => r.die == die && r.by_ == die && decide (r.pa < pa + n) && decide (pa < r.pa + r.bytes.length))).foldl
      (fun (s : State) (r : Replica) => s.heed r.die r.stamp) s) := fun s v => blind_foldl (fun r : Replica => heed_blind r.die r.stamp) _ s v
  have hreach : Blind (fun s => s.reach (s.homeDie pa) die) := fun s v => reach_blind (s.homeDie pa) die s v
  exact Blind.ite (p := fun s => s.settled = true) (fun _ _ => Iff.rfl) .id (((hown.comp hmine).comp hreach).comp (noteSeen_blind die pa n))

theorem beforeLoad_blind (die : Nat) (l : Loc) (n : Nat) : Blind (fun s => s.beforeLoad die l n) := by
  cases l with
  | blk core off => exact .id
  | pa a key => exact beforeRead_blind die _ n
  | repl a home key => exact beforeRead_blind die _ n

/-! ## Reads by VA and fetches -/

theorem load_onto (s v : State) (die : Nat) (l : Loc) (n : Nat) : (onto s v).load die l n = s.load die l n := rfl

theorem readVa_onto (s v : State) (asid die : Nat) (nd : Need) (k va n : Nat) : (onto s v).readVa asid die nd k va n = s.readVa asid die nd k va n := by
  induction k generalizing va n with
  | zero => rfl
  | succ k ih =>
    unfold State.readVa
    dsimp only
    rw [show State.place (onto s v) asid va nd 0 = s.place asid va nd 0 from rfl]
    split
    · rfl
    · split
      · rfl
      · split
        · rfl
        · rename_i l _
          rw [show State.locReady (onto s v) die l = s.locReady die l from rfl, ih,
            show State.locPoison (onto s v) die l (min n (65536 - va % 65536)) = s.locPoison die l (min n (65536 - va % 65536)) from rfl,
            show State.beforeLoad (onto s v) die l (min n (65536 - va % 65536)) = _ from beforeLoad_blind die l _ s v]
          rfl

theorem fetchLine_onto (s v : State) (core asid va : Nat) : (onto s v).fetchLine core asid va = s.fetchLine core asid va := by
  have hnow : State.fetchNow (onto s v) asid (dieOfCore core) va = s.fetchNow asid (dieOfCore core) va := readVa_onto ..
  unfold State.fetchLine State.fetchBytes
  rw [hnow]
  rfl

theorem checkTarget_onto (s v : State) (core asid : Nat) (pc : DWord) (mask : Mask) (tgt : Bool) :
    (onto s v).checkTarget core asid pc mask tgt = s.checkTarget core asid pc mask tgt := by
  unfold State.checkTarget
  rw [fetchLine_onto]

end Sys2Proof.Proofs.MemoryBlindness
end

