-- ==== Sys2Proof/Proofs/CausesAndRecords.lean ====
section
/-!
PROOF. Proofs/CausesAndRecords.lean: how a cause is taken, and the record that a stall posts (21 R381 to R390).
-/

namespace Sys2Proof.Proofs.CausesAndRecords

open Sys2Proof Sys2Proof.Machine Sys2Proof.Claims Sys2Proof.Proofs.IssueRules Sys2Proof.Proofs.MemoryFrames Sys2Proof.Proofs.LoadRows
open Sys2Proof.Proofs.StoreRows Sys2Proof.Proofs.JoinExit Sys2Proof.Proofs.MemoryBlindness

/-! ## Numbers as bytes -/

theorem leNat_leBytes (n v : Nat) : leNat (leBytes n v) = v % 256 ^ n := by
  induction n generalizing v with
  | zero => simp [leBytes, leNat, Nat.mod_one]
  | succ n ih =>
    rw [leBytes, leNat, ih, BitVec.toNat_ofNat, show (2 : Nat) ^ 8 = 256 from rfl, Nat.mod_mod, pow_succ', Nat.mod_mul]

/-- A field at the front of a list of bytes. -/
theorem leNat_take_leBytes {n v : Nat} (rest : List Byte) : leNat ((leBytes n v ++ rest).take n) = v % 256 ^ n := by
  rw [List.take_left' (leBytes_length n v), leNat_leBytes]

/-- The fields after one at the front. -/
theorem drop_leBytes_append {n k v : Nat} (h : n ≤ k) (rest : List Byte) : (leBytes n v ++ rest).drop k = rest.drop (k - n) := by
  rw [List.drop_append, leBytes_length, List.drop_eq_nil_of_le (by rw [leBytes_length]; exact h), List.nil_append]

/-! ## What a stop of the instructions in flight leaves as it was -/

theorem foldl_landAlt_frame (s : State) (as : List Alt) (c : Crew) : as.foldl (landAlt s) c = { c with regs := (as.foldl (landAlt s) c).regs } := by
  induction as generalizing c with
  | nil => rfl
  | cons a as ih =>
    rw [List.foldl_cons, ih]
    rfl

theorem finishFlight_frame (s : State) (c : Crew) (f : Flight) : finishFlight s c f = { c with
    regs := (finishFlight s c f).regs, flags := (finishFlight s c f).flags, flights := (finishFlight s c f).flights } := by
  unfold finishFlight lowerFlag
  dsimp only
  split <;> split
  · rw [foldl_landAlt_frame]
  · rfl
  · rw [foldl_landAlt_frame]
  · rfl

theorem finishAll_frame (s : State) (c : Crew) (ids : List Nat) : finishAll s c ids = { c with
    regs := (finishAll s c ids).regs, flags := (finishAll s c ids).flags, flights := (finishAll s c ids).flights } := by
  unfold finishAll
  induction ids generalizing c with
  | nil => rfl
  | cons i ids ih =>
    rw [List.foldl_cons, ih]
    split
    · rw [finishFlight_frame]
    · rfl

theorem stopFlights_frame (s : State) (c : Crew) : stopFlights s c = { c with
    regs := (stopFlights s c).regs, flags := (stopFlights s c).flags, flights := (stopFlights s c).flights, lastIssue := (stopFlights s c).lastIssue } := by
  unfold stopFlights
  dsimp only
  rw [finishAll_frame]

/-! ## What a record leaves as it was -/

/-- State `t` is state `s` but for memory with its bookkeeping, the records held, the management registers and the error counts. -/
def PostStep (s t : State) : Prop :=
  t = { s with
    mem := t.mem, bmem := t.bmem, poison := t.poison, arriving := t.arriving, dieClk := t.dieClk, dieSeen := t.dieSeen,
    replicas := t.replicas, past := t.past, views := t.views, narrow := t.narrow, keyed := t.keyed, held := t.held, mgmt := t.mgmt, ras := t.ras }

theorem PostStep.refl (s : State) : PostStep s s := rfl

theorem PostStep.trans {s t u : State} (h : PostStep s t) (h' : PostStep t u) : PostStep s u := by
  unfold PostStep at h h' ⊢
  rw [h] at h'
  exact h'

theorem PostStep.of_memStep {s t : State} (h : MemStep s t) : PostStep s t := by
  unfold MemStep at h
  unfold PostStep
  rw [h]

theorem PostStep.crews {s t : State} (h : PostStep s t) : t.crews = s.crews := by rw [h]

theorem writePage_memStep {s t : State} {asid die : Nat} {kd : Option Nat} {strict : Bool} {va : Nat} {bs : List Byte}
    (h : s.writePage asid die kd strict va bs = some t) : MemStep s t := by
  unfold State.writePage at h
  split at h
  · cases h
  · split at h
    · cases h
    · split at h
      · cases h
      · cases h
        exact store_memStep ..

theorem writeVa_memStep {s t : State} {asid die n va : Nat} {bs : List Byte} (h : s.writeVa asid die n va bs = some t) : MemStep s t := by
  induction n generalizing s va bs with
  | zero =>
    cases h
    exact .refl _
  | succ n ih =>
    unfold State.writeVa at h
    split at h
    · cases h
      exact .refl _
    · dsimp only at h
      split at h
      · cases h
      · rename_i hpage
        exact (writePage_memStep hpage).trans (ih h)

theorem postMsix_postStep (s : State) (v : Nat) : PostStep s (s.postMsix v) := by
  unfold State.postMsix
  split
  · rfl
  · split
    · split <;> rfl
    · rfl

theorem postStep_ras (s : State) (r : Ras) : PostStep s { s with ras := r } := rfl

theorem postStep_held (s : State) (l : List Held) : PostStep s { s with held := l } := rfl

theorem rasLog_postStep (s : State) (kind unit addr ctx : Nat) : PostStep s (s.rasLog kind unit addr ctx) := by
  unfold State.rasLog
  dsimp only
  split
  · exact (postStep_ras s _).trans (postMsix_postStep _ 1)
  · rfl

theorem tryPost_postStep (s : State) (h : Held) : PostStep s (s.tryPost h).1 := by
  unfold State.tryPost
  dsimp only
  split
  · split
    · exact .refl s
    · split
      · exact .refl s
      · rename_i s1 hs1
        split
        · exact .refl s
        · rename_i s2 hs2
          have hmem : MemStep s s2.release := ((writeVa_memStep hs1).trans (release_memStep s1)).trans ((writeVa_memStep hs2).trans (release_memStep s2))
          dsimp only
          split
          · exact (PostStep.of_memStep hmem).trans (postMsix_postStep ..)
          · exact .of_memStep hmem
  · exact .refl s

theorem countWait_postStep (s : State) (h : Held) : PostStep s (s.countWait h) := by
  unfold State.countWait
  split
  · cases hw : s.writeVa h.fq.asid 0 2 (h.fq.fqva + 8) (leBytes 4 _) with
    | none => exact .refl s
    | some t => exact .of_memStep (writeVa_memStep hw)
  · exact .refl s

theorem PostStep.hold {s t : State} (h : PostStep s t) (l : List Held) : PostStep s { t with held := l } := h.trans (postStep_held t l)

theorem PostStep.log {s t : State} (h : PostStep s t) (l : List Held) (a : Nat) : PostStep s (State.rasLog { t with held := l } 12 0 a 0) :=
  (h.hold l).trans (rasLog_postStep { t with held := l } 12 0 a 0)

theorem postRecord_postStep (s : State) (h : Held) : PostStep s (s.postRecord h).1 := by
  have hpost := tryPost_postStep s h
  unfold State.postRecord
  generalize s.tryPost h = r at hpost
  obtain ⟨t, seq, va⟩ := r
  cases seq with
  | some n => exact hpost
  | none =>
    cases va with
    | some a =>
      dsimp only at hpost ⊢
      have hlog := PostStep.log hpost (t.held ++ [{ h with unwritable := true, tried := t.clock.toNat }]) a
      exact hlog
    | none =>
      dsimp only at hpost ⊢
      have hwait := (hpost.trans (countWait_postStep t h)).hold ((t.countWait h).held ++ [{ h with unwritable := false, tried := (t.countWait h).clock.toNat }])
      exact hwait

/-! ## The record of a crew -/

/-- The record of a crew's stall. -/
def stallRecord (s : State) (e : Crew) (x : Cause) (dbl : Bool) : Held :=
  s.mkRecord (if e.callee then some (domQueue (decodeDom e.dent)) else none) (if e.callee then e.dom else e.ctx) 0 e.ctx (crewSrc e) e.asid
    (dbl.toNat + e.gates.length * 2) (crewBody e s.cur.slot x s.cur.pc s.cur.word) (some e.id) none

theorem stallRecord_holds (s : State) (e : Crew) (x : Cause) (dbl : Bool) : CrewRecord s e x dbl (stallRecord s e x dbl) := by
  have hcause : (x.word).toNat = x.info % 65536 * 65536 + x.sub % 256 * 256 + x.code % 256 := by
    rw [Cause.word, BitVec.toNat_ofNat]
    omega
  have hk : s.cur.slot.toNat < 256 ^ 4 := by cases s.cur.slot <;> decide
  refine ⟨⟨rfl, rfl, BitVec.toNat_ofNat .., ?_, rfl⟩, ?_, ?_, ?_, ?_, ?_, ?_, ?_, ?_, ?_, ?_, ?_⟩
  · show (BitVec.ofNat 32 (dbl.toNat + e.gates.length * 2)).toNat = _
    rw [BitVec.toNat_ofNat, Nat.mul_comm 2]
  · show s.queueOf _ _ = _
    by_cases h : e.callee = true <;> simp only [h, if_true, if_false, Bool.false_eq_true] <;> rfl
  · simp only [stallRecord, State.mkRecord, crewBody, List.length_append, leBytes_length]
  all_goals
    simp (disch := decide) only [stallRecord, State.mkRecord, crewBody, List.append_assoc, drop_leBytes_append, Nat.reduceSub, List.drop_zero,
      leNat_take_leBytes]
  · rw [hcause]
    omega
  · exact Nat.mod_eq_of_lt e.regc.isLt
  · rw [Cause.lanes]
    exact Nat.mod_eq_of_lt (BitVec.isLt _)
  · exact Nat.mod_eq_of_lt x.val.isLt
  · exact Nat.mod_eq_of_lt s.cur.pc.isLt
  · exact Nat.mod_eq_of_lt (BitVec.isLt _)
  · exact Nat.mod_eq_of_lt s.cur.word.isLt
  · exact Nat.mod_eq_of_lt hk
  · rw [show leBytes 8 0 = leBytes 8 0 ++ [] from rfl, leNat_take_leBytes]
    rfl

/-! ## Stalls -/

/-- The state in which a stalling crew's record is posted: the crew stopped, its waiting acca and its place in the queue of gates dropped. -/
def stopped (s : State) (e : Crew) : State :=
  let s := { s.setCrew e with accas := s.accas.filter (fun a => a.crew ≠ e.id) }
  if (s.core e.core).gateWait.contains e.id then s.modCore e.core (fun k => { k with gateWait := k.gateWait.filter (fun x => x ≠ e.id) }) else s

theorem stopped_frame (s : State) (e : Crew) : stopped s e = { s with
    crews := s.crews.map (fun y => if y.id == e.id then e else y), accas := (stopped s e).accas, cores := (stopped s e).cores } := by
  unfold stopped
  dsimp only
  split <;> rfl

theorem stallCrew_stalls {s : State} {c : Crew} (hc : s.crew? c.id = some c) (x : Cause) (dbl : Bool) :
    Stalls s c x dbl (s.stallCrew c.id x s.cur.slot s.cur.pc s.cur.word dbl false) := by
  have he := stopFlights_frame s c
  generalize hs : stopFlights s c = e at he
  have heid : e.id = c.id := by rw [he]
  have hcallee : e.callee = c.callee := by rw [he]; rfl
  have hdom : e.dom = c.dom := by rw [he]
  have hm := stopped_frame s e
  have hrecord : (stopped s e).mkRecord (if e.callee then some (domQueue (decodeDom e.dent)) else none) (if e.callee then e.dom else e.ctx) 0 e.ctx
      (crewSrc e) e.asid (dbl.toNat + e.gates.length * 2) (crewBody e s.cur.slot x s.cur.pc s.cur.word) (some e.id) none = stallRecord s e x dbl := by
    rw [hm]
    rfl
  have hpost := postRecord_postStep (stopped s e) (stallRecord s e x dbl)
  have hstall : s.stallCrew c.id x s.cur.slot s.cur.pc s.cur.word dbl false =
      ((stopped s e).postRecord (stallRecord s e x dbl)).1.modCrew e.id (fun y => { y with stall := some {
        queue := if y.callee then y.dom else 0, seq := ((stopped s e).postRecord (stallRecord s e x dbl)).2, step := false,
        cause := x.code, key := if x.code = 0x18 then some x.info else none } }) := by
    have hce : s.crew? e.id = some c := by rw [heid]; exact hc
    rw [← heid, ← hrecord]
    unfold State.stallCrew
    simp only [hce, Bool.false_eq_true, if_false, hs]
    rfl
  refine ⟨stallRecord s e x dbl, e, _, stopped s e, hs.symm, stallRecord_holds s e x dbl, ?_, ?_, ?_, ?_, rfl, ?_⟩
  · rw [hm, heid]
  · rw [hm]
  · rw [hm]
  · rw [hm]
  · rw [hstall, State.modCrew, hpost.crews, hm, map_if_mapf _ rfl, heid, hcallee, hdom]

/-! ## Causes taken -/

/-- The entry of the trap queue for a cause. -/
def trapEntry (s : State) (c : Crew) (x : Cause) : TrapEntry :=
  { cause := x.word, slot := s.cur.slot, val := x.val, ret := if x.next then s.cur.next else s.cur.first.getD s.cur.pc, after := s.cur.next,
    mask := (c.slot s.cur.slot).mask }

/-- A crew with a trap behind its queued ones. -/
def entered (c : Crew) (k : Bool) (e : TrapEntry) : Crew := { c.setSlot k { c.slot k with trapped := true } with trapq := c.trapq ++ [e] }

theorem entered_keeps (c : Crew) (k : Bool) (e : TrapEntry) : (entered c k e).id = c.id ∧ (entered c k e).core = c.core ∧ (entered c k e).asid = c.asid ∧
    (entered c k e).tvec = c.tvec ∧ (entered c k e).ctx = c.ctx ∧ (entered c k e).srOld = c.srOld ∧ (entered c k e).trapq = c.trapq ++ [e] := by
  cases k <;> exact ⟨rfl, rfl, rfl, rfl, rfl, rfl, rfl⟩

theorem takeCause_eq {s : State} {c : Crew} (hcur : s.cur.crew = some c.id) (hc : s.crew? c.id = some c) (x : Cause) :
    let s1 := { s with lastRaise := some x }
    s.takeCause x = if x.crew = false ∨ (x.code = 0x15 ∧ (s.ctxDesc c.ctx).brksys = true) then s1.stallCrew c.id x s.cur.slot s.cur.pc s.cur.word false false
      else if c.insvc = true ∧ c.svcSlot = s.cur.slot then s1.stallCrew c.id x s.cur.slot s.cur.pc s.cur.word true false
      else if 8 ≤ c.trapq.length ∨ s.tvecOf c = 0#64 then s1.stallCrew c.id x s.cur.slot s.cur.pc s.cur.word false false
      else if c.insvc = true then s1.setCrew (entered c s.cur.slot (trapEntry s c x))
      else (s1.setCrew (entered c s.cur.slot (trapEntry s c x))).deliver c.id := by
  intro s1
  unfold State.takeCause
  have hc' : s1.crew? c.id = some c := hc
  simp only [hcur, show State.crew? { s with lastRaise := some x } c.id = some c from hc, Bool.not_eq_true']
  rfl

/-- The crew of a delivered trap. -/
def delivered (c : Crew) (e : TrapEntry) (tv : DWord) (line : List Byte) : Crew :=
  let p := c.slot e.slot
  let c := c.setSlot e.slot { p with st := .running, pc := tv, mask := e.mask, line := line, trapped := false, barWait := none }
  let c := { c with trapcause := e.cause, trapva := e.val, insvc := true, svcSlot := e.slot, skip := false }
  let c := { c with srOld := c.srOld.filter (fun o => o.sr ≠ 0x20) }
  markRegion c e.slot tv

theorem delivered_keeps (c : Crew) (e : TrapEntry) (tv : DWord) (line : List Byte) :
    (delivered c e tv line).id = c.id ∧ (delivered c e tv line).core = c.core ∧ (delivered c e tv line).asid = c.asid := by
  unfold delivered
  cases e.slot <;> exact ⟨rfl, rfl, rfl⟩

theorem deliver_ok {s : State} {c : Crew} {e : TrapEntry} {rest : List TrapEntry} {line : List Byte} (hc : s.crew? c.id = some c) (hq : c.trapq = e :: rest)
    (htarget : s.checkTarget c.core c.asid (s.tvecOf c) e.mask true = .ok line) :
    s.deliver c.id = (s.setCrew (delivered c e (s.tvecOf c) line)).noteLine c.core c.asid (pcLine (s.tvecOf c)) line := by
  obtain ⟨-, hcore, hasid⟩ := delivered_keeps c e (s.tvecOf c) line
  unfold State.deliver
  simp only [hc, hq, htarget]
  show (s.setCrew (delivered c e (s.tvecOf c) line)).noteLine (delivered c e (s.tvecOf c) line).core (delivered c e (s.tvecOf c) line).asid _ line = _
  rw [hcore, hasid]

/-- What the delivery of a crew's first trap leaves as it was. -/
structure SameBeside (c d : Crew) : Prop where
  regs : d.regs = c.regs
  flags : d.flags = c.flags
  mode : d.mode = c.mode
  priv : d.priv = c.priv
  gates : d.gates = c.gates
  ocnt : d.ocnt = c.ocnt

theorem entered_beside (c : Crew) (k : Bool) (e : TrapEntry) : SameBeside c (entered c k e) := by
  cases k <;> exact ⟨rfl, rfl, rfl, rfl, rfl, rfl⟩

theorem delivered_beside (c : Crew) (e : TrapEntry) (tv : DWord) (line : List Byte) : SameBeside c (delivered c e tv line) := by
  obtain ⟨cause, k, val, ret, after, mask⟩ := e
  cases k <;> exact ⟨rfl, rfl, rfl, rfl, rfl, rfl⟩

theorem delivered_service (c : Crew) (e : TrapEntry) (tv : DWord) (line : List Byte) :
    let d := delivered c e tv line
    d.insvc = true ∧ d.svcSlot = e.slot ∧ d.skip = false ∧ d.trapcause = e.cause ∧ d.trapva = e.val ∧ d.trapq = c.trapq := by
  obtain ⟨cause, k, val, ret, after, mask⟩ := e
  cases k <;> exact ⟨rfl, rfl, rfl, rfl, rfl, rfl⟩

theorem delivered_slots (c : Crew) (e : TrapEntry) (tv : DWord) (line : List Byte) :
    let d := delivered c e tv line
    (d.slot e.slot).pc = tv ∧ (d.slot e.slot).st = .running ∧ (d.slot e.slot).mask = e.mask ∧ d.slot (!e.slot) = c.slot (!e.slot) := by
  obtain ⟨cause, k, val, ret, after, mask⟩ := e
  cases k <;> exact ⟨rfl, rfl, rfl, rfl⟩

theorem entered_slot_other (c : Crew) (k : Bool) (e : TrapEntry) : (entered c k e).slot (!k) = c.slot (!k) := by cases k <;> rfl

/-- A trap delivered at once: the slot stands in the handler. -/
theorem entered_of_deliver {s : State} {c : Crew} {x : Cause} {line : List Byte} (hq : c.trapq = []) (hc : s.crew? c.id = some c)
    (htarget : s.checkTarget c.core c.asid (s.tvecOf c) (c.slot s.cur.slot).mask true = .ok line) :
    let e := trapEntry s c x
    Entered s c s.cur.slot x e.ret e.after (s.tvecOf c) (({ s with lastRaise := some x }.setCrew (entered c s.cur.slot e)).deliver c.id) := by
  intro e
  obtain ⟨hid, hcore, hasid, htvec, hctx, hold, htrapq⟩ := entered_keeps c s.cur.slot e
  rw [hq] at htrapq
  have htv : State.tvecOf ({ s with lastRaise := some x }.setCrew (entered c s.cur.slot e)) (entered c s.cur.slot e) = s.tvecOf c := by
    unfold State.tvecOf seenSr
    rw [htvec, hctx, hold, hid]
    rfl
  have hfind : State.crew? ({ s with lastRaise := some x }.setCrew (entered c s.cur.slot e)) (entered c s.cur.slot e).id = some (entered c s.cur.slot e) := by
    unfold State.crew? State.setCrew
    rw [hid]
    exact find_map_id hc hid
  have hline : State.checkTarget ({ s with lastRaise := some x }.setCrew (entered c s.cur.slot e)) c.core c.asid (s.tvecOf c) e.mask true = .ok line := by
    have honto : State.setCrew { s with lastRaise := some x } (entered c s.cur.slot e) = onto s (State.setCrew { s with lastRaise := some x } (entered c s.cur.slot e)) := rfl
    rw [honto, checkTarget_onto]
    exact htarget
  have hd := deliver_ok (line := line) hfind htrapq (by rw [hcore, hasid, htv]; exact hline)
  rw [hid] at hd
  rw [hd, htv]
  obtain ⟨hdid, -, -⟩ := delivered_keeps (entered c s.cur.slot e) e (s.tvecOf c) line
  refine ⟨⟨delivered (entered c s.cur.slot e) e (s.tvecOf c) line, ?_, hdid.trans hid, ?_⟩, rfl, rfl, rfl, rfl, rfl, rfl⟩
  · show (s.crews.map (fun y => if y.id == (entered c s.cur.slot e).id then entered c s.cur.slot e else y)).map
      (fun y => if y.id == (delivered (entered c s.cur.slot e) e (s.tvecOf c) line).id then _ else y) = _
    rw [hdid, hid, map_if_map hid]
  · obtain ⟨hpc, hst, hmask, hother⟩ := delivered_slots (entered c s.cur.slot e) e (s.tvecOf c) line
    obtain ⟨hin, hslot, hskip, hcause, hva, hqueue⟩ := delivered_service (entered c s.cur.slot e) e (s.tvecOf c) line
    obtain ⟨r1, r2, r3, r4, r5, r6⟩ := entered_beside c s.cur.slot e
    obtain ⟨d1, d2, d3, d4, d5, d6⟩ := delivered_beside (entered c s.cur.slot e) e (s.tvecOf c) line
    exact ⟨hpc, hst, hmask, hother.trans (entered_slot_other ..), hin, hslot, hskip, hcause, hva, hqueue.trans htrapq, d1.trans r1, d2.trans r2, d3.trans r3, d4.trans r4, d5.trans r5, d6.trans r6⟩

theorem causeTaken : CauseTaken := by
  intro s c x hcur hc hnodup hgates brk k e
  have heq := takeCause_eq hcur hc x
  have hstall : ∀ dbl, Stalls { s with lastRaise := some x } c x dbl (State.stallCrew { s with lastRaise := some x } c.id x s.cur.slot s.cur.pc s.cur.word dbl false) :=
    fun dbl => stallCrew_stalls (s := { s with lastRaise := some x }) hc x dbl
  refine ⟨fun hsys => ?_, fun hx hb hin hk => ?_, fun hx hb hno hfull => ?_, fun hx hb hin hk hlen htv => ?_, fun hx hb hin hq line htv hline htr => ?_⟩
  · rw [heq, if_pos hsys]
    exact hstall false
  all_goals have hno1 : ¬(x.crew = false ∨ brk) := by simp [hx, hb]
  · rw [heq, if_neg hno1, if_pos ⟨hin, hk⟩]
    exact hstall true
  · rw [heq, if_neg hno1, if_neg hno, if_pos hfull]
    exact hstall false
  · obtain ⟨hid, -⟩ := entered_keeps c k e
    have hno3 : ¬(8 ≤ c.trapq.length ∨ s.tvecOf c = 0#64) := not_or.mpr ⟨not_le.mpr hlen, htv⟩
    rw [heq, if_neg hno1, if_neg (fun h => hk h.2), if_neg hno3, if_pos hin]
    show ({ s with lastRaise := some x, crews := s.crews.map (fun y : Crew => if y.id == (entered c k e).id then entered c k e else y) } : State) = _
    rw [hid]
    rfl
  · have hno3 : ¬(8 ≤ c.trapq.length ∨ s.tvecOf c = 0#64) := by simp [hq, htv]
    rw [heq, if_neg hno1, if_neg (by simp [hin]), if_neg hno3, if_neg (by simp [hin])]
    exact entered_of_deliver hq hc hline

/-! ## Records posted -/

/-- The body of a record as it is written: that of a cox repeats the TIME of the frame. -/
def postedBody (s : State) (h : Held) : List Byte := if h.kind = 3 then h.body.take 24 ++ leBytes 8 s.clock.toNat ++ h.body.drop 32 else h.body

theorem postedBody_length {s : State} {h : Held} (hk : h.kind = 3 → 32 ≤ h.body.length) : (postedBody s h).length = h.body.length := by
  unfold postedBody
  split
  · rename_i h3
    have := hk h3
    simp only [List.length_append, List.length_take, List.length_drop, leBytes_length]
    omega
  · rfl

/-- The entry of 512 bytes that a record makes. -/
def recordEntry (s : State) (h : Held) (prod : Nat) : List Byte :=
  leBytes 4 (h.body.length * 65536 + h.kind) ++ leBytes 4 ((prod + 1) % 2 ^ 32) ++ leBytes 4 h.ctx ++ leBytes 4 h.src.toNat ++
    leBytes 8 s.clock.toNat ++ leBytes 4 h.rasid.toNat ++ leBytes 4 h.flg.toNat ++ postedBody s h ++ List.replicate (480 - (postedBody s h).length) 0#8

theorem recordEntry_words (s : State) (h : Held) (prod : Nat) :
    let entry := recordEntry s h prod
    leNat ((entry.drop 4).take 4) = (prod + 1) % 2 ^ 32 ∧ leNat ((entry.drop 8).take 4) = h.ctx % 2 ^ 32 ∧
      leNat ((entry.drop 12).take 4) = h.src.toNat ∧ leNat ((entry.drop 16).take 8) = s.clock.toNat ∧
      leNat ((entry.drop 24).take 4) = h.rasid.toNat ∧ leNat ((entry.drop 28).take 4) = h.flg.toNat := by
  refine ⟨?_, ?_, ?_, ?_, ?_, ?_⟩ <;>
    simp (disch := decide) only [recordEntry, List.append_assoc, drop_leBytes_append, Nat.reduceSub, List.drop_zero, leNat_take_leBytes]
  · exact Nat.mod_mod _ _
  · rfl
  · exact Nat.mod_eq_of_lt h.src.isLt
  · exact Nat.mod_eq_of_lt s.clock.isLt
  · exact Nat.mod_eq_of_lt h.rasid.isLt
  · exact Nat.mod_eq_of_lt h.flg.isLt

theorem recordEntry_fields {s : State} {h : Held} {prod : Nat} (hlen : h.body.length ≤ 480) (hk : h.kind = 3 → 32 ≤ h.body.length) :
    let entry := recordEntry s h prod
    entry.length = 512 ∧ leNat (entry.take 2) = h.kind % 65536 ∧ leNat ((entry.drop 2).take 2) = (h.body.length + h.kind / 65536) % 65536 ∧
      leNat ((entry.drop 4).take 4) = (prod + 1) % 2 ^ 32 ∧ leNat ((entry.drop 8).take 4) = h.ctx % 2 ^ 32 ∧
      leNat ((entry.drop 12).take 4) = h.src.toNat ∧ leNat ((entry.drop 16).take 8) = s.clock.toNat ∧
      leNat ((entry.drop 24).take 4) = h.rasid.toNat ∧ leNat ((entry.drop 28).take 4) = h.flg.toNat ∧
      (entry.drop 32).take h.body.length = postedBody s h ∧ ∀ b ∈ entry.drop (32 + h.body.length), b = 0#8 := by
  have hbody := postedBody_length (s := s) hk
  have hrest : (recordEntry s h prod).drop 32 = postedBody s h ++ List.replicate (480 - (postedBody s h).length) 0#8 := by
    simp (disch := decide) only [recordEntry, List.append_assoc, drop_leBytes_append, Nat.reduceSub, List.drop_zero]
  have hword : leNat ((recordEntry s h prod).take 4) = (h.body.length * 65536 + h.kind) % 256 ^ 4 := by
    simp only [recordEntry, List.append_assoc, leNat_take_leBytes]
  obtain ⟨hseq, hctx, hsrc, htime, hasid, hflg⟩ := recordEntry_words s h prod
  refine ⟨?_, ?_, ?_, hseq, hctx, hsrc, htime, hasid, hflg, ?_, ?_⟩
  · simp only [recordEntry, List.length_append, leBytes_length, List.length_replicate]
    omega
  · rw [← Nat.min_eq_left (show 2 ≤ 4 by decide), ← List.take_take, leNat_take, hword]
    omega
  · rw [List.take_drop, leNat_drop, hword]
    omega
  · rw [hrest, List.take_left' hbody]
  · rw [← List.drop_drop, hrest, List.drop_left' hbody]
    exact fun b hb => List.eq_of_mem_replicate hb

theorem tryPost_eq {s : State} {h : Held} {cb : List Byte}
    (hread : s.readVa h.fq.asid 0 { r := true, w := true, x := false, space := 0 } 2 h.fq.fqva 12 = .ok cb) :
    let prod := leNat (cb.take 4)
    let cons := leNat ((cb.drop 4).take 4)
    let at0 := (h.fq.fqva + 512 + 512 * (prod % 2 ^ h.fq.fqlog)) % 2 ^ 64
    s.tryPost h = if (prod + 2 ^ 32 - cons) % 2 ^ 32 = 2 ^ h.fq.fqlog then (s, none, none)
      else match s.writeVa h.fq.asid 0 3 at0 (recordEntry s h prod) with
        | none => (s, none, some at0)
        | some s1 => match s1.release.writeVa h.fq.asid 0 2 h.fq.fqva (leBytes 4 ((prod + 1) % 2 ^ 32)) with
          | none => (s, none, some h.fq.fqva)
          | some s2 => (if (s.msiOf h).1 then s2.release.postMsix (s.msiOf h).2 else s2.release, some ((prod + 1) % 2 ^ 32), none) := by
  intro prod cons at0
  unfold State.tryPost
  simp only [hread]
  rfl

theorem recordPosted : RecordPosted := by
  intro s h cb hlen hk hcb hread prod cons body at0
  have heq := tryPost_eq hread
  refine ⟨fun hfull => heq.trans (if_pos hfull), fun hroom => ⟨recordEntry s h prod, recordEntry_fields hlen hk, fun hlost => ?_, fun s1 hs1 => ⟨fun hlost => ?_, fun s2 hs2 => ?_⟩⟩⟩
  all_goals rw [heq, if_neg hroom]
  · rw [show s.writeVa h.fq.asid 0 3 at0 (recordEntry s h prod) = none from hlost]
  · rw [show s.writeVa h.fq.asid 0 3 at0 (recordEntry s h prod) = some s1 from hs1]
    dsimp only
    rw [hlost]
  · rw [show s.writeVa h.fq.asid 0 3 at0 (recordEntry s h prod) = some s1 from hs1]
    dsimp only
    rw [hs2]
    rfl

/-- Settles O56. -/
theorem causesTaken : Obligations.CausesTaken := ⟨causeTaken, recordPosted⟩

end Sys2Proof.Proofs.CausesAndRecords
end

