-- ==== Sys2Proof/Proofs/TrapRows.lean ====
section
/-!
PROOF. Proofs/TrapRows.lean: software traps and the return from a trap (10 R220; 21 R382 to R387).
-/

namespace Sys2Proof.Proofs.TrapRows

open Sys2Proof Sys2Proof.Machine Sys2Proof.Claims Sys2Proof.Proofs.IssueRules Sys2Proof.Proofs.MatrixInstructions Sys2Proof.Proofs.SystemFields
open Sys2Proof.Proofs.StoreRows Sys2Proof.Proofs.JoinExit Sys2Proof.Proofs.CommandRows Sys2Proof.Proofs.TransferRules Sys2Proof.Proofs.CausesAndRecords Sys2Proof.Proofs.MemoryBlindness

/-! ## The crew of an instruction that raises a cause -/

theorem leftCrew_frame (s : State) (c : Crew) : leftCrew s c = { c with queues := (leftCrew s c).queues, rng := (leftCrew s c).rng } := by
  unfold leftCrew
  split
  · split <;> rfl
  · rfl

theorem startCrew_frame (s : State) (c : Crew) : startCrew s c = { c with queues := (startCrew s c).queues, rng := (startCrew s c).rng } := by
  unfold startCrew
  dsimp only
  split
  · exact leftCrew_frame s c
  · rw [leftCrew_frame s c]

theorem entryCrew_frame (s : State) (c : Crew) : entryCrew s c = { c with
    a := (entryCrew s c).a, b := (entryCrew s c).b, regc := (entryCrew s c).regc, rngCap := (entryCrew s c).rngCap } := by
  unfold entryCrew issueRegion markRegion
  cases s.cur.slot <;> split <;> rfl

theorem entryCrew_slots (s : State) (c : Crew) : ((entryCrew s c).slot s.cur.slot).mask = (c.slot s.cur.slot).mask ∧
    (entryCrew s c).slot (!s.cur.slot) = c.slot (!s.cur.slot) := by
  unfold entryCrew issueRegion markRegion
  cases s.cur.slot <;> split <;> exact ⟨rfl, rfl⟩

theorem tried_frame (s : State) (c : Crew) : tried s c = { c with
    a := (tried s c).a, b := (tried s c).b, regc := (tried s c).regc, rngCap := (tried s c).rngCap, lastIssue := (tried s c).lastIssue,
    lastEver := (tried s c).lastEver } := by
  unfold tried
  rw [entryCrew_frame s.opening c]
  cases s.cur.slot <;> rfl

theorem tried_slots (s : State) (c : Crew) : ((tried s c).slot s.cur.slot).mask = (c.slot s.cur.slot).mask ∧
    (tried s c).slot (!s.cur.slot) = c.slot (!s.cur.slot) := by
  have h : ((entryCrew s.opening c).slot s.cur.slot).mask = (c.slot s.cur.slot).mask ∧
    (entryCrew s.opening c).slot (!s.cur.slot) = c.slot (!s.cur.slot) := entryCrew_slots s.opening c
  unfold tried
  generalize entryCrew s.opening c = d at h
  revert h
  cases s.cur.slot <;> exact fun h => h

/-- The state in which the cause of crew `c0` is taken. -/
def raisedState (s : State) (c0 : Crew) : State := { s.opening.setCrew (tried s c0) with order := s.order + 1 }

/-- The crew that tried beside the crew as its instruction finds it. -/
theorem tried_start (s : State) (c0 : Crew) : tried s c0 = { startCrew s.opening c0 with
    queues := c0.queues, rng := c0.rng, a := (tried s c0).a, b := (tried s c0).b, regc := (tried s c0).regc, rngCap := (tried s c0).rngCap,
    lastIssue := (tried s c0).lastIssue, lastEver := (tried s c0).lastEver } := by
  rw [startCrew_frame]
  exact tried_frame s c0

theorem tried_beside {s : State} {c c0 : Crew} (hc : startCrew s.opening c0 = c) : SameBeside c (tried s c0) := by
  subst hc
  have h := tried_start s c0
  constructor <;> rw [h]

theorem startCrew_slot (s : State) (c : Crew) (k : Bool) : (startCrew s c).slot k = c.slot k := by
  rw [startCrew_frame]
  cases k <;> rfl

/-! `ctxDesc` reads a byte of the context table under the device key, and a byte that another key has written reads as a free value of the state's
stamp, which an issue advances (`State.opening`). So the BRKSYS that brk finds is that of `State.opening`, where the claims name that of the state
before. The two agree unless the bytes of the table are undefined; where they are, `Config.free`, an opaque constant, decides. -/

/-- A context's BRKSYS as the issue finds it is that of the state before. -/
def SameBrksys : Prop := ∀ (s : State) (n : Nat), (s.opening.ctxDesc n).brksys = (s.ctxDesc n).brksys

theorem ctxDesc_raisedState (s : State) (c0 : Crew) (n : Nat) : (raisedState s c0).ctxDesc n = s.opening.ctxDesc n := by
  have hread (pa : Nat) : (raisedState s c0).readPa pa 64 = s.opening.readPa pa 64 := by
    unfold State.readPa State.readKey
    rfl
  have htable (pa : Nat) : (raisedState s c0).tableBytes pa = s.opening.tableBytes pa := by
    unfold State.tableBytes
    rw [hread]
    rfl
  have h : (raisedState s c0).ctxBytes n = s.opening.ctxBytes n := by
    unfold State.ctxBytes
    rw [show (raisedState s c0).mgmt = s.opening.mgmt from rfl, htable]
    rfl
  unfold State.ctxDesc
  rw [h]

theorem crew?_raisedState {s : State} {c c0 : Crew} (hi : s.opening.issuer? = some c) (hid : (tried s c0).id = c.id) :
    (raisedState s c0).crew? (tried s c0).id = some (tried s c0) := by
  obtain ⟨-, y, hy, -⟩ := issuer_find hi
  unfold State.crew? raisedState State.setCrew
  rw [hid]
  exact find_map_id hy hid

theorem tvecOf_raisedState {s : State} {c c0 : Crew} (hc : startCrew s.opening c0 = c) :
    ({ raisedState s c0 with lastRaise := none } : State).tvecOf (tried s c0) = s.opening.tvecOf c := by
  subst hc
  have h := tried_start s c0
  unfold State.tvecOf seenSr
  rw [h]
  rfl

theorem startCrew_of_issuer {s : State} {c c0 : Crew} (hi : s.opening.issuer? = some c) (hc0 : s.opening.atCursor? = some c0) :
    startCrew s.opening c0 = c := by
  have h : s.opening.atCursor?.map (startCrew s.opening) = some c := hi
  rw [hc0] at h
  exact Option.some.inj h

/-- How a raised cause is taken. -/
theorem takeCause_raised {s : State} {c c0 : Crew} (hi : s.opening.issuer? = some c) (hc0 : s.opening.atCursor? = some c0) :
    (raisedState s c0).cur.crew = some (tried s c0).id ∧ (raisedState s c0).crew? (tried s c0).id = some (tried s c0) ∧ (tried s c0).id = c.id := by
  have hstart := startCrew_of_issuer hi hc0
  have hid : (tried s c0).id = c.id := by
    subst hstart
    rw [tried_start]
  refine ⟨?_, crew?_raisedState hi hid, hid⟩
  rw [hid]
  exact (issuer_find hi).1

/-- A crew-level cause that a crew can take at once enters the handler. -/
theorem entered_of_takeCause {t : State} {e : Crew} {x : Cause} {tvec : DWord} {line : List Byte} (hcur : t.cur.crew = some e.id)
    (hfind : t.crew? e.id = some e) (hx : x.crew = true) (hbrk : x.code = 0x15 → (t.ctxDesc e.ctx).brksys = false)
    (hcan : CanTrap t e t.cur.slot tvec line) :
    Entered t e t.cur.slot x (if x.next then t.cur.next else t.cur.first.getD t.cur.pc) t.cur.next tvec (t.takeCause x) := by
  obtain ⟨⟨hin, hq⟩, ⟨htv, hne⟩, hline⟩ := hcan
  subst htv
  have hno : ¬(x.crew = false ∨ x.code = 0x15 ∧ (t.ctxDesc e.ctx).brksys = true) := by
    rintro (h | ⟨h, h'⟩)
    · rw [hx] at h
      cases h
    · rw [hbrk h] at h'
      cases h'
  have hservice : ¬(e.insvc = true ∧ e.svcSlot = t.cur.slot) := fun h => by
    rw [hin] at h
    cases h.1
  have hroom : ¬(8 ≤ e.trapq.length ∨ t.tvecOf e = 0#64) := not_or.mpr ⟨by rw [hq]; decide, hne⟩
  have hnin : ¬e.insvc = true := by
    rw [hin]
    exact Bool.false_ne_true
  rw [takeCause_eq hcur hfind, if_neg hno, if_neg hservice, if_neg hroom, if_neg hnin]
  exact entered_of_deliver (x := x) hq hfind hline

theorem brk_stalls {t : State} {e : Crew} {x : Cause} (hcur : t.cur.crew = some e.id) (hfind : t.crew? e.id = some e) (hx : x.code = 0x15)
    (hsys : (t.ctxDesc e.ctx).brksys = true) : Stalls { t with lastRaise := some x } e x false (t.takeCause x) := by
  rw [takeCause_eq hcur hfind, if_pos (.inr ⟨hx, hsys⟩)]
  exact stallCrew_stalls (s := { t with lastRaise := some x }) hfind x false

/-- The crew that tried can take a trap where the crew that its instruction finds can. -/
theorem canTrap_raised {s : State} {c c0 : Crew} {tvec : DWord} {line : List Byte} (hstart : startCrew s.opening c0 = c)
    (hcan : CanTrap s.opening c s.cur.slot tvec line) : CanTrap (raisedState s c0) (tried s c0) s.cur.slot tvec line := by
  obtain ⟨⟨hin, hq⟩, ⟨htv, hne⟩, hline⟩ := hcan
  have hframe := tried_start s c0
  rw [hstart] at hframe
  have hmask : ((tried s c0).slot s.cur.slot).mask = (c.slot s.cur.slot).mask := by rw [(tried_slots s c0).1, ← hstart, startCrew_slot]
  refine ⟨⟨?_, ?_⟩, ⟨(tvecOf_raisedState hstart).trans htv, hne⟩, ?_⟩
  · rw [hframe]
    exact hin
  · rw [hframe]
    exact hq
  · rw [hmask, show raisedState s c0 = onto s.opening (raisedState s c0) from rfl, checkTarget_onto, show (tried s c0).core = c.core by rw [hframe],
      show (tried s c0).asid = c.asid by rw [hframe]]
    exact hline

/-- The handler entry of the crew that tried is that of the crew that its instruction finds. -/
theorem entered_raised {s t : State} {c c0 : Crew} {x : Cause} {ret after tvec : DWord} (hstart : startCrew s.opening c0 = c) (qs : List Word)
    (h : Entered (raisedState s c0) (tried s c0) s.cur.slot { x with queues := qs } ret after tvec t) : Entered s c s.cur.slot x ret after tvec t := by
  obtain ⟨⟨c', hcrews, hid', hpc, hst, hm, ho, hs1, hs2, hs3, hc1, hc2, htq, hb1, hb2, hb3, hb4, hb5, hb6⟩, hrest⟩ := h
  obtain ⟨r1, r2, r3, r4, r5, r6⟩ := tried_beside hstart
  obtain ⟨hmask, hother⟩ := tried_slots s c0
  have hid : (tried s c0).id = c.id := by rw [tried_start, hstart]
  have hmask' : ((tried s c0).slot s.cur.slot).mask = (c.slot s.cur.slot).mask := by rw [hmask, ← hstart, startCrew_slot]
  refine ⟨⟨c', ?_, hid'.trans hid, hpc, hst, hm.trans hmask', ?_, hs1, hs2, hs3, hc1, hc2, ?_, hb1.trans r1, hb2.trans r2, hb3.trans r3, hb4.trans r4,
    hb5.trans r5, hb6.trans r6⟩, hrest⟩
  · refine hcrews.trans ?_
    show (s.crews.map (fun y => if y.id == (tried s c0).id then tried s c0 else y)).map _ = _
    rw [hid, map_if_map hid]
  · refine ho.trans (hother.trans ?_)
    rw [← hstart, startCrew_slot]
  · rw [htq, hmask']
    rfl

theorem exec_of_raises {i : Instr} {s : State} {c : Crew} {sp : Spec} {x : Cause} (h : Raises i s c sp x id) :
    ∃ c0, s.opening.atCursor? = some c0 ∧ exec i s = .next ((raisedState s c0).takeCause { x with queues := (queuedFor c sp).1 }) := h

/-- A crew-level cause raised by a crew that can take a trap enters the handler. -/
theorem entered_of_raises {i : Instr} {s : State} {c : Crew} {sp : Spec} {x : Cause} {tvec : DWord} {line : List Byte}
    (hi : s.opening.issuer? = some c) (hr : Raises i s c sp x id) (hx : x.crew = true) (hbrk : x.code = 0x15 → (s.opening.ctxDesc c.ctx).brksys = false)
    (hcan : CanTrap s.opening c s.cur.slot tvec line) :
    Answers (exec i s) (Entered s c s.cur.slot x (if x.next then s.cur.next else s.cur.first.getD s.cur.pc) s.cur.next tvec) := by
  obtain ⟨c0, hc0, hexec⟩ := exec_of_raises hr
  obtain ⟨hcur, hfind, -⟩ := takeCause_raised hi hc0
  have hstart := startCrew_of_issuer hi hc0
  have hctx : (tried s c0).ctx = c.ctx := by rw [tried_start, hstart]
  have hcan' := canTrap_raised hstart hcan
  have hbrk' : x.code = 0x15 → ((raisedState s c0).ctxDesc (tried s c0).ctx).brksys = false := by
    rw [hctx, ctxDesc_raisedState]
    exact hbrk
  have hsame : (raisedState s c0).cur = s.cur := rfl
  have hmove := fun u => entered_raised (t := u) (x := x) (ret := if x.next then s.cur.next else s.cur.first.getD s.cur.pc) (after := s.cur.next)
    (tvec := tvec) hstart (queuedFor c sp).1
  rw [hexec]
  generalize raisedState s c0 = t at *
  rw [← hsame] at hcan'
  have h := entered_of_takeCause (x := { x with queues := (queuedFor c sp).1 }) hcur hfind hx hbrk' hcan'
  rw [hsame] at h
  exact ⟨_, rfl, hmove _ h⟩

/-! ## Software traps -/

/-- The body of trap and brk. -/
def trapBody (f : FormS) (code : Nat) (x : Ctx) (s : State) : Res Done :=
  if x.act = 0#64 then sysNop s else .error (.raise (crewCause code 0 (sysF f 15 0) 0#64 0#64 true))

theorem softwareTraps (hsame : SameBrksys) : SoftwareTraps := by
  intro f s c tvec line brk i code sp x cause hi hs
  have hexec : exec i s = issue sp (fun _ => bodyRA f ≠ 0 || bodyRB f ≠ 0 || bodyBits f 38 16 ≠ 0) (trapBody f code) s := by
    cases brk
    · show runTrap f 0x14 s = _
      unfold runTrap
      rw [sysBad_eq]
      rfl
    · show runTrap f 0x15 s = _
      unfold runTrap
      rw [sysBad_eq]
      rfl
  have hraises : x.act ≠ 0#64 → Raises i s c sp cause id := fun hact =>
    raises_of_issue hexec hi (by show trapBody f code x _ = _; unfold trapBody; rw [if_neg hact, sysF_eq]) rfl
  refine ⟨fun hact => ?_, fun hact hbrk hcan => ?_, fun hact hbrk hsys hnodup hgates => ?_⟩
  · rw [hexec]
    exact effect_completes (m := s.issued c sp) hi hs (by show trapBody f code x _ = _; unfold trapBody; rw [if_pos hact]; rfl) rfl rfl
  · have hcode : cause.code = 0x15 → (s.opening.ctxDesc c.ctx).brksys = false := by
      rw [hsame]
      cases brk
      · exact fun h => absurd h (by decide : (0x14 : Nat) ≠ 0x15)
      · exact fun _ => hbrk rfl
    exact entered_of_raises hi.crew (hraises hact) rfl hcode hcan
  · obtain ⟨c0, hc0, hex⟩ := exec_of_raises (hraises hact)
    obtain ⟨hcur, hfind, hid⟩ := takeCause_raised hi.crew hc0
    refine ⟨c0, hc0, ?_⟩
    intro e k
    refine ⟨_, hex, ?_⟩
    subst hbrk
    have hctx : (tried s c0).ctx = c.ctx := by rw [tried_start, startCrew_of_issuer hi.crew hc0]
    exact brk_stalls hcur hfind rfl (by rw [hctx, ctxDesc_raisedState, hsame]; exact hsys)

/-! ## The return from a trap -/

/-- What a reader sees of a special register that no SETS is about to change. -/
theorem seenSr_settled {s : State} {c : Crew} {sr : Nat} (h : ∀ o ∈ c.srOld, o.sr ≠ sr) (now : List Row) : seenSr s c sr now = now := by
  unfold seenSr
  generalize c.srOld = os at h
  induction os with
  | nil => rfl
  | cons o os ih =>
    rw [List.foldr_cons, if_neg (fun hsr => h o List.mem_cons_self hsr.1)]
    exact ih fun o' ho' => h o' (List.mem_cons_of_mem _ ho')

theorem seenSkip_settled {s : State} {c : Crew} (h : ∀ o ∈ c.srOld, o.sr ≠ 0x20) : s.seenSkip c = c.skip := by
  unfold State.seenSkip
  rw [seenSr_settled h]
  cases c.skip <;> decide

/-- The crew after the return from its only trap. -/
def returned (k : Bool) (e : TrapEntry) (skip : Bool) (c : Crew) : Crew :=
  let pc := if skip then e.after else e.ret
  let p : PcSlot := { c.slot k with
    st := .running
    pc := pc
    mask := e.mask &&& ~~~c.exited
    line := []
    barWait := none }
  markRegion { c.setSlot k p with
    trapq := []
    insvc := false
    svcSlot := false
    trapcause := 0#32
    trapva := 0#64 } k pc

theorem returned_keeps (k : Bool) (e : TrapEntry) (skip : Bool) (c : Crew) : (returned k e skip c).id = c.id ∧ (returned k e skip c).depth = c.depth ∧
    ((returned k e skip c).slot k).st = .running ∧ (returned k e skip c).slot (!k) = c.slot (!k) ∧
    ((returned k e skip c).slot k).pc = (if skip then e.after else e.ret) ∧ ((returned k e skip c).slot k).mask = e.mask &&& ~~~c.exited := by
  cases k <;> exact ⟨rfl, rfl, rfl, rfl, rfl, rfl⟩

theorem returned_eq {k skip : Bool} {e : TrapEntry} {c : Crew} (hm : e.mask &&& ~~~c.exited ≠ 0#64) :
    (let pc := if skip then e.after else e.ret
     let m := e.mask &&& ~~~c.exited
     let d := c.setSlot k (if m = 0#64 then PcSlot.empty else { c.slot k with st := .running, pc := pc, mask := m, line := [], barWait := none })
     let d : Crew := { d with trapq := [], insvc := false, svcSlot := false, trapcause := 0#32, trapva := 0#64 }
     markRegion d k pc) = returned k e skip c := by
  dsimp only
  rw [if_neg hm]
  rfl

/-- The body of tret. -/
def tretBody (x : Ctx) (s : State) : Res Done :=
  match x.c.trapq with
  | [] => sysNop s
  | e :: rest =>
    if x.act = 0#64 ∨ !x.c.insvc then sysNop s
    else if x.c.svcSlot ≠ x.k ∨ (e.mask &&& ~~~x.c.exited) &&& ~~~x.act ≠ 0#64 then .error (.raise (sysCause 0x08 0 0 0#64 0#64))
    else .ok { s := s.trapReturn x.id x.k e rest, wr := [], ctl := true }

theorem exec_tret_body (f : FormS) (s : State) : exec (.tret f) s = issue (specS f [] [] .none) (fun _ => f.body ≠ 0#55) tretBody s := rfl


/-- The return from the only trap changes the issuing crew alone. -/
theorem trapReturn_last {s : State} {c : Crew} {sp : Spec} {e : TrapEntry}
    (hold : ∀ o ∈ c.srOld, o.sr ≠ 0x20) (hm : e.mask &&& ~~~c.exited ≠ 0#64) :
    (s.issued c sp).trapReturn (s.view c sp).id (s.view c sp).k e [] = (s.issued c sp).modCrew c.id (returned s.cur.slot e c.skip) := by
  have hframe := issuing_frame s c sp
  have hold' : ∀ o ∈ (s.issuing c sp).srOld, o.sr ≠ 0x20 := fun o ho => hold o (List.mem_of_mem_filter ho)
  have hskip : (s.issued c sp).seenSkip (s.issuing c sp) = c.skip := by
    rw [seenSkip_settled hold', hframe]
  rw [view_id]
  unfold State.trapReturn
  refine modCrew_congr fun y hy hyid => ?_
  rw [issued_crews] at hy
  obtain ⟨y0, -, rfl⟩ := List.mem_map.mp hy
  by_cases h : (y0.id == c.id) = true
  · rw [if_pos h, hskip]
    exact returned_eq (by rw [hframe]; exact hm)
  · rw [if_neg h] at hyid
    exact absurd (beq_iff_eq.mpr hyid) h

theorem trapReturns : TrapReturns := by
  intro f s c sp x k hi hs
  have hframe : x.c = _ := view_c_frame s c sp
  have hq : x.c.trapq = c.trapq := by rw [hframe]
  have hin : x.c.insvc = c.insvc := by rw [hframe]
  have hslot : x.c.svcSlot = c.svcSlot := by rw [hframe]
  have hex : x.c.exited = c.exited := by rw [hframe]
  have hissuing := issuing_frame s c sp
  refine ⟨fun hidle => ?_, fun e hact hqe hins hsvc hold hm hlive => ?_, fun e rest hact hqe hins hbad => ?_⟩
  · rw [exec_tret_body]
    refine effect_completes (m := s.issued c sp) (wr := []) hi hs ?_ rfl rfl
    show tretBody x _ = _
    unfold tretBody
    rw [hq, hin]
    cases hc : c.trapq with
    | nil => rfl
    | cons e rest =>
      refine if_pos ?_
      rcases hidle with h | h | h
      · exact .inl h
      · rw [hc] at h
        cases h
      · exact .inr (by rw [h]; rfl)
  · have hbody : tretBody x (s.issued c sp) = .ok { s := (s.issued c sp).modCrew c.id (returned k e c.skip), wr := [], ctl := true } := by
      rw [← trapReturn_last hold hm]
      unfold tretBody
      rw [hq, hin, hslot, hex, hqe, hins]
      refine (if_neg (by simpa using hact)).trans ((if_neg ?_).trans rfl)
      rintro (h | h)
      · exact h hsvc
      · exact h hlive
    obtain ⟨hid, hdepth, hst, hother, -, -⟩ := returned_keeps k e c.skip (s.issuing c sp)
    have hex0 : (s.issuing c sp).exited = c.exited := by rw [hissuing]
    have h := moved_of_body (m := s.issued c sp) (k := k) hi hbody rfl rfl (fun y => (returned_keeps k e c.skip y).1) hst (by
      rw [hother, issuing_st, hdepth, issuing_depth]
      exact hs.2)
    unfold returned at h
    rw [hex0] at h
    rw [exec_tret_body]
    exact answers_mono h fun t => moved_withCrews (m := s.opening)
  · refine raises_of_issue (exec_tret_body f s) hi ?_ rfl
    show tretBody x _ = _
    unfold tretBody
    rw [hq, hin, hslot, hex, hqe, hins]
    exact (if_neg (by simpa using hact)).trans (if_pos hbad)

/-! ## Completion -/

/-- A crew that has entered its handler stands in it. -/
theorem stands_of_entered {s t : State} {c : Crew} {k : Bool} {x : Cause} {ret after tvec : DWord} (hi : s.opening.issuer? = some c)
    (h : Entered s c k x ret after tvec t) : Stands t c.id k tvec (c.slot k).mask := by
  obtain ⟨⟨c', hcrews, hid, hpc, hst, hmask, -⟩, -⟩ := h
  obtain ⟨c0, hmem, hid0⟩ := exists_crew_of_issuer hi
  refine ⟨c', ?_, hid, hpc, hmask, hst⟩
  rw [hcrews]
  exact List.mem_map.mpr ⟨c0, hmem, if_pos (by simp [hid0])⟩

theorem trapsComplete (hsame : SameBrksys) : TrapsComplete := by
  intro f s c hs sp x k
  refine ⟨fun line hi hact hin hq htv hline => ?_, fun e hi hact hqe hins hsvc hold hm hlive => ?_⟩
  · have hcan : CanTrap s.opening c k (s.opening.tvecOf c) line := ⟨⟨hin, hq⟩, ⟨rfl, htv⟩, enterable_checkTarget hline _⟩
    refine ⟨?_, fun hbrk => ?_⟩
    · obtain ⟨-, h, -⟩ := softwareTraps hsame f s c (s.opening.tvecOf c) line false hi hs
      exact answers_mono (h hact (fun hno => by cases hno) hcan) fun t => stands_of_entered hi.crew
    · obtain ⟨-, h, -⟩ := softwareTraps hsame f s c (s.opening.tvecOf c) line true hi hs
      exact answers_mono (h hact (fun _ => hbrk) hcan) fun t => stands_of_entered hi.crew
  · obtain ⟨-, h, -⟩ := trapReturns f s c hi hs
    refine answers_mono (h e hact hqe hins hsvc (by rw [hold]; exact fun o ho => by cases ho) hm hlive) fun t ht => ?_
    obtain ⟨hid, -, hst, -, hpc, hmask⟩ := returned_keeps k e c.skip (s.issuing c sp)
    have hex : (s.issuing c sp).exited = c.exited := by rw [issuing_frame]
    rw [hex] at hmask
    have hmoved : Moved s s.opening t (returned k e c.skip (s.issuing c sp)) sp [] := by
      unfold returned
      rw [hex]
      exact ht
    obtain ⟨c', hmem, hid', hslot⟩ := stands_of_moved hi.crew (hid.trans (issuing_id ..)) hmoved
    exact ⟨c', hmem, hid', by rw [hslot, hpc], by rw [hslot, hmask], by rw [hslot, hst]⟩

/-- The statement holds where BRKSYS is one and the same before an issue and in it. -/
theorem trapsAndReturns_of_sameBrksys (hsame : SameBrksys) : Obligations.TrapsAndReturns :=
  ⟨softwareTraps hsame, trapReturns, trapsComplete hsame⟩

end Sys2Proof.Proofs.TrapRows
end

