-- ==== Sys2Proof/Proofs/GateRows.lean ====
section
/-!
PROOF. Proofs/GateRows.lean: a gate whose acquire performs a write to the entry of the domain that it calls (10 R215, R216; 11 R235).
-/

namespace Sys2Proof.Proofs.GateRows

open Sys2Proof Sys2Proof.Machine Sys2Proof.Claims

/-! ## A domain that changes while it is called

The callee's address space and privilege are those of the domain entry as it stands after the acquire of the gate (R216, R235), and
`GateCalls` takes them from the entry as it stood when the checks were made. In the state below a write of another die to the entry of domain 3
is on its way, and the caller's die knows of it, so that the acquire performs it: the callee runs in address space 2, where the entry that was
checked names address space 1. -/

/-- A line of nops, each of them a target. -/
def calleeLine : List Byte := buildLine 0x1F#32 (List.replicate 5 0x7240003C0000000000000000#96)

/-- The entry of a domain of privilege 1, with the last gate and the gate table given. -/
def domainEntry (asid gtn gtab : Nat) : List Byte :=
  leBytes 4 (2 ^ 31 + 2 ^ 28 + asid) ++ leBytes 4 gtn ++ leBytes 8 gtab ++ leBytes 8 0x100000 ++ leBytes 8 0x19000 ++ leBytes 4 4 ++ leBytes 4 0 ++
    leBytes 4 (2 ^ 31 + 5) ++ leBytes 20 0

/-- Gate 3 of the caller's domain: into domain 3 at 0x10040, with 32 registers. -/
def calledEntry : GateEntry :=
  { n := 32, minpriv := 0, tdom := 3, pass := 0xF0#32, ret := 0xC00#32, budget := 1000, entry := 0x10040#64, ht := 0x107FF#64, ttvec := 0x10041#64,
    woff := 0, wsize := 0 }

def calledBytes : List Byte :=
  leBytes 4 (2 ^ 31 + 2 ^ 28 + 3) ++ leBytes 4 0xF0 ++ leBytes 4 0xC00 ++ leBytes 4 1000 ++ leBytes 8 0x10040 ++ leBytes 8 0x107FF ++ leBytes 8 0x10041 ++
    leBytes 24 0

/-- The write on its way: domain 3 gets address space 2. -/
def domainWrite : Arriving :=
  { src := 1, dst := 0, clock := [], num := 1, pa := 0x2000C0, bytes := domainEntry 2 0 0, poison := false, key := 0 }

/-- The caller, about to issue. -/
def gateCaller : Crew := { Crew.start 1 1 1 1 0x10000#64 with dent := domainEntry 1 5 0x18000 }

/-- Its machine: die 0 knows of the write of die 1. -/
def gateMachine : State :=
  let s : State := { State.reset with
    mgmt := { Mgmt.reset with boot := true, stage := 3, dieup := 15#4, stackup := 255#8, domtab := 0x200000#64 }
    order := 2
    crews := [gateCaller]
    blocks := [Block.start 1 1 1]
    cur := { Cursor.idle with crew := some 1, pc := 0x10000#64, next := 0x10001#64 } }
  let s := ((((s.mapPage 1).writePa 0x110040 calleeLine).writePa 0x1180C0 calledBytes).writePa 0x2000C0 (domainEntry 1 0 0)).invalidate none none
  { s with arriving := [domainWrite], dieClk := s.dieClk.set 0 [0, 1, 0, 0] }

/-- gate 3. -/
def gate3 : FormS := { h := hd 15#4, ga := Guard.none, body := 3 }
def gateSpec : Spec := sysSpec gate3 [] false true
def gateIssued : State := gateMachine.issued gateCaller gateSpec

theorem gateMachine_issues : Issues gateMachine gateCaller gateSpec (fun _ => bodyRA gate3 ≠ 0 || bodyRB gate3 ≠ 0 || bodyBits gate3 38 9 ≠ 0) :=
  ⟨rfl, by decide +kernel, rfl, by decide, by decide, by decide, by decide⟩

/-- The value of a check that passes. -/
def okValue {ε α : Type} : Except ε α → Option α
  | .ok a => some a
  | .error _ => none

theorem eq_ok_of_okValue {ε α : Type} {r : Except ε α} {a : α} (h : okValue r = some a) : r = .ok a := by
  cases r with
  | ok b => rw [Option.some.inj h]
  | error _ => cases h

theorem gateMachine_checks : gateIssued.gateCheck (gateMachine.view gateCaller gateSpec) (bodyBits gate3 7 0) = .ok calledEntry :=
  eq_ok_of_okValue (by decide +kernel)

/-- The state in which the target is checked. -/
def gateEntered : State := gateIssued.useDomain calledEntry.tdom

theorem gateMachine_target : gateEntered.checkTarget gateCaller.core (gateEntered.domain calledEntry.tdom).asid calledEntry.entry
    (gateMachine.view gateCaller gateSpec).act true = .ok calleeLine :=
  eq_ok_of_okValue (by decide +kernel)

theorem gateMachine_domain : (gateEntered.domain calledEntry.tdom).asid = 1 := by decide +kernel

/-- The address space of crew 1 after an outcome. -/
def asidAfter : Out → Option Nat
  | .next t => (t.crew? 1).map Crew.asid
  | .fault _ => none
  | .refused _ => none

theorem asidAfter_gate3 : asidAfter (exec (.gate gate3) gateMachine) = some 2 := by
  show asidAfter (execGate gate3 gateMachine) = some 2
  decide +kernel

theorem gateMachine_idle : gateCaller.flights = [] ∧ crewIdle gateCaller = true ∧
    (∀ h, (gateMachine.core gateCaller.core).gateWait.head? = some h → h = gateCaller.id) ∧
    unitHole (gateMachine.core gateCaller.core).gateUse (calledEntry.n / 16) ≠ none := by
  have hwait : (gateMachine.core gateCaller.core).gateWait = [] := by decide +kernel
  refine ⟨rfl, by decide +kernel, fun h hh => ?_, by decide +kernel⟩
  rw [hwait] at hh
  cases hh

theorem gateMachine_crews : ∀ y ∈ gateMachine.crews, y.asid = 1 := by decide +kernel

/-- Refutes O32: the callee runs in address space 2, and the domain entry that the gate has checked names address space 1. -/
theorem not_gateCallsAndReturns : ¬ Obligations.GateCallsAndReturns := by
  rintro ⟨hcalls, -⟩
  obtain ⟨h, -⟩ := hcalls gate3 gateMachine gateCaller
  obtain ⟨t, ht, m, e', ⟨c', hcrews, hframe, -⟩, hstart, -⟩ := h calledEntry calleeLine gateMachine_issues gateMachine_idle.1 gateMachine_idle.2.1
    gateMachine_checks gateMachine_target gateMachine_idle.2.2.1 gateMachine_idle.2.2.2
  obtain ⟨-, -, hasid, -⟩ := hstart.level
  have hafter := asidAfter_gate3
  rw [ht, hcrews] at hafter
  obtain ⟨y, hy, hy2⟩ := Option.map_eq_some_iff.mp hafter
  obtain ⟨y0, hy0, rfl⟩ := List.mem_map.mp (List.mem_of_find?_eq_some hy)
  have hy1 : (if (y0.id == e'.id) = true then c' else y0).asid = 1 := by
    split
    · rw [hframe]
      exact hasid.trans gateMachine_domain
    · exact gateMachine_crews y0 hy0
  rw [hy1] at hy2
  cases hy2

end Sys2Proof.Proofs.GateRows
end

