-- ==== Sys2Proof/Proofs/MaintenanceRows.lean ====
section
/-!
PROOF. Proofs/MaintenanceRows.lean: ifence, icinv, cwb, cinv, tlbinv and sigh (10 R222 to R224, R228).
-/

namespace Sys2Proof.Proofs.MaintenanceRows

open Sys2Proof Sys2Proof.Machine Sys2Proof.Claims Sys2Proof.Proofs.IssueRules Sys2Proof.Proofs.MatrixInstructions Sys2Proof.Proofs.SystemFields
open Sys2Proof.Proofs.MemoryFrames Sys2Proof.Proofs.MemoryBlindness Sys2Proof.Proofs.CausesAndRecords Sys2Proof.Proofs.ConversionRows
open Sys2Proof.Proofs.CommandRows Sys2Proof.Proofs.TransferRules Sys2Proof.Proofs.StoreRows Sys2Proof.Proofs.JoinExit Sys2Proof.Proofs.BarrierRows

/-! ## Releases do not look at the crews -/

theorem release_withCrews (s : State) (cs : List Crew) : State.release { s with crews := cs } = { s.release with crews := cs } := by
  have hm := release_memStep s
  have hcore : s.release.blocks = s.blocks ∧ s.release.cores = s.cores ∧ s.release.ops = s.ops ∧ s.release.accas = s.accas ∧ s.release.accfs = s.accfs := by
    rw [hm]
    exact ⟨rfl, rfl, rfl, rfl, rfl⟩
  have hcur : s.release.cur = s.cur ∧ s.release.order = s.order ∧ s.release.lastRaise = s.lastRaise ∧ s.release.heldMark = s.heldMark := by
    rw [hm]
    exact ⟨rfl, rfl, rfl, rfl⟩
  obtain ⟨h1, h2, h3, h4, h5⟩ := hcore
  obtain ⟨h6, h7, h8, h9⟩ := hcur
  refine (release_blind s { s with crews := cs }).trans ?_
  unfold onto
  dsimp only
  rw [← h1, ← h2, ← h3, ← h4, ← h5, ← h6, ← h7, ← h8, ← h9]

theorem issued_eq (s : State) (c : Crew) (sp : Spec) : s.issued c sp = { s.opening with crews := (s.issued c sp).crews } := rfl

theorem postMsix_withCrews (s : State) (cs : List Crew) (v : Nat) : State.postMsix { s with crews := cs } v = { s.postMsix v with crews := cs } := by
  have haddr : State.msixAddr { s with crews := cs } v = s.msixAddr v := rfl
  unfold State.postMsix
  rw [haddr]
  by_cases h1 : 2048 ≤ v ∨ s.msixAddr v = 0
  · rw [if_pos h1, if_pos h1]
  · rw [if_neg h1, if_neg h1]
    by_cases h2 : (!s.mgmt.msixOpen.contains v) = true
    · rw [if_pos h2, if_pos h2]
      by_cases h3 : s.mgmt.msixPending.contains v = true
      · rw [if_pos h3, if_pos h3]
      · rw [if_neg h3, if_neg h3]
    · rw [if_neg h2, if_neg h2]

/-- An instruction that releases and then does what looks at no crew. -/
theorem releases_then {s : State} {c : Crew} {sp : Spec} {bad : Crew → Bool} {body : Ctx → State → Res Done} {G : State → State}
    (hi : Issues s c sp bad) (hs : Steady s c) (hb : body (s.view c sp) (s.issued c sp) = sysNop (G (s.issued c sp).release))
    (hG : ∀ t cs, G { t with crews := cs } = { G t with crews := cs }) (hcyc : ∀ t, (G t).cycle = t.cycle) :
    Answers (issue sp bad body s) (fun t => Completed s (G s.opening.release) t (s.issuing c sp) sp []) := by
  have hrel : (s.issued c sp).release = { s.opening.release with crews := (s.issued c sp).crews } := release_withCrews s.opening _
  have hcycle : (G s.opening.release).cycle = s.cycle := (hcyc _).trans ((MemStep.cycle (release_memStep s.opening)).trans rfl)
  rw [hrel, hG] at hb
  exact effect_completes (m := { G s.opening.release with crews := (s.issued c sp).crews }) hi hs hb rfl hcycle

/-! ## Operands -/

/-- The virtual address of the lowest lane, in the pair at RA. -/
def rangeVa (f : FormS) (x : Ctx) (s : State) : Nat :=
  (rowAt (x.plain s.opening (bodyRA f + 1)) x.l0).toNat * 2 ^ 32 + (rowAt (x.plain s.opening (bodyRA f)) x.l0).toNat
/-- The word of the lowest lane in RB. -/
def rangeLen (f : FormS) (x : Ctx) (s : State) : Nat := (rowAt (x.plain s.opening (bodyRB f)) x.l0).toNat

theorem rangeVa_issued (f : FormS) (x : Ctx) (s : State) (c : Crew) (sp : Spec) : (x.wide (s.issued c sp) (sysRA f) .b64 x.l0).toNat = rangeVa f x s := by
  obtain ⟨hlo, hhi⟩ := wide_pair_toNat x (s.issued c sp) (sysRA f) x.l0
  rw [sysRA_toNat] at hlo hhi
  unfold rangeVa
  rw [← plain_issued x s c sp, ← plain_issued x s c sp]
  omega

theorem rangeLen_issued (f : FormS) (x : Ctx) (s : State) (c : Crew) (sp : Spec) :
    (rowAt (x.plain (s.issued c sp) (sysRB f).toNat) x.l0).toNat = rangeLen f x s := by
  rw [sysRB_toNat]
  rfl

/-! ## icinv, cwb, cinv (R223) -/

/-- What an instruction on a range does to its lines. -/
def rangeEffect (inv : Bool) (asid va len : Nat) (s : State) : State :=
  if inv then s.dropLines (fun l => l.asid == asid && decide (va / 64 * 64 ≤ l.va) && decide (l.va < va + len)) else s

/-- The body of icinv, cwb and cinv. -/
def rangeBody (f : FormS) (inv : Bool) (x : Ctx) (s : State) : Res Done :=
  if x.act = 0#64 then sysNop s
  else
    let va := (x.wide s (sysRA f) .b64 x.l0).toNat
    let len := (rowAt (x.plain s (sysRB f).toNat) x.l0).toNat
    let s := s.release
    if len = 0 then sysNop s
    else
      match s.rangeFault x.c.asid va ((va % 65536 + len + 65535) / 65536) 0 with
      | some (e, a) =>
        (match e.lost with
        | some pa => .error (.stop (.noSuchPhysical pa))
        | none => .error (s.xfailSig e a (1#64 <<< x.l0)))
      | none => sysNop (rangeEffect inv x.c.asid va len s)

/-- Check 6 of an instruction on a range. -/
def rangeBad (f : FormS) (c : Crew) : Bool := bodyBits f 38 0 ≠ 0 || ctlQueueBad c (bodyRA f) 2 || ctlQueueBad c (bodyRB f) 1
def rangeSpec (f : FormS) : Spec := sysSpec f [grp (sysRA f) 2, one (sysRB f)] true false

theorem runMaint_eq (f : FormS) (inv : Bool) (s : State) : runMaint f inv s = issue (rangeSpec f) (rangeBad f) (rangeBody f inv) s := by
  have hbad : (fun c => sysBad f true true 0 || ctlQueueBad c (sysRA f).toNat 2 || ctlQueueBad c (sysRB f).toNat 1) = rangeBad f := by
    funext c
    rw [sysBad_eq, sysRA_toNat, sysRB_toNat]
    rfl
  unfold runMaint
  rw [hbad]
  rfl

section Range

variable {f : FormS} {s : State} {c : Crew} (inv : Bool)

theorem rangeBody_empty (hi : Issues s c (rangeSpec f) (rangeBad f)) (hs : Steady s c) (hact : (s.view c (rangeSpec f)).act = 0#64) :
    Answers (runMaint f inv s) (fun t => Completed s s.opening t (s.issuing c (rangeSpec f)) (rangeSpec f) []) := by
  rw [runMaint_eq]
  exact effect_completes (m := s.issued c (rangeSpec f)) hi hs (if_pos hact) rfl rfl

theorem rangeBody_release (hi : Issues s c (rangeSpec f) (rangeBad f)) (hs : Steady s c) (hact : (s.view c (rangeSpec f)).act ≠ 0#64)
    (hlen : rangeLen f (s.view c (rangeSpec f)) s = 0) :
    Answers (runMaint f inv s) (fun t => Completed s s.opening.release t (s.issuing c (rangeSpec f)) (rangeSpec f) []) := by
  rw [runMaint_eq]
  refine releases_then (G := id) hi hs ?_ (fun _ _ => rfl) (fun _ => rfl)
  refine (if_neg hact).trans (if_pos ?_)
  rw [rangeLen_issued, hlen]

theorem rangeBody_effect (hi : Issues s c (rangeSpec f) (rangeBad f)) (hs : Steady s c) (hact : (s.view c (rangeSpec f)).act ≠ 0#64)
    (hlen : 0 < rangeLen f (s.view c (rangeSpec f)) s)
    (hfault : (s.issued c (rangeSpec f)).release.rangeFault c.asid (rangeVa f (s.view c (rangeSpec f)) s)
      ((rangeVa f (s.view c (rangeSpec f)) s % 65536 + rangeLen f (s.view c (rangeSpec f)) s + 65535) / 65536) 0 = none) :
    Answers (runMaint f inv s) (fun t => Completed s (rangeEffect inv c.asid (rangeVa f (s.view c (rangeSpec f)) s) (rangeLen f (s.view c (rangeSpec f)) s)
      s.opening.release) t (s.issuing c (rangeSpec f)) (rangeSpec f) []) := by
  obtain ⟨-, -, -, hasid, -⟩ := view_c_fields s c (rangeSpec f)
  rw [runMaint_eq]
  refine releases_then (G := rangeEffect inv c.asid _ _) hi hs ?_ (fun t cs => by cases inv <;> rfl) (fun t => by cases inv <;> rfl)
  refine (if_neg hact).trans ?_
  dsimp only
  rw [rangeVa_issued, rangeLen_issued, hasid, if_neg (Nat.ne_of_gt hlen), hfault]

end Range

theorem rangeVa_lt (f : FormS) (x : Ctx) (s : State) : rangeVa f x s < 2 ^ 64 := by
  have hlo : (rowAt (x.plain s.opening (bodyRA f)) x.l0).toNat < 2 ^ 32 := BitVec.isLt _
  have hhi : (rowAt (x.plain s.opening (bodyRA f + 1)) x.l0).toNat < 2 ^ 32 := BitVec.isLt _
  unfold rangeVa
  omega

/-- A range in one page meets no fault where its page translates. -/
theorem rangeFault_page {t : State} {asid va len : Nat} (hlen : 0 < len) (hpage : va % 65536 + len ≤ 65536) (hva : va < 2 ^ 64) (hcanon : canonical va = true)
    (hplace : ∃ l, t.place asid va { r := false, w := false, x := false, space := 0 } 13 = .ok l) :
    t.rangeFault asid va ((va % 65536 + len + 65535) / 65536) 0 = none := by
  obtain ⟨l, hl⟩ := hplace
  have hone : (va % 65536 + len + 65535) / 65536 = 1 := by omega
  rw [hone]
  unfold State.rangeFault
  simp only [if_true, Nat.mod_eq_of_lt hva, hcanon, Bool.not_true, Bool.false_eq_true, if_false, hl]
  rfl

/-! ## tlbinv (R224) and sigh (R228) -/

/-- The size of the pages that tlbinv.va names. -/
def pageSize (f : FormS) : Nat := match sysF f 1 0 with
  | 0 => 0x10000
  | 1 => 0x200000
  | _ => 0x40000000

theorem pageSize_eq {f : FormS} (h : bodyBits f 1 0 ≠ 3) : pageSize f = 2 ^ [16, 21, 30].getD (bodyBits f 1 0) 0 := by
  have hlt : bodyBits f 1 0 < 4 := Nat.mod_lt _ (by decide)
  unfold pageSize
  rw [sysF_eq]
  generalize bodyBits f 1 0 = n at *
  interval_cases n
  · rfl
  · rfl
  · rfl
  · exact absurd rfl h

/-- What tlbinv.va does after its release. -/
def dropPage (asid size va : Nat) (s : State) : State :=
  let s := s.invalidate (some asid) (some (va / size * size, size))
  { s with tlb := s.tlb.filter (fun t => !(t.asid == asid && t.size == size && t.va == va / size * size)) }

theorem tlbinvVa_row {f : FormS} {s : State} {c : Crew} :
    let sp := sysSpec f [grp (sysRA f) 2, one (sysRB f)] true false
    let x := s.view c sp
    Issues s c sp (fun c => bodyBits f 38 2 ≠ 0 || bodyBits f 1 0 == 3 || ctlQueueBad c (bodyRA f) 2 || ctlQueueBad c (bodyRB f) 1) → Steady s c → x.act ≠ 0#64 →
    Answers (exec (.tlbinvVa f) s) (fun t => Completed s (dropPage (rangeLen f x s % 65536) (2 ^ [16, 21, 30].getD (bodyBits f 1 0) 0) (rangeVa f x s) s.opening.release) t
      (s.issuing c sp) sp []) := by
  intro sp x hi hs hact
  have hsize : bodyBits f 1 0 ≠ 3 := fun h => by
    have hrest := hi.rest
    simp [h] at hrest
  have hexec : ∃ body, exec (.tlbinvVa f) s = issue sp (fun c => bodyBits f 38 2 ≠ 0 || bodyBits f 1 0 == 3 || ctlQueueBad c (bodyRA f) 2 || ctlQueueBad c (bodyRB f) 1) body s ∧
      ∀ x s, x.act ≠ 0#64 → body x s = sysNop (dropPage ((rowAt (x.plain s (sysRB f).toNat) x.l0).toNat % 65536) (pageSize f) (x.wide s (sysRA f) .b64 x.l0).toNat s.release) := by
    have hbad : (fun c => sysBad f true true 2 || sysF f 1 0 == 3 || ctlQueueBad c (sysRA f).toNat 2 || ctlQueueBad c (sysRB f).toNat 1) =
        fun c => bodyBits f 38 2 ≠ 0 || bodyBits f 1 0 == 3 || ctlQueueBad c (bodyRA f) 2 || ctlQueueBad c (bodyRB f) 1 := by
      funext c
      rw [sysBad_eq, sysRA_toNat, sysRB_toNat, sysF_eq]
      rfl
    rw [← hbad]
    refine ⟨_, exec_tlbinvVa f s, ?_⟩
    intro x s hact
    exact if_neg hact
  obtain ⟨body, hexec, hbody⟩ := hexec
  rw [hexec, ← pageSize_eq hsize]
  refine releases_then (G := dropPage _ _ _) hi hs ?_ (fun _ _ => rfl) (fun _ => rfl)
  rw [hbody _ _ hact, rangeVa_issued, rangeLen_issued]

/-- What tlbinv.asid leaves after its release, the roots of address spaces given. -/
def dropAsid (asid : Nat) (roots : List (Nat × Nat)) (s : State) : State := { s.invalidate (some asid) none with
  tlb := s.tlb.filter (fun t => t.asid ≠ asid), hcache := s.hcache.filter (fun h => h.asid ≠ asid), asids := roots }

theorem tlbinvAsid_row {f : FormS} {s : State} {c : Crew} :
    let sp := sysSpec f [one (sysRB f)] true false
    let x := s.view c sp
    Issues s c sp (fun c => bodyRA f ≠ 0 || bodyBits f 38 0 ≠ 0 || ctlQueueBad c (bodyRB f) 1) → Steady s c → x.act ≠ 0#64 →
    Answers (exec (.tlbinvAsid f) s) (fun t => ∃ roots, Completed s (dropAsid (rangeLen f x s % 65536) roots s.opening.release) t (s.issuing c sp) sp []) := by
  intro sp x hi hs hact
  have hbad : (fun c => sysBad f false true 0 || ctlQueueBad c (sysRB f).toNat 1) =
      fun c => bodyRA f ≠ 0 || bodyBits f 38 0 ≠ 0 || ctlQueueBad c (bodyRB f) 1 := by
    funext c
    rw [sysBad_eq, sysRB_toNat]
    simp
  have hexec : ∃ body, exec (.tlbinvAsid f) s = issue sp (fun c => sysBad f false true 0 || ctlQueueBad c (sysRB f).toNat 1) body s ∧
      ∀ x s, x.act ≠ 0#64 → ∃ roots, body x s = sysNop (dropAsid ((rowAt (x.plain s (sysRB f).toNat) x.l0).toNat % 65536) roots s.release) := by
    refine ⟨_, exec_tlbinvAsid f s, ?_⟩
    intro x s hact
    exact ⟨_, if_neg hact⟩
  obtain ⟨body, hexec, hbody⟩ := hexec
  obtain ⟨roots, hroots⟩ := hbody x (s.issued c sp) hact
  rw [rangeLen_issued] at hroots
  rw [hexec, hbad]
  exact answers_mono (releases_then (G := dropAsid (rangeLen f x s % 65536) roots) hi hs hroots (fun _ _ => rfl) (fun _ => rfl)) fun t ht => ⟨roots, ht⟩

/-- What tlbinv.all leaves after its release. -/
def dropAll (roots : List (Nat × Nat)) (s : State) : State := { s.invalidate none none with tlb := [], hcache := [], asids := roots }

theorem body_eq_zero (f : FormS) : decide (f.body ≠ 0#55) = (decide (bodyRA f ≠ 0) || decide (bodyRB f ≠ 0) || decide (bodyBits f 38 0 ≠ 0)) := by
  have hlt := f.body.isLt
  have hzero : f.body = 0#55 ↔ f.body.toNat = 0 := by rw [← BitVec.toNat_inj]; rfl
  rw [← Bool.decide_or, ← Bool.decide_or, decide_eq_decide, ne_eq, hzero]
  unfold bodyRA bodyRB bodyBits
  omega

theorem tlbinvAll_row {f : FormS} {s : State} {c : Crew} :
    let sp := sysSpec f [] true false
    Issues s c sp (fun _ => f.body ≠ 0#55) → Steady s c → (s.view c sp).act ≠ 0#64 →
    Answers (exec (.tlbinvAll f) s) (fun t => ∃ roots, Completed s (dropAll roots s.opening.release) t (s.issuing c sp) sp []) := by
  intro sp hi hs hact
  have hbad : (fun _ : Crew => sysBad f false false 0) = fun _ => decide (f.body ≠ 0#55) := by
    funext c
    rw [sysBad_eq, body_eq_zero]
    rfl
  have hexec : ∃ body, exec (.tlbinvAll f) s = issue sp (fun _ => sysBad f false false 0) body s ∧
      ∀ x s, x.act ≠ 0#64 → ∃ roots, body x s = sysNop (dropAll roots s.release) := by
    refine ⟨_, exec_tlbinvAll f s, ?_⟩
    intro x s hact
    exact ⟨_, if_neg hact⟩
  obtain ⟨body, hexec, hbody⟩ := hexec
  obtain ⟨roots, hroots⟩ := hbody (s.view c sp) (s.issued c sp) hact
  rw [hexec, hbad]
  exact answers_mono (releases_then (G := dropAll roots) hi hs hroots (fun _ _ => rfl) (fun _ => rfl)) fun t ht => ⟨roots, ht⟩

theorem sigh_row {f : FormS} {s : State} {c : Crew} :
    let sp := sysSpec f [] true true
    Issues s c sp (fun _ => bodyRA f ≠ 0 || bodyRB f ≠ 0 || bodyBits f 38 11 ≠ 0) → Steady s c → (s.view c sp).act ≠ 0#64 →
    Answers (exec (.sigh f) s) (fun t => Completed s (s.opening.release.postMsix (bodyBits f 10 0)) t (s.issuing c sp) sp []) := by
  intro sp hi hs hact
  rw [exec_sigh]
  unfold execSigh
  rw [sysBad_eq]
  refine releases_then (G := fun s => s.postMsix (bodyBits f 10 0)) hi hs ?_ (fun t cs => postMsix_withCrews t cs _)
    (fun t => by rw [postMsix_postStep])
  refine (if_neg hact).trans ?_
  rw [sysF_eq]

/-! ## ifence (R222) -/

/-- A crew whose core has its lines discarded. -/
def unfetched (core : Nat) (y : Crew) : Crew := if y.core = core then { y with a := { y.a with line := [] }, b := { y.b with line := [] } } else y

theorem unfetched_keeps (core : Nat) (y : Crew) : (unfetched core y).id = y.id ∧ (unfetched core y).regs = y.regs ∧ (unfetched core y).depth = y.depth ∧
    ∀ k, ((unfetched core y).slot k).st = (y.slot k).st := by
  unfold unfetched
  split
  · exact ⟨rfl, rfl, rfl, fun k => by cases k <;> rfl⟩
  · exact ⟨rfl, rfl, rfl, fun _ => rfl⟩

/-- The state without the lines that a core has cached and buffered. -/
def withoutLines (core : Nat) (s : State) : State :=
  { s.dropLines (fun l => l.core == core) with crews := s.crews.map (unfetched core) }

theorem ifence_row {f : FormS} {s : State} {c : Crew} :
    let sp := specS f [] [] .none
    Issues s c sp (fun _ => f.body ≠ 0#55) → Steady s c → Answers (exec (.ifence f) s) (fun t =>
      t.icache = s.icache.filter (fun l => l.core ≠ c.core) ∧ t.mem = s.mem ∧ ∃ c' ∈ t.crews, c'.id = c.id ∧ (c'.slot s.cur.slot).pc = s.cur.next ∧ c'.regs = c.regs) := by
  intro sp hi hs
  obtain ⟨-, -, hxcore, -⟩ := view_c_fields s c sp
  obtain ⟨heid, -⟩ := issuing_barrier s c sp
  obtain ⟨-, c0, hfind, -⟩ := issuer_find hi.crew
  have hframe := issuing_frame s c sp
  obtain ⟨hid, hregs, hdepth, hst⟩ := unfetched_keeps c.core (s.issuing c sp)
  have hexec : ∃ body, exec (.ifence f) s = issue sp (fun _ => f.body ≠ 0#55) body s ∧ ∀ x s, body x s = .ok { s := withoutLines x.c.core s, wr := [], ctl := false } :=
    ⟨_, exec_ifence f s, fun _ _ => rfl⟩
  obtain ⟨body, hexec, hbody⟩ := hexec
  have hb := hbody (s.view c sp) (s.issued c sp)
  rw [hxcore] at hb
  rw [hexec]
  refine ⟨_, issue_ok hi hb, ?_⟩
  have hcrews : (s.issued c sp).crews.map (unfetched c.core) = replaced (s.crews.map (unfetched c.core)) c.id (unfetched c.core (s.issuing c sp)) := by
    rw [issued_crews, replaced, List.map_map, List.map_map]
    refine List.map_congr_left fun y _ => ?_
    have hy := (unfetched_keeps c.core y).1
    by_cases h : y.id = c.id <;> simp [h, hy]
  have hfind' : (s.crews.map (unfetched c.core)).find? (fun x => x.id == c.id) = some (unfetched c.core c0) := by
    rw [List.find?_map, show ((fun x : Crew => x.id == c.id) ∘ unfetched c.core) = fun x => x.id == c.id from
      funext fun y => by rw [Function.comp_apply, (unfetched_keeps c.core y).1]]
    exact congrArg (Option.map _) hfind
  obtain ⟨L, hL, hLregs, hend⟩ := issueEnd_next (s := s) (sp := sp) (c := c) (d := { s := withoutLines c.core (s.issued c sp), wr := [], ctl := false }) hcrews hfind' (hid.trans heid) rfl
    (by rw [hst, issuing_st]; exact hs.1) (by rw [hst, hdepth, issuing_st, issuing_depth]; exact hs.2)
  rw [hend]
  have hLid : L.id = c.id := by
    rw [hL]
    exact hid.trans heid
  refine ⟨?_, rfl, nextCrew s.cur.slot s.cur.next sp.ends L, ?_, ?_, (nextCrew_here ..).1, ?_⟩
  · show s.icache.filter _ = s.icache.filter _
    refine List.filter_congr fun l _ => ?_
    rw [decide_not]
    rfl
  · refine List.mem_map.mpr ⟨unfetched c.core c0, List.mem_map_of_mem (List.mem_of_find?_eq_some hfind), ?_⟩
    rw [(unfetched_keeps c.core c0).1, List.find?_some hfind, if_pos rfl]
  · rw [nextCrew_frame]
    exact hLid
  · rw [nextCrew_frame]
    refine (hLregs rfl rfl).trans (hregs.trans ?_)
    rw [hframe]

/-- Settles O34. -/
theorem maintenance : Obligations.Maintenance := by
  refine ⟨?_, ?_⟩
  · intro f s c va r rb ends hs
    refine ⟨fun hi => ifence_row hi hs, ?_, ?_, ?_, fun hi hact => tlbinvAll_row hi hs hact, fun hi hact => sigh_row hi hs hact⟩
    · intro sp x hi
      refine ⟨fun hact => ?_, fun hact hlen => ?_, fun hact hlen hfault => ⟨rangeBody_effect true hi hs hact hlen hfault, ?_⟩⟩
      · simp only [List.forall_mem_cons, List.not_mem_nil, false_imp_iff, implies_true, and_true]
        exact ⟨rangeBody_empty true hi hs hact, rangeBody_empty false hi hs hact, rangeBody_empty false hi hs hact⟩
      · simp only [List.forall_mem_cons, List.not_mem_nil, false_imp_iff, implies_true, and_true]
        exact ⟨rangeBody_release true hi hs hact hlen, rangeBody_release false hi hs hact hlen, rangeBody_release false hi hs hact hlen⟩
      · simp only [List.forall_mem_cons, List.not_mem_nil, false_imp_iff, implies_true, and_true]
        exact ⟨rangeBody_effect false hi hs hact hlen hfault, rangeBody_effect false hi hs hact hlen hfault⟩
    · intro sp x hi hact
      exact tlbinvVa_row hi hs hact
    · intro sp x hi hact
      exact tlbinvAsid_row hi hs hact
  · intro f s c hs sp x va len hi hact hlen hpage hcanon hplace
    have hfault := rangeFault_page hlen hpage (rangeVa_lt f x s) hcanon hplace
    have hgone := fun inv => answers_mono (rangeBody_effect inv hi hs hact hlen hfault) fun t ht => goneOn_of_completed hi.crew (issuing_id ..) ht
    exact ⟨hgone true, hgone false, hgone false⟩

end Sys2Proof.Proofs.MaintenanceRows
end

