-- ==== Sys2Proof/Proofs/YieldAndHarvestRows.lean ====
section
/-!
PROOF. Proofs/YieldAndHarvestRows.lean: yield, hvhint.lend and hvhint.recall (10 R226, R227).
-/

namespace Sys2Proof.Proofs.YieldAndHarvestRows

open Sys2Proof Sys2Proof.Machine Sys2Proof.Claims Sys2Proof.Proofs.IssueRules Sys2Proof.Proofs.MatrixInstructions
open Sys2Proof.Proofs.CommandRows Sys2Proof.Proofs.TransferRules

/-- A core changed by two functions that agree on it. -/
theorem modCore_congr {s : State} {k : Nat} {f g : CoreSt → CoreSt} (h : f (s.core k) = g (s.core k)) : s.modCore k f = s.modCore k g := by
  unfold State.modCore
  rw [h]

theorem hintActs_issued (s : State) (c : Crew) (sp : Spec) : hintActs (s.view c sp) (s.issued c sp) = hintActs (s.view c sp) s := rfl

section Hint

variable {f : FormS} {s : State} {c : Crew} {bad : Crew → Bool} {G : CoreSt → CoreSt}

/-- The body of a harvest hint. -/
def hintBody (G : CoreSt → CoreSt) (x : Ctx) (s : State) : Res Done := if hintActs x s then sysNop (s.modCore x.c.core G) else sysNop s

theorem hint_idle (hi : Issues s c (specS f [] [] .none) bad) (hs : Steady s c) (hno : hintActs (s.view c (specS f [] [] .none)) s = false) :
    Answers (issue (specS f [] [] .none) bad (hintBody G) s) (fun t => Completed s s.opening t (s.issuing c (specS f [] [] .none)) (specS f [] [] .none) []) := by
  refine effect_completes (m := s.issued c (specS f [] [] .none)) hi hs (if_neg ?_) rfl rfl
  rw [hintActs_issued, hno]
  exact Bool.false_ne_true

theorem hint_acts (hi : Issues s c (specS f [] [] .none) bad) (hs : Steady s c) (hyes : hintActs (s.view c (specS f [] [] .none)) s = true) :
    Answers (issue (specS f [] [] .none) bad (hintBody G) s)
      (fun t => Completed s (s.opening.modCore c.core G) t (s.issuing c (specS f [] [] .none)) (specS f [] [] .none) []) := by
  obtain ⟨-, -, hcore, -⟩ := view_c_fields s c (specS f [] [] .none)
  have hb : hintBody G (s.view c (specS f [] [] .none)) (s.issued c (specS f [] [] .none)) =
      sysNop ((s.issued c (specS f [] [] .none)).modCore c.core G) := by
    unfold hintBody
    rw [hintActs_issued, hyes, hcore, if_pos rfl]
  exact effect_completes (m := (s.issued c (specS f [] [] .none)).modCore c.core G) hi hs hb rfl rfl

end Hint

/-- Revocation starts on a core that lends. -/
def recalled (k : CoreSt) : CoreSt :=
  let k := { k with relend := false }
  if k.lending && k.revoke == 0 then { k with revoke := 1 } else k

theorem recalled_eq (k : CoreSt) : recalled k = { k with relend := false, revoke := if k.lending ∧ k.revoke = 0 then 1 else k.revoke } := by
  unfold recalled
  by_cases hl : k.lending = true <;> by_cases hr : k.revoke = 0 <;> simp [hl, hr]

/-- Lending turns on for a core, or will once its revocation has ended. -/
def lent (k : CoreSt) : CoreSt := if k.revoke ≠ 0 then { k with relend := true } else if k.lending then k else { k with lending := true, interf := 0 }

theorem lent_eq {k : CoreSt} (hrev : k.revoke = 0) (hlend : k.lending = false) : lent k = { k with lending := true, interf := 0 } := by
  unfold lent
  rw [if_neg (not_not.mpr hrev), hlend, if_neg Bool.false_ne_true]

/-- The body of yield. -/
def yieldBody (x : Ctx) (s : State) : Res Done :=
  if x.act = 0#64 then sysNop s else sysNop (s.modBlock x.c.blk (fun b => { b with yielded := (x.id, s.order) :: b.yielded.filter (fun p => p.1 ≠ x.id) }))

theorem exec_yield_body (f : FormS) (s : State) : exec (.yield f) s = issue (specS f [] [] .none) (fun _ => f.body ≠ 0#55) yieldBody s := exec_yield f s
theorem exec_recall_body (f : FormS) (s : State) : exec (.hvhintRecall f) s = issue (specS f [] [] .none) (fun _ => f.body ≠ 0#55) (hintBody recalled) s :=
  exec_hvhintRecall f s
theorem exec_lend_body (f : FormS) (s : State) : exec (.hvhintLend f) s = issue (specS f [] [] .none) (fun _ => f.body ≠ 1#55) (hintBody lent) s :=
  exec_hvhintLend f s

/-- Settles O36. -/
theorem yieldAndHarvestHints : Obligations.YieldAndHarvestHints := by
  intro f s c sp x ends hs
  obtain ⟨-, hblk, -⟩ := view_c_fields s c sp
  refine ⟨fun hi => ⟨fun hact => ?_, fun hact => ?_, fun hno => ?_, fun hyes => ?_⟩, fun hi => ⟨fun hno => ?_, fun hyes hrev hlend => ?_⟩⟩
  · show Answers (exec (.yield f) s) _
    rw [exec_yield_body]
    exact effect_completes (m := s.issued c sp) hi hs (if_pos hact) rfl rfl
  · show Answers (exec (.yield f) s) _
    rw [exec_yield_body]
    have hb : yieldBody x (s.issued c sp) = sysNop ((s.issued c sp).modBlock c.blk
        (fun b => { b with yielded := (c.id, s.order) :: b.yielded.filter (fun p => p.1 ≠ c.id) })) := by
      unfold yieldBody
      rw [if_neg hact, hblk]
      rfl
    exact effect_completes (m := (s.issued c sp).modBlock c.blk
        (fun b => { b with yielded := (c.id, s.order) :: b.yielded.filter (fun p => p.1 ≠ c.id) })) hi hs hb rfl rfl
  · show Answers (exec (.hvhintRecall f) s) _
    rw [exec_recall_body]
    exact hint_idle hi hs hno
  · show Answers (exec (.hvhintRecall f) s) _
    rw [exec_recall_body]
    refine answers_mono (hint_acts hi hs hyes) fun t ht => ?_
    have hsame := modCore_congr (g := fun k => { k with relend := false, revoke := if k.lending ∧ k.revoke = 0 then 1 else k.revoke })
      (recalled_eq (s.opening.core c.core))
    rw [hsame] at ht
    exact ht
  · show Answers (exec (.hvhintLend f) s) _
    rw [exec_lend_body]
    exact hint_idle hi hs hno
  · show Answers (exec (.hvhintLend f) s) _
    rw [exec_lend_body]
    refine answers_mono (hint_acts hi hs hyes) fun t ht => ?_
    have hsame := modCore_congr (g := fun k => { k with lending := true, interf := 0 }) (lent_eq (k := s.opening.core c.core) hrev hlend)
    rw [hsame] at ht
    exact ht

end Sys2Proof.Proofs.YieldAndHarvestRows
end

