-- ==== Sys2Proof/Proofs/CoxSequenceRows.lean ====
section
/-!
PROOF. Proofs/CoxSequenceRows.lean: slots of a cox, how an instruction of a running context ends, the register instructions, the branches and the
control instructions (14 R309 to R313, R327 to R329).
-/

namespace Sys2Proof.Proofs.CoxSequenceRows

open Sys2Proof Sys2Proof.Machine Sys2Proof.Claims Sys2Proof.Proofs.RegisterRows Sys2Proof.Proofs.CausesAndRecords

/-! ## Slots -/

/-- A slot that is not FREE is one of the slots of a cox. -/
theorem slot_exists {s : State} {port k : Nat} (h : (s.coxSlot port k).st ≠ 0) : port < s.coxes.length ∧ k < (s.coxes.getD port CoxSt.reset).slots.length := by
  constructor
  · by_contra hno
    refine h ?_
    unfold State.coxSlot
    rw [List.getD_eq_default (l := s.coxes) CoxSt.reset (not_lt.mp hno)]
    by_cases hk : k < CoxSt.reset.slots.length
    · rw [List.getD_eq_getElem _ _ hk]
      exact congrArg CoxSlot.st (List.eq_of_mem_replicate (List.getElem_mem hk))
    · rw [List.getD_eq_default _ _ (not_lt.mp hk)]
      rfl
  · by_contra hno
    refine h ?_
    unfold State.coxSlot
    rw [List.getD_eq_default (l := (s.coxes.getD port CoxSt.reset).slots) CoxSlot.free (not_lt.mp hno)]
    rfl

theorem getD_set_self {α : Type} {l : List α} {i : Nat} {v d : α} (h : i < l.length) : (l.set i v).getD i d = v := by
  rw [List.getD_eq_getElem?_getD, List.getElem?_set_self h, Option.getD_some]

section Slot

variable {s : State} {port k : Nat} {f g : CoxSlot → CoxSlot}

theorem modSlot_eq (s : State) (port k : Nat) (f : CoxSlot → CoxSlot) : s.modSlot port k f = { s with coxes := (s.modSlot port k f).coxes } := rfl

/-- The coxes with a slot replaced. -/
theorem modSlot_congr (h : f (s.coxSlot port k) = g (s.coxSlot port k)) : s.modSlot port k f = s.modSlot port k g := by
  have hslot : f ((s.coxes.getD port CoxSt.reset).slots.getD k CoxSlot.free) = g ((s.coxes.getD port CoxSt.reset).slots.getD k CoxSlot.free) := h
  unfold State.modSlot State.modCox
  dsimp only
  rw [hslot]

theorem coxSlot_modSlot (h : (s.coxSlot port k).st ≠ 0) : (s.modSlot port k f).coxSlot port k = f (s.coxSlot port k) := by
  obtain ⟨hport, hk⟩ := slot_exists h
  unfold State.modSlot State.modCox State.coxSlot
  dsimp only
  rw [getD_set_self hport]
  exact getD_set_self hk

theorem modSlot_modSlot (s : State) (port k : Nat) (f g : CoxSlot → CoxSlot) (h : (s.coxSlot port k).st ≠ 0) :
    (s.modSlot port k f).modSlot port k g = s.modSlot port k (fun x => g (f x)) := by
  obtain ⟨hport, hk⟩ := slot_exists h
  unfold State.modSlot State.modCox
  dsimp only
  rw [getD_set_self hport, List.set_set]
  dsimp only
  rw [getD_set_self hk, List.set_set]

/-- A test of the slots that a change of one of them does not see. -/
theorem any_modSlot (p : CoxSlot → Bool) (h : (s.coxSlot port k).st ≠ 0) (hp : p (f (s.coxSlot port k)) = p (s.coxSlot port k)) :
    ((s.modSlot port k f).cox port).slots.any p = (s.cox port).slots.any p := by
  obtain ⟨hport, hk⟩ := slot_exists h
  unfold State.modSlot State.modCox State.cox
  dsimp only
  rw [getD_set_self hport]
  dsimp only
  have hslot : (s.coxes.getD port CoxSt.reset).slots.getD k CoxSlot.free = s.coxSlot port k := rfl
  rw [hslot]
  have hget : (s.coxes.getD port CoxSt.reset).slots[k] = s.coxSlot port k := by rw [← hslot, List.getD_eq_getElem _ _ hk]
  generalize hl : (s.coxes.getD port CoxSt.reset).slots = l at *
  rw [Bool.eq_iff_iff, List.any_eq_true, List.any_eq_true]
  constructor
  · rintro ⟨x, hx, hpx⟩
    obtain ⟨i, hi, rfl⟩ := List.mem_iff_getElem.mp hx
    by_cases hik : k = i
    · subst hik
      rw [List.getElem_set_self] at hpx
      exact ⟨l[k], List.getElem_mem hk, by rw [hget, ← hp]; exact hpx⟩
    · rw [List.getElem_set_of_ne hik] at hpx
      exact ⟨_, List.getElem_mem _, hpx⟩
  · rintro ⟨x, hx, hpx⟩
    obtain ⟨i, hi, rfl⟩ := List.mem_iff_getElem.mp hx
    by_cases hik : k = i
    · subst hik
      refine ⟨f (s.coxSlot port k), List.mem_iff_getElem.mpr ⟨k, by rw [List.length_set]; exact hk, List.getElem_set_self _⟩, ?_⟩
      rw [hp, ← hget]
      exact hpx
    · exact ⟨l[i], List.mem_iff_getElem.mpr ⟨i, by rw [List.length_set]; exact hi, List.getElem_set_of_ne hik _ _⟩, hpx⟩

end Slot

/-! ## Instructions of a running context -/

section Runs

variable {s : State} {sl : CoxSlot} {bad : Bool} {target : CoxSlot → Option Nat} {body : State → Nat → Nat → CoxSlot → CoxEnd}

/-- How an instruction ends, once its checks have passed. -/
def coxEnds (s : State) (port k : Nat) (asid : Nat) : CoxEnd → State
  | .hold => { s with heldMark := true }
  | .fault t code sub va trap => (if code = 0x0C then t.noteBadAt asid va 20 else t).coxFault port k code sub va trap
  | .ended t => t
  | .waits t why => (t.modSlot port k (fun x => { x with st := 3, why := why, spin := 0 })).coxPending port k
  | .done t pc boundary =>
    let t := t.modSlot port k (fun x => { x with pc := pc, spin := x.spin + 1, why := 0 })
    if (t.coxSlot port k).step then t.coxFault port k 0x16 0 0 0 else if boundary then t.coxBoundary port k else t

/-- The instruction of a context that runs makes the checks of its fields and of its next PC, and then has its effect. -/
theorem coxIssue_runs (h : CoxRuns s sl) : coxIssue bad target body s =
    if bad = true then .next (s.opening.coxFault s.cur.port s.cur.ctxSlot 0x02 0 0 0)
    else if (target sl).any (fun t => !s.inRegion s.cur.port sl t) = true then .next (s.opening.coxFault s.cur.port s.cur.ctxSlot 0x03 0 0 0)
    else .next (coxEnds s.opening s.cur.port s.cur.ctxSlot sl.asid (body s.opening s.cur.port s.cur.ctxSlot sl)) := by
  obtain ⟨hhere, hrun, hregion, hspin, -⟩ := h
  have hslot : s.opening.coxSlot s.cur.port s.cur.ctxSlot = sl := hhere
  have hpc : s.opening.inRegion s.cur.port sl sl.pc = true := hregion
  have hst : (s.opening.coxSlot s.cur.port s.cur.ctxSlot).st = 2 := by
    rw [hslot]
    exact hrun
  unfold coxIssue
  extract_lets s1 port k sl1
  have hs1 : s1 = s.opening := rfl
  have hsl1 : sl1 = sl := hslot
  clear_value sl1
  clear_value s1
  subst hs1 hsl1
  rw [if_neg (not_not.mpr hrun), show s.opening.inRegion port sl1 sl1.pc = true from hpc, if_neg (by decide), if_neg (not_le.mpr hspin)]
  refine if_congr Iff.rfl rfl (if_congr Iff.rfl rfl ?_)
  show _ = Host.Outcome.next (coxEnds s.opening port k sl1.asid (body s.opening port k sl1))
  cases body s.opening port k sl1 with
  | done t pc boundary =>
    unfold coxEnds
    dsimp only
    split
    · rfl
    · split <;> rfl
  | waits t why => rfl
  | fault t code sub va trap => rfl
  | ended t => rfl
  | hold => rfl

/-- An instruction that retires without a chunk boundary. -/
theorem ends_retired {m : State} {x0 : CoxSlot} {asid pc : Nat} (hm : m.coxSlot s.cur.port s.cur.ctxSlot = x0) (hst : x0.st ≠ 0) (hspin : x0.spin = sl.spin)
    (hstep : x0.step = false) : coxEnds s.opening s.cur.port s.cur.ctxSlot asid (.done m pc false) = withSlot s m (retire sl pc) := by
  have hne : (m.coxSlot s.cur.port s.cur.ctxSlot).st ≠ 0 := by
    rw [hm]
    exact hst
  unfold coxEnds withSlot
  dsimp only
  rw [coxSlot_modSlot hne, hm, hstep, if_neg Bool.false_ne_true, if_neg Bool.false_ne_true]
  refine modSlot_congr ?_
  rw [hm]
  unfold retire
  rw [hspin]

/-- An instruction that retires at a chunk boundary for which nothing waits. -/
theorem ends_boundary {m : State} {x0 : CoxSlot} {asid pc : Nat} (hm : m.coxSlot s.cur.port s.cur.ctxSlot = x0) (hst : x0.st = 2)
    (hstep : x0.step = false) (hkill : Undisturbed x0)
    (hany : (m.cox s.cur.port).slots.any (fun y => y.st == 1) = (s.cox s.cur.port).slots.any (fun y => y.st == 1)) :
    coxEnds s.opening s.cur.port s.cur.ctxSlot asid (.done m pc true) = boundary s m pc := by
  have hne : (m.coxSlot s.cur.port s.cur.ctxSlot).st ≠ 0 := by
    rw [hm, hst]
    decide
  obtain ⟨hkilled, haborted⟩ := hkill
  unfold coxEnds State.coxBoundary
  dsimp only
  have hone : ((m.modSlot s.cur.port s.cur.ctxSlot (fun x => { x with pc := pc, spin := x.spin + 1, why := 0 })).coxSlot s.cur.port s.cur.ctxSlot).step = false := by
    rw [coxSlot_modSlot hne, hm]
    exact hstep
  rw [hone, if_neg Bool.false_ne_true, if_pos rfl, modSlot_modSlot _ _ _ _ _ hne, coxSlot_modSlot hne, hm]
  dsimp only
  rw [hkilled, haborted, Bool.or_false, if_neg Bool.false_ne_true, any_modSlot _ hne rfl, hany]
  unfold boundary withSlot
  by_cases h : (s.cox s.cur.port).slots.any (fun y => y.st == 1) = true
  · rw [if_pos h, modSlot_modSlot _ _ _ _ _ hne]
    refine modSlot_congr ?_
    rw [if_pos h]
  · rw [if_neg h]
    refine modSlot_congr ?_
    rw [if_neg h]

end Runs

/-! ## Register instructions (R311) -/

/-- What a register instruction does, as `CoxRegisterInstructions` puts it. -/
def Writes (s : State) (sl : CoxSlot) (i : Instr) (d : BitVec 4) (v : DWord) : Prop :=
  (s.inRegion s.cur.port sl (sl.pc + 1) = true → exec i s = .next (withSlot s s.opening (fun x => retire sl (sl.pc + 1) { x with regs := x.regs.set d.toNat v }))) ∧
  (s.inRegion s.cur.port sl (sl.pc + 1) = false → exec i s = .next (s.opening.coxFault s.cur.port s.cur.ctxSlot 0x03 0 0 0))

theorem coxSlot_opening {s : State} {sl : CoxSlot} (h : CoxRuns s sl) : s.opening.coxSlot s.cur.port s.cur.ctxSlot = sl := h.here

/-- A write of a register and the retirement that follows. -/
theorem ends_set {s : State} {sl : CoxSlot} (h : CoxRuns s sl) (asid pc i : Nat) (v : DWord) :
    coxEnds s.opening s.cur.port s.cur.ctxSlot asid (.done (withSlot s s.opening (fun x => { x with regs := x.regs.set i v })) pc false) =
      withSlot s s.opening (fun x => retire sl pc { x with regs := x.regs.set i v }) := by
  have hne : (s.opening.coxSlot s.cur.port s.cur.ctxSlot).st ≠ 0 := by
    rw [coxSlot_opening h, h.running]
    decide
  have hslot : (withSlot s s.opening (fun x => { x with regs := x.regs.set i v })).coxSlot s.cur.port s.cur.ctxSlot = { sl with regs := sl.regs.set i v } := by
    unfold withSlot
    rw [coxSlot_modSlot hne, coxSlot_opening h]
  rw [ends_retired hslot (by rw [h.running]; decide) rfl h.plain]
  exact modSlot_modSlot _ _ _ _ _ hne

theorem writes_of_set {s : State} {sl : CoxSlot} {i : Instr} {d : BitVec 4} {v : DWord} {f : CoxSlot → Nat} (h : CoxRuns s sl)
    (hexec : exec i s = coxIssue false seqPc (coxSet d f) s) (hv : BitVec.ofNat 64 (f sl) = v) : Writes s sl i d v := by
  have hruns := coxIssue_runs (bad := false) (target := seqPc) (body := coxSet d f) h
  rw [if_neg Bool.false_ne_true] at hruns
  refine ⟨fun hin => ?_, fun hout => ?_⟩
  · rw [hexec, hruns, if_neg (by simp [seqPc, hin]), ← ends_set h]
    unfold coxSet
    rw [hv]
    rfl
  · rw [hexec, hruns, if_pos (by simp [seqPc, hout])]

/-- An instruction whose fields do not obey its format. -/
theorem illField_of_issue {s : State} {sl : CoxSlot} {i : Instr} {target : CoxSlot → Option Nat} {body : State → Nat → Nat → CoxSlot → CoxEnd}
    (h : CoxRuns s sl) (hexec : exec i s = coxIssue true target body s) : exec i s = .next (s.opening.coxFault s.cur.port s.cur.ctxSlot 0x02 0 0 0) := by
  rw [hexec, coxIssue_runs h, if_pos rfl]

theorem creg_toNat (sl : CoxSlot) (i : BitVec 4) : sl.c i = (creg sl i).toNat := rfl

/-- A row of the register instructions of format CR. -/
structure AluRow (r : (FormCR → Instr) × (FormCR → Bool) × (DWord → DWord → DWord)) (val : Nat → Nat → Nat) : Prop where
  exec : ∀ f s, Machine.exec (r.1 f) s = coxIssue (r.2.1 f) seqPc (coxSet f.d (fun sl => val (sl.c f.a) (sl.c f.b))) s
  val : ∀ a b : DWord, BitVec.ofNat 64 (val a.toNat b.toNat) = r.2.2 a b

theorem writes_of_aluRow {s : State} {sl : CoxSlot} (h : CoxRuns s sl) {r : (FormCR → Instr) × (FormCR → Bool) × (DWord → DWord → DWord)} {val : Nat → Nat → Nat}
    (hr : AluRow r val) (f : FormCR) : (r.2.1 f = false → Writes s sl (r.1 f) f.d (r.2.2 (creg sl f.a) (creg sl f.b))) ∧
    (r.2.1 f = true → Machine.exec (r.1 f) s = .next (s.opening.coxFault s.cur.port s.cur.ctxSlot 0x02 0 0 0)) := by
  have hexec := hr.exec f s
  refine ⟨fun hgood => ?_, fun hbad => ?_⟩
  · rw [hgood] at hexec
    exact writes_of_set h hexec (hr.val _ _)
  · rw [hbad] at hexec
    exact illField_of_issue h hexec

theorem ofNat_sub (a b : DWord) : BitVec.ofNat 64 (a.toNat + 2 ^ 64 - b.toNat) = a - b := by
  apply BitVec.eq_of_toNat_eq
  rw [BitVec.toNat_ofNat, BitVec.toNat_sub]
  have ha := a.isLt
  have hb := b.isLt
  congr 1
  omega

theorem ofNat_shl (a b : DWord) : BitVec.ofNat 64 (if b.toNat < 64 then a.toNat * 2 ^ b.toNat else 0) = if b.toNat < 64 then a <<< b.toNat else 0#64 := by
  split
  · apply BitVec.eq_of_toNat_eq
    rw [BitVec.toNat_ofNat, BitVec.toNat_shiftLeft, Nat.shiftLeft_eq]
  · rfl

theorem ofNat_shr (a b : DWord) : BitVec.ofNat 64 (if b.toNat < 64 then a.toNat / 2 ^ b.toNat else 0) = if b.toNat < 64 then a >>> b.toNat else 0#64 := by
  split
  · apply BitVec.eq_of_toNat_eq
    rw [BitVec.toNat_ofNat, BitVec.toNat_ushiftRight, Nat.shiftRight_eq_div_pow, Nat.mod_eq_of_lt]
    exact lt_of_le_of_lt (Nat.div_le_self _ _) a.isLt
  · rfl

/-- Every row of the register instructions. -/
theorem aluRows : ∀ r ∈ coxAluRows, ∃ val, AluRow r val := by
  have hand (a b : DWord) : BitVec.ofNat 64 (a.toNat &&& b.toNat) = a &&& b := by
    rw [← BitVec.toNat_and, BitVec.ofNat_toNat, BitVec.setWidth_eq]
  have hor (a b : DWord) : BitVec.ofNat 64 (a.toNat ||| b.toNat) = a ||| b := by
    rw [← BitVec.toNat_or, BitVec.ofNat_toNat, BitVec.setWidth_eq]
  have hadd (a b : DWord) : BitVec.ofNat 64 (a.toNat + b.toNat) = a + b := by
    rw [BitVec.ofNat_add, BitVec.ofNat_toNat, BitVec.ofNat_toNat, BitVec.setWidth_eq, BitVec.setWidth_eq]
  have hmov (a : DWord) : BitVec.ofNat 64 a.toNat = a := by rw [BitVec.ofNat_toNat, BitVec.setWidth_eq]
  simp only [coxAluRows, List.forall_mem_cons, List.not_mem_nil, false_imp_iff, implies_true, and_true]
  exact ⟨⟨fun a _ => a, exec_coxMov, fun a _ => hmov a⟩, ⟨(· + ·), exec_coxAdd, hadd⟩, ⟨fun a b => a + 2 ^ 64 - b, exec_coxSub, ofNat_sub⟩,
    ⟨fun a b => a &&& b, exec_coxAnd, hand⟩, ⟨fun a b => a ||| b, exec_coxOr, hor⟩, ⟨fun a b => if b < 64 then a * 2 ^ b else 0, exec_coxShl, ofNat_shl⟩,
    ⟨fun a b => if b < 64 then a / 2 ^ b else 0, exec_coxShr, ofNat_shr⟩⟩

theorem coxRegisterInstructions : CoxRegisterInstructions := by
  intro s sl h writes
  have hne : sl.st ≠ 0 := by
    rw [h.running]
    decide
  refine ⟨fun r hr f hf => ?_, fun r hr f hf => ?_, fun f hrsv ha => ?_, fun f hrsv => ?_, fun f hrsv hd ha hb hin => ?_⟩
  · obtain ⟨val, hrow⟩ := aluRows r hr
    exact (writes_of_aluRow h hrow f).1 hf
  · obtain ⟨val, hrow⟩ := aluRows r hr
    exact (writes_of_aluRow h hrow f).2 hf
  · refine writes_of_set h (f := fun _ => coxImm f) ?_ (by rw [coxImm, BitVec.ofNat_toNat, BitVec.setWidth_eq])
    rw [exec_coxMovi, execCoxMovi, hrsv, ha]
    rfl
  · refine writes_of_set h (f := fun sl => sl.c f.a + coxImm f) ?_ ?_
    · rw [exec_coxAddi, execCoxAddi, hrsv]
      rfl
    · rw [BitVec.ofNat_add, coxImm, creg_toNat, BitVec.ofNat_toNat, BitVec.ofNat_toNat, BitVec.setWidth_eq, BitVec.setWidth_eq]
  · have hbad : crBad f = false := by
      unfold crBad
      rw [hrsv, hd, ha, hb]
      rfl
    rw [exec_coxNop, execCoxNop, hbad, coxIssue_runs h, if_neg Bool.false_ne_true, if_neg (by simp [seqPc, hin])]
    exact congrArg Host.Outcome.next (ends_retired (coxSlot_opening h) hne rfl h.plain)

/-! ## Branches (R312) -/

/-- A row of the branches. -/
structure BranchRow (r : (FormCB → Instr) × (FormCB → Bool) × (DWord → DWord → Bool)) (taken : FormCB → CoxSlot → Bool) (bad : FormCB → Bool) : Prop where
  exec : ∀ f s, Machine.exec (r.1 f) s = runCoxBr f (bad f) (taken f) s
  fields : ∀ f, r.2.1 f = false → (decide (f.rsv ≠ 0#38) || bad f) = false
  taken : ∀ f sl, taken f sl = r.2.2 (creg sl f.a) (creg sl f.b)

theorem svalN_eq_toInt (a : DWord) : svalN a.toNat 64 = a.toInt := by
  rw [svalN_eq (by decide) a.isLt, BitVec.toInt_eq_msb_cond, BitVec.msb_eq_decide]
  simp only [decide_eq_true_eq]
  rfl

/-- Every row of the branches. -/
theorem branchRows : ∀ r ∈ coxBranchRows, ∃ taken bad, BranchRow r taken bad := by
  have heq (a b : DWord) : (a.toNat == b.toNat) = (a == b) := by
    rw [Bool.eq_iff_iff, beq_iff_eq, beq_iff_eq, BitVec.toNat_inj]
  simp only [coxBranchRows, List.forall_mem_cons, List.not_mem_nil, false_imp_iff, implies_true, and_true]
  refine ⟨⟨fun _ _ => true, fun f => f.a ≠ 0#4 || f.b ≠ 0#4, exec_coxBr, fun f hf => ?_, fun _ _ => rfl⟩,
    ⟨fun f sl => sl.c f.a == sl.c f.b, fun _ => false, exec_coxBeq, fun f hf => ?_, fun f sl => heq _ _⟩,
    ⟨fun f sl => sl.c f.a != sl.c f.b, fun _ => false, exec_coxBne, fun f hf => ?_, fun f sl => congrArg (!·) (heq _ _)⟩,
    ⟨fun f sl => decide (svalN (sl.c f.a) 64 < svalN (sl.c f.b) 64), fun _ => false, exec_coxBlt, fun f hf => ?_, fun f sl => ?_⟩,
    ⟨fun f sl => decide (svalN (sl.c f.b) 64 ≤ svalN (sl.c f.a) 64), fun _ => false, exec_coxBge, fun f hf => ?_, fun f sl => ?_⟩⟩
  · exact (Bool.or_assoc ..).symm.trans hf
  · exact (Bool.or_false _).trans hf
  · exact (Bool.or_false _).trans hf
  · exact (Bool.or_false _).trans hf
  · rw [creg_toNat, creg_toNat, svalN_eq_toInt, svalN_eq_toInt]
    rfl
  · exact (Bool.or_false _).trans hf
  · rw [creg_toNat, creg_toNat, svalN_eq_toInt, svalN_eq_toInt]
    rfl

/-- Where a loop goes, and what it does. -/
def loopTarget (f : FormCB) (sl : CoxSlot) : Option Nat := some (if (sl.c f.a + 2 ^ 64 - 1) % 2 ^ 64 ≠ 0 then f.tgt.toNat else sl.pc + 1)
def loopBody (f : FormCB) (s : State) (port k : Nat) (sl : CoxSlot) : CoxEnd :=
  .done (s.modSlot port k (fun x => { x with regs := x.regs.set f.a.toNat (BitVec.ofNat 64 ((sl.c f.a + 2 ^ 64 - 1) % 2 ^ 64)) }))
    (if (sl.c f.a + 2 ^ 64 - 1) % 2 ^ 64 ≠ 0 then f.tgt.toNat else sl.pc + 1) false

theorem exec_loop_body (f : FormCB) (s : State) :
    exec (.coxLoop f) s = coxIssue (f.rsv ≠ 0#38 || f.b ≠ 0#4) (loopTarget f) (loopBody f) s := exec_coxLoop f s

theorem runCoxBr_eq (f : FormCB) (bad : Bool) (taken : CoxSlot → Bool) (s : State) :
    runCoxBr f bad taken s = coxIssue (decide (f.rsv ≠ 0#38) || bad) (fun sl => some (if taken sl then f.tgt.toNat else sl.pc + 1))
      (fun s _ _ sl => .done s (if taken sl then f.tgt.toNat else sl.pc + 1) false) s := rfl

theorem coxBranches : CoxBranches := by
  intro s sl h
  have hne : sl.st ≠ 0 := by
    rw [h.running]
    decide
  refine ⟨fun r hr f hf => ?_, fun f hrsv hb => ?_⟩
  · obtain ⟨taken, bad, hrow⟩ := branchRows r hr
    intro dest
    have hdest : (if taken f sl then f.tgt.toNat else sl.pc + 1) = dest := by rw [hrow.taken]
    have hruns := coxIssue_runs (bad := decide (f.rsv ≠ 0#38) || bad f) (target := fun sl => some (if taken f sl then f.tgt.toNat else sl.pc + 1))
      (body := fun s _ _ sl => .done s (if taken f sl then f.tgt.toNat else sl.pc + 1) false) h
    rw [hrow.fields f hf, if_neg Bool.false_ne_true, hdest] at hruns
    have hexec := hrow.exec f s
    rw [runCoxBr_eq, hrow.fields f hf, hruns] at hexec
    refine ⟨fun hin => ?_, fun hout => ?_⟩
    · rw [hexec, if_neg (by simp [hin])]
      exact congrArg Host.Outcome.next (ends_retired (coxSlot_opening h) hne rfl h.plain)
    · rw [hexec, if_pos (by simp [hout])]
  · intro v dest hin
    have hv : (sl.c f.a + 2 ^ 64 - 1) % 2 ^ 64 = v.toNat := by
      show ((creg sl f.a).toNat + 2 ^ 64 - 1) % 2 ^ 64 = (creg sl f.a - 1#64).toNat
      rw [← ofNat_sub, BitVec.toNat_ofNat]
      rfl
    have hdest : (if (sl.c f.a + 2 ^ 64 - 1) % 2 ^ 64 ≠ 0 then f.tgt.toNat else sl.pc + 1) = dest := by
      rw [hv]
      by_cases h0 : v = 0#64
      · simp [dest, h0]
      · have hne0 : v.toNat ≠ 0 := fun hz => h0 (BitVec.eq_of_toNat_eq hz)
        simp [dest, h0, hne0]
    have hruns := coxIssue_runs (bad := false) (target := loopTarget f) (body := loopBody f) h
    unfold loopTarget loopBody at hruns
    rw [if_neg Bool.false_ne_true, hdest, hv, if_neg (by simp [hin]), BitVec.ofNat_toNat, BitVec.setWidth_eq] at hruns
    rw [exec_loop_body, hrsv, hb]
    exact hruns.trans (congrArg Host.Outcome.next (ends_set h _ _ _ _))

/-- Settles O37. -/
theorem coxSequence : Obligations.CoxSequence := ⟨coxRegisterInstructions, coxBranches⟩

end Sys2Proof.Proofs.CoxSequenceRows
end

