-- ==== Sys2Proof/Proofs/CoxControlRows.lean ====
section
/-!
PROOF. Proofs/CoxControlRows.lean: halt, yield, trap, abort and unlisted opcodes of a cox (14 R313, R327 to R329).
-/

namespace Sys2Proof.Proofs.CoxControlRows

open Sys2Proof Sys2Proof.Machine Sys2Proof.Claims Sys2Proof.Proofs.CausesAndRecords Sys2Proof.Proofs.CoxSequenceRows

/-- A record leaves the slots of the coxes as they are. -/
theorem coxRecord_coxSlot (s : State) (port k code sub va trap port' k' : Nat) :
    (s.coxRecord port k code sub va trap).coxSlot port' k' = s.coxSlot port' k' := by
  have h : (s.coxRecord port k code sub va trap).coxes = s.coxes := by
    unfold State.coxRecord
    rw [postRecord_postStep]
  unfold State.coxSlot
  rw [h]

/-- Nothing is pending for a context that nobody has ended. -/
theorem coxPending_none {s : State} {port k : Nat} (hkill : (s.coxSlot port k).killed = false) (habort : (s.coxSlot port k).aborted = false) :
    s.coxPending port k = s := by
  unfold State.coxPending
  dsimp only
  split
  · rfl
  · rw [habort, hkill, if_neg Bool.false_ne_true, if_neg Bool.false_ne_true]

theorem crBad_false {f : FormCR} (hrsv : f.rsv = 0#46) (hd : f.d = 0#4) (ha : f.a = 0#4) (hb : f.b = 0#4) : crBad f = false := by
  unfold crBad
  rw [hrsv, hd, ha, hb]
  rfl

/-- The body of trap. -/
def coxTrapBody (f : FormCI) (s : State) (port k : Nat) (sl : CoxSlot) : CoxEnd :=
  .fault (s.modSlot port k (fun x => { x with pc := sl.pc + 1 })) 0x14 0 0 f.imm.toNat

theorem exec_coxTrap_body (f : FormCI) (s : State) : exec (.coxTrap f) s =
    coxIssue (f.rsv ≠ 0#18 || f.d ≠ 0#4 || f.a ≠ 0#4 || f.imm.toNat / 65536 ≠ 0) seqPc (coxTrapBody f) s := exec_coxTrap f s

theorem coxTrap_row {s : State} {sl : CoxSlot} {f : FormCI} (h : CoxRuns s sl) (hrsv : f.rsv = 0#18) (hd : f.d = 0#4) (ha : f.a = 0#4)
    (himm : f.imm.toNat < 2 ^ 16) (hin : s.inRegion s.cur.port sl (sl.pc + 1) = true) (hun : Undisturbed sl) :
    exec (.coxTrap f) s = .next ((withSlot s s.opening (fun x => { x with pc := sl.pc + 1, st := 4, cause := 0x14, sub := 0, why := 0, step := false, spin := 0, send := none })).coxRecord
      s.cur.port s.cur.ctxSlot 0x14 0 0 f.imm.toNat) := by
  have hne : (s.opening.coxSlot s.cur.port s.cur.ctxSlot).st ≠ 0 := by
    rw [coxSlot_opening h, h.running]
    decide
  have hbad : (decide (f.rsv ≠ 0#18) || decide (f.d ≠ 0#4) || decide (f.a ≠ 0#4) || decide (f.imm.toNat / 65536 ≠ 0)) = false := by
    rw [hrsv, hd, ha, Nat.div_eq_of_lt (show f.imm.toNat < 65536 from himm)]
    rfl
  rw [exec_coxTrap_body, hbad, coxIssue_runs h, if_neg Bool.false_ne_true, if_neg (by simp [seqPc, hin])]
  unfold coxTrapBody coxEnds
  dsimp only
  rw [if_neg (by decide)]
  unfold State.coxFault
  dsimp only
  rw [modSlot_modSlot _ _ _ _ _ hne]
  refine congrArg Host.Outcome.next (coxPending_none ?_ ?_)
  · rw [coxRecord_coxSlot, coxSlot_modSlot hne, coxSlot_opening h]
    exact hun.1
  · rw [coxRecord_coxSlot, coxSlot_modSlot hne, coxSlot_opening h]
    exact hun.2

/-- The body of abort. -/
def coxAbortBody (s : State) (_ _ : Nat) (sl : CoxSlot) : CoxEnd := .waits (s.startAbort sl.group sl.seq) 0

theorem exec_coxAbort_body (f : FormCI) (s : State) : exec (.coxAbort f) s =
    coxIssue (f.rsv ≠ 0#18 || f.d ≠ 0#4 || f.a ≠ 0#4 || f.imm ≠ 0#32) (fun _ => none) coxAbortBody s := exec_coxAbort f s

theorem coxIllop_row {s : State} {sl : CoxSlot} (h : CoxRuns s sl) (opc : BitVec 6) (rest : BitVec 58) :
    exec (.coxIllop opc rest) s = .next (s.opening.coxFault s.cur.port s.cur.ctxSlot 0x01 0 0 0) := by
  obtain ⟨hhere, hrun, hregion, hspin, -⟩ := h
  have hslot : s.opening.coxSlot s.cur.port s.cur.ctxSlot = sl := hhere
  have hpc : s.opening.inRegion s.cur.port sl sl.pc = true := hregion
  rw [exec_coxIllop]
  unfold execCoxIllop
  extract_lets s1 port k sl1
  have hsl1 : sl1 = sl := hslot
  have hst : sl1.st = 2 := hsl1 ▸ hrun
  have hreg : s1.inRegion port sl1 sl1.pc = true := by
    rw [hsl1]
    exact hpc
  have hlt : sl1.spin < 65536 := hsl1 ▸ hspin
  refine (if_neg (not_not.mpr hst)).trans ((if_neg ?_).trans ((if_neg (not_le.mpr hlt)).trans rfl))
  rw [hreg]
  decide

/-- Settles O38. -/
theorem coxControl : Obligations.CoxControl := by
  intro s sl h on
  refine ⟨fun f hrsv hd ha hb => ⟨?_, fun hin hun => ?_⟩, fun f hrsv hd ha himm hin hun => coxTrap_row h hrsv hd ha himm hin hun, fun f hrsv hd ha himm => ?_,
    fun opc rest => coxIllop_row h opc rest⟩
  · rw [exec_coxHalt, execCoxHalt, crBad_false hrsv hd ha hb, coxIssue_runs h, if_neg Bool.false_ne_true]
    exact if_neg Bool.false_ne_true
  · rw [exec_coxYield, execCoxYield, crBad_false hrsv hd ha hb, coxIssue_runs h, if_neg Bool.false_ne_true, if_neg (by simp [seqPc, show _ = true from hin])]
    exact congrArg Host.Outcome.next (ends_boundary (coxSlot_opening h) h.running h.plain hun rfl)
  · have hbad : (decide (f.rsv ≠ 0#18) || decide (f.d ≠ 0#4) || decide (f.a ≠ 0#4) || decide (f.imm ≠ 0#32)) = false := by
      rw [hrsv, hd, ha, himm]
      rfl
    rw [exec_coxAbort_body, hbad, coxIssue_runs h, if_neg Bool.false_ne_true]
    exact if_neg Bool.false_ne_true

end Sys2Proof.Proofs.CoxControlRows
end

