-- ==== Sys2Proof/Proofs/CoxChunkRows.lean ====
section
/-!
PROOF. Proofs/CoxChunkRows.lean: the checks of the chunk instructions of a cox, windows, the beginning and the end of a send, combining; post, recv,
comb, send, combf and fwd (14 R314 to R319).
-/

namespace Sys2Proof.Proofs.CoxChunkRows

open Sys2Proof Sys2Proof.Machine Sys2Proof.Claims Sys2Proof.Proofs.MemoryFrames Sys2Proof.Proofs.AtomicRows Sys2Proof.Proofs.CoxSequenceRows
  Sys2Proof.Proofs.CoxControlRows

/-! ## Checks (R314) -/

theorem coxCheck_none {cs : List (Bool × Nat × Nat)} (h : ∀ c ∈ cs, c.1 = false) : coxCheck cs = none := by
  unfold coxCheck
  rw [List.find?_eq_none.mpr fun c hc => by rw [h c hc]; exact Bool.false_ne_true]
  rfl

theorem coxCheck_append {as bs : List (Bool × Nat × Nat)} (h : ∀ c ∈ as, c.1 = false) : coxCheck (as ++ bs) = coxCheck bs := by
  unfold coxCheck
  rw [List.find?_append, List.find?_eq_none.mpr fun c hc => by rw [h c hc]; exact Bool.false_ne_true]
  rfl

section Checks

variable {s : State} {sl : CoxSlot} {f : FormCC} {tag : Nat}

theorem chkBuf_passes (h : BufferOk sl f) : ∀ c ∈ chkBuf sl f.buf f.ireg, c.1 = false := by
  obtain ⟨hv, hcount⟩ := h
  unfold chkBuf
  simp only [List.forall_mem_cons, List.not_mem_nil, false_imp_iff, implies_true, and_true, hv, Bool.not_true, true_and, decide_eq_false_iff_not, not_le]
  exact hcount

theorem chkTarget_eq (m : State) (treg : BitVec 4) : (∀ c ∈ chkTarget m sl treg, c.1 = false) ↔
    (creg sl treg).toNat < 2 ^ 13 ∧ m.grpFor sl.group sl.ctx = true ∧ (creg sl treg).toNat % 2 ^ 8 ≤ (m.grp sl.group).nm1 := by
  have hsmall : sl.c treg / 2 ^ 13 = 0 ↔ sl.c treg < 2 ^ 13 := Nat.div_eq_zero_iff_lt (by decide)
  unfold chkTarget
  simp only [List.forall_mem_cons, List.not_mem_nil, false_imp_iff, implies_true, and_true, Bool.or_eq_false_iff, decide_eq_false_iff_not, not_not, not_lt,
    Bool.not_eq_false', hsmall, and_assoc]
  rfl

theorem chkTarget_passes (h : TargetOk s sl f) : ∀ c ∈ chkTarget s.opening sl f.treg, c.1 = false :=
  (chkTarget_eq s.opening f.treg).mpr h

theorem chkTag_passes (h : Landed sl tag) : ∀ c ∈ chkTag sl tag, c.1 = false := by
  obtain ⟨⟨w, hw, htag⟩, -⟩ := h
  have hany : sl.wins.any (fun w => w.tag == tag) = true := List.any_eq_true.mpr ⟨w, hw, beq_iff_eq.mpr htag⟩
  simp [chkTag, hany]

theorem chkSize_passes (h : SameShape sl f) : ∀ c ∈ chkSize sl f.buf f.wtag.toNat, c.1 = false := by
  obtain ⟨hlch, hefmt⟩ := h
  simp [chkSize, hlch, hefmt]

theorem passes_append {as bs : List (Bool × Nat × Nat)} (ha : ∀ c ∈ as, c.1 = false) (hb : ∀ c ∈ bs, c.1 = false) : ∀ c ∈ as ++ bs, c.1 = false :=
  List.forall_mem_append.mpr ⟨ha, hb⟩

/-- The window of a tag that has its whole chunk keeps nothing back. -/
theorem windowEnd_landed {m : State} {port k : Nat} {x : CoxSlot} (hm : m.coxSlot port k = x) (h : Landed x tag) : windowEnd m port k tag = none := by
  obtain ⟨-, hfva, hpoison, hlanded⟩ := h
  unfold windowEnd
  dsimp only
  rw [hm, hfva, hpoison, if_neg Bool.false_ne_true, if_pos hlanded]

end Checks

/-! ## How a chunk instruction runs -/

section Runs

variable {s : State} {sl : CoxSlot} {body : State → Nat → Nat → CoxSlot → CoxEnd}

/-- The effect of an instruction whose fields are in order and after which the PC stays in its region. -/
theorem coxIssue_effect (h : CoxRuns s sl) (hin : s.inRegion s.cur.port sl (sl.pc + 1) = true) {bad : Bool} (hbad : bad = false) :
    coxIssue bad seqPc body s = .next (coxEnds s.opening s.cur.port s.cur.ctxSlot sl.asid (body s.opening s.cur.port s.cur.ctxSlot sl)) := by
  rw [coxIssue_runs h, hbad, if_neg Bool.false_ne_true, if_neg (by simp [seqPc, hin])]

theorem slot_ne_free (h : CoxRuns s sl) {m : State} (hm : m.coxes = s.coxes) : (m.coxSlot s.cur.port s.cur.ctxSlot).st ≠ 0 := by
  have hslot : m.coxSlot s.cur.port s.cur.ctxSlot = sl := by
    rw [← h.here]
    unfold State.coxSlot
    rw [hm]
  rw [hslot, h.running]
  decide

theorem slot_of_coxes (h : CoxRuns s sl) {m : State} (hm : m.coxes = s.coxes) : m.coxSlot s.cur.port s.cur.ctxSlot = sl := by
  rw [← h.here]
  unfold State.coxSlot
  rw [hm]

theorem slot_withSlot (h : CoxRuns s sl) {m : State} (hm : m.coxes = s.coxes) (g : CoxSlot → CoxSlot) :
    (withSlot s m g).coxSlot s.cur.port s.cur.ctxSlot = g sl := by
  unfold withSlot
  rw [coxSlot_modSlot (slot_ne_free h hm), slot_of_coxes h hm]

/-- An instruction that changes its slot and retires at a chunk boundary. -/
theorem ends_withSlot (h : CoxRuns s sl) (hun : Undisturbed sl) {m : State} (hm : m.coxes = s.coxes) {g : CoxSlot → CoxSlot} (asid pc : Nat)
    (hst : (g sl).st = sl.st) (hstep : (g sl).step = sl.step) (hkilled : (g sl).killed = sl.killed) (haborted : (g sl).aborted = sl.aborted) :
    coxEnds s.opening s.cur.port s.cur.ctxSlot asid (.done (withSlot s m g) pc true) = boundary s (withSlot s m g) pc := by
  refine ends_boundary (slot_withSlot h hm g) (hst.trans h.running) (hstep.trans h.plain) ⟨hkilled.trans hun.1, haborted.trans hun.2⟩ ?_
  have hslot := slot_of_coxes h hm
  unfold withSlot
  rw [any_modSlot _ (slot_ne_free h hm) (by rw [hslot, hst])]
  unfold State.cox
  rw [hm]

end Runs

/-! ## Sends (R315) -/

section Sends

variable {m : State} {port k buf chunk ct tag : Nat} {close : State → State} {x : CoxSlot} {sd : CoxSend}

theorem sendPart_ends (hm : m.coxSlot port k = x) (hsend : x.send = some sd) (hfail : sd.fail = none) (hleft : sd.left = []) :
    sendPart m port k buf chunk ct tag close = .done (close (m.modSlot port k (fun x => { x with send := none, phase := false }))) (x.pc + 1) true := by
  unfold sendPart
  dsimp only
  rw [hm, hsend]
  dsimp only
  rw [hfail]
  dsimp only
  rw [hleft]
  exact if_pos rfl

theorem sendPart_begins {ps : List (Loc × Nat)} (hm : m.coxSlot port k = x) (hsend : x.send = none)
    (hspan : coxSpan m port x (x.buf buf) false (chunk * 2 ^ (x.buf buf).lch) (2 ^ (x.buf buf).lch) = .ok ps)
    (hsd : sd = {
      buf := buf, chunk := chunk, tag := tag, rank := ct % 256, port := ct / 256 % 32, left := List.range (2 ^ ((x.buf buf).lch - 8)), again := [],
      refused := 0, since := none, keyed := false, id := m.order, dst := (m.grp x.group).ranks.getD (ct % 256) 0, fail := none }) :
    sendPart m port k buf chunk ct tag close =
      .waits (({ m.modSlot port k (fun x => { x with send := some sd }) with
        order := m.order + 1 } : State).coxEmit port k x sd sd.left) 1 := by
  unfold sendPart
  dsimp only
  rw [hm, hsend]
  dsimp only
  rw [hspan, hsd]

end Sends

/-! ## Combining (R317, R318) -/

theorem putPoison_memStep (s : State) (bs : List (Byte × Bool)) (a : Nat) : MemStep s (s.putPoison bs a) := by
  refine memStep_foldl (fun s ln => ?_) _ s
  dsimp only
  split
  · rfl
  · split <;> rfl

theorem enginePut_memStep (s : State) (die : Nat) (l : Loc) (bs : List (Byte × Bool)) : MemStep s (s.enginePut die l bs) := by
  cases l with
  | blk core off => exact store_memStep s die (.blk core off) _
  | pa a key =>
    exact (((flush_memStep s die).trans (beforeRmw_memStep _ die _)).trans (writeKey_memStep _ a key _)).trans
      (memStep_foldl (fun s a => putPoison_memStep s bs a) _ _)
  | repl a home key =>
    exact ((((flush_memStep s die).trans (beforeRmw_memStep _ die _)).trans (store_memStep _ die _ _)).trans (drainReplicas_memStep _ _)).trans
      (memStep_foldl (fun s a => putPoison_memStep s bs a) _ _)

theorem coxWrite_memStep (die : Nat) (s : State) (ps : List (Loc × Nat)) (bs : List (Byte × Bool)) : MemStep s (coxWrite die s ps bs) := by
  induction ps generalizing s bs with
  | nil => exact .refl s
  | cons p ps ih => exact (enginePut_memStep ..).trans (ih _ _)

/-- A combine changes memory alone. -/
theorem combineChunk_memStep {s m : State} {port k : Nat} {buf ireg : BitVec 4} {tag : Nat} (h : combineChunk s port k buf ireg tag = .ok m) : MemStep s m := by
  unfold combineChunk at h
  dsimp only at h
  split at h
  · cases h
  · cases h
  · cases h
  · cases h
    exact coxWrite_memStep ..

/-! ## The instructions -/

section Instructions

variable {f : FormCC} {s : State} {sl : CoxSlot}

/-- The beginning of a send, as `CoxChunkInstructions` puts it for combf and fwd. -/
def SendState (s m : State) (sl : CoxSlot) (buf chunk ct tag : Nat) : State :=
  (waits s (({ withSlot s m (fun x => { x with send := some (newSend s m sl buf chunk ct tag) }) with
    order := m.order + 1 } : State).coxEmit s.cur.port s.cur.ctxSlot (m.coxSlot s.cur.port s.cur.ctxSlot) (newSend s m sl buf chunk ct tag)
      (newSend s m sl buf chunk ct tag).left) 1).coxPending s.cur.port s.cur.ctxSlot

/-- The send of a state whose slot has the buffers and the group that it had. -/
theorem ends_send {m : State} {buf chunk ct tag : Nat} {close : State → State} {x : CoxSlot} {ps : List (Loc × Nat)} (asid : Nat)
    (hm : m.coxSlot s.cur.port s.cur.ctxSlot = x) (hsend : x.send = none) (hbufs : x.bufs = sl.bufs) (hgroup : x.group = sl.group) (hgroups : m.groups = s.groups)
    (hspan : coxSpan m s.cur.port x (sl.buf buf) false (chunk * 2 ^ (sl.buf buf).lch) (2 ^ (sl.buf buf).lch) = .ok ps) :
    coxEnds s.opening s.cur.port s.cur.ctxSlot asid (sendPart m s.cur.port s.cur.ctxSlot buf chunk ct tag close) = SendState s m sl buf chunk ct tag := by
  have hbuf : x.buf buf = sl.buf buf := by
    unfold CoxSlot.buf
    rw [hbufs]
  have hgrp : m.grp x.group = s.grp sl.group := by
    unfold State.grp
    rw [hgroup, hgroups]
  rw [sendPart_begins (sd := newSend s m sl buf chunk ct tag) hm hsend (by rw [hbuf]; exact hspan) (by rw [hbuf, hgrp]; rfl)]
  unfold SendState
  rw [hm]
  rfl

theorem coxPost_row (h : CoxRuns s sl) (hrsv : f.rsv = 0#30) (hin : s.inRegion s.cur.port sl (sl.pc + 1) = true) (htreg : f.treg = 0#4) (hstag : f.stag = 0#8)
    (hbuf : BufferOk sl f) (hnew : ∀ w ∈ sl.wins, w.tag ≠ f.wtag.toNat) (hroom : sl.wins.length < 4) (hhf : (sl.buf f.buf.toNat).hf = false) :
    exec (.coxPost f) s = .next (withSlot s { s.opening with frags := s.frags.filter (fun g => g.key ≠ [65536 + s.cur.port * 8 + s.cur.ctxSlot, f.wtag.toNat]) }
      (fun x => retire sl (sl.pc + 1) { x with wins := x.wins ++
        [{ tag := f.wtag.toNat, buf := f.buf.toNat, chunk := (creg sl f.ireg).toNat, landed := 0, fva := none, fsub := 0, poison := false, pva := 0 }] })) := by
  have hnone : sl.wins.any (fun w => w.tag == f.wtag.toNat) = false := by
    rw [List.any_eq_false]
    exact fun w hw => by simpa using hnew w hw
  rw [exec_coxPost, execCoxPost, coxIssue_effect h hin (by rw [hrsv, htreg, hstag]; rfl)]
  dsimp only
  rw [hhf, coxCheck_none (passes_append (chkBuf_passes hbuf) (by simp [hnone, hroom]))]
  dsimp only
  refine congrArg Host.Outcome.next ?_
  have hslot := slot_withSlot (m := { s.opening with frags := s.frags.filter (fun g => g.key ≠ [65536 + s.cur.port * 8 + s.cur.ctxSlot, f.wtag.toNat]) }) h rfl
    (fun x => { x with wins := x.wins ++
        [{ tag := f.wtag.toNat, buf := f.buf.toNat, chunk := (creg sl f.ireg).toNat, landed := 0, fva := none, fsub := 0, poison := false, pva := 0 }] })
  refine (ends_retired hslot (by rw [h.running]; decide) rfl h.plain).trans ?_
  exact modSlot_modSlot _ _ _ _ _ (slot_ne_free h rfl)

theorem coxRecv_row (h : CoxRuns s sl) (hun : Undisturbed sl) (hrsv : f.rsv = 0#30) (hin : s.inRegion s.cur.port sl (sl.pc + 1) = true) (hbuf : f.buf = 0#4)
    (hireg : f.ireg = 0#4) (htreg : f.treg = 0#4) (hstag : f.stag = 0#8) (hland : Landed sl f.wtag.toNat) :
    exec (.coxRecv f) s = .next (boundary s (withSlot s s.opening (fun x => { x with wins := closed sl f.wtag.toNat })) (sl.pc + 1)) := by
  rw [exec_coxRecv, execCoxRecv, coxIssue_effect h hin (by rw [hrsv, hbuf, hireg, htreg, hstag]; rfl)]
  rw [coxCheck_none (chkTag_passes hland)]
  dsimp only
  rw [windowEnd_landed (coxSlot_opening h) hland]
  refine congrArg Host.Outcome.next (Eq.trans ?_ (ends_withSlot h hun (m := s.opening) rfl sl.asid (sl.pc + 1) rfl rfl rfl rfl))
  unfold State.closeWin withSlot
  rw [modSlot_congr (s := s.opening) (g := fun x => { x with wins := closed sl f.wtag.toNat }) (by rw [coxSlot_opening h]; rfl)]

/-- Closing the window of a tag of a slot whose windows are as they were. -/
theorem closeWin_eq {m : State} {port k tag : Nat} {x : CoxSlot} (hm : m.coxSlot port k = x) (hwins : x.wins = sl.wins) :
    m.closeWin port k tag = m.modSlot port k (fun x => { x with wins := closed sl tag }) := by
  refine modSlot_congr ?_
  rw [hm, hwins]
  rfl

theorem MemStep.coxes {s t : State} (h : MemStep s t) : t.coxes = s.coxes := by rw [h]
theorem MemStep.groups {s t : State} (h : MemStep s t) : t.groups = s.groups := by rw [h]

theorem coxComb_row (h : CoxRuns s sl) (hun : Undisturbed sl) (hrsv : f.rsv = 0#30) (hin : s.inRegion s.cur.port sl (sl.pc + 1) = true) (htreg : f.treg = 0#4)
    (hstag : f.stag = 0#8) (hbuf : BufferOk sl f) (hland : Landed sl f.wtag.toNat) (hshape : SameShape sl f) {m : State}
    (hm : combineChunk s.opening s.cur.port s.cur.ctxSlot f.buf f.ireg f.wtag.toNat = .ok m) :
    exec (.coxComb f) s = .next (boundary s (withSlot s m (fun x => { x with wins := closed sl f.wtag.toNat })) (sl.pc + 1)) := by
  have hcoxes : m.coxes = s.coxes := (MemStep.coxes (combineChunk_memStep hm)).trans rfl
  rw [exec_coxComb, execCoxComb, coxIssue_effect h hin (by rw [hrsv, htreg, hstag]; rfl)]
  rw [coxCheck_none (passes_append (passes_append (chkBuf_passes hbuf) (chkTag_passes hland)) (chkSize_passes hshape))]
  dsimp only
  rw [windowEnd_landed (coxSlot_opening h) hland]
  dsimp only
  rw [hm]
  dsimp only
  rw [closeWin_eq (slot_of_coxes h hcoxes) rfl]
  exact congrArg Host.Outcome.next (ends_withSlot h hun hcoxes sl.asid (sl.pc + 1) rfl rfl rfl rfl)

/-- The checks of send and the second part of combf pass. -/
theorem chkSend_passes (hbuf : BufferOk sl f) (htarget : TargetOk s sl f) :
    coxCheck (chkBuf sl f.buf f.ireg ++ chkTarget s.opening sl f.treg) = none :=
  coxCheck_none (passes_append (chkBuf_passes hbuf) (chkTarget_passes htarget))

theorem coxSend_begins (h : CoxRuns s sl) (hrsv : f.rsv = 0#30) (hin : s.inRegion s.cur.port sl (sl.pc + 1) = true) (hwtag : f.wtag = 0#8)
    (hbuf : BufferOk sl f) (htarget : TargetOk s sl f) (hsend : sl.send = none) {ps : List (Loc × Nat)}
    (hspan : coxSpan s.opening s.cur.port sl (sl.buf f.buf.toNat) false ((creg sl f.ireg).toNat * 2 ^ (sl.buf f.buf.toNat).lch)
      (2 ^ (sl.buf f.buf.toNat).lch) = .ok ps) :
    exec (.coxSend f) s = .next (SendState s s.opening sl f.buf.toNat (creg sl f.ireg).toNat (creg sl f.treg).toNat f.stag.toNat) := by
  rw [exec_coxSend, execCoxSend, coxIssue_effect h hin (by rw [hrsv, hwtag]; rfl)]
  rw [chkSend_passes hbuf htarget]
  exact congrArg Host.Outcome.next (ends_send sl.asid (coxSlot_opening h) hsend rfl rfl rfl hspan)

theorem coxSend_ends (h : CoxRuns s sl) (hun : Undisturbed sl) (hrsv : f.rsv = 0#30) (hin : s.inRegion s.cur.port sl (sl.pc + 1) = true) (hwtag : f.wtag = 0#8)
    (hbuf : BufferOk sl f) (htarget : TargetOk s sl f) {sd : CoxSend} (hsend : sl.send = some sd) (hfail : sd.fail = none) (hleft : sd.left = []) :
    exec (.coxSend f) s = .next (boundary s (withSlot s s.opening (fun x => { x with send := none, phase := false })) (sl.pc + 1)) := by
  rw [exec_coxSend, execCoxSend, coxIssue_effect h hin (by rw [hrsv, hwtag]; rfl)]
  rw [chkSend_passes hbuf htarget]
  dsimp only
  rw [sendPart_ends (coxSlot_opening h) hsend hfail hleft]
  exact congrArg Host.Outcome.next (ends_withSlot h hun (m := s.opening) rfl sl.asid (sl.pc + 1) rfl rfl rfl rfl)

theorem coxCombf_begins (h : CoxRuns s sl) (hrsv : f.rsv = 0#30) (hin : s.inRegion s.cur.port sl (sl.pc + 1) = true)
    (hbuf : BufferOk sl f) (htarget : TargetOk s sl f) (hland : Landed sl f.wtag.toNat) (hshape : SameShape sl f) (hphase : sl.phase = false)
    (hsend : sl.send = none) {m : State} (hm : combineChunk s.opening s.cur.port s.cur.ctxSlot f.buf f.ireg f.wtag.toNat = .ok m) {ps : List (Loc × Nat)}
    (hspan : coxSpan (withSlot s m (fun x => { x with wins := closed sl f.wtag.toNat, phase := true })) s.cur.port
      ((withSlot s m (fun x => { x with wins := closed sl f.wtag.toNat, phase := true })).coxSlot s.cur.port s.cur.ctxSlot) (sl.buf f.buf.toNat) false
      ((creg sl f.ireg).toNat * 2 ^ (sl.buf f.buf.toNat).lch) (2 ^ (sl.buf f.buf.toNat).lch) = .ok ps) :
    exec (.coxCombf f) s = .next (SendState s (withSlot s m (fun x => { x with wins := closed sl f.wtag.toNat, phase := true })) sl f.buf.toNat
      (creg sl f.ireg).toNat (creg sl f.treg).toNat f.stag.toNat) := by
  have hstep := combineChunk_memStep hm
  have hcoxes : m.coxes = s.coxes := (MemStep.coxes hstep).trans rfl
  have hgroups : m.groups = s.groups := (MemStep.groups hstep).trans rfl
  have hslot := slot_withSlot h hcoxes (fun x => { x with wins := closed sl f.wtag.toNat, phase := true })
  rw [exec_coxCombf, execCoxCombf, coxIssue_effect h hin (by rw [hrsv]; rfl)]
  dsimp only
  rw [hphase, if_neg Bool.false_ne_true,
    coxCheck_none (passes_append (passes_append (chkBuf_passes hbuf) (chkTarget_passes htarget)) (passes_append (chkTag_passes hland) (chkSize_passes hshape)))]
  dsimp only
  rw [if_neg Bool.false_ne_true, windowEnd_landed (coxSlot_opening h) hland]
  dsimp only
  rw [hm]
  dsimp only
  rw [closeWin_eq (slot_of_coxes h hcoxes) rfl, modSlot_modSlot _ _ _ _ _ (slot_ne_free h hcoxes)]
  exact congrArg Host.Outcome.next (ends_send sl.asid hslot hsend rfl rfl hgroups (hslot ▸ hspan))

theorem coxCombf_ends (h : CoxRuns s sl) (hun : Undisturbed sl) (hrsv : f.rsv = 0#30) (hin : s.inRegion s.cur.port sl (sl.pc + 1) = true)
    (hbuf : BufferOk sl f) (htarget : TargetOk s sl f) (hphase : sl.phase = true) {sd : CoxSend} (hsend : sl.send = some sd) (hfail : sd.fail = none)
    (hleft : sd.left = []) :
    exec (.coxCombf f) s = .next (boundary s (withSlot s s.opening (fun x => { x with send := none, phase := false })) (sl.pc + 1)) := by
  rw [exec_coxCombf, execCoxCombf, coxIssue_effect h hin (by rw [hrsv]; rfl)]
  dsimp only
  rw [hphase, if_pos rfl, List.append_nil, chkSend_passes hbuf htarget]
  dsimp only
  rw [if_pos rfl, sendPart_ends (coxSlot_opening h) hsend hfail hleft]
  exact congrArg Host.Outcome.next (ends_withSlot h hun (m := s.opening) rfl sl.asid (sl.pc + 1) rfl rfl rfl rfl)

/-- The checks of fwd pass. -/
theorem chkFwd_passes (htarget : TargetOk s sl f) (hland : Landed sl f.wtag.toNat) :
    coxCheck (chkTarget s.opening sl f.treg ++ chkTag sl f.wtag.toNat) = none :=
  coxCheck_none (passes_append (chkTarget_passes htarget) (chkTag_passes hland))

theorem coxFwd_begins (h : CoxRuns s sl) (hrsv : f.rsv = 0#30) (hin : s.inRegion s.cur.port sl (sl.pc + 1) = true) (hbuf : f.buf = 0#4) (hireg : f.ireg = 0#4)
    (htarget : TargetOk s sl f) (hland : Landed sl f.wtag.toNat) (hphase : sl.phase = false) (hsend : sl.send = none) {ps : List (Loc × Nat)}
    (hspan : coxSpan (withSlot s s.opening (fun x => { x with phase := true })) s.cur.port
      ((withSlot s s.opening (fun x => { x with phase := true })).coxSlot s.cur.port s.cur.ctxSlot) (sl.buf (sl.win f.wtag.toNat).buf) false
      ((sl.win f.wtag.toNat).chunk * 2 ^ (sl.buf (sl.win f.wtag.toNat).buf).lch) (2 ^ (sl.buf (sl.win f.wtag.toNat).buf).lch) = .ok ps) :
    exec (.coxFwd f) s = .next (SendState s (withSlot s s.opening (fun x => { x with phase := true })) sl (sl.win f.wtag.toNat).buf
      (sl.win f.wtag.toNat).chunk (creg sl f.treg).toNat f.stag.toNat) := by
  have hslot := slot_withSlot (m := s.opening) h rfl (fun x => { x with phase := true })
  rw [exec_coxFwd, execCoxFwd, coxIssue_effect h hin (by rw [hrsv, hbuf, hireg]; rfl)]
  rw [chkFwd_passes htarget hland]
  dsimp only
  rw [hphase, if_neg Bool.false_ne_true, windowEnd_landed (coxSlot_opening h) hland]
  exact congrArg Host.Outcome.next (ends_send sl.asid hslot hsend rfl rfl rfl (hslot ▸ hspan))

theorem coxFwd_ends (h : CoxRuns s sl) (hun : Undisturbed sl) (hrsv : f.rsv = 0#30) (hin : s.inRegion s.cur.port sl (sl.pc + 1) = true) (hbuf : f.buf = 0#4)
    (hireg : f.ireg = 0#4) (htarget : TargetOk s sl f) (hland : Landed sl f.wtag.toNat) (hphase : sl.phase = true) {sd : CoxSend}
    (hsend : sl.send = some sd) (hfail : sd.fail = none) (hleft : sd.left = []) :
    exec (.coxFwd f) s = .next (boundary s (withSlot s s.opening (fun x => { x with send := none, phase := false, wins := closed sl f.wtag.toNat })) (sl.pc + 1)) := by
  have hslot := slot_withSlot (m := s.opening) h rfl (fun x => { x with send := none, phase := false })
  rw [exec_coxFwd, execCoxFwd, coxIssue_effect h hin (by rw [hrsv, hbuf, hireg]; rfl)]
  rw [chkFwd_passes htarget hland]
  dsimp only
  rw [hphase, if_pos rfl, sendPart_ends (coxSlot_opening h) hsend hfail hleft]
  have hclose := closeWin_eq (sl := sl) (tag := f.wtag.toNat) hslot rfl
  unfold withSlot at hclose
  rw [hclose, modSlot_modSlot _ _ _ _ _ (slot_ne_free (m := s.opening) h rfl)]
  exact congrArg Host.Outcome.next (ends_withSlot h hun (m := s.opening) (g := fun x => { x with send := none, phase := false, wins := closed sl f.wtag.toNat })
    rfl sl.asid (sl.pc + 1) rfl rfl rfl rfl)

end Instructions

theorem coxChunkInstructions : CoxChunkInstructions := by
  intro f s sl h hun hrsv hin s0 port k tag ct chunk d begins
  refine ⟨fun htreg hstag hbuf hnew hroom hhf => coxPost_row h hrsv hin htreg hstag hbuf hnew hroom hhf,
    fun hbuf hireg htreg hstag hland => coxRecv_row h hun hrsv hin hbuf hireg htreg hstag hland,
    fun htreg hstag hbuf hland hshape m hm => coxComb_row h hun hrsv hin htreg hstag hbuf hland hshape hm,
    fun hwtag hbuf htarget hsend hspan => ?_, fun hwtag hbuf htarget sd hsend hfail hleft => coxSend_ends h hun hrsv hin hwtag hbuf htarget hsend hfail hleft,
    fun hbuf htarget hland hshape hphase hsend m hm hspan => ?_,
    fun hbuf htarget hphase sd hsend hfail hleft => coxCombf_ends h hun hrsv hin hbuf htarget hphase hsend hfail hleft,
    fun hbuf hireg htarget hland hphase hsend hspan => ?_,
    fun hbuf hireg htarget hland hphase sd hsend hfail hleft => coxFwd_ends h hun hrsv hin hbuf hireg htarget hland hphase hsend hfail hleft⟩
  · obtain ⟨ps, hps⟩ := hspan
    intro sd m
    rw [coxSend_begins h hrsv hin hwtag hbuf htarget hsend hps]
    unfold SendState
    rw [coxSlot_opening h]
    rfl
  · obtain ⟨ps, hps⟩ := hspan
    exact ⟨_, coxCombf_begins h hrsv hin hbuf htarget hland hshape hphase hsend hm hps, rfl⟩
  · obtain ⟨ps, hps⟩ := hspan
    exact ⟨_, coxFwd_begins h hrsv hin hbuf hireg htarget hland hphase hsend hps, rfl⟩

theorem coxChunkChecks : CoxChunkChecks := by
  intro f s sl h hrsv hin stops
  refine ⟨fun hwtag => ⟨fun hv => ?_, fun hv hcount => ?_, fun hbuf htarget => ?_⟩, fun hbuf hireg htreg hstag hnone => ?_⟩
  · refine (exec_coxSend f s).trans ?_
    rw [execCoxSend, coxIssue_effect h hin (by rw [hrsv, hwtag]; rfl)]
    have hcheck : coxCheck (chkBuf sl f.buf f.ireg ++ chkTarget s.opening sl f.treg) = some (0x0B, 0) := by simp [coxCheck, chkBuf, hv]
    rw [hcheck]
    rfl
  · refine (exec_coxSend f s).trans ?_
    rw [execCoxSend, coxIssue_effect h hin (by rw [hrsv, hwtag]; rfl)]
    have hcheck : coxCheck (chkBuf sl f.buf f.ireg ++ chkTarget s.opening sl f.treg) = some (0x0A, 0) := by
      simp [coxCheck, chkBuf, hv, creg_toNat, hcount]
    rw [hcheck]
    rfl
  · refine (exec_coxSend f s).trans ?_
    rw [execCoxSend, coxIssue_effect h hin (by rw [hrsv, hwtag]; rfl), coxCheck_append (chkBuf_passes hbuf)]
    have hfails : ¬ ∀ c ∈ chkTarget s.opening sl f.treg, c.1 = false := fun hpass => htarget ((chkTarget_eq s.opening f.treg).mp hpass)
    have hcheck : coxCheck (chkTarget s.opening sl f.treg) = some (0x0F, 6) := by
      unfold chkTarget at hfails ⊢
      simp only [List.forall_mem_cons, List.not_mem_nil, false_imp_iff, implies_true, and_true, Bool.not_eq_false] at hfails
      simp only [coxCheck, List.find?_cons, hfails, Option.map_some]
    rw [hcheck]
    rfl
  · refine (exec_coxRecv f s).trans ?_
    rw [execCoxRecv, coxIssue_effect h hin (by rw [hrsv, hbuf, hireg, htreg, hstag]; rfl)]
    have hany : sl.wins.any (fun w => w.tag == f.wtag.toNat) = false := by
      rw [List.any_eq_false]
      exact fun w hw => by simpa using hnone w hw
    have hcheck : coxCheck (chkTag sl f.wtag.toNat) = some (0x0F, 2) := by simp [coxCheck, chkTag, hany]
    rw [hcheck]
    rfl

/-! ## A comb whose chunks are mapped -/

/-- A span in one page that translates is one piece. -/
theorem coxPieces_of_mapped {s : State} {port al off n k : Nat} {sl : CoxSlot} {d : BufD} {write : Bool} {l : Loc} (h : Mapped s port sl d write off n l)
    (hn : n ≠ 0) (hk : k ≠ 0) : coxPieces s port sl d write al (k + 1) off n = .ok [(l, n)] := by
  obtain ⟨hdirect, ⟨hpage, hcanon⟩, hplace, hready⟩ := h
  obtain ⟨j, rfl⟩ := Nat.exists_eq_succ_of_ne_zero hk
  have hmin : min n (65536 - (d.base + off) % 2 ^ 64 % 65536) = n := by omega
  have hrest : coxPieces s port sl d write al (j + 1) (off + n) (n - n) = .ok [] := by rw [Nat.sub_self, coxPieces, if_pos rfl]
  unfold coxPieces
  rw [if_neg hn]
  simp only [hdirect, Bool.false_and, Bool.false_eq_true, if_false, Nat.mod_mod, hmin, hcanon, Bool.not_true, HandleEntry.none]
  rw [hplace]
  dsimp only [coxDie]
  rw [hready]
  dsimp only
  rw [hrest]

theorem coxSpan_of_mapped {s : State} {port off n : Nat} {sl : CoxSlot} {d : BufD} {write : Bool} {l : Loc} (h : Mapped s port sl d write off n l) (hn : n ≠ 0) :
    coxSpan s port sl d write off n = .ok [(l, n)] := coxPieces_of_mapped h hn (Nat.succ_ne_zero _)

theorem coxCombineCompletes : CoxCombineCompletes := by
  intro f s sl w own src h hun hrsv htreg hstag hin hbuf hland hshape d win n hw hown hsrc
  have hn : n ≠ 0 := (Nat.two_pow_pos _).ne'
  obtain ⟨m, hm⟩ : ∃ m, combineChunk s.opening s.cur.port s.cur.ctxSlot f.buf f.ireg f.wtag.toNat = .ok m := by
    have hslot := coxSlot_opening h
    have hread : ∃ ps, (if d.op = 3 then .ok [] else coxSpan s.opening s.cur.port sl d false ((creg sl f.ireg).toNat * n) n) = Except.ok (ε := CoxBad) ps := by
      by_cases hop : d.op = 3
      · exact ⟨_, if_pos hop⟩
      · exact ⟨_, (if_neg hop).trans (coxSpan_of_mapped hown hn)⟩
    obtain ⟨ps, hps⟩ := hread
    unfold combineChunk
    dsimp only
    rw [hslot, creg_toNat]
    rw [show coxSpan s.opening s.cur.port sl (sl.buf f.buf.toNat) true ((creg sl f.ireg).toNat * 2 ^ (sl.buf f.buf.toNat).lch) (2 ^ (sl.buf f.buf.toNat).lch) = _
        from coxSpan_of_mapped hw hn, show ite _ _ _ = _ from hps,
      show coxSpan s.opening s.cur.port sl (sl.buf (sl.win f.wtag.toNat).buf) false ((sl.win f.wtag.toNat).chunk * 2 ^ (sl.buf f.buf.toNat).lch)
        (2 ^ (sl.buf f.buf.toNat).lch) = _ from coxSpan_of_mapped hsrc hn]
    exact ⟨_, rfl⟩
  have hcoxes : m.coxes = s.coxes := (MemStep.coxes (combineChunk_memStep hm)).trans rfl
  have hslot := slot_withSlot h hcoxes (fun x => { x with wins := closed sl f.wtag.toNat })
  refine ⟨_, coxComb_row h hun hrsv hin htreg hstag hbuf hland hshape hm, ?_⟩
  have hne : ((withSlot s m (fun x => { x with wins := closed sl f.wtag.toNat })).coxSlot s.cur.port s.cur.ctxSlot).st ≠ 0 := by
    rw [hslot]
    show sl.st ≠ 0
    rw [h.running]
    decide
  generalize withSlot s m (fun x => { x with wins := closed sl f.wtag.toNat }) = t at hslot hne
  unfold boundary withSlot
  dsimp only
  rw [coxSlot_modSlot hne, hslot]
  exact ⟨rfl, rfl⟩

/-- Settles O39. -/
theorem coxChunks : Obligations.CoxChunks := ⟨coxChunkInstructions, coxChunkChecks, coxCombineCompletes⟩

end Sys2Proof.Proofs.CoxChunkRows
end

