-- ==== Sys2Proof/Proofs/CoxFlagRows.lean ====
section
/-!
PROOF. Proofs/CoxFlagRows.lean: the flag instructions of a cox, waitf and sigf (13 R298, 14 R320).
-/

namespace Sys2Proof.Proofs.CoxFlagRows

open Sys2Proof Sys2Proof.Machine Sys2Proof.Claims Sys2Proof.Proofs.MemoryFrames Sys2Proof.Proofs.LoadRows Sys2Proof.Proofs.AtomicRows
  Sys2Proof.Proofs.CoxSequenceRows Sys2Proof.Proofs.CoxControlRows Sys2Proof.Proofs.CoxChunkRows

section Flags

variable {f : FormCF} {s : State} {sl : CoxSlot} {l : Loc} {va : Nat}

theorem reached_iff (flag t : Nat) : reached flag t = true ↔ (flag + 2 ^ 32 - t % 2 ^ 32) % 2 ^ 32 < 2 ^ 31 := decide_eq_true_iff

/-- The add of a word, as the atomics put it. -/
theorem rmwLane_add (s : State) (die : Nat) (l : Loc) (v : Nat) :
    rmwLane (rmwWord (· + ·)) 4 s die l v = atomStep (fun a b => some ((a + b) % 2 ^ 32)) 4 die l v s := by
  have hsum (a b : Nat) : (BitVec.ofNat 32 a + BitVec.ofNat 32 b).toNat = (a + b) % 2 ^ 32 := by
    rw [BitVec.toNat_add, BitVec.toNat_ofNat, BitVec.toNat_ofNat, ← Nat.add_mod]
  unfold rmwLane atomStep rmwWord
  dsimp only
  rw [hsum]

theorem flag_coxes (s : State) (die : Nat) (l : Loc) : (s.opening.beforeLoad die l 4).coxes = s.coxes :=
  (MemStep.coxes (beforeLoad_memStep s.opening die l 4)).trans rfl

/-- Waits that nothing ends. -/
theorem ends_waits (h : CoxRuns s sl) (hun : Undisturbed sl) {m : State} (hm : m.coxes = s.coxes) (asid why : Nat) :
    coxEnds s.opening s.cur.port s.cur.ctxSlot asid (.waits m why) = waits s m why := by
  have hslot := slot_withSlot h hm (fun x => { x with st := 3, why := why, spin := 0 })
  refine coxPending_none ?_ ?_
  · exact (congrArg CoxSlot.killed hslot).trans hun.1
  · exact (congrArg CoxSlot.aborted hslot).trans hun.2

theorem coxWaitf_reached (h : CoxRuns s sl) (hrsv : f.rsv = 0#46) (hin : s.inRegion s.cur.port sl (sl.pc + 1) = true)
    (hplace : flagPlace s.opening s.cur.port sl f false = .ok (l, va)) (hflag : reached (flagValue s.opening s.cur.port l) (creg sl f.vreg).toNat = true) :
    exec (.coxWaitf f) s = .next (withSlot s (s.opening.beforeLoad (s.cur.port / 8) l 4) (retire sl (sl.pc + 1))) := by
  rw [exec_coxWaitf, execCoxWaitf, coxIssue_effect h hin (by rw [hrsv]; rfl), hplace]
  dsimp only
  rw [creg_toNat, if_pos hflag]
  exact congrArg Host.Outcome.next (ends_retired (slot_of_coxes h (flag_coxes ..)) (by rw [h.running]; decide) rfl h.plain)

theorem coxWaitf_waits (h : CoxRuns s sl) (hun : Undisturbed sl) (hrsv : f.rsv = 0#46) (hin : s.inRegion s.cur.port sl (sl.pc + 1) = true)
    (hplace : flagPlace s.opening s.cur.port sl f false = .ok (l, va)) (hflag : reached (flagValue s.opening s.cur.port l) (creg sl f.vreg).toNat ≠ true) :
    exec (.coxWaitf f) s = .next (waits s s.opening 3) := by
  rw [exec_coxWaitf, execCoxWaitf, coxIssue_effect h hin (by rw [hrsv]; rfl), hplace]
  dsimp only
  rw [creg_toNat, if_neg hflag]
  exact congrArg Host.Outcome.next (ends_waits h hun (m := s.opening) rfl sl.asid 3)

theorem sigf_coxes (s : State) (die : Nat) (l : Loc) (v : Nat) :
    (atomStep (fun a b => some ((a + b) % 2 ^ 32)) 4 die l v s.opening.release).1.coxes = s.coxes :=
  (MemStep.coxes ((release_memStep s.opening).trans (atomStep_memStep ..))).trans rfl

theorem coxSigf_row (h : CoxRuns s sl) (hrsv : f.rsv = 0#46) (hin : s.inRegion s.cur.port sl (sl.pc + 1) = true)
    (hplace : flagPlace s.opening s.cur.port sl f true = .ok (l, va)) :
    exec (.coxSigf f) s = .next (withSlot s (atomStep (fun a b => some ((a + b) % 2 ^ 32)) 4 (s.cur.port / 8) l ((creg sl f.vreg).toNat % 2 ^ 32)
      s.opening.release).1 (retire sl (sl.pc + 1))) := by
  rw [exec_coxSigf, execCoxSigf, coxIssue_effect h hin (by rw [hrsv]; rfl), hplace]
  dsimp only
  rw [creg_toNat, rmwLane_add]
  exact congrArg Host.Outcome.next (ends_retired (slot_of_coxes h (sigf_coxes s ..)) (by rw [h.running]; decide) rfl h.plain)

end Flags

theorem coxFlagResults : CoxFlagResults := by
  intro f s sl l va h hun hrsv hin s0 die v
  refine ⟨fun hplace hquiet => ?_, fun hplace => coxSigf_row h hrsv hin hplace⟩
  intro flag
  have hload : s.opening.beforeLoad (s.cur.port / 8) l 4 = s.opening := beforeLoad_quiet (s := s.opening) hquiet ..
  have hflag : flagValue s.opening s.cur.port l = flag := by
    unfold flagValue coxDie
    rw [hload]
  have hmet : reached (flagValue s.opening s.cur.port l) (creg sl f.vreg).toNat = true ↔ (flag + 2 ^ 32 - v) % 2 ^ 32 < 2 ^ 31 := by
    rw [hflag, reached_iff]
  refine ⟨fun hreach => ?_, fun hshort => coxWaitf_waits h hun hrsv hin hplace fun hreach => absurd (hmet.mp hreach) (not_lt.mpr hshort)⟩
  have hrow := coxWaitf_reached h hrsv hin hplace (hmet.mpr hreach)
  rw [hload] at hrow
  exact hrow

/-- The PC of a slot that has retired its instruction. -/
theorem pc_of_retire {s m : State} {sl : CoxSlot} (h : CoxRuns s sl) (hm : m.coxes = s.coxes) (pc : Nat) :
    ((withSlot s m (retire sl pc)).coxSlot s.cur.port s.cur.ctxSlot).pc = pc := by
  rw [slot_withSlot h hm]
  rfl

section Places

variable {f : FormCF} {m : State} {sl : CoxSlot} {l w : Loc} {port : Nat}

/-- The flag of a waitf in a page that translates. -/
theorem flagPlace_read (hv : (sl.buf f.buf.toNat).v = true) (halign : (creg sl f.oreg).toNat % 4 = 0)
    (hoff : (creg sl f.oreg).toNat < (sl.buf f.buf.toNat).count * 2 ^ (sl.buf f.buf.toNat).lch)
    (hmap : Mapped m port sl (sl.buf f.buf.toNat) false (creg sl f.oreg).toNat 4 l) (hpoison : m.locPoison (coxDie port) l 4 = false)
    (hfar : ∀ p, m.paKind (l.readPa (coxDie port)) ≠ .far p) : ∃ va, flagPlace m port sl f false = .ok (l, va) := by
  have hpieces := coxPieces_of_mapped (al := 4) (k := 1) hmap (by decide) (by decide)
  have hdirect := hmap.direct
  unfold flagPlace
  dsimp only
  rw [creg_toNat, hv, hdirect, if_neg (by decide), if_neg (not_not.mpr halign), if_neg (not_le.mpr hoff), Bool.false_and, if_neg Bool.false_ne_true,
    Bool.false_and, if_neg Bool.false_ne_true, hpieces, if_neg Bool.false_ne_true]
  dsimp only
  cases hkind : m.paKind (l.readPa (coxDie port)) with
  | far p => exact absurd hkind (hfar p)
  | _ => exact ⟨_, (if_pos rfl).trans (if_neg (by rw [hpoison]; decide))⟩

/-- The flag of a sigf in a page that may be read and written. -/
theorem flagPlace_add (hv : (sl.buf f.buf.toNat).v = true) (halign : (creg sl f.oreg).toNat % 4 = 0)
    (hoff : (creg sl f.oreg).toNat < (sl.buf f.buf.toNat).count * 2 ^ (sl.buf f.buf.toNat).lch)
    (hmap : Mapped m port sl (sl.buf f.buf.toNat) false (creg sl f.oreg).toNat 4 l)
    (hwrite : Mapped m port sl (sl.buf f.buf.toNat) true (creg sl f.oreg).toNat 4 w)
    (hready : m.locReady (coxDie port) l.home = .yes) (hpoison : m.locPoison (coxDie port) l.home 4 = false)
    (hfar : ∀ p, m.paKind (l.readPa (coxDie port)) ≠ .far p) : ∃ va, flagPlace m port sl f true = .ok (l, va) := by
  have hpieces := coxPieces_of_mapped (al := 4) (k := 1) hmap (by decide) (by decide)
  have hwpieces := coxPieces_of_mapped (al := 4) (k := 1) hwrite (by decide) (by decide)
  have hdirect := hmap.direct
  unfold flagPlace
  dsimp only
  rw [creg_toNat, hv, hdirect, if_neg (by decide), if_neg (not_not.mpr halign), if_neg (not_le.mpr hoff), Bool.false_and, if_neg Bool.false_ne_true,
    Bool.false_and, if_neg Bool.false_ne_true, hpieces, if_pos rfl, hwpieces]
  dsimp only
  rw [hready]
  cases hkind : m.paKind (l.readPa (coxDie port)) with
  | far p => exact absurd hkind (hfar p)
  | _ => exact ⟨_, (if_neg Bool.false_ne_true).trans (if_neg (by rw [hpoison]; decide))⟩

end Places

theorem coxFlagsComplete : CoxFlagsComplete := by
  intro f s sl l w h hun hrsv hin d off die flag hv halign hoff hmap hpoison hfar
  refine ⟨fun hreach => ?_, fun hwrite hready hhome => ?_⟩
  · obtain ⟨va, hplace⟩ := flagPlace_read hv halign hoff hmap hpoison hfar
    exact ⟨_, coxWaitf_reached h hrsv hin hplace ((reached_iff _ _).mpr hreach), pc_of_retire h (flag_coxes ..) _⟩
  · obtain ⟨va, hplace⟩ := flagPlace_add hv halign hoff hmap hwrite hready hhome hfar
    exact ⟨_, coxSigf_row h hrsv hin hplace, pc_of_retire h (sigf_coxes s ..) _⟩

/-- Settles O40. -/
theorem coxFlagInstructions : Obligations.CoxFlagInstructions := ⟨coxFlagResults, coxFlagsComplete⟩

end Sys2Proof.Proofs.CoxFlagRows
end

