-- ==== Sys2Proof/Proofs/IssueCheckRows.lean ====
section
/-!
PROOF. Proofs/IssueCheckRows.lean: the checks of issue of the format R instructions, of the privileged system instructions and of unassigned
operations (02 R46, R58; 21 R381).
-/

namespace Sys2Proof.Proofs.IssueCheckRows

open Sys2Proof Sys2Proof.Machine Sys2Proof.Claims

/-! ## Format R -/

/-- The instruction of a row runs lane by lane on its operands. -/
def RunsLanes (r : RowR) : Prop := ∃ g, ∀ f s, exec (r.instr f) s = runR f r.use r.lat g s

theorem integerRows_runLanes : ∀ r ∈ integerRows, RunsLanes r := by
  simp only [integerRows, List.forall_mem_cons]
  exact ⟨⟨_, exec_iaddI32⟩, ⟨_, exec_isubI32⟩, ⟨_, exec_iadd3I32⟩, ⟨_, exec_imulI32⟩, ⟨_, exec_imulhiI32⟩, ⟨_, exec_imulhiN32⟩, ⟨_, exec_imadI32⟩,
    ⟨_, exec_iminI32⟩, ⟨_, exec_imaxI32⟩, ⟨_, exec_iminN32⟩, ⟨_, exec_imaxN32⟩, by simp⟩

theorem bitwiseRows_runLanes : ∀ r ∈ bitwiseRows, RunsLanes r := by
  simp only [bitwiseRows, List.forall_mem_cons]
  exact ⟨⟨_, exec_andB32⟩, ⟨_, exec_orB32⟩, ⟨_, exec_xorB32⟩, ⟨_, exec_andnB32⟩, ⟨_, exec_notB32⟩, ⟨_, exec_movB32⟩, ⟨_, exec_selB32⟩,
    ⟨_, exec_bselB32⟩, by simp⟩

theorem shiftRows_runLanes : ∀ r ∈ shiftRows, RunsLanes r := by
  simp only [shiftRows, List.forall_mem_cons]
  exact ⟨⟨_, exec_shlB32⟩, ⟨_, exec_shrN32⟩, ⟨_, exec_shrI32⟩, ⟨_, exec_rotlB32⟩, ⟨_, exec_rotrB32⟩, by simp⟩

theorem bitFieldRows_runLanes : ∀ r ∈ bitFieldRows, RunsLanes r := by
  simp only [bitFieldRows, List.forall_mem_cons]
  exact ⟨⟨_, exec_bfeN32⟩, ⟨_, exec_bfeI32⟩, ⟨_, exec_popcB32⟩, ⟨_, exec_clzB32⟩, ⟨_, exec_ctzB32⟩, ⟨_, exec_brevB32⟩, ⟨_, exec_bswB32⟩, by simp⟩

theorem packedRows_runLanes : ∀ r ∈ packedRows, RunsLanes r := by
  simp only [packedRows, List.forall_mem_cons]
  exact ⟨⟨_, exec_vaddI16x2⟩, ⟨_, exec_vsubI16x2⟩, ⟨_, exec_vaddI8x4⟩, ⟨_, exec_vsubI8x4⟩, ⟨_, exec_vminI16x2⟩, ⟨_, exec_vmaxI16x2⟩,
    ⟨_, exec_vminI8x4⟩, ⟨_, exec_vmaxI8x4⟩, ⟨_, exec_vminN8x4⟩, ⟨_, exec_vmaxN8x4⟩, ⟨_, exec_vaddsatI16x2⟩, ⟨_, exec_vaddsatI8x4⟩,
    ⟨_, exec_dp4I8x4⟩, ⟨_, exec_dp4N8x4⟩, ⟨_, exec_dp2I16x2⟩, ⟨_, exec_dp8I4x8⟩, by simp⟩

/-- An instruction that may not issue yet. -/
theorem issue_holdsBack {sp : Spec} {bad : Crew → Bool} {body : Ctx → State → Res Done} {s : State} {c : Crew} (hc : s.opening.issuer? = some c)
    (hm : mayIssue s.opening c sp.h = false) : issue sp bad body s = .next { s.opening with heldMark := true } := by
  simp only [issue, hc, hm, Bool.not_false, if_true]

theorem checked_of_issue {i : Instr} {sp : Spec} {bad : Crew → Bool} {body : Ctx → State → Res Done} {s : State} {c : Crew}
    (hexec : exec i s = issue sp bad body s) (hdeny : sp.deny = false) (hpriv : sp.priv = false) : Checked i s c sp bad := by
  intro hc
  rw [hexec]
  exact ⟨issue_holdsBack hc, issue_checked body hc hdeny hpriv⟩

theorem rowChecks : RowChecks := by
  intro r hr f s c
  have hruns : RunsLanes r := by
    simp only [List.mem_append] at hr
    obtain (((h | h) | h) | h) | h := hr
    · exact integerRows_runLanes r h
    · exact bitwiseRows_runLanes r h
    · exact shiftRows_runLanes r h
    · exact bitFieldRows_runLanes r h
    · exact packedRows_runLanes r h
  obtain ⟨g, hg⟩ := hruns
  exact checked_of_issue (hg f s) rfl rfl

/-! ## Privileged instructions -/

/-- A privileged instruction issued from the user view. -/
theorem issue_privileged {sp : Spec} {bad : Crew → Bool} {body : Ctx → State → Res Done} {s : State} {c : Crew} (hc : s.opening.issuer? = some c)
    (hm : mayIssue s.opening c sp.h = true) (hpriv : sp.priv = true) (huser : c.priv ≠ 2) :
    issue sp bad body s = .next (s.opening.takeCause privCause) := by
  simp only [issue, hc, hm, hpriv, Bool.not_true, Bool.false_eq_true, if_false, ne_eq, huser, not_false_eq_true, and_self, or_true, if_true]

/-- The instruction issues as a privileged one of format S. -/
def Privileged (i : Instr) (f : FormS) : Prop := ∀ s, ∃ sp bad body, exec i s = issue sp bad body s ∧ sp.h = f.h ∧ sp.priv = true

theorem systemInstructions_privileged (f : FormS) :
    ∀ i ∈ [Instr.getsp f, Instr.setsp f, Instr.icinv f, Instr.cwb f, Instr.cinv f, Instr.tlbinvVa f, Instr.tlbinvAsid f, Instr.tlbinvAll f, Instr.sigh f],
      Privileged i f := by
  simp only [List.forall_mem_cons]
  refine ⟨fun s => ?_, fun s => ?_, fun s => ?_, fun s => ?_, fun s => ?_, fun s => ⟨_, _, _, exec_tlbinvVa f s, rfl, rfl⟩,
    fun s => ⟨_, _, _, exec_tlbinvAsid f s, rfl, rfl⟩, fun s => ⟨_, _, _, exec_tlbinvAll f s, rfl, rfl⟩, fun s => ⟨_, _, _, exec_sigh f s, rfl, rfl⟩, by simp⟩
  · rw [exec_getsp, execGetsp, runGets]
    exact ⟨_, _, _, rfl, rfl, rfl⟩
  · rw [exec_setsp, execSetsp, runSets]
    exact ⟨_, _, _, rfl, rfl, rfl⟩
  · rw [exec_icinv, execIcinv, runMaint]
    exact ⟨_, _, _, rfl, rfl, rfl⟩
  · rw [exec_cwb, execCwb, runMaint]
    exact ⟨_, _, _, rfl, rfl, rfl⟩
  · rw [exec_cinv, execCinv, runMaint]
    exact ⟨_, _, _, rfl, rfl, rfl⟩

theorem privilegedInUserView : PrivilegedInUserView := by
  intro f s c i hi hc hm huser
  obtain ⟨sp, bad, body, hexec, hh, hpriv⟩ := systemInstructions_privileged f i hi s
  rw [hexec]
  exact issue_privileged hc (hh ▸ hm) hpriv huser

/-! ## Unassigned operations -/

/-- Whether an instruction may issue does not depend on the queues that it starts from. -/
theorem mayIssue_startCrew (s : State) (c : Crew) (h : Hdr) : mayIssue s (startCrew s c) h = mayIssue s c h := by
  have hleft : mayIssue s (leftCrew s c) h = mayIssue s c h := by
    unfold leftCrew
    split
    · split <;> rfl
    · rfl
  rw [← hleft]
  unfold startCrew
  dsimp only
  split <;> rfl

theorem unassignedOperation : UnassignedOperation := by
  intro opc rest s c hc hm
  obtain ⟨e, he, rfl⟩ := Option.map_eq_some_iff.mp hc
  rw [mayIssue_startCrew] at hm
  rw [exec_illop]
  unfold execIllop
  extract_lets t
  have ht : t = s.opening := rfl
  clear_value t
  subst ht
  unfold State.atCursor? at he
  cases hcrew : s.cur.crew with
  | none => simp [hcrew] at he
  | some id =>
    simp only [show s.opening.cur.crew = s.cur.crew from rfl, hcrew] at he
    obtain ⟨d, hd, rfl⟩ := Option.map_eq_some_iff.mp he
    simp only [show s.opening.cur.crew = s.cur.crew from rfl, hcrew, hd]
    exact (if_neg (by rw [hm]; decide))

/-- Settles O55. -/
theorem issueChecks : Obligations.IssueChecks := ⟨rowChecks, privilegedInUserView, unassignedOperation⟩

end Sys2Proof.Proofs.IssueCheckRows
end

