-- ==== Sys2Proof/Proofs/CompletionRows.lean ====
section
/-!
PROOF. Proofs/CompletionRows.lean: the completion of an instruction of variable latency: the sources that it may still read, its register writes and
its flag (02 R45, R46, R61).
-/

namespace Sys2Proof.Proofs.CompletionRows

open Sys2Proof Sys2Proof.Machine Sys2Proof.Claims Sys2Proof.Proofs.MemoryFrames Sys2Proof.Proofs.AtomicRows

/-! ## Register writes that land -/

section Land

variable {s : State} {c : Crew} {a : Alt} {r l : Nat}

theorem lost_zero {id : Nat} (h : ∀ p ∈ a.raced, p.1.getLsbD l = false) : a.lost s id l = 0#32 := by
  unfold Alt.lost
  refine foldl_const fun p hp => ?_
  rw [if_neg]
  rintro ⟨hlane, -⟩
  rw [h p.1 (List.of_mem_zip hp).1] at hlane
  cases hlane

theorem landAlt_length : (landAlt s c a).regs.length = c.regs.length := List.length_set

theorem landAlt_lane (hreg : a.reg < c.regs.length) (hraced : a.reg = r → ∀ p ∈ a.raced, p.1.getLsbD l = false) (hl : l < 64)
    (hz : hazardFree s.cycle c.flights r) :
    rowAt ((landAlt s c a).regs.getD r Row.zero) l =
      if a.reg = r ∧ a.mask.getLsbD l then (rowAt (c.regs.getD r Row.zero) l &&& ~~~a.bits) ||| (rowAt a.row l &&& a.bits)
      else rowAt (c.regs.getD r Row.zero) l := by
  unfold landAlt
  dsimp only
  by_cases hr : a.reg = r
  · subst hr
    rw [List.getD_eq_getElem?_getD, List.getElem?_set_self hreg, Option.getD_some, rowAt_mergeBits _ _ _ hl, hazardFree_overtaken hz, lost_zero (hraced rfl)]
    have h1 : ∀ v : Word, v &&& 4294967295#32 = v := fun v => BitVec.and_allOnes
    by_cases hm : a.mask.getLsbD l = true <;> simp [hm, h1]
  · rw [List.getD_eq_getElem?_getD, List.getElem?_set_ne hr, ← List.getD_eq_getElem?_getD]
    simp [hr]

/-- Writes that land change the registers only. -/
theorem landAll_frame (s : State) (as : List Alt) (c : Crew) : as.foldl (landAlt s) c = { c with regs := (as.foldl (landAlt s) c).regs } := by
  induction as generalizing c with
  | nil => rfl
  | cons a as ih =>
    rw [List.foldl_cons, ih]
    rfl

/-- The write of a register, as `laneAfter` takes it. -/
def wrOf (a : Alt) : Wr := { reg := a.reg, row := a.row, mask := a.mask, bits := a.bits }

theorem landAll_lane (as : List Alt) (c : Crew) (hl : l < 64) (hz : hazardFree s.cycle c.flights r)
    (has : ∀ a ∈ as, a.reg < c.regs.length ∧ (a.reg = r → ∀ p ∈ a.raced, p.1.getLsbD l = false)) :
    rowAt ((as.foldl (landAlt s) c).regs.getD r Row.zero) l = laneAfter (as.map wrOf) r l (rowAt (c.regs.getD r Row.zero) l) := by
  induction as generalizing c with
  | nil => rfl
  | cons a as ih =>
    obtain ⟨hreg, hraced⟩ := has a List.mem_cons_self
    rw [List.foldl_cons, ih (landAlt s c a) hz fun b hb => ?_, landAlt_lane hreg hraced hl hz]
    · rfl
    · rw [landAlt_length]
      exact has b (List.mem_cons_of_mem _ hb)

end Land

/-! ## The instruction completes -/

section Finish

variable {s : State} {c : Crew} {f : Flight}

/-- The registers after a completion. -/
def landedRegs (s : State) (c : Crew) (f : Flight) : List Row :=
  (f.writes.foldl (landAlt s) { c with flights := c.flights.filter (fun g => g.id ≠ f.id) }).regs

theorem finishFlight_eq (hdue : f.due.isNone = true) : finishFlight s c f = { c with
    regs := landedRegs s c f
    flights := (c.flights.filter (fun g => g.id ≠ f.id)).map (fun g =>
      if g.due.isNone && decide (g.id < f.id) then f.writes.foldl (fun g a => g.overtakenBy a.reg a.mask a.bits) g else g)
    flags := match f.flag with
      | some i => c.flags.set i (c.flags.getD i 0 - 1)
      | none => c.flags } := by
  unfold finishFlight
  dsimp only
  rw [if_pos hdue, landAll_frame]
  unfold lowerFlag landedRegs
  cases f.flag <;> rfl

theorem landedRegs_lane {r l : Nat} (hl : l < 64) (hz : hazardFree s.cycle c.flights r)
    (hw : ∀ a ∈ f.writes, a.reg < c.regs.length ∧ (a.reg = r → ∀ p ∈ a.raced, p.1.getLsbD l = false)) :
    rowAt ((landedRegs s c f).getD r Row.zero) l = laneAfter (f.writes.map wrOf) r l (rowAt (c.regs.getD r Row.zero) l) :=
  landAll_lane f.writes { c with flights := c.flights.filter (fun g => g.id ≠ f.id) } hl (fun g hg => hz g (List.mem_filter.mp hg).1) hw

end Finish

/-! ## Sources still read (R61) -/

section Late

variable {s : State} {c : Crew} {f : Flight}

/-- One place of a store or RMW whose data is read again: memory alone may change. -/
theorem foldl_memStep {α β : Type} {g : State × β → α → State × β} (hg : ∀ q a, MemStep q.1 (g q a).1) (as : List α) (q : State × β) :
    MemStep q.1 (as.foldl g q).1 := by
  induction as generalizing q with
  | nil => exact .refl _
  | cons a as ih => exact (hg q a).trans (ih _)

theorem memStep_ite {s t u : State} {p : Prop} [Decidable p] (ht : MemStep s t) (hu : MemStep s u) : MemStep s (if p then t else u) := by
  split
  · exact ht
  · exact hu

theorem memStep_ite_fst {β : Type} {s : State} {q r : State × β} {p : Prop} [Decidable p] (hq : MemStep s q.1) (hr : MemStep s r.1) :
    MemStep s (if p then q else r).1 := by
  split
  · exact hq
  · exact hr

theorem readLate_frame (s : State) (c : Crew) (f : Flight) : (s.readLate c f).1.crews = s.crews ∧ (s.readLate c f).1.cycle = s.cycle := by
  unfold State.readLate
  dsimp only
  split
  · exact ⟨rfl, rfl⟩
  · exact ⟨rfl, rfl⟩
  · rename_i die reg n size op items hlate
    have hstep : ∀ (g : State × List (Nat × Nat) → Loc → State × List (Nat × Nat)) (ls : List Loc), (∀ q l, MemStep q.1 (g q l).1) →
        (ls.foldl g (s, [])).1.crews = s.crews ∧ (ls.foldl g (s, [])).1.cycle = s.cycle := fun g ls hg =>
      ⟨(foldl_memStep hg ls (s, [])).crews, (foldl_memStep hg ls (s, [])).cycle⟩
    refine hstep _ _ fun q l => ?_
    have hbefore : MemStep q.1 (if op.plain = true then q.1 else q.1.beforeRmw die l) := memStep_ite (.refl _) (beforeRmw_memStep ..)
    exact memStep_ite_fst (.refl _) (memStep_ite (.refl _) (memStep_ite (hbefore.trans (store_memStep ..)) (hbefore.trans (rmwWrite_memStep ..))))

theorem readLate_flight (s : State) (c : Crew) (f : Flight) : (s.readLate c f).2 = { f with writes := (s.readLate c f).2.writes } := by
  unfold State.readLate
  dsimp only
  split <;> rfl

theorem readLate_none (h : f.late = none) : s.readLate c f = (s, f) := by
  unfold State.readLate
  rw [h]

/-- The argument words of a command that has not begun, read again. -/
def lateOp (s : State) (c : Crew) (f : Flight) (regs : List Nat) (lane : Nat) (o : Op) : Op :=
  if o.checked || o.done || o.phase ≠ 0 then o
  else { o with args := (List.range o.args.length).map (fun i =>
    if regs.getD i 0 = 0 then o.args.getD i 0#32
    else BitVec.ofNat 32 (if s.pick [55, c.id, f.id, regs.getD i 0 - 1, lane] 2 = 1
      then (readLane s c.id c.regs (c.flights.filter (fun g => g.id ≠ f.id)) (regs.getD i 0 - 1) lane).toNat else o.arg i)) }

theorem readLate_args {regs : List Nat} {lane : Nat} (h : f.late = some (.args regs lane)) :
    s.readLate c f = (s.modOp f.id (lateOp s c f regs lane), f) := by
  unfold State.readLate
  rw [h]
  rfl

theorem lateOp_frame (s : State) (c : Crew) (f : Flight) (regs : List Nat) (lane : Nat) (o : Op) :
    lateOp s c f regs lane o = { o with args := (lateOp s c f regs lane o).args } := by
  unfold lateOp
  split <;> rfl

theorem lateOp_checked {regs : List Nat} {lane : Nat} {o : Op} (h : o.checked = true) : lateOp s c f regs lane o = o := by
  unfold lateOp
  rw [h]
  rfl

theorem lateOp_arg (s : State) (c : Crew) (f : Flight) (regs : List Nat) (lane : Nat) (o : Op) (i : Nat) :
    (lateOp s c f regs lane o).args.getD i 0#32 = o.args.getD i 0#32 ∨ (0 < regs.getD i 0 ∧
      (lateOp s c f regs lane o).args.getD i 0#32 = readLane s c.id c.regs (c.flights.filter (fun g => g.id ≠ f.id)) (regs.getD i 0 - 1) lane) := by
  unfold lateOp
  split
  · exact .inl rfl
  · by_cases hi : i < o.args.length
    · rw [List.getD_eq_getElem _ _ (by rw [List.length_map, List.length_range]; exact hi), List.getElem_map, List.getElem_range]
      by_cases hr : regs.getD i 0 = 0
      · rw [if_pos hr]
        exact .inl rfl
      · rw [if_neg hr]
        split
        · rw [BitVec.ofNat_toNat, BitVec.setWidth_eq]
          exact .inr ⟨Nat.pos_of_ne_zero hr, rfl⟩
        · rw [Op.arg, BitVec.ofNat_toNat, BitVec.setWidth_eq]
          exact .inl rfl
    · rw [List.getD_eq_default _ _ (by rw [List.length_map, List.length_range]; exact not_lt.mp hi), List.getD_eq_default _ _ (not_lt.mp hi)]
      exact .inl rfl

end Late

theorem completionEvent : CompletionEvent := by
  intro s id flight c f hc hf haccas q
  refine ⟨fun hlate => readLate_none hlate, fun regs lane hlate => ?_, ?_⟩
  · have hq : q = ((fresh s).modOp f.id (lateOp (fresh s) c f regs lane), f) := readLate_args hlate
    rw [hq]
    refine ⟨rfl, rfl, List.length_map _, fun k o ho => ?_⟩
    refine ⟨_, (List.getElem?_map ..).trans (congrArg _ ho), ?_⟩
    dsimp only
    by_cases hid : o.id = f.id
    · rw [if_pos (beq_iff_eq.mpr hid)]
      exact ⟨lateOp_frame .., fun h => lateOp_checked (h.resolve_left (not_not.mpr hid)), lateOp_arg (fresh s) c f regs lane o⟩
    · rw [if_neg (by rw [beq_iff_eq]; exact hid)]
      exact ⟨rfl, fun _ => rfl, fun _ => .inl rfl⟩
  · have hfound := List.find?_some hf
    have hdue : f.due.isNone = true := ((Bool.and_eq_true _ _).mp hfound).2
    obtain ⟨hcrews, hcycle⟩ := readLate_frame (fresh s) c f
    have hflight := readLate_flight (fresh s) c f
    have hcid : c.id = id := by simpa using List.find?_some hc
    have hany : s.accas.any (fun (a : AccaReq) => a.crew == id && a.flight == flight) = false := by
      rw [List.any_eq_false]
      intro a ha hboth
      have hall := List.all_eq_true.mp haccas a ha
      simp_all
    have hcrew : q.1.crew? id = some c := by
      unfold State.crew?
      rw [hcrews]
      exact hc
    have hexec : exec (.instructionCompletion id flight) s = .next (q.1.setCrew (finishFlight q.1 c q.2)) := by
      rw [exec_instructionCompletion]
      unfold execInstructionCompletion
      dsimp only
      rw [show ({ s with free := s.free + 1 } : State).crew? id = some c from hc]
      dsimp only
      rw [hf]
      dsimp only
      refine (if_neg (by rw [hany]; exact Bool.false_ne_true)).trans ?_
      rw [show (({ s with free := s.free + 1 } : State).readLate c f) = q from rfl, hcrew]
    have hdue' : q.2.due.isNone = true := by
      rw [hflight]
      exact hdue
    have hid' : q.2.id = f.id := by rw [hflight]
    have hflag' : q.2.flag = f.flag := by rw [hflight]
    refine ⟨_, hexec, finishFlight q.1 c q.2, ?_, ?_, fun r l hl hz hw => ?_⟩
    · have hfid : (finishFlight q.1 c q.2).id = c.id := finishFlight_id ..
      unfold State.setCrew
      rw [hfid, hcrews]
      rfl
    · rw [finishFlight_eq hdue', hid', hflag'] <;> rfl
    · rw [finishFlight_eq hdue']
      refine landedRegs_lane hl ?_ hw
      rw [hcycle]
      exact hz

end Sys2Proof.Proofs.CompletionRows
end

