-- ==== Sys2Proof/Proofs/UnitEventRows.lean ====
section
/-!
PROOF. Proofs/UnitEventRows.lean: held records, writes that arrive at their homes and replicas, prefetches (08 R167, R169; 11 R236, R241; 21 R388).
-/

namespace Sys2Proof.Proofs.UnitEventRows

open Sys2Proof Sys2Proof.Machine Sys2Proof.Claims Sys2Proof.Proofs.MemoryFrames Sys2Proof.Proofs.YieldAndHarvestRows

/-! ## Lists -/

theorem set_eq_take_cons_drop {α : Type} {l : List α} {i : Nat} {v : α} (h : i < l.length) : l.take i ++ [v] ++ l.drop (i + 1) = l.set i v := by
  rw [List.set_eq_take_append_cons_drop, if_pos h, List.append_assoc]
  rfl

/-! ## Held records (R388) -/

section Held

variable {s m : State} {i : Nat} {h : Held}

/-- A held record tried again by the event of its kind. -/
theorem retry_eq (s : State) (i : Nat) (h : Held) : exec (if h.unwritable then Instr.faultQueueWriteRetry i else Instr.faultRecordRetry i) s =
    .next ((fresh s).retryRecord i h.unwritable) := by
  cases hu : h.unwritable with
  | false => exact exec_faultRecordRetry i s
  | true => exact exec_faultQueueWriteRetry i s

theorem retryRecord_posted {seq : Nat} {b : Option Nat} (hi : s.held[i]? = some h) (hpost : s.tryPost h = (m, some seq, b)) :
    s.retryRecord i h.unwritable = { m with held := s.held.eraseIdx i }.recordPosted h seq := by
  unfold State.retryRecord
  rw [hi]
  dsimp only
  rw [if_neg (not_not.mpr rfl), hpost, List.eraseIdx_eq_take_drop_succ]

theorem retryRecord_full (hi : s.held[i]? = some h) (hpost : s.tryPost h = (m, none, none)) :
    s.retryRecord i h.unwritable = { (if h.unwritable then m.countWait h else m) with
      held := s.held.set i { h with unwritable := false, tried := s.clock.toNat } } := by
  unfold State.retryRecord
  rw [hi]
  dsimp only
  rw [if_neg (not_not.mpr rfl), hpost]
  dsimp only
  rw [Option.isNone_none, Bool.true_and, Option.isSome_none, set_eq_take_cons_drop (List.getElem?_eq_some_iff.mp hi).1]

theorem retryRecord_unwritable {va : Nat} (hi : s.held[i]? = some h) (hpost : s.tryPost h = (m, none, some va)) :
    s.retryRecord i h.unwritable = (if h.unwritable
      then { m with held := s.held.set i { h with unwritable := true, tried := s.clock.toNat } }
      else { m with held := s.held.set i { h with unwritable := true, tried := s.clock.toNat } }.rasLog 12 0 va 0) := by
  unfold State.retryRecord
  rw [hi]
  dsimp only
  rw [if_neg (not_not.mpr rfl), hpost]
  dsimp only
  rw [Option.isNone_some, Bool.false_and, if_neg Bool.false_ne_true, Option.isSome_some, set_eq_take_cons_drop (List.getElem?_eq_some_iff.mp hi).1]

end Held

theorem heldRecordEvents : HeldRecordEvents := by
  intro s i h hi
  have hi' : (fresh s).held[i]? = some h := hi
  have hexec := retry_eq s i h
  refine ⟨fun m seq b hpost => hexec.trans (congrArg _ (retryRecord_posted hi' hpost)),
    fun m hpost => hexec.trans (congrArg _ (retryRecord_full hi' hpost)), fun m va hpost => ?_⟩
  exact hexec.trans (congrArg _ (retryRecord_unwritable hi' hpost))

/-! ## Writes that arrive (R236, R241) -/

/-- State `t` is state `s` but for main memory, its keys and what its writes have replaced. -/
def KeyStep (s t : State) : Prop := t = { s with
  mem := t.mem
  past := t.past
  keyed := t.keyed }

theorem KeyStep.refl (s : State) : KeyStep s s := rfl

theorem KeyStep.trans {s t u : State} (h : KeyStep s t) (h' : KeyStep t u) : KeyStep s u := by
  unfold KeyStep at h h' ⊢
  rw [h] at h'
  exact h'

theorem putKey_keyStep (s : State) (pa key : Nat) (bs : List Byte) : KeyStep s (s.putKey pa key bs) := by
  unfold State.putKey State.markKeys
  split <;> rfl

theorem writeKey_keyStep (s : State) (pa key : Nat) (bs : List Byte) : KeyStep s (s.writeKey pa key bs) := by
  unfold State.writeKey
  split
  · exact putKey_keyStep ..
  · generalize bs.zip (List.range bs.length) = ps
    have hfold : ∀ t : State, KeyStep t (ps.foldl (fun t p => if s.sealedEntry (pa + p.2) then t else t.putKey (pa + p.2) key [p.1]) t) := by
      induction ps with
      | nil => exact fun t => .refl t
      | cons p ps ih =>
        intro t
        refine KeyStep.trans ?_ (ih _)
        dsimp only
        split
        · exact .refl t
        · exact putKey_keyStep ..
    exact hfold s

section Arrive

variable {s : State} {w : Arriving}

/-- Bytes none of which belongs to a sealed context's entries are put down. -/
theorem writeKey_mem_of_unsealed {pa key : Nat} {bs : List Byte} (h : ∀ k, k < bs.length → s.sealedEntry (pa + k) = false) :
    (s.writeKey pa key bs).mem = s.mem.write pa bs := by
  have hany : (List.range bs.length).any (fun i => s.sealedEntry (pa + i)) = false := by
    rw [List.any_eq_false]
    intro k hk
    rw [h k (List.mem_range.mp hk)]
    exact Bool.false_ne_true
  unfold State.writeKey
  rw [hany, Bool.not_false, Bool.or_true, if_pos rfl]
  exact (State.putKey_frame s pa key bs).1

/-- An arriving write is applied to memory; its home's clock takes in its own. -/
theorem applyArriving_eq (s : State) (w : Arriving) : s.applyArriving w = { s with
    mem := (s.writeKey w.pa w.key w.bytes).mem
    past := (s.writeKey w.pa w.key w.bytes).past
    keyed := (s.writeKey w.pa w.key w.bytes).keyed
    poison := if w.poison then addLine s.poison (w.pa / 64) else s.poison
    dieClk := s.dieClk.set w.dst (maxClk (s.clk w.dst) w.stamp) } := by
  have h := writeKey_keyStep s w.pa w.key w.bytes
  unfold State.applyArriving
  dsimp only
  generalize s.writeKey w.pa w.key w.bytes = t at *
  unfold KeyStep at h
  rw [h]
  cases w.poison <;> rfl

theorem getD_maxClk (a b : List Nat) {k : Nat} (hk : k < 4) : (maxClk a b).getD k 0 = max (a.getD k 0) (b.getD k 0) := by
  unfold maxClk
  rw [List.getD_eq_getElem _ _ (by simpa using hk), List.getElem_map, List.getElem_range]

theorem early_iff (ws : List Arriving) (w : Arriving) :
    ws.any (fun x => x.src == w.src && decide (x.pa < w.pa + w.bytes.length) && decide (w.pa < x.pa + x.bytes.length)) = true ↔
      ∃ x ∈ ws, x.src = w.src ∧ x.pa < w.pa + w.bytes.length ∧ w.pa < x.pa + x.bytes.length := by
  simp only [List.any_eq_true, Bool.and_eq_true, beq_iff_eq, decide_eq_true_eq, and_assoc]

theorem behind_iff (s : State) (dst : Nat) (clk : List Nat) : s.behind dst clk = true ↔ Owed s dst clk := by
  unfold State.behind Owed
  simp only [Bool.or_eq_true, List.any_eq_true, Bool.and_eq_true, beq_iff_eq, decide_eq_true_eq]

theorem earlyReplica_iff (rs : List Replica) (r : Replica) :
    rs.any (fun x => x.die == r.die && x.pa / 2 ^ 21 == r.pa / 2 ^ 21) = true ↔ ∃ x ∈ rs, x.die = r.die ∧ x.pa / 2 ^ 21 = r.pa / 2 ^ 21 := by
  simp only [List.any_eq_true, Bool.and_eq_true, beq_iff_eq]

theorem behind_fresh (s : State) (dst : Nat) (clk : List Nat) : (fresh s).behind dst clk = s.behind dst clk := rfl

theorem remoteWriteApply_eq {i : Nat} (hi : s.arriving[i]? = some w) : exec (.remoteWriteApply i) s =
    .next (if (s.arriving.take i).any (fun x => x.src == w.src && decide (x.pa < w.pa + w.bytes.length) && decide (w.pa < x.pa + x.bytes.length)) ||
      s.behind w.dst w.clock then fresh s else { fresh s with arriving := s.arriving.eraseIdx i }.applyArriving w) := by
  rw [exec_remoteWriteApply, List.eraseIdx_eq_take_drop_succ]
  unfold execRemoteWriteApply
  dsimp only
  rw [hi]
  rfl

theorem replicaApply_eq {i : Nat} {r : Replica} (hi : s.replicas[i]? = some r) : exec (.replicaApply i) s =
    .next (if (s.replicas.take i).any (fun x => x.die == r.die && x.pa / 2 ^ 21 == r.pa / 2 ^ 21) || s.behind r.die r.clock then fresh s
      else { fresh s with replicas := s.replicas.eraseIdx i }.applyReplica r) := by
  rw [exec_replicaApply, List.eraseIdx_eq_take_drop_succ]
  unfold execReplicaApply
  dsimp only
  rw [hi]
  rfl

end Arrive

theorem arrivalEvents : ArrivalEvents := by
  refine ⟨fun s i w hi => ?_, fun s i r hi => ?_⟩
  · intro early
    rw [remoteWriteApply_eq hi]
    refine ⟨fun h => ?_, fun hearly howed => ?_⟩
    · rw [if_pos]
      rw [Bool.or_eq_true, early_iff, behind_iff]
      exact h
    · rw [if_neg (by
        rw [Bool.or_eq_true, early_iff, behind_iff]
        exact not_or.mpr ⟨hearly, howed⟩), applyArriving_eq]
      refine ⟨_, rfl, fun hunsealed => ?_, rfl, fun hdst k hk => ?_, rfl, rfl, rfl, rfl⟩
      · exact writeKey_mem_of_unsealed (s := { fresh s with arriving := s.arriving.eraseIdx i }) hunsealed
      · show ((s.dieClk.set w.dst (maxClk (s.clk w.dst) w.stamp)).getD w.dst []).getD k 0 = _
        rw [CoxSequenceRows.getD_set_self hdst, getD_maxClk _ _ hk]
        rfl
  · intro early
    rw [replicaApply_eq hi]
    refine ⟨fun h => ?_, fun hearly howed => ?_⟩
    · rw [if_pos]
      rw [Bool.or_eq_true, earlyReplica_iff, behind_iff]
      exact h
    · rw [if_neg (by
        rw [Bool.or_eq_true, earlyReplica_iff, behind_iff]
        exact not_or.mpr ⟨hearly, howed⟩)]
      rfl

/-! ## Prefetches (R167, R169) -/

/-- A request of a core's queue goes before another (R169). -/
def GoesFirst (p q : PfdReq) : Prop :=
  p.deadline < q.deadline ∨ (p.deadline = q.deadline ∧ (q.prio < p.prio ∨ (p.prio = q.prio ∧ p.order < q.order)))

/-- A request goes before another, or neither goes before the other. -/
def NotAfter (p q : PfdReq) : Prop :=
  p.deadline < q.deadline ∨ (p.deadline = q.deadline ∧ (q.prio < p.prio ∨ (p.prio = q.prio ∧ p.order ≤ q.order)))

theorem notAfter_of_goesFirst {p q : PfdReq} (h : GoesFirst p q) : NotAfter p q := by
  unfold GoesFirst at h
  unfold NotAfter
  omega

theorem notAfter_of_not_goesFirst {p q : PfdReq} (h : ¬ GoesFirst q p) : NotAfter p q := by
  unfold GoesFirst at h
  unfold NotAfter
  omega

theorem NotAfter.refl (p : PfdReq) : NotAfter p p := .inr ⟨rfl, .inr ⟨rfl, le_rfl⟩⟩

theorem NotAfter.trans {p q r : PfdReq} (h : NotAfter p q) (h' : NotAfter q r) : NotAfter p r := by
  unfold NotAfter at *
  omega

/-- The first of the requests seen so far and one more. -/
def firstPfd : Option PfdReq → PfdReq → Option PfdReq
  | none, p => some p
  | some q, p =>
    if p.deadline < q.deadline ∨ (p.deadline = q.deadline ∧ (q.prio < p.prio ∨ (p.prio = q.prio ∧ p.order < q.order))) then some p else some q

theorem firstPfd_of_goesFirst {p q : PfdReq} (h : GoesFirst p q) : firstPfd (some q) p = some p := if_pos h
theorem firstPfd_of_not_goesFirst {p q : PfdReq} (h : ¬ GoesFirst p q) : firstPfd (some q) p = some q := if_neg h

theorem nextPfd_eq (ps : List PfdReq) : nextPfd ps = ps.foldl firstPfd none := by
  unfold nextPfd
  congr 1
  funext m p
  cases m <;> rfl

/-- The request that comes first among one and those of a list. -/
theorem foldl_pfd (ps : List PfdReq) (q : PfdReq) : ∃ p, (p = q ∨ p ∈ ps) ∧ NotAfter p q ∧ (∀ r ∈ ps, NotAfter p r) ∧
    ps.foldl firstPfd (some q) = some p := by
  induction ps generalizing q with
  | nil => exact ⟨q, .inl rfl, .refl q, fun r hr => absurd hr List.not_mem_nil, rfl⟩
  | cons x ps ih =>
    rw [List.foldl_cons]
    by_cases hx : GoesFirst x q
    · rw [firstPfd_of_goesFirst hx]
      obtain ⟨p, hmem, hpx, hall, hfold⟩ := ih x
      refine ⟨p, .inr ?_, hpx.trans (notAfter_of_goesFirst hx), ?_, hfold⟩
      · exact hmem.elim (fun h => h ▸ List.mem_cons_self) (List.mem_cons_of_mem _)
      · exact List.forall_mem_cons.mpr ⟨hpx, hall⟩
    · rw [firstPfd_of_not_goesFirst hx]
      obtain ⟨p, hmem, hpq, hall, hfold⟩ := ih q
      refine ⟨p, hmem.imp_right (List.mem_cons_of_mem _), hpq, ?_, hfold⟩
      exact List.forall_mem_cons.mpr ⟨hpq.trans (notAfter_of_not_goesFirst hx), hall⟩

theorem nextPfd_some {ps : List PfdReq} (h : ps ≠ []) : ∃ p ∈ ps, (∀ q ∈ ps, NotAfter p q) ∧ nextPfd ps = some p := by
  obtain ⟨x, xs, rfl⟩ := List.exists_cons_of_ne_nil h
  obtain ⟨p, hmem, hpx, hall, hfold⟩ := foldl_pfd xs x
  exact ⟨p, hmem.elim (fun h => h ▸ List.mem_cons_self) (List.mem_cons_of_mem _), List.forall_mem_cons.mpr ⟨hpx, hall⟩,
    (nextPfd_eq _).trans hfold⟩

section Prefetch

variable {s : State} {core n : Nat}

theorem prefetchComplete_tracker {t : Tracker} (hn : n < 32) (ht : (s.core core).trackers[n]? = some t) : exec (.prefetchComplete core n) s =
    .next ((fresh s).modCore core (fun k => { k with trackers := k.trackers.set n { t with busy := false } })) := by
  rw [exec_prefetchComplete]
  unfold execPrefetchComplete
  refine (if_pos hn).trans (congrArg Host.Outcome.next (modCore_congr ?_))
  have hget : (s.core core).trackers.getD n { busy := false, gen := 0, crew := 0 } = t := by rw [List.getD_eq_getElem?_getD, ht, Option.getD_some]
  exact congrArg (fun x : Tracker => ({ s.core core with
    trackers := (s.core core).trackers.set n { x with busy := false } } : CoreSt)) hget

theorem prefetchComplete_served (hn : 32 ≤ n) (hbegun : ∃ p ∈ (s.core core).pfds, p.begun = true) : exec (.prefetchComplete core n) s =
    .next ((fresh s).modCore core (fun k => { k with pfds := k.pfds.filter (fun q => !q.begun) })) := by
  rw [exec_prefetchComplete]
  unfold execPrefetchComplete
  refine (if_neg (not_lt.mpr hn)).trans (if_pos ?_)
  obtain ⟨p, hp, hb⟩ := hbegun
  exact List.any_eq_true.mpr ⟨p, hp, hb⟩

/-- No request has begun: the next one begins. -/
theorem prefetchComplete_idle (hn : 32 ≤ n) (hidle : ∀ p ∈ (s.core core).pfds, p.begun = false) : exec (.prefetchComplete core n) s =
    match nextPfd ((s.core core).pfds.filter (fun q => decide (s.cycle ≤ q.deadline))) with
    | none => .next (fresh s)
    | some p => .next ((fresh s).modCore core (fun k => { k with pfds := k.pfds.map (fun q => if q.order = p.order then { q with begun := true } else q) })) := by
  rw [exec_prefetchComplete]
  unfold execPrefetchComplete
  refine (if_neg (not_lt.mpr hn)).trans ((if_neg ?_).trans ?_)
  · rw [List.any_eq_true]
    rintro ⟨p, hp, hb⟩
    rw [hidle p hp] at hb
    cases hb
  · show _ = _
    rfl

theorem pfdDeadlineDrop_late {order : Nat} {p : PfdReq} (hp : (s.core core).pfds.find? (fun q => q.order == order) = some p) (hbegun : p.begun = false)
    (hlate : p.deadline < s.cycle) : exec (.pfdDeadlineDrop core order) s = .next { s with
      cores := (s.modCore core (fun k => { k with pfds := k.pfds.filter (fun r => r.order ≠ order) })).cores
      mgmt := { s.mgmt with pfddrop := s.mgmt.pfddrop.set (dieOfCore core) (s.mgmt.pfddrop.getD (dieOfCore core) 0#32 + 1#32) } } := by
  rw [exec_pfdDeadlineDrop]
  unfold execPfdDeadlineDrop
  dsimp only
  rw [hp]
  exact if_neg (not_or.mpr ⟨by rw [hbegun]; exact Bool.false_ne_true, not_le.mpr hlate⟩)

end Prefetch

theorem prefetchEvents : PrefetchEvents := by
  intro s core hcore
  refine ⟨fun n t hn ht => prefetchComplete_tracker hn ht, fun n hn hbegun => prefetchComplete_served hn hbegun, fun n hn hidle => ⟨fun hpast => ?_, fun hsome => ?_⟩,
    fun order p hp => ⟨fun h => ?_, fun hbegun hlate => ?_⟩⟩
  · have hnone : (s.core core).pfds.filter (fun q => decide (s.cycle ≤ q.deadline)) = [] := by
      rw [List.filter_eq_nil_iff]
      intro q hq
      simpa using hpast q hq
    rw [prefetchComplete_idle hn hidle, hnone]
    rfl
  · obtain ⟨x, hx, hxd⟩ := hsome
    have hne : (s.core core).pfds.filter (fun q => decide (s.cycle ≤ q.deadline)) ≠ [] :=
      List.ne_nil_of_mem (List.mem_filter.mpr ⟨hx, decide_eq_true hxd⟩)
    obtain ⟨p, hp, hall, hnext⟩ := nextPfd_some hne
    obtain ⟨hp, hpd⟩ := List.mem_filter.mp hp
    refine ⟨p, hp, of_decide_eq_true hpd, fun q hq hqd => hall q (List.mem_filter.mpr ⟨hq, decide_eq_true hqd⟩), ?_⟩
    rw [prefetchComplete_idle hn hidle, hnext]
  · rw [exec_pfdDeadlineDrop]
    unfold execPfdDeadlineDrop
    dsimp only
    rw [hp]
    exact if_pos h
  · refine ⟨_, pfdDeadlineDrop_late hp hbegun hlate, ?_, rfl, rfl⟩
    show ((s.cores.set core _).getD core CoreSt.reset).pfds = _
    rw [CoxSequenceRows.getD_set_self hcore]

end Sys2Proof.Proofs.UnitEventRows
end

