-- ==== Sys2Proof/Proofs/OperationEnds.lean ====
section
/-!
PROOF. Proofs/OperationEnds.lean: what the end of an operation leaves as it was, and that it ends it (08 R175); the bytes of a block memory that an
engine reads and writes (08 R176, R179).
-/

namespace Sys2Proof.Proofs.OperationEnds

open Sys2Proof Sys2Proof.Machine Sys2Proof.Claims

/-! ## Operations that end (R175) -/

/-- State `t` is state `s` but for the operations and what they are counted in: crews and blocks. -/
def OpsStep (s t : State) : Prop := t = { s with
  ops := t.ops
  crews := t.crews
  blocks := t.blocks }

theorem OpsStep.refl (s : State) : OpsStep s s := rfl

theorem OpsStep.trans {s t u : State} (h : OpsStep s t) (h' : OpsStep t u) : OpsStep s u := by
  unfold OpsStep at h h' ⊢
  rw [h] at h'
  exact h'

theorem OpsStep.mem {s t : State} (h : OpsStep s t) : t.mem = s.mem := by rw [h]
theorem OpsStep.bmem {s t : State} (h : OpsStep s t) : t.bmem = s.bmem := by rw [h]
theorem OpsStep.amem {s t : State} (h : OpsStep s t) : t.amem = s.amem := by rw [h]

theorem modCrew_opsStep (s : State) (id : Nat) (f : Crew → Crew) : OpsStep s (s.modCrew id f) := rfl
theorem modOp_opsStep (s : State) (id : Nat) (f : Op → Op) : OpsStep s (s.modOp id f) := rfl
theorem dropOp_opsStep (s : State) (id : Nat) : OpsStep s { s with ops := s.ops.filter (fun p => p.id ≠ id) } := rfl

theorem applyOvf_opsStep (s : State) (o : Op) : OpsStep s (applyOvf s o) := by
  unfold applyOvf
  split <;> rfl

theorem countDone_opsStep (crew cls n : Nat) (s : State) : OpsStep s (countDone crew cls n s) := by
  induction n generalizing s with
  | zero => exact .refl s
  | succ n ih =>
    unfold countDone
    cases s.ops.find? (fun o => o.crew == crew && o.cls == cls && !o.dropped) with
    | none => exact .refl s
    | some o =>
      dsimp only
      split
      · exact .refl s
      · exact (((dropOp_opsStep s o.id).trans (applyOvf_opsStep ..)).trans (modCrew_opsStep ..)).trans (ih _)

theorem noteAwait_opsStep (s : State) (id stat : Nat) : OpsStep s (s.noteAwait id stat) := by
  unfold State.noteAwait
  split <;> rfl

theorem finishOp_opsStep (s : State) (id stat : Nat) : OpsStep s (s.finishOp id stat) := by
  unfold State.finishOp
  cases s.op? id with
  | none => exact .refl s
  | some o =>
    dsimp only
    generalize (if stat ≠ 0 then stat else o.stat) = st
    have hend := (modOp_opsStep s id (fun o => { o with done := true, stat := st, pause := [] })).trans (noteAwait_opsStep _ id st)
    split
    · exact (hend.trans (dropOp_opsStep _ id)).trans (applyOvf_opsStep ..)
    · exact hend.trans (countDone_opsStep ..)

/-- Every operation with an id has ended. -/
def Ended (id : Nat) (s : State) : Prop := ∀ p ∈ s.ops, p.id = id → p.done = true

section Ended

variable {s : State} {id : Nat}

theorem Ended.of_subset {t : State} (h : Ended id s) (hsub : ∀ p ∈ t.ops, p ∈ s.ops) : Ended id t := fun p hp => h p (hsub p hp)

theorem applyOvf_ops (s : State) (o : Op) : (applyOvf s o).ops = s.ops := by
  unfold applyOvf
  split <;> rfl

theorem Ended.countDone {crew cls n : Nat} (h : Ended id s) : Ended id (countDone crew cls n s) := by
  induction n generalizing s with
  | zero => exact h
  | succ n ih =>
    unfold Machine.countDone
    cases s.ops.find? (fun o => o.crew == crew && o.cls == cls && !o.dropped) with
    | none => exact h
    | some o =>
      dsimp only
      split
      · exact h
      · refine ih (h.of_subset fun p hp => ?_)
        have hops : p ∈ (applyOvf { s with ops := s.ops.filter (fun p => p.id ≠ o.id) } o).ops := hp
        rw [applyOvf_ops] at hops
        exact (List.mem_filter.mp hops).1

theorem Ended.noteAwait {id' stat : Nat} (h : Ended id s) : Ended id (s.noteAwait id' stat) := by
  unfold State.noteAwait
  split
  · exact h
  · intro p hp hid
    obtain ⟨q, hq, rfl⟩ := List.mem_map.mp hp
    have hdone := h q hq
    split at hid
    · rw [if_pos ‹_›]
      exact hdone hid
    · rw [if_neg ‹_›]
      exact hdone hid

/-- An operation that is there ends. -/
theorem ended_finishOp {stat : Nat} {o : Op} (h : s.op? id = some o) : Ended id (s.finishOp id stat) := by
  have hmod : ∀ st, Ended id (s.modOp id (fun o => { o with done := true, stat := st, pause := [] })) := by
    intro st p hp hid
    obtain ⟨q, hq, rfl⟩ := List.mem_map.mp hp
    by_cases hqid : q.id = id
    · rw [if_pos (beq_iff_eq.mpr hqid)]
    · rw [if_neg (by rw [beq_iff_eq]; exact hqid)] at hid
      exact absurd hid hqid
  unfold State.finishOp
  rw [h]
  dsimp only
  generalize (if stat ≠ 0 then stat else o.stat) = st
  have hend := (hmod st).noteAwait (id' := id) (stat := st)
  split
  · refine hend.of_subset fun p hp => ?_
    rw [applyOvf_ops] at hp
    exact (List.mem_filter.mp hp).1
  · exact hend.countDone

end Ended

/-! ## Block memory under an engine -/

theorem read_eq_map (m : Memory) (a n : Nat) : m.read a n = (List.range n).map (fun i => m.get (a + i)) := by
  induction n generalizing a with
  | zero => rfl
  | succ n ih =>
    rw [Memory.read, ih, List.range_succ_eq_map, List.map_cons, List.map_map]
    exact congrArg _ (List.map_congr_left fun i _ => by rw [Function.comp_apply, Nat.add_right_comm, Nat.add_assoc])

theorem read_length (m : Memory) (a n : Nat) : (m.read a n).length = n := by rw [read_eq_map, List.length_map, List.length_range]

theorem map_getD_range {α : Type} (l : List α) (d : α) : (List.range l.length).map (fun i => l.getD i d) = l := by
  refine List.ext_getElem (by rw [List.length_map, List.length_range]) fun i hi hi' => ?_
  rw [List.getElem_map, List.getElem_range, List.getD_eq_getElem _ _ hi']

/-- Bytes written are the bytes read at the same place. -/
theorem read_write_same {m : Memory} (h : m.wf = true) (a : Nat) (bs : List Byte) : (m.write a bs).read a bs.length = bs := by
  rw [read_eq_map]
  refine Eq.trans (List.map_congr_left fun i hi => ?_) (map_getD_range bs 0#8)
  rw [Memory.get_write bs a (a + i) h, if_pos ⟨Nat.le_add_right a i, by have := List.mem_range.mp hi; omega⟩, Nat.add_sub_cancel_left]

section Engine

variable {s : State} {o : Op} {e : HandleEntry}

/-- The place of block memory that an offset of a command names. -/
def blockKey (s : State) (o : Op) (off : Nat) : Nat := coreKey o.core ((s.opPart o).1 + off)

theorem engRead_block {k off n : Nat} (he : e.space = 2) (hn : n ≠ 0) (hpage : (e.base + off) % 2 ^ 64 % 65536 + n ≤ 65536) :
    engRead s o e (k + 2) off n = .ok ((s.bmem.read (blockKey s o off) n).map (fun b => (b, false))) := by
  have hmin : min n (65536 - (e.base + off) % 2 ^ 64 % 65536) = n := by omega
  have hrest : engRead s o e (k + 1) (off + n) (n - n) = .ok [] := by rw [Nat.sub_self, engRead, if_pos rfl]
  have hplace : s.opPlace o e off true false = .ok (.blk o.core ((s.opPart o).1 + off)) := if_pos he
  unfold engRead
  rw [if_neg hn]
  dsimp only
  rw [hmin, hplace]
  dsimp only [State.locReady]
  rw [hrest]
  dsimp only
  rw [List.append_nil]
  refine congrArg Eng.ok ?_
  have hlen : (s.bmem.read (blockKey s o off) n).length = n := read_length ..
  conv_rhs => rw [← map_getD_range (s.bmem.read (blockKey s o off) n) 0#8, hlen, List.map_map]
  rfl

/-- A state whose block memory has been written. -/
def putBlock (s : State) (key : Nat) (bs : List Byte) : State := { s.keepPast true key bs.length with
  bmem := s.bmem.write key bs }

theorem engWrite_block {k off : Nat} {bs : List (Byte × Bool)} (he : e.space = 2) (hbs : bs ≠ []) (hpage : (e.base + off) % 2 ^ 64 % 65536 + bs.length ≤ 65536) :
    engWrite o e (k + 2) s off bs = .ok (putBlock s (blockKey s o off) (bs.map (fun b => b.1))) := by
  have hmin : min bs.length (65536 - (e.base + off) % 2 ^ 64 % 65536) = bs.length := by omega
  have hplace : s.opPlace o e off false true = .ok (.blk o.core ((s.opPart o).1 + off)) := if_pos he
  have hne : ¬ bs.isEmpty = true := by rwa [List.isEmpty_iff]
  have hnote : s.noteEng o e off = s := if_pos he
  unfold engWrite
  rw [if_neg hne]
  dsimp only
  rw [hmin, hplace]
  dsimp only [State.locReady]
  rw [if_neg (by rw [he]; exact fun h => absurd h.1 (by decide)), List.take_length, List.drop_length, hnote]
  unfold engWrite
  exact if_pos rfl

end Engine

end Sys2Proof.Proofs.OperationEnds
end

