-- ==== Sys2Proof/Proofs/CopyRows.lean ====
section
/-!
PROOF. Proofs/CopyRows.lean: a step of a copy command between block memories, and a step of a tile signal (08 R176, R179, R180, R184).
-/

namespace Sys2Proof.Proofs.CopyRows

open Sys2Proof Sys2Proof.Machine Sys2Proof.Claims Sys2Proof.Proofs.OperationEnds Sys2Proof.Proofs.CoxFlagRows

/-! ## Pieces of a copy -/

theorem unit_cases (o : Op) : o.unit = 256 ∨ o.unit = 4096 := by
  unfold Op.unit
  split
  · exact .inl rfl
  · exact .inr rfl

section Piece

variable {c : CopyShape} {u sva tva k so d len : Nat}

/-- A piece ends where its row does, at a 4 KiB boundary of the source or at a unit of the target. -/
theorem piece_bounds (h : c.piece u sva tva k = some (so, d, len)) (hu : 0 < u) :
    k < c.total ∧ 0 < len ∧ (sva + so) % 4096 + len ≤ 4096 ∧ (tva + d) % u + len ≤ u := by
  unfold CopyShape.piece at h
  split at h
  · cases h
  · rename_i hk
    simp only [Option.some.injEq, Prod.mk.injEq] at h
    obtain ⟨rfl, rfl, rfl⟩ := h
    have hrb : 0 < c.rb := by
      rcases Nat.eq_zero_or_pos c.rb with h0 | h0
      · refine absurd ?_ hk
        unfold CopyShape.total
        rw [h0, Nat.mul_zero]
        exact Nat.zero_le _
      · exact h0
    have hrow := Nat.mod_lt k hrb
    generalize tva + (k / c.rb / c.rows * c.tps + k / c.rb % c.rows * c.trs + k % c.rb) = x
    generalize sva + (k / c.rb / c.rows * c.sps + k / c.rb % c.rows * c.srs + k % c.rb) = y
    have hx := Nat.mod_lt x hu
    have hy := Nat.mod_lt y (show 0 < 4096 by decide)
    refine ⟨not_le.mp hk, ?_, ?_, ?_⟩ <;> omega

theorem piece_past (h : c.total ≤ k) : c.piece u sva tva k = none := if_pos h

end Piece

/-- Bytes that end at a 4 KiB boundary lie in one page. -/
theorem page_of_unit {x n u : Nat} (hu : u = 256 ∨ u = 4096) (h : x % u + n ≤ u) : x % 2 ^ 64 % 65536 + n ≤ 65536 := by
  have hdvd : x % 2 ^ 64 % 65536 = x % 65536 := Nat.mod_mod_of_dvd x (by decide)
  rw [hdvd]
  obtain rfl | rfl := hu <;> omega

/-! ## A run of a copy -/

section Run

variable {s : State} {o : Op} {te se : HandleEntry} {pos so d len n : Nat}

/-- Where the next piece begins in the target: past the last byte, or in a later row. -/
def pieceEnd (o : Op) (te se : HandleEntry) (pos d len : Nat) : Nat :=
  match o.shape.piece o.unit (se.base + o.arg 3) (te.base + o.arg 1) (pos + len) with
  | some (_, d', _) => d'
  | none => d + len

/-- A copy command after a piece from a place in its target has moved. -/
def movedOp (o : Op) (te se : HandleEntry) (pos d len : Nat) (p : Op) : Op :=
  { p.passed (te.base + o.arg 1 + d) (te.base + o.arg 1 + pieceEnd o te se pos d len) with pos := pos + len }

/-- The state after a piece has moved. -/
def afterPiece (s : State) (o : Op) (te se : HandleEntry) (pos so d len : Nat) : State :=
  (putBlock s (blockKey s o (o.arg 1 + d)) (s.bmem.read (blockKey s o (o.arg 3 + so)) len)).modOp o.id (movedOp o te se pos d len)

theorem afterPiece_mem : (afterPiece s o te se pos so d len).mem = s.mem := rfl

theorem copyRun_block (hte : te.space = 2) (hse : se.space = 2)
    (hpiece : o.shape.piece o.unit (se.base + o.arg 3) (te.base + o.arg 1) pos = some (so, d, len)) :
    copyRun o te se [] (n + 1) s pos =
      if o.shape.total ≤ pos + len ∨ o.shape.joined o.unit (se.base + o.arg 3) (te.base + o.arg 1) (pos + len) = true
      then copyRun o te se [] n (afterPiece s o te se pos so d len) (pos + len) else afterPiece s o te se pos so d len := by
  obtain ⟨-, hlen, hsrc, htgt⟩ := piece_bounds hpiece (by obtain h | h := unit_cases o <;> omega)
  have hspage : (se.base + (o.arg 3 + so)) % 2 ^ 64 % 65536 + len ≤ 65536 := page_of_unit (.inr rfl) (by rw [← Nat.add_assoc]; exact hsrc)
  have htpage : (te.base + (o.arg 1 + d)) % 2 ^ 64 % 65536 + len ≤ 65536 := page_of_unit (unit_cases o) (by rw [← Nat.add_assoc]; exact htgt)
  have hread := engRead_block (s := s) (o := o) (k := 0) (off := o.arg 3 + so) hse hlen.ne' hspage
  have hrl : (s.bmem.read (blockKey s o (o.arg 3 + so)) len).length = len := read_length ..
  have hwrite := engWrite_block (s := s) (o := o) (k := 0) (off := o.arg 1 + d)
    (bs := (s.bmem.read (blockKey s o (o.arg 3 + so)) len).map (fun b => (b, false))) hte
    (by rw [Ne, ← List.length_eq_zero_iff, List.length_map, hrl]; exact hlen.ne') (by rw [List.length_map, hrl]; exact htpage)
  have hclean : ((s.bmem.read (blockKey s o (o.arg 3 + so)) len).map (fun b => (b, false))).any (fun b => b.2) = false := by
    rw [List.any_eq_false]
    intro b hb
    obtain ⟨x, -, rfl⟩ := List.mem_map.mp hb
    exact Bool.false_ne_true
  have hfst : ((s.bmem.read (blockKey s o (o.arg 3 + so)) len).map (fun b => (b, false))).map (fun b => b.1) =
      s.bmem.read (blockKey s o (o.arg 3 + so)) len := by
    rw [List.map_map]
    exact List.map_id _
  have hnote (t : State) (off : Nat) : t.noteEng o se off = t := if_pos hse
  conv_lhs => unfold copyRun
  dsimp only
  rw [hpiece]
  dsimp only
  rw [hread]
  dsimp only
  rw [List.isEmpty_nil, if_pos rfl, hwrite]
  dsimp only
  rw [hnote, hclean, hfst]
  simp only [Bool.and_false, Bool.false_eq_true, if_false]
  rfl

theorem copyRun_past (h : o.shape.total ≤ pos) : copyRun o te se [] (n + 1) s pos = s.finishOp o.id 0 := by
  unfold copyRun
  dsimp only
  rw [piece_past h]
  rfl

end Run

/-! ## A step of a copy -/

section Step

variable {s : State} {o : Op}

/-- An access of a command to lent memory changes its core alone. -/
theorem touchOp_eq (s : State) (o : Op) : s.touchOp o = { s with cores := (s.touchOp o).cores } := by
  unfold State.touchOp State.touchLent
  dsimp only
  split
  · split <;> rfl
  · rfl

/-- The step of an engine operation that is not held. -/
theorem engineStep (hop : s.op? o.id = some o) (hcls : o.cls = 0) (hopc : o.opc ≤ 0x282) (hlive : (fresh s).opLive o = true) :
    exec (.engineOperationRetire o.id) s = .next (((fresh s).touchOp o).stepEngine o) := by
  rw [exec_engineOperationRetire]
  unfold execEngineOperationRetire
  dsimp only
  rw [show ({ s with free := s.free + 1 } : State).op? o.id = some o from hop]
  dsimp only
  rw [if_neg, if_neg]
  · rfl
  · rw [hcls]
    decide
  · rw [show ({ s with free := s.free + 1 } : State).opLive o = true from hlive, hcls]
    simp only [Bool.not_true, Bool.false_eq_true, or_false, not_or]
    exact ⟨by decide, by omega⟩

variable {u : State} (hopc : o.opc ≤ 0x282) (hdone : o.done = false) (hpause : o.pause = [])

include hopc hdone hpause

theorem stepEngine_unchecked (hchecked : o.checked = false) : u.stepEngine o =
    if u.handlesWait o = true then u
    else if checkCopy (u.noteBadHandles o) o ≠ 0 then (u.noteBadHandles o).finishOp o.id (checkCopy (u.noteBadHandles o) o)
    else ((u.noteBadHandles o).noteHandles o).modOp o.id (fun p => { p with checked := true }) := by
  have hne : o.opc ≠ 0x298 := by omega
  unfold State.stepEngine
  rw [hdone, hpause, hchecked, if_neg (by decide), if_neg hne, if_pos (Bool.not_false)]
  dsimp only
  rw [if_pos hopc]

theorem stepEngine_copy (hchecked : o.checked = true) : u.stepEngine o = stepCopy u o := by
  have hne : o.opc ≠ 0x298 := by omega
  unfold State.stepEngine
  rw [hdone, hpause, hchecked, if_neg (by decide), if_neg hne, if_neg (by decide), if_pos hopc]

end Step

/-- A copy between ranges that do not overlap. -/
theorem stepCopy_disjoint {u : State} {o : Op} (h : ∀ p ∈ copyTargets u o, ∀ i, i < p.2 → inPlaces (copySources u o) p.1 i = false) :
    stepCopy u o = copyRun o (u.opHandle o (o.args.getD 0 0#32)) (u.opHandle o (o.args.getD 2 0#32)) [] (o.shape.total + 1) (u.modOp o.id Op.stepping) o.pos := by
  have hany : (copyTargets u o).any (fun p => (List.range p.2).any (fun i => inPlaces (copySources u o) p.1 i)) = false := by
    rw [List.any_eq_false]
    intro p hp
    rw [Bool.not_eq_true, List.any_eq_false]
    intro i hi
    rw [h p hp i (List.mem_range.mp hi)]
    exact Bool.false_ne_true
  exact congrArg (fun past => copyRun o (u.opHandle o (o.args.getD 0 0#32)) (u.opHandle o (o.args.getD 2 0#32)) past (o.shape.total + 1)
    (u.modOp o.id Op.stepping) o.pos) (if_neg fun hsome => Bool.false_ne_true (hany.symm.trans hsome))

theorem blockKey_touched {s u : State} {o : Op} (hu : u = { s with free := s.free + 1, cores := u.cores }) (f : Op → Op) (off : Nat) :
    blockKey (u.modOp o.id f) o off = coreKey o.core ((s.opPart o).1 + off) := by
  rw [hu]
  rfl

/-- The bytes after a piece has moved. -/
theorem putBlock_bytes {m : Memory} (hwf : m.wf = true) (src dst len : Nat) :
    (m.write dst (m.read src len)).read dst len = m.read src len ∧
    ∀ a, a < dst ∨ dst + len ≤ a → (m.write dst (m.read src len)).get a = m.get a := by
  have hlen := read_length m src len
  refine ⟨?_, fun a ha => ?_⟩
  · have h := read_write_same hwf dst (m.read src len)
    rwa [hlen] at h
  · rw [Memory.get_write _ _ _ hwf, hlen, if_neg (by omega)]

theorem copyEvent : CopyEvent := by
  intro s o hop hcls hopc hdone hpause hlive hwf u v
  have hexec := engineStep hop hcls hopc hlive
  have hu : u = { s with free := s.free + 1, cores := u.cores } := touchOp_eq (fresh s) o
  refine ⟨fun hchecked hwait => ?_, fun hchecked hwait hbad => ?_, fun hchecked hwait hgood => ?_, fun hchecked => ?_⟩
  · rw [hexec, stepEngine_unchecked hopc hdone hpause hchecked, if_pos hwait]
  · rw [hexec, stepEngine_unchecked hopc hdone hpause hchecked, if_neg (by rw [hwait]; exact Bool.false_ne_true), if_pos hbad]
  · rw [hexec, stepEngine_unchecked hopc hdone hpause hchecked, if_neg (by rw [hwait]; exact Bool.false_ne_true), if_neg (not_not.mpr hgood)]
  · intro te se sva tva hte hse hdisjoint
    refine ⟨fun hover => ?_, ?_⟩
    · rw [hexec, stepEngine_copy hopc hdone hpause hchecked, stepCopy_disjoint hdisjoint, copyRun_past hover]
    · intro so d len hpiece hlast past src dst
      rw [hexec, stepEngine_copy hopc hdone hpause hchecked, stepCopy_disjoint hdisjoint, copyRun_block hte hse hpiece]
      obtain ⟨htotal, hlen, -, -⟩ := piece_bounds hpiece (by obtain h | h := unit_cases o <;> omega)
      have hpast : te.base + o.arg 1 + pieceEnd o te se o.pos d len = past := rfl
      have hsrc : blockKey (u.modOp o.id Op.stepping) o (o.arg 3 + so) = coreKey o.core src := blockKey_touched hu ..
      have hdst : blockKey (u.modOp o.id Op.stepping) o (o.arg 1 + d) = coreKey o.core dst := blockKey_touched hu ..
      have hbmem : (u.modOp o.id Op.stepping).bmem = s.bmem := by rw [hu]; rfl
      have hmem : (u.modOp o.id Op.stepping).mem = s.mem := by rw [hu]; rfl
      have hops : u.ops = s.ops := by rw [hu]
      have hafter : (afterPiece (u.modOp o.id Op.stepping) o te se o.pos so d len).bmem =
          s.bmem.write (coreKey o.core dst) (s.bmem.read (coreKey o.core src) len) := by
        rw [← hdst, ← hsrc, ← hbmem]
        rfl
      have hafterOps : (afterPiece (u.modOp o.id Op.stepping) o te se o.pos so d len).ops = s.ops.map (fun p => if p.id == o.id then { p with
          pos := o.pos + len, at4k := passes 4096 (tva + d) past, at256 := passes 256 (tva + d) past } else p) := by
        show (u.ops.map _).map _ = _
        rw [hops, List.map_map]
        refine List.map_congr_left fun p _ => ?_
        rw [Function.comp_apply]
        by_cases hp : p.id = o.id
        · have hid : (Op.stepping p).id = o.id := hp
          rw [if_pos (beq_iff_eq.mpr hp), if_pos (beq_iff_eq.mpr hid), if_pos (beq_iff_eq.mpr hp)]
          unfold movedOp Op.passed Op.stepping
          rw [hpast]
          simp only [Bool.false_or]
          rfl
        · have hid : ¬ (p.id == o.id) = true := by rwa [beq_iff_eq]
          rw [if_neg hid, if_neg hid, if_neg hid]
      have hafterMem : (afterPiece (u.modOp o.id Op.stepping) o te se o.pos so d len).mem = s.mem := afterPiece_mem.trans hmem
      generalize afterPiece (u.modOp o.id Op.stepping) o te se o.pos so d len = t at *
      have hfound : ∃ q, t.op? o.id = some q := by
        refine Option.isSome_iff_exists.mp ?_
        unfold State.op?
        rw [List.find?_isSome, hafterOps]
        refine ⟨_, List.mem_map.mpr ⟨o, List.mem_of_find?_eq_some hop, rfl⟩, ?_⟩
        rw [if_pos (beq_iff_eq.mpr rfl)]
        exact beq_iff_eq.mpr rfl
      obtain ⟨hread, hother⟩ := putBlock_bytes hwf (coreKey o.core src) (coreKey o.core dst) len
      by_cases hend : o.shape.total ≤ o.pos + len
      · rw [if_pos (.inl hend)]
        have hrun : copyRun o te se [] o.shape.total t (o.pos + len) = t.finishOp o.id 0 := by
          obtain ⟨n, hn⟩ : ∃ n, o.shape.total = n + 1 := Nat.exists_eq_succ_of_ne_zero (by omega)
          rw [hn]
          exact copyRun_past hend
        rw [hrun]
        obtain ⟨q, hq⟩ := hfound
        have hframe := finishOp_opsStep t o.id 0
        refine ⟨_, rfl, ?_, fun a ha => ?_, hframe.mem.trans hafterMem, fun hmore => absurd hend (not_le.mpr hmore), fun _ => ended_finishOp hq⟩
        · rw [hframe.bmem, hafter]
          exact hread
        · rw [hframe.bmem, hafter]
          exact hother a ha
      · rw [if_neg (not_or.mpr ⟨hend, by rw [hlast.resolve_left hend]; exact Bool.false_ne_true⟩)]
        refine ⟨_, rfl, ?_, fun a ha => ?_, hafterMem, fun _ => hafterOps, fun hover => absurd hover hend⟩
        · rw [hafter]
          exact hread
        · rw [hafter]
          exact hother a ha

/-! ## Tile signals (R184) -/

/-- The earlier of the failed operation found so far and one more. -/
def earlier (m p : Nat × Nat) : Nat × Nat := if m.2 = 0 ∨ p.1 < m.1 then p else m

theorem firstFail_eq (l : List (Nat × Nat)) : firstFail l = (l.foldl earlier (0, 0)).2 := rfl

theorem foldl_earlier_self {l : List (Nat × Nat)} {p : Nat × Nat} (hp : p.2 ≠ 0) (h : ∀ q ∈ l, q = p ∨ p.1 < q.1) : l.foldl earlier p = p := by
  induction l with
  | nil => rfl
  | cons x l ih =>
    obtain ⟨hx, hl⟩ := List.forall_mem_cons.mp h
    rw [List.foldl_cons]
    have hstep : earlier p x = p := by
      obtain rfl | hx := hx
      · exact ite_self _
      · exact if_neg (not_or.mpr ⟨hp, not_lt.mpr hx.le⟩)
    rw [hstep]
    exact ih hl

/-- Of operations that have all failed, the one that was issued before all others is found. -/
theorem foldl_earlier {l : List (Nat × Nat)} {p m : Nat × Nat} (hin : p ∈ l) (h : ∀ q ∈ l, q.2 ≠ 0 ∧ (q = p ∨ p.1 < q.1))
    (hm : m.2 = 0 ∨ m = p ∨ p.1 < m.1) : l.foldl earlier m = p := by
  induction l generalizing m with
  | nil => exact absurd hin List.not_mem_nil
  | cons x l ih =>
    obtain ⟨⟨hx0, hx⟩, hl⟩ := List.forall_mem_cons.mp h
    rw [List.foldl_cons]
    by_cases hpl : p ∈ l
    · refine ih hpl hl ?_
      unfold earlier
      split
      · exact .inr hx
      · rename_i hkeep
        exact .inr (hm.resolve_left fun h0 => hkeep (.inl h0))
    · have hpx : p = x := (List.mem_cons.mp hin).resolve_right hpl
      subst hpx
      have hstep : earlier m p = p := by
        obtain hm | rfl | hm := hm
        · exact if_pos (.inl hm)
        · exact ite_self _
        · exact if_pos (.inr hm)
      rw [hstep]
      exact foldl_earlier_self hx0 fun q hq => (hl q hq).2

theorem tileSignalEvent : TileSignalEvent := by
  intro s o l hop hopc hdone hpause _ hhere u die awaited
  have hexec : exec (.tsigAdd o.id) s = .next (stepTsig u o) := by
    have hstep : u.stepEngine o = stepTsig u o := by
      unfold State.stepEngine
      rw [hdone, hpause, if_neg (by decide), if_pos hopc]
    rw [exec_tsigAdd, ← hstep]
    unfold execTsigAdd
    dsimp only
    rw [show ({ s with free := s.free + 1 } : State).op? o.id = some o from hop]
    dsimp only
    rw [show ({ s with free := s.free + 1 } : State).opHere o = true from hhere, hopc]
    rfl
  refine ⟨fun hopen => ?_, fun hall => ⟨fun p hp hp0 hfirst => ?_, fun hmet hplace hready hpoison => ?_⟩⟩
  · obtain ⟨p, hp, hpd⟩ := hopen
    obtain ⟨hp, hawait⟩ := List.mem_filter.mp hp
    rw [hexec]
    refine congrArg Host.Outcome.next (if_pos (List.any_eq_true.mpr ⟨p, hp, ?_⟩))
    rw [hawait, hpd]
    rfl
  all_goals
    have hnone : u.ops.any (fun p => o.await.contains p.id && !p.done) = false := by
      rw [List.any_eq_false]
      intro q hq hopen
      obtain ⟨hawait, hqd⟩ := (Bool.and_eq_true _ _).mp hopen
      rw [hall q (List.mem_filter.mpr ⟨hq, hawait⟩)] at hqd
      cases hqd
    rw [hexec]
    unfold stepTsig
    rw [hnone, if_neg Bool.false_ne_true]
  · have hfail : firstFail o.met = p.2 := by rw [firstFail_eq, foldl_earlier hp hfirst (.inl rfl)]
    rw [hfail, if_pos hp0]
  · have hfail : firstFail o.met = 0 := by rw [hmet]; rfl
    intro v
    rw [hfail, if_neg (not_not.mpr rfl)]
    dsimp only
    rw [hplace]
    dsimp only
    rw [hready]
    dsimp only
    rw [hpoison, if_neg Bool.false_ne_true, rmwLane_add]

/-- Settles O41. -/
theorem unitAndMemoryEvents : Obligations.UnitAndMemoryEvents :=
  ⟨CompletionRows.completionEvent, UnitEventRows.heldRecordEvents, copyEvent, tileSignalEvent, UnitEventRows.arrivalEvents, UnitEventRows.prefetchEvents⟩

end Sys2Proof.Proofs.CopyRows
end

