-- ==== Sys2Proof/Proofs/TileEventRows.lean ====
section
/-!
PROOF. Proofs/TileEventRows.lean: tasks that start, are admitted and retire, and the rows of mzero and mma.i8 (09 R197, R200, R202; 12 R266;
23 R422).
-/

namespace Sys2Proof.Proofs.TileEventRows

open Sys2Proof Sys2Proof.Machine Sys2Proof.Claims Sys2Proof.Proofs.OperationEnds Sys2Proof.Proofs.CausesAndRecords
open Sys2Proof.Proofs.StoreRows Sys2Proof.Proofs.AccumulatorRows

/-! ## Tasks that start, are admitted and retire -/

/-- The first element of which a function gives something, after elements of which it gives nothing. -/
theorem findSome?_split {α β : Type} {f : α → Option β} {pre post : List α} {a : α} {b : β} (hpre : ∀ p ∈ pre, f p = none) (ha : f a = some b) :
    (pre ++ a :: post).findSome? f = some b := by
  rw [List.findSome?_append, List.findSome?_eq_none_iff.mpr hpre, List.findSome?_cons, ha]
  rfl

/-- The first number that meets a test. -/
theorem find?_range_first {p : Nat → Bool} {n c : Nat} (hc : c < n) (hp : p c = true) (hfirst : ∀ k, k < c → p k = false) : (List.range n).find? p = some c := by
  rw [List.find?_range_eq_some]
  exact ⟨hp, List.mem_range.mpr hc, fun k hk => by rw [hfirst k hk]; rfl⟩

section Tasks

variable {s : State} {o : Op}

/-- Slice c of a task may start on a core. -/
def readyOn (s : State) (core : Nat) (p : Op) (c : Nat) : Bool := s.sliceReady p c && (s.sliceBlock p c).any (fun b => b.core == core)

/-- A slice that starts. -/
def startOp (lscale : Word) (c : Nat) (p : Op) : Op :=
  { p with lscale := if p.phase = 0 then lscale else p.lscale, phase := 1, started := p.started.set c true }

theorem startSlice_first {core c : Nat} {pre post : List Op} (hops : s.ops = pre ++ o :: post) (hcls : o.cls = 2) (hbusy : s.engineBusy core = false)
    (hpre : ∀ p ∈ pre, p.cls = 2 → ∀ k, k < trSlices p.trec → readyOn s core p k = false) (hc : c < trSlices o.trec)
    (hready : readyOn s core o c = true) (hfirst : ∀ k, k < c → readyOn s core o k = false) :
    s.startSlice core = s.modOp o.id (startOp (((s.block? o.blk).map (fun b => b.lscale)).getD 0#32) c) := by
  have hfound : s.ops.findSome? (fun o => if o.cls ≠ 2 then none else
      ((List.range (trSlices o.trec)).find? (readyOn s core o)).map (fun c => (o, c))) = some (o, c) := by
    rw [hops]
    refine findSome?_split (fun p hp => ?_) ?_
    · by_cases hp2 : p.cls = 2
      · rw [if_neg (not_not.mpr hp2), List.find?_eq_none.mpr fun k hk => ?_]
        · rfl
        · rw [hpre p hp hp2 k (List.mem_range.mp hk)]
          exact Bool.false_ne_true
      · exact if_pos hp2
    · rw [if_neg (not_not.mpr hcls), find?_range_first hc hready hfirst]
      rfl
  unfold readyOn at hfound
  unfold State.startSlice
  rw [hbusy, if_neg Bool.false_ne_true, hfound]
  dsimp only
  cases s.block? o.blk <;> rfl

theorem tileTaskRetire_eq {c : Nat} (hop : s.op? o.id = some o) (hcls : o.cls = 2) (hstop : (s.ctxSt o.ctx).stopped = false) :
    exec (.tileTaskRetire o.id c) s = .next (if o.checked = false then (fresh s).admitTask o
      else match ((fresh s).stepSlice o c).op? o.id with
        | some o' => ((fresh s).stepSlice o c).retireTask o'
        | none => (fresh s).stepSlice o c) := by
  rw [exec_tileTaskRetire]
  unfold execTileTaskRetire
  dsimp only
  rw [show ({ s with free := s.free + 1 } : State).op? o.id = some o from hop]
  dsimp only
  rw [if_neg (by
    rw [show (({ s with free := s.free + 1 } : State).ctxSt o.ctx).stopped = false from hstop]
    exact not_or.mpr ⟨not_not.mpr hcls, Bool.false_ne_true⟩)]
  cases o.checked <;> rfl

theorem admitTask_reduced (hstage : s.mgmt.stage = 2) : s.admitTask o = s := by
  unfold State.admitTask
  rw [hstage]
  exact if_pos (by simp)

theorem admitTask_checks (hdone : o.done = false) (hchecked : o.checked = false) (hstage : s.mgmt.stage ≠ 2) (hin : s.inMarshal o = true) :
    s.admitTask o = if taskStatus s o ≠ 0 ∨ o.mv = 0 then s.finishOp o.id (taskStatus s o) else s.modOp o.id (fun p => { p with checked := true }) := by
  unfold State.admitTask
  rw [hdone, hchecked, hin, if_neg (by simpa using hstage)]
  dsimp only
  refine if_congr ?_ rfl rfl
  rw [Bool.or_eq_true, decide_eq_true_eq, decide_eq_true_eq]

theorem stepSlice_over {c : Nat} (h : o.sliceOver c = true) : s.stepSlice o c = s := by
  unfold State.stepSlice
  rw [h]
  exact if_pos (by simp)

theorem retireTask_over (hdone : o.done = false) (hchecked : o.checked = true) (hover : ∀ k, k < trSlices o.trec → o.sliceOver k = true) :
    s.retireTask o = (if (o.sliceStat.find? (fun x => x ≠ 0)).getD 0 = 5 ∨ (o.sliceStat.find? (fun x => x ≠ 0)).getD 0 = 6 then s.scrubTask o else s).finishOp
      o.id ((o.sliceStat.find? (fun x => x ≠ 0)).getD 0) := by
  have hall : (List.range (trSlices o.trec)).all (fun c => o.sliceOver c) = true := List.all_eq_true.mpr fun k hk => hover k (List.mem_range.mp hk)
  unfold State.retireTask
  rw [hdone, hchecked, hall]
  exact if_neg (by decide)

end Tasks

theorem tileEvents : TileEvents := by
  intro s o hop hcls hdone u
  refine ⟨fun core c pre post hops => ?_, fun hstop c => ⟨fun hchecked hstage => ?_, fun hchecked hstage hin => ⟨fun hbad => ?_, fun hgood hmv => ?_⟩,
    fun hchecked hover hc => ?_⟩⟩
  · intro ready hbusy hpre hc hready hfirst
    rw [exec_tileSliceStart]
    exact congrArg Host.Outcome.next (startSlice_first (s := u) hops hcls hbusy hpre hc hready hfirst)
  · rw [tileTaskRetire_eq hop hcls hstop, if_pos hchecked, admitTask_reduced (s := fresh s) hstage]
  · rw [tileTaskRetire_eq hop hcls hstop, if_pos hchecked, admitTask_checks (s := fresh s) hdone hchecked hstage hin, if_pos hbad]
  · rw [tileTaskRetire_eq hop hcls hstop, if_pos hchecked, admitTask_checks (s := fresh s) hdone hchecked hstage hin,
      if_neg (not_or.mpr ⟨not_not.mpr hgood, hmv⟩)]
  · intro st
    have hcheckedne : ¬ o.checked = false := by rw [hchecked]; exact Bool.noConfusion
    have hopu : (fresh s).op? o.id = some o := hop
    rw [tileTaskRetire_eq hop hcls hstop, if_neg hcheckedne, stepSlice_over (hover c hc), hopu]
    exact congrArg Host.Outcome.next (retireTask_over hdone hchecked hover)

/-! ## Accumulator rows -/

/-- Bytes read inside what has just been written. -/
theorem read_write_inside {m : Memory} (h : m.wf = true) (a k n : Nat) (bs : List Byte) (hk : k + n ≤ bs.length) :
    (m.write a bs).read (a + k) n = (bs.drop k).take n := by
  rw [read_eq_map]
  refine List.ext_getElem (by simp; omega) fun i hi _ => ?_
  have hin : i < n := by simpa using hi
  rw [List.getElem_map, List.getElem_range, Memory.get_write bs a _ h, if_pos (by omega), List.getElem_take, List.getElem_drop,
    show a + k + i - a = k + i by omega, List.getD_eq_getElem _ _ (by omega)]

/-- One of the chunks of equal length that a list is joined of. -/
theorem take_drop_flatMap {α β : Type} {f : α → List β} {n : Nat} (hf : ∀ a, (f a).length = n) (as : List α) {j : Nat} (hj : j < as.length) :
    ((as.flatMap f).drop (n * j)).take n = f as[j] := by
  induction as generalizing j with
  | nil => exact absurd hj (Nat.not_lt_zero _)
  | cons a as ih =>
    rw [List.flatMap_cons]
    cases j with
    | zero =>
      rw [Nat.mul_zero, List.drop_zero, ← hf a, List.take_left]
      rfl
    | succ j =>
      rw [Nat.mul_succ, Nat.add_comm, ← List.drop_drop, ← hf a, List.drop_left, hf a, ih (Nat.lt_of_succ_lt_succ hj)]
      rfl

theorem length_flatMap_leBytes (ws : List Nat) : (ws.flatMap (leBytes 4)).length = 4 * ws.length := by
  induction ws with
  | nil => rfl
  | cons w ws ih =>
    rw [List.flatMap_cons, List.length_append, ih, leBytes_length, List.length_cons]
    omega

section AccPut

variable {s : State} {core off : Nat} {ws : List Nat}

/-- A word of a row that has been put down. -/
theorem accWord_accPut (h : s.amem.wf = true) {j : Nat} (hj : j < ws.length) : (s.accPut core off ws).accWord core (off + 4 * j) = ws[j] % 2 ^ 32 := by
  have hkey : coreKey core (off + 4 * j) = coreKey core off + 4 * j := (Nat.add_assoc ..).symm
  unfold State.accWord State.accPut
  dsimp only
  rw [hkey, read_write_inside h _ _ _ _ (by rw [length_flatMap_leBytes]; omega), take_drop_flatMap (leBytes_length 4) ws hj, leNat_leBytes] <;> norm_num

theorem amem_accPut (h : s.amem.wf = true) {a : Nat} (ha : a < coreKey core off ∨ coreKey core off + 4 * ws.length ≤ a) :
    (s.accPut core off ws).amem.get a = s.amem.get a := by
  unfold State.accPut
  rw [Memory.get_write _ _ _ h, length_flatMap_leBytes, if_neg (by omega)]

end AccPut

/-! ## A row of a running slice -/

section Row

variable {s : State} {o : Op} {b : Block} {c : Nat}

theorem touchTask_eq (s : State) (o : Op) : s.touchTask o = { s with cores := (s.touchTask o).cores } := by
  unfold State.touchTask State.touchLent
  dsimp only
  split
  · split <;> rfl
  · rfl

/-- An operation changed by a function that keeps its number. -/
theorem op?_modOp {f : Op → Op} (hf : ∀ p, (f p).id = p.id) (h : s.op? o.id = some o) : (s.modOp o.id f).op? o.id = some (f o) := by
  unfold State.op? at h ⊢
  show (s.ops.map (fun p => if p.id == o.id then f p else p)).find? (fun p => p.id == o.id) = _
  rw [List.find?_map]
  have hcomp : ((fun p => p.id == o.id) ∘ fun p => if (p.id == o.id) = true then f p else p) = (fun p : Op => p.id == o.id) := by
    funext p
    rw [Function.comp_apply]
    split
    · rw [hf]
    · rfl
  rw [hcomp, h, Option.map_some, if_pos (beq_iff_eq.mpr rfl)]

/-- A task none of whose slices has failed retires without touching memory. -/
theorem retireTask_opsStep (h : ∀ x ∈ o.sliceStat, x = 0) : OpsStep s (s.retireTask o) := by
  have hst : (o.sliceStat.find? (fun x => x ≠ 0)).getD 0 = 0 := by
    rw [List.find?_eq_none.mpr fun x hx => by rw [h x hx]; decide]
    rfl
  unfold State.retireTask
  split
  · exact .refl s
  · dsimp only
    rw [hst, if_neg (by decide)]
    exact finishOp_opsStep ..

/-- What a row that is done does to its task. -/
def doneRow (c ovf stat : Nat) (p : Op) : Op :=
  { p with prog := p.prog.set c (p.prog.getD c 0 + 1), ovf := p.ovf ||| ovf,
           sliceStat := p.sliceStat.set c (if p.sliceStat.getD c 0 = 0 then stat else p.sliceStat.getD c 0) }

theorem doneRow_clean {ovf : Nat} (h : ∀ x ∈ o.sliceStat, x = 0) : ∀ x ∈ (doneRow c ovf 0 o).sliceStat, x = 0 := by
  have hget : o.sliceStat.getD c 0 = 0 := by
    by_cases hc : c < o.sliceStat.length
    · rw [List.getD_eq_getElem _ _ hc]
      exact h _ (List.getElem_mem hc)
    · rw [List.getD_eq_default _ _ (not_lt.mp hc)]
  intro x hx
  obtain hx | hx := List.mem_or_eq_of_mem_set hx
  · exact h x hx
  · rw [hx, hget, if_pos rfl]

/-- A step of a slice that puts a row of words down: the row, and nothing else of memory. -/
theorem row_step {off ovf : Nat} {ws : List Nat} (hop : s.op? o.id = some o) (hcls : o.cls = 2) (hchecked : o.checked = true)
    (hstop : (s.ctxSt o.ctx).stopped = false) (hclean : ∀ x ∈ o.sliceStat, x = 0)
    (hrow : (fresh s).stepSlice o c = rowDone (((fresh s).touchTask o).accPut b.core off ws) o c ovf 0) :
    Answers (exec (.tileTaskRetire o.id c) s) (fun t => t.amem = (s.accPut b.core off ws).amem ∧ t.mem = s.mem ∧ t.bmem = s.bmem) := by
  have hcheckedne : ¬ o.checked = false := by rw [hchecked]; exact Bool.noConfusion
  have hu := touchTask_eq (fresh s) o
  generalize (fresh s).touchTask o = u at hrow hu
  have hopu : (u.accPut b.core off ws).op? o.id = some o := by
    rw [hu]
    exact hop
  have hfound : (rowDone (u.accPut b.core off ws) o c ovf 0).op? o.id = some (doneRow c ovf 0 o) := op?_modOp (f := doneRow c ovf 0) (fun _ => rfl) hopu
  refine ⟨_, (tileTaskRetire_eq hop hcls hstop).trans (congrArg Host.Outcome.next (if_neg hcheckedne)), ?_⟩
  rw [hrow, hfound]
  dsimp only
  have hframe := retireTask_opsStep (s := rowDone (u.accPut b.core off ws) o c ovf 0) (doneRow_clean (c := c) (ovf := ovf) hclean)
  have hamem : (u.accPut b.core off ws).amem = (s.accPut b.core off ws).amem := by rw [hu]; rfl
  have hmem : u.mem = s.mem := by rw [hu]; rfl
  have hbmem : u.bmem = s.bmem := by rw [hu]; rfl
  exact ⟨hframe.amem.trans hamem, hframe.mem.trans hmem, hframe.bmem.trans hbmem⟩

/-- The row of a running slice. -/
theorem stepSlice_row (hdone : o.done = false) (hstarted : o.started.getD c false = true) (hover : o.sliceOver c = false)
    (hpause : (o.pause.any (fun p => p.1 == c)) = false) (hblock : s.sliceBlock o c = some b) : s.stepSlice o c = match tkindOf o.opc with
      | .mma => Machine.mmaRow (s.touchTask o) o b.core c (o.prog.getD c 0)
      | .msacc => msaccRow (s.touchTask o) o b.core c (o.prog.getD c 0)
      | .mzero => mzeroRow (s.touchTask o) o b.core c (o.prog.getD c 0)
      | .accst => accstRun b.core c o.mv (s.touchTask o) o.id (o.prog.getD c 0) := by
  unfold State.stepSlice
  rw [hdone, hstarted, hover, hpause, if_neg (by decide), hblock] <;> rfl

end Row

/-! ## Rows of mma.i8 (R197) -/

theorem engRead_length {s : State} {o : Op} {e : HandleEntry} (k : Nat) {off n : Nat} {bs : List (Byte × Bool)} (h : engRead s o e k off n = .ok bs) :
    bs.length ≤ n := by
  induction k generalizing off n bs with
  | zero =>
    unfold engRead at h
    cases h
    exact Nat.zero_le _
  | succ k ih =>
    unfold engRead at h
    split at h
    · cases h
      exact Nat.zero_le _
    · dsimp only at h
      split at h
      · rename_i f _
        unfold Eng.failed at h
        split at h <;> cases h
      · split at h
        · cases h
        · cases h
        · split at h
          · rename_i r hr
            cases h
            have hrest := ih hr
            rw [List.length_append, List.length_map, List.length_range]
            omega
          · rename_i hno
            exact absurd h (hno bs)

theorem readCols_bounds {s : State} {o : Op} {e : HandleEntry} {c : Nat} (n : Nat) {ys : List (List (Byte × Bool))} (h : readCols s o e c n = .ok ys) :
    ys.length = n ∧ ∀ y ∈ ys, y.length ≤ trKB o.trec := by
  induction n generalizing ys with
  | zero =>
    unfold readCols at h
    cases h
    exact ⟨rfl, fun y hy => absurd hy List.not_mem_nil⟩
  | succ n ih =>
    unfold readCols at h
    dsimp only at h
    split at h
    · rename_i b hb
      split at h
      · rename_i r hr
        cases h
        obtain ⟨hlen, hall⟩ := ih hr
        exact ⟨by rw [List.length_cons, hlen], List.forall_mem_cons.mpr ⟨engRead_length 2 hb, hall⟩⟩
      · rename_i hno
        exact absurd h (hno ys)
    · cases h
    · cases h
    · cases h

/-- The codes of a row of bytes are the bytes. -/
theorem rowCodes_i8 (bs : List Byte) : rowCodes .i8 bs = bs.map BitVec.toNat := by
  have hbyte : ∀ (bs : List Byte) (i : Nat), i < bs.length → leNat bs / 2 ^ (8 * i) % 2 ^ 8 = (bs.getD i 0#8).toNat := by
    intro bs
    induction bs with
    | nil => exact fun i hi => absurd hi (Nat.not_lt_zero _)
    | cons b bs ih =>
      intro i hi
      have hb := b.isLt
      cases i with
      | zero =>
        rw [Nat.mul_zero, Nat.pow_zero, Nat.div_one]
        show (b.toNat + 256 * leNat bs) % 2 ^ 8 = b.toNat
        omega
      | succ i =>
        rw [Nat.mul_succ, Nat.add_comm (8 * i), Nat.pow_add, ← Nat.div_div_eq_div_mul]
        have hdiv : leNat (b :: bs) / 2 ^ 8 = leNat bs := by
          show (b.toNat + 256 * leNat bs) / 2 ^ 8 = _
          omega
        rw [hdiv, ih i (Nat.lt_of_succ_lt_succ hi)]
        rfl
  unfold rowCodes elemsOf
  rw [show (8 * bs.length) / NFmt.width .i8 = bs.length from Nat.mul_div_cancel_left _ (by decide)]
  refine List.ext_getElem (by simp) fun i hi hi' => ?_
  rw [List.getElem_map, List.getElem_range, List.getElem_map]
  have hlt : i < bs.length := by simpa using hi
  have h := hbyte bs i hlt
  rw [List.getD_eq_getElem _ _ hlt] at h
  exact h

theorem svalN_byte (b : Byte) : svalN b.toNat 8 = b.toInt := by
  rw [RegisterRows.svalN_eq (by decide) b.isLt, BitVec.toInt_eq_msb_cond, BitVec.msb_eq_decide]
  simp only [decide_eq_true_eq]
  rfl

/-- The signed values of a row of bytes. -/
theorem signedRow (bs : List (Byte × Bool)) : (rowCodes .i8 (bs.map (fun b => b.1))).map (fun x => svalN x 8) = bs.map (fun b : Byte × Bool => b.1.toInt) := by
  rw [rowCodes_i8, List.map_map, List.map_map]
  exact List.map_congr_left fun b _ => svalN_byte b.1

/-- A sum of products over a range that holds both rows. -/
theorem dotInt_eq (x y : List Int) (n : Nat) (hx : x.length ≤ n) (hy : y.length ≤ n) :
    dotInt x y = ((List.range n).map (fun k => x.getD k 0 * y.getD k 0)).sum := by
  have hfold : ∀ (l : List (Int × Int)) (v : Int), l.foldl (fun v p => v + p.1 * p.2) v = v + (l.map (fun p => p.1 * p.2)).sum := by
    intro l
    induction l with
    | nil => exact fun v => (Int.add_zero v).symm
    | cons p l ih => exact fun v => by rw [List.foldl_cons, ih, List.map_cons, List.sum_cons, Int.add_assoc]
  unfold dotInt
  rw [hfold, Int.zero_add]
  induction n generalizing x y with
  | zero =>
    rw [List.length_eq_zero_iff.mp (Nat.le_zero.mp hx)]
    rfl
  | succ n ih =>
    rw [List.range_succ_eq_map, List.map_cons, List.map_map, List.sum_cons]
    cases x with
    | nil =>
      simp [Function.comp_def]
    | cons a x =>
      cases y with
      | nil =>
        simp [Function.comp_def]
      | cons b y =>
        rw [List.zip_cons_cons, List.map_cons, List.sum_cons, ih x y (Nat.le_of_succ_le_succ hx) (Nat.le_of_succ_le_succ hy)]
        rfl

theorem getD_map_toInt (x : List (Byte × Bool)) (k : Nat) : (x.map (fun b : Byte × Bool => b.1.toInt)).getD k 0 = (x.getD k (0#8, false)).1.toInt := by
  rw [List.getD_eq_getElem?_getD, List.getD_eq_getElem?_getD, List.getElem?_map]
  cases x[k]? <;> rfl

/-- The words of a row of mma.i8. -/
def mmaWords (s : State) (o : Op) (core c i : Nat) (x : List (Byte × Bool)) (ys : List (List (Byte × Bool))) : List Nat :=
  (List.range (trNLc o.trec c)).map (fun j =>
    (((s.accWord core (accAddr o.trec false i 0 + 4 * j) : Int) +
      dotInt (x.map (fun b : Byte × Bool => b.1.toInt)) ((ys.getD j []).map (fun b : Byte × Bool => b.1.toInt))) % 2 ^ 32).toNat)

theorem mmaRow_i8 {s : State} {o : Op} {core c i : Nat} {x : List (Byte × Bool)} {ys : List (List (Byte × Bool))} (hopc : o.opc = 0x30F)
    (hx : engRead s o (s.opHandle o (BitVec.ofNat 32 (trHnd o.trec false))) 2 (o.arg 0 + i * trw o.trec 2) (trKB o.trec) = .ok x)
    (hy : readCols s o (s.opHandle o (BitVec.ofNat 32 (trHnd o.trec true))) c (trNLc o.trec c) = .ok ys)
    (hxclean : ∀ p ∈ x, p.2 = false) (hyclean : ∀ y ∈ ys, ∀ p ∈ y, p.2 = false) :
    Machine.mmaRow s o core c i = rowDone (s.accPut core (accAddr o.trec false i 0) (mmaWords s o core c i x ys)) o c 0 0 := by
  have hrow : rowBytes o.opc (trKB o.trec) = trKB o.trec := by
    unfold rowBytes isSparse
    rw [hopc]
    rfl
  have hint : isIntForm o.opc = true := by rw [hopc]; rfl
  have hsparse : isSparse o.opc = false := by rw [hopc]; rfl
  have hdense : ¬ o.opc = 0x310 := by rw [hopc]; decide
  have hclean : (x.any (fun b => b.2) || ys.any (fun b => b.any (fun x => x.2))) = false := by
    rw [Bool.or_eq_false_iff, List.any_eq_false, List.any_eq_false]
    refine ⟨fun p hp => by rw [hxclean p hp]; exact Bool.false_ne_true, fun y hy => ?_⟩
    rw [Bool.not_eq_true, List.any_eq_false]
    exact fun p hp => by rw [hyclean y hy p hp]; exact Bool.false_ne_true
  unfold Machine.mmaRow
  dsimp only
  rw [hrow, hx]
  dsimp only
  rw [hy]
  dsimp only
  rw [hclean, if_neg Bool.false_ne_true, hint, hsparse]
  simp only [Bool.not_true, Bool.false_and, if_true, hdense, if_false, decide_false, Bool.false_eq_true, signedRow]
  rfl

theorem tileRowEvents : TileRowEvents := by
  intro s o b c hop hcls hdone hchecked hstop hstarted hover hpause hblock hwf hclean u i at0 others
  have hstep := stepSlice_row (s := fresh s) hdone hstarted hover hpause hblock
  refine ⟨fun hopc => ?_, fun hopc x ys hx hy hxclean hyclean => ?_⟩
  · have hkind : tkindOf o.opc = .mzero := by rw [hopc]; rfl
    rw [hkind] at hstep
    obtain ⟨t, ht, hamem, hmem, hbmem⟩ := row_step (b := b) hop hcls hchecked hstop hclean hstep
    refine ⟨t, ht, fun j hj => ?_, fun a ha => ?_, hmem, hbmem⟩
    · have hword := accWord_accPut (s := s) (core := b.core) (off := at0 (bitOf o.sub 1)) (ws := List.replicate (trNLc o.trec c) 0) hwf
        (by rw [List.length_replicate]; exact hj)
      rw [List.getElem_replicate] at hword
      unfold State.accWord at hword ⊢
      rw [hamem]
      exact hword
    · rw [hamem]
      exact amem_accPut hwf (by rw [List.length_replicate]; exact ha)
  · have hkind : tkindOf o.opc = .mma := by rw [hopc]; rfl
    rw [hkind] at hstep
    have hrow := hstep.trans (mmaRow_i8 (core := b.core) hopc hx hy hxclean hyclean)
    obtain ⟨t, ht, hamem, hmem, hbmem⟩ := row_step (b := b) hop hcls hchecked hstop hclean hrow
    have hlen : (mmaWords u o b.core c i x ys).length = trNLc o.trec c := by
      unfold mmaWords
      rw [List.length_map, List.length_range]
    obtain ⟨hyslen, hyall⟩ := readCols_bounds _ hy
    refine ⟨t, ht, fun j hj => ?_, fun a ha => ?_, hmem, hbmem⟩
    · have hword := accWord_accPut (s := s) (core := b.core) (off := at0 false) (ws := mmaWords u o b.core c i x ys) hwf (by rw [hlen]; exact hj)
      have hj' : j < ys.length := by rw [hyslen]; exact hj
      have hold : u.accWord b.core (at0 false + 4 * j) = s.accWord b.core (at0 false + 4 * j) := by
        unfold State.accWord
        rw [show u.amem = s.amem by rw [show u = _ from touchTask_eq (fresh s) o]; rfl]
      have hcol : (ys.getD j []).length ≤ trKB o.trec := by
        rw [List.getD_eq_getElem _ _ hj']
        exact hyall _ (List.getElem_mem hj')
      have hdot := dotInt_eq (x.map (fun b : Byte × Bool => b.1.toInt)) ((ys.getD j []).map (fun b : Byte × Bool => b.1.toInt)) (trKB o.trec)
        (by rw [List.length_map]; exact engRead_length 2 hx) (by rw [List.length_map]; exact hcol)
      simp only [getD_map_toInt] at hdot
      rw [← hdot, ← hold]
      have hget : (mmaWords u o b.core c i x ys)[j]'(by rw [hlen]; exact hj) = (((u.accWord b.core (at0 false + 4 * j) : Int) +
          dotInt (x.map (fun b : Byte × Bool => b.1.toInt)) ((ys.getD j []).map (fun b : Byte × Bool => b.1.toInt))) % 2 ^ 32).toNat := by
        unfold mmaWords
        rw [List.getElem_map, List.getElem_range]
      rw [hget] at hword
      have ht : t.accWord b.core (at0 false + 4 * j) = (s.accPut b.core (at0 false) (mmaWords u o b.core c i x ys)).accWord b.core (at0 false + 4 * j) := by
        unfold State.accWord
        rw [hamem]
      rw [ht, hword]
      generalize (u.accWord b.core (at0 false + 4 * j) : Int) + dotInt (x.map (fun b : Byte × Bool => b.1.toInt)) ((ys.getD j []).map (fun b : Byte × Bool => b.1.toInt)) = v
      omega
    · rw [hamem]
      exact amem_accPut hwf (by rw [hlen]; exact ha)

/-! ## The allocator -/

theorem getLsbD_one_shiftLeft {u v : Nat} (hu : u < 64) : (1#64 <<< v).getLsbD u = (u == v) := by
  by_cases huv : u = v
  · subst huv
    simp [hu]
  · rcases Nat.lt_or_gt_of_ne huv with h | h
    · simp [huv, h]
    · have : u - v ≠ 0 := by omega
      simp [huv, hu, this, not_lt.mpr h.le]

/-- The units of a grant. -/
def grantMask (first n : Nat) : BitVec 64 := (List.range n).foldl (fun (m : BitVec 64) i => m ||| (1#64 <<< (first + i))) 0#64

theorem getLsbD_grantMask (first n : Nat) {u : Nat} (hu : u < 64) : (grantMask first n).getLsbD u = (decide (first ≤ u) && decide (u < first + n)) := by
  induction n with
  | zero =>
    rw [Bool.eq_iff_iff]
    simp [grantMask]
  | succ n ih =>
    unfold grantMask at ih ⊢
    rw [List.range_succ, List.foldl_append, List.foldl_cons, List.foldl_nil, BitVec.getLsbD_or, ih, getLsbD_one_shiftLeft hu, Bool.eq_iff_iff]
    simp only [Bool.or_eq_true, Bool.and_eq_true, decide_eq_true_eq, beq_iff_eq]
    omega

/-- What a grant does to the crew that asked. -/
def grantCrew (r : AccaReq) (first : Nat) (c : Crew) : Crew :=
  let given := fun (a : Alt) => { a with row := mkRow (fun _ => BitVec.ofNat 32 (4096 * first)), mask := r.mask }
  let e := { c with flights := c.flights.map (fun (f : Flight) => if f.id = r.flight then { f with writes := f.writes.map given } else f) }
  markRegion (e.setSlot r.slot { e.slot r.slot with accaWait := none }) r.slot (e.slot r.slot).pc

theorem grantCrew_fields (r : AccaReq) (first : Nat) (c : Crew) :
    (grantCrew r first c).id = c.id ∧ ((grantCrew r first c).slot r.slot).accaWait = none ∧ ((grantCrew r first c).slot r.slot).region = (c.slot r.slot).pc ∧
    (grantCrew r first c).flights = c.flights.map (fun f => if f.id = r.flight then { f with writes := f.writes.map (fun a => { a with
      row := mkRow (fun _ => BitVec.ofNat 32 (4096 * first))
      mask := r.mask }) } else f) := by
  unfold grantCrew
  cases r.slot <;> exact ⟨rfl, rfl, rfl, rfl⟩

theorem grant_eq {s : State} {r : AccaReq} {first : Nat} (hback : s.spills.filter (fun p => p.1 == r.blk) = []) :
    s.grant r first = ({ s with
      spills := s.spills.filter (fun p => p.1 ≠ r.blk)
      accas := s.accas.filter (fun q => q.id ≠ r.id)
      blocks := s.blocks.map (fun q => if q.id == r.blk then { q with units := q.units ||| q.spilled ||| grantMask first r.units, spilled := 0#64 } else q)
      crews := s.crews.map (fun c => if c.id == r.crew then grantCrew r first c else c) } : State) := by
  unfold State.grant
  rw [hback]
  rfl

theorem allocate_grants {s : State} {core first : Nat} {r : AccaReq} {b : Block} (hold : s.oldestReq core = some r) (hblk : s.block? r.blk = some b)
    (hspilled : b.spilled = 0#64)
    (hfirst : match r.base with
      | some u => first = u
      | none => unitRun r.units (s.unitFree core) = some first)
    (hfree : ∀ i, i < r.units → s.unitFree core (first + i) = true ∨ (r.base.isSome = true ∧ b.units.getLsbD (first + i) = true)) :
    s.allocate core = s.grant r first := by
  have hback : (List.range 64).filter (fun u => b.spilled.getLsbD u) = [] := by
    rw [List.filter_eq_nil_iff]
    intro u hu
    rw [hspilled]
    simp
  have hok : ((List.range r.units).map (fun i => first + i)).all (fun x => s.unitFree core x || (r.base.isSome && b.units.getLsbD x) ||
      (([] : List Nat).contains x && s.unitFree core x)) = true := by
    rw [List.all_map, List.all_eq_true]
    intro i hi
    rcases hfree i (List.mem_range.mp hi) with h | ⟨h₁, h₂⟩
    · simp only [Function.comp_apply, h, Bool.true_or]
    · simp only [Function.comp_apply, h₁, h₂, Bool.true_and, Bool.or_true, Bool.true_or]
  have hnot : (fun u => s.unitFree core u && !([] : List Nat).contains u) = s.unitFree core := by
    funext u
    exact Bool.and_true _
  unfold State.allocate
  rw [hold]
  dsimp only
  rw [hblk]
  dsimp only
  rw [hback]
  cases hbase : r.base with
  | some u =>
    rw [hbase] at hfirst hok
    dsimp only at hfirst ⊢
    subst hfirst
    rw [List.append_nil]
    exact if_pos hok
  | none =>
    rw [hbase] at hfirst hok
    dsimp only at hfirst ⊢
    rw [hnot, hfirst]
    dsimp only
    rw [List.append_nil]
    exact if_pos hok

theorem releaseUnit_eq {s : State} {i : Nat} {a : AccfReq} (ha : s.accfs[i]? = some a) :
    s.releaseUnit i = if s.ops.any (fun o => a.tasks.contains o.id) then s
      else { s with
        accfs := s.accfs.eraseIdx i
        spills := s.spills.filter (fun p => !(p.1 == a.blk && p.2.1 == a.unit))
        blocks := s.blocks.map (fun q => if q.id == a.blk
          then { q with units := q.units &&& ~~~(1#64 <<< a.unit), spilled := q.spilled &&& ~~~(1#64 <<< a.unit) } else q) } := by
  unfold State.releaseUnit
  rw [ha]
  dsimp only
  rw [List.eraseIdx_eq_take_drop_succ]
  rfl

theorem allocatorEvents : AllocatorEvents := by
  refine ⟨fun s core first r b c hold hblk hcrew hspilled hspills hfirst hfree hle => ?_, fun s i a ha => ?_⟩
  · have hback : s.spills.filter (fun p => p.1 == r.blk) = [] := by
      rw [List.filter_eq_nil_iff]
      intro p hp
      have := List.all_eq_true.mp hspills p hp
      simpa using this
    have hrun : exec (.accaGrant core) s = .next ((fresh s).grant r first) :=
      congrArg Host.Outcome.next (allocate_grants (s := fresh s) hold hblk hspilled hfirst hfree)
    rw [hrun, grant_eq (s := fresh s) hback]
    refine ⟨_, rfl, rfl, rfl, rfl, rfl, ⟨grantMask first r.units, fun u hu => getLsbD_grantMask first r.units hu, rfl⟩, grantCrew r first c, ?_, grantCrew_fields r first c⟩
    refine List.mem_map.mpr ⟨c, List.mem_of_find?_eq_some hcrew, if_pos ?_⟩
    exact List.find?_some (p := fun c : Crew => c.id == r.crew) hcrew
  · exact congrArg Host.Outcome.next (releaseUnit_eq (s := fresh s) ha)

/-- Settles O42: every tile engine event and every act of the accumulator allocator, from the equation of its own step. -/
theorem tileEngineEvents : Obligations.TileEngineEvents := ⟨tileEvents, tileRowEvents, allocatorEvents⟩

end Sys2Proof.Proofs.TileEventRows
end

