-- ==== Sys2Proof/Proofs/LaunchRows.lean ====
section
/-!
PROOF. Proofs/LaunchRows.lean: launches are admitted, placed and retired (01 R11, R14; 12 R251, R253 to R261, R265).
-/

namespace Sys2Proof.Proofs.LaunchRows

open Sys2Proof Sys2Proof.Machine Sys2Proof.Claims Sys2Proof.Proofs.MemoryFrames Sys2Proof.Proofs.BarrierRows Sys2Proof.Proofs.CausesAndRecords

/-! ## The write-back of a launch's state -/

theorem MemStep.launches {s t : State} (h : MemStep s t) : t.launches = s.launches := by rw [h]

/-- A step of memory that leaves block memory as it was. -/
def MainStep (s t : State) : Prop := MemStep s t ∧ t.bmem = s.bmem

theorem MainStep.refl (s : State) : MainStep s s := ⟨.refl s, rfl⟩

theorem MainStep.trans {s t u : State} (h : MainStep s t) (h' : MainStep t u) : MainStep s u := ⟨h.1.trans h'.1, h'.2.trans h.2⟩

theorem writeKey_mainStep (s : State) (pa key : Nat) (bs : List Byte) : MainStep s (s.writeKey pa key bs) :=
  ⟨writeKey_memStep .., writeKey_bmem ..⟩

theorem release_mainStep (s : State) : MainStep s s.release :=
  ⟨release_memStep s, ((drainArriving_draining s _).trans (drainReplicas_draining _ _)).1⟩

theorem reach_mainStep (s : State) (src dst : Nat) : MainStep s (s.reach src dst) := by
  refine ⟨reach_memStep s src dst, ?_⟩
  unfold State.reach
  split
  · rfl
  · exact (heed_draining ..).1

/-- A VA translates to main or host memory. -/
theorem place_not_block {s : State} {asid va tag core off : Nat} {nd : Need} : s.place asid va nd tag ≠ .ok (.blk core off) := by
  intro h
  unfold State.place at h
  split at h <;> try cases h
  dsimp only at h
  split at h <;> try cases h
  split at h <;> cases h

theorem store_mainStep {s : State} {die : Nat} {l : Loc} {bs : List Byte} (h : ∀ core off, l ≠ .blk core off) : MainStep s (s.store die l bs) := by
  refine ⟨store_memStep s die l bs, ?_⟩
  unfold State.store
  cases l with
  | blk core off => exact absurd rfl (h core off)
  | pa a key =>
    dsimp only
    split
    · exact (writeKey_bmem ..).trans (reach_mainStep ..).2
    · rfl
  | repl a home key => exact (writeKey_bmem ..).trans (reach_mainStep ..).2

theorem writePage_mainStep {s t : State} {asid die : Nat} {kd : Option Nat} {strict : Bool} {va : Nat} {bs : List Byte}
    (h : s.writePage asid die kd strict va bs = some t) : MainStep s t := by
  unfold State.writePage at h
  split at h
  · cases h
  · split at h
    · cases h
    · rename_i hplace
      split at h
      · cases h
      · cases h
        exact store_mainStep fun core off hl => place_not_block (hl ▸ hplace)

theorem writeVa_mainStep {s t : State} {asid die n va : Nat} {bs : List Byte} (h : s.writeVa asid die n va bs = some t) : MainStep s t := by
  induction n generalizing s va bs with
  | zero =>
    cases h
    exact .refl _
  | succ n ih =>
    unfold State.writeVa at h
    split at h
    · cases h
      exact .refl _
    · dsimp only at h
      split at h
      · cases h
      · rename_i hpage
        exact (writePage_mainStep hpage).trans (ih h)

theorem writeBack_mainStep (s : State) (l : Launch) : MainStep s (s.writeBack l) := by
  unfold State.writeBack
  dsimp only
  split
  · exact .refl s
  · split
    · exact (release_mainStep s).trans (writeKey_mainStep ..)
    · cases hw : s.release.writeVa l.asid 0 2 ((l.va + 112) % 2 ^ 64) _ with
      | none => exact .refl s
      | some t => exact (release_mainStep s).trans (writeVa_mainStep hw)

theorem setLaunch_mainStep (s : State) (id st : Nat) : MainStep (s.modLaunch id (fun l => { l with st := st })) (s.setLaunch id st) := by
  unfold State.setLaunch
  dsimp only
  split
  · exact writeBack_mainStep ..
  · exact .refl _

/-! ## Admission -/

theorem modCore_foldl_frame (f : CoreSt → CoreSt) (ks : List Nat) (s : State) : ks.foldl (fun s k => s.modCore k f) s =
    { s with cores := (ks.foldl (fun s k => s.modCore k f) s).cores } := by
  induction ks generalizing s with
  | nil => rfl
  | cons k ks ih =>
    rw [List.foldl_cons, ih]
    rfl

/-- The state in which launch `l` has been admitted, but for its state word and the revocations that it starts. -/
def admitted (s : State) (l : Launch) : State :=
  { s.modLaunch l.id (fun k => { k with admitOrd := s.order }) with order := s.order + 1 }

theorem execLaunchAdmission_eq {s : State} {l : Launch} (hl : s.launch? l.id = some l) : exec (.launchAdmission l.id) s =
    if l.st ≠ 1 ∨ (s.ctxSt l.ctx).stopped ∨ s.mgmt.ps ≠ 0#2 ∨ s.expired l ∨
        !(s.launches.all (fun k => !(k.st == 1 && k.before l && !(s.ctxSt k.ctx).stopped && (fresh s).qFits k))) ∨ !(fresh s).qFits l then .next (fresh s)
    else .next (((admitted (fresh s) l).demandCores l).foldl (fun s k => s.modCore k (fun c => { c with revoke := 1 })) ((admitted (fresh s) l).setLaunch l.id 2)) := by
  have hfresh : (fresh s).launch? l.id = some l := hl
  show execLaunchAdmission l.id s = _
  unfold execLaunchAdmission
  show (match (fresh s).launch? l.id with
    | none => _
    | some l => _) = _
  rw [hfresh]
  rfl

theorem admission_admits {s : State} {l : Launch} (hl : s.launch? l.id = some l) (hst : l.st = 1) (hps : s.mgmt.ps = 0#2) (hexp : s.expired l = false)
    (hstop : (s.ctxSt l.ctx).stopped = false) (hfit : (fresh s).qFits l = true)
    (hfirst : ∀ k ∈ s.launches, k.st = 1 → k.before l = true → (s.ctxSt k.ctx).stopped = true ∨ (fresh s).qFits k = false) :
    exec (.launchAdmission l.id) s = .next (((admitted (fresh s) l).demandCores l).foldl (fun s k => s.modCore k (fun c => { c with revoke := 1 }))
      ((admitted (fresh s) l).setLaunch l.id 2)) := by
  have hall : s.launches.all (fun k => !(k.st == 1 && k.before l && !(s.ctxSt k.ctx).stopped && (fresh s).qFits k)) = true := by
    rw [List.all_eq_true]
    intro k hk
    rw [Bool.not_eq_true', Bool.eq_false_iff]
    intro h
    simp only [Bool.and_eq_true, beq_iff_eq, Bool.not_eq_true'] at h
    obtain ⟨⟨⟨hk1, hbefore⟩, hrun⟩, hkfit⟩ := h
    rcases hfirst k hk hk1 hbefore with h | h
    · exact absurd (h.symm.trans hrun) (by decide)
    · exact absurd (hkfit.symm.trans h) (by decide)
  rw [execLaunchAdmission_eq hl, if_neg]
  simp only [hst, hstop, hps, hexp, hall, hfit]
  decide

theorem launches_admitted (s : State) (l : Launch) : ((admitted s l).modLaunch l.id (fun k => { k with st := 2 })).launches =
    s.launches.map (fun k => if k.id == l.id then { k with admitOrd := s.order, st := 2 } else k) := by
  unfold admitted State.modLaunch
  dsimp only
  rw [List.map_map]
  refine List.map_congr_left fun k _ => ?_
  simp only [Function.comp_apply]
  by_cases hk : (k.id == l.id) = true
  · simp only [hk, if_true]
  · simp only [hk, if_false, Bool.false_eq_true]

theorem admissionEvents : AdmissionEvents := by
  intro s l hl hst u
  refine ⟨fun hps hexp hstop hfit hfirst => ?_, fun h => ?_, fun hcls hexp hps => ?_, fun h => ?_⟩
  · rw [admission_admits hl hst hps hexp hstop hfit hfirst, modCore_foldl_frame]
    obtain ⟨hstep, -⟩ := setLaunch_mainStep (admitted (fresh s) l) l.id 2
    have hlaunches := (MemStep.launches hstep).trans (launches_admitted (fresh s) l)
    have hmem : l ∈ s.launches := List.mem_of_find?_eq_some hl
    have horder := MemStep.order hstep
    have hcrews := MemStep.crews hstep
    have hblocks := MemStep.blocks hstep
    refine ⟨_, rfl, horder, hcrews, hblocks, ⟨{ l with admitOrd := s.order, st := 2 }, ?_, rfl, rfl, rfl⟩, fun k hk hne => ?_⟩
    · show _ ∈ ((admitted (fresh s) l).setLaunch l.id 2).launches
      rw [hlaunches]
      exact List.mem_map.mpr ⟨l, hmem, if_pos (beq_self_eq_true _)⟩
    · show _ ∈ ((admitted (fresh s) l).setLaunch l.id 2).launches
      rw [hlaunches]
      exact List.mem_map.mpr ⟨k, hk, if_neg (by simpa using hne)⟩
  · rw [execLaunchAdmission_eq hl, if_pos]
    rcases h with h | h | h
    · exact .inr (.inr (.inr (.inr (.inr (by rw [h]; rfl)))))
    · exact .inr (.inr (.inr (.inl h)))
    · exact .inr (.inl h)
  · show execLaunchDeadlineExpire l.id s = _
    unfold execLaunchDeadlineExpire
    rw [hl]
    exact if_pos ⟨hst, hcls, hexp, hps⟩
  · show execLaunchDeadlineExpire l.id s = _
    unfold execLaunchDeadlineExpire
    rw [hl]
    refine if_neg fun ⟨_, _, hexp, hps⟩ => ?_
    rcases h with h | h
    · exact absurd (h.symm.trans hexp) (by decide)
    · exact h hps

/-! ## Placement -/

section Place

variable {s s' : State} {l : Launch} {b core v off : Nat} {quads : List Nat} {seats : List (Nat × Nat)}

theorem placeGroup_single (h : s.placeBlock l b core v (quads.take l.crews) = some s') : s.placeGroup l b quads 0 [(core, v)] = some s' := by
  unfold State.placeGroup
  rw [Nat.mul_zero, List.drop_zero, Nat.add_zero, h]
  rfl

theorem placeBlock_new (hroom : s.room core l (some quads) = some (off, seats)) (hnew : ∀ q ∈ s.blocks, q.launch = l.id → q.blockId ≠ b)
    (hv : s.vcoreOk l.ctx v core = true) : s.placeBlock l b core v quads = some (s.startBlock l b core off v seats) := by
  have hnone : s.blocks.find? (fun q => q.launch == l.id && q.blockId == b) = none := by
    rw [List.find?_eq_none]
    intro q hq h
    rw [Bool.and_eq_true, beq_iff_eq, beq_iff_eq] at h
    exact hnew q hq h.1 h.2
  unfold State.placeBlock
  rw [hroom]
  dsimp only
  rw [hnone]
  exact if_pos hv

/-- What a new crew starts with. -/
structure Starts (l : Launch) (q : Block) (core : Nat) (c : Crew) : Prop where
  blk : c.blk = q.id
  ctx : c.ctx = l.ctx
  core : c.core = core
  n : c.n = l.regs
  slot : c.a.st = .running ∧ c.a.pc = l.entry ∧ c.a.region = l.entry ∧ c.a.mask = BitVec.allOnes 64
  other : c.b.st = .free
  depth : c.depth = 0
  regs : c.regs = List.replicate 256 Row.zero
  queues : c.queues = List.replicate 8 0#32
  mode : c.mode = 0#32
  ocnt : c.ocnt = List.replicate 4 0#32
  rng : ∀ i, i < 64 → rowAt c.rng i = BitVec.ofNat 32 (0x9E3779B9 + i)
  live : c.retired = false

theorem newCrew_starts (s : State) (q : Block) (id idx quad qslot : Nat) : Starts l q core (newCrew s l q.id id idx core quad qslot) :=
  ⟨rfl, rfl, rfl, rfl, ⟨rfl, rfl, rfl, rfl⟩, rfl, rfl, rfl, rfl, rfl, rfl, fun _ hi => rowAt_mkRow (fun l => BitVec.ofNat 32 (0x9E3779B9 + l)) hi, rfl⟩

/-- What a block of a launch holds when it starts. -/
structure Holds (l : Launch) (b core v off : Nat) (q : Block) : Prop where
  launch : q.launch = l.id
  blockId : q.blockId = b
  core : q.core = core
  vcore : q.vcore = v
  place : q.place = 0
  bmOff : q.bmOff = off
  bmLen : q.bmLen = l.bmem
  itrange : q.itrange = l.itrange b
  arr : q.arr = List.replicate 64 0#32
  barP : q.barP = 0#16

/-- The context's first block brings in its descriptor. -/
def describe (s : State) (ctx : Nat) : State :=
  if s.blocks.any (fun q => q.ctx == ctx && q.place ≠ 3) then s
  else s.setCtxSt { s.ctxSt ctx with
    desc := s.readPa (s.mgmt.ctxtab.toNat + 64 * ctx) 64
    tvecSet := false }

theorem describe_frame (s : State) (ctx : Nat) : describe s ctx = { s with ctxs := (describe s ctx).ctxs } := by
  unfold describe
  split <;> rfl

/-- The block that starts. -/
def newBlock (s : State) (l : Launch) (sys : Bool) (b core off v : Nat) : Block :=
  { id := s.order, launch := l.id, ctx := l.ctx, core := core, blockId := b, nblocks := l.nblocks, group := b / l.gsize, rank := b % l.gsize,
    gsize := l.gsize, vcore := v, cls := if sys then 0 else l.cls + 1, harv := l.cls == 2, ncrews := l.crews, bmOff := off,
    bmLen := l.bmem, arr := List.replicate 64 0#32, barP := 0#16, barCnt := List.replicate 16 none, barIn := List.replicate 16 [],
    ump := List.replicate 16 0, cbarP := 0#4, cbarOn := List.replicate 4 false, cump := List.replicate 4 0, lscale := 0#32,
    ovf := 0#32, itrange := l.itrange b, fixup := l.fixup b, umpt := BitVec.ofNat 32 (l.f 31 23 0),
    units := BitVec.ofNat 64 (2 ^ l.accu - 1), spilled := 0#64, accu := l.accu, place := 0, yielded := [], since := s.cycle,
    arrOff := s.arrPlace core off l.bmem s.order l.id (l.cls == 2) }

theorem newBlock_holds (s : State) (sys : Bool) : Holds l b core v off (newBlock s l sys b core off v) :=
  ⟨rfl, rfl, rfl, rfl, rfl, rfl, rfl, rfl, rfl, rfl⟩

/-- The crews that start with a block. -/
def newCrews (s : State) (l : Launch) (q : Block) (core : Nat) (seats : List (Nat × Nat)) : List Crew :=
  (List.range l.crews).map (fun i => newCrew s l q.id (s.order + 1 + i) i core (seats.getD i (0, 0)).1 (seats.getD i (0, 0)).2)

/-- Lending turns on where the launch of a block declares a quota. -/
def lendFor (l : Launch) (core : Nat) (s : State) : State :=
  if l.cls ≠ 2 ∧ l.lend ≠ 0 ∧ !(s.core core).lending then s.modCore core (fun k => { k with lending := true, interf := 0 }) else s

theorem lendFor_frame (l : Launch) (core : Nat) (s : State) : lendFor l core s = { s with cores := (lendFor l core s).cores } := by
  unfold lendFor
  split <;> rfl

theorem startBlock_eq (s : State) (l : Launch) (b core off v : Nat) (seats : List (Nat × Nat)) :
    let u := describe s l.ctx
    let q := newBlock u l (s.ctxDesc l.ctx).sys b core off v
    s.startBlock l b core off v seats = (lendFor l core { u with
      blocks := u.blocks ++ [q]
      crews := u.crews ++ newCrews u l q core seats
      order := u.order + 1 + l.crews }).modLaunch l.id (fun l => { l with placed := l.placed ++ [b], late := l.late }) := rfl

/-- A block that starts, its crews, and what stays. -/
theorem startBlock_parts : ∃ q, (s.startBlock l b core off v seats).blocks = s.blocks ++ [q] ∧ Holds l b core v off q ∧
    (∃ cs, (s.startBlock l b core off v seats).crews = s.crews ++ cs ∧ cs.length = l.crews ∧ ∀ c ∈ cs, Starts l q core c) ∧
    (s.startBlock l b core off v seats).mem = s.mem ∧ (s.startBlock l b core off v seats).bmem = s.bmem ∧
    (s.startBlock l b core off v seats).amem = s.amem := by
  rw [startBlock_eq, lendFor_frame, describe_frame]
  refine ⟨_, rfl, newBlock_holds .., ⟨_, rfl, ?_, fun c hc => ?_⟩, rfl, rfl, rfl⟩
  · unfold newCrews
    rw [List.length_map, List.length_range]
  · obtain ⟨i, -, rfl⟩ := List.mem_map.mp hc
    exact newCrew_starts ..

end Place

theorem placement_places {s : State} {l : Launch} {b core v off : Nat} {quads : List Nat} {seats : List (Nat × Nat)} (hl : (fresh s).launch? l.id = some l)
    (hst : l.st = 2) (hcls : l.cls ≠ 0) (hsize : l.gsize = 1) (hps : s.mgmt.ps = 0#2) (hnext : (fresh s).nextBlock l = some b)
    (hgang : (fresh s).gangWaiting = false) (hstop : ((fresh s).ctxSt l.ctx).stopped = false) (hfirst : (fresh s).firstInOrder l = true)
    (hnew : ∀ q ∈ (fresh s).blocks, q.launch = l.id → q.blockId ≠ b) (hv : (fresh s).vcoreOk l.ctx v core = true) (hspan : (fresh s).spanOk l [core] = true)
    (hquads : quads.length = l.crews) (hroom : (fresh s).room core l (some quads) = some (off, seats)) :
    exec (.blockPlacement l.id b [core] quads [v] []) s = .next ((fresh s).startBlock l b core off v seats) := by
  have hps : (fresh s).mgmt.ps = 0#2 := hps
  show execBlockPlacement l.id b [core] quads [v] [] s = _
  unfold execBlockPlacement
  extract_lets u
  rw [show fresh s = u from rfl] at *
  clear_value u
  have hback : u.blocks.any (fun q => q.launch == l.id && q.blockId == b) = false := by
    rw [List.any_eq_false]
    intro q hq h
    rw [Bool.and_eq_true, beq_iff_eq, beq_iff_eq] at h
    exact hnew q hq h.1 h.2
  have hplace : u.placeGroup l b quads 0 [(core, v)] = some (u.startBlock l b core off v seats) :=
    placeGroup_single (by
      rw [List.take_of_length_le hquads.le]
      exact placeBlock_new hroom hnew hv)
  rw [hl]
  dsimp only
  rw [hback, if_neg Bool.false_ne_true, hsize, if_neg]
  · show (match (if false = true then none else u.placeGroup l b quads 0 [(core, v)]) with
      | none => _
      | some s2 => _) = _
    rw [if_neg Bool.false_ne_true, hplace]
    exact congrArg Host.Outcome.next (if_neg fun h => hcls h.1)
  · have hcores : groupCoresOk [core] = true := by simp [groupCoresOk]
    rename_i outs
    have houts : outs = [] := rfl
    simp only [hst, hps, hnext, hgang, hstop, hfirst, hspan, hcores, houts]
    simp

theorem placementEvent : PlacementEvent := by
  intro s l b core v off quads seats hl u hst hcls hsize hps hnext hgang hstop hfirst hnew hv hspan hquads hroom
  have hrun := placement_places hl hst hcls hsize hps hnext hgang hstop hfirst hnew hv hspan hquads hroom
  obtain ⟨q, hblocks, hq, ⟨cs, hcrews, hlen, hcs⟩, hmem, hbmem, hamem⟩ := startBlock_parts (s := u) (l := l) (b := b) (core := core) (off := off) (v := v) (seats := seats)
  refine ⟨_, hrun, ⟨q, hblocks, hq.launch, hq.blockId, hq.core, hq.vcore, hq.place, hq.bmOff, hq.bmLen, hq.itrange, hq.arr, hq.barP, cs, hcrews, hlen, fun c hc => ?_⟩, hmem, hbmem, hamem⟩
  have h := hcs c hc
  exact ⟨h.blk, h.ctx, h.core, h.n, h.slot, h.other, h.depth, h.regs, h.queues, h.mode, h.ocnt, h.rng, h.live⟩

/-! ## Retirement -/

theorem crewRetire_eq {s : State} {id : Nat} {c0 : Crew} (h : s.crew? id = some c0) :
    exec (.crewRetire id) s = .next (if !(settle s c0).retired ∧ (settle s c0).a.st = .free ∧ (settle s c0).b.st = .free ∧ (settle s c0).depth = 0 ∧
        (settle s c0).stall.isNone ∧ (settle s c0).unwinding.isNone ∧ (List.range 4).all (fun k => (settle s c0).count k == 0) then
      s.modCrew id (fun _ => { stopFlights s (settle s c0) with
        retired := true
        narr := (settle s c0).arrived }) else s) := by
  show execCrewRetire id s = _
  unfold execCrewRetire
  rw [h]
  exact (apply_ite _ _ _ _).symm

theorem crewRetireEvent {s : State} {id : Nat} {c0 : Crew} (h : s.crew? id = some c0) :
    let c := settle s c0
    let ended := c.retired = false ∧ c.a.st = .free ∧ c.b.st = .free ∧ c.depth = 0 ∧ c.stall = none ∧ c.unwinding = none ∧ ∀ k, k < 4 → c.count k = 0
    (ended → exec (.crewRetire id) s = .next { s with
      crews := s.crews.map (fun x => if x.id == id then { stopFlights s c with retired := true, narr := c.arrived } else x) }) ∧
    (¬ ended → exec (.crewRetire id) s = .next s) := by
  intro c ended
  have hiff : (!c.retired ∧ c.a.st = .free ∧ c.b.st = .free ∧ c.depth = 0 ∧ c.stall.isNone ∧ c.unwinding.isNone ∧
      (List.range 4).all (fun k => c.count k == 0)) ↔ ended := by
    simp only [Bool.not_eq_true', Option.isNone_iff_eq_none, List.all_eq_true, List.mem_range, beq_iff_eq, ended]
  rw [crewRetire_eq h]
  exact ⟨fun he => congrArg Host.Outcome.next (if_pos (hiff.mpr he)), fun he => congrArg Host.Outcome.next (if_neg fun h => he (hiff.mp h))⟩

/-- A launch counts a block that has retired. -/
def counted (l : Launch) : Launch := { l with retired := l.retired + 1 }

/-- The state after a block has gone, before its launch's completion writes. -/
def blockGone (s : State) (b : Block) : State :=
  let r := s.release.handLead b
  { r with
    blocks := r.blocks.filter (fun q => q.id ≠ b.id)
    crews := r.crews.filter (fun c => c.blk ≠ b.id)
    spills := r.spills.filter (fun p => p.1 ≠ b.id)
    saved := r.saved.filter (fun x => x.blk ≠ b.id)
    launches := r.launches.map (fun (k : Launch) => if k.id == b.launch then counted k else k) }

theorem handLead_frame (s : State) (b : Block) : s.handLead b = { s with blocks := (s.handLead b).blocks } := by
  unfold State.handLead
  dsimp only
  split
  · rfl
  · split <;> rfl

theorem blockGone_bmem (s : State) (b : Block) : (blockGone s b).bmem = s.bmem := by
  unfold blockGone
  dsimp only
  rw [handLead_frame]
  exact (release_mainStep s).2

theorem blockGone_launches (s : State) (b : Block) :
    (blockGone s b).launches = s.launches.map (fun (k : Launch) => if k.id == b.launch then counted k else k) := by
  unfold blockGone
  dsimp only
  rw [handLead_frame]
  dsimp only
  rw [MemStep.launches (release_memStep s)]

section Blocks

variable {s : State} {b : Block} {l : Launch}

theorem blockGone_launch (hl : s.launch? b.launch = some l) : (blockGone s b).launch? b.launch = some (counted l) := by
  unfold State.launch? at hl ⊢
  rw [blockGone_launches, List.find?_map]
  have hid : (fun k : Launch => k.id == b.launch) ∘ (fun k : Launch => if k.id == b.launch then counted k else k) = fun k : Launch => k.id == b.launch := by
    funext k
    by_cases hk : (k.id == b.launch) = true
    · rw [Function.comp_apply, if_pos hk] <;> rfl
    · rw [Function.comp_apply, if_neg hk]
  rw [hid, hl]
  exact congrArg some (if_pos (List.find?_some (p := fun k : Launch => k.id == b.launch) hl))

/-- A launch counts a block that has retired and adds the completion writes that this brings about. -/
def retireOne (b : Block) (k : Launch) : Launch :=
  { counted k with
    writes := k.writes ++ (if bitOf (k.w 24) 31 then [(0, b.blockId)] else []) ++
      (if k.retired + 1 = k.nblocks ∧ bitOf (k.w 26) 31 then [(1, 0)] else []) }

theorem retireOne_quiet (hbit : bitOf (l.w 24) 31 = false) (hflag : bitOf (l.w 26) 31 = false) : retireOne b l = counted l := by
  unfold retireOne
  rw [hbit, hflag, if_neg Bool.false_ne_true, if_neg fun h => Bool.false_ne_true h.2, List.append_nil, List.append_nil]
  rfl

theorem blockRetire_eq (hb : s.block? b.id = some b) (hplace : b.place = 0) (hl : s.launch? b.launch = some l)
    (honly : ∀ k ∈ s.launches, k.id = b.launch → k = l) (hdone : (s.crewsOf b.id).all (fun c => c.retired) = true)
    (hbit : bitOf (l.w 24) 31 = false) (hflag : bitOf (l.w 26) 31 = false) (hwrites : l.writes = []) :
    exec (.blockRetire b.id) s = .next ((State.launchWrites 1 (blockGone s b) b.launch).checkLent b.core (s.lentBytes b.core)) := by
  have hcount : (s.release.handLead b).launches.map (fun k : Launch => if k.id == b.launch then retireOne b k else k) =
      (s.release.handLead b).launches.map (fun k : Launch => if k.id == b.launch then counted k else k) := by
    refine List.map_congr_left fun k hk => ?_
    by_cases hkid : (k.id == b.launch) = true
    · rw [handLead_frame] at hk
      have hkl : k = l := honly k (by rw [← MemStep.launches (release_memStep s)]; exact hk) (by simpa using hkid)
      rw [if_pos hkid, if_pos hkid, hkl, retireOne_quiet hbit hflag]
    · rw [if_neg hkid, if_neg hkid]
  have hstate : ({ s.release.handLead b with
      blocks := (s.release.handLead b).blocks.filter (fun q => q.id ≠ b.id)
      crews := (s.release.handLead b).crews.filter (fun c => c.blk ≠ b.id)
      spills := (s.release.handLead b).spills.filter (fun p => p.1 ≠ b.id)
      saved := (s.release.handLead b).saved.filter (fun x => x.blk ≠ b.id) } : State).modLaunch b.launch (retireOne b) = blockGone s b := by
    unfold State.modLaunch blockGone
    dsimp only
    rw [hcount]
  show execBlockRetire b.id s = _
  unfold execBlockRetire
  rw [hb]
  dsimp only
  rw [if_neg (by rw [hdone]; simp [hplace])]
  have hgone : ∀ m : State, m = blockGone s b →
      Host.Outcome.next (φ := Fault) (ρ := Refusal) ((State.launchWrites (((m.launch? b.launch).map (fun l => l.writes.length)).getD 0 + 1) m b.launch).checkLent b.core (s.lentBytes b.core)) =
        .next ((State.launchWrites 1 (blockGone s b) b.launch).checkLent b.core (s.lentBytes b.core)) := by
    intro m hm
    rw [hm, blockGone_launch hl, show ((some (counted l)).map (fun l => l.writes.length)).getD 0 = l.writes.length from rfl, hwrites]
    rfl
  exact hgone _ hstate

theorem checkLent_frame (s : State) (core old : Nat) : s.checkLent core old = { s with cores := (s.checkLent core old).cores } := by
  unfold State.checkLent
  dsimp only
  split <;> rfl

theorem launchWrites_pending {m : State} {k : Launch} {id : Nat} (hk : m.launch? id = some k) (hhold : k.hold = none) (hst : k.st = 2) (hwrites : k.writes = [])
    (hmore : k.retired < k.nblocks) : State.launchWrites 1 m id = m := by
  unfold State.launchWrites
  rw [hk]
  dsimp only
  rw [if_neg (by rw [hhold, hst]; decide), hwrites]
  exact if_pos hmore

/-- The launches but one, after a change of that one. -/
theorem filter_ne_map (ls : List Launch) (id : Nat) {f : Launch → Launch} (hf : ∀ k, (f k).id = k.id) :
    (ls.map (fun k => if k.id == id then f k else k)).filter (fun k => k.id ≠ id) = ls.filter (fun k => k.id ≠ id) := by
  induction ls with
  | nil => rfl
  | cons k ls ih =>
    rw [List.map_cons]
    by_cases hk : k.id = id
    · rw [if_pos (beq_iff_eq.mpr hk), List.filter_cons_of_neg (by simp [hf, hk]), List.filter_cons_of_neg (by simp [hk]), ih]
    · rw [if_neg (by simpa using hk), List.filter_cons_of_pos (by simpa using hk), List.filter_cons_of_pos (by simpa using hk), ih]

/-- A launch whose last write has been made goes. -/
theorem launchWrites_complete {m : State} {k : Launch} {id : Nat} (hk : m.launch? id = some k) (hhold : k.hold = none) (hst : k.st = 2) (hwrites : k.writes = [])
    (hlast : k.nblocks ≤ k.retired) : let t := State.launchWrites 1 m id
      t.blocks = m.blocks ∧ t.crews = m.crews ∧ t.launches = m.launches.filter (fun k => k.id ≠ id) ∧ t.bmem = m.bmem := by
  unfold State.launchWrites
  rw [hk]
  dsimp only
  rw [if_neg (by rw [hhold, hst]; decide), hwrites]
  dsimp only
  rw [if_neg (Nat.not_lt.mpr hlast)]
  obtain ⟨hstep, hbmem⟩ := setLaunch_mainStep (m.modLaunch id (fun l => { l with late := l.late || m.expired l })) id 4
  have hblocks := MemStep.blocks hstep
  have hcrews := MemStep.crews hstep
  have hlaunches := MemStep.launches hstep
  refine ⟨hblocks, hcrews, ?_, hbmem⟩
  refine (congrArg (List.filter (fun k : Launch => k.id ≠ id)) hlaunches).trans ?_
  exact (filter_ne_map _ id (f := fun l => { l with st := 4 }) fun _ => rfl).trans
    (filter_ne_map _ id (f := fun l => { l with late := l.late || m.expired l }) fun _ => rfl)

end Blocks

theorem retireEvents : RetireEvents := by
  refine ⟨fun s id c0 h => crewRetireEvent h, fun s b l hb hl hplace honly => ⟨fun ⟨c, hc, hblk, hlive⟩ => ?_, fun hdone hbit hflag hwrites hhold hst => ?_⟩⟩
  · show execBlockRetire b.id s = _
    unfold execBlockRetire
    rw [hb]
    refine if_pos (.inr ?_)
    rw [Bool.not_eq_true', List.all_eq_false]
    exact ⟨c, List.mem_filter.mpr ⟨hc, by simpa using hblk⟩, by rw [hlive]; exact Bool.false_ne_true⟩
  · have hall : (s.crewsOf b.id).all (fun c => c.retired) = true := by
      rw [List.all_eq_true]
      intro c hc
      obtain ⟨hc, hblk⟩ := List.mem_filter.mp hc
      exact hdone c hc (by simpa using hblk)
    have hrun := blockRetire_eq hb hplace hl honly hall hbit hflag hwrites
    have hlaunch := blockGone_launch hl
    intro r m
    refine ⟨fun hmore => ⟨_, hrun, ?_⟩, fun hlast => ?_⟩
    · rw [launchWrites_pending hlaunch hhold hst hwrites hmore]
      rfl
    · obtain ⟨hblocks, hcrews, hlaunches, hbmem⟩ := launchWrites_complete hlaunch hhold hst hwrites (Nat.le_of_eq hlast.symm)
      refine ⟨_, hrun, ?_⟩
      rw [checkLent_frame]
      exact ⟨hblocks, hcrews, hlaunches, hbmem.trans (blockGone_bmem s b)⟩

/-- Settles O43: each event of the stakeboat from the equation of its own step. -/
theorem launchEvents : Obligations.LaunchEvents := ⟨admissionEvents, placementEvent, retireEvents⟩

end Sys2Proof.Proofs.LaunchRows
end

