-- ==== Sys2Proof/Proofs/CoxEventRows.lean ====
section
/-!
PROOF. Proofs/CoxEventRows.lean: what happens to cox contexts beside their instructions: waits and time limits, starts, and the driver's writes
(14 R301 to R305, R324 to R332; 23 R418).
-/

namespace Sys2Proof.Proofs.CoxEventRows

open Sys2Proof Sys2Proof.Machine Sys2Proof.Claims Sys2Proof.Proofs.CausesAndRecords Sys2Proof.Proofs.CoxSequenceRows Sys2Proof.Proofs.CoxControlRows

/-! ## Instruction memory (R301) -/

theorem word_cons (a w : Nat) (v : DWord) (l : List (Nat × DWord)) (c : CoxSt) :
    CoxSt.word { c with imem := (a, v) :: l } w = if a = w then v else CoxSt.word { c with imem := l } w := by
  unfold CoxSt.word
  by_cases h : a = w
  · simp [h]
  · simp [h]

/-- A word that lies before every listed one is zero. -/
theorem word_of_lt {l : List (Nat × DWord)} {w : Nat} (c : CoxSt) (h : ∀ p ∈ l, w < p.1) : CoxSt.word { c with imem := l } w = 0#64 := by
  have hnone : l.find? (fun p => p.1 == w) = none := by
    rw [List.find?_eq_none]
    intro p hp
    simpa using Nat.ne_of_gt (h p hp)
  unfold CoxSt.word
  dsimp only
  rw [hnone]

/-- A word written is the word read; the other words are as before. -/
theorem word_setWord (c : CoxSt) (w : Nat) (v : DWord) : ∀ l : List (Nat × DWord), l.Pairwise (fun p q => p.1 < q.1) → ∀ a,
    CoxSt.word { c with imem := setWord l w v } a = if a = w then v else CoxSt.word { c with imem := l } a
  | [], _, a => by
    unfold setWord
    by_cases hv : v = 0#64
    · rw [if_pos hv, hv]
      split <;> rfl
    · rw [if_neg hv, word_cons]
      exact if_congr eq_comm rfl rfl
  | (k, b) :: r, hl, a => by
    rw [List.pairwise_cons] at hl
    obtain ⟨hk, hr⟩ := hl
    have ih := word_setWord c w v r hr a
    unfold setWord
    by_cases hlt : w < k
    · rw [if_pos hlt]
      by_cases hv : v = 0#64
      · rw [if_pos hv]
        split
        · next haw =>
          rw [hv, haw]
          refine word_of_lt c (fun p hp => ?_)
          rcases List.mem_cons.mp hp with rfl | hp
          · exact hlt
          · exact hlt.trans (hk p hp)
        · rfl
      · rw [if_neg hv, word_cons]
        exact if_congr eq_comm rfl rfl
    · rw [if_neg hlt]
      by_cases hwk : w = k
      · subst hwk
        rw [if_pos rfl]
        by_cases hv : v = 0#64
        · rw [if_pos hv, word_cons]
          split
          · next haw => rw [hv, haw, word_of_lt c hk]
          · next haw => rw [if_neg (Ne.symm haw)]
        · rw [if_neg hv, word_cons, word_cons]
          by_cases haw : a = w
          · rw [if_pos haw.symm, if_pos haw]
          · rw [if_neg (Ne.symm haw), if_neg haw, if_neg (Ne.symm haw)]
      · rw [if_neg hwk, word_cons, word_cons, ih]
        by_cases hak : k = a
        · rw [if_pos hak, if_pos hak, if_neg (fun h => hwk (h.symm.trans hak.symm))]
        · rw [if_neg hak, if_neg hak]

/-! ## Waits and time limits (R324, R327, R328) -/

section Waits

variable {s : State} {port k : Nat} {sd : CoxSend}

theorem spinFault_eq (s : State) (port : Nat) : exec (.coxSpinFault port) s = .next
    (if (s.coxSlot port (s.cox port).cur).st = 2 ∧ 65536 ≤ (s.coxSlot port (s.cox port).cur).spin then (fresh s).coxFault port (s.cox port).cur 0x0F 5 0 0
      else fresh s) := rfl

/-- The refused packets of a waiting context go out again. -/
def sentAgain (s : State) (port k : Nat) : State :=
  match (s.coxSlot port k).send with
  | none => s
  | some sd =>
    if sd.again.isEmpty || sd.fail.isSome then s
    else (s.modSlot port k (fun x => { x with send := some { sd with again := [] } })).coxEmit port k (s.coxSlot port k) sd sd.again

/-- A hold on a link key is entered or left. -/
def keyLooked (s : State) (port k : Nat) : State :=
  match (s.coxSlot port k).send with
  | none => s
  | some sd =>
    match s.coxKeyPort sd, (s.coxSlot port k).why with
    | some _, 1 =>
      let t := if sd.keyed then s else s.coxRecord port k 0x18 0 0 0
      t.modSlot port k (fun x => { x with why := 4, send := some { sd with keyed := true, refused := sd.measured t.clock.toNat, since := none } })
    | none, 4 => s.modSlot port k (fun x => { x with why := 1, send := some { sd with keyed := false } })
    | _, _ => s

/-- A context whose condition is met is READY. -/
def readied (s : State) (port k : Nat) : State := if coxMet s port k then s.modSlot port k (fun x => { x with st := 1, why := 0 }) else s

theorem waitSatisfied_eq (s : State) (port k : Nat) : exec (.coxWaitSatisfied port k) s =
    if (s.coxSlot port k).st ≠ 3 then .next (fresh s) else .next (readied (keyLooked (sentAgain (fresh s) port k) port k) port k) := rfl

theorem sentAgain_of_no_send (h : (s.coxSlot port k).send = none) : sentAgain s port k = s := by
  unfold sentAgain
  rw [h]

theorem sentAgain_of_nothing (hsend : (s.coxSlot port k).send = some sd) (hagain : sd.again = []) : sentAgain s port k = s := by
  have hnothing : (sd.again.isEmpty || sd.fail.isSome) = true := by
    rw [hagain]
    rfl
  unfold sentAgain
  rw [hsend]
  exact if_pos hnothing

theorem keyLooked_of_no_send (h : (s.coxSlot port k).send = none) : keyLooked s port k = s := by
  unfold keyLooked
  rw [h]

theorem keyLooked_of_no_key (hsend : (s.coxSlot port k).send = some sd) (hwhy : (s.coxSlot port k).why = 1) (hkey : s.coxKeyPort sd = none) :
    keyLooked s port k = s := by
  unfold keyLooked
  rw [hsend]
  dsimp only
  rw [hkey, hwhy] <;> rfl

theorem coxMet_of_send (hwhy : (s.coxSlot port k).why = 1) (hsend : (s.coxSlot port k).send = some sd) :
    coxMet s port k = (sd.left.isEmpty || sd.fail.isSome) := by
  unfold coxMet
  dsimp only
  rw [hwhy, hsend]
  rfl

theorem coxMet_of_key (hwhy : (s.coxSlot port k).why = 4) : coxMet s port k = false := by
  unfold coxMet
  dsimp only
  rw [hwhy] <;> rfl

theorem coxMet_of_chunk {w : CoxWin} (hwhy : (s.coxSlot port k).why = 2)
    (hw : (s.coxSlot port k).win (FormCC.ofWord ((s.cox port).word (s.coxSlot port k).pc)).wtag.toNat = w) (hfva : w.fva = none) (hpoison : w.poison = false) :
    coxMet s port k = true ↔ 2 ^ ((s.coxSlot port k).buf w.buf).lch ≤ w.landed := by
  unfold coxMet
  dsimp only
  rw [hwhy]
  show ((_ || _) || _) = true ↔ _
  rw [hw, hfva, hpoison, Option.isSome_none, Bool.false_or, Bool.false_or, decide_eq_true_iff]

theorem coxRecord_clock (s : State) (port k code sub va trap : Nat) : (s.coxRecord port k code sub va trap).clock = s.clock := by
  unfold State.coxRecord
  rw [postRecord_postStep]

/-- A send held on a link key waits for it, with its record made once and its refusal time stopped. -/
theorem waitSatisfied_of_key {q : Nat} (hst : (s.coxSlot port k).st = 3) (hwhy : (s.coxSlot port k).why = 1) (hsend : (s.coxSlot port k).send = some sd)
    (hagain : sd.again = []) (hkey : (fresh s).coxKeyPort sd = some q) : exec (.coxWaitSatisfied port k) s =
      .next ((if sd.keyed = true then fresh s else (fresh s).coxRecord port k 0x18 0 0 0).modSlot port k (fun x => { x with
        why := 4, send := some { sd with keyed := true, refused := sd.measured s.clock.toNat, since := none } })) := by
  have hlook : keyLooked (fresh s) port k = (if sd.keyed = true then fresh s else (fresh s).coxRecord port k 0x18 0 0 0).modSlot port k (fun x => { x with
      why := 4, send := some { sd with keyed := true, refused := sd.measured s.clock.toNat, since := none } }) := by
    unfold keyLooked
    rw [show ((fresh s).coxSlot port k).send = some sd from hsend, show ((fresh s).coxSlot port k).why = 1 from hwhy]
    dsimp only
    rw [hkey]
    have hclock : (if sd.keyed = true then fresh s else (fresh s).coxRecord port k 0x18 0 0 0).clock = s.clock := by
      split
      · rfl
      · exact coxRecord_clock _ _ _ _ _ _ _
    show State.modSlot _ _ _ _ = _
    rw [hclock]
  have hslot : (if sd.keyed = true then fresh s else (fresh s).coxRecord port k 0x18 0 0 0).coxSlot port k = s.coxSlot port k := by
    split
    · rfl
    · exact coxRecord_coxSlot _ _ _ _ _ _ _ _ _
  rw [waitSatisfied_eq, if_neg (not_not.mpr hst), sentAgain_of_nothing (s := fresh s) hsend hagain, hlook]
  unfold readied
  rw [coxMet_of_key, if_neg Bool.false_ne_true]
  rw [coxSlot_modSlot (by rw [hslot, hst]; decide)]

theorem refusalTimeout_eq (hsend : (s.coxSlot port k).send = some sd) : exec (.coxRefusalTimeout port k) s =
    if (s.coxSlot port k).st ≠ 3 ∨ (s.coxSlot port k).why = 4 ∨ sd.fail.isSome = true ∨ sd.left.isEmpty = true ∨ sd.measured s.clock.toNat < s.fabto.toNat then
      .next (fresh s)
    else .next ((fresh s).modSlot port k (fun x => { x with send := some { sd with fail := some (0x0F, 0, 0) }, st := 1, why := 0 })) := by
  rw [exec_coxRefusalTimeout]
  unfold execCoxRefusalTimeout
  rw [show ({ s with free := s.free + 1 } : State) = fresh s from rfl]
  have hslot : (fresh s).coxSlot port k = s.coxSlot port k := rfl
  dsimp only
  rw [hslot, hsend]
  rfl

end Waits

/-! ## Starts (R326) -/

section Starts

variable {s : State} {port k : Nat} {x : HeldStart} {rest : List HeldStart}

theorem freeSlot_first {p : Nat → Bool} (hk : k < 8) (hp : p k = true) (hbefore : ∀ j, j < k → p j = false) : (List.range 8).find? p = some k := by
  rw [List.find?_range_eq_some]
  exact ⟨hp, List.mem_range.mpr hk, fun j hj => by rw [hbefore j hj]; rfl⟩

theorem coxSlot_modCox_starts (hport : port < s.coxes.length) (l : List HeldStart) (j : Nat) :
    (s.modCox port (fun c => { c with starts := l })).coxSlot port j = s.coxSlot port j := by
  unfold State.modCox State.coxSlot
  dsimp only
  rw [getD_set_self hport]

theorem startSlotFree_eq (hstarts : (s.cox port).starts = x :: rest) : exec (.coxStartSlotFree port) s =
    match (List.range 8).find? (fun k => (s.coxSlot port k).st == 0) with
    | some _ => .next (((fresh s).modCox port (fun c => { c with starts := rest })).startPort port x.entry x.pkt)
    | none => .next (fresh s) := by
  rw [exec_coxStartSlotFree]
  unfold execCoxStartSlotFree
  rw [show ({ s with free := s.free + 1 } : State) = fresh s from rfl]
  have hcox : (fresh s).cox port = s.cox port := rfl
  have hslot : (fun k => ((fresh s).coxSlot port k).st == 0) = fun k => (s.coxSlot port k).st == 0 := rfl
  dsimp only
  rw [hcox, hslot, hstarts]
  cases (List.range 8).find? (fun k => (s.coxSlot port k).st == 0) <;> rfl

/-- A held start takes the first free slot of the port. -/
theorem startSlotFree_takes {r : Nat} (hport : port < s.coxes.length) (hstarts : (s.cox port).starts = x :: rest) (hk : k < 8)
    (hfree : (s.coxSlot port k).st = 0) (hbefore : ∀ j, j < k → (s.coxSlot port j).st ≠ 0)
    (hregion : ((fresh s).modCox port (fun c => { c with starts := rest })).startRegion port x.pkt.hd.ctx x.entry = some r) :
    exec (.coxStartSlotFree port) s = .next (((fresh s).modCox port (fun c => { c with starts := rest })).startTake port k x.entry r x.pkt) := by
  have hfirst : (List.range 8).find? (fun k => (s.coxSlot port k).st == 0) = some k :=
    freeSlot_first hk (by rw [hfree]; rfl) (fun j hj => beq_eq_false_iff_ne.mpr (hbefore j hj))
  rw [startSlotFree_eq hstarts, hfirst]
  dsimp only
  have hslots : (fun k => (((fresh s).modCox port (fun c => { c with starts := rest })).coxSlot port k).st == 0) = fun k => (s.coxSlot port k).st == 0 := by
    funext j
    rw [coxSlot_modCox_starts (show port < (fresh s).coxes.length from hport)]
    rfl
  generalize (fresh s).modCox port (fun c => { c with starts := rest }) = m at hregion hslots ⊢
  unfold State.startPort
  dsimp only
  rw [hregion]
  dsimp only
  rw [hslots, hfirst]

theorem startHoldTimeout_eq (hstarts : (s.cox port).starts = x :: rest) : exec (.coxStartHoldTimeout port) s =
    if s.clock.toNat < x.since + s.fabto.toNat then .next (fresh s)
    else .next (((fresh s).modCox port (fun c => { c with starts := rest })).startDecide x.pkt.hd.src x.pkt.hd.tag x.pkt.hd.ctx 7) := by
  rw [exec_coxStartHoldTimeout]
  unfold execCoxStartHoldTimeout
  rw [show ({ s with free := s.free + 1 } : State) = fresh s from rfl]
  have hcox : (fresh s).cox port = s.cox port := rfl
  dsimp only
  rw [hcox, hstarts]
  rfl

theorem descriptorLoad_eq (hst : (s.coxSlot port k).st = 3) (hwhy : (s.coxSlot port k).why = 5) : exec (.coxDescriptorLoadComplete port k) s =
    let u := fresh s
    let sl := s.coxSlot port k
    match u.readVa sl.asid (port / 8) { r := true, w := false, x := false, space := 0 } 2 sl.dtva 256 with
    | .wait => .next u
    | .xlate f => .next (((u.notePteBad f.bad).coxFree port k).startDecide sl.startSrc sl.startTag sl.ctx 3)
    | .poison => .next ((u.coxFree port k).startDecide sl.startSrc sl.startTag sl.ctx 4)
    | .ok bs => .next ((u.modSlot port k (fun x => { x with
        st := 1, why := 0, bufs := (List.range 16).map (fun i => loadBuf ((bs.drop (16 * i)).take 16) (sl.ht == 0#64)) })).startDecide
          sl.startSrc sl.startTag sl.ctx 0) := by
  rw [exec_coxDescriptorLoadComplete]
  unfold execCoxDescriptorLoadComplete
  rw [show ({ s with free := s.free + 1 } : State) = fresh s from rfl]
  have hslot : (fresh s).coxSlot port k = s.coxSlot port k := rfl
  dsimp only
  rw [hslot, if_neg (by rw [hst, hwhy]; decide)]
  rfl

end Starts

theorem coxWaitEvents : CoxWaitEvents := by
  intro s port k hhas u sl ready
  refine ⟨fun hcur => ⟨fun hst hspin => ?_, fun hno => ?_⟩, fun hst => ?_, fun hst hsend => ?_, fun hst hwhy sd hsend hagain hkey => ?_,
    fun hst hwhy sd q hsend hagain hkey => ?_, fun hwhy => ?_, fun sd hsend hst hfail hleft => ⟨fun hlt => ?_, fun hwhy => ?_, fun hwhy hle => ?_⟩,
    fun x rest hstarts => ?_, fun hst hwhy bs hread => ?_,
    fun hst hwhy f hread => ?_⟩
  · rw [spinFault_eq, hcur, if_pos ⟨hst, hspin⟩]
  · rw [spinFault_eq, hcur, if_neg (fun h => hno.elim (fun h' => h' h.1) (fun h' => absurd h.2 (not_le.mpr h')))]
  · rw [waitSatisfied_eq, if_pos hst]
  · rw [waitSatisfied_eq, if_neg (not_not.mpr hst), sentAgain_of_no_send (s := fresh s) hsend, keyLooked_of_no_send (s := fresh s) hsend]
    rfl
  · rw [waitSatisfied_eq, if_neg (not_not.mpr hst), sentAgain_of_nothing (s := fresh s) hsend hagain, keyLooked_of_no_key (s := fresh s) hsend hwhy hkey]
    unfold readied
    rw [coxMet_of_send (s := fresh s) hwhy hsend]
    refine congrArg Host.Outcome.next (if_congr ?_ rfl rfl)
    rw [Bool.or_eq_true, List.isEmpty_iff]
  · exact waitSatisfied_of_key hst hwhy hsend hagain hkey
  · intro w hfva hpoison
    exact coxMet_of_chunk (s := fresh s) hwhy rfl hfva hpoison
  · rw [refusalTimeout_eq hsend, if_pos (.inr (.inr (.inr (.inr hlt))))]
  · rw [refusalTimeout_eq hsend, if_pos (.inr (.inl hwhy))]
  · have hst' : (s.coxSlot port k).st = 3 := hst
    rw [refusalTimeout_eq hsend, if_neg]
    rintro (h | h | h | h | h)
    · exact h hst'
    · exact hwhy h
    · rw [hfail] at h
      exact Bool.false_ne_true h
    · exact hleft (List.isEmpty_iff.mp h)
    · exact absurd h (not_lt.mpr hle)
  · intro m
    refine ⟨fun hk hfree hbefore r hregion => startSlotFree_takes hhas.1 hstarts hk hfree hbefore hregion, fun hfull => ?_, fun hlt => ?_, fun hle => ?_⟩
    · have hnone : (List.range 8).find? (fun k => (s.coxSlot port k).st == 0) = none := by
        rw [List.find?_eq_none]
        intro j hj
        simpa using hfull j (List.mem_range.mp hj)
      rw [startSlotFree_eq hstarts, hnone]
    · rw [startHoldTimeout_eq hstarts, if_pos hlt]
    · rw [startHoldTimeout_eq hstarts, if_neg (not_lt.mpr hle)]
  · rw [descriptorLoad_eq hst hwhy]
    dsimp only
    rw [show (fresh s).readVa (s.coxSlot port k).asid (port / 8) { r := true, w := false, x := false, space := 0 } 2 (s.coxSlot port k).dtva 256 = .ok bs from hread]
  · rw [descriptorLoad_eq hst hwhy]
    dsimp only
    rw [show (fresh s).readVa (s.coxSlot port k).asid (port / 8) { r := true, w := false, x := false, space := 0 } 2 (s.coxSlot port k).dtva 256 = .xlate f from hread]

/-! ## The driver's writes (R301, R302, R305, R331, R332, R418) -/

section Writes

variable {s : State} {port k : Nat}

theorem exec_closed {e : Instr} (he : ∃ t, exec e s = if (!s.hostOpen) = true then .next (fresh s) else t) (h : s.hostOpen = false) :
    exec e s = .next (fresh s) := by
  obtain ⟨t, ht⟩ := he
  rw [ht, h]
  rfl

theorem instructionMemoryWrite_eq (port w : Nat) (v : BitVec 64) (s : State) : exec (.coxInstructionMemoryWrite port w v) s =
    if (!s.hostOpen) = true then .next (fresh s)
    else if 32 ≤ port ∨ 4096 ≤ w ∨ (List.range 8).any (fun i => regionHas ((s.cox port).reg i) w) = true then .next (fresh s)
    else .next ((fresh s).modCox port (fun c => { c with imem := setWord c.imem w v })) := rfl

theorem regionWrite_eq (port i : Nat) (v : BitVec 64) (s : State) : exec (.coxRegionWrite port i v) s =
    if (!s.hostOpen) = true then .next (fresh s)
    else if 32 ≤ port ∨ 8 ≤ i ∨ (s.cox port).slots.any (fun x => x.st ≠ 0 && x.region == i) = true ∨
        ((((fresh s).sealedBy (bitsOf ((s.cox port).reg i) 47 32)).isSome || (bitOf v.toNat 63 && ((fresh s).sealedBy (bitsOf v.toNat 47 32)).isSome)) = true) then
      .next (fresh s)
    else .next ((fresh s).modCox port (fun c => { c with regions := c.regions.set i (v &&& 0x8000FFFF0FFF0FFF#64) })) := rfl

theorem slotStateWrite_eq (port k r : Nat) (v : BitVec 64) (s : State) : exec (.coxSlotStateWrite port k r v) s =
    if (!s.hostOpen) = true then .next (fresh s)
    else if (s.coxSlot port k).st ≠ 4 then .next (fresh s)
    else if r < 16 then .next ((fresh s).modSlot port k (fun x => { x with regs := x.regs.set r v }))
    else if r = 16 then .next ((fresh s).modSlot port k (fun x => { x with pc := v.toNat % 4096 }))
    else .next (fresh s) := rfl

theorem startGo_eq (i group : Nat) (s : State) : exec (.startGo i group) s =
    if (!s.hostOpen) = true then .next (fresh s)
    else if 8 ≤ i ∨ (s.startSlots.getD i StartSlot.reset).busy = true then .next (fresh s)
    else
      let t := (fresh s).modStart i (fun x => { x with group := group })
      if (!(s.grp group).v) = true ∨ (s.grp group).root ≠ s.own then .next (t.modStart i (fun x => { x with stat := 1 }))
      else if s.mgmt.stage = 2 then .next (t.modStart i (fun x => { x with stat := 7 }))
      else
        let h : Hd := { Hd.mk0 (fresh s) s.own 11 (s.grp group).ctx (s.order % 65536) with group := group, seq := (s.grp group).seq, nent := 1, ents := [entFan] }
        let m := { t with order := s.order + 1 }.modStart i (fun x =>
          { x with busy := true, stat := 0, seq := (s.grp group).seq, tag := s.order % 65536, waiting := (s.grp group).members, since := s.clock.toNat })
        .next (m.route 32 (Packet.mk0 h (s.startSlots.getD i StartSlot.reset).data)) := rfl

theorem ctlResume_eq (port k : Nat) (s : State) :
    exec (.ctlResume port k) s = .next (if s.hostOpen = true then (fresh s).coxResume port k false else fresh s) := rfl

theorem ctlStep_eq (port k : Nat) (s : State) :
    exec (.ctlStep port k) s = .next (if s.hostOpen = true then (fresh s).coxResume port k true else fresh s) := rfl

theorem ctlKill_eq (port k : Nat) (s : State) :
    exec (.ctlKill port k) s = .next (if s.hostOpen = true then (fresh s).coxKill port k else fresh s) := rfl

/-- With no packet held for its slot, a context that resumes lands nothing again. -/
theorem coxResume_of_no_hold (step : Bool) (hst : (s.coxSlot port k).st = 4) (hholds : ∀ h ∈ (s.cox port).holds, h.slot ≠ k) :
    s.coxResume port k step = s.modSlot port k (fun x => { x with st := 1, step := step, spin := 0 }) := by
  have hport : port < s.coxes.length := (slot_exists (by rw [hst]; decide)).1
  unfold State.coxResume
  rw [if_neg (not_not.mpr hst)]
  generalize hm : s.modSlot port k (fun x => { x with st := 1, step := step, spin := 0 }) = m
  have hsame : (m.cox port).holds = (s.cox port).holds := by
    rw [← hm]
    unfold State.modSlot State.modCox State.cox
    dsimp only
    rw [getD_set_self hport]
  have hnone : (m.cox port).holds.filter (fun (x : CoxHold) => x.slot == k) = [] := by
    rw [hsame, List.filter_eq_nil_iff]
    intro x hx
    simpa using hholds x hx
  unfold State.coxReland
  rw [hnone]
  rfl

/-- A slot that is freed stands as after reset; memory and crews do not notice. -/
theorem coxFree_parts (hport : port < s.coxes.length) (hk : k < (s.coxes.getD port CoxSt.reset).slots.length) :
    (s.coxFree port k).coxSlot port k = CoxSlot.free ∧ (s.coxFree port k).mem = s.mem ∧ (s.coxFree port k).crews = s.crews := by
  unfold State.coxFree
  extract_lets t m
  have ht : t = { s with outq := t.outq } := by
    show (match (s.coxSlot port k).send with | some sd => _ | none => _) = _
    cases hsend : (s.coxSlot port k).send <;> simp only [t, hsend]
  have hcoxes : t.coxes = s.coxes := (congrArg State.coxes ht).trans rfl
  have hmem : t.mem = s.mem := (congrArg State.mem ht).trans rfl
  have hcrews : t.crews = s.crews := (congrArg State.crews ht).trans rfl
  clear_value t
  have hlen : port < t.coxes.length := by
    rw [hcoxes]
    exact hport
  refine ⟨?_, hmem, hcrews⟩
  show State.coxSlot (m.modSlot port k (fun _ => CoxSlot.free)) port k = _
  unfold State.modSlot State.coxSlot
  show ((List.set (t.coxes.set port _) port _).getD port CoxSt.reset).slots.getD k CoxSlot.free = _
  rw [List.set_set, getD_set_self hlen]
  refine getD_set_self ?_
  show k < ((t.coxes.set port _).getD port CoxSt.reset).slots.length
  rw [getD_set_self hlen, hcoxes]
  exact hk

theorem modStart_modStart {i : Nat} (s : State) (f g : StartSlot → StartSlot) (h : i < s.startSlots.length) :
    (s.modStart i f).modStart i g = s.modStart i (fun x => g (f x)) := by
  unfold State.modStart
  dsimp only
  rw [getD_set_self h, List.set_set]

theorem modStart_order (s : State) (i n : Nat) (f : StartSlot → StartSlot) :
    ({ s.modStart i f with order := n } : State) = ({ s with order := n } : State).modStart i f := rfl

theorem startWindowTimeout_eq (i : Nat) (s : State) : exec (.startWindowTimeout i) s =
    if (!(s.startSlots.getD i StartSlot.reset).busy) = true ∨ s.clock.toNat < (s.startSlots.getD i StartSlot.reset).since + s.fabto.toNat then .next (fresh s)
    else .next ((fresh s).modStart i (fun x => { x with busy := false, waiting := [], stat := if x.stat = 0 then 7 else x.stat })) := rfl

end Writes

theorem closed_events (s : State) (port k : Nat) (h : s.hostOpen = false) : ∀ w v i, ∀ e ∈ ([.coxInstructionMemoryWrite port w v, .coxRegionWrite port i v,
    .coxSlotStateWrite port k w v, .ctlResume port k, .ctlStep port k, .ctlKill port k, .startGo i w] : List Instr), exec e s = .next (fresh s) := by
  intro w v i
  simp only [List.forall_mem_cons, instructionMemoryWrite_eq, regionWrite_eq, slotStateWrite_eq, ctlResume_eq, ctlStep_eq, ctlKill_eq, startGo_eq, h]
  simp

theorem instructionMemory_events {s : State} {port : Nat} (hopen : s.hostOpen = true) (hport : port < 32) (hlen : port < s.coxes.length) (w : Nat)
    (v : BitVec 64) : (w < 4096 → (∀ i, i < 8 → regionHas ((s.cox port).reg i) w = false) → (s.cox port).imem.Pairwise (fun p q => p.1 < q.1) →
      Answers (exec (.coxInstructionMemoryWrite port w v) s) (fun t => t = { fresh s with coxes := t.coxes } ∧ (t.cox port).word w = v ∧
        (∀ a, a ≠ w → (t.cox port).word a = (s.cox port).word a) ∧ (t.cox port).slots = (s.cox port).slots)) ∧
    ((∃ i, i < 8 ∧ regionHas ((s.cox port).reg i) w = true) → exec (.coxInstructionMemoryWrite port w v) s = .next (fresh s)) := by
  have hhost : ¬ (!s.hostOpen) = true := by
    rw [hopen]
    decide
  rw [instructionMemoryWrite_eq, if_neg hhost]
  constructor
  · intro hw hout hsorted
    have hno : ¬ (32 ≤ port ∨ 4096 ≤ w ∨ (List.range 8).any (fun i => regionHas ((s.cox port).reg i) w) = true) := by
      rintro (h | h | h)
      · omega
      · omega
      · obtain ⟨i, hi, hreg⟩ := List.any_eq_true.mp h
        rw [hout i (List.mem_range.mp hi)] at hreg
        exact Bool.false_ne_true hreg
    rw [if_neg hno]
    have hcox : ((fresh s).modCox port (fun c => { c with imem := setWord c.imem w v })).cox port = { s.cox port with imem := setWord (s.cox port).imem w v } := by
      unfold State.modCox State.cox
      dsimp only
      exact getD_set_self hlen
    have hword := word_setWord (s.cox port) w v (s.cox port).imem hsorted
    refine ⟨_, rfl, rfl, ?_, fun a ha => ?_, ?_⟩
    · rw [hcox, hword, if_pos rfl]
    · rw [hcox, hword, if_neg ha]
    · rw [hcox]
  · rintro ⟨i, hi, hreg⟩
    exact if_pos (.inr (.inr (List.any_eq_true.mpr ⟨i, List.mem_range.mpr hi, hreg⟩)))

theorem region_events {s : State} {port : Nat} (hopen : s.hostOpen = true) (hport : port < 32) (i : Nat) (v : BitVec 64) (hi : i < 8) :
    ((∃ d, (fresh s).sealedBy (bitsOf ((s.cox port).reg i) 47 32) = some d ∨ (bitOf v.toNat 63 = true ∧ (fresh s).sealedBy (bitsOf v.toNat 47 32) = some d)) →
      exec (.coxRegionWrite port i v) s = .next (fresh s)) ∧
    ((fresh s).sealedBy (bitsOf ((s.cox port).reg i) 47 32) = none → (bitOf v.toNat 63 = true → (fresh s).sealedBy (bitsOf v.toNat 47 32) = none) →
      ((∃ x ∈ (s.cox port).slots, x.st ≠ 0 ∧ x.region = i) → exec (.coxRegionWrite port i v) s = .next (fresh s)) ∧
      ((∀ x ∈ (s.cox port).slots, x.st = 0 ∨ x.region ≠ i) →
        exec (.coxRegionWrite port i v) s = .next ((fresh s).modCox port (fun c => { c with regions := c.regions.set i (v &&& 0x8000FFFF0FFF0FFF#64) })))) := by
  have hhost : ¬ (!s.hostOpen) = true := by
    rw [hopen]
    decide
  rw [regionWrite_eq, if_neg hhost]
  constructor
  · rintro ⟨d, hd | ⟨hv, hd⟩⟩
    · exact if_pos (.inr (.inr (.inr (by rw [hd]; rfl))))
    · exact if_pos (.inr (.inr (.inr (by rw [hv, hd, Option.isSome_some, Bool.and_self, Bool.or_true]))))
  · intro hold hnew
    constructor
    · rintro ⟨x, hx, hst, hreg⟩
      exact if_pos (.inr (.inr (.inl (List.any_eq_true.mpr ⟨x, hx, by simp [hst, hreg]⟩))))
    · intro hall
      refine if_neg ?_
      rintro (h | h | h | h)
      · omega
      · omega
      · obtain ⟨x, hx, hbusy⟩ := List.any_eq_true.mp h
        rw [Bool.and_eq_true, decide_eq_true_iff, beq_iff_eq] at hbusy
        exact (hall x hx).elim hbusy.1 (fun hne => hne hbusy.2)
      · rw [hold, Option.isSome_none, Bool.false_or, Bool.and_eq_true] at h
        rw [hnew h.1] at h
        exact Bool.false_ne_true h.2

/-- A write to a start slot that is not busy. -/
theorem startGo_events {s : State} (hopen : s.hostOpen = true) (i group : Nat) (hi : i < 8) (hlen : i < s.startSlots.length)
    (hidle : (s.startSlots.getD i StartSlot.reset).busy = false) :
    let u := fresh s
    let g := s.grp group
    let x := s.startSlots.getD i StartSlot.reset
    (g.v = false ∨ g.root ≠ s.own → exec (.startGo i group) s = .next (u.modStart i (fun y => { y with group := group, stat := 1 }))) ∧
    (g.v = true → g.root = s.own → s.mgmt.stage ≠ 2 →
      let h : Hd := { Hd.mk0 u s.own 11 g.ctx (s.order % 65536) with group := group, seq := g.seq, nent := 1, ents := [entFan] }
      exec (.startGo i group) s = .next (({ u with order := s.order + 1 }.modStart i (fun y =>
        { y with group := group, busy := true, stat := 0, seq := g.seq, tag := s.order % 65536, waiting := g.members, since := s.clock.toNat })).route 32
          (Packet.mk0 h x.data))) := by
  intro u g x
  have hhost : ¬ (!s.hostOpen) = true := by
    rw [hopen]
    decide
  have hfree : ¬ (8 ≤ i ∨ (s.startSlots.getD i StartSlot.reset).busy = true) := by
    rw [hidle]
    rintro (h | h)
    · omega
    · exact Bool.false_ne_true h
  rw [startGo_eq, if_neg hhost, if_neg hfree]
  constructor
  · intro hbad
    rw [if_pos (hbad.imp (fun (h : (s.grp group).v = false) => by rw [h]; rfl) id), modStart_modStart _ _ _ (show i < (fresh s).startSlots.length from hlen)]
  · intro hv hroot hstage h
    have hgood : ¬ ((!(s.grp group).v) = true ∨ (s.grp group).root ≠ s.own) := by
      rintro (h' | h')
      · rw [show (s.grp group).v = true from hv] at h'
        exact Bool.false_ne_true h'
      · exact h' hroot
    rw [if_neg hgood, if_neg hstage]
    dsimp only
    rw [modStart_order, modStart_modStart _ _ _ (show i < ({ fresh s with order := s.order + 1 } : State).startSlots.length from hlen)]

theorem coxWriteEvents : CoxWriteEvents := by
  intro s port k hhas hport hk u sl
  obtain ⟨hlen, hslots⟩ := hhas
  have hhost (h : s.hostOpen = true) : ¬ (!s.hostOpen) = true := by
    rw [h]
    decide
  refine ⟨closed_events s port k, fun hopen => ⟨fun w v => (instructionMemory_events hopen hport hlen w v).1,
    fun w v => (instructionMemory_events hopen hport hlen w v).2, fun i v hi => (region_events hopen hport i v hi).1,
    fun i v hi => (region_events hopen hport i v hi).2, fun hst => ⟨fun r v => ?_, ?_, ?_⟩,
    fun hst => ⟨fun r v hr => ?_, fun v => ?_, fun hholds => ⟨?_, ?_⟩⟩, fun hst => ?_, fun hst => ?_, fun h0 h2 => ?_,
    fun i group hi hlen' hidle => startGo_events hopen i group hi hlen' hidle⟩, fun i => ?_⟩
  · rw [slotStateWrite_eq, if_neg (hhost hopen), if_pos hst]
  · rw [ctlResume_eq, if_pos hopen]
    exact congrArg Host.Outcome.next (if_pos hst)
  · rw [ctlStep_eq, if_pos hopen]
    exact congrArg Host.Outcome.next (if_pos hst)
  · rw [slotStateWrite_eq, if_neg (hhost hopen), if_neg (not_not.mpr hst), if_pos hr]
  · rw [slotStateWrite_eq, if_neg (hhost hopen), if_neg (not_not.mpr hst), if_neg (by decide), if_pos rfl]
  · rw [ctlResume_eq, if_pos hopen, coxResume_of_no_hold (s := fresh s) false hst hholds]
  · rw [ctlStep_eq, if_pos hopen, coxResume_of_no_hold (s := fresh s) true hst hholds]
  · rw [ctlKill_eq, if_pos hopen]
    exact congrArg Host.Outcome.next (if_pos hst)
  · rw [ctlKill_eq, if_pos hopen]
    have h0 : ¬ ((fresh s).coxSlot port k).st = 0 := by
      rw [show ((fresh s).coxSlot port k).st = 2 from hst]
      decide
    exact congrArg Host.Outcome.next ((if_neg h0).trans (if_pos hst))
  · rw [ctlKill_eq, if_pos hopen]
    have hkill : (fresh s).coxKill port k = (fresh s).coxFree port k := (if_neg h0).trans (if_neg h2)
    rw [hkill]
    exact ⟨_, rfl, coxFree_parts (s := fresh s) hlen hslots⟩
  · intro x
    rw [startWindowTimeout_eq]
    constructor
    · rintro (hbusy | hlt)
      · exact if_pos (.inl (by rw [show (s.startSlots.getD i StartSlot.reset).busy = false from hbusy]; rfl))
      · exact if_pos (.inr hlt)
    · intro hbusy hle
      refine if_neg ?_
      rintro (h | h)
      · rw [show (s.startSlots.getD i StartSlot.reset).busy = true from hbusy] at h
        exact Bool.false_ne_true h
      · exact absurd h (not_lt.mpr hle)

/-- Settles O47. -/
theorem coxContextEvents : Obligations.CoxContextEvents := ⟨coxWaitEvents, coxWriteEvents⟩

end Sys2Proof.Proofs.CoxEventRows
end

