-- ==== Sys2Proof/Proofs/PortStateRows.lean ====
section
/-!
PROOF. Proofs/PortStateRows.lean: ports that train, fail and retrain, and the link states that neighbours announce (13 R295; 25 R443, R444).
-/

namespace Sys2Proof.Proofs.PortStateRows

open Sys2Proof Sys2Proof.Machine Sys2Proof.Claims Sys2Proof.Proofs.CausesAndRecords Sys2Proof.Proofs.CoxSequenceRows

/-! ## Ports of the package -/

section Port

variable {s : State} {p : Nat} {f g : Port → Port}

theorem modPort_congr (h : f (s.port p) = g (s.port p)) : s.modPort p f = s.modPort p g := by
  unfold State.modPort
  rw [h]

theorem port_modPort (hp : p < s.ports.length) : (s.modPort p f).port p = f (s.port p) := getD_set_self hp

theorem port_modPort_of_ne {j : Nat} (h : j ≠ p) : (s.modPort p f).port j = s.port j := by
  unfold State.modPort State.port
  dsimp only
  rw [List.getD_eq_getElem?_getD, List.getElem?_set_ne (Ne.symm h), ← List.getD_eq_getElem?_getD]

theorem modPort_modPort (hp : p < s.ports.length) (f g : Port → Port) : (s.modPort p f).modPort p g = s.modPort p (fun x => g (f x)) := by
  show ({ s with ports := (s.ports.set p (f (s.port p))).set p (g ((s.modPort p f).port p)) } : State) = _
  rw [port_modPort hp, List.set_set]
  rfl

theorem modPort_length : (s.modPort p f).ports.length = s.ports.length := List.length_set

/-- What a port is to reach turns on the address and on which logical port each port serves. -/
theorem serves_modPort (hp : p < s.ports.length) (hmapv : (f (s.port p)).mapv = (s.port p).mapv) (hlport : (f (s.port p)).lport = (s.port p).lport) (j : Nat) :
    (s.modPort p f).serves? j = s.serves? j := by
  have hboth (i : Nat) : ((s.modPort p f).port i).mapv = (s.port i).mapv ∧ ((s.modPort p f).port i).lport = (s.port i).lport := by
    by_cases hi : i = p
    · subst hi
      rw [port_modPort hp]
      exact ⟨hmapv, hlport⟩
    · rw [port_modPort_of_ne hi]
      exact ⟨rfl, rfl⟩
  unfold State.serves?
  simp only [fun i => (hboth i).1, fun i => (hboth i).2]

theorem expected_modPort (hp : p < s.ports.length) (hmapv : (f (s.port p)).mapv = (s.port p).mapv) (hlport : (f (s.port p)).lport = (s.port p).lport) (j : Nat) :
    (s.modPort p f).expected j = s.expected j := by
  unfold State.expected
  rw [serves_modPort hp hmapv hlport]
  rfl

end Port

/-! ## The error log (R450) -/

/-- An entry of the error log moves its producer index on; beside the log and the vector it posts nothing changes. -/
theorem rasLog_eq (s : State) (kind unit addr ctx : Nat) : ∃ m r, s.rasLog kind unit addr ctx = { s with mgmt := m, ras := r } ∧ r.prod = s.ras.prod + 1#32 := by
  have hpost (t : State) (v : Nat) : ∃ m r, t.postMsix v = { t with mgmt := m, ras := r } ∧ r.prod = t.ras.prod := by
    unfold State.postMsix
    split
    · exact ⟨t.mgmt, _, rfl, rfl⟩
    · split
      · split
        · exact ⟨t.mgmt, t.ras, rfl, rfl⟩
        · exact ⟨_, t.ras, rfl, rfl⟩
      · exact ⟨_, t.ras, rfl, rfl⟩
  unfold State.rasLog
  dsimp only
  split
  · obtain ⟨m, r, heq, hprod⟩ := hpost { s with ras := { s.ras with
        log := s.ras.log.set (s.ras.prod.toNat % 256) (leBytes 4 kind ++ leBytes 4 unit ++ leBytes 8 addr ++ leBytes 8 s.clock.toNat ++ leBytes 8 ctx),
        prod := s.ras.prod + 1#32 } } 1
    exact ⟨m, r, heq.trans rfl, hprod⟩
  · exact ⟨s.mgmt, _, rfl, rfl⟩

theorem rasLog_port (s : State) (kind unit addr ctx p : Nat) : (s.rasLog kind unit addr ctx).port p = s.port p := by
  obtain ⟨m, r, heq, -⟩ := rasLog_eq s kind unit addr ctx
  rw [heq]
  rfl

theorem modPort_logged (s : State) (m : Mgmt) (r : Ras) (p : Nat) (f : Port → Port) :
    ({ s with mgmt := m, ras := r } : State).modPort p f = { s.modPort p f with mgmt := m, ras := r } := rfl

/-! ## Leaving service (R295, R443) -/

section Leaves

variable {s : State} {p : Nat}

/-- A port with nothing queued for it and nothing in its replay buffer leaves service with nothing to send again. -/
theorem portLeaves_of_quiet (hout : ∀ q ∈ s.outq, q.port ≠ p) (hwire : ∀ q ∈ s.wire, q.port ≠ p) (back st : Nat) : s.portLeaves p back st =
    let t := s.modPort p (fun y => { y with st := st, downAt := s.cycle })
    if (s.port p).st = 2 then (t.modPort p (fun y => { y with downs := y.downs + 1#32 })).rasLog 5 (p * 65536 + p / 8 * 64) 0 0 else t := by
  have hmine : s.wire.filter (fun q => q.port == p) = [] := by
    rw [List.filter_eq_nil_iff]
    intro q hq
    simpa using hwire q hq
  have hqueued : s.outq.filter (fun q => q.port == p) = [] := by
    rw [List.filter_eq_nil_iff]
    intro q hq
    simpa using hout q hq
  have hrest : s.wire.filter (fun q => !(q.port == p)) = s.wire := by
    rw [List.filter_eq_self]
    intro q hq
    simpa using hwire q hq
  have hothers : s.outq.filter (fun q => !(q.port == p)) = s.outq := by
    rw [List.filter_eq_self]
    intro q hq
    simpa using hout q hq
  unfold State.portLeaves
  dsimp only
  rw [hmine, hqueued, hrest, hothers, List.length_nil, Nat.zero_sub, List.take_nil, List.drop_nil, List.append_nil]
  rfl

theorem portUp_of_key (hst : (s.port p).st = 1) (hkey : (s.port p).txst ≠ 0) (haround : ∀ q ∈ s.outq, q.around = none) :
    s.portUp p = (s.modPort p (fun y => { y with st := 2, att := 0, tries := 0 })).rasLog 6 (p * 65536 + p / 8 * 64) 0 0 := by
  refine if_neg ?_
  rintro (h | h | h)
  · exact h hst
  · exact hkey h
  · obtain ⟨q, hq, hback⟩ := List.any_eq_true.mp h
    rw [haround q hq] at hback
    exact Bool.false_ne_true hback

end Leaves

/-! ## The events -/

theorem portDown_eq (p back : Nat) (s : State) : exec (.portDown p back) s =
    .next (if (s.port p).st = 2 ∧ p < 32 then ((fresh s).portLeaves p back 3).modPort p (fun y => { y with tries := 0 }) else fresh s) := rfl

theorem portTraining_eq (p : Nat) (ok : Bool) (peer : Nat) (s : State) : exec (.portTraining p ok peer) s =
    let u := fresh s
    if 32 ≤ p ∨ (s.port p).st ≠ 1 then .next u
    else if (s.port p).txst ≠ 0 then .next (u.portUp p)
    else if (!ok) = true then .next (u.modPort p (fun y => { y with st := 3, att := min 31 (y.att + 1), downAt := s.cycle }))
    else
      let t := u.modPort p (fun y => { y with peer := peer % 256 })
      if t.expected p = some (peer % 256) then .next (t.modPort p (fun y => { y with exch := 1 }))
      else .next ((t.modPort p (fun y => { y with st := 5 })).rasLog 7 (p * 65536 + p / 8 * 64) 0 0) := rfl

theorem portAutoRetrain_eq (p : Nat) (s : State) : exec (.portAutoRetrain p) s =
    if p < 32 ∧ (s.port p).st = 3 ∧ (s.port p).tries < 16 ∧ (s.port p).downAt + 2 ^ 24 ≤ s.cycle then
      .next (((fresh s).portTry p).modPort p (fun y => { y with tries := y.tries + 1 }))
    else .next (fresh s) := rfl

theorem linkState_eq (k i : Nat) (up : Bool) (s : State) : exec (.linkStateAnnouncement k i up) s =
    let peer := if k < 16 then s.own / 16 * 16 + k else (k - 16) * 16 + s.own % 16
    if 32 ≤ k ∨ 16 ≤ i ∨ (!s.inGrid peer) = true ∨ peer = s.own then .next (fresh s)
    else .next { fresh s with
      lstate := s.lstate.set k (if up then s.lstate.getD k 0#32 ||| 1#32 <<< i else s.lstate.getD k 0#32 &&& ~~~(1#32 <<< i)) } := rfl

theorem portDown_event {s : State} {p : Nat} (h32 : p < 32) (hp : p < s.ports.length) (hst : (s.port p).st = 2) (hout : ∀ q ∈ s.outq, q.port ≠ p)
    (hwire : ∀ q ∈ s.wire, q.port ≠ p) (back : Nat) : Answers (exec (.portDown p back) s) (fun t =>
      t.ports = s.ports.set p { s.port p with st := 3, downAt := s.cycle, downs := (s.port p).downs + 1#32, tries := 0 } ∧ t.outq = s.outq ∧ t.wire = s.wire ∧
      t.ras.prod = s.ras.prod + 1#32) := by
  rw [portDown_eq, if_pos ⟨hst, h32⟩, portLeaves_of_quiet (s := fresh s) hout hwire]
  dsimp only
  rw [if_pos (show ((fresh s).port p).st = 2 from hst), modPort_modPort (show p < (fresh s).ports.length from hp)]
  obtain ⟨m, r, heq, hprod⟩ := rasLog_eq ((fresh s).modPort p (fun y => { y with st := 3, downAt := (fresh s).cycle, downs := y.downs + 1#32 })) 5 (p * 65536 + p / 8 * 64) 0 0
  rw [heq, modPort_logged, modPort_modPort (show p < (fresh s).ports.length from hp)]
  exact ⟨_, rfl, rfl, rfl, rfl, hprod⟩

theorem linkState_event {s : State} {k i : Nat} (hk : k < 32) (hi : i < 16) (up : Bool) :
    let peer := if k < 16 then s.own / 16 * 16 + k else (k - 16) * 16 + s.own % 16
    (s.inGrid peer = false ∨ peer = s.own → exec (.linkStateAnnouncement k i up) s = .next (fresh s)) ∧
    (s.inGrid peer = true → peer ≠ s.own → k < s.lstate.length → Answers (exec (.linkStateAnnouncement k i up) s) (fun t => t = { fresh s with lstate := t.lstate } ∧
      (∀ j, j < 32 → (t.lstate.getD k 0#32).getLsbD j = if j = i then up else (s.lstate.getD k 0#32).getLsbD j) ∧
      ∀ j, j ≠ k → t.lstate.getD j 0#32 = s.lstate.getD j 0#32)) := by
  intro peer
  rw [linkState_eq]
  constructor
  · rintro (hout | hown)
    · exact if_pos (.inr (.inr (.inl (by rw [show s.inGrid _ = false from hout]; rfl))))
    · exact if_pos (.inr (.inr (.inr hown)))
  · intro hin hother hlen
    have hgood : ¬ (32 ≤ k ∨ 16 ≤ i ∨ (!s.inGrid peer) = true ∨ peer = s.own) := by
      rw [hin]
      rintro (h | h | h | h)
      · omega
      · omega
      · exact Bool.false_ne_true h
      · exact hother h
    dsimp only
    rw [if_neg hgood]
    refine ⟨_, rfl, rfl, fun j hj => ?_, fun j hj => ?_⟩
    · show ((s.lstate.set k _).getD k 0#32).getLsbD j = _
      rw [getD_set_self hlen]
      generalize s.lstate.getD k 0#32 = w
      have hbit : (1#32 <<< i).getLsbD j = decide (j = i) := by
        rw [BitVec.getLsbD_shiftLeft, BitVec.getLsbD_one]
        by_cases hji : j = i
        · simp [hji]
          omega
        · simp [hji]
          omega
      cases up with
      | true =>
        rw [if_pos rfl, BitVec.getLsbD_or, hbit]
        by_cases hji : j = i <;> simp [hji]
      | false =>
        rw [if_neg Bool.false_ne_true, BitVec.getLsbD_and, BitVec.getLsbD_not, hbit]
        by_cases hji : j = i <;> simp [hji, hj]
    · show (s.lstate.set k _).getD j 0#32 = _
      rw [List.getD_eq_getElem?_getD, List.getElem?_set_ne (Ne.symm hj), ← List.getD_eq_getElem?_getD]

theorem portTry_trains {s : State} {p : Nat} (hen : s.fabEn = true) (hpeer : s.expected p ≠ none) (hadm : (s.port p).admdn = false) : s.portTry p = s.portTrains p := by
  refine if_pos ?_
  rw [hen, hadm, Option.isSome_iff_ne_none.mpr hpeer]
  rfl

theorem portStateEvents : PortStateEvents := by
  intro s p h32 hp u x
  have hpu : p < u.ports.length := hp
  refine ⟨fun hst back => ?_, fun hst hout hwire back => portDown_event h32 hp hst hout hwire back, fun hst ok peer => ?_,
    fun hst hkey => ⟨fun peer => ?_, fun peer hpeer hexp => ?_, fun peer hpeer hexp => ?_⟩, fun hst hkey haround ok peer => ?_, fun hno => ?_,
    fun hst htries hat hen hexp hadm => ?_, fun k i up hk hi => linkState_event hk hi up⟩
  · rw [portDown_eq, if_neg (fun h => hst h.1)]
  · rw [portTraining_eq]
    exact if_pos (.inr hst)
  · have hgood : ¬ (32 ≤ p ∨ (s.port p).st ≠ 1) := fun h => h.elim (fun h => by omega) (fun h => h hst)
    rw [portTraining_eq]
    dsimp only
    rw [if_neg hgood, if_neg (not_not.mpr hkey)]
    exact if_pos rfl
  · have hgood : ¬ (32 ≤ p ∨ (s.port p).st ≠ 1) := fun h => h.elim (fun h => by omega) (fun h => h hst)
    rw [portTraining_eq]
    dsimp only
    rw [if_neg hgood, if_neg (not_not.mpr hkey), if_neg (by decide), Nat.mod_eq_of_lt hpeer, expected_modPort (s := fresh s) hp rfl rfl,
      if_pos (show (fresh s).expected p = some peer from hexp), modPort_modPort (s := fresh s) hp]
  · have hgood : ¬ (32 ≤ p ∨ (s.port p).st ≠ 1) := fun h => h.elim (fun h => by omega) (fun h => h hst)
    rw [portTraining_eq]
    dsimp only
    rw [if_neg hgood, if_neg (not_not.mpr hkey), if_neg (by decide), Nat.mod_eq_of_lt hpeer, expected_modPort (s := fresh s) hp rfl rfl,
      if_neg (show ¬ (fresh s).expected p = some peer from hexp), modPort_modPort (s := fresh s) hp]
    obtain ⟨m, r, heq, hprod⟩ := rasLog_eq ((fresh s).modPort p (fun y => { y with peer := peer, st := 5 })) 7 (p * 65536 + p / 8 * 64) 0 0
    rw [heq]
    exact ⟨_, rfl, rfl, hprod⟩
  · have hgood : ¬ (32 ≤ p ∨ (s.port p).st ≠ 1) := fun h => h.elim (fun h => by omega) (fun h => h hst)
    rw [portTraining_eq]
    dsimp only
    rw [if_neg hgood, if_pos hkey, portUp_of_key (s := fresh s) hst hkey haround]
    obtain ⟨m, r, heq, hprod⟩ := rasLog_eq ((fresh s).modPort p (fun y => { y with st := 2, att := 0, tries := 0 })) 6 (p * 65536 + p / 8 * 64) 0 0
    rw [heq]
    exact ⟨_, rfl, rfl, hprod⟩
  · rw [portAutoRetrain_eq, if_neg]
    rintro ⟨-, hst, htries, hat⟩
    rcases hno with h | h | h
    · exact h hst
    · exact absurd htries (not_lt.mpr h)
    · exact absurd hat (not_le.mpr h)
  · rw [portAutoRetrain_eq, if_pos ⟨h32, hst, htries, hat⟩, portTry_trains (s := fresh s) hen hexp hadm]
    unfold State.portTrains
    rw [modPort_modPort (s := (fresh s).repay p) (by unfold State.repay; rw [modPort_length]; exact hp)]

end Sys2Proof.Proofs.PortStateRows
end

