-- ==== Sys2Proof/Proofs/FrameRows.lean ====
section
/-!
PROOF. Proofs/FrameRows.lean: link keys and frames of a port (13 R280, R281, R286; 24 R433 to R435).
-/

namespace Sys2Proof.Proofs.FrameRows

open Sys2Proof Sys2Proof.Machine Sys2Proof.Claims Sys2Proof.Proofs.CausesAndRecords Sys2Proof.Proofs.CoxSequenceRows Sys2Proof.Proofs.PortStateRows

/-! ## Key exchanges (R433 to R435) -/

section Keys

variable {s : State} {p : Nat}

/-- A port under the keys of an exchange that has verified. -/
def rekeyed (p : Nat) (y : Port) : Port :=
  { y with
    exch := 0
    txst := 1
    rxst := 1
    txcnt := 0#64
    nkey := (y.nkey + 1) % 65536
    txsel := if y.txst = 0 then false else !y.txsel
    txkey := some (Config.linkKey p (y.nkey + 1) true)
    rxkey := if y.txst = 0 then some (Config.linkKey p (y.nkey + 1) false) else y.rxkey
    rxnext := if y.txst = 0 then none else some (Config.linkKey p (y.nkey + 1) false)
    rxcnt := if y.txst = 0 then 0#64 else y.rxcnt }

/-- The operations that a key held start their response times anew, and the crews that wait for it go on. -/
def keyReleased (u t : State) (p : Nat) : State :=
  let held := (u.ops.filter (fun (o : Op) => u.heldPort o == some p)).map (fun o => o.id)
  { t with
    ops := t.ops.map (fun (o : Op) => if held.contains o.id then o.restart t.clock.toNat else o)
    crews := t.crews.map (fun (c : Crew) => if c.stall.any (fun (y : Stall) => y.key == some p) then { resumeCrew c false with stall := none } else c) }

theorem keyExchange_eq (p : Nat) (ok : Bool) (s : State) : exec (.keyExchangeMessage p ok) s =
    if 32 ≤ p ∨ ((s.port p).exch = 0 ∧ (s.port p).txst = 0) ∨ (!ok) = true then .next (fresh s)
    else .next (keyReleased (fresh s) (((fresh s).modPort p (rekeyed p)).portUp p) p) := rfl

theorem keyExchange_verified (h32 : p < 32) (hsome : ¬ ((s.port p).exch = 0 ∧ (s.port p).txst = 0)) : exec (.keyExchangeMessage p true) s =
    .next (keyReleased (fresh s) (((fresh s).modPort p (rekeyed p)).portUp p) p) := by
  rw [keyExchange_eq, if_neg]
  rintro (h | h | h)
  · omega
  · exact hsome h
  · exact Bool.false_ne_true h

theorem portUp_of_up (h : (s.port p).st ≠ 1) : s.portUp p = s := if_pos (.inl h)

/-- Nothing is held for the key. -/
theorem keyReleased_of_none {u t : State} (hcrews : ∀ c ∈ t.crews, ∀ y, c.stall = some y → y.key ≠ some p) (hops : ∀ o ∈ u.ops, u.heldPort o ≠ some p) :
    keyReleased u t p = t := by
  have hheld : (u.ops.filter (fun (o : Op) => u.heldPort o == some p)).map (fun o => o.id) = [] := by
    rw [List.map_eq_nil_iff, List.filter_eq_nil_iff]
    intro o ho
    simpa using hops o ho
  have hsame : t.crews.map (fun (c : Crew) => if c.stall.any (fun (y : Stall) => y.key == some p) then { resumeCrew c false with stall := none } else c) = t.crews := by
    refine (List.map_congr_left (fun c hc => if_neg ?_)).trans (List.map_id _)
    intro h
    obtain ⟨y, hy, hkey⟩ := (Option.any_eq_true _ _).mp h
    exact hcrews c hc y hy (beq_iff_eq.mp hkey)
  unfold keyReleased
  dsimp only
  rw [hheld, hsame]
  have hops' : t.ops.map (fun (o : Op) => if ([] : List Nat).contains o.id then o.restart t.clock.toNat else o) = t.ops :=
    (List.map_congr_left (fun o _ => if_neg Bool.false_ne_true)).trans (List.map_id _)
  rw [hops']

end Keys

theorem keyExchange_events {s : State} {p : Nat} (h32 : p < 32) (hp : p < s.ports.length) :
    let u := fresh s
    let x := s.port p
    (x.exch = 0 → x.txst = 0 → ∀ ok, exec (.keyExchangeMessage p ok) s = .next u) ∧ exec (.keyExchangeMessage p false) s = .next u ∧
    (¬(x.exch = 0 ∧ x.txst = 0) → x.st = 2 → Answers (exec (.keyExchangeMessage p true) s) (fun t =>
      (∀ o ∈ s.ops, u.heldPort o = some p → o.restart s.clock.toNat ∈ t.ops) ∧
      ∀ c ∈ s.crews, ∀ y, c.stall = some y → y.key = some p → { resumeCrew c false with stall := none } ∈ t.crews)) ∧
    (¬(x.exch = 0 ∧ x.txst = 0) → x.st = 2 → (∀ c ∈ s.crews, ∀ y, c.stall = some y → y.key ≠ some p) → (∀ o ∈ s.ops, u.heldPort o ≠ some p) → exec (.keyExchangeMessage p true) s =
      .next (u.modPort p (fun y => { y with
        exch := 0, txst := 1, rxst := 1, txcnt := 0#64, nkey := (y.nkey + 1) % 65536, txsel := if x.txst = 0 then false else !y.txsel,
        txkey := some (Config.linkKey p (x.nkey + 1) true), rxkey := if x.txst = 0 then some (Config.linkKey p (x.nkey + 1) false) else y.rxkey,
        rxnext := if x.txst = 0 then none else some (Config.linkKey p (x.nkey + 1) false), rxcnt := if x.txst = 0 then 0#64 else y.rxcnt }))) ∧
    (x.exch ≠ 0 → x.st = 1 → (∀ q ∈ s.outq, q.around = none) → Answers (exec (.keyExchangeMessage p true) s) (fun t =>
      (t.port p).st = 2 ∧ (t.port p).txst = 1 ∧ (t.port p).rxst = 1 ∧ (t.port p).exch = 0 ∧ (t.port p).txcnt = 0#64)) := by
  intro u x
  have hst (h : x.st = 2) : ((u.modPort p (rekeyed p)).port p).st ≠ 1 := by
    rw [port_modPort (s := fresh s) hp]
    show (s.port p).st ≠ 1
    rw [show (s.port p).st = 2 from h]
    decide
  refine ⟨fun hexch htx ok => ?_, ?_, fun hsome h2 => ?_, fun hsome h2 hcrews hops => ?_, fun hexch h1 haround => ?_⟩
  · rw [keyExchange_eq]
    exact if_pos (.inr (.inl ⟨hexch, htx⟩))
  · rw [keyExchange_eq]
    exact if_pos (.inr (.inr rfl))
  · rw [keyExchange_verified h32 hsome, portUp_of_up (hst h2)]
    refine ⟨_, rfl, fun o ho hheld => ?_, fun c hc y hy hkey => ?_⟩
    · refine List.mem_map.mpr ⟨o, ho, if_pos ?_⟩
      rw [List.contains_iff_mem]
      exact List.mem_map.mpr ⟨o, List.mem_filter.mpr ⟨ho, beq_iff_eq.mpr hheld⟩, rfl⟩
    · refine List.mem_map.mpr ⟨c, hc, if_pos ?_⟩
      rw [hy]
      exact beq_iff_eq.mpr hkey
  · rw [keyExchange_verified h32 hsome, portUp_of_up (hst h2), keyReleased_of_none (u := fresh s) (t := u.modPort p (rekeyed p)) hcrews hops]
    rfl
  · have hsome : ¬ ((s.port p).exch = 0 ∧ (s.port p).txst = 0) := fun h => hexch h.1
    have hport : (u.modPort p (rekeyed p)).port p = rekeyed p (s.port p) := port_modPort (s := fresh s) hp
    rw [keyExchange_verified h32 hsome,
      portUp_of_key (s := (fresh s).modPort p (rekeyed p)) (by rw [hport]; exact h1) (by rw [hport]; exact Nat.one_ne_zero) haround, modPort_modPort (s := fresh s) hp]
    have hfinal : (((fresh s).modPort p (fun y => { rekeyed p y with st := 2, att := 0, tries := 0 })).rasLog 6 (p * 65536 + p / 8 * 64) 0 0).port p =
        { rekeyed p (s.port p) with st := 2, att := 0, tries := 0 } := (rasLog_port ..).trans (port_modPort (s := fresh s) hp)
    refine ⟨_, rfl, ?_⟩
    generalize ((fresh s).modPort p (fun y => { rekeyed p y with st := 2, att := 0, tries := 0 })).rasLog 6 (p * 65536 + p / 8 * 64) 0 0 = t at hfinal
    have hkept : (keyReleased (fresh s) t p).port p = { rekeyed p (s.port p) with st := 2, att := 0, tries := 0 } := hfinal
    rw [hkept]
    exact ⟨rfl, rfl, rfl, rfl, rfl⟩

/-! ## Frames that leave (R280, R281, R286, R434) -/

section Send

variable {s : State} {p ch hops : Nat}

/-- The packet that leaves next for a channel and hop class. -/
def leavesNext (s : State) (p ch hops : Nat) (q : PortPkt) : Bool := q.port == p && q.pkt.hd.ch == ch && q.pkt.hd.hops == hops && !s.opSaved q.pkt

/-- The packet at a place of the queue has left for the link: its flits are counted and its credits are used. -/
def launched (s : State) (p k cr n i : Nat) (warn : Bool) : State :=
  let x := s.port p
  let gone := ((s.outq[i]?).map (fun (q : PortPkt) => ({ q with buf := none } : PortPkt))).toList
  { s with outq := s.outq.take i ++ s.outq.drop (i + 1), wire := s.wire ++ gone }.modPort p (fun y => { y with
    txcnt := BitVec.ofNat 64 (x.txcnt.toNat + n), credit := y.credit.set k (cr - n), txst := if warn then 2 else y.txst,
    exch := if warn then max 1 y.exch else y.exch, sent := y.sent + BitVec.ofNat 64 n })

theorem frameSend_eq (p ch hops : Nat) (s : State) : exec (.frameSend p ch hops) s =
    let u := fresh s
    let x := s.port p
    if 32 ≤ p ∨ x.st ≠ 2 ∨ x.txst = 0 ∨ x.txst = 3 ∨ x.exch = 2 ∨ s.mgmt.ps ≠ 0#2 then .next u
    else
      match s.outq.findIdx? (leavesNext u p ch hops) with
      | none => .next (u.repay p)
      | some i =>
        let n := 1 + (s.outq[i]?.map (fun q => q.pkt.hd.ndata)).getD 0
        let c := x.txcnt.toNat + n
        let cr := x.credit.getD (4 * ch + hops) 0
        if cr < n then .next u
        else if ctrLimit < c then .next (u.portHeld p)
        else
          let warn := x.txst = 1 ∧ ctrLimit - 2 ^ 32 ≤ c
          let m := launched u p (4 * ch + hops) cr n i (decide warn)
          let t := (if warn then m.postMsix 3 else m).repay p
          .next (if c = ctrLimit then t.portHeld p else t) := by
  rw [exec_frameSend]
  unfold execFrameSend
  dsimp only
  by_cases hbad : 32 ≤ p ∨ (s.port p).st ≠ 2 ∨ (s.port p).txst = 0 ∨ (s.port p).txst = 3 ∨ (s.port p).exch = 2 ∨ s.mgmt.ps ≠ 0#2
  · rw [if_pos hbad]
    exact if_pos hbad
  · rw [if_neg hbad]
    refine (if_neg hbad).trans ?_
    show (match s.outq.findIdx? (leavesNext (fresh s) p ch hops) with | none => _ | some i => _) = _
    cases s.outq.findIdx? (leavesNext (fresh s) p ch hops) with
    | none => rfl
    | some i =>
      dsimp only
      unfold launched
      simp only [decide_eq_true_eq]
      rfl

theorem frameSend_ready (h32 : p < 32) (hst : (s.port p).st = 2) (h0 : (s.port p).txst ≠ 0) (h3 : (s.port p).txst ≠ 3) (hexch : (s.port p).exch ≠ 2)
    (hps : s.mgmt.ps = 0#2) :
    ¬ (32 ≤ p ∨ (s.port p).st ≠ 2 ∨ (s.port p).txst = 0 ∨ (s.port p).txst = 3 ∨ (s.port p).exch = 2 ∨ s.mgmt.ps ≠ 0#2) := by
  rintro (h | h | h | h | h | h)
  · omega
  · exact h hst
  · exact h0 h
  · exact h3 h
  · exact hexch h
  · exact h hps

/-- The first packet of its kind in the queue is the one that leaves. -/
theorem findIdx_leavesNext {u : State} {pre post : List PortPkt} {q : PortPkt} (hq : q.port = p) (hsaved : u.opSaved q.pkt = false)
    (hpre : ∀ y ∈ pre, ¬(y.port = p ∧ y.pkt.hd.ch = q.pkt.hd.ch ∧ y.pkt.hd.hops = q.pkt.hd.hops)) :
    (pre ++ q :: post).findIdx? (leavesNext u p q.pkt.hd.ch q.pkt.hd.hops) = some pre.length := by
  have hmine : leavesNext u p q.pkt.hd.ch q.pkt.hd.hops q = true := by
    unfold leavesNext
    rw [hq, hsaved]
    simp
  have hnone : pre.findIdx? (leavesNext u p q.pkt.hd.ch q.pkt.hd.hops) = none := by
    rw [List.findIdx?_eq_none_iff]
    intro y hy
    by_contra h
    refine hpre y hy ?_
    have h' : leavesNext u p q.pkt.hd.ch q.pkt.hd.hops y = true := Bool.eq_true_of_not_eq_false h
    unfold leavesNext at h'
    simp only [Bool.and_eq_true, beq_iff_eq] at h'
    exact ⟨h'.1.1.1, h'.1.1.2, h'.1.2⟩
  rw [List.findIdx?_append, hnone, List.findIdx?_cons, if_pos hmine]
  simp

/-- What is left of the package when the packet between two others of the queue has been sent. -/
theorem launched_between {pre post : List PortPkt} {q : PortPkt} (hout : s.outq = pre ++ q :: post) (k cr n t1 e1 : Nat) (warn : Bool)
    (ht : (if warn then 2 else (s.port p).txst) = t1) (he : (if warn then max 1 (s.port p).exch else (s.port p).exch) = e1) :
    launched (fresh s) p k cr n pre.length warn = { (fresh s).modPort p (fun y => { y with
      txcnt := BitVec.ofNat 64 ((s.port p).txcnt.toNat + n), credit := y.credit.set k (cr - n), sent := y.sent + BitVec.ofNat 64 n, txst := t1, exch := e1 }) with
        outq := pre ++ post, wire := s.wire ++ [{ q with buf := none }] } := by
  have hget : (fresh s).outq[pre.length]? = some q := by
    rw [show (fresh s).outq = pre ++ q :: post from hout, List.getElem?_append_right (le_refl _), Nat.sub_self]
    rfl
  have hrest : (fresh s).outq.take pre.length ++ (fresh s).outq.drop (pre.length + 1) = pre ++ post := by
    rw [show (fresh s).outq = pre ++ q :: post from hout, List.take_left' rfl, ← List.drop_drop, List.drop_left' rfl]
    rfl
  unfold launched
  dsimp only
  rw [hget, hrest]
  refine (modPort_congr ?_).trans (show State.modPort _ p (fun y => { y with
      txcnt := BitVec.ofNat 64 ((s.port p).txcnt.toNat + n)
      credit := y.credit.set k (cr - n)
      sent := y.sent + BitVec.ofNat 64 n
      txst := t1
      exch := e1 }) = _ from rfl)
  rw [← ht, ← he]
  rfl

end Send

theorem frameSend_packet {s : State} {p : Nat} (h32 : p < 32) (hst : (s.port p).st = 2) (h0 : (s.port p).txst ≠ 0) (h3 : (s.port p).txst ≠ 3)
    (hexch : (s.port p).exch ≠ 2) (hps : s.mgmt.ps = 0#2) {pre post : List PortPkt} {q : PortPkt} (hout : s.outq = pre ++ q :: post) (hq : q.port = p)
    (hsaved : (fresh s).opSaved q.pkt = false) (hpre : ∀ y ∈ pre, ¬(y.port = p ∧ y.pkt.hd.ch = q.pkt.hd.ch ∧ y.pkt.hd.hops = q.pkt.hd.hops)) :
    exec (.frameSend p q.pkt.hd.ch q.pkt.hd.hops) s =
      let u := fresh s
      let x := s.port p
      let k := 4 * q.pkt.hd.ch + q.pkt.hd.hops
      let n := 1 + q.pkt.hd.ndata
      let c := x.txcnt.toNat + n
      let cr := x.credit.getD k 0
      if cr < n then .next u
      else if ctrLimit < c then .next (u.portHeld p)
      else
        let warn := x.txst = 1 ∧ ctrLimit - 2 ^ 32 ≤ c
        let m := launched u p k cr n pre.length (decide warn)
        let t := (if warn then m.postMsix 3 else m).repay p
        .next (if c = ctrLimit then t.portHeld p else t) := by
  have hfind : s.outq.findIdx? (leavesNext (fresh s) p q.pkt.hd.ch q.pkt.hd.hops) = some pre.length := by
    rw [hout]
    exact findIdx_leavesNext hq hsaved hpre
  have hget : s.outq[pre.length]? = some q := by
    rw [hout, List.getElem?_append_right (le_refl _), Nat.sub_self]
    rfl
  rw [frameSend_eq]
  dsimp only
  rw [if_neg (frameSend_ready h32 hst h0 h3 hexch hps), hfind]
  dsimp only
  rw [hget]
  rfl

theorem frameSend_events {s : State} {p : Nat} (h32 : p < 32) :
    let u := fresh s
    let x := s.port p
    (x.st = 2 → x.exch = 2 → ∀ ch hops, exec (.frameSend p ch hops) s = .next u) ∧
    (x.st = 2 → x.txst ≠ 0 → x.txst ≠ 3 → x.exch ≠ 2 → s.mgmt.ps = 0#2 → (∀ q ∈ s.outq, q.port ≠ p) → ∀ ch hops,
      exec (.frameSend p ch hops) s = .next (u.repay p)) ∧
    (x.st = 2 → x.txst ≠ 0 → x.txst ≠ 3 → x.exch ≠ 2 → s.mgmt.ps = 0#2 → ∀ pre q post, s.outq = pre ++ q :: post → q.port = p →
      let h := q.pkt.hd
      let n := 1 + h.ndata
      let cr := x.credit.getD (4 * h.ch + h.hops) 0
      u.opSaved q.pkt = false → (∀ y ∈ pre, ¬(y.port = p ∧ y.pkt.hd.ch = h.ch ∧ y.pkt.hd.hops = h.hops)) →
      let gone := fun (t1 e1 : Nat) => { u.modPort p (fun y => { y with
        txcnt := BitVec.ofNat 64 (x.txcnt.toNat + n), credit := y.credit.set (4 * h.ch + h.hops) (cr - n), sent := y.sent + BitVec.ofNat 64 n, txst := t1, exch := e1 }) with
          outq := pre ++ post, wire := s.wire ++ [{ q with buf := none }] }
      (cr < n → exec (.frameSend p h.ch h.hops) s = .next u) ∧
      (n ≤ cr → x.txst ≠ 1 ∨ x.txcnt.toNat + n < 2 ^ 64 - 1 - 2 ^ 32 → x.txcnt.toNat + n < 2 ^ 64 - 1 →
        exec (.frameSend p h.ch h.hops) s = .next ((gone x.txst x.exch).repay p)) ∧
      (n ≤ cr → x.txst = 1 → 2 ^ 64 - 1 - 2 ^ 32 ≤ x.txcnt.toNat + n → x.txcnt.toNat + n < 2 ^ 64 - 1 →
        exec (.frameSend p h.ch h.hops) s = .next (((gone 2 (max 1 x.exch)).postMsix 3).repay p)) ∧
      (n ≤ cr → x.txst = 2 → x.txcnt.toNat + n = 2 ^ 64 - 1 → exec (.frameSend p h.ch h.hops) s = .next (((gone 2 x.exch).repay p).portHeld p)) ∧
      (n ≤ cr → 2 ^ 64 ≤ x.txcnt.toNat + n → exec (.frameSend p h.ch h.hops) s = .next (u.portHeld p))) := by
  intro u x
  refine ⟨fun _ hexch ch hops => ?_, fun hst h0 h3 hexch hps hnone ch hops => ?_, fun hst h0 h3 hexch hps pre q post hout hq => ?_⟩
  · rw [frameSend_eq]
    exact if_pos (.inr (.inr (.inr (.inr (.inl hexch)))))
  · have hfind : s.outq.findIdx? (leavesNext (fresh s) p ch hops) = none := by
      rw [List.findIdx?_eq_none_iff]
      intro y hy
      unfold leavesNext
      rw [beq_false_of_ne (hnone y hy)]
      rfl
    rw [frameSend_eq]
    dsimp only
    rw [if_neg (frameSend_ready h32 hst h0 h3 hexch hps), hfind]
  · intro h n cr hsaved hpre gone
    rw [frameSend_packet h32 hst h0 h3 hexch hps hout hq hsaved hpre]
    dsimp only
    have hL : ctrLimit = 2 ^ 64 - 1 := rfl
    have hlaunch := launched_between (s := s) (p := p) hout (4 * q.pkt.hd.ch + q.pkt.hd.hops) cr n
    refine ⟨fun hlt => if_pos hlt, fun hle hcalm hlow => ?_, fun hle htx hwarn hlow => ?_, fun hle htx hend => ?_, fun hle hover => ?_⟩
    · have hno : ¬ ((s.port p).txst = 1 ∧ ctrLimit - 2 ^ 32 ≤ (s.port p).txcnt.toNat + n) :=
        fun h' => hcalm.elim (fun h'' => h'' h'.1) (fun h'' => absurd h'.2 (by rw [hL]; exact not_le.mpr h''))
      refine (if_neg (not_lt.mpr hle)).trans ((if_neg (by rw [hL]; exact not_lt.mpr hlow.le)).trans (congrArg Host.Outcome.next ?_))
      rw [if_neg (by rw [hL]; exact hlow.ne), if_neg hno, decide_eq_false hno]
      exact congrArg (fun t => State.repay t p) (hlaunch _ _ false rfl rfl)
    · have hyes : (s.port p).txst = 1 ∧ ctrLimit - 2 ^ 32 ≤ (s.port p).txcnt.toNat + n := ⟨htx, hwarn⟩
      refine (if_neg (not_lt.mpr hle)).trans ((if_neg (by rw [hL]; exact not_lt.mpr hlow.le)).trans (congrArg Host.Outcome.next ?_))
      rw [if_neg (by rw [hL]; exact hlow.ne), if_pos hyes, decide_eq_true hyes]
      exact congrArg (fun t => State.repay (State.postMsix t 3) p) (hlaunch _ _ true rfl rfl)
    · have hno : ¬ ((s.port p).txst = 1 ∧ ctrLimit - 2 ^ 32 ≤ (s.port p).txcnt.toNat + n) :=
        fun h' => absurd (h'.1.symm.trans htx) (by decide)
      refine (if_neg (not_lt.mpr hle)).trans ((if_neg (by rw [hL]; exact not_lt.mpr hend.le)).trans (congrArg Host.Outcome.next ?_))
      rw [if_pos (by rw [hL]; exact hend), if_neg hno, decide_eq_false hno]
      exact congrArg (fun t => State.portHeld (State.repay t p) p) (hlaunch _ _ false htx rfl)
    · refine (if_neg (not_lt.mpr hle)).trans (if_pos ?_)
      rw [hL]
      exact lt_of_lt_of_le (by decide) hover

/-! ## Frames that arrive (R281, R433, R435) -/

section Receive

variable {s : State} {p : Nat}

/-- The port takes the credits of a frame with a good tag, and its key. -/
def accepted (x : Port) (sel : Bool) (side : List Nat) (y : Port) : Port :=
  let z : Port := { y.credited (side.drop 7) with fails := 0 }
  if sel = x.rxsel then z else { z with rxsel := sel, rxkey := y.rxnext, rxnext := none, rxcnt := 0#64, rxst := 1 }

/-- The packet that a frame carries. -/
def framePacket (hdr : List (BitVec 32)) (data : List (BitVec 8)) (bad side : List Nat) : Packet :=
  { hdr := hdr, data := data, bad := bad, blockId := side.getD 0 0, ht := BitVec.ofNat 64 (side.getD 1 0), len := side.getD 2 0,
    spanOff := side.getD 3 0, span := side.getD 4 0, was := side.getD 5 10, harvest := side.getD 6 0 == 1 }

/-- A frame whose port receives. -/
theorem frameReceive_eq (h32 : p < 32) (hp : p < s.ports.length) (hst : (s.port p).st = 2) (hrx : (s.port p).rxst ≠ 0) (ok sel : Bool) {hdr : List (BitVec 32)}
    (hlen : hdr.length = 8 ∨ hdr = []) (data : List (BitVec 8)) (bad side : List Nat) : exec (.frameReceive p ok sel hdr data bad side) s =
      let x := s.port p
      if (!ok) = true ∨ (!(sel == x.rxsel || x.rxnext.isSome)) = true then .next ((fresh s).tagFails p)
      else
        let t := (fresh s).modPort p (accepted x sel side)
        let pkt := framePacket hdr data bad side
        let n := 1 + pkt.hd.ndata
        let k := 4 * pkt.hd.ch + pkt.hd.hops
        let left := (t.port p).lent.getD k 0
        let c := (t.port p).rxcnt.toNat + n
        if hdr = [] ∨ left < n ∨ ctrLimit < c then .next t
        else
          let m := t.modPort p (fun y => { y with
            rcvd := y.rcvd + BitVec.ofNat 64 n, rxcnt := BitVec.ofNat 64 c, lent := y.lent.set k (left - n),
            rxst := if y.rxnext.isSome then y.rxst else rxState c, exch := if y.rxnext.isNone && rxState c ≠ 1 then max 1 y.exch else y.exch })
          .next { m with inq := m.inq ++ [{ port := p, pkt := pkt, around := none }] } := by
  have hgood : ¬ (32 ≤ p ∨ (s.port p).st ≠ 2 ∨ (s.port p).rxst = 0 ∨ (hdr.length ≠ 8 ∧ hdr ≠ [])) := by
    rintro (h | h | h | h)
    · omega
    · exact h hst
    · exact hrx h
    · exact hlen.elim h.1 h.2
  have htake : (if sel = (s.port p).rxsel then (fresh s).modPort p (fun y => { y.credited (side.drop 7) with fails := 0 })
      else ((fresh s).modPort p (fun y => { y.credited (side.drop 7) with fails := 0 })).modPort p
        (fun y => { y with rxsel := sel, rxkey := y.rxnext, rxnext := none, rxcnt := 0#64, rxst := 1 })) = (fresh s).modPort p (accepted (s.port p) sel side) := by
    by_cases hsel : sel = (s.port p).rxsel
    · rw [if_pos hsel]
      exact modPort_congr (if_pos hsel).symm
    · rw [if_neg hsel, modPort_modPort (s := fresh s) hp]
      exact modPort_congr (if_neg hsel).symm
  rw [exec_frameReceive]
  unfold execFrameReceive
  refine (if_neg hgood).trans (if_congr Iff.rfl rfl ?_)
  have := congrArg (fun t : State => (
        let pkt := framePacket hdr data bad side
        let n := 1 + pkt.hd.ndata
        let k := 4 * pkt.hd.ch + pkt.hd.hops
        let left := (t.port p).lent.getD k 0
        let c := (t.port p).rxcnt.toNat + n
        if hdr = [] ∨ left < n ∨ ctrLimit < c then (.next t : Out)
        else
          let m := t.modPort p (fun y => { y with
            rcvd := y.rcvd + BitVec.ofNat 64 n, rxcnt := BitVec.ofNat 64 c, lent := y.lent.set k (left - n),
            rxst := if y.rxnext.isSome then y.rxst else rxState c, exch := if y.rxnext.isNone && rxState c ≠ 1 then max 1 y.exch else y.exch })
          .next { m with inq := m.inq ++ [{ port := p, pkt := pkt, around := none }] })) htake
  exact this

/-- One more frame with a bad tag, counted. -/
def tagLost (y : Port) : Port :=
  { y with
    tagFail := y.tagFail + 1#32
    retries := y.retries + 1#32
    fails := y.fails + 1 }

theorem pick_lt (s : State) (tag : List Nat) {n : Nat} (h : 0 < n) : s.pick tag n < n := by
  unfold State.pick
  split
  · exact h
  · exact Nat.mod_lt _ h

theorem tagFails_eq (hp : p < s.ports.length) :
    ((s.port p).fails < 63 → s.tagFails p = s.modPort p tagLost) ∧
    (63 ≤ (s.port p).fails → ∃ back, back ≤ s.wire.length ∧ s.tagFails p = ((s.modPort p tagLost).portLeaves p back 3).modPort p (fun y => { y with tries := 0, fails := 0 })) := by
  have hfails : ((s.modPort p tagLost).port p).fails = (s.port p).fails + 1 := congrArg Port.fails (port_modPort hp)
  constructor
  · intro h
    exact if_pos (show ((s.modPort p tagLost).port p).fails < 64 by rw [hfails]; omega)
  · intro h
    exact ⟨(s.modPort p tagLost).pick [56, p] (s.wire.length + 1), Nat.le_of_lt_succ (pick_lt _ _ (Nat.succ_pos _)),
      if_neg (show ¬ ((s.modPort p tagLost).port p).fails < 64 by rw [hfails]; omega)⟩

theorem rxState_eq (c : Nat) : rxState c = if c = 2 ^ 64 - 1 then 3 else if 2 ^ 64 - 1 - 2 ^ 32 ≤ c then 2 else 1 := rfl

/-- A receive direction leaves ACTIVE with the last 2^32 flits of its key. -/
theorem rxState_ne_one (c : Nat) : rxState c ≠ 1 ↔ 2 ^ 64 - 1 - 2 ^ 32 ≤ c := by
  rw [rxState_eq]
  by_cases hend : c = 2 ^ 64 - 1
  · rw [if_pos hend, hend]
    decide
  · rw [if_neg hend]
    by_cases hwarn : 2 ^ 64 - 1 - 2 ^ 32 ≤ c
    · rw [if_pos hwarn]
      exact ⟨fun _ => hwarn, fun _ => by decide⟩
    · rw [if_neg hwarn]
      exact ⟨fun h => absurd rfl h, fun h => absurd h hwarn⟩

theorem accepted_lent (x : Port) (sel : Bool) (side : List Nat) (y : Port) : (accepted x sel side y).lent = y.lent := by
  unfold accepted
  dsimp only
  split <;> rfl

end Receive

theorem frameReceive_events {s : State} {p : Nat} (h32 : p < 32) (hp : p < s.ports.length) :
    let u := fresh s
    let x := s.port p
    x.st = 2 → x.rxst ≠ 0 → ∀ hdr data bad side, hdr.length = 8 →
      let lost := u.modPort p (fun y => { y with tagFail := y.tagFail + 1#32, retries := y.retries + 1#32, fails := y.fails + 1 })
      (∀ ok sel, ok = false ∨ (sel ≠ x.rxsel ∧ x.rxnext = none) → ∀ hd, hd = hdr ∨ hd = [] →
        (x.fails < 63 → exec (.frameReceive p ok sel hd data bad side) s = .next lost) ∧
        (63 ≤ x.fails → ∃ back, back ≤ s.wire.length ∧
          exec (.frameReceive p ok sel hd data bad side) s = .next ((lost.portLeaves p back 3).modPort p (fun y => { y with tries := 0, fails := 0 })))) ∧
      ∀ sel, sel = x.rxsel ∨ x.rxnext ≠ none →
      let good := u.modPort p (fun y => let z : Port := { y.credited (side.drop 7) with fails := 0 }
        if sel = x.rxsel then z else { z with rxsel := sel, rxkey := y.rxnext, rxnext := none, rxcnt := 0#64, rxst := 1 })
      exec (.frameReceive p true sel [] data bad side) s = .next good ∧
      let pkt : Packet := {
        hdr := hdr, data := data, bad := bad, blockId := side.getD 0 0, ht := BitVec.ofNat 64 (side.getD 1 0), len := side.getD 2 0,
        spanOff := side.getD 3 0, span := side.getD 4 0, was := side.getD 5 10, harvest := side.getD 6 0 == 1 }
      let n := 1 + pkt.hd.ndata
      let k := 4 * pkt.hd.ch + pkt.hd.hops
      let c := (good.port p).rxcnt.toNat + n
      (x.lent.getD k 0 < n ∨ 2 ^ 64 ≤ c → exec (.frameReceive p true sel hdr data bad side) s = .next good) ∧
      (n ≤ x.lent.getD k 0 → c < 2 ^ 64 → exec (.frameReceive p true sel hdr data bad side) s = .next { good.modPort p (fun y => { y with
          rcvd := y.rcvd + BitVec.ofNat 64 n, rxcnt := BitVec.ofNat 64 c, lent := y.lent.set k (x.lent.getD k 0 - n),
          rxst := if y.rxnext.isSome then y.rxst else if c = 2 ^ 64 - 1 then 3 else if 2 ^ 64 - 1 - 2 ^ 32 ≤ c then 2 else 1,
          exch := if y.rxnext = none ∧ 2 ^ 64 - 1 - 2 ^ 32 ≤ c then max 1 y.exch else y.exch }) with
            inq := s.inq ++ [{ port := p, around := none, pkt := pkt }] }) := by
  intro u x hst hrx hdr data bad side hlen lost
  have hL : ctrLimit + 1 = 2 ^ 64 := rfl
  refine ⟨fun ok sel hbad hd hhd => ?_, fun sel hkey => ?_⟩
  · have hlost : (!ok) = true ∨ (!(sel == (s.port p).rxsel || (s.port p).rxnext.isSome)) = true := by
      rcases hbad with rfl | ⟨hsel, hnext⟩
      · exact .inl rfl
      · refine .inr ?_
        rw [beq_false_of_ne hsel, show (s.port p).rxnext = none from hnext]
        rfl
    have hexec : exec (.frameReceive p ok sel hd data bad side) s = .next ((fresh s).tagFails p) := by
      rw [frameReceive_eq h32 hp hst hrx ok sel (hhd.elim (fun h => .inl (h ▸ hlen)) .inr)]
      exact if_pos hlost
    rw [hexec]
    obtain ⟨hfew, hmany⟩ := tagFails_eq (s := fresh s) hp
    refine ⟨fun h => congrArg Host.Outcome.next (hfew h), fun h => ?_⟩
    obtain ⟨back, hback, heq⟩ := hmany h
    exact ⟨back, hback, congrArg Host.Outcome.next heq⟩
  · have hgood : ¬ ((!true) = true ∨ (!(sel == (s.port p).rxsel || (s.port p).rxnext.isSome)) = true) := by
      rintro (h | h)
      · exact Bool.false_ne_true h
      · rcases hkey with hsel | hnext
        · rw [beq_iff_eq.mpr hsel, Bool.true_or] at h
          exact Bool.false_ne_true h
        · rw [Option.isSome_iff_ne_none.mpr hnext, Bool.or_true] at h
          exact Bool.false_ne_true h
    intro good
    have hlent : (good.port p).lent = (s.port p).lent := by
      have hport : good.port p = accepted (s.port p) sel side (s.port p) := port_modPort (s := fresh s) hp
      rw [hport, accepted_lent]
    have hexec (hd : List (BitVec 32)) (hhd : hd.length = 8 ∨ hd = []) := (frameReceive_eq h32 hp hst hrx true sel hhd data bad side).trans (if_neg hgood)
    refine ⟨(hexec [] (.inr rfl)).trans (if_pos (.inl rfl)), ?_⟩
    intro pkt n k c
    refine ⟨fun hno => (hexec hdr (.inl hlen)).trans (if_pos ?_), fun hle hlow => (hexec hdr (.inl hlen)).trans ((if_neg ?_).trans ?_)⟩
    · rcases hno with hlt | hover
      · refine .inr (.inl ?_)
        show (good.port p).lent.getD k 0 < n
        rw [hlent]
        exact hlt
      · refine .inr (.inr ?_)
        show ctrLimit < c
        omega
    · rintro (h | h | h)
      · rw [h] at hlen
        exact absurd hlen (by decide)
      · change (good.port p).lent.getD k 0 < n at h
        rw [hlent] at h
        exact absurd h (not_lt.mpr hle)
      · change ctrLimit < c at h
        omega
    · show Host.Outcome.next ({ good.modPort p (fun y => { y with
          rcvd := y.rcvd + BitVec.ofNat 64 n, rxcnt := BitVec.ofNat 64 c, lent := y.lent.set k ((good.port p).lent.getD k 0 - n),
          rxst := if y.rxnext.isSome then y.rxst else rxState c, exch := if y.rxnext.isNone && rxState c ≠ 1 then max 1 y.exch else y.exch }) with
            inq := s.inq ++ [{ port := p, pkt := pkt, around := none }] } : State) = _
      have hexch (y : Port) : (if (y.rxnext.isNone && decide (rxState c ≠ 1)) = true then max 1 y.exch else y.exch) =
          if y.rxnext = none ∧ 2 ^ 64 - 1 - 2 ^ 32 ≤ c then max 1 y.exch else y.exch := by
        refine if_congr ?_ rfl rfl
        rw [Bool.and_eq_true, decide_eq_true_iff, rxState_ne_one c, Option.isNone_iff_eq_none]
      refine congrArg (fun t : State => (Host.Outcome.next { t with inq := s.inq ++ [{ port := p, pkt := pkt, around := none }] } : Out)) (modPort_congr ?_)
      rw [hlent, hexch (good.port p)]
      rfl

theorem frameEvents : FrameEvents := by
  intro s p h32 hp u x
  obtain ⟨hnone, hfail, hheld, hfree, htrained⟩ := keyExchange_events (s := s) h32 hp
  obtain ⟨hrekey, hempty, hpacket⟩ := frameSend_events (s := s) (p := p) h32
  exact ⟨hnone, hfail, hheld, hfree, htrained, hrekey, hempty, hpacket, frameReceive_events h32 hp⟩

end Sys2Proof.Proofs.FrameRows
end

