-- ==== Sys2Proof/Proofs/PortConfigRows.lean ====
section
/-!
PROOF. Proofs/PortConfigRows.lean: FABCFG and PORTCTL (25 R440, R442).
-/

namespace Sys2Proof.Proofs.PortConfigRows

open Sys2Proof Sys2Proof.Machine Sys2Proof.Claims Sys2Proof.Proofs.CoxSequenceRows Sys2Proof.Proofs.PortStateRows Sys2Proof.Proofs.FrameRows

/-! ## Ports that train -/

section Trains

variable {s : State} {p : Nat}

/-- What a port that trains has of its own. -/
theorem portTrains_eq (hp : p < s.ports.length) : ∃ l, s.portTrains p = s.modPort p (fun y => { y with
    lent := l, st := 1, txst := 0, rxst := 0, txsel := false, rxsel := false, txkey := none, rxkey := none, rxnext := none, rxcnt := 0#64, fails := 0, exch := 0,
    credit := List.replicate 12 16 }) := by
  unfold State.portTrains State.repay
  rw [modPort_modPort hp]
  exact ⟨_, rfl⟩

/-- Of the ports only one has changed, and nothing is under way if nothing was. -/
structure OnlyPort (s t : State) (p : Nat) : Prop where
  count : t.ports.length = s.ports.length
  cfg : t.fabcfg = s.fabcfg
  outq : s.outq = [] → t.outq = []
  wire : s.wire = [] → t.wire = []
  others : ∀ j, j ≠ p → t.port j = s.port j

theorem OnlyPort.trans {s t u : State} {p : Nat} (h : OnlyPort s t p) (h' : OnlyPort t u p) : OnlyPort s u p :=
  ⟨h'.count.trans h.count, h'.cfg.trans h.cfg, fun ho => h'.outq (h.outq ho), fun hw => h'.wire (h.wire hw), fun j hj => (h'.others j hj).trans (h.others j hj)⟩

theorem onlyPort_modPort (s : State) (p : Nat) (f : Port → Port) : OnlyPort s (s.modPort p f) p :=
  ⟨modPort_length, rfl, id, id, fun _ hj => port_modPort_of_ne hj⟩

/-- A port tries to train: it trains, or nothing changes. -/
theorem portTry_cases (hp : p < s.ports.length) :
    (∃ l, (s.fabEn = true ∧ s.expected p ≠ none ∧ (s.port p).admdn = false) ∧ s.portTry p = s.modPort p (fun y => { y with
      lent := l, st := 1, txst := 0, rxst := 0, txsel := false, rxsel := false, txkey := none, rxkey := none, rxnext := none, rxcnt := 0#64, fails := 0, exch := 0,
      credit := List.replicate 12 16 })) ∨
    (¬ (s.fabEn = true ∧ s.expected p ≠ none ∧ (s.port p).admdn = false) ∧ s.portTry p = s) := by
  by_cases h : s.fabEn = true ∧ s.expected p ≠ none ∧ (s.port p).admdn = false
  · obtain ⟨hen, hpeer, hadm⟩ := h
    obtain ⟨l, hl⟩ := portTrains_eq hp
    exact .inl ⟨l, ⟨hen, hpeer, hadm⟩, (portTry_trains hen hpeer hadm).trans hl⟩
  · refine .inr ⟨h, if_neg (fun htry => h ?_)⟩
    rw [Bool.and_eq_true, Bool.and_eq_true, Option.isSome_iff_ne_none, Bool.not_eq_true'] at htry
    exact ⟨htry.1.1, htry.1.2, htry.2⟩

theorem portTry_frame (hp : p < s.ports.length) : s.portTry p = { s with ports := (s.portTry p).ports } := by
  obtain ⟨l, -, hl⟩ | ⟨-, hl⟩ := portTry_cases hp
  · rw [hl]
    rfl
  · rw [hl]

theorem portTry_only (hp : p < s.ports.length) : OnlyPort s (s.portTry p) p := by
  obtain ⟨l, -, hl⟩ | ⟨-, hl⟩ := portTry_cases hp <;> rw [hl]
  · exact onlyPort_modPort s p _
  · exact ⟨rfl, rfl, id, id, fun _ _ => rfl⟩

theorem portTry_st (hp : p < s.ports.length) :
    ((s.portTry p).port p).st = if s.fabEn = true ∧ s.expected p ≠ none ∧ (s.port p).admdn = false then 1 else (s.port p).st := by
  obtain ⟨l, h, hl⟩ | ⟨h, hl⟩ := portTry_cases hp
  · rw [hl, port_modPort hp, if_pos h]
  · rw [hl, if_neg h]

/-- Training leaves the maps and ADMDN as they are. -/
theorem portTry_maps (hp : p < s.ports.length) : ((s.portTry p).port p).admdn = (s.port p).admdn ∧ ((s.portTry p).port p).mapv = (s.port p).mapv ∧
    ((s.portTry p).port p).lport = (s.port p).lport := by
  obtain ⟨l, -, hl⟩ | ⟨-, hl⟩ := portTry_cases hp
  · rw [hl, port_modPort hp]
    exact ⟨rfl, rfl, rfl⟩
  · rw [hl]
    exact ⟨rfl, rfl, rfl⟩

/-- What a port is to reach, seen through a change of ports that leaves the spares' maps and the address as they are. -/
theorem expected_congr {t : State} (hcfg : t.fabcfg = s.fabcfg) (hmaps : ∀ j, (t.port j).mapv = (s.port j).mapv ∧ (t.port j).lport = (s.port j).lport) (j : Nat) :
    t.expected j = s.expected j := by
  have hserves : t.serves? j = s.serves? j := by
    unfold State.serves?
    simp only [fun i => (hmaps i).1, fun i => (hmaps i).2]
  have hpeer : t.peerOf = s.peerOf := by
    funext i
    unfold State.peerOf State.inGrid State.own State.rn State.cn
    rw [hcfg]
  unfold State.expected
  rw [hserves, hpeer]

theorem fabEn_congr {t : State} (hcfg : t.fabcfg = s.fabcfg) : t.fabEn = s.fabEn := by
  unfold State.fabEn
  rw [hcfg]

/-- Every port of a list tries to train. -/
theorem foldl_portTry (l : List Nat) : ∀ s : State, (∀ p ∈ l, p < s.ports.length) → l.Nodup →
    let t := l.foldl (fun s p => s.portTry p) s
    t = { s with ports := t.ports } ∧ t.ports.length = s.ports.length ∧ (∀ j, j ∉ l → t.port j = s.port j) ∧
    ∀ p ∈ l, (t.port p).st = if s.fabEn = true ∧ s.expected p ≠ none ∧ (s.port p).admdn = false then 1 else (s.port p).st := by
  induction l with
  | nil => exact fun s _ _ => ⟨rfl, rfl, fun _ _ => rfl, fun p hp => absurd hp List.not_mem_nil⟩
  | cons p l ih =>
    intro s hlen hdup
    rw [List.nodup_cons] at hdup
    obtain ⟨hnot, hdup⟩ := hdup
    have hp := hlen p List.mem_cons_self
    have hsame := portTry_frame hp
    obtain ⟨hcount, -, -, -, hothers⟩ := portTry_only hp
    have hst := portTry_st hp
    obtain ⟨-, hmapv, hlport⟩ := portTry_maps hp
    have hih := ih (s.portTry p) (fun q hq => hcount ▸ hlen q (List.mem_cons_of_mem _ hq)) hdup
    rw [List.foldl_cons]
    generalize s.portTry p = u at hsame hcount hothers hst hmapv hlport hih
    obtain ⟨hframe, hcount', hothers', hall⟩ := hih
    have hcfg : u.fabcfg = s.fabcfg := (congrArg State.fabcfg hsame).trans rfl
    have hmaps (j : Nat) : (u.port j).mapv = (s.port j).mapv ∧ (u.port j).lport = (s.port j).lport := by
      by_cases hj : j = p
      · subst hj
        exact ⟨hmapv, hlport⟩
      · rw [hothers j hj]
        exact ⟨rfl, rfl⟩
    refine ⟨?_, hcount'.trans hcount, fun j hj => ?_, fun q hq => ?_⟩
    · generalize l.foldl (fun s p => s.portTry p) u = t at hframe ⊢
      rw [hframe, hsame]
    · rw [hothers' j (fun h => hj (List.mem_cons_of_mem _ h)), hothers j (fun h => hj (h ▸ List.mem_cons_self))]
    · by_cases hqp : q = p
      · subst hqp
        rw [hothers' q hnot, hst]
      · have hin : q ∈ l := (List.mem_cons.mp hq).resolve_left hqp
        rw [hall q hin, hothers q hqp, fabEn_congr hcfg, expected_congr hcfg hmaps]

end Trains

/-! ## Ports that are taken out of service -/

section Leaves

variable {s : State} {p : Nat}

/-- With nothing under way, a port that leaves service changes in itself only. -/
theorem portLeaves_parts (hp : p < s.ports.length) (hout : s.outq = []) (hwire : s.wire = []) (st : Nat) :
    OnlyPort s (s.portLeaves p 0 st) p ∧ ((s.portLeaves p 0 st).port p).st = st ∧ ((s.portLeaves p 0 st).port p).admdn = (s.port p).admdn ∧
    ((s.portLeaves p 0 st).port p).mapv = (s.port p).mapv ∧ ((s.portLeaves p 0 st).port p).lport = (s.port p).lport := by
  have hquiet := portLeaves_of_quiet (s := s) (p := p) (by rw [hout]; exact fun _ h => absurd h List.not_mem_nil)
    (by rw [hwire]; exact fun _ h => absurd h List.not_mem_nil) 0 st
  rw [hquiet]
  dsimp only
  split
  · rw [modPort_modPort hp, rasLog_port, port_modPort hp]
    obtain ⟨m, r, heq, -⟩ := rasLog_eq (s.modPort p (fun y => { y with st := st, downAt := s.cycle, downs := y.downs + 1#32 })) 5 (p * 65536 + p / 8 * 64) 0 0
    rw [heq]
    obtain ⟨hcount, hcfg, houtq, hwires, hothers⟩ := onlyPort_modPort s p (fun y => { y with st := st, downAt := s.cycle, downs := y.downs + 1#32 })
    exact ⟨⟨hcount, hcfg, houtq, hwires, hothers⟩, rfl, rfl, rfl, rfl⟩
  · rw [port_modPort hp]
    exact ⟨onlyPort_modPort s p _, rfl, rfl, rfl, rfl⟩

/-- A port that has left service, with more of it changed: what it is to reach is as before. -/
theorem left_parts (hp : p < s.ports.length) (hout : s.outq = []) (hwire : s.wire = []) (st : Nat) (f : Port → Port) :
    ∃ y : Port, y.st = st ∧ y.admdn = (s.port p).admdn ∧ y.mapv = (s.port p).mapv ∧ y.lport = (s.port p).lport ∧
      OnlyPort s ((s.portLeaves p 0 st).modPort p f) p ∧ ((s.portLeaves p 0 st).modPort p f).port p = f y := by
  obtain ⟨honly, hst, hadm, hmapv, hlport⟩ := portLeaves_parts hp hout hwire st
  exact ⟨_, hst, hadm, hmapv, hlport, honly.trans (onlyPort_modPort _ p f), port_modPort (honly.count ▸ hp)⟩

/-- A change of one port that keeps its map keeps what each port is to reach. -/
theorem OnlyPort.maps {t : State} (h : OnlyPort s t p) (hmapv : (t.port p).mapv = (s.port p).mapv) (hlport : (t.port p).lport = (s.port p).lport) (j : Nat) :
    (t.port j).mapv = (s.port j).mapv ∧ (t.port j).lport = (s.port j).lport := by
  by_cases hj : j = p
  · subst hj
    exact ⟨hmapv, hlport⟩
  · rw [h.others j hj]
    exact ⟨rfl, rfl⟩

end Leaves

theorem fabcfg_eq (v : BitVec 32) (s : State) : exec (.fabcfg v) s =
    if (!s.hostOpen) = true then .next (fresh s)
    else if s.fabEn = true ∨ bitsOf v.toNat 15 1 ≠ 0 ∨ bitsOf v.toNat 23 20 < bitsOf v.toNat 31 24 / 16 ∨ bitsOf v.toNat 19 16 < bitsOf v.toNat 31 24 % 16 then
      .next (fresh s)
    else .next ((List.range 32).foldl (fun s p => s.portTry p) { fresh s with fabcfg := v }) := rfl

theorem portctlAdmdn_eq (p : Nat) (v : Bool) (s : State) : exec (.portctlAdmdn p v) s =
    if (!s.hostOpen) = true then .next (fresh s)
    else if 32 ≤ p ∨ (s.port p).admdn = v then .next (fresh s)
    else
      let st := if v = true ∨ ((s.serves? p).isNone = true ∧ p < 30) then 4 else 0
      let t := ((fresh s).portLeaves p 0 st).modPort p (fun y => { y with admdn := v, txst := 0, rxst := 0, exch := 0, tries := 0 })
      .next (if v = true then t else t.portTry p) := rfl

theorem portctlRetrain_eq (p : Nat) (s : State) : exec (.portctlRetrain p) s =
    if (!s.hostOpen) = true then .next (fresh s)
    else if 32 ≤ p ∨ (s.port p).st = 4 then .next (fresh s)
    else .next ((((fresh s).portLeaves p 0 0).modPort p (fun y => { y with tries := 0 })).portTry p) := rfl

/-- The logical port that a spare served goes back to its own port. -/
def mapReturned (u : State) (p : Nat) (x : Port) : State :=
  let t := (u.portLeaves p 0 (if x.admdn then 4 else 0)).modPort p (fun y => { y with mapv := false, lport := 0, txst := 0, rxst := 0, exch := 0 })
  (t.modPort x.lport (fun y => { y with st := if y.admdn then 4 else 0 })).portTry x.lport

theorem portctlMapv_eq (p : Nat) (v : Bool) (l : Nat) (s : State) : exec (.portctlMapv p v l) s =
    if (!s.hostOpen) = true then .next (fresh s)
    else
      let x := s.port p
      let l := l % 32
      if p < 30 ∨ 32 ≤ p ∨ (x.mapv = v ∧ x.lport = l) ∨ (v = true ∧ (30 ≤ l ∨ (s.port (61 - p)).mapv = true ∧ (s.port (61 - p)).lport = l)) then .next (fresh s)
      else
        let t := if x.mapv = true then mapReturned (fresh s) p x else fresh s
        if v = true then
          .next ((((t.portLeaves l 0 4).modPort l (fun y => { y with txst := 0, rxst := 0, exch := 0 })).modPort p
            (fun y => { y with mapv := true, lport := l, tries := 0 })).portTry p)
        else .next (t.modPort p (fun y => { y with lport := l })) := rfl

section Config

variable {s : State} {p : Nat}

theorem bit_fabcfg (v : BitVec 32) : bitOf v.toNat 0 = v.getLsbD 0 := by
  unfold bitOf
  rw [BitVec.getLsbD]

theorem fabcfg_events (hopen : s.hostOpen = true) (hlen : s.ports.length = 32) (v : BitVec 32) :
    (s.fabEn = true ∨ bitsOf v.toNat 15 1 ≠ 0 ∨ bitsOf v.toNat 23 20 < bitsOf v.toNat 31 24 / 16 ∨ bitsOf v.toNat 19 16 < bitsOf v.toNat 31 24 % 16 →
      exec (.fabcfg v) s = .next (fresh s)) ∧
    (s.fabEn = false → bitsOf v.toNat 15 1 = 0 → bitsOf v.toNat 31 24 / 16 ≤ bitsOf v.toNat 23 20 → bitsOf v.toNat 31 24 % 16 ≤ bitsOf v.toNat 19 16 →
      Answers (exec (.fabcfg v) s) (fun t => t = { fresh s with fabcfg := v, ports := t.ports } ∧ t.ports.length = 32 ∧
        ∀ p, p < 32 → (t.port p).st = if bitOf v.toNat 0 = true ∧ ({ fresh s with fabcfg := v }).expected p ≠ none ∧ (s.port p).admdn = false then 1 else (s.port p).st)) := by
  have hhost : ¬ (!s.hostOpen) = true := by
    rw [hopen]
    decide
  rw [fabcfg_eq, if_neg hhost]
  constructor
  · exact fun hbad => if_pos hbad
  · intro hen hrsv hrow hcol
    have hgood : ¬ (s.fabEn = true ∨ bitsOf v.toNat 15 1 ≠ 0 ∨ bitsOf v.toNat 23 20 < bitsOf v.toNat 31 24 / 16 ∨ bitsOf v.toNat 19 16 < bitsOf v.toNat 31 24 % 16) := by
      rintro (h | h | h | h)
      · rw [hen] at h
        exact Bool.false_ne_true h
      · exact h hrsv
      · omega
      · omega
    rw [if_neg hgood]
    obtain ⟨hframe, hcount, -, hall⟩ := foldl_portTry (List.range 32) { fresh s with fabcfg := v }
      (fun p hp => by rw [show (({ fresh s with fabcfg := v } : State)).ports.length = 32 from hlen]; exact List.mem_range.mp hp) List.nodup_range
    refine ⟨_, rfl, hframe, hcount.trans hlen, fun p hp => ?_⟩
    rw [hall p (List.mem_range.mpr hp), bit_fabcfg]
    rfl

theorem admdn_events (hopen : s.hostOpen = true) (hlen : s.ports.length = 32) (hout : s.outq = []) (hwire : s.wire = []) (hp : p < 32) :
    exec (.portctlAdmdn p (s.port p).admdn) s = .next (fresh s) ∧
    ((s.port p).admdn = false → Answers (exec (.portctlAdmdn p true) s) (fun t =>
      (t.port p).st = 4 ∧ (t.port p).admdn = true ∧ (t.port p).txst = 0 ∧ ∀ j, j ≠ p → t.port j = s.port j)) ∧
    ((s.port p).admdn = true → Answers (exec (.portctlAdmdn p false) s) (fun t => (t.port p).admdn = false ∧
      (t.port p).st = (if s.fabEn = true ∧ s.expected p ≠ none then 1 else if p < 30 ∧ s.serves? p = none then 4 else 0) ∧
      ∀ j, j ≠ p → t.port j = s.port j)) := by
  have hhost : ¬ (!s.hostOpen) = true := by
    rw [hopen]
    decide
  have hfresh : p < (fresh s).ports.length := hlen ▸ hp
  refine ⟨?_, fun hadm => ?_, fun hadm => ?_⟩
  · rw [portctlAdmdn_eq, if_neg hhost]
    exact if_pos (.inr rfl)
  · have hgood : ¬ (32 ≤ p ∨ (s.port p).admdn = true) := by
      rw [hadm]
      exact fun h => h.elim (fun h => by omega) Bool.false_ne_true
    rw [portctlAdmdn_eq, if_neg hhost, if_neg hgood]
    dsimp only
    rw [if_pos (Or.inl rfl), if_pos rfl]
    obtain ⟨y, hst, -, -, -, honly, hport⟩ := left_parts (s := fresh s) hfresh hout hwire 4 (fun y => { y with admdn := true, txst := 0, rxst := 0, exch := 0, tries := 0 })
    exact ⟨_, rfl, by rw [hport]; exact hst, by rw [hport], by rw [hport], honly.others⟩
  · have hgood : ¬ (32 ≤ p ∨ (s.port p).admdn = false) := by
      rw [hadm]
      exact fun h => h.elim (fun h => by omega) (fun h => Bool.false_ne_true h.symm)
    rw [portctlAdmdn_eq, if_neg hhost, if_neg hgood]
    dsimp only
    rw [if_neg Bool.false_ne_true]
    generalize hst0 : (if (false : Bool) = true ∨ ((s.serves? p).isNone = true ∧ p < 30) then 4 else 0) = st0
    obtain ⟨y, hst, -, hmapv, hlport, honly, hport⟩ :=
      left_parts (s := fresh s) hfresh hout hwire st0 (fun y => { y with admdn := false, txst := 0, rxst := 0, exch := 0, tries := 0 })
    generalize ((fresh s).portLeaves p 0 st0).modPort p (fun y => { y with admdn := false, txst := 0, rxst := 0, exch := 0, tries := 0 }) = m at honly hport
    have hpm : p < m.ports.length := honly.count ▸ hfresh
    have hmaps := honly.maps (by rw [hport]; exact hmapv) (by rw [hport]; exact hlport)
    refine ⟨_, rfl, ?_, ?_, fun j hj => ((portTry_only hpm).others j hj).trans (honly.others j hj)⟩
    · rw [(portTry_maps hpm).1, hport]
    · rw [portTry_st hpm, hport, fabEn_congr honly.cfg, expected_congr honly.cfg hmaps]
      dsimp only
      rw [hst, ← hst0]
      refine if_congr (by simp; rfl) rfl (if_congr ?_ rfl rfl)
      rw [Option.isNone_iff_eq_none]
      simp [and_comm]

theorem retrain_events (hopen : s.hostOpen = true) (hlen : s.ports.length = 32) (hout : s.outq = []) (hwire : s.wire = []) (hp : p < 32) :
    ((s.port p).st = 4 → exec (.portctlRetrain p) s = .next (fresh s)) ∧
    ((s.port p).st ≠ 4 → Answers (exec (.portctlRetrain p) s) (fun t =>
      (t.port p).st = (if s.fabEn = true ∧ s.expected p ≠ none ∧ (s.port p).admdn = false then 1 else 0) ∧ ∀ j, j ≠ p → t.port j = s.port j)) := by
  have hhost : ¬ (!s.hostOpen) = true := by
    rw [hopen]
    decide
  have hfresh : p < (fresh s).ports.length := hlen ▸ hp
  rw [portctlRetrain_eq, if_neg hhost]
  refine ⟨fun hst => if_pos (.inr hst), fun hst => ?_⟩
  rw [if_neg (fun h => h.elim (fun h => by omega) hst)]
  obtain ⟨y, hst, hadm, hmapv, hlport, honly, hport⟩ := left_parts (s := fresh s) hfresh hout hwire 0 (fun y => { y with tries := 0 })
  generalize ((fresh s).portLeaves p 0 0).modPort p (fun y => { y with tries := 0 }) = m at honly hport
  have hpm : p < m.ports.length := honly.count ▸ hfresh
  have hmaps := honly.maps (by rw [hport]; exact hmapv) (by rw [hport]; exact hlport)
  refine ⟨_, rfl, ?_, fun j hj => ((portTry_only hpm).others j hj).trans (honly.others j hj)⟩
  rw [portTry_st hpm, hport, fabEn_congr honly.cfg, expected_congr honly.cfg hmaps]
  dsimp only
  rw [hst, hadm]
  rfl

/-- A logical port that no spare serves is served by its own port. -/
theorem serves_own {q : Nat} (hq : q < 30) (h30 : (s.port 30).mapv = false) (h31 : (s.port 31).mapv = false) : s.serves? q = some q := by
  unfold State.serves?
  rw [if_pos hq, if_neg]
  simp [h30, h31]

/-- One of the two spares is the other's other. -/
theorem spares {P : Nat → Prop} (h30 : 30 ≤ p) (h32 : p < 32) (hp : P p) (ho : P (61 - p)) : P 30 ∧ P 31 := by
  obtain rfl | rfl : p = 30 ∨ p = 31 := by omega
  · exact ⟨hp, ho⟩
  · exact ⟨ho, hp⟩

theorem unmap_event (hopen : s.hostOpen = true) (hlen : s.ports.length = 32) (hout : s.outq = []) (hwire : s.wire = []) (l : Nat) (h30 : 30 ≤ p) (h32 : p < 32)
    (hmapv : (s.port p).mapv = true) (hlport : (s.port p).lport < 30) (hother : (s.port (61 - p)).mapv = false) :
    let q := (s.port p).lport
    Answers (exec (.portctlMapv p false l) s) (fun t => (t.port p).mapv = false ∧ (t.port p).st = (if (s.port p).admdn = true then 4 else 0) ∧
      (t.port q).st = (if (s.port q).admdn = true then 4 else if s.fabEn = true ∧ s.peerOf q ≠ none then 1 else 0) ∧
      ∀ j, j ≠ p → j ≠ q → t.port j = s.port j) := by
  intro q
  have hhost : ¬ (!s.hostOpen) = true := by
    rw [hopen]
    decide
  have hfresh : p < (fresh s).ports.length := hlen ▸ h32
  have hqp : q ≠ p := fun h => absurd hlport (by omega)
  have hgood : ¬ (p < 30 ∨ 32 ≤ p ∨ ((s.port p).mapv = false ∧ (s.port p).lport = l % 32) ∨
      (false = true ∧ (30 ≤ l % 32 ∨ (s.port (61 - p)).mapv = true ∧ (s.port (61 - p)).lport = l % 32))) := by
    rintro (h | h | ⟨h, -⟩ | ⟨h, -⟩)
    · omega
    · omega
    · exact Bool.false_ne_true (h.symm.trans hmapv)
    · exact Bool.false_ne_true h
  rw [portctlMapv_eq, if_neg hhost]
  dsimp only
  rw [if_neg hgood, if_pos hmapv, if_neg Bool.false_ne_true]
  unfold mapReturned
  dsimp only
  obtain ⟨y, hst, hadm, -, -, honly, hport⟩ := left_parts (s := fresh s) hfresh hout hwire (if (s.port p).admdn then 4 else 0)
    (fun y => { y with mapv := false, lport := 0, txst := 0, rxst := 0, exch := 0 })
  generalize ((fresh s).portLeaves p 0 (if (s.port p).admdn then 4 else 0)).modPort p
    (fun y => { y with mapv := false, lport := 0, txst := 0, rxst := 0, exch := 0 }) = m at honly hport
  have hqm : q < m.ports.length := by
    rw [honly.count]
    show q < s.ports.length
    rw [hlen]
    omega
  have hq0 : m.port q = s.port q := honly.others q hqp
  have hback := onlyPort_modPort m q (fun y => { y with st := if y.admdn then 4 else 0 })
  have hqport : (m.modPort q (fun y => { y with st := if y.admdn then 4 else 0 })).port q = { s.port q with st := if (s.port q).admdn then 4 else 0 } := by
    rw [port_modPort hqm, hq0]
  generalize hn : m.modPort q (fun y => { y with st := if y.admdn then 4 else 0 }) = n at hback hqport
  have hqn : q < n.ports.length := hback.count ▸ hqm
  have htry := portTry_only hqn
  have hp' : ((n.portTry q).port p) = { y with mapv := false, lport := 0, txst := 0, rxst := 0, exch := 0 } := by
    rw [htry.others p (Ne.symm hqp), hback.others p (Ne.symm hqp), hport]
  have hplen : p < (n.portTry q).ports.length := by
    rw [htry.count, hback.count, honly.count]
    exact hfresh
  have hspare (j : Nat) (hj : 30 ≤ j) : n.port j = m.port j := hback.others j (by omega)
  have hfree : (n.port 30).mapv = false ∧ (n.port 31).mapv = false := by
    refine spares (P := fun j => (n.port j).mapv = false) h30 h32 ?_ ?_
    · rw [hspare p h30, hport]
    · rw [hspare _ (by omega), honly.others _ (by omega)]
      exact hother
  have hcfg : n.fabcfg = s.fabcfg := hback.cfg.trans honly.cfg
  have hexp : n.expected q = s.peerOf q := by
    unfold State.expected
    rw [serves_own hlport hfree.1 hfree.2]
    show n.peerOf q = s.peerOf q
    unfold State.peerOf State.inGrid State.own State.rn State.cn
    rw [hcfg]
  have hlast := onlyPort_modPort (n.portTry q) p (fun y => { y with lport := l % 32 })
  have hplast : ((n.portTry q).modPort p (fun y => { y with lport := l % 32 })).port p = { y with mapv := false, lport := l % 32, txst := 0, rxst := 0, exch := 0 } := by
    rw [port_modPort hplen, hp']
  refine ⟨_, rfl, by rw [hplast], by rw [hplast]; exact hst, ?_, fun j hjp hjq => ?_⟩
  · rw [hlast.others q hqp, portTry_st hqn, hqport, fabEn_congr hcfg, hexp]
    dsimp only
    cases (s.port q).admdn with
    | true => simp
    | false => simp
  · rw [hlast.others j hjp, htry.others j hjq, hback.others j hjq, honly.others j hjp]
    rfl

theorem map_event (hopen : s.hostOpen = true) (hlen : s.ports.length = 32) (hout : s.outq = []) (hwire : s.wire = []) {l : Nat} (h30 : 30 ≤ p) (h32 : p < 32)
    (hl : l < 30) (hmapv : (s.port p).mapv = false) (hother : (s.port (61 - p)).mapv = false) :
    Answers (exec (.portctlMapv p true l) s) (fun t => (t.port p).mapv = true ∧ (t.port p).lport = l ∧ (t.port l).st = 4 ∧ t.serves? p = some l ∧
      t.serves? l = none ∧ ∀ j, j ≠ p → j ≠ l → t.port j = s.port j) := by
  have hhost : ¬ (!s.hostOpen) = true := by
    rw [hopen]
    decide
  have hmod : l % 32 = l := Nat.mod_eq_of_lt (by omega)
  have hlp : l ≠ p := by omega
  have hfresh : l < (fresh s).ports.length := by
    show l < s.ports.length
    rw [hlen]
    omega
  have hgood : ¬ (p < 30 ∨ 32 ≤ p ∨ ((s.port p).mapv = true ∧ (s.port p).lport = l) ∨
      (true = true ∧ (30 ≤ l ∨ (s.port (61 - p)).mapv = true ∧ (s.port (61 - p)).lport = l))) := by
    rintro (h | h | ⟨h, -⟩ | ⟨-, h | ⟨h, -⟩⟩)
    · omega
    · omega
    · exact Bool.false_ne_true (hmapv.symm.trans h)
    · omega
    · exact Bool.false_ne_true (hother.symm.trans h)
  rw [portctlMapv_eq, if_neg hhost]
  dsimp only
  have hserving : ¬ (s.port p).mapv = true := by
    rw [hmapv]
    decide
  rw [hmod, if_neg hgood, if_neg hserving, if_pos rfl]
  obtain ⟨y, hst, -, -, -, honly, hport⟩ := left_parts (s := fresh s) hfresh hout hwire 4 (fun y => { y with txst := 0, rxst := 0, exch := 0 })
  generalize ((fresh s).portLeaves l 0 4).modPort l (fun y => { y with txst := 0, rxst := 0, exch := 0 }) = m at honly hport
  have hpm : p < m.ports.length := by
    rw [honly.count]
    show p < s.ports.length
    omega
  have hmap := onlyPort_modPort m p (fun y => { y with mapv := true, lport := l, tries := 0 })
  have hpport : ((m.modPort p (fun y => { y with mapv := true, lport := l, tries := 0 })).port p).mapv = true ∧
      ((m.modPort p (fun y => { y with mapv := true, lport := l, tries := 0 })).port p).lport = l := by
    rw [port_modPort hpm]
    exact ⟨rfl, rfl⟩
  generalize m.modPort p (fun y => { y with mapv := true, lport := l, tries := 0 }) = n at hmap hpport
  have hpn : p < n.ports.length := hmap.count ▸ hpm
  have htry := portTry_only hpn
  obtain ⟨-, hmaps, hlports⟩ := portTry_maps hpn
  generalize n.portTry p = t at htry hmaps hlports
  rw [hpport.1] at hmaps
  rw [hpport.2] at hlports
  refine ⟨t, rfl, hmaps, hlports, ?_, ?_, ?_, fun j hjp hjl => ?_⟩
  · rw [htry.others l hlp, hmap.others l hlp, hport]
    exact hst
  · unfold State.serves?
    rw [if_neg (not_lt.mpr h30), hmaps, if_pos rfl, hlports]
  · unfold State.serves?
    rw [if_pos hl, if_pos]
    have hin : p ∈ [30, 31] := by
      obtain rfl | rfl : p = 30 ∨ p = 31 := by omega
      · decide
      · decide
    exact List.any_eq_true.mpr ⟨p, hin, by rw [hmaps, hlports]; simp⟩
  · rw [htry.others j hjp, hmap.others j hjp, honly.others j hjl]
    rfl

end Config

theorem closed_events (s : State) (h : s.hostOpen = false) : ∀ v p b l, ∀ e ∈ ([.fabcfg v, .portctlAdmdn p b, .portctlRetrain p, .portctlMapv p b l] : List Instr),
    exec e s = .next (fresh s) := by
  intro v p b l
  simp only [List.forall_mem_cons, fabcfg_eq, portctlAdmdn_eq, portctlRetrain_eq, portctlMapv_eq, h]
  simp

theorem portConfigEvents : PortConfigEvents := by
  intro s hlen hout hwire u
  refine ⟨closed_events s, fun hopen => ⟨fabcfg_events hopen hlen, fun p hp => ?_, fun p l h30 h32 hmapv hlport hother => ?_,
    fun p l h30 h32 hl hmapv hother => map_event hopen hlen hout hwire h30 h32 hl hmapv hother⟩⟩
  · obtain ⟨hsame, hdown, hback⟩ := admdn_events (p := p) hopen hlen hout hwire hp
    exact ⟨hsame, hdown, hback, retrain_events hopen hlen hout hwire hp⟩
  · exact unmap_event hopen hlen hout hwire l h30 h32 hmapv hlport hother

/-- Settles O48. -/
theorem portEvents : Obligations.PortEvents := ⟨portStateEvents, frameEvents, portConfigEvents⟩

end Sys2Proof.Proofs.PortConfigRows
end

