-- ==== Sys2Proof/Proofs/HostRows.lean ====
section
/-!
PROOF. Proofs/HostRows.lean: what the host does to the package: fault responses, BOOTL, BAR2, address groups, MSI-X and the management window
(13 R288; 21 R380, R391; 23 R409, R414 to R417, R420).
-/

namespace Sys2Proof.Proofs.HostRows

open Sys2Proof Sys2Proof.Machine Sys2Proof.Claims Sys2Proof.Proofs.CoxSequenceRows

/-! ## Fault responses (R380, R391, R417) -/

section Responses

variable {s : State} {dom : Bool} {owner seq : Nat}

/-- A fault response has its effect on the agent that the record names. -/
theorem fresp_eq (dom : Bool) (owner seq : Nat) (s : State) :
    (exec (.frespResume dom owner seq) s = if (!s.hostOpen) = true then .next (fresh s) else match (fresh s).faultAgent dom owner seq with
      | none => .next (fresh s)
      | some a => .next ((fresh s).resumeAgent a)) ∧
    (exec (.frespDecline dom owner seq) s = if (!s.hostOpen) = true then .next (fresh s) else match (fresh s).faultAgent dom owner seq with
      | none => .next (fresh s)
      | some a => .next ((fresh s).declineAgent a)) ∧
    (exec (.frespTerminate dom owner seq) s = if (!s.hostOpen) = true then .next (fresh s) else match (fresh s).faultAgent dom owner seq with
      | none => .next (fresh s)
      | some a => match (fresh s).agentCtx a with
        | none => .next (fresh s)
        | some c => .next ((fresh s).terminate c)) := ⟨rfl, rfl, rfl⟩

theorem fresp_ignored (h : s.hostOpen = false ∨ (fresh s).faultAgent dom owner seq = none) :
    ∀ e ∈ ([.frespResume dom owner seq, .frespDecline dom owner seq, .frespTerminate dom owner seq] : List Instr), exec e s = .next (fresh s) := by
  obtain ⟨hres, hdec, hterm⟩ := fresp_eq dom owner seq s
  simp only [List.forall_mem_cons, hres, hdec, hterm]
  rcases h with h | h
  · rw [h]
    exact ⟨rfl, rfl, rfl, fun _ he => absurd he List.not_mem_nil⟩
  · rw [h]
    cases s.hostOpen
    · exact ⟨rfl, rfl, rfl, fun _ he => absurd he List.not_mem_nil⟩
    · exact ⟨rfl, rfl, rfl, fun _ he => absurd he List.not_mem_nil⟩

theorem fresp_agent {a : FaultAgent} (hopen : s.hostOpen = true) (ha : (fresh s).faultAgent dom owner seq = some a) :
    exec (.frespResume dom owner seq) s = .next ((fresh s).resumeAgent a) ∧ exec (.frespDecline dom owner seq) s = .next ((fresh s).declineAgent a) ∧
    ∀ c, (fresh s).agentCtx a = some c → exec (.frespTerminate dom owner seq) s = .next ((fresh s).terminate c) := by
  obtain ⟨hres, hdec, hterm⟩ := fresp_eq dom owner seq s
  have hhost : ¬ (!s.hostOpen) = true := by
    rw [hopen]
    decide
  rw [hres, hdec, hterm, if_neg hhost, if_neg hhost, if_neg hhost, ha]
  refine ⟨rfl, rfl, fun c hc => ?_⟩
  dsimp only
  rw [hc]

theorem atImage_of_here {blk : Nat} (h : ∀ b, s.block? blk = some b → b.img = none) (f : State → State) : s.atImage blk f = f s := by
  unfold State.atImage
  cases hb : s.block? blk with
  | none => rfl
  | some b =>
    dsimp only
    rw [h b hb]

/-- What becomes of a crew that the host resumes: it goes on where it is on a core, and is marked to go on where it is not. -/
def resumed (s : State) (c : Crew) : Crew :=
  let step := c.stall.any (fun (x : Stall) => x.step)
  let here := (s.block? c.blk).any (fun b => b.place == 0 && !(b.harv && (s.core b.core).revoke ≠ 0)) && !(s.ctxSt c.ctx).stopped
  if here then { resumeCrew c step with stall := none } else { c with stall := none, cont := step }

theorem resumeAgent_crew (s : State) (id : Nat) :
    s.resumeAgent (.crew id) = s.atImage (((s.crew? id).map (fun c => c.blk)).getD 0) (fun t => t.modCrew id (resumed t)) := rfl

theorem resumed_here {c : Crew} {b : Block} (hb : s.block? c.blk = some b) (hhere : b.place = 0 ∧ (b.harv = false ∨ (s.core b.core).revoke = 0) ∧ (s.ctxSt c.ctx).stopped = false) :
    resumed s c = { resumeCrew c (c.stall.any (fun y => y.step)) with stall := none } := by
  obtain ⟨hplace, hharv, hstop⟩ := hhere
  refine if_pos ?_
  rw [hb, Option.any_some, hplace, hstop]
  rcases hharv with h | h <;> simp [h]

theorem resumed_away {c : Crew} {b : Block} (hb : s.block? c.blk = some b)
    (haway : ¬ (b.place = 0 ∧ (b.harv = false ∨ (s.core b.core).revoke = 0) ∧ (s.ctxSt c.ctx).stopped = false)) :
    resumed s c = { c with stall := none, cont := c.stall.any (fun y => y.step) } := by
  refine if_neg (fun h => haway ?_)
  rw [hb, Option.any_some] at h
  simp only [Bool.and_eq_true, beq_iff_eq, Bool.not_eq_true', Bool.and_eq_false_iff, decide_eq_false_iff_not, not_not] at h
  exact ⟨h.1.1, h.1.2, h.2⟩

/-- A change of the one crew of an identifier. -/
theorem modCrew_one {id : Nat} {c d : Crew} {f : Crew → Crew} (huniq : ∀ x ∈ s.crews, x.id = id → x = c) (hf : f c = d) :
    s.modCrew id f = { s with crews := s.crews.map (fun (x : Crew) => if x.id == id then d else x) } := by
  have hsame : s.crews.map (fun x => if x.id == id then f x else x) = s.crews.map (fun (x : Crew) => if x.id == id then d else x) := by
    refine List.map_congr_left (fun x hx => ?_)
    by_cases hid : x.id = id
    · rw [huniq x hx hid, hf]
    · rw [if_neg (by simpa using hid), if_neg (by simpa using hid)]
  unfold State.modCrew
  rw [hsame]

theorem declineAgent_crew {id : Nat} {c : Crew} (hc : s.crew? id = some c) : s.declineAgent (.crew id) =
    if c.callee = true then s.atImage c.blk (fun v => v.unwind id c.gates.length 3 ((c.stall.map (fun x => x.cause)).getD 0)) else s.terminate c.ctx := by
  unfold State.declineAgent
  dsimp only
  rw [hc]

theorem crewResponses (hopen : s.hostOpen = true) {id : Nat} {c : Crew} (ha : (fresh s).faultAgent dom owner seq = some (.crew id)) (hc : s.crew? id = some c)
    (huniq : ∀ x ∈ s.crews, x.id = id → x = c) :
    let u := fresh s
    let step := c.stall.any (fun y => y.step)
    let cause := (c.stall.map (fun x => x.cause)).getD 0
    (∀ b, s.block? c.blk = some b → b.img = none →
      let here := b.place = 0 ∧ (b.harv = false ∨ (s.core b.core).revoke = 0) ∧ (s.ctxSt c.ctx).stopped = false
      (here → exec (.frespResume dom owner seq) s = .next { u with
        crews := s.crews.map (fun (x : Crew) => if x.id == id then { resumeCrew c step with stall := none } else x) }) ∧
      (¬ here → exec (.frespResume dom owner seq) s = .next { u with
        crews := s.crews.map (fun (x : Crew) => if x.id == id then { c with stall := none, cont := step } else x) }) ∧
      (c.callee = true → exec (.frespDecline dom owner seq) s = .next (u.unwind id c.gates.length 3 cause))) ∧
    (∀ b, s.block? c.blk = some b → b.place = 1 → b.img ≠ none →
      (∃ f : State → State, exec (.frespResume dom owner seq) s = .next (u.atImage c.blk f) ∧
        ∀ v d, v.crew? id = some d → v.block? d.blk = some b → (∀ x ∈ v.crews, x.id = id → x = d) → f v = { v with
          crews := v.crews.map (fun (x : Crew) => if x.id == id then { d with stall := none, cont := d.stall.any (fun y => y.step) } else x) }) ∧
      (c.callee = true → exec (.frespDecline dom owner seq) s = .next (u.atImage c.blk (fun v => v.unwind id c.gates.length 3 cause)))) ∧
    (c.callee = false → exec (.frespDecline dom owner seq) s = .next (u.terminate c.ctx)) ∧
    exec (.frespTerminate dom owner seq) s = .next (u.terminate c.ctx) := by
  intro u step cause
  obtain ⟨hres, hdec, hterm⟩ := fresp_agent hopen ha
  have hcu : (fresh s).crew? id = some c := hc
  rw [resumeAgent_crew, hcu] at hres
  rw [declineAgent_crew hcu] at hdec
  have hres' : exec (.frespResume dom owner seq) s = .next ((fresh s).atImage c.blk (fun t => t.modCrew id (resumed t))) := hres
  refine ⟨fun b hb himg => ?_, fun b hb hplace himg => ⟨⟨_, hres', fun v d hd hvb hv => ?_⟩, fun hcallee => ?_⟩, fun hcallee => ?_, ?_⟩
  · have hhere (f : State → State) : (fresh s).atImage c.blk f = f (fresh s) := by
      refine atImage_of_here (s := fresh s) (fun b' hb' => ?_) f
      rw [Option.some.inj (hb'.symm.trans hb)]
      exact himg
    rw [hhere] at hres'
    intro here
    refine ⟨fun h => ?_, fun h => ?_, fun hcallee => ?_⟩
    · rw [hres', modCrew_one (s := fresh s) huniq (resumed_here (s := fresh s) hb h)]
      rfl
    · rw [hres', modCrew_one (s := fresh s) huniq (resumed_away (s := fresh s) hb h)]
      rfl
    · rw [hdec, if_pos hcallee, hhere]
  · exact modCrew_one hv (resumed_away hvb (fun h => absurd (hplace.symm.trans h.1) (by decide)))
  · rw [hdec, if_pos hcallee]
  · rw [hdec, if_neg (by rw [hcallee]; decide)]
  · refine hterm c.ctx ?_
    show ((fresh s).crew? id).map (fun c => c.ctx) = _
    rw [hcu]
    rfl

theorem declineAgent_op {id k : Nat} {o : Op} (ho : s.op? id = some o) : s.declineAgent (.op id k) = s.atImage o.blk (fun v =>
    if o.cls = 2 then
      let w := sliceEnd v o k 3
      match w.op? id with
      | some x => w.retireTask x
      | none => w
    else v.failOp ((v.op? id).getD o) 3) := by
  unfold State.declineAgent
  dsimp only
  rw [ho] <;> rfl

theorem opResponses (hopen : s.hostOpen = true) {id k : Nat} {o : Op} (ha : (fresh s).faultAgent dom owner seq = some (.op id k)) (ho : s.op? id = some o) :
    let u := fresh s
    exec (.frespResume dom owner seq) s = .next (u.modOp id (fun x => { x with pause := x.pause.filter (fun q => q.1 ≠ k) })) ∧
    (o.cls ≠ 2 → ((∀ b, s.block? o.blk = some b → b.img = none) → exec (.frespDecline dom owner seq) s = .next (u.failOp o 3)) ∧
      exec (.frespDecline dom owner seq) s = .next (u.atImage o.blk (fun v => v.failOp ((v.op? id).getD o) 3))) ∧
    (o.cls = 2 → exec (.frespDecline dom owner seq) s = .next (u.atImage o.blk (fun v =>
      let w := sliceEnd v o k 3
      match w.op? id with
      | some x => w.retireTask x
      | none => w))) ∧
    exec (.frespTerminate dom owner seq) s = .next (u.terminate o.ctx) := by
  intro u
  obtain ⟨hres, hdec, hterm⟩ := fresp_agent hopen ha
  have hou : (fresh s).op? id = some o := ho
  rw [declineAgent_op hou] at hdec
  refine ⟨hres, fun hcls => ?_, fun hcls => ?_, ?_⟩
  · simp only [if_neg hcls] at hdec
    refine ⟨fun himg => ?_, hdec⟩
    rw [hdec, atImage_of_here (s := fresh s) himg, hou]
    rfl
  · simp only [if_pos hcls] at hdec
    exact hdec
  · refine hterm o.ctx ?_
    show ((fresh s).op? id).map (fun o => o.ctx) = _
    rw [hou]
    rfl

end Responses

theorem faultResponses : FaultResponses := by
  intro s dom owner seq u
  refine ⟨fun h => fresp_ignored h, fun hopen => ⟨fun id c ha hc huniq => crewResponses hopen ha hc huniq, fun id k o ha ho => opResponses hopen ha ho,
    fun id l ha hl => ?_⟩⟩
  obtain ⟨hres, hdec, hterm⟩ := fresp_agent hopen ha
  refine ⟨hres, hdec, hterm l.ctx ?_⟩
  show ((fresh s).launch? id).map (fun l => l.ctx) = _
  rw [show (fresh s).launch? id = some l from hl]
  rfl

/-! ## Bytes that the host writes (R409, R431) -/

section Bytes

variable {s : State}

/-- One byte after another put down, each where it does not belong to a sealed context's entries. -/
def putUnsealed (s : State) (pa key : Nat) (t : State) (p : Byte × Nat) : State := if s.sealedEntry (pa + p.2) then t else t.putKey (pa + p.2) key [p.1]

theorem putUnsealed_get {t : State} (hwf : t.mem.wf = true) (pa key : Nat) (p : Byte × Nat) (a : Nat) : (putUnsealed s pa key t p).mem.wf = true ∧
    (putUnsealed s pa key t p).mem.get a = if a = pa + p.2 ∧ s.sealedEntry a = false then p.1 else t.mem.get a := by
  unfold putUnsealed
  split
  · next h =>
    refine ⟨hwf, (if_neg ?_).symm⟩
    rintro ⟨rfl, hopen⟩
    exact Bool.false_ne_true (hopen.symm.trans h)
  · next h =>
    rw [(State.putKey_frame t (pa + p.2) key [p.1]).1]
    refine ⟨Memory.write_wf _ _ hwf, (Memory.get_set hwf _ _ _).trans (if_congr ⟨fun ha => ⟨ha, ?_⟩, fun ha => ha.1⟩ rfl rfl)⟩
    rw [ha]
    exact Bool.eq_false_of_not_eq_true h

theorem foldl_putUnsealed_get (pa key : Nat) (a : Nat) : ∀ (l : List (Byte × Nat)) (t : State), t.mem.wf = true → (l.map Prod.snd).Nodup →
    ((∀ p ∈ l, ¬ (a = pa + p.2 ∧ s.sealedEntry a = false)) → (l.foldl (putUnsealed s pa key) t).mem.get a = t.mem.get a) ∧
    (∀ p ∈ l, a = pa + p.2 → s.sealedEntry a = false → (l.foldl (putUnsealed s pa key) t).mem.get a = p.1)
  | [], _, _, _ => ⟨fun _ => rfl, fun _ hp => absurd hp List.not_mem_nil⟩
  | q :: l, t, hwf, hdup => by
    rw [List.map_cons, List.nodup_cons] at hdup
    obtain ⟨hnot, hdup⟩ := hdup
    obtain ⟨hwf', hget⟩ := putUnsealed_get (s := s) hwf pa key q a
    obtain ⟨hkeep, hput⟩ := foldl_putUnsealed_get pa key a l (putUnsealed s pa key t q) hwf' hdup
    refine ⟨fun hnone => ?_, fun p hp ha hopen => ?_⟩
    · rw [List.foldl_cons, hkeep (fun p hp => hnone p (List.mem_cons_of_mem _ hp)), hget, if_neg (hnone q List.mem_cons_self)]
    · rcases List.mem_cons.mp hp with rfl | hp
      · have hrest : ∀ p' ∈ l, ¬ (a = pa + p'.2 ∧ s.sealedEntry a = false) := by
          rintro p' hp' ⟨ha', -⟩
          exact hnot (List.mem_map.mpr ⟨p', hp', by omega⟩)
        rw [List.foldl_cons, hkeep hrest, hget, if_pos ⟨ha, hopen⟩]
      · rw [List.foldl_cons]
        exact hput p hp ha hopen

theorem sealedEntry_of_none (h : s.sealedCtxs.isEmpty = true) (pa : Nat) : s.sealedEntry pa = false := by
  unfold State.sealedEntry
  rw [List.isEmpty_iff.mp h]
  cases s.descOf pa <;> cases s.domOf pa <;> rfl

/-- A byte after a write at a physical address: the byte written where it may be, and what stood there elsewhere. -/
theorem writeKey_get (hwf : s.mem.wf = true) (pa key : Nat) (bs : List Byte) (a : Nat) :
    (s.writeKey pa key bs).mem.get a = if pa ≤ a ∧ a < pa + bs.length ∧ s.sealedEntry a = false then bs.getD (a - pa) 0#8 else s.mem.get a := by
  unfold State.writeKey
  split
  · next h =>
    rw [(State.putKey_frame s pa key bs).1, Memory.get_write bs pa a hwf]
    refine if_congr ⟨fun hin => ⟨hin.1, hin.2, ?_⟩, fun hin => ⟨hin.1, hin.2.1⟩⟩ rfl rfl
    rcases Bool.or_eq_true _ _ ▸ h with hnone | hopen
    · exact sealedEntry_of_none hnone a
    · rw [Bool.not_eq_true', List.any_eq_false] at hopen
      have := hopen (a - pa) (List.mem_range.mpr (by omega))
      rw [Nat.add_sub_cancel' hin.1] at this
      exact Bool.eq_false_of_not_eq_true this
  · have hdup : ((bs.zip (List.range bs.length)).map Prod.snd).Nodup := by
      rw [List.map_snd_zip (by simp)]
      exact List.nodup_range
    obtain ⟨hkeep, hput⟩ := foldl_putUnsealed_get (s := s) pa key a (bs.zip (List.range bs.length)) s hwf hdup
    show ((bs.zip (List.range bs.length)).foldl (putUnsealed s pa key) s).mem.get a = _
    by_cases hin : pa ≤ a ∧ a < pa + bs.length ∧ s.sealedEntry a = false
    · obtain ⟨hlo, hhi, hopen⟩ := hin
      have hi : a - pa < bs.length := by omega
      have hmem : (bs.getD (a - pa) 0#8, a - pa) ∈ bs.zip (List.range bs.length) := by
        rw [List.mem_iff_getElem]
        exact ⟨a - pa, by simpa using hi, by rw [List.getElem_zip, List.getElem_range, List.getD_eq_getElem _ _ hi]⟩
      rw [if_pos ⟨hlo, hhi, hopen⟩, hput _ hmem (by dsimp only; omega) hopen]
    · rw [if_neg hin, hkeep]
      rintro ⟨b, i⟩ hp ⟨ha, hopen⟩
      have hi := List.mem_range.mp (List.of_mem_zip hp).2
      exact hin ⟨by dsimp only at ha; omega, by dsimp only at ha; omega, hopen⟩

/-- A host write whose bytes may all be written, or stand there already. -/
theorem hostWrite_get {pa : Nat} {data : List Byte} (hready : s.paReady pa ≠ .dead) (hwf : s.mem.wf = true)
    (hbytes : ∀ i, i < data.length → s.sealedFrame (pa + i) = false ∧ s.hostByte (pa + i) (data.getD i 0#8) = data.getD i 0#8) (a : Nat) :
    (s.hostWrite pa data).mem.get a = if pa ≤ a ∧ a < pa + data.length then data.getD (a - pa) 0#8 else s.mem.get a := by
  have hplain : (List.range data.length).all (fun i => !s.sealedFrame (pa + i)) = true := by
    rw [List.all_eq_true]
    intro i hi
    rw [(hbytes i (List.mem_range.mp hi)).1]
    rfl
  have hnew : (data.zip (List.range data.length)).map (fun p => s.hostByte (pa + p.2) p.1) = data := by
    refine List.ext_getElem (by simp) fun i hi hi' => ?_
    rw [List.getElem_map, List.getElem_zip, List.getElem_range]
    have := (hbytes i hi').2
    rw [List.getD_eq_getElem _ _ hi'] at this
    exact this
  have hpoison (l : List Nat) : ∀ t : State, (l.foldl (fun (t : State) l => if s.sealedFrame l then t else t.clearPoison l) t).mem = t.mem := by
    induction l with
    | nil => exact fun _ => rfl
    | cons x l ih =>
      intro t
      rw [List.foldl_cons, ih]
      split <;> rfl
  have hmem : (s.hostWrite pa data).mem = (s.writePa pa data).mem := by
    unfold State.hostWrite
    rw [if_neg hready]
    dsimp only
    rw [hplain, if_pos rfl, hnew]
    exact hpoison _ _
  rw [hmem]
  refine (writeKey_get hwf pa 0 data a).trans ?_
  by_cases hin : pa ≤ a ∧ a < pa + data.length
  · obtain ⟨hlo, hhi⟩ := hin
    refine Eq.trans ?_ (if_pos ⟨hlo, hhi⟩).symm
    by_cases hopen : s.sealedEntry a = false
    · exact if_pos ⟨hlo, hhi, hopen⟩
    · refine (if_neg (fun h => hopen h.2.2)).trans ?_
      obtain ⟨hframe, hkept⟩ := hbytes (a - pa) (by omega)
      rw [Nat.add_sub_cancel' hlo] at hframe hkept
      rw [← hkept]
      unfold State.hostByte
      rw [hframe, Bool.eq_true_of_not_eq_false hopen]
      rfl
  · exact (if_neg (fun h => hin ⟨h.1, h.2.1⟩)).trans (if_neg hin).symm

end Bytes

/-! ## Host accesses (R288, R409, R414, R416, R420) -/

section Accesses

variable {s : State}

theorem bootl_eq (a : BitVec 64) (s : State) : exec (.bootl a) s =
    if (!s.hostOpen) = true then .next (fresh s)
    else if (s.mgmt.stage ≠ 2 ∧ s.mgmt.stage ≠ 3) ∨ a.toNat % 128 ≠ 0 then .next (fresh s)
    else if (fresh s).paKind a.toNat = .none then .next { fresh s with mgmt := { s.mgmt with bootl := a &&& 0x000FFFFFFFFFFFFF#64 } }
    else .next (State.bootNext { fresh s with mgmt := { s.mgmt with bootl := a &&& 0x000FFFFFFFFFFFFF#64, bootq := s.mgmt.bootq ++ [a.toNat] } }) := rfl

theorem bootl_events (hopen : s.hostOpen = true) (a : BitVec 64) :
    (a.toNat % 128 ≠ 0 ∨ (s.mgmt.stage ≠ 2 ∧ s.mgmt.stage ≠ 3) → exec (.bootl a) s = .next (fresh s)) ∧
    (a.toNat % 128 = 0 → (s.mgmt.stage = 2 ∨ s.mgmt.stage = 3) → (fresh s).paKind a.toNat ≠ .none →
      exec (.bootl a) s = .next (State.bootNext { fresh s with mgmt := { s.mgmt with bootl := a &&& 0x000FFFFFFFFFFFFF#64, bootq := s.mgmt.bootq ++ [a.toNat] } })) := by
  have hhost : ¬ (!s.hostOpen) = true := by
    rw [hopen]
    decide
  rw [bootl_eq, if_neg hhost]
  refine ⟨fun h => if_pos h.symm, fun halign hstage hkind => ?_⟩
  rw [if_neg, if_neg hkind]
  rintro (⟨h2, h3⟩ | h)
  · exact hstage.elim h2 h3
  · exact h halign

theorem bootNext_events {m : State} {pa : Nat} {rest : List Nat} (hq : m.mgmt.bootq = pa :: rest) (hready : m.paReady pa = .yes) (hclean : m.poisoned pa 128 = false)
    (hwaits : m.recordWaits (recordCtx (m.readPa pa 128) 0) = false) :
    let t := State.release { m with mgmt := { m.mgmt with bootq := rest } }
    (256 ≤ m.launchSlots.length ∨ m.mgmt.ps ≠ 0#2 → m.bootNext = m) ∧
    (m.launchSlots.length < 256 → m.mgmt.ps = 0#2 → m.bootNext = t.submit (t.readPa pa 128) 0 (2 ^ 16) pa true) := by
  intro t
  have hkept : m.paReady pa = .yes ∧ (!m.poisoned pa 128) = true := ⟨hready, by rw [hclean]; rfl⟩
  have heq : m.bootNext = if 256 ≤ m.launchSlots.length ∨ m.mgmt.ps ≠ 0#2 ∨ m.paReady pa = .wait ∨ m.recordWaits (recordCtx (m.readPa pa 128) 0) = true then m
      else t.submit (t.readPa pa 128) 0 (2 ^ 16) pa true := by
    unfold State.bootNext
    rw [hq]
    dsimp only
    rw [if_pos hkept, if_pos hkept]
  rw [heq]
  refine ⟨fun h => if_pos (h.elim .inl (fun h => .inr (.inl h))), fun hroom hps => if_neg ?_⟩
  rintro (h | h | h | h)
  · omega
  · exact h hps
  · rw [hready] at h
    cases h
  · rw [hwaits] at h
    exact Bool.false_ne_true h

theorem bar2_eq (s : State) :
    (∀ off data, exec (.bar2Write off data) s =
      if (!s.hostOpen) = true ∨ data.length = 0 ∨ 512 < data.length ∨ 2 ^ 36 < off + data.length then .next (fresh s)
      else if (fresh s).barWaits off data.length = true then .next { fresh s with inputs := .bar2Write off data :: s.inputs }
      else .next ((fresh s).hostWrite (s.mgmt.mwap.toNat + off) data)) ∧
    ∀ off n, exec (.bar2Read off n) s =
      if (!s.hostOpen) = true ∨ n = 0 ∨ 4096 < n ∨ 2 ^ 36 < off + n then .next (fresh s)
      else if (fresh s).barWaits off n = true then .next { fresh s with inputs := .bar2Read off n :: s.inputs }
      else .next { fresh s with mgmt := { s.mgmt with readData := s.mgmt.readData ++ [(fresh s).hostRead (s.mgmt.mwap.toNat + off) n] } } :=
  ⟨fun _ _ => rfl, fun _ _ => rfl⟩

theorem bar2Write_events (hopen : s.hostOpen = true) (off : Nat) (data : List (BitVec 8)) (hsome : 0 < data.length) (hmax : data.length ≤ 512)
    (hin : off + data.length ≤ 2 ^ 36) :
    let u := fresh s
    (u.barWaits off data.length = true → exec (.bar2Write off data) s = .next { u with inputs := .bar2Write off data :: s.inputs }) ∧
    (u.barWaits off data.length = false → exec (.bar2Write off data) s = .next (u.hostWrite (s.mgmt.mwap.toNat + off) data) ∧
      (let at0 := s.mgmt.mwap.toNat + off
       u.paReady at0 ≠ .dead → s.mem.wf = true → (∀ i, i < data.length → u.sealedFrame (at0 + i) = false ∧ u.hostByte (at0 + i) (data.getD i 0#8) = data.getD i 0#8) →
        Answers (exec (.bar2Write off data) s) (fun t => (∀ i, i < data.length → t.mem.get (at0 + i) = data.getD i 0#8) ∧
          ∀ a, a < at0 ∨ at0 + data.length ≤ a → t.mem.get a = s.mem.get a))) := by
  intro u
  have hgood : ¬ ((!s.hostOpen) = true ∨ data.length = 0 ∨ 512 < data.length ∨ 2 ^ 36 < off + data.length) := by
    rw [hopen]
    rintro (h | h | h | h)
    · exact Bool.false_ne_true h
    all_goals omega
  rw [(bar2_eq s).1, if_neg hgood]
  refine ⟨fun hwait => if_pos hwait, fun hserved => ?_⟩
  rw [if_neg (by rw [hserved]; decide)]
  refine ⟨rfl, ?_⟩
  intro at0 hready hwf hbytes
  have hget := hostWrite_get (s := fresh s) hready hwf hbytes
  refine ⟨_, rfl, fun i hi => ?_, fun a ha => ?_⟩
  · rw [hget, if_pos (by omega), Nat.add_sub_cancel_left]
  · rw [hget, if_neg (by omega)]
    rfl

theorem bar2Read_event (hopen : s.hostOpen = true) {off n : Nat} (hsome : 0 < n) (hmax : n ≤ 4096) (hin : off + n ≤ 2 ^ 36)
    (hserved : (fresh s).barWaits off n = false) : exec (.bar2Read off n) s =
      .next { fresh s with mgmt := { s.mgmt with readData := s.mgmt.readData ++ [(fresh s).hostRead (s.mgmt.mwap.toNat + off) n] } } := by
  have hgood : ¬ ((!s.hostOpen) = true ∨ n = 0 ∨ 4096 < n ∨ 2 ^ 36 < off + n) := by
    rw [hopen]
    rintro (h | h | h | h)
    · exact Bool.false_ne_true h
    all_goals omega
  rw [(bar2_eq s).2, if_neg hgood, if_neg (by rw [hserved]; decide)]

theorem addressGroupWrite_events (hopen : s.hostOpen = true) {g w : Nat} (v : BitVec 32) (hg : 0 < g) (hg' : g < 256) (hw : w < 16) (hlen : s.groups.length = 256) :
    (s.grpState g ≠ 0 → exec (.addressGroupWrite g w v) s = .next (fresh s)) ∧
    (s.grpState g = 0 → Answers (exec (.addressGroupWrite g w v) s) (fun t => t = { fresh s with groups := t.groups } ∧ (∀ j, j ≠ g → t.grp j = s.grp j) ∧
      (t.grp g = { groupWord (s.grp g) w v with v := (groupWord (s.grp g) w v).v && s.groupOk (groupWord (s.grp g) w v) }))) := by
  have heq : exec (.addressGroupWrite g w v) s = if (!s.hostOpen) = true ∨ g = 0 ∨ 256 ≤ g ∨ 16 ≤ w ∨ s.grpState g ≠ 0 then .next (fresh s)
      else .next ((fresh s).modGroup g (fun _ => { groupWord (s.grp g) w v with v := (groupWord (s.grp g) w v).v && s.groupOk (groupWord (s.grp g) w v) })) := rfl
  rw [heq]
  refine ⟨fun h => if_pos (.inr (.inr (.inr (.inr h)))), fun hidle => ?_⟩
  rw [if_neg]
  · refine ⟨_, rfl, rfl, fun j hj => ?_, ?_⟩
    · unfold State.grp State.modGroup
      by_cases h0 : j = 0
      · rw [if_pos h0, if_pos h0]
      · rw [if_neg h0, if_neg h0, List.getD_eq_getElem?_getD, List.getElem?_set_ne (Ne.symm hj), ← List.getD_eq_getElem?_getD]
        rfl
    · unfold State.modGroup State.grp
      dsimp only
      rw [if_neg (Nat.pos_iff_ne_zero.mp hg)]
      exact getD_set_self (by show g < s.groups.length; omega)
  · rw [hopen]
    rintro (h | h | h | h | h)
    · exact Bool.false_ne_true h
    · omega
    · omega
    · omega
    · exact h hidle

/-- A masked vector's entry is opened, and what was pending for it is taken. -/
def unmasked (s : State) (v : Nat) : State :=
  { s with mgmt := { s.mgmt with msixOpen := s.mgmt.msixOpen ++ [v], msixPending := s.mgmt.msixPending.filter (fun x => x ≠ v) } }

theorem msixUnmask_eq {v : Nat} (hopen : s.hostOpen = true) (hv : v < 2048) (hmasked : v ∉ s.mgmt.msixOpen) : exec (.msixVectorUnmask v) s =
    .next (if s.mgmt.msixPending.contains v = true then (unmasked (fresh s) v).postMsix v else unmasked (fresh s) v) := by
  have hgood : ¬ ((!s.hostOpen) = true ∨ 2048 ≤ v) := by
    rw [hopen]
    rintro (h | h)
    · exact Bool.false_ne_true h
    · omega
  have hclosed : ¬ s.mgmt.msixOpen.contains v = true := by
    rw [List.contains_iff_mem]
    exact hmasked
  have htaken : (if s.mgmt.msixOpen.contains v = true then s.mgmt.msixOpen else s.mgmt.msixOpen ++ [v]) = s.mgmt.msixOpen ++ [v] := if_neg hclosed
  rw [exec_msixVectorUnmask]
  refine (if_neg hgood).trans ?_
  exact congrArg (fun l : List Nat => (Host.Outcome.next (
    let t : State := { fresh s with mgmt := { s.mgmt with msixOpen := l, msixPending := s.mgmt.msixPending.filter (fun x => x ≠ v) } }
    if s.mgmt.msixPending.contains v = true then t.postMsix v else t) : Out)) htaken

/-- A vector whose entry is open and programmed is sent. -/
theorem postMsix_sent {v : Nat} (hv : v < 2048) (haddr : s.msixAddr v ≠ 0) (hopen : v ∈ s.mgmt.msixOpen) :
    s.postMsix v = { s with mgmt := { s.mgmt with msixSent := s.mgmt.msixSent ++ [v] } } := by
  have hopened : ¬ (!s.mgmt.msixOpen.contains v) = true := by
    rw [List.contains_iff_mem.mpr hopen]
    decide
  unfold State.postMsix
  rw [if_neg (not_or.mpr ⟨by omega, haddr⟩), if_neg hopened]

theorem msixUnmask_events (hopen : s.hostOpen = true) {v : Nat} (hv : v < 2048) (hmasked : v ∉ s.mgmt.msixOpen) :
    (v ∉ s.mgmt.msixPending → exec (.msixVectorUnmask v) s = .next { fresh s with mgmt := { s.mgmt with msixOpen := s.mgmt.msixOpen ++ [v] } }) ∧
    (v ∈ s.mgmt.msixPending → (fresh s).msixAddr v ≠ 0 → Answers (exec (.msixVectorUnmask v) s) (fun t => t.mgmt.msixSent = s.mgmt.msixSent ++ [v] ∧
      v ∉ t.mgmt.msixPending ∧ v ∈ t.mgmt.msixOpen ∧ t.mem = s.mem)) := by
  rw [msixUnmask_eq hopen hv hmasked]
  refine ⟨fun hnone => ?_, fun hheld haddr => ?_⟩
  · have hfilter : (fresh s).mgmt.msixPending.filter (fun x => x ≠ v) = s.mgmt.msixPending := by
      refine List.filter_eq_self.mpr (fun x hx => decide_eq_true (fun h => hnone ?_))
      rw [← h]
      exact hx
    rw [if_neg (by rw [List.contains_iff_mem]; exact hnone)]
    unfold unmasked
    rw [hfilter]
    rfl
  · rw [if_pos (List.contains_iff_mem.mpr hheld),
      postMsix_sent (s := unmasked (fresh s) v) hv haddr (List.mem_append_right _ (List.mem_singleton.mpr rfl))]
    refine ⟨_, rfl, rfl, fun h => ?_, List.mem_append_right _ (List.mem_singleton.mpr rfl), rfl⟩
    exact absurd rfl (of_decide_eq_true (List.mem_filter.mp h).2)

theorem mgmtRegisterWrite_eq (bar off : Nat) (wide : Bool) (v : BitVec 64) (s : State) : exec (.mgmtRegisterWrite bar off wide v) s =
    if (!s.hostOpen) = true ∨ off % 4 ≠ 0 ∨ (wide = true ∧ off % 8 ≠ 0) then .next (fresh s)
    else if bar = 4 then
      let t := (fresh s).msixWrite off (BitVec.ofNat 32 v.toNat)
      .next (if wide = true then t.msixWrite (off + 4) (BitVec.ofNat 32 (v.toNat / 2 ^ 32)) else t)
    else if bar ≠ 0 then .next (fresh s)
    else if wideReg off = true then .next (if wide = true then (fresh s).write64 off v.toNat else fresh s)
    else
      let t := (fresh s).write32 off (v.toNat % 2 ^ 32)
      .next (if wide = true then t.write32 (off + 4) (v.toNat / 2 ^ 32) else t) := rfl

end Accesses

theorem hostAccessEvents : HostAccessEvents := by
  intro s hopen u
  have hhost : ¬ (!s.hostOpen) = true := by
    rw [hopen]
    decide
  refine ⟨fun a => bootl_events hopen a, fun m pa rest hq hready hclean hwaits => bootNext_events hq hready hclean hwaits,
    fun off data hsome hmax hin => bar2Write_events hopen off data hsome hmax hin, fun off n hsome hmax hin hserved => bar2Read_event hopen hsome hmax hin hserved,
    fun g w v hg hg' hw hlen => addressGroupWrite_events hopen v hg hg' hw hlen, fun v hv hmasked => msixUnmask_events hopen hv hmasked, fun v => ?_, fun v => ?_,
    fun off w v halign => ?_⟩
  · rw [mgmtRegisterWrite_eq, if_neg (by rintro (h | h | ⟨h, -⟩) <;> [exact hhost h; exact absurd h (by decide); exact Bool.false_ne_true h]), if_neg (by decide),
      if_neg (by decide), if_neg (by decide)]
    have hword : BitVec.ofNat 32 (v.toNat % 2 ^ 32) = v.setWidth 32 := by
      refine BitVec.eq_of_toNat_eq ?_
      rw [BitVec.toNat_ofNat, BitVec.toNat_setWidth, Nat.mod_mod]
    dsimp only
    rw [if_neg Bool.false_ne_true]
    unfold State.write32
    rw [if_pos rfl, hword]
    rfl
  · rw [mgmtRegisterWrite_eq, if_neg (by rintro (h | h | ⟨-, h⟩) <;> [exact hhost h; exact absurd h (by decide); exact absurd h (by decide)]), if_neg (by decide),
      if_neg (by decide), if_pos (by decide), if_pos rfl]
    rfl
  · rw [mgmtRegisterWrite_eq]
    exact if_pos (.inr (.inl halign))

/-- Settles O50. -/
theorem hostEvents : Obligations.HostEvents := ⟨faultResponses, hostAccessEvents⟩

end Sys2Proof.Proofs.HostRows
end

