-- ==== Sys2Proof/Proofs/BringUpRows.lean ====
section
/-!
PROOF. Proofs/BringUpRows.lean: PERST#, the stages of bring-up and the stacks that enter service (23 R415, R421 to R426; 25 R455).
-/

namespace Sys2Proof.Proofs.BringUpRows

open Sys2Proof Sys2Proof.Machine Sys2Proof.Claims

/-! ## Messages and log entries -/

/-- A message posted touches the list it goes to, or the counter of those dropped. -/
theorem postMsix_fields (s : State) (v : Nat) : ∃ p q d, s.postMsix v =
    { s with mgmt := { s.mgmt with msixPending := p, msixSent := q }, ras := { s.ras with msidrop := d } } := by
  unfold State.postMsix
  split
  · exact ⟨_, _, _, rfl⟩
  · split
    · split
      · exact ⟨_, _, _, rfl⟩
      · exact ⟨_, _, _, rfl⟩
    · exact ⟨_, _, _, rfl⟩

/-- An entry of the error log, and the message that some kinds post. -/
theorem rasLog_fields (s : State) (kind unit addr ctx : Nat) : ∃ p q d l, s.rasLog kind unit addr ctx =
    { s with mgmt := { s.mgmt with msixPending := p, msixSent := q }, ras := { s.ras with msidrop := d, log := l, prod := s.ras.prod + 1#32 } } := by
  unfold State.rasLog
  dsimp only
  split
  · obtain ⟨p, q, d, h⟩ := postMsix_fields { s with ras := { s.ras with
      log := s.ras.log.set (s.ras.prod.toNat % 256) (leBytes 4 kind ++ leBytes 4 unit ++ leBytes 8 addr ++ leBytes 8 s.clock.toNat ++ leBytes 8 ctx)
      prod := s.ras.prod + 1#32 } } 1
    exact ⟨p, q, d, _, h⟩
  · exact ⟨_, _, _, _, rfl⟩

/-- A new stage; the messages aside, the rest is as before. -/
theorem setStage_fields (s : State) (n : Nat) : ∃ p q d, s.setStage n =
    { s with mgmt := { s.mgmt with stage := n, msixPending := p, msixSent := q }, ras := { s.ras with msidrop := d } } := by
  unfold State.setStage
  split
  · next h =>
    subst h
    exact ⟨_, _, _, rfl⟩
  · obtain ⟨p, q, d, h⟩ := postMsix_fields { s with mgmt := { s.mgmt with stage := n } } 0
    exact ⟨p, q, d, h⟩

/-! ## Reset (R421) -/

/-- Far and host memory outlive a reset. -/
theorem scramble_far {m : Memory} (hwf : m.wf = true) (stamp : Nat) {a : Nat} (ha : 0x200000000000 ≤ a) : (scramble stamp m).get a = m.get a := by
  have hfold : ∀ (l : Memory) (lo : Nat), Memory.above l lo = true → ∀ r : Memory, r.wf = true → (∀ x, lo ≤ x → r.get x = 0#8) →
      (l.foldl (fun r (p : Host.Cell) => if p.1 < 0x200000000000 then r.set p.1 (BitVec.ofNat 8 (Config.free stamp [41, p.1])) else r.set p.1 p.2) r).get a =
        if lo ≤ a then Memory.get l a else r.get a := by
    intro l
    induction l with
    | nil =>
      intro lo _ r _ hempty
      rw [List.foldl_nil]
      split
      · next h => exact hempty a h
      · rfl
    | cons p l ih =>
      obtain ⟨k, v⟩ := p
      intro lo habove r hr hempty
      have habove' : (decide (lo ≤ k) && decide (v ≠ 0#8) && Memory.above l (k + 1)) = true := habove
      rw [Bool.and_eq_true, Bool.and_eq_true, decide_eq_true_iff, decide_eq_true_iff] at habove'
      obtain ⟨⟨hlo, -⟩, hrest⟩ := habove'
      rw [List.foldl_cons]
      have hstep (w : Byte) : ∀ x, k + 1 ≤ x → (r.set k w).get x = 0#8 := by
        intro x hx
        rw [Memory.get_set hr, if_neg (by omega)]
        exact hempty x (by omega)
      have hhead (w : Byte) (hw : 0x200000000000 ≤ k → w = v) : (if k + 1 ≤ a then Memory.get l a else (r.set k w).get a) = if lo ≤ a then Memory.get ((k, v) :: l) a else r.get a := by
        by_cases hka : k = a
        · rw [if_neg (by omega), Memory.get_set hr, if_pos hka.symm, if_pos (by omega), hw (by omega)]
          exact (if_pos hka).symm
        · by_cases hle : lo ≤ a
          · rw [if_pos hle, Memory.get, if_neg hka]
            by_cases hk : k + 1 ≤ a
            · rw [if_pos hk]
            · rw [if_neg hk, Memory.get_set hr, if_neg (Ne.symm hka), hempty a hle, Memory.get_below hrest (by omega)]
          · rw [if_neg hle, if_neg (by omega), Memory.get_set hr, if_neg (Ne.symm hka)]
      by_cases hnear : k < 0x200000000000
      · rw [if_pos hnear, ih (k + 1) hrest _ (Memory.set_wf hr _ _) (hstep _)]
        exact hhead _ (fun h => absurd hnear (by omega))
      · rw [if_neg hnear, ih (k + 1) hrest _ (Memory.set_wf hr _ _) (hstep _)]
        exact hhead _ (fun _ => rfl)
  refine (hfold m 0 hwf [] rfl (fun _ _ => rfl)).trans (if_pos (Nat.zero_le a))

theorem perstAssert_event (s : State) : Answers (exec .perstAssert s) (fun t => t = { State.reset with
      free := s.free + 1, order := s.order, inputs := s.inputs, hostStores := s.hostStores, mem := t.mem,
      mgmt := { State.reset.mgmt with off := s.mgmt.off, msixSent := s.mgmt.msixSent, readData := s.mgmt.readData },
      secp := { State.reset.secp with flash := s.secp.flash, bank := s.secp.bank, roll := s.secp.roll } } ∧
    (s.mem.wf = true → ∀ a, 0x200000000000 ≤ a → t.mem.get a = s.mem.get a)) :=
  ⟨_, rfl, rfl, fun hwf _ ha => scramble_far hwf (s.free + 1) ha⟩

/-! ## Firmware (R425, R426, R455) -/

section Firmware

variable {s : State} {imgs : List (Bool × Bool × Nat × List (BitVec 8))}

theorem booted_eq (x : Secp) (h : imgs.length = 4) :
    x.booted imgs = (List.range 4).map (fun i => ((x.imageIn x.bank i).map fwParts).getD (imgs.getD i (false, false, 0, []))) := by
  unfold Secp.booted
  refine List.ext_getElem (by simp [h]) fun i hi hi' => ?_
  have hlt : i < imgs.length := by simpa [h] using hi
  rw [List.getElem_map, List.getElem_zip, List.getElem_map, List.getElem_range, List.getD_eq_getElem _ _ hlt]

theorem firmwareVerify_eq (imgs : List (Bool × Bool × Nat × List (BitVec 8))) (s : State) : exec (.firmwareVerify imgs) s =
    if (!s.mgmt.boot) = true ∨ s.mgmt.stage ≠ 0 ∨ (s.secp.booted imgs).length ≠ 4 then .next (fresh s)
    else if ((s.secp.booted imgs).zip s.secp.roll).all (fun p => fwPasses p.2 p.1) = true then
      .next (State.setStage { fresh s with secp := { s.secp with fm := (s.secp.booted imgs).foldl (fun fm x => shake256 (fm ++ x.2.2.2)) s.secp.fm } } 1)
    else .next ((fresh s).bootFail 1) := rfl

/-- Every image passes the checks of its place. -/
theorem all_fwPasses (boots : List (Bool × Bool × Nat × List (BitVec 8))) (roll : List Nat) (hboots : boots.length = 4) (hroll : roll.length = 4) :
    (boots.zip roll).all (fun p => fwPasses p.2 p.1) = true ↔
      ∀ i, i < 4 → ∀ x, boots[i]? = some x → x.1 = true ∧ x.2.1 = true ∧ roll.getD i 0 ≤ x.2.2.1 := by
  have hpass (r : Nat) (x : Bool × Bool × Nat × List (BitVec 8)) : fwPasses r x = true ↔ x.1 = true ∧ x.2.1 = true ∧ r ≤ x.2.2.1 := by
    unfold fwPasses
    rw [Bool.and_eq_true, Bool.and_eq_true, decide_eq_true_iff, and_assoc]
  rw [List.all_eq_true]
  constructor
  · intro h i hi x hx
    have hib : i < boots.length := by omega
    have hir : i < roll.length := by omega
    have hxi : boots[i] = x := by
      rw [List.getElem?_eq_getElem hib] at hx
      exact Option.some.inj hx
    rw [List.getD_eq_getElem _ _ hir, ← hxi]
    refine (hpass _ _).mp (h (boots[i], roll[i]) (List.mem_iff_getElem.mpr ⟨i, ?_, List.getElem_zip⟩))
    rw [List.length_zip]
    omega
  · intro h p hp
    obtain ⟨i, hi, rfl⟩ := List.mem_iff_getElem.mp hp
    rw [List.length_zip] at hi
    have hib : i < boots.length := by omega
    have hir : i < roll.length := by omega
    rw [List.getElem_zip]
    have := h i (by omega) boots[i] (List.getElem?_eq_getElem hib)
    rw [List.getD_eq_getElem _ _ hir] at this
    exact (hpass _ _).mpr this

theorem firmwareVerify_events (hboot : s.mgmt.boot = true) (hstage : s.mgmt.stage = 0) (himgs : imgs.length = 4) (hroll : s.secp.roll.length = 4) :
    let boots := (List.range 4).map (fun i => ((s.secp.imageIn s.secp.bank i).map fwParts).getD (imgs.getD i (false, false, 0, [])))
    let passes := ∀ i, i < 4 → ∀ x, boots[i]? = some x → x.1 = true ∧ x.2.1 = true ∧ s.secp.roll.getD i 0 ≤ x.2.2.1
    (passes → Answers (exec (.firmwareVerify imgs) s) (fun t => t.mgmt.stage = 1 ∧
      t.secp.fm = boots.foldl (fun fm x => shake256 (fm ++ x.2.2.2)) s.secp.fm)) ∧
    (¬ passes → Answers (exec (.firmwareVerify imgs) s) (fun t => t.mgmt.stage = 4 ∧ t.mgmt.err = 1#8 ∧ t.secp = s.secp)) := by
  intro boots passes
  have hbooted : s.secp.booted imgs = boots := booted_eq s.secp himgs
  have hlen : boots.length = 4 := by simp [boots]
  have hgood : ¬ ((!s.mgmt.boot) = true ∨ s.mgmt.stage ≠ 0 ∨ boots.length ≠ 4) := by
    rw [hboot]
    rintro (h | h | h)
    · exact Bool.false_ne_true h
    · exact h hstage
    · exact h hlen
  have hall := all_fwPasses boots s.secp.roll hlen hroll
  rw [firmwareVerify_eq, hbooted, if_neg hgood]
  clear_value boots
  refine ⟨fun hpass => ?_, fun hfail => ?_⟩
  · rw [if_pos (hall.mpr hpass)]
    obtain ⟨p, q, d, h⟩ := setStage_fields { fresh s with secp := { s.secp with fm := boots.foldl (fun fm x => shake256 (fm ++ x.2.2.2)) s.secp.fm } } 1
    rw [h]
    exact ⟨_, rfl, rfl, rfl⟩
  · rw [if_neg (fun h => hfail (hall.mp h))]
    obtain ⟨p, q, d, h⟩ := setStage_fields { fresh s with mgmt := { (fresh s).mgmt with err := BitVec.ofNat 8 1 } } 4
    refine ⟨_, congrArg Host.Outcome.next h, rfl, rfl, rfl⟩

end Firmware

/-! ## Stages (R415, R421, R422) -/

section Stages

variable {s : State}

theorem secureTraining_eq (mem cores link : Bool) (s : State) : exec (.secureTrainingComplete mem cores link) s =
    if s.mgmt.stage ≠ 1 then .next (fresh s)
    else if (!mem) = true then .next ((fresh s).bootFail 2)
    else if (!cores) = true then .next ((fresh s).bootFail 3)
    else if (!link) = true then .next ((fresh s).bootFail 4)
    else .next (State.setStage { fresh s with mgmt := { s.mgmt with dieup := 1#4, stackup := 3#8, aclk := 1200#32, thrstat := 4#32 } } 2) := rfl

theorem bootFail_fields (s : State) (err : Nat) : (s.bootFail err).mgmt.stage = 4 ∧ (s.bootFail err).mgmt.err = BitVec.ofNat 8 err := by
  obtain ⟨p, q, d, h⟩ := setStage_fields { s with mgmt := { s.mgmt with err := BitVec.ofNat 8 err } } 4
  have h' : s.bootFail err = _ := h
  rw [h']
  exact ⟨rfl, rfl⟩

theorem secureTraining_events (mem cores link : Bool) :
    (s.mgmt.stage ≠ 1 → exec (.secureTrainingComplete mem cores link) s = .next (fresh s)) ∧
    (s.mgmt.stage = 1 → (mem && cores && link) = true → Answers (exec (.secureTrainingComplete mem cores link) s) (fun t =>
      t.mgmt.stage = 2 ∧ t.mgmt.dieup = 1#4 ∧ t.mgmt.stackup = 3#8 ∧ t.mgmt.aclk = 1200#32)) ∧
    (s.mgmt.stage = 1 → (mem && cores && link) = false → Answers (exec (.secureTrainingComplete mem cores link) s) (fun t =>
      t.mgmt.stage = 4 ∧ t.mgmt.err = if mem = false then 2#8 else if cores = false then 3#8 else 4#8)) := by
  rw [secureTraining_eq]
  refine ⟨fun h => if_pos h, fun hstage hall => ?_, fun hstage hfail => ?_⟩
  · obtain ⟨⟨hmem, hcores⟩, hlink⟩ : (mem = true ∧ cores = true) ∧ link = true := by simpa using hall
    subst hmem hcores hlink
    rw [if_neg (not_not.mpr hstage), if_neg (by decide), if_neg (by decide), if_neg (by decide)]
    obtain ⟨p, q, d, h⟩ := setStage_fields { fresh s with mgmt := { s.mgmt with dieup := 1#4, stackup := 3#8, aclk := 1200#32, thrstat := 4#32 } } 2
    rw [h]
    exact ⟨_, rfl, rfl, rfl, rfl, rfl⟩
  · rw [if_neg (not_not.mpr hstage)]
    cases mem with
    | false => exact ⟨_, rfl, bootFail_fields (fresh s) 2⟩
    | true =>
      cases cores with
      | false => exact ⟨_, rfl, bootFail_fields (fresh s) 3⟩
      | true =>
        cases link with
        | false => exact ⟨_, rfl, bootFail_fields (fresh s) 4⟩
        | true => exact absurd hfail (by decide)

theorem fullService_events (d : BitVec 4) (st : BitVec 8) (cx : BitVec 4) :
    (s.mgmt.stage ≠ 2 → exec (.fullServiceTransition d st cx) s = .next (fresh s)) ∧
    (s.mgmt.stage = 2 → Answers (exec (.fullServiceTransition d st cx) s) (fun t => t.mgmt.stage = 3 ∧ t.mgmt.dieup = s.mgmt.dieup ||| d ∧
      t.mgmt.stackup = s.mgmt.stackup ||| (st &&& ~~~s.mgmt.stackFail) ∧ t.mgmt.cxlup = cx ∧ t.mgmt.aclk = 1900#32)) := by
  have heq : exec (.fullServiceTransition d st cx) s = if s.mgmt.stage ≠ 2 then .next (fresh s) else .next (State.setStage { fresh s with mgmt := { s.mgmt with
      dieup := s.mgmt.dieup ||| d, stackup := s.mgmt.stackup ||| (st &&& ~~~s.mgmt.stackFail), stackFail := ~~~(s.mgmt.stackup ||| (st &&& ~~~s.mgmt.stackFail)),
      cxlup := cx, aclk := 1900#32, thrstat := 0#32 } } 3) := rfl
  rw [heq]
  refine ⟨fun h => if_pos h, fun hstage => ?_⟩
  rw [if_neg (not_not.mpr hstage)]
  obtain ⟨p, q, e, h⟩ := setStage_fields { fresh s with mgmt := { s.mgmt with
      dieup := s.mgmt.dieup ||| d, stackup := s.mgmt.stackup ||| (st &&& ~~~s.mgmt.stackFail), stackFail := ~~~(s.mgmt.stackup ||| (st &&& ~~~s.mgmt.stackFail)),
      cxlup := cx, aclk := 1900#32, thrstat := 0#32 } } 3
  rw [h]
  exact ⟨_, rfl, rfl, rfl, rfl, rfl, rfl⟩

theorem stackEnters_event {k : Nat} (ok : Bool) (hk : k < 8) (hstage : s.mgmt.stage = 2) (hup : s.mgmt.stackup.getLsbD k = false)
    (hfail : s.mgmt.stackFail.getLsbD k = false) : exec (.hbmStackEntersService k ok) s = .next { fresh s with mgmt :=
      if ok then { s.mgmt with stackup := s.mgmt.stackup ||| (1#8 <<< k) } else { s.mgmt with stackFail := s.mgmt.stackFail ||| (1#8 <<< k) } } := by
  refine if_neg ?_
  rintro (h | h | h | h)
  · omega
  · exact h hstage
  · exact Bool.false_ne_true (hup.symm.trans h)
  · exact Bool.false_ne_true (hfail.symm.trans h)

end Stages

theorem bringUpEvents : BringUpEvents := by
  intro s u
  refine ⟨perstAssert_event s, fun hboot => ?_, fun hboot => ?_, fun imgs h => ?_,
    fun imgs hboot hstage himgs hroll => firmwareVerify_events hboot hstage himgs hroll, fun mem cores link => secureTraining_events mem cores link,
    fun d st cx => fullService_events d st cx, fun k ok hk hstage hup hfail => stackEnters_event ok hk hstage hup hfail⟩
  · exact congrArg Host.Outcome.next (if_pos hboot)
  · exact congrArg Host.Outcome.next (if_neg (fun h => Bool.false_ne_true (hboot.symm.trans h)))
  · rw [firmwareVerify_eq]
    exact if_pos (h.elim (fun h => .inl (by rw [h]; rfl)) (fun h => .inr (.inl h)))

end Sys2Proof.Proofs.BringUpRows
end

