-- ==== Sys2Proof/Proofs/StopRows.lean ====
section
/-!
PROOF. Proofs/StopRows.lean: a crew that halts and a context that is terminated (12 R276; 21 R367).
-/

namespace Sys2Proof.Proofs.StopRows

open Sys2Proof Sys2Proof.Machine Sys2Proof.Claims Sys2Proof.Proofs.MemoryFrames Sys2Proof.Proofs.CausesAndRecords Sys2Proof.Proofs.BarrierRows
  Sys2Proof.Proofs.LaunchRows

/-! ## What a loop over a list keeps -/

theorem foldl_keeps {α β : Type} (g : State → β) {f : State → α → State} (hf : ∀ s a, g (f s a) = g s) (as : List α) (s : State) : g (as.foldl f s) = g s := by
  induction as generalizing s with
  | nil => rfl
  | cons a as ih => exact (ih (f s a)).trans (hf s a)

/-! ## A crew halts -/

/-- The crew as a halt leaves it (R157, R367). -/
def halted (s : State) (c : Crew) : Crew := { stopFlights s c with demote := 0, demotedFrom := none }

theorem halted_id (s : State) (c : Crew) : (halted s c).id = c.id := by
  unfold halted
  rw [stopFlights_frame]

theorem halted_ctx (s : State) (c : Crew) : (halted s c).ctx = c.ctx := by
  unfold halted
  rw [stopFlights_frame]

/-- A halt replaces one crew, drops its waiting acca and its waits for a gate window. -/
theorem haltCrew_frame (s : State) (id : Nat) : s.haltCrew id = { s with
    crews := (s.haltCrew id).crews, accas := (s.haltCrew id).accas, cores := (s.haltCrew id).cores } := by
  unfold State.haltCrew
  split
  · rfl
  · split
    · rfl
    · rfl

theorem haltCrew_crews {s : State} {id : Nat} {c : Crew} (hc : s.crew? id = some c) :
    (s.haltCrew id).crews = if c.retired then s.crews else s.crews.map (fun x => if x.id == id then halted s c else x) := by
  have hid : c.id = id := eq_of_beq (List.find?_some (p := fun (c : Crew) => c.id == id) hc)
  unfold State.haltCrew
  rw [hc]
  dsimp only
  split
  · rfl
  · refine List.map_congr_left (fun x _ => ?_)
    have hsame : (stopFlights s c).id = id := by rw [stopFlights_frame]; exact hid
    simp only [hsame, halted]

/-- A halt keeps the number of every crew. -/
theorem haltCrew_ids (s : State) (id : Nat) : (s.haltCrew id).crews.map (fun c => c.id) = s.crews.map (fun c => c.id) := by
  cases hc : s.crew? id with
  | none =>
    unfold State.haltCrew
    rw [hc]
  | some c =>
    have hid : c.id = id := eq_of_beq (List.find?_some (p := fun (c : Crew) => c.id == id) hc)
    rw [haltCrew_crews hc]
    split
    · rfl
    · rw [List.map_map]
      refine List.map_congr_left (fun x _ => ?_)
      dsimp only [Function.comp]
      split
      · next h => rw [halted_id, hid, eq_of_beq h]
      · rfl

/-! ## A context is terminated (R276) -/

/-- The crews and the blocks. -/
def residents (s : State) : List Crew × List Block := (s.crews, s.blocks)

theorem crews_of_residents {s t : State} (h : residents t = residents s) : t.crews = s.crews := congrArg Prod.fst h

theorem blocks_of_residents {s t : State} (h : residents t = residents s) : t.blocks = s.blocks := congrArg Prod.snd h

theorem residents_setLaunch (s : State) (id st : Nat) : residents (s.setLaunch id st) = residents s := by
  obtain ⟨hstep, -⟩ := setLaunch_mainStep s id st
  exact Prod.ext ((MemStep.crews hstep).trans rfl) ((MemStep.blocks hstep).trans rfl)

theorem residents_coxKill (s : State) (port k : Nat) : residents (s.coxKill port k) = residents s := by
  unfold State.coxKill
  dsimp only
  split
  · rfl
  · split
    · rfl
    · unfold State.coxFree
      cases (s.coxSlot port k).send <;> rfl

theorem ctxSt_num (s : State) (ctx : Nat) : (s.ctxSt ctx).num = ctx := by
  unfold State.ctxSt
  split
  · next x hx => exact eq_of_beq (List.find?_some (p := fun (x : CtxSt) => x.num == ctx) hx)
  · rfl

theorem ctxSt_setCtxSt (s : State) (x : CtxSt) : (s.setCtxSt x).ctxSt x.num = x := by
  unfold State.ctxSt State.setCtxSt
  rw [List.find?_cons_of_pos (by simp)]

theorem ctxSt_dead (s : State) (ctx : Nat) :
    ((s.setCtxSt { s.ctxSt ctx with dead := true, sawV0 := false, stopped := false, tvecSet := false }).ctxSt ctx).dead = true := by
  have hnum := ctxSt_num s ctx
  generalize s.ctxSt ctx = x at hnum
  subst hnum
  have hset := ctxSt_setCtxSt s { x with dead := true, sawV0 := false, stopped := false, tvecSet := false }
  exact congrArg CtxSt.dead hset

/-- The blocks that a termination leaves. -/
def terminatedBlocks (bs : List Block) (ctx : Nat) : List Block :=
  (bs.filter (fun (b : Block) => !(b.ctx == ctx && (b.place == 1 || b.place == 2)))).map (fun (b : Block) => if b.ctx = ctx then { b with place := 3 } else b)

/-- The launches of a terminated context end. -/
def closeLaunches (s : State) (ctx : Nat) : State :=
  let s := (s.launches.filter (fun l => l.ctx == ctx && (l.st == 1 || l.st == 2 || l.st == 6))).foldl (fun s l => s.setLaunch l.id 5) s
  { s with launches := s.launches.filter (fun l => !(l.ctx == ctx && l.st == 5)) }

/-- Its cox contexts end. -/
def closeSlots (s : State) (ctx : Nat) (ports : List Nat) : State :=
  ports.foldl (fun s p => (List.range 8).foldl (fun s k =>
    if (s.coxSlot p k).st ≠ 0 ∧ (s.coxSlot p k).ctx = ctx then s.coxKill p k else s) s) s

/-- Its sealed key-domains are freed. -/
def closeDomains (s : State) (ctx : Nat) (ds : List Nat) : State :=
  ds.foldl (fun s d => if (s.kd d).st = 2 ∧ (s.kd d).ctx = ctx ∧ d ≠ 0 then s.kdFree d else s) s

/-- It is dead. -/
def markDead (s : State) (ctx : Nat) : State :=
  s.setCtxSt { s.ctxSt ctx with dead := true, sawV0 := false, stopped := false, tvecSet := false }

theorem residents_closeLaunches (s : State) (ctx : Nat) : residents (closeLaunches s ctx) = residents s :=
  Eq.trans (b := residents ((s.launches.filter (fun l => l.ctx == ctx && (l.st == 1 || l.st == 2 || l.st == 6))).foldl (fun s l => s.setLaunch l.id 5) s))
    rfl (foldl_keeps residents (fun t (l : Launch) => residents_setLaunch t l.id 5) _ _)

theorem residents_closeSlots (s : State) (ctx : Nat) (ports : List Nat) : residents (closeSlots s ctx ports) = residents s := by
  refine foldl_keeps residents (fun t p => ?_) ports s
  refine foldl_keeps residents (fun t k => ?_) (List.range 8) t
  split
  · exact residents_coxKill t p k
  · rfl

theorem residents_closeDomains (s : State) (ctx : Nat) (ds : List Nat) : residents (closeDomains s ctx ds) = residents s := by
  refine foldl_keeps residents (fun t d => ?_) ds s
  split <;> rfl

/-- The end of a termination. -/
def closing (s : State) (ctx : Nat) (ports ds : List Nat) : State := markDead (closeDomains (closeSlots (closeLaunches s ctx) ctx ports) ctx ds) ctx

theorem closing_parts (s : State) (ctx : Nat) (ports ds : List Nat) :
    residents (closing s ctx ports ds) = residents s ∧ ((closing s ctx ports ds).ctxSt ctx).dead = true :=
  ⟨(residents_closeDomains ..).trans ((residents_closeSlots ..).trans (residents_closeLaunches ..)), ctxSt_dead _ ctx⟩

/-- The crews of a context halt and their gate windows are freed, unless their blocks are away. -/
def haltAll (s : State) (cs : List Crew) : State := cs.foldl (fun s c => s.haltCrew c.id) s

/-- The gate windows of crews whose blocks are on a core are freed. -/
def freeWindows (s : State) (at_ : Nat → Nat) (cs : List Crew) : State :=
  cs.foldl (fun s c => if at_ c.blk = 1 then s else c.gates.foldl (fun s (g : GateRec) => s.freeUnits c.core g.unit g.units) s) s

theorem haltAll_blocks (s : State) (cs : List Crew) : (haltAll s cs).blocks = s.blocks :=
  foldl_keeps State.blocks (fun t (c : Crew) => (congrArg State.blocks (haltCrew_frame t c.id)).trans rfl) cs s

theorem freeWindows_blocks (s : State) (at_ : Nat → Nat) (cs : List Crew) : (freeWindows s at_ cs).blocks = s.blocks := by
  refine foldl_keeps State.blocks (fun t (c : Crew) => ?_) cs s
  split
  · rfl
  · exact foldl_keeps (f := fun t (g : GateRec) => t.freeUnits c.core g.unit g.units) State.blocks (fun _ _ => rfl) c.gates t

/-- A termination first takes the crews away and marks or takes the blocks. -/
theorem terminate_closes (s : State) (ctx : Nat) : ∃ m : State, s.terminate ctx = closing m ctx (List.range 32) (List.range 256) ∧
    (∀ c ∈ m.crews, c.ctx ≠ ctx) ∧ m.blocks = terminatedBlocks s.blocks ctx := by
  refine ⟨_, rfl, fun c hc => of_decide_eq_true (List.mem_filter.mp hc).2, ?_⟩
  let cs := s.crews.filter (fun c => c.ctx == ctx)
  let at_ := fun (blk : Nat) => (((haltAll s cs).block? blk).map (fun (b : Block) => b.place)).getD 1
  exact congrArg (terminatedBlocks · ctx) ((freeWindows_blocks (haltAll s cs) at_ cs).trans (haltAll_blocks s cs))

/-- A terminated context has no crew left and is dead; its blocks are going or gone, and the others stay. -/
theorem terminate_parts (s : State) (ctx : Nat) :
    (∀ c ∈ (s.terminate ctx).crews, c.ctx ≠ ctx) ∧ ((s.terminate ctx).ctxSt ctx).dead = true ∧ (s.terminate ctx).blocks = terminatedBlocks s.blocks ctx := by
  obtain ⟨m, heq, hcrews, hblocks⟩ := terminate_closes s ctx
  obtain ⟨hres, hdead⟩ := closing_parts m ctx (List.range 32) (List.range 256)
  have hend : residents (s.terminate ctx) = residents m := (congrArg residents heq).trans hres
  refine ⟨fun c hc => hcrews c ?_, (congrArg (fun t => (State.ctxSt t ctx).dead) heq).trans hdead, ?_⟩
  · rw [← crews_of_residents hend]
    exact hc
  · exact (blocks_of_residents hend).trans hblocks

end Sys2Proof.Proofs.StopRows
end

