-- ==== Sys2Proof/Proofs/ErrorRows.lean ====
section
/-!
PROOF. Proofs/ErrorRows.lean: power states, the arithmetic clock, errors of memories and links (22 R408; 23 R423; 25 R446 to R454).
-/

namespace Sys2Proof.Proofs.ErrorRows

open Sys2Proof Sys2Proof.Machine Sys2Proof.Claims Sys2Proof.Proofs.MemoryFrames Sys2Proof.Proofs.CausesAndRecords Sys2Proof.Proofs.LaunchRows
  Sys2Proof.Proofs.CoxSequenceRows Sys2Proof.Proofs.PortStateRows Sys2Proof.Proofs.PortConfigRows Sys2Proof.Proofs.HostRows Sys2Proof.Proofs.BringUpRows
  Sys2Proof.Proofs.StopRows

/-! ## Power states (R423) -/

theorem writeKey_arriving (s : State) (pa key : Nat) (bs : List Byte) : (s.writeKey pa key bs).arriving = s.arriving := by
  have hput (t : State) (pa : Nat) (bs : List Byte) : (t.putKey pa key bs).arriving = t.arriving :=
    (State.markKeys_frame { (t.keepPast false pa bs.length) with mem := t.mem.write pa bs } pa bs.length key).2.2.2.2.2.1
  unfold State.writeKey
  split
  · exact hput ..
  · refine foldl_keeps State.arriving (fun t p => ?_) _ s
    split
    · rfl
    · exact hput ..

/-- After a release nothing is on its way to a home. -/
theorem release_arriving (s : State) : s.release.arriving = [] := by
  have hone (t : State) (w : Arriving) : (t.applyArriving w).arriving = t.arriving := by
    refine Eq.trans ?_ (writeKey_arriving t w.pa w.key w.bytes)
    unfold State.applyArriving
    dsimp only
    split <;> rfl
  have hdrain : (s.drainArriving (fun _ => true)).arriving = [] := by
    refine (foldl_keeps State.arriving hone _ _).trans ?_
    exact List.filter_eq_nil_iff.mpr (fun _ _ => Bool.false_ne_true)
  exact (foldl_keeps (f := State.applyReplica) State.arriving (fun t r => writeKey_arriving t r.pa r.key r.bytes) _ _).trans hdrain

section Power

variable {s : State}

/-- The ports as they stand with the links stopped. -/
theorem stopped_ports (f : Port → Port) (l : List Nat) : ∀ s : State, (∀ p ∈ l, p < s.ports.length) → l.Nodup →
    let t := l.foldl (fun s p => s.modPort p f) s
    (∀ p ∈ l, t.port p = f (s.port p)) ∧ (∀ p, p ∉ l → t.port p = s.port p) := by
  induction l with
  | nil => exact fun s _ _ => ⟨fun p hp => absurd hp List.not_mem_nil, fun _ _ => rfl⟩
  | cons q l ih =>
    intro s hlen hdup
    rw [List.nodup_cons] at hdup
    obtain ⟨hnot, hdup⟩ := hdup
    obtain ⟨hin, hout⟩ := ih (s.modPort q f) (fun p hp => by rw [modPort_length]; exact hlen p (List.mem_cons_of_mem _ hp)) hdup
    rw [List.foldl_cons]
    refine ⟨fun p hp => ?_, fun p hp => ?_⟩
    · by_cases hpq : p = q
      · subst hpq
        exact (hout p hnot).trans (port_modPort (hlen p List.mem_cons_self))
      · exact (hin p ((List.mem_cons.mp hp).resolve_left hpq)).trans (congrArg f (port_modPort_of_ne hpq))
    · rw [List.mem_cons, not_or] at hp
      exact (hout p hp.2).trans (port_modPort_of_ne hp.1)

theorem enterD3hot_events (hstage : s.mgmt.stage = 2 ∨ s.mgmt.stage = 3) :
    (s.mgmt.ps = 0#2 → Answers (exec .enterD3hot s) (fun t => t.mgmt.ps = 1#2)) ∧
    (s.mgmt.ps = 1#2 → (∃ b ∈ s.blocks, b.place ≠ 1) → exec .enterD3hot s = .next (fresh s)) ∧
    (s.mgmt.ps = 1#2 → (∀ b ∈ s.blocks, b.place = 1) → (∀ c ∈ s.coxes, ∀ k ∈ c.slots, k.st = 0) → s.ports.length = 32 →
      Answers (exec .enterD3hot s) (fun t => t.mgmt.ps = 2#2 ∧ t.arriving = [] ∧ t.mgmt.cxlup = 0#4 ∧ ∀ p, p < 32 → (t.port p).st = if (s.port p).st = 4 then 4 else 0)) := by
  have hup : ¬ (s.mgmt.stage ≠ 2 ∧ s.mgmt.stage ≠ 3) := fun h => hstage.elim h.1 h.2
  rw [exec_enterD3hot]
  unfold execEnterD3hot
  rw [show ({ s with free := s.free + 1 } : State) = fresh s from rfl]
  generalize hu : fresh s = u
  have hps' : u.mgmt = s.mgmt := by rw [← hu]; rfl
  have hblocks : u.blocks = s.blocks := by rw [← hu]; rfl
  have hcoxes : u.coxes = s.coxes := by rw [← hu]; rfl
  have hports' : u.ports = s.ports := by rw [← hu]; rfl
  dsimp only
  rw [hps', if_neg hup, hblocks, hcoxes]
  refine ⟨fun hps => ?_, fun hps hbusy => ?_, fun hps hsaved hfree hlen => ?_⟩
  · rw [if_pos hps]
    exact ⟨_, rfl, rfl⟩
  · obtain ⟨b, hb, hplace⟩ := hbusy
    rw [if_neg (by rw [hps]; decide), if_neg]
    rintro ⟨-, h, -⟩
    rw [Bool.not_eq_true', List.any_eq_false] at h
    exact h b hb (decide_eq_true hplace)
  · have hquiet : s.mgmt.ps = 1#2 ∧ (!s.blocks.any (fun (b : Block) => b.place ≠ 1)) = true ∧
        s.coxes.all (fun (c : CoxSt) => c.slots.all (fun (k : CoxSlot) => k.st == 0)) = true := by
      refine ⟨hps, ?_, ?_⟩
      · rw [Bool.not_eq_true', List.any_eq_false]
        intro b hb
        simpa using hsaved b hb
      · rw [List.all_eq_true]
        intro c hc
        rw [List.all_eq_true]
        intro k hk
        exact beq_iff_eq.mpr (hfree c hc k hk)
    rw [if_neg (by rw [hps]; decide), if_pos hquiet]
    obtain ⟨hports, -⟩ := stopped_ports (fun y => if y.st = 4 then y else { y with st := 0, txst := 0, rxst := 0, exch := 0 }) (List.range 32) u
      (fun p hp => by rw [hports', hlen]; exact List.mem_range.mp hp) List.nodup_range
    generalize (List.range 32).foldl (fun s p => State.modPort s p (fun y => if y.st = 4 then y else { y with st := 0, txst := 0, rxst := 0, exch := 0 })) u = t at hports
    have harr := release_arriving t
    have hstep : t.release.ports = t.ports := by
      have h := release_memStep t
      rw [h]
    generalize t.release = v at harr hstep
    refine ⟨_, rfl, rfl, harr, rfl, fun p hp => ?_⟩
    have hport : v.port p = t.port p := by
      unfold State.port
      rw [hstep]
    refine (congrArg Port.st (hport.trans (hports p (List.mem_range.mpr hp)))).trans ?_
    have hsame : u.port p = s.port p := by
      unfold State.port
      rw [hports']
    rw [hsame]
    split
    · next h => exact h
    · rfl

theorem portTry_mgmt (s : State) (p : Nat) : (s.portTry p).mgmt = s.mgmt := by
  unfold State.portTry
  split <;> rfl

theorem leaveD3hot_events :
    (s.mgmt.ps = 2#2 → Answers (exec .leaveD3hot s) (fun t => t.mgmt.ps = 3#2)) ∧
    (s.mgmt.ps = 3#2 → ∃ up, exec .leaveD3hot s = .next { fresh s with mgmt := { s.mgmt with ps := 0#2, cxlup := up } } ∧ up &&& ~~~s.mgmt.dieup = 0#4 ∧
      (s.mgmt.stage ≠ 3 → up = 0#4)) ∧
    (s.mgmt.ps = 0#2 ∨ s.mgmt.ps = 1#2 → exec .leaveD3hot s = .next (fresh s)) := by
  have heq : exec .leaveD3hot s =
      if s.mgmt.ps = 2#2 then .next ((List.range 32).foldl (fun s p => s.portTry p) { fresh s with mgmt := { s.mgmt with ps := 3#2 } })
      else if s.mgmt.ps = 3#2 then .next { fresh s with mgmt := { s.mgmt with
        ps := 0#2, cxlup := if s.mgmt.stage = 3 then s.mgmt.dieup &&& BitVec.ofNat 4 ((fresh s).pick [57] 16) else 0#4 } }
      else .next (fresh s) := rfl
  rw [heq]
  refine ⟨fun h => ?_, fun h => ?_, fun h => ?_⟩
  · rw [if_pos h]
    refine ⟨_, rfl, ?_⟩
    exact congrArg Mgmt.ps (foldl_keeps State.mgmt portTry_mgmt (List.range 32) { fresh s with mgmt := { s.mgmt with ps := 3#2 } })
  · rw [if_neg (by rw [h]; decide), if_pos h]
    refine ⟨_, rfl, ?_, fun hstage => if_neg hstage⟩
    split
    · generalize BitVec.ofNat 4 _ = x
      refine BitVec.eq_of_getLsbD_eq (fun i hi => ?_)
      rw [BitVec.getLsbD_and, BitVec.getLsbD_and, BitVec.getLsbD_not]
      cases s.mgmt.dieup.getLsbD i <;> simp
    · exact BitVec.zero_and
  · rw [if_neg (by rcases h with h | h <;> rw [h] <;> decide), if_neg (by rcases h with h | h <;> rw [h] <;> decide)]

theorem powerLost : ∀ e ∈ ([.thermtrip, .powerRemoval] : List Instr), Answers (exec e s) (fun t => t.mgmt.off = true ∧ t.mgmt.stage = 0 ∧ t.crews = [] ∧
    t.blocks = [] ∧ t.bmem = [] ∧ t.amem = [] ∧ t.smem = [] ∧ t.mgmt.trip = decide (e = .thermtrip)) := by
  simp only [List.forall_mem_cons]
  exact ⟨⟨_, rfl, rfl, rfl, rfl, rfl, rfl, rfl, rfl, rfl⟩, ⟨_, rfl, rfl, rfl, rfl, rfl, rfl, rfl, rfl, rfl⟩, fun _ h => absurd h List.not_mem_nil⟩

end Power

/-! ## The arithmetic clock (R451 to R454) -/

section Clock

variable {s : State} {avg pkg : BitVec 32} {dies temps hbm : List (BitVec 32)}

/-- The clock and what the sensors read. -/
def readings (s : State) : BitVec 32 × BitVec 32 × List (BitVec 32) × List (BitVec 32) × List (BitVec 32) :=
  (s.mgmt.aclk, s.mgmt.pkgpwr, s.mgmt.diepwr, s.mgmt.temp, s.mgmt.hbmtemp)

theorem readings_postMsix (s : State) (v : Nat) : readings (s.postMsix v) = readings s := by
  obtain ⟨p, q, d, h⟩ := postMsix_fields s v
  rw [h]
  rfl

theorem readings_rasLog (s : State) (kind unit addr ctx : Nat) : readings (s.rasLog kind unit addr ctx) = readings s := by
  obtain ⟨p, q, d, l, h⟩ := rasLog_fields s kind unit addr ctx
  rw [h]
  rfl

theorem readings_ite {c : Prop} [Decidable c] {t u : State} (ht : readings t = readings u) : readings (if c then t else u) = readings u := by
  split
  · exact ht
  · rfl

theorem anyHot_iff (l : List Word) (deg : Int) : anyHot l deg = true ↔ ∃ t ∈ l, deg * 16 ≤ t.toInt := by
  unfold anyHot
  simp only [List.any_eq_true, decide_eq_true_eq]

theorem clockStep_measures (hoff : s.mgmt.off = false) (hboot : s.mgmt.boot = true) (hdies : dies.length = 4) (htemps : temps.length = 4) (hhbm : hbm.length = 8) :
    ¬ (s.mgmt.off = true ∨ (!s.mgmt.boot) = true ∨ dies.length ≠ 4 ∨ temps.length ≠ 4 ∨ hbm.length ≠ 8) := by
  rw [hoff, hboot]
  rintro (h | h | h | h | h)
  · exact Bool.false_ne_true h
  · exact Bool.false_ne_true h
  · exact h hdies
  · exact h htemps
  · exact h hhbm

theorem clockStep_trips (hgood : ¬ (s.mgmt.off = true ∨ (!s.mgmt.boot) = true ∨ dies.length ≠ 4 ∨ temps.length ≠ 4 ∨ hbm.length ≠ 8))
    (hhot : ∃ t ∈ temps ++ hbm, 110 * 16 ≤ t.toInt) : exec (.clockStep avg pkg dies temps hbm) s = .next (fresh s).thermTrip := by
  rw [exec_clockStep]
  exact (if_neg hgood).trans (if_pos ((anyHot_iff _ _).mpr hhot))

theorem clockStep_stands (hgood : ¬ (s.mgmt.off = true ∨ (!s.mgmt.boot) = true ∨ dies.length ≠ 4 ∨ temps.length ≠ 4 ∨ hbm.length ≠ 8))
    (hcold : ¬ anyHot (temps ++ hbm) 110 = true) (hstage : s.mgmt.stage ≠ 3) :
    ∃ t, exec (.clockStep avg pkg dies temps hbm) s = .next t ∧ readings t = (s.mgmt.aclk, pkg, dies, temps, hbm) := by
  rw [exec_clockStep]
  refine ⟨_, (if_neg hgood).trans ((if_neg hcold).trans (if_pos (.inl hstage))), ?_⟩
  exact readings_ite (readings_postMsix _ 2)

/-- The step of the clock (R453). -/
def clockAfter (m : Mgmt) (avg : BitVec 32) (temps : List (BitVec 32)) : Nat :=
  let cap := bitsOf m.pwrcap.toNat 10 0 * 1000
  let tthr : Int := bitsOf m.therm.toNat 15 8
  let clk := m.aclk.toNat
  if decide (cap < avg.toNat) || anyHot temps tthr then (if 650 ≤ clk then clk - 50 else 600)
  else if decide (avg.toNat * 100 < cap * 97) && !anyHot temps (tthr - 3) then min 1900 (clk + 50) else clk

theorem clockStep_steps (hgood : ¬ (s.mgmt.off = true ∨ (!s.mgmt.boot) = true ∨ dies.length ≠ 4 ∨ temps.length ≠ 4 ∨ hbm.length ≠ 8))
    (hcold : ¬ anyHot (temps ++ hbm) 110 = true) (hstage : s.mgmt.stage = 3) (hps : s.mgmt.ps ≠ 2#2) :
    ∃ t, exec (.clockStep avg pkg dies temps hbm) s = .next t ∧ readings t = (BitVec.ofNat 32 (clockAfter s.mgmt avg temps), pkg, dies, temps, hbm) := by
  have hfull : ¬ (s.mgmt.stage ≠ 3 ∨ s.mgmt.ps = 2#2) := fun h => h.elim (fun h => h hstage) hps
  rw [exec_clockStep]
  refine ⟨_, (if_neg hgood).trans ((if_neg hcold).trans (if_neg hfull)), ?_⟩
  refine (readings_ite (readings_postMsix _ 2)).trans ((readings_ite (readings_postMsix _ 2)).trans ((readings_ite (readings_postMsix _ 2)).trans
    ((readings_ite (readings_rasLog _ 9 0 0 0)).trans ((readings_ite (readings_rasLog _ 8 0 0 0)).trans rfl))))

theorem clockAfter_cases (m : Mgmt) (hlo : 600 ≤ m.aclk.toNat) (hhi : m.aclk.toNat ≤ 1900) :
    let cap := bitsOf m.pwrcap.toNat 10 0 * 1000
    let limit : Int := bitsOf m.therm.toNat 15 8
    let hot := ∃ t ∈ temps, limit * 16 ≤ t.toInt
    let cool := ∀ t ∈ temps, t.toInt < (limit - 3) * 16
    let clk := m.aclk.toNat
    600 ≤ clockAfter m avg temps ∧ clockAfter m avg temps ≤ 1900 ∧
      (cap < avg.toNat ∨ hot → clockAfter m avg temps = max 600 (clk - 50)) ∧
      (avg.toNat * 100 < cap * 97 → cool → clockAfter m avg temps = min 1900 (clk + 50)) ∧
      (¬(cap < avg.toNat ∨ hot) → ¬(avg.toNat * 100 < cap * 97 ∧ cool) → clockAfter m avg temps = clk) := by
  intro cap limit hot cool clk
  have hhigh : (decide (cap < avg.toNat) || anyHot temps limit) = true ↔ cap < avg.toNat ∨ hot := by
    rw [Bool.or_eq_true, decide_eq_true_iff, anyHot_iff]
  have hcool : anyHot temps (limit - 3) = false ↔ cool := by
    rw [← Bool.not_eq_true, anyHot_iff, not_exists]
    exact forall_congr' (fun t => ⟨fun h ht => not_le.mp (fun hle => h ⟨ht, hle⟩), fun h h' => absurd h'.2 (not_le.mpr (h h'.1))⟩)
  have hlow : (decide (avg.toNat * 100 < cap * 97) && !anyHot temps (limit - 3)) = true ↔ avg.toNat * 100 < cap * 97 ∧ cool := by
    rw [Bool.and_eq_true, decide_eq_true_iff, Bool.not_eq_true', hcool]
  have heq : clockAfter m avg temps = if cap < avg.toNat ∨ hot then (if 650 ≤ clk then clk - 50 else 600)
      else if avg.toNat * 100 < cap * 97 ∧ cool then min 1900 (clk + 50) else clk := by
    classical
    unfold clockAfter
    exact (if_congr hhigh rfl (if_congr hlow rfl rfl)).trans (by congr)
  have hclk : 600 ≤ clk ∧ clk ≤ 1900 := ⟨hlo, hhi⟩
  clear_value clk
  rw [heq]
  refine ⟨?_, ?_, fun h => ?_, fun havg hc => ?_, fun h h' => ?_⟩
  · split
    · split <;> omega
    · split <;> omega
  · split
    · split <;> omega
    · split <;> omega
  · rw [if_pos h]
    split <;> omega
  · have hno : ¬ (cap < avg.toNat ∨ hot) := by
      rintro (h | ⟨t, ht, h⟩)
      · omega
      · have := hc t ht
        omega
    rw [if_neg hno, if_pos ⟨havg, hc⟩]
  · rw [if_neg h, if_neg h']

theorem clockStep_reduced (hoff : s.mgmt.off = false) (hboot : s.mgmt.boot = true) (hdies : dies.length = 4) (htemps : temps.length = 4) (hhbm : hbm.length = 8) :
    ((∃ t ∈ temps ++ hbm, 110 * 16 ≤ t.toInt) → Answers (exec (.clockStep avg pkg dies temps hbm) s) (fun t => t.mgmt.trip = true ∧ t.mgmt.off = true)) ∧
    ((∀ t ∈ temps ++ hbm, t.toInt < 110 * 16) → s.mgmt.stage ≠ 3 → Answers (exec (.clockStep avg pkg dies temps hbm) s) (fun t =>
      t.mgmt.pkgpwr = pkg ∧ t.mgmt.diepwr = dies ∧ t.mgmt.temp = temps ∧ t.mgmt.hbmtemp = hbm ∧ t.mgmt.aclk = s.mgmt.aclk)) := by
  have hgood := clockStep_measures hoff hboot hdies htemps hhbm
  refine ⟨fun hhot => ?_, fun hcold hstage => ?_⟩
  · rw [clockStep_trips hgood hhot]
    exact ⟨_, rfl, rfl, rfl⟩
  · have hno : ¬ anyHot (temps ++ hbm) 110 = true := by
      rw [anyHot_iff]
      rintro ⟨t, ht, h⟩
      exact absurd (hcold t ht) (not_lt.mpr h)
    obtain ⟨t, ht, hread⟩ := clockStep_stands (avg := avg) (pkg := pkg) hgood hno hstage
    obtain ⟨hclk, hpkg, hdie, htemp, hhbm'⟩ : t.mgmt.aclk = s.mgmt.aclk ∧ t.mgmt.pkgpwr = pkg ∧ t.mgmt.diepwr = dies ∧ t.mgmt.temp = temps ∧ t.mgmt.hbmtemp = hbm := by
      simpa only [readings, Prod.mk.injEq] using hread
    exact ⟨t, ht, hpkg, hdie, htemp, hhbm', hclk⟩

theorem clockStep_full (hoff : s.mgmt.off = false) (hboot : s.mgmt.boot = true) (hstage : s.mgmt.stage = 3) (hps : s.mgmt.ps ≠ 2#2) (hdies : dies.length = 4)
    (htemps : temps.length = 4) (hhbm : hbm.length = 8) (hcold : ∀ t ∈ temps ++ hbm, t.toInt < 110 * 16) (hlo : 600 ≤ s.mgmt.aclk.toNat) (hhi : s.mgmt.aclk.toNat ≤ 1900) :
    let cap := bitsOf s.mgmt.pwrcap.toNat 10 0 * 1000
    let limit : Int := bitsOf s.mgmt.therm.toNat 15 8
    let hot := ∃ t ∈ temps, limit * 16 ≤ t.toInt
    let cool := ∀ t ∈ temps, t.toInt < (limit - 3) * 16
    let clk := s.mgmt.aclk.toNat
    Answers (exec (.clockStep avg pkg dies temps hbm) s) (fun t => 600 ≤ t.mgmt.aclk.toNat ∧ t.mgmt.aclk.toNat ≤ 1900 ∧
      t.mgmt.pkgpwr = pkg ∧ t.mgmt.diepwr = dies ∧ t.mgmt.temp = temps ∧ t.mgmt.hbmtemp = hbm ∧
      (cap < avg.toNat ∨ hot → t.mgmt.aclk.toNat = max 600 (clk - 50)) ∧
      (avg.toNat * 100 < cap * 97 → cool → t.mgmt.aclk.toNat = min 1900 (clk + 50)) ∧
      (¬(cap < avg.toNat ∨ hot) → ¬(avg.toNat * 100 < cap * 97 ∧ cool) → t.mgmt.aclk.toNat = clk)) := by
  intro cap limit hot cool clk
  have hno : ¬ anyHot (temps ++ hbm) 110 = true := by
    rw [anyHot_iff]
    rintro ⟨t, ht, h⟩
    exact absurd (hcold t ht) (not_lt.mpr h)
  obtain ⟨t, ht, hread⟩ := clockStep_steps (avg := avg) (pkg := pkg) (clockStep_measures hoff hboot hdies htemps hhbm) hno hstage hps
  obtain ⟨hge, hle, hdown, hrise, hstay⟩ := clockAfter_cases (avg := avg) (temps := temps) s.mgmt hlo hhi
  obtain ⟨hclk, hpkg, hdie, htemp, hhbm'⟩ : t.mgmt.aclk = BitVec.ofNat 32 (clockAfter s.mgmt avg temps) ∧ t.mgmt.pkgpwr = pkg ∧ t.mgmt.diepwr = dies ∧
      t.mgmt.temp = temps ∧ t.mgmt.hbmtemp = hbm := by
    simpa only [readings, Prod.mk.injEq] using hread
  have hnat : t.mgmt.aclk.toNat = clockAfter s.mgmt avg temps := by
    rw [hclk, BitVec.toNat_ofNat, Nat.mod_eq_of_lt (by omega)]
  refine ⟨t, ht, ?_⟩
  dsimp only
  rw [hnat]
  exact ⟨hge, hle, hpkg, hdie, htemp, hhbm', hdown, hrise, hstay⟩

end Clock

/-! ## Errors of memories (R446 to R450) -/

theorem mem_addLine (ls : List Nat) (l : Nat) : l ∈ addLine ls l ∧ ∀ k ∈ ls, k ∈ addLine ls l := by
  induction ls with
  | nil => exact ⟨List.mem_singleton.mpr rfl, fun k hk => absurd hk List.not_mem_nil⟩
  | cons a ls ih =>
    unfold addLine
    split
    · exact ⟨List.mem_cons_self, fun k hk => List.mem_cons_of_mem _ hk⟩
    · split
      · next h => exact ⟨h ▸ List.mem_cons_self, fun k hk => hk⟩
      · refine ⟨List.mem_cons_of_mem _ ih.1, fun k hk => ?_⟩
        rcases List.mem_cons.mp hk with rfl | hk
        · exact List.mem_cons_self
        · exact List.mem_cons_of_mem _ (ih.2 k hk)

/-- An entry of the error log with one more message, in some cases. -/
theorem rasLog_postMsix_fields (s : State) (kind unit addr v : Nat) (c : Prop) [Decidable c] : ∃ p q d l,
    (if c then (s.rasLog kind unit addr 0).postMsix v else s.rasLog kind unit addr 0) =
    { s with mgmt := { s.mgmt with msixPending := p, msixSent := q }, ras := { s.ras with msidrop := d, log := l, prod := s.ras.prod + 1#32 } } := by
  obtain ⟨p, q, d, l, hlog⟩ := rasLog_fields s kind unit addr 0
  split
  · obtain ⟨p', q', d', hpost⟩ := postMsix_fields (s.rasLog kind unit addr 0) v
    rw [hpost, hlog]
    exact ⟨p', q', d', l, rfl⟩
  · exact ⟨p, q, d, l, hlog⟩

/-- A corrected error is counted, and one entry goes to the log. -/
theorem corrected_hbm (s : State) (unit addr : Nat) : ∃ p q d l, s.corrected true unit addr =
    { s with
      mgmt := { s.mgmt with msixPending := p, msixSent := q }
      ras := { s.ras with cehbm := satInc s.ras.cehbm, msidrop := d, log := l, prod := s.ras.prod + 1#32 } } :=
  rasLog_postMsix_fields { s with ras := { s.ras with cehbm := satInc s.ras.cehbm } } 3 unit addr 1 _

theorem corrected_sram (s : State) (unit addr : Nat) : ∃ p q d l, s.corrected false unit addr =
    { s with
      mgmt := { s.mgmt with msixPending := p, msixSent := q }
      ras := { s.ras with cesram := satInc s.ras.cesram, msidrop := d, log := l, prod := s.ras.prod + 1#32 } } :=
  rasLog_postMsix_fields { s with ras := { s.ras with cesram := satInc s.ras.cesram } } 1 unit addr 1 _

section Memories

variable {s : State}

theorem line_poisoned (ls : List Nat) (line : Nat) : line ∈ addLine ls (64 * line / 64) ∧ ∀ l ∈ ls, l ∈ addLine ls (64 * line / 64) := by
  rw [Nat.mul_div_cancel_left line (by decide)]
  exact mem_addLine ls line

theorem patrolScrub_hbm {line : Nat} (hpa : 64 * line < 0x8000000000) (hup : s.mgmt.stackup.getLsbD (bitsOf (64 * line) 38 36) = true) (hps : s.mgmt.ps ≠ 2#2) :
    Answers (exec (.patrolScrub line 1) s) (fun t => t.ras.cehbm = satInc s.ras.cehbm ∧ t.poison = s.poison ∧ t.ras.prod = s.ras.prod + 1#32 ∧ t.mem = s.mem) ∧
    Answers (exec (.patrolScrub line 2) s) (fun t => t.ras.uehbm = satInc s.ras.uehbm ∧ line ∈ t.poison ∧ (∀ l ∈ s.poison, l ∈ t.poison) ∧
      t.ras.prod = s.ras.prod + 1#32 ∧ t.mem = s.mem) := by
  have hreads : ¬ (0x8000000000 ≤ 64 * line ∨ (!s.mgmt.stackup.getLsbD (bitsOf (64 * line) 38 36)) = true ∨ s.mgmt.ps = 2#2) := by
    rw [hup]
    rintro (h | h | h)
    · omega
    · exact Bool.false_ne_true h
    · exact hps h
  obtain ⟨p, q, d, l, hone⟩ := corrected_hbm (fresh s) (bitsOf (64 * line) 38 36 / 2 * 64 + bitsOf (64 * line) 38 36 * 256) (64 * line)
  obtain ⟨p', q', d', l', htwo⟩ := rasLog_fields ({ fresh s with ras := { s.ras with uehbm := satInc s.ras.uehbm } }.setPoison (64 * line)) 4
    (bitsOf (64 * line) 38 36 / 2 * 64 + bitsOf (64 * line) 38 36 * 256) (64 * line) 0
  have h1 : exec (.patrolScrub line 1) s = .next ((fresh s).corrected true (bitsOf (64 * line) 38 36 / 2 * 64 + bitsOf (64 * line) 38 36 * 256) (64 * line)) :=
    if_neg hreads
  have h2 : exec (.patrolScrub line 2) s = .next (({ fresh s with ras := { s.ras with uehbm := satInc s.ras.uehbm } }.setPoison (64 * line)).rasLog 4
      (bitsOf (64 * line) 38 36 / 2 * 64 + bitsOf (64 * line) 38 36 * 256) (64 * line) 0) := if_neg hreads
  rw [h1, h2, hone, htwo]
  obtain ⟨hline, hold⟩ := line_poisoned s.poison line
  exact ⟨⟨_, rfl, rfl, rfl, rfl, rfl⟩, ⟨_, rfl, rfl, hline, hold, rfl, rfl⟩⟩

theorem patrolScrub_l2 {line : Nat} (hkind : (fresh s).paKind (64 * line) ≠ .none) :
    Answers (exec (.patrolScrub line 3) s) (fun t => t.ras.cesram = satInc s.ras.cesram ∧ t.poison = s.poison ∧ t.ras.prod = s.ras.prod + 1#32 ∧ t.mem = s.mem) ∧
    Answers (exec (.patrolScrub line 4) s) (fun t => t.ras.uesram = satInc s.ras.uesram ∧ line ∈ t.poison ∧ (∀ l ∈ s.poison, l ∈ t.poison) ∧
      t.ras.prod = s.ras.prod + 1#32 ∧ t.mem = s.mem) := by
  have hcached : ¬ (!(fresh s).cached (64 * line)) = true := by
    unfold State.cached
    split
    · next h => exact absurd h hkind
    · exact Bool.false_ne_true
  obtain ⟨p, q, d, l, hone⟩ := corrected_sram (fresh s) ((fresh s).homeDie (64 * line) * 64) (64 * line)
  obtain ⟨p', q', d', l', htwo⟩ := rasLog_fields ({ fresh s with ras := { s.ras with uesram := satInc s.ras.uesram } }.setPoison (64 * line)) 2
    ((fresh s).homeDie (64 * line) * 64) (64 * line) 0
  have h1 : exec (.patrolScrub line 3) s = .next ((fresh s).corrected false ((fresh s).homeDie (64 * line) * 64) (64 * line)) := if_neg hcached
  have h2 : exec (.patrolScrub line 4) s = .next (({ fresh s with ras := { s.ras with uesram := satInc s.ras.uesram } }.setPoison (64 * line)).rasLog 2
      ((fresh s).homeDie (64 * line) * 64) (64 * line) 0) := if_neg hcached
  rw [h1, h2, hone, htwo]
  obtain ⟨hline, hold⟩ := line_poisoned s.poison line
  exact ⟨⟨_, rfl, rfl, rfl, rfl, rfl⟩, ⟨_, rfl, rfl, hline, hold, rfl, rfl⟩⟩

theorem patrolScrub_core {core : Nat} (hcore : core < 160) : Answers (exec (.patrolScrub core 5) s) (fun t =>
    t.ras.cesram = satInc s.ras.cesram ∧ t.ras.prod = s.ras.prod + 1#32 ∧ t.mem = s.mem ∧ t.crews = s.crews) := by
  obtain ⟨p, q, d, l, hone⟩ := corrected_sram (fresh s) (dieOfCore core * 64 + core / 4 % 10 * 4 + core % 4) 0
  have h1 : exec (.patrolScrub core 5) s = .next (if 160 ≤ core then fresh s else (fresh s).corrected false (dieOfCore core * 64 + core / 4 % 10 * 4 + core % 4) 0) := rfl
  rw [h1, if_neg (Nat.not_le.mpr hcore), hone]
  exact ⟨_, rfl, rfl, rfl, rfl, rfl⟩

theorem onCoreUncorrectable_unowned {core crew blk : Nat} (hcrew : s.crew? crew = none) (hblk : s.block? blk = none) :
    Answers (exec (.onCoreUncorrectable core crew blk) s) (fun t =>
      t.ras.uesram = satInc s.ras.uesram ∧ t.crews = s.crews ∧ t.ras.prod = s.ras.prod + 1#32) := by
  obtain ⟨p, q, d, l, hone⟩ := rasLog_fields { fresh s with ras := { s.ras with uesram := satInc s.ras.uesram } } 2 (dieOfCore core * 64 + core / 4 % 10 * 4 + core % 4) 0 0
  have hc : (fresh s).crew? crew = none := hcrew
  have hb : (fresh s).block? blk = none := hblk
  have h1 : exec (.onCoreUncorrectable core crew blk) s =
      .next (State.rasLog { fresh s with ras := { s.ras with uesram := satInc s.ras.uesram } } 2 (dieOfCore core * 64 + core / 4 % 10 * 4 + core % 4) 0 0) := by
    rw [exec_onCoreUncorrectable]
    unfold execOnCoreUncorrectable
    rw [show ({ s with free := s.free + 1 } : State) = fresh s from rfl]
    dsimp only
    rw [hc, hb] <;> rfl
  rw [h1, hone]
  exact ⟨_, rfl, rfl, rfl, rfl⟩

/-- A record that is not posted is held. -/
theorem postRecord_held {t : State} {h : Held} (hp : s.postRecord h = (t, none)) : ∃ k ∈ t.held, k.crew = h.crew := by
  unfold State.postRecord at hp
  split at hp
  · cases hp
  · next m va _ =>
    obtain ⟨p, q, d, l, hlog⟩ := rasLog_fields { m with held := m.held ++ [{ h with unwritable := true, tried := m.clock.toNat }] } 12 0 va 0
    rw [hlog] at hp
    cases hp
    exact ⟨_, List.mem_append_right _ List.mem_cons_self, rfl⟩
  · cases hp
    exact ⟨_, List.mem_append_right _ List.mem_cons_self, rfl⟩

/-- The crew that holds the failing word halts, its record is posted and its context ends, or the crew waits for its record (R448). -/
theorem onCoreUncorrectable_owned {core crew blk : Nat} {c : Crew} (hcrew : s.crew? crew = some c) (hcore : c.core = core) : ∃ (v : State) (h : Held),
    h.crew = some crew ∧ v.crews.map (fun d => d.id) = s.crews.map (fun d => d.id) ∧
    exec (.onCoreUncorrectable core crew blk) s = match v.postRecord h with
      | (t, some _) => .next (t.terminate c.ctx)
      | (t, none) => .next (t.modCrew crew (fun c => { c with stall := some { queue := 0, seq := none, step := false, cause := 0x0D, key := none } })) := by
  have hid : c.id = crew := eq_of_beq (List.find?_some (p := fun (c : Crew) => c.id == crew) hcrew)
  have hc : (fresh s).crew? crew = some c := hcrew
  obtain ⟨p, q, d, l, hlog⟩ := rasLog_fields { fresh s with ras := { s.ras with uesram := satInc s.ras.uesram } } 2 (dieOfCore core * 64 + core / 4 % 10 * 4 + core % 4) 0 c.ctx
  rw [exec_onCoreUncorrectable]
  unfold execOnCoreUncorrectable
  rw [show ({ s with free := s.free + 1 } : State) = fresh s from rfl]
  dsimp only
  rw [hc]
  dsimp only
  rw [if_pos hcore]
  dsimp only
  rw [hid]
  refine ⟨_, _, rfl, ?_, rfl⟩
  refine (haltCrew_ids _ crew).trans ?_
  rw [show (fresh s).ras = s.ras from rfl, hlog]
  rfl

theorem onCoreUncorrectable_ends {core crew blk : Nat} {c : Crew} (hcrew : s.crew? crew = some c) (hcore : c.core = core) :
    Answers (exec (.onCoreUncorrectable core crew blk) s) (fun t =>
      (∀ d ∈ t.crews, d.ctx ≠ c.ctx) ∨ ∃ d ∈ t.crews, d.id = crew ∧ d.stall.isSome = true ∧ ∃ h ∈ t.held, h.crew = some crew) := by
  obtain ⟨v, h, hheld, hids, heq⟩ := onCoreUncorrectable_owned (blk := blk) hcrew hcore
  have hpost := postRecord_postStep v h
  rw [heq]
  cases hr : v.postRecord h with
  | mk t seq =>
    rw [hr] at hpost
    cases seq with
    | some n => exact ⟨_, rfl, .inl (terminate_parts t c.ctx).1⟩
    | none =>
      obtain ⟨k, hk, hkc⟩ := postRecord_held hr
      have hmem : crew ∈ t.crews.map (fun d => d.id) := by
        rw [show t.crews = v.crews from PostStep.crews hpost, hids]
        have hid : c.id = crew := eq_of_beq (List.find?_some (p := fun (c : Crew) => c.id == crew) hcrew)
        exact List.mem_map.mpr ⟨c, List.mem_of_find?_eq_some hcrew, hid⟩
      obtain ⟨d, hd, hdid⟩ := List.mem_map.mp hmem
      refine ⟨_, rfl, .inr ⟨{ d with stall := some { queue := 0, seq := none, step := false, cause := 0x0D, key := none } }, ?_, hdid, rfl, k, hk, hkc.trans hheld⟩⟩
      exact List.mem_map.mpr ⟨d, hd, if_pos (beq_iff_eq.mpr hdid)⟩

end Memories

/-! ## A CXL port that loses its link (R408, R449) -/

section Far

theorem paKind_far {s : State} {pa p : Nat} (h : s.paKind pa = .far p) : 0x200000000000 ≤ pa := by
  unfold State.paKind at h
  split at h
  · cases h
  · split at h
    · dsimp only at h
      split at h <;> cases h
    · split at h
      · next hfar => exact hfar.1
      · split at h <;> cases h

theorem putKey_far (s : State) {pa : Nat} (key : Nat) (bs : List Byte) (hpa : 0x8000000000 ≤ pa) :
    s.putKey pa key bs = { s with mem := (s.putKey pa key bs).mem, past := (s.putKey pa key bs).past } := by
  have hmark (t : State) : t.markKeys pa bs.length key = t := if_pos (by rw [decide_eq_true hpa, Bool.or_true])
  unfold State.putKey
  rw [hmark]
  rfl

/-- Far memory has no keys: a write there changes its bytes and what is kept of the old ones. -/
theorem writePa_far (s : State) {pa : Nat} (bs : List Byte) (hpa : 0x8000000000 ≤ pa) :
    s.writePa pa bs = { s with mem := (s.writePa pa bs).mem, past := (s.writePa pa bs).past } := by
  unfold State.writePa State.writeKey
  split
  · exact putKey_far s 0 bs hpa
  · refine List.foldlRecOn (motive := fun (t : State) => t = { s with mem := t.mem, past := t.past }) _ _ rfl (fun t ht p _ => ?_)
    split
    · exact ht
    · have hput := putKey_far t (pa := pa + p.2) 0 [p.1] (by omega)
      generalize t.putKey (pa + p.2) 0 [p.1] = v at hput
      rw [hput, ht]

/-- One loss of a port: its bytes are open and it is counted. -/
def loseStore (p : Nat) (s : State) (x : Nat × Nat) : State :=
  if 0 < x.2 ∧ s.paKind x.1 = .far p ∧ s.paKind (x.1 + x.2 - 1) = .far p then
    let bs := (List.range x.2).map (fun i => BitVec.ofNat 8 (Config.free s.free [42, x.1 + i]))
    { s.writePa x.1 bs with ras := { s.ras with farlost := satInc s.ras.farlost } }
  else s

/-- The stores of a list that a port has lost, in a package with the memory map of `s`. -/
def lostStores (s : State) (p : Nat) (lost : List (Nat × Nat)) : List (Nat × Nat) :=
  lost.filter (fun x => decide (0 < x.2 ∧ s.paKind x.1 = .far p ∧ s.paKind (x.1 + x.2 - 1) = .far p))

theorem loseStore_loses {s : State} {p : Nat} {x : Nat × Nat} (hwf : s.mem.wf = true) (hpos : 0 < x.2) (hfar : s.paKind x.1 = .far p)
    (hend : s.paKind (x.1 + x.2 - 1) = .far p) :
    loseStore p s x = { s with ras := { s.ras with farlost := satInc s.ras.farlost }, mem := (loseStore p s x).mem, past := (loseStore p s x).past } ∧
    (loseStore p s x).mem.wf = true ∧ ∀ a, a < x.1 ∨ x.1 + x.2 ≤ a → (loseStore p s x).mem.get a = s.mem.get a := by
  have heq : loseStore p s x = { s.writePa x.1 ((List.range x.2).map (fun i => BitVec.ofNat 8 (Config.free s.free [42, x.1 + i]))) with
      ras := { s.ras with farlost := satInc s.ras.farlost } } := if_pos ⟨hpos, hfar, hend⟩
  have hlen : ((List.range x.2).map (fun i => BitVec.ofNat 8 (Config.free s.free [42, x.1 + i]))).length = x.2 := by
    rw [List.length_map, List.length_range]
  generalize (List.range x.2).map (fun i => BitVec.ofNat 8 (Config.free s.free [42, x.1 + i])) = bs at heq hlen
  have hwrite := writePa_far s bs (by have := paKind_far hfar; omega : 0x8000000000 ≤ x.1)
  have hget := fun a => writeKey_get hwf x.1 0 bs a
  have hwf' := (State.writeKey_frame s x.1 0 bs).1 hwf
  rw [heq]
  refine ⟨by rw [hwrite], hwf', fun a ha => (hget a).trans (if_neg ?_)⟩
  rw [hlen]
  rintro ⟨hge, hlt, -⟩
  omega

theorem lose_stores (p : Nat) (lost : List (Nat × Nat)) (s : State) (hwf : s.mem.wf = true) :
    let t := lost.foldl (loseStore p) s
    t = { s with
      ras := { s.ras with farlost := (lostStores s p lost).foldl (fun n _ => satInc n) s.ras.farlost }
      mem := t.mem, past := t.past } ∧
    ∀ a, (∀ x ∈ lostStores s p lost, a < x.1 ∨ x.1 + x.2 ≤ a) → t.mem.get a = s.mem.get a := by
  induction lost generalizing s with
  | nil => exact ⟨rfl, fun _ _ => rfl⟩
  | cons x lost ih =>
    by_cases hgone : 0 < x.2 ∧ s.paKind x.1 = .far p ∧ s.paKind (x.1 + x.2 - 1) = .far p
    · obtain ⟨hpos, hfar, hend⟩ := hgone
      obtain ⟨heq, hwf', hget⟩ := loseStore_loses hwf hpos hfar hend
      obtain ⟨ht, hrest⟩ := ih (loseStore p s x) hwf'
      have hkind (a : Nat) : (loseStore p s x).paKind a = s.paKind a := by
        rw [heq]
        rfl
      have hsame : lostStores (loseStore p s x) p lost = lostStores s p lost := by
        unfold lostStores
        simp only [hkind]
      have hcons : lostStores s p (x :: lost) = x :: lostStores s p lost := List.filter_cons_of_pos (decide_eq_true ⟨hpos, hfar, hend⟩)
      have hras : (loseStore p s x).ras = { s.ras with farlost := satInc s.ras.farlost } := (congrArg State.ras heq).trans rfl
      rw [hsame, hras] at ht
      rw [hsame] at hrest
      rw [hcons, List.foldl_cons, List.foldl_cons]
      generalize lost.foldl (loseStore p) (loseStore p s x) = t at ht hrest
      generalize loseStore p s x = m at heq ht hrest hget
      refine ⟨by rw [ht, heq], fun a ha => ?_⟩
      exact (hrest a (fun y hy => ha y (List.mem_cons_of_mem _ hy))).trans (hget a (ha x List.mem_cons_self))
    · have hskip : loseStore p s x = s := if_neg hgone
      have hcons : lostStores s p (x :: lost) = lostStores s p lost := List.filter_cons_of_neg (by simpa using hgone)
      rw [List.foldl_cons, hskip, hcons]
      exact ih s hwf

theorem cxlLinkDown_loses {s : State} {p : Nat} {lost : List (Nat × Nat)} (hp : p < 4) (hup : s.mgmt.cxlup.getLsbD p = true) (hwf : s.mem.wf = true) :
    let u := fresh s
    let gone := fun x : Nat × Nat => 0 < x.2 ∧ u.paKind x.1 = .far p ∧ u.paKind (x.1 + x.2 - 1) = .far p
    Answers (exec (.cxlLinkDown p lost) s) (fun t =>
      t = { u with
        mgmt := { s.mgmt with cxlup := s.mgmt.cxlup &&& ~~~(1#4 <<< p) }
        ras := { s.ras with farlost := (lost.filter (fun x => decide (gone x))).foldl (fun n _ => satInc n) s.ras.farlost }
        mem := t.mem, past := t.past } ∧
      ∀ a, (∀ x ∈ lost, gone x → a < x.1 ∨ x.1 + x.2 ≤ a) → t.mem.get a = s.mem.get a) := by
  intro u gone
  have heq : exec (.cxlLinkDown p lost) s = .next (lost.foldl (loseStore p) { fresh s with mgmt := { s.mgmt with cxlup := s.mgmt.cxlup &&& ~~~(1#4 <<< p) } }) :=
    if_neg (by
      rw [show ({ s with free := s.free + 1 } : State).mgmt.cxlup = s.mgmt.cxlup from rfl, hup]
      rintro (h | h)
      · omega
      · exact Bool.false_ne_true h)
  obtain ⟨ht, hget⟩ := lose_stores p lost { fresh s with mgmt := { s.mgmt with cxlup := s.mgmt.cxlup &&& ~~~(1#4 <<< p) } } hwf
  rw [heq]
  refine ⟨_, rfl, ht, fun a ha => hget a (fun x hx => ?_)⟩
  obtain ⟨hx, hg⟩ := List.mem_filter.mp hx
  exact ha x hx (of_decide_eq_true hg)

end Far

theorem cxlLinkDown_idle {s : State} {p : Nat} {lost : List (Nat × Nat)} (h : 4 ≤ p ∨ s.mgmt.cxlup.getLsbD p = false) :
    exec (.cxlLinkDown p lost) s = .next (fresh s) :=
  if_pos (h.imp_right (fun h => by rw [show ({ s with free := s.free + 1 } : State).mgmt.cxlup = s.mgmt.cxlup from rfl, h]; rfl))

theorem rasclr_clears (s : State) : exec .rasclr s = .next (if s.hostOpen then { fresh s with ras := { s.ras with
    cesram := 0#64, uesram := 0#64, cehbm := 0#64, uehbm := 0#64, parfix := 0#64, pktdrop := 0#64, ptebad := 0#64, msidrop := 0#64, farlost := 0#64 } }
    else fresh s) := by
  have heq : exec .rasclr s = if !s.hostOpen then .next (fresh s) else .next { fresh s with ras := { s.ras with
    cesram := 0#64, uesram := 0#64, cehbm := 0#64, uehbm := 0#64, parfix := 0#64, pktdrop := 0#64, ptebad := 0#64, msidrop := 0#64, farlost := 0#64 } } := rfl
  rw [heq]
  cases s.hostOpen <;> rfl

theorem powerAndErrorEvents : PowerAndErrorEvents := by
  unfold PowerAndErrorEvents
  intro s u
  obtain ⟨hlinks, hback, hactive⟩ := leaveD3hot_events (s := s)
  refine ⟨enterD3hot_events, hlinks, hback, hactive, powerLost, ?_, ?_, ?_, ?_, ?_, ?_, ?_, ?_, ?_, rasclr_clears s⟩
  · exact fun avg pkg dies temps hbm hoff hboot hdies htemps hhbm => clockStep_reduced hoff hboot hdies htemps hhbm
  · exact fun avg pkg dies temps hbm hoff hboot hstage hps hdies htemps hhbm hcold hlo hhi =>
      clockStep_full hoff hboot hstage hps hdies htemps hhbm hcold hlo hhi
  · exact fun line hpa hup hps => patrolScrub_hbm hpa hup hps
  · exact fun line hkind => patrolScrub_l2 hkind
  · exact fun core hcore => patrolScrub_core hcore
  · exact fun core crew blk hcrew hblk => onCoreUncorrectable_unowned hcrew hblk
  · exact fun core crew blk c hcrew hcore => onCoreUncorrectable_ends hcrew hcore
  · exact fun p lost hp hup hwf => cxlLinkDown_loses hp hup hwf
  · exact fun p lost h => cxlLinkDown_idle h

/-- Settles O51: bring-up by its stages, power, the clock and the errors each by the function of its event. -/
theorem packageEvents : Obligations.PackageEvents := ⟨bringUpEvents, powerAndErrorEvents⟩

end Sys2Proof.Proofs.ErrorRows
end

