-- ==== Sys2Proof/Proofs/RouterRows.lean ====
section
/-!
PROOF. Proofs/RouterRows.lean: packet headers, routes, answers, and what every landing does first (13 R278 to R287, R290; 24 R437).
-/

namespace Sys2Proof.Proofs.RouterRows

open Sys2Proof Sys2Proof.Machine Sys2Proof.Claims Sys2Proof.Proofs.MemoryFrames Sys2Proof.Proofs.StopRows Sys2Proof.Proofs.BringUpRows

/-! ## Headers (R283) -/

theorem bitsOf_eq (x hi lo : Nat) : bitsOf x hi lo = x / 2 ^ lo % 2 ^ (hi + 1 - lo) := by rw [bitsOf, Nat.shiftRight_eq_div_pow]

theorem bitOf_eq (x i : Nat) : bitOf x i = decide (x / 2 ^ i % 2 = 1) := Nat.testBit_eq_decide_div_mod_eq

theorem decide_toNat (b : Bool) : decide (b.toNat = 1) = b := by cases b <;> rfl

/-- Number i of the header words. -/
theorem word_withHd (p : Packet) (h : Hd) (i : Nat) : (p.withHd h).hdr.getD i 0#32 = h.words.getD i 0#32 := rfl

section Words

variable {h : Hd}

theorem word0 (hf : Fits h) : (h.words.getD 0 0#32).toNat =
    h.dst * 2 ^ 24 + h.src * 2 ^ 16 + h.kind * 2 ^ 12 + h.relh.toNat * 2 ^ 11 + h.nent * 2 ^ 8 + h.hops * 64 + h.ch * 16 + h.ndata := by
  obtain ⟨hdst, hsrc, hkind, hhops, hch, hndata, hstat, hseq, hgroup, hctx, htag, hoff, hrop, haop, hctr, hrhnd, hnent, hlen, hents⟩ := hf
  have hrelh := Bool.toNat_le h.relh
  rw [show h.words.getD 0 0#32 = BitVec.ofNat 32 (h.dst % 256 * 2 ^ 24 + h.src % 256 * 2 ^ 16 + h.kind % 16 * 2 ^ 12 + h.relh.toNat * 2 ^ 11 + h.nent % 8 * 2 ^ 8 + h.hops % 4 * 64 +
      h.ch % 4 * 16 + h.ndata % 16) from rfl, BitVec.toNat_ofNat]
  omega

theorem word1 (hf : Fits h) : (h.words.getD 1 0#32).toNat = h.stat * 2 ^ 24 + h.seq * 256 + h.group := by
  obtain ⟨hdst, hsrc, hkind, hhops, hch, hndata, hstat, hseq, hgroup, -⟩ := hf
  rw [show h.words.getD 1 0#32 = BitVec.ofNat 32 (h.stat % 16 * 2 ^ 24 + h.seq % 2 ^ 16 * 256 + h.group % 256) from rfl, BitVec.toNat_ofNat]
  omega

theorem word2 (hf : Fits h) : (h.words.getD 2 0#32).toNat = h.ctx * 2 ^ 16 + h.tag := by
  obtain ⟨-, -, -, -, -, -, -, -, -, hctx, htag, -⟩ := hf
  rw [show h.words.getD 2 0#32 = BitVec.ofNat 32 (h.ctx % 2 ^ 16 * 2 ^ 16 + h.tag % 2 ^ 16) from rfl, BitVec.toNat_ofNat]
  omega

theorem word3 (hf : Fits h) : (h.words.getD 3 0#32).toNat = h.off := by
  obtain ⟨-, -, -, -, -, -, -, -, -, -, -, hoff, -⟩ := hf
  rw [show h.words.getD 3 0#32 = BitVec.ofNat 32 (h.off % 2 ^ 32) from rfl, BitVec.toNat_ofNat]
  omega

theorem word4 (hf : Fits h) : (h.words.getD 4 0#32).toNat = h.rop * 2 ^ 22 + h.aop * 2 ^ 18 + h.ctr * 2 ^ 12 + h.arr.toNat * 2 ^ 11 + h.rhnd := by
  obtain ⟨-, -, -, -, -, -, -, -, -, -, -, -, hrop, haop, hctr, hrhnd, -⟩ := hf
  have harr := Bool.toNat_le h.arr
  rw [show h.words.getD 4 0#32 = BitVec.ofNat 32 (h.rop % 16 * 2 ^ 22 + h.aop % 16 * 2 ^ 18 + h.ctr % 64 * 2 ^ 12 + h.arr.toNat * 2 ^ 11 + h.rhnd % 2 ^ 11) from rfl, BitVec.toNat_ofNat]
  omega

/-- A word of two route entries. -/
theorem entWord (a b : Nat) : (BitVec.ofNat 32 (a % 2 ^ 16 + b % 2 ^ 16 * 2 ^ 16)).toNat % 65536 = a % 2 ^ 16 ∧
    (BitVec.ofNat 32 (a % 2 ^ 16 + b % 2 ^ 16 * 2 ^ 16)).toNat / 65536 = b % 2 ^ 16 := by
  rw [BitVec.toNat_ofNat]
  omega

theorem entries_of_words (hf : Fits h) :
    ((List.range 3).flatMap (fun i => [(h.words.getD (5 + i) 0#32).toNat % 65536, (h.words.getD (5 + i) 0#32).toNat / 65536])).take h.nent = h.ents := by
  obtain ⟨-, -, -, -, -, -, -, -, -, -, -, -, -, -, -, -, hnent, hlen, hents⟩ := hf
  have hget (i : Nat) : h.ents.getD i 0 % 2 ^ 16 = h.ents.getD i 0 := by
    refine Nat.mod_eq_of_lt ?_
    rw [List.getD_eq_getElem?_getD]
    cases hi : h.ents[i]? with
    | none => exact Nat.two_pow_pos 16
    | some e => exact hents e (List.mem_of_getElem? hi)
  have hsix : (List.range 3).flatMap (fun i => [(h.words.getD (5 + i) 0#32).toNat % 65536, (h.words.getD (5 + i) 0#32).toNat / 65536]) =
      (List.range 6).map (fun i => h.ents.getD i 0) := by
    obtain ⟨h0, h1⟩ := entWord (h.ents.getD 0 0) (h.ents.getD 1 0)
    obtain ⟨h2, h3⟩ := entWord (h.ents.getD 2 0) (h.ents.getD 3 0)
    obtain ⟨h4, h5⟩ := entWord (h.ents.getD 4 0) (h.ents.getD 5 0)
    exact congrArg₂ List.cons (h0.trans (hget 0)) (congrArg₂ List.cons (h1.trans (hget 1)) (congrArg₂ List.cons (h2.trans (hget 2))
      (congrArg₂ List.cons (h3.trans (hget 3)) (congrArg₂ List.cons (h4.trans (hget 4)) (congrArg₂ List.cons (h5.trans (hget 5)) rfl)))))
  rw [hsix, hnent, ← List.map_take, List.take_range, Nat.min_eq_left hlen]
  refine List.ext_getElem (by simp) (fun i hi hi' => ?_)
  rw [List.getElem_map, List.getElem_range, List.getD_eq_getElem _ _ hi']

end Words

theorem headerWords : HeaderWords := by
  intro p h hf
  have h0 := word0 hf
  have h1 := word1 hf
  have h2 := word2 hf
  have h3 := word3 hf
  have h4 := word4 hf
  have hents := entries_of_words hf
  obtain ⟨hdst, hsrc, hkind, hhops, hch, hndata, hstat, hseq, hgroup, hctx, htag, hoff, hrop, haop, hctr, hrhnd, hnent, hlen, -⟩ := hf
  have hrelh := Bool.toNat_le h.relh
  have harr := Bool.toNat_le h.arr
  have hn : bitsOf (h.words.getD 0 0#32).toNat 10 8 = h.nent := by
    rw [h0, bitsOf_eq]
    omega
  unfold Packet.hd
  simp only [word_withHd]
  rw [hn, hents]
  rw [h0, h1, h2, h3, h4]
  have e0 := decide_toNat h.relh
  have e1 := decide_toNat h.arr
  cases h with
  | mk dst src kind relh nent hops ch ndata stat seq group ctx tag off rop aop ctr arr rhnd ents =>
    dsimp only at *
    simp only [Hd.mk.injEq, bitsOf_eq, bitOf_eq]
    refine ⟨?_, ?_, ?_, ?_, trivial, ?_, ?_, ?_, ?_, ?_, ?_, ?_, ?_, trivial, ?_, ?_, ?_, ?_, ?_, trivial⟩
    case refine_4 =>
      refine (decide_eq_decide.mpr ?_).trans e0
      omega
    case refine_16 =>
      refine (decide_eq_decide.mpr ?_).trans e1
      omega
    all_goals omega

/-! ## What sending a packet leaves as it was -/

/-- State `t` is state `s` but for the packets queued and delivered, the aborts that await answers, the error counts and the messages they post. -/
def FabStep (s t : State) : Prop := t = { s with ras := t.ras, mgmt := t.mgmt, outq := t.outq, landing := t.landing, aborts := t.aborts }

theorem FabStep.refl (s : State) : FabStep s s := rfl

theorem fabStep_of_fields {s t : State} {r : Ras} {m : Mgmt} (h : t = { s with ras := r, mgmt := m }) : FabStep s t := by
  rw [h]
  rfl

theorem outq_fabStep (s : State) (l : List PortPkt) : FabStep s { s with outq := l } := rfl

theorem landing_fabStep (s : State) (l : List PortPkt) : FabStep s { s with landing := l } := rfl

theorem aborts_fabStep (s : State) (l : List AbortWait) : FabStep s { s with aborts := l } := rfl

theorem FabStep.trans {s t u : State} (h : FabStep s t) (h' : FabStep t u) : FabStep s u := by
  unfold FabStep at h h' ⊢
  rw [h] at h'
  exact h'

theorem foldl_fabStep {α : Type} {f : State → α → State} (hf : ∀ s a, FabStep s (f s a)) (as : List α) (s : State) : FabStep s (as.foldl f s) := by
  induction as generalizing s with
  | nil => exact .refl s
  | cons a as ih => exact (hf s a).trans (ih (f s a))

/-- What a router makes of a packet, and the state that is left. -/
def Routed.Keeps (s : State) : Routed → Prop
  | .sent t => FabStep s t
  | .landed t => FabStep s t
  | _ => True

theorem hopTo_keeps (s : State) (h : Hd) (p : Packet) (t : Nat) (det : Bool) : Routed.Keeps s (s.hopTo h p t det) := by
  unfold State.hopTo
  dsimp only
  split
  · trivial
  · split
    · exact outq_fabStep s _
    · split
      · trivial
      · split
        · trivial
        · split
          · trivial
          · exact outq_fabStep s _

theorem routeStep_keeps (s : State) (port : Nat) (p : Packet) : Routed.Keeps s (s.routeStep port p) := by
  unfold State.routeStep
  dsimp only
  split
  · trivial
  · split
    · trivial
    · split
      · exact hopTo_keeps ..
      · exact hopTo_keeps ..
      · split
        · trivial
        · exact landing_fabStep s _
      · exact landing_fabStep s _
      · trivial
      · trivial

theorem enter_keeps (s : State) (h : Hd) (p : Packet) (last : Nat) : Routed.Keeps s (s.enter h p last) := routeStep_keeps ..

/-- An abort sent, by the outcome of its router. `sendAbort` is unfolded as a function and `enter` made a variable: the kernel must not evaluate
the words of a header, whose numbers are large. -/
theorem sendAbort_fabStep (s : State) (src m g seq : Nat) : FabStep s (s.sendAbort src m g seq).1 := by
  obtain ⟨f, hf⟩ : ∃ f, f = State.sendAbort := ⟨_, rfl⟩
  rw [← hf]
  delta State.sendAbort at hf
  subst hf
  beta_reduce
  obtain ⟨enter, henter, hk⟩ : ∃ enter, enter = State.enter ∧ ∀ h p last, Routed.Keeps s (enter s h p last) := ⟨_, rfl, enter_keeps s⟩
  rw [← henter]
  clear henter
  dsimp only
  split
  · next t heq =>
    have ht := hk _ _ _ |> heq.subst (motive := fun r => Routed.Keeps s r)
    exact ht
  · next t heq =>
    have ht := hk _ _ _ |> heq.subst (motive := fun r => Routed.Keeps s r)
    exact ht
  · exact .refl s

theorem sendAborts_fabStep (s : State) (g seq : Nat) : FabStep s (s.sendAborts g seq) := by
  refine foldl_fabStep (fun t m => ?_) _ s
  have h := sendAbort_fabStep t t.own m g seq
  generalize t.sendAbort t.own m g seq = r at h
  obtain ⟨u, ok⟩ := r
  cases ok with
  | true => exact h
  | false => exact h.trans (aborts_fabStep u _)

theorem startAbort_fabStep (s : State) (g seq : Nat) : FabStep s (s.startAbort g seq) := by
  unfold State.startAbort State.openAbort
  split
  · exact .refl s
  · exact (aborts_fabStep s _).trans (sendAborts_fabStep _ g seq)

theorem countDrop_fabStep (s : State) (port : Nat) : FabStep s (s.countDrop port) := by
  obtain ⟨p, q, d, l, h⟩ := rasLog_fields { s with ras := { s.ras with pktdrop := satInc s.ras.pktdrop } } 10 (if port < 32 then port * 65536 + port / 8 * 64 else 0) 0 0
  exact fabStep_of_fields (h.trans rfl)

/-- What a packet's sender learns of each outcome of its router. -/
structure Sends (s : State) (h : Hd) (r : Routed) (out : State × Bool) : Prop where
  sent : ∀ t, r = .sent t → out = (t, true)
  landed : ∀ t, r = .landed t → out = (t, true)
  abort : r = .abort → out = (s.startAbort h.group h.seq, true)
  lost : r = .lost → out = if h.kind = 10 then (s.startAbort h.group h.seq, true) else (s, false)
  drop : r = .drop → out = (s.countDrop 32, false)
  fan : r = .fan → out = (s, false)

theorem sendVia_sends (s : State) (h : Hd) (p : Packet) (last : Nat) : Sends s h (s.enter h p last) (s.sendVia h p last) := by
  obtain ⟨f, hf⟩ : ∃ f, f = State.sendVia := ⟨_, rfl⟩
  rw [← hf]
  delta State.sendVia at hf
  subst hf
  beta_reduce
  generalize s.enter h p last = r
  constructor
  all_goals
    intros
    subst r
    rfl

theorem sendVia_fabStep (s : State) (h : Hd) (p : Packet) (last : Nat) : FabStep s (s.sendVia h p last).1 := by
  have hk := enter_keeps s h p last
  obtain ⟨hsent, hlanded, habort, hlost, hdrop, hfan⟩ := sendVia_sends s h p last
  generalize s.enter h p last = r at hk hsent hlanded habort hlost hdrop hfan
  generalize s.sendVia h p last = out at hsent hlanded habort hlost hdrop hfan
  cases r with
  | sent t =>
    rw [hsent t rfl]
    exact hk
  | landed t =>
    rw [hlanded t rfl]
    exact hk
  | abort =>
    rw [habort rfl]
    exact startAbort_fabStep ..
  | lost =>
    rw [hlost rfl]
    split
    · exact startAbort_fabStep ..
    · exact .refl s
  | drop =>
    rw [hdrop rfl]
    exact countDrop_fabStep ..
  | fan =>
    rw [hfan rfl]
    exact .refl s

theorem sendPkt_fabStep (s : State) (h : Hd) (p : Packet) : FabStep s (s.sendPkt h p).1 := sendVia_fabStep ..

/-- The header and the packet of an answer (R284). -/
def answerHd (s : State) (h : Hd) (stat : Nat) : Hd :=
  { Hd.mk0 s h.src (ackKind h.kind) h.ctx h.tag with stat := stat, seq := h.seq, group := h.group, off := h.off }

/-- The header and the packet of an answer (R284). -/
def answerPkt (s : State) (h : Hd) (stat : Nat) (data : List Byte) (bad : List Nat) : Packet :=
  { Packet.mk0 (answerHd s h stat) data with bad := bad, len := if h.kind = 11 then 11 else 0 }

theorem answer_eq (s : State) (h : Hd) (stat : Nat) (data : List Byte) (bad : List Nat) :
    s.answer h stat data bad = (s.sendPkt (answerHd s h stat) (answerPkt s h stat data bad)).1 := by
  obtain ⟨f, hf⟩ : ∃ f, f = State.answer := ⟨_, rfl⟩
  rw [← hf]
  delta State.answer at hf
  subst hf
  beta_reduce
  obtain ⟨send, hsend⟩ : ∃ send, send = State.sendPkt := ⟨_, rfl⟩
  rw [← hsend]
  clear hsend
  rfl

theorem answer_fabStep (s : State) (h : Hd) (stat : Nat) (data : List Byte) (bad : List Nat) : FabStep s (s.answer h stat data bad) := by
  rw [answer_eq]
  exact sendPkt_fabStep ..

/-! ## What every landing does first (R286, R290, R437) -/

theorem eraseIdx_eq {α : Type} (l : List α) (i : Nat) : l.take i ++ l.drop (i + 1) = l.eraseIdx i := (List.eraseIdx_eq_take_drop_succ l i).symm

/-- The packet that is next of its port and channel is taken. -/
theorem takeLanding_first {s : State} {i kind : Nat} {q : PortPkt} (hq : s.landing[i]? = some q) (hkind : q.pkt.hd.kind = kind)
    (hfirst : ∀ x ∈ s.landing.take i, x.port = q.port → x.pkt.hd.ch ≠ q.pkt.hd.ch) :
    s.takeLanding i kind = some (q, { s with landing := s.landing.eraseIdx i }) := by
  unfold State.takeLanding
  rw [hq]
  dsimp only
  rw [if_neg, eraseIdx_eq]
  rintro (h | h)
  · exact h hkind
  · obtain ⟨x, hx, heq⟩ := List.any_eq_true.mp h
    rw [Bool.and_eq_true, beq_iff_eq, beq_iff_eq] at heq
    exact hfirst x hx heq.1 heq.2

theorem accept_acts {s : State} {h : Hd} (hmember : s.admitted h.ctx h.src = true)
    (hcurrent : h.group = 0 ∨ s.grpFor h.group h.ctx = false ∨ (h.seq + 65536 - (s.grp h.group).seq) % 65536 = 0) : s.accept h = .act s := by
  unfold State.accept
  dsimp only
  rw [hmember, if_neg (by decide)]
  by_cases hout : h.group = 0 ∨ (!s.grpFor h.group h.ctx) = true
  · exact if_pos hout
  · rw [if_neg hout, if_pos]
    rcases hcurrent with hg | hg | hd
    · exact absurd (.inl hg) hout
    · exact absurd (.inr (by rw [hg]; rfl)) hout
    · exact hd

/-- A packet that lands is acted on; where memory is not in service yet, it stays. -/
theorem landing_acts {s m : State} {i kind : Nat} {q : PortPkt} {act : State → PortPkt → Option State} (hl : Lands s i kind q m) :
    landing i kind act s = match act m q with
      | some t => .next t
      | none => .next (fresh s) := by
  obtain ⟨hq, hkind, hfirst, htaken, hmember, hcurrent⟩ := hl
  have htake : (fresh s).takeLanding i kind = some (q, { fresh s with landing := s.landing.eraseIdx i }) := takeLanding_first hq hkind hfirst
  unfold landing
  rw [show ({ s with free := s.free + 1 } : State) = fresh s from rfl]
  dsimp only
  rw [htake]
  dsimp only
  rw [← htaken, accept_acts hmember hcurrent] <;> rfl

/-! ## Answers (R284) -/

theorem own_lt (s : State) : s.own < 256 := by
  unfold State.own
  rw [bitsOf_eq]
  exact Nat.mod_lt _ (by decide)

/-- The rest of a header once its first entry is popped. -/
def popped (h : Hd) (es : List Nat) : Hd := { h with ents := es, nent := h.nent - 1 }

section Steps

variable {s : State} {p : Packet} {e : Nat} {es : List Nat}

theorem routeStep_delivers (port : Nat) (hents : p.hd.ents = e :: es) (hnent : p.hd.nent ≠ 7) (hndata : p.hd.ndata ≤ 8) (hkind : p.hd.kind ≠ 15) (he : e / 8192 = 2)
    (hdst : p.hd.dst = s.own) :
    s.routeStep port p = .landed { s with landing := s.landing ++ [{ port := port, pkt := p.withHd (popped p.hd es), around := none }] } := by
  unfold State.routeStep
  dsimp only
  rw [hents]
  dsimp only
  rw [if_neg (by omega), he]
  exact if_neg (not_not.mpr hdst)

theorem routeStep_hops (port : Nat) (hents : p.hd.ents = e :: es) (hnent : p.hd.nent ≠ 7) (hndata : p.hd.ndata ≤ 8) (hkind : p.hd.kind ≠ 15) (he : e / 8192 ≤ 1) :
    s.routeStep port p = s.hopTo (popped p.hd es) p
      (if e / 8192 = 0 then s.own / 16 * 16 + bitsOf e 11 8 else bitsOf e 11 8 * 16 + s.own % 16) (bitOf e 12) := by
  unfold State.routeStep
  dsimp only
  rw [hents]
  dsimp only
  rw [if_neg (by omega)]
  obtain h0 | h1 : e / 8192 = 0 ∨ e / 8192 = 1 := by omega
  · rw [h0] <;> rfl
  · rw [h1] <;> rfl

theorem routeStep_malformed (port : Nat) (hents : p.hd.ents = e :: es) (hbad : p.hd.nent = 7 ∨ 8 < p.hd.ndata ∨ p.hd.kind = 15) : s.routeStep port p = .drop := by
  unfold State.routeStep
  dsimp only
  rw [hents]
  exact if_pos hbad

theorem routeStep_drops (port : Nat) (hents : p.hd.ents = e :: es)
    (hbad : p.hd.nent = 7 ∨ 8 < p.hd.ndata ∨ p.hd.kind = 15 ∨ (e / 8192 ≤ 1 ∧ p.hd.hops = 3) ∨ (e / 8192 = 2 ∧ p.hd.dst ≠ s.own) ∨ 5 ≤ e / 8192) :
    s.routeStep port p = .drop := by
  by_cases hmal : p.hd.nent = 7 ∨ 8 < p.hd.ndata ∨ p.hd.kind = 15
  · exact routeStep_malformed port hents hmal
  · have hn : p.hd.nent ≠ 7 := fun h => hmal (.inl h)
    have hd : p.hd.ndata ≤ 8 := not_lt.mp (fun h => hmal (.inr (.inl h)))
    have hk : p.hd.kind ≠ 15 := fun h => hmal (.inr (.inr h))
    rcases hbad with h | h | h | ⟨h, h3⟩ | ⟨h, hdst⟩ | h
    · exact absurd h hn
    · exact absurd hd (by omega)
    · exact absurd h hk
    · rw [routeStep_hops port hents hn hd hk h]
      exact if_pos h3
    · unfold State.routeStep
      dsimp only
      rw [hents]
      dsimp only
      rw [if_neg hmal, h]
      exact if_pos hdst
    · obtain ⟨k, hk'⟩ : ∃ k, e / 8192 = k + 5 := ⟨_, (Nat.sub_add_cancel h).symm⟩
      unfold State.routeStep
      dsimp only
      rw [hents]
      dsimp only
      rw [if_neg hmal, hk']
      rfl

end Steps

/-- The packet of an answer, as the source router delivers it. -/
theorem enter_own {s : State} {h : Hd} {p : Packet} (hf : Fits { h with nent := 1, ents := [entDlv], ndata := (p.data.length + 31) / 32 }) (hdst : h.dst = s.own)
    (hlen : p.data.length ≤ 256) (hkind : h.kind ≠ 15) : s.enter h p entDlv = .landed { s with landing := s.landing ++ [{
      port := 32, pkt := p.withHd { h with nent := 0, ents := [], ndata := (p.data.length + 31) / 32 }, around := none }] } := by
  have hhd : (p.withHd { h with nent := 1, ents := [entDlv], ndata := (p.data.length + 31) / 32 }).hd =
      { h with nent := 1, ents := [entDlv], ndata := (p.data.length + 31) / 32 } := headerWords p _ hf
  have hroute : s.routeTo h.dst entDlv h.ch = [entDlv] := if_pos hdst
  have henter : s.enter h p entDlv = s.routeStep 32 (p.withHd { h with nent := 1, ents := [entDlv], ndata := (p.data.length + 31) / 32 }) := by
    unfold State.enter
    rw [hroute]
    rfl
  rw [henter, routeStep_delivers (e := entDlv) (es := []) 32 (by rw [hhd]) (by rw [hhd]; exact (by decide : 1 ≠ 7))
    (by rw [hhd]; exact (by omega : (p.data.length + 31) / 32 ≤ 8)) (by rw [hhd]; exact hkind) rfl (by rw [hhd]; exact hdst), hhd]
  rfl

theorem answerLands : AnswerLands := by
  intro s h st data bad hf hsrc hst hlen
  have hown := own_lt s
  have hack : ackKind h.kind = 5 ∨ ackKind h.kind = 7 ∨ ackKind h.kind = 2 := by
    unfold ackKind
    split
    · exact .inl rfl
    · split
      · exact .inr (.inl rfl)
      · exact .inr (.inr rfl)
  have hchan : chanOf (ackKind h.kind) < 4 := by
    rcases hack with hk | hk | hk <;> rw [hk] <;> decide
  obtain ⟨hdst, hsrc', hkind, hhops, hch, hndata, hstat, hseq, hgroup, hctx, htag, hoff, hrop, haop, hctr, hrhnd, hnent, hlen', hents⟩ := hf
  have hkind' : ackKind h.kind < 15 := by omega
  have hn : (data.length + 31) / 32 < 16 := by omega
  have hone : [entDlv].length ≤ 6 ∧ ∀ e ∈ [entDlv], e < 65536 := by decide
  have hfits : Fits { answerHd s h st with nent := 1, ents := [entDlv], ndata := ((answerPkt s h st data bad).data.length + 31) / 32 } :=
    ⟨hsrc', hown, Nat.lt_succ_of_lt hkind', Nat.zero_lt_succ _, hchan, hn, hst, hseq, hgroup, hctx, htag, hoff, Nat.zero_lt_succ _, Nat.zero_lt_succ _,
      Nat.zero_lt_succ _, Nat.zero_lt_succ _, rfl, hone⟩
  have hlanded : Fits { answerHd s h st with nent := 0, ents := [], ndata := ((answerPkt s h st data bad).data.length + 31) / 32 } :=
    ⟨hsrc', hown, Nat.lt_succ_of_lt hkind', Nat.zero_lt_succ _, hchan, hn, hst, hseq, hgroup, hctx, htag, hoff, Nat.zero_lt_succ _, Nat.zero_lt_succ _,
      Nat.zero_lt_succ _, Nat.zero_lt_succ _, rfl, Nat.zero_le 6, fun _ he => absurd he List.not_mem_nil⟩
  have henter := enter_own (s := s) hfits hsrc hlen (Nat.ne_of_lt hkind')
  have hsend := (sendVia_sends s (answerHd s h st) (answerPkt s h st data bad) entDlv).landed _ henter
  have hhd := headerWords (answerPkt s h st data bad) _ hlanded
  rw [answer_eq, State.sendPkt, hsend]
  refine ⟨_, rfl, rfl, rfl, rfl, ?_⟩
  dsimp only
  rw [hhd]
  exact ⟨rfl, rfl, rfl, rfl, rfl, rfl, hsrc⟩

/-! ## Forwarding (R278, R281, R284, R286) -/

/-- The fields of a packet's header fit their places, and as many entries follow as NENT says, unless it is 7. -/
theorem fits_of_hd {p : Packet} (hnent : p.hd.nent ≠ 7) : Fits p.hd := by
  have hbits (x hi lo : Nat) (h : lo ≤ hi) : bitsOf x hi lo < 2 ^ (hi + 1 - lo) := Nat.mod_lt _ (Nat.two_pow_pos _)
  have hseven : p.hd.nent < 8 := hbits _ 10 8 (by decide)
  have hword (i : Nat) : (p.hdr.getD i 0#32).toNat < 2 ^ 32 := BitVec.isLt _
  have hents : p.hd.ents = ((List.range 3).flatMap (fun i => [(p.hdr.getD (5 + i) 0#32).toNat % 65536, (p.hdr.getD (5 + i) 0#32).toNat / 65536])).take p.hd.nent := rfl
  have hsix : ((List.range 3).flatMap (fun i => [(p.hdr.getD (5 + i) 0#32).toNat % 65536, (p.hdr.getD (5 + i) 0#32).toNat / 65536])).length = 6 := rfl
  have hlen : p.hd.ents.length = p.hd.nent := by
    rw [hents, List.length_take, hsix]
    omega
  refine ⟨hbits _ 31 24 (by decide), hbits _ 23 16 (by decide), hbits _ 15 12 (by decide), hbits _ 7 6 (by decide), hbits _ 5 4 (by decide), hbits _ 3 0 (by decide),
    hbits _ 27 24 (by decide), hbits _ 23 8 (by decide), hbits _ 7 0 (by decide), hbits _ 31 16 (by decide), hbits _ 15 0 (by decide), hword 3, hbits _ 25 22 (by decide),
    hbits _ 21 18 (by decide), hbits _ 17 12 (by decide), hbits _ 10 0 (by decide), hlen.symm, by omega, fun x hx => ?_⟩
  rw [hents] at hx
  obtain ⟨i, -, hi⟩ := List.mem_flatMap.mp (List.mem_of_mem_take hx)
  have := hword (5 + i)
  rcases List.mem_cons.mp hi with rfl | hi
  · exact Nat.mod_lt _ (by decide)
  · rw [List.mem_singleton] at hi
    omega

theorem fits_popped {p : Packet} {e : Nat} {es : List Nat} (hents : p.hd.ents = e :: es) (hnent : p.hd.nent ≠ 7) (hhops : p.hd.hops < 3) :
    Fits { popped p.hd es with hops := p.hd.hops + 1 } := by
  obtain ⟨hdst, hsrc, hkind, -, hch, hndata, hstat, hseq, hgroup, hctx, htag, hoff, hrop, haop, hctr, hrhnd, hn, hlen, hes⟩ := fits_of_hd hnent
  rw [hents, List.length_cons] at hn hlen
  rw [hents] at hes
  exact ⟨hdst, hsrc, hkind, by show p.hd.hops + 1 < 4; omega, hch, hndata, hstat, hseq, hgroup, hctx, htag, hoff, hrop, haop, hctr, hrhnd, by show p.hd.nent - 1 = es.length; omega,
    by show es.length ≤ 6; omega, fun x hx => hes x (List.mem_cons_of_mem _ hx)⟩

theorem route_landed {m t : State} {port : Nat} {p : Packet} (h : m.routeStep port p = .landed t) : m.route port p = t := by
  unfold State.route
  rw [h]

theorem route_dropped {m : State} {port : Nat} {p : Packet} (h : m.routeStep port p = .drop) :
    m.route port p = if p.hd.ch = 0 then (m.countDrop port).answer p.hd 12 [] [] else m.countDrop port := by
  unfold State.route
  rw [h]

section Forward

variable {s : State} {i : Nat} {q : PortPkt} {e : Nat} {es : List Nat}

/-- The state without packet `i` of those received. -/
def unqueued (s : State) (i : Nat) : State := { fresh s with inq := s.inq.eraseIdx i }

theorem packetForward_waits (hq : s.inq[i]? = some q)
    (hearlier : ∃ x ∈ s.inq.take i, x.port = q.port ∧ x.pkt.hd.ch = q.pkt.hd.ch ∧ x.pkt.hd.hops = q.pkt.hd.hops) : exec (.packetForward i) s = .next (fresh s) := by
  rw [exec_packetForward]
  unfold execPacketForward
  rw [show ({ s with free := s.free + 1 } : State) = fresh s from rfl]
  dsimp only
  rw [show (fresh s).inq = s.inq from rfl, hq]
  refine if_pos ?_
  obtain ⟨x, hx, hport, hch, hhops⟩ := hearlier
  refine List.any_eq_true.mpr ⟨x, hx, ?_⟩
  rw [hport, hch, hhops, beq_self_eq_true, beq_self_eq_true, beq_self_eq_true]
  rfl

theorem packetForward_first (hq : s.inq[i]? = some q)
    (hfirst : ∀ x ∈ s.inq.take i, ¬(x.port = q.port ∧ x.pkt.hd.ch = q.pkt.hd.ch ∧ x.pkt.hd.hops = q.pkt.hd.hops)) : exec (.packetForward i) s =
      .next (match (unqueued s i).routeStep q.port q.pkt with
        | .sent t => (t.crossing q.port).getD (fresh s)
        | _ => (unqueued s i).route q.port q.pkt) := by
  rw [exec_packetForward]
  unfold execPacketForward
  rw [show ({ s with free := s.free + 1 } : State) = fresh s from rfl]
  dsimp only
  rw [show (fresh s).inq = s.inq from rfl, hq]
  dsimp only
  rw [if_neg, eraseIdx_eq]
  · rfl
  · intro h
    obtain ⟨x, hx, heq⟩ := List.any_eq_true.mp h
    rw [Bool.and_eq_true, Bool.and_eq_true, beq_iff_eq, beq_iff_eq, beq_iff_eq] at heq
    exact hfirst x hx ⟨heq.1.1, heq.1.2, heq.2⟩

/-- A packet put last into the queue of its port crosses a bridge, or not. -/
theorem crossing_last {t : State} {l : List PortPkt} {x : PortPkt} (hout : t.outq = l ++ [x]) (hbuf : x.buf = none) (p : Nat) :
    t.crossing p =
      let put := fun k => { t with outq := l ++ [{ x with buf := some k }] }
      if p / 8 = x.port / 8 then some (put p)
      else if 16 < ({ t with outq := l }).bridged (p / 8) (x.port / 8) x.pkt.hd.ch x.pkt.hd.hops + 1 + x.pkt.hd.ndata then none
      else some (put (32 + p / 8)) := by
  have hbridged : t.bridged (p / 8) (x.port / 8) x.pkt.hd.ch x.pkt.hd.hops = ({ t with outq := l }).bridged (p / 8) (x.port / 8) x.pkt.hd.ch x.pkt.hd.hops := by
    unfold State.bridged
    rw [hout, List.filter_append, List.filter_cons_of_neg, List.filter_nil, List.append_nil]
    rw [hbuf]
    simp
  unfold State.crossing
  rw [hout, List.getLast?_concat, List.dropLast_concat]
  dsimp only
  rw [hbridged]

/-- The packet as it leaves for the next router, and the state with it queued. -/
def onward (q : PortPkt) (e : Nat) (es : List Nat) (out : Nat) : PortPkt :=
  { port := out, pkt := q.pkt.withHd { popped q.pkt.hd es with hops := q.pkt.hd.hops + 1 }, around := if bitOf e 12 then some 99 else none }

theorem hopTo_sends {m : State} {h : Hd} {p : Packet} {t : Nat} {det : Bool} (hhops : h.hops < 3) (hup : (m.port (m.portTo t)).st = 2)
    (hkey : (m.port (m.portTo t)).txst ≠ 3) : m.hopTo h p t det =
      .sent { m with outq := m.outq ++ [{ port := m.portTo t, pkt := p.withHd { h with hops := h.hops + 1 }, around := if det then some 99 else none }] } :=
  (if_neg (Nat.ne_of_lt hhops)).trans (if_pos ⟨hup, fun h => hkey h.1⟩)

theorem packetForward_hops (hq : s.inq[i]? = some q) (hents : q.pkt.hd.ents = e :: es)
    (hfirst : ∀ x ∈ s.inq.take i, ¬(x.port = q.port ∧ x.pkt.hd.ch = q.pkt.hd.ch ∧ x.pkt.hd.hops = q.pkt.hd.hops))
    (hnent : q.pkt.hd.nent ≠ 7) (hndata : q.pkt.hd.ndata ≤ 8) (hkind : q.pkt.hd.kind ≠ 15) (he : e / 8192 ≤ 1) (hhops : q.pkt.hd.hops < 3) :
    let h := q.pkt.hd
    let m := unqueued s i
    let out := s.portTo (if e / 8192 = 0 then s.own / 16 * 16 + bitsOf e 11 8 else bitsOf e 11 8 * 16 + s.own % 16)
    let go := fun k : Nat => { m with outq := s.outq ++ [{ onward q e es out with buf := some k }] }
    (s.port out).st = 2 → (s.port out).txst ≠ 3 → exec (.packetForward i) s = .next (
      if q.port / 8 = out / 8 then go q.port
      else if 16 < s.bridged (q.port / 8) (out / 8) h.ch (h.hops + 1) + 1 + h.ndata then fresh s
      else go (32 + q.port / 8)) := by
  intro h m out go hup hkey
  have hstep : m.routeStep q.port q.pkt = .sent { m with outq := s.outq ++ [onward q e es out] } :=
    (routeStep_hops q.port hents hnent hndata hkind he).trans (hopTo_sends hhops hup hkey)
  have hhd : (onward q e es out).pkt.hd = { popped q.pkt.hd es with hops := q.pkt.hd.hops + 1 } := headerWords q.pkt _ (fits_popped hents hnent hhops)
  have hcross := crossing_last (t := { m with outq := s.outq ++ [onward q e es out] }) (l := s.outq) (x := onward q e es out) rfl rfl q.port
  rw [hhd] at hcross
  rw [packetForward_first hq hfirst, hstep]
  refine congrArg Host.Outcome.next ?_
  dsimp only
  rw [hcross]
  show Option.getD (if q.port / 8 = out / 8 then some (go q.port)
    else if 16 < s.bridged (q.port / 8) (out / 8) h.ch (h.hops + 1) + 1 + h.ndata then none else some (go (32 + q.port / 8))) (fresh s) = _
  split
  · rfl
  · split <;> rfl

theorem packetForward_lands (hq : s.inq[i]? = some q) (hents : q.pkt.hd.ents = e :: es)
    (hfirst : ∀ x ∈ s.inq.take i, ¬(x.port = q.port ∧ x.pkt.hd.ch = q.pkt.hd.ch ∧ x.pkt.hd.hops = q.pkt.hd.hops))
    (hnent : q.pkt.hd.nent ≠ 7) (hndata : q.pkt.hd.ndata ≤ 8) (hkind : q.pkt.hd.kind ≠ 15) (he : e / 8192 = 2) (hdst : q.pkt.hd.dst = s.own) :
    exec (.packetForward i) s =
      .next { unqueued s i with landing := s.landing ++ [{ port := q.port, pkt := q.pkt.withHd (popped q.pkt.hd es), around := none }] } := by
  have hstep := routeStep_delivers (s := unqueued s i) q.port hents hnent hndata hkind he hdst
  rw [packetForward_first hq hfirst, hstep]
  exact congrArg Host.Outcome.next (route_landed hstep)

theorem packetForward_drops (hq : s.inq[i]? = some q) (hents : q.pkt.hd.ents = e :: es)
    (hfirst : ∀ x ∈ s.inq.take i, ¬(x.port = q.port ∧ x.pkt.hd.ch = q.pkt.hd.ch ∧ x.pkt.hd.hops = q.pkt.hd.hops))
    (hbad : q.pkt.hd.nent = 7 ∨ 8 < q.pkt.hd.ndata ∨ q.pkt.hd.kind = 15 ∨ (e / 8192 ≤ 1 ∧ q.pkt.hd.hops = 3) ∨ (e / 8192 = 2 ∧ q.pkt.hd.dst ≠ s.own) ∨ 5 ≤ e / 8192) :
    exec (.packetForward i) s = .next (if q.pkt.hd.ch = 0 then ((unqueued s i).countDrop q.port).answer q.pkt.hd 12 [] [] else (unqueued s i).countDrop q.port) := by
  have hstep := routeStep_drops (s := unqueued s i) q.port hents hbad
  rw [packetForward_first hq hfirst, hstep]
  exact congrArg Host.Outcome.next (route_dropped hstep)

theorem forwardEvent : ForwardEvent := by
  intro s i q e es hq hents h m on next
  refine ⟨packetForward_waits hq, fun hfirst => ⟨fun hnent hndata hkind => ⟨fun he hdst => ?_, fun he hhops hup hkey => ?_⟩, fun hbad => ?_⟩⟩
  · exact packetForward_lands hq hents hfirst hnent hndata hkind he hdst
  · have hgo := packetForward_hops hq hents hfirst hnent hndata hkind he hhops hup hkey
    intro out go
    refine ⟨fun hsame => hgo.trans ?_, fun hother hroom => hgo.trans ?_, fun hother hfull => hgo.trans ?_⟩
    · exact congrArg Host.Outcome.next (if_pos hsame)
    · exact congrArg Host.Outcome.next ((if_neg hother).trans (if_neg (Nat.not_lt.mpr hroom)))
    · exact congrArg Host.Outcome.next ((if_neg hother).trans (if_pos hfull))
  · exact packetForward_drops hq hents hfirst hbad

end Forward

end Sys2Proof.Proofs.RouterRows
end

