-- ==== Sys2Proof/Proofs/PacketRows.lean ====
section
/-!
PROOF. Proofs/PacketRows.lean: what each kind of packet does where it lands (08 R185, R186, R230; 13 R283 to R287; 14 R315, R326).
-/

namespace Sys2Proof.Proofs.PacketRows

open Sys2Proof Sys2Proof.Machine Sys2Proof.Claims Sys2Proof.Proofs.MemoryFrames Sys2Proof.Proofs.StoreRows Sys2Proof.Proofs.AtomicRows
  Sys2Proof.Proofs.BarrierRows Sys2Proof.Proofs.LaunchRows Sys2Proof.Proofs.OperationEnds Sys2Proof.Proofs.RouterRows

/-! ## What a landing finds -/

theorem lands_next {s m t : State} {i kind : Nat} {q : PortPkt} {act : State → PortPkt → Option State} (hl : Lands s i kind q m) (h : act m q = some t) :
    landing i kind act s = .next t := by
  rw [landing_acts hl, h]

/-- A walk's root is noted, and one packet is gone; the rest is as it was. -/
theorem lands_frame {s m : State} {i kind : Nat} {q : PortPkt} (hl : Lands s i kind q m) :
    m = { fresh s with landing := s.landing.eraseIdx i, asids := m.asids } := by
  rw [hl.taken]
  unfold State.useContext State.useDomain
  dsimp only
  split
  · split <;> rfl
  · rfl

/-- The entry that a packet's remote handle names, and the block that it reaches. -/
def target (m : State) (q : PortPkt) : HandleEntry := m.remoteEntry q.pkt.hd.ctx q.pkt.ht q.pkt.hd.rhnd

/-- The block that a packet reaches, when its handle is one of block memory. -/
def targetBlock (m : State) (q : PortPkt) : Option Block := if (target m q).space = 2 then m.landBlock q.pkt.hd.ctx q.pkt.blockId else none

/-- The die of the landing agent. -/
def targetDie (m : State) (q : PortPkt) : Nat := match targetBlock m q with
  | some b => dieOfCore b.core
  | none => landDie q.port

theorem targetDie_eq (m : State) (q : PortPkt) : targetDie m q = ((targetBlock m q).map (fun k => dieOfCore k.core)).getD (landDie q.port) := by
  unfold targetDie
  cases targetBlock m q <;> rfl

theorem targetDie_none {m : State} {q : PortPkt} (he : (target m q).space ≠ 2) : targetDie m q = landDie q.port := by
  have hb : targetBlock m q = none := if_neg he
  unfold targetDie
  rw [hb]

/-! ## Bytes at block memory -/

section Blocks

variable {b : Block} {e : HandleEntry} {die ctx : Nat}

/-- Bytes appended to a write are written behind it. -/
theorem write_append (m : Memory) (a : Nat) (xs ys : List Byte) : m.write a (xs ++ ys) = (m.write a xs).write (a + xs.length) ys := by
  induction xs generalizing m a with
  | nil => rfl
  | cons x xs ih =>
    rw [List.cons_append, Memory.write, ih, Memory.write, List.length_cons, Nat.add_right_comm, Nat.add_assoc]

/-- State `t` is state `s` with bytes written at a place of block memory. -/
def BlockPut (s t : State) (key : Nat) (bs : List Byte) : Prop := t = { s with bmem := s.bmem.write key bs, past := t.past }

theorem BlockPut.append {s t u : State} {key : Nat} {xs ys : List Byte} (h : BlockPut s t key xs) (h' : BlockPut t u (key + xs.length) ys) :
    BlockPut s u key (xs ++ ys) := by
  unfold BlockPut at h h' ⊢
  rw [h', h, write_append]

theorem landPiece_blk (s : State) (core off : Nat) (bs : List (Byte × Bool)) :
    BlockPut s (s.enginePut die (.blk core off) bs) (coreKey core off) (bs.map (fun x => x.1)) := rfl

theorem remotePlace_blk (s : State) (he : e.space = 2) (off : Nat) (r w : Bool) : s.remotePlace ctx (some b) e off r w = .ok (.blk b.core (b.bmOff + off)) := if_pos he

/-- A write to the memory of a block, page by page. -/
theorem landWrite_block (he : e.space = 2) (hbase : e.base = 0) (k : Nat) : ∀ (s : State) (off : Nat) (bs : List (Byte × Bool)),
    bs.length = 0 ∨ off % 65536 + bs.length ≤ 65536 * k → ∃ t, State.landWrite die ctx (some b) e k s off bs = .ok t ∧ BlockPut s t (coreKey b.core (b.bmOff + off)) (bs.map (fun x => x.1)) := by
  induction k with
  | zero =>
    intro s off bs h
    have hbs : bs = [] := List.eq_nil_of_length_eq_zero (by omega)
    subst hbs
    exact ⟨s, rfl, rfl⟩
  | succ k ih =>
    intro s off bs h
    unfold State.landWrite
    by_cases hbs : bs.isEmpty = true
    · rw [if_pos hbs]
      rw [List.isEmpty_iff] at hbs
      subst hbs
      exact ⟨s, rfl, rfl⟩
    · rw [if_neg hbs]
      have hnote : s.noteLand ctx e off = s := if_pos he
      have hspace : ¬ (e.space = 4 ∧ s.pick [22, ctx, off] 2 = 1) := by
        rw [he]
        exact fun h => absurd h.1 (by decide)
      dsimp only
      rw [hbase, Nat.zero_add, remotePlace_blk s he, hnote]
      dsimp only [State.locReady]
      rw [if_neg hspace]
      generalize hm : min bs.length (65536 - off % 65536) = m
      obtain ⟨t, ht, hput⟩ := ih (s.enginePut die (.blk b.core (b.bmOff + off)) (bs.take m)) (off + m) (bs.drop m) (by
        rw [List.length_drop]
        have := Nat.mod_lt off (by decide : 65536 > 0)
        have hpos : bs.length ≠ 0 := fun h0 => hbs (List.isEmpty_iff.mpr (List.eq_nil_of_length_eq_zero h0))
        by_cases hfit : bs.length ≤ 65536 - off % 65536
        · left
          omega
        · right
          have hm' : m = 65536 - off % 65536 := by omega
          have hzero : (off + m) % 65536 = 0 := by omega
          omega)
      refine ⟨t, ht, ?_⟩
      have hlen : ((bs.take m).map (fun x => x.1)).length = m := by
        rw [List.length_map, List.length_take]
        omega
      have happ : bs.map (fun x => x.1) = (bs.take m).map (fun x => x.1) ++ (bs.drop m).map (fun x => x.1) := by
        rw [← List.map_append, List.take_append_drop]
      have hkey : coreKey b.core (b.bmOff + (off + m)) = coreKey b.core (b.bmOff + off) + ((bs.take m).map (fun x => x.1)).length := by
        rw [hlen]
        unfold coreKey
        omega
      rw [happ]
      refine BlockPut.append (landPiece_blk (die := die) s b.core (b.bmOff + off) (bs.take m)) ?_
      rw [← hkey]
      exact hput

/-- Whole sectors of a transfer are written as they come. -/
theorem sectorPieces_whole (key : List Nat) {lo hi off : Nat} (fs : List Frag) {bs : List (Byte × Bool)} (hoff : off % 32 = 0) (hlen : bs.length % 32 = 0) :
    sectorPieces key 0 lo hi off fs bs = (fs, if bs.isEmpty then [] else [(off, bs)]) := by
  have h0 : (if off = lo then 0 else min bs.length ((32 - (0 + off) % 32) % 32)) = 0 := by
    split <;> omega
  have h1 : (if off + bs.length = hi then 0 else min (bs.length - 0) ((0 + off + bs.length) % 32)) = 0 := by
    split <;> omega
  unfold sectorPieces
  dsimp only
  rw [h0, h1]
  simp only [if_pos, List.drop_zero, Nat.sub_zero, List.take_length, List.nil_append, List.append_nil, Nat.add_zero]
  cases bs <;> rfl

theorem bytes_fst (p : Packet) : p.bytes.map (fun x => x.1) = p.data := by
  unfold Packet.bytes
  rw [List.map_map]
  exact map_getD_range p.data 0#8

theorem bytes_length (p : Packet) : p.bytes.length = p.data.length := by
  rw [Packet.bytes, List.length_map, List.length_range]

theorem landPieces_block (he : e.space = 2) (hbase : e.base = 0) (s : State) (off : Nat) (bs : List (Byte × Bool)) (hlen : bs.length ≤ 65536) :
    ∃ t, State.landPieces die ctx (some b) e (if bs.isEmpty then [] else [(off, bs)]) s = .ok t ∧
      BlockPut s t (coreKey b.core (b.bmOff + off)) (bs.map (fun x => x.1)) := by
  by_cases hbs : bs.isEmpty = true
  · rw [if_pos hbs]
    rw [List.isEmpty_iff] at hbs
    subst hbs
    exact ⟨s, rfl, rfl⟩
  · rw [if_neg hbs]
    obtain ⟨t, ht, hput⟩ := landWrite_block (b := b) (e := e) (die := die) (ctx := ctx) he hbase 3 s off bs (.inr (by have := Nat.mod_lt off (by decide : 65536 > 0); omega))
    refine ⟨t, ?_, hput⟩
    unfold State.landPieces
    dsimp only
    rw [ht] <;> rfl

end Blocks

/-! ## WRITE (R185, R230, R244) -/

section Write

variable {s m : State} {i : Nat} {q : PortPkt}

/-- The status with which the checks of a WRITE end. -/
def writeStat (m : State) (q : PortPkt) : Nat :=
  if (q.pkt.hd.group ≠ 0 && !m.grpFor q.pkt.hd.group q.pkt.hd.ctx) || (q.pkt.harvest && (target m q).space == 2) then 1
  else m.remoteCheck q.pkt.hd.ctx (targetBlock m q) (target m q) true q.pkt.hd.arr q.pkt.spanOff q.pkt.span

/-- The parts of sectors that stay, and the pieces that a WRITE writes. -/
def writePieces (m : State) (q : PortPkt) : List Frag × List (Nat × List (Byte × Bool)) :=
  sectorPieces [q.pkt.hd.src, q.pkt.hd.tag] (target m q).base q.pkt.spanOff (q.pkt.spanOff + q.pkt.span) q.pkt.hd.off
    (if q.pkt.hd.off = q.pkt.spanOff then (if q.pkt.hd.relh then m.release else m).frags.filter (fun g => g.key ≠ [q.pkt.hd.src, q.pkt.hd.tag])
     else (if q.pkt.hd.relh then m.release else m).frags) q.pkt.bytes

theorem write_refused (hl : Lands s i 0 q m) (h : writeStat m q ≠ 0) : exec (.write i) s = .next (m.answer q.pkt.hd (writeStat m q) [] []) :=
  lands_next hl (if_pos h)

theorem write_stores {t : State} (hl : Lands s i 0 q m) (h : writeStat m q = 0)
    (hland : State.landPieces (targetDie m q) q.pkt.hd.ctx (targetBlock m q) (target m q) (writePieces m q).2
      { (if q.pkt.hd.relh then m.release else m) with frags := (writePieces m q).1 } = .ok t) :
    exec (.write i) s = .next (State.answer (match targetBlock m q with
      | some b => if q.pkt.hd.arr then t.addArr b.id q.pkt.hd.ctr q.pkt.data.length else t
      | none => t) q.pkt.hd 0 [] []) := by
  refine lands_next hl ((if_neg (not_not.mpr h)).trans ?_)
  dsimp only
  split
  · next heq => exact nomatch heq.symm.trans hland
  · next heq => exact nomatch heq.symm.trans hland
  · next v heq =>
    have hv : v = t := Landed.ok.inj (heq.symm.trans hland)
    subst hv
    rfl

theorem writeStat_refused (h : (q.pkt.hd.group ≠ 0 ∧ m.grpFor q.pkt.hd.group q.pkt.hd.ctx = false) ∨ (q.pkt.harvest = true ∧ (target m q).space = 2)) :
    writeStat m q = 1 := by
  refine if_pos ?_
  rw [Bool.or_eq_true, Bool.and_eq_true, Bool.and_eq_true, decide_eq_true_iff, Bool.not_eq_true', beq_iff_eq]
  exact h

theorem writeStat_checked (hgroup : q.pkt.hd.group = 0 ∨ m.grpFor q.pkt.hd.group q.pkt.hd.ctx = true) (hharv : q.pkt.harvest = false ∨ (target m q).space ≠ 2) :
    writeStat m q = m.remoteCheck q.pkt.hd.ctx (targetBlock m q) (target m q) true q.pkt.hd.arr q.pkt.spanOff q.pkt.span := by
  refine if_neg ?_
  rw [Bool.or_eq_true, Bool.and_eq_true, Bool.and_eq_true, decide_eq_true_iff, Bool.not_eq_true', beq_iff_eq]
  rintro (⟨hne, hfor⟩ | ⟨hh, hspace⟩)
  · rcases hgroup with hg | hg
    · exact hne hg
    · rw [hfor] at hg
      exact Bool.false_ne_true hg
  · rcases hharv with h | h
    · rw [h] at hh
      exact Bool.false_ne_true hh
    · exact h hspace

/-- The state in which a WRITE's bytes are stored: with RELH after a release (R287). -/
def released (m : State) (q : PortPkt) : State := if q.pkt.hd.relh then m.release else m

theorem released_mainStep (m : State) (q : PortPkt) : MainStep m (released m q) := by
  unfold released
  split
  · exact release_mainStep m
  · exact .refl m

theorem write_block {k : Block} (hl : Lands s i 0 q m) (hstat : writeStat m q = 0) (hspace : (target m q).space = 2) (hb : targetBlock m q = some k)
    (hwf : s.bmem.wf = true) (hbase : (target m q).base = 0) (hoff : q.pkt.hd.off % 32 = 0) (hlen : q.pkt.data.length % 32 = 0) (hsize : q.pkt.data.length ≤ 256) :
    Answers (exec (.write i) s) (fun t =>
      let at0 := coreKey k.core (k.bmOff + q.pkt.hd.off)
      t.bmem.read at0 q.pkt.data.length = q.pkt.data ∧ (∀ a, a < at0 ∨ at0 + q.pkt.data.length ≤ a → t.bmem.get a = s.bmem.get a) ∧
      t.mem = (released m q).mem ∧ t.blocks = if q.pkt.hd.arr then s.blocks.map (fun x => if x.id == k.id then { x with
        arr := x.arr.set q.pkt.hd.ctr (BitVec.ofNat 32 (min 0xFFFFFFFF ((x.arr.getD q.pkt.hd.ctr 0#32).toNat + q.pkt.data.length))) } else x) else s.blocks) := by
  have hpieces : (writePieces m q).2 = if q.pkt.bytes.isEmpty then [] else [(q.pkt.hd.off, q.pkt.bytes)] := by
    unfold writePieces
    rw [hbase, sectorPieces_whole _ _ hoff (by rw [bytes_length]; exact hlen)]
  obtain ⟨t, ht, hput⟩ := landPieces_block (b := k) (e := target m q) (die := targetDie m q) (ctx := q.pkt.hd.ctx) hspace hbase
    { released m q with frags := (writePieces m q).1 } q.pkt.hd.off q.pkt.bytes (by rw [bytes_length]; omega)
  rw [← hpieces, ← hb] at ht
  rw [bytes_fst] at hput
  obtain ⟨hmem0, hbmem0⟩ := released_mainStep m q
  have hbl0 := MemStep.blocks hmem0
  have hm := lands_frame hl
  have hmb : m.bmem = s.bmem := (congrArg State.bmem hm).trans rfl
  have hmblocks : m.blocks = s.blocks := (congrArg State.blocks hm).trans rfl
  have htb : t.bmem = s.bmem.write (coreKey k.core (k.bmOff + q.pkt.hd.off)) q.pkt.data := by
    refine (congrArg State.bmem hput).trans ?_
    show (released m q).bmem.write _ _ = _
    rw [hbmem0, hmb]
  have htm : t.mem = (released m q).mem := (congrArg State.mem hput).trans rfl
  have htbl : t.blocks = s.blocks := ((congrArg State.blocks hput).trans rfl).trans (hbl0.trans hmblocks)
  rw [write_stores hl hstat ht, hb]
  dsimp only
  generalize hv : (if q.pkt.hd.arr then t.addArr k.id q.pkt.hd.ctr q.pkt.data.length else t) = v
  have hvb : v.bmem = t.bmem := by
    rw [← hv]
    split <;> rfl
  have hvm : v.mem = t.mem := by
    rw [← hv]
    split <;> rfl
  have hvbl : v.blocks = if q.pkt.hd.arr then t.blocks.map (fun x => if x.id == k.id then { x with
      arr := x.arr.set q.pkt.hd.ctr (BitVec.ofNat 32 (min 0xFFFFFFFF ((x.arr.getD q.pkt.hd.ctr 0#32).toNat + q.pkt.data.length))) } else x) else t.blocks := by
    rw [← hv]
    split <;> rfl
  have hans := answer_fabStep v q.pkt.hd 0 [] []
  generalize v.answer q.pkt.hd 0 [] [] = w at hans
  have hwb : w.bmem = v.bmem := (congrArg State.bmem hans).trans rfl
  have hwm : w.mem = v.mem := (congrArg State.mem hans).trans rfl
  have hwbl : w.blocks = v.blocks := (congrArg State.blocks hans).trans rfl
  refine ⟨w, rfl, ?_, ?_, hwm.trans (hvm.trans htm), ?_⟩
  · rw [hwb, hvb, htb]
    exact read_write_same hwf _ _
  · intro a ha
    rw [hwb, hvb, htb]
    exact get_write_outside _ _ _ (fun j hj => by omega)
  · rw [hwbl, hvbl, htbl]

theorem writeEvent : WriteEvent := by
  intro s i q m hl p h e b ok m0
  have hchecked (hok : ok) : writeStat m q = 0 := (writeStat_checked hok.1 hok.2.1).trans hok.2.2
  refine ⟨fun hg hfor => ?_, fun hh hspace => ?_, fun hg hh hst => ?_, fun k hok hspace hb hwf hbase hoff hlen hsize => ?_, ?_⟩
  · have hs := writeStat_refused (.inl ⟨hg, hfor⟩)
    have hr := write_refused hl (by rw [hs]; decide)
    rwa [hs] at hr
  · have hs := writeStat_refused (m := m) (q := q) (.inr ⟨hh, hspace⟩)
    have hr := write_refused hl (by rw [hs]; decide)
    rwa [hs] at hr
  · have hs := writeStat_checked hg hh
    have hr := write_refused hl (by rw [hs]; exact hst)
    rwa [hs] at hr
  · exact write_block hl (hchecked hok) hspace hb hwf hbase hoff hlen hsize
  · intro w t hok hspace hland
    have hnone : targetBlock m q = none := if_neg hspace
    have hr := write_stores (t := t) hl (hchecked hok) (by rw [targetDie_none hspace, hnone]; exact hland)
    rw [hnone] at hr
    exact hr

end Write

/-! ## READREQ (R185) -/

section Read

variable {s m : State} {i : Nat} {q : PortPkt} {b : Block} {e : HandleEntry} {die ctx : Nat}

theorem read_append (m : Memory) (a j n : Nat) : m.read a (j + n) = m.read a j ++ m.read (a + j) n := by
  rw [read_eq_map, read_eq_map, read_eq_map, List.range_add, List.map_append, List.map_map]
  exact congrArg _ (List.map_congr_left fun i _ => by rw [Function.comp_apply, Nat.add_assoc])

/-- The bytes of a place of block memory, none of them poisoned. -/
def blockBytes (s : State) (key n : Nat) : List (Byte × Bool) := (s.bmem.read key n).map (fun x => (x, false))

theorem blockBytes_eq (s : State) (core off n : Nat) :
    (List.range n).map (fun i => (((s.load die (.blk core off) n).getD i 0#8, false) : Byte × Bool)) = blockBytes s (coreKey core off) n := by
  have hlen : (s.bmem.read (coreKey core off) n).length = n := read_length ..
  unfold blockBytes
  conv_rhs => rw [← map_getD_range (s.bmem.read (coreKey core off) n) 0#8, hlen, List.map_map]
  rfl

/-- A read of the memory of a block, page by page. -/
theorem landRead_block (s : State) (he : e.space = 2) (hbase : e.base = 0) (k : Nat) : ∀ off n : Nat, n = 0 ∨ off % 65536 + n ≤ 65536 * k →
    State.landRead s die ctx (some b) e k off n = .ok (blockBytes s (coreKey b.core (b.bmOff + off)) n) := by
  induction k with
  | zero =>
    intro off n h
    have hn : n = 0 := by omega
    subst hn
    rfl
  | succ k ih =>
    intro off n h
    unfold State.landRead
    by_cases hn : n = 0
    · subst hn
      rfl
    · rw [if_neg hn]
      dsimp only
      rw [hbase, Nat.zero_add, remotePlace_blk s he]
      dsimp only [State.locReady]
      generalize hm : min n (65536 - off % 65536) = j
      have hrest := ih (off + j) (n - j) (by
        have := Nat.mod_lt off (by decide : 65536 > 0)
        by_cases hfit : n ≤ 65536 - off % 65536
        · left
          omega
        · right
          have hj : j = 65536 - off % 65536 := by omega
          have hzero : (off + j) % 65536 = 0 := by omega
          omega)
      have hkey : coreKey b.core (b.bmOff + (off + j)) = coreKey b.core (b.bmOff + off) + j := by
        unfold coreKey
        omega
      have hfirst := blockBytes_eq (die := die) s b.core (b.bmOff + off) j
      rw [hrest]
      refine congrArg Eng.ok ?_
      dsimp only [State.beforeLoad]
      rw [hfirst, hkey]
      unfold blockBytes
      rw [← List.map_append, ← read_append, Nat.add_sub_cancel' (by omega : j ≤ n)]

/-- The status with which the checks of a READREQ end. -/
def readStat (m : State) (q : PortPkt) : Nat := m.remoteCheck q.pkt.hd.ctx (targetBlock m q) (target m q) false false q.pkt.spanOff q.pkt.span

theorem readreq_refused (hl : Lands s i 1 q m) (h : readStat m q ≠ 0) : exec (.readreq i) s = .next (m.answer q.pkt.hd (readStat m q) [] []) :=
  lands_next hl (if_pos h)

theorem readreq_reads {t : State} {bs : List (Byte × Bool)} (hl : Lands s i 1 q m) (h : readStat m q = 0)
    (hland : m.landPiece (targetDie m q) (targetBlock m q) (target m q) q.pkt.hd q.pkt = .ok (t, bs)) :
    exec (.readreq i) s = .next (t.answer q.pkt.hd 0 (bs.map (fun x => x.1)) (badFlits bs)) := by
  refine lands_next hl ((if_neg (not_not.mpr h)).trans ?_)
  split
  · next heq => exact nomatch heq.symm.trans hland
  · next heq => exact nomatch heq.symm.trans hland
  · next heq => exact nomatch heq.symm.trans hland
  · next v cs heq =>
    have hv : (v, cs) = (t, bs) := Eng.ok.inj (heq.symm.trans hland)
    cases hv
    rfl

theorem badFlits_clean (l : List Byte) : badFlits (l.map (fun x => (x, false))) = [] := by
  refine List.filter_eq_nil_iff.mpr (fun f _ h => ?_)
  obtain ⟨x, hx, hbad⟩ := List.any_eq_true.mp h
  obtain ⟨y, -, rfl⟩ := List.mem_map.mp (List.mem_of_mem_drop (List.mem_of_mem_take hx))
  exact Bool.false_ne_true hbad

/-- What is read ahead stays as it was when nothing of the transfer has been read ahead and the packet is whole sectors. -/
theorem landPiece_block {h : Hd} {p : Packet} (he : e.space = 2) (hbase : e.base = 0) (hoff : h.off % 32 = 0) (hlen : p.len % 32 = 0) (hsize : p.len ≤ 256)
    (hspan : h.off + p.len ≤ p.spanOff + p.span) (hahead : ∀ f ∈ m.ahead, f.key ≠ [h.src, h.tag]) :
    m.landPiece die (some b) e h p = .ok (m, blockBytes m (coreKey b.core (b.bmOff + h.off)) p.len) := by
  have hnone : m.readAhead [h.src, h.tag] h.off = [] := by
    have hfind : m.ahead.find? (fun f => f.key == [h.src, h.tag] && f.off == h.off) = none := by
      refine List.find?_eq_none.mpr (fun f hf hc => ?_)
      rw [Bool.and_eq_true, beq_iff_eq] at hc
      exact hahead f hf hc.1
    unfold State.readAhead
    rw [hfind]
    rfl
  have hend : readEnd 0 (p.spanOff + p.span) (h.off + p.len) - (h.off + 0) = p.len := by
    unfold readEnd
    omega
  have hread := landRead_block (b := b) (e := e) (die := die) (ctx := h.ctx) m he hbase 4 h.off p.len (by
    have := Nat.mod_lt h.off (by decide : 65536 > 0)
    omega)
  have hbytes : (blockBytes m (coreKey b.core (b.bmOff + h.off)) p.len).length = p.len := by
    rw [blockBytes, List.length_map, read_length]
  have hkeep : m.keepAhead [h.src, h.tag] (h.off + p.len) [] = m := by
    have hrest : m.ahead.filter (fun f => f.key ≠ [h.src, h.tag]) = m.ahead := List.filter_eq_self.mpr (fun f hf => decide_eq_true (hahead f hf))
    show { m with ahead := m.ahead.filter (fun f => f.key ≠ [h.src, h.tag]) } = m
    rw [hrest]
  have hnote : m.noteLand h.ctx e h.off = m := if_pos he
  unfold State.landPiece
  dsimp only
  rw [hnone, List.length_nil, hbase, hend, Nat.add_zero, hread]
  dsimp only
  rw [hnote, List.nil_append, List.drop_eq_nil_of_le (le_of_eq hbytes), List.take_of_length_le (le_of_eq hbytes), hkeep]

theorem readEvent : ReadEvent := by
  intro s i q m hl p h e b st
  refine ⟨fun hst => readreq_refused hl hst, fun k hst hspace hb hbase hoff hlen hsize hspan hahead => ?_, fun t bs hst hspace hland => ?_⟩
  · have hm := lands_frame hl
    have hma : m.ahead = s.ahead := (congrArg State.ahead hm).trans rfl
    have hmb : m.bmem = s.bmem := (congrArg State.bmem hm).trans rfl
    have hblk : targetBlock m q = some k := hb
    have hpiece := landPiece_block (m := m) (b := k) (e := target m q) (die := targetDie m q) (h := q.pkt.hd) (p := q.pkt) hspace hbase hoff hlen hsize hspan
      (by rw [hma]; exact hahead)
    rw [← hblk] at hpiece
    rw [readreq_reads hl hst hpiece]
    unfold blockBytes
    rw [badFlits_clean, List.map_map, hmb]
    exact congrArg (fun l => Host.Outcome.next (m.answer q.pkt.hd 0 l [])) (List.map_id _)
  · have hnone : targetBlock m q = none := if_neg hspace
    exact readreq_reads hl hst (by rw [targetDie_none hspace, hnone]; exact hland)

end Read

/-! ## ATOMIC (R186, R244) -/

section Atomic

variable {s m : State} {i : Nat} {q : PortPkt}

theorem rmwLane_eq_atomStep (op : Rmw) (size die : Nat) (l : Loc) (data : Nat) (s : State) : rmwLane op size s die l data = atomStep op size die l data s := by
  unfold rmwLane atomStep
  dsimp only
  generalize op _ data = r
  cases r <;> rfl

/-- Each operation of an fatom is that of its row. -/
theorem fatomOp_row : ∀ r ∈ fatomRows, fatomOp r.1 = r.2 := by
  simp only [fatomRows, List.forall_mem_cons]
  refine ⟨?_, ?_, ?_, ?_, ?_, ?_, ?_, fun _ h => absurd h List.not_mem_nil⟩
  · exact rmwWord_eq (fun m b => by rw [BitVec.toNat_add, BitVec.toNat_ofNat, BitVec.toNat_ofNat]; exact (Nat.add_mod m b (2 ^ 32)).symm)
  · rfl
  · exact rmwWord_eq (fun m b => toNat_ite _ _ (below32_iff m b) m b)
  · exact rmwWord_eq (fun m b => toNat_ite _ _ (below32_iff m b) b m)
  · exact rmwWord_eq (fun m b => by rw [BitVec.toNat_or, BitVec.toNat_ofNat, BitVec.toNat_ofNat])
  · exact rmwWord_eq (fun m b => by rw [BitVec.toNat_xor, BitVec.toNat_ofNat, BitVec.toNat_ofNat])
  · exact rmwWord_eq (g := fun _ b => b) (h := fun _ b => b % 2 ^ 32) (fun m b => BitVec.toNat_ofNat b 32)

/-- An ATOMIC may use its handle (R161, R268). -/
def atomicAllowed (m : State) (q : PortPkt) : Prop :=
  (target m q).valid = true ∧ (target m q).space ∈ atomSpaces ∧ (target m q).r = true ∧ (target m q).w = true ∧ (target m q).atom = true ∧
    (q.pkt.harvest = false ∨ (target m q).space ≠ 2)

/-- Bytes that the target of an ATOMIC holds. -/
def atomicBound (m : State) (q : PortPkt) : Nat := match targetBlock m q with
  | some b => b.bmLen
  | none => (target m q).limit

theorem atomicAllowed_iff (m : State) (q : PortPkt) : atomicAllowed m q ↔
    ¬ (!((target m q).valid && atomSpaces.contains (target m q).space && (target m q).r && (target m q).w && (target m q).atom) ||
      (q.pkt.harvest && (target m q).space == 2)) = true := by
  unfold atomicAllowed
  generalize target m q = e
  cases e.valid <;> cases e.r <;> cases e.w <;> cases e.atom <;> cases q.pkt.harvest <;> simp

theorem atomic_refused (hl : Lands s i 3 q m) (h : ¬ atomicAllowed m q) : exec (.atomic i) s = .next (m.answer q.pkt.hd 1 [] []) :=
  lands_next hl (if_pos (not_not.mp (fun hc => h ((atomicAllowed_iff m q).mpr hc))))

theorem atomic_absent (hl : Lands s i 3 q m) (h : atomicAllowed m q) (hspace : (target m q).space = 2) (hb : targetBlock m q = none) :
    exec (.atomic i) s = .next (m.answer q.pkt.hd 7 [] []) :=
  lands_next hl ((if_neg ((atomicAllowed_iff m q).mp h)).trans (if_pos ⟨hspace, congrArg Option.isNone hb⟩))

theorem atomic_found {m : State} {q : PortPkt} (h : (target m q).space = 2 → targetBlock m q ≠ none) : ¬ ((target m q).space = 2 ∧ (targetBlock m q).isNone = true) :=
  fun hc => h hc.1 (Option.isNone_iff_eq_none.mp hc.2)

theorem atomic_beyond (hl : Lands s i 3 q m) (h : atomicAllowed m q) (hfound : (target m q).space = 2 → targetBlock m q ≠ none)
    (hbound : atomicBound m q < q.pkt.hd.off + 4) : exec (.atomic i) s = .next (m.answer q.pkt.hd 2 [] []) :=
  lands_next hl ((if_neg ((atomicAllowed_iff m q).mp h)).trans ((if_neg (atomic_found hfound)).trans (if_pos hbound)))

theorem atomic_changes {l : Loc} (hl : Lands s i 3 q m) (h : atomicAllowed m q) (hfound : (target m q).space = 2 → targetBlock m q ≠ none)
    (hbound : q.pkt.hd.off + 4 ≤ atomicBound m q) (hplace : m.remotePlace q.pkt.hd.ctx (targetBlock m q) (target m q) q.pkt.hd.off true true = .ok l)
    (hready : m.locReady (targetDie m q) l = .yes) (hpoison : m.locPoison (targetDie m q) l.home 4 = false) :
    exec (.atomic i) s = .next ((rmwLane (fatomOp q.pkt.hd.aop) 4 ((if q.pkt.hd.relh then m.release else m).noteLand q.pkt.hd.ctx (target m q) q.pkt.hd.off)
      (targetDie m q) l (leNat (q.pkt.data.take 4))).1.answer q.pkt.hd 0 [] []) := by
  refine lands_next hl ((if_neg ((atomicAllowed_iff m q).mp h)).trans ((if_neg (atomic_found hfound)).trans ((if_neg (Nat.not_lt.mpr hbound)).trans ?_)))
  split
  · next heq => exact nomatch heq.symm.trans hplace
  · next v heq =>
    have hv : v = l := Except.ok.inj (heq.symm.trans hplace)
    subst hv
    split
    · next heq => exact nomatch heq.symm.trans hready
    · next heq => exact nomatch heq.symm.trans hready
    · exact if_neg (by rw [Bool.not_eq_true]; exact hpoison)

theorem atomicEvent : AtomicEvent := by
  intro s i q m hl p h e b die bound allowed
  have hbound : bound = atomicBound m q := by
    show ((targetBlock m q).map (fun k => k.bmLen)).getD (target m q).limit = _
    unfold atomicBound
    cases targetBlock m q <;> rfl
  have hdie : die = targetDie m q := (targetDie_eq m q).symm
  refine ⟨atomic_refused hl, atomic_absent hl, fun ha hf hlt => ?_, fun l r hr ha hf hle hop hplace hready hpoison => ?_⟩
  · exact atomic_beyond hl ha hf (by rw [← hbound]; exact hlt)
  · rw [hdie] at hready hpoison
    have hstep := atomic_changes hl ha hf (by rw [← hbound]; exact hle) hplace hready hpoison
    rw [rmwLane_eq_atomStep, show fatomOp q.pkt.hd.aop = r.2 from (congrArg fatomOp hop).trans (fatomOp_row r hr)] at hstep
    rw [hdie]
    exact hstep

end Atomic

/-! ## Responses (R185, R186, R315, R326) and markers (R287) -/

section Responses

/-- What is staged without a bad flit carries no probe and no status. -/
theorem staged_clean (x : Op) (src off pos : Nat) {bad : List Nat} (h : bad = []) (st : List (Nat × List Byte)) :
    ({ x.noteAnswer src off false with
      left := x.left
      stage := st
      probes := x.probes ++ bad.map (fun f => pos + 32 * f)
      stat := if x.stat = 0 && !bad.isEmpty then 4 else x.stat } : Op) = { x.noteAnswer src off false with
      left := x.left
      stage := st } := by
  subst h
  have hstat : (if x.stat = 0 && !List.isEmpty ([] : List Nat) then 4 else x.stat) = x.stat := if_neg (by simp)
  rw [hstat, List.map_nil, List.append_nil]
  rfl

theorem responseEvent : ResponseEvent := by
  intro s i q m hl p h
  have hten (h10 : q.pkt.len ≠ 10) (h11 : q.pkt.len ≠ 11) {x y z : Option State} : (if q.pkt.len = 10 then x else if q.pkt.len = 11 then y else z) = z :=
    (if_neg h10).trans (if_neg h11)
  refine ⟨fun h10 => lands_next hl (if_pos h10), fun h11 => lands_next hl ((if_neg (by rw [h11]; decide)).trans (if_pos h11)), fun h10 h11 hnone => ?_,
    fun o h10 h11 hop => ⟨fun hst => ?_, fun hst hget hbad => ?_, fun hst hget => ?_⟩⟩
  · refine lands_next hl ((hten h10 h11).trans ?_)
    rw [hnone]
  · refine lands_next hl ((hten h10 h11).trans ?_)
    rw [hop]
    exact if_pos hst
  · refine lands_next hl ((hten h10 h11).trans ?_)
    rw [hop]
    refine (if_neg (not_not.mpr hst)).trans ((if_pos hget).trans (congrArg (fun f => some (m.modOp o.id f)) (funext fun x => ?_)))
    exact (staged_clean x _ _ _ hbad _).trans rfl
  · refine lands_next hl ((hten h10 h11).trans ?_)
    rw [hop]
    refine (if_neg (not_not.mpr hst)).trans ((if_neg hget).trans ?_)
    rfl

theorem markerEvents : MarkerEvents := by
  refine ⟨fun s i q m hl => ?_, fun s i q m o hl hop hmark => ?_⟩
  · intro h same seen rest
    have hm : m.marks = s.marks := (congrArg State.marks (lands_frame hl)).trans rfl
    have hseen : (match m.marks.find? same with | some x => x.seen + 1 | none => 1) = seen := by
      show _ = ((s.marks.find? same).map (fun x => x.seen)).getD 0 + 1
      rw [hm]
      cases s.marks.find? same <;> rfl
    have hrest : m.marks.filter (fun x => !same x) = rest := congrArg (List.filter _) hm
    refine ⟨fun hlt => lands_next hl ?_, fun hle => lands_next hl ?_⟩
    · refine (if_pos (lt_of_eq_of_lt (Eq.trans rfl hseen) hlt)).trans ?_
      exact congrArg₂ (fun (n : Nat) (r : List MarkCount) => some ({ m with marks := { src := h.src, ctx := h.ctx, tag := h.tag, seen := n } :: r } : State)) (Eq.trans rfl hseen) hrest
    · refine (if_neg (Nat.not_lt.mpr (le_of_le_of_eq hle (Eq.trans rfl hseen).symm))).trans ?_
      exact congrArg (fun r => some ({ m with marks := r }.answer h 0 [] [])) hrest
  · refine ⟨fun hst => ?_, fun hst => ?_⟩
    · refine lands_next hl ?_
      rw [hop]
      exact (if_neg (not_not.mpr hmark)).trans (if_pos hst)
    · refine ⟨if m.relh.contains (o.crew, o.target) then m.relh else (o.crew, o.target) :: m.relh, ?_, fun r hr => ?_, lands_next hl ?_⟩
      · split
        · next hc => exact List.contains_iff_mem.mp hc
        · exact List.mem_cons_self
      · have hm : m.relh = s.relh := (congrArg State.relh (lands_frame hl)).trans rfl
        rw [hm]
        split
        · exact hr
        · exact List.mem_cons_of_mem _ hr
      · rw [hop]
        exact (if_neg (not_not.mpr hmark)).trans (if_neg (not_not.mpr hst))

end Responses

/-- Settles O45: every landing reads the first packet of its port and channel; headers by their bit fields, accesses by the target that the remote handle
names, responses and markers by the command of their tag. -/
theorem packetEvents : Obligations.PacketEvents :=
  ⟨headerWords, forwardEvent, answerLands, writeEvent, readEvent, atomicEvent, responseEvent, markerEvents⟩

end Sys2Proof.Proofs.PacketRows
end

