-- ==== Sys2Proof/Proofs/GroupRows.lean ====
section
/-!
PROOF. Proofs/GroupRows.lean: packets of address groups where they land: probes, partials of reductions and their results, chunks and their
refusals, starts, aborts, and the response timeout.
-/

namespace Sys2Proof.Proofs.GroupRows

open Sys2Proof Machine Claims BringUpRows StopRows RouterRows PacketRows CoxSequenceRows CoxChunkRows OperationEnds CausesAndRecords

/-! ## Probes and reductions (R290 to R292, R294) -/

section Reductions

theorem bool_eq_true_iff_and {a b c d : Bool} {p q : Prop} (hc : b = true ↔ p) (hd : c = true ↔ q) :
    (a && b && c && d) = true ↔ a = true ∧ p ∧ q ∧ d = true := by
  rw [Bool.and_eq_true, Bool.and_eq_true, Bool.and_eq_true, hc, hd, and_assoc, and_assoc]

theorem probe_answers {s m : State} {i : Nat} {q : PortPkt} (hl : Lands s i 6 q m) :
    let h := q.pkt.hd
    let e := m.remoteEntry h.ctx q.pkt.ht h.rhnd
    let b := if e.space = 2 then m.landBlock h.ctx q.pkt.blockId else none
    let ok := m.grpFor h.group h.ctx && m.grpState h.group == 0 && (m.grp h.group).seq == h.seq && m.remoteCheck h.ctx b e (h.rop == 15) h.arr h.off q.pkt.len == 0
    exec (.probe i) s = .next (m.answer h (if ok then 0 else 7) [] []) := by
  intro h e b ok
  show execProbe i s = _
  unfold execProbe
  exact lands_next hl rfl

theorem probe_event {s m : State} {i : Nat} {q : PortPkt} (hl : Lands s i 6 q m) :
    let p := q.pkt
    let h := p.hd
    let e := m.remoteEntry h.ctx p.ht h.rhnd
    let b := if e.space = 2 then m.landBlock h.ctx p.blockId else none
    let ok := m.grpFor h.group h.ctx = true ∧ m.grpState h.group = 0 ∧ (m.grp h.group).seq = h.seq ∧
      m.remoteCheck h.ctx b e (h.rop == 15) h.arr h.off p.len = 0
    (ok → exec (.probe i) s = .next (m.answer h 0 [] [])) ∧ (¬ ok → exec (.probe i) s = .next (m.answer h 7 [] [])) := by
  intro p h e b ok
  have hok : _ = true ↔ ok := (bool_eq_true_iff_and (a := m.grpFor h.group h.ctx) (d := m.remoteCheck h.ctx b e (h.rop == 15) h.arr h.off p.len == 0)
    beq_iff_eq beq_iff_eq).trans (and_congr_right fun _ => and_congr_right fun _ => and_congr_right fun _ => beq_iff_eq)
  refine ⟨fun ho => (probe_answers hl).trans ?_, fun ho => (probe_answers hl).trans ?_⟩
  · exact congrArg (fun n => (.next (m.answer h n [] []) : Out)) (if_pos (hok.mpr ho))
  · exact congrArg (fun n => (.next (m.answer h n [] []) : Out)) (if_neg (fun hc => ho (hok.mp hc)))

theorem probeack_event {s m : State} {i : Nat} {q : PortPkt} {o : Op} (hl : Lands s i 7 q m) (hop : m.fabOp q.pkt.hd.tag = some o) (hphase : o.phase = 1) :
    exec (.probeack i) s = .next (m.modOp o.id (fun x => { x with
      probes := x.probes.filter (fun n => n ≠ q.pkt.hd.src),
      stat := if q.pkt.hd.stat = 7 then 7 else if x.stat = 0 then q.pkt.hd.stat else x.stat })) := by
  refine lands_next hl ?_
  dsimp only
  rw [hop]
  exact if_neg (not_not.mpr hphase)

theorem redrsp_event {s m : State} {i : Nat} {q : PortPkt} {o : Op} (hl : Lands s i 9 q m) (hop : m.fabOp q.pkt.hd.tag = some o) (hopc : o.opc = 0x2C4)
    (hphase : o.phase = 2) :
    let h := q.pkt.hd
    let n := (h.off + 2 ^ 32 - o.arg 1) % 2 ^ 32
    (h.stat ≠ 0 → exec (.redrsp i) s = .next (m.failFab o h.stat)) ∧
    (h.stat = 0 → exec (.redrsp i) s = .next (m.modOp o.id (fun x => { x.noteAnswer h.src h.off true with
      stage := x.stage ++ [(if h.rop = 8 ∨ bitsOf (o.arg 4) 27 24 = 8 then 2 * n else n, q.pkt.data)] }))) := by
  intro h n
  have hmine : ¬ (o.opc ≠ 0x2C4 ∨ o.phase ≠ 2) := fun hc => hc.elim (absurd hopc) (absurd hphase)
  refine ⟨fun hst => lands_next hl ?_, fun hst => lands_next hl ?_⟩
  · dsimp only
    rw [hop]
    exact (if_neg hmine).trans (if_pos hst)
  · dsimp only
    rw [hop]
    refine (if_neg hmine).trans ((if_neg (not_not.mpr hst)).trans ?_)
    have hpos : n * (if h.rop = 8 ∨ bitsOf (o.arg 4) 27 24 = 8 then 2 else 1) = if h.rop = 8 ∨ bitsOf (o.arg 4) 27 24 = 8 then 2 * n else n := by
      split <;> omega
    exact congrArg (fun k => some (m.modOp o.id (fun x => { x.noteAnswer h.src h.off true with stage := x.stage ++ [(k, q.pkt.data)] }))) hpos

/-- The die that a packet of a reduction is read on (R291). -/
theorem reduceDie_eq (b : Option Block) (d : Nat) :
    (match b with | some k => dieOfCore k.core | none => d) = (b.map (fun k => dieOfCore k.core)).getD d := by
  cases b <;> rfl

theorem reduce_refused {s m : State} {i : Nat} {q : PortPkt} (hl : Lands s i 8 q m) (hgroup : q.pkt.hd.group ≠ 0)
    (hctx : (m.grp q.pkt.hd.group).ctx = q.pkt.hd.ctx) (hseq : (m.grp q.pkt.hd.group).seq = q.pkt.hd.seq) (hfull : 16 ≤ m.redUsed (landDie q.port)) :
    exec (.reduce i) s = .next (m.redRefuse q.pkt) :=
  lands_next hl ((if_neg (by rintro (h | h | h) <;> contradiction)).trans (if_pos hfull))

theorem any_false {bs : List (Byte × Bool)} (h : ∀ x ∈ bs, x.2 = false) : ¬ bs.any (fun x => x.2) = true := by
  rw [List.any_eq_true]
  rintro ⟨x, hx, ht⟩
  exact absurd ((h x hx).symm.trans ht) (by decide)

/-- What a partial is worth after this member, when its bytes could be read. -/
def redSum (p : Packet) (bs : List (Byte × Bool)) : List Byte :=
  if p.data.isEmpty then redWiden p.hd.rop (bs.map (fun x => x.1)) else redCombine p.hd.rop p.data (redWiden p.hd.rop (bs.map (fun x => x.1)))

/-- The die that a partial's bytes are read on. -/
def redDie (m : State) (q : PortPkt) : Nat := ((targetBlock m q).map (fun k => dieOfCore k.core)).getD (landDie q.port)

/-- The packet that carries a result back to the issuing package (R292). -/
def redBack (v : State) (h : Hd) : Hd := { Hd.mk0 v h.src 9 h.ctx h.tag with group := h.group, seq := h.seq, off := h.off }

/-- The header of a partial on its way to the next rank. -/
def redNext (h : Hd) (g : Group) (rank : Nat) : Hd := { h with dst := g.ranks.getD (rank + 1) 0, hops := 0, nent := 0, ents := [] }

section Partial

variable {s m v : State} {i : Nat} {q : PortPkt} {bs : List (Byte × Bool)}

/-- A clean partial ends at the last rank, or goes on to the next. -/
theorem forwards {dirty last : Prop} [Decidable dirty] [Decidable last] {x : Option State} {y y' : State} {r : State × Bool} {f g : State → State}
    (h : ¬ dirty) (hy : y = y') :
    (if dirty then x else if last then some y else match r with | (t, true) => some (f t) | (t, false) => some (g t)) =
      some (if last then y' else match r with | (t, true) => f t | (t, false) => g t) := by
  obtain ⟨t, sent⟩ := r
  rw [if_neg h, hy]
  by_cases hl : last
  · rw [if_pos hl, if_pos hl]
  · rw [if_neg hl, if_neg hl]
    cases sent <;> rfl

theorem reduce_sums (hl : Lands s i 8 q m) (hgroup : q.pkt.hd.group ≠ 0)
    (hctx : (m.grp q.pkt.hd.group).ctx = q.pkt.hd.ctx) (hseq : (m.grp q.pkt.hd.group).seq = q.pkt.hd.seq) (hroom : m.redUsed (landDie q.port) < 16)
    (hread : m.landPiece (redDie m q) (targetBlock m q) (target m q) q.pkt.hd q.pkt = .ok (v, bs)) (hclean : ∀ x ∈ bs, x.2 = false) :
    exec (.reduce i) s = .next (if (m.grp q.pkt.hd.group).rankOf v.own = (m.grp q.pkt.hd.group).nm1 then
        match v.sendPkt (redBack v q.pkt.hd) (Packet.mk0 (redBack v q.pkt.hd) (redSum q.pkt bs)) with
        | (t, true) => t
        | (t, false) => t.startAbort q.pkt.hd.group q.pkt.hd.seq
      else match v.sendVia (redNext q.pkt.hd (m.grp q.pkt.hd.group) ((m.grp q.pkt.hd.group).rankOf v.own)) { q.pkt with data := redSum q.pkt bs } entRed with
        | (t, true) => v.redHold t (landDie q.port)
        | (t, false) => t.startAbort q.pkt.hd.group q.pkt.hd.seq) := by
  refine lands_next hl ?_
  obtain ⟨send, hsend⟩ : ∃ f, f = State.sendPkt := ⟨_, rfl⟩
  obtain ⟨via, hvia⟩ : ∃ f, f = State.sendVia := ⟨_, rfl⟩
  obtain ⟨mk, hmk⟩ : ∃ f, f = Packet.mk0 := ⟨_, rfl⟩
  rw [← hsend, ← hvia, ← hmk]
  clear hsend hvia hmk
  unfold redDie targetBlock target at hread
  refine (if_neg (by rintro (h | h | h) <;> contradiction)).trans ((if_neg (Nat.not_le.mpr hroom)).trans ?_)
  dsimp only
  generalize (if (m.remoteEntry q.pkt.hd.ctx q.pkt.ht q.pkt.hd.rhnd).space = 2 then m.landBlock q.pkt.hd.ctx q.pkt.blockId else none) = b at hread ⊢
  cases b with
  | none =>
    dsimp only [Option.map_none, Option.getD_none] at hread ⊢
    rw [hread]
    exact forwards (any_false hclean) rfl
  | some k =>
    dsimp only [Option.map_some, Option.getD_some] at hread ⊢
    rw [hread]
    exact forwards (any_false hclean) rfl

theorem reduce_ends {t : State} (hl : Lands s i 8 q m) (hgroup : q.pkt.hd.group ≠ 0)
    (hctx : (m.grp q.pkt.hd.group).ctx = q.pkt.hd.ctx) (hseq : (m.grp q.pkt.hd.group).seq = q.pkt.hd.seq) (hroom : m.redUsed (landDie q.port) < 16)
    (hread : m.landPiece (redDie m q) (targetBlock m q) (target m q) q.pkt.hd q.pkt = .ok (v, bs)) (hclean : ∀ x ∈ bs, x.2 = false)
    (hlast : (m.grp q.pkt.hd.group).rankOf v.own = (m.grp q.pkt.hd.group).nm1)
    (hsend : v.sendPkt (redBack v q.pkt.hd) (Packet.mk0 (redBack v q.pkt.hd) (redSum q.pkt bs)) = (t, true)) : exec (.reduce i) s = .next t := by
  rw [reduce_sums hl hgroup hctx hseq hroom hread hclean, if_pos hlast, hsend]

theorem reduce_goes_on {t : State} {sent : Bool} (hl : Lands s i 8 q m) (hgroup : q.pkt.hd.group ≠ 0)
    (hctx : (m.grp q.pkt.hd.group).ctx = q.pkt.hd.ctx) (hseq : (m.grp q.pkt.hd.group).seq = q.pkt.hd.seq) (hroom : m.redUsed (landDie q.port) < 16)
    (hread : m.landPiece (redDie m q) (targetBlock m q) (target m q) q.pkt.hd q.pkt = .ok (v, bs)) (hclean : ∀ x ∈ bs, x.2 = false)
    (hlast : (m.grp q.pkt.hd.group).rankOf v.own ≠ (m.grp q.pkt.hd.group).nm1)
    (hsend : v.sendVia (redNext q.pkt.hd (m.grp q.pkt.hd.group) ((m.grp q.pkt.hd.group).rankOf v.own)) { q.pkt with data := redSum q.pkt bs } entRed = (t, sent)) :
    exec (.reduce i) s = .next (if sent then v.redHold t (landDie q.port) else t.startAbort q.pkt.hd.group q.pkt.hd.seq) := by
  rw [reduce_sums hl hgroup hctx hseq hroom hread hclean, if_neg hlast, hsend]
  cases sent <;> rfl

end Partial

theorem groupEvents : GroupEvents := by
  refine ⟨fun s i q m hl => probe_event hl, fun s i q m o hl hop hphase => probeack_event hl hop hphase,
    fun s i q m v bs hl => ?_, fun s i q m o hl hop hopc hphase => redrsp_event hl hop hopc hphase⟩
  intro p h e b die g own sum back rank fwd slice hgroup hctx hseq
  refine ⟨fun hfull => reduce_refused hl hgroup hctx hseq hfull,
    fun hroom hread hclean => ⟨fun t hlast hsend => ?_, fun t hlast hsend => ?_, fun t hlast hsend => ?_⟩⟩
  · exact reduce_ends hl hgroup hctx hseq hroom hread hclean hlast hsend
  · exact reduce_goes_on hl hgroup hctx hseq hroom hread hclean hlast hsend
  · exact reduce_goes_on hl hgroup hctx hseq hroom hread hclean hlast hsend

end Reductions

/-! ## Chunks and their refusals (R282, R321 to R324) -/

section Chunks

variable {s m : State} {i : Nat} {q : PortPkt}

/-- The window of a packet's tag that a slot has for its group and SEQ. -/
def hasWindow (m : State) (q : PortPkt) (k : Nat) : Bool :=
  let x := m.coxSlot (q.pkt.blockId % 32) k
  (x.st ≠ 0 && x.ctx == q.pkt.hd.ctx && x.group == q.pkt.hd.group && x.seq == q.pkt.hd.seq) && x.wins.any (fun w => w.tag == q.pkt.hd.tag % 256)

theorem hasWindow_iff (m : State) (q : PortPkt) (k : Nat) : hasWindow m q k = true ↔
    (m.coxSlot (q.pkt.blockId % 32) k).st ≠ 0 ∧ (m.coxSlot (q.pkt.blockId % 32) k).ctx = q.pkt.hd.ctx ∧
      (m.coxSlot (q.pkt.blockId % 32) k).group = q.pkt.hd.group ∧ (m.coxSlot (q.pkt.blockId % 32) k).seq = q.pkt.hd.seq ∧
      ∃ w ∈ (m.coxSlot (q.pkt.blockId % 32) k).wins, w.tag = q.pkt.hd.tag % 256 := by
  unfold hasWindow
  simp only [Bool.and_eq_true, decide_eq_true_eq, beq_iff_eq, List.any_eq_true, and_assoc]

/-- A CHUNK of the current SEQ looks for the first slot with a window of its tag. -/
theorem chunk_finds (hq : s.landing[i]? = some q) (hkind : q.pkt.hd.kind = 10) (hfirst : ∀ x ∈ s.landing.take i, x.port = q.port → x.pkt.hd.ch ≠ q.pkt.hd.ch)
    (hm : m = { fresh s with landing := s.landing.eraseIdx i }) (hmember : m.admitted q.pkt.hd.ctx q.pkt.hd.src = true)
    (hgroup : m.grpFor q.pkt.hd.group q.pkt.hd.ctx = true) (hseq : (q.pkt.hd.seq + 65536 - (m.grp q.pkt.hd.group).seq) % 65536 = 0)
    : ((List.range 8).find? (hasWindow m q) = none → exec (.chunk i) s = .next (m.chunkAnswer q.pkt 14 0)) ∧
      ∀ k t, (List.range 8).find? (hasWindow m q) = some k →
        bitsOf q.pkt.hd.off 28 24 = ((m.coxSlot (q.pkt.blockId % 32) k).buf ((m.coxSlot (q.pkt.blockId % 32) k).win (q.pkt.hd.tag % 256)).buf).lch →
        ((m.coxSlot (q.pkt.blockId % 32) k).win (q.pkt.hd.tag % 256)).fva = none → m.coxLand (q.pkt.blockId % 32) k q.pkt = .ok t →
        exec (.chunk i) s = .next (t.chunkAnswer q.pkt 2 0) := by
  rw [show exec (.chunk i) s = execChunk i s from rfl]
  unfold execChunk
  obtain ⟨ans, hans⟩ : ∃ f, f = State.chunkAnswer := ⟨_, rfl⟩
  rw [← hans]
  clear hans
  dsimp only
  have htake : (fresh s).takeLanding i 10 = some (q, m) := (takeLanding_first (s := fresh s) hq hkind hfirst).trans (congrArg (fun x => some (q, x)) hm.symm)
  rw [show ({ s with free := s.free + 1 } : State) = fresh s from rfl, htake]
  dsimp only
  rw [hmember, hgroup, hseq, if_neg (by decide), if_neg (by decide), if_pos rfl, List.find?_filter]
  simp only [Bool.decide_and, Bool.decide_eq_true]
  have hslot : hasWindow m q = fun k => decide ((m.coxSlot (q.pkt.blockId % 32) k).st ≠ 0) && (m.coxSlot (q.pkt.blockId % 32) k).ctx == q.pkt.hd.ctx &&
      (m.coxSlot (q.pkt.blockId % 32) k).group == q.pkt.hd.group && (m.coxSlot (q.pkt.blockId % 32) k).seq == q.pkt.hd.seq &&
      (m.coxSlot (q.pkt.blockId % 32) k).wins.any fun w => w.tag == q.pkt.hd.tag % 256 := rfl
  rw [← hslot]
  generalize (List.range 8).find? (hasWindow m q) = r
  refine ⟨fun h => by rw [h], fun k t h hlch hfva hland => ?_⟩
  rw [h]
  refine (if_neg (not_not.mpr hlch)).trans ((if_neg (by rw [hfva]; decide)).trans ?_)
  rw [hland]

theorem coxSlot_modSlot_of_hasSlot {port k : Nat} {f : CoxSlot → CoxSlot} (hport : port < s.coxes.length)
    (hk : k < (s.coxes.getD port CoxSt.reset).slots.length) : (s.modSlot port k f).coxSlot port k = f (s.coxSlot port k) := by
  unfold State.modSlot State.modCox State.coxSlot
  dsimp only
  rw [getD_set_self hport]
  exact getD_set_self hk

theorem coxSlot_congr {t : State} (h : t.coxes = s.coxes) (port k : Nat) : t.coxSlot port k = s.coxSlot port k := by
  unfold State.coxSlot
  rw [h]

theorem coxes_ite {c : Prop} [Decidable c] {a b : State} (ha : a.coxes = s.coxes) (hb : b.coxes = s.coxes) : (if c then a else b).coxes = s.coxes := by
  split
  · exact ha
  · exact hb

/-- A packet that lands in a window is counted there. -/
theorem coxLand_counts {t : State} {port k : Nat} {p : Packet} (h : s.coxLand port k p = .ok t) (hport : port < s.coxes.length)
    (hk : k < (s.coxes.getD port CoxSt.reset).slots.length) {y : CoxWin} (hy : y ∈ (s.coxSlot port k).wins) (htag : y.tag = p.hd.tag % 256) :
    ∃ z ∈ (t.coxSlot port k).wins, z.tag = y.tag ∧ z.landed = y.landed + 256 := by
  unfold State.coxLand at h
  dsimp only at h
  split at h
  · exact nomatch h
  · next ps heq =>
    obtain ⟨u, f, hu, hf, ht⟩ : ∃ (u : State) (f : CoxWin → CoxWin), u.coxes = s.coxes ∧ ((f y).tag = y.tag ∧ (f y).landed = y.landed + 256) ∧
        t = u.modSlot port k (fun x => { x with wins := x.wins.map f }) := by
      refine ⟨_, _, ?_, ?_, (Except.ok.inj h).symm⟩
      · refine coxes_ite (MemStep.coxes (coxWrite_memStep ..)) ((foldl_keeps State.coxes (fun a x => ?_) _ _).trans rfl)
        split
        · exact MemStep.coxes (coxWrite_memStep ..)
        · rfl
      · rw [if_pos htag]
        exact ⟨rfl, rfl⟩
    rw [ht, coxSlot_modSlot_of_hasSlot (hu ▸ hport) (hu ▸ hk), coxSlot_congr hu]
    exact ⟨f y, List.mem_map_of_mem hy, hf⟩

/-- A REFUSE is dropped, sends a partial again, or concerns a packet of the cox's chunk (R282, R315, R324). -/
theorem refuse_eq (hq : s.landing[i]? = some q) (hkind : q.pkt.hd.kind = 14) (hfirst : ∀ x ∈ s.landing.take i, x.port = q.port → x.pkt.hd.ch ≠ q.pkt.hd.ch)
    (hm : m = { fresh s with landing := s.landing.eraseIdx i }) :
    (m.admitted q.pkt.hd.ctx q.pkt.hd.src = false → exec (.refuse i) s = .next m) ∧
    (m.admitted q.pkt.hd.ctx q.pkt.hd.src = true → q.pkt.was = 8 →
      exec (.refuse i) s = .next (if 16 ≤ m.redUsed (landDie q.port) then fresh s else m.redAgain q.pkt (landDie q.port))) ∧
    ∀ sd, m.admitted q.pkt.hd.ctx q.pkt.hd.src = true → q.pkt.was ≠ 8 → (m.coxSlot (q.pkt.blockId / 8) (q.pkt.blockId % 8)).send = some sd →
      sd.id = q.pkt.span → q.pkt.hd.off % 2 ^ 20 / 256 ∈ sd.left →
      let n := q.pkt.hd.off % 2 ^ 20 / 256
      exec (.refuse i) s = .next (if q.pkt.hd.stat = 9 then
          if (m.coxSlot (q.pkt.blockId / 8) (q.pkt.blockId % 8)).st = 2 then m.modSlot (q.pkt.blockId / 8) (q.pkt.blockId % 8) (fun x => { x with aborted := true })
          else m.coxAborted (q.pkt.blockId / 8) (q.pkt.blockId % 8)
        else m.modSlot (q.pkt.blockId / 8) (q.pkt.blockId % 8) (fun x => { x with send := some (
          if q.pkt.hd.stat = 12 then { sd with fail := some (0x0F, 4, 0) }
          else if q.pkt.hd.stat = 3 then { sd with again := sd.again ++ [n], refused := sd.measured m.clock.toNat, since := none }
          else { sd with again := sd.again ++ [n], since := some (sd.since.getD m.clock.toNat) }) })) := by
  rw [show exec (.refuse i) s = execRefuse i s from rfl]
  unfold execRefuse
  obtain ⟨again, hagain⟩ : ∃ f, f = State.redAgain := ⟨_, rfl⟩
  rw [← hagain]
  clear hagain
  dsimp only
  have htake : (fresh s).takeLanding i 14 = some (q, m) := (takeLanding_first (s := fresh s) hq hkind hfirst).trans (congrArg (fun x => some (q, x)) hm.symm)
  rw [show ({ s with free := s.free + 1 } : State) = fresh s from rfl, htake]
  dsimp only
  refine ⟨fun h => if_pos (by rw [h]; rfl), fun h hwas => (if_neg (by rw [h]; decide)).trans (if_pos hwas), fun sd h hwas hsend hid hn => ?_⟩
  refine (if_neg (by rw [h]; decide)).trans ((if_neg hwas).trans ?_)
  rw [hsend]
  dsimp only
  refine (if_neg (by rw [List.contains_iff_mem.mpr hn]; exact fun hc => hc.elim (absurd hid) (by decide))).trans ?_
  split <;> rfl

end Chunks

/-! ## Starts (R325, R326) -/

section Starts

variable {s m : State} {i : Nat} {q : PortPkt} {port entry r : Nat}

/-- A START is owed an answer for one port. -/
def owing (m : State) (q : PortPkt) : State := { m with owed := (q.pkt.hd.src, q.pkt.hd.tag, 1, 0) :: m.owed }

/-- The slot that a START takes. -/
def startSlot (m : State) (q : PortPkt) (port entry r : Nat) : CoxSlot :=
  { CoxSlot.free with
    st := 3, why := 5, pc := entry,
    regs := [BitVec.ofNat 64 ((m.grp q.pkt.hd.group).rankOf m.own)] ++
      (List.range 8).map (fun i => BitVec.ofNat 64 (leNat ((q.pkt.data.drop (64 + 8 * i)).take 8))) ++
      [BitVec.ofNat 64 ((m.grp q.pkt.hd.group).nm1 + 1), BitVec.ofNat 64 port] ++ List.replicate 5 0#64,
    ctx := q.pkt.hd.ctx, group := q.pkt.hd.group, seq := q.pkt.hd.seq, asid := ((owing m q).ctxDesc q.pkt.hd.ctx).asid,
    ht := BitVec.ofNat 64 (leNat ((q.pkt.data.drop 136).take 8)), region := r,
    dtva := (BitVec.ofNat 64 (leNat ((q.pkt.data.drop 128).take 8))).toNat, startSrc := q.pkt.hd.src, startTag := q.pkt.hd.tag }

theorem start_runs (hl : Lands s i 11 q m) : exec (.start i) s = .next (m.startHere q.pkt) := by
  rw [show exec (.start i) s = execStart i s from rfl]
  unfold execStart
  exact lands_next hl rfl

/-- A START of one port reaches that port. -/
theorem startHere_one (hports : startPorts q.pkt = [(port, entry)]) (hgroup : m.grpFor q.pkt.hd.group q.pkt.hd.ctx = true)
    (hctx : m.ctxHere q.pkt.hd.ctx = true) : m.startHere q.pkt = (owing m q).startArrive port (entry % 4096) q.pkt := by
  unfold State.startHere
  dsimp only
  rw [hgroup, hctx, hports]
  rfl

theorem startArrive_waits {u : State} {p : Packet} (hr : u.startRegion port p.hd.ctx entry = some r) (hstarts : (u.cox port).starts ≠ []) :
    u.startArrive port entry p = u.modCox port (fun c => { c with starts := c.starts ++ [{ pkt := p, entry := entry, since := u.clock.toNat }] }) := by
  refine if_neg ?_
  rw [hr]
  rintro (h | h)
  · exact hstarts (List.isEmpty_iff.mp h)
  · exact Bool.false_ne_true h

theorem startArrive_takes {u : State} {p : Packet} {k : Nat} (hr : u.startRegion port p.hd.ctx entry = some r) (hstarts : (u.cox port).starts = [])
    (hk : (List.range 8).find? (fun k => (u.coxSlot port k).st == 0) = some k) : u.startArrive port entry p = u.startTake port k entry r p := by
  refine (if_pos (Or.inl (by rw [hstarts]; rfl))).trans ?_
  unfold State.startPort
  dsimp only
  rw [hr]
  dsimp only
  rw [hk]

theorem range_getD {α : Type} (f : Nat → α) {n j : Nat} (h : j < n) (d : α) : ((List.range n).map f).getD j d = f j := by
  rw [List.getD_eq_getElem?_getD, List.getElem?_map, List.getElem?_range h]
  rfl

/-- The registers of a context that a START begins (R326). -/
theorem startRegs (a n p : BitVec 64) (f : Nat → BitVec 64) :
    let regs := [a] ++ (List.range 8).map f ++ [n, p] ++ List.replicate 5 0#64
    regs.getD 0 0#64 = a ∧ regs.getD 9 0#64 = n ∧ regs.getD 10 0#64 = p ∧ ∀ j, j < 8 → regs.getD (1 + j) 0#64 = f j := by
  refine ⟨rfl, rfl, rfl, fun j hj => ?_⟩
  rw [Nat.add_comm]
  show ((List.range 8).map f ++ [n, p] ++ List.replicate 5 0#64).getD j 0#64 = f j
  rw [List.append_assoc, List.getD_append _ _ _ _ (by rw [List.length_map, List.length_range]; exact hj), range_getD f hj]

end Starts

theorem chunkEvents : ChunkEvents := by
  refine ⟨fun s i q m hq hkind hfirst hm => ?_, fun s i q m sd hq hkind hfirst hm => ?_, fun s i q m hl => ⟨start_runs hl, ?_, ?_⟩⟩
  · intro h port mine hmember hgroup hseq
    obtain ⟨hnone, hsome⟩ := chunk_finds hq hkind hfirst hm hmember hgroup hseq
    refine ⟨fun hno => hnone ?_, fun k t hk hmine hbefore => ?_⟩
    · exact List.find?_eq_none.mpr fun k hk hc => hno k (List.mem_range.mp hk) ((hasWindow_iff m q k).mp hc)
    · intro w hlch hfva hland
      refine ⟨hsome k t ?_ hlch hfva hland, fun y hy htag hport hslots => coxLand_counts hland hport hslots hy htag⟩
      exact CoxEventRows.freeSlot_first hk ((hasWindow_iff m q k).mpr hmine) fun j hj => Bool.eq_false_iff.mpr fun hc => hbefore j hj ((hasWindow_iff m q j).mp hc)
  · intro h port k n
    obtain ⟨hdrop, hred, hchunk⟩ := refuse_eq hq hkind hfirst hm
    have hclock : m.clock = s.clock := (congrArg State.clock hm).trans rfl
    refine ⟨hdrop, hred, fun hmember hwas hsend hid hn => ?_⟩
    have he := hchunk sd hmember hwas hsend hid hn
    rw [hclock] at he
    refine ⟨fun hst => he.trans ?_, fun hst => he.trans ?_, fun hst => he.trans ?_, fun hst => he.trans ?_⟩ <;> rw [hst] <;> rfl
  · intro port entry r hports hgroup hctx hr hstarts
    rw [start_runs hl, startHere_one hports hgroup hctx, startArrive_waits (u := owing m q) hr hstarts]
    have hclock : (owing m q).clock = s.clock := (congrArg State.clock (lands_frame hl)).trans rfl
    rw [hclock]
    rfl
  · intro port entry r k hports hgroup hctx hr hstarts hk hst hbefore hport hslot
    have hfree : (List.range 8).find? (fun k => ((owing m q).coxSlot port k).st == 0) = some k :=
      CoxEventRows.freeSlot_first hk (beq_iff_eq.mpr hst) fun j hj => beq_eq_false_iff_ne.mpr (hbefore j hj)
    rw [start_runs hl, startHere_one hports hgroup hctx, startArrive_takes (u := owing m q) hr hstarts hfree]
    refine ⟨_, rfl, ?_⟩
    have hx := coxSlot_modSlot_of_hasSlot (s := owing m q) (port := port) (k := k) (f := fun _ => startSlot m q port (entry % 4096) r) hport hslot
    have ht : (owing m q).startTake port k (entry % 4096) r q.pkt = (owing m q).modSlot port k (fun _ => startSlot m q port (entry % 4096) r) := rfl
    rw [ht]
    dsimp only
    rw [hx]
    obtain ⟨h0, h9, h10, hq⟩ := startRegs (BitVec.ofNat 64 ((m.grp q.pkt.hd.group).rankOf m.own)) (BitVec.ofNat 64 ((m.grp q.pkt.hd.group).nm1 + 1)) (BitVec.ofNat 64 port)
      (fun i => BitVec.ofNat 64 (leNat ((q.pkt.data.drop (64 + 8 * i)).take 8)))
    exact ⟨rfl, rfl, rfl, rfl, rfl, rfl, rfl, h0, h9, h10, hq⟩

/-! ## Aborts (R295, R296, R437) -/

section Aborts

/-- What an abort leaves as it was until its SEQ goes up: the entries of the groups, and the contexts of several packages. -/
def standing (s : State) : List Group × List Mpc := (s.groups, s.mpcs)

theorem FabStep.standing {s t : State} (h : FabStep s t) : standing t = standing s := (congrArg GroupRows.standing h).trans rfl

theorem OpsStep.standing {s t : State} (h : OpsStep s t) : standing t = standing s := (congrArg GroupRows.standing h).trans rfl

theorem PostStep.standing {s t : State} (h : PostStep s t) : standing t = standing s := (congrArg GroupRows.standing h).trans rfl

theorem startDecide_standing (s : State) (src tag ctx stat : Nat) : standing (s.startDecide src tag ctx stat) = standing s := by
  unfold State.startDecide
  split
  · rfl
  · dsimp only
    split
    · rfl
    · exact (FabStep.standing (sendPkt_fabStep ..)).trans rfl

theorem coxFree_standing (s : State) (port k : Nat) : standing (s.coxFree port k) = standing s := by
  unfold State.coxFree
  cases (s.coxSlot port k).send <;> rfl

theorem coxAborted_standing (s : State) (port k : Nat) : standing (s.coxAborted port k) = standing s := by
  unfold State.coxAborted State.coxRecord
  exact (coxFree_standing ..).trans (PostStep.standing (postRecord_postStep ..))

theorem slotAborted_standing (g seq : Nat) (t : State) (p k : Nat) : standing (
      let sl := t.coxSlot p k
      if sl.st = 0 ∨ sl.group ≠ g ∨ sl.seq ≠ seq then t
      else if sl.st = 2 then t.modSlot p k (fun x => { x with aborted := true })
      else
        let u := if sl.why = 5 then t.startDecide sl.startSrc sl.startTag sl.ctx 9 else t
        u.coxAborted p k) = standing t := by
  dsimp only
  split
  · rfl
  · split
    · rfl
    · refine (coxAborted_standing ..).trans ?_
      split
      · exact startDecide_standing ..
      · rfl

/-- An abort applied: everything else first, then the SEQ goes up (R296). -/
theorem applyAbort_eq (s : State) (g : Nat) : ∃ u, standing u = standing s ∧ s.applyAbort g = u.modGroup g (fun x => { x with seq := ((s.grp g).seq + 1) % 65536 }) := by
  refine ⟨_, ?_, rfl⟩
  refine (foldl_keeps standing (fun t p => ?_) _ _).trans ((foldl_keeps standing (fun t o => ?_) _ _).trans rfl)
  · refine (foldl_keeps standing (fun t k => ?_) _ _).trans ((foldl_keeps standing (fun t x => startDecide_standing ..) _ _).trans rfl)
    exact slotAborted_standing g (s.grp g).seq t p k
  · exact (OpsStep.standing (finishOp_opsStep ..)).trans rfl

theorem groups_of_standing {s t : State} (h : standing t = standing s) : t.groups = s.groups := congrArg Prod.fst h

theorem applyAbort_seq {s : State} {g : Nat} (hg : g ≠ 0) (hlen : g < s.groups.length) : ((s.applyAbort g).grp g).seq = ((s.grp g).seq + 1) % 65536 := by
  obtain ⟨u, hu, h⟩ := applyAbort_eq s g
  have hgroups := groups_of_standing hu
  rw [h]
  unfold State.grp State.modGroup
  rw [if_neg hg]
  dsimp only
  rw [getD_set_self (hgroups ▸ hlen)]

/-- The ABORTACK that a member sends (R296). -/
def abortAck (h : Hd) (t : State) : State :=
  let a : Hd := { Hd.mk0 t h.src 13 h.ctx h.tag with group := h.group, seq := h.seq }
  (t.sendPkt a (Packet.mk0 a [])).1

/-- The member after it has relayed an ABORT. -/
def relayed (m : State) (h : Hd) : State := ((m.grp h.group).relays h.src m.own).foldl (fun x n => (x.sendAbort h.src n h.group h.seq).1) m

theorem relayed_fabStep (m : State) (h : Hd) : FabStep m (relayed m h) := foldl_fabStep (fun _ _ => sendAbort_fabStep ..) _ _

theorem relayed_applied {m : State} {h : Hd} (hseq : ((relayed m h).grp h.group).seq = h.seq) (hg : h.group ≠ 0) (hlen : h.group < m.groups.length) :
    (((relayed m h).applyAbort h.group).grp h.group).seq = (h.seq + 1) % 65536 := by
  rw [applyAbort_seq hg (by rw [groups_of_standing (FabStep.standing (relayed_fabStep m h))]; exact hlen), hseq]

variable {s m : State} {i : Nat} {q : PortPkt}

theorem abort_eq (hq : s.landing[i]? = some q) (hkind : q.pkt.hd.kind = 12) (hfirst : ∀ x ∈ s.landing.take i, x.port = q.port → x.pkt.hd.ch ≠ q.pkt.hd.ch)
    (hm : m = { fresh s with landing := s.landing.eraseIdx i }) :
    exec (.abort i) s = .next (if m.admitted q.pkt.hd.ctx q.pkt.hd.src = false then m else
      abortAck q.pkt.hd (if ((relayed m q.pkt.hd).grp q.pkt.hd.group).v ∧ ((relayed m q.pkt.hd).grp q.pkt.hd.group).seq = q.pkt.hd.seq then
        (relayed m q.pkt.hd).applyAbort q.pkt.hd.group else relayed m q.pkt.hd)) := by
  rw [show exec (.abort i) s = execAbort i s from rfl]
  obtain ⟨f, hf⟩ : ∃ f, f = execAbort := ⟨_, rfl⟩
  rw [← hf]
  obtain ⟨ack, hack⟩ : ∃ f, f = abortAck := ⟨_, rfl⟩
  rw [← hack]
  obtain ⟨rel, hrel⟩ : ∃ f, f = relayed := ⟨_, rfl⟩
  rw [← hrel]
  delta execAbort at hf
  delta abortAck at hack
  delta relayed at hrel
  obtain ⟨send, hsend⟩ : ∃ f, f = State.sendPkt := ⟨_, rfl⟩
  obtain ⟨ab, hab⟩ : ∃ f, f = State.sendAbort := ⟨_, rfl⟩
  obtain ⟨mk, hmk⟩ : ∃ f, f = Packet.mk0 := ⟨_, rfl⟩
  rw [← hsend] at hf hack
  rw [← hab] at hf hrel
  rw [← hmk] at hf hack
  clear hsend hab hmk
  subst hf hack hrel
  have htake : (fresh s).takeLanding i 12 = some (q, m) := (takeLanding_first (s := fresh s) hq hkind hfirst).trans (congrArg (fun x => some (q, x)) hm.symm)
  dsimp only
  rw [show ({ s with free := s.free + 1 } : State) = fresh s from rfl, htake]
  dsimp only
  cases m.admitted q.pkt.hd.ctx q.pkt.hd.src <;> rfl

theorem abort_event (hq : s.landing[i]? = some q) (hkind : q.pkt.hd.kind = 12)
    (hfirst : ∀ x ∈ s.landing.take i, x.port = q.port → x.pkt.hd.ch ≠ q.pkt.hd.ch) (hm : m = { fresh s with landing := s.landing.eraseIdx i }) :
    (m.admitted q.pkt.hd.ctx q.pkt.hd.src = false → exec (.abort i) s = .next m) ∧
    (m.admitted q.pkt.hd.ctx q.pkt.hd.src = true →
      ¬(((relayed m q.pkt.hd).grp q.pkt.hd.group).v = true ∧ ((relayed m q.pkt.hd).grp q.pkt.hd.group).seq = q.pkt.hd.seq) →
      exec (.abort i) s = .next (abortAck q.pkt.hd (relayed m q.pkt.hd))) ∧
    (m.admitted q.pkt.hd.ctx q.pkt.hd.src = true → ((relayed m q.pkt.hd).grp q.pkt.hd.group).v = true →
      ((relayed m q.pkt.hd).grp q.pkt.hd.group).seq = q.pkt.hd.seq → q.pkt.hd.group ≠ 0 → q.pkt.hd.group < s.groups.length →
      exec (.abort i) s = .next (abortAck q.pkt.hd ((relayed m q.pkt.hd).applyAbort q.pkt.hd.group)) ∧
      (((relayed m q.pkt.hd).applyAbort q.pkt.hd.group).grp q.pkt.hd.group).seq = (q.pkt.hd.seq + 1) % 65536) := by
  rw [abort_eq hq hkind hfirst hm]
  refine ⟨fun hno => by rw [if_pos hno], fun hyes hold => ?_, fun hyes hv hseq hg hlen => ⟨?_, ?_⟩⟩
  · rw [hyes, if_neg (by decide), if_neg hold]
  · rw [hyes, if_neg (by decide), if_pos ⟨hv, hseq⟩]
  · have hgroups : m.groups = s.groups := (congrArg State.groups hm).trans rfl
    exact relayed_applied hseq hg (hgroups ▸ hlen)

/-- An abort of this package after an ABORTACK: its sender is not waited for any more. -/
def answered (h : Hd) (a : AbortWait) : AbortWait :=
  if a.grp = h.group ∧ a.seq = h.seq then { a with waiting := a.waiting.filter (fun n => n ≠ h.src) } else a

theorem abortack_eq (hq : s.landing[i]? = some q) (hkind : q.pkt.hd.kind = 13) (hfirst : ∀ x ∈ s.landing.take i, x.port = q.port → x.pkt.hd.ch ≠ q.pkt.hd.ch)
    (hm : m = { fresh s with landing := s.landing.eraseIdx i }) :
    exec (.abortack i) s = .next (if m.admitted q.pkt.hd.ctx q.pkt.hd.src = false then m else
      { m with aborts := (s.aborts.map (answered q.pkt.hd)).filter (fun a => !a.waiting.isEmpty) }) := by
  rw [show exec (.abortack i) s = execAbortack i s from rfl]
  unfold execAbortack
  have htake : (fresh s).takeLanding i 13 = some (q, m) := (takeLanding_first (s := fresh s) hq hkind hfirst).trans (congrArg (fun x => some (q, x)) hm.symm)
  have haborts : m.aborts = s.aborts := (congrArg State.aborts hm).trans rfl
  dsimp only
  rw [show ({ s with free := s.free + 1 } : State) = fresh s from rfl, htake]
  dsimp only
  rw [haborts]
  cases m.admitted q.pkt.hd.ctx q.pkt.hd.src <;> rfl

theorem mem_answered {h : Hd} {as : List AbortWait} {a : AbortWait} (ha : a ∈ as) (hw : (answered h a).waiting ≠ []) :
    answered h a ∈ (as.map (answered h)).filter (fun a => !a.waiting.isEmpty) := by
  refine List.mem_filter.mpr ⟨List.mem_map_of_mem ha, ?_⟩
  rw [Bool.not_eq_true', List.isEmpty_eq_false_iff]
  exact hw

/-- An abort that is still waited for does not wait for the sender. -/
theorem answered_current {h : Hd} {as : List AbortWait} {a : AbortWait} (ha : a ∈ (as.map (answered h)).filter (fun a => !a.waiting.isEmpty))
    (hmine : a.grp = h.group ∧ a.seq = h.seq) : h.src ∉ a.waiting ∧ a.waiting ≠ [] := by
  obtain ⟨hmem, hw⟩ := List.mem_filter.mp ha
  obtain ⟨b, -, hb⟩ := List.mem_map.mp hmem
  refine ⟨fun hsrc => ?_, fun hnil => ?_⟩
  · unfold answered at hb
    by_cases hbm : b.grp = h.group ∧ b.seq = h.seq
    · rw [if_pos hbm] at hb
      rw [← hb] at hsrc
      exact of_decide_eq_true (List.mem_filter.mp hsrc).2 rfl
    · rw [if_neg hbm] at hb
      exact hbm (hb ▸ hmine)
  · rw [hnil] at hw
    exact Bool.false_ne_true hw

/-- The operation whose timeout comes is found, and nothing of it has ended (R295). -/
theorem timeout_eq {s : State} {o : Op} (hop : s.op? o.id = some o) (hcls : o.cls = 3) (hdone : o.done = false) :
    (fresh s).fabTimeout o.id =
      if o.awaits = false ∨ s.clock.toNat < o.sentAt + s.fabto.toNat ∨ ((fresh s).heldPort o).isSome then fresh s
      else if o.phase = 1 then ((fresh s).modOp o.id (fun x => { x with stat := 7 })).finishOp o.id 7 else (fresh s).failFab o 6 := by
  have hop' : (fresh s).op? o.id = some o := hop
  unfold State.fabTimeout
  rw [hop']
  dsimp only
  rw [hcls, hdone]
  refine if_congr ?_ rfl rfl
  constructor
  · rintro (h | h | h | h | h)
    · exact absurd rfl h
    · exact absurd h (by decide)
    · exact .inl ((Bool.not_eq_true' _).mp h)
    · exact .inr (.inl h)
    · exact .inr (.inr h)
  · rintro (h | h | h)
    · exact .inr (.inr (.inl ((Bool.not_eq_true' _).mpr h)))
    · exact .inr (.inr (.inr (.inl h)))
    · exact .inr (.inr (.inr (.inr h)))

theorem responseTimeout_answers (s : State) (id : Nat) : Answers (exec (.fabricResponseTimeout id) s) (fun t => t = { (fresh s).fabTimeout id with aborts := t.aborts }) :=
  ⟨_, rfl, rfl⟩

theorem responseTimeout_early {s : State} {id : Nat} (h : (fresh s).fabTimeout id = fresh s) :
    exec (.fabricResponseTimeout id) s = .next { fresh s with aborts := s.aborts.filter (fun a => decide (s.clock.toNat < a.since + s.fabto.toNat)) } := by
  rw [show exec (.fabricResponseTimeout id) s = execFabricResponseTimeout id s from rfl]
  unfold execFabricResponseTimeout
  rw [show ({ s with free := s.free + 1 } : State) = fresh s from rfl, h]
  rfl

theorem expired {now due : Nat} {c : Bool} {held : Option Nat} (hc : c = true) (hle : due ≤ now) (hheld : held = none) :
    ¬ (c = false ∨ now < due ∨ held.isSome = true) := by
  rintro (h | h | h)
  · rw [hc] at h
    exact absurd h (by decide)
  · exact absurd h (Nat.not_lt.mpr hle)
  · rw [hheld] at h
    exact absurd h (by decide)

theorem awaits_of_probes {o : Op} (hphase : o.phase = 1) (hp : o.probes ≠ []) : o.awaits = true := by
  unfold Op.awaits
  rw [if_pos hphase, Bool.not_eq_true', List.isEmpty_eq_false_iff]
  exact hp

theorem awaits_of_waits {o : Op} (hphase : o.phase ≠ 1) (hw : o.waits ≠ []) : o.awaits = true := by
  unfold Op.awaits
  rw [if_neg hphase, Bool.not_eq_true', List.isEmpty_eq_false_iff]
  exact hw

/-- A timeout without effect on target bytes: fatom and fmark write none here. -/
theorem failFab_of_remote {s : State} {o : Op} (h : o.opc ∈ [0x2C2, 0x2C3]) (hcls : o.cls = 3) (stat : Nat) : s.failFab o stat = s.finishOp o.id stat := by
  have hopc : o.opc = 0x2C2 ∨ o.opc = 0x2C3 := by simpa using h
  have hscrub : s.scrub o = s := by
    unfold State.scrub
    rcases hopc with ho | ho <;> simp [ho, hcls]
  have hfail : s.failOp o stat = s.finishOp o.id stat := by
    unfold State.failOp
    rw [hscrub, ite_self]
  unfold State.failFab
  dsimp only
  rw [if_neg, hfail]
  rintro ⟨-, hput | hmc, -⟩
  · rcases hopc with ho | ho <;> exact absurd (ho.symm.trans hput.1) (by decide)
  · rcases hopc with ho | ho <;> exact absurd (ho.symm.trans hmc.1) (by decide)

end Aborts

theorem abortEvents : AbortEvents := by
  refine ⟨fun s i q m hq hkind hfirst hm => ?_, fun s i q m hq hkind hfirst hm => ?_, fun s o hop hcls hdone => ?_⟩
  · have he := abort_event hq hkind hfirst hm
    obtain ⟨ack, hack⟩ : ∃ f, f = abortAck := ⟨_, rfl⟩
    obtain ⟨rel, hrel⟩ : ∃ f, f = relayed := ⟨_, rfl⟩
    rw [← hack, ← hrel] at he
    delta abortAck at hack
    delta relayed at hrel
    obtain ⟨send, hsend⟩ : ∃ f, f = State.sendPkt := ⟨_, rfl⟩
    obtain ⟨ab, hab⟩ : ∃ f, f = State.sendAbort := ⟨_, rfl⟩
    obtain ⟨mk, hmk⟩ : ∃ f, f = Packet.mk0 := ⟨_, rfl⟩
    rw [← hsend, ← hmk] at hack ⊢
    rw [← hab] at hrel ⊢
    clear hsend hab hmk
    subst hack hrel
    exact he
  · intro h mine
    have he := abortack_eq hq hkind hfirst hm
    refine ⟨fun hno => he.trans (congrArg _ (if_pos hno)), fun hyes => ⟨_, he.trans (congrArg _ (if_neg (by rw [hyes]; decide))), rfl, fun a ha hmine hw => ?_, fun a ha hmine => ?_,
      fun a ha hmine hw => ?_⟩⟩
    · have heq : answered h a = { a with waiting := a.waiting.filter (fun n => n ≠ h.src) } := if_pos hmine
      refine heq ▸ mem_answered ha ?_
      obtain ⟨n, hn, hne⟩ := hw
      rw [heq]
      exact List.ne_nil_of_mem (List.mem_filter.mpr ⟨hn, decide_eq_true hne⟩)
    · exact answered_current ha hmine
    · have heq : answered h a = a := if_neg hmine
      have hmem := mem_answered (h := h) ha (heq.symm ▸ hw)
      rw [heq] at hmem
      exact hmem
  · intro rest
    have ht := timeout_eq hop hcls hdone
    refine ⟨fun hlt => responseTimeout_early (ht.trans (if_pos (.inr (.inl hlt)))), fun haw => responseTimeout_early (ht.trans (if_pos (.inl haw))), fun hp hle hheld hphase => ?_,
      fun hw hle hheld hphase hopc => ?_, fun hw hle hheld hphase => ?_⟩
    · have he := responseTimeout_answers s o.id
      rw [ht, if_neg (expired (awaits_of_probes hphase hp) hle hheld), if_pos hphase] at he
      exact he
    · have he := responseTimeout_answers s o.id
      rw [ht, if_neg (expired (awaits_of_waits hphase hw) hle hheld), if_neg hphase, failFab_of_remote hopc hcls] at he
      exact he
    · have he := responseTimeout_answers s o.id
      rw [ht, if_neg (expired (awaits_of_waits hphase hw) hle hheld), if_neg hphase] at he
      exact he

/-- Settles O46: partials, chunks and starts by the group of their header, aborts by the SEQ that goes up last. -/
theorem groupPacketEvents : Obligations.GroupPacketEvents := ⟨groupEvents, chunkEvents, abortEvents⟩

end Sys2Proof.Proofs.GroupRows
end

