-- ==== Sys2Proof/Proofs/SecurityRows.lean ====
section
/-!
PROOF. Proofs/SecurityRows.lean: the security processor: its mailbox, and what each of its commands does with a payload.
-/

namespace Sys2Proof.Proofs.SecurityRows

open Sys2Proof Machine Claims StopRows RouterRows OperationEnds MemoryFrames HostRows ErrorRows GroupRows

/-! ## The mailbox (R428) -/

section Mailbox

variable {s : State} {op pa : Nat} {p : List Byte} {f : State → List Byte → State × Nat × List Byte}

/-- A command of the block at the mailbox has its meaning on the payload. -/
theorem secpCommand_asked (h : Asked s op pa p) {m : State} {st : Nat} {out : List Byte} (hr : f (fresh s) p = (m, st, out)) :
    secpCommand op f s = .next (replied m pa st out) := by
  obtain ⟨hbusy, hwaiting, hplace, hop, hsize, hzero, hpayload⟩ := h
  have hbusy' : (fresh s).secp.busy = some pa := hbusy
  have hmine : ¬ ((fresh s).secp.result.isSome = true ∨ (fresh s).paKind pa = .none ∨ (fresh s).natPa pa 4 ≠ op) := by
    rintro (hc | hc | hc)
    · rw [show (fresh s).secp.result = none from hwaiting] at hc
      exact absurd hc (by decide)
    · exact hplace hc
    · exact hc hop
  have hplain : ¬ (16384 < (fresh s).natPa (pa + 4) 4 ∨ (fresh s).natPa (pa + 12) 4 ≠ 0) :=
    not_or.mpr ⟨Nat.not_lt.mpr hsize, not_not.mpr hzero⟩
  unfold secpCommand
  rw [show ({ s with free := s.free + 1 } : State) = fresh s from rfl]
  dsimp only
  rw [hbusy']
  dsimp only
  rw [if_neg hmine, if_neg hplain, ← hpayload, hr]
  rfl

/-- The command block after its command has ended with a status. -/
def ended (u : State) (pa st : Nat) : State :=
  let m := (u.writePa (pa + 8) (leBytes 4 st)).release
  { m with secp := { m.secp with busy := none, result := none, last := st } }.postMsix 4

theorem secpComplete_eq (hbusy : s.secp.busy = some pa) (hplace : (fresh s).paKind pa ≠ .none) {bad : Bool}
    (hbad : ((fresh s).natPa pa 4 == 0 || decide (12 < (fresh s).natPa pa 4)) = bad) :
    exec .secpCommandComplete s = .next (if (!bad) = true ∧ s.secp.result.isNone = true then fresh s else
      ended (fresh s) pa (if bad then 1 else s.secp.result.getD 1)) := by
  have hbusy' : (fresh s).secp.busy = some pa := hbusy
  have hkind : ((fresh s).paKind pa == .none) = false := beq_eq_false_iff_ne.mpr hplace
  rw [exec_secpCommandComplete]
  unfold execSecpCommandComplete ended
  rw [show ({ s with free := s.free + 1 } : State) = fresh s from rfl]
  dsimp only
  rw [hbusy']
  dsimp only
  rw [hkind, Bool.false_or, hbad, if_neg hplace]
  exact (apply_ite (fun x : State => (.next x : Out)) _ _ _).symm

theorem mailboxEvent : MailboxEvent := by
  intro s pa hbusy hplace u op ends
  have hgood (hlo : 1 ≤ op) (hhi : op ≤ 12) : (op == 0 || decide (12 < op)) = false := by
    rw [Bool.or_eq_false_iff, beq_eq_false_iff_ne, decide_eq_false_iff_not]
    exact ⟨Nat.one_le_iff_ne_zero.mp hlo, Nat.not_lt.mpr hhi⟩
  refine ⟨fun hop => ?_, fun hlo hhi hnone => ?_, fun st hlo hhi hsome => ?_⟩
  · have hbad : (op == 0 || decide (12 < op)) = true := by
      rw [Bool.or_eq_true, beq_iff_eq, decide_eq_true_eq]
      exact hop
    exact (secpComplete_eq hbusy hplace hbad).trans (congrArg _ (if_neg (fun hc => Bool.false_ne_true hc.1)))
  · exact (secpComplete_eq hbusy hplace (hgood hlo hhi)).trans (congrArg _ (if_pos ⟨rfl, by rw [hnone]; rfl⟩))
  · have he := secpComplete_eq hbusy hplace (hgood hlo hhi)
    rw [hsome] at he
    exact he.trans (congrArg _ (if_neg (fun hc => Bool.false_ne_true hc.2)))

theorem replied_nil (m : State) (pa st : Nat) : replied m pa st [] = { m with secp := { m.secp with result := some st } } := by
  unfold replied
  rw [if_neg (fun hc => hc.2 rfl)]

theorem replied_nil_memory (m : State) (pa st : Nat) : (replied m pa st []).tlb = m.tlb ∧ (replied m pa st []).mem = m.mem := by
  rw [replied_nil]
  exact ⟨rfl, rfl⟩

theorem replied_secp (m : State) (pa st : Nat) (out : List Byte) : (replied m pa st out).secp.result = some st := rfl

theorem replied_memStep (m : State) (pa st : Nat) (out : List Byte) : ∃ t, MemStep m t ∧ replied m pa st out = { t with secp := { t.secp with result := some st } } := by
  refine ⟨_, ?_, rfl⟩
  split
  · exact writeKey_memStep ..
  · exact .refl m

end Mailbox

/-! ## Digests -/

section Digests

theorem keccakRound_length (a : List DWord) (rc : DWord) : (keccakRound a rc).length = 25 := by
  unfold keccakRound
  dsimp only
  rw [List.length_set, List.length_map, List.length_range]

theorem keccak_length {a : List DWord} (h : a.length = 25) : (keccak a).length = 25 :=
  List.foldlRecOn (motive := fun (b : List DWord) => b.length = 25) _ _ h (fun b _ rc _ => keccakRound_length b rc)

theorem shakeAbsorb_length (k : Nat) {a : List DWord} (h : a.length = 25) (bs : List Byte) : (shakeAbsorb k a bs).length = 25 := by
  induction k generalizing a bs with
  | zero => exact h
  | succ k ih =>
    unfold shakeAbsorb
    split
    · exact h
    · exact ih (keccak_length (by rw [List.length_map, List.length_range])) _

theorem lanes_length (as : List DWord) : (as.flatMap (fun w => leBytes 8 w.toNat)).length = 8 * as.length := by
  induction as with
  | nil => rfl
  | cons a as ih => rw [List.flatMap_cons, List.length_append, ih, StoreRows.leBytes_length, List.length_cons]; omega

theorem shake256_length (bs : List Byte) : (shake256 bs).length = 64 := by
  have h : (shakeState bs).length = 25 := shakeAbsorb_length _ (List.length_replicate ..) _
  unfold shake256 shakeSqueeze shakeSqueeze
  rw [List.append_nil, List.length_take, lanes_length, List.length_take, h]
  rfl

theorem exactly_length (n : Nat) (b : List Byte) : (exactly n b).length = n := by
  unfold exactly
  rw [List.length_take, List.length_append, List.length_replicate]
  omega

theorem exactly_self {n : Nat} {b : List Byte} (h : b.length = n) : exactly n b = b := by
  unfold exactly
  rw [← h]
  exact List.take_left

end Digests

/-! ## Identity (R427, R432) -/

section Identity

variable {s : State} {pa : Nat} {p : List Byte}

theorem xm_length (s : State) (ctx : Nat) : (s.xm ctx).length = 64 := by
  unfold State.xm
  refine List.foldlRecOn (motive := fun (x : List Byte) => x.length = 64) _ _ (List.length_replicate ..) (fun x hx port _ => ?_)
  refine List.foldlRecOn (motive := fun (x : List Byte) => x.length = 64) _ _ hx (fun x hx i _ => ?_)
  dsimp only
  split
  · exact hx
  · exact shake256_length _

/-- A part of a text stands after what comes before it. -/
theorem slice_append (a b c : List Byte) {m n : Nat} (hm : a.length = m) (hn : b.length = n) : ((a ++ b ++ c).drop m).take n = b := by
  rw [List.append_assoc, ← hm, List.drop_left, ← hn, List.take_left]

/-- The context part of a report: CM, and the multi-package context (R432). -/
theorem reportBody_eq (u : State) (ctx : Nat) (nonce : List Byte) : ∃ x cm mid ep, cm.length = 64 ∧ u.reportBody ctx nonce =
    leBytes 4 1 ++ leBytes 4 x ++ exactly 64 nonce ++ idd ++ exactly 64 u.secp.fm ++ u.xm ctx ++ cm ++ leBytes 8 u.clock.toNat ++ leBytes 4 mid ++ leBytes 4 ep := by
  unfold State.reportBody
  refine ⟨_, _, _, _, ?_, rfl⟩
  cases u.sealedBy ctx with
  | none => exact List.length_replicate ..
  | some d => exact exactly_length ..

theorem idd_length : idd.length = 64 := shake256_length _

theorem reportBody_length (u : State) (ctx : Nat) (nonce : List Byte) : (u.reportBody ctx nonce).length = 344 := by
  obtain ⟨x, cm, mid, ep, hcm, h⟩ := reportBody_eq u ctx nonce
  rw [h]
  simp only [List.length_append, StoreRows.leBytes_length, exactly_length, idd_length, xm_length, hcm]

theorem reportBody_nonce (u : State) (ctx : Nat) {nonce : List Byte} (hn : nonce.length = 64) : ((u.reportBody ctx nonce).drop 8).take 64 = nonce := by
  obtain ⟨x, cm, mid, ep, -, h⟩ := reportBody_eq u ctx nonce
  rw [h, exactly_self hn]
  simp only [List.append_assoc (_ ++ _ ++ nonce)]
  exact slice_append _ _ _ (by rw [List.length_append, StoreRows.leBytes_length, StoreRows.leBytes_length]) hn

theorem reportBody_idd (u : State) (ctx : Nat) (nonce : List Byte) : ((u.reportBody ctx nonce).drop 72).take 64 = idd := by
  obtain ⟨x, cm, mid, ep, -, h⟩ := reportBody_eq u ctx nonce
  rw [h]
  simp only [List.append_assoc (_ ++ _ ++ _ ++ idd)]
  exact slice_append _ _ _ (by rw [List.length_append, List.length_append, StoreRows.leBytes_length, StoreRows.leBytes_length, exactly_length]) idd_length

theorem identityCommands : IdentityCommands := by
  intro s pa p u
  refine ⟨fun h => (exec_getid s).trans (secpCommand_asked h rfl),
    fun h => ⟨fun hbad => (exec_attest s).trans (secpCommand_asked h (if_pos hbad)), fun hlen hctx => ?_⟩⟩
  intro body
  have hn : ((p.drop 4).take 64).length = 64 := by
    rw [List.length_take, List.length_drop]
    omega
  refine ⟨(exec_attest s).trans (secpCommand_asked h (if_neg (not_or.mpr ⟨Nat.not_lt.mpr hlen, Nat.not_le.mpr hctx⟩))), reportBody_length .., reportBody_nonce _ _ hn, reportBody_idd ..⟩

end Identity

/-! ## Key-domains (R429, R431) -/

section Owners

theorem keyOf_setKey (l : List (Nat × Nat)) (x y : Nat) {k : Nat} (hk : k ≠ 0) : keyOf (setKey l x k) y = if y = x then k else keyOf l y := by
  induction l with
  | nil =>
    unfold setKey
    rw [if_neg hk]
    simp only [keyOf, eq_comm]
  | cons p r ih =>
    obtain ⟨a, j⟩ := p
    unfold setKey
    by_cases hlt : x < a
    · rw [if_pos hlt, if_neg hk]
      simp only [keyOf, eq_comm (a := x)]
    · rw [if_neg hlt]
      by_cases heq : x = a
      · rw [if_pos heq, if_neg hk]
        simp only [keyOf, eq_comm (a := y), heq]
        split <;> rfl
      · rw [if_neg heq]
        simp only [keyOf, ih]
        by_cases hy : y = x
        · rw [if_pos hy, if_neg (fun h => heq (hy.symm.trans h.symm)), if_pos hy]
        · rw [if_neg hy, if_neg hy]

/-- Frames marked one after the other (R431). -/
theorem keyOf_marked (fs : List Nat) (o : List (Nat × Nat)) {d : Nat} (hd : d ≠ 0) (f : Nat) :
    keyOf (fs.foldl (fun o f => setKey o f d) o) f = if f ∈ fs then d else keyOf o f := by
  induction fs generalizing o with
  | nil => rfl
  | cons g gs ih =>
    rw [List.foldl_cons, ih, keyOf_setKey o g f hd]
    by_cases hin : f ∈ gs
    · rw [if_pos hin, if_pos (List.mem_cons_of_mem g hin)]
    · rw [if_neg hin]
      exact if_congr (by rw [List.mem_cons]; exact ⟨.inl, fun h => h.resolve_right hin⟩) rfl rfl

end Owners

section KeyDomains

variable {s : State} {pa d : Nat} {p : List Byte}

theorem kdArg_bounds (h : kdArg p = some d) : 4 ≤ p.length ∧ d ≠ 0 ∧ d < 256 := by
  unfold kdArg at h
  split at h
  · next hc =>
    obtain ⟨hlen, hne, hlt⟩ := hc
    rw [← Option.some.inj h]
    exact ⟨hlen, hne, hlt⟩
  · exact nomatch h

theorem kdopen_event (h : Asked s 3 pa p) : (kdArg p = none → exec .kdopen s = .next (replied (fresh s) pa 2 [])) ∧ ∀ d, kdArg p = some d →
    ((s.kd d).st ≠ 0 → exec .kdopen s = .next (replied (fresh s) pa 4 [])) ∧
    ((s.kd d).st = 0 → exec .kdopen s = .next (replied { fresh s with
      order := s.order + 1, kds := s.kds.set d { KeyDom.reset with st := 1, key := s.order } } pa 0 [])) := by
  refine ⟨fun hd => (exec_kdopen s).trans (secpCommand_asked h ?_), fun d hd => ⟨fun hst => (exec_kdopen s).trans (secpCommand_asked h ?_),
    fun hst => (exec_kdopen s).trans (secpCommand_asked h ?_)⟩⟩
  · rw [hd]
  · rw [hd]
    exact if_pos hst
  · rw [hd]
    exact if_neg (not_not.mpr hst)

theorem kdclose_event (h : Asked s 5 pa p) : (kdArg p = none → exec .kdclose s = .next (replied (fresh s) pa 2 [])) ∧ ∀ d, kdArg p = some d →
    ((s.kd d).st = 0 → exec .kdclose s = .next (replied (fresh s) pa 4 [])) ∧
    ((s.kd d).st ≠ 0 → exec .kdclose s = .next (replied { fresh s with
      kds := s.kds.set d KeyDom.reset, owners := s.owners.filter (fun q => q.2 ≠ d) } pa 0 [])) := by
  refine ⟨fun hd => (exec_kdclose s).trans (secpCommand_asked h ?_), fun d hd => ⟨fun hst => (exec_kdclose s).trans (secpCommand_asked h ?_),
    fun hst => (exec_kdclose s).trans (secpCommand_asked h ?_)⟩⟩
  · rw [hd]
  · rw [hd]
    exact if_pos hst
  · rw [hd]
    exact if_neg hst

theorem kds_set_same (hd : d < s.kds.length) (k : KeyDom) (t : State) (ht : t.kds = s.kds.set d k) : t.kd d = k := by
  unfold State.kd
  rw [ht]
  exact CoxSequenceRows.getD_set_self hd

theorem kds_set_other {e : Nat} (he : e ≠ d) (k : KeyDom) (t : State) (ht : t.kds = s.kds.set d k) : t.kd e = s.kd e := by
  unfold State.kd
  rw [ht, List.getD_eq_getElem?_getD, List.getElem?_set_ne he.symm, List.getD_eq_getElem?_getD]

/-- The pages of the ranges that a context's measurement lists, each with its frames where it lies in HBM. -/
def sealPages (u : State) (ctx : Nat) (ranges : List (Nat × Nat)) : List (Option (Nat × List Nat)) :=
  ranges.flatMap (fun r => (pieces r.1 (r.2 / 65536 + 2) r.2).map (fun q => u.hbmAt (u.domain (u.ctxDesc ctx).dom) q.1))

/-- The frames that a context has when it is sealed: of its ranges and of its page tables. -/
def sealFrames (u : State) (ctx : Nat) (pages : List (Option (Nat × List Nat))) : List Nat :=
  (pages.filterMap id).flatMap (fun x => x.2) ++ (u.tableFrames 3 (u.domain (u.ctxDesc ctx).dom).root).filter (fun f => decide (f < 2 ^ 18))

theorem flatMap_toList (ps : List (Option (Nat × List Nat))) : ps.flatMap (fun q => q.toList.flatMap (fun x => x.2)) = (ps.filterMap id).flatMap (fun x => x.2) := by
  induction ps with
  | nil => rfl
  | cons q qs ih =>
    cases q with
    | none => exact ih
    | some x =>
      rw [List.flatMap_cons, ih, show (some x :: qs).filterMap id = x :: qs.filterMap id from rfl, List.flatMap_cons, Option.toList_some, List.flatMap_singleton]

theorem any_isNone {ps : List (Option (Nat × List Nat))} : ps.any (fun q => q.isNone) = true ↔ none ∈ ps := by
  rw [List.any_eq_true]
  exact ⟨fun ⟨q, hq, hn⟩ => Option.isNone_iff_eq_none.mp hn ▸ hq, fun h => ⟨none, h, rfl⟩⟩

/-- A frame of another key-domain. -/
theorem any_foreign {o : List (Nat × Nat)} {frames : List Nat} : frames.any (fun f => keyOf o f ≠ 0 && keyOf o f ≠ d) = true ↔
    ∃ f ∈ frames, keyOf o f ≠ 0 ∧ keyOf o f ≠ d := by
  simp only [List.any_eq_true, Bool.and_eq_true, decide_eq_true_eq]

/-- CM of a context as it is sealed (R431). -/
def sealDigest (u : State) (ctx d : Nat) (ranges : List (Nat × Nat)) : List Byte :=
  ranges.foldl (fun cm r => shake256 (cm ++ (pieces r.1 (r.2 / 65536 + 2) r.2).flatMap (fun q =>
    match u.hbmAt (u.domain (u.ctxDesc ctx).dom) q.1 with
    | some x => u.release.readKey x.1 (u.kd d).key q.2
    | none => []))) (shake256 (u.ctxBytes ctx))

theorem sealDigest_length (u : State) (ctx d : Nat) (ranges : List (Nat × Nat)) : (sealDigest u ctx d ranges).length = 64 :=
  List.foldlRecOn (motive := fun (x : List Byte) => x.length = 64) _ _ (shake256_length _) (fun _ _ _ _ => shake256_length _)

theorem kdseal_checks (h : Asked s 4 pa p) (hd : kdArg p = some d) (hlen : 8 ≤ p.length) :
    let u := fresh s
    let ctx := fieldOf p 4 4
    let ranges := listRanges p.length (p.drop 8)
    let pages := sealPages u ctx ranges
    (65536 ≤ ctx ∨ (u.ctxDesc ctx).valid = false ∨ none ∈ pages → exec .kdseal s = .next (replied u pa 2 [])) ∧
    (ctx < 65536 → (u.ctxDesc ctx).valid = true → none ∉ pages →
      ((s.kd d).st ≠ 1 ∨ u.sealedBy ctx ≠ none ∨ (∃ f ∈ sealFrames u ctx pages, keyOf s.owners f ≠ 0 ∧ keyOf s.owners f ≠ d) →
        exec .kdseal s = .next (replied u pa 4 [])) ∧
      ((s.kd d).st = 1 → u.sealedBy ctx = none → (∀ f ∈ sealFrames u ctx pages, keyOf s.owners f = 0 ∨ keyOf s.owners f = d) →
        ∃ cm : List Byte, cm.length = 64 ∧ exec .kdseal s = .next (replied ((u.release.setOwner d (sealFrames u ctx pages)).setKd d
          { st := 2, key := (s.kd d).key, ctx := ctx, ranges := ranges, cm := cm }) pa 0 cm))) := by
  intro u ctx ranges pages
  have hrun {t : State} {st : Nat} {out : List Byte} (ht : (if p.length < 8 ∨ 65536 ≤ ctx ∨ (!(u.ctxDesc ctx).valid) = true ∨ pages.any (fun q => q.isNone) = true
      then (u, 2, []) else if (u.kd d).st ≠ 1 ∨ (u.sealedBy ctx).isSome = true ∨
        (sealFrames u ctx pages).any (fun f => keyOf u.owners f ≠ 0 && keyOf u.owners f ≠ d) = true then (u, 4, [])
      else ((u.release.setOwner d (sealFrames u ctx pages)).setKd d { st := 2, key := (u.kd d).key, ctx := ctx, ranges := ranges, cm := sealDigest u ctx d ranges }, 0,
        sealDigest u ctx d ranges)) = (t, st, out)) : exec .kdseal s = .next (replied t pa st out) := by
    refine (exec_kdseal s).trans (secpCommand_asked h ?_)
    rw [hd]
    dsimp only
    rw [flatMap_toList]
    exact ht
  refine ⟨fun hbad => hrun (if_pos ?_), fun hctx hvalid hmapped => ?_⟩
  · rcases hbad with hb | hb | hb
    · exact .inr (.inl hb)
    · exact .inr (.inr (.inl ((Bool.not_eq_true' _).mpr hb)))
    · exact .inr (.inr (.inr (any_isNone.mpr hb)))
  · have hgood : ¬ (p.length < 8 ∨ 65536 ≤ ctx ∨ (!(u.ctxDesc ctx).valid) = true ∨ pages.any (fun q => q.isNone) = true) := by
      rintro (hc | hc | hc | hc)
      · omega
      · omega
      · rw [hvalid] at hc
        exact absurd hc (by decide)
      · exact hmapped (any_isNone.mp hc)
    refine ⟨fun hst => hrun ((if_neg hgood).trans (if_pos ?_)), fun hst hnone hfree => ⟨_, sealDigest_length .., hrun ((if_neg hgood).trans (if_neg ?_))⟩⟩
    · rcases hst with hb | hb | hb
      · exact .inl hb
      · exact .inr (.inl (Option.isSome_iff_ne_none.mpr hb))
      · exact .inr (.inr (any_foreign.mpr hb))
    · rintro (hc | hc | hc)
      · exact hc hst
      · rw [hnone] at hc
        exact absurd hc (by decide)
      · obtain ⟨f, hf, h0, hne⟩ := any_foreign.mp hc
        exact (hfree f hf).elim h0 hne

theorem replied_owners (m : State) (pa st : Nat) (out : List Byte) : (replied m pa st out).owners = m.owners ∧ (replied m pa st out).kds = m.kds := by
  obtain ⟨t, ht, hr⟩ := replied_memStep m pa st out
  rw [hr]
  dsimp only
  rw [ht]
  exact ⟨rfl, rfl⟩

theorem release_owners (s : State) : s.release.owners = s.owners ∧ s.release.kds = s.kds := by
  rw [release_memStep s]
  exact ⟨rfl, rfl⟩

theorem kdseal_event (h : Asked s 4 pa p) (hkds : s.kds.length = 256) (hd : kdArg p = some d) (hlen : 8 ≤ p.length) :
    let u := fresh s
    let ctx := fieldOf p 4 4
    let ranges := listRanges p.length (p.drop 8)
    let pages := sealPages u ctx ranges
    let frames := sealFrames u ctx pages
    (65536 ≤ ctx ∨ (u.ctxDesc ctx).valid = false ∨ none ∈ pages → exec .kdseal s = .next (replied u pa 2 [])) ∧
    (ctx < 65536 → (u.ctxDesc ctx).valid = true → none ∉ pages →
      ((s.kd d).st ≠ 1 ∨ u.sealedBy ctx ≠ none ∨ (∃ f ∈ frames, keyOf s.owners f ≠ 0 ∧ keyOf s.owners f ≠ d) → exec .kdseal s = .next (replied u pa 4 [])) ∧
      ((s.kd d).st = 1 → u.sealedBy ctx = none → (∀ f ∈ frames, keyOf s.owners f = 0 ∨ keyOf s.owners f = d) →
        Answers (exec .kdseal s) (fun t => t.secp.result = some 0 ∧ (t.kd d).st = 2 ∧ (t.kd d).ctx = ctx ∧ (t.kd d).key = (s.kd d).key ∧
          (t.kd d).ranges = ranges ∧ (t.kd d).cm.length = 64 ∧ (∀ e, e ≠ d → t.kd e = s.kd e) ∧
          (∀ f ∈ frames, keyOf t.owners f = d) ∧ ∀ f, f ∉ frames → keyOf t.owners f = keyOf s.owners f))) := by
  intro u ctx ranges pages frames
  obtain ⟨-, hd0, hd256⟩ := kdArg_bounds hd
  obtain ⟨hbad, hmapped⟩ := kdseal_checks h hd hlen
  refine ⟨hbad, fun hctx hvalid hpages => ⟨(hmapped hctx hvalid hpages).1, fun hst hnone hfree => ?_⟩⟩
  obtain ⟨cm, hcm, hrun⟩ := (hmapped hctx hvalid hpages).2 hst hnone hfree
  refine ⟨_, hrun, replied_secp .., ?_⟩
  obtain ⟨howners, hkds'⟩ := replied_owners ((u.release.setOwner d frames).setKd d { st := 2, key := (s.kd d).key, ctx := ctx, ranges := ranges, cm := cm }) pa 0 cm
  obtain ⟨hro, hrk⟩ := release_owners u
  have hset := hkds'.trans (congrArg (fun l : List KeyDom => l.set d { st := 2, key := (s.kd d).key, ctx := ctx, ranges := ranges, cm := cm }) hrk)
  have hmark : (replied ((u.release.setOwner d frames).setKd d { st := 2, key := (s.kd d).key, ctx := ctx, ranges := ranges, cm := cm }) pa 0 cm).owners =
      frames.foldl (fun o f => setKey o f d) s.owners := howners.trans (congrArg (fun o => frames.foldl (fun o f => setKey o f d) o) hro)
  have hsame := kds_set_same (s := s) (by rw [hkds]; exact hd256) _ _ hset
  rw [hsame, hmark]
  refine ⟨rfl, rfl, rfl, rfl, hcm, fun e he => kds_set_other he _ _ hset, fun f hf => ?_, fun f hf => ?_⟩
  · rw [keyOf_marked _ _ hd0, if_pos hf]
  · rw [keyOf_marked _ _ hd0, if_neg hf]

theorem writeKey_replicas (s : State) (pa key : Nat) (bs : List Byte) : (s.writeKey pa key bs).replicas = s.replicas := by
  have hput (t : State) (pa : Nat) (bs : List Byte) : (t.putKey pa key bs).replicas = t.replicas :=
    (State.markKeys_frame { (t.keepPast false pa bs.length) with mem := t.mem.write pa bs } pa bs.length key).2.2.2.2.2.2
  unfold State.writeKey
  split
  · exact hput ..
  · refine foldl_keeps State.replicas (fun t p => ?_) _ s
    split
    · rfl
    · exact hput ..

/-- A release with nothing on its way writes nothing. -/
theorem release_mem {s : State} (ha : s.arriving = []) (hr : s.replicas = []) : s.release.mem = s.mem := by
  simp [State.release, State.drainArriving, State.drainReplicas, ha, hr]

/-- The frames of a leaf's page (R401, R431). -/
def mapFrames (leaf size : Nat) : List Nat :=
  (List.range (max 1 (size / 2 ^ 21))).flatMap (fun i => leafFrames leaf (bitsOf leaf 51 16 * 65536 + i * 2 ^ 21))

/-- The state after a leaf has been written for a key-domain. -/
def mapped (u : State) (d asid slot va leaf size : Nat) : State :=
  let t := (((u.setOwner d ((mapFrames leaf size).filter (fun f => decide (f < 2 ^ 18)))).writePa slot (leBytes 8 leaf)).release).invalidate (some asid) (some (va, size))
  { t with tlb := t.tlb.filter (fun (x : TlbEntry) => !(x.asid == asid && x.size == size && x.va == va)) }

theorem mapped_parts (u : State) (asid slot va leaf size : Nat) : (mapped u d asid slot va leaf size).kds = u.kds ∧
    (mapped u d asid slot va leaf size).owners = ((mapFrames leaf size).filter (fun f => decide (f < 2 ^ 18))).foldl (fun o f => setKey o f d) u.owners ∧
    (mapped u d asid slot va leaf size).tlb = u.tlb.filter (fun (x : TlbEntry) => !(x.asid == asid && x.size == size && x.va == va)) := by
  have hstep := (writeKey_memStep (u.setOwner d ((mapFrames leaf size).filter (fun f => decide (f < 2 ^ 18)))) slot 0 (leBytes 8 leaf)).trans (release_memStep _)
  unfold mapped State.invalidate
  dsimp only
  generalize hw : ((u.setOwner d ((mapFrames leaf size).filter (fun f => decide (f < 2 ^ 18)))).writePa slot (leBytes 8 leaf)).release = w
  rw [show w = _ from hw.symm.trans hstep]
  exact ⟨rfl, rfl, rfl⟩

theorem mapped_reads {u : State} {slot : Nat} (asid va leaf size : Nat) (hwf : u.mem.wf = true) (ha : u.arriving = []) (hr : u.replicas = [])
    (hopen : ∀ i, i < 8 → u.sealedEntry (slot + i) = false) : (mapped u d asid slot va leaf size).mem.read slot 8 = leBytes 8 leaf := by
  generalize hv : u.setOwner d ((mapFrames leaf size).filter (fun f => decide (f < 2 ^ 18))) = v
  have hmem : (mapped u d asid slot va leaf size).mem = (v.writeKey slot 0 (leBytes 8 leaf)).mem := by
    refine Eq.trans ?_ (release_mem ?_ ?_)
    · rw [← hv]
      rfl
    · rw [writeKey_arriving, ← hv]
      exact ha
    · rw [writeKey_replicas, ← hv]
      exact hr
  have hvopen (i : Nat) (hi : i < 8) : v.sealedEntry (slot + i) = false := by
    rw [← hv]
    exact hopen i hi
  have hvwf : v.mem.wf = true := by
    rw [← hv]
    exact hwf
  rw [hmem, read_eq_map]
  refine List.ext_getElem (by rw [List.length_map, List.length_range, StoreRows.leBytes_length]) fun i hi hi' => ?_
  have hi8 : i < 8 := by rwa [List.length_map, List.length_range] at hi
  rw [List.getElem_map, List.getElem_range, writeKey_get hvwf, if_pos ⟨Nat.le_add_right .., by rw [StoreRows.leBytes_length]; omega, hvopen i hi8⟩,
    Nat.add_sub_cancel_left, List.getD_eq_getElem _ _ hi']

theorem any_taken {o : List (Nat × Nat)} {frames : List Nat} : frames.any (fun f => decide (f < 2 ^ 18) && keyOf o f ≠ 0 && keyOf o f ≠ d) = true ↔
    ∃ f ∈ frames, f < 2 ^ 18 ∧ keyOf o f ≠ 0 ∧ keyOf o f ≠ d := by
  simp only [List.any_eq_true, Bool.and_eq_true, decide_eq_true_eq, and_assoc]

theorem sealedBy_ne_zero {u : State} {ctx : Nat} (h : u.sealedBy ctx = some d) : d ≠ 0 := by
  have hd := List.find?_some h
  simp only [Bool.and_eq_true, decide_eq_true_eq] at hd
  exact hd.2

theorem kdmap_event (h : Asked s 6 pa p) :
    let u := fresh s
    let ctx := fieldOf p 0 4
    let va := fieldOf p 4 8
    let leaf := fieldOf p 12 8
    let size := fieldOf p 20 4
    24 ≤ p.length → size ∈ [0x10000, 0x200000, 0x40000000] → canonical va = true → va % size = 0 → bitOf leaf 0 = true → bitOf leaf 1 = true →
    u.leafBad (BitVec.ofNat 64 leaf) size = false →
    (u.sealedBy ctx = none → exec .kdmap s = .next (replied u pa 4 [])) ∧
    (∀ d f, u.sealedBy ctx = some d → f ∈ mapFrames leaf size → f < 2 ^ 18 → keyOf s.owners f ≠ 0 → keyOf s.owners f ≠ d → exec .kdmap s = .next (replied u pa 4 [])) ∧
    ∀ d slot, u.sealedBy ctx = some d → u.leafSlot (u.domain (u.ctxDesc ctx).dom).root va size = some slot →
      (∀ f ∈ mapFrames leaf size, 2 ^ 18 ≤ f ∨ keyOf s.owners f = 0 ∨ keyOf s.owners f = d) →
      exec .kdmap s = .next (replied (mapped u d (u.domain (u.ctxDesc ctx).dom).asid slot va leaf size) pa 0 []) := by
  intro u ctx va leaf size hlen hsize hva hoff hv hl hleaf
  have hgood : ¬ (p.length < 24 ∨ (!([0x10000, 0x200000, 0x40000000].contains size)) = true ∨ (!canonical va) = true ∨ va % size ≠ 0 ∨ (!bitOf leaf 0) = true ∨
      (!bitOf leaf 1) = true ∨ u.leafBad (BitVec.ofNat 64 leaf) size = true) := by
    rw [List.contains_iff_mem.mpr hsize, hva, hv, hl, hleaf]
    rintro (hc | hc | hc | hc | hc | hc | hc)
    · omega
    all_goals simp_all
  refine ⟨fun hnone => (exec_kdmap s).trans (secpCommand_asked h ((if_neg hgood).trans ?_)), fun d f hd hf hlt h0 hne =>
    (exec_kdmap s).trans (secpCommand_asked h ((if_neg hgood).trans ?_)), fun d slot hd hslot hfree => (exec_kdmap s).trans (secpCommand_asked h ((if_neg hgood).trans ?_))⟩
  · rw [hnone]
  · rw [hd]
    exact if_pos (any_taken.mpr ⟨f, hf, hlt, h0, hne⟩)
  · rw [hd]
    refine (if_neg fun hc => ?_).trans ?_
    · obtain ⟨f, hf, hlt, h0, hne⟩ := any_taken.mp hc
      exact (hfree f hf).elim (Nat.not_le.mpr hlt) (fun hk => hk.elim h0 hne)
    · dsimp only
      rw [show (fresh s).leafSlot ((fresh s).domain ((fresh s).ctxDesc (fieldOf p 0 4)).dom).root (fieldOf p 4 8) (fieldOf p 20 4) = some slot from hslot]
      rfl

/-- What a KDMAP leaves, as the mailbox sees it (R431). -/
theorem mapped_effects {u : State} (hd : d ≠ 0) (pa asid slot va leaf size : Nat) :
    let t := replied (mapped u d asid slot va leaf size) pa 0 []
    t.secp.result = some 0 ∧ t.kds = u.kds ∧
      (u.mem.wf = true → u.arriving = [] → u.replicas = [] → (∀ i, i < 8 → u.sealedEntry (slot + i) = false) → t.mem.read slot 8 = leBytes 8 leaf) ∧
      (∀ f ∈ mapFrames leaf size, f < 2 ^ 18 → keyOf t.owners f = d) ∧ (∀ f, f ∉ mapFrames leaf size → keyOf t.owners f = keyOf u.owners f) ∧
      ∀ e ∈ t.tlb, e ∈ u.tlb ∧ ¬(e.asid = asid ∧ e.size = size ∧ e.va = va) := by
  intro t
  obtain ⟨hk, ho, ht⟩ := mapped_parts (d := d) u asid slot va leaf size
  have hread := mapped_reads (d := d) (u := u) (slot := slot) asid va leaf size
  have hkeys (f : Nat) : keyOf t.owners f = if f ∈ (mapFrames leaf size).filter (fun f => decide (f < 2 ^ 18)) then d else keyOf u.owners f := by
    rw [show t.owners = (mapped u d asid slot va leaf size).owners from (replied_owners ..).1, ho, keyOf_marked _ _ hd]
  have htlb : t.tlb = (mapped u d asid slot va leaf size).tlb := (replied_nil_memory ..).1
  have hmem : t.mem = (mapped u d asid slot va leaf size).mem := (replied_nil_memory ..).2
  refine ⟨replied_secp .., (replied_owners ..).2.trans hk, fun hwf ha hr hopen => ?_, fun f hf hlt => ?_, fun f hf => ?_, fun e he => ?_⟩
  · rw [hmem]
    exact hread hwf ha hr hopen
  · exact (hkeys f).trans (if_pos (List.mem_filter.mpr ⟨hf, decide_eq_true hlt⟩))
  · exact (hkeys f).trans (if_neg fun hc => hf (List.mem_filter.mp hc).1)
  · rw [htlb, ht] at he
    obtain ⟨hin, hkeep⟩ := List.mem_filter.mp he
    refine ⟨hin, fun ⟨h1, h2, h3⟩ => ?_⟩
    rw [h1, h2, h3, beq_self_eq_true, beq_self_eq_true, beq_self_eq_true] at hkeep
    exact Bool.false_ne_true hkeep

end KeyDomains

theorem keyDomainCommands : KeyDomainCommands := by
  intro s pa p hkds u
  refine ⟨kdopen_event, kdclose_event, fun h d hd hlen => kdseal_event h hkds hd hlen, fun h => ?_⟩
  intro ctx va leaf size at0 hlen hsize hva hoff hv hl hleaf
  obtain ⟨hnone, htaken, hmaps⟩ := kdmap_event h hlen hsize hva hoff hv hl hleaf
  refine ⟨hnone, htaken, fun d slot hd hslot hfree => ⟨_, hmaps d slot hd hslot hfree, ?_⟩⟩
  exact mapped_effects (sealedBy_ne_zero hd) pa _ slot va leaf size

/-! ## Link keys and multi-package contexts (R435 to R439) -/

section Packages

variable {s : State} {pa : Nat} {p : List Byte}

theorem rekey_event (h : Asked s 7 pa p) :
    (p.length < 4 ∨ 32 ≤ fieldOf p 0 4 → exec .rekey s = .next (replied (fresh s) pa 2 [])) ∧
    (4 ≤ p.length → fieldOf p 0 4 < 32 →
      ((s.port (fieldOf p 0 4)).txst = 0 → exec .rekey s = .next (replied (fresh s) pa 4 [])) ∧
      ((s.port (fieldOf p 0 4)).txst ≠ 0 → exec .rekey s = .next (replied ((fresh s).modPort (fieldOf p 0 4) (fun y => { y with exch := 1 })) pa 0 []))) := by
  refine ⟨fun hbad => (exec_rekey s).trans (secpCommand_asked h (if_pos hbad)), fun hlen hi => ?_⟩
  have hgood : ¬ (p.length < 4 ∨ 32 ≤ fieldOf p 0 4) := not_or.mpr ⟨Nat.not_lt.mpr hlen, Nat.not_le.mpr hi⟩
  exact ⟨fun hst => (exec_rekey s).trans (secpCommand_asked h ((if_neg hgood).trans (if_pos hst))),
    fun hst => (exec_rekey s).trans (secpCommand_asked h ((if_neg hgood).trans (if_neg hst)))⟩

theorem any_id {ms : List Mpc} {i : Nat} : ms.any (fun m => m.id == i) = true ↔ ∃ m ∈ ms, m.id = i := by
  simp only [List.any_eq_true, beq_iff_eq]

theorem mpcset_event (h : Asked s 8 pa p) :
    (p.length ≠ 1872 ∨ fieldOf p 0 4 = 0 ∨ fieldOf p 6 2 ≠ 0 ∨ fieldOf p 1865 7 ≠ 0 → exec .mpcset s = .next (replied (fresh s) pa 2 [])) ∧
    (p.length = 1872 → fieldOf p 0 4 ≠ 0 → fieldOf p 6 2 = 0 → fieldOf p 1865 7 = 0 →
      ((∃ m ∈ s.mpcs, m.id = fieldOf p 0 4) → exec .mpcset s = .next (replied (fresh s) pa 4 [])) ∧
      ((∀ m ∈ s.mpcs, m.id ≠ fieldOf p 0 4) → 16 ≤ s.mpcs.length → exec .mpcset s = .next (replied (fresh s) pa 5 [])) ∧
      ((∀ m ∈ s.mpcs, m.id ≠ fieldOf p 0 4) → s.mpcs.length < 16 → exec .mpcset s = .next (replied { fresh s with mpcs := s.mpcs ++ [{
        id := fieldOf p 0 4, ctx := fieldOf p 4 2, policy := (p.drop 8).take 64, key := (p.drop 72).take 1793, members := 0#256, epoch := 0 }] } pa 0 []))) := by
  refine ⟨fun hbad => (exec_mpcset s).trans (secpCommand_asked h (if_pos hbad)), fun hlen hid hrsv hend => ?_⟩
  have hgood : ¬ (p.length ≠ 1872 ∨ fieldOf p 0 4 = 0 ∨ fieldOf p 6 2 ≠ 0 ∨ fieldOf p 1865 7 ≠ 0) := by
    rintro (hc | hc | hc | hc) <;> contradiction
  have hnew (hno : ∀ m ∈ s.mpcs, m.id ≠ fieldOf p 0 4) : ¬ s.mpcs.any (fun m => m.id == fieldOf p 0 4) = true :=
    fun hc => (any_id.mp hc).elim fun m hm => hno m hm.1 hm.2
  exact ⟨fun hex => (exec_mpcset s).trans (secpCommand_asked h ((if_neg hgood).trans (if_pos (any_id.mpr hex)))),
    fun hno hfull => (exec_mpcset s).trans (secpCommand_asked h ((if_neg hgood).trans ((if_neg (hnew hno)).trans (if_pos hfull)))),
    fun hno hroom => (exec_mpcset s).trans (secpCommand_asked h ((if_neg hgood).trans ((if_neg (hnew hno)).trans (if_neg (Nat.not_le.mpr hroom)))))⟩

theorem mpcjoin_event (h : Asked s 9 pa p) (hlen : 4 ≤ p.length) (hwhole : (p.length - 4) % 1628 = 0) :
    (s.mpcs.find? (fun m => m.id == fieldOf p 0 4) = none → exec .mpcjoin s = .next (replied (fresh s) pa 4 [])) ∧
    ∀ m, s.mpcs.find? (fun m => m.id == fieldOf p 0 4) = some m →
      let b := m.members ||| joins m p.length (p.drop 4)
      exec .mpcjoin s = .next (replied { fresh s with mpcs := s.mpcs.map (fun x => if x.id = m.id then { x with members := b } else x) } pa 0 (leBytes 32 b.toNat)) := by
  have hgood : ¬ (p.length < 4 ∨ (p.length - 4) % 1628 ≠ 0) := not_or.mpr ⟨Nat.not_lt.mpr hlen, not_not.mpr hwhole⟩
  refine ⟨fun hnone => (exec_mpcjoin s).trans (secpCommand_asked h ((if_neg hgood).trans ?_)),
    fun m hm => (exec_mpcjoin s).trans (secpCommand_asked h ((if_neg hgood).trans ?_))⟩
  · rw [show (fresh s).mpcs.find? (fun m => m.id == fieldOf p 0 4) = none from hnone]
  · rw [show (fresh s).mpcs.find? (fun m => m.id == fieldOf p 0 4) = some m from hm]
    rfl

theorem modGroup_mpcs (s : State) (g : Nat) (f : Group → Group) : (s.modGroup g f).mpcs = s.mpcs := rfl

theorem applyAbort_mpcs (s : State) (g : Nat) : (s.applyAbort g).mpcs = s.mpcs := by
  obtain ⟨u, hu, h⟩ := applyAbort_eq s g
  rw [h]
  exact congrArg Prod.snd hu

theorem startAbort_mpcs (s : State) (g seq : Nat) : (s.startAbort g seq).mpcs = s.mpcs :=
  congrArg Prod.snd (FabStep.standing (startAbort_fabStep s g seq))

theorem failOp_mpcs (s : State) (o : Op) {st : Nat} (h : ¬ (st = 3 ∨ st = 5 ∨ st = 6)) : (s.failOp o st).mpcs = s.mpcs := by
  unfold State.failOp
  rw [if_neg h]
  exact congrArg Prod.snd (OpsStep.standing (finishOp_opsStep ..))

/-- The standing of the contexts of several packages after a revocation. -/
theorem revoked_mpcs (u : State) (m : Mpc) (a epoch : Nat) : (u.revoked m a epoch).mpcs = u.mpcs.map (fun x => if x.id = m.id then
    { x with members := x.members &&& ~~~(1#256 <<< a), epoch := epoch } else x) := by
  unfold State.revoked
  have hgroups (t : State) (i : Nat) : (if (t.grp i).v ∧ (t.grp i).ctx = m.ctx ∧ (t.grp i).memb.getLsbD a then
      ((t.startAbort i (t.grp i).seq).applyAbort i).modGroup i (fun x => { x with v := false }) else t).mpcs = t.mpcs := by
    split
    · rw [modGroup_mpcs, applyAbort_mpcs, startAbort_mpcs]
    · rfl
  have hops (t : State) (o : Op) : (t.failOp o (if (t.heldPort o).isSome then 8 else 7)).mpcs = t.mpcs :=
    failOp_mpcs t o (by split <;> decide)
  have hports (t : State) (i : Nat) : (if t.expected i = some a ∧ (t.port i).txst ≠ 0 then t.modPort i (fun y => { y with exch := 2 }) else t).mpcs = t.mpcs := by
    split <;> rfl
  refine (foldl_keeps State.mpcs hports _ _).trans ?_
  dsimp only
  refine (foldl_keeps State.mpcs hops _ _).trans ?_
  exact (foldl_keeps State.mpcs hgroups _ _).trans rfl

theorem memStep_mpcs {s t : State} (h : MemStep s t) : t.mpcs = s.mpcs := by rw [h]

theorem revoke_event (h : Asked s 10 pa p) (hlen : p.length = 1356) {m : Mpc} (hm : s.mpcs.find? (fun m => m.id == fieldOf p 0 4) = some m) :
    let good := falconVerify m.key (shake256 (p.take 76)) (p.drop 76)
    (good = false → exec .revoke s = .next (replied (fresh s) pa 3 [])) ∧
    (good = true → fieldOf p 4 4 ≤ m.epoch → exec .revoke s = .next (replied (fresh s) pa 4 [])) ∧
    (good = true → m.epoch < fieldOf p 4 4 → ¬(fieldOf p 8 1 = s.own ∧ (p.drop 12).take 64 = idd) →
      exec .revoke s = .next (replied ((fresh s).revoked m (fieldOf p 8 1) (fieldOf p 4 4)) pa 0 [])) ∧
    (good = true → m.epoch < fieldOf p 4 4 → fieldOf p 8 1 = s.own ∧ (p.drop 12).take 64 = idd →
      exec .revoke s = .next (replied { (fresh s).terminate m.ctx with mpcs := s.mpcs.map (fun x =>
        if x.id = m.id then { x with epoch := fieldOf p 4 4 } else x) } pa 0 [])) := by
  intro good
  have hfind : (fresh s).mpcs.find? (fun m => m.id == fieldOf p 0 4) = some m := hm
  have hrun {t : State} {st : Nat} (ht : (if !good then (fresh s, 3, []) else if fieldOf p 4 4 ≤ m.epoch then (fresh s, 4, [])
      else if fieldOf p 8 1 = (fresh s).own ∧ (p.drop 12).take 64 = idd then
        ({ (fresh s).terminate m.ctx with mpcs := (fresh s).mpcs.map (fun (x : Mpc) => if x.id = m.id then { x with epoch := fieldOf p 4 4 } else x) }, 0, [])
      else ((fresh s).revoked m (fieldOf p 8 1) (fieldOf p 4 4), 0, [])) = (t, st, ([] : List Byte))) : exec .revoke s = .next (replied t pa st []) := by
    refine (exec_revoke s).trans (secpCommand_asked h ((if_neg (not_not.mpr hlen)).trans ?_))
    rw [hfind]
    exact ht
  refine ⟨fun hg => hrun (if_pos (by rw [hg]; rfl)), fun hg hle => hrun ((if_neg (by rw [hg]; decide)).trans (if_pos hle)),
    fun hg hlt hother => hrun ((if_neg (by rw [hg]; decide)).trans ((if_neg (Nat.not_le.mpr hlt)).trans (if_neg hother))),
    fun hg hlt hown => hrun ((if_neg (by rw [hg]; decide)).trans ((if_neg (Nat.not_le.mpr hlt)).trans (if_pos hown)))⟩

theorem packageCommands : PackageCommands := by
  intro s pa p u
  refine ⟨rekey_event, mpcset_event, mpcjoin_event, fun h hlen m hm => ?_⟩
  obtain ⟨hforged, hlate, hother, hown⟩ := revoke_event h hlen hm
  refine ⟨hforged, hlate, fun hg hlt hne => ⟨_, hother hg hlt hne, replied_secp .., ?_⟩, fun hg hlt ho hi => hown hg hlt ⟨ho, hi⟩⟩
  obtain ⟨t, ht, hr⟩ := replied_memStep ((fresh s).revoked m (fieldOf p 8 1) (fieldOf p 4 4)) pa 0 []
  rw [hr]
  dsimp only
  rw [memStep_mpcs ht, revoked_mpcs]
  rfl

end Packages

/-! ## Firmware (R455) -/

section Firmware

variable {s : State} {pa : Nat} {p : List Byte}

/-- An image passes when its signature and its digest hold and its version is not below the counter. -/
theorem fwPasses_iff (roll : Nat) (img : List Byte) : fwPasses roll (fwParts img) = true ↔
    falconVerify (Config.identity 4 0) (Config.image 0 img) (Config.image 2 img) = true ∧
      shake256 (Config.image 3 img) = exactly 64 (Config.image 1 img) ∧ roll ≤ leNat ((Config.image 4 img).take 8) := by
  unfold fwPasses fwParts
  dsimp only
  rw [Bool.and_eq_true, Bool.and_eq_true, beq_iff_eq, decide_eq_true_eq, and_assoc]

theorem fwstage_event (h : Asked s 11 pa p) :
    let u := fresh s
    let i := fieldOf p 12 4
    (p.length < 16 ∨ 3 < i → exec .fwstage s = .next (replied u pa 2 [])) ∧
    (16 ≤ p.length → i ≤ 3 →
      let img := u.readPa (fieldOf p 0 8) (fieldOf p 8 4)
      let good := falconVerify (Config.identity 4 0) (Config.image 0 img) (Config.image 2 img) = true ∧
        shake256 (Config.image 3 img) = exactly 64 (Config.image 1 img) ∧ s.secp.roll.getD i 0 ≤ leNat ((Config.image 4 img).take 8)
      (¬ good → exec .fwstage s = .next (replied u pa 3 [])) ∧
      (good → exec .fwstage s = .next (replied { u with secp := { s.secp with
        staged := i :: s.secp.staged.filter (fun q => q ≠ i)
        flash := { bank := !s.secp.bank, idx := i, bytes := img } :: s.secp.flash.filter (fun f => !(f.bank == !s.secp.bank && f.idx == i)) } } pa 0 []))) := by
  intro u i
  refine ⟨fun hbad => (exec_fwstage s).trans (secpCommand_asked h (if_pos hbad)), fun hlen hi => ?_⟩
  intro img good
  have hgood : ¬ (p.length < 16 ∨ 3 < i) := not_or.mpr ⟨Nat.not_lt.mpr hlen, Nat.not_lt.mpr hi⟩
  have hiff : fwPasses (s.secp.roll.getD i 0) (fwParts img) = true ↔ good := fwPasses_iff ..
  refine ⟨fun hno => (exec_fwstage s).trans (secpCommand_asked h ((if_neg hgood).trans (if_pos ?_))),
    fun hyes => (exec_fwstage s).trans (secpCommand_asked h ((if_neg hgood).trans (if_neg ?_)))⟩
  · exact (Bool.not_eq_true' _).mpr (Bool.eq_false_iff.mpr fun hc => hno (hiff.mp hc))
  · exact fun hc => absurd (hiff.mpr hyes) (Bool.eq_false_iff.mp ((Bool.not_eq_true' _).mp hc))

/-- The version of a staged image; 0 where there is none. -/
def stagedVer (s : State) (i : Nat) : Nat := ((s.secp.imageIn (!s.secp.bank) i).map (fun img => leNat ((Config.image 4 img).take 8))).getD 0

theorem staged_all : (List.range 4).all (fun i => s.secp.staged.contains i) = true ↔ ∀ i, i < 4 → i ∈ s.secp.staged := by
  simp only [List.all_eq_true, List.mem_range, List.contains_iff_mem]

/-- A commit with all four images staged (R455). -/
theorem fwcommit_staged (h : Asked s 12 pa p) (hlen : 4 ≤ p.length) (hall : ∀ i, i < 4 → i ∈ s.secp.staged) :
    (bitOf (fieldOf p 0 4) 0 = false → exec .fwcommit s = .next (replied { fresh s with secp := { s.secp with staged := [], bank := !s.secp.bank } } pa 0 [])) ∧
    (bitOf (fieldOf p 0 4) 0 = true → exec .fwcommit s = .next (replied (fresh s) pa 5 []) ∨
      exec .fwcommit s = .next (replied { fresh s with secp := { s.secp with
        staged := [], bank := !s.secp.bank, roll := (List.range 4).map (fun i => max (s.secp.roll.getD i 0) (stagedVer s i)) } } pa 0 [])) := by
  have hgood : ¬ p.length < 4 := Nat.not_lt.mpr hlen
  have hst : ¬ (!(List.range 4).all (fun i => (fresh s).secp.staged.contains i)) = true := by
    rw [show (List.range 4).all (fun i => (fresh s).secp.staged.contains i) = true from staged_all.mpr hall]
    decide
  refine ⟨fun hadv => (exec_fwcommit s).trans (secpCommand_asked h ((if_neg hgood).trans ((if_neg hst).trans ?_))), fun hadv => ?_⟩
  · dsimp only
    rw [hadv]
    rfl
  · have hrun {t : State} {st : Nat} (ht : (if (true && (List.range 4).any (fun i => decide ((fresh s).secp.roll.getD i 0 < stagedVer (fresh s) i)) &&
        (fresh s).pick [43] 2 == 1) = true then (fresh s, 5, []) else ({ fresh s with secp := { (fresh s).secp with
          staged := [], bank := !(fresh s).secp.bank, roll := (List.range 4).map (fun i => max ((fresh s).secp.roll.getD i 0) (stagedVer (fresh s) i)) } }, 0, [])) =
        (t, st, ([] : List Byte))) : exec .fwcommit s = .next (replied t pa st []) := by
      refine (exec_fwcommit s).trans (secpCommand_asked h ((if_neg hgood).trans ((if_neg hst).trans ?_)))
      dsimp only
      rw [hadv]
      exact ht
    by_cases hfull : (true && (List.range 4).any (fun i => decide ((fresh s).secp.roll.getD i 0 < stagedVer (fresh s) i)) && (fresh s).pick [43] 2 == 1) = true
    · exact .inl (hrun (if_pos hfull))
    · exact .inr (hrun (if_neg hfull))

theorem firmwareCommands : FirmwareCommands := by
  intro s pa p u
  refine ⟨fwstage_event, fun h hlen => ?_⟩
  intro ver
  refine ⟨fun ⟨i, hi, hmiss⟩ => (exec_fwcommit s).trans (secpCommand_asked h ((if_neg (Nat.not_lt.mpr hlen)).trans (if_pos ?_))), fun hall => ?_⟩
  · exact (Bool.not_eq_true' _).mpr (Bool.eq_false_iff.mpr fun hc => hmiss (staged_all.mp hc i hi))
  · obtain ⟨hplain, hadv⟩ := fwcommit_staged h hlen hall
    refine ⟨hplain, fun hb => (hadv hb).elim (fun hf => ⟨_, hf, .inl ⟨replied_secp .., rfl⟩⟩) (fun hc => ⟨_, hc, .inr ⟨replied_secp .., rfl, rfl, rfl, fun i hi => ?_⟩⟩)⟩
    rw [replied_nil]
    dsimp only
    rw [range_getD _ hi 0]
    rfl

end Firmware

/-- Settles O49: a command asked for has its meaning on its payload; digests, owners and entries by the lists they stand in. -/
theorem securityProcessor : Obligations.SecurityProcessor := ⟨mailboxEvent, identityCommands, keyDomainCommands, packageCommands, firmwareCommands⟩

end Sys2Proof.Proofs.SecurityRows
end

