-- ==== Sys2Proof/Proofs/BlockMoveRows.lean ====
section
/-!
PROOF. Proofs/BlockMoveRows.lean: a block that moves in a state in which two crews share a number (11 R246; 12 R255; 21 R366).
-/

namespace Sys2Proof.Proofs.BlockMoveRows

open Sys2Proof Machine Claims

/-! ## Two crews with one number

`MoveEvents` asks of every state, also of one in which two crews have the same number, that each crew of a block that moves comes to the new core.
In the state below crew 5 stands twice in the list of crews, first in block 1, then in block 2; crew 7 of block 1 comes after both. As block 1
moves, crew 5 halts, and the model puts the halted crew in place of every crew of its number: block 1 now has three crews for its two seats. Both
seats go to crew 5, and crew 7 stays where it was. The statement does not ask for crews of
different numbers. -/

/-- A launch of class B with blocks of two crews. -/
def pairRecord : List Byte := List.replicate 28 0#8 ++ leBytes 4 1 ++ List.replicate 8 0#8 ++ leBytes 4 1 ++ List.replicate 84 0#8

def pairLaunch : Launch :=
  { id := 1, slot := 0, ctx := 1, record := pairRecord, asid := 0, va := 0, wb := false, st := 2, reason := 0, late := false, deadline := none, order := 0,
    admitOrd := 0, placed := [0], retired := 0, writes := [], hold := none }

/-- Its block on core 0, without block memory. -/
def pairBlock : Block := { Block.start 1 1 1 with bmLen := 0 }

def pairMachine : State := { State.reset with
  mgmt := { Mgmt.reset with dieup := 15#4 }
  crews := [Crew.start 5 1 1 1 0#64, Crew.start 5 2 1 1 0#64, Crew.start 7 1 1 1 0#64]
  blocks := [pairBlock]
  launches := [pairLaunch] }

/-- Core 1 has room for the block: two seats on quad 0. -/
theorem pairMachine_room : (fresh pairMachine).room 1 { pairLaunch with record := pairLaunch.record.take 36 ++ List.replicate 4 0#8 ++ pairLaunch.record.drop 40 }
    (some [0, 0]) = some (0, [(0, 0), (0, 1)]) := by decide +kernel

theorem pairMachine_movable : (fresh pairMachine).movable pairBlock = true := by decide +kernel

/-- Number and core of every crew after an outcome. -/
def crewCores : Out → List (Nat × Nat)
  | .next t => t.crews.map (fun c => (c.id, c.core))
  | .fault _ => []
  | .refused _ => []

theorem crewCores_migration : crewCores (exec (.blockMigration 1 1 [0, 0]) pairMachine) = [(5, 1), (5, 1), (7, 0)] := by
  show crewCores (execBlockMigration 1 1 [0, 0] pairMachine) = _
  decide +kernel

/-- Refutes O44: where two crews share a number, a crew of a block that moves stays on the old core. -/
theorem not_contextAndTimeEvents : ¬ Obligations.ContextAndTimeEvents := by
  rintro ⟨⟨hmove, -⟩, -⟩
  have hunits : ∀ n, n < 64 → pairBlock.units.getLsbD n = true → (fresh pairMachine).unitFree 1 n = true := fun n _ h => by
    rw [show pairBlock.units = 0#64 from rfl, BitVec.getLsbD_zero] at h
    cases h
  have hothers : ∀ q ∈ pairMachine.blocks, q.id ≠ pairBlock.id → q.ctx = pairBlock.ctx → q.vcore = pairBlock.vcore → q.place = 0 → q.core = 1 :=
    fun q hq hne _ _ _ => absurd (congrArg Block.id (List.mem_singleton.mp hq)) hne
  obtain ⟨t, ht, -, -, hcrews⟩ := hmove pairMachine pairBlock pairLaunch 1 0 [0, 0] [(0, 0), (0, 1)] rfl rfl rfl (by decide) (by decide) rfl pairMachine_movable hunits
    (by decide +kernel) hothers pairMachine_room
  obtain ⟨d, hd, hid, hcore, -⟩ := hcrews (by decide) (Crew.start 7 1 1 1 0#64) rfl rfl rfl rfl rfl
  have hmem : (d.id, d.core) ∈ crewCores (exec (.blockMigration 1 1 [0, 0]) pairMachine) := by
    rw [show exec (.blockMigration 1 1 [0, 0]) pairMachine = .next t from ht]
    exact List.mem_map_of_mem hd
  rw [crewCores_migration, hid, hcore] at hmem
  exact absurd hmem (by decide)

end Sys2Proof.Proofs.BlockMoveRows
end

