-- ==== Sys2Proof/Proofs/TurnRows.lean ====
section
/-!
PROOF. Proofs/TurnRows.lean: whose turn it is, and what a slot issues in its turn (02 R42, R59; 21 R364; 23 R410).
-/

namespace Sys2Proof.Proofs.TurnRows

open Sys2Proof Machine Claims

/-! ## A slot that is tried -/

/-- What a slot's try makes of the outcome of its instruction: where it was not eligible nothing, otherwise its pipes are taken. -/
def closeIssue (c : Crew) (p : PcSlot) (first : Nat) : Out → Out
  | .next u => .next (if u.heldMark then u else (u.tookPipes c p).afterIssue c.id first)
  | .fault f => .fault f
  | .refused r => .refused r

theorem tookPipes_heldMark (s : State) (c : Crew) (p : PcSlot) : (s.tookPipes c p).heldMark = s.heldMark := by
  unfold State.tookPipes
  split
  · rfl
  · rfl

theorem afterIssue_heldMark (s : State) (id first : Nat) : (s.afterIssue id first).heldMark = s.heldMark := by
  unfold State.afterIssue
  split
  · rfl
  · dsimp only
    split
    · split
      · rfl
      · rfl
    · split
      · rfl
      · rfl

/-- The turn goes on from a try. -/
theorem tryAll_of_try {m : State} {id : Nat} {k : Bool} {c : Crew} {p : PcSlot} {first : Nat} {out : Out} (h : m.trySlot id k = closeIssue c p first out)
    (more : List (Nat × Bool)) : m.tryAll ((id, k) :: more) = goOn c p first more out := by
  unfold State.tryAll
  dsimp only
  rw [h]
  cases out with
  | fault f => rfl
  | refused r => rfl
  | next u =>
    unfold closeIssue goOn
    dsimp only
    by_cases hheld : u.heldMark = true
    · rw [if_pos hheld, if_pos hheld, if_pos hheld]
    · have hclosed : ¬ ((u.tookPipes c p).afterIssue c.id first).heldMark = true := by rw [afterIssue_heldMark, tookPipes_heldMark]; exact hheld
      rw [if_neg hheld, if_neg hclosed, if_neg hheld]

theorem clear_unhindered {c : Crew} (h : Clear c) : ¬ c.stepPend = true ∧ ¬ (!c.trapq.isEmpty && !c.insvc) = true := by
  obtain ⟨hstep, htrap⟩ := h
  rw [hstep]
  refine ⟨Bool.false_ne_true, ?_⟩
  rcases htrap with h | h
  · rw [h]
    exact Bool.false_ne_true
  · rw [h, Bool.not_true, Bool.and_false]
    exact Bool.false_ne_true

/-- A slot of a clear crew whose line has been entered is tried by issuing what stands there. -/
theorem trySlot_entered {m : State} {id : Nat} {k : Bool} {c : Crew} (hc : m.crew? id = some c) (hclear : Clear c) (hline : (c.slot k).line ≠ []) :
    m.trySlot id k = closeIssue c (c.slot k) m.order (m.issueSlot c k) := by
  have hid : c.id = id := eq_of_beq (List.find?_some (p := fun (c : Crew) => c.id == id) hc)
  obtain ⟨hstep, htrap⟩ := clear_unhindered hclear
  have hentered : ¬ (c.slot k).line.isEmpty = true := fun h => hline (List.isEmpty_iff.mp h)
  unfold State.trySlot
  rw [hc]
  dsimp only
  rw [if_neg hstep, if_neg htrap, if_neg hentered]
  cases m.issueSlot c k with
  | next u => exact congrArg (fun i => Host.Outcome.next (if u.heldMark = true then u else (u.tookPipes c (c.slot k)).afterIssue i m.order)) hid.symm
  | fault f => rfl
  | refused r => rfl

/-! ## One instruction (R59) -/

section Single

variable {m : State} {c : Crew} {k : Bool}

/-- A slot that is not at a pair issues its instruction where its pipe can accept it. -/
theorem issueSlot_single (hpair : ¬ (linePair (lineWordOf (c.slot k).line) (pcSlot (c.slot k).pc) = true ∧ pcSlot (c.slot k).pc < 4)) (hfree : m.pipesFree c (c.slot k) = true) :
    m.issueSlot c k = exec (decodeCrew (slotWordOf (c.slot k).line (pcSlot (c.slot k).pc))) { m with cur := cursorAt c.id k (c.slot k).line (c.slot k).pc } := by
  have hbusy : ¬ (!m.pipesFree c (c.slot k)) = true := by rw [hfree]; exact Bool.false_ne_true
  exact (if_neg hbusy).trans (if_neg hpair)

theorem issueSlot_busy (hfree : m.pipesFree c (c.slot k) = false) : m.issueSlot c k = .next { m with heldMark := true } := by
  have hbusy : (!m.pipesFree c (c.slot k)) = true := by rw [hfree]; rfl
  exact if_pos hbusy

end Single

theorem singleIssue : SingleIssue := by
  intro m id k more c hc hclear hline hpair
  have hid : c.id = id := eq_of_beq (List.find?_some (p := fun (c : Crew) => c.id == id) hc)
  refine ⟨fun hfree => ?_, fun hfree => ?_⟩
  · rw [tryAll_of_try (trySlot_entered hc hclear hline), issueSlot_single hpair hfree, hid]
  · rw [tryAll_of_try (trySlot_entered hc hclear hline), issueSlot_busy hfree]
    rfl

/-! ## A line that is entered first -/

theorem enterLine_ok {m : State} {c : Crew} {k : Bool} {line : List Byte}
    (hcheck : m.checkTarget c.core c.asid (c.slot k).pc (c.slot k).mask c.lastEver.isNone = .ok line) :
    m.enterLine c k = .next ((m.setCrew (c.setSlot k { c.slot k with line := line })).noteLine c.core c.asid (pcLine (c.slot k).pc) line) := by
  unfold State.enterLine
  dsimp only
  rw [hcheck]

theorem crew?_setCrew {m : State} {c d : Crew} (hc : m.crew? c.id = some c) (hid : d.id = c.id) : (m.setCrew d).crew? c.id = some d := by
  unfold State.crew? State.setCrew at *
  dsimp only
  have hsame : (fun x : Crew => x.id == c.id) ∘ (fun x => if (x.id == d.id) = true then d else x) = fun x => x.id == c.id := by
    funext x
    dsimp only [Function.comp]
    split
    · next h => rw [hid, eq_of_beq h, hid]
    · rfl
  rw [List.find?_map, hsame, hc, Option.map_some, hid, if_pos (beq_self_eq_true _)]

theorem fetchThenIssue : FetchThenIssue := by
  intro m id k more c line hc hclear hempty hheld hraise hline hcheck hpair va p d n hfree
  have hid : c.id = id := eq_of_beq (List.find?_some (p := fun (c : Crew) => c.id == id) hc)
  subst hid
  have hdid : d.id = c.id := Crew.setSlot_id ..
  have hslot : d.slot k = p := slot_setSlot ..
  have hcrew : n.crew? c.id = some d := crew?_setCrew hc hdid
  have hsteady : ¬ (n.heldMark = true ∨ n.lastRaise.isSome = true) := by
    rintro (h | h)
    · exact Bool.false_ne_true (hheld.symm.trans h)
    · rw [show n.lastRaise = none from hraise] at h
      exact Bool.false_ne_true h
  obtain ⟨hstep, htrap⟩ := clear_unhindered hclear
  have htry : m.trySlot c.id k = closeIssue d p m.order (n.issueSlot d k) := by
    unfold State.trySlot
    rw [hc]
    dsimp only
    rw [if_neg hstep, if_neg htrap, if_pos (List.isEmpty_iff.mpr hempty), enterLine_ok hcheck]
    refine (if_neg hsteady).trans ?_
    change (match n.crew? c.id with
      | none => _
      | some d => _) = _
    rw [hcrew]
    dsimp only
    rw [hslot]
    cases n.issueSlot d k with
    | next u => exact congrArg (fun i => Host.Outcome.next (if u.heldMark = true then u else (u.tookPipes d p).afterIssue i m.order)) hdid.symm
    | fault f => rfl
    | refused r => rfl
  rw [tryAll_of_try htry, issueSlot_single (by rw [hslot]; exact hpair) (by rw [hslot]; exact hfree), hslot, hdid]

/-! ## A pair (R42, R364) -/

theorem pairRegion_heldMark (s : State) (c1 c2 : Cursor) : (s.pairRegion c1 c2).heldMark = s.heldMark := by
  unfold State.pairRegion
  split
  · rfl
  · split
    · rfl
    · rfl

theorem issuePair_completes {s pre a b : State} {c1 c2 : Cursor} (ha : s.runAt c1 = .next a) (haheld : a.heldMark = false) (haraise : a.lastRaise = none)
    (hb : a.runAt c2 = .next b) (hbheld : b.heldMark = false) (hbraise : b.lastRaise = none) : issuePair s pre c1 c2 = .next (b.pairRegion c1 c2) := by
  have hgo : ¬ a.heldMark = true := by rw [haheld]; exact Bool.false_ne_true
  have hquiet : ¬ a.lastRaise.isSome = true := by rw [haraise]; exact Bool.false_ne_true
  have hend : ¬ b.heldMark = true := by rw [hbheld]; exact Bool.false_ne_true
  unfold issuePair
  rw [ha]
  dsimp only
  rw [if_neg hgo, if_neg hquiet, hb]
  dsimp only
  rw [if_neg hend, hbraise]

theorem pairIssue : PairIssue := by
  intro m a b id k more c hc hclear hline hpair hslot c0 one two hfree hsecond c1 c2 ha haheld haraise hb hbheld hbraise
  have hid : c.id = id := eq_of_beq (List.find?_some (p := fun (c : Crew) => c.id == id) hc)
  subst hid
  have hbusy : ¬ (!m.pipesFree c (c.slot k)) = true := by rw [hfree]; exact Bool.false_ne_true
  have hwait : ¬ (!secondFree c0 (Hdr.ofWord one.word) (Hdr.ofWord two.word)) = true := by rw [hsecond]; exact Bool.false_ne_true
  have hissue : m.issueSlot c k = .next (b.pairRegion c1 c2) := by
    have hcompletes := issuePair_completes (pre := m.setCrew (issueRegion c0 k (c.slot k).pc one.reg)) (c1 := c1) (c2 := c2) ha haheld haraise hb hbheld hbraise
    exact (if_neg hbusy).trans ((if_pos ⟨hpair, hslot⟩).trans ((if_neg hwait).trans hcompletes))
  have hopen : ¬ (b.pairRegion c1 c2).heldMark = true := by rw [pairRegion_heldMark, hbheld]; exact Bool.false_ne_true
  rw [tryAll_of_try (trySlot_entered hc hclear hline), hissue]
  exact if_neg hopen

/-! ## Turns -/

theorem hostStore_writes {m : State} {h : Nat × Nat × List Byte} {rest : List (Nat × Nat × List Byte)} (hs : m.hostStores = h :: rest) :
    let put := ({ m with hostStores := rest } : State).writePa h.2.1 h.2.2
    (h.1 ≠ 0 → m.hostStore = m) ∧
    (h.1 = 0 → m.paKind h.2.1 = .host → m.paKind (h.2.1 + h.2.2.length - 1) = .host → (m.hostStore = m ∨ m.hostStore = put) ∧ (m.allAct = true → m.hostStore = put)) := by
  intro put
  have heq : m.hostStore = if h.1 ≠ 0 ∨ (m.pick [58] 2 = 0 ∧ !m.allAct) then m else
      if m.paKind h.2.1 = .host ∧ m.paKind (h.2.1 + h.2.2.length - 1) = .host then put else { m with hostStores := rest } := by
    unfold State.hostStore
    rw [hs]
    rfl
  rw [heq]
  refine ⟨fun hwait => if_pos (.inl hwait), fun hdue hfirst hlast => ⟨?_, fun hall => ?_⟩⟩
  · split
    · exact .inl rfl
    · exact .inr (if_pos ⟨hfirst, hlast⟩)
  · have hgo : ¬ (h.1 ≠ 0 ∨ (m.pick [58] 2 = 0 ∧ (!m.allAct) = true)) := by
      rw [hall]
      rintro (h0 | ⟨-, hf⟩)
      · exact h0 hdue
      · exact Bool.false_ne_true hf
    exact (if_neg hgo).trans (if_pos ⟨hfirst, hlast⟩)

theorem allEvents_next {e : Instr} {es : List Instr} {m t : State} (h : exec e m = .next t) : State.allEvents (e :: es) m = State.allEvents es t := by
  rw [State.allEvents, h]

/-- The turn of the units, where not every unit acts: one event, or the next input. -/
theorem unitTurn_one {m s : State} (hm : s.hostStore = m) (hall : m.allAct = false) : s.unitTurn = .next m ∨ (∃ e ∈ m.unitEvents, s.unitTurn = exec e m) ∨
    ∃ e inputs, m.nextInput false m.inputs = some (e, inputs) ∧ s.unitTurn = exec e (m.taken e inputs) := by
  unfold State.unitTurn
  rw [hm]
  dsimp only
  rw [hall, if_neg Bool.false_ne_true]
  split
  · split
    · exact .inl rfl
    · next e he => exact .inr (.inl ⟨e, List.mem_of_getElem? he, rfl⟩)
  · next e inputs hnext =>
    split
    · exact .inr (.inr ⟨e, inputs, hnext, rfl⟩)
    · next e he => exact .inr (.inl ⟨e, List.mem_of_getElem? he, rfl⟩)

/-- The turn of the units in a cycle in which every unit acts. -/
theorem unitTurn_all {m s : State} (hm : s.hostStore = m) (hall : m.allAct = true) :
    (m.nextInput false m.inputs = none → s.unitTurn = State.allEvents m.unitEvents m) ∧
    ∀ e inputs t, m.nextInput false m.inputs = some (e, inputs) → exec e (m.taken e inputs) = .next t → s.unitTurn = State.allEvents m.unitEvents t := by
  have heq : s.unitTurn = match m.nextInput false m.inputs with
      | none => State.allEvents m.unitEvents m
      | some (i, rest) =>
        match exec i (m.taken i rest) with
        | .next t => State.allEvents m.unitEvents t
        | o => o := by
    unfold State.unitTurn
    rw [hm]
    exact if_pos hall
  rw [heq]
  refine ⟨fun hnone => by rw [hnone], fun e inputs t hsome ht => ?_⟩
  rw [hsome]
  dsimp only
  rw [ht]

/-- The turn of a cox whose running context stands in slot k. -/
theorem coxTurn_runs {s : State} {port k : Nat} (hfind : (List.range 8).find? (fun i => ((s.coxPick port).coxSlot port i).st == 2) = some k) :
    s.coxTurn port = match exec (decodeCox (((s.coxPick port).cox port).word ((s.coxPick port).coxSlot port k).pc))
        { s.coxPick port with cur := { Cursor.idle with port := port, ctxSlot := k } } with
      | .next t => .next t.endTurn
      | .fault f => .fault f
      | .refused r => .refused r := by
  unfold State.coxTurn
  change (match (List.range 8).find? (fun i => ((s.coxPick port).coxSlot port i).st == 2) with
    | none => _
    | some k => _) = _
  rw [hfind]
  rfl

theorem turnSteps : TurnSteps := by
  refine ⟨fun s h => ?_, fun s core quad rest h => ?_, fun m => rfl, fun s port k rest h => ?_, fun s rest h => ?_, fun m h => ?_,
    fun m h rest hs => hostStore_writes hs, fun m => rfl, fun e es m t h => allEvents_next h⟩
  · unfold step
    rw [h]
  · unfold step
    rw [h]
    rfl
  · intro m hfind
    unfold step
    rw [h]
    exact coxTurn_runs hfind
  · intro m took
    have hstep : step s = State.unitTurn { s with todo := rest } := by
      unfold step
      rw [h]
      rfl
    rw [hstep]
    have hm : State.hostStore { s with todo := rest } = m := rfl
    obtain hall := unitTurn_all hm
    exact ⟨unitTurn_one hm, fun ha => (hall ha).1, fun ha => (hall ha).2⟩
  · unfold State.hostStore
    rw [h]

end Sys2Proof.Proofs.TurnRows
end

