-- ==== Sys2Proof/Proofs/IssueOrderRows.lean ====
section
/-!
PROOF. Proofs/IssueOrderRows.lean: how long a pipe is taken, and the order in which the slots of a quad are tried (02 R42, R59, R62; 12 R262).
-/

namespace Sys2Proof.Proofs.IssueOrderRows

open Sys2Proof Machine Claims TurnRows CoxSequenceRows

/-! ## Pipes (R59, R62) -/

/-- A use of a pipe of a quad that keeps it taken at a cycle. -/
def holds (quad : Nat) (q : Pipe) (cyc : Nat) (u : PipeUse) : Bool := u.quad == quad && u.pipe == q && decide (cyc < u.cyc + q.interval)

theorem takePipe_other {us : List PipeUse} {u : PipeUse} {quad : Nat} {q : Pipe} (h : ¬ (u.quad = quad ∧ u.pipe = q)) (cyc : Nat) :
    (takePipe us u).find? (holds quad q cyc) = us.find? (holds quad q cyc) := by
  have hne : ∀ v : PipeUse, v.quad = u.quad → v.pipe = u.pipe → holds quad q cyc v = false := fun v hquad hpipe => by
    unfold holds
    rw [hquad, hpipe]
    by_cases hq : u.quad = quad
    · rw [beq_eq_false_iff_ne.mpr (fun hp => h ⟨hq, hp⟩), Bool.and_false, Bool.false_and]
    · rw [beq_eq_false_iff_ne.mpr hq, Bool.false_and, Bool.false_and]
  unfold takePipe
  rw [List.find?_cons_of_neg (by rw [hne u rfl rfl]; exact Bool.false_ne_true)]
  induction us with
  | nil => rfl
  | cons v us ih =>
    by_cases hv : (v.quad == u.quad && v.pipe == u.pipe) = true
    · obtain ⟨hquad, hpipe⟩ : v.quad = u.quad ∧ v.pipe = u.pipe := by rwa [Bool.and_eq_true, beq_iff_eq, beq_iff_eq] at hv
      rw [List.filter_cons_of_neg (by rw [hv]; exact Bool.false_ne_true), ih, List.find?_cons_of_neg (by rw [hne v hquad hpipe]; exact Bool.false_ne_true)]
    · rw [List.filter_cons_of_pos (by rw [Bool.not_eq_true] at hv; rw [hv]; rfl), List.find?_cons, List.find?_cons, ih]

theorem takePipe_same (us : List PipeUse) (u : PipeUse) (cyc : Nat) : (takePipe us u).find? (holds u.quad u.pipe cyc) = none ↔ u.cyc + u.pipe.interval ≤ cyc := by
  unfold takePipe
  rw [List.find?_eq_none]
  constructor
  · intro h
    have hu := h u List.mem_cons_self
    unfold holds at hu
    rw [beq_self_eq_true, beq_self_eq_true, Bool.true_and, Bool.true_and, decide_eq_true_eq] at hu
    exact Nat.not_lt.mp hu
  · intro hle v hv hheld
    unfold holds at hheld
    rw [Bool.and_eq_true, decide_eq_true_eq] at hheld
    obtain ⟨hsame, hlt⟩ := hheld
    rcases List.mem_cons.mp hv with rfl | hv
    · exact absurd hlt (Nat.not_lt.mpr hle)
    · have hne := (List.mem_filter.mp hv).2
      rw [hsame] at hne
      exact Bool.false_ne_true hne

theorem pipeHeld_eq (s : State) (core quad : Nat) (q : Pipe) : s.pipeHeld core quad q = (s.core core).pipes.find? (holds quad q s.cycle) := rfl

/-- The use of a pipe by the crew that issues. -/
def useOf (s : State) (c : Crew) (q : Pipe) (cyc : Nat) : PipeUse :=
  { quad := c.quad, pipe := q, cyc := cyc, crew := c.id, harvest := (s.block? c.blk).any (fun b => b.harv) }

section Taken

variable {s : State} {c : Crew} {p : PcSlot} {q : Pipe}

/-- The pipes of a core after uses have been noted. -/
def tookUses (s : State) (core : Nat) (pipes : List PipeUse) : State := s.modCore core (fun k => { k with pipes := pipes })

theorem tookUses_pipes (hcore : c.core < s.cores.length) (pipes : List PipeUse) : ((tookUses s c.core pipes).core c.core).pipes = pipes := by
  unfold tookUses State.modCore
  exact congrArg CoreSt.pipes (getD_set_self hcore)

theorem tookUses_other (pipes : List PipeUse) {core k : Nat} (h : core ≠ k) : (tookUses s k pipes).core core = s.core core := by
  unfold tookUses State.modCore State.core
  dsimp only
  rw [List.getD_eq_getElem?_getD, List.getElem?_set_ne (Ne.symm h), ← List.getD_eq_getElem?_getD]

theorem tookPipes_one (hraise : s.lastRaise = none) (hp : slotPipes p = [q]) :
    s.tookPipes c p = tookUses s c.core (takePipe (s.core c.core).pipes (useOf s c q s.cycle)) := by
  unfold State.tookPipes tookUses State.modCore
  rw [hraise, hp]
  rfl

theorem tookPipes_two (hraise : s.lastRaise = none) (hp : slotPipes p = [q, q]) :
    s.tookPipes c p = tookUses s c.core (takePipe (takePipe (s.core c.core).pipes (useOf s c q s.cycle)) (useOf s c q (s.cycle + q.interval))) := by
  unfold State.tookPipes tookUses State.modCore
  rw [hraise, hp]
  have hsame : (if q = q then s.cycle + q.interval else s.cycle) = s.cycle + q.interval := if_pos rfl
  dsimp only
  rw [hsame]
  rfl

theorem tookPipes_two_pipes (hcore : c.core < s.cores.length) (hraise : s.lastRaise = none) (hp : slotPipes p = [q, q]) :
    ((s.tookPipes c p).core c.core).pipes = takePipe (takePipe (s.core c.core).pipes (useOf s c q s.cycle)) (useOf s c q (s.cycle + q.interval)) := by
  rw [tookPipes_two hraise hp, tookUses_pipes hcore]

end Taken

/-- The pipe of every operation, class by class (R62). -/
theorem pipeOf_classes : ∀ op, op < 64 → pipeOf op = some .int ∧ pipeOf (64 + op) = some .int ∧ pipeOf (128 + op) = some .fma ∧
    pipeOf (192 + op) = some (if op < 32 then .fma else .int) ∧ pipeOf (256 + op) = some .dp ∧
    pipeOf (320 + op) = some (if op < 40 then .sfu else .int) ∧ pipeOf (384 + op) = some .xl ∧ pipeOf (448 + op) = some .br ∧
    pipeOf (512 + op) = some .ls ∧ pipeOf (576 + op) = some .ls ∧ pipeOf (640 + op) = some .eng ∧ pipeOf (704 + op) = some .fab ∧
    pipeOf (768 + op) = some .mx ∧ pipeOf (832 + op) = some .sys ∧ pipeOf (896 + op) = some .sys := by decide

theorem pipeIntervals : PipeIntervals := by
  refine ⟨pipeOf_classes, ?_⟩
  intro s c p q hcore hraise n later
  refine ⟨fun hp core quad r hother => ?_, fun hp cyc => ?_, fun hp cyc => ⟨?_, fun hlt x => ?_⟩⟩
  · have hkeep : ∀ u : PipeUse, u.quad = c.quad → u.pipe = q → core = c.core → ∀ us : List PipeUse,
        (takePipe us u).find? (holds quad r s.cycle) = us.find? (holds quad r s.cycle) := fun u hquad hpipe hc us =>
      takePipe_other (fun h => hother ⟨hc, h.1.symm.trans hquad, h.2.symm.trans hpipe⟩) s.cycle
    by_cases hc : core = c.core
    · subst hc
      rcases hp with hp | hp
      · rw [tookPipes_one hraise hp, pipeHeld_eq, tookUses_pipes hcore]
        exact hkeep _ rfl rfl rfl _
      · rw [tookPipes_two hraise hp, pipeHeld_eq, tookUses_pipes hcore]
        exact (hkeep _ rfl rfl rfl _).trans (hkeep _ rfl rfl rfl _)
    · rcases hp with hp | hp
      · rw [tookPipes_one hraise hp, pipeHeld_eq, tookUses_other _ hc]
        rfl
      · rw [tookPipes_two hraise hp, pipeHeld_eq, tookUses_other _ hc]
        rfl
  · have htook : ((later cyc).core c.core).pipes = takePipe (s.core c.core).pipes (useOf s c q s.cycle) := by
      rw [show (later cyc).core c.core = (s.tookPipes c p).core c.core from rfl, tookPipes_one hraise hp, tookUses_pipes hcore]
    rw [pipeHeld_eq, htook]
    exact takePipe_same _ (useOf s c q s.cycle) cyc
  · have htook : ((later cyc).core c.core).pipes = takePipe (takePipe (s.core c.core).pipes (useOf s c q s.cycle)) (useOf s c q (s.cycle + q.interval)) := tookPipes_two_pipes hcore hraise hp
    rw [pipeHeld_eq, htook]
    exact takePipe_same _ (useOf s c q (s.cycle + q.interval)) cyc
  · have htook : ((later cyc).core c.core).pipes = takePipe (takePipe (s.core c.core).pipes (useOf s c q s.cycle)) (useOf s c q (s.cycle + q.interval)) := tookPipes_two_pipes hcore hraise hp
    have hahead : ((later cyc).core c.core).pipes.any (fun u => u.crew == c.id && decide (cyc < u.cyc)) = true := by
      rw [htook, takePipe, List.any_cons, Bool.or_eq_true, Bool.and_eq_true, decide_eq_true_eq]
      exact .inl ⟨beq_self_eq_true _, hlt⟩
    unfold State.pipesFree
    rw [show (later cyc).cycle = cyc from rfl, hahead, Bool.not_true, Bool.and_false]

/-! ## The order of a quad (R262) -/

/-- Order of the entries of a quad: class, then the cycle of the last issue. -/
def KeyLe (x y : (Nat × Nat) × Nat) : Prop := x.1.1 < y.1.1 ∨ (x.1.1 = y.1.1 ∧ x.1.2 ≤ y.1.2)

theorem KeyLe.trans {x y z : (Nat × Nat) × Nat} (h : KeyLe x y) (h' : KeyLe y z) : KeyLe x z := by
  unfold KeyLe at *
  omega

theorem keyLe_of_not {x y : (Nat × Nat) × Nat} (h : ¬ KeyLe x y) : KeyLe y x := by
  unfold KeyLe at *
  omega

theorem insertKey_perm (x : (Nat × Nat) × Nat) (l : List ((Nat × Nat) × Nat)) : (insertKey x l).Perm (x :: l) := by
  induction l with
  | nil => exact .refl _
  | cons y ys ih =>
    unfold insertKey
    split
    · exact (ih.cons y).trans (.swap x y ys)
    · exact .refl _

theorem insertKey_sorted {x : (Nat × Nat) × Nat} {l : List ((Nat × Nat) × Nat)} (h : l.Pairwise KeyLe) : (insertKey x l).Pairwise KeyLe := by
  induction l with
  | nil => exact List.pairwise_singleton ..
  | cons y ys ih =>
    obtain ⟨hy, hys⟩ := List.pairwise_cons.mp h
    unfold insertKey
    split
    · next hle =>
      refine List.pairwise_cons.mpr ⟨fun z hz => ?_, ih hys⟩
      rcases List.mem_cons.mp ((insertKey_perm x ys).mem_iff.mp hz) with rfl | hz
      · exact hle
      · exact hy z hz
    · next hnot =>
      have hxy : KeyLe x y := keyLe_of_not hnot
      refine List.pairwise_cons.mpr ⟨fun z hz => ?_, h⟩
      rcases List.mem_cons.mp hz with rfl | hz
      · exact hxy
      · exact hxy.trans (hy z hz)

/-- The entry of a crew. -/
def entryOf (s : State) (c : Crew) : (Nat × Nat) × Nat := (s.issueKey c, c.id)

/-- The crews of a quad that may issue. -/
def mates (s : State) (core quad : Nat) : List Crew := s.crews.filter (fun c => c.core == core && c.quad == quad && s.runnable c)

/-- Their entries in order. -/
def ranked (s : State) (cs : List Crew) : List ((Nat × Nat) × Nat) := cs.foldl (fun l c => insertKey (entryOf s c) l) []

theorem foldl_insertKey (s : State) (cs : List Crew) {l : List ((Nat × Nat) × Nat)} (h : l.Pairwise KeyLe) :
    (cs.foldl (fun l c => insertKey (entryOf s c) l) l).Perm (cs.map (entryOf s) ++ l) ∧ (cs.foldl (fun l c => insertKey (entryOf s c) l) l).Pairwise KeyLe := by
  induction cs generalizing l with
  | nil => exact ⟨.refl _, h⟩
  | cons c cs ih =>
    obtain ⟨hperm, hsorted⟩ := ih (insertKey_sorted (x := entryOf s c) h)
    exact ⟨hperm.trans (((insertKey_perm _ l).append_left _).trans List.perm_middle), hsorted⟩

theorem ranked_perm (s : State) (cs : List Crew) : (ranked s cs).Perm (cs.map (entryOf s)) :=
  (foldl_insertKey s cs .nil).1.trans (by rw [List.append_nil])

theorem ranked_sorted (s : State) (cs : List Crew) : (ranked s cs).Pairwise KeyLe := (foldl_insertKey s cs .nil).2

/-- What an entry contributes to the order. -/
def slotsOf (s : State) (x : (Nat × Nat) × Nat) : List (Nat × Bool) :=
  match s.crew? x.2 with
  | some c => c.slotOrder
  | none => []

theorem issueOrder_eq (s : State) (core quad : Nat) : s.issueOrder core quad = (ranked s (mates s core quad)).flatMap (slotsOf s) := rfl

theorem mem_slotOrder {c : Crew} {id : Nat} {k : Bool} : (id, k) ∈ c.slotOrder ↔ c.id = id ∧ ((c.slot k).ready = true ∨ c.awaits k = true) := by
  unfold Crew.slotOrder
  have hall : k ∈ (if c.b.issuedAt < c.a.issuedAt then [true, false] else [false, true]) := by
    split
    · cases k <;> decide
    · cases k <;> decide
  simp only [List.mem_map, List.mem_filter, Bool.or_eq_true, Prod.mk.injEq]
  constructor
  · rintro ⟨j, ⟨-, hready⟩, hid, rfl⟩
    exact ⟨hid, hready⟩
  · rintro ⟨hid, hready⟩
    exact ⟨k, ⟨hall, hready⟩, hid, rfl⟩

/-- The slots of a crew stand in the order of their last issues. -/
theorem slotOrder_sorted (c : Crew) : c.slotOrder.Pairwise (fun p q => p.1 = c.id ∧ q.1 = c.id ∧ (c.slot p.2).issuedAt ≤ (c.slot q.2).issuedAt ∧ p.2 ≠ q.2) := by
  unfold Crew.slotOrder
  refine List.pairwise_map.mpr (List.Pairwise.filter _ ?_)
  split
  · next h => exact List.pairwise_pair.mpr ⟨rfl, rfl, Nat.le_of_lt h, Bool.noConfusion⟩
  · next h => exact List.pairwise_pair.mpr ⟨rfl, rfl, Nat.not_lt.mp h, Bool.noConfusion⟩

section Distinct

variable {s : State}

theorem crew?_of_mem (hd : (s.crews.map (fun c => c.id)).Nodup) {c : Crew} (hc : c ∈ s.crews) : s.crew? c.id = some c := by
  unfold State.crew?
  rw [List.find?_eq_some_iff_getElem]
  obtain ⟨i, hi, hci⟩ := List.mem_iff_getElem.mp hc
  refine ⟨beq_self_eq_true _, i, hi, hci, fun j hj => ?_⟩
  rw [Bool.not_eq_true', beq_eq_false_iff_ne]
  intro hid
  have hsame : (s.crews.map (fun c => c.id))[j]'(by rw [List.length_map]; omega) = (s.crews.map (fun c => c.id))[i]'(by rw [List.length_map]; omega) := by
    rw [List.getElem_map, List.getElem_map, hci]
    exact hid
  exact absurd ((List.Nodup.getElem_inj_iff hd).mp hsame) (Nat.ne_of_lt hj)

theorem mem_issueOrder (hd : (s.crews.map (fun c => c.id)).Nodup) (core quad id : Nat) (k : Bool) : (id, k) ∈ s.issueOrder core quad ↔
    ∃ c ∈ s.crews, c.id = id ∧ c.core = core ∧ c.quad = quad ∧ s.runnable c = true ∧ ((c.slot k).ready = true ∨ c.awaits k = true) := by
  have hslots : ∀ c ∈ s.crews, slotsOf s (entryOf s c) = c.slotOrder := fun c hc => by
    unfold slotsOf entryOf
    rw [crew?_of_mem hd hc]
  rw [issueOrder_eq, List.mem_flatMap]
  constructor
  · rintro ⟨x, hx, hmem⟩
    obtain ⟨c, hc, rfl⟩ := List.mem_map.mp ((ranked_perm ..).mem_iff.mp hx)
    obtain ⟨hin, hhere⟩ := List.mem_filter.mp hc
    rw [hslots c hin] at hmem
    obtain ⟨hid, hready⟩ := mem_slotOrder.mp hmem
    simp only [Bool.and_eq_true, beq_iff_eq] at hhere
    exact ⟨c, hin, hid, hhere.1.1, hhere.1.2, hhere.2, hready⟩
  · rintro ⟨c, hin, hid, hcore, hquad, hrun, hready⟩
    have hhere : c ∈ mates s core quad := List.mem_filter.mpr ⟨hin, by rw [hcore, hquad, hrun, beq_self_eq_true, beq_self_eq_true]; rfl⟩
    refine ⟨entryOf s c, (ranked_perm ..).mem_iff.mpr (List.mem_map_of_mem hhere), ?_⟩
    rw [hslots c hin]
    exact mem_slotOrder.mpr ⟨hid, hready⟩

/-- The class of a crew in the order of R262, and the cycle of its last issue. -/
def classOf (s : State) (c : Crew) : Nat :=
  if c.demote ≠ 0 then 4 else match s.block? c.blk with
    | some b => b.cls
    | none => 3

def lastOf (c : Crew) : Int := match c.lastEver with
  | none => -1
  | some p => p

theorem classOf_eq (s : State) (c : Crew) : classOf s c = s.issueClass c := by
  unfold classOf State.issueClass
  split
  · rfl
  · cases s.block? c.blk with
    | none => rfl
    | some b => rfl

theorem lastOf_eq (s : State) (c : Crew) : lastOf c = ((s.issueKey c).2 : Int) - 1 := by
  unfold lastOf State.issueKey
  cases c.lastEver with
  | none => rfl
  | some p => exact (Int.add_sub_cancel (p : Int) 1).symm

theorem before_of_keyLe {c d : Crew} (h : KeyLe (entryOf s c) (entryOf s d)) : Before s c d := by
  have hle : s.issueClass c < s.issueClass d ∨ (s.issueClass c = s.issueClass d ∧ (s.issueKey c).2 ≤ (s.issueKey d).2) := h
  show classOf s c < classOf s d ∨ (classOf s c = classOf s d ∧ lastOf c ≤ lastOf d)
  rw [classOf_eq, classOf_eq, lastOf_eq s, lastOf_eq s]
  omega

end Distinct

theorem issueOrder_sorted {s : State} (hd : (s.crews.map (fun c => c.id)).Nodup) (core quad : Nat) :
    (s.issueOrder core quad).Pairwise (fun p q => ∀ c d, s.crew? p.1 = some c → s.crew? q.1 = some d →
      if p.1 = q.1 then (c.slot p.2).issuedAt ≤ (c.slot q.2).issuedAt ∧ p.2 ≠ q.2 else Before s c d) := by
  have hentry : ∀ x ∈ ranked s (mates s core quad), ∃ c ∈ s.crews, x = entryOf s c ∧ slotsOf s x = c.slotOrder := fun x hx => by
    obtain ⟨c, hc, rfl⟩ := List.mem_map.mp ((ranked_perm ..).mem_iff.mp hx)
    have hin := (List.mem_filter.mp hc).1
    exact ⟨c, hin, rfl, by unfold slotsOf entryOf; rw [crew?_of_mem hd hin]⟩
  have hids : (ranked s (mates s core quad)).Pairwise (fun x y => x.2 ≠ y.2) := by
    have hnodup : ((mates s core quad).map (entryOf s)).Pairwise (fun x y => x.2 ≠ y.2) :=
      List.pairwise_map.mpr (List.Pairwise.filter _ (List.pairwise_map.mp hd))
    exact ((ranked_perm ..).pairwise_iff (fun h => Ne.symm h)).mpr hnodup
  rw [issueOrder_eq]
  refine List.pairwise_flatMap.mpr ⟨fun x hx => ?_, ?_⟩
  · obtain ⟨c, hin, -, hslots⟩ := hentry x hx
    rw [hslots]
    refine (slotOrder_sorted c).imp fun ⟨hp, hq, hle, hne⟩ c' d' hc' hd' => ?_
    rw [hp, crew?_of_mem hd hin] at hc'
    obtain rfl := Option.some.inj hc'
    rw [if_pos (hp.trans hq.symm)]
    exact ⟨hle, hne⟩
  · refine ((ranked_sorted ..).and hids).imp_of_mem fun {x y} hx hy ⟨hle, hne⟩ p hp q hq c' d' hc' hd' => ?_
    obtain ⟨c, hcin, rfl, hcs⟩ := hentry x hx
    obtain ⟨d, hdin, rfl, hds⟩ := hentry y hy
    rw [hcs] at hp
    rw [hds] at hq
    obtain ⟨hpid, -⟩ := mem_slotOrder.mp hp
    obtain ⟨hqid, -⟩ := mem_slotOrder.mp hq
    rw [← hpid, crew?_of_mem hd hcin] at hc'
    rw [← hqid, crew?_of_mem hd hdin] at hd'
    obtain rfl := Option.some.inj hc'
    obtain rfl := Option.some.inj hd'
    rw [if_neg (by rw [← hpid, ← hqid]; exact hne)]
    exact before_of_keyLe hle

theorem issueOrder : IssueOrder := fun _ core quad hd => ⟨fun id k => mem_issueOrder hd core quad id k, issueOrder_sorted hd core quad⟩

/-- Settles O53, turn by turn: what is tried is issued, pairs as one, and pipes and the order of a quad follow R59 and R262. -/
theorem stepRunsDecoded : Obligations.StepRunsDecoded := ⟨turnSteps, singleIssue, fetchThenIssue, pairIssue, pipeIntervals, issueOrder⟩

end Sys2Proof.Proofs.IssueOrderRows
end

