-- ==== Sys2Proof/Proofs/SoundStates.lean ====
section
/-!
PROOF. Proofs/SoundStates.lean: the invariant of memory and of the parts in fixed number, and how it passes through the ways in which the model's functions
are put together (11, 13, 14, 22, 24; log 2).

A lemma `f_sound` says that the model's function `f` leaves the invariant as it finds it. What a function answers beside a state - an outcome, an option, a
pair, the end of a cox instruction - is sound when every state in it is.
-/

namespace Sys2Proof.Proofs.SoundStates

open Sys2Proof Machine

/-! ## The invariant -/

/-- Memories in canonical form and parts in their numbers. -/
structure Fine (mem bmem amem smem : Memory) (cores : List CoreSt) (groups : List Machine.Group) (kds : List KeyDom) (ports : List Port) (coxes : List CoxSt) : Prop where
  mem : mem.wf = true
  bmem : bmem.wf = true
  amem : amem.wf = true
  smem : smem.wf = true
  cores : cores.length = 160
  groups : groups.length = 256
  kds : kds.length = 256
  ports : ports.length = 32
  coxes : coxes.length = 32

/-- The invariant of a state. -/
def Sound (s : State) : Prop := Fine s.mem s.bmem s.amem s.smem s.cores s.groups s.kds s.ports s.coxes

theorem sound_iff (s : State) : Sound s ↔ s.memoryCanonical = true ∧ s.sized = true := by
  unfold State.memoryCanonical State.sized
  simp only [Bool.and_eq_true, beq_iff_eq]
  constructor
  · rintro ⟨h1, h2, h3, h4, h5, h6, h7, h8, h9⟩
    exact ⟨⟨⟨⟨h1, h2⟩, h3⟩, h4⟩, ⟨⟨⟨⟨h5, h6⟩, h7⟩, h8⟩, h9⟩⟩
  · rintro ⟨⟨⟨⟨h1, h2⟩, h3⟩, h4⟩, ⟨⟨⟨⟨h5, h6⟩, h7⟩, h8⟩, h9⟩⟩
    exact ⟨h1, h2, h3, h4, h5, h6, h7, h8, h9⟩

theorem Sound.fine {s : State} (h : Sound s) : Fine s.mem s.bmem s.amem s.smem s.cores s.groups s.kds s.ports s.coxes := h

/-- A state that differs elsewhere only. -/
theorem Fine.sound {cycle clock clockAcc free order inputs hostStores todo cur lastRaise heldMark mem poison bmem amem smem tlb hcache icache arriving dieClk
    dieSeen replicas past invs views narrow frags ahead crews blocks cores asids ctxs held ras mgmt ops accas accfs launches groups outq wire landing marks relh
    aborts kds owners keyed fabcfg fabto lstate detex ports inq coxes startSlots mpcs owed spills saved secp}
    (h : Fine mem bmem amem smem cores groups kds ports coxes) :
    Sound (State.mk cycle clock clockAcc free order inputs hostStores todo cur lastRaise heldMark mem poison bmem amem smem tlb hcache icache arriving dieClk
      dieSeen replicas past invs views narrow frags ahead crews blocks cores asids ctxs held ras mgmt ops accas accfs launches groups outq wire landing marks relh
      aborts kds owners keyed fabcfg fabto lstate detex ports inq coxes startSlots mpcs owed spills saved secp) := h

/-! ## Writes to the parts -/

section Put

variable {mem bmem amem smem : Memory} {cores : List CoreSt} {groups : List Machine.Group} {kds : List KeyDom} {ports : List Port} {coxes : List CoxSt}

theorem Fine.putMem {a : Nat} {bs : List Byte} (h : Fine mem bmem amem smem cores groups kds ports coxes) :
    Fine (mem.write a bs) bmem amem smem cores groups kds ports coxes := { h with mem := Memory.write_wf bs a h.mem }

theorem Fine.putBmem {a : Nat} {bs : List Byte} (h : Fine mem bmem amem smem cores groups kds ports coxes) :
    Fine mem (bmem.write a bs) amem smem cores groups kds ports coxes := { h with bmem := Memory.write_wf bs a h.bmem }

theorem Fine.putAmem {a : Nat} {bs : List Byte} (h : Fine mem bmem amem smem cores groups kds ports coxes) :
    Fine mem bmem (amem.write a bs) smem cores groups kds ports coxes := { h with amem := Memory.write_wf bs a h.amem }

theorem Fine.putSmem {a : Nat} {bs : List Byte} (h : Fine mem bmem amem smem cores groups kds ports coxes) :
    Fine mem bmem amem (smem.write a bs) cores groups kds ports coxes := { h with smem := Memory.write_wf bs a h.smem }

theorem Fine.setSmem {a : Nat} {b : Byte} (h : Fine mem bmem amem smem cores groups kds ports coxes) :
    Fine mem bmem amem (smem.set a b) cores groups kds ports coxes := { h with smem := Memory.set_wf h.smem a b }

theorem Fine.setCores {k : Nat} {c : CoreSt} (h : Fine mem bmem amem smem cores groups kds ports coxes) :
    Fine mem bmem amem smem (cores.set k c) groups kds ports coxes := { h with cores := List.length_set.trans h.cores }

theorem Fine.mapCores {f : CoreSt → CoreSt} (h : Fine mem bmem amem smem cores groups kds ports coxes) :
    Fine mem bmem amem smem (cores.map f) groups kds ports coxes := { h with cores := (List.length_map _).trans h.cores }

theorem Fine.setGroups {k : Nat} {g : Machine.Group} (h : Fine mem bmem amem smem cores groups kds ports coxes) :
    Fine mem bmem amem smem cores (groups.set k g) kds ports coxes := { h with groups := List.length_set.trans h.groups }

theorem Fine.setKds {k : Nat} {d : KeyDom} (h : Fine mem bmem amem smem cores groups kds ports coxes) :
    Fine mem bmem amem smem cores groups (kds.set k d) ports coxes := { h with kds := List.length_set.trans h.kds }

theorem Fine.setPorts {k : Nat} {p : Port} (h : Fine mem bmem amem smem cores groups kds ports coxes) :
    Fine mem bmem amem smem cores groups kds (ports.set k p) coxes := { h with ports := List.length_set.trans h.ports }

theorem Fine.setCoxes {k : Nat} {c : CoxSt} (h : Fine mem bmem amem smem cores groups kds ports coxes) :
    Fine mem bmem amem smem cores groups kds ports (coxes.set k c) := { h with coxes := List.length_set.trans h.coxes }

end Put

/-! ## What is answered beside a state -/

/-- An outcome with a sound state. -/
def OutSound : Out → Prop
  | .next s => Sound s
  | .fault _ => True
  | .refused _ => True

/-- The end of a body without its effect. -/
def SigSound : Sig → Prop
  | .raise _ => True
  | .raiseIn s _ => Sound s
  | .hold => True
  | .holdIn s => Sound s
  | .stop _ => True

def DoneSound (d : Done) : Prop := Sound d.s

/-- The end of a cox instruction. -/
def EndSound : CoxEnd → Prop
  | .done s _ _ => Sound s
  | .waits s _ => Sound s
  | .fault s _ _ _ _ => Sound s
  | .ended s => Sound s
  | .hold => True

/-- A packet that a router handles. -/
def RoutedSound : Routed → Prop
  | .sent s => Sound s
  | .landed s => Sound s
  | .lost => True
  | .abort => True
  | .drop => True
  | .fan => True

/-- The end of a landing. -/
def LandedSound : Landed → Prop
  | .ok s => Sound s
  | .status _ => True
  | .wait => True

/-- What is to be done with a packet. -/
def AcceptSound : Accept → Prop
  | .act s => Sound s
  | .stop s => Sound s

/-- Nothing to ask: no state is in it. -/
def Free {α : Sort*} (_ : α) : Prop := True

def FstSound {α : Type} (p : State × α) : Prop := Sound p.1
def SndSound {α : Type} (p : α × State) : Prop := Sound p.2

/-- Every value of an option has a property. -/
def OptAll {α : Type} (P : α → Prop) : Option α → Prop
  | none => True
  | some a => P a

/-- Every value of a body has a property; an end without effect is sound. -/
def ResAll {α : Type} (P : α → Prop) : Res α → Prop
  | .error e => SigSound e
  | .ok a => P a

/-- Every value of a computation without states in its errors has a property. -/
def ExAll {ε α : Type} (P : α → Prop) : Except ε α → Prop
  | .error _ => True
  | .ok a => P a

/-- Every value of an engine access has a property. -/
def EngAll {α : Type} (P : α → Prop) : Eng α → Prop
  | .ok a => P a
  | .fault _ _ => True
  | .status _ => True
  | .wait => True

/-! ## Ways of putting together -/

theorem fst_sound {α : Type} {s : State} {a : α} (h : Sound s) : FstSound (s, a) := h

theorem failed_sound {α : Type} {P : α → Prop} {f : XFail} {va : Nat} : EngAll P (Eng.failed f va) := by
  unfold Eng.failed
  split
  · trivial
  · trivial
  · trivial

section Combine

variable {α β : Type} {P : α → Prop} {Q : β → Prop}

/-- A property of a value read off an equation. -/
theorem along (P : α → Prop) {a b : α} (h : P a) (e : a = b) : P b := e ▸ h

theorem either {c : Prop} [Decidable c] {a b : α} (ha : P a) (hb : P b) : P (if c then a else b) := by
  split
  · exact ha
  · exact hb

theorem over_list {f : α → β → α} {l : List β} {a : α} (hf : ∀ a b, P a → P (f a b)) (h : P a) : P (l.foldl f a) := by
  induction l generalizing a with
  | nil => exact h
  | cons b l ih => exact ih (hf a b h)

theorem or_default {o : Option α} {a : α} (ho : OptAll P o) (h : P a) : P (o.getD a) := by
  cases o with
  | none => exact h
  | some b => exact ho

theorem opt_bind {o : Option α} {f : α → Option β} (ho : OptAll P o) (hf : ∀ a, P a → OptAll Q (f a)) : OptAll Q (o.bind f) := by
  cases o with
  | none => trivial
  | some a => exact hf a ho

theorem opt_map {o : Option α} {f : α → β} (ho : OptAll P o) (hf : ∀ a, P a → Q (f a)) : OptAll Q (o.map f) := by
  cases o with
  | none => trivial
  | some a => exact hf a ho

theorem opt_none : OptAll P none := trivial

theorem opt_free {o : Option α} : OptAll Free o := by
  cases o with
  | none => trivial
  | some a => trivial

theorem opt_orElse {o : Option α} {f : Unit → Option α} (ho : OptAll P o) (hf : OptAll P (f ())) : OptAll P (o.orElse f) := by
  cases o with
  | none => exact hf
  | some a => exact ho

theorem first_some {l : List β} {f : β → Option α} (hf : ∀ b, OptAll P (f b)) : OptAll P (l.findSome? f) := by
  induction l with
  | nil => trivial
  | cons b l ih =>
    rw [List.findSome?_cons]
    cases hb : f b with
    | none => exact ih
    | some a => exact along (OptAll P) (hf b) hb

end Combine

end Sys2Proof.Proofs.SoundStates
end

