-- ==== Sys2Proof/Proofs/SoundMemory.lean ====
section
/-!
PROOF. Proofs/SoundMemory.lean: memory, translation, traps and the end of an instruction keep the invariant (11, 21, 22).
-/

namespace Sys2Proof.Proofs.SoundMemory

open Sys2Proof Machine SoundStates

/-! ## Functions of Machine/Memory -/

theorem setPoison_sound {s : State} {pa : Nat} (h : Sound s) : Sound (s.setPoison pa) := by
  unfold State.setPoison
  exact Fine.sound h

theorem clearPoison_sound {s : State} {pa : Nat} (h : Sound s) : Sound (s.clearPoison pa) := by
  unfold State.clearPoison
  exact Fine.sound h

theorem markKeys_sound {s : State} {pa n key : Nat} (h : Sound s) : Sound (s.markKeys pa n key) := by
  unfold State.markKeys
  dsimp only
  exact either h (Fine.sound h)

theorem keepPast_sound {s : State} {blk : Bool} {pa n : Nat} (h : Sound s) : Sound (s.keepPast blk pa n) := by
  unfold State.keepPast
  exact Fine.sound h

theorem putKey_sound {s : State} {pa key : Nat} {bs : List Byte} (h : Sound s) : Sound (s.putKey pa key bs) := by
  have hkept : Sound (s.keepPast false pa bs.length) := keepPast_sound h
  exact markKeys_sound (Fine.sound { hkept.fine with mem := Memory.write_wf bs pa h.fine.mem })

theorem writeKey_sound {s : State} {pa key : Nat} {bs : List Byte} (h : Sound s) : Sound (s.writeKey pa key bs) := by
  unfold State.writeKey
  exact either (putKey_sound h) (over_list (fun _ _ ht => either ht (putKey_sound ht)) h)

theorem ago_sound {s : State} {k : Nat} (h : Sound s) : Sound (s.ago k) := by
  unfold State.ago
  exact over_list (fun _ _ ht => either (Fine.sound (Fine.putBmem ht)) (Fine.sound (Fine.putMem ht))) h

theorem writePa_sound {s : State} {pa : Nat} {bs : List Byte} (h : Sound s) : Sound (s.writePa pa bs) := by
  unfold State.writePa
  exact writeKey_sound h

theorem learn_sound {s : State} {die : Nat} {clk : List Nat} (h : Sound s) : Sound (s.learn die clk) := by
  unfold State.learn
  exact Fine.sound h

theorem applyArriving_sound {s : State} {w : Arriving} (h : Sound s) : Sound (s.applyArriving w) := by
  unfold State.applyArriving
  dsimp only
  exact learn_sound (either (setPoison_sound (writeKey_sound h)) (writeKey_sound h))

theorem drainArriving_sound {s : State} {p : Arriving → Bool} (h : Sound s) : Sound (s.drainArriving p) := by
  unfold State.drainArriving
  dsimp only
  exact over_list (fun _ _ ht => applyArriving_sound ht) (Fine.sound h)

theorem applyReplica_sound {s : State} {r : Replica} (h : Sound s) : Sound (s.applyReplica r) := by
  unfold State.applyReplica
  exact learn_sound (writeKey_sound h)

theorem drainReplicas_sound {s : State} {p : Replica → Bool} (h : Sound s) : Sound (s.drainReplicas p) := by
  unfold State.drainReplicas
  dsimp only
  exact over_list (fun _ _ ht => applyReplica_sound ht) (Fine.sound h)

theorem release_sound {s : State} (h : Sound s) : Sound s.release := by
  unfold State.release
  dsimp only
  exact Fine.sound (drainReplicas_sound (drainArriving_sound h))

theorem heed_sound {s : State} {die : Nat} {clk : List Nat} (h : Sound s) : Sound (s.heed die clk) := by
  unfold State.heed
  exact learn_sound (drainReplicas_sound (drainArriving_sound h))

theorem reach_sound {s : State} {src dst : Nat} (h : Sound s) : Sound (s.reach src dst) := by
  unfold State.reach
  exact either h (heed_sound h)

theorem noteSeen_sound {s : State} {die pa n : Nat} (h : Sound s) : Sound (s.noteSeen die pa n) := by
  unfold State.noteSeen
  dsimp only
  exact Fine.sound h

theorem beforeRead_sound {s : State} {die pa n : Nat} (h : Sound s) : Sound (s.beforeRead die pa n) := by
  unfold State.beforeRead
  extract_lets s1 s2
  have hs1 : Sound s1 := over_list (fun _ _ ht => heed_sound ht) h
  have hs2 : Sound s2 := over_list (fun _ _ ht => heed_sound ht) hs1
  exact either h (noteSeen_sound (reach_sound hs2))

theorem heedAll_sound {s : State} {clk : List Nat} (h : Sound s) : Sound (s.heedAll clk) := by
  unfold State.heedAll
  exact over_list (fun _ _ ht => heed_sound ht) h

theorem releaseNear_sound {s : State} {scope crew blk core : Nat} (h : Sound s) : Sound (s.releaseNear scope crew blk core) := by
  unfold State.releaseNear
  exact either h (Fine.sound h)

theorem acquireAt_sound {s : State} {scope crew blk core : Nat} (h : Sound s) : Sound (s.acquireAt scope crew blk core) := by
  unfold State.acquireAt
  dsimp only
  exact Fine.sound (over_list (fun _ _ ht => heedAll_sound ht) h)

theorem noteRead_sound {s : State} {crew n k : Nat} {spots : List (Bool × Nat)} (h : Sound s) : Sound (s.noteRead crew n k spots) := by
  unfold State.noteRead
  dsimp only
  exact Fine.sound h

theorem noteWrote_sound {s : State} {crew n : Nat} {spots : List (Bool × Nat)} (h : Sound s) : Sound (s.noteWrote crew n spots) := by
  unfold State.noteWrote
  exact Fine.sound h

theorem flush_sound {s : State} {die : Nat} (h : Sound s) : Sound (s.flush die) := by
  unfold State.flush
  dsimp only
  exact either h (over_list (fun _ _ ht => heed_sound ht) (over_list (fun _ _ hu => heed_sound hu) h))

theorem store_sound {s : State} {die : Nat} {l : Loc} {bs : List Byte} (h : Sound s) : Sound (s.store die l bs) := by
  unfold State.store
  dsimp only
  split
  · next core off =>
    have hkept : Sound (s.keepPast true (coreKey core off) bs.length) := keepPast_sound h
    exact Fine.sound { hkept.fine with bmem := Memory.write_wf bs _ h.fine.bmem }
  · exact either (writeKey_sound (reach_sound h)) (Fine.sound h)
  · exact Fine.sound (writeKey_sound (reach_sound h))

theorem beforeLoad_sound {s : State} {die : Nat} {l : Loc} {n : Nat} (h : Sound s) : Sound (s.beforeLoad die l n) := by
  unfold State.beforeLoad
  split
  · exact h
  · exact beforeRead_sound h

theorem beforeRmw_sound {s : State} {die : Nat} {l : Loc} (h : Sound s) : Sound (s.beforeRmw die l) := by
  unfold State.beforeRmw
  dsimp only
  split
  · exact h
  · exact reach_sound (reach_sound h)

theorem rmwWrite_sound {s : State} {die : Nat} {l : Loc} {bs : List Byte} (h : Sound s) : Sound (s.rmwWrite die l bs) := by
  unfold State.rmwWrite
  split
  · exact writeKey_sound h
  · exact store_sound h

theorem invalidate_sound {s : State} {asid : Option Nat} {page : Option (Nat × Nat)} (h : Sound s) : Sound (s.invalidate asid page) := by
  unfold State.invalidate
  dsimp only
  exact Fine.sound h

theorem noteTlb_sound {s : State} {asid va : Nat} (h : Sound s) : Sound (s.noteTlb asid va) := by
  unfold State.noteTlb
  dsimp only
  exact Fine.sound h

theorem postMsix_sound {s : State} {v : Nat} (h : Sound s) : Sound (s.postMsix v) := by
  unfold State.postMsix
  dsimp only
  exact either (Fine.sound h) (either (either h (Fine.sound h)) (Fine.sound h))

theorem rasLog_sound {s : State} {kind unit addr ctx : Nat} (h : Sound s) : Sound (s.rasLog kind unit addr ctx) := by
  unfold State.rasLog
  dsimp only
  exact either (postMsix_sound (Fine.sound h)) (Fine.sound h)

theorem notePteBad_sound {s : State} {bad : Option Nat} (h : Sound s) : Sound (s.notePteBad bad) := by
  unfold State.notePteBad
  dsimp only
  split
  · exact h
  · exact rasLog_sound (Fine.sound h)

theorem writePage_sound {s : State} {asid die : Nat} {kd : Option Nat} {strict : Bool} {va : Nat} {bs : List Byte} (h : Sound s) :
    OptAll Sound (s.writePage asid die kd strict va bs) := by
  unfold State.writePage
  refine either trivial ?_
  split
  · exact trivial
  · exact either trivial (store_sound h)

theorem writeVa_sound {s : State} {asid die k x : Nat} {l : List Byte} (h : Sound s) : OptAll Sound (s.writeVa asid die k x l) := by
  induction k generalizing s asid die x l with
  | zero =>
    unfold State.writeVa
    exact h
  | succ n ih =>
    unfold State.writeVa
    dsimp only
    refine either h ?_
    split
    · exact trivial
    · next he => exact ih (along (OptAll Sound) (writePage_sound h) he)

theorem spread_sound {s : State} {asid die : Nat} {kd : Option Nat} {k x : Nat} {l : List Byte} (h : Sound s) : Sound (s.spread asid die kd k x l) := by
  induction k generalizing s asid die kd x l with
  | zero =>
    unfold State.spread
    exact h
  | succ n ih =>
    unfold State.spread
    dsimp only
    exact either h (ih (or_default (writePage_sound h) h))

theorem noteTable_sound {s : State} {asid va : Nat} (h : Sound s) : Sound (s.noteTable asid va) := by
  unfold State.noteTable
  split
  · exact notePteBad_sound h
  · exact h

theorem noteBadAt_sound {s : State} {asid va tag : Nat} (h : Sound s) : Sound (s.noteBadAt asid va tag) := by
  unfold State.noteBadAt
  split
  · exact notePteBad_sound h
  · exact h

theorem noteHandle_sound {s : State} {asid : Nat} {ht : DWord} {idx : Nat} {e : HandleEntry} (h : Sound s) : Sound (s.noteHandle asid ht idx e) := by
  unfold State.noteHandle
  exact either (noteTable_sound h) h

theorem noteEntry_sound {s : State} {asid die va n : Nat} (h : Sound s) : Sound (s.noteEntry asid die va n) := by
  unfold State.noteEntry
  dsimp only
  exact Fine.sound h

theorem useDomain_sound {s : State} {d : Nat} (h : Sound s) : Sound (s.useDomain d) := by
  unfold State.useDomain
  dsimp only
  exact either h (Fine.sound h)

theorem useContext_sound {s : State} {c : Nat} (h : Sound s) : Sound (s.useContext c) := by
  unfold State.useContext
  dsimp only
  exact either (useDomain_sound h) h

theorem setCtxSt_sound {s : State} {x : CtxSt} (h : Sound s) : Sound (s.setCtxSt x) := by
  unfold State.setCtxSt
  exact Fine.sound h

theorem noteLine_sound {s : State} {core asid va : Nat} {bs : List Byte} (h : Sound s) : Sound (s.noteLine core asid va bs) := by
  unfold State.noteLine
  dsimp only
  exact Fine.sound (noteTlb_sound h)

theorem noteFetch_sound {s0 : State} {core asid va : Nat} {s : State} (h : Sound s) : Sound (s0.noteFetch core asid va s) := by
  unfold State.noteFetch
  split
  · exact noteLine_sound h
  · exact notePteBad_sound h
  · exact h

theorem withNotes_sound {s t : State} (h : Sound s) : Sound (s.withNotes t) := by
  unfold State.withNotes
  dsimp only
  exact Fine.sound h

/-! ## Functions of Machine/Ops -/

theorem setCrew_sound {s : State} {c : Crew} (h : Sound s) : Sound (s.setCrew c) := by
  unfold State.setCrew
  exact Fine.sound h

theorem modCrew_sound {s : State} {id : Nat} {f : Crew → Crew} (h : Sound s) : Sound (s.modCrew id f) := by
  unfold State.modCrew
  exact Fine.sound h

theorem modBlock_sound {s : State} {id : Nat} {f : Block → Block} (h : Sound s) : Sound (s.modBlock id f) := by
  unfold State.modBlock
  exact Fine.sound h

theorem modCore_sound {s : State} {k : Nat} {f : CoreSt → CoreSt} (h : Sound s) : Sound (s.modCore k f) := by
  unfold State.modCore
  exact Fine.sound (Fine.setCores h)

theorem acquire_sound {s : State} {scope : Nat} {c : Crew} (h : Sound s) : Sound (s.acquire scope c) := by
  unfold State.acquire
  exact acquireAt_sound h

theorem releaseAt_sound {s : State} {scope : Nat} {c : Crew} (h : Sound s) : Sound (s.releaseAt scope c) := by
  unfold State.releaseAt
  exact either (release_sound h) (releaseNear_sound h)

theorem tryPost_sound {s : State} {h : Held} (hs : Sound s) : FstSound (s.tryPost h) := by
  unfold State.tryPost
  extract_lets _ _
  split
  · extract_lets _ _ _ _ _ _
    refine either hs ?_
    split
    · exact hs
    · next he =>
      split
      · exact hs
      · next he1 =>
        extract_lets s1
        have hs1 : Sound s1 := release_sound (along (OptAll Sound) (writeVa_sound (release_sound (along (OptAll Sound) (writeVa_sound hs) he))) he1)
        exact show Sound _ from either (postMsix_sound hs1) hs1
  · exact hs

theorem countWait_sound {s : State} {h : Held} (hs : Sound s) : Sound (s.countWait h) := by
  unfold State.countWait
  split
  · exact or_default (writeVa_sound hs) hs
  · exact hs

theorem postRecord_sound {s : State} {h : Held} (hs : Sound s) : FstSound (s.postRecord h) := by
  have hpost : FstSound (s.tryPost h) := tryPost_sound hs
  unfold State.postRecord
  dsimp only
  split
  · next t _ _ he =>
    rw [he] at hpost
    exact hpost
  · next t _ he =>
    rw [he] at hpost
    have ht : Sound t := hpost
    exact fst_sound (rasLog_sound (Fine.sound ht))
  · next t he =>
    rw [he] at hpost
    have ht : Sound t := hpost
    exact fst_sound (Fine.sound (countWait_sound ht))

theorem stallCrew_sound {s : State} {id : Nat} {cause : Cause} {k : Bool} {pc : DWord} {word : BitVec 96} {dbl step : Bool} (h : Sound s) :
    Sound (s.stallCrew id cause k pc word dbl step) := by
  unfold State.stallCrew
  split
  · exact h
  · extract_lets _ s1 s2 s3 _ _
    have hs1 : Sound s1 := setCrew_sound h
    have hs2 : Sound s2 := Fine.sound hs1
    have hs3 : Sound s3 := either (modCore_sound hs2) hs2
    split
    · next he => exact modCrew_sound (along FstSound (postRecord_sound hs3) he)

theorem checkTarget_sound {s : State} {core asid : Nat} {pc : DWord} {mask : Mask} {tgt : Bool} : ResAll Free (s.checkTarget core asid pc mask tgt) := by
  unfold State.checkTarget
  dsimp only
  split
  · exact trivial
  · exact trivial
  · refine either trivial ?_
    split
    · split
      · exact trivial
      · exact trivial
    · exact either trivial trivial
    · exact trivial

theorem touchLent_sound {s : State} {core blk off top : Nat} (h : Sound s) : Sound (s.touchLent core blk off top) := by
  unfold State.touchLent
  dsimp only
  exact either (modCore_sound h) h

theorem xfailSig_sound {s : State} {f : XFail} {va : Nat} {mask : Mask} (h : Sound s) : SigSound (s.xfailSig f va mask) := by
  unfold State.xfailSig
  split
  · exact trivial
  · exact trivial
  · exact trivial
  · exact notePteBad_sound h

theorem dsPlace_sound {s : State} {c : Crew} {idx : Nat} {push : Bool} (h : Sound s) : ResAll Free (s.dsPlace c idx push) := by
  unfold State.dsPlace
  dsimp only
  refine either trivial (either trivial (either (noteHandle_sound h) (either trivial (either trivial ?_))))
  split
  · exact xfailSig_sound h
  · split
    · exact trivial
    · exact either trivial trivial
    · exact either trivial trivial

theorem noteStack_sound {s : State} {c : Crew} {idx : Nat} (h : Sound s) : Sound (s.noteStack c idx) := by
  unfold State.noteStack
  dsimp only
  exact either (noteEntry_sound h) (noteTlb_sound (noteEntry_sound h))

theorem dsPush_sound {s : State} {id : Nat} {l : List (DWord × Bool × Mask)} (h : Sound s) : ResAll Sound (s.dsPush id l) := by
  induction l generalizing s id with
  | nil =>
    unfold State.dsPush
    exact h
  | cons x xs ih =>
    unfold State.dsPush
    dsimp only
    split
    · exact h
    · split
      · next he => exact along (ResAll Free) (dsPlace_sound h) he
      · exact ih (modCrew_sound (store_sound (noteStack_sound h)))

theorem failRefill_sound {s : State} {id : Nat} {cause : Cause} {k : Bool} (h : Sound s) : Sound (s.failRefill id cause k) := by
  unfold State.failRefill
  dsimp only
  exact stallCrew_sound h

theorem slotRule_sound {s : State} {id : Nat} (h : Sound s) : OptAll Sound (s.slotRule id) := by
  unfold State.slotRule
  dsimp only
  split
  · exact trivial
  · refine either trivial ?_
    split
    · exact setCrew_sound h
    · refine either ?_ ?_
      · split
        · exact trivial
        · exact trivial
        · exact trivial
        · exact failRefill_sound h
        · exact failRefill_sound (withNotes_sound h)
        · exact Fine.sound (setCrew_sound (beforeLoad_sound (noteStack_sound h)))
      · split
        · exact setCrew_sound h
        · exact trivial

theorem slotRules_sound {k : Nat} {s : State} {x : Nat} (h : Sound s) : Sound (State.slotRules k s x) := by
  induction k generalizing s x with
  | zero =>
    unfold State.slotRules
    exact h
  | succ n ih =>
    unfold State.slotRules
    split
    · next he => exact ih (along (OptAll Sound) (slotRule_sound h) he)
    · exact h

theorem settleSlots_sound {s : State} {id : Nat} (h : Sound s) : Sound (s.settleSlots id) := by
  unfold State.settleSlots
  split
  · exact h
  · exact slotRules_sound h

theorem deliver_sound {s : State} {id : Nat} (h : Sound s) : Sound (s.deliver id) := by
  unfold State.deliver
  dsimp only
  split
  · exact h
  · split
    · exact h
    · split
      · exact noteLine_sound (setCrew_sound h)
      · exact stallCrew_sound (noteFetch_sound h)
      · exact h

theorem takeCause_sound {s : State} {cause : Cause} (h : Sound s) : Sound (s.takeCause cause) := by
  unfold State.takeCause
  extract_lets s1 _ _
  have hs1 : Sound s1 := Fine.sound h
  split
  · exact hs1
  · split
    · exact hs1
    · extract_lets s2 _ _ _ s3
      have hs2 : Sound s2 := stallCrew_sound hs1
      have hs3 : Sound s3 := setCrew_sound hs1
      exact either hs2 (either (stallCrew_sound hs1) (either hs2 (either hs3 (deliver_sound hs3))))

theorem s_sound {self : Done} (h : DoneSound self) : Sound (self.s) := by
  unfold Done.s
  exact h

theorem tookPipes_sound {s : State} {c : Crew} {p : PcSlot} (h : Sound s) : Sound (s.tookPipes c p) := by
  unfold State.tookPipes
  dsimp only
  exact either h (modCore_sound h)

theorem commit_sound {s : State} {id : Nat} {sp : Spec} {wr : List Wr} (h : Sound s) : Sound (commit s id sp wr) := by
  unfold commit
  dsimp only
  split
  · exact h
  · exact setCrew_sound h

theorem opening_sound {s : State} (h : Sound s) : Sound s.opening := by
  unfold State.opening
  exact Fine.sound h

theorem issueEnd_sound {s : State} {c : Crew} {sp : Spec} {d : Done} (h : DoneSound d) : Sound (issueEnd s c sp d) := by
  unfold issueEnd
  dsimp only
  exact settleSlots_sound (Fine.sound (modCrew_sound (modCrew_sound (commit_sound h))))

theorem issueStop_sound {s : State} {qs : List Word} {e : Sig} (h : Sound s) (h2 : SigSound e) : OutSound (issueStop s qs e) := by
  unfold issueStop
  dsimp only
  split
  · exact Fine.sound h
  · next s1 =>
    have hcores : Sound s1 := h2
    exact show Sound _ from Fine.sound { h.fine with cores := hcores.fine.cores }
  · exact trivial
  · refine either (takeCause_sound (withNotes_sound h)) ?_
    split
    · exact takeCause_sound (Fine.sound (modCrew_sound h2))
    · exact trivial
  · refine either (takeCause_sound h) ?_
    split
    · exact takeCause_sound (Fine.sound (setCrew_sound h))
    · exact trivial

theorem issue_sound {sp : Spec} {bad : Crew → Bool} {body : Ctx → State → Res Done} {s0 : State} (h : ∀ x y, Sound y → ResAll DoneSound (body x y))
    (h2 : Sound s0) : OutSound (issue sp bad body s0) := by
  unfold issue
  extract_lets s1
  have hs1 : Sound s1 := opening_sound h2
  split
  · exact trivial
  · refine either (Fine.sound hs1) (either (takeCause_sound hs1) (either (takeCause_sound hs1) ?_))
    split
    · exact takeCause_sound hs1
    · split
      · next he => exact issueStop_sound hs1 (along (ResAll DoneSound) (h _ _ (setCrew_sound hs1)) he)
      · next he => exact issueEnd_sound (along (ResAll DoneSound) (h _ _ (setCrew_sound hs1)) he)

theorem justWrite_sound {f : Ctx → State → List Wr} {x : Ctx} {s : State} (h : Sound s) : ResAll DoneSound (justWrite f x s) := by
  unfold justWrite
  exact h

end Sys2Proof.Proofs.SoundMemory
end

