-- ==== Sys2Proof/Proofs/SoundCompute.lean ====
section
/-!
PROOF. Proofs/SoundCompute.lean: the instructions on registers and the transfers keep the invariant (5, 6, 7).
-/

namespace Sys2Proof.Proofs.SoundCompute

open Sys2Proof Machine SoundStates SoundMemory

/-! ## Functions of Machine/Operands -/

theorem runR_sound {f : FormR} {u : RUse} {lat : Nat} {g : DWord → DWord → DWord → Word} {s : State} (h : Sound s) : OutSound (runR f u lat g s) := by
  unfold runR
  dsimp only
  exact issue_sound (fun _ _ hx => justWrite_sound hx) h

theorem runR64_sound {f : FormR} {u : RUse} {lat : Nat} {g : DWord → DWord → DWord → DWord} {s : State} (h : Sound s) : OutSound (runR64 f u lat g s) := by
  unfold runR64
  dsimp only
  exact issue_sound (fun _ _ hx => justWrite_sound hx) h

/-! ## Functions of Machine/Flags -/

theorem fpDone_sound {x : Ctx} {s : State} {bits : Word} {regs : List Nat} {g : Nat → LaneRes} (h : Sound s) : ResAll DoneSound (fpDone x s bits regs g) := by
  unfold fpDone
  dsimp only
  exact either trivial (modCrew_sound h)

theorem runFp_sound {sp : Spec} {bad : Crew → Bool} {regs : Ctx → List Nat} {g : Ctx → State → Nat → LaneRes} {s : State} (h : Sound s) :
    OutSound (runFp sp bad regs g s) := by
  unfold runFp
  exact issue_sound (fun _ _ hx => fpDone_sound hx) h

/-! ## Functions of Machine/Integer -/

theorem runCarry_sound {f : FormX} {g : Nat → Nat → Nat → Word × Word} {s : State} (h : Sound s) : OutSound (runCarry f g s) := by
  unfold runCarry
  dsimp only
  exact issue_sound (fun _ _ hx => justWrite_sound hx) h

theorem runI_sound {f : FormI} {lat : Nat} {g : Word → Word → Word} {s : State} (h : Sound s) : OutSound (runI f lat g s) := by
  unfold runI
  dsimp only
  exact issue_sound (fun _ _ hx => justWrite_sound hx) h

theorem execIaddiI64_sound {f : FormI} {s : State} (h : Sound s) : OutSound (execIaddiI64 f s) := by
  unfold execIaddiI64
  dsimp only
  exact issue_sound (fun _ _ hx => justWrite_sound hx) h

/-! ## Functions of Machine/Logic -/

theorem execBfiB32_sound {f : FormX} {s : State} (h : Sound s) : OutSound (execBfiB32 f s) := by
  unfold execBfiB32
  dsimp only
  exact issue_sound (fun _ _ hx => justWrite_sound hx) h

theorem runCmp_sound {f : FormI} {p : Word → Word → Bool} {s : State} (h : Sound s) : OutSound (runCmp f p s) := by
  unfold runCmp
  dsimp only
  exact issue_sound (fun _ _ hx => justWrite_sound hx) h

theorem execQdef_sound {f : FormI} {s : State} (h : Sound s) : OutSound (execQdef f s) := by
  unfold execQdef
  dsimp only
  exact issue_sound (fun _ _ hx => either (modCrew_sound hx) trivial) h

/-! ## Functions of Machine/Float -/

theorem runFR_sound {f : FormR} {u : RUse} {pair : Bool} {lat : Nat} {op : FOp} {s : State} (h : Sound s) : OutSound (runFR f u pair lat op s) := by
  unfold runFR
  dsimp only
  exact runFp_sound h

theorem runFI_sound {f : FormI} {op : FOp} {s : State} (h : Sound s) : OutSound (runFI f op s) := by
  unfold runFI
  dsimp only
  exact runFp_sound h

theorem runFcmp_sound {f : FormI} {pair : Bool} {p : FPred} {s : State} (h : Sound s) : OutSound (runFcmp f pair p s) := by
  unfold runFcmp
  dsimp only
  exact issue_sound (fun _ _ hx => fpDone_sound hx) h

theorem runFn_sound {f : FormR} {g : Val → Fn} {s : State} (h : Sound s) : OutSound (runFn f g s) := by
  unfold runFn
  dsimp only
  exact runFp_sound h

/-! ## Functions of Machine/Convert -/

theorem runCvt_sound {f : FormI} {sr : Bool} {s : State} (h : Sound s) : OutSound (runCvt f sr s) := by
  unfold runCvt
  dsimp only
  exact issue_sound (fun _ _ hx => fpDone_sound hx) h

theorem runPack_sound {f : FormX} {dst src : NFmt} {s : State} (h : Sound s) : OutSound (runPack f dst src s) := by
  unfold runPack
  dsimp only
  exact runFp_sound h

theorem runUnpack_sound {f : FormR} {t : ETy} {src dst : NFmt} {n : Nat} {s : State} (h : Sound s) : OutSound (runUnpack f t src dst n s) := by
  unfold runUnpack
  dsimp only
  exact runFp_sound h

theorem execQblk_sound {f : FormR} {s : State} (h : Sound s) : OutSound (execQblk f s) := by
  unfold execQblk
  dsimp only
  exact issue_sound (fun _ _ hx => either trivial (either trivial (fpDone_sound hx))) h

theorem execDqblk_sound {f : FormR} {s : State} (h : Sound s) : OutSound (execDqblk f s) := by
  unfold execDqblk
  dsimp only
  exact issue_sound (fun _ _ hx => either trivial (fpDone_sound hx)) h

theorem execRngseed_sound {f : FormR} {s : State} (h : Sound s) : OutSound (execRngseed f s) := by
  unfold execRngseed
  dsimp only
  exact issue_sound (fun _ _ hx => modCrew_sound hx) h

theorem execRngnext_sound {f : FormR} {s : State} (h : Sound s) : OutSound (execRngnext f s) := by
  unfold execRngnext
  dsimp only
  exact issue_sound (fun _ _ hx => modCrew_sound hx) h

/-! ## Functions of Machine/CrossLane -/

theorem pointRead_sound {f : FormI} {srcs : List Opnd} {bad : Bool} {src : Ctx → State → Nat → Nat → Option Nat} {s : State} (h : Sound s) :
    OutSound (pointRead f srcs bad src s) := by
  unfold pointRead
  dsimp only
  exact issue_sound (fun _ _ hx => either trivial hx) h

theorem execXlaneRot_sound {f : FormI} {s : State} (h : Sound s) : OutSound (execXlaneRot f s) := by
  unfold execXlaneRot
  dsimp only
  exact pointRead_sound h

theorem execXlaneShup_sound {f : FormI} {s : State} (h : Sound s) : OutSound (execXlaneShup f s) := by
  unfold execXlaneShup
  dsimp only
  exact pointRead_sound h

theorem execXlaneShdn_sound {f : FormI} {s : State} (h : Sound s) : OutSound (execXlaneShdn f s) := by
  unfold execXlaneShdn
  dsimp only
  exact pointRead_sound h

theorem execXlaneIdx_sound {f : FormI} {s : State} (h : Sound s) : OutSound (execXlaneIdx f s) := by
  unfold execXlaneIdx
  dsimp only
  exact pointRead_sound h

theorem execXbcast_sound {f : FormI} {s : State} (h : Sound s) : OutSound (execXbcast f s) := by
  unfold execXbcast
  dsimp only
  exact pointRead_sound h

theorem execBfly_sound {f : FormI} {s : State} (h : Sound s) : OutSound (execBfly f s) := by
  unfold execBfly
  dsimp only
  exact issue_sound (fun _ _ hx => either trivial hx) h

theorem runComb_sound {f : FormI} {scan fl : Bool} {dec : Word → Nat → Nat} {fin : Nat → Nat} {op : Comb} {s : State} (h : Sound s) :
    OutSound (runComb f scan fl dec fin op s) := by
  unfold runComb
  dsimp only
  exact issue_sound (fun _ _ hx => fpDone_sound hx) h

theorem runMask_sound {f : FormI} {badImm : Bool} {p : Row → Nat → Nat → Bool} {s : State} (h : Sound s) : OutSound (runMask f badImm p s) := by
  unfold runMask
  dsimp only
  exact issue_sound (fun _ _ hx => hx) h

theorem runVote_sound {f : FormI} {all : Bool} {s : State} (h : Sound s) : OutSound (runVote f all s) := by
  unfold runVote
  dsimp only
  exact issue_sound (fun _ _ hx => hx) h

theorem execTopk_sound {f : FormI} {s : State} (h : Sound s) : OutSound (execTopk f s) := by
  unfold execTopk
  dsimp only
  exact issue_sound (fun _ _ hx => hx) h

/-! ## Functions of Machine/Control -/

theorem checkParts_sound {s : State} {c : Crew} {parts : List (DWord × Mask)} (h : Sound s) : ResAll Free (checkParts s c parts) := by
  unfold checkParts
  dsimp only
  split
  · exact trivial
  · split
    · exact show Sound _ from over_list (fun _ _ ht => noteFetch_sound ht) h
    · next e _ he =>
      obtain ⟨n, -, hfind⟩ := List.exists_of_findSome?_eq_some he
      obtain ⟨r, hr, hre⟩ := List.mem_filterMap.mp (List.mem_of_find?_eq_some hfind)
      obtain ⟨p, -, rfl⟩ := List.mem_map.mp hr
      split at hre
      · next hp =>
        cases hre
        exact show SigSound _ from along (ResAll Free) checkTarget_sound hp
      · cases hre
    · exact trivial

theorem transfer_sound {x : Ctx} {s : State} {stay : Mask} {parts : List (DWord × Mask)} (h : Sound s) : ResAll Sound (transfer x s stay parts) := by
  unfold transfer
  split
  · exact h
  · split
    · next he => exact along (ResAll Free) (checkParts_sound h) he
    · extract_lets s1 _ _ _ _ _
      have hs1 : Sound s1 := over_list (fun _ _ ht => noteLine_sound ht) h
      split
      · exact withNotes_sound hs1
      · next he1 => exact along (ResAll Sound) (dsPush_sound hs1) he1
      · next he2 => exact modCrew_sound (along (ResAll Sound) (dsPush_sound hs1) he2)

theorem transferTo_sound {x : Ctx} {s : State} {m : Mask} {pc : DWord} (h : Sound s) : ResAll Sound (transferTo x s m pc) := by
  unfold transferTo
  exact transfer_sound h

theorem transferEach_sound {x : Ctx} {s : State} {m : Mask} {pc : Nat → DWord} (h : Sound s) : ResAll Sound (transferEach x s m pc) := by
  unfold transferEach
  dsimp only
  exact transfer_sound h

theorem ctlDone_sound {r : Res State} {wr : List Wr} (h : ResAll Sound r) : ResAll DoneSound (ctlDone r wr) := by
  unfold ctlDone
  split
  · exact h
  · exact h

theorem runIndirect_sound {f : FormB} {s : State} (h : Sound s) : OutSound (runIndirect f s) := by
  unfold runIndirect
  dsimp only
  exact issue_sound (fun _ _ hx => ctlDone_sound (transferEach_sound hx)) h

theorem execCallx_sound {f : FormB} {s : State} (h : Sound s) : OutSound (execCallx f s) := by
  unfold execCallx
  dsimp only
  exact issue_sound (fun _ _ hx => ctlDone_sound (transferEach_sound hx)) h

theorem execLoop_sound {f : FormB} {s : State} (h : Sound s) : OutSound (execLoop f s) := by
  unfold execLoop
  dsimp only
  exact issue_sound (fun _ _ hx => ctlDone_sound (transferTo_sound hx)) h

theorem execJoin_sound {f : FormS} {s : State} (h : Sound s) : OutSound (execJoin f s) := by
  unfold execJoin
  dsimp only
  exact issue_sound (fun _ _ hx => modCrew_sound hx) h

theorem execExit_sound {f : FormS} {s : State} (h : Sound s) : OutSound (execExit f s) := by
  unfold execExit
  dsimp only
  exact issue_sound (fun _ _ hx => either (ctlDone_sound (transferTo_sound hx))
      (either trivial (either (modCrew_sound (modCrew_sound hx)) (modCrew_sound (modCrew_sound hx))))) h

theorem execPause_sound {f : FormI} {s : State} (h : Sound s) : OutSound (execPause f s) := by
  unfold execPause
  dsimp only
  exact issue_sound (fun _ _ hx => either hx (modCrew_sound hx)) h

theorem execIllop_sound {opc : BitVec 10} {rest : BitVec 86} {s0 : State} (h : Sound s0) : OutSound (execIllop opc rest s0) := by
  unfold execIllop
  dsimp only
  split
  · exact trivial
  · split
    · exact trivial
    · exact either (Fine.sound h) (takeCause_sound (Fine.sound h))

end Sys2Proof.Proofs.SoundCompute
end

