-- ==== Sys2Proof/Proofs/SoundAccess.lean ====
section
/-!
PROOF. Proofs/SoundAccess.lean: loads, stores, atomics and fences keep the invariant (8).
-/

namespace Sys2Proof.Proofs.SoundAccess

open Sys2Proof Machine SoundStates SoundMemory SoundCompute

/-! ## Functions of Machine/LoadStore -/

theorem checkSig_sound {s : State} {c : Crew} {as : List Machine.Acc} {size : Nat} {spaces : List Nat} {perm : HandleEntry → Bool} (h : Sound s) :
    OptAll SigSound (checkSig s c as size spaces perm) := by
  unfold checkSig
  refine either trivial ?_
  split
  · exact trivial
  · refine show SigSound _ from ?_
    split
    · exact noteHandle_sound h
    · exact trivial

theorem meetAll_sound {s : State} {c : Crew} {as : List Machine.Acc} {size : Nat} {r w seen : Bool} {part : State → List (Machine.Acc × Loc) → State}
    (h : Sound s) (h2 : ∀ x y, Sound x → Sound (part x y)) : ResAll Free (meetAll s c as size r w seen part) := by
  unfold meetAll
  dsimp only
  refine either trivial ?_
  split
  · exact trivial
  · split
    · exact trivial
    · exact h2 _ _ (notePteBad_sound h)
  · exact h2 _ _ h

theorem noteUse_sound {s : State} {c : Crew} {as : List Machine.Acc} (h : Sound s) : Sound (noteUse s c as) := by
  unfold noteUse
  dsimp only
  exact over_list (fun _ _ ht => either (touchLent_sound (noteEntry_sound ht)) (noteTlb_sound (noteEntry_sound ht))) h

theorem loadFrom_sound {s : State} {die size : Nat} {ps : List (Machine.Acc × Loc)} (h : Sound s) : Sound (loadFrom s die size ps) := by
  unfold loadFrom
  exact over_list (fun _ _ ht => beforeLoad_sound ht) h

theorem runLoad_sound {f : FormM} {size : Nat} {signed o64 acq : Bool} {s : State} (h : Sound s) : OutSound (runLoad f size signed o64 acq s) := by
  unfold runLoad
  extract_lets _ _
  refine issue_sound (fun _ _ hx => ?_) h
  extract_lets _ _
  split
  · next he => exact along (OptAll SigSound) (checkSig_sound hx) he
  · split
    · next he1 => exact along (ResAll Free) (meetAll_sound hx (fun _ _ hy => hy)) he1
    · extract_lets s1 _ _ _ s2
      have hs1 : Sound s1 := loadFrom_sound (noteUse_sound hx)
      have hs2 : Sound s2 := either hs1 (either (acquire_sound hs1) (noteRead_sound hs1))
      exact hs2

theorem storeAll_sound {s : State} {die size : Nat} {rows : List Row} {ps : List (Machine.Acc × Loc)} (h : Sound s) :
    Sound (storeAll s die size rows ps) := by
  unfold storeAll
  exact over_list (fun _ _ ht => store_sound ht) h

theorem noteLanes_sound {s : State} {c : Crew} {size : Nat} {ps : List (Machine.Acc × Loc)} (h : Sound s) : Sound (noteLanes s c size ps) := by
  unfold noteLanes
  exact noteWrote_sound h

theorem runStore_sound {f : FormM} {size : Nat} {o64 rel : Bool} {s : State} (h : Sound s) : OutSound (runStore f size o64 rel s) := by
  unfold runStore
  dsimp only
  refine issue_sound (fun _ _ hx => ?_) h
  split
  · next he => exact along (OptAll SigSound) (checkSig_sound hx) he
  · split
    · next he1 => exact along (ResAll Free) (meetAll_sound hx (fun _ _ hy => storeAll_sound (either (releaseAt_sound hy) hy))) he1
    · exact noteLanes_sound (storeAll_sound (noteUse_sound (either (releaseAt_sound hx) hx)))

theorem runStmask_sound {f : FormM} {o64 : Bool} {s : State} (h : Sound s) : OutSound (runStmask f o64 s) := by
  unfold runStmask
  dsimp only
  refine issue_sound (fun _ _ hx => ?_) h
  split
  · next he => exact along (OptAll SigSound) (checkSig_sound hx) he
  · split
    · next he1 => exact along (ResAll Free) (meetAll_sound hx (fun _ _ hy => hy)) he1
    · exact noteLanes_sound (over_list (fun _ _ ht => store_sound ht) (noteUse_sound hx))

theorem pfCheck_sound {s : State} {c : Crew} {as : List Machine.Acc} (h : Sound s) : OptAll SigSound (pfCheck s c as) := by
  unfold pfCheck
  exact first_some (fun _ => either trivial (either (noteHandle_sound h) trivial))

theorem runPfx_sound {f : FormM} {o64 : Bool} {s : State} (h : Sound s) : OutSound (runPfx f o64 s) := by
  unfold runPfx
  dsimp only
  refine issue_sound (fun _ _ hx => either hx ?_) h
  split
  · next he => exact along (OptAll SigSound) (pfCheck_sound hx) he
  · split
    · exact hx
    · split
      · exact hx
      · exact either hx (modCore_sound hx)

theorem execPcancel_sound {f : FormR} {s : State} (h : Sound s) : OutSound (execPcancel f s) := by
  unfold execPcancel
  dsimp only
  exact issue_sound (fun _ _ hx => show Sound _ from over_list (fun _ _ ht => modCore_sound ht) hx) h

theorem pfdDrop_sound {s : State} {die : Nat} (h : Sound s) : Sound (s.pfdDrop die) := by
  unfold State.pfdDrop
  dsimp only
  exact Fine.sound h

theorem addPfd_sound {s : State} {core : Nat} {r : PfdReq} (h : Sound s) : Sound (addPfd s core r) := by
  unfold addPfd
  dsimp only
  split
  · exact modCore_sound h
  · refine either (modCore_sound h) ?_
    split
    · exact either (modCore_sound h) (pfdDrop_sound h)
    · exact pfdDrop_sound h

theorem runPfd_sound {f : FormM} {o64 : Bool} {s : State} (h : Sound s) : OutSound (runPfd f o64 s) := by
  unfold runPfd
  dsimp only
  refine issue_sound (fun _ _ hx => either hx ?_) h
  split
  · next he => exact along (OptAll SigSound) (pfCheck_sound hx) he
  · split
    · exact hx
    · exact addPfd_sound hx

/-! ## Functions of Machine/Atomic -/

theorem rmwLane_sound {op : Rmw} {size : Nat} {s : State} {die : Nat} {l : Loc} {data : Nat} (h : Sound s) : FstSound (rmwLane op size s die l data) := by
  unfold rmwLane
  dsimp only
  split
  · exact rmwWrite_sound (beforeRmw_sound h)
  · exact beforeRmw_sound h

theorem rmwAll_sound {op : Rmw} {size die : Nat} {data : Nat → Nat} {s : State} {l : List (Machine.Acc × Loc)} (h : Sound s) :
    FstSound (rmwAll op size die data s l) := by
  induction l generalizing op size die data s with
  | nil =>
    unfold rmwAll
    exact h
  | cons x xs ih =>
    unfold rmwAll
    dsimp only
    exact ih (rmwLane_sound h)

theorem runRmw_sound {sp : Spec} {bad : Bool} {f : FormM} {units : ℤ} {size nb nd : Nat} {spaces : List Nat} {op : RmwOp} {s : State} (h : Sound s) :
    OutSound (runRmw sp bad f units size nb nd spaces op s) := by
  unfold runRmw
  dsimp only
  refine issue_sound (fun _ _ hx => ?_) h
  split
  · next he => exact along (OptAll SigSound) (checkSig_sound hx) he
  · split
    · next he1 => exact along (ResAll Free) (meetAll_sound hx (fun _ _ hy => hy)) he1
    · exact noteLanes_sound (rmwAll_sound (noteUse_sound hx))

theorem runAtom_sound {f : FormM} {size nb : Nat} {op : RmwOp} {s : State} (h : Sound s) : OutSound (runAtom f size nb op s) := by
  unfold runAtom
  dsimp only
  exact runRmw_sound h

theorem execFence_sound {f : FormS} {s : State} (h : Sound s) : OutSound (execFence f s) := by
  unfold execFence
  dsimp only
  exact issue_sound (fun _ _ hx => show Sound _ from either (acquire_sound (either (releaseAt_sound hx) hx)) (either (releaseAt_sound hx) hx)) h

theorem runBankop_sound {f : FormM} {op : RmwOp} {s : State} (h : Sound s) : OutSound (runBankop f op s) := by
  unfold runBankop
  exact runRmw_sound h

end Sys2Proof.Proofs.SoundAccess
end

