-- ==== Sys2Proof/Proofs/SoundEngine.lean ====
section
/-!
PROOF. Proofs/SoundEngine.lean: commands, copies and tile signals keep the invariant (8).
-/

namespace Sys2Proof.Proofs.SoundEngine

open Sys2Proof Machine SoundStates SoundMemory SoundCompute SoundAccess

theorem modOp_sound {s : State} {id : Nat} {f : Op → Op} (h : Sound s) : Sound (s.modOp id f) := by
  unfold State.modOp
  exact Fine.sound h

theorem postOp_sound {s : State} {o : Op} (h : Sound s) : Sound (s.postOp o) := by
  unfold State.postOp
  dsimp only
  exact Fine.sound (modCrew_sound h)

theorem applyOvf_sound {s : State} {o : Op} (h : Sound s) : Sound (applyOvf s o) := by
  unfold applyOvf
  dsimp only
  exact either h (Fine.sound (modBlock_sound h))

theorem countDone_sound {crew cls k : Nat} {s : State} (h : Sound s) : Sound (countDone crew cls k s) := by
  induction k generalizing crew cls s with
  | zero =>
    unfold countDone
    exact h
  | succ n ih =>
    unfold countDone
    dsimp only
    split
    · exact h
    · exact either h (ih (modCrew_sound (applyOvf_sound (Fine.sound h))))

theorem noteAwait_sound {s : State} {id stat : Nat} (h : Sound s) : Sound (s.noteAwait id stat) := by
  unfold State.noteAwait
  exact either h (Fine.sound h)

theorem finishOp_sound {s : State} {id stat : Nat} (h : Sound s) : Sound (s.finishOp id stat) := by
  unfold State.finishOp
  split
  · exact h
  · extract_lets _ s1
    have hs1 : Sound s1 := noteAwait_sound (modOp_sound h)
    exact either (applyOvf_sound (Fine.sound hs1)) (countDone_sound hs1)

theorem putPoison_sound {s : State} {bs : List (Byte × Bool)} {a : Nat} (h : Sound s) : Sound (s.putPoison bs a) := by
  unfold State.putPoison
  dsimp only
  exact over_list (fun _ _ ht => either (setPoison_sound ht) (either (clearPoison_sound ht) ht)) h

theorem enginePut_sound {s : State} {die : Nat} {l : Loc} {bs : List (Byte × Bool)} (h : Sound s) : Sound (s.enginePut die l bs) := by
  unfold State.enginePut
  dsimp only
  split
  · exact store_sound h
  · refine over_list (fun _ _ ht => putPoison_sound ht) ?_
    split
    · exact writeKey_sound (beforeRmw_sound (flush_sound h))
    · exact drainReplicas_sound (store_sound (beforeRmw_sound (flush_sound h)))

theorem noteEng_sound {s : State} {o : Op} {e : HandleEntry} {off : Nat} (h : Sound s) : Sound (s.noteEng o e off) := by
  unfold State.noteEng
  exact either h (noteTlb_sound h)

theorem noteHandles_sound {s : State} {o : Op} (h : Sound s) : Sound (s.noteHandles o) := by
  unfold State.noteHandles
  dsimp only
  exact over_list (fun _ _ ht => either ht (noteEntry_sound ht)) h

theorem noteBadHandles_sound {s : State} {o : Op} (h : Sound s) : Sound (s.noteBadHandles o) := by
  unfold State.noteBadHandles
  dsimp only
  exact over_list (fun _ _ ht => noteHandle_sound ht) h

theorem engWrite_sound {o : Op} {e : HandleEntry} {k : Nat} {s : State} {x : Nat} {l : List (Byte × Bool)} (h : Sound s) :
    EngAll Sound (engWrite o e k s x l) := by
  induction k generalizing o e s x l with
  | zero =>
    unfold engWrite
    exact h
  | succ n ih =>
    unfold engWrite
    dsimp only
    refine either h ?_
    split
    · exact failed_sound
    · split
      · exact trivial
      · exact trivial
      · exact either trivial (ih (enginePut_sound (noteEng_sound h)))

theorem keepAhead_sound {s : State} {key : List Nat} {stop : Nat} {bs : List (Byte × Bool)} (h : Sound s) : Sound (s.keepAhead key stop bs) := by
  unfold State.keepAhead
  dsimp only
  exact Fine.sound h

theorem pauseOp_sound {s : State} {o : Op} {slice kind code : Nat} {f : XFail} {va : Nat} (h : Sound s) : Sound (s.pauseOp o slice kind code f va) := by
  unfold State.pauseOp
  dsimp only
  exact modOp_sound (postRecord_sound (notePteBad_sound h))

theorem scrubSpan_sound {o : Op} {e : HandleEntry} {k : Nat} {s : State} {x y : Nat} (h : Sound s) : Sound (scrubSpan o e k s x y) := by
  induction k generalizing o e s x y with
  | zero =>
    unfold scrubSpan
    exact h
  | succ n ih =>
    unfold scrubSpan
    dsimp only
    refine either h (ih ?_)
    split
    · exact either (enginePut_sound h) h
    · exact h

theorem scrubCopy_sound {o : Op} {e : HandleEntry} {c : CopyShape} {base k : Nat} {s : State} {x : Nat} (h : Sound s) :
    Sound (scrubCopy o e c base k s x) := by
  induction k generalizing o e c base s x with
  | zero =>
    unfold scrubCopy
    exact h
  | succ n ih =>
    unfold scrubCopy
    split
    · exact h
    · exact ih (scrubSpan_sound h)

theorem scrub_sound {s : State} {o : Op} (h : Sound s) : Sound (s.scrub o) := by
  unfold State.scrub
  dsimp only
  exact either (scrubCopy_sound h) (either (over_list (fun _ _ ht => either ht (scrubSpan_sound ht)) h)
      (either (Fine.sound (Fine.putSmem h)) (either (scrubSpan_sound h) (either (scrubSpan_sound h) h))))

theorem failOp_sound {s : State} {o : Op} {stat : Nat} (h : Sound s) : Sound (s.failOp o stat) := by
  unfold State.failOp
  dsimp only
  exact finishOp_sound (either (scrub_sound h) h)

theorem finishCopy_sound {o : Op} {te : HandleEntry} {c : CopyShape} {past : List (Loc × Nat)} {k : Nat} {s : State} {x : Nat} (h : Sound s) :
    Sound (finishCopy o te c past k s x) := by
  induction k generalizing o te c past s x with
  | zero =>
    unfold finishCopy
    exact finishOp_sound h
  | succ n ih =>
    unfold finishCopy
    dsimp only
    split
    · exact finishOp_sound h
    · refine ih ?_
      split
      · exact either (enginePut_sound h) h
      · exact h

theorem copyRun_sound {o : Op} {te se : HandleEntry} {past : List (Loc × Nat)} {k : Nat} {s : State} {x : Nat} (h : Sound s) :
    Sound (copyRun o te se past k s x) := by
  induction k generalizing o te se past s x with
  | zero =>
    unfold copyRun
    exact h
  | succ n ih =>
    unfold copyRun
    extract_lets _ _ _ _
    split
    · exact finishCopy_sound h
    · split
      · exact h
      · exact failOp_sound h
      · exact either (pauseOp_sound h) h
      · extract_lets _ _
        split
        · exact h
        · exact failOp_sound h
        · exact either (pauseOp_sound h) h
        · next he =>
          extract_lets s1
          have hs1 : Sound s1 := modOp_sound (noteEng_sound (along (EngAll Sound) (engWrite_sound h) he))
          exact either (ih hs1) hs1

theorem stepCopy_sound {s : State} {o : Op} (h : Sound s) : Sound (stepCopy s o) := by
  unfold stepCopy
  dsimp only
  exact copyRun_sound (modOp_sound h)

theorem readIndices_sound {s : State} {o : Op} (h : Sound s) : Sound (readIndices s o) := by
  unfold readIndices
  dsimp only
  split
  · exact h
  · exact failOp_sound h
  · exact pauseOp_sound h
  · exact either (finishOp_sound h) (modOp_sound h)

theorem engMark_sound {o : Op} {e : HandleEntry} {k : Nat} {s : State} {x y : Nat} (h : Sound s) : EngAll Sound (engMark o e k s x y) := by
  induction k generalizing o e s x y with
  | zero =>
    unfold engMark
    exact h
  | succ n ih =>
    unfold engMark
    dsimp only
    refine either h ?_
    split
    · exact failed_sound
    · split
      · exact trivial
      · exact trivial
      · exact ih (enginePut_sound h)

theorem moveElement_sound {s : State} {o : Op} {k : Nat} (h : Sound s) : EngAll FstSound (moveElement s o k) := by
  unfold moveElement
  dsimp only
  refine either (either h ?_) ?_
  · split
    · next he => exact along (EngAll Sound) (engMark_sound h) he
    · exact trivial
    · exact trivial
    · exact trivial
  · split
    · exact trivial
    · exact trivial
    · exact trivial
    · refine either h ?_
      split
      · next he1 => exact along (EngAll Sound) (engWrite_sound h) he1
      · exact trivial
      · exact trivial
      · exact trivial

theorem gatherRun_sound {o : Op} {k : Nat} {s : State} {x : Nat} (h : Sound s) : Sound (gatherRun o k s x) := by
  induction k generalizing o s x with
  | zero =>
    unfold gatherRun
    exact h
  | succ n ih =>
    unfold gatherRun
    refine either (finishOp_sound h) ?_
    split
    · exact h
    · exact failOp_sound h
    · exact either (pauseOp_sound h) h
    · next he =>
      extract_lets s1
      have hs1 : Sound s1 := modOp_sound (noteEng_sound (along (EngAll FstSound) (moveElement_sound h) he))
      exact either (ih hs1) hs1

theorem stepGather_sound {s : State} {o : Op} (h : Sound s) : Sound (stepGather s o) := by
  unfold stepGather
  exact either (finishOp_sound h) (either (readIndices_sound h) (gatherRun_sound (modOp_sound h)))

theorem scaleRun_sound {o : Op} {se : HandleEntry} {k : Nat} {s : State} {x : Nat} (h : Sound s) : Sound (scaleRun o se k s x) := by
  induction k generalizing o se s x with
  | zero =>
    unfold scaleRun
    exact h
  | succ n ih =>
    unfold scaleRun
    extract_lets _ _ _
    refine either (finishOp_sound h) ?_
    split
    · exact h
    · exact failOp_sound h
    · exact either (pauseOp_sound h) h
    · extract_lets s1 s2
      have hs1 : Sound s1 := over_list (fun _ _ ht => Fine.sound (Fine.setSmem ht)) h
      have hs2 : Sound s2 := modOp_sound (noteEng_sound hs1)
      exact either (ih hs2) hs2

theorem stepScale_sound {s : State} {o : Op} (h : Sound s) : Sound (stepScale s o) := by
  unfold stepScale
  exact scaleRun_sound h

theorem stepTsig_sound {s : State} {o : Op} (h : Sound s) : Sound (stepTsig s o) := by
  unfold stepTsig
  dsimp only
  refine either h (either (finishOp_sound h) ?_)
  split
  · split
    · exact h
    · exact pauseOp_sound h
    · exact pauseOp_sound h
  · split
    · exact h
    · exact pauseOp_sound h
    · exact either (pauseOp_sound h) (finishOp_sound (rmwLane_sound (release_sound (noteEng_sound h))))

theorem stepEngine_sound {s : State} {o : Op} (h : Sound s) : Sound (s.stepEngine o) := by
  unfold State.stepEngine
  extract_lets s1 _
  have hs1 : Sound s1 := noteBadHandles_sound h
  exact either h (either (stepTsig_sound h) (either (either h (either (finishOp_sound hs1) (modOp_sound (noteHandles_sound hs1))))
      (either (stepCopy_sound h) (either (stepScale_sound h) (stepGather_sound h)))))

theorem runEngine_sound {f : FormX} {cls opc : Nat} {srcs : List Opnd} {bad : Bool} {args : Ctx → State → List Word} {s : State} (h : Sound s) :
    OutSound (runEngine f cls opc srcs bad args s) := by
  unfold runEngine
  dsimp only
  exact issue_sound (fun _ _ hx => either hx (either trivial (postOp_sound hx))) h

theorem runWaitc_sound {f : FormI} {cls : Nat} {s : State} (h : Sound s) : OutSound (runWaitc f cls s) := by
  unfold runWaitc
  dsimp only
  refine issue_sound (fun _ _ hx => either hx (either ?_ (either (modCrew_sound hx) (acquire_sound hx)))) h
  split
  · exact trivial
  · exact trivial

theorem addArr_sound {s : State} {blk i n : Nat} (h : Sound s) : Sound (s.addArr blk i n) := by
  unfold State.addArr
  exact modBlock_sound h

theorem execArrrd_sound {f : FormI} {s : State} (h : Sound s) : OutSound (execArrrd f s) := by
  unfold execArrrd
  dsimp only
  exact issue_sound (fun _ _ hx => either trivial hx) h

theorem execTsig_sound {f : FormM} {s : State} (h : Sound s) : OutSound (execTsig f s) := by
  unfold execTsig
  dsimp only
  refine issue_sound (fun _ _ hx => either hx ?_) h
  split
  · next he => exact along (OptAll SigSound) (checkSig_sound hx) he
  · refine either trivial ?_
    split
    · exact hx
    · exact postOp_sound hx

end Sys2Proof.Proofs.SoundEngine
end

