-- ==== Sys2Proof/Proofs/SoundFabric.lean ====
section
/-!
PROOF. Proofs/SoundFabric.lean: packets and the operations of the fabric keep the invariant (13).
-/

namespace Sys2Proof.Proofs.SoundFabric

open Sys2Proof Machine SoundStates SoundMemory SoundCompute SoundAccess SoundEngine

/-! ## Functions of Machine/Router -/

theorem modPort_sound {s : State} {p : Nat} {f : Port → Port} (h : Sound s) : Sound (s.modPort p f) := by
  unfold State.modPort
  exact Fine.sound (Fine.setPorts h)

theorem countDrop_sound {s : State} {port : Nat} (h : Sound s) : Sound (s.countDrop port) := by
  unfold State.countDrop
  dsimp only
  exact rasLog_sound (Fine.sound h)

theorem hopTo_sound {s : State} {h : Hd} {p : Packet} {t : Nat} {det : Bool} (hs : Sound s) : RoutedSound (s.hopTo h p t det) := by
  unfold State.hopTo
  dsimp only
  refine either trivial (either (Fine.sound hs) (either trivial (either trivial ?_)))
  split
  · exact trivial
  · exact Fine.sound hs

theorem routeStep_sound {s : State} {port : Nat} {p : Packet} (h : Sound s) : RoutedSound (s.routeStep port p) := by
  unfold State.routeStep
  dsimp only
  split
  · exact trivial
  · refine either trivial ?_
    split
    · exact hopTo_sound h
    · exact hopTo_sound h
    · exact either trivial (Fine.sound h)
    · exact Fine.sound h
    · exact trivial
    · exact trivial

/-- The function as a variable: the kernel must not evaluate the words of a header in its arguments, whose numbers are large. -/
theorem exists_routeStep : ∃ route, route = State.routeStep ∧ ∀ t n q, Sound t → RoutedSound (route t n q) :=
  ⟨_, rfl, fun _ _ _ => routeStep_sound⟩

theorem modGroup_sound {s : State} {g : Nat} {f : Machine.Group → Machine.Group} (h : Sound s) : Sound (s.modGroup g f) := by
  unfold State.modGroup
  exact Fine.sound (Fine.setGroups h)

theorem landScrub_sound {s : State} {die ctx : Nat} {b : Option Block} {e : HandleEntry} {off n : Nat} (h : Sound s) :
    Sound (s.landScrub die ctx b e off n) := by
  unfold State.landScrub
  dsimp only
  refine over_list (fun _ _ ht => ?_) h
  split
  · exact either (enginePut_sound ht) ht
  · exact ht

theorem failFab_sound {s : State} {o : Op} {stat : Nat} (h : Sound s) : Sound (s.failFab o stat) := by
  unfold State.failFab
  dsimp only
  exact failOp_sound (either (landScrub_sound (Fine.sound h)) h)

theorem loseOwn_sound {s : State} {h : Hd} {stat : Nat} (hs : Sound s) : Sound (s.loseOwn h stat) := by
  unfold State.loseOwn
  refine either ?_ hs
  split
  · exact failFab_sound hs
  · exact hs

theorem openAbort_sound {s : State} {g seq : Nat} (h : Sound s) : Sound (s.openAbort g seq) := by
  unfold State.openAbort
  exact either h (Fine.sound h)

theorem enter_sound {s : State} {h : Hd} {p : Packet} {last : Nat} (hs : Sound s) : RoutedSound (s.enter h p last) := by
  unfold State.enter
  dsimp only
  exact routeStep_sound hs

/-- The function as a variable: the kernel must not evaluate the words of a header in its arguments, whose numbers are large. -/
theorem exists_enter : ∃ enter, enter = State.enter ∧ ∀ t g q l, Sound t → RoutedSound (enter t g q l) :=
  ⟨_, rfl, fun _ _ _ _ => enter_sound⟩

theorem sendAbort_sound {s : State} {src m g seq : Nat} (h : Sound s) : FstSound (s.sendAbort src m g seq) := by
  generalize hf : State.sendAbort = f
  delta State.sendAbort at hf
  subst hf
  beta_reduce
  obtain ⟨enter, hfun, henter⟩ := exists_enter
  rw [← hfun]
  clear hfun
  dsimp only
  split
  · next he => exact along RoutedSound (henter _ _ _ _ h) he
  · next he => exact along RoutedSound (henter _ _ _ _ h) he
  · exact h

theorem sendAborts_sound {s : State} {g seq : Nat} (h : Sound s) : Sound (s.sendAborts g seq) := by
  unfold State.sendAborts
  refine over_list (fun _ _ ht => ?_) h
  split
  · next he => exact along FstSound (sendAbort_sound ht) he
  · next he => exact Fine.sound (along FstSound (sendAbort_sound ht) he)

theorem startAbort_sound {s : State} {g seq : Nat} (h : Sound s) : Sound (s.startAbort g seq) := by
  unfold State.startAbort
  exact either h (sendAborts_sound (openAbort_sound h))

theorem sendVia_sound {s : State} {h : Hd} {p : Packet} {last : Nat} (hs : Sound s) : FstSound (s.sendVia h p last) := by
  generalize hf : State.sendVia = f
  delta State.sendVia at hf
  subst hf
  beta_reduce
  obtain ⟨enter, hfun, henter⟩ := exists_enter
  rw [← hfun]
  clear hfun
  split
  · next he => exact along RoutedSound (henter _ _ _ _ hs) he
  · next he => exact along RoutedSound (henter _ _ _ _ hs) he
  · exact startAbort_sound hs
  · exact either (startAbort_sound hs) hs
  · exact countDrop_sound hs
  · exact hs

/-- The function as a variable: the kernel must not evaluate the words of a header in its arguments, whose numbers are large. -/
theorem exists_sendVia : ∃ via, via = State.sendVia ∧ ∀ t g q l, Sound t → FstSound (via t g q l) :=
  ⟨_, rfl, fun _ _ _ _ => sendVia_sound⟩

theorem sendPkt_sound {s : State} {h : Hd} {p : Packet} (hs : Sound s) : FstSound (s.sendPkt h p) := by
  unfold State.sendPkt
  exact sendVia_sound hs

/-- The function as a variable: the kernel must not evaluate the words of a header in its arguments, whose numbers are large. -/
theorem exists_sendPkt : ∃ send, send = State.sendPkt ∧ ∀ t g q, Sound t → FstSound (send t g q) :=
  ⟨_, rfl, fun _ _ _ => sendPkt_sound⟩

theorem answer_sound {s : State} {h : Hd} {stat : Nat} {data : List Byte} {bad : List Nat} (hs : Sound s) : Sound (s.answer h stat data bad) := by
  generalize hf : State.answer = f
  delta State.answer at hf
  subst hf
  beta_reduce
  obtain ⟨send, hfun, hsend⟩ := exists_sendPkt
  rw [← hfun]
  clear hfun
  dsimp only
  exact hsend _ _ _ hs

theorem route_sound {s : State} {port : Nat} {p : Packet} (h : Sound s) : Sound (s.route port p) := by
  unfold State.route
  dsimp only
  split
  · next he => exact along RoutedSound (routeStep_sound h) he
  · next he => exact along RoutedSound (routeStep_sound h) he
  · exact either (startAbort_sound h) (loseOwn_sound h)
  · exact startAbort_sound h
  · exact either (answer_sound (countDrop_sound h)) (countDrop_sound h)
  · exact over_list (fun _ _ ht => sendPkt_sound ht) h

/-! ## Functions of Machine/Fabric -/

theorem noteLand_sound {s : State} {ctx : Nat} {e : HandleEntry} {off : Nat} (h : Sound s) : Sound (s.noteLand ctx e off) := by
  unfold State.noteLand
  exact either h (noteTlb_sound h)

theorem noteLandBad_sound {s : State} {ctx : Nat} {e : HandleEntry} {off n : Nat} (h : Sound s) : Sound (s.noteLandBad ctx e off n) := by
  unfold State.noteLandBad
  exact over_list (fun _ _ ht => either ht (noteBadAt_sound ht)) h

theorem landWrite_sound {die ctx : Nat} {b : Option Block} {e : HandleEntry} {k : Nat} {s : State} {x : Nat} {l : List (Byte × Bool)} (h : Sound s) :
    LandedSound (State.landWrite die ctx b e k s x l) := by
  induction k generalizing die ctx b e s x l with
  | zero =>
    unfold State.landWrite
    exact h
  | succ n ih =>
    unfold State.landWrite
    dsimp only
    refine either h ?_
    split
    · split
      · exact trivial
      · exact trivial
      · exact trivial
    · split
      · exact trivial
      · exact trivial
      · exact either trivial (ih (enginePut_sound (noteLand_sound h)))

theorem landPieces_sound {die ctx : Nat} {b : Option Block} {e : HandleEntry} {l : List (Nat × List (Byte × Bool))} {s : State} (h : Sound s) :
    LandedSound (State.landPieces die ctx b e l s) := by
  induction l generalizing die ctx b e s with
  | nil =>
    unfold State.landPieces
    exact h
  | cons x xs ih =>
    unfold State.landPieces
    split
    · next he => exact ih (along LandedSound (landWrite_sound h) he)
    · exact landWrite_sound h

theorem request_sound {s : State} {o : Op} {h : Hd} {p : Packet} {lost : Nat} (hs : Sound s) : Sound (s.request o h p lost) := by
  generalize hf : State.request = f
  delta State.request at hf
  subst hf
  beta_reduce
  obtain ⟨send, hfun, hsend⟩ := exists_sendPkt
  rw [← hfun]
  clear hfun
  dsimp only
  split
  · next he => exact along FstSound (hsend _ _ _ (modOp_sound (either (Fine.sound hs) hs))) he
  · next he => exact failFab_sound (along FstSound (hsend _ _ _ (modOp_sound (either (Fine.sound hs) hs))) he)

theorem readPiece_sound {s : State} {o : Op} (h : Sound s) : EngAll FstSound (s.readPiece o) := by
  unfold State.readPiece
  dsimp only
  split
  · exact keepAhead_sound (noteEng_sound h)
  · exact trivial
  · exact trivial
  · exact trivial

theorem writePiece_sound {s : State} {o : Op} {n off : Nat} {bs : List (Byte × Bool)} (h : Sound s) : EngAll Sound (s.writePiece o n off bs) := by
  unfold State.writePiece
  dsimp only
  refine over_list (fun _ _ ht => ?_) (Fine.sound h)
  split
  · exact engWrite_sound ht
  · exact ht

theorem allSent_sound {s : State} {o : Op} (h : Sound s) : Sound (s.allSent o) := by
  unfold State.allSent
  split
  · exact h
  · exact either (finishOp_sound h) (modOp_sound h)

theorem stepFput_sound {s : State} {o : Op} (h : Sound s) : Sound (stepFput s o) := by
  unfold stepFput
  dsimp only
  refine either (allSent_sound h) ?_
  split
  · exact h
  · exact failFab_sound h
  · exact pauseOp_sound h
  · next he => exact request_sound (modOp_sound (along (EngAll FstSound) (readPiece_sound h) he))

theorem stepFget_sound {s : State} {o : Op} (h : Sound s) : Sound (stepFget s o) := by
  unfold stepFget
  split
  · extract_lets _
    split
    · exact h
    · exact failOp_sound h
    · exact pauseOp_sound h
    · next he =>
      extract_lets s1 s2
      have hs1 : Sound s1 := either (addArr_sound (along (EngAll Sound) (writePiece_sound h) he)) (along (EngAll Sound) (writePiece_sound h) he)
      have hs2 : Sound s2 := modOp_sound hs1
      exact either (finishOp_sound hs2) hs2
  · extract_lets _ _ s3
    have hs3 : Sound s3 := modOp_sound h
    exact either h (either (allSent_sound h) (request_sound hs3))

theorem stepFatom_sound {s : State} {o : Op} (h : Sound s) : Sound (stepFatom s o) := by
  unfold stepFatom
  dsimp only
  exact request_sound (modOp_sound h)

theorem stepFmark_sound {s : State} {o : Op} (h : Sound s) : Sound (stepFmark s o) := by
  generalize hf : stepFmark = f
  delta stepFmark at hf
  subst hf
  beta_reduce
  obtain ⟨route, hfun, hroute⟩ := exists_routeStep
  rw [← hfun]
  clear hfun
  dsimp only
  refine over_list (fun _ _ ht => ?_) (modOp_sound h)
  split
  · next he => exact along RoutedSound (hroute _ _ _ ht) he
  · next he => exact along RoutedSound (hroute _ _ _ ht) he
  · exact failOp_sound ht

theorem probeAll_sound {s : State} {o : Op} (h : Sound s) : Sound (s.probeAll o) := by
  generalize hf : State.probeAll = f
  delta State.probeAll at hf
  subst hf
  beta_reduce
  obtain ⟨send, hfun, hsend⟩ := exists_sendPkt
  rw [← hfun]
  clear hfun
  dsimp only
  refine over_list (fun _ _ ht => ?_) (modOp_sound h)
  split
  · next he => exact along FstSound (hsend _ _ _ ht) he
  · next he => exact modOp_sound (along FstSound (hsend _ _ _ ht) he)

theorem stepFstmc_sound {s : State} {o : Op} (h : Sound s) : Sound (stepFstmc s o) := by
  unfold stepFstmc
  refine either (allSent_sound h) ?_
  split
  · exact h
  · exact failFab_sound h
  · exact pauseOp_sound h
  · next he =>
    extract_lets _ s1
    have hs1 : Sound s1 := modOp_sound (along (EngAll FstSound) (readPiece_sound h) he)
    exact over_list (fun _ _ ht => request_sound ht) hs1

theorem stepFldred_sound {s : State} {o : Op} (h : Sound s) : Sound (stepFldred s o) := by
  generalize hf : stepFldred = f
  delta stepFldred at hf
  subst hf
  beta_reduce
  obtain ⟨via, hfun, hvia⟩ := exists_sendVia
  rw [← hfun]
  clear hfun
  dsimp only
  refine either (either (either (modOp_sound h) h) ?_) ?_
  · split
    · next he => exact along FstSound (hvia _ _ _ _ (modOp_sound h)) he
    · next he => exact startAbort_sound (along FstSound (hvia _ _ _ _ (modOp_sound h)) he)
  · split
    · exact finishOp_sound h
    · split
      · exact h
      · exact failOp_sound h
      · exact pauseOp_sound h
      · next he1 => exact modOp_sound (along (EngAll Sound) (writePiece_sound h) he1)

theorem stepFabric_sound {s : State} {o : Op} (h : Sound s) : Sound (s.stepFabric o) := by
  unfold State.stepFabric
  extract_lets s1 _
  have hs1 : Sound s1 := noteBadHandles_sound h
  refine either h (either (either h (either (finishOp_sound hs1) (modOp_sound (noteHandles_sound hs1)))) (either h (either h ?_)))
  split
  · exact stepFput_sound h
  · exact stepFget_sound h
  · exact stepFatom_sound h
  · exact stepFmark_sound h
  · exact either (probeAll_sound h) (either (either h (either (finishOp_sound h) (either (modOp_sound h) h))) (stepFldred_sound h))
  · exact either (probeAll_sound h) (either (either h (either (finishOp_sound h) (modOp_sound h))) (stepFstmc_sound h))

theorem fabTimeout_sound {s : State} {id : Nat} (h : Sound s) : Sound (s.fabTimeout id) := by
  unfold State.fabTimeout
  split
  · exact h
  · exact either h (either (finishOp_sound (modOp_sound h)) (failFab_sound h))

theorem runFabric_sound {f : FormX} {opc : Nat} {srcs : List Opnd} {bad : Bool} {args : Ctx → State → List Word} {s : State} (h : Sound s) :
    OutSound (runFabric f opc srcs bad args s) := by
  unfold runFabric
  dsimp only
  exact issue_sound (fun _ _ hx => either hx (either trivial (postOp_sound hx))) h

theorem execFmark_sound {f : FormS} {s : State} (h : Sound s) : OutSound (execFmark f s) := by
  unfold execFmark
  dsimp only
  exact issue_sound (fun _ _ hx => either hx (either trivial (postOp_sound hx))) h

end Sys2Proof.Proofs.SoundFabric
end

