-- ==== Sys2Proof/Proofs/SoundMatrix.lean ====
section
/-!
PROOF. Proofs/SoundMatrix.lean: tile tasks and accumulator units keep the invariant (9).
-/

namespace Sys2Proof.Proofs.SoundMatrix

open Sys2Proof Machine SoundStates SoundMemory SoundCompute SoundAccess SoundEngine SoundFabric

theorem accPut_sound {s : State} {core off : Nat} {ws : List Nat} (h : Sound s) : Sound (s.accPut core off ws) := by
  unfold State.accPut
  exact Fine.sound (Fine.putAmem h)

theorem rowDone_sound {s : State} {o : Op} {c ovf stat : Nat} (h : Sound s) : Sound (rowDone s o c ovf stat) := by
  unfold rowDone
  exact modOp_sound h

theorem sliceEnd_sound {s : State} {o : Op} {c stat : Nat} (h : Sound s) : Sound (sliceEnd s o c stat) := by
  unfold sliceEnd
  exact modOp_sound h

theorem mmaRow_sound {s : State} {o : Op} {core c i : Nat} (h : Sound s) : Sound (mmaRow s o core c i) := by
  unfold mmaRow
  dsimp only
  split
  · exact h
  · exact sliceEnd_sound h
  · exact pauseOp_sound h
  · split
    · exact h
    · exact sliceEnd_sound h
    · exact pauseOp_sound h
    · exact either (rowDone_sound (accPut_sound h)) (rowDone_sound (accPut_sound h))

theorem msaccRow_sound {s : State} {o : Op} {core c i : Nat} (h : Sound s) : Sound (msaccRow s o core c i) := by
  unfold msaccRow
  dsimp only
  exact rowDone_sound (accPut_sound h)

theorem mzeroRow_sound {s : State} {o : Op} {core c i : Nat} (h : Sound s) : Sound (mzeroRow s o core c i) := by
  unfold mzeroRow
  exact rowDone_sound (accPut_sound h)

theorem accstRow_sound {s : State} {o : Op} {core c i : Nat} (h : Sound s) : Sound (accstRow s o core c i) := by
  unfold accstRow
  dsimp only
  split
  · exact h
  · exact sliceEnd_sound h
  · exact pauseOp_sound h
  · next he => exact rowDone_sound (along (EngAll Sound) (engWrite_sound h) he)

theorem accstRun_sound {core c k : Nat} {s : State} {x y : Nat} (h : Sound s) : Sound (accstRun core c k s x y) := by
  induction k generalizing core c s x y with
  | zero =>
    unfold accstRun
    exact h
  | succ n ih =>
    unfold accstRun
    dsimp only
    split
    · exact h
    · exact either h (either (ih (accstRow_sound h)) (accstRow_sound h))

theorem admitTask_sound {s : State} {o : Op} (h : Sound s) : Sound (s.admitTask o) := by
  unfold State.admitTask
  dsimp only
  exact either h (either (finishOp_sound h) (modOp_sound h))

theorem startSlice_sound {s : State} {core : Nat} (h : Sound s) : Sound (s.startSlice core) := by
  unfold State.startSlice
  dsimp only
  refine either h ?_
  split
  · exact h
  · exact modOp_sound h

theorem touchTask_sound {s : State} {o : Op} (h : Sound s) : Sound (s.touchTask o) := by
  unfold State.touchTask
  exact either (touchLent_sound h) h

theorem stepSlice_sound {s : State} {o : Op} {c : Nat} (h : Sound s) : Sound (s.stepSlice o c) := by
  unfold State.stepSlice
  dsimp only
  refine either h ?_
  split
  · exact h
  · split
    · exact mmaRow_sound (touchTask_sound h)
    · exact msaccRow_sound (touchTask_sound h)
    · exact mzeroRow_sound (touchTask_sound h)
    · exact accstRun_sound (touchTask_sound h)

theorem scrubTask_sound {s : State} {o : Op} (h : Sound s) : Sound (s.scrubTask o) := by
  unfold State.scrubTask
  dsimp only
  refine either (over_list (fun _ _ ht => scrubSpan_sound ht) h) (over_list (fun _ _ ht => ?_) h)
  split
  · exact ht
  · exact over_list (fun _ _ hu => over_list (fun _ _ ht => accPut_sound ht) hu) ht

theorem retireTask_sound {s : State} {o : Op} (h : Sound s) : Sound (s.retireTask o) := by
  unfold State.retireTask
  dsimp only
  exact either h (finishOp_sound (either (scrubTask_sound h) h))

theorem execTshape_sound {f : FormT} {s : State} (h : Sound s) : OutSound (execTshape f s) := by
  unfold execTshape
  dsimp only
  exact issue_sound (fun _ _ hx => either hx (either trivial (either trivial (modCrew_sound hx)))) h

theorem runTask_sound {f : FormT} {opc : Nat} {used : List Opnd} {bad hint : Bool} {wrong : Ctx → State → Option Nat} {args md : Ctx → State → List Word}
    {s : State} (h : Sound s) : OutSound (runTask f opc used bad hint wrong args md s) := by
  unfold runTask
  dsimp only
  refine issue_sound (fun _ _ hx => ?_) h
  split
  · exact trivial
  · refine either hx (either trivial ?_)
    split
    · exact trivial
    · exact either trivial (postOp_sound hx)

theorem runMma_sound {f : FormT} {opc : Nat} {s : State} (h : Sound s) : OutSound (runMma f opc s) := by
  unfold runMma
  exact runTask_sound h

theorem runMmas_sound {f : FormT} {opc : Nat} {s : State} (h : Sound s) : OutSound (runMmas f opc s) := by
  unfold runMmas
  dsimp only
  exact runTask_sound h

theorem execAcca_sound {f : FormI} {s : State} (h : Sound s) : OutSound (execAcca f s) := by
  unfold execAcca
  dsimp only
  exact issue_sound (fun _ _ hx => either hx (either trivial (either trivial (either trivial (modCrew_sound (Fine.sound hx)))))) h

theorem execAccf_sound {f : FormI} {s : State} (h : Sound s) : OutSound (execAccf f s) := by
  unfold execAccf
  dsimp only
  refine issue_sound (fun _ _ hx => either hx (either trivial (either trivial ?_))) h
  split
  · exact hx
  · exact Fine.sound (modBlock_sound hx)

theorem putImage_sound {s : State} {asid : Nat} {kd : Option Nat} {va : Nat} {bs : List Byte} (h : Sound s) : Sound (s.putImage asid kd va bs) := by
  unfold State.putImage
  exact spread_sound h

theorem saveUnit_sound {s : State} {b : Block} {u : Nat} {bs : List Byte} (h : Sound s) : Sound (s.saveUnit b u bs) := by
  unfold State.saveUnit
  dsimp only
  exact modBlock_sound (putImage_sound h)

theorem spillBlock_sound {s : State} {blk : Nat} (h : Sound s) : Sound (s.spillBlock blk) := by
  unfold State.spillBlock
  dsimp only
  split
  · exact h
  · exact modBlock_sound (Fine.sound (over_list (fun _ _ ht => saveUnit_sound ht) (Fine.sound h)))

theorem grant_sound {s : State} {r : AccaReq} {first : Nat} (h : Sound s) : Sound (s.grant r first) := by
  unfold State.grant
  dsimp only
  exact modCrew_sound (modBlock_sound (Fine.sound (over_list (fun _ _ ht => Fine.sound (Fine.putAmem ht)) h)))

theorem allocate_sound {s : State} {core : Nat} (h : Sound s) : Sound (s.allocate core) := by
  unfold State.allocate
  dsimp only
  split
  · exact h
  · split
    · exact h
    · split
      · exact h
      · refine either (grant_sound h) ?_
        split
        · exact h
        · exact spillBlock_sound h

theorem releaseUnit_sound {s : State} {i : Nat} (h : Sound s) : Sound (s.releaseUnit i) := by
  unfold State.releaseUnit
  dsimp only
  split
  · exact h
  · exact either h (modBlock_sound (Fine.sound h))

theorem execAccld_sound {f : FormT} {s : State} (h : Sound s) : OutSound (execAccld f s) := by
  unfold execAccld
  dsimp only
  exact issue_sound (fun _ _ hx => either trivial (either trivial (either trivial hx))) h

theorem execBucket_sound {f : FormR} {s : State} (h : Sound s) : OutSound (execBucket f s) := by
  unfold execBucket
  dsimp only
  exact issue_sound (fun _ _ hx => either trivial hx) h

end Sys2Proof.Proofs.SoundMatrix
end

