-- ==== Sys2Proof/Proofs/SoundSystem.lean ====
section
/-!
PROOF. Proofs/SoundSystem.lean: blocks that stop or move, system instructions and images keep the invariant (10, 12, 21).
-/

namespace Sys2Proof.Proofs.SoundSystem

open Sys2Proof Machine SoundStates SoundMemory SoundCompute SoundAccess SoundEngine SoundFabric SoundMatrix

/-! ## Functions of Machine/Stop -/

theorem modLaunch_sound {s : State} {id : Nat} {f : Launch → Launch} (h : Sound s) : Sound (s.modLaunch id f) := by
  unfold State.modLaunch
  exact Fine.sound h

theorem writeBack_sound {s : State} {l : Launch} (h : Sound s) : Sound (s.writeBack l) := by
  unfold State.writeBack
  dsimp only
  exact either h (either (writePa_sound (release_sound h)) (or_default (writeVa_sound (release_sound h)) h))

theorem setLaunch_sound {s : State} {id st : Nat} (h : Sound s) : Sound (s.setLaunch id st) := by
  unfold State.setLaunch
  dsimp only
  split
  · exact writeBack_sound (modLaunch_sound h)
  · exact modLaunch_sound h

theorem haltCrew_sound {s : State} {id : Nat} (h : Sound s) : Sound (s.haltCrew id) := by
  unfold State.haltCrew
  dsimp only
  split
  · exact h
  · exact either h (setCrew_sound (Fine.sound (Fine.mapCores h)))

theorem freeUnits_sound {s : State} {core unit units : Nat} (h : Sound s) : Sound (s.freeUnits core unit units) := by
  unfold State.freeUnits
  exact modCore_sound h

theorem gateFault_sound {s : State} {id : Nat} {pc : DWord} {stat : Nat} (h : Sound s) : Sound (s.gateFault id pc stat) := by
  unfold State.gateFault
  dsimp only
  exact Fine.sound (takeCause_sound (Fine.sound h))

theorem unwind_sound {s : State} {id d status cause : Nat} (h : Sound s) : Sound (s.unwind id d status cause) := by
  unfold State.unwind
  dsimp only
  split
  · exact h
  · exact either h (modCrew_sound (Fine.sound (haltCrew_sound h)))

theorem endUnwind_sound {s : State} {id : Nat} (h : Sound s) : Sound (s.endUnwind id) := by
  unfold State.endUnwind
  split
  · exact h
  · split
    · exact h
    · extract_lets _ s1 _
      have hs1 : Sound s1 := over_list (fun _ _ ht => freeUnits_sound ht) h
      refine either h ?_
      split
      · exact h
      · extract_lets s2
        have hs2 : Sound s2 := modCrew_sound hs1
        exact either (gateFault_sound hs2) hs2

theorem copyStack_sound {s : State} {c d : Crew} {k : Nat} (h : Sound s) : Sound (s.copyStack c d k) := by
  induction k generalizing s c d with
  | zero =>
    unfold State.copyStack
    exact h
  | succ n ih =>
    unfold State.copyStack
    dsimp only
    split
    · exact store_sound (ih h)
    · exact ih h

theorem reseatWindows_sound {s : State} {id : Nat} (h : Sound s) : Sound (s.reseatWindows id) := by
  unfold State.reseatWindows
  dsimp only
  split
  · exact h
  · split
    · exact h
    · exact modCrew_sound (copyStack_sound (modCore_sound h))

theorem leaveCore_sound {s : State} {blk place : Nat} (h : Sound s) : Sound (s.leaveCore blk place) := by
  unfold State.leaveCore
  split
  · exact h
  · extract_lets s1 s2 s3 s4 s5 s6
    have hs1 : Sound s1 := over_list (fun _ _ ht => haltCrew_sound ht) h
    have hs2 : Sound s2 := release_sound hs1
    have hs3 : Sound s3 := either hs2 (over_list (fun _ _ hu => over_list (fun _ _ hv => freeUnits_sound hv) hu) hs2)
    have hs4 : Sound s4 := Fine.sound hs3
    have hs5 : Sound s5 := either (Fine.sound (Fine.putBmem hs4)) hs4
    have hs6 : Sound s6 := Fine.sound hs5
    exact either h (modBlock_sound hs6)

theorem enterCore_sound {s : State} {blk core off : Nat} {seats : List (Nat × Nat)} (h : Sound s) : Sound (s.enterCore blk core off seats) := by
  have hput : ∀ x : Saved, Fine s.mem (s.bmem.write (coreKey core off) x.bm) s.amem (if x.sm.isEmpty then s.smem else s.smem.write (coreKey core 0) x.sm) s.cores
      s.groups s.kds s.ports s.coxes := fun x =>
    { h.fine with
      bmem := Memory.write_wf _ _ h.fine.bmem
      smem := either (P := fun m => Memory.wf m = true) h.fine.smem (Memory.write_wf _ _ h.fine.smem) }
  unfold State.enterCore
  dsimp only
  split
  · exact h
  · refine either (over_list (fun _ _ ht => modCrew_sound ht) (Fine.sound (modBlock_sound ?_)))
      (over_list (fun _ _ ht => either ht (reseatWindows_sound ht)) (over_list (fun _ _ ht => modCrew_sound ht) (Fine.sound (modBlock_sound ?_))))
    · split
      · exact h
      · next x _ => exact Fine.sound (over_list (fun _ _ ht => Fine.sound (Fine.putAmem ht)) (Fine.sound (hput x)))
    · split
      · exact h
      · next x _ => exact Fine.sound (over_list (fun _ _ ht => Fine.sound (Fine.putAmem ht)) (Fine.sound (hput x)))

theorem modCox_sound {s : State} {port : Nat} {f : CoxSt → CoxSt} (h : Sound s) : Sound (s.modCox port f) := by
  unfold State.modCox
  exact Fine.sound (Fine.setCoxes h)

theorem modSlot_sound {s : State} {port k : Nat} {f : CoxSlot → CoxSlot} (h : Sound s) : Sound (s.modSlot port k f) := by
  unfold State.modSlot
  exact modCox_sound h

theorem coxFree_sound {s : State} {port k : Nat} (h : Sound s) : Sound (s.coxFree port k) := by
  unfold State.coxFree
  dsimp only
  refine Fine.sound (modSlot_sound (modCox_sound ?_))
  split
  · exact Fine.sound h
  · exact h

theorem coxKill_sound {s : State} {port k : Nat} (h : Sound s) : Sound (s.coxKill port k) := by
  unfold State.coxKill
  dsimp only
  exact either h (either (modSlot_sound h) (coxFree_sound h))

theorem kdFree_sound {s : State} {d : Nat} (h : Sound s) : Sound (s.kdFree d) := by
  unfold State.kdFree
  exact Fine.sound (Fine.setKds h)

theorem terminate_sound {s : State} {ctx : Nat} (h : Sound s) : Sound (s.terminate ctx) := by
  unfold State.terminate
  extract_lets _ _ s1 _ s2 _ _ s3 s4 s5 s6 s7 _
  have hs1 : Sound s1 := over_list (fun _ _ ht => haltCrew_sound ht) h
  have hs2 : Sound s2 := over_list (fun _ _ ht => either ht (over_list (fun _ _ hu => freeUnits_sound hu) ht)) hs1
  have hs3 : Sound s3 := Fine.sound hs2
  have hs4 : Sound s4 := over_list (fun _ _ ht => setLaunch_sound ht) hs3
  have hs5 : Sound s5 := Fine.sound hs4
  have hs6 : Sound s6 := over_list (fun _ _ ht => over_list (fun _ _ hv => either (coxKill_sound hv) hv) ht) hs5
  have hs7 : Sound s7 := over_list (fun _ _ ht => either (kdFree_sound ht) ht) hs6
  exact setCtxSt_sound hs7

theorem sweepBlocks_sound {s : State} (h : Sound s) : Sound s.sweepBlocks := by
  unfold State.sweepBlocks
  exact Fine.sound h

theorem umpire_sound {s : State} {b : Block} {cl : Bool} {id sub cnt2 : Nat} (h : Sound s) : Sound (s.umpire b cl id sub cnt2) := by
  unfold State.umpire
  dsimp only
  split
  · next he => exact terminate_sound (along FstSound (postRecord_sound h) he)
  · next he1 => exact along FstSound (postRecord_sound h) he1

/-! ## Functions of Machine/System -/

theorem sysNop_sound {s : State} (h : Sound s) : ResAll DoneSound (sysNop s) := by
  unfold sysNop
  exact h

theorem completeBar_sound {s : State} {blk id : Nat} (h : Sound s) : Sound (s.completeBar blk id) := by
  unfold State.completeBar
  dsimp only
  split
  · exact h
  · exact Fine.sound (modBlock_sound (over_list (fun _ _ ht => acquire_sound ht) h))

theorem arriveBar_sound {s : State} {blk id cnt crew : Nat} {act : Mask} (h : Sound s) : Sound (s.arriveBar blk id cnt crew act) := by
  unfold State.arriveBar
  split
  · extract_lets _ _ s1 _ _ s2 s3
    have hs1 : Sound s1 := modCrew_sound h
    have hs2 : Sound s2 := modBlock_sound hs1
    have hs3 : Sound s3 := releaseAt_sound hs2
    exact either (completeBar_sound hs3) hs3
  · exact h

theorem runBar_sound {f : FormS} {arrive wait : Bool} {s : State} (h : Sound s) : OutSound (runBar f arrive wait s) := by
  unfold runBar
  dsimp only
  refine issue_sound (fun _ _ hx => ?_) h
  split
  · exact sysNop_sound hx
  · refine either trivial (either (sysNop_sound hx) (either trivial (either (either trivial ?_)
      (either (sysNop_sound hx) (either trivial (sysNop_sound (modCrew_sound (acquire_sound hx))))))))
    split
    · exact either (sysNop_sound (umpire_sound (modCrew_sound hx))) (sysNop_sound (arriveBar_sound (either (modCrew_sound hx) hx)))
    · exact sysNop_sound (arriveBar_sound (either (modCrew_sound hx) hx))

theorem tryCbar_sound {s : State} {b : Block} {id : Nat} (h : Sound s) : Sound (s.tryCbar b id) := by
  unfold State.tryCbar
  dsimp only
  exact either h (Fine.sound (modBlock_sound (over_list (fun _ _ ht => acquire_sound ht) h)))

theorem execCbar_sound {f : FormS} {s : State} (h : Sound s) : OutSound (execCbar f s) := by
  unfold execCbar
  extract_lets _ _
  refine issue_sound (fun _ _ hx => ?_) h
  split
  · exact sysNop_sound hx
  · extract_lets _ s1 _ _ s2
    have hs1 : Sound s1 := modBlock_sound hx
    have hs2 : Sound s2 := modCrew_sound hs1
    exact either (sysNop_sound hx) (either trivial (either trivial (sysNop_sound (tryCbar_sound (releaseAt_sound hs2)))))

theorem execGate_sound {f : FormS} {s : State} (h : Sound s) : OutSound (execGate f s) := by
  unfold execGate
  extract_lets _ _
  refine issue_sound (fun _ _ hx => either trivial ?_) h
  split
  · extract_lets _
    exact either trivial (either trivial (noteTable_sound hx))
  · extract_lets s1 _ _
    have hs1 : Sound s1 := useDomain_sound hx
    split
    · exact noteFetch_sound hs1
    · next he => exact along (ResAll Free) checkTarget_sound he
    · split
      · exact show Sound _ from either hs1 (modCore_sound hs1)
      · extract_lets s2 s3 s4 s5
        have hs2 : Sound s2 := modCore_sound hs1
        have hs3 : Sound s3 := noteEntry_sound hs2
        have hs4 : Sound s4 := acquire_sound (releaseAt_sound hs3)
        have hs5 : Sound s5 := noteLine_sound hs4
        exact modCrew_sound hs5

theorem execGret_sound {f : FormS} {s : State} (h : Sound s) : OutSound (execGret f s) := by
  unfold execGret
  extract_lets _ _ _
  refine issue_sound (fun _ _ hx => either trivial ?_) h
  split
  · exact trivial
  · extract_lets s1 s2
    have hs1 : Sound s1 := acquire_sound (releaseAt_sound (freeUnits_sound hx))
    have hs2 : Sound s2 := modCrew_sound hs1
    exact either trivial (show Sound _ from either (gateFault_sound hs2) hs2)

theorem runTrap_sound {f : FormS} {code : Nat} {s : State} (h : Sound s) : OutSound (runTrap f code s) := by
  unfold runTrap
  exact issue_sound (fun _ _ hx => either (sysNop_sound hx) trivial) h

theorem trapReturn_sound {s : State} {id : Nat} {k : Bool} {e : TrapEntry} {rest : List TrapEntry} (h : Sound s) : Sound (s.trapReturn id k e rest) := by
  unfold State.trapReturn
  dsimp only
  exact either (modCrew_sound h) (deliver_sound (modCrew_sound h))

theorem execTret_sound {f : FormS} {s : State} (h : Sound s) : OutSound (execTret f s) := by
  unfold execTret
  refine issue_sound (fun _ _ hx => ?_) h
  split
  · exact sysNop_sound hx
  · exact either (sysNop_sound hx) (either trivial (trapReturn_sound hx))

theorem dropLines_sound {s : State} {p : ILine → Bool} (h : Sound s) : Sound (s.dropLines p) := by
  unfold State.dropLines
  exact Fine.sound h

theorem execIfence_sound {f : FormS} {s : State} (h : Sound s) : OutSound (execIfence f s) := by
  unfold execIfence
  dsimp only
  exact issue_sound (fun _ _ hx => sysNop_sound (Fine.sound (dropLines_sound hx))) h

theorem runMaint_sound {f : FormS} {inv : Bool} {s : State} (h : Sound s) : OutSound (runMaint f inv s) := by
  unfold runMaint
  dsimp only
  refine issue_sound (fun _ _ hx => either (sysNop_sound hx) (either (sysNop_sound (release_sound hx)) ?_)) h
  split
  · split
    · exact trivial
    · exact xfailSig_sound (release_sound hx)
  · exact sysNop_sound (either (dropLines_sound (release_sound hx)) (release_sound hx))

theorem execTlbinvVa_sound {f : FormS} {s : State} (h : Sound s) : OutSound (execTlbinvVa f s) := by
  unfold execTlbinvVa
  dsimp only
  exact issue_sound (fun _ _ hx => either (sysNop_sound hx) (sysNop_sound (Fine.sound (invalidate_sound (release_sound hx))))) h

theorem execTlbinvAsid_sound {f : FormS} {s : State} (h : Sound s) : OutSound (execTlbinvAsid f s) := by
  unfold execTlbinvAsid
  dsimp only
  exact issue_sound (fun _ _ hx => either (sysNop_sound hx) (sysNop_sound (Fine.sound (invalidate_sound (release_sound hx))))) h

theorem execTlbinvAll_sound {f : FormS} {s : State} (h : Sound s) : OutSound (execTlbinvAll f s) := by
  unfold execTlbinvAll
  dsimp only
  exact issue_sound (fun _ _ hx => either (sysNop_sound hx) (sysNop_sound (Fine.sound (invalidate_sound (release_sound hx))))) h

theorem execSigh_sound {f : FormS} {s : State} (h : Sound s) : OutSound (execSigh f s) := by
  unfold execSigh
  dsimp only
  exact issue_sound (fun _ _ hx => either (sysNop_sound hx) (sysNop_sound (postMsix_sound (release_sound hx)))) h

theorem runGets_sound {f : FormS} {p : Bool} {s : State} (h : Sound s) : OutSound (runGets f p s) := by
  unfold runGets
  dsimp only
  exact issue_sound (fun _ _ hx => hx) h

theorem setSr_sound {s : State} {x : Ctx} {n : Nat} {p : Bool} {v : Nat} {row : Row} (h : Sound s) : ResAll Sound (s.setSr x n p v row) := by
  unfold State.setSr
  dsimp only
  exact either (either trivial (either trivial (modCrew_sound h))) (either (modCrew_sound h)
      (either (modCrew_sound h) (either (show Sound _ from either h (modBlock_sound h))
          (either (show Sound _ from either h (modBlock_sound h)) (either (modCrew_sound h)
              (either (either (modCrew_sound h) (setCtxSt_sound h)) (either (either trivial (modCrew_sound h))
                  (either (show Sound _ from either h (modBlock_sound h))
                      (either h (either (modCrew_sound h) (either (modCrew_sound h) (either (modCrew_sound h) (either (modCrew_sound h) h)))))))))))))

theorem runSets_sound {f : FormS} {p : Bool} {s : State} (h : Sound s) : OutSound (runSets f p s) := by
  unfold runSets
  dsimp only
  refine issue_sound (fun _ _ hx => either (sysNop_sound hx) ?_) h
  split
  · next he => exact along (ResAll Sound) (setSr_sound hx) he
  · next he => exact either (sysNop_sound (along (ResAll Sound) (setSr_sound hx) he)) (sysNop_sound (Fine.sound (along (ResAll Sound) (setSr_sound hx) he)))

/-! ## Functions of Machine/Image -/

theorem writeDir_sound {s : State} {ctx : Nat} (h : Sound s) : Sound (s.writeDir ctx) := by
  unfold State.writeDir
  dsimp only
  exact putImage_sound h

theorem writeImage_sound {s : State} {ctx k : Nat} (h : Sound s) : Sound (s.writeImage ctx k) := by
  unfold State.writeImage
  dsimp only
  exact writeDir_sound (Fine.sound (either h (over_list (fun _ _ ht => putImage_sound ht) h)))

theorem writeTasks_sound {s : State} {ctx : Nat} (h : Sound s) : Sound (s.writeTasks ctx) := by
  unfold State.writeTasks
  dsimp only
  refine setCtxSt_sound (over_list (fun _ _ ht => ?_) h)
  split
  · exact ht
  · exact either (putImage_sound (putImage_sound ht)) (putImage_sound ht)

theorem loadImage_sound {s : State} {b : Block} (h : Sound s) : Sound (s.loadImage b) := by
  unfold State.loadImage
  split
  · exact either h (Fine.sound h)
  · exact h

theorem loadTasks_sound {s : State} {ctx : Nat} (h : Sound s) : Sound (s.loadTasks ctx) := by
  unfold State.loadTasks
  dsimp only
  exact setCtxSt_sound (Fine.sound h)

theorem takeImage_sound {s : State} {blk : Nat} (h : Sound s) : Sound (s.takeImage blk) := by
  unfold State.takeImage
  dsimp only
  split
  · exact h
  · exact modBlock_sound (over_list (fun _ _ ht => either ht (loadImage_sound ht)) h)

theorem toImages_sound {s : State} {blks : List Nat} (h : Sound s) : Sound (s.toImages blks) := by
  unfold State.toImages
  dsimp only
  exact over_list (fun _ _ ht => writeImage_sound ht) (over_list (fun _ _ hu => takeImage_sound hu) h)

theorem toImage_sound {s : State} {blk : Nat} (h : Sound s) : Sound (s.toImage blk) := by
  unfold State.toImage
  exact toImages_sound h

theorem atImage_sound {s : State} {blk : Nat} {f : State → State} (h : Sound s) (h2 : ∀ x, Sound x → Sound (f x)) : Sound (s.atImage blk f) := by
  unfold State.atImage
  split
  · exact h2 _ h
  · split
    · exact h2 _ h
    · extract_lets _ s1 s2
      have hs1 : Sound s1 := either (loadTasks_sound (loadImage_sound h)) (loadImage_sound h)
      have hs2 : Sound s2 := writeImage_sound (h2 _ hs1)
      exact either (h2 _ h) (either (writeTasks_sound hs2) hs2)

end Sys2Proof.Proofs.SoundSystem
end

