-- ==== Sys2Proof/Proofs/SoundLaunch.lean ====
section
/-!
PROOF. Proofs/SoundLaunch.lean: launches, their blocks and their time limits keep the invariant (12).
-/

namespace Sys2Proof.Proofs.SoundLaunch

open Sys2Proof Machine SoundStates SoundMemory SoundCompute SoundAccess SoundEngine SoundFabric SoundMatrix SoundSystem

theorem noteRecord_sound {s : State} {l : Launch} {r : Nat} (h : Sound s) : Sound (s.noteRecord l r) := by
  unfold State.noteRecord
  dsimp only
  exact either (over_list (fun _ _ ht => noteBadAt_sound ht) h) (either (over_list (fun _ _ hu => either (noteHandle_sound hu) hu) h) h)

theorem submit_sound {s0 : State} {record : List Byte} {own asid va : Nat} {wb : Bool} (h : Sound s0) : Sound (s0.submit record own asid va wb) := by
  unfold State.submit
  extract_lets _ s1 _ _ _ s2 _ s3 s4 s5 s6
  have hs1 : Sound s1 := useDomain_sound h
  have hs2 : Sound s2 := Fine.sound hs1
  have hs3 : Sound s3 := noteRecord_sound hs2
  have hs4 : Sound s4 := Fine.sound hs3
  have hs5 : Sound s5 := setLaunch_sound hs4
  have hs6 : Sound s6 := setLaunch_sound hs4
  exact either (Fine.sound hs5) (either hs6 (setLaunch_sound hs6))

theorem execLaunch_sound {f : FormS} {s : State} (h : Sound s) : OutSound (execLaunch f s) := by
  unfold execLaunch
  dsimp only
  refine issue_sound (fun _ _ hx => either (sysNop_sound hx) (either trivial ?_)) h
  split
  · next he => exact along (OptAll SigSound) (checkSig_sound hx) he
  · refine either trivial (either trivial ?_)
    split
    · exact release_sound hx
    · next he1 => exact along (ResAll Free) (meetAll_sound (release_sound hx) (fun _ _ hy => hy)) he1
    · split
      · exact sysNop_sound (noteUse_sound (release_sound hx))
      · exact either trivial (sysNop_sound (submit_sound (noteUse_sound (release_sound hx))))

theorem bootNext_sound {s : State} (h : Sound s) : Sound s.bootNext := by
  unfold State.bootNext
  dsimp only
  split
  · exact h
  · exact either h (either (submit_sound (release_sound (Fine.sound h))) (release_sound (Fine.sound h)))

theorem execBootl_sound {pa : BitVec 64} {s : State} (h : Sound s) : OutSound (execBootl pa s) := by
  unfold execBootl
  dsimp only
  exact either (Fine.sound h) (either (Fine.sound h) (either (Fine.sound h) (bootNext_sound (Fine.sound h))))

theorem execLaunchAdmission_sound {id : Nat} {s : State} (h : Sound s) : OutSound (execLaunchAdmission id s) := by
  unfold execLaunchAdmission
  extract_lets s1 s2 s3
  have hs1 : Sound s1 := Fine.sound h
  have hs2 : Sound s2 := modLaunch_sound hs1
  have hs3 : Sound s3 := Fine.sound hs2
  split
  · exact hs1
  · extract_lets _
    exact either hs1 (show Sound _ from over_list (fun _ _ ht => modCore_sound ht) (setLaunch_sound hs3))

theorem execLaunchDeadlineExpire_sound {id : Nat} {s : State} (h : Sound s) : OutSound (execLaunchDeadlineExpire id s) := by
  unfold execLaunchDeadlineExpire
  dsimp only
  split
  · exact h
  · exact either (Fine.sound (setLaunch_sound (modLaunch_sound h))) h

theorem startBlock_sound {s : State} {l : Launch} {b core off vcore : Nat} {seats : List (Nat × Nat)} (h : Sound s) :
    Sound (s.startBlock l b core off vcore seats) := by
  unfold State.startBlock
  extract_lets _ _ s1 _ _ _ s2 s3
  have hs1 : Sound s1 := either h (setCtxSt_sound h)
  have hs2 : Sound s2 := Fine.sound hs1
  have hs3 : Sound s3 := either (modCore_sound hs2) hs2
  exact modLaunch_sound hs3

theorem placeBlock_sound {s : State} {l : Launch} {b core vcore : Nat} {quads : List Nat} (h : Sound s) :
    OptAll Sound (s.placeBlock l b core vcore quads) := by
  unfold State.placeBlock
  dsimp only
  split
  · exact trivial
  · split
    · exact either (enterCore_sound (loadImage_sound (release_sound h))) trivial
    · exact either (startBlock_sound h) trivial

theorem placeGroup_sound {s : State} {l : Launch} {b : Nat} {quads : List Nat} {k : Nat} {x : List (Nat × Nat)} (h : Sound s) :
    OptAll Sound (s.placeGroup l b quads k x) := by
  induction x generalizing s l b quads k with
  | nil =>
    unfold State.placeGroup
    exact h
  | cons x xs ih =>
    unfold State.placeGroup
    split
    · exact trivial
    · next he => exact ih (along (OptAll Sound) (placeBlock_sound h) he)

theorem execBlockPlacement_sound {launch first : Nat} {cores quads vcores out : List Nat} {s : State} (h : Sound s) :
    OutSound (execBlockPlacement launch first cores quads vcores out s) := by
  unfold execBlockPlacement
  dsimp only
  split
  · exact Fine.sound h
  · refine either (Fine.sound h) ?_
    split
    · exact Fine.sound h
    · next he => exact show Sound _ from either (Fine.sound h) (over_list (fun _ _ ht => toImage_sound ht)
        (along (OptAll Sound) (either opt_none (placeGroup_sound (over_list (fun _ _ ht => leaveCore_sound ht) (Fine.sound h)))) he))

theorem execCrewRetire_sound {crew : Nat} {s : State} (h : Sound s) : OutSound (execCrewRetire crew s) := by
  unfold execCrewRetire
  dsimp only
  split
  · exact h
  · exact either (modCrew_sound h) h

theorem launchWrite_sound {s : State} {l : Launch} {w : Nat × Nat} (h : Sound s) : ExAll Sound (s.launchWrite l w) := by
  unfold State.launchWrite
  dsimp only
  split
  · split
    · exact trivial
    · exact trivial
    · exact trivial
  · split
    · exact trivial
    · exact trivial
    · exact either trivial (rmwLane_sound (release_sound h))

theorem launchWrites_sound {k : Nat} {s : State} {x : Nat} (h : Sound s) : Sound (State.launchWrites k s x) := by
  induction k generalizing s x with
  | zero =>
    unfold State.launchWrites
    exact h
  | succ n ih =>
    unfold State.launchWrites
    dsimp only
    split
    · exact h
    · refine either h ?_
      split
      · exact either h (Fine.sound (setLaunch_sound (modLaunch_sound h)))
      · split
        · next he => exact ih (modLaunch_sound (along (ExAll Sound) (launchWrite_sound h) he))
        · exact h
        · exact modLaunch_sound (postRecord_sound (noteBadAt_sound h))

theorem checkLent_sound {s : State} {core old : Nat} (h : Sound s) : Sound (s.checkLent core old) := by
  unfold State.checkLent
  dsimp only
  exact either (modCore_sound h) h

theorem handLead_sound {s : State} {b : Block} (h : Sound s) : Sound (s.handLead b) := by
  unfold State.handLead
  dsimp only
  split
  · exact h
  · exact either h (modBlock_sound h)

theorem execBlockRetire_sound {blk : Nat} {s : State} (h : Sound s) : OutSound (execBlockRetire blk s) := by
  unfold execBlockRetire
  split
  · exact h
  · extract_lets _ s1 s2 s3 _
    have hs1 : Sound s1 := handLead_sound (release_sound h)
    have hs2 : Sound s2 := Fine.sound hs1
    have hs3 : Sound s3 := modLaunch_sound hs2
    exact either h (checkLent_sound (launchWrites_sound hs3))

theorem execBlockMigration_sound {blk core : Nat} {quads : List Nat} {s : State} (h : Sound s) : OutSound (execBlockMigration blk core quads s) := by
  unfold execBlockMigration
  dsimp only
  split
  · exact Fine.sound h
  · split
    · exact Fine.sound h
    · refine either (Fine.sound h) ?_
      split
      · exact Fine.sound h
      · exact enterCore_sound (leaveCore_sound (Fine.sound h))

theorem handTo_sound {s : State} {l : Launch} {p core vcore : Nat} {quads : List Nat} (h : Sound s) : OptAll Sound (s.handTo l p core vcore quads) := by
  unfold State.handTo
  dsimp only
  exact either (opt_orElse (placeBlock_sound h) (opt_bind (P := Free) opt_free (fun _ _ => placeBlock_sound h))) (either trivial (placeGroup_sound h))

theorem execSpinHandoff_sound {blk vcore : Nat} {s : State} (h : Sound s) : OutSound (execSpinHandoff blk vcore s) := by
  unfold execSpinHandoff
  dsimp only
  split
  · exact Fine.sound h
  · split
    · exact Fine.sound h
    · refine either (Fine.sound h) (modLaunch_sound ?_)
      split
      · next he => exact toImage_sound (along (OptAll Sound) (first_some (fun _ => handTo_sound (leaveCore_sound (Fine.sound h)))) he)
      · exact Fine.sound h

theorem execHvhintRecall_sound {f : FormS} {s : State} (h : Sound s) : OutSound (execHvhintRecall f s) := by
  unfold execHvhintRecall
  dsimp only
  exact issue_sound (fun _ _ hx => either (sysNop_sound (modCore_sound hx)) (sysNop_sound hx)) h

theorem execHarvestInterference_sound {core : Nat} {s : State} (h : Sound s) : OutSound (execHarvestInterference core s) := by
  unfold execHarvestInterference
  exact either (modCore_sound h) h

theorem zeroLent_sound {s : State} {core : Nat} (h : Sound s) : Sound (s.zeroLent core) := by
  unfold State.zeroLent
  dsimp only
  exact over_list (fun _ _ ht => either ht (Fine.sound (Fine.putBmem ht))) h

theorem execHarvestRevocation_sound {core : Nat} {s : State} (h : Sound s) : OutSound (execHarvestRevocation core s) := by
  unfold execHarvestRevocation
  extract_lets s1 _ _
  have hs1 : Sound s1 := Fine.sound h
  exact either (either (modCore_sound hs1) (modCore_sound (zeroLent_sound (over_list (fun _ _ ht => leaveCore_sound ht) hs1)))) hs1

theorem execHarvestResume_sound {blk : Nat} {quads : List Nat} {s : State} (h : Sound s) : OutSound (execHarvestResume blk quads s) := by
  unfold execHarvestResume
  dsimp only
  split
  · exact Fine.sound h
  · split
    · exact Fine.sound h
    · refine either (Fine.sound h) ?_
      split
      · exact Fine.sound h
      · exact modCore_sound (enterCore_sound (Fine.sound h))

theorem execUmpireTimeout_sound {blk : Nat} {cl : Bool} {id : Nat} {s : State} (h : Sound s) : OutSound (execUmpireTimeout blk cl id s) := by
  unfold execUmpireTimeout
  dsimp only
  split
  · exact h
  · exact either (umpire_sound h) h

theorem execGateBudgetExpire_sound {crew level : Nat} {s : State} (h : Sound s) : OutSound (execGateBudgetExpire crew level s) := by
  unfold execGateBudgetExpire
  split
  · exact h
  · exact either (unwind_sound h) h

theorem execPfdDeadlineDrop_sound {core order : Nat} {s : State} (h : Sound s) : OutSound (execPfdDeadlineDrop core order s) := by
  unfold execPfdDeadlineDrop
  dsimp only
  split
  · exact h
  · exact either h (Fine.sound (modCore_sound h))

end Sys2Proof.Proofs.SoundLaunch
end

