-- ==== Sys2Proof/Proofs/SoundCox.lean ====
section
/-!
PROOF. Proofs/SoundCox.lean: the coxes keep the invariant (14).
-/

namespace Sys2Proof.Proofs.SoundCox

open Sys2Proof Machine SoundStates SoundMemory SoundCompute SoundAccess SoundEngine SoundFabric SoundMatrix SoundSystem SoundLaunch

theorem coxWrite_sound {die : Nat} {s : State} {l : List (Loc × Nat)} {x : List (Byte × Bool)} (h : Sound s) : Sound (coxWrite die s l x) := by
  induction l generalizing die s x with
  | nil =>
    unfold coxWrite
    exact h
  | cons x xs ih =>
    unfold coxWrite
    exact ih (enginePut_sound h)

theorem coxRecord_sound {s : State} {port k code sub va trap : Nat} (h : Sound s) : Sound (s.coxRecord port k code sub va trap) := by
  unfold State.coxRecord
  dsimp only
  exact postRecord_sound h

theorem coxAborted_sound {s : State} {port k : Nat} (h : Sound s) : Sound (s.coxAborted port k) := by
  unfold State.coxAborted
  exact coxFree_sound (coxRecord_sound h)

theorem coxPending_sound {s : State} {port k : Nat} (h : Sound s) : Sound (s.coxPending port k) := by
  unfold State.coxPending
  dsimp only
  exact either h (either (coxAborted_sound h) (either (coxFree_sound h) h))

theorem coxFault_sound {s : State} {port k code sub va trap : Nat} (h : Sound s) : Sound (s.coxFault port k code sub va trap) := by
  unfold State.coxFault
  dsimp only
  exact coxPending_sound (coxRecord_sound (modSlot_sound h))

theorem coxBoundary_sound {s : State} {port k : Nat} (h : Sound s) : Sound (s.coxBoundary port k) := by
  unfold State.coxBoundary
  dsimp only
  exact either (coxPending_sound (modSlot_sound h)) (either (modSlot_sound (modSlot_sound h)) (modSlot_sound h))

theorem coxPick_sound {s : State} {port : Nat} (h : Sound s) : Sound (s.coxPick port) := by
  unfold State.coxPick
  dsimp only
  refine either h ?_
  split
  · exact modCox_sound (modSlot_sound h)
  · exact h

theorem stop_sound {b : CoxBad} {s : State} (h : Sound s) : EndSound (b.stop s) := by
  unfold CoxBad.stop
  split
  · exact h
  · exact trivial

theorem coxIssue_sound {bad : Bool} {target : CoxSlot → Option Nat} {body : State → Nat → Nat → CoxSlot → CoxEnd} {s0 : State}
    (h : ∀ x y z y3, Sound x → EndSound (body x y z y3)) (h2 : Sound s0) : OutSound (coxIssue bad target body s0) := by
  unfold coxIssue
  extract_lets s1 _ _ _
  have hs1 : Sound s1 := Fine.sound h2
  refine either trivial (either (coxFault_sound hs1) (either (coxFault_sound hs1) (either (coxFault_sound hs1) (either (coxFault_sound hs1) ?_))))
  split
  · exact Fine.sound hs1
  · next he => exact coxFault_sound (either (noteBadAt_sound (along EndSound (h _ _ _ _ hs1) he)) (along EndSound (h _ _ _ _ hs1) he))
  · next he1 => exact along EndSound (h _ _ _ _ hs1) he1
  · next he2 => exact coxPending_sound (modSlot_sound (along EndSound (h _ _ _ _ hs1) he2))
  · next he3 =>
    extract_lets s2
    have hs2 : Sound s2 := modSlot_sound (along EndSound (h _ _ _ _ hs1) he3)
    exact either (coxFault_sound hs2) (either (coxBoundary_sound hs2) hs2)

theorem execCoxIllop_sound {_opc : BitVec 6} {_rest : BitVec 58} {s0 : State} (h : Sound s0) : OutSound (execCoxIllop _opc _rest s0) := by
  unfold execCoxIllop
  extract_lets s1 _ _ _
  have hs1 : Sound s1 := Fine.sound h
  exact either trivial (either (coxFault_sound hs1) (either (coxFault_sound hs1) (coxFault_sound hs1)))

theorem coxSet_sound {d : BitVec 4} {f : CoxSlot → Nat} {s : State} {k x : Nat} {y : CoxSlot} (h : Sound s) : EndSound (coxSet d f s k x y) := by
  unfold coxSet
  exact modSlot_sound h

theorem runCoxAlu_sound {f : FormCR} {op : Nat → Nat → Nat} {s : State} (h : Sound s) : OutSound (runCoxAlu f op s) := by
  unfold runCoxAlu
  exact coxIssue_sound (fun _ _ _ _ hx => coxSet_sound hx) h

theorem runCoxBr_sound {f : FormCB} {bad : Bool} {taken : CoxSlot → Bool} {s : State} (h : Sound s) : OutSound (runCoxBr f bad taken s) := by
  unfold runCoxBr
  dsimp only
  exact coxIssue_sound (fun _ _ _ _ hx => hx) h

theorem execCoxLoop_sound {f : FormCB} {s : State} (h : Sound s) : OutSound (execCoxLoop f s) := by
  unfold execCoxLoop
  dsimp only
  exact coxIssue_sound (fun _ _ _ _ hx => modSlot_sound hx) h

theorem coxEmit_sound {s : State} {port k : Nat} {sl : CoxSlot} {sd : CoxSend} {ns : List Nat} (h : Sound s) : Sound (s.coxEmit port k sl sd ns) := by
  generalize hf : State.coxEmit = f
  delta State.coxEmit at hf
  subst hf
  beta_reduce
  obtain ⟨send, hfun, hsend⟩ := exists_sendPkt
  rw [← hfun]
  clear hfun
  refine over_list (fun _ _ ht => ?_) h
  split
  · exact hsend _ _ _ ht
  · exact modSlot_sound ht
  · exact modSlot_sound ht

theorem sendPart_sound {s : State} {port k buf chunk cT tag : Nat} {close : State → State} (h : Sound s) (h2 : ∀ x, Sound x → Sound (close x)) :
    EndSound (sendPart s port k buf chunk cT tag close) := by
  unfold sendPart
  dsimp only
  split
  · split
    · exact h
    · exact either (h2 _ (modSlot_sound h)) h
  · split
    · exact stop_sound h
    · exact coxEmit_sound (Fine.sound (modSlot_sound h))

theorem windowEnd_sound {s : State} {port k tag : Nat} (h : Sound s) : OptAll EndSound (windowEnd s port k tag) := by
  unfold windowEnd
  dsimp only
  split
  · exact h
  · exact either (modSlot_sound h) (either trivial h)

theorem closeWin_sound {s : State} {port k tag : Nat} (h : Sound s) : Sound (s.closeWin port k tag) := by
  unfold State.closeWin
  exact modSlot_sound h

theorem combineChunk_sound {s : State} {port k : Nat} {buf ireg : BitVec 4} {tag : Nat} (h : Sound s) : ExAll Sound (combineChunk s port k buf ireg tag) := by
  unfold combineChunk
  dsimp only
  split
  · exact trivial
  · exact trivial
  · exact trivial
  · exact coxWrite_sound h

theorem execCoxSend_sound {f : FormCC} {s : State} (h : Sound s) : OutSound (execCoxSend f s) := by
  unfold execCoxSend
  refine coxIssue_sound (fun _ _ _ _ hx => ?_) h
  split
  · exact hx
  · exact sendPart_sound hx (fun _ hx => hx)

theorem execCoxPost_sound {f : FormCC} {s : State} (h : Sound s) : OutSound (execCoxPost f s) := by
  unfold execCoxPost
  dsimp only
  refine coxIssue_sound (fun _ _ _ _ hx => ?_) h
  split
  · exact either trivial hx
  · exact modSlot_sound (Fine.sound hx)

theorem execCoxRecv_sound {f : FormCC} {s : State} (h : Sound s) : OutSound (execCoxRecv f s) := by
  unfold execCoxRecv
  refine coxIssue_sound (fun _ _ _ _ hx => ?_) h
  split
  · exact hx
  · split
    · next he => exact along (OptAll EndSound) (windowEnd_sound hx) he
    · exact closeWin_sound hx

theorem execCoxComb_sound {f : FormCC} {s : State} (h : Sound s) : OutSound (execCoxComb f s) := by
  unfold execCoxComb
  refine coxIssue_sound (fun _ _ _ _ hx => ?_) h
  split
  · exact hx
  · split
    · next he => exact along (OptAll EndSound) (windowEnd_sound hx) he
    · split
      · exact stop_sound hx
      · next he1 => exact closeWin_sound (along (ExAll Sound) (combineChunk_sound hx) he1)

theorem execCoxCombf_sound {f : FormCC} {s : State} (h : Sound s) : OutSound (execCoxCombf f s) := by
  unfold execCoxCombf
  dsimp only
  refine coxIssue_sound (fun _ _ _ _ hx => ?_) h
  split
  · exact hx
  · refine either (sendPart_sound hx (fun _ hy => hy)) ?_
    split
    · next he => exact along (OptAll EndSound) (windowEnd_sound hx) he
    · split
      · exact stop_sound hx
      · next he1 => exact sendPart_sound (modSlot_sound (closeWin_sound (along (ExAll Sound) (combineChunk_sound hx) he1))) (fun _ hx => hx)

theorem execCoxFwd_sound {f : FormCC} {s : State} (h : Sound s) : OutSound (execCoxFwd f s) := by
  unfold execCoxFwd
  dsimp only
  refine coxIssue_sound (fun _ _ _ _ hx => ?_) h
  split
  · exact hx
  · refine either (sendPart_sound hx (fun _ hy => closeWin_sound hy)) ?_
    split
    · next he => exact along (OptAll EndSound) (windowEnd_sound hx) he
    · exact sendPart_sound (modSlot_sound hx) (fun _ hx => closeWin_sound hx)

theorem execCoxWaitf_sound {f : FormCF} {s : State} (h : Sound s) : OutSound (execCoxWaitf f s) := by
  unfold execCoxWaitf
  refine coxIssue_sound (fun _ _ _ _ hx => ?_) h
  split
  · exact stop_sound hx
  · exact either (beforeLoad_sound hx) hx

theorem execCoxSigf_sound {f : FormCF} {s : State} (h : Sound s) : OutSound (execCoxSigf f s) := by
  unfold execCoxSigf
  refine coxIssue_sound (fun _ _ _ _ hx => ?_) h
  split
  · exact stop_sound hx
  · exact rmwLane_sound (release_sound hx)

theorem execCoxWaitSatisfied_sound {port k : Nat} {s : State} (h : Sound s) : OutSound (execCoxWaitSatisfied port k s) := by
  unfold execCoxWaitSatisfied
  dsimp only
  refine either (Fine.sound h) (show Sound _ from either (modSlot_sound ?_) ?_)
  · split
    · split
      · exact Fine.sound h
      · exact either (Fine.sound h) (coxEmit_sound (modSlot_sound (Fine.sound h)))
    · split
      · refine modSlot_sound (either ?_ (coxRecord_sound ?_))
        · split
          · exact Fine.sound h
          · exact either (Fine.sound h) (coxEmit_sound (modSlot_sound (Fine.sound h)))
        · split
          · exact Fine.sound h
          · exact either (Fine.sound h) (coxEmit_sound (modSlot_sound (Fine.sound h)))
      · refine modSlot_sound ?_
        split
        · exact Fine.sound h
        · exact either (Fine.sound h) (coxEmit_sound (modSlot_sound (Fine.sound h)))
      · split
        · exact Fine.sound h
        · exact either (Fine.sound h) (coxEmit_sound (modSlot_sound (Fine.sound h)))
  · split
    · split
      · exact Fine.sound h
      · exact either (Fine.sound h) (coxEmit_sound (modSlot_sound (Fine.sound h)))
    · split
      · refine modSlot_sound (either ?_ (coxRecord_sound ?_))
        · split
          · exact Fine.sound h
          · exact either (Fine.sound h) (coxEmit_sound (modSlot_sound (Fine.sound h)))
        · split
          · exact Fine.sound h
          · exact either (Fine.sound h) (coxEmit_sound (modSlot_sound (Fine.sound h)))
      · refine modSlot_sound ?_
        split
        · exact Fine.sound h
        · exact either (Fine.sound h) (coxEmit_sound (modSlot_sound (Fine.sound h)))
      · split
        · exact Fine.sound h
        · exact either (Fine.sound h) (coxEmit_sound (modSlot_sound (Fine.sound h)))

theorem execCoxRefusalTimeout_sound {port k : Nat} {s : State} (h : Sound s) : OutSound (execCoxRefusalTimeout port k s) := by
  unfold execCoxRefusalTimeout
  dsimp only
  split
  · exact Fine.sound h
  · exact either (Fine.sound h) (modSlot_sound (Fine.sound h))

theorem execCoxSpinFault_sound {port : Nat} {s : State} (h : Sound s) : OutSound (execCoxSpinFault port s) := by
  unfold execCoxSpinFault
  dsimp only
  exact show Sound _ from either (coxFault_sound (Fine.sound h)) (Fine.sound h)

theorem startDecide_sound {s : State} {src tag ctx stat : Nat} (h : Sound s) : Sound (s.startDecide src tag ctx stat) := by
  unfold State.startDecide
  dsimp only
  split
  · exact h
  · exact either (Fine.sound h) (sendPkt_sound (Fine.sound h))

theorem startTake_sound {s : State} {port k entry region : Nat} {p : Packet} (h : Sound s) : Sound (s.startTake port k entry region p) := by
  unfold State.startTake
  dsimp only
  exact modSlot_sound h

theorem startPort_sound {s : State} {port entry : Nat} {p : Packet} (h : Sound s) : Sound (s.startPort port entry p) := by
  unfold State.startPort
  dsimp only
  split
  · exact startDecide_sound h
  · split
    · exact startTake_sound h
    · exact modCox_sound h

theorem startArrive_sound {s : State} {port entry : Nat} {p : Packet} (h : Sound s) : Sound (s.startArrive port entry p) := by
  unfold State.startArrive
  exact either (startPort_sound h) (modCox_sound h)

theorem startHere_sound {s : State} {p : Packet} (h : Sound s) : Sound (s.startHere p) := by
  unfold State.startHere
  dsimp only
  exact either (startDecide_sound (Fine.sound h)) (either (startDecide_sound (Fine.sound h)) (over_list (fun _ _ ht => startArrive_sound ht) (Fine.sound h)))

theorem execCoxStartSlotFree_sound {port : Nat} {s : State} (h : Sound s) : OutSound (execCoxStartSlotFree port s) := by
  unfold execCoxStartSlotFree
  dsimp only
  split
  · exact startPort_sound (modCox_sound (Fine.sound h))
  · exact Fine.sound h

theorem execCoxStartHoldTimeout_sound {port : Nat} {s : State} (h : Sound s) : OutSound (execCoxStartHoldTimeout port s) := by
  unfold execCoxStartHoldTimeout
  dsimp only
  split
  · exact Fine.sound h
  · exact either (Fine.sound h) (startDecide_sound (modCox_sound (Fine.sound h)))

theorem execCoxDescriptorLoadComplete_sound {port k : Nat} {s : State} (h : Sound s) : OutSound (execCoxDescriptorLoadComplete port k s) := by
  unfold execCoxDescriptorLoadComplete
  dsimp only
  refine either (Fine.sound h) ?_
  split
  · exact Fine.sound h
  · exact startDecide_sound (coxFree_sound (notePteBad_sound (Fine.sound h)))
  · exact startDecide_sound (coxFree_sound (Fine.sound h))
  · exact startDecide_sound (modSlot_sound (Fine.sound h))

theorem modStart_sound {s : State} {i : Nat} {f : StartSlot → StartSlot} (h : Sound s) : Sound (s.modStart i f) := by
  unfold State.modStart
  exact Fine.sound h

theorem execStartGo_sound {i group : Nat} {s : State} (h : Sound s) : OutSound (execStartGo i group s) := by
  unfold execStartGo
  extract_lets s1 _ _ s2 _ _ _ s3
  have hs1 : Sound s1 := Fine.sound h
  have hs2 : Sound s2 := modStart_sound hs1
  have hs3 : Sound s3 := modStart_sound (Fine.sound hs2)
  exact either hs1 (either hs1 (either (modStart_sound hs2) (either (modStart_sound hs2) (route_sound hs3))))

theorem startAnswer_sound {s : State} {src tag stat : Nat} (h : Sound s) : Sound (s.startAnswer src tag stat) := by
  unfold State.startAnswer
  dsimp only
  split
  · exact h
  · exact modStart_sound h

theorem execStartWindowTimeout_sound {i : Nat} {s : State} (h : Sound s) : OutSound (execStartWindowTimeout i s) := by
  unfold execStartWindowTimeout
  dsimp only
  exact either (Fine.sound h) (modStart_sound (Fine.sound h))

theorem execCoxInstructionMemoryWrite_sound {port w : Nat} {v : BitVec 64} {s : State} (h : Sound s) :
    OutSound (execCoxInstructionMemoryWrite port w v s) := by
  unfold execCoxInstructionMemoryWrite
  dsimp only
  exact either (Fine.sound h) (either (Fine.sound h) (modCox_sound (Fine.sound h)))

theorem execCoxRegionWrite_sound {port i : Nat} {v : BitVec 64} {s : State} (h : Sound s) : OutSound (execCoxRegionWrite port i v s) := by
  unfold execCoxRegionWrite
  dsimp only
  exact either (Fine.sound h) (either (Fine.sound h) (modCox_sound (Fine.sound h)))

theorem execCoxSlotStateWrite_sound {port k r : Nat} {v : BitVec 64} {s : State} (h : Sound s) : OutSound (execCoxSlotStateWrite port k r v s) := by
  unfold execCoxSlotStateWrite
  extract_lets s1
  have hs1 : Sound s1 := Fine.sound h
  exact either hs1 (either hs1 (either (modSlot_sound hs1) (either (modSlot_sound hs1) hs1)))

theorem coxLand_sound {s : State} {port k : Nat} {p : Packet} (h : Sound s) : ExAll Sound (s.coxLand port k p) := by
  unfold State.coxLand
  dsimp only
  split
  · exact trivial
  · refine modSlot_sound (either (coxWrite_sound h) (over_list (fun _ _ ht => ?_) (Fine.sound h)))
    split
    · exact coxWrite_sound ht
    · exact ht

theorem coxReland_sound {s : State} {port k : Nat} (h : Sound s) : Sound (s.coxReland port k) := by
  unfold State.coxReland
  refine over_list (fun _ _ ht => ?_) h
  split
  · next he => exact modSlot_sound (modCox_sound (along (ExAll Sound) (coxLand_sound ht) he))
  · exact modSlot_sound ht
  · exact ht

theorem coxResume_sound {s : State} {port k : Nat} {step : Bool} (h : Sound s) : Sound (s.coxResume port k step) := by
  unfold State.coxResume
  exact either h (coxReland_sound (modSlot_sound h))

theorem execCtlResume_sound {port k : Nat} {s : State} (h : Sound s) : OutSound (execCtlResume port k s) := by
  unfold execCtlResume
  dsimp only
  exact show Sound _ from either (coxResume_sound (Fine.sound h)) (Fine.sound h)

theorem execCtlStep_sound {port k : Nat} {s : State} (h : Sound s) : OutSound (execCtlStep port k s) := by
  unfold execCtlStep
  dsimp only
  exact show Sound _ from either (coxResume_sound (Fine.sound h)) (Fine.sound h)

theorem execCtlKill_sound {port k : Nat} {s : State} (h : Sound s) : OutSound (execCtlKill port k s) := by
  unfold execCtlKill
  dsimp only
  exact show Sound _ from either (coxKill_sound (Fine.sound h)) (Fine.sound h)

end Sys2Proof.Proofs.SoundCox
end

