-- ==== Sys2Proof/Proofs/SoundUnits.lean ====
section
/-!
PROOF. Proofs/SoundUnits.lean: what packets do where they land, the units and the ports keep the invariant (13, 24).
-/

namespace Sys2Proof.Proofs.SoundUnits

open Sys2Proof Machine SoundStates SoundMemory SoundCompute SoundAccess SoundEngine SoundFabric SoundMatrix SoundSystem SoundLaunch SoundCox

/-! ## Functions of Machine/Packets -/

theorem takeLanding_sound {s : State} {i kind : Nat} (h : Sound s) : OptAll SndSound (s.takeLanding i kind) := by
  unfold State.takeLanding
  split
  · exact trivial
  · exact either trivial (Fine.sound h)

theorem applyAbort_sound {s : State} {g : Nat} (h : Sound s) : Sound (s.applyAbort g) := by
  unfold State.applyAbort
  extract_lets _ s1 s2 s3
  have hs1 : Sound s1 := Fine.sound h
  have hs2 : Sound s2 := over_list (fun _ _ ht => finishOp_sound (modOp_sound ht)) hs1
  have hs3 : Sound s3 := over_list (fun _ _ ht => over_list (fun _ _ hu => either hu
      (either (modSlot_sound hu) (coxAborted_sound (either (startDecide_sound hu) hu)))) (over_list (fun _ _ hv => startDecide_sound hv) (modCox_sound ht)))
          hs2
  exact modGroup_sound hs3

theorem execAbort_sound {i : Nat} {s0 : State} (h : Sound s0) : OutSound (execAbort i s0) := by
  unfold execAbort
  extract_lets s1
  have hs1 : Sound s1 := Fine.sound h
  split
  · exact hs1
  · next he =>
    extract_lets _ s2 s3 _ _
    have hs2 : Sound s2 := over_list (fun _ _ ht => sendAbort_sound ht) (along (OptAll SndSound) (takeLanding_sound hs1) he)
    have hs3 : Sound s3 := either (applyAbort_sound hs2) hs2
    exact either (along (OptAll SndSound) (takeLanding_sound hs1) he) (sendPkt_sound hs3)

theorem execAbortack_sound {i : Nat} {s0 : State} (h : Sound s0) : OutSound (execAbortack i s0) := by
  unfold execAbortack
  extract_lets s1
  have hs1 : Sound s1 := Fine.sound h
  split
  · exact hs1
  · next he =>
    extract_lets _ _
    exact either (along (OptAll SndSound) (takeLanding_sound hs1) he) (Fine.sound (along (OptAll SndSound) (takeLanding_sound hs1) he))

theorem accept_sound {s : State} {h : Hd} (hs : Sound s) : AcceptSound (s.accept h) := by
  unfold State.accept
  dsimp only
  exact either (show Sound _ from either (answer_sound hs) hs) (either hs
      (either hs (either (applyAbort_sound hs) (show Sound _ from either (answer_sound hs) hs))))

theorem landing_sound {i kind : Nat} {act : State → PortPkt → Option State} {s0 : State} (h : ∀ x y, Sound x → OptAll Sound (act x y)) (h2 : Sound s0) :
    OutSound (landing i kind act s0) := by
  unfold landing
  extract_lets s1
  have hs1 : Sound s1 := Fine.sound h2
  split
  · exact hs1
  · next he =>
    split
    · next he1 => exact along AcceptSound (accept_sound (useContext_sound (along (OptAll SndSound) (takeLanding_sound hs1) he))) he1
    · next he1 =>
      split
      · next he2 => exact along (OptAll Sound) (h _ _ (along AcceptSound
          (accept_sound (useContext_sound (along (OptAll SndSound) (takeLanding_sound hs1) he))) he1)) he2
      · exact hs1

theorem execWrite_sound {i : Nat} {s : State} (h : Sound s) : OutSound (execWrite i s) := by
  unfold execWrite
  refine landing_sound (fun _ _ hx => either (answer_sound hx) ?_) h
  extract_lets s1 _ _
  have hs1 : Sound s1 := either (release_sound hx) hx
  split
  · exact trivial
  · extract_lets s2
    have hs2 : Sound s2 := either (noteLandBad_sound hs1) hs1
    exact answer_sound (either (landScrub_sound hs2) hs2)
  · next t he =>
    have ht : Sound t := along LandedSound (landPieces_sound (Fine.sound hs1)) he
    extract_lets s2
    have hs2 : Sound s2 := by
      unfold s2
      split
      · exact either (addArr_sound ht) ht
      · exact ht
    exact answer_sound hs2

theorem landPiece_sound {s : State} {die : Nat} {b : Option Block} {e : HandleEntry} {h : Hd} {p : Packet} (hs : Sound s) :
    EngAll FstSound (s.landPiece die b e h p) := by
  unfold State.landPiece
  dsimp only
  split
  · exact keepAhead_sound (noteLand_sound hs)
  · exact trivial
  · exact trivial
  · exact trivial

theorem execReadreq_sound {i : Nat} {s : State} (h : Sound s) : OutSound (execReadreq i s) := by
  unfold execReadreq
  dsimp only
  refine landing_sound (fun _ _ hx => either (answer_sound hx) ?_) h
  split
  · exact trivial
  · exact answer_sound (either (noteLandBad_sound hx) hx)
  · exact answer_sound hx
  · next he => exact answer_sound (along (EngAll FstSound) (landPiece_sound hx) he)

theorem execAtomic_sound {i : Nat} {s : State} (h : Sound s) : OutSound (execAtomic i s) := by
  unfold execAtomic
  dsimp only
  refine landing_sound (fun _ _ hx => either (answer_sound hx) (either (answer_sound hx) (either (answer_sound hx) ?_))) h
  split
  · split
    · exact trivial
    · exact answer_sound hx
    · exact answer_sound (landScrub_sound (notePteBad_sound hx))
  · split
    · exact trivial
    · exact answer_sound hx
    · exact either (answer_sound hx) (answer_sound (rmwLane_sound (noteLand_sound (either (release_sound hx) hx))))

theorem chunkAccepted_sound {s : State} {port k id n : Nat} (h : Sound s) : Sound (s.chunkAccepted port k id n) := by
  unfold State.chunkAccepted
  dsimp only
  exact modSlot_sound h

theorem execReadrsp_sound {i : Nat} {s : State} (h : Sound s) : OutSound (execReadrsp i s) := by
  unfold execReadrsp
  refine landing_sound (fun _ _ hx => either (chunkAccepted_sound hx) (either (startAnswer_sound hx) ?_)) h
  split
  · exact hx
  · extract_lets _ s1
    have hs1 : Sound s1 := modOp_sound hx
    exact either (failFab_sound hx) (either (modOp_sound hx) (show Sound _ from either (finishOp_sound hs1) hs1))

theorem execMarker_sound {i : Nat} {s : State} (h : Sound s) : OutSound (execMarker i s) := by
  unfold execMarker
  dsimp only
  exact landing_sound (fun _ _ hx => either (Fine.sound hx) (answer_sound (Fine.sound hx))) h

theorem execMarkack_sound {i : Nat} {s : State} (h : Sound s) : OutSound (execMarkack i s) := by
  unfold execMarkack
  dsimp only
  refine landing_sound (fun _ _ hx => ?_) h
  split
  · exact hx
  · exact either hx (either (failFab_sound hx) (finishOp_sound (Fine.sound hx)))

theorem execProbe_sound {i : Nat} {s : State} (h : Sound s) : OutSound (execProbe i s) := by
  unfold execProbe
  dsimp only
  exact landing_sound (fun _ _ hx => answer_sound hx) h

theorem execProbeack_sound {i : Nat} {s : State} (h : Sound s) : OutSound (execProbeack i s) := by
  unfold execProbeack
  dsimp only
  refine landing_sound (fun _ _ hx => ?_) h
  split
  · exact hx
  · exact either hx (modOp_sound hx)

theorem redHold_sound {s t : State} {slice : Nat} (h : Sound t) : Sound (s.redHold t slice) := by
  unfold State.redHold
  exact Fine.sound h

theorem redRefuse_sound {s : State} {p : Packet} (h : Sound s) : Sound (s.redRefuse p) := by
  generalize hf : State.redRefuse = f
  delta State.redRefuse at hf
  subst hf
  beta_reduce
  obtain ⟨send, hfun, hsend⟩ := exists_sendPkt
  rw [← hfun]
  clear hfun
  dsimp only
  exact hsend _ _ _ h

theorem execReduce_sound {i : Nat} {s : State} (h : Sound s) : OutSound (execReduce i s) := by
  generalize hf : execReduce = f
  delta execReduce at hf
  subst hf
  beta_reduce
  obtain ⟨send, hfun, hsend⟩ := exists_sendPkt
  rw [← hfun]
  clear hfun
  obtain ⟨via, hfun, hvia⟩ := exists_sendVia
  rw [← hfun]
  clear hfun
  refine landing_sound (fun t q hx => ?_) h
  extract_lets p hd g slice e b die last
  have hlast : ∀ u stat data, Sound u → Sound (last u stat data) := by
    intro u stat data hu
    unfold last
    extract_lets r
    split
    · next he => exact along FstSound (hsend _ _ _ hu) he
    · next he => exact startAbort_sound (along FstSound (hsend _ _ _ hu) he)
  clear_value last
  refine either hx (either (redRefuse_sound hx) ?_)
  split
  · exact trivial
  · exact hlast _ _ _ (either (noteLandBad_sound hx) hx)
  · exact hlast _ _ _ hx
  · next u _ he =>
    have hu : Sound u := along (EngAll FstSound) (landPiece_sound hx) he
    extract_lets own sum rank r
    refine either (hlast _ _ _ hu) (either (hlast _ _ _ hu) ?_)
    split
    · next he' => exact redHold_sound (along FstSound (hvia _ _ _ _ hu) he')
    · next he' => exact startAbort_sound (along FstSound (hvia _ _ _ _ hu) he')

theorem execRedrsp_sound {i : Nat} {s : State} (h : Sound s) : OutSound (execRedrsp i s) := by
  unfold execRedrsp
  dsimp only
  refine landing_sound (fun _ _ hx => ?_) h
  split
  · exact hx
  · exact either hx (either (failFab_sound hx) (modOp_sound hx))

theorem chunkAnswer_sound {s : State} {p : Packet} {kind stat : Nat} (h : Sound s) : Sound (s.chunkAnswer p kind stat) := by
  generalize hf : State.chunkAnswer = f
  delta State.chunkAnswer at hf
  subst hf
  beta_reduce
  obtain ⟨send, hfun, hsend⟩ := exists_sendPkt
  rw [← hfun]
  clear hfun
  dsimp only
  exact hsend _ _ _ h

theorem execChunk_sound {i : Nat} {s0 : State} (h : Sound s0) : OutSound (execChunk i s0) := by
  unfold execChunk
  extract_lets s1
  have hs1 : Sound s1 := Fine.sound h
  split
  · exact hs1
  · next he =>
    extract_lets _ _ _ _ _ s2 _
    have hs2 : Sound s2 := either (along (OptAll SndSound) (takeLanding_sound hs1) he) (applyAbort_sound (along (OptAll SndSound) (takeLanding_sound hs1) he))
    refine either ?_ ?_
    · exact along (OptAll SndSound) (takeLanding_sound hs1) he
    · refine either ?_ ?_
      · exact chunkAnswer_sound (along (OptAll SndSound) (takeLanding_sound hs1) he)
      · split
        · exact chunkAnswer_sound hs2
        · extract_lets _ _
          refine either (chunkAnswer_sound hs2) (either (chunkAnswer_sound hs2) ?_)
          split
          · next he1 => exact chunkAnswer_sound (along (ExAll Sound) (coxLand_sound hs2) he1)
          · exact hs1
          · extract_lets s3 s4 s5
            have hs3 : Sound s3 := either (noteBadAt_sound hs2) hs2
            have hs4 : Sound s4 := modCox_sound hs3
            have hs5 : Sound s5 := modSlot_sound hs4
            exact either (chunkAnswer_sound hs3) (chunkAnswer_sound hs5)

theorem redAgain_sound {s : State} {p : Packet} {slice : Nat} (h : Sound s) : Sound (s.redAgain p slice) := by
  unfold State.redAgain
  dsimp only
  refine either h ?_
  split
  · next he => exact redHold_sound (along FstSound (sendVia_sound h) he)
  · next he => exact startAbort_sound (along FstSound (sendVia_sound h) he)

theorem execRefuse_sound {i : Nat} {s0 : State} (h : Sound s0) : OutSound (execRefuse i s0) := by
  unfold execRefuse
  extract_lets s1
  have hs1 : Sound s1 := Fine.sound h
  split
  · exact hs1
  · next he =>
    extract_lets _ _ _ _ _ _ _
    refine either ?_ ?_
    · exact along (OptAll SndSound) (takeLanding_sound hs1) he
    · refine either ?_ ?_
      · exact show Sound _ from either hs1 (redAgain_sound (along (OptAll SndSound) (takeLanding_sound hs1) he))
      · split
        · exact along (OptAll SndSound) (takeLanding_sound hs1) he
        · extract_lets _
          exact either (along (OptAll SndSound) (takeLanding_sound hs1) he)
              (either (show Sound _ from either (modSlot_sound (along (OptAll SndSound) (takeLanding_sound hs1) he))
                  (coxAborted_sound (along (OptAll SndSound) (takeLanding_sound hs1) he)))
                      (modSlot_sound (along (OptAll SndSound) (takeLanding_sound hs1) he)))

theorem crossing_sound {t : State} {p : Nat} (h : Sound t) : OptAll Sound (t.crossing p) := by
  unfold State.crossing
  dsimp only
  split
  · exact h
  · exact either (Fine.sound h) (either trivial (Fine.sound h))

theorem execPacketForward_sound {i : Nat} {s0 : State} (h : Sound s0) : OutSound (execPacketForward i s0) := by
  unfold execPacketForward
  extract_lets s1 s2
  have hs1 : Sound s1 := Fine.sound h
  have hs2 : Sound s2 := Fine.sound hs1
  split
  · exact hs1
  · refine either hs1 (show Sound _ from ?_)
    split
    · next he => exact or_default (crossing_sound (along RoutedSound (routeStep_sound hs2) he)) hs1
    · exact route_sound hs2

theorem execFabricResponseTimeout_sound {id : Nat} {s0 : State} (h : Sound s0) : OutSound (execFabricResponseTimeout id s0) := by
  unfold execFabricResponseTimeout
  dsimp only
  exact Fine.sound (fabTimeout_sound (Fine.sound h))

/-! ## Functions of Machine/Units -/

theorem readLate_sound {s : State} {c : Crew} {f : Flight} (h : Sound s) : FstSound (s.readLate c f) := by
  unfold State.readLate
  split
  · exact h
  · exact fst_sound (modOp_sound h)
  · extract_lets others word read q first
    have hq : FstSound q := by
      refine over_list (fun u l hfst => ?_) (fst_sound h)
      have hu : Sound u.1 := hfst
      extract_lets here a b was new t holds
      have ht : Sound t := either hu (beforeRmw_sound hu)
      exact either hfst (fst_sound (either hu (either (store_sound ht) (rmwWrite_sound ht))))
    exact fst_sound hq

theorem execInstructionCompletion_sound {crew flight : Nat} {s0 : State} (h : Sound s0) : OutSound (execInstructionCompletion crew flight s0) := by
  unfold execInstructionCompletion
  dsimp only
  split
  · exact Fine.sound h
  · split
    · exact Fine.sound h
    · refine either (Fine.sound h) (show Sound _ from ?_)
      split
      · exact setCrew_sound (readLate_sound (Fine.sound h))
      · exact readLate_sound (Fine.sound h)

theorem recordPosted_sound {s : State} {h : Held} {seq : Nat} (hs : Sound s) : Sound (s.recordPosted h seq) := by
  unfold State.recordPosted
  dsimp only
  split
  · refine modOp_sound ?_
    split
    · exact atImage_sound hs (fun _ hx => modCrew_sound hx)
    · exact hs
  · refine modOp_sound ?_
    split
    · exact atImage_sound hs (fun _ hx => modCrew_sound hx)
    · exact hs
  · refine terminate_sound ?_
    split
    · exact atImage_sound hs (fun _ hx => modCrew_sound hx)
    · exact hs
  · refine terminate_sound ?_
    split
    · exact atImage_sound hs (fun _ hx => modCrew_sound hx)
    · exact hs
  · refine modLaunch_sound ?_
    split
    · exact atImage_sound hs (fun _ hx => modCrew_sound hx)
    · exact hs
  · split
    · exact atImage_sound hs (fun _ hx => modCrew_sound hx)
    · exact hs

theorem retryRecord_sound {s : State} {i : Nat} {unwritable : Bool} (h : Sound s) : Sound (s.retryRecord i unwritable) := by
  unfold State.retryRecord
  split
  · exact h
  · extract_lets _
    refine either h ?_
    split
    · next he => exact recordPosted_sound (Fine.sound (along FstSound (tryPost_sound h) he))
    · next he1 =>
      extract_lets s1 _ s2
      have hs1 : Sound s1 := either (countWait_sound (along FstSound (tryPost_sound h) he1)) (along FstSound (tryPost_sound h) he1)
      have hs2 : Sound s2 := Fine.sound hs1
      split
      · exact either hs2 (rasLog_sound hs2)
      · exact hs2

theorem touchOp_sound {s : State} {o : Op} (h : Sound s) : Sound (s.touchOp o) := by
  unfold State.touchOp
  exact either (touchLent_sound h) h

theorem execEngineOperationRetire_sound {id : Nat} {s0 : State} (h : Sound s0) : OutSound (execEngineOperationRetire id s0) := by
  unfold execEngineOperationRetire
  extract_lets s1
  have hs1 : Sound s1 := Fine.sound h
  split
  · exact hs1
  · extract_lets s2
    have hs2 : Sound s2 := touchOp_sound hs1
    exact either hs1 (either (stepFabric_sound hs2) (stepEngine_sound hs2))

theorem execTsigAdd_sound {id : Nat} {s0 : State} (h : Sound s0) : OutSound (execTsigAdd id s0) := by
  unfold execTsigAdd
  dsimp only
  split
  · exact Fine.sound h
  · exact show Sound _ from either (stepEngine_sound (Fine.sound h)) (Fine.sound h)

theorem execTileTaskRetire_sound {id slice : Nat} {s0 : State} (h : Sound s0) : OutSound (execTileTaskRetire id slice s0) := by
  unfold execTileTaskRetire
  dsimp only
  split
  · exact Fine.sound h
  · refine either (Fine.sound h) (either (admitTask_sound (Fine.sound h)) (show Sound _ from ?_))
    split
    · exact retireTask_sound (stepSlice_sound (Fine.sound h))
    · exact stepSlice_sound (Fine.sound h)

theorem execRemoteWriteApply_sound {i : Nat} {s0 : State} (h : Sound s0) : OutSound (execRemoteWriteApply i s0) := by
  unfold execRemoteWriteApply
  dsimp only
  split
  · exact Fine.sound h
  · exact show Sound _ from either (Fine.sound h) (applyArriving_sound (Fine.sound h))

theorem execReplicaApply_sound {i : Nat} {s0 : State} (h : Sound s0) : OutSound (execReplicaApply i s0) := by
  unfold execReplicaApply
  dsimp only
  split
  · exact Fine.sound h
  · exact show Sound _ from either (Fine.sound h) (applyReplica_sound (Fine.sound h))

theorem execPrefetchComplete_sound {core n : Nat} {s0 : State} (h : Sound s0) : OutSound (execPrefetchComplete core n s0) := by
  unfold execPrefetchComplete
  dsimp only
  refine either (modCore_sound (Fine.sound h)) (either (modCore_sound (Fine.sound h)) ?_)
  split
  · exact Fine.sound h
  · exact modCore_sound (Fine.sound h)

/-! ## Functions of Machine/Ports -/

theorem reroute_sound {s : State} {t : Option Nat} {q : PortPkt} (h : Sound s) : Sound (s.reroute t q) := by
  unfold State.reroute
  dsimp only
  split
  · exact loseOwn_sound h
  · split
    · next he => exact Fine.sound (along RoutedSound (hopTo_sound h) he)
    · next he => exact along RoutedSound (hopTo_sound h) he
    · exact startAbort_sound h
    · exact either (startAbort_sound h) (loseOwn_sound h)
    · exact countDrop_sound h

theorem portLeaves_sound {s : State} {p back st : Nat} (h : Sound s) : Sound (s.portLeaves p back st) := by
  unfold State.portLeaves
  extract_lets _ _ _ _ _ s1 s2 s3
  have hs1 : Sound s1 := Fine.sound h
  have hs2 : Sound s2 := modPort_sound hs1
  have hs3 : Sound s3 := either (rasLog_sound (modPort_sound hs2)) hs2
  exact over_list (fun _ _ ht => reroute_sound ht) hs3

theorem repay_sound {s : State} {p : Nat} (h : Sound s) : Sound (s.repay p) := by
  unfold State.repay
  dsimp only
  exact modPort_sound h

theorem portTrains_sound {s : State} {p : Nat} (h : Sound s) : Sound (s.portTrains p) := by
  unfold State.portTrains
  exact modPort_sound (repay_sound h)

theorem portTry_sound {s : State} {p : Nat} (h : Sound s) : Sound (s.portTry p) := by
  unfold State.portTry
  exact either (portTrains_sound h) h

theorem execPortDown_sound {p back : Nat} {s0 : State} (h : Sound s0) : OutSound (execPortDown p back s0) := by
  unfold execPortDown
  dsimp only
  exact show Sound _ from either (modPort_sound (portLeaves_sound (Fine.sound h))) (Fine.sound h)

theorem portUp_sound {s : State} {p : Nat} (h : Sound s) : Sound (s.portUp p) := by
  unfold State.portUp
  dsimp only
  exact either h (rasLog_sound (modPort_sound h))

theorem execPortTraining_sound {p : Nat} {ok : Bool} {peer : Nat} {s0 : State} (h : Sound s0) : OutSound (execPortTraining p ok peer s0) := by
  unfold execPortTraining
  extract_lets s1 _ s2
  have hs1 : Sound s1 := Fine.sound h
  have hs2 : Sound s2 := modPort_sound hs1
  exact either hs1 (either (portUp_sound hs1) (either (modPort_sound hs1) (either (modPort_sound hs2) (rasLog_sound (modPort_sound hs2)))))

theorem execPortAutoRetrain_sound {p : Nat} {s0 : State} (h : Sound s0) : OutSound (execPortAutoRetrain p s0) := by
  unfold execPortAutoRetrain
  dsimp only
  exact either (modPort_sound (portTry_sound (Fine.sound h))) (Fine.sound h)

theorem execLinkStateAnnouncement_sound {k i : Nat} {up : Bool} {s0 : State} (h : Sound s0) : OutSound (execLinkStateAnnouncement k i up s0) := by
  unfold execLinkStateAnnouncement
  dsimp only
  exact either (Fine.sound h) (Fine.sound h)

theorem execKeyExchangeMessage_sound {p : Nat} {ok : Bool} {s0 : State} (h : Sound s0) : OutSound (execKeyExchangeMessage p ok s0) := by
  unfold execKeyExchangeMessage
  dsimp only
  exact either (Fine.sound h) (Fine.sound (portUp_sound (modPort_sound (Fine.sound h))))

theorem portHeld_sound {s : State} {p : Nat} (h : Sound s) : Sound (s.portHeld p) := by
  unfold State.portHeld
  dsimp only
  exact over_list (fun _ _ ht => startAbort_sound ht) (Fine.sound (postMsix_sound (modPort_sound h)))

theorem execFrameSend_sound {p ch hops : Nat} {s0 : State} (h : Sound s0) : OutSound (execFrameSend p ch hops s0) := by
  unfold execFrameSend
  extract_lets s1 _ _ _
  have hs1 : Sound s1 := Fine.sound h
  refine either hs1 ?_
  split
  · exact repay_sound hs1
  · extract_lets _ _ _ _ s2 s3 s4
    have hs2 : Sound s2 := Fine.sound hs1
    have hs3 : Sound s3 := modPort_sound hs2
    have hs4 : Sound s4 := repay_sound (either (postMsix_sound hs3) hs3)
    exact either hs1 (either (portHeld_sound hs1) (show Sound _ from either (portHeld_sound hs4) hs4))

theorem tagFails_sound {s : State} {p : Nat} (h : Sound s) : Sound (s.tagFails p) := by
  unfold State.tagFails
  dsimp only
  exact either (modPort_sound h) (modPort_sound (portLeaves_sound (modPort_sound h)))

theorem execFrameReceive_sound {p : Nat} {ok sel : Bool} {hdr : List (BitVec 32)} {data : List (BitVec 8)} {bad side : List Nat} {s0 : State} (h : Sound s0) :
    OutSound (execFrameReceive p ok sel hdr data bad side s0) := by
  unfold execFrameReceive
  extract_lets s1 _ _ s2 s3 _ _ _ _ _ s4
  have hs1 : Sound s1 := Fine.sound h
  have hs2 : Sound s2 := modPort_sound hs1
  have hs3 : Sound s3 := either hs2 (modPort_sound hs2)
  have hs4 : Sound s4 := modPort_sound hs3
  exact either hs1 (either (tagFails_sound hs1) (either hs3 (Fine.sound hs4)))

theorem execFabcfg_sound {v : BitVec 32} {s0 : State} (h : Sound s0) : OutSound (execFabcfg v s0) := by
  unfold execFabcfg
  extract_lets s1 _ _
  have hs1 : Sound s1 := Fine.sound h
  exact either hs1 (either hs1 (show Sound _ from over_list (fun _ _ ht => portTry_sound ht) (Fine.sound hs1)))

theorem execPortctlAdmdn_sound {p : Nat} {v : Bool} {s0 : State} (h : Sound s0) : OutSound (execPortctlAdmdn p v s0) := by
  unfold execPortctlAdmdn
  extract_lets s1 _ s2
  have hs1 : Sound s1 := Fine.sound h
  have hs2 : Sound s2 := modPort_sound (portLeaves_sound hs1)
  exact either hs1 (either hs1 (show Sound _ from either hs2 (portTry_sound hs2)))

theorem execPortctlRetrain_sound {p : Nat} {s0 : State} (h : Sound s0) : OutSound (execPortctlRetrain p s0) := by
  unfold execPortctlRetrain
  extract_lets s1
  have hs1 : Sound s1 := Fine.sound h
  exact either hs1 (either hs1 (portTry_sound (modPort_sound (portLeaves_sound hs1))))

theorem execPortctlMapv_sound {p : Nat} {v : Bool} {lport : Nat} {s0 : State} (h : Sound s0) : OutSound (execPortctlMapv p v lport s0) := by
  unfold execPortctlMapv
  extract_lets s1 _ _ s2 s3 s4
  have hs1 : Sound s1 := Fine.sound h
  have hs2 : Sound s2 := modPort_sound (portLeaves_sound hs1)
  have hs3 : Sound s3 := either (portTry_sound (modPort_sound hs2)) hs1
  have hs4 : Sound s4 := modPort_sound (portLeaves_sound hs3)
  exact either hs1 (either hs1 (either (portTry_sound (modPort_sound hs4)) (modPort_sound hs3)))

end Sys2Proof.Proofs.SoundUnits
end

