-- ==== Sys2Proof/Proofs/SoundHost.lean ====
section
/-!
PROOF. Proofs/SoundHost.lean: contexts, the host, the security processor and the management window keep the invariant (22 to 25).
-/

namespace Sys2Proof.Proofs.SoundHost

open Sys2Proof Machine SoundStates SoundMemory SoundCompute SoundAccess SoundEngine SoundFabric SoundMatrix SoundSystem SoundLaunch SoundCox SoundUnits

/-! ## Functions of Machine/Context -/

theorem suspend_sound {s : State} {ctx : Nat} (h : Sound s) : Sound (s.suspend ctx) := by
  unfold State.suspend
  dsimp only
  exact either h (over_list (fun _ _ ht => setLaunch_sound ht) (writeTasks_sound h))

theorem execContextPreempt_sound {ctx : Nat} {s0 : State} (h : Sound s0) : OutSound (execContextPreempt ctx s0) := by
  unfold execContextPreempt
  extract_lets s1 _ _ s2 _
  have hs1 : Sound s1 := Fine.sound h
  have hs2 : Sound s2 := over_list (fun _ _ ht => over_list (fun _ _ hu => haltCrew_sound hu) ht) hs1
  exact either hs1 (suspend_sound (setCtxSt_sound hs2))

theorem unpark_sound {s : State} {b : Block} (h : Sound s) : Sound (s.unpark b) := by
  unfold State.unpark
  extract_lets s1 s2
  have hs1 : Sound s1 := over_list (fun _ _ ht => over_list (fun _ _ hu => freeUnits_sound hu) ht) h
  have hs2 : Sound s2 := modBlock_sound hs1
  exact modCore_sound hs2

theorem execContextImageComplete_sound {ctx vcore : Nat} {s0 : State} (h : Sound s0) : OutSound (execContextImageComplete ctx vcore s0) := by
  unfold execContextImageComplete
  extract_lets s1 _ s2
  have hs1 : Sound s1 := Fine.sound h
  have hs2 : Sound s2 := release_sound (over_list (fun _ _ ht => either (unpark_sound ht) (leaveCore_sound ht)) hs1)
  exact either hs1 (suspend_sound (toImages_sound hs2))

theorem restoreBlock_sound {s : State} {b : Block} {core : Nat} {quads : List Nat} (h : Sound s) : OptAll Sound (s.restoreBlock b core quads) := by
  unfold State.restoreBlock
  dsimp only
  split
  · exact trivial
  · exact either trivial (opt_map (P := Free) opt_free (fun _ _ => enterCore_sound (loadImage_sound h)))

theorem restoreAll_sound {l : List (Block × Nat × List Nat)} {s : State} (h : Sound s) : OptAll Sound (State.restoreAll l s) := by
  induction l generalizing s with
  | nil =>
    unfold State.restoreAll
    exact h
  | cons x xs ih =>
    unfold State.restoreAll
    exact opt_bind (restoreBlock_sound h) (fun _ ht => ih ht)

theorem restoreSome_sound {ps : List (Block × Nat × List Nat)} {s : State} (h : Sound s) : Sound (State.restoreSome ps s) := by
  unfold State.restoreSome
  exact over_list (fun _ _ ht => or_default (restoreBlock_sound ht) ht) h

theorem withoutHarvest_sound {s : State} {core : Nat} (h : Sound s) : Sound (s.withoutHarvest core) := by
  unfold State.withoutHarvest
  exact modCore_sound (Fine.sound h)

theorem restoreGang_sound {s : State} {l : Launch} {plan : List (Block × Nat × List Nat)} (h : Sound s) : OptAll Sound (s.restoreGang l plan) := by
  unfold State.restoreGang
  dsimp only
  exact either trivial (opt_bind (restoreAll_sound h) (fun _ ht => either ht trivial))

theorem readmit_sound {s : State} {l : Launch} {g : Bool} (h : Sound s) : Sound (s.readmit l g) := by
  unfold State.readmit
  exact setLaunch_sound (modLaunch_sound (Fine.sound h))

theorem execContextRestore_sound {ctx : Nat} {cores : List (Nat × Nat)} {quads : List Nat} {s0 : State} (h : Sound s0) :
    OutSound (execContextRestore ctx cores quads s0) := by
  unfold execContextRestore
  extract_lets s1 _ _ _ _ s2 _ s3 _ s4 s5 s6
  have hs1 : Sound s1 := Fine.sound h
  have hs2 : Sound s2 := loadTasks_sound (release_sound hs1)
  have hs3 : Sound s3 := either hs1 (setCtxSt_sound hs2)
  have hs4 : Sound s4 := by
    refine over_list (fun _ _ ht => ?_) hs3
    split
    · next he => exact readmit_sound (along (OptAll Sound) (restoreGang_sound ht) he)
    · extract_lets _
      exact either ht (over_list (fun _ _ ht => modCore_sound ht) ht)
  have hs5 : Sound s5 := over_list (fun _ _ hu => readmit_sound hu) hs4
  have hs6 : Sound s6 := restoreSome_sound hs5
  exact either hs1 (show Sound _ from either (Fine.sound hs6) hs6)

theorem execHarvestEvict_sound {blk : Nat} {s0 : State} (h : Sound s0) : OutSound (execHarvestEvict blk s0) := by
  unfold execHarvestEvict
  extract_lets s1 s2
  have hs1 : Sound s1 := Fine.sound h
  have hs2 : Sound s2 := modBlock_sound hs1
  split
  · exact hs1
  · extract_lets s3 s4
    have hs3 : Sound s3 := unpark_sound (release_sound hs1)
    have hs4 : Sound s4 := modBlock_sound hs3
    exact either hs1 (either (Fine.sound hs2) (either hs1 (toImages_sound hs4)))

/-! ## Functions of Machine/Host -/

theorem after_sound {o : Out} {s : State} (h : OutSound o) (h2 : Sound s) : Sound (after o s) := by
  unfold after
  split
  · exact h
  · exact h2
  · exact h2

theorem resumeAgent_sound {s : State} {x : FaultAgent} (h : Sound s) : Sound (s.resumeAgent x) := by
  unfold State.resumeAgent
  dsimp only
  split
  · exact atImage_sound h (fun _ hx => modCrew_sound hx)
  · exact modOp_sound h
  · exact modLaunch_sound h

theorem declineAgent_sound {s : State} {x : FaultAgent} (h : Sound s) : Sound (s.declineAgent x) := by
  unfold State.declineAgent
  dsimp only
  split
  · split
    · exact h
    · exact either (atImage_sound h (fun _ hx => unwind_sound hx)) (terminate_sound h)
  · split
    · exact h
    · refine atImage_sound h (fun _ hy => either ?_ (failOp_sound hy))
      split
      · exact retireTask_sound (sliceEnd_sound hy)
      · exact sliceEnd_sound hy
  · exact modLaunch_sound h

theorem execFrespResume_sound {dom : Bool} {owner seq : Nat} {s0 : State} (h : Sound s0) : OutSound (execFrespResume dom owner seq s0) := by
  unfold execFrespResume
  dsimp only
  refine either (Fine.sound h) ?_
  split
  · exact Fine.sound h
  · exact resumeAgent_sound (Fine.sound h)

theorem execFrespDecline_sound {dom : Bool} {owner seq : Nat} {s0 : State} (h : Sound s0) : OutSound (execFrespDecline dom owner seq s0) := by
  unfold execFrespDecline
  dsimp only
  refine either (Fine.sound h) ?_
  split
  · exact Fine.sound h
  · exact declineAgent_sound (Fine.sound h)

theorem execFrespTerminate_sound {dom : Bool} {owner seq : Nat} {s0 : State} (h : Sound s0) : OutSound (execFrespTerminate dom owner seq s0) := by
  unfold execFrespTerminate
  dsimp only
  refine either (Fine.sound h) ?_
  split
  · exact Fine.sound h
  · split
    · exact Fine.sound h
    · exact terminate_sound (Fine.sound h)

theorem descWritten_sound {s : State} (h : Sound s) : Sound s.descWritten := by
  unfold State.descWritten
  exact Fine.sound h

theorem hostWrite_sound {s : State} {pa : Nat} {bs : List Byte} (h : Sound s) : Sound (s.hostWrite pa bs) := by
  unfold State.hostWrite
  extract_lets _ _ s1
  have hs1 : Sound s1 := either (writePa_sound h) (over_list (fun _ _ ht => either ht (writePa_sound ht)) h)
  exact either h (descWritten_sound (over_list (fun _ _ hu => either hu (clearPoison_sound hu)) hs1))

theorem execBar2Write_sound {off : Nat} {data : List (BitVec 8)} {s0 : State} (h : Sound s0) : OutSound (execBar2Write off data s0) := by
  unfold execBar2Write
  dsimp only
  exact either (Fine.sound h) (either (Fine.sound h) (hostWrite_sound (Fine.sound h)))

theorem execBar2Read_sound {off len : Nat} {s0 : State} (h : Sound s0) : OutSound (execBar2Read off len s0) := by
  unfold execBar2Read
  dsimp only
  exact either (Fine.sound h) (either (Fine.sound h) (Fine.sound h))

theorem execMsixVectorUnmask_sound {v : Nat} {s0 : State} (h : Sound s0) : OutSound (execMsixVectorUnmask v s0) := by
  unfold execMsixVectorUnmask
  dsimp only
  exact either (Fine.sound h) (show Sound _ from either (postMsix_sound (Fine.sound h)) (Fine.sound h))

theorem msixWrite_sound {s : State} {off : Nat} {v : Word} (h : Sound s) : Sound (s.msixWrite off v) := by
  unfold State.msixWrite
  dsimp only
  exact either h (either (Fine.sound h) (either (Fine.sound h) (after_sound (execMsixVectorUnmask_sound h) h)))

theorem execAddressGroupWrite_sound {g w : Nat} {v : BitVec 32} {s0 : State} (h : Sound s0) : OutSound (execAddressGroupWrite g w v s0) := by
  unfold execAddressGroupWrite
  dsimp only
  exact either (Fine.sound h) (modGroup_sound (Fine.sound h))

theorem setStage_sound {s : State} {n : Nat} (h : Sound s) : Sound (s.setStage n) := by
  unfold State.setStage
  dsimp only
  exact either h (postMsix_sound (Fine.sound h))

theorem bootFail_sound {s : State} {err : Nat} (h : Sound s) : Sound (s.bootFail err) := by
  unfold State.bootFail
  dsimp only
  exact setStage_sound (Fine.sound h)

theorem reset_sound : Sound State.reset := (sound_iff _).mpr Sys2Proof.Proofs.ResetValues.resetIsCanonical

theorem scramble_wf (stamp : Nat) (m : Memory) : (scramble stamp m).wf = true :=
  over_list (P := fun r : Memory => r.wf = true)
    (fun _ _ hr => either (P := fun r : Memory => r.wf = true) (Memory.set_wf hr _ _) (Memory.set_wf hr _ _)) rfl

theorem toReset_sound {s : State} : Sound s.toReset := Fine.sound { reset_sound.fine with mem := scramble_wf s.free s.mem }

theorem execPerstAssert_sound {s0 : State} : OutSound (execPerstAssert s0) := by
  unfold execPerstAssert
  dsimp only
  exact Fine.sound toReset_sound

theorem execPerstDeassert_sound {s0 : State} (h : Sound s0) : OutSound (execPerstDeassert s0) := by
  unfold execPerstDeassert
  dsimp only
  exact show Sound _ from either (Fine.sound h) (Fine.sound h)

theorem execFirmwareVerify_sound {imgs : List (Bool × Bool × Nat × List (BitVec 8))} {s0 : State} (h : Sound s0) : OutSound (execFirmwareVerify imgs s0) := by
  unfold execFirmwareVerify
  dsimp only
  exact either (Fine.sound h) (either (setStage_sound (Fine.sound h)) (bootFail_sound (Fine.sound h)))

theorem execSecureTrainingComplete_sound {memOk coresOk linkOk : Bool} {s0 : State} (h : Sound s0) :
    OutSound (execSecureTrainingComplete memOk coresOk linkOk s0) := by
  unfold execSecureTrainingComplete
  extract_lets s1 _
  have hs1 : Sound s1 := Fine.sound h
  exact either hs1 (either (bootFail_sound hs1) (either (bootFail_sound hs1) (either (bootFail_sound hs1) (setStage_sound (Fine.sound hs1)))))

theorem execFullServiceTransition_sound {dieUp : BitVec 4} {stackUp : BitVec 8} {cxlUp : BitVec 4} {s0 : State} (h : Sound s0) :
    OutSound (execFullServiceTransition dieUp stackUp cxlUp s0) := by
  unfold execFullServiceTransition
  dsimp only
  exact either (Fine.sound h) (setStage_sound (Fine.sound h))

theorem execHbmStackEntersService_sound {stack : Nat} {ok : Bool} {s0 : State} (h : Sound s0) : OutSound (execHbmStackEntersService stack ok s0) := by
  unfold execHbmStackEntersService
  dsimp only
  exact either (Fine.sound h) (Fine.sound h)

theorem execEnterD3hot_sound {s0 : State} (h : Sound s0) : OutSound (execEnterD3hot s0) := by
  unfold execEnterD3hot
  extract_lets s1 s2 s3 _ s4 s5 _
  have hs1 : Sound s1 := Fine.sound h
  have hs2 : Sound s2 := over_list (fun _ _ ht => after_sound (execContextPreempt_sound ht) ht) hs1
  have hs3 : Sound s3 := over_list (fun _ _ ht => over_list (fun _ _ hu => coxKill_sound hu) ht) hs2
  have hs4 : Sound s4 := over_list (fun _ _ ht => modPort_sound ht) hs1
  have hs5 : Sound s5 := release_sound hs4
  exact either hs1 (either (Fine.sound hs3) (either (Fine.sound hs5) hs1))

theorem execLeaveD3hot_sound {s0 : State} (h : Sound s0) : OutSound (execLeaveD3hot s0) := by
  unfold execLeaveD3hot
  extract_lets s1 _ _
  have hs1 : Sound s1 := Fine.sound h
  exact either (show Sound _ from over_list (fun _ _ ht => portTry_sound ht) (Fine.sound hs1)) (either (Fine.sound hs1) hs1)

theorem powerOff_sound {s : State} : Sound s.powerOff := by
  unfold State.powerOff
  dsimp only
  exact Fine.sound toReset_sound

theorem thermTrip_sound {s : State} : Sound s.thermTrip := by
  unfold State.thermTrip
  dsimp only
  exact Fine.sound powerOff_sound

theorem execClockStep_sound {avg pkg : BitVec 32} {dies temps hbm : List (BitVec 32)} {s0 : State} (h : Sound s0) :
    OutSound (execClockStep avg pkg dies temps hbm s0) := by
  unfold execClockStep
  extract_lets s1 _ s2 _ _ _ _ _ _ _ _ _ _ _ _ _ s3 s4 _ s5 s6 s7
  have hs1 : Sound s1 := Fine.sound h
  have hs2 : Sound s2 := Fine.sound hs1
  have hs3 : Sound s3 := Fine.sound hs1
  have hs4 : Sound s4 := either (rasLog_sound hs3) hs3
  have hs5 : Sound s5 := either (rasLog_sound hs4) hs4
  have hs6 : Sound s6 := either (postMsix_sound hs5) hs5
  have hs7 : Sound s7 := either (postMsix_sound hs6) hs6
  exact either hs1 (either thermTrip_sound (either (show Sound _ from either (postMsix_sound hs2) hs2) (show Sound _ from either (postMsix_sound hs7) hs7)))

theorem corrected_sound {s : State} {hbm : Bool} {unit addr : Nat} (h : Sound s) : Sound (s.corrected hbm unit addr) := by
  unfold State.corrected
  dsimp only
  exact either (postMsix_sound (rasLog_sound (Fine.sound h))) (rasLog_sound (Fine.sound h))

theorem execPatrolScrub_sound {line kind : Nat} {s0 : State} (h : Sound s0) : OutSound (execPatrolScrub line kind s0) := by
  unfold execPatrolScrub
  extract_lets s1 _ _ _ _ _
  have hs1 : Sound s1 := Fine.sound h
  exact either (either hs1 (either (corrected_sound hs1) (rasLog_sound (setPoison_sound (Fine.sound hs1)))))
      (either (show Sound _ from either hs1 (corrected_sound hs1)) (either hs1
          (either (corrected_sound hs1) (either (rasLog_sound (setPoison_sound (Fine.sound hs1))) hs1))))

theorem execOnCoreUncorrectable_sound {core crew blk : Nat} {s0 : State} (h : Sound s0) : OutSound (execOnCoreUncorrectable core crew blk s0) := by
  unfold execOnCoreUncorrectable
  dsimp only
  split
  · exact rasLog_sound (Fine.sound h)
  · split
    · next he => exact terminate_sound (along FstSound (postRecord_sound (haltCrew_sound (rasLog_sound (Fine.sound h)))) he)
    · next he1 => exact modCrew_sound (along FstSound (postRecord_sound (haltCrew_sound (rasLog_sound (Fine.sound h)))) he1)

theorem execCxlLinkDown_sound {p : Nat} {lost : List (Nat × Nat)} {s0 : State} (h : Sound s0) : OutSound (execCxlLinkDown p lost s0) := by
  unfold execCxlLinkDown
  extract_lets s1 _ s2
  have hs1 : Sound s1 := Fine.sound h
  have hs2 : Sound s2 := Fine.sound hs1
  exact either hs1 (show Sound _ from over_list (fun _ _ ht => either (Fine.sound (writePa_sound ht)) ht) hs2)

theorem execRasclr_sound {s0 : State} (h : Sound s0) : OutSound (execRasclr s0) := by
  unfold execRasclr
  dsimp only
  exact either (Fine.sound h) (Fine.sound h)

/-! ## Functions of Machine/Secp -/

theorem smcmd_sound {s : State} {v : Nat} (h : Sound s) : Sound (s.smcmd v) := by
  unfold State.smcmd
  dsimp only
  exact either h (Fine.sound h)

theorem secpCommand_sound {op : Nat} {f : State → List Byte → State × Nat × List Byte} {s0 : State} (h : ∀ t p, Sound t → FstSound (f t p))
    (h2 : Sound s0) : OutSound (secpCommand op f s0) := by
  unfold secpCommand
  extract_lets s1
  have hs1 : Sound s1 := Fine.sound h2
  split
  · exact hs1
  · extract_lets _
    refine either hs1 ?_
    split
    · next t _ _ he =>
      have ht : Sound t := along FstSound (either (fst_sound hs1) (h _ _ hs1)) he
      exact Fine.sound (either (writePa_sound ht) ht)

theorem execSecpCommandComplete_sound {s0 : State} (h : Sound s0) : OutSound (execSecpCommandComplete s0) := by
  unfold execSecpCommandComplete
  extract_lets s1
  have hs1 : Sound s1 := Fine.sound h
  split
  · exact hs1
  · extract_lets _ _ _ s2 s3 _
    have hs2 : Sound s2 := either hs1 (writePa_sound hs1)
    have hs3 : Sound s3 := release_sound hs2
    exact either hs1 (postMsix_sound (Fine.sound hs3))

theorem setKd_sound {s : State} {d : Nat} {k : KeyDom} (h : Sound s) : Sound (s.setKd d k) := by
  unfold State.setKd
  exact Fine.sound (Fine.setKds h)

theorem execKdopen_sound {s : State} (h : Sound s) : OutSound (execKdopen s) := by
  unfold execKdopen
  dsimp only
  refine secpCommand_sound (fun _ _ hx => ?_) h
  split
  · exact hx
  · exact either hx (setKd_sound (Fine.sound hx))

theorem execKdclose_sound {s : State} (h : Sound s) : OutSound (execKdclose s) := by
  unfold execKdclose
  refine secpCommand_sound (fun _ _ hx => ?_) h
  split
  · exact hx
  · exact either hx (kdFree_sound hx)

theorem setOwner_sound {s : State} {d : Nat} {frames : List Nat} (h : Sound s) : Sound (s.setOwner d frames) := by
  unfold State.setOwner
  exact Fine.sound h

theorem execKdseal_sound {s : State} (h : Sound s) : OutSound (execKdseal s) := by
  unfold execKdseal
  dsimp only
  refine secpCommand_sound (fun _ _ hx => ?_) h
  split
  · exact hx
  · exact either hx (either hx (setKd_sound (setOwner_sound (release_sound hx))))

theorem execKdmap_sound {s : State} (h : Sound s) : OutSound (execKdmap s) := by
  unfold execKdmap
  dsimp only
  refine secpCommand_sound (fun _ _ hx => either hx ?_) h
  split
  · exact hx
  · refine either hx ?_
    split
    · exact hx
    · exact Fine.sound (invalidate_sound (release_sound (writePa_sound (setOwner_sound hx))))

theorem execMpcset_sound {s : State} (h : Sound s) : OutSound (execMpcset s) := by
  unfold execMpcset
  dsimp only
  exact secpCommand_sound (fun _ _ hx => either hx (either hx (either hx (Fine.sound hx)))) h

theorem execMpcjoin_sound {s : State} (h : Sound s) : OutSound (execMpcjoin s) := by
  unfold execMpcjoin
  dsimp only
  refine secpCommand_sound (fun _ _ hx => either hx ?_) h
  split
  · exact hx
  · exact Fine.sound hx

theorem revoked_sound {s : State} {m : Mpc} {a epoch : Nat} (h : Sound s) : Sound (s.revoked m a epoch) := by
  unfold State.revoked
  extract_lets s1 s2 _ s3 s4
  have hs1 : Sound s1 := Fine.sound h
  have hs2 : Sound s2 := over_list (fun _ _ ht => either (modGroup_sound (applyAbort_sound (startAbort_sound ht))) ht) hs1
  have hs3 : Sound s3 := over_list (fun _ _ ht => failOp_sound ht) hs2
  have hs4 : Sound s4 := Fine.sound hs3
  exact over_list (fun _ _ ht => either (modPort_sound ht) ht) hs4

theorem execRevoke_sound {s : State} (h : Sound s) : OutSound (execRevoke s) := by
  unfold execRevoke
  refine secpCommand_sound (fun _ _ hx => either hx ?_) h
  split
  · exact hx
  · exact either hx (either hx (either (Fine.sound (terminate_sound hx)) (fst_sound (revoked_sound hx))))

theorem execFwstage_sound {s : State} (h : Sound s) : OutSound (execFwstage s) := by
  unfold execFwstage
  dsimp only
  exact secpCommand_sound (fun _ _ hx => either hx (either hx (Fine.sound hx))) h

theorem execFwcommit_sound {s : State} (h : Sound s) : OutSound (execFwcommit s) := by
  unfold execFwcommit
  dsimp only
  exact secpCommand_sound (fun _ _ hx => either hx (either hx (either hx (Fine.sound hx)))) h

/-! ## Functions of Machine/Mgmt -/

theorem modMgmt_sound {s : State} {f : Mgmt → Mgmt} (h : Sound s) : Sound (s.modMgmt f) := by
  unfold State.modMgmt
  exact Fine.sound h

theorem fresp_sound {s : State} {v : Nat} (h : Sound s) : Sound (s.fresp v) := by
  unfold State.fresp
  dsimp only
  refine either h ?_
  split
  · exact after_sound (execFrespResume_sound h) h
  · exact after_sound (execFrespDecline_sound h) h
  · exact after_sound (execFrespTerminate_sound h) h
  · exact h

theorem write64_sound {s : State} {off v : Nat} (h : Sound s) : Sound (s.write64 off v) := by
  unfold State.write64
  dsimp only
  exact either (after_sound (execBootl_sound h) h) (either (modMgmt_sound h)
      (either (modMgmt_sound h) (either (fresp_sound h) (either (either h (modMgmt_sound h))
          (either (modMgmt_sound h) (either (smcmd_sound h) (either (either (after_sound (execCoxInstructionMemoryWrite_sound h) h)
              (either (after_sound (execCoxRegionWrite_sound h) h) (after_sound (execCoxSlotStateWrite_sound h) h))) h)))))))

theorem ctlWrite_sound {s : State} {port k v : Nat} (h : Sound s) : Sound (s.ctlWrite port k v) := by
  unfold State.ctlWrite
  exact either h (either (after_sound (execCtlKill_sound h) h) (either (either (after_sound (execCtlStep_sound h) h) (after_sound (execCtlResume_sound h) h))
      h))

theorem portctl_sound {s : State} {p v : Nat} (h : Sound s) : Sound (s.portctl p v) := by
  unfold State.portctl
  extract_lets s1 s2
  have hs1 : Sound s1 := either (modPort_sound h) (after_sound (execPortctlMapv_sound h) h)
  have hs2 : Sound s2 := after_sound (execPortctlAdmdn_sound hs1) hs1
  exact either (after_sound (execPortctlRetrain_sound hs2) hs2) hs2

theorem startWrite_sound {s : State} {i b v : Nat} (h : Sound s) : Sound (s.startWrite i b v) := by
  unfold State.startWrite
  exact either (modStart_sound h) (either (either (after_sound (execStartGo_sound h) h) (modStart_sound h)) h)

theorem write32_sound {s : State} {off v : Nat} (h : Sound s) : Sound (s.write32 off v) := by
  unfold State.write32
  dsimp only
  exact either (modMgmt_sound h) (either (either h (modMgmt_sound h)) (either (either h (modMgmt_sound h))
      (either (after_sound (execAddressGroupWrite_sound h) h) (either (startWrite_sound h)
          (either (either (after_sound (execCoxSlotStateWrite_sound h) h) (either (ctlWrite_sound h) h))
              (either (after_sound (execFabcfg_sound h) h) (either (either h (Fine.sound h))
                  (either (portctl_sound h) (either (Fine.sound h) (either (Fine.sound h)
                      (either (either (after_sound (execRasclr_sound h) h) h)
                          (either (either h (modMgmt_sound h)) (either (either h (modMgmt_sound h)) h)))))))))))))

theorem execMgmtRegisterWrite_sound {bar off : Nat} {wide : Bool} {v : BitVec 64} {s0 : State} (h : Sound s0) :
    OutSound (execMgmtRegisterWrite bar off wide v s0) := by
  unfold execMgmtRegisterWrite
  extract_lets s1 _ s2 s3
  have hs1 : Sound s1 := Fine.sound h
  have hs2 : Sound s2 := msixWrite_sound hs1
  have hs3 : Sound s3 := write32_sound hs1
  exact either hs1 (either (show Sound _ from either (msixWrite_sound hs2) hs2)
      (either hs1 (either (show Sound _ from either (write64_sound hs1) hs1) (show Sound _ from either (write32_sound hs3) hs3))))

end Sys2Proof.Proofs.SoundHost
end

