-- ==== Sys2Proof/Proofs/StepInvariant.lean ====
section
/-!
PROOF. Proofs/StepInvariant.lean: every instruction, and so every step, keeps the invariant (11, 13, 14, 22, 24).
-/

namespace Sys2Proof.Proofs.StepInvariant

open Sys2Proof Machine SoundStates SoundMemory SoundCompute SoundAccess SoundEngine SoundFabric SoundMatrix SoundSystem SoundLaunch SoundCox SoundUnits
    SoundHost

theorem exec_sound {i : Instr} {s : State} (h : Sound s) : OutSound (exec i s) := by
  unfold exec
  cases i with
  | iaddI32 _ => exact runR_sound h
  | isubI32 _ => exact runR_sound h
  | iadd3I32 _ => exact runR_sound h
  | iaddcI32 _ => exact runCarry_sound h
  | isubbI32 _ => exact runCarry_sound h
  | imulI32 _ => exact runR_sound h
  | imulhiI32 _ => exact runR_sound h
  | imulhiN32 _ => exact runR_sound h
  | imadI32 _ => exact runR_sound h
  | imadwI32 _ => exact runR64_sound h
  | imadwN32 _ => exact runR64_sound h
  | iminI32 _ => exact runR_sound h
  | imaxI32 _ => exact runR_sound h
  | iminN32 _ => exact runR_sound h
  | imaxN32 _ => exact runR_sound h
  | iaddI64 _ => exact runR64_sound h
  | isubI64 _ => exact runR64_sound h
  | lea _ => exact runR64_sound h
  | iaddiI32 _ => exact runI_sound h
  | iaddiI64 _ => exact execIaddiI64_sound h
  | imuliI32 _ => exact runI_sound h
  | andB32 _ => exact runR_sound h
  | orB32 _ => exact runR_sound h
  | xorB32 _ => exact runR_sound h
  | andnB32 _ => exact runR_sound h
  | notB32 _ => exact runR_sound h
  | shlB32 _ => exact runR_sound h
  | shrN32 _ => exact runR_sound h
  | shrI32 _ => exact runR_sound h
  | rotlB32 _ => exact runR_sound h
  | rotrB32 _ => exact runR_sound h
  | shlB64 _ => exact runR64_sound h
  | shrN64 _ => exact runR64_sound h
  | shrI64 _ => exact runR64_sound h
  | bfeN32 _ => exact runR_sound h
  | bfeI32 _ => exact runR_sound h
  | bfiB32 _ => exact execBfiB32_sound h
  | popcB32 _ => exact runR_sound h
  | clzB32 _ => exact runR_sound h
  | ctzB32 _ => exact runR_sound h
  | brevB32 _ => exact runR_sound h
  | bswB32 _ => exact runR_sound h
  | movB32 _ => exact runR_sound h
  | moviB32 _ => exact issue_sound (fun _ _ hx => justWrite_sound hx) h
  | selB32 _ => exact runR_sound h
  | bselB32 _ => exact runR_sound h
  | andiB32 _ => exact runI_sound h
  | oriB32 _ => exact runI_sound h
  | xoriB32 _ => exact runI_sound h
  | cmpEqB32 _ => exact runCmp_sound h
  | cmpNeB32 _ => exact runCmp_sound h
  | cmpLtI32 _ => exact runCmp_sound h
  | cmpLeI32 _ => exact runCmp_sound h
  | cmpGtI32 _ => exact runCmp_sound h
  | cmpGeI32 _ => exact runCmp_sound h
  | cmpLtN32 _ => exact runCmp_sound h
  | cmpLeN32 _ => exact runCmp_sound h
  | cmpGtN32 _ => exact runCmp_sound h
  | cmpGeN32 _ => exact runCmp_sound h
  | qdef _ => exact execQdef_sound h
  | qfree _ => exact issue_sound (fun _ _ hx => modCrew_sound hx) h
  | faddF32 _ => exact runFR_sound h
  | fsubF32 _ => exact runFR_sound h
  | fmulF32 _ => exact runFR_sound h
  | ffmaF32 _ => exact runFR_sound h
  | fminF32 _ => exact runFR_sound h
  | fmaxF32 _ => exact runFR_sound h
  | fmuliF32 _ => exact runFI_sound h
  | faddiF32 _ => exact runFI_sound h
  | fclsF32 _ => exact runFR_sound h
  | fcmpEqF32 _ => exact runFcmp_sound h
  | fcmpNeF32 _ => exact runFcmp_sound h
  | fcmpLtF32 _ => exact runFcmp_sound h
  | fcmpLeF32 _ => exact runFcmp_sound h
  | fcmpGtF32 _ => exact runFcmp_sound h
  | fcmpGeF32 _ => exact runFcmp_sound h
  | fcmpUnF32 _ => exact runFcmp_sound h
  | fcmpOrF32 _ => exact runFcmp_sound h
  | haddF16x2 _ => exact runFR_sound h
  | hmulF16x2 _ => exact runFR_sound h
  | hfmaF16x2 _ => exact runFR_sound h
  | hminF16x2 _ => exact runFR_sound h
  | hmaxF16x2 _ => exact runFR_sound h
  | haddBf16x2 _ => exact runFR_sound h
  | hmulBf16x2 _ => exact runFR_sound h
  | hfmaBf16x2 _ => exact runFR_sound h
  | hminBf16x2 _ => exact runFR_sound h
  | hmaxBf16x2 _ => exact runFR_sound h
  | vaddI16x2 _ => exact runR_sound h
  | vsubI16x2 _ => exact runR_sound h
  | vaddI8x4 _ => exact runR_sound h
  | vsubI8x4 _ => exact runR_sound h
  | vminI16x2 _ => exact runR_sound h
  | vmaxI16x2 _ => exact runR_sound h
  | vminI8x4 _ => exact runR_sound h
  | vmaxI8x4 _ => exact runR_sound h
  | vminN8x4 _ => exact runR_sound h
  | vmaxN8x4 _ => exact runR_sound h
  | vaddsatI16x2 _ => exact runR_sound h
  | vaddsatI8x4 _ => exact runR_sound h
  | dp4I8x4 _ => exact runR_sound h
  | dp4N8x4 _ => exact runR_sound h
  | dp2I16x2 _ => exact runR_sound h
  | dp8I4x8 _ => exact runR_sound h
  | daddF64 _ => exact runFR_sound h
  | dsubF64 _ => exact runFR_sound h
  | dmulF64 _ => exact runFR_sound h
  | dfmaF64 _ => exact runFR_sound h
  | dminF64 _ => exact runFR_sound h
  | dmaxF64 _ => exact runFR_sound h
  | dclsF64 _ => exact runFR_sound h
  | dcmpEqF64 _ => exact runFcmp_sound h
  | dcmpNeF64 _ => exact runFcmp_sound h
  | dcmpLtF64 _ => exact runFcmp_sound h
  | dcmpLeF64 _ => exact runFcmp_sound h
  | dcmpGtF64 _ => exact runFcmp_sound h
  | dcmpGeF64 _ => exact runFcmp_sound h
  | dcmpUnF64 _ => exact runFcmp_sound h
  | dcmpOrF64 _ => exact runFcmp_sound h
  | rcpF32 _ => exact runFR_sound h
  | rsqrtF32 _ => exact runFn_sound h
  | sqrtF32 _ => exact runFR_sound h
  | exp2F32 _ => exact runFn_sound h
  | log2F32 _ => exact runFn_sound h
  | sinF32 _ => exact runFn_sound h
  | cosF32 _ => exact runFn_sound h
  | tanhF32 _ => exact runFn_sound h
  | rcpF64 _ => exact runFR_sound h
  | sqrtF64 _ => exact runFR_sound h
  | cvt _ => exact runCvt_sound h
  | cvtSr _ => exact runCvt_sound h
  | packE4m3 _ => exact runPack_sound h
  | packE5m2 _ => exact runPack_sound h
  | packE2m1 _ => exact runPack_sound h
  | packI4 _ => exact runPack_sound h
  | unpackE4m3 _ => exact runUnpack_sound h
  | unpackE5m2 _ => exact runUnpack_sound h
  | unpackE2m1 _ => exact runUnpack_sound h
  | unpackI4 _ => exact runUnpack_sound h
  | qblk _ => exact execQblk_sound h
  | dqblk _ => exact execDqblk_sound h
  | rngnext _ => exact execRngnext_sound h
  | rngseed _ => exact execRngseed_sound h
  | xlaneRot _ => exact execXlaneRot_sound h
  | xlaneShup _ => exact execXlaneShup_sound h
  | xlaneShdn _ => exact execXlaneShdn_sound h
  | xlaneIdx _ => exact execXlaneIdx_sound h
  | xbcast _ => exact execXbcast_sound h
  | bfly _ => exact execBfly_sound h
  | redAddI32 _ => exact runComb_sound h
  | redMinI32 _ => exact runComb_sound h
  | redMaxI32 _ => exact runComb_sound h
  | redAndB32 _ => exact runComb_sound h
  | redOrB32 _ => exact runComb_sound h
  | redXorB32 _ => exact runComb_sound h
  | redAddF32 _ => exact runComb_sound h
  | redMinF32 _ => exact runComb_sound h
  | redMaxF32 _ => exact runComb_sound h
  | scanAddI32 _ => exact runComb_sound h
  | scanMinI32 _ => exact runComb_sound h
  | scanMaxI32 _ => exact runComb_sound h
  | scanAddF32 _ => exact runComb_sound h
  | ballot _ => exact runMask_sound h
  | any _ => exact runVote_sound h
  | all _ => exact runVote_sound h
  | matchLanes _ => exact runMask_sound h
  | topk _ => exact execTopk_sound h
  | bra _ => exact issue_sound (fun _ _ hx => ctlDone_sound (transferTo_sound hx)) h
  | brx _ => exact runIndirect_sound h
  | call _ => exact issue_sound (fun _ _ hx => ctlDone_sound (transferTo_sound hx)) h
  | callx _ => exact execCallx_sound h
  | ret _ => exact runIndirect_sound h
  | join _ => exact execJoin_sound h
  | exit _ => exact execExit_sound h
  | loop _ => exact execLoop_sound h
  | pause _ => exact execPause_sound h
  | nop _ => exact issue_sound (fun _ _ hx => hx) h
  | ldN8 _ => exact runLoad_sound h
  | ldI8 _ => exact runLoad_sound h
  | ldN16 _ => exact runLoad_sound h
  | ldI16 _ => exact runLoad_sound h
  | ldB32 _ => exact runLoad_sound h
  | ldB64 _ => exact runLoad_sound h
  | ldB128 _ => exact runLoad_sound h
  | ldAcqB32 _ => exact runLoad_sound h
  | ldAcqB64 _ => exact runLoad_sound h
  | stB8 _ => exact runStore_sound h
  | stB16 _ => exact runStore_sound h
  | stB32 _ => exact runStore_sound h
  | stB64 _ => exact runStore_sound h
  | stB128 _ => exact runStore_sound h
  | stRelB32 _ => exact runStore_sound h
  | stRelB64 _ => exact runStore_sound h
  | stmask _ => exact runStmask_sound h
  | pfx _ => exact runPfx_sound h
  | pfd _ => exact runPfd_sound h
  | pcancel _ => exact execPcancel_sound h
  | ldN8O64 _ => exact runLoad_sound h
  | ldI8O64 _ => exact runLoad_sound h
  | ldN16O64 _ => exact runLoad_sound h
  | ldI16O64 _ => exact runLoad_sound h
  | ldB32O64 _ => exact runLoad_sound h
  | ldB64O64 _ => exact runLoad_sound h
  | ldB128O64 _ => exact runLoad_sound h
  | ldAcqB32O64 _ => exact runLoad_sound h
  | ldAcqB64O64 _ => exact runLoad_sound h
  | stB8O64 _ => exact runStore_sound h
  | stB16O64 _ => exact runStore_sound h
  | stB32O64 _ => exact runStore_sound h
  | stB64O64 _ => exact runStore_sound h
  | stB128O64 _ => exact runStore_sound h
  | stRelB32O64 _ => exact runStore_sound h
  | stRelB64O64 _ => exact runStore_sound h
  | stmaskO64 _ => exact runStmask_sound h
  | pfxO64 _ => exact runPfx_sound h
  | pfdO64 _ => exact runPfd_sound h
  | atomAddI32 _ => exact runAtom_sound h
  | atomAddF32 _ => exact runAtom_sound h
  | atomMinI32 _ => exact runAtom_sound h
  | atomMaxI32 _ => exact runAtom_sound h
  | atomMinN32 _ => exact runAtom_sound h
  | atomMaxN32 _ => exact runAtom_sound h
  | atomAndB32 _ => exact runAtom_sound h
  | atomOrB32 _ => exact runAtom_sound h
  | atomXorB32 _ => exact runAtom_sound h
  | atomExchB32 _ => exact runAtom_sound h
  | atomCasB32 _ => exact runAtom_sound h
  | atomAddI64 _ => exact runAtom_sound h
  | atomExchB64 _ => exact runAtom_sound h
  | atomCasB64 _ => exact runAtom_sound h
  | atomAddBf16x2 _ => exact runAtom_sound h
  | fence _ => exact execFence_sound h
  | bankopAddI32 _ => exact runBankop_sound h
  | bankopAddF32 _ => exact runBankop_sound h
  | bankopMinF32 _ => exact runBankop_sound h
  | bankopMaxF32 _ => exact runBankop_sound h
  | bankopMulF32 _ => exact runBankop_sound h
  | cp _ => exact runEngine_sound h
  | cp2d _ => exact runEngine_sound h
  | cp3d _ => exact runEngine_sound h
  | cpScale _ => exact runEngine_sound h
  | gather _ => exact runEngine_sound h
  | scatter _ => exact runEngine_sound h
  | waitcCp _ => exact runWaitc_sound h
  | waitcGa _ => exact runWaitc_sound h
  | waitcMx _ => exact runWaitc_sound h
  | waitcFb _ => exact runWaitc_sound h
  | arrinit _ => exact issue_sound (fun _ _ hx => either hx (either trivial (modBlock_sound hx))) h
  | arrw _ => exact issue_sound (fun _ _ hx => either hx (either trivial (either trivial (acquire_sound hx)))) h
  | arrrd _ => exact execArrrd_sound h
  | tsig _ => exact execTsig_sound h
  | fput _ => exact runFabric_sound h
  | fget _ => exact runFabric_sound h
  | fatom _ => exact runFabric_sound h
  | fmark _ => exact execFmark_sound h
  | fldred _ => exact runFabric_sound h
  | fstmc _ => exact runFabric_sound h
  | tshape _ => exact execTshape_sound h
  | mmaE4m3 _ => exact runMma_sound h
  | mmaE5m2 _ => exact runMma_sound h
  | mmaE4e5 _ => exact runMma_sound h
  | mmaE5e4 _ => exact runMma_sound h
  | mmaE2m1 _ => exact runMma_sound h
  | mmaBf16 _ => exact runMma_sound h
  | mmaF16 _ => exact runMma_sound h
  | mmaI8 _ => exact runMma_sound h
  | mmaT5 _ => exact runMma_sound h
  | mmasE4m3 _ => exact runMmas_sound h
  | mmasE5m2 _ => exact runMmas_sound h
  | mmasE2m1 _ => exact runMmas_sound h
  | mmasBf16 _ => exact runMmas_sound h
  | mmasF16 _ => exact runMmas_sound h
  | mmasI8 _ => exact runMmas_sound h
  | msacc _ => exact runTask_sound h
  | mzero _ => exact runTask_sound h
  | acca _ => exact execAcca_sound h
  | accf _ => exact execAccf_sound h
  | accld _ => exact execAccld_sound h
  | accst _ => exact runTask_sound h
  | bucket _ => exact execBucket_sound h
  | bar _ => exact runBar_sound h
  | barArrive _ => exact runBar_sound h
  | barWait _ => exact runBar_sound h
  | cbar _ => exact execCbar_sound h
  | gate _ => exact execGate_sound h
  | gret _ => exact execGret_sound h
  | trap _ => exact runTrap_sound h
  | tret _ => exact execTret_sound h
  | brk _ => exact runTrap_sound h
  | ifence _ => exact execIfence_sound h
  | gets _ => exact runGets_sound h
  | sets _ => exact runSets_sound h
  | launch _ => exact execLaunch_sound h
  | yield _ => exact issue_sound (fun _ _ hx => either (sysNop_sound hx) (sysNop_sound (modBlock_sound hx))) h
  | hvhintRecall _ => exact execHvhintRecall_sound h
  | hvhintLend _ => exact issue_sound (fun _ _ hx => either (sysNop_sound (modCore_sound hx)) (sysNop_sound hx)) h
  | getsp _ => exact runGets_sound h
  | setsp _ => exact runSets_sound h
  | icinv _ => exact runMaint_sound h
  | cwb _ => exact runMaint_sound h
  | cinv _ => exact runMaint_sound h
  | tlbinvVa _ => exact execTlbinvVa_sound h
  | tlbinvAsid _ => exact execTlbinvAsid_sound h
  | tlbinvAll _ => exact execTlbinvAll_sound h
  | sigh _ => exact execSigh_sound h
  | coxNop _ => exact coxIssue_sound (fun _ _ _ _ hx => hx) h
  | coxHalt _ => exact coxIssue_sound (fun _ _ _ _ hx => coxFree_sound hx) h
  | coxYield _ => exact coxIssue_sound (fun _ _ _ _ hx => hx) h
  | coxAbort _ => exact coxIssue_sound (fun _ _ _ _ hx => startAbort_sound hx) h
  | coxTrap _ => exact coxIssue_sound (fun _ _ _ _ hx => modSlot_sound hx) h
  | coxMov _ => exact coxIssue_sound (fun _ _ _ _ hx => coxSet_sound hx) h
  | coxAdd _ => exact runCoxAlu_sound h
  | coxSub _ => exact runCoxAlu_sound h
  | coxAnd _ => exact runCoxAlu_sound h
  | coxOr _ => exact runCoxAlu_sound h
  | coxShl _ => exact runCoxAlu_sound h
  | coxShr _ => exact runCoxAlu_sound h
  | coxMovi _ => exact coxIssue_sound (fun _ _ _ _ hx => coxSet_sound hx) h
  | coxAddi _ => exact coxIssue_sound (fun _ _ _ _ hx => coxSet_sound hx) h
  | coxBr _ => exact runCoxBr_sound h
  | coxBeq _ => exact runCoxBr_sound h
  | coxBne _ => exact runCoxBr_sound h
  | coxBlt _ => exact runCoxBr_sound h
  | coxBge _ => exact runCoxBr_sound h
  | coxLoop _ => exact execCoxLoop_sound h
  | coxSend _ => exact execCoxSend_sound h
  | coxPost _ => exact execCoxPost_sound h
  | coxRecv _ => exact execCoxRecv_sound h
  | coxComb _ => exact execCoxComb_sound h
  | coxCombf _ => exact execCoxCombf_sound h
  | coxFwd _ => exact execCoxFwd_sound h
  | coxWaitf _ => exact execCoxWaitf_sound h
  | coxSigf _ => exact execCoxSigf_sound h
  | instructionCompletion _ _ => exact execInstructionCompletion_sound h
  | faultRecordRetry _ => exact retryRecord_sound (Fine.sound h)
  | faultQueueWriteRetry _ => exact retryRecord_sound (Fine.sound h)
  | engineOperationRetire _ => exact execEngineOperationRetire_sound h
  | tsigAdd _ => exact execTsigAdd_sound h
  | tileSliceStart _ => exact startSlice_sound (Fine.sound h)
  | tileTaskRetire _ _ => exact execTileTaskRetire_sound h
  | accaGrant _ => exact allocate_sound (Fine.sound h)
  | accfUnitRelease _ => exact releaseUnit_sound (Fine.sound h)
  | umpireTimeout _ _ _ => exact execUmpireTimeout_sound h
  | gateBudgetExpire _ _ => exact execGateBudgetExpire_sound h
  | pauseExpire _ => exact modCrew_sound h
  | spinHandoff _ _ => exact execSpinHandoff_sound h
  | pfdDeadlineDrop _ _ => exact execPfdDeadlineDrop_sound h
  | launchAdmission _ => exact execLaunchAdmission_sound h
  | launchDeadlineExpire _ => exact execLaunchDeadlineExpire_sound h
  | blockPlacement _ _ _ _ _ _ => exact execBlockPlacement_sound h
  | crewRetire _ => exact execCrewRetire_sound h
  | blockRetire _ => exact execBlockRetire_sound h
  | blockMigration _ _ _ => exact execBlockMigration_sound h
  | contextPreempt _ => exact execContextPreempt_sound h
  | contextImageComplete _ _ => exact execContextImageComplete_sound h
  | contextRestore _ _ _ => exact execContextRestore_sound h
  | harvestInterference _ => exact execHarvestInterference_sound h
  | harvestRevocation _ => exact execHarvestRevocation_sound h
  | harvestParkComplete _ => exact either (modCore_sound h) h
  | harvestResume _ _ => exact execHarvestResume_sound h
  | harvestEvict _ => exact execHarvestEvict_sound h
  | remoteWriteApply _ => exact execRemoteWriteApply_sound h
  | replicaApply _ => exact execReplicaApply_sound h
  | packetForward _ => exact execPacketForward_sound h
  | write _ => exact execWrite_sound h
  | readreq _ => exact execReadreq_sound h
  | readrsp _ => exact execReadrsp_sound h
  | atomic _ => exact execAtomic_sound h
  | marker _ => exact execMarker_sound h
  | markack _ => exact execMarkack_sound h
  | probe _ => exact execProbe_sound h
  | probeack _ => exact execProbeack_sound h
  | reduce _ => exact execReduce_sound h
  | redrsp _ => exact execRedrsp_sound h
  | chunk _ => exact execChunk_sound h
  | start _ => exact landing_sound (fun _ _ hx => startHere_sound hx) h
  | abort _ => exact execAbort_sound h
  | abortack _ => exact execAbortack_sound h
  | refuse _ => exact execRefuse_sound h
  | fabricResponseTimeout _ => exact execFabricResponseTimeout_sound h
  | portDown _ _ => exact execPortDown_sound h
  | portTraining _ _ _ => exact execPortTraining_sound h
  | portAutoRetrain _ => exact execPortAutoRetrain_sound h
  | linkStateAnnouncement _ _ _ => exact execLinkStateAnnouncement_sound h
  | keyExchangeMessage _ _ => exact execKeyExchangeMessage_sound h
  | frameSend _ _ _ => exact execFrameSend_sound h
  | frameReceive _ _ _ _ _ _ _ => exact execFrameReceive_sound h
  | coxWaitSatisfied _ _ => exact execCoxWaitSatisfied_sound h
  | coxSpinFault _ => exact execCoxSpinFault_sound h
  | coxRefusalTimeout _ _ => exact execCoxRefusalTimeout_sound h
  | coxStartSlotFree _ => exact execCoxStartSlotFree_sound h
  | coxStartHoldTimeout _ => exact execCoxStartHoldTimeout_sound h
  | coxDescriptorLoadComplete _ _ => exact execCoxDescriptorLoadComplete_sound h
  | startWindowTimeout _ => exact execStartWindowTimeout_sound h
  | bootl _ => exact execBootl_sound h
  | frespResume _ _ _ => exact execFrespResume_sound h
  | frespDecline _ _ _ => exact execFrespDecline_sound h
  | frespTerminate _ _ _ => exact execFrespTerminate_sound h
  | mgmtRegisterWrite _ _ _ _ => exact execMgmtRegisterWrite_sound h
  | addressGroupWrite _ _ _ => exact execAddressGroupWrite_sound h
  | startGo _ _ => exact execStartGo_sound h
  | coxInstructionMemoryWrite _ _ _ => exact execCoxInstructionMemoryWrite_sound h
  | coxRegionWrite _ _ _ => exact execCoxRegionWrite_sound h
  | coxSlotStateWrite _ _ _ _ => exact execCoxSlotStateWrite_sound h
  | ctlResume _ _ => exact execCtlResume_sound h
  | ctlStep _ _ => exact execCtlStep_sound h
  | ctlKill _ _ => exact execCtlKill_sound h
  | getid => exact secpCommand_sound (fun _ _ hx => hx) h
  | attest => exact secpCommand_sound (fun _ _ hx => either hx hx) h
  | kdopen => exact execKdopen_sound h
  | kdseal => exact execKdseal_sound h
  | kdclose => exact execKdclose_sound h
  | kdmap => exact execKdmap_sound h
  | rekey => exact secpCommand_sound (fun _ _ hx => either hx (either hx (modPort_sound hx))) h
  | mpcset => exact execMpcset_sound h
  | mpcjoin => exact execMpcjoin_sound h
  | revoke => exact execRevoke_sound h
  | fwstage => exact execFwstage_sound h
  | fwcommit => exact execFwcommit_sound h
  | secpCommandComplete => exact execSecpCommandComplete_sound h
  | fabcfg _ => exact execFabcfg_sound h
  | portctlAdmdn _ _ => exact execPortctlAdmdn_sound h
  | portctlRetrain _ => exact execPortctlRetrain_sound h
  | portctlMapv _ _ _ => exact execPortctlMapv_sound h
  | rasclr => exact execRasclr_sound h
  | bar2Write _ _ => exact execBar2Write_sound h
  | bar2Read _ _ => exact execBar2Read_sound h
  | enterD3hot => exact execEnterD3hot_sound h
  | leaveD3hot => exact execLeaveD3hot_sound h
  | perstDeassert => exact execPerstDeassert_sound h
  | firmwareVerify _ => exact execFirmwareVerify_sound h
  | secureTrainingComplete _ _ _ => exact execSecureTrainingComplete_sound h
  | fullServiceTransition _ _ _ => exact execFullServiceTransition_sound h
  | clockStep _ _ _ _ _ => exact execClockStep_sound h
  | thermtrip => exact thermTrip_sound
  | powerRemoval => exact powerOff_sound
  | patrolScrub _ _ => exact execPatrolScrub_sound h
  | onCoreUncorrectable _ _ _ => exact execOnCoreUncorrectable_sound h
  | cxlLinkDown _ _ => exact execCxlLinkDown_sound h
  | illop _ _ => exact execIllop_sound h
  | coxIllop _ _ => exact execCoxIllop_sound h
  | perstAssert => exact execPerstAssert_sound
  | msixVectorUnmask _ => exact execMsixVectorUnmask_sound h
  | hbmStackEntersService _ _ => exact execHbmStackEntersService_sound h
  | prefetchComplete _ _ => exact execPrefetchComplete_sound h

theorem runCrew_sound {w : BitVec 96} {s : State} (h : Sound s) : OutSound (runCrew w s) := by
  unfold runCrew
  exact exec_sound h

theorem runCox_sound {w : BitVec 64} {s : State} (h : Sound s) : OutSound (runCox w s) := by
  unfold runCox
  exact exec_sound h

theorem enterLine_sound {s : State} {c : Crew} {k : Bool} (h : Sound s) : OutSound (s.enterLine c k) := by
  unfold State.enterLine
  dsimp only
  split
  · exact noteLine_sound (setCrew_sound h)
  · exact takeCause_sound (Fine.sound (noteFetch_sound h))
  · exact trivial
  · exact Fine.sound h

theorem runAt_sound {s : State} {cur : Cursor} (h : Sound s) : OutSound (s.runAt cur) := by
  unfold State.runAt
  exact runCrew_sound (Fine.sound h)

theorem pairRegion_sound {s : State} {c1 c2 : Cursor} (h : Sound s) : Sound (s.pairRegion c1 c2) := by
  unfold State.pairRegion
  split
  · exact h
  · exact either (modCrew_sound h) h

theorem raisePair_sound {s : State} {cause : Cause} (h : Sound s) : Sound (s.raisePair cause) := by
  unfold State.raisePair
  dsimp only
  split
  · exact takeCause_sound (Fine.sound (setCrew_sound h))
  · exact takeCause_sound h

theorem issuePair_sound {s pre : State} {c1 c2 : Cursor} (h : Sound s) (h2 : Sound pre) : OutSound (issuePair s pre c1 c2) := by
  unfold issuePair
  split
  · exact trivial
  · exact trivial
  · next a he =>
    have ha : Sound a := along OutSound (runAt_sound h) he
    refine either ha (either (either ha ?_) ?_)
    · split
      · next b hb =>
        have hsb : Sound b := along OutSound (runAt_sound h) hb
        exact either hsb ha
      · exact ha
      · exact ha
    · split
      · exact trivial
      · exact trivial
      · next b hb =>
        have hsb : Sound b := along OutSound (runAt_sound ha) hb
        refine either (Fine.sound h) ?_
        split
        · exact pairRegion_sound hsb
        · refine either (takeCause_sound (Fine.sound h)) ?_
          split
          · next d hd =>
            have hsd : Sound d := along OutSound (runAt_sound (Fine.sound h2)) hd
            exact either hsd (raisePair_sound (Fine.sound h2))
          · exact trivial
          · exact trivial

theorem issueSlot_sound {s : State} {c : Crew} {k : Bool} (h : Sound s) : OutSound (s.issueSlot c k) := by
  unfold State.issueSlot
  dsimp only
  exact either (Fine.sound h) (either (either (Fine.sound h) (issuePair_sound h (setCrew_sound h))) (runAt_sound h))

theorem afterIssue_sound {s : State} {id first : Nat} (h : Sound s) : Sound (s.afterIssue id first) := by
  unfold State.afterIssue
  dsimp only
  split
  · exact h
  · exact either (modBlock_sound (either (setCrew_sound h) h)) (either (setCrew_sound h) h)

theorem raiseStep_sound {s : State} {c : Crew} (h : Sound s) : Sound (s.raiseStep c) := by
  unfold State.raiseStep
  dsimp only
  exact stallCrew_sound (setCrew_sound h)

theorem trySlot_sound {s : State} {id : Nat} {k : Bool} (h : Sound s) : OutSound (s.trySlot id k) := by
  have hslot : ∀ t c, Sound t → ∀ u, t.issueSlot c k = .next u → Sound (if u.heldMark then u else (u.tookPipes c (c.slot k)).afterIssue id t.order) := by
    intro t c ht u he
    have hu : Sound u := along OutSound (issueSlot_sound ht) he
    exact either hu (afterIssue_sound (tookPipes_sound hu))
  unfold State.trySlot
  split
  · exact Fine.sound h
  · next c _ =>
    refine either (either (raiseStep_sound h) (Fine.sound h)) (either (deliver_sound h) (either ?_ ?_))
    · split
      · next t he =>
        have ht : Sound t := along OutSound (enterLine_sound h) he
        refine either ht ?_
        split
        · exact ht
        · next d _ =>
          split
          · next u hu => exact hslot t d ht u hu
          · exact issueSlot_sound ht
      · exact enterLine_sound h
    · split
      · next u hu => exact hslot s c h u hu
      · exact issueSlot_sound h

theorem endTurn_sound {s : State} (h : Sound s) : Sound s.endTurn := by
  unfold State.endTurn
  exact Fine.sound h

theorem tryAll_sound {s : State} {l : List (Nat × Bool)} (h : Sound s) : OutSound (s.tryAll l) := by
  induction l generalizing s with
  | nil =>
    unfold State.tryAll
    exact endTurn_sound h
  | cons x xs ih =>
    unfold State.tryAll
    split
    · next he => exact either (ih (Fine.sound (along OutSound (trySlot_sound h) he))) (endTurn_sound (along OutSound (trySlot_sound h) he))
    · exact trivial
    · exact trivial

theorem refillQuad_sound {s : State} {core quad : Nat} (h : Sound s) : Sound (s.refillQuad core quad) := by
  unfold State.refillQuad
  exact over_list (fun _ _ ht => settleSlots_sound ht) h

theorem quadTurn_sound {s : State} {core quad : Nat} (h : Sound s) : OutSound (s.quadTurn core quad) := by
  unfold State.quadTurn
  dsimp only
  exact tryAll_sound (refillQuad_sound h)

theorem coxTurn_sound {s : State} {port : Nat} (h : Sound s) : OutSound (s.coxTurn port) := by
  unfold State.coxTurn
  dsimp only
  split
  · exact coxPick_sound h
  · split
    · next he => exact endTurn_sound (along OutSound (runCox_sound (Fine.sound (coxPick_sound h))) he)
    · exact trivial
    · exact trivial

theorem taken_sound {s : State} {i : Instr} {rest : List Instr} (h : Sound s) : Sound (s.taken i rest) := by
  unfold State.taken
  exact Fine.sound h

theorem hostStore_sound {s : State} (h : Sound s) : Sound s.hostStore := by
  unfold State.hostStore
  dsimp only
  split
  · exact h
  · exact either h (either (writePa_sound (Fine.sound h)) (Fine.sound h))

theorem allEvents_sound {l : List Instr} {s : State} (h : Sound s) : OutSound (State.allEvents l s) := by
  induction l generalizing s with
  | nil =>
    unfold State.allEvents
    exact h
  | cons x xs ih =>
    unfold State.allEvents
    split
    · next he => exact ih (along OutSound (exec_sound h) he)
    · exact exec_sound h

theorem unitTurn_sound {s : State} (h : Sound s) : OutSound s.unitTurn := by
  unfold State.unitTurn
  dsimp only
  refine either ?_ ?_
  · split
    · exact allEvents_sound (hostStore_sound h)
    · split
      · next he => exact allEvents_sound (along OutSound (exec_sound (taken_sound (hostStore_sound h))) he)
      · exact exec_sound (taken_sound (hostStore_sound h))
  · split
    · split
      · exact hostStore_sound h
      · exact exec_sound (hostStore_sound h)
    · split
      · exact exec_sound (taken_sound (hostStore_sound h))
      · exact exec_sound (hostStore_sound h)

theorem tickClock_sound {s : State} (h : Sound s) : Sound s.tickClock := by
  unfold State.tickClock
  dsimp only
  exact Fine.sound h

theorem tickLimits_sound {s : State} (h : Sound s) : Sound s.tickLimits := by
  unfold State.tickLimits
  extract_lets s1
  have hs1 : Sound s1 := over_list (fun _ _ ht => over_list (fun _ _ hu => after_sound (execGateBudgetExpire_sound hu) hu) ht) h
  exact over_list (fun _ _ ht => over_list (fun _ _ hv => after_sound (execUmpireTimeout_sound hv) hv)
      (over_list (fun _ _ hw => after_sound (execUmpireTimeout_sound hw) hw) ht)) hs1

theorem tickWork_sound {s : State} (h : Sound s) : Sound s.tickWork := by
  unfold State.tickWork
  extract_lets s1 s2
  have hs1 : Sound s1 := over_list (fun _ _ ht => either (endUnwind_sound ht) ht) h
  have hs2 : Sound s2 := over_list (fun _ _ ht => launchWrites_sound ht) hs1
  exact sweepBlocks_sound hs2

theorem tickHarvest_sound {s : State} (h : Sound s) : Sound s.tickHarvest := by
  unfold State.tickHarvest
  exact over_list (fun _ _ ht => after_sound (execHarvestInterference_sound ht) ht) h

theorem tick_sound {s : State} (h : Sound s) : Sound s.tick := by
  unfold State.tick
  extract_lets s1 _ s2 s3
  have hs1 : Sound s1 := tickClock_sound h
  have hs2 : Sound s2 := Fine.sound hs1
  have hs3 : Sound s3 := bootNext_sound (tickHarvest_sound (tickWork_sound (tickLimits_sound hs2)))
  exact Fine.sound hs3

theorem turn_sound {s : State} {x : Agent} (h : Sound s) : OutSound (s.turn x) := by
  unfold State.turn
  split
  · exact quadTurn_sound h
  · exact coxTurn_sound h
  · exact unitTurn_sound h

theorem step_sound {s : State} (h : Sound s) : OutSound (step s) := by
  unfold step
  split
  · exact tick_sound h
  · exact turn_sound (Fine.sound h)

/-- Settles O59: each function of the model that a step can call keeps the invariant, down to the writes to memory and to the parts. -/
theorem stepKeepsCanonical : Obligations.StepKeepsCanonical := by
  unfold Obligations.StepKeepsCanonical
  intro s t hmem hsize hstep
  have hsound : Sound s := (sound_iff s).mpr ⟨hmem, hsize⟩
  exact (sound_iff t).mp (along OutSound (step_sound hsound) hstep)

end Sys2Proof.Proofs.StepInvariant
end
